-- ==== Sys2Proof/Word.lean ====
section
/-! DEFINITION. The word types: registers, records and engine numbers are 32-bit words (R5), memory
is addressed in bytes. -/

set_option Elab.async false

namespace Sys2Proof

/-- A 32-bit register, record, operand or angle. -/
abbrev Word := BitVec 32

/-- The smallest addressable unit (R5: little-endian, byte addresses). -/
abbrev Byte := BitVec 8

end Sys2Proof
end

