-- ==== Sys2Proof/Syntax.lean ====
section
/-! DEFINITION. The commands the block takes: one constructor for each row of the opcode table.
Operands are what the sender gives: an index, a word written, a value the board or the bus presents
at that instant (a conversion code, a measured voltage, a received frame). -/

set_option Elab.async false

namespace Sys2Proof

/-- Where a descriptor given as a command of its own comes from: its submission ring, slot and
epoch, its SEQ and CARAVAN_ID, whether a completion is requested for DONE (CREQ, R64) and whether
its caravan is late (R56). -/
structure Origin where
  ring : Fin 16
  slot : Nat
  epoch : Nat
  seq : Nat
  caravanId : Nat
  creq : Bool
  late : Bool
  deriving DecidableEq, Repr

/-- A transient fault in one engine pass: bits flipped in the result of an operation of a stall
(`op`), or, without one, in a held word after the passes (`addr` below 0x080 of the stall, or an
output slot). -/
structure Upset where
  pass : Fin 3
  stall : Fin 128
  op : Option Nat
  addr : Nat
  mask : Word
  deriving DecidableEq, Repr

/-- Where the engine deadline finds the engine: pass (3 = vote), stall and operation (R127). -/
structure EngineStop where
  pass : Fin 4
  stall : Fin 128
  op : Nat
  deriving DecidableEq, Repr

/-- Bits flipped in an output holding register: staged bank or bank in force, binding, bits
(R178). -/
structure BankFlip where
  applied : Bool
  bind : Nat
  mask : Word
  deriving DecidableEq, Repr


/-- What a core does at an address (R474, R477): AMO operations by their A-extension names. -/
inductive CoreOp where
  | load | store | fetch | lr | sc
  | amoSwap | amoAdd | amoXor | amoAnd | amoOr | amoMin | amoMax | amoMinu | amoMaxu
  deriving DecidableEq, Repr

/-- A boot slot of the flash as the boot ROM reads it: its 256-byte header and its body (R490). -/
structure FlashSlot where
  header : List Byte
  body : List Byte
  deriving DecidableEq, Repr

/-- A row of a memory macro: memory unit code, macro, row (R523). -/
structure MemRow where
  unit : Fin 256
  mac : Fin 64
  row : Fin 512
  deriving DecidableEq, Repr

/-- The commands of the block: one constructor for each row of the opcode table. -/
inductive Instr where
  /-- SQ_DOORBELL_WRITE (R38). A host write of a submission-ring producer index to the doorbell page is snooped and acted on 4 fc after it reaches the SRAM port. -/
  | sqDoorbellWrite (ring : Fin 16) (value : Word)
  /-- CQ_CONSUMER_INDEX_WRITE (R38). A host write of a completion-ring consumer index frees slots and may release fetches held back for completion room. -/
  | cqConsumerIndexWrite (ring : Fin 4) (value : Word)
  /-- EQ_CONSUMER_INDEX_WRITE (R38). A host write of the event-ring consumer index frees event slots. -/
  | eqConsumerIndexWrite (value : Word)
  /-- EQ_OVERFLOW (R67). When an event-ring slot next frees after drops, one EQ_OVERFLOW event giving the number dropped is posted. -/
  | eqOverflow
  /-- FETCH_SLOT (R52). At each 4-fc fetch slot the fabric fetches at most one descriptor, choosing the eligible ring by priority and then round-robin. -/
  | fetchSlot (ecc : Fin 3)
  /-- CARAVAN_CUTOFF (R22). At t0 − 500 ns, caravans whose closing descriptor has been fetched are fixed for application at t0. -/
  | caravanCutoff
  /-- CARAVAN_APPLICATION (R54). In the fixed 20-fc interval from t0 + 150 ns, the caravans due apply atomically in priority, ring and slot order. -/
  | caravanApplication
  /-- STOPPED_TICK_APPLICATION (R60). While the tick is stopped, next-tick caravans apply in 20-fc applications as soon as they close. -/
  | stoppedTickApplication
  /-- COMPLETION_POSTING (R64). At t0 + 255 ns the completion records of the boundary take their PSNs in application order and are written into their rings. -/
  | completionPosting
  /-- NOP (R46). Descriptor with no effect beyond its completion. -/
  | nop (o : Origin) (unit : Fin 22)
  /-- REG_WRITE (R47). Descriptor that writes the masked bits of a reachable register at its boundary. -/
  | regWrite (o : Origin) (unit : Fin 22) (inst : Fin 5) (offset : Word) (value : Word) (mask : Word)
  /-- REG_READ (R48). Descriptor that samples a register in the application interval and returns its value in the completion record. -/
  | regRead (o : Origin) (unit : Fin 22) (inst : Fin 5) (offset : Word)
  /-- PARAM_WRITE (R157). Descriptor that writes 1 to 3 state or parameter words of a stall in all three passes at once. -/
  | paramWrite (o : Origin) (stall : Fin 128) (w3 : Word) (w4 : Word) (w5 : Word) (w6 : Word)
  /-- TABLE_LOAD (R119). Descriptor that atomically replaces a range of table or recipe memory from its load buffer. -/
  | tableLoad (o : Origin) (w3 : Word) (w4 : Word) (w5 : Word) (w6 : Word)
  /-- STALL_START (R121). Descriptor that runs the loader on a stall and starts it when both the loader and the toll gate admit it. -/
  | stallStart (o : Origin) (stall : Fin 128) (w3 : Word)
  /-- STALL_STOP (R122). Descriptor that stops a stall, leaving all its values held. -/
  | stallStop (o : Origin) (stall : Fin 128)
  /-- SETPOINT (R138). Descriptor that writes the target, rate and count of a set-point channel. -/
  | setpoint (o : Origin) (stall : Fin 128) (w3 : Word) (w4 : Word) (w5 : Word) (w6 : Word)
  /-- SCHEDULE_SELECT (R123). Descriptor that activates a schedule after checking it and passing the toll gate. -/
  | scheduleSelect (o : Origin) (w3 : Word)
  /-- OUTPUT_ENABLE (R215). Descriptor that sets the output enables of the named pairs at a boundary. -/
  | outputEnable (o : Origin) (pairs : Word)
  /-- OUTPUT_DISABLE (R201). Descriptor that clears the output enables of the named pairs and clears their carry. -/
  | outputDisable (o : Origin) (pairs : Word)
  /-- CARRIER_SET (R188). Descriptor that sets a timebase period, which governs from its first update point after the next boundary. -/
  | carrierSet (o : Origin) (tb : Fin 4) (period : Word)
  /-- LOAD_ALL (R207). Descriptor that makes every LEGACY pair of a timebase take its shadow duty with the native armed set. -/
  | loadAll (o : Origin) (tb : Fin 4)
  /-- TRIP_CLEAR (R234). Descriptor that clears the named trip latches, but only if every one of them is inactive. -/
  | tripClear (o : Origin) (ext : Word) (int : Word)
  /-- SAFE_REQUEST (R232). Descriptor that puts a bridge into safe state and records an explicit state for it. -/
  | safeRequest (o : Origin) (bridge : Fin 2) (w3 : Word)
  /-- DRIVE_ENABLE (R235). Descriptor that releases a unit from safe state when no latch, hold, clock or hold-up condition forbids it. -/
  | driveEnable (o : Origin) (unit : Fin 4)
  /-- DISCHARGE (R357). Descriptor that starts, replaces or aborts a DC-link discharge by resistor, by winding or by both. -/
  | discharge (o : Origin) (method : Word) (target : Word) (deadline : Word)
  /-- MODE_SET (R307). Descriptor that changes the field-control mode of a machine, with or without a handover. -/
  | modeSet (o : Origin) (machine : Fin 2) (mode : Word) (blend : Word)
  /-- ANGLE_EVENT (R316). Descriptor that arms an angle-event slot with an angle and an action at t0 + 250 ns. -/
  | angleEvent (o : Origin) (slot : Fin 16) (angle : Word) (action : Word)
  /-- CHANNEL_READMIT (R296). Descriptor that moves a quarantined position channel into CHECK when its sensor delivers valid measurements. -/
  | channelReadmit (o : Origin) (channel : Fin 2)
  /-- BIST_REQUEST (R518). Descriptor that requests a self-test of a physical unit, judged against life cycle, conditions and spares. -/
  | bistRequest (o : Origin) (code : Fin 256) (kind : Word)
  /-- UNIT_READMIT (R521). Descriptor that makes a FAILED unit run full BIST and, on a pass, enter quarantine. -/
  | unitReadmit (o : Origin) (code : Fin 256)
  /-- LCS_TOKEN (R527). Descriptor that submits a life-cycle token for verification. -/
  | lcsToken (o : Origin) (offset : Word) (length : Word)
  /-- HOLDUP_CHECK (R535). Descriptor that starts an energy check of the hold-up store. -/
  | holdupCheck (o : Origin)
  /-- LEDGER_NOTE (R537). Descriptor that writes a host-note entry into the ledger and posts LEDGER_NOTED. -/
  | ledgerNote (o : Origin) (w3 : Word) (w4 : Word) (w5 : Word) (w6 : Word)
  /-- TICK_REALIGN (R426). Descriptor that lengthens one TB0 period so that TB0 steps onto the vehicle-time grid. -/
  | tickRealign (o : Origin)
  /-- POWER_STATE (R558). Descriptor that requests RUN, PARK or SLEEP. -/
  | powerState (o : Origin) (target : Word)
  /-- SCAN_START (R504). Descriptor that starts or restarts a memory-scan slot. -/
  | scanStart (o : Origin) (slot : Fin 8)
  /-- RESUME (R70). CMD_SQn_CTRL.RESUME on a halted ring fetches again from the first slot of the halted caravan. -/
  | resume (ring : Fin 16)
  /-- FLUSH (R70). CMD_SQn_CTRL.FLUSH on a halted ring completes every slot up to PI − 1 with FLUSHED. -/
  | flush (ring : Fin 16)
  /-- FLUSH_RECORD_POST (R70). A pending FLUSHED record is posted once its completion ring has a free slot, one record per fabric cycle. -/
  | flushRecordPost (ring : Fin 16)
  /-- CLRCNT (R34). CMD_SQn_CTRL.CLRCNT clears the counters of the ring. -/
  | clrcnt (ring : Fin 16)
  /-- SQ_ENABLE (R36). Setting EN on a submission ring resets its fetch index and its epoch to 0. -/
  | sqEnable (ring : Fin 16) (cfg : Word)
  /-- RING_DISABLE (R71). Clearing EN on a ring stops fetching and completes its unapplied descriptors with FLUSHED. -/
  | ringDisable (ring : Fin 16) (cfg : Word)
  /-- CQ_EQ_ENABLE (R65). Setting EN on a completion ring or the event ring resets its producer index, and the event ring also posts EQ_OVERFLOW for earlier events. -/
  | cqEqEnable (ring : Fin 5) (cfg : Word)
  /-- EVT_ACK (R69). Writing ACK releases EVT_n. -/
  | evtAck
  /-- SETUP_LOCK (R73). Writing LOCK locks setup and starts the capture of the committed configuration image. -/
  | setupLock
  /-- IMAGE_SEALED (R73). When the image capture completes, SEALED is set and IMAGE_SEALED is posted. -/
  | imageSealed
  /-- F2_CLEAR (R93). Writing 1 to SYS_FAULTSTAT.F2 ends F2 when no F2 cause persists. -/
  | f2Clear
  /-- TICK_BOUNDARY (R22). At t0 the tick counter increments, staged outputs apply, windows close and the position snapshot is latched. -/
  | tickBoundary (flips : List BankFlip)
  /-- WINDOW_FREEZE (R22). At t0 + 50 ns the accumulators of the closed window are frozen and copied, and the fixed-function evaluations begin. -/
  | windowFreeze
  /-- SIGNAL_PUBLISH (R22). At t0 + 150 ns the calibrated window values, the snapshot and T_NOW are published on the signal board. -/
  | signalPublish (power : Word) (tCore : Word) (tField : Word)
  /-- ENGINE_START (R27). At t0 + 250 ns T_NEXT is published and the engine starts pass A of the due stalls. -/
  | engineStart (upsets : List Upset) (stop : Option EngineStop) (mismatch : Nat) (lost : Nat)
  /-- VOTE_PHASE (R163). When pass C ends, the voter compares the bound slots, resynchronises, runs the salted test and stages the outputs. -/
  | votePhase (copies : Option Nat) (saltFail : Option Bool)
  /-- HOLD_EXPIRY (R166). At the end of the hold, the safe state is commanded on the affected units through source 17. -/
  | holdExpiry
  /-- SHADOW_WATCH_END (R130). A shadow watch of the engine spares that ends without a mismatch posts SHADOW_CLEAR. -/
  | shadowWatchEnd
  /-- ENGINE_DEADLINE (R127). At t0 + T − 350 ns an incomplete vote is a deadline miss: the tick is abandoned and the previous outputs are held. -/
  | engineDeadline
  /-- STATE_SCRUB (R174). Between T − 350 ns and T − 200 ns the three copies of one stall are compared word by word. -/
  | stateScrub
  /-- OUTPUT_TRANSFER (R22). The staged outputs are checked and transferred to the PWM shadow, field control and the Isnak buffer. -/
  | outputTransfer (flips : List BankFlip)
  /-- ENG_RUN_SET (R125). A bus write that sets ENG_CFG.RUN is admitted or refused by the toll gate. -/
  | engRunSet (cfg : Word)
  /-- ENG_BIND_WRITE (R106). A write of ENG_BINDn is checked for type, duplicate sink and the toll gate. -/
  | engBindWrite (n : Fin 256) (value : Word)
  /-- TIMEBASE_RUN (R185). Writing RUN starts a timebase, at count 0 or at TB0's next zero plus PHASE. -/
  | timebaseRun (tb : Fin 4) (cfg : Word)
  /-- LDALL_WRITE (R206). Writing PWM_LDALL before lock arms the pending copy of a timebase. -/
  | ldallWrite (value : Word)
  /-- TIMEBASE_ZERO (R186). A timebase reaches its zero, which is an update point and the point at which each pair is judged. -/
  | timebaseZero (tb : Fin 4) (mismatch : Nat)
  /-- HALF_PERIOD_POINT (R186). A timebase reaches its half-period point, which may be an update point and a tick source. -/
  | halfPeriodPoint (tb : Fin 4)
  /-- DELAY_LINE_CALIBRATED (R209). Delay-line recalibration completes, and coarse mode ends at the next zero. -/
  | delayLineCalibrated (tb : Fin 4)
  /-- GATE_READBACK_FAIL (R213). A gate ball that differs from its generator 32 es after an edge moves the pair to a spare, or trips it. -/
  | gateReadbackFail (pair : Fin 16)
  /-- TRIP_FILTER_ACTIVE (R222). A filtered trip input becomes active after FILT active samples. -/
  | tripFilterActive (named raw first t : Nat)
  /-- TRIP_FILTER_INACTIVE (R222). A filtered trip input becomes inactive after FILT inactive samples. -/
  | tripFilterInactive (named raw first t : Nat)
  /-- COMPARATOR_CROSSING (R225). A fast comparator output changes as its input crosses a threshold or leaves its hysteresis. -/
  | comparatorCrossing (m : Fin 12) (v : Int) (vref : Nat) (t : Nat)
  /-- SAFE_READBACK_FAIL (R233). A gate ball of a unit in safe state that differs from its commanded level is SAFE_FAIL, class F4. -/
  | safeReadbackFail (pair : Fin 16) (low : Bool)
  /-- ACQ_RUN_WRITE (R248). Setting ACQ_CFG.RUN starts every group at slot 0 on one ADC clock edge. -/
  | acqRunWrite
  /-- SAR_CONVERSION_DONE (R250). A conversion completes at the end of its slot and updates the result registers and the window accumulator. -/
  | sarConversionDone (g : Fin 4) (v0 : Int) (v1 : Int) (v2 : Int) (v3 : Int) (vref : Nat) (t : Nat) (lost : Bool)
  /-- SPARE_SHADOW_END (R256). After WATCH pairs, a shadowing spare core passes and takes over, or is held out of service. -/
  | spareShadowEnd (g : Fin 4)
  /-- URGENT_REQUEST (R257). An urgent-conversion request from its selected source starts the conversion on the spare core, or is dropped. -/
  | urgentRequest (g : Fin 4) (late : Bool)
  /-- URGENT_CONVERSION_DONE (R259). A completed urgent conversion updates the urgent result registers. -/
  | urgentConversionDone (g : Fin 4) (v : Int) (vref : Nat) (t : Nat)
  /-- COMPARATOR_TEST_STEP (R262). Each 500 ns step of a comparator test samples the comparator against the test DAC. -/
  | comparatorTestStep (cmp : Fin 12) (active : Bool)
  /-- DS_SINC_OUTPUT (R268). A sinc3 output completes and is checked against its limits. -/
  | dsSincOutput (c : Fin 12)
  /-- RESOLVER_PAIR (R276). A demodulated resolver pair gives an angle measurement and an amplitude check. -/
  | resolverPair (c : Fin 2) (v : Int) (w : Int) (vexc : Nat) (mid : Nat)
  /-- SINCOS_PAIR (R278). A sin/cos pair gives an angle within a period every 1 µs. -/
  | sincosPair (c : Fin 2) (v : Int) (w : Int) (t : Nat)
  /-- POS_EDGE_ACCEPTED (R279). A digital position edge that persists for MINEI samples is accepted and moves the counter. -/
  | posEdgeAccepted (c : Fin 2) (levels : Fin 8) (samples : Nat) (t : Nat)
  /-- POS_GLITCH (R279). A level change that reverts within MINEI samples is discarded and counted. -/
  | posGlitch (c : Fin 2) (samples : Nat)
  /-- SENT_FRAME (R285). A SENT fast-channel frame is checked and gives an angle measurement. -/
  | sentFrame (c : Fin 2) (cal : Nat) (status : Nat) (nibbles : List Nat) (crc : Nat) (pause : Bool) (start : Nat) (t : Nat)
  /-- SSI_FRAME_START (R286). An SSI frame starts OFS after the tick, or back to back. -/
  | ssiFrameStart (c : Fin 2) (t : Nat)
  /-- SSI_FRAME (R286). A received SSI frame is decoded into an angle measurement. -/
  | ssiFrame (c : Fin 2) (bits : Nat) (t : Nat)
  /-- FRAME_TIMEOUT (R287). No valid SENT or SSI frame for FTMO is a signal loss. -/
  | frameTimeout (c : Fin 2) (t : Nat)
  /-- COAST_EXPIRED (R293). A coast without a valid measurement for CTIME puts the channel into quarantine. -/
  | coastExpired (c : Fin 2) (t : Nat)
  /-- EXC_FAULT (R277). An excitation output over- or under-current is an excitation fault and a signal loss. -/
  | excFault (c : Fin 2) (opened : Bool)
  /-- SENSV_FAULT (R300). A sensor supply over current or under voltage for 100 µs switches it off and costs its channels their signal. -/
  | sensvFault (n : Fin 2) (low : Bool) (t : Nat)
  /-- SENSV_ENABLE (R300). Writing EN enables a sensor supply, clears FAULT and starts the soft start. -/
  | sensvEnable (n : Fin 2)
  /-- WRAP_CLEAR (R288). Writing 1 to WRAP clears the position-counter wrap flag. -/
  | wrapClear (c : Fin 2)
  /-- ANGLE_EVENT_ARM (R316). Writing a non-zero action word arms an event slot and records its direction and distance. -/
  | angleEventArm (slot : Fin 16) (action : Word)
  /-- ANGLE_EVENT_FIRE (R316). A slot fires when the net travel reaches its distance, and carries out its action. -/
  | angleEventFire (slot : Fin 16) (t : Nat)
  /-- SIXSTEP_CROSSING (R319). The voltage angle crosses a sector boundary and the sequencer writes the masks of the new sector. -/
  | sixstepCrossing (m : Fin 2) (t : Nat)
  /-- WATCH_END (R331). At the end of FSWATCH the watch decides between CATCH, a start from rest, WAIT and FAILED. -/
  | watchEnd (m : Fin 2) (t : Nat)
  /-- WAIT_END (R330). After 2·FSWATCH in WAIT the machine returns to WATCH. -/
  | waitEnd (m : Fin 2) (t : Nat)
  /-- CATCH_END (R330). After CATCHT ticks in CATCH the machine enters RUN. -/
  | catchEnd (m : Fin 2)
  /-- WGH_SELFTEST (R356). Once every 1,024 ticks each monitor passes a fixed test point and compares the result. -/
  | wghSelftest (m : Fin 2) (upset : Word)
  /-- WGH_ENABLE (R348). Setting a monitor's EN is refused when its map fails its check, its size or its overlap. -/
  | wghEnable (m : Fin 2) (cfg : Word)
  /-- DISCHARGE_PROGRESS_CHECK (R364). Each 100 ms the link voltage must have fallen by 2 V, or every method drops. -/
  | dischargeProgressCheck
  /-- DISCHARGE_DEADLINE (R364). A discharge whose deadline passes with the voltage above target fails. -/
  | dischargeDeadline
  /-- ISK_LINK_ENABLE (R370). Setting a link's EN starts enumeration, or is refused for a duplicate map. -/
  | iskLinkEnable (link : Fin 2) (cfg : Word)
  /-- ISK_EDGE_PLAN_SEND (R379). At t0 + 20 ns the link sends the edge-plan frame with heartbeat window and strengths. -/
  | iskEdgePlanSend (link : Fin 2)
  /-- ISK_COLLECTION_SEND (R379). At t0 + 870 ns the link sends the collection frame with empty slots. -/
  | iskCollectionSend (link : Fin 2)
  /-- ISK_COLLECTION_JUDGE (R380). A returned collection frame is judged slot by slot 50 ns after its end. -/
  | iskCollectionJudge (link : Fin 2) (slots : List (List Nat)) (t : Nat)
  /-- ISK_ENUMERATION (R381). An enumeration frame is sent and its returned address byte decides between RUN and LOST. -/
  | iskEnumeration (link : Fin 2) (back : Option Nat) (t : Nat)
  /-- ISK_IDLE_HEARTBEAT (R377). While the tick is stopped, an idle edge-plan frame is sent every 100 µs. -/
  | iskIdleHeartbeat (link : Fin 2) (t : Nat)
  /-- ISK1_BROADCAST (R384). In Isnak-1 mode a broadcast opens each tick. -/
  | isk1Broadcast (link : Fin 2)
  /-- ISK1_POLL (R384). In Isnak-1 mode a node is polled and its reply judged. -/
  | isk1Poll (link : Fin 2) (reply : Option (List Nat)) (t : Nat)
  /-- REFERENCE_LOST (R409). No reference edge within 40 backup cycles puts both PLLs into holdover. -/
  | referenceLost
  /-- REFERENCE_RETURN (R422). 1,024 good reference periods re-phase the PLLs and start the slew back. -/
  | referenceReturn (jump : Int) (errA : Int) (errB : Int)
  /-- HOLDOVER_TIMEOUT (R422). A reference absent for HOLDTMO makes both PLLs declare unlock. -/
  | holdoverTimeout
  /-- PLL_FILTER_CHECK (R414). The lock-filter check of a PLL completes, and the PLL starts or LD_FILTER_FAIL is posted. -/
  | pllFilterCheck (p : Fin 2) (v20 : Nat) (v200 : Nat)
  /-- PLL_LOCK_DECLARED (R413). The lock-filter voltage below 0.30 V for 256 µs declares lock. -/
  | pllLockDeclared (p : Fin 2) (ldmv : Nat)
  /-- PLL_UNLOCK (R417). Unlock is declared, the loop is held and the PLL's domains move to the other PLL. -/
  | pllUnlock (p : Fin 2) (ldmv : Nat)
  /-- PLL_FAIL (R418). The frequency monitor finds a PLL output absent or off frequency, and its domains move at once. -/
  | pllFail (p : Fin 2) (kind : Bool) (dev : Nat)
  /-- PLL_QUARANTINE_END (R420). At the end of QWATCH a relocked PLL takes its domains back, or stays out of service. -/
  | pllQuarantineEnd (p : Fin 2) (pass : Bool)
  /-- PLL_PROGRAM_WRITE (R412). A write of NINT, NFRAC or RDIV to an enabled PLL moves its domains and restarts the PLL. -/
  | pllProgramWrite (p : Fin 2) (frac : Bool) (value : Word)
  /-- TICK_IN_EDGE (R427). A persisting TICK_IN edge is time-stamped against TB0's zero. -/
  | tickInEdge (t : Nat)
  /-- TICK_IN_MISSING (R427). No TICK_IN edge for two TB0 periods posts TICKIN_MISMATCH. -/
  | tickInMissing
  /-- RTC_SOURCE_SWITCH (R429). No 32.768 kHz edge for 1 ms switches the real-time clock to the backup oscillator. -/
  | rtcSourceSwitch
  /-- TICKCNT_LO_READ (R20). Reading CLK_TICKCNT_LO copies the upper tick-counter bits into a holding register. -/
  | tickcntLoRead
  /-- RTC_LO_READ (R429). Reading CLK_RTC_LO copies the upper real-time-clock bits into CLK_RTC_HI. -/
  | rtcLoRead
  /-- MTIME_LO_READ (R483). Reading HIC_MTIME_LO copies the upper word of MTIME into a holding register. -/
  | mtimeLoRead
  /-- CAN_TX_DOORBELL (R444). A host write of a CAN TX producer index announces new TX slots. -/
  | canTxDoorbell (c : Fin 4) (value : Word)
  /-- CAN_RX_CONSUMER_WRITE (R444). A host write of a CAN RX consumer index frees RX slots. -/
  | canRxConsumerWrite (c : Fin 4) (value : Word)
  /-- CAN_TX_FETCH (R446). A TX slot is fetched into a free staging buffer and checked. -/
  | canTxFetch (c : Fin 4)
  /-- CAN_TXRESUME (R445). CTRL.TXRESUME fetches again from the halted TX slot. -/
  | canTxresume (c : Fin 4)
  /-- CAN_TXFLUSH (R445). CTRL.TXFLUSH skips the halted TX ring to its producer index. -/
  | canTxflush (c : Fin 4)
  /-- CAN_INIT_SET (R441). Writing INIT = 1 stops the controller at the end of the frame under way. -/
  | canInitSet (c : Fin 4) (busy : Bool)
  /-- CAN_INIT_CLEAR (R441). Writing INIT from 1 to 0 applies the bit timing and starts integration, or rate detection. -/
  | canInitClear (c : Fin 4) (cfg : Word)
  /-- CAN_FRAME_SENT (R447). A frame whose EOF passes without error is sent and writes TX_DONE when requested. -/
  | canFrameSent (c : Fin 4) (ago : Nat) (fc : Nat) (tdcv : Option (Fin 128))
  /-- CAN_FRAME_RECEIVED (R448). A received frame passes the acceptance filters and is written to the RX ring. -/
  | canFrameReceived (c : Fin 4) (x0 : Word) (x1 : Word) (x2 : Word) (x3 : Word) (data : List Byte) (ago : Nat) (fc : Nat)
  /-- CAN_RATE_CANDIDATE_SWITCH (R443). An error, or DWELL without a frame, moves detection to the next candidate. -/
  | canRateCandidateSwitch (c : Fin 4)
  /-- CAN_ERROR_STATE_CHANGE (R442). An error-state change posts ERR_PASSIVE or BUS_OFF, and may start recovery. -/
  | canErrorStateChange (c : Fin 4) (state : Fin 3) (tec : Fin 256) (rec : Fin 256)
  /-- CAN_BUS_RECOVERED (R442). The end of bus-off recovery posts BUS_RECOVERED. -/
  | canBusRecovered (c : Fin 4)
  /-- CAN_TX_EXPIRED (R446). A frame not started within LATEWIN of its launch instant is discarded. -/
  | canTxExpired (c : Fin 4) (slot : Fin 4096)
  /-- CAN_TT_CYCLE_START (R450). A basic cycle of the schedule matrix begins on the TT time. -/
  | canTtCycleStart (c : Fin 4) (t : Nat)
  /-- CAN_TT_COLUMN (R451). At a column instant a TRANSMIT object is copied and started, or an EXPECT window opens. -/
  | canTtColumn (c : Fin 4) (column : Fin 16)
  /-- CAN_TT_WINDOW_END (R451). TXWIN after a column, a missed transmission or an absent expected frame is reported. -/
  | canTtWindowEnd (c : Fin 4) (column : Fin 16)
  /-- CAN_UNIT_FAILURE (R452). An ECC or parity failure of a controller forces its TX recessive and calls in the spare. -/
  | canUnitFailure (c : Fin 4) (counters : Bool)
  /-- CAN_SPARE_SWITCH_IN (R452). After integrating on 11 recessive bits, the spare is switched onto the bus and CAN_SWAP is posted. -/
  | canSpareSwitchIn (c : Fin 4)
  /-- CAN_SHADOW_END (R453). After WATCH frames, a shadowing spare CAN controller takes over, or is held out of service. -/
  | canShadowEnd (c : Fin 4) (pass : Bool)
  /-- ETH_TX_DOORBELL (R460). A host write of an Ethernet TX producer index announces new TX slots. -/
  | ethTxDoorbell (p : Fin 2) (value : Word)
  /-- ETH_RX_CONSUMER_WRITE (R460). A host write of an Ethernet RX consumer index frees RX slots. -/
  | ethRxConsumerWrite (p : Fin 2) (value : Word)
  /-- ETH_TX_FETCH (R461). An Ethernet TX slot is fetched into staging and checked, or it halts the ring. -/
  | ethTxFetch (p : Fin 2)
  /-- ETH_TXRESUME (R461). TXRESUME fetches again from the halted Ethernet TX slot. -/
  | ethTxresume (p : Fin 2)
  /-- ETH_TXFLUSH (R461). TXFLUSH skips the halted Ethernet TX ring to its producer index. -/
  | ethTxflush (p : Fin 2)
  /-- ETH_TX_FRAME_SENT (R463). A frame whose last bit has left the MAC writes its timestamped confirmation. -/
  | ethTxFrameSent (p : Fin 2) (t : Nat) (ago : Nat) (fc : Nat)
  /-- ETH_TX_EXPIRED (R462). A frame not started within LATEWIN of its launch, or one with invalid vehicle time, is discarded. -/
  | ethTxExpired (p : Fin 2) (t : Nat)
  /-- ETH_FRAME_RECEIVED (R463). A received frame is timestamped, filtered and written to the RX ring, or dropped. -/
  | ethFrameReceived (p : Fin 2) (data : List Byte) (fcs : Bool) (t : Nat) (ago : Nat) (fc : Nat)
  /-- ETH_VT_RATE_WRITE (R467). A write of ETH_VT_RATE sets the rate of the vehicle time counter. -/
  | ethVtRateWrite (value : Word)
  /-- ETH_VT_STEP (R467). A write of ETH_VT_STEP adds a signed step to vehicle time. -/
  | ethVtStep (value : Word)
  /-- ETH_VT_SET (R467). ETH_VT_CTRL.SET loads vehicle time from the SET registers. -/
  | ethVtSet
  /-- VT_TIMEOUT (R468). No steering write within VTTMO makes vehicle time invalid. -/
  | vtTimeout
  /-- ETH_TVT_TICK_READ (R469). Reading ETH_TVT_TICK freezes the seconds and nanoseconds words until ETH_TVT_NS is read. -/
  | ethTvtTickRead
  /-- ETH_MDIO_COMMAND (R457). A write to ETH_MDIO starts a Clause 22 or Clause 45 frame. -/
  | ethMdioCommand (value : Word)
  /-- ETH_MDIO_DONE (R457). The MDIO frame completes and BUSY falls. -/
  | ethMdioDone (data : Fin 65536)
  /-- ETH_PHY_INTERRUPT (R457). ETH0_INT_n low sets PHYINT and posts ETH_PHYINT. -/
  | ethPhyInterrupt
  /-- ETH_LINK_CHANGE (R457). A change of the ETH0 link state posts ETH_LINK. -/
  | ethLinkChange (link : Bool) (spd : Fin 4)
  /-- PLCA_BEACON_LOSS (R458). No beacon for 4 opportunity cycles makes a follower fall back to CSMA/CD. -/
  | plcaBeaconLoss
  /-- PLCA_BEACON_RETURN (R458). Returning beacons restore PLCA operation. -/
  | plcaBeaconReturn
  /-- CORE1_START (R477). Writing HIC_C1_CTRL.START releases core 1 at its entry address. -/
  | core1Start
  /-- CACHE_INVALIDATE (R476). Writing DINV or IINV invalidates a core's data or instruction cache. -/
  | cacheInvalidate (core : Fin 2) (data : Bool) (inst : Bool)
  /-- IRQ_CLAIM (R482). Reading HIC_IRQc_CLAIM returns and claims the highest deliverable source. -/
  | irqClaim (core : Fin 2)
  /-- IRQ_COMPLETE (R482). Writing a source ID to HIC_IRQc_CLAIM completes its claim. -/
  | irqComplete (core : Fin 2) (value : Word)
  /-- SEM_READ (R482). Reading a free HIC_SEMn makes the reading core its owner. -/
  | semRead (n : Fin 16) (reader : Fin 3)
  /-- SEM_FREE (R482). Writing 0 to HIC_SEMn by its owner frees the semaphore. -/
  | semFree (n : Fin 16) (core : Fin 2) (value : Word)
  /-- WDOG_ENABLE (R484). Setting a watchdog's EN starts its count, which cannot then be stopped. -/
  | wdogEnable (wd : Fin 2) (cfg : Word)
  /-- WDOG_SERVICE (R484). A service sequence written to HIC_WDw_SVC restarts the count, or is a violation. -/
  | wdogService (wd : Fin 2) (core : Fin 2) (value : Word) (t : Nat)
  /-- WDOG_PREWARNING (R485). The count reaching CLOSE − 10·PRE makes the pre-warning interrupt pending. -/
  | wdogPrewarning (wd : Fin 2)
  /-- WDOG_CLOSE (R485). The count reaching CLOSE, or a missing second word, is a violation that activates source 23. -/
  | wdogClose (wd : Fin 2) (missing : Bool)
  /-- WDOG_RESET (R486). DLY after a violation, once the ledger has accepted the entry, a WDOG reset is asserted. -/
  | wdogReset (t : Nat)
  /-- XSP_COMMAND (R489). Writing GO starts an xSPI command, or it is refused when it would write the protected range. -/
  | xspCommand (cmd : Word)
  /-- XSP_COMMAND_DONE (R489). The xSPI command finishes and BUSY falls. -/
  | xspCommandDone (data : List Byte)
  /-- XSP_READ_TIMEOUT (R488). An 8D read whose strobe does not arrive within 2 µs faults and posts XSP_TIMEOUT. -/
  | xspReadTimeout (core : Fin 2) (cs : Fin 2)
  /-- GPIO_EDGE (R495). A configured GPIO edge sets its bit in GPIO_IRQSTAT. -/
  | gpioEdge (ball : Fin 32) (rising : Bool)
  /-- BOOT_OK (R492). Writing SYS_BOOTOK.OK clears the boot try count. -/
  | bootOk
  /-- BOOT_COMMIT (R492). Writing SYS_BOOTOK.COMMIT raises the fused minimum SVN to that of the running image. -/
  | bootCommit
  /-- CHK_ALG_WRITE (R501). Writing ALG loads SEED with the initial value of the chosen algorithm. -/
  | chkAlgWrite (n : Fin 4) (value : Word)
  /-- CHK_SEED_WRITE (R501). Writing SEED loads the running register of a check unit. -/
  | chkSeedWrite (n : Fin 4) (value : Word)
  /-- CHK_DATA_WRITE (R501). A write to CHK_Un_DATA feeds four bytes into a check unit. -/
  | chkDataWrite (n : Fin 4) (value : Word)
  /-- CHK_DATAB_WRITE (R501). A write to CHK_Un_DATAB feeds one byte into a check unit. -/
  | chkDatabWrite (n : Fin 4) (value : Word)
  /-- CHK_RESULT_READ (R501). Reading CHK_Un_RES waits for pending bytes and returns the result after the final XOR. -/
  | chkResultRead (n : Fin 4)
  /-- SCAN_PERIOD_START (R504). PERIOD ms after its last start, a scan slot starts again. -/
  | scanPeriodStart (slot : Fin 8)
  /-- SCAN_GO (R504). A bus write of GO starts a scan slot at once. -/
  | scanGo (slot : Fin 8)
  /-- SCAN_TARGET_DONE (R503). A scan finishes a target and compares its CRC with the stored check. -/
  | scanTargetDone (slot : Fin 8) (flips : List (Nat × Word)) (seen : List (Nat × Word))
  /-- ROTATION_STEP (R514). At each rotation interval the next unit in code order begins its self-test step. -/
  | rotationStep (t : Nat)
  /-- ROTATION_RETRY (R515). A pending rotation step is retried every second. -/
  | rotationRetry (t : Nat)
  /-- BIST_COMPLETE (R516). A BIST ends, and the unit enters QUARANTINE on a pass or FAILED on a failure. -/
  | bistComplete (code : Fin 256) (pass : Bool) (part : Fin 3)
  /-- BIST_ABORT (R513). A test condition that fails during a test aborts it, and the block enters QUARANTINE. -/
  | bistAbort (cond : Fin 8)
  /-- QUARANTINE_END (R520). A quarantine comparison ends with the unit returning or entering FAILED. -/
  | quarantineEnd (code : Fin 256) (pass : Bool)
  /-- SRAM_ROW_REPAIR (R524). A row with repeated corrected errors, or a double-bit error, starts a copy to a spare row. -/
  | sramRowRepair (r : MemRow) (word : Fin 32) (double : Bool)
  /-- ROW_COPY_DONE (R524). The row copy completes, the mapping switches and SRAM_REPAIR is posted. -/
  | rowCopyDone (r : MemRow)
  /-- LCS_TOKEN_VERIFIED (R527). Token verification ends and posts LCS_RESULT; a valid token changes the state and writes a ledger entry. -/
  | lcsTokenVerified
  /-- HOLDUP_READY (R535). VHOLD first reaching READY after reset starts the automatic energy check. -/
  | holdupReady (vhold : Nat)
  /-- HOLDUP_PERIODIC (R535). RECHK hours of RUN after the last check start a new energy check. -/
  | holdupPeriodic (t : Nat)
  /-- HOLDUP_CHECK_COMPLETE (R534). The energy check computes ESR, capacitance and energy, then passes or fails. -/
  | holdupCheckComplete (charged : Bool) (va : Nat) (vb : Nat) (vc : Nat)
  /-- VHOLD_DROP (R536). VHOLD below 18 V for 100 µs while the pump runs loses the passed state. -/
  | vholdDrop (vhold : Nat)
  /-- SUPPLY_LOSS (R541). Low supply for 2 µs switches the commit domain to VHOLD, and the ledger queue and resume point start to drain. -/
  | supplyLoss (snapshot : Bool)
  /-- COMMIT_END (R541). The last queued unit is written and the commit domain powers down, after which BOR is asserted. -/
  | commitEnd
  /-- LEDGER_UNIT_WRITTEN (R538). A queued unit is written to the store, and a completed entry becomes durable. -/
  | ledgerUnitWritten
  /-- LEDGER_OVERFLOW_ENTRY (R538). When queue room frees after refusals, one overflow entry is accepted. -/
  | ledgerOverflowEntry
  /-- LEDGER_EXPORT_REQUEST (R544). A CAN0 request frame makes the export engine stream the log from the requested unit. -/
  | ledgerExportRequest (id : Nat) (data : List Byte)
  /-- DLINK_FRAME_RECEIVE (R14). A die-link frame is checked and used, or discarded with handling by class. -/
  | dlinkFrameReceive (toField : Bool) (cls : Fin 3) (seq : BitVec 16) (payload : List Byte) (crc : Word)
  /-- DLINK_HEARTBEAT_TIMEOUT (R14). No valid frame for 1 µs declares the die link down. -/
  | dlinkHeartbeatTimeout (atField : Bool)
  /-- FIELD_DIE_IDENTITY (R3). The field die reports its identity after reset and FIELD_REV is set. -/
  | fieldDieIdentity (rev : Fin 16)
  /-- POWER_ON_RESET (R549). VSTBY crossing its thresholds resets every domain. -/
  | powerOnReset
  /-- RESET_PIN (R549). RESET_n low for 1 µs starts a PIN reset. -/
  | resetPin (t : Nat)
  /-- SWSYS_WRITE (R549). Writing 0xA5C3 to SYS_RSTCTL requests a software system reset 50 µs later. -/
  | swsysWrite
  /-- SWSUB_WRITE (R552). SYS_SWSUB.GO resets the serving unit of one block instance and reloads its configuration. -/
  | swsubWrite (value : Word)
  /-- SWSUB_DONE (R552). The block reset completes and GO reads 0. -/
  | swsubDone
  /-- LCS_RESET (R549). Once a valid token's entry is durable, an LCS reset clears the image and memories. -/
  | lcsReset
  /-- RESET_RELEASE (R551). Rails in range for 1 ms with RESET_n high release the device reset and start the memory march. -/
  | resetRelease (t : Nat)
  /-- MARCH_DONE (R551). The memory march ends and core 0 leaves reset in the boot ROM. -/
  | marchDone (failing : List MemRow) (slots : List FlashSlot) (same8d : Bool)
  /-- IMAGE_SEAL_CHECK (R618). A recomputation of the image seal after a reset completes and sets IMGOK. -/
  | imageSealCheck
  /-- RESTORE_GO (R554). SYS_RESTORE.GO starts restoring the kept image, or is refused. -/
  | restoreGo
  /-- RESTORE_DONE (R554). The restore ends with LOCK and SEALED set and IMAGE_RESTORED posted. -/
  | restoreDone
  /-- WAKE (R559). A filtered WAKE edge, a wake frame or the RTC alarm requests RUN from PARK or SLEEP. -/
  | wake (src : Fin 5) (rising : Bool) (persist : Nat) (t : Nat)
  /-- PARK_EXIT (R561). When PLL-B passes quarantine after a wake from PARK, timebases, converters and clocks resume in one cycle. -/
  | parkExit (t : Nat)
  /-- SLEEP_POWER_DOWN (R563). After the ledger drains, the dies outside standby power down within 2 ms. -/
  | sleepPowerDown
  /-- REGISTER_WRITE (R6). A bus write to a register with no row of its own stores its fields, subject to access type, clamp and setup lock. -/
  | registerWrite (core : Fin 3) (unit : Fin 22) (index : Fin 0x4000) (value : Word)
  /-- SUPPLY_MONITOR_CHANGE (R589). A monitored rail (VDD, VDD18, VDDA5, or VEXC while a channel is in RESOLVER mode) crosses a supply-monitor level, which activates or releases internal trip source 16. -/
  | supplyMonitorChange (rails : Fin 16) (t : Nat)
  /-- DS_BIT_SAMPLED (R266). A delta-sigma bit is sampled at its SDCLK edge, or decoded at its Manchester mid-bit transition, counted into ONES and BITS, and a decoding error increments MERR. -/
  | dsBitSampled (c : Fin 12) (level : Bool) (t : Nat) (period : Nat)
  /-- MTIMECMP_REACHED (R483). HIC_MTIME reaches HIC_MTIMECMPc, and the machine timer interrupt of core c becomes pending. -/
  | mtimecmpReached (core : Fin 2) (t : Nat)
  /-- CORE_MEMORY_ACCESS (R477). A core load, store, LR/SC or AMO to host SRAM or another mapped region executes; this covers reservation clearing, access faults, the ECC handling of byte writes and SRAM_DED on reads. -/
  | coreMemoryAccess (core : Fin 2) (op : CoreOp) (width : Fin 3) (addr : Word) (value : Word) (hit : Bool) (ecc : Fin 3) (flash : Option Word)
  /-- DEBUG_HALT (R487). The debugger halts or resumes a host core, and a watchdog with FRZ = 1 holds or resumes its count. -/
  | debugHalt (core : Fin 2) (halt : Bool)
  /-- TAP_INSTRUCTION (R493). An IEEE 1149.1 instruction is loaded and is admitted or replaced by BYPASS, depending on the life-cycle state and, for EXTEST, on PARK with every unit in safe state. -/
  | tapInstruction (code : Nat)
  /-- CAN_TX_START (R446). A staged frame whose launch instant has passed wins competition and starts transmission at the first bus-idle point. -/
  | canTxStart (c : Fin 4) (t : Nat)
  /-- CAN_BUS_ERROR (R447). A lost arbitration or a bus error during a frame makes the controller update its error counters and retransmit the frame as the standard requires. -/
  | canBusError (c : Fin 4) (tec : Fin 256) (rec : Fin 256) (lec : Fin 8) (tdcv : Option Nat)
  /-- CAN_INTEGRATION_DONE (R441). After INIT 1→0, or after the CAN clock returns, the controller has seen 11 recessive bits and starts taking part in bus traffic (CAN_STAT.RUN). -/
  | canIntegrationDone (c : Fin 4)
  /-- ETH_TX_START (R462). The head staged Ethernet frame starts at the first instant, at or after its launch instant, at which the port may transmit, for example the next PLCA transmit opportunity. -/
  | ethTxStart (p : Fin 2) (t : Nat)
  /-- SWSYS_RESET_ASSERT (R550). 50 µs after an SWSYS request has applied, all units go to SPO, the ledger drains with a resume point, and the software system reset is asserted. -/
  | swsysResetAssert
  deriving DecidableEq, Repr

end Sys2Proof
end

