-- ==== Sys2Proof/Decode.lean ====
section
/-! DEFINITION. Commands spelled as words: the opcode table gives no row any bits. -/

set_option Elab.async false

namespace Sys2Proof

/-- The command that a word of `nbits` bits spells, bit 0 lowest: none, since no row of the opcode table is a
word.  A descriptor's words are read by the fabric (`Machine.Desc`), out of host SRAM. -/
def decodeTableWord (_nbits _w : Nat) : Option Instr := none

end Sys2Proof
end

