-- ==== Sys2Proof/Config.lean ====
section
/-! DEFINITION. What the spec leaves open: constants without a body, so that no statement can rest
on a value of them.  Each is named in the assumption log. -/

set_option Elab.async false

namespace Sys2Proof

/-- OVM with `a` half way between two hexagon vertices (R153): whether the one of the larger angle
counts as the nearest, by the operand words. -/
opaque Config.vertexTie : Word → Word → Bool

/-- The state that follows a state of the 16-bit dither sequence of R190, whose polynomial the spec does not
give. -/
opaque Config.ditherNext : BitVec 16 → BitVec 16

/-- The draw that a state of the dither sequence gives, before the model scales it into range (R190). -/
opaque Config.ditherDraw : BitVec 16 → Nat

/-- A word the spec leaves open, fresh for each index. -/
opaque Config.freeWord : Nat → Word

/-- Code of the DLINK_DEGRADED event (R15), which the spec does not give. -/
opaque Config.dlinkDegraded : BitVec 12

/-- Error of the factor exp(-T_PREV/τ) of a Foster stage, by T_PREV and τ, in 2^-60 and limited by the
model to what R394 allows. -/
opaque Config.expError : Word → Word → Int

/-- Contents of the boot ROM, by byte address; the spec gives what it does and not its code. -/
opaque Config.bootRom : Nat → Byte

end Sys2Proof
end

