-- ==== Sys2Proof/Machine/RegNames.lean ====
section
/-! DEFINITION. The address of every register the spec names and the place of every field in it,
under the spec's own names: `Reg.TBn_PER n` is the address of TBn_PER, `Fld.TBn_CFG.RUN` the field
RUN of TBn_CFG.  A register with indices takes them in the order the spec writes them, each
modulo the number of instances, so that the address never leaves the array. -/

set_option Elab.async false

namespace Sys2Proof

/-- The place of a field NAME[msb:lsb] in its register (R5). -/
structure Bits where
  lo : Nat
  width : Nat
  deriving DecidableEq, Repr

namespace Reg

/-! SYS block, 0x40000000 (00_scope.md R2) -/
abbrev SYS_DEVID : Nat := 0x40000000
abbrev SYS_SETUP_LOCK : Nat := 0x40000010
abbrev SYS_DLINK_STAT : Nat := 0x40000040
abbrev SYS_FAULTCFG : Nat := 0x40000050
abbrev SYS_FAULTSTAT : Nat := 0x40000054
abbrev SYS_BOOTSTAT : Nat := 0x40000060
abbrev SYS_BOOTOK : Nat := 0x40000064
abbrev SYS_BOOTREJ : Nat := 0x40000068
abbrev SYS_RSTCTL : Nat := 0x40000070
abbrev SYS_SWSUB : Nat := 0x40000074
abbrev SYS_RSTCAUSE : Nat := 0x40000078
abbrev SYS_RESTORE : Nat := 0x4000007C
/-! CLK block, 0x40010000 (15_clocks_plls.md R432) -/
abbrev CLK_REF : Nat := 0x40010000
abbrev CLK_STAT : Nat := 0x40010004
abbrev CLK_CLAMP : Nat := 0x40010008
abbrev CLK_CNT : Nat := 0x4001000C
abbrev CLK_PLLp_CFG (p : Nat) : Nat := 0x40010100 + 0x20 * (p % 2)
abbrev CLK_PLLp_FRAC (p : Nat) : Nat := 0x40010104 + 0x20 * (p % 2)
abbrev CLK_PLLp_STAT (p : Nat) : Nat := 0x40010108 + 0x20 * (p % 2)
abbrev CLK_PLLp_OFS (p : Nat) : Nat := 0x4001010C + 0x20 * (p % 2)
abbrev CLK_HOLD : Nat := 0x40010200
abbrev CLK_DISC : Nat := 0x40010300
abbrev CLK_OUTn_CFG (n : Nat) : Nat := 0x40010400 + 0x04 * (n % 2)
abbrev CLK_TICKIN_CFG : Nat := 0x40010500
abbrev CLK_TICKIN_OFS : Nat := 0x40010504
abbrev CLK_TICKIN_ERR : Nat := 0x40010508
abbrev CLK_RTC_LO : Nat := 0x40010600
abbrev CLK_RTC_HI : Nat := 0x40010604
abbrev CLK_TICKCFG : Nat := 0x40010800
abbrev CLK_TICKCNT_LO : Nat := 0x40010804
abbrev CLK_TICKCNT_HI : Nat := 0x40010808
abbrev CLK_TICKPER : Nat := 0x4001080C
abbrev CLK_TICKPER_NEXT : Nat := 0x40010810
/-! CMD block, 0x40020000 (02_command_rings.md R34) -/
abbrev CMD_PSN : Nat := 0x40020000
abbrev CMD_STAGE : Nat := 0x40020004
abbrev CMD_EVTCFG : Nat := 0x40020008
abbrev CMD_CLAMP : Nat := 0x4002000C
abbrev CMD_SQn_BASE (n : Nat) : Nat := 0x40020100 + 0x20 * (n % 16)
abbrev CMD_SQn_CFG (n : Nat) : Nat := 0x40020104 + 0x20 * (n % 16)
abbrev CMD_SQn_CTRL (n : Nat) : Nat := 0x40020108 + 0x20 * (n % 16)
abbrev CMD_SQn_STAT (n : Nat) : Nat := 0x4002010C + 0x20 * (n % 16)
abbrev CMD_SQn_CNT (n : Nat) : Nat := 0x40020110 + 0x20 * (n % 16)
abbrev CMD_CQm_BASE (m : Nat) : Nat := 0x40020400 + 0x10 * (m % 4)
abbrev CMD_CQm_CFG (m : Nat) : Nat := 0x40020404 + 0x10 * (m % 4)
abbrev CMD_CQm_IRQ (m : Nat) : Nat := 0x40020408 + 0x10 * (m % 4)
abbrev CMD_EQ_BASE : Nat := 0x40020480
abbrev CMD_EQ_CFG : Nat := 0x40020484
abbrev CMD_EQ_IRQ : Nat := 0x40020488
abbrev CMD_EQ_STAT : Nat := 0x4002048C
/-! ENG block, 0x40030000 (04_control_engine.md R132) -/
abbrev ENG_CFG : Nat := 0x40030000
abbrev ENG_STAT : Nat := 0x40030004
abbrev ENG_TOLL_REQ : Nat := 0x40030008
abbrev ENG_TOLL_SMAX : Nat := 0x4003000C
abbrev ENG_TOLL_BUD : Nat := 0x40030010
abbrev ENG_TADM : Nat := 0x40030014
abbrev ENG_CNT : Nat := 0x40030018
abbrev ENG_CLAMP : Nat := 0x4003001C
abbrev ENG_RUNMAPj (j : Nat) : Nat := 0x40030020 + 0x04 * (j % 4)
abbrev ENG_BINDn (n : Nat) : Nat := 0x40031000 + 0x04 * (n % 256)
abbrev ENG_BOARDa (a : Nat) : Nat := 0x40038000 + 0x04 * (a % 4096)
/-! TPR block, 0x40040000 (06_three_pass.md R182) -/
abbrev TPR_CFG : Nat := 0x40040000
abbrev TPR_STAT : Nat := 0x40040004
abbrev TPR_CNT_A : Nat := 0x40040008
abbrev TPR_CNT_B : Nat := 0x4004000C
abbrev TPR_SALT : Nat := 0x40040010
abbrev TPR_CLAMP : Nat := 0x40040014
abbrev TPR_SIGn_A (n : Nat) : Nat := 0x40041000 + 0x10 * (n % 128)
abbrev TPR_SIGn_B (n : Nat) : Nat := 0x40041004 + 0x10 * (n % 128)
abbrev TPR_SIGn_C (n : Nat) : Nat := 0x40041008 + 0x10 * (n % 128)
abbrev TPR_SIGn_TICK (n : Nat) : Nat := 0x4004100C + 0x10 * (n % 128)
/-! PWM block, 0x40050000 (07_pwm.md R214) -/
abbrev PWM_LDALL : Nat := 0x40050000
abbrev PWM_STAT : Nat := 0x40050004
abbrev PWM_SPCFG : Nat := 0x40050008
abbrev PWM_CLAMP : Nat := 0x4005000C
abbrev TBn_CFG (n : Nat) : Nat := 0x40050100 + 0x20 * (n % 4)
abbrev TBn_PER (n : Nat) : Nat := 0x40050104 + 0x20 * (n % 4)
abbrev TBn_PHASE (n : Nat) : Nat := 0x40050108 + 0x20 * (n % 4)
abbrev TBn_STAT (n : Nat) : Nat := 0x4005010C + 0x20 * (n % 4)
abbrev TBn_VTERR (n : Nat) : Nat := 0x40050110 + 0x20 * (n % 4)
abbrev PAIRk_CFG (k : Nat) : Nat := 0x40051000 + 0x40 * (k % 16)
abbrev PAIRk_DT (k : Nat) : Nat := 0x40051004 + 0x40 * (k % 16)
abbrev PAIRk_MINP (k : Nat) : Nat := 0x40051008 + 0x40 * (k % 16)
abbrev PAIRk_CMP (k : Nat) : Nat := 0x4005100C + 0x40 * (k % 16)
abbrev PAIRk_SHD (k : Nat) : Nat := 0x40051010 + 0x40 * (k % 16)
abbrev PAIRk_MASK (k : Nat) : Nat := 0x40051014 + 0x40 * (k % 16)
abbrev PAIRk_MASKNX (k : Nat) : Nat := 0x40051018 + 0x40 * (k % 16)
abbrev PAIRk_LIVE (k : Nat) : Nat := 0x4005101C + 0x40 * (k % 16)
abbrev PAIRk_CARRY (k : Nat) : Nat := 0x40051020 + 0x40 * (k % 16)
abbrev PAIRk_STAT (k : Nat) : Nat := 0x40051024 + 0x40 * (k % 16)
/-! PROT block, 0x40060000 (08_trips_safe_states.md R243) -/
abbrev PROT_CFG : Nat := 0x40060000
abbrev PROT_CLAMP : Nat := 0x40060004
abbrev PROT_UNITMAP0 : Nat := 0x40060008
abbrev PROT_UNITMAP1 : Nat := 0x4006000C
abbrev PROT_LATCH_EXT : Nat := 0x40060010
abbrev PROT_LATCH_INT : Nat := 0x40060014
abbrev PROT_LEVEL_EXT : Nat := 0x40060018
abbrev PROT_LEVEL_INT : Nat := 0x4006001C
abbrev PROT_CNT : Nat := 0x40060020
abbrev PROT_USTAT : Nat := 0x40060024
abbrev PROT_EXTn_CFG (n : Nat) : Nat := 0x40060100 + 0x04 * (n % 16)
abbrev PROT_INTn_CFG (n : Nat) : Nat := 0x40060200 + 0x04 * (n % 24)
abbrev PROT_CMPm_CFG (m : Nat) : Nat := 0x40060300 + 0x08 * (m % 12)
abbrev PROT_CMPm_THR (m : Nat) : Nat := 0x40060304 + 0x08 * (m % 12)
abbrev PROT_BRb_CFG (b : Nat) : Nat := 0x40060400 + 0x20 * (b % 2)
abbrev PROT_BRb_THR (b : Nat) : Nat := 0x40060404 + 0x20 * (b % 2)
abbrev PROT_BRb_KE (b : Nat) : Nat := 0x40060408 + 0x20 * (b % 2)
abbrev PROT_BRb_STAT (b : Nat) : Nat := 0x4006040C + 0x20 * (b % 2)
abbrev PROT_DIS_CFG : Nat := 0x40060800
abbrev PROT_DIS_RDIS : Nat := 0x40060804
abbrev PROT_DIS_PMAX : Nat := 0x40060808
abbrev PROT_DIS_EMAX : Nat := 0x4006080C
abbrev PROT_DIS_CLINK : Nat := 0x40060810
abbrev PROT_DIS_IDDIS : Nat := 0x40060814
abbrev PROT_DIS_VTGT : Nat := 0x40060818
abbrev PROT_DIS_AUTODL : Nat := 0x4006081C
abbrev PROT_DIS_STAT : Nat := 0x40060820
abbrev PROT_DIS_EEST : Nat := 0x40060824
abbrev PROT_DIS_ERES : Nat := 0x40060828
abbrev PROT_DIS_TIME : Nat := 0x4006082C
/-! ACQ block, 0x40070000 (09_acquisition.md R271) -/
abbrev ACQ_CFG : Nat := 0x40070000
abbrev ACQ_STAT : Nat := 0x40070004
abbrev ACQ_CLAMP : Nat := 0x40070008
abbrev ACQ_CMPSUB : Nat := 0x4007000C
abbrev ACQ_SPCFG : Nat := 0x40070010
abbrev ACQ_GRPg_CFG (g : Nat) : Nat := 0x40070100 + 0x40 * (g % 4)
abbrev ACQ_GRPg_DIAG (g : Nat) : Nat := 0x40070104 + 0x40 * (g % 4)
abbrev ACQ_GRPg_SUMCFG (g : Nat) : Nat := 0x40070108 + 0x40 * (g % 4)
abbrev ACQ_GRPg_SUMTOL (g : Nat) : Nat := 0x4007010C + 0x40 * (g % 4)
abbrev ACQ_GRPg_URGCFG (g : Nat) : Nat := 0x40070110 + 0x40 * (g % 4)
abbrev ACQ_GRPg_URGCNT (g : Nat) : Nat := 0x40070114 + 0x40 * (g % 4)
abbrev ACQ_GRPg_URGGO (g : Nat) : Nat := 0x40070118 + 0x40 * (g % 4)
abbrev ACQ_GRPg_URGRES (g : Nat) : Nat := 0x4007011C + 0x40 * (g % 4)
abbrev ACQ_GRPg_URGVAL (g : Nat) : Nat := 0x40070120 + 0x40 * (g % 4)
abbrev ACQ_GRPg_URGTICK (g : Nat) : Nat := 0x40070124 + 0x40 * (g % 4)
abbrev ACQ_GRPg_URGOFS (g : Nat) : Nat := 0x40070128 + 0x40 * (g % 4)
abbrev ACQ_GRPg_URGSTAT (g : Nat) : Nat := 0x4007012C + 0x40 * (g % 4)
abbrev ACQ_GRPg_DIAGCNT (g : Nat) : Nat := 0x40070130 + 0x40 * (g % 4)
abbrev ACQ_SEQa_e (a e : Nat) : Nat := 0x40070400 + 0x40 * (a % 12) + 0x04 * (e % 16)
abbrev ACQ_INk_GAIN (k : Nat) : Nat := 0x40070800 + 0x10 * (k % 48)
abbrev ACQ_INk_OFF (k : Nat) : Nat := 0x40070804 + 0x10 * (k % 48)
abbrev ACQ_INk_CFG (k : Nat) : Nat := 0x40070808 + 0x10 * (k % 48)
abbrev ACQ_INk_LAST (k : Nat) : Nat := 0x4007080C + 0x10 * (k % 48)
abbrev ACQ_Ea_e_RES (a e : Nat) : Nat := 0x40072000 + 0x100 * (a % 12) + 0x10 * (e % 16)
abbrev ACQ_Ea_e_WSUM (a e : Nat) : Nat := 0x40072004 + 0x100 * (a % 12) + 0x10 * (e % 16)
abbrev ACQ_Ea_e_WCNT (a e : Nat) : Nat := 0x40072008 + 0x100 * (a % 12) + 0x10 * (e % 16)
abbrev ACQ_Ea_e_WMM (a e : Nat) : Nat := 0x4007200C + 0x100 * (a % 12) + 0x10 * (e % 16)
abbrev ACQ_DSc_CFG (c : Nat) : Nat := 0x40073000 + 0x20 * (c % 12)
abbrev ACQ_DSc_GAIN (c : Nat) : Nat := 0x40073004 + 0x20 * (c % 12)
abbrev ACQ_DSc_OFF (c : Nat) : Nat := 0x40073008 + 0x20 * (c % 12)
abbrev ACQ_DSc_LIMHI (c : Nat) : Nat := 0x4007300C + 0x20 * (c % 12)
abbrev ACQ_DSc_LIMLO (c : Nat) : Nat := 0x40073010 + 0x20 * (c % 12)
abbrev ACQ_DSc_WIN (c : Nat) : Nat := 0x40073014 + 0x20 * (c % 12)
abbrev ACQ_DSc_STAT (c : Nat) : Nat := 0x40073018 + 0x20 * (c % 12)
abbrev ACQ_DSc_SINC (c : Nat) : Nat := 0x4007301C + 0x20 * (c % 12)
abbrev ACQ_SDCLKn_CFG (n : Nat) : Nat := 0x40073400 + 0x04 * (n % 4)
/-! POS block, 0x40080000 (10_position_feedback.md R302) -/
abbrev POS_CFG : Nat := 0x40080000
abbrev POS_AGREE : Nat := 0x40080004
abbrev POS_DIRHYS : Nat := 0x40080008
abbrev POS_CLAMP : Nat := 0x4008000C
abbrev POS_SENSVn_CFG (n : Nat) : Nat := 0x40080010 + 0x04 * (n % 2)
abbrev POS_CHc_CFG (c : Nat) : Nat := 0x40080100 + 0x100 * (c % 2)
abbrev POS_CHc_OFFSET (c : Nat) : Nat := 0x40080104 + 0x100 * (c % 2)
abbrev POS_CHc_OBS (c : Nat) : Nat := 0x40080108 + 0x100 * (c % 2)
abbrev POS_CHc_FILT (c : Nat) : Nat := 0x4008010C + 0x100 * (c % 2)
abbrev POS_CHc_ABZ (c : Nat) : Nat := 0x40080110 + 0x100 * (c % 2)
abbrev POS_CHc_RES (c : Nat) : Nat := 0x40080114 + 0x100 * (c % 2)
abbrev POS_CHc_SENT (c : Nat) : Nat := 0x40080118 + 0x100 * (c % 2)
abbrev POS_CHc_SSI (c : Nat) : Nat := 0x4008011C + 0x100 * (c % 2)
abbrev POS_CHc_SSI2 (c : Nat) : Nat := 0x40080120 + 0x100 * (c % 2)
abbrev POS_CHc_CNT (c : Nat) : Nat := 0x40080124 + 0x100 * (c % 2)
abbrev POS_CHc_STAT (c : Nat) : Nat := 0x40080128 + 0x100 * (c % 2)
abbrev POS_CHc_ERR (c : Nat) : Nat := 0x4008012C + 0x100 * (c % 2)
abbrev POS_CHc_ZCNT (c : Nat) : Nat := 0x40080130 + 0x100 * (c % 2)
abbrev POS_CHc_SLOW (c : Nat) : Nat := 0x40080134 + 0x100 * (c % 2)
/-! FLD block, 0x40090000 (11_field_commutation.md R341) -/
abbrev FLD_CFG : Nat := 0x40090000
abbrev FLD_CLAMP : Nat := 0x40090004
abbrev FLD_MCm_CFG (m : Nat) : Nat := 0x40090100 + 0x80 * (m % 2)
abbrev FLD_MCm_START (m : Nat) : Nat := 0x40090104 + 0x80 * (m % 2)
abbrev FLD_MCm_HO (m : Nat) : Nat := 0x40090108 + 0x80 * (m % 2)
abbrev FLD_MCm_BW (m : Nat) : Nat := 0x4009010C + 0x80 * (m % 2)
abbrev FLD_MCm_INP (m : Nat) : Nat := 0x40090110 + 0x80 * (m % 2)
abbrev FLD_MCm_VIN (m : Nat) : Nat := 0x40090114 + 0x80 * (m % 2)
abbrev FLD_MCm_DIR (m : Nat) : Nat := 0x40090118 + 0x80 * (m % 2)
abbrev FLD_MCm_STAT (m : Nat) : Nat := 0x4009011C + 0x80 * (m % 2)
abbrev FLD_MCm_RS (m : Nat) : Nat := 0x40090120 + 0x80 * (m % 2)
abbrev FLD_MCm_LD (m : Nat) : Nat := 0x40090124 + 0x80 * (m % 2)
abbrev FLD_MCm_LQ (m : Nat) : Nat := 0x40090128 + 0x80 * (m % 2)
abbrev FLD_MCm_VHFI (m : Nat) : Nat := 0x4009012C + 0x80 * (m % 2)
abbrev FLD_MCm_WCATCH (m : Nat) : Nat := 0x40090130 + 0x80 * (m % 2)
abbrev FLD_MCm_WB1 (m : Nat) : Nat := 0x40090134 + 0x80 * (m % 2)
abbrev FLD_MCm_WB2 (m : Nat) : Nat := 0x40090138 + 0x80 * (m % 2)
abbrev FLD_MCm_EMIN (m : Nat) : Nat := 0x4009013C + 0x80 * (m % 2)
abbrev FLD_MCm_RESLIM (m : Nat) : Nat := 0x40090140 + 0x80 * (m % 2)
abbrev FLD_MCm_POLV (m : Nat) : Nat := 0x40090144 + 0x80 * (m % 2)
abbrev FLD_MCm_IFI (m : Nat) : Nat := 0x40090148 + 0x80 * (m % 2)
abbrev FLD_MCm_IFACC (m : Nat) : Nat := 0x4009014C + 0x80 * (m % 2)
abbrev FLD_MCm_IFW (m : Nat) : Nat := 0x40090150 + 0x80 * (m % 2)
abbrev FLD_MCm_IFLOSS (m : Nat) : Nat := 0x40090154 + 0x80 * (m % 2)
abbrev FLD_EVs_ANG (s : Nat) : Nat := 0x40090800 + 0x10 * (s % 16)
abbrev FLD_EVs_ACT (s : Nat) : Nat := 0x40090804 + 0x10 * (s % 16)
abbrev FLD_EVs_STAT (s : Nat) : Nat := 0x40090808 + 0x10 * (s % 16)
/-! WGH block, 0x400A0000 (12_torque_monitor_discharge.md R366) -/
abbrev WGH_CLAMP : Nat := 0x400A0000
abbrev WGH_MCm_CFG (m : Nat) : Nat := 0x400A0100 + 0x80 * (m % 2)
abbrev WGH_MCm_IN (m : Nat) : Nat := 0x400A0104 + 0x80 * (m % 2)
abbrev WGH_MCm_KT (m : Nat) : Nat := 0x400A0108 + 0x80 * (m % 2)
abbrev WGH_MCm_MF (m : Nat) : Nat := 0x400A010C + 0x80 * (m % 2)
abbrev WGH_MCm_WSPDk (m k : Nat) : Nat := 0x400A0110 + 0x80 * (m % 2) + 0x04 * (k % 4)
abbrev WGH_MCm_BANDk (m k : Nat) : Nat := 0x400A0120 + 0x80 * (m % 2) + 0x04 * (k % 4)
abbrev WGH_MCm_BANDP (m : Nat) : Nat := 0x400A0130 + 0x80 * (m % 2)
abbrev WGH_MCm_SIGNMIN (m : Nat) : Nat := 0x400A0134 + 0x80 * (m % 2)
abbrev WGH_MCm_TAU (m : Nat) : Nat := 0x400A0138 + 0x80 * (m % 2)
abbrev WGH_MCm_TSTART (m : Nat) : Nat := 0x400A013C + 0x80 * (m % 2)
abbrev WGH_MCm_STAT (m : Nat) : Nat := 0x400A0140 + 0x80 * (m % 2)
abbrev WGH_MCm_CNT (m : Nat) : Nat := 0x400A0144 + 0x80 * (m % 2)
abbrev WGH_MAPm_Di (m i : Nat) : Nat := 0x400A0200 + 0x20 * (m % 2) + 0x04 * (i % 8)
abbrev WGH_MAPDATA (i : Nat) : Nat := 0x400A1000 + 0x04 * (i % 9216)
/-! ISK block, 0x400B0000 (13_isnak_link.md R387) -/
abbrev ISK_CLAMP : Nat := 0x400B0000
abbrev ISK_STRDEFj (j : Nat) : Nat := 0x400B0004 + 0x04 * (j % 2)
abbrev ISK_LINKl_CFG (l : Nat) : Nat := 0x400B0100 + 0x40 * (l % 2)
abbrev ISK_LINKl_STAT (l : Nat) : Nat := 0x400B0104 + 0x40 * (l % 2)
abbrev ISK_LINKl_CNT (l : Nat) : Nat := 0x400B0108 + 0x40 * (l % 2)
abbrev ISK_LINKl_MAPj (l j : Nat) : Nat := 0x400B0110 + 0x40 * (l % 2) + 0x04 * (j % 4)
abbrev ISK_NODEl_n (l n : Nat) : Nat := 0x400B1000 + 0x100 * (l % 2) + 0x04 * (n % 16)
/-! THM block, 0x400C0000 (14_thermal.md R405) -/
abbrev THM_CFG : Nat := 0x400C0000
abbrev THM_STAT : Nat := 0x400C0004
abbrev THM_CLAMP : Nat := 0x400C0008
abbrev THM_CNT : Nat := 0x400C000C
abbrev THM_CHIP_LVL : Nat := 0x400C0010
abbrev THM_CHIP_ACT : Nat := 0x400C0014
abbrev THM_CHIP_P : Nat := 0x400C0018
abbrev THM_CHIP_T : Nat := 0x400C001C
abbrev THM_CHIP_Rn (n : Nat) : Nat := 0x400C0020 + 0x08 * (n % 3)
abbrev THM_CHIP_TAUn (n : Nat) : Nat := 0x400C0024 + 0x08 * (n % 3)
abbrev THM_LEGk_CFG (k : Nat) : Nat := 0x400C0100 + 0x20 * (k % 8)
abbrev THM_LEGk_TSW (k : Nat) : Nat := 0x400C0104 + 0x20 * (k % 8)
abbrev THM_LEGk_TDI (k : Nat) : Nat := 0x400C0108 + 0x20 * (k % 8)
abbrev THM_LEGk_PSW (k : Nat) : Nat := 0x400C010C + 0x20 * (k % 8)
abbrev THM_LEGk_PDI (k : Nat) : Nat := 0x400C0110 + 0x20 * (k % 8)
abbrev THM_ANCHa_CFG (a : Nat) : Nat := 0x400C0200 + 0x04 * (a % 8)
abbrev THM_ANCHa_T (a : Nat) : Nat := 0x400C0240 + 0x04 * (a % 8)
abbrev THM_PSs_w (s w : Nat) : Nat := 0x400C0400 + 0x100 * (s % 2) + 0x04 * (w % 32)
abbrev THM_LINt_p (t p : Nat) : Nat := 0x400C0800 + 0x100 * (t % 2) + 0x04 * (p % 35)
/-! CAN block, 0x400D0000 (16_can.md R455) -/
abbrev CAN_CTRL (c : Nat) : Nat := 0x400D0000 + 0x4000 * (c % 4)
abbrev CAN_STAT (c : Nat) : Nat := 0x400D0004 + 0x4000 * (c % 4)
abbrev CAN_CLAMP (c : Nat) : Nat := 0x400D0008 + 0x4000 * (c % 4)
abbrev CAN_NBT (c : Nat) : Nat := 0x400D000C + 0x4000 * (c % 4)
abbrev CAN_DBT (c : Nat) : Nat := 0x400D0010 + 0x4000 * (c % 4)
abbrev CAN_TDC (c : Nat) : Nat := 0x400D0014 + 0x4000 * (c % 4)
abbrev CAN_XL (c : Nat) : Nat := 0x400D0018 + 0x4000 * (c % 4)
abbrev CAN_ERR (c : Nat) : Nat := 0x400D001C + 0x4000 * (c % 4)
abbrev CAN_CNT (c : Nat) : Nat := 0x400D0020 + 0x4000 * (c % 4)
abbrev CAN_CNT2 (c : Nat) : Nat := 0x400D0024 + 0x4000 * (c % 4)
abbrev CAN_TXBASE (c : Nat) : Nat := 0x400D0040 + 0x4000 * (c % 4)
abbrev CAN_TXCFG (c : Nat) : Nat := 0x400D0044 + 0x4000 * (c % 4)
abbrev CAN_TXIDX (c : Nat) : Nat := 0x400D0048 + 0x4000 * (c % 4)
abbrev CAN_RXBASE (c : Nat) : Nat := 0x400D004C + 0x4000 * (c % 4)
abbrev CAN_RXCFG (c : Nat) : Nat := 0x400D0050 + 0x4000 * (c % 4)
abbrev CAN_RXIDX (c : Nat) : Nat := 0x400D0054 + 0x4000 * (c % 4)
abbrev CAN_BUF (c : Nat) : Nat := 0x400D0058 + 0x4000 * (c % 4)
abbrev CAN_RXBUF (c : Nat) : Nat := 0x400D005C + 0x4000 * (c % 4)
abbrev CAN_AD (c : Nat) : Nat := 0x400D0080 + 0x4000 * (c % 4)
abbrev CAN_ADCANDi_N (c i : Nat) : Nat := 0x400D0084 + 0x4000 * (c % 4) + 0x08 * (i % 8)
abbrev CAN_ADCANDi_D (c i : Nat) : Nat := 0x400D0088 + 0x4000 * (c % 4) + 0x08 * (i % 8)
abbrev CAN_TT (c : Nat) : Nat := 0x400D0100 + 0x4000 * (c % 4)
abbrev CAN_TTCYC (c : Nat) : Nat := 0x400D0104 + 0x4000 * (c % 4)
abbrev CAN_TTSTAT (c : Nat) : Nat := 0x400D0108 + 0x4000 * (c % 4)
abbrev CAN_TTCOLj (c j : Nat) : Nat := 0x400D0140 + 0x4000 * (c % 4) + 0x04 * (j % 16)
abbrev CAN_TTOBJo_T0 (c o : Nat) : Nat := 0x400D0200 + 0x4000 * (c % 4) + 0x50 * (o % 32)
abbrev CAN_TTOBJo_T1 (c o : Nat) : Nat := 0x400D0204 + 0x4000 * (c % 4) + 0x50 * (o % 32)
abbrev CAN_TTOBJo_T2 (c o : Nat) : Nat := 0x400D0208 + 0x4000 * (c % 4) + 0x50 * (o % 32)
abbrev CAN_TTOBJo_T3 (c o : Nat) : Nat := 0x400D020C + 0x4000 * (c % 4) + 0x50 * (o % 32)
abbrev CAN_TTOBJo_Dd (c o d : Nat) : Nat := 0x400D0210 + 0x4000 * (c % 4) + 0x50 * (o % 32) + 0x04 * (d % 16)
abbrev CAN_TTMy_j (c y j : Nat) : Nat := 0x400D1000 + 0x4000 * (c % 4) + 0x40 * (y % 64) + 0x04 * (j % 16)
abbrev CAN_FLTf_F0 (c f : Nat) : Nat := 0x400D2000 + 0x4000 * (c % 4) + 0x10 * (f % 128)
abbrev CAN_FLTf_F1 (c f : Nat) : Nat := 0x400D2004 + 0x4000 * (c % 4) + 0x10 * (f % 128)
abbrev CAN_FLTf_F2 (c f : Nat) : Nat := 0x400D2008 + 0x4000 * (c % 4) + 0x10 * (f % 128)
abbrev CAN_FLTf_F3 (c f : Nat) : Nat := 0x400D200C + 0x4000 * (c % 4) + 0x10 * (f % 128)
abbrev CAN_SPSTAT : Nat := 0x400D3F00
abbrev CAN_SPCFG : Nat := 0x400D3F04
/-! ETH block, 0x400E0000 (17_ethernet_time.md R472) -/
abbrev ETH_CLAMP : Nat := 0x400E0000
abbrev ETH_VT_CTRL : Nat := 0x400E0004
abbrev ETH_VT_RATE : Nat := 0x400E0008
abbrev ETH_VT_STEP : Nat := 0x400E000C
abbrev ETH_VT_SETSEC_LO : Nat := 0x400E0010
abbrev ETH_VT_SETSEC_HI : Nat := 0x400E0014
abbrev ETH_VT_SETNS : Nat := 0x400E0018
abbrev ETH_TVT_TICK : Nat := 0x400E0020
abbrev ETH_TVT_SEC : Nat := 0x400E0024
abbrev ETH_TVT_NS : Nat := 0x400E0028
abbrev ETH_MDIO : Nat := 0x400E0030
abbrev ETH_Pp_CFG (p : Nat) : Nat := 0x400E0100 + 0x100 * (p % 2)
abbrev ETH_Pp_STAT (p : Nat) : Nat := 0x400E0104 + 0x100 * (p % 2)
abbrev ETH_Pp_TXBASE (p : Nat) : Nat := 0x400E0108 + 0x100 * (p % 2)
abbrev ETH_Pp_RXBASE (p : Nat) : Nat := 0x400E010C + 0x100 * (p % 2)
abbrev ETH_Pp_RING (p : Nat) : Nat := 0x400E0110 + 0x100 * (p % 2)
abbrev ETH_Pp_BUF (p : Nat) : Nat := 0x400E0114 + 0x100 * (p % 2)
abbrev ETH_Pp_TXCTL (p : Nat) : Nat := 0x400E0118 + 0x100 * (p % 2)
abbrev ETH_Pp_IDX (p : Nat) : Nat := 0x400E011C + 0x100 * (p % 2)
abbrev ETH_Pp_LAT (p : Nat) : Nat := 0x400E0120 + 0x100 * (p % 2)
abbrev ETH_Pp_CNT (p : Nat) : Nat := 0x400E0124 + 0x100 * (p % 2)
abbrev ETH_P1_PLCA : Nat := 0x400E0228
abbrev ETH_Pp_FLTf_A (p f : Nat) : Nat := 0x400E0180 + 0x100 * (p % 2) + 0x10 * (f % 16)
abbrev ETH_Pp_FLTf_B (p f : Nat) : Nat := 0x400E0184 + 0x100 * (p % 2) + 0x10 * (f % 16)
abbrev ETH_Pp_FLTf_C (p f : Nat) : Nat := 0x400E0188 + 0x100 * (p % 2) + 0x10 * (f % 16)
/-! CHK block, 0x400F0000 (19_check_units.md R507) -/
abbrev CHK_CLAMP : Nat := 0x400F0000
abbrev CHK_Un_CFG (n : Nat) : Nat := 0x400F0100 + 0x10 * (n % 4)
abbrev CHK_Un_SEED (n : Nat) : Nat := 0x400F0104 + 0x10 * (n % 4)
abbrev CHK_Un_DATA (n : Nat) : Nat := 0x400F0108 + 0x10 * (n % 4)
abbrev CHK_Un_DATAB (n : Nat) : Nat := 0x400F010C + 0x10 * (n % 4)
abbrev CHK_Un_RES (n : Nat) : Nat := 0x400F0180 + 0x04 * (n % 4)
abbrev CHK_SCs_CFG (s : Nat) : Nat := 0x400F0200 + 0x20 * (s % 8)
abbrev CHK_SCs_BASE (s : Nat) : Nat := 0x400F0204 + 0x20 * (s % 8)
abbrev CHK_SCs_LEN (s : Nat) : Nat := 0x400F0208 + 0x20 * (s % 8)
abbrev CHK_SCs_SEED (s : Nat) : Nat := 0x400F020C + 0x20 * (s % 8)
abbrev CHK_SCs_EXP (s : Nat) : Nat := 0x400F0210 + 0x20 * (s % 8)
abbrev CHK_SCs_RES (s : Nat) : Nat := 0x400F0214 + 0x20 * (s % 8)
abbrev CHK_SCs_STAT (s : Nat) : Nat := 0x400F0218 + 0x20 * (s % 8)
/-! BST block, 0x40100000 (20_selftest_spares_lifecycle.md R530) -/
abbrev BST_CFG : Nat := 0x40100000
abbrev BST_STAT : Nat := 0x40100004
abbrev BST_CLAMP : Nat := 0x40100008
abbrev BST_COND : Nat := 0x4010000C
abbrev BST_CNT : Nat := 0x40100010
abbrev BST_REPAIR : Nat := 0x40100014
abbrev BST_NONCEi (i : Nat) : Nat := 0x40100020 + 0x04 * (i % 4)
abbrev BST_LCCNT : Nat := 0x40100030
abbrev BST_UID_LO : Nat := 0x40100034
abbrev BST_UID_HI : Nat := 0x40100038
abbrev BST_KEYHASHi (i : Nat) : Nat := 0x40100040 + 0x04 * (i % 8)
abbrev BST_Uu (u : Nat) : Nat := 0x40100100 + 0x04 * (u % 256)
/-! HLD block, 0x40110000 (21_holdup_ledger.md R546) -/
abbrev HLD_CFG : Nat := 0x40110000
abbrev HLD_STAT : Nat := 0x40110004
abbrev HLD_CLAMP : Nat := 0x40110008
abbrev HLD_VHOLD : Nat := 0x4011000C
abbrev HLD_CAP : Nat := 0x40110010
abbrev HLD_ESR : Nat := 0x40110014
abbrev HLD_ENERGY : Nat := 0x40110018
abbrev HLD_CMIN : Nat := 0x4011001C
abbrev HLD_ESRMAX : Nat := 0x40110020
abbrev HLD_HEAD : Nat := 0x40110024
abbrev HLD_SECSEQ : Nat := 0x40110028
abbrev HLD_DURABLE : Nat := 0x4011002C
abbrev HLD_CNT : Nat := 0x40110030
abbrev HLD_RCNT : Nat := 0x40110034
/-! PWR block, 0x40120000 (22_resets_power_states.md R566) -/
abbrev PWR_STATE : Nat := 0x40120000
abbrev PWR_CLAMP : Nat := 0x40120004
abbrev PWR_WAKECFG : Nat := 0x40120008
abbrev PWR_RTCALM_LO : Nat := 0x4012000C
abbrev PWR_RTCALM_HI : Nat := 0x40120010
abbrev PWR_WAKESTAT : Nat := 0x40120014
abbrev PWR_PARKTIME : Nat := 0x40120018
/-! HIC block, 0x40130000 (18_host_complex.md R495) -/
abbrev HIC_CLAMP : Nat := 0x40130000
abbrev HIC_C1_ENTRY : Nat := 0x40130010
abbrev HIC_C1_CTRL : Nat := 0x40130014
abbrev HIC_CACHEc (c : Nat) : Nat := 0x40130018 + 0x04 * (c % 2)
abbrev HIC_TICKDIV : Nat := 0x40130020
abbrev HIC_ECC : Nat := 0x40130024
abbrev HIC_ECCADR : Nat := 0x40130028
abbrev HIC_PRIOs (s : Nat) : Nat := 0x40130104 + 0x04 * (s % 24)
abbrev HIC_PENDING : Nat := 0x40130180
abbrev HIC_IRQc_EN (c : Nat) : Nat := 0x40130200 + 0x10 * (c % 2)
abbrev HIC_IRQc_THR (c : Nat) : Nat := 0x40130204 + 0x10 * (c % 2)
abbrev HIC_IRQc_CLAIM (c : Nat) : Nat := 0x40130208 + 0x10 * (c % 2)
abbrev HIC_MTIME_LO : Nat := 0x40130300
abbrev HIC_MTIME_HI : Nat := 0x40130304
abbrev HIC_MTIMECMPc_LO (c : Nat) : Nat := 0x40130308 + 0x08 * (c % 2)
abbrev HIC_MTIMECMPc_HI (c : Nat) : Nat := 0x4013030C + 0x08 * (c % 2)
abbrev HIC_MSIPc (c : Nat) : Nat := 0x40130320 + 0x04 * (c % 2)
abbrev HIC_WDw_CFG (w : Nat) : Nat := 0x40130400 + 0x20 * (w % 2)
abbrev HIC_WDw_WIN (w : Nat) : Nat := 0x40130404 + 0x20 * (w % 2)
abbrev HIC_WDw_SVC (w : Nat) : Nat := 0x40130408 + 0x20 * (w % 2)
abbrev HIC_WDw_STAT (w : Nat) : Nat := 0x4013040C + 0x20 * (w % 2)
abbrev HIC_SEMn (n : Nat) : Nat := 0x40130500 + 0x04 * (n % 16)
/-! XSP block, 0x40140000 (18_host_complex.md R496) -/
abbrev XSP_CFG : Nat := 0x40140000
abbrev XSP_CMD : Nat := 0x40140004
abbrev XSP_ADDR : Nat := 0x40140008
abbrev XSP_STAT : Nat := 0x4014000C
abbrev XSP_PROT : Nat := 0x40140010
abbrev XSP_CLAMP : Nat := 0x40140014
abbrev XSP_DATA (i : Nat) : Nat := 0x40140100 + 0x04 * (i % 64)
/-! GPIO block, 0x40150000 (18_host_complex.md R495) -/
abbrev GPIO_OUT : Nat := 0x40150000
abbrev GPIO_DIR : Nat := 0x40150004
abbrev GPIO_IN : Nat := 0x40150008
abbrev GPIO_IRQCFG (i : Nat) : Nat := 0x4015000C + 0x04 * (i % 2)
abbrev GPIO_IRQSTAT : Nat := 0x40150014

end Reg

namespace Fld

/-! Fields of the SYS block -/
abbrev SYS_DEVID.PART : Bits := ⟨0, 16⟩
abbrev SYS_DEVID.FAMILY : Bits := ⟨16, 4⟩
abbrev SYS_DEVID.CORE_REV : Bits := ⟨20, 4⟩
abbrev SYS_DEVID.FIELD_REV : Bits := ⟨24, 4⟩
abbrev SYS_SETUP_LOCK.LOCK : Bits := ⟨0, 1⟩
abbrev SYS_SETUP_LOCK.SEALED : Bits := ⟨1, 1⟩
abbrev SYS_DLINK_STAT.LOST : Bits := ⟨0, 16⟩
abbrev SYS_DLINK_STAT.RETRY : Bits := ⟨16, 8⟩
abbrev SYS_DLINK_STAT.DOWN : Bits := ⟨24, 1⟩
abbrev SYS_DLINK_STAT.DEGR : Bits := ⟨25, 1⟩
abbrev SYS_FAULTCFG.F1_LIMIT : Bits := ⟨0, 8⟩
abbrev SYS_FAULTCFG.F1_WIN : Bits := ⟨8, 8⟩
abbrev SYS_FAULTCFG.DERATE : Bits := ⟨16, 8⟩
abbrev SYS_FAULTCFG.F3_SCOPE : Bits := ⟨24, 1⟩
abbrev SYS_FAULTSTAT.F2 : Bits := ⟨0, 1⟩
abbrev SYS_FAULTSTAT.F3 : Bits := ⟨1, 1⟩
abbrev SYS_FAULTSTAT.F4 : Bits := ⟨2, 1⟩
abbrev SYS_FAULTSTAT.ESCAL : Bits := ⟨8, 8⟩
abbrev SYS_BOOTSTAT.SLOT : Bits := ⟨0, 1⟩
abbrev SYS_BOOTSTAT.TRY : Bits := ⟨2, 2⟩
abbrev SYS_BOOTSTAT.CODE : Bits := ⟨8, 4⟩
abbrev SYS_BOOTOK.OK : Bits := ⟨0, 1⟩
abbrev SYS_BOOTOK.COMMIT : Bits := ⟨1, 1⟩
abbrev SYS_BOOTREJ.SLOT : Bits := ⟨0, 1⟩
abbrev SYS_BOOTREJ.SEQ : Bits := ⟨16, 16⟩
abbrev SYS_RSTCTL.SWSYS : Bits := ⟨0, 16⟩
abbrev SYS_SWSUB.UNIT : Bits := ⟨0, 5⟩
abbrev SYS_SWSUB.INST : Bits := ⟨8, 4⟩
abbrev SYS_SWSUB.GO : Bits := ⟨31, 1⟩
abbrev SYS_RSTCAUSE.CAUSE : Bits := ⟨0, 3⟩
abbrev SYS_RSTCAUSE.SLEEPWK : Bits := ⟨4, 1⟩
abbrev SYS_RSTCAUSE.FDIE : Bits := ⟨5, 1⟩
abbrev SYS_RESTORE.GO : Bits := ⟨0, 1⟩
abbrev SYS_RESTORE.STATE : Bits := ⟨8, 2⟩
abbrev SYS_RESTORE.IMGOK : Bits := ⟨12, 1⟩
/-! Fields of the CLK block -/
abbrev CLK_REF.SEL : Bits := ⟨0, 1⟩
abbrev CLK_REF.FREF : Bits := ⟨8, 8⟩
abbrev CLK_STAT.FAB : Bits := ⟨0, 2⟩
abbrev CLK_STAT.ADC : Bits := ⟨2, 2⟩
abbrev CLK_STAT.REF : Bits := ⟨4, 1⟩
abbrev CLK_STAT.DISC : Bits := ⟨5, 1⟩
abbrev CLK_STAT.VTVALID : Bits := ⟨6, 1⟩
abbrev CLK_STAT.RTCSRC : Bits := ⟨7, 1⟩
abbrev CLK_CLAMP.COUNT : Bits := ⟨0, 16⟩
abbrev CLK_CNT.UNLOCK : Bits := ⟨0, 8⟩
abbrev CLK_CNT.REFLOSS : Bits := ⟨8, 8⟩
abbrev CLK_CNT.FDA : Bits := ⟨16, 4⟩
abbrev CLK_CNT.FDB : Bits := ⟨20, 4⟩
abbrev CLK_PLLp_CFG.EN : Bits := ⟨0, 1⟩
abbrev CLK_PLLp_CFG.RDIV : Bits := ⟨4, 2⟩
abbrev CLK_PLLp_CFG.NINT : Bits := ⟨16, 9⟩
abbrev CLK_PLLp_FRAC.NFRAC : Bits := ⟨0, 24⟩
abbrev CLK_PLLp_STAT.STATE : Bits := ⟨0, 3⟩
abbrev CLK_PLLp_STAT.CARRY : Bits := ⟨8, 1⟩
abbrev CLK_PLLp_STAT.LDMV : Bits := ⟨16, 12⟩
abbrev CLK_PLLp_OFS.OFS : Bits := ⟨0, 16⟩
abbrev CLK_PLLp_OFS.FI : Bits := ⟨16, 16⟩
abbrev CLK_HOLD.HOLDTMO : Bits := ⟨0, 8⟩
abbrev CLK_HOLD.SLEW : Bits := ⟨8, 8⟩
abbrev CLK_HOLD.QWATCH : Bits := ⟨16, 8⟩
abbrev CLK_DISC.EN : Bits := ⟨0, 1⟩
abbrev CLK_DISC.TC : Bits := ⟨8, 8⟩
abbrev CLK_DISC.DISCMAX : Bits := ⟨16, 8⟩
abbrev CLK_OUTn_CFG.SRC : Bits := ⟨0, 3⟩
abbrev CLK_OUTn_CFG.DIV : Bits := ⟨4, 10⟩
abbrev CLK_OUTn_CFG.FMT : Bits := ⟨16, 2⟩
abbrev CLK_TICKIN_CFG.EN : Bits := ⟨0, 1⟩
abbrev CLK_TICKIN_CFG.FALL : Bits := ⟨1, 1⟩
abbrev CLK_TICKIN_CFG.N : Bits := ⟨4, 4⟩
abbrev CLK_TICKIN_CFG.LIM : Bits := ⟨16, 16⟩
abbrev CLK_TICKIN_OFS.OFS : Bits := ⟨0, 22⟩
abbrev CLK_TICKIN_ERR.ERR : Bits := ⟨0, 32⟩
abbrev CLK_RTC_LO.COUNT : Bits := ⟨0, 32⟩
abbrev CLK_RTC_HI.COUNT : Bits := ⟨0, 16⟩
abbrev CLK_TICKCFG.SRC : Bits := ⟨0, 2⟩
abbrev CLK_TICKCFG.OUT_EN : Bits := ⟨4, 1⟩
abbrev CLK_TICKCFG.OUT_W : Bits := ⟨8, 5⟩
abbrev CLK_TICKCNT_LO.COUNT : Bits := ⟨0, 32⟩
abbrev CLK_TICKCNT_HI.COUNT : Bits := ⟨0, 16⟩
abbrev CLK_TICKPER.PERIOD : Bits := ⟨0, 22⟩
abbrev CLK_TICKPER_NEXT.PERIOD : Bits := ⟨0, 22⟩
/-! Fields of the CMD block -/
abbrev CMD_PSN.NEXT : Bits := ⟨0, 32⟩
abbrev CMD_STAGE.DESC : Bits := ⟨0, 12⟩
abbrev CMD_STAGE.CARV : Bits := ⟨16, 12⟩
abbrev CMD_EVTCFG.EVTN_CLASS : Bits := ⟨0, 3⟩
abbrev CMD_EVTCFG.ACK : Bits := ⟨8, 1⟩
abbrev CMD_CLAMP.COUNT : Bits := ⟨0, 16⟩
abbrev CMD_SQn_BASE.OFFSET : Bits := ⟨5, 17⟩
abbrev CMD_SQn_CFG.SIZE : Bits := ⟨0, 13⟩
abbrev CMD_SQn_CFG.PRIO : Bits := ⟨16, 2⟩
abbrev CMD_SQn_CFG.CQ : Bits := ⟨20, 2⟩
abbrev CMD_SQn_CFG.LATE : Bits := ⟨24, 1⟩
abbrev CMD_SQn_CFG.EN : Bits := ⟨28, 1⟩
abbrev CMD_SQn_CTRL.RESUME : Bits := ⟨0, 1⟩
abbrev CMD_SQn_CTRL.FLUSH : Bits := ⟨1, 1⟩
abbrev CMD_SQn_CTRL.CLRCNT : Bits := ⟨2, 1⟩
abbrev CMD_SQn_STAT.STATE : Bits := ⟨0, 2⟩
abbrev CMD_SQn_STAT.EPOCH : Bits := ⟨8, 8⟩
abbrev CMD_SQn_STAT.HSLOT : Bits := ⟨16, 12⟩
abbrev CMD_SQn_CNT.CLAMP : Bits := ⟨0, 16⟩
abbrev CMD_SQn_CNT.BADDB : Bits := ⟨16, 8⟩
abbrev CMD_SQn_CNT.LATE : Bits := ⟨24, 8⟩
abbrev CMD_CQm_BASE.OFFSET : Bits := ⟨4, 18⟩
abbrev CMD_CQm_CFG.SIZE : Bits := ⟨0, 13⟩
abbrev CMD_CQm_CFG.EN : Bits := ⟨28, 1⟩
abbrev CMD_CQm_IRQ.THRESH : Bits := ⟨0, 8⟩
abbrev CMD_CQm_IRQ.TMO : Bits := ⟨8, 8⟩
abbrev CMD_CQm_IRQ.EN : Bits := ⟨16, 1⟩
abbrev CMD_EQ_BASE.OFFSET : Bits := ⟨4, 18⟩
abbrev CMD_EQ_CFG.SIZE : Bits := ⟨0, 13⟩
abbrev CMD_EQ_CFG.EN : Bits := ⟨28, 1⟩
abbrev CMD_EQ_IRQ.THRESH : Bits := ⟨0, 8⟩
abbrev CMD_EQ_IRQ.TMO : Bits := ⟨8, 8⟩
abbrev CMD_EQ_IRQ.EN : Bits := ⟨16, 1⟩
abbrev CMD_EQ_STAT.DROP : Bits := ⟨0, 16⟩
/-! Fields of the ENG block -/
abbrev ENG_CFG.SCHED : Bits := ⟨0, 2⟩
abbrev ENG_CFG.RUN : Bits := ⟨4, 1⟩
abbrev ENG_CFG.NUMEV : Bits := ⟨8, 1⟩
abbrev ENG_CFG.SHADOW_W : Bits := ⟨16, 8⟩
abbrev ENG_STAT.SCHED : Bits := ⟨0, 2⟩
abbrev ENG_STAT.RUN : Bits := ⟨4, 1⟩
abbrev ENG_STAT.SPARE : Bits := ⟨8, 4⟩
abbrev ENG_STAT.NOSPARE : Bits := ⟨12, 4⟩
abbrev ENG_STAT.SHADOW : Bits := ⟨16, 4⟩
abbrev ENG_TOLL_REQ.C_REQ : Bits := ⟨0, 20⟩
abbrev ENG_TOLL_SMAX.S_MAX : Bits := ⟨0, 19⟩
abbrev ENG_TOLL_BUD.B : Bits := ⟨0, 18⟩
abbrev ENG_TADM.T_ADM : Bits := ⟨0, 22⟩
abbrev ENG_CNT.DLMISS : Bits := ⟨0, 8⟩
abbrev ENG_CNT.SWAP : Bits := ⟨8, 8⟩
abbrev ENG_CNT.RANGE : Bits := ⟨16, 16⟩
abbrev ENG_CLAMP.COUNT : Bits := ⟨0, 16⟩
abbrev ENG_RUNMAPj.MAP : Bits := ⟨0, 32⟩
abbrev ENG_BINDn.SRC : Bits := ⟨0, 12⟩
abbrev ENG_BINDn.SINK : Bits := ⟨16, 12⟩
abbrev ENG_BINDn.EN : Bits := ⟨31, 1⟩
abbrev ENG_BOARDa.WORD : Bits := ⟨0, 32⟩
/-! Fields of the TPR block -/
abbrev TPR_CFG.HOLD : Bits := ⟨0, 3⟩
abbrev TPR_CFG.SIGW : Bits := ⟨8, 7⟩
abbrev TPR_STAT.HOLD : Bits := ⟨0, 1⟩
abbrev TPR_STAT.HLEFT : Bits := ⟨4, 3⟩
abbrev TPR_STAT.WPOS : Bits := ⟨8, 6⟩
abbrev TPR_STAT.SCRUB : Bits := ⟨16, 7⟩
abbrev TPR_CNT_A.RESYNC : Bits := ⟨0, 16⟩
abbrev TPR_CNT_A.LATENT : Bits := ⟨16, 16⟩
abbrev TPR_CNT_B.DIVERGE3 : Bits := ⟨0, 8⟩
abbrev TPR_CNT_B.HOLDS : Bits := ⟨8, 8⟩
abbrev TPR_CNT_B.DISCARD : Bits := ⟨16, 8⟩
abbrev TPR_CNT_B.VFAULT : Bits := ⟨24, 8⟩
abbrev TPR_SALT.PASS : Bits := ⟨0, 2⟩
abbrev TPR_SALT.BIT : Bits := ⟨8, 5⟩
abbrev TPR_SALT.BIND : Bits := ⟨16, 8⟩
abbrev TPR_SALT.NONE : Bits := ⟨30, 1⟩
abbrev TPR_SALT.FAIL : Bits := ⟨31, 1⟩
abbrev TPR_CLAMP.COUNT : Bits := ⟨0, 16⟩
abbrev TPR_SIGn_A.SIG : Bits := ⟨0, 32⟩
abbrev TPR_SIGn_B.SIG : Bits := ⟨0, 32⟩
abbrev TPR_SIGn_C.SIG : Bits := ⟨0, 32⟩
abbrev TPR_SIGn_TICK.TICK : Bits := ⟨0, 32⟩
/-! Fields of the PWM block -/
abbrev PWM_LDALL.TB : Bits := ⟨0, 4⟩
abbrev PWM_STAT.SP0 : Bits := ⟨0, 5⟩
abbrev PWM_STAT.SP1 : Bits := ⟨8, 5⟩
abbrev PWM_STAT.EXH : Bits := ⟨16, 1⟩
abbrev PWM_SPCFG.WATCH : Bits := ⟨0, 8⟩
abbrev PWM_CLAMP.COUNT : Bits := ⟨0, 16⟩
abbrev TBn_CFG.RUN : Bits := ⟨0, 1⟩
abbrev TBn_CFG.MODE : Bits := ⟨1, 2⟩
abbrev TBn_CFG.LDPT : Bits := ⟨4, 1⟩
abbrev TBn_CFG.SYNC : Bits := ⟨5, 1⟩
abbrev TBn_CFG.THDIV : Bits := ⟨6, 1⟩
abbrev TBn_CFG.SHHOLD : Bits := ⟨7, 1⟩
abbrev TBn_CFG.DITH : Bits := ⟨8, 12⟩
abbrev TBn_PER.PERIOD : Bits := ⟨0, 22⟩
abbrev TBn_PHASE.PHASE : Bits := ⟨0, 22⟩
abbrev TBn_STAT.CNT : Bits := ⟨0, 22⟩
abbrev TBn_STAT.DIR : Bits := ⟨24, 1⟩
abbrev TBn_STAT.DIV : Bits := ⟨26, 2⟩
abbrev TBn_STAT.CLK : Bits := ⟨28, 2⟩
abbrev TBn_STAT.COARSE : Bits := ⟨30, 1⟩
abbrev TBn_VTERR.ERR : Bits := ⟨0, 32⟩
abbrev PAIRk_CFG.TB : Bits := ⟨0, 2⟩
abbrev PAIRk_CFG.PMODE : Bits := ⟨4, 2⟩
abbrev PAIRk_CFG.POLICY : Bits := ⟨8, 2⟩
abbrev PAIRk_CFG.ALIGN : Bits := ⟨12, 1⟩
abbrev PAIRk_CFG.UPD : Bits := ⟨16, 1⟩
abbrev PAIRk_DT.DTR : Bits := ⟨0, 16⟩
abbrev PAIRk_DT.DTF : Bits := ⟨16, 16⟩
abbrev PAIRk_MINP.MINP : Bits := ⟨0, 14⟩
abbrev PAIRk_CMP.DUTY : Bits := ⟨0, 32⟩
abbrev PAIRk_SHD.DUTY : Bits := ⟨0, 32⟩
abbrev PAIRk_MASK.CODE : Bits := ⟨0, 3⟩
abbrev PAIRk_MASKNX.CODE : Bits := ⟨0, 3⟩
abbrev PAIRk_LIVE.W : Bits := ⟨0, 22⟩
abbrev PAIRk_LIVE.MASK : Bits := ⟨24, 3⟩
abbrev PAIRk_LIVE.EN : Bits := ⟨28, 1⟩
abbrev PAIRk_LIVE.SPARE : Bits := ⟨31, 1⟩
abbrev PAIRk_CARRY.C : Bits := ⟨0, 23⟩
abbrev PAIRk_STAT.SHORT : Bits := ⟨0, 16⟩
abbrev PAIRk_STAT.CSAT : Bits := ⟨16, 8⟩
abbrev PAIRk_STAT.DLIM : Bits := ⟨24, 8⟩
/-! Fields of the PROT block -/
abbrev PROT_CFG.SAFEN_UNITS : Bits := ⟨0, 5⟩
abbrev PROT_CFG.FAULTN_F2 : Bits := ⟨8, 1⟩
abbrev PROT_CLAMP.COUNT : Bits := ⟨0, 16⟩
abbrev PROT_UNITMAP0.U0 : Bits := ⟨0, 3⟩
abbrev PROT_UNITMAP0.U1 : Bits := ⟨3, 3⟩
abbrev PROT_UNITMAP0.U2 : Bits := ⟨6, 3⟩
abbrev PROT_UNITMAP0.U3 : Bits := ⟨9, 3⟩
abbrev PROT_UNITMAP0.U4 : Bits := ⟨12, 3⟩
abbrev PROT_UNITMAP0.U5 : Bits := ⟨15, 3⟩
abbrev PROT_UNITMAP0.U6 : Bits := ⟨18, 3⟩
abbrev PROT_UNITMAP0.U7 : Bits := ⟨21, 3⟩
abbrev PROT_UNITMAP1.U8 : Bits := ⟨0, 3⟩
abbrev PROT_UNITMAP1.U9 : Bits := ⟨3, 3⟩
abbrev PROT_UNITMAP1.U10 : Bits := ⟨6, 3⟩
abbrev PROT_UNITMAP1.U11 : Bits := ⟨9, 3⟩
abbrev PROT_UNITMAP1.U12 : Bits := ⟨12, 3⟩
abbrev PROT_UNITMAP1.U13 : Bits := ⟨15, 3⟩
abbrev PROT_UNITMAP1.U14 : Bits := ⟨18, 3⟩
abbrev PROT_UNITMAP1.U15 : Bits := ⟨21, 3⟩
abbrev PROT_LATCH_EXT.L : Bits := ⟨0, 16⟩
abbrev PROT_LATCH_INT.L : Bits := ⟨0, 24⟩
abbrev PROT_LEVEL_EXT.L : Bits := ⟨0, 16⟩
abbrev PROT_LEVEL_INT.L : Bits := ⟨0, 24⟩
abbrev PROT_CNT.CLRREJ : Bits := ⟨0, 16⟩
abbrev PROT_CNT.CBC : Bits := ⟨16, 16⟩
abbrev PROT_USTAT.SAFE : Bits := ⟨0, 5⟩
abbrev PROT_EXTn_CFG.FILT : Bits := ⟨0, 10⟩
abbrev PROT_EXTn_CFG.POL : Bits := ⟨12, 1⟩
abbrev PROT_EXTn_CFG.MODE : Bits := ⟨14, 2⟩
abbrev PROT_EXTn_CFG.UNITS : Bits := ⟨16, 5⟩
abbrev PROT_EXTn_CFG.ACT : Bits := ⟨24, 2⟩
abbrev PROT_INTn_CFG.FILT : Bits := ⟨0, 10⟩
abbrev PROT_INTn_CFG.POL : Bits := ⟨12, 1⟩
abbrev PROT_INTn_CFG.MODE : Bits := ⟨14, 2⟩
abbrev PROT_INTn_CFG.UNITS : Bits := ⟨16, 5⟩
abbrev PROT_INTn_CFG.ACT : Bits := ⟨24, 2⟩
abbrev PROT_CMPm_CFG.SEL : Bits := ⟨0, 4⟩
abbrev PROT_CMPm_CFG.HYS : Bits := ⟨8, 6⟩
abbrev PROT_CMPm_CFG.HIEN : Bits := ⟨16, 1⟩
abbrev PROT_CMPm_CFG.LOEN : Bits := ⟨17, 1⟩
abbrev PROT_CMPm_THR.LO : Bits := ⟨0, 10⟩
abbrev PROT_CMPm_THR.HI : Bits := ⟨16, 10⟩
abbrev PROT_BRb_CFG.ASCSIDE : Bits := ⟨0, 1⟩
abbrev PROT_BRb_CFG.SPDSRC : Bits := ⟨4, 2⟩
abbrev PROT_BRb_CFG.NOVAL : Bits := ⟨8, 1⟩
abbrev PROT_BRb_CFG.VDCIN : Bits := ⟨16, 6⟩
abbrev PROT_BRb_THR.HI : Bits := ⟨0, 8⟩
abbrev PROT_BRb_THR.LO : Bits := ⟨8, 8⟩
abbrev PROT_BRb_THR.DWELL : Bits := ⟨16, 8⟩
abbrev PROT_BRb_KE.KE : Bits := ⟨0, 32⟩
abbrev PROT_BRb_STAT.STATE : Bits := ⟨0, 3⟩
abbrev PROT_BRb_STAT.STAND : Bits := ⟨4, 1⟩
abbrev PROT_BRb_STAT.VALID : Bits := ⟨5, 1⟩
abbrev PROT_BRb_STAT.CAUSE : Bits := ⟨8, 8⟩
abbrev PROT_DIS_CFG.CIN : Bits := ⟨0, 6⟩
abbrev PROT_DIS_CFG.VIN : Bits := ⟨8, 6⟩
abbrev PROT_DIS_CFG.VDS : Bits := ⟨16, 4⟩
abbrev PROT_DIS_CFG.VSRC : Bits := ⟨20, 1⟩
abbrev PROT_DIS_CFG.FALLBACK : Bits := ⟨24, 1⟩
abbrev PROT_DIS_CFG.AUTOF4 : Bits := ⟨25, 1⟩
abbrev PROT_DIS_CFG.TRIGEN : Bits := ⟨26, 1⟩
abbrev PROT_DIS_CFG.TRIGSRC : Bits := ⟨28, 4⟩
abbrev PROT_DIS_RDIS.V : Bits := ⟨0, 32⟩
abbrev PROT_DIS_PMAX.V : Bits := ⟨0, 32⟩
abbrev PROT_DIS_EMAX.V : Bits := ⟨0, 32⟩
abbrev PROT_DIS_CLINK.V : Bits := ⟨0, 32⟩
abbrev PROT_DIS_IDDIS.V : Bits := ⟨0, 32⟩
abbrev PROT_DIS_VTGT.V : Bits := ⟨0, 32⟩
abbrev PROT_DIS_AUTODL.DL : Bits := ⟨0, 16⟩
abbrev PROT_DIS_STAT.STATE : Bits := ⟨0, 2⟩
abbrev PROT_DIS_STAT.RES : Bits := ⟨4, 1⟩
abbrev PROT_DIS_STAT.WIND : Bits := ⟨5, 2⟩
abbrev PROT_DIS_STAT.REASON : Bits := ⟨8, 3⟩
abbrev PROT_DIS_EEST.V : Bits := ⟨0, 32⟩
abbrev PROT_DIS_ERES.V : Bits := ⟨0, 32⟩
abbrev PROT_DIS_TIME.MS : Bits := ⟨0, 16⟩
/-! Fields of the ACQ block -/
abbrev ACQ_CFG.RUN : Bits := ⟨0, 1⟩
abbrev ACQ_STAT.SP0 : Bits := ⟨0, 2⟩
abbrev ACQ_STAT.SCORE0 : Bits := ⟨2, 2⟩
abbrev ACQ_STAT.FAIL0 : Bits := ⟨4, 4⟩
abbrev ACQ_STAT.SP1 : Bits := ⟨8, 2⟩
abbrev ACQ_STAT.SCORE1 : Bits := ⟨10, 2⟩
abbrev ACQ_STAT.FAIL1 : Bits := ⟨12, 4⟩
abbrev ACQ_STAT.SP2 : Bits := ⟨16, 2⟩
abbrev ACQ_STAT.SCORE2 : Bits := ⟨18, 2⟩
abbrev ACQ_STAT.FAIL2 : Bits := ⟨20, 4⟩
abbrev ACQ_STAT.SP3 : Bits := ⟨24, 2⟩
abbrev ACQ_STAT.SCORE3 : Bits := ⟨26, 2⟩
abbrev ACQ_STAT.FAIL3 : Bits := ⟨28, 4⟩
abbrev ACQ_CLAMP.COUNT : Bits := ⟨0, 16⟩
abbrev ACQ_CMPSUB.SUB : Bits := ⟨0, 12⟩
abbrev ACQ_CMPSUB.FAIL : Bits := ⟨16, 12⟩
abbrev ACQ_SPCFG.WATCH : Bits := ⟨0, 16⟩
abbrev ACQ_SPCFG.SHTOL : Bits := ⟨16, 8⟩
abbrev ACQ_GRPg_CFG.SMP : Bits := ⟨0, 6⟩
abbrev ACQ_GRPg_CFG.LEN0 : Bits := ⟨8, 4⟩
abbrev ACQ_GRPg_CFG.LEN1 : Bits := ⟨12, 4⟩
abbrev ACQ_GRPg_CFG.LEN2 : Bits := ⟨16, 4⟩
abbrev ACQ_GRPg_CFG.UNITS : Bits := ⟨24, 5⟩
abbrev ACQ_GRPg_DIAG.TDAC : Bits := ⟨0, 12⟩
abbrev ACQ_GRPg_DIAG.TOL : Bits := ⟨16, 8⟩
abbrev ACQ_GRPg_DIAG.DIAGN : Bits := ⟨24, 4⟩
abbrev ACQ_GRPg_SUMCFG.EN : Bits := ⟨0, 1⟩
abbrev ACQ_GRPg_SUMCFG.IN0 : Bits := ⟨4, 4⟩
abbrev ACQ_GRPg_SUMCFG.IN1 : Bits := ⟨8, 4⟩
abbrev ACQ_GRPg_SUMCFG.IN2 : Bits := ⟨12, 4⟩
abbrev ACQ_GRPg_SUMCFG.N : Bits := ⟨16, 8⟩
abbrev ACQ_GRPg_SUMTOL.V : Bits := ⟨0, 32⟩
abbrev ACQ_GRPg_URGCFG.SRC : Bits := ⟨0, 3⟩
abbrev ACQ_GRPg_URGCFG.INPUT : Bits := ⟨4, 4⟩
abbrev ACQ_GRPg_URGCFG.CMP : Bits := ⟨8, 2⟩
abbrev ACQ_GRPg_URGCFG.TB : Bits := ⟨12, 2⟩
abbrev ACQ_GRPg_URGCFG.SMP : Bits := ⟨16, 6⟩
abbrev ACQ_GRPg_URGCNT.CNT : Bits := ⟨0, 22⟩
abbrev ACQ_GRPg_URGGO.GO : Bits := ⟨0, 1⟩
abbrev ACQ_GRPg_URGRES.CODE : Bits := ⟨0, 14⟩
abbrev ACQ_GRPg_URGRES.SRC : Bits := ⟨16, 3⟩
abbrev ACQ_GRPg_URGRES.SEQ : Bits := ⟨24, 8⟩
abbrev ACQ_GRPg_URGVAL.V : Bits := ⟨0, 32⟩
abbrev ACQ_GRPg_URGTICK.TICK : Bits := ⟨0, 32⟩
abbrev ACQ_GRPg_URGOFS.OFS : Bits := ⟨0, 18⟩
abbrev ACQ_GRPg_URGSTAT.DROP : Bits := ⟨0, 16⟩
abbrev ACQ_GRPg_URGSTAT.DONE : Bits := ⟨16, 16⟩
abbrev ACQ_GRPg_DIAGCNT.C0 : Bits := ⟨0, 8⟩
abbrev ACQ_GRPg_DIAGCNT.C1 : Bits := ⟨8, 8⟩
abbrev ACQ_GRPg_DIAGCNT.C2 : Bits := ⟨16, 8⟩
abbrev ACQ_GRPg_DIAGCNT.SP : Bits := ⟨24, 8⟩
abbrev ACQ_SEQa_e.INPUT : Bits := ⟨0, 4⟩
abbrev ACQ_INk_GAIN.V : Bits := ⟨0, 32⟩
abbrev ACQ_INk_OFF.V : Bits := ⟨0, 32⟩
abbrev ACQ_INk_CFG.MINCNT : Bits := ⟨0, 16⟩
abbrev ACQ_INk_CFG.SATCHK : Bits := ⟨16, 1⟩
abbrev ACQ_INk_LAST.CODE : Bits := ⟨0, 14⟩
abbrev ACQ_Ea_e_RES.CODE : Bits := ⟨0, 14⟩
abbrev ACQ_Ea_e_RES.NCONV : Bits := ⟨16, 16⟩
abbrev ACQ_Ea_e_WSUM.SUM : Bits := ⟨0, 32⟩
abbrev ACQ_Ea_e_WCNT.COUNT : Bits := ⟨0, 16⟩
abbrev ACQ_Ea_e_WCNT.SAT : Bits := ⟨16, 1⟩
abbrev ACQ_Ea_e_WCNT.LOST : Bits := ⟨17, 1⟩
abbrev ACQ_Ea_e_WCNT.FULL : Bits := ⟨18, 1⟩
abbrev ACQ_Ea_e_WMM.MIN : Bits := ⟨0, 14⟩
abbrev ACQ_Ea_e_WMM.MAX : Bits := ⟨16, 14⟩
abbrev ACQ_DSc_CFG.MODE : Bits := ⟨0, 2⟩
abbrev ACQ_DSc_CFG.CLK : Bits := ⟨4, 2⟩
abbrev ACQ_DSc_CFG.EDGE : Bits := ⟨6, 1⟩
abbrev ACQ_DSc_CFG.DLY : Bits := ⟨8, 5⟩
abbrev ACQ_DSc_CFG.OSR : Bits := ⟨16, 9⟩
abbrev ACQ_DSc_CFG.LIMEN : Bits := ⟨25, 1⟩
abbrev ACQ_DSc_CFG.UNITS : Bits := ⟨26, 5⟩
abbrev ACQ_DSc_GAIN.V : Bits := ⟨0, 32⟩
abbrev ACQ_DSc_OFF.V : Bits := ⟨0, 32⟩
abbrev ACQ_DSc_LIMHI.V : Bits := ⟨0, 32⟩
abbrev ACQ_DSc_LIMLO.V : Bits := ⟨0, 32⟩
abbrev ACQ_DSc_WIN.ONES : Bits := ⟨0, 16⟩
abbrev ACQ_DSc_WIN.BITS : Bits := ⟨16, 16⟩
abbrev ACQ_DSc_STAT.MERR : Bits := ⟨0, 16⟩
abbrev ACQ_DSc_STAT.VALID : Bits := ⟨16, 1⟩
abbrev ACQ_DSc_SINC.V : Bits := ⟨0, 32⟩
abbrev ACQ_SDCLKn_CFG.DIV : Bits := ⟨0, 8⟩
abbrev ACQ_SDCLKn_CFG.EN : Bits := ⟨8, 1⟩
/-! Fields of the POS block -/
abbrev POS_CFG.PAIRED : Bits := ⟨0, 1⟩
abbrev POS_CFG.NDIS : Bits := ⟨8, 8⟩
abbrev POS_CFG.READMIT_T : Bits := ⟨16, 8⟩
abbrev POS_AGREE.AGREE : Bits := ⟨0, 32⟩
abbrev POS_DIRHYS.V : Bits := ⟨0, 32⟩
abbrev POS_CLAMP.COUNT : Bits := ⟨0, 16⟩
abbrev POS_SENSVn_CFG.EN : Bits := ⟨0, 1⟩
abbrev POS_SENSVn_CFG.FAULT : Bits := ⟨8, 1⟩
abbrev POS_CHc_CFG.MODE : Bits := ⟨0, 3⟩
abbrev POS_CHc_CFG.EMUL : Bits := ⟨8, 6⟩
abbrev POS_CHc_CFG.DIRINV : Bits := ⟨16, 1⟩
abbrev POS_CHc_CFG.ZREQ : Bits := ⟨17, 1⟩
abbrev POS_CHc_CFG.SUPPLY : Bits := ⟨18, 2⟩
abbrev POS_CHc_OFFSET.OFFSET : Bits := ⟨0, 32⟩
abbrev POS_CHc_OBS.BW : Bits := ⟨0, 11⟩
abbrev POS_CHc_OBS.CTIME : Bits := ⟨16, 8⟩
abbrev POS_CHc_OBS.RSLEW : Bits := ⟨24, 8⟩
abbrev POS_CHc_FILT.MINEI : Bits := ⟨0, 10⟩
abbrev POS_CHc_FILT.RATEMAX : Bits := ⟨16, 16⟩
abbrev POS_CHc_ABZ.LINES : Bits := ⟨0, 16⟩
abbrev POS_CHc_ABZ.ZTOL : Bits := ⟨16, 4⟩
abbrev POS_CHc_ABZ.ZERRN : Bits := ⟨24, 4⟩
abbrev POS_CHc_RES.FEXC : Bits := ⟨0, 5⟩
abbrev POS_CHc_RES.EXCAMP : Bits := ⟨8, 6⟩
abbrev POS_CHc_RES.EXCPH : Bits := ⟨16, 8⟩
abbrev POS_CHc_RES.AMIN : Bits := ⟨24, 4⟩
abbrev POS_CHc_RES.AMAX : Bits := ⟨28, 4⟩
abbrev POS_CHc_SENT.TICK : Bits := ⟨0, 12⟩
abbrev POS_CHc_SENT.ANGNIB : Bits := ⟨12, 3⟩
abbrev POS_CHc_SENT.ANGW : Bits := ⟨16, 2⟩
abbrev POS_CHc_SENT.CRCLEG : Bits := ⟨20, 1⟩
abbrev POS_CHc_SENT.PAUSE : Bits := ⟨21, 1⟩
abbrev POS_CHc_SENT.CMPL : Bits := ⟨22, 1⟩
abbrev POS_CHc_SENT.FTMO : Bits := ⟨24, 8⟩
abbrev POS_CHc_SSI.CLK : Bits := ⟨0, 10⟩
abbrev POS_CHc_SSI.LEN : Bits := ⟨10, 6⟩
abbrev POS_CHc_SSI.ANGPOS : Bits := ⟨16, 5⟩
abbrev POS_CHc_SSI.ANGW : Bits := ⟨21, 6⟩
abbrev POS_CHc_SSI.GRAY : Bits := ⟨27, 1⟩
abbrev POS_CHc_SSI.ERREN : Bits := ⟨28, 1⟩
abbrev POS_CHc_SSI.TRIG : Bits := ⟨29, 1⟩
abbrev POS_CHc_SSI2.OFS : Bits := ⟨0, 16⟩
abbrev POS_CHc_SSI2.LAT : Bits := ⟨16, 8⟩
abbrev POS_CHc_SSI2.TM : Bits := ⟨24, 8⟩
abbrev POS_CHc_CNT.CNT : Bits := ⟨0, 24⟩
abbrev POS_CHc_CNT.WRAP : Bits := ⟨24, 1⟩
abbrev POS_CHc_CNT.WDIR : Bits := ⟨25, 1⟩
abbrev POS_CHc_STAT.STATE : Bits := ⟨0, 3⟩
abbrev POS_CHc_STAT.CAUSE : Bits := ⟨8, 4⟩
abbrev POS_CHc_STAT.IDXSEEN : Bits := ⟨12, 1⟩
abbrev POS_CHc_STAT.OUTV : Bits := ⟨13, 1⟩
abbrev POS_CHc_STAT.EXCLIM : Bits := ⟨14, 1⟩
abbrev POS_CHc_ERR.DSTEP : Bits := ⟨0, 8⟩
abbrev POS_CHc_ERR.GLITCH : Bits := ⟨8, 8⟩
abbrev POS_CHc_ERR.IDXERR : Bits := ⟨16, 8⟩
abbrev POS_CHc_ERR.CRCERR : Bits := ⟨24, 8⟩
abbrev POS_CHc_ZCNT.ZCNT : Bits := ⟨0, 24⟩
abbrev POS_CHc_ZCNT.STALE : Bits := ⟨24, 8⟩
abbrev POS_CHc_SLOW.ID : Bits := ⟨0, 8⟩
abbrev POS_CHc_SLOW.DATA : Bits := ⟨8, 16⟩
abbrev POS_CHc_SLOW.NEW : Bits := ⟨24, 1⟩
/-! Fields of the FLD block -/
abbrev FLD_CFG.GUARD : Bits := ⟨0, 16⟩
abbrev FLD_CLAMP.COUNT : Bits := ⟨0, 16⟩
abbrev FLD_MCm_CFG.ANGSRC : Bits := ⟨0, 1⟩
abbrev FLD_MCm_CFG.ESTEN : Bits := ⟨8, 1⟩
abbrev FLD_MCm_CFG.WRSM : Bits := ⟨9, 1⟩
abbrev FLD_MCm_CFG.HFIEN : Bits := ⟨10, 1⟩
abbrev FLD_MCm_CFG.AUTOCATCH : Bits := ⟨11, 1⟩
abbrev FLD_MCm_CFG.PADV : Bits := ⟨16, 5⟩
abbrev FLD_MCm_START.FSWATCH : Bits := ⟨0, 5⟩
abbrev FLD_MCm_START.RETRIES : Bits := ⟨8, 4⟩
abbrev FLD_MCm_START.BACKANG : Bits := ⟨16, 8⟩
abbrev FLD_MCm_START.POLRET : Bits := ⟨24, 4⟩
abbrev FLD_MCm_START.IFEN : Bits := ⟨28, 1⟩
abbrev FLD_MCm_HO.HOLIM : Bits := ⟨0, 16⟩
abbrev FLD_MCm_HO.HOTMO : Bits := ⟨16, 8⟩
abbrev FLD_MCm_HO.NLOST : Bits := ⟨24, 8⟩
abbrev FLD_MCm_BW.BWE : Bits := ⟨0, 10⟩
abbrev FLD_MCm_BW.BWH : Bits := ⟨16, 10⟩
abbrev FLD_MCm_BW.RCRST : Bits := ⟨26, 6⟩
abbrev FLD_MCm_INP.IA : Bits := ⟨0, 6⟩
abbrev FLD_MCm_INP.IB : Bits := ⟨8, 6⟩
abbrev FLD_MCm_INP.IC : Bits := ⟨16, 6⟩
abbrev FLD_MCm_INP.FIN : Bits := ⟨24, 6⟩
abbrev FLD_MCm_VIN.VA : Bits := ⟨0, 6⟩
abbrev FLD_MCm_VIN.VB : Bits := ⟨8, 6⟩
abbrev FLD_MCm_VIN.VC : Bits := ⟨16, 6⟩
abbrev FLD_MCm_DIR.DIRREQ : Bits := ⟨0, 2⟩
abbrev FLD_MCm_STAT.MODE : Bits := ⟨0, 3⟩
abbrev FLD_MCm_STAT.SRC : Bits := ⟨4, 3⟩
abbrev FLD_MCm_STAT.START : Bits := ⟨8, 4⟩
abbrev FLD_MCm_STAT.ATTEMPT : Bits := ⟨12, 2⟩
abbrev FLD_MCm_STAT.LOST : Bits := ⟨16, 1⟩
abbrev FLD_MCm_STAT.SIXSTEP : Bits := ⟨17, 1⟩
abbrev FLD_MCm_STAT.SECTOR : Bits := ⟨20, 3⟩
abbrev FLD_MCm_STAT.DEFER : Bits := ⟨24, 1⟩
abbrev FLD_MCm_STAT.RETRY : Bits := ⟨28, 4⟩
abbrev FLD_MCm_RS.V : Bits := ⟨0, 32⟩
abbrev FLD_MCm_LD.V : Bits := ⟨0, 32⟩
abbrev FLD_MCm_LQ.V : Bits := ⟨0, 32⟩
abbrev FLD_MCm_VHFI.V : Bits := ⟨0, 32⟩
abbrev FLD_MCm_WCATCH.V : Bits := ⟨0, 32⟩
abbrev FLD_MCm_WB1.V : Bits := ⟨0, 32⟩
abbrev FLD_MCm_WB2.V : Bits := ⟨0, 32⟩
abbrev FLD_MCm_EMIN.V : Bits := ⟨0, 32⟩
abbrev FLD_MCm_RESLIM.V : Bits := ⟨0, 32⟩
abbrev FLD_MCm_POLV.V : Bits := ⟨0, 32⟩
abbrev FLD_MCm_IFI.V : Bits := ⟨0, 32⟩
abbrev FLD_MCm_IFACC.V : Bits := ⟨0, 32⟩
abbrev FLD_MCm_IFW.V : Bits := ⟨0, 32⟩
abbrev FLD_MCm_IFLOSS.V : Bits := ⟨0, 32⟩
abbrev FLD_EVs_ANG.E : Bits := ⟨0, 32⟩
abbrev FLD_EVs_ACT.ACT : Bits := ⟨0, 3⟩
abbrev FLD_EVs_ACT.MACH : Bits := ⟨4, 1⟩
abbrev FLD_EVs_ACT.REP : Bits := ⟨5, 1⟩
abbrev FLD_EVs_ACT.GRP : Bits := ⟨8, 2⟩
abbrev FLD_EVs_ACT.POST : Bits := ⟨12, 1⟩
abbrev FLD_EVs_ACT.PAIRS : Bits := ⟨16, 16⟩
abbrev FLD_EVs_STAT.ARMED : Bits := ⟨0, 1⟩
abbrev FLD_EVs_STAT.LATE : Bits := ⟨1, 1⟩
abbrev FLD_EVs_STAT.FIRES : Bits := ⟨8, 16⟩
/-! Fields of the WGH block -/
abbrev WGH_CLAMP.COUNT : Bits := ⟨0, 16⟩
abbrev WGH_MCm_CFG.EN : Bits := ⟨0, 1⟩
abbrev WGH_MCm_CFG.ANGSRC : Bits := ⟨4, 2⟩
abbrev WGH_MCm_CFG.BLINDSAFE : Bits := ⟨6, 1⟩
abbrev WGH_MCm_CFG.NBAND : Bits := ⟨8, 8⟩
abbrev WGH_MCm_CFG.NSIGN : Bits := ⟨16, 4⟩
abbrev WGH_MCm_CFG.NPRI : Bits := ⟨24, 8⟩
abbrev WGH_MCm_IN.CHU : Bits := ⟨0, 4⟩
abbrev WGH_MCm_IN.CHV : Bits := ⟨4, 4⟩
abbrev WGH_MCm_IN.CHW : Bits := ⟨8, 4⟩
abbrev WGH_MCm_IN.CHU2 : Bits := ⟨12, 4⟩
abbrev WGH_MCm_IN.CHV2 : Bits := ⟨16, 4⟩
abbrev WGH_MCm_IN.CHW2 : Bits := ⟨20, 4⟩
abbrev WGH_MCm_IN.FINCH : Bits := ⟨24, 4⟩
abbrev WGH_MCm_KT.V : Bits := ⟨0, 32⟩
abbrev WGH_MCm_MF.V : Bits := ⟨0, 32⟩
abbrev WGH_MCm_WSPDk.V : Bits := ⟨0, 32⟩
abbrev WGH_MCm_BANDk.V : Bits := ⟨0, 32⟩
abbrev WGH_MCm_BANDP.V : Bits := ⟨0, 32⟩
abbrev WGH_MCm_SIGNMIN.V : Bits := ⟨0, 32⟩
abbrev WGH_MCm_TAU.V : Bits := ⟨0, 32⟩
abbrev WGH_MCm_TSTART.V : Bits := ⟨0, 32⟩
abbrev WGH_MCm_STAT.STATE : Bits := ⟨0, 2⟩
abbrev WGH_MCm_STAT.BANDC : Bits := ⟨8, 8⟩
abbrev WGH_MCm_STAT.PRIC : Bits := ⟨16, 8⟩
abbrev WGH_MCm_STAT.PDIS : Bits := ⟨24, 1⟩
abbrev WGH_MCm_CNT.TORQUE : Bits := ⟨0, 8⟩
abbrev WGH_MCm_CNT.BLIND : Bits := ⟨8, 8⟩
abbrev WGH_MCm_CNT.PRIM : Bits := ⟨16, 8⟩
abbrev WGH_MAPm_Di.W : Bits := ⟨0, 32⟩
abbrev WGH_MAPDATA.W : Bits := ⟨0, 32⟩
/-! Fields of the ISK block -/
abbrev ISK_CLAMP.COUNT : Bits := ⟨0, 16⟩
abbrev ISK_STRDEFj.P : Bits := ⟨0, 32⟩
abbrev ISK_LINKl_CFG.EN : Bits := ⟨0, 1⟩
abbrev ISK_LINKl_CFG.PROTO : Bits := ⟨1, 1⟩
abbrev ISK_LINKl_CFG.NODES : Bits := ⟨4, 5⟩
abbrev ISK_LINKl_CFG.HBTMO : Bits := ⟨16, 7⟩
abbrev ISK_LINKl_CFG.SLOTN : Bits := ⟨24, 4⟩
abbrev ISK_LINKl_CFG.LOSTN : Bits := ⟨28, 4⟩
abbrev ISK_LINKl_STAT.STATE : Bits := ⟨0, 2⟩
abbrev ISK_LINKl_STAT.NFOUND : Bits := ⟨4, 5⟩
abbrev ISK_LINKl_STAT.SEQ : Bits := ⟨16, 8⟩
abbrev ISK_LINKl_STAT.FNODE : Bits := ⟨24, 8⟩
abbrev ISK_LINKl_CNT.FMISS : Bits := ⟨0, 8⟩
abbrev ISK_LINKl_CNT.SLOTERR : Bits := ⟨8, 8⟩
abbrev ISK_LINKl_CNT.PLANERR : Bits := ⟨16, 8⟩
abbrev ISK_LINKl_CNT.SLIM : Bits := ⟨24, 8⟩
abbrev ISK_LINKl_MAPj.N0 : Bits := ⟨0, 5⟩
abbrev ISK_LINKl_MAPj.N1 : Bits := ⟨8, 5⟩
abbrev ISK_LINKl_MAPj.N2 : Bits := ⟨16, 5⟩
abbrev ISK_LINKl_MAPj.N3 : Bits := ⟨24, 5⟩
abbrev ISK_NODEl_n.S0 : Bits := ⟨0, 8⟩
abbrev ISK_NODEl_n.S1 : Bits := ⟨8, 8⟩
abbrev ISK_NODEl_n.S2 : Bits := ⟨16, 8⟩
abbrev ISK_NODEl_n.AGE : Bits := ⟨24, 8⟩
/-! Fields of the THM block -/
abbrev THM_CFG.EN : Bits := ⟨0, 1⟩
abbrev THM_CFG.CHIPANCH : Bits := ⟨8, 4⟩
abbrev THM_STAT.DIV : Bits := ⟨0, 2⟩
abbrev THM_STAT.HDIV : Bits := ⟨2, 2⟩
abbrev THM_STAT.SKIP : Bits := ⟨4, 1⟩
abbrev THM_STAT.CHIP : Bits := ⟨8, 2⟩
abbrev THM_STAT.U0 : Bits := ⟨16, 2⟩
abbrev THM_STAT.U1 : Bits := ⟨18, 2⟩
abbrev THM_STAT.U2 : Bits := ⟨20, 2⟩
abbrev THM_STAT.U3 : Bits := ⟨22, 2⟩
abbrev THM_STAT.U4 : Bits := ⟨24, 2⟩
abbrev THM_CLAMP.COUNT : Bits := ⟨0, 16⟩
abbrev THM_CNT.TRANS : Bits := ⟨0, 16⟩
abbrev THM_CNT.ANCH : Bits := ⟨16, 8⟩
abbrev THM_CNT.INPUT : Bits := ⟨24, 8⟩
abbrev THM_CHIP_LVL.WARN : Bits := ⟨0, 8⟩
abbrev THM_CHIP_LVL.THR : Bits := ⟨8, 8⟩
abbrev THM_CHIP_LVL.SHUT : Bits := ⟨16, 8⟩
abbrev THM_CHIP_ACT.HYS : Bits := ⟨0, 4⟩
abbrev THM_CHIP_ACT.DWELL : Bits := ⟨8, 8⟩
abbrev THM_CHIP_ACT.HDIV : Bits := ⟨16, 2⟩
abbrev THM_CHIP_ACT.SKIP : Bits := ⟨18, 1⟩
abbrev THM_CHIP_ACT.CDIV : Bits := ⟨20, 2⟩
abbrev THM_CHIP_ACT.CDER : Bits := ⟨24, 8⟩
abbrev THM_CHIP_P.V : Bits := ⟨0, 32⟩
abbrev THM_CHIP_T.V : Bits := ⟨0, 32⟩
abbrev THM_CHIP_Rn.V : Bits := ⟨0, 32⟩
abbrev THM_CHIP_TAUn.V : Bits := ⟨0, 32⟩
abbrev THM_LEGk_CFG.IIN : Bits := ⟨0, 6⟩
abbrev THM_LEGk_CFG.VIN : Bits := ⟨8, 6⟩
abbrev THM_LEGk_CFG.INV : Bits := ⟨14, 1⟩
abbrev THM_LEGk_CFG.PS : Bits := ⟨16, 1⟩
abbrev THM_LEGk_CFG.LSRC : Bits := ⟨18, 2⟩
abbrev THM_LEGk_CFG.BANCH : Bits := ⟨20, 4⟩
abbrev THM_LEGk_CFG.CANCH : Bits := ⟨24, 4⟩
abbrev THM_LEGk_TSW.V : Bits := ⟨0, 32⟩
abbrev THM_LEGk_TDI.V : Bits := ⟨0, 32⟩
abbrev THM_LEGk_PSW.V : Bits := ⟨0, 32⟩
abbrev THM_LEGk_PDI.V : Bits := ⟨0, 32⟩
abbrev THM_ANCHa_CFG.IN : Bits := ⟨0, 6⟩
abbrev THM_ANCHa_CFG.LIN : Bits := ⟨8, 2⟩
abbrev THM_ANCHa_T.V : Bits := ⟨0, 32⟩
abbrev THM_PSs_w.W : Bits := ⟨0, 32⟩
abbrev THM_LINt_p.V : Bits := ⟨0, 32⟩
/-! Fields of the CAN block -/
abbrev CAN_CTRL.INIT : Bits := ⟨0, 1⟩
abbrev CAN_CTRL.MODE : Bits := ⟨1, 2⟩
abbrev CAN_CTRL.AUTODET : Bits := ⟨3, 1⟩
abbrev CAN_CTRL.AUTOREC : Bits := ⟨4, 1⟩
abbrev CAN_CTRL.TXRESUME : Bits := ⟨8, 1⟩
abbrev CAN_CTRL.TXFLUSH : Bits := ⟨9, 1⟩
abbrev CAN_STAT.RUN : Bits := ⟨0, 1⟩
abbrev CAN_STAT.DET : Bits := ⟨1, 1⟩
abbrev CAN_STAT.CAND : Bits := ⟨4, 3⟩
abbrev CAN_STAT.SPARE : Bits := ⟨8, 1⟩
abbrev CAN_CLAMP.COUNT : Bits := ⟨0, 16⟩
abbrev CAN_NBT.NBRP : Bits := ⟨0, 9⟩
abbrev CAN_NBT.NTSEG1 : Bits := ⟨9, 8⟩
abbrev CAN_NBT.NTSEG2 : Bits := ⟨17, 7⟩
abbrev CAN_NBT.NSJW : Bits := ⟨24, 7⟩
abbrev CAN_DBT.DBRP : Bits := ⟨0, 5⟩
abbrev CAN_DBT.DTSEG1 : Bits := ⟨5, 6⟩
abbrev CAN_DBT.DTSEG2 : Bits := ⟨11, 5⟩
abbrev CAN_DBT.DSJW : Bits := ⟨16, 5⟩
abbrev CAN_TDC.EN : Bits := ⟨0, 1⟩
abbrev CAN_TDC.TDCO : Bits := ⟨8, 7⟩
abbrev CAN_TDC.TDCF : Bits := ⟨16, 7⟩
abbrev CAN_XL.EN : Bits := ⟨0, 1⟩
abbrev CAN_XL.TMS : Bits := ⟨1, 1⟩
abbrev CAN_XL.PWMS : Bits := ⟨8, 6⟩
abbrev CAN_XL.PWML : Bits := ⟨16, 6⟩
abbrev CAN_XL.PWMO : Bits := ⟨24, 6⟩
abbrev CAN_ERR.TEC : Bits := ⟨0, 8⟩
abbrev CAN_ERR.REC : Bits := ⟨8, 8⟩
abbrev CAN_ERR.STATE : Bits := ⟨16, 2⟩
abbrev CAN_ERR.LEC : Bits := ⟨20, 3⟩
abbrev CAN_CNT.BUSOFF : Bits := ⟨0, 8⟩
abbrev CAN_CNT.RXDROP : Bits := ⟨8, 8⟩
abbrev CAN_CNT.TTMISS : Bits := ⟨16, 8⟩
abbrev CAN_CNT.TXEXP : Bits := ⟨24, 8⟩
abbrev CAN_CNT2.TXCLAMP : Bits := ⟨0, 16⟩
abbrev CAN_CNT2.TDCERR : Bits := ⟨16, 8⟩
abbrev CAN_CNT2.TDCV : Bits := ⟨24, 7⟩
abbrev CAN_TXBASE.OFFSET : Bits := ⟨5, 17⟩
abbrev CAN_TXCFG.SIZE : Bits := ⟨0, 13⟩
abbrev CAN_TXCFG.EN : Bits := ⟨13, 1⟩
abbrev CAN_TXCFG.ORDER : Bits := ⟨16, 1⟩
abbrev CAN_TXCFG.LATEWIN : Bits := ⟨20, 12⟩
abbrev CAN_TXIDX.IDX : Bits := ⟨0, 12⟩
abbrev CAN_TXIDX.EPOCH : Bits := ⟨16, 8⟩
abbrev CAN_TXIDX.HALT : Bits := ⟨24, 1⟩
abbrev CAN_RXBASE.OFFSET : Bits := ⟨5, 17⟩
abbrev CAN_RXCFG.SIZE : Bits := ⟨0, 13⟩
abbrev CAN_RXCFG.EN : Bits := ⟨13, 1⟩
abbrev CAN_RXCFG.NOMATCH : Bits := ⟨16, 1⟩
abbrev CAN_RXIDX.IDX : Bits := ⟨0, 12⟩
abbrev CAN_RXIDX.EPOCH : Bits := ⟨16, 8⟩
abbrev CAN_BUF.XLSZ : Bits := ⟨0, 1⟩
abbrev CAN_BUF.TXBUF : Bits := ⟨6, 16⟩
abbrev CAN_RXBUF.RXBUF : Bits := ⟨6, 16⟩
abbrev CAN_AD.NCAND : Bits := ⟨0, 3⟩
abbrev CAN_AD.DWELL : Bits := ⟨8, 8⟩
abbrev CAN_ADCANDi_N.NBRP : Bits := ⟨0, 9⟩
abbrev CAN_ADCANDi_N.NTSEG1 : Bits := ⟨9, 8⟩
abbrev CAN_ADCANDi_N.NTSEG2 : Bits := ⟨17, 7⟩
abbrev CAN_ADCANDi_N.NSJW : Bits := ⟨24, 7⟩
abbrev CAN_ADCANDi_D.DBRP : Bits := ⟨0, 5⟩
abbrev CAN_ADCANDi_D.DTSEG1 : Bits := ⟨5, 6⟩
abbrev CAN_ADCANDi_D.DTSEG2 : Bits := ⟨11, 5⟩
abbrev CAN_ADCANDi_D.DSJW : Bits := ⟨16, 5⟩
abbrev CAN_TT.EN : Bits := ⟨0, 1⟩
abbrev CAN_TT.NCYCL : Bits := ⟨8, 3⟩
abbrev CAN_TTCYC.CYCLEN : Bits := ⟨0, 16⟩
abbrev CAN_TTCYC.TXWIN : Bits := ⟨16, 8⟩
abbrev CAN_TTCYC.GUARD : Bits := ⟨24, 8⟩
abbrev CAN_TTSTAT.CYCLE : Bits := ⟨0, 6⟩
abbrev CAN_TTSTAT.BASE : Bits := ⟨8, 1⟩
abbrev CAN_TTCOLj.OFS : Bits := ⟨0, 16⟩
abbrev CAN_TTOBJo_T0.ID : Bits := ⟨0, 29⟩
abbrev CAN_TTOBJo_T0.IDE : Bits := ⟨29, 1⟩
abbrev CAN_TTOBJo_T0.RTR : Bits := ⟨30, 1⟩
abbrev CAN_TTOBJo_T1.FMT : Bits := ⟨0, 2⟩
abbrev CAN_TTOBJo_T1.BRS : Bits := ⟨2, 1⟩
abbrev CAN_TTOBJo_T1.SDT : Bits := ⟨8, 8⟩
abbrev CAN_TTOBJo_T1.LEN : Bits := ⟨16, 12⟩
abbrev CAN_TTOBJo_T1.TXC : Bits := ⟨28, 1⟩
abbrev CAN_TTOBJo_T1.LAUNCH : Bits := ⟨29, 1⟩
abbrev CAN_TTOBJo_T2.AF : Bits := ⟨0, 32⟩
abbrev CAN_TTOBJo_T3.VCID : Bits := ⟨0, 8⟩
abbrev CAN_TTOBJo_T3.SEC : Bits := ⟨8, 1⟩
abbrev CAN_TTOBJo_Dd.W : Bits := ⟨0, 32⟩
abbrev CAN_TTMy_j.OBJ : Bits := ⟨0, 5⟩
abbrev CAN_TTMy_j.ACT : Bits := ⟨8, 2⟩
abbrev CAN_FLTf_F0.TYPE : Bits := ⟨0, 2⟩
abbrev CAN_FLTf_F0.MODE : Bits := ⟨4, 2⟩
abbrev CAN_FLTf_F0.ACT : Bits := ⟨8, 2⟩
abbrev CAN_FLTf_F0.FMTS : Bits := ⟨12, 3⟩
abbrev CAN_FLTf_F1.ID1 : Bits := ⟨0, 29⟩
abbrev CAN_FLTf_F2.ID2 : Bits := ⟨0, 29⟩
abbrev CAN_FLTf_F3.VCID : Bits := ⟨0, 8⟩
abbrev CAN_FLTf_F3.VCIDM : Bits := ⟨8, 8⟩
abbrev CAN_FLTf_F3.VCIDEN : Bits := ⟨16, 1⟩
abbrev CAN_SPSTAT.SERVE : Bits := ⟨0, 3⟩
abbrev CAN_SPSTAT.EXH : Bits := ⟨8, 1⟩
abbrev CAN_SPCFG.WATCH : Bits := ⟨0, 16⟩
/-! Fields of the ETH block -/
abbrev ETH_CLAMP.COUNT : Bits := ⟨0, 16⟩
abbrev ETH_VT_CTRL.VALID : Bits := ⟨0, 1⟩
abbrev ETH_VT_CTRL.SET : Bits := ⟨1, 1⟩
abbrev ETH_VT_CTRL.VTTMO : Bits := ⟨8, 8⟩
abbrev ETH_VT_RATE.RATE : Bits := ⟨0, 32⟩
abbrev ETH_VT_STEP.STEP : Bits := ⟨0, 32⟩
abbrev ETH_VT_SETSEC_LO.SEC : Bits := ⟨0, 32⟩
abbrev ETH_VT_SETSEC_HI.SEC : Bits := ⟨0, 16⟩
abbrev ETH_VT_SETNS.NS : Bits := ⟨0, 30⟩
abbrev ETH_TVT_TICK.V : Bits := ⟨0, 32⟩
abbrev ETH_TVT_SEC.V : Bits := ⟨0, 32⟩
abbrev ETH_TVT_NS.V : Bits := ⟨0, 32⟩
abbrev ETH_MDIO.DATA : Bits := ⟨0, 16⟩
abbrev ETH_MDIO.REG : Bits := ⟨16, 5⟩
abbrev ETH_MDIO.PHYAD : Bits := ⟨21, 5⟩
abbrev ETH_MDIO.OP : Bits := ⟨26, 2⟩
abbrev ETH_MDIO.C45 : Bits := ⟨28, 1⟩
abbrev ETH_MDIO.BUSY : Bits := ⟨31, 1⟩
abbrev ETH_Pp_CFG.SPEED : Bits := ⟨0, 2⟩
abbrev ETH_Pp_CFG.MDCDIV : Bits := ⟨2, 6⟩
abbrev ETH_Pp_CFG.NOMATCH : Bits := ⟨8, 1⟩
abbrev ETH_Pp_CFG.WAKEEN : Bits := ⟨9, 1⟩
abbrev ETH_Pp_CFG.PLCA_EN : Bits := ⟨10, 1⟩
abbrev ETH_Pp_CFG.PLCA_ID : Bits := ⟨16, 8⟩
abbrev ETH_Pp_CFG.PLCA_CNT : Bits := ⟨24, 8⟩
abbrev ETH_Pp_STAT.LINK : Bits := ⟨0, 1⟩
abbrev ETH_Pp_STAT.SPD : Bits := ⟨1, 2⟩
abbrev ETH_Pp_STAT.PLCA : Bits := ⟨3, 1⟩
abbrev ETH_Pp_STAT.PHYINT : Bits := ⟨4, 1⟩
abbrev ETH_Pp_TXBASE.OFFSET : Bits := ⟨5, 17⟩
abbrev ETH_Pp_RXBASE.OFFSET : Bits := ⟨5, 17⟩
abbrev ETH_Pp_RING.TXSIZE : Bits := ⟨0, 13⟩
abbrev ETH_Pp_RING.TXEN : Bits := ⟨13, 1⟩
abbrev ETH_Pp_RING.RXSIZE : Bits := ⟨16, 13⟩
abbrev ETH_Pp_RING.RXEN : Bits := ⟨29, 1⟩
abbrev ETH_Pp_BUF.TXBUF : Bits := ⟨0, 11⟩
abbrev ETH_Pp_BUF.RXBUF : Bits := ⟨16, 11⟩
abbrev ETH_Pp_TXCTL.TXRESUME : Bits := ⟨0, 1⟩
abbrev ETH_Pp_TXCTL.TXFLUSH : Bits := ⟨1, 1⟩
abbrev ETH_Pp_TXCTL.LATEWIN : Bits := ⟨16, 12⟩
abbrev ETH_Pp_IDX.TX : Bits := ⟨0, 12⟩
abbrev ETH_Pp_IDX.RX : Bits := ⟨16, 12⟩
abbrev ETH_Pp_IDX.HALT : Bits := ⟨31, 1⟩
abbrev ETH_Pp_LAT.TXLAT : Bits := ⟨0, 16⟩
abbrev ETH_Pp_LAT.RXLAT : Bits := ⟨16, 16⟩
abbrev ETH_Pp_CNT.TXCLAMP : Bits := ⟨0, 8⟩
abbrev ETH_Pp_CNT.TXEXP : Bits := ⟨8, 8⟩
abbrev ETH_Pp_CNT.RXDROP : Bits := ⟨16, 8⟩
abbrev ETH_Pp_CNT.RXERR : Bits := ⟨24, 8⟩
abbrev ETH_P1_PLCA.TO : Bits := ⟨0, 8⟩
abbrev ETH_P1_PLCA.BURST : Bits := ⟨8, 8⟩
abbrev ETH_P1_PLCA.BTMR : Bits := ⟨16, 8⟩
abbrev ETH_Pp_FLTf_A.MAC : Bits := ⟨0, 32⟩
abbrev ETH_Pp_FLTf_B.MACHI : Bits := ⟨0, 16⟩
abbrev ETH_Pp_FLTf_B.ETYPE : Bits := ⟨16, 16⟩
abbrev ETH_Pp_FLTf_C.VID : Bits := ⟨0, 12⟩
abbrev ETH_Pp_FLTf_C.ETEN : Bits := ⟨12, 1⟩
abbrev ETH_Pp_FLTf_C.VIDEN : Bits := ⟨13, 1⟩
abbrev ETH_Pp_FLTf_C.EN : Bits := ⟨15, 1⟩
abbrev ETH_Pp_FLTf_C.ACT : Bits := ⟨16, 2⟩
/-! Fields of the CHK block -/
abbrev CHK_CLAMP.COUNT : Bits := ⟨0, 16⟩
abbrev CHK_Un_CFG.ALG : Bits := ⟨0, 2⟩
abbrev CHK_Un_SEED.SEED : Bits := ⟨0, 32⟩
abbrev CHK_Un_DATA.D : Bits := ⟨0, 32⟩
abbrev CHK_Un_DATAB.D : Bits := ⟨0, 8⟩
abbrev CHK_Un_RES.RES : Bits := ⟨0, 32⟩
abbrev CHK_SCs_CFG.KIND : Bits := ⟨0, 3⟩
abbrev CHK_SCs_CFG.EN : Bits := ⟨3, 1⟩
abbrev CHK_SCs_CFG.STEP : Bits := ⟨4, 6⟩
abbrev CHK_SCs_CFG.UNITSH : Bits := ⟨10, 2⟩
abbrev CHK_SCs_CFG.PERIOD : Bits := ⟨12, 14⟩
abbrev CHK_SCs_CFG.CLASS : Bits := ⟨26, 2⟩
abbrev CHK_SCs_CFG.GO : Bits := ⟨28, 1⟩
abbrev CHK_SCs_CFG.UNITSL : Bits := ⟨29, 3⟩
abbrev CHK_SCs_BASE.BASE : Bits := ⟨2, 30⟩
abbrev CHK_SCs_LEN.LEN : Bits := ⟨0, 20⟩
abbrev CHK_SCs_SEED.SEED : Bits := ⟨0, 32⟩
abbrev CHK_SCs_EXP.EXPECT : Bits := ⟨0, 32⟩
abbrev CHK_SCs_RES.RES : Bits := ⟨0, 32⟩
abbrev CHK_SCs_STAT.RUN : Bits := ⟨0, 1⟩
abbrev CHK_SCs_STAT.PASSES : Bits := ⟨8, 8⟩
abbrev CHK_SCs_STAT.MISM : Bits := ⟨16, 8⟩
/-! Fields of the BST block -/
abbrev BST_CFG.ROTEN : Bits := ⟨0, 1⟩
abbrev BST_CFG.PERIOD : Bits := ⟨8, 8⟩
abbrev BST_CFG.OVDCLASS : Bits := ⟨16, 2⟩
abbrev BST_STAT.LCS : Bits := ⟨0, 2⟩
abbrev BST_STAT.NEXT : Bits := ⟨8, 8⟩
abbrev BST_STAT.PEND : Bits := ⟨16, 1⟩
abbrev BST_STAT.ACTIVE : Bits := ⟨24, 8⟩
abbrev BST_CLAMP.COUNT : Bits := ⟨0, 16⟩
abbrev BST_COND.CLKOK : Bits := ⟨0, 1⟩
abbrev BST_COND.VDDOK : Bits := ⟨1, 1⟩
abbrev BST_COND.TJOK : Bits := ⟨2, 1⟩
abbrev BST_CNT.TESTS : Bits := ⟨0, 16⟩
abbrev BST_CNT.FAILS : Bits := ⟨16, 8⟩
abbrev BST_CNT.ABORTS : Bits := ⟨24, 4⟩
abbrev BST_CNT.TOKFAIL : Bits := ⟨28, 4⟩
abbrev BST_REPAIR.USED : Bits := ⟨0, 10⟩
abbrev BST_REPAIR.FULL : Bits := ⟨10, 6⟩
abbrev BST_NONCEi.NONCE : Bits := ⟨0, 32⟩
abbrev BST_LCCNT.COUNT : Bits := ⟨0, 32⟩
abbrev BST_UID_LO.UID : Bits := ⟨0, 32⟩
abbrev BST_UID_HI.UID : Bits := ⟨0, 32⟩
abbrev BST_KEYHASHi.HASH : Bits := ⟨0, 32⟩
abbrev BST_Uu.STATE : Bits := ⟨0, 3⟩
abbrev BST_Uu.FD : Bits := ⟨4, 2⟩
abbrev BST_Uu.LAST : Bits := ⟨16, 16⟩
/-! Fields of the HLD block -/
abbrev HLD_CFG.RECHK : Bits := ⟨0, 8⟩
abbrev HLD_CFG.EXPEN : Bits := ⟨8, 1⟩
abbrev HLD_STAT.STATE : Bits := ⟨0, 3⟩
abbrev HLD_STAT.REASON : Bits := ⟨4, 2⟩
abbrev HLD_STAT.EXPORT : Bits := ⟨8, 1⟩
abbrev HLD_CLAMP.COUNT : Bits := ⟨0, 16⟩
abbrev HLD_VHOLD.V : Bits := ⟨0, 32⟩
abbrev HLD_CAP.V : Bits := ⟨0, 32⟩
abbrev HLD_ESR.V : Bits := ⟨0, 32⟩
abbrev HLD_ENERGY.V : Bits := ⟨0, 32⟩
abbrev HLD_CMIN.V : Bits := ⟨0, 32⟩
abbrev HLD_ESRMAX.V : Bits := ⟨0, 32⟩
abbrev HLD_HEAD.UNIT : Bits := ⟨0, 14⟩
abbrev HLD_SECSEQ.SEQ : Bits := ⟨0, 32⟩
abbrev HLD_DURABLE.PSN : Bits := ⟨0, 32⟩
abbrev HLD_CNT.OVERFLOW : Bits := ⟨0, 16⟩
abbrev HLD_CNT.CHECKS : Bits := ⟨16, 8⟩
abbrev HLD_CNT.FAILS : Bits := ⟨24, 8⟩
abbrev HLD_RCNT.COUNT : Bits := ⟨0, 32⟩
/-! Fields of the PWR block -/
abbrev PWR_STATE.STATE : Bits := ⟨0, 2⟩
abbrev PWR_STATE.SRC : Bits := ⟨8, 4⟩
abbrev PWR_CLAMP.COUNT : Bits := ⟨0, 16⟩
abbrev PWR_WAKECFG.EN : Bits := ⟨0, 4⟩
abbrev PWR_WAKECFG.EDGE0 : Bits := ⟨8, 2⟩
abbrev PWR_WAKECFG.EDGE1 : Bits := ⟨10, 2⟩
abbrev PWR_WAKECFG.EDGE2 : Bits := ⟨12, 2⟩
abbrev PWR_WAKECFG.EDGE3 : Bits := ⟨14, 2⟩
abbrev PWR_WAKECFG.RTCEN : Bits := ⟨16, 1⟩
abbrev PWR_WAKECFG.WFILT : Bits := ⟨24, 8⟩
abbrev PWR_RTCALM_LO.V : Bits := ⟨0, 32⟩
abbrev PWR_RTCALM_HI.V : Bits := ⟨0, 16⟩
abbrev PWR_WAKESTAT.S : Bits := ⟨0, 7⟩
abbrev PWR_PARKTIME.MS : Bits := ⟨0, 32⟩
/-! Fields of the HIC block -/
abbrev HIC_CLAMP.COUNT : Bits := ⟨0, 16⟩
abbrev HIC_C1_ENTRY.ENTRY : Bits := ⟨1, 31⟩
abbrev HIC_C1_CTRL.START : Bits := ⟨0, 1⟩
abbrev HIC_C1_CTRL.RUN : Bits := ⟨8, 1⟩
abbrev HIC_CACHEc.DINV : Bits := ⟨0, 1⟩
abbrev HIC_CACHEc.IINV : Bits := ⟨1, 1⟩
abbrev HIC_TICKDIV.DIV : Bits := ⟨0, 16⟩
abbrev HIC_ECC.CE : Bits := ⟨0, 16⟩
abbrev HIC_ECC.DE : Bits := ⟨16, 8⟩
abbrev HIC_ECCADR.ADR : Bits := ⟨2, 20⟩
abbrev HIC_PRIOs.PRIO : Bits := ⟨0, 3⟩
abbrev HIC_PENDING.P : Bits := ⟨0, 32⟩
abbrev HIC_IRQc_EN.EN : Bits := ⟨0, 32⟩
abbrev HIC_IRQc_THR.THR : Bits := ⟨0, 3⟩
abbrev HIC_IRQc_CLAIM.ID : Bits := ⟨0, 5⟩
abbrev HIC_MTIME_LO.T : Bits := ⟨0, 32⟩
abbrev HIC_MTIME_HI.T : Bits := ⟨0, 32⟩
abbrev HIC_MTIMECMPc_LO.T : Bits := ⟨0, 32⟩
abbrev HIC_MTIMECMPc_HI.T : Bits := ⟨0, 32⟩
abbrev HIC_MSIPc.MSIP : Bits := ⟨0, 1⟩
abbrev HIC_WDw_CFG.EN : Bits := ⟨0, 1⟩
abbrev HIC_WDw_CFG.FRZ : Bits := ⟨1, 1⟩
abbrev HIC_WDw_CFG.PRE : Bits := ⟨8, 4⟩
abbrev HIC_WDw_CFG.DLY : Bits := ⟨16, 4⟩
abbrev HIC_WDw_WIN.OPEN : Bits := ⟨0, 12⟩
abbrev HIC_WDw_WIN.CLOSE : Bits := ⟨16, 12⟩
abbrev HIC_WDw_SVC.KEY : Bits := ⟨0, 32⟩
abbrev HIC_WDw_STAT.CNT : Bits := ⟨0, 12⟩
abbrev HIC_WDw_STAT.CAUSE : Bits := ⟨12, 2⟩
abbrev HIC_WDw_STAT.FOREIGN : Bits := ⟨16, 8⟩
abbrev HIC_SEMn.OWNER : Bits := ⟨0, 2⟩
/-! Fields of the XSP block -/
abbrev XSP_CFG.MODE : Bits := ⟨0, 1⟩
abbrev XSP_CFG.DIV : Bits := ⟨4, 4⟩
abbrev XSP_CFG.DUMMY : Bits := ⟨8, 5⟩
abbrev XSP_CFG.RDOP : Bits := ⟨16, 8⟩
abbrev XSP_CMD.OP : Bits := ⟨0, 8⟩
abbrev XSP_CMD.NADDR : Bits := ⟨8, 2⟩
abbrev XSP_CMD.DIR : Bits := ⟨10, 1⟩
abbrev XSP_CMD.NDATA : Bits := ⟨16, 9⟩
abbrev XSP_CMD.CS : Bits := ⟨28, 1⟩
abbrev XSP_CMD.GO : Bits := ⟨31, 1⟩
abbrev XSP_ADDR.ADDR : Bits := ⟨0, 32⟩
abbrev XSP_STAT.BUSY : Bits := ⟨0, 1⟩
abbrev XSP_STAT.REFUSED : Bits := ⟨1, 1⟩
abbrev XSP_STAT.TMO : Bits := ⟨2, 1⟩
abbrev XSP_STAT.PROTLO : Bits := ⟨8, 20⟩
abbrev XSP_PROT.PROTLO : Bits := ⟨0, 16⟩
abbrev XSP_PROT.PROTHI : Bits := ⟨16, 16⟩
abbrev XSP_CLAMP.COUNT : Bits := ⟨0, 16⟩
abbrev XSP_DATA.W : Bits := ⟨0, 32⟩
/-! Fields of the GPIO block -/
abbrev GPIO_OUT.V : Bits := ⟨0, 32⟩
abbrev GPIO_DIR.V : Bits := ⟨0, 32⟩
abbrev GPIO_IN.V : Bits := ⟨0, 32⟩
abbrev GPIO_IRQCFG.V : Bits := ⟨0, 32⟩
abbrev GPIO_IRQSTAT.V : Bits := ⟨0, 32⟩

end Fld

end Sys2Proof
end

