-- ==== Sys2Proof/Machine/Bits.lean ====
section
/-! DEFINITION. Reading and writing a field of a word, saturating counts, signed fields and the
byte order (R5). -/

set_option Elab.async false

namespace Sys2Proof

/-- The value of a field. -/
def Bits.of (f : Bits) (w : Word) : Nat := w.toNat / 2 ^ f.lo % 2 ^ f.width

/-- The bits of the word that the field covers. -/
def Bits.mask (f : Bits) : Word := BitVec.ofNat 32 ((2 ^ f.width - 1) * 2 ^ f.lo)

/-- The word with the field set to `v` (its low bits) and every other bit kept. -/
def Bits.put (f : Bits) (v : Nat) (w : Word) : Word :=
  (w &&& ~~~ f.mask) ||| BitVec.ofNat 32 (v % 2 ^ f.width * 2 ^ f.lo)

/-- A field alone, every other bit 0 (for building records). -/
def Bits.only (f : Bits) (v : Nat) : Word := f.put v 0

/-- Whether the field is not 0. -/
def Bits.on (f : Bits) (w : Word) : Bool := f.of w != 0

/-- A saturating count of `width` bits plus `n`. -/
def satAdd (width v n : Nat) : Nat := min (2 ^ width - 1) (v + n)

/-- A field of `width` bits read as two's complement. -/
def signedOf (width v : Nat) : Int := if v < 2 ^ (width - 1) then v else (v : Int) - 2 ^ width

/-- The two's complement of `width` bits of an integer. -/
def toField (width : Nat) (v : Int) : Nat := (v % (2 ^ width : Int)).toNat

/-- An integer limited to the range of a signed field of `width` bits. -/
def satSigned (width : Nat) (v : Int) : Int :=
  max (-(2 ^ (width - 1) : Int)) (min (2 ^ (width - 1) - 1 : Int) v)

/-- Limit a number to a closed range. -/
def clampNat (lo hi v : Nat) : Nat := max lo (min hi v)

/-- The four bytes of a word, lowest address first. -/
def bytesOfWord (w : Word) : List Byte :=
  [w.extractLsb' 0 8, w.extractLsb' 8 8, w.extractLsb' 16 8, w.extractLsb' 24 8]

/-- The bytes of a list of words, lowest address first. -/
def bytesOfWords (ws : List Word) : List Byte := ws.flatMap bytesOfWord

/-- Set or clear bit `i` of a word. -/
def setBit (w : Word) (i : Nat) (b : Bool) : Word := (⟨i, 1⟩ : Bits).put b.toNat w

/-- Bit `i` of a word. -/
def bitAt (w : Word) (i : Nat) : Bool := w.getLsbD i

/-- The numbers below `n` whose bit is set in `w`, lowest first. -/
def bitsSet (n : Nat) (w : Word) : List Nat := (List.range n).filter (bitAt w)

end Sys2Proof
end

