-- ==== Sys2Proof/Machine/Crc.lean ====
section
/-! DEFINITION. The check algorithms of Table CHK-1 (R499) and the fold of R500. -/

set_option Elab.async false

namespace Sys2Proof.Crc

/-- The parameters of a check algorithm (Table CHK-1). -/
structure Alg where
  poly : Nat
  width : Nat
  init : Nat
  reflected : Bool
  xorOut : Nat
  deriving DecidableEq, Repr

def crc8 : Alg := ⟨0x1D, 8, 0xFF, false, 0xFF⟩
def crc16 : Alg := ⟨0x1021, 16, 0xFFFF, false, 0x0000⟩
def crc32 : Alg := ⟨0x04C11DB7, 32, 0xFFFFFFFF, true, 0xFFFFFFFF⟩
def crc32P4 : Alg := ⟨0xF4ACFB13, 32, 0xFFFFFFFF, true, 0xFFFFFFFF⟩
def crc32C : Alg := ⟨0x1EDC6F41, 32, 0xFFFFFFFF, true, 0xFFFFFFFF⟩

/-- The algorithm a CHK_Un_CFG.ALG code selects. -/
def algOf : Nat → Alg
  | 0 => crc8
  | 1 => crc16
  | 2 => crc32
  | _ => crc32P4

/-- The low `n` bits of a number in reverse order. -/
def reverseBits : Nat → Nat → Nat
  | 0, _ => 0
  | n + 1, v => (v % 2) * 2 ^ n + reverseBits n (v / 2)

/-- One bit of the division, register held most significant bit first. -/
def bitStep (a : Alg) (r : Nat) (bit : Bool) : Nat :=
  let top := (r / 2 ^ (a.width - 1)) % 2 = 1
  let s := r * 2 % 2 ^ a.width
  if top != bit then s ^^^ a.poly else s

/-- One byte into the running register, in the bit order of the algorithm. -/
def feedByte (a : Alg) (r : Nat) (b : Byte) : Nat :=
  let order := if a.reflected then [0, 1, 2, 3, 4, 5, 6, 7] else [7, 6, 5, 4, 3, 2, 1, 0]
  order.foldl (fun r i => bitStep a r (b.getLsbD i)) r

def feed (a : Alg) (r : Nat) (bs : List Byte) : Nat := bs.foldl (feedByte a) r

/-- The result read out of the running register. -/
def result (a : Alg) (r : Nat) : Nat := (if a.reflected then reverseBits a.width r else r) ^^^ a.xorOut

/-- The check value of a run of bytes. -/
def check (a : Alg) (bs : List Byte) : Nat := result a (feed a a.init bs)

/-- CRC-32C of bytes followed by the four bytes of a fold word (R500). -/
def checkC (bs : List Byte) : Word := BitVec.ofNat 32 (check crc32C bs)

end Sys2Proof.Crc
end

