-- ==== Sys2Proof/Machine/Num.lean ====
section
/-! DEFINITION. Engine numbers (R99, R100, R101, R109): exact values as rationals, one rounding to
a 24-bit significand per elementary operation, and the range rule of a stored result. -/

set_option Elab.async false

namespace Sys2Proof.Num

/-- `2 ^ e` for any integer exponent. -/
def pow2 (e : Int) : Rat := if 0 ≤ e then ((2 ^ e.toNat : Nat) : Rat) else mkRat 1 (2 ^ (-e).toNat)

/-- Quotient rounded to the nearest natural number, ties to even. -/
def divEven (n d : Nat) : Nat :=
  let q := n / d
  let r := n % d
  if 2 * r < d then q else if d < 2 * r then q + 1 else q + q % 2

/-- A rational rounded to the nearest integer, ties to even. -/
def roundInt (q : Rat) : Int :=
  if q < 0 then -(divEven q.num.natAbs q.den : Int) else divEven q.num.natAbs q.den

/-- The exponent `e` with `2 ^ e ≤ |q| < 2 ^ (e + 1)`, for a `q` that is not 0. -/
def ilog2 (q : Rat) : Int :=
  let e : Int := (q.num.natAbs.log2 : Int) - (q.den.log2 : Int)
  if pow2 e ≤ mkRat q.num.natAbs q.den then e else e - 1

/-- Round to a significand of 24 bits, to nearest with ties to even (R99).  The exponent is not
limited: the engine holds intermediates with a 10-bit exponent (R100). -/
def round24 (q : Rat) : Rat :=
  if q = 0 then 0 else
    let s := 23 - ilog2 q
    let m := if 0 ≤ s then divEven (q.num.natAbs * 2 ^ s.toNat) q.den
             else divEven q.num.natAbs (q.den * 2 ^ (-s).toNat)
    let v := (m : Rat) * pow2 (-s)
    if q < 0 then -v else v

/-- Significand field of 23 bits and biased exponent field of a word. -/
def fracOf (w : Word) : Nat := w.toNat % 2 ^ 23
def expOf (w : Word) : Nat := w.toNat / 2 ^ 23 % 2 ^ 8
def isNeg (w : Word) : Bool := w.getLsbD 31
def isNaN (w : Word) : Bool := expOf w == 255 && fracOf w != 0
def isInf (w : Word) : Bool := expOf w == 255 && fracOf w == 0
def isSubnormal (w : Word) : Bool := expOf w == 0 && fracOf w != 0

/-- The exact value of a binary32 word.  Exponent field 255 is read as an ordinary exponent: no
word in the engine carries it (R100). -/
def val (w : Word) : Rat :=
  let m : Rat := if expOf w = 0 then (fracOf w : Rat) * pow2 (-149)
    else ((2 ^ 23 + fracOf w : Nat) : Rat) * pow2 ((expOf w : Int) - 150)
  if isNeg w then -m else m

/-- The word of a value whose significand has 24 bits and whose exponent is in normal range. -/
def encode (q : Rat) : Word :=
  if q = 0 then 0 else
    let e := ilog2 q
    let m := (roundInt ((if q < 0 then -q else q) * pow2 (23 - e))).toNat
    BitVec.ofNat 32 ((if q < 0 then 2 ^ 31 else 0) + (e + 127).toNat * 2 ^ 23 + (m - 2 ^ 23))

/-- The largest binary32 value below `2 ^ 120` (R100). -/
def vmaxWord : Word := 0x7B7FFFFF
def vmax : Rat := val vmaxWord

/-- Whether a result is of magnitude `2 ^ 120` or more, which is a range finding (R100, R101). -/
def overflows (q : Rat) : Bool := decide (pow2 120 ≤ q) || decide (q ≤ -pow2 120)

/-- The value a result is stored as (R100): below `2 ^ -118` it becomes +0, from `2 ^ 120` on the
largest value below with its sign; there is no −0. -/
def range (q : Rat) : Rat :=
  if pow2 120 ≤ q then vmax else if q ≤ -pow2 120 then -vmax
  else if q < pow2 (-118) ∧ -pow2 (-118) < q then 0 else q

/-- The stored word of a result: rounded once, then brought into range. -/
def pack (q : Rat) : Word := encode (range (round24 q))

/-- Elementary operations, each rounded once (R99). -/
def add (a b : Rat) : Rat := round24 (a + b)
def sub (a b : Rat) : Rat := round24 (a - b)
def mul (a b : Rat) : Rat := round24 (a * b)

/-- Division with the rule of R100 for a zero divisor. -/
def div (a b : Rat) : Rat :=
  if b = 0 then (if a = 0 then 0 else if a < 0 then -vmax else vmax) else round24 (a / b)

/-- Integer square root by bits, from bit `k - 1` down. -/
def isqrtFrom : Nat → Nat → Nat → Nat
  | 0, _, r => r
  | k + 1, n, r => let t := r + 2 ^ k; isqrtFrom k n (if t * t ≤ n then t else r)

/-- Square root rounded once (R99); a negative operand gives +0 (R100).  The root is formed as an
integer of at least 32 bits with a sticky bit, so that the rounding is that of the exact root. -/
def sqrt (a : Rat) : Rat :=
  if a ≤ 0 then 0 else
    let e := ilog2 a
    let s := (62 - e) + (62 - e) % 2
    let q := a * pow2 s
    let n := q.num.natAbs / q.den
    let r := isqrtFrom 34 n 0
    let exact := decide (r * r = n) && decide (q.den = 1)
    round24 (((2 * r + (if exact then 0 else 1) : Nat) : Rat) * pow2 (-(s / 2) - 1))

/-- How a value enters the engine or a binary32 register: NaN and subnormals become +0, infinities
and magnitudes of `2 ^ 120` or more the largest value below with its sign (R101); −0 is +0 (R100). -/
def convert (w : Word) : Word :=
  if isNaN w || isSubnormal w then 0
  else if w = 0x80000000 then 0
  else if isInf w || overflows (val w) then (if isNeg w then vmaxWord ||| 0x80000000 else vmaxWord)
  else w

/-- Whether that conversion is a clamp (R101): −0 becoming +0 is none. -/
def convertClamps (w : Word) : Bool := isNaN w || isSubnormal w || isInf w || overflows (val w)

/-- Magnitude, sign removed. -/
def absR (q : Rat) : Rat := if q < 0 then -q else q

/-! ### π, sine, cosine and arctangent (R109), in fixed point with far more bits than a rounding
to 24 bits or to an integer needs -/

/-- Fractional bits of the fixed-point numbers below. -/
def fx : Nat := 192

/-- `floor (π · 2 ^ 320)`. -/
def pi320 : Nat :=
  0x3243f6a8885a308d313198a2e03707344a4093822299f31d0082efa98ec4e6c89452821e638d01377

/-- π as a rational. -/
def pi : Rat := mkRat pi320 (2 ^ 320)

/-- `Σ (−1)^k x^(2k + o) / (2k + o)!` in fixed point: `t` is the term of index `k`. -/
def altSeries : Nat → Nat → Nat → Nat → Int → Int
  | 0, _, _, _, acc => acc
  | n + 1, x2, t, k, acc =>
      let sign : Int := if (k / 2) % 2 = 0 then 1 else -1
      altSeries n x2 (t * x2 / 2 ^ fx / ((k + 1) * (k + 2))) (k + 2) (acc + sign * t)

/-- Sine and cosine of `(π / 2) · r / 2 ^ 30` for `r ≤ 2 ^ 30`, in fixed point. -/
def sincosQuarter (r : Nat) : Int × Int :=
  let x := pi320 * r / 2 ^ (320 + 31 - fx)
  let x2 := x * x / 2 ^ fx
  (altSeries 32 x2 x 1 0, altSeries 32 x2 (2 ^ fx) 0 0)

/-- Sine and cosine of an angle in angle units (R109), each the exact value rounded once. -/
def sincos (a : Word) : Rat × Rat :=
  let r := a.toNat % 2 ^ 30
  let sc := sincosQuarter r
  let f : Int → Rat := fun v => round24 (mkRat v (2 ^ fx))
  let s := if r = 0 then 0 else f sc.1
  let c := if r = 0 then 1 else f sc.2
  match a.toNat / 2 ^ 30 with
  | 0 => (s, c)
  | 1 => (c, -s)
  | 2 => (-s, -c)
  | _ => (-c, s)

/-- Euler's series of the arctangent: term `t` of index `k`, ratio `2k·y / (2k + 1)`. -/
def atanSeries : Nat → Nat → Nat → Nat → Nat → Nat
  | 0, _, _, _, acc => acc
  | n + 1, y, t, k, acc => atanSeries n y (t * y / 2 ^ fx * (2 * k) / (2 * k + 1)) (k + 1) (acc + t)

/-- `atan t · 2 ^ 32 / 2π` for `0 ≤ t ≤ 1`. -/
def atanUnits (t : Rat) : Rat :=
  let x := t.num.natAbs * 2 ^ fx / t.den
  let d := 2 ^ fx + x * x / 2 ^ fx
  let t0 := x * 2 ^ fx / d
  let y := x * x / d
  mkRat (atanSeries 200 y t0 1 0) (2 ^ fx) * (2 ^ 31 : Nat) / pi

/-- ATAN2 (R109) as an angle: the exact angle of (x, y) rounded once to angle units. -/
def atan2 (y x : Rat) : Word :=
  if y = 0 ∧ x = 0 then 0 else
    let ay := absR y
    let ax := absR x
    let oct : Rat := if ay = 0 then 0 else if ax = 0 then (2 ^ 30 : Nat) else
      if ay = ax then (2 ^ 29 : Nat) else
      if ay < ax then atanUnits (ay / ax) else (2 ^ 30 : Nat) - atanUnits (ax / ay)
    let half : Rat := if x < 0 then (2 ^ 31 : Nat) - oct else oct
    BitVec.ofInt 32 (roundInt (if y < 0 then -half else half))

/-- RTOA (R109): radians to angle units, rounded once, ties to even, modulo `2 ^ 32`. -/
def rtoa (a : Rat) : Word := BitVec.ofInt 32 (roundInt (a * (2 ^ 31 : Nat) / pi))

/-- ATOR (R109): a signed angle to radians, rounded once. -/
def ator (s : Word) : Rat := round24 ((s.toInt : Rat) * pi / (2 ^ 31 : Nat))

/-- An integer as a stored real, rounded once. -/
def ofInt (n : Int) : Rat := round24 (n : Rat)

/-- A real rounded to an integer, ties to even, saturated to ±(2^31 − 1) (FTOI). -/
def toInt32 (q : Rat) : Word := BitVec.ofInt 32 (max (-(2 ^ 31 - 1)) (min (2 ^ 31 - 1) (roundInt q)))

/-- Terms of `exp (-y)` in fixed point: `term` is the next one, `sgn` its sign. -/
def expSeries : Nat → Nat → Nat → Bool → Int → Int
  | 0, _, _, _, acc => acc
  | n + 1, y, term, plus, acc =>
      let k := 41 - (n + 1)
      expSeries n y (term * y / 2 ^ 128 / k) (!plus) (if plus then acc + term else acc - term)

/-- Square a fixed-point number `n` times. -/
def squareTimes : Nat → Nat → Nat
  | 0, v => v
  | n + 1, v => squareTimes n (v * v / 2 ^ 128)

/-- `exp (-x)` for `x ≥ 0`, with an error far below 2^-64. -/
def expNeg (x : Rat) : Rat :=
  if x ≤ 0 then 1 else if 64 ≤ x then 0
  else
    let y := (x * (2 ^ 120 : Nat)).floor.toNat
    let v := (expSeries 40 y (2 ^ 128) true 0).toNat
    mkRat (squareTimes 8 v) (2 ^ 128)

end Sys2Proof.Num
end

