-- ==== Sys2Proof/Machine/RegTable.lean ====
section
/-! DEFINITION. The register table: every register of the spec's register tables with its fields,
their access type (R6), reset value, clamp (R8) and whether they are setup-only (R47) or stay
writable on the bus after setup lock (Table SYS-5).  A clamp marked `cross` depends on other
fields or registers and is computed in RegWrite. -/

set_option Elab.async false

namespace Sys2Proof.Machine

/-- Access types of Table DOC-2. -/
inductive Access where
  | rw | ro | w1c | wo | rwl
  deriving DecidableEq, Repr

/-- What an illegal written value becomes (R8). -/
inductive Clamp where
  | none
  | below (lo : Nat)
  | above (hi : Nat)
  | range (lo hi : Nat)
  | codes (first last becomes : Nat)
  | realAny | realNonneg | real01 | realKe
  | cross
  deriving DecidableEq, Repr

/-- One field of a register; `reset` takes the register's index. -/
structure FieldDesc where
  bits : Bits
  access : Access
  reset : Nat → Nat
  clamp : Clamp := .none
  setupOnly : Bool := false
  afterLock : Bool := false

/-- One register or array of registers: the offset in its block and, for each index, the stride
and the count. -/
structure RegDesc where
  name : String
  off : Nat
  dims : List (Nat × Nat)
  fields : List FieldDesc

/-- Registers of the SYS block (UNIT 0x00). -/
def regsSYS : List RegDesc := [
  ⟨"SYS_DEVID", 0x0000, [], [
    ⟨Fld.SYS_DEVID.PART, .ro, fun _ => 0x9640, .none, false, false⟩,
    ⟨Fld.SYS_DEVID.FAMILY, .ro, fun _ => 1, .none, false, false⟩,
    ⟨Fld.SYS_DEVID.CORE_REV, .ro, fun _ => 0, .none, false, false⟩,
    ⟨Fld.SYS_DEVID.FIELD_REV, .ro, fun _ => 0xF, .none, false, false⟩]⟩,
  ⟨"SYS_SETUP_LOCK", 0x0010, [], [
    ⟨Fld.SYS_SETUP_LOCK.LOCK, .rwl, fun _ => 0, .none, false, false⟩,
    ⟨Fld.SYS_SETUP_LOCK.SEALED, .ro, fun _ => 0, .none, false, false⟩]⟩,
  ⟨"SYS_DLINK_STAT", 0x0040, [], [
    ⟨Fld.SYS_DLINK_STAT.LOST, .ro, fun _ => 0, .none, false, false⟩,
    ⟨Fld.SYS_DLINK_STAT.RETRY, .ro, fun _ => 0, .none, false, false⟩,
    ⟨Fld.SYS_DLINK_STAT.DOWN, .w1c, fun _ => 0, .none, false, false⟩,
    ⟨Fld.SYS_DLINK_STAT.DEGR, .w1c, fun _ => 0, .none, false, false⟩]⟩,
  ⟨"SYS_FAULTCFG", 0x0050, [], [
    ⟨Fld.SYS_FAULTCFG.F1_LIMIT, .rwl, fun _ => 8, .below 1, false, false⟩,
    ⟨Fld.SYS_FAULTCFG.F1_WIN, .rwl, fun _ => 1, .below 1, false, false⟩,
    ⟨Fld.SYS_FAULTCFG.DERATE, .rwl, fun _ => 128, .below 1, false, false⟩,
    ⟨Fld.SYS_FAULTCFG.F3_SCOPE, .rwl, fun _ => 0, .none, false, false⟩]⟩,
  ⟨"SYS_FAULTSTAT", 0x0054, [], [
    ⟨Fld.SYS_FAULTSTAT.F2, .w1c, fun _ => 0, .none, false, false⟩,
    ⟨Fld.SYS_FAULTSTAT.F3, .ro, fun _ => 0, .none, false, false⟩,
    ⟨Fld.SYS_FAULTSTAT.F4, .ro, fun _ => 0, .none, false, false⟩,
    ⟨Fld.SYS_FAULTSTAT.ESCAL, .ro, fun _ => 0, .none, false, false⟩]⟩,
  ⟨"SYS_BOOTSTAT", 0x0060, [], [
    ⟨Fld.SYS_BOOTSTAT.SLOT, .ro, fun _ => 0, .none, false, false⟩,
    ⟨Fld.SYS_BOOTSTAT.TRY, .ro, fun _ => 0, .none, false, false⟩,
    ⟨Fld.SYS_BOOTSTAT.CODE, .ro, fun _ => 0, .none, false, false⟩]⟩,
  ⟨"SYS_BOOTOK", 0x0064, [], [
    ⟨Fld.SYS_BOOTOK.OK, .wo, fun _ => 0, .none, false, true⟩,
    ⟨Fld.SYS_BOOTOK.COMMIT, .wo, fun _ => 0, .none, false, true⟩]⟩,
  ⟨"SYS_BOOTREJ", 0x0068, [], [
    ⟨Fld.SYS_BOOTREJ.SLOT, .ro, fun _ => 0, .none, false, false⟩,
    ⟨Fld.SYS_BOOTREJ.SEQ, .ro, fun _ => 0, .none, false, false⟩]⟩,
  ⟨"SYS_RSTCTL", 0x0070, [], [
    ⟨Fld.SYS_RSTCTL.SWSYS, .rw, fun _ => 0, .cross, false, true⟩]⟩,
  ⟨"SYS_SWSUB", 0x0074, [], [
    ⟨Fld.SYS_SWSUB.UNIT, .rw, fun _ => 0, .none, false, true⟩,
    ⟨Fld.SYS_SWSUB.INST, .rw, fun _ => 0, .none, false, true⟩,
    ⟨Fld.SYS_SWSUB.GO, .rw, fun _ => 0, .none, false, true⟩]⟩,
  ⟨"SYS_RSTCAUSE", 0x0078, [], [
    ⟨Fld.SYS_RSTCAUSE.CAUSE, .ro, fun _ => 0, .none, false, false⟩,
    ⟨Fld.SYS_RSTCAUSE.SLEEPWK, .ro, fun _ => 0, .none, false, false⟩,
    ⟨Fld.SYS_RSTCAUSE.FDIE, .ro, fun _ => 1, .none, false, false⟩]⟩,
  ⟨"SYS_RESTORE", 0x007C, [], [
    ⟨Fld.SYS_RESTORE.GO, .wo, fun _ => 0, .none, false, true⟩,
    ⟨Fld.SYS_RESTORE.STATE, .ro, fun _ => 0, .none, false, false⟩,
    ⟨Fld.SYS_RESTORE.IMGOK, .ro, fun _ => 0, .none, false, false⟩]⟩]

/-- Registers of the CLK block (UNIT 0x01). -/
def regsCLK : List RegDesc := [
  ⟨"CLK_REF", 0x0000, [], [
    ⟨Fld.CLK_REF.SEL, .rwl, fun _ => 0, .none, true, false⟩,
    ⟨Fld.CLK_REF.FREF, .rwl, fun _ => 20, .range 10 50, true, false⟩]⟩,
  ⟨"CLK_STAT", 0x0004, [], [
    ⟨Fld.CLK_STAT.FAB, .ro, fun _ => 2, .none, false, false⟩,
    ⟨Fld.CLK_STAT.ADC, .ro, fun _ => 2, .none, false, false⟩,
    ⟨Fld.CLK_STAT.REF, .ro, fun _ => 0, .none, false, false⟩,
    ⟨Fld.CLK_STAT.DISC, .ro, fun _ => 0, .none, false, false⟩,
    ⟨Fld.CLK_STAT.VTVALID, .ro, fun _ => 0, .none, false, false⟩,
    ⟨Fld.CLK_STAT.RTCSRC, .ro, fun _ => 0, .none, false, false⟩]⟩,
  ⟨"CLK_CLAMP", 0x0008, [], [
    ⟨Fld.CLK_CLAMP.COUNT, .ro, fun _ => 0, .none, false, false⟩]⟩,
  ⟨"CLK_CNT", 0x000C, [], [
    ⟨Fld.CLK_CNT.UNLOCK, .ro, fun _ => 0, .none, false, false⟩,
    ⟨Fld.CLK_CNT.REFLOSS, .ro, fun _ => 0, .none, false, false⟩,
    ⟨Fld.CLK_CNT.FDA, .ro, fun _ => 0, .none, false, false⟩,
    ⟨Fld.CLK_CNT.FDB, .ro, fun _ => 0, .none, false, false⟩]⟩,
  ⟨"CLK_PLLp_CFG", 0x0100, [(0x20, 2)], [
    ⟨Fld.CLK_PLLp_CFG.EN, .rwl, fun _ => 1, .none, true, false⟩,
    ⟨Fld.CLK_PLLp_CFG.RDIV, .rwl, fun _ => 0, .none, true, false⟩,
    ⟨Fld.CLK_PLLp_CFG.NINT, .rwl, fun _ => 160, .range 62 330, true, false⟩]⟩,
  ⟨"CLK_PLLp_FRAC", 0x0104, [(0x20, 2)], [
    ⟨Fld.CLK_PLLp_FRAC.NFRAC, .rwl, fun _ => 0, .none, true, false⟩]⟩,
  ⟨"CLK_PLLp_STAT", 0x0108, [(0x20, 2)], [
    ⟨Fld.CLK_PLLp_STAT.STATE, .ro, fun _ => 0, .none, false, false⟩,
    ⟨Fld.CLK_PLLp_STAT.CARRY, .ro, fun _ => 0, .none, false, false⟩,
    ⟨Fld.CLK_PLLp_STAT.LDMV, .ro, fun _ => 0, .none, false, false⟩]⟩,
  ⟨"CLK_PLLp_OFS", 0x010C, [(0x20, 2)], [
    ⟨Fld.CLK_PLLp_OFS.OFS, .ro, fun _ => 0, .none, false, false⟩,
    ⟨Fld.CLK_PLLp_OFS.FI, .ro, fun _ => 0, .none, false, false⟩]⟩,
  ⟨"CLK_HOLD", 0x0200, [], [
    ⟨Fld.CLK_HOLD.HOLDTMO, .rwl, fun _ => 10, .range 1 100, true, false⟩,
    ⟨Fld.CLK_HOLD.SLEW, .rwl, fun _ => 20, .range 1 200, true, false⟩,
    ⟨Fld.CLK_HOLD.QWATCH, .rwl, fun _ => 10, .below 1, true, false⟩]⟩,
  ⟨"CLK_DISC", 0x0300, [], [
    ⟨Fld.CLK_DISC.EN, .rw, fun _ => 0, .none, false, false⟩,
    ⟨Fld.CLK_DISC.TC, .rw, fun _ => 10, .below 1, false, false⟩,
    ⟨Fld.CLK_DISC.DISCMAX, .rw, fun _ => 100, .range 1 200, false, false⟩]⟩,
  ⟨"CLK_OUTn_CFG", 0x0400, [(0x04, 2)], [
    ⟨Fld.CLK_OUTn_CFG.SRC, .rw, fun _ => 0, .codes 6 0xFFFFFFFF 0, false, false⟩,
    ⟨Fld.CLK_OUTn_CFG.DIV, .rw, fun _ => 1, .cross, false, false⟩,
    ⟨Fld.CLK_OUTn_CFG.FMT, .rw, fun _ => 0, .none, false, false⟩]⟩,
  ⟨"CLK_TICKIN_CFG", 0x0500, [], [
    ⟨Fld.CLK_TICKIN_CFG.EN, .rw, fun _ => 0, .none, false, false⟩,
    ⟨Fld.CLK_TICKIN_CFG.FALL, .rw, fun _ => 0, .none, false, false⟩,
    ⟨Fld.CLK_TICKIN_CFG.N, .rw, fun _ => 4, .below 1, false, false⟩,
    ⟨Fld.CLK_TICKIN_CFG.LIM, .rw, fun _ => 64, .below 1, false, false⟩]⟩,
  ⟨"CLK_TICKIN_OFS", 0x0504, [], [
    ⟨Fld.CLK_TICKIN_OFS.OFS, .rw, fun _ => 0, .cross, false, false⟩]⟩,
  ⟨"CLK_TICKIN_ERR", 0x0508, [], [
    ⟨Fld.CLK_TICKIN_ERR.ERR, .ro, fun _ => 0, .none, false, false⟩]⟩,
  ⟨"CLK_RTC_LO", 0x0600, [], [
    ⟨Fld.CLK_RTC_LO.COUNT, .ro, fun _ => 0, .none, false, false⟩]⟩,
  ⟨"CLK_RTC_HI", 0x0604, [], [
    ⟨Fld.CLK_RTC_HI.COUNT, .ro, fun _ => 0, .none, false, false⟩]⟩] ++ [
  ⟨"CLK_TICKCFG", 0x0800, [], [
    ⟨Fld.CLK_TICKCFG.SRC, .rwl, fun _ => 0, .codes 3 0xFFFFFFFF 0, false, false⟩,
    ⟨Fld.CLK_TICKCFG.OUT_EN, .rwl, fun _ => 0, .none, false, false⟩,
    ⟨Fld.CLK_TICKCFG.OUT_W, .rwl, fun _ => 4, .below 1, false, false⟩]⟩,
  ⟨"CLK_TICKCNT_LO", 0x0804, [], [
    ⟨Fld.CLK_TICKCNT_LO.COUNT, .ro, fun _ => 0, .none, false, false⟩]⟩,
  ⟨"CLK_TICKCNT_HI", 0x0808, [], [
    ⟨Fld.CLK_TICKCNT_HI.COUNT, .ro, fun _ => 0, .none, false, false⟩]⟩,
  ⟨"CLK_TICKPER", 0x080C, [], [
    ⟨Fld.CLK_TICKPER.PERIOD, .ro, fun _ => 160000, .none, false, false⟩]⟩,
  ⟨"CLK_TICKPER_NEXT", 0x0810, [], [
    ⟨Fld.CLK_TICKPER_NEXT.PERIOD, .ro, fun _ => 160000, .none, false, false⟩]⟩]

/-- Registers of the CMD block (UNIT 0x02). -/
def regsCMD : List RegDesc := [
  ⟨"CMD_PSN", 0x0000, [], [
    ⟨Fld.CMD_PSN.NEXT, .ro, fun _ => 1, .none, false, false⟩]⟩,
  ⟨"CMD_STAGE", 0x0004, [], [
    ⟨Fld.CMD_STAGE.DESC, .ro, fun _ => 0, .none, false, false⟩,
    ⟨Fld.CMD_STAGE.CARV, .ro, fun _ => 0, .none, false, false⟩]⟩,
  ⟨"CMD_EVTCFG", 0x0008, [], [
    ⟨Fld.CMD_EVTCFG.EVTN_CLASS, .rwl, fun _ => 3, .above 4, false, false⟩,
    ⟨Fld.CMD_EVTCFG.ACK, .wo, fun _ => 0, .none, false, true⟩]⟩,
  ⟨"CMD_CLAMP", 0x000C, [], [
    ⟨Fld.CMD_CLAMP.COUNT, .ro, fun _ => 0, .none, false, false⟩]⟩,
  ⟨"CMD_SQn_BASE", 0x0100, [(0x20, 16)], [
    ⟨Fld.CMD_SQn_BASE.OFFSET, .rwl, fun _ => 0, .cross, false, false⟩]⟩,
  ⟨"CMD_SQn_CFG", 0x0104, [(0x20, 16)], [
    ⟨Fld.CMD_SQn_CFG.SIZE, .rwl, fun _ => 16, .range 16 4096, false, false⟩,
    ⟨Fld.CMD_SQn_CFG.PRIO, .rwl, fun _ => 0, .none, false, false⟩,
    ⟨Fld.CMD_SQn_CFG.CQ, .rwl, fun _ => 0, .none, false, false⟩,
    ⟨Fld.CMD_SQn_CFG.LATE, .rwl, fun _ => 0, .none, false, false⟩,
    ⟨Fld.CMD_SQn_CFG.EN, .rwl, fun _ => 0, .none, false, false⟩]⟩,
  ⟨"CMD_SQn_CTRL", 0x0108, [(0x20, 16)], [
    ⟨Fld.CMD_SQn_CTRL.RESUME, .wo, fun _ => 0, .none, false, true⟩,
    ⟨Fld.CMD_SQn_CTRL.FLUSH, .wo, fun _ => 0, .none, false, true⟩,
    ⟨Fld.CMD_SQn_CTRL.CLRCNT, .wo, fun _ => 0, .none, false, true⟩]⟩,
  ⟨"CMD_SQn_STAT", 0x010C, [(0x20, 16)], [
    ⟨Fld.CMD_SQn_STAT.STATE, .ro, fun _ => 0, .none, false, false⟩,
    ⟨Fld.CMD_SQn_STAT.EPOCH, .ro, fun _ => 0, .none, false, false⟩,
    ⟨Fld.CMD_SQn_STAT.HSLOT, .ro, fun _ => 0, .none, false, false⟩]⟩,
  ⟨"CMD_SQn_CNT", 0x0110, [(0x20, 16)], [
    ⟨Fld.CMD_SQn_CNT.CLAMP, .ro, fun _ => 0, .none, false, false⟩,
    ⟨Fld.CMD_SQn_CNT.BADDB, .ro, fun _ => 0, .none, false, false⟩,
    ⟨Fld.CMD_SQn_CNT.LATE, .ro, fun _ => 0, .none, false, false⟩]⟩,
  ⟨"CMD_CQm_BASE", 0x0400, [(0x10, 4)], [
    ⟨Fld.CMD_CQm_BASE.OFFSET, .rwl, fun _ => 0, .cross, false, false⟩]⟩,
  ⟨"CMD_CQm_CFG", 0x0404, [(0x10, 4)], [
    ⟨Fld.CMD_CQm_CFG.SIZE, .rwl, fun _ => 16, .range 16 4096, false, false⟩,
    ⟨Fld.CMD_CQm_CFG.EN, .rwl, fun _ => 0, .none, false, false⟩]⟩,
  ⟨"CMD_CQm_IRQ", 0x0408, [(0x10, 4)], [
    ⟨Fld.CMD_CQm_IRQ.THRESH, .rw, fun _ => 1, .below 1, false, true⟩,
    ⟨Fld.CMD_CQm_IRQ.TMO, .rw, fun _ => 0, .none, false, true⟩,
    ⟨Fld.CMD_CQm_IRQ.EN, .rw, fun _ => 0, .none, false, true⟩]⟩,
  ⟨"CMD_EQ_BASE", 0x0480, [], [
    ⟨Fld.CMD_EQ_BASE.OFFSET, .rwl, fun _ => 0, .cross, false, false⟩]⟩,
  ⟨"CMD_EQ_CFG", 0x0484, [], [
    ⟨Fld.CMD_EQ_CFG.SIZE, .rwl, fun _ => 16, .range 16 4096, false, false⟩,
    ⟨Fld.CMD_EQ_CFG.EN, .rwl, fun _ => 0, .none, false, false⟩]⟩,
  ⟨"CMD_EQ_IRQ", 0x0488, [], [
    ⟨Fld.CMD_EQ_IRQ.THRESH, .rw, fun _ => 1, .below 1, false, true⟩,
    ⟨Fld.CMD_EQ_IRQ.TMO, .rw, fun _ => 0, .none, false, true⟩,
    ⟨Fld.CMD_EQ_IRQ.EN, .rw, fun _ => 0, .none, false, true⟩]⟩,
  ⟨"CMD_EQ_STAT", 0x048C, [], [
    ⟨Fld.CMD_EQ_STAT.DROP, .ro, fun _ => 0, .none, false, false⟩]⟩]

/-- Registers of the ENG block (UNIT 0x03). -/
def regsENG : List RegDesc := [
  ⟨"ENG_CFG", 0x0000, [], [
    ⟨Fld.ENG_CFG.SCHED, .rwl, fun _ => 0, .none, false, false⟩,
    ⟨Fld.ENG_CFG.RUN, .rwl, fun _ => 0, .none, true, false⟩,
    ⟨Fld.ENG_CFG.NUMEV, .rwl, fun _ => 1, .none, false, false⟩,
    ⟨Fld.ENG_CFG.SHADOW_W, .rwl, fun _ => 64, .below 1, false, false⟩]⟩,
  ⟨"ENG_STAT", 0x0004, [], [
    ⟨Fld.ENG_STAT.SCHED, .ro, fun _ => 0, .none, false, false⟩,
    ⟨Fld.ENG_STAT.RUN, .ro, fun _ => 0, .none, false, false⟩,
    ⟨Fld.ENG_STAT.SPARE, .ro, fun _ => 0, .none, false, false⟩,
    ⟨Fld.ENG_STAT.NOSPARE, .ro, fun _ => 0, .none, false, false⟩,
    ⟨Fld.ENG_STAT.SHADOW, .ro, fun _ => 0, .none, false, false⟩]⟩,
  ⟨"ENG_TOLL_REQ", 0x0008, [], [
    ⟨Fld.ENG_TOLL_REQ.C_REQ, .ro, fun _ => 0, .none, false, false⟩]⟩,
  ⟨"ENG_TOLL_SMAX", 0x000C, [], [
    ⟨Fld.ENG_TOLL_SMAX.S_MAX, .ro, fun _ => 0, .none, false, false⟩]⟩,
  ⟨"ENG_TOLL_BUD", 0x0010, [], [
    ⟨Fld.ENG_TOLL_BUD.B, .ro, fun _ => 9760, .none, false, false⟩]⟩,
  ⟨"ENG_TADM", 0x0014, [], [
    ⟨Fld.ENG_TADM.T_ADM, .ro, fun _ => 32000, .none, false, false⟩]⟩,
  ⟨"ENG_CNT", 0x0018, [], [
    ⟨Fld.ENG_CNT.DLMISS, .ro, fun _ => 0, .none, false, false⟩,
    ⟨Fld.ENG_CNT.SWAP, .ro, fun _ => 0, .none, false, false⟩,
    ⟨Fld.ENG_CNT.RANGE, .ro, fun _ => 0, .none, false, false⟩]⟩,
  ⟨"ENG_CLAMP", 0x001C, [], [
    ⟨Fld.ENG_CLAMP.COUNT, .ro, fun _ => 0, .none, false, false⟩]⟩,
  ⟨"ENG_RUNMAPj", 0x0020, [(0x04, 4)], [
    ⟨Fld.ENG_RUNMAPj.MAP, .ro, fun _ => 0, .none, false, false⟩]⟩,
  ⟨"ENG_BINDn", 0x1000, [(0x04, 256)], [
    ⟨Fld.ENG_BINDn.SRC, .rwl, fun _ => 0, .cross, false, false⟩,
    ⟨Fld.ENG_BINDn.SINK, .rwl, fun _ => 0, .cross, false, false⟩,
    ⟨Fld.ENG_BINDn.EN, .rwl, fun _ => 0, .none, false, false⟩]⟩,
  ⟨"ENG_BOARDa", 0x8000, [(0x04, 4096)], [
    ⟨Fld.ENG_BOARDa.WORD, .ro, fun _ => 0, .none, false, false⟩]⟩]

/-- Registers of the TPR block (UNIT 0x04). -/
def regsTPR : List RegDesc := [
  ⟨"TPR_CFG", 0x0000, [], [
    ⟨Fld.TPR_CFG.HOLD, .rwl, fun _ => 2, .range 1 4, true, false⟩,
    ⟨Fld.TPR_CFG.SIGW, .rwl, fun _ => 16, .range 1 64, true, false⟩]⟩,
  ⟨"TPR_STAT", 0x0004, [], [
    ⟨Fld.TPR_STAT.HOLD, .ro, fun _ => 0, .none, false, false⟩,
    ⟨Fld.TPR_STAT.HLEFT, .ro, fun _ => 0, .none, false, false⟩,
    ⟨Fld.TPR_STAT.WPOS, .ro, fun _ => 0, .none, false, false⟩,
    ⟨Fld.TPR_STAT.SCRUB, .ro, fun _ => 0, .none, false, false⟩]⟩,
  ⟨"TPR_CNT_A", 0x0008, [], [
    ⟨Fld.TPR_CNT_A.RESYNC, .ro, fun _ => 0, .none, false, false⟩,
    ⟨Fld.TPR_CNT_A.LATENT, .ro, fun _ => 0, .none, false, false⟩]⟩,
  ⟨"TPR_CNT_B", 0x000C, [], [
    ⟨Fld.TPR_CNT_B.DIVERGE3, .ro, fun _ => 0, .none, false, false⟩,
    ⟨Fld.TPR_CNT_B.HOLDS, .ro, fun _ => 0, .none, false, false⟩,
    ⟨Fld.TPR_CNT_B.DISCARD, .ro, fun _ => 0, .none, false, false⟩,
    ⟨Fld.TPR_CNT_B.VFAULT, .ro, fun _ => 0, .none, false, false⟩]⟩,
  ⟨"TPR_SALT", 0x0010, [], [
    ⟨Fld.TPR_SALT.PASS, .ro, fun _ => 0, .none, false, false⟩,
    ⟨Fld.TPR_SALT.BIT, .ro, fun _ => 0, .none, false, false⟩,
    ⟨Fld.TPR_SALT.BIND, .ro, fun _ => 0, .none, false, false⟩,
    ⟨Fld.TPR_SALT.NONE, .ro, fun _ => 0, .none, false, false⟩,
    ⟨Fld.TPR_SALT.FAIL, .ro, fun _ => 0, .none, false, false⟩]⟩,
  ⟨"TPR_CLAMP", 0x0014, [], [
    ⟨Fld.TPR_CLAMP.COUNT, .ro, fun _ => 0, .none, false, false⟩]⟩,
  ⟨"TPR_SIGn_A", 0x1000, [(0x10, 128)], [
    ⟨Fld.TPR_SIGn_A.SIG, .ro, fun _ => 0, .none, false, false⟩]⟩,
  ⟨"TPR_SIGn_B", 0x1004, [(0x10, 128)], [
    ⟨Fld.TPR_SIGn_B.SIG, .ro, fun _ => 0, .none, false, false⟩]⟩,
  ⟨"TPR_SIGn_C", 0x1008, [(0x10, 128)], [
    ⟨Fld.TPR_SIGn_C.SIG, .ro, fun _ => 0, .none, false, false⟩]⟩,
  ⟨"TPR_SIGn_TICK", 0x100C, [(0x10, 128)], [
    ⟨Fld.TPR_SIGn_TICK.TICK, .ro, fun _ => 0, .none, false, false⟩]⟩]

/-- Registers of the PWM block (UNIT 0x05). -/
def regsPWM : List RegDesc := [
  ⟨"PWM_LDALL", 0x0000, [], [
    ⟨Fld.PWM_LDALL.TB, .rwl, fun _ => 0, .none, true, false⟩]⟩,
  ⟨"PWM_STAT", 0x0004, [], [
    ⟨Fld.PWM_STAT.SP0, .ro, fun _ => 0x1F, .none, false, false⟩,
    ⟨Fld.PWM_STAT.SP1, .ro, fun _ => 0x1F, .none, false, false⟩,
    ⟨Fld.PWM_STAT.EXH, .ro, fun _ => 0, .none, false, false⟩]⟩,
  ⟨"PWM_SPCFG", 0x0008, [], [
    ⟨Fld.PWM_SPCFG.WATCH, .rw, fun _ => 64, .below 1, false, false⟩]⟩,
  ⟨"PWM_CLAMP", 0x000C, [], [
    ⟨Fld.PWM_CLAMP.COUNT, .ro, fun _ => 0, .none, false, false⟩]⟩,
  ⟨"TBn_CFG", 0x0100, [(0x20, 4)], [
    ⟨Fld.TBn_CFG.RUN, .rwl, fun _ => 0, .none, true, false⟩,
    ⟨Fld.TBn_CFG.MODE, .rwl, fun _ => 0, .cross, true, false⟩,
    ⟨Fld.TBn_CFG.LDPT, .rw, fun _ => 1, .cross, false, false⟩,
    ⟨Fld.TBn_CFG.SYNC, .rwl, fun _ => 0, .cross, true, false⟩,
    ⟨Fld.TBn_CFG.THDIV, .rw, fun _ => 1, .none, false, false⟩,
    ⟨Fld.TBn_CFG.SHHOLD, .rw, fun _ => 0, .none, false, false⟩,
    ⟨Fld.TBn_CFG.DITH, .rw, fun _ => 0, .cross, false, false⟩]⟩,
  ⟨"TBn_PER", 0x0104, [(0x20, 4)], [
    ⟨Fld.TBn_PER.PERIOD, .rw, fun _ => 160000, .range 64000 3200000, false, false⟩]⟩,
  ⟨"TBn_PHASE", 0x0108, [(0x20, 4)], [
    ⟨Fld.TBn_PHASE.PHASE, .rw, fun _ => 0, .cross, false, false⟩]⟩,
  ⟨"TBn_STAT", 0x010C, [(0x20, 4)], [
    ⟨Fld.TBn_STAT.CNT, .ro, fun _ => 0, .none, false, false⟩,
    ⟨Fld.TBn_STAT.DIR, .ro, fun _ => 0, .none, false, false⟩,
    ⟨Fld.TBn_STAT.DIV, .ro, fun _ => 0, .none, false, false⟩,
    ⟨Fld.TBn_STAT.CLK, .ro, fun _ => 2, .none, false, false⟩,
    ⟨Fld.TBn_STAT.COARSE, .ro, fun _ => 0, .none, false, false⟩]⟩,
  ⟨"TBn_VTERR", 0x0110, [(0x20, 4)], [
    ⟨Fld.TBn_VTERR.ERR, .ro, fun _ => 0, .none, false, false⟩]⟩,
  ⟨"PAIRk_CFG", 0x1000, [(0x40, 16)], [
    ⟨Fld.PAIRk_CFG.TB, .rwl, fun n => if n < 3 then 0 else if n < 6 then 1 else if n < 8 then 2 else 3, .none, true, false⟩,
    ⟨Fld.PAIRk_CFG.PMODE, .rwl, fun n => if n = 10 then 1 else 0, .codes 3 0xFFFFFFFF 0, true, false⟩,
    ⟨Fld.PAIRk_CFG.POLICY, .rw, fun _ => 0, .codes 3 0xFFFFFFFF 0, false, false⟩,
    ⟨Fld.PAIRk_CFG.ALIGN, .rw, fun n => if n = 7 then 1 else 0, .none, false, false⟩,
    ⟨Fld.PAIRk_CFG.UPD, .rwl, fun _ => 0, .none, true, false⟩]⟩,
  ⟨"PAIRk_DT", 0x1004, [(0x40, 16)], [
    ⟨Fld.PAIRk_DT.DTR, .rw, fun _ => 3200, .range 64 51200, false, false⟩,
    ⟨Fld.PAIRk_DT.DTF, .rw, fun _ => 3200, .range 64 51200, false, false⟩]⟩,
  ⟨"PAIRk_MINP", 0x1008, [(0x40, 16)], [
    ⟨Fld.PAIRk_MINP.MINP, .rw, fun _ => 640, .above 12800, false, false⟩]⟩,
  ⟨"PAIRk_CMP", 0x100C, [(0x40, 16)], [
    ⟨Fld.PAIRk_CMP.DUTY, .rw, fun _ => 0, .real01, false, false⟩]⟩,
  ⟨"PAIRk_SHD", 0x1010, [(0x40, 16)], [
    ⟨Fld.PAIRk_SHD.DUTY, .rw, fun _ => 0, .real01, false, false⟩]⟩,
  ⟨"PAIRk_MASK", 0x1014, [(0x40, 16)], [
    ⟨Fld.PAIRk_MASK.CODE, .rw, fun _ => 1, .codes 6 0xFFFFFFFF 1, false, false⟩]⟩,
  ⟨"PAIRk_MASKNX", 0x1018, [(0x40, 16)], [
    ⟨Fld.PAIRk_MASKNX.CODE, .rw, fun _ => 1, .codes 6 0xFFFFFFFF 1, false, false⟩]⟩] ++ [
  ⟨"PAIRk_LIVE", 0x101C, [(0x40, 16)], [
    ⟨Fld.PAIRk_LIVE.W, .ro, fun _ => 0, .none, false, false⟩,
    ⟨Fld.PAIRk_LIVE.MASK, .ro, fun _ => 1, .none, false, false⟩,
    ⟨Fld.PAIRk_LIVE.EN, .ro, fun _ => 0, .none, false, false⟩,
    ⟨Fld.PAIRk_LIVE.SPARE, .ro, fun _ => 0, .none, false, false⟩]⟩,
  ⟨"PAIRk_CARRY", 0x1020, [(0x40, 16)], [
    ⟨Fld.PAIRk_CARRY.C, .ro, fun _ => 0, .none, false, false⟩]⟩,
  ⟨"PAIRk_STAT", 0x1024, [(0x40, 16)], [
    ⟨Fld.PAIRk_STAT.SHORT, .ro, fun _ => 0, .none, false, false⟩,
    ⟨Fld.PAIRk_STAT.CSAT, .ro, fun _ => 0, .none, false, false⟩,
    ⟨Fld.PAIRk_STAT.DLIM, .ro, fun _ => 0, .none, false, false⟩]⟩]

/-- Registers of the PROT block (UNIT 0x06). -/
def regsPROT : List RegDesc := [
  ⟨"PROT_CFG", 0x0000, [], [
    ⟨Fld.PROT_CFG.SAFEN_UNITS, .rwl, fun _ => 0x0F, .none, true, false⟩,
    ⟨Fld.PROT_CFG.FAULTN_F2, .rwl, fun _ => 0, .none, true, false⟩]⟩,
  ⟨"PROT_CLAMP", 0x0004, [], [
    ⟨Fld.PROT_CLAMP.COUNT, .ro, fun _ => 0, .none, false, false⟩]⟩,
  ⟨"PROT_UNITMAP0", 0x0008, [], [
    ⟨Fld.PROT_UNITMAP0.U0, .rwl, fun _ => 0, .codes 5 0xFFFFFFFF 4, true, false⟩,
    ⟨Fld.PROT_UNITMAP0.U1, .rwl, fun _ => 0, .codes 5 0xFFFFFFFF 4, true, false⟩,
    ⟨Fld.PROT_UNITMAP0.U2, .rwl, fun _ => 0, .codes 5 0xFFFFFFFF 4, true, false⟩,
    ⟨Fld.PROT_UNITMAP0.U3, .rwl, fun _ => 1, .codes 5 0xFFFFFFFF 4, true, false⟩,
    ⟨Fld.PROT_UNITMAP0.U4, .rwl, fun _ => 1, .codes 5 0xFFFFFFFF 4, true, false⟩,
    ⟨Fld.PROT_UNITMAP0.U5, .rwl, fun _ => 1, .codes 5 0xFFFFFFFF 4, true, false⟩,
    ⟨Fld.PROT_UNITMAP0.U6, .rwl, fun _ => 2, .codes 5 0xFFFFFFFF 4, true, false⟩,
    ⟨Fld.PROT_UNITMAP0.U7, .rwl, fun _ => 2, .codes 5 0xFFFFFFFF 4, true, false⟩]⟩,
  ⟨"PROT_UNITMAP1", 0x000C, [], [
    ⟨Fld.PROT_UNITMAP1.U8, .rwl, fun _ => 3, .codes 5 0xFFFFFFFF 4, true, false⟩,
    ⟨Fld.PROT_UNITMAP1.U9, .rwl, fun _ => 3, .codes 5 0xFFFFFFFF 4, true, false⟩,
    ⟨Fld.PROT_UNITMAP1.U10, .rwl, fun _ => 4, .codes 5 0xFFFFFFFF 4, true, false⟩,
    ⟨Fld.PROT_UNITMAP1.U11, .rwl, fun _ => 4, .codes 5 0xFFFFFFFF 4, true, false⟩,
    ⟨Fld.PROT_UNITMAP1.U12, .rwl, fun _ => 4, .codes 5 0xFFFFFFFF 4, true, false⟩,
    ⟨Fld.PROT_UNITMAP1.U13, .rwl, fun _ => 4, .codes 5 0xFFFFFFFF 4, true, false⟩,
    ⟨Fld.PROT_UNITMAP1.U14, .rwl, fun _ => 4, .codes 5 0xFFFFFFFF 4, true, false⟩,
    ⟨Fld.PROT_UNITMAP1.U15, .rwl, fun _ => 4, .codes 5 0xFFFFFFFF 4, true, false⟩]⟩,
  ⟨"PROT_LATCH_EXT", 0x0010, [], [
    ⟨Fld.PROT_LATCH_EXT.L, .ro, fun _ => 0, .none, false, false⟩]⟩,
  ⟨"PROT_LATCH_INT", 0x0014, [], [
    ⟨Fld.PROT_LATCH_INT.L, .ro, fun _ => 0, .none, false, false⟩]⟩,
  ⟨"PROT_LEVEL_EXT", 0x0018, [], [
    ⟨Fld.PROT_LEVEL_EXT.L, .ro, fun _ => 0, .none, false, false⟩]⟩,
  ⟨"PROT_LEVEL_INT", 0x001C, [], [
    ⟨Fld.PROT_LEVEL_INT.L, .ro, fun _ => 0, .none, false, false⟩]⟩,
  ⟨"PROT_CNT", 0x0020, [], [
    ⟨Fld.PROT_CNT.CLRREJ, .ro, fun _ => 0, .none, false, false⟩,
    ⟨Fld.PROT_CNT.CBC, .ro, fun _ => 0, .none, false, false⟩]⟩,
  ⟨"PROT_USTAT", 0x0024, [], [
    ⟨Fld.PROT_USTAT.SAFE, .ro, fun _ => 0x1F, .none, false, false⟩]⟩,
  ⟨"PROT_EXTn_CFG", 0x0100, [(0x04, 16)], [
    ⟨Fld.PROT_EXTn_CFG.FILT, .rwl, fun _ => 20, .below 1, true, false⟩,
    ⟨Fld.PROT_EXTn_CFG.POL, .rwl, fun _ => 1, .none, true, false⟩,
    ⟨Fld.PROT_EXTn_CFG.MODE, .rwl, fun _ => 0, .codes 3 0xFFFFFFFF 0, true, false⟩,
    ⟨Fld.PROT_EXTn_CFG.UNITS, .rwl, fun _ => 0x1F, .none, true, false⟩,
    ⟨Fld.PROT_EXTn_CFG.ACT, .rwl, fun _ => 0, .none, true, false⟩]⟩,
  ⟨"PROT_INTn_CFG", 0x0200, [(0x04, 24)], [
    ⟨Fld.PROT_INTn_CFG.FILT, .rwl, fun _ => 20, .cross, true, false⟩,
    ⟨Fld.PROT_INTn_CFG.POL, .rwl, fun _ => 0, .above 0, true, false⟩,
    ⟨Fld.PROT_INTn_CFG.MODE, .rwl, fun _ => 0, .cross, true, false⟩,
    ⟨Fld.PROT_INTn_CFG.UNITS, .rwl, fun _ => 0x1F, .none, true, false⟩,
    ⟨Fld.PROT_INTn_CFG.ACT, .rwl, fun n => if n = 13 ∨ n = 14 then 1 else 0, .none, true, false⟩]⟩,
  ⟨"PROT_CMPm_CFG", 0x0300, [(0x08, 12)], [
    ⟨Fld.PROT_CMPm_CFG.SEL, .rwl, fun n => n % 3, .above 11, true, false⟩,
    ⟨Fld.PROT_CMPm_CFG.HYS, .rw, fun _ => 4, .none, false, false⟩,
    ⟨Fld.PROT_CMPm_CFG.HIEN, .rwl, fun _ => 0, .none, true, false⟩,
    ⟨Fld.PROT_CMPm_CFG.LOEN, .rwl, fun _ => 0, .none, true, false⟩]⟩,
  ⟨"PROT_CMPm_THR", 0x0304, [(0x08, 12)], [
    ⟨Fld.PROT_CMPm_THR.LO, .rw, fun _ => 0, .cross, false, false⟩,
    ⟨Fld.PROT_CMPm_THR.HI, .rw, fun _ => 0x3FF, .none, false, false⟩]⟩,
  ⟨"PROT_BRb_CFG", 0x0400, [(0x20, 2)], [
    ⟨Fld.PROT_BRb_CFG.ASCSIDE, .rwl, fun _ => 0, .none, true, false⟩,
    ⟨Fld.PROT_BRb_CFG.SPDSRC, .rwl, fun n => n, .none, true, false⟩,
    ⟨Fld.PROT_BRb_CFG.NOVAL, .rwl, fun _ => 0, .none, true, false⟩,
    ⟨Fld.PROT_BRb_CFG.VDCIN, .rwl, fun n => if n = 0 then 6 else 18, .above 47, true, false⟩]⟩,
  ⟨"PROT_BRb_THR", 0x0404, [(0x20, 2)], [
    ⟨Fld.PROT_BRb_THR.HI, .rwl, fun _ => 243, .below 1, true, false⟩,
    ⟨Fld.PROT_BRb_THR.LO, .rwl, fun _ => 218, .cross, true, false⟩,
    ⟨Fld.PROT_BRb_THR.DWELL, .rwl, fun _ => 20, .below 1, true, false⟩]⟩] ++ [
  ⟨"PROT_BRb_KE", 0x0408, [(0x20, 2)], [
    ⟨Fld.PROT_BRb_KE.KE, .rwl, fun _ => 0, .realKe, true, false⟩]⟩,
  ⟨"PROT_BRb_STAT", 0x040C, [(0x20, 2)], [
    ⟨Fld.PROT_BRb_STAT.STATE, .ro, fun _ => 1, .none, false, false⟩,
    ⟨Fld.PROT_BRb_STAT.STAND, .ro, fun _ => 0, .none, false, false⟩,
    ⟨Fld.PROT_BRb_STAT.VALID, .ro, fun _ => 0, .none, false, false⟩,
    ⟨Fld.PROT_BRb_STAT.CAUSE, .ro, fun _ => 0x41, .none, false, false⟩]⟩,
  ⟨"PROT_DIS_CFG", 0x0800, [], [
    ⟨Fld.PROT_DIS_CFG.CIN, .rwl, fun _ => 29, .above 47, true, false⟩,
    ⟨Fld.PROT_DIS_CFG.VIN, .rwl, fun _ => 6, .above 47, true, false⟩,
    ⟨Fld.PROT_DIS_CFG.VDS, .rwl, fun _ => 7, .above 11, true, false⟩,
    ⟨Fld.PROT_DIS_CFG.VSRC, .rwl, fun _ => 0, .none, true, false⟩,
    ⟨Fld.PROT_DIS_CFG.FALLBACK, .rwl, fun _ => 1, .none, true, false⟩,
    ⟨Fld.PROT_DIS_CFG.AUTOF4, .rwl, fun _ => 0, .none, true, false⟩,
    ⟨Fld.PROT_DIS_CFG.TRIGEN, .rwl, fun _ => 0, .none, true, false⟩,
    ⟨Fld.PROT_DIS_CFG.TRIGSRC, .rwl, fun _ => 0, .none, true, false⟩]⟩,
  ⟨"PROT_DIS_RDIS", 0x0804, [], [
    ⟨Fld.PROT_DIS_RDIS.V, .rw, fun _ => 0, .realNonneg, false, false⟩]⟩,
  ⟨"PROT_DIS_PMAX", 0x0808, [], [
    ⟨Fld.PROT_DIS_PMAX.V, .rw, fun _ => 0, .realNonneg, false, false⟩]⟩,
  ⟨"PROT_DIS_EMAX", 0x080C, [], [
    ⟨Fld.PROT_DIS_EMAX.V, .rw, fun _ => 0, .realNonneg, false, false⟩]⟩,
  ⟨"PROT_DIS_CLINK", 0x0810, [], [
    ⟨Fld.PROT_DIS_CLINK.V, .rw, fun _ => 0, .realNonneg, false, false⟩]⟩,
  ⟨"PROT_DIS_IDDIS", 0x0814, [], [
    ⟨Fld.PROT_DIS_IDDIS.V, .rw, fun _ => 0, .realNonneg, false, false⟩]⟩,
  ⟨"PROT_DIS_VTGT", 0x0818, [], [
    ⟨Fld.PROT_DIS_VTGT.V, .rw, fun _ => 0x42700000, .realNonneg, false, false⟩]⟩,
  ⟨"PROT_DIS_AUTODL", 0x081C, [], [
    ⟨Fld.PROT_DIS_AUTODL.DL, .rw, fun _ => 2000, .range 10 60000, false, false⟩]⟩,
  ⟨"PROT_DIS_STAT", 0x0820, [], [
    ⟨Fld.PROT_DIS_STAT.STATE, .ro, fun _ => 0, .none, false, false⟩,
    ⟨Fld.PROT_DIS_STAT.RES, .ro, fun _ => 0, .none, false, false⟩,
    ⟨Fld.PROT_DIS_STAT.WIND, .ro, fun _ => 0, .none, false, false⟩,
    ⟨Fld.PROT_DIS_STAT.REASON, .ro, fun _ => 0, .none, false, false⟩]⟩,
  ⟨"PROT_DIS_EEST", 0x0824, [], [
    ⟨Fld.PROT_DIS_EEST.V, .ro, fun _ => 0, .none, false, false⟩]⟩,
  ⟨"PROT_DIS_ERES", 0x0828, [], [
    ⟨Fld.PROT_DIS_ERES.V, .ro, fun _ => 0, .none, false, false⟩]⟩,
  ⟨"PROT_DIS_TIME", 0x082C, [], [
    ⟨Fld.PROT_DIS_TIME.MS, .ro, fun _ => 0, .none, false, false⟩]⟩]

/-- Registers of the ACQ block (UNIT 0x07). -/
def regsACQ : List RegDesc := [
  ⟨"ACQ_CFG", 0x0000, [], [
    ⟨Fld.ACQ_CFG.RUN, .rwl, fun _ => 0, .none, true, false⟩]⟩,
  ⟨"ACQ_STAT", 0x0004, [], [
    ⟨Fld.ACQ_STAT.SP0, .ro, fun _ => 0, .none, false, false⟩,
    ⟨Fld.ACQ_STAT.SCORE0, .ro, fun _ => 0, .none, false, false⟩,
    ⟨Fld.ACQ_STAT.FAIL0, .ro, fun _ => 0, .none, false, false⟩,
    ⟨Fld.ACQ_STAT.SP1, .ro, fun _ => 0, .none, false, false⟩,
    ⟨Fld.ACQ_STAT.SCORE1, .ro, fun _ => 0, .none, false, false⟩,
    ⟨Fld.ACQ_STAT.FAIL1, .ro, fun _ => 0, .none, false, false⟩,
    ⟨Fld.ACQ_STAT.SP2, .ro, fun _ => 0, .none, false, false⟩,
    ⟨Fld.ACQ_STAT.SCORE2, .ro, fun _ => 0, .none, false, false⟩,
    ⟨Fld.ACQ_STAT.FAIL2, .ro, fun _ => 0, .none, false, false⟩,
    ⟨Fld.ACQ_STAT.SP3, .ro, fun _ => 0, .none, false, false⟩,
    ⟨Fld.ACQ_STAT.SCORE3, .ro, fun _ => 0, .none, false, false⟩,
    ⟨Fld.ACQ_STAT.FAIL3, .ro, fun _ => 0, .none, false, false⟩]⟩,
  ⟨"ACQ_CLAMP", 0x0008, [], [
    ⟨Fld.ACQ_CLAMP.COUNT, .ro, fun _ => 0, .none, false, false⟩]⟩,
  ⟨"ACQ_CMPSUB", 0x000C, [], [
    ⟨Fld.ACQ_CMPSUB.SUB, .ro, fun _ => 0, .none, false, false⟩,
    ⟨Fld.ACQ_CMPSUB.FAIL, .ro, fun _ => 0, .none, false, false⟩]⟩,
  ⟨"ACQ_SPCFG", 0x0010, [], [
    ⟨Fld.ACQ_SPCFG.WATCH, .rw, fun _ => 4096, .below 1, false, false⟩,
    ⟨Fld.ACQ_SPCFG.SHTOL, .rw, fun _ => 24, .below 1, false, false⟩]⟩,
  ⟨"ACQ_GRPg_CFG", 0x0100, [(0x40, 4)], [
    ⟨Fld.ACQ_GRPg_CFG.SMP, .rwl, fun _ => 4, .below 4, true, false⟩,
    ⟨Fld.ACQ_GRPg_CFG.LEN0, .rwl, fun _ => 3, .none, true, false⟩,
    ⟨Fld.ACQ_GRPg_CFG.LEN1, .rwl, fun _ => 3, .none, true, false⟩,
    ⟨Fld.ACQ_GRPg_CFG.LEN2, .rwl, fun _ => 3, .none, true, false⟩,
    ⟨Fld.ACQ_GRPg_CFG.UNITS, .rwl, fun n => if n = 0 then 1 else if n = 1 then 2 else if n = 2 then 0x1C else 0, .none, true, false⟩]⟩,
  ⟨"ACQ_GRPg_DIAG", 0x0104, [(0x40, 4)], [
    ⟨Fld.ACQ_GRPg_DIAG.TDAC, .rw, fun _ => 0x800, .none, false, false⟩,
    ⟨Fld.ACQ_GRPg_DIAG.TOL, .rw, fun _ => 32, .below 1, false, false⟩,
    ⟨Fld.ACQ_GRPg_DIAG.DIAGN, .rw, fun _ => 3, .below 1, false, false⟩]⟩,
  ⟨"ACQ_GRPg_SUMCFG", 0x0108, [(0x40, 4)], [
    ⟨Fld.ACQ_GRPg_SUMCFG.EN, .rw, fun _ => 0, .none, false, false⟩,
    ⟨Fld.ACQ_GRPg_SUMCFG.IN0, .rw, fun _ => 0, .above 11, false, false⟩,
    ⟨Fld.ACQ_GRPg_SUMCFG.IN1, .rw, fun _ => 1, .above 11, false, false⟩,
    ⟨Fld.ACQ_GRPg_SUMCFG.IN2, .rw, fun _ => 2, .above 11, false, false⟩,
    ⟨Fld.ACQ_GRPg_SUMCFG.N, .rw, fun _ => 4, .below 1, false, false⟩]⟩,
  ⟨"ACQ_GRPg_SUMTOL", 0x010C, [(0x40, 4)], [
    ⟨Fld.ACQ_GRPg_SUMTOL.V, .rw, fun _ => 0, .realAny, false, false⟩]⟩,
  ⟨"ACQ_GRPg_URGCFG", 0x0110, [(0x40, 4)], [
    ⟨Fld.ACQ_GRPg_URGCFG.SRC, .rw, fun _ => 0, .codes 5 0xFFFFFFFF 0, false, false⟩,
    ⟨Fld.ACQ_GRPg_URGCFG.INPUT, .rw, fun _ => 0, .above 14, false, false⟩,
    ⟨Fld.ACQ_GRPg_URGCFG.CMP, .rw, fun _ => 0, .above 2, false, false⟩,
    ⟨Fld.ACQ_GRPg_URGCFG.TB, .rw, fun _ => 0, .none, false, false⟩,
    ⟨Fld.ACQ_GRPg_URGCFG.SMP, .rw, fun _ => 4, .below 4, false, false⟩]⟩,
  ⟨"ACQ_GRPg_URGCNT", 0x0114, [(0x40, 4)], [
    ⟨Fld.ACQ_GRPg_URGCNT.CNT, .rw, fun _ => 0, .none, false, false⟩]⟩,
  ⟨"ACQ_GRPg_URGGO", 0x0118, [(0x40, 4)], [
    ⟨Fld.ACQ_GRPg_URGGO.GO, .wo, fun _ => 0, .none, false, false⟩]⟩,
  ⟨"ACQ_GRPg_URGRES", 0x011C, [(0x40, 4)], [
    ⟨Fld.ACQ_GRPg_URGRES.CODE, .ro, fun _ => 0, .none, false, false⟩,
    ⟨Fld.ACQ_GRPg_URGRES.SRC, .ro, fun _ => 0, .none, false, false⟩,
    ⟨Fld.ACQ_GRPg_URGRES.SEQ, .ro, fun _ => 0, .none, false, false⟩]⟩,
  ⟨"ACQ_GRPg_URGVAL", 0x0120, [(0x40, 4)], [
    ⟨Fld.ACQ_GRPg_URGVAL.V, .ro, fun _ => 0, .none, false, false⟩]⟩,
  ⟨"ACQ_GRPg_URGTICK", 0x0124, [(0x40, 4)], [
    ⟨Fld.ACQ_GRPg_URGTICK.TICK, .ro, fun _ => 0, .none, false, false⟩]⟩,
  ⟨"ACQ_GRPg_URGOFS", 0x0128, [(0x40, 4)], [
    ⟨Fld.ACQ_GRPg_URGOFS.OFS, .ro, fun _ => 0, .none, false, false⟩]⟩] ++ [
  ⟨"ACQ_GRPg_URGSTAT", 0x012C, [(0x40, 4)], [
    ⟨Fld.ACQ_GRPg_URGSTAT.DROP, .ro, fun _ => 0, .none, false, false⟩,
    ⟨Fld.ACQ_GRPg_URGSTAT.DONE, .ro, fun _ => 0, .none, false, false⟩]⟩,
  ⟨"ACQ_GRPg_DIAGCNT", 0x0130, [(0x40, 4)], [
    ⟨Fld.ACQ_GRPg_DIAGCNT.C0, .ro, fun _ => 0, .none, false, false⟩,
    ⟨Fld.ACQ_GRPg_DIAGCNT.C1, .ro, fun _ => 0, .none, false, false⟩,
    ⟨Fld.ACQ_GRPg_DIAGCNT.C2, .ro, fun _ => 0, .none, false, false⟩,
    ⟨Fld.ACQ_GRPg_DIAGCNT.SP, .ro, fun _ => 0, .none, false, false⟩]⟩,
  ⟨"ACQ_SEQa_e", 0x0400, [(0x40, 12), (0x04, 16)], [
    ⟨Fld.ACQ_SEQa_e.INPUT, .rwl, fun n => if n % 16 < 4 then 3 * (n % 16) + (n / 16) % 3 else 15, .none, true, false⟩]⟩,
  ⟨"ACQ_INk_GAIN", 0x0800, [(0x10, 48)], [
    ⟨Fld.ACQ_INk_GAIN.V, .rw, fun _ => 0x3F800000, .realAny, false, false⟩]⟩,
  ⟨"ACQ_INk_OFF", 0x0804, [(0x10, 48)], [
    ⟨Fld.ACQ_INk_OFF.V, .rw, fun _ => 0, .realAny, false, false⟩]⟩,
  ⟨"ACQ_INk_CFG", 0x0808, [(0x10, 48)], [
    ⟨Fld.ACQ_INk_CFG.MINCNT, .rw, fun _ => 1, .below 1, false, false⟩,
    ⟨Fld.ACQ_INk_CFG.SATCHK, .rw, fun _ => 0, .none, false, false⟩]⟩,
  ⟨"ACQ_INk_LAST", 0x080C, [(0x10, 48)], [
    ⟨Fld.ACQ_INk_LAST.CODE, .ro, fun _ => 0, .none, false, false⟩]⟩,
  ⟨"ACQ_Ea_e_RES", 0x2000, [(0x100, 12), (0x10, 16)], [
    ⟨Fld.ACQ_Ea_e_RES.CODE, .ro, fun _ => 0, .none, false, false⟩,
    ⟨Fld.ACQ_Ea_e_RES.NCONV, .ro, fun _ => 0, .none, false, false⟩]⟩,
  ⟨"ACQ_Ea_e_WSUM", 0x2004, [(0x100, 12), (0x10, 16)], [
    ⟨Fld.ACQ_Ea_e_WSUM.SUM, .ro, fun _ => 0, .none, false, false⟩]⟩,
  ⟨"ACQ_Ea_e_WCNT", 0x2008, [(0x100, 12), (0x10, 16)], [
    ⟨Fld.ACQ_Ea_e_WCNT.COUNT, .ro, fun _ => 0, .none, false, false⟩,
    ⟨Fld.ACQ_Ea_e_WCNT.SAT, .ro, fun _ => 0, .none, false, false⟩,
    ⟨Fld.ACQ_Ea_e_WCNT.LOST, .ro, fun _ => 0, .none, false, false⟩,
    ⟨Fld.ACQ_Ea_e_WCNT.FULL, .ro, fun _ => 0, .none, false, false⟩]⟩,
  ⟨"ACQ_Ea_e_WMM", 0x200C, [(0x100, 12), (0x10, 16)], [
    ⟨Fld.ACQ_Ea_e_WMM.MIN, .ro, fun _ => 0, .none, false, false⟩,
    ⟨Fld.ACQ_Ea_e_WMM.MAX, .ro, fun _ => 0, .none, false, false⟩]⟩,
  ⟨"ACQ_DSc_CFG", 0x3000, [(0x20, 12)], [
    ⟨Fld.ACQ_DSc_CFG.MODE, .rwl, fun _ => 0, .codes 3 0xFFFFFFFF 0, true, false⟩,
    ⟨Fld.ACQ_DSc_CFG.CLK, .rwl, fun n => if n < 3 then 0 else if n < 6 then 1 else if n < 8 then 2 else 3, .none, true, false⟩,
    ⟨Fld.ACQ_DSc_CFG.EDGE, .rwl, fun _ => 0, .none, true, false⟩,
    ⟨Fld.ACQ_DSc_CFG.DLY, .rwl, fun _ => 0, .none, true, false⟩,
    ⟨Fld.ACQ_DSc_CFG.OSR, .rw, fun _ => 0, .cross, false, false⟩,
    ⟨Fld.ACQ_DSc_CFG.LIMEN, .rw, fun _ => 0, .none, false, false⟩,
    ⟨Fld.ACQ_DSc_CFG.UNITS, .rwl, fun _ => 0, .none, true, false⟩]⟩,
  ⟨"ACQ_DSc_GAIN", 0x3004, [(0x20, 12)], [
    ⟨Fld.ACQ_DSc_GAIN.V, .rw, fun _ => 0x3F800000, .realAny, false, false⟩]⟩,
  ⟨"ACQ_DSc_OFF", 0x3008, [(0x20, 12)], [
    ⟨Fld.ACQ_DSc_OFF.V, .rw, fun _ => 0x3F000000, .realAny, false, false⟩]⟩,
  ⟨"ACQ_DSc_LIMHI", 0x300C, [(0x20, 12)], [
    ⟨Fld.ACQ_DSc_LIMHI.V, .rw, fun _ => 0, .realAny, false, false⟩]⟩,
  ⟨"ACQ_DSc_LIMLO", 0x3010, [(0x20, 12)], [
    ⟨Fld.ACQ_DSc_LIMLO.V, .rw, fun _ => 0, .cross, false, false⟩]⟩] ++ [
  ⟨"ACQ_DSc_WIN", 0x3014, [(0x20, 12)], [
    ⟨Fld.ACQ_DSc_WIN.ONES, .ro, fun _ => 0, .none, false, false⟩,
    ⟨Fld.ACQ_DSc_WIN.BITS, .ro, fun _ => 0, .none, false, false⟩]⟩,
  ⟨"ACQ_DSc_STAT", 0x3018, [(0x20, 12)], [
    ⟨Fld.ACQ_DSc_STAT.MERR, .ro, fun _ => 0, .none, false, false⟩,
    ⟨Fld.ACQ_DSc_STAT.VALID, .ro, fun _ => 0, .none, false, false⟩]⟩,
  ⟨"ACQ_DSc_SINC", 0x301C, [(0x20, 12)], [
    ⟨Fld.ACQ_DSc_SINC.V, .ro, fun _ => 0, .none, false, false⟩]⟩,
  ⟨"ACQ_SDCLKn_CFG", 0x3400, [(0x04, 4)], [
    ⟨Fld.ACQ_SDCLKn_CFG.DIV, .rwl, fun _ => 20, .range 10 200, true, false⟩,
    ⟨Fld.ACQ_SDCLKn_CFG.EN, .rwl, fun _ => 0, .none, true, false⟩]⟩]

/-- Registers of the POS block (UNIT 0x08). -/
def regsPOS : List RegDesc := [
  ⟨"POS_CFG", 0x0000, [], [
    ⟨Fld.POS_CFG.PAIRED, .rwl, fun _ => 0, .none, true, false⟩,
    ⟨Fld.POS_CFG.NDIS, .rwl, fun _ => 4, .below 1, true, false⟩,
    ⟨Fld.POS_CFG.READMIT_T, .rwl, fun _ => 64, .below 1, true, false⟩]⟩,
  ⟨"POS_AGREE", 0x0004, [], [
    ⟨Fld.POS_AGREE.AGREE, .rwl, fun _ => 59652324, .below 1, false, false⟩]⟩,
  ⟨"POS_DIRHYS", 0x0008, [], [
    ⟨Fld.POS_DIRHYS.V, .rw, fun _ => 0x40A00000, .realNonneg, false, false⟩]⟩,
  ⟨"POS_CLAMP", 0x000C, [], [
    ⟨Fld.POS_CLAMP.COUNT, .ro, fun _ => 0, .none, false, false⟩]⟩,
  ⟨"POS_SENSVn_CFG", 0x0010, [(0x04, 2)], [
    ⟨Fld.POS_SENSVn_CFG.EN, .rw, fun _ => 0, .none, false, false⟩,
    ⟨Fld.POS_SENSVn_CFG.FAULT, .ro, fun _ => 0, .none, false, false⟩]⟩,
  ⟨"POS_CHc_CFG", 0x0100, [(0x100, 2)], [
    ⟨Fld.POS_CHc_CFG.MODE, .rwl, fun _ => 0, .codes 7 0xFFFFFFFF 0, true, false⟩,
    ⟨Fld.POS_CHc_CFG.EMUL, .rwl, fun _ => 1, .range 1 32, true, false⟩,
    ⟨Fld.POS_CHc_CFG.DIRINV, .rwl, fun _ => 0, .none, true, false⟩,
    ⟨Fld.POS_CHc_CFG.ZREQ, .rwl, fun _ => 0, .none, true, false⟩,
    ⟨Fld.POS_CHc_CFG.SUPPLY, .rwl, fun n => n + 1, .codes 3 0xFFFFFFFF 0, true, false⟩]⟩,
  ⟨"POS_CHc_OFFSET", 0x0104, [(0x100, 2)], [
    ⟨Fld.POS_CHc_OFFSET.OFFSET, .rw, fun _ => 0, .none, false, false⟩]⟩,
  ⟨"POS_CHc_OBS", 0x0108, [(0x100, 2)], [
    ⟨Fld.POS_CHc_OBS.BW, .rw, fun _ => 500, .range 1 2000, false, false⟩,
    ⟨Fld.POS_CHc_OBS.CTIME, .rw, fun _ => 20, .range 1 200, false, false⟩,
    ⟨Fld.POS_CHc_OBS.RSLEW, .rw, fun _ => 64, .below 1, false, false⟩]⟩,
  ⟨"POS_CHc_FILT", 0x010C, [(0x100, 2)], [
    ⟨Fld.POS_CHc_FILT.MINEI, .rw, fun _ => 10, .below 1, false, false⟩,
    ⟨Fld.POS_CHc_FILT.RATEMAX, .rw, fun _ => 4096, .below 1, false, false⟩]⟩,
  ⟨"POS_CHc_ABZ", 0x0110, [(0x100, 2)], [
    ⟨Fld.POS_CHc_ABZ.LINES, .rwl, fun _ => 1024, .below 4, false, false⟩,
    ⟨Fld.POS_CHc_ABZ.ZTOL, .rw, fun _ => 2, .none, false, false⟩,
    ⟨Fld.POS_CHc_ABZ.ZERRN, .rw, fun _ => 3, .below 1, false, false⟩]⟩,
  ⟨"POS_CHc_RES", 0x0114, [(0x100, 2)], [
    ⟨Fld.POS_CHc_RES.FEXC, .rw, fun _ => 10, .range 2 20, false, false⟩,
    ⟨Fld.POS_CHc_RES.EXCAMP, .rw, fun _ => 28, .range 8 56, false, false⟩,
    ⟨Fld.POS_CHc_RES.EXCPH, .rw, fun _ => 0, .none, false, false⟩,
    ⟨Fld.POS_CHc_RES.AMIN, .rw, fun _ => 3, .none, false, false⟩,
    ⟨Fld.POS_CHc_RES.AMAX, .rw, fun _ => 12, .cross, false, false⟩]⟩,
  ⟨"POS_CHc_SENT", 0x0118, [(0x100, 2)], [
    ⟨Fld.POS_CHc_SENT.TICK, .rw, fun _ => 120, .range 20 3600, false, false⟩,
    ⟨Fld.POS_CHc_SENT.ANGNIB, .rw, fun _ => 1, .range 1 6, false, false⟩,
    ⟨Fld.POS_CHc_SENT.ANGW, .rw, fun _ => 0, .none, false, false⟩,
    ⟨Fld.POS_CHc_SENT.CRCLEG, .rw, fun _ => 0, .none, false, false⟩,
    ⟨Fld.POS_CHc_SENT.PAUSE, .rw, fun _ => 0, .none, false, false⟩,
    ⟨Fld.POS_CHc_SENT.CMPL, .rw, fun _ => 0, .cross, false, false⟩,
    ⟨Fld.POS_CHc_SENT.FTMO, .rw, fun _ => 10, .below 1, false, false⟩]⟩,
  ⟨"POS_CHc_SSI", 0x011C, [(0x100, 2)], [
    ⟨Fld.POS_CHc_SSI.CLK, .rw, fun _ => 100, .range 10 1000, false, false⟩,
    ⟨Fld.POS_CHc_SSI.LEN, .rw, fun _ => 13, .range 1 32, false, false⟩,
    ⟨Fld.POS_CHc_SSI.ANGPOS, .rw, fun _ => 0, .cross, false, false⟩,
    ⟨Fld.POS_CHc_SSI.ANGW, .rw, fun _ => 13, .cross, false, false⟩,
    ⟨Fld.POS_CHc_SSI.GRAY, .rw, fun _ => 1, .none, false, false⟩,
    ⟨Fld.POS_CHc_SSI.ERREN, .rw, fun _ => 0, .none, false, false⟩,
    ⟨Fld.POS_CHc_SSI.TRIG, .rw, fun _ => 0, .none, false, false⟩]⟩,
  ⟨"POS_CHc_SSI2", 0x0120, [(0x100, 2)], [
    ⟨Fld.POS_CHc_SSI2.OFS, .rw, fun _ => 0, .none, false, false⟩,
    ⟨Fld.POS_CHc_SSI2.LAT, .rw, fun _ => 0, .none, false, false⟩,
    ⟨Fld.POS_CHc_SSI2.TM, .rw, fun _ => 4, .below 1, false, false⟩]⟩,
  ⟨"POS_CHc_CNT", 0x0124, [(0x100, 2)], [
    ⟨Fld.POS_CHc_CNT.CNT, .ro, fun _ => 0, .none, false, false⟩,
    ⟨Fld.POS_CHc_CNT.WRAP, .w1c, fun _ => 0, .none, false, false⟩,
    ⟨Fld.POS_CHc_CNT.WDIR, .ro, fun _ => 0, .none, false, false⟩]⟩,
  ⟨"POS_CHc_STAT", 0x0128, [(0x100, 2)], [
    ⟨Fld.POS_CHc_STAT.STATE, .ro, fun _ => 0, .none, false, false⟩,
    ⟨Fld.POS_CHc_STAT.CAUSE, .ro, fun _ => 0, .none, false, false⟩,
    ⟨Fld.POS_CHc_STAT.IDXSEEN, .ro, fun _ => 0, .none, false, false⟩,
    ⟨Fld.POS_CHc_STAT.OUTV, .ro, fun _ => 0, .none, false, false⟩,
    ⟨Fld.POS_CHc_STAT.EXCLIM, .ro, fun _ => 0, .none, false, false⟩]⟩] ++ [
  ⟨"POS_CHc_ERR", 0x012C, [(0x100, 2)], [
    ⟨Fld.POS_CHc_ERR.DSTEP, .ro, fun _ => 0, .none, false, false⟩,
    ⟨Fld.POS_CHc_ERR.GLITCH, .ro, fun _ => 0, .none, false, false⟩,
    ⟨Fld.POS_CHc_ERR.IDXERR, .ro, fun _ => 0, .none, false, false⟩,
    ⟨Fld.POS_CHc_ERR.CRCERR, .ro, fun _ => 0, .none, false, false⟩]⟩,
  ⟨"POS_CHc_ZCNT", 0x0130, [(0x100, 2)], [
    ⟨Fld.POS_CHc_ZCNT.ZCNT, .ro, fun _ => 0, .none, false, false⟩,
    ⟨Fld.POS_CHc_ZCNT.STALE, .ro, fun _ => 0, .none, false, false⟩]⟩,
  ⟨"POS_CHc_SLOW", 0x0134, [(0x100, 2)], [
    ⟨Fld.POS_CHc_SLOW.ID, .ro, fun _ => 0, .none, false, false⟩,
    ⟨Fld.POS_CHc_SLOW.DATA, .ro, fun _ => 0, .none, false, false⟩,
    ⟨Fld.POS_CHc_SLOW.NEW, .w1c, fun _ => 0, .none, false, false⟩]⟩]

/-- Registers of the FLD block (UNIT 0x09). -/
def regsFLD : List RegDesc := [
  ⟨"FLD_CFG", 0x0000, [], [
    ⟨Fld.FLD_CFG.GUARD, .rw, fun _ => 364, .none, false, false⟩]⟩,
  ⟨"FLD_CLAMP", 0x0004, [], [
    ⟨Fld.FLD_CLAMP.COUNT, .ro, fun _ => 0, .none, false, false⟩]⟩,
  ⟨"FLD_MCm_CFG", 0x0100, [(0x80, 2)], [
    ⟨Fld.FLD_MCm_CFG.ANGSRC, .rwl, fun n => n, .none, true, false⟩,
    ⟨Fld.FLD_MCm_CFG.ESTEN, .rw, fun _ => 1, .none, false, false⟩,
    ⟨Fld.FLD_MCm_CFG.WRSM, .rwl, fun _ => 0, .none, true, false⟩,
    ⟨Fld.FLD_MCm_CFG.HFIEN, .rw, fun _ => 0, .none, false, false⟩,
    ⟨Fld.FLD_MCm_CFG.AUTOCATCH, .rw, fun _ => 1, .none, false, false⟩,
    ⟨Fld.FLD_MCm_CFG.PADV, .rwl, fun _ => 31, .none, true, false⟩]⟩,
  ⟨"FLD_MCm_START", 0x0104, [(0x80, 2)], [
    ⟨Fld.FLD_MCm_START.FSWATCH, .rw, fun _ => 5, .range 2 20, false, false⟩,
    ⟨Fld.FLD_MCm_START.RETRIES, .rw, fun _ => 3, .none, false, false⟩,
    ⟨Fld.FLD_MCm_START.BACKANG, .rw, fun _ => 16, .none, false, false⟩,
    ⟨Fld.FLD_MCm_START.POLRET, .rw, fun _ => 2, .none, false, false⟩,
    ⟨Fld.FLD_MCm_START.IFEN, .rw, fun _ => 0, .none, false, false⟩]⟩,
  ⟨"FLD_MCm_HO", 0x0108, [(0x80, 2)], [
    ⟨Fld.FLD_MCm_HO.HOLIM, .rw, fun _ => 1820, .below 1, false, false⟩,
    ⟨Fld.FLD_MCm_HO.HOTMO, .rw, fun _ => 16, .below 1, false, false⟩,
    ⟨Fld.FLD_MCm_HO.NLOST, .rw, fun _ => 8, .below 1, false, false⟩]⟩,
  ⟨"FLD_MCm_BW", 0x010C, [(0x80, 2)], [
    ⟨Fld.FLD_MCm_BW.BWE, .rw, fun _ => 100, .range 1 1000, false, false⟩,
    ⟨Fld.FLD_MCm_BW.BWH, .rw, fun _ => 50, .range 1 1000, false, false⟩,
    ⟨Fld.FLD_MCm_BW.RCRST, .rw, fun _ => 10, .below 1, false, false⟩]⟩,
  ⟨"FLD_MCm_INP", 0x0110, [(0x80, 2)], [
    ⟨Fld.FLD_MCm_INP.IA, .rwl, fun n => 12 * n, .above 47, true, false⟩,
    ⟨Fld.FLD_MCm_INP.IB, .rwl, fun n => 12 * n + 1, .above 47, true, false⟩,
    ⟨Fld.FLD_MCm_INP.IC, .rwl, fun n => 12 * n + 2, .above 47, true, false⟩,
    ⟨Fld.FLD_MCm_INP.FIN, .rwl, fun _ => 27, .above 47, true, false⟩]⟩,
  ⟨"FLD_MCm_VIN", 0x0114, [(0x80, 2)], [
    ⟨Fld.FLD_MCm_VIN.VA, .rwl, fun n => 12 * n + 3, .above 47, false, false⟩,
    ⟨Fld.FLD_MCm_VIN.VB, .rwl, fun n => 12 * n + 4, .above 47, false, false⟩,
    ⟨Fld.FLD_MCm_VIN.VC, .rwl, fun n => 12 * n + 5, .above 47, false, false⟩]⟩,
  ⟨"FLD_MCm_DIR", 0x0118, [(0x80, 2)], [
    ⟨Fld.FLD_MCm_DIR.DIRREQ, .rw, fun _ => 0, .codes 3 0xFFFFFFFF 0, false, false⟩]⟩,
  ⟨"FLD_MCm_STAT", 0x011C, [(0x80, 2)], [
    ⟨Fld.FLD_MCm_STAT.MODE, .ro, fun _ => 0, .none, false, false⟩,
    ⟨Fld.FLD_MCm_STAT.SRC, .ro, fun _ => 0, .none, false, false⟩,
    ⟨Fld.FLD_MCm_STAT.START, .ro, fun _ => 0, .none, false, false⟩,
    ⟨Fld.FLD_MCm_STAT.ATTEMPT, .ro, fun _ => 0, .none, false, false⟩,
    ⟨Fld.FLD_MCm_STAT.LOST, .ro, fun _ => 0, .none, false, false⟩,
    ⟨Fld.FLD_MCm_STAT.SIXSTEP, .ro, fun _ => 0, .none, false, false⟩,
    ⟨Fld.FLD_MCm_STAT.SECTOR, .ro, fun _ => 0, .none, false, false⟩,
    ⟨Fld.FLD_MCm_STAT.DEFER, .ro, fun _ => 0, .none, false, false⟩,
    ⟨Fld.FLD_MCm_STAT.RETRY, .ro, fun _ => 0, .none, false, false⟩]⟩,
  ⟨"FLD_MCm_RS", 0x0120, [(0x80, 2)], [
    ⟨Fld.FLD_MCm_RS.V, .rw, fun _ => 0x3C23D70A, .realNonneg, false, false⟩]⟩,
  ⟨"FLD_MCm_LD", 0x0124, [(0x80, 2)], [
    ⟨Fld.FLD_MCm_LD.V, .rw, fun _ => 0x38D1B717, .realNonneg, false, false⟩]⟩,
  ⟨"FLD_MCm_LQ", 0x0128, [(0x80, 2)], [
    ⟨Fld.FLD_MCm_LQ.V, .rw, fun _ => 0x3951B717, .cross, false, false⟩]⟩,
  ⟨"FLD_MCm_VHFI", 0x012C, [(0x80, 2)], [
    ⟨Fld.FLD_MCm_VHFI.V, .rw, fun _ => 0x41A00000, .realNonneg, false, false⟩]⟩,
  ⟨"FLD_MCm_WCATCH", 0x0130, [(0x80, 2)], [
    ⟨Fld.FLD_MCm_WCATCH.V, .rw, fun _ => 0x43480000, .realNonneg, false, false⟩]⟩,
  ⟨"FLD_MCm_WB1", 0x0134, [(0x80, 2)], [
    ⟨Fld.FLD_MCm_WB1.V, .rw, fun _ => 0x43960000, .realNonneg, false, false⟩]⟩] ++ [
  ⟨"FLD_MCm_WB2", 0x0138, [(0x80, 2)], [
    ⟨Fld.FLD_MCm_WB2.V, .rw, fun _ => 0x44160000, .cross, false, false⟩]⟩,
  ⟨"FLD_MCm_EMIN", 0x013C, [(0x80, 2)], [
    ⟨Fld.FLD_MCm_EMIN.V, .rw, fun _ => 0x40A00000, .realNonneg, false, false⟩]⟩,
  ⟨"FLD_MCm_RESLIM", 0x0140, [(0x80, 2)], [
    ⟨Fld.FLD_MCm_RESLIM.V, .rw, fun _ => 0x3EB33333, .realNonneg, false, false⟩]⟩,
  ⟨"FLD_MCm_POLV", 0x0144, [(0x80, 2)], [
    ⟨Fld.FLD_MCm_POLV.V, .rw, fun _ => 0x42200000, .realNonneg, false, false⟩]⟩,
  ⟨"FLD_MCm_IFI", 0x0148, [(0x80, 2)], [
    ⟨Fld.FLD_MCm_IFI.V, .rw, fun _ => 0x42480000, .realNonneg, false, false⟩]⟩,
  ⟨"FLD_MCm_IFACC", 0x014C, [(0x80, 2)], [
    ⟨Fld.FLD_MCm_IFACC.V, .rw, fun _ => 0x44FA0000, .realNonneg, false, false⟩]⟩,
  ⟨"FLD_MCm_IFW", 0x0150, [(0x80, 2)], [
    ⟨Fld.FLD_MCm_IFW.V, .rw, fun _ => 0x43C80000, .realNonneg, false, false⟩]⟩,
  ⟨"FLD_MCm_IFLOSS", 0x0154, [(0x80, 2)], [
    ⟨Fld.FLD_MCm_IFLOSS.V, .rw, fun _ => 0x40000000, .realNonneg, false, false⟩]⟩,
  ⟨"FLD_EVs_ANG", 0x0800, [(0x10, 16)], [
    ⟨Fld.FLD_EVs_ANG.E, .rw, fun _ => 0, .none, false, false⟩]⟩,
  ⟨"FLD_EVs_ACT", 0x0804, [(0x10, 16)], [
    ⟨Fld.FLD_EVs_ACT.ACT, .rw, fun _ => 0, .codes 5 0xFFFFFFFF 3, false, false⟩,
    ⟨Fld.FLD_EVs_ACT.MACH, .rw, fun _ => 0, .none, false, false⟩,
    ⟨Fld.FLD_EVs_ACT.REP, .rw, fun _ => 0, .none, false, false⟩,
    ⟨Fld.FLD_EVs_ACT.GRP, .rw, fun _ => 0, .none, false, false⟩,
    ⟨Fld.FLD_EVs_ACT.POST, .rw, fun _ => 0, .none, false, false⟩,
    ⟨Fld.FLD_EVs_ACT.PAIRS, .rw, fun _ => 0, .none, false, false⟩]⟩,
  ⟨"FLD_EVs_STAT", 0x0808, [(0x10, 16)], [
    ⟨Fld.FLD_EVs_STAT.ARMED, .ro, fun _ => 0, .none, false, false⟩,
    ⟨Fld.FLD_EVs_STAT.LATE, .w1c, fun _ => 0, .none, false, false⟩,
    ⟨Fld.FLD_EVs_STAT.FIRES, .ro, fun _ => 0, .none, false, false⟩]⟩]

/-- Registers of the WGH block (UNIT 0x0A). -/
def regsWGH : List RegDesc := [
  ⟨"WGH_CLAMP", 0x0000, [], [
    ⟨Fld.WGH_CLAMP.COUNT, .ro, fun _ => 0, .none, false, false⟩]⟩,
  ⟨"WGH_MCm_CFG", 0x0100, [(0x80, 2)], [
    ⟨Fld.WGH_MCm_CFG.EN, .rwl, fun _ => 0, .cross, false, false⟩,
    ⟨Fld.WGH_MCm_CFG.ANGSRC, .rwl, fun _ => 3, .codes 2 2 3, false, false⟩,
    ⟨Fld.WGH_MCm_CFG.BLINDSAFE, .rwl, fun _ => 0, .none, false, false⟩,
    ⟨Fld.WGH_MCm_CFG.NBAND, .rwl, fun _ => 8, .below 1, false, false⟩,
    ⟨Fld.WGH_MCm_CFG.NSIGN, .rwl, fun _ => 2, .below 1, false, false⟩,
    ⟨Fld.WGH_MCm_CFG.NPRI, .rwl, fun _ => 16, .below 1, false, false⟩]⟩,
  ⟨"WGH_MCm_IN", 0x0104, [(0x80, 2)], [
    ⟨Fld.WGH_MCm_IN.CHU, .rwl, fun n => 3 * n, .above 11, false, false⟩,
    ⟨Fld.WGH_MCm_IN.CHV, .rwl, fun n => 3 * n + 1, .above 11, false, false⟩,
    ⟨Fld.WGH_MCm_IN.CHW, .rwl, fun n => 3 * n + 2, .above 11, false, false⟩,
    ⟨Fld.WGH_MCm_IN.CHU2, .rwl, fun _ => 3, .above 11, false, false⟩,
    ⟨Fld.WGH_MCm_IN.CHV2, .rwl, fun _ => 4, .above 11, false, false⟩,
    ⟨Fld.WGH_MCm_IN.CHW2, .rwl, fun _ => 5, .above 11, false, false⟩,
    ⟨Fld.WGH_MCm_IN.FINCH, .rwl, fun _ => 6, .above 11, false, false⟩]⟩,
  ⟨"WGH_MCm_KT", 0x0108, [(0x80, 2)], [
    ⟨Fld.WGH_MCm_KT.V, .rwl, fun _ => 0, .realNonneg, false, false⟩]⟩,
  ⟨"WGH_MCm_MF", 0x010C, [(0x80, 2)], [
    ⟨Fld.WGH_MCm_MF.V, .rwl, fun _ => 0, .realNonneg, false, false⟩]⟩,
  ⟨"WGH_MCm_WSPDk", 0x0110, [(0x80, 2), (0x04, 4)], [
    ⟨Fld.WGH_MCm_WSPDk.V, .rwl, fun _ => 0, .cross, false, false⟩]⟩,
  ⟨"WGH_MCm_BANDk", 0x0120, [(0x80, 2), (0x04, 4)], [
    ⟨Fld.WGH_MCm_BANDk.V, .rwl, fun _ => 0, .realNonneg, false, false⟩]⟩,
  ⟨"WGH_MCm_BANDP", 0x0130, [(0x80, 2)], [
    ⟨Fld.WGH_MCm_BANDP.V, .rwl, fun _ => 0, .realNonneg, false, false⟩]⟩,
  ⟨"WGH_MCm_SIGNMIN", 0x0134, [(0x80, 2)], [
    ⟨Fld.WGH_MCm_SIGNMIN.V, .rwl, fun _ => 0x41200000, .realNonneg, false, false⟩]⟩,
  ⟨"WGH_MCm_TAU", 0x0138, [(0x80, 2)], [
    ⟨Fld.WGH_MCm_TAU.V, .rwl, fun _ => 0x3A83126F, .realNonneg, false, false⟩]⟩,
  ⟨"WGH_MCm_TSTART", 0x013C, [(0x80, 2)], [
    ⟨Fld.WGH_MCm_TSTART.V, .rwl, fun _ => 0, .realNonneg, false, false⟩]⟩,
  ⟨"WGH_MCm_STAT", 0x0140, [(0x80, 2)], [
    ⟨Fld.WGH_MCm_STAT.STATE, .ro, fun _ => 0, .none, false, false⟩,
    ⟨Fld.WGH_MCm_STAT.BANDC, .ro, fun _ => 0, .none, false, false⟩,
    ⟨Fld.WGH_MCm_STAT.PRIC, .ro, fun _ => 0, .none, false, false⟩,
    ⟨Fld.WGH_MCm_STAT.PDIS, .ro, fun _ => 0, .none, false, false⟩]⟩,
  ⟨"WGH_MCm_CNT", 0x0144, [(0x80, 2)], [
    ⟨Fld.WGH_MCm_CNT.TORQUE, .ro, fun _ => 0, .none, false, false⟩,
    ⟨Fld.WGH_MCm_CNT.BLIND, .ro, fun _ => 0, .none, false, false⟩,
    ⟨Fld.WGH_MCm_CNT.PRIM, .ro, fun _ => 0, .none, false, false⟩]⟩,
  ⟨"WGH_MAPm_Di", 0x0200, [(0x20, 2), (0x04, 8)], [
    ⟨Fld.WGH_MAPm_Di.W, .rwl, fun _ => 0, .none, true, false⟩]⟩,
  ⟨"WGH_MAPDATA", 0x1000, [(0x04, 9216)], [
    ⟨Fld.WGH_MAPDATA.W, .rwl, fun _ => 0, .none, true, false⟩]⟩]

/-- Registers of the ISK block (UNIT 0x0B). -/
def regsISK : List RegDesc := [
  ⟨"ISK_CLAMP", 0x0000, [], [
    ⟨Fld.ISK_CLAMP.COUNT, .ro, fun _ => 0, .none, false, false⟩]⟩,
  ⟨"ISK_STRDEFj", 0x0004, [(0x04, 2)], [
    ⟨Fld.ISK_STRDEFj.P, .rw, fun _ => 0xAAAAAAAA, .none, false, false⟩]⟩,
  ⟨"ISK_LINKl_CFG", 0x0100, [(0x40, 2)], [
    ⟨Fld.ISK_LINKl_CFG.EN, .rwl, fun _ => 0, .cross, true, false⟩,
    ⟨Fld.ISK_LINKl_CFG.PROTO, .rwl, fun _ => 0, .none, true, false⟩,
    ⟨Fld.ISK_LINKl_CFG.NODES, .rwl, fun _ => 6, .range 1 16, true, false⟩,
    ⟨Fld.ISK_LINKl_CFG.HBTMO, .rw, fun _ => 8, .range 2 64, false, false⟩,
    ⟨Fld.ISK_LINKl_CFG.SLOTN, .rw, fun _ => 3, .below 1, false, false⟩,
    ⟨Fld.ISK_LINKl_CFG.LOSTN, .rw, fun _ => 2, .below 1, false, false⟩]⟩,
  ⟨"ISK_LINKl_STAT", 0x0104, [(0x40, 2)], [
    ⟨Fld.ISK_LINKl_STAT.STATE, .ro, fun _ => 0, .none, false, false⟩,
    ⟨Fld.ISK_LINKl_STAT.NFOUND, .ro, fun _ => 0, .none, false, false⟩,
    ⟨Fld.ISK_LINKl_STAT.SEQ, .ro, fun _ => 0, .none, false, false⟩,
    ⟨Fld.ISK_LINKl_STAT.FNODE, .ro, fun _ => 0, .none, false, false⟩]⟩,
  ⟨"ISK_LINKl_CNT", 0x0108, [(0x40, 2)], [
    ⟨Fld.ISK_LINKl_CNT.FMISS, .ro, fun _ => 0, .none, false, false⟩,
    ⟨Fld.ISK_LINKl_CNT.SLOTERR, .ro, fun _ => 0, .none, false, false⟩,
    ⟨Fld.ISK_LINKl_CNT.PLANERR, .ro, fun _ => 0, .none, false, false⟩,
    ⟨Fld.ISK_LINKl_CNT.SLIM, .ro, fun _ => 0, .none, false, false⟩]⟩,
  ⟨"ISK_LINKl_MAPj", 0x0110, [(0x40, 2), (0x04, 4)], [
    ⟨Fld.ISK_LINKl_MAPj.N0, .rwl, fun n => 8 * (n / 4) + 2 * (n % 4), .none, true, false⟩,
    ⟨Fld.ISK_LINKl_MAPj.N1, .rwl, fun n => 8 * (n / 4) + 2 * (n % 4) + 16, .none, true, false⟩,
    ⟨Fld.ISK_LINKl_MAPj.N2, .rwl, fun n => 8 * (n / 4) + 2 * (n % 4) + 1, .none, true, false⟩,
    ⟨Fld.ISK_LINKl_MAPj.N3, .rwl, fun n => 8 * (n / 4) + 2 * (n % 4) + 17, .none, true, false⟩]⟩,
  ⟨"ISK_NODEl_n", 0x1000, [(0x100, 2), (0x04, 16)], [
    ⟨Fld.ISK_NODEl_n.S0, .ro, fun _ => 0, .none, false, false⟩,
    ⟨Fld.ISK_NODEl_n.S1, .ro, fun _ => 0, .none, false, false⟩,
    ⟨Fld.ISK_NODEl_n.S2, .ro, fun _ => 0, .none, false, false⟩,
    ⟨Fld.ISK_NODEl_n.AGE, .ro, fun _ => 0, .none, false, false⟩]⟩]

/-- Registers of the THM block (UNIT 0x0C). -/
def regsTHM : List RegDesc := [
  ⟨"THM_CFG", 0x0000, [], [
    ⟨Fld.THM_CFG.EN, .rwl, fun _ => 0, .none, true, false⟩,
    ⟨Fld.THM_CFG.CHIPANCH, .rwl, fun _ => 15, .none, true, false⟩]⟩,
  ⟨"THM_STAT", 0x0004, [], [
    ⟨Fld.THM_STAT.DIV, .ro, fun _ => 0, .none, false, false⟩,
    ⟨Fld.THM_STAT.HDIV, .ro, fun _ => 0, .none, false, false⟩,
    ⟨Fld.THM_STAT.SKIP, .ro, fun _ => 0, .none, false, false⟩,
    ⟨Fld.THM_STAT.CHIP, .ro, fun _ => 0, .none, false, false⟩,
    ⟨Fld.THM_STAT.U0, .ro, fun _ => 0, .none, false, false⟩,
    ⟨Fld.THM_STAT.U1, .ro, fun _ => 0, .none, false, false⟩,
    ⟨Fld.THM_STAT.U2, .ro, fun _ => 0, .none, false, false⟩,
    ⟨Fld.THM_STAT.U3, .ro, fun _ => 0, .none, false, false⟩,
    ⟨Fld.THM_STAT.U4, .ro, fun _ => 0, .none, false, false⟩]⟩,
  ⟨"THM_CLAMP", 0x0008, [], [
    ⟨Fld.THM_CLAMP.COUNT, .ro, fun _ => 0, .none, false, false⟩]⟩,
  ⟨"THM_CNT", 0x000C, [], [
    ⟨Fld.THM_CNT.TRANS, .ro, fun _ => 0, .none, false, false⟩,
    ⟨Fld.THM_CNT.ANCH, .ro, fun _ => 0, .none, false, false⟩,
    ⟨Fld.THM_CNT.INPUT, .ro, fun _ => 0, .none, false, false⟩]⟩,
  ⟨"THM_CHIP_LVL", 0x0010, [], [
    ⟨Fld.THM_CHIP_LVL.WARN, .rw, fun _ => 185, .none, false, false⟩,
    ⟨Fld.THM_CHIP_LVL.THR, .rw, fun _ => 192, .cross, false, false⟩,
    ⟨Fld.THM_CHIP_LVL.SHUT, .rw, fun _ => 200, .cross, false, false⟩]⟩,
  ⟨"THM_CHIP_ACT", 0x0014, [], [
    ⟨Fld.THM_CHIP_ACT.HYS, .rw, fun _ => 3, .below 1, false, false⟩,
    ⟨Fld.THM_CHIP_ACT.DWELL, .rw, fun _ => 50, .below 1, false, false⟩,
    ⟨Fld.THM_CHIP_ACT.HDIV, .rw, fun _ => 1, .none, false, false⟩,
    ⟨Fld.THM_CHIP_ACT.SKIP, .rw, fun _ => 1, .none, false, false⟩,
    ⟨Fld.THM_CHIP_ACT.CDIV, .rw, fun _ => 0, .none, false, false⟩,
    ⟨Fld.THM_CHIP_ACT.CDER, .rw, fun _ => 255, .none, false, false⟩]⟩,
  ⟨"THM_CHIP_P", 0x0018, [], [
    ⟨Fld.THM_CHIP_P.V, .ro, fun _ => 0, .none, false, false⟩]⟩,
  ⟨"THM_CHIP_T", 0x001C, [], [
    ⟨Fld.THM_CHIP_T.V, .ro, fun _ => 0, .none, false, false⟩]⟩,
  ⟨"THM_CHIP_Rn", 0x0020, [(0x08, 3)], [
    ⟨Fld.THM_CHIP_Rn.V, .rw, fun _ => 0, .realNonneg, false, false⟩]⟩,
  ⟨"THM_CHIP_TAUn", 0x0024, [(0x08, 3)], [
    ⟨Fld.THM_CHIP_TAUn.V, .rw, fun _ => 0, .realNonneg, false, false⟩]⟩,
  ⟨"THM_LEGk_CFG", 0x0100, [(0x20, 8)], [
    ⟨Fld.THM_LEGk_CFG.IIN, .rwl, fun n => if n < 3 then n else if n < 6 then n + 9 else n + 18, .above 47, true, false⟩,
    ⟨Fld.THM_LEGk_CFG.VIN, .rwl, fun n => if 3 ≤ n ∧ n < 6 then 18 else 6, .above 47, true, false⟩,
    ⟨Fld.THM_LEGk_CFG.INV, .rwl, fun n => if 6 ≤ n then 1 else 0, .none, true, false⟩,
    ⟨Fld.THM_LEGk_CFG.PS, .rwl, fun _ => 0, .none, true, false⟩,
    ⟨Fld.THM_LEGk_CFG.LSRC, .rwl, fun _ => 0, .codes 3 0xFFFFFFFF 0, true, false⟩,
    ⟨Fld.THM_LEGk_CFG.BANCH, .rwl, fun n => if n < 3 then 0 else if n < 6 then 1 else 2, .codes 8 14 15, true, false⟩,
    ⟨Fld.THM_LEGk_CFG.CANCH, .rwl, fun _ => 15, .codes 8 14 15, true, false⟩]⟩,
  ⟨"THM_LEGk_TSW", 0x0104, [(0x20, 8)], [
    ⟨Fld.THM_LEGk_TSW.V, .ro, fun _ => 0, .none, false, false⟩]⟩,
  ⟨"THM_LEGk_TDI", 0x0108, [(0x20, 8)], [
    ⟨Fld.THM_LEGk_TDI.V, .ro, fun _ => 0, .none, false, false⟩]⟩,
  ⟨"THM_LEGk_PSW", 0x010C, [(0x20, 8)], [
    ⟨Fld.THM_LEGk_PSW.V, .ro, fun _ => 0, .none, false, false⟩]⟩,
  ⟨"THM_LEGk_PDI", 0x0110, [(0x20, 8)], [
    ⟨Fld.THM_LEGk_PDI.V, .ro, fun _ => 0, .none, false, false⟩]⟩,
  ⟨"THM_ANCHa_CFG", 0x0200, [(0x04, 8)], [
    ⟨Fld.THM_ANCHa_CFG.IN, .rwl, fun n => 36 + n, .above 47, true, false⟩,
    ⟨Fld.THM_ANCHa_CFG.LIN, .rwl, fun _ => 0, .codes 3 0xFFFFFFFF 0, true, false⟩]⟩] ++ [
  ⟨"THM_ANCHa_T", 0x0240, [(0x04, 8)], [
    ⟨Fld.THM_ANCHa_T.V, .ro, fun _ => 0, .none, false, false⟩]⟩,
  ⟨"THM_PSs_w", 0x0400, [(0x100, 2), (0x04, 32)], [
    ⟨Fld.THM_PSs_w.W, .rw, fun n => if n % 32 = 10 then 0x44480000 else if n % 32 = 11 ∨ n % 32 = 12 then 0x40404040 else if n % 32 = 30 then 0xC8B9AF else if n % 32 = 31 then 0xC0013203 else 0, .cross, false, false⟩]⟩,
  ⟨"THM_LINt_p", 0x0800, [(0x100, 2), (0x04, 35)], [
    ⟨Fld.THM_LINt_p.V, .rwl, fun _ => 0, .realNonneg, true, false⟩]⟩]

/-- Registers of the CAN block (UNIT 0x0D). -/
def regsCAN : List RegDesc := [
  ⟨"CAN_CTRL", 0x0000, [(0x4000, 4)], [
    ⟨Fld.CAN_CTRL.INIT, .rw, fun _ => 1, .none, false, false⟩,
    ⟨Fld.CAN_CTRL.MODE, .rw, fun _ => 0, .cross, false, false⟩,
    ⟨Fld.CAN_CTRL.AUTODET, .rw, fun _ => 0, .none, false, false⟩,
    ⟨Fld.CAN_CTRL.AUTOREC, .rw, fun _ => 1, .none, false, false⟩,
    ⟨Fld.CAN_CTRL.TXRESUME, .wo, fun _ => 0, .none, false, false⟩,
    ⟨Fld.CAN_CTRL.TXFLUSH, .wo, fun _ => 0, .none, false, false⟩]⟩,
  ⟨"CAN_STAT", 0x0004, [(0x4000, 4)], [
    ⟨Fld.CAN_STAT.RUN, .ro, fun _ => 0, .none, false, false⟩,
    ⟨Fld.CAN_STAT.DET, .ro, fun _ => 0, .none, false, false⟩,
    ⟨Fld.CAN_STAT.CAND, .ro, fun _ => 0, .none, false, false⟩,
    ⟨Fld.CAN_STAT.SPARE, .ro, fun _ => 0, .none, false, false⟩]⟩,
  ⟨"CAN_CLAMP", 0x0008, [(0x4000, 4)], [
    ⟨Fld.CAN_CLAMP.COUNT, .ro, fun _ => 0, .none, false, false⟩]⟩,
  ⟨"CAN_NBT", 0x000C, [(0x4000, 4)], [
    ⟨Fld.CAN_NBT.NBRP, .rw, fun _ => 2, .below 1, false, false⟩,
    ⟨Fld.CAN_NBT.NTSEG1, .rw, fun _ => 63, .below 1, false, false⟩,
    ⟨Fld.CAN_NBT.NTSEG2, .rw, fun _ => 16, .below 1, false, false⟩,
    ⟨Fld.CAN_NBT.NSJW, .rw, fun _ => 16, .cross, false, false⟩]⟩,
  ⟨"CAN_DBT", 0x0010, [(0x4000, 4)], [
    ⟨Fld.CAN_DBT.DBRP, .rw, fun _ => 1, .below 1, false, false⟩,
    ⟨Fld.CAN_DBT.DTSEG1, .rw, fun _ => 11, .below 1, false, false⟩,
    ⟨Fld.CAN_DBT.DTSEG2, .rw, fun _ => 4, .below 1, false, false⟩,
    ⟨Fld.CAN_DBT.DSJW, .rw, fun _ => 4, .cross, false, false⟩]⟩,
  ⟨"CAN_TDC", 0x0014, [(0x4000, 4)], [
    ⟨Fld.CAN_TDC.EN, .rw, fun _ => 0, .none, false, false⟩,
    ⟨Fld.CAN_TDC.TDCO, .rw, fun _ => 12, .none, false, false⟩,
    ⟨Fld.CAN_TDC.TDCF, .rw, fun _ => 4, .none, false, false⟩]⟩,
  ⟨"CAN_XL", 0x0018, [(0x4000, 4)], [
    ⟨Fld.CAN_XL.EN, .rwl, fun _ => 0, .cross, true, false⟩,
    ⟨Fld.CAN_XL.TMS, .rw, fun _ => 1, .none, false, false⟩,
    ⟨Fld.CAN_XL.PWMS, .rw, fun _ => 4, .below 1, false, false⟩,
    ⟨Fld.CAN_XL.PWML, .rw, fun _ => 12, .below 1, false, false⟩,
    ⟨Fld.CAN_XL.PWMO, .rw, fun _ => 0, .none, false, false⟩]⟩,
  ⟨"CAN_ERR", 0x001C, [(0x4000, 4)], [
    ⟨Fld.CAN_ERR.TEC, .ro, fun _ => 0, .none, false, false⟩,
    ⟨Fld.CAN_ERR.REC, .ro, fun _ => 0, .none, false, false⟩,
    ⟨Fld.CAN_ERR.STATE, .ro, fun _ => 0, .none, false, false⟩,
    ⟨Fld.CAN_ERR.LEC, .ro, fun _ => 0, .none, false, false⟩]⟩,
  ⟨"CAN_CNT", 0x0020, [(0x4000, 4)], [
    ⟨Fld.CAN_CNT.BUSOFF, .ro, fun _ => 0, .none, false, false⟩,
    ⟨Fld.CAN_CNT.RXDROP, .ro, fun _ => 0, .none, false, false⟩,
    ⟨Fld.CAN_CNT.TTMISS, .ro, fun _ => 0, .none, false, false⟩,
    ⟨Fld.CAN_CNT.TXEXP, .ro, fun _ => 0, .none, false, false⟩]⟩,
  ⟨"CAN_CNT2", 0x0024, [(0x4000, 4)], [
    ⟨Fld.CAN_CNT2.TXCLAMP, .ro, fun _ => 0, .none, false, false⟩,
    ⟨Fld.CAN_CNT2.TDCERR, .ro, fun _ => 0, .none, false, false⟩,
    ⟨Fld.CAN_CNT2.TDCV, .ro, fun _ => 0, .none, false, false⟩]⟩,
  ⟨"CAN_TXBASE", 0x0040, [(0x4000, 4)], [
    ⟨Fld.CAN_TXBASE.OFFSET, .rwl, fun _ => 0, .cross, true, false⟩]⟩,
  ⟨"CAN_TXCFG", 0x0044, [(0x4000, 4)], [
    ⟨Fld.CAN_TXCFG.SIZE, .rwl, fun _ => 16, .range 16 4096, true, false⟩,
    ⟨Fld.CAN_TXCFG.EN, .rwl, fun _ => 0, .none, true, false⟩,
    ⟨Fld.CAN_TXCFG.ORDER, .rw, fun _ => 0, .none, false, false⟩,
    ⟨Fld.CAN_TXCFG.LATEWIN, .rw, fun _ => 0, .none, false, false⟩]⟩,
  ⟨"CAN_TXIDX", 0x0048, [(0x4000, 4)], [
    ⟨Fld.CAN_TXIDX.IDX, .ro, fun _ => 0, .none, false, false⟩,
    ⟨Fld.CAN_TXIDX.EPOCH, .ro, fun _ => 0, .none, false, false⟩,
    ⟨Fld.CAN_TXIDX.HALT, .ro, fun _ => 0, .none, false, false⟩]⟩,
  ⟨"CAN_RXBASE", 0x004C, [(0x4000, 4)], [
    ⟨Fld.CAN_RXBASE.OFFSET, .rwl, fun _ => 0, .cross, true, false⟩]⟩,
  ⟨"CAN_RXCFG", 0x0050, [(0x4000, 4)], [
    ⟨Fld.CAN_RXCFG.SIZE, .rwl, fun _ => 16, .range 16 4096, true, false⟩,
    ⟨Fld.CAN_RXCFG.EN, .rwl, fun _ => 0, .none, true, false⟩,
    ⟨Fld.CAN_RXCFG.NOMATCH, .rw, fun _ => 0, .none, false, false⟩]⟩,
  ⟨"CAN_RXIDX", 0x0054, [(0x4000, 4)], [
    ⟨Fld.CAN_RXIDX.IDX, .ro, fun _ => 0, .none, false, false⟩,
    ⟨Fld.CAN_RXIDX.EPOCH, .ro, fun _ => 0, .none, false, false⟩]⟩] ++ [
  ⟨"CAN_BUF", 0x0058, [(0x4000, 4)], [
    ⟨Fld.CAN_BUF.XLSZ, .rwl, fun _ => 0, .cross, true, false⟩,
    ⟨Fld.CAN_BUF.TXBUF, .rwl, fun _ => 0, .cross, true, false⟩]⟩,
  ⟨"CAN_RXBUF", 0x005C, [(0x4000, 4)], [
    ⟨Fld.CAN_RXBUF.RXBUF, .rwl, fun _ => 0, .cross, false, false⟩]⟩,
  ⟨"CAN_AD", 0x0080, [(0x4000, 4)], [
    ⟨Fld.CAN_AD.NCAND, .rw, fun _ => 0, .none, false, false⟩,
    ⟨Fld.CAN_AD.DWELL, .rw, fun _ => 50, .below 1, false, false⟩]⟩,
  ⟨"CAN_ADCANDi_N", 0x0084, [(0x4000, 4), (0x08, 8)], [
    ⟨Fld.CAN_ADCANDi_N.NBRP, .rw, fun _ => 2, .below 1, false, false⟩,
    ⟨Fld.CAN_ADCANDi_N.NTSEG1, .rw, fun _ => 63, .below 1, false, false⟩,
    ⟨Fld.CAN_ADCANDi_N.NTSEG2, .rw, fun _ => 16, .below 1, false, false⟩,
    ⟨Fld.CAN_ADCANDi_N.NSJW, .rw, fun _ => 16, .cross, false, false⟩]⟩,
  ⟨"CAN_ADCANDi_D", 0x0088, [(0x4000, 4), (0x08, 8)], [
    ⟨Fld.CAN_ADCANDi_D.DBRP, .rw, fun _ => 1, .below 1, false, false⟩,
    ⟨Fld.CAN_ADCANDi_D.DTSEG1, .rw, fun _ => 11, .below 1, false, false⟩,
    ⟨Fld.CAN_ADCANDi_D.DTSEG2, .rw, fun _ => 4, .below 1, false, false⟩,
    ⟨Fld.CAN_ADCANDi_D.DSJW, .rw, fun _ => 4, .cross, false, false⟩]⟩,
  ⟨"CAN_TT", 0x0100, [(0x4000, 4)], [
    ⟨Fld.CAN_TT.EN, .rw, fun _ => 0, .none, false, false⟩,
    ⟨Fld.CAN_TT.NCYCL, .rw, fun _ => 0, .above 6, false, false⟩]⟩,
  ⟨"CAN_TTCYC", 0x0104, [(0x4000, 4)], [
    ⟨Fld.CAN_TTCYC.CYCLEN, .rw, fun _ => 1000, .below 100, false, false⟩,
    ⟨Fld.CAN_TTCYC.TXWIN, .rw, fun _ => 20, .below 1, false, false⟩,
    ⟨Fld.CAN_TTCYC.GUARD, .rw, fun _ => 10, .none, false, false⟩]⟩,
  ⟨"CAN_TTSTAT", 0x0108, [(0x4000, 4)], [
    ⟨Fld.CAN_TTSTAT.CYCLE, .ro, fun _ => 0, .none, false, false⟩,
    ⟨Fld.CAN_TTSTAT.BASE, .ro, fun _ => 0, .none, false, false⟩]⟩,
  ⟨"CAN_TTCOLj", 0x0140, [(0x4000, 4), (0x04, 16)], [
    ⟨Fld.CAN_TTCOLj.OFS, .rw, fun _ => 0, .cross, false, false⟩]⟩,
  ⟨"CAN_TTOBJo_T0", 0x0200, [(0x4000, 4), (0x50, 32)], [
    ⟨Fld.CAN_TTOBJo_T0.ID, .rw, fun _ => 0, .none, false, false⟩,
    ⟨Fld.CAN_TTOBJo_T0.IDE, .rw, fun _ => 0, .none, false, false⟩,
    ⟨Fld.CAN_TTOBJo_T0.RTR, .rw, fun _ => 0, .none, false, false⟩]⟩,
  ⟨"CAN_TTOBJo_T1", 0x0204, [(0x4000, 4), (0x50, 32)], [
    ⟨Fld.CAN_TTOBJo_T1.FMT, .rw, fun _ => 0, .none, false, false⟩,
    ⟨Fld.CAN_TTOBJo_T1.BRS, .rw, fun _ => 0, .none, false, false⟩,
    ⟨Fld.CAN_TTOBJo_T1.SDT, .rw, fun _ => 0, .none, false, false⟩,
    ⟨Fld.CAN_TTOBJo_T1.LEN, .rw, fun _ => 0, .above 64, false, false⟩,
    ⟨Fld.CAN_TTOBJo_T1.TXC, .ro, fun _ => 0, .none, false, false⟩,
    ⟨Fld.CAN_TTOBJo_T1.LAUNCH, .ro, fun _ => 0, .none, false, false⟩]⟩,
  ⟨"CAN_TTOBJo_T2", 0x0208, [(0x4000, 4), (0x50, 32)], [
    ⟨Fld.CAN_TTOBJo_T2.AF, .rw, fun _ => 0, .none, false, false⟩]⟩,
  ⟨"CAN_TTOBJo_T3", 0x020C, [(0x4000, 4), (0x50, 32)], [
    ⟨Fld.CAN_TTOBJo_T3.VCID, .rw, fun _ => 0, .none, false, false⟩,
    ⟨Fld.CAN_TTOBJo_T3.SEC, .rw, fun _ => 0, .none, false, false⟩]⟩,
  ⟨"CAN_TTOBJo_Dd", 0x0210, [(0x4000, 4), (0x50, 32), (0x04, 16)], [
    ⟨Fld.CAN_TTOBJo_Dd.W, .rw, fun _ => 0, .none, false, false⟩]⟩,
  ⟨"CAN_TTMy_j", 0x1000, [(0x4000, 4), (0x40, 64), (0x04, 16)], [
    ⟨Fld.CAN_TTMy_j.OBJ, .rw, fun _ => 0, .none, false, false⟩,
    ⟨Fld.CAN_TTMy_j.ACT, .rw, fun _ => 0, .codes 3 3 0, false, false⟩]⟩,
  ⟨"CAN_FLTf_F0", 0x2000, [(0x4000, 4), (0x10, 128)], [
    ⟨Fld.CAN_FLTf_F0.TYPE, .rw, fun _ => 0, .none, false, false⟩,
    ⟨Fld.CAN_FLTf_F0.MODE, .rw, fun _ => 0, .codes 3 3 0, false, false⟩,
    ⟨Fld.CAN_FLTf_F0.ACT, .rw, fun _ => 0, .codes 3 3 1, false, false⟩,
    ⟨Fld.CAN_FLTf_F0.FMTS, .rw, fun _ => 7, .none, false, false⟩]⟩] ++ [
  ⟨"CAN_FLTf_F1", 0x2004, [(0x4000, 4), (0x10, 128)], [
    ⟨Fld.CAN_FLTf_F1.ID1, .rw, fun _ => 0, .none, false, false⟩]⟩,
  ⟨"CAN_FLTf_F2", 0x2008, [(0x4000, 4), (0x10, 128)], [
    ⟨Fld.CAN_FLTf_F2.ID2, .rw, fun _ => 0, .cross, false, false⟩]⟩,
  ⟨"CAN_FLTf_F3", 0x200C, [(0x4000, 4), (0x10, 128)], [
    ⟨Fld.CAN_FLTf_F3.VCID, .rw, fun _ => 0, .none, false, false⟩,
    ⟨Fld.CAN_FLTf_F3.VCIDM, .rw, fun _ => 0, .none, false, false⟩,
    ⟨Fld.CAN_FLTf_F3.VCIDEN, .rw, fun _ => 0, .none, false, false⟩]⟩,
  ⟨"CAN_SPSTAT", 0x3F00, [], [
    ⟨Fld.CAN_SPSTAT.SERVE, .ro, fun _ => 4, .none, false, false⟩,
    ⟨Fld.CAN_SPSTAT.EXH, .ro, fun _ => 0, .none, false, false⟩]⟩,
  ⟨"CAN_SPCFG", 0x3F04, [], [
    ⟨Fld.CAN_SPCFG.WATCH, .rw, fun _ => 256, .below 1, false, false⟩]⟩]

/-- Registers of the ETH block (UNIT 0x0E). -/
def regsETH : List RegDesc := [
  ⟨"ETH_CLAMP", 0x0000, [], [
    ⟨Fld.ETH_CLAMP.COUNT, .ro, fun _ => 0, .none, false, false⟩]⟩,
  ⟨"ETH_VT_CTRL", 0x0004, [], [
    ⟨Fld.ETH_VT_CTRL.VALID, .rw, fun _ => 0, .none, false, false⟩,
    ⟨Fld.ETH_VT_CTRL.SET, .wo, fun _ => 0, .none, false, false⟩,
    ⟨Fld.ETH_VT_CTRL.VTTMO, .rw, fun _ => 250, .below 1, false, false⟩]⟩,
  ⟨"ETH_VT_RATE", 0x0008, [], [
    ⟨Fld.ETH_VT_RATE.RATE, .rw, fun _ => 0, .cross, false, false⟩]⟩,
  ⟨"ETH_VT_STEP", 0x000C, [], [
    ⟨Fld.ETH_VT_STEP.STEP, .wo, fun _ => 0, .none, false, false⟩]⟩,
  ⟨"ETH_VT_SETSEC_LO", 0x0010, [], [
    ⟨Fld.ETH_VT_SETSEC_LO.SEC, .rw, fun _ => 0, .none, false, false⟩]⟩,
  ⟨"ETH_VT_SETSEC_HI", 0x0014, [], [
    ⟨Fld.ETH_VT_SETSEC_HI.SEC, .rw, fun _ => 0, .none, false, false⟩]⟩,
  ⟨"ETH_VT_SETNS", 0x0018, [], [
    ⟨Fld.ETH_VT_SETNS.NS, .rw, fun _ => 0, .above 999999999, false, false⟩]⟩,
  ⟨"ETH_TVT_TICK", 0x0020, [], [
    ⟨Fld.ETH_TVT_TICK.V, .ro, fun _ => 0, .none, false, false⟩]⟩,
  ⟨"ETH_TVT_SEC", 0x0024, [], [
    ⟨Fld.ETH_TVT_SEC.V, .ro, fun _ => 0, .none, false, false⟩]⟩,
  ⟨"ETH_TVT_NS", 0x0028, [], [
    ⟨Fld.ETH_TVT_NS.V, .ro, fun _ => 0, .none, false, false⟩]⟩,
  ⟨"ETH_MDIO", 0x0030, [], [
    ⟨Fld.ETH_MDIO.DATA, .rw, fun _ => 0, .none, false, true⟩,
    ⟨Fld.ETH_MDIO.REG, .rw, fun _ => 0, .none, false, true⟩,
    ⟨Fld.ETH_MDIO.PHYAD, .rw, fun _ => 0, .none, false, true⟩,
    ⟨Fld.ETH_MDIO.OP, .rw, fun _ => 0, .none, false, true⟩,
    ⟨Fld.ETH_MDIO.C45, .rw, fun _ => 0, .none, false, true⟩,
    ⟨Fld.ETH_MDIO.BUSY, .ro, fun _ => 0, .none, false, true⟩]⟩,
  ⟨"ETH_Pp_CFG", 0x0100, [(0x100, 2)], [
    ⟨Fld.ETH_Pp_CFG.SPEED, .rwl, fun _ => 0, .cross, true, false⟩,
    ⟨Fld.ETH_Pp_CFG.MDCDIV, .rwl, fun _ => 19, .none, true, false⟩,
    ⟨Fld.ETH_Pp_CFG.NOMATCH, .rw, fun _ => 1, .none, false, false⟩,
    ⟨Fld.ETH_Pp_CFG.WAKEEN, .rw, fun _ => 0, .none, false, false⟩,
    ⟨Fld.ETH_Pp_CFG.PLCA_EN, .rw, fun n => n, .cross, false, false⟩,
    ⟨Fld.ETH_Pp_CFG.PLCA_ID, .rwl, fun _ => 255, .none, true, false⟩,
    ⟨Fld.ETH_Pp_CFG.PLCA_CNT, .rwl, fun _ => 8, .below 1, true, false⟩]⟩,
  ⟨"ETH_Pp_STAT", 0x0104, [(0x100, 2)], [
    ⟨Fld.ETH_Pp_STAT.LINK, .ro, fun _ => 0, .none, false, false⟩,
    ⟨Fld.ETH_Pp_STAT.SPD, .ro, fun _ => 0, .none, false, false⟩,
    ⟨Fld.ETH_Pp_STAT.PLCA, .ro, fun _ => 0, .none, false, false⟩,
    ⟨Fld.ETH_Pp_STAT.PHYINT, .w1c, fun _ => 0, .none, false, false⟩]⟩,
  ⟨"ETH_Pp_TXBASE", 0x0108, [(0x100, 2)], [
    ⟨Fld.ETH_Pp_TXBASE.OFFSET, .rwl, fun _ => 0, .cross, true, false⟩]⟩,
  ⟨"ETH_Pp_RXBASE", 0x010C, [(0x100, 2)], [
    ⟨Fld.ETH_Pp_RXBASE.OFFSET, .rwl, fun _ => 0, .cross, true, false⟩]⟩,
  ⟨"ETH_Pp_RING", 0x0110, [(0x100, 2)], [
    ⟨Fld.ETH_Pp_RING.TXSIZE, .rwl, fun _ => 16, .range 16 4096, true, false⟩,
    ⟨Fld.ETH_Pp_RING.TXEN, .rwl, fun _ => 0, .none, true, false⟩,
    ⟨Fld.ETH_Pp_RING.RXSIZE, .rwl, fun _ => 16, .range 16 4096, true, false⟩,
    ⟨Fld.ETH_Pp_RING.RXEN, .rwl, fun _ => 0, .none, true, false⟩]⟩] ++ [
  ⟨"ETH_Pp_BUF", 0x0114, [(0x100, 2)], [
    ⟨Fld.ETH_Pp_BUF.TXBUF, .rwl, fun _ => 0, .cross, true, false⟩,
    ⟨Fld.ETH_Pp_BUF.RXBUF, .rwl, fun _ => 0, .cross, true, false⟩]⟩,
  ⟨"ETH_Pp_TXCTL", 0x0118, [(0x100, 2)], [
    ⟨Fld.ETH_Pp_TXCTL.TXRESUME, .wo, fun _ => 0, .none, false, false⟩,
    ⟨Fld.ETH_Pp_TXCTL.TXFLUSH, .wo, fun _ => 0, .none, false, false⟩,
    ⟨Fld.ETH_Pp_TXCTL.LATEWIN, .rw, fun _ => 0, .none, false, false⟩]⟩,
  ⟨"ETH_Pp_IDX", 0x011C, [(0x100, 2)], [
    ⟨Fld.ETH_Pp_IDX.TX, .ro, fun _ => 0, .none, false, false⟩,
    ⟨Fld.ETH_Pp_IDX.RX, .ro, fun _ => 0, .none, false, false⟩,
    ⟨Fld.ETH_Pp_IDX.HALT, .ro, fun _ => 0, .none, false, false⟩]⟩,
  ⟨"ETH_Pp_LAT", 0x0120, [(0x100, 2)], [
    ⟨Fld.ETH_Pp_LAT.TXLAT, .rw, fun _ => 0, .none, false, false⟩,
    ⟨Fld.ETH_Pp_LAT.RXLAT, .rw, fun _ => 0, .none, false, false⟩]⟩,
  ⟨"ETH_Pp_CNT", 0x0124, [(0x100, 2)], [
    ⟨Fld.ETH_Pp_CNT.TXCLAMP, .ro, fun _ => 0, .none, false, false⟩,
    ⟨Fld.ETH_Pp_CNT.TXEXP, .ro, fun _ => 0, .none, false, false⟩,
    ⟨Fld.ETH_Pp_CNT.RXDROP, .ro, fun _ => 0, .none, false, false⟩,
    ⟨Fld.ETH_Pp_CNT.RXERR, .ro, fun _ => 0, .none, false, false⟩]⟩,
  ⟨"ETH_P1_PLCA", 0x0228, [], [
    ⟨Fld.ETH_P1_PLCA.TO, .rw, fun _ => 32, .below 1, false, false⟩,
    ⟨Fld.ETH_P1_PLCA.BURST, .rw, fun _ => 0, .none, false, false⟩,
    ⟨Fld.ETH_P1_PLCA.BTMR, .rw, fun _ => 128, .none, false, false⟩]⟩,
  ⟨"ETH_Pp_FLTf_A", 0x0180, [(0x100, 2), (0x10, 16)], [
    ⟨Fld.ETH_Pp_FLTf_A.MAC, .rwl, fun _ => 0, .none, true, false⟩]⟩,
  ⟨"ETH_Pp_FLTf_B", 0x0184, [(0x100, 2), (0x10, 16)], [
    ⟨Fld.ETH_Pp_FLTf_B.MACHI, .rwl, fun _ => 0, .none, true, false⟩,
    ⟨Fld.ETH_Pp_FLTf_B.ETYPE, .rwl, fun _ => 0, .none, true, false⟩]⟩,
  ⟨"ETH_Pp_FLTf_C", 0x0188, [(0x100, 2), (0x10, 16)], [
    ⟨Fld.ETH_Pp_FLTf_C.VID, .rwl, fun _ => 0, .none, true, false⟩,
    ⟨Fld.ETH_Pp_FLTf_C.ETEN, .rwl, fun _ => 0, .none, true, false⟩,
    ⟨Fld.ETH_Pp_FLTf_C.VIDEN, .rwl, fun _ => 0, .none, true, false⟩,
    ⟨Fld.ETH_Pp_FLTf_C.EN, .rwl, fun _ => 0, .none, true, false⟩,
    ⟨Fld.ETH_Pp_FLTf_C.ACT, .rwl, fun _ => 0, .codes 3 3 1, true, false⟩]⟩]

/-- Registers of the CHK block (UNIT 0x0F). -/
def regsCHK : List RegDesc := [
  ⟨"CHK_CLAMP", 0x0000, [], [
    ⟨Fld.CHK_CLAMP.COUNT, .ro, fun _ => 0, .none, false, false⟩]⟩,
  ⟨"CHK_Un_CFG", 0x0100, [(0x10, 4)], [
    ⟨Fld.CHK_Un_CFG.ALG, .rw, fun _ => 2, .none, false, true⟩]⟩,
  ⟨"CHK_Un_SEED", 0x0104, [(0x10, 4)], [
    ⟨Fld.CHK_Un_SEED.SEED, .rw, fun _ => 0, .none, false, true⟩]⟩,
  ⟨"CHK_Un_DATA", 0x0108, [(0x10, 4)], [
    ⟨Fld.CHK_Un_DATA.D, .wo, fun _ => 0, .none, false, true⟩]⟩,
  ⟨"CHK_Un_DATAB", 0x010C, [(0x10, 4)], [
    ⟨Fld.CHK_Un_DATAB.D, .wo, fun _ => 0, .none, false, true⟩]⟩,
  ⟨"CHK_Un_RES", 0x0180, [(0x04, 4)], [
    ⟨Fld.CHK_Un_RES.RES, .ro, fun _ => 0, .none, false, false⟩]⟩,
  ⟨"CHK_SCs_CFG", 0x0200, [(0x20, 8)], [
    ⟨Fld.CHK_SCs_CFG.KIND, .rwl, fun n => if n < 4 then n + 1 else 0, .codes 5 0xFFFFFFFF 0, true, false⟩,
    ⟨Fld.CHK_SCs_CFG.EN, .rwl, fun n => if n < 4 then 1 else 0, .none, true, false⟩,
    ⟨Fld.CHK_SCs_CFG.STEP, .rwl, fun _ => 8, .range 1 32, true, false⟩,
    ⟨Fld.CHK_SCs_CFG.UNITSH, .rwl, fun _ => 0, .none, true, false⟩,
    ⟨Fld.CHK_SCs_CFG.PERIOD, .rwl, fun n => if n < 3 then 100 else if n = 3 then 1000 else 0, .none, true, false⟩,
    ⟨Fld.CHK_SCs_CFG.CLASS, .rwl, fun _ => 2, .none, true, false⟩,
    ⟨Fld.CHK_SCs_CFG.GO, .wo, fun _ => 0, .none, false, true⟩,
    ⟨Fld.CHK_SCs_CFG.UNITSL, .rwl, fun _ => 0, .none, true, false⟩]⟩,
  ⟨"CHK_SCs_BASE", 0x0204, [(0x20, 8)], [
    ⟨Fld.CHK_SCs_BASE.BASE, .rwl, fun _ => 0, .none, true, false⟩]⟩,
  ⟨"CHK_SCs_LEN", 0x0208, [(0x20, 8)], [
    ⟨Fld.CHK_SCs_LEN.LEN, .rwl, fun _ => 1, .below 1, true, false⟩]⟩,
  ⟨"CHK_SCs_SEED", 0x020C, [(0x20, 8)], [
    ⟨Fld.CHK_SCs_SEED.SEED, .rwl, fun _ => 0xFFFFFFFF, .none, true, false⟩]⟩,
  ⟨"CHK_SCs_EXP", 0x0210, [(0x20, 8)], [
    ⟨Fld.CHK_SCs_EXP.EXPECT, .rwl, fun _ => 0, .none, true, false⟩]⟩,
  ⟨"CHK_SCs_RES", 0x0214, [(0x20, 8)], [
    ⟨Fld.CHK_SCs_RES.RES, .ro, fun _ => 0, .none, false, false⟩]⟩,
  ⟨"CHK_SCs_STAT", 0x0218, [(0x20, 8)], [
    ⟨Fld.CHK_SCs_STAT.RUN, .ro, fun _ => 0, .none, false, false⟩,
    ⟨Fld.CHK_SCs_STAT.PASSES, .ro, fun _ => 0, .none, false, false⟩,
    ⟨Fld.CHK_SCs_STAT.MISM, .ro, fun _ => 0, .none, false, false⟩]⟩]

/-- Registers of the BST block (UNIT 0x10). -/
def regsBST : List RegDesc := [
  ⟨"BST_CFG", 0x0000, [], [
    ⟨Fld.BST_CFG.ROTEN, .rwl, fun _ => 1, .cross, true, false⟩,
    ⟨Fld.BST_CFG.PERIOD, .rw, fun _ => 24, .below 1, false, false⟩,
    ⟨Fld.BST_CFG.OVDCLASS, .rw, fun _ => 0, .above 2, false, false⟩]⟩,
  ⟨"BST_STAT", 0x0004, [], [
    ⟨Fld.BST_STAT.LCS, .ro, fun _ => 0, .none, false, false⟩,
    ⟨Fld.BST_STAT.NEXT, .ro, fun _ => 0, .none, false, false⟩,
    ⟨Fld.BST_STAT.PEND, .ro, fun _ => 0, .none, false, false⟩,
    ⟨Fld.BST_STAT.ACTIVE, .ro, fun _ => 0xFF, .none, false, false⟩]⟩,
  ⟨"BST_CLAMP", 0x0008, [], [
    ⟨Fld.BST_CLAMP.COUNT, .ro, fun _ => 0, .none, false, false⟩]⟩,
  ⟨"BST_COND", 0x000C, [], [
    ⟨Fld.BST_COND.CLKOK, .ro, fun _ => 1, .none, false, false⟩,
    ⟨Fld.BST_COND.VDDOK, .ro, fun _ => 1, .none, false, false⟩,
    ⟨Fld.BST_COND.TJOK, .ro, fun _ => 1, .none, false, false⟩]⟩,
  ⟨"BST_CNT", 0x0010, [], [
    ⟨Fld.BST_CNT.TESTS, .ro, fun _ => 0, .none, false, false⟩,
    ⟨Fld.BST_CNT.FAILS, .ro, fun _ => 0, .none, false, false⟩,
    ⟨Fld.BST_CNT.ABORTS, .ro, fun _ => 0, .none, false, false⟩,
    ⟨Fld.BST_CNT.TOKFAIL, .ro, fun _ => 0, .none, false, false⟩]⟩,
  ⟨"BST_REPAIR", 0x0014, [], [
    ⟨Fld.BST_REPAIR.USED, .ro, fun _ => 0, .none, false, false⟩,
    ⟨Fld.BST_REPAIR.FULL, .ro, fun _ => 0, .none, false, false⟩]⟩,
  ⟨"BST_NONCEi", 0x0020, [(0x04, 4)], [
    ⟨Fld.BST_NONCEi.NONCE, .ro, fun _ => 0, .none, false, false⟩]⟩,
  ⟨"BST_LCCNT", 0x0030, [], [
    ⟨Fld.BST_LCCNT.COUNT, .ro, fun _ => 0, .none, false, false⟩]⟩,
  ⟨"BST_UID_LO", 0x0034, [], [
    ⟨Fld.BST_UID_LO.UID, .ro, fun _ => 0, .none, false, false⟩]⟩,
  ⟨"BST_UID_HI", 0x0038, [], [
    ⟨Fld.BST_UID_HI.UID, .ro, fun _ => 0, .none, false, false⟩]⟩,
  ⟨"BST_KEYHASHi", 0x0040, [(0x04, 8)], [
    ⟨Fld.BST_KEYHASHi.HASH, .rw, fun _ => 0, .cross, false, false⟩]⟩,
  ⟨"BST_Uu", 0x0100, [(0x04, 256)], [
    ⟨Fld.BST_Uu.STATE, .ro, fun n => if [0x03, 0x07, 0x0B, 0x0F, 0x20, 0x21, 0x25, 0x27, 0x29, 0x2B, 0x34].contains n then 1 else 0, .none, false, false⟩,
    ⟨Fld.BST_Uu.FD, .ro, fun _ => 0, .none, false, false⟩,
    ⟨Fld.BST_Uu.LAST, .ro, fun _ => 0, .none, false, false⟩]⟩]

/-- Registers of the HLD block (UNIT 0x11). -/
def regsHLD : List RegDesc := [
  ⟨"HLD_CFG", 0x0000, [], [
    ⟨Fld.HLD_CFG.RECHK, .rwl, fun _ => 1, .none, true, false⟩,
    ⟨Fld.HLD_CFG.EXPEN, .rwl, fun _ => 1, .none, true, false⟩]⟩,
  ⟨"HLD_STAT", 0x0004, [], [
    ⟨Fld.HLD_STAT.STATE, .ro, fun _ => 0, .none, false, false⟩,
    ⟨Fld.HLD_STAT.REASON, .ro, fun _ => 0, .none, false, false⟩,
    ⟨Fld.HLD_STAT.EXPORT, .ro, fun _ => 0, .none, false, false⟩]⟩,
  ⟨"HLD_CLAMP", 0x0008, [], [
    ⟨Fld.HLD_CLAMP.COUNT, .ro, fun _ => 0, .none, false, false⟩]⟩,
  ⟨"HLD_VHOLD", 0x000C, [], [
    ⟨Fld.HLD_VHOLD.V, .ro, fun _ => 0, .none, false, false⟩]⟩,
  ⟨"HLD_CAP", 0x0010, [], [
    ⟨Fld.HLD_CAP.V, .ro, fun _ => 0, .none, false, false⟩]⟩,
  ⟨"HLD_ESR", 0x0014, [], [
    ⟨Fld.HLD_ESR.V, .ro, fun _ => 0, .none, false, false⟩]⟩,
  ⟨"HLD_ENERGY", 0x0018, [], [
    ⟨Fld.HLD_ENERGY.V, .ro, fun _ => 0, .none, false, false⟩]⟩,
  ⟨"HLD_CMIN", 0x001C, [], [
    ⟨Fld.HLD_CMIN.V, .rwl, fun _ => 0x3827C5AC, .cross, true, false⟩]⟩,
  ⟨"HLD_ESRMAX", 0x0020, [], [
    ⟨Fld.HLD_ESRMAX.V, .rwl, fun _ => 0x40000000, .realNonneg, true, false⟩]⟩,
  ⟨"HLD_HEAD", 0x0024, [], [
    ⟨Fld.HLD_HEAD.UNIT, .ro, fun _ => 0, .none, false, false⟩]⟩,
  ⟨"HLD_SECSEQ", 0x0028, [], [
    ⟨Fld.HLD_SECSEQ.SEQ, .ro, fun _ => 0, .none, false, false⟩]⟩,
  ⟨"HLD_DURABLE", 0x002C, [], [
    ⟨Fld.HLD_DURABLE.PSN, .ro, fun _ => 0, .none, false, false⟩]⟩,
  ⟨"HLD_CNT", 0x0030, [], [
    ⟨Fld.HLD_CNT.OVERFLOW, .ro, fun _ => 0, .none, false, false⟩,
    ⟨Fld.HLD_CNT.CHECKS, .ro, fun _ => 0, .none, false, false⟩,
    ⟨Fld.HLD_CNT.FAILS, .ro, fun _ => 0, .none, false, false⟩]⟩,
  ⟨"HLD_RCNT", 0x0034, [], [
    ⟨Fld.HLD_RCNT.COUNT, .ro, fun _ => 1, .none, false, false⟩]⟩]

/-- Registers of the PWR block (UNIT 0x12). -/
def regsPWR : List RegDesc := [
  ⟨"PWR_STATE", 0x0000, [], [
    ⟨Fld.PWR_STATE.STATE, .ro, fun _ => 0, .none, false, false⟩,
    ⟨Fld.PWR_STATE.SRC, .ro, fun _ => 0, .none, false, false⟩]⟩,
  ⟨"PWR_CLAMP", 0x0004, [], [
    ⟨Fld.PWR_CLAMP.COUNT, .ro, fun _ => 0, .none, false, false⟩]⟩,
  ⟨"PWR_WAKECFG", 0x0008, [], [
    ⟨Fld.PWR_WAKECFG.EN, .rw, fun _ => 0, .none, false, false⟩,
    ⟨Fld.PWR_WAKECFG.EDGE0, .rw, fun _ => 0, .codes 3 3 2, false, false⟩,
    ⟨Fld.PWR_WAKECFG.EDGE1, .rw, fun _ => 0, .codes 3 3 2, false, false⟩,
    ⟨Fld.PWR_WAKECFG.EDGE2, .rw, fun _ => 0, .codes 3 3 2, false, false⟩,
    ⟨Fld.PWR_WAKECFG.EDGE3, .rw, fun _ => 0, .codes 3 3 2, false, false⟩,
    ⟨Fld.PWR_WAKECFG.RTCEN, .rw, fun _ => 0, .none, false, false⟩,
    ⟨Fld.PWR_WAKECFG.WFILT, .rw, fun _ => 10, .below 1, false, false⟩]⟩,
  ⟨"PWR_RTCALM_LO", 0x000C, [], [
    ⟨Fld.PWR_RTCALM_LO.V, .rw, fun _ => 0, .none, false, false⟩]⟩,
  ⟨"PWR_RTCALM_HI", 0x0010, [], [
    ⟨Fld.PWR_RTCALM_HI.V, .rw, fun _ => 0, .none, false, false⟩]⟩,
  ⟨"PWR_WAKESTAT", 0x0014, [], [
    ⟨Fld.PWR_WAKESTAT.S, .w1c, fun _ => 0, .none, false, false⟩]⟩,
  ⟨"PWR_PARKTIME", 0x0018, [], [
    ⟨Fld.PWR_PARKTIME.MS, .ro, fun _ => 0, .none, false, false⟩]⟩]

/-- Registers of the HIC block (UNIT 0x13). -/
def regsHIC : List RegDesc := [
  ⟨"HIC_CLAMP", 0x0000, [], [
    ⟨Fld.HIC_CLAMP.COUNT, .ro, fun _ => 0, .none, false, false⟩]⟩,
  ⟨"HIC_C1_ENTRY", 0x0010, [], [
    ⟨Fld.HIC_C1_ENTRY.ENTRY, .rwl, fun _ => 0, .none, false, false⟩]⟩,
  ⟨"HIC_C1_CTRL", 0x0014, [], [
    ⟨Fld.HIC_C1_CTRL.START, .wo, fun _ => 0, .none, false, false⟩,
    ⟨Fld.HIC_C1_CTRL.RUN, .ro, fun _ => 0, .none, false, false⟩]⟩,
  ⟨"HIC_CACHEc", 0x0018, [(0x04, 2)], [
    ⟨Fld.HIC_CACHEc.DINV, .wo, fun _ => 0, .none, false, true⟩,
    ⟨Fld.HIC_CACHEc.IINV, .wo, fun _ => 0, .none, false, true⟩]⟩,
  ⟨"HIC_TICKDIV", 0x0020, [], [
    ⟨Fld.HIC_TICKDIV.DIV, .rw, fun _ => 1, .below 1, false, false⟩]⟩,
  ⟨"HIC_ECC", 0x0024, [], [
    ⟨Fld.HIC_ECC.CE, .ro, fun _ => 0, .none, false, false⟩,
    ⟨Fld.HIC_ECC.DE, .ro, fun _ => 0, .none, false, false⟩]⟩,
  ⟨"HIC_ECCADR", 0x0028, [], [
    ⟨Fld.HIC_ECCADR.ADR, .ro, fun _ => 0, .none, false, false⟩]⟩,
  ⟨"HIC_PRIOs", 0x0104, [(0x04, 24)], [
    ⟨Fld.HIC_PRIOs.PRIO, .rw, fun _ => 0, .none, false, true⟩]⟩,
  ⟨"HIC_PENDING", 0x0180, [], [
    ⟨Fld.HIC_PENDING.P, .ro, fun _ => 0, .none, false, false⟩]⟩,
  ⟨"HIC_IRQc_EN", 0x0200, [(0x10, 2)], [
    ⟨Fld.HIC_IRQc_EN.EN, .rw, fun _ => 0, .none, false, true⟩]⟩,
  ⟨"HIC_IRQc_THR", 0x0204, [(0x10, 2)], [
    ⟨Fld.HIC_IRQc_THR.THR, .rw, fun _ => 0, .none, false, true⟩]⟩,
  ⟨"HIC_IRQc_CLAIM", 0x0208, [(0x10, 2)], [
    ⟨Fld.HIC_IRQc_CLAIM.ID, .rw, fun _ => 0, .none, false, true⟩]⟩,
  ⟨"HIC_MTIME_LO", 0x0300, [], [
    ⟨Fld.HIC_MTIME_LO.T, .ro, fun _ => 0, .none, false, false⟩]⟩,
  ⟨"HIC_MTIME_HI", 0x0304, [], [
    ⟨Fld.HIC_MTIME_HI.T, .ro, fun _ => 0, .none, false, false⟩]⟩,
  ⟨"HIC_MTIMECMPc_LO", 0x0308, [(0x08, 2)], [
    ⟨Fld.HIC_MTIMECMPc_LO.T, .rw, fun _ => 0xFFFFFFFF, .none, false, true⟩]⟩,
  ⟨"HIC_MTIMECMPc_HI", 0x030C, [(0x08, 2)], [
    ⟨Fld.HIC_MTIMECMPc_HI.T, .rw, fun _ => 0xFFFFFFFF, .none, false, true⟩]⟩] ++ [
  ⟨"HIC_MSIPc", 0x0320, [(0x04, 2)], [
    ⟨Fld.HIC_MSIPc.MSIP, .rw, fun _ => 0, .none, false, true⟩]⟩,
  ⟨"HIC_WDw_CFG", 0x0400, [(0x20, 2)], [
    ⟨Fld.HIC_WDw_CFG.EN, .rwl, fun _ => 0, .cross, true, false⟩,
    ⟨Fld.HIC_WDw_CFG.FRZ, .rwl, fun _ => 0, .cross, true, false⟩,
    ⟨Fld.HIC_WDw_CFG.PRE, .rwl, fun _ => 0, .none, true, false⟩,
    ⟨Fld.HIC_WDw_CFG.DLY, .rwl, fun _ => 10, .none, true, false⟩]⟩,
  ⟨"HIC_WDw_WIN", 0x0404, [(0x20, 2)], [
    ⟨Fld.HIC_WDw_WIN.OPEN, .rwl, fun _ => 0, .cross, true, false⟩,
    ⟨Fld.HIC_WDw_WIN.CLOSE, .rwl, fun _ => 1000, .below 1, true, false⟩]⟩,
  ⟨"HIC_WDw_SVC", 0x0408, [(0x20, 2)], [
    ⟨Fld.HIC_WDw_SVC.KEY, .wo, fun _ => 0, .none, false, true⟩]⟩,
  ⟨"HIC_WDw_STAT", 0x040C, [(0x20, 2)], [
    ⟨Fld.HIC_WDw_STAT.CNT, .ro, fun _ => 0, .none, false, false⟩,
    ⟨Fld.HIC_WDw_STAT.CAUSE, .ro, fun _ => 0, .none, false, false⟩,
    ⟨Fld.HIC_WDw_STAT.FOREIGN, .ro, fun _ => 0, .none, false, false⟩]⟩,
  ⟨"HIC_SEMn", 0x0500, [(0x04, 16)], [
    ⟨Fld.HIC_SEMn.OWNER, .rw, fun _ => 0, .none, false, true⟩]⟩]

/-- Registers of the XSP block (UNIT 0x14). -/
def regsXSP : List RegDesc := [
  ⟨"XSP_CFG", 0x0000, [], [
    ⟨Fld.XSP_CFG.MODE, .rwl, fun _ => 0, .none, true, false⟩,
    ⟨Fld.XSP_CFG.DIV, .rwl, fun _ => 0, .none, true, false⟩,
    ⟨Fld.XSP_CFG.DUMMY, .rwl, fun _ => 0, .none, true, false⟩,
    ⟨Fld.XSP_CFG.RDOP, .rwl, fun _ => 0, .none, true, false⟩]⟩,
  ⟨"XSP_CMD", 0x0004, [], [
    ⟨Fld.XSP_CMD.OP, .rw, fun _ => 0, .none, false, true⟩,
    ⟨Fld.XSP_CMD.NADDR, .rw, fun _ => 0, .codes 3 3 2, false, true⟩,
    ⟨Fld.XSP_CMD.DIR, .rw, fun _ => 0, .none, false, true⟩,
    ⟨Fld.XSP_CMD.NDATA, .rw, fun _ => 0, .above 256, false, true⟩,
    ⟨Fld.XSP_CMD.CS, .rw, fun _ => 0, .none, false, true⟩,
    ⟨Fld.XSP_CMD.GO, .wo, fun _ => 0, .none, false, true⟩]⟩,
  ⟨"XSP_ADDR", 0x0008, [], [
    ⟨Fld.XSP_ADDR.ADDR, .rw, fun _ => 0, .none, false, true⟩]⟩,
  ⟨"XSP_STAT", 0x000C, [], [
    ⟨Fld.XSP_STAT.BUSY, .ro, fun _ => 0, .none, false, false⟩,
    ⟨Fld.XSP_STAT.REFUSED, .w1c, fun _ => 0, .none, false, false⟩,
    ⟨Fld.XSP_STAT.TMO, .w1c, fun _ => 0, .none, false, false⟩,
    ⟨Fld.XSP_STAT.PROTLO, .ro, fun _ => 0, .none, false, false⟩]⟩,
  ⟨"XSP_PROT", 0x0010, [], [
    ⟨Fld.XSP_PROT.PROTLO, .ro, fun _ => 0, .none, false, false⟩,
    ⟨Fld.XSP_PROT.PROTHI, .ro, fun _ => 0, .none, false, false⟩]⟩,
  ⟨"XSP_CLAMP", 0x0014, [], [
    ⟨Fld.XSP_CLAMP.COUNT, .ro, fun _ => 0, .none, false, false⟩]⟩,
  ⟨"XSP_DATA", 0x0100, [(0x04, 64)], [
    ⟨Fld.XSP_DATA.W, .rw, fun _ => 0, .none, false, true⟩]⟩]

/-- Registers of the GPIO block (UNIT 0x15). -/
def regsGPIO : List RegDesc := [
  ⟨"GPIO_OUT", 0x0000, [], [
    ⟨Fld.GPIO_OUT.V, .rw, fun _ => 0, .none, false, true⟩]⟩,
  ⟨"GPIO_DIR", 0x0004, [], [
    ⟨Fld.GPIO_DIR.V, .rw, fun _ => 0, .none, false, true⟩]⟩,
  ⟨"GPIO_IN", 0x0008, [], [
    ⟨Fld.GPIO_IN.V, .ro, fun _ => 0, .none, false, false⟩]⟩,
  ⟨"GPIO_IRQCFG", 0x000C, [(0x04, 2)], [
    ⟨Fld.GPIO_IRQCFG.V, .rwl, fun _ => 0, .none, false, false⟩]⟩,
  ⟨"GPIO_IRQSTAT", 0x0014, [], [
    ⟨Fld.GPIO_IRQSTAT.V, .w1c, fun _ => 0, .none, false, false⟩]⟩]

/-- The registers of a UNIT code (R478: blocks stand in the order of the UNIT codes). -/
def regsOfUnit : Nat → List RegDesc
  | 0 => regsSYS
  | 1 => regsCLK
  | 2 => regsCMD
  | 3 => regsENG
  | 4 => regsTPR
  | 5 => regsPWM
  | 6 => regsPROT
  | 7 => regsACQ
  | 8 => regsPOS
  | 9 => regsFLD
  | 10 => regsWGH
  | 11 => regsISK
  | 12 => regsTHM
  | 13 => regsCAN
  | 14 => regsETH
  | 15 => regsCHK
  | 16 => regsBST
  | 17 => regsHLD
  | 18 => regsPWR
  | 19 => regsHIC
  | 20 => regsXSP
  | 21 => regsGPIO
  | _ => []

/-- The flattened index of an offset within an array of registers, or none. -/
def arrayIndex : List (Nat × Nat) → Nat → Nat → Option Nat
  | [], r, i => if r = 0 then some i else none
  | (stride, count) :: ds, r, i =>
      if r / stride < count then arrayIndex ds (r % stride) (i * count + r / stride) else none

def RegDesc.index? (d : RegDesc) (off : Nat) : Option Nat :=
  if off < d.off then none else arrayIndex d.dims (off - d.off) 0

/-- The first register of a list that an offset names, with its index. -/
def findReg : List RegDesc → Nat → Option (RegDesc × Nat)
  | [], _ => none
  | d :: ds, off => match d.index? off with
      | some i => some (d, i)
      | none => findReg ds off

/-- Base address of the register blocks. -/
def blockBase : Nat := 0x40000000

/-- The UNIT code and the offset of an address of the register space. -/
def unitOf (a : Nat) : Nat := (a - blockBase) / 0x10000
def offsetOf (a : Nat) : Nat := (a - blockBase) % 0x10000

/-- The register an aligned address names (none: a reserved offset or no register block). -/
def regAt (a : Nat) : Option (RegDesc × Nat) :=
  if a < blockBase then none else findReg (regsOfUnit (unitOf a)) (offsetOf a)

def RegDesc.resetWord (d : RegDesc) (i : Nat) : Word :=
  d.fields.foldl (fun w f => w ||| (BitVec.ofNat 32 (f.reset i) <<< f.bits.lo)) 0

/-- What a register the sparse register file does not list reads as: its reset value. -/
def regDefault (a : Nat) : Word :=
  match regAt a with
  | some (d, i) => d.resetWord i
  | none => 0

end Sys2Proof.Machine
end

