-- ==== Sys2Proof/Machine/StateTypes.lean ====
section
/-! DEFINITION. The data types of the dynamic state that lies outside the register file: command
rings, records, ledger, trips.  Registers, status fields included, live in the register file. -/

set_option Elab.async false

namespace Sys2Proof.Machine

/-! ### Command fabric -/

/-- A descriptor without its check word (R613). -/
structure Desc where
  w0 : Word
  w1 : Word
  w2 : Word
  w3 : Word := 0
  w4 : Word := 0
  w5 : Word := 0
  w6 : Word := 0
  deriving DecidableEq, Repr

/-- A fetched descriptor: where it stood, its place in the order of all fetches, and, for
TABLE_LOAD, the contents of its load buffer (R119). -/
structure Staged where
  desc : Desc
  slot : Nat
  epoch : Nat
  order : Nat
  load : List Word := []
  deriving DecidableEq, Repr

/-- A closed caravan waiting in the staging buffer (R51 to R57). -/
structure Caravan where
  ring : Nat
  members : List Staged
  /-- Tick counter of the first boundary whose cut-off it meets. -/
  met : Nat
  /-- Found late (R56). -/
  late : Bool := false
  deriving DecidableEq, Repr

/-- A FLUSHED record that waits for its fabric cycle and, unless its descriptor was fetched, for a slot of its
completion ring (R53, R70, R71). -/
structure FlushRec where
  slot : Nat
  seq : Nat
  caravan : Nat
  /-- The descriptor was fetched: its slot is reserved. -/
  fetched : Bool
  deriving DecidableEq, Repr

/-- One submission ring: accepted producer index, fetch index and epoch (R36), the open caravan,
the first slot of a halted caravan with its epoch, and the records of a FLUSH under way. -/
structure SqRun where
  pi : Nat := 0
  fetch : Nat := 0
  epoch : Nat := 0
  opened : List Staged := []
  haltFirst : Nat := 0
  haltEpoch : Nat := 0
  flushing : List FlushRec := []
  /-- Slot and epoch of the last descriptor that took effect (R97). -/
  last : Option (Nat × Nat) := none
  deriving DecidableEq, Repr

/-- A completion ring or the event ring: indices, phase of the lap under way (R65) and, oldest
first, the tick at which each unconsumed record was posted (Table CMD-7). -/
structure RecRing where
  pi : Nat := 0
  ci : Nat := 0
  phase : Bool := true
  ticks : List Nat := []
  deriving DecidableEq, Repr

/-- A completion record before it takes its PSN (Table CMD-10). -/
structure Completion where
  ring : Nat
  status : Nat
  seq : Nat
  word3 : Word
  deriving DecidableEq, Repr

/-- An event before it takes its PSN (Table CMD-11). -/
structure Ev where
  unit : Nat
  code : Nat
  cls : Nat
  inst : Nat := 0
  detail : Word := 0
  deriving DecidableEq, Repr

/-- The command fabric outside its registers. -/
structure Cmd where
  /-- Submission rings that differ from the state after reset, by ring number. -/
  sqs : List (Nat × SqRun) := []
  /-- Completion rings 0 to 3 and, as number 4, the event ring. -/
  rings : List (Nat × RecRing) := []
  /-- Closed caravans, in the order of their closing fetches. -/
  staged : List Caravan := []
  /-- Descriptors fetched since reset: the order of the next fetch. -/
  fetches : Nat := 0
  /-- Ring the fabric served last (R52). -/
  lastServed : Nat := 15
  /-- The cut-off of the next boundary has passed (R22). -/
  cutoff : Bool := false
  /-- Records that take their PSNs with the next posting (R64). -/
  posting : List Completion := []
  /-- FLUSHED records of rings disabled since the last boundary, and those that take their PSNs with the present
  boundary, ahead of its completions (R71). -/
  disabled : List Completion := []
  due : List Completion := []
  /-- Findings of the passes of the present tick with their instants; they take their PSNs before whatever is
  detected after them (R78). -/
  found : List (Nat × Ev) := []
  /-- Events dropped since the last EQ_OVERFLOW (R67). -/
  drops : Nat := 0
  /-- EVT_n is asserted (R69). -/
  evtLow : Bool := false
  /-- TABLE_LOAD buffers whose copy is under way in the present application (R119). -/
  loads : Nat := 0
  /-- Tick counter of the last boundary at which caravans applied (R97). -/
  lastApplied : Nat := 0
  /-- A PSN has been issued since reset. -/
  issued : Bool := false
  deriving DecidableEq, Repr

/-- One F1 cause in the escalation window (R91). -/
structure F1Cause where
  unit : Nat
  inst : Nat
  tick : Nat
  deriving DecidableEq, Repr

/-- Fault classes (R88 to R92). -/
structure Faults where
  /-- F1 causes of the last 255 × 1,024 ticks, the longest window. -/
  f1 : List F1Cause := []
  /-- UNIT and INST whose excursion above F1_LIMIT has been reported and lasts. -/
  reported : List (Nat × Nat) := []
  /-- F2 causes that persist, as event code and INST. -/
  f2 : List (Nat × Nat) := []
  /-- F2 held at the last boundary (R89). -/
  atTick : Bool := false
  deriving DecidableEq, Repr

/-! ### Ledger -/

/-- A ledger entry: its PSN and its words, a multiple of 8 (Table HLD-1). -/
structure LedgerEntry where
  psn : Nat
  words : List Word
  deriving DecidableEq, Repr

/-- Hold-up store and ledger on the field die (R532 to R547). -/
structure Ledger where
  /-- Entries the core die has sent and the field die has not accepted yet (R538). -/
  sent : List LedgerEntry := []
  /-- The ledger queue, oldest first. -/
  queue : List LedgerEntry := []
  /-- Units of the oldest entry already written. -/
  written : Nat := 0
  /-- Entries refused since the last overflow entry, and the PSN of the first (R538). -/
  refused : Nat := 0
  refusedPsn : Nat := 0
  /-- Hold-up check passed and not lost since (R536). -/
  passed : Bool := false
  /-- VHOLD has reached READY since reset release (R535). -/
  readySeen : Bool := false
  /-- The state HLD_STAT returns to if a check ends without result (R545). -/
  before : Nat := 0
  /-- Time in RUN at the start of the last check, in es. -/
  lastCheck : Nat := 0
  /-- The queue accepts entries (closed from supply loss on, R541). -/
  accepting : Bool := true
  /-- Frames the CAN0 export engine answers with (R544). -/
  export_ : List (List Byte) := []
  /-- Supply loss has been declared: the core die issues no PSN. -/
  lost : Bool := false
  /-- Unit of the log at which the oldest entry's writing began (R540). -/
  entryAt : Nat := 0
  deriving DecidableEq, Repr

/-! ### Die link -/

/-- The die link (R14, R15). -/
structure Dlink where
  /-- Sequence numbers the core die and the field die expect next. -/
  coreSeq : Nat := 0
  fieldSeq : Nat := 0
  /-- Instants of the last valid frame at the core die and at the field die. -/
  coreValid : Nat := 0
  fieldValid : Nat := 0
  /-- Ticks of lost STREAM frames within 1,024 ticks, STREAM frames lost in a row, and the F2 episode. -/
  losses : List Nat := []
  run : Nat := 0
  degraded : Bool := false
  /-- Failures of the CONTROL frame under way to the core die and to the field die. -/
  coreFails : Nat := 0
  fieldFails : Nat := 0
  /-- Units of the oldest ledger entry on its way that have arrived. -/
  units : Nat := 0
  deriving DecidableEq, Repr

/-! ### Control engine and three-pass logic -/

/-- What the loader computed for a running stall (R121, R171): its cost, the state words it reads
before it writes them and the parameters it reads, the output slots it reads, and the set-point
channels whose RESTART word it reads. -/
structure Loaded where
  cost : Nat := 0
  reads : List Nat := []
  slots : List Nat := []
  restarts : List Nat := []
  deriving DecidableEq, Repr

/-- An output holding register: the voted value of a binding with its parity bit (R178). -/
structure Held where
  bind : Nat
  word : Word
  parity : Bool
  deriving DecidableEq, Repr

/-- Control engine, voter and state scrub outside their registers. -/
structure Eng where
  /-- Held words of the three passes; an unlisted word is 0 (keys: `engKey`, `slotKey`). -/
  words : List (Nat × Word) := []
  /-- Running signature registers, by `128 · pass + stall`; an unlisted one holds its seed. -/
  sigs : List (Nat × Word) := []
  /-- Results of the loader, by stall. -/
  loaded : List (Nat × Loaded) := []
  /-- Stalls that ran in the signature window, and its opening tick. -/
  ran : List Nat := []
  windowStart : Nat := 0
  /-- Windows ended so far, and the window whose salted test is due (R179). -/
  windows : Nat := 0
  saltDue : Option Nat := none
  /-- Window of the last voter fault (R180). -/
  voterFault : Option Nat := none
  /-- Stalls committed in the present tick, as (pass, stall). -/
  committed : List (Nat × Nat) := []
  /-- Stalls copied from pass A into B and C before the next pass A (R128, R169). -/
  copyDue : List Nat := []
  /-- Stalls resynchronised or copied in the present tick (R174). -/
  touched : List Nat := []
  /-- Staged outputs of the tick before, and a cause of the present tick that opened no hold: they stay in force
  (R168). -/
  prior : List Held := []
  frozen : Bool := false
  /-- RESTART and HO_FIRST words that read 1 in the next run, as (stall, channel), HO_FIRST of machine
  m as channel 0x100 + m (R139, R324). -/
  restart : List (Nat × Nat) := []
  /-- Tick of the last NUM_RANGE of a stall (R101). -/
  rangeTick : List (Nat × Option Nat) := []
  /-- STALL_EVENTs flagged in all three passes, as (stall, code), posted after the vote. -/
  flagged : List (Nat × Nat) := []
  /-- The passes of the present tick have begun, and the vote is complete. -/
  started : Bool := false
  voted : Bool := false
  /-- Where the engine stands at the deadline: pass (3 = vote), stall, operation. -/
  reached : Option (Nat × Nat × Nat) := none
  /-- Output holding registers: staged bank, bank in force, and what has been transferred towards
  the sinks for the next boundary. -/
  staged : List Held := []
  applied : List Held := []
  transfer : Option (List Held) := none
  /-- Live words that the scrub found divergent, as (stall, minority pass). -/
  marks : List (Nat × Nat) := []
  /-- Units the hold under way acts on (R167), units commanded at the next boundary (R178), and the
  tick at which source 17 last became active. -/
  holdUnits : Nat := 0
  safeNext : Nat := 0
  /-- Bindings whose registers in the bank in force have been reported (R178). -/
  badApplied : List Nat := []
  safeTick : Nat := 0
  /-- A hold has run out at the last boundary, and its safe state is to be commanded (R166). -/
  expired : Bool := false
  /-- Shadow watch: first tick, and the tick from which it has ended; a class has mismatched. -/
  watchFrom : Nat := 0
  watchTo : Nat := 0
  mismatched : Bool := false
  /-- Classes whose serving unit has been taken out of service, as bits (R130, R131). -/
  lost : Nat := 0
  /-- DEFERRABLE stalls are skipped from this boundary on (R402). -/
  skip : Bool := false
  deriving DecidableEq, Repr

/-! ### Committed configuration image (R553) -/

/-- The committed configuration image: its register words, with the bits of no image field at 0 or
their reset value, recipe and table memory by byte address, and the seal, kept current by every write. -/
structure Image where
  regs : List (Nat × Word) := []
  mem : List (Nat × Byte) := []
  sealCrc : Word := 0
  deriving DecidableEq, Repr

/-! ### Self-test -/

/-- A unit under BIST (R513 to R521). -/
structure TestRun where
  code : Nat
  kind : Nat
  /-- 0 rotation, 1 request. -/
  src : Nat
  /-- STATE before the test: a spare that was FREE returns to FREE, and a failure may claim it. -/
  prior : Nat := 0
  /-- The test of UNIT_READMIT (R521). -/
  readmit : Bool := false
  deriving DecidableEq, Repr

/-- A spare that shadows a serving unit before that unit's test (R516). -/
structure Shadowing where
  spare : Nat
  code : Nat
  kind : Nat
  src : Nat
  deriving DecidableEq, Repr

/-- A row with a corrected error: macro's memory unit, macro, row, word and tick (R524). -/
structure RowError where
  unit : Nat
  mac : Nat
  row : Nat
  word : Nat
  tick : Nat
  deriving DecidableEq, Repr

/-- A life-cycle token under verification: its 44 words and the words' source offset (R527). -/
structure Token where
  words : List Word
  deriving DecidableEq, Repr

/-- A life-cycle state asked for, the PSN of its ledger entry, and whether that is durable. -/
structure LcsNext where
  state : Nat
  psn : Nat
  durable : Bool := false
  deriving DecidableEq, Repr

/-- Self-test bookkeeping outside BST registers. -/
structure Bst where
  /-- Units whose present absence a run-time detector caused (R522). -/
  detected : List Nat := []
  /-- Units in quarantine that take over at a failure: those that have passed a BIST, and spares whose test
  was aborted to free them (R517, R529). -/
  fit : List Nat := []
  /-- Units that passed a test in PARK and go on at its exit (R519). -/
  parked : List Nat := []
  tests : List TestRun := []
  shadows : List Shadowing := []
  /-- Units that a requested test has taken out of service with no stand-in, until they serve again (R84). -/
  out : List Nat := []
  /-- The units of pending rotation steps, in order (R515). -/
  pend : List Nat := []
  /-- Time in RUN up to an instant from which it counts on, time in RUN at which the last step was due, and
  time in RUN of each unit's last complete test, in es (R514, R515). -/
  ran : Nat := 0
  runFrom : Nat := 0
  stepAt : Nat := 0
  tested : List (Nat × Nat) := []
  /-- Units whose ROT_OVERDUE has been posted since their last complete test (R515). -/
  overdue : List Nat := []
  /-- Corrected errors in the window of R524, rows under copy, rows mapped, as (unit, macro, row). -/
  rowErrors : List RowError := []
  copying : List (Nat × Nat × Nat) := []
  mapped : List (Nat × Nat × Nat) := []
  /-- Mappings of a march that are still to be posted, once the event ring is enabled (R523). -/
  toPost : List (Nat × Nat × Nat) := []
  tokens : List Token := []
  /-- The state that a valid token asked for, with the PSN of its ledger entry (R527). -/
  lcsNext : Option LcsNext := none
  deriving DecidableEq, Repr

/-! ### Acquisition -/

/-- A window accumulator of a sequence entry (R251). -/
structure Acc where
  sum : Nat := 0
  count : Nat := 0
  least : Nat := 0
  greatest : Nat := 0
  sat : Bool := false
  lost : Bool := false
  full : Bool := false
  deriving DecidableEq, Repr

/-- A spare core beside a live one, or a quarantined core beside the spare that serves (R256, R520):
the core compared, the core that serves, pairs taken, the sum of differences, and whether one
exceeded SHTOL. -/
structure PairWatch where
  core : Nat
  live : Nat
  pairs : Nat := 0
  sum : Int := 0
  bad : Bool := false
  deriving DecidableEq, Repr

/-- An acquisition group outside its registers. -/
structure AcqGroup where
  /-- The slot that ends next (R248). -/
  slot : Nat := 0
  /-- A failed or released core whose sequence the spare takes at the next boundary, and the CAUSE of
  CORE_SWAP. -/
  takeover : Option (Nat × Nat) := none
  watch : Option PairWatch := none
  /-- An urgent conversion under way: its source and input code. -/
  urgent : Option (Nat × Nat) := none
  /-- A request by URGGO, comparator or angle event is on its way (Table ACQ-3). -/
  asked : Bool := false
  /-- Instant from which input 12 is checked again after a change of the test DAC (R261). -/
  tdacFrom : Nat := 0
  /-- A change of TDAC waits for the end of a comparator test (Table ACQ-6). -/
  tdacHeld : Bool := false
  /-- The idle spare converts input 13 in the slot under way, from its beginning and not abandoned (R260). -/
  idle : Bool := false
  /-- Consecutive windows beyond SUMTOL (R264). -/
  sumCount : Nat := 0
  deriving DecidableEq, Repr

/-- Diagnosis of a core: consecutive deviations, and the tick after the one of its last
DIAG_MISMATCH (R261). -/
structure CoreDiag where
  run : Nat := 0
  posted : Nat := 0
  deriving DecidableEq, Repr

/-- The counts of a closed delta-sigma window. -/
structure DsWin where
  ones : Nat := 0
  bits : Nat := 0
  err : Bool := false
  least : Option Word := none
  greatest : Option Word := none
  deriving DecidableEq, Repr

/-- A delta-sigma channel: counts of the window, a decoding error in it, the sinc3 filter's
integrators, combs and bits since its last output, and the outputs of the window (R266 to R268). -/
structure DsRun where
  ones : Nat := 0
  bits : Nat := 0
  err : Bool := false
  i1 : Nat := 0
  i2 : Nat := 0
  i3 : Nat := 0
  c1 : Nat := 0
  c2 : Nat := 0
  c3 : Nat := 0
  phase : Nat := 0
  least : Option Word := none
  greatest : Option Word := none
  /-- Counts of bits that fall after the coming boundary. -/
  ahead : DsWin := {}
  /-- Mid-bit transition of the last bit of a Manchester stream; none until it is synchronised (R266). -/
  mid : Option Nat := none
  /-- Tick after the one of the last DS_INVALID. -/
  posted : Nat := 0
  deriving DecidableEq, Repr

/-- A comparator under test: the step that runs (R262). -/
structure CmpTest where
  cmp : Nat
  step : Nat
  deriving DecidableEq, Repr

/-- Acquisition outside its registers. -/
structure Acq where
  groups : List (Nat × AcqGroup) := []
  /-- Accumulators of the open window, of the coming one and of the last closed one, by entry number 16a + e. -/
  accs : List (Nat × Acc) := []
  ahead : List (Nat × Acc) := []
  closed : List (Nat × Acc) := []
  diags : List (Nat × CoreDiag) := []
  ds : List (Nat × DsRun) := []
  dsClosed : List (Nat × DsWin) := []
  tests : List CmpTest := []
  deriving DecidableEq, Repr

/-! ### Position channels -/

/-- What a channel latches at t0 (R291). -/
structure PosSnap where
  theta : Word := 0
  omega : Word := 0
  alpha : Word := 0
  cnt : Nat := 0
  wrapn : Int := 0
  resid : Word := 0
  age : Word := 0
  deriving DecidableEq, Repr

/-- A position channel outside its registers (R274 to R298); instants are in es. -/
structure PosCh where
  /-- Observer: sensor angle, speed, acceleration, and the instant of the last update. -/
  theta : Word := 0
  omega : Word := 0
  alpha : Word := 0
  last : Nat := 0
  /-- CHECK: the observer waits for its first measurement, then for its second for ω; the first is
  that of a re-admission; consecutive ticks that satisfied R297. -/
  fresh : Bool := false
  second : Bool := false
  readmit : Bool := false
  checkTicks : Nat := 0
  /-- COAST: instant of its start; the re-acquisition limit is in force (R295). -/
  coastAt : Nat := 0
  slewing : Bool := false
  /-- The sensor delivers valid measurements (R296). -/
  delivers : Bool := false
  /-- Consecutive out-of-window and in-window pairs (R277, R295). -/
  outRun : Nat := 0
  inRun : Nat := 0
  /-- Accepted levels A, B, Z, as bits 0 to 2. -/
  levels : Nat := 0
  /-- Net change of the counter in the tick, consecutive rate violations, and ticks of glitches and double steps
  within 1,024 ticks (R281, R282). -/
  steps : Int := 0
  rateRun : Nat := 0
  glitches : List Nat := []
  dsteps : List Nat := []
  /-- Index: the counter at the last one, its errors in a row, a missing one already counted, and
  ZREF with whether it has been set since TRACK (R283, R284). -/
  zlast : Option Nat := none
  zerrs : Nat := 0
  zmissed : Bool := false
  zref : Nat := 0
  zset : Bool := false
  /-- Instant of the last accepted step (R290). -/
  stepAt : Nat := 0
  /-- SIN/COS: quadrant of the last pair and signal periods counted (R278). -/
  quadrant : Option Nat := none
  periods : Int := 0
  /-- SENT: length of the last calibration pulse in fc, and the status nibbles of the last good frames, oldest first;
  SSI: start of the frame under way, and instant at which its monoflop time ends; instant of the last valid frame of
  either. -/
  calib : Option Nat := none
  slow : List Nat := []
  ssiStart : Option Nat := none
  ssiNext : Option Nat := none
  frameAt : Nat := 0
  /-- Instant of the last measurement (Table POS-2, AGE). -/
  measAt : Nat := 0
  /-- Window: net wraps and the largest |er| in rad electrical. -/
  wraps : Int := 0
  resid : Word := 0
  /-- Last amplitude, V. -/
  ampl : Word := 0
  snap : PosSnap := {}
  /-- Consecutive ticks outvoted, and consecutive ticks of disagreement (R298). -/
  outvoted : Nat := 0
  disagree : Nat := 0
  /-- Tick after the one in which OFFSET last changed (R301). -/
  offsetTick : Nat := 0
  deriving DecidableEq, Repr

/-- Position feedback outside its registers. -/
structure Pos where
  chans : List (Nat × PosCh) := []
  /-- Consecutive ticks in which the sensorless estimate of a paired machine was outvoted. -/
  sOut : Nat := 0
  /-- Instant of the last enable of each sensor supply (R299). -/
  supplyAt : List (Nat × Nat) := []
  deriving DecidableEq, Repr

/-! ### Field control -/

/-- The back-EMF estimator (R326). -/
structure EmfEst where
  theta : Word := 0
  omega : Word := 0
  /-- Currents of the previous window in the frame of that window, and stationary. -/
  prevD : Word := 0
  prevQ : Word := 0
  prevA : Word := 0
  prevB : Word := 0
  /-- 0 running; 1 and 2: waiting for the first and the second window of a reinitialisation, with the
  angle of e in the first. -/
  init : Nat := 1
  first : Word := 0
  /-- Consecutive windows below EMIN. -/
  low : Nat := 0
  /-- Of the last window: validity, |ε|, |e|, and e in the estimator's frame. -/
  valid : Bool := false
  eps : Word := 0
  mag : Word := 0
  ed : Word := 0
  eq : Word := 0
  deriving DecidableEq, Repr

/-- The HFI estimator (R327, R328). -/
structure HfiEst where
  theta : Word := 0
  omega : Word := 0
  /-- Instant of the last update. -/
  at_ : Nat := 0
  /-- Steps of injection so far, and the signs injected at the last boundaries, newest first. -/
  step : Nat := 0
  signs : List Int := []
  /-- q-axis current of the last window in the injection frame. -/
  prevQ : Word := 0
  eps : Word := 0
  /-- Consecutive updates with small ε; converged and with its polarity known. -/
  conv : Nat := 0
  ok : Bool := false
  deriving DecidableEq, Repr

/-- A requested handover: the mode asked for, or none for a change of source within the mode, the
blend length, and boundaries deferred (R323). -/
structure HoReq where
  mode : Option Nat
  blend : Nat
  deferred : Nat := 0
  deriving DecidableEq, Repr

/-- A blend under way from source `out` to `inn`: step `j` of `n` (R324). -/
structure Blend where
  out : Nat
  inn : Nat
  j : Nat
  n : Nat
  deriving DecidableEq, Repr

/-- A machine of field control outside its registers (R305 to R339); instants are in es. -/
structure FldM where
  est : EmfEst := {}
  hfi : HfiEst := {}
  /-- Values delivered to the sinks, and the voltage that governed the window just closed. -/
  vAlpha : Word := 0
  vBeta : Word := 0
  winAlpha : Word := 0
  winBeta : Word := 0
  modreg : Nat := 0
  vertex : Nat := 7
  loadang : Word := 0
  ifRef : Word := 0
  /-- The continuous angle at the last re-base, unwrapped, and the instant of the re-base (R315). -/
  turn : Int := 0
  baseAt : Nat := 0
  ho : Option HoReq := none
  blend : Option Blend := none
  /-- The control source is taken anew at the next boundary, without handover. -/
  jump : Bool := true
  /-- Instant and tick at which the start state was entered. -/
  startAt : Nat := 0
  startTick : Nat := 0
  /-- Every window of the watch's second half had |e| below EMIN. -/
  quiet : Bool := true
  /-- Start state that a recapture enters at its release, and a recapture due at the next boundary. -/
  plan : Nat := 0
  catchDue : Bool := false
  /-- An attempt runs, with the control angle's travel since its first boundary (R333). -/
  attempt : Bool := false
  travel : Int := 0
  /-- I-f start: angle and speed. -/
  ifTheta : Word := 0
  ifOmega : Word := 0
  /-- Polarity test: step, d-axis current of the + pulse and of the − pulse, repetitions made (R328). -/
  polStep : Nat := 0
  polPlus : Word := 0
  polMinus : Word := 0
  polTries : Nat := 0
  /-- Consecutive ticks toward a lost rotor and toward a lost field (R334, R339). -/
  lostRun : Nat := 0
  fieldRun : Nat := 0
  reverse : Bool := false
  /-- AUTO: weight in force, and injection below WB2 (R329). -/
  weight : Word := 0
  inject : Bool := true
  /-- The blend's weight is held at its last value, and that has been reported (R329). -/
  weightHeld : Bool := false
  /-- Consecutive boundaries that deferred six-step entry (R320). -/
  seqDefer : Nat := 0
  deriving DecidableEq, Repr

/-- An angle-event slot outside its registers (R316): direction, distance, the continuous angle at
arming, machine, whether it is flagged late, and the angle a binding has delivered. -/
structure EvSlot where
  forward : Bool := true
  dist : Nat := 0
  start : Int := 0
  late : Bool := false
  bound : Option Word := none
  deriving DecidableEq, Repr

/-- Field control outside its registers. -/
structure FieldCtl where
  machines : List (Nat × FldM) := []
  slots : List (Nat × EvSlot) := []
  /-- Slots that fired in the open window, and those flagged late; the same of the closed window. -/
  fired : Nat := 0
  firedLate : Nat := 0
  closed : Nat := 0
  closedLate : Nat := 0
  deriving DecidableEq, Repr

/-! ### Check units and memory scan -/

/-- A scan slot outside its registers (R503 to R506): the target under way, whether the pass reports
SCAN_DONE, whether the target has been written since its start, and the instant of the last start. -/
structure ScanSlot where
  target : Nat := 0
  report : Bool := false
  spoiled : Bool := false
  startAt : Nat := 0
  deriving DecidableEq, Repr

/-- Memory scan outside CHK registers. -/
structure Chk where
  /-- A scan found the committed image bad: every load from it is refused until a reset (R506). -/
  imageBad : Bool := false
  /-- Running registers of the units that differ from their reset value. -/
  units : List (Nat × Word) := []
  scans : List (Nat × ScanSlot) := []
  deriving DecidableEq, Repr

/-! ### DC-link discharge -/

/-- A DC-link discharge under way (R357 to R364); instants are in es. -/
structure Dis where
  /-- Target voltage, and the instants of the start and of the deadline. -/
  target : Word := 0
  startAt : Nat := 0
  deadlineAt : Nat := 0
  /-- Consecutive boundaries at which the voltage was at or below the target. -/
  below : Nat := 0
  /-- Voltage at the start of the 100 ms interval under way, if it was valid, and that instant. -/
  mark : Option Word := none
  markAt : Nat := 0
  /-- Consecutive ticks in which the chopper current deviated. -/
  deviate : Nat := 0
  /-- A chopper or energy drop has barred the resistor method since the last reset. -/
  barred : Bool := false
  /-- Boundaries since the winding method started (R362). -/
  boundaries : Nat := 0
  /-- The resistor method replaces a lost winding method at the next boundary (R363). -/
  fallback : Bool := false
  /-- Duty of pair 10 set at the last boundary. -/
  duty : Word := 0
  deriving DecidableEq, Repr

/-! ### Weigh-house -/

/-- A monitor of the weigh-house outside its registers (R344 to R356). -/
structure WghM where
  /-- Reference, and the torque of the last window unless that was blind. -/
  tRef : Word := 0
  last : Option Word := none
  /-- The last three deliveries of the command and of the engine's own estimate, newest first. -/
  cmd : List Word := [0, 0, 0]
  pri : List Word := [0, 0, 0]
  /-- Sign count and start count (Table WGH-2), and consecutive blind ticks. -/
  sign : Nat := 0
  startc : Nat := 0
  blind : Nat := 0
  /-- Cause that keeps the monitor BLIND until a reset: 2 map scan, 3 self-test. -/
  stuck : Option Nat := none
  /-- Result of the test point when EN was set. -/
  test : Word := 0
  deriving DecidableEq, Repr

/-! ### Isnak link -/

/-- A node of an Isnak link as the device keeps it (R371, R380, R388). -/
structure IskNode where
  /-- Consecutive failed slots; a valid slot reports a fault. -/
  fails : Nat := 0
  reported : Bool := false
  /-- The failed slots have been reported as a fault (R371). -/
  silent : Bool := false
  /-- S0 to S2 of the last valid slot, to be published with the next window, and the ticks since. -/
  data : Word := 0
  age : Nat := 0
  /-- Slot errors since the last SLOT_ERR; ticks after those of the last SLOT_ERR and PLAN_NACK. -/
  errs : Nat := 0
  errPosted : Nat := 0
  nackPosted : Nat := 0
  deriving DecidableEq, Repr

/-- An Isnak link outside its registers (R370 to R385). -/
structure IskLink where
  nodes : List (Nat × IskNode) := []
  /-- The last frame sent, by character: bit 8 marks a control character. -/
  frame : List Nat := []
  /-- Enumerations failed in a row, and RUN due at the next boundary or heartbeat. -/
  enumFails : Nat := 0
  upDue : Bool := false
  /-- A collection frame is out; frames or broadcasts missing in a row. -/
  out : Bool := false
  missing : Nat := 0
  /-- Isnak-1: the node polled next, polls since the broadcast and those answered. -/
  poll : Nat := 0
  polls : Nat := 0
  answers : Nat := 0
  deriving DecidableEq, Repr

/-! ### Thermal model -/

/-- A leg of the power-stage model outside its registers (R389 to R395). -/
structure ThmLeg where
  /-- Last valid average, minimum and maximum of the current, and voltage. -/
  iAvg : Word := 0
  iMin : Word := 0
  iMax : Word := 0
  v : Word := 0
  /-- Consecutive ticks with an invalid input. -/
  bad : Nat := 0
  /-- Foster stages of the switch and of the diode node. -/
  sw : List Word := [0, 0, 0, 0]
  di : List Word := [0, 0, 0, 0]
  /-- T_REF, its source (0 baseplate, 1 coolant, 2 held) and how long it has been held, in es. -/
  tRef : Word := 0
  src : Nat := 0
  heldFor : Nat := 0
  /-- Strength nibbles of the plans sent at the boundary that opened the window just closed, and at
  the last boundary. -/
  codeWas : Nat := 0
  code : Nat := 0
  deriving DecidableEq, Repr

/-- A level's qualifier, with the time since the first evaluation at or above it, and at or below it
less the hysteresis, in es (R398). -/
structure Qual where
  on : Bool := false
  above : Option Nat := none
  below : Option Nat := none
  deriving DecidableEq, Repr

/-- Qualifiers and derate of a unit, or of the chip as number 5. -/
structure ThmUnit where
  warn : Qual := {}
  thr : Qual := {}
  shut : Qual := {}
  deriving DecidableEq, Repr

/-- Thermal management outside its registers. -/
structure Thm where
  legs : List (Nat × ThmLeg) := []
  units : List (Nat × ThmUnit) := []
  chip : List Word := [0, 0, 0]
  /-- Divisor decided at the last evaluation, published in T_NEXT, and in force (R399). -/
  divDecided : Nat := 1
  divNext : Nat := 1
  div : Nat := 1
  /-- Host clock division code and skipping from the next boundary on. -/
  hdivNext : Nat := 0
  skipNext : Bool := false
  /-- Derates decided at the last evaluation, units 0 to 4. -/
  ders : List Word := List.replicate 5 0x3F800000
  deriving DecidableEq, Repr

/-! ### Clocks and time -/

/-- A PLL outside its registers (R413 to R422). -/
structure PllRun where
  /-- Declared locked at some time since reset. -/
  ever : Bool := false
  /-- The filter check failed: never declared locked. -/
  filterBad : Bool := false
  /-- Instant of the last unlock, and the reference was absent since. -/
  unlockAt : Option Nat := none
  refGone : Bool := false
  /-- Under rotation test. -/
  testing : Bool := false
  /-- Re-acquisition slews until this instant (R422). -/
  slewTo : Nat := 0
  deriving DecidableEq, Repr

/-- Clocks outside their registers. -/
structure Clk where
  /-- The real-time clock (R429): its count at an instant, from which it runs on. -/
  rtc : Nat := 0
  rtcAt : Nat := 0
  plls : List (Nat × PllRun) := []
  /-- The domains have moved to the PLLs once since reset (R415). -/
  homed : Bool := false
  /-- Source the ADC clock moves to at the next boundary. -/
  adcNext : Option Nat := none
  /-- Instant of the loss of the reference. -/
  refLost : Option Nat := none
  /-- Disciplining (R423): the integral in ppm, the offset aimed at in 1/64 ppm, and the instant up to
  which the applied offset has moved. -/
  fi : Word := 0
  aim : Int := 0
  ofsAt : Nat := 0
  /-- The error is beyond a tick (R425). -/
  beyond : Bool := false
  /-- TICK_IN (R427): consecutive errors, an episode of either kind, the last edge. -/
  inErrs : Nat := 0
  inEpisode : Bool := false
  inMissing : Bool := false
  inAt : Nat := 0
  deriving DecidableEq, Repr

/-- A steering of the vehicle time counter (R467): RATE in force, a step in ns, or a load from the SET registers. -/
inductive VtSteer where
  | rate (w : Word)
  | step (w : Word)
  | set
  deriving DecidableEq, Repr

/-- The vehicle time counter (R467): its value in 2^-16 ns at an instant, from which it runs on with the RATE in
force. -/
structure Vt where
  base : Nat := 0
  baseAt : Nat := 0
  rate : Word := 0
  /-- Steering of the present application interval: it takes effect at the interval's end (R467). -/
  due : List VtSteer := []
  /-- Instant of the last steering write (R468). -/
  steered : Option Nat := none
  /-- ETH_TVT_TICK has been read, ETH_TVT_NS not yet (R469); the words latched meanwhile. -/
  frozen : Bool := false
  latched : Option (Word × Word) := none
  deriving DecidableEq, Repr

/-! ### PWM generator -/

/-- A timebase (R184 to R194): where it stands in its period.  Lengths and instants are in es. -/
structure Tb where
  running : Bool := false
  /-- A slave waits for TB0's zero to start (R185). -/
  waiting : Bool := false
  /-- Instant of the last zero. -/
  zeroAt : Nat := 0
  /-- Lengths of the opening and the closing half of the period under way. -/
  up : Nat := 0
  down : Nat := 0
  pastHalf : Bool := false
  /-- Divisor in force (R192). -/
  div : Nat := 1
  /-- State of the dither sequence, seeded at RUN, and the offsets of the present and the next period
  (R190). -/
  lfsr : BitVec 16 := 0xACE1
  delta : Int := 0
  nextDelta : Int := 0
  /-- Phase in force of a slave, and the lengthening of its period under way (R189). -/
  phase : Nat := 0
  /-- The vehicle-time offset in force on TB0 (R193), and a realignment due at the next zero. -/
  vtOfs : Nat := 0
  realign : Bool := false
  /-- The timebase has run since reset: only TB0's first RUN steps it onto the grid (R193). -/
  ran : Bool := false
  /-- Clock the timebase moves to at its next zero, as TBn_STAT.CLK (R209). -/
  clkNext : Option Nat := none
  /-- Delay-line calibration is complete; coarse mode ends at the next zero (R209). -/
  calibrated : Bool := false
  /-- Count held in PARK (R185, R560). -/
  held : Nat := 0
  deriving DecidableEq, Repr

/-- What the gate balls of a pair did in a window: time on in es, turn-ons and turn-offs (R391). -/
structure PairWin where
  h : Nat := 0
  l : Nat := 0
  hOns : Nat := 0
  hOffs : Nat := 0
  lOns : Nat := 0
  lOffs : Nat := 0
  deriving DecidableEq, Repr

/-- A pair and its generator: the period under way, the reference and the gate balls. -/
structure Pair where
  /-- Duty delivered by a binding and in force, and the one transferred for the next update point. -/
  bound : Option Word := none
  boundNext : Option Word := none
  /-- Mask word delivered for the next update point (R203). -/
  maskNext : Option Word := none
  /-- Duty in force of a LEGACY pair (R207). -/
  legacy : Word := 0
  /-- Mask code that a caravan wrote while a binding drives the mask; it comes into force when the binding is
  removed (Table ARCH-4). -/
  maskStored : Option Nat := none
  /-- Period, width and carry of the judgement at the zero (R617). -/
  p1 : Nat := 0
  w1 : Nat := 0
  c0 : Int := 0
  wcmd : Nat := 0
  /-- Reference level, and its transitions to come as (instant, level). -/
  ref : Bool := false
  edges : List (Nat × Bool) := []
  /-- Levels of the balls PWMkH and PWMkL. -/
  h : Bool := false
  l : Bool := false
  /-- Instants of the last turn-offs. -/
  hOff : Nat := 0
  lOff : Nat := 0
  /-- Ends of the dead times that began at the last turn-off of the opposite output (R227). -/
  hReady : Nat := 0
  lReady : Nat := 0
  /-- The output enable was set while the unit was in safe state: it takes effect at the release (R236). -/
  enabling : Bool := false
  /-- Turn-ons that wait for their dead time. -/
  hOn : Option Nat := none
  lOn : Option Nat := none
  /-- Spare generator that takes over at a clear zero, and the CAUSE of GEN_SWAP (R212). -/
  swapTo : Option Nat := none
  swapCause : Nat := 0
  /-- Shadow periods still to run, then zeros that were not clear. -/
  swapWatch : Nat := 0
  swapFails : Nat := 0
  /-- Instants of the last transition of the reference and of the last change of a ball. -/
  lastEdge : Nat := 0
  lastBall : Nat := 0
  /-- Tick of the last CARRY_SAT (R216). -/
  satTick : Option Nat := none
  /-- An angle event has swapped the mask while the unit was in safe state: it holds at the release
  (Table PROT-4). -/
  maskHeld : Bool := false
  /-- The open window of the balls, and the window just closed; instants of the last turn-ons or of
  the window's opening. -/
  win : PairWin := {}
  closed : PairWin := {}
  hFrom : Nat := 0
  lFrom : Nat := 0
  deriving DecidableEq, Repr

/-- A field write armed for the first update point in a tick of counter `due` or later (R205). -/
structure Armed where
  addr : Nat
  word : Word
  due : Nat
  deriving DecidableEq, Repr

/-- PWM generator outside its registers. -/
structure Pwm where
  tbs : List (Nat × Tb) := []
  pairs : List (Nat × Pair) := []
  /-- Words in force of the TBn, PAIRk and CLK_TICKCFG registers that differ from reset. -/
  force : List (Nat × Word) := []
  /-- Writes armed for the first update point after the next boundary (R205). -/
  armed : List Armed := []
  /-- Bus writes before setup lock that wait for PWM_LDALL (R206). -/
  waiting : List (Nat × Word) := []
  /-- LEGACY loads armed, as (timebase, tick from which an update point takes them) (R207). -/
  loadAll : List (Nat × Nat) := []
  deriving DecidableEq, Repr

/-! ### Trips and safe states -/

/-- An active cause of a trip source whose units the cause gives (Table PROT-2, R221): `tag` tells
the causes of one source apart. -/
structure TripCause where
  src : Nat
  tag : Nat
  units : Nat
  deriving DecidableEq, Repr

/-- What one fabric cycle finds: its events, which take their PSNs in the order of R66, and the causes that make
their trip sources active a cycle later. -/
structure Batch where
  events : List Ev := []
  causes : List TripCause := []
  deriving DecidableEq, Repr

/-- Trip logic and arbiter outside their registers. -/
structure Prot where
  /-- Active causes of internal sources. -/
  causes : List TripCause := []
  /-- Units a set latch acts on, for sources whose units the cause gives, by source number. -/
  latchUnits : List (Nat × Nat) := []
  /-- Explicit host state of bridges A and B: 0 none, else a STATE code (R232). -/
  explicitA : Nat := 0
  explicitB : Nat := 0
  /-- Instant in es at which the bridge entered ASC (R231). -/
  ascSinceA : Nat := 0
  ascSinceB : Nat := 0
  /-- Units whose CBC hold is in force, per source number: pairs held low (R223). -/
  cbc : List (Nat × Nat) := []
  /-- CBC activations since the last CBC_ACTIVE, and the tick after the one it was posted in, per
  source. -/
  cbcSince : List (Nat × Nat) := []
  cbcPosted : List (Nat × Nat) := []
  /-- Levels of the balls TRIP0 to TRIP15 as last sampled, and per filtered source the instant of the first sample
  of the present run of equal activity (R222). -/
  raw : Nat := 0xFFFF
  runs : List (Nat × Nat) := []
  /-- High and low sides of comparators CMP0 to CMP11 that are active (R225). -/
  cmpHi : Nat := 0
  cmpLo : Nat := 0
  /-- Units released at the end of the present application interval (R236, R237). -/
  releasing : Nat := 0
  /-- Units loaded from the image in the present interval, ahead of its caravans (R86). -/
  loaded : Nat := 0
  /-- Of those, bridges that an internal caravan of a recapture releases (R336). -/
  autoRel : Nat := 0
  /-- The auxiliary unit is to be released by TRIP_CLEAR (R237), which does not raise SAFE_n (R239). -/
  auxOwn : Bool := false
  /-- SAFE_n is driven low (R239). -/
  safeLow : Bool := true
  /-- A unit has been released since the last reset or PARK; until then every safe state is SPO (R241, R562). -/
  opened : Bool := false
  /-- Bridges whose outputs field control holds off, as unit bits (R308). -/
  heldOff : Nat := 3
  /-- Pair of the active discharge chopper while it runs (R219). -/
  chopper : Option Nat := none
  /-- SAFE_CONFLICT has been posted for the disagreement in force, per bridge (R229). -/
  conflict : Nat := 0
  deriving DecidableEq, Repr

/-! ### CAN controllers -/

/-- A launch instant of a TX slot (R446): its stamp and offset in fc; once judged, the tick counter of the
boundary it names; once that boundary has passed, the instant in es. -/
structure CanLaunch where
  stamp : Word
  ofs : Nat
  tick : Option Nat := none
  instant : Option Nat := none
  deriving DecidableEq, Repr

/-- A frame in a staging buffer: its slot and epoch, its words T0 to T6 with LEN in force, its data, and
whether it is on the bus (R445, R446). -/
structure CanTx where
  slot : Nat
  epoch : Nat
  words : List Word
  data : List Byte
  launch : Option CanLaunch := none
  started : Bool := false
  deriving DecidableEq, Repr

/-- An open window of a matrix column (R451): the object's words T0 to T3 and data as copied at the column
instant, and whether the frame is on the bus, or the expected one has come. -/
structure CanTt where
  cycle : Nat
  column : Nat
  expect : Bool
  words : List Word
  data : List Byte
  started : Bool := false
  met : Bool := false
  deriving DecidableEq, Repr

/-- A logical CAN controller outside its registers (R437 to R453); instants are in es. -/
structure CanCtl where
  /-- Bit timing in force. -/
  nbt : Word := 0x10207E02
  dbt : Word := 0x00042161
  /-- Producer index of the TX ring and consumer index of the RX ring, as host software wrote them. -/
  txPi : Nat := 0
  rxCi : Nat := 0
  staged : List CanTx := []
  tts : List CanTt := []
  /-- INIT is set and the frame under way has not ended. -/
  stopping : Bool := false
  /-- Bus-off recovery runs, and the instant of bus-off. -/
  recovering : Bool := false
  busOffAt : Nat := 0
  /-- Detection: consecutive error-free frames, full sweeps, instant of the last RATE_NOLOCK. -/
  good : Nat := 0
  sweeps : Nat := 0
  noLockAt : Option Nat := none
  /-- Frames dropped since the last RX_OVERFLOW; ticks after those of the last reports. -/
  drops : Nat := 0
  dropPosted : Nat := 0
  missPosted : Nat := 0
  absentPosted : Nat := 0
  tdcPosted : Nat := 0
  /-- The spare integrates on behalf of this controller, and shadow comparison by it is under way; the CAUSE
  of CAN_SWAP. -/
  swap : Option Nat := none
  deriving DecidableEq, Repr

/-! ### Resets and power states -/

/-- Resets, power states and the image outside their registers. -/
structure Pwr where
  /-- A device reset is asserted: its cause, as SYS_RSTCAUSE, or 6 for SLEEP exit; and since when. -/
  held : Option Nat := none
  heldAt : Nat := 0
  /-- The memory march runs (R551). -/
  march : Bool := false
  /-- Instant at which an SWSYS reset is asserted (R550). -/
  swsysAt : Option Nat := none
  /-- Power state that is entered at the boundary of this tick counter (R560, R563). -/
  enterAt : Option (Nat × Nat) := none
  /-- A wake cause has come in PARK or while PARK is entered. -/
  waking : Bool := false
  parkAt : Nat := 0
  /-- Timebases that ran when PARK was entered, with how far their periods had run, in es. -/
  parked : List (Nat × Nat) := []
  /-- The first boundary after PARK is to come (R562), with the time parked, in es. -/
  resumed : Option Nat := none
  /-- Slow-down of the restore and of the image check: a restore runs; an image check is due. -/
  restoring : Bool := false
  sealDue : Bool := false
  /-- The capture of the image at LOCK runs (R73). -/
  capturing : Bool := false
  /-- Tick counter of the boundary before which SEALED last became 1: caravans apply from the next one on. -/
  barTick : Option Nat := none
  /-- The standby domain alone is powered. -/
  asleep : Bool := false
  /-- Rails outside the levels of the supply monitor, as bits: VDD, VDD18, VDDA5, VEXC (R589). -/
  rails : Nat := 0
  deriving DecidableEq, Repr

/-! ### Ethernet ports -/

/-- A frame in a staging buffer of a port (R461, R462): length in force, launch by tick or by vehicle time
(seconds and nanoseconds), TAG, data, and whether it is on the medium. -/
structure EthTx where
  slot : Nat
  epoch : Nat
  len : Nat
  confirm : Bool
  launch : Option CanLaunch := none
  launchVt : Option (Nat × Nat) := none
  tag : Word
  data : List Byte
  started : Bool := false
  deriving DecidableEq, Repr

/-- An Ethernet port outside its registers: epochs of its rings, indices that host software wrote, staging,
frames dropped since the last report, ticks after those of the last reports. -/
structure EthPort where
  txEpoch : Nat := 0
  rxEpoch : Nat := 0
  txPi : Nat := 0
  rxCi : Nat := 0
  staged : List EthTx := []
  drops : Nat := 0
  dropPosted : Nat := 0
  intPosted : Nat := 0
  deriving DecidableEq, Repr

/-! ### Host complex -/

/-- A watchdog outside its registers (R484 to R487): it counts from an instant, or its count is held;
instant of the first service word, and the instant at which a violation's reset is due. -/
structure Wd where
  since : Nat := 0
  held : Option Nat := none
  first : Option Nat := none
  warned : Bool := false
  violated : Bool := false
  deriving DecidableEq, Repr

/-- What the boot ROM handed to the image: entry address, slot and SYS_BOOTSTAT (R491). -/
structure HandOver where
  entry : Word
  slot : Word
  stat : Word
  deriving DecidableEq, Repr

/-- A boot-key hash slot (R490). -/
structure BootKey where
  hash : List Byte := List.replicate 32 0
  revoked : Bool := false
  deriving DecidableEq, Repr

/-- The host complex outside its registers. -/
structure Hic where
  /-- Core 0: 0 held in reset, 1 runs, 2 stopped by the boot ROM. -/
  core0 : Nat := 0
  started : Option HandOver := none
  /-- PMP region 15 is locked over the boot ROM (R491). -/
  romLocked : Bool := false
  /-- Cores halted by the debugger, as bits. -/
  halted : Nat := 0
  /-- Edge sources pending, and claimed sources with the claiming core (R481, R482). -/
  edges : Nat := 0
  claims : List (Nat × Nat) := []
  /-- Reservations by core: offset of the word in host SRAM (R477). -/
  resv : List (Nat × Nat) := []
  /-- Machine timer interrupts pending, as bits by core (R483). -/
  mtip : Nat := 0
  /-- Words in the data and instruction caches, by core, by byte address (R476). -/
  dcache : List (Nat × List (Nat × Word)) := []
  icache : List (Nat × List (Nat × Word)) := []
  wds : List (Nat × Wd) := []
  /-- Instant at which a WDOG reset is due (R486). -/
  wdogAt : Option Nat := none
  /-- Words of host SRAM that carry a double-bit error, by byte offset (R479). -/
  bad : List Nat := []
  /-- SVN of the running image, the fused minimum, and the boot keys (R490, R492). -/
  svn : Nat := 0
  fusedSvn : Nat := 0
  bootKeys : List BootKey := List.replicate 4 {}
  /-- TAP instruction in force: 0 BYPASS, 1 IDCODE, 2 EXTEST, above those any other (R493). -/
  tap : Nat := 1
  deriving DecidableEq, Repr

end Sys2Proof.Machine
end

