-- ==== Sys2Proof/Machine/State.lean ====
section
/-! DEFINITION. The machine's state, as plain data, and the state after reset. -/

set_option Elab.async false

namespace Sys2Proof.Machine

/-- What the bus command of a core returned (R478, R482): no access yet, a value read, a write
done, or an access fault taken by the core. -/
inductive BusResult where
  | none
  | value (v : Word)
  | done
  | accessFault
  | misaligned
  deriving DecidableEq, Repr

/-- The state of the BZ9640. -/
structure State where
  /-- Register file: every register block, by address; an unlisted register reads as its reset
  value (`regDefault`). -/
  regs : List (Nat × Word) := []
  /-- Host SRAM, recipe memory, table memory and the ledger store, by byte address; an unlisted
  byte reads 0. -/
  mem : List Host.Cell := []
  /-- Signal board: the published words 0x100 to 0x3FF (R105); an unlisted word reads 0. -/
  board : List (Nat × Word) := []
  /-- Time since the release of the last device reset, in es. -/
  now : Nat := 0
  /-- Instant of the last tick boundary, in es. -/
  t0 : Nat := 0
  /-- Length of the window closed at `t0`, in es (T_PREV). -/
  prevLen : Nat := 0
  /-- The 48-bit tick counter (R20). -/
  tick : Nat := 0
  clk : Clk := {}
  vt : Vt := {}
  cmd : Cmd := {}
  faults : Faults := {}
  led : Ledger := {}
  dlink : Dlink := {}
  prot : Prot := {}
  pwm : Pwm := {}
  dis : Dis := {}
  acq : Acq := {}
  pos : Pos := {}
  fldc : FieldCtl := {}
  /-- Monitors of the weigh-house, by machine. -/
  wgh : List (Nat × WghM) := []
  /-- Isnak links. -/
  isk : List (Nat × IskLink) := []
  thm : Thm := {}
  /-- Logical CAN controllers. -/
  can : List (Nat × CanCtl) := []
  /-- Ethernet ports. -/
  eth : List (Nat × EthPort) := []
  hic : Hic := {}
  pwr : Pwr := {}
  eng : Eng := {}
  /-- The committed configuration image, once captured. -/
  image : Option Image := none
  bst : Bst := {}
  chk : Chk := {}
  /-- Findings of the fabric cycle that a command works on; none between commands. -/
  batch : Option Batch := none
  /-- Result of the last bus command. -/
  bus : BusResult := .none
  /-- Index of the next free value: the model's own counter, no state of the spec's. -/
  free : Nat := 0
  /-- Commands that wait, first in, first out. -/
  pending : List Instr := []
  deriving DecidableEq, Repr

/-- The opening ledger entry of the first reset interval, on its way to the field die (R83, Table HLD-1). -/
def openingEntry : LedgerEntry := ⟨0, [1, 0, 0, 0x10000, 0, 0, 0, 0xB85EE44A]⟩

/-- The machine right after the release of its first power-on reset: every register at its reset value, every
unit in SPO (R218), the memory march under way, and memories at 0 as it leaves them (R551), nothing pending. -/
def State.reset : State := { pwr := { march := true }, led := { sent := [openingEntry] } }

/-- Why the block stops: no command of this model stops with a fault. -/
inductive Fault where
  /-- Raised by nothing: access faults are taken by the host core (R478) and leave a next state. -/
  | none
  deriving DecidableEq, Repr

/-- Why a command is turned away. -/
inductive Refusal where
  /-- A command whose meaning is not written yet; safe, since the block stops. -/
  | notModelled (mnemonic : String)
  deriving DecidableEq, Repr

end Sys2Proof.Machine
end

