-- ==== Sys2Proof/Machine/Store.lean ====
section
/-! DEFINITION. A sparse store in one canonical form: a list of (key, value) pairs with strictly
rising keys and no entry equal to what an unlisted key reads as.  Register files, memories and the
signal board are such stores. -/

set_option Elab.async false

namespace Sys2Proof.Store

variable {α : Type} [DecidableEq α]

/-- Read key `a`; `d a` is what an unlisted key reads as. -/
def get (d : Nat → α) : List (Nat × α) → Nat → α
  | [], a => d a
  | (k, v) :: m, a => if a = k then v else get d m a

/-- Put an entry in its place by key. -/
def insert (a : Nat) (v : α) : List (Nat × α) → List (Nat × α)
  | [] => [(a, v)]
  | (k, w) :: m => if a < k then (a, v) :: (k, w) :: m else (k, w) :: insert a v m

/-- Remove every entry of key `a`. -/
def erase (a : Nat) (m : List (Nat × α)) : List (Nat × α) := m.filter (fun e => e.1 != a)

/-- Write key `a`.  Writing the value an unlisted key reads as removes the entry. -/
def set (d : Nat → α) (m : List (Nat × α)) (a : Nat) (v : α) : List (Nat × α) :=
  if v = d a then erase a m else insert a v (erase a m)

/-- Every key of the list is above `lo`, keys rise strictly, and no entry is a default. -/
def wfFrom (d : Nat → α) : Nat → List (Nat × α) → Bool
  | _, [] => true
  | lo, (k, v) :: m => decide (lo ≤ k) && decide (v ≠ d k) && wfFrom d (k + 1) m

/-- The canonical form. -/
def wf (d : Nat → α) (m : List (Nat × α)) : Bool := wfFrom d 0 m

end Sys2Proof.Store
end

