-- ==== Sys2Proof/Machine/Ops.lean ====
section
/-! DEFINITION. The named operations on the state that every meaning is built from: registers and
their fields, memory, the signal board, per-index tables, time. -/

set_option Elab.async false

namespace Sys2Proof.Machine

/-! ### Registers -/

/-- The word a register holds. -/
def State.reg (s : State) (a : Nat) : Word := Store.get regDefault s.regs a

/-- The state with a register's word replaced. -/
def State.setReg (s : State) (a : Nat) (w : Word) : State :=
  { s with regs := Store.set regDefault s.regs a w }

/-- A field of a register. -/
def State.fld (s : State) (a : Nat) (f : Bits) : Nat := f.of (s.reg a)

/-- Whether a field of a register is not 0. -/
def State.on (s : State) (a : Nat) (f : Bits) : Bool := s.fld a f != 0

/-- Replace a field of a register. -/
def State.setFld (s : State) (a : Nat) (f : Bits) (v : Nat) : State :=
  s.setReg a (f.put v (s.reg a))

/-- Add to a saturating counter field. -/
def State.count (s : State) (a : Nat) (f : Bits) (n : Nat := 1) : State :=
  s.setFld a f (satAdd f.width (s.fld a f) n)

/-- A field read as a signed number. -/
def State.sfld (s : State) (a : Nat) (f : Bits) : Int := signedOf f.width (s.fld a f)

/-- A binary32 register as an exact value. -/
def State.real (s : State) (a : Nat) : Rat := Num.val (s.reg a)

/-! ### Memory -/

def sramBase : Nat := 0x10000000
def sramSize : Nat := 0x400000
def recipeBase : Nat := 0x20000000
def recipeSize : Nat := 0x10000
def tableBase : Nat := 0x20010000
def tableSize : Nat := 0x20000
def ledgerBase : Nat := 0x30000000
/-- Host SRAM offset of the doorbell page (R38). -/
def doorbell : Nat := 0x3FF000

/-- What a byte of memory that nothing has written reads as: 0, as the march leaves it (R551). -/
def memDefault (_ : Nat) : Byte := 0

def State.byte (s : State) (a : Nat) : Byte := Store.get memDefault s.mem a

def State.setByte (s : State) (a : Nat) (b : Byte) : State :=
  { s with mem := Store.set memDefault s.mem a b }

/-- Write consecutive bytes, lowest address first. -/
def State.setBytes (s : State) (a : Nat) : List Byte → State
  | [] => s
  | b :: bs => (s.setByte a b).setBytes (a + 1) bs

/-- Read `n` consecutive bytes. -/
def State.bytes (s : State) (a n : Nat) : List Byte := (List.range n).map fun i => s.byte (a + i)

/-- The little-endian word at an address (R5). -/
def State.word (s : State) (a : Nat) : Word :=
  s.byte (a + 3) ++ s.byte (a + 2) ++ s.byte (a + 1) ++ s.byte a

def State.setWord (s : State) (a : Nat) (w : Word) : State := s.setBytes a (bytesOfWord w)

/-- Write consecutive words. -/
def State.setWords (s : State) (a : Nat) : List Word → State
  | [] => s
  | w :: ws => (s.setWord a w).setWords (a + 4) ws

/-- Read `n` consecutive words. -/
def State.words (s : State) (a n : Nat) : List Word := (List.range n).map fun i => s.word (a + 4 * i)

/-- A word of host SRAM by its offset, and a write of one; bases do not depend on the alias (R35). -/
def State.sram (s : State) (off : Nat) : Word := s.word (sramBase + off)
def State.setSram (s : State) (off : Nat) (w : Word) : State := s.setWord (sramBase + off) w

/-- Reservations on the words of a stretch of host SRAM end (R477). -/
def State.clearResv (s : State) (off n : Nat) : State :=
  { s with hic.resv := s.hic.resv.filter fun r => decide (r.2 + 4 ≤ off) || decide (off + n ≤ r.2) }

/-- A write of the fabric to host SRAM: words or bytes from an offset. -/
def State.fabricWords (s : State) (off : Nat) (ws : List Word) : State :=
  (s.clearResv off (4 * ws.length)).setWords (sramBase + off) ws
def State.fabricBytes (s : State) (off : Nat) (bs : List Byte) : State :=
  (s.clearResv off bs.length).setBytes (sramBase + off) bs

/-! ### Signal board -/

def boardDefault (_ : Nat) : Word := 0

/-- A published word (R105). -/
def State.sig (s : State) (a : Nat) : Word := Store.get boardDefault s.board a

def State.publish (s : State) (a : Nat) (w : Word) : State :=
  { s with board := Store.set boardDefault s.board a w }

/-- Publish a real number, in the stored form of R100. -/
def State.publishReal (s : State) (a : Nat) (q : Rat) : State := s.publish a (Num.pack q)

/-- Publish a flag. -/
def State.publishFlag (s : State) (a : Nat) (b : Bool) : State := s.publish a (if b then 1 else 0)

/-! ### Tables of per-index state: an unlisted index holds the state after reset -/

section Tab
variable {α : Type} [DecidableEq α]

def tabGet (d : α) (t : List (Nat × α)) (i : Nat) : α := Store.get (fun _ => d) t i
def tabSet (d : α) (t : List (Nat × α)) (i : Nat) (v : α) : List (Nat × α) :=
  Store.set (fun _ => d) t i v
end Tab

/-- A submission ring. -/
def State.sq (s : State) (n : Nat) : SqRun := tabGet {} s.cmd.sqs n
def State.setSq (s : State) (n : Nat) (r : SqRun) : State :=
  { s with cmd.sqs := tabSet {} s.cmd.sqs n r }

/-- A completion ring (0 to 3) or the event ring (4). -/
def State.ring (s : State) (m : Nat) : RecRing := tabGet {} s.cmd.rings m
def State.setRing (s : State) (m : Nat) (r : RecRing) : State :=
  { s with cmd.rings := tabSet {} s.cmd.rings m r }

/-! ### Bits of a Nat used as a set -/

def hasBit (n i : Nat) : Bool := n.testBit i
def withBit (n i : Nat) : Nat := n ||| 2 ^ i
def withoutBit (n i : Nat) : Nat := if n.testBit i then n - 2 ^ i else n

/-! ### Time (R5): 1 fc = 32 es, 1 ns = 6.4 es, 1 s = 6.4 · 10^9 es -/

def esPerFc : Nat := 32
def esPerSecond : Nat := 6400000000
def esPerMs : Nat := 6400000
/-- A time in ns, in whole es. -/
def nsToEs (ns : Nat) : Nat := ns * 32 / 5
/-- A time in es, in seconds. -/
def esToSec (es : Nat) : Rat := mkRat es esPerSecond

/-- Bring the time forward to an instant; time never runs back. -/
def State.at (s : State) (t : Nat) : State := { s with now := max s.now t }

/-- Bring the time to an instant after the last boundary, in ns (Table ARCH-3). -/
def State.atTick (s : State) (ns : Nat) : State := s.at (s.t0 + nsToEs ns)

/-- Low 32 bits of the tick counter. -/
def State.tickLow (s : State) : Nat := s.tick % 2 ^ 32

/-- The number of the next free value, taken. -/
def State.takeFree (s : State) : Nat × State := (s.free, { s with free := s.free + 1 })

end Sys2Proof.Machine
end

