-- ==== Sys2Proof/Machine/Records.lean ====
section
/-! DEFINITION. Completion and event records, the PSN, EVT_n, the ledger entries of events, and what
an event's fault class brings with it (R64 to R69, R82, R88, R91, R537). -/

set_option Elab.async false

namespace Sys2Proof.Machine

/-! ### UNIT codes (R478: the order of the register blocks) -/

namespace UnitCode
abbrev sys : Nat := 0x00
abbrev clk : Nat := 0x01
abbrev cmd : Nat := 0x02
abbrev eng : Nat := 0x03
abbrev tpr : Nat := 0x04
abbrev pwm : Nat := 0x05
abbrev prot : Nat := 0x06
abbrev acq : Nat := 0x07
abbrev pos : Nat := 0x08
abbrev fld : Nat := 0x09
abbrev wgh : Nat := 0x0A
abbrev isk : Nat := 0x0B
abbrev thm : Nat := 0x0C
abbrev can : Nat := 0x0D
abbrev eth : Nat := 0x0E
abbrev chk : Nat := 0x0F
abbrev bst : Nat := 0x10
abbrev hld : Nat := 0x11
abbrev pwr : Nat := 0x12
abbrev hic : Nat := 0x13
abbrev xsp : Nat := 0x14
abbrev gpio : Nat := 0x15
end UnitCode

/-- A DETAIL word from its fields, each given as (lowest bit, value). -/
def detailOf (fs : List (Nat × Nat)) : Word :=
  fs.foldl (fun w f => w ||| (BitVec.ofNat 32 f.2 <<< f.1)) 0

/-! ### PSN (R66) -/

/-- The PSN that follows `p`: it wraps from 0xFFFF_FFFF to 1 and is never 0. -/
def psnAfter (p : Word) : Word := if p = 0xFFFFFFFF then 1 else p + 1

/-- Issue the next PSN. -/
def State.takePsn (s : State) : Word × State :=
  let p := s.reg Reg.CMD_PSN
  (p, { s with cmd.issued := true }.setReg Reg.CMD_PSN (psnAfter p))

/-- Record `a` is later than record `b` (R81). -/
def psnLater (a b : Word) : Bool := decide (0 < (a - b).toInt)

/-- The last PSN issued, 0 while none has been. -/
def State.lastPsn (s : State) : Word :=
  let p := s.reg Reg.CMD_PSN
  if !s.cmd.issued then 0 else if p = 1 then 0xFFFFFFFF else p - 1

/-! ### Record rings -/

/-- Registers of a completion ring (0 to 3) or of the event ring (4). -/
def ringBase (m : Nat) : Nat := if m < 4 then Reg.CMD_CQm_BASE m else Reg.CMD_EQ_BASE
def ringCfg (m : Nat) : Nat := if m < 4 then Reg.CMD_CQm_CFG m else Reg.CMD_EQ_CFG
def ringIrq (m : Nat) : Nat := if m < 4 then Reg.CMD_CQm_IRQ m else Reg.CMD_EQ_IRQ

def State.ringSize (s : State) (m : Nat) : Nat := s.fld (ringCfg m) Fld.CMD_CQm_CFG.SIZE
def State.ringEnabled (s : State) (m : Nat) : Bool := s.on (ringCfg m) Fld.CMD_CQm_CFG.EN

/-- Records host software has not consumed. -/
def State.unconsumed (s : State) (m : Nat) : Nat :=
  let r := s.ring m
  (r.pi + s.ringSize m - r.ci) % s.ringSize m

/-- A free slot is left: a ring is full with SIZE − 1 unconsumed records. -/
def State.ringFree (s : State) (m : Nat) : Nat := s.ringSize m - 1 - s.unconsumed m

/-- Doorbell-page offset of the producer index of a record ring (Table CMD-6). -/
def producerWord (m : Nat) : Nat := doorbell + (if m < 4 then 0x840 + 4 * m else 0x850)

/-- Write a record into the next slot of a ring, then the producer index and word 0x854 (R65,
R82).  `w0` holds every field of word 0 but PH. -/
def State.writeRecord (s : State) (m : Nat) (w0 psn w2 w3 : Word) : State :=
  let r := s.ring m
  let off := (s.fld (ringBase m) Fld.CMD_CQm_BASE.OFFSET) * 16 + 16 * (r.pi % 2 ^ 12)
  let w0 := setBit w0 12 r.phase
  let last := decide (s.ringSize m ≤ r.pi + 1)
  let s := s.fabricWords off [w0, psn, w2, w3]
  let pi := if last then 0 else r.pi + 1
  let s := s.setRing m { r with pi, phase := r.phase != last, ticks := r.ticks ++ [s.tick] }
  (s.fabricWords (producerWord m) [BitVec.ofNat 32 pi]).fabricWords (doorbell + 0x854) [psn]

/-! ### Ledger entries (R537, Table HLD-1) -/

/-- The real-time clock (R429): 32,768 counts a second. -/
def State.rtcNow (s : State) : Nat :=
  (s.clk.rtc + (s.now - s.clk.rtcAt) * 32768 / esPerSecond) % 2 ^ 48

/-- A ledger entry from its words without the check: TYPE, UNIT, INST, CLASS, CODE, PSN and
payload, filled with 0 up to the last word of its units. -/
def State.ledgerEntry (s : State) (type cls unit inst code : Nat) (psn : Word) (units : Nat)
    (payload : List Word) : LedgerEntry :=
  let l0 := detailOf [(0, type), (4, units - 1), (8, cls), (16, unit), (24, inst)]
  let l3 := detailOf [(0, code), (16, (s.reg Reg.HLD_RCNT).toNat % 2 ^ 16)]
  let body := [l0, psn, BitVec.ofNat 32 s.tickLow, l3] ++ payload
  let body := body ++ List.replicate (8 * units - 1 - body.length) 0
  ⟨psn.toNat, body ++ [Crc.checkC (bytesOfWords (body ++ [psn]))]⟩

/-- The real-time clock as the two payload words of an entry. -/
def State.rtcWords (s : State) : List Word :=
  [BitVec.ofNat 32 s.rtcNow, BitVec.ofNat 32 (s.rtcNow / 2 ^ 32)]

/-- Send an entry to the field die (R538). -/
def State.sendLedger (s : State) (e : LedgerEntry) : State :=
  { s with led.sent := s.led.sent ++ [e] }

/-- Whether an event is recorded in the ledger (R67, R537): class F2 and above, SRAM_REPAIR,
LCS_RESULT and HOLDUP_RESULT. -/
def Ev.inLedger (e : Ev) : Bool :=
  decide (2 ≤ e.cls) || e.code == 0xF07 || e.code == 0xF08 || e.code == 0xF10

/-! ### Events -/

/-- An event takes its PSN, asserts EVT_n if its class reaches EVTN_CLASS (R69), enters the event
ring or is dropped (R67, R610), and enters the ledger where R537 says so. -/
def State.postOne (s : State) (e : Ev) : State :=
  if s.led.lost then s else
  let (psn, s) := s.takePsn
  let s := if s.fld Reg.CMD_EVTCFG Fld.CMD_EVTCFG.EVTN_CLASS ≤ e.cls
    then { s with cmd.evtLow := true } else s
  let s := if s.ringEnabled 4 && decide (0 < s.ringFree 4) then
      s.writeRecord 4 (detailOf [(0, e.code), (13, e.cls), (16, e.unit), (24, e.inst)]) psn
        (BitVec.ofNat 32 s.tickLow) e.detail
    else
      let s := s.count Reg.CMD_EQ_STAT Fld.CMD_EQ_STAT.DROP
      { s with cmd.drops := satAdd 32 s.cmd.drops 1 }
  if e.inLedger then
    s.sendLedger (s.ledgerEntry 0 e.cls e.unit e.inst e.code psn 1 (e.detail :: s.rtcWords))
  else s

/-- Findings of the passes up to the present instant take their PSNs, before anything detected now (R78). -/
def State.postFound (s : State) : State :=
  match s.cmd.found with
  | [] => s
  | found =>
      (found.filter fun f => decide (f.1 ≤ s.now)).foldl (fun s f => s.postOne f.2)
        { s with cmd.found := found.filter fun f => decide (s.now < f.1) }

def State.postRaw (s : State) (e : Ev) : State := s.postFound.postOne e

/-- Post one completion record: it takes the next PSN.  A record addressed to a disabled ring is discarded (R53); one
whose ring is enabled has a slot there, since its fetch reserved it. -/
def State.postCompletion (s : State) (c : Completion) : State :=
  if s.led.lost then s else
  let cq := s.fld (Reg.CMD_SQn_CFG c.ring) Fld.CMD_SQn_CFG.CQ
  let (psn, s) := s.postFound.takePsn
  if s.ringEnabled cq && s.ringFree cq != 0 then
    s.writeRecord cq (detailOf [(0, c.status), (8, c.ring), (16, c.seq)]) psn
      (BitVec.ofNat 32 s.tickLow) c.word3
  else s

/-! ### Physical units (R509, R510) -/

abbrev unitServing : Nat := 0
abbrev unitFree : Nat := 1
abbrev unitShadow : Nat := 2
abbrev unitTest : Nat := 3
abbrev unitQuarantine : Nat := 4
abbrev unitFailed : Nat := 5
abbrev unitRetired : Nat := 6

def State.unit (s : State) (code : Nat) : Nat := s.fld (Reg.BST_Uu code) Fld.BST_Uu.STATE
def State.setUnit (s : State) (code st : Nat) : State := s.setFld (Reg.BST_Uu code) Fld.BST_Uu.STATE st

/-- A run-time detector takes a unit out of service: it goes to quarantine (R517, R522). -/
def State.unitDetected (s : State) (code st : Nat) : State :=
  { s.setUnit code st with bst.detected := code :: s.bst.detected.filter (· != code) }

/-! ### Fault classes -/

/-- F2 holds (R88). -/
def State.setF2 (s : State) : State := s.setFld Reg.SYS_FAULTSTAT Fld.SYS_FAULTSTAT.F2 1

/-- The causes that lie in a window of `win` × 1,024 ticks (R91). -/
def State.f1Window (s : State) (win : Nat) : List F1Cause :=
  s.faults.f1.filter fun c => decide (s.tick < c.tick + win * 1024)

/-- Count an F1 cause; the one that takes the count of its UNIT and INST above F1_LIMIT posts
FAULT_ESCALATED, once an excursion, and F2 holds (R91). -/
def State.escalate (s : State) (unit inst : Nat) : State :=
  let before := (s.f1Window (s.fld Reg.SYS_FAULTCFG Fld.SYS_FAULTCFG.F1_WIN)).countP fun c => c.unit == unit && c.inst == inst
  let limit := s.fld Reg.SYS_FAULTCFG Fld.SYS_FAULTCFG.F1_LIMIT
  let known := s.faults.reported.contains (unit, inst) && decide (limit < before)
  let rest := s.faults.reported.filter (· != (unit, inst))
  let s := { s with faults := { s.faults with
    f1 := s.f1Window 255 ++ [⟨unit, inst, s.tick⟩]
    reported := if limit ≤ before then (unit, inst) :: rest else rest } }
  if limit ≤ before ∧ !known then
    ((s.postRaw ⟨UnitCode.sys, 0x010, 2, 0,
        detailOf [(0, unit), (8, inst), (16, satAdd 16 before 1)]⟩).count
      Reg.SYS_FAULTSTAT Fld.SYS_FAULTSTAT.ESCAL).setF2
  else s

/-- Post an event together with what its class brings: an F1 cause counts for escalation, and F2
holds after an F2 cause (R88).  The safe states of F3 come from the trip source of the cause, the
device halt of F4 from `deviceHalt`. -/
def State.post (s : State) (e : Ev) : State :=
  let s := s.postRaw e
  if e.cls = 1 then s.escalate e.unit e.inst
  else if e.cls = 2 then s.setF2
  else s

/-- An event that is found: it is posted, or waits for the other findings of its fabric cycle. -/
def State.event (s : State) (e : Ev) : State :=
  match s.batch with
  | some b => { s with batch := some { b with events := b.events ++ [e] } }
  | none => s.post e

/-- Event order within a fabric cycle (R66): UNIT, INST, code; UNIT 0x06 keeps the order of its chapter. -/
def Ev.precedes (a b : Ev) : Bool :=
  if a.unit ≠ b.unit then decide (a.unit < b.unit)
  else if a.unit = 0x06 then true
  else if a.inst ≠ b.inst then decide (a.inst < b.inst) else decide (a.code ≤ b.code)

/-- Insert an event found before those of the list. -/
def insertEv (e : Ev) : List Ev → List Ev
  | [] => [e]
  | x :: xs => if e.precedes x then e :: x :: xs else x :: insertEv e xs

def sortEvs (es : List Ev) : List Ev := es.foldr insertEv []

/-- Record that an F2 cause persists (R88, R93), and that it has ended. -/
def State.f2Begins (s : State) (code inst : Nat) : State :=
  if (code, inst) ∈ s.faults.f2 then s else { s with faults.f2 := (code, inst) :: s.faults.f2 }
def State.f2Ends (s : State) (code inst : Nat) : State :=
  { s with faults.f2 := s.faults.f2.filter (· != (code, inst)) }

/-- EQ_OVERFLOW: once a slot of the event ring is free after drops, one event gives the number
dropped since the last one (R67). -/
def State.postOverflow (s : State) : State :=
  if s.cmd.drops ≠ 0 ∧ s.ringEnabled 4 ∧ 0 < s.ringFree 4 then
    { s with cmd.drops := 0 }.event ⟨UnitCode.cmd, 0x002, 0, 0, BitVec.ofNat 32 s.cmd.drops⟩
  else s

end Sys2Proof.Machine
end

