-- ==== Sys2Proof/Machine/Units.lean ====
section
/-! DEFINITION. Physical units: classes and their spares, shadowing, test and abort (R509 to R517,
R529). -/

set_option Elab.async false

namespace Sys2Proof.Machine

/-! ### Unit codes (Table BST-1) -/

/-- A listed unit code. -/
def unitExists (c : Nat) : Bool :=
  decide (c ≤ 0x21) || (decide (0x24 ≤ c) && decide (c ≤ 0x2D)) || (decide (0x30 ≤ c) && decide (c ≤ 0x34)) ||
  (decide (0x38 ≤ c) && decide (c ≤ 0x47))

inductive UnitClass where
  | sar | generator | engine | pll | can | comparator | memory
  deriving DecidableEq, Repr

def classOf (c : Nat) : UnitClass :=
  if c < 0x10 then .sar else if c < 0x24 then .generator else if c < 0x2C then .engine
  else if c < 0x30 then .pll else if c < 0x38 then .can else if c < 0x44 then .comparator else .memory

/-- In rotation: every class but the memories. -/
def inRotation (c : Nat) : Bool := unitExists c && classOf c != .memory

/-- The units of which one may stand in for a unit. -/
def sparesOf (c : Nat) : List Nat :=
  match classOf c with
  | .sar => [4 * (c / 4) + 3]
  | .generator => [0x20, 0x21]
  | .engine => [if c % 2 = 0 then c + 1 else c - 1]
  | .pll => [if c = 0x2C then 0x2D else 0x2C]
  | .can => [0x34]
  | _ => []

/-- A free spare of a unit's class. -/
def State.freeSpareOf (s : State) (c : Nat) : Option Nat :=
  (sparesOf c).find? fun sp => sp != c && s.unit sp == unitFree

/-- The units whose home is that of a spare: their return leads to FREE. -/
def homeSpare (c : Nat) : Bool :=
  match classOf c with
  | .sar => c % 4 == 3
  | .generator => c == 0x20 || c == 0x21
  | .engine => c % 2 == 1
  | .can => c == 0x34
  | _ => false

/-- A unit in quarantine that may take over at once (R529). -/
def State.fitSpare (s : State) (sp : Nat) : Bool :=
  s.unit sp == unitQuarantine && s.bst.fit.contains sp

/-- A spare that a failure may claim: a free one, one that shadows, one under test in place, or one in
quarantine after a passed test. -/
def State.claimable (s : State) (sp : Nat) : Bool :=
  s.unit sp == unitFree || s.bst.shadows.any (fun h => h.spare == sp) ||
  s.bst.tests.any (fun t => t.code == sp && t.prior == unitFree) || s.fitSpare sp

def State.setFit (s : State) (c : Nat) (b : Bool) : State :=
  let l := s.bst.fit.filter (· != c)
  { s with bst.fit := if b then l ++ [c] else l }

/-! ### Conditions (R513) -/

/-- The fabric clock comes from a locked PLL. -/
def State.fabricLocked (s : State) : Bool := decide (s.fld Reg.CLK_STAT Fld.CLK_STAT.FAB < 2)

/-- BST_COND: what the monitors of frequency, voltage and temperature tell, the clock's source with it. -/
def State.condWord (s : State) : Word :=
  Fld.BST_COND.CLKOK.put (s.on Reg.BST_COND Fld.BST_COND.CLKOK && s.fabricLocked).toNat (s.reg Reg.BST_COND)
def State.condOk (s : State) : Bool := s.condWord.toNat % 8 == 7

/-! ### Tests -/

def State.setActive (s : State) (v : Nat) : State := s.setFld Reg.BST_STAT Fld.BST_STAT.ACTIVE v

/-- A unit enters TEST. -/
def State.beginTest (s : State) (t : TestRun) : State :=
  { (s.setUnit t.code unitTest).setActive t.code with bst.tests := s.bst.tests ++ [t] }

/-- A unit is under test no longer. -/
def State.endTest (s : State) (c : Nat) : State :=
  let left := s.bst.tests.filter fun t => t.code != c
  { s.setActive ((left.getLast?.map (·.code)).getD 0xFF) with bst.tests := left }

/-- A test is aborted: the block is re-initialised and enters QUARANTINE, and BIST_ABORT is posted
(R513, R517); CAUSE 0 condition, 1 spare needed, 2 LCS reset. -/
def State.abortTest (s : State) (c cause : Nat) : State :=
  match s.bst.tests.find? fun t => t.code == c with
  | some t =>
      let s := { s with acq.tests := s.acq.tests.filter fun x => 0x38 + x.cmp != c }
      let s := ((s.endTest c).setUnit c unitQuarantine).setFit c (cause == 1 && t.prior == unitFree)
      (s.count Reg.BST_CNT Fld.BST_CNT.ABORTS).event
        ⟨UnitCode.bst, 0xF01, 0, c, detailOf [(0, s.condWord.toNat % 8), (8, cause)]⟩
  | none => s

/-! ### Shadowing (R516) -/

def State.shadowOf (s : State) (spare : Nat) : Option Shadowing :=
  s.bst.shadows.find? fun h => h.spare == spare

def State.dropShadow (s : State) (spare : Nat) : State :=
  { s with bst.shadows := s.bst.shadows.filter fun h => h.spare != spare }

/-- A spare shadows a serving unit. -/
def State.beginShadow (s : State) (h : Shadowing) : State :=
  { s.setUnit h.spare unitShadow with bst.shadows := s.bst.shadows ++ [h] }

/-- The spare takes over, and the unit it shadowed enters TEST. -/
def State.shadowPassed (s : State) (spare : Nat) : State :=
  match s.shadowOf spare with
  | some h => ((s.dropShadow spare).setUnit spare unitServing).beginTest ⟨h.code, h.kind, h.src, unitServing, false⟩
  | none => s.setUnit spare unitServing

/-- A mismatch holds the spare out of service. -/
def State.shadowFailed (s : State) (spare : Nat) : State :=
  (s.dropShadow spare).setUnit spare unitFailed

/-- A shadow is given up: the spare returns to FREE, because it has driven nothing (R517). -/
def State.shadowAborted (s : State) (spare : Nat) : State :=
  (s.dropShadow spare).setUnit spare unitFree

/-- UNIT_READMITTED. -/
def State.postReadmitted (s : State) (c : Nat) : State :=
  s.event ⟨UnitCode.bst, 0xF03, 0, c, BitVec.ofNat 32 (s.fld (Reg.BST_Uu c) Fld.BST_Uu.FD)⟩

/-- A failure claims a spare: a test of it is aborted, a shadow or quarantine given up, and it serves. -/
def State.claimSpare (s : State) (spare : Nat) : State :=
  let quarantined := s.fitSpare spare
  let s := (((s.abortTest spare 1).dropShadow spare).setFit spare false).setUnit spare unitServing
  if quarantined then s.postReadmitted spare else s

end Sys2Proof.Machine
end

