-- ==== Sys2Proof/Machine/Gates.lean ====
section
/-! DEFINITION. Units, pairs and gate balls: what each ball is driven to by the safe state, the
enable, the mask and the reference, and the dead times every change keeps (R197, R202, R204, R217
to R219, R227, R228). -/

set_option Elab.async false

namespace Sys2Proof.Machine

/-! ### Units (Table PROT-1) -/

/-- Unit codes. -/
abbrev unitBridgeA : Nat := 0
abbrev unitBridgeB : Nat := 1
abbrev unitBoost : Nat := 2
abbrev unitExciter : Nat := 3
abbrev unitAux : Nat := 4

/-- STATE codes of Table PROT-9. -/
abbrev stateOperating : Nat := 0
abbrev stateSpo : Nat := 1
abbrev stateAscL : Nat := 2
abbrev stateAscH : Nat := 3

/-- The unit a pair belongs to (PROT_UNITMAP0 and 1). -/
def State.unitOfPair (s : State) (k : Nat) : Nat :=
  let a := if k < 8 then Reg.PROT_UNITMAP0 else Reg.PROT_UNITMAP1
  s.fld a ⟨3 * (k % 8), 3⟩

/-- The pairs of a unit. -/
def State.pairsOf (s : State) (u : Nat) : List Nat :=
  (List.range 16).filter fun k => s.unitOfPair k == u

/-- Whether a unit is in safe state. -/
def State.isSafe (s : State) (u : Nat) : Bool := hasBit (s.fld Reg.PROT_USTAT Fld.PROT_USTAT.SAFE) u

/-- The state of a unit: a bridge by its STATE field, any other unit SPO while in safe state. -/
def State.unitState (s : State) (u : Nat) : Nat :=
  if u < 2 then s.fld (Reg.PROT_BRb_STAT u) Fld.PROT_BRb_STAT.STATE
  else if s.isSafe u then stateSpo else stateOperating

/-! ### Timebases and pairs -/

def State.tb (s : State) (n : Nat) : Tb := tabGet {} s.pwm.tbs n
def State.setTb (s : State) (n : Nat) (t : Tb) : State := { s with pwm.tbs := tabSet {} s.pwm.tbs n t }
def State.pair (s : State) (k : Nat) : Pair := tabGet {} s.pwm.pairs k
def State.setPair (s : State) (k : Nat) (p : Pair) : State :=
  { s with pwm.pairs := tabSet {} s.pwm.pairs k p }

/-- The word in force of a timebase or pair register (R205). -/
def State.inForce (s : State) (a : Nat) : Word := Store.get regDefault s.pwm.force a
def State.setForce (s : State) (a : Nat) (w : Word) : State :=
  { s with pwm.force := Store.set regDefault s.pwm.force a w }
/-- A field of the word in force. -/
def State.ffld (s : State) (a : Nat) (f : Bits) : Nat := f.of (s.inForce a)

/-- Timebase of a pair. -/
def State.tbOf (s : State) (k : Nat) : Nat := s.ffld (Reg.PAIRk_CFG k) Fld.PAIRk_CFG.TB

/-- The timebase whose period and clock a timebase follows: TB0 for a slave (R184). -/
def State.tbMaster (s : State) (n : Nat) : Nat :=
  if n ≠ 0 ∧ s.ffld (Reg.TBn_CFG n) Fld.TBn_CFG.MODE = 2 then 0 else n

/-- Clock of a timebase as TBn_STAT.CLK: 2 is the backup oscillator. -/
def State.tbClk (s : State) (n : Nat) : Nat := s.fld (Reg.TBn_STAT n) Fld.TBn_STAT.CLK
def State.tbCoarse (s : State) (n : Nat) : Bool := s.on (Reg.TBn_STAT n) Fld.TBn_STAT.COARSE

def ceilDiv (a b : Nat) : Nat := (a + b - 1) / b

/-- A dead time as it runs: rounded up to 8 es in coarse mode (R209), `ceil (1.07 · DT / 32)` fc on
the backup oscillator (R210). -/
def State.deadTime (s : State) (n dt : Nat) : Nat :=
  if s.tbClk n = 2 then ceilDiv (107 * dt) 3200 * 32
  else if s.tbCoarse n then ceilDiv dt 8 * 8 else dt

/-- The dead times of a pair: DTR before a high-side turn-on, DTF before a low-side turn-on. -/
def State.dtr (s : State) (k : Nat) : Nat :=
  s.deadTime (s.tbOf k) (s.ffld (Reg.PAIRk_DT k) Fld.PAIRk_DT.DTR)
def State.dtf (s : State) (k : Nat) : Nat :=
  s.deadTime (s.tbOf k) (s.ffld (Reg.PAIRk_DT k) Fld.PAIRk_DT.DTF)

/-- Mask codes of Table PWM-2. -/
abbrev maskPwm : Nat := 0
abbrev maskOff : Nat := 1
abbrev maskHOn : Nat := 2
abbrev maskLOn : Nat := 3
abbrev maskHPwm : Nat := 4
abbrev maskLPwm : Nat := 5

/-- A mask code with the unassigned codes become OFF (R202). -/
def maskCode (c : Nat) : Nat := if 5 < c then maskOff else c

/-- The mask of a pair in force. -/
def State.mask (s : State) (k : Nat) : Nat := s.fld (Reg.PAIRk_LIVE k) Fld.PAIRk_LIVE.MASK

/-- Bridges whose outputs field control holds off, as unit bits (R308). -/
def State.heldOff (s : State) (u : Nat) : Bool := hasBit s.prot.heldOff u

/-- The mask that reaches the balls: OFF while field control holds the bridge off (R308). -/
def State.effMask (s : State) (k : Nat) : Nat :=
  if s.heldOff (s.unitOfPair k) then maskOff else s.mask k

def State.outEnabled (s : State) (k : Nat) : Bool := s.on (Reg.PAIRk_LIVE k) Fld.PAIRk_LIVE.EN

/-- A CBC hold keeps the reference of the pair low (R223). -/
def State.cbcHeld (s : State) (k : Nat) : Bool := s.prot.cbc.any fun c => hasBit c.2 k

/-- The levels (PWMkH, PWMkL) that the mask and the reference ask for (Table PWM-2, R195). -/
def maskLevels (mask pmode : Nat) (ref : Bool) : Bool × Bool :=
  let hl : Bool × Bool :=
    if mask = maskPwm then
      (if pmode = 1 then (ref, false) else if pmode = 2 then (false, ref) else (ref, !ref))
    else if mask = maskHOn then (true, false)
    else if mask = maskLOn then (false, true)
    else if mask = maskHPwm then (ref, false)
    else if mask = maskLPwm then (false, !ref)
    else (false, false)
  (hl.1 && pmode != 2, hl.2 && pmode != 1)

/-- The levels a safe state demands of each of its pairs. -/
def safeLevels (st : Nat) : Bool × Bool := (st == stateAscH, st == stateAscL)

/-- The running chopper's pair. -/
def State.isChopper (s : State) (k : Nat) : Bool := s.prot.chopper == some k

/-- The safe state of its unit governs a pair; the running chopper's is exempt from the auxiliary unit's (R219). -/
def State.safeGoverns (s : State) (k : Nat) : Bool :=
  let u := s.unitOfPair k
  s.isSafe u && !(s.isChopper k && u == unitAux)

/-- The levels the balls of a pair are driven to: arbiter, then enable, then mask, then reference. -/
def State.wanted (s : State) (k : Nat) : Bool × Bool :=
  let chop := s.isChopper k
  if s.safeGoverns k then safeLevels (s.unitState (s.unitOfPair k))
  else if !s.outEnabled k && !chop then (false, false)
  else maskLevels (if chop then maskPwm else s.effMask k)
    (s.ffld (Reg.PAIRk_CFG k) Fld.PAIRk_CFG.PMODE) ((s.pair k).ref && !s.cbcHeld k)

/-- Account a ball's change at instant `t`: time on, turn-ons and turn-offs of the window. -/
def Pair.account (p q : Pair) (t : Nat) : Pair :=
  let w := q.win
  let w := if p.h && !q.h then { w with h := w.h + (t - p.hFrom), hOffs := w.hOffs + 1 } else w
  let w := if p.l && !q.l then { w with l := w.l + (t - p.lFrom), lOffs := w.lOffs + 1 } else w
  let w := if !p.h && q.h then { w with hOns := w.hOns + 1 } else w
  let w := if !p.l && q.l then { w with lOns := w.lOns + 1 } else w
  { q with win := w, hFrom := if q.h && !p.h then t else p.hFrom,
           lFrom := if q.l && !p.l then t else p.lFrom,
           lastBall := if p.h == q.h && p.l == q.l then p.lastBall else t }

/-- Close the window of a pair's balls at instant `t`. -/
def Pair.closeWindow (p : Pair) (t : Nat) : Pair :=
  let w := p.win
  { p with closed := { w with h := w.h + (if p.h then t - p.hFrom else 0),
                              l := w.l + (if p.l then t - p.lFrom else 0) },
           win := {}, hFrom := t, lFrom := t }

/-- The levels of the balls of a pair driven to `want` at instant `t` (R204, R227): a turn-off acts at
once, a turn-on waits the dead time in force from the last turn-off of the opposite output, and no less than the
one that began there, and a turn-on no longer wanted is cancelled. -/
def Pair.steer (p : Pair) (want : Bool × Bool) (t dtr dtf : Nat) : Pair :=
  let p := if p.h && !want.1 then { p with h := false, hOff := t, lReady := t + dtf } else p
  let p := if p.l && !want.2 then { p with l := false, lOff := t, hReady := t + dtr } else p
  let hAt := max p.hReady (p.lOff + dtr)
  let lAt := max p.lReady (p.hOff + dtf)
  let p := if !want.1 then { p with hOn := none }
    else if p.h then p else if hAt ≤ t then { p with h := true, hOn := none }
    else { p with hOn := some hAt }
  if !want.2 then { p with lOn := none }
  else if p.l then p else if lAt ≤ t then { p with l := true, lOn := none }
  else { p with lOn := some lAt }

/-- Drive the balls of a pair, and account what they do. -/
def Pair.drive (p : Pair) (want : Bool × Bool) (t dtr dtf : Nat) : Pair :=
  p.account (p.steer want t dtr dtf) t

/-- Bring the balls of pair `k` to what is wanted at instant `t`. -/
def State.regateAt (s : State) (k t : Nat) : State :=
  s.setPair k ((s.pair k).drive (s.wanted k) t (s.dtr k) (s.dtf k))

/-- Both switches of pair `k` count as turned off now: each turn-on waits its full dead time (R198). -/
def State.startPair (s : State) (k : Nat) : State :=
  let dtr := s.dtr k
  let dtf := s.dtf k
  let p := (s.pair k).drive (false, false) s.now dtr dtf
  (s.setPair k { p with hOff := s.now, lOff := s.now, hReady := s.now + dtr, lReady := s.now + dtf,
                        enabling := false }).regateAt k s.now

/-- The instant of the next thing that happens at a pair by itself: a transition of its reference
or the end of a dead time. -/
def Pair.nextAt (p : Pair) : Option Nat :=
  (p.edges.map (·.1) ++ p.hOn.toList ++ p.lOn.toList).min?

/-- What happens at a pair at instant `t`: its reference moves, and the balls follow. -/
def State.pairEvent (s : State) (k t : Nat) : State :=
  let p := s.pair k
  let due := p.edges.filter fun e => decide (e.1 ≤ t)
  let p := { p with ref := (due.getLast?.map (·.2)).getD p.ref,
                    edges := p.edges.filter (fun e => !decide (e.1 ≤ t)),
                    lastEdge := if due.isEmpty then p.lastEdge else t }
  (s.setPair k p).regateAt k t

/-- Carry pair `k` forward to instant `t`, one happening at a time. -/
def State.settlePair : Nat → State → Nat → Nat → State
  | 0, s, _, _ => s
  | n + 1, s, k, t => match (s.pair k).nextAt with
    | some e => if e ≤ t then (s.pairEvent k e).settlePair n k t else s
    | none => s

/-- Carry every pair forward to the present. -/
def State.settle (s : State) : State :=
  (List.range 16).foldl (fun s k => s.settlePair 12 k s.now) s

/-- Bring the balls of the given pairs to what is wanted now. -/
def State.regate (s : State) (ks : List Nat) : State :=
  ks.foldl (fun s k => s.regateAt k s.now) s

/-- Bring the balls of every pair to what is wanted now. -/
def State.regateAll (s : State) : State := s.regate (List.range 16)

/-- The pairs of a unit whose enable was set in safe state start at the release (R236). -/
def State.startEnabled (s : State) (u : Nat) : State :=
  ((s.pairsOf u).filter fun k => (s.pair k).enabling).foldl State.startPair s

/-- Clear the carry of a pair (R201). -/
def State.clearCarry (s : State) (k : Nat) : State := s.setReg (Reg.PAIRk_CARRY k) 0

end Sys2Proof.Machine
end

