-- ==== Sys2Proof/Machine/Arbiter.lean ====
section
/-! DEFINITION. Trip sources, latches and the safe-state arbiter (R220 to R240). -/

set_option Elab.async false

namespace Sys2Proof.Machine

/-! ### Trip sources: 0 to 15 external, 16 + n for internal source n (R220) -/

def srcCfg (src : Nat) : Nat := if src < 16 then Reg.PROT_EXTn_CFG src else Reg.PROT_INTn_CFG (src - 16)

/-- Sources whose units the cause gives: internal 12 to 15 and 17 to 23 (R221). -/
def causeGiven (src : Nat) : Bool := decide (28 ≤ src) && src != 32

/-- The latch register of a source and the bit of the source in it. -/
def latchReg (src : Nat) : Nat := if src < 16 then Reg.PROT_LATCH_EXT else Reg.PROT_LATCH_INT
def levelReg (src : Nat) : Nat := if src < 16 then Reg.PROT_LEVEL_EXT else Reg.PROT_LEVEL_INT
def srcBit (src : Nat) : Nat := if src < 16 then src else src - 16

def State.latched (s : State) (src : Nat) : Bool := bitAt (s.reg (latchReg src)) (srcBit src)
def State.levelActive (s : State) (src : Nat) : Bool := bitAt (s.reg (levelReg src)) (srcBit src)
def State.setLatch (s : State) (src : Nat) (b : Bool) : State :=
  s.setReg (latchReg src) (setBit (s.reg (latchReg src)) (srcBit src) b)
def State.setLevel (s : State) (src : Nat) (b : Bool) : State :=
  s.setReg (levelReg src) (setBit (s.reg (levelReg src)) (srcBit src) b)

/-- Units that F3_SCOPE = 1 adds to a cause: bridges, boost stage and exciter (R90, R221). -/
def State.widen (s : State) (units : Nat) : Nat :=
  if s.on Reg.SYS_FAULTCFG Fld.SYS_FAULTCFG.F3_SCOPE then units ||| 0x0F else units

/-- The units a set latch acts on (Table PROT-2). -/
def State.latchUnits (s : State) (src : Nat) : Nat :=
  if causeGiven src then tabGet 0 s.prot.latchUnits src
  else s.fld (srcCfg src) Fld.PROT_EXTn_CFG.UNITS

/-- The set latches that act on a unit, in source number order. -/
def State.latchesOn (s : State) (u : Nat) : List Nat :=
  (List.range 40).filter fun src => s.latched src && hasBit (s.latchUnits src) u

/-- The explicit states the latches of a bridge contribute, with their sources. -/
def State.acts (s : State) (b : Nat) : List (Nat × Nat) :=
  ((s.latchesOn b).map fun src => (src, s.fld (srcCfg src) Fld.PROT_EXTn_CFG.ACT)).filter
    fun a => a.2 != 0

def State.explicit (s : State) (b : Nat) : Nat := if b = 0 then s.prot.explicitA else s.prot.explicitB
def State.setExplicit (s : State) (b v : Nat) : State :=
  if b = 0 then { s with prot.explicitA := v } else { s with prot.explicitB := v }
def State.ascSince (s : State) (b : Nat) : Nat := if b = 0 then s.prot.ascSinceA else s.prot.ascSinceB
def State.setAscSince (s : State) (b : Nat) : State :=
  if b = 0 then { s with prot.ascSinceA := s.now } else { s with prot.ascSinceB := s.now }

/-- The state the standing choice of a bridge stands for (R229 step 3). -/
def State.standing (s : State) (b : Nat) : Nat :=
  if s.on (Reg.PROT_BRb_STAT b) Fld.PROT_BRb_STAT.STAND then
    (if s.on (Reg.PROT_BRb_CFG b) Fld.PROT_BRb_CFG.ASCSIDE then stateAscH else stateAscL)
  else stateSpo

/-- The first latch whose ACT differs from that of the first contributing latch. -/
def disagreeing : List (Nat × Nat) → Option Nat
  | [] => none
  | (_, a) :: rest => (rest.find? fun x => x.2 != a).map (·.1)

/-- The safe state of a unit as its requests resolve it (R229); the boost stage, the exciter and
the auxiliary unit take SPO, and so does a bridge from a reset or PARK on until a unit is released (R241, R562). -/
def State.resolve (s : State) (u : Nat) : Nat :=
  if 2 ≤ u || !s.prot.opened then stateSpo else
    match s.acts u with
    | (src, a) :: rest => if (disagreeing ((src, a) :: rest)).isSome then stateSpo else a
    | [] => if s.explicit u ≠ 0 then s.explicit u else s.standing u

/-- Whether a bridge is held by its standing choice alone. -/
def State.heldByStanding (s : State) (b : Nat) : Bool :=
  s.isSafe b && (s.acts b).isEmpty && s.explicit b == 0

/-! ### SAFE_n and FAULT_n (R239, R240) -/

def State.safeNamed (s : State) : Nat :=
  s.fld Reg.PROT_CFG Fld.PROT_CFG.SAFEN_UNITS &&& s.fld Reg.PROT_USTAT Fld.PROT_USTAT.SAFE

def State.haltedF4 (s : State) : Bool := s.on Reg.SYS_FAULTSTAT Fld.SYS_FAULTSTAT.F4

/-- FAULT_n is driven low. -/
def State.faultN (s : State) : Bool :=
  s.reg Reg.PROT_LATCH_EXT != 0 || s.reg Reg.PROT_LATCH_INT != 0 || s.haltedF4 ||
  (s.on Reg.PROT_CFG Fld.PROT_CFG.FAULTN_F2 && s.on Reg.SYS_FAULTSTAT Fld.SYS_FAULTSTAT.F2)

/-- The gate balls and FAULT_n are high-impedance: a reset is asserted, or the device is in SLEEP (R241, R563). -/
def State.ballsFloat (s : State) : Bool := s.pwr.held.isSome || s.pwr.asleep

/-- Level of a gate ball, PWMkH or PWMkL; none while it is high-impedance, held by its pull-down (R241). -/
def State.gateBall (s : State) (k : Nat) (high : Bool) : Option Bool :=
  if s.ballsFloat then none else some (if high then (s.pair k).h else (s.pair k).l)

/-- Level of the ball FAULT_n (R240, R241). -/
def State.faultBall (s : State) : Option Bool := if s.ballsFloat then none else some (!s.faultN)

/-- Level of the ball SAFE_n, which the standby domain drives low in SLEEP (R239, R241, R563). -/
def State.safeBall (s : State) : Option Bool :=
  if s.pwr.asleep then some false else if s.pwr.held.isSome then none else some (!s.prot.safeLow)

/-- SAFE_n goes low while a named unit is in safe state or F4 holds. -/
def State.updateSafeN (s : State) : State :=
  if s.safeNamed ≠ 0 ∨ s.haltedF4 then { s with prot.safeLow := true } else s

/-! ### Entering, changing and leaving safe state -/

/-- Post SAFE_CONFLICT once for each disagreement of the latches of a bridge (R229). -/
def State.checkConflict (s : State) (b : Nat) : State :=
  match disagreeing (s.acts b) with
  | some src =>
      if hasBit s.prot.conflict b then s
      else { s with prot.conflict := withBit s.prot.conflict b }.event
        ⟨UnitCode.prot, 0x407, 0, b, BitVec.ofNat 32 src⟩
  | none => { s with prot.conflict := withoutBit s.prot.conflict b }

/-- The six-step sequencer of a bridge's machine stops at its safe-state entry, and the masks it owned
become PWM (R321). -/
def State.stopSequencer (s : State) (b : Nat) : State :=
  let paired := s.on Reg.POS_CFG Fld.POS_CFG.PAIRED
  let m := if paired then 0 else b
  if 2 ≤ b || !s.on (Reg.FLD_MCm_STAT m) Fld.FLD_MCm_STAT.SIXSTEP then s
  else
    let s := s.setFld (Reg.FLD_MCm_STAT m) Fld.FLD_MCm_STAT.SIXSTEP 0
    let ks := if paired then s.pairsOf 0 ++ s.pairsOf 1 else s.pairsOf b
    (ks.foldl (fun s k =>
      let s := s.setFld (Reg.PAIRk_MASK k) Fld.PAIRk_MASK.CODE maskPwm
      (s.setForce (Reg.PAIRk_MASK k) (s.reg (Reg.PAIRk_MASK k))).setFld (Reg.PAIRk_LIVE k)
        Fld.PAIRk_LIVE.MASK maskPwm) s).regate ks

/-- A unit takes the safe state its requests resolve to: it enters safe state and posts SAFE_ENTER,
or a bridge already in safe state changes and posts SAFE_CHANGE. -/
def State.applySafe (s : State) (u cause : Nat) : State :=
  let st := s.resolve u
  let s :=
    if s.isSafe u then
      let old := s.unitState u
      if u < 2 ∧ old ≠ st then
        let s := s.setFld (Reg.PROT_BRb_STAT u) Fld.PROT_BRb_STAT.STATE st
        let s := if st ≠ stateSpo ∧ old = stateSpo then s.setAscSince u else s
        (s.regate (s.pairsOf u)).event ⟨UnitCode.prot, 0x405, 0, u, detailOf [(0, old), (4, st)]⟩
      else s
    else
      let s := s.setFld Reg.PROT_USTAT Fld.PROT_USTAT.SAFE
        (withBit (s.fld Reg.PROT_USTAT Fld.PROT_USTAT.SAFE) u)
      let s := if u < 2 then
          ((s.setFld (Reg.PROT_BRb_STAT u) Fld.PROT_BRb_STAT.STATE st).setFld
            (Reg.PROT_BRb_STAT u) Fld.PROT_BRb_STAT.CAUSE cause).setAscSince u
        else s
      let s := (s.pairsOf u).foldl State.clearCarry (s.stopSequencer u)
      let s := (s.regate (s.pairsOf u)).updateSafeN
      s.event ⟨UnitCode.prot, 0x404, 0, u, detailOf [(0, st), (8, cause)]⟩
  if u < 2 then s.checkConflict u else s

/-- The units of a set of unit bits, in unit code order. -/
def unitList (units : Nat) : List Nat := (List.range 5).filter (hasBit units)

def State.applySafeAll (s : State) (units cause : Nat) : State :=
  (unitList units).foldl (fun s u => s.applySafe u cause) s

/-- TRIP for a source, with the units it acts on and the state entered, that of the lowest of
them. -/
def State.postTrip (s : State) (src units : Nat) : State :=
  let st := ((unitList units).head?.map s.resolve).getD 0
  s.event ⟨UnitCode.prot, 0x400, 3, 0, detailOf [(0, src), (8, units), (16, st)]⟩

/-- What the latches of one fabric cycle do, each with its source and the units it acts on, in source number order:
the TRIP events, then the safe states of the units in unit code order (R244). -/
def State.actAll (s : State) (l : List (Nat × Nat)) : State :=
  let s := l.foldl (fun s c => s.postTrip c.1 c.2) s
  (List.range 5).foldl (fun s u =>
    match l.find? fun c => hasBit c.2 u with
    | some c => s.applySafe u c.1
    | none => s) s

/-- Latches that set in one fabric cycle. -/
def State.tripAll (s : State) (srcs : List Nat) : State :=
  let s := s.settle
  let fresh := srcs.filter fun src => !s.latched src
  let s := fresh.foldl (fun s src => s.setLatch src true) s
  s.actAll (fresh.map fun src => (src, s.latchUnits src))

/-- An internal cause begins (R221): its source is active and its latch sets, and it acts on its units. -/
def State.takeCause (s : State) (c : TripCause) : State :=
  let s := { s with
    prot.causes := c :: s.prot.causes.filter (fun d => !(d.src == c.src && d.tag == c.tag)),
    prot.latchUnits := tabSet 0 s.prot.latchUnits c.src
      ((if s.latched c.src then s.latchUnits c.src else 0) ||| c.units) }
  (s.setLevel c.src true).setLatch c.src true

/-- Causes in source number order; those of one source keep their order. -/
def insertCause (c : TripCause) : List TripCause → List TripCause
  | [] => [c]
  | d :: l => if c.src ≤ d.src then c :: d :: l else d :: insertCause c l
def sortCauses (l : List TripCause) : List TripCause := l.foldr insertCause []

/-- Internal causes of one fabric cycle: every latch sets, then TRIP is posted for each cause, also where its latch
was set already, and the units enter safe state. -/
def State.raiseAll (s : State) (l : List TripCause) : State :=
  let s := s.settle
  let l := (sortCauses l).map fun c => { c with units := s.widen c.units }
  (l.foldl State.takeCause s).actAll (l.map fun c => (c.src, c.units))

def State.raiseNow (s : State) (src tag units : Nat) : State := s.raiseAll [⟨src, tag, units⟩]

/-- An internal cause is found: it acts, or waits for the other findings of its fabric cycle. -/
def State.raise (s : State) (src tag units : Nat) : State :=
  match s.batch with
  | some b => { s with batch := some { b with causes := b.causes ++ [⟨src, tag, units⟩] } }
  | none => s.raiseNow src tag units

/-- What a fabric cycle finds: events in the order of R66, then the trips. -/
def State.closeBatch (s : State) : State :=
  match s.batch with
  | none => s
  | some b =>
      let s := (sortEvs b.events).foldl State.post { s with batch := none }
      if b.causes.isEmpty then s else s.raiseAll b.causes

def State.openBatch (s : State) : State := { s with batch := some {} }

/-- An internal cause ends; the source is inactive once every cause has ended. -/
def State.endCause (s : State) (src tag : Nat) : State :=
  let cs := s.prot.causes.filter fun c => !(c.src == src && c.tag == tag)
  let s := { s with prot.causes := cs }
  if cs.any (fun c => c.src == src) then s else s.setLevel src false

def State.causeActive (s : State) (src tag : Nat) : Bool :=
  s.prot.causes.any fun c => c.src == src && c.tag == tag

/-- From the first release on, a bridge that stays in safe state takes what its requests resolve to (R229, R241). -/
def State.openStates (s : State) : State :=
  if s.prot.opened then s
  else [0, 1].foldl (fun s b =>
    if s.isSafe b then s.applySafe b (s.fld (Reg.PROT_BRb_STAT b) Fld.PROT_BRb_STAT.CAUSE) else s)
    { s with prot.opened := true }

/-- A unit leaves safe state at t0 + 250 ns (R236): the host's request is erased, SAFE_n goes high
when no named unit remains, but for the auxiliary unit's release by TRIP_CLEAR (R239), and the balls follow enables
and masks under R228. -/
def State.release (s : State) (u : Nat) : State :=
  if s.isSafe u then
    let s := s.settle
    let s := s.setFld Reg.PROT_USTAT Fld.PROT_USTAT.SAFE
      (withoutBit (s.fld Reg.PROT_USTAT Fld.PROT_USTAT.SAFE) u)
    let s := if u < 2 then
        (s.setFld (Reg.PROT_BRb_STAT u) Fld.PROT_BRb_STAT.STATE stateOperating).setExplicit u 0
      else s
    let own := u == unitAux && s.prot.auxOwn
    let s := if s.safeNamed = 0 ∧ !s.haltedF4 ∧ !own then { s with prot.safeLow := false } else s
    let s := if own then { s with prot.auxOwn := false } else s
    (((s.startEnabled u).regate (s.pairsOf u)).event
      ⟨UnitCode.prot, 0x406, 0, u, BitVec.ofNat 32 (s.tick % 2 ^ 16)⟩).openStates
  else s

/-! ### Standing choice (R230, R231) -/

/-- The standing choice from the speed of its source and the link voltage, each none while invalid
(R230). -/
def State.standChoice (s : State) (b : Nat) (w v : Option Rat) : Bool :=
  let old := s.on (Reg.PROT_BRb_STAT b) Fld.PROT_BRb_STAT.STAND
  match w, v with
  | some w, some v =>
      let e := Num.mul (s.real (Reg.PROT_BRb_KE b)) w
      let hi := s.fld (Reg.PROT_BRb_THR b) Fld.PROT_BRb_THR.HI
      let lo := s.fld (Reg.PROT_BRb_THR b) Fld.PROT_BRb_THR.LO
      if (hi : Rat) * v / 256 ≤ e then true
      else if e ≤ (lo : Rat) * v / 256 then false else old
  | _, _ => !s.on (Reg.PROT_BRb_CFG b) Fld.PROT_BRb_CFG.NOVAL

/-- Recompute the standing choice and move a bridge that it holds (R231): to ASC at once, to SPO
once DWELL has passed since it entered ASC. -/
def State.updateStanding (s : State) (b : Nat) (w v : Option Rat) : State :=
  let stand := s.standChoice b w v
  let s := (s.setFld (Reg.PROT_BRb_STAT b) Fld.PROT_BRb_STAT.STAND stand.toNat).setFld
    (Reg.PROT_BRb_STAT b) Fld.PROT_BRb_STAT.VALID (w.isSome && v.isSome).toNat
  if s.heldByStanding b then
    let dwell := s.fld (Reg.PROT_BRb_THR b) Fld.PROT_BRb_THR.DWELL * esPerMs
    if !stand && s.unitState b != stateSpo && decide (s.now < s.ascSince b + dwell) then s
    else s.applySafe b (s.fld (Reg.PROT_BRb_STAT b) Fld.PROT_BRb_STAT.CAUSE)
  else s

end Sys2Proof.Machine
end

