-- ==== Sys2Proof/Machine/Discharge.lean ====
section
/-! DEFINITION. DC-link discharge: its conditions, its start by descriptor, trip or F4, and how a
method drops and a discharge ends (R357 to R364). -/

set_option Elab.async false

namespace Sys2Proof.Machine

/-! ### Published inputs -/

/-- Average and validity of SAR input `k` as published (Table ACQ-2). -/
def State.sarAvg (s : State) (k : Nat) : Option Rat :=
  if s.sig (0x113 + 4 * k) = 1 then some (Num.val (s.sig (0x110 + 4 * k))) else none
/-- Average and validity of delta-sigma channel `c` as published (Table ACQ-5). -/
def State.dsAvg (s : State) (c : Nat) : Option Rat :=
  if s.sig (0x1D3 + 4 * c) = 1 then some (Num.val (s.sig (0x1D0 + 4 * c))) else none

/-- The link voltage of the discharge controller. -/
def State.disVolt (s : State) : Option Rat :=
  if s.on Reg.PROT_DIS_CFG Fld.PROT_DIS_CFG.VSRC then
    s.dsAvg (s.fld Reg.PROT_DIS_CFG Fld.PROT_DIS_CFG.VDS)
  else s.sarAvg (s.fld Reg.PROT_DIS_CFG Fld.PROT_DIS_CFG.VIN)

/-- Base of the weigh-house words of machine `m` (Table WGH-4) and of its field-control words
(Table FLD-2). -/
def wghBoard (m : Nat) : Nat := 0x280 + 8 * m
def fldBoard (m : Nat) : Nat := 0x220 + 0x20 * m
/-- Position channel words (16 each). -/
def posBoard (c : Nat) : Nat := 0x200 + 16 * c

/-- The power state is RUN (R557). -/
def State.inRun (s : State) : Bool := s.fld Reg.PWR_STATE Fld.PWR_STATE.STATE == 0

/-- The bridges of a machine: with POS_CFG.PAIRED machine 0 drives both (R305). -/
def State.bridgesOf (s : State) (m : Nat) : List Nat :=
  if s.on Reg.POS_CFG Fld.POS_CFG.PAIRED then (if m = 0 then [0, 1] else []) else [m]

/-- THETA_CTL of a machine comes from a VALID source: the position channel is in TRACK or COAST
with its VALID word set, or the sensorless estimate is valid; open loop has none. -/
def State.thetaValid (s : State) (m : Nat) : Bool :=
  match (s.fld (Reg.FLD_MCm_STAT m) Fld.FLD_MCm_STAT.SRC) with
  | 0 => s.sig (posBoard 0 + 4) == 1
  | 1 => s.sig (posBoard 1 + 4) == 1
  | 5 => false
  | _ => s.sig (fldBoard m + 10) == 1

/-- An enabled binding to a sink. -/
def State.sinkBound (s : State) (sink : Nat) : Bool :=
  (List.range 256).any fun n => s.on (Reg.ENG_BINDn n) Fld.ENG_BINDn.EN &&
    s.fld (Reg.ENG_BINDn n) Fld.ENG_BINDn.SINK == sink

/-! ### Conditions (Table PROT-11) -/

def positive (w : Word) : Bool := decide (0 < Num.val w)

def State.disResistorOk (s : State) : Bool :=
  positive (s.reg Reg.PROT_DIS_RDIS) && positive (s.reg Reg.PROT_DIS_PMAX) &&
  positive (s.reg Reg.PROT_DIS_EMAX) && (s.tb (s.tbOf 10)).running && !s.dis.barred

def State.disWindingOk (s : State) (m : Nat) : Bool :=
  positive (s.reg Reg.PROT_DIS_IDDIS) &&
  s.fld (Reg.FLD_MCm_STAT m) Fld.FLD_MCm_STAT.START == 6 &&
  (s.bridgesOf m).any (fun b => !s.isSafe b) && s.thetaValid m &&
  s.sinkBound (0x0A0 + m) &&
  s.fld (Reg.WGH_MCm_STAT m) Fld.WGH_MCm_STAT.STATE == 1

/-! ### State of the controller -/

def State.disRunning (s : State) : Bool := s.fld Reg.PROT_DIS_STAT Fld.PROT_DIS_STAT.STATE == 1
def State.disRes (s : State) : Bool := s.on Reg.PROT_DIS_STAT Fld.PROT_DIS_STAT.RES
def State.disWind (s : State) : Nat := s.fld Reg.PROT_DIS_STAT Fld.PROT_DIS_STAT.WIND

/-- The duty of the resistor method (R360): `MIN (1, (PMAX · RDIS) / v²)`, with 1,000 V for a link
voltage that is not VALID. -/
def State.disDuty (s : State) : Word :=
  let v := s.disVolt.getD 1000
  let d := Num.div (Num.mul (s.real Reg.PROT_DIS_PMAX) (s.real Reg.PROT_DIS_RDIS)) (Num.mul v v)
  Num.pack (if 1 < d then 1 else d)

/-- Take the resistor method up or off: pair 10 follows the controller or returns to its unit. -/
def State.setDisRes (s : State) (on : Bool) : State :=
  let s := s.settle.setFld Reg.PROT_DIS_STAT Fld.PROT_DIS_STAT.RES on.toNat
  let s := { s with prot.chopper := if on then some 10 else none }
  if on then { s with dis.duty := s.disDuty } else s.regate [10]

/-- Set the machines of the winding method: DIS_ON and DIS_ID follow (R362). -/
def State.setDisWind (s : State) (wind : Nat) : State :=
  let s := s.setFld Reg.PROT_DIS_STAT Fld.PROT_DIS_STAT.WIND wind
  [0, 1].foldl (fun s m =>
    let on := hasBit wind m
    (s.publishFlag (wghBoard m + 7) on).publishReal (wghBoard m + 6)
      (if on then -(s.real Reg.PROT_DIS_IDDIS) else 0)) s

def State.stopMethods (s : State) : State := (s.setDisRes false).setDisWind 0

/-- Milliseconds since the start. -/
def State.disElapsed (s : State) : Nat :=
  if s.disRunning then satAdd 16 ((s.now - s.dis.startAt) / esPerMs) 0 else 0

/-- Post DIS_DONE and end. -/
def State.disDone (s : State) (ok : Bool) : State :=
  let ms := s.disElapsed
  let s := (s.stopMethods.setFld Reg.PROT_DIS_STAT Fld.PROT_DIS_STAT.STATE
    (if ok then 2 else 0)).setFld Reg.PROT_DIS_TIME Fld.PROT_DIS_TIME.MS ms
  s.event ⟨UnitCode.prot, 0x411, 0, 0, detailOf [(0, ok.toNat), (16, ms)]⟩

/-- The discharge fails: DIS_FAIL, and every method stops (R364). -/
def State.disFail (s : State) (reason : Nat) : State :=
  let v := ((s.disVolt.map Num.roundInt).getD 0).toNat
  let s := ((s.stopMethods.setFld Reg.PROT_DIS_STAT Fld.PROT_DIS_STAT.STATE 3).setFld
    Reg.PROT_DIS_STAT Fld.PROT_DIS_STAT.REASON reason).setFld
    Reg.PROT_DIS_TIME Fld.PROT_DIS_TIME.MS s.disElapsed
  s.event ⟨UnitCode.prot, 0x413, 2, 0, detailOf [(0, reason), (16, satAdd 16 v 0)]⟩

/-- DIS_DROP of the resistor method (1) or of a machine of the winding method (2). -/
def State.disDropEvent (s : State) (method mach reason : Nat) : State :=
  (s.setFld Reg.PROT_DIS_STAT Fld.PROT_DIS_STAT.REASON reason).event
    ⟨UnitCode.prot, 0x412, 2, 0, detailOf [(0, method), (4, mach), (8, reason)]⟩

/-- The discharge fails once no method remains and none is to replace a lost one. -/
def State.disIfNone (s : State) (reason : Nat) : State :=
  if s.disRunning && !s.disRes && s.disWind == 0 && !s.dis.fallback then s.disFail reason else s

/-- Drop the resistor method (R361); chopper and energy bar it until a reset. -/
def State.dropResistor (s : State) (reason : Nat) : State :=
  let s := s.setDisRes false
  let s := if reason = 1 ∨ reason = 2 then { s with dis.barred := true } else s
  (s.disDropEvent 1 0 reason)

/-- Drop a machine of the winding method (R362, R363); the last one lost, unless for want of progress, is to be
replaced by the resistor method. -/
def State.dropWinding (s : State) (m reason : Nat) : State :=
  let s := (s.setDisWind (withoutBit s.disWind m)).disDropEvent 2 m reason
  if s.disWind = 0 ∧ !s.disRes ∧ s.on Reg.PROT_DIS_CFG Fld.PROT_DIS_CFG.FALLBACK ∧ reason ≠ 5 then
    { s with dis.fallback := true }
  else s

/-- Start the methods of `res` and `wind` toward a target (R357, R364).  A discharge under way ends
without an event. -/
def State.disStart (s : State) (res : Bool) (wind : Nat) (target : Word) (deadlineMs cause : Nat) :
    State :=
  let v0 := s.disVolt.getD 0
  let vt := Num.val target
  let eest := Num.mul (Num.mul (mkRat 1 2) (s.real Reg.PROT_DIS_CLINK))
    (Num.sub (Num.mul v0 v0) (Num.mul vt vt))
  let s := { s with dis := { barred := s.dis.barred, target, startAt := s.now,
                             deadlineAt := s.now + deadlineMs * esPerMs,
                             mark := s.disVolt.map Num.pack, markAt := s.now } }
  let s := (s.setReg Reg.PROT_DIS_STAT 1).setReg Reg.PROT_DIS_EEST (Num.pack eest)
  let s := (s.setReg Reg.PROT_DIS_ERES 0).setReg Reg.PROT_DIS_TIME 0
  let s := (s.setDisRes res).setDisWind wind
  s.event ⟨UnitCode.prot, 0x410, 0, 0, detailOf [(0, res.toNat), (4, wind), (8, cause)]⟩

/-- The machines of `mach` (0: every one) that the winding method may use. -/
def State.eligible (s : State) (mach : Nat) : Nat :=
  [0, 1].foldl (fun w m =>
    if (mach = 0 ∨ hasBit mach m) ∧ s.disWindingOk m then withBit w m else w) 0

/-- An automatic start (R359), ignored while a discharge runs or when nothing may start. -/
def State.disAuto (s : State) (winding : Bool) (cause : Nat) : State :=
  let wind := if winding then s.eligible 0 else 0
  let res := s.disResistorOk
  if s.disRunning || !(s.inRun && s.disVolt.isSome) || (!res && wind == 0) then s
  else s.disStart res wind (s.reg Reg.PROT_DIS_VTGT)
    (s.fld Reg.PROT_DIS_AUTODL Fld.PROT_DIS_AUTODL.DL) cause

/-- Latches set, with the automatic start that the latch of TRIGSRC brings (R223, R359). -/
def State.trip (s : State) (srcs : List Nat) : State :=
  let trig := s.fld Reg.PROT_DIS_CFG Fld.PROT_DIS_CFG.TRIGSRC
  let fire := s.on Reg.PROT_DIS_CFG Fld.PROT_DIS_CFG.TRIGEN && srcs.contains trig &&
    !s.latched trig
  let s := s.tripAll srcs
  if fire then s.disAuto true 1 else s

end Sys2Proof.Machine
end

