-- ==== Sys2Proof/Machine/Halt.lean ====
section
/-! DEFINITION. Submission-ring status, the resume point, and the device halt of class F4
(R34, R92, R97, R542). -/

set_option Elab.async false

namespace Sys2Proof.Machine

/-! ### Ring status (Table CMD-5, CMD_STAGE) -/

abbrev ringDisabled : Nat := 0
abbrev ringIdle : Nat := 1
abbrev ringActive : Nat := 2
abbrev ringHalted : Nat := 3

def State.sqState (s : State) (n : Nat) : Nat := s.fld (Reg.CMD_SQn_STAT n) Fld.CMD_SQn_STAT.STATE
def State.setSqState (s : State) (n v : Nat) : State :=
  s.setFld (Reg.CMD_SQn_STAT n) Fld.CMD_SQn_STAT.STATE v
def State.sqEnabled (s : State) (n : Nat) : Bool := s.on (Reg.CMD_SQn_CFG n) Fld.CMD_SQn_CFG.EN
def State.sqSize (s : State) (n : Nat) : Nat := s.fld (Reg.CMD_SQn_CFG n) Fld.CMD_SQn_CFG.SIZE

/-- The staged members of a ring, in slot order: closed caravans, then the open one. -/
def State.stagedOf (s : State) (n : Nat) : List Staged :=
  (s.cmd.staged.filter (fun c => c.ring == n)).flatMap (·.members) ++ (s.sq n).opened

/-- Bring the staging counts and the status of the rings up to date. -/
def State.refreshRings (s : State) : State :=
  let opens := (List.range 16).filter fun n => !(s.sq n).opened.isEmpty
  let desc := ((List.range 16).map fun n => (s.stagedOf n).length).sum
  let s := (s.setFld Reg.CMD_STAGE Fld.CMD_STAGE.DESC desc).setFld Reg.CMD_STAGE
    Fld.CMD_STAGE.CARV (s.cmd.staged.length + opens.length)
  (List.range 16).foldl (fun s n =>
    let r := s.sq n
    if s.sqState n = ringHalted then s
    else s.setSqState n (if !s.sqEnabled n then ringDisabled
      else if r.pi ≠ r.fetch ∨ !(s.stagedOf n).isEmpty then ringActive else ringIdle)) s

/-- A staged descriptor's completion record (Table CMD-10). -/
def completionOf (ring : Nat) (m : Staged) (status : Nat) : Completion :=
  { ring, status, seq := m.desc.w2.toNat % 2 ^ 16,
    word3 := detailOf [(0, m.slot), (16, m.desc.w2.toNat / 2 ^ 16)] }

abbrev stDone : Nat := 0x00
abbrev stDoneLate : Nat := 0x01
abbrev stDoneImage : Nat := 0x02
abbrev stDoneLateImage : Nat := 0x03
abbrev stFlushed : Nat := 0x08
abbrev stRefusedState : Nat := 0x10
abbrev stRefusedLifecycle : Nat := 0x11
abbrev stHaltCheck : Nat := 0x20
abbrev stHaltTarget : Nat := 0x21
abbrev stHaltOpcode : Nat := 0x22

/-! ### Resume point (R97, R537, R542) -/

/-- Words of the resume point from L4 on. -/
def State.resumeWords (s : State) : List Word :=
  let mask := (List.range 16).foldl (fun w n => if s.sqEnabled n then withBit w n else w) 0
  [s.lastPsn, BitVec.ofNat 32 (s.cmd.lastApplied % 2 ^ 32), BitVec.ofNat 32 mask] ++
  (List.range 16).map fun n => match (s.sq n).last with
    | some (slot, epoch) => detailOf [(0, slot), (16, epoch), (31, 1)]
    | none => 0

/-- Send a resume-point entry; it takes the next PSN and is posted to no ring. -/
def State.sendResumePoint (s : State) : State :=
  let payload := s.resumeWords
  let (psn, s) := s.takePsn
  s.sendLedger (s.ledgerEntry 2 0 0 0 0 psn 3 payload)

/-! ### Device halt (R92) -/

/-- Stop the engine: the tick under way is abandoned, and what it would still have found with it. -/
def State.stopEngine (s : State) : State :=
  { s.postFound.setFld Reg.ENG_STAT Fld.ENG_STAT.RUN 0 with
    cmd.found := [],
    eng.started := false, eng.voted := false, eng.transfer := none, eng.copyDue := [],
    eng.flagged := [], eng.reached := none }

/-- The FLUSHED record of a slot. -/
def FlushRec.completion (f : FlushRec) (n : Nat) : Completion :=
  ⟨n, stFlushed, f.seq, detailOf [(0, f.slot), (16, f.caravan)]⟩

/-- Records whose descriptors have already completed take their PSNs; then every fetched descriptor that is left
completes with FLUSHED, in ring number order and slot order.  A FLUSH under way ends with it. -/
def State.flushAll (s : State) : State :=
  let recs := s.cmd.due ++ s.cmd.posting ++ s.cmd.disabled
  let left := fun n => (s.stagedOf n).map (fun m => completionOf n m stFlushed) ++
    ((s.sq n).flushing.filter (·.fetched)).map (·.completion n)
  let s := (recs ++ (List.range 16).flatMap left).foldl State.postCompletion s
  let s := { s with cmd := { s.cmd with staged := [], due := [], posting := [], disabled := [] } }
  (List.range 16).foldl (fun s n => s.setSq n { s.sq n with opened := [], flushing := [] }) s

/-- The device halt: safe state, engine stop, flush, DEVICE_HALT, the automatic discharge of R359,
and every enabled ring HALTED; the ledger drains and takes a resume point. -/
def State.haltDevice (s : State) (cause : Word) : State :=
  if s.haltedF4 then s else
    let s := (s.settle.setFld Reg.SYS_FAULTSTAT Fld.SYS_FAULTSTAT.F4 1).updateSafeN
    let s := s.applySafeAll 0x0F 0x42
    let s := s.stopEngine.flushAll
    let s := s.event ⟨UnitCode.sys, 0x011, 4, 0, cause⟩
    let s := if s.on Reg.PROT_DIS_CFG Fld.PROT_DIS_CFG.AUTOF4 then s.disAuto false 2 else s
    let s := (List.range 16).foldl (fun s n =>
      if s.sqEnabled n then s.setSqState n ringHalted else s) s
    s.refreshRings.sendResumePoint

/-- An F4 cause: its event, then the device halt that names its PSN. -/
def State.f4 (s : State) (e : Ev) : State :=
  let psn := s.reg Reg.CMD_PSN
  (s.event e).haltDevice psn

end Sys2Proof.Machine
end

