-- ==== Sys2Proof/Machine/Operands.lean ====
section
/-! DEFINITION. Operand forms of the control engine: word types and held forms, the regions of
operand addresses, recipe, descriptor, schedule and table memory, and operation words
(R102 to R105, R107, R110 to R117). -/

set_option Elab.async false

namespace Sys2Proof.Machine

/-! ### Types and held forms (Table ENG-2) -/

inductive Ty where
  | real | ang | int | flag
  deriving DecidableEq, Repr

def Ty.ofCode (c : Nat) : Ty := if c = 0 then .real else if c = 1 then .ang else if c = 2 then .int else .flag

/-- A word with its exponent field moved by `d`, modulo 256; 0 stays 0. -/
def shiftExp (d : Nat) (w : Word) : Word :=
  if w = 0 then 0 else (⟨23, 8⟩ : Bits).put ((Num.expOf w + d) % 256) w

/-- The held form of a pass A word in pass 0 (A), 1 (B) or 2 (C). -/
def hold (p : Nat) (t : Ty) (w : Word) : Word :=
  match t, p with
  | .real, 1 => if w = 0 then 0 else w ^^^ 0x80000000
  | .real, 2 => shiftExp 248 w
  | .ang, 1 => -w
  | _, _ => w

/-- The pass A word of a held form. -/
def restore (p : Nat) (t : Ty) (w : Word) : Word :=
  match t, p with
  | .real, 1 => if w = 0 then 0 else w ^^^ 0x80000000
  | .real, 2 => shiftExp 8 w
  | .ang, 1 => -w
  | _, _ => w

/-! ### Engine words: three copies of state, parameters and temporaries, and output slots -/

/-- Number of stalls, and output slots of each. -/
abbrev slotsPerStall : Nat := 24
/-- First output slot of a stall, and the owner of a slot. -/
def slotBase (stall : Nat) : Nat := 0x400 + slotsPerStall * stall
def slotOwner (a : Nat) : Nat := (a - 0x400) / slotsPerStall

/-- Key of word `a` of a stall (below 0x080) or of an output slot (from 0x400) in a pass. -/
def engKey (p stall a : Nat) : Nat :=
  p * 0x8000 + if a < 0x80 then stall * 0x80 + a else 0x4000 + (a - 0x400)

def State.held (s : State) (p stall a : Nat) : Word := Store.get boardDefault s.eng.words (engKey p stall a)
def State.setHeld (s : State) (p stall a : Nat) (w : Word) : State :=
  { s with eng.words := Store.set boardDefault s.eng.words (engKey p stall a) w }

/-! ### Recipe memory (Tables ENG-7, ENG-8, ENG-10) -/

def descAddr (stall : Nat) : Nat := recipeBase + 0xE000 + 0x20 * stall
/-- Word `i` of the descriptor of a stall. -/
def State.stallDesc (s : State) (stall i : Nat) : Word := s.word (descAddr stall + 4 * i)
/-- Byte address of the header of a stall's recipe. -/
def State.recipeAddr (s : State) (stall : Nat) : Nat :=
  recipeBase + 8 * (⟨0, 13⟩ : Bits).of (s.stallDesc stall 0)
def State.stallClass (s : State) (stall : Nat) : Nat := (⟨16, 3⟩ : Bits).of (s.stallDesc stall 0)
def State.recipeLen (s : State) (stall : Nat) : Nat := (⟨0, 9⟩ : Bits).of (s.word (s.recipeAddr stall))

/-- A type code of two bits: number `i` of the words from descriptor word `w` on. -/
def State.typeCode (s : State) (stall w i : Nat) : Ty :=
  Ty.ofCode ((⟨2 * (i % 16), 2⟩ : Bits).of (s.stallDesc stall (w + i / 16)))

/-- Declared type of a state word, parameter or output slot (R103). -/
def State.wordType (s : State) (stall a : Nat) : Ty :=
  if a < 0x20 then s.typeCode stall 1 a
  else if a < 0x40 then s.typeCode stall 3 (a - 0x20)
  else s.typeCode (slotOwner a) 5 ((a - 0x400) % slotsPerStall)

def schedAddr (k : Nat) : Nat := recipeBase + 0xF000 + 0x400 * k
def State.schedLen (s : State) (k : Nat) : Nat := (⟨0, 8⟩ : Bits).of (s.word (schedAddr k))

/-- A schedule entry. -/
structure Entry where
  stall : Nat
  divl : Nat
  phase : Nat
  deriving DecidableEq, Repr

def State.schedEntry (s : State) (k i : Nat) : Entry :=
  let w := s.word (schedAddr k + 0x10 + 4 * i)
  ⟨(⟨0, 7⟩ : Bits).of w, (⟨8, 4⟩ : Bits).of w, (⟨16, 8⟩ : Bits).of w⟩

def State.schedule (s : State) (k : Nat) : List Entry :=
  (List.range (min 128 (s.schedLen k))).map (s.schedEntry k)

/-- Whether an entry is due in the tick of counter `n` (R115). -/
def Entry.due (e : Entry) (n : Nat) : Bool := n % 2 ^ e.divl == e.phase

/-- The active schedule, and whether a stall is running. -/
def State.activeSched (s : State) : Nat := s.fld Reg.ENG_STAT Fld.ENG_STAT.SCHED
def State.engRun (s : State) : Bool := s.on Reg.ENG_STAT Fld.ENG_STAT.RUN
def State.stallRunning (s : State) (n : Nat) : Bool := bitAt (s.reg (Reg.ENG_RUNMAPj (n / 32))) (n % 32)
def State.setStallRunning (s : State) (n : Nat) (b : Bool) : State :=
  s.setReg (Reg.ENG_RUNMAPj (n / 32)) (setBit (s.reg (Reg.ENG_RUNMAPj (n / 32))) (n % 32) b)
def State.runningStalls (s : State) : List Nat := (List.range 128).filter s.stallRunning

def State.loadedOf (s : State) (n : Nat) : Loaded := tabGet {} s.eng.loaded n
def State.setLoaded (s : State) (n : Nat) (l : Loaded) : State :=
  { s with eng.loaded := tabSet {} s.eng.loaded n l }

/-! ### Table memory (R116, R117) -/

/-- A directory entry. -/
structure Dir where
  base : Nat
  kind : Nat
  outw : Nat
  nx : Nat
  ny : Nat
  x0 : Rat
  invdx : Rat
  y0 : Rat
  invdy : Rat

def dirAddr (k : Nat) : Nat := tableBase + 0x20 * k

def State.dir (s : State) (k : Nat) : Dir :=
  let w := fun i => s.word (dirAddr k + 4 * i)
  { base := (⟨0, 15⟩ : Bits).of (w 0), kind := (⟨16, 2⟩ : Bits).of (w 0),
    outw := (⟨18, 2⟩ : Bits).of (w 0), nx := (⟨0, 14⟩ : Bits).of (w 1), ny := (⟨16, 14⟩ : Bits).of (w 1),
    x0 := Num.val (w 2), invdx := Num.val (w 3), y0 := Num.val (w 4), invdy := Num.val (w 5) }

/-- A data word of table memory by word offset. -/
def State.tableWord (s : State) (off : Nat) : Word := s.word (tableBase + 4 * (off % 0x8000))

/-- Position of an input on an axis: the index and the fraction (R117). -/
def axis (x x0 inv : Rat) (n : Nat) : Nat × Rat :=
  let u := Num.mul (Num.sub x x0) inv
  let top : Rat := ((n - 1 : Nat) : Rat)
  let u := if u < 0 then 0 else if top < u then top else u
  let i := u.floor.toNat
  (i, Num.sub u (i : Rat))

/-- Interpolation of two reals, and of two angles. -/
def lerp (a b f : Rat) : Rat := Num.add a (Num.mul f (Num.sub b a))
def lerpAng (a b : Word) (f : Rat) : Word :=
  a + BitVec.ofInt 32 (Num.roundInt (f * ((b - a).toInt : Rat)))

/-- The point (i, j), output word `c`, of a table. -/
def State.tablePoint (s : State) (d : Dir) (i j c : Nat) : Word :=
  s.tableWord (d.base + (j * d.nx + i) * d.outw + c)

/-- A row of a real table. -/
def State.lookupRow (s : State) (d : Dir) (x : Rat) (j c : Nat) : Rat :=
  let (i, f) := axis x d.x0 d.invdx d.nx
  let p := Num.val (s.tablePoint d i j c)
  if i + 1 < d.nx then lerp p (Num.val (s.tablePoint d (i + 1) j c)) f else p

/-- A 1-D lookup of output `c`. -/
def State.lookup1 (s : State) (d : Dir) (x : Rat) (c : Nat) : Rat := s.lookupRow d x 0 c

/-- A 2-D lookup of output `c`. -/
def State.lookup2 (s : State) (d : Dir) (x y : Rat) (c : Nat) : Rat :=
  let (j, f) := axis y d.y0 d.invdy d.ny
  let p := s.lookupRow d x j c
  if j + 1 < d.ny then lerp p (s.lookupRow d x (j + 1) c) f else p

/-- A 1-D lookup with angle output. -/
def State.lookupAng (s : State) (d : Dir) (x : Rat) (c : Nat) : Word :=
  let (i, f) := axis x d.x0 d.invdx d.nx
  let p := s.tablePoint d i 0 c
  if i + 1 < d.nx then lerpAng p (s.tablePoint d (i + 1) 0 c) f else p

/-! ### Published signals (Table ENG-3) -/

/-- Types of a group of words: R real, A angle, I integer, F flag, anything else reserved. -/
def typeOfChar : Char → Option Ty
  | 'R' => some .real
  | 'A' => some .ang
  | 'I' => some .int
  | 'F' => some .flag
  | _ => none

def typeIn (pattern : String) (i : Nat) : Option Ty := pattern.toList[i]?.bind typeOfChar

/-- Type of a published word, none for a reserved address. -/
def signalType (a : Nat) : Option Ty :=
  if a < 0x100 then none
  else if a < 0x110 then typeIn "RRRRIR" (a - 0x100)
  else if a < 0x200 then typeIn "RRRF" (a % 4)
  else if a < 0x220 then typeIn "ARRFFFIIRRARRI" (a % 16)
  else if a < 0x260 then typeIn "ARRIIIFIARFRRRRRAFFFI" ((a - 0x220) % 32)
  else if a < 0x280 then some .flag
  else if a < 0x290 then typeIn "RRRFIFRF" (a % 8)
  else if a < 0x2A0 then typeIn "RRRRRRRRRRRII" (a - 0x290)
  else if a < 0x300 then none
  else if a < 0x400 then typeIn "RRFI" (a % 4)
  else none

/-! ### Operation words (Table ENG-5) -/

structure Op where
  opc : Nat
  dst : Nat
  srcA : Nat
  srcB : Nat
  w : Nat
  k : Nat
  res : Nat
  deriving DecidableEq, Repr

def Op.ofWords (lo hi : Word) : Op :=
  { opc := (⟨0, 8⟩ : Bits).of lo, dst := (⟨8, 12⟩ : Bits).of lo, srcA := (⟨20, 12⟩ : Bits).of lo,
    srcB := (⟨0, 12⟩ : Bits).of hi, w := (⟨12, 2⟩ : Bits).of hi, k := (⟨14, 10⟩ : Bits).of hi,
    res := (⟨24, 8⟩ : Bits).of hi }

/-- Operation `i` of a stall's recipe. -/
def State.recipeOp (s : State) (stall i : Nat) : Op :=
  let a := s.recipeAddr stall + 8 * (i + 1)
  Op.ofWords (s.word a) (s.word (a + 4))

def State.recipeOps (s : State) (stall : Nat) : List Op :=
  (List.range (min 256 (s.recipeLen stall))).map (s.recipeOp stall)

/-! ### The operation catalogue (Tables ENG-6 and ENG-21, R616) -/

/-- What an operation accepts as a source. -/
inductive Src where
  /-- No such source. -/
  | none
  /-- Any type. -/
  | any
  /-- REAL or INT. -/
  | num
  /-- The type of source a. -/
  | same
  /-- One type. -/
  | is (t : Ty)
  deriving DecidableEq, Repr

/-- What an operation writes. -/
inductive Dst where
  | none
  /-- The type of source a. -/
  | same
  | is (t : Ty)
  deriving DecidableEq, Repr

/-- How many elements an operand has: a number, as W says, or the OUTW of the table. -/
inductive Len where
  | n (k : Nat)
  | w
  | outw
  deriving DecidableEq, Repr

/-- One row of the catalogue. -/
structure OpInfo where
  cost : Nat
  wide : Bool
  a : Src
  aLen : Len
  b : Src
  bLen : Len
  d : Dst
  dLen : Len
  /-- d is also read. -/
  dRead : Bool := false
  /-- K bits in use. -/
  kBits : Nat := 0
  deriving DecidableEq, Repr

/-- The catalogue; none for an undefined opcode. -/
def opInfo : Nat → Option OpInfo
  | 0x00 => some ⟨1, false, .none, .n 0, .none, .n 0, .none, .n 0, false, 0⟩
  | 0x01 => some ⟨1, true, .any, .w, .none, .n 0, .same, .w, false, 0⟩
  | 0x02 => some ⟨1, true, .num, .w, .none, .n 0, .same, .w, false, 0⟩
  | 0x03 => some ⟨1, true, .is .real, .w, .none, .n 0, .is .real, .w, false, 0⟩
  | 0x04 => some ⟨1, true, .is .real, .w, .none, .n 0, .is .real, .w, false, 7⟩
  | 0x05 => some ⟨1, false, .is .int, .n 1, .none, .n 0, .is .real, .n 1, false, 0⟩
  | 0x06 => some ⟨1, false, .is .real, .n 1, .none, .n 0, .is .int, .n 1, false, 0⟩
  | 0x08 => some ⟨1, true, .num, .w, .same, .w, .same, .w, false, 0⟩
  | 0x09 => some ⟨1, true, .num, .w, .same, .w, .same, .w, false, 0⟩
  | 0x0A => some ⟨1, true, .is .real, .w, .is .real, .w, .is .real, .w, false, 0⟩
  | 0x0B => some ⟨1, true, .is .real, .w, .is .real, .n 1, .is .real, .w, false, 0⟩
  | 0x0C => some ⟨1, true, .is .real, .w, .is .real, .w, .is .real, .w, true, 0⟩
  | 0x0D => some ⟨1, true, .is .real, .w, .is .real, .w, .is .real, .n 1, false, 0⟩
  | 0x0E => some ⟨1, false, .is .real, .n 2, .is .real, .n 2, .is .real, .n 1, false, 0⟩
  | 0x10 => some ⟨8, false, .is .real, .n 1, .is .real, .n 1, .is .real, .n 1, false, 0⟩
  | 0x11 => some ⟨8, false, .is .real, .n 1, .none, .n 0, .is .real, .n 1, false, 0⟩
  | 0x12 => some ⟨8, false, .is .real, .n 1, .none, .n 0, .is .real, .n 1, false, 0⟩
  | 0x13 => some ⟨8, true, .is .real, .w, .none, .n 0, .is .real, .n 1, false, 0⟩
  | 0x14 => some ⟨8, false, .is .real, .n 1, .is .real, .n 1, .is .ang, .n 1, false, 0⟩
  | 0x18 => some ⟨1, true, .is .real, .w, .is .real, .w, .is .real, .w, false, 0⟩
  | 0x19 => some ⟨1, true, .is .real, .w, .is .real, .w, .is .real, .w, false, 0⟩
  | 0x1A => some ⟨1, false, .is .real, .n 1, .is .real, .n 2, .is .real, .n 1, false, 0⟩
  | 0x1B => some ⟨8, true, .is .real, .w, .is .real, .n 1, .is .real, .w, false, 0⟩
  | 0x1C => some ⟨1, false, .is .real, .n 1, .is .real, .n 1, .is .real, .n 1, true, 0⟩
  | 0x1D => some ⟨1, false, .is .real, .n 1, .is .real, .n 1, .is .real, .n 1, true, 0⟩
  | 0x20 => some ⟨1, false, .is .real, .n 1, .is .real, .n 1, .is .flag, .n 1, false, 0⟩
  | 0x21 => some ⟨1, false, .is .real, .n 1, .is .real, .n 1, .is .flag, .n 1, false, 0⟩
  | 0x22 => some ⟨1, false, .any, .n 1, .same, .n 1, .is .flag, .n 1, false, 0⟩
  | 0x23 => some ⟨1, true, .any, .w, .same, .w, .same, .w, false, 10⟩
  | 0x24 => some ⟨1, false, .is .flag, .n 1, .is .flag, .n 1, .is .flag, .n 1, false, 0⟩
  | 0x25 => some ⟨1, false, .is .flag, .n 1, .is .flag, .n 1, .is .flag, .n 1, false, 0⟩
  | 0x26 => some ⟨1, false, .is .flag, .n 1, .none, .n 0, .is .flag, .n 1, false, 0⟩
  | 0x27 => some ⟨1, false, .is .flag, .n 1, .none, .n 0, .is .int, .n 1, true, 10⟩
  | 0x28 => some ⟨1, false, .is .ang, .n 1, .is .ang, .n 1, .is .ang, .n 1, false, 0⟩
  | 0x29 => some ⟨1, false, .is .ang, .n 1, .is .ang, .n 1, .is .ang, .n 1, false, 0⟩
  | 0x2A => some ⟨1, false, .is .real, .n 1, .none, .n 0, .is .ang, .n 1, false, 0⟩
  | 0x2B => some ⟨1, false, .is .ang, .n 1, .none, .n 0, .is .real, .n 1, false, 0⟩
  | 0x2C => some ⟨4, false, .is .ang, .n 1, .none, .n 0, .is .real, .n 2, false, 0⟩
  | 0x30 => some ⟨1, false, .is .real, .n 3, .none, .n 0, .is .real, .n 2, false, 0⟩
  | 0x31 => some ⟨1, false, .is .real, .n 2, .none, .n 0, .is .real, .n 3, false, 0⟩
  | 0x32 => some ⟨4, false, .is .real, .n 2, .is .ang, .n 1, .is .real, .n 2, false, 0⟩
  | 0x33 => some ⟨4, false, .is .real, .n 2, .is .ang, .n 1, .is .real, .n 2, false, 0⟩
  | 0x34 => some ⟨1, false, .is .real, .n 2, .is .real, .n 2, .is .real, .n 2, false, 2⟩
  | 0x38 => some ⟨8, false, .is .real, .n 2, .is .real, .n 1, .is .real, .n 3, false, 0⟩
  | 0x39 => some ⟨8, false, .is .real, .n 2, .is .real, .n 1, .is .real, .n 2, false, 2⟩
  | 0x40 => some ⟨4, false, .is .real, .n 1, .none, .n 0, .is .real, .outw, false, 5⟩
  | 0x41 => some ⟨4, false, .is .real, .n 1, .is .real, .n 1, .is .real, .outw, false, 5⟩
  | 0x42 => some ⟨4, false, .is .real, .n 1, .none, .n 0, .is .ang, .outw, false, 5⟩
  | 0x48 => some ⟨1, false, .is .flag, .n 1, .none, .n 0, .none, .n 0, false, 8⟩
  | _ => none

/-- The table KIND a lookup needs. -/
def lookupKind (opc : Nat) : Option Nat :=
  if opc = 0x40 then some 0 else if opc = 0x41 then some 1 else if opc = 0x42 then some 2 else none

/-- The table a lookup selects. -/
def Op.table (op : Op) : Nat := op.k % 32

/-- Number of elements of an operand. -/
def State.lenOf (s : State) (op : Op) : Len → Nat
  | .n k => k
  | .w => op.w + 1
  | .outw => (s.dir op.table).outw

end Sys2Proof.Machine
end

