-- ==== Sys2Proof/Machine/EngineOps.lean ====
section
/-! DEFINITION. What each engine operation computes, on operands in pass A form (Table ENG-6, R99,
R100, R109, R117, R152, R153).  By R161 and R162 the result in another pass is the held form of the
result in pass A. -/

set_option Elab.async false

namespace Sys2Proof.Machine

open Sys2Proof.Num (add sub mul)

/-- What an operation produces: the exact real results before the range rule, or words, and the
findings of R101 (1 division by zero, 2 negative square root; overflow is found when a real result
is stored). -/
inductive Res where
  | reals (qs : List Rat) (finds : List Nat)
  | words (ws : List Word)

/-- √3 / 2, 1 / √3 and 1 / 3, each rounded to binary32. -/
def cs3 : Rat := Num.sqrt (mkRat 3 4)
def cs : Rat := Num.sqrt (mkRat 1 3)
def c3 : Rat := Num.round24 (mkRat 1 3)
def half : Rat := mkRat 1 2

def minR (a b : Rat) : Rat := if b < a then b else a
def maxR (a b : Rat) : Rat := if a < b then b else a

/-- Magnitude: squares and sums in index order, each rounded, then the root (R109). -/
def magnitude (a : List Rat) : Rat :=
  Num.sqrt (match a with
    | [] => 0
    | x :: xs => xs.foldl (fun acc y => add acc (mul y y)) (mul x x))

def dotProduct (a b : List Rat) : Rat :=
  match List.zipWith mul a b with
  | [] => 0
  | p :: ps => ps.foldl add p

def zeroFind (b : Rat) : List Nat := if b = 0 then [1] else []

/-- Rotation by −b (PARK), with (c, s) = SINCOS(b). -/
def park (x y c s : Rat) : Rat × Rat := (add (mul x c) (mul y s), sub (mul y c) (mul x s))
/-- Rotation by +b (IPARK). -/
def ipark (x y c s : Rat) : Rat × Rat := (sub (mul x c) (mul y s), add (mul y c) (mul x s))

def clarke (a0 a1 a2 : Rat) : Rat × Rat :=
  (mul (sub (sub (mul a0 2) a1) a2) c3, mul (sub a1 a2) cs)
def iclarke (x y : Rat) : Rat × Rat × Rat :=
  (x, sub (mul y cs3) (mul x half), sub (-(mul x half)) (mul y cs3))

/-- SVM (R152): the three duties and the findings of its divisions. -/
def svm (x y vdc : Rat) : List Rat :=
  let (va, vb, vc) := iclarke x y
  let v0 := -(mul (add (maxR (maxR va vb) vc) (minR (minR va vb) vc)) half)
  [va, vb, vc].map fun v => maxR 0 (minR 1 (add half (Num.div (add v v0) vdc)))

/-! ### OVM (R153): exact values rounded once, as R109 states for operations that involve π -/

/-- √3 with 2 · 96 fractional bits and more. -/
def sqrt3 : Rat := mkRat (Num.isqrtFrom 200 (3 * 2 ^ 384) 0) (2 ^ 192)

/-- Sine and cosine of an angle from 0 to π / 2, in radians, to more than 150 bits. -/
def sinCosExact (x : Rat) : Rat × Rat :=
  let fxp := (x * ((2 ^ Num.fx : Nat) : Rat)).floor.toNat
  let x2 := fxp * fxp / 2 ^ Num.fx
  (mkRat (Num.altSeries 32 x2 fxp 1 0) (2 ^ Num.fx),
   mkRat (Num.altSeries 32 x2 (2 ^ Num.fx) 0 0) (2 ^ Num.fx))

/-- The same for an angle of either sign within ±π / 2. -/
def sinCosSigned (x : Rat) : Rat × Rat :=
  if x < 0 then (-(sinCosExact (-x)).1, (sinCosExact (-x)).2) else sinCosExact x

/-- Angle of (x, y) in radians, from 0 to 2π, to more than 150 bits. -/
def angleExact (x y : Rat) : Rat :=
  let ax := Num.absR x
  let ay := Num.absR y
  let unit : Rat := Num.pi / ((2 ^ 31 : Nat) : Rat)
  let oct : Rat := if ay = 0 then 0 else if ax = 0 then Num.pi / 2
    else if ay ≤ ax then Num.atanUnits (ay / ax) * unit
    else Num.pi / 2 - Num.atanUnits (ax / ay) * unit
  let up := if x < 0 then Num.pi - oct else oct
  if y < 0 then 2 * Num.pi - up else up

/-- Rotate (x, y) by `k` · 60°. -/
def rot60 (k : Nat) (x y : Rat) : Rat × Rat :=
  let (c, s) : Rat × Rat := match k % 6 with
    | 0 => (1, 0)
    | 1 => (half, sqrt3 / 2)
    | 2 => (-half, sqrt3 / 2)
    | 3 => (-1, 0)
    | 4 => (-half, -(sqrt3 / 2))
    | _ => (half, -(sqrt3 / 2))
  (c * x - s * y, s * x + c * y)

/-- The hexagon boundary point at angle `g` from vertex `k`, `|g| ≤ π / 6`. -/
def boundaryPoint (k : Nat) (g : Rat) : Rat × Rat :=
  let (sn, c) := sinCosSigned g
  let (_, cr) := sinCosExact (Num.pi / 6 - Num.absR g)
  let r := 1 / sqrt3 / cr
  rot60 k (r * c) (r * sn)

/-- The nearest vertex and the angle from it; a tie falls to the vertex of the larger angle where
`up` says so. -/
def nearestVertex (x y : Rat) (up : Bool) : Nat × Rat :=
  let th := angleExact x y
  let step := Num.pi / 3
  let pos := th / step + half
  let k := pos.floor.toNat
  let tie := decide (x = 0) && decide (y ≠ 0)
  let k := if tie then (if 0 < y then 1 else 4) + up.toNat else k
  (k % 6, th - (k : Rat) * step)

/-- OVM with region `k`. -/
def ovm (k : Nat) (x y alpha : Rat) (up : Bool) : List Rat :=
  let (v, g) := nearestVertex x y up
  let vertex := rot60 v (mkRat 2 3) 0
  let w : Rat × Rat :=
    if k = 0 then
      let c := (sinCosSigned g)
      let (_, cr) := sinCosExact (Num.pi / 6 - Num.absR g)
      let r := 1 / sqrt3 / cr
      if x * x + y * y ≤ r * r * (c.1 * c.1 + c.2 * c.2) then (x, y) else boundaryPoint v g
    else if k = 1 then
      if Num.absR g ≤ alpha then vertex
      else
        let m := (Num.absR g - alpha) * (Num.pi / 6) / (Num.pi / 6 - alpha)
        boundaryPoint v (if g < 0 then -m else m)
    else vertex
  [Num.round24 w.1, Num.round24 w.2]

/-! ### The operations -/

/-- The flag a word carries. -/
def isSet (w : Word) : Bool := w != 0
def flagWord (b : Bool) : Word := if b then 1 else 0

/-- What operation `op` computes from its operands `a`, `b` and `d`; `ta` is the type of a, `f` the
flag SEL reads. -/
def State.compute (s : State) (op : Op) (ta : Ty) (a b d : List Word) (f : Bool) : Res :=
  let ra := a.map Num.val
  let rb := b.map Num.val
  let rd := d.map Num.val
  let a0 := ra.headD 0
  let b0 := rb.headD 0
  let wa := a.headD 0
  let wb := b.headD 0
  let wd := d.headD 0
  let el := fun (l : List Rat) (i : Nat) => l.getD i 0
  match op.opc with
  | 0x01 => .words a
  | 0x02 => if ta = .int then .words (a.map fun x => -x) else .reals (ra.map fun x => -x) []
  | 0x03 => .reals (ra.map Num.absR) []
  | 0x04 => .reals (ra.map fun x => x * Num.pow2 (signedOf 7 (op.k % 128))) []
  | 0x05 => .reals [Num.ofInt wa.toInt] []
  | 0x06 => .words [Num.toInt32 a0]
  | 0x08 => if ta = .int then .words (List.zipWith (· + ·) a b) else .reals (List.zipWith add ra rb) []
  | 0x09 => if ta = .int then .words (List.zipWith (· - ·) a b) else .reals (List.zipWith sub ra rb) []
  | 0x0A => .reals (List.zipWith mul ra rb) []
  | 0x0B => .reals (ra.map fun x => mul x b0) []
  | 0x0C => .reals (List.zipWith add rd (List.zipWith mul ra rb)) []
  | 0x0D => .reals [dotProduct ra rb] []
  | 0x0E => .reals [sub (mul (el ra 0) (el rb 1)) (mul (el ra 1) (el rb 0))] []
  | 0x10 => .reals [Num.div a0 b0] (zeroFind b0)
  | 0x11 => .reals [Num.div 1 a0] (zeroFind a0)
  | 0x12 => .reals [Num.sqrt a0] (if a0 < 0 then [2] else [])
  | 0x13 => .reals [magnitude ra] []
  | 0x14 => .words [Num.atan2 a0 b0]
  | 0x18 => .reals (List.zipWith minR ra rb) []
  | 0x19 => .reals (List.zipWith maxR ra rb) []
  | 0x1A => .reals [minR (maxR a0 (el rb 0)) (el rb 1)] []
  | 0x1B =>
      let m := magnitude ra
      if b0 < m then .reals (ra.map fun x => mul x (Num.div b0 m)) (zeroFind m) else .reals ra []
  | 0x1C =>
      let d0 := rd.headD 0
      .reals [add d0 (minR (maxR (sub a0 d0) (-b0)) b0)] []
  | 0x1D =>
      let d0 := rd.headD 0
      .reals [add d0 (mul b0 (sub a0 d0))] []
  | 0x20 => .words [flagWord (decide (a0 < b0))]
  | 0x21 => .words [flagWord (decide (a0 ≤ b0))]
  | 0x22 => .words [flagWord (wa == wb)]
  | 0x23 => .words (if f then a else b)
  | 0x24 => .words [flagWord (isSet wa && isSet wb)]
  | 0x25 => .words [flagWord (isSet wa || isSet wb)]
  | 0x26 => .words [flagWord (!isSet wa)]
  | 0x27 => .words [if isSet wa then BitVec.ofInt 32 (min (wd + 1).toInt op.k) else 0]
  | 0x28 => .words [wa + wb]
  | 0x29 => .words [wa - wb]
  | 0x2A => .words [Num.rtoa a0]
  | 0x2B => .reals [Num.ator wa] []
  | 0x2C => let sc := Num.sincos wa; .reals [sc.2, sc.1] []
  | 0x30 => let r := clarke (el ra 0) (el ra 1) (el ra 2); .reals [r.1, r.2] []
  | 0x31 => let r := iclarke (el ra 0) (el ra 1); .reals [r.1, r.2.1, r.2.2] []
  | 0x32 =>
      let sc := Num.sincos wb
      let r := park (el ra 0) (el ra 1) sc.2 sc.1
      .reals [r.1, r.2] []
  | 0x33 =>
      let sc := Num.sincos wb
      let r := ipark (el ra 0) (el ra 1) sc.2 sc.1
      .reals [r.1, r.2] []
  | 0x34 =>
      let q := if op.k / 2 % 2 = 0 then ipark (el rb 0) (el rb 1) cs3 half
               else park (el rb 0) (el rb 1) cs3 half
      let f := if op.k % 2 = 0 then add else sub
      .reals [mul (f (el ra 0) q.1) half, mul (f (el ra 1) q.2) half] []
  | 0x38 => .reals (svm (el ra 0) (el ra 1) b0) (zeroFind b0)
  | 0x39 => .reals (ovm (op.k % 4) (el ra 0) (el ra 1) b0
      (Config.vertexTie (a.getD 0 0) (a.getD 1 0))) []
  | 0x40 => let t := s.dir op.table; .reals ((List.range t.outw).map (s.lookup1 t a0)) []
  | 0x41 => let t := s.dir op.table; .reals ((List.range t.outw).map (s.lookup2 t a0 b0)) []
  | 0x42 => let t := s.dir op.table; .words ((List.range t.outw).map (s.lookupAng t a0))
  | _ => .words []

/-- The words stored, and the findings: overflow (0) of a real result, and those of the operation
(R100, R101). -/
def Res.store : Res → List Word × List Nat
  | .words ws => (ws, [])
  | .reals qs finds =>
      (qs.map Num.pack, (if qs.any (fun q => Num.overflows (Num.round24 q)) then [0] else []) ++ finds)

end Sys2Proof.Machine
end

