-- ==== Sys2Proof/Machine/Loader.lean ====
section
/-! DEFINITION. The loader (R121, Table ENG-12): what it rejects, in which order, and the cost and
the live set it computes (R171). -/

set_option Elab.async false

namespace Sys2Proof.Machine

/-! ### Checks of one operation -/

/-- What the loader knows while it walks a recipe: the types of the temporaries written so far, the
state words written so far, and what the stall reads. -/
structure Walk where
  temps : List (Nat × Ty) := []
  wrote : List Nat := []
  reads : List Nat := []
  slots : List Nat := []
  restarts : List Nat := []

/-- A source or destination as addresses. -/
def span (a n : Nat) : List Nat := (List.range n).map (a + ·)

/-- Region of an operand address (Table ENG-1). -/
def regionOf (a : Nat) : Nat :=
  if a < 0x20 then 0 else if a < 0x40 then 1 else if a < 0x80 then 2 else if a < 0x100 then 3
  else if a < 0x400 then 4 else if a < 0x1000 then 5 else 6

def oneRegion (as : List Nat) : Bool :=
  match as with
  | [] => true
  | a :: rest => rest.all fun b => regionOf b == regionOf a

def readable (a : Nat) : Bool :=
  match regionOf a with
  | 3 => false
  | 4 => (signalType a).isSome
  | 6 => false
  | _ => true

def writable (stall a : Nat) : Bool :=
  regionOf a == 0 || regionOf a == 2 ||
  (decide (slotBase stall ≤ a) && decide (a < slotBase stall + slotsPerStall))

/-- Type of an address, none for a temporary that is not written yet. -/
def State.typeAt (s : State) (stall : Nat) (w : Walk) (a : Nat) : Option Ty :=
  match regionOf a with
  | 2 => (w.temps.find? fun t => t.1 == a).map (·.2)
  | 3 => none
  | 4 => signalType a
  | _ => some (s.wordType stall a)

/-- Whether every element's type is one a source accepts; an unwritten temporary is judged by
reason 7 alone. -/
def typesFit (src : Src) (ta : Option Ty) (ts : List (Option Ty)) : Bool :=
  ts.all fun t => match t with
    | none => true
    | some t => match src with
      | .none => true
      | .any => some t == ta || ta.isNone
      | .num => (t == .real || t == .int) && (some t == ta || ta.isNone)
      | .same => some t == ta || ta.isNone
      | .is u => t == u

/-- Whether K is legal for an operation (R107, R108, R616). -/
def kLegal (op : Op) (info : OpInfo) : Bool :=
  decide (op.k < 2 ^ info.kBits) &&
  (match op.opc with
   | 0x23 => decide (op.k < 0x80)
   | 0x27 => op.k != 0
   | 0x39 => op.k != 3
   | _ => true)

/-- Type of source a: that of its first element. -/
def State.typeA (s : State) (stall : Nat) (w : Walk) (op : Op) (info : OpInfo) : Option Ty :=
  if info.a = .none then none else s.typeAt stall w op.srcA

/-- Type of the result. -/
def resultType (info : OpInfo) (ta : Option Ty) : Option Ty :=
  match info.d with
  | .none => none
  | .same => ta
  | .is t => some t

/-- The addresses an operation reads: a, b, d where it is read, and the flag of SEL. -/
def State.sources (s : State) (op : Op) (info : OpInfo) : List (List Nat) :=
  [span op.srcA (if info.a = .none then 0 else s.lenOf op info.aLen),
   span op.srcB (if info.b = .none then 0 else s.lenOf op info.bLen),
   span op.dst (if info.dRead then s.lenOf op info.dLen else 0),
   if op.opc = 0x23 then [op.k] else []]

def State.target (s : State) (op : Op) (info : OpInfo) : List Nat :=
  span op.dst (if info.d = .none then 0 else s.lenOf op info.dLen)

/-- The lowest reason for which an operation is rejected, if any. -/
def State.opReason (s : State) (stall : Nat) (w : Walk) (op : Op) : Option Nat :=
  match opInfo op.opc with
  | none => some 4
  | some info =>
    let ta := s.typeA stall w op info
    let rs := s.sources op info
    let d := s.target op info
    let types := fun as => as.map (s.typeAt stall w)
    let dTypes := (d.filter fun a => regionOf a != 2).map fun a => s.typeAt stall w a
    if op.res ≠ 0 ∨ op.w = 3 ∨ (op.w ≠ 0 ∧ !info.wide) then some 4
    else if !(rs.all oneRegion && oneRegion d && rs.all (·.all readable) && d.all (writable stall)) then
      some 5
    else if !(typesFit info.a ta (types (rs.getD 0 [])) && typesFit info.b ta (types (rs.getD 1 [])) &&
        (match resultType info ta with
         | some t => typesFit (.is t) ta (types (rs.getD 2 [])) && typesFit (.is t) ta dTypes
         | none => true) &&
        typesFit (.is .flag) ta (types (rs.getD 3 []))) then some 6
    else if rs.any (·.any fun a => regionOf a == 2 && (s.typeAt stall w a).isNone) then some 7
    else match lookupKind op.opc with
      | some kind =>
          let t := s.dir op.table
          if t.kind ≠ kind ∨ t.outw = 0 ∨ t.outw = 3 then some 8
          else if kLegal op info then none else some 9
      | none => if kLegal op info then none else some 9

/-- What the loader knows after an operation it accepts. -/
def State.walkOp (s : State) (stall : Nat) (w : Walk) (op : Op) : Walk :=
  match opInfo op.opc with
  | none => w
  | some info =>
    let rs := (s.sources op info).flatten
    let t := (resultType info (s.typeA stall w op info)).getD .real
    let d := s.target op info
    let kept := rs.filter fun a => (decide (a < 0x20) && !w.wrote.contains a) || regionOf a == 1
    { temps := (d.filter fun a => regionOf a == 2).map (fun a => (a, t)) ++ w.temps,
      wrote := w.wrote ++ d.filter (· < 0x20),
      reads := w.reads ++ kept,
      slots := w.slots ++ rs.filter (fun a => regionOf a == 5),
      restarts := w.restarts ++ (rs.filter fun a => decide (0x300 ≤ a) && decide (a < 0x400) &&
        a % 4 == 2).map fun a => (a - 0x300) / 4 }

/-- Walk a recipe up to its first operation that fails: its index and reason, or what was found. -/
def State.walk (s : State) (stall : Nat) : Nat → Walk → List Op → (Nat × Nat) ⊕ Walk
  | _, w, [] => .inr w
  | i, w, op :: ops => match s.opReason stall w op with
    | some r => .inl (i, r)
    | none => s.walk stall (i + 1) (s.walkOp stall w op) ops

/-! ### The loader -/

/-- Check of the descriptor of a stall (R112). -/
def State.descOk (s : State) (stall : Nat) : Bool :=
  s.stallDesc stall 7 == Crc.checkC (s.bytes (descAddr stall) 28 ++ bytesOfWord (BitVec.ofNat 32 stall))

/-- The recipe lies in the recipe region and its length is legal (R110, R111). -/
def State.recipeFits (s : State) (stall : Nat) : Bool :=
  let len := s.recipeLen stall
  let start := s.recipeAddr stall
  1 ≤ len && len ≤ 256 && start + 8 * (len + 1) ≤ recipeBase + 0xE000

def State.recipeOk (s : State) (stall : Nat) : Bool :=
  s.word (s.recipeAddr stall + 4) ==
    Crc.checkC (s.bytes (s.recipeAddr stall + 8) (8 * s.recipeLen stall))

/-- Cost of a recipe (R98, R124). -/
def recipeCost (ops : List Op) : Nat := (ops.map fun op => ((opInfo op.opc).map (·.cost)).getD 0).sum

/-- Values without repeats, in rising order. -/
def tidy (bound : Nat) (l : List Nat) : List Nat := (List.range bound).filter l.contains

/-- Run the loader on a stall: the reason and the operation index of a rejection, or its result. -/
def State.load (s : State) (stall : Nat) : (Nat × Nat) ⊕ Loaded :=
  if !s.descOk stall || decide (6 ≤ s.stallClass stall) then .inl (0, 1)
  else if !s.recipeFits stall then .inl (0, 2)
  else if !s.recipeOk stall then .inl (0, 3)
  else
    let ops := s.recipeOps stall
    match s.walk stall 0 {} ops with
    | .inl r => .inl r
    | .inr w => .inr { cost := recipeCost ops, reads := tidy 0x40 w.reads,
                       slots := tidy 0x1000 w.slots, restarts := tidy 64 w.restarts }

/-! ### Live set (R171) -/

/-- Enabled bindings, in number order. -/
def State.bindEn (s : State) (n : Nat) : Bool := s.on (Reg.ENG_BINDn n) Fld.ENG_BINDn.EN
def State.bindSrc (s : State) (n : Nat) : Nat := s.fld (Reg.ENG_BINDn n) Fld.ENG_BINDn.SRC
def State.bindSink (s : State) (n : Nat) : Nat := s.fld (Reg.ENG_BINDn n) Fld.ENG_BINDn.SINK
def State.bindings (s : State) : List Nat := (List.range 256).filter s.bindEn

/-- An output slot is live: bound, or read by a running stall. -/
def State.slotLive (s : State) (a : Nat) : Bool :=
  s.bindings.any (fun n => s.bindSrc n == a) ||
  s.runningStalls.any (fun n => (s.loadedOf n).slots.contains a)

/-- The live addresses of a stall, in ascending order. -/
def State.liveSet (s : State) (stall : Nat) : List Nat :=
  (s.loadedOf stall).reads ++ (span (slotBase stall) slotsPerStall).filter s.slotLive

end Sys2Proof.Machine
end

