-- ==== Sys2Proof/Machine/TollGate.lean ====
section
/-! DEFINITION. Bindings and their types, and the toll gate (R106, R124 to R126). -/

set_option Elab.async false

namespace Sys2Proof.Machine

/-! ### Bindings -/

/-- Type of a sink (Tables ENG-4 and FLD-3), none for an unassigned code. -/
def sinkType (c : Nat) : Option Ty :=
  if c < 0x010 then some .real
  else if c < 0x040 then some .int
  else if c < 0x060 then
    (if c % 16 < 2 then some .real else if c % 16 < 4 then some .int
     else if c % 16 = 4 then some .ang else if c % 16 = 5 then some .real else none)
  else if c < 0x070 then some .ang
  else if c < 0x080 then none
  else if c < 0x0A8 then some .real
  else none

/-- Type of an output slot, as the descriptor of its stall declares it now. -/
def State.slotType (s : State) (a : Nat) : Ty := s.wordType (slotOwner a) a

/-- The conflict of an enabled binding: 0 type mismatch, 1 second binding to one sink. -/
def State.bindConflict (s : State) (n : Nat) : Option Nat :=
  if sinkType (s.bindSink n) ≠ some (s.slotType (s.bindSrc n)) then some 0
  else if s.bindings.any (fun m => m != n && s.bindSink m == s.bindSink n) then some 1
  else none

/-- The lowest binding in conflict, with its kind. -/
def State.conflict (s : State) : Option (Nat × Nat) :=
  s.bindings.findSome? fun n => (s.bindConflict n).map fun k => (n, k)

/-- BIND_REFUSED. -/
def State.postBindRefused (s : State) (c : Nat × Nat) : State :=
  s.event ⟨UnitCode.eng, 0x109, 0, 0, detailOf [(0, c.1), (8, c.2)]⟩

/-! ### The toll gate -/

/-- Cost of the running stalls of the active schedule that are due at residue `r`. -/
def State.residueCost (s : State) (r : Nat) : Nat :=
  (((s.schedule s.activeSched).filter fun e => s.stallRunning e.stall && e.due r).map
    fun e => (s.loadedOf e.stall).cost).sum

def State.sMax (s : State) : Nat := ((List.range 256).map s.residueCost).foldl max 0

/-- C_REQ = ceil (11 · (3 · S_max + 8 · N_out) / 10). -/
def cReq (sMax nOut : Nat) : Nat := ceilDiv (11 * (3 * sMax + 8 * nOut)) 10

def State.cReq (s : State) : Nat := Machine.cReq s.sMax s.bindings.length

/-- The admitted shortest tick, in es: 600 ns is 3,840 es, an engine cycle 16 es, 5 µs 32,000 es. -/
def tAdm (c : Nat) : Nat := max 32000 (3840 + 16 * c)

/-- The shortest tick of a TB0 period under a tick source (R19, R125). -/
def shortestTick (src period : Nat) : Nat := if src = 2 then period / 2 else period

/-- The dither that shortens TB0's period (R190, R191). -/
def State.ditherEs (s : State) : Nat :=
  if s.on (Reg.TBn_CFG 0) Fld.TBn_CFG.SYNC then 0
  else 32 * s.fld (Reg.TBn_CFG 0) Fld.TBn_CFG.DITH

def State.tickSrc (s : State) : Nat := s.fld Reg.CLK_TICKCFG Fld.CLK_TICKCFG.SRC

/-- T_SET: the shortest tick without thermal division. -/
def State.tSet (s : State) : Nat :=
  shortestTick s.tickSrc (s.fld (Reg.TBn_PER 0) Fld.TBn_PER.PERIOD - s.ditherEs)

/-- The toll gate admits the state. -/
def State.admitted (s : State) : Bool := tAdm s.cReq ≤ s.tSet

/-- The shortest TB0 period whose tick is not shorter than T_ADM, and a period clamped to it
(R126, R63). -/
def State.shortestPeriod (s : State) : Nat :=
  (if s.tickSrc = 2 then 2 * tAdm s.cReq else tAdm s.cReq) + s.ditherEs
def State.tollPeriod (s : State) (p : Nat) : Nat := min 3200000 (max p s.shortestPeriod)

/-- Publish what the toll gate computed. -/
def State.refreshToll (s : State) : State :=
  let c := s.cReq
  (((s.setFld Reg.ENG_TOLL_REQ Fld.ENG_TOLL_REQ.C_REQ c).setFld
    Reg.ENG_TOLL_SMAX Fld.ENG_TOLL_SMAX.S_MAX s.sMax).setFld
    Reg.ENG_TOLL_BUD Fld.ENG_TOLL_BUD.B ((s.tSet - 3840) / 16)).setFld
    Reg.ENG_TADM Fld.ENG_TADM.T_ADM (tAdm c)

/-- TOLL_REFUSED, with the C_REQ that would have resulted. -/
def State.postTollRefused (s : State) (c : Nat) : State :=
  s.event ⟨UnitCode.eng, 0x102, 0, 0, BitVec.ofNat 32 (c % 2 ^ 20)⟩

/-- Judge a state that an action would produce: the event to post where it is refused. -/
def State.engineRefusal (cand : State) : Option (State → State) :=
  match cand.conflict with
  | some c => some fun s => s.postBindRefused c
  | none => if cand.admitted then none else some fun s => s.postTollRefused cand.cReq

/-! ### ENG_BINDn -/

/-- The word a write leaves in a binding register: SRC below 0x400 or an unassigned SINK stores
EN = 0 (Table ENG-16). -/
def bindWord (w : Word) : Word :=
  if Fld.ENG_BINDn.SRC.of w < 0x400 ∨ sinkType (Fld.ENG_BINDn.SINK.of w) = none then
    Fld.ENG_BINDn.EN.put 0 w
  else w

/-- Whether that stores other than what was written. -/
def bindClamps (w : Word) : Bool := bindWord w != w

/-- Judge and store a binding register whose word becomes `w`: the state, or the refusal. -/
def State.writeBind (s : State) (n : Nat) (w : Word) : State ⊕ (State → State) :=
  let cand := s.setReg (Reg.ENG_BINDn n) (bindWord w)
  if cand.bindEn n then
    match cand.engineRefusal with
    | some r => .inr r
    | none => .inl cand.refreshToll
  else .inl cand.refreshToll

/-- Judge and store ENG_CFG with RUN set (R125): the schedule of SCHED becomes active and the
signature window begins (R172). -/
def State.writeRun (s : State) (w : Word) : State ⊕ (State → State) :=
  let cand := (s.setReg Reg.ENG_CFG w).setFld Reg.ENG_STAT Fld.ENG_STAT.SCHED
    (Fld.ENG_CFG.SCHED.of w)
  match cand.engineRefusal with
  | some r => .inr r
  | none => .inl
      ({ (cand.setFld Reg.ENG_STAT Fld.ENG_STAT.RUN 1).setFld Reg.TPR_STAT Fld.TPR_STAT.WPOS 0 with
         eng.windowStart := s.tick, eng.ran := [], eng.sigs := [], eng.windows := 0, eng.saltDue := none }).refreshToll

end Sys2Proof.Machine
end

