-- ==== Sys2Proof/Machine/Passes.lean ====
section
/-! DEFINITION. The three passes of the engine: a run of a stall, its commit and signature, copies
between passes, and the start of the tick's passes (R104, R115, R127 to R131, R139, R169 to R171). -/

set_option Elab.async false

namespace Sys2Proof.Machine

/-! ### Signatures (R170) -/

/-- A running CRC-32C register, held as the reflected word the spec writes, after more bytes. -/
def foldC (r : Word) (bs : List Byte) : Word :=
  BitVec.ofNat 32 (Crc.reverseBits 32 (Crc.feed Crc.crc32C (Crc.reverseBits 32 r.toNat) bs))

/-- Seed of a stall's signature. -/
def sigSeed (stall : Nat) : Word := 0xFFFFFFFF ^^^ BitVec.ofNat 32 (stall % 128)

def sigDefault (k : Nat) : Word := sigSeed (k % 128)
def State.sigRun (s : State) (p stall : Nat) : Word := Store.get sigDefault s.eng.sigs (128 * p + stall)
def State.setSigRun (s : State) (p stall : Nat) (w : Word) : State :=
  { s with eng.sigs := Store.set sigDefault s.eng.sigs (128 * p + stall) w }

/-- Restart the signatures of a stall at their seeds in all three passes. -/
def State.reseed (s : State) (stall : Nat) : State :=
  [0, 1, 2].foldl (fun s p => s.setSigRun p stall (sigSeed stall)) s

/-- A word of a stall in pass A form. -/
def State.restored (s : State) (p stall a : Nat) : Word :=
  restore p (s.wordType stall a) (s.held p stall a)

/-- Fold the live values of a stall into its signature. -/
def State.foldSig (s : State) (p stall : Nat) : State :=
  s.setSigRun p stall (foldC (s.sigRun p stall)
    ((s.liveSet stall).flatMap fun a => bytesOfWord (s.restored p stall a)))

/-! ### Copies between passes (R128, R169, R175) -/

/-- Every state word, parameter and output slot of a stall. -/
def stallWords (stall : Nat) : List Nat := span 0 0x40 ++ span (slotBase stall) slotsPerStall

def State.copyPass (s : State) (stall donor p : Nat) : State :=
  (stallWords stall).foldl (fun s a =>
    s.setHeld p stall a (hold p (s.wordType stall a) (s.restored donor stall a))) s

/-! ### One run of a stall in one pass -/

/-- A run under way, in pass A form: temporaries, state words and slots written. -/
structure Run where
  temps : List (Nat × Ty × Word) := []
  writes : List (Nat × Word) := []
  finds : List (Nat × Nat) := []
  flagged : List (Nat × Nat) := []

/-- How `eng.restart` names HO_FIRST of machine `m` (R324). -/
def hoFirst (m : Nat) : Nat := 0x100 + m

/-- The word at an operand address (R104, R139); RESTART words and HO_FIRST read 1 to a stall in one
run. -/
def State.fetch (s : State) (p stall : Nat) (r : Run) (a : Nat) : Word :=
  match regionOf a with
  | 0 => ((r.writes.find? fun w => w.1 == a).map (·.2)).getD (s.restored p stall a)
  | 1 => s.restored p stall a
  | 2 => ((r.temps.find? fun t => t.1 == a).map (·.2.2)).getD 0
  | 4 => if 0x300 ≤ a ∧ a % 4 = 2 then flagWord (s.eng.restart.contains (stall, (a - 0x300) / 4))
         else if a = 0x226 then flagWord (s.eng.restart.contains (stall, hoFirst 0))
         else if a = 0x246 then flagWord (s.eng.restart.contains (stall, hoFirst 1))
         else s.sig a
  | 5 => s.restored p (slotOwner a) a
  | _ => 0

/-- Type of an operand during a run. -/
def State.fetchType (s : State) (stall : Nat) (r : Run) (a : Nat) : Ty :=
  match regionOf a with
  | 2 => ((r.temps.find? fun t => t.1 == a).map (·.2.1)).getD .real
  | 4 => (signalType a).getD .real
  | _ => s.wordType stall a

/-- Flip bits of a result as a functional unit of the pass would deliver it. -/
def disturb (p : Nat) (t : Ty) (mask : Word) (ws : List Word) : List Word :=
  match ws with
  | [] => []
  | w :: rest => restore p t (hold p t w ^^^ mask) :: rest

/-- The disturbance a transient fault brings to operation `i` of a stall in a pass. -/
def upsetMask (us : List Upset) (p stall i : Nat) : Word :=
  ((us.find? fun u => u.pass.val == p && u.stall.val == stall && u.op == some i).map (·.mask)).getD 0

/-- Execute operation `i` (R98, R108). -/
def State.execOp (s : State) (us : List Upset) (p stall i : Nat) (r : Run) (op : Op) : Run :=
  match opInfo op.opc with
  | none => r
  | some info =>
    let get := fun as => as.map (s.fetch p stall r)
    let src := s.sources op info
    let ta := s.fetchType stall r op.srcA
    let a := get (src.getD 0 [])
    let flag := isSet (s.fetch p stall r op.k)
    if op.opc = 0x48 then
      if isSet (a.headD 0) then { r with flagged := r.flagged ++ [(i, op.k % 256)] } else r
    else
      let res := (s.compute op ta a (get (src.getD 1 [])) (get (src.getD 2 [])) flag).store
      let t := (resultType info (some ta)).getD .real
      let ws := disturb p t (upsetMask us p stall i) res.1
      let out := (s.target op info).zip ws
      let isTemp := fun (e : Nat × Word) => regionOf e.1 == 2
      { r with temps := (out.filter isTemp).map (fun e => (e.1, t, e.2)) ++ r.temps,
               writes := (out.filter fun e => !isTemp e) ++ r.writes,
               finds := r.finds ++ res.2.map fun k => (i, k) }

def State.execOps (s : State) (us : List Upset) (p stall : Nat) : Nat → Run → List Op → Run
  | _, r, [] => r
  | i, r, op :: ops => s.execOps us p stall (i + 1) (s.execOp us p stall i r op) ops

/-! ### Findings (R101) -/

/-- An engine cycle in es: 2.5 ns, and twice that on the backup oscillator (Table CLK-3). -/
def State.engineCycle (s : State) : Nat := if s.fabricLocked then 16 else 32

/-- The instant at which an operation of pass A ends, the stall's run having begun `start` cycles after t0 + 250 ns
(R98). -/
def State.opEnd (s : State) (start : Nat) (ops : List Op) (i : Nat) : Nat :=
  s.t0 + nsToEs 250 + s.engineCycle * (start + recipeCost (ops.take (i + 1)))

/-- Count a range finding of instant `t`, and post NUM_RANGE where NUMEV is set and the stall has posted none for
1,024 ticks. -/
def State.rangeFinding (s : State) (stall op kind t : Nat) : State :=
  let s := s.count Reg.ENG_CNT Fld.ENG_CNT.RANGE
  let recent := match tabGet none s.eng.rangeTick stall with
    | some t => decide (s.tick < t + 1024)
    | none => false
  if s.on Reg.ENG_CFG Fld.ENG_CFG.NUMEV && !recent then
    { s with
        eng.rangeTick := tabSet none s.eng.rangeTick stall (some s.tick),
        cmd.found := s.cmd.found ++ [(t, ⟨UnitCode.eng, 0x103, 0, stall, detailOf [(0, stall), (8, op), (16, kind)]⟩)] }
  else s

/-- The findings of a run of pass A that began `start` cycles into the passes. -/
def State.rangeFindings (s : State) (stall start : Nat) (r : Run) : State :=
  let ops := s.recipeOps stall
  r.finds.foldl (fun s f => s.rangeFinding stall f.1 f.2 (s.opEnd start ops f.1)) s

/-- Commit a run at the end of the recipe: writes and signature. -/
def State.commitRun (s : State) (p stall : Nat) (r : Run) : State :=
  let s := r.writes.reverse.foldl (fun s e =>
    s.setHeld p stall e.1 (hold p (s.wordType stall e.1) e.2)) s
  let s := r.temps.reverse.foldl (fun s e => s.setHeld p stall e.1 (hold p e.2.1 e.2.2)) s
  { s with eng.committed := s.eng.committed ++ [(p, stall)] }.foldSig p stall

/-! ### The passes of a tick (R115) -/

/-- The stalls due in this tick, in entry order; a throttled DEFERRABLE stall is skipped (R402). -/
def State.dueStalls (s : State) : List Nat :=
  ((s.schedule s.activeSched).filter fun e => s.stallRunning e.stall && e.due s.tick &&
    !(s.eng.skip && s.stallClass e.stall == 5)).map (·.stall)

/-- The operation at which the deadline stops a stall in a pass. -/
def stopAt (stop : Option EngineStop) (p n : Nat) : Option Nat :=
  (stop.filter fun t => t.pass.val == p && t.stall.val == n).map (·.op)

/-- Run a list of stalls in pass `p`, `start` cycles into the passes, up to where the deadline stops the engine; the
flags of EVT are collected as (stall, operation, code).  The findings of pass A count also for operations of the stall
that is stopped (R101). -/
def State.runPass (us : List Upset) (stop : Option EngineStop) (p : Nat) :
    List Nat → Nat → State × List (Nat × Nat × Nat) → State × List (Nat × Nat × Nat)
  | [], _, acc => acc
  | n :: rest, start, (s, ev) =>
      let ops := s.recipeOps n
      match stopAt stop p n with
      | some k =>
          let r := s.execOps us p n 0 {} (ops.take k)
          (if p = 0 then s.rangeFindings n start r else s, ev)
      | none =>
          let r := s.execOps us p n 0 {} ops
          let s := s.commitRun p n r
          State.runPass us stop p rest (start + recipeCost ops)
            (if p = 0 then s.rangeFindings n start r else s, ev ++ r.flagged.map fun f => (n, f.1, f.2))

/-- Passes A, B and C, or as much of them as the deadline leaves. -/
def State.runPasses (s : State) (us : List Upset) (stop : Option EngineStop) : State :=
  let due := s.dueStalls
  let limit : Nat := (stop.map fun t => t.pass.val).getD 3
  let a := State.runPass us stop 0 due 0 (s, [])
  let b := if 1 ≤ limit then State.runPass us stop 1 due 0 (a.1, []) else (a.1, [])
  let c := if 2 ≤ limit then State.runPass us stop 2 due 0 (b.1, []) else (b.1, [])
  let s := c.1
  let all := a.2.filter fun f => b.2.contains f && c.2.contains f
  let ranA := (s.eng.committed.filter fun e => e.1 == 0).map (·.2)
  { s with
    eng.ran := s.eng.ran ++ ranA.filter (fun n => !s.eng.ran.contains n),
    eng.restart := s.eng.restart.filter (fun e => !ranA.contains e.1),
    eng.flagged := all.map fun f => (f.1, f.2.2),
    eng.reached := stop.map fun t => (t.pass.val, t.stall.val, t.op) }

/-- Held words that a transient fault flips after the passes. -/
def State.flipWords (s : State) (us : List Upset) : State :=
  (us.filter fun u => u.op.isNone).foldl (fun s u =>
    let owner := if u.addr < 0x80 then u.stall.val else slotOwner u.addr
    s.setHeld u.pass.val owner u.addr (s.held u.pass.val owner u.addr ^^^ u.mask)) s

/-! ### Spare functional units (R129 to R131) -/

def engineUnit (cls spare : Nat) : Nat := 0x24 + 2 * cls + spare

/-- The class's unit that does not serve is available as a spare. -/
def State.engineSpare (s : State) (c : Nat) : Bool :=
  let serving := (hasBit (s.fld Reg.ENG_STAT Fld.ENG_STAT.SPARE) c).toNat
  s.claimable (engineUnit c (1 - serving))

/-- The serving unit of a class goes out of service: its spare takes over, or none remains. -/
def State.swapClass (s : State) (c : Nat) : State :=
  let serving := (hasBit (s.fld Reg.ENG_STAT Fld.ENG_STAT.SPARE) c).toNat
  if s.engineSpare c then
    let s := (s.unitDetected (engineUnit c serving) unitQuarantine).claimSpare
      (engineUnit c (1 - serving))
    let s := s.setReg Reg.ENG_STAT (setBit (s.reg Reg.ENG_STAT) (8 + c) (serving == 0))
    let s := s.setReg Reg.ENG_STAT (setBit (s.reg Reg.ENG_STAT) (12 + c) true)
    let s := s.setReg Reg.ENG_STAT (setBit (s.reg Reg.ENG_STAT) (16 + c) false)
    (s.count Reg.ENG_CNT Fld.ENG_CNT.SWAP).event
      ⟨UnitCode.eng, 0x105, 1, 0, BitVec.ofNat 32 c⟩
  else
    (s.unitDetected (engineUnit c serving) unitQuarantine).f4
      ⟨UnitCode.eng, 0x106, 4, 0, BitVec.ofNat 32 c⟩

/-- The swaps due before pass A. -/
def State.swapClasses (s : State) : State :=
  let due := s.eng.lost
  ((List.range 4).filter (hasBit due)).foldl State.swapClass { s with eng.lost := 0 }

/-- A spare that mismatches during a watch takes its live unit out of service at the next tick; a
class whose spare already serves takes no part (R129, R130). -/
def State.watchMismatch (s : State) (classes : Nat) : State :=
  let hit := classes &&& s.fld Reg.ENG_STAT Fld.ENG_STAT.SHADOW
  if hit = 0 then s
  else { s.setFld Reg.ENG_STAT Fld.ENG_STAT.SHADOW (s.fld Reg.ENG_STAT Fld.ENG_STAT.SHADOW ^^^ hit) with
         eng.lost := s.eng.lost ||| hit, eng.mismatched := true }

/-- A resynchronisation starts or extends the shadow watch (R129). -/
def State.startWatch (s : State) : State :=
  let spare := s.fld Reg.ENG_STAT Fld.ENG_STAT.SPARE
  let takes := (List.range 4).foldl (fun w c =>
    if !hasBit spare c && s.engineSpare c then withBit w c else w) 0
  let s := (List.range 4).foldl (fun s c =>
    if hasBit takes c then s.abortTest (engineUnit c 1) 1 else s) s
  let on := s.on Reg.ENG_STAT Fld.ENG_STAT.SHADOW
  let s := { s with
    eng.watchFrom := if on then s.eng.watchFrom else s.tick,
    eng.mismatched := on && s.eng.mismatched,
    eng.watchTo := s.tick + s.fld Reg.ENG_CFG Fld.ENG_CFG.SHADOW_W }
  s.setFld Reg.ENG_STAT Fld.ENG_STAT.SHADOW takes

/-! ### ENGINE_START -/

/-- Copies due before pass A: stalls left behind by a deadline miss, and divergent stalls; their
signatures restart (R128, R169, R173). -/
def State.copyStalls (s : State) : State :=
  let due := s.eng.copyDue
  let s := { s with eng.copyDue := [], eng.touched := s.eng.touched ++ due }
  due.foldl (fun s n => ((s.copyPass n 0 1).copyPass n 0 2).reseed n) s

/-- The engine's part of t0 + 250 ns: the swaps and copies due, then the passes. -/
def State.startEngine (s : State) (us : List Upset) (stop : Option EngineStop) (mismatch lost : Nat) :
    State :=
  let s := if s.engRun then s.swapClasses else s
  if s.engRun then
    let s := { s.copyStalls with
      eng.committed := [], eng.flagged := [], eng.started := true, eng.voted := false,
      eng.reached := none }
    let s := ((s.runPasses us stop).flipWords us).watchMismatch mismatch
    { s with eng.lost := s.eng.lost ||| lost }
  else s

end Sys2Proof.Machine
end

