-- ==== Sys2Proof/Machine/Vote.lean ====
section
/-! DEFINITION. The vote, the hold, resynchronisation, the salted test, the deadline miss and the
state scrub (R127, R163 to R180). -/

set_option Elab.async false

namespace Sys2Proof.Machine

/-! ### Affected units and the hold (R166 to R168) -/

/-- The pair a sink belongs to: duty, strengths or mask word. -/
def pairOfSink (c : Nat) : Option Nat := if c < 0x40 then some (c % 16) else none

/-- Units with a pair bound to a slot that `p` selects. -/
def State.boundUnits (s : State) (p : Nat → Bool) : Nat :=
  s.bindings.foldl (fun w n => match pairOfSink (s.bindSink n) with
    | some k => if p (s.bindSrc n) then withBit w (s.unitOfPair k) else w
    | none => w) 0

/-- Affected units of a deadline miss, parity error or voter fault, and of a divergent stall. -/
def State.missUnits (s : State) : Nat := s.widen (s.boundUnits fun _ => true)
def State.divergeUnits (s : State) (stall : Nat) : Nat :=
  s.widen (s.boundUnits fun a => slotOwner a == stall)

def State.holdInForce (s : State) : Bool := s.on Reg.TPR_STAT Fld.TPR_STAT.HOLD

/-- A cause opens no hold: the staged outputs of its tick are those of the tick before (R168). -/
def State.keepPrior (s : State) : State :=
  { s with eng := { s.eng with frozen := true, staged := s.eng.prior, transfer := s.eng.transfer.map fun _ => s.eng.prior } }

/-- Open a hold on the affected units: a second cause during a hold opens none, and neither does
one whose units are all in safe state. -/
def State.openHold (s : State) (units : Nat) : State :=
  if s.holdInForce || (unitList units).all s.isSafe then s.keepPrior
  else
    let s := ((s.setFld Reg.TPR_STAT Fld.TPR_STAT.HOLD 1).setFld Reg.TPR_STAT
      Fld.TPR_STAT.HLEFT (s.fld Reg.TPR_CFG Fld.TPR_CFG.HOLD)).count
      Reg.TPR_CNT_B Fld.TPR_CNT_B.HOLDS
    { s with eng.holdUnits := units }

/-- Safe state commanded through source 17, by a hold (tag 0) or a bank error (tag 1). -/
def State.commandSafe (s : State) (units tag : Nat) : State :=
  let s := { s with eng.safeTick := s.tick }
  if units = 0 then s else s.raise (16 + 17) tag units

/-! ### Findings and their events -/

/-- A three-way divergence of a stall (R164, R166, R169): event, counter, hold, and the copy due
before the next pass A. -/
def State.divergence (s : State) (stall addr cause : Nat) : State :=
  let units := s.divergeUnits stall
  let s := (s.count Reg.TPR_CNT_B Fld.TPR_CNT_B.DIVERGE3).event
    ⟨UnitCode.tpr, 0x201, 3, stall, detailOf [(0, stall), (8, addr), (20, cause)]⟩
  let s := { s with eng.copyDue := s.eng.copyDue ++ [stall] }
  s.openHold units

/-- Resynchronise a minority pass from the donor (R175, R176). -/
def State.resync (s : State) (stall minority donor cause : Nat) : State :=
  let s := (s.copyPass stall donor minority).setSigRun minority stall (s.sigRun donor stall)
  let s := { s with eng.touched := s.eng.touched ++ [stall] }
  ((s.count Reg.TPR_CNT_A Fld.TPR_CNT_A.RESYNC).event ⟨UnitCode.tpr, 0x200, 1, stall,
    detailOf [(0, stall), (8, minority), (12, donor), (16, cause)]⟩).startWatch

/-- One word compared over three copies: equal, a minority pass, or all three different. -/
inductive Cmp3 where
  | equal
  | minority (p : Nat)
  | differ
  deriving DecidableEq, Repr

def compare3 (a b c : Word) : Cmp3 :=
  if a = b then (if a = c then .equal else .minority 2)
  else if a = c then .minority 1 else if b = c then .minority 0 else .differ

/-- The majority value of three copies that do not all differ. -/
def majority (a b c : Word) : Word := if a = b ∨ a = c then a else b

/-- Compare the three copies of a word of a stall. -/
def State.compareWord (s : State) (stall a : Nat) : Cmp3 :=
  compare3 (s.restored 0 stall a) (s.restored 1 stall a) (s.restored 2 stall a)

def State.majorityWord (s : State) (stall a : Nat) : Word :=
  majority (s.restored 0 stall a) (s.restored 1 stall a) (s.restored 2 stall a)

/-- A mark of the vote phase: stall, minority pass, CAUSE (0 vote, 1 signature, 2 scrub). -/
structure Mark where
  stall : Nat
  pass : Nat
  cause : Nat
  deriving DecidableEq, Repr

/-! ### Step 1: the comparisons -/

/-- Marks and divergent stalls, with the first divergent slot of each, of the enabled bindings. -/
def State.voteMarks (s : State) : List Mark × List (Nat × Nat) :=
  s.bindings.foldl (fun acc n =>
    let a := s.bindSrc n
    let st := slotOwner a
    match s.compareWord st a with
    | .equal => acc
    | .minority p => (acc.1 ++ [⟨st, p, 0⟩], acc.2)
    | .differ => if acc.2.any (fun d => d.1 == st) then acc else (acc.1, acc.2 ++ [(st, a)])) ([], [])

/-- The window ends with this vote phase (R172). -/
def State.windowEnds (s : State) : Bool :=
  decide (s.fld Reg.TPR_CFG Fld.TPR_CFG.SIGW ≤ s.fld Reg.TPR_STAT Fld.TPR_STAT.WPOS + 1)

def State.sigValue (s : State) (p stall : Nat) : Word := s.sigRun p stall ^^^ 0xFFFFFFFF

/-- The lowest live address whose copies differ, or 0x080 where every word agrees. -/
def State.firstLiveDifference (s : State) (stall : Nat) : Nat :=
  ((s.liveSet stall).find? fun a => s.compareWord stall a != .equal).getD 0x080

/-- Marks and divergent stalls of the signature comparison, leaving out stalls the vote found
divergent (R181). -/
def State.sigMarks (s : State) (divergent : List Nat) : List Mark × List (Nat × Nat) :=
  ((List.range 128).filter fun n => s.eng.ran.contains n && !divergent.contains n).foldl
    (fun acc n => match compare3 (s.sigValue 0 n) (s.sigValue 1 n) (s.sigValue 2 n) with
      | .equal => acc
      | .minority p => (acc.1 ++ [⟨n, p, 1⟩], acc.2)
      | .differ => (acc.1, acc.2 ++ [(n, s.firstLiveDifference n)])) ([], [])

/-- Copy the compared signatures to TPR_SIGn and take the seeds again. -/
def State.copySigs (s : State) : State :=
  let s := ((List.range 128).filter s.eng.ran.contains).foldl (fun s n =>
    ((((s.setReg (Reg.TPR_SIGn_A n) (s.sigValue 0 n)).setReg (Reg.TPR_SIGn_B n) (s.sigValue 1 n)).setReg
      (Reg.TPR_SIGn_C n) (s.sigValue 2 n)).setReg (Reg.TPR_SIGn_TICK n)
      (BitVec.ofNat 32 s.tickLow))) s
  { s with eng.sigs := [] }

/-- The window whose salted test is due in this vote phase. -/
def State.saltNow (s : State) (ends : Bool) : Option Nat :=
  s.eng.saltDue.or (if ends then some s.eng.windows else none)

/-- A vote phase is complete: the window advances, or the next one begins. -/
def State.advanceWindow (s : State) (ends : Bool) : State :=
  if ends then
    { s.setFld Reg.TPR_STAT Fld.TPR_STAT.WPOS 0 with
      eng.ran := [], eng.windowStart := s.tick + 1, eng.windows := s.eng.windows + 1 }
  else s.setFld Reg.TPR_STAT Fld.TPR_STAT.WPOS (s.fld Reg.TPR_STAT Fld.TPR_STAT.WPOS + 1)

/-! ### Step 2: resynchronisation -/

/-- The minority passes of a stall, and the cause its RESYNC gives: the lowest of those found. -/
def minorities (ms : List Mark) (stall : Nat) : List Nat :=
  [0, 1, 2].filter fun p => ms.any fun m => m.stall == stall && m.pass == p
def causeOf (ms : List Mark) (stall p : Nat) : Nat :=
  (((ms.filter fun m => m.stall == stall && m.pass == p).map (·.cause)).min?).getD 0

/-- The first pass that is in no minority of the stall (R165). -/
def donorOf (ms : List Mark) (stall : Nat) : Option Nat :=
  [0, 1, 2].find? fun p => !(minorities ms stall).contains p

/-- The first bound slot of a stall whose copies differ, for a stall without a donor. -/
def State.firstSlotDifference (s : State) (stall : Nat) : Nat :=
  ((s.bindings.map s.bindSrc).find? fun a =>
    slotOwner a == stall && s.compareWord stall a != .equal).getD (s.firstLiveDifference stall)

/-- The resynchronisations due, in ascending stall number: (stall, minority pass, donor, CAUSE). -/
def resyncPlan (ms : List Mark) : List (Nat × Nat × Nat × Nat) :=
  (List.range 128).flatMap fun n => match donorOf ms n with
    | some d => (minorities ms n).map fun p => (n, p, d, causeOf ms n p)
    | none => []

def stallsWithoutDonor (ms : List Mark) : List Nat :=
  (List.range 128).filter fun n => (donorOf ms n).isNone

/-! ### Step 3: the salted test (R179, R180) -/

/-- The salted test of window `w`; `fail` is how the voter or the parity check fails it. -/
def State.saltedTest (s : State) (w : Nat) (fail : Option Bool) : State :=
  let bs := s.bindings
  let none' := bs.isEmpty
  let bind := if none' then 0 else bs.getD (w % bs.length) 0
  let bit := w / 3 % 32
  let s := s.setReg Reg.TPR_SALT (detailOf [(0, w % 3), (8, bit), (16, bind),
    (30, none'.toNat), (31, fail.isSome.toNat)])
  match fail with
  | none => s
  | some parity =>
    let units := s.missUnits
    let psn := s.reg Reg.CMD_PSN
    let again := s.eng.voterFault == some (w - 1) && decide (0 < w) && (List.range 5).all s.isSafe
    let s := (s.count Reg.TPR_CNT_B Fld.TPR_CNT_B.VFAULT).event ⟨UnitCode.tpr, 0x205, 3, 0,
      detailOf [(0, parity.toNat), (4, w % 3), (8, bit), (16, bind), (24, none'.toNat)]⟩
    let s := { s with eng.voterFault := some w }
    if again then s.haltDevice psn else s.openHold units

/-! ### Step 4: the staged bank (R178) -/

def parityOf (w : Word) : Bool := (List.range 32).foldl (fun p i => p != bitAt w i) false

def State.stageOutputs (s : State) : State :=
  if s.eng.frozen then s else
  { s with eng.staged := s.bindings.map fun n =>
      let a := s.bindSrc n
      let v := s.majorityWord (slotOwner a) a
      ⟨n, v, parityOf v⟩ }

/-- Marks and divergent stalls of the vote: a stall in which each pass is a minority of some slot has no donor and
diverges as well (R165). -/
def State.voteFindings (s : State) : List Mark × List (Nat × Nat) :=
  let (vm, vd) := s.voteMarks
  let lost := (stallsWithoutDonor vm).filter fun n => !vd.any fun d => d.1 == n
  (vm, vd ++ lost.map fun n => (n, s.firstSlotDifference n))

/-- What the passes have found takes its PSNs: their end precedes the vote and the deadline miss. -/
def State.postPasses (s : State) : State :=
  s.cmd.found.foldl (fun s f => s.postOne f.2) { s with cmd.found := [] }

/-- Steps 3 and 4; `ends`: the window ends with this vote phase; `whole`: every slot has a majority. -/
def State.endVote (s : State) (saltFail : Option Bool) (ends whole : Bool) : State :=
  let due := s.saltNow ends
  let s := s.advanceWindow ends
  let s := match due with
    | some w => { s with eng.saltDue := none }.saltedTest w saltFail
    | none => s
  if s.engRun then
    let s := if whole then s.stageOutputs else s
    let found := s.eng.flagged
    found.foldl (fun s f => s.event ⟨UnitCode.eng, 0x108, 0, f.1, detailOf [(0, f.1), (8, f.2)]⟩)
      { s with eng.voted := true, eng.flagged := [] }
  else s

/-- The vote phase.  `copies`, where given, is how many resynchronisations end before the deadline: with more
due, or a salted test, the vote stays incomplete. -/
def State.vote (s : State) (copies : Option Nat) (saltFail : Option Bool) : State :=
  let s := s.postPasses
  if !(s.engRun && s.eng.started && !s.eng.voted && s.eng.reached.isNone) then s else
  let (vm, vd) := s.voteFindings
  let s := vd.foldl (fun s d => s.divergence d.1 d.2 0) s
  let ends := s.windowEnds
  let (gm, gd) := if ends then s.sigMarks (vd.map (·.1)) else ([], [])
  let s := gd.foldl (fun s d => s.divergence d.1 d.2 1) s
  let s := if ends then s.copySigs else s
  let gone := (vd ++ gd).map (·.1)
  let ms := (vm ++ gm ++ s.eng.marks.map fun m => Mark.mk m.1 m.2 2).filter
    fun m => !gone.contains m.stall
  let lost := stallsWithoutDonor ms
  let s := lost.foldl (fun s n => s.divergence n (s.firstSlotDifference n) 0) s
  let plan := resyncPlan ms
  let made := match copies with
    | some k => plan.take k
    | none => plan
  let s := { s with eng.marks := [] }
  let s := made.foldl (fun s r => s.resync r.1 r.2.1 r.2.2.1 r.2.2.2) s
  if made.length < plan.length then
    let next := plan.getD made.length (0, 0, 0, 0)
    { s with eng.reached := some (3, next.1, 0) }
  else if copies.isSome && (s.saltNow ends).isSome then { s with eng.reached := some (3, 0, 0) }
  else s.endVote saltFail ends (vd.isEmpty && lost.isEmpty)

/-! ### Deadline miss (R127, R128, R173) -/

/-- Stalls committed in pass A but not in both later passes. -/
def State.leftBehind (s : State) : List Nat :=
  ((s.eng.committed.filter fun e => e.1 == 0).map (·.2)).filter fun n =>
    !(s.eng.committed.contains (1, n) && s.eng.committed.contains (2, n))

/-- Discard the signature window: a new one begins at the next boundary. -/
def State.discardWindow (s : State) : State :=
  let ended := s.windowEnds
  let s := (s.count Reg.TPR_CNT_B Fld.TPR_CNT_B.DISCARD).event
    ⟨UnitCode.tpr, 0x203, 0, 0, BitVec.ofNat 32 (s.eng.windowStart % 2 ^ 16)⟩
  { s.setFld Reg.TPR_STAT Fld.TPR_STAT.WPOS 0 with
    eng.ran := [], eng.sigs := [], eng.windowStart := s.tick + 1,
    eng.saltDue := if ended then some (s.eng.saltDue.getD s.eng.windows) else s.eng.saltDue,
    eng.windows := s.eng.windows + 1 }

def State.deadlineMiss (s : State) : State :=
  let s := s.postPasses
  let (p, st, op) := s.eng.reached.getD (3, 0, 0)
  let units := s.missUnits
  let s := { s with
    eng.copyDue := s.eng.copyDue ++ s.leftBehind.filter (fun n => !s.eng.copyDue.contains n),
    eng.started := false, eng.flagged := [] }
  let s := (s.count Reg.ENG_CNT Fld.ENG_CNT.DLMISS).event ⟨UnitCode.eng, 0x104, 3, 0,
    detailOf [(0, p), (8, st), (16, op)]⟩
  (s.discardWindow).openHold units

/-! ### State scrub (R174) -/

/-- The running stall the scrub takes next: the first at or above the stored SCRUB, else the lowest. -/
def State.scrubStall (s : State) : Option Nat :=
  let from' := s.fld Reg.TPR_STAT Fld.TPR_STAT.SCRUB
  let rs := s.runningStalls
  (rs.find? fun n => decide (from' ≤ n)).orElse fun _ => rs.head?

/-- Scrub one word of a stall: the state after, and whether a three-way divergence of the stall has been reported,
which one scrub does once. -/
def scrubWord (live : List Nat) (stall : Nat) (acc : State × Bool) (a : Nat) : State × Bool :=
  let (s, told) := acc
  let t := s.wordType stall a
  match s.compareWord stall a with
  | .equal => acc
  | .minority p =>
      if live.contains a then
        ({ s with eng.marks := if s.eng.marks.contains (stall, p) then s.eng.marks
                               else s.eng.marks ++ [(stall, p)] }, told)
      else
        ((s.setHeld p stall a (hold p t (s.majorityWord stall a))).count
          Reg.TPR_CNT_A Fld.TPR_CNT_A.LATENT, told)
  | .differ =>
      if live.contains a then
        if told then acc else (s.divergence stall a 2, true)
      else
        let v := s.restored 0 stall a
        (((s.setHeld 1 stall a (hold 1 t v)).setHeld 2 stall a (hold 2 t v)).count
          Reg.TPR_CNT_A Fld.TPR_CNT_A.LATENT, told)

def State.scrub (s : State) : State :=
  match s.scrubStall with
  | none => s
  | some n =>
    let s := s.setFld Reg.TPR_STAT Fld.TPR_STAT.SCRUB ((n + 1) % 128)
    if s.eng.touched.contains n then s
    else ((stallWords n).foldl (scrubWord (s.liveSet n) n) (s, false)).1

/-! ### The holding registers (R178) -/

def flipBank (flips : List BankFlip) (applied : Bool) (b : List Held) : List Held :=
  b.map fun h => flips.foldl (fun h f =>
    if f.applied == applied && f.bind == h.bind then { h with word := h.word ^^^ f.mask } else h) h

/-- The registers of a bank whose parity checks fail. -/
def badHeld (b : List Held) : List Nat := (b.filter fun h => parityOf h.word != h.parity).map (·.bind)

def State.flipBanks (s : State) (flips : List BankFlip) : State :=
  { s with eng.staged := flipBank flips false s.eng.staged,
           eng.applied := flipBank flips true s.eng.applied }

/-- HOLD_PARITY of registers of a bank: 0 staged, 1 applied. -/
def State.postParity (s : State) (bank : Nat) (binds : List Nat) : State :=
  binds.foldl (fun s n => s.event ⟨UnitCode.tpr, 0x204, 3, 0, detailOf [(0, n), (8, bank)]⟩) s

/-- Check the bank in force: an error commands the safe state at the next boundary; each register is reported once
while the bank stays. -/
def State.checkApplied (s : State) : State :=
  match (badHeld s.eng.applied).filter fun n => !s.eng.badApplied.contains n with
  | [] => s
  | new =>
      let s := s.postParity 1 new
      { s with eng := { s.eng with safeNext := s.eng.safeNext ||| s.missUnits, badApplied := s.eng.badApplied ++ new } }

/-- Check the staged bank: an error opens a hold. -/
def State.checkStaged (s : State) : State :=
  match badHeld s.eng.staged with
  | [] => s
  | bad => (s.postParity 0 bad).openHold s.missUnits

end Sys2Proof.Machine
end

