-- ==== Sys2Proof/Machine/Commit.lean ====
section
/-! DEFINITION. The committed configuration image and how a descriptor is judged (R58, R59, R84 to
R86, R553, R618). -/

set_option Elab.async false

namespace Sys2Proof.Machine

/-! ### Which fields belong to the image -/

/-- Blocks whose chapters assign their configuration fields to the image. -/
def imageUnits : List Nat :=
  [UnitCode.clk, UnitCode.eng, UnitCode.tpr, UnitCode.pwm, UnitCode.prot, UnitCode.acq, UnitCode.pos,
   UnitCode.fld, UnitCode.wgh, UnitCode.isk, UnitCode.thm, UnitCode.can, UnitCode.eth, UnitCode.chk,
   UnitCode.bst, UnitCode.hld]

/-- A register of a block that holds image fields: every one of the blocks above but the vehicle
time registers and the running check units, and SYS_FAULTCFG of the SYS block. -/
def imageReg (a : Nat) : Bool :=
  a == Reg.SYS_FAULTCFG ||
  (decide (blockBase ≤ a) && imageUnits.contains (unitOf a) &&
   !(unitOf a == UnitCode.eth && decide (0x04 ≤ offsetOf a) && decide (offsetOf a ≤ 0x18)))

/-- The bits of a register word that belong to the image. -/
def imageMask (a : Nat) : Word :=
  if !imageReg a then 0 else
  match regAt a with
  | none => 0
  | some (d, _) => d.fields.foldl (fun m f =>
      match f.access with
      | .rwl => m ||| f.bits.mask
      | .rw => if unitOf a = UnitCode.chk then m else m ||| f.bits.mask
      | _ => m) 0

/-- A word with the bits of the mask from `v` and the others from `w`. -/
def blend (mask v w : Word) : Word := (v &&& mask) ||| (w &&& ~~~mask)

/-! ### Words and seal -/

/-- The image word of a register. -/
def Image.reg (i : Image) (a : Nat) : Word := Store.get regDefault i.regs a

/-- The image words in the order of R618, and the seal. -/
def imageOffsets (u : Nat) : List Nat :=
  ((List.range 0x4000).map (4 * ·)).filter fun off =>
    imageMask (blockBase + 0x10000 * u + off) != 0 &&
    !(u == UnitCode.wgh && decide (0x0200 ≤ off))

def Image.words (i : Image) : List Word :=
  let byte := fun a => Store.get memDefault i.mem a
  let word := fun a => byte (a + 3) ++ byte (a + 2) ++ byte (a + 1) ++ byte a
  let wgh := blockBase + 0x10000 * UnitCode.wgh
  ((List.range 22).flatMap fun u => (imageOffsets u).map fun off =>
    let a := blockBase + 0x10000 * u + off
    i.reg a &&& imageMask a) ++
  ((List.range 0x4000).map fun k => word (recipeBase + 4 * k)) ++
  ((List.range 0x8000).map fun k => word (tableBase + 4 * k)) ++
  ((List.range 16).map fun k => i.reg (wgh + 0x200 + 4 * k)) ++
  ((List.range 0x2400).map fun k => i.reg (wgh + 0x1000 + 4 * k))

/-- The seal: CRC-32C over the image words with their number as fold word. -/
def Image.sealWord (i : Image) : Word :=
  let ws := i.words
  Crc.checkC (bytesOfWords (ws ++ [BitVec.ofNat 32 ws.length]))

/-! ### Capture, update and load -/

def inRecipe (a : Nat) : Bool := decide (recipeBase ≤ a) && decide (a < recipeBase + recipeSize)
def inTable (a : Nat) : Bool := decide (tableBase ≤ a) && decide (a < tableBase + tableSize)

/-- What the image holds of the live state (R73, R553), sealed. -/
def State.captureImage (s : State) : Image :=
  let i : Image :=
    { regs := (s.regs.filter fun e => imageMask e.1 != 0).foldl
        (fun r e => Store.set regDefault r e.1 (blend (imageMask e.1) e.2 (regDefault e.1))) [],
      mem := s.mem.filter fun e => inRecipe e.1 || inTable e.1 }
  { i with sealCrc := i.sealWord }

/-- The image's own words replaced by those of `j`, with the seal updated by what has changed: an error that
the image holds stays one. -/
def Image.update (i j : Image) : Image := { j with sealCrc := i.sealCrc ^^^ i.sealWord ^^^ j.sealWord }

def Image.setReg (i : Image) (a : Nat) (w : Word) : Image :=
  i.update { i with regs := Store.set regDefault i.regs a w }

/-- Bytes of recipe or table memory of the image, as `src` holds them. -/
def Image.setBytes (i : Image) (src : Nat → Byte) (a n : Nat) : Image :=
  i.update { i with
    mem := (List.range n).foldl (fun m k => Store.set memDefault m (a + k) (src (a + k))) i.mem }

def State.sealed (s : State) : Bool := s.on Reg.SYS_SETUP_LOCK Fld.SYS_SETUP_LOCK.SEALED
def State.locked (s : State) : Bool := s.on Reg.SYS_SETUP_LOCK Fld.SYS_SETUP_LOCK.LOCK

/-- Bring the masked bits of a register of the image to `w`, once the image is sealed. -/
def State.imageWrite (s : State) (a : Nat) (mask w : Word) : State :=
  if s.sealed then
    { s with image := s.image.map fun i =>
        i.setReg a (blend (mask &&& imageMask a) w (i.reg a)) }
  else s

/-- Bring bytes of recipe or table memory of the image to the live ones. -/
def State.imageBytes (s : State) (a n : Nat) : State :=
  if s.sealed then
    { s with image := s.image.map fun i => i.setBytes s.byte a n }
  else s

/-- Load a register's image fields from the image, once it is sealed, into the live register. -/
def State.loadReg (s : State) (a : Nat) : State :=
  match s.image with
  | some i => if s.sealed then s.setReg a (blend (imageMask a) (i.reg a) (s.reg a)) else s
  | none => s

/-! ### Judging a descriptor -/

/-- What the judgement of a descriptor gives. -/
inductive Verdict where
  /-- It takes effect: the state, whether on the image alone, whether a payload value was clamped
  (R62), and the value read (R48). -/
  | ok (s : State) (image clamped : Bool) (value : Option Word)
  /-- It is refused by state or by life cycle; `report` is what a refusal posts and counts. -/
  | refused (lifecycle : Bool) (report : State → State)

/-- Applied live, with no clamp and no value. -/
def Verdict.done (s : State) : Verdict := .ok s false false none
/-- Applied live with a clamp or none. -/
def Verdict.doneClamp (s : State) (c : Bool) : Verdict := .ok s false c none
/-- Refused by state, with nothing to report. -/
def Verdict.no : Verdict := .refused false id
/-- Refused by state, with a report. -/
def Verdict.noWith (r : State → State) : Verdict := .refused false r

end Sys2Proof.Machine
end

