-- ==== Sys2Proof/Machine/EngineCmds.lean ====
section
/-! DEFINITION. The engine's descriptors: PARAM_WRITE, TABLE_LOAD, STALL_START, STALL_STOP, SETPOINT
and SCHEDULE_SELECT (R119 to R123, R137 to R139, R157). -/

set_option Elab.async false

namespace Sys2Proof.Machine

/-! ### PARAM_WRITE (R157) -/

/-- A word as it enters a typed state word or parameter, and whether that is a clamp. -/
def enterWord (t : Ty) (w : Word) : Word × Bool :=
  match t with
  | .real => (Num.convert w, Num.convertClamps w)
  | .flag => (flagWord (w != 0), w != 0 && w != 1)
  | _ => (w, false)

/-- Write a word in its held forms in all three passes. -/
def State.setAllPasses (s : State) (stall a : Nat) (w : Word) : State :=
  let t := s.wordType stall a
  [0, 1, 2].foldl (fun s p => s.setHeld p stall a (hold p t w)) s

def paramAddr (w3 : Word) : Nat := (⟨0, 12⟩ : Bits).of w3
/-- Number of words written: 0 becomes 1. -/
def paramCount (w3 : Word) : Nat := max 1 ((⟨16, 2⟩ : Bits).of w3)
/-- The range ends beyond 0x03F. -/
def paramBad (w3 : Word) : Bool := decide (0x40 < paramAddr w3 + paramCount w3)

def State.paramWrite (s : State) (stall : Nat) (w3 : Word) (ws : List Word) : Verdict :=
  let items := (span (paramAddr w3) (paramCount w3)).zip ws
  let entered := items.map fun e => (e.1, enterWord (s.wordType stall e.1) e.2)
  .doneClamp (entered.foldl (fun s e => s.setAllPasses stall e.1 e.2.1) s)
    (decide ((⟨16, 2⟩ : Bits).of w3 = 0) || entered.any fun e => e.2.2)

/-! ### TABLE_LOAD (R119, R120) -/

/-- Length in bytes as it is used: 4 to 4,096, rounded down to a multiple of 4. -/
def loadLen (w5 : Word) : Nat := clampNat 4 4096 w5.toNat / 4 * 4
def loadLenClamps (w5 : Word) : Bool := loadLen w5 != w5.toNat

/-- Destination address: bit 31 selects recipe memory. -/
def loadDest (w4 : Word) : Nat :=
  (if w4.getLsbD 31 then recipeBase else tableBase) + (⟨0, 31⟩ : Bits).of w4

/-- A range extends beyond its memory, or an offset is no multiple of 4. -/
def loadBad (w3 w4 w5 : Word) : Bool :=
  let n := loadLen w5
  let dst := (⟨0, 31⟩ : Bits).of w4
  let size := if w4.getLsbD 31 then recipeSize else tableSize
  decide (sramSize < w3.toNat + n) || decide (size < dst + n) ||
  decide (w3.toNat % 4 ≠ 0) || decide (dst % 4 ≠ 0)

/-- Two address ranges share a byte. -/
def overlaps (a n b m : Nat) : Bool := decide (a < b + m) && decide (b < a + n)

/-- The tables a stall's recipe uses. -/
def State.tablesOf (s : State) (stall : Nat) : List Nat :=
  ((s.recipeOps stall).filter fun op => (lookupKind op.opc).isSome).map Op.table

/-- A load would overwrite what R120 protects. -/
def State.loadRefused (s : State) (dst : Nat) (ws : List Word) : Bool :=
  let n := 4 * ws.length
  let s' := s.setWords dst ws
  s.runningStalls.any (fun st =>
    overlaps dst n (s.recipeAddr st) (8 * (s.recipeLen st + 1)) || overlaps dst n (descAddr st) 0x20 ||
    (s.tablesOf st).any fun k => (s'.dir k).kind != (s.dir k).kind || (s'.dir k).outw != (s.dir k).outw) ||
  overlaps dst n (schedAddr s.activeSched) 0x400

def State.tableLoad (s : State) (w4 w5 : Word) (ws : List Word) : Verdict :=
  let dst := loadDest w4
  if s.loadRefused dst ws then .no
  else .doneClamp ((s.setWords dst ws).imageBytes dst (4 * ws.length)) (loadLenClamps w5)

/-! ### STALL_START and STALL_STOP (R121, R122, R139) -/

def State.addRestart (s : State) (es : List (Nat × Nat)) : State :=
  { s with eng.restart := s.eng.restart ++ es.filter (fun e => !s.eng.restart.contains e) }

def State.stallStart (s : State) (stall : Nat) (w3 : Word) : Verdict :=
  if s.stallRunning stall then .no
  else match s.load stall with
    | .inl (i, r) => .noWith fun s => s.event ⟨UnitCode.eng, 0x100, 0, stall,
        detailOf [(0, stall), (8, r), (16, i)]⟩
    | .inr l =>
        let cand := (s.setLoaded stall l).setStallRunning stall true
        match cand.engineRefusal with
        | some r => .noWith r
        | none => .done ((if bitAt w3 0 then cand.addRestart (l.restarts.map fun j => (stall, j))
            else cand).refreshToll)

def State.stallStop (s : State) (stall : Nat) : Verdict :=
  .done (s.setStallRunning stall false).refreshToll

/-! ### SETPOINT (R137, R138) -/

/-- W3 names no TARGET word of a channel. -/
def setpointBad (w3 : Word) : Bool :=
  !(decide (0x300 ≤ w3.toNat) && decide (w3.toNat < 0x400) && decide (w3.toNat % 4 = 0))

/-- A rate as it is stored: negative or NaN becomes +0. -/
def rateWord (w : Word) : Word := if Num.isNeg w then 0 else Num.convert w
def rateClamps (w : Word) : Bool := Num.convertClamps w || (Num.isNeg w && w != 0x80000000)

def State.setpoint (s : State) (w3 w4 w5 w6 : Word) : Verdict :=
  let a := w3.toNat
  let ramp := bitAt w5 0
  let s := (s.publish a (Num.convert w4)).publish (a + 1) (if ramp then rateWord w6 else Num.vmaxWord)
  let s := s.publish (a + 3) (s.sig (a + 3) + 1)
  let s := if ramp then s.addRestart ((List.range 128).map fun n => (n, (a - 0x300) / 4)) else s
  .doneClamp s (Num.convertClamps w4 || (ramp && rateClamps w6))

/-! ### SCHEDULE_SELECT (R114, R123) -/

/-- The check of a schedule: N in range, and H3 over H0 to H2 and the entries. -/
def State.schedOk (s : State) (k : Nat) : Bool :=
  let n := s.schedLen k
  decide (n ≤ 128) && s.word (schedAddr k + 12) ==
    Crc.checkC (s.bytes (schedAddr k) 12 ++ s.bytes (schedAddr k + 16) (4 * n))

/-- The first entry that a schedule may not hold: its number. -/
def State.badEntry (s : State) : Nat → List Nat → List Entry → Option Nat
  | _, _, [] => none
  | i, seen, e :: es =>
      if 8 < e.divl ∨ 2 ^ e.divl ≤ e.phase ∨ seen.contains e.stall ∨
         (s.stallClass e.stall = 0 ∧ e.divl ≠ 0) then some i
      else s.badEntry (i + 1) (e.stall :: seen) es

def State.scheduleSelect (s : State) (w3 : Word) : Verdict :=
  let k := min 3 w3.toNat
  let reject := fun i => Verdict.noWith fun s =>
    s.event ⟨UnitCode.eng, 0x101, 0, 0, detailOf [(0, k), (16, i)]⟩
  if !s.schedOk k then reject 0
  else match s.badEntry 0 [] (s.schedule k) with
    | some i => reject i
    | none =>
        let cand := s.setFld Reg.ENG_STAT Fld.ENG_STAT.SCHED k
        if cand.admitted then .doneClamp cand.refreshToll (decide (3 < w3.toNat))
        else .noWith fun s => s.postTollRefused cand.cReq

end Sys2Proof.Machine
end

