-- ==== Sys2Proof/Machine/VehTime.lean ====
section
/-! DEFINITION. Vehicle time, the carrier's place on its grid, and the disciplining of PLL-B (R193, R194,
R423 to R426, R467, R468). -/

set_option Elab.async false

namespace Sys2Proof.Machine

/-! ### The counter (R467) -/

/-- A register read as a signed number of 32 bits. -/
def State.signedReg (s : State) (a : Nat) : Int := (s.reg a).toInt

/-- Nanoseconds, in units of 2^-16 ns, that the counter gains in a time of es: 5 ns a fabric cycle, times
`1 + RATE · 2^-4 · 10^-9`. -/
def vtGain (rate : Int) (es : Nat) : Int := (es / esPerFc * 5 * 65536 : Nat) * (16000000000 + rate) / 16000000000

/-- The counter at an instant, in 2^-16 ns. -/
def State.vtAt (s : State) (t : Nat) : Nat :=
  ((s.vt.base : Int) + vtGain s.vt.rate.toInt (t - s.vt.baseAt)).toNat

/-- The counter in ns, and in es for the grid of TB0. -/
def State.vtNs (s : State) (t : Nat) : Nat := s.vtAt t / 65536
def State.vtEs (s : State) (t : Nat) : Nat := s.vtNs t * 32 / 5

/-- Take the counter's present value as its base. -/
def State.rebaseVt (s : State) : State :=
  { s with vt := { s.vt with base := s.vtAt s.now, baseAt := s.now } }

/-! ### Validity (R468) -/

def State.vtValid (s : State) : Bool := s.on Reg.CLK_STAT Fld.CLK_STAT.VTVALID

/-- A steering write has applied within the last VTTMO ms. -/
def State.vtFresh (s : State) : Bool :=
  match s.vt.steered with
  | some t => decide (s.now < t + s.fld Reg.ETH_VT_CTRL Fld.ETH_VT_CTRL.VTTMO * esPerMs)
  | none => false

def State.vtHolds (s : State) : Bool :=
  s.on Reg.ETH_VT_CTRL Fld.ETH_VT_CTRL.VALID && s.vtFresh && decide (s.fld Reg.CLK_STAT Fld.CLK_STAT.FAB < 2)

/-- Bring validity up to date; a change posts VT_STATE with its cause (0 host, 1 VTTMO, 2 clock). -/
def State.refreshVt (s : State) (cause : Nat) : State :=
  let v := s.vtHolds
  if v = s.vtValid then s
  else (s.setFld Reg.CLK_STAT Fld.CLK_STAT.VTVALID v.toNat).event
    ⟨UnitCode.eth, 0xC04, 0, 0, detailOf [(0, v.toNat), (8, cause)]⟩

/-! ### The grid of TB0 (R193, R194) -/

/-- Distance of an instant from the nearest grid point, positive when it lies late. -/
def gridError (v ofs p : Nat) : Int :=
  let r := (v + p - ofs % p) % p
  if 2 * r ≤ p then r else (r : Int) - p

/-- TB0 keeps to the grid. -/
def State.synced (s : State) : Bool := s.ffld (Reg.TBn_CFG 0) Fld.TBn_CFG.SYNC == 1

/-- The error of a zero of TB0 at an instant, against the undivided grid. -/
def State.vterrAt (s : State) (t : Nat) : Int :=
  gridError (s.vtEs t) (s.tb 0).vtOfs (max 1 (s.ffld (Reg.TBn_PER 0) Fld.TBn_PER.PERIOD))

/-- The lengthening that brings the end of the period opening at `t` onto the grid of a period `p`
(R426). -/
def State.realignBy (s : State) (t p : Nat) : Nat :=
  let p := max 1 p
  ((-(gridError (s.vtEs t) (s.tb 0).vtOfs p)) % (p : Int)).toNat

/-! ### Disciplining (R423 to R425) -/

def pllStateB (s : State) : Nat := s.fld (Reg.CLK_PLLp_STAT 1) Fld.CLK_PLLp_STAT.STATE

/-- Disciplining runs. -/
def State.discRuns (s : State) : Bool :=
  s.on Reg.CLK_DISC Fld.CLK_DISC.EN && (s.tb 0).running && s.synced && s.vtValid &&
  s.fld (Reg.TBn_STAT 0) Fld.TBn_STAT.CLK == 0 && pllStateB s == 3 &&
  decide ((tabGet {} s.clk.plls 1).slewTo ≤ s.now)

/-- A number limited to ±m. -/
def limitTo (m x : Rat) : Rat := if m < x then m else if x < -m then -m else x

/-- The applied offset moves toward its aim at no more than SLEW ppm per ms. -/
def State.slewOffset (s : State) : State :=
  let a := Reg.CLK_PLLp_OFS 1
  let cur := s.sfld a Fld.CLK_PLLp_OFS.OFS
  let most : Int := (s.fld Reg.CLK_HOLD Fld.CLK_HOLD.SLEW * 64 * (s.now - s.clk.ofsAt) / esPerMs : Nat)
  let step := max (-most) (min most (s.clk.aim - cur))
  { s.setFld a Fld.CLK_PLLp_OFS.OFS (toField 16 (cur + step)) with clk.ofsAt := s.now }

/-- The integral and the offset aimed at, from an error in es and the period of TB0. -/
def State.discStep (s : State) (err : Int) (period : Nat) : State :=
  let tc : Rat := (s.fld Reg.CLK_DISC Fld.CLK_DISC.TC : Rat)
  let most : Rat := (s.fld Reg.CLK_DISC Fld.CLK_DISC.DISCMAX : Rat)
  let e := Num.mul (Num.ofInt err) (mkRat 5 32)
  let p := Num.round24 (mkRat period esPerMs)
  let fp := Num.div e tc
  let fi := limitTo most (Num.add (Num.val s.clk.fi) (Num.div (Num.mul fp p) (Num.mul 4 tc)))
  let f := limitTo most (Num.add fi fp)
  let s := { s with clk := { s.clk with fi := Num.pack fi, aim := Num.roundInt (f * 64) } }
  s.setFld (Reg.CLK_PLLp_OFS 1) Fld.CLK_PLLp_OFS.FI (toField 16 (Num.roundInt (fi * 64)))

/-- The episode of an error beyond a tick. -/
def State.beyondTick (s : State) (err : Int) (tickLen : Nat) : State :=
  if !s.clk.beyond && decide (tickLen < err.natAbs) then
    { s with clk.beyond := true }.event ⟨UnitCode.clk, 0x028, 0, 0, BitVec.ofInt 32 err⟩
  else if s.clk.beyond && decide (2 * err.natAbs < tickLen) then { s with clk.beyond := false }
  else s

/-- A zero of TB0 on the grid: its error is recorded and disciplining makes its step. -/
def State.gridZero (s : State) (period tickLen : Nat) : State :=
  if !s.synced then s
  else
    let err := s.vterrAt s.now
    let s := (s.setReg (Reg.TBn_VTERR 0) (BitVec.ofInt 32 err)).beyondTick err tickLen
    let runs := s.discRuns
    let s := s.setFld Reg.CLK_STAT Fld.CLK_STAT.DISC runs.toNat
    if runs then s.slewOffset.discStep err period else { s with clk.ofsAt := s.now }

end Sys2Proof.Machine
end

