-- ==== Sys2Proof/Machine/Timebase.lean ====
section
/-! DEFINITION. Timebases and the tick period: half-periods, dither, division, phase, and the length
of the tick under way and of the next (R19, R27, R184 to R194, R209, R210). -/

set_option Elab.async false

namespace Sys2Proof.Machine

/-! ### Configuration in force -/

def State.tbRun (s : State) (n : Nat) : Bool := (s.tb n).running
/-- Mode in force: 0 centre-aligned, 1 edge-aligned; a slave takes TB0's. -/
def State.tbMode (s : State) (n : Nat) : Nat := s.ffld (Reg.TBn_CFG (s.tbMaster n)) Fld.TBn_CFG.MODE
def State.tbSlave (s : State) (n : Nat) : Bool :=
  decide (n ≠ 0) && s.ffld (Reg.TBn_CFG n) Fld.TBn_CFG.MODE == 2
/-- Tick source in force (R206). -/
def State.srcInForce (s : State) : Nat := s.ffld Reg.CLK_TICKCFG Fld.CLK_TICKCFG.SRC

/-- The largest divisor up to `d` that keeps a period legal (R192). -/
def fitDivisor (p : Nat) : Nat → Nat
  | 0 => 1
  | d + 1 => if (d + 1 = 1 ∨ d + 1 = 2 ∨ d + 1 = 4 ∨ d + 1 = 8) ∧ p * (d + 1) ≤ 3200000 then d + 1
      else fitDivisor p d

/-- A period as it runs: on the backup oscillator a whole number of fc (R210). -/
def asRun (clk p : Nat) : Nat := if clk = 2 then (p + 16) / 32 * 32 else p

/-- The period of a timebase with division, without dither. -/
def State.basePeriod (s : State) (n : Nat) : Nat :=
  let m := s.tbMaster n
  asRun (s.tbClk m) (s.ffld (Reg.TBn_PER m) Fld.TBn_PER.PERIOD * (s.tb m).div)

/-- The divisor that a timebase takes of `d`: none above 1 with THDIV = 0 in force (R192). -/
def State.fitted (s : State) (n d : Nat) : Nat :=
  if s.ffld (Reg.TBn_CFG n) Fld.TBn_CFG.THDIV = 1 then fitDivisor (s.ffld (Reg.TBn_PER n) Fld.TBn_PER.PERIOD) d else 1

/-- The divisor of a timebase changes (R192). -/
def State.takeDivisor (s : State) (n d : Nat) : State := s.setTb n { s.tb n with div := s.fitted n d }

/-- The period, without dither, that TB0's next zero opens: with SYNC = 1 the divisor changes only there, which
keeps every zero on the undivided grid (R194). -/
def State.openingPeriod (s : State) : Nat :=
  asRun (s.tbClk 0) (s.ffld (Reg.TBn_PER 0) Fld.TBn_PER.PERIOD *
    (if s.synced then s.fitted 0 s.thm.div else (s.tb 0).div))

/-- A dither offset from a draw: a multiple of 32 es within ±32 · DITH (R190). -/
def ditherOf (draw dith : Nat) : Int := 32 * ((draw % (2 * dith + 1) : Nat) - (dith : Int))

/-- The sequence is of maximal length: its state is never 0. -/
def ditherStep (l : BitVec 16) : BitVec 16 := if Config.ditherNext l = 0 then 0xACE1 else Config.ditherNext l

/-- The dither that a timebase applies: none while SYNC is 1 (R191). -/
def State.ditherAmp (s : State) (n : Nat) : Nat :=
  if s.ffld (Reg.TBn_CFG n) Fld.TBn_CFG.SYNC = 1 then 0 else s.ffld (Reg.TBn_CFG n) Fld.TBn_CFG.DITH

/-- The step on which edges and half-period points lie: 1 fc on the backup oscillator (R210). -/
def grainOf (clk : Nat) : Nat := if clk = 2 then 32 else 1
def State.grain (s : State) (n : Nat) : Nat := grainOf (s.tbClk (s.tbMaster n))

/-- The opening part of a length cut in half on steps of `g`: the greater of the two. -/
def halfUp (g p : Nat) : Nat := (p / g + 1) / 2 * g

/-- Opening and closing half of a period (R184). -/
def halves (g p : Nat) : Nat × Nat := (halfUp g p, p - halfUp g p)

def withDelta (p : Nat) (d : Int) : Nat := ((p : Int) + d).toNat

/-! ### Where a timebase stands -/

def Tb.halfAt (t : Tb) : Nat := t.zeroAt + t.up
def Tb.endAt (t : Tb) : Nat := t.zeroAt + t.up + t.down
def Tb.period (t : Tb) : Nat := t.up + t.down

/-- The count, and whether it runs down, at an instant (TBn_STAT). -/
def State.tbCount (s : State) (n : Nat) : Nat × Bool :=
  let t := s.tb n
  if !t.running then (t.held, false) else
  let e := s.now - t.zeroAt
  if s.tbMode n = 1 then (e, false)
  else if e ≤ t.up then (e, false) else (t.period - e, true)

/-! ### The tick (R19, R27) -/

/-- TB0 as the tick generator sees it ahead of time. -/
structure TickView where
  zeroAt : Nat
  up : Nat
  down : Nat
  pastHalf : Bool
  delta : Int

/-- The tick events ahead of TB0: the next instant at which the source ticks, and the view there.
`p` is the period that the half under way follows, `q` the one that the next zero opens, `src` the source, `g` the
step of half-period points. -/
def TickView.next (v : TickView) (g src p q : Nat) (nextDelta : Int) : Nat × TickView :=
  let fresh := halves g (withDelta q nextDelta)
  let zero : Nat × TickView := (v.zeroAt + v.up + v.down,
    ⟨v.zeroAt + v.up + v.down, fresh.1, fresh.2, false, nextDelta⟩)
  let atHalf : TickView := { v with pastHalf := true, down := (halves g (withDelta p v.delta)).2 }
  if v.pastHalf then
    (if src = 1 then (zero.1 + fresh.1, { zero.2 with pastHalf := true }) else zero)
  else if src = 0 then
    (v.zeroAt + v.up + atHalf.down, { zero.2 with zeroAt := v.zeroAt + v.up + atHalf.down })
  else (v.zeroAt + v.up, atHalf)

def State.tickView (s : State) : TickView :=
  let t := s.tb 0
  ⟨t.zeroAt, t.up, t.down, t.pastHalf, t.delta⟩

/-- Whether ticks run: TB0 runs (R60). -/
def State.ticking (s : State) : Bool := s.tbRun 0

/-- The closing boundary of the tick under way. -/
def State.nextBoundary (s : State) : Nat :=
  let t := s.tb 0
  if s.srcInForce = 0 then t.endAt
  else if t.pastHalf then
    (if s.srcInForce = 1 then t.endAt + (halves (s.grain 0) (withDelta s.openingPeriod t.nextDelta)).1 else t.endAt)
  else t.halfAt

/-- The word of a register once the sets due in the tick that follows have transferred. -/
def State.forceNext (s : State) (a : Nat) : Word :=
  ((s.pwm.armed.filter fun e => e.addr == a && decide (e.due ≤ s.tick + 1)).getLast?.map (·.word)).getD
    (s.inForce a)

/-- Lengthening of the tick that follows by a realignment due at the zero that opens it. -/
def State.realignNext (s : State) (b1 : Nat) (atZero : Bool) (p : Nat) : Nat :=
  if (s.tb 0).realign && atZero then s.realignBy b1 p else 0

/-- The period of the tick that follows the one under way, with every change armed so far. -/
def State.nextTickLen (s : State) (divNext : Nat) : Nat :=
  let t := s.tb 0
  let g := s.grain 0
  let b1 := s.nextBoundary
  let v1 := (s.tickView.next g s.srcInForce (s.basePeriod 0) s.openingPeriod t.nextDelta).2
  let per := Fld.TBn_PER.PERIOD.of (s.forceNext (Reg.TBn_PER 0))
  let q := asRun (s.tbClk 0) (per * fitDivisor per divNext)
  -- with SYNC = 1 a closing half keeps the divisor of its own zero
  let p := if s.synced && v1.pastHalf then
      asRun (s.tbClk 0) (per * (if t.pastHalf then s.fitted 0 s.thm.div else t.div)) else q
  let src := Fld.CLK_TICKCFG.SRC.of (s.forceNext Reg.CLK_TICKCFG)
  -- the half or the period that opens at b1 takes its length from the period in force there
  let extra := s.realignNext b1 (!v1.pastHalf) per
  let v1 : TickView := if v1.pastHalf then { v1 with down := (halves g (withDelta p v1.delta)).2 }
    else { v1 with up := (halves g (withDelta p v1.delta)).1 + extra, down := (halves g (withDelta p v1.delta)).2 }
  (v1.next g src p q t.nextDelta).1 - b1

/-- The thermal divisor that TB0 takes at the next boundary, before it is fitted to the period (R192). -/
def State.divAhead (s : State) : Nat :=
  if Fld.TBn_CFG.THDIV.on (s.forceNext (Reg.TBn_CFG 0)) then s.thm.divNext else 1

/-- Length of the tick that follows the one under way, in es. -/
def State.lenAhead (s : State) : Nat := s.nextTickLen s.divAhead

/-! ### Starting and stopping -/

/-- Open a period of timebase `n` at instant `t`. -/
def State.openPeriod (s : State) (n t : Nat) : State :=
  let tb := s.tb n
  let h := if s.tbSlave n then ((s.tb 0).up, (s.tb 0).down)
           else halves (s.grain n) (withDelta (s.basePeriod n) tb.nextDelta)
  s.setTb n { tb with zeroAt := t, up := h.1, down := h.2, pastHalf := false,
                      delta := if s.tbSlave n then (s.tb 0).delta else tb.nextDelta }

/-- Draw the offset of the period after the one that opens now (R190). -/
def State.drawDither (s : State) (n : Nat) : State :=
  let tb := s.tb n
  let amp := s.ditherAmp n
  if s.tbSlave n then s
  else if amp = 0 then s.setTb n { tb with nextDelta := 0 }
  else s.setTb n { tb with nextDelta := ditherOf (Config.ditherDraw tb.lfsr) amp, lfsr := ditherStep tb.lfsr }

/-- The period that opens is lengthened onto the grid where a realignment is due (R426). -/
def State.takeRealign (s : State) : State :=
  let t := s.tb 0
  if t.realign then
    s.setTb 0 { t with realign := false,
                       up := t.up + s.realignBy t.zeroAt (s.ffld (Reg.TBn_PER 0) Fld.TBn_PER.PERIOD) }
  else s

/-- A timebase starts (R185): a slave waits for TB0's next zero, every other one takes its divisor and opens its
first period at count 0; with TB0, the window before its first boundary begins, and its first RUN takes VTOFF and
steps it onto the grid (R193). -/
def State.startTb (s : State) (n : Nat) : State :=
  if s.tbSlave n then
    s.setTb n { s.tb n with waiting := true, phase := s.ffld (Reg.TBn_PHASE n) Fld.TBn_PHASE.PHASE }
  else
    let t := s.tb n
    let align := n == 0 && s.synced && s.vtValid && !t.ran
    let s := (s.setTb n { t with running := true, waiting := false, ran := true, lfsr := 0xACE1, nextDelta := 0,
                                 realign := align,
                                 vtOfs := if n = 0 ∧ !t.ran then s.ffld (Reg.TBn_PHASE 0) Fld.TBn_PHASE.PHASE
                                          else t.vtOfs }).takeDivisor n s.thm.div
    let s := if n = 0 then { s with t0 := s.now, prevLen := 0 } else s
    (s.openPeriod n s.now).drawDither n

/-- A timebase stops; its count is held (R185). -/
def State.stopTb (s : State) (n : Nat) : State :=
  s.setTb n { s.tb n with running := false, waiting := false, held := (s.tbCount n).1 }

/-- Publish the status word of a timebase. -/
def State.showTb (s : State) (n : Nat) : State :=
  let (c, down) := s.tbCount n
  let div := (s.tb (s.tbMaster n)).div
  ((s.setFld (Reg.TBn_STAT n) Fld.TBn_STAT.CNT c).setFld (Reg.TBn_STAT n) Fld.TBn_STAT.DIR
    down.toNat).setFld (Reg.TBn_STAT n) Fld.TBn_STAT.DIV
    (if div = 8 then 3 else if div = 4 then 2 else if div = 2 then 1 else 0)

end Sys2Proof.Machine
end

