-- ==== Sys2Proof/Machine/Pairs.lean ====
section
/-! DEFINITION. Pairs: the transfer of armed sets, the minimum-pulse policy and the placement of
edges (R195 to R208, R223, R617). -/

set_option Elab.async false

namespace Sys2Proof.Machine

/-! ### Minimum-pulse policy (R199, R200) -/

abbrev policyCarry : Nat := 0
abbrev policyExtend : Nat := 1
abbrev policyDrop : Nat := 2

/-- What the policy gives for a width: the width placed, the carry, and the short pulses handled. -/
structure Judged where
  w : Int
  c : Int
  short : Nat
  deriving DecidableEq, Repr

/-- Judge `W'` in a period `p` against the thresholds of the high and the low pulse (Table PWM-1). -/
def judge (policy : Nat) (p th tl w' : Int) : Judged :=
  let both : Judged :=
    let w := if p ≤ 2 * w' then p else 0
    ⟨w, if policy = policyCarry then w' - w else 0, 1⟩
  let keep := fun (w c : Int) (k : Nat) => (⟨w, if policy = policyCarry then c else 0, k⟩ : Judged)
  if w' < 0 then keep 0 w' 0
  else if p < w' then keep p (w' - p) 0
  else
    let sh := decide (0 < w') && decide (w' < th)
    let sl := decide (0 < p - w') && decide (p - w' < tl)
    if sh && sl then both
    else if sh then
      if policy = policyExtend then (if p - th < tl && p - th > 0 then both else ⟨th, 0, 1⟩)
      else keep 0 w' 1
    else if sl then
      if policy = policyExtend then (if p - tl < th && p - tl > 0 then both else ⟨p - tl, 0, 1⟩)
      else keep p (w' - p) 1
    else ⟨w', 0, 0⟩

/-- Limit a carry to ±P/2 (R201): the carry, and whether the limit was reached. -/
def limitCarry (p c : Int) : Int × Bool :=
  let m := p / 2
  if m < c then (m, true) else if c < -m then (-m, true) else (c, false)

/-- Nearest multiple of `g`, ties to even. -/
def toMultiple (g : Nat) (w : Int) : Int := (g : Int) * Num.roundInt (mkRat w g)

/-- A width as it runs: in coarse mode and on the backup oscillator it is rounded (R209, R210). -/
def State.widthAsRun (s : State) (n : Nat) (w : Int) : Int :=
  if s.tbClk n = 2 then toMultiple 32 w else if s.tbCoarse n then toMultiple 8 w else w

/-! ### What a pair follows -/

def State.pairPolicy (s : State) (k : Nat) : Nat := s.ffld (Reg.PAIRk_CFG k) Fld.PAIRk_CFG.POLICY
def State.pairAlign (s : State) (k : Nat) : Bool := s.ffld (Reg.PAIRk_CFG k) Fld.PAIRk_CFG.ALIGN == 1
def State.pairMode (s : State) (k : Nat) : Nat := s.ffld (Reg.PAIRk_CFG k) Fld.PAIRk_CFG.PMODE
def State.pairLegacy (s : State) (k : Nat) : Bool := s.ffld (Reg.PAIRk_CFG k) Fld.PAIRk_CFG.UPD == 1

/-- The pairs of a timebase. -/
def State.tbPairs (s : State) (n : Nat) : List Nat := (List.range 16).filter fun k => s.tbOf k == n

/-- The enabled binding to a sink, if any. -/
def State.bindingTo (s : State) (sink : Nat) : Option Nat :=
  s.bindings.find? fun n => s.bindSink n == sink

/-- The duty in force of a pair: the chopper's own, a bound one, the LEGACY one, or CMP (R205,
R207, R208, R360). -/
def State.dutyOf (s : State) (k : Nat) : Rat :=
  let p := s.pair k
  if s.isChopper k then Num.val s.dis.duty
  else match p.bound with
    | some w => Num.val w
    | none => if s.pairLegacy k then Num.val p.legacy else Num.val (s.inForce (Reg.PAIRk_CMP k))

/-- The width a duty commands in a period, ties to even (R196). -/
def widthOf (d : Rat) (p : Nat) : Int := Num.roundInt ((if d < 0 then 0 else if 1 < d then 1 else d) * (p : Rat))

/-- Thresholds of the high and of the low pulse (R199). -/
def State.thresholds (s : State) (k : Nat) : Nat × Nat :=
  let minp := s.ffld (Reg.PAIRk_MINP k) Fld.PAIRk_MINP.MINP
  let minp := if s.tbCoarse (s.tbOf k) then ceilDiv minp 8 * 8 else minp
  if s.pairMode k ≠ 0 ∨ s.effMask k = maskHPwm ∨ s.effMask k = maskLPwm then (minp, minp)
  else (s.dtr k + minp, s.dtf k + minp)

/-- The reference of a pair reaches its balls, so that the policy applies (R201): out of safe state, no CBC hold,
enabled and under the mask PWM; the running chopper has its own enable and mask. -/
def State.refReaches (s : State) (k : Nat) : Bool :=
  !s.safeGoverns k && !s.cbcHeld k && (s.isChopper k || (s.outEnabled k && s.effMask k == maskPwm))

def State.carry (s : State) (k : Nat) : Int := s.sfld (Reg.PAIRk_CARRY k) Fld.PAIRk_CARRY.C
def State.setCarry (s : State) (k : Nat) (c : Int) : State :=
  s.setFld (Reg.PAIRk_CARRY k) Fld.PAIRk_CARRY.C (toField 23 c)

/-- Store a carry under its limit; the limit counts in CSAT and posts CARRY_SAT at most once per
1,024 ticks (R201, R216). -/
def State.storeCarry (s : State) (k : Nat) (p c : Int) : State :=
  let (c', hit) := limitCarry p c
  let s := s.setCarry k c'
  if hit then
    let s := s.count (Reg.PAIRk_STAT k) Fld.PAIRk_STAT.CSAT
    let recent := match (s.pair k).satTick with
      | some t => decide (s.tick < t + 1024)
      | none => false
    if recent then s
    else (s.setPair k { s.pair k with satTick := some s.tick }).event
      ⟨UnitCode.pwm, 0x302, 0, k, detailOf [(0, k), (8, s.fld (Reg.PAIRk_STAT k) Fld.PAIRk_STAT.CSAT)]⟩
  else s

/-! ### Placement of edges (R617) -/

/-- The reference at the zero and its transitions, for width `w` in the period of timebase `t`, on steps of `g`. -/
def placeEdges (t : Tb) (g : Nat) (edge align : Bool) (w : Nat) : Bool × List (Nat × Bool) :=
  let p := t.period
  let h := t.halfAt
  if w = 0 then (false, [])
  else if p ≤ w then (true, [])
  else if edge then
    (if align then (false, [(t.endAt - w, true)]) else (true, [(t.zeroAt + w, false)]))
  else if align then
    let l := p - w
    (true, [(h - halfUp g l, false), (h + (l - halfUp g l), true)])
  else (false, [(h - halfUp g w, true), (h + (w - halfUp g w), false)])

/-- Put the reference of a pair for the period that opens. -/
def State.placePair (s : State) (k : Nat) (w : Nat) : State :=
  let n := s.tbOf k
  let p := s.pair k
  let r := placeEdges (s.tb n) (s.grain n) (s.tbMode n == 1) (s.pairAlign k) w
  let s := s.setPair k { p with ref := r.1, edges := r.2, w1 := w, p1 := (s.tb n).period,
                                lastEdge := if r.1 = p.ref then p.lastEdge else s.now }
  (s.setFld (Reg.PAIRk_LIVE k) Fld.PAIRk_LIVE.W w).regateAt k s.now

/-- Judge a pair at its zero and place its edges. -/
def State.judgeZero (s : State) (k : Nat) : State :=
  let n := s.tbOf k
  let p := (s.tb n).period
  let wcmd := widthOf (s.dutyOf k) p
  let c0 := s.carry k
  let s := s.setPair k { s.pair k with c0, wcmd := wcmd.toNat }
  if s.refReaches k then
    let th := s.thresholds k
    let j := judge (s.pairPolicy k) p th.1 th.2 (wcmd + c0)
    let s := if j.short = 0 then s else s.count (Reg.PAIRk_STAT k) Fld.PAIRk_STAT.SHORT j.short
    let s := s.storeCarry k p j.c
    s.placePair k (max 0 (min (p : Int) (s.widthAsRun n j.w))).toNat
  else s.placePair k (max 0 (min (p : Int) (s.widthAsRun n wcmd))).toNat

/-- The closing edge after an update at the half-period point of a centre-aligned period: the
transition kept of width `w1` and the closing one that gives `w2` in total, in terms of the pulse
between the transitions (the high pulse with ALIGN = 0, the low one with ALIGN = 1). -/
def closingEdge (t : Tb) (g w1 w2 lead tail : Nat) : Option Nat :=
  let p := t.period
  let h := t.halfAt
  if w1 = 0 then none
  else if p ≤ w2 then none
  else
    let open' := h - halfUp g w1
    let raw := h + w2 - halfUp g w1
    let e := max (max raw h) (open' + ceilDiv lead g * g)
    some (min e (t.endAt - ceilDiv ((tail + 1) / 2) g * g))

/-- Judge a centre-aligned pair again at the half-period point (R617); short pulses that the judgement at the zero
did not handle count in SHORT. -/
def State.judgeHalf (s : State) (k : Nat) : State :=
  let n := s.tbOf k
  let t := s.tb n
  let pr := s.pair k
  let p := t.period
  let wcmd := widthOf (s.dutyOf k) p
  if wcmd.toNat = pr.wcmd then s else
  let th := s.thresholds k
  let j := judge (s.pairPolicy k) p th.1 th.2 (wcmd + pr.c0)
  let w2 : Nat := if s.refReaches k
    then (max 0 (min (p : Int) (s.widthAsRun n j.w))).toNat
    else (max 0 (min (p : Int) (s.widthAsRun n wcmd))).toNat
  let align := s.pairAlign k
  let g := s.grain n
  let a1 := if align then pr.p1 - pr.w1 else pr.w1
  let a2 := if align then p - w2 else w2
  let lead := if align then th.2 else th.1
  let tail := if align then th.1 else th.2
  let close := closingEdge t g a1 a2 lead tail
  let edges := match close with
    | some e => [(e, align)]
    | none => []
  let given : Nat := match close with
    | some e => e - (t.halfAt - halfUp g a1)
    | none => if a1 = 0 then 0 else t.endAt - (t.halfAt - halfUp g a1)
  let delivered : Int := if align then (p : Int) - given else given
  let s := s.setPair k { pr with edges, wcmd := wcmd.toNat }
  let s := s.setFld (Reg.PAIRk_LIVE k) Fld.PAIRk_LIVE.W w2
  if s.refReaches k then
    let before := (judge (s.pairPolicy k) p th.1 th.2 (pr.wcmd + pr.c0)).short
    let s := if j.short ≤ before then s
      else s.count (Reg.PAIRk_STAT k) Fld.PAIRk_STAT.SHORT (j.short - before)
    if s.pairPolicy k = policyCarry then s.storeCarry k p (wcmd + pr.c0 - delivered) else s.setCarry k 0
  else s

/-- An edge-aligned pair with ALIGN = 1 at the half-period point, when the period's end has moved
(R617). -/
def State.moveOpening (s : State) (k : Nat) : State :=
  let t := s.tb (s.tbOf k)
  let pr := s.pair k
  if s.pairAlign k && decide (0 < pr.w1) && decide (pr.edges.length = 1) then
    s.setPair k { pr with edges := [(max t.halfAt (t.endAt - pr.w1), true)] }
  else s

/-! ### Masks (R202 to R204) -/

/-- A mask comes into force: the carry clears unless it is PWM, and the balls follow. -/
def State.setMask (s : State) (k code : Nat) : State :=
  let m := maskCode code
  let changed := m != s.mask k
  let s := s.setFld (Reg.PAIRk_LIVE k) Fld.PAIRk_LIVE.MASK m
  let s := if changed && m != maskPwm then s.clearCarry k else s
  s.regate [k]

/-! ### Armed sets (R205 to R207) -/

/-- The pair an address of a pair register belongs to. -/
def pairOfAddr (a : Nat) : Option Nat :=
  if Reg.PAIRk_CFG 0 ≤ a ∧ a < Reg.PAIRk_CFG 0 + 0x40 * 16 then some ((a - Reg.PAIRk_CFG 0) / 0x40) else none

/-- The timebase an address is armed with: its own, that of its pair, or TB0 for the tick source. -/
def State.tbOfAddr (s : State) (a : Nat) : Option Nat :=
  if a = Reg.CLK_TICKCFG then some 0
  else match pairOfAddr a with
    | some k => some (s.tbOf k)
    | none =>
        if Reg.TBn_CFG 0 ≤ a ∧ a < Reg.TBn_CFG 0 + 0x80 then some ((a - Reg.TBn_CFG 0) / 0x20) else none

/-- A word comes into force: a mask, a policy change that clears the carry, or any other field. -/
def State.force (s : State) (a : Nat) (w : Word) : State :=
  match pairOfAddr a with
  | some k =>
      let s' := s.setForce a w
      if a = Reg.PAIRk_MASK k then s'.setMask k (Fld.PAIRk_MASK.CODE.of w)
      else if a = Reg.PAIRk_CFG k ∧ s'.pairPolicy k ≠ s.pairPolicy k then s'.clearCarry k
      else s'
  | none => s.setForce a w

/-- Take the LEGACY duty of a pair (R207); while the pair is bound, PAIRk_SHD is stored only (R208). -/
def State.takeShadow (s : State) (k : Nat) : State :=
  if (s.bindingTo k).isSome then s
  else s.setPair k { s.pair k with legacy := s.reg (Reg.PAIRk_SHD k), bound := none }

/-- What is armed for an address and due now, and what stays armed. -/
def Armed.isDue (s : State) (n : Nat) (e : Armed) : Bool :=
  decide (e.due ≤ s.tick) && s.tbOfAddr e.addr == some n

/-- A bound duty, limited to 0 to 1; a limit counts in DLIM (R196).  A pair whose binding is removed follows its
own duty from its update point on, a LEGACY one from its next transfer (R207). -/
def State.takeBound (s : State) (k : Nat) : State :=
  let p := s.pair k
  match s.bindingTo k with
  | none => s.setPair k { p with bound := if s.pairLegacy k then p.bound else none, boundNext := none }
  | some _ => match p.boundNext with
    | none => s
    | some w =>
        let d := Num.val w
        let limited := decide (d < 0) || decide (1 < d)
        let w := if d < 0 then 0 else if 1 < d then 0x3F800000 else w
        let s := if limited then s.count (Reg.PAIRk_STAT k) Fld.PAIRk_STAT.DLIM else s
        s.setPair k { s.pair k with bound := some w, boundNext := none }

/-- The six-step sequencer owns the mask of a pair (R320). -/
def State.seqOwns (s : State) (k : Nat) : Bool :=
  let b := s.unitOfPair k
  let m := if s.on Reg.POS_CFG Fld.POS_CFG.PAIRED then 0 else b
  decide (b < 2) && s.on (Reg.FLD_MCm_STAT m) Fld.FLD_MCm_STAT.SIXSTEP

/-- A mask code is written to PAIRk_MASK and comes into force. -/
def State.putMask (s : State) (k code : Nat) : State :=
  let a := Reg.PAIRk_MASK k
  ((s.setFld a Fld.PAIRk_MASK.CODE code).setForce a (Fld.PAIRk_MASK.CODE.only code)).setMask k code

/-- The code that a caravan stored for a bound mask comes into force once the binding is removed (Table ARCH-4). -/
def State.takeStoredMask (s : State) (k : Nat) : State :=
  match (s.pair k).maskStored, s.bindingTo (0x030 + k) with
  | some code, none => if s.seqOwns k then s else (s.setPair k { s.pair k with maskStored := none }).putMask k code
  | _, _ => s

/-- A bound mask word: code and target (R203); one for a mask that the sequencer owns is ignored. -/
def State.takeBoundMask (s : State) (k : Nat) : State :=
  match (s.pair k).maskNext with
  | none => s.takeStoredMask k
  | some w =>
      let s := s.setPair k { s.pair k with maskNext := none }
      let code := maskCode (w.toNat % 8)
      if s.seqOwns k then s
      else if bitAt w 8 then
        (s.setFld (Reg.PAIRk_MASKNX k) Fld.PAIRk_MASKNX.CODE code).setForce (Reg.PAIRk_MASKNX k)
          (Fld.PAIRk_MASKNX.CODE.only code)
      else s.putMask k code

/-- An armed word comes into force; a mask that a binding or the sequencer drives is stored only, and the code for
a bound one waits for the binding's removal (Table ARCH-4). -/
def State.takeArmed (s : State) (e : Armed) : State :=
  match pairOfAddr e.addr with
  | some k =>
      if e.addr ≠ Reg.PAIRk_MASK k then s.force e.addr e.word
      else if s.seqOwns k then s.setForce e.addr e.word
      else if (s.bindingTo (0x030 + k)).isSome then
        s.setPair k { s.pair k with maskStored := some (Fld.PAIRk_MASK.CODE.of e.word) }
      else s.force e.addr e.word
  | none => s.force e.addr e.word

/-- The armed set of timebase `n` transfers at an update point: fields, bound outputs, LEGACY loads. -/
def State.transferSet (s : State) (n : Nat) : State :=
  let due := s.pwm.armed.filter (Armed.isDue s n)
  let keep := s.pwm.armed.filter fun e => !Armed.isDue s n e
  let load := s.pwm.loadAll.any fun e => e.1 == n && decide (e.2 ≤ s.tick)
  let s := { s with pwm.armed := keep,
                    pwm.loadAll := s.pwm.loadAll.filter fun e => !(e.1 == n && decide (e.2 ≤ s.tick)) }
  let s := due.foldl State.takeArmed s
  let s := (s.tbPairs n).foldl (fun s k => (s.takeBound k).takeBoundMask k) s
  let s := if load then ((s.tbPairs n).filter s.pairLegacy).foldl State.takeShadow s else s
  let waits := s.pwm.armed.any fun e => s.tbOfAddr e.addr == some n
  if waits then s
  else s.setFld Reg.PWM_LDALL Fld.PWM_LDALL.TB (withoutBit (s.fld Reg.PWM_LDALL Fld.PWM_LDALL.TB) n)

/-! ### Writes to pair and timebase fields (R205, R206) -/

/-- A caravan write: the register takes the word; it is in force at once on a stopped timebase, and
otherwise armed for the first update point at or after the next boundary. -/
def State.armWrite (s : State) (a : Nat) (w : Word) : State :=
  let s := s.setReg a w
  match s.tbOfAddr a with
  | none => s
  | some n =>
      if s.tbRun n then { s with pwm.armed := s.pwm.armed ++ [⟨a, w, s.tick + 1⟩] }
      else s.force a w

/-- A bus write before setup lock: in force at once on a stopped timebase, and otherwise in the
pending copy. -/
def State.pendWrite (s : State) (a : Nat) (w : Word) : State :=
  let s := s.setReg a w
  match s.tbOfAddr a with
  | none => s
  | some n =>
      if s.tbRun n then { s with pwm.waiting := s.pwm.waiting.filter (fun e => e.1 != a) ++ [(a, w)] }
      else s.force a w

/-- PWM_LDALL (R206): the pending copies of the named timebases are armed, at the next boundary, or
for the next update point while the tick is stopped. -/
def State.ldall (s : State) (bits : Nat) : State :=
  let due := if s.ticking then s.tick + 2 else s.tick
  let bits := (List.range 4).foldl (fun w n => if hasBit bits n && s.tbRun n then withBit w n else w) 0
  let mine : Nat × Word → Bool := fun e => match s.tbOfAddr e.1 with
    | some n => hasBit bits n
    | none => false
  let take := s.pwm.waiting.filter mine
  { s with
    pwm.waiting := s.pwm.waiting.filter (fun e => !mine e),
    pwm.armed := s.pwm.armed ++ take.map (fun (e : Nat × Word) => Armed.mk e.1 e.2 due),
    pwm.loadAll := s.pwm.loadAll ++ ((List.range 4).filter (hasBit bits)).map fun n => (n, due) }.setFld Reg.PWM_LDALL Fld.PWM_LDALL.TB
        ((s.fld Reg.PWM_LDALL Fld.PWM_LDALL.TB ||| bits) % 16)

end Sys2Proof.Machine
end

