-- ==== Sys2Proof/Machine/Pwm.lean ====
section
/-! DEFINITION. What happens at the zeros and half-period points of a timebase, spare generators,
read-back, and the PWM descriptors (R185 to R189, R205 to R215). -/

set_option Elab.async false

namespace Sys2Proof.Machine

/-! ### Spare edge generators (R211 to R213) -/

abbrev spareFree : Nat := 0x1F
abbrev spareTest : Nat := 0x1E

def spareField (sp : Nat) : Bits := if sp = 0 then Fld.PWM_STAT.SP0 else Fld.PWM_STAT.SP1
/-- What a spare serves: a pair, 0x1E under test, 0x1F free. -/
def State.spareServes (s : State) (sp : Nat) : Nat := s.fld Reg.PWM_STAT (spareField sp)
def State.setSpare (s : State) (sp v : Nat) : State := s.setFld Reg.PWM_STAT (spareField sp) v

/-- Physical unit of generator `n`. -/
def genUnit (n : Nat) : Nat := 0x10 + n

/-- A spare generator that a failed pair may claim: free, shadowing or under test, and not already
claimed by a failed pair. -/
def State.freeSpare (s : State) : Option Nat :=
  [0, 1].find? fun sp => s.claimable (genUnit (16 + sp)) &&
    !(List.range 16).any fun k => (s.pair k).swapTo == some sp && (s.pair k).swapCause == 1

/-- The generator that serves a pair: a spare, or its own. -/
def State.genOf (s : State) (k : Nat) : Nat :=
  if s.spareServes 0 = k then 16 else if s.spareServes 1 = k then 17 else k

def State.postGenSwap (s : State) (k sp cause : Nat) (ok : Bool) : State :=
  s.event ⟨UnitCode.pwm, 0x300, 1, k, detailOf [(0, k), (8, sp), (12, cause), (16, ok.toNat)]⟩

/-- Spare `sp` takes over pair `k`; carry and mask, which the pair registers hold, pass unchanged.
The unit that served has failed, or goes to its test in a rotation. -/
def State.takeOver (s : State) (k sp cause : Nat) : State :=
  let old := genUnit (s.genOf k)
  let s := if 16 ≤ s.genOf k then s.setSpare (s.genOf k - 16) spareTest else s
  let s := s.setSpare sp k
  let s := if cause = 0 then s.shadowPassed (genUnit (16 + sp))
    else (s.claimSpare (genUnit (16 + sp))).unitDetected old unitFailed
  let s := s.setFld (Reg.PAIRk_LIVE k) Fld.PAIRk_LIVE.SPARE 1
  let s := s.setPair k { s.pair k with swapTo := none, swapWatch := 0, swapFails := 0 }
  let s := s.endCause (16 + 12) k
  s.postGenSwap k sp cause true

/-- No edge of the pair, of its reference or at a ball, lies within 64 es of the zero at `t`; the coming period's
edges are placed. -/
def Pair.clearAt (p : Pair) (t : Nat) : Bool :=
  decide (p.lastEdge + 64 < t) && decide (p.lastBall + 64 < t) &&
  (p.edges.map (·.1) ++ p.hOn.toList ++ p.lOn.toList).all fun e => decide (t + 64 < e)

/-- No swap or clock move falls between a boundary commit and the end of its application interval (Table ARCH-4). -/
def State.swapBarred (s : State) : Bool :=
  s.ticking && decide (s.t0 < s.now) && decide (s.now < s.t0 + nsToEs 250)

/-- The spare that shadows a pair for a rotation has placed an edge elsewhere than the live generator: it is held
out of service (R212, R516). -/
def State.genMismatch (s : State) (k sp : Nat) : State :=
  let s := s.setPair k { s.pair k with swapTo := none, swapWatch := 0, swapFails := 0 }
  let s := ((s.setSpare sp spareTest).dropShadow (genUnit (16 + sp))).unitDetected (genUnit (16 + sp)) unitFailed
  s.postGenSwap k sp 2 false

/-- The period that ends is compared, where it is one of a pair's shadow periods; `mismatch` has the bit of a spare
whose edge instants differed. -/
def State.watchAtZero (mismatch : Nat) (s : State) (k : Nat) : State :=
  let p := s.pair k
  match p.swapTo with
  | some sp => if p.swapCause = 0 ∧ 0 < p.swapWatch ∧ hasBit mismatch sp then s.genMismatch k sp else s
  | none => s

/-- The swap of a pair at its zero: at once after a read-back failure; after the shadow periods and
at a clear zero in a rotation, abandoned after 16 zeros that are not clear. -/
def State.swapAtZero (s : State) (k : Nat) : State :=
  let p := s.pair k
  match p.swapTo with
  | none => s
  | some sp =>
    if p.swapCause = 0 ∧ 0 < p.swapWatch then s.setPair k { p with swapWatch := p.swapWatch - 1 }
    else if s.swapBarred then s
    else if p.swapCause = 1 then s.takeOver k sp 1
    else if p.clearAt s.now then s.takeOver k sp 0
    else if 15 ≤ p.swapFails then
      let s := s.setPair k { p with swapTo := none, swapFails := 0 }
      let s := (s.setSpare sp spareFree).shadowAborted (genUnit (16 + sp))
      s.postGenSwap k sp 0 false
    else s.setPair k { p with swapFails := p.swapFails + 1 }

/-- A pair waits for spare `sp` to take over at its next zero after a failure; another pair that the
spare shadowed gives it up. -/
def State.claimGenerator (s : State) (k sp : Nat) : State :=
  let s := (List.range 16).foldl (fun s j =>
    if (s.pair j).swapTo == some sp then s.setPair j { s.pair j with swapTo := none } else s) s
  s.setPair k { s.pair k with swapTo := some sp, swapCause := 1, swapWatch := 0, swapFails := 0 }

/-- No spare is left for a failed generator. -/
def State.generatorsExhausted (s : State) (k : Nat) : State :=
  let s := (s.setFld Reg.PWM_STAT Fld.PWM_STAT.EXH 1).unitDetected (genUnit (s.genOf k)) unitFailed
  let s := s.event ⟨UnitCode.pwm, 0x301, 3, k, BitVec.ofNat 32 k⟩
  s.raise (16 + 12) k (2 ^ s.unitOfPair k)

/-- The pair's own generator returns from quarantine when the spare that stands in for it fails (R529). -/
def State.generatorReturns (s : State) (k : Nat) : State :=
  let s := (s.setSpare (s.genOf k - 16) spareTest).unitDetected (genUnit (s.genOf k)) unitFailed
  let s := (s.setFld (Reg.PAIRk_LIVE k) Fld.PAIRk_LIVE.SPARE 0).setFit (genUnit k) false
  (s.setUnit (genUnit k) unitServing).postReadmitted (genUnit k)

/-- A gate ball differs from its generator 32 es after an edge (R213); a spare that shadows the pair
takes over without completing its watch (R529). -/
def State.readbackFail (s : State) (k : Nat) : State :=
  match (s.pair k).swapTo with
  | some sp => s.claimGenerator k sp
  | none =>
      if 16 ≤ s.genOf k && s.fitSpare (genUnit k) then s.generatorReturns k
      else match s.freeSpare with
        | some sp => s.claimGenerator k sp
        | none => s.generatorsExhausted k

/-! ### Coarse mode and clock moves (R209, R210) -/

def State.postCoarse (s : State) (n : Nat) (on : Bool) : State :=
  s.event ⟨UnitCode.pwm, 0x303, 0, n, detailOf [(0, n), (8, on.toNat), (12, s.tbClk n)]⟩

/-- The clock of a timebase at its zero: a move due enters coarse mode, and coarse mode ends at the
first zero after calibration. -/
def State.clockAtZero (s : State) (n : Nat) : State :=
  let t := s.tb n
  match if s.swapBarred then none else t.clkNext with
  | some c =>
      let s := s.setTb n { t with clkNext := none, calibrated := false }
      let s := s.setFld (Reg.TBn_STAT n) Fld.TBn_STAT.CLK c
      if s.tbCoarse n then s
      else (s.setFld (Reg.TBn_STAT n) Fld.TBn_STAT.COARSE 1).postCoarse n true
  | none =>
      if s.tbCoarse n && t.calibrated then
        ((s.setFld (Reg.TBn_STAT n) Fld.TBn_STAT.COARSE 0).setTb n { t with calibrated := false }).postCoarse
          n false
      else s

/-! ### Zeros and half-period points -/

/-- The instant of the next zero of a timebase: a waiting slave's is TB0's zero plus PHASE. -/
def State.zeroInstant (s : State) (n : Nat) : Nat :=
  if (s.tb n).waiting then (s.tb 0).zeroAt + (s.tb n).phase else (s.tb n).endAt

/-- Release the CBC holds of the pairs of a timebase whose source is inactive (R223). -/
def State.releaseCbc (s : State) (n : Nat) : State :=
  { s with prot.cbc := (s.prot.cbc.map fun c =>
      if s.levelActive c.1 then c
      else (c.1, (s.tbPairs n).foldl withoutBit c.2)).filter fun c => c.2 != 0 }

/-- The word that governs a register from now on: the last one armed and due, or the one in force. -/
def State.forceDue (s : State) (a : Nat) : Word :=
  ((s.pwm.armed.filter fun e => e.addr == a && decide (e.due ≤ s.tick)).getLast?.map (·.word)).getD (s.inForce a)

/-- The phase of running slaves follows PHASE, as it is armed or in force, at TB0's next zero, by lengthening their
period under way (R189); a slave that waits for that zero starts from it by the same PHASE (R185). -/
def State.slavePhases (s : State) : State :=
  [1, 2, 3].foldl (fun s n =>
    let t := s.tb n
    let new := Fld.TBn_PHASE.PHASE.of (s.forceDue (Reg.TBn_PHASE n))
    if s.tbSlave n && t.waiting then s.setTb n { t with phase := new }
    else if s.tbSlave n && t.running && new != t.phase then
      let p := s.basePeriod n
      s.setTb n { t with phase := new, down := t.down + (new + p - t.phase % p) % p }
    else s) s

/-- The pairs of a timebase follow their duties in the period that opens. -/
def State.judgePairs (s : State) (n : Nat) : State :=
  let s := if s.ffld (Reg.TBn_CFG n) Fld.TBn_CFG.SHHOLD = 1 then s
    else ((s.tbPairs n).filter s.pairLegacy).foldl State.takeShadow s
  (s.tbPairs n).foldl State.judgeZero s

/-- The divisor changes at the zero: on a timebase that does not follow TB0, and on TB0 with SYNC = 1, which keeps
every zero on the undivided grid (R192, R194). -/
def State.divisorAtZero (s : State) (n div : Nat) : State :=
  if s.tbSlave n || (n == 0 && !s.synced) then s else s.takeDivisor n div

/-- The zero of timebase `n`; `div` is the divisor the thermal manager has in force, `mismatch` has the bits of the
spares whose shadow of the ending period differed.  TB0's armed set has transferred at its boundary. -/
def State.zero (s : State) (n div mismatch : Nat) : State :=
  let t := s.tb n
  if !(t.running || (t.waiting && s.tbRun 0)) then s else
  let s := (s.at (s.zeroInstant n)).settle
  let s := if t.waiting then s.setTb n { t with running := true, waiting := false } else s
  let s := if n = 0 then s else s.transferSet n
  let s := (s.clockAtZero n).divisorAtZero n div
  let tickLen := s.fld Reg.CLK_TICKPER Fld.CLK_TICKPER.PERIOD
  let s := (s.openPeriod n s.now).drawDither n
  let s := if n = 0 then ((s.gridZero (s.basePeriod 0) tickLen).takeRealign).slavePhases else s
  let s := (s.releaseCbc n).judgePairs n
  let s := (s.tbPairs n).foldl (State.watchAtZero mismatch) s
  ((s.tbPairs n).foldl State.swapAtZero s).showTb n

/-- The half-period point of timebase `n`: the rest of the period takes its length from the period
in force, and where the point is an update point the pairs are judged again. -/
def State.halfPoint (s : State) (n : Nat) : State :=
  let t := s.tb n
  if !t.running || t.pastHalf then s else
  let s := (s.at t.halfAt).settle
  let update := n ≠ 0 && s.ffld (Reg.TBn_CFG n) Fld.TBn_CFG.LDPT == 1 && s.tbMode n == 0
  let s := if update then s.transferSet n else s
  let rest := if s.tbSlave n then (if (s.tb 0).pastHalf then (s.tb 0).down else t.down)
    else (halves (s.grain n) (withDelta (s.basePeriod n) t.delta)).2
  let judged := update || (n == 0 && s.srcInForce != 0)
  let s := if judged && s.tbMode n == 0 then
      (s.tbPairs n).foldl State.judgeHalf (s.setTb n { s.tb n with pastHalf := true, down := rest })
    else s.setTb n { s.tb n with pastHalf := true, down := rest }
  let s := if s.tbMode n = 1 then (s.tbPairs n).foldl State.moveOpening s else s
  s.showTb n

/-- Setting or clearing RUN (R185). -/
def State.writeTbRun (s : State) (n : Nat) (w : Word) : State :=
  let run := Fld.TBn_CFG.RUN.of w == 1
  let s := (s.setReg (Reg.TBn_CFG n) w).setForce (Reg.TBn_CFG n) w
  if run && !((s.tb n).running || (s.tb n).waiting) then
    let s := s.startTb n
    if (s.tb n).running then
      (s.judgePairs n).showTb n
    else s
  else if !run && ((s.tb n).running || (s.tb n).waiting) then s.stopTb n
  else s

/-! ### Descriptors (R188, R201, R207, R215) -/

/-- OUTPUT_ENABLE of a pair: both switches count as turned off now (R198); in safe state the enable takes effect at
the release (R236). -/
def State.enablePair (s : State) (k : Nat) : State :=
  if s.outEnabled k then s
  else
    let s := s.setFld (Reg.PAIRk_LIVE k) Fld.PAIRk_LIVE.EN 1
    if s.safeGoverns k then s.setPair k { s.pair k with enabling := true } else s.startPair k

/-- OUTPUT_ENABLE of pairs. -/
def State.enablePairs (s : State) (mask : Nat) : State :=
  ((List.range 16).filter (hasBit mask)).foldl State.enablePair s.settle

/-- OUTPUT_DISABLE of pairs: the carry clears. -/
def State.disablePairs (s : State) (mask : Nat) : State :=
  ((List.range 16).filter (hasBit mask)).foldl (fun s k =>
    let s := (s.setFld (Reg.PAIRk_LIVE k) Fld.PAIRk_LIVE.EN 0).clearCarry k
    (s.setPair k { s.pair k with enabling := false }).regate [k]) s.settle

/-- A period as TBn_PER stores it: in range and, for TB0, not below what the toll gate admits. -/
def State.clampPeriod (s : State) (n p : Nat) : Nat :=
  let p := clampNat 64000 3200000 p
  if n = 0 then s.tollPeriod p else p

/-- CARRIER_SET (R188). -/
def State.carrierSet (s : State) (n : Nat) (w3 : Word) : Verdict :=
  let p := s.clampPeriod n w3.toNat
  let a := Reg.TBn_PER n
  let w := Fld.TBn_PER.PERIOD.only p
  .doneClamp ((s.armWrite a w).imageWrite a 0xFFFFFFFF w).refreshToll (p != w3.toNat)

/-- LOAD_ALL (R207). -/
def State.loadAll (s : State) (n : Nat) : Verdict :=
  .done (if s.tbRun n then { s with pwm.loadAll := s.pwm.loadAll ++ [(n, s.tick + 1)] }
    else ((s.tbPairs n).filter s.pairLegacy).foldl State.takeShadow s)

end Sys2Proof.Machine
end

