-- ==== Sys2Proof/Machine/Trips.lean ====
section
/-! DEFINITION. Filtered trip inputs, clearing trips, safe requests, drive enables and the release of
units (R222 to R224, R232 to R238). -/

set_option Elab.async false

namespace Sys2Proof.Machine

/-! ### Filtered levels (R222, R223) -/

abbrev modeLatch : Nat := 0
abbrev modeCbc : Nat := 1
abbrev modeReport : Nat := 2

def State.srcMode (s : State) (src : Nat) : Nat := s.fld (srcCfg src) Fld.PROT_EXTn_CFG.MODE
def State.srcUnits (s : State) (src : Nat) : Nat := s.fld (srcCfg src) Fld.PROT_EXTn_CFG.UNITS
def State.srcFilt (s : State) (src : Nat) : Nat := s.fld (srcCfg src) Fld.PROT_EXTn_CFG.FILT

/-- The pairs of a set of units, as bits. -/
def State.pairsMask (s : State) (units : Nat) : Nat :=
  ((List.range 16).filter fun k => hasBit units (s.unitOfPair k)).foldl withBit 0

/-- Record the activations of a CBC source since its last report, and the tick after that report. -/
def State.setCbcSince (s : State) (src n posted : Nat) : State :=
  { s with prot := { s.prot with cbcSince := tabSet 0 s.prot.cbcSince src n,
                                 cbcPosted := tabSet 0 s.prot.cbcPosted src posted } }

/-- The references of a CBC source's pairs are held low. -/
def State.cbcHold (s : State) (src : Nat) : State :=
  let s := s.settle
  let held := tabGet 0 s.prot.cbc src ||| s.pairsMask (s.srcUnits src)
  { s with prot.cbc := tabSet 0 s.prot.cbc src held }.regateAll

/-- CBC_ACTIVE is posted at most once per 1,024 ticks and source. -/
def State.cbcReport (s : State) (src : Nat) : State :=
  let n := satAdd 16 (tabGet 0 s.prot.cbcSince src) 1
  let posted := tabGet 0 s.prot.cbcPosted src
  if posted == 0 || decide (posted + 1023 ≤ s.tick) then
    (s.setCbcSince src 0 (s.tick + 1)).event
      ⟨UnitCode.prot, 0x402, 0, 0, detailOf [(0, src), (8, n)]⟩
  else s.setCbcSince src n posted

/-- A CBC activation (R223): hold, count and report. -/
def State.cbcActivate (s : State) (src : Nat) : State :=
  ((s.cbcHold src).count Reg.PROT_CNT Fld.PROT_CNT.CBC).cbcReport src

/-- The sides of a comparator for a level `x`, given with `scale` units to a threshold step. -/
def State.cmpSides (s : State) (m scale x : Nat) : State :=
  let hi := s.fld (Reg.PROT_CMPm_THR m) Fld.PROT_CMPm_THR.HI * scale
  let lo := s.fld (Reg.PROT_CMPm_THR m) Fld.PROT_CMPm_THR.LO * scale
  let hys := s.fld (Reg.PROT_CMPm_CFG m) Fld.PROT_CMPm_CFG.HYS * scale
  let high := if hi < x then withBit s.prot.cmpHi m
    else if x + hys < hi then withoutBit s.prot.cmpHi m else s.prot.cmpHi
  let low := if x < lo then withBit s.prot.cmpLo m
    else if lo + hys < x then withoutBit s.prot.cmpLo m else s.prot.cmpLo
  { s with prot := { s.prot with cmpHi := high, cmpLo := low } }

/-- The output of a comparator: the OR of its enabled sides. -/
def State.cmpOut (s : State) (m : Nat) : Bool :=
  (s.on (Reg.PROT_CMPm_CFG m) Fld.PROT_CMPm_CFG.HIEN && hasBit s.prot.cmpHi m) ||
  (s.on (Reg.PROT_CMPm_CFG m) Fld.PROT_CMPm_CFG.LOEN && hasBit s.prot.cmpLo m)

/-- The input of a filtered source is active: a TRIPn ball by its polarity, or a comparator's output (R222, R225). -/
def State.rawActive (s : State) (src : Nat) : Bool :=
  if src < 16 then hasBit s.prot.raw src != s.on (srcCfg src) Fld.PROT_EXTn_CFG.POL else s.cmpOut (src - 16)

def State.setRun (s : State) (src t : Nat) : State := { s with prot.runs := tabSet 0 s.prot.runs src t }

/-- Consecutive samples of the present activity, on the grid of fabric clock edges. -/
def State.samples (s : State) (src : Nat) : Nat :=
  let from' := tabGet 0 s.prot.runs src
  if from' ≤ s.now then (s.now - from') / esPerFc + 1 else 0

/-- The activity of a source has changed since `old`: its samples count from the next one on. -/
def State.restartRun (s old : State) (src : Nat) : State :=
  if old.rawActive src = s.rawActive src then s else s.setRun src ((s.now / esPerFc + 1) * esPerFc)

/-- Filtered levels become active in one fabric cycle: latches first, in source number order, then
the sources of the other modes. -/
def State.levelsActive (s : State) (srcs : List Nat) : State :=
  let fresh := srcs.filter fun src => !s.levelActive src
  let s := fresh.foldl (fun s src => s.setLevel src true) s
  let s := s.trip (fresh.filter fun src => s.srcMode src == modeLatch)
  fresh.foldl (fun s src =>
    if s.srcMode src = modeCbc then s.cbcActivate src
    else if s.srcMode src = modeReport then
      s.event ⟨UnitCode.prot, 0x401, 0, 0, BitVec.ofNat 32 src⟩
    else s) s

/-- The sources that have shown `active` in FILT consecutive samples at the present instant. -/
def State.filtered (s : State) (active : Bool) : List Nat :=
  (List.range 28).filter fun src => s.rawActive src == active && decide (s.srcFilt src ≤ s.samples src)

/-- The balls `named` show the levels `raw`, seen first by the sample at instant `first`. -/
def State.seeRaw (s : State) (named raw first : Nat) : State :=
  ((List.range 16).filter (hasBit named)).foldl (fun s src =>
    if hasBit s.prot.raw src = hasBit raw src then s
    else { s with prot.raw := if hasBit raw src then withBit s.prot.raw src else withoutBit s.prot.raw src }.setRun
      src (ceilDiv first esPerFc * esPerFc)) s

/-- TRIP_FILTER_ACTIVE (R222) at instant `t`: the balls `named` show the levels `raw` since the sample at `first`, and
every input whose active samples reach FILT becomes active. -/
def execTripFilterActive (named raw first t : Nat) (s : State) : Host.Outcome State Fault Refusal :=
  let s := (s.seeRaw named raw first).at t
  .next (s.levelsActive (s.filtered true))

/-- TRIP_FILTER_INACTIVE (R222): likewise for inactive samples. -/
def execTripFilterInactive (named raw first t : Nat) (s : State) : Host.Outcome State Fault Refusal :=
  let s := (s.seeRaw named raw first).at t
  .next ((s.filtered false).foldl (fun s src => s.setLevel src false) s)

/-- SAFE_READBACK_FAIL (R233): a ball that a safe state governs differs from its commanded level. -/
def execSafeReadbackFail (pair : Fin 16) (low : Bool) (s : State) :
    Host.Outcome State Fault Refusal :=
  let u := s.unitOfPair pair
  .next (if s.safeGoverns pair then
    s.f4 ⟨UnitCode.prot, 0x408, 4, u, detailOf [(0, pair), (8, low.toNat)]⟩ else s)

/-! ### The load from the image (R86, R236) -/

/-- The configuration registers of a pair that a unit takes from the image. -/
def pairRegs (k : Nat) : List Nat :=
  [Reg.PAIRk_CFG k, Reg.PAIRk_DT k, Reg.PAIRk_MINP k, Reg.PAIRk_CMP k, Reg.PAIRk_SHD k,
   Reg.PAIRk_MASK k, Reg.PAIRk_MASKNX k]

/-- Load a pair register from the image and bring it into force; a mask that an angle event swapped in
safe state stands. -/
def State.loadPairReg (k : Nat) (s : State) (a : Nat) : State :=
  if !s.sealed || (a == Reg.PAIRk_MASK k && (s.pair k).maskHeld) then s
  else
    let s := s.loadReg a
    s.force a (s.reg a)

/-- Load the registers of a unit's pairs from the committed image (R86). -/
def State.loadUnit (s : State) (u : Nat) : State :=
  (s.pairsOf u).foldl (fun s k =>
    let s := (pairRegs k).foldl (State.loadPairReg k) s
    s.setPair k { s.pair k with maskHeld := false }) s

/-- The load that a release brings, once in an application interval. -/
def State.loadOnce (s : State) (u : Nat) : State :=
  if hasBit s.prot.loaded u then s else { s.loadUnit u with prot.loaded := withBit s.prot.loaded u }

/-! ### Clearing (R234, R237) -/

/-- The set latches that the masks name. -/
def State.namedLatches (s : State) (ext int : Word) : List Nat :=
  (List.range 40).filter fun src => s.latched src &&
    (if src < 16 then bitAt ext src else bitAt int (src - 16))

/-- A bridge in safe state takes the state its remaining requests give; the change of a standing
choice from ASC to SPO waits for its dwell (R231). -/
def State.reresolve (s : State) (b : Nat) : State :=
  if !s.isSafe b then s
  else if s.heldByStanding b && s.unitState b != stateSpo && s.standing b == stateSpo then
    s.checkConflict b
  else s.applySafe b (s.fld (Reg.PROT_BRb_STAT b) Fld.PROT_BRb_STAT.CAUSE)

/-- The named latches clear, and the arbiter resolves anew; the auxiliary unit is released once the last latch that
acts on it is cleared. -/
def State.clearLatches (s : State) (named : List Nat) : State :=
  let onAux := named.any fun src => hasBit (s.latchUnits src) unitAux
  let s := named.foldl (fun s src =>
    { s.setLatch src false with prot.latchUnits := tabSet 0 s.prot.latchUnits src 0 }) s.settle
  let s := (s.reresolve 0).reresolve 1
  if onAux && s.isSafe unitAux && (s.latchesOn unitAux).isEmpty && s.inRun then
    { s.loadOnce unitAux with prot.releasing := withBit s.prot.releasing unitAux, prot.auxOwn := true }
  else s

/-- TRIP_CLEAR. -/
def State.tripClear (s : State) (ext int : Word) : Verdict :=
  let named := s.namedLatches ext int
  let failed := named.filter s.levelActive
  match failed with
  | first :: _ => .noWith fun s =>
      (s.count Reg.PROT_CNT Fld.PROT_CNT.CLRREJ failed.length).event
        ⟨UnitCode.prot, 0x403, 0, 0, detailOf [(0, first), (8, failed.length)]⟩
  | [] => .done (s.clearLatches named)

/-! ### Safe requests and drive enables (R232, R235, R236) -/

/-- SAFE_REQUEST. -/
def State.safeRequest (s : State) (b : Nat) (w3 : Word) : Verdict :=
  let v := min 3 w3.toNat
  let s := s.settle
  let s := if v = 0 then s else s.setExplicit b v
  let s := { s with prot := { s.prot with releasing := withoutBit s.prot.releasing b
                                          loaded := withoutBit s.prot.loaded b } }
  .doneClamp (s.applySafe b 0x40) (decide (3 < w3.toNat))

/-- The life-cycle state (R525). -/
def State.lcs (s : State) : Nat := s.fld Reg.BST_STAT Fld.BST_STAT.LCS
abbrev lcsDecommissioned : Nat := 3

/-- A state that refuses DRIVE_ENABLE of a unit (R235, R3, R508). -/
def State.driveRefused (s : State) (u : Nat) : Bool :=
  !(s.latchesOn u).isEmpty || (s.holdInForce && hasBit s.eng.holdUnits u) || !s.fabricLocked ||
  !s.led.passed || !s.inRun || s.haltedF4 || s.pwr.enterAt.isSome || s.on Reg.SYS_RSTCAUSE Fld.SYS_RSTCAUSE.FDIE || s.chk.imageBad

/-- DRIVE_ENABLE: the host's request is erased, and the unit is released at the end of the
interval. -/
def State.driveEnable (s : State) (u : Nat) : Verdict :=
  if s.lcs = lcsDecommissioned then .refused true id
  else if s.driveRefused u then .no
  else if !s.isSafe u then .done s
  else
    let s := if u < 2 then s.setExplicit u 0 else s
    .done { s.loadOnce u with prot.releasing := withBit s.prot.releasing u
                              prot.auxOwn := s.prot.auxOwn && u != unitAux }

/-! ### Release (R224, R236) -/

/-- CBC holds of inactive sources end on the pairs of a unit that leaves safe state. -/
def State.endCbc (s : State) (u : Nat) : State :=
  let gone := s.pairsOf u
  let left := s.prot.cbc.map fun c =>
    if s.levelActive c.1 then c else (c.1, gone.foldl withoutBit c.2)
  { s with prot.cbc := left.filter fun c => c.2 != 0 }

/-- A unit leaves safe state, unless a latch that has set since the judgement acts on it. -/
def State.releaseUnit (s : State) (u : Nat) : State :=
  if !s.isSafe u || !(s.latchesOn u).isEmpty then s
  else ((s.loadOnce u).endCbc u).release u

end Sys2Proof.Machine
end

