-- ==== Sys2Proof/Machine/Acq.lean ====
section
/-! DEFINITION. Acquisition: conversions, windows, publication, spare cores, urgent conversions,
diagnosis and the phase-sum check (R246 to R261, R264, R270). -/

set_option Elab.async false

namespace Sys2Proof.Machine

/-! ### Groups, cores and entries -/

def State.grp (s : State) (g : Nat) : AcqGroup := tabGet {} s.acq.groups g
def State.setGrp (s : State) (g : Nat) (x : AcqGroup) : State :=
  { s with acq.groups := tabSet {} s.acq.groups g x }

def State.coreDiag (s : State) (c : Nat) : CoreDiag := tabGet {} s.acq.diags c
def State.setCoreDiag (s : State) (c : Nat) (x : CoreDiag) : State :=
  { s with acq.diags := tabSet {} s.acq.diags c x }

/-- Fields of ACQ_STAT (Table ACQ-8). -/
def spField (g : Nat) : Bits := ⟨8 * g, 2⟩
def scoreField (g : Nat) : Bits := ⟨8 * g + 2, 2⟩
def failField (g : Nat) : Bits := ⟨8 * g + 4, 4⟩

abbrev spFree : Nat := 0
abbrev spStanding : Nat := 1
abbrev spTest : Nat := 2
abbrev spUrgent : Nat := 3

def State.spState (s : State) (g : Nat) : Nat := s.fld Reg.ACQ_STAT (spField g)
def State.setSp (s : State) (g v : Nat) : State := s.setFld Reg.ACQ_STAT (spField g) v
def State.spCore (s : State) (g : Nat) : Nat := s.fld Reg.ACQ_STAT (scoreField g)
def State.coreFail (s : State) (g j : Nat) : Bool := hasBit (s.fld Reg.ACQ_STAT (failField g)) j
def State.setCoreFail (s : State) (g j : Nat) (b : Bool) : State :=
  s.setReg Reg.ACQ_STAT (setBit (s.reg Reg.ACQ_STAT) (8 * g + 4 + j) b)

/-- Physical unit of core `j` of group `g`. -/
def sarUnit (g j : Nat) : Nat := 4 * g + j

/-- Conversions are made: RUN is set, and the device is in RUN (R270). -/
def State.acqRuns (s : State) : Bool := s.on Reg.ACQ_CFG Fld.ACQ_CFG.RUN && s.inRun

/-- Length of the sequence of core `j`. -/
def State.seqLen (s : State) (g j : Nat) : Nat := s.fld (Reg.ACQ_GRPg_CFG g) ⟨8 + 4 * j, 4⟩ + 1
def State.seqInput (s : State) (a e : Nat) : Nat := s.fld (Reg.ACQ_SEQa_e a e) Fld.ACQ_SEQa_e.INPUT
def State.grpUnits (s : State) (g : Nat) : Nat := s.fld (Reg.ACQ_GRPg_CFG g) Fld.ACQ_GRPg_CFG.UNITS

/-- The core that serves sequence `j` of a group: the spare while it stands in, none while the core
is out of service (R255). -/
def State.servingCore (s : State) (g j : Nat) : Option Nat :=
  if s.spState g = spStanding ∧ s.spCore g = j then (if s.coreFail g 3 then none else some 3)
  else if s.coreFail g j || s.unit (sarUnit g j) != unitServing then none else some j

/-! ### Codes (R246) -/

/-- The code of a voltage against a reference, both in µV; a voltage below 0 gives 0. -/
def sarCode (v : Int) (vref : Nat) : Nat := min (16384 * v.toNat / vref) 16383

/-- The expected code of a diagnostic input (Table ACQ-1). -/
def State.expectedCode (s : State) (g input : Nat) : Nat :=
  if input = 12 then 4 * s.fld (Reg.ACQ_GRPg_DIAG g) Fld.ACQ_GRPg_DIAG.TDAC
  else if input = 13 then 8192 else 0

def natDiff (a b : Nat) : Nat := (a - b) + (b - a)

/-! ### Window accumulators (R251) -/

/-- Add a code to an accumulator; at 65,535 conversions the window is full. -/
def Acc.add (a : Acc) (code : Nat) : Acc :=
  if a.count = 65535 then { a with full := true }
  else
    { a with sum := a.sum + code, count := a.count + 1,
             least := if a.count = 0 then code else min a.least code,
             greatest := if a.count = 0 then code else max a.greatest code,
             sat := a.sat || code == 0 || code == 16383,
             full := a.full || a.count == 65534 }

def State.acc (s : State) (n : Nat) : Acc := tabGet {} s.acq.accs n
def State.setAcc (s : State) (n : Nat) (a : Acc) : State :=
  { s with acq.accs := tabSet {} s.acq.accs n a }

/-- What a conversion of entry `n` that completes at instant `t` does to its window: the open one, the closed one when
it completed before the boundary that has passed, or the coming one (R24). -/
def State.accWindow (s : State) (n t : Nat) (f : Acc → Acc) : State :=
  if t < s.t0 then { s with acq.closed := tabSet {} s.acq.closed n (f (tabGet {} s.acq.closed n)) }
  else if s.ticking && decide (s.nextBoundary ≤ t) then
    { s with acq.ahead := tabSet {} s.acq.ahead n (f (tabGet {} s.acq.ahead n)) }
  else s.setAcc n (f (s.acc n))

/-- The windows close at a boundary: the next ones begin. -/
def State.closeSarWindows (s : State) : State :=
  { s with acq := { s.acq with closed := s.acq.accs, accs := s.acq.ahead, ahead := [] } }

/-- The words of a frozen window (Table ACQ-7). -/
def State.freezeEntry (s : State) (n : Nat) : State :=
  let w := tabGet {} s.acq.closed n
  let a := n / 16
  let e := n % 16
  let s := s.setReg (Reg.ACQ_Ea_e_WSUM a e) (BitVec.ofNat 32 w.sum)
  let s := s.setReg (Reg.ACQ_Ea_e_WCNT a e)
    (detailOf [(0, w.count), (16, w.sat.toNat), (17, w.lost.toNat), (18, w.full.toNat)])
  s.setReg (Reg.ACQ_Ea_e_WMM a e) (detailOf [(0, w.least), (16, w.greatest)])

/-- The frozen accumulators are copied into the window registers. -/
def State.freezeSar (s : State) : State := (List.range 192).foldl State.freezeEntry s

/-! ### Publication (R252, R253) -/

/-- The entries of a group's three sequences that select local input `i`, as 16a + e. -/
def State.entriesOf (s : State) (g i : Nat) : List Nat :=
  [0, 1, 2].flatMap fun j => ((List.range (s.seqLen g j)).filter fun e =>
    s.seqInput (3 * g + j) e == i).map fun e => 16 * (3 * g + j) + e

/-- The frozen windows of an input combined: sum, count, least and greatest. -/
def State.windowOf (s : State) (k : Nat) : Acc :=
  (s.entriesOf (k / 12) (k % 12)).foldl (fun (a : Acc) n =>
    let w : Acc := tabGet {} s.acq.closed n
    if w.count = 0 then a
    else if a.count = 0 then w
    else { w with sum := a.sum + w.sum, count := a.count + w.count, least := min a.least w.least,
                  greatest := max a.greatest w.greatest }) {}

/-- An entry that selects the input is converted by a core that has not failed. -/
def State.inputServed (s : State) (k : Nat) : Bool :=
  (s.entriesOf (k / 12) (k % 12)).any fun n => (s.servingCore (k / 12) (n / 16 % 3)).isSome

/-- A code calibrated. -/
def State.calibrate (s : State) (k : Nat) (a : Rat) : Rat :=
  Num.mul (Num.sub a (s.real (Reg.ACQ_INk_OFF k))) (s.real (Reg.ACQ_INk_GAIN k))

def State.sarValid (s : State) (k : Nat) (w : Acc) : Bool :=
  decide (s.fld (Reg.ACQ_INk_CFG k) Fld.ACQ_INk_CFG.MINCNT ≤ w.count) && s.inputServed k &&
  (!s.on (Reg.ACQ_INk_CFG k) Fld.ACQ_INk_CFG.SATCHK ||
    (decide (0 < w.least) && decide (w.greatest < 16383)))

/-- Publish input `k`. -/
def State.publishInput (s : State) (k : Nat) : State :=
  let w := s.windowOf k
  let at' := 0x110 + 4 * k
  let valid := s.sarValid k w
  if w.count = 0 then s.publishFlag (at' + 3) false
  else
    let avg := s.calibrate k (Num.div (w.sum : Rat) (w.count : Rat))
    let p := s.calibrate k (w.least : Rat)
    let q := s.calibrate k (w.greatest : Rat)
    let s := (s.publishReal at' avg).publishReal (at' + 1) (min p q)
    (s.publishReal (at' + 2) (max p q)).publishFlag (at' + 3) valid

/-! ### Phase sum (R264) -/

/-- The tag of a cause of source 23: its event code and instance. -/
def causeTag (code inst : Nat) : Nat := 256 * code + inst

/-- An F3 event with the cause of source 23 that it brings. -/
def State.f3 (s : State) (e : Ev) (tag units : Nat) : State := (s.event e).raise (16 + 23) tag units

def State.sumInputs (s : State) (g : Nat) : List Nat :=
  let a := Reg.ACQ_GRPg_SUMCFG g
  [12 * g + s.fld a Fld.ACQ_GRPg_SUMCFG.IN0, 12 * g + s.fld a Fld.ACQ_GRPg_SUMCFG.IN1,
   12 * g + s.fld a Fld.ACQ_GRPg_SUMCFG.IN2]

/-- A window beyond SUMTOL, which is the N-th in a row or a later one where the event has not been posted, and one
within it. -/
def State.sumBeyond (s : State) (g : Nat) : State :=
  let n := (s.grp g).sumCount + 1
  let lim := s.fld (Reg.ACQ_GRPg_SUMCFG g) Fld.ACQ_GRPg_SUMCFG.N
  let s := s.setGrp g { s.grp g with sumCount := min n 255 }
  if lim ≤ n ∧ !s.causeActive (16 + 23) (causeTag 0x504 g) then
    s.f3 ⟨UnitCode.acq, 0x504, 3, g, detailOf [(0, g), (8, n)]⟩ (causeTag 0x504 g) (s.grpUnits g)
  else s

def State.sumWithin (s : State) (g : Nat) : State :=
  (s.setGrp g { s.grp g with sumCount := 0 }).endCause (16 + 23) (causeTag 0x504 g)

def State.checkSum (s : State) (g : Nat) : State :=
  if s.on (Reg.ACQ_GRPg_SUMCFG g) Fld.ACQ_GRPg_SUMCFG.EN then
    match (s.sumInputs g).map s.sarAvg with
    | [some a, some b, some c] =>
        if s.real (Reg.ACQ_GRPg_SUMTOL g) < Num.absR (Num.add (Num.add a b) c) then s.sumBeyond g
        else s.sumWithin g
    | _ => s
  else s.sumWithin g

/-- The SAR part of t0 + 150 ns. -/
def State.publishSar (s : State) : State :=
  let s := (List.range 48).foldl State.publishInput s
  (List.range 4).foldl State.checkSum s

/-! ### Failed cores and takeover (R255) -/

def State.postCoreSwap (s : State) (g j cause : Nat) (ok : Bool) : State :=
  s.event ⟨UnitCode.acq, 0x500, 1, g,
    detailOf [(0, g), (4, j), (8, cause), (16, ok.toNat)]⟩

/-- The spare of a group can be claimed for a failed core. -/
def State.spareClaimable (s : State) (g : Nat) : Bool :=
  s.spState g != spStanding && !s.coreFail g 3 && (s.grp g).takeover.all (fun x => x.2 == 1) &&
  (s.spState g == spUrgent || s.claimable (sarUnit g 3))

/-- No spare is left for core `j`. -/
def State.coresExhausted (s : State) (g j : Nat) : State :=
  s.f3 ⟨UnitCode.acq, 0x501, 3, g, detailOf [(0, g), (4, j)]⟩ (causeTag 0x501 (4 * g + j))
    (s.grpUnits g)

/-- The spare is freed from a test or a shadow for a failed core. -/
def State.freeSpareCore (s : State) (g : Nat) : State :=
  let s := if s.spState g = spTest then s.setSp g spFree else s
  let s := (s.abortTest (sarUnit g 3) 1).shadowAborted (sarUnit g 3)
  s.setGrp g { s.grp g with watch := none }

/-- A core that quarantine compared with the failed spare returns on its passed BIST (R529). -/
def State.returnQuarantined (s : State) (g : Nat) : Option Nat :=
  match (s.grp g).watch with
  | some w => if w.live = 3 ∧ s.fitSpare (sarUnit g w.core) then some w.core else none
  | none => none

/-- An active core is declared failed. -/
def State.failCore (s : State) (g j : Nat) : State :=
  let s := (s.setCoreFail g j true).unitDetected (sarUnit g j) unitFailed
  if s.spareClaimable g then
    (s.freeSpareCore g).setGrp g { (s.freeSpareCore g).grp g with takeover := some (j, 0) }
  else s.coresExhausted g j

/-- The spare is declared failed: held out of service while idle, and a failed core that waits for it finds none; while
it stands in, the core in quarantine beside it returns, or its sequence stays unconverted. -/
def State.failSpare (s : State) (g : Nat) : State :=
  let standing := s.spState g = spStanding
  let j := s.spCore g
  let s := (s.setCoreFail g 3 true).unitDetected (sarUnit g 3) unitFailed
  if standing then
    match s.returnQuarantined g with
    | some c =>
        let s := (s.setSp g spFree).setUnit (sarUnit g c) unitServing
        ((s.setGrp g { s.grp g with watch := none }).setCoreFail g c false).postReadmitted (sarUnit g c)
    | none => s.coresExhausted g j
  else
    let waits := (s.grp g).takeover
    let s := (s.setGrp g { s.grp g with takeover := none }).postCoreSwap g j 0 false
    match waits with
    | some (c, 0) => s.coresExhausted g c
    | _ => s

/-- A tick boundary: the spare takes the sequence of a failed or released core, unless it is making
an urgent conversion. -/
def State.takeoverCore (s : State) (g : Nat) : State :=
  match (s.grp g).takeover with
  | none => s
  | some (j, cause) =>
      if s.spState g = spUrgent then s
      else
        let s := s.setGrp g { s.grp g with takeover := none, watch := none }
        let s := if cause = 1 then s.shadowPassed (sarUnit g 3) else s.claimSpare (sarUnit g 3)
        let s := (s.setSp g spStanding).setFld Reg.ACQ_STAT (scoreField g) j
        s.postCoreSwap g j cause true

def State.takeoverCores (s : State) : State := (List.range 4).foldl State.takeoverCore s

/-! ### Diagnosis (R261) -/

def diagField (j : Nat) : Bits := ⟨8 * j, 8⟩

/-- DIAG_MISMATCH, at most once per 1,024 ticks and core. -/
def State.postDiag (s : State) (g j input code : Nat) : State :=
  let d := s.coreDiag (4 * g + j)
  if d.posted == 0 || decide (d.posted + 1023 ≤ s.tick) then
    (s.setCoreDiag (4 * g + j) { d with posted := s.tick + 1 }).event ⟨UnitCode.acq, 0x502, 0, g,
      detailOf [(0, g), (4, j), (8, input), (16, code)]⟩
  else s

/-- A deviating diagnostic conversion of core `j`; DIAGN in a row declare it failed. -/
def State.diagDeviates (s : State) (g j input code : Nat) : State :=
  let run := (s.coreDiag (4 * g + j)).run + 1
  let fails := decide (s.fld (Reg.ACQ_GRPg_DIAG g) Fld.ACQ_GRPg_DIAG.DIAGN ≤ run)
  let s := s.setCoreDiag (4 * g + j) { s.coreDiag (4 * g + j) with run := if fails then 0 else run }
  let s := (s.count (Reg.ACQ_GRPg_DIAGCNT g) (diagField j)).postDiag g j input code
  if fails then
    (if j = 3 then s.failSpare g else s.failCore g j)
  else s

/-- The test DAC of a group serves a comparator test. -/
def State.dacBusy (s : State) (g : Nat) : Bool := s.acq.tests.any fun t => t.cmp / 3 == g

/-- The test DAC of a group moves to a new TDAC: input 12 is not checked for 1 µs (R261). -/
def State.dacMoves (s : State) (g : Nat) : State :=
  s.setGrp g { s.grp g with tdacFrom := s.now + nsToEs 1000, tdacHeld := false }

/-- A TDAC that was written during a comparator test takes effect once the test has ended. -/
def State.dacFreed (s : State) (g : Nat) : State :=
  if (s.grp g).tdacHeld && !s.dacBusy g then s.dacMoves g else s

/-- Check a conversion of an internal input. -/
def State.diagnose (s : State) (g j input code : Nat) : State :=
  if input < 12 ∨ 14 < input then s
  else if input = 12 ∧ (s.now < (s.grp g).tdacFrom ∨ s.dacBusy g) then s
  else if s.fld (Reg.ACQ_GRPg_DIAG g) Fld.ACQ_GRPg_DIAG.TOL < natDiff code (s.expectedCode g input) then
    s.diagDeviates g j input code
  else s.setCoreDiag (4 * g + j) { s.coreDiag (4 * g + j) with run := 0 }

/-! ### Fast comparators: the sides and the substitute check (R225, R263) -/

def cmpInput (s : State) (m : Nat) : Nat := s.fld (Reg.PROT_CMPm_CFG m) Fld.PROT_CMPm_CFG.SEL

def State.cmpSubstituted (s : State) (m : Nat) : Bool :=
  hasBit (s.fld Reg.ACQ_CMPSUB Fld.ACQ_CMPSUB.SUB) m

/-- An output that becomes active makes the urgent request of SRC = 2 (Table ACQ-3). -/
def State.cmpAsks (s : State) (m : Nat) (before : Bool) : State :=
  let g := m / 3
  let a := Reg.ACQ_GRPg_URGCFG g
  if !before && s.cmpOut m && s.fld a Fld.ACQ_GRPg_URGCFG.SRC == 2 &&
     s.fld a Fld.ACQ_GRPg_URGCFG.CMP == m % 3 then
    s.setGrp g { s.grp g with asked := true }
  else s

/-- A new level at a comparator or at its substitute: its output feeds internal source m. -/
def State.cmpMove (s : State) (m scale x : Nat) : State :=
  ((s.cmpSides m scale x).restartRun s (16 + m)).cmpAsks m (s.cmpOut m)

/-- A conversion of a local input feeds the substitute checks of the comparators on it. -/
def State.substitute (s : State) (g input code : Nat) : State :=
  [3 * g, 3 * g + 1, 3 * g + 2].foldl (fun s m =>
    if s.cmpSubstituted m && cmpInput s m == input then s.cmpMove m 16 code else s) s

/-! ### Conversions (R249 to R251, R256, R260) -/

/-- The STREAM frame with a code of entry `e` of sequence `a` arrives: result registers and window (R250, R251). -/
def State.streamCode (s : State) (a e code t : Nat) : State :=
  let input := s.seqInput a e
  let s := s.setFld (Reg.ACQ_Ea_e_RES a e) Fld.ACQ_Ea_e_RES.CODE code
  let s := s.setFld (Reg.ACQ_Ea_e_RES a e) Fld.ACQ_Ea_e_RES.NCONV
    (s.fld (Reg.ACQ_Ea_e_RES a e) Fld.ACQ_Ea_e_RES.NCONV + 1)
  let s := if input < 12 then s.setFld (Reg.ACQ_INk_LAST (12 * (a / 3) + input)) Fld.ACQ_INk_LAST.CODE code
    else s
  s.accWindow (16 * a + e) t fun w => w.add code

/-- A conversion of entry `e` of sequence `j` by core `c`, complete at instant `t`.  With `lost` its STREAM frame is
discarded: the code reaches no window, whose LOST is set (R14); the checks of the field die take it either way. -/
def State.convert (s : State) (g j c e code t : Nat) (lost : Bool) : State :=
  let a := 3 * g + j
  let input := s.seqInput a e
  if input = 15 then s
  else
    let s := if lost then s.accWindow (16 * a + e) t fun w => { w with lost := true } else s.streamCode a e code t
    (s.diagnose g c input code).substitute g input code

/-- The pair of a shadow or quarantine comparison in a slot. -/
def State.comparePair (s : State) (g : Nat) (codes : Nat → Nat) : State :=
  match (s.grp g).watch with
  | none => s
  | some w =>
      let d : Int := (codes w.core : Int) - (codes w.live : Int)
      let tol := s.fld Reg.ACQ_SPCFG Fld.ACQ_SPCFG.SHTOL
      let w := { w with pairs := w.pairs + 1, sum := w.sum + d,
                        bad := w.bad || decide (tol < d.natAbs) }
      s.setGrp g { s.grp g with watch := some w }

/-- The sequence entry of core `j` in slot `n` is empty. -/
def State.slotEmpty (s : State) (g j n : Nat) : Bool :=
  s.seqInput (3 * g + j) (n % s.seqLen g j) == 15

/-- The sequence a comparison follows: that of the live core, or that of the spare that serves. -/
def State.watchSeq (s : State) (g : Nat) (w : PairWatch) : Nat := if w.live = 3 then s.spCore g else w.live

/-- The spare of a group is idle: neither standing in, nor under test, nor converting urgently, nor failed. -/
def State.spareIdle (s : State) (g : Nat) : Bool :=
  s.spState g == spFree && !s.coreFail g 3 && s.unit (sarUnit g 3) == unitFree

/-- The idle spare checks the conversion of input 13 that it made in the whole slot, and begins the next (R260). -/
def State.idleSlot (s : State) (g code : Nat) : State :=
  let s := if (s.grp g).idle && s.spareIdle g then s.diagnose g 3 13 code else s
  s.setGrp g { s.grp g with idle := s.spareIdle g }

/-- A slot of group `g` ends at instant `t`: every core that serves a sequence converts its entry, an idle spare
checks input 13, and a comparison takes its pair. -/
def State.slotEnds (s : State) (g : Nat) (codes : Nat → Nat) (t : Nat) (lost : Bool) : State :=
  let n := (s.grp g).slot
  let s := s.setGrp g { s.grp g with slot := n + 1 }
  let s := [0, 1, 2].foldl (fun s j => match s.servingCore g j with
    | some c => s.convert g j c (n % s.seqLen g j) (codes c) t lost
    | none => s) s
  let s := s.idleSlot g (codes 3)
  match (s.grp g).watch with
  | some w => if s.slotEmpty g (s.watchSeq g w) n then s else s.comparePair g codes
  | none => s

/-- SAR_CONVERSION_DONE (R250): the slot of a group ends at instant `t`; `v0` to `v3` are the voltages its four cores
have converted and `vref` the reference, in µV; with `lost` the STREAM frame of its codes is discarded (R14). -/
def execSarConversionDone (g : Fin 4) (v0 v1 v2 v3 : Int) (vref t : Nat) (lost : Bool) (s : State) :
    Host.Outcome State Fault Refusal :=
  .next (if s.acqRuns then
    (s.at t).slotEnds g (fun c => sarCode (if c = 0 then v0 else if c = 1 then v1
      else if c = 2 then v2 else v3) vref) t lost
  else s)

/-! ### Shadow (R256) -/

/-- The comparison passes: every pair within SHTOL and the sum within WATCH · SHTOL / 8. -/
def State.watchPasses (s : State) (w : PairWatch) : Bool :=
  let tol := s.fld Reg.ACQ_SPCFG Fld.ACQ_SPCFG.SHTOL
  let n := s.fld Reg.ACQ_SPCFG Fld.ACQ_SPCFG.WATCH
  !w.bad && decide (8 * w.sum.natAbs ≤ n * tol)

def State.watchFull (s : State) (w : PairWatch) : Bool :=
  decide (s.fld Reg.ACQ_SPCFG Fld.ACQ_SPCFG.WATCH ≤ w.pairs)

/-- A shadow that fails holds the spare out of service. -/
def State.shadowMismatch (s : State) (g live : Nat) : State :=
  let s := (s.setGrp g { s.grp g with watch := none }).shadowFailed (sarUnit g 3)
  ((s.setSp g spFree).setCoreFail g 3 true).postCoreSwap g live 2 false

/-- SPARE_SHADOW_END (R256): after WATCH pairs the shadow of a group's spare is judged. -/
def execSpareShadowEnd (g : Fin 4) (s : State) : Host.Outcome State Fault Refusal :=
  .next (match (s.grp g).watch with
  | some w =>
      if w.core = 3 ∧ s.watchFull w then
        (if s.watchPasses w then s.setGrp g { s.grp g with takeover := some (w.live, 1) }
         else s.shadowMismatch g w.live)
      else s
  | none => s)

/-! ### Urgent conversions (R257 to R260) -/

def State.urgSrc (s : State) (g : Nat) : Nat := s.fld (Reg.ACQ_GRPg_URGCFG g) Fld.ACQ_GRPg_URGCFG.SRC

/-- URGGO written 1: the request of SRC = 1. -/
def State.urgentGo (s : State) (g : Nat) : State :=
  if s.urgSrc g = 1 then s.setGrp g { s.grp g with asked := true } else s

/-- An angle event asks for an urgent conversion of a group. -/
def State.urgentAngle (s : State) (g : Nat) : State :=
  if s.urgSrc g = 4 then s.setGrp g { s.grp g with asked := true } else s

/-- The timebase of SRC = 3 runs and reaches CNT while counting up: the turn is reached, the end of an edge-aligned
period is its zero. -/
def State.urgentCount (s : State) (g : Nat) : Bool :=
  let n := s.fld (Reg.ACQ_GRPg_URGCFG g) Fld.ACQ_GRPg_URGCFG.TB
  let peak := if s.tbMode n = 1 then (s.tb n).period - 1 else (s.tb n).up
  s.urgSrc g == 3 && s.tbRun n && decide (s.fld (Reg.ACQ_GRPg_URGCNT g) Fld.ACQ_GRPg_URGCNT.CNT ≤ peak)

def State.urgentDrop (s : State) (g : Nat) : State :=
  s.count (Reg.ACQ_GRPg_URGSTAT g) Fld.ACQ_GRPg_URGSTAT.DROP

/-- A request arrives at the spare: the conversion starts, or the request is dropped. -/
def State.urgentStart (s : State) (g : Nat) (late : Bool) : State :=
  let s := s.setGrp g { s.grp g with asked := false }
  if late || s.spState g != spFree || s.coreFail g 3 || (s.grp g).takeover.isSome then s.urgentDrop g
  else
    (s.setSp g spUrgent).setGrp g { s.grp g with idle := false, urgent := some (s.urgSrc g,
      s.fld (Reg.ACQ_GRPg_URGCFG g) Fld.ACQ_GRPg_URGCFG.INPUT) }

/-- URGENT_REQUEST (R257, R258): the request of the group's selected source arrives; `late`: it
reached the field die less than 1 µs ahead of its instant. -/
def execUrgentRequest (g : Fin 4) (late : Bool) (s : State) : Host.Outcome State Fault Refusal :=
  .next (if s.acqRuns && ((s.grp g).asked || s.urgentCount g) then s.urgentStart g late else s)

/-- The value of an urgent conversion: calibrated, or the code itself for inputs 12 to 14. -/
def State.urgentValue (s : State) (g input code : Nat) : Word :=
  Num.pack (if input < 12 then s.calibrate (12 * g + input) (code : Rat) else (code : Rat))

/-- The result registers of an urgent conversion, updated together. -/
def State.urgentResult (s : State) (g src input code : Nat) : State :=
  let seq := s.fld (Reg.ACQ_GRPg_URGRES g) Fld.ACQ_GRPg_URGRES.SEQ + 1
  let s := s.setReg (Reg.ACQ_GRPg_URGRES g) (detailOf [(0, code), (16, src), (24, seq % 256)])
  let s := s.setReg (Reg.ACQ_GRPg_URGVAL g) (s.urgentValue g input code)
  let s := s.setReg (Reg.ACQ_GRPg_URGTICK g) (BitVec.ofNat 32 s.tickLow)
  let s := s.setReg (Reg.ACQ_GRPg_URGOFS g) (BitVec.ofNat 32 (satAdd 18 ((s.now - s.t0) / esPerFc) 0))
  s.count (Reg.ACQ_GRPg_URGSTAT g) Fld.ACQ_GRPg_URGSTAT.DONE

/-- URGENT_CONVERSION_DONE (R259): voltage and reference in µV, at instant `t`. -/
def execUrgentConversionDone (g : Fin 4) (v : Int) (vref t : Nat) (s : State) :
    Host.Outcome State Fault Refusal :=
  .next (match (s.grp g).urgent with
  | some (src, input) =>
      let s := (s.at t).urgentResult g src input (sarCode v vref)
      (s.setSp g spFree).setGrp g { s.grp g with urgent := none }
  | none => s)

end Sys2Proof.Machine
end

