-- ==== Sys2Proof/Machine/Analog.lean ====
section
/-! DEFINITION. Fast comparators and delta-sigma channels (R225, R265 to R269). -/

set_option Elab.async false

namespace Sys2Proof.Machine

/-! ### Comparators -/

/-- A comparator is disconnected from its input: it is under test, or marked failed (R263). -/
def State.cmpOff (s : State) (m : Nat) : Bool :=
  s.cmpSubstituted m || hasBit (s.fld Reg.ACQ_CMPSUB Fld.ACQ_CMPSUB.FAIL) m

/-- COMPARATOR_CROSSING (R225): the input of comparator `m` moves to a voltage; voltage and reference
in µV, at instant `t`. -/
def execComparatorCrossing (m : Fin 12) (v : Int) (vref t : Nat) (s : State) :
    Host.Outcome State Fault Refusal :=
  let s := s.at t
  .next (if s.cmpOff m then s else s.cmpMove m vref (v.toNat * 1024))

/-! ### Delta-sigma channels -/

def State.dsRun (s : State) (c : Nat) : DsRun := tabGet {} s.acq.ds c
def State.setDsRun (s : State) (c : Nat) (x : DsRun) : State :=
  { s with acq.ds := tabSet {} s.acq.ds c x }

def State.dsMode (s : State) (c : Nat) : Nat := s.fld (Reg.ACQ_DSc_CFG c) Fld.ACQ_DSc_CFG.MODE
def State.dsOsr (s : State) (c : Nat) : Nat := s.fld (Reg.ACQ_DSc_CFG c) Fld.ACQ_DSc_CFG.OSR

/-- Bits arrive: the channel is on, and in CLOCKED mode its SDCLK drives (R265, R266). -/
def State.dsClocked (s : State) (c : Nat) : Bool :=
  s.acqRuns && (s.dsMode c == 2 || (s.dsMode c == 1 &&
    s.on (Reg.ACQ_SDCLKn_CFG (s.fld (Reg.ACQ_DSc_CFG c) Fld.ACQ_DSc_CFG.CLK)) Fld.ACQ_SDCLKn_CFG.EN))

/-- Level of the ball SDCLKn at instant `t` (R265): DIV fc to a period, high for the first ceil(DIV/2) of them; low
while EN is 0, and in PARK (Table ACQ-6). -/
def State.sdclk (s : State) (n t : Nat) : Bool :=
  let div := s.fld (Reg.ACQ_SDCLKn_CFG n) Fld.ACQ_SDCLKn_CFG.DIV
  s.on (Reg.ACQ_SDCLKn_CFG n) Fld.ACQ_SDCLKn_CFG.EN && s.inRun &&
  decide (t / esPerFc % max 1 div < (div + 1) / 2)

/-- A CLOCKED channel samples at instant `t`: DLY fc after the edge of its SDCLK that EDGE selects (R266). -/
def State.dsSamples (s : State) (c t : Nat) : Bool :=
  let a := Reg.ACQ_DSc_CFG c
  let n := s.fld a Fld.ACQ_DSc_CFG.CLK
  let edge := t - s.fld a Fld.ACQ_DSc_CFG.DLY * esPerFc
  let high := !s.on a Fld.ACQ_DSc_CFG.EDGE
  decide (s.fld a Fld.ACQ_DSc_CFG.DLY * esPerFc + esPerFc ≤ t) && t % esPerFc == 0 &&
  s.sdclk n edge == high && s.sdclk n (edge - esPerFc) != high

/-- What falls at instant `t` goes into its window: the open one, the closed one, or the coming one (R24, R267). -/
def State.dsInWindow (s : State) (c t : Nat) (f : DsWin → DsWin) : State :=
  let d := s.dsRun c
  if t < s.t0 then { s with acq.dsClosed := tabSet {} s.acq.dsClosed c (f (tabGet {} s.acq.dsClosed c)) }
  else if s.ticking && decide (s.nextBoundary ≤ t) then s.setDsRun c { d with ahead := f d.ahead }
  else
    let w := f { ones := d.ones, bits := d.bits, err := d.err, least := d.least, greatest := d.greatest }
    s.setDsRun c { d with ones := w.ones, bits := w.bits, err := w.err }

/-- Count a bit (R267). -/
def DsWin.count (w : DsWin) (bit : Bool) : DsWin :=
  { w with ones := satAdd 16 w.ones bit.toNat, bits := satAdd 16 w.bits 1 }

/-- Feed a bit to the integrators of the sinc3 filter (R268). -/
def DsRun.integrate (d : DsRun) (bit : Bool) : DsRun :=
  { d with i1 := d.i1 + bit.toNat, i2 := d.i2 + d.i1 + bit.toNat,
           i3 := d.i3 + d.i2 + d.i1 + bit.toNat, phase := d.phase + 1 }

/-- The output of the sinc3 filter after OSR bits: third difference of the integrators. -/
def DsRun.output (d : DsRun) : Nat := (d.i3 + 3 * d.c2 - 3 * d.c1 - d.c3)

/-- A decoding error of a MANCHESTER channel: the bit is discarded. -/
def State.dsError (s : State) (c t : Nat) : State :=
  (s.dsInWindow c t fun w => { w with err := true }).count (Reg.ACQ_DSc_STAT c) Fld.ACQ_DSc_STAT.MERR

def State.dsBit (s : State) (c t : Nat) (bit : Bool) : State :=
  let s := s.dsInWindow c t fun w => w.count bit
  if s.dsOsr c = 0 then s else s.setDsRun c ((s.dsRun c).integrate bit)

def State.setMid (s : State) (c t : Nat) : State := s.setDsRun c { s.dsRun c with mid := some t }

/-- A transition of a Manchester stream at instant `t`, `rising` or not, where a bit lasts `period` es (R266): within a
quarter of the period of its expected position it is the mid-bit transition of a bit; an earlier one lies between two
bits; at a later one the bit before it has failed to come, and the demodulator resynchronises. -/
def State.manchester (s : State) (c : Nat) (rising : Bool) (t period : Nat) : State :=
  match (s.dsRun c).mid with
  | none => s.setMid c t
  | some m =>
      if 4 * t + period < 4 * (m + period) then s
      else if 4 * t ≤ 4 * (m + period) + period then (s.setMid c t).dsBit c t rising
      else (s.setMid c t).dsError c t

/-- DS_BIT_SAMPLED (R266) at instant `t`: the line of a CLOCKED channel shows `level` at a sampling edge, or that of a
MANCHESTER channel moves to `level` at a transition; `period` is the bit period that the demodulator follows, in es. -/
def execDsBitSampled (c : Fin 12) (level : Bool) (t period : Nat) (s : State) : Host.Outcome State Fault Refusal :=
  .next (if !s.dsClocked c then s
    else if s.dsMode c = 2 then (s.at t).manchester c level t period
    else if s.dsSamples c t then (s.at t).dsBit c t level else s)

/-- A density calibrated. -/
def State.dsCalibrate (s : State) (c : Nat) (d : Rat) : Rat :=
  Num.mul (Num.sub d (s.real (Reg.ACQ_DSc_OFF c))) (s.real (Reg.ACQ_DSc_GAIN c))

/-- The lesser or greater of an output and what the window holds. -/
def lesserOf (w : Option Word) (q : Rat) : Word := match w with
  | some v => if Num.val v ≤ q then v else Num.pack q
  | none => Num.pack q
def greaterOf (w : Option Word) (q : Rat) : Word := match w with
  | some v => if q ≤ Num.val v then v else Num.pack q
  | none => Num.pack q

/-- The filter gives its output and starts the next. -/
def DsRun.decimate (d : DsRun) (q : Rat) : DsRun :=
  { d with phase := 0, c1 := d.i3, c2 := d.c1, c3 := d.c2,
           least := some (lesserOf d.least q), greatest := some (greaterOf d.greatest q) }

/-- The limit check of a calibrated output: each output beyond a limit posts, and the first is the cause that acts. -/
def State.dsLimit (s : State) (c : Nat) (q : Rat) : State :=
  let a := Reg.ACQ_DSc_CFG c
  let tag := causeTag 0x505 c
  let high := decide (s.real (Reg.ACQ_DSc_LIMHI c) < q)
  let low := decide (q < s.real (Reg.ACQ_DSc_LIMLO c))
  if s.on a Fld.ACQ_DSc_CFG.LIMEN && (high || low) then
    let e : Ev := ⟨UnitCode.acq, 0x505, 3, c, detailOf [(0, c), (8, (!high).toNat)]⟩
    if s.causeActive (16 + 23) tag then s.event e else s.f3 e tag (s.fld a Fld.ACQ_DSc_CFG.UNITS)
  else s.endCause (16 + 23) tag

/-- A sinc3 output completes: OSR bits have come since the last. -/
def State.sincOutput (s : State) (c : Nat) : State :=
  let osr := s.dsOsr c
  let q := s.dsCalibrate c (Num.div ((s.dsRun c).output : Rat) ((osr * osr * osr : Nat) : Rat))
  let s := s.setDsRun c ((s.dsRun c).decimate q)
  (s.setReg (Reg.ACQ_DSc_SINC c) (Num.pack q)).dsLimit c q

/-- DS_SINC_OUTPUT (R268). -/
def execDsSincOutput (c : Fin 12) (s : State) : Host.Outcome State Fault Refusal :=
  .next (if s.dsOsr c ≠ 0 ∧ s.dsOsr c ≤ (s.dsRun c).phase then s.sincOutput c else s)

/-- The demodulators of Manchester streams stand unsynchronised. -/
def State.unsyncDs (s : State) : State :=
  (List.range 12).foldl (fun s c => s.setDsRun c { s.dsRun c with mid := none }) s

/-! ### Windows of the delta-sigma channels (R267, R269) -/

def DsRun.window (d : DsRun) : DsWin :=
  { ones := d.ones, bits := d.bits, err := d.err, least := d.least, greatest := d.greatest }
def DsRun.reopen (d : DsRun) : DsRun :=
  { d with ones := d.ahead.ones, bits := d.ahead.bits, err := d.ahead.err, least := none, greatest := none, ahead := {} }

/-- The windows of the channels close at a boundary. -/
def State.closeDsWindows (s : State) : State :=
  (List.range 12).foldl (fun s c =>
    let s := { s with acq.dsClosed := tabSet {} s.acq.dsClosed c (s.dsRun c).window }
    s.setDsRun c (s.dsRun c).reopen) s

def State.dsWin (s : State) (c : Nat) : DsWin := tabGet {} s.acq.dsClosed c

/-- The frozen counts are copied. -/
def State.freezeDs (s : State) : State :=
  (List.range 12).foldl (fun s c =>
    s.setReg (Reg.ACQ_DSc_WIN c) (detailOf [(0, (s.dsWin c).ones), (16, (s.dsWin c).bits)])) s

def DsWin.valid (w : DsWin) : Bool :=
  decide (16 ≤ w.bits) && decide (0 < w.ones) && decide (w.ones < w.bits) && !w.err

/-- The REASON of DS_INVALID: the first condition of R267 that fails. -/
def DsWin.reason (w : DsWin) : Nat :=
  if w.bits < 16 then 0 else if w.ones = 0 ∨ w.ones = w.bits then 1 else 2

/-- Post DS_INVALID when VALID changes from 1 to 0, at most once per 1,024 ticks and channel. -/
def State.dsInvalid (s : State) (c : Nat) (w : DsWin) : State :=
  let d := s.dsRun c
  if d.posted == 0 || decide (d.posted + 1023 ≤ s.tick) then
    (s.setDsRun c { d with posted := s.tick + 1 }).event
      ⟨UnitCode.acq, 0x506, 0, c, detailOf [(0, c), (8, w.reason)]⟩
  else s

def State.publishDs (s : State) (c : Nat) : State :=
  let w := s.dsWin c
  let at' := 0x1D0 + 4 * c
  let was := s.on (Reg.ACQ_DSc_STAT c) Fld.ACQ_DSc_STAT.VALID
  let s := if w.bits = 0 then s
    else
      let avg := Num.pack (s.dsCalibrate c (Num.div (w.ones : Rat) (w.bits : Rat)))
      ((s.publish at' avg).publish (at' + 1) (w.least.getD avg)).publish (at' + 2) (w.greatest.getD avg)
  let s := (s.publishFlag (at' + 3) w.valid).setFld (Reg.ACQ_DSc_STAT c) Fld.ACQ_DSc_STAT.VALID
    w.valid.toNat
  if was && !w.valid then s.dsInvalid c w else s

def State.publishAllDs (s : State) : State := (List.range 12).foldl State.publishDs s

end Sys2Proof.Machine
end

