-- ==== Sys2Proof/Machine/Pos.lean ====
section
/-! DEFINITION. Position channels: counter, tracking observer, channel states and index checking
(R275, R281 to R284, R288 to R297). -/

set_option Elab.async false

namespace Sys2Proof.Machine

def State.ch (s : State) (c : Nat) : PosCh := tabGet {} s.pos.chans c
def State.setCh (s : State) (c : Nat) (x : PosCh) : State :=
  { s with pos.chans := tabSet {} s.pos.chans c x }

abbrev chOff : Nat := 0
abbrev chTrack : Nat := 1
abbrev chCoast : Nat := 2
abbrev chQuarantine : Nat := 3
abbrev chCheck : Nat := 4

def State.chState (s : State) (c : Nat) : Nat := s.fld (Reg.POS_CHc_STAT c) Fld.POS_CHc_STAT.STATE
def State.setChState (s : State) (c v : Nat) : State :=
  s.setFld (Reg.POS_CHc_STAT c) Fld.POS_CHc_STAT.STATE v
def State.setChCause (s : State) (c v : Nat) : State :=
  s.setFld (Reg.POS_CHc_STAT c) Fld.POS_CHc_STAT.CAUSE v
def State.chMode (s : State) (c : Nat) : Nat := s.fld (Reg.POS_CHc_CFG c) Fld.POS_CHc_CFG.MODE
def State.emul (s : State) (c : Nat) : Nat := s.fld (Reg.POS_CHc_CFG c) Fld.POS_CHc_CFG.EMUL
def State.lines (s : State) (c : Nat) : Nat := s.fld (Reg.POS_CHc_ABZ c) Fld.POS_CHc_ABZ.LINES

/-- A channel runs: it is not OFF, and the device is in RUN (R301). -/
def State.chRuns (s : State) (c mode : Nat) : Bool :=
  s.inRun && s.chMode c == mode && s.chState c != chOff

/-! ### Causes (R302) -/

abbrev causeLoss : Nat := 1
abbrev causeSupply : Nat := 2
abbrev causeDouble : Nat := 3
abbrev causeGlitch : Nat := 4
abbrev causeRate : Nat := 5
abbrev causeIndex : Nat := 6
abbrev causeJump : Nat := 7
abbrev causeExpired : Nat := 8
abbrev causeOutvoted : Nat := 9

/-- A channel goes to QUARANTINE: CHAN_QUARANTINE, class F2, whose cause persists until CHECK. -/
def State.quarantineCh (s : State) (c cause : Nat) (jump : Int) : State :=
  let s := ((s.setChState c chQuarantine).setChCause c cause).setCh c
    { s.ch c with slewing := false, inRun := 0, outvoted := 0 }
  (s.f2Begins 0x602 c).event ⟨UnitCode.pos, 0x602, 2, c,
    detailOf [(0, cause), (8, toField 24 jump)]⟩

/-- A cause of R281 to R283 or of R298 in TRACK, COAST or CHECK. -/
def State.chCause (s : State) (c cause : Nat) : State :=
  if s.chState c = chOff ∨ s.chState c = chQuarantine then s else s.quarantineCh c cause 0

/-- A channel coasts. -/
def State.coastCh (s : State) (c cause : Nat) : State :=
  let s := ((s.setChState c chCoast).setChCause c cause).setCh c { s.ch c with coastAt := s.now }
  s.event ⟨UnitCode.pos, 0x600, 1, c, BitVec.ofNat 32 cause⟩

/-- A channel loses its signal (Table POS-4). -/
def State.signalLoss (s : State) (c cause : Nat) : State :=
  let s := s.setCh c { s.ch c with delivers := false, inRun := 0 }
  if s.chState c = chTrack then s.coastCh c cause
  else if s.chState c = chCheck then s.quarantineCh c cause 0
  else s

/-! ### Position counter (R288) -/

def State.cnt (s : State) (c : Nat) : Nat := s.fld (Reg.POS_CHc_CNT c) Fld.POS_CHc_CNT.CNT

/-- Move the counter; a wrap sets WRAP and WDIR. -/
def State.moveCnt (s : State) (c : Nat) (d : Int) : State :=
  let v : Int := (s.cnt c : Int) + d
  let up := decide ((2 ^ 24 : Int) ≤ v)
  let down := decide (v < 0)
  let s := s.setFld (Reg.POS_CHc_CNT c) Fld.POS_CHc_CNT.CNT (toField 24 v)
  let x := s.ch c
  let s := s.setCh c { x with wraps := x.wraps + (up.toNat : Int) - (down.toNat : Int), steps := x.steps + d }
  if up || down then
    (s.setFld (Reg.POS_CHc_CNT c) Fld.POS_CHc_CNT.WRAP 1).setFld (Reg.POS_CHc_CNT c)
      Fld.POS_CHc_CNT.WDIR up.toNat
  else s

/-- The counter follows the top 24 bits of a measured angle, the short way. -/
def State.followCnt (s : State) (c : Nat) (theta : Word) : State :=
  s.moveCnt c (signedOf 24 (toField 24 ((theta.toNat / 256 : Nat) - (s.cnt c : Int))))

/-! ### Tracking observer (R289, R290) -/

def signed32 (w : Word) : Int := w.toInt

/-- Radians of an angle difference in angle units. -/
def unitsToRad (e : Int) : Rat := Num.round24 ((e : Rat) * Num.pi / (2 ^ 31 : Nat))

/-- Angular spacing of the steps of an ABZ or HALL channel, in angle units. -/
def State.spacing (s : State) (c : Nat) : Rat :=
  if s.chMode c = 3 then mkRat (2 ^ 32) (4 * s.lines c) else mkRat (2 ^ 32) 6

/-- The angle of counter position `n` of an ABZ channel (R284). -/
def State.abzAngle (s : State) (c : Nat) (n : Int) : Word :=
  let turn := 4 * s.lines c
  let k : Int := (n - ((s.ch c).zref : Int)) % (turn : Int)
  BitVec.ofInt 32 (Num.roundInt (mkRat (k * 2 ^ 32) turn))

/-- HALL states in the positive sense: the index of a state, none for 000 and 111 (R280). -/
def hallIndex : Nat → Option Nat
  | 1 => some 0 | 3 => some 1 | 2 => some 2 | 6 => some 3 | 4 => some 4 | 5 => some 5
  | _ => none

/-- The angle of the boundary below HALL state `k`. -/
def hallAngle (k : Int) : Word := BitVec.ofInt 32 (Num.roundInt (mkRat ((k % 6) * 2 ^ 32) 6))

/-- HALL levels with H1 as bit 2, H2 as bit 1, H3 as bit 0 from levels A, B, Z. -/
def hallCode (levels : Nat) : Nat :=
  4 * (hasBit levels 0).toNat + 2 * (hasBit levels 1).toNat + (hasBit levels 2).toNat

/-- The next step position in a direction of motion, for a channel that counts steps. -/
def State.nextStep (s : State) (c : Nat) (forward : Bool) : Option Word :=
  if s.chMode c = 3 then some (s.abzAngle c ((s.cnt c : Int) + (if forward then 1 else -1)))
  else if s.chMode c = 4 then
    (hallIndex (hallCode (s.ch c).levels)).map fun k => hallAngle (if forward then k + 1 else k)
  else none

/-- What the observer predicts for an instant: angle, speed, acceleration. -/
structure Pred where
  theta : Word
  omega : Rat
  alpha : Rat

/-- The advance of the free prediction from the last update to an instant, in rad. -/
def PosCh.advance (x : PosCh) (t : Nat) : Rat :=
  let d := Num.round24 (esToSec (t - x.last))
  Num.add (Num.mul (Num.val x.omega) d) (Num.div (Num.mul (Num.val x.alpha) (Num.mul d d)) 2)

/-- The farthest advance on the way there, in the direction of motion: a prediction that slows down turns where its
speed is 0. -/
def PosCh.farthest (x : PosCh) (t : Nat) : Rat :=
  let d := esToSec (t - x.last)
  let w := Num.val x.omega
  let a := Num.val x.alpha
  if (w < 0 ∧ 0 < a ∧ -w < a * d) ∨ (0 < w ∧ a < 0 ∧ w < -a * d) then -(w * w) / (2 * a) else x.advance t

/-- The free prediction: the first line of R289. -/
def PosCh.predict (x : PosCh) (t : Nat) : Pred :=
  let d := Num.round24 (esToSec (t - x.last))
  let w := Num.val x.omega
  let a := Num.val x.alpha
  ⟨x.theta + Num.rtoa (x.advance t), Num.add w (Num.mul a d), a⟩

/-- The prediction held short of the next step position until the step comes (R290). -/
def State.predict (s : State) (c t : Nat) : Pred :=
  let x := s.ch c
  let p := x.predict t
  let forward := decide (0 ≤ Num.val x.omega)
  match s.nextStep c forward with
  | none => p
  | some pos =>
      let dist : Rat := (signed32 (pos - x.theta) : Rat) * Num.pi / (2 ^ 31 : Nat)
      let passed := if forward then decide (dist ≤ x.farthest t) else decide (x.farthest t ≤ dist)
      if passed then
        let dt := Num.round24 (esToSec (t - x.stepAt))
        let w := Num.div (unitsToRad (Num.roundInt (s.spacing c))) dt
        ⟨if forward then pos - 1 else pos + 1, if forward then w else -w, 0⟩
      else p

/-- The largest |er| of the window, in rad electrical. -/
def State.noteResid (s : State) (c : Nat) (er : Rat) : State :=
  let r := Num.mul (Num.absR er) (s.emul c : Rat)
  if Num.val (s.ch c).resid < r then s.setCh c { s.ch c with resid := Num.pack r } else s

/-- The factor x of R289 for an interval in s. -/
def State.obsGain (s : State) (c : Nat) (d : Rat) : Rat :=
  min (Num.mul (Num.mul (Num.mul 2 Num.pi) (s.fld (Reg.POS_CHc_OBS c) Fld.POS_CHc_OBS.BW : Nat)) d)
    (mkRat 1 4)

/-- The observer after an update with error `e` from prediction `p` at instant `t`. -/
def PosCh.corrected (x : PosCh) (p : Pred) (g d : Rat) (e : Int) (t : Nat) : PosCh :=
  let er := unitsToRad e
  let g2 := Num.mul g g
  { x with
    theta := p.theta + BitVec.ofInt 32 (Num.roundInt (Num.mul (Num.mul 3 g) (e : Rat))),
    omega := Num.pack (Num.add p.omega (Num.div (Num.mul (Num.mul 3 g2) er) d)),
    alpha := Num.pack (Num.add p.alpha (Num.div (Num.mul (Num.mul g2 g) er) (Num.mul d d))),
    last := t }

/-- The limit of e while a re-acquired channel closes its gap (R295). -/
def State.slewLimit (s : State) (c : Nat) : Int :=
  4 * (s.fld (Reg.POS_CHc_OBS c) Fld.POS_CHc_OBS.RSLEW : Int)

/-- An update by a measurement later than the last (R289), whose prediction is `p`. -/
def State.updateObs (s : State) (c : Nat) (p : Pred) (theta : Word) (t : Nat) : State :=
  let x := s.ch c
  let d := Num.round24 (esToSec (t - x.last))
  let e := signed32 (theta - p.theta)
  let lim := s.slewLimit c
  let slewing := x.slewing && decide (lim < (e.natAbs : Int))
  let e := if slewing then max (-lim) (min lim e) else e
  let s := s.setCh c { x.corrected p (s.obsGain c d) d e t with slewing }
  s.noteResid c (unitsToRad e)

/-! ### Words of the channels (Table POS-2) -/

def State.posValid (s : State) (c : Nat) : Bool :=
  (s.chState c == chTrack || s.chState c == chCoast) &&
  !(s.chMode c == 3 && s.on (Reg.POS_CHc_CFG c) Fld.POS_CHc_CFG.ZREQ &&
    !s.on (Reg.POS_CHc_STAT c) Fld.POS_CHc_STAT.IDXSEEN)

def State.paired (s : State) : Bool := s.on Reg.POS_CFG Fld.POS_CFG.PAIRED
def State.chWord (s : State) (c i : Nat) : Word := s.sig (posBoard c + i)
/-- Sensorless estimate of a machine: validity, angle, speed. -/
def State.sValid (s : State) (m : Nat) : Bool := s.sig (fldBoard m + 10) == 1
def State.sTheta (s : State) (m : Nat) : Word := s.sig (fldBoard m + 8)
def State.sOmega (s : State) (m : Nat) : Word := s.sig (fldBoard m + 9)

/-- The supervision reference of a channel: electrical angle and speed (R298). -/
def State.reference (s : State) (c : Nat) : Option (Word × Word) :=
  if s.paired then
    (if s.chWord (1 - c) 4 = 1 then some (s.chWord (1 - c) 0, s.chWord (1 - c) 1)
     else if s.sValid 0 then some (s.sTheta 0, s.sOmega 0) else none)
  else if s.sValid c then some (s.sTheta c, s.sOmega c) else none

/-! ### Measurements (R293, R295, R297) -/

/-- The first measurement in CHECK: angle from it, speed from the reference where one is valid. -/
def State.firstInCheck (s : State) (c : Nat) (theta : Word) (t : Nat) : State :=
  let w := match s.reference c with
    | some (_, w) => Num.pack (Num.div (Num.val w) (s.emul c : Rat))
    | none => 0
  let x := s.ch c
  let s := s.setCh c { x with theta, omega := w, alpha := 0, last := t, fresh := false,
                              second := (s.reference c).isNone, readmit := false, checkTicks := 0 }
  if x.readmit then
    s.event ⟨UnitCode.pos, 0x603, 0, c, (theta >>> 8) <<< 8⟩
  else s

/-- The second measurement in CHECK without a reference: ω is the change over the interval. -/
def State.secondInCheck (s : State) (c : Nat) (theta : Word) (t : Nat) : State :=
  let x := s.ch c
  let d := Num.round24 (esToSec (t - x.last))
  s.setCh c { x with theta, last := t, second := false,
                     omega := Num.pack (Num.div (unitsToRad (signed32 (theta - x.theta))) d) }

/-- The first valid measurement after a signal loss: it continues the prediction, or it is a phase
jump (R295). -/
def State.reacquire (s : State) (c : Nat) (p : Pred) (theta : Word) (t : Nat) : State :=
  let e := signed32 (theta - p.theta) * (s.emul c : Int)
  if e.natAbs ≤ 8192 then
    let us := satAdd 16 ((t - (s.ch c).coastAt) / 6400) 0
    let s := ((s.setChState c chTrack).setChCause c 0).setCh c { s.ch c with slewing := true }
    let s := s.event ⟨UnitCode.pos, 0x601, 0, c, detailOf [(0, toField 16 e), (16, us)]⟩
    s.updateObs c p theta t
  else s.quarantineCh c causeJump (satSigned 24 e)

/-- A measurement no later than the last update is discarded (R289); in CHECK the first one starts the observer. -/
def State.stale (s : State) (c t : Nat) : Bool :=
  decide (t ≤ (s.ch c).last) && !(s.chState c == chCheck && (s.ch c).fresh)

def State.countStale (s : State) (c : Nat) : State := s.count (Reg.POS_CHc_ZCNT c) Fld.POS_CHc_ZCNT.STALE

/-- A valid measurement of the sensor angle at instant `t`, for which the observer has predicted `p`. -/
def State.measured (s : State) (c : Nat) (p : Pred) (theta : Word) (t : Nat) : State :=
  if s.stale c t then s.countStale c
  else
    let s := (s.setCh c { s.ch c with delivers := true, measAt := t }).f2Ends 0x60A c
    let st := s.chState c
    if st = chQuarantine ∨ st = chOff then s
    else if st = chCheck ∧ (s.ch c).fresh then s.firstInCheck c theta t
    else if st = chCheck ∧ (s.ch c).second then s.secondInCheck c theta t
    else if st = chCoast then s.reacquire c p theta t
    else s.updateObs c p theta t

/-- A measurement of a channel whose counter follows the measured angle. -/
def State.measuredAbs (s : State) (c : Nat) (theta : Word) (t : Nat) : State :=
  if s.stale c t then s.countStale c else (s.followCnt c theta).measured c (s.predict c t) theta t

/-! ### Double steps, glitches, rates (R281, R282) -/

/-- The ticks of a list that lie within the last 1,024, and the present one. -/
def State.within1024 (s : State) (l : List Nat) : List Nat :=
  (l.filter fun k => decide (s.tick < k + 1024)) ++ [s.tick]

def State.doubleStep (s : State) (c : Nat) : State :=
  let l := s.within1024 (s.ch c).dsteps
  let s := (s.count (Reg.POS_CHc_ERR c) Fld.POS_CHc_ERR.DSTEP).setCh c { s.ch c with dsteps := l }
  if 16 ≤ l.length then s.chCause c causeDouble else s

def State.glitch (s : State) (c : Nat) : State :=
  let l := s.within1024 (s.ch c).glitches
  let s := (s.count (Reg.POS_CHc_ERR c) Fld.POS_CHc_ERR.GLITCH).setCh c { s.ch c with glitches := l }
  if 64 ≤ l.length then s.chCause c causeGlitch else s

/-- The rate check at the end of a tick. -/
def State.checkRate (s : State) (c : Nat) : State :=
  let x := s.ch c
  let run := if s.fld (Reg.POS_CHc_FILT c) Fld.POS_CHc_FILT.RATEMAX < x.steps.natAbs then x.rateRun + 1
    else 0
  let s := s.setCh c { x with steps := 0, rateRun := min run 4 }
  if run = 4 then (s.setCh c { s.ch c with rateRun := 0 }).chCause c causeRate else s

/-! ### Index (R283) -/

def State.indexError (s : State) (c : Nat) (d : Int) : State :=
  let n := (s.ch c).zerrs + 1
  let s := (s.count (Reg.POS_CHc_ERR c) Fld.POS_CHc_ERR.IDXERR).setCh c { s.ch c with zerrs := min n 15 }
  let s := s.event ⟨UnitCode.pos, 0x605, 0, c, BitVec.ofNat 32 (toField 24 d)⟩
  if s.fld (Reg.POS_CHc_ABZ c) Fld.POS_CHc_ABZ.ZERRN ≤ n then s.chCause c causeIndex else s

/-- The counter's signed distance from the last index. -/
def State.fromIndex (s : State) (c z : Nat) : Int :=
  signedOf 24 (toField 24 ((s.cnt c : Int) - (z : Int)))

/-- The accepted rising edge of Z. -/
def State.index (s : State) (c : Nat) : State :=
  let x := s.ch c
  let n := s.cnt c
  let s := (s.setFld (Reg.POS_CHc_ZCNT c) Fld.POS_CHc_ZCNT.ZCNT n).setFld (Reg.POS_CHc_STAT c)
    Fld.POS_CHc_STAT.IDXSEEN 1
  let first := s.chState c == chTrack && !x.zset
  let s := s.setCh c { x with zlast := some n, zmissed := false, zset := x.zset || first,
                              zref := if first then n else x.zref }
  match x.zlast with
  | none => s
  | some z =>
      let d := signedOf 24 (toField 24 ((n : Int) - (z : Int)))
      if s.fld (Reg.POS_CHc_ABZ c) Fld.POS_CHc_ABZ.ZTOL < natDiff d.natAbs (4 * s.lines c) then
        s.indexError c d
      else s.setCh c { s.ch c with zerrs := 0 }

/-- The counter has moved past where the next index was due. -/
def State.missingIndex (s : State) (c : Nat) : State :=
  match (s.ch c).zlast with
  | none => s
  | some z =>
      let d := s.fromIndex c z
      if !(s.ch c).zmissed &&
         decide (4 * s.lines c + s.fld (Reg.POS_CHc_ABZ c) Fld.POS_CHc_ABZ.ZTOL + 1 ≤ d.natAbs) then
        (s.setCh c { s.ch c with zmissed := true }).indexError c d
      else s

/-! ### Snapshot and channel transitions by tick (R291, R297) -/

/-- The snapshot at t0. -/
def State.latchCh (s : State) (c : Nat) : State :=
  let s := s.checkRate c
  let x := s.ch c
  let p := s.predict c s.t0
  let snap : PosSnap := { theta := p.theta, omega := Num.pack p.omega, alpha := Num.pack p.alpha,
                          cnt := s.cnt c, wrapn := x.wraps, resid := x.resid,
                          age := Num.pack (Num.round24 (esToSec (s.t0 - x.measAt))) }
  s.setCh c { x with snap, wraps := 0, resid := 0 }

def State.latchPos (s : State) : State := (s.latchCh 0).latchCh 1

/-- DIR with its hysteresis, and DIR_CHANGE (R292). -/
def State.publishDir (s : State) (c : Nat) (speed : Rat) : State :=
  let h := s.real Reg.POS_DIRHYS
  let old := s.chWord c 3
  let new : Word := if h ≤ speed then 1 else if speed ≤ -h then 0 else old
  let s := s.publish (posBoard c + 3) new
  if new = old then s else s.event ⟨UnitCode.pos, 0x604, 0, c, new⟩

/-- Publish the words of a channel at t0 + 150 ns; DEV follows with the supervision. -/
def State.publishCh (s : State) (c : Nat) : State :=
  let x := s.ch c
  let n := x.snap
  let b := posBoard c
  let em : Rat := (s.emul c : Rat)
  let angle := n.theta * BitVec.ofNat 32 (s.emul c) + s.reg (Reg.POS_CHc_OFFSET c)
  let speed := Num.mul (Num.val n.omega) em
  let s := ((s.publish b angle).publishReal (b + 1) speed).publishReal (b + 2)
    (Num.mul (Num.val n.alpha) em)
  let s := s.publishDir c speed
  let s := (s.publishFlag (b + 4) (s.posValid c)).publishFlag (b + 5) (s.chState c == chCoast)
  let s := ((s.publish (b + 6) (BitVec.ofNat 32 n.cnt)).publish (b + 7) (BitVec.ofInt 32 n.wrapn)).publish
    (b + 8) n.resid
  let s := ((s.publish (b + 9) (if s.chMode c = 1 ∨ s.chMode c = 2 then x.ampl else 0)).publish (b + 10)
    n.theta).publish (b + 11) n.age
  s.publish (b + 13) (BitVec.ofNat 32 (s.chState c))

def State.publishPos (s : State) : State := (s.publishCh 0).publishCh 1

/-- The limit of RESID and DEV in CHECK, in rad electrical. -/
def State.agreeRad (s : State) : Rat :=
  Num.round24 (((s.reg Reg.POS_AGREE).toNat : Rat) * Num.pi / (2 ^ 31 : Nat))

/-- A tick in CHECK: READMIT_T ticks that satisfy R297 in a row lead to TRACK. -/
def State.checkTick (s : State) (c : Nat) : State :=
  let x := s.ch c
  if s.chState c ≠ chCheck ∨ x.fresh ∨ x.second then s
  else
    let small := decide (Num.val x.snap.resid < s.agreeRad)
    let near := (s.reference c).isNone || decide (Num.absR (Num.val (s.chWord c 12)) < s.agreeRad)
    let n := if small && near then x.checkTicks + 1 else 0
    if n = s.fld Reg.POS_CFG Fld.POS_CFG.READMIT_T then
      ((s.setChState c chTrack).setChCause c 0).setCh c { x with checkTicks := 0, zset := false, zref := 0 }
    else s.setCh c { x with checkTicks := n }

/-! ### Modes and re-admission (R293, R296, R297, R86) -/

/-- The channel enters CHECK with its dynamic state cleared. -/
def State.enterCheck (s : State) (c : Nat) (readmit : Bool) : State :=
  let s := ((s.setChState c chCheck).setChCause c 0).f2Ends 0x602 c
  s.setCh c { levels := (s.ch c).levels, offsetTick := (s.ch c).offsetTick, frameAt := s.now,
              delivers := (s.ch c).delivers, measAt := (s.ch c).measAt, quadrant := (s.ch c).quadrant,
              periods := (s.ch c).periods, calib := (s.ch c).calib, slow := (s.ch c).slow,
              ssiStart := (s.ch c).ssiStart, ssiNext := (s.ch c).ssiNext, fresh := true, readmit }

/-- MODE is written (Table POS-4): 0 stops the channel, any other value takes it from OFF to CHECK; a running channel
keeps its state and reads the other sensor from its beginning.  The accepted levels of its balls stand. -/
def State.modeWritten (s : State) (c old : Nat) : State :=
  let new := s.chMode c
  let x := s.ch c
  if new = 0 then (s.setChState c chOff).setCh c { levels := x.levels }
  else if new = old then s
  else if s.chState c = chOff then (s.setCh c { levels := x.levels }).enterCheck c false
  else s.setCh c { x with quadrant := none, periods := 0, calib := none, slow := [], ssiStart := none, ssiNext := none,
                          frameAt := s.now }

/-- The configuration registers of a channel. -/
def chRegs (c : Nat) : List Nat :=
  [Reg.POS_CHc_CFG c, Reg.POS_CHc_OFFSET c, Reg.POS_CHc_OBS c, Reg.POS_CHc_FILT c, Reg.POS_CHc_ABZ c,
   Reg.POS_CHc_RES c, Reg.POS_CHc_SENT c, Reg.POS_CHc_SSI c, Reg.POS_CHc_SSI2 c]

/-- CHANNEL_READMIT. -/
def State.channelReadmit (s : State) (c : Nat) : Verdict :=
  if s.chState c ≠ chQuarantine then .done s
  else if (s.ch c).delivers then
    .done (((chRegs c).foldl State.loadReg s).enterCheck c true)
  else .no

end Sys2Proof.Machine
end

