-- ==== Sys2Proof/Machine/PosIn.lean ====
section
/-! DEFINITION. The sensor inputs of the position channels, the angle supervision and the sensor
supplies (R276 to R287, R298 to R300). -/

set_option Elab.async false

namespace Sys2Proof.Machine

/-! ### Resolver and sin/cos (R276 to R278) -/

/-- Amplitude squared in µV². -/
def ampSquared (v w : Int) : Nat := v.natAbs * v.natAbs + w.natAbs * w.natAbs

/-- A pair in the amplitude window. -/
def State.inWindow (s : State) (c : Nat) (v w : Int) : Bool :=
  let a := Reg.POS_CHc_RES c
  let lo := s.fld a Fld.POS_CHc_RES.AMIN * 320000
  let hi := s.fld a Fld.POS_CHc_RES.AMAX * 320000
  decide (lo * lo ≤ ampSquared v w) && decide (ampSquared v w ≤ hi * hi)

/-- Volts of a voltage in µV. -/
def volts (v : Int) : Rat := mkRat v 1000000

/-- The amplitude of a pair, in V. -/
def pairAmp (v w : Int) : Word :=
  Num.pack (Num.sqrt (Num.add (Num.mul (volts v) (volts v)) (Num.mul (volts w) (volts w))))

/-- An out-of-window pair: no measurement; the third in a row is a signal loss. -/
def State.outOfWindow (s : State) (c : Nat) : State :=
  let n := (s.ch c).outRun + 1
  let s := s.setCh c { s.ch c with outRun := min n 3, inRun := 0 }
  if n = 3 then s.signalLoss c causeLoss else s

/-- An in-window pair: after a signal loss the second in a row is the first valid measurement
(R295). -/
def State.pairInWindow (s : State) (c : Nat) (theta : Word) (t : Nat) : State :=
  let n := (s.ch c).inRun + 1
  let s := s.setCh c { s.ch c with outRun := 0, inRun := min n 2 }
  if n < 2 ∧ !(s.ch c).delivers ∧ s.chState c ≠ chTrack then s else s.measuredAbs c theta t

/-- A pair is judged by its amplitude; one in the window gives a sensor angle, but none where a quadrant was
skipped (R278). -/
def State.pair' (s : State) (c : Nat) (v w : Int) (theta : Option Word) (t : Nat) : State :=
  let s := s.setCh c { s.ch c with ampl := pairAmp v w }
  if s.inWindow c v w then
    (match theta with
    | some a => s.pairInWindow c a t
    | none => s.setCh c { s.ch c with outRun := 0, inRun := min ((s.ch c).inRun + 1) 2 })
  else s.outOfWindow c

/-- The amplifier limits the excitation to VEXC − 2 V (R276); `vexc` in mV. -/
def State.excLimit (s : State) (c vexc : Nat) : State :=
  s.setFld (Reg.POS_CHc_STAT c) Fld.POS_CHc_STAT.EXCLIM
    (decide (vexc < s.fld (Reg.POS_CHc_RES c) Fld.POS_CHc_RES.EXCAMP * 250 + 2000)).toNat

/-- The measurement instant of a half-period with its middle at `mid`: EXCPH/256 of a period later. -/
def State.resolverAt (s : State) (c mid : Nat) : Nat :=
  let a := Reg.POS_CHc_RES c
  mid + s.fld a Fld.POS_CHc_RES.EXCPH * (6400000 / s.fld a Fld.POS_CHc_RES.FEXC) / 256

/-- RESOLVER_PAIR (R276, R277): sine and cosine in µV from a half-period with its middle at instant
`mid`; `vexc` is the excitation supply in mV. -/
def execResolverPair (c : Fin 2) (v w : Int) (vexc mid : Nat) (s : State) :
    Host.Outcome State Fault Refusal :=
  .next (if s.chRuns c 1 then
    let t := s.resolverAt c mid
    ((s.at t).excLimit c vexc).pair' c v w (some (Num.atan2 (volts v) (volts w))) t
  else s)

/-- Period counting by quadrant transitions: a skipped quadrant is a double step. -/
def State.quadrantTo (s : State) (c : Nat) (q : Nat) : State × Bool :=
  let x := s.ch c
  match x.quadrant with
  | none => (s.setCh c { x with quadrant := some q }, true)
  | some o =>
      let d := (q + 4 - o) % 4
      let turn : Int := if d = 1 ∧ q = 0 then 1 else if d = 3 ∧ q = 3 then -1 else 0
      if d = 2 then ((s.setCh c { x with quadrant := some q }).doubleStep c, false)
      else (s.setCh c { x with quadrant := some q, periods := (x.periods + turn) % (s.lines c : Int) }, true)

/-- The sensor angle of a sin/cos pair (R278). -/
def State.sincosAngle (s : State) (c : Nat) (a : Word) : Word :=
  BitVec.ofInt 32 (Num.roundInt (mkRat ((s.ch c).periods * 2 ^ 32 + (a.toNat : Int)) (s.lines c)))

/-- SINCOS_PAIR (R278): sine and cosine in µV with the signal offset subtracted, at instant `t`. -/
def execSincosPair (c : Fin 2) (v w : Int) (t : Nat) (s : State) : Host.Outcome State Fault Refusal :=
  .next (if s.chRuns c 2 then
    let a := Num.atan2 (volts v) (volts w)
    let (s, whole) := (s.at t).quadrantTo c (a.toNat / 2 ^ 30)
    s.pair' c v w (if whole then some (s.sincosAngle c a) else none) t
  else s)

/-! ### Edges (R279, R280, R283) -/

/-- The step of a quadrature transition from levels (A, B) to new ones: +1 or −1 with A leading B as
positive, 0 for none, and none for a double step. -/
def quadStep (a b a' b' : Bool) : Option Int :=
  let pos : Bool → Bool → Nat := fun a b => if !a && !b then 0 else if a && !b then 1 else if a && b then 2
    else 3
  let d := (pos a' b' + 4 - pos a b) % 4
  if d = 0 then some 0 else if d = 1 then some 1 else if d = 3 then some (-1) else none

/-- The step between HALL states. -/
def hallStep (old new : Nat) : Option Int :=
  match hallIndex old, hallIndex new with
  | some i, some j =>
      let d := (j + 6 - i) % 6
      if d = 0 then some 0 else if d = 1 then some 1 else if d = 5 then some (-1) else none
  | _, _ => some 0

def State.dirSign (s : State) (c : Nat) : Int :=
  if s.on (Reg.POS_CHc_CFG c) Fld.POS_CHc_CFG.DIRINV then -1 else 1

/-- Move the counter by an accepted step at instant `t`. -/
def State.stepCnt (s : State) (c : Nat) (d : Int) (t : Nat) : State :=
  let s := s.moveCnt c d
  s.setCh c { s.ch c with stepAt := t }

/-- Accepted levels of an ABZ channel, for which the observer has predicted `p`. -/
def State.abzEdge (s : State) (c : Nat) (p : Pred) (old new t : Nat) : State :=
  let s := match quadStep (hasBit old 0) (hasBit old 1) (hasBit new 0) (hasBit new 1) with
    | none => s.doubleStep c
    | some d =>
        if d = 0 then s
        else
          let s := (s.stepCnt c (d * s.dirSign c) t).missingIndex c
          s.measured c p (s.abzAngle c (s.cnt c)) t
  if hasBit new 2 && !hasBit old 2 then s.index c else s

/-- The boundary a HALL step has passed: below the state entered in the positive sense, above it in
the negative one. -/
def hallBoundary (code : Nat) (d : Int) : Word :=
  match hallIndex code with
  | some k => hallAngle (if 0 < d then k else k + 1)
  | none => 0

/-- Accepted levels of a HALL channel, for which the observer has predicted `p`. -/
def State.hallEdge (s : State) (c : Nat) (p : Pred) (old new t : Nat) : State :=
  let o := hallCode old
  let n := hallCode new
  if (hallIndex n).isNone then s.signalLoss c causeLoss
  else match hallStep o n with
    | none => s.doubleStep c
    | some d => if d = 0 then s
        else
          let s := s.stepCnt c (d * s.dirSign c) t
          s.measured c p (hallBoundary n d) t

/-- POS_EDGE_ACCEPTED (R279): new levels A, B, Z that have shown `samples` samples in a row, the first
at instant `t`. -/
def execPosEdgeAccepted (c : Fin 2) (levels : Fin 8) (samples t : Nat) (s : State) :
    Host.Outcome State Fault Refusal :=
  .next (if samples < s.fld (Reg.POS_CHc_FILT c) Fld.POS_CHc_FILT.MINEI then s
  else
    let old := (s.ch c).levels
    let p := s.predict c t
    let s := (s.at t).setCh c { s.ch c with levels := levels }
    if s.chRuns c 3 then s.abzEdge c p old levels t
    else if s.chRuns c 4 then s.hallEdge c p old levels t
    else s)

/-- POS_GLITCH (R279): a change that reverts after `samples` samples, fewer than MINEI. -/
def execPosGlitch (c : Fin 2) (samples : Nat) (s : State) : Host.Outcome State Fault Refusal :=
  .next (if samples < s.fld (Reg.POS_CHc_FILT c) Fld.POS_CHc_FILT.MINEI &&
      (s.chRuns c 3 || s.chRuns c 4 || s.chRuns c 5 || s.chRuns c 6) then s.glitch c else s)

/-! ### SENT (R285) -/

/-- One nibble of the SENT CRC: polynomial x⁴ + x³ + x² + 1. -/
def sentStep (crc : Nat) : Nat :=
  [0, 1, 2, 3].foldl (fun r _ => if 8 ≤ r then (2 * r ^^^ 0x1D) % 16 else 2 * r) crc

/-- The CRC of data nibbles: in the recommended form a zero nibble closes the message. -/
def sentCrc (legacy : Bool) (nibbles : List Nat) : Nat :=
  let r := nibbles.foldl (fun r n => sentStep r ^^^ (n % 16)) 5
  if legacy then r else sentStep r

/-- A SENT frame as received: calibration pulse in fc, data nibbles, CRC nibble, a pause pulse, and a
slow-channel message that it completes. -/
def State.sentCalibOk (s : State) (c cal : Nat) : Bool :=
  let nom := 56 * 5 * s.fld (Reg.POS_CHc_SENT c) Fld.POS_CHc_SENT.TICK
  decide (5 * natDiff cal nom ≤ nom) &&
  match (s.ch c).calib with
  | some p => decide (64 * natDiff cal p ≤ p)
  | none => true

/-- The angle nibbles and, with CMPL, the complements that follow them. -/
def sentAngle (n : List Nat) (first width : Nat) : Nat :=
  ((List.range width).map fun i => n.getD (first - 1 + i) 0 % 16).foldl (fun v d => 16 * v + d) 0

def State.sentOk (s : State) (c cal : Nat) (n : List Nat) (crc : Nat) (pause : Bool) : Bool :=
  let a := Reg.POS_CHc_SENT c
  let first := s.fld a Fld.POS_CHc_SENT.ANGNIB
  let w := 3 + s.fld a Fld.POS_CHc_SENT.ANGW
  s.sentCalibOk c cal && (!pause || s.on a Fld.POS_CHc_SENT.PAUSE) &&
  crc == sentCrc (s.on a Fld.POS_CHc_SENT.CRCLEG) n &&
  (!(s.on a Fld.POS_CHc_SENT.CMPL && w == 3) ||
    sentAngle n first 3 + sentAngle n (first + 3) 3 == 0xFFF)

/-- The latency LAT in es. -/
def State.lat (s : State) (c : Nat) : Nat :=
  s.fld (Reg.POS_CHc_SSI2 c) Fld.POS_CHc_SSI2.LAT * 4 * esPerFc

def State.frameBad (s : State) (c : Nat) : State := s.count (Reg.POS_CHc_ERR c) Fld.POS_CHc_ERR.CRCERR

/-- A valid frame gives its angle. -/
def State.frameGood (s : State) (c : Nat) (theta : Word) (t : Nat) : State :=
  (s.setCh c { s.ch c with frameAt := s.now }).measuredAbs c theta t

/-! The slow channel carries a bit of its message in bit 2 of each status nibble, and its framing in bit 3. -/

/-- The number that a bit of the status nibbles `l` spells, first nibble first. -/
def statusBits (i : Nat) (l : List Nat) : Nat := l.foldl (fun v n => 2 * v + (n.testBit i).toNat) 0

/-- CRC-6 of an enhanced message: polynomial x⁶ + x⁴ + x³ + 1 over its 24 bits, seed 010101. -/
def slowCrc6 (bits : List Bool) : Nat :=
  (bits ++ List.replicate 6 false).foldl (fun r b =>
    let r := 2 * r + b.toNat
    if 64 ≤ r then (r - 64) ^^^ 0x19 else r) 0x15

/-- The ID and data of a short message of 16 frames: ID, data, and the CRC nibble over both. -/
def shortMessage (l : List Nat) : Option (Nat × Nat) :=
  let v := statusBits 2 l
  let id := v / 4096
  let data := v / 16 % 256
  if l.length = 16 ∧ statusBits 3 l = 0x8000 ∧ v % 16 = sentCrc false [id, data / 16, data % 16] then some (id, data)
  else none

/-- The ID and data of an enhanced message of 18 frames: an 8-bit ID with 12 bits of data, or with the configuration
bit set a 4-bit ID with 16. -/
def enhancedMessage (l : List Nat) : Option (Nat × Nat) :=
  let f := statusBits 3 l
  let v := statusBits 2 l
  let covered := (l.drop 6).flatMap fun n => [n.testBit 2, n.testBit 3]
  if l.length = 18 ∧ f / 2048 = 0x7E ∧ f / 32 % 2 = 0 ∧ f % 2 = 0 ∧ v / 4096 = slowCrc6 covered then
    some (if f.testBit 10 then (f / 64 % 16, f / 2 % 16 * 4096 + v % 4096)
      else (f / 64 % 16 * 16 + f / 2 % 16, v % 4096))
  else none

/-- The slow-channel message that the last good frames complete. -/
def slowOf (l : List Nat) : Option (Nat × Nat) :=
  (enhancedMessage (l.drop (l.length - 18))).or (shortMessage (l.drop (l.length - 16)))

/-- The status nibble of a good frame: a slow-channel message that it completes is held in POS_CHc_SLOW. -/
def State.slowFrame (s : State) (c status : Nat) : State :=
  let l := (s.ch c).slow ++ [status]
  match slowOf l with
  | some m => (s.setCh c { s.ch c with slow := [] }).setReg (Reg.POS_CHc_SLOW c)
      (detailOf [(0, m.1), (8, m.2), (24, 1)])
  | none => s.setCh c { s.ch c with slow := l.drop (l.length - 17) }

def State.sentFrame (s : State) (c cal status : Nat) (n : List Nat) (crc : Nat) (pause : Bool) (t : Nat) :
    State :=
  let a := Reg.POS_CHc_SENT c
  let w := 3 + s.fld a Fld.POS_CHc_SENT.ANGW
  let ok := s.sentOk c cal n crc pause
  let v := sentAngle n (s.fld a Fld.POS_CHc_SENT.ANGNIB) w
  let s := s.setCh c { s.ch c with calib := some cal }
  if ok then (s.slowFrame c status).frameGood c (BitVec.ofNat 32 (v * 2 ^ (32 - 4 * w))) (t - s.lat c)
  else (s.setCh c { s.ch c with slow := [] }).frameBad c

/-- SENT_FRAME (R285): a frame whose calibration pulse of `cal` fc starts at instant `start`; its status nibble, its
data nibbles and CRC nibble, and whether it ends in a pause pulse. -/
def execSentFrame (c : Fin 2) (cal status : Nat) (nibbles : List Nat) (crc : Nat) (pause : Bool)
    (start t : Nat) (s : State) : Host.Outcome State Fault Refusal :=
  .next (if s.chRuns c 5 then (s.at t).sentFrame c cal status nibbles crc pause start else s)

/-! ### SSI (R286) -/

/-- The instant at which the next frame starts: OFS after the tick, or back to back at the end of the last monoflop
time; a first frame starts at `t`. -/
def State.ssiStartAt (s : State) (c t : Nat) : Nat :=
  if s.on (Reg.POS_CHc_SSI c) Fld.POS_CHc_SSI.TRIG then (s.ch c).ssiNext.getD t
  else s.t0 + s.fld (Reg.POS_CHc_SSI2 c) Fld.POS_CHc_SSI2.OFS * esPerFc

/-- How long the clock of a frame runs: LEN periods of CLK × 10 kHz, in es. -/
def State.ssiLength (s : State) (c : Nat) : Nat :=
  let a := Reg.POS_CHc_SSI c
  s.fld a Fld.POS_CHc_SSI.LEN * 640000 / max 1 (s.fld a Fld.POS_CHc_SSI.CLK)

/-- The monoflop time in es: TM counts units of 100 fc (Table POS-8). -/
def State.ssiRest (s : State) (c : Nat) : Nat := s.fld (Reg.POS_CHc_SSI2 c) Fld.POS_CHc_SSI2.TM * 100 * esPerFc

/-- SSI_FRAME_START (R286): the clock of a frame starts, at `t` where no frame came before it back to back. -/
def execSsiFrameStart (c : Fin 2) (t : Nat) (s : State) : Host.Outcome State Fault Refusal :=
  .next (if s.chRuns c 6 then
    let st := s.ssiStartAt c t
    (s.at st).setCh c { s.ch c with ssiStart := some st, ssiNext := some (st + s.ssiLength c + s.ssiRest c) }
  else s)

/-- Gray code to binary, from the top bit of `w` bits. -/
def grayToBin (w v : Nat) : Nat :=
  ((List.range w).foldl (fun (acc : Nat × Bool) i =>
    let b := acc.2 ^^ v.testBit (w - 1 - i)
    (2 * acc.1 + b.toNat, b)) (0, false)).1

/-- The angle of a frame, left-aligned. -/
def State.ssiAngle (s : State) (c bits : Nat) : Word :=
  let a := Reg.POS_CHc_SSI c
  let w := s.fld a Fld.POS_CHc_SSI.ANGW
  let v := bits / 2 ^ s.fld a Fld.POS_CHc_SSI.ANGPOS % 2 ^ w
  let v := if s.on a Fld.POS_CHc_SSI.GRAY then grayToBin w v else v
  BitVec.ofNat 32 (v * 2 ^ (32 - w))

/-- SSI_FRAME (R286): the bits of the frame under way, the last bit as bit 0, received by instant `t`, not before the
clock has made LEN periods. -/
def execSsiFrame (c : Fin 2) (bits t : Nat) (s : State) : Host.Outcome State Fault Refusal :=
  .next (match (s.ch c).ssiStart with
  | none => s
  | some st =>
      if s.chRuns c 6 then
        let s := (s.at (max t (st + s.ssiLength c))).setCh c { s.ch c with ssiStart := none }
        if s.on (Reg.POS_CHc_SSI c) Fld.POS_CHc_SSI.ERREN && bits % 2 == 1 then s.frameBad c
        else s.frameGood c (s.ssiAngle c bits) (st - s.lat c)
      else s)

/-! ### Timeouts, coast and excitation (R277, R287, R293) -/

/-- Frame timeout in es. -/
def State.frameTimeout (s : State) (c : Nat) : Nat :=
  s.fld (Reg.POS_CHc_SENT c) Fld.POS_CHc_SENT.FTMO * 64000

/-- FRAME_TIMEOUT (R287): no valid frame for FTMO up to instant `t`. -/
def execFrameTimeout (c : Fin 2) (t : Nat) (s : State) : Host.Outcome State Fault Refusal :=
  .next (if (s.chRuns c 5 || s.chRuns c 6) && decide ((s.ch c).frameAt + s.frameTimeout c ≤ t) then
    (s.at t).signalLoss c causeLoss else s)

/-- COAST_EXPIRED (R293): CTIME has passed since the coast began. -/
def execCoastExpired (c : Fin 2) (t : Nat) (s : State) : Host.Outcome State Fault Refusal :=
  let ctime := s.fld (Reg.POS_CHc_OBS c) Fld.POS_CHc_OBS.CTIME * 640000
  .next (if s.inRun && s.chState c == chCoast && decide ((s.ch c).coastAt + ctime ≤ t) then
    (s.at t).quarantineCh c causeExpired 0 else s)

/-- EXC_FAULT (R277): over-current, or an open output. -/
def execExcFault (c : Fin 2) (opened : Bool) (s : State) : Host.Outcome State Fault Refusal :=
  .next (if s.chRuns c 1 then
    ((s.f2Begins 0x60A c).event ⟨UnitCode.pos, 0x60A, 2, c, BitVec.ofNat 32 opened.toNat⟩).signalLoss c
      causeLoss
  else s)

/-! ### Sensor supplies (R299, R300) -/

def State.supplyAt (s : State) (n : Nat) : Nat := tabGet 0 s.pos.supplyAt n

/-- EN written 1: FAULT clears and the soft start begins. -/
def State.supplyWritten (s : State) (n old : Nat) : State :=
  let a := Reg.POS_SENSVn_CFG n
  if s.on a Fld.POS_SENSVn_CFG.EN ∧ (old = 0 ∨ s.on a Fld.POS_SENSVn_CFG.FAULT) then
    { (s.setFld a Fld.POS_SENSVn_CFG.FAULT 0).f2Ends 0x609 n with
      pos.supplyAt := tabSet 0 s.pos.supplyAt n s.now }
  else s

/-- A supply switches off for a fault. -/
def State.supplyFault (s : State) (n : Nat) (low : Bool) : State :=
  let s := (s.setFld (Reg.POS_SENSVn_CFG n) Fld.POS_SENSVn_CFG.FAULT 1).f2Begins 0x609 n
  let s := s.event ⟨UnitCode.pos, 0x609, 2, n, detailOf [(0, n), (8, low.toNat)]⟩
  [0, 1].foldl (fun s c =>
    if s.fld (Reg.POS_CHc_CFG c) Fld.POS_CHc_CFG.SUPPLY = n + 1 then s.signalLoss c causeSupply else s) s

/-- SENSV_FAULT (R300): over-current, or under-voltage, for 100 µs up to instant `t`; a supply is
monitored from 1 ms after its enable. -/
def execSensvFault (n : Fin 2) (low : Bool) (t : Nat) (s : State) : Host.Outcome State Fault Refusal :=
  let a := Reg.POS_SENSVn_CFG n
  .next (if s.on a Fld.POS_SENSVn_CFG.EN && !s.on a Fld.POS_SENSVn_CFG.FAULT &&
      decide (s.supplyAt n + esPerMs ≤ t) then (s.at t).supplyFault n low else s)

/-! ### Angle supervision (R298) -/

/-- Two angles agree. -/
def State.agree (s : State) (a b : Word) : Bool :=
  decide ((signed32 (a - b)).natAbs ≤ (s.reg Reg.POS_AGREE).toNat)

/-- Publish DEV of a channel against its reference. -/
def State.publishDev (s : State) (c : Nat) : State :=
  let dev := match s.reference c with
    | some (a, _) => Num.pack (unitsToRad (signed32 (s.chWord c 0 - a)))
    | none => 0
  s.publish (posBoard c + 12) dev

/-- Units of a machine. -/
def State.machineUnits (s : State) (m : Nat) : Nat := (s.bridgesOf m).foldl (fun w b => withBit w b) 0

/-- Start of an F3 cause of the supervision, once, and its end. -/
def State.angleCause (s : State) (code m valid : Nat) (on : Bool) : State :=
  let tag := causeTag code m
  if on then
    (if s.causeActive (16 + 23) tag then s
     else s.f3 ⟨UnitCode.pos, code, 3, m, detailOf [(0, m), (4, valid)]⟩ tag (s.machineUnits m))
  else s.endCause (16 + 23) tag

/-- ANGLE_NONE is evaluated only while a unit of the machine is out of safe state. -/
def State.machineActive (s : State) (m : Nat) : Bool := (s.bridgesOf m).any fun b => !s.isSafe b

/-- A channel outvoted, or not, in a tick. -/
def State.outvote (s : State) (c : Nat) (out : Bool) : State :=
  let n := if out then (s.ch c).outvoted + 1 else 0
  let lim := s.fld Reg.POS_CFG Fld.POS_CFG.NDIS
  let s := (s.setFld (Reg.POS_CHc_STAT c) Fld.POS_CHc_STAT.OUTV out.toNat).setCh c
    { s.ch c with outvoted := min n 255 }
  if out ∧ n = lim then s.chCause c causeOutvoted else s

/-- The sensorless estimate outvoted, or not, in a tick. -/
def State.outvoteS (s : State) (out : Bool) : State :=
  let was := s.pos.sOut
  let s := { s with pos.sOut := if out then 1 else 0 }
  if out && was == 0 then s.event ⟨UnitCode.pos, 0x606, 0, 0, 2⟩ else s

/-- Ticks of disagreement of two sources in a row, kept with channel `c`. -/
def State.disagreeing (s : State) (c : Nat) (on : Bool) : State × Bool :=
  let n := if on then (s.ch c).disagree + 1 else 0
  (s.setCh c { s.ch c with disagree := min n 255 },
   decide (s.fld Reg.POS_CFG Fld.POS_CFG.NDIS ≤ n))

/-- A tick after a change of OFFSET is not compared, and the counts restart (R301). -/
def State.skipCompare (s : State) (c : Nat) : Bool := (s.ch c).offsetTick == s.tick && s.tick != 0

/-- Both channels read one rotor: the vote of A, B and S. -/
def State.votePaired (s : State) : State :=
  let a := s.chWord 0 0
  let b := s.chWord 1 0
  let e := s.sTheta 0
  let va := s.chWord 0 4 == 1
  let vb := s.chWord 1 4 == 1
  let ve := s.sValid 0
  let valid := va.toNat + 2 * vb.toNat + 4 * ve.toNat
  let ab := s.agree a b
  let ae := s.agree a e
  let be := s.agree b e
  let three := va && vb && ve
  let s := (s.outvote 0 (three && be && !ab && !ae)).outvote 1 (three && ae && !ab && !be)
  let s := s.outvoteS (three && ab && !ae && !be)
  let split := !three && ((va && vb && !ab) || (va && ve && !ae) || (vb && ve && !be))
  let (s, long) := s.disagreeing 0 split
  let s := s.angleCause 0x607 0 valid ((three && !ab && !ae && !be) || (split && long))
  s.angleCause 0x608 0 valid (valid == 0 && s.machineActive 0)

/-- A valid channel whose OFFSET has just changed is not compared: the tick makes no vote (Table POS-5). -/
def State.supervisePaired (s : State) : State :=
  if [0, 1].any (fun c => s.chWord c 4 == 1 && s.skipCompare c) then s.angleCause 0x608 0 0 false else s.votePaired

/-- A channel against the sensorless estimate of its own machine. -/
def State.superviseOne (s : State) (c : Nat) : State :=
  let vc := s.chWord c 4 == 1
  let ve := s.sValid c
  let skip := s.skipCompare c
  let valid := (vc.toNat <<< c) + 4 * ve.toNat
  let (s, long) := s.disagreeing c (vc && ve && !skip && !s.agree (s.chWord c 0) (s.sTheta c))
  let s := if skip then s else s.angleCause 0x607 c valid (long && vc && ve)
  s.angleCause 0x608 c valid (!vc && !ve && s.machineActive c)

/-- The supervision at t0 + 150 ns. -/
def State.supervise (s : State) : State :=
  let s := (s.publishDev 0).publishDev 1
  let s := if s.paired then s.supervisePaired else (s.superviseOne 0).superviseOne 1
  (s.checkTick 0).checkTick 1

end Sys2Proof.Machine
end

