-- ==== Sys2Proof/Machine/Estim.lean ====
section
/-! DEFINITION. Field control: machines, the back-EMF and HFI estimators and the sensorless estimate
(R305 to R309, R325 to R329). -/

set_option Elab.async false

namespace Sys2Proof.Machine

def State.fm (s : State) (m : Nat) : FldM := tabGet {} s.fldc.machines m
def State.setFm (s : State) (m : Nat) (x : FldM) : State :=
  { s with fldc.machines := tabSet {} s.fldc.machines m x }

/-! ### Fields of FLD_MCm_STAT -/

def State.fldMode (s : State) (m : Nat) : Nat := s.fld (Reg.FLD_MCm_STAT m) Fld.FLD_MCm_STAT.MODE
def State.fldSrc (s : State) (m : Nat) : Nat := s.fld (Reg.FLD_MCm_STAT m) Fld.FLD_MCm_STAT.SRC
def State.fldStart (s : State) (m : Nat) : Nat := s.fld (Reg.FLD_MCm_STAT m) Fld.FLD_MCm_STAT.START
def State.fldLost (s : State) (m : Nat) : Bool := s.on (Reg.FLD_MCm_STAT m) Fld.FLD_MCm_STAT.LOST
def State.setStat (s : State) (m : Nat) (f : Bits) (v : Nat) : State := s.setFld (Reg.FLD_MCm_STAT m) f v

abbrev modeOff : Nat := 0
abbrev modeSensored : Nat := 1
abbrev modeHfi : Nat := 2
abbrev modeEmf : Nat := 3
abbrev modeAuto : Nat := 4

abbrev srcHfi : Nat := 2
abbrev srcEmf : Nat := 3
abbrev srcBlend : Nat := 4
abbrev srcOpen : Nat := 5

abbrev stIdle : Nat := 0
abbrev stWatch : Nat := 1
abbrev stAlign : Nat := 2
abbrev stPolarity : Nat := 3
abbrev stRamp : Nat := 4
abbrev stCatch : Nat := 5
abbrev stRun : Nat := 6
abbrev stWait : Nat := 7
abbrev stFailed : Nat := 8

/-- Every bridge of the machine is in safe state; a bridge of it is. -/
def State.allSafe (s : State) (m : Nat) : Bool := (s.bridgesOf m).all s.isSafe
def State.anySafe (s : State) (m : Nat) : Bool := (s.bridgesOf m).any s.isSafe
/-- The bridge whose state the estimators follow. -/
def State.mainBridge (s : State) (m : Nat) : Nat := (s.bridgesOf m).headD m

/-! ### Inputs (R325) -/

/-- Period of the window just closed, s (T_PREV). -/
def State.tPrev (s : State) : Rat := Num.val (s.sig 0x103)

/-- Window average of a SAR input as published. -/
def State.avgOf (s : State) (k : Nat) : Rat := Num.val (s.sig (0x110 + 4 * k))

def State.currents (s : State) (m : Nat) : Rat × Rat :=
  let a := Reg.FLD_MCm_INP m
  clarke (s.avgOf (s.fld a Fld.FLD_MCm_INP.IA)) (s.avgOf (s.fld a Fld.FLD_MCm_INP.IB))
    (s.avgOf (s.fld a Fld.FLD_MCm_INP.IC))

/-- The estimator's voltage by the state of the bridge. -/
def State.emfVoltage (s : State) (m : Nat) : Rat × Rat :=
  let b := s.mainBridge m
  let a := Reg.FLD_MCm_VIN m
  if s.unitState b = stateAscL ∨ s.unitState b = stateAscH then (0, 0)
  else if s.isSafe b || s.heldOff b then
    clarke (s.avgOf (s.fld a Fld.FLD_MCm_VIN.VA)) (s.avgOf (s.fld a Fld.FLD_MCm_VIN.VB))
      (s.avgOf (s.fld a Fld.FLD_MCm_VIN.VC))
  else (Num.val (s.fm m).winAlpha, Num.val (s.fm m).winBeta)

/-- Rotate a stationary pair into the frame at angle `a`. -/
def toFrame (x : Rat × Rat) (a : Word) : Rat × Rat :=
  let sc := Num.sincos a
  park x.1 x.2 sc.2 sc.1
/-- Rotate a pair out of a frame, or from one frame into another, by angle `a`. -/
def fromFrame (x : Rat × Rat) (a : Word) : Rat × Rat :=
  let sc := Num.sincos a
  ipark x.1 x.2 sc.2 sc.1

/-- An angle advanced at speed `w` for a time `d`. -/
def advance (a : Word) (w d : Rat) : Word := a + Num.rtoa (Num.mul w d)

def hypot (x y : Rat) : Rat := Num.sqrt (Num.add (Num.mul x x) (Num.mul y y))

def State.rs (s : State) (m : Nat) : Rat := s.real (Reg.FLD_MCm_RS m)
def State.ld (s : State) (m : Nat) : Rat := s.real (Reg.FLD_MCm_LD m)
def State.lq (s : State) (m : Nat) : Rat := s.real (Reg.FLD_MCm_LQ m)
def State.emin (s : State) (m : Nat) : Rat := s.real (Reg.FLD_MCm_EMIN m)
def State.resLim (s : State) (m : Nat) : Rat := s.real (Reg.FLD_MCm_RESLIM m)

/-- One axis of the back-EMF: `v − rs·i − ld·(i − i_prev)/t + c`. -/
def emfAxis (v rs i ld ip t c : Rat) : Rat :=
  Num.add (Num.sub (Num.sub v (Num.mul rs i)) (Num.div (Num.mul ld (Num.sub i ip)) t)) c

/-- The gain x of a tracker of bandwidth `bw` Hz over an interval. -/
def trackGain (bw : Nat) (d : Rat) : Rat :=
  min (Num.mul (Num.mul (Num.mul 2 Num.pi) (bw : Rat)) d) (mkRat 1 4)

/-! ### Back-EMF estimator (R326) -/

/-- The estimator starts anew: it waits for its first two windows with a back-EMF. -/
def EmfEst.reinit (e : EmfEst) : EmfEst := { e with init := 1, valid := false, low := 0 }

/-- A window of the running estimator. -/
def State.emfRun (s : State) (m : Nat) (e : EmfEst) : EmfEst :=
  let t := s.tPrev
  let w := Num.val e.omega
  let mid := advance e.theta w (Num.div t 2)
  let i := s.currents m
  let id := toFrame i mid
  let vd := toFrame (s.emfVoltage m) mid
  let cross := Num.mul w (s.lq m)
  let ed := emfAxis vd.1 (s.rs m) id.1 (s.ld m) (Num.val e.prevD) t (Num.mul cross id.2)
  let eq := emfAxis vd.2 (s.rs m) id.2 (s.ld m) (Num.val e.prevQ) t (-(Num.mul cross id.1))
  let sg : Rat := if 0 ≤ w then 1 else -1
  let eps := Num.ator (Num.atan2 (-(sg * ed)) (sg * eq))
  let x := trackGain (s.fld (Reg.FLD_MCm_BW m) Fld.FLD_MCm_BW.BWE) t
  let mag := hypot ed eq
  let low := if mag < s.emin m then e.low + 1 else 0
  { e with
    theta := advance e.theta w t + Num.rtoa (Num.mul (Num.mul 2 x) eps),
    omega := Num.pack (Num.add w (Num.div (Num.mul (Num.mul x x) eps) t)),
    prevD := Num.pack id.1, prevQ := Num.pack id.2, prevA := Num.pack i.1, prevB := Num.pack i.2,
    eps := Num.pack (Num.absR eps), mag := Num.pack mag, ed := Num.pack ed, eq := Num.pack eq,
    valid := decide (s.emin m ≤ mag) && decide (Num.absR eps ≤ s.resLim m),
    low := low, init := if 4 ≤ low then 1 else 0 }

/-- A window of a reinitialisation: e in the stationary frame, at rest. -/
def State.emfInit (s : State) (m : Nat) (e : EmfEst) : EmfEst :=
  let t := s.tPrev
  let i := s.currents m
  let v := s.emfVoltage m
  let ea := emfAxis v.1 (s.rs m) i.1 (s.ld m) (Num.val e.prevA) t 0
  let eb := emfAxis v.2 (s.rs m) i.2 (s.ld m) (Num.val e.prevB) t 0
  let mag := hypot ea eb
  let ang := Num.atan2 eb ea
  let e := { e with prevA := Num.pack i.1, prevB := Num.pack i.2, mag := Num.pack mag, valid := false,
                    ed := 0, eq := 0, eps := 0 }
  if mag < s.emin m then { e with init := 1, low := min (e.low + 1) 4 }
  else if e.init = 1 then { e with init := 2, first := ang, low := 0 }
  else
    let w := Num.div (unitsToRad (signed32 (ang - e.first))) t
    let th := if 0 ≤ w then ang - 0x40000000 else ang + 0x40000000
    let f := toFrame i th
    { e with init := 0, theta := th, omega := Num.pack w, prevD := Num.pack f.1, prevQ := Num.pack f.2,
             low := 0 }

/-- The back-EMF estimator at a boundary, while ESTEN is 1. -/
def State.emfTick (s : State) (m : Nat) : State :=
  if s.on (Reg.FLD_MCm_CFG m) Fld.FLD_MCm_CFG.ESTEN then
    let e := (s.fm m).est
    let e := if e.init = 0 then s.emfRun m e else s.emfInit m e
    s.setFm m { s.fm m with est := e }
  else s.setFm m { s.fm m with est := { (s.fm m).est with valid := false } }

/-! ### HFI estimator (R327, R328) -/

/-- The angle and the speed of the control source as published (Table FLD-2). -/
def State.thetaCtl (s : State) (m : Nat) : Word := s.sig (fldBoard m)
def State.omegaCtl (s : State) (m : Nat) : Rat := Num.val (s.sig (fldBoard m + 1))
def State.alphaCtl (s : State) (m : Nat) : Rat := Num.val (s.sig (fldBoard m + 2))

/-- The injection frame at the centre of the window just closed. -/
def State.injFrame (s : State) (m : Nat) : Word :=
  advance (s.thetaCtl m) (s.omegaCtl m) (Num.div s.tPrev 2)

/-- The estimate carried to an instant before `t0` by `back` seconds. -/
def State.hfiAt (s : State) (h : HfiEst) (back : Rat) : Word :=
  advance h.theta (Num.val h.omega) (Num.sub (Num.round24 (esToSec (s.t0 - h.at_))) back)

/-- Injection restarts at an angle and a speed. -/
def State.hfiStart (s : State) (m : Nat) (theta omega : Word) : State :=
  s.setFm m { s.fm m with hfi := { theta, omega, at_ := s.t0 } }

/-- The sign in force in the window just closed, and in the one before: what was injected two and
three boundaries ago. -/
def HfiEst.windowSigns (h : HfiEst) : Int × Int := (h.signs.getD 1 0, h.signs.getD 2 0)

/-- An update by the difference of two windows of one sign. -/
def State.hfiUpdate (s : State) (m : Nat) (h : HfiEst) (sg : Int) (iq : Rat) : HfiEst :=
  let t := s.tPrev
  let di := (sg : Rat) * Num.sub iq (Num.val h.prevQ)
  let gain := Num.mul (Num.mul (s.real (Reg.FLD_MCm_VHFI m)) t)
    (Num.sub (Num.div 1 (s.ld m)) (Num.div 1 (s.lq m)))
  let err := Num.ator (s.injFrame m - s.hfiAt h (Num.div t 2))
  let eps := Num.add (Num.div di gain) err
  let d := Num.round24 (esToSec (s.t0 - h.at_))
  let x := trackGain (s.fld (Reg.FLD_MCm_BW m) Fld.FLD_MCm_BW.BWH) d
  let w := Num.val h.omega
  { h with
    theta := advance h.theta w d + Num.rtoa (Num.mul (Num.mul 2 x) eps),
    omega := Num.pack (Num.add w (Num.div (Num.mul (Num.mul x x) eps) d)),
    at_ := s.t0, eps := Num.pack (Num.absR eps),
    conv := if Num.absR eps < mkRat 1 20 then min (h.conv + 1) 16 else 0 }

/-- The HFI estimator at a boundary: windows whose sign equals that of the window before update it. -/
def State.hfiTick (s : State) (m : Nat) : State :=
  let h := (s.fm m).hfi
  let iq := (toFrame (s.currents m) (s.injFrame m)).2
  let (a, b) := h.windowSigns
  let h := if a ≠ 0 ∧ a = b then s.hfiUpdate m h a iq else h
  s.setFm m { s.fm m with hfi := { h with prevQ := Num.pack iq } }

/-- Injection is on: HFI mode, or AUTO below WB2, with the machine's outputs switching in a state
that injects. -/
def State.injecting (s : State) (m : Nat) : Bool :=
  (s.fldMode m == modeHfi || (s.fldMode m == modeAuto && (s.fm m).inject)) &&
  (s.fldStart m == stAlign || s.fldStart m == stRun) && !s.allSafe m

/-- The sign sequence +, +, −, −. -/
def hfiSign (step : Nat) : Int := if step % 4 < 2 then 1 else -1
/-- The pulses of the polarity test. -/
def polSign (step : Nat) : Int := if step < 2 then 1 else if step < 4 then 0 else if step < 6 then -1 else 0

/-- Publish HFI_V for this tick. -/
def State.publishHfi (s : State) (m : Nat) : State :=
  let x := s.fm m
  let h := x.hfi
  let a := fldBoard m + 12
  let push : Int → Nat → HfiEst := fun sg st => { h with signs := (sg :: h.signs).take 4, step := st }
  if s.fldStart m = stPolarity then
    (s.setFm m { x with hfi := push 0 0 }).publishReal a
      ((polSign x.polStep : Rat) * s.real (Reg.FLD_MCm_POLV m))
  else if s.injecting m then
    (s.setFm m { x with hfi := push (hfiSign h.step) (h.step + 1) }).publishReal a
      ((hfiSign h.step : Rat) * s.real (Reg.FLD_MCm_VHFI m))
  else (s.setFm m { x with hfi := push 0 0 }).publishReal a 0

/-! ### The sensorless estimate S (R329) -/

/-- Angle, speed, |ε| and validity of an estimate. -/
structure SEst where
  theta : Word
  omega : Rat
  eps : Rat
  valid : Bool

def State.emfS (s : State) (m : Nat) : SEst :=
  let e := (s.fm m).est
  ⟨e.theta, Num.val e.omega, Num.val e.eps, e.valid⟩

def State.hfiS (s : State) (m : Nat) : SEst :=
  let h := (s.fm m).hfi
  ⟨s.hfiAt h 0, Num.val h.omega, Num.val h.eps, h.ok⟩

def clamp01 (q : Rat) : Rat := if q < 0 then 0 else if 1 < q then 1 else q

/-- The weight of the back-EMF estimate in AUTO by the speed of S. -/
def State.autoWeight (s : State) (m : Nat) (w : Rat) : Rat :=
  let w1 := s.real (Reg.FLD_MCm_WB1 m)
  let w2 := s.real (Reg.FLD_MCm_WB2 m)
  if w2 ≤ w1 then (if w1 ≤ Num.absR w then 1 else 0)
  else clamp01 (Num.div (Num.sub (Num.absR w) w1) (Num.sub w2 w1))

def State.hoLimit (s : State) (m : Nat) : Nat := s.fld (Reg.FLD_MCm_HO m) Fld.FLD_MCm_HO.HOLIM * 65536

/-- The short-way difference of the two estimates. -/
def State.estGap (s : State) (m : Nat) : Nat := (signed32 ((s.emfS m).theta - (s.hfiS m).theta)).natAbs

/-- The weight that the speed of S asks for: an HFI estimate that has not converged takes none. -/
def State.weightAsked (s : State) (m : Nat) : Rat :=
  let w := s.autoWeight m (Num.val (s.sig (fldBoard m + 9)))
  if !(s.hfiS m).valid && w < 1 then (if (s.fm m).est.valid then 1 else w) else w

/-- A blend whose estimates differ by more than HOLIM. -/
def State.holdsWeight (s : State) (m : Nat) : Bool :=
  let w := s.weightAsked m
  decide (0 < w) && decide (w < 1) && decide (s.hoLimit m < s.estGap m)

/-- The weight in force: a blend whose estimates differ by more than HOLIM holds its last value. -/
def State.weightNow (s : State) (m : Nat) : Rat :=
  if s.holdsWeight m then Num.val (s.fm m).weight else s.weightAsked m

/-- The blend of the two estimates. -/
def State.blendS (s : State) (m : Nat) (w : Rat) : SEst :=
  let h := s.hfiS m
  let e := s.emfS m
  let d := signed32 (e.theta - h.theta)
  ⟨h.theta + BitVec.ofInt 32 (Num.roundInt (w * (d : Rat))),
   Num.add h.omega (Num.mul w (Num.sub e.omega h.omega)),
   if w = 0 then h.eps else if w = 1 then e.eps else max h.eps e.eps,
   (w == 1 || h.valid) && (w == 0 || e.valid)⟩

/-- S by the mode. -/
def State.sEst (s : State) (m : Nat) : SEst :=
  if s.fldMode m = modeHfi then s.hfiS m
  else if s.fldMode m = modeAuto then s.blendS m (Num.val (s.fm m).weight)
  else s.emfS m

/-- HFI starts anew at the back-EMF estimate (R329). -/
def State.hfiFromEmf (s : State) (m : Nat) : State :=
  let e := (s.fm m).est
  s.hfiStart m e.theta e.omega

/-- The weight of this boundary; a weight held at its last value is reported once, as a first deferral under
R323 is. -/
def State.takeWeight (s : State) (m : Nat) : State :=
  let held := s.holdsWeight m
  let first := held && !(s.fm m).weightHeld
  let s := s.setFm m { s.fm m with weight := Num.pack (s.weightNow m), weightHeld := held }
  if first then s.event ⟨UnitCode.fld, 0x701, 0, m, BitVec.ofNat 32 (satAdd 32 (s.estGap m) 0)⟩ else s

/-- AUTO: the weight of this boundary; injection stops above WB2 and resumes below WB1 at the
back-EMF estimate. -/
def State.autoTick (s : State) (m : Nat) : State :=
  if s.fldMode m ≠ modeAuto then s
  else
    let s := s.takeWeight m
    let w := Num.absR (s.sEst m).omega
    if (s.fm m).inject ∧ s.real (Reg.FLD_MCm_WB2 m) < w then s.setFm m { s.fm m with inject := false }
    else if !(s.fm m).inject ∧ w < s.real (Reg.FLD_MCm_WB1 m) then
      let s := s.hfiFromEmf m
      s.setFm m { s.fm m with inject := true }
    else s

/-- In AUTO an HFI estimate that resumes beside a valid back-EMF estimate takes weight once it converges; in HFI
mode only polarity success makes it valid. -/
def State.hfiConverged (s : State) (m : Nat) : State :=
  let x := s.fm m
  if s.fldMode m = modeAuto ∧ s.fldStart m = stRun ∧ x.hfi.conv = 16 ∧ !x.hfi.ok then
    s.setFm m { x with hfi := { x.hfi with ok := true } }
  else s

/-- Publish S. -/
def State.publishS (s : State) (m : Nat) : State :=
  let e := s.sEst m
  let b := fldBoard m
  (((s.publish (b + 8) e.theta).publishReal (b + 9) e.omega).publishFlag (b + 10) e.valid).publishReal
    (b + 11) e.eps

end Sys2Proof.Machine
end

