-- ==== Sys2Proof/Machine/Field.lean ====
section
/-! DEFINITION. Field control: hold-off, start states, mode handovers, lost rotor and recapture,
exciter watch (R305 to R312, R323, R324, R330 to R339). -/

set_option Elab.async false

namespace Sys2Proof.Machine

/-! ### Hold-off (R308) -/

/-- Outputs held off: in mode OFF and in WATCH, WAIT and FAILED. -/
def State.holdsOff (s : State) (m : Nat) : Bool :=
  let st := s.fldStart m
  s.fldMode m == modeOff || st == stWatch || st == stWait || st == stFailed

/-- Bring the override of a machine's bridges up to date; the carries clear while it is in force. -/
def State.refreshHold (s : State) (m : Nat) : State :=
  let off := s.holdsOff m
  let bs := s.bridgesOf m
  let held := bs.foldl (fun w b => if off then withBit w b else withoutBit w b) s.prot.heldOff
  if held = s.prot.heldOff then s
  else
    let s := { s.settle with prot.heldOff := held }
    let ks := bs.flatMap s.pairsOf
    let s := if off then ks.foldl State.clearCarry s else s
    s.regate ks

/-! ### Start states (Table FLD-6) -/

/-- HO_FIRST reads 1 to each stall in its next run (R324). -/
def State.raiseHoFirst (s : State) (m : Nat) : State :=
  s.addRestart ((List.range 128).map fun n => (n, hoFirst m))

/-- Enter a start state. -/
def State.setStart (s : State) (m st : Nat) : State :=
  let s := s.setStat m Fld.FLD_MCm_STAT.START st
  (s.setFm m { s.fm m with startAt := s.now, startTick := s.tick }).refreshHold m

/-- WATCH: the back-EMF estimator reinitialises. -/
def State.enterWatch (s : State) (m : Nat) : State :=
  let x := s.fm m
  (s.setFm m { x with est := x.est.reinit, quiet := true }).setStart m stWatch

def State.dirReq (s : State) (m : Nat) : Nat := s.fld (Reg.FLD_MCm_DIR m) Fld.FLD_MCm_DIR.DIRREQ

/-- The control channel: the one in use, ANGSRC while none is. -/
def State.ctlChannel (s : State) (m : Nat) : Nat :=
  if s.fldSrc m < 2 then s.fldSrc m else s.fld (Reg.FLD_MCm_CFG m) Fld.FLD_MCm_CFG.ANGSRC

/-- The speed a catch is made at: that of the control channel in SENSORED mode, that of the back-EMF estimate,
whose state passes to the control source, in every other. -/
def State.catchSpeed (s : State) (m : Nat) : Rat :=
  if s.fldMode m = modeSensored then Num.val (s.chWord (s.ctlChannel m) 1) else (s.emfS m).omega

/-- What a catch hands the control source: in SENSORED mode E_D = E_Q = 0 is published at once (R330); HFI goes on
from the back-EMF estimate (R332). -/
def State.catchSource (s : State) (m : Nat) : State :=
  if s.fldMode m = modeSensored then (s.publish (fldBoard m + 14) 0).publish (fldBoard m + 15) 0
  else if s.fldMode m = modeHfi ∨ s.fldMode m = modeAuto then s.hfiFromEmf m else s

/-- The caught speed is against the requested direction. -/
def against (req : Nat) (w : Rat) : Bool := (req == 1 && decide (w < 0)) || (req == 2 && decide (0 < w))

/-- CATCH (R332): zero-current start at the estimator's state. -/
def State.enterCatch (s : State) (m : Nat) : State :=
  let w := s.catchSpeed m
  let rev := against (s.dirReq m) w
  let s := s.catchSource m
  let s := (s.setFm m { s.fm m with jump := true, blend := none, reverse := rev, attempt := false }).setStart
    m stCatch
  let s := (s.raiseHoFirst m).event ⟨UnitCode.fld, 0x70A, 0, m, Num.pack w⟩
  if rev then s.event ⟨UnitCode.fld, 0x70B, 0, m, Num.pack w⟩ else s

/-- A start from rest begins an attempt (R333). -/
def State.enterAttempt (s : State) (m st : Nat) : State :=
  let x := s.fm m
  let s := s.setFm m { x with attempt := true, travel := 0, jump := true, blend := none,
                              ifTheta := s.thetaCtl m, ifOmega := 0, polTries := 0 }
  (if st = stAlign then s.hfiStart m (s.thetaCtl m) 0 else s).setStart m st

/-- Where a start from rest goes: HFI_ALIGN, IFRAMP, or none (R331). -/
def State.restState (s : State) (m : Nat) : Nat :=
  if s.fldMode m = modeHfi ∨ s.fldMode m = modeAuto then stAlign
  else if s.on (Reg.FLD_MCm_START m) Fld.FLD_MCm_START.IFEN then stRamp else stFailed

def State.retry (s : State) (m : Nat) : Nat := s.fld (Reg.FLD_MCm_STAT m) Fld.FLD_MCm_STAT.RETRY

/-- FAILED: START_FAIL, and source 23 acts on the machine's bridges. -/
def State.startFails (s : State) (m reason : Nat) : State :=
  (s.setStart m stFailed).f3 ⟨UnitCode.fld, 0x709, 3, m, detailOf [(8, reason)]⟩
    (causeTag 0x709 m) (s.machineUnits m)

/-- A failed attempt (R333): WAIT and START_RETRY, or FAILED once the attempts are exhausted. -/
def State.attemptFails (s : State) (m reason : Nat) : State :=
  let n := s.retry m + 1
  let s := (s.setStat m Fld.FLD_MCm_STAT.RETRY (min n 15)).setFm m { s.fm m with attempt := false }
  if s.fld (Reg.FLD_MCm_START m) Fld.FLD_MCm_START.RETRIES < n then s.startFails m reason
  else (s.setStart m stWait).event
    ⟨UnitCode.fld, 0x708, 0, m, detailOf [(0, n), (8, reason)]⟩

/-- RUN. -/
def State.enterRun (s : State) (m : Nat) : State := s.setStart m stRun

/-- A requested handover is dropped: none is deferred. -/
def State.dropHo (s : State) (m : Nat) : State :=
  (s.setStat m Fld.FLD_MCm_STAT.DEFER 0).setFm m { s.fm m with ho := none }

/-- IDLE. -/
def State.enterIdle (s : State) (m : Nat) : State :=
  let s := s.dropHo m
  (s.setFm m { s.fm m with attempt := false }).setStart m stIdle

/-- Go where a start state leads: CATCH, or a start from rest. -/
def State.goStart (s : State) (m st : Nat) : State :=
  if st = stCatch then s.enterCatch m
  else if st = stFailed then s.startFails m 3
  else s.enterAttempt m st

/-- With its bridge released, a machine catches at once in SENSORED mode and watches in the others; in OFF it stays
in IDLE (Table FLD-6). -/
def State.startMode (s : State) (m : Nat) : State :=
  if s.fldMode m = modeOff then s
  else if s.fldMode m = modeSensored then s.enterCatch m
  else s.enterWatch m

/-! ### Release (R330, R336, R337) -/

/-- A bridge leaves safe state by the host (`auto` false) or by the internal caravan; in mode OFF its machine
stays in IDLE (Table FLD-6). -/
def State.fldRelease (s : State) (b : Nat) (auto : Bool) : State :=
  let m := if s.paired then 0 else b
  if 2 ≤ b ∨ s.fldStart m ≠ stIdle then s
  else
    let s := s.setStat m Fld.FLD_MCm_STAT.RETRY 0
    let s := s.endCause (16 + 23) (causeTag 0x709 m)
    let s := if auto then s else s.setStat m Fld.FLD_MCm_STAT.ATTEMPT 0
    let plan := (s.fm m).plan
    let s := s.setFm m { s.fm m with plan := 0, catchDue := false }
    if auto ∧ plan ≠ 0 then s.goStart m plan
    else s.startMode m

/-! ### Watch (R331, R335) -/

/-- LOSTm clears: source 22 is inactive for the machine. -/
def State.clearLost (s : State) (m : Nat) : State :=
  ((s.setStat m Fld.FLD_MCm_STAT.LOST 0).endCause (16 + 22) m).endCause (16 + 23) (causeTag 0x70E m)

/-- What the end of a watch finds: a start state, or WAIT. -/
def State.watchFinding (s : State) (m : Nat) : Nat :=
  let e := s.emfS m
  let wc := s.real (Reg.FLD_MCm_WCATCH m)
  if e.valid && decide (wc ≤ Num.absR e.omega) then stCatch
  else if (s.fm m).quiet || (e.valid && decide (Num.absR e.omega < wc)) then s.restState m
  else stWait

/-- The end of a watch in safe state, after a lost rotor: an inconclusive one counts as a failed attempt; otherwise
LOSTm clears, and a recapture falls due at the next boundary while fewer than three have been made. -/
def State.lostWatchEnds (s : State) (m find : Nat) : State :=
  if find = stWait then s.attemptFails m 3
  else
    let s := (s.clearLost m).enterIdle m
    let more := decide (s.fld (Reg.FLD_MCm_STAT m) Fld.FLD_MCm_STAT.ATTEMPT < 3) &&
      s.on (Reg.FLD_MCm_CFG m) Fld.FLD_MCm_CFG.AUTOCATCH
    s.setFm m { s.fm m with plan := find, catchDue := more }

/-- The watch of a machine ends with a finding. -/
def State.watchEnds (s : State) (m find : Nat) : State :=
  if s.allSafe m then s.lostWatchEnds m find
  else if find = stWait then s.attemptFails m 3
  else s.goStart m find

/-- Length of the watch, in es. -/
def State.watchLen (s : State) (m : Nat) : Nat :=
  s.fld (Reg.FLD_MCm_START m) Fld.FLD_MCm_START.FSWATCH * esPerMs

/-- WATCH_END (R331): FSWATCH has passed since the watch began, at instant `t`. -/
def execWatchEnd (m : Fin 2) (t : Nat) (s : State) : Host.Outcome State Fault Refusal :=
  .next (if s.inRun && s.fldStart m == stWatch && decide ((s.fm m).startAt + s.watchLen m ≤ t) then
    (s.at t).watchEnds m (s.watchFinding m) else s)

/-- WAIT_END (R330): twice FSWATCH has passed in WAIT. -/
def execWaitEnd (m : Fin 2) (t : Nat) (s : State) : Host.Outcome State Fault Refusal :=
  .next (if s.inRun && s.fldStart m == stWait && decide ((s.fm m).startAt + 2 * s.watchLen m ≤ t) then
    (s.at t).enterWatch m else s)

/-- CATCH_END (R330): CATCHT = 8 ticks have passed in CATCH. -/
def execCatchEnd (m : Fin 2) (s : State) : Host.Outcome State Fault Refusal :=
  .next (if s.fldStart m = stCatch ∧ (s.fm m).startTick + 8 ≤ s.tick then s.enterRun m else s)

/-! ### MODE_SET (R305, R307) -/

/-- The weight a machine enters AUTO with: that in force, or the one its speed asks for. -/
def State.weightIn (s : State) (m : Nat) : Rat :=
  if s.fldMode m = modeAuto then Num.val (s.fm m).weight else s.weightAsked m

/-- HFI and AUTO begin with injection on, AUTO below WB2; HFI starts at the back-EMF estimate unless it runs
already (R329). -/
def State.startInjection (s : State) (m old mode : Nat) (w : Rat) : State :=
  if mode ≠ modeHfi ∧ mode ≠ modeAuto then s
  else
    let on := mode == modeHfi || !decide (s.real (Reg.FLD_MCm_WB2 m) < Num.absR (s.sEst m).omega)
    let ran := old == modeHfi || (old == modeAuto && (s.fm m).inject)
    let s := if ran then s else s.hfiFromEmf m
    s.setFm m { s.fm m with inject := on, weight := Num.pack w, weightHeld := false }

/-- A mode takes effect: MODE_CHANGE; OFF clears LOSTm, FAILED is left, and a machine that leaves OFF with its
bridge released starts as at a release. -/
def State.takeMode (s : State) (m mode : Nat) : State :=
  let old := s.fldMode m
  let w := s.weightIn m
  let s := s.startInjection m old mode w
  let s := (s.setStat m Fld.FLD_MCm_STAT.MODE mode).event
    ⟨UnitCode.fld, 0x700, 0, m, detailOf [(0, old), (4, mode)]⟩
  let s := if mode = modeOff then s.clearLost m else s
  let s := if s.fldStart m = stFailed ∨ mode = modeOff then s.enterIdle m else s
  let s := s.refreshHold m
  if old = modeOff ∧ s.fldStart m = stIdle ∧ !s.allSafe m then s.startMode m else s

def State.modeRefused (s : State) (m mode : Nat) : Bool :=
  (s.paired && m == 1 && mode != 0) ||
  (decide (2 ≤ mode) && s.on (Reg.FLD_MCm_CFG m) Fld.FLD_MCm_CFG.WRSM) ||
  ((mode == modeHfi || mode == modeAuto) &&
    (!s.on (Reg.FLD_MCm_CFG m) Fld.FLD_MCm_CFG.HFIEN ||
      decide (s.lq m < Num.mul (mkRat 11 10) (s.ld m))))

def modeOf (w3 : Word) : Nat := if 4 < w3.toNat then 0 else w3.toNat

/-- MODE_SET. -/
def State.modeSet (s : State) (m : Nat) (w3 w4 : Word) : Verdict :=
  let mode := modeOf w3
  let blend := min 255 w4.toNat
  let clamped := decide (4 < w3.toNat) || decide (255 < w4.toNat)
  if s.modeRefused m mode then .no
  else if mode = s.fldMode m then .doneClamp (s.dropHo m) clamped
  else if s.allSafe m || s.fldStart m == stWatch then
    let s := s.dropHo m
    .doneClamp ((s.setFm m { s.fm m with jump := true }).takeMode m mode) clamped
  else
    let s := s.dropHo m
    .doneClamp (s.setFm m { s.fm m with ho := some ⟨some mode, blend, 0⟩ }) clamped

/-! ### Control source (R311, R312, R323, R324) -/

/-- Angle, speed and acceleration of a source, with its validity. -/
structure Source where
  theta : Word
  omega : Rat
  alpha : Rat
  valid : Bool

/-- A source by its SRC code. -/
def State.source (s : State) (m src : Nat) : Source :=
  if src < 2 then
    ⟨s.chWord src 0, Num.val (s.chWord src 1), Num.val (s.chWord src 2), s.chWord src 4 == 1⟩
  else if src = srcOpen then
    let x := s.fm m
    ⟨x.ifTheta, Num.val x.ifOmega, 0, true⟩
  else
    let e := if src = srcHfi then s.hfiS m else if src = srcEmf then s.emfS m
      else s.blendS m (s.weightIn m)
    ⟨e.theta, e.omega, 0, e.valid⟩

def State.angSrc (s : State) (m : Nat) : Nat := s.fld (Reg.FLD_MCm_CFG m) Fld.FLD_MCm_CFG.ANGSRC

/-- The source of AUTO by the weight, that of entry while another mode is in force. -/
def State.autoSrc (s : State) (m : Nat) : Nat :=
  let w := s.weightIn m
  if w = 0 then srcHfi else if w = 1 then srcEmf else srcBlend

/-- The source SENSORED uses while ANGSRC is not valid, none while no source is. -/
def State.fallback (s : State) (m : Nat) : Option Nat :=
  let c := s.angSrc m
  if s.paired && s.chWord (1 - c) 4 == 1 then some (1 - c)
  else if (s.emfS m).valid then some srcEmf else none

/-- The source a mode asks for. -/
def State.wanted' (s : State) (m mode : Nat) : Nat :=
  if mode = modeOff then (if s.chWord (s.angSrc m) 4 = 1 then s.angSrc m else srcEmf)
  else if mode = modeSensored then s.angSrc m
  else if mode = modeHfi then srcHfi
  else if mode = modeEmf then srcEmf else s.autoSrc m

/-- A SENSORED machine moves to another source at once: SOURCE_FALLBACK. -/
def State.fallTo (s : State) (m src : Nat) : State :=
  let s := (s.setStat m Fld.FLD_MCm_STAT.SRC src).setFm m { s.fm m with blend := none }
  (s.f2Begins 0x705 m).event ⟨UnitCode.fld, 0x705, 2, m, BitVec.ofNat 32 src⟩

def HoReq.source (r : HoReq) (s : State) (m : Nat) : Nat := s.wanted' m (r.mode.getD (s.fldMode m))

/-- A handover begins: the mode takes effect, and HO_FIRST reads 1. -/
def State.beginHo (s : State) (m : Nat) (r : HoReq) : State :=
  let out := s.fldSrc m
  let inn := r.source s m
  let b := if r.blend = 0 then none else some (Blend.mk out inn 1 r.blend)
  let s := match r.mode with
    | some mode => s.takeMode m mode
    | none => s
  let s := if s.fldMode m = modeSensored ∧ inn = s.angSrc m then s.f2Ends 0x705 m else s
  let s := (s.setStat m Fld.FLD_MCm_STAT.DEFER 0).setStat m Fld.FLD_MCm_STAT.SRC inn
  (s.setFm m { s.fm m with ho := none, blend := b, jump := false }).raiseHoFirst m

/-- A handover is deferred; after HOTMO · 64 boundaries it is dropped. -/
def State.deferHo (s : State) (m : Nat) (r : HoReq) (d : Nat) : State :=
  let n := r.deferred + 1
  let s := if n = 1 then
      (s.setStat m Fld.FLD_MCm_STAT.DEFER 1).event ⟨UnitCode.fld, 0x701, 0, m, BitVec.ofNat 32 (satAdd 32 d 0)⟩
    else s
  if s.fld (Reg.FLD_MCm_HO m) Fld.FLD_MCm_HO.HOTMO * 64 < n then
    ((s.setStat m Fld.FLD_MCm_STAT.DEFER 0).setFm m { s.fm m with ho := none }).event
      ⟨UnitCode.fld, 0x702, 0, m, BitVec.ofNat 32 (r.mode.getD (s.fldMode m))⟩
  else s.setFm m { s.fm m with ho := some { r with deferred := n } }

/-- A requested handover at a boundary: it begins when both angles are valid and near. -/
def State.tryHo (s : State) (m : Nat) : State :=
  match (s.fm m).ho with
  | none => s
  | some r =>
    if r.mode = none ∧ r.source s m = s.fldSrc m then s.dropHo m
    else
      let o := s.source m (s.fldSrc m)
      let i := s.source m (r.source s m)
      let d := (signed32 (i.theta - o.theta)).natAbs
      if o.valid && i.valid && decide (d ≤ s.hoLimit m) then s.beginHo m r else s.deferHo m r d

/-- A change of source that the mode itself asks for, with a blend of 16: the return of R312, made at a boundary at
which ANGSRC is valid, and the crossings of the AUTO band, deferred while the incoming source is not valid. -/
def State.ownHo (s : State) (m : Nat) : State :=
  let want := s.wanted' m (s.fldMode m)
  let free := (s.fm m).ho.isNone && (s.fm m).blend.isNone && s.fldStart m != stRamp
  if free && want != s.fldSrc m && (s.fldMode m == modeAuto || (s.source m want).valid) then
    s.setFm m { s.fm m with ho := some ⟨none, 16, 0⟩ }
  else s

/-- The control source is taken at once, without blend. -/
def State.takeSource (s : State) (m src : Nat) : State :=
  (s.setStat m Fld.FLD_MCm_STAT.SRC src).setFm m { s.fm m with jump := false, blend := none }

/-- The source of this boundary before any handover. After a jump it is taken anew; a SENSORED machine whose source
is not valid falls back (R312); in mode OFF a blend that leads there goes on toward the source of OFF. -/
def State.pickSource (s : State) (m : Nat) : State :=
  let jump := (s.fm m).jump
  let want := s.wanted' m (s.fldMode m)
  if s.fldStart m = stRamp then (if jump then s.takeSource m srcOpen else s)
  else if s.fldMode m = modeSensored then
    let src := if jump then want else s.fldSrc m
    let s := if jump then s.takeSource m want else s
    if (s.source m src).valid then s
    else match s.fallback m with
      | some dst => if dst = src then s else s.fallTo m dst
      | none => s
  else if jump then s.takeSource m want
  else if s.fldMode m = modeOff then
    (s.setStat m Fld.FLD_MCm_STAT.SRC want).setFm m
      { s.fm m with blend := (s.fm m).blend.map fun b => { b with inn := want } }
  else s

/-- The residual of the source of a sensorless machine is beyond RESLIM. -/
def State.residualHigh (s : State) (m : Nat) : Bool :=
  let src := s.fldSrc m
  let w := Num.val (s.fm m).weight
  let h := decide (s.resLim m < (s.hfiS m).eps)
  let e := decide (s.resLim m < (s.emfS m).eps)
  if src = srcHfi then h else if src = srcEmf then e
  else if src = srcBlend then (w != 1 && h) || (w != 0 && e) else false

/-- The control angle is predicted from its last speed: no source of a SENSORED machine is valid, or the residual
is too high in RUN (R312, R334). -/
def State.predicting (s : State) (m : Nat) : Bool :=
  (s.fldMode m == modeSensored && !(s.source m (s.fldSrc m)).valid) ||
  (s.fldStart m == stRun && s.residualHigh m)

/-- A value between two by the weight j/N. -/
def between (a b : Rat) (w : Rat) : Rat := Num.add a (Num.mul w (Num.sub b a))

/-- The control values of this boundary. -/
def State.controlNow (s : State) (m : Nat) : Word × Rat × Rat :=
  if s.predicting m then (advance (s.thetaCtl m) (s.omegaCtl m) s.tPrev, s.omegaCtl m, 0)
  else match (s.fm m).blend with
    | none => let v := s.source m (s.fldSrc m); (v.theta, v.omega, v.alpha)
    | some b =>
        let o := s.source m b.out
        let i := s.source m b.inn
        let w := mkRat b.j b.n
        (o.theta + BitVec.ofInt 32 (Num.roundInt (w * (signed32 (i.theta - o.theta) : Rat))),
         between o.omega i.omega w, between o.alpha i.alpha w)

/-- A blend makes its next step at the next boundary; an I-f start reaches RUN at its end. -/
def State.stepBlend (s : State) (m : Nat) : State :=
  match (s.fm m).blend with
  | none => s
  | some b =>
      if b.j < b.n then s.setFm m { s.fm m with blend := some { b with j := b.j + 1 } }
      else
        let s := s.setFm m { s.fm m with blend := none }
        if s.fldStart m = stRamp ∧ b.inn ≠ srcOpen then s.enterRun m else s

/-! ### Attempts (R328, R333) -/

def reqSign (req : Nat) : Int := if req = 2 then -1 else 1

/-- The I-f start advances its angle; it asks for the back-EMF estimate once that is fast enough, and
fails after 2 · IFW / IFACC. -/
def State.rampTick (s : State) (m : Nat) : State :=
  if s.fldStart m ≠ stRamp then s
  else
    let x := s.fm m
    let t := s.tPrev
    let acc := s.real (Reg.FLD_MCm_IFACC m)
    let w := Num.val x.ifOmega
    let s := s.setFm m { x with
      ifTheta := advance x.ifTheta w t,
      ifOmega := Num.pack (Num.add w (Num.mul ((reqSign (s.dirReq m) : Rat) * acc) t)) }
    let e := s.emfS m
    let ifw := s.real (Reg.FLD_MCm_IFW m)
    if e.valid && decide (ifw ≤ Num.absR e.omega) && (s.fm m).ho.isNone && (s.fm m).blend.isNone then
      s.setFm m { s.fm m with ho := some ⟨none, 16, 0⟩ }
    else if (s.fm m).blend.isNone &&
        decide (Num.mul 2 (Num.div ifw acc) < esToSec (s.now - (s.fm m).startAt)) then s.attemptFails m 2
    else s

/-- HFI_ALIGN leads to POLARITY once the estimate has converged. -/
def State.alignTick (s : State) (m : Nat) : State :=
  if s.fldStart m = stAlign ∧ (s.fm m).hfi.conv = 16 then
    (s.setFm m { s.fm m with polStep := 0, polTries := 0 }).setStart m stPolarity
  else s

/-- The polarity stands, is opposite, or is undecided: repeat, or fail (R328). -/
def State.polDecide (s : State) (m : Nat) (plus minus : Rat) : State :=
  let x := s.fm m
  let good := fun (h : HfiEst) => (s.setFm m { x with hfi := { h with ok := true } }).enterRun m
  if minus * mkRat 33 32 < plus then good x.hfi
  else if plus * mkRat 33 32 < minus then
    (good { x.hfi with theta := x.hfi.theta + 0x80000000 }).raiseHoFirst m
  else if x.polTries < s.fld (Reg.FLD_MCm_START m) Fld.FLD_MCm_START.POLRET then
    s.setFm m { x with polStep := 0, polTries := x.polTries + 1 }
  else (s.event ⟨UnitCode.fld, 0x707, 0, m, BitVec.ofNat 32 (s.retry m + 1)⟩).attemptFails m 1

/-- A boundary of the polarity test, whose pulse `polStep` was published at the boundary before: what is published
at a boundary governs the tick after the one it opens, so the window of the second + tick (step 1) closes two
boundaries later, and so does that of the second − tick (step 5). The test ends with its eighth tick. -/
def State.polTick (s : State) (m : Nat) : State :=
  if s.fldStart m ≠ stPolarity then s
  else
    let x := s.fm m
    let id := (toFrame (s.currents m) (s.injFrame m)).1
    if x.polStep = 2 then s.setFm m { x with polStep := 3, polPlus := Num.pack id }
    else if x.polStep = 6 then s.setFm m { x with polStep := 7, polMinus := Num.pack (-id) }
    else if x.polStep = 7 then s.polDecide m (Num.val x.polPlus) (Num.val x.polMinus)
    else s.setFm m { x with polStep := x.polStep + 1 }

/-- The travel test of an attempt: it succeeds at WCATCH in the requested direction, and fails beyond
the backward allowance. -/
def State.travelTick (s : State) (m : Nat) (moved : Int) (w : Rat) : State :=
  let x := s.fm m
  let req := s.dirReq m
  let lim : Int := (s.fld (Reg.FLD_MCm_START m) Fld.FLD_MCm_START.BACKANG * 2 ^ 24 : Nat)
  if !x.attempt then s
  else
    let forward := if req = 2 then -w else w
    let speed := if req = 0 then Num.absR w else forward
    let tr := x.travel + moved * reqSign req
    let s := s.setFm m { x with travel := tr }
    if s.real (Reg.FLD_MCm_WCATCH m) ≤ speed then s.setFm m { s.fm m with attempt := false }
    else if req ≠ 0 ∧ tr < -lim then s.attemptFails m 0
    else s

/-! ### Lost rotor and lost field (R334, R337, R339) -/

/-- A rotor is lost: source 22 acts on the machine's bridges; after the third recapture no more is
made. -/
def State.rotorLost (s : State) (m kind : Nat) : State :=
  let s := (s.setFm m { s.fm m with lostRun := 0 }).setStat m Fld.FLD_MCm_STAT.LOST 1
  let s := s.event ⟨UnitCode.fld, 0x70C, 3, m, BitVec.ofNat 32 kind⟩
  let n := s.fld (Reg.FLD_MCm_STAT m) Fld.FLD_MCm_STAT.ATTEMPT
  let s := s.raise (16 + 22) m (s.machineUnits m)
  if n = 3 ∧ s.on (Reg.FLD_MCm_CFG m) Fld.FLD_MCm_CFG.AUTOCATCH then
    s.f3 ⟨UnitCode.fld, 0x70E, 3, m, BitVec.ofNat 32 n⟩ (causeTag 0x70E m) (s.machineUnits m)
  else s

/-- The count toward a lost rotor. -/
def State.lostTick (s : State) (m : Nat) : State :=
  let src := s.fldSrc m
  let res := s.residualHigh m
  let low := s.fldMode m == modeEmf && decide (Num.val (s.fm m).est.mag < s.emin m)
  let counts := s.fldStart m == stRun && decide (2 ≤ src) && src != srcOpen && (res || low) &&
    !s.causeActive (16 + 23) (causeTag 0x608 m)
  let n := if counts then (s.fm m).lostRun + 1 else 0
  let s := s.setFm m { s.fm m with lostRun := min n 255 }
  if counts ∧ n = s.fld (Reg.FLD_MCm_HO m) Fld.FLD_MCm_HO.NLOST then
    s.rotorLost m (if res then 0 else 1)
  else s

/-- The recapture count resets after RCRST · 100 ms of continuous RUN. -/
def State.attemptsExpire (s : State) (m : Nat) : State :=
  if s.fldStart m = stRun ∧ (s.fm m).startAt +
      s.fld (Reg.FLD_MCm_BW m) Fld.FLD_MCm_BW.RCRST * 100 * esPerMs ≤ s.now then
    s.setStat m Fld.FLD_MCm_STAT.ATTEMPT 0
  else s

/-- The exciter watch of a wound-rotor machine. -/
def State.fieldTick (s : State) (m : Nat) : State :=
  let lim := s.real (Reg.FLD_MCm_IFLOSS m)
  let i := s.avgOf (s.fld (Reg.FLD_MCm_INP m) Fld.FLD_MCm_INP.FIN)
  let watched := s.on (Reg.FLD_MCm_CFG m) Fld.FLD_MCm_CFG.WRSM && !s.isSafe unitExciter && !s.allSafe m
  let low := watched && decide (Num.mul 2 lim ≤ Num.val (s.fm m).ifRef) && decide (i < lim)
  let n := if low then (s.fm m).fieldRun + 1 else 0
  let s := s.setFm m { s.fm m with fieldRun := min n 255 }
  let tag := causeTag 0x70F m
  if low ∧ n = s.fld (Reg.FLD_MCm_HO m) Fld.FLD_MCm_HO.NLOST then
    s.f3 ⟨UnitCode.fld, 0x70F, 3, m, Num.pack i⟩ tag (withBit (s.machineUnits m) unitExciter)
  else if low then s else s.endCause (16 + 23) tag

/-! ### Boundary evaluation -/

/-- A machine whose bridges are all in safe state returns to IDLE; with LOSTm set a watch starts once
the bridge is in SPO (R335). -/
def State.safeTick (s : State) (m : Nat) : State :=
  let st := s.fldStart m
  if !s.allSafe m then s
  else if s.fldLost m then
    (if s.unitState (s.mainBridge m) = stateSpo then
      (if st = stWatch ∨ st = stWait then s else s.enterWatch m)
     else if st = stIdle then s else s.enterIdle m)
  else if st = stIdle then s
  else (s.endCause (16 + 23) (causeTag 0x709 m)).enterIdle m

/-- A window of a watch: its second half stays quiet while |e| is below EMIN, and STAND = ASC with
VALID ends it in CATCH. -/
def State.watchTick (s : State) (m : Nat) : State :=
  if s.fldStart m ≠ stWatch then s
  else
    let x := s.fm m
    let later := decide (x.startAt + s.watchLen m / 2 < s.t0)
    let loud := decide (s.emin m ≤ Num.val x.est.mag)
    s.setFm m { x with quiet := x.quiet && !(later && loud) }

/-- STAND = ASC with VALID = 1 ends a watch at that boundary, in SPO after a lost rotor as well (R331, R335): the
machine goes to CATCH. -/
def State.standEnds (s : State) (m : Nat) : State :=
  let a := Reg.PROT_BRb_STAT (s.mainBridge m)
  if s.fldStart m = stWatch ∧ s.on a Fld.PROT_BRb_STAT.STAND ∧ s.on a Fld.PROT_BRb_STAT.VALID then
    s.watchEnds m stCatch
  else s

/-- The phase advance by |OMEGA_CTL| (R314). -/
def State.advanceOf (s : State) (m : Nat) (w : Rat) : Word :=
  let d := s.dir (s.fld (Reg.FLD_MCm_CFG m) Fld.FLD_MCm_CFG.PADV)
  if d.kind = 2 ∧ d.outw = 1 ∧ d.nx = 256 then s.lookupAng d (Num.absR w) 0 else 0

/-- Whole angle units of a rotation in radians, not wrapped. -/
def wholeUnits (a : Rat) : Int := Num.roundInt (a * (2 ^ 31 : Nat) / Num.pi)

/-- The continuous angle at an instant (R315). -/
def State.turnAt (s : State) (m t : Nat) : Int :=
  let x := s.fm m
  let d := Num.round24 (esToSec (t - x.baseAt))
  x.turn + wholeUnits (Num.add (Num.mul (s.omegaCtl m) d)
    (Num.div (Num.mul (s.alphaCtl m) (Num.mul d d)) 2))

/-- Re-base the continuous angle to the control angle of this boundary: the angle moved. -/
def State.rebase (s : State) (m : Nat) (theta : Word) : Int × State :=
  let now := s.turnAt m s.t0
  let new := now + signed32 (theta - BitVec.ofInt 32 now)
  (new - (s.fm m).turn, s.setFm m { s.fm m with turn := new, baseAt := s.t0 })

/-- E in the control frame: rotated from the estimator's frame. -/
def State.publishEmf (s : State) (m : Nat) : State :=
  let e := (s.fm m).est
  let b := fldBoard m
  if s.fldMode m = modeSensored ∧ s.fldStart m = stCatch then (s.publish (b + 14) 0).publish (b + 15) 0
  else
    let v := fromFrame (Num.val e.ed, Num.val e.eq) (e.theta - s.thetaCtl m)
    (s.publishReal (b + 14) v.1).publishReal (b + 15) v.2

/-- Publish the control angle and re-base the continuous angle. -/
def State.publishControl (s : State) (m : Nat) : State :=
  let (th, w, a) := s.controlNow m
  let (moved, s) := s.rebase m th
  let b := fldBoard m
  let s := ((s.publish b th).publishReal (b + 1) w).publishReal (b + 2) a
  let s := s.publish (b + 16) (s.advanceOf m w)
  s.travelTick m moved w

/-- The other words of Table FLD-2. -/
def State.publishMachine (s : State) (m : Nat) : State :=
  let b := fldBoard m
  let x := s.fm m
  let n : Nat → Word := BitVec.ofNat 32
  let s := ((s.publish (b + 3) (n (s.fldSrc m))).publish (b + 4) (n (s.fldMode m))).publish (b + 5)
    (n (s.fldStart m))
  let s := (s.publishFlag (b + 6) (s.eng.restart.any fun e => e.2 == hoFirst m)).publish (b + 7)
    (n ((x.blend.map (·.n)).getD 0))
  let s := s.publishReal (b + 13) (if s.fldStart m = stRamp then s.real (Reg.FLD_MCm_IFI m) else 0)
  let s := s.publishFlag (b + 17) (s.on (Reg.FLD_MCm_STAT m) Fld.FLD_MCm_STAT.SIXSTEP)
  let s := (s.publishFlag (b + 18) (s.anySafe m)).publishFlag (b + 19) x.reverse
  s.publish (b + 20) (n (s.dirReq m))

/-- The evaluation of a machine at t0 + 150 ns; BLEND_N is published before the blend moves on. -/
def State.fieldMachine (s : State) (m : Nat) : State :=
  let s := ((s.emfTick m).hfiTick m).hfiConverged m
  let s := (((s.autoTick m).safeTick m).watchTick m)
  let s := ((s.polTick m).alignTick m).rampTick m
  let s := ((s.pickSource m).ownHo m).tryHo m
  let s := s.publishControl m
  let s := ((s.lostTick m).fieldTick m).attemptsExpire m
  let s := ((s.publishHfi m).publishS m).publishEmf m
  (s.publishMachine m).stepBlend m

end Sys2Proof.Machine
end

