-- ==== Sys2Proof/Machine/Commut.lean ====
section
/-! DEFINITION. Angle events, six-step commutation and the internal caravan of a recapture
(R315 to R322, R336). -/

set_option Elab.async false

namespace Sys2Proof.Machine

/-! ### Masks written by field control -/

/-- Write MASK of a pair, register and mask in force alike. -/
def State.writeMask (s : State) (k code : Nat) : State :=
  let s := s.setFld (Reg.PAIRk_MASK k) Fld.PAIRk_MASK.CODE code
  (s.setForce (Reg.PAIRk_MASK k) (s.reg (Reg.PAIRk_MASK k))).setMask k code

/-! ### Six-step (R319 to R322) -/

/-- Sector boundary `B_k`. -/
def sectorBound (k : Nat) : Nat := (Num.roundInt (mkRat ((2 * k + 1) * 2 ^ 32) 12)).toNat

/-- The sector an angle lies in: sector k runs from `B_(k-1)` to `B_k`. -/
def sectorOf (a : Word) : Nat := ((List.range 6).filter fun k => decide (sectorBound k ≤ a.toNat)).length % 6

/-- Masks of the pairs U, V, W in a sector (Table FLD-5). -/
def sectorMasks (k : Nat) : List Nat :=
  let h := maskHOn
  let l := maskLOn
  ([[h, l, l], [h, h, l], [l, h, l], [l, h, h], [l, l, h], [h, l, h]] : List (List Nat)).getD k []

/-- DIR of the control source: the channel's, or the sign of OMEGA_CTL. -/
def State.ctlForward (s : State) (m : Nat) : Bool :=
  let src := s.fldSrc m
  if src < 2 then s.chWord src 3 == 1 else !decide (s.omegaCtl m < 0)

/-- The offset δ of the voltage angle. -/
def State.seqOffset (s : State) (m : Nat) : Word :=
  let adv := s.sig (fldBoard m + 16)
  let lo := (s.fm m).loadang
  if s.ctlForward m then lo + adv else lo - adv

/-- Sector of the voltage angle of a bridge at an instant; bridge B of a six-phase machine lags 30°. -/
def State.sectorAt (s : State) (m b t : Nat) : Nat :=
  let v := BitVec.ofInt 32 (s.turnAt m t) + s.seqOffset m
  sectorOf (if s.paired && b == unitBridgeB then v - BitVec.ofNat 32 (Num.roundInt (mkRat (2 ^ 32) 12)).toNat
    else v)

def State.writeMasks (s : State) (ks cs : List Nat) : State :=
  (ks.zip cs).foldl (fun s e => s.writeMask e.1 e.2) s

def State.seqOn (s : State) (m : Nat) : Bool := s.on (Reg.FLD_MCm_STAT m) Fld.FLD_MCm_STAT.SIXSTEP

/-- The masks of the present sectors of a machine's bridges come into force; SECTOR shows that of its own bridge. -/
def State.seqWrite (s : State) (m t : Nat) : State :=
  let s := s.setStat m Fld.FLD_MCm_STAT.SECTOR (s.sectorAt m (s.mainBridge m) t)
  (s.bridgesOf m).foldl (fun s b => s.writeMasks (s.pairsOf b) (sectorMasks (s.sectorAt m b t))) s.settle

/-- SIXSTEP_CROSSING (R319): the voltage angle crosses a sector boundary at instant `t`. -/
def execSixstepCrossing (m : Fin 2) (t : Nat) (s : State) : Host.Outcome State Fault Refusal :=
  .next (if s.seqOn m then (s.at t).seqWrite m (max s.now t) else s)

def State.setSeqDefer (s : State) (m n : Nat) : State := s.setFm m { s.fm m with seqDefer := n }

/-- Entry at a boundary, or its deferral; the sixteenth in a row posts SIXSTEP_DEFER. -/
def State.seqEnter (s : State) (m : Nat) : State :=
  let x := s.fm m
  let sector := s.sectorAt m (s.mainBridge m) s.now
  if x.vertex = sector then
    ((s.setSeqDefer m 0).setStat m Fld.FLD_MCm_STAT.SIXSTEP 1).seqWrite m s.now
  else
    let n := min 17 (x.seqDefer + 1)
    let s := s.setSeqDefer m n
    if n = 16 then s.event ⟨UnitCode.fld, 0x706, 0, m, detailOf [(0, x.vertex), (4, sector)]⟩ else s

/-- The sequencer of a machine at a boundary: it runs on, stops with its masks at PWM, or enters. -/
def State.seqBoundary (s : State) (m : Nat) : State :=
  let full := decide (3 ≤ (s.fm m).modreg)
  if (s.bridgesOf m).isEmpty then s
  else if s.seqOn m then
    (if full then s.seqWrite m s.now
     else
      let s := s.setStat m Fld.FLD_MCm_STAT.SIXSTEP 0
      ((s.bridgesOf m).flatMap s.pairsOf).foldl (fun s k => s.writeMask k maskPwm) s.settle)
  else if full && !s.anySafe m then s.seqEnter m
  else s.setSeqDefer m 0

/-! ### Angle events (R315 to R318) -/

def State.ev (s : State) (i : Nat) : EvSlot := tabGet {} s.fldc.slots i
def State.setEv (s : State) (i : Nat) (x : EvSlot) : State :=
  { s with fldc.slots := tabSet {} s.fldc.slots i x }

def State.evAct (s : State) (i : Nat) (f : Bits) : Nat := s.fld (Reg.FLD_EVs_ACT i) f
def State.evArmed (s : State) (i : Nat) : Bool := s.on (Reg.FLD_EVs_STAT i) Fld.FLD_EVs_STAT.ARMED
def State.setArmed (s : State) (i : Nat) (b : Bool) : State :=
  s.setFld (Reg.FLD_EVs_STAT i) Fld.FLD_EVs_STAT.ARMED b.toNat

/-- The angle in force: that of the binding once it has delivered one. -/
def State.evAngle (s : State) (i : Nat) : Word :=
  if s.sinkBound (0x060 + i) then (s.ev i).bound.getD (s.reg (Reg.FLD_EVs_ANG i))
  else s.reg (Reg.FLD_EVs_ANG i)

/-- The slot was armed behind the angle, within the guard window. -/
def State.armLate (s : State) (i back : Nat) : State :=
  (s.setFld (Reg.FLD_EVs_STAT i) Fld.FLD_EVs_STAT.LATE 1).event
    ⟨UnitCode.fld, 0x704, 0, i, detailOf [(0, i), (8, back / 256)]⟩

/-- Arm a slot now (R316). -/
def State.armSlot (s : State) (i : Nat) : State :=
  let m := s.evAct i Fld.FLD_EVs_ACT.MACH
  let th := s.turnAt m s.now
  let fw := !decide (s.omegaCtl m < 0)
  let gap := s.evAngle i - BitVec.ofInt 32 th
  let d := (if fw then gap else -gap).toNat
  let back := 2 ^ 32 - d
  let late := decide (back ≤ s.fld Reg.FLD_CFG Fld.FLD_CFG.GUARD * 65536)
  let s := (s.setEv i { s.ev i with forward := fw, dist := d, start := th, late }).setArmed i true
  if late then s.armLate i back else s

/-- A write of an action word arms or disarms its slot. -/
def State.actWritten (s : State) (i : Nat) : State :=
  if s.evAct i Fld.FLD_EVs_ACT.ACT = 0 then s.setArmed i false else s.armSlot i

/-- An action word as it is stored: ACT 5 to 7 become 3, reserved bits 0. -/
def actionWord (w : Word) : Word :=
  let a := Fld.FLD_EVs_ACT.ACT.of w
  Fld.FLD_EVs_ACT.ACT.put (if 4 < a then 3 else a) (w &&& 0xFFFF1337)

/-- ANGLE_EVENT (R317): the clamp of ACT counts as one. -/
def State.angleEvent (s : State) (i : Nat) (angle action : Word) : Verdict :=
  let w := actionWord action
  let s := ((s.setReg (Reg.FLD_EVs_ANG i) angle).setReg (Reg.FLD_EVs_ACT i) w).actWritten i
  let s := (s.imageWrite (Reg.FLD_EVs_ANG i) 0xFFFFFFFF angle).imageWrite (Reg.FLD_EVs_ACT i) 0xFFFFFFFF w
  .doneClamp s (decide (4 < Fld.FLD_EVs_ACT.ACT.of action))

/-- SWAP of one pair: MASKNX is copied into MASK, unless the sequencer owns it. -/
def State.swapMask (s : State) (k : Nat) : State :=
  if s.seqOwns k then s
  else
    let s := s.writeMask k (maskCode (s.ffld (Reg.PAIRk_MASKNX k) Fld.PAIRk_MASKNX.CODE))
    if s.isSafe (s.unitOfPair k) then s.setPair k { s.pair k with maskHeld := true } else s

/-- The action of a slot. -/
def State.evActs (s : State) (i : Nat) : State :=
  let act := s.evAct i Fld.FLD_EVs_ACT.ACT
  let pairs := s.evAct i Fld.FLD_EVs_ACT.PAIRS
  let s := if act = 1 ∨ act = 4 then
      ((List.range 16).filter (hasBit pairs)).foldl State.swapMask s.settle
    else s
  if act = 2 ∨ act = 4 then s.urgentAngle (s.evAct i Fld.FLD_EVs_ACT.GRP) else s

/-- After its action a slot is re-armed one turn on, or disarmed. -/
def State.evAfter (s : State) (i : Nat) : State :=
  let x := s.ev i
  if s.evAct i Fld.FLD_EVs_ACT.REP = 1 then
    let go : Int := x.dist
    s.setEv i { x with start := if x.forward then x.start + go else x.start - go, dist := 2 ^ 32, late := false }
  else s.setArmed i false

/-- The slot has fired in the open window. -/
def State.evMark (s : State) (i : Nat) : State :=
  let s := s.count (Reg.FLD_EVs_STAT i) Fld.FLD_EVs_STAT.FIRES
  { s with fldc := { s.fldc with
      fired := withBit s.fldc.fired i,
      firedLate := if (s.ev i).late then withBit s.fldc.firedLate i else s.fldc.firedLate } }

/-- A slot fires. -/
def State.evFire (s : State) (i : Nat) : State :=
  let s := (s.evMark i).evActs i
  let s := if s.evAct i Fld.FLD_EVs_ACT.POST = 1 then
      s.event ⟨UnitCode.fld, 0x703, 0, i,
        detailOf [(0, i), (8, min (2 ^ 20 - 1) ((s.now - s.t0) / esPerFc))]⟩
    else s
  s.evAfter i

/-- The net travel of a slot has reached its distance. -/
def State.evReached (s : State) (i t : Nat) : Bool :=
  let x := s.ev i
  let gone := s.turnAt (s.evAct i Fld.FLD_EVs_ACT.MACH) t - x.start
  decide ((x.dist : Int) ≤ if x.forward then gone else -gone)

/-- Slot `i` fires if it is armed and its travel is done. -/
def State.evDue (s : State) (i : Nat) : State :=
  if s.evArmed i && s.evReached i s.now then s.evFire i else s

/-- What acts before slot `i` in the fc it fires in: the sequencers, then the slots below it (R318). -/
def State.evBefore (s : State) (i : Nat) : State :=
  let s := [0, 1].foldl (fun s m => if s.seqOn m then s.seqWrite m s.now else s) s
  (List.range i).foldl State.evDue s

/-- ANGLE_EVENT_FIRE (R316, R318): slot `i` at instant `t`, after the sequencers and the lower slots due by then,
whose own commands then find nothing left to do. -/
def execAngleEventFire (slot : Fin 16) (t : Nat) (s : State) : Host.Outcome State Fault Refusal :=
  .next (if s.evArmed slot && s.evReached slot (max s.now t) then ((s.at t).evBefore slot).evDue slot else s)

/-- Close the window of the slots, and publish what fired in it. -/
def State.closeSlots (s : State) : State :=
  { s with fldc := { s.fldc with fired := 0, firedLate := 0, closed := s.fldc.fired,
                                 closedLate := s.fldc.firedLate } }

def State.publishSlots (s : State) : State :=
  (List.range 16).foldl (fun s i =>
    (s.publishFlag (0x260 + i) (hasBit s.fldc.closed i)).publishFlag (0x270 + i) (hasBit s.fldc.closedLate i)) s

/-! ### Delivery to the sinks of field control (R310, R318) -/

/-- The word a transferred bank holds for a sink. -/
def State.deliveredTo (s : State) (bank : List Held) (sink : Nat) : Option Word :=
  (s.bindingTo sink).bind fun n => (bank.find? fun h => h.bind == n).map (·.word)

/-- An INT in its legal range. -/
def legalModreg (w : Word) : Nat := (max 0 (min 3 w.toInt)).toNat
def legalVertex (w : Word) : Nat :=
  let v := (max 0 (min 7 w.toInt)).toNat
  if v = 6 then 7 else v

/-- A machine takes the voted outputs of its sinks; the voltage delivered before governed the window
just closed. -/
def State.deliverMachine (s : State) (bank : List Held) (m : Nat) : State :=
  let x := s.fm m
  let got := fun i => s.deliveredTo bank (0x040 + 0x10 * m + i)
  s.setFm m { x with
    winAlpha := x.vAlpha, winBeta := x.vBeta,
    vAlpha := (got 0).getD x.vAlpha, vBeta := (got 1).getD x.vBeta,
    modreg := ((got 2).map legalModreg).getD x.modreg,
    vertex := ((got 3).map legalVertex).getD x.vertex,
    loadang := (got 4).getD x.loadang, ifRef := (got 5).getD x.ifRef }

/-- A bound slot takes its angle and, armed, is armed anew from this boundary. -/
def State.deliverSlot (s : State) (bank : List Held) (i : Nat) : State :=
  match s.deliveredTo bank (0x060 + i) with
  | none => s
  | some w =>
      let s := s.setEv i { s.ev i with bound := some w }
      if s.evArmed i then s.armSlot i else s

/-- Field control at a tick boundary. -/
def State.fieldBoundary (s : State) (bank : List Held) : State :=
  let s := (s.deliverMachine bank 0).deliverMachine bank 1
  let s := (s.seqBoundary 0).seqBoundary 1
  (List.range 16).foldl (fun s i => s.deliverSlot bank i) s.closeSlots

/-! ### Internal caravan of a recapture (R336) -/

/-- Another latch acts on a bridge of the machine, or a host state is recorded for one. -/
def State.catchBarred (s : State) (m : Nat) : Bool :=
  (s.bridgesOf m).any fun b => (s.latchesOn b).any (· != 16 + 22) || s.explicit b != 0

/-- TRIP_CLEAR of latch 22 and DRIVE_ENABLE of the bridges, all or nothing. -/
def State.catchCaravan (s : State) (m : Nat) : Verdict :=
  (s.bridgesOf m).foldl (fun v b => match v with
    | .ok s _ _ _ => s.driveEnable b
    | .refused l r => .refused l r) (s.tripClear 0 (BitVec.ofNat 32 (2 ^ 22)))

/-- The internal caravan of a machine, if one is due: the state, and whether it took effect. -/
def State.internalCaravan (s : State) (m : Nat) : State × Bool :=
  if !(s.fm m).catchDue then (s, false)
  else
    let s := s.setFm m { s.fm m with catchDue := false }
    if s.catchBarred m then (s, false)
    else match s.catchCaravan m with
      | .ok s' _ _ _ => (s', true)
      | .refused _ report => (report s, false)

/-- RECATCH, with the number of the attempt. -/
def State.postRecatch (s : State) (m : Nat) : State :=
  let s := s.count (Reg.FLD_MCm_STAT m) Fld.FLD_MCm_STAT.ATTEMPT
  s.event ⟨UnitCode.fld, 0x70D, 0, m,
    BitVec.ofNat 32 (s.fld (Reg.FLD_MCm_STAT m) Fld.FLD_MCm_STAT.ATTEMPT)⟩

end Sys2Proof.Machine
end

