-- ==== Sys2Proof/Machine/Weigh.lean ====
section
/-! DEFINITION. The weigh-house and the running of a DC-link discharge (R344 to R364).  Arithmetic is
binary32 step by step, as for every fixed-function datapath of the model. -/

set_option Elab.async false

namespace Sys2Proof.Machine

/-! ### Weigh-house inputs (R345, R346) -/

def State.wm (s : State) (m : Nat) : WghM := tabGet {} s.wgh m
def State.setWm (s : State) (m : Nat) (x : WghM) : State := { s with wgh := tabSet {} s.wgh m x }

def State.wghCfg (s : State) (m : Nat) (f : Bits) : Nat := s.fld (Reg.WGH_MCm_CFG m) f
def State.wghEn (s : State) (m : Nat) : Bool := s.wghCfg m Fld.WGH_MCm_CFG.EN == 1

/-- Position channel of a monitor. -/
def State.wghChannel (s : State) (m : Nat) : Nat :=
  let c := s.wghCfg m Fld.WGH_MCm_CFG.ANGSRC
  if c < 2 then c
  else if m = 1 then 1
  else if s.paired then 1 - s.fld (Reg.FLD_MCm_CFG 0) Fld.FLD_MCm_CFG.ANGSRC
  else 0

def State.wghIn (s : State) (m : Nat) (f : Bits) : Nat := s.fld (Reg.WGH_MCm_IN m) f

def State.isWrsm (s : State) (m : Nat) : Bool := s.on (Reg.FLD_MCm_CFG m) Fld.FLD_MCm_CFG.WRSM

/-- Delta-sigma channels a monitor reads. -/
def State.wghChannels (s : State) (m : Nat) : List Nat :=
  [s.wghIn m Fld.WGH_MCm_IN.CHU, s.wghIn m Fld.WGH_MCm_IN.CHV, s.wghIn m Fld.WGH_MCm_IN.CHW] ++
  (if s.paired then [s.wghIn m Fld.WGH_MCm_IN.CHU2, s.wghIn m Fld.WGH_MCm_IN.CHV2,
    s.wghIn m Fld.WGH_MCm_IN.CHW2] else []) ++
  (if s.isWrsm m then [s.wghIn m Fld.WGH_MCm_IN.FINCH] else [])

def State.dsVal (s : State) (c : Nat) : Rat := Num.val (s.sig (0x1D0 + 4 * c))

/-- The first vector-space plane of two current sets (VSD with K = 0). -/
def vsd0 (a b : Rat × Rat) : Rat × Rat :=
  let q := ipark b.1 b.2 cs3 half
  (Num.mul (Num.add a.1 q.1) half, Num.mul (Num.add a.2 q.2) half)

/-- Stationary currents of a monitor. -/
def State.wghCurrents (s : State) (m : Nat) : Rat × Rat :=
  let v := fun f => s.dsVal (s.wghIn m f)
  let a := clarke (v Fld.WGH_MCm_IN.CHU) (v Fld.WGH_MCm_IN.CHV) (v Fld.WGH_MCm_IN.CHW)
  if s.paired then
    vsd0 a (clarke (v Fld.WGH_MCm_IN.CHU2) (v Fld.WGH_MCm_IN.CHV2) (v Fld.WGH_MCm_IN.CHW2))
  else a

/-! ### Inverse flux map (R347, Table WGH-1) -/

/-- A directory entry: first point, points per axis, origins and inverse steps. -/
structure FluxMap where
  base : Nat
  nx : Nat
  ny : Nat
  x0 : Rat
  invdx : Rat
  y0 : Rat
  invdy : Rat

def State.wghMap (s : State) (m : Nat) : FluxMap :=
  let d := fun i => s.reg (Reg.WGH_MAPm_Di m i)
  { base := (⟨0, 13⟩ : Bits).of (d 0), nx := (⟨0, 14⟩ : Bits).of (d 1), ny := (⟨16, 14⟩ : Bits).of (d 1),
    x0 := Num.val (d 2), invdx := Num.val (d 3), y0 := Num.val (d 4), invdy := Num.val (d 5) }

def FluxMap.points (f : FluxMap) : Nat := f.nx * f.ny

/-- Component `c` of point (i, j). -/
def State.mapPoint (s : State) (f : FluxMap) (i j c : Nat) : Rat :=
  Num.val (s.reg (Reg.WGH_MAPDATA (2 * ((f.base + j * f.nx + i) % 4608) + c)))

def State.mapRow (s : State) (f : FluxMap) (x : Rat) (j c : Nat) : Rat :=
  let (i, u) := axis x f.x0 f.invdx f.nx
  let p := s.mapPoint f i j c
  if i + 1 < f.nx then lerp p (s.mapPoint f (i + 1) j c) u else p

def State.mapLookup (s : State) (f : FluxMap) (x y : Rat) (c : Nat) : Rat :=
  let (j, u) := axis y f.y0 f.invdy f.ny
  let p := s.mapRow f x j c
  if j + 1 < f.ny then lerp p (s.mapRow f x (j + 1) c) u else p

/-- Torque from stationary currents and an angle. -/
def State.torqueAt (s : State) (m : Nat) (i : Rat × Rat) (th : Word) (iF : Rat) : Rat :=
  let dq := toFrame i th
  let f := s.wghMap m
  let psiD := s.mapLookup f dq.1 dq.2 0
  let psiD := if s.isWrsm m then Num.add psiD (Num.mul (s.real (Reg.WGH_MCm_MF m)) iF) else psiD
  let psiQ := s.mapLookup f dq.1 dq.2 1
  Num.mul (s.real (Reg.WGH_MCm_KT m)) (Num.sub (Num.mul psiD dq.2) (Num.mul psiQ dq.1))

/-- Torque of the window just closed: the angle is that of the window's centre. -/
def State.windowTorque (s : State) (m : Nat) : Rat :=
  let c := s.wghChannel m
  let w := Num.val (s.chWord c 1)
  let th := s.chWord c 0 - Num.rtoa (Num.div (Num.mul w s.tPrev) 2)
  s.torqueAt m (s.wghCurrents m) th (s.dsVal (s.wghIn m Fld.WGH_MCm_IN.FINCH))

/-! ### Enabling and self-test (R348, R356) -/

/-- The data words of a map. -/
def State.mapWords (s : State) (f : FluxMap) : List Word :=
  (List.range (2 * f.points)).map fun k => s.reg (Reg.WGH_MAPDATA (2 * f.base + k))

/-- Two point ranges share a point. -/
def FluxMap.overlaps (f g : FluxMap) : Bool :=
  decide (f.base < g.base + g.points) && decide (g.base < f.base + f.points)

/-- Why a map is refused: 1 size, 0 check, 2 overlap; the size is judged first, since the check
covers NX·NY points. -/
def State.mapReject (s : State) (m : Nat) : Option Nat :=
  let f := s.wghMap m
  let g := s.wghMap (1 - m)
  let other := s.wghEn (1 - m)
  let inRange := fun n => decide (2 ≤ n) && decide (n ≤ 4608)
  if !inRange f.nx || !inRange f.ny || decide (4608 < f.base + f.points) ||
      (other && decide (4608 < f.points + g.points)) then some 1
  else if Crc.checkC (bytesOfWords (s.mapWords f)) ≠ s.reg (Reg.WGH_MAPm_Di m 7) then some 0
  else if other && f.overlaps g then some 2
  else none

/-- Centre of a map. -/
def FluxMap.centre (f : FluxMap) : Rat × Rat :=
  (Num.add f.x0 (Num.div (mkRat (f.nx - 1 : Nat) 2) f.invdx),
   Num.add f.y0 (Num.div (mkRat (f.ny - 1 : Nat) 2) f.invdy))

/-- The fixed test point through the datapath. -/
def State.testPoint (s : State) (m : Nat) : Word :=
  let th : Word := 0x20000000
  Num.pack (s.torqueAt m (fromFrame (s.wghMap m).centre th) th 0)

/-- EN is set: refused, or the reference of the self-test is taken. -/
def State.wghEnable (s : State) (m : Nat) : State :=
  match s.mapReject m with
  | some kind => (s.setFld (Reg.WGH_MCm_CFG m) Fld.WGH_MCm_CFG.EN 0).event
      ⟨UnitCode.wgh, 0x804, 0, m, BitVec.ofNat 32 kind⟩
  | none => s.setWm m { s.wm m with test := s.testPoint m }

/-- The monitor is BLIND until a reset. -/
def State.wghStuck (s : State) (m cause : Nat) : State :=
  s.setWm m { s.wm m with stuck := some cause }

/-- WGH_SELFTEST (R356); `upset` disturbs the result. -/
def execWghSelftest (m : Fin 2) (upset : Word) (s : State) : Host.Outcome State Fault Refusal :=
  let s := s.atTick 150
  .next (if s.wghEn m && (s.testPoint m ^^^ upset) != (s.wm m).test then
    ((s.f2Begins 0x803 m).event ⟨UnitCode.wgh, 0x803, 2, m, 0⟩).wghStuck m 3
  else s)

/-! ### Reference and band (R349, R350) -/

def State.disOn (s : State) (m : Nat) : Bool := s.sig (wghBoard m + 7) == 1

/-- A tick's deliveries to the weigh-house; sinks without a delivery repeat theirs. -/
def State.wghDeliver (s : State) (bank : List Held) (m : Nat) : State :=
  let x := s.wm m
  let take := fun (i : Nat) (l : List Word) =>
    let w := (s.deliveredTo bank (0x080 + 2 * m + i)).getD (l.headD 0)
    [w, l.getD 0 0, l.getD 1 0]
  s.setWm m { x with cmd := take 0 x.cmd, pri := take 1 x.pri }

/-- The reference follows the command delivered at the vote of tick j − 2. -/
def State.nextRef (s : State) (m : Nat) : Rat :=
  let x := s.wm m
  let c := if s.disOn m then 0 else Num.val (x.cmd.getD 1 0)
  let a := Num.div s.tPrev (s.real (Reg.WGH_MCm_TAU m))
  let a := if 1 < a then 1 else a
  let r := Num.val x.tRef
  Num.add r (Num.mul a (Num.sub c r))

/-- The band at a speed. -/
def State.bandAt (s : State) (m : Nat) (w : Rat) : Rat :=
  let ws := fun k => s.real (Reg.WGH_MCm_WSPDk m k)
  let bs := fun k => s.real (Reg.WGH_MCm_BANDk m k)
  if w < ws 0 then bs 0
  else match [0, 1, 2].find? fun k => decide (w < ws (k + 1)) with
    | some k => lerp (bs k) (bs (k + 1)) (Num.div (Num.sub w (ws k)) (Num.sub (ws (k + 1)) (ws k)))
    | none => bs 3

/-! ### Checks (R351, R353, R354) -/

abbrev wghIdle : Nat := 0
abbrev wghActive : Nat := 1
abbrev wghBlind : Nat := 2
def State.wghState (s : State) (m : Nat) : Nat := s.fld (Reg.WGH_MCm_STAT m) Fld.WGH_MCm_STAT.STATE
def State.setWghStat (s : State) (m : Nat) (f : Bits) (v : Nat) : State :=
  s.setFld (Reg.WGH_MCm_STAT m) f v

/-- A torque difference in 1/16 N·m, for bits 31 to 8 of a DETAIL. -/
def sixteenths (d : Rat) : Nat := toField 24 (satSigned 24 (Num.roundInt (d * 16)))

/-- WGH_TORQUE: source 20 acts on the units of the machine. -/
def State.wghTorque (s : State) (m kind : Nat) (d : Rat) : State :=
  let s := s.count (Reg.WGH_MCm_CNT m) Fld.WGH_MCm_CNT.TORQUE
  (s.event ⟨UnitCode.wgh, 0x800, 3, m, detailOf [(0, kind), (8, sixteenths d)]⟩).raise (16 + 20) m
    (s.machineUnits m)

/-- An up/down count. -/
def upDown (n : Nat) (beyond : Bool) : Nat := if beyond then min 255 (n + 1) else n - 1

def State.bandCheck (s : State) (m : Nat) (tw tr band : Rat) : State :=
  if s.fldStart m ≠ stRun ∧ !s.disOn m then s
  else
    let beyond := decide (band < Num.absR (Num.sub tw tr))
    let was := s.fld (Reg.WGH_MCm_STAT m) Fld.WGH_MCm_STAT.BANDC
    let s := s.setWghStat m Fld.WGH_MCm_STAT.BANDC (upDown was beyond)
    if beyond ∧ was + 1 = s.wghCfg m Fld.WGH_MCm_CFG.NBAND then s.wghTorque m 0 (Num.sub tw tr) else s

def State.signCheck (s : State) (m : Nat) (tw tr : Rat) : State :=
  if s.fldStart m ≠ stRun ∧ !s.disOn m then s
  else
    let lim := s.real (Reg.WGH_MCm_SIGNMIN m)
    let beyond := decide (lim ≤ Num.absR tr) && decide (lim ≤ Num.absR tw) && decide (tr * tw < 0)
    let n := if beyond then (s.wm m).sign + 1 else 0
    let s := s.setWm m { s.wm m with sign := min n 255 }
    if beyond ∧ n = s.wghCfg m Fld.WGH_MCm_CFG.NSIGN then s.wghTorque m 1 (Num.sub tw tr) else s

def State.startCheck (s : State) (m : Nat) (tw tr : Rat) : State :=
  let st := s.fldStart m
  if st == stCatch || st == stRamp || st == stAlign || st == stPolarity then
    let beyond := decide (s.real (Reg.WGH_MCm_TSTART m) < Num.absR tw)
    let was := (s.wm m).startc
    let s := s.setWm m { s.wm m with startc := upDown was beyond }
    if beyond ∧ was + 1 = s.wghCfg m Fld.WGH_MCm_CFG.NBAND then s.wghTorque m 2 (Num.sub tw tr) else s
  else s

/-- The primary check of the window before: its torque against the estimate delivered at the vote
of its tick. -/
def State.primaryCheck (s : State) (m : Nat) : State :=
  let st := s.fldStart m
  match (s.wm m).last with
  | none => s
  | some w =>
    if st == stRun || st == stCatch || st == stRamp then
      let d := Num.sub (Num.val w) (Num.val ((s.wm m).pri.getD 0 0))
      let beyond := decide (s.real (Reg.WGH_MCm_BANDP m) < Num.absR d)
      let n := upDown (s.fld (Reg.WGH_MCm_STAT m) Fld.WGH_MCm_STAT.PRIC) beyond
      let s := s.setWghStat m Fld.WGH_MCm_STAT.PRIC n
      if beyond && decide (s.wghCfg m Fld.WGH_MCm_CFG.NPRI ≤ n) && !s.on (Reg.WGH_MCm_STAT m) Fld.WGH_MCm_STAT.PDIS then
        let s := (s.setWghStat m Fld.WGH_MCm_STAT.PDIS 1).count (Reg.WGH_MCm_CNT m) Fld.WGH_MCm_CNT.PRIM
        (s.f2Begins 0x801 m).event ⟨UnitCode.wgh, 0x801, 2, m, detailOf [(8, sixteenths d)]⟩
      else s
    else s

/-- Inputs valid: 0 a current is not, 1 the angle is not. -/
def State.wghInvalid (s : State) (m : Nat) : Option Nat :=
  if (s.wghChannels m).any fun c => s.sig (0x1D3 + 4 * c) != 1 then some 0
  else if s.chWord (s.wghChannel m) 4 ≠ 1 then some 1 else none

/-- The blind cause of this tick. -/
def State.blindCause (s : State) (m : Nat) : Option Nat :=
  match (s.wm m).stuck with
  | some c => some c
  | none => s.wghInvalid m

/-- WGH_BLIND at the fourth blind tick in a row. -/
def State.postBlind (s : State) (m cause : Nat) : State :=
  let safe := s.wghCfg m Fld.WGH_MCm_CFG.BLINDSAFE = 1
  let s := (s.count (Reg.WGH_MCm_CNT m) Fld.WGH_MCm_CNT.BLIND).setWghStat m Fld.WGH_MCm_STAT.STATE wghBlind
  let e : Ev := ⟨UnitCode.wgh, 0x802, if safe then 3 else 2, m, BitVec.ofNat 32 cause⟩
  if safe then (s.event e).raise (16 + 20) m (s.machineUnits m) else (s.f2Begins 0x802 m).event e

/-- A blind tick. -/
def State.blindTick (s : State) (m cause : Nat) : State :=
  let n := min 255 ((s.wm m).blind + 1)
  let s := s.setWm m { s.wm m with blind := n, last := none }
  if n = 4 then s.postBlind m cause else s

/-- A blind episode ends. -/
def State.endBlind (s : State) (m : Nat) : State := (s.f2Ends 0x802 m).setWm m { s.wm m with blind := 0 }

/-- A tick that is not blind. -/
def State.checkTick' (s : State) (m : Nat) (tw band : Rat) : State :=
  let s := (s.endBlind m).setWghStat m Fld.WGH_MCm_STAT.STATE wghActive
  let tr := Num.val (s.wm m).tRef
  let s := ((s.bandCheck m tw tr band).signCheck m tw tr).startCheck m tw tr
  let s := s.primaryCheck m
  s.setWm m { s.wm m with last := some (Num.pack tw) }

/-- The monitor becomes ACTIVE: every counter restarts. -/
def State.wghWake (s : State) (m : Nat) : State :=
  let s := ((s.setWghStat m Fld.WGH_MCm_STAT.BANDC 0).setWghStat m Fld.WGH_MCm_STAT.PRIC 0).setWghStat m
    Fld.WGH_MCm_STAT.STATE wghActive
  s.setWm m { s.wm m with sign := 0, startc := 0, blind := 0, last := none }

def State.wghIsActive (s : State) (m : Nat) : Bool :=
  s.wghEn m && !s.allSafe m && !(s.bridgesOf m).any s.heldOff

/-- Source 20 becomes inactive (R355). -/
def State.wghSettle (s : State) (m : Nat) : State :=
  if s.causeActive (16 + 20) m && s.allSafe m && (s.wghInvalid m).isNone then s.endCause (16 + 20) m else s

/-- The words of Table WGH-4 but those of the discharge. -/
def State.wghPublish (s : State) (m : Nat) (tw band : Rat) : State :=
  let b := wghBoard m
  let s := ((s.publishReal b tw).publish (b + 1) (s.wm m).tRef).publishReal (b + 2) band
  let s := (s.publishFlag (b + 3) (s.wghInvalid m).isNone).publish (b + 4) (BitVec.ofNat 32 (s.wghState m))
  s.publishFlag (b + 5) (s.on (Reg.WGH_MCm_STAT m) Fld.WGH_MCm_STAT.PDIS)

/-- The checks of a monitor this tick. -/
def State.wghChecks (s : State) (m : Nat) (tw band : Rat) : State :=
  if !s.wghIsActive m then (s.endBlind m).setWghStat m Fld.WGH_MCm_STAT.STATE wghIdle
  else
    let s := if s.wghState m = wghIdle then s.wghWake m else s
    match s.blindCause m with
    | some c => s.blindTick m c
    | none => s.checkTick' m tw band

/-- The evaluation of a monitor (R346 to R355). -/
def State.weigh (s : State) (m : Nat) : State :=
  if (s.bridgesOf m).isEmpty then s
  else
    let tw := s.windowTorque m
    let s := s.setWm m { s.wm m with tRef := Num.pack (s.nextRef m) }
    let band := s.bandAt m (Num.absR (Num.val (s.chWord (s.wghChannel m) 1)))
    ((s.wghChecks m tw band).wghSettle m).wghPublish m tw band

/-- PDIS clears at the release of a bridge of the machine. -/
def State.wghRelease (s : State) (b : Nat) : State :=
  let m := if s.paired then 0 else b
  if 2 ≤ b then s
  else ((s.setWghStat m Fld.WGH_MCm_STAT.PDIS 0).setWghStat m Fld.WGH_MCm_STAT.PRIC 0).f2Ends 0x801 m

/-! ### DISCHARGE (R357, R358) -/

/-- The deadline of the payload, and the target. -/
def disDeadline (w5 : Word) : Nat := clampNat 10 60000 w5.toNat
def disTarget (w4 : Word) : Word := rateWord w4

/-- DISCHARGE. -/
def State.discharge (s : State) (w3 w4 w5 : Word) : Verdict :=
  let method := (⟨0, 2⟩ : Bits).of w3
  let wind := if 2 ≤ method then s.eligible ((⟨4, 2⟩ : Bits).of w3) else 0
  let res := decide (method % 2 = 1) && s.disResistorOk
  let clamped := rateClamps w4 || decide (disDeadline w5 ≠ w5.toNat)
  if method = 0 then .doneClamp (s.disDone false) clamped
  else if !s.inRun || s.disVolt.isNone || (!res && wind == 0) then .no
  else .doneClamp (s.stopMethods.disStart res wind (disTarget w4) (disDeadline w5) 0) clamped

/-! ### A discharge at a boundary (R360 to R364) -/

/-- Link voltage as the resistor method takes it. -/
def State.resVolt (s : State) : Rat := s.disVolt.getD 1000

/-- Energy of the window, and the chopper current against its expected value. -/
def State.disEnergy (s : State) : State :=
  let v := s.resVolt
  let d := Num.val s.dis.duty
  let rdis := s.real Reg.PROT_DIS_RDIS
  let de := Num.div (Num.mul (Num.mul d (Num.mul v v)) s.tPrev) rdis
  let s := s.setReg Reg.PROT_DIS_ERES (Num.pack (Num.add (s.real Reg.PROT_DIS_ERES) de))
  let want := Num.div (Num.mul d v) rdis
  let off := match s.sarAvg (s.fld Reg.PROT_DIS_CFG Fld.PROT_DIS_CFG.CIN) with
    | some i => decide (Num.add (Num.div want 4) 2 < Num.absR (Num.sub i want))
    | none => false
  { s with dis.deviate := if off then s.dis.deviate + 1 else 0 }

/-- The resistor method at a boundary. -/
def State.disResTick (s : State) : State :=
  if !s.disRes then s
  else
    let s := s.disEnergy
    if 8 ≤ s.dis.deviate then s.dropResistor 1
    else if s.real Reg.PROT_DIS_EMAX ≤ s.real Reg.PROT_DIS_ERES then s.dropResistor 2
    else { s with dis.duty := s.disDuty }

/-- The delivered d-axis current differs from DIS_ID by more than 1 %. -/
def State.windOff (s : State) (m : Nat) : Bool :=
  let id := -(s.real Reg.PROT_DIS_IDDIS)
  let got := Num.val ((s.deliveredTo s.eng.applied (0x0A0 + m)).getD 0)
  decide (Num.mul (mkRat 1 100) (Num.absR id) < Num.absR (Num.sub got id))

/-- The winding method of a machine at a boundary. -/
def State.disWindTick (s : State) (m : Nat) : State :=
  if !hasBit s.disWind m then s
  else if !s.disWindingOk m then s.dropWinding m 4
  else if 3 ≤ s.dis.boundaries && s.windOff m then s.dropWinding m 3
  else s

/-- The resistor method replaces a lost winding method. -/
def State.disFallback (s : State) : State :=
  if s.dis.fallback then
    let s := { s with dis.fallback := false }
    if s.disResistorOk then s.setDisRes true else s
  else s

/-- Completion, or failure after the deadline. -/
def State.disJudge (s : State) : State :=
  let vt := Num.val s.dis.target
  match s.disVolt with
  | none => s
  | some v =>
      if v ≤ vt then
        let n := s.dis.below + 1
        if 4 ≤ n then s.disDone true else { s with dis.below := n }
      else if s.dis.deadlineAt < s.now then s.disFail 6
      else { s with dis.below := 0 }

def State.disReason (s : State) : Nat := s.fld Reg.PROT_DIS_STAT Fld.PROT_DIS_STAT.REASON

/-- A discharge at a boundary, from the link voltage published there, after the monitors. -/
def State.disBoundary (s : State) : State :=
  if !s.disRunning then s
  else
    let s := { s with dis.boundaries := s.dis.boundaries + 1 }.setFld Reg.PROT_DIS_TIME
      Fld.PROT_DIS_TIME.MS s.disElapsed
    let s := s.disFallback
    let s := (s.disResTick.disWindTick 0).disWindTick 1
    let s := s.disIfNone s.disReason
    if s.disRunning then s.disJudge else s

/-- Every running method drops with REASON progress, and the discharge fails. -/
def State.disNoProgress (s : State) : State :=
  let s := if s.disRes then s.dropResistor 5 else s
  let s := [0, 1].foldl (fun s m => if hasBit s.disWind m then s.dropWinding m 5 else s) s
  s.disFail 5

/-- The voltage has fallen by less than 2 V in the interval, above the target. -/
def State.disStalled (s : State) : Bool :=
  match s.disVolt, s.dis.mark with
  | some v, some w => decide (Num.val s.dis.target < v) && decide (Num.val w - v < 2)
  | _, _ => false

/-- DISCHARGE_PROGRESS_CHECK (R364): the end of a 100 ms interval. -/
def execDischargeProgressCheck (s : State) : Host.Outcome State Fault Refusal :=
  if !s.disRunning then .next s
  else
    let s := s.at (s.dis.markAt + 100 * esPerMs)
    .next (if s.disStalled then s.disNoProgress
      else { s with dis := { s.dis with mark := s.disVolt.map Num.pack, markAt := s.dis.markAt + 100 * esPerMs } })

/-- DISCHARGE_DEADLINE (R364): the deadline passes. -/
def execDischargeDeadline (s : State) : Host.Outcome State Fault Refusal :=
  if !s.disRunning then .next s
  else
    let s := s.at s.dis.deadlineAt
    .next (match s.disVolt with
      | some v => if v ≤ Num.val s.dis.target then s else s.disFail 6
      | none => s.disFail 6)

end Sys2Proof.Machine
end

