-- ==== Sys2Proof/Machine/Isnak.lean ====
section
/-! DEFINITION. The Isnak gate-driver link (R370 to R388). -/

set_option Elab.async false

namespace Sys2Proof.Machine

/-! ### Links and nodes -/

def State.lk (s : State) (l : Nat) : IskLink := tabGet {} s.isk l
def State.setLk (s : State) (l : Nat) (x : IskLink) : State := { s with isk := tabSet {} s.isk l x }
def IskLink.node (x : IskLink) (n : Nat) : IskNode := tabGet {} x.nodes n
def State.nd (s : State) (l n : Nat) : IskNode := (s.lk l).node n
def State.setNd (s : State) (l n : Nat) (x : IskNode) : State :=
  s.setLk l { s.lk l with nodes := tabSet {} (s.lk l).nodes n x }

def State.iskCfg (s : State) (l : Nat) (f : Bits) : Nat := s.fld (Reg.ISK_LINKl_CFG l) f
def State.iskEn (s : State) (l : Nat) : Bool := s.iskCfg l Fld.ISK_LINKl_CFG.EN == 1
/-- Isnak-1 polling mode. -/
def State.isk1 (s : State) (l : Nat) : Bool := s.iskCfg l Fld.ISK_LINKl_CFG.PROTO == 1
def State.iskNodes (s : State) (l : Nat) : Nat := s.iskCfg l Fld.ISK_LINKl_CFG.NODES

abbrev linkOff : Nat := 0
abbrev linkEnum : Nat := 1
abbrev linkRun : Nat := 2
abbrev linkLost : Nat := 3

def State.linkState (s : State) (l : Nat) : Nat := s.fld (Reg.ISK_LINKl_STAT l) Fld.ISK_LINKl_STAT.STATE
def State.setLink (s : State) (l st : Nat) : State :=
  s.setFld (Reg.ISK_LINKl_STAT l) Fld.ISK_LINKl_STAT.STATE st
def State.iskSeq (s : State) (l : Nat) : Nat := s.fld (Reg.ISK_LINKl_STAT l) Fld.ISK_LINKl_STAT.SEQ
def State.nfound (s : State) (l : Nat) : Nat := s.fld (Reg.ISK_LINKl_STAT l) Fld.ISK_LINKl_STAT.NFOUND

/-- The map byte of a node: the pair, and bit 4 for its low side. -/
def State.nodeMap (s : State) (l n : Nat) : Nat :=
  s.fld (Reg.ISK_LINKl_MAPj l (n / 4)) ⟨8 * (n % 4), 5⟩
def State.nodePair (s : State) (l n : Nat) : Nat := s.nodeMap l n % 16

/-- The map bytes of the nodes a link serves, and the units of their pairs. -/
def State.linkMap (s : State) (l : Nat) : List Nat := (List.range (s.iskNodes l)).map (s.nodeMap l)
def State.linkUnits (s : State) (l : Nat) : Nat :=
  (s.linkMap l).foldl (fun w x => withBit w (s.unitOfPair (x % 16))) 0

/-! ### Check bytes (R374) -/

/-- CRC-8 over bytes and the fold of a node address and a SEQ. -/
def iskCheck (bs : List Nat) (addr seq : Nat) : Nat :=
  Crc.check Crc.crc8 ((bs ++ [addr, seq]).map (BitVec.ofNat 8))

/-- K27.7 and K29.7. -/
def kOpen : Nat := 0x1FB
def kClose : Nat := 0x1FD
/-- The fold address of a broadcast. -/
def foldAll : Nat := 0x1F

def State.send (s : State) (l : Nat) (f : List Nat) : State := s.setLk l { s.lk l with frame := f }

/-! ### Source 15 (R382) -/

/-- Causes of source 15: a link not in RUN, and a missing frame. -/
def tagNotRun (l : Nat) : Nat := l
def tagMissing (l : Nat) : Nat := 2 + l

def State.linkDown (s : State) (l tag : Nat) : State :=
  if s.causeActive (16 + 15) tag then s else s.raise (16 + 15) tag (s.linkUnits l)

/-- LINK_LOST. -/
def State.loseLink (s : State) (l cause : Nat) : State :=
  let s := (s.setLink l linkLost).event
    ⟨UnitCode.isk, 0x901, 3, l, detailOf [(0, cause), (8, s.nfound l)]⟩
  (s.setLk l { s.lk l with out := false, missing := 0, enumFails := 0, upDue := false }).linkDown l (tagNotRun l)

/-- The link enters RUN: LINK_UP. -/
def State.linkUp (s : State) (l : Nat) : State :=
  let s := (s.setLink l linkRun).setLk l { s.lk l with upDue := false, enumFails := 0, missing := 0, out := false }
  (s.endCause (16 + 15) (tagNotRun l)).event
    ⟨UnitCode.isk, 0x900, 0, l, detailOf [(0, s.nfound l), (8, (s.isk1 l).toNat)]⟩

/-! ### Enabling (R370, R381) -/

/-- EN is set: refused for a pair and side that the other enabled link serves, or ENUM begins; Isnak-1
skips the enumeration. -/
def State.linkEnable (s : State) (l : Nat) : State :=
  let other := 1 - l
  if s.iskEn other && (s.linkMap l).any fun x => (s.linkMap other).contains x then
    (s.setFld (Reg.ISK_LINKl_CFG l) Fld.ISK_LINKl_CFG.EN 0).event
      ⟨UnitCode.isk, 0x901, 3, l, detailOf [(0, 2), (8, s.nfound l)]⟩
  else
    let s := s.setLk l { upDue := s.isk1 l }
    (s.setLink l linkEnum).linkDown l (tagNotRun l)

/-- EN is cleared before setup lock. -/
def State.linkDisable (s : State) (l : Nat) : State :=
  let s := (s.setLk l {}).setLink l linkOff
  let s := (List.range 16).foldl (fun s n => s.endCause (16 + 13 + l) n) s
  (s.endCause (16 + 15) (tagNotRun l)).endCause (16 + 15) (tagMissing l)

/-- A write of the link's configuration. -/
def State.linkCfgWritten (s : State) (l : Nat) (old : Word) : State :=
  let was := Fld.ISK_LINKl_CFG.EN.on old
  if s.iskEn l && !was then s.linkEnable l else if !s.iskEn l && was then s.linkDisable l else s

/-! ### Edge plan and heartbeat (R375, R377, R378) -/

/-- Length of the tick under way and of the next, in es. -/
def State.tNow (s : State) : Nat := s.nextBoundary - s.t0
def State.tNext (s : State) : Nat := s.lenAhead

/-- HBWIN for a base time in es: `ceil (HBTMO · t · 17 / 16)` µs. -/
def hbWindow (hbtmo t : Nat) : Nat := min 65535 (ceilDiv (hbtmo * t * 17) (16 * 6400))

/-- Strength of a pair: the bound value, limited to 0 to 3, or the default; and whether it was
limited. -/
def State.strength (s : State) (k : Nat) (off : Bool) : Nat × Bool :=
  let sink := (if off then 0x020 else 0x010) + k
  if s.sinkBound sink then
    let v := ((s.deliveredTo s.eng.applied sink).getD 0).toInt
    let c := max 0 (min 3 v)
    (c.toNat, c != v)
  else (s.fld (Reg.ISK_STRDEFj (k / 8)) ⟨4 * (k % 8) + (if off then 2 else 0), 2⟩, false)

/-- The plan nibble of a pair. -/
def State.planNibble (s : State) (k : Nat) : Nat := (s.strength k false).1 + 4 * (s.strength k true).1

/-- PLAN as eight bytes. -/
def State.planBytes (s : State) : List Nat :=
  (List.range 8).map fun i => s.planNibble (2 * i) + 16 * s.planNibble (2 * i + 1)

/-- Limits met in the strengths of the pairs a link serves. -/
def State.planLimits (s : State) (l : Nat) : Nat :=
  let pairs := (List.range 16).filter fun k => (s.linkMap l).any fun x => x % 16 == k
  (pairs.map fun k => (s.strength k false).2.toNat + (s.strength k true).2.toNat).sum

/-- An edge-plan frame. -/
def State.planFrame (s : State) (l : Nat) (hbwin : Nat) (idle : Bool) : List Nat :=
  let seq := s.iskSeq l
  let body := [0x01, seq, hbwin % 256, hbwin / 256] ++ s.planBytes ++ [idle.toNat]
  [kOpen] ++ body ++ [iskCheck body foldAll seq, kClose]

def State.sendPlan (s : State) (l t : Nat) (idle : Bool) : State :=
  let s := s.count (Reg.ISK_LINKl_CNT l) Fld.ISK_LINKl_CNT.SLIM (s.planLimits l)
  s.send l (s.planFrame l (hbWindow (s.iskCfg l Fld.ISK_LINKl_CFG.HBTMO) t) idle)

/-- The link sends Isnak-2 tick frames. -/
def State.isk2Running (s : State) (l : Nat) : Bool :=
  s.iskEn l && !s.isk1 l && s.linkState l == linkRun && s.ticking

/-- ISK_EDGE_PLAN_SEND (R379): at t0 + 20 ns. -/
def execIskEdgePlanSend (link : Fin 2) (s : State) : Host.Outcome State Fault Refusal :=
  .next (if s.isk2Running link then
    (s.atTick 20).sendPlan link (max s.tNow s.tNext) false else s)

/-- A collection frame with empty slots. -/
def State.collectionFrame (s : State) (l : Nat) : List Nat :=
  let seq := s.iskSeq l
  let slot := [0xFF, 0xFF, 0xFF, iskCheck [0xFF, 0xFF, 0xFF] foldAll seq]
  [kOpen, 0x02, seq] ++ (List.range (s.iskNodes l)).flatMap (fun _ => slot) ++ [kClose]

/-- ISK_COLLECTION_SEND (R379): at t0 + 870 ns. -/
def execIskCollectionSend (link : Fin 2) (s : State) : Host.Outcome State Fault Refusal :=
  .next (if s.isk2Running link then
    let s := (s.atTick 870).send link (s.collectionFrame link)
    s.setLk link { s.lk link with out := true }
  else s)

/-- ISK_IDLE_HEARTBEAT (R377): every 100 µs while the tick is stopped, at instant `t`; a successful
enumeration reaches RUN at one. -/
def execIskIdleHeartbeat (link : Fin 2) (t : Nat) (s : State) : Host.Outcome State Fault Refusal :=
  if s.ticking || !s.iskEn link then .next s
  else
    let s := s.at t
    let s := if (s.lk link).upDue && !s.isk1 link then s.linkUp link else s
    .next (if s.linkState link == linkRun && !s.isk1 link then
      s.sendPlan link (100 * 6400) true else s)

/-! ### Slots (R371, R380, R388) -/

/-- Report at most once per 1,024 ticks. -/
def State.notRecent (s : State) (posted : Nat) : Bool := posted == 0 || decide (posted + 1023 ≤ s.tick)

/-- A node fault begins: NODE_FAULT, and source 13 or 14 acts on the unit of the node's pair. -/
def State.nodeFault (s : State) (l n s0 kind : Nat) : State :=
  let s := s.event ⟨UnitCode.isk, 0x902, 3, l, detailOf [(0, n), (8, s0), (16, kind)]⟩
  if s.causeActive (16 + 13 + l) n then s
  else s.raise (16 + 13 + l) n (2 ^ s.unitOfPair (s.nodePair l n))

/-- A slot fails: it counts toward SLOTN, and a node that reaches it is faulty until a valid slot. -/
def State.slotFails (s : State) (l n : Nat) : State :=
  let x := s.nd l n
  let s := s.count (Reg.ISK_LINKl_CNT l) Fld.ISK_LINKl_CNT.SLOTERR
  let fails := min 255 (x.fails + 1)
  let s :=
    if s.notRecent x.errPosted then
      (s.setNd l n { x with fails, errs := 0, errPosted := s.tick + 1 }).event
        ⟨UnitCode.isk, 0x903, 0, l, detailOf [(0, n), (8, satAdd 16 x.errs 1)]⟩
    else s.setNd l n { x with fails, errs := satAdd 16 x.errs 1 }
  if s.iskCfg l Fld.ISK_LINKl_CFG.SLOTN ≤ fails ∧ !x.silent then
    (s.setNd l n { s.nd l n with silent := true }).nodeFault l n (x.data.toNat % 256) 1
  else s

/-- PLAN_NACK. -/
def State.planNack (s : State) (l n s2 : Nat) : State :=
  let s := s.count (Reg.ISK_LINKl_CNT l) Fld.ISK_LINKl_CNT.PLANERR
  let x := s.nd l n
  if s.notRecent x.nackPosted then
    (s.setNd l n { x with nackPosted := s.tick + 1 }).event
      ⟨UnitCode.isk, 0x904, 0, l, detailOf [(0, n), (8, s2)]⟩
  else s

/-- The node's pair has made an edge since the boundary. -/
def State.edgeMade (s : State) (k : Nat) : Bool :=
  let p := (s.settle).pair k
  decide (s.t0 ≤ p.lastEdge) && decide (0 < p.lastEdge)

/-- A valid slot shows that the plan was not latched. -/
def State.nacked (s : State) (l n s0 s2 : Nat) : Bool :=
  (hasBit s0 5 || s2 != (s.iskSeq l + 255) % 256) && s.edgeMade (s.nodePair l n)

/-- A valid slot. -/
def State.slotValid (s : State) (l n s0 s1 s2 : Nat) : State :=
  let x := s.nd l n
  let bad := hasBit s0 0 || hasBit s0 1 || hasBit s0 3
  let s := s.setNd l n { x with fails := 0, silent := false, reported := bad, data := detailOf [(0, s0), (8, s1), (16, s2)], age := 0 }
  let s := if bad && !x.reported then s.nodeFault l n s0 0 else s
  if bad then s else s.endCause (16 + 13 + l) n

/-- Judge the slot of a node. -/
def State.judgeSlot (s : State) (l n : Nat) (b : List Nat) : State :=
  match b with
  | [s0, s1, s2, c] =>
      if c = iskCheck [s0, s1, s2] n (s.iskSeq l) then
        let s := s.slotValid l n s0 s1 s2
        if !s.isk1 l && s.nacked l n s0 s2 then s.planNack l n s2 else s
      else s.slotFails l n
  | _ => s.slotFails l n

/-- Judge every slot of a collection frame. -/
def State.judgeSlots (s : State) (l : Nat) (slots : List (List Nat)) : State :=
  (List.range (s.iskNodes l)).foldl (fun s n => s.judgeSlot l n (slots.getD n [])) s

/-- ISK_COLLECTION_JUDGE (R380): a collection frame has returned complete, with these slots, and is
judged at instant `t`. -/
def execIskCollectionJudge (link : Fin 2) (slots : List (List Nat)) (t : Nat) (s : State) :
    Host.Outcome State Fault Refusal :=
  if !(s.isk2Running link && (s.lk link).out) then .next s
  else
    let s := s.at t
    let s := s.setLk link { s.lk link with out := false, missing := 0 }
    .next ((s.endCause (16 + 15) (tagMissing link)).judgeSlots link slots)

/-! ### Enumeration (R381, R383) -/

/-- An enumeration frame. -/
def enumFrame : List Nat := [kOpen, 0x03, 0x00, kClose]

/-- The returned address byte of an enumeration, none where nothing returned. -/
def State.enumerated (s : State) (l : Nat) (back : Option Nat) : State :=
  let s := match back with
    | some v => s.setFld (Reg.ISK_LINKl_STAT l) Fld.ISK_LINKl_STAT.NFOUND v
    | none => s
  if back = some (s.iskNodes l) then s.setLk l { s.lk l with upDue := true, enumFails := 0 }
  else
    let n := (s.lk l).enumFails + 1
    let s := s.setLk l { s.lk l with enumFails := min n 8 }
    if n = 8 ∧ s.linkState l = linkEnum then s.loseLink l 1 else s

/-- ISK_ENUMERATION (R381): an enumeration frame sent at instant `t` has returned, or not. -/
def execIskEnumeration (link : Fin 2) (back : Option Nat) (t : Nat) (s : State) :
    Host.Outcome State Fault Refusal :=
  let st := s.linkState link
  .next (if s.iskEn link && !s.isk1 link && (st == linkEnum || st == linkLost) && !(s.lk link).upDue then
    ((s.at t).send link enumFrame).enumerated link back else s)

/-! ### A link at a boundary (R375, R379, R383) -/

/-- A collection frame that has not returned by the boundary is missing. -/
def State.frameMissing (s : State) (l : Nat) : State :=
  let n := (s.lk l).missing + 1
  let s := (s.count (Reg.ISK_LINKl_CNT l) Fld.ISK_LINKl_CNT.FMISS).setLk l
    { s.lk l with out := false, missing := n }
  let s := s.linkDown l (tagMissing l)
  if s.iskCfg l Fld.ISK_LINKl_CFG.LOSTN ≤ n then s.loseLink l 0 else s

/-- The age of every node's status grows. -/
def State.ageNodes (s : State) (l : Nat) : State :=
  (List.range (s.iskNodes l)).foldl (fun s n => s.setNd l n { s.nd l n with age := min 255 ((s.nd l n).age + 1) }) s

/-- A link at a tick boundary: SEQ counts, a frame still out is missing, and RUN is entered when due;
Isnak-1 enters it without enumeration. -/
def State.linkBoundary (s : State) (l : Nat) : State :=
  if !s.iskEn l then s
  else
    let s := s.setFld (Reg.ISK_LINKl_STAT l) Fld.ISK_LINKl_STAT.SEQ ((s.iskSeq l + 1) % 256)
    let s := s.ageNodes l
    let s := if (s.lk l).out then s.frameMissing l else s
    if (s.lk l).upDue || (s.isk1 l && s.linkState l == linkLost) then s.linkUp l else s

/-- The lowest faulty node, 0xFF for none. -/
def State.lowestFaulty (s : State) (l : Nat) : Nat :=
  ((List.range (s.iskNodes l)).find? fun n => s.causeActive (16 + 13 + l) n).getD 0xFF

/-- Publish the status of the nodes (R380). -/
def State.publishLink (s : State) (l : Nat) : State :=
  if !s.iskEn l then s
  else
    let s := (List.range (s.iskNodes l)).foldl (fun s n =>
      let x := s.nd l n
      s.setReg (Reg.ISK_NODEl_n l n) (Fld.ISK_NODEl_n.AGE.put x.age x.data)) s
    s.setFld (Reg.ISK_LINKl_STAT l) Fld.ISK_LINKl_STAT.FNODE (s.lowestFaulty l)

/-! ### Isnak-1 (R384, R385) -/

def State.isk1Running (s : State) (l : Nat) : Bool :=
  s.iskEn l && s.isk1 l && s.linkState l == linkRun && s.ticking

/-- The polls after the last broadcast are over: LOSTN broadcasts in a row without a reply lose the
link. -/
def State.judgeBroadcast (s : State) (l : Nat) : State :=
  let x := s.lk l
  let n := if x.polls = 0 then x.missing else if x.answers = 0 then x.missing + 1 else 0
  let s := s.setLk l { x with polls := 0, answers := 0, missing := n }
  if x.polls ≠ 0 ∧ s.iskCfg l Fld.ISK_LINKl_CFG.LOSTN ≤ n then s.loseLink l 0 else s

/-- ISK1_BROADCAST (R384): at t0 + 20 ns. -/
def execIsk1Broadcast (link : Fin 2) (s : State) : Host.Outcome State Fault Refusal :=
  if !s.isk1Running link then .next s
  else
    let s := (s.atTick 20).judgeBroadcast link
    let seq := s.iskSeq link
    .next (if s.linkState link == linkRun then
      s.send link [0x55, 0x01, seq, iskCheck [0x55, 0x01, seq] foldAll seq] else s)

/-- The reply of a node, by its check. -/
def State.judgeReply (s : State) (l n : Nat) (reply : Option (List Nat)) : State :=
  match reply with
  | some [a, s0, s1, s2, c] =>
      if a = n ∧ c = iskCheck [a, s0, s1, s2] n (s.iskSeq l) then s.slotValid l n s0 s1 s2
      else s.slotFails l n
  | _ => s.slotFails l n

/-- ISK1_POLL (R384): the poll that ends at instant `t`, with its reply; it runs only if it ends 500 ns
before the boundary. -/
def execIsk1Poll (link : Fin 2) (reply : Option (List Nat)) (t : Nat) (s : State) :
    Host.Outcome State Fault Refusal :=
  if !(s.isk1Running link && decide (t + 3200 ≤ s.nextBoundary)) then .next s
  else
    let x := s.lk link
    let n := x.poll % s.iskNodes link
    let seq := s.iskSeq link
    let s := (s.at t).send link [n, seq, iskCheck [n, seq] n seq]
    let s := s.setLk link { s.lk link with poll := (n + 1) % s.iskNodes link, polls := x.polls + 1,
                                           answers := x.answers + reply.isSome.toNat }
    .next (s.judgeReply link n reply)

end Sys2Proof.Machine
end

