-- ==== Sys2Proof/Machine/Thermal.lean ====
section
/-! DEFINITION. The thermal model and thermal management (R389 to R407).  Each step is rounded to
binary32. -/

set_option Elab.async false

namespace Sys2Proof.Machine

/-! ### Legs and parameters -/

def State.leg (s : State) (k : Nat) : ThmLeg := tabGet {} s.thm.legs k
def State.setLeg (s : State) (k : Nat) (x : ThmLeg) : State :=
  { s with thm.legs := tabSet {} s.thm.legs k x }
def State.tunit (s : State) (u : Nat) : ThmUnit := tabGet {} s.thm.units u
def State.setTunit (s : State) (u : Nat) (x : ThmUnit) : State :=
  { s with thm.units := tabSet {} s.thm.units u x }

def State.thmEn (s : State) : Bool := s.on Reg.THM_CFG Fld.THM_CFG.EN
def State.legCfg (s : State) (k : Nat) (f : Bits) : Nat := s.fld (Reg.THM_LEGk_CFG k) f
def State.legSet (s : State) (k : Nat) : Nat := s.legCfg k Fld.THM_LEGk_CFG.PS
/-- Parameter word `w` of a leg's set, as a word and as a real. -/
def State.psWord (s : State) (k w : Nat) : Word := s.reg (Reg.THM_PSs_w (s.legSet k) w)
def State.ps (s : State) (k w : Nat) : Rat := Num.val (s.psWord k w)

/-- The legs of a unit. -/
def State.legsOf (s : State) (u : Nat) : List Nat := (List.range 8).filter fun k => s.unitOfPair k == u

/-! ### Inputs of a leg (R391, R393) -/

def State.inputValid (s : State) (k : Nat) : Bool := s.sig (0x113 + 4 * k) == 1

/-- The input of a leg that is not valid, the current first. -/
def State.legBad (s : State) (k : Nat) : Option Nat :=
  let i := s.legCfg k Fld.THM_LEGk_CFG.IIN
  let v := s.legCfg k Fld.THM_LEGk_CFG.VIN
  if !s.inputValid i then some i else if !s.inputValid v then some v else none

/-- Take the inputs of the window, or keep the last valid ones. -/
def State.legInputs (s : State) (k : Nat) : State :=
  let x := s.leg k
  match s.legBad k with
  | none =>
      let i := 0x110 + 4 * s.legCfg k Fld.THM_LEGk_CFG.IIN
      let v := 0x110 + 4 * s.legCfg k Fld.THM_LEGk_CFG.VIN
      (s.setLeg k { x with iAvg := s.sig i, iMin := s.sig (i + 1), iMax := s.sig (i + 2), v := s.sig v,
                           bad := 0 }).f2Ends 0xA02 k
  | some input =>
      let n := min 65 (x.bad + 1)
      let s := s.setLeg k { x with bad := n }
      if n = 64 then
        ((s.f2Begins 0xA02 k).count Reg.THM_CNT Fld.THM_CNT.INPUT).event
          ⟨UnitCode.thm, 0xA02, 2, s.unitOfPair k, detailOf [(0, k), (8, input)]⟩
      else s

/-- Current of a leg, with its sign. -/
def State.legCurrent (s : State) (k : Nat) : Rat :=
  let i := Num.val (s.leg k).iAvg
  if s.legCfg k Fld.THM_LEGk_CFG.INV = 1 then -i else i

/-- Mean square of the current. -/
def State.legSquare (s : State) (k : Nat) : Rat :=
  let x := s.leg k
  let a := Num.val x.iAvg
  let d := Num.sub (Num.val x.iMax) (Num.val x.iMin)
  Num.add (Num.mul a a) (Num.div (Num.mul d d) 12)

/-! ### Strength codes (R391) -/

/-- An Isnak-2 link carries the plan of a pair. -/
def State.planned (s : State) (k : Nat) : Bool :=
  [0, 1].any fun l => s.iskEn l && !s.isk1 l && (s.linkMap l).any fun x => x % 16 == k

/-- The strength nibble of the edge plan sent at this boundary, or that of ISK_STRDEF. -/
def State.codeNow (s : State) (k : Nat) : Nat :=
  if s.planned k then s.planNibble k else s.fld (Reg.ISK_STRDEFj (k / 8)) ⟨4 * (k % 8), 4⟩

/-! ### Losses (R391, R392) -/

/-- A byte of KON or KOFF, in units of 1/64. -/
def State.kFactor (s : State) (k w code : Nat) : Rat :=
  mkRat ((⟨8 * (code % 4), 8⟩ : Bits).of (s.psWord k w)) 64

/-- An energy `e0 + e1·a` scaled with the voltage. -/
def State.energy (s : State) (k w : Nat) (a kv : Rat) : Rat :=
  Num.mul (Num.add (s.ps k w) (Num.mul (s.ps k (w + 1)) a)) kv

/-- Conduction fraction, turn-ons and turn-offs of the conducting switch. -/
def State.legWindow (s : State) (k : Nat) (pos : Bool) : Rat × Nat × Nat :=
  let w := (s.pair k).closed
  let len := s.prevLen
  if pos then (Num.round24 (mkRat w.h len), w.hOns, w.hOffs)
  else (Num.round24 (mkRat w.l len), w.lOns, w.lOffs)

/-- Conduction loss `v0·a + r·r2` over a fraction. -/
def State.conduction (s : State) (k w : Nat) (f a r2 : Rat) : Rat :=
  Num.mul f (Num.add (Num.mul (s.ps k w) a) (Num.mul (s.ps k (w + 1)) r2))

def ofCount (n : Nat) : Rat := (n : Rat)

/-- Switching loss of the switch. -/
def State.switching (s : State) (k : Nat) (a kv : Rat) (ons offs : Nat) : Rat :=
  let code := (s.leg k).codeWas
  let eon := Num.mul (s.energy k 4 a kv) (s.kFactor k 11 (code % 4))
  let eoff := Num.mul (s.energy k 6 a kv) (s.kFactor k 12 (code / 4))
  Num.div (Num.add (Num.mul (ofCount ons) eon) (Num.mul (ofCount offs) eoff)) s.tPrev

/-- The hardware losses of a leg: switch and diode. -/
def State.hardLoss (s : State) (k : Nat) : Rat × Rat :=
  let i := s.legCurrent k
  let a := Num.absR i
  let r2 := s.legSquare k
  let kv := Num.div (Num.val (s.leg k).v) (s.ps k 10)
  let (fs, ons, offs) := s.legWindow k (!decide (i < 0))
  let rec' := Num.div (Num.mul (ofCount ons) (s.energy k 8 a kv)) s.tPrev
  (Num.add (s.conduction k 0 fs a r2) (s.switching k a kv ons offs),
   Num.add (s.conduction k 2 (Num.sub 1 fs) a r2) rec')

/-- A bound loss: below 0 it counts as 0, and an unbound sink gives 0. -/
def State.boundLoss (s : State) (sink : Nat) : Rat :=
  let v := Num.val ((s.deliveredTo s.eng.applied sink).getD 0)
  if v < 0 then 0 else v

/-- The losses that drive a leg's nodes. -/
def State.legLoss (s : State) (k : Nat) : Rat × Rat :=
  let src := s.legCfg k Fld.THM_LEGk_CFG.LSRC
  let b := (s.boundLoss (0x090 + 2 * k), s.boundLoss (0x091 + 2 * k))
  if src = 1 then b
  else
    let h := s.hardLoss k
    if src = 2 then (Num.add h.1 b.1, Num.add h.2 b.2) else h

/-- Publish the losses of a leg. -/
def State.putLoss (s : State) (k : Nat) : State :=
  let p := s.legLoss k
  (s.setReg (Reg.THM_LEGk_PSW k) (Num.pack p.1)).setReg (Reg.THM_LEGk_PDI k) (Num.pack p.2)

def State.psw (s : State) (k : Nat) : Rat := s.real (Reg.THM_LEGk_PSW k)
def State.pdi (s : State) (k : Nat) : Rat := s.real (Reg.THM_LEGk_PDI k)

/-! ### Foster networks (R394) -/

/-- The factor of a stage: `exp (-t/τ)`, within 2^-20. -/
def stageFactor (t tau : Word) : Rat :=
  let e := max (-(2 ^ 40 - 2 ^ 37 : Int)) (min (2 ^ 40 - 2 ^ 37) (Config.expError t tau))
  let a := Num.expNeg (Num.val t / Num.val tau) + (e : Rat) / (2 ^ 60 : Nat)
  Num.round24 (if a < 0 then 0 else if 1 < a then 1 else a)

/-- A stage after a window of length `t`, with loss `p`. -/
def stageStep (t : Word) (p r : Rat) (tau d : Word) : Word :=
  if Num.val tau = 0 then 0
  else
    let a := stageFactor t tau
    Num.pack (Num.add (Num.mul (Num.val d) a) (Num.mul (Num.mul r p) (Num.sub 1 a)))

/-- The stages of a node whose resistances and time constants start at parameter word `w`. -/
def State.nodeStep (s : State) (k w : Nat) (t : Word) (p : Rat) (ds : List Word) : List Word :=
  (List.range 4).map fun n => stageStep t p (s.ps k (w + n)) (s.psWord k (w + 4 + n)) (ds.getD n 0)

/-- A node temperature `T_REF + ((ΔT_0 + ΔT_1) + ΔT_2) + ΔT_3`; the chip has no fourth stage. -/
def nodeTemp (tRef : Rat) (ds : List Word) : Rat :=
  let d := fun i => Num.val (ds.getD i 0)
  Num.add (Num.add tRef (Num.add (Num.add (d 0) (d 1)) (d 2))) (d 3)

/-! ### Anchors (R395, R396) -/

/-- A temperature through a linearisation table. -/
def State.linearise (s : State) (t : Nat) (x : Rat) : Rat :=
  let p := fun i => s.real (Reg.THM_LINt_p t i)
  let u := Num.div (Num.sub x (p 0)) (p 1)
  let u := if u < 0 then 0 else if 32 < u then 32 else u
  let i := u.floor.toNat
  if i < 32 then lerp (p (2 + i)) (p (3 + i)) (Num.sub u (i : Rat)) else p 34

/-- Temperature of an anchor, none while it is invalid or the code names none. -/
def State.anchor (s : State) (a : Nat) : Option Rat :=
  if 8 ≤ a then none
  else match s.sarAvg (s.fld (Reg.THM_ANCHa_CFG a) Fld.THM_ANCHa_CFG.IN) with
    | none => none
    | some x =>
        let lin := s.fld (Reg.THM_ANCHa_CFG a) Fld.THM_ANCHa_CFG.LIN
        some (if lin = 0 then x else s.linearise (lin - 1) x)

/-- Publish the anchors. -/
def State.putAnchors (s : State) : State :=
  (List.range 8).foldl (fun s a => match s.anchor a with
    | some t => s.setReg (Reg.THM_ANCHa_T a) (Num.pack t)
    | none => s) s

/-- Losses of every leg on the same baseplate anchor. -/
def State.plateLoss (s : State) (k : Nat) : Rat :=
  let b := s.legCfg k Fld.THM_LEGk_CFG.BANCH
  ((List.range 8).filter fun j => s.legCfg j Fld.THM_LEGk_CFG.BANCH == b).foldl
    (fun x j => Num.add x (Num.add (s.psw j) (s.pdi j))) 0

/-- The reference of a leg and its source. -/
def State.legRef (s : State) (k : Nat) : Rat × Nat :=
  match s.anchor (s.legCfg k Fld.THM_LEGk_CFG.BANCH) with
  | some t => (t, 0)
  | none => match s.anchor (s.legCfg k Fld.THM_LEGk_CFG.CANCH) with
    | some t => (Num.add t (Num.mul (s.ps k 29) (s.plateLoss k)), 1)
    | none => (Num.val (s.leg k).tRef, 2)

/-- A leg takes its reference; a change of source posts THM_ANCHOR. -/
def State.putRef (s : State) (k : Nat) : State :=
  let x := s.leg k
  let (t, src) := s.legRef k
  let s := s.setLeg k { x with tRef := Num.pack t, src,
                               heldFor := if src = 2 then (if x.src = 2 then x.heldFor + s.prevLen else 0) else 0 }
  if src = x.src then s
  else
    let s := if src = 0 then s.f2Ends 0xA01 k else s.f2Begins 0xA01 k
    (s.count Reg.THM_CNT Fld.THM_CNT.ANCH).event
      ⟨UnitCode.thm, 0xA01, 2, s.unitOfPair k, detailOf [(0, k), (8, src)]⟩

/-- The nodes of a leg after the window. -/
def State.putNodes (s : State) (k : Nat) : State :=
  let x := s.leg k
  let t := s.sig 0x103
  let sw := s.nodeStep k 13 t (s.psw k) x.sw
  let di := s.nodeStep k 21 t (s.pdi k) x.di
  let r := Num.val x.tRef
  let s := s.setLeg k { x with sw, di }
  (s.setReg (Reg.THM_LEGk_TSW k) (Num.pack (nodeTemp r sw))).setReg (Reg.THM_LEGk_TDI k)
    (Num.pack (nodeTemp r di))

/-! ### The chip (R397) -/

/-- The reference of the chip network: its anchor while valid, else the field-die sensor. -/
def State.chipRef (s : State) (tField : Word) : Rat :=
  (s.anchor (s.fld Reg.THM_CFG Fld.THM_CFG.CHIPANCH)).getD (Num.val tField)

/-- The chip network after a window, from the rail power and the die sensors. -/
def State.putChip (s : State) (power tCore tField : Word) : State :=
  let t := s.sig 0x103
  let ds := (List.range 3).map fun n =>
    stageStep t (Num.val power) (s.real (Reg.THM_CHIP_Rn n)) (s.reg (Reg.THM_CHIP_TAUn n)) (s.thm.chip.getD n 0)
  let model := nodeTemp (s.chipRef tField) ds
  let s := { s with thm.chip := ds }
  (s.setReg Reg.THM_CHIP_P power).setReg Reg.THM_CHIP_T
    (Num.pack (max model (max (Num.val tCore) (Num.val tField))))

/-! ### Levels (R398) -/

abbrev thmNormal : Nat := 0
abbrev thmThrottle : Nat := 2
abbrev thmShutdown : Nat := 3

/-- State field of a unit, or of the chip as number 5. -/
def thmField (u : Nat) : Bits := if u = 5 then Fld.THM_STAT.CHIP else ⟨16 + 2 * u, 2⟩
def State.thmState (s : State) (u : Nat) : Nat := s.fld Reg.THM_STAT (thmField u)

/-- The hottest node of a unit: its number (2k switch, 2k + 1 diode) and temperature. -/
def State.hottest (s : State) (u : Nat) : Option (Nat × Rat) :=
  ((s.legsOf u).flatMap fun k =>
    [(2 * k, s.real (Reg.THM_LEGk_TSW k)), (2 * k + 1, s.real (Reg.THM_LEGk_TDI k))]).foldl
    (fun best n => match best with
      | none => some n
      | some b => if b.2 < n.2 then some n else best) none

/-- Time since the first evaluation of an unbroken run, after one more window. -/
def runOn (t : Option Nat) (holds : Bool) (len : Nat) : Option Nat :=
  if holds then some ((t.map (· + len)).getD 0) else none

def reached (t : Option Nat) (dwell : Nat) : Bool := (t.map fun x => decide (dwell ≤ x)).getD false

/-- One evaluation of a qualifier. -/
def Qual.eval (q : Qual) (temp level hys : Rat) (dwell len : Nat) : Qual :=
  let above := runOn q.above (decide (level ≤ temp)) len
  let below := runOn q.below (decide (temp ≤ level - hys)) len
  ⟨if reached above dwell then true else if reached below dwell then false else q.on, above, below⟩

/-- Level byte `i` of a level word, in °C. -/
def levelOf (w : Word) (i : Nat) : Rat := ((⟨8 * i, 8⟩ : Bits).of w : Rat) - 50

/-- One evaluation of a unit's qualifiers by a level word and a word with HYS and DWELL. -/
def ThmUnit.eval (x : ThmUnit) (temp : Rat) (levels act : Word) (len : Nat) : ThmUnit :=
  let hys : Rat := ((⟨0, 4⟩ : Bits).of act : Rat)
  let dwell := (⟨8, 8⟩ : Bits).of act * esPerMs
  ⟨x.warn.eval temp (levelOf levels 0) hys dwell len, x.thr.eval temp (levelOf levels 1) hys dwell len,
   x.shut.eval temp (levelOf levels 2) hys dwell len⟩

/-- The highest level whose qualifier is set. -/
def ThmUnit.level (x : ThmUnit) : Nat := if x.shut.on then 3 else if x.thr.on then 2 else if x.warn.on then 1 else 0

/-- A leg holds its unit at THROTTLE or above. -/
def State.legHolds (s : State) (k : Nat) : Bool :=
  let x := s.leg k
  decide (64 ≤ x.bad) || (x.src == 2 && decide (esPerSecond ≤ x.heldFor))

/-- The units source 21 acts on for unit `u`, 5 meaning the chip. -/
def thmUnits (u : Nat) : Nat := if u = 5 then 0x1F else 2 ^ u

/-- A change of state: THM_STATE, and source 21 at SHUTDOWN. -/
def State.thmChange (s : State) (u new node : Nat) (temp : Rat) : State :=
  let old := s.thmState u
  if old = new then s
  else
    let s := (s.setFld Reg.THM_STAT (thmField u) new).count Reg.THM_CNT Fld.THM_CNT.TRANS
    let t := toField 16 (satSigned 16 (Num.roundInt (temp * 64)))
    let s := s.event ⟨UnitCode.thm, 0xA00, if new = thmShutdown then 3 else 0, u,
      detailOf [(0, old), (4, new), (8, node), (16, t)]⟩
    if new = thmShutdown then s.raise (16 + 21) u (thmUnits u) else s

/-- The evaluation of a unit, by the parameter set of its hottest node. -/
def State.evalUnit (s : State) (u : Nat) : State :=
  match s.hottest u with
  | none => s
  | some (node, temp) =>
      let k := node / 2
      let x := (s.tunit u).eval temp (s.psWord k 30) (s.psWord k 31) s.prevLen
      let st := if (s.legsOf u).any s.legHolds then max thmThrottle x.level else x.level
      (s.setTunit u x).thmChange u st node temp

/-- The evaluation of the chip. -/
def State.evalChip (s : State) : State :=
  let temp := s.real Reg.THM_CHIP_T
  let x := (s.tunit 5).eval temp (s.reg Reg.THM_CHIP_LVL) (s.reg Reg.THM_CHIP_ACT) s.prevLen
  (s.setTunit 5 x).thmChange 5 x.level 16 temp

/-! ### Actions (R400 to R402) -/

def State.chipThrottles (s : State) : Bool := decide (thmThrottle ≤ s.thmState 5)

/-- The parameter word 31 that rules a unit: that of its hottest leg. -/
def State.actWord (s : State) (u : Nat) : Word :=
  match s.hottest u with
  | some (node, _) => s.psWord (node / 2) 31
  | none => 0

/-- The derate of a unit. -/
def State.derate (s : State) (u : Nat) : Rat :=
  let st := s.thmState u
  let d : Rat := if st = thmShutdown then 0
    else if st = thmThrottle then mkRat ((⟨24, 8⟩ : Bits).of (s.actWord u)) 256 else 1
  if s.chipThrottles then Num.mul d (mkRat (s.fld Reg.THM_CHIP_ACT Fld.THM_CHIP_ACT.CDER) 256) else d

/-- The largest divisor requested. -/
def State.wantDivisor (s : State) : Nat :=
  let req := fun u => if thmThrottle ≤ s.thmState u then 2 ^ (⟨16, 2⟩ : Bits).of (s.actWord u) else 1
  let chip := if s.chipThrottles then 2 ^ s.fld Reg.THM_CHIP_ACT Fld.THM_CHIP_ACT.CDIV else 1
  ([0, 1, 2, 3, 4].map req).foldl max chip

/-- What this evaluation decides for the boundaries to come (Table THM-1). -/
def State.decideThermal (s : State) : State :=
  let chip := s.chipThrottles
  { s with thm := { s.thm with
      ders := [0, 1, 2, 3, 4].map fun u => Num.pack (s.derate u),
      divDecided := s.wantDivisor,
      hdivNext := if chip then s.fld Reg.THM_CHIP_ACT Fld.THM_CHIP_ACT.HDIV else 0,
      skipNext := chip && s.on Reg.THM_CHIP_ACT Fld.THM_CHIP_ACT.SKIP } }

/-- Nothing is requested while the model does not run (R390). -/
def State.thermalOff (s : State) : State :=
  let s := [0, 1, 2, 3, 4, 5].foldl (fun s u => (s.setFld Reg.THM_STAT (thmField u) 0).setTunit u {}) s
  { s with thm := { s.thm with ders := List.replicate 5 0x3F800000, divDecided := 1, hdivNext := 0,
                               skipNext := false } }

/-- The model's evaluation at t0 + 150 ns. -/
def State.thermalRun (s : State) (power tCore tField : Word) : State :=
  let legs := List.range 8
  let s := s.putAnchors
  let s := legs.foldl (fun s k => (s.legInputs k).putLoss k) s
  let s := legs.foldl (fun s k => (s.putRef k).putNodes k) s
  let s := s.putChip power tCore tField
  let s := [0, 1, 2, 3, 4].foldl (fun s u => s.evalUnit u) s
  s.evalChip.decideThermal

/-- The least derate. -/
def leastWord (ws : List Word) : Word :=
  ws.foldl (fun a b => if Num.val b < Num.val a then b else a) 0x3F800000

/-- Publish the words of R406 and THERM_DERATE; derates are those decided at the boundary before. -/
def State.publishThermal (s : State) (ders : List Word) : State :=
  let s := [0, 1, 2, 3, 4].foldl (fun s u =>
    (s.publishReal (0x290 + 2 * u) (((s.hottest u).map (·.2)).getD 0)).publish (0x291 + 2 * u)
      (ders.getD u 0x3F800000)) s
  let s := (s.publish 0x29A (s.reg Reg.THM_CHIP_T)).publish 0x29B (BitVec.ofNat 32 (s.thmState 5))
  (s.publish 0x29C (BitVec.ofNat 32 s.thm.div)).publish 0x105 (leastWord ders)

/-- Thermal management at t0 + 150 ns. -/
def State.thermal (s : State) (power tCore tField : Word) : State :=
  let ders := if s.thmEn then s.thm.ders else List.replicate 5 0x3F800000
  let s := if s.thmEn then s.thermalRun power tCore tField else s.thermalOff
  s.publishThermal ders

/-- Code of a divisor. -/
def divCode (d : Nat) : Nat := if d = 8 then 3 else if d = 4 then 2 else if d = 2 then 1 else 0

/-- What was decided comes into force at a boundary: the divisor after its notice in T_NEXT, host clock
division and skipping at once, and source 21 ends where its qualifier has cleared. -/
def State.thermalBoundary (s : State) : State :=
  let t := s.thm
  let s := { s with thm := { t with div := t.divNext, divNext := t.divDecided }, eng.skip := t.skipNext }
  let s := (((s.setFld Reg.THM_STAT Fld.THM_STAT.DIV (divCode s.thm.div)).setFld Reg.THM_STAT
    Fld.THM_STAT.HDIV t.hdivNext).setFld Reg.THM_STAT Fld.THM_STAT.SKIP t.skipNext.toNat)
  let s := [0, 1, 2, 3, 4, 5].foldl (fun s u =>
    if (s.tunit u).shut.on then s else s.endCause (16 + 21) u) s
  (List.range 8).foldl (fun s k =>
    s.setLeg k { s.leg k with codeWas := (s.leg k).code, code := s.codeNow k }) s

/-- At the first boundary after PARK every stage decays with no loss over a time in es. -/
def State.thermalDecay (s : State) (es : Nat) : State :=
  let t := Num.pack (esToSec es)
  let s := (List.range 8).foldl (fun s k =>
    let x := s.leg k
    s.setLeg k { x with sw := s.nodeStep k 13 t 0 x.sw, di := s.nodeStep k 21 t 0 x.di }) s
  { s with thm.chip := (List.range 3).map fun n =>
      stageStep t 0 (s.real (Reg.THM_CHIP_Rn n)) (s.reg (Reg.THM_CHIP_TAUn n)) (s.thm.chip.getD n 0) }

end Sys2Proof.Machine
end

