-- ==== Sys2Proof/Machine/Clocks.lean ====
section
/-! DEFINITION. Clock domains, the PLLs and the reference, TICK_IN and the real-time clock's source
(R408 to R431). -/

set_option Elab.async false

namespace Sys2Proof.Machine

/-! ### PLLs (Table CLK-4) -/

def State.pll (s : State) (p : Nat) : PllRun := tabGet {} s.clk.plls p
def State.setPll (s : State) (p : Nat) (x : PllRun) : State :=
  { s with clk.plls := tabSet {} s.clk.plls p x }

abbrev pllOff : Nat := 0
abbrev pllFilter : Nat := 1
abbrev pllAcquire : Nat := 2
abbrev pllLocked : Nat := 3
abbrev pllHoldover : Nat := 4
abbrev pllQuarantine : Nat := 5
abbrev pllUnlocked : Nat := 6
abbrev pllRetired : Nat := 7

def State.pllState (s : State) (p : Nat) : Nat := s.fld (Reg.CLK_PLLp_STAT p) Fld.CLK_PLLp_STAT.STATE
def State.setPllState (s : State) (p v : Nat) : State :=
  s.setFld (Reg.CLK_PLLp_STAT p) Fld.CLK_PLLp_STAT.STATE v
def State.setLdmv (s : State) (p mv : Nat) : State :=
  s.setFld (Reg.CLK_PLLp_STAT p) Fld.CLK_PLLp_STAT.LDMV mv
def State.pllEn (s : State) (p : Nat) : Bool := s.on (Reg.CLK_PLLp_CFG p) Fld.CLK_PLLp_CFG.EN

/-- Locked, in holdover included: the PLL can carry domains. -/
def State.pllServes (s : State) (p : Nat) : Bool :=
  s.pllState p == pllLocked || s.pllState p == pllHoldover
def State.pllGone (s : State) (p : Nat) : Bool := s.pllState p == pllRetired
def State.refPresent (s : State) : Bool := s.on Reg.CLK_STAT Fld.CLK_STAT.REF

/-- f_VCO as programmed, in units of 2^-24 MHz (R408, R410): the crystal has 20 MHz, REFCLK_IN the expected FREF. -/
def State.vcoFreq (s : State) (p : Nat) : Nat :=
  let ref := if s.on Reg.CLK_REF Fld.CLK_REF.SEL then s.fld Reg.CLK_REF Fld.CLK_REF.FREF else 20
  let n := s.fld (Reg.CLK_PLLp_CFG p) Fld.CLK_PLLp_CFG.NINT * 2 ^ 24 + s.fld (Reg.CLK_PLLp_FRAC p) Fld.CLK_PLLp_FRAC.NFRAC
  ref * n / (s.fld (Reg.CLK_PLLp_CFG p) Fld.CLK_PLLp_CFG.RDIV + 1)

/-- A setting that places f_VCO outside 3.1 GHz to 3.3 GHz never locks (R410). -/
def State.vcoLocks (s : State) (p : Nat) : Bool :=
  decide (3100 * 2 ^ 24 ≤ s.vcoFreq p) && decide (s.vcoFreq p ≤ 3300 * 2 ^ 24)

/-- Physical unit of a PLL. -/
def pllUnit (p : Nat) : Nat := 0x2C + p
def other (p : Nat) : Nat := 1 - p

/-! ### Where the domains belong (Table CLK-3, R415) -/

/-- Every PLL that is not retired has passed its quarantine since reset. -/
def State.homing (s : State) : Bool :=
  s.clk.homed || ((s.pllServes 0 || s.pllGone 0) && (s.pllServes 1 || s.pllGone 1) &&
    (s.pllServes 0 || s.pllServes 1))

/-- The source of the domains whose home is PLL `p`: 0 home, 1 the other PLL, 2 backup. -/
def State.sourceFor (s : State) (p : Nat) : Nat :=
  if !s.clk.homed then 2 else if s.pllServes p then 0 else if s.pllServes (other p) then 1 else 2

/-- The PLL that carries a domain of home `p` whose source is `src`, none on the backup. -/
def carrier (p src : Nat) : Option Nat := if src = 0 then some p else if src = 1 then some (other p) else none

/-! ### Moves -/

/-- The CAN controllers stop with their outputs recessive; a frame on the bus counts as not started
(R419, Table CAN-5). -/
def State.stopCan (s : State) (c : Nat) : State :=
  let x : CanCtl := tabGet {} s.can c
  let x := { x with staged := x.staged.map fun f => { f with started := false },
                    tts := x.tts.map fun f => { f with started := false } }
  ({ s with can := tabSet {} s.can c x }).setFld (Reg.CAN_STAT c) Fld.CAN_STAT.RUN 0

/-- The fabric, engine, core, delta-sigma and CAN clocks move at once. -/
def State.moveFabric (s : State) : State :=
  let new := s.sourceFor 0
  if s.fld Reg.CLK_STAT Fld.CLK_STAT.FAB = new then s
  else
    let s := s.setFld Reg.CLK_STAT Fld.CLK_STAT.FAB new
    let s := s.setFld Reg.BST_COND Fld.BST_COND.CLKOK (decide (new < 2)).toNat
    if new = 2 then [0, 1, 2, 3].foldl State.stopCan s else s

/-- The ADC clock moves at the next boundary, or at once where none follows or no source is left. -/
def State.moveAdc (s : State) (fail : Bool) : State :=
  let new := s.sourceFor 1
  if s.fld Reg.CLK_STAT Fld.CLK_STAT.ADC = new then { s with clk.adcNext := none }
  else if fail || new == 2 || !s.ticking then
    { s.setFld Reg.CLK_STAT Fld.CLK_STAT.ADC new with clk.adcNext := none }
  else { s with clk.adcNext := some new }

/-- A boundary: the ADC clock moves where a move is due. -/
def State.adcBoundary (s : State) : State :=
  match s.clk.adcNext with
  | some new => { s.setFld Reg.CLK_STAT Fld.CLK_STAT.ADC new with clk.adcNext := none }
  | none => s

def State.setTbClk (s : State) (n c : Nat) : State := s.setFld (Reg.TBn_STAT n) Fld.TBn_STAT.CLK c

/-- A running timebase moves now, into coarse mode (R418). -/
def State.moveTbNow (s : State) (n new : Nat) : State :=
  let s := (s.setTbClk n new).setTb n { s.tb n with clkNext := none, calibrated := false }
  if s.tbCoarse n then s
  else (s.setFld (Reg.TBn_STAT n) Fld.TBn_STAT.COARSE 1).postCoarse n true

/-- A timebase moves at its next zero (R209, R210), a stopped one at once; where its PLL has failed it
does not wait. -/
def State.moveTb (failed : Option Nat) (s : State) (n : Nat) : State :=
  let new := s.sourceFor 1
  let cur := s.tbClk n
  if cur = new then s.setTb n { s.tb n with clkNext := none }
  else if !(s.tb n).running then (s.setTbClk n new).setTb n { s.tb n with clkNext := none }
  else if failed.isSome && carrier 1 cur == failed then s.moveTbNow n new
  else s.setTb n { s.tb n with clkNext := some new }

/-- CARRY of both PLLs. -/
def State.showCarry (s : State) : State :=
  (s.setFld (Reg.CLK_PLLp_STAT 0) Fld.CLK_PLLp_STAT.CARRY (s.sourceFor 1 == 1).toNat).setFld
    (Reg.CLK_PLLp_STAT 1) Fld.CLK_PLLp_STAT.CARRY (s.sourceFor 0 == 1).toNat

/-- Every domain goes where it belongs; `failed` is a PLL whose output is gone or wrong. -/
def State.moveDomains (s : State) (failed : Option Nat) : State :=
  let s := { s.settle with clk.homed := s.homing }
  let s := (s.moveFabric.moveAdc failed.isSome).showCarry
  [0, 1, 2, 3].foldl (State.moveTb failed) s

/-! ### Loss of both PLLs (R419) -/

def State.everLocked (s : State) : Nat := (s.pll 0).ever.toNat + 2 * (s.pll 1).ever.toNat

def State.postBackup (s : State) : State :=
  s.event ⟨UnitCode.clk, 0x025, 3, 0, BitVec.ofNat 32 s.everLocked⟩

/-- The SGMII link of ETH0 goes down with the fabric's PLL clock (Table ETH-5). -/
def State.sgmiiDown (s : State) : State :=
  if s.on (Reg.ETH_Pp_STAT 0) Fld.ETH_Pp_STAT.LINK then
    (s.setFld (Reg.ETH_Pp_STAT 0) Fld.ETH_Pp_STAT.LINK 0).event ⟨UnitCode.eth, 0xC00, 0, 0,
      detailOf [(1, s.fld (Reg.ETH_Pp_STAT 0) Fld.ETH_Pp_STAT.SPD)]⟩
  else s

/-- What follows the moves when no PLL is left: source 18, vehicle time, the SGMII link. -/
def State.afterMoves (s : State) (lostAll : Bool) : State :=
  let s := if lostAll && s.everLocked != 0 then s.raise (16 + 18) 0 0x1F else s
  let s := s.refreshVt 2
  if lostAll then s.sgmiiDown else s

/-- A PLL leaves service. -/
def State.pllOut (s : State) (p st : Nat) : State :=
  let x := s.pll p
  (s.setPllState p st).setPll p { x with unlockAt := some s.now, refGone := !s.refPresent }

/-- PLL_UNLOCK of a PLL; `carried` tells that the other took its domains. -/
def State.postUnlock (s : State) (p : Nat) (carried : Bool) : State :=
  (s.count Reg.CLK_CNT Fld.CLK_CNT.UNLOCK).event ⟨UnitCode.clk, 0x020, 1, p,
    detailOf [(0, s.fld (Reg.CLK_PLLp_STAT p) Fld.CLK_PLLp_STAT.LDMV), (16, carried.toNat)]⟩

/-- PLLs declare unlock together: their events and BACKUP_CLOCK in the order of R66, then the moves. -/
def State.unlockPlls (s : State) (ps : List Nat) : State :=
  let carried := s.fabricLocked
  let s := ps.foldl (fun s p => (s.pllOut p pllUnlocked).setUnit (pllUnit p) unitFailed) s
  let lost := carried && !(s.pllServes 0 || s.pllServes 1)
  let took := fun p => carried && s.pllServes (other p)
  let s := if 0 ∈ ps then s.postUnlock 0 (took 0) else s
  let s := if lost then s.postBackup else s
  let s := if 1 ∈ ps then s.postUnlock 1 (took 1) else s
  (s.moveDomains none).afterMoves lost

/-! ### Filter check, lock, unlock (R413, R414, R417) -/

/-- A PLL starts afresh through its filter check; a restart of PLL-B clears the disciplining. -/
def State.restartPll (s : State) (p : Nat) : State :=
  let s := (s.setPllState p pllFilter).setPll p { s.pll p with filterBad := false }
  let s := s.f2Ends 0x026 p
  if p = 1 then
    { s.setReg (Reg.CLK_PLLp_OFS 1) 0 with clk := { s.clk with fi := 0, aim := 0 } }
  else s

/-- The filter check of a PLL ends with the voltages after 20 µs and 200 µs, in mV. -/
def execPllFilterCheck (p : Fin 2) (v20 v200 : Nat) (s : State) : Host.Outcome State Fault Refusal :=
  if !s.pllEn p || decide (2 ≤ s.pllState p) then .next s
  else
    let post := fun (s : State) (step v : Nat) =>
      (((s.setPllState p pllOff).setLdmv p v).setPll p { s.pll p with filterBad := true }).f2Begins 0x026 p |>.event
        ⟨UnitCode.clk, 0x026, 2, p, detailOf [(0, step), (16, v % 2 ^ 12)]⟩
    .next (if 600 ≤ v20 then post s 0 v20 else if v200 ≤ 600 then post s 1 v200
      else ((s.restartPll p).setPllState p pllAcquire).setLdmv p v200)

/-- Lock is declared: the PLL enters quarantine (R420); a PLL_FAIL of it has ended. -/
def execPllLockDeclared (p : Fin 2) (ldmv : Nat) (s : State) : Host.Outcome State Fault Refusal :=
  if (s.pllState p == pllAcquire || s.pllState p == pllUnlocked) && s.pllEn p && !(s.pll p).filterBad &&
      decide (ldmv < 300) && s.vcoLocks p then
    let s := ((s.setPllState p pllQuarantine).setLdmv p ldmv).setPll p { s.pll p with ever := true }
    let s := if (s.pll p).testing then s else s.setUnit (pllUnit p) unitQuarantine
    .next (s.endCause (16 + 23) (causeTag 0x022 p))
  else .next s

/-- A PLL declares unlock, the ball above 0.60 V (R413): the test of the other PLL is aborted (R421). -/
def execPllUnlock (p : Fin 2) (ldmv : Nat) (s : State) : Host.Outcome State Fault Refusal :=
  if (s.pllServes p || s.pllState p == pllQuarantine) && decide (600 < ldmv) then
    let s := s.setLdmv p ldmv
    let s := (s.abortTest (pllUnit (other p)) 1).setPll (other p) { s.pll (other p) with testing := false }
    .next (s.unlockPlls [p])
  else .next s

/-! ### PLL_FAIL (R418) -/

/-- Units with a pair on a timebase that PLL `p` carries. -/
def State.unitsCarried (s : State) (p : Nat) : Nat :=
  (List.range 16).foldl (fun u k =>
    if carrier 1 (s.tbClk (s.tbMaster (s.tbOf k))) = some p then withBit u (s.unitOfPair k) else u) 0

/-- The frequency monitor finds the output of a PLL absent (`kind` 0) or off frequency, by `dev` tenths
of a percent, more than 8 %. -/
def execPllFail (p : Fin 2) (kind : Bool) (dev : Nat) (s : State) : Host.Outcome State Fault Refusal :=
  if pllAcquire ≤ s.pllState p ∧ s.pllState p ≤ pllUnlocked ∧ (kind → 80 < dev) then
    let units := s.unitsCarried p
    let carried := s.fabricLocked
    let s := (s.abortTest (pllUnit (other p)) 1).setPll (other p) { s.pll (other p) with testing := false }
    let s := ((s.pllOut p pllUnlocked).setPll p { s.pll p with unlockAt := none }).setUnit (pllUnit p) unitFailed
    let lost := carried && !(s.pllServes 0 || s.pllServes 1)
    let post := fun (s : State) => s.event ⟨UnitCode.clk, 0x022, 3, p,
      detailOf [(0, kind.toNat), (8, min (2 ^ 24 - 1) dev)]⟩
    let s := if p.val = 0 then post s else s
    let s := if lost then s.postBackup else s
    let s := if p.val = 1 then post s else s
    let s := s.moveDomains (some p)
    let s := if lost && s.everLocked != 0 then s.raise (16 + 18) 0 0x1F else s
    let s := if units = 0 then s else s.raise (16 + 23) (causeTag 0x022 p) units
    .next (if lost then (s.refreshVt 2).sgmiiDown else s.refreshVt 2)
  else .next s

/-! ### Quarantine and retirement (R420) -/

def fdField (p : Nat) : Bits := if p = 0 then Fld.CLK_CNT.FDA else Fld.CLK_CNT.FDB

/-- The unlock that this quarantine ends was a false death. -/
def State.falseDeath (s : State) (p : Nat) : Bool :=
  match (s.pll p).unlockAt with
  | some t => !(s.pll p).refGone && decide (s.now ≤ t + 10 * esPerMs) && s.lcs != 0
  | none => false

/-- A PLL that has passed takes its domains back. -/
def State.pllBack (s : State) (p : Nat) : State :=
  let ms := match (s.pll p).unlockAt with
    | some t => min (2 ^ 24 - 1) ((s.now - t) / esPerMs)
    | none => 0
  let s := (s.setPllState p (if s.refPresent then pllLocked else pllHoldover)).setUnit (pllUnit p) unitServing
  let s := s.setPll p { s.pll p with unlockAt := none, testing := false }
  s.event ⟨UnitCode.clk, 0x021, 0, p, detailOf [(0, 1), (8, ms)]⟩

def State.pllRetires (s : State) (p : Nat) : State :=
  let s := (s.setPllState p pllRetired).setUnit (pllUnit p) unitRetired
  s.event ⟨UnitCode.clk, 0x027, 2, p, BitVec.ofNat 32 (s.fld Reg.CLK_CNT (fdField p))⟩

/-- The quarantine of a relocked PLL ends. -/
def execPllQuarantineEnd (p : Fin 2) (pass : Bool) (s : State) : Host.Outcome State Fault Refusal :=
  if s.pllState p ≠ pllQuarantine then .next s
  else if !pass then .next ((s.setPllState p pllUnlocked).setUnit (pllUnit p) unitFailed)
  else
    let s := if s.falseDeath p then s.count Reg.CLK_CNT (fdField p) else s
    let s := s.setFld (Reg.BST_Uu (pllUnit p)) Fld.BST_Uu.FD (min 3 (s.fld Reg.CLK_CNT (fdField p)))
    let s := if s.falseDeath p && decide (3 ≤ s.fld Reg.CLK_CNT (fdField p)) then s.pllRetires p
      else s.pllBack p
    let s := s.moveDomains none
    .next ((if s.fabricLocked then s.endCause (16 + 18) 0 else s).refreshVt 2)

/-! ### Programming (R412) -/

/-- A write of CFG or FRAC has been stored: the PLL's domains move and it restarts, or it stops. -/
def State.pllProgrammed (s : State) (p : Nat) (wasOn : Bool) : State :=
  if s.pllGone p || (!wasOn && !s.pllEn p) then s
  else
    let carried := s.fabricLocked
    let s := if s.pllEn p then s.restartPll p else s.setPllState p pllOff
    let lost := carried && !(s.pllServes 0 || s.pllServes 1)
    let s := if lost then s.postBackup else s
    (s.moveDomains none).afterMoves lost

/-! ### Reference (R409, R422) -/

/-- The reference is lost: locked PLLs enter holdover. -/
def execReferenceLost (s : State) : Host.Outcome State Fault Refusal :=
  if !s.refPresent then .next s
  else
    let s := (s.setFld Reg.CLK_STAT Fld.CLK_STAT.REF 0).count Reg.CLK_CNT Fld.CLK_CNT.REFLOSS
    let s := { s with clk.refLost := some s.now }
    let s := [0, 1].foldl (fun s p =>
      let s := s.setPll p { s.pll p with refGone := true }
      if s.pllState p = pllLocked then s.setPllState p pllHoldover else s) s
    .next (s.event ⟨UnitCode.clk, 0x023, 1, 0, 0⟩)

/-- A PLL re-acquires a returning reference that differs by `err` ppm from its held output. -/
def State.pllReacquire (s : State) (p : Nat) (err : Int) : State :=
  if s.pllState p = pllHoldover then
    let slew := max 1 (s.fld Reg.CLK_HOLD Fld.CLK_HOLD.SLEW)
    (s.setPllState p pllLocked).setPll p { s.pll p with slewTo := s.now + err.natAbs * esPerMs / slew }
  else s

/-- The reference is present again; `jump` in ns is its phase against the held output, `errA` and `errB`
the frequency errors in ppm.  Beyond 200 ppm both PLLs stay in holdover. -/
def execReferenceReturn (jump errA errB : Int) (s : State) : Host.Outcome State Fault Refusal :=
  let s := s.setFld Reg.CLK_STAT Fld.CLK_STAT.REF 1
  match s.clk.refLost with
  | none => .next s
  | some t =>
      let held := min (2 ^ 16 - 1) ((s.now - t) / 64000)
      let s := s.event ⟨UnitCode.clk, 0x024, 0, 0,
        detailOf [(0, toField 16 (satSigned 16 jump)), (16, held)]⟩
      if 200 < errA.natAbs ∨ 200 < errB.natAbs then .next s
      else .next ({ s with clk.refLost := none }.pllReacquire 0 errA |>.pllReacquire 1 errB)

/-- HOLDTMO has passed without a reference that can be followed: every PLL in holdover declares
unlock.  A reference still absent is reported when it returns (R409). -/
def execHoldoverTimeout (s : State) : Host.Outcome State Fault Refusal :=
  match s.clk.refLost with
  | none => .next s
  | some t =>
      let s := s.at (t + s.fld Reg.CLK_HOLD Fld.CLK_HOLD.HOLDTMO * esPerMs)
      let held := [0, 1].filter fun p => s.pllState p == pllHoldover
      let s := if s.refPresent then { s with clk.refLost := none } else s
      .next (if held.isEmpty then s else s.unlockPlls held)

/-! ### TICK_REALIGN (R426) -/

/-- The lengthening that a realignment would make. -/
def State.realignC (s : State) : Nat :=
  let p : Int := max 1 (Fld.TBn_PER.PERIOD.of (s.forceNext (Reg.TBn_PER 0)) : Int)
  ((-(s.signedReg (Reg.TBn_VTERR 0))) % p).toNat

def State.tickRealign (s : State) : Verdict :=
  if s.fld Reg.PROT_USTAT Fld.PROT_USTAT.SAFE ≠ 0x1F ∨ !s.synced ∨ !s.vtValid ∨
      3200000 < s.lenAhead + s.realignC then .no
  else
    let ofs := s.ffld (Reg.TBn_PHASE 0) Fld.TBn_PHASE.PHASE
    .done (s.setTb 0 { s.tb 0 with realign := true, vtOfs := ofs })

/-! ### TICK_IN (R427) -/

def State.postTickIn (s : State) (kind : Nat) : State :=
  let err := s.signedReg Reg.CLK_TICKIN_ERR
  s.event ⟨UnitCode.clk, 0x029, 0, 0, detailOf [(0, kind), (8, toField 24 (satSigned 24 (err / 256)))]⟩

/-- The signed distance of an instant from the nearest zero of TB0 plus OFS. -/
def State.tickInErr (s : State) (t : Nat) : Int :=
  let tb := s.tb 0
  let ofs := s.fld Reg.CLK_TICKIN_OFS Fld.CLK_TICKIN_OFS.OFS
  let d : Int := (t : Int) - (tb.zeroAt : Int) - (ofs : Int)
  let p : Int := max 1 tb.period
  let r := d % p
  if 2 * r ≤ p then r else r - p

/-- Judge the error of an edge against LIM. -/
def State.judgeTickIn (s : State) (err : Int) : State :=
  if s.fld Reg.CLK_TICKIN_CFG Fld.CLK_TICKIN_CFG.LIM < err.natAbs then
    let n := s.clk.inErrs + 1
    let s := { s with clk := { s.clk with inErrs := n } }
    if s.fld Reg.CLK_TICKIN_CFG Fld.CLK_TICKIN_CFG.N ≤ n && !s.clk.inEpisode then
      { s with clk := { s.clk with inEpisode := true } }.postTickIn 0
    else s
  else { s with clk := { s.clk with inErrs := 0, inEpisode := false } }

/-- An edge of TICK_IN has persisted. -/
def execTickInEdge (t : Nat) (s : State) : Host.Outcome State Fault Refusal :=
  if !s.on Reg.CLK_TICKIN_CFG Fld.CLK_TICKIN_CFG.EN then .next s
  else
    let s := s.at t
    let err := s.tickInErr t
    let s := s.setReg Reg.CLK_TICKIN_ERR (BitVec.ofInt 32 err)
    .next ({ s with clk := { s.clk with inMissing := false, inAt := t } }.judgeTickIn err)

/-- No edge for two TB0 periods. -/
def execTickInMissing (s : State) : Host.Outcome State Fault Refusal :=
  if !s.on Reg.CLK_TICKIN_CFG Fld.CLK_TICKIN_CFG.EN || s.clk.inMissing then .next s
  else
    let s := s.at (s.clk.inAt + 2 * (s.tb 0).period)
    .next ({ s with clk := { s.clk with inMissing := true } }.postTickIn 1)

/-! ### Real-time clock and delay lines (R429, R209) -/

/-- The crystal has stopped: the count goes on from the backup oscillator. -/
def execRtcSourceSwitch (s : State) : Host.Outcome State Fault Refusal :=
  .next (s.setFld Reg.CLK_STAT Fld.CLK_STAT.RTCSRC 1)

/-- The delay lines of a timebase in coarse mode are calibrated. -/
def execDelayLineCalibrated (tb : Fin 4) (s : State) : Host.Outcome State Fault Refusal :=
  .next (if s.tbCoarse tb then s.setTb tb { s.tb tb with calibrated := true } else s)

end Sys2Proof.Machine
end

