-- ==== Sys2Proof/Machine/PowerBase.lean ====
section
/-! DEFINITION. Power states and the wake path (R558, R559, R561, R567). -/

set_option Elab.async false

namespace Sys2Proof.Machine

abbrev pwrRun : Nat := 0
abbrev pwrPark : Nat := 1
abbrev pwrSleep : Nat := 2

def State.powerState (s : State) : Nat := s.fld Reg.PWR_STATE Fld.PWR_STATE.STATE

/-- PWR_STATE of a transition, with its cause. -/
def State.postPower (s : State) (old new src : Nat) : State :=
  (s.setFld Reg.PWR_STATE Fld.PWR_STATE.SRC src).event
    ⟨UnitCode.pwr, 0x001, 0, 0, detailOf [(0, old), (4, new), (8, src)]⟩

/-- The exit from PARK begins: PLL-B restarts (R561). -/
def State.beginExit (s : State) (src : Nat) : State :=
  let s := { s with pwr.waking := true }.postPower pwrPark pwrRun src
  if s.pllEn 1 && !s.pllGone 1 then s.restartPll 1 else s

/-- A cause asks for RUN: in PARK the exit begins; while PARK is being entered it follows at once; in RUN
nothing happens. -/
def State.requestRun (s : State) (src : Nat) : State :=
  if s.pwr.waking then s
  else if s.powerState = pwrPark then s.beginExit src
  else if s.pwr.enterAt.isSome then
    { s with pwr.waking := true }.setFld Reg.PWR_STATE Fld.PWR_STATE.SRC src
  else s

/-- A wake sets its bit in PWR_WAKESTAT and asks for RUN; in RUN there is nothing to wake. -/
def State.wakeBy (s : State) (bit src : Nat) : State :=
  if s.powerState = pwrRun && s.pwr.enterAt.isNone then s
  else (s.setReg Reg.PWR_WAKESTAT (setBit (s.reg Reg.PWR_WAKESTAT) bit true)).requestRun src

end Sys2Proof.Machine
end

