-- ==== Sys2Proof/Machine/CanBase.lean ====
section
/-! DEFINITION. CAN controllers: what serves them, their rings, staging and entries (R434 to R449). -/

set_option Elab.async false

namespace Sys2Proof.Machine

def State.canCtl (s : State) (c : Nat) : CanCtl := tabGet {} s.can c
def State.setCanCtl (s : State) (c : Nat) (x : CanCtl) : State := { s with can := tabSet {} s.can c x }

/-! ### Double-bit errors in host SRAM (R479) -/

/-- A word of host SRAM, by offset, carries a double-bit error. -/
def State.sramBad (s : State) (off : Nat) : Bool := s.hic.bad.contains (off / 4 * 4)

/-- A double-bit error is reported: counted, its address latched, SRAM_DED posted. -/
def State.sramDed (s : State) (off : Nat) : State :=
  let s := (s.count Reg.HIC_ECC Fld.HIC_ECC.DE).setFld Reg.HIC_ECCADR Fld.HIC_ECCADR.ADR (off / 4)
  s.event ⟨UnitCode.hic, 0xD01, 2, 0, BitVec.ofNat 32 (off / 4 * 4)⟩

/-- The first word with a double-bit error among `n` words from an offset. -/
def State.firstBad (s : State) (off n : Nat) : Option Nat :=
  ((List.range n).map fun i => off + 4 * i).find? s.sramBad

/-! ### Who serves (R435, R452) -/

abbrev canSpareUnit : Nat := 0x34
def canUnit (c : Nat) : Nat := 0x30 + c
abbrev canFree : Nat := 4
abbrev canTest : Nat := 5
abbrev canShadow : Nat := 6
abbrev canFailed : Nat := 7

def State.canSpare (s : State) : Nat := s.fld Reg.CAN_SPSTAT Fld.CAN_SPSTAT.SERVE
def State.setCanSpare (s : State) (v : Nat) : State := s.setFld Reg.CAN_SPSTAT Fld.CAN_SPSTAT.SERVE v

/-- The physical unit that serves a logical controller. -/
def State.canServer (s : State) (c : Nat) : Option Nat :=
  if s.canSpare = c then some canSpareUnit
  else if s.unit (canUnit c) = unitServing then some (canUnit c) else none

/-- The CAN clock runs (Table CLK-3). -/
def State.canClock (s : State) : Bool := s.fabricLocked && !s.pwr.asleep
/-- The controller works: it has a serving unit and a clock. -/
def State.canAlive (s : State) (c : Nat) : Bool := (s.canServer c).isSome && s.canClock

/-- CAN XL is supported (Table CAN-1). -/
def canXl (c : Nat) : Bool := decide (c < 2)
def State.canXlOn (s : State) (c : Nat) : Bool := canXl c && s.on (Reg.CAN_XL c) Fld.CAN_XL.EN

def State.canInit (s : State) (c : Nat) : Bool := s.on (Reg.CAN_CTRL c) Fld.CAN_CTRL.INIT
def State.canDet (s : State) (c : Nat) : Bool := s.on (Reg.CAN_STAT c) Fld.CAN_STAT.DET
def State.canRuns (s : State) (c : Nat) : Bool := s.on (Reg.CAN_STAT c) Fld.CAN_STAT.RUN
def State.canErrState (s : State) (c : Nat) : Nat := s.fld (Reg.CAN_ERR c) Fld.CAN_ERR.STATE

/-! ### Rings (R444) -/

def canTxRing (c : Nat) : Nat := 0x20 + 2 * c
def canRxRing (c : Nat) : Nat := 0x21 + 2 * c

/-- The fold word of a data ring (R41, R445). -/
def dataFold (ring slot epoch : Nat) : Word :=
  BitVec.ofNat 32 (epoch % 256 * 2 ^ 24 + slot * 2 ^ 8 + ring)

def State.canBuf (s : State) (c : Nat) : Nat :=
  if canXl c && s.on (Reg.CAN_BUF c) Fld.CAN_BUF.XLSZ then 2048 else 64

def State.canTxSize (s : State) (c : Nat) : Nat := s.fld (Reg.CAN_TXCFG c) Fld.CAN_TXCFG.SIZE
def State.canRxSize (s : State) (c : Nat) : Nat := s.fld (Reg.CAN_RXCFG c) Fld.CAN_RXCFG.SIZE
def State.canTxEn (s : State) (c : Nat) : Bool := s.on (Reg.CAN_TXCFG c) Fld.CAN_TXCFG.EN
def State.canRxEn (s : State) (c : Nat) : Bool := s.on (Reg.CAN_RXCFG c) Fld.CAN_RXCFG.EN
def State.canTxIdx (s : State) (c : Nat) : Nat := s.fld (Reg.CAN_TXIDX c) Fld.CAN_TXIDX.IDX
def State.canTxEpoch (s : State) (c : Nat) : Nat := s.fld (Reg.CAN_TXIDX c) Fld.CAN_TXIDX.EPOCH
def State.canHalted (s : State) (c : Nat) : Bool := s.on (Reg.CAN_TXIDX c) Fld.CAN_TXIDX.HALT
def State.canRxIdx (s : State) (c : Nat) : Nat := s.fld (Reg.CAN_RXIDX c) Fld.CAN_RXIDX.IDX
def State.canRxEpoch (s : State) (c : Nat) : Nat := s.fld (Reg.CAN_RXIDX c) Fld.CAN_RXIDX.EPOCH

/-- Host SRAM offsets of a TX slot and its buffer, and of an RX slot and its buffer. -/
def State.canTxSlot (s : State) (c k : Nat) : Nat :=
  s.fld (Reg.CAN_TXBASE c) Fld.CAN_TXBASE.OFFSET * 32 + 32 * k
def State.canRxSlot (s : State) (c k : Nat) : Nat :=
  s.fld (Reg.CAN_RXBASE c) Fld.CAN_RXBASE.OFFSET * 32 + 32 * k
def State.canTxBuf (s : State) (c k : Nat) : Nat :=
  s.fld (Reg.CAN_BUF c) Fld.CAN_BUF.TXBUF * 64 + k * s.canBuf c
def State.canRxBuf (s : State) (c k : Nat) : Nat :=
  s.fld (Reg.CAN_RXBUF c) Fld.CAN_RXBUF.RXBUF * 64 + k * s.canBuf c

def CanTx.word (f : CanTx) (i : Nat) : Word := f.words.getD i 0
/-- TXC of a frame. -/
def CanTx.confirm (f : CanTx) : Bool := bitAt (f.word 1) 28

/-- RX slots that are free and not reserved for a confirmation. -/
def State.canRxFree (s : State) (c : Nat) : Nat :=
  let x := s.canCtl c
  let n := s.canRxSize c
  let used := (s.canRxIdx c + n - x.rxCi % n) % n
  n - 1 - used - x.staged.countP CanTx.confirm

/-! ### RX entries (Table CAN-4) -/

/-- Write an entry into the next RX slot; `ws` holds X0 to X6 without PH, `data` what a received frame
carried. -/
def State.canWriteEntry (s : State) (c : Nat) (ws : List Word) (data : List Byte) : State :=
  if !s.canRxEn c then s
  else
    let k := s.canRxIdx c
    let e := s.canRxEpoch c
    let ws := ws.take 1 ++ [setBit (ws.getD 1 0) 31 (e % 2 == 0)] ++ ws.drop 2
    let w7 := Crc.checkC (bytesOfWords (ws ++ [dataFold (canRxRing c) k e]))
    let s := s.fabricWords (s.canRxSlot c k) (ws ++ [w7])
    let s := s.fabricBytes (s.canRxBuf c k) (data.take (s.canBuf c))
    let wrap := decide (s.canRxSize c ≤ k + 1)
    let s := s.setFld (Reg.CAN_RXIDX c) Fld.CAN_RXIDX.IDX (if wrap then 0 else k + 1)
    if wrap then s.setFld (Reg.CAN_RXIDX c) Fld.CAN_RXIDX.EPOCH ((e + 1) % 256) else s

/-- The bits of T1 that an entry repeats: FMT, BRS, SDT and LEN. -/
def entryMask : Word := 0x0FFFFF07

/-- A confirmation: TYPE 1 TX_DONE, 2 TX_EXPIRED, 3 TX_ABORTED, with the boundary and the time from it to
the SOF sample point. -/
def State.canConfirm (s : State) (c : Nat) (f : CanTx) (type : Nat) (x4 x5 : Word) : State :=
  if !f.confirm then s
  else s.canWriteEntry c [f.word 0, f.word 1 &&& entryMask, f.word 2,
    (f.word 3 &&& 0x1FF) ||| BitVec.ofNat 32 (type * 2 ^ 16), x4, x5, f.word 6] []

/-- A confirmation of a frame that never had a SOF: the spec states no X4 and X5 for it. -/
def State.canConfirmUnsent (s : State) (c : Nat) (type : Nat) (f : CanTx) : State :=
  if !f.confirm then s
  else
    let (i, s) := s.takeFree
    let (j, s) := s.takeFree
    s.canConfirm c f type (Config.freeWord i) (Config.freeWord j)

/-- Discard staged frames, each with TX_ABORTED where it asks for a confirmation. -/
def State.canAbort (s : State) (c : Nat) (which : CanTx → Bool) : State :=
  let x := s.canCtl c
  let out := x.staged.filter which
  let s := s.setCanCtl c { x with staged := x.staged.filter fun f => !which f }
  out.foldl (fun s f => s.canConfirmUnsent c 3 f) s

/-! ### Launch instants (R446) -/

/-- The next boundary whose cut-off has not yet passed (R49). -/
def State.nextMet (s : State) : Nat := s.tick + 1 + s.cmd.cutoff.toNat

/-- Judge a stamp as R49 and R50: the tick counter of the boundary it names, and, where that boundary has
passed, the instant.  The instants of boundaries before the last are taken one tick length apart. -/
def CanLaunch.judge (l : CanLaunch) (s : State) : CanLaunch :=
  let next := s.nextMet
  let d : Int := (l.stamp - BitVec.ofNat 32 next).toInt
  let tick := if l.stamp = 0xFFFFFFFF then next else ((next : Int) + d).toNat
  if tick ≤ s.tick then
    { l with tick := some tick, instant := some (s.t0 - (s.tick - tick) * s.prevLen + l.ofs * esPerFc) }
  else { l with tick := some tick }

/-- A boundary: a launch not yet judged is judged, and one whose boundary this is gets its instant. -/
def CanLaunch.boundary (l : CanLaunch) (s : State) : CanLaunch :=
  match l.tick, l.instant with
  | some k, none => if k ≤ s.tick then { l with instant := some (s.t0 + l.ofs * esPerFc) } else l
  | none, _ => l.judge s
  | _, _ => l

/-- A launch as its slot is fetched: judged at once while ticks run. -/
def State.launchOf (s : State) (stamp ofs : Word) : CanLaunch :=
  let l : CanLaunch := { stamp, ofs := ofs.toNat % 2 ^ 18 }
  if s.ticking then l.judge s else l

/-- Whether a launch instant has passed; while the tick is stopped it waits. -/
def State.launched (s : State) (l : Option CanLaunch) : Bool :=
  match l with
  | none => true
  | some l => s.ticking && (match l.instant with | some t => decide (t ≤ s.now) | none => false)

/-! ### Acceptance filters (R449) -/

/-- A received frame: T0 to T3 as an entry shows them (identifier and format), with ESI. -/
structure CanFrame where
  x0 : Word
  x1 : Word
  x2 : Word
  x3 : Word
  data : List Byte

def CanFrame.fmt (f : CanFrame) : Nat := f.x1.toNat % 4
def CanFrame.id (f : CanFrame) : Nat := f.x0.toNat % 2 ^ 29
def CanFrame.ide (f : CanFrame) : Bool := bitAt f.x0 29

/-- The identifier test of a filter's MODE: mask, range, dual. -/
def idMatches (mode id id1 id2 : Nat) : Bool :=
  if mode = 0 then (id ^^^ id1) &&& id2 == 0
  else if mode = 1 then decide (id1 ≤ id) && decide (id ≤ id2)
  else id == id1 || id == id2

/-- Filter `n` matches a frame. -/
def State.filterMatches (s : State) (c n : Nat) (f : CanFrame) : Bool :=
  let f0 := s.reg (Reg.CAN_FLTf_F0 c n)
  let f3 := s.reg (Reg.CAN_FLTf_F3 c n)
  let type := Fld.CAN_FLTf_F0.TYPE.of f0
  let fits := if type = 1 then decide (f.fmt < 2) && !f.ide
    else if type = 2 then decide (f.fmt < 2) && f.ide
    else if type = 3 then f.fmt == 2 else false
  let vcid := Fld.CAN_FLTf_F3.VCID.of f3
  let vmask := Fld.CAN_FLTf_F3.VCIDM.of f3
  let vok := f.fmt != 2 || !Fld.CAN_FLTf_F3.VCIDEN.on f3 || (f.x3.toNat % 256 ^^^ vcid) &&& vmask == 0
  fits && hasBit (Fld.CAN_FLTf_F0.FMTS.of f0) f.fmt && vok &&
    idMatches (Fld.CAN_FLTf_F0.MODE.of f0) f.id
      (s.fld (Reg.CAN_FLTf_F1 c n) Fld.CAN_FLTf_F1.ID1) (s.fld (Reg.CAN_FLTf_F2 c n) Fld.CAN_FLTf_F2.ID2)

/-- The first filter that matches. -/
def State.filterFor (s : State) (c : Nat) (f : CanFrame) : Option Nat :=
  (List.range 128).find? fun n => s.filterMatches c n f

end Sys2Proof.Machine
end

