-- ==== Sys2Proof/Machine/Can.lean ====
section
/-! DEFINITION. CAN controllers: transmission, reception, detection, errors, the schedule matrix, the spare
(R441 to R454). -/

set_option Elab.async false

namespace Sys2Proof.Machine

/-! ### Doorbells (R444, Table CAN-2) -/

/-- The low 12 bits of a doorbell word, where they name a slot of the ring. -/
def indexIn (size : Nat) (w : Word) : Option Nat :=
  let i := w.toNat % 4096
  if i < size then some i else none

def State.canTxBell (s : State) (c : Nat) (w : Word) : State :=
  match indexIn (s.canTxSize c) w with
  | some i => s.setCanCtl c { s.canCtl c with txPi := i }
  | none => s

def State.canRxBell (s : State) (c : Nat) (w : Word) : State :=
  match indexIn (s.canRxSize c) w with
  | some i => s.setCanCtl c { s.canCtl c with rxCi := i }
  | none => s

/-! ### TX fetch (R445, R446) -/

/-- The FD length that a number of bytes is raised to. -/
def fdSize (n : Nat) : Nat :=
  if n ≤ 8 then n else ([12, 16, 20, 24, 32, 48, 64].find? fun k => decide (n ≤ k)).getD 64

/-- LEN as its format and the buffer allow, before padding and after. -/
def canLen (fmt buf len : Nat) : Nat × Nat :=
  if fmt = 0 then (min 8 len, min 8 len)
  else if fmt = 1 then (min 64 len, fdSize (min 64 len))
  else (min buf (max 1 len), min buf (max 1 len))

/-- T1's LEN and FMT. -/
def t1Len (w : Word) : Nat := (⟨16, 12⟩ : Bits).of w
def t1Fmt (w : Word) : Nat := w.toNat % 4
def t1WithLen (w : Word) (n : Nat) : Word := (⟨16, 12⟩ : Bits).put n w

/-- The TX ring halts at its fetch index. -/
def State.canTxHalt (s : State) (c reason : Nat) : State :=
  (s.setFld (Reg.CAN_TXIDX c) Fld.CAN_TXIDX.HALT 1).event ⟨UnitCode.can, 0xB05, 0, c,
    detailOf [(0, s.canTxIdx c), (16, reason)]⟩

/-- Move the fetch index to slot `k` of an epoch. -/
def State.setCanTxIdx (s : State) (c k e : Nat) : State :=
  (s.setFld (Reg.CAN_TXIDX c) Fld.CAN_TXIDX.IDX k).setFld (Reg.CAN_TXIDX c) Fld.CAN_TXIDX.EPOCH (e % 256)

/-- The fetch index passes a slot. -/
def State.canTxPass (s : State) (c : Nat) : State :=
  let k := s.canTxIdx c
  if s.canTxSize c ≤ k + 1 then s.setCanTxIdx c 0 (s.canTxEpoch c + 1) else s.setCanTxIdx c (k + 1) (s.canTxEpoch c)

/-- Stage the frame of a slot that has passed its checks. -/
def State.canStage (s : State) (c : Nat) (ws : List Word) : State :=
  let w1 := ws.getD 1 0
  let k := s.canTxIdx c
  let (n, m) := canLen (t1Fmt w1) (s.canBuf c) (t1Len w1)
  let data := s.bytes (sramBase + s.canTxBuf c k) n ++ List.replicate (m - n) 0xCC
  let launch := if bitAt w1 29 then some (s.launchOf (ws.getD 4 0) (ws.getD 5 0)) else none
  let f : CanTx := { slot := k, epoch := s.canTxEpoch c, data, launch,
                     words := ws.take 1 ++ [t1WithLen w1 m] ++ (ws.drop 2).take 5 }
  let s := if m = t1Len w1 then s else s.count (Reg.CAN_CNT2 c) Fld.CAN_CNT2.TXCLAMP
  let x := s.canCtl c
  (s.setCanCtl c { x with staged := x.staged ++ [f] }).canTxPass c

/-- A slot is waiting and a staging buffer is free. -/
def State.canCanFetch (s : State) (c : Nat) : Bool :=
  s.canAlive c && s.canTxEn c && !s.canHalted c && s.canTxIdx c != (s.canCtl c).txPi &&
  decide ((s.canCtl c).staged.length < 8)

/-- Fetch and check the next TX slot. -/
def State.canFetch (s : State) (c : Nat) : State :=
  let k := s.canTxIdx c
  let off := s.canTxSlot c k
  let ws := s.words (sramBase + off) 8
  let w1 := ws.getD 1 0
  match s.firstBad off 8 with
  | some a => (s.sramDed a).canTxHalt c 0
  | none =>
      if ws.getD 7 0 ≠ Crc.checkC (bytesOfWords (ws.take 7 ++ [dataFold (canTxRing c) k (s.canTxEpoch c)])) then
        s.canTxHalt c 0
      else if t1Fmt w1 = 3 ∨ (t1Fmt w1 = 2 ∧ !s.canXlOn c) then s.canTxHalt c 1
      else if bitAt w1 28 && (!s.canRxEn c || s.canRxFree c == 0) then s
      else s.canStage c ws

def execCanTxFetch (c : Fin 4) (s : State) : Host.Outcome State Fault Refusal :=
  .next (if s.canCanFetch c then s.canFetch c else s)

/-- TXRESUME: the halted slot is fetched again. -/
def State.canResume (s : State) (c : Nat) : State := s.setFld (Reg.CAN_TXIDX c) Fld.CAN_TXIDX.HALT 0

/-- TXFLUSH: a halted ring skips to its producer index, and staged frames not yet on the bus are
discarded. -/
def State.canFlush (s : State) (c : Nat) : State :=
  if !s.canHalted c then s
  else
    let pi := (s.canCtl c).txPi
    let e := s.canTxEpoch c + (decide (pi < s.canTxIdx c)).toNat
    ((s.canAbort c fun f => !f.started).canResume c).setCanTxIdx c pi e

/-- The TX ring is enabled, or disabled: staged frames are discarded then. -/
def State.canTxEnable (s : State) (c : Nat) (on : Bool) : State :=
  if on then (s.setCanTxIdx c 0 0).canResume c else s.canAbort c fun f => !f.started

/-- The RX ring is enabled: it starts at slot 0, as R65 states for record rings. -/
def State.canRxEnable (s : State) (c : Nat) : State :=
  let s := (s.setFld (Reg.CAN_RXIDX c) Fld.CAN_RXIDX.IDX 0).setFld (Reg.CAN_RXIDX c) Fld.CAN_RXIDX.EPOCH 0
  s.setCanCtl c { s.canCtl c with rxCi := 0 }

/-! ### INIT (R437, R441, R443) -/

/-- INIT is set: the controller stops once the frame under way has ended. -/
def State.canInitSet (s : State) (c : Nat) (busy : Bool) : State :=
  let s := s.setFld (Reg.CAN_STAT c) Fld.CAN_STAT.DET 0
  if busy then s.setCanCtl c { s.canCtl c with stopping := true }
  else s.setFld (Reg.CAN_STAT c) Fld.CAN_STAT.RUN 0

/-- A frame on the bus has ended: a controller that waits for it stops. -/
def State.canFrameEnd (s : State) (c : Nat) : State :=
  if (s.canCtl c).stopping then
    (s.setCanCtl c { s.canCtl c with stopping := false }).setFld (Reg.CAN_STAT c) Fld.CAN_STAT.RUN 0
  else s

/-- Detection begins at candidate 0. -/
def State.canDetect (s : State) (c : Nat) : State :=
  let s := (s.setFld (Reg.CAN_STAT c) Fld.CAN_STAT.DET 1).setFld (Reg.CAN_STAT c) Fld.CAN_STAT.CAND 0
  s.setCanCtl c { s.canCtl c with good := 0, sweeps := 0 }

/-- INIT goes from 1 to 0: the bit timing is taken, and the controller integrates, or detects; in bus-off
its recovery starts. -/
def State.canInitClear (s : State) (c : Nat) : State :=
  let x := s.canCtl c
  let off := s.canErrState c == 2
  let s := s.setCanCtl c { x with nbt := s.reg (Reg.CAN_NBT c), dbt := s.reg (Reg.CAN_DBT c), stopping := false,
                                  recovering := x.recovering || off }
  let s := s.setFld (Reg.CAN_STAT c) Fld.CAN_STAT.RUN 0
  if s.on (Reg.CAN_CTRL c) Fld.CAN_CTRL.AUTODET then s.canDetect c else s

/-- What a write of CTRL does beyond its storage; `busy`: a frame is on the bus. -/
def State.canCtrlWritten (s : State) (c : Nat) (wasInit busy : Bool) (w : Word) : State :=
  let s := if s.canInit c && !wasInit then s.canInitSet c busy
    else if !s.canInit c && wasInit then s.canInitClear c else s
  if Fld.CAN_CTRL.TXFLUSH.on w then s.canFlush c
  else if Fld.CAN_CTRL.TXRESUME.on w then s.canResume c else s

/-- The controller has seen 11 recessive bits. -/
def execCanIntegrationDone (c : Fin 4) (s : State) : Host.Outcome State Fault Refusal :=
  .next (if s.canAlive c && !s.canInit c && !s.canDet c && s.canErrState c != 2 && (s.canCtl c).swap.isNone then
      s.setFld (Reg.CAN_STAT c) Fld.CAN_STAT.RUN 1
    else s)

/-! ### TT time (R450) -/

def State.ttOn (s : State) (c : Nat) : Bool := s.on (Reg.CAN_TT c) Fld.CAN_TT.EN
def State.ttCyclen (s : State) (c : Nat) : Nat := max 1 (s.fld (Reg.CAN_TTCYC c) Fld.CAN_TTCYC.CYCLEN)
def State.ttNcyc (s : State) (c : Nat) : Nat := 2 ^ s.fld (Reg.CAN_TT c) Fld.CAN_TT.NCYCL
/-- The TT time in µs at an instant, on vehicle time or on the local count. -/
def State.ttTime (s : State) (vehicle : Bool) (t : Nat) : Nat :=
  if vehicle then s.vtNs t / 1000 else t / 6400
def State.ttBase (s : State) (c : Nat) : Bool := s.on (Reg.CAN_TTSTAT c) Fld.CAN_TTSTAT.BASE
def State.ttCycle (s : State) (c : Nat) : Nat := s.fld (Reg.CAN_TTSTAT c) Fld.CAN_TTSTAT.CYCLE
def State.ttAct (s : State) (c y j : Nat) : Nat := s.fld (Reg.CAN_TTMy_j c y j) Fld.CAN_TTMy_j.ACT
def State.ttOfs (s : State) (c j : Nat) : Nat := s.fld (Reg.CAN_TTCOLj c j) Fld.CAN_TTCOLj.OFS

/-- An instant lies within GUARD before an enabled TRANSMIT column of this cycle or the next (R451). -/
def State.ttGuarded (s : State) (c t : Nat) : Bool :=
  let len := s.ttCyclen c
  let e := s.ttTime (s.ttBase c) t % len
  let guard := s.fld (Reg.CAN_TTCYC c) Fld.CAN_TTCYC.GUARD
  let y := s.ttCycle c
  let near := fun at' => decide (e < at') && decide (at' ≤ e + guard)
  s.ttOn c && (List.range 16).any fun j =>
    (s.ttAct c y j == 1 && near (s.ttOfs c j)) ||
    (s.ttAct c ((y + 1) % s.ttNcyc c) j == 1 && near (len + s.ttOfs c j))

/-! ### Transmission (R446, R447, R451) -/

/-- The arbitration field as a number: the lower wins the bus. -/
def arbKey (t0 t1 : Word) : Nat :=
  let id := t0.toNat % 2 ^ 29
  let rtr := (bitAt t0 30).toNat
  if bitAt t0 29 && t1Fmt t1 != 2 then (id / 2 ^ 18 * 4 + 3) * 2 ^ 19 + id % 2 ^ 18 * 2 + rtr
  else (id % 2 ^ 11 * 4 + rtr * 2) * 2 ^ 19

/-- LATEWIN of a frame has passed. -/
def State.canLate (s : State) (c : Nat) (f : CanTx) : Bool :=
  let win := s.fld (Reg.CAN_TXCFG c) Fld.CAN_TXCFG.LATEWIN
  match f.launch.bind (·.instant) with
  | some t => win != 0 && decide (t + win * 6400 < s.now)
  | none => false

/-- The staged frames that compete. -/
def State.canCompeting (s : State) (c : Nat) : List CanTx :=
  let fs := (s.canCtl c).staged
  let fs := if s.on (Reg.CAN_TXCFG c) Fld.CAN_TXCFG.ORDER then fs.take 1 else fs
  fs.filter fun f => s.launched f.launch && !s.canLate c f

/-- The frame of the lowest arbitration field, the earlier slot on a tie. -/
def lowestFrame : List CanTx → Option CanTx
  | [] => none
  | f :: rest => match lowestFrame rest with
    | some g => if arbKey (g.word 0) (g.word 1) < arbKey (f.word 0) (f.word 1) then some g else some f
    | none => some f

/-- The controller may start a frame: it takes part in traffic in normal or loopback mode and has none on
the bus. -/
def State.canMayStart (s : State) (c : Nat) : Bool :=
  let mode := s.fld (Reg.CAN_CTRL c) Fld.CAN_CTRL.MODE
  s.canAlive c && s.canRuns c && !s.canInit c && (mode == 0 || mode == 3) && s.canErrState c != 2 &&
  !(s.canCtl c).staged.any (·.started) && !(s.canCtl c).tts.any fun f => f.started && !f.expect

def markSlot (k : Nat) (on : Bool) (f : CanTx) : CanTx := if f.slot = k then { f with started := on } else f

/-- Start the first TRANSMIT object that waits. -/
def startTt : List CanTt → List CanTt
  | [] => []
  | f :: rest => if !f.expect && !f.started then { f with started := true } :: rest else f :: startTt rest

/-- The bus is idle at an instant: a TT frame that waits starts, else the winning ring frame. -/
def execCanTxStart (c : Fin 4) (t : Nat) (s : State) : Host.Outcome State Fault Refusal :=
  let s := s.at t
  let x := s.canCtl c
  let able := fun f : CanTt => !f.expect && !f.started && (t1Fmt (f.words.getD 1 0) < 2 || s.canXlOn c)
  .next (if !s.canMayStart c then s
    else if x.tts.any able then s.setCanCtl c { x with tts := startTt x.tts }
    else if s.ttGuarded c t then s
    else match lowestFrame (s.canCompeting c) with
      | some f => s.setCanCtl c { x with staged := x.staged.map (markSlot f.slot true) }
      | none => s)

/-- The measured loop delay of a frame (R439). -/
def State.canTdcv (s : State) (c : Nat) (tdcv : Option Nat) : State :=
  match tdcv with
  | some v =>
      if !s.on (Reg.CAN_TDC c) Fld.CAN_TDC.EN then s
      else if v ≤ 127 then s.setFld (Reg.CAN_CNT2 c) Fld.CAN_CNT2.TDCV v
      else
        let s := s.count (Reg.CAN_CNT2 c) Fld.CAN_CNT2.TDCERR
        let x := s.canCtl c
        if x.tdcPosted ≠ 0 ∧ s.tick + 1 < x.tdcPosted + 1024 then s
        else (s.setCanCtl c { x with tdcPosted := s.tick + 1 }).event
          ⟨UnitCode.can, 0xB0B, 0, c, BitVec.ofNat 32 (min 255 v)⟩
  | none => s

/-- A lost arbitration, or an error in a frame: the counters become what the standard makes of them, and the
frame stays staged for its retransmission. -/
def execCanBusError (c : Fin 4) (tec rec : Fin 256) (lec : Fin 8) (tdcv : Option Nat) (s : State) :
    Host.Outcome State Fault Refusal :=
  if s.canDet c then .next s
  else
    let x := s.canCtl c
    let s := s.setCanCtl c { x with staged := x.staged.map fun f => { f with started := false },
                                    tts := x.tts.map fun f => { f with started := false } }
    let s := (s.canTdcv c tdcv).setFld (Reg.CAN_ERR c) Fld.CAN_ERR.TEC tec
    .next (((s.setFld (Reg.CAN_ERR c) Fld.CAN_ERR.REC rec).setFld (Reg.CAN_ERR c) Fld.CAN_ERR.LEC lec).canFrameEnd c)

/-- A frame not started within LATEWIN of its launch instant. -/
def execCanTxExpired (c : Fin 4) (slot : Fin 4096) (s : State) : Host.Outcome State Fault Refusal :=
  let x := s.canCtl c
  let win := s.fld (Reg.CAN_TXCFG c) Fld.CAN_TXCFG.LATEWIN
  match x.staged.find? fun f => f.slot == slot.val && !f.started with
  | some f => match f.launch.bind (·.instant) with
    | some t =>
        if win = 0 then .next s
        else
          let s := (s.at (t + win * 6400)).setCanCtl c { x with staged := x.staged.filter fun g => g.slot != slot.val }
          .next ((s.count (Reg.CAN_CNT c) Fld.CAN_CNT.TXEXP).canConfirmUnsent c 2 f)
    | none => .next s
  | none => .next s

/-! ### Reception (R443, R448, R449) -/

/-- A good frame lowers REC as the standard states; above 127 it falls to a value of 119 to 127 that the
standard leaves open. -/
def State.canRecDown (s : State) (c : Nat) : State :=
  let r := s.fld (Reg.CAN_ERR c) Fld.CAN_ERR.REC
  if 127 < r then
    let (i, s) := s.takeFree
    s.setFld (Reg.CAN_ERR c) Fld.CAN_ERR.REC (119 + (Config.freeWord i).toNat % 9)
  else s.setFld (Reg.CAN_ERR c) Fld.CAN_ERR.REC (r - 1)

/-- Two error-free frames lock the candidate. -/
def State.canLock (s : State) (c : Nat) : State :=
  let i := s.fld (Reg.CAN_STAT c) Fld.CAN_STAT.CAND
  let n := s.reg (Reg.CAN_ADCANDi_N c i)
  let d := s.reg (Reg.CAN_ADCANDi_D c i)
  let s := (s.setReg (Reg.CAN_NBT c) n).setReg (Reg.CAN_DBT c) d
  let s := s.setCanCtl c { s.canCtl c with nbt := n, dbt := d, good := 0 }
  let s := (s.setFld (Reg.CAN_CTRL c) Fld.CAN_CTRL.AUTODET 0).setFld (Reg.CAN_STAT c) Fld.CAN_STAT.DET 0
  (s.setFld (Reg.CAN_STAT c) Fld.CAN_STAT.RUN 1).event ⟨UnitCode.can, 0xB03, 0, c, BitVec.ofNat 32 i⟩

/-- An error-free frame during detection. -/
def State.canGood (s : State) (c : Nat) : State :=
  let n := (s.canCtl c).good + 1
  if 2 ≤ n then s.canLock c else s.setCanCtl c { s.canCtl c with good := n }

/-- A frame that finds no slot is dropped. -/
def State.canDrop (s : State) (c : Nat) : State :=
  let s := s.count (Reg.CAN_CNT c) Fld.CAN_CNT.RXDROP
  let x := s.canCtl c
  let n := x.drops + 1
  if x.dropPosted ≠ 0 ∧ s.tick + 1 < x.dropPosted + 1024 then s.setCanCtl c { x with drops := n }
  else (s.setCanCtl c { x with drops := 0, dropPosted := s.tick + 1 }).event
    ⟨UnitCode.can, 0xB06, 0, c, BitVec.ofNat 32 (min 65535 n)⟩

/-- Write a received frame, which filter `n` or none accepted. -/
def State.canStore (s : State) (c : Nat) (f : CanFrame) (n : Option Nat) (x4 x5 : Word) : State :=
  if !s.canRxEn c || s.canRxFree c == 0 then s.canDrop c
  else
    let x3 := f.x3 ||| (match n with
      | some k => BitVec.ofNat 32 (k * 2 ^ 24)
      | none => 0x80000000)
    s.canWriteEntry c [f.x0, f.x1, f.x2, x3, x4, x5, 0] f.data

/-- The filters decide. -/
def State.canAccept (s : State) (c : Nat) (f : CanFrame) (x4 x5 : Word) : State :=
  match s.filterFor c f with
  | some n =>
      let act := s.fld (Reg.CAN_FLTf_F0 c n) Fld.CAN_FLTf_F0.ACT
      if act = 0 then s
      else
        let s := s.canStore c f (some n) x4 x5
        if act = 2 then s.wakeBy 4 2 else s
  | none =>
      if s.on (Reg.CAN_RXCFG c) Fld.CAN_RXCFG.NOMATCH then s.canStore c f none x4 x5 else s

/-- In internal loopback a sent frame is received as well (R441); `ws` are its words T0 to T3. -/
def State.canOwn (s : State) (c : Nat) (ws : List Word) (data : List Byte) (x4 x5 : Word) : State :=
  if s.fld (Reg.CAN_CTRL c) Fld.CAN_CTRL.MODE ≠ 3 then s
  else s.canAccept c ⟨ws.getD 0 0 &&& 0x7FFFFFFF, ws.getD 1 0 &&& entryMask, ws.getD 2 0, ws.getD 3 0 &&& 0x1FF, data⟩ x4 x5

/-- The EOF of the frame on the bus has passed without error; its SOF sample point lay `fc` cycles after the
boundary `ago` ticks back.  In internal loopback the controller receives it (R441). -/
def execCanFrameSent (c : Fin 4) (ago fc : Nat) (tdcv : Option (Fin 128)) (s : State) :
    Host.Outcome State Fault Refusal :=
  let x := s.canCtl c
  let tec := s.fld (Reg.CAN_ERR c) Fld.CAN_ERR.TEC
  let x4 := BitVec.ofNat 32 (s.tick - ago)
  let x5 := BitVec.ofNat 32 fc
  let done := fun (s : State) (ws : List Word) (data : List Byte) =>
    let s := (s.canTdcv c (tdcv.map (·.val))).setFld (Reg.CAN_ERR c) Fld.CAN_ERR.TEC (tec - 1)
    (s.canOwn c ws data x4 x5).canFrameEnd c
  .next (match x.staged.find? (·.started) with
    | some f =>
        let s := s.setCanCtl c { x with staged := x.staged.filter fun g => !g.started }
        done (s.canConfirm c f 1 x4 x5) f.words f.data
    | none => match x.tts.find? fun f => f.started && !f.expect with
      | some f => done (s.setCanCtl c { x with tts := x.tts.filter fun f => f.expect || !f.started }) f.words f.data
      | none => s)

/-- An expected frame has come (R451). -/
def CanTt.expects (f : CanFrame) (e : CanTt) : CanTt :=
  let t0 := e.words.getD 0 0
  if e.expect && t0.toNat % 2 ^ 29 == f.id && bitAt t0 29 == f.ide then { e with met := true } else e

/-- A frame has been received whole, without error: its words as X0 to X3 of an entry, its data, and its SOF
sample point as for CAN_FRAME_SENT; in internal loopback the controller hears itself alone. -/
def execCanFrameReceived (c : Fin 4) (x0 x1 x2 x3 : Word) (data : List Byte) (ago fc : Nat) (s : State) :
    Host.Outcome State Fault Refusal :=
  let f : CanFrame := ⟨x0 &&& 0x7FFFFFFF, x1 &&& 0x0FFFFF0F, x2, x3 &&& 0x1FF, data⟩
  if !s.canAlive c || !(s.canRuns c || s.canDet c) || 2 < f.fmt || (f.fmt == 2 && !s.canXlOn c) ||
      s.fld (Reg.CAN_CTRL c) Fld.CAN_CTRL.MODE == 3 then .next s
  else
    let x := s.canCtl c
    let s := s.setCanCtl c { x with tts := x.tts.map (CanTt.expects f) }
    let s := if s.canDet c then s.canGood c else s.canRecDown c
    .next ((s.canAccept c f (BitVec.ofNat 32 (s.tick - ago)) (BitVec.ofNat 32 fc)).canFrameEnd c)

/-- An error, or DWELL without a frame: the next candidate. -/
def execCanRateCandidateSwitch (c : Fin 4) (s : State) : Host.Outcome State Fault Refusal :=
  if !s.canDet c then .next s
  else
    let i := s.fld (Reg.CAN_STAT c) Fld.CAN_STAT.CAND
    let s := s.setCanCtl c { s.canCtl c with good := 0 }
    if i < s.fld (Reg.CAN_AD c) Fld.CAN_AD.NCAND then .next (s.setFld (Reg.CAN_STAT c) Fld.CAN_STAT.CAND (i + 1))
    else
      let s := s.setFld (Reg.CAN_STAT c) Fld.CAN_STAT.CAND 0
      let x := s.canCtl c
      let n := x.sweeps + 1
      let quiet := match x.noLockAt with | some t => decide (s.now < t + esPerSecond) | none => false
      .next (if quiet then s.setCanCtl c { x with sweeps := n }
        else (s.setCanCtl c { x with sweeps := n, noLockAt := some s.now }).event
          ⟨UnitCode.can, 0xB04, 0, c, BitVec.ofNat 32 (min 65535 n)⟩)

/-! ### Error states (R442) -/

def State.canBusOff (s : State) (c : Nat) : State :=
  let x := s.canCtl c
  let s := s.setCanCtl c { x with busOffAt := s.now,
                                  recovering := s.on (Reg.CAN_CTRL c) Fld.CAN_CTRL.AUTOREC,
                                  staged := x.staged.map fun f => { f with started := false } }
  let s := (s.setFld (Reg.CAN_STAT c) Fld.CAN_STAT.RUN 0).count (Reg.CAN_CNT c) Fld.CAN_CNT.BUSOFF
  (s.f2Begins 0xB00 c).event ⟨UnitCode.can, 0xB00, 2, c, detailOf
    [(0, s.fld (Reg.CAN_ERR c) Fld.CAN_ERR.TEC), (8, s.fld (Reg.CAN_ERR c) Fld.CAN_ERR.LEC)]⟩

/-- The error state becomes `state` (0 active, 1 passive, 2 bus-off) with the counters given; bus-off is left by the
end of its recovery alone. -/
def execCanErrorStateChange (c : Fin 4) (state : Fin 3) (tec rec : Fin 256) (s : State) :
    Host.Outcome State Fault Refusal :=
  let old := s.canErrState c
  if s.canDet c || old == state || old == 2 || !s.canAlive c then .next s
  else
    let s := (s.setFld (Reg.CAN_ERR c) Fld.CAN_ERR.STATE state).setFld (Reg.CAN_ERR c) Fld.CAN_ERR.TEC tec
    let s := s.setFld (Reg.CAN_ERR c) Fld.CAN_ERR.REC rec
    .next (if state.val = 2 then s.canBusOff c
      else if state.val = 1 then s.event ⟨UnitCode.can, 0xB02, 0, c, detailOf [(0, tec), (8, rec)]⟩
      else s)

/-- The end of bus-off recovery. -/
def execCanBusRecovered (c : Fin 4) (s : State) : Host.Outcome State Fault Refusal :=
  let x := s.canCtl c
  if s.canErrState c ≠ 2 ∨ !x.recovering ∨ s.canInit c then .next s
  else
    let s := s.setFld (Reg.CAN_ERR c) Fld.CAN_ERR.STATE 0
    let s := (s.setFld (Reg.CAN_ERR c) Fld.CAN_ERR.TEC 0).setFld (Reg.CAN_ERR c) Fld.CAN_ERR.REC 0
    let s := (s.setCanCtl c { x with recovering := false }).setFld (Reg.CAN_STAT c) Fld.CAN_STAT.RUN 1
    let ms := min (2 ^ 32 - 1) ((s.now - x.busOffAt) / esPerMs)
    .next ((s.f2Ends 0xB00 c).event ⟨UnitCode.can, 0xB01, 0, c, BitVec.ofNat 32 ms⟩)

/-! ### Schedule matrix (R450, R451) -/

/-- Columns of a cycle with an action, whose instants lie after `e` µs. -/
def State.ttLeft (s : State) (c y e : Nat) : Nat :=
  ((List.range 16).filter fun j => s.ttAct c y j == 1 || s.ttAct c y j == 2).countP fun j => decide (e < s.ttOfs c j)

/-- A basic cycle begins, at a multiple of CYCLEN on the TT time; a change of the time base takes effect here and counts
the slots it skips. -/
def execCanTtCycleStart (c : Fin 4) (t : Nat) (s : State) : Host.Outcome State Fault Refusal :=
  let s := s.at t
  if !s.ttOn c || !s.canAlive c || s.canInit c then .next s
  else
    let old := s.ttBase c
    let new := s.vtValid
    if s.ttTime new s.now % s.ttCyclen c ≠ 0 then .next s else
    let skipped := if old = new then 0
      else s.ttLeft c (s.ttCycle c) (s.ttTime old s.now % s.ttCyclen c)
    let s := s.count (Reg.CAN_CNT c) Fld.CAN_CNT.TTMISS skipped
    let y := s.ttTime new s.now / s.ttCyclen c % s.ttNcyc c
    .next ((s.setFld (Reg.CAN_TTSTAT c) Fld.CAN_TTSTAT.CYCLE y).setFld (Reg.CAN_TTSTAT c)
      Fld.CAN_TTSTAT.BASE new.toNat)

/-- Copy of a TT object: words T0 to T3 with LEN as the format allows, and data. -/
def State.ttObject (s : State) (c o : Nat) : List Word × List Byte :=
  let w1 := s.reg (Reg.CAN_TTOBJo_T1 c o)
  let (n, m) := canLen (t1Fmt w1) 64 (t1Len w1)
  let data := bytesOfWords ((List.range 16).map fun d => s.reg (Reg.CAN_TTOBJo_Dd c o d))
  ([s.reg (Reg.CAN_TTOBJo_T0 c o), t1WithLen w1 m, s.reg (Reg.CAN_TTOBJo_T2 c o), s.reg (Reg.CAN_TTOBJo_T3 c o)],
    data.take n ++ List.replicate (m - n) 0xCC)

/-- The instant of a column: a TRANSMIT object is copied, or an EXPECT window opens. -/
def execCanTtColumn (c : Fin 4) (column : Fin 16) (s : State) : Host.Outcome State Fault Refusal :=
  let y := s.ttCycle c
  let act := s.ttAct c y column
  if !s.ttOn c || !s.canAlive c || !s.canRuns c || s.canInit c || act == 0 || act == 3 then .next s
  else
    let (ws, data) := s.ttObject c (s.fld (Reg.CAN_TTMy_j c y column) Fld.CAN_TTMy_j.OBJ)
    let x := s.canCtl c
    .next (s.setCanCtl c { x with tts := x.tts ++ [{ cycle := y, column, expect := act == 2, words := ws, data }] })

/-- TT_MISS or TT_ABSENT, at most once per 1,024 ticks. -/
def State.ttMissed (s : State) (c : Nat) (f : CanTt) : State :=
  let s := s.count (Reg.CAN_CNT c) Fld.CAN_CNT.TTMISS
  let x := s.canCtl c
  if x.missPosted ≠ 0 ∧ s.tick + 1 < x.missPosted + 1024 then s
  else (s.setCanCtl c { x with missPosted := s.tick + 1 }).event
    ⟨UnitCode.can, 0xB07, 0, c, detailOf [(0, f.cycle), (8, f.column)]⟩

def State.ttAbsent (s : State) (c : Nat) (f : CanTt) : State :=
  let x := s.canCtl c
  if x.absentPosted ≠ 0 ∧ s.tick + 1 < x.absentPosted + 1024 then s
  else (s.setCanCtl c { x with absentPosted := s.tick + 1 }).event
    ⟨UnitCode.can, 0xB08, 0, c, detailOf [(0, f.cycle), (8, f.column)]⟩

/-- TXWIN after a column: a frame that has not started is dropped, an expected one that has not come is
reported.  A frame on the bus runs on. -/
def execCanTtWindowEnd (c : Fin 4) (column : Fin 16) (s : State) : Host.Outcome State Fault Refusal :=
  let x := s.canCtl c
  match x.tts.find? fun f => f.column == column.val && (f.expect || !f.started) with
  | none => .next s
  | some f =>
      let s := s.setCanCtl c { x with tts := x.tts.erase f }
      .next (if !f.expect then s.ttMissed c f else if f.met then s else s.ttAbsent c f)

/-! ### The spare (R452, R453) -/

/-- CAN_SWAP of the spare: the controller, the CAUSE, and whether it serves. -/
def State.postCanSwap (s : State) (c cause : Nat) (ok : Bool) : State :=
  s.event ⟨UnitCode.can, 0xB09, 1, 4, detailOf [(0, c), (8, cause), (16, ok.toNat)]⟩

/-- Registers of a controller's window that belong to the image. -/
def canImageRegs (c : Nat) : List Nat :=
  ((List.range 0xF00).map fun k => Reg.CAN_CTRL c + 4 * k).filter fun a => imageMask a != 0

/-- Load a controller's configuration from the image. -/
def State.canReload (s : State) (c : Nat) : State := (canImageRegs c).foldl State.loadReg s

/-- Staged frames are fetched again from the oldest slot not yet sent, also of a ring that has halted at a later
one; TT copies are gone. -/
def State.canRestage (s : State) (c : Nat) : State :=
  let x := s.canCtl c
  let s := s.setCanCtl c { x with staged := [], tts := [] }
  match x.staged.head? with
  | some f => (s.setCanTxIdx c f.slot f.epoch).canResume c
  | none => s

/-- The unit taking over has the configuration of the image and integrates; detection starts again. -/
def State.canTakeover (s : State) (c : Nat) (counters : Bool) : State :=
  let det := s.canDet c
  let s := (s.canReload c).canRestage c
  let s := if counters then
      (s.setFld (Reg.CAN_ERR c) Fld.CAN_ERR.TEC 0).setFld (Reg.CAN_ERR c) Fld.CAN_ERR.REC 0 else s
  let s := s.setCanCtl c { s.canCtl c with nbt := s.reg (Reg.CAN_NBT c), dbt := s.reg (Reg.CAN_DBT c), swap := some 0 }
  if det then s.canDetect c else s

/-- The spare may be claimed: free, under test in place, or shadowing. -/
def State.canSpareClaimable (s : State) : Bool :=
  (s.canSpare == canFree || s.canSpare == canTest || s.canSpare == canShadow) && s.claimable canSpareUnit

/-- No spare: the controller stops with its output recessive. -/
def State.canExhausted (s : State) (c : Nat) : State :=
  let s := s.setFld Reg.CAN_SPSTAT Fld.CAN_SPSTAT.EXH 1
  let s := s.canAbort c fun _ => true
  let s := s.setCanCtl c { s.canCtl c with tts := [], swap := none }
  (s.f2Begins 0xB0A c).event ⟨UnitCode.can, 0xB0A, 2, 4, BitVec.ofNat 32 c⟩

/-- A unit that quarantine compares beside the failed spare returns on its passed BIST (R529). -/
def State.canReturns (s : State) (c : Nat) : State :=
  let s := (s.setUnit (canUnit c) unitServing).setFld (Reg.CAN_STAT c) Fld.CAN_STAT.SPARE 0
  (s.canTakeover c false).postReadmitted (canUnit c)

/-- The serving unit of a controller fails; `counters`: the error lies in TEC or REC. -/
def execCanUnitFailure (c : Fin 4) (counters : Bool) (s : State) : Host.Outcome State Fault Refusal :=
  match s.canServer c with
  | none => .next s
  | some u =>
      let s := (s.unitDetected u unitFailed).stopCan c
      .next (if u = canSpareUnit then
          let s := s.setCanSpare canFailed
          if s.fitSpare (canUnit c) then s.canReturns c else s.canExhausted c
        else if s.canSpareClaimable then ((s.claimSpare canSpareUnit).setCanSpare c).canTakeover c counters
        else s.canExhausted c)

/-- The unit that takes over has integrated and is switched onto the bus. -/
def execCanSpareSwitchIn (c : Fin 4) (s : State) : Host.Outcome State Fault Refusal :=
  match (s.canCtl c).swap with
  | none => .next s
  | some cause =>
      if !s.canAlive c then .next s
      else
        let spare := s.canSpare == c
        let runs := !s.canInit c && !s.canDet c && s.canErrState c != 2
        let s := s.setCanCtl c { s.canCtl c with swap := none }
        let s := (s.setFld (Reg.CAN_STAT c) Fld.CAN_STAT.SPARE spare.toNat).setFld (Reg.CAN_STAT c)
          Fld.CAN_STAT.RUN runs.toNat
        .next (if spare then s.postCanSwap c cause true else s)

/-- The shadow watch of the spare ends (R453): it takes over, restarting a detection under way (Table CAN-5), or it is
held out of service. -/
def execCanShadowEnd (c : Fin 4) (pass : Bool) (s : State) : Host.Outcome State Fault Refusal :=
  match s.shadowOf canSpareUnit with
  | none => .next s
  | some h =>
      if h.code ≠ canUnit c then .next s
      else if pass then
        let s := (s.shadowPassed canSpareUnit).setCanSpare c
        let s := if s.canDet c then s.canDetect c else s
        .next ((s.setFld (Reg.CAN_STAT c) Fld.CAN_STAT.SPARE 1).postCanSwap c 1 true)
      else .next (((s.shadowFailed canSpareUnit).setCanSpare canFailed).postCanSwap c 2 false)

/-! ### Boundary -/

/-- A tick boundary: launch instants of staged frames. -/
def State.canBoundary (s : State) : State :=
  [0, 1, 2, 3].foldl (fun s c =>
    let x := s.canCtl c
    if x.staged.isEmpty then s
    else s.setCanCtl c { x with staged := x.staged.map fun f => { f with launch := f.launch.map (·.boundary s) } }) s

end Sys2Proof.Machine
end

