-- ==== Sys2Proof/Machine/Eth.lean ====
section
/-! DEFINITION. Ethernet ports, their rings and timestamps, and the vehicle time counter (R457 to R471). -/

set_option Elab.async false

namespace Sys2Proof.Machine

def State.ethPort (s : State) (p : Nat) : EthPort := tabGet {} s.eth p
def State.setEthPort (s : State) (p : Nat) (x : EthPort) : State := { s with eth := tabSet {} s.eth p x }

/-- The ports run while a PLL carries the fabric (Table ETH-5), and are off in SLEEP (R470). -/
def State.ethAlive (s : State) : Bool := s.fabricLocked && !s.pwr.asleep

/-- An edge source of the interrupt router becomes pending (R481). -/
def State.edgeIrq (s : State) (id : Nat) : State := { s with hic.edges := withBit s.hic.edges id }

/-! ### Rings (R460) -/

def ethTxRing (p : Nat) : Nat := 0x30 + 2 * p
def ethRxRing (p : Nat) : Nat := 0x31 + 2 * p

def State.ethTxSize (s : State) (p : Nat) : Nat := s.fld (Reg.ETH_Pp_RING p) Fld.ETH_Pp_RING.TXSIZE
def State.ethRxSize (s : State) (p : Nat) : Nat := s.fld (Reg.ETH_Pp_RING p) Fld.ETH_Pp_RING.RXSIZE
def State.ethTxEn (s : State) (p : Nat) : Bool := s.on (Reg.ETH_Pp_RING p) Fld.ETH_Pp_RING.TXEN
def State.ethRxEn (s : State) (p : Nat) : Bool := s.on (Reg.ETH_Pp_RING p) Fld.ETH_Pp_RING.RXEN
def State.ethTxIdx (s : State) (p : Nat) : Nat := s.fld (Reg.ETH_Pp_IDX p) Fld.ETH_Pp_IDX.TX
def State.ethRxIdx (s : State) (p : Nat) : Nat := s.fld (Reg.ETH_Pp_IDX p) Fld.ETH_Pp_IDX.RX
def State.ethHalted (s : State) (p : Nat) : Bool := s.on (Reg.ETH_Pp_IDX p) Fld.ETH_Pp_IDX.HALT

/-- Host SRAM offsets of slots and buffers. -/
def State.ethTxSlot (s : State) (p k : Nat) : Nat :=
  s.fld (Reg.ETH_Pp_TXBASE p) Fld.ETH_Pp_TXBASE.OFFSET * 32 + 32 * k
def State.ethRxSlot (s : State) (p k : Nat) : Nat :=
  s.fld (Reg.ETH_Pp_RXBASE p) Fld.ETH_Pp_RXBASE.OFFSET * 32 + 32 * k
def State.ethTxBuf (s : State) (p k : Nat) : Nat := s.fld (Reg.ETH_Pp_BUF p) Fld.ETH_Pp_BUF.TXBUF * 2048 + 2048 * k
def State.ethRxBuf (s : State) (p k : Nat) : Nat := s.fld (Reg.ETH_Pp_BUF p) Fld.ETH_Pp_BUF.RXBUF * 2048 + 2048 * k

/-- RX slots that are free and not reserved. -/
def State.ethRxFree (s : State) (p : Nat) : Nat :=
  let x := s.ethPort p
  let n := s.ethRxSize p
  let used := (s.ethRxIdx p + n - x.rxCi % n) % n
  n - 1 - used - x.staged.countP (·.confirm)

def State.ethTxBell (s : State) (p : Nat) (w : Word) : State :=
  match indexIn (s.ethTxSize p) w with
  | some i => s.setEthPort p { s.ethPort p with txPi := i }
  | none => s

def State.ethRxBell (s : State) (p : Nat) (w : Word) : State :=
  match indexIn (s.ethRxSize p) w with
  | some i => s.setEthPort p { s.ethPort p with rxCi := i }
  | none => s

/-! ### RX entries (Table ETH-3) -/

/-- What a timestamp puts into an entry: NS, SEC, the boundary before it, the time from it, and TSV. -/
structure EthStamp where
  ns : Word
  sec : Word
  tick : Word
  fc : Word
  valid : Bool

/-- The vehicle time of an instant in ns, the latency `lat` added (R465). -/
def State.ethStamp (s : State) (t ago fc lat : Nat) : EthStamp :=
  let v : Int :=
    if s.vt.baseAt ≤ t then (s.vtAt t : Int) else (s.vt.base : Int) - vtGain s.vt.rate.toInt (s.vt.baseAt - t)
  let ns := v.toNat / 65536 + lat
  ⟨BitVec.ofNat 32 (ns % 1000000000), BitVec.ofNat 32 (ns / 1000000000), BitVec.ofNat 32 (s.tick - ago),
    BitVec.ofNat 32 fc, s.vtValid⟩

/-- A frame that never started has no timestamp: the spec states no X2 to X5 for it. -/
def State.noStamp (s : State) : EthStamp × State :=
  let (a, s) := s.takeFree
  let (b, s) := s.takeFree
  let (c, s) := s.takeFree
  let (d, s) := s.takeFree
  (⟨Config.freeWord a, Config.freeWord b, Config.freeWord c, Config.freeWord d, false⟩, s)

/-- Write an entry of LEN, TYPE and FILTER into the next RX slot. -/
def State.ethWriteEntry (s : State) (p len type filter : Nat) (st : EthStamp) (tag : Word) (data : List Byte) :
    State :=
  if !s.ethRxEn p then s
  else
    let x := s.ethPort p
    let k := s.ethRxIdx p
    let ph := x.rxEpoch % 2 == 0
    let x0 := detailOf [(0, len % 2 ^ 11), (12, type), (16, filter), (24, st.valid.toNat), (31, ph.toNat)]
    let ws := [x0, 0, st.ns, st.sec, st.tick, st.fc, tag]
    let w7 := Crc.checkC (bytesOfWords (ws ++ [dataFold (ethRxRing p) k x.rxEpoch]))
    let s := s.fabricWords (s.ethRxSlot p k) (ws ++ [w7])
    let s := s.fabricBytes (s.ethRxBuf p k) (data.take 2048)
    let wrap := decide (s.ethRxSize p ≤ k + 1)
    let s := s.setFld (Reg.ETH_Pp_IDX p) Fld.ETH_Pp_IDX.RX (if wrap then 0 else k + 1)
    if wrap then s.setEthPort p { x with rxEpoch := (x.rxEpoch + 1) % 256 } else s

/-- The confirmation of a frame, where it asks for one. -/
def State.ethConfirm (s : State) (p type : Nat) (f : EthTx) (st : EthStamp) : State :=
  if f.confirm then s.ethWriteEntry p f.len type 0x1F st f.tag [] else s

def State.ethConfirmUnsent (s : State) (p type : Nat) (f : EthTx) : State :=
  if f.confirm then
    let (st, s) := s.noStamp
    s.ethConfirm p type f st
  else s

/-- Discard the staged frames that have not started. -/
def State.ethAbort (s : State) (p : Nat) : State :=
  let x := s.ethPort p
  let out := x.staged.filter fun f => !f.started
  let s := s.setEthPort p { x with staged := x.staged.filter (·.started) }
  out.foldl (fun s f => s.ethConfirmUnsent p 3 f) s

/-! ### TX fetch (R461) -/

def State.ethTxHalt (s : State) (p : Nat) : State :=
  (s.setFld (Reg.ETH_Pp_IDX p) Fld.ETH_Pp_IDX.HALT 1).event
    ⟨UnitCode.eth, 0xC01, 0, p, BitVec.ofNat 32 (s.ethTxIdx p)⟩

def State.ethTxPass (s : State) (p : Nat) : State :=
  let k := s.ethTxIdx p
  if s.ethTxSize p ≤ k + 1 then
    let x := s.ethPort p
    (s.setFld (Reg.ETH_Pp_IDX p) Fld.ETH_Pp_IDX.TX 0).setEthPort p { x with txEpoch := (x.txEpoch + 1) % 256 }
  else s.setFld (Reg.ETH_Pp_IDX p) Fld.ETH_Pp_IDX.TX (k + 1)

/-- Stage the frame of a slot that has passed its check. -/
def State.ethStage (s : State) (p : Nat) (ws : List Word) : State :=
  let w0 := ws.getD 0 0
  let len := w0.toNat % 2 ^ 11
  let n := clampNat 14 1518 len
  let mode := (⟨13, 2⟩ : Bits).of w0
  let w4 := ws.getD 4 0
  let w5 := ws.getD 5 0
  let k := s.ethTxIdx p
  let x := s.ethPort p
  let f : EthTx := { slot := k, epoch := x.txEpoch, len := n, confirm := bitAt w0 12, tag := ws.getD 6 0,
                     launch := if mode = 1 then some (s.launchOf w4 w5) else none,
                     launchVt := if mode = 2 then some (w4.toNat, w5.toNat % 2 ^ 30) else none,
                     data := s.bytes (sramBase + s.ethTxBuf p k) n }
  let s := if n = len then s else s.count (Reg.ETH_Pp_CNT p) Fld.ETH_Pp_CNT.TXCLAMP
  (s.setEthPort p { x with staged := x.staged ++ [f] }).ethTxPass p

/-- Fetch and check the next TX slot of a port with a free staging buffer. -/
def State.ethFetch (s : State) (p : Nat) : State :=
  let x := s.ethPort p
  let k := s.ethTxIdx p
  let off := s.ethTxSlot p k
  let ws := s.words (sramBase + off) 8
  match s.firstBad off 8 with
  | some a => (s.sramDed a).ethTxHalt p
  | none =>
      if ws.getD 7 0 ≠ Crc.checkC (bytesOfWords (ws.take 7 ++ [dataFold (ethTxRing p) k x.txEpoch])) then s.ethTxHalt p
      else if bitAt (ws.getD 0 0) 12 && (!s.ethRxEn p || s.ethRxFree p == 0) then s
      else s.ethStage p ws

def execEthTxFetch (p : Fin 2) (s : State) : Host.Outcome State Fault Refusal :=
  let x := s.ethPort p
  .next (if s.ethAlive && s.ethTxEn p && !s.ethHalted p && s.ethTxIdx p != x.txPi && decide (x.staged.length < 4)
    then s.ethFetch p else s)

def State.ethResume (s : State) (p : Nat) : State := s.setFld (Reg.ETH_Pp_IDX p) Fld.ETH_Pp_IDX.HALT 0

/-- TXFLUSH of a halted ring. -/
def State.ethFlush (s : State) (p : Nat) : State :=
  if !s.ethHalted p then s
  else
    let s := (s.ethAbort p).ethResume p
    let x := s.ethPort p
    let s := s.setEthPort p { x with txEpoch := (x.txEpoch + (decide (x.txPi < s.ethTxIdx p)).toNat) % 256 }
    s.setFld (Reg.ETH_Pp_IDX p) Fld.ETH_Pp_IDX.TX x.txPi

/-- What a write of TXCTL does beyond its storage. -/
def State.ethTxctlWritten (s : State) (p : Nat) (w : Word) : State :=
  if Fld.ETH_Pp_TXCTL.TXFLUSH.on w then s.ethFlush p
  else if Fld.ETH_Pp_TXCTL.TXRESUME.on w then s.ethResume p else s

/-- The rings are enabled or disabled. -/
def State.ethTxEnable (s : State) (p : Nat) (on : Bool) : State :=
  if on then
    ((s.setFld (Reg.ETH_Pp_IDX p) Fld.ETH_Pp_IDX.TX 0).ethResume p).setEthPort p { s.ethPort p with txEpoch := 0 }
  else s.ethAbort p

def State.ethRxEnable (s : State) (p : Nat) : State :=
  (s.setFld (Reg.ETH_Pp_IDX p) Fld.ETH_Pp_IDX.RX 0).setEthPort p { s.ethPort p with rxEpoch := 0, rxCi := 0 }

/-! ### Transmission (R462, R463) -/

/-- The launch instant of a frame has passed. -/
def State.ethLaunched (s : State) (f : EthTx) : Bool :=
  match f.launchVt with
  | some (sec, ns) => s.vtValid && decide (sec * 1000000000 + ns ≤ s.vtNs s.now)
  | none => s.launched f.launch

def State.ethLatewin (s : State) (p : Nat) : Nat := s.fld (Reg.ETH_Pp_TXCTL p) Fld.ETH_Pp_TXCTL.LATEWIN

/-- LATEWIN has passed since the launch instant, or vehicle time is not valid for a frame that needs it. -/
def State.ethExpired (s : State) (p : Nat) (f : EthTx) : Bool :=
  let win := s.ethLatewin p
  match f.launchVt with
  | some (sec, ns) => !s.vtValid ||
      (win != 0 && decide (sec * 1000000000 + ns + win * 1000 ≤ s.vtNs s.now))
  | none => match f.launch.bind (·.instant) with
    | some t => win != 0 && decide (t + win * 6400 ≤ s.now)
    | none => false

/-- The port may transmit at an instant: the head frame starts once its launch instant has passed. -/
def execEthTxStart (p : Fin 2) (t : Nat) (s : State) : Host.Outcome State Fault Refusal :=
  let s := s.at t
  let x := s.ethPort p
  match x.staged with
  | f :: rest =>
      if s.ethAlive && !f.started && s.ethLaunched f && !s.ethExpired p f then
        .next (s.setEthPort p { x with staged := { f with started := true } :: rest })
      else .next s
  | [] => .next s

/-- The last bit of the frame on the medium has left the MAC; the first bit after its start-frame delimiter
crossed the PHY interface at `t`, `fc` cycles after the boundary `ago` ticks back. -/
def execEthTxFrameSent (p : Fin 2) (t ago fc : Nat) (s : State) : Host.Outcome State Fault Refusal :=
  let x := s.ethPort p
  match x.staged with
  | f :: rest =>
      if f.started then
        let st := s.ethStamp t ago fc (s.fld (Reg.ETH_Pp_LAT p) Fld.ETH_Pp_LAT.TXLAT)
        .next ((s.setEthPort p { x with staged := rest }).ethConfirm p 1 f st)
      else .next s
  | [] => .next s

/-- The head frame is discarded: LATEWIN has passed by the instant `t`, or vehicle time is not valid. -/
def execEthTxExpired (p : Fin 2) (t : Nat) (s : State) : Host.Outcome State Fault Refusal :=
  let s := s.at t
  let x := s.ethPort p
  match x.staged with
  | f :: rest =>
      if !f.started && s.ethExpired p f then
        let s := (s.setEthPort p { x with staged := rest }).count (Reg.ETH_Pp_CNT p) Fld.ETH_Pp_CNT.TXEXP
        .next (s.ethConfirmUnsent p 2 f)
      else .next s
  | [] => .next s

/-! ### Reception (R463 to R465, R470) -/

/-- A number from bytes, the first octet the most significant. -/
def bigEndian (bs : List Byte) : Nat := bs.foldl (fun n b => n * 256 + b.toNat) 0

/-- VLAN identifier, if the frame is tagged, and the EtherType after any tag. -/
def etherOf (bs : List Byte) : Option Nat × Nat :=
  let type := bigEndian ((bs.drop 12).take 2)
  if type = 0x8100 then (some (bigEndian ((bs.drop 14).take 2) % 4096), bigEndian ((bs.drop 16).take 2))
  else (none, type)

/-- Filter `n` of a port matches a frame. -/
def State.ethMatches (s : State) (p n : Nat) (bs : List Byte) : Bool :=
  let a := s.reg (Reg.ETH_Pp_FLTf_A p n)
  let b := s.reg (Reg.ETH_Pp_FLTf_B p n)
  let c := s.reg (Reg.ETH_Pp_FLTf_C p n)
  let mac := a.toNat + Fld.ETH_Pp_FLTf_B.MACHI.of b * 2 ^ 32
  let (vid, type) := etherOf bs
  Fld.ETH_Pp_FLTf_C.EN.on c && bigEndian (bs.take 6) == mac &&
  (!Fld.ETH_Pp_FLTf_C.ETEN.on c || type == Fld.ETH_Pp_FLTf_B.ETYPE.of b) &&
  (!Fld.ETH_Pp_FLTf_C.VIDEN.on c || vid == some (Fld.ETH_Pp_FLTf_C.VID.of c))

def State.ethDrop (s : State) (p : Nat) : State :=
  let s := s.count (Reg.ETH_Pp_CNT p) Fld.ETH_Pp_CNT.RXDROP
  let x := s.ethPort p
  let n := x.drops + 1
  if x.dropPosted ≠ 0 ∧ s.tick + 1 < x.dropPosted + 1024 then s.setEthPort p { x with drops := n }
  else (s.setEthPort p { x with drops := 0, dropPosted := s.tick + 1 }).event
    ⟨UnitCode.eth, 0xC02, 0, p, BitVec.ofNat 32 (min 65535 n)⟩

def State.ethStore (s : State) (p filter : Nat) (bs : List Byte) (st : EthStamp) : State :=
  if !s.ethRxEn p || s.ethRxFree p == 0 then s.ethDrop p
  else s.ethWriteEntry p bs.length 0 filter st 0 bs

/-- A wake frame in PARK (R470). -/
def State.ethWake (s : State) (p n : Nat) : State :=
  if s.on (Reg.ETH_Pp_CFG p) Fld.ETH_Pp_CFG.WAKEEN && s.powerState == pwrPark then
    (s.event ⟨UnitCode.eth, 0xC05, 0, p, BitVec.ofNat 32 n⟩).wakeBy 5 3
  else s

/-- The receive filters decide. -/
def State.ethAccept (s : State) (p : Nat) (bs : List Byte) (st : EthStamp) : State :=
  match (List.range 16).find? fun n => s.ethMatches p n bs with
  | some n =>
      let act := s.fld (Reg.ETH_Pp_FLTf_C p n) Fld.ETH_Pp_FLTf_C.ACT
      if act = 0 then s
      else
        let s := s.ethStore p n bs st
        if act = 2 then s.ethWake p n else s
  | none => if s.on (Reg.ETH_Pp_CFG p) Fld.ETH_Pp_CFG.NOMATCH then s.ethStore p 0x1F bs st else s

/-- A frame has been received, `data` without FCS; `fcs`: its FCS is good.  Its start-frame delimiter passed
as for ETH_TX_FRAME_SENT. -/
def execEthFrameReceived (p : Fin 2) (data : List Byte) (fcs : Bool) (t ago fc : Nat) (s : State) :
    Host.Outcome State Fault Refusal :=
  if !s.ethAlive then .next s
  else if !fcs || decide (data.length < 60) || decide (1518 < data.length) then
    .next (s.count (Reg.ETH_Pp_CNT p) Fld.ETH_Pp_CNT.RXERR)
  else .next (s.ethAccept p data (s.ethStamp t ago fc (s.fld (Reg.ETH_Pp_LAT p) Fld.ETH_Pp_LAT.RXLAT)))

/-! ### MDIO, link, PLCA (R457, R458) -/

/-- A write to ETH_MDIO starts a frame, unless one is under way. -/
def State.mdioWrite (s : State) (w : Word) : State :=
  if s.on Reg.ETH_MDIO Fld.ETH_MDIO.BUSY then s
  else s.setReg Reg.ETH_MDIO (setBit (w &&& 0x1FFFFFFF) 31 true)

/-- The MDIO frame completes; a read frame has brought `data`. -/
def execEthMdioDone (data : Fin 65536) (s : State) : Host.Outcome State Fault Refusal :=
  if !s.on Reg.ETH_MDIO Fld.ETH_MDIO.BUSY then .next s
  else
    let op := s.fld Reg.ETH_MDIO Fld.ETH_MDIO.OP
    let s := if op = 1 ∨ op = 3 then s.setFld Reg.ETH_MDIO Fld.ETH_MDIO.DATA data else s
    .next ((s.setFld Reg.ETH_MDIO Fld.ETH_MDIO.BUSY 0).edgeIrq 19)

/-- ETH0_INT_n is low. -/
def execEthPhyInterrupt (s : State) : Host.Outcome State Fault Refusal :=
  let s := s.setFld (Reg.ETH_Pp_STAT 0) Fld.ETH_Pp_STAT.PHYINT 1
  let x := s.ethPort 0
  if x.intPosted ≠ 0 ∧ s.tick + 1 < x.intPosted + 1024 then .next s
  else .next ((s.setEthPort 0 { x with intPosted := s.tick + 1 }).event ⟨UnitCode.eth, 0xC06, 0, 0, 0⟩)

/-- The link state of ETH0 has changed. -/
def execEthLinkChange (link : Bool) (spd : Fin 4) (s : State) : Host.Outcome State Fault Refusal :=
  let s := s.setFld (Reg.ETH_Pp_STAT 0) Fld.ETH_Pp_STAT.LINK link.toNat
  .next ((s.setFld (Reg.ETH_Pp_STAT 0) Fld.ETH_Pp_STAT.SPD spd).event
    ⟨UnitCode.eth, 0xC00, 0, 0, detailOf [(0, link.toNat), (1, spd)]⟩)

/-- ETH1 is a configured PLCA follower. -/
def State.plcaFollower (s : State) : Bool :=
  let id := s.fld (Reg.ETH_Pp_CFG 1) Fld.ETH_Pp_CFG.PLCA_ID
  s.on (Reg.ETH_Pp_CFG 1) Fld.ETH_Pp_CFG.PLCA_EN && id != 0 && id != 255

def State.plcaState (s : State) (seen : Bool) : State :=
  if !s.plcaFollower then s
  else (s.setFld (Reg.ETH_Pp_STAT 1) Fld.ETH_Pp_STAT.PLCA seen.toNat).event
    ⟨UnitCode.eth, 0xC03, 0, 1, BitVec.ofNat 32 seen.toNat⟩

def execPlcaBeaconLoss (s : State) : Host.Outcome State Fault Refusal := .next (s.plcaState false)
def execPlcaBeaconReturn (s : State) : Host.Outcome State Fault Refusal := .next (s.plcaState true)

/-! ### Vehicle time (R467 to R469) -/

/-- Seconds and nanoseconds wrap with the 48-bit seconds. -/
def vtModulus : Nat := 2 ^ 48 * 1000000000 * 65536

/-- A steering write has applied. -/
def State.vtSteered (s : State) : State := { s with vt := { s.vt with steered := some s.now } }.refreshVt 0

def State.vtRate (s : State) (w : Word) : State :=
  let s := s.rebaseVt
  { s with vt := { s.vt with rate := w } }.vtSteered

def State.vtStep (s : State) (w : Word) : State :=
  let s := s.rebaseVt
  let b := ((s.vt.base : Int) + w.toInt * 65536) % (vtModulus : Int)
  { s with vt := { s.vt with base := b.toNat } }.vtSteered

def State.vtSet (s : State) : State :=
  let sec := (s.reg Reg.ETH_VT_SETSEC_LO).toNat + s.fld Reg.ETH_VT_SETSEC_HI Fld.ETH_VT_SETSEC_HI.SEC * 2 ^ 32
  let ns := s.fld Reg.ETH_VT_SETNS Fld.ETH_VT_SETNS.NS
  { s with vt := { s.vt with base := (sec * 1000000000 + ns) * 65536, baseAt := s.now } }.vtSteered

def State.vtTake (s : State) (v : VtSteer) : State :=
  match v with
  | .rate w => s.vtRate w
  | .step w => s.vtStep w
  | .set => s.vtSet

/-- A steering write: that of a descriptor takes effect at the end of the application interval while ticks run, any
other at once. -/
def State.vtSteer (s : State) (deferred : Bool) (v : VtSteer) : State :=
  if deferred then { s with vt := { s.vt with due := s.vt.due ++ [v] } } else s.vtTake v

/-- The end of the application interval: its steering takes effect in the order written. -/
def State.vtIntervalEnds (s : State) : State :=
  s.vt.due.foldl State.vtTake { s with vt := { s.vt with due := [] } }

/-- ETH_VT_CTRL has been written. -/
def State.vtCtrlWritten (s : State) (deferred : Bool) (w : Word) : State :=
  let s := s.refreshVt 0
  if Fld.ETH_VT_CTRL.SET.on w then s.vtSteer deferred .set else s

/-- VTTMO has passed since the last steering write. -/
def execVtTimeout (s : State) : Host.Outcome State Fault Refusal :=
  match s.vt.steered with
  | some t => .next ((s.at (t + s.fld Reg.ETH_VT_CTRL Fld.ETH_VT_CTRL.VTTMO * esPerMs)).refreshVt 1)
  | none => .next s

/-- A tick boundary: the vehicle time at t0 is latched with the tick counter. -/
def State.vtLatch (s : State) : State :=
  let ns := s.vtNs s.t0
  let w := (BitVec.ofNat 32 (ns / 1000000000), BitVec.ofNat 32 (ns % 1000000000))
  let s := s.setReg Reg.ETH_TVT_TICK (BitVec.ofNat 32 s.tick)
  if s.vt.frozen then { s with vt := { s.vt with latched := some w } }
  else (s.setReg Reg.ETH_TVT_SEC w.1).setReg Reg.ETH_TVT_NS w.2

/-- ETH_TVT_TICK has been read; ETH_TVT_NS has been read. -/
def State.tvtTickRead (s : State) : State := { s with vt := { s.vt with frozen := true } }
def State.tvtNsRead (s : State) : State :=
  let s' := { s with vt := { s.vt with frozen := false, latched := none } }
  match s.vt.latched with
  | some w => (s'.setReg Reg.ETH_TVT_SEC w.1).setReg Reg.ETH_TVT_NS w.2
  | none => s'

/-- A tick boundary: launch instants of staged frames. -/
def State.ethBoundary (s : State) : State :=
  [0, 1].foldl (fun s p =>
    let x := s.ethPort p
    if x.staged.isEmpty then s
    else s.setEthPort p { x with staged := x.staged.map fun f => { f with launch := f.launch.map (·.boundary s) } }) s

end Sys2Proof.Machine
end

