-- ==== Sys2Proof/Machine/Flags.lean ====
section
/-! DEFINITION. Flags computed from the state: the interrupt lines of the fabric (R68), the pending sources of
the interrupt router (Table HIC-2), EVT_n and the fault bits. -/

set_option Elab.async false

namespace Sys2Proof.Machine

/-- The oldest unconsumed record of a ring is TMO ticks old. -/
def State.recordOld (s : State) (m : Nat) : Bool :=
  let tmo := s.fld (ringIrq m) Fld.CMD_CQm_IRQ.TMO
  match (s.ring m).ticks with
  | t :: _ => tmo != 0 && decide (t + tmo ≤ s.tick)
  | [] => false

/-- The line of a completion ring (0 to 3) or of the event ring (4). -/
def State.ringLine (s : State) (m : Nat) : Bool :=
  s.on (ringIrq m) Fld.CMD_CQm_IRQ.EN &&
  (decide (s.fld (ringIrq m) Fld.CMD_CQm_IRQ.THRESH ≤ s.unconsumed m) || s.recordOld m)

/-- The halt line: a submission ring is HALTED. -/
def State.haltLine (s : State) : Bool := (List.range 16).any fun n => s.sqState n == ringHalted

/-- EVT_n is driven low. -/
def State.evtN (s : State) : Bool := s.cmd.evtLow

/-- F3: a bridge, the boost stage or the exciter is in safe state (Table SYS-7). -/
def State.f3Flag (s : State) : Bool := s.fld Reg.PROT_USTAT Fld.PROT_USTAT.SAFE % 16 != 0

/-- An RX ring holds entries host software has not consumed. -/
def State.canRxLine (s : State) (c : Nat) : Bool := s.canRxEn c && s.canRxIdx c != (s.canCtl c).rxCi
def State.ethRxLine (s : State) (p : Nat) : Bool := s.ethRxEn p && s.ethRxIdx p != (s.ethPort p).rxCi

/-- Source `id` of the interrupt router is pending (Table HIC-2). -/
def State.irqPending (s : State) (id : Nat) : Bool :=
  if id = 0 then false
  else if id ≤ 5 then s.ringLine (id - 1)
  else if id = 6 then s.haltLine
  else if id ≤ 10 then s.canRxLine (id - 7)
  else if id ≤ 14 then s.canHalted (id - 11)
  else if id ≤ 16 then s.ethRxLine (id - 15)
  else if id ≤ 18 then s.ethHalted (id - 17)
  else if id = 21 then s.reg Reg.GPIO_IRQSTAT != 0
  else id ≤ 24 && hasBit s.hic.edges id

/-- HIC_PENDING. -/
def State.pendingWord (s : State) : Word :=
  (List.range 25).foldl (fun w id => setBit w id (s.irqPending id)) 0

/-- Core `c` may be given source `id`: pending, enabled, unclaimed, of a priority above its threshold. -/
def State.deliverable (s : State) (c id : Nat) : Bool :=
  let prio := s.fld (Reg.HIC_PRIOs (id - 1)) Fld.HIC_PRIOs.PRIO
  id != 0 && s.irqPending id && bitAt (s.reg (Reg.HIC_IRQc_EN c)) id &&
  !s.hic.claims.any (fun x => x.1 == id) &&
  decide (s.fld (Reg.HIC_IRQc_THR c) Fld.HIC_IRQc_THR.THR < prio)

/-- The source that a claim of core `c` returns: the highest priority, the lowest ID among equals; 0 none. -/
def State.bestSource (s : State) (c : Nat) : Nat :=
  let prio := fun id => s.fld (Reg.HIC_PRIOs (id - 1)) Fld.HIC_PRIOs.PRIO
  (List.range 25).foldl (fun best id =>
    if s.deliverable c id && (best == 0 || decide (prio best < prio id)) then id else best) 0

/-- The external interrupt of core `c`. -/
def State.externalIrq (s : State) (c : Nat) : Bool := s.bestSource c != 0

/-! ### HIC_MTIME (R483) -/

/-- One count per 20 fc. -/
def State.mtime (s : State) : Nat := s.now / (20 * esPerFc) % 2 ^ 64

def State.mtimecmp (s : State) (c : Nat) : Nat :=
  (s.reg (Reg.HIC_MTIMECMPc_LO c)).toNat + (s.reg (Reg.HIC_MTIMECMPc_HI c)).toNat * 2 ^ 32

/-- Bring the pending machine timer interrupts up to date. -/
def State.refreshMtip (s : State) : State :=
  { s with hic.mtip := (decide (s.mtimecmp 0 ≤ s.mtime)).toNat + 2 * (decide (s.mtimecmp 1 ≤ s.mtime)).toNat }

end Sys2Proof.Machine
end

