-- ==== Sys2Proof/Machine/Hic.lean ====
section
/-! DEFINITION. Host complex: core 1, caches, interrupt router, semaphores, timers, watchdogs, the xSPI
controller, GPIO and debug access (R475 to R489, R493). -/

set_option Elab.async false

namespace Sys2Proof.Machine

/-! ### Core 1 and caches (R476, R477) -/

/-- START releases core 1 at its entry address; a second one is ignored. -/
def State.core1Start (s : State) : State := s.setFld Reg.HIC_C1_CTRL Fld.HIC_C1_CTRL.RUN 1

def State.cached (s : State) (inst : Bool) (core : Nat) : List (Nat × Word) :=
  tabGet [] (if inst then s.hic.icache else s.hic.dcache) core
def State.setCached (s : State) (inst : Bool) (core : Nat) (ws : List (Nat × Word)) : State :=
  if inst then { s with hic.icache := tabSet [] s.hic.icache core ws }
  else { s with hic.dcache := tabSet [] s.hic.dcache core ws }

/-- A write of HIC_CACHEc invalidates whole caches. -/
def State.cacheWritten (s : State) (core : Nat) (w : Word) : State :=
  let s := if Fld.HIC_CACHEc.DINV.on w then s.setCached false core [] else s
  if Fld.HIC_CACHEc.IINV.on w then s.setCached true core [] else s

/-! ### Interrupt router and semaphores (R482) -/

/-- A read of CLAIM: the source claimed, and the state after. -/
def State.irqClaim (s : State) (c : Nat) : Nat × State :=
  let id := s.bestSource c
  if id = 0 then (0, s)
  else (id, { s with hic.claims := (id, c) :: s.hic.claims, hic.edges := withoutBit s.hic.edges id })

/-- A write of CLAIM by the claiming core. -/
def State.irqComplete (s : State) (c id : Nat) : State :=
  { s with hic.claims := s.hic.claims.filter fun x => !(x.1 == id && x.2 == c) }

/-- A read of a semaphore by core `c`, or by the debugger as number 2: the owner, and the state after. -/
def State.semRead (s : State) (n c : Nat) : Nat × State :=
  let owner := s.fld (Reg.HIC_SEMn n) Fld.HIC_SEMn.OWNER
  (owner, if owner = 0 ∧ c < 2 then s.setFld (Reg.HIC_SEMn n) Fld.HIC_SEMn.OWNER (c + 1) else s)

/-- A write of a semaphore: 0 by its owner frees it. -/
def State.semWrite (s : State) (n c : Nat) (w : Word) : State :=
  if w = 0 ∧ s.fld (Reg.HIC_SEMn n) Fld.HIC_SEMn.OWNER = c + 1 then
    s.setFld (Reg.HIC_SEMn n) Fld.HIC_SEMn.OWNER 0
  else s

def execIrqClaim (core : Fin 2) (s : State) : Host.Outcome State Fault Refusal :=
  let (id, s) := s.irqClaim core
  .next { s with bus := .value (BitVec.ofNat 32 id) }

def execIrqComplete (core : Fin 2) (value : Word) (s : State) : Host.Outcome State Fault Refusal :=
  .next { s.irqComplete core value.toNat with bus := .done }

def execSemRead (n : Fin 16) (reader : Fin 3) (s : State) : Host.Outcome State Fault Refusal :=
  let (owner, s) := s.semRead n reader
  .next { s with bus := .value (BitVec.ofNat 32 owner) }

def execSemFree (n : Fin 16) (core : Fin 2) (value : Word) (s : State) : Host.Outcome State Fault Refusal :=
  .next { s.semWrite n core value with bus := .done }

/-! ### MTIME (R483) -/

/-- HIC_MTIME reaches MTIMECMP of a core at an instant. -/
def execMtimecmpReached (core : Fin 2) (t : Nat) (s : State) : Host.Outcome State Fault Refusal :=
  let s := s.at t
  .next (if s.mtimecmp core ≤ s.mtime then { s with hic.mtip := withBit s.hic.mtip core } else s)

/-! ### Watchdogs (R484 to R487) -/

def State.wd (s : State) (w : Nat) : Wd := tabGet {} s.hic.wds w
def State.setWd (s : State) (w : Nat) (x : Wd) : State := { s with hic.wds := tabSet {} s.hic.wds w x }

/-- 100 µs. -/
def esPerWd : Nat := 640000

def State.wdEn (s : State) (w : Nat) : Bool := s.on (Reg.HIC_WDw_CFG w) Fld.HIC_WDw_CFG.EN
/-- The count of a watchdog. -/
def State.wdCount (s : State) (w : Nat) : Nat :=
  let x := s.wd w
  if s.wdEn w then (x.held.getD (s.now - x.since)) / esPerWd else 0
def State.wdOpen (s : State) (w : Nat) : Nat := s.fld (Reg.HIC_WDw_WIN w) Fld.HIC_WDw_WIN.OPEN
def State.wdClose (s : State) (w : Nat) : Nat := s.fld (Reg.HIC_WDw_WIN w) Fld.HIC_WDw_WIN.CLOSE
def State.wdFrozen (s : State) (w : Nat) : Bool :=
  s.on (Reg.HIC_WDw_CFG w) Fld.HIC_WDw_CFG.FRZ && hasBit s.hic.halted w

/-- The count restarts. -/
def State.wdRestart (s : State) (w : Nat) : State :=
  s.setWd w { s.wd w with since := s.now, held := if s.wdFrozen w then some 0 else none, first := none, warned := false }

/-- A violation: CAUSE 0 early, 1 late, 2 key, 3 sequence (R485, R486). -/
def State.wdViolation (s : State) (w cause : Nat) : State :=
  let s := s.setFld (Reg.HIC_WDw_STAT w) Fld.HIC_WDw_STAT.CAUSE cause
  let s := s.setWd w { s.wd w with first := none, violated := true }
  let dly := s.fld (Reg.HIC_WDw_CFG w) Fld.HIC_WDw_CFG.DLY * esPerMs
  let due := s.hic.wdogAt.getD (s.now + dly)
  let s := { s with hic.wdogAt := some due }
  s.f3 ⟨UnitCode.hic, 0xD00, 3, 0, detailOf [(0, w), (8, cause)]⟩ (causeTag 0xD00 w) 0x1F

/-- The count holds or goes on as FRZ and its core's halt tell (R487). -/
def State.wdHold (s : State) (w : Nat) : State :=
  let x := s.wd w
  match x.held with
  | none => if s.wdFrozen w then s.setWd w { x with held := some (s.now - x.since) } else s
  | some e => if s.wdFrozen w then s else s.setWd w { x with held := none, since := s.now - e }

/-- CFG has been written: setting EN starts the count. -/
def State.wdCfgWritten (s : State) (w : Nat) (wasOn : Bool) : State :=
  if s.wdEn w && !wasOn then s.wdRestart w else s.wdHold w

abbrev wdFirst : Word := 0x0000C35A
abbrev wdSecond : Word := 0x00003CA5

/-- A service word from the watchdog's own core. -/
def State.wdService (s : State) (w : Nat) (v : Word) : State :=
  match (s.wd w).first with
  | none =>
      if v = wdFirst then
        (if s.wdCount w < s.wdOpen w then s.wdViolation w 0 else s.setWd w { s.wd w with first := some s.now })
      else if v = wdSecond then s.wdViolation w 3 else s.wdViolation w 2
  | some t =>
      if v = wdSecond then (if s.now ≤ t + 6400 then s.wdRestart w else s.wdViolation w 3)
      else if v = wdFirst then s.wdViolation w 3 else s.wdViolation w 2

/-- A write of HIC_WDw_SVC by a core at an instant. -/
def State.wdSvcWritten (s : State) (w core : Nat) (v : Word) : State :=
  if core ≠ w then s.count (Reg.HIC_WDw_STAT w) Fld.HIC_WDw_STAT.FOREIGN
  else if s.wdEn w then
    -- the late count stands over a service in the same cycle (Table HIC-5)
    (if s.wdClose w ≤ s.wdCount w && !(s.wd w).violated then s.wdViolation w 1 else s.wdService w v)
  else s

def execWdogService (wd core : Fin 2) (value : Word) (t : Nat) (s : State) : Host.Outcome State Fault Refusal :=
  .next { (s.at t).wdSvcWritten wd core value with bus := .done }

/-- The count reaches CLOSE − 10·PRE. -/
def execWdogPrewarning (wd : Fin 2) (s : State) : Host.Outcome State Fault Refusal :=
  let pre := s.fld (Reg.HIC_WDw_CFG wd) Fld.HIC_WDw_CFG.PRE
  let x := s.wd wd
  if !s.wdEn wd || pre == 0 || x.warned || s.wdFrozen wd then .next s
  else
    let s := s.at (x.since + (s.wdClose wd - 10 * pre) * esPerWd)
    .next ((s.setWd wd { x with warned := true }).edgeIrq (22 + wd))

/-- The count reaches CLOSE, or (`missing`) the second service word has not come within 1 µs. -/
def execWdogClose (wd : Fin 2) (missing : Bool) (s : State) : Host.Outcome State Fault Refusal :=
  let x := s.wd wd
  if !s.wdEn wd then .next s
  else if missing then
    match x.first with
    | some t => .next ((s.at (t + 6400)).wdViolation wd 3)
    | none => .next s
  else if s.wdFrozen wd then .next s
  else .next ((s.at (x.since + s.wdClose wd * esPerWd)).wdViolation wd 1)

/-- Table HIC-4 lets the debugger act on the cores. -/
def State.debugOpen (s : State) : Bool := s.lcs == 0 || s.lcs == 2

/-- The debugger halts or resumes a core; a watchdog with FRZ holds or resumes its count. -/
def execDebugHalt (core : Fin 2) (halt : Bool) (s : State) : Host.Outcome State Fault Refusal :=
  if !s.debugOpen then .next s
  else
    let s := { s with hic.halted := if halt then withBit s.hic.halted core else withoutBit s.hic.halted core }
    .next (s.wdHold core)

/-! ### xSPI (R488, R489) -/

/-- The address of a command lies in the protected range of the CS0 device. -/
def State.xspProtected (s : State) (cs addr : Nat) : Bool :=
  cs == 0 && decide (s.fld Reg.XSP_PROT Fld.XSP_PROT.PROTLO ≤ addr / 4096) &&
  decide (addr / 4096 ≤ s.fld Reg.XSP_PROT Fld.XSP_PROT.PROTHI)

/-- A command that would write the protected range, or a register command other than 0x06 and 0x04. -/
def State.xspRefused (s : State) (w : Word) : Bool :=
  let op := Fld.XSP_CMD.OP.of w
  !Fld.XSP_CMD.DIR.on w &&
  (if Fld.XSP_CMD.NADDR.of w = 0 then op != 0x06 && op != 0x04
   else s.xspProtected (Fld.XSP_CMD.CS.of w) (s.reg Reg.XSP_ADDR).toNat)

/-- XSP_CMD has been written; GO starts the command, unless one is under way. -/
def State.xspCmdWritten (s : State) (w : Word) : State :=
  let stored := s.reg Reg.XSP_CMD
  if !Fld.XSP_CMD.GO.on w || s.on Reg.XSP_STAT Fld.XSP_STAT.BUSY then s
  else if s.xspRefused stored then
    (s.setFld Reg.XSP_STAT Fld.XSP_STAT.REFUSED 1).event
      ⟨UnitCode.xsp, 0xD10, 0, 0, BitVec.ofNat 32 (Fld.XSP_CMD.OP.of stored)⟩
  else s.setFld Reg.XSP_STAT Fld.XSP_STAT.BUSY 1

/-- Bytes into the command data buffer. -/
def State.xspData (s : State) (bs : List Byte) : State :=
  (List.range ((bs.length + 3) / 4)).foldl (fun s i =>
    let b := fun k => bs.getD (4 * i + k) ((bytesOfWord (s.reg (Reg.XSP_DATA i))).getD k 0)
    s.setReg (Reg.XSP_DATA i) (b 3 ++ b 2 ++ b 1 ++ b 0)) s

/-- The command finishes; a read command has brought `data`. -/
def execXspCommandDone (data : List Byte) (s : State) : Host.Outcome State Fault Refusal :=
  if !s.on Reg.XSP_STAT Fld.XSP_STAT.BUSY then .next s
  else
    let n := min 256 (s.fld Reg.XSP_CMD Fld.XSP_CMD.NDATA)
    let s := if s.on Reg.XSP_CMD Fld.XSP_CMD.DIR then s.xspData (data.take n) else s
    .next ((s.setFld Reg.XSP_STAT Fld.XSP_STAT.BUSY 0).edgeIrq 20)

/-- A flash read whose strobe has not come: the reading core takes an access fault (R488). -/
def State.xspTimeout (s : State) (core cs : Nat) : State :=
  let s := s.setFld Reg.XSP_STAT Fld.XSP_STAT.TMO 1
  let s := { s with bus := .accessFault, hic.resv := s.hic.resv.filter fun r => r.1 != core }
  s.event ⟨UnitCode.xsp, 0xD11, 0, 0, BitVec.ofNat 32 cs⟩

/-- XSP_READ_TIMEOUT: in 8D mode the strobe of a read has not come within 2 µs. -/
def execXspReadTimeout (core cs : Fin 2) (s : State) : Host.Outcome State Fault Refusal :=
  if s.on Reg.XSP_CFG Fld.XSP_CFG.MODE then .next (s.xspTimeout core.val cs.val) else .next s

/-! ### GPIO (R495) -/

/-- An edge at a GPIO ball: its level, and its status bit where the edge is configured. -/
def execGpioEdge (ball : Fin 32) (rising : Bool) (s : State) : Host.Outcome State Fault Refusal :=
  let cfg := (⟨2 * (ball % 16), 2⟩ : Bits).of (s.reg (Reg.GPIO_IRQCFG (ball / 16)))
  let s := s.setReg Reg.GPIO_IN (setBit (s.reg Reg.GPIO_IN) ball rising)
  .next (if cfg = 3 ∨ (cfg = 1 ∧ rising) ∨ (cfg = 2 ∧ !rising) then
      s.setReg Reg.GPIO_IRQSTAT (setBit (s.reg Reg.GPIO_IRQSTAT) ball true)
    else s)

/-! ### Boot status and test access (R492, R493) -/

/-- A write of SYS_BOOTOK. -/
def State.bootOkWritten (s : State) (w : Word) : State :=
  let s := if Fld.SYS_BOOTOK.OK.on w then s.setFld Reg.SYS_BOOTSTAT Fld.SYS_BOOTSTAT.TRY 0 else s
  if Fld.SYS_BOOTOK.COMMIT.on w then { s with hic.fusedSvn := max s.hic.fusedSvn s.hic.svn } else s

/-- A TAP instruction is admitted: 0 BYPASS, 1 IDCODE, 2 EXTEST, above those any other. -/
def State.tapAdmits (s : State) (code : Nat) : Bool :=
  decide (code ≤ 1) || s.lcs == 0 ||
  (s.lcs == 2 && (code != 2 || (s.powerState == pwrPark && s.fld Reg.PROT_USTAT Fld.PROT_USTAT.SAFE == 0x1F)))

/-- What the TAP shifts out under IDCODE (R4). -/
def State.idcode (s : State) : Word :=
  detailOf [(0, 1), (1, 0x5A3), (12, 0x9640), (28, s.fld Reg.SYS_DEVID Fld.SYS_DEVID.CORE_REV)]

/-- A TAP instruction is loaded; a refused one loads as BYPASS. -/
def execTapInstruction (code : Nat) (s : State) : Host.Outcome State Fault Refusal :=
  .next { s with hic.tap := if s.tapAdmits code then code else 0 }

end Sys2Proof.Machine
end

