-- ==== Sys2Proof/Machine/RegRead.lean ====
section
/-! DEFINITION. What a read of a register returns: the stored word, the words computed from the rest of the
state, and the reads that change state (R6, R20, R429, R469, R478, R482, R483). -/

set_option Elab.async false

namespace Sys2Proof.Machine

/-- An address as an element of an array of registers. -/
def elemOf (a base stride count : Nat) : Option Nat :=
  if base ≤ a ∧ (a - base) % stride = 0 ∧ (a - base) / stride < count then some ((a - base) / stride) else none

/-! ### Check units as read (R501) -/

/-- Running register of a check unit; after reset that of CRC-32. -/
def State.chkRun (s : State) (n : Nat) : Word := tabGet 0xFFFFFFFF s.chk.units n
def State.setChkRun (s : State) (n : Nat) (w : Word) : State :=
  { s with chk.units := tabSet 0xFFFFFFFF s.chk.units n w }
def State.chkAlg (s : State) (n : Nat) : Crc.Alg := Crc.algOf (s.fld (Reg.CHK_Un_CFG n) Fld.CHK_Un_CFG.ALG)

/-- CHK_Un_RES: the running register after the final XOR. -/
def State.chkResult (s : State) (n : Nat) : Word := s.chkRun n ^^^ BitVec.ofNat 32 (s.chkAlg n).xorOut

/-! ### Views -/

/-- The level of the GPIO balls: those the device drives follow GPIO_OUT. -/
def State.gpioIn (s : State) : Word :=
  let dir := s.reg Reg.GPIO_DIR
  (s.reg Reg.GPIO_OUT &&& dir) ||| (s.reg Reg.GPIO_IN &&& ~~~dir)

def State.viewClk (s : State) (a : Nat) : Word :=
  if a = Reg.CLK_TICKCNT_LO then BitVec.ofNat 32 s.tickLow
  else if a = Reg.CLK_RTC_LO then BitVec.ofNat 32 s.rtcNow
  else s.reg a

def State.viewPwm (s : State) (a : Nat) : Word :=
  match elemOf a (Reg.TBn_STAT 0) 0x20 4 with
  | some n => (s.showTb n).reg a
  | none => s.reg a

def State.viewChk (s : State) (a : Nat) : Word :=
  match elemOf a (Reg.CHK_Un_RES 0) 4 4 with
  | some n => s.chkResult n
  | none => s.reg a

/-- The signal board view: operand address `a` of stall 0's view, in pass A form (Table ENG-13). -/
def State.viewEng (s : State) (a : Nat) : Word :=
  match elemOf a (Reg.ENG_BOARDa 0) 4 4096 with
  | some k => s.fetch 0 0 {} k
  | none => s.reg a

/-- TPR_STAT with the stall that is scrubbed next (Table TPR-4). -/
def State.viewTpr (s : State) (a : Nat) : Word :=
  if a = Reg.TPR_STAT then Fld.TPR_STAT.SCRUB.put (s.scrubStall.getD 0) (s.reg a) else s.reg a

/-- Time spent in RUN, in es (R514). -/
def State.runTime (s : State) : Nat :=
  s.bst.ran + if s.fld Reg.PWR_STATE Fld.PWR_STATE.STATE = 0 ∧ s.pwr.held.isNone then s.now - s.bst.runFrom else 0

/-- Hours of RUN since a unit's last complete test. -/
def State.hoursSince (s : State) (u : Nat) : Nat :=
  satAdd 16 0 ((s.runTime - tabGet 0 s.bst.tested u) / (3600 * esPerSecond))

def State.viewBst (s : State) (a : Nat) : Word :=
  if a = Reg.BST_COND then s.condWord
  else match elemOf a (Reg.BST_Uu 0) 4 0x48 with
    | some u => if unitExists u then Fld.BST_Uu.LAST.put (s.hoursSince u) (s.reg a) else s.reg a
    | none => s.reg a

def State.viewHic (s : State) (a : Nat) : Word :=
  if a = Reg.HIC_MTIME_LO then BitVec.ofNat 32 s.mtime
  else if a = Reg.HIC_PENDING then s.pendingWord
  else match elemOf a (Reg.HIC_IRQc_CLAIM 0) 0x10 2 with
    | some c => BitVec.ofNat 32 (s.bestSource c)
    | none => match elemOf a (Reg.HIC_WDw_STAT 0) 0x20 2 with
      | some w => Fld.HIC_WDw_STAT.CNT.put (s.wdCount w) (s.reg a)
      | none => s.reg a

/-- The word a read of an aligned address of the register blocks gives; 0 where no register is. -/
def State.view (s : State) (a : Nat) : Word :=
  if (regAt a).isNone then 0
  else
    let u := unitOf a
    if a = Reg.SYS_FAULTSTAT then Fld.SYS_FAULTSTAT.F3.put s.f3Flag.toNat (s.reg a)
    else if u = UnitCode.clk then s.viewClk a
    else if u = UnitCode.eng then s.viewEng a
    else if u = UnitCode.tpr then s.viewTpr a
    else if u = UnitCode.pwm then s.viewPwm a
    else if u = UnitCode.chk then s.viewChk a
    else if u = UnitCode.hic then s.viewHic a
    else if u = UnitCode.bst then s.viewBst a
    else if a = Reg.XSP_STAT then
      Fld.XSP_STAT.PROTLO.put (s.fld Reg.XSP_PROT Fld.XSP_PROT.PROTLO) (s.reg a)
    else if a = Reg.GPIO_IN then s.gpioIn
    else s.reg a

/-! ### Reads that change state -/

/-- A read of TICKCNT_LO, RTC_LO or MTIME_LO holds the upper word for the read of HI. -/
def State.holdUpper (s : State) (a : Nat) : State :=
  if a = Reg.CLK_TICKCNT_LO then s.setReg Reg.CLK_TICKCNT_HI (BitVec.ofNat 32 (s.tick / 2 ^ 32 % 2 ^ 16))
  else if a = Reg.CLK_RTC_LO then s.setReg Reg.CLK_RTC_HI (BitVec.ofNat 32 (s.rtcNow / 2 ^ 32))
  else if a = Reg.HIC_MTIME_LO then s.setReg Reg.HIC_MTIME_HI (BitVec.ofNat 32 (s.mtime / 2 ^ 32))
  else if a = Reg.ETH_TVT_TICK then s.tvtTickRead
  else if a = Reg.ETH_TVT_NS then s.tvtNsRead
  else s

/-- A read by a descriptor: the word and the state after. -/
def State.readReg (s : State) (a : Nat) : Word × State := (s.view a, s.holdUpper a)

/-- A read by core `c` on the bus (2: the debugger). -/
def State.busRead (s : State) (c a : Nat) : Word × State :=
  match elemOf a (Reg.HIC_IRQc_CLAIM 0) 0x10 2 with
  | some i =>
      let (id, s) := s.irqClaim i
      (BitVec.ofNat 32 id, s)
  | none => match elemOf a (Reg.HIC_SEMn 0) 4 16 with
    | some n =>
        let (o, s) := s.semRead n c
        (BitVec.ofNat 32 o, s)
    | none => s.readReg a

end Sys2Proof.Machine
end

