-- ==== Sys2Proof/Machine/RegClamp.lean ====
section
/-! DEFINITION. Which fields a write reaches and what an illegal value becomes (R6 to R10, R47, R74, and the Clamp
columns of the register tables). -/

set_option Elab.async false

namespace Sys2Proof.Machine

/-- Who writes a register: a core (2: the debugger), or a descriptor. -/
inductive Master where
  | core (c : Nat)
  | descriptor
  deriving DecidableEq, Repr

def Master.isBus : Master → Bool
  | .core _ => true
  | .descriptor => false

/-- A write reaches a field (R6, R47, R74). -/
def FieldDesc.reached (f : FieldDesc) (m : Master) (locked : Bool) : Bool :=
  match m, f.access with
  | .core _, .rw => !locked || f.afterLock
  | .core _, .rwl => !locked
  | .core _, .wo => !locked || f.afterLock
  | .core _, .w1c => true
  | .descriptor, .rw => true
  | .descriptor, .rwl => true
  | .descriptor, .wo => true
  | _, _ => false

/-- What an illegal value of a field becomes (R8). -/
def Clamp.apply : Clamp → Nat → Nat
  | .below lo, v => max lo v
  | .above hi, v => min hi v
  | .range lo hi, v => clampNat lo hi v
  | .codes first last becomes, v => if first ≤ v ∧ v ≤ last then becomes else v
  | .realAny, v => (Num.convert (BitVec.ofNat 32 v)).toNat
  | .realNonneg, v =>
      let w := BitVec.ofNat 32 v
      if Num.isNeg w then 0 else (Num.convert w).toNat
  | .real01, v =>
      let w := BitVec.ofNat 32 v
      if Num.isNaN w || Num.isNeg w then 0
      else if 1 < Num.val (Num.convert w) then 0x3F800000 else (Num.convert w).toNat
  | .realKe, v =>
      let w := BitVec.ofNat 32 v
      if Num.isNeg w || Num.isNaN w || Num.isInf w then 0 else (Num.convert w).toNat
  | .none, v => v
  | .cross, v => v

/-- Whether that is a clamp: −0 and NaN as 0 and the sign of 0 are judged by value. -/
def Clamp.clamps (c : Clamp) (v : Nat) : Bool := c.apply v != v && !(v == 0x80000000 && c.apply v == 0 &&
  match c with | .realAny | .realNonneg | .real01 | .realKe => true | _ => false)

/-- The value of a field after a write: its bits under the mask replaced, then clamped; a W1C field loses the
bits written 1. -/
def FieldDesc.written (f : FieldDesc) (old w mask : Word) : Nat × Bool :=
  match f.access with
  | .w1c => (f.bits.of (old &&& ~~~(w &&& mask)), false)
  | _ =>
      let v := f.bits.of (blend mask w old)
      if f.bits.on mask then (f.clamp.apply v, f.clamp.clamps v) else (v, false)

/-- The word a register holds after a write reaches its stored fields, and whether a field was clamped. -/
def RegDesc.written (d : RegDesc) (m : Master) (locked : Bool) (old w mask : Word) : Word × Bool :=
  d.fields.foldl (fun (acc : Word × Bool) f =>
    if f.reached m locked && f.access != .wo then
      let (v, c) := f.written old w mask
      (f.bits.put v acc.1, acc.2 || c)
    else acc) (old, false)

/-- The bits of a write that reach write-only fields. -/
def RegDesc.pulses (d : RegDesc) (m : Master) (locked : Bool) (w mask : Word) : Word :=
  d.fields.foldl (fun acc f =>
    if f.reached m locked && f.access == .wo then acc ||| (w &&& mask &&& f.bits.mask) else acc) 0

/-- The bits that a write reaches. -/
def RegDesc.reach (d : RegDesc) (m : Master) (locked : Bool) : Word :=
  d.fields.foldl (fun acc f => if f.reached m locked then acc ||| f.bits.mask else acc) 0

/-! ### Clamps across fields and registers -/

/-- Raise field `f` to at least `lo`, or limit it to at most `hi`. -/
def raiseFld (f : Bits) (lo : Nat) (w : Word) : Word := f.put (max lo (f.of w)) w
def limitFld (f : Bits) (hi : Nat) (w : Word) : Word := f.put (min hi (f.of w)) w

/-- A field value, 0 read as 2^width where the width allows (Table CAN-6). -/
def orFull (full v : Nat) : Nat := if v = 0 then full else v

/-- Frequency of source code of CLKOUT, in Hz, and the limit of a format. -/
def clkoutHz (s : State) (src : Nat) : Nat :=
  if src = 0 then s.fld Reg.CLK_REF Fld.CLK_REF.FREF * 1000000 else if src = 5 then 32768 else 200000000
def clkoutMax (fmt : Nat) : Nat := if fmt = 1 then 50000000 else if fmt = 2 then 100000000 else 200000000

def State.clampClk (s : State) (a : Nat) (w : Word) : Word :=
  if (elemOf a (Reg.CLK_OUTn_CFG 0) 4 2).isSome then
    let fmt := Fld.CLK_OUTn_CFG.FMT.of w
    let least := ceilDiv (clkoutHz s (Fld.CLK_OUTn_CFG.SRC.of w)) (clkoutMax fmt)
    raiseFld Fld.CLK_OUTn_CFG.DIV (if fmt = 0 then 1 else max 1 least) w
  else if a = Reg.CLK_TICKIN_OFS then
    limitFld Fld.CLK_TICKIN_OFS.OFS (s.fld (Reg.TBn_PER 0) Fld.TBn_PER.PERIOD - 1) w
  else w

/-- Largest DITH of TB0 that keeps the shortest tick (R190). -/
def State.dithLimit (s : State) (n : Nat) (sync : Bool) : Nat :=
  let p := s.fld (Reg.TBn_PER n) Fld.TBn_PER.PERIOD
  let base := if s.tickSrc = 2 then 2 * tAdm s.cReq else tAdm s.cReq
  if n = 0 && !sync then min (p / 512) ((p - base) / 32) else p / 512

def State.clampTbCfg (s : State) (n : Nat) (w : Word) : Word :=
  let w := if Fld.TBn_CFG.MODE.of w = 3 ∨ (n = 0 ∧ Fld.TBn_CFG.MODE.of w = 2) then Fld.TBn_CFG.MODE.put 0 w else w
  let w := if Fld.TBn_CFG.MODE.of w = 1 then Fld.TBn_CFG.LDPT.put 0 w else w
  let w := if n ≠ 0 then Fld.TBn_CFG.SYNC.put 0 w else w
  limitFld Fld.TBn_CFG.DITH (s.dithLimit n (Fld.TBn_CFG.SYNC.on w)) w

/-- The period a timebase's PHASE is judged against: that of TB0 for a slave. -/
def State.phaseLimit (s : State) (n : Nat) : Nat :=
  let master := if n ≠ 0 ∧ s.fld (Reg.TBn_CFG n) Fld.TBn_CFG.MODE = 2 then 0 else n
  s.fld (Reg.TBn_PER master) Fld.TBn_PER.PERIOD - 1

def State.clampPwm (s : State) (a : Nat) (w : Word) : Word :=
  match elemOf a (Reg.TBn_CFG 0) 0x20 4, elemOf a (Reg.TBn_PER 0) 0x20 4, elemOf a (Reg.TBn_PHASE 0) 0x20 4 with
  | some n, _, _ => s.clampTbCfg n w
  | _, some n, _ => Fld.TBn_PER.PERIOD.put (s.clampPeriod n (Fld.TBn_PER.PERIOD.of w)) w
  | _, _, some n => limitFld Fld.TBn_PHASE.PHASE (s.phaseLimit n) w
  | _, _, _ => w

def State.clampProt (a : Nat) (w : Word) : Word :=
  match elemOf a (Reg.PROT_INTn_CFG 0) 4 24 with
  | some n =>
      if 12 ≤ n then Fld.PROT_INTn_CFG.MODE.put 0 (Fld.PROT_INTn_CFG.FILT.put 1 w)
      else
        let w := if Fld.PROT_INTn_CFG.MODE.of w = 3 then Fld.PROT_INTn_CFG.MODE.put 0 w else w
        raiseFld Fld.PROT_INTn_CFG.FILT 1 w
  | none => match elemOf a (Reg.PROT_CMPm_THR 0) 8 12, elemOf a (Reg.PROT_BRb_THR 0) 0x20 2 with
    | some _, _ => limitFld Fld.PROT_CMPm_THR.LO (Fld.PROT_CMPm_THR.HI.of w) w
    | _, some _ => limitFld Fld.PROT_BRb_THR.LO (Fld.PROT_BRb_THR.HI.of w - 1) w
    | _, _ => w

/-- A binary32 word raised or limited to another register's value. -/
def atLeast (w bound : Word) : Word := if Num.val w < Num.val bound then bound else w
def atMost (w bound : Word) : Word := if Num.val bound < Num.val w then bound else w

def State.clampAcq (s : State) (a : Nat) (w : Word) : Word :=
  match elemOf a (Reg.ACQ_DSc_CFG 0) 0x20 12, elemOf a (Reg.ACQ_DSc_LIMLO 0) 0x20 12 with
  | some _, _ =>
      let v := Fld.ACQ_DSc_CFG.OSR.of w
      Fld.ACQ_DSc_CFG.OSR.put (if v = 0 then 0 else clampNat 16 256 v) w
  | _, some c => atMost (Num.convert w) (s.reg (Reg.ACQ_DSc_LIMHI c))
  | _, _ => w

def State.clampPos (a : Nat) (w : Word) : Word :=
  match elemOf a (Reg.POS_CHc_RES 0) 0x100 2, elemOf a (Reg.POS_CHc_SENT 0) 0x100 2,
      elemOf a (Reg.POS_CHc_SSI 0) 0x100 2 with
  | some _, _, _ => raiseFld Fld.POS_CHc_RES.AMAX (Fld.POS_CHc_RES.AMIN.of w) w
  | _, some _, _ => if Fld.POS_CHc_SENT.ANGW.on w then Fld.POS_CHc_SENT.CMPL.put 0 w else w
  | _, _, some _ =>
      let len := Fld.POS_CHc_SSI.LEN.of w
      let w := Fld.POS_CHc_SSI.ANGW.put (clampNat 1 len (Fld.POS_CHc_SSI.ANGW.of w)) w
      limitFld Fld.POS_CHc_SSI.ANGPOS (len - Fld.POS_CHc_SSI.ANGW.of w) w
  | _, _, _ => w

/-- A binary32 word converted as R101 states, with 0 for a negative value. -/
def realNonneg (w : Word) : Word := if Num.isNeg w then 0 else Num.convert w

def State.clampFld (s : State) (a : Nat) (w : Word) : Word :=
  match elemOf a (Reg.FLD_MCm_LQ 0) 0x80 2, elemOf a (Reg.FLD_MCm_WB2 0) 0x80 2 with
  | some m, _ => atLeast (realNonneg w) (s.reg (Reg.FLD_MCm_LD m))
  | _, some m => atLeast (realNonneg w) (s.reg (Reg.FLD_MCm_WB1 m))
  | _, _ => w

def State.clampWgh (s : State) (a : Nat) (w : Word) : Word :=
  match (List.range 8).find? fun i => a == Reg.WGH_MCm_WSPDk (i / 4) (i % 4) with
  | some i => if i % 4 = 0 then realNonneg w else atLeast (realNonneg w) (s.reg (a - 4))
  | none => w

/-- THR not below WARN, SHUT not below THR. -/
def orderLevels (w : Word) : Word :=
  let w := raiseFld Fld.THM_CHIP_LVL.THR (Fld.THM_CHIP_LVL.WARN.of w) w
  raiseFld Fld.THM_CHIP_LVL.SHUT (Fld.THM_CHIP_LVL.THR.of w) w

def State.clampThm (a : Nat) (w : Word) : Word :=
  if a = Reg.THM_CHIP_LVL then orderLevels w
  else match (List.range 64).find? fun i => a == Reg.THM_PSs_w (i / 32) (i % 32) with
    | some i =>
        let k := i % 32
        if k = 10 then (if realNonneg w = 0 then 0x3F800000 else realNonneg w)
        else if k = 11 ∨ k = 12 then w
        else if k = 30 then orderLevels w
        else if k = 31 then raiseFld ⟨8, 8⟩ 1 (raiseFld ⟨0, 4⟩ 1 w)
        else realNonneg w
    | none => w

/-! ### CAN and Ethernet -/

/-- A prescaler raised until the bit lasts at least `least` clock cycles (R438). -/
def raiseBit (brp : Bits) (least segs : Nat) (w : Word) : Word := raiseFld brp (ceilDiv least (1 + segs)) w

def clampNbt (w : Word) : Word :=
  let seg2 := Fld.CAN_NBT.NTSEG2.of w
  let w := Fld.CAN_NBT.NSJW.put (min seg2 (orFull 128 (Fld.CAN_NBT.NSJW.of w))) w
  raiseBit Fld.CAN_NBT.NBRP 80 (Fld.CAN_NBT.NTSEG1.of w + seg2) w

def clampDbt (c : Nat) (w : Word) : Word :=
  let seg2 := Fld.CAN_DBT.DTSEG2.of w
  let w := limitFld Fld.CAN_DBT.DSJW seg2 w
  raiseBit Fld.CAN_DBT.DBRP (if canXl c then 4 else 10) (Fld.CAN_DBT.DTSEG1.of w + seg2) w

/-- End of what rings and buffers may use of host SRAM. -/
def ringLimit : Nat := 0x3FF000

/-- A base field, in units of `u` bytes, moved down where an area of `len` bytes would end beyond the limit. -/
def fitBase (f : Bits) (u len : Nat) (w : Word) : Word :=
  if ringLimit < f.of w * u + len then f.put ((ringLimit - len) / u) w else w

/-- The controller of a CAN address, and the offset in its window (R435). -/
def canOf (a : Nat) : Nat := offsetOf a / 0x4000
def canOff (a : Nat) : Nat := offsetOf a % 0x4000

def State.canBufOf (c : Nat) (w : Word) : Nat := if canXl c && Fld.CAN_BUF.XLSZ.on w then 2048 else 64

def State.clampCanBuf (s : State) (c : Nat) (w : Word) : Word :=
  let w := if canXl c then w else Fld.CAN_BUF.XLSZ.put 0 w
  fitBase Fld.CAN_BUF.TXBUF 64 (s.canTxSize c * State.canBufOf c w) w

def State.clampCan (s : State) (a : Nat) (w : Word) : Word :=
  let c := canOf a
  let o := canOff a
  if o = 0x0000 then (if Fld.CAN_CTRL.AUTODET.on w then Fld.CAN_CTRL.MODE.put 1 w else w)
  else if o = 0x000C then clampNbt w
  else if o = 0x0010 then clampDbt c w
  else if o = 0x0018 then (if canXl c then w else Fld.CAN_XL.EN.put 0 w)
  else if o = 0x0040 then fitBase Fld.CAN_TXBASE.OFFSET 32 (32 * s.canTxSize c) w
  else if o = 0x004C then fitBase Fld.CAN_RXBASE.OFFSET 32 (32 * s.canRxSize c) w
  else if o = 0x0058 then s.clampCanBuf c w
  else if o = 0x005C then fitBase Fld.CAN_RXBUF.RXBUF 64 (s.canRxSize c * s.canBuf c) w
  else if 0x0084 ≤ o ∧ o < 0x00C4 then (if o % 8 = 4 then clampNbt w else clampDbt c w)
  else if 0x0140 ≤ o ∧ o < 0x0180 then limitFld Fld.CAN_TTCOLj.OFS (s.ttCyclen c - 1) w
  else if 0x2000 ≤ o ∧ o < 0x2800 ∧ o % 16 = 8 then
    (if (⟨4, 2⟩ : Bits).of (s.reg (a - 8)) = 1 then raiseFld ⟨0, 29⟩ ((⟨0, 29⟩ : Bits).of (s.reg (a - 4))) w else w)
  else w

def clampRate (w : Word) : Word := BitVec.ofInt 32 (max (-8000000) (min 8000000 w.toInt))

def State.clampEthCfg (p : Nat) (w : Word) : Word :=
  let w := if p = 1 ∨ Fld.ETH_Pp_CFG.SPEED.of w = 3 then Fld.ETH_Pp_CFG.SPEED.put 0 w else w
  if p = 0 then Fld.ETH_Pp_CFG.PLCA_EN.put 0 w else w

def State.clampEthBuf (s : State) (p : Nat) (w : Word) : Word :=
  fitBase Fld.ETH_Pp_BUF.RXBUF 2048 (2048 * s.ethRxSize p)
    (fitBase Fld.ETH_Pp_BUF.TXBUF 2048 (2048 * s.ethTxSize p) w)

def State.clampEth (s : State) (a : Nat) (w : Word) : Word :=
  if a = Reg.ETH_VT_RATE then clampRate w
  else
    let p := (offsetOf a - 0x100) / 0x100
    if a = Reg.ETH_Pp_CFG p then State.clampEthCfg p w
    else if a = Reg.ETH_Pp_TXBASE p then fitBase Fld.ETH_Pp_TXBASE.OFFSET 32 (32 * s.ethTxSize p) w
    else if a = Reg.ETH_Pp_RXBASE p then fitBase Fld.ETH_Pp_RXBASE.OFFSET 32 (32 * s.ethRxSize p) w
    else if a = Reg.ETH_Pp_BUF p then s.clampEthBuf p w
    else w

/-! ### Other blocks -/

def State.clampCmd (s : State) (a : Nat) (w : Word) : Word :=
  match elemOf a (Reg.CMD_SQn_BASE 0) 0x20 16 with
  | some n => fitBase Fld.CMD_SQn_BASE.OFFSET 32 (32 * s.sqSize n) w
  | none => match (List.range 5).find? fun m => a == ringBase m with
    | some m => fitBase Fld.CMD_CQm_BASE.OFFSET 16 (16 * s.ringSize m) w
    | none => w

def State.clampHic (s : State) (a : Nat) (w : Word) : Word :=
  match elemOf a (Reg.HIC_WDw_CFG 0) 0x20 2, elemOf a (Reg.HIC_WDw_WIN 0) 0x20 2 with
  | some i, _ =>
      let w := if s.wdEn i then Fld.HIC_WDw_CFG.EN.put 1 w else w
      if s.lcs = 1 then Fld.HIC_WDw_CFG.FRZ.put 0 w else w
  | _, some _ => limitFld Fld.HIC_WDw_WIN.OPEN (Fld.HIC_WDw_WIN.CLOSE.of w - 1) w
  | _, _ => w

/-- 10 µF. -/
def cMinFloor : Word := 0x3727C5AC

def State.clampOther (s : State) (a : Nat) (w : Word) : Word :=
  if a = Reg.SYS_RSTCTL then (if Fld.SYS_RSTCTL.SWSYS.of w = 0xA5C3 then w else 0)
  else if a = Reg.HLD_CMIN then atLeast (Num.convert w) cMinFloor
  else if a = Reg.BST_CFG then (if s.lcs = 1 then Fld.BST_CFG.ROTEN.put 1 w else w)
  else w

/-- The clamps of a register that depend on other fields or registers. -/
def State.crossClamp (s : State) (a : Nat) (w : Word) : Word :=
  let u := unitOf a
  if u = UnitCode.clk then s.clampClk a w
  else if u = UnitCode.cmd then s.clampCmd a w
  else if u = UnitCode.eng then (if (elemOf a (Reg.ENG_BINDn 0) 4 256).isSome then bindWord w else w)
  else if u = UnitCode.pwm then s.clampPwm a w
  else if u = UnitCode.prot then State.clampProt a w
  else if u = UnitCode.acq then s.clampAcq a w
  else if u = UnitCode.pos then State.clampPos a w
  else if u = UnitCode.fld then s.clampFld a w
  else if u = UnitCode.wgh then s.clampWgh a w
  else if u = UnitCode.thm then State.clampThm a w
  else if u = UnitCode.can then s.clampCan a w
  else if u = UnitCode.eth then s.clampEth a w
  else if u = UnitCode.hic then s.clampHic a w
  else s.clampOther a w

/-- −0 stored as 0 is no clamp (R101). -/
def negZero (w v : Word) : Bool := w == 0x80000000 && v == 0

/-- The bits of a register word that hold something: of parameter words 30 and 31 of the thermal model the others
are reserved (R7, Table THM-4). -/
def listedBits (a : Nat) : Word :=
  match (List.range 64).find? fun i => a == Reg.THM_PSs_w (i / 32) (i % 32) with
  | some i => if i % 32 = 30 then 0x00FFFFFF else if i % 32 = 31 then 0xFF03FF0F else 0xFFFFFFFF
  | none => 0xFFFFFFFF

/-- A word with its fields written becomes what the register holds, and whether a value was clamped, there or in a
field before: reserved bits are ignored, and values that other fields or registers make illegal are clamped, the
value written last too (R7, R8). -/
def State.settled (s : State) (a : Nat) (r : Word × Bool) : Word × Bool :=
  let w := r.1 &&& listedBits a
  let v := s.crossClamp a w
  (v, r.2 || (v != w && !negZero w v))

/-- The word a write leaves in a register, and whether a value was clamped. -/
def State.written (s : State) (m : Master) (a : Nat) (d : RegDesc) (w mask : Word) : Word × Bool :=
  s.settled a (d.written m s.locked (s.reg a) w mask)

end Sys2Proof.Machine
end

