-- ==== Sys2Proof/Machine/MemMap.lean ====
section
/-! DEFINITION. The host memory map (R478, Table HIC-1). -/

set_option Elab.async false

namespace Sys2Proof.Machine

def within (a lo n : Nat) : Bool := decide (lo ≤ a) && decide (a < lo + n)

def romSize : Nat := 0x10000
def uncachedBase : Nat := 0x18000000
def viewBase : Nat := 0x20040000
def viewSize : Nat := 0x10000
def ledgerSize : Nat := 0x80000
def blocksSize : Nat := 0x160000
def flashBase : Nat := 0x60000000
def flashSize : Nat := 0x10000000

def inRom (a : Nat) : Bool := decide (a < romSize)
def inCached (a : Nat) : Bool := within a sramBase sramSize
def inUncached (a : Nat) : Bool := within a uncachedBase sramSize
def inEngineMem (a : Nat) : Bool := within a recipeBase recipeSize || within a tableBase tableSize
def inView (a : Nat) : Bool := within a viewBase viewSize
def inLedger (a : Nat) : Bool := within a ledgerBase ledgerSize
def inBlocks (a : Nat) : Bool := within a blockBase blocksSize
def inFlash (a : Nat) : Bool := within a flashBase flashSize

/-- A word of the boot ROM. -/
def romWord (a : Nat) : Word :=
  Config.bootRom (a + 3) ++ Config.bootRom (a + 2) ++ Config.bootRom (a + 1) ++ Config.bootRom a

/-- The stall state view (R132): the words as pass A last committed them. -/
def State.stallView (s : State) (a : Nat) : Word :=
  let o := a - viewBase
  s.held 0 (o / 0x200) (o % 0x200 / 4)

/-- The word at an aligned address outside the flash windows, none where nothing is readable. -/
def State.mapWord (s : State) (a : Nat) : Option Word :=
  if inRom a then some (romWord a)
  else if inCached a then some (s.word a)
  else if inUncached a then some (s.sram (a - uncachedBase))
  else if inEngineMem a || inLedger a then some (s.word a)
  else if inView a then some (s.stallView a)
  else if inBlocks a then some (s.view a)
  else none

end Sys2Proof.Machine
end

