-- ==== Sys2Proof/Machine/Chk.lean ====
section
/-! DEFINITION. Check-value units and the memory scan (R499 to R508). -/

set_option Elab.async false

namespace Sys2Proof.Machine

/-! ### Configurable units (R501) -/

/-- Bytes into a running register of an algorithm, held as it is read out. -/
def chkFeed (a : Crc.Alg) (r : Word) (bs : List Byte) : Word :=
  BitVec.ofNat 32 (if a.reflected then Crc.reverseBits a.width (Crc.feed a (Crc.reverseBits a.width r.toNat) bs)
    else Crc.feed a r.toNat bs)

/-- ALG has been written: SEED takes the initial value of the algorithm, and the running register with it. -/
def State.chkAlgWritten (s : State) (n : Nat) : State :=
  let w := BitVec.ofNat 32 (s.chkAlg n).init
  (s.setReg (Reg.CHK_Un_SEED n) w).setChkRun n w

/-- SEED has been written: it loads the running register; bits above the width are ignored. -/
def State.chkSeedWritten (s : State) (n : Nat) : State :=
  s.setChkRun n (BitVec.ofNat 32 ((s.reg (Reg.CHK_Un_SEED n)).toNat % 2 ^ (s.chkAlg n).width))

def State.chkData (s : State) (n : Nat) (bs : List Byte) : State :=
  s.setChkRun n (chkFeed (s.chkAlg n) (s.chkRun n) bs)

/-! ### Scan targets (Table CHK-3) -/

/-- A target of the scan. -/
inductive Target where
  | range
  | descriptor (stall : Nat)
  | recipe (stall : Nat)
  | schedule
  | table (k : Nat)
  | fluxMap (m : Nat)
  | image
  deriving DecidableEq, Repr

def State.scan (s : State) (n : Nat) : ScanSlot := tabGet {} s.chk.scans n
def State.setScan (s : State) (n : Nat) (x : ScanSlot) : State :=
  { s with chk.scans := tabSet {} s.chk.scans n x }
def State.scanCfg (s : State) (n : Nat) (f : Bits) : Nat := s.fld (Reg.CHK_SCs_CFG n) f
def State.scanKind (s : State) (n : Nat) : Nat := s.scanCfg n Fld.CHK_SCs_CFG.KIND
def State.scanRuns (s : State) (n : Nat) : Bool := s.on (Reg.CHK_SCs_STAT n) Fld.CHK_SCs_STAT.RUN
def State.scanPeriod (s : State) (n : Nat) : Nat := s.scanCfg n Fld.CHK_SCs_CFG.PERIOD
def State.scanBase (s : State) (n : Nat) : Nat := s.fld (Reg.CHK_SCs_BASE n) Fld.CHK_SCs_BASE.BASE * 4
def State.scanLen (s : State) (n : Nat) : Nat := s.fld (Reg.CHK_SCs_LEN n) Fld.CHK_SCs_LEN.LEN

def State.wghEnabled (s : State) (m : Nat) : Bool := s.on (Reg.WGH_MCm_CFG m) Fld.WGH_MCm_CFG.EN

/-- The targets of a slot, in order. -/
def State.targets (s : State) (n : Nat) : List Target :=
  match s.scanKind n with
  | 0 => [.range]
  | 1 => (s.runningStalls.flatMap fun k => [Target.descriptor k, Target.recipe k]) ++ [.schedule]
  | 2 => ((List.range 32).filter fun k => (s.dir k).kind != 3).map .table
  | 3 => ((List.range 2).filter s.wghEnabled).map .fluxMap
  | _ => if s.sealed && s.image.isSome then [.image] else []

/-- Words of table data that a directory entry describes. -/
def Dir.words (d : Dir) : Nat := d.nx * d.ny * d.outw

/-- The memory a target covers, as (address, length in bytes). -/
def State.targetRanges (s : State) (n : Nat) : Target → List (Nat × Nat)
  | .range => [(s.scanBase n, 4 * s.scanLen n)]
  | .descriptor k => [(descAddr k, 0x20)]
  | .recipe k => [(s.recipeAddr k, 8 * (s.recipeLen k + 1))]
  | .schedule => [(schedAddr s.activeSched, 16 + 4 * s.schedLen s.activeSched)]
  | .table k => [(dirAddr k, 0x20), (tableBase + 4 * (s.dir k).base, 4 * (s.dir k).words)]
  | .fluxMap m =>
      let f := s.wghMap m
      [(Reg.WGH_MAPm_Di m 0, 0x20), (blockBase + 0x10000 * UnitCode.wgh + 0x1000 + 8 * f.base, 8 * f.points)]
  | .image => []

/-- The word a scan of KIND 0 reads; `seen` gives the words of the flash as they are read. -/
def State.scanWord (s : State) (seen : List (Nat × Word)) (a : Nat) : Option Word :=
  if inFlash a then some (((seen.find? fun e => e.1 == a).map (·.2)).getD (Config.freeWord a))
  else s.mapWord a

/-- The words of a range up to the first that is not readable: the words, and the offset of that one. -/
def State.scanWords (s : State) (seen : List (Nat × Word)) (n : Nat) : List Word × Option Nat :=
  let ws := (List.range (s.scanLen n)).map fun i => s.scanWord seen (s.scanBase n + 4 * i)
  match ws.findIdx? Option.isNone with
  | some i => ((ws.take i).filterMap id, some i)
  | none => (ws.filterMap id, none)

/-- CRC-32C of words with the slot's SEED as initial value. -/
def State.rangeCheck (s : State) (n : Nat) (ws : List Word) : Word :=
  foldC (s.reg (Reg.CHK_SCs_SEED n)) (bytesOfWords ws) ^^^ 0xFFFFFFFF

/-- A target agrees with its stored check. -/
def State.targetOk (s : State) (n : Nat) (seen : List (Nat × Word)) : Target → Bool
  | .range => s.rangeCheck n (s.scanWords seen n).1 == s.reg (Reg.CHK_SCs_EXP n)
  | .descriptor k => s.descOk k
  | .recipe k => s.recipeOk k
  | .schedule => s.schedOk s.activeSched
  | .table k =>
      s.word (dirAddr k + 28) == Crc.checkC (s.bytes (tableBase + 4 * (s.dir k).base) (4 * (s.dir k).words))
  | .fluxMap m => Crc.checkC (bytesOfWords (s.mapWords (s.wghMap m))) == s.reg (Reg.WGH_MAPm_Di m 7)
  | .image => (s.image.map fun i => i.sealWord == i.sealCrc).getD true

/-! ### Outcome of a mismatch (R506, Table CHK-4) -/

/-- Cause of source 23 by target. -/
def scanTag (n : Nat) : Target → Nat
  | .range => causeTag 0xE00 n
  | .descriptor k => causeTag 0xE00 (0x100 + k)
  | .recipe k => causeTag 0xE00 (0x200 + k)
  | .schedule => causeTag 0xE00 0x300
  | .table k => causeTag 0xE00 (0x400 + k)
  | .fluxMap m => causeTag 0xE00 (0x500 + m)
  | .image => causeTag 0xE00 0x600

/-- UNITS of a slot: bits 0 to 2 and bits 3 and 4. -/
def State.scanUnits (s : State) (n : Nat) : Nat :=
  s.scanCfg n Fld.CHK_SCs_CFG.UNITSL + 8 * s.scanCfg n Fld.CHK_SCs_CFG.UNITSH

/-- Units with a pair bound to a slot of the stalls. -/
def State.stallUnits (s : State) (ks : List Nat) : Nat := s.boundUnits fun a => ks.contains (slotOwner a)

/-- Units that source 23 acts on. -/
def State.targetUnits (s : State) (n : Nat) : Target → Nat
  | .range => s.scanUnits n
  | .descriptor k | .recipe k => s.stallUnits [k]
  | .schedule => s.stallUnits s.runningStalls
  | .table k => s.stallUnits (s.runningStalls.filter fun st => (s.tablesOf st).contains k)
  | .fluxMap _ => 0
  | .image => 0x1F

def State.targetClass (s : State) (n : Nat) : Target → Nat
  | .range => s.scanCfg n Fld.CHK_SCs_CFG.CLASS
  | .fluxMap _ => 2
  | _ => 3

/-- SCAN_MISMATCH and what follows from it: `kind` as reported, `index` of the target or the word. -/
def State.mismatch (s : State) (n kind index : Nat) (t : Target) : State :=
  let s := s.count (Reg.CHK_SCs_STAT n) Fld.CHK_SCs_STAT.MISM
  let cls := s.targetClass n t
  let e : Ev := ⟨UnitCode.chk, 0xE00, cls, n, detailOf [(0, n), (4, kind), (8, index)]⟩
  let s := if cls = 3 then s.f3 e (scanTag n t) (s.targetUnits n t) else s.event e
  match t with
  | .fluxMap m => s.wghStuck m 2
  | .image => { s with chk.imageBad := true }.setFld Reg.SYS_RESTORE Fld.SYS_RESTORE.IMGOK 0
  | _ => s

/-! ### Running a slot (R504, R505) -/

/-- A slot starts from its first target; `report` if SCAN_DONE is due at the end of the pass. -/
def State.scanStart (s : State) (n : Nat) (report : Bool) : State :=
  (s.setFld (Reg.CHK_SCs_STAT n) Fld.CHK_SCs_STAT.RUN 1).setScan n
    { target := 0, report, spoiled := false, startAt := s.now }

/-- A pass ends. -/
def State.passEnds (s : State) (n : Nat) : State :=
  let x := s.scan n
  let s := (s.setFld (Reg.CHK_SCs_STAT n) Fld.CHK_SCs_STAT.RUN 0).count (Reg.CHK_SCs_STAT n) Fld.CHK_SCs_STAT.PASSES
  if x.report then
    s.event ⟨UnitCode.chk, 0xE01, 0, n,
      detailOf [(0, n), (8, s.fld (Reg.CHK_SCs_STAT n) Fld.CHK_SCs_STAT.PASSES)]⟩
  else s

/-- After a target: the next one, or the end of the pass. -/
def State.nextTarget (s : State) (n : Nat) : State :=
  let x := s.scan n
  let s := s.setScan n { x with target := x.target + 1 }
  if (s.targets n).length ≤ x.target + 1 then s.passEnds n else s

/-- A range whose next word is not readable stops the slot. -/
def State.rangeStops (s : State) (n off : Nat) : State :=
  (s.mismatch n 5 off .range).setFld (Reg.CHK_SCs_STAT n) Fld.CHK_SCs_STAT.RUN 0

/-- Judge the target under way. -/
def State.judgeTarget (s : State) (n : Nat) (seen : List (Nat × Word)) (t : Target) : State :=
  let i := (s.scan n).target
  match t, (s.scanWords seen n).2 with
  | .range, some off => s.rangeStops n off
  | .range, none =>
      let s := s.setReg (Reg.CHK_SCs_RES n) (s.rangeCheck n (s.scanWords seen n).1)
      (if s.targetOk n seen .range then s.endCause (16 + 23) (scanTag n .range)
        else s.mismatch n 0 0 .range).nextTarget n
  | _, _ =>
      (if s.targetOk n seen t then s.endCause (16 + 23) (scanTag n t)
        else s.mismatch n (s.scanKind n) i t).nextTarget n

/-- The inverse flux map of the weigh-house: its words and its directory registers. -/
def inFluxMap (a : Nat) : Bool :=
  unitOf a == UnitCode.wgh && decide (blockBase ≤ a) &&
  ((decide (0x200 ≤ offsetOf a) && decide (offsetOf a < 0x240)) ||
   (decide (0x1000 ≤ offsetOf a) && decide (offsetOf a < 0xA000)))

/-- Bits of memory that an uncorrectable error has flipped: in the image for a target of KIND 4, else in the
live words of host SRAM, recipe, table and ledger memory and of the flux map. -/
def State.flipWord (s : State) (t : Option Target) (f : Nat × Word) : State :=
  let a := if inUncached f.1 then sramBase + (f.1 - uncachedBase) else f.1
  if t = some .image then
    (if inBlocks f.1 then
      { s with image := s.image.map fun i => { i with regs := Store.set regDefault i.regs f.1 (i.reg f.1 ^^^ f.2) } }
    else
      let bs := bytesOfWord f.2
      { s with image := s.image.map fun i => { i with mem := (List.range 4).foldl (fun m k =>
          Store.set memDefault m (f.1 + k) (Store.get memDefault m (f.1 + k) ^^^ bs.getD k 0)) i.mem } })
  else if inFluxMap f.1 then s.setReg f.1 (s.reg f.1 ^^^ f.2)
  else if inCached a || inEngineMem a || inLedger a then s.setWord a (s.word a ^^^ f.2)
  else s

/-- The scan finishes its target.  `flips` are bits that have changed in its memory since it was last written;
`seen` the words read from flash. -/
def execScanTargetDone (slot : Fin 8) (flips seen : List (Nat × Word)) (s : State) :
    Host.Outcome State Fault Refusal :=
  let x := s.scan slot
  if !s.scanRuns slot || x.spoiled then .next s
  else
    let t := (s.targets slot)[x.target]?
    let s := flips.foldl (fun s f => s.flipWord t f) s
    match t with
    | some t => .next (s.judgeTarget slot seen t)
    | none => .next (s.passEnds slot)

/-- PERIOD ms after its last start. -/
def execScanPeriodStart (slot : Fin 8) (s : State) : Host.Outcome State Fault Refusal :=
  if s.scanPeriod slot = 0 ∨ s.scanCfg slot Fld.CHK_SCs_CFG.EN = 0 then .next s
  else
    let s := s.at ((s.scan slot).startAt + s.scanPeriod slot * esPerMs)
    .next (s.scanStart slot false)

/-- A range of memory has been written: a target under way that it touches is abandoned (R505). -/
def State.scanSpoil (s : State) (a len : Nat) : State :=
  (List.range 8).foldl (fun s n =>
    let x := s.scan n
    match (s.targets n)[x.target]? with
    | some t =>
        if s.scanRuns n && (s.targetRanges n t).any fun r => overlaps a len r.1 r.2 then
          s.setScan n { x with spoiled := true }
        else s
    | none => s) s

/-- An image capture abandons a target of KIND 4. -/
def State.scanSpoilImage (s : State) : State :=
  (List.range 8).foldl (fun s n =>
    if s.scanRuns n && s.scanKind n == 4 then s.setScan n { s.scan n with spoiled := true } else s) s

/-- The targets, with a slot that reads them, whose mismatch acts through source 23 and a TABLE_LOAD may rewrite. -/
def loadTargets : List (Nat × Target) :=
  (List.range 8).map (fun n => (n, Target.range)) ++
  ((List.range 128).flatMap fun k => [(0, Target.descriptor k), (0, Target.recipe k)]) ++ [(0, .schedule)] ++
  (List.range 32).map fun k => (0, .table k)

/-- A TABLE_LOAD has rewritten a range: source 23 is inactive for the targets in it (R506). -/
def State.scanLoaded (s : State) (a len : Nat) : State :=
  let s := loadTargets.foldl (fun s t =>
    if s.causeActive (16 + 23) (scanTag t.1 t.2) &&
        (s.targetRanges t.1 t.2).any (fun r => overlaps a len r.1 r.2) then
      s.endCause (16 + 23) (scanTag t.1 t.2)
    else s) s
  s.scanSpoil a len

/-- A tick boundary: abandoned targets are read again from their start. -/
def State.scanBoundary (s : State) : State :=
  (List.range 8).foldl (fun s n =>
    if (s.scan n).spoiled then s.setScan n { s.scan n with spoiled := false } else s) s

end Sys2Proof.Machine
end

