-- ==== Sys2Proof/Machine/Crypto.lean ====
section
/-! DEFINITION. SHA-256 and the verification of ECDSA over P-256, which life-cycle tokens and boot headers
use (R490, R526); both are the published standards (FIPS 180-4, FIPS 186). -/

set_option Elab.async false

namespace Sys2Proof.Crypto

/-! ### SHA-256

Its constants are the first 32 bits of the fractions of roots: of the cube roots of the first 64 primes for the
rounds, of the square roots of the first eight for the initial value. -/

/-- The first 64 primes. -/
def primes : List Nat :=
  (List.range 312).filter fun n => decide (2 ≤ n) && ((List.range n).drop 2).all fun d => n % d != 0

/-- The whole `k`-th root of `n`, found bit by bit from bit `i - 1` down, above what `r` already has. -/
def rootBelow (k n : Nat) : Nat → Nat → Nat
  | 0, r => r
  | i + 1, r => rootBelow k n i (if (r + 2 ^ i) ^ k ≤ n then r + 2 ^ i else r)

/-- 32 bits of the fraction of the `k`-th root of `p`. -/
def rootFraction (k p : Nat) : Word := BitVec.ofNat 32 (rootBelow k (p * 2 ^ (32 * k)) 37 0)

def roundWords : List Word := primes.map (rootFraction 3)
def startValue : List Word := (primes.take 8).map (rootFraction 2)

/-- A big-endian number of any length, and a number as `n` such bytes. -/
def numberOf (bs : List Byte) : Nat := bs.foldl (fun n b => 256 * n + b.toNat) 0
def octets : Nat → Nat → List Byte
  | 0, _ => []
  | n + 1, v => octets n (v / 256) ++ [BitVec.ofNat 8 v]

/-- Exclusive or of a word turned right by each of some amounts, and of one shifted right by `sh`, if any. -/
def spread (turns : List Nat) (sh : Option Nat) (x : Word) : Word :=
  turns.foldl (fun y r => y ^^^ x.rotateRight r) ((sh.map (x >>> ·)).getD 0)

/-- Word `t` of a schedule from those before it, oldest first. -/
def nextWord (t : Nat) (ws : List Word) : Word :=
  [spread [17, 19] (some 10) (ws.getD (t - 2) 0), ws.getD (t - 7) 0,
   spread [7, 18] (some 3) (ws.getD (t - 15) 0)].foldl (· + ·) (ws.getD (t - 16) 0)

/-- The 64 words of a block. -/
def expand (bs : List Byte) : List Word :=
  let first := (List.range 16).map fun i => BitVec.ofNat 32 (numberOf ((bs.drop (4 * i)).take 4))
  (List.range 48).foldl (fun ws i => ws ++ [nextWord (i + 16) ws]) first

/-- A round with the sum of its constant and its word: everything moves one place, the fourth value takes one half of
the new sum on its way and the first is the whole of it. -/
def turnOnce (v : List Word) (kw : Word) : List Word :=
  let at' := fun i => v.getD i 0
  let pick := at' 6 ^^^ (at' 4 &&& (at' 5 ^^^ at' 6))
  let most := (at' 0 &&& at' 1) ||| (at' 2 &&& (at' 0 ||| at' 1))
  let low := kw + at' 7 + pick + spread [6, 11, 25] none (at' 4)
  (low + most + spread [2, 13, 22] none (at' 0)) :: v.take 3 ++ (at' 3 + low) :: (v.drop 4).take 3

/-- A block of 64 bytes taken into a value. -/
def absorb (h : List Word) (bs : List Byte) : List Word :=
  List.zipWith (· + ·) h ((List.zipWith (· + ·) roundWords (expand bs)).foldl turnOnce h)

/-- Up to `n` whole blocks of a message. -/
def absorbAll : Nat → List Word → List Byte → List Word
  | 0, h, _ => h
  | n + 1, h, bs => absorbAll n (absorb h (bs.take 64)) (bs.drop 64)

/-- SHA-256 as 32 bytes: a 1 bit, zeros and the length in bits fill the message up to whole blocks. -/
def sha256 (bs : List Byte) : List Byte :=
  let zeros := 63 - (bs.length + 8) % 64
  let full := bs ++ 0x80 :: List.replicate zeros 0 ++ octets 8 (8 * bs.length)
  (absorbAll (full.length / 64) startValue full).flatMap fun w => octets 4 w.toNat

/-! ### P-256 -/

def p256 : Nat := 0xffffffff00000001000000000000000000000000ffffffffffffffffffffffff
def order : Nat := 0xffffffff00000000ffffffffffffffffbce6faada7179e84f3b9cac2fc632551
def curveB : Nat := 0x5ac635d8aa3a93e7b3ebbd55769886bc651d06b0cc53b0f63bce3c3e27d2604b
def baseX : Nat := 0x6b17d1f2e12c4247f8bce6e563a440f277037d812deb33a0f4a13945d898c296
def baseY : Nat := 0x4fe342e2fe1a7f9b8ee7eb4a7c0f9e162bce33576b315ececbb6406837bf51f5

/-- Power modulo `m`, over the low `k` bits of the exponent. -/
def powMod (m b : Nat) : Nat → Nat → Nat
  | 0, _ => 1 % m
  | k + 1, e =>
      let r := powMod m (b * b % m) k (e / 2)
      if e % 2 = 1 then r * b % m else r

/-- Inverse modulo a prime. -/
def invMod (m a : Nat) : Nat := powMod m (a % m) 256 (m - 2)

/-- A point, none at infinity. -/
abbrev Point := Option (Nat × Nat)

def onCurve (x y : Nat) : Bool :=
  decide (x < p256) && decide (y < p256) &&
  y * y % p256 == (x * x * x + (p256 - 3) * x + curveB) % p256

/-- The chord or tangent of slope `l` through a point. -/
def third (l x1 y1 x2 : Nat) : Point :=
  let x3 := (l * l + 2 * p256 - x1 - x2) % p256
  some (x3, (l * (p256 + x1 - x3) + p256 - y1) % p256)

def add : Point → Point → Point
  | none, q => q
  | p, none => p
  | some (x1, y1), some (x2, y2) =>
      if x1 = x2 then
        if (y1 + y2) % p256 = 0 then none
        else third ((3 * x1 * x1 + p256 - 3) * invMod p256 (2 * y1) % p256) x1 y1 x2
      else third ((p256 + y2 - y1) * invMod p256 (p256 + x2 - x1) % p256) x1 y1 x2

/-- Multiple of a point, over the low `k` bits of the factor. -/
def mul (q : Point) : Nat → Nat → Point
  | 0, _ => none
  | k + 1, e =>
      let r := mul (add q q) k (e / 2)
      if e % 2 = 1 then add r q else r

/-- ECDSA P-256 over SHA-256: public key and signature as big-endian bytes of 32 each. -/
def verify (qx qy r s : Nat) (message : List Byte) : Bool :=
  let z := numberOf (sha256 message)
  let w := invMod order s
  let ok := fun v => decide (1 ≤ v) && decide (v < order)
  ok r && ok s && onCurve qx qy &&
  (match add (mul (some (baseX, baseY)) 256 (z * w % order)) (mul (some (qx, qy)) 256 (r * w % order)) with
   | some (x, _) => x % order == r
   | none => false)

/-- Verify with key and signature as the 64 bytes each occupies. -/
def verifyBytes (key sig message : List Byte) : Bool :=
  let half := fun (bs : List Byte) (i : Nat) => numberOf ((bs.drop (32 * i)).take 32)
  verify (half key 0) (half key 1) (half sig 0) (half sig 1) message

end Sys2Proof.Crypto
end

