-- ==== Sys2Proof/Machine/Boot.lean ====
section
/-! DEFINITION. The end of the memory march and the boot ROM (R490, R491, R523, R551). -/

set_option Elab.async false

namespace Sys2Proof.Machine

/-! ### Repair mappings (R523) -/

abbrev spareRows : Nat := 4

/-- Rows mapped in a macro. -/
def State.mappedIn (s : State) (unit mac : Nat) : Nat :=
  s.bst.mapped.countP fun r => r.1 == unit && r.2.1 == mac

/-- BST_REPAIR from the rows mapped. -/
def State.showRepair (s : State) : State :=
  let macros := (s.bst.mapped.map fun r => (r.1, r.2.1)).eraseDups
  let full := macros.countP fun m => decide (spareRows ≤ s.mappedIn m.1 m.2)
  (s.setFld Reg.BST_REPAIR Fld.BST_REPAIR.USED s.bst.mapped.length).setFld Reg.BST_REPAIR Fld.BST_REPAIR.FULL full

/-- Map a row to a spare row of its macro, if one is left. -/
def State.mapSpareRow (s : State) (r : Nat × Nat × Nat) : State :=
  if spareRows ≤ s.mappedIn r.1 r.2.1 then s else { s with bst.mapped := s.bst.mapped ++ [r] }

/-- SRAM_REPAIR. -/
def State.postRepair (s : State) (cls : Nat) (r : Nat × Nat × Nat) : State :=
  s.event ⟨UnitCode.bst, 0xF07, cls, r.1, detailOf [(0, r.1), (8, r.2.1), (16, r.2.2)]⟩

/-- The march rebuilds the mappings; their events wait for the event ring. -/
def State.rebuildRepairs (s : State) (failing : List MemRow) : State :=
  let s := failing.foldl (fun s r => s.mapSpareRow (r.unit.val, r.mac.val, r.row.val)) { s with bst.mapped := [] }
  { s with bst.toPost := s.bst.mapped }.showRepair

/-! ### Headers (R490) -/

def slice (bs : List Byte) (off n : Nat) : List Byte := (bs.drop off).take n
/-- A little-endian word of a header. -/
def hdrWord (h : List Byte) (off : Nat) : Word :=
  h.getD (off + 3) 0 ++ h.getD (off + 2) 0 ++ h.getD (off + 1) 0 ++ h.getD off 0
def hdr (h : List Byte) (off : Nat) : Nat := (hdrWord h off).toNat

def hdrSeq (h : List Byte) : Nat := hdr h 0x08
def hdrOfs (h : List Byte) : Nat := hdr h 0x10
def hdrEntry (h : List Byte) : Nat := hdr h 0x14
def hdrLen (h : List Byte) : Nat := hdr h 0x18
def hdrKey (h : List Byte) : Nat := (⟨8, 2⟩ : Bits).of (hdrWord h 0x24)

/-- LEN and LOADOFS are legal, and ENTRY lies in the loaded range, in either alias. -/
def hdrPlaced (h : List Byte) : Bool :=
  let len := hdrLen h
  let ofs := hdrOfs h
  decide (len % 64 = 0) && decide (64 ≤ len) && decide (len ≤ 4190208) && decide (ofs + len ≤ 0x3FF000) &&
  (within (hdrEntry h) (sramBase + ofs) len || within (hdrEntry h) (uncachedBase + ofs) len)

/-- The key of a header is programmed and not revoked. -/
def State.keyOk (s : State) (h : List Byte) : Bool :=
  match s.hic.bootKeys[hdrKey h]? with
  | some k => k.hash == Crypto.sha256 (slice h 0x60 64) && !k.revoked
  | none => false

/-- The slot and its SEQ are the rejected pair held in SYS_BOOTREJ. -/
def State.bootRejected (s : State) (slot : Nat) (h : List Byte) : Bool :=
  s.fld Reg.SYS_BOOTREJ Fld.SYS_BOOTREJ.SLOT == slot &&
  s.fld Reg.SYS_BOOTREJ Fld.SYS_BOOTREJ.SEQ == hdrSeq h % 2 ^ 16

/-- A header is valid. -/
def State.headerOk (s : State) (slot : Nat) (f : FlashSlot) : Bool :=
  let h := f.header
  hdrWord h 0 == 0x4F4D4231 && hdrWord h 4 == 1 && hdrWord h 0xFC == Crc.checkC (slice h 0 0xFC) &&
  hdrPlaced h && s.keyOk h && decide (s.hic.fusedSvn ≤ hdr h 0x0C) &&
  Crypto.verifyBytes (slice h 0x60 64) (slice h 0xA0 64) (slice h 0 0xA0) && !s.bootRejected slot h

def bodyOk (f : FlashSlot) : Bool :=
  Crypto.sha256 (f.body.take (hdrLen f.header)) == slice f.header 0x40 32

/-! ### The boot ROM (R491) -/

def State.setBootCode (s : State) (code : Nat) : State := s.setFld Reg.SYS_BOOTSTAT Fld.SYS_BOOTSTAT.CODE code

/-- The ROM stops with core 0 in WFI. -/
def State.bootStops (s : State) (code : Nat) : State :=
  { s.setBootCode code with hic.core0 := 2 }

/-- The valid slot of the higher SEQ, slot A on a tie. -/
def candidate (slots : List FlashSlot) (valid : List Nat) : Option Nat :=
  let seq := fun i => hdrSeq ((slots[i]?.map (·.header)).getD [])
  match valid with
  | [] => none
  | [a] => some a
  | a :: b :: _ => some (if seq a < seq b then b else a)

/-- Step 3: the slot chosen among the valid ones, after the rejection of one that has been tried three times. -/
def State.chooseSlot (s : State) (slots : List FlashSlot) (valid : List Nat) : State × Option Nat :=
  match candidate slots valid with
  | none => (s, none)
  | some c =>
      if s.fld Reg.SYS_BOOTSTAT Fld.SYS_BOOTSTAT.TRY = 3 ∧ s.fld Reg.SYS_BOOTSTAT Fld.SYS_BOOTSTAT.SLOT = c then
        let seq := hdrSeq ((slots[c]?.map (·.header)).getD [])
        let s := ((s.setFld Reg.SYS_BOOTREJ Fld.SYS_BOOTREJ.SLOT c).setFld Reg.SYS_BOOTREJ
          Fld.SYS_BOOTREJ.SEQ seq).setBootCode 1
        (s, candidate slots (valid.filter (· != c)))
      else (s, some c)

/-- Step 4: the xSPI controller as the ROM leaves it. -/
def State.bootXsp (s : State) (h : List Byte) (same8d : Bool) : State :=
  let x := hdrWord h 0x1C
  let w : Word := if bitAt x 0 && same8d then
      detailOf [(0, 1), (4, (⟨4, 4⟩ : Bits).of x), (8, (⟨8, 5⟩ : Bits).of x), (16, (⟨16, 8⟩ : Bits).of x)]
    else detailOf [(4, 7), (16, 0x13)]
  s.setReg Reg.XSP_CFG w

/-- Step 7: the range of the running slot, and what DEPLOYED adds. -/
def State.bootProtect (s : State) (slot : Nat) : State :=
  let s := s.setReg Reg.XSP_PROT (detailOf [(0, 0x4000 * slot), (16, 0x4000 * slot + 0x3FFF)])
  if s.lcs = 1 then
    let s := s.setReg (Reg.HIC_WDw_WIN 0) (detailOf [(0, 0), (16, 1000)])
    let s := s.setReg (Reg.HIC_WDw_CFG 0) (detailOf [(0, 1), (8, 0), (16, 10)])
    { s with hic.romLocked := true }.wdRestart 0
  else s

/-- Step 8: status and hand-over. -/
def State.bootJump (s : State) (slot : Nat) (h : List Byte) : State :=
  let try_ := if s.fld Reg.SYS_BOOTSTAT Fld.SYS_BOOTSTAT.SLOT = slot then
      min 3 (s.fld Reg.SYS_BOOTSTAT Fld.SYS_BOOTSTAT.TRY + 1) else 1
  let s := (s.setFld Reg.SYS_BOOTSTAT Fld.SYS_BOOTSTAT.SLOT slot).setFld Reg.SYS_BOOTSTAT
    Fld.SYS_BOOTSTAT.TRY try_
  { s with hic.core0 := 1, hic.svn := hdr h 0x0C,
           hic.started := some ⟨BitVec.ofNat 32 (hdrEntry h), BitVec.ofNat 32 slot, s.reg Reg.SYS_BOOTSTAT⟩ }

/-- Steps 3 to 8 over the slots still valid; each failing body leaves one slot fewer. -/
def State.bootFrom (slots : List FlashSlot) (same8d : Bool) : Nat → State → List Nat → State
  | 0, s, _ => s.bootStops 2
  | n + 1, s, valid =>
      match s.chooseSlot slots valid with
      | (s, none) => s.bootStops 2
      | (s, some c) => match slots[c]? with
        | none => s.bootStops 2
        | some f =>
            let s := (s.bootXsp f.header same8d).setBytes (sramBase + hdrOfs f.header)
              (f.body.take (hdrLen f.header))
            if bodyOk f then
              let s := if s.fld Reg.SYS_DEVID Fld.SYS_DEVID.FIELD_REV = 0xF then s.setBootCode 4 else s
              (s.bootProtect c).bootJump c f.header
            else State.bootFrom slots same8d n s (valid.filter (· != c))

/-- The boot ROM, from core 0's reset. -/
def State.boot (s : State) (slots : List FlashSlot) (same8d : Bool) : State :=
  let s := { s.setBootCode 0 with hic.core0 := 1 }
  if s.lcs = 3 then s.bootStops 3
  else s.bootFrom slots same8d 3 ((List.range 2).filter fun i => (slots[i]?.map (s.headerOk i)).getD false)

/-- The march ends: `failing` are the rows it found; the boot ROM then runs on the flash `slots` as they read,
`same8d` if the header reads the same in 8D mode. -/
def execMarchDone (failing : List MemRow) (slots : List FlashSlot) (same8d : Bool) (s : State) :
    Host.Outcome State Fault Refusal :=
  if !s.pwr.march then .next s
  else .next (({ s with pwr.march := false }.rebuildRepairs failing).boot slots same8d)

end Sys2Proof.Machine
end

