-- ==== Sys2Proof/Machine/Bst.lean ====
section
/-! DEFINITION. In-service self-test: tests, shadowing, rotation, quarantine and return, requests, comparator
tests and the repair of memory rows (R509 to R524, R529). -/

set_option Elab.async false

namespace Sys2Proof.Machine

/-! ### Stand-ins -/

/-- Class, or group, and number of a unit within it. -/
def sarGroup (c : Nat) : Nat := c / 4
def sarCore (c : Nat) : Nat := c % 4
def engClass (c : Nat) : Nat := (c - 0x24) / 2

/-- The spare that serves in place of a unit at home in an instance. -/
def State.standIn (s : State) (c : Nat) : Option Nat :=
  if homeSpare c then none
  else match classOf c with
    | .sar => if s.spState (sarGroup c) = spStanding ∧ s.spCore (sarGroup c) = sarCore c then
        some (4 * sarGroup c + 3) else none
    | .generator => if 16 ≤ s.genOf (c - 0x10) then some (genUnit (s.genOf (c - 0x10))) else none
    | .engine => if hasBit (s.fld Reg.ENG_STAT Fld.ENG_STAT.SPARE) (engClass c) then some (c + 1) else none
    | .can => if s.canSpare = c - 0x30 then some canSpareUnit else none
    | _ => none

/-- What the registers of a class show once a spare is free again, or out of service for a test. -/
def State.showSpare (s : State) (sp : Nat) (test : Bool) : State :=
  match classOf sp with
  | .sar => s.setSp (sarGroup sp) (if test then spTest else spFree)
  | .generator => s.setSpare (sp - 0x20) (if test then spareTest else spareFree)
  | .can => s.setCanSpare (if test then canTest else canFree)
  | .engine => if test then s else s.setReg Reg.ENG_STAT (setBit (s.reg Reg.ENG_STAT) (12 + engClass sp) false)
  | _ => s

/-- The registers of an instance that its own unit takes back. -/
def State.instanceHome (s : State) (c : Nat) : State :=
  match classOf c with
  | .generator => s.setFld (Reg.PAIRk_LIVE (c - 0x10)) Fld.PAIRk_LIVE.SPARE 0
  | .engine => s.setReg Reg.ENG_STAT (setBit (s.reg Reg.ENG_STAT) (8 + engClass c) false)
  | .can => s.setFld (Reg.CAN_STAT (c - 0x30)) Fld.CAN_STAT.SPARE 0
  | _ => s

/-- The spare that stood in is free, unless it has failed meanwhile. -/
def State.freeStandIn (s : State) (c : Nat) : State :=
  match s.standIn c with
  | some sp =>
      let s := (s.instanceHome c).showSpare sp false
      if s.unit sp = unitServing then s.setUnit sp unitFree else s
  | none => s

/-- What the absence of a unit left behind ends: its failure marks, and the persistence of its cause. -/
def State.clearFailure (s : State) (c : Nat) : State :=
  match classOf c with
  | .sar => (s.setCoreFail (sarGroup c) (sarCore c) false).endCause (16 + 23) (causeTag 0x501 c)
  | .generator =>
      let s := if c < 0x20 then s.endCause (16 + 12) (c - 0x10) else s
      if s.prot.causes.any (fun x => x.src == 16 + 12) then s else s.setFld Reg.PWM_STAT Fld.PWM_STAT.EXH 0
  | .can => if c = canSpareUnit then s
      else (s.f2Ends 0xB0A (c - 0x30)).setFld Reg.CAN_SPSTAT Fld.CAN_SPSTAT.EXH 0
  | .comparator =>
      let m := c - 0x38
      let s := s.setReg Reg.ACQ_CMPSUB (setBit (setBit (s.reg Reg.ACQ_CMPSUB) m false) (16 + m) false)
      s.f2Ends 0x503 m
  | _ => s

/-! ### Instances that a requested test takes out of service (R84, R86) -/

/-- The registers that an instance of a generator or a comparator loads when its own unit serves it again. -/
def State.loadInstance (s : State) (c : Nat) : State :=
  match classOf c with
  | .generator =>
      let k := c - 0x10
      if s.isSafe (s.unitOfPair k) then s else (pairRegs k).foldl (State.loadPairReg k) s
  | .comparator => (s.loadReg (Reg.PROT_CMPm_CFG (c - 0x38))).loadReg (Reg.PROT_CMPm_THR (c - 0x38))
  | _ => s

/-- A unit that a requested test took out of service serves again: it is loaded from the image. -/
def State.serveAgain (s : State) (c : Nat) : State :=
  if s.bst.out.contains c then { s with bst.out := s.bst.out.filter (· != c) }.loadInstance c else s

/-- A requested test begins on a unit that nothing stands in for. -/
def State.takeOut (s : State) (t : TestRun) : State :=
  if t.src = 1 ∧ (classOf t.code = .generator ∨ classOf t.code = .comparator) ∧ !homeSpare t.code ∧
      (s.standIn t.code).isNone ∧ !s.bst.out.contains t.code then
    { s with bst.out := t.code :: s.bst.out }
  else s

/-! ### Starting a test (R513, R516) -/

/-- Comparator `m` starts its first step that the test DAC reaches; 5 is past the last. -/
def State.cmpStep (s : State) (m : Nat) : Nat → Nat → Nat
  | 0, i => i
  | n + 1, i =>
      let thr := Reg.PROT_CMPm_THR m
      let hi : Int := s.fld thr Fld.PROT_CMPm_THR.HI
      let lo : Int := s.fld thr Fld.PROT_CMPm_THR.LO
      let hys : Int := s.fld (Reg.PROT_CMPm_CFG m) Fld.PROT_CMPm_CFG.HYS
      let code : Int := if i = 1 then 4 * hi + 8 else if i = 2 then 4 * (hi - hys) - 8
        else if i = 3 then 4 * lo - 8 else 4 * (lo + hys) + 8
      if 5 ≤ i ∨ (0 ≤ code ∧ code ≤ 4095) then i else s.cmpStep m n (i + 1)

/-- The input of a comparator is being converted (R263). -/
def State.cmpConverted (s : State) (m : Nat) : Bool :=
  s.acqRuns && decide (cmpInput s m < 12) && s.inputServed (12 * (m / 3) + cmpInput s m)

def State.setSub (s : State) (m : Nat) (b : Bool) : State :=
  s.setReg Reg.ACQ_CMPSUB (setBit (s.reg Reg.ACQ_CMPSUB) m b)

/-- A unit is isolated and its test begins, without a spare in its place or as a spare that serves nothing. -/
def State.isolate (s : State) (t : TestRun) : State :=
  let s := (s.takeOut t).beginTest t
  if homeSpare t.code then s.showSpare t.code true
  else match classOf t.code with
    | .comparator =>
        let m := t.code - 0x38
        { s.setSub m true with acq.tests := s.acq.tests ++ [⟨m, s.cmpStep m 4 1⟩] }
    | .pll =>
        let p := t.code - 0x2C
        ((s.setPll p { s.pll p with testing := true }).restartPll p).moveDomains none
    | .can => s.stopCan (t.code - 0x30)
    | _ => s

/-- A class's spare begins to shadow a serving unit. -/
def State.shadow (s : State) (h : Shadowing) : State :=
  let s := s.beginShadow h
  match classOf h.code with
  | .sar =>
      let g := sarGroup h.code
      (s.setSp g spTest).setGrp g { s.grp g with idle := false, watch := some { core := 3, live := sarCore h.code } }
  | .generator =>
      let k := if h.code < 0x20 then h.code - 0x10 else s.spareServes (h.code - 0x20)
      s.setPair k { s.pair k with swapTo := some (h.spare - 0x20), swapCause := 0, swapFails := 0,
                                  swapWatch := s.fld Reg.PWM_SPCFG Fld.PWM_SPCFG.WATCH }
  | .engine =>
      let on := s.on Reg.ENG_STAT Fld.ENG_STAT.SHADOW
      let s := { s with eng.watchFrom := if on then s.eng.watchFrom else s.tick,
                        eng.mismatched := on && s.eng.mismatched,
                        eng.watchTo := s.tick + s.fld Reg.ENG_CFG Fld.ENG_CFG.SHADOW_W }
      s.setReg Reg.ENG_STAT (setBit (s.reg Reg.ENG_STAT) (16 + engClass h.code) true)
  | .can => s.setCanSpare canShadow
  | _ => s

/-- The spare of a group makes no urgent conversion and waits to stand in for nothing. -/
def State.sarIdle (s : State) (c : Nat) : Bool :=
  classOf c != .sar || (s.spState (sarGroup c) == spFree && (s.grp (sarGroup c)).takeover.isNone)

/-- The spare that can take a serving unit's place now; none for a class whose spare is in use. -/
def State.standby (s : State) (c : Nat) : Option Nat :=
  if s.sarIdle c then s.freeSpareOf c else none

/-- A unit can be tested now without loss of its function: a free spare, a serving unit with a free spare, a
PLL whose domains the other can carry, a comparator whose input is converted. -/
def State.testable (s : State) (c : Nat) : Bool :=
  match classOf c with
  | .memory => false
  | .pll => s.unit c == unitServing && s.pllServes 0 && s.pllServes 1
  | .comparator => s.unit c == unitServing && s.cmpConverted (c - 0x38) && !s.dacBusy ((c - 0x38) / 3)
  | _ => (s.unit c == unitFree && s.sarIdle c) || (s.unit c == unitServing && (s.standby c).isSome)

/-- Start the test of a unit that `testable` allows. -/
def State.startTest (s : State) (c kind src : Nat) : State :=
  match s.unit c == unitServing, s.standby c with
  | true, some sp => s.shadow ⟨sp, c, kind, src⟩
  | _, _ => s.isolate ⟨c, kind, src, s.unit c, false⟩

/-! ### Rotation (R514, R515) -/

/-- Rotation is on. -/
def State.rotating (s : State) : Bool :=
  s.lcs == 1 || (s.lcs != 3 && s.on Reg.BST_CFG Fld.BST_CFG.ROTEN)

/-- The units the schedule includes, in ascending order. -/
def State.included (s : State) : List Nat :=
  (List.range 0x44).filter fun c => inRotation c && s.unit c != unitFailed && s.unit c != unitRetired

/-- Interval between steps, in es: whole seconds. -/
def State.interval (s : State) : Nat :=
  (s.fld Reg.BST_CFG Fld.BST_CFG.PERIOD * 3600 / max 1 s.included.length) * esPerSecond

/-- The first included unit at or above a code, wrapping after the highest. -/
def State.nextUnit (s : State) (c : Nat) : Option Nat :=
  match s.included.find? fun u => decide (c ≤ u) with
  | some u => some u
  | none => s.included.head?

def State.showPend (s : State) : State :=
  s.setFld Reg.BST_STAT Fld.BST_STAT.PEND (!s.bst.pend.isEmpty).toNat

/-- Start the pending steps in order, as far as they can start; one on a unit that has dropped out of the
schedule is gone. -/
def State.startSteps : Nat → State → State
  | 0, s => s
  | n + 1, s =>
      match s.bst.pend with
      | [] => s
      | c :: rest =>
          if s.unit c == unitFailed || s.unit c == unitRetired then State.startSteps n { s with bst.pend := rest }
          else if s.condOk && s.testable c then
            State.startSteps n ({ s with bst.pend := rest }.startTest c 3 0)
          else s

/-- ROT_OVERDUE, once for each unit. -/
def State.postOverdue (s : State) : State :=
  let limit := 2 * s.fld Reg.BST_CFG Fld.BST_CFG.PERIOD * 3600 * esPerSecond
  s.included.foldl (fun s u =>
    if s.bst.overdue.contains u || decide (s.runTime ≤ tabGet 0 s.bst.tested u + limit) then s
    else
      { s with bst.overdue := s.bst.overdue ++ [u] }.event ⟨UnitCode.bst, 0xF06,
        s.fld Reg.BST_CFG Fld.BST_CFG.OVDCLASS, u, BitVec.ofNat 32 (s.hoursSince u)⟩) s

def State.runSteps (s : State) : State := ((s.startSteps 61).postOverdue).showPend

/-- ROTATION_STEP: the next unit's step begins, at instant `t`, or becomes pending. -/
def execRotationStep (t : Nat) (s : State) : Host.Outcome State Fault Refusal :=
  let s := s.at t
  if !s.rotating || !s.inRun || decide (s.runTime < s.bst.stepAt + s.interval) then .next s
  else match s.nextUnit (s.fld Reg.BST_STAT Fld.BST_STAT.NEXT) with
    | none => .next s
    | some c =>
        let s := { s with bst.stepAt := s.bst.stepAt + s.interval, bst.pend := s.bst.pend ++ [c] }
        let s := s.setFld Reg.BST_STAT Fld.BST_STAT.NEXT ((s.nextUnit (c + 1)).getD c)
        .next s.runSteps

/-- ROTATION_RETRY: the steps pending are tried again. -/
def execRotationRetry (t : Nat) (s : State) : Host.Outcome State Fault Refusal :=
  let s := s.at t
  .next (if s.rotating && s.inRun then s.runSteps else s)

/-! ### Quarantine (R520) -/

/-- A unit enters quarantine: reset, and loaded with its configuration; a core is compared with the spare that
serves its sequence. -/
def State.quarantine (s : State) (c : Nat) : State :=
  let s := s.setUnit c unitQuarantine
  match classOf c, s.standIn c with
  | .sar, some _ =>
      s.setGrp (sarGroup c) { s.grp (sarGroup c) with watch := some { core := sarCore c, live := 3 } }
  | .can, none => if c = canSpareUnit then s else s.canReload (c - 0x30)
  | _, _ => s

def State.dropDetected (s : State) (c : Nat) : State :=
  { s with bst.detected := s.bst.detected.filter (· != c) }

/-- A unit that a comparison has failed. -/
def State.reject (s : State) (c : Nat) : State :=
  let s := ((s.dropDetected c).setFit c false).setUnit c unitFailed
  let s := if classOf c = .sar then (s.setCoreFail (sarGroup c) (sarCore c) true).setGrp (sarGroup c)
    { s.grp (sarGroup c) with watch := none } else s
  s.event ⟨UnitCode.bst, 0xF04, 0, c, 0⟩

/-- The third false death retires a unit; what stands in keeps serving. -/
def State.retire (s : State) (c : Nat) : State :=
  let s := ((s.dropDetected c).setFit c false).setUnit c unitRetired
  s.event ⟨UnitCode.bst, 0xF05, 2, c, BitVec.ofNat 32 (s.fld (Reg.BST_Uu c) Fld.BST_Uu.FD)⟩

/-- A unit returns to its instance, or to be a spare. -/
def State.readmit (s : State) (c : Nat) : State :=
  let s := ((s.dropDetected c).setFit c false).freeStandIn c
  let s := if classOf c = .sar then s.setGrp (sarGroup c) { s.grp (sarGroup c) with watch := none } else s
  let s := if homeSpare c then (s.setUnit c unitFree).showSpare c false else (s.setUnit c unitServing).serveAgain c
  (s.clearFailure c).postReadmitted c

/-- The quarantine of a false death: its count goes up. -/
def State.countDeath (s : State) (c : Nat) : State × Bool :=
  if s.bst.detected.contains c && s.bst.fit.contains c && s.lcs != 0 then
    (s.count (Reg.BST_Uu c) Fld.BST_Uu.FD, decide (2 ≤ s.fld (Reg.BST_Uu c) Fld.BST_Uu.FD))
  else (s, false)

/-- The comparison of a core is its pairs; that of any other class is told by the command. -/
def State.comparison (s : State) (c : Nat) (pass : Bool) : Option Bool :=
  match classOf c, (s.grp (sarGroup c)).watch with
  | .sar, some w =>
      if w.live = 3 ∧ w.core = sarCore c then (if s.watchFull w then some (s.watchPasses w) else none) else some pass
  | _, _ => some pass

/-- QUARANTINE_END: the watch of a unit's quarantine ends, at its class's takeover point. -/
def execQuarantineEnd (code : Fin 256) (pass : Bool) (s : State) : Host.Outcome State Fault Refusal :=
  let c := code.val
  .next (if s.unit c ≠ unitQuarantine ∨ classOf c = .pll ∨ !unitExists c then s
    else match s.comparison c pass with
      | none => s
      | some false => s.reject c
      | some true => match s.countDeath c with
        | (s, true) => s.retire c
        | (s, false) => s.readmit c)

/-! ### The end of a test (R512, R516, R521) -/

/-- The kind a test runs as: one with no part for the class runs as FULL. -/
def kindFor (c kind : Nat) : Nat :=
  let applies := match classOf c, kind with
    | .sar, 0 | .sar, 2 | .generator, 0 | .generator, 2 | .engine, 0 | .can, 0 | .can, 1 => true
    | .pll, 2 | .comparator, 2 | .memory, 1 => true
    | _, _ => false
  if applies then kind else 3

/-- Counters, hours and BIST_DONE of a test that has run to its end. -/
def State.testDone (s : State) (t : TestRun) (pass : Bool) (part : Nat) : State :=
  let s := (s.endTest t.code).count Reg.BST_CNT Fld.BST_CNT.TESTS
  let s := if pass then s else s.count Reg.BST_CNT Fld.BST_CNT.FAILS
  let s := { s with bst.tested := tabSet 0 s.bst.tested t.code s.runTime,
                    bst.overdue := s.bst.overdue.filter (· != t.code) }
  s.event ⟨UnitCode.bst, 0xF00, 0, t.code, detailOf [(0, kindFor t.code t.kind), (4, pass.toNat),
    (8, if pass then 0 else part), (12, t.src)]⟩

/-- The state a PLL's unit has by its lock state. -/
def State.pllUnitState (s : State) (p : Nat) : Nat :=
  if s.pllServes p then unitServing else if s.pllState p = pllQuarantine then unitQuarantine
  else if s.pllGone p then unitRetired else unitFailed

/-- A unit that has passed. -/
def State.testPassed (s : State) (t : TestRun) : State :=
  let c := t.code
  match classOf c with
  | .pll => s.setUnit c (s.pllUnitState (c - 0x2C))
  | .memory => s.setUnit c unitServing
  | _ =>
      if t.prior = unitFailed ∧ !t.readmit then s.setUnit c unitFailed
      else if s.fld Reg.PWR_STATE Fld.PWR_STATE.STATE = 1 then { s with bst.parked := s.bst.parked ++ [c] }
      else (s.setFit c true).quarantine c

/-- A unit that a test found faulty and whose instance no spare serves: its class's rule on a failure. -/
def State.instanceLost (s : State) (c : Nat) : State :=
  match classOf c with
  | .sar => s.failCore (sarGroup c) (sarCore c)
  | .generator => s.readbackFail (c - 0x10)
  | .engine => { s with eng.lost := withBit s.eng.lost (engClass c) }
  | .can =>
      let i := c - 0x30
      if s.canSpareClaimable then ((s.claimSpare canSpareUnit).setCanSpare i).canTakeover i false
      else s.canExhausted i
  | _ => s

/-- A unit that has failed its test. -/
def State.testFailed (s : State) (t : TestRun) : State :=
  let c := t.code
  if t.readmit then s.setUnit c unitFailed
  else
    let s := s.setUnit c unitFailed
    let s := if classOf c = .sar then s.setCoreFail (sarGroup c) (sarCore c) true
      else if classOf c = .comparator then
        s.setReg Reg.ACQ_CMPSUB (setBit (s.reg Reg.ACQ_CMPSUB) (16 + (c - 0x38)) true)
      else s
    let s := if homeSpare c then (if classOf c = .can then s.setCanSpare canFailed else s.showSpare c false)
      else if t.prior = unitServing ∧ (s.standIn c).isNone then s.instanceLost c
      else s
    (s.dropDetected c).event ⟨UnitCode.bst, 0xF02, 1, c, BitVec.ofNat 32 (kindFor c t.kind)⟩

def State.testEnds (s : State) (c : Nat) (pass : Bool) (part : Nat) : State :=
  match s.bst.tests.find? fun t => t.code == c with
  | none => s
  | some t =>
      let s := s.testDone t pass part
      if pass then s.testPassed t else s.testFailed t

/-- BIST_COMPLETE: the test of a unit ends; `part` is the part that failed.  A comparator's test ends with its
last step. -/
def execBistComplete (code : Fin 256) (pass : Bool) (part : Fin 3) (s : State) : Host.Outcome State Fault Refusal :=
  .next (if classOf code.val = .comparator then s else s.testEnds code.val pass part.val)

/-- BIST_ABORT: the conditions of R513 as they now stand; while one fails, every test is aborted. -/
def execBistAbort (cond : Fin 8) (s : State) : Host.Outcome State Fault Refusal :=
  let s := s.setReg Reg.BST_COND (BitVec.ofNat 32 cond.val)
  .next (if s.condOk then s
    else (s.bst.tests.map (·.code)).foldl (fun s c =>
      let s := s.abortTest c 0
      let s := if classOf c = .comparator then s.dacFreed ((c - 0x38) / 3) else s
      if classOf c = .pll then s.setPll (c - 0x2C) { s.pll (c - 0x2C) with testing := false }
      else s.quarantine c) s)

/-! ### Comparator tests (R262, R263) -/

/-- The test of a comparator is given up, because no conversion of its input is made: one that served is reconnected;
one that a test has failed, or that is in quarantine, stays out, and its substitute check goes on. -/
def State.cmpReconnect (s : State) (m : Nat) : State :=
  let c := 0x38 + m
  let prior := ((s.bst.tests.find? fun t => t.code == c).map (·.prior)).getD unitServing
  let s := (s.abortTest c 0).dacFreed (m / 3)
  if prior = unitServing then ((s.setUnit c unitServing).serveAgain c).setSub m false
  else if prior = unitFailed then s.setUnit c unitFailed
  else s

/-- COMPARATOR_TEST_STEP: the side under test of comparator `cmp` is sampled, active or not. -/
def execComparatorTestStep (cmp : Fin 12) (active : Bool) (s : State) : Host.Outcome State Fault Refusal :=
  let m := cmp.val
  match s.acq.tests.find? fun t => t.cmp == m with
  | none => .next s
  | some t =>
      if !s.cmpConverted m then .next (s.cmpReconnect m)
      else
        let rest := s.acq.tests.filter fun x => x.cmp != m
        let good := decide (5 ≤ t.step) || (active == (t.step % 2 == 1))
        let next := s.cmpStep m 4 (t.step + 1)
        .next (if good && decide (next < 5) then { s with acq.tests := rest ++ [⟨m, next⟩] }
          else
            let s := { s with acq.tests := rest }.dacFreed (m / 3)
            if good then s.testEnds (0x38 + m) true 0
            else
              let s := (s.f2Begins 0x503 m).event ⟨UnitCode.acq, 0x503, 2, m / 3, detailOf [(0, m), (8, t.step)]⟩
              s.testEnds (0x38 + m) false 2)

/-! ### Engine shadow watch (R129, R130) -/

/-- The spare of an engine class takes over for a rotation test. -/
def State.rotateEngine (s : State) (c : Nat) : State :=
  let serving := hasBit (s.fld Reg.ENG_STAT Fld.ENG_STAT.SPARE) c
  let spare := engineUnit c (!serving).toNat
  match s.shadowOf spare with
  | none => s
  | some _ =>
      let s := s.setReg Reg.ENG_STAT (setBit (s.reg Reg.ENG_STAT) (8 + c) (!serving))
      (s.setReg Reg.ENG_STAT (setBit (s.reg Reg.ENG_STAT) (12 + c) true)).shadowPassed spare

/-- SHADOW_WATCH_END: the watch of the engine's spares ends. -/
def execShadowWatchEnd (s : State) : Host.Outcome State Fault Refusal :=
  let e := s.eng
  .next (if e.watchTo = 0 ∨ s.tick < e.watchTo then s
    else
      let s := s.atTick 250
      let s := { s with eng.watchTo := 0 }.setFld Reg.ENG_STAT Fld.ENG_STAT.SHADOW 0
      let s := if e.mismatched then s
        else s.event ⟨UnitCode.eng, 0x107, 0, 0, BitVec.ofNat 32 (min 255 (e.watchTo - e.watchFrom))⟩
      [0, 1, 2, 3].foldl State.rotateEngine s)

/-! ### Requests (R518, R519, R521) -/

/-- The bridges, boost stage and exciter that an instance drives. -/
def State.unitsDriven (s : State) (c : Nat) : Nat :=
  match classOf c with
  | .sar => s.grpUnits (sarGroup c)
  | .generator => if c < 0x20 then 2 ^ s.unitOfPair (c - 0x10) else 0
  | .engine => 0x1F
  | .pll => s.unitsCarried (c - 0x2C)
  | _ => 0

def State.drivenSafe (s : State) (c : Nat) : Bool :=
  (List.range 5).all fun u => !hasBit (s.unitsDriven c) u || s.isSafe u

/-- Step 2 of R518 for a unit that serves: no free spare, and neither PARK nor safe state frees it. -/
def State.spareMissing (s : State) (c : Nat) (park : Bool) : Bool :=
  if classOf c = .comparator then !park && !s.testable c
  else !s.testable c && !park && !s.drivenSafe c

/-- The test of a comparator is refused while no conversion of its input is made (R263). -/
def State.noConversion (s : State) (c : Nat) : Bool := classOf c == .comparator && !s.cmpConverted (c - 0x38)

/-- BIST_REQUEST. -/
def State.bistRequest (s : State) (c : Nat) (w3 : Word) : Verdict :=
  let st := s.unit c
  let park := s.fld Reg.PWR_STATE Fld.PWR_STATE.STATE == 1
  let out := st == unitFree || st == unitFailed || st == unitQuarantine
  if s.lcs = 3 then .refused true id
  else if s.lcs = 1 && !park && !out then .refused true id
  else if !s.condOk || st == unitRetired || st == unitTest || st == unitShadow then .no
  else if classOf c = .memory ∧ !park then .no
  else if s.noConversion c then .no
  else if st = unitServing ∧ classOf c ≠ .memory ∧ s.spareMissing c park then .no
  else
    let kind := min 3 w3.toNat
    let s := if !park && s.testable c then s.startTest c kind 1 else s.isolate ⟨c, kind, 1, st, false⟩
    .doneClamp s (decide (3 < w3.toNat))

/-- UNIT_READMIT. -/
def State.unitReadmit (s : State) (c : Nat) : Verdict :=
  if s.unit c ≠ unitFailed ∨ !s.condOk ∨ s.noConversion c then .no else .done (s.isolate ⟨c, 3, 1, unitFailed, true⟩)

/-- The exit from PARK: a unit tested there enters quarantine beside its spare, which serves its instance; with
no free spare it serves at once, and its class's next rotation step starts at once (R519). -/
def State.bstParkExit (s : State) : State :=
  let s := s.bst.parked.foldl (fun s c =>
    if homeSpare c then (s.setFit c true).quarantine c
    else match s.freeSpareOf c with
      | some sp =>
          let s := s.setUnit sp unitServing
          let s := match classOf c with
            | .sar => (s.setSp (sarGroup c) spStanding).setFld Reg.ACQ_STAT (scoreField (sarGroup c)) (sarCore c)
            | .generator => (s.setSpare (sp - 0x20) (c - 0x10)).setFld (Reg.PAIRk_LIVE (c - 0x10)) Fld.PAIRk_LIVE.SPARE 1
            | .engine => s.setReg Reg.ENG_STAT (setBit (setBit (s.reg Reg.ENG_STAT) (8 + engClass c) true) (12 + engClass c) true)
            | .can => (s.setCanSpare (c - 0x30)).setFld (Reg.CAN_STAT (c - 0x30)) Fld.CAN_STAT.SPARE 1
            | _ => s
          (s.setFit c true).quarantine c
      | none =>
          let s := ((s.setUnit c unitServing).serveAgain c).clearFailure c
          { s with bst.pend := s.bst.pend ++ [c] }) s
  ({ s with bst.parked := [] }).runSteps

/-! ### Repair of memory rows in service (R524) -/

def rowKey (r : MemRow) : Nat × Nat × Nat := (r.unit.val, r.mac.val, r.row.val)

/-- The row has given a corrected error within 2^20 ticks. -/
def State.rowErred (s : State) (r : Nat × Nat × Nat) : Bool :=
  s.bst.rowErrors.any fun e => (e.unit, e.mac, e.row) == r && decide (s.tick ≤ e.tick + 2 ^ 20)

/-- A row is to be repaired: its copy starts, or no spare row remains. -/
def State.repairRow (s : State) (r : Nat × Nat × Nat) : State :=
  if s.bst.copying.contains r then s
  else if spareRows ≤ s.mappedIn r.1 r.2.1 + (s.bst.copying.countP fun x => x.1 == r.1 && x.2.1 == r.2.1) then
    s.postRepair 2 r
  else { s with bst.copying := s.bst.copying ++ [r] }

/-- SRAM_ROW_REPAIR: a word of a row gives a corrected error, or a double-bit one; a second error of the row
within 2^20 ticks, or a double-bit error, repairs it. -/
def execSramRowRepair (r : MemRow) (word : Fin 32) (double : Bool) (s : State) : Host.Outcome State Fault Refusal :=
  let k := rowKey r
  .next (if classOf k.1 ≠ .memory ∨ !unitExists k.1 then s
    else if double || s.rowErred k then
      { s with bst.rowErrors := s.bst.rowErrors.filter fun e => (e.unit, e.mac, e.row) != k }.repairRow k
    else { s with bst.rowErrors := s.bst.rowErrors ++ [⟨k.1, k.2.1, k.2.2, word.val, s.tick⟩] })

/-- ROW_COPY_DONE: the mapping of a copied row switches. -/
def execRowCopyDone (r : MemRow) (s : State) : Host.Outcome State Fault Refusal :=
  let k := rowKey r
  .next (if !s.bst.copying.contains k then s
    else
      let s := { s with bst.copying := s.bst.copying.filter (· != k) }
      ((s.mapSpareRow k).showRepair).postRepair 0 k)

/-! ### Life-cycle tokens (R527) -/

/-- Every unit is in safe state, and no discharge runs. -/
def State.quiet (s : State) : Bool := ((List.range 5).all s.isSafe) && !s.disRunning

/-- LCS_TOKEN; `ws` are the 44 words copied when it was fetched. -/
def State.lcsToken (s : State) (w4 : Word) (ws : List Word) : Verdict :=
  if s.lcs = 3 then .refused true id
  else if !s.quiet || decide (8 ≤ s.fld Reg.BST_CNT Fld.BST_CNT.TOKFAIL) then .no
  else .doneClamp { s with bst.tokens := s.bst.tokens ++ [⟨ws⟩] } (w4 != 176)

def Token.word (t : Token) (off : Nat) : Word := t.words.getD (off / 4) 0

/-- Transitions of Table BST-5. -/
def lcsMay (frm next : Nat) : Bool :=
  match frm, next with
  | 0, 1 | 0, 3 | 1, 2 | 1, 3 | 2, 1 | 2, 3 => true
  | _, _ => false

def State.keyHash (s : State) : List Byte := bytesOfWords ((List.range 8).map fun i => s.reg (Reg.BST_KEYHASHi i))

/-- The REASON of a token: 0 when it is valid. -/
def State.tokenReason (s : State) (t : Token) : Nat :=
  let bytes := bytesOfWords t.words
  let frm := (t.word 8).toNat
  if t.word 0 != 0x4F4D4C54 || t.word 4 != 1 then 1
  else if t.word 0x0C != s.reg Reg.BST_UID_LO || t.word 0x10 != s.reg Reg.BST_UID_HI then 2
  else if ((List.range 4).any fun i => t.word (0x14 + 4 * i) != s.reg (Reg.BST_NONCEi i)) ||
    t.word 0x24 != s.reg Reg.BST_LCCNT then 3
  else if frm % 256 != s.lcs || !lcsMay s.lcs (frm / 256 % 256) then 4
  else if Crypto.sha256 (slice bytes 0x30 64) != s.keyHash then 5
  else if Crypto.verifyBytes (slice bytes 0x30 64) (slice bytes 0x70 64) (slice bytes 0 0x70) then 0
  else 6

/-- The nonce is drawn afresh. -/
def State.drawNonce (s : State) : State :=
  (List.range 4).foldl (fun s i =>
    let (n, s) := s.takeFree
    s.setReg (Reg.BST_NONCEi i) (Config.freeWord n)) s

/-- LCS_TOKEN_VERIFIED: the verification of the oldest token ends. -/
def execLcsTokenVerified (s : State) : Host.Outcome State Fault Refusal :=
  match s.bst.tokens with
  | [] => .next s
  | t :: rest =>
      let why := s.tokenReason t
      let next := (t.word 8).toNat / 256 % 4
      let s := { s with bst.tokens := rest }.drawNonce
      let s := if why = 0 then s.setReg Reg.BST_LCCNT (s.reg Reg.BST_LCCNT + 1)
        else s.count Reg.BST_CNT Fld.BST_CNT.TOKFAIL
      let psn := (s.reg Reg.CMD_PSN).toNat
      let s := s.event ⟨UnitCode.bst, 0xF08, 0, 0, detailOf [(0, (why == 0).toNat), (8, why), (16, next)]⟩
      .next (if why = 0 then { s with bst.lcsNext := some { state := next, psn } } else s)

end Sys2Proof.Machine
end

