-- ==== Sys2Proof/Machine/Hld.lean ====
section
/-! DEFINITION. The hold-up store, the event ledger and the die link (R14, R15, R532 to R545). -/

set_option Elab.async false

namespace Sys2Proof.Machine

/-! ### Registers -/

abbrev hldCharging : Nat := 1
abbrev hldReady : Nat := 2
abbrev hldChecking : Nat := 3
abbrev hldPassed : Nat := 4
abbrev hldFailed : Nat := 5
abbrev hldCommit : Nat := 6

def State.hldState (s : State) : Nat := s.fld Reg.HLD_STAT Fld.HLD_STAT.STATE
def State.setHldState (s : State) (v : Nat) : State := s.setFld Reg.HLD_STAT Fld.HLD_STAT.STATE v

/-- A voltage in µV as a real number of V. -/
def voltsOf (uv : Nat) : Rat := Num.round24 (mkRat uv 1000000)

/-- The pump runs: not before the store is on, in SLEEP, during a check or a commit (R532). -/
def State.pumpRuns (s : State) : Bool :=
  s.hldState != hldChecking && s.hldState != hldCommit && !s.pwr.asleep

/-! ### The energy check (R534 to R536) -/

/-- A check starts; the state it leaves is kept for a check that ends without result. -/
def State.startHoldupCheck (s : State) : State :=
  { s with led.before := s.hldState, led.lastCheck := s.runTime }.setHldState hldChecking

/-- HOLDUP_CHECK. -/
def State.holdupCheck (s : State) : Verdict :=
  if s.hldState = hldChecking ∨ hasBit s.pwr.rails 2 then .no else .done s.startHoldupCheck

/-- The first attainment of READY since the release starts a check. -/
def State.vholdReady (s : State) : State :=
  let s := if s.hldState ≤ hldCharging then s.setHldState hldReady else s
  if s.led.readySeen || s.hldState == hldChecking then { s with led.readySeen := true }
  else { s with led.readySeen := true }.startHoldupCheck

/-- HOLDUP_READY: VHOLD reads `vhold` µV, and READY is reached at 19.0 V. -/
def execHoldupReady (vhold : Nat) (s : State) : Host.Outcome State Fault Refusal :=
  let s := s.setReg Reg.HLD_VHOLD (Num.pack (voltsOf vhold))
  .next (if 19000000 ≤ vhold ∧ s.hldState ≠ hldCommit then s.vholdReady else s)

/-- HOLDUP_PERIODIC: RECHK hours of RUN have passed since the last check, at instant `t`. -/
def execHoldupPeriodic (t : Nat) (s : State) : Host.Outcome State Fault Refusal :=
  let s := s.at t
  let n := s.fld Reg.HLD_CFG Fld.HLD_CFG.RECHK
  .next (if n ≠ 0 ∧ s.inRun ∧ s.led.readySeen ∧ s.hldState ≠ hldChecking ∧ s.hldState ≠ hldCommit ∧
      s.led.lastCheck + n * 3600 * esPerSecond ≤ s.runTime then s.startHoldupCheck else s)

/-- The passed state is lost. -/
def State.holdupLow (s : State) (cause : Nat) : State :=
  if s.led.passed then
    ({ s with led.passed := false }.f2Begins 0xF11 0).event ⟨UnitCode.hld, 0xF11, 2, 0, BitVec.ofNat 32 cause⟩
  else s

/-- HOLDUP_RESULT and the end of a check: `why` is its REASON, none for a pass. -/
def State.endCheck (s : State) (why : Option Nat) (tenths : Nat) : State :=
  let s := s.count Reg.HLD_CNT Fld.HLD_CNT.CHECKS
  let s := if why.isSome then s.count Reg.HLD_CNT Fld.HLD_CNT.FAILS else s
  let s := (s.setHldState (if why.isNone then hldPassed else hldFailed)).setFld Reg.HLD_STAT
    Fld.HLD_STAT.REASON (why.getD 0)
  let s := s.event ⟨UnitCode.hld, 0xF10, 0, 0,
    detailOf [(0, why.isNone.toNat), (4, why.getD 0), (8, min (2 ^ 24 - 1) tenths)]⟩
  if why.isNone then { s with led.passed := true }.f2Ends 0xF11 0 else s.holdupLow 0

/-- The quantities of R534: ESR, C and E, from the three voltages. -/
def checkEsr (va vb : Rat) : Rat := Num.div (Num.sub va vb) (Num.round24 (mkRat 1 50))
def checkCap (vb vc : Rat) : Rat := Num.div (Num.round24 (mkRat 198 10000000)) (Num.sub vb vc)
def checkEnergy (c va esr : Rat) : Rat :=
  let floor := Num.add 6 (Num.mul (Num.round24 (mkRat 1 10)) esr)
  Num.mul (Num.mul (mkRat 1 2) c) (Num.sub (Num.mul va va) (Num.mul floor floor))

/-- A check that has made its three readings. -/
def State.judgeCheck (s : State) (va vb vc : Rat) : State :=
  let esr := checkEsr va vb
  let c := checkCap vb vc
  let e := checkEnergy c va esr
  let s := ((s.setReg Reg.HLD_CAP (Num.pack c)).setReg Reg.HLD_ESR (Num.pack esr)).setReg Reg.HLD_ENERGY (Num.pack e)
  let why := if c < s.real Reg.HLD_CMIN then some 1
    else if s.real Reg.HLD_ESRMAX < esr then some 2
    else if e < Num.round24 (mkRat 2 1000) then some 3 else none
  s.endCheck why (Num.roundInt (c * 10000000)).toNat

/-- HOLDUP_CHECK_COMPLETE: the readings in µV; without `charged` READY was not reached within 500 ms. -/
def execHoldupCheckComplete (charged : Bool) (va vb vc : Nat) (s : State) : Host.Outcome State Fault Refusal :=
  if s.hldState ≠ hldChecking then .next s
  else if charged then .next (s.judgeCheck (voltsOf va) (voltsOf vb) (voltsOf vc))
  else
    let (i, s) := s.takeFree
    .next (s.endCheck (some 0) ((Config.freeWord i).toNat % 2 ^ 24))

/-- VHOLD_DROP: VHOLD has been below 18.0 V for 100 µs while the pump runs. -/
def execVholdDrop (vhold : Nat) (s : State) : Host.Outcome State Fault Refusal :=
  .next (if !s.pumpRuns || decide (18000000 ≤ vhold) then s
    else ((s.setReg Reg.HLD_VHOLD (Num.pack (voltsOf vhold))).setHldState hldCharging).holdupLow 1)

/-! ### The queue (R538) -/

def LedgerEntry.units (e : LedgerEntry) : Nat := e.words.length / 8

/-- Units in the queue, those already written of the oldest entry apart. -/
def State.queued (s : State) : Nat := (s.led.queue.map LedgerEntry.units).sum - s.led.written

/-- An entry reaches the field die: it enters the queue, or is refused and counted. -/
def State.acceptEntry (s : State) (e : LedgerEntry) : State :=
  if s.led.accepting && decide (s.queued + e.units ≤ 256) then { s with led.queue := s.led.queue ++ [e] }
  else
    let first := if s.led.refused = 0 then e.psn else s.led.refusedPsn
    { s with led.refused := satAdd 32 s.led.refused 1, led.refusedPsn := first }.count Reg.HLD_CNT
      Fld.HLD_CNT.OVERFLOW

/-- The oldest entry on its way arrives. -/
def State.acceptNext (s : State) : State :=
  match s.led.sent with
  | [] => s
  | e :: rest => { s with led.sent := rest }.acceptEntry e

/-- Room for one unit more, behind every entry that has taken its PSN before: the entries on their way go first
(R96). -/
def State.overflowRoom (s : State) : Bool := decide (s.queued + (s.led.sent.map LedgerEntry.units).sum < 256)

/-- LEDGER_OVERFLOW_ENTRY: room has freed after entries were refused. -/
def execLedgerOverflowEntry (s : State) : Host.Outcome State Fault Refusal :=
  if s.led.refused = 0 ∨ !s.led.accepting ∨ !s.overflowRoom then .next s
  else
    let n := s.led.refused
    let first := s.led.refusedPsn
    let psn := s.reg Reg.CMD_PSN
    let s := s.event ⟨UnitCode.hld, 0xF13, 0, 0, BitVec.ofNat 32 (min n 65535)⟩
    let e := s.ledgerEntry 4 0 0 0 0 psn 1 [BitVec.ofNat 32 n, BitVec.ofNat 32 first]
    .next ({ s with led.refused := 0, led.refusedPsn := 0 }.sendLedger e)

/-! ### The store (R539, R540) -/

abbrev sectorUnits : Nat := 512
abbrev logUnits : Nat := 15872

def State.head (s : State) : Nat := s.fld Reg.HLD_HEAD Fld.HLD_HEAD.UNIT
def logAddr (u : Nat) : Nat := ledgerBase + 0x4000 + 32 * u

/-- Write the unit at the head, which moves on. -/
def State.writeUnit (s : State) (ws : List Word) : State :=
  (s.setWords (logAddr s.head) ws).setFld Reg.HLD_HEAD Fld.HLD_HEAD.UNIT ((s.head + 1) % logUnits)

/-- The header of the sector the head enters, with the next sequence number. -/
def State.writeHeader (s : State) : State :=
  let seq := s.reg Reg.HLD_SECSEQ + 1
  (s.setReg Reg.HLD_SECSEQ seq).writeUnit ([seq, Crc.checkC (bytesOfWord seq)] ++ List.replicate 6 0)

/-- The entry of a life-cycle token is durable. -/
def State.markDurable (s : State) (psn : Nat) : State :=
  let s := s.setReg Reg.HLD_DURABLE (BitVec.ofNat 32 psn)
  match s.bst.lcsNext with
  | some n => if n.psn = psn then { s with bst.lcsNext := some { n with durable := true } } else s
  | none => s

/-- Write the next unit of the oldest entry; with its last unit it is durable. -/
def State.writeEntryUnit (s : State) (e : LedgerEntry) (rest : List LedgerEntry) : State :=
  let n := s.led.written
  let s := if n = 0 then { s with led.entryAt := s.head } else s
  let s := s.writeUnit ((e.words.drop (8 * n)).take 8)
  if n + 1 < e.units then { s with led.written := n + 1 }
  else { s with led.written := 0, led.queue := rest }.markDurable e.psn

def State.writeNextUnit (s : State) : State :=
  match s.led.queue with
  | [] => s
  | e :: rest => if s.head % sectorUnits = 0 then s.writeHeader else s.writeEntryUnit e rest

/-- LEDGER_UNIT_WRITTEN: one unit has been written to the store. -/
def execLedgerUnitWritten (s : State) : Host.Outcome State Fault Refusal := .next s.writeNextUnit

/-- The queue drains. -/
def State.drainQueue : Nat → State → State
  | 0, s => s
  | n + 1, s => if s.led.queue.isEmpty then s else State.drainQueue n s.writeNextUnit

/-- Before a reset: what the core die has sent arrives, a resume point follows, and all is written (R550). -/
def State.drainForReset (s : State) : State :=
  let s := s.sendResumePoint
  State.drainQueue 600 (s.led.sent.foldl State.acceptEntry { s with led.sent := [], dlink.units := 0 })

/-- The head goes back over an entry that was cut short (R540). -/
def State.dropTorn (s : State) : State :=
  if s.led.written = 0 then s
  else
    let back := s.led.entryAt
    let s := if back / sectorUnits ≠ (s.head - 1) / sectorUnits then s.setReg Reg.HLD_SECSEQ (s.reg Reg.HLD_SECSEQ - 1)
      else s
    s.setFld Reg.HLD_HEAD Fld.HLD_HEAD.UNIT back

/-! ### Supply loss (R541) -/

/-- SUPPLY_LOSS: the commit begins; `snapshot` tells whether the resume snapshot arrives within 5 µs. -/
def execSupplyLoss (snapshot : Bool) (s : State) : Host.Outcome State Fault Refusal :=
  if s.pwr.asleep || s.led.lost then .next s
  else
    let s := s.setHldState hldCommit
    let s := { s with led.sent := [], dlink.units := 0 }
    let s := if snapshot then s.sendResumePoint else s
    .next { s with led := { s.led with queue := s.led.queue ++ s.led.sent, sent := [], accepting := false, lost := true } }

/-! ### Notes and export (R543, R544) -/

/-- LEDGER_NOTE: its event, and the entry that carries the same PSN. -/
def State.ledgerNote (s : State) (ws : List Word) : State :=
  let psn := s.reg Reg.CMD_PSN
  let s := s.event ⟨UnitCode.hld, 0xF12, 0, 0, ws.headD 0⟩
  s.sendLedger (s.ledgerEntry 3 0 0 0 0 psn 2 (ws ++ s.rtcWords))

/-- The export engine answers: the ROM has stopped, EXPEN is 1, and PLL-A carries the CAN clock. -/
def State.exporting (s : State) : Bool :=
  let code := s.fld Reg.SYS_BOOTSTAT Fld.SYS_BOOTSTAT.CODE
  s.hic.core0 == 2 && (code == 2 || code == 3) && s.on Reg.HLD_CFG Fld.HLD_CFG.EXPEN && s.pllServes 0

/-- LEDGER_EXPORT_REQUEST: a frame on CAN0 while the ROM has stopped; a request names the first unit. -/
def execLedgerExportRequest (id : Nat) (data : List Byte) (s : State) : Host.Outcome State Fault Refusal :=
  let u := (data.getD 2 0).toNat + 256 * (data.getD 3 0).toNat + 65536 * (data.getD 4 0).toNat + 16777216 * (data.getD 5 0).toNat
  if !s.exporting || id != 0x7E0 || data.length != 6 || data.take 2 != [0x4C, 0x47] || decide (logUnits ≤ u) then .next s
  else
    let n := (s.head + logUnits - u) % logUnits
    let frames := (List.range (4 * n)).map fun i => s.bytes (logAddr ((u + i / 4) % logUnits) + 8 * (i % 4)) 8
    .next ({ s with led.export_ := frames }.setFld Reg.HLD_STAT Fld.HLD_STAT.EXPORT (!frames.isEmpty).toNat)

/-! ### Die link (R14, R15) -/

/-- The fold word of a frame (Table CHK-2): SEQ, and CLASS above it: 0 STREAM, 1 CONTROL, 2 HEARTBEAT. -/
def dlinkFold (cls : Fin 3) (seq : BitVec 16) : Word := BitVec.ofNat 32 (seq.toNat + 65536 * cls.val)

/-- The check of a frame: CRC-32C over its payload, with the fold word (R14, R500). -/
def dlinkCheck (cls : Fin 3) (seq : BitVec 16) (payload : List Byte) : Word :=
  Crc.checkC (payload ++ bytesOfWord (dlinkFold cls seq))

/-- The tag of source 19 for a link that the core die, or the field die, has declared down. -/
def downTag (atField : Bool) : Nat := if atField then 2 else 0

/-- A die declares the link down. -/
def State.dlinkDown (s : State) (atField : Bool) : State :=
  let s := s.setFld Reg.SYS_DLINK_STAT Fld.SYS_DLINK_STAT.DOWN 1
  if s.causeActive (16 + 19) (downTag atField) then s else s.raise (16 + 19) (downTag atField) 0x1F

/-- The losses that lie within the last 1,024 ticks (R15). -/
def State.recentLosses (s : State) : List Nat := s.dlink.losses.filter fun t => decide (s.tick < t + 1024)

/-- The loss rate of F2 is reached: DLINK_DEGRADED, once an episode (R15); F2 persists until the rate ends. -/
def State.degrade (s : State) : State :=
  let (i, s) := { s with dlink.degraded := true }.takeFree
  ((s.setFld Reg.SYS_DLINK_STAT Fld.SYS_DLINK_STAT.DEGR 1).f2Begins Config.dlinkDegraded.toNat 0).event
    ⟨UnitCode.sys, Config.dlinkDegraded.toNat, 2, 0, Config.freeWord i⟩

/-- A lost STREAM frame; sixteen within 1,024 ticks degrade the link, eight in a row are F3. -/
def State.streamLost (s : State) : State :=
  let s := s.count Reg.SYS_DLINK_STAT Fld.SYS_DLINK_STAT.LOST
  let recent := s.recentLosses ++ [s.tick]
  let run := s.dlink.run + 1
  let s := { s with dlink.losses := recent, dlink.run := run }
  let s := if 16 ≤ recent.length ∧ !s.dlink.degraded then s.degrade else s
  if 8 ≤ run ∧ !s.causeActive (16 + 19) 1 then s.raise (16 + 19) 1 0x1F else s

/-- At a boundary losses leave the 1,024 ticks of R15, and with the rate the persisting F2 cause ends. -/
def State.dlinkBoundary (s : State) : State :=
  let recent := s.recentLosses
  let s := { s with dlink.losses := recent }
  if s.dlink.degraded && decide (recent.length < 16) then
    { s with dlink.degraded := false }.f2Ends Config.dlinkDegraded.toNat 0
  else s

/-- A discarded CONTROL frame is repeated up to three times; a fourth failure is F3. -/
def State.controlFailed (s : State) (atField : Bool) : State :=
  let n := if atField then s.dlink.fieldFails else s.dlink.coreFails
  let next := if n < 3 then n + 1 else 0
  let s := if atField then { s with dlink.fieldFails := next } else { s with dlink.coreFails := next }
  if n < 3 then s.count Reg.SYS_DLINK_STAT Fld.SYS_DLINK_STAT.RETRY else s.dlinkDown atField

/-- A valid frame of any class: the receiver's link is up. -/
def State.dlinkUp (s : State) (atField stream : Bool) : State :=
  let s := if atField then { s with dlink.fieldValid := s.now } else { s with dlink.coreValid := s.now }
  let s := s.endCause (16 + 19) (downTag atField)
  if stream then { s with dlink.run := 0 }.endCause (16 + 19) 1 else s

/-- A valid CONTROL frame; one at the field die that carries the next unit of the oldest ledger entry on its way
brings that unit, and with its last unit the entry arrives (R538). -/
def State.controlUsed (s : State) (atField : Bool) (payload : List Byte) : State :=
  let s := if atField then { s with dlink.fieldFails := 0 } else { s with dlink.coreFails := 0 }
  match s.led.sent with
  | [] => s
  | e :: _ =>
      if !atField || payload != bytesOfWords ((e.words.drop (8 * s.dlink.units)).take 8) then s
      else if s.dlink.units + 1 < e.units then { s with dlink.units := s.dlink.units + 1 }
      else { s with dlink.units := 0 }.acceptNext

/-- DLINK_FRAME_RECEIVE: a frame of class `cls` arrives at the field die or at the core die with sequence number
`seq`, its payload and the check `crc` (R14).  It is discarded where it fails its check or breaks the sequence. -/
def execDlinkFrameReceive (toField : Bool) (cls : Fin 3) (seq : BitVec 16) (payload : List Byte) (crc : Word)
    (s : State) : Host.Outcome State Fault Refusal :=
  let want := if toField then s.dlink.fieldSeq else s.dlink.coreSeq
  let check := crc == dlinkCheck cls seq payload
  let after := ((if check then seq.toNat else want) + 1) % 65536
  let good := check && seq.toNat == want
  let s := if toField then { s with dlink.fieldSeq := after } else { s with dlink.coreSeq := after }
  .next (if good then
      let s := s.dlinkUp toField (cls == 0)
      if cls = 1 then s.controlUsed toField payload else s
    else if cls = 0 then s.streamLost
    else if cls = 1 then s.controlFailed toField
    else s)

/-- DLINK_HEARTBEAT_TIMEOUT: the field die, or the core die, has received no valid frame of any class for 1 µs. -/
def execDlinkHeartbeatTimeout (atField : Bool) (s : State) : Host.Outcome State Fault Refusal :=
  let last := if atField then s.dlink.fieldValid else s.dlink.coreValid
  .next ((s.at (last + nsToEs 1000)).dlinkDown atField)

/-- FIELD_DIE_IDENTITY: the field die reports its revision (R3). -/
def execFieldDieIdentity (rev : Fin 16) (s : State) : Host.Outcome State Fault Refusal :=
  let s := s.setFld Reg.SYS_DEVID Fld.SYS_DEVID.FIELD_REV rev.val
  .next (s.setFld Reg.SYS_RSTCAUSE Fld.SYS_RSTCAUSE.FDIE (rev.val == 15).toNat)

end Sys2Proof.Machine
end

