-- ==== Sys2Proof/Machine/Reset.lean ====
section
/-! DEFINITION. Device resets, block resets, the retention matrix, the check and restore of the image, and the
power states (R240, R241, R548 to R567). -/

set_option Elab.async false

namespace Sys2Proof.Machine

/-! ### Causes (Table HLD-2) -/

abbrev rstPor : Nat := 0
abbrev rstBor : Nat := 1
abbrev rstPin : Nat := 2
abbrev rstWdog : Nat := 3
abbrev rstSwsys : Nat := 4
abbrev rstLcs : Nat := 5
/-- SLEEP exit, which SYS_RSTCAUSE records as 0 with SLEEPWK = 1. -/
abbrev rstSleep : Nat := 6

/-! ### Asserting a reset (R549, R550) -/

/-- SPO on every unit at once. -/
def State.commandSpo (s : State) (cause : Nat) : State :=
  let s := s.settle.applySafeAll 0x1F cause
  let s := [0, 1].foldl (fun s b => s.setFld (Reg.PROT_BRb_STAT b) Fld.PROT_BRb_STAT.STATE stateSpo) s
  s.regate (List.range 16)

/-- The ledger before the reset: PIN, WDOG, SWSYS and LCS drain it; BOR has committed; POR loses the queue. -/
def State.ledgerBefore (s : State) (cause : Nat) : State :=
  if rstPin ≤ cause ∧ cause ≤ rstLcs ∧ !s.pwr.asleep then s.drainForReset else s

/-- A device reset is asserted; POR overrides one that is asserted already. -/
def State.assertReset (s : State) (cause : Nat) : State :=
  match s.pwr.held with
  | some _ => if cause = rstPor then { s with pwr.held := some rstPor } else s
  | none =>
      let s := if cause = rstLcs then (s.bst.tests.map (·.code)).foldl (fun s c => s.abortTest c 2) s else s
      let s := (s.commandSpo 0x41).ledgerBefore cause
      { s with bst.ran := s.runTime, pwr.held := some cause, pwr.heldAt := s.now, hic.core0 := 0 }

/-- POWER_ON_RESET: VSTBY has risen through 2.9 V, or falls below 2.7 V. -/
def execPowerOnReset (s : State) : Host.Outcome State Fault Refusal := .next (s.assertReset rstPor)

/-- COMMIT_END: the commit on supply loss has ended, and BOR is asserted. -/
def execCommitEnd (s : State) : Host.Outcome State Fault Refusal :=
  .next (if s.led.lost then s.assertReset rstBor else s)

/-- RESET_PIN: RESET_n has been low for 1 µs. -/
def execResetPin (t : Nat) (s : State) : Host.Outcome State Fault Refusal := .next ((s.at t).assertReset rstPin)

/-- WDOG_RESET: the delay of R486 has passed, and the ledger has accepted WDOG_VIOLATION. -/
def execWdogReset (t : Nat) (s : State) : Host.Outcome State Fault Refusal :=
  let s := s.at t
  .next (match s.hic.wdogAt with
  | some due => if due ≤ s.now ∧ s.led.sent.isEmpty then s.assertReset rstWdog else s
  | none => s)

/-- SYS_RSTCTL written: 0xA5C3 commands SPO, and the reset follows after 50 µs. -/
def State.rstctlWritten (s : State) : State :=
  if s.fld Reg.SYS_RSTCTL Fld.SYS_RSTCTL.SWSYS = 0xA5C3 then
    let s := s.commandSpo 0x41
    { s with pwr.swsysAt := some (s.now + nsToEs 50000) }
  else s

/-- SWSYS_RESET_ASSERT. -/
def execSwsysResetAssert (s : State) : Host.Outcome State Fault Refusal :=
  .next (match s.pwr.swsysAt with
  | some t => (s.at t).assertReset rstSwsys
  | none => s)

/-- LCS_RESET: the entry of a valid token is durable. -/
def execLcsReset (s : State) : Host.Outcome State Fault Refusal :=
  .next (match s.bst.lcsNext with
  | some n => if n.durable then s.assertReset rstLcs else s
  | none => s)

/-! ### Retention (Table PWR-3) -/

/-- Take registers of `old` over into `s`. -/
def State.keepRegs (old s : State) (as : List Nat) : State := as.foldl (fun s a => s.setReg a (old.reg a)) s
/-- Take a field of `old` over into `s`. -/
def State.keepFld (old s : State) (a : Nat) (f : Bits) : State := s.setFld a f (old.fld a f)

/-- The unit states of R556; a PLL starts afresh unless it is retired. -/
def keptUnit (c st : Nat) : Nat :=
  if classOf c = .pll then (if st = unitRetired then unitRetired else unitServing)
  else if st = unitShadow then unitFree
  else if st = unitTest then unitQuarantine else st

/-- Unit states and counts of false deaths. -/
def State.keepUnits (old s : State) : State :=
  ((List.range 0x48).filter unitExists).foldl (fun s c =>
    ((State.keepFld old s (Reg.BST_Uu c) Fld.BST_Uu.FD).setUnit c (keptUnit c (old.unit c)))) s

/-- What the class registers show of units that stand in, are in quarantine or have failed. -/
def State.keepStandIns (old s : State) : State :=
  let s := State.keepRegs old s [Reg.ACQ_STAT, Reg.PWM_STAT, Reg.CAN_SPSTAT, Reg.ACQ_CMPSUB]
  let s := [0, 1, 2, 3].foldl (fun s g => if s.unit (4 * g + 3) = unitServing then s
    else s.setSp g (if s.unit (4 * g + 3) = unitQuarantine then spTest else spFree)) s
  let s := [0, 1].foldl (fun s i => if s.unit (0x20 + i) = unitServing then s
    else s.setSpare i (if s.unit (0x20 + i) = unitQuarantine then spareTest else spareFree)) s
  let s := (List.range 16).foldl (fun s k => s.setFld (Reg.PAIRk_LIVE k) Fld.PAIRk_LIVE.SPARE (decide (16 ≤ s.genOf k)).toNat) s
  let s := if s.unit canSpareUnit = unitServing ∨ s.unit canSpareUnit = unitFailed then s
    else s.setCanSpare (if s.unit canSpareUnit = unitQuarantine then canTest else canFree)
  let s := [0, 1, 2, 3].foldl (fun s c => s.setFld (Reg.CAN_STAT c) Fld.CAN_STAT.SPARE (s.canSpare == c).toNat) s
  State.keepFld old (State.keepFld old s Reg.ENG_STAT Fld.ENG_STAT.SPARE) Reg.ENG_STAT Fld.ENG_STAT.NOSPARE

/-- Non-volatile state and the ledger log, which every reset keeps. -/
def State.keepNonVolatile (old s : State) : State :=
  let s := State.keepRegs old s ([Reg.BST_LCCNT, Reg.BST_UID_LO, Reg.BST_UID_HI, Reg.HLD_HEAD, Reg.HLD_SECSEQ,
    Reg.HLD_RCNT] ++ (List.range 8).map Reg.BST_KEYHASHi)
  let s := State.keepFld old (State.keepFld old s Reg.BST_STAT Fld.BST_STAT.LCS) Reg.BST_STAT Fld.BST_STAT.NEXT
  let s := State.keepFld old (State.keepFld old s Reg.CLK_CNT Fld.CLK_CNT.FDA) Reg.CLK_CNT Fld.CLK_CNT.FDB
  let s := [0, 1].foldl (fun s p => if old.pllGone p then s.setPllState p pllRetired else s) s
  let s := State.keepUnits old s
  { s with
    hic.fusedSvn := old.hic.fusedSvn, hic.bootKeys := old.hic.bootKeys,
    bst := { s.bst with detected := old.bst.detected, fit := old.bst.fit, out := old.bst.out, pend := old.bst.pend, ran := old.bst.ran,
                        stepAt := old.bst.stepAt, tested := old.bst.tested, overdue := old.bst.overdue } }

/-- The standby domain: all but POR keep it. -/
def State.keepStandby (old s : State) : State :=
  let s := State.keepRegs old s [Reg.PWR_WAKECFG, Reg.PWR_RTCALM_LO, Reg.PWR_RTCALM_HI, Reg.PWR_WAKESTAT,
    Reg.SYS_BOOTSTAT, Reg.SYS_BOOTREJ]
  { s with clk.rtc := old.rtcNow }

/-- Thermal nodes and qualifiers, decayed over the reset. -/
def State.keepThermal (old s : State) : State :=
  let d := old.thermalDecay (old.now - old.pwr.heldAt)
  { s with thm.legs := d.thm.legs.map fun e => (e.1, ({ sw := e.2.sw, di := e.2.di } : ThmLeg)),
           thm.chip := d.thm.chip, thm.units := d.thm.units }

/-- Memory that a reset keeps: the ledger, and after PIN, WDOG and SWSYS every memory but the doorbell page. -/
def keptByte (warm : Bool) (a : Nat) : Bool :=
  inLedger a || (warm && !within a (sramBase + doorbell) 0x1000)

/-- What PIN, WDOG and SWSYS keep beyond the other resets. -/
def State.keepWarm (old s : State) : State :=
  let s := old.regs.foldl (fun s e => if inFluxMap e.1 then s.setReg e.1 e.2 else s) s
  { s with image := old.image, hic.bad := old.hic.bad.filter fun o => decide (o < doorbell),
           pwr.sealDue := old.image.isSome }

/-- The opening entry of a reset interval (R83). -/
def State.openInterval (s : State) (cause : Nat) : State :=
  let s := s.setReg Reg.HLD_RCNT (s.reg Reg.HLD_RCNT + 1)
  let code := if cause = rstSleep then 0 else cause
  { s with led.sent := [s.ledgerEntry 1 0 0 0 0 0 1 (BitVec.ofNat 32 code :: s.rtcWords)] }

/-- SYS_RSTCAUSE of a reset. -/
def State.showCause (s : State) (cause : Nat) : State :=
  (s.setFld Reg.SYS_RSTCAUSE Fld.SYS_RSTCAUSE.CAUSE (if cause = rstSleep then 0 else cause)).setFld
    Reg.SYS_RSTCAUSE Fld.SYS_RSTCAUSE.SLEEPWK (cause == rstSleep).toNat

/-- Release of a reset: every field at its reset value but for what Table PWR-3 keeps. -/
def State.releaseReset (old : State) (cause : Nat) : State :=
  let old := old.dropTorn
  let warm := decide (rstPin ≤ cause) && decide (cause ≤ rstSwsys) && !old.pwr.asleep
  let s := { State.reset with free := old.free, pending := old.pending, prot.raw := old.prot.raw,
                              mem := old.mem.filter fun e => keptByte warm e.1 }
  let s := State.keepStandIns old (State.keepNonVolatile old s)
  let s := if cause = rstPor then s else State.keepStandby old s
  let s := if warm || cause == rstLcs then State.keepThermal old s else s
  let s := if warm then State.keepWarm old s else s
  let s := match old.bst.lcsNext with
    | some n => if cause = rstLcs then s.setFld Reg.BST_STAT Fld.BST_STAT.LCS n.state else s
    | none => s
  (((s.showCause cause).openInterval cause).drawNonce)

/-- RESET_RELEASE: the rails have been in range for 1 ms and RESET_n is high, at instant `t`; a SLEEP exit posts
its PWR_STATE. -/
def execResetRelease (t : Nat) (s : State) : Host.Outcome State Fault Refusal :=
  match s.pwr.held with
  | none => .next s
  | some cause =>
      let s := s.at t
      let woke := s.pwr.asleep
      let src := if cause = rstPin then 5 else s.fld Reg.PWR_STATE Fld.PWR_STATE.SRC
      let s := s.releaseReset cause
      .next (if woke && decide (rstBor < cause) then s.postPower pwrSleep pwrRun src else s)

/-! ### Block resets (R552) -/

/-- Registers of a block return to the image, or to their reset values without one. -/
def State.blockRegs (s : State) (mine : Nat → Bool) : State :=
  let s' := { s with regs := s.regs.filter fun e => !mine e.1 }
  match s.image with
  | some i => if s.sealed then (i.regs.filter fun e => mine e.1).foldl (fun s e =>
      s.setReg e.1 (blend (imageMask e.1) e.2 (regDefault e.1))) s' else s'
  | none => s'

def inBlock (u lo n : Nat) (a : Nat) : Bool :=
  decide (blockBase ≤ a) && unitOf a == u && decide (lo ≤ offsetOf a) && decide (offsetOf a < lo + n)

/-- An Isnak link: it enters ENUM if enabled, and source 15 acts. -/
def State.resetLink (s : State) (l : Nat) : State :=
  let s := s.linkDisable l
  let s := s.blockRegs fun a => inBlock UnitCode.isk (0x100 + 0x40 * l) 0x40 a || inBlock UnitCode.isk (0x1000 + 0x100 * l) 0x100 a
  s.linkCfgWritten l 0

/-- A CAN controller: staged frames are aborted, and the serving unit integrates. -/
def State.resetCan (s : State) (c : Nat) : State :=
  let s := s.canAbort c fun _ => true
  let spare := s.fld (Reg.CAN_STAT c) Fld.CAN_STAT.SPARE
  let shared := [Reg.CAN_SPSTAT, Reg.CAN_SPCFG]
  let s := s.blockRegs fun a => inBlock UnitCode.can (0x4000 * c) 0x4000 a && !shared.contains a
  let s := s.setFld (Reg.CAN_STAT c) Fld.CAN_STAT.SPARE spare
  s.setCanCtl c { nbt := s.reg (Reg.CAN_NBT c), dbt := s.reg (Reg.CAN_DBT c) }

/-- An Ethernet port: staged frames are aborted. -/
def State.resetEth (s : State) (p : Nat) : State :=
  let s := s.ethAbort p
  let s := s.blockRegs (inBlock UnitCode.eth (0x100 + 0x100 * p) 0x100)
  { s with eth := tabSet {} s.eth p {} }

/-- The xSPI controller: a command under way is abandoned, and its protected range stays locked. -/
def State.resetXsp (s : State) : State :=
  s.blockRegs fun a => inBlock UnitCode.xsp 0 0x10000 a && a != Reg.XSP_PROT

/-- The check units and scan slots restart. -/
def State.resetChk (s : State) : State :=
  let s := s.blockRegs (inBlock UnitCode.chk 0 0x10000)
  { s with chk.units := [], chk.scans := [] }

def swsubLegal (unit inst : Nat) : Bool :=
  (unit == UnitCode.isk && decide (inst < 2)) || (unit == UnitCode.can && decide (inst < 4)) ||
  (unit == UnitCode.eth && decide (inst < 2)) || (unit == UnitCode.xsp && inst == 0) || (unit == UnitCode.chk && inst == 0)

/-- GO of SYS_SWSUB: the block is reset; GO reads 1 until SWSUB_DONE. -/
def State.swsubGo (s : State) : State :=
  let unit := s.fld Reg.SYS_SWSUB Fld.SYS_SWSUB.UNIT
  let inst := s.fld Reg.SYS_SWSUB Fld.SYS_SWSUB.INST
  if !s.on Reg.SYS_SWSUB Fld.SYS_SWSUB.GO then s
  else if unit = UnitCode.isk then s.resetLink inst
  else if unit = UnitCode.can then s.resetCan inst
  else if unit = UnitCode.eth then s.resetEth inst
  else if unit = UnitCode.xsp then s.resetXsp
  else s.resetChk

/-- SWSUB_DONE. -/
def execSwsubDone (s : State) : Host.Outcome State Fault Refusal :=
  .next (s.setFld Reg.SYS_SWSUB Fld.SYS_SWSUB.GO 0)

/-! ### The image after a reset (R553, R554) -/

/-- IMAGE_SEAL_CHECK: the check of the kept image after a reset has completed. -/
def execImageSealCheck (s : State) : Host.Outcome State Fault Refusal :=
  if !s.pwr.sealDue then .next s
  else
    let ok := match s.image with
      | some i => i.sealCrc == i.sealWord
      | none => false
    .next ({ s with pwr.sealDue := false }.setFld Reg.SYS_RESTORE Fld.SYS_RESTORE.IMGOK ok.toNat)

/-- GO of SYS_RESTORE: refused without a good image or with LOCK set; a restore under way goes on. -/
def State.restoreGo (s : State) : State :=
  if s.pwr.restoring then s
  else if !s.on Reg.SYS_RESTORE Fld.SYS_RESTORE.IMGOK || s.on Reg.SYS_SETUP_LOCK Fld.SYS_SETUP_LOCK.LOCK then
    s.setFld Reg.SYS_RESTORE Fld.SYS_RESTORE.STATE 3
  else { s with pwr.restoring := true }.setFld Reg.SYS_RESTORE Fld.SYS_RESTORE.STATE 1

/-! ### Power states (R558 to R563) -/

/-- A target of PARK or SLEEP is admitted. -/
def State.parkAdmitted (s : State) : Bool :=
  [0, 1].all (fun b => s.fld (Reg.PROT_BRb_STAT b) Fld.PROT_BRb_STAT.STATE == stateSpo) &&
  s.fld Reg.PROT_USTAT Fld.PROT_USTAT.SAFE == 0x1F && s.prot.releasing == 0 && !s.disRunning &&
  !s.on Reg.SYS_RSTCAUSE Fld.SYS_RSTCAUSE.FDIE && s.bst.tokens.isEmpty

/-- SLEEP is entered: the ledger takes its resume point, and the hold-up passed state is lost. -/
def State.enterSleep (s : State) (old src : Nat) : State :=
  let s := (s.setFld Reg.PWR_STATE Fld.PWR_STATE.STATE pwrSleep).postPower old pwrSleep src
  { s.sendResumePoint with led.passed := false }

/-- A timebase at its zero begins its next period, and one at its half-period point has passed it. -/
def State.settleTb (s : State) (n : Nat) : State :=
  let t := s.tb n
  if t.running && decide (t.endAt ≤ s.now) then s.openPeriod n s.now
  else if t.running && decide (t.halfAt ≤ s.now) then s.setTb n { t with pastHalf := true }
  else s

/-- Timebases stop, with how far their periods have run; a slave that waits for TB0's zero goes on waiting. -/
def State.parkTimebases (s : State) : State :=
  let run := (List.range 4).filter s.tbRun
  let s := run.foldl State.settleTb s
  let s := { s with pwr.parked := run.map fun n => (n, s.now - (s.tb n).zeroAt) }
  run.foldl State.stopTb s

/-- PARK is entered at a boundary (R560): units take cause PARK, PLL-B stops. -/
def State.enterPark (s : State) (target : Nat) : State :=
  let ran := s.runTime
  let s := s.settle.parkTimebases.unsyncDs
  let s := [0, 1].foldl (fun s b => s.setFld (Reg.PROT_BRb_STAT b) Fld.PROT_BRb_STAT.CAUSE 0x43) s
  let s := { s with prot.safeLow := true, prot.opened := false, pwr.enterAt := none, pwr.parkAt := s.now, bst.ran := ran }
  let s := if s.pllGone 1 then s else (s.setPllState 1 pllOff).moveDomains none
  let s := s.setFld Reg.PWR_STATE Fld.PWR_STATE.STATE pwrPark
  let s := s.postPower pwrRun pwrPark 0
  if target = pwrSleep then s.enterSleep pwrPark 0
  else if s.pwr.waking then { s with pwr.waking := false }.beginExit (s.fld Reg.PWR_STATE Fld.PWR_STATE.SRC)
  else s

/-- POWER_STATE. -/
def State.powerStateSet (s : State) (w3 : Word) : Verdict :=
  let target := if 2 < w3.toNat then 0 else w3.toNat
  let clamp := decide (2 < w3.toNat)
  let now := s.powerState
  if s.on Reg.SYS_RSTCAUSE Fld.SYS_RSTCAUSE.FDIE then .no
  else if target = now then .doneClamp s clamp
  else if target = pwrRun then .doneClamp (if now = pwrPark then s.requestRun 0 else s) clamp
  else if !s.parkAdmitted then .no
  else if now = pwrPark then .doneClamp (s.enterSleep pwrPark 0) clamp
  else if s.ticking then .doneClamp { s with pwr.enterAt := some (s.tick + 1, target) } clamp
  else .doneClamp (s.enterPark target) clamp

/-- WAKE: a ball (0 to 3) has shown an edge that persisted for `persist` es, or the RTC alarm (4) matches. -/
def State.wakeValid (s : State) (src : Nat) (rising : Bool) (persist : Nat) : Bool :=
  let cfg := s.reg Reg.PWR_WAKECFG
  if src = 4 then
    Fld.PWR_WAKECFG.RTCEN.on cfg &&
    s.rtcNow == (s.reg Reg.PWR_RTCALM_LO).toNat + 2 ^ 32 * s.fld Reg.PWR_RTCALM_HI Fld.PWR_RTCALM_HI.V
  else
    let kind := (⟨8 + 2 * src, 2⟩ : Bits).of cfg
    hasBit (Fld.PWR_WAKECFG.EN.of cfg) src && (kind == 2 || (kind == 0) == rising) &&
    decide (Fld.PWR_WAKECFG.WFILT.of cfg * 640000 ≤ persist)

def execWake (src : Fin 5) (rising : Bool) (persist t : Nat) (s : State) : Host.Outcome State Fault Refusal :=
  let s := s.at t
  if !s.wakeValid src.val rising persist then .next s
  else
    let bit := if src.val = 4 then 6 else src.val
    let cause := if src.val = 4 then 4 else 1
    .next (if s.powerState = pwrSleep then
        let s := s.setReg Reg.PWR_WAKESTAT (setBit (s.reg Reg.PWR_WAKESTAT) bit true)
        (s.setFld Reg.PWR_STATE Fld.PWR_STATE.SRC cause).assertReset rstSleep
      else s.wakeBy bit cause)

/-- SLEEP_POWER_DOWN: the ledger has drained, and the device powers down. -/
def execSleepPowerDown (s : State) : Host.Outcome State Fault Refusal :=
  if s.powerState ≠ pwrSleep ∨ s.pwr.asleep then .next s
  else
    let s := State.drainQueue 600 (s.led.sent.foldl State.acceptEntry { s with led.sent := [], dlink.units := 0 })
    .next { s with pwr.asleep := true, led.lost := true }

/-- Timebases resume from their held counts. -/
def State.unparkTimebases (s : State) : State :=
  let s := s.pwr.parked.foldl (fun s e =>
    s.setTb e.1 { s.tb e.1 with running := true, zeroAt := s.now - e.2 }) s
  { s with pwr.parked := [] }

/-- PARK_EXIT (R561): at the end of PLL-B's quarantine everything resumes. -/
def State.leavePark (s : State) : State :=
  let parked := s.now - s.pwr.parkAt
  let s := s.setFld Reg.PWR_STATE Fld.PWR_STATE.STATE pwrRun
  let s := s.setReg Reg.PWR_PARKTIME (BitVec.ofNat 32 (min (2 ^ 32 - 1) (parked / esPerMs)))
  let s := { s with pwr.waking := false, pwr.resumed := some parked, bst.runFrom := s.now, t0 := s.now, prevLen := 0,
                    acq.accs := [] }
  s.unparkTimebases.bstParkExit

def execParkExit (t : Nat) (s : State) : Host.Outcome State Fault Refusal :=
  let s := s.at t
  .next (if s.powerState = pwrPark && s.pwr.waking && (s.pllServes 1 || s.pllGone 1 || !s.pllEn 1) then s.leavePark
    else s)

/-! ### Supply monitor (R589) -/

/-- SUPPLY_MONITOR_CHANGE: the rails outside the levels of the monitor, as bits VDD, VDD18, VDDA5, VEXC; VEXC is
watched while a channel is in resolver mode. -/
def execSupplyMonitorChange (rails : Fin 16) (t : Nat) (s : State) : Host.Outcome State Fault Refusal :=
  let s := s.at t
  let s := { s with pwr.rails := rails.val }
  let bad := rails.val % 8 != 0 || (hasBit rails.val 3 && [0, 1].any fun c => s.chMode c == 1)
  .next (if !bad then s.setLevel (16 + 16) false
    else if s.levelActive (16 + 16) then s
    else (s.settle.setLevel (16 + 16) true).trip [16 + 16])

end Sys2Proof.Machine
end

