-- ==== Sys2Proof/Machine/RingCtl.lean ====
section
/-! DEFINITION. Control of the rings: doorbells, enabling and disabling, RESUME and FLUSH, overflow of the event
ring (R36 to R40, R65, R67, R70, R71, R610). -/

set_option Elab.async false

namespace Sys2Proof.Machine

/-- A word of host SRAM, by its offset, carries a double-bit error, or carries none any more (R479). -/
def State.setBad (s : State) (off : Nat) (b : Bool) : State :=
  let w := off / 4 * 4
  let rest := s.hic.bad.filter (· != w)
  { s with hic.bad := if b then w :: rest else rest }

/-! ### Fetch index (R36) -/

/-- Put the fetch index and epoch of a ring where host software reads them (Table CMD-5, Table CMD-6). -/
def State.showFetch (s : State) (n : Nat) : State :=
  let r := s.sq n
  let s := s.setFld (Reg.CMD_SQn_STAT n) Fld.CMD_SQn_STAT.EPOCH r.epoch
  s.fabricWords (doorbell + 0x800 + 4 * (n % 16)) [detailOf [(0, r.fetch), (16, r.epoch)]]

/-- The slot after another, with the epoch it is in. -/
def nextSlot (size slot epoch : Nat) : Nat × Nat :=
  if size ≤ slot + 1 then (0, (epoch + 1) % 256) else (slot + 1, epoch)

/-! ### Doorbells (R38, R39) -/

/-- The fabric acts on a snooped index 4 fc after the write has reached the SRAM port. -/
def State.snooped (s : State) : State := s.at (s.now + 4 * esPerFc)

/-- A producer index; one of SIZE or more is ignored and counted. -/
def State.sqBell (s : State) (n : Nat) (w : Word) : State :=
  let pi := w.toNat % 2 ^ 12
  if s.sqSize n ≤ pi then s.count (Reg.CMD_SQn_CNT n) Fld.CMD_SQn_CNT.BADDB
  else (s.setSq n { s.sq n with pi }).refreshRings

/-- A consumer index: the records before it are consumed; one of SIZE or more is ignored. -/
def State.recBell (s : State) (m : Nat) (w : Word) : State :=
  let ci := w.toNat % 2 ^ 12
  if s.ringSize m ≤ ci then s
  else
    let r := s.ring m
    let left := (r.pi + s.ringSize m - ci) % s.ringSize m
    s.setRing m { r with ci, ticks := r.ticks.drop (r.ticks.length - left) }

/-- The event ring's consumer index: a slot that frees takes an EQ_OVERFLOW that is due. -/
def State.eqBell (s : State) (w : Word) : State := (s.recBell 4 w).postOverflow

/-- A host write of a doorbell word reaches the SRAM port. -/
def State.bellStored (s : State) (off : Nat) (w : Word) : State :=
  ((s.clearResv off 4).setSram off w).setBad off false

def execSqDoorbellWrite (ring : Fin 16) (value : Word) (s : State) : Host.Outcome State Fault Refusal :=
  .next { ((s.bellStored (doorbell + 4 * ring.val) value).snooped.sqBell ring.val value) with bus := .done }

def execCqConsumerIndexWrite (ring : Fin 4) (value : Word) (s : State) : Host.Outcome State Fault Refusal :=
  .next { ((s.bellStored (doorbell + 0x40 + 4 * ring.val) value).snooped.recBell ring.val value) with bus := .done }

def execEqConsumerIndexWrite (value : Word) (s : State) : Host.Outcome State Fault Refusal :=
  .next { ((s.bellStored (doorbell + 0x50) value).snooped.eqBell value) with bus := .done }

/-- EQ_OVERFLOW (R67). -/
def execEqOverflow (s : State) : Host.Outcome State Fault Refusal := .next s.postOverflow

/-! ### Completion rings and the event ring enabled (R65, R610) -/

/-- A ring starts at slot 0. -/
def State.recRingEnabled (s : State) (m : Nat) : State :=
  (s.setRing m {}).fabricWords (producerWord m) [0]

/-- Mappings of a march wait for the event ring (R523). -/
def State.postWaitingRepairs (s : State) : State :=
  s.bst.toPost.foldl (fun s r => s.postRepair 0 r) { s with bst.toPost := [] }

def State.recCfgWritten (s : State) (m : Nat) (wasOn : Bool) : State :=
  if s.ringEnabled m && !wasOn then
    let s := s.recRingEnabled m
    if m = 4 then s.postOverflow.postWaitingRepairs else s
  else s

/-! ### Submission rings enabled and disabled (R36, R71) -/

def State.sqStarts (s : State) (n : Nat) : State :=
  let s := s.setSqState n ringIdle
  ((s.setSq n { s.sq n with fetch := 0, epoch := 0, opened := [] }).showFetch n).refreshRings

/-- The FLUSHED record of a fetched descriptor: its slot in the completion ring is reserved. -/
def flushOf (m : Staged) : FlushRec := ⟨m.slot, m.desc.w2.toNat % 2 ^ 16, m.desc.w2.toNat / 2 ^ 16, true⟩

/-- The descriptors of a ring that have been fetched and not completed, as FLUSHED records; what a FLUSH under way
has not fetched completes no more. -/
def State.unapplied (s : State) (n : Nat) : List FlushRec :=
  (s.stagedOf n).map flushOf ++ (s.sq n).flushing.filter (·.fetched)

/-- A ring is disabled: its FLUSHED records take their PSNs with the next boundary, in ring number order, or one
per fabric cycle from the next one on while the tick is stopped (`execFlushRecordPost`). -/
def State.sqStops (s : State) (n : Nat) : State :=
  let recs := s.unapplied n
  let s := s.setSq n { s.sq n with opened := [], flushing := if s.ticking then [] else recs }
  let s := { s with cmd.staged := s.cmd.staged.filter fun c => c.ring != n }
  let s := (s.setSqState n ringDisabled).refreshRings
  if s.ticking then
    { s with cmd.disabled := s.cmd.disabled.filter (fun c => decide (c.ring ≤ n)) ++ recs.map (·.completion n) ++
        s.cmd.disabled.filter fun c => decide (n < c.ring) }
  else s

def State.sqCfgWritten (s : State) (n : Nat) (wasOn : Bool) : State :=
  if s.sqEnabled n && !wasOn then s.sqStarts n
  else if !s.sqEnabled n && wasOn then s.sqStops n
  else s.refreshRings

/-! ### RESUME, FLUSH, CLRCNT (R70) -/

/-- A halted ring that RESUME or FLUSH can act on. -/
def State.sqHalted (s : State) (n : Nat) : Bool :=
  s.sqState n == ringHalted && !s.haltedF4 && (s.sq n).flushing.isEmpty

def State.sqResume (s : State) (n : Nat) : State :=
  if s.sqHalted n then
    let r := s.sq n
    let s := s.setSq n { r with fetch := r.haltFirst, epoch := r.haltEpoch, opened := [] }
    ((s.setSqState n ringIdle).showFetch n).refreshRings
  else s

/-- The slots from the first of a halted caravan up to PI − 1. -/
def slotsTo (size pi : Nat) : Nat → Nat → Nat → List (Nat × Nat)
  | 0, _, _ => []
  | fuel + 1, slot, epoch =>
      if slot = pi then []
      else
        let x := nextSlot size slot epoch
        (slot, epoch) :: slotsTo size pi fuel x.1 x.2

/-- Host SRAM offset of a slot of a submission ring. -/
def State.slotOff (s : State) (n slot : Nat) : Nat :=
  s.fld (Reg.CMD_SQn_BASE n) Fld.CMD_SQn_BASE.OFFSET * 32 + 32 * slot

/-- The last FLUSHED record has been posted: a ring that a FLUSH held is IDLE, with the fetch index at PI. -/
def State.flushEnds (s : State) (n : Nat) : State :=
  if (s.sq n).flushing.isEmpty && s.sqState n == ringHalted then ((s.setSqState n ringIdle).showFetch n).refreshRings else s

def State.sqFlush (s : State) (n : Nat) : State :=
  if s.sqHalted n then
    let r := s.sq n
    let slots := slotsTo (s.sqSize n) r.pi (s.sqSize n) r.haltFirst r.haltEpoch
    let recs := slots.map fun e =>
      match r.opened.find? fun m => m.slot == e.1 && m.epoch == e.2 with
      | some m => flushOf m
      | none =>
          let w2 := s.sram (s.slotOff n e.1 + 8)
          ⟨e.1, w2.toNat % 2 ^ 16, w2.toNat / 2 ^ 16, false⟩
    let past := match slots.getLast? with
      | some e => nextSlot (s.sqSize n) e.1 e.2
      | none => (r.haltFirst, r.haltEpoch)
    (s.setSq n { r with fetch := past.1, epoch := past.2, opened := [], flushing := recs }).refreshRings.flushEnds n
  else s

/-- Descriptors fetched from the rings mapped to a completion ring whose records have not been posted. -/
def State.owed (s : State) (cq : Nat) : Nat :=
  let mapped := (List.range 16).filter fun n => s.fld (Reg.CMD_SQn_CFG n) Fld.CMD_SQn_CFG.CQ == cq
  (mapped.map fun n => (s.stagedOf n).length + (s.sq n).flushing.countP (·.fetched)).sum +
  (s.cmd.due ++ s.cmd.posting ++ s.cmd.disabled).countP fun c => mapped.contains c.ring

/-- The completion ring of a ring takes a FLUSHED record now: a fetched descriptor has its slot there, any other
needs one that is owed to no descriptor; a disabled completion ring discards it (R53). -/
def State.flushRoom (s : State) (n : Nat) (f : FlushRec) : Bool :=
  let cq := s.fld (Reg.CMD_SQn_CFG n) Fld.CMD_SQn_CFG.CQ
  !s.ringEnabled cq || decide ((if f.fetched then 0 else s.owed cq) < s.ringFree cq)

/-- FLUSH_RECORD_POST: in the next fabric cycle the ring's first FLUSHED record is posted, once there is room for
it. -/
def execFlushRecordPost (ring : Fin 16) (s : State) : Host.Outcome State Fault Refusal :=
  let r := s.sq ring.val
  match r.flushing with
  | [] => .next s
  | f :: rest =>
      if !s.flushRoom ring.val f then .next s
      else
        let s := s.at (s.now + esPerFc)
        let s := s.setSq ring.val { r with flushing := rest }
        .next ((s.postCompletion (f.completion ring.val)).flushEnds ring.val)

/-- CMD_SQn_CTRL: with both bits set, FLUSH alone acts. -/
def State.sqCtrlWritten (s : State) (n : Nat) (w : Word) : State :=
  let s := if Fld.CMD_SQn_CTRL.CLRCNT.on w then s.setReg (Reg.CMD_SQn_CNT n) 0 else s
  if Fld.CMD_SQn_CTRL.FLUSH.on w then s.sqFlush n
  else if Fld.CMD_SQn_CTRL.RESUME.on w then s.sqResume n else s

end Sys2Proof.Machine
end

