-- ==== Sys2Proof/Machine/RegWrite.lean ====
section
/-! DEFINITION. A write to a register: what it stores, what follows from it, and what turns it away (R6 to R10,
R47, R74; the chapters of the blocks). -/

set_option Elab.async false

namespace Sys2Proof.Machine

/-- A write on its way into a register: its master, the address, the words before and after, the bits written 1
in reached fields, and the bits that the write covers in reached fields. -/
structure Wr where
  m : Master
  a : Nat
  old : Word
  new : Word
  ones : Word
  cover : Word
  deriving DecidableEq, Repr

/-- A one-bit field that the write brings from 0 to 1. -/
def Wr.rises (x : Wr) (f : Bits) : Bool := !f.on x.old && f.on x.new

/-- Set a field that bit for bit keeps its old value. -/
def Wr.keep (x : Wr) (f : Bits) : Word := f.put (f.of x.old) x.new

/-! ### SYS -/

/-- SYS_SWSUB: GO stays 1 while a block reset is under way; an instance outside Table PWR-2 is stored with GO = 0,
a clamp. -/
def State.putSwsub (s : State) (x : Wr) : State × Bool :=
  let legal := swsubLegal (Fld.SYS_SWSUB.UNIT.of x.new) (Fld.SYS_SWSUB.INST.of x.new)
  if Fld.SYS_SWSUB.GO.on x.old then (s.setReg x.a (Fld.SYS_SWSUB.GO.put 1 x.new), !legal)
  else if legal then ((s.setReg x.a x.new).swsubGo, false)
  else (s.setReg x.a (Fld.SYS_SWSUB.GO.put 0 x.new), true)

/-- LOCK starts the capture of the committed configuration image (R73). -/
def State.putLock (s : State) (x : Wr) : State :=
  let s := s.setReg x.a x.new
  if x.rises Fld.SYS_SETUP_LOCK.LOCK then { s with pwr.capturing := true }.scanSpoilImage else s

def State.putSys (s : State) (x : Wr) : State × Bool :=
  if x.a = Reg.SYS_SWSUB then s.putSwsub x
  else if x.a = Reg.SYS_SETUP_LOCK then (s.putLock x, false)
  else if x.a = Reg.SYS_FAULTSTAT then (if s.faults.f2.isEmpty then s.setReg x.a x.new else s, false)
  else if x.a = Reg.SYS_BOOTOK then (s.bootOkWritten x.ones, false)
  else if x.a = Reg.SYS_RSTCTL then
    (let s := s.setReg x.a x.new
     s.rstctlWritten, false)
  else if x.a = Reg.SYS_RESTORE then (if Fld.SYS_RESTORE.GO.on x.ones then s.restoreGo else s, false)
  else (s.setReg x.a x.new, false)

/-! ### CLK and PWM (R126, R205, R206, R412) -/

/-- A field of a timebase or pair, or the tick source: armed by a descriptor, in the pending copy from the bus. -/
def State.armOrPend (s : State) (m : Master) (a : Nat) (w : Word) : State :=
  if m.isBus then s.pendWrite a w else s.armWrite a w

/-- A tick source that would make T_SET shorter than T_ADM raises TB0_PER in the same write; whether it does. -/
def State.raisePeriod (s : State) (m : Master) : State × Bool :=
  let a := Reg.TBn_PER 0
  let p := s.fld a Fld.TBn_PER.PERIOD
  let need := min 3200000 s.shortestPeriod
  if need ≤ p then (s, false)
  else
    let w := Fld.TBn_PER.PERIOD.put need (s.reg a)
    let s := s.armOrPend m a w
    (if m.isBus then s else s.imageWrite a 0xFFFFFFFF w, true)

def State.putTickCfg (s : State) (x : Wr) : State × Bool :=
  let s := s.armOrPend x.m x.a x.new
  if Fld.CLK_TICKCFG.SRC.of x.new = Fld.CLK_TICKCFG.SRC.of x.old then (s, false)
  else
    let r := s.raisePeriod x.m
    (r.1.refreshToll, r.2)

def State.putClk (s : State) (x : Wr) : State × Bool :=
  if x.a = Reg.CLK_TICKCFG then s.putTickCfg x
  else
    let s := s.setReg x.a x.new
    match elemOf x.a (Reg.CLK_PLLp_CFG 0) 0x20 2, elemOf x.a (Reg.CLK_PLLp_FRAC 0) 0x20 2 with
    | some p, _ => (s.pllProgrammed p (Fld.CLK_PLLp_CFG.EN.on x.old), false)
    | _, some p => (s.pllProgrammed p (s.pllEn p), false)
    | _, _ => (s, false)

/-- TBn_CFG: a change of RUN acts at once (R185). -/
def State.putTbCfg (s : State) (x : Wr) (n : Nat) : State :=
  let s := if Fld.TBn_CFG.RUN.of x.new ≠ Fld.TBn_CFG.RUN.of x.old then s.writeTbRun n x.new
    else s.armOrPend x.m x.a x.new
  if n = 0 then s.refreshToll else s

def State.putPwm (s : State) (x : Wr) : State × Bool :=
  if x.a = Reg.PWM_LDALL then (s.ldall (Fld.PWM_LDALL.TB.of x.ones), false)
  else match elemOf x.a (Reg.TBn_CFG 0) 0x20 4, elemOf x.a (Reg.PAIRk_SHD 0) 0x40 16 with
    | some n, _ => (s.putTbCfg x n, false)
    | _, some _ => (s.setReg x.a x.new, false)
    | _, _ => ((s.armOrPend x.m x.a x.new).refreshToll, false)

/-! ### CMD (R35, R36, R65, R70, R71) -/

/-- A SIZE that leaves its area ending beyond the limit moves the base: the state, and whether it did. -/
def State.refit (s : State) (base : Nat) (f : Bits) (u len : Nat) : State × Bool :=
  let w := fitBase f u len (s.reg base)
  if w = s.reg base then (s, false) else (s.setReg base w, true)

def State.putCmd (s : State) (x : Wr) : State × Bool :=
  if x.a = Reg.CMD_EVTCFG then
    (if Fld.CMD_EVTCFG.ACK.on x.ones then { s.setReg x.a x.new with cmd.evtLow := false } else s.setReg x.a x.new, false)
  else match elemOf x.a (Reg.CMD_SQn_CFG 0) 0x20 16, elemOf x.a (Reg.CMD_SQn_CTRL 0) 0x20 16,
      (List.range 5).find? fun m => x.a == ringCfg m with
    | some n, _, _ =>
        let s := s.setReg x.a x.new
        let r := s.refit (Reg.CMD_SQn_BASE n) Fld.CMD_SQn_BASE.OFFSET 32 (32 * s.sqSize n)
        (r.1.sqCfgWritten n (Fld.CMD_SQn_CFG.EN.on x.old), r.2)
    | _, some n, _ =>
        (s.sqCtrlWritten n x.ones, s.sqState n == ringHalted &&
          Fld.CMD_SQn_CTRL.RESUME.on x.ones && Fld.CMD_SQn_CTRL.FLUSH.on x.ones)
    | _, _, some m =>
        let s := s.setReg x.a x.new
        let r := s.refit (ringBase m) Fld.CMD_CQm_BASE.OFFSET 16 (16 * s.ringSize m)
        (r.1.recCfgWritten m (Fld.CMD_CQm_CFG.EN.on x.old), r.2)
    | _, _, _ => (s.setReg x.a x.new, false)

/-! ### ENG, PROT, ACQ, POS, FLD, WGH, ISK -/

/-- ENG_CFG and ENG_BINDn, whose refusals have been judged; RUN written 0 stops the engine. -/
def State.putEng (s : State) (x : Wr) : State :=
  if x.a = Reg.ENG_CFG then
    (if x.rises Fld.ENG_CFG.RUN then (match s.writeRun x.new with | .inl s' => s' | .inr _ => s)
     else
      let s := s.setReg x.a x.new
      if Fld.ENG_CFG.RUN.on x.new then s else s.stopEngine)
  else match elemOf x.a (Reg.ENG_BINDn 0) 4 256 with
    | some n => (match s.writeBind n x.new with | .inl s' => s' | .inr _ => s)
    | none => s.setReg x.a x.new

/-- Trip and safe-state configuration: the arbiter resolves anew what it depends on. -/
def State.putProt (s : State) (x : Wr) : State :=
  let old := s.settle
  let s := old.setReg x.a x.new
  if 0x0800 ≤ offsetOf x.a then s
  else
    let s := (List.range 28).foldl (fun s src => s.restartRun old src) s
    ((s.updateSafeN.reresolve 0).reresolve 1).regateAll

/-- The groups start at slot 0. -/
def State.startGroups (s : State) : State :=
  (List.range 4).foldl (fun s g => s.setGrp g { s.grp g with slot := 0, idle := s.spareIdle g }) s

/-- A change of TDAC takes effect, during a comparator test at its end (Table ACQ-6): input 12 is not checked for
1 µs. -/
def State.tdacWritten (s : State) (g : Nat) (x : Wr) : State :=
  if Fld.ACQ_GRPg_DIAG.TDAC.of x.old = Fld.ACQ_GRPg_DIAG.TDAC.of x.new then s
  else if s.dacBusy g then s.setGrp g { s.grp g with tdacHeld := true } else s.dacMoves g

def State.putAcq (s : State) (x : Wr) : State :=
  let s := s.setReg x.a x.new
  if x.a = Reg.ACQ_CFG then (if x.rises Fld.ACQ_CFG.RUN then s.startGroups.unsyncDs else s)
  else match elemOf x.a (Reg.ACQ_GRPg_DIAG 0) 0x40 4, elemOf x.a (Reg.ACQ_GRPg_URGGO 0) 0x40 4 with
    | some g, _ => s.tdacWritten g x
    | _, some g => if Fld.ACQ_GRPg_URGGO.GO.on x.ones then s.urgentGo g else s
    | _, _ => s

/-- A change of OFFSET governs from the next tick, whose RESID and DEV are not compared; the supervision counts
restart (Table POS-5). -/
def State.offsetWritten (s : State) (c : Nat) (x : Wr) : State :=
  if x.old = x.new then s
  else
    let s := s.setCh c { s.ch c with offsetTick := s.tick + 1, outvoted := 0, disagree := 0 }
    if s.paired then s.setCh (1 - c) { s.ch (1 - c) with outvoted := 0, disagree := 0 } else s

def State.putPos (s : State) (x : Wr) : State :=
  let s := s.setReg x.a x.new
  match elemOf x.a (Reg.POS_CHc_CFG 0) 0x100 2, elemOf x.a (Reg.POS_CHc_OFFSET 0) 0x100 2,
      elemOf x.a (Reg.POS_SENSVn_CFG 0) 4 2 with
  | some c, _, _ => s.modeWritten c (Fld.POS_CHc_CFG.MODE.of x.old)
  | _, some c, _ => s.offsetWritten c x
  | _, _, some n =>
      if Fld.POS_SENSVn_CFG.EN.on x.ones || x.rises Fld.POS_SENSVn_CFG.EN then s.supplyWritten n (Fld.POS_SENSVn_CFG.EN.of x.old) else s
  | _, _, _ => s

def State.putFld (s : State) (x : Wr) : State :=
  let s := s.setReg x.a x.new
  match elemOf x.a (Reg.FLD_EVs_ACT 0) 0x10 16 with
  | some i => s.actWritten i
  | none => s

def State.putWgh (s : State) (x : Wr) : State :=
  let s := s.setReg x.a x.new
  match elemOf x.a (Reg.WGH_MCm_CFG 0) 0x80 2 with
  | some m => if x.rises Fld.WGH_MCm_CFG.EN then s.wghEnable m else s
  | none => s

def State.putIsk (s : State) (x : Wr) : State :=
  let s := s.setReg x.a x.new
  match elemOf x.a (Reg.ISK_LINKl_CFG 0) 0x40 2 with
  | some l => s.linkCfgWritten l x.old
  | none => s

/-! ### CAN and ETH -/

/-- A frame of the controller is on the bus. -/
def State.canBusy (s : State) (c : Nat) : Bool :=
  (s.canCtl c).staged.any (·.started) || (s.canCtl c).tts.any (·.started)

/-- The TX ring's configuration: base and buffers follow SIZE, and EN starts or stops the ring. -/
def State.canTxCfgWritten (s : State) (c : Nat) (x : Wr) : State × Bool :=
  let r := s.refit (Reg.CAN_TXBASE c) Fld.CAN_TXBASE.OFFSET 32 (32 * s.canTxSize c)
  let q := r.1.refit (Reg.CAN_BUF c) Fld.CAN_BUF.TXBUF 64 (s.canTxSize c * s.canBuf c)
  let was := Fld.CAN_TXCFG.EN.on x.old
  let on := Fld.CAN_TXCFG.EN.on x.new
  (if on != was then q.1.canTxEnable c on else q.1, r.2 || q.2)

def State.canRxCfgWritten (s : State) (c : Nat) (x : Wr) : State × Bool :=
  let r := s.refit (Reg.CAN_RXBASE c) Fld.CAN_RXBASE.OFFSET 32 (32 * s.canRxSize c)
  let q := r.1.refit (Reg.CAN_RXBUF c) Fld.CAN_RXBUF.RXBUF 64 (s.canRxSize c * s.canBuf c)
  (if x.rises Fld.CAN_RXCFG.EN then q.1.canRxEnable c else q.1, r.2 || q.2)

def State.putCan (s : State) (x : Wr) (busy : Bool) : State × Bool :=
  let c := canOf x.a
  let s := s.setReg x.a x.new
  if x.a = Reg.CAN_CTRL c then
    (s.canCtrlWritten c (Fld.CAN_CTRL.INIT.on x.old) busy x.ones,
      Fld.CAN_CTRL.TXRESUME.on x.ones && Fld.CAN_CTRL.TXFLUSH.on x.ones)
  else if x.a = Reg.CAN_TXCFG c then s.canTxCfgWritten c x
  else if x.a = Reg.CAN_RXCFG c then s.canRxCfgWritten c x
  else (s, false)

/-- ETH_Pp_RING: bases and buffers follow the sizes, and EN starts or stops a ring. -/
def State.ethRingWritten (s : State) (p : Nat) (x : Wr) : State × Bool :=
  let a := s.refit (Reg.ETH_Pp_TXBASE p) Fld.ETH_Pp_TXBASE.OFFSET 32 (32 * s.ethTxSize p)
  let b := a.1.refit (Reg.ETH_Pp_RXBASE p) Fld.ETH_Pp_RXBASE.OFFSET 32 (32 * s.ethRxSize p)
  let c := b.1.refit (Reg.ETH_Pp_BUF p) Fld.ETH_Pp_BUF.TXBUF 2048 (2048 * s.ethTxSize p)
  let d := c.1.refit (Reg.ETH_Pp_BUF p) Fld.ETH_Pp_BUF.RXBUF 2048 (2048 * s.ethRxSize p)
  let was := Fld.ETH_Pp_RING.TXEN.on x.old
  let on := Fld.ETH_Pp_RING.TXEN.on x.new
  let s := if on != was then d.1.ethTxEnable p on else d.1
  (if x.rises Fld.ETH_Pp_RING.RXEN then s.ethRxEnable p else s, a.2 || b.2 || c.2 || d.2)

/-- The port an address of a port register belongs to. -/
def ethPortOf (a : Nat) : Nat := (offsetOf a - 0x100) / 0x100

def State.putEth (s : State) (x : Wr) : State × Bool :=
  let p := ethPortOf x.a
  let deferred := s.ticking && !x.m.isBus
  if x.a = Reg.ETH_VT_RATE then ((s.setReg x.a x.new).vtSteer deferred (.rate x.new), false)
  else if x.a = Reg.ETH_VT_STEP then (s.vtSteer deferred (.step x.ones), false)
  else if x.a = Reg.ETH_VT_CTRL then ((s.setReg x.a x.new).vtCtrlWritten deferred x.ones, false)
  else if x.a = Reg.ETH_MDIO then (s.mdioWrite x.new, false)
  else
    let s := s.setReg x.a x.new
    if x.a = Reg.ETH_Pp_RING p then s.ethRingWritten p x
    else if x.a = Reg.ETH_Pp_TXCTL p then
      (s.ethTxctlWritten p x.ones, Fld.ETH_Pp_TXCTL.TXRESUME.on x.ones && Fld.ETH_Pp_TXCTL.TXFLUSH.on x.ones)
    else (s, false)

/-! ### CHK, BST, HIC, XSP -/

/-- CHK registers; `w` is the word as written, for the write-only feeds. -/
def State.putChk (s : State) (x : Wr) : State :=
  match elemOf x.a (Reg.CHK_Un_CFG 0) 0x10 4, elemOf x.a (Reg.CHK_Un_SEED 0) 0x10 4,
      elemOf x.a (Reg.CHK_Un_DATA 0) 0x10 4, elemOf x.a (Reg.CHK_Un_DATAB 0) 0x10 4 with
  | some n, _, _, _ => (s.setReg x.a x.new).chkAlgWritten n
  | _, some n, _, _ => (s.setReg x.a x.new).chkSeedWritten n
  | _, _, some n, _ => s.chkData n (bytesOfWord x.ones)
  | _, _, _, some n => s.chkData n [x.ones.extractLsb' 0 8]
  | _, _, _, _ =>
      let s := s.setReg x.a x.new
      match elemOf x.a (Reg.CHK_SCs_CFG 0) 0x20 8 with
      | some n => if Fld.CHK_SCs_CFG.GO.on x.ones then s.scanStart n true else s
      | none => s

/-- BST_CFG: an interval begins when rotation is enabled or its period changes.  BST_KEYHASHi can only gain bits,
and only before the life-cycle leaves its first state. -/
def State.putBst (s : State) (x : Wr) : State :=
  if x.a = Reg.BST_CFG then
    let s := s.setReg x.a x.new
    if x.rises Fld.BST_CFG.ROTEN || Fld.BST_CFG.PERIOD.of x.old != Fld.BST_CFG.PERIOD.of x.new then
      { s with bst.stepAt := s.runTime }
    else s
  else if (elemOf x.a (Reg.BST_KEYHASHi 0) 4 8).isSome then
    (if s.lcs = 0 then s.setReg x.a (x.old ||| x.new) else s)
  else s.setReg x.a x.new

/-- Interrupt router, timers, watchdogs and semaphores; a write of a semaphore, claim or service word acts for the
core that makes it. -/
def State.putHic (s : State) (x : Wr) : State :=
  let core := match x.m with
    | .core c => c
    | .descriptor => 2
  if x.a = Reg.HIC_C1_CTRL then (if Fld.HIC_C1_CTRL.START.on x.ones then s.core1Start else s)
  else match elemOf x.a (Reg.HIC_CACHEc 0) 4 2, elemOf x.a (Reg.HIC_IRQc_CLAIM 0) 0x10 2,
      elemOf x.a (Reg.HIC_SEMn 0) 4 16, elemOf x.a (Reg.HIC_WDw_SVC 0) 0x20 2 with
    | some c, _, _, _ => s.cacheWritten c x.ones
    | _, some c, _, _ => s.irqComplete c x.new.toNat
    | _, _, some n, _ => s.semWrite n core x.new
    | _, _, _, some w => s.wdSvcWritten w core x.ones
    | _, _, _, _ =>
        let s := s.setReg x.a x.new
        match elemOf x.a (Reg.HIC_WDw_CFG 0) 0x20 2 with
        | some w => s.wdCfgWritten w (Fld.HIC_WDw_CFG.EN.on x.old)
        | none => if Reg.HIC_MTIMECMPc_LO 0 ≤ x.a ∧ x.a ≤ Reg.HIC_MTIMECMPc_HI 1 then s.refreshMtip else s

def State.putXsp (s : State) (x : Wr) : State :=
  if x.a = Reg.XSP_CMD then
    (if s.on Reg.XSP_STAT Fld.XSP_STAT.BUSY then s else (s.setReg x.a x.new).xspCmdWritten x.ones)
  else s.setReg x.a x.new

/-! ### Any block -/

/-- Store a write and do what follows from it: the state, and whether that clamps a further value. -/
def State.put (s : State) (x : Wr) (busy : Bool := false) : State × Bool :=
  let u := unitOf x.a
  if u = UnitCode.sys then s.putSys x
  else if u = UnitCode.clk then s.putClk x
  else if u = UnitCode.cmd then s.putCmd x
  else if u = UnitCode.eng then (s.putEng x, false)
  else if u = UnitCode.pwm then s.putPwm x
  else if u = UnitCode.prot then (s.putProt x, false)
  else if u = UnitCode.acq then (s.putAcq x, false)
  else if u = UnitCode.pos then (s.putPos x, false)
  else if u = UnitCode.fld then (s.putFld x, false)
  else if u = UnitCode.wgh then (s.putWgh x, false)
  else if u = UnitCode.isk then (s.putIsk x, false)
  else if u = UnitCode.can then s.putCan x (busy || s.canBusy (canOf x.a))
  else if u = UnitCode.eth then s.putEth x
  else if u = UnitCode.chk then (s.putChk x, false)
  else if u = UnitCode.bst then (s.putBst x, false)
  else if u = UnitCode.hic then (s.putHic x, false)
  else if u = UnitCode.xsp then (s.putXsp x, false)
  else (s.setReg x.a x.new, false)

/-- What turns a write away (R106, R125; for a descriptor also R348): what the refusal posts. -/
def State.turnedAway (s : State) (x : Wr) : Option (State → State) :=
  if x.a = Reg.ENG_CFG then
    (if x.rises Fld.ENG_CFG.RUN then (match s.writeRun x.new with | .inl _ => none | .inr r => some r) else none)
  else match elemOf x.a (Reg.ENG_BINDn 0) 4 256, elemOf x.a (Reg.WGH_MCm_CFG 0) 0x80 2 with
    | some n, _ => (match s.writeBind n x.new with | .inl _ => none | .inr r => some r)
    | _, some m =>
        if x.m.isBus || !x.rises Fld.WGH_MCm_CFG.EN then none
        else (s.mapReject m).map fun k s => s.event ⟨UnitCode.wgh, 0x804, 0, m, BitVec.ofNat 32 k⟩
    | _, _ => none

/-! ### From the bus -/

/-- The SPSTAT and SPCFG of the spare CAN controller, the same in every window (R435). -/
def canonical (a : Nat) : Nat :=
  if unitOf a = UnitCode.can ∧ blockBase ≤ a ∧ 0x3F00 ≤ canOff a ∧ canOff a < 0x3F10 then
    a - 0x4000 * canOf a
  else a

/-- RWL fields ignore bus writes while the image is being restored (R554). -/
def State.busMask (s : State) (d : RegDesc) (mask : Word) : Word :=
  if s.pwr.restoring then
    d.fields.foldl (fun m f => if f.access == .rwl then m &&& ~~~f.bits.mask else m) mask
  else mask

/-- The write that a word under a mask makes, and whether a field of it is clamped; none where no field is
reached. -/
def State.prepare (s : State) (m : Master) (a : Nat) (w mask : Word) : Option (Wr × Bool) :=
  match regAt a with
  | none => none
  | some (d, _) =>
      let mask := if m.isBus then s.busMask d mask else mask
      let cover := d.reach m s.locked &&& mask
      if cover = 0 then none
      else
        let r := s.written m a d w mask
        some (⟨m, a, s.reg a, r.1, w &&& cover, cover⟩, r.2)

/-- Clamp counter of a block (R9). -/
def clampCounter (a : Nat) : Option Nat :=
  let u := unitOf a
  if u = UnitCode.clk then some Reg.CLK_CLAMP else if u = UnitCode.cmd then some Reg.CMD_CLAMP
  else if u = UnitCode.eng then some Reg.ENG_CLAMP else if u = UnitCode.tpr then some Reg.TPR_CLAMP
  else if u = UnitCode.pwm then some Reg.PWM_CLAMP else if u = UnitCode.prot then some Reg.PROT_CLAMP
  else if u = UnitCode.acq then some Reg.ACQ_CLAMP else if u = UnitCode.pos then some Reg.POS_CLAMP
  else if u = UnitCode.fld then some Reg.FLD_CLAMP else if u = UnitCode.wgh then some Reg.WGH_CLAMP
  else if u = UnitCode.isk then some Reg.ISK_CLAMP else if u = UnitCode.thm then some Reg.THM_CLAMP
  else if u = UnitCode.can then some (Reg.CAN_CLAMP (canOf a)) else if u = UnitCode.eth then some Reg.ETH_CLAMP
  else if u = UnitCode.chk then some Reg.CHK_CLAMP else if u = UnitCode.bst then some Reg.BST_CLAMP
  else if u = UnitCode.hld then some Reg.HLD_CLAMP else if u = UnitCode.pwr then some Reg.PWR_CLAMP
  else if u = UnitCode.hic then some Reg.HIC_CLAMP else if u = UnitCode.xsp then some Reg.XSP_CLAMP
  else none

/-- Count a clamped bus write, once per write (R10). -/
def State.countClamp (s : State) (a : Nat) (c : Bool) : State :=
  if c then (clampCounter a).elim s fun r => s.count r Fld.CLK_CLAMP.COUNT else s

/-- A write that reaches a field: it is turned away, or stored with what follows from it. -/
def State.makeWrite (s : State) (a : Nat) (x : Wr) (clamped busy : Bool) : State :=
  match s.turnedAway x with
  | some report => report s
  | none =>
      let r := s.put x busy
      r.1.countClamp a (clamped || r.2)

/-- A write of an aligned word by core `c` on the bus (2: the debugger). -/
def State.busWrite (s : State) (c a : Nat) (w : Word) (busy : Bool := false) : State :=
  (s.prepare (.core c) (canonical a) w 0xFFFFFFFF).elim s fun x => s.makeWrite a x.1 x.2 busy

end Sys2Proof.Machine
end

