-- ==== Sys2Proof/Machine/Judge.lean ====
section
/-! DEFINITION. Descriptors: the checks at the fetch (R43, R46, R47, R119) and the judgement at the application,
opcode by opcode (R47, R48, R58, R59, R84). -/

set_option Elab.async false

namespace Sys2Proof.Machine

/-! ### Fields (Table CMD-13) -/

def Desc.opc (d : Desc) : Nat := (⟨0, 8⟩ : Bits).of d.w0
def Desc.cont (d : Desc) : Bool := bitAt d.w0 8
def Desc.creq (d : Desc) : Bool := bitAt d.w0 9
def Desc.fence (d : Desc) : Bool := bitAt d.w0 10
def Desc.unit (d : Desc) : Nat := (⟨16, 5⟩ : Bits).of d.w0
def Desc.inst (d : Desc) : Nat := (⟨24, 8⟩ : Bits).of d.w0
def Desc.stamp (d : Desc) : Nat := d.w1.toNat
def Desc.caravan (d : Desc) : Nat := (⟨16, 16⟩ : Bits).of d.w2
/-- W0 to W6. -/
def Desc.words (d : Desc) : List Word := [d.w0, d.w1, d.w2, d.w3, d.w4, d.w5, d.w6]

/-- A descriptor from its first seven words. -/
def descOf (ws : List Word) : Desc :=
  let w := fun i => ws.getD i 0
  ⟨w 0, w 1, w 2, w 3, w 4, w 5, w 6⟩

/-- The fold word and the check of a descriptor (R41). -/
def foldWord (ring slot epoch : Nat) : Word := detailOf [(0, ring), (8, slot), (24, epoch)]
def Desc.check (d : Desc) (ring slot epoch : Nat) : Word :=
  Crc.checkC (bytesOfWords (d.words ++ [foldWord ring slot epoch]))

/-! ### Opcodes (Table CMD-9) -/

abbrev opNop : Nat := 0x00
abbrev opRegWrite : Nat := 0x01
abbrev opRegRead : Nat := 0x02
abbrev opParamWrite : Nat := 0x03
abbrev opTableLoad : Nat := 0x04
abbrev opStallStart : Nat := 0x10
abbrev opStallStop : Nat := 0x11
abbrev opSetpoint : Nat := 0x12
abbrev opScheduleSelect : Nat := 0x13
abbrev opOutputEnable : Nat := 0x20
abbrev opOutputDisable : Nat := 0x21
abbrev opCarrierSet : Nat := 0x22
abbrev opLoadAll : Nat := 0x23
abbrev opTripClear : Nat := 0x30
abbrev opSafeRequest : Nat := 0x31
abbrev opDriveEnable : Nat := 0x32
abbrev opDischarge : Nat := 0x33
abbrev opModeSet : Nat := 0x40
abbrev opAngleEvent : Nat := 0x41
abbrev opChannelReadmit : Nat := 0x50
abbrev opBistRequest : Nat := 0x60
abbrev opUnitReadmit : Nat := 0x61
abbrev opLcsToken : Nat := 0x62
abbrev opHoldupCheck : Nat := 0x70
abbrev opLedgerNote : Nat := 0x71
abbrev opTickRealign : Nat := 0x78
abbrev opPowerState : Nat := 0x7C
abbrev opScanStart : Nat := 0x7E

/-- The opcodes of one block, with their numbers of instances; those of BST that name a unit are checked against
Table BST-1. -/
def opcodeTable : List (Nat × Nat × Nat) :=
  [(opParamWrite, UnitCode.eng, 128), (opTableLoad, UnitCode.eng, 1), (opStallStart, UnitCode.eng, 128),
   (opStallStop, UnitCode.eng, 128), (opSetpoint, UnitCode.eng, 128), (opScheduleSelect, UnitCode.eng, 1),
   (opOutputEnable, UnitCode.pwm, 1), (opOutputDisable, UnitCode.pwm, 1), (opCarrierSet, UnitCode.pwm, 4),
   (opLoadAll, UnitCode.pwm, 4)] ++
  [(opTripClear, UnitCode.prot, 1), (opSafeRequest, UnitCode.prot, 2), (opDriveEnable, UnitCode.prot, 4),
   (opDischarge, UnitCode.prot, 1), (opModeSet, UnitCode.fld, 2), (opAngleEvent, UnitCode.fld, 16),
   (opChannelReadmit, UnitCode.pos, 2), (opBistRequest, UnitCode.bst, 256), (opUnitReadmit, UnitCode.bst, 256),
   (opLcsToken, UnitCode.bst, 1)] ++
  [(opHoldupCheck, UnitCode.hld, 1), (opLedgerNote, UnitCode.hld, 1), (opTickRealign, UnitCode.clk, 1),
   (opPowerState, UnitCode.pwr, 1), (opScanStart, UnitCode.chk, 8)]

/-- A block that descriptors reach. -/
def reachable (u : Nat) : Bool := decide (u ≤ 0x15) && u != UnitCode.cmd && u != UnitCode.hic && u != UnitCode.xsp

def opcodeRow (opc : Nat) : Option (Nat × Nat × Nat) := opcodeTable.find? fun r => r.1 == opc

def opcodeDefined (opc unit : Nat) : Bool :=
  decide (opc ≤ 2) || (opcodeRow opc).any fun r => r.2.1 == unit

/-- The number of instances an opcode takes at a block. -/
def instances (opc unit : Nat) : Nat :=
  if opc = opNop then 1
  else if opc ≤ 2 then (if unit = UnitCode.can then 5 else 1)
  else ((opcodeRow opc).map (·.2.2)).getD 0

/-! ### Registers as descriptors name them (R47, R435) -/

/-- The address of a register by UNIT, INST and OFFSET; none for one that does not exist or is not reachable. -/
def descReg (unit inst off : Nat) : Option Nat :=
  let a := canonical (blockBase + 0x10000 * unit + (if unit = UnitCode.can ∧ inst < 4 then 0x4000 * inst else 0) + off)
  let window := unit != UnitCode.can || decide (off < 0x4000)
  let spare := inst != 4 || off == 0x3F00 || off == 0x3F04
  let chk := unit == UnitCode.chk && decide (0x100 ≤ off) && decide (off < 0x200)
  if off % 4 = 0 ∧ off < 0x10000 ∧ window ∧ spare ∧ !chk ∧ (regAt a).isSome then some a else none

/-- A mask has a 1 in a setup-only field, or in SYS_SETUP_LOCK. -/
def maskBad (a : Nat) (mask : Word) : Bool :=
  (a == Reg.SYS_SETUP_LOCK && mask &&& 3 != 0) ||
  (regAt a).any fun e => e.1.fields.any fun f => f.setupOnly && f.bits.on mask

/-- OFFSET of a register descriptor: bits 15 to 0 of W3. -/
def Desc.offset (d : Desc) : Nat := d.w3.toNat % 2 ^ 16

/-! ### Checks 2 to 4 of R43 -/

/-- INST and every address in the payload exist. -/
def Desc.targetBad (d : Desc) : Bool :=
  decide (instances d.opc d.unit ≤ d.inst) ||
  (if d.opc = opRegWrite then
      (match descReg d.unit d.inst d.offset with
       | some a => maskBad a d.w5
       | none => true)
   else if d.opc = opRegRead then (descReg d.unit d.inst d.offset).isNone
   else if d.opc = opParamWrite then paramBad d.w3
   else if d.opc = opSetpoint then setpointBad d.w3
   else if d.opc = opBistRequest ∨ d.opc = opUnitReadmit then !unitExists d.inst
   else if d.opc = opLcsToken then decide (sramSize < d.w3.toNat + 176)
   else false)

/-- The halt status of a descriptor by checks 2, 3 and 4. -/
def Desc.bad (d : Desc) : Option Nat :=
  if !reachable d.unit then some stHaltTarget
  else if !opcodeDefined d.opc d.unit then some stHaltOpcode
  else if d.targetBad then some stHaltTarget
  else none

/-! ### What a descriptor copies when it is fetched (R119, R527) -/

/-- The words at a source in host SRAM. -/
def State.sourceWords (s : State) (off bytes : Nat) : List Word := (List.range (bytes / 4)).map fun i => s.sram (off + 4 * i)

def State.copied (s : State) (d : Desc) : List Word :=
  if d.opc = opTableLoad then s.sourceWords d.w3.toNat (loadLen d.w5)
  else if d.opc = opLcsToken then s.sourceWords d.w3.toNat 176
  else []

/-- The checks of a TABLE_LOAD's ranges and of its source. -/
def State.loadBadAt (s : State) (d : Desc) : Option Nat :=
  if d.opc ≠ opTableLoad then none
  else if loadBad d.w3 d.w4 d.w5 then some stHaltTarget
  else if Crc.checkC (bytesOfWords (s.copied d)) ≠ d.w6 then some stHaltCheck
  else none

/-! ### Which writes reach the image alone (R59, R84) -/

/-- The instance has been taken out of service by a requested self-test: from its start until its unit serves
again. -/
def State.underRequest (s : State) (code : Nat) : Bool := s.bst.out.contains code

/-- The register belongs to an instance that no unit drives: `s` is the state as sampled (R85). -/
def State.imageOnly (s : State) (a : Nat) : Bool :=
  if !s.sealed then false
  else if unitOf a = UnitCode.pwm then
    match pairOfAddr a with
    | some k => s.isSafe (s.unitOfPair k) || s.underRequest (genUnit (s.genOf k))
    | none => false
  else if unitOf a = UnitCode.pos then
    [0, 1].any fun c => (chRegs c).contains a && s.chState c == chQuarantine
  else if unitOf a = UnitCode.prot then
    (List.range 12).any fun m =>
      (a == Reg.PROT_CMPm_CFG m || a == Reg.PROT_CMPm_THR m) && s.underRequest (0x38 + m)
  else if unitOf a = UnitCode.can then decide (canOff a < 0x3F00) && (s.canServer (canOf a)).isNone
  else false

/-! ### REG_WRITE and REG_READ -/

/-- A write to the image alone. -/
def State.writeImage (s : State) (a : Nat) (w mask : Word) : Verdict :=
  match regAt a, s.image with
  | some (d, _), some i =>
      let r := s.settled a (d.written .descriptor true (i.reg a) w mask)
      .ok (s.imageWrite a (d.reach .descriptor true &&& mask) r.1) true r.2 none
  | _, _ => .done s

/-- A write to the live register and, once there is one, to the image. -/
def State.writeLive (s : State) (a : Nat) (w mask : Word) : Verdict :=
  match s.prepare .descriptor a w mask with
  | none => .done s
  | some (x, clamped) => match s.turnedAway x with
    | some report => .noWith report
    | none =>
        let r := s.put x
        .doneClamp (r.1.imageWrite a x.cover (r.1.reg a)) (clamped || r.2)

/-- A pair register of a unit that has been loaded at this boundary follows the image into force (R86). -/
def State.afterLoad (s : State) (a : Nat) : State :=
  if unitOf a = UnitCode.pwm then
    match pairOfAddr a with
    | some k => if hasBit s.prot.loaded (s.unitOfPair k) then s.loadPairReg k a else s
    | none => s
  else s

def Verdict.map (f : State → State) : Verdict → Verdict
  | .ok s image clamped value => .ok (f s) image clamped value
  | .refused lifecycle report => .refused lifecycle report

def State.regWrite (s0 s : State) (d : Desc) : Verdict :=
  match descReg d.unit d.inst d.offset with
  | none => .done s
  | some a =>
      if s0.imageOnly a then (s.writeImage a d.w4 d.w5).map (·.afterLoad a) else s.writeLive a d.w4 d.w5

def State.regRead (s : State) (d : Desc) : Verdict :=
  match descReg d.unit d.inst d.offset with
  | none => .done s
  | some a =>
      let r := s.readReg a
      .ok r.2 false false (some r.1)

/-! ### Judgement, opcode by opcode -/

/-- A TABLE_LOAD that applies: scans in its range start anew (R505, R506). -/
def State.tableLoaded (s : State) (d : Desc) (ws : List Word) : Verdict :=
  match s.tableLoad d.w4 d.w5 ws with
  | .ok s i c v => .ok (s.scanLoaded (loadDest d.w4) (4 * ws.length)) i c v
  | .refused l r => .refused l r

/-- Descriptors of the control engine. -/
def State.judgeEngine (s : State) (d : Desc) (load : List Word) : Verdict :=
  if d.opc = opParamWrite then s.paramWrite d.inst d.w3 [d.w4, d.w5, d.w6]
  else if d.opc = opTableLoad then s.tableLoaded d load
  else if d.opc = opStallStart then s.stallStart d.inst d.w3
  else if d.opc = opStallStop then s.stallStop d.inst
  else if d.opc = opSetpoint then s.setpoint d.w3 d.w4 d.w5 d.w6
  else s.scheduleSelect d.w3

/-- Descriptors of PWM, PROT, FLD and POS. -/
def State.judgePower (s : State) (d : Desc) : Verdict :=
  if d.opc = opOutputEnable then .done (s.enablePairs (d.w3.toNat % 2 ^ 16))
  else if d.opc = opOutputDisable then .done (s.disablePairs (d.w3.toNat % 2 ^ 16))
  else if d.opc = opCarrierSet then s.carrierSet d.inst d.w3
  else if d.opc = opLoadAll then s.loadAll d.inst
  else if d.opc = opTripClear then s.tripClear d.w3 d.w4
  else if d.opc = opSafeRequest then s.safeRequest d.inst d.w3
  else if d.opc = opDriveEnable then s.driveEnable d.inst
  else if d.opc = opDischarge then s.discharge d.w3 d.w4 d.w5
  else if d.opc = opModeSet then s.modeSet d.inst d.w3 d.w4
  else if d.opc = opAngleEvent then s.angleEvent d.inst d.w3 d.w4
  else s.channelReadmit d.inst

/-- Descriptors of BST, HLD, CLK, PWR and CHK. -/
def State.judgeSystem (s : State) (d : Desc) (load : List Word) : Verdict :=
  if d.opc = opBistRequest then s.bistRequest d.inst d.w3
  else if d.opc = opUnitReadmit then s.unitReadmit d.inst
  else if d.opc = opLcsToken then s.lcsToken d.w4 load
  else if d.opc = opHoldupCheck then s.holdupCheck
  else if d.opc = opLedgerNote then .done (s.ledgerNote [d.w3, d.w4, d.w5, d.w6])
  else if d.opc = opTickRealign then s.tickRealign
  else if d.opc = opPowerState then s.powerStateSet d.w3
  else .done (s.scanStart d.inst true)

/-- A descriptor is judged, `s0` being the state sampled at the beginning of the interval (R58, R85). -/
def State.judgeDesc (s0 s : State) (d : Desc) (load : List Word) : Verdict :=
  if d.opc = opNop then .done s
  else if d.opc = opRegWrite then s0.regWrite s d
  else if d.opc = opRegRead then s.regRead d
  else if d.opc < 0x20 then s.judgeEngine d load
  else if d.opc < 0x60 then s.judgePower d
  else s.judgeSystem d load

end Sys2Proof.Machine
end

