-- ==== Sys2Proof/Machine/Rings.lean ====
section
/-! DEFINITION. Fetching descriptors, halting a ring, closing caravans and finding them late (R41 to R57). -/

set_option Elab.async false

namespace Sys2Proof.Machine

/-! ### Stamps and lateness (R49, R50, R56) -/

/-- The stamp that always means the next tick. -/
def nextTick : Nat := 0xFFFFFFFF

def Caravan.stamp (c : Caravan) : Nat := (c.members.head?.map (·.desc.stamp)).getD nextTick
def Caravan.fenced (c : Caravan) : Bool := (c.members.head?.map (·.desc.fence)).getD false
/-- Orders of the first and of the closing fetch. -/
def Caravan.firstOrder (c : Caravan) : Nat := (c.members.head?.map (·.order)).getD 0
def Caravan.lastOrder (c : Caravan) : Nat := (c.members.getLast?.map (·.order)).getD 0
def Caravan.tableLoads (c : Caravan) : Nat := c.members.countP fun m => m.desc.opc == opTableLoad

/-- The distance d of a stamp from a boundary, as a signed 32-bit number. -/
def stampAhead (stamp tick : Nat) : Int := signedOf 32 ((stamp + 2 ^ 32 - tick % 2 ^ 32) % 2 ^ 32)

/-- A stamped caravan whose boundary is past, seen from boundary `tick`. -/
def Caravan.missed (c : Caravan) (tick : Nat) : Bool :=
  c.stamp != nextTick && !c.late && decide (stampAhead c.stamp tick < 0)

/-- The next boundary whose cut-off has not yet passed. -/
def State.openBoundary (s : State) : Nat := s.tick + (if s.cmd.cutoff && s.ticking then 2 else 1)

/-- Caravans are found late: they are marked, and LATE of their rings counts. -/
def State.findLate (s : State) (p : Caravan → Bool) : State :=
  let found := s.cmd.staged.filter fun c => !c.late && p c
  let s := found.foldl (fun s c => s.count (Reg.CMD_SQn_CNT c.ring) Fld.CMD_SQn_CNT.LATE) s
  { s with cmd.staged := s.cmd.staged.map fun c => if p c then { c with late := true } else c }

/-! ### Which ring is fetched (R52, R53) -/

def stagingSize : Nat := 2048
def stagingQuota : Nat := 128

/-- The completion ring of a ring has room for one descriptor more. -/
def State.cqRoom (s : State) (n : Nat) : Bool :=
  let cq := s.fld (Reg.CMD_SQn_CFG n) Fld.CMD_SQn_CFG.CQ
  !s.ringEnabled cq || decide (s.owed cq + 1 ≤ s.ringFree cq)

/-- A ring that takes part in the fetch slots. -/
def State.fetchable (s : State) (n : Nat) : Bool :=
  let r := s.sq n
  s.sqEnabled n && s.sqState n != ringHalted && r.pi != r.fetch && decide ((s.stagedOf n).length < stagingQuota) &&
  decide (s.fld Reg.CMD_STAGE Fld.CMD_STAGE.DESC < stagingSize) && s.cqRoom n && !s.haltedF4

def State.prio (s : State) (n : Nat) : Nat := s.fld (Reg.CMD_SQn_CFG n) Fld.CMD_SQn_CFG.PRIO

/-- The ring served at a slot: the highest priority, round-robin after the ring served last among equals. -/
def State.served (s : State) : Option Nat :=
  let order := (List.range 16).map fun i => (s.cmd.lastServed + 1 + i) % 16
  (order.filter s.fetchable).foldl (fun best n => match best with
    | none => some n
    | some b => if s.prio b < s.prio n then some n else some b) none

/-! ### Halting (R44, R70) -/

/-- A ring halts at a descriptor: that completes with its halt status, and RING_HALT follows. -/
def State.haltRing (s : State) (n : Nat) (m : Staged) (status : Nat) : State :=
  let r := s.sq n
  let first := match r.opened with
    | f :: _ => (f.slot, f.epoch)
    | [] => (m.slot, m.epoch)
  let s := s.setSq n { r with haltFirst := first.1, haltEpoch := first.2 }
  let s := (s.setSqState n ringHalted).setFld (Reg.CMD_SQn_STAT n) Fld.CMD_SQn_STAT.HSLOT m.slot
  let s := s.postCompletion (completionOf n m status)
  (s.event ⟨UnitCode.cmd, 0x001, 0, 0, detailOf [(0, n), (8, status), (16, m.slot)]⟩).refreshRings

/-! ### Caravans (R43 step 5, R51) -/

/-- A member breaks the consistency of the open caravan. -/
def inconsistent (opened : List Staged) (d : Desc) : Bool :=
  match opened with
  | [] => false
  | f :: _ => f.desc.stamp != d.stamp || f.desc.caravan != d.caravan || decide (64 ≤ opened.length) ||
      (d.opc == opTableLoad && decide (2 ≤ opened.countP fun m => m.desc.opc == opTableLoad))

/-- A member joins the open caravan, which closes where CONT is clear; a stamp in the past is found late. -/
def State.join (s : State) (n : Nat) (m : Staged) : State :=
  let r := s.sq n
  if m.desc.cont then (s.setSq n { r with opened := r.opened ++ [m] }).refreshRings
  else
    let c : Caravan := ⟨n, r.opened ++ [m], s.openBoundary, false⟩
    let s := s.setSq n { r with opened := [] }
    let s := { s with cmd.staged := s.cmd.staged ++ [c] }
    let s := if s.ticking then s.findLate fun x => x == c && x.missed c.met else s
    s.refreshRings

/-! ### The fetch (R41, R43, R52) -/

/-- The status at which a fetched descriptor halts its ring, if it does. -/
def State.haltStatus (s : State) (n : Nat) (m : Staged) (w7 : Word) (broken : Bool) : Option Nat :=
  if broken || m.desc.check n m.slot m.epoch != w7 then some stHaltCheck
  else match m.desc.bad with
    | some st => some st
    | none => if inconsistent (s.sq n).opened m.desc then some stHaltCheck else s.loadBadAt m.desc

/-- A slot reads with a double-bit error. -/
def State.slotBroken (s : State) (n : Nat) : Bool := (s.firstBad (s.slotOff n (s.sq n).fetch) 8).isSome

/-- The state in which the descriptor that the next slot of a ring holds is checked: the fetch index has moved on, and
a corrected error of the slot counts (R36, R43, R479). -/
def State.fetched (s : State) (n : Nat) (ecc : Fin 3) : State :=
  let r := s.sq n
  let s := if ecc = 1 ∧ s.slotBroken n = false then s.count Reg.HIC_ECC Fld.HIC_ECC.CE else s
  let next := nextSlot (s.sqSize n) r.fetch r.epoch
  let s := { s with cmd := { s.cmd with fetches := s.cmd.fetches + 1, lastServed := n } }
  (s.setSq n { r with fetch := next.1, epoch := next.2 }).showFetch n

/-- The words of the slot that the next fetch of a ring reads, and the descriptor they hold. -/
def State.slotWords (s : State) (n : Nat) : List Word := (List.range 8).map fun i => s.sram (s.slotOff n (s.sq n).fetch + 4 * i)
def State.nextFetch (s : State) (n : Nat) : Staged :=
  ⟨descOf (s.slotWords n), (s.sq n).fetch, (s.sq n).epoch, s.cmd.fetches, []⟩

/-- Fetch the next descriptor of a ring; `ecc`: its slot reads without an error, with a corrected one, or with a
double-bit one (R479).  The halt record and RING_HALT precede SRAM_DED of the same fabric cycle (R64, R66). -/
def State.fetchFrom (s : State) (n : Nat) (ecc : Fin 3) : State :=
  let off := s.slotOff n (s.sq n).fetch
  let m := s.nextFetch n
  let broken := decide (ecc = 2) || s.slotBroken n
  let u := s.fetched n ecc
  match u.haltStatus n m ((s.slotWords n).getD 7 0) broken with
  | some st =>
      let t := u.haltRing n m st
      let a := (s.firstBad off 8).getD off
      if broken then (t.setBad a true).sramDed a else t
  | none => u.join n { m with load := u.copied m.desc }

/-- The fetch slot that follows: one every 4 fc. -/
def State.atFetchSlot (s : State) : State := s.at ((s.now / (4 * esPerFc) + 1) * (4 * esPerFc))

def execFetchSlot (ecc : Fin 3) (s : State) : Host.Outcome State Fault Refusal :=
  let s := s.atFetchSlot
  match s.served with
  | some n => .next (s.fetchFrom n ecc)
  | none => .next s

/-! ### The cut-off (R22, R56) -/

/-- CARAVAN_CUTOFF, 500 ns before the boundary: caravans stamped for an earlier boundary are late. -/
def execCaravanCutoff (s : State) : Host.Outcome State Fault Refusal :=
  if !s.ticking then .next s
  else
    let s := s.at (s.nextBoundary - nsToEs 500)
    let s := s.findLate fun c => c.missed (s.tick + 1)
    .next { s with cmd.cutoff := true }

end Sys2Proof.Machine
end

