-- ==== Sys2Proof/Machine/Caravans.lean ====
section
/-! DEFINITION. The application of caravans and the posting of their completions (R54 to R60, R62, R64, R73, R84 to
R87, R236). -/

set_option Elab.async false

namespace Sys2Proof.Machine

/-! ### Judging a caravan (R58, R59) -/

/-- A member as judged: its status in a caravan in time, the value read, and whether a value was clamped. -/
structure Judgement where
  m : Staged
  status : Nat
  value : Option Word
  clamped : Bool
  deriving DecidableEq, Repr

/-- The trial of a caravan: the state its members would leave, their judgements, and what refusals report. -/
structure Trial where
  s : State
  js : List Judgement
  reports : List (State → State)

def Trial.step (s0 : State) (t : Trial) (m : Staged) : Trial :=
  match s0.judgeDesc t.s m.desc m.load with
  | .ok s image clamped value =>
      ⟨s, t.js ++ [⟨m, if image then stDoneImage else stDone, value, clamped⟩], t.reports⟩
  | .refused lifecycle report =>
      ⟨t.s, t.js ++ [⟨m, if lifecycle then stRefusedLifecycle else stRefusedState, none, false⟩], t.reports ++ [report]⟩

/-- Try a caravan in state `s`; `s0` is the state sampled at the beginning of the interval (R85). -/
def State.tryCaravan (s0 s : State) (ms : List Staged) : Trial := ms.foldl (Trial.step s0) ⟨s, [], []⟩

/-! ### Completions (R64) -/

/-- The completion of a member by its final status: C3 holds the value read, or slot and identity. -/
def Judgement.completion (j : Judgement) (ring status : Nat) : Completion :=
  let c := completionOf ring j.m status
  match j.value with
  | some v => if status ≤ stDoneLate then { c with word3 := v } else c
  | none => c

/-- Queue a completion, which a DONE descriptor without CREQ has none of. -/
def State.queueCompletion (s : State) (m : Staged) (c : Completion) : State :=
  if c.status = stDone && !m.desc.creq then s else { s with cmd.posting := s.cmd.posting ++ [c] }

/-- The status of a member of a late caravan. -/
def lateStatus (late : Bool) (st : Nat) : Nat := if late && decide (st ≤ stDoneImage) then st + 1 else st

/-- A member has taken effect: its clamp counts (R62), and the ring's last descriptor is known (R97). -/
def State.tookEffect (s : State) (ring : Nat) (late : Bool) (j : Judgement) : State :=
  let s := if j.clamped then s.count (Reg.CMD_SQn_CNT ring) Fld.CMD_SQn_CNT.CLAMP else s
  let s := s.setSq ring { s.sq ring with last := some (j.m.slot, j.m.epoch) }
  s.queueCompletion j.m (j.completion ring (lateStatus late j.status))

/-- Nothing of a caravan takes effect: refused members report and complete so, the others with FLUSHED. -/
def State.caravanRefused (s : State) (ring : Nat) (t : Trial) : State :=
  let s := t.reports.foldl (fun s r => r s) s
  t.js.foldl (fun s j =>
    s.queueCompletion j.m (completionOf ring j.m (if stRefusedState ≤ j.status then j.status else stFlushed))) s

/-- Apply a caravan: all of it or nothing; caravans have then applied at the present boundary (R97). -/
def State.applyCaravan (s0 s : State) (c : Caravan) : State :=
  let t := s0.tryCaravan s c.members
  if t.reports.isEmpty then
    t.js.foldl (fun s j => s.tookEffect c.ring c.late j) { t.s with cmd := { t.s.cmd with lastApplied := t.s.tick } }
  else s.caravanRefused c.ring t

/-- A late caravan of a ring with LATE = 1: every member completes with FLUSHED. -/
def State.discardCaravan (s : State) (c : Caravan) : State :=
  c.members.foldl (fun s m => s.queueCompletion m (completionOf c.ring m stFlushed)) s

/-! ### Which caravans apply (R54 to R57, R73, R119, R554) -/

/-- No caravan applies while the image is captured or restored, nor at the boundary before which SEALED became 1
(R73, R554), nor after a device halt or a supply loss (R92, R97). -/
def State.applyBarred (s : State) : Bool :=
  (s.locked && !s.sealed) || s.pwr.restoring || (s.ticking && s.pwr.barTick == some s.tick) || s.haltedF4 || s.led.lost

/-- A caravan whose boundary has come: a next-tick or a late one, or one stamped for this boundary. -/
def State.caravanDue (s : State) (c : Caravan) : Bool :=
  if s.ticking then decide (c.met ≤ s.tick) && (c.stamp == nextTick || c.late || stampAhead c.stamp s.tick == 0)
  else c.stamp == nextTick

/-- FENCE holds a caravan back: one fetched before its first descriptor was still staged when the interval
began. -/
def fenceHolds (before : List Caravan) (c : Caravan) : Bool :=
  c.fenced && before.any fun x => decide (x.lastOrder < c.firstOrder)

/-- The two load buffers do not hold the TABLE_LOADs of a caravan beside those already used. -/
def State.loadsHold (s : State) (c : Caravan) : Bool :=
  c.tableLoads != 0 && decide (2 < s.cmd.loads + c.tableLoads)

/-- A ring discards its late caravans. -/
def State.discardsLate (s : State) (n : Nat) : Bool := s.on (Reg.CMD_SQn_CFG n) Fld.CMD_SQn_CFG.LATE

/-- A caravan leaves the staging buffer and applies, or is discarded. -/
def State.runCaravan (s0 s : State) (c : Caravan) : State :=
  let s := { s with cmd := { s.cmd with staged := s.cmd.staged.filter fun x => x != c } }
  if c.late && s.discardsLate c.ring then s.discardCaravan c
  else s0.applyCaravan { s with cmd.loads := s.cmd.loads + c.tableLoads } c

/-- The caravans of a ring, oldest first, up to the first that is not due or is held back. -/
def State.runRing (s0 : State) (before : List Caravan) : List Caravan → State → State
  | [], s => s
  | c :: cs, s =>
      if !s.haltedF4 && s.caravanDue c && !fenceHolds before c && !s.loadsHold c then State.runRing s0 before cs (s0.runCaravan s c)
      else s

/-- The rings in the order of promise 2. -/
def State.ringOrder (s : State) : List Nat :=
  [3, 2, 1, 0].flatMap fun p => (List.range 16).filter fun n => s.prio n == p

/-- The rings one after another; a device halt of class F4 stops the application. -/
def State.runRings (s : State) : State :=
  let before := s.cmd.staged
  s.ringOrder.foldl (fun t n => State.runRing s before (before.filter fun c => c.ring == n) t) { s with cmd.loads := 0 }

/-! ### Internal caravans and the end of the interval (R236, R336) -/

/-- The internal caravans of the machines, after every caravan of a ring. -/
def State.internalCaravans (s : State) : State :=
  [0, 1].foldl (fun s m =>
    let was := s.prot.releasing
    let r := s.internalCaravan m
    if r.2 then
      let auto := (s.bridgesOf m).filter fun b => !hasBit was b
      { r.1 with prot.autoRel := auto.foldl withBit r.1.prot.autoRel }
    else r.1) s

/-- A unit is released, unless a latch has set since the judgement or the device has halted: it leaves safe state;
monitor and field control follow. -/
def State.releaseOne (s : State) (u : Nat) : State :=
  if !s.isSafe u || !(s.latchesOn u).isEmpty || s.haltedF4 || s.led.lost then s
  else ((s.releaseUnit u).wghRelease u).fldRelease u (hasBit s.prot.autoRel u)

/-- The end of the application interval: the units named by DRIVE_ENABLE, or by TRIP_CLEAR for the auxiliary unit,
leave safe state, steering of vehicle time takes effect, and RECATCH is posted for machines that an internal caravan released. -/
def State.endInterval (s : State) : State :=
  let s := s.vtIntervalEnds
  let auto := s.prot.autoRel
  let s := (unitList s.prot.releasing).foldl State.releaseOne s
  let s := { s with prot := { s.prot with releasing := 0, autoRel := 0, loaded := 0 } }
  [0, 1].foldl (fun s m => if (s.bridgesOf m).any (hasBit auto) then s.postRecatch m else s) s

/-! ### CARAVAN_APPLICATION, STOPPED_TICK_APPLICATION, COMPLETION_POSTING -/

/-- The units that the caravans of this boundary release. -/
def State.foreseen (s : State) : Nat := s.runRings.internalCaravans.prot.releasing

/-- Units that leave safe state at this boundary are loaded from the image before any caravan applies (R86, R236). -/
def State.preload (s : State) (units : Nat) : State :=
  (unitList units).foldl State.loadUnit { s with prot.loaded := units }

/-- Every caravan that is due applies in the order of promise 2, then the internal caravans; stamped ones that
this boundary has passed over are late. -/
def State.applyInterval (s : State) : State :=
  let s := if s.applyBarred then s else (s.preload s.foreseen).runRings.internalCaravans
  let s := if s.ticking then s.findLate fun c => c.missed (s.tick + 1) else s
  s.refreshRings

/-- CARAVAN_APPLICATION: the state of the instances is sampled at t0 + 150 ns (R85), where the application interval
begins; the releases follow at its end, t0 + 250 ns (`endInterval`). -/
def execCaravanApplication (s : State) : Host.Outcome State Fault Refusal :=
  if !s.ticking then .next s else .next (s.atTick 150).applyInterval

/-- The records that have been queued take their PSNs, those of disabled rings first (R64, R71).  While ticks run,
records of rings disabled since the boundary wait for the next one. -/
def State.postQueued (s : State) : State :=
  let wait := if s.ticking then s.cmd.disabled else []
  let recs := s.cmd.due ++ (if s.ticking then [] else s.cmd.disabled) ++ s.cmd.posting
  (recs.foldl State.postCompletion
    { s with cmd := { s.cmd with disabled := wait, due := [], posting := [] } }).refreshRings

/-- STOPPED_TICK_APPLICATION: next-tick caravans apply from the cycle that follows, in 20 fc, and their records take
their PSNs in the cycle after it. -/
def execStoppedTickApplication (s : State) : Host.Outcome State Fault Refusal :=
  if s.ticking then .next s
  else
    let start := s.now + esPerFc
    let s := ((s.at start).applyInterval.at (start + 20 * esPerFc)).endInterval
    .next (s.at (s.now + esPerFc)).postQueued

/-- COMPLETION_POSTING at t0 + 255 ns. -/
def execCompletionPosting (s : State) : Host.Outcome State Fault Refusal :=
  .next (if s.ticking then s.atTick 255 else s).postQueued

/-! ### A descriptor as a command of its own -/

/-- A descriptor's words: opcode, unit, instance and payload, with CREQ, SEQ and CARAVAN_ID of its origin. -/
def mkDesc (o : Origin) (opc unit inst : Nat) (w3 w4 w5 w6 : Word) : Desc :=
  ⟨detailOf [(0, opc % 2 ^ 8), (9, o.creq.toNat), (16, unit % 2 ^ 5), (24, inst % 2 ^ 8)], 0xFFFFFFFF,
   detailOf [(0, o.seq % 2 ^ 16), (16, o.caravanId % 2 ^ 16)], w3, w4, w5, w6⟩

/-- The descriptor is not fetched: the device has halted, supply is lost, or no slot of its completion ring is left
for it (R53, R92, R97). -/
def State.descWaits (s : State) (n : Nat) : Bool := s.haltedF4 || s.led.lost || !s.cqRoom n

/-- The beginning of the application interval a descriptor applies in. -/
def State.intervalBegins (s : State) : State := if s.ticking then s.atTick 150 else s.at (s.now + esPerFc)

/-- The descriptor has passed the fetch of its ring as a caravan of one, and applies now: it is checked as R43 and R119
state, and judged and applied in the present interval.  While no caravan applies it is staged, for the next tick or as
late as it is. -/
def State.runDesc (s : State) (o : Origin) (d : Desc) : State :=
  let n := o.ring.val
  let m : Staged := ⟨d, o.slot % 2 ^ 12, o.epoch % 2 ^ 8, s.cmd.fetches, s.copied d⟩
  if s.descWaits n then s
  else
    let s := { s with cmd.fetches := s.cmd.fetches + 1 }
    match (match d.bad with | some st => some st | none => s.loadBadAt d) with
    | some st => s.haltRing n m st
    | none =>
        let c : Caravan := ⟨n, [m], s.tick, o.late⟩
        if s.applyBarred then { s with cmd.staged := s.cmd.staged ++ [c] }.refreshRings
        else
          let s := s.intervalBegins
          let s := if o.late && s.discardsLate n then s.discardCaravan c else s.applyCaravan s c
          if s.ticking then s else (s.at (s.now + 20 * esPerFc)).endInterval

end Sys2Proof.Machine
end

