-- ==== Sys2Proof/Machine/DescRows.lean ====
section
/-! DEFINITION. The descriptors as commands of their own: each is a caravan of one that applies in the present
interval (Table CMD-9). -/

set_option Elab.async false

namespace Sys2Proof.Machine

/-- NOP. -/
def execNop (o : Origin) (unit : Fin 22) (s : State) : Host.Outcome State Fault Refusal :=
  .next (s.runDesc o (mkDesc o opNop unit.val 0 0 0 0 0))

def execRegWrite (o : Origin) (unit : Fin 22) (inst : Fin 5) (offset value mask : Word) (s : State) :
    Host.Outcome State Fault Refusal :=
  .next (s.runDesc o (mkDesc o opRegWrite unit.val inst.val offset value mask 0))

def execRegRead (o : Origin) (unit : Fin 22) (inst : Fin 5) (offset : Word) (s : State) :
    Host.Outcome State Fault Refusal :=
  .next (s.runDesc o (mkDesc o opRegRead unit.val inst.val offset 0 0 0))

def execParamWrite (o : Origin) (stall : Fin 128) (w3 w4 w5 w6 : Word) (s : State) :
    Host.Outcome State Fault Refusal :=
  .next (s.runDesc o (mkDesc o opParamWrite UnitCode.eng stall.val w3 w4 w5 w6))

def execTableLoad (o : Origin) (w3 w4 w5 w6 : Word) (s : State) : Host.Outcome State Fault Refusal :=
  .next (s.runDesc o (mkDesc o opTableLoad UnitCode.eng 0 w3 w4 w5 w6))

def execStallStart (o : Origin) (stall : Fin 128) (w3 : Word) (s : State) : Host.Outcome State Fault Refusal :=
  .next (s.runDesc o (mkDesc o opStallStart UnitCode.eng stall.val w3 0 0 0))

def execStallStop (o : Origin) (stall : Fin 128) (s : State) : Host.Outcome State Fault Refusal :=
  .next (s.runDesc o (mkDesc o opStallStop UnitCode.eng stall.val 0 0 0 0))

def execSetpoint (o : Origin) (stall : Fin 128) (w3 w4 w5 w6 : Word) (s : State) :
    Host.Outcome State Fault Refusal :=
  .next (s.runDesc o (mkDesc o opSetpoint UnitCode.eng stall.val w3 w4 w5 w6))

def execScheduleSelect (o : Origin) (w3 : Word) (s : State) : Host.Outcome State Fault Refusal :=
  .next (s.runDesc o (mkDesc o opScheduleSelect UnitCode.eng 0 w3 0 0 0))

def execOutputEnable (o : Origin) (pairs : Word) (s : State) : Host.Outcome State Fault Refusal :=
  .next (s.runDesc o (mkDesc o opOutputEnable UnitCode.pwm 0 pairs 0 0 0))

def execOutputDisable (o : Origin) (pairs : Word) (s : State) : Host.Outcome State Fault Refusal :=
  .next (s.runDesc o (mkDesc o opOutputDisable UnitCode.pwm 0 pairs 0 0 0))

def execCarrierSet (o : Origin) (tb : Fin 4) (period : Word) (s : State) : Host.Outcome State Fault Refusal :=
  .next (s.runDesc o (mkDesc o opCarrierSet UnitCode.pwm tb.val period 0 0 0))

def execLoadAll (o : Origin) (tb : Fin 4) (s : State) : Host.Outcome State Fault Refusal :=
  .next (s.runDesc o (mkDesc o opLoadAll UnitCode.pwm tb.val 0 0 0 0))

def execTripClear (o : Origin) (ext int : Word) (s : State) : Host.Outcome State Fault Refusal :=
  .next (s.runDesc o (mkDesc o opTripClear UnitCode.prot 0 ext int 0 0))

def execSafeRequest (o : Origin) (bridge : Fin 2) (w3 : Word) (s : State) : Host.Outcome State Fault Refusal :=
  .next (s.runDesc o (mkDesc o opSafeRequest UnitCode.prot bridge.val w3 0 0 0))

def execDriveEnable (o : Origin) (unit : Fin 4) (s : State) : Host.Outcome State Fault Refusal :=
  .next (s.runDesc o (mkDesc o opDriveEnable UnitCode.prot unit.val 0 0 0 0))

def execDischarge (o : Origin) (method target deadline : Word) (s : State) : Host.Outcome State Fault Refusal :=
  .next (s.runDesc o (mkDesc o opDischarge UnitCode.prot 0 method target deadline 0))

def execModeSet (o : Origin) (machine : Fin 2) (mode blend : Word) (s : State) : Host.Outcome State Fault Refusal :=
  .next (s.runDesc o (mkDesc o opModeSet UnitCode.fld machine.val mode blend 0 0))

def execAngleEvent (o : Origin) (slot : Fin 16) (angle action : Word) (s : State) :
    Host.Outcome State Fault Refusal :=
  .next (s.runDesc o (mkDesc o opAngleEvent UnitCode.fld slot.val angle action 0 0))

def execChannelReadmit (o : Origin) (channel : Fin 2) (s : State) : Host.Outcome State Fault Refusal :=
  .next (s.runDesc o (mkDesc o opChannelReadmit UnitCode.pos channel.val 0 0 0 0))

def execBistRequest (o : Origin) (code : Fin 256) (kind : Word) (s : State) : Host.Outcome State Fault Refusal :=
  .next (s.runDesc o (mkDesc o opBistRequest UnitCode.bst code.val kind 0 0 0))

def execUnitReadmit (o : Origin) (code : Fin 256) (s : State) : Host.Outcome State Fault Refusal :=
  .next (s.runDesc o (mkDesc o opUnitReadmit UnitCode.bst code.val 0 0 0 0))

def execLcsToken (o : Origin) (offset length : Word) (s : State) : Host.Outcome State Fault Refusal :=
  .next (s.runDesc o (mkDesc o opLcsToken UnitCode.bst 0 offset length 0 0))

def execHoldupCheck (o : Origin) (s : State) : Host.Outcome State Fault Refusal :=
  .next (s.runDesc o (mkDesc o opHoldupCheck UnitCode.hld 0 0 0 0 0))

def execLedgerNote (o : Origin) (w3 w4 w5 w6 : Word) (s : State) : Host.Outcome State Fault Refusal :=
  .next (s.runDesc o (mkDesc o opLedgerNote UnitCode.hld 0 w3 w4 w5 w6))

def execTickRealign (o : Origin) (s : State) : Host.Outcome State Fault Refusal :=
  .next (s.runDesc o (mkDesc o opTickRealign UnitCode.clk 0 0 0 0 0))

def execPowerState (o : Origin) (target : Word) (s : State) : Host.Outcome State Fault Refusal :=
  .next (s.runDesc o (mkDesc o opPowerState UnitCode.pwr 0 target 0 0 0))

def execScanStart (o : Origin) (slot : Fin 8) (s : State) : Host.Outcome State Fault Refusal :=
  .next (s.runDesc o (mkDesc o opScanStart UnitCode.chk slot.val 0 0 0 0))

end Sys2Proof.Machine
end

