-- ==== Sys2Proof/Machine/Tick.lean ====
section
/-! DEFINITION. The control tick, instant by instant (Table ARCH-3): boundary, freeze, publication, engine start,
vote, hold, deadline, scrub and output transfer, and the commands of timebases and generators. -/

set_option Elab.async false

namespace Sys2Proof.Machine

/-! ### TICK_BOUNDARY: time and counter (R20, R22, R94) -/

/-- The boundary comes: the counter increments by one, and a tick of the announced length opens. -/
def State.openTick (s : State) : State :=
  let t1 := s.nextBoundary
  let len := s.lenAhead
  let s := (s.at t1).settle
  let s := { s with prevLen := t1 - s.t0, t0 := t1, tick := (s.tick + 1) % 2 ^ 48 }
  s.setFld Reg.CLK_TICKPER Fld.CLK_TICKPER.PERIOD len

/-- A boundary is due: ticks run, and the one due lies after the last. -/
def State.boundaryDue (s : State) : Bool := s.ticking && decide (s.t0 < s.nextBoundary)

/-- TICK_OUT is high for OUT_W fc from a boundary on while OUT_EN is 1 (Table CLK-2); before the first
boundary after a start of TB0 no tick has closed, and `prevLen` is 0. -/
def State.tickOut (s : State) : Bool :=
  s.on Reg.CLK_TICKCFG Fld.CLK_TICKCFG.OUT_EN && s.ticking && s.prevLen != 0 &&
  decide (s.now < s.t0 + s.fld Reg.CLK_TICKCFG Fld.CLK_TICKCFG.OUT_W * esPerFc)

/-! ### The first boundary after PARK (R562) -/

def State.resumeChannel (s : State) (c : Nat) : State :=
  if s.chState c = chTrack ∨ s.chState c = chCoast then s.enterCheck c false else s

def State.resumeMachine (s : State) (m : Nat) : State :=
  let s := (s.clearLost m).enterIdle m
  let s := s.setFm m { s.fm m with est := (s.fm m).est.reinit, plan := 0, catchDue := false }
  let s := ((s.setWghStat m Fld.WGH_MCm_STAT.BANDC 0).setWghStat m Fld.WGH_MCm_STAT.PRIC 0)
  s.setWm m { s.wm m with sign := 0, startc := 0, blind := 0, last := none }

/-- No block resumes with dynamic state from before PARK. -/
def State.resumeBlocks (s : State) : State :=
  match s.pwr.resumed with
  | none => s
  | some d =>
      let s := { s with pwr.resumed := none }
      let s := (s.resumeChannel 0).resumeChannel 1
      ((s.resumeMachine 0).resumeMachine 1).thermalDecay d

/-! ### Outputs and the hold (R166, R178, R221) -/

/-- At the next boundary the sinks take again what they had (R166). -/
def State.holdsBank (s : State) : Bool := s.holdInForce && s.fld Reg.TPR_STAT Fld.TPR_STAT.HLEFT != 0

/-- What the sinks take: during a hold, and where no vote has staged anything, what they had. -/
def State.boundaryBank (s : State) : List Held :=
  if s.holdsBank then s.eng.applied else s.eng.transfer.getD s.eng.applied

/-- A boundary of a hold: one fewer remains, or the hold has run out. -/
def State.holdTick (s : State) : State :=
  let left := s.fld Reg.TPR_STAT Fld.TPR_STAT.HLEFT
  if !s.holdInForce then s
  else if left = 0 then { s.setFld Reg.TPR_STAT Fld.TPR_STAT.HOLD 0 with eng.expired := true }
  else (s.setFld Reg.TPR_STAT Fld.TPR_STAT.HLEFT (left - 1)).checkApplied

/-- The safe state that an error of the bank in force commands at this boundary. -/
def State.commandNext (s : State) (units : Nat) : State :=
  if units = 0 then s else s.commandSafe units 1

/-- Source 17 becomes inactive at the first later boundary at which no hold is in force. -/
def State.settle17 (s : State) : State :=
  if s.holdInForce || decide (s.tick ≤ s.eng.safeTick) then s
  else (s.endCause (16 + 17) 0).endCause (16 + 17) 1

def State.holdBoundary (s : State) : State :=
  let units := s.eng.safeNext
  let s := { s with eng.safeNext := 0 }.settle17
  (s.holdTick).commandNext units

/-- A pair takes the duty and the mask word of its sinks; one that the end of a hold puts into safe state takes
none. -/
def State.deliverPair (bank : List Held) (s : State) (k : Nat) : State :=
  if s.eng.expired && hasBit s.eng.holdUnits (s.unitOfPair k) then s
  else
    let p := s.pair k
    s.setPair k { p with boundNext := (s.deliveredTo bank k).or p.boundNext,
                         maskNext := (s.deliveredTo bank (0x030 + k)).or p.maskNext }

/-- The sinks take their outputs: PWM, field control and the weigh-house; the Isnak buffer reads the bank in
force. -/
def State.deliver (s : State) (bank : List Held) : State :=
  let bad := if bank = s.eng.applied then s.eng.badApplied else []
  let s := { s with eng.applied := bank, eng.transfer := none, eng.badApplied := bad }
  let s := (List.range 16).foldl (State.deliverPair bank) s
  ((s.wghDeliver bank 0).wghDeliver bank 1)

/-- The armed sets of TB0 transfer, and its divisor changes, with SYNC = 1 not before its zero (R192, R194, R205). -/
def State.updateTb0 (s : State) : State :=
  let s := s.transferSet 0
  if s.synced then s else s.takeDivisor 0 s.thm.div

/-! ### Windows, snapshot and the other blocks -/

/-- The windows of acquisition and of the gate balls close (R24, R251, R267, R391). -/
def State.closeWindows (s : State) : State :=
  let s := s.closeSarWindows.closeDsWindows
  (List.range 16).foldl (fun s k => s.setPair k ((s.pair k).closeWindow s.t0)) s

/-- Every HIC_TICKDIV-th boundary raises interrupt source 24 (R481). -/
def State.tickIrq (s : State) : State :=
  if s.tick % (max 1 (s.fld Reg.HIC_TICKDIV Fld.HIC_TICKDIV.DIV)) = 0 then s.edgeIrq 24 else s

/-- What the other blocks do at a boundary. -/
def State.blocksBoundary (s : State) : State :=
  let s := (s.linkBoundary 0).linkBoundary 1
  let s := s.adcBoundary.canBoundary.dlinkBoundary
  s.ethBoundary.vtLatch.scanBoundary.tickIrq

/-- A boundary at which PARK or SLEEP is entered (R560, R563). -/
def State.parkBoundary (s : State) : State :=
  match s.pwr.enterAt with
  | some (k, target) => if k ≤ s.tick then s.enterPark target else s
  | none => s

/-- The boundary, in the order of its effects; `flips` disturbs the holding registers. -/
def State.boundary (s : State) (flips : List BankFlip) : State :=
  let bank := (s.flipBanks flips).boundaryBank
  let s := (s.flipBanks flips).openTick
  let s := { s with
    cmd := { s.cmd with cutoff := false, due := s.cmd.due ++ s.cmd.disabled, disabled := [] }
    faults.atTick := s.on Reg.SYS_FAULTSTAT Fld.SYS_FAULTSTAT.F2
    eng := { s.eng with touched := [], prior := s.eng.staged, frozen := false } }.openBatch
  let s := s.resumeBlocks.holdBoundary
  let s := (s.deliver bank).thermalBoundary.updateTb0
  let s := s.closeWindows.takeoverCores.latchPos
  let s := (s.fieldBoundary bank).blocksBoundary
  s.closeBatch.parkBoundary

/-- TICK_BOUNDARY (R22). -/
def execTickBoundary (flips : List BankFlip) (s : State) : Host.Outcome State Fault Refusal :=
  if s.boundaryDue then .next (s.boundary flips) else .next s

/-! ### WINDOW_FREEZE and SIGNAL_PUBLISH (R22, R230, R309) -/

/-- WINDOW_FREEZE at t0 + 50 ns: the accumulators of the closed window are copied. -/
def execWindowFreeze (s : State) : Host.Outcome State Fault Refusal :=
  .next ((s.atTick 50).freezeSar).freezeDs

/-- The words of the tick itself: T_NOW, FAULT_DERATE, T_PREV and TICK. -/
def State.publishTick (s : State) : State :=
  let s := s.publishReal 0x100 (esToSec (s.fld Reg.CLK_TICKPER Fld.CLK_TICKPER.PERIOD))
  let f := if s.faults.atTick then mkRat (s.fld Reg.SYS_FAULTCFG Fld.SYS_FAULTCFG.DERATE) 256 else 1
  ((s.publishReal 0x102 f).publishReal 0x103 (esToSec s.prevLen)).publish 0x104 (BitVec.ofNat 32 s.tick)

/-- Speeds of the sources of a bridge's standing choice, as magnitudes: channel A, channel B, the sensorless
estimate of its machine. -/
def State.speedOf (s : State) (b i : Nat) : Option Rat :=
  let m := if s.paired then 0 else b
  if i < 2 then (if s.chWord i 4 = 1 then some (Num.absR (Num.val (s.chWord i 1))) else none)
  else if s.sValid m then some (Num.absR (Num.val (s.sOmega m))) else none

/-- The speed of a bridge's standing choice by SPDSRC; 3 takes the largest valid one. -/
def State.standSpeed (s : State) (b : Nat) : Option Rat :=
  let i := s.fld (Reg.PROT_BRb_CFG b) Fld.PROT_BRb_CFG.SPDSRC
  if i < 3 then s.speedOf b i
  else ((List.range 3).filterMap (s.speedOf b)).max?

/-- The link voltage of a bridge's standing choice. -/
def State.standVolt (s : State) (b : Nat) : Option Rat :=
  let k := s.fld (Reg.PROT_BRb_CFG b) Fld.PROT_BRb_CFG.VDCIN
  if s.inputValid k then some (s.avgOf k) else none

/-- The arbiter at t0 + 150 ns. -/
def State.standTick (s : State) : State :=
  let s := [0, 1].foldl (fun s b => s.updateStanding b (s.standSpeed b) (s.standVolt b)) s
  (s.standEnds 0).standEnds 1

/-- The measurements are published, with the words of the tick. -/
def State.publishWindows (s : State) : State :=
  s.publishTick.publishSar.publishAllDs.publishPos

/-- Field control, weigh-house, discharge, thermal management and the link status, from the published values. -/
def State.evaluate (s : State) (power tCore tField : Word) : State :=
  let s := (s.fieldMachine 0).fieldMachine 1
  let s := s.supervise
  let s := ((s.weigh 0).weigh 1).disBoundary
  let s := s.thermal power tCore tField
  ((s.publishLink 0).publishLink 1).publishSlots.standTick

/-- SIGNAL_PUBLISH at t0 + 150 ns; in PARK the windows alone are published (R560).  `power` is the dissipation in W,
`tCore` and `tField` the dies' temperatures. -/
def execSignalPublish (power tCore tField : Word) (s : State) : Host.Outcome State Fault Refusal :=
  let s := (s.atTick 150).openBatch.publishWindows
  .next (if s.powerState = pwrRun then s.evaluate power tCore tField else s).closeBatch

/-! ### ENGINE_START, VOTE_PHASE, HOLD_EXPIRY -/

/-- T_NEXT and CLK_TICKPER_NEXT are published (R27). -/
def State.publishNext (s : State) : State :=
  let len := s.lenAhead
  (s.setFld Reg.CLK_TICKPER_NEXT Fld.CLK_TICKPER_NEXT.PERIOD len).publishReal 0x101 (esToSec len)

/-- ENGINE_START at t0 + 250 ns: the application interval ends, T_NEXT is published, and the passes run.  `upsets`
are transient faults of the passes, `stop` is where the deadline finds the engine, `mismatch` and `lost` name the
classes whose spare units mismatch a watch, or whose serving units fail. -/
def execEngineStart (upsets : List Upset) (stop : Option EngineStop) (mismatch lost : Nat) (s : State) :
    Host.Outcome State Fault Refusal :=
  if !s.ticking then .next s
  else
    let s := (s.atTick 250).openBatch.endInterval.closeBatch
    .next ((s.publishNext).startEngine upsets stop mismatch lost)

/-- VOTE_PHASE (R163), when pass C has ended. -/
def execVotePhase (copies : Option Nat) (saltFail : Option Bool) (s : State) : Host.Outcome State Fault Refusal :=
  .next (s.vote copies saltFail)

/-- HOLD_EXPIRY (R166), at the boundary at which a hold has run out. -/
def execHoldExpiry (s : State) : Host.Outcome State Fault Refusal :=
  if !s.eng.expired then .next s
  else
    let units := s.eng.holdUnits
    let held := s.fld Reg.TPR_CFG Fld.TPR_CFG.HOLD
    let s := { s with eng.expired := false, eng.holdUnits := 0 }
    let s := s.event ⟨UnitCode.tpr, 0x202, 0, 0, detailOf [(0, held), (8, units)]⟩
    .next (s.commandSafe units 0)

/-! ### Deadline, scrub, transfer -/

/-- An instant before the closing boundary of the tick under way, in ns. -/
def State.beforeBoundary (s : State) (ns : Nat) : State := s.at (s.nextBoundary - nsToEs ns)

/-- ENGINE_DEADLINE (R127): a vote that is not complete is a deadline miss. -/
def execEngineDeadline (s : State) : Host.Outcome State Fault Refusal :=
  let s := s.beforeBoundary 350
  .next (if s.engRun && s.eng.started && !s.eng.voted then s.deadlineMiss else s)

/-- STATE_SCRUB (R174). -/
def execStateScrub (s : State) : Host.Outcome State Fault Refusal :=
  let s := if s.ticking then s.beforeBoundary 200 else s
  .next (if s.ticking then s.scrub else s)

/-- Both banks are checked, and the staged outputs go to the shadows of the sinks. -/
def State.transferOutputs (s : State) : State :=
  let s := s.checkApplied.checkStaged
  { s with eng.transfer := some s.eng.staged }

/-- OUTPUT_TRANSFER (R178); in a tick of a hold whose closing boundary applies the held outputs again, nothing
transfers (R166). -/
def execOutputTransfer (flips : List BankFlip) (s : State) : Host.Outcome State Fault Refusal :=
  let s := (s.beforeBoundary 350).flipBanks flips
  .next (if s.holdsBank then s else s.transferOutputs)

/-! ### Timebases and generators -/

/-- TIMEBASE_ZERO (R186); `mismatch` has the bits of the spare generators whose edges differed from those of the
pair they shadow (R212). -/
def execTimebaseZero (tb : Fin 4) (mismatch : Nat) (s : State) : Host.Outcome State Fault Refusal :=
  .next (s.zero tb.val s.thm.div mismatch)

/-- HALF_PERIOD_POINT (R186). -/
def execHalfPeriodPoint (tb : Fin 4) (s : State) : Host.Outcome State Fault Refusal :=
  .next (s.halfPoint tb.val)

/-- GATE_READBACK_FAIL (R213): a ball of `pair` differs from its generator's output 32 es after an edge. -/
def execGateReadbackFail (pair : Fin 16) (s : State) : Host.Outcome State Fault Refusal :=
  .next (s.readbackFail pair.val)

end Sys2Proof.Machine
end

