-- ==== Sys2Proof/Machine/MemAccess.lean ====
section
/-! DEFINITION. Accesses of a host core to the memory map: SRAM with its aliases, caches, check bits and
reservations, engine memories, ledger store, flash windows and register blocks (R38, R118, R476 to R479). -/

set_option Elab.async false

namespace Sys2Proof.Machine

/-! ### Traps -/

/-- A trap ends the reservation of its core (R477). -/
def State.trapCore (s : State) (c : Nat) (r : BusResult) : State :=
  { s with bus := r, hic.resv := s.hic.resv.filter fun e => e.1 != c }

/-- The core takes an access fault; nothing is written (R478). -/
def State.accessFault (s : State) (c : Nat) : State := s.trapCore c .accessFault

def State.gives (s : State) (v : Word) : State := { s with bus := .value v }
def State.stored (s : State) : State := { s with bus := .done }

/-! ### Parts of a word -/

/-- Bytes of an access of width code `wd`: 1, 2 or 4. -/
def widthBytes (wd : Nat) : Nat := if wd = 0 then 1 else if wd = 1 then 2 else 4

/-- The part of a word that an access at an address reads, with zeros above. -/
def partOf (w : Word) (a wd : Nat) : Word :=
  let v := w >>> (8 * (a % 4))
  if wd = 0 then v &&& 0xFF else if wd = 1 then v &&& 0xFFFF else v

/-- A word with the part at an address replaced. -/
def mergeInto (w v : Word) (a wd : Nat) : Word :=
  let m : Word := if wd = 0 then 0xFF else if wd = 1 then 0xFFFF else 0xFFFFFFFF
  let k := 8 * (a % 4)
  (w &&& ~~~(m <<< k)) ||| ((v &&& m) <<< k)

/-! ### Host SRAM (R479) -/

/-- Offset of an address in either alias of host SRAM. -/
def sramOffset (a : Nat) : Option Nat :=
  if inCached a then some (a - sramBase) else if inUncached a then some (a - uncachedBase) else none

/-- What the check bits of a word show at an access: 1 a corrected error, 2 a double-bit error; a word that is
known to be bad shows one. -/
def State.eccOf (s : State) (off ecc : Nat) : Nat := if s.sramBad off then 2 else ecc

/-- A read of a word of host SRAM by a core: none where it carries a double-bit error. -/
def State.sramRead (s : State) (off ecc : Nat) : Option Word × State :=
  match s.eccOf off ecc with
  | 0 => (some (s.sram (off / 4 * 4)), s)
  | 1 => (some (s.sram (off / 4 * 4)), s.count Reg.HIC_ECC Fld.HIC_ECC.CE)
  | _ => (none, (s.setBad off true).sramDed off)

/-- The fabric acts on a host write to a doorbell word (Table CMD-6, Table CAN-2, Table ETH-1). -/
def State.bellWritten (s : State) (o : Nat) (w : Word) : State :=
  if o < 0x40 then s.snooped.sqBell (o / 4) w
  else if o < 0x50 then s.snooped.recBell ((o - 0x40) / 4) w
  else if o = 0x50 then s.snooped.eqBell w
  else if 0x100 ≤ o ∧ o < 0x120 then
    (if o % 8 = 0 then s.snooped.canTxBell ((o - 0x100) / 8) w else s.snooped.canRxBell ((o - 0x100) / 8) w)
  else if 0x200 ≤ o ∧ o < 0x210 then
    (if o % 8 = 0 then s.snooped.ethTxBell ((o - 0x200) / 8) w else s.snooped.ethRxBell ((o - 0x200) / 8) w)
  else s

/-- A core's write ends the other core's reservation on the word (R477). -/
def State.clearOther (s : State) (c off : Nat) : State :=
  { s with hic.resv := s.hic.resv.filter fun r => r.1 == c || r.2 != off }

/-- A word reaches host SRAM from a core; a write within the doorbell page is snooped, unless the word kept a byte
of a double-bit error. -/
def State.sramStore (s : State) (c off : Nat) (w : Word) (spoilt : Bool) : State :=
  let s := (((s.clearOther c off).setSram off w).setBad off false).scanSpoil (sramBase + off) 4
  if doorbell ≤ off ∧ !spoilt then s.bellWritten (off - doorbell) w else s

/-- A store of a core to host SRAM, of width code `wd`. -/
def State.sramWrite (s : State) (c off : Nat) (v : Word) (wd ecc : Nat) : State :=
  let o := off / 4 * 4
  if wd = 2 then s.sramStore c o v false
  else
    let e := s.eccOf off ecc
    let w := mergeInto (s.sram o) v off wd
    if e = 2 then (s.sramDed off).sramStore c o w true
    else (if e = 1 then s.count Reg.HIC_ECC Fld.HIC_ECC.CE else s).sramStore c o w false

/-! ### Caches (R476) -/

/-- The word that a cache of a core holds for an address, where it hits. -/
def State.cacheGet (s : State) (inst : Bool) (c a : Nat) (hit : Bool) : Option Word :=
  if hit then ((s.cached inst c).find? fun e => e.1 == a / 4 * 4).map (·.2) else none

/-- A word enters a cache. -/
def State.cachePut (s : State) (inst : Bool) (c a : Nat) (w : Word) : State :=
  s.setCached inst c ((a / 4 * 4, w) :: (s.cached inst c).filter fun e => e.1 != a / 4 * 4)

/-- A store through the cached alias brings a word that the data cache holds up to date: write-through, without
allocation. -/
def State.cacheStore (s : State) (c a : Nat) (v : Word) (wd : Nat) (hit : Bool) : State :=
  match s.cacheGet false c a hit with
  | some w => s.cachePut false c a (mergeInto w v a wd)
  | none => s.setCached false c ((s.cached false c).filter fun e => e.1 != a / 4 * 4)

/-! ### Reads -/

/-- A read of the cached alias, through the instruction or the data cache. -/
def State.readCached (s : State) (inst : Bool) (c a wd ecc : Nat) (hit : Bool) : State :=
  match s.cacheGet inst c a hit with
  | some w => s.gives (partOf w a wd)
  | none => match s.sramRead (a - sramBase) ecc with
    | (some w, s) => (s.cachePut inst c a w).gives (partOf w a wd)
    | (none, s) => s.accessFault c

def State.readUncached (s : State) (c a wd ecc : Nat) : State :=
  match s.sramRead (a - uncachedBase) ecc with
  | (some w, s) => s.gives (partOf w a wd)
  | (none, s) => s.accessFault c

/-- A read of a flash window: `flash` is the word the device gives, none where its strobe does not come.  In 1S mode,
which has no strobe, the word read is then a free value. -/
def State.readFlash (s : State) (inst : Bool) (c a wd : Nat) (hit : Bool) (flash : Option Word) : State :=
  match s.cacheGet inst c a hit, flash with
  | some w, _ => s.gives (partOf w a wd)
  | none, some w => (s.cachePut inst c a w).gives (partOf w a wd)
  | none, none =>
      if s.on Reg.XSP_CFG Fld.XSP_CFG.MODE then s.xspTimeout c ((a - flashBase) / 0x8000000)
      else
        let (i, s) := s.takeFree
        (s.cachePut inst c a (Config.freeWord i)).gives (partOf (Config.freeWord i) a wd)

/-- The word of a register block or of an engine memory, ledger store or stall view: whole words alone. -/
def State.readWord (s : State) (c a wd : Nat) : State :=
  if wd ≠ 2 then s.accessFault c
  else if inBlocks a then
    let r := s.busRead c a
    r.2.gives r.1
  else match s.mapWord a with
    | some w => s.gives w
    | none => s.accessFault c

/-- An access to the boot ROM: core 0 has none once its PMP region 15 is locked over it (R491). -/
def State.readRom (s : State) (c a wd : Nat) : State :=
  if s.hic.romLocked && c == 0 then s.accessFault c else s.gives (partOf (romWord (a / 4 * 4)) a wd)

/-- A load. -/
def State.coreLoad (s : State) (c a wd ecc : Nat) (hit : Bool) (flash : Option Word) : State :=
  if inRom a then s.readRom c a wd
  else if inCached a then s.readCached false c a wd ecc hit
  else if inUncached a then s.readUncached c a wd ecc
  else if inFlash a then s.readFlash false c a wd hit flash
  else s.readWord c a wd

/-- An instruction fetch: executable ranges alone. -/
def State.coreFetch (s : State) (c a wd ecc : Nat) (hit : Bool) (flash : Option Word) : State :=
  if inRom a then s.readRom c a wd
  else if inCached a then s.readCached true c a wd ecc hit
  else if inUncached a then s.readUncached c a wd ecc
  else if inFlash a then s.readFlash true c a wd hit flash
  else s.accessFault c

/-! ### Writes -/

/-- A write to recipe or table memory (R118): read-only from setup lock on, ignored during a restore (R554). -/
def State.engineStore (s : State) (c a : Nat) (v : Word) : State :=
  if s.locked then s.accessFault c
  else if s.pwr.restoring then s.stored
  else ((s.setWord a v).scanSpoil a 4).stored

/-- A word written to a register block. -/
def State.blockStore (s : State) (c a : Nat) (v : Word) (busy : Bool := false) : State :=
  ((s.busWrite c a v busy).scanSpoil a 4).stored

/-- A store. -/
def State.coreStore (s : State) (c a : Nat) (v : Word) (wd ecc : Nat) (hit : Bool) : State :=
  match sramOffset a with
  | some off =>
      let s := if inCached a then s.cacheStore c a v wd hit else s
      (s.sramWrite c off v wd ecc).stored
  | none =>
      if wd ≠ 2 then s.accessFault c
      else if inBlocks a then s.blockStore c a v
      else if inEngineMem a then s.engineStore c a v
      else s.accessFault c

/-! ### LR, SC and AMO (R477) -/

/-- The result of an AMO on the word in memory. -/
def amoResult (op : CoreOp) (old v : Word) : Word :=
  match op with
  | .amoSwap => v
  | .amoAdd => old + v
  | .amoXor => old ^^^ v
  | .amoAnd => old &&& v
  | .amoOr => old ||| v
  | .amoMin => if old.toInt ≤ v.toInt then old else v
  | .amoMax => if v.toInt ≤ old.toInt then old else v
  | .amoMinu => if old.toNat ≤ v.toNat then old else v
  | .amoMaxu => if v.toNat ≤ old.toNat then old else v
  | _ => old

def State.dropResv (s : State) (c : Nat) : State :=
  { s with hic.resv := s.hic.resv.filter fun r => r.1 != c }

def State.loadReserved (s : State) (c off ecc : Nat) : State :=
  match s.sramRead off ecc with
  | (some w, s) => { s.dropResv c with hic.resv := (c, off) :: (s.dropResv c).hic.resv }.gives w
  | (none, s) => s.accessFault c

/-- SC: 0 with the word written where the reservation stands, else 1. -/
def State.storeConditional (s : State) (c off : Nat) (v : Word) : State :=
  if s.hic.resv.contains (c, off) then ((s.dropResv c).sramStore c off v false).gives 0
  else (s.dropResv c).gives 1

def State.amo (s : State) (c off : Nat) (op : CoreOp) (v : Word) (ecc : Nat) : State :=
  match s.sramRead off ecc with
  | (some w, s) => (s.sramStore c off (amoResult op w v) false).gives w
  | (none, s) => s.accessFault c

/-- An atomic access: whole words of the uncached alias alone. -/
def State.atomic (s : State) (c a : Nat) (op : CoreOp) (v : Word) (wd ecc : Nat) : State :=
  if !inUncached a || wd != 2 then s.accessFault c
  else
    let off := a - uncachedBase
    match op with
    | .lr => s.loadReserved c off ecc
    | .sc => s.storeConditional c off v
    | _ => s.amo c off op v ecc

/-! ### CORE_MEMORY_ACCESS -/

/-- An access whose address is no multiple of its width: the core's own exception, or an access fault at a register
block. -/
def State.misaligned (s : State) (c a : Nat) : State :=
  s.trapCore c (if inBlocks a then .accessFault else .misaligned)

/-- Core `c` accesses address `a` with width code `wd` (bytes, half-words, words).  `hit`: a cache that holds the
word still does; `ecc`: what the check bits of the SRAM word show; `flash`: what a flash device answers. -/
def State.access (s : State) (c : Nat) (op : CoreOp) (a wd : Nat) (v : Word) (hit : Bool) (ecc : Nat)
    (flash : Option Word) : State :=
  if a % widthBytes wd ≠ 0 then s.misaligned c a
  else match op with
    | .fetch => s.coreFetch c a wd ecc hit flash
    | .load => s.coreLoad c a wd ecc hit flash
    | .store => s.coreStore c a v wd ecc hit
    | op => s.atomic c a op v wd ecc

def execCoreMemoryAccess (core : Fin 2) (op : CoreOp) (width : Fin 3) (addr value : Word) (hit : Bool) (ecc : Fin 3)
    (flash : Option Word) (s : State) : Host.Outcome State Fault Refusal :=
  .next (s.access core.val op addr.toNat width.val value hit ecc.val flash)

end Sys2Proof.Machine
end

