-- ==== Sys2Proof/Machine/ImageCmds.lean ====
section
/-! DEFINITION. The committed configuration image: the end of its capture, and its restoring (R73, R553, R554). -/

set_option Elab.async false

namespace Sys2Proof.Machine

/-! ### IMAGE_SEALED (R73) -/

/-- SEALED becomes 1: caravans apply from the next boundary on (R73, R554). -/
def State.barBoundary (s : State) : State := { s with pwr.barTick := some s.tick }

/-- The capture is complete. -/
def State.sealImage (s : State) : State :=
  let i := s.captureImage
  let s := { s with image := some i, pwr.capturing := false }.barBoundary
  let s := (s.setFld Reg.SYS_SETUP_LOCK Fld.SYS_SETUP_LOCK.SEALED 1).setFld Reg.SYS_RESTORE Fld.SYS_RESTORE.IMGOK 1
  s.event ⟨UnitCode.cmd, 0x003, 0, 0, i.sealCrc⟩

def execImageSealed (s : State) : Host.Outcome State Fault Refusal :=
  if s.pwr.capturing then .next s.sealImage else .next s

/-! ### RESTORE_DONE (R554) -/

/-- The inverse flux map and its directories (R618). -/
def isMapAddr (a : Nat) : Bool := unitOf a == UnitCode.wgh && decide (0x0200 ≤ offsetOf a)

/-- Image registers that an image or the live state lists, flux maps first. -/
def State.restoreOrder (s : State) (i : Image) : List Nat :=
  let as := i.regs.map (·.1) ++ (s.regs.map (·.1)).filter fun a => imageMask a != 0
  as.filter isMapAddr ++ as.filter fun a => !isMapAddr a

/-- A register word as the image gives it. -/
def State.restored' (s : State) (i : Image) (a : Nat) : Word := blend (imageMask a) (i.reg a) (s.reg a)

/-- Bring a register to its image word, unless it equals it.  RUN of a timebase, the engine's configuration and the
Isnak links follow at the end. -/
def State.restoreReg (i : Image) (s : State) (a : Nat) : State :=
  let new := s.restored' i a
  if new = s.reg a ∨ a = Reg.ENG_CFG then s
  else if (elemOf a (Reg.TBn_CFG 0) 0x20 4).isSome then
    let w := Fld.TBn_CFG.RUN.put (Fld.TBn_CFG.RUN.of (s.reg a)) new
    (s.setReg a w).force a w
  else if unitOf a = UnitCode.pwm ∨ a = Reg.CLK_TICKCFG then (s.setReg a new).force a new
  else if unitOf a = UnitCode.eng ∨ unitOf a = UnitCode.isk then s.setReg a new
  else (s.put ⟨.core 0, a, s.reg a, new, 0, imageMask a⟩).1

/-- Recipe and table memory as the image holds them. -/
def State.restoreMem (s : State) (i : Image) : State :=
  let kept := s.mem.filter fun e => !(inRecipe e.1 || inTable e.1)
  { s with mem := i.mem.foldl (fun m e => Store.set memDefault m e.1 e.2) kept }

/-- Every stall is stopped. -/
def State.stopStalls (s : State) : State :=
  (List.range 128).foldl (fun s n => s.setStallRunning n false) { s with eng.loaded := [], eng.restart := [] }

def State.restoreEngine (s : State) (i : Image) : State :=
  let a := Reg.ENG_CFG
  let new := s.restored' i a
  if new = s.reg a then s else s.putEng ⟨.core 0, a, s.reg a, new, 0, imageMask a⟩

/-- Timebases restored with RUN = 1 start together. -/
def State.restoreRun (i : Image) (s : State) (n : Nat) : State :=
  let a := Reg.TBn_CFG n
  let new := s.restored' i a
  if new = s.reg a then s else s.writeTbRun n new

/-- Enabled links enter ENUM. -/
def State.restoreLink (was : Nat → Bool) (s : State) (l : Nat) : State :=
  if s.iskEn l then s.linkEnable l else if was l then s.linkDisable l else s

/-- The image comes into force. -/
def State.applyImage (s : State) (i : Image) : State :=
  let was := s.iskEn
  let s := (s.settle.stopStalls).restoreMem i
  let s := (s.restoreOrder i).foldl (State.restoreReg i) s
  let s := (s.restoreEngine i).refreshToll
  let s := [0, 1, 2, 3].foldl (State.restoreRun i) { s with pwm.waiting := [] }
  [0, 1].foldl (State.restoreLink was) s

/-- The restore ends: LOCK and SEALED read 1 without a new capture, and IMAGE_RESTORED is posted. -/
def State.restoreEnds (s : State) (i : Image) : State :=
  let s := { s.applyImage i with pwr.restoring := false }.barBoundary
  let s := (s.setFld Reg.SYS_SETUP_LOCK Fld.SYS_SETUP_LOCK.LOCK 1).setFld Reg.SYS_SETUP_LOCK Fld.SYS_SETUP_LOCK.SEALED 1
  let s := s.setFld Reg.SYS_RESTORE Fld.SYS_RESTORE.STATE 2
  s.event ⟨UnitCode.sys, 0x012, 0, 0, i.sealCrc⟩

def execRestoreDone (s : State) : Host.Outcome State Fault Refusal :=
  match s.image with
  | some i => if s.pwr.restoring then .next (s.restoreEnds i) else .next s
  | none => .next s

end Sys2Proof.Machine
end

