-- ==== Sys2Proof/Machine/BusCmds.lean ====
section
/-! DEFINITION. Writes and reads of registers over the bus: the rows that name one, and REGISTER_WRITE for every
other (R6 to R10, R34 to R40, R65 to R74, and the chapters of the blocks). -/

set_option Elab.async false

namespace Sys2Proof.Machine

/-- A register written by host software. -/
def State.hostWrite (s : State) (a : Nat) (w : Word) : Host.Outcome State Fault Refusal := .next (s.blockStore 0 a w)

/-- A register read by host software. -/
def State.hostRead (s : State) (a : Nat) : Host.Outcome State Fault Refusal :=
  let r := s.busRead 0 a
  .next (r.2.gives r.1)

/-- The bits of a register that hold what software wrote: a write of them leaves every other field alone. -/
def plainMask (a : Nat) : Word :=
  match regAt a with
  | some (d, _) => d.fields.foldl (fun m f => if f.access == .rw || f.access == .rwl then m ||| f.bits.mask else m) 0
  | none => 0

/-- A register word with one field replaced, as host software writes it back. -/
def State.withField (s : State) (a : Nat) (f : Bits) (v : Nat) : Word := f.put v (s.reg a &&& plainMask a)

/-! ### Command fabric -/

def execResume (ring : Fin 16) (s : State) : Host.Outcome State Fault Refusal :=
  s.hostWrite (Reg.CMD_SQn_CTRL ring.val) (Fld.CMD_SQn_CTRL.RESUME.only 1)

def execFlush (ring : Fin 16) (s : State) : Host.Outcome State Fault Refusal :=
  s.hostWrite (Reg.CMD_SQn_CTRL ring.val) (Fld.CMD_SQn_CTRL.FLUSH.only 1)

def execClrcnt (ring : Fin 16) (s : State) : Host.Outcome State Fault Refusal :=
  s.hostWrite (Reg.CMD_SQn_CTRL ring.val) (Fld.CMD_SQn_CTRL.CLRCNT.only 1)

/-- SQ_ENABLE: `cfg` with EN = 1. -/
def execSqEnable (ring : Fin 16) (cfg : Word) (s : State) : Host.Outcome State Fault Refusal :=
  s.hostWrite (Reg.CMD_SQn_CFG ring.val) (Fld.CMD_SQn_CFG.EN.put 1 cfg)

/-- RING_DISABLE: `cfg` with EN = 0. -/
def execRingDisable (ring : Fin 16) (cfg : Word) (s : State) : Host.Outcome State Fault Refusal :=
  s.hostWrite (Reg.CMD_SQn_CFG ring.val) (Fld.CMD_SQn_CFG.EN.put 0 cfg)

/-- CQ_EQ_ENABLE: a completion ring, or as number 4 the event ring; `cfg` with EN = 1. -/
def execCqEqEnable (ring : Fin 5) (cfg : Word) (s : State) : Host.Outcome State Fault Refusal :=
  s.hostWrite (ringCfg ring.val) (Fld.CMD_CQm_CFG.EN.put 1 cfg)

def execEvtAck (s : State) : Host.Outcome State Fault Refusal :=
  s.hostWrite Reg.CMD_EVTCFG (s.withField Reg.CMD_EVTCFG Fld.CMD_EVTCFG.ACK 1)

/-! ### SYS -/

def execSetupLock (s : State) : Host.Outcome State Fault Refusal :=
  s.hostWrite Reg.SYS_SETUP_LOCK (Fld.SYS_SETUP_LOCK.LOCK.only 1)

def execF2Clear (s : State) : Host.Outcome State Fault Refusal :=
  s.hostWrite Reg.SYS_FAULTSTAT (Fld.SYS_FAULTSTAT.F2.only 1)

def execBootOk (s : State) : Host.Outcome State Fault Refusal :=
  s.hostWrite Reg.SYS_BOOTOK (Fld.SYS_BOOTOK.OK.only 1)

def execBootCommit (s : State) : Host.Outcome State Fault Refusal :=
  s.hostWrite Reg.SYS_BOOTOK (Fld.SYS_BOOTOK.COMMIT.only 1)

def execSwsysWrite (s : State) : Host.Outcome State Fault Refusal :=
  s.hostWrite Reg.SYS_RSTCTL (Fld.SYS_RSTCTL.SWSYS.only 0xA5C3)

/-- SWSUB_WRITE: `value` with GO = 1. -/
def execSwsubWrite (value : Word) (s : State) : Host.Outcome State Fault Refusal :=
  s.hostWrite Reg.SYS_SWSUB (Fld.SYS_SWSUB.GO.put 1 value)

def execRestoreGo (s : State) : Host.Outcome State Fault Refusal :=
  s.hostWrite Reg.SYS_RESTORE (Fld.SYS_RESTORE.GO.only 1)

/-! ### CLK, ENG and PWM -/

/-- PLL_PROGRAM_WRITE: CLK_PLLp_CFG, or CLK_PLLp_FRAC. -/
def execPllProgramWrite (p : Fin 2) (frac : Bool) (value : Word) (s : State) : Host.Outcome State Fault Refusal :=
  s.hostWrite (if frac then Reg.CLK_PLLp_FRAC p.val else Reg.CLK_PLLp_CFG p.val) value

def execTickcntLoRead (s : State) : Host.Outcome State Fault Refusal := s.hostRead Reg.CLK_TICKCNT_LO

def execRtcLoRead (s : State) : Host.Outcome State Fault Refusal := s.hostRead Reg.CLK_RTC_LO

def execMtimeLoRead (s : State) : Host.Outcome State Fault Refusal := s.hostRead Reg.HIC_MTIME_LO

/-- ENG_RUN_SET: `cfg` with RUN = 1. -/
def execEngRunSet (cfg : Word) (s : State) : Host.Outcome State Fault Refusal :=
  s.hostWrite Reg.ENG_CFG (Fld.ENG_CFG.RUN.put 1 cfg)

def execEngBindWrite (n : Fin 256) (value : Word) (s : State) : Host.Outcome State Fault Refusal :=
  s.hostWrite (Reg.ENG_BINDn n.val) value

/-- TIMEBASE_RUN: `cfg` with RUN = 1. -/
def execTimebaseRun (tb : Fin 4) (cfg : Word) (s : State) : Host.Outcome State Fault Refusal :=
  s.hostWrite (Reg.TBn_CFG tb.val) (Fld.TBn_CFG.RUN.put 1 cfg)

def execLdallWrite (value : Word) (s : State) : Host.Outcome State Fault Refusal := s.hostWrite Reg.PWM_LDALL value

/-! ### ACQ, POS, FLD, WGH and ISK -/

def execAcqRunWrite (s : State) : Host.Outcome State Fault Refusal :=
  s.hostWrite Reg.ACQ_CFG (s.withField Reg.ACQ_CFG Fld.ACQ_CFG.RUN 1)

def execSensvEnable (n : Fin 2) (s : State) : Host.Outcome State Fault Refusal :=
  s.hostWrite (Reg.POS_SENSVn_CFG n.val) (s.withField (Reg.POS_SENSVn_CFG n.val) Fld.POS_SENSVn_CFG.EN 1)

def execWrapClear (c : Fin 2) (s : State) : Host.Outcome State Fault Refusal :=
  s.hostWrite (Reg.POS_CHc_CNT c.val) (Fld.POS_CHc_CNT.WRAP.only 1)

def execAngleEventArm (slot : Fin 16) (action : Word) (s : State) : Host.Outcome State Fault Refusal :=
  s.hostWrite (Reg.FLD_EVs_ACT slot.val) action

def execWghEnable (m : Fin 2) (cfg : Word) (s : State) : Host.Outcome State Fault Refusal :=
  s.hostWrite (Reg.WGH_MCm_CFG m.val) (Fld.WGH_MCm_CFG.EN.put 1 cfg)

def execIskLinkEnable (link : Fin 2) (cfg : Word) (s : State) : Host.Outcome State Fault Refusal :=
  s.hostWrite (Reg.ISK_LINKl_CFG link.val) (Fld.ISK_LINKl_CFG.EN.put 1 cfg)

/-! ### CAN and ETH -/

def execCanTxDoorbell (c : Fin 4) (value : Word) (s : State) : Host.Outcome State Fault Refusal :=
  .next (((s.bellStored (doorbell + 0x100 + 8 * c.val) value).snooped.canTxBell c value).stored)

def execCanRxConsumerWrite (c : Fin 4) (value : Word) (s : State) : Host.Outcome State Fault Refusal :=
  .next (((s.bellStored (doorbell + 0x104 + 8 * c.val) value).snooped.canRxBell c value).stored)

def execEthTxDoorbell (p : Fin 2) (value : Word) (s : State) : Host.Outcome State Fault Refusal :=
  .next (((s.bellStored (doorbell + 0x200 + 8 * p.val) value).snooped.ethTxBell p value).stored)

def execEthRxConsumerWrite (p : Fin 2) (value : Word) (s : State) : Host.Outcome State Fault Refusal :=
  .next (((s.bellStored (doorbell + 0x204 + 8 * p.val) value).snooped.ethRxBell p value).stored)

def execCanTxresume (c : Fin 4) (s : State) : Host.Outcome State Fault Refusal :=
  s.hostWrite (Reg.CAN_CTRL c.val) (s.withField (Reg.CAN_CTRL c.val) Fld.CAN_CTRL.TXRESUME 1)

def execCanTxflush (c : Fin 4) (s : State) : Host.Outcome State Fault Refusal :=
  s.hostWrite (Reg.CAN_CTRL c.val) (s.withField (Reg.CAN_CTRL c.val) Fld.CAN_CTRL.TXFLUSH 1)

/-- CAN_INIT_SET; `busy`: a frame of another node is under way. -/
def execCanInitSet (c : Fin 4) (busy : Bool) (s : State) : Host.Outcome State Fault Refusal :=
  let a := Reg.CAN_CTRL c.val
  .next (s.blockStore 0 a (s.withField a Fld.CAN_CTRL.INIT 1) busy)

/-- CAN_INIT_CLEAR; MODE, AUTODET and AUTOREC as in `cfg`. -/
def execCanInitClear (c : Fin 4) (cfg : Word) (s : State) : Host.Outcome State Fault Refusal :=
  s.hostWrite (Reg.CAN_CTRL c.val) (Fld.CAN_CTRL.INIT.put 0 cfg)

def execEthTxresume (p : Fin 2) (s : State) : Host.Outcome State Fault Refusal :=
  s.hostWrite (Reg.ETH_Pp_TXCTL p.val) (s.withField (Reg.ETH_Pp_TXCTL p.val) Fld.ETH_Pp_TXCTL.TXRESUME 1)

def execEthTxflush (p : Fin 2) (s : State) : Host.Outcome State Fault Refusal :=
  s.hostWrite (Reg.ETH_Pp_TXCTL p.val) (s.withField (Reg.ETH_Pp_TXCTL p.val) Fld.ETH_Pp_TXCTL.TXFLUSH 1)

def execEthVtRateWrite (value : Word) (s : State) : Host.Outcome State Fault Refusal := s.hostWrite Reg.ETH_VT_RATE value

def execEthVtStep (value : Word) (s : State) : Host.Outcome State Fault Refusal := s.hostWrite Reg.ETH_VT_STEP value

def execEthVtSet (s : State) : Host.Outcome State Fault Refusal :=
  s.hostWrite Reg.ETH_VT_CTRL (s.withField Reg.ETH_VT_CTRL Fld.ETH_VT_CTRL.SET 1)

def execEthTvtTickRead (s : State) : Host.Outcome State Fault Refusal := s.hostRead Reg.ETH_TVT_TICK

def execEthMdioCommand (value : Word) (s : State) : Host.Outcome State Fault Refusal := s.hostWrite Reg.ETH_MDIO value

/-! ### HIC and XSP -/

def execCore1Start (s : State) : Host.Outcome State Fault Refusal :=
  s.hostWrite Reg.HIC_C1_CTRL (Fld.HIC_C1_CTRL.START.only 1)

/-- CACHE_INVALIDATE: the data cache, the instruction cache, or both of a core. -/
def execCacheInvalidate (core : Fin 2) (data inst : Bool) (s : State) : Host.Outcome State Fault Refusal :=
  s.hostWrite (Reg.HIC_CACHEc core.val) (Fld.HIC_CACHEc.DINV.only data.toNat ||| Fld.HIC_CACHEc.IINV.only inst.toNat)

def execWdogEnable (wd : Fin 2) (cfg : Word) (s : State) : Host.Outcome State Fault Refusal :=
  s.hostWrite (Reg.HIC_WDw_CFG wd.val) (Fld.HIC_WDw_CFG.EN.put 1 cfg)

/-- XSP_COMMAND: `cmd` with GO = 1. -/
def execXspCommand (cmd : Word) (s : State) : Host.Outcome State Fault Refusal :=
  s.hostWrite Reg.XSP_CMD (Fld.XSP_CMD.GO.put 1 cmd)

/-! ### CHK -/

def execChkAlgWrite (n : Fin 4) (value : Word) (s : State) : Host.Outcome State Fault Refusal :=
  s.hostWrite (Reg.CHK_Un_CFG n.val) value

def execChkSeedWrite (n : Fin 4) (value : Word) (s : State) : Host.Outcome State Fault Refusal :=
  s.hostWrite (Reg.CHK_Un_SEED n.val) value

def execChkDataWrite (n : Fin 4) (value : Word) (s : State) : Host.Outcome State Fault Refusal :=
  s.hostWrite (Reg.CHK_Un_DATA n.val) value

def execChkDatabWrite (n : Fin 4) (value : Word) (s : State) : Host.Outcome State Fault Refusal :=
  s.hostWrite (Reg.CHK_Un_DATAB n.val) value

def execChkResultRead (n : Fin 4) (s : State) : Host.Outcome State Fault Refusal := s.hostRead (Reg.CHK_Un_RES n.val)

def execScanGo (slot : Fin 8) (s : State) : Host.Outcome State Fault Refusal :=
  s.hostWrite (Reg.CHK_SCs_CFG slot.val) (s.withField (Reg.CHK_SCs_CFG slot.val) Fld.CHK_SCs_CFG.GO 1)

/-! ### Any register -/

/-- REGISTER_WRITE (R6): word `index` of a block, by core 0 or 1, or by the debugger as number 2 where the
life-cycle state lets it reach memory (Table HIC-4). -/
def execRegisterWrite (core : Fin 3) (unit : Fin 22) (index : Fin 0x4000) (value : Word) (s : State) :
    Host.Outcome State Fault Refusal :=
  if core = 2 && !s.debugOpen then .next s
  else .next (s.blockStore core.val (blockBase + 0x10000 * unit.val + 4 * index.val) value)

end Sys2Proof.Machine
end

