-- ==== Sys2Proof/Machine/Dispatch.lean ====
section
/-! DEFINITION. What each command does: one arm for each constructor of Instr. -/

namespace Sys2Proof.Machine

/-- The effect of a command on everything but the queue. -/
def exec (i : Instr) (s : State) : Host.Outcome State Fault Refusal :=
  match i with
  | .sqDoorbellWrite ring value => Sys2Proof.Machine.execSqDoorbellWrite ring value s
  | .cqConsumerIndexWrite ring value => Sys2Proof.Machine.execCqConsumerIndexWrite ring value s
  | .eqConsumerIndexWrite value => Sys2Proof.Machine.execEqConsumerIndexWrite value s
  | .eqOverflow => Sys2Proof.Machine.execEqOverflow s
  | .fetchSlot ecc => Sys2Proof.Machine.execFetchSlot ecc s
  | .caravanCutoff => Sys2Proof.Machine.execCaravanCutoff s
  | .caravanApplication => Sys2Proof.Machine.execCaravanApplication s
  | .stoppedTickApplication => Sys2Proof.Machine.execStoppedTickApplication s
  | .completionPosting => Sys2Proof.Machine.execCompletionPosting s
  | .nop o unit => Sys2Proof.Machine.execNop o unit s
  | .regWrite o unit inst offset value mask => Sys2Proof.Machine.execRegWrite o unit inst offset value mask s
  | .regRead o unit inst offset => Sys2Proof.Machine.execRegRead o unit inst offset s
  | .paramWrite o stall w3 w4 w5 w6 => Sys2Proof.Machine.execParamWrite o stall w3 w4 w5 w6 s
  | .tableLoad o w3 w4 w5 w6 => Sys2Proof.Machine.execTableLoad o w3 w4 w5 w6 s
  | .stallStart o stall w3 => Sys2Proof.Machine.execStallStart o stall w3 s
  | .stallStop o stall => Sys2Proof.Machine.execStallStop o stall s
  | .setpoint o stall w3 w4 w5 w6 => Sys2Proof.Machine.execSetpoint o stall w3 w4 w5 w6 s
  | .scheduleSelect o w3 => Sys2Proof.Machine.execScheduleSelect o w3 s
  | .outputEnable o pairs => Sys2Proof.Machine.execOutputEnable o pairs s
  | .outputDisable o pairs => Sys2Proof.Machine.execOutputDisable o pairs s
  | .carrierSet o tb period => Sys2Proof.Machine.execCarrierSet o tb period s
  | .loadAll o tb => Sys2Proof.Machine.execLoadAll o tb s
  | .tripClear o ext int => Sys2Proof.Machine.execTripClear o ext int s
  | .safeRequest o bridge w3 => Sys2Proof.Machine.execSafeRequest o bridge w3 s
  | .driveEnable o unit => Sys2Proof.Machine.execDriveEnable o unit s
  | .discharge o method target deadline => Sys2Proof.Machine.execDischarge o method target deadline s
  | .modeSet o machine mode blend => Sys2Proof.Machine.execModeSet o machine mode blend s
  | .angleEvent o slot angle action => Sys2Proof.Machine.execAngleEvent o slot angle action s
  | .channelReadmit o channel => Sys2Proof.Machine.execChannelReadmit o channel s
  | .bistRequest o code kind => Sys2Proof.Machine.execBistRequest o code kind s
  | .unitReadmit o code => Sys2Proof.Machine.execUnitReadmit o code s
  | .lcsToken o offset length => Sys2Proof.Machine.execLcsToken o offset length s
  | .holdupCheck o => Sys2Proof.Machine.execHoldupCheck o s
  | .ledgerNote o w3 w4 w5 w6 => Sys2Proof.Machine.execLedgerNote o w3 w4 w5 w6 s
  | .tickRealign o => Sys2Proof.Machine.execTickRealign o s
  | .powerState o target => Sys2Proof.Machine.execPowerState o target s
  | .scanStart o slot => Sys2Proof.Machine.execScanStart o slot s
  | .resume ring => Sys2Proof.Machine.execResume ring s
  | .flush ring => Sys2Proof.Machine.execFlush ring s
  | .flushRecordPost ring => Sys2Proof.Machine.execFlushRecordPost ring s
  | .clrcnt ring => Sys2Proof.Machine.execClrcnt ring s
  | .sqEnable ring cfg => Sys2Proof.Machine.execSqEnable ring cfg s
  | .ringDisable ring cfg => Sys2Proof.Machine.execRingDisable ring cfg s
  | .cqEqEnable ring cfg => Sys2Proof.Machine.execCqEqEnable ring cfg s
  | .evtAck => Sys2Proof.Machine.execEvtAck s
  | .setupLock => Sys2Proof.Machine.execSetupLock s
  | .imageSealed => Sys2Proof.Machine.execImageSealed s
  | .f2Clear => Sys2Proof.Machine.execF2Clear s
  | .tickBoundary flips => Sys2Proof.Machine.execTickBoundary flips s
  | .windowFreeze => Sys2Proof.Machine.execWindowFreeze s
  | .signalPublish power tCore tField => Sys2Proof.Machine.execSignalPublish power tCore tField s
  | .engineStart upsets stop mismatch lost => Sys2Proof.Machine.execEngineStart upsets stop mismatch lost s
  | .votePhase copies saltFail => Sys2Proof.Machine.execVotePhase copies saltFail s
  | .holdExpiry => Sys2Proof.Machine.execHoldExpiry s
  | .shadowWatchEnd => Sys2Proof.Machine.execShadowWatchEnd s
  | .engineDeadline => Sys2Proof.Machine.execEngineDeadline s
  | .stateScrub => Sys2Proof.Machine.execStateScrub s
  | .outputTransfer flips => Sys2Proof.Machine.execOutputTransfer flips s
  | .engRunSet cfg => Sys2Proof.Machine.execEngRunSet cfg s
  | .engBindWrite n value => Sys2Proof.Machine.execEngBindWrite n value s
  | .timebaseRun tb cfg => Sys2Proof.Machine.execTimebaseRun tb cfg s
  | .ldallWrite value => Sys2Proof.Machine.execLdallWrite value s
  | .timebaseZero tb mismatch => Sys2Proof.Machine.execTimebaseZero tb mismatch s
  | .halfPeriodPoint tb => Sys2Proof.Machine.execHalfPeriodPoint tb s
  | .delayLineCalibrated tb => Sys2Proof.Machine.execDelayLineCalibrated tb s
  | .gateReadbackFail pair => Sys2Proof.Machine.execGateReadbackFail pair s
  | .tripFilterActive named raw first t => Sys2Proof.Machine.execTripFilterActive named raw first t s
  | .tripFilterInactive named raw first t => Sys2Proof.Machine.execTripFilterInactive named raw first t s
  | .comparatorCrossing m v vref t => Sys2Proof.Machine.execComparatorCrossing m v vref t s
  | .safeReadbackFail pair low => Sys2Proof.Machine.execSafeReadbackFail pair low s
  | .acqRunWrite => Sys2Proof.Machine.execAcqRunWrite s
  | .sarConversionDone g v0 v1 v2 v3 vref t lost => Sys2Proof.Machine.execSarConversionDone g v0 v1 v2 v3 vref t lost s
  | .spareShadowEnd g => Sys2Proof.Machine.execSpareShadowEnd g s
  | .urgentRequest g late => Sys2Proof.Machine.execUrgentRequest g late s
  | .urgentConversionDone g v vref t => Sys2Proof.Machine.execUrgentConversionDone g v vref t s
  | .comparatorTestStep cmp active => Sys2Proof.Machine.execComparatorTestStep cmp active s
  | .dsSincOutput c => Sys2Proof.Machine.execDsSincOutput c s
  | .resolverPair c v w vexc mid => Sys2Proof.Machine.execResolverPair c v w vexc mid s
  | .sincosPair c v w t => Sys2Proof.Machine.execSincosPair c v w t s
  | .posEdgeAccepted c levels samples t => Sys2Proof.Machine.execPosEdgeAccepted c levels samples t s
  | .posGlitch c samples => Sys2Proof.Machine.execPosGlitch c samples s
  | .sentFrame c cal status nibbles crc pause start t => Sys2Proof.Machine.execSentFrame c cal status nibbles crc pause start t s
  | .ssiFrameStart c t => Sys2Proof.Machine.execSsiFrameStart c t s
  | .ssiFrame c bits t => Sys2Proof.Machine.execSsiFrame c bits t s
  | .frameTimeout c t => Sys2Proof.Machine.execFrameTimeout c t s
  | .coastExpired c t => Sys2Proof.Machine.execCoastExpired c t s
  | .excFault c opened => Sys2Proof.Machine.execExcFault c opened s
  | .sensvFault n low t => Sys2Proof.Machine.execSensvFault n low t s
  | .sensvEnable n => Sys2Proof.Machine.execSensvEnable n s
  | .wrapClear c => Sys2Proof.Machine.execWrapClear c s
  | .angleEventArm slot action => Sys2Proof.Machine.execAngleEventArm slot action s
  | .angleEventFire slot t => Sys2Proof.Machine.execAngleEventFire slot t s
  | .sixstepCrossing m t => Sys2Proof.Machine.execSixstepCrossing m t s
  | .watchEnd m t => Sys2Proof.Machine.execWatchEnd m t s
  | .waitEnd m t => Sys2Proof.Machine.execWaitEnd m t s
  | .catchEnd m => Sys2Proof.Machine.execCatchEnd m s
  | .wghSelftest m upset => Sys2Proof.Machine.execWghSelftest m upset s
  | .wghEnable m cfg => Sys2Proof.Machine.execWghEnable m cfg s
  | .dischargeProgressCheck => Sys2Proof.Machine.execDischargeProgressCheck s
  | .dischargeDeadline => Sys2Proof.Machine.execDischargeDeadline s
  | .iskLinkEnable link cfg => Sys2Proof.Machine.execIskLinkEnable link cfg s
  | .iskEdgePlanSend link => Sys2Proof.Machine.execIskEdgePlanSend link s
  | .iskCollectionSend link => Sys2Proof.Machine.execIskCollectionSend link s
  | .iskCollectionJudge link slots t => Sys2Proof.Machine.execIskCollectionJudge link slots t s
  | .iskEnumeration link back t => Sys2Proof.Machine.execIskEnumeration link back t s
  | .iskIdleHeartbeat link t => Sys2Proof.Machine.execIskIdleHeartbeat link t s
  | .isk1Broadcast link => Sys2Proof.Machine.execIsk1Broadcast link s
  | .isk1Poll link reply t => Sys2Proof.Machine.execIsk1Poll link reply t s
  | .referenceLost => Sys2Proof.Machine.execReferenceLost s
  | .referenceReturn jump errA errB => Sys2Proof.Machine.execReferenceReturn jump errA errB s
  | .holdoverTimeout => Sys2Proof.Machine.execHoldoverTimeout s
  | .pllFilterCheck p v20 v200 => Sys2Proof.Machine.execPllFilterCheck p v20 v200 s
  | .pllLockDeclared p ldmv => Sys2Proof.Machine.execPllLockDeclared p ldmv s
  | .pllUnlock p ldmv => Sys2Proof.Machine.execPllUnlock p ldmv s
  | .pllFail p kind dev => Sys2Proof.Machine.execPllFail p kind dev s
  | .pllQuarantineEnd p pass => Sys2Proof.Machine.execPllQuarantineEnd p pass s
  | .pllProgramWrite p frac value => Sys2Proof.Machine.execPllProgramWrite p frac value s
  | .tickInEdge t => Sys2Proof.Machine.execTickInEdge t s
  | .tickInMissing => Sys2Proof.Machine.execTickInMissing s
  | .rtcSourceSwitch => Sys2Proof.Machine.execRtcSourceSwitch s
  | .tickcntLoRead => Sys2Proof.Machine.execTickcntLoRead s
  | .rtcLoRead => Sys2Proof.Machine.execRtcLoRead s
  | .mtimeLoRead => Sys2Proof.Machine.execMtimeLoRead s
  | .canTxDoorbell c value => Sys2Proof.Machine.execCanTxDoorbell c value s
  | .canRxConsumerWrite c value => Sys2Proof.Machine.execCanRxConsumerWrite c value s
  | .canTxFetch c => Sys2Proof.Machine.execCanTxFetch c s
  | .canTxresume c => Sys2Proof.Machine.execCanTxresume c s
  | .canTxflush c => Sys2Proof.Machine.execCanTxflush c s
  | .canInitSet c busy => Sys2Proof.Machine.execCanInitSet c busy s
  | .canInitClear c cfg => Sys2Proof.Machine.execCanInitClear c cfg s
  | .canFrameSent c ago fc tdcv => Sys2Proof.Machine.execCanFrameSent c ago fc tdcv s
  | .canFrameReceived c x0 x1 x2 x3 data ago fc => Sys2Proof.Machine.execCanFrameReceived c x0 x1 x2 x3 data ago fc s
  | .canRateCandidateSwitch c => Sys2Proof.Machine.execCanRateCandidateSwitch c s
  | .canErrorStateChange c state tec rec => Sys2Proof.Machine.execCanErrorStateChange c state tec rec s
  | .canBusRecovered c => Sys2Proof.Machine.execCanBusRecovered c s
  | .canTxExpired c slot => Sys2Proof.Machine.execCanTxExpired c slot s
  | .canTtCycleStart c t => Sys2Proof.Machine.execCanTtCycleStart c t s
  | .canTtColumn c column => Sys2Proof.Machine.execCanTtColumn c column s
  | .canTtWindowEnd c column => Sys2Proof.Machine.execCanTtWindowEnd c column s
  | .canUnitFailure c counters => Sys2Proof.Machine.execCanUnitFailure c counters s
  | .canSpareSwitchIn c => Sys2Proof.Machine.execCanSpareSwitchIn c s
  | .canShadowEnd c pass => Sys2Proof.Machine.execCanShadowEnd c pass s
  | .ethTxDoorbell p value => Sys2Proof.Machine.execEthTxDoorbell p value s
  | .ethRxConsumerWrite p value => Sys2Proof.Machine.execEthRxConsumerWrite p value s
  | .ethTxFetch p => Sys2Proof.Machine.execEthTxFetch p s
  | .ethTxresume p => Sys2Proof.Machine.execEthTxresume p s
  | .ethTxflush p => Sys2Proof.Machine.execEthTxflush p s
  | .ethTxFrameSent p t ago fc => Sys2Proof.Machine.execEthTxFrameSent p t ago fc s
  | .ethTxExpired p t => Sys2Proof.Machine.execEthTxExpired p t s
  | .ethFrameReceived p data fcs t ago fc => Sys2Proof.Machine.execEthFrameReceived p data fcs t ago fc s
  | .ethVtRateWrite value => Sys2Proof.Machine.execEthVtRateWrite value s
  | .ethVtStep value => Sys2Proof.Machine.execEthVtStep value s
  | .ethVtSet => Sys2Proof.Machine.execEthVtSet s
  | .vtTimeout => Sys2Proof.Machine.execVtTimeout s
  | .ethTvtTickRead => Sys2Proof.Machine.execEthTvtTickRead s
  | .ethMdioCommand value => Sys2Proof.Machine.execEthMdioCommand value s
  | .ethMdioDone data => Sys2Proof.Machine.execEthMdioDone data s
  | .ethPhyInterrupt => Sys2Proof.Machine.execEthPhyInterrupt s
  | .ethLinkChange link spd => Sys2Proof.Machine.execEthLinkChange link spd s
  | .plcaBeaconLoss => Sys2Proof.Machine.execPlcaBeaconLoss s
  | .plcaBeaconReturn => Sys2Proof.Machine.execPlcaBeaconReturn s
  | .core1Start => Sys2Proof.Machine.execCore1Start s
  | .cacheInvalidate core data inst => Sys2Proof.Machine.execCacheInvalidate core data inst s
  | .irqClaim core => Sys2Proof.Machine.execIrqClaim core s
  | .irqComplete core value => Sys2Proof.Machine.execIrqComplete core value s
  | .semRead n reader => Sys2Proof.Machine.execSemRead n reader s
  | .semFree n core value => Sys2Proof.Machine.execSemFree n core value s
  | .wdogEnable wd cfg => Sys2Proof.Machine.execWdogEnable wd cfg s
  | .wdogService wd core value t => Sys2Proof.Machine.execWdogService wd core value t s
  | .wdogPrewarning wd => Sys2Proof.Machine.execWdogPrewarning wd s
  | .wdogClose wd missing => Sys2Proof.Machine.execWdogClose wd missing s
  | .wdogReset t => Sys2Proof.Machine.execWdogReset t s
  | .xspCommand cmd => Sys2Proof.Machine.execXspCommand cmd s
  | .xspCommandDone data => Sys2Proof.Machine.execXspCommandDone data s
  | .xspReadTimeout core cs => Sys2Proof.Machine.execXspReadTimeout core cs s
  | .gpioEdge ball rising => Sys2Proof.Machine.execGpioEdge ball rising s
  | .bootOk => Sys2Proof.Machine.execBootOk s
  | .bootCommit => Sys2Proof.Machine.execBootCommit s
  | .chkAlgWrite n value => Sys2Proof.Machine.execChkAlgWrite n value s
  | .chkSeedWrite n value => Sys2Proof.Machine.execChkSeedWrite n value s
  | .chkDataWrite n value => Sys2Proof.Machine.execChkDataWrite n value s
  | .chkDatabWrite n value => Sys2Proof.Machine.execChkDatabWrite n value s
  | .chkResultRead n => Sys2Proof.Machine.execChkResultRead n s
  | .scanPeriodStart slot => Sys2Proof.Machine.execScanPeriodStart slot s
  | .scanGo slot => Sys2Proof.Machine.execScanGo slot s
  | .scanTargetDone slot flips seen => Sys2Proof.Machine.execScanTargetDone slot flips seen s
  | .rotationStep t => Sys2Proof.Machine.execRotationStep t s
  | .rotationRetry t => Sys2Proof.Machine.execRotationRetry t s
  | .bistComplete code pass part => Sys2Proof.Machine.execBistComplete code pass part s
  | .bistAbort cond => Sys2Proof.Machine.execBistAbort cond s
  | .quarantineEnd code pass => Sys2Proof.Machine.execQuarantineEnd code pass s
  | .sramRowRepair r word double => Sys2Proof.Machine.execSramRowRepair r word double s
  | .rowCopyDone r => Sys2Proof.Machine.execRowCopyDone r s
  | .lcsTokenVerified => Sys2Proof.Machine.execLcsTokenVerified s
  | .holdupReady vhold => Sys2Proof.Machine.execHoldupReady vhold s
  | .holdupPeriodic t => Sys2Proof.Machine.execHoldupPeriodic t s
  | .holdupCheckComplete charged va vb vc => Sys2Proof.Machine.execHoldupCheckComplete charged va vb vc s
  | .vholdDrop vhold => Sys2Proof.Machine.execVholdDrop vhold s
  | .supplyLoss snapshot => Sys2Proof.Machine.execSupplyLoss snapshot s
  | .commitEnd => Sys2Proof.Machine.execCommitEnd s
  | .ledgerUnitWritten => Sys2Proof.Machine.execLedgerUnitWritten s
  | .ledgerOverflowEntry => Sys2Proof.Machine.execLedgerOverflowEntry s
  | .ledgerExportRequest id data => Sys2Proof.Machine.execLedgerExportRequest id data s
  | .dlinkFrameReceive toField cls seq payload crc => Sys2Proof.Machine.execDlinkFrameReceive toField cls seq payload crc s
  | .dlinkHeartbeatTimeout atField => Sys2Proof.Machine.execDlinkHeartbeatTimeout atField s
  | .fieldDieIdentity rev => Sys2Proof.Machine.execFieldDieIdentity rev s
  | .powerOnReset => Sys2Proof.Machine.execPowerOnReset s
  | .resetPin t => Sys2Proof.Machine.execResetPin t s
  | .swsysWrite => Sys2Proof.Machine.execSwsysWrite s
  | .swsubWrite value => Sys2Proof.Machine.execSwsubWrite value s
  | .swsubDone => Sys2Proof.Machine.execSwsubDone s
  | .lcsReset => Sys2Proof.Machine.execLcsReset s
  | .resetRelease t => Sys2Proof.Machine.execResetRelease t s
  | .marchDone failing slots same8d => Sys2Proof.Machine.execMarchDone failing slots same8d s
  | .imageSealCheck => Sys2Proof.Machine.execImageSealCheck s
  | .restoreGo => Sys2Proof.Machine.execRestoreGo s
  | .restoreDone => Sys2Proof.Machine.execRestoreDone s
  | .wake src rising persist t => Sys2Proof.Machine.execWake src rising persist t s
  | .parkExit t => Sys2Proof.Machine.execParkExit t s
  | .sleepPowerDown => Sys2Proof.Machine.execSleepPowerDown s
  | .registerWrite core unit index value => Sys2Proof.Machine.execRegisterWrite core unit index value s
  | .supplyMonitorChange rails t => Sys2Proof.Machine.execSupplyMonitorChange rails t s
  | .dsBitSampled c level t period => Sys2Proof.Machine.execDsBitSampled c level t period s
  | .mtimecmpReached core t => Sys2Proof.Machine.execMtimecmpReached core t s
  | .coreMemoryAccess core op width addr value hit ecc flash => Sys2Proof.Machine.execCoreMemoryAccess core op width addr value hit ecc flash s
  | .debugHalt core halt => Sys2Proof.Machine.execDebugHalt core halt s
  | .tapInstruction code => Sys2Proof.Machine.execTapInstruction code s
  | .canTxStart c t => Sys2Proof.Machine.execCanTxStart c t s
  | .canBusError c tec rec lec tdcv => Sys2Proof.Machine.execCanBusError c tec rec lec tdcv s
  | .canIntegrationDone c => Sys2Proof.Machine.execCanIntegrationDone c s
  | .ethTxStart p t => Sys2Proof.Machine.execEthTxStart p t s
  | .swsysResetAssert => Sys2Proof.Machine.execSwsysResetAssert s

end Sys2Proof.Machine
end

