-- ==== Sys2Proof/Machine/Terms.lean ====
section
/-! DEFINITION. Terms in which the statements speak of rings, caravans and written words. -/

set_option Elab.async false

namespace Sys2Proof.Machine

/-! ### Rings and caravans -/

/-- The record ring after one record more. -/
def State.advanced (s : State) (m : Nat) : RecRing :=
  { s.ring m with
    pi := if s.ringSize m ≤ (s.ring m).pi + 1 then 0 else (s.ring m).pi + 1
    phase := (s.ring m).phase != decide (s.ringSize m ≤ (s.ring m).pi + 1)
    ticks := (s.ring m).ticks ++ [s.tick] }

/-- Host SRAM offset of the slot of a record ring that the next record takes. -/
def State.nextRecord (s : State) (m : Nat) : Nat :=
  s.fld (ringBase m) Fld.CMD_CQm_BASE.OFFSET * 16 + 16 * ((s.ring m).pi % 2 ^ 12)

/-- The findings of the passes that take their PSNs before the next record (R78). -/
def State.foundDue (s : State) : Nat := (s.cmd.found.filter fun f => decide (f.1 ≤ s.now)).length

/-- The completion records that the next posting writes (R64, R71): while ticks run, those of rings disabled since the
boundary wait. -/
def State.queuedRecords (s : State) : List Completion :=
  s.cmd.due ++ (if s.ticking then [] else s.cmd.disabled) ++ s.cmd.posting

/-- The PSNs that a run of `n` completion records takes, the findings before the first of them included. -/
def State.psnsTaken (s : State) (n : Nat) : Nat := if n = 0 then 0 else s.foundDue + n

/-- The state in which the records of a boundary are posted: 255 ns after it while ticks run. -/
def State.postingInstant (s : State) : State := if s.ticking then s.atTick 255 else s

/-- The check word of the slot that the next fetch of a ring reads. -/
def State.nextCheck (s : State) (n : Nat) : Word := (s.slotWords n).getD 7 0

/-- A caravan of NOP descriptors. -/
def Caravan.nops (c : Caravan) : Prop := ∀ m ∈ c.members, m.desc.opc = opNop

/-- What the members of a caravan of NOPs leave for the completion rings. -/
def Caravan.nopRecords (c : Caravan) : List (Nat × Nat × Nat) := c.members.filterMap fun m =>
  if lateStatus c.late stDone = stDone && !m.desc.creq then none
  else some (c.ring, lateStatus c.late stDone, m.desc.w2.toNat % 2 ^ 16)

/-- A caravan alone in the staging buffer that applies now. -/
structure LoneCaravan (s : State) (c : Caravan) : Prop where
  staged : s.cmd.staged = [c]
  ring : c.ring < 16
  due : s.caravanDue c = true
  fence : fenceHolds [c] c = false
  loads : c.tableLoads ≤ 2
  free : s.applyBarred = false
  runs : s.haltedF4 = false

/-! ### Words that a bus write leaves -/

/-- The word that a write by core 0 leaves in a register. -/
def State.busWord (s : State) (a : Nat) (w : Word) : Word :=
  match regAt a with
  | some (d, _) => (s.written (.core 0) a d w 0xFFFFFFFF).1
  | none => 0

/-- The engine may start with the configuration word that a write of `cfg` with RUN = 1 leaves (R106, R125). -/
def State.runAdmitted (s : State) (cfg : Word) : Bool :=
  match s.writeRun (s.busWord Reg.ENG_CFG (Fld.ENG_CFG.RUN.put 1 cfg)) with
  | .inl _ => true
  | .inr _ => false

/-- The binding that a write of `w` leaves may stand beside the others (R106, R125). -/
def State.bindAdmitted (s : State) (n : Nat) (w : Word) : Bool :=
  match s.writeBind n (s.busWord (Reg.ENG_BINDn n) w) with
  | .inl _ => true
  | .inr _ => false

/-! ### The halt of the device -/

/-- What the halt of the device leaves (R92): no caravan staged, the engine stopped, every enabled ring HALTED. -/
structure Halted (s t : State) : Prop where
  staged : t.cmd.staged = []
  engine : t.fld Reg.ENG_STAT Fld.ENG_STAT.RUN = 0
  rings : ∀ n, n < 16 → s.sqEnabled n = true → t.sqState n = ringHalted

/-! ### The tick -/

/-- The state once the application interval of a tick has ended (R22). -/
def State.intervalEnd (s : State) : State := (s.atTick 250).openBatch.endInterval.closeBatch

/-! ### Trip sources -/

/-- Once the named balls have shown their levels, a source is active, or inactive, as `v` says, and has been so for FILT samples. -/
def State.nowActive (s : State) (named raw first n : Nat) (v : Bool) (b : Nat) : Prop :=
  b < 28 ∧ ((s.seeRaw named raw first).at n).rawActive b = v ∧ s.srcFilt b ≤ ((s.seeRaw named raw first).at n).samples b

/-! ### Acquisition -/

/-- The entry of sequence `j` of a group that the slot which ends now converts. -/
def State.slotEntry (s : State) (g j : Nat) : Nat := (s.grp g).slot % s.seqLen g j

/-- Bits that fall in the open window. -/
def State.dsOpen (s : State) (n : Nat) : Prop := s.t0 ≤ n ∧ (s.ticking = true → n < s.nextBoundary)

/-! ### Position channels -/

/-- The state of a channel and the cause of its last change. -/
def State.chShows (s : State) (c st cause : Nat) : Prop :=
  s.chState c = st ∧ s.fld (Reg.POS_CHc_STAT c) Fld.POS_CHc_STAT.CAUSE = cause

/-- A channel that loses its signal: from TRACK it coasts, from CHECK it goes to QUARANTINE, both with the cause; in
another state it stays. -/
structure Lost (c cause : Nat) (s t : State) : Prop where
  track : s.chState c = chTrack → t.chShows c chCoast cause
  check : s.chState c = chCheck → t.chShows c chQuarantine cause
  stays : s.chState c ≠ chTrack → s.chState c ≠ chCheck → t.chState c = s.chState c

/-! ### Isnak-1 -/

/-- The frame with which an Isnak-1 link polls its next node (R384). -/
def State.pollFrame (s : State) (l : Nat) : List Nat :=
  let n := (s.lk l).poll % s.iskNodes l
  [n, s.iskSeq l, iskCheck [n, s.iskSeq l] n (s.iskSeq l)]

/-! ### CAN and Ethernet slots -/

/-- The check word of the TX slot that the next fetch of a CAN controller takes is right (R445). -/
def State.canSlotSound (s : State) (c : Nat) : Bool :=
  let ws := s.words (sramBase + s.canTxSlot c (s.canTxIdx c)) 8
  decide (ws.getD 7 0 = Crc.checkC (bytesOfWords (ws.take 7 ++ [dataFold (canTxRing c) (s.canTxIdx c) (s.canTxEpoch c)])))

/-- The check word of the TX slot that the next fetch of a port takes is right (R41, R460). -/
def State.ethSlotSound (s : State) (p : Nat) : Bool :=
  let ws := s.words (sramBase + s.ethTxSlot p (s.ethTxIdx p)) 8
  decide (ws.getD 7 0 = Crc.checkC (bytesOfWords (ws.take 7 ++ [dataFold (ethTxRing p) (s.ethTxIdx p) (s.ethPort p).txEpoch])))

end Sys2Proof.Machine
end

