-- ==== Sys2Proof/Safety.lean ====
section
/-! DEFINITION. What counts as a sound state of the block, and the parts of the state in whose terms a statement says
what a command leaves unchanged. -/

set_option Elab.async false

namespace Sys2Proof.Machine

/-! ### Sound states -/

/-- The memory is in canonical form: addresses rise strictly, and no entry equals what an unlisted byte reads as. -/
def Memory.wf (m : List Host.Cell) : Bool := Store.wf memDefault m

/-- The register file is in canonical form. -/
def Registers.wf (m : List (Nat × Word)) : Bool := Store.wf regDefault m

/-- The signal board is in canonical form. -/
def Board.wf (m : List (Nat × Word)) : Bool := Store.wf boardDefault m

/-- Canonical stores, the tick counter within its 48 bits (R20), the next PSN never 0 (R66). -/
abbrev State.Canonical (s : State) : Prop :=
  Registers.wf s.regs = true ∧ Memory.wf s.mem = true ∧ Board.wf s.board = true ∧ s.tick < 2 ^ 48 ∧
    s.reg Reg.CMD_PSN ≠ 0

/-- A sound state: canonical, and no finding of a command left open. -/
abbrev State.Sound (s : State) : Prop := s.Canonical ∧ s.batch = none

/-! ### Parts of the state -/

/-- Position in a block's table of the register at an offset; the length of the table for a reserved offset. -/
def regPos : List RegDesc → Nat → Nat
  | [], _ => 0
  | d :: ds, off => if (d.index? off).isSome then 0 else regPos ds off + 1


/-- Number of the first register of a block: each block takes one number more than it has names. -/
def regStart : Nat → Nat
  | 0 => 0
  | 1 => 13
  | 2 => 35
  | 3 => 52
  | 4 => 64
  | 5 => 75
  | 6 => 95
  | 7 => 126
  | 8 => 163
  | 9 => 183
  | 10 => 211
  | 11 => 227
  | 12 => 235
  | 13 => 255
  | 14 => 293
  | 15 => 319
  | 16 => 333
  | 17 => 346
  | 18 => 361
  | 19 => 369
  | 20 => 392
  | 21 => 400
  | _ => 406

/-- The number of the register or array of registers at an address: one for each name of the register tables. -/
def regNo (a : Nat) : Nat := regStart (unitOf a) + regPos (regsOfUnit (unitOf a)) (offsetOf a)

/-- A part of the state: the registers of one name, a component, or an area of memory. -/
inductive Part where
  | reg (name : Nat)
  /-- The time. -/
  | now
  /-- The instant of the last boundary. -/
  | t0
  /-- The length of the last window. -/
  | prevLen
  /-- The tick counter. -/
  | tick
  /-- Clocks. -/
  | clk
  /-- Vehicle time. -/
  | vt
  /-- Submission rings. -/
  | sqs
  /-- Record rings. -/
  | rings
  /-- The staging buffer. -/
  | staged
  /-- Completions that wait for their PSN. -/
  | posting
  /-- The rest of the command fabric. -/
  | cmdRest
  /-- Fault classes. -/
  | faults
  /-- Ledger. -/
  | led
  /-- Die link. -/
  | dlink
  /-- Trip logic. -/
  | prot
  /-- Timebases. -/
  | tbs
  /-- Pairs. -/
  | pairs
  /-- The rest of the PWM generator. -/
  | pwmRest
  /-- Discharge. -/
  | dis
  /-- Acquisition. -/
  | acq
  /-- Position feedback. -/
  | pos
  /-- Field control. -/
  | fldc
  /-- Weigh-house. -/
  | wgh
  /-- Isnak links. -/
  | isk
  /-- Thermal management. -/
  | thm
  /-- CAN controllers. -/
  | can
  /-- Ethernet ports. -/
  | eth
  /-- Host complex. -/
  | hic
  /-- Resets and power. -/
  | pwr
  /-- Control engine. -/
  | eng
  /-- The committed image. -/
  | image
  /-- Self-test. -/
  | bst
  /-- Memory scan. -/
  | chk
  /-- Findings of a command. -/
  | batch
  /-- The last bus result. -/
  | bus
  /-- The count of free values. -/
  | free
  /-- The signal board. -/
  | board
  /-- Bytes below the recipe memory: host SRAM. -/
  | sram
  /-- The fabric's words of the doorbell page. -/
  | page
  /-- Buffers of the record rings. -/
  | records
  /-- Recipe memory. -/
  | recipe
  /-- Table memory. -/
  | table
  /-- The ledger store. -/
  | store
  deriving DecidableEq, Repr

/-- The part of the registers that share the name of the one at an address. -/
def Part.of (a : Nat) : Part := .reg (regNo a)

/-- The command fabric without its rings, its staging buffer and the records that wait. -/
def State.cmdRest (s : State) : Cmd := { s.cmd with sqs := [], rings := [], staged := [], posting := [] }

/-- The PWM generator without its timebases and pairs. -/
def State.pwmRest (s : State) : Pwm := { s.pwm with tbs := [], pairs := [] }

/-- First address of the buffer of a record ring, and the end of what it holds or can hold. -/
def State.recordBase (s : State) (m : Nat) : Nat := sramBase + s.fld (ringBase m) Fld.CMD_CQm_BASE.OFFSET * 16
def State.recordEnd (s : State) (m : Nat) : Nat := s.recordBase m + 16 * max (s.ringSize m) ((s.ring m).pi % 2 ^ 12 + 1)

/-- Whether an address lies in the buffer of a record ring. -/
def State.inRecords (s : State) (a : Nat) : Prop := ∃ m, m ≤ 4 ∧ s.recordBase m ≤ a ∧ a < s.recordEnd m

/-- Areas of memory. -/
def inSram (a : Nat) : Prop := a < recipeBase
def inPage (a : Nat) : Prop := sramBase + doorbell + 0x800 ≤ a ∧ a < sramBase + doorbell + 0x900
def inRecipe' (a : Nat) : Prop := recipeBase ≤ a ∧ a < tableBase
def inTable' (a : Nat) : Prop := tableBase ≤ a ∧ a < ledgerBase
def inStore (a : Nat) : Prop := ledgerBase ≤ a

/-- The area of memory that a part names, in a state. -/
def Part.area (s : State) : Part → Nat → Prop
  | .sram, a => inSram a
  | .page, a => inPage a
  | .records, a => s.inRecords a
  | .recipe, a => inRecipe' a
  | .table, a => inTable' a
  | .store, a => inStore a
  | _, _ => False

/-- A part is the same in two states (areas of memory: see `Kept`). -/
def Part.same (p : Part) (s t : State) : Prop :=
  match p with
  | .reg n => ∀ a, regNo a = n → t.reg a = s.reg a
  | .now => t.now = s.now
  | .t0 => t.t0 = s.t0
  | .prevLen => t.prevLen = s.prevLen
  | .tick => t.tick = s.tick
  | .clk => t.clk = s.clk
  | .vt => t.vt = s.vt
  | .sqs => t.cmd.sqs = s.cmd.sqs
  | .rings => t.cmd.rings = s.cmd.rings
  | .staged => t.cmd.staged = s.cmd.staged
  | .posting => t.cmd.posting = s.cmd.posting
  | .cmdRest => t.cmdRest = s.cmdRest
  | .faults => t.faults = s.faults
  | .led => t.led = s.led
  | .dlink => t.dlink = s.dlink
  | .prot => t.prot = s.prot
  | .tbs => t.pwm.tbs = s.pwm.tbs
  | .pairs => t.pwm.pairs = s.pwm.pairs
  | .pwmRest => t.pwmRest = s.pwmRest
  | .dis => t.dis = s.dis
  | .acq => t.acq = s.acq
  | .pos => t.pos = s.pos
  | .fldc => t.fldc = s.fldc
  | .wgh => t.wgh = s.wgh
  | .isk => t.isk = s.isk
  | .thm => t.thm = s.thm
  | .can => t.can = s.can
  | .eth => t.eth = s.eth
  | .hic => t.hic = s.hic
  | .pwr => t.pwr = s.pwr
  | .eng => t.eng = s.eng
  | .image => t.image = s.image
  | .bst => t.bst = s.bst
  | .chk => t.chk = s.chk
  | .batch => t.batch = s.batch
  | .bus => t.bus = s.bus
  | .free => t.free = s.free
  | .board => t.board = s.board
  | _ => True

/-- From `s` to `t` nothing changes but the parts listed: every other register and component is the same, every
byte of memory outside the areas listed reads as before, and no command enters or leaves the queue. -/
def Kept (ps : List Part) (s t : State) : Prop :=
  (∀ p, p ∉ ps → p.same s t) ∧ (∀ a, (∀ p, p ∈ ps → ¬ p.area s a) → t.byte a = s.byte a) ∧ t.pending = s.pending

/-! ### Completions -/

/-- The completions that wait for their PSN: ring, status and SEQ. -/
def State.awaiting (s : State) : List (Nat × Nat × Nat) := s.cmd.posting.map fun c => (c.ring, c.status, c.seq)

/-- The descriptor is fetched and applies in the present interval: its completion has a slot, nothing bars the
application, and its caravan is not discarded as late (R53, R56, R73, R92). -/
abbrev Timely (o : Origin) (s : State) : Prop :=
  (o.late && s.discardsLate o.ring) = false ∧ s.descWaits o.ring = false ∧ s.applyBarred = false

/-- The descriptor of `o` completes with a status, one more if it is DONE or DONE_IMAGE and late; DONE without CREQ
queues no record (R56, R64). -/
abbrev Completes (o : Origin) (st : Nat) (s t : State) : Prop :=
  t.awaiting = s.awaiting ++ (if lateStatus o.late st = stDone && !o.creq then []
    else [(o.ring.val, lateStatus o.late st, o.seq % 2 ^ 16)])

/-- The PSN after `n` records more. -/
def psnAfterAll (p : Word) (n : Nat) : Word := (List.range n).foldl (fun p _ => psnAfter p) p

/-- A stall loads, and the engine admits it beside the stalls that run. -/
def State.stallAdmitted (s : State) (n : Nat) : Bool :=
  match s.load n with
  | .inl _ => false
  | .inr l => ((s.setLoaded n l).setStallRunning n true).engineRefusal.isNone

/-- The state in which a descriptor is judged: 150 ns after the boundary, or in the next fabric cycle while the tick is
stopped (R85). -/
def State.judgedAt (s : State) : State := ({ s with cmd.fetches := s.cmd.fetches + 1 } : State).intervalBegins

/-- Nothing waits for the end of the application interval: no unit is to leave safe state, and no steering of vehicle
time is to take effect. -/
abbrev State.NoneDue (s : State) : Prop :=
  s.prot.releasing = 0 ∧ s.prot.autoRel = 0 ∧ s.prot.loaded = 0 ∧ s.vt.due = []

/-- A descriptor of its own does not end the interval (the tick runs), or nothing waits for the end. -/
abbrev State.NoRelease (s : State) : Prop := s.ticking = true ∨ s.NoneDue

/-! ### Outcomes -/

/-- The command runs to its end and leaves a state of which `P` holds. -/
def Does (c : Instr) (s : State) (P : State → Prop) : Prop := ∃ t, exec c s = .next t ∧ P t

/-! ### What each command may change -/

/-- What posting an event changes: PSN, fault class F2, the event ring, the escalation count and the ledger (R65 to
R67, R88, R91, R537). -/
def partsEvent : List Part :=
  [Part.of Reg.SYS_FAULTSTAT, Part.of Reg.CMD_PSN, Part.of Reg.CMD_EQ_STAT, .rings, .cmdRest, .faults, .led,
   .hic, .batch, .page, .records]

/-- What putting units into safe state changes beside (R212, R236). -/
def partsSafe : List Part :=
  [Part.of (Reg.PAIRk_MASK 0), Part.of (Reg.PAIRk_LIVE 0), Part.of (Reg.PAIRk_CARRY 0),
   Part.of Reg.PROT_USTAT, Part.of (Reg.PROT_BRb_STAT 0), Part.of (Reg.FLD_MCm_STAT 0), .prot, .pairs,
   .pwmRest]

/-- Latches and levels of the trip sources. -/
def partsLatch : List Part :=
  [Part.of Reg.PROT_LATCH_EXT, Part.of Reg.PROT_LATCH_INT, Part.of Reg.PROT_LEVEL_EXT,
   Part.of Reg.PROT_LEVEL_INT]

/-- Every register of a block. -/
def partsBlock (u : Nat) : List Part := (List.range (regStart (u + 1) - regStart u)).map fun i => .reg (regStart u + i)

/-- What fetching and running a descriptor, posting its completion and posting its events change beside its own
effect: the fetch state of its ring, its completion, and the outputs a raised trip source puts into safe state. -/
def partsRun : List Part :=
  partsEvent ++ partsSafe ++ partsLatch ++ partsBlock UnitCode.pwm ++
  [Part.of Reg.CMD_STAGE, Part.of (Reg.CMD_SQn_STAT 0), Part.of (Reg.CMD_SQn_CNT 0),
   Part.of (Reg.WGH_MCm_STAT 0), Part.of Reg.CLK_STAT, .now, .vt, .sqs, .staged, .posting, .fldc, .eng, .board]

/-- Every part. -/
def partsAll : List Part :=
  (List.range 407).map Part.reg ++
  [.now, .t0, .prevLen, .tick, .clk, .vt, .sqs, .rings, .staged, .posting, .cmdRest, .faults, .led, .dlink,
   .prot, .tbs, .pairs, .pwmRest, .dis, .acq, .pos, .fldc, .wgh, .isk, .thm, .can, .eth, .hic, .pwr, .eng,
   .image, .bst, .chk, .batch, .bus, .free, .board, .sram, .page, .records, .recipe, .table, .store]

/-- The parts that a command may change; an index of a register stands for every index of its array. -/
def touches : Instr → List Part
  | .sqDoorbellWrite _ _ => [Part.of Reg.CMD_STAGE, Part.of (Reg.CMD_SQn_STAT 0), Part.of (Reg.CMD_SQn_CNT 0), .now,
      .sqs, .hic, .bus, .sram]
  | .cqConsumerIndexWrite _ _ => [.now, .rings, .hic, .bus, .sram]
  | .eqConsumerIndexWrite _ => partsEvent ++ [.now, .bus, .sram]
  | .eqOverflow => partsEvent
  | .fetchSlot _ => partsEvent ++ [Part.of Reg.CMD_STAGE, Part.of (Reg.CMD_SQn_STAT 0), Part.of (Reg.CMD_SQn_CNT 0),
      Part.of Reg.HIC_ECC, Part.of Reg.HIC_ECCADR, .now, .sqs, .staged]
  | .caravanCutoff => [Part.of (Reg.CMD_SQn_CNT 0), .now, .staged, .cmdRest]
  | .caravanApplication => partsAll
  | .stoppedTickApplication => partsAll
  | .completionPosting => [Part.of Reg.CMD_PSN, Part.of Reg.CMD_STAGE, Part.of (Reg.CMD_SQn_STAT 0),
      Part.of Reg.CMD_EQ_STAT, .now, .rings, .posting, .cmdRest, .led, .hic, .page, .records]
  | .nop _ _ => partsRun
  | .regWrite _ _ _ _ _ _ => partsAll
  | .regRead _ _ _ _ => partsRun ++ [Part.of Reg.CLK_RTC_HI, Part.of Reg.CLK_TICKCNT_HI, Part.of Reg.ETH_TVT_SEC,
      Part.of Reg.ETH_TVT_NS, Part.of Reg.HIC_MTIME_HI]
  | .paramWrite _ _ _ _ _ _ => partsRun
  | .tableLoad _ _ _ _ _ => partsRun ++ [.image, .chk, .recipe, .table, .store]
  | .stallStart _ _ _ => partsRun ++ [Part.of Reg.ENG_TOLL_REQ, Part.of Reg.ENG_TOLL_SMAX, Part.of Reg.ENG_TOLL_BUD,
      Part.of Reg.ENG_TADM, Part.of (Reg.ENG_RUNMAPj 0)]
  | .stallStop _ _ => partsRun ++ [Part.of Reg.ENG_TOLL_REQ, Part.of Reg.ENG_TOLL_SMAX, Part.of Reg.ENG_TOLL_BUD,
      Part.of Reg.ENG_TADM, Part.of (Reg.ENG_RUNMAPj 0)]
  | .setpoint _ _ _ _ _ _ => partsRun
  | .scheduleSelect _ _ => partsRun ++ [Part.of Reg.ENG_STAT, Part.of Reg.ENG_TOLL_REQ, Part.of Reg.ENG_TOLL_SMAX,
      Part.of Reg.ENG_TOLL_BUD, Part.of Reg.ENG_TADM]
  | .outputEnable _ _ => partsRun
  | .outputDisable _ _ => partsRun
  | .carrierSet _ _ _ => partsRun ++ [Part.of Reg.ENG_TOLL_REQ, Part.of Reg.ENG_TOLL_SMAX, Part.of Reg.ENG_TOLL_BUD,
      Part.of Reg.ENG_TADM, .image]
  | .loadAll _ _ => partsRun
  | .tripClear _ _ _ => partsRun ++ [Part.of Reg.PROT_CNT]
  | .safeRequest _ _ _ => partsRun
  | .driveEnable _ _ => partsRun
  | .discharge _ _ _ _ => partsRun ++ [Part.of Reg.PROT_DIS_STAT, Part.of Reg.PROT_DIS_EEST,
      Part.of Reg.PROT_DIS_ERES, Part.of Reg.PROT_DIS_TIME, .dis]
  | .modeSet _ _ _ _ => partsRun
  | .angleEvent _ _ _ _ => partsRun ++ [Part.of (Reg.FLD_EVs_ANG 0), Part.of (Reg.FLD_EVs_ACT 0),
      Part.of (Reg.FLD_EVs_STAT 0), .image]
  | .channelReadmit _ _ => partsRun ++ partsBlock UnitCode.pos ++ [.pos]
  | .bistRequest _ _ _ => partsRun ++ [Part.of (Reg.CLK_PLLp_STAT 0), Part.of (Reg.CLK_PLLp_OFS 0),
      Part.of Reg.ENG_STAT, Part.of Reg.ACQ_STAT, Part.of Reg.ACQ_CMPSUB, Part.of (Reg.CAN_STAT 0),
      Part.of Reg.CAN_SPSTAT, Part.of Reg.BST_STAT, Part.of Reg.BST_COND, Part.of (Reg.BST_Uu 0), .clk, .tbs, .acq,
      .can, .bst]
  | .unitReadmit _ _ => partsRun ++ [Part.of (Reg.CLK_PLLp_STAT 0), Part.of (Reg.CLK_PLLp_OFS 0),
      Part.of Reg.ENG_STAT, Part.of Reg.ACQ_STAT, Part.of Reg.ACQ_CMPSUB, Part.of (Reg.CAN_STAT 0),
      Part.of Reg.CAN_SPSTAT, Part.of Reg.BST_STAT, Part.of Reg.BST_COND, Part.of (Reg.BST_Uu 0), .clk, .tbs, .acq,
      .can, .bst]
  | .lcsToken _ _ _ => partsRun ++ [.bst]
  | .holdupCheck _ => partsRun ++ [Part.of Reg.HLD_STAT]
  | .ledgerNote _ _ _ _ _ => partsRun
  | .tickRealign _ => partsRun ++ [.tbs]
  | .powerState _ _ => partsRun ++ [Part.of (Reg.CLK_PLLp_STAT 0), Part.of (Reg.CLK_PLLp_OFS 0),
      Part.of (Reg.CAN_STAT 0), Part.of Reg.BST_COND, Part.of Reg.PWR_STATE, .clk, .tbs, .acq, .can, .pwr, .bst]
  | .scanStart _ _ => partsRun ++ [Part.of (Reg.CHK_SCs_STAT 0), .chk]
  | .resume _ => partsEvent ++ partsBlock UnitCode.cmd ++ [.sqs, .staged, .bst, .chk, .bus, .sram]
  | .flush _ => partsEvent ++ partsBlock UnitCode.cmd ++ [.sqs, .staged, .bst, .chk, .bus, .sram]
  | .flushRecordPost _ => [Part.of Reg.CMD_PSN, Part.of Reg.CMD_STAGE, Part.of (Reg.CMD_SQn_STAT 0),
      Part.of Reg.CMD_EQ_STAT, .now, .sqs, .rings, .cmdRest, .led, .hic, .page, .records]
  | .clrcnt _ => partsEvent ++ partsBlock UnitCode.cmd ++ [.sqs, .staged, .bst, .chk, .bus, .sram]
  | .sqEnable _ _ => partsEvent ++ partsBlock UnitCode.cmd ++ [.sqs, .staged, .bst, .chk, .bus, .sram]
  | .ringDisable _ _ => partsEvent ++ partsBlock UnitCode.cmd ++ [.sqs, .staged, .bst, .chk, .bus, .sram]
  | .cqEqEnable _ _ => partsEvent ++ partsBlock UnitCode.cmd ++ [.sqs, .staged, .bst, .chk, .bus, .sram]
  | .evtAck => partsEvent ++ partsBlock UnitCode.cmd ++ [.sqs, .staged, .bst, .chk, .bus, .sram]
  | .setupLock => partsEvent ++ partsSafe ++ partsLatch ++ partsBlock UnitCode.sys ++ partsBlock UnitCode.isk ++
      partsBlock UnitCode.can ++ partsBlock UnitCode.eth ++ partsBlock UnitCode.chk ++ partsBlock UnitCode.xsp ++
      [.isk, .can, .eth, .pwr, .chk, .bus, .free, .sram]
  | .imageSealed => partsEvent ++ [Part.of Reg.SYS_SETUP_LOCK, Part.of Reg.SYS_RESTORE, .pwr, .image]
  | .f2Clear => partsEvent ++ partsSafe ++ partsLatch ++ partsBlock UnitCode.sys ++ partsBlock UnitCode.isk ++
      partsBlock UnitCode.can ++ partsBlock UnitCode.eth ++ partsBlock UnitCode.chk ++ partsBlock UnitCode.xsp ++
      [.isk, .can, .eth, .pwr, .chk, .bus, .free, .sram]
  | .tickBoundary _ => partsEvent ++ partsSafe ++ partsLatch ++ [Part.of Reg.CLK_STAT, Part.of (Reg.CLK_PLLp_STAT 0),
      Part.of (Reg.CLK_PLLp_OFS 0), Part.of Reg.CLK_TICKPER, Part.of Reg.TPR_STAT, Part.of Reg.PWM_LDALL,
      Part.of (Reg.TBn_STAT 0), Part.of (Reg.PAIRk_MASKNX 0), Part.of (Reg.PAIRk_STAT 0), Part.of Reg.ACQ_STAT,
      Part.of (Reg.POS_CHc_STAT 0), Part.of (Reg.FLD_EVs_STAT 0), Part.of (Reg.WGH_MCm_STAT 0),
      Part.of (Reg.ISK_LINKl_STAT 0), Part.of (Reg.ISK_LINKl_CNT 0), Part.of Reg.THM_STAT, Part.of (Reg.CAN_STAT 0),
      Part.of Reg.ETH_TVT_TICK, Part.of Reg.ETH_TVT_SEC, Part.of Reg.ETH_TVT_NS, Part.of Reg.BST_STAT,
      Part.of Reg.BST_COND, Part.of Reg.BST_CNT, Part.of (Reg.BST_Uu 0), Part.of Reg.PWR_STATE, .now, .t0, .prevLen,
      .tick, .clk, .vt, .dlink, .tbs, .acq, .pos, .fldc, .wgh, .isk, .thm, .can, .eth, .pwr, .eng, .bst, .chk]
  | .windowFreeze => [Part.of (Reg.ACQ_Ea_e_WSUM 0 0), Part.of (Reg.ACQ_Ea_e_WCNT 0 0),
      Part.of (Reg.ACQ_Ea_e_WMM 0 0), Part.of (Reg.ACQ_DSc_WIN 0), .now]
  | .signalPublish _ _ _ => partsEvent ++ partsSafe ++ partsLatch ++ [Part.of Reg.PROT_DIS_STAT,
      Part.of Reg.PROT_DIS_ERES, Part.of Reg.PROT_DIS_TIME, Part.of (Reg.ACQ_DSc_STAT 0),
      Part.of (Reg.POS_CHc_STAT 0), Part.of (Reg.WGH_MCm_STAT 0), Part.of (Reg.WGH_MCm_CNT 0),
      Part.of (Reg.ISK_LINKl_STAT 0), Part.of (Reg.ISK_NODEl_n 0 0), Part.of Reg.THM_STAT, Part.of Reg.THM_CNT,
      Part.of Reg.THM_CHIP_P, Part.of Reg.THM_CHIP_T, Part.of (Reg.THM_LEGk_TSW 0), Part.of (Reg.THM_LEGk_TDI 0),
      Part.of (Reg.THM_LEGk_PSW 0), Part.of (Reg.THM_LEGk_PDI 0), Part.of (Reg.THM_ANCHa_T 0), .now, .dis, .acq,
      .pos, .fldc, .wgh, .thm, .eng, .board]
  | .engineStart _ _ _ _ => partsEvent ++ partsSafe ++ partsLatch ++ partsBlock UnitCode.pwm ++
      [Part.of Reg.CLK_STAT, Part.of Reg.CLK_TICKPER_NEXT, Part.of Reg.CMD_STAGE, Part.of (Reg.CMD_SQn_STAT 0),
      Part.of Reg.ENG_STAT, Part.of Reg.ENG_CNT, Part.of Reg.PROT_DIS_STAT, Part.of Reg.PROT_DIS_EEST,
      Part.of Reg.PROT_DIS_ERES, Part.of Reg.PROT_DIS_TIME, Part.of (Reg.WGH_MCm_STAT 0), Part.of Reg.BST_STAT,
      Part.of Reg.BST_CNT, Part.of (Reg.BST_Uu 0), .now, .vt, .sqs, .staged, .posting, .dis, .acq, .fldc, .eng, .bst,
      .board]
  | .votePhase _ _ => partsEvent ++ partsSafe ++ [Part.of Reg.CMD_STAGE, Part.of (Reg.CMD_SQn_STAT 0),
      Part.of Reg.ENG_STAT, Part.of Reg.TPR_STAT, Part.of Reg.TPR_CNT_A, Part.of Reg.TPR_CNT_B, Part.of Reg.TPR_SALT,
      Part.of (Reg.TPR_SIGn_A 0), Part.of (Reg.TPR_SIGn_B 0), Part.of (Reg.TPR_SIGn_C 0),
      Part.of (Reg.TPR_SIGn_TICK 0), Part.of Reg.PROT_DIS_STAT, Part.of Reg.PROT_DIS_EEST, Part.of Reg.PROT_DIS_ERES,
      Part.of Reg.PROT_DIS_TIME, Part.of Reg.BST_STAT, Part.of Reg.BST_CNT, Part.of (Reg.BST_Uu 0), .sqs, .staged,
      .posting, .dis, .acq, .eng, .bst, .board]
  | .holdExpiry => partsEvent ++ partsSafe ++ partsLatch ++ [.eng]
  | .shadowWatchEnd => partsEvent ++ [Part.of Reg.ENG_STAT, Part.of Reg.BST_STAT, Part.of (Reg.BST_Uu 0), .now, .eng,
      .bst]
  | .engineDeadline => partsEvent ++ [Part.of Reg.ENG_CNT, Part.of Reg.TPR_STAT, Part.of Reg.TPR_CNT_B, .now, .eng]
  | .stateScrub => partsEvent ++ [Part.of Reg.TPR_STAT, Part.of Reg.TPR_CNT_A, Part.of Reg.TPR_CNT_B, .now, .eng]
  | .outputTransfer _ => partsEvent ++ [Part.of Reg.TPR_STAT, Part.of Reg.TPR_CNT_B, .now, .eng]
  | .engRunSet _ => partsEvent ++ partsBlock UnitCode.eng ++ [Part.of Reg.TPR_STAT, .eng, .chk, .bus]
  | .engBindWrite _ _ => partsEvent ++ partsBlock UnitCode.eng ++ [Part.of Reg.TPR_STAT, .eng, .chk, .bus]
  | .timebaseRun _ _ => partsEvent ++ partsBlock UnitCode.pwm ++ [Part.of Reg.ENG_TOLL_REQ,
      Part.of Reg.ENG_TOLL_SMAX, Part.of Reg.ENG_TOLL_BUD, Part.of Reg.ENG_TADM, .t0, .prevLen, .tbs, .pairs,
      .pwmRest, .chk, .bus]
  | .ldallWrite _ => partsEvent ++ partsBlock UnitCode.pwm ++ [Part.of Reg.ENG_TOLL_REQ, Part.of Reg.ENG_TOLL_SMAX,
      Part.of Reg.ENG_TOLL_BUD, Part.of Reg.ENG_TADM, .t0, .prevLen, .tbs, .pairs, .pwmRest, .chk, .bus]
  | .timebaseZero _ _ => partsEvent ++ [Part.of Reg.CLK_STAT, Part.of (Reg.CLK_PLLp_OFS 0), Part.of Reg.PWM_LDALL,
      Part.of Reg.PWM_STAT, Part.of (Reg.TBn_STAT 0), Part.of (Reg.TBn_VTERR 0), Part.of (Reg.PAIRk_MASK 0),
      Part.of (Reg.PAIRk_MASKNX 0), Part.of (Reg.PAIRk_LIVE 0), Part.of (Reg.PAIRk_CARRY 0),
      Part.of (Reg.PAIRk_STAT 0), Part.of Reg.PROT_LEVEL_EXT, Part.of Reg.PROT_LEVEL_INT, Part.of Reg.BST_STAT,
      Part.of Reg.BST_CNT, Part.of (Reg.BST_Uu 0), .now, .clk, .prot, .tbs, .pairs, .pwmRest, .acq, .bst]
  | .halfPeriodPoint _ => partsEvent ++ [Part.of Reg.PWM_LDALL, Part.of (Reg.TBn_STAT 0), Part.of (Reg.PAIRk_MASK 0),
      Part.of (Reg.PAIRk_MASKNX 0), Part.of (Reg.PAIRk_LIVE 0), Part.of (Reg.PAIRk_CARRY 0),
      Part.of (Reg.PAIRk_STAT 0), .now, .tbs, .pairs, .pwmRest]
  | .delayLineCalibrated _ => [.tbs]
  | .gateReadbackFail _ => partsEvent ++ partsSafe ++ partsLatch ++ [Part.of Reg.PWM_STAT, Part.of (Reg.BST_Uu 0),
      .bst]
  | .tripFilterActive _ _ _ _ => partsEvent ++ partsSafe ++ partsLatch ++ [Part.of Reg.PROT_CNT,
      Part.of Reg.PROT_DIS_STAT, Part.of Reg.PROT_DIS_EEST, Part.of Reg.PROT_DIS_ERES, Part.of Reg.PROT_DIS_TIME,
      .now, .dis, .board]
  | .tripFilterInactive _ _ _ _ => [Part.of Reg.PROT_LEVEL_EXT, Part.of Reg.PROT_LEVEL_INT, .now, .prot]
  | .comparatorCrossing _ _ _ _ => [.now, .prot, .acq]
  | .safeReadbackFail _ _ => partsEvent ++ partsSafe ++ [Part.of Reg.CMD_STAGE, Part.of (Reg.CMD_SQn_STAT 0),
      Part.of Reg.ENG_STAT, Part.of Reg.PROT_DIS_STAT, Part.of Reg.PROT_DIS_EEST, Part.of Reg.PROT_DIS_ERES,
      Part.of Reg.PROT_DIS_TIME, .sqs, .staged, .posting, .dis, .eng, .board]
  | .acqRunWrite => partsBlock UnitCode.acq ++ [.acq, .chk, .bus]
  | .sarConversionDone _ _ _ _ _ _ _ _ => partsEvent ++ partsSafe ++ partsLatch ++ [Part.of Reg.ACQ_STAT,
      Part.of (Reg.ACQ_GRPg_DIAGCNT 0), Part.of (Reg.ACQ_INk_LAST 0), Part.of (Reg.ACQ_Ea_e_RES 0 0),
      Part.of Reg.BST_STAT, Part.of Reg.BST_CNT, Part.of (Reg.BST_Uu 0), .now, .acq, .bst]
  | .spareShadowEnd _ => partsEvent ++ [Part.of Reg.ACQ_STAT, Part.of (Reg.BST_Uu 0), .acq, .bst]
  | .urgentRequest _ _ => [Part.of Reg.ACQ_STAT, Part.of (Reg.ACQ_GRPg_URGSTAT 0), .acq]
  | .urgentConversionDone _ _ _ _ => [Part.of Reg.ACQ_STAT, Part.of (Reg.ACQ_GRPg_URGRES 0),
      Part.of (Reg.ACQ_GRPg_URGVAL 0), Part.of (Reg.ACQ_GRPg_URGTICK 0), Part.of (Reg.ACQ_GRPg_URGOFS 0),
      Part.of (Reg.ACQ_GRPg_URGSTAT 0), .now, .acq]
  | .comparatorTestStep _ _ => partsEvent ++ partsSafe ++ partsLatch ++ partsBlock UnitCode.pwm ++
      partsBlock UnitCode.can ++ [Part.of Reg.ENG_STAT, Part.of (Reg.PROT_CMPm_CFG 0), Part.of (Reg.PROT_CMPm_THR 0),
      Part.of Reg.ACQ_STAT, Part.of Reg.ACQ_CMPSUB, Part.of Reg.BST_STAT, Part.of Reg.BST_CNT,
      Part.of (Reg.BST_Uu 0), .acq, .can, .eng, .bst, .free, .sram]
  | .dsSincOutput _ => partsEvent ++ partsSafe ++ partsLatch ++ [Part.of (Reg.ACQ_DSc_SINC 0), .acq]
  | .resolverPair _ _ _ _ _ => partsEvent ++ [Part.of (Reg.POS_CHc_CNT 0), Part.of (Reg.POS_CHc_STAT 0),
      Part.of (Reg.POS_CHc_ZCNT 0), .now, .pos]
  | .sincosPair _ _ _ _ => partsEvent ++ [Part.of (Reg.POS_CHc_CNT 0), Part.of (Reg.POS_CHc_STAT 0),
      Part.of (Reg.POS_CHc_ERR 0), Part.of (Reg.POS_CHc_ZCNT 0), .now, .pos]
  | .posEdgeAccepted _ _ _ _ => partsEvent ++ [Part.of (Reg.POS_CHc_CNT 0), Part.of (Reg.POS_CHc_STAT 0),
      Part.of (Reg.POS_CHc_ERR 0), Part.of (Reg.POS_CHc_ZCNT 0), .now, .pos]
  | .posGlitch _ _ => partsEvent ++ [Part.of (Reg.POS_CHc_STAT 0), Part.of (Reg.POS_CHc_ERR 0), .pos]
  | .sentFrame _ _ _ _ _ _ _ _ => partsEvent ++ [Part.of (Reg.POS_CHc_CNT 0), Part.of (Reg.POS_CHc_STAT 0),
      Part.of (Reg.POS_CHc_ERR 0), Part.of (Reg.POS_CHc_ZCNT 0), Part.of (Reg.POS_CHc_SLOW 0), .now, .pos]
  | .ssiFrameStart _ _ => [.now, .pos]
  | .ssiFrame _ _ _ => partsEvent ++ [Part.of (Reg.POS_CHc_CNT 0), Part.of (Reg.POS_CHc_STAT 0),
      Part.of (Reg.POS_CHc_ERR 0), Part.of (Reg.POS_CHc_ZCNT 0), .now, .pos]
  | .frameTimeout _ _ => partsEvent ++ [Part.of (Reg.POS_CHc_STAT 0), .now, .pos]
  | .coastExpired _ _ => partsEvent ++ [Part.of (Reg.POS_CHc_STAT 0), .now, .pos]
  | .excFault _ _ => partsEvent ++ [Part.of (Reg.POS_CHc_STAT 0), .pos]
  | .sensvFault _ _ _ => partsEvent ++ [Part.of (Reg.POS_SENSVn_CFG 0), Part.of (Reg.POS_CHc_STAT 0), .now, .pos]
  | .sensvEnable _ => partsBlock UnitCode.pos ++ [.faults, .pos, .chk, .bus]
  | .wrapClear _ => partsBlock UnitCode.pos ++ [.faults, .pos, .chk, .bus]
  | .angleEventArm _ _ => partsEvent ++ partsBlock UnitCode.fld ++ [.fldc, .chk, .bus]
  | .angleEventFire _ _ => partsEvent ++ [Part.of (Reg.PAIRk_MASK 0), Part.of (Reg.PAIRk_LIVE 0),
      Part.of (Reg.PAIRk_CARRY 0), Part.of (Reg.FLD_MCm_STAT 0), Part.of (Reg.FLD_EVs_STAT 0), .now, .pairs,
      .pwmRest, .acq, .fldc]
  | .sixstepCrossing _ _ => [Part.of (Reg.PAIRk_MASK 0), Part.of (Reg.PAIRk_LIVE 0), Part.of (Reg.PAIRk_CARRY 0),
      Part.of (Reg.FLD_MCm_STAT 0), .now, .pairs, .pwmRest]
  | .watchEnd _ _ => partsEvent ++ partsSafe ++ partsLatch ++ [.now, .fldc, .eng, .board]
  | .waitEnd _ _ => [Part.of (Reg.PAIRk_CARRY 0), Part.of (Reg.FLD_MCm_STAT 0), .now, .prot, .pairs, .fldc]
  | .catchEnd _ => [Part.of (Reg.PAIRk_CARRY 0), Part.of (Reg.FLD_MCm_STAT 0), .prot, .pairs, .fldc]
  | .wghSelftest _ _ => partsEvent ++ [.now, .wgh]
  | .wghEnable _ _ => partsEvent ++ partsBlock UnitCode.wgh ++ [.wgh, .chk, .bus]
  | .dischargeProgressCheck => partsEvent ++ [Part.of Reg.PROT_DIS_STAT, Part.of Reg.PROT_DIS_TIME, .now, .prot,
      .pairs, .dis, .board]
  | .dischargeDeadline => partsEvent ++ [Part.of Reg.PROT_DIS_STAT, Part.of Reg.PROT_DIS_TIME, .now, .prot, .pairs,
      .dis, .board]
  | .iskLinkEnable _ _ => partsEvent ++ partsSafe ++ partsLatch ++ partsBlock UnitCode.isk ++ [.isk, .chk, .bus]
  | .iskEdgePlanSend _ => [Part.of (Reg.ISK_LINKl_CNT 0), .now, .isk]
  | .iskCollectionSend _ => [.now, .isk]
  | .iskCollectionJudge _ _ _ => partsEvent ++ partsSafe ++ partsLatch ++ [Part.of (Reg.ISK_LINKl_CNT 0), .now, .isk]
  | .iskEnumeration _ _ _ => partsEvent ++ partsSafe ++ partsLatch ++ [Part.of (Reg.ISK_LINKl_STAT 0), .now, .isk]
  | .iskIdleHeartbeat _ _ => partsEvent ++ [Part.of Reg.PROT_LEVEL_EXT, Part.of Reg.PROT_LEVEL_INT,
      Part.of (Reg.ISK_LINKl_STAT 0), Part.of (Reg.ISK_LINKl_CNT 0), .now, .prot, .isk]
  | .isk1Broadcast _ => partsEvent ++ partsSafe ++ partsLatch ++ [Part.of (Reg.ISK_LINKl_STAT 0), .now, .isk]
  | .isk1Poll _ _ _ => partsEvent ++ partsSafe ++ partsLatch ++ [Part.of (Reg.ISK_LINKl_CNT 0), .now, .isk]
  | .referenceLost => partsEvent ++ [Part.of Reg.CLK_STAT, Part.of Reg.CLK_CNT, Part.of (Reg.CLK_PLLp_STAT 0), .clk]
  | .referenceReturn _ _ _ => partsEvent ++ [Part.of Reg.CLK_STAT, Part.of (Reg.CLK_PLLp_STAT 0), .clk]
  | .holdoverTimeout => partsEvent ++ partsSafe ++ partsLatch ++ [Part.of Reg.CLK_STAT, Part.of Reg.CLK_CNT,
      Part.of (Reg.CLK_PLLp_STAT 0), Part.of (Reg.TBn_STAT 0), Part.of (Reg.CAN_STAT 0), Part.of (Reg.ETH_Pp_STAT 0),
      Part.of Reg.BST_COND, Part.of (Reg.BST_Uu 0), .now, .clk, .tbs, .can]
  | .pllFilterCheck _ _ _ => partsEvent ++ [Part.of (Reg.CLK_PLLp_STAT 0), Part.of (Reg.CLK_PLLp_OFS 0), .clk]
  | .pllLockDeclared _ _ => [Part.of (Reg.CLK_PLLp_STAT 0), Part.of Reg.PROT_LEVEL_EXT, Part.of Reg.PROT_LEVEL_INT,
      Part.of (Reg.BST_Uu 0), .clk, .prot]
  | .pllUnlock _ _ => partsEvent ++ partsSafe ++ partsLatch ++ [Part.of Reg.CLK_STAT, Part.of Reg.CLK_CNT,
      Part.of (Reg.CLK_PLLp_STAT 0), Part.of (Reg.TBn_STAT 0), Part.of (Reg.CAN_STAT 0), Part.of (Reg.ETH_Pp_STAT 0),
      Part.of Reg.BST_STAT, Part.of Reg.BST_COND, Part.of Reg.BST_CNT, Part.of (Reg.BST_Uu 0), .clk, .tbs, .acq,
      .can, .bst]
  | .pllFail _ _ _ => partsEvent ++ partsSafe ++ partsLatch ++ [Part.of Reg.CLK_STAT, Part.of (Reg.CLK_PLLp_STAT 0),
      Part.of (Reg.TBn_STAT 0), Part.of (Reg.CAN_STAT 0), Part.of (Reg.ETH_Pp_STAT 0), Part.of Reg.BST_STAT,
      Part.of Reg.BST_COND, Part.of Reg.BST_CNT, Part.of (Reg.BST_Uu 0), .clk, .tbs, .acq, .can, .bst]
  | .pllQuarantineEnd _ _ => partsEvent ++ [Part.of Reg.CLK_STAT, Part.of Reg.CLK_CNT, Part.of (Reg.CLK_PLLp_STAT 0),
      Part.of (Reg.TBn_STAT 0), Part.of Reg.PROT_LEVEL_EXT, Part.of Reg.PROT_LEVEL_INT, Part.of (Reg.CAN_STAT 0),
      Part.of Reg.BST_COND, Part.of (Reg.BST_Uu 0), .clk, .prot, .tbs, .pairs, .can]
  | .pllProgramWrite _ _ _ => partsEvent ++ partsSafe ++ partsLatch ++ partsBlock UnitCode.clk ++
      [Part.of Reg.ENG_TOLL_REQ, Part.of Reg.ENG_TOLL_SMAX, Part.of Reg.ENG_TOLL_BUD, Part.of Reg.ENG_TADM,
      Part.of (Reg.TBn_PER 0), Part.of (Reg.TBn_STAT 0), Part.of (Reg.CAN_STAT 0), Part.of (Reg.ETH_Pp_STAT 0),
      Part.of Reg.BST_COND, .clk, .tbs, .can, .image, .chk, .bus]
  | .tickInEdge _ => partsEvent ++ [Part.of Reg.CLK_TICKIN_ERR, .now, .clk]
  | .tickInMissing => partsEvent ++ [.now, .clk]
  | .rtcSourceSwitch => [Part.of Reg.CLK_STAT]
  | .tickcntLoRead => [Part.of Reg.CLK_RTC_HI, Part.of Reg.CLK_TICKCNT_HI, Part.of Reg.ETH_TVT_SEC,
      Part.of Reg.ETH_TVT_NS, Part.of Reg.HIC_MTIME_HI, Part.of (Reg.HIC_SEMn 0), .vt, .hic, .bus]
  | .rtcLoRead => [Part.of Reg.CLK_RTC_HI, Part.of Reg.CLK_TICKCNT_HI, Part.of Reg.ETH_TVT_SEC,
      Part.of Reg.ETH_TVT_NS, Part.of Reg.HIC_MTIME_HI, Part.of (Reg.HIC_SEMn 0), .vt, .hic, .bus]
  | .mtimeLoRead => [Part.of Reg.CLK_RTC_HI, Part.of Reg.CLK_TICKCNT_HI, Part.of Reg.ETH_TVT_SEC,
      Part.of Reg.ETH_TVT_NS, Part.of Reg.HIC_MTIME_HI, Part.of (Reg.HIC_SEMn 0), .vt, .hic, .bus]
  | .canTxDoorbell _ _ => [.now, .can, .hic, .bus, .sram]
  | .canRxConsumerWrite _ _ => [.now, .can, .hic, .bus, .sram]
  | .canTxFetch _ => partsEvent ++ [Part.of (Reg.CAN_CNT2 0), Part.of (Reg.CAN_TXIDX 0), Part.of Reg.HIC_ECC,
      Part.of Reg.HIC_ECCADR, .can]
  | .canTxresume _ => partsBlock UnitCode.can ++ [.can, .hic, .chk, .bus, .free, .sram]
  | .canTxflush _ => partsBlock UnitCode.can ++ [.can, .hic, .chk, .bus, .free, .sram]
  | .canInitSet _ _ => partsBlock UnitCode.can ++ [.can, .hic, .chk, .bus, .free, .sram]
  | .canInitClear _ _ => partsBlock UnitCode.can ++ [.can, .hic, .chk, .bus, .free, .sram]
  | .canFrameSent _ _ _ _ => partsEvent ++ [Part.of (Reg.CLK_PLLp_STAT 0), Part.of (Reg.CLK_PLLp_OFS 0),
      Part.of (Reg.CAN_STAT 0), Part.of (Reg.CAN_ERR 0), Part.of (Reg.CAN_CNT 0), Part.of (Reg.CAN_CNT2 0),
      Part.of (Reg.CAN_RXIDX 0), Part.of Reg.PWR_STATE, Part.of Reg.PWR_WAKESTAT, .clk, .can, .pwr, .sram]
  | .canFrameReceived _ _ _ _ _ _ _ _ => partsEvent ++ [Part.of (Reg.CLK_PLLp_STAT 0), Part.of (Reg.CLK_PLLp_OFS 0),
      Part.of (Reg.CAN_CTRL 0), Part.of (Reg.CAN_STAT 0), Part.of (Reg.CAN_NBT 0), Part.of (Reg.CAN_DBT 0),
      Part.of (Reg.CAN_ERR 0), Part.of (Reg.CAN_CNT 0), Part.of (Reg.CAN_RXIDX 0), Part.of Reg.PWR_STATE,
      Part.of Reg.PWR_WAKESTAT, .clk, .can, .pwr, .free, .sram]
  | .canRateCandidateSwitch _ => partsEvent ++ [Part.of (Reg.CAN_STAT 0), .can]
  | .canErrorStateChange _ _ _ _ => partsEvent ++ [Part.of (Reg.CAN_STAT 0), Part.of (Reg.CAN_ERR 0),
      Part.of (Reg.CAN_CNT 0), .can]
  | .canBusRecovered _ => partsEvent ++ [Part.of (Reg.CAN_STAT 0), Part.of (Reg.CAN_ERR 0), .can]
  | .canTxExpired _ _ => [Part.of (Reg.CAN_CNT 0), Part.of (Reg.CAN_RXIDX 0), .now, .can, .hic, .free, .sram]
  | .canTtCycleStart _ _ => [Part.of (Reg.CAN_CNT 0), Part.of (Reg.CAN_TTSTAT 0), .now]
  | .canTtColumn _ _ => [.can]
  | .canTtWindowEnd _ _ => partsEvent ++ [Part.of (Reg.CAN_CNT 0), .can]
  | .canUnitFailure _ _ => partsEvent ++ partsBlock UnitCode.can ++ [Part.of Reg.BST_STAT, Part.of Reg.BST_CNT,
      Part.of (Reg.BST_Uu 0), .acq, .can, .bst, .free, .sram]
  | .canSpareSwitchIn _ => partsEvent ++ [Part.of (Reg.CAN_STAT 0), .can]
  | .canShadowEnd _ _ => partsEvent ++ [Part.of (Reg.CAN_STAT 0), Part.of Reg.CAN_SPSTAT, Part.of Reg.BST_STAT,
      Part.of (Reg.BST_Uu 0), .can, .bst]
  | .ethTxDoorbell _ _ => [.now, .eth, .hic, .bus, .sram]
  | .ethRxConsumerWrite _ _ => [.now, .eth, .hic, .bus, .sram]
  | .ethTxFetch _ => partsEvent ++ [Part.of (Reg.ETH_Pp_IDX 0), Part.of (Reg.ETH_Pp_CNT 0), Part.of Reg.HIC_ECC,
      Part.of Reg.HIC_ECCADR, .eth]
  | .ethTxresume _ => partsEvent ++ partsBlock UnitCode.eth ++ [Part.of Reg.CLK_STAT, .vt, .eth, .chk, .bus, .free,
      .sram]
  | .ethTxflush _ => partsEvent ++ partsBlock UnitCode.eth ++ [Part.of Reg.CLK_STAT, .vt, .eth, .chk, .bus, .free,
      .sram]
  | .ethTxFrameSent _ _ _ _ => [Part.of (Reg.ETH_Pp_IDX 0), .eth, .hic, .sram]
  | .ethTxExpired _ _ => [Part.of (Reg.ETH_Pp_IDX 0), Part.of (Reg.ETH_Pp_CNT 0), .now, .eth, .hic, .free, .sram]
  | .ethFrameReceived _ _ _ _ _ _ => partsEvent ++ [Part.of (Reg.CLK_PLLp_STAT 0), Part.of (Reg.CLK_PLLp_OFS 0),
      Part.of (Reg.ETH_Pp_IDX 0), Part.of (Reg.ETH_Pp_CNT 0), Part.of Reg.PWR_STATE, Part.of Reg.PWR_WAKESTAT, .clk,
      .eth, .pwr, .sram]
  | .ethVtRateWrite _ => partsEvent ++ partsBlock UnitCode.eth ++ [Part.of Reg.CLK_STAT, .vt, .eth, .chk, .bus,
      .free, .sram]
  | .ethVtStep _ => partsEvent ++ partsBlock UnitCode.eth ++ [Part.of Reg.CLK_STAT, .vt, .eth, .chk, .bus, .free,
      .sram]
  | .ethVtSet => partsEvent ++ partsBlock UnitCode.eth ++ [Part.of Reg.CLK_STAT, .vt, .eth, .chk, .bus, .free, .sram]
  | .vtTimeout => partsEvent ++ [Part.of Reg.CLK_STAT, .now]
  | .ethTvtTickRead => [Part.of Reg.CLK_RTC_HI, Part.of Reg.CLK_TICKCNT_HI, Part.of Reg.ETH_TVT_SEC,
      Part.of Reg.ETH_TVT_NS, Part.of Reg.HIC_MTIME_HI, Part.of (Reg.HIC_SEMn 0), .vt, .hic, .bus]
  | .ethMdioCommand _ => partsEvent ++ partsBlock UnitCode.eth ++ [Part.of Reg.CLK_STAT, .vt, .eth, .chk, .bus,
      .free, .sram]
  | .ethMdioDone _ => [Part.of Reg.ETH_MDIO, .hic]
  | .ethPhyInterrupt => partsEvent ++ [Part.of (Reg.ETH_Pp_STAT 0), .eth]
  | .ethLinkChange _ _ => partsEvent ++ [Part.of (Reg.ETH_Pp_STAT 0)]
  | .plcaBeaconLoss => partsEvent ++ [Part.of (Reg.ETH_Pp_STAT 0)]
  | .plcaBeaconReturn => partsEvent ++ [Part.of (Reg.ETH_Pp_STAT 0)]
  | .core1Start => partsEvent ++ partsSafe ++ partsLatch ++ partsBlock UnitCode.hic ++ [.chk, .bus]
  | .cacheInvalidate _ _ _ => partsEvent ++ partsSafe ++ partsLatch ++ partsBlock UnitCode.hic ++ [.chk, .bus]
  | .irqClaim _ => [.hic, .bus]
  | .irqComplete _ _ => [.hic, .bus]
  | .semRead _ _ => [Part.of (Reg.HIC_SEMn 0), .bus]
  | .semFree _ _ _ => [Part.of (Reg.HIC_SEMn 0), .bus]
  | .wdogEnable _ _ => partsEvent ++ partsSafe ++ partsLatch ++ partsBlock UnitCode.hic ++ [.chk, .bus]
  | .wdogService _ _ _ _ => partsEvent ++ partsSafe ++ partsLatch ++ [Part.of (Reg.HIC_WDw_STAT 0), .now, .bus]
  | .wdogPrewarning _ => [.now, .hic]
  | .wdogClose _ _ => partsEvent ++ partsSafe ++ partsLatch ++ [Part.of (Reg.HIC_WDw_STAT 0), .now]
  | .wdogReset _ => partsEvent ++ partsSafe ++ [Part.of Reg.BST_STAT, Part.of Reg.BST_CNT, Part.of (Reg.BST_Uu 0),
      Part.of Reg.HLD_HEAD, Part.of Reg.HLD_SECSEQ, Part.of Reg.HLD_DURABLE, Part.of Reg.HLD_CNT, .now, .dlink, .acq,
      .pwr, .bst, .store]
  | .xspCommand _ => partsEvent ++ partsBlock UnitCode.xsp ++ [.chk, .bus]
  | .xspCommandDone _ => [Part.of Reg.XSP_STAT, Part.of (Reg.XSP_DATA 0), .hic]
  | .xspReadTimeout _ _ => partsEvent ++ [Part.of Reg.XSP_STAT, .bus]
  | .gpioEdge _ _ => [Part.of Reg.GPIO_IN, Part.of Reg.GPIO_IRQSTAT]
  | .bootOk => partsEvent ++ partsSafe ++ partsLatch ++ partsBlock UnitCode.sys ++ partsBlock UnitCode.isk ++
      partsBlock UnitCode.can ++ partsBlock UnitCode.eth ++ partsBlock UnitCode.chk ++ partsBlock UnitCode.xsp ++
      [.isk, .can, .eth, .pwr, .chk, .bus, .free, .sram]
  | .bootCommit => partsEvent ++ partsSafe ++ partsLatch ++ partsBlock UnitCode.sys ++ partsBlock UnitCode.isk ++
      partsBlock UnitCode.can ++ partsBlock UnitCode.eth ++ partsBlock UnitCode.chk ++ partsBlock UnitCode.xsp ++
      [.isk, .can, .eth, .pwr, .chk, .bus, .free, .sram]
  | .chkAlgWrite _ _ => partsBlock UnitCode.chk ++ [.chk, .bus]
  | .chkSeedWrite _ _ => partsBlock UnitCode.chk ++ [.chk, .bus]
  | .chkDataWrite _ _ => partsBlock UnitCode.chk ++ [.chk, .bus]
  | .chkDatabWrite _ _ => partsBlock UnitCode.chk ++ [.chk, .bus]
  | .chkResultRead _ => [Part.of Reg.CLK_RTC_HI, Part.of Reg.CLK_TICKCNT_HI, Part.of Reg.ETH_TVT_SEC,
      Part.of Reg.ETH_TVT_NS, Part.of Reg.HIC_MTIME_HI, Part.of (Reg.HIC_SEMn 0), .vt, .hic, .bus]
  | .scanPeriodStart _ => [Part.of (Reg.CHK_SCs_STAT 0), .now, .chk]
  | .scanGo _ => partsBlock UnitCode.chk ++ [.chk, .bus]
  | .scanTargetDone _ _ _ => partsEvent ++ partsSafe ++ partsLatch ++ partsBlock UnitCode.wgh ++
      [Part.of Reg.SYS_RESTORE, Part.of (Reg.CHK_SCs_RES 0), Part.of (Reg.CHK_SCs_STAT 0), .wgh, .image, .chk, .sram,
      .recipe, .table, .store]
  | .rotationStep _ => partsEvent ++ [Part.of Reg.CLK_STAT, Part.of (Reg.CLK_PLLp_STAT 0),
      Part.of (Reg.CLK_PLLp_OFS 0), Part.of Reg.ENG_STAT, Part.of Reg.PWM_STAT, Part.of (Reg.TBn_STAT 0),
      Part.of Reg.ACQ_STAT, Part.of Reg.ACQ_CMPSUB, Part.of (Reg.CAN_STAT 0), Part.of Reg.CAN_SPSTAT,
      Part.of Reg.BST_STAT, Part.of Reg.BST_COND, Part.of (Reg.BST_Uu 0), .now, .clk, .tbs, .pairs, .acq, .can, .eng,
      .bst]
  | .rotationRetry _ => partsEvent ++ [Part.of Reg.CLK_STAT, Part.of (Reg.CLK_PLLp_STAT 0),
      Part.of (Reg.CLK_PLLp_OFS 0), Part.of Reg.ENG_STAT, Part.of Reg.PWM_STAT, Part.of (Reg.TBn_STAT 0),
      Part.of Reg.ACQ_STAT, Part.of Reg.ACQ_CMPSUB, Part.of (Reg.CAN_STAT 0), Part.of Reg.CAN_SPSTAT,
      Part.of Reg.BST_STAT, Part.of Reg.BST_COND, Part.of (Reg.BST_Uu 0), .now, .clk, .tbs, .pairs, .acq, .can, .eng,
      .bst]
  | .bistComplete _ _ _ => partsEvent ++ partsSafe ++ partsLatch ++ partsBlock UnitCode.can ++ [Part.of Reg.ENG_STAT,
      Part.of Reg.PWM_STAT, Part.of Reg.ACQ_STAT, Part.of Reg.ACQ_CMPSUB, Part.of Reg.BST_STAT, Part.of Reg.BST_CNT,
      Part.of (Reg.BST_Uu 0), .acq, .can, .eng, .bst, .free, .sram]
  | .bistAbort _ => partsEvent ++ partsBlock UnitCode.can ++ [Part.of Reg.BST_STAT, Part.of Reg.BST_COND,
      Part.of Reg.BST_CNT, Part.of (Reg.BST_Uu 0), .clk, .acq, .bst]
  | .quarantineEnd _ _ => partsEvent ++ partsBlock UnitCode.pwm ++ [Part.of Reg.ENG_STAT, Part.of Reg.PROT_LEVEL_EXT,
      Part.of Reg.PROT_LEVEL_INT, Part.of (Reg.PROT_CMPm_CFG 0), Part.of (Reg.PROT_CMPm_THR 0), Part.of Reg.ACQ_STAT,
      Part.of Reg.ACQ_CMPSUB, Part.of (Reg.CAN_STAT 0), Part.of Reg.CAN_SPSTAT, Part.of (Reg.BST_Uu 0), .prot,
      .pairs, .pwmRest, .acq, .bst]
  | .sramRowRepair _ _ _ => partsEvent ++ [.bst]
  | .rowCopyDone _ => partsEvent ++ [Part.of Reg.BST_REPAIR, .bst]
  | .lcsTokenVerified => partsEvent ++ [Part.of Reg.BST_CNT, Part.of (Reg.BST_NONCEi 0), Part.of Reg.BST_LCCNT, .bst,
      .free]
  | .holdupReady _ => [Part.of Reg.HLD_STAT, Part.of Reg.HLD_VHOLD, .led]
  | .holdupPeriodic _ => [Part.of Reg.HLD_STAT, .now, .led]
  | .holdupCheckComplete _ _ _ _ => partsEvent ++ [Part.of Reg.HLD_STAT, Part.of Reg.HLD_CAP, Part.of Reg.HLD_ESR,
      Part.of Reg.HLD_ENERGY, Part.of Reg.HLD_CNT, .free]
  | .vholdDrop _ => partsEvent ++ [Part.of Reg.HLD_STAT, Part.of Reg.HLD_VHOLD]
  | .supplyLoss _ => [Part.of Reg.CMD_PSN, Part.of Reg.HLD_STAT, .cmdRest, .led, .dlink]
  | .commitEnd => partsEvent ++ partsSafe ++ [Part.of Reg.BST_STAT, Part.of Reg.BST_CNT, Part.of (Reg.BST_Uu 0),
      Part.of Reg.HLD_HEAD, Part.of Reg.HLD_SECSEQ, Part.of Reg.HLD_DURABLE, Part.of Reg.HLD_CNT, .dlink, .acq, .pwr,
      .bst, .store]
  | .ledgerUnitWritten => [Part.of Reg.HLD_HEAD, Part.of Reg.HLD_SECSEQ, Part.of Reg.HLD_DURABLE, .led, .bst, .store]
  | .ledgerOverflowEntry => partsEvent
  | .ledgerExportRequest _ _ => [Part.of Reg.HLD_STAT, .led]
  | .dlinkFrameReceive _ _ _ _ _ => partsEvent ++ partsSafe ++ partsLatch ++ [Part.of Reg.SYS_DLINK_STAT,
      Part.of Reg.HLD_CNT, .dlink, .free]
  | .dlinkHeartbeatTimeout _ => partsEvent ++ partsSafe ++ partsLatch ++ [Part.of Reg.SYS_DLINK_STAT, .now]
  | .fieldDieIdentity _ => [Part.of Reg.SYS_DEVID, Part.of Reg.SYS_RSTCAUSE]
  | .powerOnReset => partsEvent ++ partsSafe ++ [Part.of Reg.BST_STAT, Part.of Reg.BST_CNT, Part.of (Reg.BST_Uu 0),
      Part.of Reg.HLD_HEAD, Part.of Reg.HLD_SECSEQ, Part.of Reg.HLD_DURABLE, Part.of Reg.HLD_CNT, .dlink, .acq, .pwr,
      .bst, .store]
  | .resetPin _ => partsEvent ++ partsSafe ++ [Part.of Reg.BST_STAT, Part.of Reg.BST_CNT, Part.of (Reg.BST_Uu 0),
      Part.of Reg.HLD_HEAD, Part.of Reg.HLD_SECSEQ, Part.of Reg.HLD_DURABLE, Part.of Reg.HLD_CNT, .now, .dlink, .acq,
      .pwr, .bst, .store]
  | .swsysWrite => partsEvent ++ partsSafe ++ partsLatch ++ partsBlock UnitCode.sys ++ partsBlock UnitCode.isk ++
      partsBlock UnitCode.can ++ partsBlock UnitCode.eth ++ partsBlock UnitCode.chk ++ partsBlock UnitCode.xsp ++
      [.isk, .can, .eth, .pwr, .chk, .bus, .free, .sram]
  | .swsubWrite _ => partsEvent ++ partsSafe ++ partsLatch ++ partsBlock UnitCode.sys ++ partsBlock UnitCode.isk ++
      partsBlock UnitCode.can ++ partsBlock UnitCode.eth ++ partsBlock UnitCode.chk ++ partsBlock UnitCode.xsp ++
      [.isk, .can, .eth, .pwr, .chk, .bus, .free, .sram]
  | .swsubDone => [Part.of Reg.SYS_SWSUB]
  | .lcsReset => partsEvent ++ partsSafe ++ [Part.of Reg.BST_STAT, Part.of Reg.BST_CNT, Part.of (Reg.BST_Uu 0),
      Part.of Reg.HLD_HEAD, Part.of Reg.HLD_SECSEQ, Part.of Reg.HLD_DURABLE, Part.of Reg.HLD_CNT, .dlink, .acq, .pwr,
      .bst, .store]
  | .resetRelease _ => partsAll
  | .marchDone _ _ _ => [Part.of Reg.SYS_BOOTSTAT, Part.of Reg.SYS_BOOTREJ, Part.of Reg.BST_REPAIR,
      Part.of (Reg.HIC_WDw_CFG 0), Part.of (Reg.HIC_WDw_WIN 0), Part.of Reg.XSP_CFG, Part.of Reg.XSP_PROT, .hic,
      .pwr, .bst, .sram, .recipe, .table, .store]
  | .imageSealCheck => [Part.of Reg.SYS_RESTORE, .pwr]
  | .restoreGo => partsEvent ++ partsSafe ++ partsLatch ++ partsBlock UnitCode.sys ++ partsBlock UnitCode.isk ++
      partsBlock UnitCode.can ++ partsBlock UnitCode.eth ++ partsBlock UnitCode.chk ++ partsBlock UnitCode.xsp ++
      [.isk, .can, .eth, .pwr, .chk, .bus, .free, .sram]
  | .restoreDone => partsAll
  | .wake _ _ _ _ => partsEvent ++ partsSafe ++ [Part.of (Reg.CLK_PLLp_STAT 0), Part.of (Reg.CLK_PLLp_OFS 0),
      Part.of Reg.BST_STAT, Part.of Reg.BST_CNT, Part.of (Reg.BST_Uu 0), Part.of Reg.HLD_HEAD,
      Part.of Reg.HLD_SECSEQ, Part.of Reg.HLD_DURABLE, Part.of Reg.HLD_CNT, Part.of Reg.PWR_STATE,
      Part.of Reg.PWR_WAKESTAT, .now, .clk, .dlink, .acq, .pwr, .bst, .store]
  | .parkExit _ => partsEvent ++ partsBlock UnitCode.pwm ++ partsBlock UnitCode.can ++ [Part.of Reg.CLK_STAT,
      Part.of (Reg.CLK_PLLp_STAT 0), Part.of (Reg.CLK_PLLp_OFS 0), Part.of Reg.ENG_STAT, Part.of Reg.PROT_LEVEL_EXT,
      Part.of Reg.PROT_LEVEL_INT, Part.of (Reg.PROT_CMPm_CFG 0), Part.of (Reg.PROT_CMPm_THR 0), Part.of Reg.ACQ_STAT,
      Part.of Reg.ACQ_CMPSUB, Part.of Reg.BST_STAT, Part.of Reg.BST_COND, Part.of (Reg.BST_Uu 0),
      Part.of Reg.PWR_STATE, Part.of Reg.PWR_PARKTIME, .now, .t0, .prevLen, .clk, .prot, .tbs, .pairs, .pwmRest,
      .acq, .can, .pwr, .eng, .bst]
  | .sleepPowerDown => [Part.of Reg.HLD_HEAD, Part.of Reg.HLD_SECSEQ, Part.of Reg.HLD_DURABLE, Part.of Reg.HLD_CNT,
      .led, .dlink, .pwr, .bst, .store]
  | .registerWrite _ _ _ _ => partsEvent ++ partsSafe ++ partsLatch ++ (List.range 22).flatMap partsBlock ++ [.t0,
      .prevLen, .clk, .vt, .sqs, .staged, .tbs, .acq, .pos, .fldc, .wgh, .isk, .can, .eth, .pwr, .eng, .image, .bst,
      .chk, .bus, .free, .sram]
  | .supplyMonitorChange _ _ => partsEvent ++ partsSafe ++ partsLatch ++ [Part.of Reg.PROT_DIS_STAT,
      Part.of Reg.PROT_DIS_EEST, Part.of Reg.PROT_DIS_ERES, Part.of Reg.PROT_DIS_TIME, .now, .dis, .pwr, .board]
  | .dsBitSampled _ _ _ _ => [Part.of (Reg.ACQ_DSc_STAT 0), .now, .acq]
  | .mtimecmpReached _ _ => [.now, .hic]
  | .coreMemoryAccess _ _ _ _ _ _ _ _ => partsAll
  | .debugHalt _ _ => [.hic]
  | .tapInstruction _ => [.hic]
  | .canTxStart _ _ => [.now, .can]
  | .canBusError _ _ _ _ _ => partsEvent ++ [Part.of (Reg.CAN_STAT 0), Part.of (Reg.CAN_ERR 0),
      Part.of (Reg.CAN_CNT2 0), .can]
  | .canIntegrationDone _ => [Part.of (Reg.CAN_STAT 0)]
  | .ethTxStart _ _ => [.now, .eth]
  | .swsysResetAssert => partsEvent ++ partsSafe ++ [Part.of Reg.BST_STAT, Part.of Reg.BST_CNT,
      Part.of (Reg.BST_Uu 0), Part.of Reg.HLD_HEAD, Part.of Reg.HLD_SECSEQ, Part.of Reg.HLD_DURABLE,
      Part.of Reg.HLD_CNT, .now, .dlink, .acq, .pwr, .bst, .store]

end Sys2Proof.Machine
end

