-- ==== Sys2Proof/Certificates/Slice0/Obligations.lean ====
section
/-! DEFINITION. The statements about the block, for the provers. -/

set_option Elab.async false

open Sys2Proof Sys2Proof.Machine

/-! ### The state, the step and the frame of every command -/

/-- The state after reset is sound: its stores are in canonical form, the tick counter lies within its 48 bits, the next
PSN is not 0, and no finding of a command is open. -/
def Obligations.ResetIsSound : Prop :=
  State.reset.Sound

/-- After reset every field of every register of the spec's register tables holds the reset value the table gives, the
tick counter is 0, the next PSN is 1, every byte of memory reads 0, no command waits, and the march runs. (Where a
table gives no value the model's choice is in its log.) -/
def Obligations.ResetHoldsTheTableValues : Prop :=
  (∀ (a i : Nat) (d : RegDesc), regAt a = some (d, i) → ∀ f ∈ d.fields, f.bits.of (State.reset.reg a) = f.reset i % 2 ^ f.bits.width) ∧
  State.reset.tick = 0 ∧ State.reset.reg Reg.CMD_PSN = 1 ∧ (∀ a, State.reset.byte a = 0) ∧ State.reset.pending = [] ∧
  State.reset.pwr.march = true

/-- For every command c and state s, a step of s with c at the front of its queue is exec of c on s with the queue's
rest. -/
def Obligations.StepRunsTheFrontCommand : Prop :=
  ∀ (c : Instr) (rest : List Instr) (s : State),
    step { s with pending := c :: rest } = exec c { s with pending := rest }

/-- The model's own choice (assumption log, the entry on the empty queue): with no command waiting a step answers the
same state one fabric cycle later. -/
def Obligations.EmptyQueueIdles : Prop :=
  ∀ s : State, s.pending = [] → step s = .next { s with now := s.now + esPerFc }

/-- From every sound state each step leads to a sound state: registers, memory and signal board stay in canonical form,
the tick counter within 48 bits, the next PSN never 0, and no finding of a command stays open. -/
def Obligations.StepKeepsStatesSound : Prop :=
  ∀ s t : State, s.Sound → step s = .next t → t.Sound

/-- From every state each command answers a next state (none faults, none is refused), and nothing changes outside the
parts that `touches` lists for it: every other register, component and byte of memory is as before, and the queue is
left alone. -/
def Obligations.EveryCommandCompletesAndKeepsTheRest : Prop :=
  ∀ (c : Instr) (s : State), ∃ t, exec c s = .next t ∧ Kept (touches c) s t

/-! ### Doorbells -/

/-- A host write of a doorbell word stores it in host SRAM and takes 4 fc; an index below the ring's SIZE becomes the
producer index of the submission ring or the consumer index of the record ring, and one of SIZE or more is ignored
(a submission ring counts it in BADDB). -/
def Obligations.DoorbellsMoveTheIndices : Prop :=
  (∀ (n : Fin 16) (w : Word) (s : State), Does (.sqDoorbellWrite n w) s fun t =>
     t.sram (doorbell + 4 * n.val) = w ∧ t.now = s.now + 4 * esPerFc ∧ t.bus = .done ∧
     (w.toNat % 2 ^ 12 < s.sqSize n → (t.sq n).pi = w.toNat % 2 ^ 12) ∧
     (s.sqSize n ≤ w.toNat % 2 ^ 12 → t.sq n = s.sq n ∧
       t.fld (Reg.CMD_SQn_CNT n) Fld.CMD_SQn_CNT.BADDB = satAdd 8 (s.fld (Reg.CMD_SQn_CNT n) Fld.CMD_SQn_CNT.BADDB) 1)) ∧
  (∀ (m : Fin 4) (w : Word) (s : State), Does (.cqConsumerIndexWrite m w) s fun t =>
     t.sram (doorbell + 0x40 + 4 * m.val) = w ∧ t.now = s.now + 4 * esPerFc ∧ t.bus = .done ∧
     (w.toNat % 2 ^ 12 < s.ringSize m → (t.ring m).ci = w.toNat % 2 ^ 12 ∧ (t.ring m).pi = (s.ring m).pi) ∧
     (s.ringSize m ≤ w.toNat % 2 ^ 12 → t.ring m = s.ring m)) ∧
  (∀ (w : Word) (s : State), s.cmd.drops = 0 → Does (.eqConsumerIndexWrite w) s fun t =>
     t.sram (doorbell + 0x50) = w ∧ t.now = s.now + 4 * esPerFc ∧ t.bus = .done ∧
     (w.toNat % 2 ^ 12 < s.ringSize 4 → (t.ring 4).ci = w.toNat % 2 ^ 12 ∧ (t.ring 4).pi = (s.ring 4).pi) ∧
     (s.ringSize 4 ≤ w.toNat % 2 ^ 12 → t.ring 4 = s.ring 4))

/-! ### Ring control -/

/-- RESUME of a halted ring takes up fetching at the slot it halted at, with the caravan it had opened dropped; FLUSH of a
halted ring drops it as well and completes every slot up to PI - 1; CLRCNT clears the counters of its ring. -/
def Obligations.RingControlActsOnTheRing : Prop :=
  (∀ (n : Fin 16) (s : State), s.pwr.restoring = false → s.sqHalted n = true → Does (.resume n) s fun t =>
     (t.sq n).fetch = (s.sq n).haltFirst ∧ (t.sq n).epoch = (s.sq n).haltEpoch ∧ (t.sq n).opened = []) ∧
  (∀ (n : Fin 16) (s : State), s.pwr.restoring = false → s.sqHalted n = true → Does (.flush n) s fun t =>
     (t.sq n).opened = [] ∧ (t.sq n).flushing.map (·.slot) =
       (slotsTo (s.sqSize n) (s.sq n).pi (s.sqSize n) (s.sq n).haltFirst (s.sq n).haltEpoch).map (·.1)) ∧
  (∀ (n : Fin 16) (s : State), s.pwr.restoring = false → Does (.clrcnt n) s fun t => t.reg (Reg.CMD_SQn_CNT n) = 0)

/-! ### The tick counter -/

/-- The tick counter is 48 bits wide: it is 0 after reset, a boundary that is due adds one modulo 2^48, a read of
CLK_TICKCNT_LO gives its low 32 bits and copies the upper 16 bits into the holding register, and a load of
CLK_TICKCNT_HI by either core returns that copy. Completion is stated here, with the effect and under conditions on
state and operands alone, of: TICK_BOUNDARY, TICKCNT_LO_READ, CORE_MEMORY_ACCESS. -/
def Obligations.TickCounterCountsBoundaries : Prop :=
  State.reset.tick = 0 ∧
  (∀ (f : List BankFlip) (s : State), s.boundaryDue = true → Does (.tickBoundary f) s fun t => t.tick = (s.tick + 1) % 2 ^ 48) ∧
  (∀ s : State, s.Sound → s.tick < 2 ^ 48) ∧
  (∀ s : State, Does .tickcntLoRead s fun t =>
     t.bus = .value (BitVec.ofNat 32 s.tick) ∧ t.reg Reg.CLK_TICKCNT_HI = BitVec.ofNat 32 (s.tick / 2 ^ 32 % 2 ^ 16) ∧ t.tick = s.tick) ∧
  (∀ (c : Fin 2) (v : Word) (b : Bool) (e : Fin 3) (f : Option Word) (s : State),
     Does (.coreMemoryAccess c .load 2 (BitVec.ofNat 32 Reg.CLK_TICKCNT_HI) v b e f) s fun t =>
     t.bus = .value (s.reg Reg.CLK_TICKCNT_HI) ∧ t.regs = s.regs)

/-- Whatever command is executed from whatever state (a spare swap, a PLL switchover, a safe state, a halt of the
device among them), the tick counter is as before, except that TICK_BOUNDARY adds exactly one modulo 2^48 when a
boundary is due and nothing otherwise; RESET_RELEASE, which ends a device reset, is the only other command that may
change it. Completion is stated here, with the effect and under conditions on state and operands alone, of:
TICK_BOUNDARY. -/
def Obligations.OnlyBoundariesMoveTheTick : Prop :=
  (∀ (c : Instr) (s t : State), exec c s = .next t → (∀ f, c ≠ .tickBoundary f) → (∀ n, c ≠ .resetRelease n) → t.tick = s.tick) ∧
  (∀ (f : List BankFlip) (s : State), s.boundaryDue = true → Does (.tickBoundary f) s fun t => t.tick = (s.tick + 1) % 2 ^ 48) ∧
  (∀ (f : List BankFlip) (s : State), s.boundaryDue = false → Does (.tickBoundary f) s fun t => t.tick = s.tick)

/-- A REG_READ descriptor that is not discarded as late and names a register of its unit completes DONE. Where it asks
for a record or is late it leaves one, which carries in word 3 the register's value at the application interval of the
boundary at which it applies; else it leaves none. Completion is stated here, with the effect and under conditions on
state and operands alone, of: REG_READ. -/
def Obligations.RegReadReturnsTheSample : Prop :=
  (∀ (o : Origin) (unit : Fin 22) (inst : Fin 5) (offset : Word) (a : Nat) (s : State), Timely o s →
     unit ≠ 2 → unit ≠ 19 → unit ≠ 20 → inst.val < instances opRegRead unit → descReg unit inst (offset.toNat % 2 ^ 16) = some a →
     o.creq = true ∨ o.late = true → Does (.regRead o unit inst offset) s fun t => Completes o stDone s t ∧
     ∃ c, t.cmd.posting = s.cmd.posting ++ [c] ∧ c.word3 = s.judgedAt.view a) ∧
  (∀ (o : Origin) (unit : Fin 22) (inst : Fin 5) (offset : Word) (a : Nat) (s : State), Timely o s →
     unit ≠ 2 → unit ≠ 19 → unit ≠ 20 → inst.val < instances opRegRead unit → descReg unit inst (offset.toNat % 2 ^ 16) = some a →
     o.creq = false → o.late = false → Does (.regRead o unit inst offset) s fun t => Completes o stDone s t ∧
     t.cmd.posting = s.cmd.posting)

/-! ### Rings, caravans and records -/

/-- At a fetch slot at which no ring can be served, only the instant passes. Else the ring chosen has its descriptor
fetched: where the slot passes its checks, the fetch index moves to the next slot, with the epoch counting each wrap,
and the descriptor joins its open caravan or closes it; where it fails one, the ring is HALTED, and index and epoch
have moved on all the same. The cut-off comes 500 ns before the boundary and marks the staged caravans late that have
missed theirs. A caravan of NOPs that is alone in the staging buffer and due applies whole, each member leaving its
completion; a late caravan of a ring that discards late ones leaves FLUSHED for every member. With the tick stopped it
applies and is posted at once. (Where the spec leaves a choice, the statement speaks of the model's: assumption log
25, 26, 27, 29, 35.) Completion is stated here, with the effect and under conditions on state and operands alone, of:
FETCH_SLOT, CARAVAN_CUTOFF, CARAVAN_APPLICATION, STOPPED_TICK_APPLICATION. -/
def Obligations.FetchedCaravansApplyWhole : Prop :=
  (∀ (ecc : Fin 3) (s : State), s.atFetchSlot.served = none → Does (.fetchSlot ecc) s fun t => t = s.atFetchSlot) ∧
  (∀ (n : Nat) (ecc : Fin 3) (s : State), s.atFetchSlot.served = some n →
     (s.atFetchSlot.fetched n ecc).haltStatus n (s.nextFetch n) (s.nextCheck n) (decide (ecc = 2) || s.atFetchSlot.slotBroken n) = none →
     Does (.fetchSlot ecc) s fun t => (t.sq n).fetch = (nextSlot (s.sqSize n) (s.sq n).fetch (s.sq n).epoch).1 ∧
     (t.sq n).epoch = (nextSlot (s.sqSize n) (s.sq n).fetch (s.sq n).epoch).2 ∧ t.cmd.lastServed = n ∧
     (t.sq n).opened = (if (s.nextFetch n).desc.cont
     then (s.sq n).opened ++ [{ s.nextFetch n with load := (s.atFetchSlot.fetched n ecc).copied (s.nextFetch n).desc }] else [])) ∧
  (∀ (n : Fin 16) (ecc : Fin 3) (st : Nat) (s : State), s.atFetchSlot.served = some n.val →
     (s.atFetchSlot.fetched n ecc).haltStatus n (s.nextFetch n) (s.nextCheck n) (decide (ecc = 2) || s.atFetchSlot.slotBroken n) = some st →
     Does (.fetchSlot ecc) s fun t => t.sqState n = ringHalted ∧
     (t.sq n).fetch = (nextSlot (s.sqSize n) (s.sq n).fetch (s.sq n).epoch).1 ∧
     (t.sq n).epoch = (nextSlot (s.sqSize n) (s.sq n).fetch (s.sq n).epoch).2) ∧
  (∀ s : State, s.ticking = true → Does .caravanCutoff s fun t =>
     t.now = max s.now (s.nextBoundary - nsToEs 500) ∧ t.cmd.cutoff = true ∧
     t.cmd.staged = s.cmd.staged.map fun c => if c.missed (s.tick + 1) then { c with late := true } else c) ∧
  (∀ (c : Caravan) (s : State), s.ticking = true → LoneCaravan (s.atTick 150) c →
     Does .caravanApplication s fun t =>
     (c.nops → (c.late && s.discardsLate c.ring) = false → t.cmd.staged = [] ∧ t.awaiting = s.awaiting ++ c.nopRecords) ∧
     ((c.late && s.discardsLate c.ring) = true → t.cmd.staged = [] ∧
     t.awaiting = s.awaiting ++ c.members.map (fun m => (c.ring, stFlushed, m.desc.w2.toNat % 2 ^ 16)))) ∧
  (∀ (c : Caravan) (s : State), s.ticking = false →
     LoneCaravan (s.at (s.now + esPerFc)) c → c.nops → (c.late && s.discardsLate c.ring) = false →
     Does .stoppedTickApplication s fun t => t.cmd.staged = [] ∧ t.cmd.posting = [])

/-- EN from 0 to 1 restarts a submission ring at slot 0 of epoch 0 with its SIZE clamped, and a record ring at slot 0
with consumer index 0 and PH = 1. EN from 1 to 0 leaves the submission ring DISABLED, takes its caravans out of the
staging buffer, and puts its unapplied descriptors, in ring order, among those to be FLUSHED: among the records of the
next posting while the tick runs, and else in a flush of the ring, one record a fabric cycle. (Where the spec leaves a
choice, the statement speaks of the model's: assumption log 30, 34, 37.) Completion is stated here, with the effect
and under conditions on state and operands alone, of: SQ_ENABLE, RING_DISABLE, CQ_EQ_ENABLE. -/
def Obligations.EnablingAndDisablingRings : Prop :=
  (∀ (n : Fin 16) (cfg : Word) (s : State), s.pwr.restoring = false → s.locked = false →
     s.sqEnabled n = false → Does (.sqEnable n cfg) s fun t =>
     t.sqEnabled n = true ∧ t.sqSize n = clampNat 16 4096 (Fld.CMD_SQn_CFG.SIZE.of cfg) ∧
     (t.sq n).fetch = 0 ∧ (t.sq n).epoch = 0 ∧ (t.sq n).opened = [] ∧
     t.sram (doorbell + 0x800 + 4 * n.val) = 0) ∧
  (∀ (n : Fin 16) (cfg : Word) (s : State), s.pwr.restoring = false → s.locked = false →
     s.sqEnabled n = true → Does (.ringDisable n cfg) s fun t =>
     t.sqEnabled n = false ∧ t.sqState n = ringDisabled ∧ (t.sq n).opened = [] ∧
     t.cmd.staged = (s.cmd.staged.filter fun c => c.ring != n.val) ∧
     (s.ticking = true → (t.sq n).flushing = [] ∧
     t.cmd.disabled = s.cmd.disabled.filter (fun c => decide (c.ring ≤ n.val)) ++ (s.unapplied n).map (·.completion n) ++
     s.cmd.disabled.filter fun c => decide (n.val < c.ring)) ∧
     (s.ticking = false → (t.sq n).flushing = s.unapplied n ∧ t.cmd.disabled = s.cmd.disabled)) ∧
  (∀ (m : Fin 5) (cfg : Word) (s : State), s.pwr.restoring = false → s.locked = false →
     s.ringEnabled m = false → (m = 4 → s.cmd.drops = 0 ∧ s.bst.toPost = []) → Does (.cqEqEnable m cfg) s fun t =>
     t.ringEnabled m = true ∧ t.ringSize m = clampNat 16 4096 (Fld.CMD_CQm_CFG.SIZE.of cfg) ∧
     (t.ring m).pi = 0 ∧ (t.ring m).ci = 0 ∧ (t.ring m).phase = true ∧ t.sram (producerWord m) = 0)

/-- EVT_ACK lowers the event line. The posting of a boundary takes one PSN for every waiting completion and every
finding due before them, and leaves none waiting; the records of rings disabled since the boundary wait for the next
while the tick runs. A FLUSHED record that has room takes one PSN, behind the findings due before it, and one fabric
cycle. The EQ_OVERFLOW record takes a PSN, carries it and the count of dropped events, and ends the count. PSN 0 is
skipped. (Where the spec leaves a choice, the statement speaks of the model's: assumption log 6, 27, 36, 37.)
Completion is stated here, with the effect and under conditions on state and operands alone, of: EVT_ACK,
COMPLETION_POSTING, FLUSH_RECORD_POST, EQ_OVERFLOW. -/
def Obligations.RecordsTakePsns : Prop :=
  (∀ s : State, s.pwr.restoring = false → Does .evtAck s fun t => t.cmd.evtLow = false) ∧
  (∀ s : State, s.led.lost = false → Does .completionPosting s fun t =>
     t.reg Reg.CMD_PSN = psnAfterAll (s.reg Reg.CMD_PSN) (s.postingInstant.psnsTaken s.queuedRecords.length) ∧
     t.cmd.due = [] ∧ t.cmd.posting = [] ∧ t.cmd.disabled = (if s.ticking then s.cmd.disabled else []) ∧
     t.now = s.postingInstant.now ∧ (s.ticking = true → t.now = max s.now (s.t0 + nsToEs 255))) ∧
  (∀ (n : Fin 16) (f : FlushRec) (rest : List FlushRec) (s : State), (s.sq n).flushing = f :: rest →
     s.led.lost = false → s.flushRoom n f = true →
     Does (.flushRecordPost n) s fun t => (t.sq n).flushing = rest ∧
     t.reg Reg.CMD_PSN = psnAfterAll (s.reg Reg.CMD_PSN) ((s.at (s.now + esPerFc)).foundDue + 1) ∧
     t.now = s.now + esPerFc) ∧
  (∀ s : State, s.cmd.drops ≠ 0 → s.ringEnabled 4 = true → 0 < s.ringFree 4 → s.batch = none →
     s.led.lost = false → s.foundDue = 0 → s.nextRecord 4 + 16 ≤ doorbell → Does .eqOverflow s fun t =>
     t.cmd.drops = 0 ∧ t.reg Reg.CMD_PSN = psnAfter (s.reg Reg.CMD_PSN) ∧ t.ring 4 = s.advanced 4 ∧
     t.sram (s.nextRecord 4 + 4) = s.reg Reg.CMD_PSN ∧ t.sram (s.nextRecord 4 + 12) = BitVec.ofNat 32 s.cmd.drops)

/-! ### Descriptors -/

/-- An accepted NOP completes DONE and leaves the image, and the signal board where the interval releases no unit. A
REG_WRITE to GPIO_OUT or GPIO_DIR completes DONE and replaces the bits of the mask by the value. A TABLE_LOAD whose
source checks and whose destination may be loaded completes DONE, and the destination holds the words of its source.
(Where the spec leaves a choice, the statement speaks of the model's: assumption log 28, 39.) Completion is stated
here, with the effect and under conditions on state and operands alone, of: NOP, REG_WRITE, TABLE_LOAD. -/
def Obligations.DescriptorsOnRegistersAndTables : Prop :=
  (∀ (o : Origin) (unit : Fin 22) (s : State), unit ≠ 2 → unit ≠ 19 → unit ≠ 20 → Timely o s →
     Does (.nop o unit) s fun t => Completes o stDone s t ∧ t.image = s.image ∧ (s.NoRelease → t.board = s.board)) ∧
  (∀ (o : Origin) (offset value mask : Word) (a : Nat) (s : State), Timely o s →
     (offset.toNat % 2 ^ 16 = 0 ∧ a = Reg.GPIO_OUT ∨ offset.toNat % 2 ^ 16 = 4 ∧ a = Reg.GPIO_DIR) →
     Does (.regWrite o 21 0 offset value mask) s fun t => Completes o stDone s t ∧ t.reg a = blend mask value (s.reg a)) ∧
  (∀ (o : Origin) (w3 w4 w5 w6 : Word) (s : State), Timely o s → loadBad w3 w4 w5 = false →
     Crc.checkC (bytesOfWords (s.sourceWords w3.toNat (loadLen w5))) = w6 →
     s.judgedAt.loadRefused (loadDest w4) (s.sourceWords w3.toNat (loadLen w5)) = false →
     Does (.tableLoad o w3 w4 w5 w6) s fun t => Completes o stDone s t ∧
     ∀ i, i < loadLen w5 / 4 → t.word (loadDest w4 + 4 * i) = s.sram (w3.toNat + 4 * i))

/-- STALL_STOP, STALL_START, PARAM_WRITE, SETPOINT and SCHEDULE_SELECT, where admitted, complete DONE: the stall does
not run, or runs as its descriptor loads it; each parameter word holds what its type makes of the payload in all three
passes; the set-point channel, where the interval releases no unit, holds target, rate and one more in its count; the
schedule named is the active one. (Where the spec leaves a choice, the statement speaks of the model's: assumption log
28, 42, 53.) Completion is stated here, with the effect and under conditions on state and operands alone, of:
STALL_STOP, STALL_START, PARAM_WRITE, SETPOINT, SCHEDULE_SELECT. -/
def Obligations.EngineDescriptors : Prop :=
  (∀ (o : Origin) (stall : Fin 128) (s : State), Timely o s →
     Does (.stallStop o stall) s fun t => Completes o stDone s t ∧ t.stallRunning stall = false) ∧
  (∀ (o : Origin) (stall : Fin 128) (w3 : Word) (s : State), Timely o s → s.stallRunning stall = false →
     s.judgedAt.stallAdmitted stall = true → Does (.stallStart o stall w3) s fun t => Completes o stDone s t ∧
     t.stallRunning stall = true ∧
     ((s.NoRelease) → s.judgedAt.load stall = .inr (t.loadedOf stall))) ∧
  (∀ (o : Origin) (stall : Fin 128) (w3 w4 w5 w6 : Word) (s : State), Timely o s → paramBad w3 = false →
     Does (.paramWrite o stall w3 w4 w5 w6) s fun t => Completes o stDone s t ∧
     ((s.NoRelease) → ∀ i w p, i < paramCount w3 → [w4, w5, w6][i]? = some w → p < 3 →
     t.held p stall (paramAddr w3 + i) =
     hold p (s.wordType stall (paramAddr w3 + i)) (enterWord (s.wordType stall (paramAddr w3 + i)) w).1)) ∧
  (∀ (o : Origin) (stall : Fin 128) (w3 w4 w5 w6 : Word) (s : State), Timely o s → setpointBad w3 = false →
     Does (.setpoint o stall w3 w4 w5 w6) s fun t => Completes o stDone s t ∧ (s.NoRelease → t.sig w3.toNat = Sys2Proof.Num.convert w4 ∧
     t.sig (w3.toNat + 1) = (if bitAt w5 0 then rateWord w6 else Sys2Proof.Num.vmaxWord) ∧ t.sig (w3.toNat + 3) = s.sig (w3.toNat + 3) + 1)) ∧
  (∀ (o : Origin) (w3 : Word) (s : State), Timely o s → s.judgedAt.schedOk (min 3 w3.toNat) = true →
     s.judgedAt.badEntry 0 [] (s.judgedAt.schedule (min 3 w3.toNat)) = none →
     (s.judgedAt.setFld Reg.ENG_STAT Fld.ENG_STAT.SCHED (min 3 w3.toNat)).admitted = true →
     Does (.scheduleSelect o w3) s fun t => Completes o stDone s t ∧ t.activeSched = min 3 w3.toNat)

/-- OUTPUT_ENABLE and OUTPUT_DISABLE set and clear the enables of the pairs named and no others, CARRIER_SET writes
the period clamped to what is admitted, LOAD_ALL of a running timebase adds its transfer to those due; each completes
DONE. (Said for intervals at whose end no unit is released.) (Where the spec leaves a choice, the statement speaks of
the model's: assumption log 28, 56.) Completion is stated here, with the effect and under conditions on state and
operands alone, of: OUTPUT_ENABLE, OUTPUT_DISABLE, CARRIER_SET, LOAD_ALL. -/
def Obligations.OutputDescriptors : Prop :=
  (∀ (o : Origin) (pairs : Word) (s : State), Timely o s →
     Does (.outputEnable o pairs) s fun t => Completes o stDone s t ∧
     (s.NoRelease → ∀ k, k < 16 → t.outEnabled k = (bitAt pairs k || s.outEnabled k))) ∧
  (∀ (o : Origin) (pairs : Word) (s : State), Timely o s →
     Does (.outputDisable o pairs) s fun t => Completes o stDone s t ∧
     (s.NoRelease → ∀ k, k < 16 → t.outEnabled k = (!bitAt pairs k && s.outEnabled k))) ∧
  (∀ (o : Origin) (tb : Fin 4) (period : Word) (s : State), Timely o s →
     Does (.carrierSet o tb period) s fun t => Completes o stDone s t ∧
     (s.NoRelease → t.fld (Reg.TBn_PER tb) Fld.TBn_PER.PERIOD = s.judgedAt.clampPeriod tb period.toNat)) ∧
  (∀ (o : Origin) (tb : Fin 4) (s : State), Timely o s → s.tbRun tb = true →
     Does (.loadAll o tb) s fun t => Completes o stDone s t ∧
     (s.NoRelease → t.pwm.loadAll = s.pwm.loadAll ++ [(tb.val, s.tick + 1)]))

/-- TRIP_CLEAR whose named latches have inactive sources clears exactly the latches named; SAFE_REQUEST puts its
bridge into safe state; DRIVE_ENABLE that is not refused has the unit released at the end of the interval; DISCHARGE
with method 0 stops the discharge, and with a resistor method that may run starts it with target and deadline. Each
completes DONE. (Where the spec leaves a choice, the statement speaks of the model's: assumption log 25, 28, 64, 68.)
Completion is stated here, with the effect and under conditions on state and operands alone, of: TRIP_CLEAR,
SAFE_REQUEST, DRIVE_ENABLE, DISCHARGE. -/
def Obligations.SafetyDescriptors : Prop :=
  (∀ (o : Origin) (ext int : Word) (s : State), Timely o s →
     (∀ src ∈ s.namedLatches ext int, s.levelActive src = false) →
     Does (.tripClear o ext int) s fun t => Completes o stDone s t ∧
     (s.ticking = true → ∀ src, src < 40 →
     t.latched src = (s.latched src && !(if src < 16 then bitAt ext src else bitAt int (src - 16))))) ∧
  (∀ (o : Origin) (bridge : Fin 2) (w3 : Word) (s : State), Timely o s →
     Does (.safeRequest o bridge w3) s fun t => Completes o stDone s t ∧ (s.ticking = true → t.isSafe bridge = true)) ∧
  (∀ (o : Origin) (unit : Fin 4) (s : State), Timely o s → s.judgedAt.lcs ≠ lcsDecommissioned →
     s.judgedAt.driveRefused unit = false →
     Does (.driveEnable o unit) s fun t => Completes o stDone s t ∧
     (s.ticking = true → s.isSafe unit = true → hasBit t.prot.releasing unit = true)) ∧
  (∀ (o : Origin) (method target deadline : Word) (s : State), Timely o s → (⟨0, 2⟩ : Bits).of method = 0 →
     Does (.discharge o method target deadline) s fun t => Completes o stDone s t ∧
     t.fld Reg.PROT_DIS_STAT Fld.PROT_DIS_STAT.STATE = 0) ∧
  (∀ (o : Origin) (method target deadline : Word) (s : State), Timely o s → (⟨0, 2⟩ : Bits).of method % 2 = 1 →
     s.judgedAt.inRun = true → s.judgedAt.disVolt ≠ none → s.judgedAt.disResistorOk = true →
     Does (.discharge o method target deadline) s fun t => Completes o stDone s t ∧
     t.fld Reg.PROT_DIS_STAT Fld.PROT_DIS_STAT.STATE = 1 ∧ t.dis.target = disTarget target ∧
     t.dis.deadlineAt = s.judgedAt.now + disDeadline deadline * esPerMs)

/-- MODE_SET that is not refused changes the mode at once for a machine in safe state or watch, and else hands over
across the ticks of its blend. ANGLE_EVENT stores W3 as the angle and W4 as the action word of its slot.
CHANNEL_READMIT brings a channel in QUARANTINE that delivers into CHECK and changes no other. Each completes DONE.
(Where the spec leaves a choice, the statement speaks of the model's: assumption log 28, 84.) Completion is stated
here, with the effect and under conditions on state and operands alone, of: MODE_SET, ANGLE_EVENT, CHANNEL_READMIT. -/
def Obligations.FieldDescriptors : Prop :=
  (∀ (o : Origin) (machine : Fin 2) (mode blend : Word) (s : State), Timely o s →
     s.judgedAt.modeRefused machine (modeOf mode) = false →
     Does (.modeSet o machine mode blend) s fun t => Completes o stDone s t ∧
     (s.ticking = true →
     (s.judgedAt.allSafe machine = true ∨ s.fldStart machine = stWatch → t.fldMode machine = modeOf mode) ∧
     (modeOf mode ≠ s.fldMode machine → s.judgedAt.allSafe machine = false → s.fldStart machine ≠ stWatch →
     (t.fm machine).ho = some ⟨some (modeOf mode), min 255 blend.toNat, 0⟩ ∧ t.fldMode machine = s.fldMode machine))) ∧
  (∀ (o : Origin) (slot : Fin 16) (angle action : Word) (s : State), Timely o s →
     Does (.angleEvent o slot angle action) s fun t => Completes o stDone s t ∧
     t.reg (Reg.FLD_EVs_ANG slot) = angle ∧ t.reg (Reg.FLD_EVs_ACT slot) = actionWord action) ∧
  (∀ (o : Origin) (channel : Fin 2) (s : State), Timely o s →
     (s.chState channel = chQuarantine → (s.ch channel).delivers = true) →
     Does (.channelReadmit o channel) s fun t => Completes o stDone s t ∧
     t.chState channel = if s.chState channel = chQuarantine then chCheck else s.chState channel)

/-- Where the conditions of the tests hold, and the input of a comparator is converted, UNIT_READMIT of a FAILED unit
and BIST_REQUEST of a free one complete DONE, the unit is in TEST, and its test is under way with the kind asked for.
LCS_TOKEN with all units quiet queues the token of 44 words. HOLDUP_CHECK outside a check, with VDDA5 in range, begins
one. (Where the spec leaves a choice, the statement speaks of the model's: assumption log 28, 103, 105, 107.)
Completion is stated here, with the effect and under conditions on state and operands alone, of: UNIT_READMIT,
BIST_REQUEST, LCS_TOKEN, HOLDUP_CHECK. -/
def Obligations.SelfTestDescriptors : Prop :=
  (∀ (o : Origin) (code : Fin 256) (s : State), Timely o s → unitExists code = true → s.unit code = unitFailed →
     s.judgedAt.condOk = true → s.judgedAt.noConversion code = false →
     Does (.unitReadmit o code) s fun t => Completes o stDone s t ∧ t.unit code = unitTest ∧
     t.bst.tests = s.bst.tests ++ [⟨code, 3, 1, unitFailed, true⟩]) ∧
  (∀ (o : Origin) (code : Fin 256) (kind : Word) (s : State), Timely o s → unitExists code = true →
     s.unit code = unitFree → classOf code ≠ .memory → s.judgedAt.lcs ≠ 3 → s.judgedAt.condOk = true →
     s.judgedAt.noConversion code = false → Does (.bistRequest o code kind) s fun t => Completes o stDone s t ∧ t.unit code = unitTest ∧
     t.bst.tests = s.bst.tests ++ [⟨code, min 3 kind.toNat, 1, unitFree, false⟩]) ∧
  (∀ (o : Origin) (offset length : Word) (s : State), Timely o s → offset.toNat + 176 ≤ sramSize →
     s.judgedAt.lcs ≠ 3 → s.judgedAt.quiet = true → s.fld Reg.BST_CNT Fld.BST_CNT.TOKFAIL < 8 →
     Does (.lcsToken o offset length) s fun t => Completes o stDone s t ∧
     t.bst.tokens = s.bst.tokens ++ [⟨s.sourceWords offset.toNat 176⟩]) ∧
  (∀ (o : Origin) (s : State), Timely o s → s.hldState ≠ hldChecking → hasBit s.pwr.rails 2 = false →
     Does (.holdupCheck o) s fun t => Completes o stDone s t ∧ t.hldState = hldChecking)

/-- TICK_REALIGN with every unit safe, TB0 synchronised and vehicle time valid is taken up by TB0. POWER_STATE to the
present state changes nothing, and to PARK or SLEEP where admitted is due at the next boundary. SCAN_START starts its
slot from the first target. LEDGER_NOTE sends an entry with its PSN and its four payload words. Each completes DONE.
(Where the spec leaves a choice, the statement speaks of the model's: assumption log 28, 69.) Completion is stated
here, with the effect and under conditions on state and operands alone, of: TICK_REALIGN, POWER_STATE, SCAN_START,
LEDGER_NOTE. -/
def Obligations.SystemDescriptors : Prop :=
  (∀ (o : Origin) (s : State), Timely o s → s.fld Reg.PROT_USTAT Fld.PROT_USTAT.SAFE = 0x1F → s.synced = true →
     s.vtValid = true → s.judgedAt.lenAhead + s.judgedAt.realignC ≤ 3200000 →
     Does (.tickRealign o) s fun t => Completes o stDone s t ∧ (t.tb 0).realign = true ∧ (t.tb 0).running = (s.tb 0).running) ∧
  (∀ (o : Origin) (target : Word) (s : State), Timely o s → s.on Reg.SYS_RSTCAUSE Fld.SYS_RSTCAUSE.FDIE = false →
     Does (.powerState o target) s fun t =>
     (target.toNat ≤ 2 → target.toNat = s.powerState → Completes o stDone s t ∧ t.powerState = s.powerState ∧ t.pwr = s.pwr) ∧
     (target = 1 ∨ target = 2 → s.powerState = pwrRun → s.judgedAt.parkAdmitted = true → s.ticking = true →
     Completes o stDone s t ∧ t.powerState = s.powerState ∧ t.pwr.enterAt = some (s.tick + 1, target.toNat))) ∧
  (∀ (o : Origin) (slot : Fin 8) (s : State), Timely o s →
     Does (.scanStart o slot) s fun t => Completes o stDone s t ∧
     t.fld (Reg.CHK_SCs_STAT slot) Fld.CHK_SCs_STAT.RUN = 1 ∧ (t.scan slot).target = 0 ∧ (t.scan slot).report = true) ∧
  (∀ (o : Origin) (w3 w4 w5 w6 : Word) (s : State), Timely o s →
     Does (.ledgerNote o w3 w4 w5 w6) s fun t => Completes o stDone s t ∧
     (s.NoRelease → ∃ pre e, t.led.sent = pre ++ [e] ∧ e.psn = (s.reg Reg.CMD_PSN).toNat ∧
     ∀ i w, [w3, w4, w5, w6][i]? = some w → e.words[4 + i]? = some w))

/-! ### Bus writes and reads -/

/-- LOCK locks setup and begins the capture of the image. F2 of FAULTSTAT clears where no cause persists and else
stays. BOOTOK.OK clears TRY; COMMIT raises the fused SVN, never lowers it. SWSYS is taken up 50 µs later.
SYS_RESTORE.GO begins a restore with IMGOK = 1 and is refused with IMGOK = 0. SWSUB.GO stores unit and instance, and
GO reads 1 where they are legal. (Where the spec leaves a choice, the statement speaks of the model's: assumption log
41, 70, 90.) Completion is stated here, with the effect and under conditions on state and operands alone, of:
SETUP_LOCK, F2_CLEAR, BOOT_OK, BOOT_COMMIT, SWSYS_WRITE, RESTORE_GO, SWSUB_WRITE. -/
def Obligations.SetupAndBootWrites : Prop :=
  (∀ s : State, s.pwr.restoring = false → s.locked = false → Does .setupLock s fun t =>
     t.locked = true ∧ t.pwr.capturing = true) ∧
  (∀ s : State, s.pwr.restoring = false → Does .f2Clear s fun t =>
     (s.faults.f2 = [] → t.on Reg.SYS_FAULTSTAT Fld.SYS_FAULTSTAT.F2 = false) ∧
     (s.faults.f2 ≠ [] → t.reg Reg.SYS_FAULTSTAT = s.reg Reg.SYS_FAULTSTAT)) ∧
  (∀ s : State, s.pwr.restoring = false → Does .bootOk s fun t =>
     t.fld Reg.SYS_BOOTSTAT Fld.SYS_BOOTSTAT.TRY = 0 ∧ t.hic = s.hic) ∧
  (∀ s : State, s.pwr.restoring = false → Does .bootCommit s fun t =>
     t.hic.fusedSvn = max s.hic.fusedSvn s.hic.svn ∧ t.reg Reg.SYS_BOOTSTAT = s.reg Reg.SYS_BOOTSTAT) ∧
  (∀ s : State, s.pwr.restoring = false → Does .swsysWrite s fun t =>
     t.pwr.swsysAt = some (s.now + nsToEs 50000) ∧ t.fld Reg.SYS_RSTCTL Fld.SYS_RSTCTL.SWSYS = 0xA5C3) ∧
  (∀ s : State, s.pwr.restoring = false → s.locked = false → Does .restoreGo s fun t =>
     (s.on Reg.SYS_RESTORE Fld.SYS_RESTORE.IMGOK = true →
     t.pwr.restoring = true ∧ t.fld Reg.SYS_RESTORE Fld.SYS_RESTORE.STATE = 1) ∧
     (s.on Reg.SYS_RESTORE Fld.SYS_RESTORE.IMGOK = false →
     t.pwr.restoring = false ∧ t.fld Reg.SYS_RESTORE Fld.SYS_RESTORE.STATE = 3)) ∧
  (∀ (v : Word) (s : State), s.pwr.restoring = false →
     s.on Reg.SYS_SWSUB Fld.SYS_SWSUB.GO = false → Does (.swsubWrite v) s fun t =>
     t.fld Reg.SYS_SWSUB Fld.SYS_SWSUB.UNIT = Fld.SYS_SWSUB.UNIT.of v ∧
     t.fld Reg.SYS_SWSUB Fld.SYS_SWSUB.INST = Fld.SYS_SWSUB.INST.of v ∧
     t.on Reg.SYS_SWSUB Fld.SYS_SWSUB.GO = swsubLegal (Fld.SYS_SWSUB.UNIT.of v) (Fld.SYS_SWSUB.INST.of v))

/-- A read of CLK_RTC_LO or HIC_MTIME_LO gives the low word and holds the upper word for the read of HI. A read of
ETH_TVT_TICK gives the latched tick and freezes the set. A read of CHK_Un_RES gives the running register after the
final XOR and changes nothing. (Where the spec leaves a choice, the statement speaks of the model's: assumption log
92.) Completion is stated here, with the effect and under conditions on state and operands alone, of: RTC_LO_READ,
MTIME_LO_READ, ETH_TVT_TICK_READ, CHK_RESULT_READ. -/
def Obligations.CounterReads : Prop :=
  (∀ s : State, Does .rtcLoRead s fun t =>
     t.bus = .value (BitVec.ofNat 32 s.rtcNow) ∧ t.reg Reg.CLK_RTC_HI = BitVec.ofNat 32 (s.rtcNow / 2 ^ 32) ∧ t.clk = s.clk) ∧
  (∀ s : State, Does .mtimeLoRead s fun t =>
     t.bus = .value (BitVec.ofNat 32 s.mtime) ∧ t.reg Reg.HIC_MTIME_HI = BitVec.ofNat 32 (s.mtime / 2 ^ 32) ∧ t.now = s.now) ∧
  (∀ s : State, Does .ethTvtTickRead s fun t =>
     t.bus = .value (s.reg Reg.ETH_TVT_TICK) ∧ t.vt.frozen = true ∧ t.regs = s.regs) ∧
  (∀ (n : Fin 4) (s : State), Does (.chkResultRead n) s fun t =>
     t.bus = .value (s.chkResult n) ∧ t.chk = s.chk ∧ t.regs = s.regs)

/-- RUN set with an admitted schedule starts the engine with a new signature window and a new count of windows, and a
refused write changes nothing. A binding that may stand is stored, with EN only for a published source and an existing
sink; another leaves the register. Programming a PLL that is present restarts it at its filter check, or turns it off.
RUN of a stopped timebase starts it at once, or has a slave wait for TB0's zero; with TB0 the tick window begins.
PWM_LDALL adds, for each named timebase that runs, a transfer two ticks on, while the tick runs. (Where the spec
leaves a choice, the statement speaks of the model's: assumption log 39, 45, 53, 56.) Completion is stated here, with
the effect and under conditions on state and operands alone, of: ENG_RUN_SET, ENG_BIND_WRITE, PLL_PROGRAM_WRITE,
TIMEBASE_RUN, LDALL_WRITE. -/
def Obligations.EngineAndTimebaseWrites : Prop :=
  (∀ (cfg : Word) (s : State), s.pwr.restoring = false → s.locked = false →
     s.on Reg.ENG_CFG Fld.ENG_CFG.RUN = false → Does (.engRunSet cfg) s fun t =>
     (s.runAdmitted cfg = true → t.on Reg.ENG_CFG Fld.ENG_CFG.RUN = true ∧ t.fld Reg.ENG_STAT Fld.ENG_STAT.RUN = 1 ∧
     t.activeSched = Fld.ENG_CFG.SCHED.of cfg ∧ t.eng.windowStart = s.tick ∧ t.eng.ran = [] ∧ t.eng.sigs = [] ∧
     t.eng.windows = 0 ∧ t.eng.saltDue = none) ∧
     (s.runAdmitted cfg = false → t.reg Reg.ENG_CFG = s.reg Reg.ENG_CFG ∧ t.reg Reg.ENG_STAT = s.reg Reg.ENG_STAT ∧
     t.eng = s.eng)) ∧
  (∀ (n : Fin 256) (w : Word) (s : State), s.pwr.restoring = false → s.locked = false →
     Does (.engBindWrite n w) s fun t =>
     (s.bindAdmitted n w = true → t.fld (Reg.ENG_BINDn n) Fld.ENG_BINDn.SRC = Fld.ENG_BINDn.SRC.of w ∧
     t.fld (Reg.ENG_BINDn n) Fld.ENG_BINDn.SINK = Fld.ENG_BINDn.SINK.of w ∧
     t.bindEn n = (Fld.ENG_BINDn.EN.on w && decide (0x400 ≤ Fld.ENG_BINDn.SRC.of w) &&
     (sinkType (Fld.ENG_BINDn.SINK.of w)).isSome)) ∧
     (s.bindAdmitted n w = false → t.reg (Reg.ENG_BINDn n) = s.reg (Reg.ENG_BINDn n))) ∧
  (∀ (p : Fin 2) (w : Word) (s : State), s.pwr.restoring = false → s.locked = false → s.pllGone p = false →
     Fld.CLK_PLLp_CFG.EN.on w = true ∨ s.pllEn p = true → Does (.pllProgramWrite p false w) s fun t =>
     t.pllEn p = Fld.CLK_PLLp_CFG.EN.on w ∧ t.pllState p = if Fld.CLK_PLLp_CFG.EN.on w then pllFilter else pllOff) ∧
  (∀ (p : Fin 2) (w : Word) (s : State), s.pwr.restoring = false → s.locked = false → s.pllGone p = false →
     s.pllEn p = true → Does (.pllProgramWrite p true w) s fun t =>
     t.fld (Reg.CLK_PLLp_FRAC p) Fld.CLK_PLLp_FRAC.NFRAC = Fld.CLK_PLLp_FRAC.NFRAC.of w ∧ t.pllState p = pllFilter) ∧
  (∀ (tb : Fin 4) (cfg : Word) (s : State), s.pwr.restoring = false → s.locked = false →
     s.on (Reg.TBn_CFG tb) Fld.TBn_CFG.RUN = false → (s.tb tb).running = false → (s.tb tb).waiting = false →
     Does (.timebaseRun tb cfg) s fun t =>
     (tb = 0 ∨ Fld.TBn_CFG.MODE.of cfg ≠ 2 → (t.tb tb).running = true ∧ (t.tb tb).waiting = false) ∧
     (tb ≠ 0 → Fld.TBn_CFG.MODE.of cfg = 2 → (t.tb tb).running = false ∧ (t.tb tb).waiting = true) ∧
     (tb = 0 → t.t0 = s.now ∧ t.prevLen = 0)) ∧
  (∀ (w : Word) (s : State), s.pwr.restoring = false → s.locked = false → s.ticking = true →
     Does (.ldallWrite w) s fun t => ∃ bits,
     (∀ n, n < 4 → hasBit bits n = (hasBit (Fld.PWM_LDALL.TB.of w) n && s.tbRun n)) ∧
     t.pwm.loadAll = s.pwm.loadAll ++ ((List.range 4).filter (hasBit bits)).map (fun n => (n, s.tick + 2)) ∧
     t.fld Reg.PWM_LDALL Fld.PWM_LDALL.TB = (s.fld Reg.PWM_LDALL Fld.PWM_LDALL.TB ||| bits) % 16)

/-- ACQ_CFG.RUN starts the groups at slot 0. EN of a sensor supply that is off or faulted starts it anew. WRAP clears
without moving the count. An action word arms or disarms its angle event, with the codes 5 to 7 as 3. EN of a monitor
with a sound map enables it, and of one with a rejected map does not. EN of a link starts enumeration unless a map is
used by both links. (Where the spec leaves a choice, the statement speaks of the model's: assumption log 39, 86.)
Completion is stated here, with the effect and under conditions on state and operands alone, of: ACQ_RUN_WRITE,
SENSV_ENABLE, WRAP_CLEAR, ANGLE_EVENT_ARM, WGH_ENABLE, ISK_LINK_ENABLE. -/
def Obligations.SenseWrites : Prop :=
  (∀ s : State, s.pwr.restoring = false → s.locked = false →
     s.on Reg.ACQ_CFG Fld.ACQ_CFG.RUN = false → Does .acqRunWrite s fun t =>
     t.on Reg.ACQ_CFG Fld.ACQ_CFG.RUN = true ∧ ∀ g, g < 4 → (t.grp g).slot = 0) ∧
  (∀ (n : Fin 2) (s : State), s.pwr.restoring = false → s.locked = false →
     s.on (Reg.POS_SENSVn_CFG n) Fld.POS_SENSVn_CFG.EN = false ∨ s.on (Reg.POS_SENSVn_CFG n) Fld.POS_SENSVn_CFG.FAULT = true →
     Does (.sensvEnable n) s fun t => t.on (Reg.POS_SENSVn_CFG n) Fld.POS_SENSVn_CFG.EN = true ∧
     t.on (Reg.POS_SENSVn_CFG n) Fld.POS_SENSVn_CFG.FAULT = false ∧ tabGet 0 t.pos.supplyAt n = s.now) ∧
  (∀ (c : Fin 2) (s : State), s.pwr.restoring = false → Does (.wrapClear c) s fun t =>
     t.fld (Reg.POS_CHc_CNT c) Fld.POS_CHc_CNT.WRAP = 0 ∧
     t.fld (Reg.POS_CHc_CNT c) Fld.POS_CHc_CNT.CNT = s.fld (Reg.POS_CHc_CNT c) Fld.POS_CHc_CNT.CNT) ∧
  (∀ (i : Fin 16) (w : Word) (s : State), s.pwr.restoring = false → s.locked = false →
     Does (.angleEventArm i w) s fun t =>
     t.evAct i Fld.FLD_EVs_ACT.ACT = (if 5 ≤ Fld.FLD_EVs_ACT.ACT.of w then 3 else Fld.FLD_EVs_ACT.ACT.of w) ∧
     t.evAct i Fld.FLD_EVs_ACT.MACH = Fld.FLD_EVs_ACT.MACH.of w ∧ t.evAct i Fld.FLD_EVs_ACT.PAIRS = Fld.FLD_EVs_ACT.PAIRS.of w ∧
     t.fld (Reg.FLD_EVs_STAT i) Fld.FLD_EVs_STAT.ARMED = if Fld.FLD_EVs_ACT.ACT.of w = 0 then 0 else 1) ∧
  (∀ (m : Fin 2) (cfg : Word) (s : State), s.pwr.restoring = false → s.locked = false →
     s.wghEn m = false → Does (.wghEnable m cfg) s fun t =>
     (s.mapReject m = none → t.wghEn m = true ∧ (t.wm m).test = s.testPoint m) ∧
     (s.mapReject m ≠ none → t.wghEn m = false ∧ t.wgh = s.wgh)) ∧
  (∀ (l : Fin 2) (cfg : Word) (s : State), s.pwr.restoring = false → s.locked = false →
     s.iskEn l = false → Does (.iskLinkEnable l cfg) s fun t =>
     ((s.iskEn (1 - l) && ((List.range (clampNat 1 16 (Fld.ISK_LINKl_CFG.NODES.of cfg))).map (s.nodeMap l)).any
     fun x => (s.linkMap (1 - l)).contains x) = false →
     t.iskEn l = true ∧ t.fld (Reg.ISK_LINKl_STAT l) Fld.ISK_LINKl_STAT.STATE = linkEnum) ∧
     ((s.iskEn (1 - l) && ((List.range (clampNat 1 16 (Fld.ISK_LINKl_CFG.NODES.of cfg))).map (s.nodeMap l)).any
     fun x => (s.linkMap (1 - l)).contains x) = true →
     t.iskEn l = false ∧ t.reg (Reg.ISK_LINKl_STAT l) = s.reg (Reg.ISK_LINKl_STAT l)))

/-- A doorbell word of a CAN or Ethernet ring is stored in host SRAM and takes 4 fc; an index below the ring's size
becomes its producer or consumer index, another leaves it. (Where the spec leaves a choice, the statement speaks of
the model's: assumption log 35.) Completion is stated here, with the effect and under conditions on state and operands
alone, of: CAN_TX_DOORBELL, CAN_RX_CONSUMER_WRITE, ETH_TX_DOORBELL, ETH_RX_CONSUMER_WRITE. -/
def Obligations.CanAndEthernetDoorbells : Prop :=
  (∀ (c : Fin 4) (w : Word) (s : State), Does (.canTxDoorbell c w) s fun t =>
     t.sram (doorbell + 0x100 + 8 * c.val) = w ∧ t.now = s.now + 4 * esPerFc ∧
     (t.canCtl c).txPi = if w.toNat % 2 ^ 12 < s.canTxSize c then w.toNat % 2 ^ 12 else (s.canCtl c).txPi) ∧
  (∀ (c : Fin 4) (w : Word) (s : State), Does (.canRxConsumerWrite c w) s fun t =>
     t.sram (doorbell + 0x104 + 8 * c.val) = w ∧ t.now = s.now + 4 * esPerFc ∧
     (t.canCtl c).rxCi = if w.toNat % 2 ^ 12 < s.canRxSize c then w.toNat % 2 ^ 12 else (s.canCtl c).rxCi) ∧
  (∀ (c : Fin 2) (w : Word) (s : State), Does (.ethTxDoorbell c w) s fun t =>
     t.sram (doorbell + 0x200 + 8 * c.val) = w ∧ t.now = s.now + 4 * esPerFc ∧
     (t.ethPort c).txPi = if w.toNat % 2 ^ 12 < s.ethTxSize c then w.toNat % 2 ^ 12 else (s.ethPort c).txPi) ∧
  (∀ (c : Fin 2) (w : Word) (s : State), Does (.ethRxConsumerWrite c w) s fun t =>
     t.sram (doorbell + 0x204 + 8 * c.val) = w ∧ t.now = s.now + 4 * esPerFc ∧
     (t.ethPort c).rxCi = if w.toNat % 2 ^ 12 < s.ethRxSize c then w.toNat % 2 ^ 12 else (s.ethPort c).rxCi)

/-- TXRESUME ends a halt where it stands. TXFLUSH of a halted ring empties it up to the producer index and keeps a
frame under way; of another it does nothing. INIT set stops traffic, at the end of a frame under way; cleared, it
takes over both bit timings and begins the recovery from bus-off. MDIO takes a command unless one is under way. (Where
the spec leaves a choice, the statement speaks of the model's: assumption log 95, 100.) Completion is stated here,
with the effect and under conditions on state and operands alone, of: CAN_TXRESUME, CAN_TXFLUSH, CAN_INIT_SET,
CAN_INIT_CLEAR, ETH_TXRESUME, ETH_TXFLUSH, ETH_MDIO_COMMAND. -/
def Obligations.CanAndEthernetControl : Prop :=
  (∀ (c : Fin 4) (s : State), s.pwr.restoring = false → s.locked = false → Does (.canTxresume c) s fun t =>
     t.canHalted c = false ∧ t.canInit c = s.canInit c ∧ t.can = s.can) ∧
  (∀ (c : Fin 4) (s : State), s.pwr.restoring = false → s.locked = false → Does (.canTxflush c) s fun t =>
     t.canInit c = s.canInit c ∧
     (s.canHalted c = true → t.canHalted c = false ∧ t.canTxIdx c = (s.canCtl c).txPi % 2 ^ 12 ∧
     (t.canCtl c).staged = (s.canCtl c).staged.filter (·.started)) ∧
     (s.canHalted c = false → t.can = s.can ∧ t.canTxIdx c = s.canTxIdx c)) ∧
  (∀ (c : Fin 4) (busy : Bool) (s : State), s.pwr.restoring = false → s.locked = false → s.canInit c = false →
     Does (.canInitSet c busy) s fun t => t.canInit c = true ∧
     ((busy || s.canBusy c) = true → (t.canCtl c).stopping = true ∧
     t.fld (Reg.CAN_STAT c) Fld.CAN_STAT.RUN = s.fld (Reg.CAN_STAT c) Fld.CAN_STAT.RUN) ∧
     ((busy || s.canBusy c) = false → t.fld (Reg.CAN_STAT c) Fld.CAN_STAT.RUN = 0 ∧ t.can = s.can)) ∧
  (∀ (c : Fin 4) (cfg : Word) (s : State), s.pwr.restoring = false → s.locked = false → s.canInit c = true →
     Does (.canInitClear c cfg) s fun t => t.canInit c = false ∧ (t.canCtl c).nbt = s.reg (Reg.CAN_NBT c) ∧
     (t.canCtl c).dbt = s.reg (Reg.CAN_DBT c) ∧ (t.canCtl c).stopping = false ∧
     (t.canCtl c).recovering = ((s.canCtl c).recovering || s.canErrState c == 2)) ∧
  (∀ (p : Fin 2) (s : State), s.pwr.restoring = false → s.locked = false → Does (.ethTxresume p) s fun t =>
     t.ethHalted p = false ∧ t.eth = s.eth ∧ t.ethTxIdx p = s.ethTxIdx p) ∧
  (∀ (p : Fin 2) (s : State), s.pwr.restoring = false → s.locked = false → Does (.ethTxflush p) s fun t =>
     (s.ethHalted p = true → t.ethHalted p = false ∧ t.ethTxIdx p = (s.ethPort p).txPi % 2 ^ 12 ∧
     (t.ethPort p).staged = (s.ethPort p).staged.filter (·.started)) ∧
     (s.ethHalted p = false → t.eth = s.eth ∧ t.ethTxIdx p = s.ethTxIdx p)) ∧
  (∀ (w : Word) (s : State), s.pwr.restoring = false → Does (.ethMdioCommand w) s fun t =>
     (s.on Reg.ETH_MDIO Fld.ETH_MDIO.BUSY = false → t.on Reg.ETH_MDIO Fld.ETH_MDIO.BUSY = true ∧
     t.fld Reg.ETH_MDIO Fld.ETH_MDIO.DATA = Fld.ETH_MDIO.DATA.of w ∧ t.fld Reg.ETH_MDIO Fld.ETH_MDIO.REG = Fld.ETH_MDIO.REG.of w ∧
     t.fld Reg.ETH_MDIO Fld.ETH_MDIO.PHYAD = Fld.ETH_MDIO.PHYAD.of w ∧ t.fld Reg.ETH_MDIO Fld.ETH_MDIO.OP = Fld.ETH_MDIO.OP.of w ∧
     t.fld Reg.ETH_MDIO Fld.ETH_MDIO.C45 = Fld.ETH_MDIO.C45.of w) ∧
     (s.on Reg.ETH_MDIO Fld.ETH_MDIO.BUSY = true → t.reg Reg.ETH_MDIO = s.reg Reg.ETH_MDIO))

/-- Each write re-bases vehicle time at its instant and counts as steering: RATE changes the rate, clamped to its
range, and keeps the time; STEP adds its signed nanoseconds; SET takes the seconds and nanoseconds of the set
registers. (Where the spec leaves a choice, the statement speaks of the model's: assumption log 92.) Completion is
stated here, with the effect and under conditions on state and operands alone, of: ETH_VT_RATE_WRITE, ETH_VT_STEP,
ETH_VT_SET. -/
def Obligations.VehicleTimeWrites : Prop :=
  (∀ (w : Word) (s : State), s.pwr.restoring = false → s.locked = false →
     Does (.ethVtRateWrite w) s fun t => t.vt.base = s.vtAt s.now ∧ t.vt.baseAt = s.now ∧ t.vt.steered = some s.now ∧
     t.vt.rate = clampRate w ∧ t.reg Reg.ETH_VT_RATE = clampRate w ∧
     (-8000000 ≤ w.toInt ∧ w.toInt ≤ 8000000 → clampRate w = w)) ∧
  (∀ (w : Word) (s : State), s.pwr.restoring = false → s.locked = false →
     Does (.ethVtStep w) s fun t =>
     t.vt.base = (((s.vtAt s.now : Int) + w.toInt * 65536) % (vtModulus : Int)).toNat ∧ t.vt.baseAt = s.now ∧
     t.vt.steered = some s.now) ∧
  (∀ s : State, s.pwr.restoring = false → s.locked = false → Does .ethVtSet s fun t =>
     t.vt.base = (((s.reg Reg.ETH_VT_SETSEC_LO).toNat + s.fld Reg.ETH_VT_SETSEC_HI Fld.ETH_VT_SETSEC_HI.SEC * 2 ^ 32) * 1000000000 +
     s.fld Reg.ETH_VT_SETNS Fld.ETH_VT_SETNS.NS) * 65536 ∧ t.vt.baseAt = s.now ∧ t.vt.steered = some s.now)

/-- START starts core 1. DINV and IINV empty the caches named of core c and no other. EN of a watchdog starts its
count anew. A flash command is taken where it is admitted, and else nothing is sent and REFUSED is set. (Where the
spec leaves a choice, the statement speaks of the model's: assumption log 43, 74, 100.) Completion is stated here,
with the effect and under conditions on state and operands alone, of: CORE1_START, CACHE_INVALIDATE, WDOG_ENABLE,
XSP_COMMAND. -/
def Obligations.HostComplexWrites : Prop :=
  (∀ s : State, s.pwr.restoring = false → s.locked = false → Does .core1Start s fun t =>
     t.fld Reg.HIC_C1_CTRL Fld.HIC_C1_CTRL.RUN = 1) ∧
  (∀ (c : Fin 2) (data inst : Bool) (s : State), s.pwr.restoring = false →
     Does (.cacheInvalidate c data inst) s fun t => t.cached false c = (if data then [] else s.cached false c) ∧
     t.cached true c = if inst then [] else s.cached true c) ∧
  (∀ (wd : Fin 2) (cfg : Word) (s : State), s.pwr.restoring = false → s.locked = false → s.wdEn wd = false →
     Does (.wdogEnable wd cfg) s fun t => t.wdEn wd = true ∧ (t.wd wd).since = s.now ∧ (t.wd wd).first = none ∧
     (t.wd wd).warned = false) ∧
  (∀ (cmd : Word) (s : State), s.pwr.restoring = false → s.on Reg.XSP_STAT Fld.XSP_STAT.BUSY = false →
     Does (.xspCommand cmd) s fun t =>
     (s.xspRefused (s.busWord Reg.XSP_CMD (Fld.XSP_CMD.GO.put 1 cmd)) = false → t.on Reg.XSP_STAT Fld.XSP_STAT.BUSY = true ∧
     t.fld Reg.XSP_CMD Fld.XSP_CMD.OP = Fld.XSP_CMD.OP.of cmd) ∧
     (s.xspRefused (s.busWord Reg.XSP_CMD (Fld.XSP_CMD.GO.put 1 cmd)) = true → t.on Reg.XSP_STAT Fld.XSP_STAT.BUSY = false ∧
     t.on Reg.XSP_STAT Fld.XSP_STAT.REFUSED = true))

/-- Writing ALG loads SEED and the running register with the initial value of the algorithm; writing SEED loads the
running register; DATA feeds the four bytes of its word, lowest first, and DATAB one byte. GO starts a scan slot from
its first target. (Where the spec leaves a choice, the statement speaks of the model's: assumption log 39.) Completion
is stated here, with the effect and under conditions on state and operands alone, of: CHK_ALG_WRITE, CHK_SEED_WRITE,
CHK_DATA_WRITE, CHK_DATAB_WRITE, SCAN_GO. -/
def Obligations.CheckUnits : Prop :=
  (∀ (n : Fin 4) (w : Word) (s : State), s.pwr.restoring = false → Does (.chkAlgWrite n w) s fun t =>
     t.fld (Reg.CHK_Un_CFG n) Fld.CHK_Un_CFG.ALG = Fld.CHK_Un_CFG.ALG.of w ∧
     t.reg (Reg.CHK_Un_SEED n) = BitVec.ofNat 32 (Crc.algOf (Fld.CHK_Un_CFG.ALG.of w)).init ∧
     t.chkRun n = BitVec.ofNat 32 (Crc.algOf (Fld.CHK_Un_CFG.ALG.of w)).init) ∧
  (∀ (n : Fin 4) (w : Word) (s : State), s.pwr.restoring = false → Does (.chkSeedWrite n w) s fun t =>
     t.reg (Reg.CHK_Un_SEED n) = w ∧ t.chkRun n = BitVec.ofNat 32 (w.toNat % 2 ^ (s.chkAlg n).width)) ∧
  (∀ (n : Fin 4) (w : Word) (s : State), s.pwr.restoring = false → Does (.chkDataWrite n w) s fun t =>
     t.chkRun n = chkFeed (s.chkAlg n) (s.chkRun n) (bytesOfWord w) ∧ t.reg (Reg.CHK_Un_CFG n) = s.reg (Reg.CHK_Un_CFG n)) ∧
  (∀ (n : Fin 4) (w : Word) (s : State), s.pwr.restoring = false → Does (.chkDatabWrite n w) s fun t =>
     t.chkRun n = chkFeed (s.chkAlg n) (s.chkRun n) [w.extractLsb' 0 8] ∧ t.reg (Reg.CHK_Un_CFG n) = s.reg (Reg.CHK_Un_CFG n)) ∧
  (∀ (n : Fin 8) (s : State), s.pwr.restoring = false → Does (.scanGo n) s fun t =>
     t.fld (Reg.CHK_SCs_STAT n) Fld.CHK_SCs_STAT.RUN = 1 ∧ (t.scan n).target = 0 ∧ (t.scan n).report = true ∧
     (t.scan n).startAt = s.now)

/-- A register write that reaches no field leaves every register; one by the debugger with debugging closed does
nothing; GPIO_OUT and GPIO_DIR take the value. A watchdog is served by its two words in order, by its own core and
inside the window; each other write is the violation that the spec names, with its CAUSE. (Where the spec leaves a
choice, the statement speaks of the model's: assumption log 39, 99.) Completion is stated here, with the effect and
under conditions on state and operands alone, of: REGISTER_WRITE, WDOG_SERVICE. -/
def Obligations.WritesReachRegisters : Prop :=
  (∀ (unit : Fin 22) (index : Fin 0x4000) (w : Word) (s : State),
     (∀ d i, regAt (canonical (blockBase + 0x10000 * unit.val + 4 * index.val)) = some (d, i) → d.reach (.core 0) s.locked = 0) →
     Does (.registerWrite 0 unit index w) s fun t => t.regs = s.regs ∧ t.bus = .done ∧ t.now = s.now) ∧
  (∀ (unit : Fin 22) (index : Fin 0x4000) (w : Word) (s : State), s.debugOpen = false →
     Does (.registerWrite 2 unit index w) s fun t => t = s) ∧
  (∀ (w : Word) (s : State), s.pwr.restoring = false → Does (.registerWrite 0 21 0 w) s fun t => t.reg Reg.GPIO_OUT = w) ∧
  (∀ (w : Word) (s : State), s.pwr.restoring = false → Does (.registerWrite 0 21 1 w) s fun t => t.reg Reg.GPIO_DIR = w) ∧
  (∀ (w c : Fin 2) (v : Word) (n : Nat) (s : State), c ≠ w → Does (.wdogService w c v n) s fun t =>
     t.fld (Reg.HIC_WDw_STAT w) Fld.HIC_WDw_STAT.FOREIGN = satAdd 8 (s.fld (Reg.HIC_WDw_STAT w) Fld.HIC_WDw_STAT.FOREIGN) 1 ∧
     t.hic = s.hic) ∧
  (∀ (w : Fin 2) (n : Nat) (s : State), s.wdEn w = true → (s.at n).wdCount w < s.wdClose w → (s.wd w).first = none →
     s.wdOpen w ≤ (s.at n).wdCount w → Does (.wdogService w w 0xC35A n) s fun t =>
     t.wd w = { s.wd w with first := some (max s.now n) }) ∧
  (∀ (w : Fin 2) (n m : Nat) (s : State), s.wdEn w = true → (s.at n).wdCount w < s.wdClose w → (s.wd w).first = some m →
     max s.now n ≤ m + 6400 → Does (.wdogService w w 0x3CA5 n) s fun t =>
     (t.wd w).since = max s.now n ∧ (t.wd w).first = none ∧ (t.wd w).warned = false) ∧
  (∀ (w : Fin 2) (n : Nat) (s : State), s.wdEn w = true → (s.at n).wdCount w < s.wdClose w → (s.wd w).first = none →
     (s.at n).wdCount w < s.wdOpen w → Does (.wdogService w w 0xC35A n) s fun t =>
     t.fld (Reg.HIC_WDw_STAT w) Fld.HIC_WDw_STAT.CAUSE = 0) ∧
  (∀ (w : Fin 2) (v : Word) (n : Nat) (s : State), s.wdEn w = true → (s.at n).wdCount w < s.wdClose w →
     v ≠ 0xC35A → v ≠ 0x3CA5 → Does (.wdogService w w v n) s fun t =>
     t.fld (Reg.HIC_WDw_STAT w) Fld.HIC_WDw_STAT.CAUSE = 2) ∧
  (∀ (w : Fin 2) (n : Nat) (s : State), s.wdEn w = true → (s.at n).wdCount w < s.wdClose w → (s.wd w).first = none →
     Does (.wdogService w w 0x3CA5 n) s fun t => t.fld (Reg.HIC_WDw_STAT w) Fld.HIC_WDw_STAT.CAUSE = 3)

/-! ### The host complex -/

/-- A claim answers the best source, claims it and clears its edge, or answers 0; completion ends the claim of the
writing core alone. A read of a semaphore answers the owner, and a core that finds it free takes it, the debugger
never; 0 written by its owner frees it and nothing else does. The timer interrupt is pending once MTIME has reached
MTIMECMP. A misaligned access is the core's exception, or a fault at a register block, and changes nothing. Through
the uncached alias a word is loaded and stored; LR reserves it; SC with the reservation stores and answers 0, and
without it stores nothing and answers 1. (Where the spec leaves a choice, the statement speaks of the model's:
assumption log 72, 73.) Completion is stated here, with the effect and under conditions on state and operands alone,
of: IRQ_CLAIM, IRQ_COMPLETE, SEM_READ, SEM_FREE, MTIMECMP_REACHED, CORE_MEMORY_ACCESS. -/
def Obligations.AccessesInterruptsAndSemaphores : Prop :=
  (∀ (c : Fin 2) (s : State), Does (.irqClaim c) s fun t =>
     t.bus = .value (BitVec.ofNat 32 (s.bestSource c)) ∧
     (s.bestSource c = 0 → t.hic = s.hic) ∧
     (s.bestSource c ≠ 0 → t.hic.claims = (s.bestSource c, c.val) :: s.hic.claims ∧
     t.hic.edges = withoutBit s.hic.edges (s.bestSource c))) ∧
  (∀ (c : Fin 2) (w : Word) (s : State), Does (.irqComplete c w) s fun t =>
     (∀ id k, (id, k) ∈ t.hic.claims ↔ (id, k) ∈ s.hic.claims ∧ ¬(id = w.toNat ∧ k = c.val)) ∧ t.hic.edges = s.hic.edges) ∧
  (∀ (n : Fin 16) (r : Fin 3) (s : State), Does (.semRead n r) s fun t =>
     t.bus = .value (BitVec.ofNat 32 (s.fld (Reg.HIC_SEMn n) Fld.HIC_SEMn.OWNER)) ∧
     t.fld (Reg.HIC_SEMn n) Fld.HIC_SEMn.OWNER =
     if s.fld (Reg.HIC_SEMn n) Fld.HIC_SEMn.OWNER = 0 ∧ r.val < 2 then r.val + 1 else s.fld (Reg.HIC_SEMn n) Fld.HIC_SEMn.OWNER) ∧
  (∀ (n : Fin 16) (c : Fin 2) (w : Word) (s : State), Does (.semFree n c w) s fun t =>
     t.fld (Reg.HIC_SEMn n) Fld.HIC_SEMn.OWNER =
     if w = 0 ∧ s.fld (Reg.HIC_SEMn n) Fld.HIC_SEMn.OWNER = c.val + 1 then 0 else s.fld (Reg.HIC_SEMn n) Fld.HIC_SEMn.OWNER) ∧
  (∀ (c : Fin 2) (n : Nat) (s : State), Does (.mtimecmpReached c n) s fun t =>
     t.now = max s.now n ∧
     ((s.at n).mtimecmp c ≤ (s.at n).mtime → hasBit t.hic.mtip c = true) ∧
     ((s.at n).mtime < (s.at n).mtimecmp c → t.hic = s.hic)) ∧
  (∀ (c : Fin 2) (op : CoreOp) (w : Fin 3) (a v : Word) (b : Bool) (e : Fin 3) (f : Option Word) (s : State),
     a.toNat % widthBytes w.val ≠ 0 → Does (.coreMemoryAccess c op w a v b e f) s fun t =>
     t.bus = (if inBlocks a.toNat then .accessFault else .misaligned) ∧ t.regs = s.regs ∧ t.mem = s.mem) ∧
  (∀ (c : Fin 2) (a v : Word) (b : Bool) (f : Option Word) (s : State), a.toNat % 4 = 0 → inUncached a.toNat = true →
     s.sramBad (a.toNat - uncachedBase) = false → Does (.coreMemoryAccess c .load 2 a v b 0 f) s fun t =>
     t.bus = .value (s.sram (a.toNat - uncachedBase)) ∧ t.regs = s.regs ∧ t.mem = s.mem) ∧
  (∀ (c : Fin 2) (a v : Word) (b : Bool) (e : Fin 3) (f : Option Word) (s : State), a.toNat % 4 = 0 → inUncached a.toNat = true →
     a.toNat - uncachedBase < doorbell → Does (.coreMemoryAccess c .store 2 a v b e f) s fun t =>
     t.bus = .done ∧ t.sram (a.toNat - uncachedBase) = v ∧ t.regs = s.regs) ∧
  (∀ (c : Fin 2) (a v : Word) (b : Bool) (f : Option Word) (s : State), a.toNat % 4 = 0 → inUncached a.toNat = true →
     s.sramBad (a.toNat - uncachedBase) = false → Does (.coreMemoryAccess c .lr 2 a v b 0 f) s fun t =>
     t.bus = .value (s.sram (a.toNat - uncachedBase)) ∧ t.hic.resv.contains (c.val, a.toNat - uncachedBase) = true ∧ t.mem = s.mem) ∧
  (∀ (c : Fin 2) (a v : Word) (b : Bool) (e : Fin 3) (f : Option Word) (s : State), a.toNat % 4 = 0 → inUncached a.toNat = true →
     s.hic.resv.contains (c.val, a.toNat - uncachedBase) = false → Does (.coreMemoryAccess c .sc 2 a v b e f) s fun t =>
     t.bus = .value 1 ∧ t.regs = s.regs ∧ t.mem = s.mem) ∧
  (∀ (c : Fin 2) (a v : Word) (b : Bool) (e : Fin 3) (f : Option Word) (s : State), a.toNat % 4 = 0 → inUncached a.toNat = true →
     s.hic.resv.contains (c.val, a.toNat - uncachedBase) = true → a.toNat - uncachedBase < doorbell →
     Does (.coreMemoryAccess c .sc 2 a v b e f) s fun t => t.bus = .value 0 ∧ t.sram (a.toNat - uncachedBase) = v ∧ t.regs = s.regs)

/-- The pre-warning of a running watchdog interrupts once. At CLOSE a running watchdog that is not frozen violates
with CAUSE 1, and with CAUSE 3 where the second word is missing. The reset comes when its delay has passed and the
ledger has accepted the entries on their way. (Where the spec leaves a choice, the statement speaks of the model's:
assumption log 99.) Completion is stated here, with the effect and under conditions on state and operands alone, of:
WDOG_PREWARNING, WDOG_CLOSE, WDOG_RESET. -/
def Obligations.Watchdogs : Prop :=
  (∀ (w : Fin 2) (s : State), s.wdEn w = true →
     s.fld (Reg.HIC_WDw_CFG w) Fld.HIC_WDw_CFG.PRE ≠ 0 → (s.wd w).warned = false → s.wdFrozen w = false →
     Does (.wdogPrewarning w) s fun t => (t.wd w).warned = true ∧ hasBit t.hic.edges (22 + w.val) = true) ∧
  (∀ (w : Fin 2) (s : State), s.wdEn w = true → s.wdFrozen w = false → Does (.wdogClose w false) s fun t =>
     t.fld (Reg.HIC_WDw_STAT w) Fld.HIC_WDw_STAT.CAUSE = 1) ∧
  (∀ (w : Fin 2) (m : Nat) (s : State), s.wdEn w = true → (s.wd w).first = some m → Does (.wdogClose w true) s fun t =>
     t.fld (Reg.HIC_WDw_STAT w) Fld.HIC_WDw_STAT.CAUSE = 3) ∧
  (∀ (n : Nat) (s : State), s.hic.wdogAt = none → Does (.wdogReset n) s fun t => t = s.at n) ∧
  (∀ (n d : Nat) (s : State), s.hic.wdogAt = some d → max s.now n < d ∨ s.led.sent ≠ [] → Does (.wdogReset n) s fun t => t = s.at n) ∧
  (∀ (n d : Nat) (s : State), s.hic.wdogAt = some d → d ≤ max s.now n → s.led.sent = [] → s.pwr.held = none →
     Does (.wdogReset n) s fun t => t.pwr.held = some rstWdog ∧ t.pwr.heldAt = t.now ∧ t.hic.core0 = 0)

/-- The end of a flash command clears BUSY and interrupts; in 8D mode a read without its strobe sets TMO. A GPIO edge
shows its level and sets the status bit if configured for that edge. A TAP instruction that the life-cycle state
refuses loads as BYPASS. The debugger halts and resumes a core where it is admitted, and a frozen watchdog goes on
where it stood. Completion is stated here, with the effect and under conditions on state and operands alone, of:
XSP_COMMAND_DONE, XSP_READ_TIMEOUT, GPIO_EDGE, TAP_INSTRUCTION, DEBUG_HALT. -/
def Obligations.FlashPinsAndDebug : Prop :=
  (∀ (data : List Byte) (s : State), s.on Reg.XSP_STAT Fld.XSP_STAT.BUSY = true →
     Does (.xspCommandDone data) s fun t => t.on Reg.XSP_STAT Fld.XSP_STAT.BUSY = false ∧ hasBit t.hic.edges 20 = true) ∧
  (∀ (c cs : Fin 2) (s : State), s.on Reg.XSP_CFG Fld.XSP_CFG.MODE = true → Does (.xspReadTimeout c cs) s fun t =>
     t.on Reg.XSP_STAT Fld.XSP_STAT.TMO = true) ∧
  (∀ (c cs : Fin 2) (s : State), s.on Reg.XSP_CFG Fld.XSP_CFG.MODE = false → Does (.xspReadTimeout c cs) s fun t => t = s) ∧
  (∀ (b : Fin 32) (up : Bool) (s : State), Does (.gpioEdge b up) s fun t =>
     bitAt (t.reg Reg.GPIO_IN) b = up ∧
     (∀ k, k < 32 → k ≠ b.val → bitAt (t.reg Reg.GPIO_IN) k = bitAt (s.reg Reg.GPIO_IN) k) ∧
     bitAt (t.reg Reg.GPIO_IRQSTAT) b = (bitAt (s.reg Reg.GPIO_IRQSTAT) b ||
     bitAt (s.reg (Reg.GPIO_IRQCFG (b / 16))) (2 * (b.val % 16) + if up then 0 else 1))) ∧
  (∀ (n : Nat) (s : State), Does (.tapInstruction n) s fun t =>
     (n ≤ 1 → t.hic.tap = n) ∧ (s.lcs = 0 → t.hic.tap = n) ∧
     (s.lcs = 1 ∨ s.lcs = 3 → 1 < n → t.hic.tap = 0) ∧ t.regs = s.regs) ∧
  (∀ (c : Fin 2) (b : Bool) (s : State), s.debugOpen = false → Does (.debugHalt c b) s fun t => t = s) ∧
  (∀ (c : Fin 2) (s : State), s.debugOpen = true → Does (.debugHalt c true) s fun t => hasBit t.hic.halted c = true) ∧
  (∀ (c : Fin 2) (e : Nat) (s : State), s.debugOpen = true → (s.wd c).held = some e → Does (.debugHalt c false) s fun t =>
     (t.wd c).held = none ∧ (t.wd c).since = s.now - e)

/-! ### Clocks -/

/-- A lost reference is shown and counted, and locked PLLs go into holdover; HOLDTMO without it unlocks those in
holdover; with its return, and both frequency errors within 200 ppm, they lock again, and else stay. An edge of
TICK_IN records its signed error; two periods without one are found once. A stopped crystal is shown in RTCSRC, and
the count goes on. (Where the spec leaves a choice, the statement speaks of the model's: assumption log 8, 89, 92.)
Completion is stated here, with the effect and under conditions on state and operands alone, of: REFERENCE_LOST,
REFERENCE_RETURN, HOLDOVER_TIMEOUT, TICK_IN_EDGE, TICK_IN_MISSING, RTC_SOURCE_SWITCH. -/
def Obligations.ReferenceTickInputAndRtc : Prop :=
  (∀ s : State, s.refPresent = true → Does .referenceLost s fun t =>
     t.refPresent = false ∧ t.clk.refLost = some s.now ∧
     t.fld Reg.CLK_CNT Fld.CLK_CNT.REFLOSS = satAdd 8 (s.fld Reg.CLK_CNT Fld.CLK_CNT.REFLOSS) 1 ∧
     ∀ p, p < 2 → t.pllState p = if s.pllState p = pllLocked then pllHoldover else s.pllState p) ∧
  (∀ (j ea eb : Int) (s : State), Does (.referenceReturn j ea eb) s fun t =>
     t.refPresent = true ∧
     (∀ m, s.clk.refLost = some m → ea.natAbs ≤ 200 → eb.natAbs ≤ 200 → ∀ p, p < 2 →
     t.pllState p = if s.pllState p = pllHoldover then pllLocked else s.pllState p) ∧
     (200 < ea.natAbs ∨ 200 < eb.natAbs → ∀ p, t.pllState p = s.pllState p)) ∧
  (∀ s : State, s.clk.refLost = none → Does .holdoverTimeout s fun t => t = s) ∧
  (∀ (m : Nat) (s : State), s.clk.refLost = some m → Does .holdoverTimeout s fun t =>
     ∀ p, p < 2 → t.pllState p = if s.pllState p = pllHoldover then pllUnlocked else s.pllState p) ∧
  (∀ (n : Nat) (s : State), s.on Reg.CLK_TICKIN_CFG Fld.CLK_TICKIN_CFG.EN = true →
     Does (.tickInEdge n) s fun t => t.reg Reg.CLK_TICKIN_ERR = BitVec.ofInt 32 (s.tickInErr n) ∧ t.now = max s.now n) ∧
  (∀ s : State, s.on Reg.CLK_TICKIN_CFG Fld.CLK_TICKIN_CFG.EN = true → s.clk.inMissing = false → Does .tickInMissing s fun t =>
     t.clk.inMissing = true ∧ t.now = max s.now (s.clk.inAt + 2 * (s.tb 0).period)) ∧
  (∀ s : State, s.on Reg.CLK_TICKIN_CFG Fld.CLK_TICKIN_CFG.EN = false ∨ s.clk.inMissing = true → Does .tickInMissing s fun t => t = s) ∧
  (∀ s : State, Does .rtcSourceSwitch s fun t =>
     t.fld Reg.CLK_STAT Fld.CLK_STAT.RTCSRC = 1 ∧ t.rtcNow = s.rtcNow)

/-- A filter that charges too fast or not fully turns its PLL off, else it acquires. A lock, of a PLL whose programmed
factors can lock, is followed by quarantine. A PLL that unlocks or fails leaves service with its unit FAILED. The end
of quarantine brings back one that passes, locked or in holdover, and leaves one that fails out of service. (Where the
spec leaves a choice, the statement speaks of the model's: assumption log 8, 89.) Completion is stated here, with the
effect and under conditions on state and operands alone, of: PLL_FILTER_CHECK, PLL_LOCK_DECLARED, PLL_UNLOCK,
PLL_FAIL, PLL_QUARANTINE_END. -/
def Obligations.PllStates : Prop :=
  (∀ (p : Fin 2) (v20 v200 : Nat) (s : State), s.pllEn p = true → s.pllState p < 2 →
     Does (.pllFilterCheck p v20 v200) s fun t =>
     t.pllState p = if 600 ≤ v20 ∨ v200 ≤ 600 then pllOff else pllAcquire) ∧
  (∀ (p : Fin 2) (ldmv : Nat) (s : State), s.pllState p = pllAcquire ∨ s.pllState p = pllUnlocked →
     s.pllEn p = true → (s.pll p).filterBad = false → ldmv < 300 → s.vcoLocks p = true → Does (.pllLockDeclared p ldmv) s fun t =>
     t.pllState p = pllQuarantine ∧ ((s.pll p).testing = false → t.unit (0x2C + p.val) = unitQuarantine)) ∧
  (∀ (p : Fin 2) (ldmv : Nat) (s : State), s.pllServes p = true ∨ s.pllState p = pllQuarantine → 600 < ldmv →
     Does (.pllUnlock p ldmv) s fun t => t.pllState p = pllUnlocked ∧ t.unit (0x2C + p.val) = unitFailed) ∧
  (∀ (p : Fin 2) (kind : Bool) (dev : Nat) (s : State), pllAcquire ≤ s.pllState p → s.pllState p ≤ pllUnlocked →
     (kind = true → 80 < dev) → Does (.pllFail p kind dev) s fun t => t.pllState p = pllUnlocked ∧ t.unit (0x2C + p.val) = unitFailed) ∧
  (∀ (p : Fin 2) (s : State), s.pllState p = pllQuarantine → Does (.pllQuarantineEnd p false) s fun t =>
     t.pllState p = pllUnlocked ∧ t.unit (0x2C + p.val) = unitFailed) ∧
  (∀ (p : Fin 2) (s : State), s.pllState p = pllQuarantine → s.falseDeath p = false → Does (.pllQuarantineEnd p true) s fun t =>
     t.pllState p = (if s.refPresent then pllLocked else pllHoldover) ∧ t.unit (0x2C + p.val) = unitServing)

/-! ### Power stage and sensing -/

/-- At its zero a timebase that runs or waits opens a period there; its half-period point is passed once. A
calibration of the delay lines counts in coarse mode. A gate that does not follow its generator brings in a free spare
at the pair's next zero, or exhausts the pool. A ball that a safe state governs and that does not follow halts the
device; another does nothing. (Where the spec leaves a choice, the statement speaks of the model's: assumption log 57,
62.) Completion is stated here, with the effect and under conditions on state and operands alone, of: TIMEBASE_ZERO,
HALF_PERIOD_POINT, DELAY_LINE_CALIBRATED, GATE_READBACK_FAIL, SAFE_READBACK_FAIL. -/
def Obligations.TimebasesAndReadbacks : Prop :=
  (∀ (n : Fin 4) (m : Nat) (s : State), (s.tb n).running = false → (s.tb n).waiting = false →
     Does (.timebaseZero n m) s fun t => t = s) ∧
  (∀ (n : Fin 4) (m : Nat) (s : State), (s.tb n).running = true ∨ (s.tb n).waiting = true ∧ s.tbRun 0 = true →
     Does (.timebaseZero n m) s fun t => (t.tb n).running = true ∧ (t.tb n).pastHalf = false ∧
     (t.tb n).zeroAt = max s.now (s.zeroInstant n) ∧ t.now = max s.now (s.zeroInstant n)) ∧
  (∀ (n : Fin 4) (s : State), (s.tb n).running = false ∨ (s.tb n).pastHalf = true → Does (.halfPeriodPoint n) s fun t => t = s) ∧
  (∀ (n : Fin 4) (s : State), (s.tb n).running = true → (s.tb n).pastHalf = false → Does (.halfPeriodPoint n) s fun t =>
     (t.tb n).pastHalf = true ∧ t.now = max s.now (s.tb n).halfAt) ∧
  (∀ (n : Fin 4) (s : State), Does (.delayLineCalibrated n) s fun t =>
     (t.tb n).calibrated = (s.tbCoarse n || (s.tb n).calibrated) ∧ (s.tbCoarse n = false → t = s)) ∧
  (∀ (k : Fin 16) (sp : Nat) (s : State), (s.pair k).swapTo = some sp ∨
     (s.pair k).swapTo = none ∧ s.genOf k < 16 ∧ s.freeSpare = some sp →
     Does (.gateReadbackFail k) s fun t => (t.pair k).swapTo = some sp ∧ (t.pair k).swapCause = 1 ∧ t.regs = s.regs) ∧
  (∀ (k : Fin 16) (s : State), (s.pair k).swapTo = none → s.genOf k < 16 → s.freeSpare = none →
     Does (.gateReadbackFail k) s fun t => t.on Reg.PWM_STAT Fld.PWM_STAT.EXH = true) ∧
  (∀ (k : Fin 16) (low : Bool) (s : State), s.safeGoverns k = true → s.haltedF4 = false →
     Does (.safeReadbackFail k low) s fun t => Halted s t) ∧
  (∀ (k : Fin 16) (low : Bool) (s : State), s.safeGoverns k = false → Does (.safeReadbackFail k low) s fun t => t = s)

/-- A source becomes active, or inactive, that has shown the level which its POL calls so for as many samples of the
fixed grid as its filter asks for, and no other level changes. A connected comparator is high above HI until its input
falls HYS below it, and low below LO until its input rises HYS above it; one that is off does not follow its input.
(Where the spec leaves a choice, the statement speaks of the model's: assumption log 62, 63.) Completion is stated
here, with the effect and under conditions on state and operands alone, of: TRIP_FILTER_ACTIVE, TRIP_FILTER_INACTIVE,
COMPARATOR_CROSSING. -/
def Obligations.TripSources : Prop :=
  (∀ (named raw first n : Nat) (s : State), Does (.tripFilterActive named raw first n) s fun t =>
     (∀ b, b < 32 → (t.levelActive b = true ↔ s.levelActive b = true ∨ s.nowActive named raw first n true b)) ∧
     ∀ b, b < 16 → hasBit named b = true → (s.nowActive named raw first n true b ↔
     (hasBit raw b != s.on (srcCfg b) Fld.PROT_EXTn_CFG.POL) = true ∧
     s.srcFilt b ≤ ((s.seeRaw named raw first).at n).samples b)) ∧
  (∀ (named raw first n : Nat) (s : State),
     Does (.tripFilterInactive named raw first n) s fun t =>
     (∀ b, b < 32 → (t.levelActive b = true ↔ s.levelActive b = true ∧ ¬ s.nowActive named raw first n false b)) ∧
     (∀ b, b < 16 → hasBit named b = true → (s.nowActive named raw first n false b ↔
     (hasBit raw b != s.on (srcCfg b) Fld.PROT_EXTn_CFG.POL) = false ∧
     s.srcFilt b ≤ ((s.seeRaw named raw first).at n).samples b)) ∧
     t.prot = (s.seeRaw named raw first).prot ∧ t.now = max s.now n) ∧
  (∀ (m : Fin 12) (v : Int) (vref n : Nat) (s : State), s.cmpOff m = true → Does (.comparatorCrossing m v vref n) s fun t =>
     t.prot = s.prot ∧ t.now = max s.now n) ∧
  (∀ (m : Fin 12) (v : Int) (vref n : Nat) (s : State), s.cmpOff m = false → Does (.comparatorCrossing m v vref n) s fun t =>
     (s.fld (Reg.PROT_CMPm_THR m) Fld.PROT_CMPm_THR.HI * vref < v.toNat * 1024 → hasBit t.prot.cmpHi m = true) ∧
     (v.toNat * 1024 + s.fld (Reg.PROT_CMPm_CFG m) Fld.PROT_CMPm_CFG.HYS * vref < s.fld (Reg.PROT_CMPm_THR m) Fld.PROT_CMPm_THR.HI * vref →
     hasBit t.prot.cmpHi m = false) ∧
     (v.toNat * 1024 < s.fld (Reg.PROT_CMPm_THR m) Fld.PROT_CMPm_THR.LO * vref → hasBit t.prot.cmpLo m = true) ∧
     (s.fld (Reg.PROT_CMPm_THR m) Fld.PROT_CMPm_THR.LO * vref + s.fld (Reg.PROT_CMPm_CFG m) Fld.PROT_CMPm_CFG.HYS * vref < v.toNat * 1024 →
     hasBit t.prot.cmpLo m = false))

/-- At the end of a slot each serving core stores the code of its entry; a conversion lost on the die link changes no
result. The full shadow of a spare ends with a takeover or out of service. An urgent request starts the idle spare or
is dropped and counted; its end brings code, source and tick, and frees the spare. A comparator under test that
answers as it should goes on to the next step. (Where the spec leaves a choice, the statement speaks of the model's:
assumption log 8, 78.) Completion is stated here, with the effect and under conditions on state and operands alone,
of: SAR_CONVERSION_DONE, SPARE_SHADOW_END, URGENT_REQUEST, URGENT_CONVERSION_DONE, COMPARATOR_TEST_STEP. -/
def Obligations.Acquisition : Prop :=
  (∀ (g : Fin 4) (v0 v1 v2 v3 : Int) (vref n : Nat) (lost : Bool) (s : State), s.acqRuns = false →
     Does (.sarConversionDone g v0 v1 v2 v3 vref n lost) s fun t => t = s) ∧
  (∀ (g : Fin 4) (v0 v1 v2 v3 : Int) (vref n : Nat) (s : State), s.acqRuns = true →
     Does (.sarConversionDone g v0 v1 v2 v3 vref n false) s fun t => t.now = max s.now n ∧
     ∀ (j : Fin 3) (c : Nat), s.servingCore g j = some c → s.seqInput (3 * g.val + j.val) (s.slotEntry g j) ≠ 15 →
     (∀ i, i < j.val → s.seqInput (3 * g.val + i) (s.slotEntry g i) < 12) →
     t.fld (Reg.ACQ_Ea_e_RES (3 * g.val + j.val) (s.slotEntry g j)) Fld.ACQ_Ea_e_RES.CODE =
     sarCode (if c = 0 then v0 else if c = 1 then v1 else if c = 2 then v2 else v3) vref) ∧
  (∀ (g : Fin 4) (v0 v1 v2 v3 : Int) (vref n : Nat) (s : State), s.acqRuns = true →
     Does (.sarConversionDone g v0 v1 v2 v3 vref n true) s fun t => t.now = max s.now n ∧
     ∀ a e, t.reg (Reg.ACQ_Ea_e_RES a e) = s.reg (Reg.ACQ_Ea_e_RES a e)) ∧
  (∀ (g : Fin 4) (w : PairWatch) (s : State), (s.grp g).watch = some w → w.core = 3 → s.watchFull w = true → s.watchPasses w = true →
     Does (.spareShadowEnd g) s fun t => (t.grp g).takeover = some (w.live, 1) ∧ t.regs = s.regs) ∧
  (∀ (g : Fin 4) (w : PairWatch) (s : State), (s.grp g).watch = some w → w.core = 3 → s.watchFull w = true → s.watchPasses w = false →
     Does (.spareShadowEnd g) s fun t => (t.grp g).watch = none ∧ t.coreFail g 3 = true) ∧
  (∀ (g : Fin 4) (s : State), (∀ w, (s.grp g).watch = some w → w.core ≠ 3 ∨ s.watchFull w = false) →
     Does (.spareShadowEnd g) s fun t => t = s) ∧
  (∀ (g : Fin 4) (late : Bool) (s : State), s.acqRuns = false ∨ (s.grp g).asked = false ∧ s.urgentCount g = false →
     Does (.urgentRequest g late) s fun t => t = s) ∧
  (∀ (g : Fin 4) (s : State), s.acqRuns = true → (s.grp g).asked = true ∨ s.urgentCount g = true → s.spState g = spFree →
     s.coreFail g 3 = false → (s.grp g).takeover = none → Does (.urgentRequest g false) s fun t =>
     t.spState g = spUrgent ∧ (t.grp g).asked = false ∧
     (t.grp g).urgent = some (s.urgSrc g, s.fld (Reg.ACQ_GRPg_URGCFG g) Fld.ACQ_GRPg_URGCFG.INPUT)) ∧
  (∀ (g : Fin 4) (late : Bool) (s : State), s.acqRuns = true → (s.grp g).asked = true ∨ s.urgentCount g = true →
     late = true ∨ s.spState g ≠ spFree ∨ s.coreFail g 3 = true ∨ (s.grp g).takeover ≠ none → Does (.urgentRequest g late) s fun t =>
     t.fld (Reg.ACQ_GRPg_URGSTAT g) Fld.ACQ_GRPg_URGSTAT.DROP =
     satAdd 16 (s.fld (Reg.ACQ_GRPg_URGSTAT g) Fld.ACQ_GRPg_URGSTAT.DROP) 1 ∧
     t.spState g = s.spState g) ∧
  (∀ (g : Fin 4) (v : Int) (vref n : Nat) (s : State), (s.grp g).urgent = none → Does (.urgentConversionDone g v vref n) s fun t => t = s) ∧
  (∀ (g : Fin 4) (v : Int) (vref n src input : Nat) (s : State), (s.grp g).urgent = some (src, input) → src < 8 →
     Does (.urgentConversionDone g v vref n) s fun t =>
     t.fld (Reg.ACQ_GRPg_URGRES g) Fld.ACQ_GRPg_URGRES.CODE = sarCode v vref ∧
     t.fld (Reg.ACQ_GRPg_URGRES g) Fld.ACQ_GRPg_URGRES.SRC = src ∧
     t.fld (Reg.ACQ_GRPg_URGRES g) Fld.ACQ_GRPg_URGRES.SEQ = (s.fld (Reg.ACQ_GRPg_URGRES g) Fld.ACQ_GRPg_URGRES.SEQ + 1) % 256 ∧
     t.reg (Reg.ACQ_GRPg_URGTICK g) = BitVec.ofNat 32 (s.tick % 2 ^ 32) ∧
     t.fld (Reg.ACQ_GRPg_URGSTAT g) Fld.ACQ_GRPg_URGSTAT.DONE =
     satAdd 16 (s.fld (Reg.ACQ_GRPg_URGSTAT g) Fld.ACQ_GRPg_URGSTAT.DONE) 1 ∧
     t.spState g = spFree ∧ (t.grp g).urgent = none) ∧
  (∀ (m : Fin 12) (a : Bool) (s : State), (s.acq.tests.find? fun t => t.cmp == m.val) = none → Does (.comparatorTestStep m a) s fun t => t = s) ∧
  (∀ (m : Fin 12) (a : Bool) (x : CmpTest) (s : State), (s.acq.tests.find? fun t => t.cmp == m.val) = some x →
     s.cmpConverted m = true → 5 ≤ x.step ∨ a = (x.step % 2 == 1) → s.cmpStep m 4 (x.step + 1) < 5 →
     Does (.comparatorTestStep m a) s fun t =>
     t.acq.tests = s.acq.tests.filter (fun y => y.cmp != m.val) ++ [⟨m, s.cmpStep m 4 (x.step + 1)⟩] ∧ t.regs = s.regs)

/-- Each bit that a channel samples counts in its window, as a one where it is one; in MANCHESTER an edge within 25 %
of a bit period about the expected mid-bit instant is a bit, and one later is a decoding error, which counts in MERR
and spoils the window. The sinc3 filter gives an output when OSR bits have come since the last, and starts anew.
(Where the spec leaves a choice, the statement speaks of the model's: assumption log 79.) Completion is stated here,
with the effect and under conditions on state and operands alone, of: DS_BIT_SAMPLED, DS_SINC_OUTPUT. -/
def Obligations.DeltaSigma : Prop :=
  (∀ (c : Fin 12) (b : Bool) (n p : Nat) (s : State), s.dsClocked c = false ∨ s.dsMode c ≠ 2 ∧ s.dsSamples c n = false →
     Does (.dsBitSampled c b n p) s fun t => t = s) ∧
  (∀ (c : Fin 12) (b : Bool) (n p : Nat) (s : State), s.dsClocked c = true → s.dsMode c ≠ 2 → s.dsSamples c n = true →
     s.dsOpen n → Does (.dsBitSampled c b n p) s fun t =>
     (t.dsRun c).bits = satAdd 16 (s.dsRun c).bits 1 ∧ (t.dsRun c).ones = satAdd 16 (s.dsRun c).ones b.toNat ∧
     (s.dsOsr c ≠ 0 → (t.dsRun c).phase = (s.dsRun c).phase + 1) ∧ t.regs = s.regs) ∧
  (∀ (c : Fin 12) (b : Bool) (m n p : Nat) (s : State), s.dsClocked c = true → s.dsMode c = 2 → s.dsOpen n →
     (s.dsRun c).mid = some m → Does (.dsBitSampled c b n p) s fun t =>
     (4 * (m + p) ≤ 4 * n + p ∧ 4 * n ≤ 4 * (m + p) + p → (t.dsRun c).bits = satAdd 16 (s.dsRun c).bits 1 ∧
     (t.dsRun c).ones = satAdd 16 (s.dsRun c).ones b.toNat ∧ t.regs = s.regs) ∧
     (4 * (m + p) + p < 4 * n → (t.dsRun c).err = true ∧ (t.dsRun c).bits = (s.dsRun c).bits ∧
     t.fld (Reg.ACQ_DSc_STAT c) Fld.ACQ_DSc_STAT.MERR = satAdd 16 (s.fld (Reg.ACQ_DSc_STAT c) Fld.ACQ_DSc_STAT.MERR) 1)) ∧
  (∀ (c : Fin 12) (s : State), s.dsOsr c = 0 ∨ (s.dsRun c).phase < s.dsOsr c → Does (.dsSincOutput c) s fun t => t = s) ∧
  (∀ (c : Fin 12) (s : State), s.dsOsr c ≠ 0 → s.dsOsr c ≤ (s.dsRun c).phase → Does (.dsSincOutput c) s fun t =>
     (t.dsRun c).phase = 0 ∧ t.reg (Reg.ACQ_DSc_SINC c) = Sys2Proof.Num.pack (s.dsCalibrate c
     (Sys2Proof.Num.div ((s.dsRun c).output : Rat) ((s.dsOsr c * s.dsOsr c * s.dsOsr c : Nat) : Rat))))

/-- A pair in the amplitude window, later than the last update, moves the counter to the top 24 bits of its angle; the
third outside it in a row is a signal loss; a skipped quadrant is a double step. An accepted quadrature step moves the
counter by one in the channel's sense. Glitches count, and too many of them end the channel's service with its cause.
(Where the spec leaves a choice, the statement speaks of the model's: assumption log 8, 81.) Completion is stated
here, with the effect and under conditions on state and operands alone, of: RESOLVER_PAIR, SINCOS_PAIR,
POS_EDGE_ACCEPTED, POS_GLITCH. -/
def Obligations.PositionChannels : Prop :=
  (∀ (c : Fin 2) (v w : Int) (vexc mid : Nat) (s : State), s.chRuns c 1 = false → Does (.resolverPair c v w vexc mid) s fun t => t = s) ∧
  (∀ (c : Fin 2) (v w : Int) (vexc mid : Nat) (s : State), s.chRuns c 1 = true → s.inWindow c v w = false →
     Does (.resolverPair c v w vexc mid) s fun t => t.now = max s.now (s.resolverAt c mid) ∧
     ((s.ch c).outRun = 2 → Lost c causeLoss s t) ∧
     ((s.ch c).outRun < 2 → (t.ch c).outRun = (s.ch c).outRun + 1 ∧ t.chState c = s.chState c)) ∧
  (∀ (c : Fin 2) (v w : Int) (vexc mid : Nat) (s : State), s.chRuns c 1 = true → s.inWindow c v w = true →
     s.stale c (s.resolverAt c mid) = false →
     1 ≤ (s.ch c).inRun ∨ (s.ch c).delivers = true ∨ s.chState c = chTrack → Does (.resolverPair c v w vexc mid) s fun t =>
     t.cnt c = (Sys2Proof.Num.atan2 (volts v) (volts w)).toNat / 256) ∧
  (∀ (c : Fin 2) (v w : Int) (n : Nat) (s : State), s.chRuns c 2 = false → Does (.sincosPair c v w n) s fun t => t = s) ∧
  (∀ (c : Fin 2) (v w : Int) (n q : Nat) (s : State), s.chRuns c 2 = true → (s.ch c).quadrant = some q →
     ((Sys2Proof.Num.atan2 (volts v) (volts w)).toNat / 2 ^ 30 + 4 - q) % 4 = 2 → Does (.sincosPair c v w n) s fun t =>
     t.fld (Reg.POS_CHc_ERR c) Fld.POS_CHc_ERR.DSTEP = satAdd 8 (s.fld (Reg.POS_CHc_ERR c) Fld.POS_CHc_ERR.DSTEP) 1) ∧
  (∀ (c : Fin 2) (v w : Int) (n : Nat) (s : State), s.chRuns c 2 = true → (s.ch c).quadrant = none → s.inWindow c v w = false →
     (s.ch c).outRun = 2 → Does (.sincosPair c v w n) s fun t => Lost c causeLoss s t) ∧
  (∀ (c : Fin 2) (v w : Int) (n : Nat) (s : State), s.chRuns c 2 = true → (s.ch c).quadrant = none → s.stale c n = false →
     s.inWindow c v w = true → 1 ≤ (s.ch c).inRun ∨ (s.ch c).delivers = true ∨ s.chState c = chTrack →
     Does (.sincosPair c v w n) s fun t => t.cnt c = (s.sincosAngle c (Sys2Proof.Num.atan2 (volts v) (volts w))).toNat / 256) ∧
  (∀ (c : Fin 2) (l : Fin 8) (k n : Nat) (s : State), k < s.fld (Reg.POS_CHc_FILT c) Fld.POS_CHc_FILT.MINEI →
     Does (.posEdgeAccepted c l k n) s fun t => t = s) ∧
  (∀ (c : Fin 2) (l : Fin 8) (k n : Nat) (d : Int) (s : State), s.fld (Reg.POS_CHc_FILT c) Fld.POS_CHc_FILT.MINEI ≤ k →
     s.chRuns c 3 = true → d ≠ 0 →
     quadStep (hasBit (s.ch c).levels 0) (hasBit (s.ch c).levels 1) (hasBit l 0) (hasBit l 1) = some d →
     Does (.posEdgeAccepted c l k n) s fun t => t.cnt c = toField 24 ((s.cnt c : Int) + d * s.dirSign c)) ∧
  (∀ (c : Fin 2) (l : Fin 8) (k n : Nat) (s : State), s.fld (Reg.POS_CHc_FILT c) Fld.POS_CHc_FILT.MINEI ≤ k →
     s.chRuns c 3 = false → s.chRuns c 4 = true → hallIndex (hallCode l) = none →
     Does (.posEdgeAccepted c l k n) s fun t => Lost c causeLoss s t) ∧
  (∀ (c : Fin 2) (k : Nat) (s : State), k < s.fld (Reg.POS_CHc_FILT c) Fld.POS_CHc_FILT.MINEI →
     s.chRuns c 3 = true ∨ s.chRuns c 4 = true ∨ s.chRuns c 5 = true ∨ s.chRuns c 6 = true →
     Does (.posGlitch c k) s fun t =>
     t.fld (Reg.POS_CHc_ERR c) Fld.POS_CHc_ERR.GLITCH = satAdd 8 (s.fld (Reg.POS_CHc_ERR c) Fld.POS_CHc_ERR.GLITCH) 1 ∧
     ((s.within1024 (s.ch c).glitches).length < 64 → t.chState c = s.chState c) ∧
     (64 ≤ (s.within1024 (s.ch c).glitches).length → s.chState c ≠ chQuarantine → t.chShows c chQuarantine causeGlitch)) ∧
  (∀ (c : Fin 2) (k : Nat) (s : State), s.fld (Reg.POS_CHc_FILT c) Fld.POS_CHc_FILT.MINEI ≤ k ∨
     s.chRuns c 3 = false ∧ s.chRuns c 4 = false ∧ s.chRuns c 5 = false ∧ s.chRuns c 6 = false →
     Does (.posGlitch c k) s fun t => t = s)

/-- A SENT frame that fails a check counts, and ends the slow message under way; the frame that completes a slow
message brings its ID and data. An SSI frame starts OFS after the tick or back to back, at the end of the monoflop
time of the frame before, moves the counter to its angle where that is later than the last update, and counts where
its error bit is set. FTMO without a valid frame and a fault of the excitation are signal losses, the end of CTIME in
COAST is QUARANTINE, and a faulted sensor supply is shown. (Where the spec leaves a choice, the statement speaks of
the model's: assumption log 8, 80.) Completion is stated here, with the effect and under conditions on state and
operands alone, of: SENT_FRAME, SSI_FRAME_START, SSI_FRAME, FRAME_TIMEOUT, COAST_EXPIRED, EXC_FAULT, SENSV_FAULT. -/
def Obligations.DigitalSensors : Prop :=
  (∀ (c : Fin 2) (cal sta : Nat) (nib : List Nat) (crc : Nat) (p : Bool) (st n : Nat) (s : State),
     s.chRuns c 5 = false → Does (.sentFrame c cal sta nib crc p st n) s fun t => t = s) ∧
  (∀ (c : Fin 2) (cal sta : Nat) (nib : List Nat) (crc : Nat) (p : Bool) (st n : Nat) (s : State),
     s.chRuns c 5 = true → s.sentOk c cal nib crc p = false → Does (.sentFrame c cal sta nib crc p st n) s fun t =>
     t.fld (Reg.POS_CHc_ERR c) Fld.POS_CHc_ERR.CRCERR = satAdd 8 (s.fld (Reg.POS_CHc_ERR c) Fld.POS_CHc_ERR.CRCERR) 1 ∧
     (t.ch c).slow = [] ∧ t.reg (Reg.POS_CHc_SLOW c) = s.reg (Reg.POS_CHc_SLOW c) ∧ t.chState c = s.chState c) ∧
  (∀ (c : Fin 2) (cal sta : Nat) (nib : List Nat) (crc : Nat) (p : Bool) (id data st n : Nat) (s : State), s.chRuns c 5 = true →
     s.sentOk c cal nib crc p = true → slowOf ((s.ch c).slow ++ [sta]) = some (id, data) → id < 256 → data < 65536 →
     Does (.sentFrame c cal sta nib crc p st n) s fun t =>
     t.fld (Reg.POS_CHc_SLOW c) Fld.POS_CHc_SLOW.ID = id ∧ t.fld (Reg.POS_CHc_SLOW c) Fld.POS_CHc_SLOW.DATA = data ∧
     t.fld (Reg.POS_CHc_SLOW c) Fld.POS_CHc_SLOW.NEW = 1) ∧
  (∀ (c : Fin 2) (n : Nat) (s : State), s.chRuns c 6 = true → Does (.ssiFrameStart c n) s fun t =>
     (t.ch c).ssiStart = some (if s.on (Reg.POS_CHc_SSI c) Fld.POS_CHc_SSI.TRIG then (s.ch c).ssiNext.getD n
     else s.t0 + s.fld (Reg.POS_CHc_SSI2 c) Fld.POS_CHc_SSI2.OFS * esPerFc) ∧
     (t.ch c).ssiNext = (t.ch c).ssiStart.map (· + s.ssiLength c + s.ssiRest c) ∧ t.regs = s.regs) ∧
  (∀ (c : Fin 2) (n : Nat) (s : State), s.chRuns c 6 = false → Does (.ssiFrameStart c n) s fun t => t = s) ∧
  (∀ (c : Fin 2) (b n : Nat) (s : State), (s.ch c).ssiStart = none → Does (.ssiFrame c b n) s fun t => t = s) ∧
  (∀ (c : Fin 2) (b n st : Nat) (s : State), (s.ch c).ssiStart = some st → s.chRuns c 6 = true →
     s.on (Reg.POS_CHc_SSI c) Fld.POS_CHc_SSI.ERREN = true → b % 2 = 1 → Does (.ssiFrame c b n) s fun t =>
     t.fld (Reg.POS_CHc_ERR c) Fld.POS_CHc_ERR.CRCERR = satAdd 8 (s.fld (Reg.POS_CHc_ERR c) Fld.POS_CHc_ERR.CRCERR) 1 ∧
     (t.ch c).ssiStart = none ∧ t.chState c = s.chState c) ∧
  (∀ (c : Fin 2) (b n st : Nat) (s : State), (s.ch c).ssiStart = some st → s.chRuns c 6 = true → s.stale c (st - s.lat c) = false →
     s.on (Reg.POS_CHc_SSI c) Fld.POS_CHc_SSI.ERREN = false ∨ b % 2 = 0 → Does (.ssiFrame c b n) s fun t =>
     t.cnt c = (s.ssiAngle c b).toNat / 256 ∧
     t.fld (Reg.POS_CHc_ERR c) Fld.POS_CHc_ERR.CRCERR = s.fld (Reg.POS_CHc_ERR c) Fld.POS_CHc_ERR.CRCERR) ∧
  (∀ (c : Fin 2) (n : Nat) (s : State), s.chRuns c 5 = true ∨ s.chRuns c 6 = true → (s.ch c).frameAt + s.frameTimeout c ≤ n →
     Does (.frameTimeout c n) s fun t => Lost c causeLoss s t) ∧
  (∀ (c : Fin 2) (n : Nat) (s : State), n < (s.ch c).frameAt + s.frameTimeout c → Does (.frameTimeout c n) s fun t => t = s) ∧
  (∀ (c : Fin 2) (n : Nat) (s : State), s.inRun = true → s.chState c = chCoast →
     (s.ch c).coastAt + s.fld (Reg.POS_CHc_OBS c) Fld.POS_CHc_OBS.CTIME * 640000 ≤ n → Does (.coastExpired c n) s fun t =>
     t.chShows c chQuarantine causeExpired) ∧
  (∀ (c : Fin 2) (n : Nat) (s : State), s.chState c ≠ chCoast → Does (.coastExpired c n) s fun t => t = s) ∧
  (∀ (c : Fin 2) (o : Bool) (s : State), s.chRuns c 1 = true → Does (.excFault c o) s fun t => Lost c causeLoss s t) ∧
  (∀ (c : Fin 2) (o : Bool) (s : State), s.chRuns c 1 = false → Does (.excFault c o) s fun t => t = s) ∧
  (∀ (k : Fin 2) (low : Bool) (n : Nat) (s : State), s.on (Reg.POS_SENSVn_CFG k) Fld.POS_SENSVn_CFG.EN = true →
     s.on (Reg.POS_SENSVn_CFG k) Fld.POS_SENSVn_CFG.FAULT = false → s.supplyAt k + esPerMs ≤ n → Does (.sensvFault k low n) s fun t =>
     t.on (Reg.POS_SENSVn_CFG k) Fld.POS_SENSVn_CFG.FAULT = true ∧ t.on (Reg.POS_SENSVn_CFG k) Fld.POS_SENSVn_CFG.EN = true ∧
     t.now = max s.now n) ∧
  (∀ (k : Fin 2) (low : Bool) (n : Nat) (s : State), n < s.supplyAt k + esPerMs → Does (.sensvFault k low n) s fun t => t = s)

/-- An armed slot whose angle is reached fires, behind the sequencer and the lower slots of the same instant, counts,
and stays armed only if it repeats. A sector crossing gives the pairs U, V, W the masks of the sector, and shows it. A
watch ends where its finding leads; WAIT ends in WATCH and CATCH in RUN. (Where the spec leaves a choice, the
statement speaks of the model's: assumption log 84, 85.) Completion is stated here, with the effect and under
conditions on state and operands alone, of: ANGLE_EVENT_FIRE, SIXSTEP_CROSSING, WATCH_END, WAIT_END, CATCH_END. -/
def Obligations.FieldControl : Prop :=
  (∀ (i : Fin 16) (n : Nat) (s : State), s.evArmed i = true → s.evReached i (max s.now n) = true →
     ((s.at n).evBefore i).evArmed i = true → ((s.at n).evBefore i).evReached i (max s.now n) = true →
     Does (.angleEventFire i n) s fun t =>
     t.fld (Reg.FLD_EVs_STAT i) Fld.FLD_EVs_STAT.FIRES =
     satAdd 16 (((s.at n).evBefore i).fld (Reg.FLD_EVs_STAT i) Fld.FLD_EVs_STAT.FIRES) 1 ∧
     t.evArmed i = (((s.at n).evBefore i).evAct i Fld.FLD_EVs_ACT.REP == 1) ∧ t.now = max s.now n) ∧
  (∀ (i : Fin 16) (n : Nat) (s : State), s.evArmed i = true → s.evReached i (max s.now n) = true →
     (∀ m, m < 2 → s.seqOn m = false) → (∀ j, j < i.val → s.evArmed j = false) → Does (.angleEventFire i n) s fun t =>
     t.fld (Reg.FLD_EVs_STAT i) Fld.FLD_EVs_STAT.FIRES = satAdd 16 (s.fld (Reg.FLD_EVs_STAT i) Fld.FLD_EVs_STAT.FIRES) 1 ∧
     t.evArmed i = (s.evAct i Fld.FLD_EVs_ACT.REP == 1) ∧ t.now = max s.now n) ∧
  (∀ (i : Fin 16) (n : Nat) (s : State), s.evArmed i = false ∨ s.evReached i (max s.now n) = false →
     Does (.angleEventFire i n) s fun t => t = s) ∧
  (∀ (m : Fin 2) (n : Nat) (s : State), s.seqOn m = false → Does (.sixstepCrossing m n) s fun t => t = s) ∧
  (∀ (m : Fin 2) (n u v w : Nat) (s : State), s.seqOn m = true → s.on Reg.POS_CFG Fld.POS_CFG.PAIRED = false →
     s.pairsOf m = [u, v, w] → u < v → v < w → w < 16 → Does (.sixstepCrossing m n) s fun t =>
     [t.fld (Reg.PAIRk_MASK u) Fld.PAIRk_MASK.CODE, t.fld (Reg.PAIRk_MASK v) Fld.PAIRk_MASK.CODE,
     t.fld (Reg.PAIRk_MASK w) Fld.PAIRk_MASK.CODE] = sectorMasks (s.sectorAt m m (max s.now n)) ∧
     t.fld (Reg.FLD_MCm_STAT m) Fld.FLD_MCm_STAT.SECTOR = s.sectorAt m m (max s.now n)) ∧
  (∀ (m : Fin 2) (n : Nat) (s : State), s.fldStart m ≠ stWatch ∨ n < (s.fm m).startAt + s.watchLen m → Does (.watchEnd m n) s fun t => t = s) ∧
  (∀ (m : Fin 2) (n : Nat) (s : State), s.inRun = true → s.fldStart m = stWatch → (s.fm m).startAt + s.watchLen m ≤ n →
     s.allSafe m = false → s.watchFinding m ≠ stWait → s.watchFinding m ≠ stFailed → Does (.watchEnd m n) s fun t =>
     t.fldStart m = s.watchFinding m) ∧
  (∀ (m : Fin 2) (n : Nat) (s : State), s.inRun = true → s.fldStart m = stWait → (s.fm m).startAt + 2 * s.watchLen m ≤ n →
     Does (.waitEnd m n) s fun t => t.fldStart m = stWatch) ∧
  (∀ (m : Fin 2) (n : Nat) (s : State), s.fldStart m ≠ stWait ∨ n < (s.fm m).startAt + 2 * s.watchLen m → Does (.waitEnd m n) s fun t => t = s) ∧
  (∀ (m : Fin 2) (s : State), s.fldStart m = stCatch → (s.fm m).startTick + 8 ≤ s.tick → Does (.catchEnd m) s fun t => t.fldStart m = stRun) ∧
  (∀ (m : Fin 2) (s : State), s.fldStart m ≠ stCatch ∨ s.tick < (s.fm m).startTick + 8 → Does (.catchEnd m) s fun t => t = s)

/-- A self test whose result differs from the kept one leaves the monitor BLIND with cause 3; one that agrees changes
nothing. A discharge that has not fallen by 2 V in 100 ms fails with REASON 5, and else goes on from the voltage
found. At its deadline a discharge that is not at its target fails with REASON 6. (Where the spec leaves a choice, the
statement speaks of the model's: assumption log 23, 47.) Completion is stated here, with the effect and under
conditions on state and operands alone, of: WGH_SELFTEST, DISCHARGE_PROGRESS_CHECK, DISCHARGE_DEADLINE. -/
def Obligations.WeighHouseAndDischarge : Prop :=
  (∀ (m : Fin 2) (u : Word) (s : State), s.wghEn m = true → s.testPoint m ^^^ u ≠ (s.wm m).test → Does (.wghSelftest m u) s fun t =>
     (t.wm m).stuck = some 3 ∧ t.now = max s.now (s.t0 + nsToEs 150)) ∧
  (∀ (m : Fin 2) (u : Word) (s : State), s.wghEn m = false ∨ s.testPoint m ^^^ u = (s.wm m).test → Does (.wghSelftest m u) s fun t =>
     t = s.atTick 150) ∧
  (∀ s : State, s.disRunning = false → Does .dischargeProgressCheck s fun t => t = s) ∧
  (∀ s : State, s.disRunning = true → (s.at (s.dis.markAt + 100 * esPerMs)).disStalled = true → Does .dischargeProgressCheck s fun t =>
     t.fld Reg.PROT_DIS_STAT Fld.PROT_DIS_STAT.STATE = 3 ∧ t.fld Reg.PROT_DIS_STAT Fld.PROT_DIS_STAT.REASON = 5) ∧
  (∀ s : State, s.disRunning = true → (s.at (s.dis.markAt + 100 * esPerMs)).disStalled = false → Does .dischargeProgressCheck s fun t =>
     t.dis.markAt = s.dis.markAt + 100 * esPerMs ∧ t.dis.mark = (s.at (s.dis.markAt + 100 * esPerMs)).disVolt.map Sys2Proof.Num.pack ∧
     t.regs = s.regs) ∧
  (∀ s : State, s.disRunning = false → Does .dischargeDeadline s fun t => t = s) ∧
  (∀ s : State, s.disRunning = true → (∀ v, (s.at s.dis.deadlineAt).disVolt = some v → Sys2Proof.Num.val s.dis.target < v) →
     Does .dischargeDeadline s fun t =>
     t.fld Reg.PROT_DIS_STAT Fld.PROT_DIS_STAT.STATE = 3 ∧ t.fld Reg.PROT_DIS_STAT Fld.PROT_DIS_STAT.REASON = 6) ∧
  (∀ (v : Rat) (s : State), s.disRunning = true → (s.at s.dis.deadlineAt).disVolt = some v → v ≤ Sys2Proof.Num.val s.dis.target →
     Does .dischargeDeadline s fun t => t = s.at s.dis.deadlineAt)

/-- A running Isnak-2 link sends its edge plan 20 ns and its collection frame 870 ns after the boundary, and waits for
the latter. A collection frame that returns complete ends the wait for it. An enumeration that finds every node makes
RUN due; the heartbeats of a stopped tick then bring it. An Isnak-1 link that runs broadcasts its SEQ with its check
byte, and each poll that ends 500 ns before the boundary carries node, SEQ and check byte, counts, with its answer,
and leads to the next. (Where the spec leaves a choice, the statement speaks of the model's: assumption log 8, 88.)
Completion is stated here, with the effect and under conditions on state and operands alone, of: ISK_COLLECTION_JUDGE,
ISK_ENUMERATION, ISK_IDLE_HEARTBEAT, ISK1_BROADCAST, ISK1_POLL, ISK_EDGE_PLAN_SEND, ISK_COLLECTION_SEND. -/
def Obligations.IsnakLinks : Prop :=
  (∀ (l : Fin 2) (b : List (List Nat)) (n : Nat) (s : State), s.isk2Running l = false ∨ (s.lk l).out = false →
     Does (.iskCollectionJudge l b n) s fun t => t = s) ∧
  (∀ (l : Fin 2) (b : List (List Nat)) (n : Nat) (s : State), s.isk2Running l = true → (s.lk l).out = true →
     Does (.iskCollectionJudge l b n) s fun t => (t.lk l).out = false ∧ (t.lk l).missing = 0 ∧ t.now = max s.now n) ∧
  (∀ (l : Fin 2) (b : Option Nat) (n : Nat) (s : State), s.iskEn l = false ∨ s.isk1 l = true ∨ (s.lk l).upDue = true →
     Does (.iskEnumeration l b n) s fun t => t = s) ∧
  (∀ (l : Fin 2) (n : Nat) (s : State), s.iskEn l = true → s.isk1 l = false → s.linkState l = linkEnum ∨ s.linkState l = linkLost →
     (s.lk l).upDue = false → s.iskNodes l < 32 → Does (.iskEnumeration l (some (s.iskNodes l)) n) s fun t => (t.lk l).upDue = true ∧
     (t.lk l).enumFails = 0 ∧ t.fld (Reg.ISK_LINKl_STAT l) Fld.ISK_LINKl_STAT.NFOUND = s.iskNodes l) ∧
  (∀ (l : Fin 2) (n : Nat) (s : State), s.ticking = true ∨ s.iskEn l = false → Does (.iskIdleHeartbeat l n) s fun t => t = s) ∧
  (∀ (l : Fin 2) (n : Nat) (s : State), s.ticking = false → s.iskEn l = true → s.isk1 l = false →
     (s.lk l).upDue = true →
     Does (.iskIdleHeartbeat l n) s fun t => t.linkState l = linkRun ∧ (t.lk l).upDue = false ∧ t.now = max s.now n) ∧
  (∀ (l : Fin 2) (s : State), s.isk1Running l = false → Does (.isk1Broadcast l) s fun t => t = s) ∧
  (∀ (l : Fin 2) (s : State), s.isk1Running l = true → (s.lk l).answers ≠ 0 → 0 < s.iskCfg l Fld.ISK_LINKl_CFG.LOSTN →
     Does (.isk1Broadcast l) s fun t => (t.lk l).frame = [0x55, 0x01, s.iskSeq l, iskCheck [0x55, 0x01, s.iskSeq l] foldAll (s.iskSeq l)] ∧
     (t.lk l).polls = 0 ∧ (t.lk l).answers = 0 ∧ t.regs = s.regs) ∧
  (∀ (l : Fin 2) (r : Option (List Nat)) (n : Nat) (s : State), s.isk1Running l = false ∨ s.nextBoundary < n + 3200 →
     Does (.isk1Poll l r n) s fun t => t = s) ∧
  (∀ (l : Fin 2) (r : Option (List Nat)) (n : Nat) (s : State), s.isk1Running l = true → n + 3200 ≤ s.nextBoundary →
     Does (.isk1Poll l r n) s fun t => t.now = max s.now n ∧ (t.lk l).out = (s.lk l).out ∧
     (t.lk l).frame = s.pollFrame l ∧ (t.lk l).poll = ((s.lk l).poll % s.iskNodes l + 1) % s.iskNodes l ∧
     (t.lk l).polls = (s.lk l).polls + 1 ∧ (t.lk l).answers = (s.lk l).answers + r.isSome.toNat) ∧
  (∀ (l : Fin 2) (s : State), s.isk2Running l = false → Does (.iskEdgePlanSend l) s fun t => t = s) ∧
  (∀ (l : Fin 2) (s : State), s.isk2Running l = true → Does (.iskEdgePlanSend l) s fun t =>
     t.now = max s.now (s.t0 + nsToEs 20) ∧ (∃ body, (t.lk l).frame = [kOpen, 0x01, s.iskSeq l] ++ body ++ [kClose]) ∧
     (t.lk l).out = (s.lk l).out) ∧
  (∀ (l : Fin 2) (s : State), s.isk2Running l = false → Does (.iskCollectionSend l) s fun t => t = s) ∧
  (∀ (l : Fin 2) (s : State), s.isk2Running l = true → Does (.iskCollectionSend l) s fun t =>
     t.now = max s.now (s.t0 + nsToEs 870) ∧ (t.lk l).frame = s.collectionFrame l ∧ (t.lk l).out = true ∧ t.regs = s.regs)

/-! ### The tick and the engine -/

/-- A due boundary opens the next tick. 50 ns after it each delta-sigma window is in its register, and 150 ns after it
their validity is published. At 250 ns T_NEXT is shown, and an engine that runs begins its passes. A hold that has run
out is ended, and so is a shadow watch. (Where the spec leaves a choice, the statement speaks of the model's:
assumption log 4, 5, 47, 48.) Completion is stated here, with the effect and under conditions on state and operands
alone, of: TICK_BOUNDARY, WINDOW_FREEZE, SIGNAL_PUBLISH, ENGINE_START, HOLD_EXPIRY, SHADOW_WATCH_END. -/
def Obligations.TickInstants : Prop :=
  (∀ (f : List BankFlip) (s : State), s.boundaryDue = false → Does (.tickBoundary f) s fun t => t = s) ∧
  (∀ (f : List BankFlip) (s : State), s.boundaryDue = true → Does (.tickBoundary f) s fun t =>
     t.tick = (s.tick + 1) % 2 ^ 48 ∧ t.t0 = s.nextBoundary ∧ t.prevLen = s.nextBoundary - s.t0) ∧
  (∀ s : State, Does .windowFreeze s fun t =>
     t.now = max s.now (s.t0 + nsToEs 50) ∧
     ∀ c, c < 12 → t.reg (Reg.ACQ_DSc_WIN c) = detailOf [(0, (s.dsWin c).ones), (16, (s.dsWin c).bits)]) ∧
  (∀ (p a b : Word) (s : State), Does (.signalPublish p a b) s fun t => t.now = max s.now (s.t0 + nsToEs 150) ∧ t.tick = s.tick ∧
     ∀ c, c < 12 → t.fld (Reg.ACQ_DSc_STAT c) Fld.ACQ_DSc_STAT.VALID = (s.dsWin c).valid.toNat) ∧
  (∀ (p a b : Word) (s : State), s.powerState ≠ pwrRun → Does (.signalPublish p a b) s fun t =>
     t.sig 0x100 = Sys2Proof.Num.pack (esToSec (s.fld Reg.CLK_TICKPER Fld.CLK_TICKPER.PERIOD)) ∧
     t.sig 0x103 = Sys2Proof.Num.pack (esToSec s.prevLen) ∧ t.sig 0x104 = BitVec.ofNat 32 s.tick) ∧
  (∀ (u : List Upset) (p : Option EngineStop) (m l : Nat) (s : State), s.ticking = false → Does (.engineStart u p m l) s fun t => t = s) ∧
  (∀ (u : List Upset) (p : Option EngineStop) (m l : Nat) (s : State), s.ticking = true → Does (.engineStart u p m l) s fun t =>
     t.fld Reg.CLK_TICKPER_NEXT Fld.CLK_TICKPER_NEXT.PERIOD = s.intervalEnd.lenAhead % 2 ^ Fld.CLK_TICKPER_NEXT.PERIOD.width ∧
     (t.engRun = true → t.eng.started = true ∧ t.eng.voted = false)) ∧
  (∀ s : State, s.eng.expired = false → Does .holdExpiry s fun t => t = s) ∧
  (∀ s : State, s.eng.expired = true → Does .holdExpiry s fun t =>
     t.eng.expired = false ∧ t.eng.holdUnits = 0 ∧ t.eng.safeTick = s.tick) ∧
  (∀ s : State, s.eng.watchTo = 0 ∨ s.tick < s.eng.watchTo → Does .shadowWatchEnd s fun t => t = s) ∧
  (∀ s : State, s.eng.watchTo ≠ 0 → s.eng.watchTo ≤ s.tick → Does .shadowWatchEnd s fun t =>
     t.eng.watchTo = 0 ∧ t.fld Reg.ENG_STAT Fld.ENG_STAT.SHADOW = 0 ∧ t.now = max s.now (s.t0 + nsToEs 250))

/-- Passes that have run to their end are voted, and what they found is posted before the vote. A vote not complete
350 ns before the boundary is a deadline miss: it counts, and the window's signatures are dropped. The scrub takes the
running stalls in turn, in every tick. The staged bank goes to the sinks unless a hold keeps the one in force; with a
register of it in error, a hold in force or no unit that runs keeps the bank of the tick before. (Where the spec
leaves a choice, the statement speaks of the model's: assumption log 49, 50, 55, 120.) Completion is stated here, with
the effect and under conditions on state and operands alone, of: VOTE_PHASE, ENGINE_DEADLINE, STATE_SCRUB,
OUTPUT_TRANSFER. -/
def Obligations.EnginePasses : Prop :=
  (∀ (k : Option Nat) (b : Option Bool) (s : State), s.engRun = false ∨ s.eng.started = false ∨ s.eng.voted = true ∨ s.eng.reached ≠ none →
     Does (.votePhase k b) s fun t => t = s.postPasses) ∧
  (∀ (b : Option Bool) (s : State), s.engRun = true → s.eng.started = true → s.eng.voted = false → s.eng.reached = none →
     Does (.votePhase none b) s fun t => t.engRun = true → t.eng.voted = true ∧ t.eng.flagged = []) ∧
  (∀ s : State, s.engRun = true → s.eng.started = true → s.eng.voted = false → Does .engineDeadline s fun t =>
     t.fld Reg.ENG_CNT Fld.ENG_CNT.DLMISS = satAdd 8 (s.fld Reg.ENG_CNT Fld.ENG_CNT.DLMISS) 1 ∧ t.eng.started = false ∧
     t.eng.ran = [] ∧ t.eng.sigs = []) ∧
  (∀ s : State, s.engRun = false ∨ s.eng.started = false ∨ s.eng.voted = true → Does .engineDeadline s fun t => t = s.beforeBoundary 350) ∧
  (∀ s : State, s.ticking = false → Does .stateScrub s fun t => t = s) ∧
  (∀ s : State, s.ticking = true → s.scrubStall = none → Does .stateScrub s fun t => t = s.beforeBoundary 200) ∧
  (∀ (n : Nat) (s : State), s.ticking = true → s.scrubStall = some n → Does .stateScrub s fun t =>
     t.fld Reg.TPR_STAT Fld.TPR_STAT.SCRUB = (n + 1) % 128 ∧ (s.eng.touched.contains n = true → t.eng = s.eng)) ∧
  (∀ (f : List BankFlip) (s : State), s.holdsBank = true → Does (.outputTransfer f) s fun t =>
     t.eng.transfer = s.eng.transfer ∧ t.regs = s.regs) ∧
  (∀ (f : List BankFlip) (s : State), s.holdsBank = false → Does (.outputTransfer f) s fun t =>
     t.eng.transfer = some t.eng.staged ∧
     (badHeld (flipBank f false s.eng.staged) = [] → t.eng.staged = flipBank f false s.eng.staged) ∧
     (badHeld (flipBank f false s.eng.staged) ≠ [] → s.holdInForce = true → t.eng.staged = s.eng.prior) ∧
     (t.eng.staged = flipBank f false s.eng.staged ∨ t.eng.staged = s.eng.prior))

/-! ### CAN and Ethernet -/

/-- A TX slot that passes its checks is staged and the fetch index passes it, wrapping at SIZE; one whose check word
is wrong halts the ring at the slot. The lowest frame that competes starts. A frame sent leaves the buffers and lowers
TEC; one not started in time is discarded and counted. A frame received lowers REC, at most to 0. (The counters are
those of the standard.) (Where the spec leaves a choice, the statement speaks of the model's: assumption log 22, 93,
96.) Completion is stated here, with the effect and under conditions on state and operands alone, of: CAN_TX_FETCH,
CAN_TX_START, CAN_FRAME_SENT, CAN_TX_EXPIRED, CAN_FRAME_RECEIVED. -/
def Obligations.CanTraffic : Prop :=
  (∀ (c : Fin 4) (s : State), s.canCanFetch c = false → Does (.canTxFetch c) s fun t => t = s) ∧
  (∀ (c : Fin 4) (s : State), s.canCanFetch c = true → (s.firstBad (s.canTxSlot c (s.canTxIdx c)) 8).isSome = false →
     s.canSlotSound c = false → Does (.canTxFetch c) s fun t => t.canHalted c = true ∧ t.canTxIdx c = s.canTxIdx c ∧ t.can = s.can) ∧
  (∀ (c : Fin 4) (s : State), s.canCanFetch c = true →
     (s.firstBad (s.canTxSlot c (s.canTxIdx c)) 8).isSome = false → s.canSlotSound c = true →
     t1Fmt (s.sram (s.canTxSlot c (s.canTxIdx c) + 4)) < 2 → bitAt (s.sram (s.canTxSlot c (s.canTxIdx c) + 4)) 28 = false →
     Does (.canTxFetch c) s fun t =>
     (∃ f : CanTx, (t.canCtl c).staged = (s.canCtl c).staged ++ [f] ∧ f.slot = s.canTxIdx c ∧ f.started = false) ∧
     t.canTxIdx c = if s.canTxSize c ≤ s.canTxIdx c + 1 then 0 else (s.canTxIdx c + 1) % 2 ^ 12) ∧
  (∀ (c : Fin 4) (n : Nat) (s : State), (s.at n).canMayStart c = false → Does (.canTxStart c n) s fun t => t = s.at n) ∧
  (∀ (c : Fin 4) (n : Nat) (f : CanTx) (s : State), (s.at n).canMayStart c = true → (s.canCtl c).tts = [] →
     (s.at n).ttGuarded c n = false → lowestFrame ((s.at n).canCompeting c) = some f → Does (.canTxStart c n) s fun t =>
     (t.canCtl c).staged = (s.canCtl c).staged.map (markSlot f.slot true) ∧ t.regs = s.regs ∧ t.now = max s.now n) ∧
  (∀ (c : Fin 4) (k fc : Nat) (v : Option (Fin 128)) (f : CanTx) (s : State), (s.canCtl c).staged.find? (·.started) = some f →
     Does (.canFrameSent c k fc v) s fun t =>
     t.fld (Reg.CAN_ERR c) Fld.CAN_ERR.TEC = s.fld (Reg.CAN_ERR c) Fld.CAN_ERR.TEC - 1 ∧
     (t.canCtl c).staged = (s.canCtl c).staged.filter fun g => !g.started) ∧
  (∀ (c : Fin 4) (k fc : Nat) (v : Option (Fin 128)) (s : State), (s.canCtl c).staged.find? (·.started) = none →
     ((s.canCtl c).tts.any fun f => f.started && !f.expect) = false → Does (.canFrameSent c k fc v) s fun t => t = s) ∧
  (∀ (c : Fin 4) (k : Fin 4096) (f : CanTx) (n : Nat) (s : State),
     ((s.canCtl c).staged.find? fun f => f.slot == k.val && !f.started) = some f → f.launch.bind (·.instant) = some n →
     s.fld (Reg.CAN_TXCFG c) Fld.CAN_TXCFG.LATEWIN ≠ 0 → Does (.canTxExpired c k) s fun t =>
     t.fld (Reg.CAN_CNT c) Fld.CAN_CNT.TXEXP = satAdd 8 (s.fld (Reg.CAN_CNT c) Fld.CAN_CNT.TXEXP) 1 ∧
     (t.canCtl c).staged = (s.canCtl c).staged.filter (fun g => g.slot != k.val) ∧
     t.now = max s.now (n + s.fld (Reg.CAN_TXCFG c) Fld.CAN_TXCFG.LATEWIN * 6400)) ∧
  (∀ (c : Fin 4) (k : Fin 4096) (s : State), ((s.canCtl c).staged.find? fun f => f.slot == k.val && !f.started) = none →
     Does (.canTxExpired c k) s fun t => t = s) ∧
  (∀ (c : Fin 4) (x0 x1 x2 x3 : Word) (d : List Byte) (k fc : Nat) (s : State), s.canAlive c = false ∨ s.canRuns c = false ∧ s.canDet c = false ∨
     s.fld (Reg.CAN_CTRL c) Fld.CAN_CTRL.MODE = 3 →
     Does (.canFrameReceived c x0 x1 x2 x3 d k fc) s fun t => t = s) ∧
  (∀ (c : Fin 4) (x0 x1 x2 x3 : Word) (d : List Byte) (k fc : Nat) (s : State), s.canAlive c = true → s.canRuns c = true → s.canDet c = false →
     s.fld (Reg.CAN_CTRL c) Fld.CAN_CTRL.MODE ≠ 3 → x1.toNat % 4 < 2 → s.fld (Reg.CAN_ERR c) Fld.CAN_ERR.REC ≤ 127 → Does (.canFrameReceived c x0 x1 x2 x3 d k fc) s fun t =>
     t.fld (Reg.CAN_ERR c) Fld.CAN_ERR.REC = s.fld (Reg.CAN_ERR c) Fld.CAN_ERR.REC - 1 ∧
     t.fld (Reg.CAN_ERR c) Fld.CAN_ERR.TEC = s.fld (Reg.CAN_ERR c) Fld.CAN_ERR.TEC)

/-- An error of the bus and a change of the error state show state and counters; bus-off takes the controller out of
traffic. Recovery ends error-active with counters 0 and back in traffic; integration brings a controller into traffic.
Rate detection goes through its candidates in a circle and counts the sweeps. (Where the spec leaves a choice, the
statement speaks of the model's: assumption log 22, 95, 96.) Completion is stated here, with the effect and under
conditions on state and operands alone, of: CAN_BUS_ERROR, CAN_ERROR_STATE_CHANGE, CAN_BUS_RECOVERED,
CAN_INTEGRATION_DONE, CAN_RATE_CANDIDATE_SWITCH. -/
def Obligations.CanErrorStates : Prop :=
  (∀ (c : Fin 4) (tec rec : Fin 256) (lec : Fin 8) (v : Option Nat) (s : State), s.canDet c = true →
     Does (.canBusError c tec rec lec v) s fun t => t = s) ∧
  (∀ (c : Fin 4) (tec rec : Fin 256) (lec : Fin 8) (v : Option Nat) (s : State), s.canDet c = false →
     Does (.canBusError c tec rec lec v) s fun t => t.fld (Reg.CAN_ERR c) Fld.CAN_ERR.TEC = tec ∧
     t.fld (Reg.CAN_ERR c) Fld.CAN_ERR.REC = rec ∧ t.fld (Reg.CAN_ERR c) Fld.CAN_ERR.LEC = lec) ∧
  (∀ (c : Fin 4) (st : Fin 3) (tec rec : Fin 256) (s : State),
     s.canDet c = true ∨ s.canErrState c = st.val ∨ s.canErrState c = 2 ∨ s.canAlive c = false →
     Does (.canErrorStateChange c st tec rec) s fun t => t = s) ∧
  (∀ (c : Fin 4) (st : Fin 3) (tec rec : Fin 256) (s : State), s.canDet c = false → s.canErrState c ≠ st.val →
     s.canErrState c ≠ 2 → s.canAlive c = true → Does (.canErrorStateChange c st tec rec) s fun t => t.canErrState c = st.val ∧ t.fld (Reg.CAN_ERR c) Fld.CAN_ERR.TEC = tec ∧
     t.fld (Reg.CAN_ERR c) Fld.CAN_ERR.REC = rec ∧ (st = 2 → t.canRuns c = false)) ∧
  (∀ (c : Fin 4) (s : State), s.canErrState c ≠ 2 ∨ (s.canCtl c).recovering = false ∨ s.canInit c = true →
     Does (.canBusRecovered c) s fun t => t = s) ∧
  (∀ (c : Fin 4) (s : State), s.canErrState c = 2 → (s.canCtl c).recovering = true → s.canInit c = false →
     Does (.canBusRecovered c) s fun t => t.canErrState c = 0 ∧ t.fld (Reg.CAN_ERR c) Fld.CAN_ERR.TEC = 0 ∧
     t.fld (Reg.CAN_ERR c) Fld.CAN_ERR.REC = 0 ∧ (t.canCtl c).recovering = false ∧ t.canRuns c = true) ∧
  (∀ (c : Fin 4) (s : State), s.canAlive c = true → s.canInit c = false → s.canDet c = false → s.canErrState c ≠ 2 →
     (s.canCtl c).swap = none → Does (.canIntegrationDone c) s fun t => t.canRuns c = true ∧ t.can = s.can) ∧
  (∀ (c : Fin 4) (s : State), s.canAlive c = false ∨ s.canInit c = true ∨ s.canDet c = true ∨ s.canErrState c = 2 →
     Does (.canIntegrationDone c) s fun t => t = s) ∧
  (∀ (c : Fin 4) (s : State), s.canDet c = false → Does (.canRateCandidateSwitch c) s fun t => t = s) ∧
  (∀ (c : Fin 4) (s : State), s.canDet c = true → s.fld (Reg.CAN_STAT c) Fld.CAN_STAT.CAND < s.fld (Reg.CAN_AD c) Fld.CAN_AD.NCAND →
     s.fld (Reg.CAN_AD c) Fld.CAN_AD.NCAND < 8 → Does (.canRateCandidateSwitch c) s fun t =>
     t.fld (Reg.CAN_STAT c) Fld.CAN_STAT.CAND = s.fld (Reg.CAN_STAT c) Fld.CAN_STAT.CAND + 1 ∧ (t.canCtl c).good = 0) ∧
  (∀ (c : Fin 4) (s : State), s.canDet c = true → s.fld (Reg.CAN_AD c) Fld.CAN_AD.NCAND ≤ s.fld (Reg.CAN_STAT c) Fld.CAN_STAT.CAND →
     Does (.canRateCandidateSwitch c) s fun t => t.fld (Reg.CAN_STAT c) Fld.CAN_STAT.CAND = 0 ∧ (t.canCtl c).good = 0 ∧
     (t.canCtl c).sweeps = (s.canCtl c).sweeps + 1)

/-- A basic cycle begins where the time of its base is a multiple of CYCLEN, and has the number that the base gives; a
column with a TRANSMIT or EXPECT entry opens a window, and TXWIN closes it. A unit that fails is replaced by the spare
where it may be claimed, and else the pool is exhausted; the unit that takes over is switched onto the bus; a shadow
watch ends with the spare serving or out of service. (Where the spec leaves a choice, the statement speaks of the
model's: assumption log 95, 108.) Completion is stated here, with the effect and under conditions on state and
operands alone, of: CAN_TT_CYCLE_START, CAN_TT_COLUMN, CAN_TT_WINDOW_END, CAN_UNIT_FAILURE, CAN_SPARE_SWITCH_IN,
CAN_SHADOW_END. -/
def Obligations.CanMatrixAndSpare : Prop :=
  (∀ (c : Fin 4) (n : Nat) (s : State), s.ttOn c = false ∨ s.canAlive c = false ∨ s.canInit c = true ∨
     s.ttTime (s.at n).vtValid (max s.now n) % s.ttCyclen c ≠ 0 → Does (.canTtCycleStart c n) s fun t => t = s.at n) ∧
  (∀ (c : Fin 4) (n : Nat) (s : State), s.ttOn c = true → s.canAlive c = true → s.canInit c = false →
     s.ttTime (s.at n).vtValid (max s.now n) % s.ttCyclen c = 0 → Does (.canTtCycleStart c n) s fun t =>
     t.ttCycle c = (s.ttTime (s.at n).vtValid (max s.now n) / s.ttCyclen c % s.ttNcyc c) % 64 ∧ t.ttBase c = (s.at n).vtValid ∧ t.now = max s.now n) ∧
  (∀ (c : Fin 4) (j : Fin 16) (s : State), s.ttOn c = true → s.canAlive c = true → s.canRuns c = true → s.canInit c = false →
     s.ttAct c (s.ttCycle c) j = 1 ∨ s.ttAct c (s.ttCycle c) j = 2 → Does (.canTtColumn c j) s fun t => ∃ f : CanTt,
     (t.canCtl c).tts = (s.canCtl c).tts ++ [f] ∧ f.cycle = s.ttCycle c ∧ f.column = j ∧ f.expect = (s.ttAct c (s.ttCycle c) j == 2) ∧
     f.started = false ∧ t.regs = s.regs) ∧
  (∀ (c : Fin 4) (j : Fin 16) (s : State), s.ttOn c = false ∨ s.canRuns c = false ∨ s.ttAct c (s.ttCycle c) j = 0 →
     Does (.canTtColumn c j) s fun t => t = s) ∧
  (∀ (c : Fin 4) (j : Fin 16) (f : CanTt) (s : State),
     ((s.canCtl c).tts.find? fun f => f.column == j.val && (f.expect || !f.started)) = some f → Does (.canTtWindowEnd c j) s fun t =>
     (t.canCtl c).tts = (s.canCtl c).tts.erase f) ∧
  (∀ (c : Fin 4) (j : Fin 16) (s : State), ((s.canCtl c).tts.find? fun f => f.column == j.val && (f.expect || !f.started)) = none →
     Does (.canTtWindowEnd c j) s fun t => t = s) ∧
  (∀ (c : Fin 4) (b : Bool) (s : State), s.canServer c = none → Does (.canUnitFailure c b) s fun t => t = s) ∧
  (∀ (c : Fin 4) (b : Bool) (s : State), s.canServer c = some (canUnit c) → ((s.unitDetected (canUnit c) unitFailed).stopCan c).canSpareClaimable = true →
     Does (.canUnitFailure c b) s fun t => (t.canCtl c).swap = some 0 ∧ t.unit canSpareUnit = unitServing) ∧
  (∀ (c : Fin 4) (b : Bool) (s : State), s.canServer c = some (canUnit c) → ((s.unitDetected (canUnit c) unitFailed).stopCan c).canSpareClaimable = false →
     Does (.canUnitFailure c b) s fun t => t.on Reg.CAN_SPSTAT Fld.CAN_SPSTAT.EXH = true ∧ t.unit (canUnit c) = unitFailed ∧
     (t.canCtl c).tts = []) ∧
  (∀ (c : Fin 4) (s : State), (s.canCtl c).swap = none ∨ s.canAlive c = false → Does (.canSpareSwitchIn c) s fun t => t = s) ∧
  (∀ (c : Fin 4) (k : Nat) (s : State), (s.canCtl c).swap = some k → s.canAlive c = true → Does (.canSpareSwitchIn c) s fun t =>
     (t.canCtl c).swap = none ∧ t.on (Reg.CAN_STAT c) Fld.CAN_STAT.SPARE = (s.canSpare == c.val) ∧
     t.canRuns c = (!s.canInit c && !s.canDet c && s.canErrState c != 2)) ∧
  (∀ (c : Fin 4) (b : Bool) (s : State), (∀ h, s.shadowOf canSpareUnit = some h → h.code ≠ canUnit c) → Does (.canShadowEnd c b) s fun t => t = s) ∧
  (∀ (c : Fin 4) (h : Shadowing) (s : State), s.shadowOf canSpareUnit = some h → h.code = canUnit c → Does (.canShadowEnd c true) s fun t =>
     t.canSpare = c ∧ t.on (Reg.CAN_STAT c) Fld.CAN_STAT.SPARE = true) ∧
  (∀ (c : Fin 4) (h : Shadowing) (s : State), s.shadowOf canSpareUnit = some h → h.code = canUnit c → Does (.canShadowEnd c false) s fun t =>
     t.canSpare = canFailed ∧ t.unit canSpareUnit = unitFailed)

/-- A TX slot that passes its check is staged with its length clamped, and the fetch index passes it; one whose check
word is wrong halts the ring. A head frame past its launch instant starts, one past its window is discarded and
counted, and one that is sent leaves the buffers. A received frame that is bad counts, one that a filter takes goes to
the next slot or is counted as dropped. (Where the spec leaves a choice, the statement speaks of the model's:
assumption log 93, 94.) Completion is stated here, with the effect and under conditions on state and operands alone,
of: ETH_TX_FETCH, ETH_TX_START, ETH_TX_FRAME_SENT, ETH_TX_EXPIRED, ETH_FRAME_RECEIVED. -/
def Obligations.EthernetTraffic : Prop :=
  (∀ (p : Fin 2) (s : State), s.ethAlive = false ∨ s.ethTxEn p = false ∨ s.ethHalted p = true ∨ s.ethTxIdx p = (s.ethPort p).txPi →
     Does (.ethTxFetch p) s fun t => t = s) ∧
  (∀ (p : Fin 2) (s : State), s.ethAlive = true → s.ethTxEn p = true → s.ethHalted p = false → s.ethTxIdx p ≠ (s.ethPort p).txPi →
     (s.ethPort p).staged.length < 4 → (s.firstBad (s.ethTxSlot p (s.ethTxIdx p)) 8).isSome = false → s.ethSlotSound p = false →
     Does (.ethTxFetch p) s fun t => t.ethHalted p = true ∧ t.ethTxIdx p = s.ethTxIdx p ∧ t.eth = s.eth) ∧
  (∀ (p : Fin 2) (s : State), s.ethAlive = true → s.ethTxEn p = true → s.ethHalted p = false →
     s.ethTxIdx p ≠ (s.ethPort p).txPi → (s.ethPort p).staged.length < 4 → (s.firstBad (s.ethTxSlot p (s.ethTxIdx p)) 8).isSome = false →
     s.ethSlotSound p = true → bitAt (s.sram (s.ethTxSlot p (s.ethTxIdx p))) 12 = false →
     Does (.ethTxFetch p) s fun t =>
     (∃ f : EthTx, (t.ethPort p).staged = (s.ethPort p).staged ++ [f] ∧ f.slot = s.ethTxIdx p ∧ f.started = false ∧
     f.len = clampNat 14 1518 ((s.sram (s.ethTxSlot p (s.ethTxIdx p))).toNat % 2 ^ 11)) ∧
     t.ethTxIdx p = if s.ethTxSize p ≤ s.ethTxIdx p + 1 then 0 else (s.ethTxIdx p + 1) % 2 ^ Fld.ETH_Pp_IDX.TX.width) ∧
  (∀ (p : Fin 2) (n : Nat) (f : EthTx) (rest : List EthTx) (s : State), (s.ethPort p).staged = f :: rest → f.started = false →
     s.ethAlive = true → (s.at n).ethLaunched f = true → (s.at n).ethExpired p f = false → Does (.ethTxStart p n) s fun t =>
     (t.ethPort p).staged = { f with started := true } :: rest ∧ t.now = max s.now n ∧ t.regs = s.regs) ∧
  (∀ (p : Fin 2) (n : Nat) (s : State), s.ethAlive = false ∨ (s.ethPort p).staged = [] → Does (.ethTxStart p n) s fun t => t = s.at n) ∧
  (∀ (p : Fin 2) (n k fc : Nat) (f : EthTx) (rest : List EthTx) (s : State), (s.ethPort p).staged = f :: rest → f.started = true →
     Does (.ethTxFrameSent p n k fc) s fun t => (t.ethPort p).staged = rest) ∧
  (∀ (p : Fin 2) (n k fc : Nat) (s : State), (∀ f rest, (s.ethPort p).staged = f :: rest → f.started = false) →
     Does (.ethTxFrameSent p n k fc) s fun t => t = s) ∧
  (∀ (p : Fin 2) (n : Nat) (f : EthTx) (rest : List EthTx) (s : State), (s.ethPort p).staged = f :: rest → f.started = false →
     (s.at n).ethExpired p f = true → Does (.ethTxExpired p n) s fun t => (t.ethPort p).staged = rest ∧
     t.fld (Reg.ETH_Pp_CNT p) Fld.ETH_Pp_CNT.TXEXP = satAdd 8 (s.fld (Reg.ETH_Pp_CNT p) Fld.ETH_Pp_CNT.TXEXP) 1) ∧
  (∀ (p : Fin 2) (n : Nat) (s : State), (∀ f rest, (s.ethPort p).staged = f :: rest → f.started = true ∨ (s.at n).ethExpired p f = false) →
     Does (.ethTxExpired p n) s fun t => t = s.at n) ∧
  (∀ (p : Fin 2) (d : List Byte) (b : Bool) (n k fc : Nat) (s : State), s.ethAlive = false → Does (.ethFrameReceived p d b n k fc) s fun t => t = s) ∧
  (∀ (p : Fin 2) (d : List Byte) (b : Bool) (n k fc : Nat) (s : State), s.ethAlive = true → b = false ∨ d.length < 60 ∨ 1518 < d.length →
     Does (.ethFrameReceived p d b n k fc) s fun t =>
     t.fld (Reg.ETH_Pp_CNT p) Fld.ETH_Pp_CNT.RXERR = satAdd 8 (s.fld (Reg.ETH_Pp_CNT p) Fld.ETH_Pp_CNT.RXERR) 1 ∧ t.eth = s.eth) ∧
  (∀ (p : Fin 2) (d : List Byte) (n k fc : Nat) (s : State), s.ethAlive = true → 60 ≤ d.length → d.length ≤ 1518 →
     ((List.range 16).find? fun n => s.ethMatches p n d) = none → s.on (Reg.ETH_Pp_CFG p) Fld.ETH_Pp_CFG.NOMATCH = false →
     Does (.ethFrameReceived p d true n k fc) s fun t => t = s) ∧
  (∀ (p : Fin 2) (d : List Byte) (n k fc f : Nat) (s : State), s.ethAlive = true → 60 ≤ d.length → d.length ≤ 1518 →
     ((List.range 16).find? fun n => s.ethMatches p n d) = some f → s.fld (Reg.ETH_Pp_FLTf_C p f) Fld.ETH_Pp_FLTf_C.ACT = 1 →
     s.ethRxEn p = false ∨ s.ethRxFree p = 0 → Does (.ethFrameReceived p d true n k fc) s fun t =>
     t.fld (Reg.ETH_Pp_CNT p) Fld.ETH_Pp_CNT.RXDROP = satAdd Fld.ETH_Pp_CNT.RXDROP.width (s.fld (Reg.ETH_Pp_CNT p) Fld.ETH_Pp_CNT.RXDROP) 1 ∧
     t.ethRxIdx p = s.ethRxIdx p) ∧
  (∀ (p : Fin 2) (d : List Byte) (n k fc f : Nat) (s : State), s.ethAlive = true → 60 ≤ d.length → d.length ≤ 1518 →
     ((List.range 16).find? fun n => s.ethMatches p n d) = some f → s.fld (Reg.ETH_Pp_FLTf_C p f) Fld.ETH_Pp_FLTf_C.ACT = 1 →
     s.ethRxEn p = true → s.ethRxFree p ≠ 0 → Does (.ethFrameReceived p d true n k fc) s fun t =>
     t.ethRxIdx p = (if s.ethRxSize p ≤ s.ethRxIdx p + 1 then 0 else (s.ethRxIdx p + 1) % 2 ^ Fld.ETH_Pp_IDX.RX.width) ∧
     t.reg (Reg.ETH_Pp_CNT p) = s.reg (Reg.ETH_Pp_CNT p))

/-- VTTMO after the last steering write validity is what its conditions give. The end of an MDIO frame clears BUSY,
interrupts, and brings the data of a read. The PHY's interrupt, a change of the link and the beacons of PLCA are
shown. (Where the spec leaves a choice, the statement speaks of the model's: assumption log 92.) Completion is stated
here, with the effect and under conditions on state and operands alone, of: VT_TIMEOUT, ETH_MDIO_DONE,
ETH_PHY_INTERRUPT, ETH_LINK_CHANGE, PLCA_BEACON_LOSS, PLCA_BEACON_RETURN. -/
def Obligations.EthernetLinkAndTime : Prop :=
  (∀ (n : Nat) (s : State), s.vt.steered = some n → Does .vtTimeout s fun t =>
     t.vtValid = (s.at (n + s.fld Reg.ETH_VT_CTRL Fld.ETH_VT_CTRL.VTTMO * esPerMs)).vtHolds ∧
     t.now = max s.now (n + s.fld Reg.ETH_VT_CTRL Fld.ETH_VT_CTRL.VTTMO * esPerMs) ∧ t.vt = s.vt) ∧
  (∀ s : State, s.vt.steered = none → Does .vtTimeout s fun t => t = s) ∧
  (∀ (d : Fin 65536) (s : State), s.on Reg.ETH_MDIO Fld.ETH_MDIO.BUSY = false → Does (.ethMdioDone d) s fun t => t = s) ∧
  (∀ (d : Fin 65536) (s : State), s.on Reg.ETH_MDIO Fld.ETH_MDIO.BUSY = true → Does (.ethMdioDone d) s fun t =>
     t.on Reg.ETH_MDIO Fld.ETH_MDIO.BUSY = false ∧ hasBit t.hic.edges 19 = true ∧
     t.fld Reg.ETH_MDIO Fld.ETH_MDIO.DATA =
     if s.fld Reg.ETH_MDIO Fld.ETH_MDIO.OP = 1 ∨ s.fld Reg.ETH_MDIO Fld.ETH_MDIO.OP = 3 then d.val else s.fld Reg.ETH_MDIO Fld.ETH_MDIO.DATA) ∧
  (∀ s : State, Does .ethPhyInterrupt s fun t => t.on (Reg.ETH_Pp_STAT 0) Fld.ETH_Pp_STAT.PHYINT = true ∧
     t.fld (Reg.ETH_Pp_STAT 0) Fld.ETH_Pp_STAT.LINK = s.fld (Reg.ETH_Pp_STAT 0) Fld.ETH_Pp_STAT.LINK) ∧
  (∀ (b : Bool) (k : Fin 4) (s : State), Does (.ethLinkChange b k) s fun t =>
     t.on (Reg.ETH_Pp_STAT 0) Fld.ETH_Pp_STAT.LINK = b ∧ t.fld (Reg.ETH_Pp_STAT 0) Fld.ETH_Pp_STAT.SPD = k) ∧
  (∀ s : State, s.plcaFollower = true → Does .plcaBeaconLoss s fun t => t.on (Reg.ETH_Pp_STAT 1) Fld.ETH_Pp_STAT.PLCA = false) ∧
  (∀ s : State, s.plcaFollower = false → Does .plcaBeaconLoss s fun t => t = s) ∧
  (∀ s : State, s.plcaFollower = true → Does .plcaBeaconReturn s fun t => t.on (Reg.ETH_Pp_STAT 1) Fld.ETH_Pp_STAT.PLCA = true) ∧
  (∀ s : State, s.plcaFollower = false → Does .plcaBeaconReturn s fun t => t = s)

/-! ### Self-test, hold-up, resets and power -/

/-- A scan slot with a period starts PERIOD after its last start, from its first target; behind its last target its
pass counts. The end of a capture seals the image of the settled state, and IMGOK is 1. (Where the spec leaves a
choice, the statement speaks of the model's: assumption log 70.) Completion is stated here, with the effect and under
conditions on state and operands alone, of: SCAN_PERIOD_START, SCAN_TARGET_DONE, IMAGE_SEALED. -/
def Obligations.ScansAndImage : Prop :=
  (∀ (n : Fin 8) (s : State), s.scanPeriod n = 0 ∨ s.scanCfg n Fld.CHK_SCs_CFG.EN = 0 → Does (.scanPeriodStart n) s fun t => t = s) ∧
  (∀ (n : Fin 8) (s : State), s.scanPeriod n ≠ 0 → s.scanCfg n Fld.CHK_SCs_CFG.EN ≠ 0 → Does (.scanPeriodStart n) s fun t =>
     t.scanRuns n = true ∧ (t.scan n).target = 0 ∧ (t.scan n).report = false ∧ (t.scan n).startAt = t.now ∧
     t.now = max s.now ((s.scan n).startAt + s.scanPeriod n * esPerMs) ∧ t.mem = s.mem) ∧
  (∀ (n : Fin 8) (f w : List (Nat × Word)) (s : State), s.scanRuns n = false ∨ (s.scan n).spoiled = true →
     Does (.scanTargetDone n f w) s fun t => t = s) ∧
  (∀ (n : Fin 8) (w : List (Nat × Word)) (s : State), s.scanRuns n = true → (s.scan n).spoiled = false →
     (s.targets n).length ≤ (s.scan n).target → Does (.scanTargetDone n [] w) s fun t => t.scanRuns n = false ∧
     t.fld (Reg.CHK_SCs_STAT n) Fld.CHK_SCs_STAT.PASSES =
     satAdd Fld.CHK_SCs_STAT.PASSES.width (s.fld (Reg.CHK_SCs_STAT n) Fld.CHK_SCs_STAT.PASSES) 1) ∧
  (∀ s : State, s.pwr.capturing = false → Does .imageSealed s fun t => t = s) ∧
  (∀ s : State, s.pwr.capturing = true → Does .imageSealed s fun t => t.image = some s.captureImage ∧ t.pwr.capturing = false ∧
     t.sealed = true ∧ t.on Reg.SYS_RESTORE Fld.SYS_RESTORE.IMGOK = true)

/-- A rotation step that is due while a condition of the tests fails becomes pending, and a pending step on a free
spare starts its test. Tested memory that passes serves again, a unit that fails its test for readmission is FAILED, a
test whose conditions fail is abandoned, and quarantine ends with the unit serving, free or failed. The first
corrected error of a row is remembered, the second begins the copy of the row while a spare row is left, and the end
of the copy maps it. The oldest token is judged: a valid one counts and sets the next life-cycle state, another counts
in TOKFAIL alone. (Where the spec leaves a choice, the statement speaks of the model's: assumption log 8, 103, 104,
107, 109.) Completion is stated here, with the effect and under conditions on state and operands alone, of:
ROTATION_STEP, ROTATION_RETRY, BIST_COMPLETE, BIST_ABORT, QUARANTINE_END, SRAM_ROW_REPAIR, ROW_COPY_DONE,
LCS_TOKEN_VERIFIED. -/
def Obligations.SelfTestAndRepair : Prop :=
  (∀ (n : Nat) (s : State),
     (s.at n).rotating = false ∨ (s.at n).inRun = false ∨ (s.at n).runTime < s.bst.stepAt + (s.at n).interval →
     Does (.rotationStep n) s fun t => t = s.at n) ∧
  (∀ (n c : Nat) (s : State), (s.at n).rotating = true → (s.at n).inRun = true →
     s.bst.stepAt + (s.at n).interval ≤ (s.at n).runTime → s.bst.pend = [] →
     s.nextUnit (s.fld Reg.BST_STAT Fld.BST_STAT.NEXT) = some c → s.unit c ≠ unitFailed → s.unit c ≠ unitRetired → s.condOk = false →
     Does (.rotationStep n) s fun t => t.bst.pend = [c] ∧ t.fld Reg.BST_STAT Fld.BST_STAT.PEND = 1 ∧
     t.bst.stepAt = s.bst.stepAt + (s.at n).interval ∧
     t.fld Reg.BST_STAT Fld.BST_STAT.NEXT = ((s.nextUnit (c + 1)).getD c) % 2 ^ Fld.BST_STAT.NEXT.width) ∧
  (∀ (n : Nat) (s : State), (s.at n).rotating = false ∨ (s.at n).inRun = false →
     Does (.rotationRetry n) s fun t => t = s.at n) ∧
  (∀ (n c : Nat) (s : State), (s.at n).rotating = true → (s.at n).inRun = true → s.bst.pend = [c] →
     homeSpare c = true → s.unit c = unitFree → s.condOk = true → s.testable c = true →
     Does (.rotationRetry n) s fun t => t.unit c = unitTest ∧ t.bst.pend = [] ∧ t.fld Reg.BST_STAT Fld.BST_STAT.PEND = 0 ∧
     t.bst.tests = s.bst.tests ++ [⟨c, 3, 0, unitFree, false⟩]) ∧
  (∀ (c : Fin 256) (b : Bool) (part : Fin 3) (s : State), classOf c.val = .comparator → Does (.bistComplete c b part) s fun t => t = s) ∧
  (∀ (c : Fin 256) (b : Bool) (part : Fin 3) (s : State), (s.bst.tests.find? fun t => t.code == c.val) = none →
     Does (.bistComplete c b part) s fun t => t = s) ∧
  (∀ (c : Fin 256) (r : TestRun) (part : Fin 3) (s : State), classOf c.val = .memory → (s.bst.tests.find? fun t => t.code == c.val) = some r →
     Does (.bistComplete c true part) s fun t => t.unit c = unitServing ∧ t.bst.tests = s.bst.tests.filter (fun t => t.code != c.val) ∧
     t.fld Reg.BST_CNT Fld.BST_CNT.TESTS = satAdd Fld.BST_CNT.TESTS.width (s.fld Reg.BST_CNT Fld.BST_CNT.TESTS) 1 ∧
     t.fld Reg.BST_CNT Fld.BST_CNT.FAILS = s.fld Reg.BST_CNT Fld.BST_CNT.FAILS) ∧
  (∀ (c : Fin 256) (r : TestRun) (part : Fin 3) (s : State), classOf c.val ≠ .comparator →
     (s.bst.tests.find? fun t => t.code == c.val) = some r → r.readmit = true →
     Does (.bistComplete c false part) s fun t => t.unit c = unitFailed ∧ t.bst.tests = s.bst.tests.filter (fun t => t.code != c.val) ∧
     t.fld Reg.BST_CNT Fld.BST_CNT.TESTS = satAdd Fld.BST_CNT.TESTS.width (s.fld Reg.BST_CNT Fld.BST_CNT.TESTS) 1 ∧
     t.fld Reg.BST_CNT Fld.BST_CNT.FAILS = satAdd Fld.BST_CNT.FAILS.width (s.fld Reg.BST_CNT Fld.BST_CNT.FAILS) 1) ∧
  (∀ (k : Fin 8) (s : State), Does (.bistAbort k) s fun t => t.reg Reg.BST_COND = BitVec.ofNat 32 k.val) ∧
  (∀ (k : Fin 8) (s : State), s.bst.tests = [] → Does (.bistAbort k) s fun t => t = s.setReg Reg.BST_COND (BitVec.ofNat 32 k.val)) ∧
  (∀ (k : Fin 8) (s : State), (s.setReg Reg.BST_COND (BitVec.ofNat 32 k.val)).condOk = false →
     Does (.bistAbort k) s fun t => t.bst.tests = []) ∧
  (∀ (c : Fin 256) (b : Bool) (s : State), s.unit c ≠ unitQuarantine ∨ classOf c.val = .pll ∨ unitExists c = false →
     Does (.quarantineEnd c b) s fun t => t = s) ∧
  (∀ (c : Fin 256) (s : State), s.unit c = unitQuarantine → classOf c.val ≠ .pll → classOf c.val ≠ .sar → unitExists c = true →
     Does (.quarantineEnd c false) s fun t => t.unit c = unitFailed) ∧
  (∀ (c : Fin 256) (s : State), s.unit c = unitQuarantine → classOf c.val ≠ .pll → classOf c.val ≠ .sar → unitExists c = true →
     s.bst.detected.contains c.val = false →
     Does (.quarantineEnd c true) s fun t => t.unit c = if homeSpare c then unitFree else unitServing) ∧
  (∀ (r : MemRow) (w : Fin 32) (b : Bool) (s : State), classOf (rowKey r).1 ≠ .memory ∨ unitExists (rowKey r).1 = false →
     Does (.sramRowRepair r w b) s fun t => t = s) ∧
  (∀ (r : MemRow) (w : Fin 32) (s : State), classOf (rowKey r).1 = .memory → unitExists (rowKey r).1 = true → s.rowErred (rowKey r) = false →
     Does (.sramRowRepair r w false) s fun t =>
     t.bst.rowErrors = s.bst.rowErrors ++ [⟨(rowKey r).1, (rowKey r).2.1, (rowKey r).2.2, w.val, s.tick⟩] ∧
     t.bst.copying = s.bst.copying ∧ t.regs = s.regs ∧ t.mem = s.mem) ∧
  (∀ (r : MemRow) (w : Fin 32) (b : Bool) (s : State), classOf (rowKey r).1 = .memory → unitExists (rowKey r).1 = true →
     b = true ∨ s.rowErred (rowKey r) = true → s.bst.copying.contains (rowKey r) = false →
     s.mappedIn (rowKey r).1 (rowKey r).2.1 + (s.bst.copying.countP fun x => x.1 == (rowKey r).1 && x.2.1 == (rowKey r).2.1) < spareRows →
     Does (.sramRowRepair r w b) s fun t => t.bst.copying = s.bst.copying ++ [rowKey r]) ∧
  (∀ (r : MemRow) (s : State), s.bst.copying.contains (rowKey r) = false → Does (.rowCopyDone r) s fun t => t = s) ∧
  (∀ (r : MemRow) (s : State), s.bst.copying.contains (rowKey r) = true → s.mappedIn (rowKey r).1 (rowKey r).2.1 < spareRows →
     Does (.rowCopyDone r) s fun t => t.bst.copying = s.bst.copying.filter (· != rowKey r) ∧
     t.bst.mapped = s.bst.mapped ++ [rowKey r] ∧
     t.fld Reg.BST_REPAIR Fld.BST_REPAIR.USED = (s.bst.mapped.length + 1) % 2 ^ Fld.BST_REPAIR.USED.width) ∧
  (∀ s : State, s.bst.tokens = [] → Does .lcsTokenVerified s fun t => t = s) ∧
  (∀ (k : Token) (rest : List Token) (s : State), s.bst.tokens = k :: rest → s.tokenReason k = 0 → Does .lcsTokenVerified s fun t =>
     t.bst.tokens = rest ∧ t.reg Reg.BST_LCCNT = s.reg Reg.BST_LCCNT + 1 ∧ t.reg Reg.BST_CNT = s.reg Reg.BST_CNT ∧
     t.bst.lcsNext.map (·.state) = some ((k.word 8).toNat / 256 % 4)) ∧
  (∀ (k : Token) (rest : List Token) (s : State), s.bst.tokens = k :: rest → s.tokenReason k ≠ 0 → Does .lcsTokenVerified s fun t =>
     t.bst.tokens = rest ∧ t.reg Reg.BST_LCCNT = s.reg Reg.BST_LCCNT ∧ t.bst.lcsNext = s.bst.lcsNext ∧
     t.fld Reg.BST_CNT Fld.BST_CNT.TOKFAIL = satAdd Fld.BST_CNT.TOKFAIL.width (s.fld Reg.BST_CNT Fld.BST_CNT.TOKFAIL) 1)

/-- VHOLD is shown as it reads; the first READY starts a check, and RECHK hours of RUN start the next. A check that
does not reach READY fails with REASON 0. A low VHOLD leads back to charging. The loss of the supply begins the
commit, and nothing enters the ledger behind it. (Where the spec leaves a choice, the statement speaks of the model's:
assumption log 8, 110, 111.) Completion is stated here, with the effect and under conditions on state and operands
alone, of: HOLDUP_READY, HOLDUP_PERIODIC, HOLDUP_CHECK_COMPLETE, VHOLD_DROP, SUPPLY_LOSS. -/
def Obligations.HoldUp : Prop :=
  (∀ (v : Nat) (s : State), v < 19000000 ∨ s.hldState = hldCommit → Does (.holdupReady v) s fun t =>
     t = s.setReg Reg.HLD_VHOLD (Sys2Proof.Num.pack (voltsOf v))) ∧
  (∀ (v : Nat) (s : State), 19000000 ≤ v → s.hldState = hldCharging → s.led.readySeen = false → Does (.holdupReady v) s fun t =>
     t.hldState = hldChecking ∧ t.led.readySeen = true ∧ t.led.lastCheck = s.runTime ∧ t.led.before = hldReady ∧
     t.reg Reg.HLD_VHOLD = Sys2Proof.Num.pack (voltsOf v)) ∧
  (∀ (n : Nat) (s : State), s.fld Reg.HLD_CFG Fld.HLD_CFG.RECHK = 0 ∨ s.inRun = false ∨ s.led.readySeen = false →
     Does (.holdupPeriodic n) s fun t => t = s.at n) ∧
  (∀ (n : Nat) (s : State), s.fld Reg.HLD_CFG Fld.HLD_CFG.RECHK ≠ 0 → s.inRun = true → s.led.readySeen = true →
     s.hldState ≠ hldChecking → s.hldState ≠ hldCommit →
     s.led.lastCheck + s.fld Reg.HLD_CFG Fld.HLD_CFG.RECHK * 3600 * esPerSecond ≤ (s.at n).runTime →
     Does (.holdupPeriodic n) s fun t => t.hldState = hldChecking ∧ t.led.lastCheck = (s.at n).runTime ∧ t.led.before = s.hldState) ∧
  (∀ (b : Bool) (x y z : Nat) (s : State), s.hldState ≠ hldChecking → Does (.holdupCheckComplete b x y z) s fun t => t = s) ∧
  (∀ (x y z : Nat) (s : State), s.hldState = hldChecking → Does (.holdupCheckComplete false x y z) s fun t =>
     t.hldState = hldFailed ∧ t.fld Reg.HLD_STAT Fld.HLD_STAT.REASON = 0 ∧
     t.fld Reg.HLD_CNT Fld.HLD_CNT.CHECKS = satAdd Fld.HLD_CNT.CHECKS.width (s.fld Reg.HLD_CNT Fld.HLD_CNT.CHECKS) 1 ∧
     t.fld Reg.HLD_CNT Fld.HLD_CNT.FAILS = satAdd Fld.HLD_CNT.FAILS.width (s.fld Reg.HLD_CNT Fld.HLD_CNT.FAILS) 1) ∧
  (∀ (v : Nat) (s : State), s.pumpRuns = false ∨ 18000000 ≤ v → Does (.vholdDrop v) s fun t => t = s) ∧
  (∀ (v : Nat) (s : State), s.pumpRuns = true → v < 18000000 → Does (.vholdDrop v) s fun t =>
     t.hldState = hldCharging ∧ t.reg Reg.HLD_VHOLD = Sys2Proof.Num.pack (voltsOf v)) ∧
  (∀ (b : Bool) (s : State), s.pwr.asleep = true ∨ s.led.lost = true → Does (.supplyLoss b) s fun t => t = s) ∧
  (∀ (b : Bool) (s : State), s.pwr.asleep = false → s.led.lost = false → Does (.supplyLoss b) s fun t =>
     t.led.lost = true ∧ t.led.accepting = false ∧ t.led.sent = [] ∧ t.hldState = hldCommit ∧
     (b = false → t.led.queue = s.led.queue))

/-- The head enters a sector with its header and takes one unit at a time of the oldest entry, which is durable with
its last. Refused entries are told in one entry. A request for export puts out the units up to the head. A frame of
the die link advances the expected number of its side alone, and a valid one is the last that its side has received; a
CONTROL frame that fails is repeated three times, and its fourth failure, as 1 µs without a valid frame, takes the
link down; the field die's revision is shown. (Where the spec leaves a choice, the statement speaks of the model's:
assumption log 112, 113, 114, 117.) Completion is stated here, with the effect and under conditions on state and
operands alone, of: LEDGER_UNIT_WRITTEN, LEDGER_OVERFLOW_ENTRY, LEDGER_EXPORT_REQUEST, DLINK_FRAME_RECEIVE,
DLINK_HEARTBEAT_TIMEOUT, FIELD_DIE_IDENTITY. -/
def Obligations.LedgerAndDieLink : Prop :=
  (∀ s : State, s.led.queue = [] → Does .ledgerUnitWritten s fun t => t = s) ∧
  (∀ (e : LedgerEntry) (rest : List LedgerEntry) (s : State), s.led.queue = e :: rest → s.head % sectorUnits = 0 →
     Does .ledgerUnitWritten s fun t => t.reg Reg.HLD_SECSEQ = s.reg Reg.HLD_SECSEQ + 1 ∧ t.led = s.led) ∧
  (∀ (e : LedgerEntry) (rest : List LedgerEntry) (s : State), s.led.queue = e :: rest → s.head % sectorUnits ≠ 0 →
     s.led.written + 1 < e.units → Does .ledgerUnitWritten s fun t =>
     t.led.queue = s.led.queue ∧ t.led.written = s.led.written + 1 ∧ t.reg Reg.HLD_DURABLE = s.reg Reg.HLD_DURABLE) ∧
  (∀ (e : LedgerEntry) (rest : List LedgerEntry) (s : State), s.led.queue = e :: rest → s.head % sectorUnits ≠ 0 →
     e.units ≤ s.led.written + 1 → Does .ledgerUnitWritten s fun t =>
     t.led.queue = rest ∧ t.led.written = 0 ∧ t.reg Reg.HLD_DURABLE = BitVec.ofNat 32 e.psn) ∧
  (∀ s : State, s.led.refused = 0 ∨ s.led.accepting = false ∨ s.overflowRoom = false → Does .ledgerOverflowEntry s fun t => t = s) ∧
  (∀ s : State, s.led.refused ≠ 0 → s.led.accepting = true → s.overflowRoom = true → Does .ledgerOverflowEntry s fun t =>
     t.led.refused = 0 ∧ t.led.refusedPsn = 0) ∧
  (∀ (id : Nat) (d : List Byte) (s : State),
     s.exporting = false ∨ id ≠ 0x7E0 ∨ d.length ≠ 6 ∨ d.take 2 ≠ [0x4C, 0x47] →
     Does (.ledgerExportRequest id d) s fun t => t = s) ∧
  (∀ (b0 b1 b2 b3 : Byte) (u : Nat) (s : State), s.exporting = true →
     u = b0.toNat + 256 * b1.toNat + 65536 * b2.toNat + 16777216 * b3.toNat → u < logUnits →
     Does (.ledgerExportRequest 0x7E0 [0x4C, 0x47, b0, b1, b2, b3]) s fun t =>
     t.led.export_ = ((List.range (4 * ((s.head + logUnits - u) % logUnits))).map fun i =>
     s.bytes (logAddr ((u + i / 4) % logUnits) + 8 * (i % 4)) 8) ∧
     t.on Reg.HLD_STAT Fld.HLD_STAT.EXPORT = decide ((s.head + logUnits - u) % logUnits ≠ 0) ∧ t.led.queue = s.led.queue) ∧
  (∀ (q : BitVec 16) (p : List Byte) (s : State), q.toNat = s.dlink.fieldSeq →
     Does (.dlinkFrameReceive true 2 q p (dlinkCheck 2 q p)) s fun t => t.dlink.fieldSeq = (q.toNat + 1) % 65536 ∧
     t.dlink.coreSeq = s.dlink.coreSeq ∧ t.dlink.fieldValid = s.now ∧ t.led = s.led) ∧
  (∀ (q : BitVec 16) (p : List Byte) (s : State), q.toNat = s.dlink.coreSeq →
     Does (.dlinkFrameReceive false 2 q p (dlinkCheck 2 q p)) s fun t => t.dlink.coreSeq = (q.toNat + 1) % 65536 ∧
     t.dlink.fieldSeq = s.dlink.fieldSeq ∧ t.dlink.coreValid = s.now ∧ t.led = s.led) ∧
  (∀ (q : BitVec 16) (p : List Byte) (s : State), q.toNat = s.dlink.fieldSeq → s.led.sent = [] →
     Does (.dlinkFrameReceive true 1 q p (dlinkCheck 1 q p)) s fun t => t.dlink.fieldSeq = (q.toNat + 1) % 65536 ∧
     t.dlink.fieldFails = 0 ∧ t.dlink.fieldValid = s.now ∧ t.led = s.led) ∧
  (∀ (b : Bool) (q : BitVec 16) (p : List Byte) (crc : Word) (s : State), crc ≠ dlinkCheck 2 q p →
     Does (.dlinkFrameReceive b 2 q p crc) s fun t =>
     t.dlink.fieldSeq = (if b then (s.dlink.fieldSeq + 1) % 65536 else s.dlink.fieldSeq) ∧
     t.dlink.coreSeq = (if b then s.dlink.coreSeq else (s.dlink.coreSeq + 1) % 65536) ∧ t.regs = s.regs ∧ t.led = s.led) ∧
  (∀ (q : BitVec 16) (p : List Byte) (crc : Word) (s : State), crc ≠ dlinkCheck 1 q p → s.dlink.fieldFails < 3 →
     Does (.dlinkFrameReceive true 1 q p crc) s fun t => t.dlink.fieldFails = s.dlink.fieldFails + 1 ∧
     t.fld Reg.SYS_DLINK_STAT Fld.SYS_DLINK_STAT.RETRY =
     satAdd Fld.SYS_DLINK_STAT.RETRY.width (s.fld Reg.SYS_DLINK_STAT Fld.SYS_DLINK_STAT.RETRY) 1) ∧
  (∀ (q : BitVec 16) (p : List Byte) (crc : Word) (s : State), crc ≠ dlinkCheck 1 q p → 3 ≤ s.dlink.fieldFails →
     Does (.dlinkFrameReceive true 1 q p crc) s fun t => t.on Reg.SYS_DLINK_STAT Fld.SYS_DLINK_STAT.DOWN = true) ∧
  (∀ (b : Bool) (s : State), Does (.dlinkHeartbeatTimeout b) s fun t =>
     t.on Reg.SYS_DLINK_STAT Fld.SYS_DLINK_STAT.DOWN = true) ∧
  (∀ (r : Fin 16) (s : State), Does (.fieldDieIdentity r) s fun t =>
     t.fld Reg.SYS_DEVID Fld.SYS_DEVID.FIELD_REV = r.val ∧
     t.on Reg.SYS_RSTCAUSE Fld.SYS_RSTCAUSE.FDIE = (r.val == 15) ∧
     t.fld Reg.SYS_RSTCAUSE Fld.SYS_RSTCAUSE.CAUSE = s.fld Reg.SYS_RSTCAUSE Fld.SYS_RSTCAUSE.CAUSE)

/-- POR, PIN, SWSYS, LCS and the end of a commit assert their device resets where none is asserted, with core 0
stopped; each waits for its condition. A release shows the cause, and SLEEP exit shows cause 0 with SLEEPWK.
SWSUB_DONE clears GO. (Where the spec leaves a choice, the statement speaks of the model's: assumption log 5, 14, 111,
115.) Completion is stated here, with the effect and under conditions on state and operands alone, of: POWER_ON_RESET,
RESET_PIN, SWSYS_RESET_ASSERT, LCS_RESET, COMMIT_END, RESET_RELEASE, SWSUB_DONE. -/
def Obligations.ResetsAssertAndRelease : Prop :=
  (∀ s : State, Does .powerOnReset s fun t => t.pwr.held = some rstPor) ∧
  (∀ (n : Nat) (s : State), s.pwr.held = none → Does (.resetPin n) s fun t => t.pwr.held = some rstPin ∧ t.pwr.heldAt = t.now ∧ t.hic.core0 = 0) ∧
  (∀ (n d : Nat) (s : State), s.pwr.held = some d → Does (.resetPin n) s fun t => t = s.at n) ∧
  (∀ s : State, s.pwr.swsysAt = none → Does .swsysResetAssert s fun t => t = s) ∧
  (∀ (n : Nat) (s : State), s.pwr.swsysAt = some n → s.pwr.held = none → Does .swsysResetAssert s fun t =>
     t.pwr.held = some rstSwsys ∧ t.pwr.heldAt = t.now ∧ t.hic.core0 = 0) ∧
  (∀ s : State, s.bst.lcsNext.all (fun n => !n.durable) = true → Does .lcsReset s fun t => t = s) ∧
  (∀ s : State, s.bst.lcsNext.any (·.durable) = true → s.pwr.held = none → Does .lcsReset s fun t =>
     t.pwr.held = some rstLcs ∧ t.pwr.heldAt = t.now ∧ t.hic.core0 = 0) ∧
  (∀ s : State, s.led.lost = false → Does .commitEnd s fun t => t = s) ∧
  (∀ s : State, s.led.lost = true → s.pwr.held = none → Does .commitEnd s fun t =>
     t.pwr.held = some rstBor ∧ t.pwr.heldAt = t.now ∧ t.hic.core0 = 0) ∧
  (∀ (n : Nat) (s : State), s.pwr.held = none → Does (.resetRelease n) s fun t => t = s) ∧
  (∀ (n c : Nat) (s : State), s.pwr.held = some c → Does (.resetRelease n) s fun t => t.pwr.held = none ∧
     t.fld Reg.SYS_RSTCAUSE Fld.SYS_RSTCAUSE.CAUSE = (if c = rstSleep then 0 else c) % 2 ^ Fld.SYS_RSTCAUSE.CAUSE.width ∧
     t.fld Reg.SYS_RSTCAUSE Fld.SYS_RSTCAUSE.SLEEPWK = (c == rstSleep).toNat) ∧
  (∀ s : State, Does .swsubDone s fun t => t.fld Reg.SYS_SWSUB Fld.SYS_SWSUB.GO = 0 ∧ t.mem = s.mem)

/-- The march ends with the boot ROM run: core 0 runs the image or has stopped, and it has stopped, with its code, in
a decommissioned device and where the flash holds no slot. The seal of the kept image decides IMGOK. A restore ends
locked and sealed. A wake from SLEEP asserts the reset of a SLEEP exit; PARK ends with the quarantine of PLL-B and
tells its length; SLEEP powers down. Rails outside their range make the monitor's trip source active, and rails within
it inactive. (Where the spec leaves a choice, the statement speaks of the model's: assumption log 8, 71, 102, 116.)
Completion is stated here, with the effect and under conditions on state and operands alone, of: MARCH_DONE,
IMAGE_SEAL_CHECK, RESTORE_DONE, WAKE, PARK_EXIT, SLEEP_POWER_DOWN, SUPPLY_MONITOR_CHANGE. -/
def Obligations.BootRestoreAndPower : Prop :=
  (∀ (r : List MemRow) (f : List FlashSlot) (b : Bool) (s : State), s.pwr.march = false → Does (.marchDone r f b) s fun t => t = s) ∧
  (∀ (r : List MemRow) (f : List FlashSlot) (b : Bool) (s : State), s.pwr.march = true → Does (.marchDone r f b) s fun t =>
     t.pwr.march = false ∧ (t.hic.core0 = 1 ∨ t.hic.core0 = 2)) ∧
  (∀ (r : List MemRow) (f : List FlashSlot) (b : Bool) (s : State), s.pwr.march = true → s.lcs = lcsDecommissioned ∨ f = [] →
     Does (.marchDone r f b) s fun t => t.pwr.march = false ∧ t.hic.core0 = 2 ∧
     t.fld Reg.SYS_BOOTSTAT Fld.SYS_BOOTSTAT.CODE = if s.lcs = lcsDecommissioned then 3 else 2) ∧
  (∀ s : State, s.pwr.sealDue = false → Does .imageSealCheck s fun t => t = s) ∧
  (∀ s : State, s.pwr.sealDue = true → s.image = none → Does .imageSealCheck s fun t =>
     t.on Reg.SYS_RESTORE Fld.SYS_RESTORE.IMGOK = false ∧ t.pwr.sealDue = false) ∧
  (∀ (i : Image) (s : State), s.pwr.sealDue = true → s.image = some i → Does .imageSealCheck s fun t =>
     t.on Reg.SYS_RESTORE Fld.SYS_RESTORE.IMGOK = (i.sealCrc == i.sealWord) ∧ t.pwr.sealDue = false) ∧
  (∀ s : State, s.pwr.restoring = false ∨ s.image = none → Does .restoreDone s fun t => t = s) ∧
  (∀ (i : Image) (s : State), s.image = some i → s.pwr.restoring = true → Does .restoreDone s fun t =>
     t.pwr.restoring = false ∧ t.locked = true ∧ t.sealed = true ∧ t.fld Reg.SYS_RESTORE Fld.SYS_RESTORE.STATE = 2) ∧
  (∀ (k : Fin 5) (b : Bool) (p n : Nat) (s : State), (s.at n).wakeValid k.val b p = false → Does (.wake k b p n) s fun t => t = s.at n) ∧
  (∀ (k : Fin 5) (b : Bool) (p n : Nat) (s : State), (s.at n).wakeValid k.val b p = true → s.powerState = pwrSleep → s.pwr.held = none →
     Does (.wake k b p n) s fun t => t.pwr.held = some rstSleep ∧ t.pwr.heldAt = t.now ∧ t.hic.core0 = 0) ∧
  (∀ (k : Fin 5) (b : Bool) (p n : Nat) (s : State), s.powerState = pwrRun → s.pwr.enterAt = none → Does (.wake k b p n) s fun t => t = s.at n) ∧
  (∀ (n : Nat) (s : State), s.powerState ≠ pwrPark ∨ s.pwr.waking = false → Does (.parkExit n) s fun t => t = s.at n) ∧
  (∀ (n : Nat) (s : State), s.powerState = pwrPark → s.pwr.waking = true → (s.at n).pllServes 1 || (s.at n).pllGone 1 || !(s.at n).pllEn 1 →
     Does (.parkExit n) s fun t => t.pwr.waking = false ∧ t.pwr.resumed = some (max s.now n - s.pwr.parkAt) ∧
     t.reg Reg.PWR_PARKTIME = BitVec.ofNat 32 (min (2 ^ 32 - 1) ((max s.now n - s.pwr.parkAt) / esPerMs))) ∧
  (∀ s : State, s.powerState ≠ pwrSleep ∨ s.pwr.asleep = true → Does .sleepPowerDown s fun t => t = s) ∧
  (∀ s : State, s.powerState = pwrSleep → s.pwr.asleep = false → Does .sleepPowerDown s fun t =>
     t.pwr.asleep = true ∧ t.led.lost = true) ∧
  (∀ (n : Nat) (s : State), Does (.supplyMonitorChange 0 n) s fun t => t.levelActive (16 + 16) = false ∧ t.pwr.rails = 0 ∧ t.mem = s.mem) ∧
  (∀ (r : Fin 16) (n : Nat) (s : State), r.val % 8 ≠ 0 → Does (.supplyMonitorChange r n) s fun t =>
     t.levelActive (16 + 16) = true ∧ t.pwr.rails = r.val)
end

