-- ==== Sys2Proof/Laws/Exec.lean ====
section
/-! SUPPORT. What each arm of `exec` calls. -/

set_option Elab.async false

namespace Sys2Proof.Machine

theorem exec_sqDoorbellWrite {x0 x1} {s : State} : exec (.sqDoorbellWrite x0 x1) s = execSqDoorbellWrite x0 x1 s := rfl
theorem exec_cqConsumerIndexWrite {x0 x1} {s : State} : exec (.cqConsumerIndexWrite x0 x1) s = execCqConsumerIndexWrite x0 x1 s := rfl
theorem exec_eqConsumerIndexWrite {x0} {s : State} : exec (.eqConsumerIndexWrite x0) s = execEqConsumerIndexWrite x0 s := rfl
theorem exec_eqOverflow {s : State} : exec (.eqOverflow) s = execEqOverflow s := rfl
theorem exec_fetchSlot {x0} {s : State} : exec (.fetchSlot x0) s = execFetchSlot x0 s := rfl
theorem exec_caravanCutoff {s : State} : exec (.caravanCutoff) s = execCaravanCutoff s := rfl
theorem exec_caravanApplication {s : State} : exec (.caravanApplication) s = execCaravanApplication s := rfl
theorem exec_stoppedTickApplication {s : State} : exec (.stoppedTickApplication) s = execStoppedTickApplication s := rfl
theorem exec_completionPosting {s : State} : exec (.completionPosting) s = execCompletionPosting s := rfl
theorem exec_nop {x0 x1} {s : State} : exec (.nop x0 x1) s = execNop x0 x1 s := rfl
theorem exec_regWrite {x0 x1 x2 x3 x4 x5} {s : State} : exec (.regWrite x0 x1 x2 x3 x4 x5) s = execRegWrite x0 x1 x2 x3 x4 x5 s := rfl
theorem exec_regRead {x0 x1 x2 x3} {s : State} : exec (.regRead x0 x1 x2 x3) s = execRegRead x0 x1 x2 x3 s := rfl
theorem exec_paramWrite {x0 x1 x2 x3 x4 x5} {s : State} : exec (.paramWrite x0 x1 x2 x3 x4 x5) s = execParamWrite x0 x1 x2 x3 x4 x5 s := rfl
theorem exec_tableLoad {x0 x1 x2 x3 x4} {s : State} : exec (.tableLoad x0 x1 x2 x3 x4) s = execTableLoad x0 x1 x2 x3 x4 s := rfl
theorem exec_stallStart {x0 x1 x2} {s : State} : exec (.stallStart x0 x1 x2) s = execStallStart x0 x1 x2 s := rfl
theorem exec_stallStop {x0 x1} {s : State} : exec (.stallStop x0 x1) s = execStallStop x0 x1 s := rfl
theorem exec_setpoint {x0 x1 x2 x3 x4 x5} {s : State} : exec (.setpoint x0 x1 x2 x3 x4 x5) s = execSetpoint x0 x1 x2 x3 x4 x5 s := rfl
theorem exec_scheduleSelect {x0 x1} {s : State} : exec (.scheduleSelect x0 x1) s = execScheduleSelect x0 x1 s := rfl
theorem exec_outputEnable {x0 x1} {s : State} : exec (.outputEnable x0 x1) s = execOutputEnable x0 x1 s := rfl
theorem exec_outputDisable {x0 x1} {s : State} : exec (.outputDisable x0 x1) s = execOutputDisable x0 x1 s := rfl
theorem exec_carrierSet {x0 x1 x2} {s : State} : exec (.carrierSet x0 x1 x2) s = execCarrierSet x0 x1 x2 s := rfl
theorem exec_loadAll {x0 x1} {s : State} : exec (.loadAll x0 x1) s = execLoadAll x0 x1 s := rfl
theorem exec_tripClear {x0 x1 x2} {s : State} : exec (.tripClear x0 x1 x2) s = execTripClear x0 x1 x2 s := rfl
theorem exec_safeRequest {x0 x1 x2} {s : State} : exec (.safeRequest x0 x1 x2) s = execSafeRequest x0 x1 x2 s := rfl
theorem exec_driveEnable {x0 x1} {s : State} : exec (.driveEnable x0 x1) s = execDriveEnable x0 x1 s := rfl
theorem exec_discharge {x0 x1 x2 x3} {s : State} : exec (.discharge x0 x1 x2 x3) s = execDischarge x0 x1 x2 x3 s := rfl
theorem exec_modeSet {x0 x1 x2 x3} {s : State} : exec (.modeSet x0 x1 x2 x3) s = execModeSet x0 x1 x2 x3 s := rfl
theorem exec_angleEvent {x0 x1 x2 x3} {s : State} : exec (.angleEvent x0 x1 x2 x3) s = execAngleEvent x0 x1 x2 x3 s := rfl
theorem exec_channelReadmit {x0 x1} {s : State} : exec (.channelReadmit x0 x1) s = execChannelReadmit x0 x1 s := rfl
theorem exec_bistRequest {x0 x1 x2} {s : State} : exec (.bistRequest x0 x1 x2) s = execBistRequest x0 x1 x2 s := rfl
theorem exec_unitReadmit {x0 x1} {s : State} : exec (.unitReadmit x0 x1) s = execUnitReadmit x0 x1 s := rfl
theorem exec_lcsToken {x0 x1 x2} {s : State} : exec (.lcsToken x0 x1 x2) s = execLcsToken x0 x1 x2 s := rfl
theorem exec_holdupCheck {x0} {s : State} : exec (.holdupCheck x0) s = execHoldupCheck x0 s := rfl
theorem exec_ledgerNote {x0 x1 x2 x3 x4} {s : State} : exec (.ledgerNote x0 x1 x2 x3 x4) s = execLedgerNote x0 x1 x2 x3 x4 s := rfl
theorem exec_tickRealign {x0} {s : State} : exec (.tickRealign x0) s = execTickRealign x0 s := rfl
theorem exec_powerState {x0 x1} {s : State} : exec (.powerState x0 x1) s = execPowerState x0 x1 s := rfl
theorem exec_scanStart {x0 x1} {s : State} : exec (.scanStart x0 x1) s = execScanStart x0 x1 s := rfl
theorem exec_resume {x0} {s : State} : exec (.resume x0) s = execResume x0 s := rfl
theorem exec_flush {x0} {s : State} : exec (.flush x0) s = execFlush x0 s := rfl
theorem exec_flushRecordPost {x0} {s : State} : exec (.flushRecordPost x0) s = execFlushRecordPost x0 s := rfl
theorem exec_clrcnt {x0} {s : State} : exec (.clrcnt x0) s = execClrcnt x0 s := rfl
theorem exec_sqEnable {x0 x1} {s : State} : exec (.sqEnable x0 x1) s = execSqEnable x0 x1 s := rfl
theorem exec_ringDisable {x0 x1} {s : State} : exec (.ringDisable x0 x1) s = execRingDisable x0 x1 s := rfl
theorem exec_cqEqEnable {x0 x1} {s : State} : exec (.cqEqEnable x0 x1) s = execCqEqEnable x0 x1 s := rfl
theorem exec_evtAck {s : State} : exec (.evtAck) s = execEvtAck s := rfl
theorem exec_setupLock {s : State} : exec (.setupLock) s = execSetupLock s := rfl
theorem exec_imageSealed {s : State} : exec (.imageSealed) s = execImageSealed s := rfl
theorem exec_f2Clear {s : State} : exec (.f2Clear) s = execF2Clear s := rfl
theorem exec_tickBoundary {x0} {s : State} : exec (.tickBoundary x0) s = execTickBoundary x0 s := rfl
theorem exec_windowFreeze {s : State} : exec (.windowFreeze) s = execWindowFreeze s := rfl
theorem exec_signalPublish {x0 x1 x2} {s : State} : exec (.signalPublish x0 x1 x2) s = execSignalPublish x0 x1 x2 s := rfl
theorem exec_engineStart {x0 x1 x2 x3} {s : State} : exec (.engineStart x0 x1 x2 x3) s = execEngineStart x0 x1 x2 x3 s := rfl
theorem exec_votePhase {x0 x1} {s : State} : exec (.votePhase x0 x1) s = execVotePhase x0 x1 s := rfl
theorem exec_holdExpiry {s : State} : exec (.holdExpiry) s = execHoldExpiry s := rfl
theorem exec_shadowWatchEnd {s : State} : exec (.shadowWatchEnd) s = execShadowWatchEnd s := rfl
theorem exec_engineDeadline {s : State} : exec (.engineDeadline) s = execEngineDeadline s := rfl
theorem exec_stateScrub {s : State} : exec (.stateScrub) s = execStateScrub s := rfl
theorem exec_outputTransfer {x0} {s : State} : exec (.outputTransfer x0) s = execOutputTransfer x0 s := rfl
theorem exec_engRunSet {x0} {s : State} : exec (.engRunSet x0) s = execEngRunSet x0 s := rfl
theorem exec_engBindWrite {x0 x1} {s : State} : exec (.engBindWrite x0 x1) s = execEngBindWrite x0 x1 s := rfl
theorem exec_timebaseRun {x0 x1} {s : State} : exec (.timebaseRun x0 x1) s = execTimebaseRun x0 x1 s := rfl
theorem exec_ldallWrite {x0} {s : State} : exec (.ldallWrite x0) s = execLdallWrite x0 s := rfl
theorem exec_timebaseZero {x0 x1} {s : State} : exec (.timebaseZero x0 x1) s = execTimebaseZero x0 x1 s := rfl
theorem exec_halfPeriodPoint {x0} {s : State} : exec (.halfPeriodPoint x0) s = execHalfPeriodPoint x0 s := rfl
theorem exec_delayLineCalibrated {x0} {s : State} : exec (.delayLineCalibrated x0) s = execDelayLineCalibrated x0 s := rfl
theorem exec_gateReadbackFail {x0} {s : State} : exec (.gateReadbackFail x0) s = execGateReadbackFail x0 s := rfl
theorem exec_tripFilterActive {x0 x1 x2 x3} {s : State} : exec (.tripFilterActive x0 x1 x2 x3) s = execTripFilterActive x0 x1 x2 x3 s := rfl
theorem exec_tripFilterInactive {x0 x1 x2 x3} {s : State} : exec (.tripFilterInactive x0 x1 x2 x3) s = execTripFilterInactive x0 x1 x2 x3 s := rfl
theorem exec_comparatorCrossing {x0 x1 x2 x3} {s : State} : exec (.comparatorCrossing x0 x1 x2 x3) s = execComparatorCrossing x0 x1 x2 x3 s := rfl
theorem exec_safeReadbackFail {x0 x1} {s : State} : exec (.safeReadbackFail x0 x1) s = execSafeReadbackFail x0 x1 s := rfl
theorem exec_acqRunWrite {s : State} : exec (.acqRunWrite) s = execAcqRunWrite s := rfl
theorem exec_sarConversionDone {x0 x1 x2 x3 x4 x5 x6 x7} {s : State} : exec (.sarConversionDone x0 x1 x2 x3 x4 x5 x6 x7) s = execSarConversionDone x0 x1 x2 x3 x4 x5 x6 x7 s := rfl
theorem exec_spareShadowEnd {x0} {s : State} : exec (.spareShadowEnd x0) s = execSpareShadowEnd x0 s := rfl
theorem exec_urgentRequest {x0 x1} {s : State} : exec (.urgentRequest x0 x1) s = execUrgentRequest x0 x1 s := rfl
theorem exec_urgentConversionDone {x0 x1 x2 x3} {s : State} : exec (.urgentConversionDone x0 x1 x2 x3) s = execUrgentConversionDone x0 x1 x2 x3 s := rfl
theorem exec_comparatorTestStep {x0 x1} {s : State} : exec (.comparatorTestStep x0 x1) s = execComparatorTestStep x0 x1 s := rfl
theorem exec_dsSincOutput {x0} {s : State} : exec (.dsSincOutput x0) s = execDsSincOutput x0 s := rfl
theorem exec_resolverPair {x0 x1 x2 x3 x4} {s : State} : exec (.resolverPair x0 x1 x2 x3 x4) s = execResolverPair x0 x1 x2 x3 x4 s := rfl
theorem exec_sincosPair {x0 x1 x2 x3} {s : State} : exec (.sincosPair x0 x1 x2 x3) s = execSincosPair x0 x1 x2 x3 s := rfl
theorem exec_posEdgeAccepted {x0 x1 x2 x3} {s : State} : exec (.posEdgeAccepted x0 x1 x2 x3) s = execPosEdgeAccepted x0 x1 x2 x3 s := rfl
theorem exec_posGlitch {x0 x1} {s : State} : exec (.posGlitch x0 x1) s = execPosGlitch x0 x1 s := rfl
theorem exec_sentFrame {x0 x1 x2 x3 x4 x5 x6 x7} {s : State} : exec (.sentFrame x0 x1 x2 x3 x4 x5 x6 x7) s = execSentFrame x0 x1 x2 x3 x4 x5 x6 x7 s := rfl
theorem exec_ssiFrameStart {x0 x1} {s : State} : exec (.ssiFrameStart x0 x1) s = execSsiFrameStart x0 x1 s := rfl
theorem exec_ssiFrame {x0 x1 x2} {s : State} : exec (.ssiFrame x0 x1 x2) s = execSsiFrame x0 x1 x2 s := rfl
theorem exec_frameTimeout {x0 x1} {s : State} : exec (.frameTimeout x0 x1) s = execFrameTimeout x0 x1 s := rfl
theorem exec_coastExpired {x0 x1} {s : State} : exec (.coastExpired x0 x1) s = execCoastExpired x0 x1 s := rfl
theorem exec_excFault {x0 x1} {s : State} : exec (.excFault x0 x1) s = execExcFault x0 x1 s := rfl
theorem exec_sensvFault {x0 x1 x2} {s : State} : exec (.sensvFault x0 x1 x2) s = execSensvFault x0 x1 x2 s := rfl
theorem exec_sensvEnable {x0} {s : State} : exec (.sensvEnable x0) s = execSensvEnable x0 s := rfl
theorem exec_wrapClear {x0} {s : State} : exec (.wrapClear x0) s = execWrapClear x0 s := rfl
theorem exec_angleEventArm {x0 x1} {s : State} : exec (.angleEventArm x0 x1) s = execAngleEventArm x0 x1 s := rfl
theorem exec_angleEventFire {x0 x1} {s : State} : exec (.angleEventFire x0 x1) s = execAngleEventFire x0 x1 s := rfl
theorem exec_sixstepCrossing {x0 x1} {s : State} : exec (.sixstepCrossing x0 x1) s = execSixstepCrossing x0 x1 s := rfl
theorem exec_watchEnd {x0 x1} {s : State} : exec (.watchEnd x0 x1) s = execWatchEnd x0 x1 s := rfl
theorem exec_waitEnd {x0 x1} {s : State} : exec (.waitEnd x0 x1) s = execWaitEnd x0 x1 s := rfl
theorem exec_catchEnd {x0} {s : State} : exec (.catchEnd x0) s = execCatchEnd x0 s := rfl
theorem exec_wghSelftest {x0 x1} {s : State} : exec (.wghSelftest x0 x1) s = execWghSelftest x0 x1 s := rfl
theorem exec_wghEnable {x0 x1} {s : State} : exec (.wghEnable x0 x1) s = execWghEnable x0 x1 s := rfl
theorem exec_dischargeProgressCheck {s : State} : exec (.dischargeProgressCheck) s = execDischargeProgressCheck s := rfl
theorem exec_dischargeDeadline {s : State} : exec (.dischargeDeadline) s = execDischargeDeadline s := rfl
theorem exec_iskLinkEnable {x0 x1} {s : State} : exec (.iskLinkEnable x0 x1) s = execIskLinkEnable x0 x1 s := rfl
theorem exec_iskEdgePlanSend {x0} {s : State} : exec (.iskEdgePlanSend x0) s = execIskEdgePlanSend x0 s := rfl
theorem exec_iskCollectionSend {x0} {s : State} : exec (.iskCollectionSend x0) s = execIskCollectionSend x0 s := rfl
theorem exec_iskCollectionJudge {x0 x1 x2} {s : State} : exec (.iskCollectionJudge x0 x1 x2) s = execIskCollectionJudge x0 x1 x2 s := rfl
theorem exec_iskEnumeration {x0 x1 x2} {s : State} : exec (.iskEnumeration x0 x1 x2) s = execIskEnumeration x0 x1 x2 s := rfl
theorem exec_iskIdleHeartbeat {x0 x1} {s : State} : exec (.iskIdleHeartbeat x0 x1) s = execIskIdleHeartbeat x0 x1 s := rfl
theorem exec_isk1Broadcast {x0} {s : State} : exec (.isk1Broadcast x0) s = execIsk1Broadcast x0 s := rfl
theorem exec_isk1Poll {x0 x1 x2} {s : State} : exec (.isk1Poll x0 x1 x2) s = execIsk1Poll x0 x1 x2 s := rfl
theorem exec_referenceLost {s : State} : exec (.referenceLost) s = execReferenceLost s := rfl
theorem exec_referenceReturn {x0 x1 x2} {s : State} : exec (.referenceReturn x0 x1 x2) s = execReferenceReturn x0 x1 x2 s := rfl
theorem exec_holdoverTimeout {s : State} : exec (.holdoverTimeout) s = execHoldoverTimeout s := rfl
theorem exec_pllFilterCheck {x0 x1 x2} {s : State} : exec (.pllFilterCheck x0 x1 x2) s = execPllFilterCheck x0 x1 x2 s := rfl
theorem exec_pllLockDeclared {x0 x1} {s : State} : exec (.pllLockDeclared x0 x1) s = execPllLockDeclared x0 x1 s := rfl
theorem exec_pllUnlock {x0 x1} {s : State} : exec (.pllUnlock x0 x1) s = execPllUnlock x0 x1 s := rfl
theorem exec_pllFail {x0 x1 x2} {s : State} : exec (.pllFail x0 x1 x2) s = execPllFail x0 x1 x2 s := rfl
theorem exec_pllQuarantineEnd {x0 x1} {s : State} : exec (.pllQuarantineEnd x0 x1) s = execPllQuarantineEnd x0 x1 s := rfl
theorem exec_pllProgramWrite {x0 x1 x2} {s : State} : exec (.pllProgramWrite x0 x1 x2) s = execPllProgramWrite x0 x1 x2 s := rfl
theorem exec_tickInEdge {x0} {s : State} : exec (.tickInEdge x0) s = execTickInEdge x0 s := rfl
theorem exec_tickInMissing {s : State} : exec (.tickInMissing) s = execTickInMissing s := rfl
theorem exec_rtcSourceSwitch {s : State} : exec (.rtcSourceSwitch) s = execRtcSourceSwitch s := rfl
theorem exec_tickcntLoRead {s : State} : exec (.tickcntLoRead) s = execTickcntLoRead s := rfl
theorem exec_rtcLoRead {s : State} : exec (.rtcLoRead) s = execRtcLoRead s := rfl
theorem exec_mtimeLoRead {s : State} : exec (.mtimeLoRead) s = execMtimeLoRead s := rfl
theorem exec_canTxDoorbell {x0 x1} {s : State} : exec (.canTxDoorbell x0 x1) s = execCanTxDoorbell x0 x1 s := rfl
theorem exec_canRxConsumerWrite {x0 x1} {s : State} : exec (.canRxConsumerWrite x0 x1) s = execCanRxConsumerWrite x0 x1 s := rfl
theorem exec_canTxFetch {x0} {s : State} : exec (.canTxFetch x0) s = execCanTxFetch x0 s := rfl
theorem exec_canTxresume {x0} {s : State} : exec (.canTxresume x0) s = execCanTxresume x0 s := rfl
theorem exec_canTxflush {x0} {s : State} : exec (.canTxflush x0) s = execCanTxflush x0 s := rfl
theorem exec_canInitSet {x0 x1} {s : State} : exec (.canInitSet x0 x1) s = execCanInitSet x0 x1 s := rfl
theorem exec_canInitClear {x0 x1} {s : State} : exec (.canInitClear x0 x1) s = execCanInitClear x0 x1 s := rfl
theorem exec_canFrameSent {x0 x1 x2 x3} {s : State} : exec (.canFrameSent x0 x1 x2 x3) s = execCanFrameSent x0 x1 x2 x3 s := rfl
theorem exec_canFrameReceived {x0 x1 x2 x3 x4 x5 x6 x7} {s : State} : exec (.canFrameReceived x0 x1 x2 x3 x4 x5 x6 x7) s = execCanFrameReceived x0 x1 x2 x3 x4 x5 x6 x7 s := rfl
theorem exec_canRateCandidateSwitch {x0} {s : State} : exec (.canRateCandidateSwitch x0) s = execCanRateCandidateSwitch x0 s := rfl
theorem exec_canErrorStateChange {x0 x1 x2 x3} {s : State} : exec (.canErrorStateChange x0 x1 x2 x3) s = execCanErrorStateChange x0 x1 x2 x3 s := rfl
theorem exec_canBusRecovered {x0} {s : State} : exec (.canBusRecovered x0) s = execCanBusRecovered x0 s := rfl
theorem exec_canTxExpired {x0 x1} {s : State} : exec (.canTxExpired x0 x1) s = execCanTxExpired x0 x1 s := rfl
theorem exec_canTtCycleStart {x0 x1} {s : State} : exec (.canTtCycleStart x0 x1) s = execCanTtCycleStart x0 x1 s := rfl
theorem exec_canTtColumn {x0 x1} {s : State} : exec (.canTtColumn x0 x1) s = execCanTtColumn x0 x1 s := rfl
theorem exec_canTtWindowEnd {x0 x1} {s : State} : exec (.canTtWindowEnd x0 x1) s = execCanTtWindowEnd x0 x1 s := rfl
theorem exec_canUnitFailure {x0 x1} {s : State} : exec (.canUnitFailure x0 x1) s = execCanUnitFailure x0 x1 s := rfl
theorem exec_canSpareSwitchIn {x0} {s : State} : exec (.canSpareSwitchIn x0) s = execCanSpareSwitchIn x0 s := rfl
theorem exec_canShadowEnd {x0 x1} {s : State} : exec (.canShadowEnd x0 x1) s = execCanShadowEnd x0 x1 s := rfl
theorem exec_ethTxDoorbell {x0 x1} {s : State} : exec (.ethTxDoorbell x0 x1) s = execEthTxDoorbell x0 x1 s := rfl
theorem exec_ethRxConsumerWrite {x0 x1} {s : State} : exec (.ethRxConsumerWrite x0 x1) s = execEthRxConsumerWrite x0 x1 s := rfl
theorem exec_ethTxFetch {x0} {s : State} : exec (.ethTxFetch x0) s = execEthTxFetch x0 s := rfl
theorem exec_ethTxresume {x0} {s : State} : exec (.ethTxresume x0) s = execEthTxresume x0 s := rfl
theorem exec_ethTxflush {x0} {s : State} : exec (.ethTxflush x0) s = execEthTxflush x0 s := rfl
theorem exec_ethTxFrameSent {x0 x1 x2 x3} {s : State} : exec (.ethTxFrameSent x0 x1 x2 x3) s = execEthTxFrameSent x0 x1 x2 x3 s := rfl
theorem exec_ethTxExpired {x0 x1} {s : State} : exec (.ethTxExpired x0 x1) s = execEthTxExpired x0 x1 s := rfl
theorem exec_ethFrameReceived {x0 x1 x2 x3 x4 x5} {s : State} : exec (.ethFrameReceived x0 x1 x2 x3 x4 x5) s = execEthFrameReceived x0 x1 x2 x3 x4 x5 s := rfl
theorem exec_ethVtRateWrite {x0} {s : State} : exec (.ethVtRateWrite x0) s = execEthVtRateWrite x0 s := rfl
theorem exec_ethVtStep {x0} {s : State} : exec (.ethVtStep x0) s = execEthVtStep x0 s := rfl
theorem exec_ethVtSet {s : State} : exec (.ethVtSet) s = execEthVtSet s := rfl
theorem exec_vtTimeout {s : State} : exec (.vtTimeout) s = execVtTimeout s := rfl
theorem exec_ethTvtTickRead {s : State} : exec (.ethTvtTickRead) s = execEthTvtTickRead s := rfl
theorem exec_ethMdioCommand {x0} {s : State} : exec (.ethMdioCommand x0) s = execEthMdioCommand x0 s := rfl
theorem exec_ethMdioDone {x0} {s : State} : exec (.ethMdioDone x0) s = execEthMdioDone x0 s := rfl
theorem exec_ethPhyInterrupt {s : State} : exec (.ethPhyInterrupt) s = execEthPhyInterrupt s := rfl
theorem exec_ethLinkChange {x0 x1} {s : State} : exec (.ethLinkChange x0 x1) s = execEthLinkChange x0 x1 s := rfl
theorem exec_plcaBeaconLoss {s : State} : exec (.plcaBeaconLoss) s = execPlcaBeaconLoss s := rfl
theorem exec_plcaBeaconReturn {s : State} : exec (.plcaBeaconReturn) s = execPlcaBeaconReturn s := rfl
theorem exec_core1Start {s : State} : exec (.core1Start) s = execCore1Start s := rfl
theorem exec_cacheInvalidate {x0 x1 x2} {s : State} : exec (.cacheInvalidate x0 x1 x2) s = execCacheInvalidate x0 x1 x2 s := rfl
theorem exec_irqClaim {x0} {s : State} : exec (.irqClaim x0) s = execIrqClaim x0 s := rfl
theorem exec_irqComplete {x0 x1} {s : State} : exec (.irqComplete x0 x1) s = execIrqComplete x0 x1 s := rfl
theorem exec_semRead {x0 x1} {s : State} : exec (.semRead x0 x1) s = execSemRead x0 x1 s := rfl
theorem exec_semFree {x0 x1 x2} {s : State} : exec (.semFree x0 x1 x2) s = execSemFree x0 x1 x2 s := rfl
theorem exec_wdogEnable {x0 x1} {s : State} : exec (.wdogEnable x0 x1) s = execWdogEnable x0 x1 s := rfl
theorem exec_wdogService {x0 x1 x2 x3} {s : State} : exec (.wdogService x0 x1 x2 x3) s = execWdogService x0 x1 x2 x3 s := rfl
theorem exec_wdogPrewarning {x0} {s : State} : exec (.wdogPrewarning x0) s = execWdogPrewarning x0 s := rfl
theorem exec_wdogClose {x0 x1} {s : State} : exec (.wdogClose x0 x1) s = execWdogClose x0 x1 s := rfl
theorem exec_wdogReset {x0} {s : State} : exec (.wdogReset x0) s = execWdogReset x0 s := rfl
theorem exec_xspCommand {x0} {s : State} : exec (.xspCommand x0) s = execXspCommand x0 s := rfl
theorem exec_xspCommandDone {x0} {s : State} : exec (.xspCommandDone x0) s = execXspCommandDone x0 s := rfl
theorem exec_xspReadTimeout {x0 x1} {s : State} : exec (.xspReadTimeout x0 x1) s = execXspReadTimeout x0 x1 s := rfl
theorem exec_gpioEdge {x0 x1} {s : State} : exec (.gpioEdge x0 x1) s = execGpioEdge x0 x1 s := rfl
theorem exec_bootOk {s : State} : exec (.bootOk) s = execBootOk s := rfl
theorem exec_bootCommit {s : State} : exec (.bootCommit) s = execBootCommit s := rfl
theorem exec_chkAlgWrite {x0 x1} {s : State} : exec (.chkAlgWrite x0 x1) s = execChkAlgWrite x0 x1 s := rfl
theorem exec_chkSeedWrite {x0 x1} {s : State} : exec (.chkSeedWrite x0 x1) s = execChkSeedWrite x0 x1 s := rfl
theorem exec_chkDataWrite {x0 x1} {s : State} : exec (.chkDataWrite x0 x1) s = execChkDataWrite x0 x1 s := rfl
theorem exec_chkDatabWrite {x0 x1} {s : State} : exec (.chkDatabWrite x0 x1) s = execChkDatabWrite x0 x1 s := rfl
theorem exec_chkResultRead {x0} {s : State} : exec (.chkResultRead x0) s = execChkResultRead x0 s := rfl
theorem exec_scanPeriodStart {x0} {s : State} : exec (.scanPeriodStart x0) s = execScanPeriodStart x0 s := rfl
theorem exec_scanGo {x0} {s : State} : exec (.scanGo x0) s = execScanGo x0 s := rfl
theorem exec_scanTargetDone {x0 x1 x2} {s : State} : exec (.scanTargetDone x0 x1 x2) s = execScanTargetDone x0 x1 x2 s := rfl
theorem exec_rotationStep {x0} {s : State} : exec (.rotationStep x0) s = execRotationStep x0 s := rfl
theorem exec_rotationRetry {x0} {s : State} : exec (.rotationRetry x0) s = execRotationRetry x0 s := rfl
theorem exec_bistComplete {x0 x1 x2} {s : State} : exec (.bistComplete x0 x1 x2) s = execBistComplete x0 x1 x2 s := rfl
theorem exec_bistAbort {x0} {s : State} : exec (.bistAbort x0) s = execBistAbort x0 s := rfl
theorem exec_quarantineEnd {x0 x1} {s : State} : exec (.quarantineEnd x0 x1) s = execQuarantineEnd x0 x1 s := rfl
theorem exec_sramRowRepair {x0 x1 x2} {s : State} : exec (.sramRowRepair x0 x1 x2) s = execSramRowRepair x0 x1 x2 s := rfl
theorem exec_rowCopyDone {x0} {s : State} : exec (.rowCopyDone x0) s = execRowCopyDone x0 s := rfl
theorem exec_lcsTokenVerified {s : State} : exec (.lcsTokenVerified) s = execLcsTokenVerified s := rfl
theorem exec_holdupReady {x0} {s : State} : exec (.holdupReady x0) s = execHoldupReady x0 s := rfl
theorem exec_holdupPeriodic {x0} {s : State} : exec (.holdupPeriodic x0) s = execHoldupPeriodic x0 s := rfl
theorem exec_holdupCheckComplete {x0 x1 x2 x3} {s : State} : exec (.holdupCheckComplete x0 x1 x2 x3) s = execHoldupCheckComplete x0 x1 x2 x3 s := rfl
theorem exec_vholdDrop {x0} {s : State} : exec (.vholdDrop x0) s = execVholdDrop x0 s := rfl
theorem exec_supplyLoss {x0} {s : State} : exec (.supplyLoss x0) s = execSupplyLoss x0 s := rfl
theorem exec_commitEnd {s : State} : exec (.commitEnd) s = execCommitEnd s := rfl
theorem exec_ledgerUnitWritten {s : State} : exec (.ledgerUnitWritten) s = execLedgerUnitWritten s := rfl
theorem exec_ledgerOverflowEntry {s : State} : exec (.ledgerOverflowEntry) s = execLedgerOverflowEntry s := rfl
theorem exec_ledgerExportRequest {x0 x1} {s : State} : exec (.ledgerExportRequest x0 x1) s = execLedgerExportRequest x0 x1 s := rfl
theorem exec_dlinkFrameReceive {x0 x1 x2 x3 x4} {s : State} : exec (.dlinkFrameReceive x0 x1 x2 x3 x4) s = execDlinkFrameReceive x0 x1 x2 x3 x4 s := rfl
theorem exec_dlinkHeartbeatTimeout {x0} {s : State} : exec (.dlinkHeartbeatTimeout x0) s = execDlinkHeartbeatTimeout x0 s := rfl
theorem exec_fieldDieIdentity {x0} {s : State} : exec (.fieldDieIdentity x0) s = execFieldDieIdentity x0 s := rfl
theorem exec_powerOnReset {s : State} : exec (.powerOnReset) s = execPowerOnReset s := rfl
theorem exec_resetPin {x0} {s : State} : exec (.resetPin x0) s = execResetPin x0 s := rfl
theorem exec_swsysWrite {s : State} : exec (.swsysWrite) s = execSwsysWrite s := rfl
theorem exec_swsubWrite {x0} {s : State} : exec (.swsubWrite x0) s = execSwsubWrite x0 s := rfl
theorem exec_swsubDone {s : State} : exec (.swsubDone) s = execSwsubDone s := rfl
theorem exec_lcsReset {s : State} : exec (.lcsReset) s = execLcsReset s := rfl
theorem exec_resetRelease {x0} {s : State} : exec (.resetRelease x0) s = execResetRelease x0 s := rfl
theorem exec_marchDone {x0 x1 x2} {s : State} : exec (.marchDone x0 x1 x2) s = execMarchDone x0 x1 x2 s := rfl
theorem exec_imageSealCheck {s : State} : exec (.imageSealCheck) s = execImageSealCheck s := rfl
theorem exec_restoreGo {s : State} : exec (.restoreGo) s = execRestoreGo s := rfl
theorem exec_restoreDone {s : State} : exec (.restoreDone) s = execRestoreDone s := rfl
theorem exec_wake {x0 x1 x2 x3} {s : State} : exec (.wake x0 x1 x2 x3) s = execWake x0 x1 x2 x3 s := rfl
theorem exec_parkExit {x0} {s : State} : exec (.parkExit x0) s = execParkExit x0 s := rfl
theorem exec_sleepPowerDown {s : State} : exec (.sleepPowerDown) s = execSleepPowerDown s := rfl
theorem exec_registerWrite {x0 x1 x2 x3} {s : State} : exec (.registerWrite x0 x1 x2 x3) s = execRegisterWrite x0 x1 x2 x3 s := rfl
theorem exec_supplyMonitorChange {x0 x1} {s : State} : exec (.supplyMonitorChange x0 x1) s = execSupplyMonitorChange x0 x1 s := rfl
theorem exec_dsBitSampled {x0 x1 x2 x3} {s : State} : exec (.dsBitSampled x0 x1 x2 x3) s = execDsBitSampled x0 x1 x2 x3 s := rfl
theorem exec_mtimecmpReached {x0 x1} {s : State} : exec (.mtimecmpReached x0 x1) s = execMtimecmpReached x0 x1 s := rfl
theorem exec_coreMemoryAccess {x0 x1 x2 x3 x4 x5 x6 x7} {s : State} : exec (.coreMemoryAccess x0 x1 x2 x3 x4 x5 x6 x7) s = execCoreMemoryAccess x0 x1 x2 x3 x4 x5 x6 x7 s := rfl
theorem exec_debugHalt {x0 x1} {s : State} : exec (.debugHalt x0 x1) s = execDebugHalt x0 x1 s := rfl
theorem exec_tapInstruction {x0} {s : State} : exec (.tapInstruction x0) s = execTapInstruction x0 s := rfl
theorem exec_canTxStart {x0 x1} {s : State} : exec (.canTxStart x0 x1) s = execCanTxStart x0 x1 s := rfl
theorem exec_canBusError {x0 x1 x2 x3 x4} {s : State} : exec (.canBusError x0 x1 x2 x3 x4) s = execCanBusError x0 x1 x2 x3 x4 s := rfl
theorem exec_canIntegrationDone {x0} {s : State} : exec (.canIntegrationDone x0) s = execCanIntegrationDone x0 s := rfl
theorem exec_ethTxStart {x0 x1} {s : State} : exec (.ethTxStart x0 x1) s = execEthTxStart x0 x1 s := rfl
theorem exec_swsysResetAssert {s : State} : exec (.swsysResetAssert) s = execSwsysResetAssert s := rfl

end Sys2Proof.Machine
end

