-- ==== Sys2Proof/Laws/Store.lean ====
section
/-! SUPPORT. Sparse stores: what a write changes, and that it keeps the canonical form. -/

set_option Elab.async false

namespace Sys2Proof.Store

variable {α : Type} [DecidableEq α] (d : Nat → α)

omit [DecidableEq α] in
theorem get_erase (m : List (Nat × α)) (a b : Nat) :
    get d (erase a m) b = if b = a then d a else get d m b := by
  induction m with
  | nil => by_cases h : b = a <;> simp [erase, get, h]
  | cons e m ih =>
    obtain ⟨k, v⟩ := e
    by_cases hk : k = a
    · subst hk
      have : erase k ((k, v) :: m) = erase k m := by simp [erase]
      rw [this, ih]
      by_cases h : b = k <;> simp [get, h]
    · have : erase a ((k, v) :: m) = (k, v) :: erase a m := by simp [erase, hk]
      rw [this]
      by_cases h : b = k
      · subst h; simp [get, hk]
      · simp [get, h, ih]

omit [DecidableEq α] in
theorem get_insert (m : List (Nat × α)) (a b : Nat) (v : α) (h : ∀ e ∈ m, e.1 ≠ a) :
    get d (insert a v m) b = if b = a then v else get d m b := by
  induction m with
  | nil => simp [insert, get]
  | cons e m ih =>
    obtain ⟨k, w⟩ := e
    have hk : k ≠ a := h (k, w) (by simp)
    by_cases hlt : a < k
    · simp [insert, hlt, get]
    · have ih := ih fun e he => h e (by simp [he])
      by_cases hb : b = k
      · subst hb; simp [insert, hlt, get, hk]
      · simp [insert, hlt, get, hb, ih]

omit [DecidableEq α] in
theorem erase_key (m : List (Nat × α)) (a : Nat) : ∀ e ∈ erase a m, e.1 ≠ a := by
  intro e he
  simpa using (List.mem_filter.mp he).2

/-- A read after a write. -/
theorem get_set (m : List (Nat × α)) (a b : Nat) (v : α) :
    get d (set d m a v) b = if b = a then v else get d m b := by
  unfold set
  split
  · next h => rw [get_erase, h]
  · rw [get_insert d _ _ _ _ (erase_key m a), get_erase]
    by_cases hb : b = a <;> simp [hb]

theorem get_set_same (m : List (Nat × α)) (a : Nat) (v : α) : get d (set d m a v) a = v := by
  simp [get_set]

theorem get_set_other (m : List (Nat × α)) {a b : Nat} (v : α) (h : b ≠ a) :
    get d (set d m a v) b = get d m b := by
  simp [get_set, h]

theorem wfFrom_le {lo hi : Nat} (h : lo ≤ hi) (m : List (Nat × α)) : wfFrom d hi m → wfFrom d lo m := by
  cases m with
  | nil => simp [wfFrom]
  | cons e m =>
    simp only [wfFrom, Bool.and_eq_true, decide_eq_true_eq]
    rintro ⟨⟨h1, h2⟩, h3⟩
    exact ⟨⟨by omega, h2⟩, h3⟩

theorem wfFrom_erase (a lo : Nat) (m : List (Nat × α)) : wfFrom d lo m → wfFrom d lo (erase a m) := by
  induction m generalizing lo with
  | nil => simp [erase, wfFrom]
  | cons e m ih =>
    obtain ⟨k, v⟩ := e
    simp only [wfFrom, Bool.and_eq_true, decide_eq_true_eq]
    rintro ⟨⟨h1, h2⟩, h3⟩
    by_cases hk : k = a
    · have : erase a ((k, v) :: m) = erase a m := by simp [erase, hk]
      rw [this]
      exact wfFrom_le d (by omega) _ (ih _ h3)
    · have : erase a ((k, v) :: m) = (k, v) :: erase a m := by simp [erase, hk]
      rw [this]
      simp only [wfFrom, Bool.and_eq_true, decide_eq_true_eq]
      exact ⟨⟨h1, h2⟩, ih _ h3⟩

theorem wfFrom_insert (a lo : Nat) (v : α) (m : List (Nat × α)) (hv : v ≠ d a) (hlo : lo ≤ a)
    (hm : ∀ e ∈ m, e.1 ≠ a) : wfFrom d lo m → wfFrom d lo (insert a v m) := by
  induction m generalizing lo with
  | nil => simp [insert, wfFrom, hv, hlo]
  | cons e m ih =>
    obtain ⟨k, w⟩ := e
    have hk : k ≠ a := hm (k, w) (by simp)
    simp only [wfFrom, Bool.and_eq_true, decide_eq_true_eq]
    rintro ⟨⟨h1, h2⟩, h3⟩
    by_cases hlt : a < k
    · simp only [insert, hlt, if_true, wfFrom, Bool.and_eq_true, decide_eq_true_eq]
      exact ⟨⟨hlo, hv⟩, ⟨by omega, h2⟩, h3⟩
    · simp only [insert, hlt, if_false, wfFrom, Bool.and_eq_true, decide_eq_true_eq]
      exact ⟨⟨h1, h2⟩, ih _ (by omega) (fun e he => hm e (by simp [he])) h3⟩

/-- A write keeps the canonical form. -/
theorem wf_set (m : List (Nat × α)) (a : Nat) (v : α) (h : wf d m = true) : wf d (set d m a v) = true := by
  unfold set
  split
  · exact wfFrom_erase d a 0 m h
  · next hv => exact wfFrom_insert d a 0 v _ hv (by omega) (erase_key m a) (wfFrom_erase d a 0 m h)

theorem wf_filter (p : Nat × α → Bool) (m : List (Nat × α)) (h : wf d m = true) : wf d (m.filter p) = true := by
  have key : ∀ (m : List (Nat × α)) lo, wfFrom d lo m = true → wfFrom d lo (m.filter p) = true := by
    intro m
    induction m with
    | nil => intro lo h; exact h
    | cons e m ih =>
      obtain ⟨k, v⟩ := e
      intro lo
      simp only [wfFrom, Bool.and_eq_true, decide_eq_true_eq]
      rintro ⟨⟨h1, h2⟩, h3⟩
      by_cases hp : p (k, v)
      · simp only [List.filter, hp, wfFrom, Bool.and_eq_true, decide_eq_true_eq]
        exact ⟨⟨h1, h2⟩, ih _ h3⟩
      · simp only [List.filter, hp]
        exact wfFrom_le d (by omega) _ (ih _ h3)
  exact key m 0 h

omit [DecidableEq α] in
/-- A filter that keeps every entry of an address leaves what it reads. -/
theorem get_filter (p : Nat × α → Bool) (m : List (Nat × α)) (a : Nat) (hp : ∀ v, p (a, v) = true) :
    get d (m.filter p) a = get d m a := by
  induction m with
  | nil => rfl
  | cons e m ih =>
    obtain ⟨k, v⟩ := e
    by_cases hk : a = k
    · subst hk
      simp [hp, get]
    · by_cases h : p (k, v) <;> simp [h, get, hk, ih]

end Sys2Proof.Store
end

