-- ==== Sys2Proof/Laws/Frame.lean ====
section
/-! SUPPORT. What one operation can change: `Frame K s t` says that from `s` to `t` nothing outside the parts of the
mask `K` changes, and that a canonical state stays canonical.  Each operation has one lemma of this form. -/

set_option Elab.async false

namespace Sys2Proof.Machine

/-- Bits of a mask: a register name by its number (`regNo`), then the components and the areas of memory, and whether the findings of a command may be left open. -/
abbrev frameBit (k : Nat) (K : Nat) : Bool := K.testBit k

abbrev bit_now : Nat := 407
abbrev bit_t0 : Nat := 408
abbrev bit_prevLen : Nat := 409
abbrev bit_tick : Nat := 410
abbrev bit_clk : Nat := 411
abbrev bit_vt : Nat := 412
abbrev bit_sqs : Nat := 413
abbrev bit_rings : Nat := 414
abbrev bit_staged : Nat := 415
abbrev bit_posting : Nat := 416
abbrev bit_cmdRest : Nat := 417
abbrev bit_faults : Nat := 418
abbrev bit_led : Nat := 419
abbrev bit_dlink : Nat := 420
abbrev bit_prot : Nat := 421
abbrev bit_tbs : Nat := 422
abbrev bit_pairs : Nat := 423
abbrev bit_pwmRest : Nat := 424
abbrev bit_dis : Nat := 425
abbrev bit_acq : Nat := 426
abbrev bit_pos : Nat := 427
abbrev bit_fldc : Nat := 428
abbrev bit_wgh : Nat := 429
abbrev bit_isk : Nat := 430
abbrev bit_thm : Nat := 431
abbrev bit_can : Nat := 432
abbrev bit_eth : Nat := 433
abbrev bit_hic : Nat := 434
abbrev bit_pwr : Nat := 435
abbrev bit_eng : Nat := 436
abbrev bit_image : Nat := 437
abbrev bit_bst : Nat := 438
abbrev bit_chk : Nat := 439
abbrev bit_batch : Nat := 440
abbrev bit_bus : Nat := 441
abbrev bit_free : Nat := 442
abbrev bit_board : Nat := 443
abbrev bit_sram : Nat := 444
abbrev bit_page : Nat := 445
abbrev bit_records : Nat := 446
abbrev bit_recipe : Nat := 447
abbrev bit_table : Nat := 448
abbrev bit_store : Nat := 449
abbrev bit_open : Nat := 450

/-- An address outside the areas of memory in a mask. -/
structure MemFree (K : Nat) (s : State) (a : Nat) : Prop where
  sram : K.testBit bit_sram = true → ¬ inSram a
  page : K.testBit bit_page = true → ¬ inPage a
  records : K.testBit bit_records = true → ¬ s.inRecords a
  recipe : K.testBit bit_recipe = true → ¬ inRecipe' a
  table : K.testBit bit_table = true → ¬ inTable' a
  store : K.testBit bit_store = true → ¬ inStore a

/-- `State.Canonical` by the stores it speaks of. -/
def CanonicalOf (regs : List (Nat × Word)) (mem : List Host.Cell) (board : List (Nat × Word)) (tick : Nat) : Prop :=
  Registers.wf regs = true ∧ Memory.wf mem = true ∧ Board.wf board = true ∧ tick < 2 ^ 48 ∧
    Store.get regDefault regs Reg.CMD_PSN ≠ 0

/-- `State.inRecords` by the stores it speaks of. -/
def InRecordsOf (regs : List (Nat × Word)) (rings : List (Nat × RecRing)) (a : Nat) : Prop :=
  ∃ m, m ≤ 4 ∧ sramBase + Fld.CMD_CQm_BASE.OFFSET.of (Store.get regDefault regs (ringBase m)) * 16 ≤ a ∧
    a < sramBase + Fld.CMD_CQm_BASE.OFFSET.of (Store.get regDefault regs (ringBase m)) * 16 +
      16 * max (Fld.CMD_CQm_CFG.SIZE.of (Store.get regDefault regs (ringCfg m))) ((tabGet {} rings m).pi % 2 ^ 12 + 1)

theorem State.inRecords_iff (s : State) (a : Nat) : s.inRecords a ↔ InRecordsOf s.regs s.cmd.rings a := Iff.rfl

/-- `State.cmdRest` and `State.pwmRest` by the component. -/
def restOfCmd (c : Cmd) : Cmd := { c with sqs := [], rings := [], staged := [], posting := [] }
def restOfPwm (c : Pwm) : Pwm := { c with tbs := [], pairs := [] }

/-- Nothing outside the parts of the mask changes. -/
structure Frame (K : Nat) (s t : State) : Prop where
  inv : CanonicalOf s.regs s.mem s.board s.tick → CanonicalOf t.regs t.mem t.board t.tick
  regs : ∀ a, K.testBit (regNo a) = false → Store.get regDefault t.regs a = Store.get regDefault s.regs a
  mem : ∀ a, MemFree K s a → Store.get memDefault t.mem a = Store.get memDefault s.mem a
  inRecords : K.testBit bit_sram = false → ∀ a, InRecordsOf t.regs t.cmd.rings a → InRecordsOf s.regs s.cmd.rings a
  pending : t.pending = s.pending
  now : K.testBit bit_now = false → t.now = s.now
  t0 : K.testBit bit_t0 = false → t.t0 = s.t0
  prevLen : K.testBit bit_prevLen = false → t.prevLen = s.prevLen
  tick : K.testBit bit_tick = false → t.tick = s.tick
  clk : K.testBit bit_clk = false → t.clk = s.clk
  vt : K.testBit bit_vt = false → t.vt = s.vt
  sqs : K.testBit bit_sqs = false → t.cmd.sqs = s.cmd.sqs
  rings : K.testBit bit_rings = false → t.cmd.rings = s.cmd.rings
  staged : K.testBit bit_staged = false → t.cmd.staged = s.cmd.staged
  posting : K.testBit bit_posting = false → t.cmd.posting = s.cmd.posting
  cmdRest : K.testBit bit_cmdRest = false → restOfCmd t.cmd = restOfCmd s.cmd
  faults : K.testBit bit_faults = false → t.faults = s.faults
  led : K.testBit bit_led = false → t.led = s.led
  dlink : K.testBit bit_dlink = false → t.dlink = s.dlink
  prot : K.testBit bit_prot = false → t.prot = s.prot
  tbs : K.testBit bit_tbs = false → t.pwm.tbs = s.pwm.tbs
  pairs : K.testBit bit_pairs = false → t.pwm.pairs = s.pwm.pairs
  pwmRest : K.testBit bit_pwmRest = false → restOfPwm t.pwm = restOfPwm s.pwm
  dis : K.testBit bit_dis = false → t.dis = s.dis
  acq : K.testBit bit_acq = false → t.acq = s.acq
  pos : K.testBit bit_pos = false → t.pos = s.pos
  fldc : K.testBit bit_fldc = false → t.fldc = s.fldc
  wgh : K.testBit bit_wgh = false → t.wgh = s.wgh
  isk : K.testBit bit_isk = false → t.isk = s.isk
  thm : K.testBit bit_thm = false → t.thm = s.thm
  can : K.testBit bit_can = false → t.can = s.can
  eth : K.testBit bit_eth = false → t.eth = s.eth
  hic : K.testBit bit_hic = false → t.hic = s.hic
  pwr : K.testBit bit_pwr = false → t.pwr = s.pwr
  eng : K.testBit bit_eng = false → t.eng = s.eng
  image : K.testBit bit_image = false → t.image = s.image
  bst : K.testBit bit_bst = false → t.bst = s.bst
  chk : K.testBit bit_chk = false → t.chk = s.chk
  batch : K.testBit bit_batch = false → t.batch = s.batch
  shut : K.testBit bit_open = false → s.batch = none → t.batch = none
  bus : K.testBit bit_bus = false → t.bus = s.bus
  free : K.testBit bit_free = false → t.free = s.free
  board : K.testBit bit_board = false → t.board = s.board

/-- One mask lies within another. -/
abbrev Within (F K : Nat) : Prop := F &&& K = F

theorem Within.bit {F K k : Nat} (h : Within F K) (hk : F.testBit k = true) : K.testBit k = true := by
  have := congrArg (fun n => n.testBit k) h
  simp only [Nat.testBit_and, hk, Bool.true_and] at this
  exact this

theorem Within.no {F K k : Nat} (h : Within F K) (hk : K.testBit k = false) : F.testBit k = false := by
  cases hf : F.testBit k with
  | false => rfl
  | true => rw [h.bit hf] at hk; cases hk

theorem Bits.of_lt (f : Bits) (w : Word) : f.of w < 2 ^ f.width := Nat.mod_lt _ (Nat.two_pow_pos _)

theorem State.fld_lt (s : State) (a : Nat) (f : Bits) : s.fld a f < 2 ^ f.width := Bits.of_lt f _

theorem inSram_of_inRecords {s : State} {a : Nat} (h : s.inRecords a) : inSram a := by
  obtain ⟨m, _, h1, h2⟩ := h
  have hb : s.fld (ringBase m) Fld.CMD_CQm_BASE.OFFSET < 2 ^ 18 := s.fld_lt _ _
  have hs : s.ringSize m < 2 ^ 13 := s.fld_lt _ _
  have hp : (s.ring m).pi % 2 ^ 12 < 2 ^ 12 := Nat.mod_lt _ (by decide)
  unfold State.recordEnd State.recordBase at *
  unfold inSram recipeBase
  unfold sramBase at *
  omega

theorem Frame.refl (K : Nat) (s : State) : Frame K s s where
  inv := id
  regs _ _ := rfl
  mem _ _ := rfl
  inRecords _ _ h := h
  pending := rfl
  now _ := rfl
  t0 _ := rfl
  prevLen _ := rfl
  tick _ := rfl
  clk _ := rfl
  vt _ := rfl
  sqs _ := rfl
  rings _ := rfl
  staged _ := rfl
  posting _ := rfl
  cmdRest _ := rfl
  faults _ := rfl
  led _ := rfl
  dlink _ := rfl
  prot _ := rfl
  tbs _ := rfl
  pairs _ := rfl
  pwmRest _ := rfl
  dis _ := rfl
  acq _ := rfl
  pos _ := rfl
  fldc _ := rfl
  wgh _ := rfl
  isk _ := rfl
  thm _ := rfl
  can _ := rfl
  eth _ := rfl
  hic _ := rfl
  pwr _ := rfl
  eng _ := rfl
  image _ := rfl
  bst _ := rfl
  chk _ := rfl
  batch _ := rfl
  shut _ h := h
  bus _ := rfl
  free _ := rfl
  board _ := rfl

/-- A step within the mask after others. -/
theorem Frame.step {F K : Nat} {s t u : State} (hf : Frame F t u) (h : Frame K s t)
    (hF : Within F K := by decide) : Frame K s u where
  inv hs := hf.inv (h.inv hs)
  regs a ha := (hf.regs a (hF.no ha)).trans (h.regs a ha)
  mem a ha := by
    refine (hf.mem a ?_).trans (h.mem a ha)
    refine ⟨fun k => ha.sram (hF.bit k), fun k => ha.page (hF.bit k), fun k hr => ?_,
      fun k => ha.recipe (hF.bit k), fun k => ha.table (hF.bit k), fun k => ha.store (hF.bit k)⟩
    cases hs : K.testBit bit_sram with
    | true => exact ha.sram hs (inSram_of_inRecords hr)
    | false => exact ha.records (hF.bit k) (h.inRecords hs a hr)
  inRecords k a ha := h.inRecords k a (hf.inRecords (hF.no k) a ha)
  pending := hf.pending.trans h.pending
  now k := (hf.now (hF.no k)).trans (h.now k)
  t0 k := (hf.t0 (hF.no k)).trans (h.t0 k)
  prevLen k := (hf.prevLen (hF.no k)).trans (h.prevLen k)
  tick k := (hf.tick (hF.no k)).trans (h.tick k)
  clk k := (hf.clk (hF.no k)).trans (h.clk k)
  vt k := (hf.vt (hF.no k)).trans (h.vt k)
  sqs k := (hf.sqs (hF.no k)).trans (h.sqs k)
  rings k := (hf.rings (hF.no k)).trans (h.rings k)
  staged k := (hf.staged (hF.no k)).trans (h.staged k)
  posting k := (hf.posting (hF.no k)).trans (h.posting k)
  cmdRest k := (hf.cmdRest (hF.no k)).trans (h.cmdRest k)
  faults k := (hf.faults (hF.no k)).trans (h.faults k)
  led k := (hf.led (hF.no k)).trans (h.led k)
  dlink k := (hf.dlink (hF.no k)).trans (h.dlink k)
  prot k := (hf.prot (hF.no k)).trans (h.prot k)
  tbs k := (hf.tbs (hF.no k)).trans (h.tbs k)
  pairs k := (hf.pairs (hF.no k)).trans (h.pairs k)
  pwmRest k := (hf.pwmRest (hF.no k)).trans (h.pwmRest k)
  dis k := (hf.dis (hF.no k)).trans (h.dis k)
  acq k := (hf.acq (hF.no k)).trans (h.acq k)
  pos k := (hf.pos (hF.no k)).trans (h.pos k)
  fldc k := (hf.fldc (hF.no k)).trans (h.fldc k)
  wgh k := (hf.wgh (hF.no k)).trans (h.wgh k)
  isk k := (hf.isk (hF.no k)).trans (h.isk k)
  thm k := (hf.thm (hF.no k)).trans (h.thm k)
  can k := (hf.can (hF.no k)).trans (h.can k)
  eth k := (hf.eth (hF.no k)).trans (h.eth k)
  hic k := (hf.hic (hF.no k)).trans (h.hic k)
  pwr k := (hf.pwr (hF.no k)).trans (h.pwr k)
  eng k := (hf.eng (hF.no k)).trans (h.eng k)
  image k := (hf.image (hF.no k)).trans (h.image k)
  bst k := (hf.bst (hF.no k)).trans (h.bst k)
  chk k := (hf.chk (hF.no k)).trans (h.chk k)
  batch k := (hf.batch (hF.no k)).trans (h.batch k)
  shut k hb := hf.shut (hF.no k) (h.shut k hb)
  bus k := (hf.bus (hF.no k)).trans (h.bus k)
  free k := (hf.free (hF.no k)).trans (h.free k)
  board k := (hf.board (hF.no k)).trans (h.board k)

theorem Frame.widen {F K : Nat} {s t : State} (hf : Frame F s t) (hF : Within F K := by decide) : Frame K s t :=
  Frame.step hf (Frame.refl K s) hF

theorem Frame.ite {K : Nat} {s t u : State} {c : Prop} [Decidable c] (h1 : Frame K s t) (h2 : Frame K s u) :
    Frame K s (if c then t else u) := by split <;> assumption

theorem Frame.foldl {K : Nat} {α : Type} {s t : State} {f : State → α → State} {l : List α} (h : Frame K s t)
    (hf : ∀ u x, Frame K s u → Frame K s (f u x)) : Frame K s (l.foldl f t) := by
  induction l generalizing t with
  | nil => exact h
  | cons x l ih => exact ih (hf t x h)

theorem Frame.foldr {K : Nat} {α : Type} {s t : State} {f : α → State → State} {l : List α} (h : Frame K s t)
    (hf : ∀ u x, Frame K s u → Frame K s (f x u)) : Frame K s (l.foldr f t) := by
  induction l with
  | nil => exact h
  | cons x l ih => exact hf _ x ih

/-- An outcome that is a next state within the mask. -/
def FrameO (K : Nat) (s : State) : Host.Outcome State Fault Refusal → Prop
  | .next t => Frame K s t
  | _ => False

theorem FrameO.next {K : Nat} {s t : State} (h : Frame K s t) : FrameO K s (.next t) := h

theorem FrameO.ite {K : Nat} {s : State} {x y : Host.Outcome State Fault Refusal} {c : Prop} [Decidable c]
    (h1 : FrameO K s x) (h2 : FrameO K s y) : FrameO K s (if c then x else y) := by split <;> assumption

theorem FrameO.step {F K : Nat} {s t : State} {x : Host.Outcome State Fault Refusal} (hf : FrameO F t x)
    (h : Frame K s t) (hF : Within F K := by decide) : FrameO K s x := by
  cases x with
  | next u => exact Frame.step hf h hF
  | fault _ => exact hf
  | refused _ => exact hf

/-- A state with a result beside it. -/
def FrameL (K : Nat) (s : State) {α : Type} (x : State × α) : Prop := Frame K s x.1
def FrameR (K : Nat) (s : State) {α : Type} (x : α × State) : Prop := Frame K s x.2

theorem FrameL.mk {K : Nat} {s t : State} {α : Type} {a : α} (h : Frame K s t) : FrameL K s (t, a) := h
theorem FrameR.mk {K : Nat} {s t : State} {α : Type} {a : α} (h : Frame K s t) : FrameR K s (a, t) := h

theorem FrameL.ite {K : Nat} {s : State} {α : Type} {x y : State × α} {c : Prop} [Decidable c]
    (h1 : FrameL K s x) (h2 : FrameL K s y) : FrameL K s (if c then x else y) := by split <;> assumption
theorem FrameR.ite {K : Nat} {s : State} {α : Type} {x y : α × State} {c : Prop} [Decidable c]
    (h1 : FrameR K s x) (h2 : FrameR K s y) : FrameR K s (if c then x else y) := by split <;> assumption

theorem FrameL.step {F K : Nat} {s t : State} {α : Type} {x : State × α} (hf : FrameL F t x) (h : Frame K s t)
    (hF : Within F K := by decide) : FrameL K s x := Frame.step hf h hF
theorem FrameR.step {F K : Nat} {s t : State} {α : Type} {x : α × State} (hf : FrameR F t x) (h : Frame K s t)
    (hF : Within F K := by decide) : FrameR K s x := Frame.step hf h hF

theorem FrameL.foldl {K : Nat} {α β : Type} {s : State} {t : State × β} {f : State × β → α → State × β}
    {l : List α} (h : FrameL K s t) (hf : ∀ u x, FrameL K s u → FrameL K s (f u x)) : FrameL K s (l.foldl f t) := by
  induction l generalizing t with
  | nil => exact h
  | cons x l ih => exact ih (hf t x h)
theorem FrameR.foldl {K : Nat} {α β : Type} {s : State} {t : β × State} {f : β × State → α → β × State}
    {l : List α} (h : FrameR K s t) (hf : ∀ u x, FrameR K s u → FrameR K s (f u x)) : FrameR K s (l.foldl f t) := by
  induction l generalizing t with
  | nil => exact h
  | cons x l ih => exact ih (hf t x h)

/-! ### Registers -/

/-- The number of CMD_PSN. -/
abbrev psnNo : Nat := 35

theorem psnNo_eq : regNo Reg.CMD_PSN = psnNo := by decide

/-- Registers whose fields place the buffers of the record rings: base and CFG of the completion rings and of the
event ring. -/
def placesRecords (k : Nat) : Bool := k == 44 || k == 45 || k == 47 || k == 48

theorem regNo_ringBase (m : Nat) : placesRecords (regNo (ringBase m)) = true := by
  unfold ringBase
  split
  · next h => exact (by decide : ∀ i : Fin 4, placesRecords (regNo (Reg.CMD_CQm_BASE i)) = true) ⟨m, h⟩
  · decide

theorem regNo_ringCfg (m : Nat) : placesRecords (regNo (ringCfg m)) = true := by
  unfold ringCfg
  split
  · next h => exact (by decide : ∀ i : Fin 4, placesRecords (regNo (Reg.CMD_CQm_CFG i)) = true) ⟨m, h⟩
  · decide

theorem State.reg_setReg (s : State) (a b : Nat) (w : Word) :
    (s.setReg a w).reg b = if b = a then w else s.reg b := Store.get_set _ _ _ _ _

theorem inRecords_congr {s t : State} (hr : ∀ m, t.ring m = s.ring m)
    (hb : ∀ a, placesRecords (regNo a) = true → t.reg a = s.reg a) (a : Nat) (h : t.inRecords a) : s.inRecords a := by
  obtain ⟨m, hm, h1, h2⟩ := h
  refine ⟨m, hm, ?_⟩
  unfold State.recordEnd State.recordBase State.ringSize State.fld at *
  rw [hr, hb _ (regNo_ringBase m), hb _ (regNo_ringCfg m)] at h2
  rw [hb _ (regNo_ringBase m)] at h1
  exact ⟨h1, h2⟩

/-- A register written that is not the next PSN. -/
theorem Frame.setReg {K k : Nat} {s t : State} {a : Nat} {w : Word} (h : Frame K s t) (hk : regNo a = k)
    (hK : K.testBit k = true := by decide) (hp : (k != psnNo) = true := by decide)
    (hr : (!placesRecords k || K.testBit bit_sram) = true := by decide) : Frame K s (t.setReg a w) := by
  have other : ∀ b, regNo b ≠ k → (t.setReg a w).reg b = t.reg b := by
    intro b hb
    rw [State.reg_setReg, if_neg]
    rintro rfl
    exact hb hk
  exact {
    inv := fun hs => by
      obtain ⟨c1, c2, c3, c4, c5⟩ := h.inv hs
      refine ⟨Store.wf_set _ _ _ _ c1, c2, c3, c4, ?_⟩
      show (t.setReg a w).reg Reg.CMD_PSN ≠ 0
      rw [other _ (by rintro rfl; rw [psnNo_eq] at hp; cases hp)]
      exact c5
    regs := fun b hb => by
      show (t.setReg a w).reg b = _
      rw [other b (by rintro rfl; rw [hK] at hb; cases hb)]
      exact h.regs b hb
    mem := h.mem
    inRecords := fun hs b hb => h.inRecords hs b (inRecords_congr (s := t) (t := t.setReg a w) (fun _ => rfl) (fun c hc => other c (by
      rintro rfl
      rw [hc, hs] at hr
      cases hr)) b hb)
    pending := h.pending
    now := h.now
    t0 := h.t0
    prevLen := h.prevLen
    tick := h.tick
    clk := h.clk
    vt := h.vt
    sqs := h.sqs
    rings := h.rings
    staged := h.staged
    posting := h.posting
    cmdRest := h.cmdRest
    faults := h.faults
    led := h.led
    dlink := h.dlink
    prot := h.prot
    tbs := h.tbs
    pairs := h.pairs
    pwmRest := h.pwmRest
    dis := h.dis
    acq := h.acq
    pos := h.pos
    fldc := h.fldc
    wgh := h.wgh
    isk := h.isk
    thm := h.thm
    can := h.can
    eth := h.eth
    hic := h.hic
    pwr := h.pwr
    eng := h.eng
    image := h.image
    bst := h.bst
    chk := h.chk
    batch := h.batch
    shut := h.shut
    bus := h.bus
    free := h.free
    board := h.board
    }

theorem Frame.setFld {K k : Nat} {s t : State} {a : Nat} {f : Bits} {v : Nat} (h : Frame K s t) (hk : regNo a = k)
    (hK : K.testBit k = true := by decide) (hp : (k != psnNo) = true := by decide)
    (hr : (!placesRecords k || K.testBit bit_sram) = true := by decide) : Frame K s (t.setFld a f v) :=
  h.setReg hk hK hp hr

theorem Frame.count {K k : Nat} {s t : State} {a : Nat} {f : Bits} {n : Nat} (h : Frame K s t) (hk : regNo a = k)
    (hK : K.testBit k = true := by decide) (hp : (k != psnNo) = true := by decide)
    (hr : (!placesRecords k || K.testBit bit_sram) = true := by decide) : Frame K s (t.count a f n) :=
  h.setReg hk hK hp hr

/-! ### Signal board and memory -/

theorem Frame.publish {K : Nat} {s t : State} {a : Nat} {w : Word} (h : Frame K s t)
    (hK : K.testBit bit_board = true := by decide) : Frame K s (t.publish a w) := {
  inv := fun hs => by
    obtain ⟨c1, c2, c3, c4, c5⟩ := h.inv hs
    exact ⟨c1, c2, Store.wf_set _ _ _ _ c3, c4, c5⟩
  regs := h.regs, mem := h.mem, inRecords := h.inRecords, pending := h.pending
  now := h.now
  t0 := h.t0
  prevLen := h.prevLen
  tick := h.tick
  clk := h.clk
  vt := h.vt
  sqs := h.sqs
  rings := h.rings
  staged := h.staged
  posting := h.posting
  cmdRest := h.cmdRest
  faults := h.faults
  led := h.led
  dlink := h.dlink
  prot := h.prot
  tbs := h.tbs
  pairs := h.pairs
  pwmRest := h.pwmRest
  dis := h.dis
  acq := h.acq
  pos := h.pos
  fldc := h.fldc
  wgh := h.wgh
  isk := h.isk
  thm := h.thm
  can := h.can
  eth := h.eth
  hic := h.hic
  pwr := h.pwr
  eng := h.eng
  image := h.image
  bst := h.bst
  chk := h.chk
  batch := h.batch
  shut := h.shut
  bus := h.bus
  free := h.free
  board := fun hb => by rw [hK] at hb; cases hb
  }

theorem State.byte_setByte (s : State) (a b : Nat) (v : Byte) :
    (s.setByte a v).byte b = if b = a then v else s.byte b := Store.get_set _ _ _ _ _

/-- A byte written in an area of the mask. -/
theorem Frame.setByte {K : Nat} {s t : State} {a : Nat} {v : Byte} (h : Frame K s t) (ha : ¬ MemFree K s a) :
    Frame K s (t.setByte a v) := {
  inv := fun hs => by
    obtain ⟨c1, c2, c3, c4, c5⟩ := h.inv hs
    exact ⟨c1, Store.wf_set _ _ _ _ c2, c3, c4, c5⟩
  regs := h.regs
  mem := fun b hb => by
    show (t.setByte a v).byte b = _
    rw [State.byte_setByte, if_neg]
    · exact h.mem b hb
    · rintro rfl; exact ha hb
  inRecords := h.inRecords, pending := h.pending
  now := h.now
  t0 := h.t0
  prevLen := h.prevLen
  tick := h.tick
  clk := h.clk
  vt := h.vt
  sqs := h.sqs
  rings := h.rings
  staged := h.staged
  posting := h.posting
  cmdRest := h.cmdRest
  faults := h.faults
  led := h.led
  dlink := h.dlink
  prot := h.prot
  tbs := h.tbs
  pairs := h.pairs
  pwmRest := h.pwmRest
  dis := h.dis
  acq := h.acq
  pos := h.pos
  fldc := h.fldc
  wgh := h.wgh
  isk := h.isk
  thm := h.thm
  can := h.can
  eth := h.eth
  hic := h.hic
  pwr := h.pwr
  eng := h.eng
  image := h.image
  bst := h.bst
  chk := h.chk
  batch := h.batch
  shut := h.shut
  bus := h.bus
  free := h.free
  board := h.board
  }

theorem Frame.setBytes {K : Nat} {s : State} (bs : List Byte) {t : State} {a : Nat} (h : Frame K s t)
    (ha : ∀ i, i < bs.length → ¬ MemFree K s (a + i)) : Frame K s (t.setBytes a bs) := by
  induction bs generalizing t a with
  | nil => exact h
  | cons b bs ih =>
    refine ih (h.setByte (ha 0 (by simp))) fun i hi => ?_
    have := ha (i + 1) (by simpa using hi)
    rwa [show a + 1 + i = a + (i + 1) by omega]

theorem bytesOfWord_length (w : Word) : (bytesOfWord w).length = 4 := rfl

theorem Frame.setWord {K : Nat} {s t : State} {a : Nat} {w : Word} (h : Frame K s t)
    (ha : ∀ i, i < 4 → ¬ MemFree K s (a + i)) : Frame K s (t.setWord a w) :=
  h.setBytes _ ha

theorem Frame.setWords {K : Nat} {s : State} (ws : List Word) {t : State} {a : Nat} (h : Frame K s t)
    (ha : ∀ i, i < 4 * ws.length → ¬ MemFree K s (a + i)) : Frame K s (t.setWords a ws) := by
  induction ws generalizing t a with
  | nil => exact h
  | cons w ws ih =>
    refine ih (h.setWord fun i hi => ha i (by simp; omega)) fun i hi => ?_
    have := ha (i + 4) (by simp; omega)
    rwa [show a + 4 + i = a + (i + 4) by omega]

theorem Frame.clearResv {K : Nat} {s t : State} {off n : Nat} (h : Frame K s t)
    (hK : K.testBit bit_hic = true := by decide) : Frame K s (t.clearResv off n) :=
  { h with hic := fun hb => by rw [hK] at hb; cases hb }

theorem Frame.fabricWords {K : Nat} {s t : State} {off : Nat} {ws : List Word} (h : Frame K s t)
    (ha : ∀ i, i < 4 * ws.length → ¬ MemFree K s (sramBase + off + i)) (hK : K.testBit bit_hic = true := by decide) :
    Frame K s (t.fabricWords off ws) :=
  (h.clearResv hK).setWords ws ha

theorem Frame.fabricBytes {K : Nat} {s t : State} {off : Nat} {bs : List Byte} (h : Frame K s t)
    (ha : ∀ i, i < bs.length → ¬ MemFree K s (sramBase + off + i)) (hK : K.testBit bit_hic = true := by decide) :
    Frame K s (t.fabricBytes off bs) :=
  (h.clearResv hK).setBytes bs ha

/-! ### Time -/

theorem Frame.at {K : Nat} {s t : State} {n : Nat} (h : Frame K s t)
    (hK : K.testBit bit_now = true := by decide) : Frame K s (t.at n) :=
  { h with now := fun hb => by rw [hK] at hb; cases hb }

end Sys2Proof.Machine
end

