-- ==== Sys2Proof/Laws/RegNo.lean ====
section
/-! SUPPORT. The number of a register's name (`regNo`), for every index of an array. -/

set_option Elab.async false

namespace Sys2Proof.Machine

theorem regNo_SYS_DEVID : regNo Reg.SYS_DEVID = 0 := by decide +kernel
theorem regNo_SYS_SETUP_LOCK : regNo Reg.SYS_SETUP_LOCK = 1 := by decide +kernel
theorem regNo_SYS_DLINK_STAT : regNo Reg.SYS_DLINK_STAT = 2 := by decide +kernel
theorem regNo_SYS_FAULTSTAT : regNo Reg.SYS_FAULTSTAT = 4 := by decide +kernel
theorem regNo_SYS_BOOTSTAT : regNo Reg.SYS_BOOTSTAT = 5 := by decide +kernel
theorem regNo_SYS_BOOTREJ : regNo Reg.SYS_BOOTREJ = 7 := by decide +kernel
theorem regNo_SYS_SWSUB : regNo Reg.SYS_SWSUB = 9 := by decide +kernel
theorem regNo_SYS_RSTCAUSE : regNo Reg.SYS_RSTCAUSE = 10 := by decide +kernel
theorem regNo_SYS_RESTORE : regNo Reg.SYS_RESTORE = 11 := by decide +kernel
theorem regNo_CLK_STAT : regNo Reg.CLK_STAT = 14 := by decide +kernel
theorem regNo_CLK_CNT : regNo Reg.CLK_CNT = 16 := by decide +kernel
theorem regNo_CLK_PLLp_STAT (p : Nat) : regNo (Reg.CLK_PLLp_STAT p) = 19 :=
  (by decide +kernel : ∀ p : Fin 2, regNo (0x40010108 + 0x20 * p.val) = 19) ⟨p % 2, Nat.mod_lt _ (by decide)⟩
theorem regNo_CLK_PLLp_OFS (p : Nat) : regNo (Reg.CLK_PLLp_OFS p) = 20 :=
  (by decide +kernel : ∀ p : Fin 2, regNo (0x4001010C + 0x20 * p.val) = 20) ⟨p % 2, Nat.mod_lt _ (by decide)⟩
theorem regNo_CLK_TICKIN_ERR : regNo Reg.CLK_TICKIN_ERR = 26 := by decide +kernel
theorem regNo_CLK_RTC_HI : regNo Reg.CLK_RTC_HI = 28 := by decide +kernel
theorem regNo_CLK_TICKCNT_HI : regNo Reg.CLK_TICKCNT_HI = 31 := by decide +kernel
theorem regNo_CLK_TICKPER : regNo Reg.CLK_TICKPER = 32 := by decide +kernel
theorem regNo_CLK_TICKPER_NEXT : regNo Reg.CLK_TICKPER_NEXT = 33 := by decide +kernel
theorem regNo_CMD_STAGE : regNo Reg.CMD_STAGE = 36 := by decide +kernel
theorem regNo_CMD_CLAMP : regNo Reg.CMD_CLAMP = 38 := by decide +kernel
theorem regNo_CMD_SQn_BASE (n : Nat) : regNo (Reg.CMD_SQn_BASE n) = 39 :=
  (by decide +kernel : ∀ n : Fin 16, regNo (0x40020100 + 0x20 * n.val) = 39) ⟨n % 16, Nat.mod_lt _ (by decide)⟩
theorem regNo_CMD_SQn_STAT (n : Nat) : regNo (Reg.CMD_SQn_STAT n) = 42 :=
  (by decide +kernel : ∀ n : Fin 16, regNo (0x4002010C + 0x20 * n.val) = 42) ⟨n % 16, Nat.mod_lt _ (by decide)⟩
theorem regNo_CMD_SQn_CNT (n : Nat) : regNo (Reg.CMD_SQn_CNT n) = 43 :=
  (by decide +kernel : ∀ n : Fin 16, regNo (0x40020110 + 0x20 * n.val) = 43) ⟨n % 16, Nat.mod_lt _ (by decide)⟩
theorem regNo_CMD_EQ_STAT : regNo Reg.CMD_EQ_STAT = 50 := by decide +kernel
theorem regNo_ENG_CFG : regNo Reg.ENG_CFG = 52 := by decide +kernel
theorem regNo_ENG_STAT : regNo Reg.ENG_STAT = 53 := by decide +kernel
theorem regNo_ENG_TOLL_REQ : regNo Reg.ENG_TOLL_REQ = 54 := by decide +kernel
theorem regNo_ENG_TOLL_SMAX : regNo Reg.ENG_TOLL_SMAX = 55 := by decide +kernel
theorem regNo_ENG_TOLL_BUD : regNo Reg.ENG_TOLL_BUD = 56 := by decide +kernel
theorem regNo_ENG_TADM : regNo Reg.ENG_TADM = 57 := by decide +kernel
theorem regNo_ENG_CNT : regNo Reg.ENG_CNT = 58 := by decide +kernel
theorem regNo_ENG_RUNMAPj (j : Nat) : regNo (Reg.ENG_RUNMAPj j) = 60 :=
  (by decide +kernel : ∀ j : Fin 4, regNo (0x40030020 + 0x04 * j.val) = 60) ⟨j % 4, Nat.mod_lt _ (by decide)⟩
theorem regNo_ENG_BINDn (n : Nat) : regNo (Reg.ENG_BINDn n) = 61 :=
  (by decide +kernel : ∀ n : Fin 256, regNo (0x40031000 + 0x04 * n.val) = 61) ⟨n % 256, Nat.mod_lt _ (by decide)⟩
theorem regNo_PROT_CMPm_CFG (m : Nat) : regNo (Reg.PROT_CMPm_CFG m) = 107 :=
  (by decide +kernel : ∀ m : Fin 12, regNo (0x40060300 + 0x08 * m.val) = 107) ⟨m % 12, Nat.mod_lt _ (by decide)⟩
theorem regNo_PROT_CMPm_THR (m : Nat) : regNo (Reg.PROT_CMPm_THR m) = 108 :=
  (by decide +kernel : ∀ m : Fin 12, regNo (0x40060304 + 0x08 * m.val) = 108) ⟨m % 12, Nat.mod_lt _ (by decide)⟩
theorem regNo_TPR_STAT : regNo Reg.TPR_STAT = 65 := by decide +kernel
theorem regNo_TPR_CNT_A : regNo Reg.TPR_CNT_A = 66 := by decide +kernel
theorem regNo_TPR_CNT_B : regNo Reg.TPR_CNT_B = 67 := by decide +kernel
theorem regNo_TPR_SALT : regNo Reg.TPR_SALT = 68 := by decide +kernel
theorem regNo_TPR_SIGn_A (n : Nat) : regNo (Reg.TPR_SIGn_A n) = 70 :=
  (by decide +kernel : ∀ n : Fin 128, regNo (0x40041000 + 0x10 * n.val) = 70) ⟨n % 128, Nat.mod_lt _ (by decide)⟩
theorem regNo_TPR_SIGn_B (n : Nat) : regNo (Reg.TPR_SIGn_B n) = 71 :=
  (by decide +kernel : ∀ n : Fin 128, regNo (0x40041004 + 0x10 * n.val) = 71) ⟨n % 128, Nat.mod_lt _ (by decide)⟩
theorem regNo_TPR_SIGn_C (n : Nat) : regNo (Reg.TPR_SIGn_C n) = 72 :=
  (by decide +kernel : ∀ n : Fin 128, regNo (0x40041008 + 0x10 * n.val) = 72) ⟨n % 128, Nat.mod_lt _ (by decide)⟩
theorem regNo_TPR_SIGn_TICK (n : Nat) : regNo (Reg.TPR_SIGn_TICK n) = 73 :=
  (by decide +kernel : ∀ n : Fin 128, regNo (0x4004100C + 0x10 * n.val) = 73) ⟨n % 128, Nat.mod_lt _ (by decide)⟩
theorem regNo_PWM_LDALL : regNo Reg.PWM_LDALL = 75 := by decide +kernel
theorem regNo_PWM_STAT : regNo Reg.PWM_STAT = 76 := by decide +kernel
theorem regNo_TBn_CFG (n : Nat) : regNo (Reg.TBn_CFG n) = 79 :=
  (by decide +kernel : ∀ n : Fin 4, regNo (0x40050100 + 0x20 * n.val) = 79) ⟨n % 4, Nat.mod_lt _ (by decide)⟩
theorem regNo_TBn_PER (n : Nat) : regNo (Reg.TBn_PER n) = 80 :=
  (by decide +kernel : ∀ n : Fin 4, regNo (0x40050104 + 0x20 * n.val) = 80) ⟨n % 4, Nat.mod_lt _ (by decide)⟩
theorem regNo_TBn_STAT (n : Nat) : regNo (Reg.TBn_STAT n) = 82 :=
  (by decide +kernel : ∀ n : Fin 4, regNo (0x4005010C + 0x20 * n.val) = 82) ⟨n % 4, Nat.mod_lt _ (by decide)⟩
theorem regNo_TBn_VTERR (n : Nat) : regNo (Reg.TBn_VTERR n) = 83 :=
  (by decide +kernel : ∀ n : Fin 4, regNo (0x40050110 + 0x20 * n.val) = 83) ⟨n % 4, Nat.mod_lt _ (by decide)⟩
theorem regNo_PAIRk_MASK (k : Nat) : regNo (Reg.PAIRk_MASK k) = 89 :=
  (by decide +kernel : ∀ k : Fin 16, regNo (0x40051014 + 0x40 * k.val) = 89) ⟨k % 16, Nat.mod_lt _ (by decide)⟩
theorem regNo_PAIRk_MASKNX (k : Nat) : regNo (Reg.PAIRk_MASKNX k) = 90 :=
  (by decide +kernel : ∀ k : Fin 16, regNo (0x40051018 + 0x40 * k.val) = 90) ⟨k % 16, Nat.mod_lt _ (by decide)⟩
theorem regNo_PAIRk_LIVE (k : Nat) : regNo (Reg.PAIRk_LIVE k) = 91 :=
  (by decide +kernel : ∀ k : Fin 16, regNo (0x4005101C + 0x40 * k.val) = 91) ⟨k % 16, Nat.mod_lt _ (by decide)⟩
theorem regNo_PAIRk_CARRY (k : Nat) : regNo (Reg.PAIRk_CARRY k) = 92 :=
  (by decide +kernel : ∀ k : Fin 16, regNo (0x40051020 + 0x40 * k.val) = 92) ⟨k % 16, Nat.mod_lt _ (by decide)⟩
theorem regNo_PAIRk_STAT (k : Nat) : regNo (Reg.PAIRk_STAT k) = 93 :=
  (by decide +kernel : ∀ k : Fin 16, regNo (0x40051024 + 0x40 * k.val) = 93) ⟨k % 16, Nat.mod_lt _ (by decide)⟩
theorem regNo_PROT_LATCH_EXT : regNo Reg.PROT_LATCH_EXT = 99 := by decide +kernel
theorem regNo_PROT_LATCH_INT : regNo Reg.PROT_LATCH_INT = 100 := by decide +kernel
theorem regNo_PROT_LEVEL_EXT : regNo Reg.PROT_LEVEL_EXT = 101 := by decide +kernel
theorem regNo_PROT_LEVEL_INT : regNo Reg.PROT_LEVEL_INT = 102 := by decide +kernel
theorem regNo_PROT_CNT : regNo Reg.PROT_CNT = 103 := by decide +kernel
theorem regNo_PROT_USTAT : regNo Reg.PROT_USTAT = 104 := by decide +kernel
theorem regNo_PROT_BRb_STAT (b : Nat) : regNo (Reg.PROT_BRb_STAT b) = 112 :=
  (by decide +kernel : ∀ b : Fin 2, regNo (0x4006040C + 0x20 * b.val) = 112) ⟨b % 2, Nat.mod_lt _ (by decide)⟩
theorem regNo_PROT_DIS_STAT : regNo Reg.PROT_DIS_STAT = 121 := by decide +kernel
theorem regNo_PROT_DIS_EEST : regNo Reg.PROT_DIS_EEST = 122 := by decide +kernel
theorem regNo_PROT_DIS_ERES : regNo Reg.PROT_DIS_ERES = 123 := by decide +kernel
theorem regNo_PROT_DIS_TIME : regNo Reg.PROT_DIS_TIME = 124 := by decide +kernel
theorem regNo_ACQ_STAT : regNo Reg.ACQ_STAT = 127 := by decide +kernel
theorem regNo_ACQ_CMPSUB : regNo Reg.ACQ_CMPSUB = 129 := by decide +kernel
theorem regNo_ACQ_GRPg_URGRES (g : Nat) : regNo (Reg.ACQ_GRPg_URGRES g) = 138 :=
  (by decide +kernel : ∀ g : Fin 4, regNo (0x4007011C + 0x40 * g.val) = 138) ⟨g % 4, Nat.mod_lt _ (by decide)⟩
theorem regNo_ACQ_GRPg_URGVAL (g : Nat) : regNo (Reg.ACQ_GRPg_URGVAL g) = 139 :=
  (by decide +kernel : ∀ g : Fin 4, regNo (0x40070120 + 0x40 * g.val) = 139) ⟨g % 4, Nat.mod_lt _ (by decide)⟩
theorem regNo_ACQ_GRPg_URGTICK (g : Nat) : regNo (Reg.ACQ_GRPg_URGTICK g) = 140 :=
  (by decide +kernel : ∀ g : Fin 4, regNo (0x40070124 + 0x40 * g.val) = 140) ⟨g % 4, Nat.mod_lt _ (by decide)⟩
theorem regNo_ACQ_GRPg_URGOFS (g : Nat) : regNo (Reg.ACQ_GRPg_URGOFS g) = 141 :=
  (by decide +kernel : ∀ g : Fin 4, regNo (0x40070128 + 0x40 * g.val) = 141) ⟨g % 4, Nat.mod_lt _ (by decide)⟩
theorem regNo_ACQ_GRPg_URGSTAT (g : Nat) : regNo (Reg.ACQ_GRPg_URGSTAT g) = 142 :=
  (by decide +kernel : ∀ g : Fin 4, regNo (0x4007012C + 0x40 * g.val) = 142) ⟨g % 4, Nat.mod_lt _ (by decide)⟩
theorem regNo_ACQ_GRPg_DIAGCNT (g : Nat) : regNo (Reg.ACQ_GRPg_DIAGCNT g) = 143 :=
  (by decide +kernel : ∀ g : Fin 4, regNo (0x40070130 + 0x40 * g.val) = 143) ⟨g % 4, Nat.mod_lt _ (by decide)⟩
theorem regNo_ACQ_INk_LAST (k : Nat) : regNo (Reg.ACQ_INk_LAST k) = 148 :=
  (by decide +kernel : ∀ k : Fin 48, regNo (0x4007080C + 0x10 * k.val) = 148) ⟨k % 48, Nat.mod_lt _ (by decide)⟩
theorem regNo_ACQ_Ea_e_RES (a e : Nat) : regNo (Reg.ACQ_Ea_e_RES a e) = 149 :=
  (by decide +kernel : ∀ a : Fin 12, ∀ e : Fin 16, regNo (0x40072000 + 0x100 * a.val + 0x10 * e.val) = 149) ⟨a % 12, Nat.mod_lt _ (by decide)⟩ ⟨e % 16, Nat.mod_lt _ (by decide)⟩
theorem regNo_ACQ_Ea_e_WSUM (a e : Nat) : regNo (Reg.ACQ_Ea_e_WSUM a e) = 150 :=
  (by decide +kernel : ∀ a : Fin 12, ∀ e : Fin 16, regNo (0x40072004 + 0x100 * a.val + 0x10 * e.val) = 150) ⟨a % 12, Nat.mod_lt _ (by decide)⟩ ⟨e % 16, Nat.mod_lt _ (by decide)⟩
theorem regNo_ACQ_Ea_e_WCNT (a e : Nat) : regNo (Reg.ACQ_Ea_e_WCNT a e) = 151 :=
  (by decide +kernel : ∀ a : Fin 12, ∀ e : Fin 16, regNo (0x40072008 + 0x100 * a.val + 0x10 * e.val) = 151) ⟨a % 12, Nat.mod_lt _ (by decide)⟩ ⟨e % 16, Nat.mod_lt _ (by decide)⟩
theorem regNo_ACQ_Ea_e_WMM (a e : Nat) : regNo (Reg.ACQ_Ea_e_WMM a e) = 152 :=
  (by decide +kernel : ∀ a : Fin 12, ∀ e : Fin 16, regNo (0x4007200C + 0x100 * a.val + 0x10 * e.val) = 152) ⟨a % 12, Nat.mod_lt _ (by decide)⟩ ⟨e % 16, Nat.mod_lt _ (by decide)⟩
theorem regNo_ACQ_DSc_WIN (c : Nat) : regNo (Reg.ACQ_DSc_WIN c) = 158 :=
  (by decide +kernel : ∀ c : Fin 12, regNo (0x40073014 + 0x20 * c.val) = 158) ⟨c % 12, Nat.mod_lt _ (by decide)⟩
theorem regNo_ACQ_DSc_STAT (c : Nat) : regNo (Reg.ACQ_DSc_STAT c) = 159 :=
  (by decide +kernel : ∀ c : Fin 12, regNo (0x40073018 + 0x20 * c.val) = 159) ⟨c % 12, Nat.mod_lt _ (by decide)⟩
theorem regNo_ACQ_DSc_SINC (c : Nat) : regNo (Reg.ACQ_DSc_SINC c) = 160 :=
  (by decide +kernel : ∀ c : Fin 12, regNo (0x4007301C + 0x20 * c.val) = 160) ⟨c % 12, Nat.mod_lt _ (by decide)⟩
theorem regNo_POS_SENSVn_CFG (n : Nat) : regNo (Reg.POS_SENSVn_CFG n) = 167 :=
  (by decide +kernel : ∀ n : Fin 2, regNo (0x40080010 + 0x04 * n.val) = 167) ⟨n % 2, Nat.mod_lt _ (by decide)⟩
theorem regNo_POS_CHc_CNT (c : Nat) : regNo (Reg.POS_CHc_CNT c) = 177 :=
  (by decide +kernel : ∀ c : Fin 2, regNo (0x40080124 + 0x100 * c.val) = 177) ⟨c % 2, Nat.mod_lt _ (by decide)⟩
theorem regNo_POS_CHc_STAT (c : Nat) : regNo (Reg.POS_CHc_STAT c) = 178 :=
  (by decide +kernel : ∀ c : Fin 2, regNo (0x40080128 + 0x100 * c.val) = 178) ⟨c % 2, Nat.mod_lt _ (by decide)⟩
theorem regNo_POS_CHc_ERR (c : Nat) : regNo (Reg.POS_CHc_ERR c) = 179 :=
  (by decide +kernel : ∀ c : Fin 2, regNo (0x4008012C + 0x100 * c.val) = 179) ⟨c % 2, Nat.mod_lt _ (by decide)⟩
theorem regNo_POS_CHc_ZCNT (c : Nat) : regNo (Reg.POS_CHc_ZCNT c) = 180 :=
  (by decide +kernel : ∀ c : Fin 2, regNo (0x40080130 + 0x100 * c.val) = 180) ⟨c % 2, Nat.mod_lt _ (by decide)⟩
theorem regNo_POS_CHc_SLOW (c : Nat) : regNo (Reg.POS_CHc_SLOW c) = 181 :=
  (by decide +kernel : ∀ c : Fin 2, regNo (0x40080134 + 0x100 * c.val) = 181) ⟨c % 2, Nat.mod_lt _ (by decide)⟩
theorem regNo_FLD_MCm_STAT (m : Nat) : regNo (Reg.FLD_MCm_STAT m) = 192 :=
  (by decide +kernel : ∀ m : Fin 2, regNo (0x4009011C + 0x80 * m.val) = 192) ⟨m % 2, Nat.mod_lt _ (by decide)⟩
theorem regNo_FLD_EVs_ANG (s : Nat) : regNo (Reg.FLD_EVs_ANG s) = 207 :=
  (by decide +kernel : ∀ s : Fin 16, regNo (0x40090800 + 0x10 * s.val) = 207) ⟨s % 16, Nat.mod_lt _ (by decide)⟩
theorem regNo_FLD_EVs_ACT (s : Nat) : regNo (Reg.FLD_EVs_ACT s) = 208 :=
  (by decide +kernel : ∀ s : Fin 16, regNo (0x40090804 + 0x10 * s.val) = 208) ⟨s % 16, Nat.mod_lt _ (by decide)⟩
theorem regNo_FLD_EVs_STAT (s : Nat) : regNo (Reg.FLD_EVs_STAT s) = 209 :=
  (by decide +kernel : ∀ s : Fin 16, regNo (0x40090808 + 0x10 * s.val) = 209) ⟨s % 16, Nat.mod_lt _ (by decide)⟩
theorem regNo_WGH_MCm_CFG (m : Nat) : regNo (Reg.WGH_MCm_CFG m) = 212 :=
  (by decide +kernel : ∀ m : Fin 2, regNo (0x400A0100 + 0x80 * m.val) = 212) ⟨m % 2, Nat.mod_lt _ (by decide)⟩
theorem regNo_WGH_MCm_STAT (m : Nat) : regNo (Reg.WGH_MCm_STAT m) = 222 :=
  (by decide +kernel : ∀ m : Fin 2, regNo (0x400A0140 + 0x80 * m.val) = 222) ⟨m % 2, Nat.mod_lt _ (by decide)⟩
theorem regNo_WGH_MCm_CNT (m : Nat) : regNo (Reg.WGH_MCm_CNT m) = 223 :=
  (by decide +kernel : ∀ m : Fin 2, regNo (0x400A0144 + 0x80 * m.val) = 223) ⟨m % 2, Nat.mod_lt _ (by decide)⟩
theorem regNo_ISK_LINKl_CFG (l : Nat) : regNo (Reg.ISK_LINKl_CFG l) = 229 :=
  (by decide +kernel : ∀ l : Fin 2, regNo (0x400B0100 + 0x40 * l.val) = 229) ⟨l % 2, Nat.mod_lt _ (by decide)⟩
theorem regNo_ISK_LINKl_STAT (l : Nat) : regNo (Reg.ISK_LINKl_STAT l) = 230 :=
  (by decide +kernel : ∀ l : Fin 2, regNo (0x400B0104 + 0x40 * l.val) = 230) ⟨l % 2, Nat.mod_lt _ (by decide)⟩
theorem regNo_ISK_LINKl_CNT (l : Nat) : regNo (Reg.ISK_LINKl_CNT l) = 231 :=
  (by decide +kernel : ∀ l : Fin 2, regNo (0x400B0108 + 0x40 * l.val) = 231) ⟨l % 2, Nat.mod_lt _ (by decide)⟩
theorem regNo_ISK_NODEl_n (l n : Nat) : regNo (Reg.ISK_NODEl_n l n) = 233 :=
  (by decide +kernel : ∀ l : Fin 2, ∀ n : Fin 16, regNo (0x400B1000 + 0x100 * l.val + 0x04 * n.val) = 233) ⟨l % 2, Nat.mod_lt _ (by decide)⟩ ⟨n % 16, Nat.mod_lt _ (by decide)⟩
theorem regNo_THM_STAT : regNo Reg.THM_STAT = 236 := by decide +kernel
theorem regNo_THM_CNT : regNo Reg.THM_CNT = 238 := by decide +kernel
theorem regNo_THM_CHIP_P : regNo Reg.THM_CHIP_P = 241 := by decide +kernel
theorem regNo_THM_CHIP_T : regNo Reg.THM_CHIP_T = 242 := by decide +kernel
theorem regNo_THM_LEGk_TSW (k : Nat) : regNo (Reg.THM_LEGk_TSW k) = 246 :=
  (by decide +kernel : ∀ k : Fin 8, regNo (0x400C0104 + 0x20 * k.val) = 246) ⟨k % 8, Nat.mod_lt _ (by decide)⟩
theorem regNo_THM_LEGk_TDI (k : Nat) : regNo (Reg.THM_LEGk_TDI k) = 247 :=
  (by decide +kernel : ∀ k : Fin 8, regNo (0x400C0108 + 0x20 * k.val) = 247) ⟨k % 8, Nat.mod_lt _ (by decide)⟩
theorem regNo_THM_LEGk_PSW (k : Nat) : regNo (Reg.THM_LEGk_PSW k) = 248 :=
  (by decide +kernel : ∀ k : Fin 8, regNo (0x400C010C + 0x20 * k.val) = 248) ⟨k % 8, Nat.mod_lt _ (by decide)⟩
theorem regNo_THM_LEGk_PDI (k : Nat) : regNo (Reg.THM_LEGk_PDI k) = 249 :=
  (by decide +kernel : ∀ k : Fin 8, regNo (0x400C0110 + 0x20 * k.val) = 249) ⟨k % 8, Nat.mod_lt _ (by decide)⟩
theorem regNo_THM_ANCHa_T (a : Nat) : regNo (Reg.THM_ANCHa_T a) = 251 :=
  (by decide +kernel : ∀ a : Fin 8, regNo (0x400C0240 + 0x04 * a.val) = 251) ⟨a % 8, Nat.mod_lt _ (by decide)⟩
theorem regNo_CAN_CTRL (c : Nat) : regNo (Reg.CAN_CTRL c) = 255 :=
  (by decide +kernel : ∀ c : Fin 4, regNo (0x400D0000 + 0x4000 * c.val) = 255) ⟨c % 4, Nat.mod_lt _ (by decide)⟩
theorem regNo_CAN_STAT (c : Nat) : regNo (Reg.CAN_STAT c) = 256 :=
  (by decide +kernel : ∀ c : Fin 4, regNo (0x400D0004 + 0x4000 * c.val) = 256) ⟨c % 4, Nat.mod_lt _ (by decide)⟩
theorem regNo_CAN_NBT (c : Nat) : regNo (Reg.CAN_NBT c) = 258 :=
  (by decide +kernel : ∀ c : Fin 4, regNo (0x400D000C + 0x4000 * c.val) = 258) ⟨c % 4, Nat.mod_lt _ (by decide)⟩
theorem regNo_CAN_DBT (c : Nat) : regNo (Reg.CAN_DBT c) = 259 :=
  (by decide +kernel : ∀ c : Fin 4, regNo (0x400D0010 + 0x4000 * c.val) = 259) ⟨c % 4, Nat.mod_lt _ (by decide)⟩
theorem regNo_CAN_ERR (c : Nat) : regNo (Reg.CAN_ERR c) = 262 :=
  (by decide +kernel : ∀ c : Fin 4, regNo (0x400D001C + 0x4000 * c.val) = 262) ⟨c % 4, Nat.mod_lt _ (by decide)⟩
theorem regNo_CAN_CNT (c : Nat) : regNo (Reg.CAN_CNT c) = 263 :=
  (by decide +kernel : ∀ c : Fin 4, regNo (0x400D0020 + 0x4000 * c.val) = 263) ⟨c % 4, Nat.mod_lt _ (by decide)⟩
theorem regNo_CAN_CNT2 (c : Nat) : regNo (Reg.CAN_CNT2 c) = 264 :=
  (by decide +kernel : ∀ c : Fin 4, regNo (0x400D0024 + 0x4000 * c.val) = 264) ⟨c % 4, Nat.mod_lt _ (by decide)⟩
theorem regNo_CAN_TXBASE (c : Nat) : regNo (Reg.CAN_TXBASE c) = 265 :=
  (by decide +kernel : ∀ c : Fin 4, regNo (0x400D0040 + 0x4000 * c.val) = 265) ⟨c % 4, Nat.mod_lt _ (by decide)⟩
theorem regNo_CAN_TXIDX (c : Nat) : regNo (Reg.CAN_TXIDX c) = 267 :=
  (by decide +kernel : ∀ c : Fin 4, regNo (0x400D0048 + 0x4000 * c.val) = 267) ⟨c % 4, Nat.mod_lt _ (by decide)⟩
theorem regNo_CAN_RXBASE (c : Nat) : regNo (Reg.CAN_RXBASE c) = 268 :=
  (by decide +kernel : ∀ c : Fin 4, regNo (0x400D004C + 0x4000 * c.val) = 268) ⟨c % 4, Nat.mod_lt _ (by decide)⟩
theorem regNo_CAN_RXIDX (c : Nat) : regNo (Reg.CAN_RXIDX c) = 270 :=
  (by decide +kernel : ∀ c : Fin 4, regNo (0x400D0054 + 0x4000 * c.val) = 270) ⟨c % 4, Nat.mod_lt _ (by decide)⟩
theorem regNo_CAN_BUF (c : Nat) : regNo (Reg.CAN_BUF c) = 271 :=
  (by decide +kernel : ∀ c : Fin 4, regNo (0x400D0058 + 0x4000 * c.val) = 271) ⟨c % 4, Nat.mod_lt _ (by decide)⟩
theorem regNo_CAN_RXBUF (c : Nat) : regNo (Reg.CAN_RXBUF c) = 272 :=
  (by decide +kernel : ∀ c : Fin 4, regNo (0x400D005C + 0x4000 * c.val) = 272) ⟨c % 4, Nat.mod_lt _ (by decide)⟩
theorem regNo_CAN_TTSTAT (c : Nat) : regNo (Reg.CAN_TTSTAT c) = 278 :=
  (by decide +kernel : ∀ c : Fin 4, regNo (0x400D0108 + 0x4000 * c.val) = 278) ⟨c % 4, Nat.mod_lt _ (by decide)⟩
theorem regNo_CAN_SPSTAT : regNo Reg.CAN_SPSTAT = 290 := by decide +kernel
theorem regNo_ETH_VT_RATE : regNo Reg.ETH_VT_RATE = 295 := by decide +kernel
theorem regNo_ETH_TVT_TICK : regNo Reg.ETH_TVT_TICK = 300 := by decide +kernel
theorem regNo_ETH_TVT_SEC : regNo Reg.ETH_TVT_SEC = 301 := by decide +kernel
theorem regNo_ETH_TVT_NS : regNo Reg.ETH_TVT_NS = 302 := by decide +kernel
theorem regNo_ETH_MDIO : regNo Reg.ETH_MDIO = 303 := by decide +kernel
theorem regNo_ETH_Pp_STAT (p : Nat) : regNo (Reg.ETH_Pp_STAT p) = 305 :=
  (by decide +kernel : ∀ p : Fin 2, regNo (0x400E0104 + 0x100 * p.val) = 305) ⟨p % 2, Nat.mod_lt _ (by decide)⟩
theorem regNo_ETH_Pp_TXBASE (p : Nat) : regNo (Reg.ETH_Pp_TXBASE p) = 306 :=
  (by decide +kernel : ∀ p : Fin 2, regNo (0x400E0108 + 0x100 * p.val) = 306) ⟨p % 2, Nat.mod_lt _ (by decide)⟩
theorem regNo_ETH_Pp_RXBASE (p : Nat) : regNo (Reg.ETH_Pp_RXBASE p) = 307 :=
  (by decide +kernel : ∀ p : Fin 2, regNo (0x400E010C + 0x100 * p.val) = 307) ⟨p % 2, Nat.mod_lt _ (by decide)⟩
theorem regNo_ETH_Pp_BUF (p : Nat) : regNo (Reg.ETH_Pp_BUF p) = 309 :=
  (by decide +kernel : ∀ p : Fin 2, regNo (0x400E0114 + 0x100 * p.val) = 309) ⟨p % 2, Nat.mod_lt _ (by decide)⟩
theorem regNo_ETH_Pp_IDX (p : Nat) : regNo (Reg.ETH_Pp_IDX p) = 311 :=
  (by decide +kernel : ∀ p : Fin 2, regNo (0x400E011C + 0x100 * p.val) = 311) ⟨p % 2, Nat.mod_lt _ (by decide)⟩
theorem regNo_ETH_Pp_CNT (p : Nat) : regNo (Reg.ETH_Pp_CNT p) = 313 :=
  (by decide +kernel : ∀ p : Fin 2, regNo (0x400E0124 + 0x100 * p.val) = 313) ⟨p % 2, Nat.mod_lt _ (by decide)⟩
theorem regNo_CHK_Un_SEED (n : Nat) : regNo (Reg.CHK_Un_SEED n) = 321 :=
  (by decide +kernel : ∀ n : Fin 4, regNo (0x400F0104 + 0x10 * n.val) = 321) ⟨n % 4, Nat.mod_lt _ (by decide)⟩
theorem regNo_CHK_SCs_RES (s : Nat) : regNo (Reg.CHK_SCs_RES s) = 330 :=
  (by decide +kernel : ∀ s : Fin 8, regNo (0x400F0214 + 0x20 * s.val) = 330) ⟨s % 8, Nat.mod_lt _ (by decide)⟩
theorem regNo_CHK_SCs_STAT (s : Nat) : regNo (Reg.CHK_SCs_STAT s) = 331 :=
  (by decide +kernel : ∀ s : Fin 8, regNo (0x400F0218 + 0x20 * s.val) = 331) ⟨s % 8, Nat.mod_lt _ (by decide)⟩
theorem regNo_BST_STAT : regNo Reg.BST_STAT = 334 := by decide +kernel
theorem regNo_BST_COND : regNo Reg.BST_COND = 336 := by decide +kernel
theorem regNo_BST_CNT : regNo Reg.BST_CNT = 337 := by decide +kernel
theorem regNo_BST_REPAIR : regNo Reg.BST_REPAIR = 338 := by decide +kernel
theorem regNo_BST_NONCEi (i : Nat) : regNo (Reg.BST_NONCEi i) = 339 :=
  (by decide +kernel : ∀ i : Fin 4, regNo (0x40100020 + 0x04 * i.val) = 339) ⟨i % 4, Nat.mod_lt _ (by decide)⟩
theorem regNo_BST_LCCNT : regNo Reg.BST_LCCNT = 340 := by decide +kernel
theorem regNo_BST_Uu (u : Nat) : regNo (Reg.BST_Uu u) = 344 :=
  (by decide +kernel : ∀ u : Fin 256, regNo (0x40100100 + 0x04 * u.val) = 344) ⟨u % 256, Nat.mod_lt _ (by decide)⟩
theorem regNo_HLD_STAT : regNo Reg.HLD_STAT = 347 := by decide +kernel
theorem regNo_HLD_VHOLD : regNo Reg.HLD_VHOLD = 349 := by decide +kernel
theorem regNo_HLD_CAP : regNo Reg.HLD_CAP = 350 := by decide +kernel
theorem regNo_HLD_ESR : regNo Reg.HLD_ESR = 351 := by decide +kernel
theorem regNo_HLD_ENERGY : regNo Reg.HLD_ENERGY = 352 := by decide +kernel
theorem regNo_HLD_HEAD : regNo Reg.HLD_HEAD = 355 := by decide +kernel
theorem regNo_HLD_SECSEQ : regNo Reg.HLD_SECSEQ = 356 := by decide +kernel
theorem regNo_HLD_DURABLE : regNo Reg.HLD_DURABLE = 357 := by decide +kernel
theorem regNo_HLD_CNT : regNo Reg.HLD_CNT = 358 := by decide +kernel
theorem regNo_HLD_RCNT : regNo Reg.HLD_RCNT = 359 := by decide +kernel
theorem regNo_PWR_STATE : regNo Reg.PWR_STATE = 361 := by decide +kernel
theorem regNo_PWR_WAKESTAT : regNo Reg.PWR_WAKESTAT = 366 := by decide +kernel
theorem regNo_PWR_PARKTIME : regNo Reg.PWR_PARKTIME = 367 := by decide +kernel
theorem regNo_HIC_C1_CTRL : regNo Reg.HIC_C1_CTRL = 371 := by decide +kernel
theorem regNo_HIC_ECC : regNo Reg.HIC_ECC = 374 := by decide +kernel
theorem regNo_HIC_ECCADR : regNo Reg.HIC_ECCADR = 375 := by decide +kernel
theorem regNo_HIC_MTIME_HI : regNo Reg.HIC_MTIME_HI = 382 := by decide +kernel
theorem regNo_HIC_WDw_CFG (w : Nat) : regNo (Reg.HIC_WDw_CFG w) = 386 :=
  (by decide +kernel : ∀ w : Fin 2, regNo (0x40130400 + 0x20 * w.val) = 386) ⟨w % 2, Nat.mod_lt _ (by decide)⟩
theorem regNo_HIC_WDw_WIN (w : Nat) : regNo (Reg.HIC_WDw_WIN w) = 387 :=
  (by decide +kernel : ∀ w : Fin 2, regNo (0x40130404 + 0x20 * w.val) = 387) ⟨w % 2, Nat.mod_lt _ (by decide)⟩
theorem regNo_HIC_WDw_STAT (w : Nat) : regNo (Reg.HIC_WDw_STAT w) = 389 :=
  (by decide +kernel : ∀ w : Fin 2, regNo (0x4013040C + 0x20 * w.val) = 389) ⟨w % 2, Nat.mod_lt _ (by decide)⟩
theorem regNo_HIC_SEMn (n : Nat) : regNo (Reg.HIC_SEMn n) = 390 :=
  (by decide +kernel : ∀ n : Fin 16, regNo (0x40130500 + 0x04 * n.val) = 390) ⟨n % 16, Nat.mod_lt _ (by decide)⟩
theorem regNo_XSP_CFG : regNo Reg.XSP_CFG = 392 := by decide +kernel
theorem regNo_XSP_STAT : regNo Reg.XSP_STAT = 395 := by decide +kernel
theorem regNo_XSP_PROT : regNo Reg.XSP_PROT = 396 := by decide +kernel
theorem regNo_XSP_DATA (i : Nat) : regNo (Reg.XSP_DATA i) = 398 :=
  (by decide +kernel : ∀ i : Fin 64, regNo (0x40140100 + 0x04 * i.val) = 398) ⟨i % 64, Nat.mod_lt _ (by decide)⟩
theorem regNo_GPIO_IN : regNo Reg.GPIO_IN = 402 := by decide +kernel
theorem regNo_GPIO_IRQSTAT : regNo Reg.GPIO_IRQSTAT = 404 := by decide +kernel

end Sys2Proof.Machine
end

