-- ==== Sys2Proof/Laws/FrameBase.lean ====
section
/-! SUPPORT. Frames of the operations that every meaning is built from, and the rules that put frames together along
a definition. -/

set_option Elab.async false

set_option exponentiation.threshold 512

namespace Sys2Proof.Machine

variable {K : Nat} {s t : State}

/-! ### Rules -/

theorem Frame.cut {u : State} (h : Frame K s t) (k : Frame K s t → Frame K s u) : Frame K s u := k h

/-- A state taken out of a pair. -/
theorem Frame.cutL {α : Type} {G : Prop} {d : State × α} {a : α} {t : State} (e : d = (t, a)) (h : FrameL K s d)
    (k : Frame K s t → G) : G := k (by have := h; rw [e] at this; exact this)
theorem Frame.cutR {α : Type} {G : Prop} {d : α × State} {a : α} {t : State} (e : d = (a, t)) (h : FrameR K s d)
    (k : Frame K s t → G) : G := k (by have := h; rw [e] at this; exact this)
theorem Frame.cutS {G : Prop} {t : State} (h : Frame K s t) (k : Frame K s t → G) : G := k h

theorem Frame.iteOn {t u : State} {c : Prop} [Decidable c] (h1 : c → Frame K s t) (h2 : ¬ c → Frame K s u) :
    Frame K s (if c then t else u) := by
  split
  · next h => exact h1 h
  · next h => exact h2 h

theorem elemOf_addr {a base stride count i : Nat} (h : elemOf a base stride count = some i) :
    i < count ∧ a = base + stride * i := by
  unfold elemOf at h
  split at h
  · next hc =>
    obtain ⟨h1, h2, h3⟩ := hc
    cases h
    refine ⟨h3, ?_⟩
    have := Nat.div_add_mod (a - base) stride
    omega
  · cases h

/-- A fold whose steps are known to be for elements of the list. -/
theorem Frame.foldlOn {K : Nat} {α : Type} {s t : State} {f : State → α → State} {l : List α} (h : Frame K s t)
    (hf : ∀ u x, x ∈ l → Frame K s u → Frame K s (f u x)) : Frame K s (l.foldl f t) := by
  induction l generalizing t with
  | nil => exact h
  | cons x l ih => exact ih (hf t x (by simp) h) fun u y hy => hf u y (by simp [hy])

/-! ### Refusals: what a report changes, whatever state it is made in -/

/-- A report changes nothing outside the mask. -/
def FrameF (K : Nat) (r : State → State) : Prop := ∀ u, Frame K u (r u)

theorem FrameF.id : FrameF K id := fun u => Frame.refl K u
theorem FrameF.widen {F : Nat} {r : State → State} (h : FrameF F r) (hF : Within F K := by decide) : FrameF K r :=
  fun u => (h u).widen hF
theorem FrameF.use {r : State → State} (h : FrameF K r) (ht : Frame K s t) : Frame K s (r t) :=
  Frame.step (h t) ht (Nat.and_self K)

/-- A verdict: the state it leaves, or the report of a refusal. -/
def FrameV (K : Nat) (s : State) : Verdict → Prop
  | .ok t _ _ _ => Frame K s t
  | .refused _ r => FrameF K r

theorem FrameV.ok {i c : Bool} {v : Option Word} (h : Frame K s t) : FrameV K s (.ok t i c v) := h
theorem FrameV.done (h : Frame K s t) : FrameV K s (.done t) := h
theorem FrameV.doneClamp {c : Bool} (h : Frame K s t) : FrameV K s (.doneClamp t c) := h
theorem FrameV.refused {l : Bool} {r : State → State} (h : FrameF K r) : FrameV K s (.refused l r) := h
theorem FrameV.noWith {r : State → State} (h : FrameF K r) : FrameV K s (.noWith r) := h
theorem FrameV.no : FrameV K s .no := FrameF.id
theorem FrameV.ite {x y : Verdict} {c : Prop} [Decidable c] (h1 : FrameV K s x) (h2 : FrameV K s y) :
    FrameV K s (if c then x else y) := by split <;> assumption
theorem FrameV.step {F : Nat} {x : Verdict} (hf : FrameV F t x) (h : Frame K s t) (hF : Within F K := by decide) :
    FrameV K s x := by
  cases x with
  | ok u _ _ _ => exact Frame.step hf h hF
  | refused _ r => exact FrameF.widen hf hF

/-- A refusal that may be. -/
def FrameP (K : Nat) (_ : State) (o : Option (State → State)) : Prop := ∀ r, o = some r → FrameF K r

theorem FrameP.some {r : State → State} (h : FrameF K r) : FrameP K s (some r) := by rintro _ ⟨rfl⟩; exact h
theorem FrameP.none : FrameP K s none := by rintro _ ⟨⟩
theorem FrameP.map {α : Type} {f : α → State → State} {o : Option α} (h : ∀ k, FrameF K (f k)) :
    FrameP K s (o.map f) := by
  cases o with
  | none => exact FrameP.none
  | some k => exact FrameP.some (h k)
theorem FrameP.ite {x y : Option (State → State)} {c : Prop} [Decidable c] (h1 : FrameP K s x) (h2 : FrameP K s y) :
    FrameP K s (if c then x else y) := by split <;> assumption
theorem FrameP.step {F : Nat} {x : Option (State → State)} (hf : FrameP F t x) (_ : Frame K s t)
    (hF : Within F K := by decide) : FrameP K s x := fun r e => (hf r e).widen hF
theorem Frame.cutP {G : Prop} {o : Option (State → State)} {r : State → State} (e : o = .some r) (h : FrameP K s o)
    (k : FrameF K r → G) : G := k (h r e)

/-- A new state, or a refusal. -/
def FrameE (K : Nat) (s : State) : State ⊕ (State → State) → Prop
  | .inl t => Frame K s t
  | .inr r => FrameF K r

theorem FrameE.inl (h : Frame K s t) : FrameE K s (.inl t) := h
theorem FrameE.inr {r : State → State} (h : FrameF K r) : FrameE K s (.inr r) := h
theorem FrameE.ite {x y : State ⊕ (State → State)} {c : Prop} [Decidable c] (h1 : FrameE K s x) (h2 : FrameE K s y) :
    FrameE K s (if c then x else y) := by split <;> assumption
theorem FrameE.step {F : Nat} {x : State ⊕ (State → State)} (hf : FrameE F t x) (h : Frame K s t)
    (hF : Within F K := by decide) : FrameE K s x := by
  cases x with
  | inl u => exact Frame.step hf h hF
  | inr r => exact FrameF.widen hf hF
theorem Frame.cutE {G : Prop} {o : State ⊕ (State → State)} (e : o = .inl t) (h : FrameE K s o)
    (k : Frame K s t → G) : G := k (by have := h; rw [e] at this; exact this)
theorem Frame.cutER {G : Prop} {o : State ⊕ (State → State)} {r : State → State} (e : o = .inr r) (h : FrameE K s o)
    (k : FrameF K r → G) : G := k (by have := h; rw [e] at this; exact this)

theorem FrameV.map {f : State → State} {v : Verdict} (h : FrameV K s v) (hf : ∀ u, Frame K s u → Frame K s (f u)) :
    FrameV K s (v.map f) := by
  cases v with
  | ok u _ _ _ => exact hf u h
  | refused _ r => exact h

theorem FrameV.foldl {α : Type} {f : Verdict → α → Verdict} {l : List α} {v : Verdict} (h : FrameV K s v)
    (hf : ∀ u x, FrameV K s u → FrameV K s (f u x)) : FrameV K s (l.foldl f v) := by
  induction l generalizing v with
  | nil => exact h
  | cons x l ih => exact ih (hf v x h)
theorem Frame.cutV {G : Prop} {o : Verdict} {i c : Bool} {v : Option Word} (e : o = .ok t i c v) (h : FrameV K s o)
    (k : Frame K s t → G) : G := k (by have := h; rw [e] at this; exact this)
theorem Frame.cutVR {G : Prop} {o : Verdict} {l : Bool} {r : State → State} (e : o = .refused l r) (h : FrameV K s o)
    (k : FrameF K r → G) : G := k (by have := h; rw [e] at this; exact this)

theorem Within.trans {A B C : Nat} (h1 : Within A B) (h2 : Within B C) : Within A C := by
  show A &&& C = A
  rw [← show A &&& B = A from h1, Nat.and_assoc, show B &&& C = B from h2]

/-- The mask of one bit. -/
abbrev maskBit (k : Nat) : Nat := 1 <<< k

/-! ### Base operations -/

def Foot.at : Nat := maskBit bit_now
theorem State.at_frame {n : Nat} : Frame Foot.at s (s.at n) := (Frame.refl _ s).at

def Foot.publish : Nat := maskBit bit_board
theorem State.publish_frame {a : Nat} {w : Word} : Frame Foot.publish s (s.publish a w) := (Frame.refl _ s).publish

/-- The next PSN, which is never 0. -/
theorem Frame.setPsn {w : Word} (h : Frame K s t) (hw : w ≠ 0) (hK : K.testBit psnNo = true := by decide) :
    Frame K s (t.setReg Reg.CMD_PSN w) := by
  have other : ∀ b, regNo b ≠ psnNo → (t.setReg Reg.CMD_PSN w).reg b = t.reg b := by
    intro b hb
    rw [State.reg_setReg, if_neg]
    rintro rfl
    exact hb psnNo_eq
  exact { h with
    inv := fun hs => by
      obtain ⟨c1, c2, c3, c4, _⟩ := h.inv hs
      refine ⟨Store.wf_set _ _ _ _ c1, c2, c3, c4, ?_⟩
      show (t.setReg Reg.CMD_PSN w).reg Reg.CMD_PSN ≠ 0
      rw [State.reg_setReg, if_pos rfl]
      exact hw
    regs := fun b hb => by
      show (t.setReg Reg.CMD_PSN w).reg b = _
      rw [other b (by intro e; rw [e, hK] at hb; cases hb)]
      exact h.regs b hb
    inRecords := fun hs b hb => h.inRecords hs b
      (inRecords_congr (s := t) (t := t.setReg Reg.CMD_PSN w) (fun _ => rfl) (fun c hc => other c (by
        intro e; rw [e] at hc; revert hc; decide)) b hb) }

theorem psnAfter_ne (p : Word) : psnAfter p ≠ 0 := by
  unfold psnAfter
  split
  · decide
  · intro h; apply_assumption; bv_omega

def Foot.takePsn : Nat := maskBit psnNo ||| maskBit bit_cmdRest
theorem State.takePsn_frame : FrameR Foot.takePsn s s.takePsn := by
  unfold State.takePsn
  have h0 := Frame.refl Foot.takePsn s
  exact FrameR.mk (Frame.setPsn { h0 with cmdRest := fun hb => absurd hb (by decide) } (psnAfter_ne _))

/-- An address within an area of the mask. -/
theorem memFree_page {i : Nat} (hK : K.testBit bit_page = true) (h : inPage i) : ¬ MemFree K s i :=
  fun f => f.page hK h
theorem memFree_sram {i : Nat} (hK : K.testBit bit_sram = true) (h : inSram i) : ¬ MemFree K s i :=
  fun f => f.sram hK h

/-! ### Record rings -/

theorem tabGet_tabSet {α : Type} [DecidableEq α] (d : α) (t : List (Nat × α)) (i j : Nat) (v : α) :
    tabGet d (tabSet d t i v) j = if j = i then v else tabGet d t j := Store.get_set _ _ _ _ _

theorem State.ring_setRing (s : State) (m n : Nat) (r : RecRing) :
    (s.setRing m r).ring n = if n = m then r else s.ring n := tabGet_tabSet _ _ _ _ _

/-- A record ring changed so that what it holds stays within its buffer. -/
theorem Frame.setRing {m : Nat} {r : RecRing} (h : Frame K s t)
    (hr : r.pi % 2 ^ 12 + 1 ≤ max (t.ringSize m) ((t.ring m).pi % 2 ^ 12 + 1))
    (hK : K.testBit bit_rings = true := by decide) : Frame K s (t.setRing m r) :=
  { h with
    inRecords := fun hs a ha => by
      refine h.inRecords hs a ?_
      obtain ⟨n, hn, h1, h2⟩ := (State.inRecords_iff _ _).2 ha
      refine ⟨n, hn, h1, Nat.lt_of_lt_of_le h2 ?_⟩
      show t.recordBase n + 16 * max (t.ringSize n) (((t.setRing m r).ring n).pi % 2 ^ 12 + 1) ≤
        t.recordBase n + 16 * max (t.ringSize n) ((t.ring n).pi % 2 ^ 12 + 1)
      rw [State.ring_setRing]
      split
      · next e => subst e; omega
      · omega
    rings := fun hb => absurd hb (by rw [hK]; decide) }

def Foot.writeRecord : Nat :=
  maskBit bit_records ||| maskBit bit_page ||| maskBit bit_rings ||| maskBit bit_hic

theorem State.pi_word_fabricWords (s : State) (off : Nat) (ws : List Word) (m : Nat) :
    (s.fabricWords off ws).ring m = s.ring m ∧ (s.fabricWords off ws).ringSize m = s.ringSize m := by
  have key : ∀ (bs : List Byte) (u : State) (a : Nat), (u.setBytes a bs).cmd = u.cmd ∧ (u.setBytes a bs).regs = u.regs := by
    intro bs
    induction bs with
    | nil => intro u a; exact ⟨rfl, rfl⟩
    | cons b bs ih => intro u a; exact ih _ _
  have keys : ∀ (ws : List Word) (u : State) (a : Nat), (u.setWords a ws).cmd = u.cmd ∧ (u.setWords a ws).regs = u.regs := by
    intro ws
    induction ws with
    | nil => intro u a; exact ⟨rfl, rfl⟩
    | cons w ws ih =>
      intro u a
      obtain ⟨e1, e2⟩ := ih (u.setWord a w) (a + 4)
      obtain ⟨f1, f2⟩ := key (bytesOfWord w) u a
      exact ⟨e1.trans f1, e2.trans f2⟩
  obtain ⟨e1, e2⟩ := keys ws (s.clearResv off (4 * ws.length)) (sramBase + off)
  constructor
  · show tabGet {} (((s.clearResv off (4 * ws.length)).setWords (sramBase + off) ws).cmd.rings) m = _
    rw [e1]; rfl
  · show Fld.CMD_CQm_CFG.SIZE.of (Store.get regDefault (((s.clearResv off (4 * ws.length)).setWords (sramBase + off) ws).regs) (ringCfg m)) = _
    rw [e2]; rfl

theorem Frame.fabricPage {off : Nat} {w : Word} (h : Frame K s t)
    (ho : doorbell + 0x800 ≤ off ∧ off + 4 ≤ doorbell + 0x900)
    (hp : K.testBit bit_page = true := by decide) (hK : K.testBit bit_hic = true := by decide) :
    Frame K s (t.fabricWords off [w]) :=
  h.fabricWords (fun i hi => memFree_page hp (by
    obtain ⟨h1, h2⟩ := ho
    simp only [List.length_cons, List.length_nil] at hi
    exact ⟨by omega, by omega⟩)) hK

theorem producerWord_page (m : Nat) : doorbell + 0x800 ≤ producerWord m ∧ producerWord m + 4 ≤ doorbell + 0x900 := by
  unfold producerWord
  split <;> omega

theorem State.writeRecord_frame {m : Nat} {w0 psn w2 w3 : Word} (hm : m ≤ 4 := by decide) :
    Frame Foot.writeRecord s (s.writeRecord m w0 psn w2 w3) := by
  unfold State.writeRecord
  extract_lets r off w0 last s1 pi s2
  have h1 : Frame Foot.writeRecord s s1 := (Frame.refl _ s).fabricWords fun i hi f =>
    f.records (by decide) ⟨m, hm, by unfold State.recordBase; omega, by
      simp only [List.length_cons, List.length_nil] at hi
      have : off + i < s.fld (ringBase m) Fld.CMD_CQm_BASE.OFFSET * 16 + 16 * (r.pi % 2 ^ 12) + 16 := by omega
      unfold State.recordEnd State.recordBase
      show sramBase + off + i < _
      have : 16 * (r.pi % 2 ^ 12 + 1) ≤ 16 * max (s.ringSize m) ((s.ring m).pi % 2 ^ 12 + 1) :=
        Nat.mul_le_mul_left _ (Nat.le_max_right _ _)
      omega⟩
  have h2 : Frame Foot.writeRecord s s2 := h1.setRing (by
    obtain ⟨e1, e2⟩ := s.pi_word_fabricWords off [w0, psn, w2, w3] m
    rw [e1, e2]
    show pi % 2 ^ 12 + 1 ≤ max (s.ringSize m) (r.pi % 2 ^ 12 + 1)
    have hl : last = decide (s.ringSize m ≤ r.pi + 1) := rfl
    have hp : pi = if last = true then 0 else r.pi + 1 := rfl
    rw [hp, hl]
    split
    · omega
    · next h =>
      simp only [decide_eq_true_eq] at h
      have := Nat.mod_le (r.pi + 1) (2 ^ 12)
      omega)
  exact (h2.fabricPage (producerWord_page m)).fabricPage (by omega)

theorem State.recRingEnabled_frame {m : Nat} : Frame Foot.writeRecord s (s.recRingEnabled m) := by
  unfold State.recRingEnabled
  exact ((Frame.refl _ s).setRing (by
    show 0 % 2 ^ 12 + 1 ≤ _
    omega)).fabricPage (producerWord_page m)

def Foot.setRing : Nat := maskBit bit_rings
theorem State.recBell_frame {m : Nat} {w : Word} : Frame Foot.setRing s (s.recBell m w) := by
  unfold State.recBell
  refine Frame.ite (Frame.refl _ s) ?_
  exact (Frame.refl _ s).setRing (by show (s.ring m).pi % 2 ^ 12 + 1 ≤ _; omega)

/-! ### Registers by their block, and any register -/

/-- The numbers of a block's registers. -/
def blockMask (u : Nat) : Nat := (2 ^ ((regsOfUnit u).length + 1) - 1) <<< regStart u

theorem regPos_le (ds : List RegDesc) (off : Nat) : regPos ds off ≤ ds.length := by
  induction ds with
  | nil => exact Nat.le_refl 0
  | cons d ds ih =>
    unfold regPos
    split
    · exact Nat.zero_le _
    · exact Nat.succ_le_succ ih

theorem blockMask_regNo {a u : Nat} (hu : unitOf a = u) : (blockMask u).testBit (regNo a) = true := by
  subst hu
  unfold blockMask regNo
  rw [Nat.testBit_shiftLeft, Nat.testBit_two_pow_sub_one]
  have := regPos_le (regsOfUnit (unitOf a)) (offsetOf a)
  simp
  omega

/-- A register that may be written within the mask. -/
structure AddrOk (K a : Nat) : Prop where
  bit : K.testBit (regNo a) = true
  psn : regNo a ≠ psnNo
  rings : placesRecords (regNo a) = true → K.testBit bit_sram = true

theorem AddrOk.of {K a k : Nat} (hk : regNo a = k) (hK : K.testBit k = true := by decide)
    (hp : (k != psnNo) = true := by decide)
    (hr : (!placesRecords k || K.testBit bit_sram) = true := by decide) : AddrOk K a := by
  subst hk
  refine ⟨hK, by simpa using hp, fun h => ?_⟩
  simpa [h] using hr

theorem AddrOk.block {K a u : Nat} (hu : unitOf a = u) (hp : regNo a ≠ psnNo)
    (hK : Within (blockMask u) K := by decide) (hr : K.testBit bit_sram = true := by decide) : AddrOk K a :=
  ⟨hK.bit (blockMask_regNo hu), hp, fun _ => hr⟩

theorem blockMask_cmd_only {k u : Nat} (hu : u ≤ 21) (h2 : u ≠ 2) (h : (blockMask u).testBit k = true) :
    k ≠ psnNo ∧ placesRecords k = false := by
  have : ∀ u : Fin 22, u.val ≠ 2 → (blockMask u.val).testBit 35 = false ∧ (blockMask u.val).testBit 44 = false ∧
      (blockMask u.val).testBit 45 = false ∧ (blockMask u.val).testBit 47 = false ∧
      (blockMask u.val).testBit 48 = false := by decide
  obtain ⟨a, b, c, d, e⟩ := this ⟨u, by omega⟩ h2
  constructor
  · rintro rfl; rw [show psnNo = 35 from rfl, a] at h; cases h
  · unfold placesRecords
    simp only [Bool.or_eq_false_iff, beq_eq_false_iff_ne]
    refine ⟨⟨⟨?_, ?_⟩, ?_⟩, ?_⟩ <;> rintro rfl <;> simp_all

/-- A register of any block but the command fabric. -/
theorem AddrOk.other {K a u : Nat} (hu : unitOf a = u) (hK : Within (blockMask u) K := by decide)
    (hl : u ≤ 21 := by decide) (h2 : u ≠ 2 := by decide) : AddrOk K a := by
  have hb := blockMask_regNo hu
  obtain ⟨h1, h3⟩ := blockMask_cmd_only hl h2 hb
  exact ⟨hK.bit hb, h1, fun h => by rw [h3] at h; cases h⟩

theorem AddrOk.widen {F K a : Nat} (h : AddrOk F a) (hF : Within F K := by decide) : AddrOk K a :=
  ⟨hF.bit h.bit, h.psn, fun hr => hF.bit (h.rings hr)⟩

theorem Frame.setRegAt {a : Nat} {w : Word} (h : Frame K s t) (ha : AddrOk K a) : Frame K s (t.setReg a w) :=
  h.setReg rfl ha.bit (by simpa using ha.psn) (by
    cases hr : placesRecords (regNo a) with
    | false => rfl
    | true => simpa using ha.rings hr)

theorem Frame.setFldAt {a : Nat} {f : Bits} {v : Nat} (h : Frame K s t) (ha : AddrOk K a) : Frame K s (t.setFld a f v) :=
  h.setRegAt ha

theorem Frame.countAt {a : Nat} {f : Bits} {n : Nat} (h : Frame K s t) (ha : AddrOk K a) : Frame K s (t.count a f n) :=
  h.setRegAt ha

def Foot.loadReg : Nat := 0
theorem Frame.loadReg {a : Nat} (h : Frame K s t) (ha : AddrOk K a) (_ : Within Foot.loadReg K := by decide) :
    Frame K s (t.loadReg a) := by
  unfold State.loadReg
  split
  · exact Frame.ite (h.setRegAt ha) h
  · exact h

def Foot.refit : Nat := 0
theorem Frame.refit {a : Nat} {f : Bits} {u len : Nat} (h : Frame K s t) (ha : AddrOk K a)
    (_ : Within Foot.refit K := by decide) : FrameL K s (t.refit a f u len) := by
  unfold State.refit
  exact FrameL.ite (FrameL.mk h) (FrameL.mk (h.setRegAt ha))

def Foot.keepFld : Nat := 0
theorem Frame.keepFld {a : Nat} {f : Bits} {old : State} (h : Frame K s t) (ha : AddrOk K a)
    (_ : Within Foot.keepFld K := by decide) : Frame K s (State.keepFld old t a f) := h.setFldAt ha

/-- Every part but the queue. -/
def Foot.all : Nat := 1 <<< 450 - 1

theorem regNo_lt (a : Nat) : regNo a < 450 := by
  unfold regNo
  have h1 := regPos_le (regsOfUnit (unitOf a)) (offsetOf a)
  by_cases h : unitOf a < 22
  · have : ∀ u : Fin 22, regStart u.val + (regsOfUnit u.val).length < 450 := by decide
    have : regStart (unitOf a) + (regsOfUnit (unitOf a)).length < 450 := this ⟨unitOf a, h⟩
    omega
  · have e1 : ∀ u, ¬ u < 22 → regStart u = 406 ∧ regsOfUnit u = [] := by
      intro u hu
      match u, hu with
      | n + 22, _ => exact ⟨rfl, rfl⟩
    obtain ⟨e1, e2⟩ := e1 _ h
    rw [e1, e2]
    exact (by decide : 406 + 0 < 450)

theorem all_bit {k : Nat} (h : k < 450) : Foot.all.testBit k = true := by
  unfold Foot.all
  rw [Nat.one_shiftLeft, Nat.testBit_two_pow_sub_one]
  simpa using h

theorem AddrOk.all {a : Nat} (h : regNo a ≠ psnNo) : AddrOk Foot.all a :=
  ⟨all_bit (regNo_lt a), h, fun _ => all_bit (by decide)⟩

/-- Anything may change, if a canonical state stays canonical and the queue is left alone. -/
theorem Frame.all (inv : s.Canonical → t.Canonical) (pending : t.pending = s.pending)
    (shut : s.batch = none → t.batch = none) : Frame Foot.all s t := by
  have no : ∀ {P : Prop} (k : Nat), k < 450 → Foot.all.testBit k = false → P := fun k hk h => by
    rw [all_bit hk] at h; cases h
  exact {
    inv := inv, pending
    regs := fun a h => no _ (regNo_lt a) h
    mem := fun a h => by
      have h1 : ¬ inSram a := h.sram (all_bit (by decide))
      have h2 : ¬ inRecipe' a := h.recipe (all_bit (by decide))
      have h3 : ¬ inTable' a := h.table (all_bit (by decide))
      have h4 : ¬ inStore a := h.store (all_bit (by decide))
      unfold inSram inRecipe' inTable' inStore recipeBase tableBase ledgerBase at *
      omega
    inRecords := no _ (by decide)
    now := no _ (by decide), t0 := no _ (by decide), prevLen := no _ (by decide), tick := no _ (by decide)
    clk := no _ (by decide), vt := no _ (by decide), sqs := no _ (by decide), rings := no _ (by decide)
    staged := no _ (by decide), posting := no _ (by decide), cmdRest := no _ (by decide), faults := no _ (by decide)
    led := no _ (by decide), dlink := no _ (by decide), prot := no _ (by decide), tbs := no _ (by decide)
    pairs := no _ (by decide), pwmRest := no _ (by decide), dis := no _ (by decide), acq := no _ (by decide)
    pos := no _ (by decide), fldc := no _ (by decide), wgh := no _ (by decide), isk := no _ (by decide)
    thm := no _ (by decide), can := no _ (by decide), eth := no _ (by decide), hic := no _ (by decide)
    pwr := no _ (by decide), eng := no _ (by decide), image := no _ (by decide), bst := no _ (by decide)
    chk := no _ (by decide), batch := no _ (by decide), shut := fun _ => shut, bus := no _ (by decide), free := no _ (by decide)
    board := no _ (by decide) }

def Foot.showFetch : Nat := maskBit 42 ||| maskBit bit_page ||| maskBit bit_hic
theorem State.showFetch_frame {n : Nat} : Frame Foot.showFetch s (s.showFetch n) := by
  unfold State.showFetch
  extract_lets r s1
  have h1 : Frame Foot.showFetch s s1 := (Frame.refl _ s).setFld (regNo_CMD_SQn_STAT _)
  exact h1.fabricPage ⟨by omega, by have := Nat.mod_lt n (show 0 < 16 by decide); omega⟩

/-! ### Host SRAM and the other memories -/

theorem Frame.fabricWordsIn {off : Nat} {ws : List Word} (h : Frame K s t) (ho : off + 4 * ws.length ≤ 0x10000000)
    (hs : K.testBit bit_sram = true := by decide) (hK : K.testBit bit_hic = true := by decide) :
    Frame K s (t.fabricWords off ws) :=
  h.fabricWords (fun i hi => memFree_sram hs (by unfold inSram sramBase recipeBase; omega)) hK

theorem Frame.fabricBytesIn {off : Nat} {bs : List Byte} (h : Frame K s t) (ho : off + bs.length ≤ 0x10000000)
    (hs : K.testBit bit_sram = true := by decide) (hK : K.testBit bit_hic = true := by decide) :
    Frame K s (t.fabricBytes off bs) :=
  h.fabricBytes (fun i hi => memFree_sram hs (by unfold inSram sramBase recipeBase; omega)) hK

theorem Frame.setSram {off : Nat} {w : Word} (h : Frame K s t) (ho : off + 4 ≤ 0x10000000)
    (hs : K.testBit bit_sram = true := by decide) : Frame K s (t.setSram off w) :=
  h.setWord fun i hi => memFree_sram hs (by unfold inSram sramBase recipeBase; omega)

/-- Any address lies in one of the areas. -/
theorem memFree_any {a : Nat} (h1 : K.testBit bit_sram = true) (h2 : K.testBit bit_recipe = true)
    (h3 : K.testBit bit_table = true) (h4 : K.testBit bit_store = true) : ¬ MemFree K s a := fun f => by
  have h1 := f.sram h1
  have h2 := f.recipe h2
  have h3 := f.table h3
  have h4 := f.store h4
  unfold inSram inRecipe' inTable' inStore recipeBase tableBase ledgerBase at *
  omega

/-- An address from recipe memory on lies in recipe or table memory, or beyond them. -/
theorem memFree_engine {a : Nat} (ha : recipeBase ≤ a) (h2 : K.testBit bit_recipe = true)
    (h3 : K.testBit bit_table = true) (h4 : K.testBit bit_store = true) : ¬ MemFree K s a := fun f => by
  have h2 := f.recipe h2
  have h3 := f.table h3
  have h4 := f.store h4
  unfold inRecipe' inTable' inStore recipeBase tableBase ledgerBase at *
  omega

theorem memFree_store {a : Nat} (ha : ledgerBase ≤ a) (h4 : K.testBit bit_store = true) : ¬ MemFree K s a :=
  fun f => f.store h4 ha

/-! ### The next PSN is written by no one but the fabric -/

theorem regNo_ne_psn {a : Nat} (h : unitOf a ≠ 2) : regNo a ≠ psnNo := by
  by_cases hu : unitOf a ≤ 21
  · exact (blockMask_cmd_only hu h (blockMask_regNo rfl)).1
  · unfold regNo
    have e1 : ∀ u, ¬ u ≤ 21 → regStart u = 406 := by
      intro u hu
      match u, hu with
      | n + 22, _ => rfl
    rw [e1 _ hu]
    unfold psnNo
    omega

/-- The registers of the command fabric: CMD_PSN, and those after it. -/
theorem regs_cmd : regsOfUnit 2 = (regsOfUnit 2).headD ⟨"", 0, [], []⟩ :: (regsOfUnit 2).tail := by
  have h : (regsOfUnit 2).length ≠ 0 := by decide
  cases e : regsOfUnit 2 with
  | nil => rw [e] at h; exact absurd rfl h
  | cons d ds => rfl

theorem findReg_first {d : RegDesc} {ds : List RegDesc} {off : Nat} (h : regPos (d :: ds) off = 0) :
    ∃ i, findReg (d :: ds) off = some (d, i) := by
  unfold regPos at h
  unfold findReg
  cases e : d.index? off with
  | none => rw [e] at h; simp at h
  | some i => exact ⟨i, rfl⟩

theorem regNo_psn_unit {a : Nat} (h : regNo a = psnNo) : unitOf a = 2 :=
  Classical.byContradiction fun hu => regNo_ne_psn hu h

theorem regAt_psn {a : Nat} (h : regNo a = psnNo) :
    ∃ i, regAt a = some ((regsOfUnit 2).headD ⟨"", 0, [], []⟩, i) := by
  have hu := regNo_psn_unit h
  have hb : ¬ a < blockBase := by
    intro hb
    unfold unitOf at hu
    rw [Nat.sub_eq_zero_of_le (Nat.le_of_lt hb)] at hu
    omega
  have h0 : regPos (regsOfUnit 2) (offsetOf a) = 0 := by
    unfold regNo psnNo at h
    rw [hu] at h
    have : regStart 2 = 35 := rfl
    omega
  have hf := findReg_first (off := offsetOf a) (by rw [← regs_cmd]; exact h0)
  rw [← regs_cmd] at hf
  obtain ⟨i, hi⟩ := hf
  refine ⟨i, ?_⟩
  unfold regAt
  rw [if_neg hb, hu]
  exact hi

/-- A register of another block filtered or written leaves the rings and the PSN alone. -/
def Foot.blockRegs (u : Nat) : Nat := blockMask u
theorem Frame.blockRegs {u : Nat} {mine : Nat → Bool} (h : Frame K s t) (hm : ∀ a, mine a = true → unitOf a = u)
    (hK : Within (blockMask u) K := by decide) (hl : u ≤ 21 := by decide) (h2 : u ≠ 2 := by decide) :
    Frame K s (t.blockRegs mine) := by
  have hf : ∀ a, unitOf a ≠ u → Store.get regDefault (t.regs.filter fun e => !mine e.1) a =
      Store.get regDefault t.regs a := fun a ha => Store.get_filter _ _ _ _ fun v => by
    cases hma : mine a with
    | false => rfl
    | true => exact absurd (hm a hma) ha
  have hb : ∀ a, K.testBit (regNo a) = false → unitOf a ≠ u := fun a ha e => by
    rw [hK.bit (blockMask_regNo e)] at ha; cases ha
  have h1 : Frame K s { t with regs := t.regs.filter fun e => !mine e.1 } := { h with
    inv := fun hs => by
      obtain ⟨c1, c2, c3, c4, c5⟩ := h.inv hs
      refine ⟨Store.wf_filter _ _ _ c1, c2, c3, c4, ?_⟩
      show Store.get regDefault (t.regs.filter fun e => !mine e.1) Reg.CMD_PSN ≠ 0
      rw [hf _ (by intro e; exact h2 (e.symm.trans (by decide)))]
      exact c5
    regs := fun a ha => (hf a (hb a ha)).trans (h.regs a ha)
    inRecords := fun hs a ha => h.inRecords hs a (inRecords_congr (s := t)
      (t := { t with regs := t.regs.filter fun e => !mine e.1 }) (fun _ => rfl) (fun b hb' => hf b (by
        intro e
        have := (blockMask_cmd_only hl h2 (blockMask_regNo e)).2
        rw [hb'] at this; cases this)) a ha) }
  unfold State.blockRegs
  extract_lets t'
  split
  · refine Frame.ite (Frame.foldlOn h1 fun v e he hv => ?_) h1
    refine hv.setRegAt (AddrOk.other (hm e.1 ?_) hK hl h2)
    simpa using (List.mem_filter.1 he).2
  · exact h1

def Foot.keepRegs : Nat := Foot.all
theorem State.keepRegs_frame {old : State} {as : List Nat} (h : ∀ a ∈ as, unitOf a ≠ 2 := by decide) :
    Frame Foot.keepRegs s (State.keepRegs old s as) := by
  unfold State.keepRegs
  exact Frame.foldlOn (Frame.refl _ s) fun t a ha ht => ht.setRegAt (AddrOk.all (regNo_ne_psn (h a ha)))

end Sys2Proof.Machine
end

