-- ==== Sys2Proof/Laws/FrameOps.lean ====
section
/-! SUPPORT. What each operation can change, one lemma for one function, and the mask of the parts it names:
the shared operations: records, trips, the arbiter, the engine, timebases and pairs. -/

set_option Elab.async false

namespace Sys2Proof.Machine

/-! ### Ops -/

def Foot.publishReal : Nat := 0x800000000000000000000000000000000000000000000000000000000000000000000000000000000000000000000000000000000000000
theorem State.publishReal_frame {s : State} {x1 : Nat} {x2 : Rat} :
    Frame Foot.publishReal s (State.publishReal s x1 x2) := by
  have h0 := Frame.refl Foot.publishReal s
  unfold State.publishReal
  refine Frame.step State.publish_frame ?_
  exact h0

def Foot.publishFlag : Nat := 0x800000000000000000000000000000000000000000000000000000000000000000000000000000000000000000000000000000000000000
theorem State.publishFlag_frame {s : State} {x1 : Nat} {x2 : Bool} :
    Frame Foot.publishFlag s (State.publishFlag s x1 x2) := by
  have h0 := Frame.refl Foot.publishFlag s
  unfold State.publishFlag
  refine Frame.step State.publish_frame ?_
  exact h0

def Foot.setSq : Nat := 0x20000000000000000000000000000000000000000000000000000000000000000000000000000000000000000000000000000000
theorem State.setSq_frame {s : State} {x1 : Nat} {x2 : SqRun} :
    Frame Foot.setSq s (State.setSq s x1 x2) := by
  have h0 := Frame.refl Foot.setSq s
  unfold State.setSq
  exact { h0 with sqs := fun hb => absurd hb (by decide) }

def Foot.atTick : Nat := 0x800000000000000000000000000000000000000000000000000000000000000000000000000000000000000000000000000000
theorem State.atTick_frame {s : State} {x1 : Nat} :
    Frame Foot.atTick s (State.atTick s x1) := by
  have h0 := Frame.refl Foot.atTick s
  unfold State.atTick
  refine Frame.step State.at_frame ?_
  exact h0

def Foot.takeFree : Nat := 0x400000000000000000000000000000000000000000000000000000000000000000000000000000000000000000000000000000000000000
theorem State.takeFree_frame {s : State} :
    FrameR Foot.takeFree s (State.takeFree s) := by
  have h0 := Frame.refl Foot.takeFree s
  unfold State.takeFree
  refine FrameR.mk ?_
  exact { h0 with free := fun hb => absurd hb (by decide) }

/-! ### Records -/

def Foot.sendLedger : Nat := 0x800000000000000000000000000000000000000000000000000000000000000000000000000000000000000000000000000000000
theorem State.sendLedger_frame {s : State} {x1 : LedgerEntry} :
    Frame Foot.sendLedger s (State.sendLedger s x1) := by
  have h0 := Frame.refl Foot.sendLedger s
  unfold State.sendLedger
  exact { h0 with led := fun hb => absurd hb (by decide) }

def Foot.postOne : Nat := 0x6004000A40000000000000000000000000000000000000000000000000000000000000000000000000000000000000000004000800000000
theorem State.postOne_frame {s : State} {x1 : Ev} :
    Frame Foot.postOne s (State.postOne s x1) := by
  have h0 := Frame.refl Foot.postOne s
  unfold State.postOne
  refine Frame.ite ?_ ?_
  · exact h0
  · split
    rename_i x1 x2 x3 x4
    refine Frame.cutR (K := Foot.postOne) (s := s) x4 ?_ (fun h5 => ?_)
    · refine FrameR.step State.takePsn_frame ?_
      exact h0
    · extract_lets a6 a7 a8 a9 a10
      have h11 : Frame Foot.postOne s a7 := by
        refine Frame.ite ?_ ?_
        · exact { h5 with cmdRest := fun hb => absurd hb (by decide) }
        · exact h5
      clear_value a7
      have h12 : Frame Foot.postOne s a8 := by
        refine Frame.count ?_ (regNo_CMD_EQ_STAT)
        exact h11
      clear_value a8
      have h13 : Frame Foot.postOne s a10 := by
        refine Frame.ite ?_ ?_
        · refine Frame.step State.writeRecord_frame ?_
          exact h11
        · exact { h12 with cmdRest := fun hb => absurd hb (by decide) }
      clear_value a10
      refine Frame.ite ?_ ?_
      · refine Frame.step State.sendLedger_frame ?_
        exact h13
      · exact h13

def Foot.postFound : Nat := 0x6004000A40000000000000000000000000000000000000000000000000000000000000000000000000000000000000000004000800000000
theorem State.postFound_frame {s : State} :
    Frame Foot.postFound s (State.postFound s) := by
  have h0 := Frame.refl Foot.postFound s
  unfold State.postFound
  split
  · exact h0
  · refine Frame.foldl ?_ (fun u1 x2 h3 => ?_)
    · exact { h0 with cmdRest := fun hb => absurd hb (by decide) }
    · refine Frame.step State.postOne_frame ?_
      exact h3

def Foot.postCompletion : Nat := Foot.postFound ||| Foot.takePsn ||| Foot.writeRecord

theorem State.postCompletion_frame {s : State} {c : Completion} :
    Frame Foot.postCompletion s (s.postCompletion c) := by
  unfold State.postCompletion
  refine Frame.ite (Frame.refl _ s) ?_
  extract_lets cq
  have hc : cq < 2 ^ 2 := s.fld_lt _ _
  clear_value cq
  split
  rename_i psn u e
  refine Frame.cutR (K := Foot.postCompletion) (s := s) e
    (FrameR.step State.takePsn_frame (Frame.widen State.postFound_frame)) (fun h => ?_)
  exact Frame.ite (Frame.step (State.writeRecord_frame (by omega)) h) h

def Foot.postRaw : Nat := 0x6004000A40000000000000000000000000000000000000000000000000000000000000000000000000000000000000000004000800000000
theorem State.postRaw_frame {s : State} {x1 : Ev} :
    Frame Foot.postRaw s (State.postRaw s x1) := by
  have h0 := Frame.refl Foot.postRaw s
  unfold State.postRaw
  refine Frame.step State.postOne_frame ?_
  refine Frame.step State.postFound_frame ?_
  exact h0

def Foot.setUnit : Nat := 0x100000000000000000000000000000000000000000000000000000000000000000000000000000000000000
theorem State.setUnit_frame {s : State} {x1 : Nat} {x2 : Nat} :
    Frame Foot.setUnit s (State.setUnit s x1 x2) := by
  have h0 := Frame.refl Foot.setUnit s
  unfold State.setUnit
  refine Frame.setFld ?_ (regNo_BST_Uu _)
  exact h0

def Foot.unitDetected : Nat := 0x40000000000000000000000100000000000000000000000000000000000000000000000000000000000000000000000000000000000000
theorem State.unitDetected_frame {s : State} {x1 : Nat} {x2 : Nat} :
    Frame Foot.unitDetected s (State.unitDetected s x1 x2) := by
  have h0 := Frame.refl Foot.unitDetected s
  unfold State.unitDetected
  extract_lets a1 a2
  have h3 : Frame Foot.unitDetected s a1 := by
    refine Frame.step State.setUnit_frame ?_
    exact h0
  clear_value a1
  exact { h3 with bst := fun hb => absurd hb (by decide) }

def Foot.setF2 : Nat := 0x10
theorem State.setF2_frame {s : State} :
    Frame Foot.setF2 s (State.setF2 s) := by
  have h0 := Frame.refl Foot.setF2 s
  unfold State.setF2
  refine Frame.setFld ?_ (regNo_SYS_FAULTSTAT)
  exact h0

def Foot.escalate : Nat := 0x6004000E40000000000000000000000000000000000000000000000000000000000000000000000000000000000000000004000800000010
theorem State.escalate_frame {s : State} {x1 : Nat} {x2 : Nat} :
    Frame Foot.escalate s (State.escalate s x1 x2) := by
  have h0 := Frame.refl Foot.escalate s
  unfold State.escalate
  extract_lets a1 a2 a3 a4 a5 a6
  have h7 : Frame Foot.escalate s a6 := by
    exact { h0 with faults := fun hb => absurd hb (by decide) }
  clear_value a6
  refine Frame.ite ?_ ?_
  · refine Frame.step State.setF2_frame ?_
    refine Frame.count ?_ (regNo_SYS_FAULTSTAT)
    refine Frame.step State.postRaw_frame ?_
    exact h7
  · exact h7

def Foot.post : Nat := 0x6004000E40000000000000000000000000000000000000000000000000000000000000000000000000000000000000000004000800000010
theorem State.post_frame {s : State} {x1 : Ev} :
    Frame Foot.post s (State.post s x1) := by
  have h0 := Frame.refl Foot.post s
  unfold State.post
  extract_lets a1
  have h2 : Frame Foot.post s a1 := by
    refine Frame.step State.postRaw_frame ?_
    exact h0
  clear_value a1
  refine Frame.ite ?_ ?_
  · refine Frame.step State.escalate_frame ?_
    exact h2
  · refine Frame.ite ?_ ?_
    · refine Frame.step State.setF2_frame ?_
      exact h2
    · exact h2

def Foot.event : Nat := Foot.post ||| maskBit bit_batch
theorem State.event_frame {s : State} {x1 : Ev} : Frame Foot.event s (State.event s x1) := by
  have h0 := Frame.refl Foot.event s
  unfold State.event
  split
  · next b e => exact { h0 with batch := fun hb => absurd hb (by decide), shut := fun _ hn => by rw [e] at hn; cases hn }
  · exact Frame.step State.post_frame h0

def Foot.f2Begins : Nat := 0x400000000000000000000000000000000000000000000000000000000000000000000000000000000000000000000000000000000
theorem State.f2Begins_frame {s : State} {x1 : Nat} {x2 : Nat} :
    Frame Foot.f2Begins s (State.f2Begins s x1 x2) := by
  have h0 := Frame.refl Foot.f2Begins s
  unfold State.f2Begins
  refine Frame.ite ?_ ?_
  · exact h0
  · exact { h0 with faults := fun hb => absurd hb (by decide) }

def Foot.f2Ends : Nat := 0x400000000000000000000000000000000000000000000000000000000000000000000000000000000000000000000000000000000
theorem State.f2Ends_frame {s : State} {x1 : Nat} {x2 : Nat} :
    Frame Foot.f2Ends s (State.f2Ends s x1 x2) := by
  have h0 := Frame.refl Foot.f2Ends s
  unfold State.f2Ends
  exact { h0 with faults := fun hb => absurd hb (by decide) }

def Foot.postOverflow : Nat := 0x6104000E40000000000000000000000000000000000000000000000000000000000000000000000000000000000000000004000800000010
theorem State.postOverflow_frame {s : State} :
    Frame Foot.postOverflow s (State.postOverflow s) := by
  have h0 := Frame.refl Foot.postOverflow s
  unfold State.postOverflow
  refine Frame.ite ?_ ?_
  · refine Frame.step State.event_frame ?_
    exact { h0 with cmdRest := fun hb => absurd hb (by decide) }
  · exact h0

/-! ### Units -/

def Foot.setFit : Nat := 0x40000000000000000000000000000000000000000000000000000000000000000000000000000000000000000000000000000000000000
theorem State.setFit_frame {s : State} {x1 : Nat} {x2 : Bool} :
    Frame Foot.setFit s (State.setFit s x1 x2) := by
  have h0 := Frame.refl Foot.setFit s
  unfold State.setFit
  extract_lets a1 a2
  exact { h0 with bst := fun hb => absurd hb (by decide) }

def Foot.setActive : Nat := 0x400000000000000000000000000000000000000000000000000000000000000000000000000000000000
theorem State.setActive_frame {s : State} {x1 : Nat} :
    Frame Foot.setActive s (State.setActive s x1) := by
  have h0 := Frame.refl Foot.setActive s
  unfold State.setActive
  refine Frame.setFld ?_ (regNo_BST_STAT)
  exact h0

def Foot.beginTest : Nat := 0x40000000000000000000000100400000000000000000000000000000000000000000000000000000000000000000000000000000000000
theorem State.beginTest_frame {s : State} {x1 : TestRun} :
    Frame Foot.beginTest s (State.beginTest s x1) := by
  have h0 := Frame.refl Foot.beginTest s
  unfold State.beginTest
  extract_lets a1 a2
  have h3 : Frame Foot.beginTest s a1 := by
    refine Frame.step State.setActive_frame ?_
    refine Frame.step State.setUnit_frame ?_
    exact h0
  clear_value a1
  exact { h3 with bst := fun hb => absurd hb (by decide) }

def Foot.endTest : Nat := 0x40000000000000000000000000400000000000000000000000000000000000000000000000000000000000000000000000000000000000
theorem State.endTest_frame {s : State} {x1 : Nat} :
    Frame Foot.endTest s (State.endTest s x1) := by
  have h0 := Frame.refl Foot.endTest s
  unfold State.endTest
  extract_lets a1 a2 a3
  have h4 : Frame Foot.endTest s a2 := by
    refine Frame.step State.setActive_frame ?_
    exact h0
  clear_value a2
  exact { h4 with bst := fun hb => absurd hb (by decide) }

def Foot.abortTest : Nat := 0x6144040E40000000000000000102400000000000000000000000000000000000000000000000000000000000000000000004000800000010
theorem State.abortTest_frame {s : State} {x1 : Nat} {x2 : Nat} :
    Frame Foot.abortTest s (State.abortTest s x1 x2) := by
  have h0 := Frame.refl Foot.abortTest s
  unfold State.abortTest
  split
  · extract_lets a1 a2 a3
    have h4 : Frame Foot.abortTest s a2 := by
      exact { h0 with acq := fun hb => absurd hb (by decide) }
    clear_value a2
    have h5 : Frame Foot.abortTest s a3 := by
      refine Frame.step State.setFit_frame ?_
      refine Frame.step State.setUnit_frame ?_
      refine Frame.step State.endTest_frame ?_
      exact h4
    clear_value a3
    refine Frame.step State.event_frame ?_
    refine Frame.count ?_ (regNo_BST_CNT)
    exact h5
  · exact h0

def Foot.dropShadow : Nat := 0x40000000000000000000000000000000000000000000000000000000000000000000000000000000000000000000000000000000000000
theorem State.dropShadow_frame {s : State} {x1 : Nat} :
    Frame Foot.dropShadow s (State.dropShadow s x1) := by
  have h0 := Frame.refl Foot.dropShadow s
  unfold State.dropShadow
  exact { h0 with bst := fun hb => absurd hb (by decide) }

def Foot.beginShadow : Nat := 0x40000000000000000000000100000000000000000000000000000000000000000000000000000000000000000000000000000000000000
theorem State.beginShadow_frame {s : State} {x1 : Shadowing} :
    Frame Foot.beginShadow s (State.beginShadow s x1) := by
  have h0 := Frame.refl Foot.beginShadow s
  unfold State.beginShadow
  extract_lets a1 a2
  have h3 : Frame Foot.beginShadow s a1 := by
    refine Frame.step State.setUnit_frame ?_
    exact h0
  clear_value a1
  exact { h3 with bst := fun hb => absurd hb (by decide) }

def Foot.shadowPassed : Nat := 0x40000000000000000000000100400000000000000000000000000000000000000000000000000000000000000000000000000000000000
theorem State.shadowPassed_frame {s : State} {x1 : Nat} :
    Frame Foot.shadowPassed s (State.shadowPassed s x1) := by
  have h0 := Frame.refl Foot.shadowPassed s
  unfold State.shadowPassed
  split
  · refine Frame.step State.beginTest_frame ?_
    refine Frame.step State.setUnit_frame ?_
    refine Frame.step State.dropShadow_frame ?_
    exact h0
  · refine Frame.step State.setUnit_frame ?_
    exact h0

def Foot.shadowFailed : Nat := 0x40000000000000000000000100000000000000000000000000000000000000000000000000000000000000000000000000000000000000
theorem State.shadowFailed_frame {s : State} {x1 : Nat} :
    Frame Foot.shadowFailed s (State.shadowFailed s x1) := by
  have h0 := Frame.refl Foot.shadowFailed s
  unfold State.shadowFailed
  refine Frame.step State.setUnit_frame ?_
  refine Frame.step State.dropShadow_frame ?_
  exact h0

def Foot.shadowAborted : Nat := 0x40000000000000000000000100000000000000000000000000000000000000000000000000000000000000000000000000000000000000
theorem State.shadowAborted_frame {s : State} {x1 : Nat} :
    Frame Foot.shadowAborted s (State.shadowAborted s x1) := by
  have h0 := Frame.refl Foot.shadowAborted s
  unfold State.shadowAborted
  refine Frame.step State.setUnit_frame ?_
  refine Frame.step State.dropShadow_frame ?_
  exact h0

def Foot.postReadmitted : Nat := 0x6104000E40000000000000000000000000000000000000000000000000000000000000000000000000000000000000000004000800000010
theorem State.postReadmitted_frame {s : State} {x1 : Nat} :
    Frame Foot.postReadmitted s (State.postReadmitted s x1) := by
  have h0 := Frame.refl Foot.postReadmitted s
  unfold State.postReadmitted
  refine Frame.step State.event_frame ?_
  exact h0

def Foot.claimSpare : Nat := 0x6144040E40000000000000000102400000000000000000000000000000000000000000000000000000000000000000000004000800000010
theorem State.claimSpare_frame {s : State} {x1 : Nat} :
    Frame Foot.claimSpare s (State.claimSpare s x1) := by
  have h0 := Frame.refl Foot.claimSpare s
  unfold State.claimSpare
  extract_lets a1 a2
  have h3 : Frame Foot.claimSpare s a2 := by
    refine Frame.step State.setUnit_frame ?_
    refine Frame.step State.setFit_frame ?_
    refine Frame.step State.dropShadow_frame ?_
    refine Frame.step State.abortTest_frame ?_
    exact h0
  clear_value a2
  refine Frame.ite ?_ ?_
  · refine Frame.step State.postReadmitted_frame ?_
    exact h3
  · exact h3

/-! ### Gates -/

def Foot.setTb : Nat := 0x4000000000000000000000000000000000000000000000000000000000000000000000000000000000000000000000000000000000
theorem State.setTb_frame {s : State} {x1 : Nat} {x2 : Tb} :
    Frame Foot.setTb s (State.setTb s x1 x2) := by
  have h0 := Frame.refl Foot.setTb s
  unfold State.setTb
  exact { h0 with tbs := fun hb => absurd hb (by decide) }

def Foot.setPair : Nat := 0x8000000000000000000000000000000000000000000000000000000000000000000000000000000000000000000000000000000000
theorem State.setPair_frame {s : State} {x1 : Nat} {x2 : Pair} :
    Frame Foot.setPair s (State.setPair s x1 x2) := by
  have h0 := Frame.refl Foot.setPair s
  unfold State.setPair
  exact { h0 with pairs := fun hb => absurd hb (by decide) }

def Foot.setForce : Nat := 0x10000000000000000000000000000000000000000000000000000000000000000000000000000000000000000000000000000000000
theorem State.setForce_frame {s : State} {x1 : Nat} {x2 : Word} :
    Frame Foot.setForce s (State.setForce s x1 x2) := by
  have h0 := Frame.refl Foot.setForce s
  unfold State.setForce
  exact { h0 with pwmRest := fun hb => absurd hb (by decide) }

def Foot.regateAt : Nat := 0x8000000000000000000000000000000000000000000000000000000000000000000000000000000000000000000000000000000000
theorem State.regateAt_frame {s : State} {x1 : Nat} {x2 : Nat} :
    Frame Foot.regateAt s (State.regateAt s x1 x2) := by
  have h0 := Frame.refl Foot.regateAt s
  unfold State.regateAt
  refine Frame.step State.setPair_frame ?_
  exact h0

def Foot.pairEvent : Nat := 0x8000000000000000000000000000000000000000000000000000000000000000000000000000000000000000000000000000000000
theorem State.pairEvent_frame {s : State} {x1 : Nat} {x2 : Nat} :
    Frame Foot.pairEvent s (State.pairEvent s x1 x2) := by
  have h0 := Frame.refl Foot.pairEvent s
  unfold State.pairEvent
  extract_lets a1 a2 a3
  refine Frame.step State.regateAt_frame ?_
  refine Frame.step State.setPair_frame ?_
  exact h0

def Foot.settlePair : Nat := Foot.pairEvent

theorem State.settlePair_frame {n : Nat} {s : State} {k t : Nat} :
    Frame Foot.settlePair s (State.settlePair n s k t) := by
  induction n generalizing s with
  | zero => exact Frame.refl _ s
  | succ n ih =>
    unfold State.settlePair
    split
    · exact Frame.ite (Frame.step ih (State.pairEvent_frame)) (Frame.refl _ s)
    · exact Frame.refl _ s

def Foot.settle : Nat := 0x8000000000000000000000000000000000000000000000000000000000000000000000000000000000000000000000000000000000
theorem State.settle_frame {s : State} :
    Frame Foot.settle s (State.settle s) := by
  have h0 := Frame.refl Foot.settle s
  unfold State.settle
  refine Frame.foldl ?_ (fun u1 x2 h3 => ?_)
  · exact h0
  · refine Frame.step State.settlePair_frame ?_
    exact h3

def Foot.regate : Nat := 0x8000000000000000000000000000000000000000000000000000000000000000000000000000000000000000000000000000000000
theorem State.regate_frame {s : State} {x1 : List Nat} :
    Frame Foot.regate s (State.regate s x1) := by
  have h0 := Frame.refl Foot.regate s
  unfold State.regate
  refine Frame.foldl ?_ (fun u1 x2 h3 => ?_)
  · exact h0
  · refine Frame.step State.regateAt_frame ?_
    exact h3

def Foot.regateAll : Nat := 0x8000000000000000000000000000000000000000000000000000000000000000000000000000000000000000000000000000000000
theorem State.regateAll_frame {s : State} :
    Frame Foot.regateAll s (State.regateAll s) := by
  have h0 := Frame.refl Foot.regateAll s
  unfold State.regateAll
  refine Frame.step State.regate_frame ?_
  exact h0

def Foot.clearCarry : Nat := 0x100000000000000000000000
theorem State.clearCarry_frame {s : State} {x1 : Nat} :
    Frame Foot.clearCarry s (State.clearCarry s x1) := by
  have h0 := Frame.refl Foot.clearCarry s
  unfold State.clearCarry
  refine Frame.setReg ?_ (regNo_PAIRk_CARRY _)
  exact h0

/-! ### Arbiter -/

def Foot.setLatch : Nat := maskBit 99 ||| maskBit 100

theorem State.setLatch_frame {s : State} {src : Nat} {b : Bool} : Frame Foot.setLatch s (s.setLatch src b) := by
  unfold State.setLatch latchReg
  split
  · exact (Frame.refl _ s).setReg regNo_PROT_LATCH_EXT
  · exact (Frame.refl _ s).setReg regNo_PROT_LATCH_INT

def Foot.setLevel : Nat := maskBit 101 ||| maskBit 102

theorem State.setLevel_frame {s : State} {src : Nat} {b : Bool} : Frame Foot.setLevel s (s.setLevel src b) := by
  unfold State.setLevel levelReg
  split
  · exact (Frame.refl _ s).setReg regNo_PROT_LEVEL_EXT
  · exact (Frame.refl _ s).setReg regNo_PROT_LEVEL_INT

def Foot.setExplicit : Nat := 0x2000000000000000000000000000000000000000000000000000000000000000000000000000000000000000000000000000000000
theorem State.setExplicit_frame {s : State} {x1 : Nat} {x2 : Nat} :
    Frame Foot.setExplicit s (State.setExplicit s x1 x2) := by
  have h0 := Frame.refl Foot.setExplicit s
  unfold State.setExplicit
  refine Frame.ite ?_ ?_
  · exact { h0 with prot := fun hb => absurd hb (by decide) }
  · exact { h0 with prot := fun hb => absurd hb (by decide) }

def Foot.setAscSince : Nat := 0x2000000000000000000000000000000000000000000000000000000000000000000000000000000000000000000000000000000000
theorem State.setAscSince_frame {s : State} {x1 : Nat} :
    Frame Foot.setAscSince s (State.setAscSince s x1) := by
  have h0 := Frame.refl Foot.setAscSince s
  unfold State.setAscSince
  refine Frame.ite ?_ ?_
  · exact { h0 with prot := fun hb => absurd hb (by decide) }
  · exact { h0 with prot := fun hb => absurd hb (by decide) }

def Foot.updateSafeN : Nat := 0x2000000000000000000000000000000000000000000000000000000000000000000000000000000000000000000000000000000000
theorem State.updateSafeN_frame {s : State} :
    Frame Foot.updateSafeN s (State.updateSafeN s) := by
  have h0 := Frame.refl Foot.updateSafeN s
  unfold State.updateSafeN
  refine Frame.ite ?_ ?_
  · exact { h0 with prot := fun hb => absurd hb (by decide) }
  · exact h0

def Foot.checkConflict : Nat := 0x6104002E40000000000000000000000000000000000000000000000000000000000000000000000000000000000000000004000800000010
theorem State.checkConflict_frame {s : State} {x1 : Nat} :
    Frame Foot.checkConflict s (State.checkConflict s x1) := by
  have h0 := Frame.refl Foot.checkConflict s
  unfold State.checkConflict
  split
  · refine Frame.ite ?_ ?_
    · exact h0
    · refine Frame.step State.event_frame ?_
      exact { h0 with prot := fun hb => absurd hb (by decide) }
  · exact { h0 with prot := fun hb => absurd hb (by decide) }

def Foot.stopSequencer : Nat := 0x180000000000000000000000000000000000000000000000000000000010000000000000000000000000A0000000000000000000000
theorem State.stopSequencer_frame {s : State} {x1 : Nat} :
    Frame Foot.stopSequencer s (State.stopSequencer s x1) := by
  have h0 := Frame.refl Foot.stopSequencer s
  unfold State.stopSequencer
  extract_lets a1 a2 a3 a4
  have h5 : Frame Foot.stopSequencer s a3 := by
    refine Frame.setFld ?_ (regNo_FLD_MCm_STAT _)
    exact h0
  clear_value a3
  refine Frame.ite ?_ ?_
  · exact h0
  · refine Frame.step State.regate_frame ?_
    refine Frame.foldl ?_ (fun u6 x7 h8 => ?_)
    · exact h5
    · extract_lets a9
      have h10 : Frame Foot.stopSequencer s a9 := by
        refine Frame.setFld ?_ (regNo_PAIRk_MASK _)
        exact h8
      clear_value a9
      refine Frame.setFld ?_ (regNo_PAIRk_LIVE _)
      refine Frame.step State.setForce_frame ?_
      exact h10

def Foot.applySafe : Nat := 0x610401AE400000000000000000000000000000000000000000000000000000010000000000000000000101001A0000000004000800000010
theorem State.applySafe_frame {s : State} {x1 : Nat} {x2 : Nat} :
    Frame Foot.applySafe s (State.applySafe s x1 x2) := by
  have h0 := Frame.refl Foot.applySafe s
  unfold State.applySafe
  extract_lets a1 a2 a3 a4 a5 a6 a7 a8 a9
  have h10 : Frame Foot.applySafe s a3 := by
    refine Frame.setFld ?_ (regNo_PROT_BRb_STAT _)
    exact h0
  clear_value a3
  have h11 : Frame Foot.applySafe s a4 := by
    refine Frame.ite ?_ ?_
    · refine Frame.step State.setAscSince_frame ?_
      exact h10
    · exact h10
  clear_value a4
  have h12 : Frame Foot.applySafe s a5 := by
    refine Frame.setFld ?_ (regNo_PROT_USTAT)
    exact h0
  clear_value a5
  have h13 : Frame Foot.applySafe s a6 := by
    refine Frame.ite ?_ ?_
    · refine Frame.step State.setAscSince_frame ?_
      refine Frame.setFld ?_ (regNo_PROT_BRb_STAT _)
      refine Frame.setFld ?_ (regNo_PROT_BRb_STAT _)
      exact h12
    · exact h12
  clear_value a6
  have h14 : Frame Foot.applySafe s a7 := by
    refine Frame.foldl ?_ (fun u15 x16 h17 => ?_)
    · refine Frame.step State.stopSequencer_frame ?_
      exact h13
    · refine Frame.step State.clearCarry_frame ?_
      exact h17
  clear_value a7
  have h18 : Frame Foot.applySafe s a8 := by
    refine Frame.step State.updateSafeN_frame ?_
    refine Frame.step State.regate_frame ?_
    exact h14
  clear_value a8
  have h19 : Frame Foot.applySafe s a9 := by
    refine Frame.ite ?_ ?_
    · refine Frame.ite ?_ ?_
      · refine Frame.step State.event_frame ?_
        refine Frame.step State.regate_frame ?_
        exact h11
      · exact h0
    · refine Frame.step State.event_frame ?_
      exact h18
  clear_value a9
  refine Frame.ite ?_ ?_
  · refine Frame.step State.checkConflict_frame ?_
    exact h19
  · exact h19

def Foot.applySafeAll : Nat := 0x610401AE400000000000000000000000000000000000000000000000000000010000000000000000000101001A0000000004000800000010
theorem State.applySafeAll_frame {s : State} {x1 : Nat} {x2 : Nat} :
    Frame Foot.applySafeAll s (State.applySafeAll s x1 x2) := by
  have h0 := Frame.refl Foot.applySafeAll s
  unfold State.applySafeAll
  refine Frame.foldl ?_ (fun u1 x2 h3 => ?_)
  · exact h0
  · refine Frame.step State.applySafe_frame ?_
    exact h3

def Foot.postTrip : Nat := 0x6104000E40000000000000000000000000000000000000000000000000000000000000000000000000000000000000000004000800000010
theorem State.postTrip_frame {s : State} {x1 : Nat} {x2 : Nat} :
    Frame Foot.postTrip s (State.postTrip s x1 x2) := by
  have h0 := Frame.refl Foot.postTrip s
  unfold State.postTrip
  extract_lets a1
  refine Frame.step State.event_frame ?_
  exact h0

def Foot.actAll : Nat := 0x610401AE400000000000000000000000000000000000000000000000000000010000000000000000000101001A0000000004000800000010
theorem State.actAll_frame {s : State} {x1 : List (Nat × Nat)} :
    Frame Foot.actAll s (State.actAll s x1) := by
  have h0 := Frame.refl Foot.actAll s
  unfold State.actAll
  extract_lets a1
  have h2 : Frame Foot.actAll s a1 := by
    refine Frame.foldl ?_ (fun u3 x4 h5 => ?_)
    · exact h0
    · refine Frame.step State.postTrip_frame ?_
      exact h5
  clear_value a1
  refine Frame.foldl ?_ (fun u6 x7 h8 => ?_)
  · exact h2
  · split
    · refine Frame.step State.applySafe_frame ?_
      exact h8
    · exact h8

def Foot.tripAll : Nat := 0x610401AE400000000000000000000000000000000000000000000000000000010000000000000000000101181A0000000004000800000010
theorem State.tripAll_frame {s : State} {x1 : List Nat} :
    Frame Foot.tripAll s (State.tripAll s x1) := by
  have h0 := Frame.refl Foot.tripAll s
  unfold State.tripAll
  extract_lets a1 a2 a3
  have h4 : Frame Foot.tripAll s a1 := by
    refine Frame.step State.settle_frame ?_
    exact h0
  clear_value a1
  have h5 : Frame Foot.tripAll s a3 := by
    refine Frame.foldl ?_ (fun u6 x7 h8 => ?_)
    · exact h4
    · refine Frame.step State.setLatch_frame ?_
      exact h8
  clear_value a3
  refine Frame.step State.actAll_frame ?_
  exact h5

def Foot.takeCause : Nat := 0x2000000000000000000000000000000000000000000000000000000000000000000000000000000078000000000000000000000000
theorem State.takeCause_frame {s : State} {x1 : TripCause} :
    Frame Foot.takeCause s (State.takeCause s x1) := by
  have h0 := Frame.refl Foot.takeCause s
  unfold State.takeCause
  extract_lets a1 a2
  have h3 : Frame Foot.takeCause s a2 := by
    exact { h0 with prot := fun hb => absurd hb (by decide) }
  clear_value a2
  refine Frame.step State.setLatch_frame ?_
  refine Frame.step State.setLevel_frame ?_
  exact h3

def Foot.raiseAll : Nat := 0x610401AE400000000000000000000000000000000000000000000000000000010000000000000000000101781A0000000004000800000010
theorem State.raiseAll_frame {s : State} {x1 : List TripCause} :
    Frame Foot.raiseAll s (State.raiseAll s x1) := by
  have h0 := Frame.refl Foot.raiseAll s
  unfold State.raiseAll
  extract_lets a1 a2
  have h3 : Frame Foot.raiseAll s a1 := by
    refine Frame.step State.settle_frame ?_
    exact h0
  clear_value a1
  refine Frame.step State.actAll_frame ?_
  refine Frame.foldl ?_ (fun u4 x5 h6 => ?_)
  · exact h3
  · refine Frame.step State.takeCause_frame ?_
    exact h6

def Foot.raiseNow : Nat := 0x610401AE400000000000000000000000000000000000000000000000000000010000000000000000000101781A0000000004000800000010
theorem State.raiseNow_frame {s : State} {x1 : Nat} {x2 : Nat} {x3 : Nat} :
    Frame Foot.raiseNow s (State.raiseNow s x1 x2 x3) := by
  have h0 := Frame.refl Foot.raiseNow s
  unfold State.raiseNow
  refine Frame.step State.raiseAll_frame ?_
  exact h0

def Foot.raise : Nat := Foot.raiseNow ||| maskBit bit_batch
theorem State.raise_frame {s : State} {x1 x2 x3 : Nat} : Frame Foot.raise s (State.raise s x1 x2 x3) := by
  have h0 := Frame.refl Foot.raise s
  unfold State.raise
  split
  · next b e => exact { h0 with batch := fun hb => absurd hb (by decide), shut := fun _ hn => by rw [e] at hn; cases hn }
  · exact Frame.step State.raiseNow_frame h0

def Foot.closeBatch : Nat := 0x610401AE400000000000000000000000000000000000000000000000000000010000000000000000000101781A0000000004000800000010
theorem State.closeBatch_frame {s : State} :
    Frame Foot.closeBatch s (State.closeBatch s) := by
  have h0 := Frame.refl Foot.closeBatch s
  unfold State.closeBatch
  split
  · exact h0
  · extract_lets a1
    have h2 : Frame Foot.closeBatch s a1 := by
      refine Frame.foldl ?_ (fun u3 x4 h5 => ?_)
      · exact { h0 with batch := fun hb => absurd hb (by decide), shut := fun _ _ => rfl }
      · refine Frame.step State.post_frame ?_
        exact h5
    clear_value a1
    refine Frame.ite ?_ ?_
    · exact h2
    · refine Frame.step State.raiseAll_frame ?_
      exact h2

/-- Nothing is left open. -/
theorem State.closeBatch_none (s : State) : s.closeBatch.batch = none := by
  unfold State.closeBatch
  split
  · next e => exact e
  · next b e =>
    have h : Frame Foot.closeBatch { s with batch := none } ((sortEvs b.events).foldl State.post { s with batch := none }) :=
      Frame.foldl (Frame.refl _ _) fun _ _ h => Frame.step State.post_frame h
    dsimp only
    split
    · exact h.shut (by decide) rfl
    · exact (Frame.step (K := Foot.closeBatch) State.raiseAll_frame h).shut (by decide) rfl

def Foot.openBatch : Nat := maskBit bit_batch ||| maskBit bit_open

theorem State.openBatch_frame {s : State} : Frame Foot.openBatch s (State.openBatch s) :=
  { Frame.refl Foot.openBatch s with batch := fun hb => absurd hb (by decide), shut := fun hb => absurd hb (by decide) }

def Foot.endCause : Nat := 0x2000000000000000000000000000000000000000000000000000000000000000000000000000000060000000000000000000000000
theorem State.endCause_frame {s : State} {x1 : Nat} {x2 : Nat} :
    Frame Foot.endCause s (State.endCause s x1 x2) := by
  have h0 := Frame.refl Foot.endCause s
  unfold State.endCause
  extract_lets a1 a2 a3
  have h4 : Frame Foot.endCause s a3 := by
    exact { h0 with prot := fun hb => absurd hb (by decide) }
  clear_value a3
  refine Frame.ite ?_ ?_
  · exact h4
  · refine Frame.step State.setLevel_frame ?_
    exact h4

def Foot.openStates : Nat := 0x610401AE400000000000000000000000000000000000000000000000000000010000000000000000000101001A0000000004000800000010
theorem State.openStates_frame {s : State} :
    Frame Foot.openStates s (State.openStates s) := by
  have h0 := Frame.refl Foot.openStates s
  unfold State.openStates
  refine Frame.ite ?_ ?_
  · exact h0
  · refine Frame.foldl ?_ (fun u1 x2 h3 => ?_)
    · exact { h0 with prot := fun hb => absurd hb (by decide) }
    · refine Frame.ite ?_ ?_
      · refine Frame.step State.applySafe_frame ?_
        exact h3
      · exact h3

def Foot.startPair : Nat := 0x8000000000000000000000000000000000000000000000000000000000000000000000000000000000000000000000000000000000
theorem State.startPair_frame {s : State} {x1 : Nat} :
    Frame Foot.startPair s (State.startPair s x1) := by
  have h0 := Frame.refl Foot.startPair s
  unfold State.startPair
  extract_lets a1 a2 a3
  refine Frame.step State.regateAt_frame ?_
  refine Frame.step State.setPair_frame ?_
  exact h0

def Foot.startEnabled : Nat := 0x8000000000000000000000000000000000000000000000000000000000000000000000000000000000000000000000000000000000
theorem State.startEnabled_frame {s : State} {x1 : Nat} :
    Frame Foot.startEnabled s (State.startEnabled s x1) := by
  have h0 := Frame.refl Foot.startEnabled s
  unfold State.startEnabled
  refine Frame.foldl ?_ (fun u1 x2 h3 => ?_)
  · exact h0
  · refine Frame.step State.startPair_frame ?_
    exact h3

def Foot.release : Nat := 0x610401AE400000000000000000000000000000000000000000000000000000010000000000000000000101001A0000000004000800000010
theorem State.release_frame {s : State} {x1 : Nat} :
    Frame Foot.release s (State.release s x1) := by
  have h0 := Frame.refl Foot.release s
  unfold State.release
  refine Frame.ite ?_ ?_
  · extract_lets a1 a2 a3 a4 a5 a6 a7 a8
    have h9 : Frame Foot.release s a1 := by
      refine Frame.step State.settle_frame ?_
      exact h0
    clear_value a1
    have h10 : Frame Foot.release s a2 := by
      refine Frame.setFld ?_ (regNo_PROT_USTAT)
      exact h9
    clear_value a2
    have h11 : Frame Foot.release s a3 := by
      refine Frame.ite ?_ ?_
      · refine Frame.step State.setExplicit_frame ?_
        refine Frame.setFld ?_ (regNo_PROT_BRb_STAT _)
        exact h10
      · exact h10
    clear_value a3
    have h12 : Frame Foot.release s a6 := by
      refine Frame.ite ?_ ?_
      · exact { h11 with prot := fun hb => absurd hb (by decide) }
      · exact h11
    clear_value a6
    have h13 : Frame Foot.release s a8 := by
      refine Frame.ite ?_ ?_
      · exact { h12 with prot := fun hb => absurd hb (by decide) }
      · exact h12
    clear_value a8
    refine Frame.step State.openStates_frame ?_
    refine Frame.step State.event_frame ?_
    refine Frame.step State.regate_frame ?_
    refine Frame.step State.startEnabled_frame ?_
    exact h13
  · exact h0

def Foot.updateStanding : Nat := 0x610401AE400000000000000000000000000000000000000000000000000000010000000000000000000101001A0000000004000800000010
theorem State.updateStanding_frame {s : State} {x1 : Nat} {x2 : Option Rat} {x3 : Option Rat} :
    Frame Foot.updateStanding s (State.updateStanding s x1 x2 x3) := by
  have h0 := Frame.refl Foot.updateStanding s
  unfold State.updateStanding
  extract_lets a1 a2 a3
  have h4 : Frame Foot.updateStanding s a2 := by
    refine Frame.setFld ?_ (regNo_PROT_BRb_STAT _)
    refine Frame.setFld ?_ (regNo_PROT_BRb_STAT _)
    exact h0
  clear_value a2
  refine Frame.ite ?_ ?_
  · refine Frame.ite ?_ ?_
    · exact h4
    · refine Frame.step State.applySafe_frame ?_
      exact h4
  · exact h4

/-! ### Discharge -/

def Foot.setDisRes : Nat := 0x2A000000000000000000000000000000000000000000000000000000000000000000000000002000000000000000000000000000000
theorem State.setDisRes_frame {s : State} {x1 : Bool} :
    Frame Foot.setDisRes s (State.setDisRes s x1) := by
  have h0 := Frame.refl Foot.setDisRes s
  unfold State.setDisRes
  extract_lets a1 a2 a3 a4
  have h5 : Frame Foot.setDisRes s a1 := by
    refine Frame.setFld ?_ (regNo_PROT_DIS_STAT)
    refine Frame.step State.settle_frame ?_
    exact h0
  clear_value a1
  have h6 : Frame Foot.setDisRes s a3 := by
    exact { h5 with prot := fun hb => absurd hb (by decide) }
  clear_value a3
  refine Frame.ite ?_ ?_
  · exact { h6 with dis := fun hb => absurd hb (by decide) }
  · refine Frame.step State.regate_frame ?_
    exact h6

def Foot.setDisWind : Nat := 0x800000000000000000000000000000000000000000000000000000000000000000000000000000002000000000000000000000000000000
theorem State.setDisWind_frame {s : State} {x1 : Nat} :
    Frame Foot.setDisWind s (State.setDisWind s x1) := by
  have h0 := Frame.refl Foot.setDisWind s
  unfold State.setDisWind
  extract_lets a1
  have h2 : Frame Foot.setDisWind s a1 := by
    refine Frame.setFld ?_ (regNo_PROT_DIS_STAT)
    exact h0
  clear_value a1
  refine Frame.foldl ?_ (fun u3 x4 h5 => ?_)
  · exact h2
  · extract_lets a6
    refine Frame.step State.publishReal_frame ?_
    refine Frame.step State.publishFlag_frame ?_
    exact h5

def Foot.stopMethods : Nat := 0x80002A000000000000000000000000000000000000000000000000000000000000000000000000002000000000000000000000000000000
theorem State.stopMethods_frame {s : State} :
    Frame Foot.stopMethods s (State.stopMethods s) := by
  have h0 := Frame.refl Foot.stopMethods s
  unfold State.stopMethods
  refine Frame.step State.setDisWind_frame ?_
  refine Frame.step State.setDisRes_frame ?_
  exact h0

def Foot.disDone : Nat := 0x690402AE40000000000000000000000000000000000000000000000000000000000000000000000012000000000000000004000800000010
theorem State.disDone_frame {s : State} {x1 : Bool} :
    Frame Foot.disDone s (State.disDone s x1) := by
  have h0 := Frame.refl Foot.disDone s
  unfold State.disDone
  extract_lets a1 a2
  have h3 : Frame Foot.disDone s a2 := by
    refine Frame.setFld ?_ (regNo_PROT_DIS_TIME)
    refine Frame.setFld ?_ (regNo_PROT_DIS_STAT)
    refine Frame.step State.stopMethods_frame ?_
    exact h0
  clear_value a2
  refine Frame.step State.event_frame ?_
  exact h3

def Foot.disFail : Nat := 0x690402AE40000000000000000000000000000000000000000000000000000000000000000000000012000000000000000004000800000010
theorem State.disFail_frame {s : State} {x1 : Nat} :
    Frame Foot.disFail s (State.disFail s x1) := by
  have h0 := Frame.refl Foot.disFail s
  unfold State.disFail
  extract_lets a1 a2
  have h3 : Frame Foot.disFail s a2 := by
    refine Frame.setFld ?_ (regNo_PROT_DIS_TIME)
    refine Frame.setFld ?_ (regNo_PROT_DIS_STAT)
    refine Frame.setFld ?_ (regNo_PROT_DIS_STAT)
    refine Frame.step State.stopMethods_frame ?_
    exact h0
  clear_value a2
  refine Frame.step State.event_frame ?_
  exact h3

def Foot.disDropEvent : Nat := 0x6104000E40000000000000000000000000000000000000000000000000000000000000000000000002000000000000000004000800000010
theorem State.disDropEvent_frame {s : State} {x1 : Nat} {x2 : Nat} {x3 : Nat} :
    Frame Foot.disDropEvent s (State.disDropEvent s x1 x2 x3) := by
  have h0 := Frame.refl Foot.disDropEvent s
  unfold State.disDropEvent
  refine Frame.step State.event_frame ?_
  refine Frame.setFld ?_ (regNo_PROT_DIS_STAT)
  exact h0

def Foot.disIfNone : Nat := 0x690402AE40000000000000000000000000000000000000000000000000000000000000000000000012000000000000000004000800000010
theorem State.disIfNone_frame {s : State} {x1 : Nat} :
    Frame Foot.disIfNone s (State.disIfNone s x1) := by
  have h0 := Frame.refl Foot.disIfNone s
  unfold State.disIfNone
  refine Frame.ite ?_ ?_
  · refine Frame.step State.disFail_frame ?_
    exact h0
  · exact h0

def Foot.dropResistor : Nat := 0x610402AE40000000000000000000000000000000000000000000000000000000000000000000000002000000000000000004000800000010
theorem State.dropResistor_frame {s : State} {x1 : Nat} :
    Frame Foot.dropResistor s (State.dropResistor s x1) := by
  have h0 := Frame.refl Foot.dropResistor s
  unfold State.dropResistor
  extract_lets a1 a2 a3
  have h4 : Frame Foot.dropResistor s a1 := by
    refine Frame.step State.setDisRes_frame ?_
    exact h0
  clear_value a1
  have h5 : Frame Foot.dropResistor s a3 := by
    refine Frame.ite ?_ ?_
    · exact { h4 with dis := fun hb => absurd hb (by decide) }
    · exact h4
  clear_value a3
  refine Frame.step State.disDropEvent_frame ?_
  exact h5

def Foot.dropWinding : Nat := 0x6904020E40000000000000000000000000000000000000000000000000000000000000000000000002000000000000000004000800000010
theorem State.dropWinding_frame {s : State} {x1 : Nat} {x2 : Nat} :
    Frame Foot.dropWinding s (State.dropWinding s x1 x2) := by
  have h0 := Frame.refl Foot.dropWinding s
  unfold State.dropWinding
  extract_lets a1 a2
  have h3 : Frame Foot.dropWinding s a1 := by
    refine Frame.step State.disDropEvent_frame ?_
    refine Frame.step State.setDisWind_frame ?_
    exact h0
  clear_value a1
  refine Frame.ite ?_ ?_
  · exact { h3 with dis := fun hb => absurd hb (by decide) }
  · exact h3

def Foot.disStart : Nat := 0x690402AE4000000000000000000000000000000000000000000000000000000000000000000000001E000000000000000004000800000010
theorem State.disStart_frame {s : State} {x1 : Bool} {x2 : Nat} {x3 : Word} {x4 : Nat} {x5 : Nat} :
    Frame Foot.disStart s (State.disStart s x1 x2 x3 x4 x5) := by
  have h0 := Frame.refl Foot.disStart s
  unfold State.disStart
  extract_lets a1 a2 a3 a4 a5 a6 a7
  have h8 : Frame Foot.disStart s a4 := by
    exact { h0 with dis := fun hb => absurd hb (by decide) }
  clear_value a4
  have h9 : Frame Foot.disStart s a5 := by
    refine Frame.setReg ?_ (regNo_PROT_DIS_EEST)
    refine Frame.setReg ?_ (regNo_PROT_DIS_STAT)
    exact h8
  clear_value a5
  have h10 : Frame Foot.disStart s a6 := by
    refine Frame.setReg ?_ (regNo_PROT_DIS_TIME)
    refine Frame.setReg ?_ (regNo_PROT_DIS_ERES)
    exact h9
  clear_value a6
  have h11 : Frame Foot.disStart s a7 := by
    refine Frame.step State.setDisWind_frame ?_
    refine Frame.step State.setDisRes_frame ?_
    exact h10
  clear_value a7
  refine Frame.step State.event_frame ?_
  exact h11

def Foot.disAuto : Nat := 0x690402AE4000000000000000000000000000000000000000000000000000000000000000000000001E000000000000000004000800000010
theorem State.disAuto_frame {s : State} {x1 : Bool} {x2 : Nat} :
    Frame Foot.disAuto s (State.disAuto s x1 x2) := by
  have h0 := Frame.refl Foot.disAuto s
  unfold State.disAuto
  extract_lets a1 a2
  refine Frame.ite ?_ ?_
  · exact h0
  · refine Frame.step State.disStart_frame ?_
    exact h0

def Foot.trip : Nat := 0x690403AE4000000000000000000000000000000000000000000000000000000100000000000000001E0101181A0000000004000800000010
theorem State.trip_frame {s : State} {x1 : List Nat} :
    Frame Foot.trip s (State.trip s x1) := by
  have h0 := Frame.refl Foot.trip s
  unfold State.trip
  extract_lets a1 a2 a3
  have h4 : Frame Foot.trip s a3 := by
    refine Frame.step State.tripAll_frame ?_
    exact h0
  clear_value a3
  refine Frame.ite ?_ ?_
  · refine Frame.step State.disAuto_frame ?_
    exact h4
  · exact h4

/-! ### Halt -/

def Foot.setSqState : Nat := 0x40000000000
theorem State.setSqState_frame {s : State} {x1 : Nat} {x2 : Nat} :
    Frame Foot.setSqState s (State.setSqState s x1 x2) := by
  have h0 := Frame.refl Foot.setSqState s
  unfold State.setSqState
  refine Frame.setFld ?_ (regNo_CMD_SQn_STAT _)
  exact h0

def Foot.refreshRings : Nat := 0x41000000000
theorem State.refreshRings_frame {s : State} :
    Frame Foot.refreshRings s (State.refreshRings s) := by
  have h0 := Frame.refl Foot.refreshRings s
  unfold State.refreshRings
  extract_lets a1 a2 a3
  have h4 : Frame Foot.refreshRings s a3 := by
    refine Frame.setFld ?_ (regNo_CMD_STAGE)
    refine Frame.setFld ?_ (regNo_CMD_STAGE)
    exact h0
  clear_value a3
  refine Frame.foldl ?_ (fun u5 x6 h7 => ?_)
  · exact h4
  · extract_lets a8
    refine Frame.ite ?_ ?_
    · exact h7
    · refine Frame.step State.setSqState_frame ?_
      exact h7

def Foot.sendResumePoint : Nat := 0xA00000000000000000000000000000000000000000000000000000000000000000000000000000000000000000000000800000000
theorem State.sendResumePoint_frame {s : State} :
    Frame Foot.sendResumePoint s (State.sendResumePoint s) := by
  have h0 := Frame.refl Foot.sendResumePoint s
  unfold State.sendResumePoint
  extract_lets a1
  split
  rename_i x2 x3 x4 x5
  refine Frame.cutR (K := Foot.sendResumePoint) (s := s) x5 ?_ (fun h6 => ?_)
  · refine FrameR.step State.takePsn_frame ?_
    exact h0
  · refine Frame.step State.sendLedger_frame ?_
    exact h6

def Foot.stopEngine : Nat := 0x6014000A40000000000000000000000000000000000000000000000000000000000000000000000000000000000000000024000800000000
theorem State.stopEngine_frame {s : State} :
    Frame Foot.stopEngine s (State.stopEngine s) := by
  have h0 := Frame.refl Foot.stopEngine s
  unfold State.stopEngine
  extract_lets a1 a2 a3
  have h4 : Frame Foot.stopEngine s a1 := by
    refine Frame.setFld ?_ (regNo_ENG_STAT)
    refine Frame.step State.postFound_frame ?_
    exact h0
  clear_value a1
  exact { h4 with cmdRest := fun hb => absurd hb (by decide), eng := fun hb => absurd hb (by decide) }

def Foot.flushAll : Nat := 0x6004000BE0000000000000000000000000000000000000000000000000000000000000000000000000000000000000000004000800000000
theorem State.flushAll_frame {s : State} :
    Frame Foot.flushAll s (State.flushAll s) := by
  have h0 := Frame.refl Foot.flushAll s
  unfold State.flushAll
  extract_lets a1 a2 a3 a4 a5
  have h6 : Frame Foot.flushAll s a3 := by
    refine Frame.foldl ?_ (fun u7 x8 h9 => ?_)
    · exact h0
    · refine Frame.step State.postCompletion_frame ?_
      exact h9
  clear_value a3
  have h10 : Frame Foot.flushAll s a5 := by
    exact { h6 with staged := fun hb => absurd hb (by decide), posting := fun hb => absurd hb (by decide), cmdRest := fun hb => absurd hb (by decide) }
  clear_value a5
  refine Frame.foldl ?_ (fun u11 x12 h13 => ?_)
  · exact h10
  · refine Frame.step State.setSq_frame ?_
    exact h13

def Foot.haltDevice : Nat := 0x691403AFE000000000000000000000000000000000000000000000000000000100000000000000001E0101001A0000000024041800000010
theorem State.haltDevice_frame {s : State} {x1 : Word} :
    Frame Foot.haltDevice s (State.haltDevice s x1) := by
  have h0 := Frame.refl Foot.haltDevice s
  unfold State.haltDevice
  refine Frame.ite ?_ ?_
  · exact h0
  · extract_lets a1 a2 a3 a4 a5 a6
    have h7 : Frame Foot.haltDevice s a1 := by
      refine Frame.step State.updateSafeN_frame ?_
      refine Frame.setFld ?_ (regNo_SYS_FAULTSTAT)
      refine Frame.step State.settle_frame ?_
      exact h0
    clear_value a1
    have h8 : Frame Foot.haltDevice s a2 := by
      refine Frame.step State.applySafeAll_frame ?_
      exact h7
    clear_value a2
    have h9 : Frame Foot.haltDevice s a3 := by
      refine Frame.step State.flushAll_frame ?_
      refine Frame.step State.stopEngine_frame ?_
      exact h8
    clear_value a3
    have h10 : Frame Foot.haltDevice s a4 := by
      refine Frame.step State.event_frame ?_
      exact h9
    clear_value a4
    have h11 : Frame Foot.haltDevice s a5 := by
      refine Frame.ite ?_ ?_
      · refine Frame.step State.disAuto_frame ?_
        exact h10
      · exact h10
    clear_value a5
    have h12 : Frame Foot.haltDevice s a6 := by
      refine Frame.foldl ?_ (fun u13 x14 h15 => ?_)
      · exact h11
      · refine Frame.ite ?_ ?_
        · refine Frame.step State.setSqState_frame ?_
          exact h15
        · exact h15
    clear_value a6
    refine Frame.step State.sendResumePoint_frame ?_
    refine Frame.step State.refreshRings_frame ?_
    exact h12

def Foot.f4 : Nat := 0x691403AFE000000000000000000000000000000000000000000000000000000100000000000000001E0101001A0000000024041800000010
theorem State.f4_frame {s : State} {x1 : Ev} :
    Frame Foot.f4 s (State.f4 s x1) := by
  have h0 := Frame.refl Foot.f4 s
  unfold State.f4
  extract_lets a1
  refine Frame.step State.haltDevice_frame ?_
  refine Frame.step State.event_frame ?_
  exact h0

/-! ### Operands -/

def Foot.setHeld : Nat := 0x10000000000000000000000000000000000000000000000000000000000000000000000000000000000000000000000000000000000000
theorem State.setHeld_frame {s : State} {x1 : Nat} {x2 : Nat} {x3 : Nat} {x4 : Word} :
    Frame Foot.setHeld s (State.setHeld s x1 x2 x3 x4) := by
  have h0 := Frame.refl Foot.setHeld s
  unfold State.setHeld
  exact { h0 with eng := fun hb => absurd hb (by decide) }

def Foot.setStallRunning : Nat := 0x1000000000000000
theorem State.setStallRunning_frame {s : State} {x1 : Nat} {x2 : Bool} :
    Frame Foot.setStallRunning s (State.setStallRunning s x1 x2) := by
  have h0 := Frame.refl Foot.setStallRunning s
  unfold State.setStallRunning
  refine Frame.setReg ?_ (regNo_ENG_RUNMAPj _)
  exact h0

def Foot.setLoaded : Nat := 0x10000000000000000000000000000000000000000000000000000000000000000000000000000000000000000000000000000000000000
theorem State.setLoaded_frame {s : State} {x1 : Nat} {x2 : Loaded} :
    Frame Foot.setLoaded s (State.setLoaded s x1 x2) := by
  have h0 := Frame.refl Foot.setLoaded s
  unfold State.setLoaded
  exact { h0 with eng := fun hb => absurd hb (by decide) }

/-! ### TollGate -/

def Foot.postBindRefused : Nat := 0x6104000E40000000000000000000000000000000000000000000000000000000000000000000000000000000000000000004000800000010
theorem State.postBindRefused_frame {s : State} {x1 : Nat × Nat} :
    Frame Foot.postBindRefused s (State.postBindRefused s x1) := by
  have h0 := Frame.refl Foot.postBindRefused s
  unfold State.postBindRefused
  refine Frame.step State.event_frame ?_
  exact h0

def Foot.refreshToll : Nat := 0x3C0000000000000
theorem State.refreshToll_frame {s : State} :
    Frame Foot.refreshToll s (State.refreshToll s) := by
  have h0 := Frame.refl Foot.refreshToll s
  unfold State.refreshToll
  extract_lets a1
  refine Frame.setFld ?_ (regNo_ENG_TADM)
  refine Frame.setFld ?_ (regNo_ENG_TOLL_BUD)
  refine Frame.setFld ?_ (regNo_ENG_TOLL_SMAX)
  refine Frame.setFld ?_ (regNo_ENG_TOLL_REQ)
  exact h0

def Foot.postTollRefused : Nat := 0x6104000E40000000000000000000000000000000000000000000000000000000000000000000000000000000000000000004000800000010
theorem State.postTollRefused_frame {s : State} {x1 : Nat} :
    Frame Foot.postTollRefused s (State.postTollRefused s x1) := by
  have h0 := Frame.refl Foot.postTollRefused s
  unfold State.postTollRefused
  refine Frame.step State.event_frame ?_
  exact h0

def Foot.engineRefusal : Nat := 0x6104000E40000000000000000000000000000000000000000000000000000000000000000000000000000000000000000004000800000010
theorem State.engineRefusal_frame {s : State} :
    FrameP Foot.engineRefusal s (State.engineRefusal s) := by
  have h0 := Frame.refl Foot.engineRefusal s
  unfold State.engineRefusal
  split
  · refine FrameP.some ?_
    intro u1
    have h2 := Frame.refl Foot.engineRefusal u1
    dsimp -zeta only
    refine Frame.step State.postBindRefused_frame ?_
    exact h2
  · refine FrameP.ite ?_ ?_
    · exact FrameP.none
    · refine FrameP.some ?_
      intro u3
      have h4 := Frame.refl Foot.engineRefusal u3
      dsimp -zeta only
      refine Frame.step State.postTollRefused_frame ?_
      exact h4

def Foot.writeBind : Nat := 0x6104000E400000000000000000000000000000000000000000000000000000000000000000000000000000000000000023C4000800000010
theorem State.writeBind_frame {s : State} {x1 : Nat} {x2 : Word} :
    FrameE Foot.writeBind s (State.writeBind s x1 x2) := by
  have h0 := Frame.refl Foot.writeBind s
  unfold State.writeBind
  extract_lets a1
  have h2 : Frame Foot.writeBind s a1 := by
    refine Frame.setReg ?_ (regNo_ENG_BINDn _)
    exact h0
  clear_value a1
  refine FrameE.ite ?_ ?_
  · split
    · rename_i x3 x4 x5
      refine Frame.cutP (K := Foot.writeBind) (s := s) x5 ?_ (fun h6 => ?_)
      · refine FrameP.step State.engineRefusal_frame ?_
        exact h2
      · refine FrameE.inr ?_
        exact h6
    · rename_i x7 x8
      refine FrameE.inl ?_
      refine Frame.step State.refreshToll_frame ?_
      exact h2
  · refine FrameE.inl ?_
    refine Frame.step State.refreshToll_frame ?_
    exact h2

def Foot.writeRun : Nat := 0x6114000E400000000000000000000000000000000000000000000000000000000000000000000000000000000000000203F4000800000010
theorem State.writeRun_frame {s : State} {x1 : Word} :
    FrameE Foot.writeRun s (State.writeRun s x1) := by
  have h0 := Frame.refl Foot.writeRun s
  unfold State.writeRun
  extract_lets a1 a2 a3
  have h4 : Frame Foot.writeRun s a1 := by
    refine Frame.setFld ?_ (regNo_ENG_STAT)
    refine Frame.setReg ?_ (regNo_ENG_CFG)
    exact h0
  clear_value a1
  have h5 : Frame Foot.writeRun s a2 := by
    refine Frame.setFld ?_ (regNo_TPR_STAT)
    refine Frame.setFld ?_ (regNo_ENG_STAT)
    exact h4
  clear_value a2
  split
  · rename_i x6 x7 x8
    refine Frame.cutP (K := Foot.writeRun) (s := s) x8 ?_ (fun h9 => ?_)
    · refine FrameP.step State.engineRefusal_frame ?_
      exact h4
    · refine FrameE.inr ?_
      exact h9
  · rename_i x10 x11
    refine FrameE.inl ?_
    refine Frame.step State.refreshToll_frame ?_
    exact { h5 with eng := fun hb => absurd hb (by decide) }

/-! ### Passes -/

def Foot.setSigRun : Nat := 0x10000000000000000000000000000000000000000000000000000000000000000000000000000000000000000000000000000000000000
theorem State.setSigRun_frame {s : State} {x1 : Nat} {x2 : Nat} {x3 : Word} :
    Frame Foot.setSigRun s (State.setSigRun s x1 x2 x3) := by
  have h0 := Frame.refl Foot.setSigRun s
  unfold State.setSigRun
  exact { h0 with eng := fun hb => absurd hb (by decide) }

def Foot.reseed : Nat := 0x10000000000000000000000000000000000000000000000000000000000000000000000000000000000000000000000000000000000000
theorem State.reseed_frame {s : State} {x1 : Nat} :
    Frame Foot.reseed s (State.reseed s x1) := by
  have h0 := Frame.refl Foot.reseed s
  unfold State.reseed
  refine Frame.foldl ?_ (fun u1 x2 h3 => ?_)
  · exact h0
  · refine Frame.step State.setSigRun_frame ?_
    exact h3

def Foot.foldSig : Nat := 0x10000000000000000000000000000000000000000000000000000000000000000000000000000000000000000000000000000000000000
theorem State.foldSig_frame {s : State} {x1 : Nat} {x2 : Nat} :
    Frame Foot.foldSig s (State.foldSig s x1 x2) := by
  have h0 := Frame.refl Foot.foldSig s
  unfold State.foldSig
  refine Frame.step State.setSigRun_frame ?_
  exact h0

def Foot.copyPass : Nat := 0x10000000000000000000000000000000000000000000000000000000000000000000000000000000000000000000000000000000000000
theorem State.copyPass_frame {s : State} {x1 : Nat} {x2 : Nat} {x3 : Nat} :
    Frame Foot.copyPass s (State.copyPass s x1 x2 x3) := by
  have h0 := Frame.refl Foot.copyPass s
  unfold State.copyPass
  refine Frame.foldl ?_ (fun u1 x2 h3 => ?_)
  · exact h0
  · refine Frame.step State.setHeld_frame ?_
    exact h3

def Foot.rangeFinding : Nat := 0x10000200000000000000000000000000000000000000000000000000000000000000000000000000000000000000000400000000000000
theorem State.rangeFinding_frame {s : State} {x1 : Nat} {x2 : Nat} {x3 : Nat} {x4 : Nat} :
    Frame Foot.rangeFinding s (State.rangeFinding s x1 x2 x3 x4) := by
  have h0 := Frame.refl Foot.rangeFinding s
  unfold State.rangeFinding
  extract_lets a1 a2 a3 a4
  have h5 : Frame Foot.rangeFinding s a1 := by
    refine Frame.count ?_ (regNo_ENG_CNT)
    exact h0
  clear_value a1
  refine Frame.ite ?_ ?_
  · exact { h5 with cmdRest := fun hb => absurd hb (by decide), eng := fun hb => absurd hb (by decide) }
  · exact h5

def Foot.commitRun : Nat := 0x10000000000000000000000000000000000000000000000000000000000000000000000000000000000000000000000000000000000000
theorem State.commitRun_frame {s : State} {x1 : Nat} {x2 : Nat} {x3 : Run} :
    Frame Foot.commitRun s (State.commitRun s x1 x2 x3) := by
  have h0 := Frame.refl Foot.commitRun s
  unfold State.commitRun
  extract_lets a1 a2 a3
  have h4 : Frame Foot.commitRun s a1 := by
    refine Frame.foldl ?_ (fun u5 x6 h7 => ?_)
    · exact h0
    · refine Frame.step State.setHeld_frame ?_
      exact h7
  clear_value a1
  have h8 : Frame Foot.commitRun s a2 := by
    refine Frame.foldl ?_ (fun u9 x10 h11 => ?_)
    · exact h4
    · refine Frame.step State.setHeld_frame ?_
      exact h11
  clear_value a2
  refine Frame.step State.foldSig_frame ?_
  exact { h8 with eng := fun hb => absurd hb (by decide) }

def Foot.rangeFindings : Nat := 0x10000200000000000000000000000000000000000000000000000000000000000000000000000000000000000000000400000000000000
theorem State.rangeFindings_frame {s : State} {x1 : Nat} {x2 : Nat} {x3 : Run} :
    Frame Foot.rangeFindings s (State.rangeFindings s x1 x2 x3) := by
  have h0 := Frame.refl Foot.rangeFindings s
  unfold State.rangeFindings
  extract_lets a1
  refine Frame.foldl ?_ (fun u2 x3 h4 => ?_)
  · exact h0
  · refine Frame.step State.rangeFinding_frame ?_
    exact h4

def Foot.runPass : Nat := Foot.commitRun ||| Foot.rangeFindings

theorem State.runPass_frame {us : List Upset} {stop : Option EngineStop} {p start : Nat} {l : List Nat} {K : Nat}
    {s : State} {acc : State × List (Nat × Nat × Nat)} (h : Frame K s acc.1) (hF : Within Foot.runPass K := by decide) :
    Frame K s (State.runPass us stop p l start acc).1 := by
  have hf : Within Foot.rangeFindings K := Within.trans (by decide) hF
  have hc : Within Foot.commitRun K := Within.trans (by decide) hF
  induction l generalizing acc start with
  | nil => exact h
  | cons n rest ih =>
    obtain ⟨t, ev⟩ := acc
    unfold State.runPass
    extract_lets ops
    split
    · exact Frame.ite (Frame.step State.rangeFindings_frame h hf) h
    · refine ih ?_
      have h1 := Frame.step (State.commitRun_frame (s := t) (x1 := p) (x2 := n)
        (x3 := t.execOps us p n 0 {} ops)) h hc
      exact Frame.ite (Frame.step State.rangeFindings_frame h1 hf) h1

def Foot.runPasses : Nat := Foot.runPass ||| maskBit bit_eng

theorem State.runPasses_frame {s : State} {us : List Upset} {stop : Option EngineStop} :
    Frame Foot.runPasses s (s.runPasses us stop) := by
  unfold State.runPasses
  extract_lets due limit a b c t all ranA
  have ha : Frame Foot.runPasses s a.1 := State.runPass_frame (Frame.refl _ s)
  have hb : Frame Foot.runPasses s b.1 := by
    show Frame _ s (if 1 ≤ limit then State.runPass us stop 1 due 0 (a.1, []) else (a.1, [])).1
    split
    · exact State.runPass_frame ha
    · exact ha
  have hc : Frame Foot.runPasses s c.1 := by
    show Frame _ s (if 2 ≤ limit then State.runPass us stop 2 due 0 (b.1, []) else (b.1, [])).1
    split
    · exact State.runPass_frame hb
    · exact hb
  exact { hc with eng := fun hb => absurd hb (by decide) }

def Foot.flipWords : Nat := 0x10000000000000000000000000000000000000000000000000000000000000000000000000000000000000000000000000000000000000
theorem State.flipWords_frame {s : State} {x1 : List Upset} :
    Frame Foot.flipWords s (State.flipWords s x1) := by
  have h0 := Frame.refl Foot.flipWords s
  unfold State.flipWords
  refine Frame.foldl ?_ (fun u1 x2 h3 => ?_)
  · exact h0
  · extract_lets a4
    refine Frame.step State.setHeld_frame ?_
    exact h3

def Foot.swapClass : Nat := 0x695407AFE000000000000000010240000000000000000000000000000000000100000000000000001E0101001A0000000424041800000010
theorem State.swapClass_frame {s : State} {x1 : Nat} :
    Frame Foot.swapClass s (State.swapClass s x1) := by
  have h0 := Frame.refl Foot.swapClass s
  unfold State.swapClass
  extract_lets a1 a2 a3 a4 a5
  have h6 : Frame Foot.swapClass s a2 := by
    refine Frame.step State.claimSpare_frame ?_
    refine Frame.step State.unitDetected_frame ?_
    exact h0
  clear_value a2
  have h7 : Frame Foot.swapClass s a3 := by
    refine Frame.setReg ?_ (regNo_ENG_STAT)
    exact h6
  clear_value a3
  have h8 : Frame Foot.swapClass s a4 := by
    refine Frame.setReg ?_ (regNo_ENG_STAT)
    exact h7
  clear_value a4
  have h9 : Frame Foot.swapClass s a5 := by
    refine Frame.setReg ?_ (regNo_ENG_STAT)
    exact h8
  clear_value a5
  refine Frame.ite ?_ ?_
  · refine Frame.step State.event_frame ?_
    refine Frame.count ?_ (regNo_ENG_CNT)
    exact h9
  · refine Frame.step State.f4_frame ?_
    refine Frame.step State.unitDetected_frame ?_
    exact h0

def Foot.swapClasses : Nat := 0x695407AFE000000000000000010240000000000000000000000000000000000100000000000000001E0101001A0000000424041800000010
theorem State.swapClasses_frame {s : State} :
    Frame Foot.swapClasses s (State.swapClasses s) := by
  have h0 := Frame.refl Foot.swapClasses s
  unfold State.swapClasses
  extract_lets a1 a2
  refine Frame.foldl ?_ (fun u3 x4 h5 => ?_)
  · exact { h0 with eng := fun hb => absurd hb (by decide) }
  · refine Frame.step State.swapClass_frame ?_
    exact h5

def Foot.watchMismatch : Nat := 0x10000000000000000000000000000000000000000000000000000000000000000000000000000000000000000000000020000000000000
theorem State.watchMismatch_frame {s : State} {x1 : Nat} :
    Frame Foot.watchMismatch s (State.watchMismatch s x1) := by
  have h0 := Frame.refl Foot.watchMismatch s
  unfold State.watchMismatch
  extract_lets a1 a2 a3
  have h4 : Frame Foot.watchMismatch s a2 := by
    refine Frame.setFld ?_ (regNo_ENG_STAT)
    exact h0
  clear_value a2
  refine Frame.ite ?_ ?_
  · exact h0
  · exact { h4 with eng := fun hb => absurd hb (by decide) }

def Foot.startWatch : Nat := 0x6154040E40000000000000000102400000000000000000000000000000000000000000000000000000000000000000000024000800000010
theorem State.startWatch_frame {s : State} :
    Frame Foot.startWatch s (State.startWatch s) := by
  have h0 := Frame.refl Foot.startWatch s
  unfold State.startWatch
  extract_lets a1 a2 a3 a4 a5 a6
  have h7 : Frame Foot.startWatch s a3 := by
    refine Frame.foldl ?_ (fun u8 x9 h10 => ?_)
    · exact h0
    · refine Frame.ite ?_ ?_
      · refine Frame.step State.abortTest_frame ?_
        exact h10
      · exact h10
  clear_value a3
  have h11 : Frame Foot.startWatch s a6 := by
    exact { h7 with eng := fun hb => absurd hb (by decide) }
  clear_value a6
  refine Frame.setFld ?_ (regNo_ENG_STAT)
  exact h11

def Foot.copyStalls : Nat := 0x10000000000000000000000000000000000000000000000000000000000000000000000000000000000000000000000000000000000000
theorem State.copyStalls_frame {s : State} :
    Frame Foot.copyStalls s (State.copyStalls s) := by
  have h0 := Frame.refl Foot.copyStalls s
  unfold State.copyStalls
  extract_lets a1 a2 a3
  have h4 : Frame Foot.copyStalls s a3 := by
    exact { h0 with eng := fun hb => absurd hb (by decide) }
  clear_value a3
  refine Frame.foldl ?_ (fun u5 x6 h7 => ?_)
  · exact h4
  · refine Frame.step State.reseed_frame ?_
    refine Frame.step State.copyPass_frame ?_
    refine Frame.step State.copyPass_frame ?_
    exact h7

def Foot.startEngine : Nat := 0x695407AFE000000000000000010240000000000000000000000000000000000100000000000000001E0101001A0000000424041800000010
theorem State.startEngine_frame {s : State} {x1 : List Upset} {x2 : Option EngineStop} {x3 : Nat} {x4 : Nat} :
    Frame Foot.startEngine s (State.startEngine s x1 x2 x3 x4) := by
  have h0 := Frame.refl Foot.startEngine s
  unfold State.startEngine
  extract_lets a1 a2 a3 a4 a5 a6
  have h7 : Frame Foot.startEngine s a1 := by
    refine Frame.ite ?_ ?_
    · refine Frame.step State.swapClasses_frame ?_
      exact h0
    · exact h0
  clear_value a1
  have h8 : Frame Foot.startEngine s a2 := by
    refine Frame.step State.copyStalls_frame ?_
    exact h7
  clear_value a2
  have h9 : Frame Foot.startEngine s a4 := by
    exact { h8 with eng := fun hb => absurd hb (by decide) }
  clear_value a4
  have h10 : Frame Foot.startEngine s a5 := by
    refine Frame.step State.watchMismatch_frame ?_
    refine Frame.step State.flipWords_frame ?_
    refine Frame.step State.runPasses_frame ?_
    exact h9
  clear_value a5
  refine Frame.ite ?_ ?_
  · exact { h10 with eng := fun hb => absurd hb (by decide) }
  · exact h7

/-! ### Vote -/

def Foot.keepPrior : Nat := 0x10000000000000000000000000000000000000000000000000000000000000000000000000000000000000000000000000000000000000
theorem State.keepPrior_frame {s : State} :
    Frame Foot.keepPrior s (State.keepPrior s) := by
  have h0 := Frame.refl Foot.keepPrior s
  unfold State.keepPrior
  exact { h0 with eng := fun hb => absurd hb (by decide) }

def Foot.openHold : Nat := 0x100000000000000000000000000000000000000000000000000000000000000000000000000000000000000000000A0000000000000000
theorem State.openHold_frame {s : State} {x1 : Nat} :
    Frame Foot.openHold s (State.openHold s x1) := by
  have h0 := Frame.refl Foot.openHold s
  unfold State.openHold
  refine Frame.ite ?_ ?_
  · refine Frame.step State.keepPrior_frame ?_
    exact h0
  · extract_lets a1 a2
    have h3 : Frame Foot.openHold s a1 := by
      refine Frame.count ?_ (regNo_TPR_CNT_B)
      refine Frame.setFld ?_ (regNo_TPR_STAT)
      refine Frame.setFld ?_ (regNo_TPR_STAT)
      exact h0
    clear_value a1
    exact { h3 with eng := fun hb => absurd hb (by decide) }

def Foot.commandSafe : Nat := 0x611401AE400000000000000000000000000000000000000000000000000000010000000000000000000101781A0000000004000800000010
theorem State.commandSafe_frame {s : State} {x1 : Nat} {x2 : Nat} :
    Frame Foot.commandSafe s (State.commandSafe s x1 x2) := by
  have h0 := Frame.refl Foot.commandSafe s
  unfold State.commandSafe
  extract_lets a1 a2
  have h3 : Frame Foot.commandSafe s a2 := by
    exact { h0 with eng := fun hb => absurd hb (by decide) }
  clear_value a2
  refine Frame.ite ?_ ?_
  · exact h3
  · refine Frame.step State.raise_frame ?_
    exact h3

def Foot.divergence : Nat := 0x6114000E400000000000000000000000000000000000000000000000000000000000000000000000000000000000000A0004000800000010
theorem State.divergence_frame {s : State} {x1 : Nat} {x2 : Nat} {x3 : Nat} :
    Frame Foot.divergence s (State.divergence s x1 x2 x3) := by
  have h0 := Frame.refl Foot.divergence s
  unfold State.divergence
  extract_lets a1 a2 a3 a4
  have h5 : Frame Foot.divergence s a2 := by
    refine Frame.step State.event_frame ?_
    refine Frame.count ?_ (regNo_TPR_CNT_B)
    exact h0
  clear_value a2
  have h6 : Frame Foot.divergence s a4 := by
    exact { h5 with eng := fun hb => absurd hb (by decide) }
  clear_value a4
  refine Frame.step State.openHold_frame ?_
  exact h6

def Foot.resync : Nat := 0x6154040E40000000000000000102400000000000000000000000000000000000000000000000000000000000000000040024000800000010
theorem State.resync_frame {s : State} {x1 : Nat} {x2 : Nat} {x3 : Nat} {x4 : Nat} :
    Frame Foot.resync s (State.resync s x1 x2 x3 x4) := by
  have h0 := Frame.refl Foot.resync s
  unfold State.resync
  extract_lets a1 a2 a3
  have h4 : Frame Foot.resync s a1 := by
    refine Frame.step State.setSigRun_frame ?_
    refine Frame.step State.copyPass_frame ?_
    exact h0
  clear_value a1
  have h5 : Frame Foot.resync s a3 := by
    exact { h4 with eng := fun hb => absurd hb (by decide) }
  clear_value a3
  refine Frame.step State.startWatch_frame ?_
  refine Frame.step State.event_frame ?_
  refine Frame.count ?_ (regNo_TPR_CNT_A)
  exact h5

def Foot.saltedTest : Nat := 0x691403AFE000000000000000000000000000000000000000000000000000000100000000000000001E0101001A00001A0024041800000010
theorem State.saltedTest_frame {s : State} {x1 : Nat} {x2 : Option Bool} :
    Frame Foot.saltedTest s (State.saltedTest s x1 x2) := by
  have h0 := Frame.refl Foot.saltedTest s
  unfold State.saltedTest
  extract_lets a1 a2 a3 a4 a5 a6 a7 a8
  have h9 : Frame Foot.saltedTest s a5 := by
    refine Frame.setReg ?_ (regNo_TPR_SALT)
    exact h0
  clear_value a5
  split
  · exact h9
  · extract_lets a10 a11 a12
    have h13 : Frame Foot.saltedTest s a10 := by
      refine Frame.step State.event_frame ?_
      refine Frame.count ?_ (regNo_TPR_CNT_B)
      exact h9
    clear_value a10
    have h14 : Frame Foot.saltedTest s a12 := by
      exact { h13 with eng := fun hb => absurd hb (by decide) }
    clear_value a12
    refine Frame.ite ?_ ?_
    · refine Frame.step State.haltDevice_frame ?_
      exact h14
    · refine Frame.step State.openHold_frame ?_
      exact h14

def Foot.stageOutputs : Nat := 0x10000000000000000000000000000000000000000000000000000000000000000000000000000000000000000000000000000000000000
theorem State.stageOutputs_frame {s : State} :
    Frame Foot.stageOutputs s (State.stageOutputs s) := by
  have h0 := Frame.refl Foot.stageOutputs s
  unfold State.stageOutputs
  refine Frame.ite ?_ ?_
  · exact h0
  · exact { h0 with eng := fun hb => absurd hb (by decide) }

def Foot.advanceWindow : Nat := 0x10000000000000000000000000000000000000000000000000000000000000000000000000000000000000000000020000000000000000
theorem State.advanceWindow_frame {s : State} {x1 : Bool} :
    Frame Foot.advanceWindow s (State.advanceWindow s x1) := by
  have h0 := Frame.refl Foot.advanceWindow s
  unfold State.advanceWindow
  refine Frame.ite ?_ ?_
  · extract_lets a1 a2
    have h3 : Frame Foot.advanceWindow s a1 := by
      refine Frame.setFld ?_ (regNo_TPR_STAT)
      exact h0
    clear_value a1
    exact { h3 with eng := fun hb => absurd hb (by decide) }
  · refine Frame.setFld ?_ (regNo_TPR_STAT)
    exact h0

def Foot.endVote : Nat := 0x691403AFE000000000000000000000000000000000000000000000000000000100000000000000001E0101001A00001A0024041800000010
theorem State.endVote_frame {s : State} {x1 : Option Bool} {x2 : Bool} {x3 : Bool} :
    Frame Foot.endVote s (State.endVote s x1 x2 x3) := by
  have h0 := Frame.refl Foot.endVote s
  unfold State.endVote
  extract_lets a1 a2 a3 a4 a5 a6 a7
  have h8 : Frame Foot.endVote s a2 := by
    refine Frame.step State.advanceWindow_frame ?_
    exact h0
  clear_value a2
  have h9 : Frame Foot.endVote s a4 := by
    dsimp -zeta only [a4]
    clear_value a1
    split
    · refine Frame.step State.saltedTest_frame ?_
      exact { h8 with eng := fun hb => absurd hb (by decide) }
    · exact h8
  clear_value a4
  have h10 : Frame Foot.endVote s a5 := by
    refine Frame.ite ?_ ?_
    · refine Frame.step State.stageOutputs_frame ?_
      exact h9
    · exact h9
  clear_value a5
  refine Frame.ite ?_ ?_
  · refine Frame.foldl ?_ (fun u11 x12 h13 => ?_)
    · exact { h10 with eng := fun hb => absurd hb (by decide) }
    · refine Frame.step State.event_frame ?_
      exact h13
  · exact h9

def Foot.postPasses : Nat := 0x6004000A40000000000000000000000000000000000000000000000000000000000000000000000000000000000000000004000800000000
theorem State.postPasses_frame {s : State} :
    Frame Foot.postPasses s (State.postPasses s) := by
  have h0 := Frame.refl Foot.postPasses s
  unfold State.postPasses
  refine Frame.foldl ?_ (fun u1 x2 h3 => ?_)
  · exact { h0 with cmdRest := fun hb => absurd hb (by decide) }
  · refine Frame.step State.postOne_frame ?_
    exact h3

def Foot.copySigs : Nat := 0x10000000000000000000000000000000000000000000000000000000000000000000000000000000000000000003C00000000000000000
theorem State.copySigs_frame {s : State} :
    Frame Foot.copySigs s (State.copySigs s) := by
  have h0 := Frame.refl Foot.copySigs s
  unfold State.copySigs
  extract_lets a1 a2
  have h3 : Frame Foot.copySigs s a1 := by
    refine Frame.foldl ?_ (fun u4 x5 h6 => ?_)
    · exact h0
    · refine Frame.setReg ?_ (regNo_TPR_SIGn_TICK _)
      refine Frame.setReg ?_ (regNo_TPR_SIGn_C _)
      refine Frame.setReg ?_ (regNo_TPR_SIGn_B _)
      refine Frame.setReg ?_ (regNo_TPR_SIGn_A _)
      exact h6
  clear_value a1
  exact { h3 with eng := fun hb => absurd hb (by decide) }

def Foot.vote : Nat := 0x695407AFE000000000000000010240000000000000000000000000000000000100000000000000001E0101001A0003DE0024041800000010
theorem State.vote_frame {s : State} {x1 : Option Nat} {x2 : Option Bool} :
    Frame Foot.vote s (State.vote s x1 x2) := by
  have h0 := Frame.refl Foot.vote s
  unfold State.vote
  extract_lets a1
  have h2 : Frame Foot.vote s a1 := by
    refine Frame.step State.postPasses_frame ?_
    exact h0
  clear_value a1
  refine Frame.ite ?_ ?_
  · exact h2
  · split
    extract_lets a3 a4
    have h5 : Frame Foot.vote s a3 := by
      refine Frame.foldl ?_ (fun u6 x7 h8 => ?_)
      · exact h2
      · refine Frame.step State.divergence_frame ?_
        exact h8
    clear_value a3
    split
    extract_lets a9 a10 a11 a12 a13 a14 a15 a16 a17 a18 a19 a20 a21
    have h22 : Frame Foot.vote s a9 := by
      refine Frame.foldl ?_ (fun u23 x24 h25 => ?_)
      · exact h5
      · refine Frame.step State.divergence_frame ?_
        exact h25
    clear_value a9
    have h26 : Frame Foot.vote s a10 := by
      refine Frame.ite ?_ ?_
      · refine Frame.step State.copySigs_frame ?_
        exact h22
      · exact h22
    clear_value a10
    have h27 : Frame Foot.vote s a14 := by
      refine Frame.foldl ?_ (fun u28 x29 h30 => ?_)
      · exact h26
      · refine Frame.step State.divergence_frame ?_
        exact h30
    clear_value a14
    have h31 : Frame Foot.vote s a18 := by
      exact { h27 with eng := fun hb => absurd hb (by decide) }
    clear_value a18
    have h32 : Frame Foot.vote s a19 := by
      refine Frame.foldl ?_ (fun u33 x34 h35 => ?_)
      · exact h31
      · refine Frame.step State.resync_frame ?_
        exact h35
    clear_value a19
    refine Frame.ite ?_ ?_
    · exact { h32 with eng := fun hb => absurd hb (by decide) }
    · refine Frame.ite ?_ ?_
      · exact { h32 with eng := fun hb => absurd hb (by decide) }
      · refine Frame.step State.endVote_frame ?_
        exact h32

def Foot.discardWindow : Nat := 0x6114000E400000000000000000000000000000000000000000000000000000000000000000000000000000000000000A0004000800000010
theorem State.discardWindow_frame {s : State} :
    Frame Foot.discardWindow s (State.discardWindow s) := by
  have h0 := Frame.refl Foot.discardWindow s
  unfold State.discardWindow
  extract_lets a1 a2 a3 a4
  have h5 : Frame Foot.discardWindow s a2 := by
    refine Frame.step State.event_frame ?_
    refine Frame.count ?_ (regNo_TPR_CNT_B)
    exact h0
  clear_value a2
  have h6 : Frame Foot.discardWindow s a3 := by
    refine Frame.setFld ?_ (regNo_TPR_STAT)
    exact h5
  clear_value a3
  exact { h6 with eng := fun hb => absurd hb (by decide) }

def Foot.deadlineMiss : Nat := 0x6114000E400000000000000000000000000000000000000000000000000000000000000000000000000000000000000A0404000800000010
theorem State.deadlineMiss_frame {s : State} :
    Frame Foot.deadlineMiss s (State.deadlineMiss s) := by
  have h0 := Frame.refl Foot.deadlineMiss s
  unfold State.deadlineMiss
  extract_lets a1 a2 a3 a4
  have h5 : Frame Foot.deadlineMiss s a1 := by
    refine Frame.step State.postPasses_frame ?_
    exact h0
  clear_value a1
  have h6 : Frame Foot.deadlineMiss s a4 := by
    exact { h5 with eng := fun hb => absurd hb (by decide) }
  clear_value a4
  split
  extract_lets a7
  have h8 : Frame Foot.deadlineMiss s a7 := by
    refine Frame.step State.event_frame ?_
    refine Frame.count ?_ (regNo_ENG_CNT)
    exact h6
  clear_value a7
  refine Frame.step State.openHold_frame ?_
  refine Frame.step State.discardWindow_frame ?_
  exact h8

def Foot.scrubWord : Nat := maskBit 66 ||| maskBit bit_eng ||| Foot.setHeld ||| Foot.divergence

theorem scrubWord_frame {live : List Nat} {stall a K : Nat} {s : State} {acc : State × Bool} (h : FrameL K s acc)
    (hF : Within Foot.scrubWord K := by decide) : FrameL K s (scrubWord live stall acc a) := by
  have hh : Within Foot.setHeld K := Within.trans (by decide) hF
  have hd : Within Foot.divergence K := Within.trans (by decide) hF
  have he : K.testBit bit_eng = true := hF.bit (by decide)
  have hc : AddrOk K Reg.TPR_CNT_A := AddrOk.widen (AddrOk.of (K := Foot.scrubWord) regNo_TPR_CNT_A) hF
  obtain ⟨t, told⟩ := acc
  have h0 : Frame K s t := h
  unfold scrubWord
  dsimp only
  split
  · exact h
  · refine FrameL.ite ?_ ?_
    · exact FrameL.mk { h0 with eng := fun hb => absurd hb (by rw [he]; decide) }
    · exact FrameL.mk (Frame.countAt (Frame.step State.setHeld_frame h0 hh) hc)
  · refine FrameL.ite (FrameL.ite h (FrameL.mk (Frame.step State.divergence_frame h0 hd))) ?_
    exact FrameL.mk (Frame.countAt (Frame.step State.setHeld_frame (Frame.step State.setHeld_frame h0 hh) hh)
      hc)

def Foot.scrub : Nat := maskBit 65 ||| Foot.scrubWord

theorem State.scrub_frame {s : State} : Frame Foot.scrub s s.scrub := by
  unfold State.scrub
  split
  · exact Frame.refl _ s
  · extract_lets a1
    have h1 : Frame Foot.scrub s a1 := (Frame.refl _ s).setFld regNo_TPR_STAT
    clear_value a1
    refine Frame.ite h1 ?_
    exact FrameL.foldl (K := Foot.scrub) (s := s) (t := (a1, false)) h1 fun t a h => scrubWord_frame h

def Foot.flipBanks : Nat := 0x10000000000000000000000000000000000000000000000000000000000000000000000000000000000000000000000000000000000000
theorem State.flipBanks_frame {s : State} {x1 : List BankFlip} :
    Frame Foot.flipBanks s (State.flipBanks s x1) := by
  have h0 := Frame.refl Foot.flipBanks s
  unfold State.flipBanks
  exact { h0 with eng := fun hb => absurd hb (by decide) }

def Foot.postParity : Nat := 0x6104000E40000000000000000000000000000000000000000000000000000000000000000000000000000000000000000004000800000010
theorem State.postParity_frame {s : State} {x1 : Nat} {x2 : List Nat} :
    Frame Foot.postParity s (State.postParity s x1 x2) := by
  have h0 := Frame.refl Foot.postParity s
  unfold State.postParity
  refine Frame.foldl ?_ (fun u1 x2 h3 => ?_)
  · exact h0
  · refine Frame.step State.event_frame ?_
    exact h3

def Foot.checkApplied : Nat := 0x6114000E40000000000000000000000000000000000000000000000000000000000000000000000000000000000000000004000800000010
theorem State.checkApplied_frame {s : State} :
    Frame Foot.checkApplied s (State.checkApplied s) := by
  have h0 := Frame.refl Foot.checkApplied s
  unfold State.checkApplied
  split
  · exact h0
  · extract_lets a1 a2
    have h3 : Frame Foot.checkApplied s a1 := by
      refine Frame.step State.postParity_frame ?_
      exact h0
    clear_value a1
    exact { h3 with eng := fun hb => absurd hb (by decide) }

def Foot.checkStaged : Nat := 0x6114000E400000000000000000000000000000000000000000000000000000000000000000000000000000000000000A0004000800000010
theorem State.checkStaged_frame {s : State} :
    Frame Foot.checkStaged s (State.checkStaged s) := by
  have h0 := Frame.refl Foot.checkStaged s
  unfold State.checkStaged
  split
  · exact h0
  · refine Frame.step State.openHold_frame ?_
    refine Frame.step State.postParity_frame ?_
    exact h0

/-! ### Commit -/

def Foot.imageWrite : Nat := 0x20000000000000000000000000000000000000000000000000000000000000000000000000000000000000000000000000000000000000
theorem State.imageWrite_frame {s : State} {x1 : Nat} {x2 : Word} {x3 : Word} :
    Frame Foot.imageWrite s (State.imageWrite s x1 x2 x3) := by
  have h0 := Frame.refl Foot.imageWrite s
  unfold State.imageWrite
  refine Frame.ite ?_ ?_
  · exact { h0 with image := fun hb => absurd hb (by decide) }
  · exact h0

def Foot.imageBytes : Nat := 0x20000000000000000000000000000000000000000000000000000000000000000000000000000000000000000000000000000000000000
theorem State.imageBytes_frame {s : State} {x1 : Nat} {x2 : Nat} :
    Frame Foot.imageBytes s (State.imageBytes s x1 x2) := by
  have h0 := Frame.refl Foot.imageBytes s
  unfold State.imageBytes
  refine Frame.ite ?_ ?_
  · exact { h0 with image := fun hb => absurd hb (by decide) }
  · exact h0

def Foot.done : Nat := 0x0
theorem Verdict.done_frame {s : State} :
    FrameV Foot.done s (Verdict.done s) := by
  have h0 := Frame.refl Foot.done s
  unfold Verdict.done
  refine FrameV.ok ?_
  exact h0

def Foot.doneClamp : Nat := 0x0
theorem Verdict.doneClamp_frame {s : State} {x1 : Bool} :
    FrameV Foot.doneClamp s (Verdict.doneClamp s x1) := by
  have h0 := Frame.refl Foot.doneClamp s
  unfold Verdict.doneClamp
  refine FrameV.ok ?_
  exact h0

/-! ### EngineCmds -/

def Foot.setAllPasses : Nat := 0x10000000000000000000000000000000000000000000000000000000000000000000000000000000000000000000000000000000000000
theorem State.setAllPasses_frame {s : State} {x1 : Nat} {x2 : Nat} {x3 : Word} :
    Frame Foot.setAllPasses s (State.setAllPasses s x1 x2 x3) := by
  have h0 := Frame.refl Foot.setAllPasses s
  unfold State.setAllPasses
  extract_lets a1
  refine Frame.foldl ?_ (fun u2 x3 h4 => ?_)
  · exact h0
  · refine Frame.step State.setHeld_frame ?_
    exact h4

def Foot.paramWrite : Nat := 0x10000000000000000000000000000000000000000000000000000000000000000000000000000000000000000000000000000000000000
theorem State.paramWrite_frame {s : State} {x1 : Nat} {x2 : Word} {x3 : List Word} :
    FrameV Foot.paramWrite s (State.paramWrite s x1 x2 x3) := by
  have h0 := Frame.refl Foot.paramWrite s
  unfold State.paramWrite
  extract_lets a1 a2
  refine FrameV.doneClamp ?_
  refine Frame.foldl ?_ (fun u3 x4 h5 => ?_)
  · exact h0
  · refine Frame.step State.setAllPasses_frame ?_
    exact h5

def Foot.tableLoad : Nat := Foot.imageBytes ||| maskBit bit_recipe ||| maskBit bit_table ||| maskBit bit_store

theorem State.tableLoad_frame {s : State} {w4 w5 : Word} {ws : List Word} :
    FrameV Foot.tableLoad s (s.tableLoad w4 w5 ws) := by
  unfold State.tableLoad
  extract_lets dst
  refine FrameV.ite FrameV.no (FrameV.doneClamp ?_)
  refine Frame.step State.imageBytes_frame ((Frame.refl _ s).setWords ws fun i _ =>
    memFree_engine (?_) (by decide) (by decide) (by decide))
  show recipeBase ≤ loadDest w4 + i
  unfold loadDest recipeBase tableBase
  split <;> omega

def Foot.addRestart : Nat := 0x10000000000000000000000000000000000000000000000000000000000000000000000000000000000000000000000000000000000000
theorem State.addRestart_frame {s : State} {x1 : List (Nat × Nat)} :
    Frame Foot.addRestart s (State.addRestart s x1) := by
  have h0 := Frame.refl Foot.addRestart s
  unfold State.addRestart
  exact { h0 with eng := fun hb => absurd hb (by decide) }

def Foot.stallStart : Nat := 0x6114000E400000000000000000000000000000000000000000000000000000000000000000000000000000000000000013C4000800000010
theorem State.stallStart_frame {s : State} {x1 : Nat} {x2 : Word} :
    FrameV Foot.stallStart s (State.stallStart s x1 x2) := by
  have h0 := Frame.refl Foot.stallStart s
  unfold State.stallStart
  refine FrameV.ite ?_ ?_
  · exact FrameV.no
  · split
    · refine FrameV.noWith ?_
      intro u1
      have h2 := Frame.refl Foot.stallStart u1
      dsimp -zeta only
      refine Frame.step State.event_frame ?_
      exact h2
    · extract_lets a3
      have h4 : Frame Foot.stallStart s a3 := by
        refine Frame.step State.setStallRunning_frame ?_
        refine Frame.step State.setLoaded_frame ?_
        exact h0
      clear_value a3
      split
      · rename_i x5 x6 x7
        refine Frame.cutP (K := Foot.stallStart) (s := s) x7 ?_ (fun h8 => ?_)
        · refine FrameP.step State.engineRefusal_frame ?_
          exact h4
        · refine FrameV.noWith ?_
          exact h8
      · rename_i x9 x10
        refine FrameV.done ?_
        refine Frame.step State.refreshToll_frame ?_
        refine Frame.ite ?_ ?_
        · refine Frame.step State.addRestart_frame ?_
          exact h4
        · exact h4

def Foot.stallStop : Nat := 0x13C0000000000000
theorem State.stallStop_frame {s : State} {x1 : Nat} :
    FrameV Foot.stallStop s (State.stallStop s x1) := by
  have h0 := Frame.refl Foot.stallStop s
  unfold State.stallStop
  refine FrameV.done ?_
  refine Frame.step State.refreshToll_frame ?_
  refine Frame.step State.setStallRunning_frame ?_
  exact h0

def Foot.setpoint : Nat := 0x810000000000000000000000000000000000000000000000000000000000000000000000000000000000000000000000000000000000000
theorem State.setpoint_frame {s : State} {x1 : Word} {x2 : Word} {x3 : Word} {x4 : Word} :
    FrameV Foot.setpoint s (State.setpoint s x1 x2 x3 x4) := by
  have h0 := Frame.refl Foot.setpoint s
  unfold State.setpoint
  extract_lets a1 a2 a3 a4 a5
  have h6 : Frame Foot.setpoint s a3 := by
    refine Frame.step State.publish_frame ?_
    refine Frame.step State.publish_frame ?_
    exact h0
  clear_value a3
  have h7 : Frame Foot.setpoint s a4 := by
    refine Frame.step State.publish_frame ?_
    exact h6
  clear_value a4
  have h8 : Frame Foot.setpoint s a5 := by
    refine Frame.ite ?_ ?_
    · refine Frame.step State.addRestart_frame ?_
      exact h7
    · exact h7
  clear_value a5
  refine FrameV.doneClamp ?_
  exact h8

def Foot.scheduleSelect : Nat := 0x6104000E400000000000000000000000000000000000000000000000000000000000000000000000000000000000000003E4000800000010
theorem State.scheduleSelect_frame {s : State} {x1 : Word} :
    FrameV Foot.scheduleSelect s (State.scheduleSelect s x1) := by
  have h0 := Frame.refl Foot.scheduleSelect s
  unfold State.scheduleSelect
  extract_lets a1 a2 a3
  have h4 : Frame Foot.scheduleSelect s a3 := by
    refine Frame.setFld ?_ (regNo_ENG_STAT)
    exact h0
  clear_value a3
  refine FrameV.ite ?_ ?_
  · dsimp -zeta only [a2]
    refine FrameV.noWith ?_
    intro u5
    have h6 := Frame.refl Foot.scheduleSelect u5
    dsimp -zeta only
    refine Frame.step State.event_frame ?_
    exact h6
  · split
    · dsimp -zeta only [a2]
      refine FrameV.noWith ?_
      intro u7
      have h8 := Frame.refl Foot.scheduleSelect u7
      dsimp -zeta only
      refine Frame.step State.event_frame ?_
      exact h8
    · refine FrameV.ite ?_ ?_
      · refine FrameV.doneClamp ?_
        refine Frame.step State.refreshToll_frame ?_
        exact h4
      · refine FrameV.noWith ?_
        intro u9
        have h10 := Frame.refl Foot.scheduleSelect u9
        dsimp -zeta only
        refine Frame.step State.postTollRefused_frame ?_
        exact h10

/-! ### VehTime -/

def Foot.rebaseVt : Nat := 0x10000000000000000000000000000000000000000000000000000000000000000000000000000000000000000000000000000000
theorem State.rebaseVt_frame {s : State} :
    Frame Foot.rebaseVt s (State.rebaseVt s) := by
  have h0 := Frame.refl Foot.rebaseVt s
  unfold State.rebaseVt
  exact { h0 with vt := fun hb => absurd hb (by decide) }

def Foot.refreshVt : Nat := 0x6104000E40000000000000000000000000000000000000000000000000000000000000000000000000000000000000000004000800004010
theorem State.refreshVt_frame {s : State} {x1 : Nat} :
    Frame Foot.refreshVt s (State.refreshVt s x1) := by
  have h0 := Frame.refl Foot.refreshVt s
  unfold State.refreshVt
  extract_lets a1
  refine Frame.ite ?_ ?_
  · exact h0
  · refine Frame.step State.event_frame ?_
    refine Frame.setFld ?_ (regNo_CLK_STAT)
    exact h0

def Foot.slewOffset : Nat := 0x8000000000000000000000000000000000000000000000000000000000000000000000000000000000000000000000000100000
theorem State.slewOffset_frame {s : State} :
    Frame Foot.slewOffset s (State.slewOffset s) := by
  have h0 := Frame.refl Foot.slewOffset s
  unfold State.slewOffset
  extract_lets a1 a2 a3 a4 a5 a6
  have h7 : Frame Foot.slewOffset s a5 := by
    refine Frame.setFld ?_ (regNo_CLK_PLLp_OFS _)
    exact h0
  clear_value a5
  exact { h7 with clk := fun hb => absurd hb (by decide) }

def Foot.discStep : Nat := 0x8000000000000000000000000000000000000000000000000000000000000000000000000000000000000000000000000100000
theorem State.discStep_frame {s : State} {x1 : Int} {x2 : Nat} :
    Frame Foot.discStep s (State.discStep s x1 x2) := by
  have h0 := Frame.refl Foot.discStep s
  unfold State.discStep
  extract_lets a1 a2 a3 a4 a5 a6 a7 a8 a9
  have h10 : Frame Foot.discStep s a9 := by
    exact { h0 with clk := fun hb => absurd hb (by decide) }
  clear_value a9
  refine Frame.setFld ?_ (regNo_CLK_PLLp_OFS _)
  exact h10

def Foot.beyondTick : Nat := 0x6104000E48000000000000000000000000000000000000000000000000000000000000000000000000000000000000000004000800000010
theorem State.beyondTick_frame {s : State} {x1 : Int} {x2 : Nat} :
    Frame Foot.beyondTick s (State.beyondTick s x1 x2) := by
  have h0 := Frame.refl Foot.beyondTick s
  unfold State.beyondTick
  refine Frame.ite ?_ ?_
  · refine Frame.step State.event_frame ?_
    exact { h0 with clk := fun hb => absurd hb (by decide) }
  · refine Frame.ite ?_ ?_
    · exact { h0 with clk := fun hb => absurd hb (by decide) }
    · exact h0

def Foot.gridZero : Nat := 0x6104000E48000000000000000000000000000000000000000000000000000000000000000000000000000000000800000004000800104010
theorem State.gridZero_frame {s : State} {x1 : Nat} {x2 : Nat} :
    Frame Foot.gridZero s (State.gridZero s x1 x2) := by
  have h0 := Frame.refl Foot.gridZero s
  unfold State.gridZero
  refine Frame.ite ?_ ?_
  · exact h0
  · extract_lets a1 a2 a3 a4 a5
    have h6 : Frame Foot.gridZero s a2 := by
      refine Frame.step State.beyondTick_frame ?_
      refine Frame.setReg ?_ (regNo_TBn_VTERR _)
      exact h0
    clear_value a2
    have h7 : Frame Foot.gridZero s a4 := by
      refine Frame.setFld ?_ (regNo_CLK_STAT)
      exact h6
    clear_value a4
    refine Frame.ite ?_ ?_
    · refine Frame.step State.discStep_frame ?_
      refine Frame.step State.slewOffset_frame ?_
      exact h7
    · exact { h7 with clk := fun hb => absurd hb (by decide) }

/-! ### Timebase -/

def Foot.openPeriod : Nat := 0x4000000000000000000000000000000000000000000000000000000000000000000000000000000000000000000000000000000000
theorem State.openPeriod_frame {s : State} {x1 : Nat} {x2 : Nat} :
    Frame Foot.openPeriod s (State.openPeriod s x1 x2) := by
  have h0 := Frame.refl Foot.openPeriod s
  unfold State.openPeriod
  extract_lets a1 a2
  refine Frame.step State.setTb_frame ?_
  exact h0

def Foot.drawDither : Nat := 0x4000000000000000000000000000000000000000000000000000000000000000000000000000000000000000000000000000000000
theorem State.drawDither_frame {s : State} {x1 : Nat} :
    Frame Foot.drawDither s (State.drawDither s x1) := by
  have h0 := Frame.refl Foot.drawDither s
  unfold State.drawDither
  extract_lets a1 a2
  refine Frame.ite ?_ ?_
  · exact h0
  · refine Frame.ite ?_ ?_
    · refine Frame.step State.setTb_frame ?_
      exact h0
    · refine Frame.step State.setTb_frame ?_
      exact h0

def Foot.takeRealign : Nat := 0x4000000000000000000000000000000000000000000000000000000000000000000000000000000000000000000000000000000000
theorem State.takeRealign_frame {s : State} :
    Frame Foot.takeRealign s (State.takeRealign s) := by
  have h0 := Frame.refl Foot.takeRealign s
  unfold State.takeRealign
  extract_lets a1
  refine Frame.ite ?_ ?_
  · refine Frame.step State.setTb_frame ?_
    exact h0
  · exact h0

def Foot.takeDivisor : Nat := 0x4000000000000000000000000000000000000000000000000000000000000000000000000000000000000000000000000000000000
theorem State.takeDivisor_frame {s : State} {x1 : Nat} {x2 : Nat} :
    Frame Foot.takeDivisor s (State.takeDivisor s x1 x2) := by
  have h0 := Frame.refl Foot.takeDivisor s
  unfold State.takeDivisor
  refine Frame.step State.setTb_frame ?_
  exact h0

def Foot.startTb : Nat := 0x4003000000000000000000000000000000000000000000000000000000000000000000000000000000000000000000000000000000
theorem State.startTb_frame {s : State} {x1 : Nat} :
    Frame Foot.startTb s (State.startTb s x1) := by
  have h0 := Frame.refl Foot.startTb s
  unfold State.startTb
  refine Frame.ite ?_ ?_
  · refine Frame.step State.setTb_frame ?_
    exact h0
  · extract_lets a1 a2 a3 a4
    have h5 : Frame Foot.startTb s a3 := by
      refine Frame.step State.takeDivisor_frame ?_
      refine Frame.step State.setTb_frame ?_
      exact h0
    clear_value a3
    have h6 : Frame Foot.startTb s a4 := by
      refine Frame.ite ?_ ?_
      · exact { h5 with t0 := fun hb => absurd hb (by decide), prevLen := fun hb => absurd hb (by decide) }
      · exact h5
    clear_value a4
    refine Frame.step State.drawDither_frame ?_
    refine Frame.step State.openPeriod_frame ?_
    exact h6

def Foot.stopTb : Nat := 0x4000000000000000000000000000000000000000000000000000000000000000000000000000000000000000000000000000000000
theorem State.stopTb_frame {s : State} {x1 : Nat} :
    Frame Foot.stopTb s (State.stopTb s x1) := by
  have h0 := Frame.refl Foot.stopTb s
  unfold State.stopTb
  refine Frame.step State.setTb_frame ?_
  exact h0

def Foot.showTb : Nat := 0x400000000000000000000
theorem State.showTb_frame {s : State} {x1 : Nat} :
    Frame Foot.showTb s (State.showTb s x1) := by
  have h0 := Frame.refl Foot.showTb s
  unfold State.showTb
  split
  extract_lets a1
  refine Frame.setFld ?_ (regNo_TBn_STAT _)
  refine Frame.setFld ?_ (regNo_TBn_STAT _)
  refine Frame.setFld ?_ (regNo_TBn_STAT _)
  exact h0

/-! ### Pairs -/

def Foot.setCarry : Nat := 0x100000000000000000000000
theorem State.setCarry_frame {s : State} {x1 : Nat} {x2 : Int} :
    Frame Foot.setCarry s (State.setCarry s x1 x2) := by
  have h0 := Frame.refl Foot.setCarry s
  unfold State.setCarry
  refine Frame.setFld ?_ (regNo_PAIRk_CARRY _)
  exact h0

def Foot.storeCarry : Nat := 0x6104008E40000000000000000000000000000000000000000000000000000000000000000000000000000000300000000004000800000010
theorem State.storeCarry_frame {s : State} {x1 : Nat} {x2 : Int} {x3 : Int} :
    Frame Foot.storeCarry s (State.storeCarry s x1 x2 x3) := by
  have h0 := Frame.refl Foot.storeCarry s
  unfold State.storeCarry
  split
  extract_lets a1 a2 a3 a4
  have h5 : Frame Foot.storeCarry s a1 := by
    refine Frame.step State.setCarry_frame ?_
    exact h0
  clear_value a1
  have h6 : Frame Foot.storeCarry s a2 := by
    refine Frame.count ?_ (regNo_PAIRk_STAT _)
    exact h5
  clear_value a2
  refine Frame.ite ?_ ?_
  · refine Frame.ite ?_ ?_
    · exact h6
    · refine Frame.step State.event_frame ?_
      refine Frame.step State.setPair_frame ?_
      exact h6
  · exact h5

def Foot.placePair : Nat := 0x8000000000000000000000000000000000000000000000000000000000000000000000000000000000080000000000000000000000
theorem State.placePair_frame {s : State} {x1 : Nat} {x2 : Nat} :
    Frame Foot.placePair s (State.placePair s x1 x2) := by
  have h0 := Frame.refl Foot.placePair s
  unfold State.placePair
  extract_lets a1 a2 a3 a4
  have h5 : Frame Foot.placePair s a4 := by
    refine Frame.step State.setPair_frame ?_
    exact h0
  clear_value a4
  refine Frame.step State.regateAt_frame ?_
  refine Frame.setFld ?_ (regNo_PAIRk_LIVE _)
  exact h5

def Foot.judgeZero : Nat := 0x6104008E40000000000000000000000000000000000000000000000000000000000000000000000000000000380000000004000800000010
theorem State.judgeZero_frame {s : State} {x1 : Nat} :
    Frame Foot.judgeZero s (State.judgeZero s x1) := by
  have h0 := Frame.refl Foot.judgeZero s
  unfold State.judgeZero
  extract_lets a1 a2 a3 a4 a5 a6 a7 a8 a9 a10
  have h11 : Frame Foot.judgeZero s a6 := by
    refine Frame.step State.setPair_frame ?_
    exact h0
  clear_value a6
  have h12 : Frame Foot.judgeZero s a9 := by
    refine Frame.ite ?_ ?_
    · exact h11
    · refine Frame.count ?_ (regNo_PAIRk_STAT _)
      exact h11
  clear_value a9
  have h13 : Frame Foot.judgeZero s a10 := by
    refine Frame.step State.storeCarry_frame ?_
    exact h12
  clear_value a10
  refine Frame.ite ?_ ?_
  · refine Frame.step State.placePair_frame ?_
    exact h13
  · refine Frame.step State.placePair_frame ?_
    exact h11

def Foot.judgeHalf : Nat := 0x6104008E40000000000000000000000000000000000000000000000000000000000000000000000000000000380000000004000800000010
theorem State.judgeHalf_frame {s : State} {x1 : Nat} :
    Frame Foot.judgeHalf s (State.judgeHalf s x1) := by
  have h0 := Frame.refl Foot.judgeHalf s
  unfold State.judgeHalf
  extract_lets a1 a2 a3 a4 a5 a6 a7 a8 a9 a10 a11 a12 a13 a14 a15 a16 a17 a18 a19 a20 a21 a22
  have h23 : Frame Foot.judgeHalf s a19 := by
    refine Frame.step State.setPair_frame ?_
    exact h0
  clear_value a19
  have h24 : Frame Foot.judgeHalf s a20 := by
    refine Frame.setFld ?_ (regNo_PAIRk_LIVE _)
    exact h23
  clear_value a20
  have h25 : Frame Foot.judgeHalf s a22 := by
    refine Frame.ite ?_ ?_
    · exact h24
    · refine Frame.count ?_ (regNo_PAIRk_STAT _)
      exact h24
  clear_value a22
  refine Frame.ite ?_ ?_
  · exact h0
  · refine Frame.ite ?_ ?_
    · refine Frame.ite ?_ ?_
      · refine Frame.step State.storeCarry_frame ?_
        exact h25
      · refine Frame.step State.setCarry_frame ?_
        exact h25
    · exact h24

def Foot.moveOpening : Nat := 0x8000000000000000000000000000000000000000000000000000000000000000000000000000000000000000000000000000000000
theorem State.moveOpening_frame {s : State} {x1 : Nat} :
    Frame Foot.moveOpening s (State.moveOpening s x1) := by
  have h0 := Frame.refl Foot.moveOpening s
  unfold State.moveOpening
  extract_lets a1 a2
  refine Frame.ite ?_ ?_
  · refine Frame.step State.setPair_frame ?_
    exact h0
  · exact h0

def Foot.setMask : Nat := 0x8000000000000000000000000000000000000000000000000000000000000000000000000000000000180000000000000000000000
theorem State.setMask_frame {s : State} {x1 : Nat} {x2 : Nat} :
    Frame Foot.setMask s (State.setMask s x1 x2) := by
  have h0 := Frame.refl Foot.setMask s
  unfold State.setMask
  extract_lets a1 a2 a3 a4
  have h5 : Frame Foot.setMask s a3 := by
    refine Frame.setFld ?_ (regNo_PAIRk_LIVE _)
    exact h0
  clear_value a3
  have h6 : Frame Foot.setMask s a4 := by
    refine Frame.ite ?_ ?_
    · refine Frame.step State.clearCarry_frame ?_
      exact h5
    · exact h5
  clear_value a4
  refine Frame.step State.regate_frame ?_
  exact h6

def Foot.force : Nat := 0x18000000000000000000000000000000000000000000000000000000000000000000000000000000000180000000000000000000000
theorem State.force_frame {s : State} {x1 : Nat} {x2 : Word} :
    Frame Foot.force s (State.force s x1 x2) := by
  have h0 := Frame.refl Foot.force s
  unfold State.force
  split
  · extract_lets a1
    have h2 : Frame Foot.force s a1 := by
      refine Frame.step State.setForce_frame ?_
      exact h0
    clear_value a1
    refine Frame.ite ?_ ?_
    · refine Frame.step State.setMask_frame ?_
      exact h2
    · refine Frame.ite ?_ ?_
      · refine Frame.step State.clearCarry_frame ?_
        exact h2
      · exact h2
  · refine Frame.step State.setForce_frame ?_
    exact h0

def Foot.takeShadow : Nat := 0x8000000000000000000000000000000000000000000000000000000000000000000000000000000000000000000000000000000000
theorem State.takeShadow_frame {s : State} {x1 : Nat} :
    Frame Foot.takeShadow s (State.takeShadow s x1) := by
  have h0 := Frame.refl Foot.takeShadow s
  unfold State.takeShadow
  refine Frame.ite ?_ ?_
  · exact h0
  · refine Frame.step State.setPair_frame ?_
    exact h0

def Foot.takeBound : Nat := 0x8000000000000000000000000000000000000000000000000000000000000000000000000000000000200000000000000000000000
theorem State.takeBound_frame {s : State} {x1 : Nat} :
    Frame Foot.takeBound s (State.takeBound s x1) := by
  have h0 := Frame.refl Foot.takeBound s
  unfold State.takeBound
  extract_lets a1
  split
  · refine Frame.step State.setPair_frame ?_
    exact h0
  · split
    · exact h0
    · extract_lets a2 a3 a4 a5 a6
      have h7 : Frame Foot.takeBound s a5 := by
        refine Frame.ite ?_ ?_
        · refine Frame.count ?_ (regNo_PAIRk_STAT _)
          exact h0
        · exact h0
      clear_value a5
      refine Frame.step State.setPair_frame ?_
      exact h7

def Foot.putMask : Nat := 0x180000000000000000000000000000000000000000000000000000000000000000000000000000000001A0000000000000000000000
theorem State.putMask_frame {s : State} {x1 : Nat} {x2 : Nat} :
    Frame Foot.putMask s (State.putMask s x1 x2) := by
  have h0 := Frame.refl Foot.putMask s
  unfold State.putMask
  extract_lets a1
  refine Frame.step State.setMask_frame ?_
  refine Frame.step State.setForce_frame ?_
  refine Frame.setFld ?_ (regNo_PAIRk_MASK _)
  exact h0

def Foot.takeStoredMask : Nat := 0x180000000000000000000000000000000000000000000000000000000000000000000000000000000001A0000000000000000000000
theorem State.takeStoredMask_frame {s : State} {x1 : Nat} :
    Frame Foot.takeStoredMask s (State.takeStoredMask s x1) := by
  have h0 := Frame.refl Foot.takeStoredMask s
  unfold State.takeStoredMask
  split
  · refine Frame.ite ?_ ?_
    · exact h0
    · refine Frame.step State.putMask_frame ?_
      refine Frame.step State.setPair_frame ?_
      exact h0
  · exact h0

def Foot.takeBoundMask : Nat := 0x180000000000000000000000000000000000000000000000000000000000000000000000000000000001E0000000000000000000000
theorem State.takeBoundMask_frame {s : State} {x1 : Nat} :
    Frame Foot.takeBoundMask s (State.takeBoundMask s x1) := by
  have h0 := Frame.refl Foot.takeBoundMask s
  unfold State.takeBoundMask
  split
  · refine Frame.step State.takeStoredMask_frame ?_
    exact h0
  · extract_lets a1 a2 a3
    have h4 : Frame Foot.takeBoundMask s a2 := by
      refine Frame.step State.setPair_frame ?_
      exact h0
    clear_value a2
    refine Frame.ite ?_ ?_
    · exact h4
    · refine Frame.ite ?_ ?_
      · refine Frame.step State.setForce_frame ?_
        refine Frame.setFld ?_ (regNo_PAIRk_MASKNX _)
        exact h4
      · refine Frame.step State.putMask_frame ?_
        exact h4

def Foot.takeArmed : Nat := 0x18000000000000000000000000000000000000000000000000000000000000000000000000000000000180000000000000000000000
theorem State.takeArmed_frame {s : State} {x1 : Armed} :
    Frame Foot.takeArmed s (State.takeArmed s x1) := by
  have h0 := Frame.refl Foot.takeArmed s
  unfold State.takeArmed
  split
  · refine Frame.ite ?_ ?_
    · refine Frame.step State.force_frame ?_
      exact h0
    · refine Frame.ite ?_ ?_
      · refine Frame.step State.setForce_frame ?_
        exact h0
      · refine Frame.ite ?_ ?_
        · refine Frame.step State.setPair_frame ?_
          exact h0
        · refine Frame.step State.force_frame ?_
          exact h0
  · refine Frame.step State.force_frame ?_
    exact h0

def Foot.transferSet : Nat := 0x180000000000000000000000000000000000000000000000000000000000000000000000000000000003E0008000000000000000000
theorem State.transferSet_frame {s : State} {x1 : Nat} :
    Frame Foot.transferSet s (State.transferSet s x1) := by
  have h0 := Frame.refl Foot.transferSet s
  unfold State.transferSet
  extract_lets a1 a2 a3 a4 a5 a6 a7 a8 a9
  have h10 : Frame Foot.transferSet s a5 := by
    exact { h0 with pwmRest := fun hb => absurd hb (by decide) }
  clear_value a5
  have h11 : Frame Foot.transferSet s a6 := by
    refine Frame.foldl ?_ (fun u12 x13 h14 => ?_)
    · exact h10
    · refine Frame.step State.takeArmed_frame ?_
      exact h14
  clear_value a6
  have h15 : Frame Foot.transferSet s a7 := by
    refine Frame.foldl ?_ (fun u16 x17 h18 => ?_)
    · exact h11
    · refine Frame.step State.takeBoundMask_frame ?_
      refine Frame.step State.takeBound_frame ?_
      exact h18
  clear_value a7
  have h19 : Frame Foot.transferSet s a8 := by
    refine Frame.ite ?_ ?_
    · refine Frame.foldl ?_ (fun u20 x21 h22 => ?_)
      · exact h15
      · refine Frame.step State.takeShadow_frame ?_
        exact h22
    · exact h15
  clear_value a8
  refine Frame.ite ?_ ?_
  · exact h19
  · refine Frame.setFld ?_ (regNo_PWM_LDALL)
    exact h19

def Foot.armWrite : Nat := Foot.force ||| maskBit bit_pwmRest

theorem Frame.armWrite {K : Nat} {s t : State} {a : Nat} {w : Word} (h : Frame K s t) (ha : AddrOk K a)
    (hF : Within Foot.armWrite K := by decide) : Frame K s (t.armWrite a w) := by
  unfold State.armWrite
  extract_lets u
  have h1 : Frame K s u := h.setRegAt ha
  have hK : K.testBit bit_pwmRest = true := hF.bit (by decide)
  split
  · exact h1
  · exact Frame.ite { h1 with pwmRest := fun hb => absurd hb (by rw [hK]; decide) }
      (Frame.step State.force_frame h1 (Within.trans (by decide) hF))

def Foot.pendWrite : Nat := Foot.force ||| maskBit bit_pwmRest

theorem Frame.pendWrite {K : Nat} {s t : State} {a : Nat} {w : Word} (h : Frame K s t) (ha : AddrOk K a)
    (hF : Within Foot.pendWrite K := by decide) : Frame K s (t.pendWrite a w) := by
  unfold State.pendWrite
  extract_lets u
  have h1 : Frame K s u := h.setRegAt ha
  have hK : K.testBit bit_pwmRest = true := hF.bit (by decide)
  split
  · exact h1
  · exact Frame.ite { h1 with pwmRest := fun hb => absurd hb (by rw [hK]; decide) }
      (Frame.step State.force_frame h1 (Within.trans (by decide) hF))

def Foot.ldall : Nat := 0x10000000000000000000000000000000000000000000000000000000000000000000000000000000000000008000000000000000000
theorem State.ldall_frame {s : State} {x1 : Nat} :
    Frame Foot.ldall s (State.ldall s x1) := by
  have h0 := Frame.refl Foot.ldall s
  unfold State.ldall
  extract_lets a1 a2 a3 a4 a5
  refine Frame.setFld ?_ (regNo_PWM_LDALL)
  exact { h0 with pwmRest := fun hb => absurd hb (by decide) }

/-! ### Pwm -/

def Foot.setSpare : Nat := 0x10000000000000000000
theorem State.setSpare_frame {s : State} {x1 : Nat} {x2 : Nat} :
    Frame Foot.setSpare s (State.setSpare s x1 x2) := by
  have h0 := Frame.refl Foot.setSpare s
  unfold State.setSpare
  refine Frame.setFld ?_ (regNo_PWM_STAT)
  exact h0

def Foot.postGenSwap : Nat := 0x6104000E40000000000000000000000000000000000000000000000000000000000000000000000000000000000000000004000800000010
theorem State.postGenSwap_frame {s : State} {x1 : Nat} {x2 : Nat} {x3 : Nat} {x4 : Bool} :
    Frame Foot.postGenSwap s (State.postGenSwap s x1 x2 x3 x4) := by
  have h0 := Frame.refl Foot.postGenSwap s
  unfold State.postGenSwap
  refine Frame.step State.event_frame ?_
  exact h0

def Foot.takeOver : Nat := 0x614404AE40000000000000000102400000000000000000000000000000000000000000000000000000000060080010000004000800000010
theorem State.takeOver_frame {s : State} {x1 : Nat} {x2 : Nat} {x3 : Nat} :
    Frame Foot.takeOver s (State.takeOver s x1 x2 x3) := by
  have h0 := Frame.refl Foot.takeOver s
  unfold State.takeOver
  extract_lets a1 a2 a3 a4 a5 a6 a7 a8
  have h9 : Frame Foot.takeOver s a2 := by
    refine Frame.ite ?_ ?_
    · refine Frame.step State.setSpare_frame ?_
      exact h0
    · exact h0
  clear_value a2
  have h10 : Frame Foot.takeOver s a3 := by
    refine Frame.step State.setSpare_frame ?_
    exact h9
  clear_value a3
  have h11 : Frame Foot.takeOver s a4 := by
    refine Frame.ite ?_ ?_
    · refine Frame.step State.shadowPassed_frame ?_
      exact h10
    · refine Frame.step State.unitDetected_frame ?_
      refine Frame.step State.claimSpare_frame ?_
      exact h10
  clear_value a4
  have h12 : Frame Foot.takeOver s a5 := by
    refine Frame.setFld ?_ (regNo_PAIRk_LIVE _)
    exact h11
  clear_value a5
  have h13 : Frame Foot.takeOver s a7 := by
    refine Frame.step State.setPair_frame ?_
    exact h12
  clear_value a7
  have h14 : Frame Foot.takeOver s a8 := by
    refine Frame.step State.endCause_frame ?_
    exact h13
  clear_value a8
  refine Frame.step State.postGenSwap_frame ?_
  exact h14

def Foot.swapAtZero : Nat := 0x614404AE40000000000000000102400000000000000000000000000000000000000000000000000000000060080010000004000800000010
theorem State.swapAtZero_frame {s : State} {x1 : Nat} :
    Frame Foot.swapAtZero s (State.swapAtZero s x1) := by
  have h0 := Frame.refl Foot.swapAtZero s
  unfold State.swapAtZero
  extract_lets a1 a2
  have h3 : Frame Foot.swapAtZero s a2 := by
    refine Frame.step State.setPair_frame ?_
    exact h0
  clear_value a2
  split
  · exact h0
  · refine Frame.ite ?_ ?_
    · refine Frame.step State.setPair_frame ?_
      exact h0
    · refine Frame.ite ?_ ?_
      · exact h0
      · refine Frame.ite ?_ ?_
        · refine Frame.step State.takeOver_frame ?_
          exact h0
        · refine Frame.ite ?_ ?_
          · refine Frame.step State.takeOver_frame ?_
            exact h0
          · refine Frame.ite ?_ ?_
            · extract_lets a4
              have h5 : Frame Foot.swapAtZero s a4 := by
                refine Frame.step State.shadowAborted_frame ?_
                refine Frame.step State.setSpare_frame ?_
                exact h3
              clear_value a4
              refine Frame.step State.postGenSwap_frame ?_
              exact h5
            · refine Frame.step State.setPair_frame ?_
              exact h0

def Foot.claimGenerator : Nat := 0x8000000000000000000000000000000000000000000000000000000000000000000000000000000000000000000000000000000000
theorem State.claimGenerator_frame {s : State} {x1 : Nat} {x2 : Nat} :
    Frame Foot.claimGenerator s (State.claimGenerator s x1 x2) := by
  have h0 := Frame.refl Foot.claimGenerator s
  unfold State.claimGenerator
  extract_lets a1 a2
  have h3 : Frame Foot.claimGenerator s a1 := by
    refine Frame.foldl ?_ (fun u4 x5 h6 => ?_)
    · exact h0
    · refine Frame.ite ?_ ?_
      · refine Frame.step State.setPair_frame ?_
        exact h6
      · exact h6
  clear_value a1
  refine Frame.step State.setPair_frame ?_
  exact h3

def Foot.generatorsExhausted : Nat := 0x614401AE400000000000000001000000000000000000000000000000000000010000000000000000000101781A0010000004000800000010
theorem State.generatorsExhausted_frame {s : State} {x1 : Nat} :
    Frame Foot.generatorsExhausted s (State.generatorsExhausted s x1) := by
  have h0 := Frame.refl Foot.generatorsExhausted s
  unfold State.generatorsExhausted
  extract_lets a1 a2
  have h3 : Frame Foot.generatorsExhausted s a1 := by
    refine Frame.step State.unitDetected_frame ?_
    refine Frame.setFld ?_ (regNo_PWM_STAT)
    exact h0
  clear_value a1
  have h4 : Frame Foot.generatorsExhausted s a2 := by
    refine Frame.step State.event_frame ?_
    exact h3
  clear_value a2
  refine Frame.step State.raise_frame ?_
  exact h4

def Foot.generatorReturns : Nat := 0x6144000E40000000000000000100000000000000000000000000000000000000000000000000000000000000080010000004000800000010
theorem State.generatorReturns_frame {s : State} {x1 : Nat} :
    Frame Foot.generatorReturns s (State.generatorReturns s x1) := by
  have h0 := Frame.refl Foot.generatorReturns s
  unfold State.generatorReturns
  extract_lets a1 a2
  have h3 : Frame Foot.generatorReturns s a1 := by
    refine Frame.step State.unitDetected_frame ?_
    refine Frame.step State.setSpare_frame ?_
    exact h0
  clear_value a1
  have h4 : Frame Foot.generatorReturns s a2 := by
    refine Frame.step State.setFit_frame ?_
    refine Frame.setFld ?_ (regNo_PAIRk_LIVE _)
    exact h3
  clear_value a2
  refine Frame.step State.postReadmitted_frame ?_
  refine Frame.step State.setUnit_frame ?_
  exact h4

def Foot.readbackFail : Nat := 0x614401AE400000000000000001000000000000000000000000000000000000010000000000000000000101781A0010000004000800000010
theorem State.readbackFail_frame {s : State} {x1 : Nat} :
    Frame Foot.readbackFail s (State.readbackFail s x1) := by
  have h0 := Frame.refl Foot.readbackFail s
  unfold State.readbackFail
  split
  · refine Frame.step State.claimGenerator_frame ?_
    exact h0
  · refine Frame.ite ?_ ?_
    · refine Frame.step State.generatorReturns_frame ?_
      exact h0
    · split
      · refine Frame.step State.claimGenerator_frame ?_
        exact h0
      · refine Frame.step State.generatorsExhausted_frame ?_
        exact h0

def Foot.postCoarse : Nat := 0x6104000E40000000000000000000000000000000000000000000000000000000000000000000000000000000000000000004000800000010
theorem State.postCoarse_frame {s : State} {x1 : Nat} {x2 : Bool} :
    Frame Foot.postCoarse s (State.postCoarse s x1 x2) := by
  have h0 := Frame.refl Foot.postCoarse s
  unfold State.postCoarse
  refine Frame.step State.event_frame ?_
  exact h0

def Foot.clockAtZero : Nat := 0x6104004E40000000000000000000000000000000000000000000000000000000000000000000000000000000000400000004000800000010
theorem State.clockAtZero_frame {s : State} {x1 : Nat} :
    Frame Foot.clockAtZero s (State.clockAtZero s x1) := by
  have h0 := Frame.refl Foot.clockAtZero s
  unfold State.clockAtZero
  extract_lets a1 a2
  have h3 : Frame Foot.clockAtZero s a2 := by
    refine Frame.step State.setTb_frame ?_
    exact h0
  clear_value a2
  split
  · extract_lets a4
    have h5 : Frame Foot.clockAtZero s a4 := by
      refine Frame.setFld ?_ (regNo_TBn_STAT _)
      exact h3
    clear_value a4
    refine Frame.ite ?_ ?_
    · exact h5
    · refine Frame.step State.postCoarse_frame ?_
      refine Frame.setFld ?_ (regNo_TBn_STAT _)
      exact h5
  · refine Frame.ite ?_ ?_
    · refine Frame.step State.postCoarse_frame ?_
      refine Frame.step State.setTb_frame ?_
      refine Frame.setFld ?_ (regNo_TBn_STAT _)
      exact h0
    · exact h0

def Foot.releaseCbc : Nat := 0x2000000000000000000000000000000000000000000000000000000000000000000000000000000000000000000000000000000000
theorem State.releaseCbc_frame {s : State} {x1 : Nat} :
    Frame Foot.releaseCbc s (State.releaseCbc s x1) := by
  have h0 := Frame.refl Foot.releaseCbc s
  unfold State.releaseCbc
  exact { h0 with prot := fun hb => absurd hb (by decide) }

def Foot.slavePhases : Nat := 0x4000000000000000000000000000000000000000000000000000000000000000000000000000000000000000000000000000000000
theorem State.slavePhases_frame {s : State} :
    Frame Foot.slavePhases s (State.slavePhases s) := by
  have h0 := Frame.refl Foot.slavePhases s
  unfold State.slavePhases
  refine Frame.foldl ?_ (fun u1 x2 h3 => ?_)
  · exact h0
  · extract_lets a4 a5 a6
    refine Frame.ite ?_ ?_
    · refine Frame.step State.setTb_frame ?_
      exact h3
    · refine Frame.ite ?_ ?_
      · refine Frame.step State.setTb_frame ?_
        exact h3
      · exact h3

def Foot.divisorAtZero : Nat := 0x4000000000000000000000000000000000000000000000000000000000000000000000000000000000000000000000000000000000
theorem State.divisorAtZero_frame {s : State} {x1 : Nat} {x2 : Nat} :
    Frame Foot.divisorAtZero s (State.divisorAtZero s x1 x2) := by
  have h0 := Frame.refl Foot.divisorAtZero s
  unfold State.divisorAtZero
  refine Frame.ite ?_ ?_
  · exact h0
  · refine Frame.step State.takeDivisor_frame ?_
    exact h0

def Foot.judgePairs : Nat := 0x6104008E40000000000000000000000000000000000000000000000000000000000000000000000000000000380000000004000800000010
theorem State.judgePairs_frame {s : State} {x1 : Nat} :
    Frame Foot.judgePairs s (State.judgePairs s x1) := by
  have h0 := Frame.refl Foot.judgePairs s
  unfold State.judgePairs
  extract_lets a1
  have h2 : Frame Foot.judgePairs s a1 := by
    refine Frame.ite ?_ ?_
    · exact h0
    · refine Frame.foldl ?_ (fun u3 x4 h5 => ?_)
      · exact h0
      · refine Frame.step State.takeShadow_frame ?_
        exact h5
  clear_value a1
  refine Frame.foldl ?_ (fun u6 x7 h8 => ?_)
  · exact h2
  · refine Frame.step State.judgeZero_frame ?_
    exact h8

def Foot.genMismatch : Nat := 0x6144008E40000000000000000100000000000000000000000000000000000000000000000000000000000000000010000004000800000010
theorem State.genMismatch_frame {s : State} {x1 : Nat} {x2 : Nat} :
    Frame Foot.genMismatch s (State.genMismatch s x1 x2) := by
  have h0 := Frame.refl Foot.genMismatch s
  unfold State.genMismatch
  extract_lets a1 a2 a3
  have h4 : Frame Foot.genMismatch s a2 := by
    refine Frame.step State.setPair_frame ?_
    exact h0
  clear_value a2
  have h5 : Frame Foot.genMismatch s a3 := by
    refine Frame.step State.unitDetected_frame ?_
    refine Frame.step State.dropShadow_frame ?_
    refine Frame.step State.setSpare_frame ?_
    exact h4
  clear_value a3
  refine Frame.step State.postGenSwap_frame ?_
  exact h5

def Foot.watchAtZero : Nat := 0x6144008E40000000000000000100000000000000000000000000000000000000000000000000000000000000000010000004000800000010
theorem State.watchAtZero_frame {s : State} {x0 : Nat} {x2 : Nat} :
    Frame Foot.watchAtZero s (State.watchAtZero x0 s x2) := by
  have h0 := Frame.refl Foot.watchAtZero s
  unfold State.watchAtZero
  extract_lets a1
  split
  · refine Frame.ite ?_ ?_
    · refine Frame.step State.genMismatch_frame ?_
      exact h0
    · exact h0
  · exact h0

def Foot.zero : Nat := 0x614405EE488000000000000001024000000000000000000000000000000000000000000000000000000000603E0C18000004000800104010
theorem State.zero_frame {s : State} {x1 : Nat} {x2 : Nat} {x3 : Nat} :
    Frame Foot.zero s (State.zero s x1 x2 x3) := by
  have h0 := Frame.refl Foot.zero s
  unfold State.zero
  extract_lets a1 a2 a3 a4 a5 a6 a7 a8 a9 a10
  have h11 : Frame Foot.zero s a2 := by
    refine Frame.step State.settle_frame ?_
    refine Frame.step State.at_frame ?_
    exact h0
  clear_value a2
  have h12 : Frame Foot.zero s a3 := by
    refine Frame.ite ?_ ?_
    · refine Frame.step State.setTb_frame ?_
      exact h11
    · exact h11
  clear_value a3
  have h13 : Frame Foot.zero s a4 := by
    refine Frame.ite ?_ ?_
    · exact h12
    · refine Frame.step State.transferSet_frame ?_
      exact h12
  clear_value a4
  have h14 : Frame Foot.zero s a5 := by
    refine Frame.step State.divisorAtZero_frame ?_
    refine Frame.step State.clockAtZero_frame ?_
    exact h13
  clear_value a5
  have h15 : Frame Foot.zero s a7 := by
    refine Frame.step State.drawDither_frame ?_
    refine Frame.step State.openPeriod_frame ?_
    exact h14
  clear_value a7
  have h16 : Frame Foot.zero s a8 := by
    refine Frame.ite ?_ ?_
    · refine Frame.step State.slavePhases_frame ?_
      refine Frame.step State.takeRealign_frame ?_
      refine Frame.step State.gridZero_frame ?_
      exact h15
    · exact h15
  clear_value a8
  have h17 : Frame Foot.zero s a9 := by
    refine Frame.step State.judgePairs_frame ?_
    refine Frame.step State.releaseCbc_frame ?_
    exact h16
  clear_value a9
  have h18 : Frame Foot.zero s a10 := by
    refine Frame.foldl ?_ (fun u19 x20 h21 => ?_)
    · exact h17
    · refine Frame.step State.watchAtZero_frame ?_
      exact h21
  clear_value a10
  refine Frame.ite ?_ ?_
  · exact h0
  · refine Frame.step State.showTb_frame ?_
    refine Frame.foldl ?_ (fun u22 x23 h24 => ?_)
    · exact h18
    · refine Frame.step State.swapAtZero_frame ?_
      exact h24

def Foot.halfPoint : Nat := 0x610401CE408000000000000000000000000000000000000000000000000000000000000000000000000000003E0408000004000800000010
theorem State.halfPoint_frame {s : State} {x1 : Nat} :
    Frame Foot.halfPoint s (State.halfPoint s x1) := by
  have h0 := Frame.refl Foot.halfPoint s
  unfold State.halfPoint
  extract_lets a1 a2 a3 a4 a5 a6 a7 a8 a9
  have h10 : Frame Foot.halfPoint s a2 := by
    refine Frame.step State.settle_frame ?_
    refine Frame.step State.at_frame ?_
    exact h0
  clear_value a2
  have h11 : Frame Foot.halfPoint s a4 := by
    refine Frame.ite ?_ ?_
    · refine Frame.step State.transferSet_frame ?_
      exact h10
    · exact h10
  clear_value a4
  have h12 : Frame Foot.halfPoint s a8 := by
    refine Frame.ite ?_ ?_
    · refine Frame.foldl ?_ (fun u13 x14 h15 => ?_)
      · refine Frame.step State.setTb_frame ?_
        exact h11
      · refine Frame.step State.judgeHalf_frame ?_
        exact h15
    · refine Frame.step State.setTb_frame ?_
      exact h11
  clear_value a8
  have h16 : Frame Foot.halfPoint s a9 := by
    refine Frame.ite ?_ ?_
    · refine Frame.foldl ?_ (fun u17 x18 h19 => ?_)
      · exact h12
      · refine Frame.step State.moveOpening_frame ?_
        exact h19
    · exact h12
  clear_value a9
  refine Frame.ite ?_ ?_
  · exact h0
  · refine Frame.step State.showTb_frame ?_
    exact h16

def Foot.writeTbRun : Nat := 0x610401CE43000000000000000000000000000000000000000000000000000000000000000000000000000000380480000004000800000010
theorem State.writeTbRun_frame {s : State} {x1 : Nat} {x2 : Word} :
    Frame Foot.writeTbRun s (State.writeTbRun s x1 x2) := by
  have h0 := Frame.refl Foot.writeTbRun s
  unfold State.writeTbRun
  extract_lets a1 a2 a3
  have h4 : Frame Foot.writeTbRun s a2 := by
    refine Frame.step State.setForce_frame ?_
    refine Frame.setReg ?_ (regNo_TBn_CFG _)
    exact h0
  clear_value a2
  have h5 : Frame Foot.writeTbRun s a3 := by
    refine Frame.step State.startTb_frame ?_
    exact h4
  clear_value a3
  refine Frame.ite ?_ ?_
  · refine Frame.ite ?_ ?_
    · refine Frame.step State.showTb_frame ?_
      refine Frame.step State.judgePairs_frame ?_
      exact h5
    · exact h5
  · refine Frame.ite ?_ ?_
    · refine Frame.step State.stopTb_frame ?_
      exact h4
    · exact h4

def Foot.enablePair : Nat := 0x8000000000000000000000000000000000000000000000000000000000000000000000000000000000080000000000000000000000
theorem State.enablePair_frame {s : State} {x1 : Nat} :
    Frame Foot.enablePair s (State.enablePair s x1) := by
  have h0 := Frame.refl Foot.enablePair s
  unfold State.enablePair
  refine Frame.ite ?_ ?_
  · exact h0
  · extract_lets a1 a2
    have h3 : Frame Foot.enablePair s a1 := by
      refine Frame.setFld ?_ (regNo_PAIRk_LIVE _)
      exact h0
    clear_value a1
    refine Frame.ite ?_ ?_
    · refine Frame.step State.setPair_frame ?_
      exact h3
    · refine Frame.step State.startPair_frame ?_
      exact h3

def Foot.enablePairs : Nat := 0x8000000000000000000000000000000000000000000000000000000000000000000000000000000000080000000000000000000000
theorem State.enablePairs_frame {s : State} {x1 : Nat} :
    Frame Foot.enablePairs s (State.enablePairs s x1) := by
  have h0 := Frame.refl Foot.enablePairs s
  unfold State.enablePairs
  refine Frame.foldl ?_ (fun u1 x2 h3 => ?_)
  · refine Frame.step State.settle_frame ?_
    exact h0
  · refine Frame.step State.enablePair_frame ?_
    exact h3

def Foot.disablePairs : Nat := 0x8000000000000000000000000000000000000000000000000000000000000000000000000000000000180000000000000000000000
theorem State.disablePairs_frame {s : State} {x1 : Nat} :
    Frame Foot.disablePairs s (State.disablePairs s x1) := by
  have h0 := Frame.refl Foot.disablePairs s
  unfold State.disablePairs
  refine Frame.foldl ?_ (fun u1 x2 h3 => ?_)
  · refine Frame.step State.settle_frame ?_
    exact h0
  · extract_lets a4 a5
    have h6 : Frame Foot.disablePairs s a4 := by
      refine Frame.step State.clearCarry_frame ?_
      refine Frame.setFld ?_ (regNo_PAIRk_LIVE _)
      exact h3
    clear_value a4
    refine Frame.step State.regate_frame ?_
    refine Frame.step State.setPair_frame ?_
    exact h6

def Foot.carrierSet : Nat := 0x200180000000000000000000000000000000000000000000000000000000000000000000000000000000001801000003C0000000000000
theorem State.carrierSet_frame {s : State} {x1 : Nat} {x2 : Word} :
    FrameV Foot.carrierSet s (State.carrierSet s x1 x2) := by
  have h0 := Frame.refl Foot.carrierSet s
  unfold State.carrierSet
  extract_lets a1 a2 a3
  refine FrameV.doneClamp ?_
  refine Frame.step State.refreshToll_frame ?_
  refine Frame.step State.imageWrite_frame ?_
  refine Frame.armWrite ?_ (AddrOk.of (regNo_TBn_PER _))
  exact h0

def Foot.loadAll : Nat := 0x18000000000000000000000000000000000000000000000000000000000000000000000000000000000000000000000000000000000
theorem State.loadAll_frame {s : State} {x1 : Nat} :
    FrameV Foot.loadAll s (State.loadAll s x1) := by
  have h0 := Frame.refl Foot.loadAll s
  unfold State.loadAll
  refine FrameV.done ?_
  refine Frame.ite ?_ ?_
  · exact { h0 with pwmRest := fun hb => absurd hb (by decide) }
  · refine Frame.foldl ?_ (fun u1 x2 h3 => ?_)
    · exact h0
    · refine Frame.step State.takeShadow_frame ?_
      exact h3

/-! ### Trips -/

def Foot.setCbcSince : Nat := 0x2000000000000000000000000000000000000000000000000000000000000000000000000000000000000000000000000000000000
theorem State.setCbcSince_frame {s : State} {x1 : Nat} {x2 : Nat} {x3 : Nat} :
    Frame Foot.setCbcSince s (State.setCbcSince s x1 x2 x3) := by
  have h0 := Frame.refl Foot.setCbcSince s
  unfold State.setCbcSince
  exact { h0 with prot := fun hb => absurd hb (by decide) }

def Foot.cbcHold : Nat := 0xA000000000000000000000000000000000000000000000000000000000000000000000000000000000000000000000000000000000
theorem State.cbcHold_frame {s : State} {x1 : Nat} :
    Frame Foot.cbcHold s (State.cbcHold s x1) := by
  have h0 := Frame.refl Foot.cbcHold s
  unfold State.cbcHold
  extract_lets a1 a2 a3
  have h4 : Frame Foot.cbcHold s a1 := by
    refine Frame.step State.settle_frame ?_
    exact h0
  clear_value a1
  refine Frame.step State.regateAll_frame ?_
  exact { h4 with prot := fun hb => absurd hb (by decide) }

def Foot.cbcReport : Nat := 0x6104002E40000000000000000000000000000000000000000000000000000000000000000000000000000000000000000004000800000010
theorem State.cbcReport_frame {s : State} {x1 : Nat} :
    Frame Foot.cbcReport s (State.cbcReport s x1) := by
  have h0 := Frame.refl Foot.cbcReport s
  unfold State.cbcReport
  extract_lets a1 a2
  refine Frame.ite ?_ ?_
  · refine Frame.step State.event_frame ?_
    refine Frame.step State.setCbcSince_frame ?_
    exact h0
  · refine Frame.step State.setCbcSince_frame ?_
    exact h0

def Foot.cbcActivate : Nat := 0x610400AE40000000000000000000000000000000000000000000000000000000000000000000000000000080000000000004000800000010
theorem State.cbcActivate_frame {s : State} {x1 : Nat} :
    Frame Foot.cbcActivate s (State.cbcActivate s x1) := by
  have h0 := Frame.refl Foot.cbcActivate s
  unfold State.cbcActivate
  refine Frame.step State.cbcReport_frame ?_
  refine Frame.count ?_ (regNo_PROT_CNT)
  refine Frame.step State.cbcHold_frame ?_
  exact h0

def Foot.levelsActive : Nat := 0x690403AE4000000000000000000000000000000000000000000000000000000100000000000000001E0101F81A0000000004000800000010
theorem State.levelsActive_frame {s : State} {x1 : List Nat} :
    Frame Foot.levelsActive s (State.levelsActive s x1) := by
  have h0 := Frame.refl Foot.levelsActive s
  unfold State.levelsActive
  extract_lets a1 a2 a3
  have h4 : Frame Foot.levelsActive s a2 := by
    refine Frame.foldl ?_ (fun u5 x6 h7 => ?_)
    · exact h0
    · refine Frame.step State.setLevel_frame ?_
      exact h7
  clear_value a2
  have h8 : Frame Foot.levelsActive s a3 := by
    refine Frame.step State.trip_frame ?_
    exact h4
  clear_value a3
  refine Frame.foldl ?_ (fun u9 x10 h11 => ?_)
  · exact h8
  · refine Frame.ite ?_ ?_
    · refine Frame.step State.cbcActivate_frame ?_
      exact h11
    · refine Frame.ite ?_ ?_
      · refine Frame.step State.event_frame ?_
        exact h11
      · exact h11

def Foot.setRun : Nat := 0x2000000000000000000000000000000000000000000000000000000000000000000000000000000000000000000000000000000000
theorem State.setRun_frame {s : State} {x1 : Nat} {x2 : Nat} :
    Frame Foot.setRun s (State.setRun s x1 x2) := by
  have h0 := Frame.refl Foot.setRun s
  unfold State.setRun
  exact { h0 with prot := fun hb => absurd hb (by decide) }

def Foot.seeRaw : Nat := 0x2000000000000000000000000000000000000000000000000000000000000000000000000000000000000000000000000000000000
theorem State.seeRaw_frame {s : State} {x1 : Nat} {x2 : Nat} {x3 : Nat} :
    Frame Foot.seeRaw s (State.seeRaw s x1 x2 x3) := by
  have h0 := Frame.refl Foot.seeRaw s
  unfold State.seeRaw
  refine Frame.foldl ?_ (fun u1 x2 h3 => ?_)
  · exact h0
  · refine Frame.ite ?_ ?_
    · exact h3
    · refine Frame.step State.setRun_frame ?_
      exact { h3 with prot := fun hb => absurd hb (by decide) }

def Foot.execTripFilterActive : Nat := 0x690403AE4080000000000000000000000000000000000000000000000000000100000000000000001E0101F81A0000000004000800000010
theorem execTripFilterActive_frame {s : State} {x0 : Nat} {x1 : Nat} {x2 : Nat} {x3 : Nat} :
    FrameO Foot.execTripFilterActive s (execTripFilterActive x0 x1 x2 x3 s) := by
  have h0 := Frame.refl Foot.execTripFilterActive s
  unfold execTripFilterActive
  extract_lets a1
  have h2 : Frame Foot.execTripFilterActive s a1 := by
    refine Frame.step State.at_frame ?_
    refine Frame.step State.seeRaw_frame ?_
    exact h0
  clear_value a1
  refine FrameO.next ?_
  refine Frame.step State.levelsActive_frame ?_
  exact h2

def Foot.execTripFilterInactive : Nat := 0x2000800000000000000000000000000000000000000000000000000000000000000000000000000060000000000000000000000000
theorem execTripFilterInactive_frame {s : State} {x0 : Nat} {x1 : Nat} {x2 : Nat} {x3 : Nat} :
    FrameO Foot.execTripFilterInactive s (execTripFilterInactive x0 x1 x2 x3 s) := by
  have h0 := Frame.refl Foot.execTripFilterInactive s
  unfold execTripFilterInactive
  extract_lets a1
  have h2 : Frame Foot.execTripFilterInactive s a1 := by
    refine Frame.step State.at_frame ?_
    refine Frame.step State.seeRaw_frame ?_
    exact h0
  clear_value a1
  refine FrameO.next ?_
  refine Frame.foldl ?_ (fun u3 x4 h5 => ?_)
  · exact h2
  · refine Frame.step State.setLevel_frame ?_
    exact h5

def Foot.execSafeReadbackFail : Nat := 0x691403AFE000000000000000000000000000000000000000000000000000000100000000000000001E0101001A0000000024041800000010
theorem execSafeReadbackFail_frame {s : State} {x0 : Fin 16} {x1 : Bool} :
    FrameO Foot.execSafeReadbackFail s (execSafeReadbackFail x0 x1 s) := by
  have h0 := Frame.refl Foot.execSafeReadbackFail s
  unfold execSafeReadbackFail
  extract_lets a1
  refine FrameO.next ?_
  refine Frame.ite ?_ ?_
  · refine Frame.step State.f4_frame ?_
    exact h0
  · exact h0

def Foot.reresolve : Nat := 0x610401AE400000000000000000000000000000000000000000000000000000010000000000000000000101001A0000000004000800000010
theorem State.reresolve_frame {s : State} {x1 : Nat} :
    Frame Foot.reresolve s (State.reresolve s x1) := by
  have h0 := Frame.refl Foot.reresolve s
  unfold State.reresolve
  refine Frame.ite ?_ ?_
  · exact h0
  · refine Frame.ite ?_ ?_
    · refine Frame.step State.checkConflict_frame ?_
      exact h0
    · refine Frame.step State.applySafe_frame ?_
      exact h0

def Foot.loadPairReg : Nat := Foot.force

theorem Frame.loadPairReg {K : Nat} {s t : State} {k a : Nat} (h : Frame K s t) (ha : AddrOk K a)
    (hF : Within Foot.loadPairReg K := by decide) : Frame K s (State.loadPairReg k t a) := by
  unfold State.loadPairReg
  exact Frame.ite h (Frame.step State.force_frame (h.loadReg ha (Nat.zero_and K)) hF)

def Foot.loadUnit : Nat := Foot.loadPairReg ||| Foot.setPair ||| blockMask 5

theorem pairRegs_unit (k : Nat) : ∀ a ∈ pairRegs k, unitOf a = 5 := by
  intro a ha
  have := Nat.mod_lt k (show 0 < 16 by decide)
  unfold pairRegs at ha
  simp only [List.mem_cons, List.not_mem_nil, or_false, Reg.PAIRk_CFG, Reg.PAIRk_DT, Reg.PAIRk_MINP, Reg.PAIRk_CMP, Reg.PAIRk_SHD, Reg.PAIRk_MASK, Reg.PAIRk_MASKNX] at ha
  unfold unitOf blockBase
  omega

theorem State.loadUnit_frame {s : State} {u : Nat} : Frame Foot.loadUnit s (s.loadUnit u) := by
  unfold State.loadUnit
  refine Frame.foldl (Frame.refl _ s) (fun t k h => ?_)
  have h1 := Frame.foldlOn (f := State.loadPairReg k) (l := pairRegs k) h
    (fun t a ha h => h.loadPairReg (AddrOk.other (pairRegs_unit k a ha)))
  exact Frame.step State.setPair_frame h1

def Foot.loadOnce : Nat := 0x1A0000000000000000000000000000000000000000000000000000000000000000000000000000000007FFFF8000000000000000000
theorem State.loadOnce_frame {s : State} {x1 : Nat} :
    Frame Foot.loadOnce s (State.loadOnce s x1) := by
  have h0 := Frame.refl Foot.loadOnce s
  unfold State.loadOnce
  refine Frame.ite ?_ ?_
  · exact h0
  · extract_lets a1 a2
    have h3 : Frame Foot.loadOnce s a1 := by
      refine Frame.step State.loadUnit_frame ?_
      exact h0
    clear_value a1
    exact { h3 with prot := fun hb => absurd hb (by decide) }

def Foot.clearLatches : Nat := 0x610401AE400000000000000000000000000000000000000000000000000000010000000000000000000101187FFFF8000004000800000010
theorem State.clearLatches_frame {s : State} {x1 : List Nat} :
    Frame Foot.clearLatches s (State.clearLatches s x1) := by
  have h0 := Frame.refl Foot.clearLatches s
  unfold State.clearLatches
  extract_lets a1 a2 a3 a4 a5
  have h6 : Frame Foot.clearLatches s a2 := by
    refine Frame.foldl ?_ (fun u7 x8 h9 => ?_)
    · refine Frame.step State.settle_frame ?_
      exact h0
    · extract_lets a10 a11
      have h12 : Frame Foot.clearLatches s a10 := by
        refine Frame.step State.setLatch_frame ?_
        exact h9
      clear_value a10
      exact { h12 with prot := fun hb => absurd hb (by decide) }
  clear_value a2
  have h13 : Frame Foot.clearLatches s a3 := by
    refine Frame.step State.reresolve_frame ?_
    refine Frame.step State.reresolve_frame ?_
    exact h6
  clear_value a3
  have h14 : Frame Foot.clearLatches s a4 := by
    refine Frame.step State.loadOnce_frame ?_
    exact h13
  clear_value a4
  refine Frame.ite ?_ ?_
  · exact { h14 with prot := fun hb => absurd hb (by decide) }
  · exact h13

def Foot.tripClear : Nat := 0x610401AE400000000000000000000000000000000000000000000000000000010000000000000000000101987FFFF8000004000800000010
theorem State.tripClear_frame {s : State} {x1 : Word} {x2 : Word} :
    FrameV Foot.tripClear s (State.tripClear s x1 x2) := by
  have h0 := Frame.refl Foot.tripClear s
  unfold State.tripClear
  extract_lets a1 a2
  clear_value a2
  split
  · refine FrameV.noWith ?_
    intro u3
    have h4 := Frame.refl Foot.tripClear u3
    dsimp -zeta only
    refine Frame.step State.event_frame ?_
    refine Frame.count ?_ (regNo_PROT_CNT)
    exact h4
  · refine FrameV.done ?_
    refine Frame.step State.clearLatches_frame ?_
    exact h0

def Foot.safeRequest : Nat := 0x610401AE400000000000000000000000000000000000000000000000000000010000000000000000000101001A0000000004000800000010
theorem State.safeRequest_frame {s : State} {x1 : Nat} {x2 : Word} :
    FrameV Foot.safeRequest s (State.safeRequest s x1 x2) := by
  have h0 := Frame.refl Foot.safeRequest s
  unfold State.safeRequest
  extract_lets a1 a2 a3 a4 a5
  have h6 : Frame Foot.safeRequest s a2 := by
    refine Frame.step State.settle_frame ?_
    exact h0
  clear_value a2
  have h7 : Frame Foot.safeRequest s a3 := by
    refine Frame.ite ?_ ?_
    · exact h6
    · refine Frame.step State.setExplicit_frame ?_
      exact h6
  clear_value a3
  have h8 : Frame Foot.safeRequest s a5 := by
    exact { h7 with prot := fun hb => absurd hb (by decide) }
  clear_value a5
  refine FrameV.doneClamp ?_
  refine Frame.step State.applySafe_frame ?_
  exact h8

def Foot.driveEnable : Nat := 0x1A0000000000000000000000000000000000000000000000000000000000000000000000000000000007FFFF8000000000000000000
theorem State.driveEnable_frame {s : State} {x1 : Nat} :
    FrameV Foot.driveEnable s (State.driveEnable s x1) := by
  have h0 := Frame.refl Foot.driveEnable s
  unfold State.driveEnable
  refine FrameV.ite ?_ ?_
  · refine FrameV.refused ?_
    exact FrameF.id
  · refine FrameV.ite ?_ ?_
    · exact FrameV.no
    · refine FrameV.ite ?_ ?_
      · refine FrameV.done ?_
        exact h0
      · extract_lets a1 a2 a3
        have h4 : Frame Foot.driveEnable s a1 := by
          refine Frame.ite ?_ ?_
          · refine Frame.step State.setExplicit_frame ?_
            exact h0
          · exact h0
        clear_value a1
        have h5 : Frame Foot.driveEnable s a2 := by
          refine Frame.step State.loadOnce_frame ?_
          exact h4
        clear_value a2
        refine FrameV.done ?_
        exact { h5 with prot := fun hb => absurd hb (by decide) }

def Foot.endCbc : Nat := 0x2000000000000000000000000000000000000000000000000000000000000000000000000000000000000000000000000000000000
theorem State.endCbc_frame {s : State} {x1 : Nat} :
    Frame Foot.endCbc s (State.endCbc s x1) := by
  have h0 := Frame.refl Foot.endCbc s
  unfold State.endCbc
  extract_lets a1 a2 a3
  exact { h0 with prot := fun hb => absurd hb (by decide) }

def Foot.releaseUnit : Nat := 0x610401AE400000000000000000000000000000000000000000000000000000010000000000000000000101007FFFF8000004000800000010
theorem State.releaseUnit_frame {s : State} {x1 : Nat} :
    Frame Foot.releaseUnit s (State.releaseUnit s x1) := by
  have h0 := Frame.refl Foot.releaseUnit s
  unfold State.releaseUnit
  refine Frame.ite ?_ ?_
  · exact h0
  · refine Frame.step State.release_frame ?_
    refine Frame.step State.endCbc_frame ?_
    refine Frame.step State.loadOnce_frame ?_
    exact h0

end Sys2Proof.Machine
end

