-- ==== Sys2Proof/Laws/FrameSense.lean ====
section
/-! SUPPORT. What each operation can change, one lemma for one function, and the mask of the parts it names:
acquisition, position feedback, field control, weigh-house, Isnak links, thermal management. -/

set_option Elab.async false

namespace Sys2Proof.Machine

/-! ### Acq -/

def Foot.setGrp : Nat := 0x40000000000000000000000000000000000000000000000000000000000000000000000000000000000000000000000000000000000
theorem State.setGrp_frame {s : State} {x1 : Nat} {x2 : AcqGroup} :
    Frame Foot.setGrp s (State.setGrp s x1 x2) := by
  have h0 := Frame.refl Foot.setGrp s
  unfold State.setGrp
  exact { h0 with acq := fun hb => absurd hb (by decide) }

def Foot.setCoreDiag : Nat := 0x40000000000000000000000000000000000000000000000000000000000000000000000000000000000000000000000000000000000
theorem State.setCoreDiag_frame {s : State} {x1 : Nat} {x2 : CoreDiag} :
    Frame Foot.setCoreDiag s (State.setCoreDiag s x1 x2) := by
  have h0 := Frame.refl Foot.setCoreDiag s
  unfold State.setCoreDiag
  exact { h0 with acq := fun hb => absurd hb (by decide) }

def Foot.setSp : Nat := 0x80000000000000000000000000000000
theorem State.setSp_frame {s : State} {x1 : Nat} {x2 : Nat} :
    Frame Foot.setSp s (State.setSp s x1 x2) := by
  have h0 := Frame.refl Foot.setSp s
  unfold State.setSp
  refine Frame.setFld ?_ (regNo_ACQ_STAT)
  exact h0

def Foot.setCoreFail : Nat := 0x80000000000000000000000000000000
theorem State.setCoreFail_frame {s : State} {x1 : Nat} {x2 : Nat} {x3 : Bool} :
    Frame Foot.setCoreFail s (State.setCoreFail s x1 x2 x3) := by
  have h0 := Frame.refl Foot.setCoreFail s
  unfold State.setCoreFail
  refine Frame.setReg ?_ (regNo_ACQ_STAT)
  exact h0

def Foot.setAcc : Nat := 0x40000000000000000000000000000000000000000000000000000000000000000000000000000000000000000000000000000000000
theorem State.setAcc_frame {s : State} {x1 : Nat} {x2 : Acc} :
    Frame Foot.setAcc s (State.setAcc s x1 x2) := by
  have h0 := Frame.refl Foot.setAcc s
  unfold State.setAcc
  exact { h0 with acq := fun hb => absurd hb (by decide) }

def Foot.closeSarWindows : Nat := 0x40000000000000000000000000000000000000000000000000000000000000000000000000000000000000000000000000000000000
theorem State.closeSarWindows_frame {s : State} :
    Frame Foot.closeSarWindows s (State.closeSarWindows s) := by
  have h0 := Frame.refl Foot.closeSarWindows s
  unfold State.closeSarWindows
  exact { h0 with acq := fun hb => absurd hb (by decide) }

def Foot.freezeEntry : Nat := 0x1C0000000000000000000000000000000000000
theorem State.freezeEntry_frame {s : State} {x1 : Nat} :
    Frame Foot.freezeEntry s (State.freezeEntry s x1) := by
  have h0 := Frame.refl Foot.freezeEntry s
  unfold State.freezeEntry
  extract_lets a1 a2 a3 a4 a5
  have h6 : Frame Foot.freezeEntry s a4 := by
    refine Frame.setReg ?_ (regNo_ACQ_Ea_e_WSUM _ _)
    exact h0
  clear_value a4
  have h7 : Frame Foot.freezeEntry s a5 := by
    refine Frame.setReg ?_ (regNo_ACQ_Ea_e_WCNT _ _)
    exact h6
  clear_value a5
  refine Frame.setReg ?_ (regNo_ACQ_Ea_e_WMM _ _)
  exact h7

def Foot.freezeSar : Nat := 0x1C0000000000000000000000000000000000000
theorem State.freezeSar_frame {s : State} :
    Frame Foot.freezeSar s (State.freezeSar s) := by
  have h0 := Frame.refl Foot.freezeSar s
  unfold State.freezeSar
  refine Frame.foldl ?_ (fun u1 x2 h3 => ?_)
  · exact h0
  · refine Frame.step State.freezeEntry_frame ?_
    exact h3

def Foot.publishInput : Nat := 0x800000000000000000000000000000000000000000000000000000000000000000000000000000000000000000000000000000000000000
theorem State.publishInput_frame {s : State} {x1 : Nat} :
    Frame Foot.publishInput s (State.publishInput s x1) := by
  have h0 := Frame.refl Foot.publishInput s
  unfold State.publishInput
  extract_lets a1 a2 a3 a4 a5 a6 a7
  have h8 : Frame Foot.publishInput s a7 := by
    refine Frame.step State.publishReal_frame ?_
    refine Frame.step State.publishReal_frame ?_
    exact h0
  clear_value a7
  refine Frame.ite ?_ ?_
  · refine Frame.step State.publishFlag_frame ?_
    exact h0
  · refine Frame.step State.publishFlag_frame ?_
    refine Frame.step State.publishReal_frame ?_
    exact h8

def Foot.f3 : Nat := 0x610401AE400000000000000000000000000000000000000000000000000000010000000000000000000101781A0000000004000800000010
theorem State.f3_frame {s : State} {x1 : Ev} {x2 : Nat} {x3 : Nat} :
    Frame Foot.f3 s (State.f3 s x1 x2 x3) := by
  have h0 := Frame.refl Foot.f3 s
  unfold State.f3
  refine Frame.step State.raise_frame ?_
  refine Frame.step State.event_frame ?_
  exact h0

def Foot.sumBeyond : Nat := 0x610405AE400000000000000000000000000000000000000000000000000000010000000000000000000101781A0000000004000800000010
theorem State.sumBeyond_frame {s : State} {x1 : Nat} :
    Frame Foot.sumBeyond s (State.sumBeyond s x1) := by
  have h0 := Frame.refl Foot.sumBeyond s
  unfold State.sumBeyond
  extract_lets a1 a2 a3 a4
  have h5 : Frame Foot.sumBeyond s a4 := by
    refine Frame.step State.setGrp_frame ?_
    exact h0
  clear_value a4
  refine Frame.ite ?_ ?_
  · refine Frame.step State.f3_frame ?_
    exact h5
  · exact h5

def Foot.sumWithin : Nat := 0x42000000000000000000000000000000000000000000000000000000000000000000000000000000060000000000000000000000000
theorem State.sumWithin_frame {s : State} {x1 : Nat} :
    Frame Foot.sumWithin s (State.sumWithin s x1) := by
  have h0 := Frame.refl Foot.sumWithin s
  unfold State.sumWithin
  refine Frame.step State.endCause_frame ?_
  refine Frame.step State.setGrp_frame ?_
  exact h0

def Foot.checkSum : Nat := 0x610405AE400000000000000000000000000000000000000000000000000000010000000000000000000101781A0000000004000800000010
theorem State.checkSum_frame {s : State} {x1 : Nat} :
    Frame Foot.checkSum s (State.checkSum s x1) := by
  have h0 := Frame.refl Foot.checkSum s
  unfold State.checkSum
  refine Frame.ite ?_ ?_
  · split
    · refine Frame.ite ?_ ?_
      · refine Frame.step State.sumBeyond_frame ?_
        exact h0
      · refine Frame.step State.sumWithin_frame ?_
        exact h0
    · exact h0
  · refine Frame.step State.sumWithin_frame ?_
    exact h0

def Foot.publishSar : Nat := 0x690405AE400000000000000000000000000000000000000000000000000000010000000000000000000101781A0000000004000800000010
theorem State.publishSar_frame {s : State} :
    Frame Foot.publishSar s (State.publishSar s) := by
  have h0 := Frame.refl Foot.publishSar s
  unfold State.publishSar
  extract_lets a1
  have h2 : Frame Foot.publishSar s a1 := by
    refine Frame.foldl ?_ (fun u3 x4 h5 => ?_)
    · exact h0
    · refine Frame.step State.publishInput_frame ?_
      exact h5
  clear_value a1
  refine Frame.foldl ?_ (fun u6 x7 h8 => ?_)
  · exact h2
  · refine Frame.step State.checkSum_frame ?_
    exact h8

def Foot.postCoreSwap : Nat := 0x6104000E40000000000000000000000000000000000000000000000000000000000000000000000000000000000000000004000800000010
theorem State.postCoreSwap_frame {s : State} {x1 : Nat} {x2 : Nat} {x3 : Nat} {x4 : Bool} :
    Frame Foot.postCoreSwap s (State.postCoreSwap s x1 x2 x3 x4) := by
  have h0 := Frame.refl Foot.postCoreSwap s
  unfold State.postCoreSwap
  refine Frame.step State.event_frame ?_
  exact h0

def Foot.coresExhausted : Nat := 0x610401AE400000000000000000000000000000000000000000000000000000010000000000000000000101781A0000000004000800000010
theorem State.coresExhausted_frame {s : State} {x1 : Nat} {x2 : Nat} :
    Frame Foot.coresExhausted s (State.coresExhausted s x1 x2) := by
  have h0 := Frame.refl Foot.coresExhausted s
  unfold State.coresExhausted
  refine Frame.step State.f3_frame ?_
  exact h0

def Foot.freeSpareCore : Nat := 0x6144040E40000000000000000102400000000000000000000000000000000000000000000000000080000000000000000004000800000010
theorem State.freeSpareCore_frame {s : State} {x1 : Nat} :
    Frame Foot.freeSpareCore s (State.freeSpareCore s x1) := by
  have h0 := Frame.refl Foot.freeSpareCore s
  unfold State.freeSpareCore
  extract_lets a1 a2 a3
  have h4 : Frame Foot.freeSpareCore s a1 := by
    refine Frame.ite ?_ ?_
    · refine Frame.step State.setSp_frame ?_
      exact h0
    · exact h0
  clear_value a1
  have h5 : Frame Foot.freeSpareCore s a2 := by
    refine Frame.step State.shadowAborted_frame ?_
    refine Frame.step State.abortTest_frame ?_
    exact h4
  clear_value a2
  refine Frame.step State.setGrp_frame ?_
  exact h5

def Foot.failCore : Nat := 0x614405AE400000000000000001024000000000000000000000000000000000010000000000000000800101781A0000000004000800000010
theorem State.failCore_frame {s : State} {x1 : Nat} {x2 : Nat} :
    Frame Foot.failCore s (State.failCore s x1 x2) := by
  have h0 := Frame.refl Foot.failCore s
  unfold State.failCore
  extract_lets a1 a2
  have h3 : Frame Foot.failCore s a1 := by
    refine Frame.step State.unitDetected_frame ?_
    refine Frame.step State.setCoreFail_frame ?_
    exact h0
  clear_value a1
  refine Frame.ite ?_ ?_
  · refine Frame.step State.setGrp_frame ?_
    refine Frame.step State.freeSpareCore_frame ?_
    exact h3
  · refine Frame.step State.coresExhausted_frame ?_
    exact h3

def Foot.failSpare : Nat := 0x614405AE400000000000000001000000000000000000000000000000000000010000000000000000800101781A0000000004000800000010
theorem State.failSpare_frame {s : State} {x1 : Nat} :
    Frame Foot.failSpare s (State.failSpare s x1) := by
  have h0 := Frame.refl Foot.failSpare s
  unfold State.failSpare
  extract_lets a1 a2 a3 a4 a5 a6
  have h7 : Frame Foot.failSpare s a3 := by
    refine Frame.step State.unitDetected_frame ?_
    refine Frame.step State.setCoreFail_frame ?_
    exact h0
  clear_value a3
  have h8 : Frame Foot.failSpare s a6 := by
    refine Frame.step State.postCoreSwap_frame ?_
    refine Frame.step State.setGrp_frame ?_
    exact h7
  clear_value a6
  refine Frame.ite ?_ ?_
  · split
    · extract_lets a9 a10
      have h11 : Frame Foot.failSpare s a9 := by
        refine Frame.step State.setUnit_frame ?_
        refine Frame.step State.setSp_frame ?_
        exact h7
      clear_value a9
      refine Frame.step State.postReadmitted_frame ?_
      refine Frame.step State.setCoreFail_frame ?_
      refine Frame.step State.setGrp_frame ?_
      exact h11
    · refine Frame.step State.coresExhausted_frame ?_
      exact h7
  · clear_value a4
    split
    · refine Frame.step State.coresExhausted_frame ?_
      exact h8
    · exact h8

def Foot.takeoverCore : Nat := 0x6144040E40000000000000000102400000000000000000000000000000000000000000000000000080000000000000000004000800000010
theorem State.takeoverCore_frame {s : State} {x1 : Nat} :
    Frame Foot.takeoverCore s (State.takeoverCore s x1) := by
  have h0 := Frame.refl Foot.takeoverCore s
  unfold State.takeoverCore
  split
  · exact h0
  · refine Frame.ite ?_ ?_
    · exact h0
    · extract_lets a1 a2 a3 a4
      have h5 : Frame Foot.takeoverCore s a2 := by
        refine Frame.step State.setGrp_frame ?_
        exact h0
      clear_value a2
      have h6 : Frame Foot.takeoverCore s a3 := by
        refine Frame.ite ?_ ?_
        · refine Frame.step State.shadowPassed_frame ?_
          exact h5
        · refine Frame.step State.claimSpare_frame ?_
          exact h5
      clear_value a3
      have h7 : Frame Foot.takeoverCore s a4 := by
        refine Frame.setFld ?_ (regNo_ACQ_STAT)
        refine Frame.step State.setSp_frame ?_
        exact h6
      clear_value a4
      refine Frame.step State.postCoreSwap_frame ?_
      exact h7

def Foot.takeoverCores : Nat := 0x6144040E40000000000000000102400000000000000000000000000000000000000000000000000080000000000000000004000800000010
theorem State.takeoverCores_frame {s : State} :
    Frame Foot.takeoverCores s (State.takeoverCores s) := by
  have h0 := Frame.refl Foot.takeoverCores s
  unfold State.takeoverCores
  refine Frame.foldl ?_ (fun u1 x2 h3 => ?_)
  · exact h0
  · refine Frame.step State.takeoverCore_frame ?_
    exact h3

def Foot.postDiag : Nat := 0x6104040E40000000000000000000000000000000000000000000000000000000000000000000000000000000000000000004000800000010
theorem State.postDiag_frame {s : State} {x1 : Nat} {x2 : Nat} {x3 : Nat} {x4 : Nat} :
    Frame Foot.postDiag s (State.postDiag s x1 x2 x3 x4) := by
  have h0 := Frame.refl Foot.postDiag s
  unfold State.postDiag
  extract_lets a1
  refine Frame.ite ?_ ?_
  · refine Frame.step State.event_frame ?_
    refine Frame.step State.setCoreDiag_frame ?_
    exact h0
  · exact h0

def Foot.diagDeviates : Nat := 0x614405AE400000000000000001024000000000000000000000000000000000010000000000008000800101781A0000000004000800000010
theorem State.diagDeviates_frame {s : State} {x1 : Nat} {x2 : Nat} {x3 : Nat} {x4 : Nat} :
    Frame Foot.diagDeviates s (State.diagDeviates s x1 x2 x3 x4) := by
  have h0 := Frame.refl Foot.diagDeviates s
  unfold State.diagDeviates
  extract_lets a1 a2 a3 a4 a5
  have h6 : Frame Foot.diagDeviates s a4 := by
    refine Frame.step State.setCoreDiag_frame ?_
    exact h0
  clear_value a4
  have h7 : Frame Foot.diagDeviates s a5 := by
    refine Frame.step State.postDiag_frame ?_
    refine Frame.count ?_ (regNo_ACQ_GRPg_DIAGCNT _)
    exact h6
  clear_value a5
  refine Frame.ite ?_ ?_
  · refine Frame.ite ?_ ?_
    · refine Frame.step State.failSpare_frame ?_
      exact h7
    · refine Frame.step State.failCore_frame ?_
      exact h7
  · exact h7

def Foot.diagnose : Nat := 0x614405AE400000000000000001024000000000000000000000000000000000010000000000008000800101781A0000000004000800000010
theorem State.diagnose_frame {s : State} {x1 : Nat} {x2 : Nat} {x3 : Nat} {x4 : Nat} :
    Frame Foot.diagnose s (State.diagnose s x1 x2 x3 x4) := by
  have h0 := Frame.refl Foot.diagnose s
  unfold State.diagnose
  refine Frame.ite ?_ ?_
  · exact h0
  · refine Frame.ite ?_ ?_
    · exact h0
    · refine Frame.ite ?_ ?_
      · refine Frame.step State.diagDeviates_frame ?_
        exact h0
      · refine Frame.step State.setCoreDiag_frame ?_
        exact h0

def Foot.cmpSides : Nat := 0x2000000000000000000000000000000000000000000000000000000000000000000000000000000000000000000000000000000000
theorem State.cmpSides_frame {s : State} {x1 : Nat} {x2 : Nat} {x3 : Nat} :
    Frame Foot.cmpSides s (State.cmpSides s x1 x2 x3) := by
  have h0 := Frame.refl Foot.cmpSides s
  unfold State.cmpSides
  extract_lets a1 a2 a3 a4 a5 a6
  exact { h0 with prot := fun hb => absurd hb (by decide) }

def Foot.cmpAsks : Nat := 0x40000000000000000000000000000000000000000000000000000000000000000000000000000000000000000000000000000000000
theorem State.cmpAsks_frame {s : State} {x1 : Nat} {x2 : Bool} :
    Frame Foot.cmpAsks s (State.cmpAsks s x1 x2) := by
  have h0 := Frame.refl Foot.cmpAsks s
  unfold State.cmpAsks
  extract_lets a1 a2 a3
  refine Frame.ite ?_ ?_
  · refine Frame.step State.setGrp_frame ?_
    exact h0
  · exact h0

def Foot.restartRun : Nat := 0x2000000000000000000000000000000000000000000000000000000000000000000000000000000000000000000000000000000000
theorem State.restartRun_frame {s : State} {x1 : State} {x2 : Nat} :
    Frame Foot.restartRun s (State.restartRun s x1 x2) := by
  have h0 := Frame.refl Foot.restartRun s
  unfold State.restartRun
  refine Frame.ite ?_ ?_
  · exact h0
  · refine Frame.step State.setRun_frame ?_
    exact h0

def Foot.cmpMove : Nat := 0x42000000000000000000000000000000000000000000000000000000000000000000000000000000000000000000000000000000000
theorem State.cmpMove_frame {s : State} {x1 : Nat} {x2 : Nat} {x3 : Nat} :
    Frame Foot.cmpMove s (State.cmpMove s x1 x2 x3) := by
  have h0 := Frame.refl Foot.cmpMove s
  unfold State.cmpMove
  refine Frame.step State.cmpAsks_frame ?_
  refine Frame.step State.restartRun_frame ?_
  refine Frame.step State.cmpSides_frame ?_
  exact h0

def Foot.substitute : Nat := 0x42000000000000000000000000000000000000000000000000000000000000000000000000000000000000000000000000000000000
theorem State.substitute_frame {s : State} {x1 : Nat} {x2 : Nat} {x3 : Nat} :
    Frame Foot.substitute s (State.substitute s x1 x2 x3) := by
  have h0 := Frame.refl Foot.substitute s
  unfold State.substitute
  refine Frame.foldl ?_ (fun u1 x2 h3 => ?_)
  · exact h0
  · refine Frame.ite ?_ ?_
    · refine Frame.step State.cmpMove_frame ?_
      exact h3
    · exact h3

def Foot.accWindow : Nat := 0x40000000000000000000000000000000000000000000000000000000000000000000000000000000000000000000000000000000000
theorem State.accWindow_frame {s : State} {x1 : Nat} {x2 : Nat} {x3 : Acc → Acc} :
    Frame Foot.accWindow s (State.accWindow s x1 x2 x3) := by
  have h0 := Frame.refl Foot.accWindow s
  unfold State.accWindow
  refine Frame.ite ?_ ?_
  · exact { h0 with acq := fun hb => absurd hb (by decide) }
  · refine Frame.ite ?_ ?_
    · exact { h0 with acq := fun hb => absurd hb (by decide) }
    · refine Frame.step State.setAcc_frame ?_
      exact h0

def Foot.streamCode : Nat := 0x40000000000000000000000000000000000000000000000000000000000000000000030000000000000000000000000000000000000
theorem State.streamCode_frame {s : State} {x1 : Nat} {x2 : Nat} {x3 : Nat} {x4 : Nat} :
    Frame Foot.streamCode s (State.streamCode s x1 x2 x3 x4) := by
  have h0 := Frame.refl Foot.streamCode s
  unfold State.streamCode
  extract_lets a1 a2 a3 a4
  have h5 : Frame Foot.streamCode s a2 := by
    refine Frame.setFld ?_ (regNo_ACQ_Ea_e_RES _ _)
    exact h0
  clear_value a2
  have h6 : Frame Foot.streamCode s a3 := by
    refine Frame.setFld ?_ (regNo_ACQ_Ea_e_RES _ _)
    exact h5
  clear_value a3
  have h7 : Frame Foot.streamCode s a4 := by
    refine Frame.ite ?_ ?_
    · refine Frame.setFld ?_ (regNo_ACQ_INk_LAST _)
      exact h6
    · exact h6
  clear_value a4
  refine Frame.step State.accWindow_frame ?_
  exact h7

def Foot.convert : Nat := 0x614405AE400000000000000001024000000000000000000000000000000000010000000000308000800101781A0000000004000800000010
theorem State.convert_frame {s : State} {x1 : Nat} {x2 : Nat} {x3 : Nat} {x4 : Nat} {x5 : Nat} {x6 : Nat} {x7 : Bool} :
    Frame Foot.convert s (State.convert s x1 x2 x3 x4 x5 x6 x7) := by
  have h0 := Frame.refl Foot.convert s
  unfold State.convert
  extract_lets a1 a2 a3
  have h4 : Frame Foot.convert s a3 := by
    refine Frame.ite ?_ ?_
    · refine Frame.step State.accWindow_frame ?_
      exact h0
    · refine Frame.step State.streamCode_frame ?_
      exact h0
  clear_value a3
  refine Frame.ite ?_ ?_
  · exact h0
  · refine Frame.step State.substitute_frame ?_
    refine Frame.step State.diagnose_frame ?_
    exact h4

def Foot.comparePair : Nat := 0x40000000000000000000000000000000000000000000000000000000000000000000000000000000000000000000000000000000000
theorem State.comparePair_frame {s : State} {x1 : Nat} {x2 : Nat → Nat} :
    Frame Foot.comparePair s (State.comparePair s x1 x2) := by
  have h0 := Frame.refl Foot.comparePair s
  unfold State.comparePair
  split
  · exact h0
  · extract_lets a1 a2 a3 a4
    refine Frame.step State.setGrp_frame ?_
    exact h0

def Foot.idleSlot : Nat := 0x614405AE400000000000000001024000000000000000000000000000000000010000000000008000800101781A0000000004000800000010
theorem State.idleSlot_frame {s : State} {x1 : Nat} {x2 : Nat} :
    Frame Foot.idleSlot s (State.idleSlot s x1 x2) := by
  have h0 := Frame.refl Foot.idleSlot s
  unfold State.idleSlot
  extract_lets a1 a2
  have h3 : Frame Foot.idleSlot s a1 := by
    refine Frame.ite ?_ ?_
    · refine Frame.step State.diagnose_frame ?_
      exact h0
    · exact h0
  clear_value a1
  refine Frame.step State.setGrp_frame ?_
  exact h3

def Foot.slotEnds : Nat := 0x614405AE400000000000000001024000000000000000000000000000000000010000000000308000800101781A0000000004000800000010
theorem State.slotEnds_frame {s : State} {x1 : Nat} {x2 : Nat → Nat} {x3 : Nat} {x4 : Bool} :
    Frame Foot.slotEnds s (State.slotEnds s x1 x2 x3 x4) := by
  have h0 := Frame.refl Foot.slotEnds s
  unfold State.slotEnds
  extract_lets a1 a2 a3 a4 a5
  have h6 : Frame Foot.slotEnds s a3 := by
    refine Frame.step State.setGrp_frame ?_
    exact h0
  clear_value a3
  have h7 : Frame Foot.slotEnds s a4 := by
    refine Frame.foldl ?_ (fun u8 x9 h10 => ?_)
    · exact h6
    · split
      · refine Frame.step State.convert_frame ?_
        exact h10
      · exact h10
  clear_value a4
  have h11 : Frame Foot.slotEnds s a5 := by
    refine Frame.step State.idleSlot_frame ?_
    exact h7
  clear_value a5
  split
  · refine Frame.ite ?_ ?_
    · exact h11
    · refine Frame.step State.comparePair_frame ?_
      exact h11
  · exact h11

def Foot.execSarConversionDone : Nat := 0x614405AE408000000000000001024000000000000000000000000000000000010000000000308000800101781A0000000004000800000010
theorem execSarConversionDone_frame {s : State} {x0 : Fin 4} {x1 : Int} {x2 : Int} {x3 : Int} {x4 : Int} {x5 : Nat} {x6 : Nat} {x7 : Bool} :
    FrameO Foot.execSarConversionDone s (execSarConversionDone x0 x1 x2 x3 x4 x5 x6 x7 s) := by
  have h0 := Frame.refl Foot.execSarConversionDone s
  unfold execSarConversionDone
  refine FrameO.next ?_
  refine Frame.ite ?_ ?_
  · refine Frame.step State.slotEnds_frame ?_
    refine Frame.step State.at_frame ?_
    exact h0
  · exact h0

def Foot.shadowMismatch : Nat := 0x6144040E40000000000000000100000000000000000000000000000000000000000000000000000080000000000000000004000800000010
theorem State.shadowMismatch_frame {s : State} {x1 : Nat} {x2 : Nat} :
    Frame Foot.shadowMismatch s (State.shadowMismatch s x1 x2) := by
  have h0 := Frame.refl Foot.shadowMismatch s
  unfold State.shadowMismatch
  extract_lets a1 a2
  have h3 : Frame Foot.shadowMismatch s a2 := by
    refine Frame.step State.shadowFailed_frame ?_
    refine Frame.step State.setGrp_frame ?_
    exact h0
  clear_value a2
  refine Frame.step State.postCoreSwap_frame ?_
  refine Frame.step State.setCoreFail_frame ?_
  refine Frame.step State.setSp_frame ?_
  exact h3

def Foot.execSpareShadowEnd : Nat := 0x6144040E40000000000000000100000000000000000000000000000000000000000000000000000080000000000000000004000800000010
theorem execSpareShadowEnd_frame {s : State} {x0 : Fin 4} :
    FrameO Foot.execSpareShadowEnd s (execSpareShadowEnd x0 s) := by
  have h0 := Frame.refl Foot.execSpareShadowEnd s
  unfold execSpareShadowEnd
  refine FrameO.next ?_
  split
  · refine Frame.ite ?_ ?_
    · refine Frame.ite ?_ ?_
      · refine Frame.step State.setGrp_frame ?_
        exact h0
      · refine Frame.step State.shadowMismatch_frame ?_
        exact h0
    · exact h0
  · exact h0

def Foot.urgentGo : Nat := 0x40000000000000000000000000000000000000000000000000000000000000000000000000000000000000000000000000000000000
theorem State.urgentGo_frame {s : State} {x1 : Nat} :
    Frame Foot.urgentGo s (State.urgentGo s x1) := by
  have h0 := Frame.refl Foot.urgentGo s
  unfold State.urgentGo
  refine Frame.ite ?_ ?_
  · refine Frame.step State.setGrp_frame ?_
    exact h0
  · exact h0

def Foot.urgentAngle : Nat := 0x40000000000000000000000000000000000000000000000000000000000000000000000000000000000000000000000000000000000
theorem State.urgentAngle_frame {s : State} {x1 : Nat} :
    Frame Foot.urgentAngle s (State.urgentAngle s x1) := by
  have h0 := Frame.refl Foot.urgentAngle s
  unfold State.urgentAngle
  refine Frame.ite ?_ ?_
  · refine Frame.step State.setGrp_frame ?_
    exact h0
  · exact h0

def Foot.urgentDrop : Nat := 0x400000000000000000000000000000000000
theorem State.urgentDrop_frame {s : State} {x1 : Nat} :
    Frame Foot.urgentDrop s (State.urgentDrop s x1) := by
  have h0 := Frame.refl Foot.urgentDrop s
  unfold State.urgentDrop
  refine Frame.count ?_ (regNo_ACQ_GRPg_URGSTAT _)
  exact h0

def Foot.urgentStart : Nat := 0x40000000000000000000000000000000000000000000000000000000000000000000000400080000000000000000000000000000000
theorem State.urgentStart_frame {s : State} {x1 : Nat} {x2 : Bool} :
    Frame Foot.urgentStart s (State.urgentStart s x1 x2) := by
  have h0 := Frame.refl Foot.urgentStart s
  unfold State.urgentStart
  extract_lets a1 a2 a3
  have h4 : Frame Foot.urgentStart s a2 := by
    refine Frame.step State.setGrp_frame ?_
    exact h0
  clear_value a2
  refine Frame.ite ?_ ?_
  · refine Frame.step State.urgentDrop_frame ?_
    exact h4
  · refine Frame.step State.setGrp_frame ?_
    refine Frame.step State.setSp_frame ?_
    exact h4

def Foot.execUrgentRequest : Nat := 0x40000000000000000000000000000000000000000000000000000000000000000000000400080000000000000000000000000000000
theorem execUrgentRequest_frame {s : State} {x0 : Fin 4} {x1 : Bool} :
    FrameO Foot.execUrgentRequest s (execUrgentRequest x0 x1 s) := by
  have h0 := Frame.refl Foot.execUrgentRequest s
  unfold execUrgentRequest
  refine FrameO.next ?_
  refine Frame.ite ?_ ?_
  · refine Frame.step State.urgentStart_frame ?_
    exact h0
  · exact h0

def Foot.urgentResult : Nat := 0x7C0000000000000000000000000000000000
theorem State.urgentResult_frame {s : State} {x1 : Nat} {x2 : Nat} {x3 : Nat} {x4 : Nat} :
    Frame Foot.urgentResult s (State.urgentResult s x1 x2 x3 x4) := by
  have h0 := Frame.refl Foot.urgentResult s
  unfold State.urgentResult
  extract_lets a1 a2 a3 a4 a5
  have h6 : Frame Foot.urgentResult s a2 := by
    refine Frame.setReg ?_ (regNo_ACQ_GRPg_URGRES _)
    exact h0
  clear_value a2
  have h7 : Frame Foot.urgentResult s a3 := by
    refine Frame.setReg ?_ (regNo_ACQ_GRPg_URGVAL _)
    exact h6
  clear_value a3
  have h8 : Frame Foot.urgentResult s a4 := by
    refine Frame.setReg ?_ (regNo_ACQ_GRPg_URGTICK _)
    exact h7
  clear_value a4
  have h9 : Frame Foot.urgentResult s a5 := by
    refine Frame.setReg ?_ (regNo_ACQ_GRPg_URGOFS _)
    exact h8
  clear_value a5
  refine Frame.count ?_ (regNo_ACQ_GRPg_URGSTAT _)
  exact h9

def Foot.execUrgentConversionDone : Nat := 0x400008000000000000000000000000000000000000000000000000000000000000000007C0080000000000000000000000000000000
theorem execUrgentConversionDone_frame {s : State} {x0 : Fin 4} {x1 : Int} {x2 : Nat} {x3 : Nat} :
    FrameO Foot.execUrgentConversionDone s (execUrgentConversionDone x0 x1 x2 x3 s) := by
  have h0 := Frame.refl Foot.execUrgentConversionDone s
  unfold execUrgentConversionDone
  refine FrameO.next ?_
  split
  · extract_lets a1 a2
    have h3 : Frame Foot.execUrgentConversionDone s a1 := by
      refine Frame.step State.urgentResult_frame ?_
      refine Frame.step State.at_frame ?_
      exact h0
    clear_value a1
    refine Frame.step State.setGrp_frame ?_
    refine Frame.step State.setSp_frame ?_
    exact h3
  · exact h0

/-! ### Analog -/

def Foot.execComparatorCrossing : Nat := 0x42000800000000000000000000000000000000000000000000000000000000000000000000000000000000000000000000000000000
theorem execComparatorCrossing_frame {s : State} {x0 : Fin 12} {x1 : Int} {x2 : Nat} {x3 : Nat} :
    FrameO Foot.execComparatorCrossing s (execComparatorCrossing x0 x1 x2 x3 s) := by
  have h0 := Frame.refl Foot.execComparatorCrossing s
  unfold execComparatorCrossing
  extract_lets a1
  have h2 : Frame Foot.execComparatorCrossing s a1 := by
    refine Frame.step State.at_frame ?_
    exact h0
  clear_value a1
  refine FrameO.next ?_
  refine Frame.ite ?_ ?_
  · exact h2
  · refine Frame.step State.cmpMove_frame ?_
    exact h2

def Foot.setDsRun : Nat := 0x40000000000000000000000000000000000000000000000000000000000000000000000000000000000000000000000000000000000
theorem State.setDsRun_frame {s : State} {x1 : Nat} {x2 : DsRun} :
    Frame Foot.setDsRun s (State.setDsRun s x1 x2) := by
  have h0 := Frame.refl Foot.setDsRun s
  unfold State.setDsRun
  exact { h0 with acq := fun hb => absurd hb (by decide) }

def Foot.dsInWindow : Nat := 0x40000000000000000000000000000000000000000000000000000000000000000000000000000000000000000000000000000000000
theorem State.dsInWindow_frame {s : State} {x1 : Nat} {x2 : Nat} {x3 : DsWin → DsWin} :
    Frame Foot.dsInWindow s (State.dsInWindow s x1 x2 x3) := by
  have h0 := Frame.refl Foot.dsInWindow s
  unfold State.dsInWindow
  extract_lets a1 a2 a3
  refine Frame.ite ?_ ?_
  · exact { h0 with acq := fun hb => absurd hb (by decide) }
  · refine Frame.ite ?_ ?_
    · refine Frame.step State.setDsRun_frame ?_
      exact h0
    · refine Frame.step State.setDsRun_frame ?_
      exact h0

def Foot.dsError : Nat := 0x40000000000000000000000000000000000000000000000000000000000000000008000000000000000000000000000000000000000
theorem State.dsError_frame {s : State} {x1 : Nat} {x2 : Nat} :
    Frame Foot.dsError s (State.dsError s x1 x2) := by
  have h0 := Frame.refl Foot.dsError s
  unfold State.dsError
  refine Frame.count ?_ (regNo_ACQ_DSc_STAT _)
  refine Frame.step State.dsInWindow_frame ?_
  exact h0

def Foot.dsBit : Nat := 0x40000000000000000000000000000000000000000000000000000000000000000000000000000000000000000000000000000000000
theorem State.dsBit_frame {s : State} {x1 : Nat} {x2 : Nat} {x3 : Bool} :
    Frame Foot.dsBit s (State.dsBit s x1 x2 x3) := by
  have h0 := Frame.refl Foot.dsBit s
  unfold State.dsBit
  extract_lets a1
  have h2 : Frame Foot.dsBit s a1 := by
    refine Frame.step State.dsInWindow_frame ?_
    exact h0
  clear_value a1
  refine Frame.ite ?_ ?_
  · exact h2
  · refine Frame.step State.setDsRun_frame ?_
    exact h2

def Foot.setMid : Nat := 0x40000000000000000000000000000000000000000000000000000000000000000000000000000000000000000000000000000000000
theorem State.setMid_frame {s : State} {x1 : Nat} {x2 : Nat} :
    Frame Foot.setMid s (State.setMid s x1 x2) := by
  have h0 := Frame.refl Foot.setMid s
  unfold State.setMid
  refine Frame.step State.setDsRun_frame ?_
  exact h0

def Foot.manchester : Nat := 0x40000000000000000000000000000000000000000000000000000000000000000008000000000000000000000000000000000000000
theorem State.manchester_frame {s : State} {x1 : Nat} {x2 : Bool} {x3 : Nat} {x4 : Nat} :
    Frame Foot.manchester s (State.manchester s x1 x2 x3 x4) := by
  have h0 := Frame.refl Foot.manchester s
  unfold State.manchester
  split
  · refine Frame.step State.setMid_frame ?_
    exact h0
  · refine Frame.ite ?_ ?_
    · exact h0
    · refine Frame.ite ?_ ?_
      · refine Frame.step State.dsBit_frame ?_
        refine Frame.step State.setMid_frame ?_
        exact h0
      · refine Frame.step State.dsError_frame ?_
        refine Frame.step State.setMid_frame ?_
        exact h0

def Foot.execDsBitSampled : Nat := 0x40000800000000000000000000000000000000000000000000000000000000000008000000000000000000000000000000000000000
theorem execDsBitSampled_frame {s : State} {x0 : Fin 12} {x1 : Bool} {x2 : Nat} {x3 : Nat} :
    FrameO Foot.execDsBitSampled s (execDsBitSampled x0 x1 x2 x3 s) := by
  have h0 := Frame.refl Foot.execDsBitSampled s
  unfold execDsBitSampled
  refine FrameO.next ?_
  refine Frame.ite ?_ ?_
  · exact h0
  · refine Frame.ite ?_ ?_
    · refine Frame.step State.manchester_frame ?_
      refine Frame.step State.at_frame ?_
      exact h0
    · refine Frame.ite ?_ ?_
      · refine Frame.step State.dsBit_frame ?_
        refine Frame.step State.at_frame ?_
        exact h0
      · exact h0

def Foot.dsLimit : Nat := 0x610401AE400000000000000000000000000000000000000000000000000000010000000000000000000101781A0000000004000800000010
theorem State.dsLimit_frame {s : State} {x1 : Nat} {x2 : Rat} :
    Frame Foot.dsLimit s (State.dsLimit s x1 x2) := by
  have h0 := Frame.refl Foot.dsLimit s
  unfold State.dsLimit
  extract_lets a1 a2 a3 a4 a5
  refine Frame.ite ?_ ?_
  · refine Frame.ite ?_ ?_
    · refine Frame.step State.event_frame ?_
      exact h0
    · refine Frame.step State.f3_frame ?_
      exact h0
  · refine Frame.step State.endCause_frame ?_
    exact h0

def Foot.sincOutput : Nat := 0x610405AE400000000000000000000000000000000000000000000000000000010000000100000000000101781A0000000004000800000010
theorem State.sincOutput_frame {s : State} {x1 : Nat} :
    Frame Foot.sincOutput s (State.sincOutput s x1) := by
  have h0 := Frame.refl Foot.sincOutput s
  unfold State.sincOutput
  extract_lets a1 a2 a3
  have h4 : Frame Foot.sincOutput s a3 := by
    refine Frame.step State.setDsRun_frame ?_
    exact h0
  clear_value a3
  refine Frame.step State.dsLimit_frame ?_
  refine Frame.setReg ?_ (regNo_ACQ_DSc_SINC _)
  exact h4

def Foot.execDsSincOutput : Nat := 0x610405AE400000000000000000000000000000000000000000000000000000010000000100000000000101781A0000000004000800000010
theorem execDsSincOutput_frame {s : State} {x0 : Fin 12} :
    FrameO Foot.execDsSincOutput s (execDsSincOutput x0 s) := by
  have h0 := Frame.refl Foot.execDsSincOutput s
  unfold execDsSincOutput
  refine FrameO.next ?_
  refine Frame.ite ?_ ?_
  · refine Frame.step State.sincOutput_frame ?_
    exact h0
  · exact h0

def Foot.closeDsWindows : Nat := 0x40000000000000000000000000000000000000000000000000000000000000000000000000000000000000000000000000000000000
theorem State.closeDsWindows_frame {s : State} :
    Frame Foot.closeDsWindows s (State.closeDsWindows s) := by
  have h0 := Frame.refl Foot.closeDsWindows s
  unfold State.closeDsWindows
  refine Frame.foldl ?_ (fun u1 x2 h3 => ?_)
  · exact h0
  · extract_lets a4 a5
    have h6 : Frame Foot.closeDsWindows s a5 := by
      exact { h3 with acq := fun hb => absurd hb (by decide) }
    clear_value a5
    refine Frame.step State.setDsRun_frame ?_
    exact h6

def Foot.freezeDs : Nat := 0x4000000000000000000000000000000000000000
theorem State.freezeDs_frame {s : State} :
    Frame Foot.freezeDs s (State.freezeDs s) := by
  have h0 := Frame.refl Foot.freezeDs s
  unfold State.freezeDs
  refine Frame.foldl ?_ (fun u1 x2 h3 => ?_)
  · exact h0
  · refine Frame.setReg ?_ (regNo_ACQ_DSc_WIN _)
    exact h3

def Foot.dsInvalid : Nat := 0x6104040E40000000000000000000000000000000000000000000000000000000000000000000000000000000000000000004000800000010
theorem State.dsInvalid_frame {s : State} {x1 : Nat} {x2 : DsWin} :
    Frame Foot.dsInvalid s (State.dsInvalid s x1 x2) := by
  have h0 := Frame.refl Foot.dsInvalid s
  unfold State.dsInvalid
  extract_lets a1
  refine Frame.ite ?_ ?_
  · refine Frame.step State.event_frame ?_
    refine Frame.step State.setDsRun_frame ?_
    exact h0
  · exact h0

def Foot.publishDs : Nat := 0x6904040E40000000000000000000000000000000000000000000000000000000000000008000000000000000000000000004000800000010
theorem State.publishDs_frame {s : State} {x1 : Nat} :
    Frame Foot.publishDs s (State.publishDs s x1) := by
  have h0 := Frame.refl Foot.publishDs s
  unfold State.publishDs
  extract_lets a1 a2 a3 a4 a5 a6
  have h7 : Frame Foot.publishDs s a5 := by
    refine Frame.ite ?_ ?_
    · exact h0
    · refine Frame.step State.publish_frame ?_
      refine Frame.step State.publish_frame ?_
      refine Frame.step State.publish_frame ?_
      exact h0
  clear_value a5
  have h8 : Frame Foot.publishDs s a6 := by
    refine Frame.setFld ?_ (regNo_ACQ_DSc_STAT _)
    refine Frame.step State.publishFlag_frame ?_
    exact h7
  clear_value a6
  refine Frame.ite ?_ ?_
  · refine Frame.step State.dsInvalid_frame ?_
    exact h8
  · exact h8

def Foot.publishAllDs : Nat := 0x6904040E40000000000000000000000000000000000000000000000000000000000000008000000000000000000000000004000800000010
theorem State.publishAllDs_frame {s : State} :
    Frame Foot.publishAllDs s (State.publishAllDs s) := by
  have h0 := Frame.refl Foot.publishAllDs s
  unfold State.publishAllDs
  refine Frame.foldl ?_ (fun u1 x2 h3 => ?_)
  · exact h0
  · refine Frame.step State.publishDs_frame ?_
    exact h3

/-! ### Pos -/

def Foot.setCh : Nat := 0x80000000000000000000000000000000000000000000000000000000000000000000000000000000000000000000000000000000000
theorem State.setCh_frame {s : State} {x1 : Nat} {x2 : PosCh} :
    Frame Foot.setCh s (State.setCh s x1 x2) := by
  have h0 := Frame.refl Foot.setCh s
  unfold State.setCh
  exact { h0 with pos := fun hb => absurd hb (by decide) }

def Foot.setChState : Nat := 0x400000000000000000000000000000000000000000000
theorem State.setChState_frame {s : State} {x1 : Nat} {x2 : Nat} :
    Frame Foot.setChState s (State.setChState s x1 x2) := by
  have h0 := Frame.refl Foot.setChState s
  unfold State.setChState
  refine Frame.setFld ?_ (regNo_POS_CHc_STAT _)
  exact h0

def Foot.setChCause : Nat := 0x400000000000000000000000000000000000000000000
theorem State.setChCause_frame {s : State} {x1 : Nat} {x2 : Nat} :
    Frame Foot.setChCause s (State.setChCause s x1 x2) := by
  have h0 := Frame.refl Foot.setChCause s
  unfold State.setChCause
  refine Frame.setFld ?_ (regNo_POS_CHc_STAT _)
  exact h0

def Foot.quarantineCh : Nat := 0x6104080E40000000000000000000000000000000000000000000000000000000000400000000000000000000000000000004000800000010
theorem State.quarantineCh_frame {s : State} {x1 : Nat} {x2 : Nat} {x3 : Int} :
    Frame Foot.quarantineCh s (State.quarantineCh s x1 x2 x3) := by
  have h0 := Frame.refl Foot.quarantineCh s
  unfold State.quarantineCh
  extract_lets a1 a2
  have h3 : Frame Foot.quarantineCh s a2 := by
    refine Frame.step State.setCh_frame ?_
    refine Frame.step State.setChCause_frame ?_
    refine Frame.step State.setChState_frame ?_
    exact h0
  clear_value a2
  refine Frame.step State.event_frame ?_
  refine Frame.step State.f2Begins_frame ?_
  exact h3

def Foot.chCause : Nat := 0x6104080E40000000000000000000000000000000000000000000000000000000000400000000000000000000000000000004000800000010
theorem State.chCause_frame {s : State} {x1 : Nat} {x2 : Nat} :
    Frame Foot.chCause s (State.chCause s x1 x2) := by
  have h0 := Frame.refl Foot.chCause s
  unfold State.chCause
  refine Frame.ite ?_ ?_
  · exact h0
  · refine Frame.step State.quarantineCh_frame ?_
    exact h0

def Foot.coastCh : Nat := 0x6104080E40000000000000000000000000000000000000000000000000000000000400000000000000000000000000000004000800000010
theorem State.coastCh_frame {s : State} {x1 : Nat} {x2 : Nat} :
    Frame Foot.coastCh s (State.coastCh s x1 x2) := by
  have h0 := Frame.refl Foot.coastCh s
  unfold State.coastCh
  extract_lets a1 a2
  have h3 : Frame Foot.coastCh s a2 := by
    refine Frame.step State.setCh_frame ?_
    refine Frame.step State.setChCause_frame ?_
    refine Frame.step State.setChState_frame ?_
    exact h0
  clear_value a2
  refine Frame.step State.event_frame ?_
  exact h3

def Foot.signalLoss : Nat := 0x6104080E40000000000000000000000000000000000000000000000000000000000400000000000000000000000000000004000800000010
theorem State.signalLoss_frame {s : State} {x1 : Nat} {x2 : Nat} :
    Frame Foot.signalLoss s (State.signalLoss s x1 x2) := by
  have h0 := Frame.refl Foot.signalLoss s
  unfold State.signalLoss
  extract_lets a1 a2
  have h3 : Frame Foot.signalLoss s a2 := by
    refine Frame.step State.setCh_frame ?_
    exact h0
  clear_value a2
  refine Frame.ite ?_ ?_
  · refine Frame.step State.coastCh_frame ?_
    exact h3
  · refine Frame.ite ?_ ?_
    · refine Frame.step State.quarantineCh_frame ?_
      exact h3
    · exact h3

def Foot.moveCnt : Nat := 0x80000000000000000000000000000000000000000000000000000000000000200000000000000000000000000000000000000000000
theorem State.moveCnt_frame {s : State} {x1 : Nat} {x2 : Int} :
    Frame Foot.moveCnt s (State.moveCnt s x1 x2) := by
  have h0 := Frame.refl Foot.moveCnt s
  unfold State.moveCnt
  extract_lets a1 a2 a3 a4 a5 a6
  have h7 : Frame Foot.moveCnt s a4 := by
    refine Frame.setFld ?_ (regNo_POS_CHc_CNT _)
    exact h0
  clear_value a4
  have h8 : Frame Foot.moveCnt s a6 := by
    refine Frame.step State.setCh_frame ?_
    exact h7
  clear_value a6
  refine Frame.ite ?_ ?_
  · refine Frame.setFld ?_ (regNo_POS_CHc_CNT _)
    refine Frame.setFld ?_ (regNo_POS_CHc_CNT _)
    exact h8
  · exact h8

def Foot.followCnt : Nat := 0x80000000000000000000000000000000000000000000000000000000000000200000000000000000000000000000000000000000000
theorem State.followCnt_frame {s : State} {x1 : Nat} {x2 : Word} :
    Frame Foot.followCnt s (State.followCnt s x1 x2) := by
  have h0 := Frame.refl Foot.followCnt s
  unfold State.followCnt
  refine Frame.step State.moveCnt_frame ?_
  exact h0

def Foot.noteResid : Nat := 0x80000000000000000000000000000000000000000000000000000000000000000000000000000000000000000000000000000000000
theorem State.noteResid_frame {s : State} {x1 : Nat} {x2 : Rat} :
    Frame Foot.noteResid s (State.noteResid s x1 x2) := by
  have h0 := Frame.refl Foot.noteResid s
  unfold State.noteResid
  extract_lets a1 a2
  refine Frame.ite ?_ ?_
  · refine Frame.step State.setCh_frame ?_
    exact h0
  · exact h0

def Foot.updateObs : Nat := 0x80000000000000000000000000000000000000000000000000000000000000000000000000000000000000000000000000000000000
theorem State.updateObs_frame {s : State} {x1 : Nat} {x2 : Pred} {x3 : Word} {x4 : Nat} :
    Frame Foot.updateObs s (State.updateObs s x1 x2 x3 x4) := by
  have h0 := Frame.refl Foot.updateObs s
  unfold State.updateObs
  extract_lets a1 a2 a3 a4 a5 a6 a7 a8
  have h9 : Frame Foot.updateObs s a8 := by
    refine Frame.step State.setCh_frame ?_
    exact h0
  clear_value a8
  refine Frame.step State.noteResid_frame ?_
  exact h9

def Foot.firstInCheck : Nat := 0x6104080E40000000000000000000000000000000000000000000000000000000000000000000000000000000000000000004000800000010
theorem State.firstInCheck_frame {s : State} {x1 : Nat} {x2 : Word} {x3 : Nat} :
    Frame Foot.firstInCheck s (State.firstInCheck s x1 x2 x3) := by
  have h0 := Frame.refl Foot.firstInCheck s
  unfold State.firstInCheck
  extract_lets a1 a2 a3
  have h4 : Frame Foot.firstInCheck s a3 := by
    refine Frame.step State.setCh_frame ?_
    exact h0
  clear_value a3
  refine Frame.ite ?_ ?_
  · refine Frame.step State.event_frame ?_
    exact h4
  · exact h4

def Foot.secondInCheck : Nat := 0x80000000000000000000000000000000000000000000000000000000000000000000000000000000000000000000000000000000000
theorem State.secondInCheck_frame {s : State} {x1 : Nat} {x2 : Word} {x3 : Nat} :
    Frame Foot.secondInCheck s (State.secondInCheck s x1 x2 x3) := by
  have h0 := Frame.refl Foot.secondInCheck s
  unfold State.secondInCheck
  extract_lets a1 a2
  refine Frame.step State.setCh_frame ?_
  exact h0

def Foot.reacquire : Nat := 0x6104080E40000000000000000000000000000000000000000000000000000000000400000000000000000000000000000004000800000010
theorem State.reacquire_frame {s : State} {x1 : Nat} {x2 : Pred} {x3 : Word} {x4 : Nat} :
    Frame Foot.reacquire s (State.reacquire s x1 x2 x3 x4) := by
  have h0 := Frame.refl Foot.reacquire s
  unfold State.reacquire
  extract_lets a1 a2 a3 a4 a5
  have h6 : Frame Foot.reacquire s a4 := by
    refine Frame.step State.setCh_frame ?_
    refine Frame.step State.setChCause_frame ?_
    refine Frame.step State.setChState_frame ?_
    exact h0
  clear_value a4
  have h7 : Frame Foot.reacquire s a5 := by
    refine Frame.step State.event_frame ?_
    exact h6
  clear_value a5
  refine Frame.ite ?_ ?_
  · refine Frame.step State.updateObs_frame ?_
    exact h7
  · refine Frame.step State.quarantineCh_frame ?_
    exact h0

def Foot.countStale : Nat := 0x1000000000000000000000000000000000000000000000
theorem State.countStale_frame {s : State} {x1 : Nat} :
    Frame Foot.countStale s (State.countStale s x1) := by
  have h0 := Frame.refl Foot.countStale s
  unfold State.countStale
  refine Frame.count ?_ (regNo_POS_CHc_ZCNT _)
  exact h0

def Foot.measured : Nat := 0x6104080E40000000000000000000000000000000000000000000000000000000001400000000000000000000000000000004000800000010
theorem State.measured_frame {s : State} {x1 : Nat} {x2 : Pred} {x3 : Word} {x4 : Nat} :
    Frame Foot.measured s (State.measured s x1 x2 x3 x4) := by
  have h0 := Frame.refl Foot.measured s
  unfold State.measured
  refine Frame.ite ?_ ?_
  · refine Frame.step State.countStale_frame ?_
    exact h0
  · extract_lets a1 a2 a3
    have h4 : Frame Foot.measured s a2 := by
      refine Frame.step State.f2Ends_frame ?_
      refine Frame.step State.setCh_frame ?_
      exact h0
    clear_value a2
    refine Frame.ite ?_ ?_
    · exact h4
    · refine Frame.ite ?_ ?_
      · refine Frame.step State.firstInCheck_frame ?_
        exact h4
      · refine Frame.ite ?_ ?_
        · refine Frame.step State.secondInCheck_frame ?_
          exact h4
        · refine Frame.ite ?_ ?_
          · refine Frame.step State.reacquire_frame ?_
            exact h4
          · refine Frame.step State.updateObs_frame ?_
            exact h4

def Foot.measuredAbs : Nat := 0x6104080E40000000000000000000000000000000000000000000000000000000001600000000000000000000000000000004000800000010
theorem State.measuredAbs_frame {s : State} {x1 : Nat} {x2 : Word} {x3 : Nat} :
    Frame Foot.measuredAbs s (State.measuredAbs s x1 x2 x3) := by
  have h0 := Frame.refl Foot.measuredAbs s
  unfold State.measuredAbs
  refine Frame.ite ?_ ?_
  · refine Frame.step State.countStale_frame ?_
    exact h0
  · refine Frame.step State.measured_frame ?_
    refine Frame.step State.followCnt_frame ?_
    exact h0

def Foot.doubleStep : Nat := 0x6104080E40000000000000000000000000000000000000000000000000000000000C00000000000000000000000000000004000800000010
theorem State.doubleStep_frame {s : State} {x1 : Nat} :
    Frame Foot.doubleStep s (State.doubleStep s x1) := by
  have h0 := Frame.refl Foot.doubleStep s
  unfold State.doubleStep
  extract_lets a1 a2 a3
  have h4 : Frame Foot.doubleStep s a3 := by
    refine Frame.step State.setCh_frame ?_
    refine Frame.count ?_ (regNo_POS_CHc_ERR _)
    exact h0
  clear_value a3
  refine Frame.ite ?_ ?_
  · refine Frame.step State.chCause_frame ?_
    exact h4
  · exact h4

def Foot.glitch : Nat := 0x6104080E40000000000000000000000000000000000000000000000000000000000C00000000000000000000000000000004000800000010
theorem State.glitch_frame {s : State} {x1 : Nat} :
    Frame Foot.glitch s (State.glitch s x1) := by
  have h0 := Frame.refl Foot.glitch s
  unfold State.glitch
  extract_lets a1 a2 a3
  have h4 : Frame Foot.glitch s a3 := by
    refine Frame.step State.setCh_frame ?_
    refine Frame.count ?_ (regNo_POS_CHc_ERR _)
    exact h0
  clear_value a3
  refine Frame.ite ?_ ?_
  · refine Frame.step State.chCause_frame ?_
    exact h4
  · exact h4

def Foot.checkRate : Nat := 0x6104080E40000000000000000000000000000000000000000000000000000000000400000000000000000000000000000004000800000010
theorem State.checkRate_frame {s : State} {x1 : Nat} :
    Frame Foot.checkRate s (State.checkRate s x1) := by
  have h0 := Frame.refl Foot.checkRate s
  unfold State.checkRate
  extract_lets a1 a2 a3 a4
  have h5 : Frame Foot.checkRate s a3 := by
    refine Frame.step State.setCh_frame ?_
    exact h0
  clear_value a3
  refine Frame.ite ?_ ?_
  · refine Frame.step State.chCause_frame ?_
    refine Frame.step State.setCh_frame ?_
    exact h5
  · exact h5

def Foot.indexError : Nat := 0x6104080E40000000000000000000000000000000000000000000000000000000000C00000000000000000000000000000004000800000010
theorem State.indexError_frame {s : State} {x1 : Nat} {x2 : Int} :
    Frame Foot.indexError s (State.indexError s x1 x2) := by
  have h0 := Frame.refl Foot.indexError s
  unfold State.indexError
  extract_lets a1 a2 a3 a4
  have h5 : Frame Foot.indexError s a3 := by
    refine Frame.step State.setCh_frame ?_
    refine Frame.count ?_ (regNo_POS_CHc_ERR _)
    exact h0
  clear_value a3
  have h6 : Frame Foot.indexError s a4 := by
    refine Frame.step State.event_frame ?_
    exact h5
  clear_value a4
  refine Frame.ite ?_ ?_
  · refine Frame.step State.chCause_frame ?_
    exact h6
  · exact h6

def Foot.index : Nat := 0x6104080E40000000000000000000000000000000000000000000000000000000001C00000000000000000000000000000004000800000010
theorem State.index_frame {s : State} {x1 : Nat} :
    Frame Foot.index s (State.index s x1) := by
  have h0 := Frame.refl Foot.index s
  unfold State.index
  extract_lets a1 a2 a3 a4 a5 a6
  have h7 : Frame Foot.index s a3 := by
    refine Frame.setFld ?_ (regNo_POS_CHc_STAT _)
    refine Frame.setFld ?_ (regNo_POS_CHc_ZCNT _)
    exact h0
  clear_value a3
  have h8 : Frame Foot.index s a5 := by
    refine Frame.step State.setCh_frame ?_
    exact h7
  clear_value a5
  split
  · exact h8
  · extract_lets a9
    refine Frame.ite ?_ ?_
    · refine Frame.step State.indexError_frame ?_
      exact h8
    · refine Frame.step State.setCh_frame ?_
      exact h8

def Foot.missingIndex : Nat := 0x6104080E40000000000000000000000000000000000000000000000000000000000C00000000000000000000000000000004000800000010
theorem State.missingIndex_frame {s : State} {x1 : Nat} :
    Frame Foot.missingIndex s (State.missingIndex s x1) := by
  have h0 := Frame.refl Foot.missingIndex s
  unfold State.missingIndex
  split
  · exact h0
  · extract_lets a1 a2
    refine Frame.ite ?_ ?_
    · refine Frame.step State.indexError_frame ?_
      refine Frame.step State.setCh_frame ?_
      exact h0
    · exact h0

def Foot.latchCh : Nat := 0x6104080E40000000000000000000000000000000000000000000000000000000000400000000000000000000000000000004000800000010
theorem State.latchCh_frame {s : State} {x1 : Nat} :
    Frame Foot.latchCh s (State.latchCh s x1) := by
  have h0 := Frame.refl Foot.latchCh s
  unfold State.latchCh
  extract_lets a1 a2 a3 a4
  have h5 : Frame Foot.latchCh s a1 := by
    refine Frame.step State.checkRate_frame ?_
    exact h0
  clear_value a1
  refine Frame.step State.setCh_frame ?_
  exact h5

def Foot.latchPos : Nat := 0x6104080E40000000000000000000000000000000000000000000000000000000000400000000000000000000000000000004000800000010
theorem State.latchPos_frame {s : State} :
    Frame Foot.latchPos s (State.latchPos s) := by
  have h0 := Frame.refl Foot.latchPos s
  unfold State.latchPos
  refine Frame.step State.latchCh_frame ?_
  refine Frame.step State.latchCh_frame ?_
  exact h0

def Foot.publishDir : Nat := 0x6904000E40000000000000000000000000000000000000000000000000000000000000000000000000000000000000000004000800000010
theorem State.publishDir_frame {s : State} {x1 : Nat} {x2 : Rat} :
    Frame Foot.publishDir s (State.publishDir s x1 x2) := by
  have h0 := Frame.refl Foot.publishDir s
  unfold State.publishDir
  extract_lets a1 a2 a3 a4
  have h5 : Frame Foot.publishDir s a4 := by
    refine Frame.step State.publish_frame ?_
    exact h0
  clear_value a4
  refine Frame.ite ?_ ?_
  · exact h5
  · refine Frame.step State.event_frame ?_
    exact h5

def Foot.publishCh : Nat := 0x6904000E40000000000000000000000000000000000000000000000000000000000000000000000000000000000000000004000800000010
theorem State.publishCh_frame {s : State} {x1 : Nat} :
    Frame Foot.publishCh s (State.publishCh s x1) := by
  have h0 := Frame.refl Foot.publishCh s
  unfold State.publishCh
  extract_lets a1 a2 a3 a4 a5 a6 a7 a8 a9 a10 a11
  have h12 : Frame Foot.publishCh s a7 := by
    refine Frame.step State.publishReal_frame ?_
    refine Frame.step State.publishReal_frame ?_
    refine Frame.step State.publish_frame ?_
    exact h0
  clear_value a7
  have h13 : Frame Foot.publishCh s a8 := by
    refine Frame.step State.publishDir_frame ?_
    exact h12
  clear_value a8
  have h14 : Frame Foot.publishCh s a9 := by
    refine Frame.step State.publishFlag_frame ?_
    refine Frame.step State.publishFlag_frame ?_
    exact h13
  clear_value a9
  have h15 : Frame Foot.publishCh s a10 := by
    refine Frame.step State.publish_frame ?_
    refine Frame.step State.publish_frame ?_
    refine Frame.step State.publish_frame ?_
    exact h14
  clear_value a10
  have h16 : Frame Foot.publishCh s a11 := by
    refine Frame.step State.publish_frame ?_
    refine Frame.step State.publish_frame ?_
    refine Frame.step State.publish_frame ?_
    exact h15
  clear_value a11
  refine Frame.step State.publish_frame ?_
  exact h16

def Foot.publishPos : Nat := 0x6904000E40000000000000000000000000000000000000000000000000000000000000000000000000000000000000000004000800000010
theorem State.publishPos_frame {s : State} :
    Frame Foot.publishPos s (State.publishPos s) := by
  have h0 := Frame.refl Foot.publishPos s
  unfold State.publishPos
  refine Frame.step State.publishCh_frame ?_
  refine Frame.step State.publishCh_frame ?_
  exact h0

def Foot.checkTick : Nat := 0x80000000000000000000000000000000000000000000000000000000000000400000000000000000000000000000000000000000000
theorem State.checkTick_frame {s : State} {x1 : Nat} :
    Frame Foot.checkTick s (State.checkTick s x1) := by
  have h0 := Frame.refl Foot.checkTick s
  unfold State.checkTick
  extract_lets a1 a2 a3 a4
  refine Frame.ite ?_ ?_
  · exact h0
  · refine Frame.ite ?_ ?_
    · refine Frame.step State.setCh_frame ?_
      refine Frame.step State.setChCause_frame ?_
      refine Frame.step State.setChState_frame ?_
      exact h0
    · refine Frame.step State.setCh_frame ?_
      exact h0

def Foot.enterCheck : Nat := 0x80400000000000000000000000000000000000000000000000000000000000400000000000000000000000000000000000000000000
theorem State.enterCheck_frame {s : State} {x1 : Nat} {x2 : Bool} :
    Frame Foot.enterCheck s (State.enterCheck s x1 x2) := by
  have h0 := Frame.refl Foot.enterCheck s
  unfold State.enterCheck
  extract_lets a1
  have h2 : Frame Foot.enterCheck s a1 := by
    refine Frame.step State.f2Ends_frame ?_
    refine Frame.step State.setChCause_frame ?_
    refine Frame.step State.setChState_frame ?_
    exact h0
  clear_value a1
  refine Frame.step State.setCh_frame ?_
  exact h2

def Foot.modeWritten : Nat := 0x80400000000000000000000000000000000000000000000000000000000000400000000000000000000000000000000000000000000
theorem State.modeWritten_frame {s : State} {x1 : Nat} {x2 : Nat} :
    Frame Foot.modeWritten s (State.modeWritten s x1 x2) := by
  have h0 := Frame.refl Foot.modeWritten s
  unfold State.modeWritten
  extract_lets a1 a2
  refine Frame.ite ?_ ?_
  · refine Frame.step State.setCh_frame ?_
    refine Frame.step State.setChState_frame ?_
    exact h0
  · refine Frame.ite ?_ ?_
    · exact h0
    · refine Frame.ite ?_ ?_
      · refine Frame.step State.enterCheck_frame ?_
        refine Frame.step State.setCh_frame ?_
        exact h0
      · refine Frame.step State.setCh_frame ?_
        exact h0

def Foot.channelReadmit : Nat := Foot.enterCheck ||| blockMask 8

theorem chRegs_unit (c : Nat) : ∀ a ∈ chRegs c, unitOf a = 8 := by
  intro a ha
  have := Nat.mod_lt c (show 0 < 2 by decide)
  unfold chRegs at ha
  simp only [List.mem_cons, List.not_mem_nil, or_false, Reg.POS_CHc_CFG, Reg.POS_CHc_OFFSET, Reg.POS_CHc_OBS, Reg.POS_CHc_FILT, Reg.POS_CHc_ABZ, Reg.POS_CHc_RES, Reg.POS_CHc_SENT, Reg.POS_CHc_SSI, Reg.POS_CHc_SSI2] at ha
  unfold unitOf blockBase
  omega

theorem State.channelReadmit_frame {s : State} {c : Nat} : FrameV Foot.channelReadmit s (s.channelReadmit c) := by
  unfold State.channelReadmit
  refine FrameV.ite (FrameV.done (Frame.refl _ s)) (FrameV.ite (FrameV.done ?_) FrameV.no)
  exact Frame.step State.enterCheck_frame (Frame.foldlOn (Frame.refl _ s)
    (fun t a ha h => h.loadReg (AddrOk.other (chRegs_unit c a ha))))

/-! ### PosIn -/

def Foot.outOfWindow : Nat := 0x6104080E40000000000000000000000000000000000000000000000000000000000400000000000000000000000000000004000800000010
theorem State.outOfWindow_frame {s : State} {x1 : Nat} :
    Frame Foot.outOfWindow s (State.outOfWindow s x1) := by
  have h0 := Frame.refl Foot.outOfWindow s
  unfold State.outOfWindow
  extract_lets a1 a2 a3
  have h4 : Frame Foot.outOfWindow s a3 := by
    refine Frame.step State.setCh_frame ?_
    exact h0
  clear_value a3
  refine Frame.ite ?_ ?_
  · refine Frame.step State.signalLoss_frame ?_
    exact h4
  · exact h4

def Foot.pairInWindow : Nat := 0x6104080E40000000000000000000000000000000000000000000000000000000001600000000000000000000000000000004000800000010
theorem State.pairInWindow_frame {s : State} {x1 : Nat} {x2 : Word} {x3 : Nat} :
    Frame Foot.pairInWindow s (State.pairInWindow s x1 x2 x3) := by
  have h0 := Frame.refl Foot.pairInWindow s
  unfold State.pairInWindow
  extract_lets a1 a2 a3
  have h4 : Frame Foot.pairInWindow s a3 := by
    refine Frame.step State.setCh_frame ?_
    exact h0
  clear_value a3
  refine Frame.ite ?_ ?_
  · exact h4
  · refine Frame.step State.measuredAbs_frame ?_
    exact h4

def Foot.pair' : Nat := 0x6104080E40000000000000000000000000000000000000000000000000000000001600000000000000000000000000000004000800000010
theorem State.pair'_frame {s : State} {x1 : Nat} {x2 : Int} {x3 : Int} {x4 : Option Word} {x5 : Nat} :
    Frame Foot.pair' s (State.pair' s x1 x2 x3 x4 x5) := by
  have h0 := Frame.refl Foot.pair' s
  unfold State.pair'
  extract_lets a1 a2 a3
  have h4 : Frame Foot.pair' s a2 := by
    refine Frame.step State.setCh_frame ?_
    exact h0
  clear_value a2
  refine Frame.ite ?_ ?_
  · split
    · refine Frame.step State.pairInWindow_frame ?_
      exact h4
    · refine Frame.step State.setCh_frame ?_
      exact h4
  · refine Frame.step State.outOfWindow_frame ?_
    exact h4

def Foot.excLimit : Nat := 0x400000000000000000000000000000000000000000000
theorem State.excLimit_frame {s : State} {x1 : Nat} {x2 : Nat} :
    Frame Foot.excLimit s (State.excLimit s x1 x2) := by
  have h0 := Frame.refl Foot.excLimit s
  unfold State.excLimit
  refine Frame.setFld ?_ (regNo_POS_CHc_STAT _)
  exact h0

def Foot.execResolverPair : Nat := 0x6104080E40800000000000000000000000000000000000000000000000000000001600000000000000000000000000000004000800000010
theorem execResolverPair_frame {s : State} {x0 : Fin 2} {x1 : Int} {x2 : Int} {x3 : Nat} {x4 : Nat} :
    FrameO Foot.execResolverPair s (execResolverPair x0 x1 x2 x3 x4 s) := by
  have h0 := Frame.refl Foot.execResolverPair s
  unfold execResolverPair
  refine FrameO.next ?_
  refine Frame.ite ?_ ?_
  · extract_lets a1
    refine Frame.step State.pair'_frame ?_
    refine Frame.step State.excLimit_frame ?_
    refine Frame.step State.at_frame ?_
    exact h0
  · exact h0

def Foot.quadrantTo : Nat := 0x6104080E40000000000000000000000000000000000000000000000000000000000C00000000000000000000000000000004000800000010
theorem State.quadrantTo_frame {s : State} {x1 : Nat} {x2 : Nat} :
    FrameL Foot.quadrantTo s (State.quadrantTo s x1 x2) := by
  have h0 := Frame.refl Foot.quadrantTo s
  unfold State.quadrantTo
  extract_lets a1
  split
  · refine FrameL.mk ?_
    refine Frame.step State.setCh_frame ?_
    exact h0
  · extract_lets a2 a3
    refine FrameL.ite ?_ ?_
    · refine FrameL.mk ?_
      refine Frame.step State.doubleStep_frame ?_
      refine Frame.step State.setCh_frame ?_
      exact h0
    · refine FrameL.mk ?_
      refine Frame.step State.setCh_frame ?_
      exact h0

def Foot.execSincosPair : Nat := 0x6104080E40800000000000000000000000000000000000000000000000000000001E00000000000000000000000000000004000800000010
theorem execSincosPair_frame {s : State} {x0 : Fin 2} {x1 : Int} {x2 : Int} {x3 : Nat} :
    FrameO Foot.execSincosPair s (execSincosPair x0 x1 x2 x3 s) := by
  have h0 := Frame.refl Foot.execSincosPair s
  unfold execSincosPair
  refine FrameO.next ?_
  refine Frame.ite ?_ ?_
  · extract_lets a1
    split
    rename_i x2 x3 x4 x5
    refine Frame.cutL (K := Foot.execSincosPair) (s := s) x5 ?_ (fun h6 => ?_)
    · refine FrameL.step State.quadrantTo_frame ?_
      refine Frame.step State.at_frame ?_
      exact h0
    · refine Frame.step State.pair'_frame ?_
      exact h6
  · exact h0

def Foot.stepCnt : Nat := 0x80000000000000000000000000000000000000000000000000000000000000200000000000000000000000000000000000000000000
theorem State.stepCnt_frame {s : State} {x1 : Nat} {x2 : Int} {x3 : Nat} :
    Frame Foot.stepCnt s (State.stepCnt s x1 x2 x3) := by
  have h0 := Frame.refl Foot.stepCnt s
  unfold State.stepCnt
  extract_lets a1 a2
  have h3 : Frame Foot.stepCnt s a1 := by
    refine Frame.step State.moveCnt_frame ?_
    exact h0
  clear_value a1
  refine Frame.step State.setCh_frame ?_
  exact h3

def Foot.abzEdge : Nat := 0x6104080E40000000000000000000000000000000000000000000000000000000001E00000000000000000000000000000004000800000010
theorem State.abzEdge_frame {s : State} {x1 : Nat} {x2 : Pred} {x3 : Nat} {x4 : Nat} {x5 : Nat} :
    Frame Foot.abzEdge s (State.abzEdge s x1 x2 x3 x4 x5) := by
  have h0 := Frame.refl Foot.abzEdge s
  unfold State.abzEdge
  extract_lets a1
  have h2 : Frame Foot.abzEdge s a1 := by
    dsimp -zeta only [a1]
    split
    · refine Frame.step State.doubleStep_frame ?_
      exact h0
    · refine Frame.ite ?_ ?_
      · exact h0
      · extract_lets a3
        have h4 : Frame Foot.abzEdge s a3 := by
          refine Frame.step State.missingIndex_frame ?_
          refine Frame.step State.stepCnt_frame ?_
          exact h0
        clear_value a3
        refine Frame.step State.measured_frame ?_
        exact h4
  clear_value a1
  refine Frame.ite ?_ ?_
  · refine Frame.step State.index_frame ?_
    exact h2
  · exact h2

def Foot.hallEdge : Nat := 0x6104080E40000000000000000000000000000000000000000000000000000000001E00000000000000000000000000000004000800000010
theorem State.hallEdge_frame {s : State} {x1 : Nat} {x2 : Pred} {x3 : Nat} {x4 : Nat} {x5 : Nat} :
    Frame Foot.hallEdge s (State.hallEdge s x1 x2 x3 x4 x5) := by
  have h0 := Frame.refl Foot.hallEdge s
  unfold State.hallEdge
  extract_lets a1 a2
  refine Frame.ite ?_ ?_
  · refine Frame.step State.signalLoss_frame ?_
    exact h0
  · split
    · refine Frame.step State.doubleStep_frame ?_
      exact h0
    · refine Frame.ite ?_ ?_
      · exact h0
      · extract_lets a3
        have h4 : Frame Foot.hallEdge s a3 := by
          refine Frame.step State.stepCnt_frame ?_
          exact h0
        clear_value a3
        refine Frame.step State.measured_frame ?_
        exact h4

def Foot.execPosEdgeAccepted : Nat := 0x6104080E40800000000000000000000000000000000000000000000000000000001E00000000000000000000000000000004000800000010
theorem execPosEdgeAccepted_frame {s : State} {x0 : Fin 2} {x1 : Fin 8} {x2 : Nat} {x3 : Nat} :
    FrameO Foot.execPosEdgeAccepted s (execPosEdgeAccepted x0 x1 x2 x3 s) := by
  have h0 := Frame.refl Foot.execPosEdgeAccepted s
  unfold execPosEdgeAccepted
  refine FrameO.next ?_
  refine Frame.ite ?_ ?_
  · exact h0
  · extract_lets a1 a2 a3 a4
    have h5 : Frame Foot.execPosEdgeAccepted s a4 := by
      refine Frame.step State.setCh_frame ?_
      refine Frame.step State.at_frame ?_
      exact h0
    clear_value a4
    refine Frame.ite ?_ ?_
    · refine Frame.step State.abzEdge_frame ?_
      exact h5
    · refine Frame.ite ?_ ?_
      · refine Frame.step State.hallEdge_frame ?_
        exact h5
      · exact h5

def Foot.execPosGlitch : Nat := 0x6104080E40000000000000000000000000000000000000000000000000000000000C00000000000000000000000000000004000800000010
theorem execPosGlitch_frame {s : State} {x0 : Fin 2} {x1 : Nat} :
    FrameO Foot.execPosGlitch s (execPosGlitch x0 x1 s) := by
  have h0 := Frame.refl Foot.execPosGlitch s
  unfold execPosGlitch
  refine FrameO.next ?_
  refine Frame.ite ?_ ?_
  · refine Frame.step State.glitch_frame ?_
    exact h0
  · exact h0

def Foot.frameBad : Nat := 0x800000000000000000000000000000000000000000000
theorem State.frameBad_frame {s : State} {x1 : Nat} :
    Frame Foot.frameBad s (State.frameBad s x1) := by
  have h0 := Frame.refl Foot.frameBad s
  unfold State.frameBad
  refine Frame.count ?_ (regNo_POS_CHc_ERR _)
  exact h0

def Foot.frameGood : Nat := 0x6104080E40000000000000000000000000000000000000000000000000000000001600000000000000000000000000000004000800000010
theorem State.frameGood_frame {s : State} {x1 : Nat} {x2 : Word} {x3 : Nat} :
    Frame Foot.frameGood s (State.frameGood s x1 x2 x3) := by
  have h0 := Frame.refl Foot.frameGood s
  unfold State.frameGood
  refine Frame.step State.measuredAbs_frame ?_
  refine Frame.step State.setCh_frame ?_
  exact h0

def Foot.slowFrame : Nat := 0x80000000000000000000000000000000000000000000000000000000000002000000000000000000000000000000000000000000000
theorem State.slowFrame_frame {s : State} {x1 : Nat} {x2 : Nat} :
    Frame Foot.slowFrame s (State.slowFrame s x1 x2) := by
  have h0 := Frame.refl Foot.slowFrame s
  unfold State.slowFrame
  extract_lets a1 a2
  split
  · refine Frame.setReg ?_ (regNo_POS_CHc_SLOW _)
    refine Frame.step State.setCh_frame ?_
    exact h0
  · refine Frame.step State.setCh_frame ?_
    exact h0

def Foot.sentFrame : Nat := 0x6104080E40000000000000000000000000000000000000000000000000000000003E00000000000000000000000000000004000800000010
theorem State.sentFrame_frame {s : State} {x1 : Nat} {x2 : Nat} {x3 : Nat} {x4 : List Nat} {x5 : Nat} {x6 : Bool} {x7 : Nat} :
    Frame Foot.sentFrame s (State.sentFrame s x1 x2 x3 x4 x5 x6 x7) := by
  have h0 := Frame.refl Foot.sentFrame s
  unfold State.sentFrame
  extract_lets a1 a2 a3 a4 a5 a6 a7
  have h8 : Frame Foot.sentFrame s a6 := by
    refine Frame.step State.setCh_frame ?_
    exact h0
  clear_value a6
  refine Frame.ite ?_ ?_
  · refine Frame.step State.frameGood_frame ?_
    refine Frame.step State.slowFrame_frame ?_
    exact h8
  · refine Frame.step State.frameBad_frame ?_
    refine Frame.step State.setCh_frame ?_
    exact h8

def Foot.execSentFrame : Nat := 0x6104080E40800000000000000000000000000000000000000000000000000000003E00000000000000000000000000000004000800000010
theorem execSentFrame_frame {s : State} {x0 : Fin 2} {x1 : Nat} {x2 : Nat} {x3 : List Nat} {x4 : Nat} {x5 : Bool} {x6 : Nat} {x7 : Nat} :
    FrameO Foot.execSentFrame s (execSentFrame x0 x1 x2 x3 x4 x5 x6 x7 s) := by
  have h0 := Frame.refl Foot.execSentFrame s
  unfold execSentFrame
  refine FrameO.next ?_
  refine Frame.ite ?_ ?_
  · refine Frame.step State.sentFrame_frame ?_
    refine Frame.step State.at_frame ?_
    exact h0
  · exact h0

def Foot.execSsiFrameStart : Nat := 0x80000800000000000000000000000000000000000000000000000000000000000000000000000000000000000000000000000000000
theorem execSsiFrameStart_frame {s : State} {x0 : Fin 2} {x1 : Nat} :
    FrameO Foot.execSsiFrameStart s (execSsiFrameStart x0 x1 s) := by
  have h0 := Frame.refl Foot.execSsiFrameStart s
  unfold execSsiFrameStart
  refine FrameO.next ?_
  refine Frame.ite ?_ ?_
  · extract_lets a1 a2
    refine Frame.step State.setCh_frame ?_
    refine Frame.step State.at_frame ?_
    exact h0
  · exact h0

def Foot.execSsiFrame : Nat := 0x6104080E40800000000000000000000000000000000000000000000000000000001E00000000000000000000000000000004000800000010
theorem execSsiFrame_frame {s : State} {x0 : Fin 2} {x1 : Nat} {x2 : Nat} :
    FrameO Foot.execSsiFrame s (execSsiFrame x0 x1 x2 s) := by
  have h0 := Frame.refl Foot.execSsiFrame s
  unfold execSsiFrame
  refine FrameO.next ?_
  split
  · exact h0
  · refine Frame.ite ?_ ?_
    · extract_lets a1 a2
      have h3 : Frame Foot.execSsiFrame s a2 := by
        refine Frame.step State.setCh_frame ?_
        refine Frame.step State.at_frame ?_
        exact h0
      clear_value a2
      refine Frame.ite ?_ ?_
      · refine Frame.step State.frameBad_frame ?_
        exact h3
      · refine Frame.step State.frameGood_frame ?_
        exact h3
    · exact h0

def Foot.execFrameTimeout : Nat := 0x6104080E40800000000000000000000000000000000000000000000000000000000400000000000000000000000000000004000800000010
theorem execFrameTimeout_frame {s : State} {x0 : Fin 2} {x1 : Nat} :
    FrameO Foot.execFrameTimeout s (execFrameTimeout x0 x1 s) := by
  have h0 := Frame.refl Foot.execFrameTimeout s
  unfold execFrameTimeout
  refine FrameO.next ?_
  refine Frame.ite ?_ ?_
  · refine Frame.step State.signalLoss_frame ?_
    refine Frame.step State.at_frame ?_
    exact h0
  · exact h0

def Foot.execCoastExpired : Nat := 0x6104080E40800000000000000000000000000000000000000000000000000000000400000000000000000000000000000004000800000010
theorem execCoastExpired_frame {s : State} {x0 : Fin 2} {x1 : Nat} :
    FrameO Foot.execCoastExpired s (execCoastExpired x0 x1 s) := by
  have h0 := Frame.refl Foot.execCoastExpired s
  unfold execCoastExpired
  extract_lets a1
  refine FrameO.next ?_
  refine Frame.ite ?_ ?_
  · refine Frame.step State.quarantineCh_frame ?_
    refine Frame.step State.at_frame ?_
    exact h0
  · exact h0

def Foot.execExcFault : Nat := 0x6104080E40000000000000000000000000000000000000000000000000000000000400000000000000000000000000000004000800000010
theorem execExcFault_frame {s : State} {x0 : Fin 2} {x1 : Bool} :
    FrameO Foot.execExcFault s (execExcFault x0 x1 s) := by
  have h0 := Frame.refl Foot.execExcFault s
  unfold execExcFault
  refine FrameO.next ?_
  refine Frame.ite ?_ ?_
  · refine Frame.step State.signalLoss_frame ?_
    refine Frame.step State.event_frame ?_
    refine Frame.step State.f2Begins_frame ?_
    exact h0
  · exact h0

def Foot.supplyWritten : Nat := 0x80400000000000000000000000000000000000000000000000000000000000000800000000000000000000000000000000000000000
theorem State.supplyWritten_frame {s : State} {x1 : Nat} {x2 : Nat} :
    Frame Foot.supplyWritten s (State.supplyWritten s x1 x2) := by
  have h0 := Frame.refl Foot.supplyWritten s
  unfold State.supplyWritten
  extract_lets a1 a2 a3
  have h4 : Frame Foot.supplyWritten s a2 := by
    refine Frame.step State.f2Ends_frame ?_
    refine Frame.setFld ?_ (regNo_POS_SENSVn_CFG _)
    exact h0
  clear_value a2
  refine Frame.ite ?_ ?_
  · exact { h4 with pos := fun hb => absurd hb (by decide) }
  · exact h0

def Foot.supplyFault : Nat := 0x6104080E40000000000000000000000000000000000000000000000000000000000400800000000000000000000000000004000800000010
theorem State.supplyFault_frame {s : State} {x1 : Nat} {x2 : Bool} :
    Frame Foot.supplyFault s (State.supplyFault s x1 x2) := by
  have h0 := Frame.refl Foot.supplyFault s
  unfold State.supplyFault
  extract_lets a1 a2
  have h3 : Frame Foot.supplyFault s a1 := by
    refine Frame.step State.f2Begins_frame ?_
    refine Frame.setFld ?_ (regNo_POS_SENSVn_CFG _)
    exact h0
  clear_value a1
  have h4 : Frame Foot.supplyFault s a2 := by
    refine Frame.step State.event_frame ?_
    exact h3
  clear_value a2
  refine Frame.foldl ?_ (fun u5 x6 h7 => ?_)
  · exact h4
  · refine Frame.ite ?_ ?_
    · refine Frame.step State.signalLoss_frame ?_
      exact h7
    · exact h7

def Foot.execSensvFault : Nat := 0x6104080E40800000000000000000000000000000000000000000000000000000000400800000000000000000000000000004000800000010
theorem execSensvFault_frame {s : State} {x0 : Fin 2} {x1 : Bool} {x2 : Nat} :
    FrameO Foot.execSensvFault s (execSensvFault x0 x1 x2 s) := by
  have h0 := Frame.refl Foot.execSensvFault s
  unfold execSensvFault
  extract_lets a1
  refine FrameO.next ?_
  refine Frame.ite ?_ ?_
  · refine Frame.step State.supplyFault_frame ?_
    refine Frame.step State.at_frame ?_
    exact h0
  · exact h0

def Foot.publishDev : Nat := 0x800000000000000000000000000000000000000000000000000000000000000000000000000000000000000000000000000000000000000
theorem State.publishDev_frame {s : State} {x1 : Nat} :
    Frame Foot.publishDev s (State.publishDev s x1) := by
  have h0 := Frame.refl Foot.publishDev s
  unfold State.publishDev
  extract_lets a1
  refine Frame.step State.publish_frame ?_
  exact h0

def Foot.angleCause : Nat := 0x610401AE400000000000000000000000000000000000000000000000000000010000000000000000000101781A0000000004000800000010
theorem State.angleCause_frame {s : State} {x1 : Nat} {x2 : Nat} {x3 : Nat} {x4 : Bool} :
    Frame Foot.angleCause s (State.angleCause s x1 x2 x3 x4) := by
  have h0 := Frame.refl Foot.angleCause s
  unfold State.angleCause
  extract_lets a1
  refine Frame.ite ?_ ?_
  · refine Frame.ite ?_ ?_
    · exact h0
    · refine Frame.step State.f3_frame ?_
      exact h0
  · refine Frame.step State.endCause_frame ?_
    exact h0

def Foot.outvote : Nat := 0x6104080E40000000000000000000000000000000000000000000000000000000000400000000000000000000000000000004000800000010
theorem State.outvote_frame {s : State} {x1 : Nat} {x2 : Bool} :
    Frame Foot.outvote s (State.outvote s x1 x2) := by
  have h0 := Frame.refl Foot.outvote s
  unfold State.outvote
  extract_lets a1 a2 a3 a4
  have h5 : Frame Foot.outvote s a4 := by
    refine Frame.step State.setCh_frame ?_
    refine Frame.setFld ?_ (regNo_POS_CHc_STAT _)
    exact h0
  clear_value a4
  refine Frame.ite ?_ ?_
  · refine Frame.step State.chCause_frame ?_
    exact h5
  · exact h5

def Foot.outvoteS : Nat := 0x6104080E40000000000000000000000000000000000000000000000000000000000000000000000000000000000000000004000800000010
theorem State.outvoteS_frame {s : State} {x1 : Bool} :
    Frame Foot.outvoteS s (State.outvoteS s x1) := by
  have h0 := Frame.refl Foot.outvoteS s
  unfold State.outvoteS
  extract_lets a1 a2 a3
  have h4 : Frame Foot.outvoteS s a3 := by
    exact { h0 with pos := fun hb => absurd hb (by decide) }
  clear_value a3
  refine Frame.ite ?_ ?_
  · refine Frame.step State.event_frame ?_
    exact h4
  · exact h4

def Foot.disagreeing : Nat := 0x80000000000000000000000000000000000000000000000000000000000000000000000000000000000000000000000000000000000
theorem State.disagreeing_frame {s : State} {x1 : Nat} {x2 : Bool} :
    FrameL Foot.disagreeing s (State.disagreeing s x1 x2) := by
  have h0 := Frame.refl Foot.disagreeing s
  unfold State.disagreeing
  extract_lets a1 a2
  refine FrameL.mk ?_
  refine Frame.step State.setCh_frame ?_
  exact h0

def Foot.votePaired : Nat := 0x610409AE400000000000000000000000000000000000000000000000000000010004000000000000000101781A0000000004000800000010
theorem State.votePaired_frame {s : State} :
    Frame Foot.votePaired s (State.votePaired s) := by
  have h0 := Frame.refl Foot.votePaired s
  unfold State.votePaired
  extract_lets a1 a2 a3 a4 a5 a6 a7 a8 a9 a10 a11 a12 a13 a14
  have h15 : Frame Foot.votePaired s a12 := by
    refine Frame.step State.outvote_frame ?_
    refine Frame.step State.outvote_frame ?_
    exact h0
  clear_value a12
  have h16 : Frame Foot.votePaired s a13 := by
    refine Frame.step State.outvoteS_frame ?_
    exact h15
  clear_value a13
  split
  rename_i x17 x18 x19 x20
  refine Frame.cutL (K := Foot.votePaired) (s := s) x20 ?_ (fun h21 => ?_)
  · refine FrameL.step State.disagreeing_frame ?_
    exact h16
  · extract_lets a22
    have h23 : Frame Foot.votePaired s a22 := by
      refine Frame.step State.angleCause_frame ?_
      exact h21
    clear_value a22
    refine Frame.step State.angleCause_frame ?_
    exact h23

def Foot.supervisePaired : Nat := 0x610409AE400000000000000000000000000000000000000000000000000000010004000000000000000101781A0000000004000800000010
theorem State.supervisePaired_frame {s : State} :
    Frame Foot.supervisePaired s (State.supervisePaired s) := by
  have h0 := Frame.refl Foot.supervisePaired s
  unfold State.supervisePaired
  refine Frame.ite ?_ ?_
  · refine Frame.step State.angleCause_frame ?_
    exact h0
  · refine Frame.step State.votePaired_frame ?_
    exact h0

def Foot.superviseOne : Nat := 0x610409AE400000000000000000000000000000000000000000000000000000010000000000000000000101781A0000000004000800000010
theorem State.superviseOne_frame {s : State} {x1 : Nat} :
    Frame Foot.superviseOne s (State.superviseOne s x1) := by
  have h0 := Frame.refl Foot.superviseOne s
  unfold State.superviseOne
  extract_lets a1 a2 a3 a4
  split
  rename_i x5 x6 x7 x8
  refine Frame.cutL (K := Foot.superviseOne) (s := s) x8 ?_ (fun h9 => ?_)
  · refine FrameL.step State.disagreeing_frame ?_
    exact h0
  · extract_lets a10
    have h11 : Frame Foot.superviseOne s a10 := by
      refine Frame.ite ?_ ?_
      · exact h9
      · refine Frame.step State.angleCause_frame ?_
        exact h9
    clear_value a10
    refine Frame.step State.angleCause_frame ?_
    exact h11

def Foot.supervise : Nat := 0x690409AE400000000000000000000000000000000000000000000000000000010004000000000000000101781A0000000004000800000010
theorem State.supervise_frame {s : State} :
    Frame Foot.supervise s (State.supervise s) := by
  have h0 := Frame.refl Foot.supervise s
  unfold State.supervise
  extract_lets a1 a2
  have h3 : Frame Foot.supervise s a1 := by
    refine Frame.step State.publishDev_frame ?_
    refine Frame.step State.publishDev_frame ?_
    exact h0
  clear_value a1
  have h4 : Frame Foot.supervise s a2 := by
    refine Frame.ite ?_ ?_
    · refine Frame.step State.supervisePaired_frame ?_
      exact h3
    · refine Frame.step State.superviseOne_frame ?_
      refine Frame.step State.superviseOne_frame ?_
      exact h3
  clear_value a2
  refine Frame.step State.checkTick_frame ?_
  refine Frame.step State.checkTick_frame ?_
  exact h4

/-! ### Estim -/

def Foot.setFm : Nat := 0x100000000000000000000000000000000000000000000000000000000000000000000000000000000000000000000000000000000000
theorem State.setFm_frame {s : State} {x1 : Nat} {x2 : FldM} :
    Frame Foot.setFm s (State.setFm s x1 x2) := by
  have h0 := Frame.refl Foot.setFm s
  unfold State.setFm
  exact { h0 with fldc := fun hb => absurd hb (by decide) }

def Foot.setStat : Nat := 0x1000000000000000000000000000000000000000000000000
theorem State.setStat_frame {s : State} {x1 : Nat} {x2 : Bits} {x3 : Nat} :
    Frame Foot.setStat s (State.setStat s x1 x2 x3) := by
  have h0 := Frame.refl Foot.setStat s
  unfold State.setStat
  refine Frame.setFld ?_ (regNo_FLD_MCm_STAT _)
  exact h0

def Foot.emfTick : Nat := 0x100000000000000000000000000000000000000000000000000000000000000000000000000000000000000000000000000000000000
theorem State.emfTick_frame {s : State} {x1 : Nat} :
    Frame Foot.emfTick s (State.emfTick s x1) := by
  have h0 := Frame.refl Foot.emfTick s
  unfold State.emfTick
  refine Frame.ite ?_ ?_
  · extract_lets a1 a2 a3
    refine Frame.step State.setFm_frame ?_
    exact h0
  · refine Frame.step State.setFm_frame ?_
    exact h0

def Foot.hfiStart : Nat := 0x100000000000000000000000000000000000000000000000000000000000000000000000000000000000000000000000000000000000
theorem State.hfiStart_frame {s : State} {x1 : Nat} {x2 : Word} {x3 : Word} :
    Frame Foot.hfiStart s (State.hfiStart s x1 x2 x3) := by
  have h0 := Frame.refl Foot.hfiStart s
  unfold State.hfiStart
  refine Frame.step State.setFm_frame ?_
  exact h0

def Foot.hfiTick : Nat := 0x100000000000000000000000000000000000000000000000000000000000000000000000000000000000000000000000000000000000
theorem State.hfiTick_frame {s : State} {x1 : Nat} :
    Frame Foot.hfiTick s (State.hfiTick s x1) := by
  have h0 := Frame.refl Foot.hfiTick s
  unfold State.hfiTick
  extract_lets a1 a2 a3
  split
  extract_lets a4
  refine Frame.step State.setFm_frame ?_
  exact h0

def Foot.publishHfi : Nat := 0x800100000000000000000000000000000000000000000000000000000000000000000000000000000000000000000000000000000000000
theorem State.publishHfi_frame {s : State} {x1 : Nat} :
    Frame Foot.publishHfi s (State.publishHfi s x1) := by
  have h0 := Frame.refl Foot.publishHfi s
  unfold State.publishHfi
  extract_lets a1 a2 a3 a4
  refine Frame.ite ?_ ?_
  · refine Frame.step State.publishReal_frame ?_
    refine Frame.step State.setFm_frame ?_
    exact h0
  · refine Frame.ite ?_ ?_
    · refine Frame.step State.publishReal_frame ?_
      refine Frame.step State.setFm_frame ?_
      exact h0
    · refine Frame.step State.publishReal_frame ?_
      refine Frame.step State.setFm_frame ?_
      exact h0

def Foot.takeWeight : Nat := 0x6104100E40000000000000000000000000000000000000000000000000000000000000000000000000000000000000000004000800000010
theorem State.takeWeight_frame {s : State} {x1 : Nat} :
    Frame Foot.takeWeight s (State.takeWeight s x1) := by
  have h0 := Frame.refl Foot.takeWeight s
  unfold State.takeWeight
  extract_lets a1 a2 a3 a4
  have h5 : Frame Foot.takeWeight s a4 := by
    refine Frame.step State.setFm_frame ?_
    exact h0
  clear_value a4
  refine Frame.ite ?_ ?_
  · refine Frame.step State.event_frame ?_
    exact h5
  · exact h5

def Foot.hfiFromEmf : Nat := 0x100000000000000000000000000000000000000000000000000000000000000000000000000000000000000000000000000000000000
theorem State.hfiFromEmf_frame {s : State} {x1 : Nat} :
    Frame Foot.hfiFromEmf s (State.hfiFromEmf s x1) := by
  have h0 := Frame.refl Foot.hfiFromEmf s
  unfold State.hfiFromEmf
  extract_lets a1
  refine Frame.step State.hfiStart_frame ?_
  exact h0

def Foot.autoTick : Nat := 0x6104100E40000000000000000000000000000000000000000000000000000000000000000000000000000000000000000004000800000010
theorem State.autoTick_frame {s : State} {x1 : Nat} :
    Frame Foot.autoTick s (State.autoTick s x1) := by
  have h0 := Frame.refl Foot.autoTick s
  unfold State.autoTick
  refine Frame.ite ?_ ?_
  · exact h0
  · extract_lets a1 a2 a3 a4 a5
    have h6 : Frame Foot.autoTick s a1 := by
      refine Frame.step State.takeWeight_frame ?_
      exact h0
    clear_value a1
    have h7 : Frame Foot.autoTick s a4 := by
      refine Frame.step State.hfiFromEmf_frame ?_
      exact h6
    clear_value a4
    refine Frame.ite ?_ ?_
    · refine Frame.step State.setFm_frame ?_
      exact h6
    · refine Frame.ite ?_ ?_
      · refine Frame.step State.setFm_frame ?_
        exact h7
      · exact h6

def Foot.hfiConverged : Nat := 0x100000000000000000000000000000000000000000000000000000000000000000000000000000000000000000000000000000000000
theorem State.hfiConverged_frame {s : State} {x1 : Nat} :
    Frame Foot.hfiConverged s (State.hfiConverged s x1) := by
  have h0 := Frame.refl Foot.hfiConverged s
  unfold State.hfiConverged
  extract_lets a1 a2
  refine Frame.ite ?_ ?_
  · refine Frame.step State.setFm_frame ?_
    exact h0
  · exact h0

def Foot.publishS : Nat := 0x800000000000000000000000000000000000000000000000000000000000000000000000000000000000000000000000000000000000000
theorem State.publishS_frame {s : State} {x1 : Nat} :
    Frame Foot.publishS s (State.publishS s x1) := by
  have h0 := Frame.refl Foot.publishS s
  unfold State.publishS
  extract_lets a1 a2
  refine Frame.step State.publishReal_frame ?_
  refine Frame.step State.publishFlag_frame ?_
  refine Frame.step State.publishReal_frame ?_
  refine Frame.step State.publish_frame ?_
  exact h0

/-! ### Field -/

def Foot.refreshHold : Nat := 0xA000000000000000000000000000000000000000000000000000000000000000000000000000000000100000000000000000000000
theorem State.refreshHold_frame {s : State} {x1 : Nat} :
    Frame Foot.refreshHold s (State.refreshHold s x1) := by
  have h0 := Frame.refl Foot.refreshHold s
  unfold State.refreshHold
  extract_lets a1 a2 a3 a4 a5 a6 a7 a8
  have h9 : Frame Foot.refreshHold s a4 := by
    refine Frame.step State.settle_frame ?_
    exact h0
  clear_value a4
  have h10 : Frame Foot.refreshHold s a6 := by
    exact { h9 with prot := fun hb => absurd hb (by decide) }
  clear_value a6
  have h11 : Frame Foot.refreshHold s a8 := by
    refine Frame.ite ?_ ?_
    · refine Frame.foldl ?_ (fun u12 x13 h14 => ?_)
      · exact h10
      · refine Frame.step State.clearCarry_frame ?_
        exact h14
    · exact h10
  clear_value a8
  refine Frame.ite ?_ ?_
  · exact h0
  · refine Frame.step State.regate_frame ?_
    exact h11

def Foot.raiseHoFirst : Nat := 0x10000000000000000000000000000000000000000000000000000000000000000000000000000000000000000000000000000000000000
theorem State.raiseHoFirst_frame {s : State} {x1 : Nat} :
    Frame Foot.raiseHoFirst s (State.raiseHoFirst s x1) := by
  have h0 := Frame.refl Foot.raiseHoFirst s
  unfold State.raiseHoFirst
  refine Frame.step State.addRestart_frame ?_
  exact h0

def Foot.setStart : Nat := 0x10A000000000000000000000000000000000000000000000000000000001000000000000000000000000100000000000000000000000
theorem State.setStart_frame {s : State} {x1 : Nat} {x2 : Nat} :
    Frame Foot.setStart s (State.setStart s x1 x2) := by
  have h0 := Frame.refl Foot.setStart s
  unfold State.setStart
  extract_lets a1 a2
  have h3 : Frame Foot.setStart s a1 := by
    refine Frame.step State.setStat_frame ?_
    exact h0
  clear_value a1
  refine Frame.step State.refreshHold_frame ?_
  refine Frame.step State.setFm_frame ?_
  exact h3

def Foot.enterWatch : Nat := 0x10A000000000000000000000000000000000000000000000000000000001000000000000000000000000100000000000000000000000
theorem State.enterWatch_frame {s : State} {x1 : Nat} :
    Frame Foot.enterWatch s (State.enterWatch s x1) := by
  have h0 := Frame.refl Foot.enterWatch s
  unfold State.enterWatch
  extract_lets a1
  refine Frame.step State.setStart_frame ?_
  refine Frame.step State.setFm_frame ?_
  exact h0

def Foot.catchSource : Nat := 0x800100000000000000000000000000000000000000000000000000000000000000000000000000000000000000000000000000000000000
theorem State.catchSource_frame {s : State} {x1 : Nat} :
    Frame Foot.catchSource s (State.catchSource s x1) := by
  have h0 := Frame.refl Foot.catchSource s
  unfold State.catchSource
  refine Frame.ite ?_ ?_
  · refine Frame.step State.publish_frame ?_
    refine Frame.step State.publish_frame ?_
    exact h0
  · refine Frame.ite ?_ ?_
    · refine Frame.step State.hfiFromEmf_frame ?_
      exact h0
    · exact h0

def Foot.enterCatch : Nat := 0x691410AE40000000000000000000000000000000000000000000000000000001000000000000000000000000100000000004000800000010
theorem State.enterCatch_frame {s : State} {x1 : Nat} :
    Frame Foot.enterCatch s (State.enterCatch s x1) := by
  have h0 := Frame.refl Foot.enterCatch s
  unfold State.enterCatch
  extract_lets a1 a2 a3 a4 a5 a6
  have h7 : Frame Foot.enterCatch s a3 := by
    refine Frame.step State.catchSource_frame ?_
    exact h0
  clear_value a3
  have h8 : Frame Foot.enterCatch s a5 := by
    refine Frame.step State.setStart_frame ?_
    refine Frame.step State.setFm_frame ?_
    exact h7
  clear_value a5
  have h9 : Frame Foot.enterCatch s a6 := by
    refine Frame.step State.event_frame ?_
    refine Frame.step State.raiseHoFirst_frame ?_
    exact h8
  clear_value a6
  refine Frame.ite ?_ ?_
  · refine Frame.step State.event_frame ?_
    exact h9
  · exact h9

def Foot.enterAttempt : Nat := 0x10A000000000000000000000000000000000000000000000000000000001000000000000000000000000100000000000000000000000
theorem State.enterAttempt_frame {s : State} {x1 : Nat} {x2 : Nat} :
    Frame Foot.enterAttempt s (State.enterAttempt s x1 x2) := by
  have h0 := Frame.refl Foot.enterAttempt s
  unfold State.enterAttempt
  extract_lets a1 a2
  have h3 : Frame Foot.enterAttempt s a2 := by
    refine Frame.step State.setFm_frame ?_
    exact h0
  clear_value a2
  refine Frame.step State.setStart_frame ?_
  refine Frame.ite ?_ ?_
  · refine Frame.step State.hfiStart_frame ?_
    exact h3
  · exact h3

def Foot.startFails : Nat := 0x610411AE400000000000000000000000000000000000000000000000000000010000000000000000000101781A0000000004000800000010
theorem State.startFails_frame {s : State} {x1 : Nat} {x2 : Nat} :
    Frame Foot.startFails s (State.startFails s x1 x2) := by
  have h0 := Frame.refl Foot.startFails s
  unfold State.startFails
  refine Frame.step State.f3_frame ?_
  refine Frame.step State.setStart_frame ?_
  exact h0

def Foot.attemptFails : Nat := 0x610411AE400000000000000000000000000000000000000000000000000000010000000000000000000101781A0000000004000800000010
theorem State.attemptFails_frame {s : State} {x1 : Nat} {x2 : Nat} :
    Frame Foot.attemptFails s (State.attemptFails s x1 x2) := by
  have h0 := Frame.refl Foot.attemptFails s
  unfold State.attemptFails
  extract_lets a1 a2 a3
  have h4 : Frame Foot.attemptFails s a3 := by
    refine Frame.step State.setFm_frame ?_
    refine Frame.step State.setStat_frame ?_
    exact h0
  clear_value a3
  refine Frame.ite ?_ ?_
  · refine Frame.step State.startFails_frame ?_
    exact h4
  · refine Frame.step State.event_frame ?_
    refine Frame.step State.setStart_frame ?_
    exact h4

def Foot.enterRun : Nat := 0x10A000000000000000000000000000000000000000000000000000000001000000000000000000000000100000000000000000000000
theorem State.enterRun_frame {s : State} {x1 : Nat} :
    Frame Foot.enterRun s (State.enterRun s x1) := by
  have h0 := Frame.refl Foot.enterRun s
  unfold State.enterRun
  refine Frame.step State.setStart_frame ?_
  exact h0

def Foot.dropHo : Nat := 0x100000000000000000000000000000000000000000000000000000000001000000000000000000000000000000000000000000000000
theorem State.dropHo_frame {s : State} {x1 : Nat} :
    Frame Foot.dropHo s (State.dropHo s x1) := by
  have h0 := Frame.refl Foot.dropHo s
  unfold State.dropHo
  refine Frame.step State.setFm_frame ?_
  refine Frame.step State.setStat_frame ?_
  exact h0

def Foot.enterIdle : Nat := 0x10A000000000000000000000000000000000000000000000000000000001000000000000000000000000100000000000000000000000
theorem State.enterIdle_frame {s : State} {x1 : Nat} :
    Frame Foot.enterIdle s (State.enterIdle s x1) := by
  have h0 := Frame.refl Foot.enterIdle s
  unfold State.enterIdle
  extract_lets a1 a2
  have h3 : Frame Foot.enterIdle s a1 := by
    refine Frame.step State.dropHo_frame ?_
    exact h0
  clear_value a1
  refine Frame.step State.setStart_frame ?_
  refine Frame.step State.setFm_frame ?_
  exact h3

def Foot.goStart : Nat := 0x691411AE400000000000000000000000000000000000000000000000000000010000000000000000000101781A0000000004000800000010
theorem State.goStart_frame {s : State} {x1 : Nat} {x2 : Nat} :
    Frame Foot.goStart s (State.goStart s x1 x2) := by
  have h0 := Frame.refl Foot.goStart s
  unfold State.goStart
  refine Frame.ite ?_ ?_
  · refine Frame.step State.enterCatch_frame ?_
    exact h0
  · refine Frame.ite ?_ ?_
    · refine Frame.step State.startFails_frame ?_
      exact h0
    · refine Frame.step State.enterAttempt_frame ?_
      exact h0

def Foot.startMode : Nat := 0x691410AE40000000000000000000000000000000000000000000000000000001000000000000000000000000100000000004000800000010
theorem State.startMode_frame {s : State} {x1 : Nat} :
    Frame Foot.startMode s (State.startMode s x1) := by
  have h0 := Frame.refl Foot.startMode s
  unfold State.startMode
  refine Frame.ite ?_ ?_
  · exact h0
  · refine Frame.ite ?_ ?_
    · refine Frame.step State.enterCatch_frame ?_
      exact h0
    · refine Frame.step State.enterWatch_frame ?_
      exact h0

def Foot.fldRelease : Nat := 0x691411AE400000000000000000000000000000000000000000000000000000010000000000000000000101781A0000000004000800000010
theorem State.fldRelease_frame {s : State} {x1 : Nat} {x2 : Bool} :
    Frame Foot.fldRelease s (State.fldRelease s x1 x2) := by
  have h0 := Frame.refl Foot.fldRelease s
  unfold State.fldRelease
  extract_lets a1 a2 a3 a4 a5 a6 a7
  have h8 : Frame Foot.fldRelease s a2 := by
    refine Frame.step State.setStat_frame ?_
    exact h0
  clear_value a2
  have h9 : Frame Foot.fldRelease s a3 := by
    refine Frame.step State.endCause_frame ?_
    exact h8
  clear_value a3
  have h10 : Frame Foot.fldRelease s a4 := by
    refine Frame.ite ?_ ?_
    · exact h9
    · refine Frame.step State.setStat_frame ?_
      exact h9
  clear_value a4
  have h11 : Frame Foot.fldRelease s a7 := by
    refine Frame.step State.setFm_frame ?_
    exact h10
  clear_value a7
  refine Frame.ite ?_ ?_
  · exact h0
  · refine Frame.ite ?_ ?_
    · refine Frame.step State.goStart_frame ?_
      exact h11
    · refine Frame.step State.startMode_frame ?_
      exact h11

def Foot.clearLost : Nat := 0x2000000000000000000000000000000000000000000000000000000001000000000000000000000060000000000000000000000000
theorem State.clearLost_frame {s : State} {x1 : Nat} :
    Frame Foot.clearLost s (State.clearLost s x1) := by
  have h0 := Frame.refl Foot.clearLost s
  unfold State.clearLost
  refine Frame.step State.endCause_frame ?_
  refine Frame.step State.endCause_frame ?_
  refine Frame.step State.setStat_frame ?_
  exact h0

def Foot.lostWatchEnds : Nat := 0x610411AE400000000000000000000000000000000000000000000000000000010000000000000000000101781A0000000004000800000010
theorem State.lostWatchEnds_frame {s : State} {x1 : Nat} {x2 : Nat} :
    Frame Foot.lostWatchEnds s (State.lostWatchEnds s x1 x2) := by
  have h0 := Frame.refl Foot.lostWatchEnds s
  unfold State.lostWatchEnds
  refine Frame.ite ?_ ?_
  · refine Frame.step State.attemptFails_frame ?_
    exact h0
  · extract_lets a1 a2 a3
    have h4 : Frame Foot.lostWatchEnds s a1 := by
      refine Frame.step State.enterIdle_frame ?_
      refine Frame.step State.clearLost_frame ?_
      exact h0
    clear_value a1
    refine Frame.step State.setFm_frame ?_
    exact h4

def Foot.watchEnds : Nat := 0x691411AE400000000000000000000000000000000000000000000000000000010000000000000000000101781A0000000004000800000010
theorem State.watchEnds_frame {s : State} {x1 : Nat} {x2 : Nat} :
    Frame Foot.watchEnds s (State.watchEnds s x1 x2) := by
  have h0 := Frame.refl Foot.watchEnds s
  unfold State.watchEnds
  refine Frame.ite ?_ ?_
  · refine Frame.step State.lostWatchEnds_frame ?_
    exact h0
  · refine Frame.ite ?_ ?_
    · refine Frame.step State.attemptFails_frame ?_
      exact h0
    · refine Frame.step State.goStart_frame ?_
      exact h0

def Foot.execWatchEnd : Nat := 0x691411AE408000000000000000000000000000000000000000000000000000010000000000000000000101781A0000000004000800000010
theorem execWatchEnd_frame {s : State} {x0 : Fin 2} {x1 : Nat} :
    FrameO Foot.execWatchEnd s (execWatchEnd x0 x1 s) := by
  have h0 := Frame.refl Foot.execWatchEnd s
  unfold execWatchEnd
  refine FrameO.next ?_
  refine Frame.ite ?_ ?_
  · refine Frame.step State.watchEnds_frame ?_
    refine Frame.step State.at_frame ?_
    exact h0
  · exact h0

def Foot.execWaitEnd : Nat := 0x10A000800000000000000000000000000000000000000000000000000001000000000000000000000000100000000000000000000000
theorem execWaitEnd_frame {s : State} {x0 : Fin 2} {x1 : Nat} :
    FrameO Foot.execWaitEnd s (execWaitEnd x0 x1 s) := by
  have h0 := Frame.refl Foot.execWaitEnd s
  unfold execWaitEnd
  refine FrameO.next ?_
  refine Frame.ite ?_ ?_
  · refine Frame.step State.enterWatch_frame ?_
    refine Frame.step State.at_frame ?_
    exact h0
  · exact h0

def Foot.execCatchEnd : Nat := 0x10A000000000000000000000000000000000000000000000000000000001000000000000000000000000100000000000000000000000
theorem execCatchEnd_frame {s : State} {x0 : Fin 2} :
    FrameO Foot.execCatchEnd s (execCatchEnd x0 s) := by
  have h0 := Frame.refl Foot.execCatchEnd s
  unfold execCatchEnd
  refine FrameO.next ?_
  refine Frame.ite ?_ ?_
  · refine Frame.step State.enterRun_frame ?_
    exact h0
  · exact h0

def Foot.startInjection : Nat := 0x100000000000000000000000000000000000000000000000000000000000000000000000000000000000000000000000000000000000
theorem State.startInjection_frame {s : State} {x1 : Nat} {x2 : Nat} {x3 : Nat} {x4 : Rat} :
    Frame Foot.startInjection s (State.startInjection s x1 x2 x3 x4) := by
  have h0 := Frame.refl Foot.startInjection s
  unfold State.startInjection
  refine Frame.ite ?_ ?_
  · exact h0
  · extract_lets a1 a2 a3 a4
    have h5 : Frame Foot.startInjection s a3 := by
      refine Frame.ite ?_ ?_
      · exact h0
      · refine Frame.step State.hfiFromEmf_frame ?_
        exact h0
    clear_value a3
    refine Frame.step State.setFm_frame ?_
    exact h5

def Foot.takeMode : Nat := 0x691410AE40000000000000000000000000000000000000000000000000000001000000000000000000000060100000000004000800000010
theorem State.takeMode_frame {s : State} {x1 : Nat} {x2 : Nat} :
    Frame Foot.takeMode s (State.takeMode s x1 x2) := by
  have h0 := Frame.refl Foot.takeMode s
  unfold State.takeMode
  extract_lets a1 a2 a3 a4 a5 a6 a7
  have h8 : Frame Foot.takeMode s a3 := by
    refine Frame.step State.startInjection_frame ?_
    exact h0
  clear_value a3
  have h9 : Frame Foot.takeMode s a4 := by
    refine Frame.step State.event_frame ?_
    refine Frame.step State.setStat_frame ?_
    exact h8
  clear_value a4
  have h10 : Frame Foot.takeMode s a5 := by
    refine Frame.ite ?_ ?_
    · refine Frame.step State.clearLost_frame ?_
      exact h9
    · exact h9
  clear_value a5
  have h11 : Frame Foot.takeMode s a6 := by
    refine Frame.ite ?_ ?_
    · refine Frame.step State.enterIdle_frame ?_
      exact h10
    · exact h10
  clear_value a6
  have h12 : Frame Foot.takeMode s a7 := by
    refine Frame.step State.refreshHold_frame ?_
    exact h11
  clear_value a7
  refine Frame.ite ?_ ?_
  · refine Frame.step State.startMode_frame ?_
    exact h12
  · exact h12

def Foot.modeSet : Nat := 0x691410AE40000000000000000000000000000000000000000000000000000001000000000000000000000060100000000004000800000010
theorem State.modeSet_frame {s : State} {x1 : Nat} {x2 : Word} {x3 : Word} :
    FrameV Foot.modeSet s (State.modeSet s x1 x2 x3) := by
  have h0 := Frame.refl Foot.modeSet s
  unfold State.modeSet
  extract_lets a1 a2 a3 a4 a5
  have h6 : Frame Foot.modeSet s a4 := by
    refine Frame.step State.dropHo_frame ?_
    exact h0
  clear_value a4
  refine FrameV.ite ?_ ?_
  · exact FrameV.no
  · refine FrameV.ite ?_ ?_
    · refine FrameV.doneClamp ?_
      refine Frame.step State.dropHo_frame ?_
      exact h0
    · refine FrameV.ite ?_ ?_
      · refine FrameV.doneClamp ?_
        refine Frame.step State.takeMode_frame ?_
        refine Frame.step State.setFm_frame ?_
        exact h6
      · refine FrameV.doneClamp ?_
        refine Frame.step State.setFm_frame ?_
        exact h6

def Foot.fallTo : Nat := 0x6104100E40000000000000000000000000000000000000000000000000000001000000000000000000000000000000000004000800000010
theorem State.fallTo_frame {s : State} {x1 : Nat} {x2 : Nat} :
    Frame Foot.fallTo s (State.fallTo s x1 x2) := by
  have h0 := Frame.refl Foot.fallTo s
  unfold State.fallTo
  extract_lets a1 a2
  have h3 : Frame Foot.fallTo s a2 := by
    refine Frame.step State.setFm_frame ?_
    refine Frame.step State.setStat_frame ?_
    exact h0
  clear_value a2
  refine Frame.step State.event_frame ?_
  refine Frame.step State.f2Begins_frame ?_
  exact h3

def Foot.beginHo : Nat := 0x691410AE40000000000000000000000000000000000000000000000000000001000000000000000000000060100000000004000800000010
theorem State.beginHo_frame {s : State} {x1 : Nat} {x2 : HoReq} :
    Frame Foot.beginHo s (State.beginHo s x1 x2) := by
  have h0 := Frame.refl Foot.beginHo s
  unfold State.beginHo
  extract_lets a1 a2 a3 a4 a5 a6 a7
  have h8 : Frame Foot.beginHo s a4 := by
    dsimp -zeta only [a4]
    split
    · refine Frame.step State.takeMode_frame ?_
      exact h0
    · exact h0
  have h9 : Frame Foot.beginHo s a5 := by
    refine Frame.ite ?_ ?_
    · refine Frame.step State.f2Ends_frame ?_
      exact h8
    · exact h8
  clear_value a5
  have h10 : Frame Foot.beginHo s a6 := by
    refine Frame.step State.setStat_frame ?_
    refine Frame.step State.setStat_frame ?_
    exact h9
  clear_value a6
  refine Frame.step State.raiseHoFirst_frame ?_
  refine Frame.step State.setFm_frame ?_
  exact h10

def Foot.deferHo : Nat := 0x6104100E40000000000000000000000000000000000000000000000000000001000000000000000000000000000000000004000800000010
theorem State.deferHo_frame {s : State} {x1 : Nat} {x2 : HoReq} {x3 : Nat} :
    Frame Foot.deferHo s (State.deferHo s x1 x2 x3) := by
  have h0 := Frame.refl Foot.deferHo s
  unfold State.deferHo
  extract_lets a1 a2 a3
  have h4 : Frame Foot.deferHo s a2 := by
    refine Frame.ite ?_ ?_
    · refine Frame.step State.event_frame ?_
      refine Frame.step State.setStat_frame ?_
      exact h0
    · exact h0
  clear_value a2
  refine Frame.ite ?_ ?_
  · refine Frame.step State.event_frame ?_
    refine Frame.step State.setFm_frame ?_
    refine Frame.step State.setStat_frame ?_
    exact h4
  · refine Frame.step State.setFm_frame ?_
    exact h4

def Foot.tryHo : Nat := 0x691410AE40000000000000000000000000000000000000000000000000000001000000000000000000000060100000000004000800000010
theorem State.tryHo_frame {s : State} {x1 : Nat} :
    Frame Foot.tryHo s (State.tryHo s x1) := by
  have h0 := Frame.refl Foot.tryHo s
  unfold State.tryHo
  split
  · exact h0
  · refine Frame.ite ?_ ?_
    · refine Frame.step State.dropHo_frame ?_
      exact h0
    · extract_lets a1 a2 a3
      refine Frame.ite ?_ ?_
      · refine Frame.step State.beginHo_frame ?_
        exact h0
      · refine Frame.step State.deferHo_frame ?_
        exact h0

def Foot.ownHo : Nat := 0x100000000000000000000000000000000000000000000000000000000000000000000000000000000000000000000000000000000000
theorem State.ownHo_frame {s : State} {x1 : Nat} :
    Frame Foot.ownHo s (State.ownHo s x1) := by
  have h0 := Frame.refl Foot.ownHo s
  unfold State.ownHo
  extract_lets a1 a2 a3
  refine Frame.ite ?_ ?_
  · refine Frame.step State.setFm_frame ?_
    exact h0
  · exact h0

def Foot.takeSource : Nat := 0x100000000000000000000000000000000000000000000000000000000001000000000000000000000000000000000000000000000000
theorem State.takeSource_frame {s : State} {x1 : Nat} {x2 : Nat} :
    Frame Foot.takeSource s (State.takeSource s x1 x2) := by
  have h0 := Frame.refl Foot.takeSource s
  unfold State.takeSource
  refine Frame.step State.setFm_frame ?_
  refine Frame.step State.setStat_frame ?_
  exact h0

def Foot.pickSource : Nat := 0x6104100E40000000000000000000000000000000000000000000000000000001000000000000000000000000000000000004000800000010
theorem State.pickSource_frame {s : State} {x1 : Nat} :
    Frame Foot.pickSource s (State.pickSource s x1) := by
  have h0 := Frame.refl Foot.pickSource s
  unfold State.pickSource
  extract_lets a1 a2 a3 a4 a5
  have h6 : Frame Foot.pickSource s a4 := by
    refine Frame.ite ?_ ?_
    · refine Frame.step State.takeSource_frame ?_
      exact h0
    · exact h0
  clear_value a4
  refine Frame.ite ?_ ?_
  · refine Frame.ite ?_ ?_
    · refine Frame.step State.takeSource_frame ?_
      exact h0
    · exact h0
  · refine Frame.ite ?_ ?_
    · refine Frame.ite ?_ ?_
      · exact h6
      · split
        · refine Frame.ite ?_ ?_
          · exact h6
          · refine Frame.step State.fallTo_frame ?_
            exact h6
        · exact h6
    · refine Frame.ite ?_ ?_
      · refine Frame.step State.takeSource_frame ?_
        exact h0
      · refine Frame.ite ?_ ?_
        · refine Frame.step State.setFm_frame ?_
          refine Frame.step State.setStat_frame ?_
          exact h0
        · exact h0

def Foot.stepBlend : Nat := 0x10A000000000000000000000000000000000000000000000000000000001000000000000000000000000100000000000000000000000
theorem State.stepBlend_frame {s : State} {x1 : Nat} :
    Frame Foot.stepBlend s (State.stepBlend s x1) := by
  have h0 := Frame.refl Foot.stepBlend s
  unfold State.stepBlend
  split
  · exact h0
  · refine Frame.ite ?_ ?_
    · refine Frame.step State.setFm_frame ?_
      exact h0
    · extract_lets a1 a2
      have h3 : Frame Foot.stepBlend s a2 := by
        refine Frame.step State.setFm_frame ?_
        exact h0
      clear_value a2
      refine Frame.ite ?_ ?_
      · refine Frame.step State.enterRun_frame ?_
        exact h3
      · exact h3

def Foot.rampTick : Nat := 0x610411AE400000000000000000000000000000000000000000000000000000010000000000000000000101781A0000000004000800000010
theorem State.rampTick_frame {s : State} {x1 : Nat} :
    Frame Foot.rampTick s (State.rampTick s x1) := by
  have h0 := Frame.refl Foot.rampTick s
  unfold State.rampTick
  refine Frame.ite ?_ ?_
  · exact h0
  · extract_lets a1 a2 a3 a4 a5 a6 a7 a8
    have h9 : Frame Foot.rampTick s a5 := by
      refine Frame.step State.setFm_frame ?_
      exact h0
    clear_value a5
    refine Frame.ite ?_ ?_
    · refine Frame.step State.setFm_frame ?_
      exact h9
    · refine Frame.ite ?_ ?_
      · refine Frame.step State.attemptFails_frame ?_
        exact h9
      · exact h9

def Foot.alignTick : Nat := 0x10A000000000000000000000000000000000000000000000000000000001000000000000000000000000100000000000000000000000
theorem State.alignTick_frame {s : State} {x1 : Nat} :
    Frame Foot.alignTick s (State.alignTick s x1) := by
  have h0 := Frame.refl Foot.alignTick s
  unfold State.alignTick
  refine Frame.ite ?_ ?_
  · refine Frame.step State.setStart_frame ?_
    refine Frame.step State.setFm_frame ?_
    exact h0
  · exact h0

def Foot.polDecide : Nat := 0x611411AE400000000000000000000000000000000000000000000000000000010000000000000000000101781A0000000004000800000010
theorem State.polDecide_frame {s : State} {x1 : Nat} {x2 : Rat} {x3 : Rat} :
    Frame Foot.polDecide s (State.polDecide s x1 x2 x3) := by
  have h0 := Frame.refl Foot.polDecide s
  unfold State.polDecide
  extract_lets a1 a2 a3
  refine Frame.ite ?_ ?_
  · dsimp -zeta only [a2]
    refine Frame.step State.enterRun_frame ?_
    refine Frame.step State.setFm_frame ?_
    exact h0
  · refine Frame.ite ?_ ?_
    · refine Frame.step State.raiseHoFirst_frame ?_
      dsimp -zeta only [a2]
      refine Frame.step State.enterRun_frame ?_
      refine Frame.step State.setFm_frame ?_
      exact h0
    · refine Frame.ite ?_ ?_
      · refine Frame.step State.setFm_frame ?_
        exact h0
      · refine Frame.step State.attemptFails_frame ?_
        refine Frame.step State.event_frame ?_
        exact h0

def Foot.polTick : Nat := 0x611411AE400000000000000000000000000000000000000000000000000000010000000000000000000101781A0000000004000800000010
theorem State.polTick_frame {s : State} {x1 : Nat} :
    Frame Foot.polTick s (State.polTick s x1) := by
  have h0 := Frame.refl Foot.polTick s
  unfold State.polTick
  refine Frame.ite ?_ ?_
  · exact h0
  · extract_lets a1 a2
    refine Frame.ite ?_ ?_
    · refine Frame.step State.setFm_frame ?_
      exact h0
    · refine Frame.ite ?_ ?_
      · refine Frame.step State.setFm_frame ?_
        exact h0
      · refine Frame.ite ?_ ?_
        · refine Frame.step State.polDecide_frame ?_
          exact h0
        · refine Frame.step State.setFm_frame ?_
          exact h0

def Foot.travelTick : Nat := 0x610411AE400000000000000000000000000000000000000000000000000000010000000000000000000101781A0000000004000800000010
theorem State.travelTick_frame {s : State} {x1 : Nat} {x2 : Int} {x3 : Rat} :
    Frame Foot.travelTick s (State.travelTick s x1 x2 x3) := by
  have h0 := Frame.refl Foot.travelTick s
  unfold State.travelTick
  extract_lets a1 a2 a3 a4 a5 a6 a7 a8
  have h9 : Frame Foot.travelTick s a7 := by
    refine Frame.step State.setFm_frame ?_
    exact h0
  clear_value a7
  refine Frame.ite ?_ ?_
  · exact h0
  · refine Frame.ite ?_ ?_
    · refine Frame.step State.setFm_frame ?_
      exact h9
    · refine Frame.ite ?_ ?_
      · refine Frame.step State.attemptFails_frame ?_
        exact h9
      · exact h9

def Foot.rotorLost : Nat := 0x610411AE400000000000000000000000000000000000000000000000000000010000000000000000000101781A0000000004000800000010
theorem State.rotorLost_frame {s : State} {x1 : Nat} {x2 : Nat} :
    Frame Foot.rotorLost s (State.rotorLost s x1 x2) := by
  have h0 := Frame.refl Foot.rotorLost s
  unfold State.rotorLost
  extract_lets a1 a2 a3 a4 a5
  have h6 : Frame Foot.rotorLost s a2 := by
    refine Frame.step State.setStat_frame ?_
    refine Frame.step State.setFm_frame ?_
    exact h0
  clear_value a2
  have h7 : Frame Foot.rotorLost s a3 := by
    refine Frame.step State.event_frame ?_
    exact h6
  clear_value a3
  have h8 : Frame Foot.rotorLost s a5 := by
    refine Frame.step State.raise_frame ?_
    exact h7
  clear_value a5
  refine Frame.ite ?_ ?_
  · refine Frame.step State.f3_frame ?_
    exact h8
  · exact h8

def Foot.lostTick : Nat := 0x610411AE400000000000000000000000000000000000000000000000000000010000000000000000000101781A0000000004000800000010
theorem State.lostTick_frame {s : State} {x1 : Nat} :
    Frame Foot.lostTick s (State.lostTick s x1) := by
  have h0 := Frame.refl Foot.lostTick s
  unfold State.lostTick
  extract_lets a1 a2 a3 a4 a5 a6 a7
  have h8 : Frame Foot.lostTick s a7 := by
    refine Frame.step State.setFm_frame ?_
    exact h0
  clear_value a7
  refine Frame.ite ?_ ?_
  · refine Frame.step State.rotorLost_frame ?_
    exact h8
  · exact h8

def Foot.attemptsExpire : Nat := 0x1000000000000000000000000000000000000000000000000
theorem State.attemptsExpire_frame {s : State} {x1 : Nat} :
    Frame Foot.attemptsExpire s (State.attemptsExpire s x1) := by
  have h0 := Frame.refl Foot.attemptsExpire s
  unfold State.attemptsExpire
  refine Frame.ite ?_ ?_
  · refine Frame.step State.setStat_frame ?_
    exact h0
  · exact h0

def Foot.fieldTick : Nat := 0x610411AE400000000000000000000000000000000000000000000000000000010000000000000000000101781A0000000004000800000010
theorem State.fieldTick_frame {s : State} {x1 : Nat} :
    Frame Foot.fieldTick s (State.fieldTick s x1) := by
  have h0 := Frame.refl Foot.fieldTick s
  unfold State.fieldTick
  extract_lets a1 a2 a3 a4 a5 a6 a7 a8
  have h9 : Frame Foot.fieldTick s a7 := by
    refine Frame.step State.setFm_frame ?_
    exact h0
  clear_value a7
  refine Frame.ite ?_ ?_
  · refine Frame.step State.f3_frame ?_
    exact h9
  · refine Frame.ite ?_ ?_
    · exact h9
    · refine Frame.step State.endCause_frame ?_
      exact h9

def Foot.safeTick : Nat := 0x10A000000000000000000000000000000000000000000000000000000001000000000000000000000060100000000000000000000000
theorem State.safeTick_frame {s : State} {x1 : Nat} :
    Frame Foot.safeTick s (State.safeTick s x1) := by
  have h0 := Frame.refl Foot.safeTick s
  unfold State.safeTick
  extract_lets a1
  refine Frame.ite ?_ ?_
  · exact h0
  · refine Frame.ite ?_ ?_
    · refine Frame.ite ?_ ?_
      · refine Frame.ite ?_ ?_
        · exact h0
        · refine Frame.step State.enterWatch_frame ?_
          exact h0
      · refine Frame.ite ?_ ?_
        · exact h0
        · refine Frame.step State.enterIdle_frame ?_
          exact h0
    · refine Frame.ite ?_ ?_
      · exact h0
      · refine Frame.step State.enterIdle_frame ?_
        refine Frame.step State.endCause_frame ?_
        exact h0

def Foot.watchTick : Nat := 0x100000000000000000000000000000000000000000000000000000000000000000000000000000000000000000000000000000000000
theorem State.watchTick_frame {s : State} {x1 : Nat} :
    Frame Foot.watchTick s (State.watchTick s x1) := by
  have h0 := Frame.refl Foot.watchTick s
  unfold State.watchTick
  refine Frame.ite ?_ ?_
  · exact h0
  · extract_lets a1 a2 a3
    refine Frame.step State.setFm_frame ?_
    exact h0

def Foot.standEnds : Nat := 0x691411AE400000000000000000000000000000000000000000000000000000010000000000000000000101781A0000000004000800000010
theorem State.standEnds_frame {s : State} {x1 : Nat} :
    Frame Foot.standEnds s (State.standEnds s x1) := by
  have h0 := Frame.refl Foot.standEnds s
  unfold State.standEnds
  extract_lets a1
  refine Frame.ite ?_ ?_
  · refine Frame.step State.watchEnds_frame ?_
    exact h0
  · exact h0

def Foot.rebase : Nat := 0x100000000000000000000000000000000000000000000000000000000000000000000000000000000000000000000000000000000000
theorem State.rebase_frame {s : State} {x1 : Nat} {x2 : Word} :
    FrameR Foot.rebase s (State.rebase s x1 x2) := by
  have h0 := Frame.refl Foot.rebase s
  unfold State.rebase
  extract_lets a1 a2 a3
  refine FrameR.mk ?_
  refine Frame.step State.setFm_frame ?_
  exact h0

def Foot.publishEmf : Nat := 0x800000000000000000000000000000000000000000000000000000000000000000000000000000000000000000000000000000000000000
theorem State.publishEmf_frame {s : State} {x1 : Nat} :
    Frame Foot.publishEmf s (State.publishEmf s x1) := by
  have h0 := Frame.refl Foot.publishEmf s
  unfold State.publishEmf
  extract_lets a1 a2 a3
  refine Frame.ite ?_ ?_
  · refine Frame.step State.publish_frame ?_
    refine Frame.step State.publish_frame ?_
    exact h0
  · refine Frame.step State.publishReal_frame ?_
    refine Frame.step State.publishReal_frame ?_
    exact h0

def Foot.publishControl : Nat := 0x690411AE400000000000000000000000000000000000000000000000000000010000000000000000000101781A0000000004000800000010
theorem State.publishControl_frame {s : State} {x1 : Nat} :
    Frame Foot.publishControl s (State.publishControl s x1) := by
  have h0 := Frame.refl Foot.publishControl s
  unfold State.publishControl
  split
  split
  rename_i x1 x2 x3 x4
  refine Frame.cutR (K := Foot.publishControl) (s := s) x4 ?_ (fun h5 => ?_)
  · refine FrameR.step State.rebase_frame ?_
    exact h0
  · extract_lets a6 a7 a8
    have h9 : Frame Foot.publishControl s a7 := by
      refine Frame.step State.publishReal_frame ?_
      refine Frame.step State.publishReal_frame ?_
      refine Frame.step State.publish_frame ?_
      exact h5
    clear_value a7
    have h10 : Frame Foot.publishControl s a8 := by
      refine Frame.step State.publish_frame ?_
      exact h9
    clear_value a8
    refine Frame.step State.travelTick_frame ?_
    exact h10

def Foot.publishMachine : Nat := 0x800000000000000000000000000000000000000000000000000000000000000000000000000000000000000000000000000000000000000
theorem State.publishMachine_frame {s : State} {x1 : Nat} :
    Frame Foot.publishMachine s (State.publishMachine s x1) := by
  have h0 := Frame.refl Foot.publishMachine s
  unfold State.publishMachine
  extract_lets a1 a2 a3 a4 a5 a6 a7 a8
  have h9 : Frame Foot.publishMachine s a4 := by
    refine Frame.step State.publish_frame ?_
    refine Frame.step State.publish_frame ?_
    refine Frame.step State.publish_frame ?_
    exact h0
  clear_value a4
  have h10 : Frame Foot.publishMachine s a5 := by
    refine Frame.step State.publish_frame ?_
    refine Frame.step State.publishFlag_frame ?_
    exact h9
  clear_value a5
  have h11 : Frame Foot.publishMachine s a6 := by
    refine Frame.step State.publishReal_frame ?_
    exact h10
  clear_value a6
  have h12 : Frame Foot.publishMachine s a7 := by
    refine Frame.step State.publishFlag_frame ?_
    exact h11
  clear_value a7
  have h13 : Frame Foot.publishMachine s a8 := by
    refine Frame.step State.publishFlag_frame ?_
    refine Frame.step State.publishFlag_frame ?_
    exact h12
  clear_value a8
  refine Frame.step State.publish_frame ?_
  exact h13

def Foot.fieldMachine : Nat := 0x691411AE400000000000000000000000000000000000000000000000000000010000000000000000000101781A0000000004000800000010
theorem State.fieldMachine_frame {s : State} {x1 : Nat} :
    Frame Foot.fieldMachine s (State.fieldMachine s x1) := by
  have h0 := Frame.refl Foot.fieldMachine s
  unfold State.fieldMachine
  extract_lets a1 a2 a3 a4 a5 a6 a7
  have h8 : Frame Foot.fieldMachine s a1 := by
    refine Frame.step State.hfiConverged_frame ?_
    refine Frame.step State.hfiTick_frame ?_
    refine Frame.step State.emfTick_frame ?_
    exact h0
  clear_value a1
  have h9 : Frame Foot.fieldMachine s a2 := by
    refine Frame.step State.watchTick_frame ?_
    refine Frame.step State.safeTick_frame ?_
    refine Frame.step State.autoTick_frame ?_
    exact h8
  clear_value a2
  have h10 : Frame Foot.fieldMachine s a3 := by
    refine Frame.step State.rampTick_frame ?_
    refine Frame.step State.alignTick_frame ?_
    refine Frame.step State.polTick_frame ?_
    exact h9
  clear_value a3
  have h11 : Frame Foot.fieldMachine s a4 := by
    refine Frame.step State.tryHo_frame ?_
    refine Frame.step State.ownHo_frame ?_
    refine Frame.step State.pickSource_frame ?_
    exact h10
  clear_value a4
  have h12 : Frame Foot.fieldMachine s a5 := by
    refine Frame.step State.publishControl_frame ?_
    exact h11
  clear_value a5
  have h13 : Frame Foot.fieldMachine s a6 := by
    refine Frame.step State.attemptsExpire_frame ?_
    refine Frame.step State.fieldTick_frame ?_
    refine Frame.step State.lostTick_frame ?_
    exact h12
  clear_value a6
  have h14 : Frame Foot.fieldMachine s a7 := by
    refine Frame.step State.publishEmf_frame ?_
    refine Frame.step State.publishS_frame ?_
    refine Frame.step State.publishHfi_frame ?_
    exact h13
  clear_value a7
  refine Frame.step State.stepBlend_frame ?_
  refine Frame.step State.publishMachine_frame ?_
  exact h14

/-! ### Commut -/

def Foot.writeMask : Nat := 0x180000000000000000000000000000000000000000000000000000000000000000000000000000000001A0000000000000000000000
theorem State.writeMask_frame {s : State} {x1 : Nat} {x2 : Nat} :
    Frame Foot.writeMask s (State.writeMask s x1 x2) := by
  have h0 := Frame.refl Foot.writeMask s
  unfold State.writeMask
  extract_lets a1
  have h2 : Frame Foot.writeMask s a1 := by
    refine Frame.setFld ?_ (regNo_PAIRk_MASK _)
    exact h0
  clear_value a1
  refine Frame.step State.setMask_frame ?_
  refine Frame.step State.setForce_frame ?_
  exact h2

def Foot.writeMasks : Nat := 0x180000000000000000000000000000000000000000000000000000000000000000000000000000000001A0000000000000000000000
theorem State.writeMasks_frame {s : State} {x1 : List Nat} {x2 : List Nat} :
    Frame Foot.writeMasks s (State.writeMasks s x1 x2) := by
  have h0 := Frame.refl Foot.writeMasks s
  unfold State.writeMasks
  refine Frame.foldl ?_ (fun u1 x2 h3 => ?_)
  · exact h0
  · refine Frame.step State.writeMask_frame ?_
    exact h3

def Foot.seqWrite : Nat := 0x180000000000000000000000000000000000000000000000000000000010000000000000000000000001A0000000000000000000000
theorem State.seqWrite_frame {s : State} {x1 : Nat} {x2 : Nat} :
    Frame Foot.seqWrite s (State.seqWrite s x1 x2) := by
  have h0 := Frame.refl Foot.seqWrite s
  unfold State.seqWrite
  extract_lets a1
  have h2 : Frame Foot.seqWrite s a1 := by
    refine Frame.step State.setStat_frame ?_
    exact h0
  clear_value a1
  refine Frame.foldl ?_ (fun u3 x4 h5 => ?_)
  · refine Frame.step State.settle_frame ?_
    exact h2
  · refine Frame.step State.writeMasks_frame ?_
    exact h5

def Foot.execSixstepCrossing : Nat := 0x180008000000000000000000000000000000000000000000000000000010000000000000000000000001A0000000000000000000000
theorem execSixstepCrossing_frame {s : State} {x0 : Fin 2} {x1 : Nat} :
    FrameO Foot.execSixstepCrossing s (execSixstepCrossing x0 x1 s) := by
  have h0 := Frame.refl Foot.execSixstepCrossing s
  unfold execSixstepCrossing
  refine FrameO.next ?_
  refine Frame.ite ?_ ?_
  · refine Frame.step State.seqWrite_frame ?_
    refine Frame.step State.at_frame ?_
    exact h0
  · exact h0

def Foot.setSeqDefer : Nat := 0x100000000000000000000000000000000000000000000000000000000000000000000000000000000000000000000000000000000000
theorem State.setSeqDefer_frame {s : State} {x1 : Nat} {x2 : Nat} :
    Frame Foot.setSeqDefer s (State.setSeqDefer s x1 x2) := by
  have h0 := Frame.refl Foot.setSeqDefer s
  unfold State.setSeqDefer
  refine Frame.step State.setFm_frame ?_
  exact h0

def Foot.seqEnter : Nat := 0x6104118E400000000000000000000000000000000000000000000000000000010000000000000000000000001A0000000004000800000010
theorem State.seqEnter_frame {s : State} {x1 : Nat} :
    Frame Foot.seqEnter s (State.seqEnter s x1) := by
  have h0 := Frame.refl Foot.seqEnter s
  unfold State.seqEnter
  extract_lets a1 a2 a3 a4
  have h5 : Frame Foot.seqEnter s a4 := by
    refine Frame.step State.setSeqDefer_frame ?_
    exact h0
  clear_value a4
  refine Frame.ite ?_ ?_
  · refine Frame.step State.seqWrite_frame ?_
    refine Frame.step State.setStat_frame ?_
    refine Frame.step State.setSeqDefer_frame ?_
    exact h0
  · refine Frame.ite ?_ ?_
    · refine Frame.step State.event_frame ?_
      exact h5
    · exact h5

def Foot.seqBoundary : Nat := 0x6104118E400000000000000000000000000000000000000000000000000000010000000000000000000000001A0000000004000800000010
theorem State.seqBoundary_frame {s : State} {x1 : Nat} :
    Frame Foot.seqBoundary s (State.seqBoundary s x1) := by
  have h0 := Frame.refl Foot.seqBoundary s
  unfold State.seqBoundary
  extract_lets a1 a2
  have h3 : Frame Foot.seqBoundary s a2 := by
    refine Frame.step State.setStat_frame ?_
    exact h0
  clear_value a2
  refine Frame.ite ?_ ?_
  · exact h0
  · refine Frame.ite ?_ ?_
    · refine Frame.ite ?_ ?_
      · refine Frame.step State.seqWrite_frame ?_
        exact h0
      · refine Frame.foldl ?_ (fun u4 x5 h6 => ?_)
        · refine Frame.step State.settle_frame ?_
          exact h3
        · refine Frame.step State.writeMask_frame ?_
          exact h6
    · refine Frame.ite ?_ ?_
      · refine Frame.step State.seqEnter_frame ?_
        exact h0
      · refine Frame.step State.setSeqDefer_frame ?_
        exact h0

def Foot.setEv : Nat := 0x100000000000000000000000000000000000000000000000000000000000000000000000000000000000000000000000000000000000
theorem State.setEv_frame {s : State} {x1 : Nat} {x2 : EvSlot} :
    Frame Foot.setEv s (State.setEv s x1 x2) := by
  have h0 := Frame.refl Foot.setEv s
  unfold State.setEv
  exact { h0 with fldc := fun hb => absurd hb (by decide) }

def Foot.setArmed : Nat := 0x20000000000000000000000000000000000000000000000000000
theorem State.setArmed_frame {s : State} {x1 : Nat} {x2 : Bool} :
    Frame Foot.setArmed s (State.setArmed s x1 x2) := by
  have h0 := Frame.refl Foot.setArmed s
  unfold State.setArmed
  refine Frame.setFld ?_ (regNo_FLD_EVs_STAT _)
  exact h0

def Foot.armLate : Nat := 0x6104000E40000000000000000000000000000000000000000000000000020000000000000000000000000000000000000004000800000010
theorem State.armLate_frame {s : State} {x1 : Nat} {x2 : Nat} :
    Frame Foot.armLate s (State.armLate s x1 x2) := by
  have h0 := Frame.refl Foot.armLate s
  unfold State.armLate
  refine Frame.step State.event_frame ?_
  refine Frame.setFld ?_ (regNo_FLD_EVs_STAT _)
  exact h0

def Foot.armSlot : Nat := 0x6104100E40000000000000000000000000000000000000000000000000020000000000000000000000000000000000000004000800000010
theorem State.armSlot_frame {s : State} {x1 : Nat} :
    Frame Foot.armSlot s (State.armSlot s x1) := by
  have h0 := Frame.refl Foot.armSlot s
  unfold State.armSlot
  extract_lets a1 a2 a3 a4 a5 a6 a7 a8 a9
  have h10 : Frame Foot.armSlot s a9 := by
    refine Frame.step State.setArmed_frame ?_
    refine Frame.step State.setEv_frame ?_
    exact h0
  clear_value a9
  refine Frame.ite ?_ ?_
  · refine Frame.step State.armLate_frame ?_
    exact h10
  · exact h10

def Foot.actWritten : Nat := 0x6104100E40000000000000000000000000000000000000000000000000020000000000000000000000000000000000000004000800000010
theorem State.actWritten_frame {s : State} {x1 : Nat} :
    Frame Foot.actWritten s (State.actWritten s x1) := by
  have h0 := Frame.refl Foot.actWritten s
  unfold State.actWritten
  refine Frame.ite ?_ ?_
  · refine Frame.step State.setArmed_frame ?_
    exact h0
  · refine Frame.step State.armSlot_frame ?_
    exact h0

def Foot.angleEvent : Nat := 0x6124100E40000000000000000000000000000000000000000000000000038000000000000000000000000000000000000004000800000010
theorem State.angleEvent_frame {s : State} {x1 : Nat} {x2 : Word} {x3 : Word} :
    FrameV Foot.angleEvent s (State.angleEvent s x1 x2 x3) := by
  have h0 := Frame.refl Foot.angleEvent s
  unfold State.angleEvent
  extract_lets a1 a2 a3
  have h4 : Frame Foot.angleEvent s a2 := by
    refine Frame.step State.actWritten_frame ?_
    refine Frame.setReg ?_ (regNo_FLD_EVs_ACT _)
    refine Frame.setReg ?_ (regNo_FLD_EVs_ANG _)
    exact h0
  clear_value a2
  have h5 : Frame Foot.angleEvent s a3 := by
    refine Frame.step State.imageWrite_frame ?_
    refine Frame.step State.imageWrite_frame ?_
    exact h4
  clear_value a3
  refine FrameV.doneClamp ?_
  exact h5

def Foot.swapMask : Nat := 0x180000000000000000000000000000000000000000000000000000000000000000000000000000000001A0000000000000000000000
theorem State.swapMask_frame {s : State} {x1 : Nat} :
    Frame Foot.swapMask s (State.swapMask s x1) := by
  have h0 := Frame.refl Foot.swapMask s
  unfold State.swapMask
  refine Frame.ite ?_ ?_
  · exact h0
  · extract_lets a1 a2
    have h3 : Frame Foot.swapMask s a1 := by
      refine Frame.step State.writeMask_frame ?_
      exact h0
    clear_value a1
    refine Frame.ite ?_ ?_
    · refine Frame.step State.setPair_frame ?_
      exact h3
    · exact h3

def Foot.evActs : Nat := 0x580000000000000000000000000000000000000000000000000000000000000000000000000000000001A0000000000000000000000
theorem State.evActs_frame {s : State} {x1 : Nat} :
    Frame Foot.evActs s (State.evActs s x1) := by
  have h0 := Frame.refl Foot.evActs s
  unfold State.evActs
  extract_lets a1 a2 a3
  have h4 : Frame Foot.evActs s a3 := by
    refine Frame.ite ?_ ?_
    · refine Frame.foldl ?_ (fun u5 x6 h7 => ?_)
      · refine Frame.step State.settle_frame ?_
        exact h0
      · refine Frame.step State.swapMask_frame ?_
        exact h7
    · exact h0
  clear_value a3
  refine Frame.ite ?_ ?_
  · refine Frame.step State.urgentAngle_frame ?_
    exact h4
  · exact h4

def Foot.evAfter : Nat := 0x100000000000000000000000000000000000000000000000000000020000000000000000000000000000000000000000000000000000
theorem State.evAfter_frame {s : State} {x1 : Nat} :
    Frame Foot.evAfter s (State.evAfter s x1) := by
  have h0 := Frame.refl Foot.evAfter s
  unfold State.evAfter
  extract_lets a1 a2
  refine Frame.ite ?_ ?_
  · refine Frame.step State.setEv_frame ?_
    exact h0
  · refine Frame.step State.setArmed_frame ?_
    exact h0

def Foot.evMark : Nat := 0x100000000000000000000000000000000000000000000000000000020000000000000000000000000000000000000000000000000000
theorem State.evMark_frame {s : State} {x1 : Nat} :
    Frame Foot.evMark s (State.evMark s x1) := by
  have h0 := Frame.refl Foot.evMark s
  unfold State.evMark
  extract_lets a1 a2
  have h3 : Frame Foot.evMark s a1 := by
    refine Frame.count ?_ (regNo_FLD_EVs_STAT _)
    exact h0
  clear_value a1
  exact { h3 with fldc := fun hb => absurd hb (by decide) }

def Foot.evFire : Nat := 0x6104158E400000000000000000000000000000000000000000000000000200000000000000000000000000001A0000000004000800000010
theorem State.evFire_frame {s : State} {x1 : Nat} :
    Frame Foot.evFire s (State.evFire s x1) := by
  have h0 := Frame.refl Foot.evFire s
  unfold State.evFire
  extract_lets a1 a2
  have h3 : Frame Foot.evFire s a1 := by
    refine Frame.step State.evActs_frame ?_
    refine Frame.step State.evMark_frame ?_
    exact h0
  clear_value a1
  have h4 : Frame Foot.evFire s a2 := by
    refine Frame.ite ?_ ?_
    · refine Frame.step State.event_frame ?_
      exact h3
    · exact h3
  clear_value a2
  refine Frame.step State.evAfter_frame ?_
  exact h4

def Foot.evDue : Nat := 0x6104158E400000000000000000000000000000000000000000000000000200000000000000000000000000001A0000000004000800000010
theorem State.evDue_frame {s : State} {x1 : Nat} :
    Frame Foot.evDue s (State.evDue s x1) := by
  have h0 := Frame.refl Foot.evDue s
  unfold State.evDue
  refine Frame.ite ?_ ?_
  · refine Frame.step State.evFire_frame ?_
    exact h0
  · exact h0

def Foot.evBefore : Nat := 0x6104158E400000000000000000000000000000000000000000000000000200010000000000000000000000001A0000000004000800000010
theorem State.evBefore_frame {s : State} {x1 : Nat} :
    Frame Foot.evBefore s (State.evBefore s x1) := by
  have h0 := Frame.refl Foot.evBefore s
  unfold State.evBefore
  extract_lets a1
  have h2 : Frame Foot.evBefore s a1 := by
    refine Frame.foldl ?_ (fun u3 x4 h5 => ?_)
    · exact h0
    · refine Frame.ite ?_ ?_
      · refine Frame.step State.seqWrite_frame ?_
        exact h5
      · exact h5
  clear_value a1
  refine Frame.foldl ?_ (fun u6 x7 h8 => ?_)
  · exact h2
  · refine Frame.step State.evDue_frame ?_
    exact h8

def Foot.execAngleEventFire : Nat := 0x6104158E408000000000000000000000000000000000000000000000000200010000000000000000000000001A0000000004000800000010
theorem execAngleEventFire_frame {s : State} {x0 : Fin 16} {x1 : Nat} :
    FrameO Foot.execAngleEventFire s (execAngleEventFire x0 x1 s) := by
  have h0 := Frame.refl Foot.execAngleEventFire s
  unfold execAngleEventFire
  refine FrameO.next ?_
  refine Frame.ite ?_ ?_
  · refine Frame.step State.evDue_frame ?_
    refine Frame.step State.evBefore_frame ?_
    refine Frame.step State.at_frame ?_
    exact h0
  · exact h0

def Foot.closeSlots : Nat := 0x100000000000000000000000000000000000000000000000000000000000000000000000000000000000000000000000000000000000
theorem State.closeSlots_frame {s : State} :
    Frame Foot.closeSlots s (State.closeSlots s) := by
  have h0 := Frame.refl Foot.closeSlots s
  unfold State.closeSlots
  exact { h0 with fldc := fun hb => absurd hb (by decide) }

def Foot.publishSlots : Nat := 0x800000000000000000000000000000000000000000000000000000000000000000000000000000000000000000000000000000000000000
theorem State.publishSlots_frame {s : State} :
    Frame Foot.publishSlots s (State.publishSlots s) := by
  have h0 := Frame.refl Foot.publishSlots s
  unfold State.publishSlots
  refine Frame.foldl ?_ (fun u1 x2 h3 => ?_)
  · exact h0
  · refine Frame.step State.publishFlag_frame ?_
    refine Frame.step State.publishFlag_frame ?_
    exact h3

def Foot.deliverMachine : Nat := 0x100000000000000000000000000000000000000000000000000000000000000000000000000000000000000000000000000000000000
theorem State.deliverMachine_frame {s : State} {x1 : List Held} {x2 : Nat} :
    Frame Foot.deliverMachine s (State.deliverMachine s x1 x2) := by
  have h0 := Frame.refl Foot.deliverMachine s
  unfold State.deliverMachine
  extract_lets a1 a2
  refine Frame.step State.setFm_frame ?_
  exact h0

def Foot.deliverSlot : Nat := 0x6104100E40000000000000000000000000000000000000000000000000020000000000000000000000000000000000000004000800000010
theorem State.deliverSlot_frame {s : State} {x1 : List Held} {x2 : Nat} :
    Frame Foot.deliverSlot s (State.deliverSlot s x1 x2) := by
  have h0 := Frame.refl Foot.deliverSlot s
  unfold State.deliverSlot
  split
  · exact h0
  · extract_lets a1 a2
    have h3 : Frame Foot.deliverSlot s a2 := by
      refine Frame.step State.setEv_frame ?_
      exact h0
    clear_value a2
    refine Frame.ite ?_ ?_
    · refine Frame.step State.armSlot_frame ?_
      exact h3
    · exact h3

def Foot.fieldBoundary : Nat := 0x6104118E400000000000000000000000000000000000000000000000000200010000000000000000000000001A0000000004000800000010
theorem State.fieldBoundary_frame {s : State} {x1 : List Held} :
    Frame Foot.fieldBoundary s (State.fieldBoundary s x1) := by
  have h0 := Frame.refl Foot.fieldBoundary s
  unfold State.fieldBoundary
  extract_lets a1 a2
  have h3 : Frame Foot.fieldBoundary s a1 := by
    refine Frame.step State.deliverMachine_frame ?_
    refine Frame.step State.deliverMachine_frame ?_
    exact h0
  clear_value a1
  have h4 : Frame Foot.fieldBoundary s a2 := by
    refine Frame.step State.seqBoundary_frame ?_
    refine Frame.step State.seqBoundary_frame ?_
    exact h3
  clear_value a2
  refine Frame.foldl ?_ (fun u5 x6 h7 => ?_)
  · refine Frame.step State.closeSlots_frame ?_
    exact h4
  · refine Frame.step State.deliverSlot_frame ?_
    exact h7

def Foot.catchCaravan : Nat := Foot.tripClear ||| Foot.driveEnable

theorem State.catchCaravan_frame {s : State} {m : Nat} : FrameV Foot.catchCaravan s (s.catchCaravan m) := by
  unfold State.catchCaravan
  refine FrameV.foldl (FrameV.step State.tripClear_frame (Frame.refl _ s)) (fun v b hv => ?_)
  cases v with
  | ok t _ _ _ => exact FrameV.step State.driveEnable_frame hv
  | refused _ r => exact hv

def Foot.internalCaravan : Nat := 0x610411AE400000000000000000000000000000000000000000000000000000010000000000000000000101987FFFF8000004000800000010
theorem State.internalCaravan_frame {s : State} {x1 : Nat} :
    FrameL Foot.internalCaravan s (State.internalCaravan s x1) := by
  have h0 := Frame.refl Foot.internalCaravan s
  unfold State.internalCaravan
  refine FrameL.ite ?_ ?_
  · refine FrameL.mk ?_
    exact h0
  · extract_lets a1 a2
    have h3 : Frame Foot.internalCaravan s a2 := by
      refine Frame.step State.setFm_frame ?_
      exact h0
    clear_value a2
    refine FrameL.ite ?_ ?_
    · refine FrameL.mk ?_
      exact h3
    · split
      · rename_i x4 x5 x6 x7 x8 x9
        refine Frame.cutV (K := Foot.internalCaravan) (s := s) x9 ?_ (fun h10 => ?_)
        · refine FrameV.step State.catchCaravan_frame ?_
          exact h3
        · refine FrameL.mk ?_
          exact h10
      · rename_i x11 x12 x13 x14
        refine Frame.cutVR (K := Foot.internalCaravan) (s := s) x14 ?_ (fun h15 => ?_)
        · refine FrameV.step State.catchCaravan_frame ?_
          exact h3
        · refine FrameL.mk ?_
          refine FrameF.use h15 ?_
          exact h3

def Foot.postRecatch : Nat := 0x6104000E40000000000000000000000000000000000000000000000000000001000000000000000000000000000000000004000800000010
theorem State.postRecatch_frame {s : State} {x1 : Nat} :
    Frame Foot.postRecatch s (State.postRecatch s x1) := by
  have h0 := Frame.refl Foot.postRecatch s
  unfold State.postRecatch
  extract_lets a1
  have h2 : Frame Foot.postRecatch s a1 := by
    refine Frame.count ?_ (regNo_FLD_MCm_STAT _)
    exact h0
  clear_value a1
  refine Frame.step State.event_frame ?_
  exact h2

/-! ### Weigh -/

def Foot.setWm : Nat := 0x200000000000000000000000000000000000000000000000000000000000000000000000000000000000000000000000000000000000
theorem State.setWm_frame {s : State} {x1 : Nat} {x2 : WghM} :
    Frame Foot.setWm s (State.setWm s x1 x2) := by
  have h0 := Frame.refl Foot.setWm s
  unfold State.setWm
  exact { h0 with wgh := fun hb => absurd hb (by decide) }

def Foot.wghEnable : Nat := 0x6104200E40000000000000000000000000000000000000000000000000100000000000000000000000000000000000000004000800000010
theorem State.wghEnable_frame {s : State} {x1 : Nat} :
    Frame Foot.wghEnable s (State.wghEnable s x1) := by
  have h0 := Frame.refl Foot.wghEnable s
  unfold State.wghEnable
  split
  · refine Frame.step State.event_frame ?_
    refine Frame.setFld ?_ (regNo_WGH_MCm_CFG _)
    exact h0
  · refine Frame.step State.setWm_frame ?_
    exact h0

def Foot.wghStuck : Nat := 0x200000000000000000000000000000000000000000000000000000000000000000000000000000000000000000000000000000000000
theorem State.wghStuck_frame {s : State} {x1 : Nat} {x2 : Nat} :
    Frame Foot.wghStuck s (State.wghStuck s x1 x2) := by
  have h0 := Frame.refl Foot.wghStuck s
  unfold State.wghStuck
  refine Frame.step State.setWm_frame ?_
  exact h0

def Foot.execWghSelftest : Nat := 0x6104200E40800000000000000000000000000000000000000000000000000000000000000000000000000000000000000004000800000010
theorem execWghSelftest_frame {s : State} {x0 : Fin 2} {x1 : Word} :
    FrameO Foot.execWghSelftest s (execWghSelftest x0 x1 s) := by
  have h0 := Frame.refl Foot.execWghSelftest s
  unfold execWghSelftest
  extract_lets a1
  have h2 : Frame Foot.execWghSelftest s a1 := by
    refine Frame.step State.atTick_frame ?_
    exact h0
  clear_value a1
  refine FrameO.next ?_
  refine Frame.ite ?_ ?_
  · refine Frame.step State.wghStuck_frame ?_
    refine Frame.step State.event_frame ?_
    refine Frame.step State.f2Begins_frame ?_
    exact h2
  · exact h2

def Foot.wghDeliver : Nat := 0x200000000000000000000000000000000000000000000000000000000000000000000000000000000000000000000000000000000000
theorem State.wghDeliver_frame {s : State} {x1 : List Held} {x2 : Nat} :
    Frame Foot.wghDeliver s (State.wghDeliver s x1 x2) := by
  have h0 := Frame.refl Foot.wghDeliver s
  unfold State.wghDeliver
  extract_lets a1 a2
  refine Frame.step State.setWm_frame ?_
  exact h0

def Foot.setWghStat : Nat := 0x40000000000000000000000000000000000000000000000000000000
theorem State.setWghStat_frame {s : State} {x1 : Nat} {x2 : Bits} {x3 : Nat} :
    Frame Foot.setWghStat s (State.setWghStat s x1 x2 x3) := by
  have h0 := Frame.refl Foot.setWghStat s
  unfold State.setWghStat
  refine Frame.setFld ?_ (regNo_WGH_MCm_STAT _)
  exact h0

def Foot.wghTorque : Nat := 0x610401AE400000000000000000000000000000000000000000000000800000010000000000000000000101781A0000000004000800000010
theorem State.wghTorque_frame {s : State} {x1 : Nat} {x2 : Nat} {x3 : Rat} :
    Frame Foot.wghTorque s (State.wghTorque s x1 x2 x3) := by
  have h0 := Frame.refl Foot.wghTorque s
  unfold State.wghTorque
  extract_lets a1
  have h2 : Frame Foot.wghTorque s a1 := by
    refine Frame.count ?_ (regNo_WGH_MCm_CNT _)
    exact h0
  clear_value a1
  refine Frame.step State.raise_frame ?_
  refine Frame.step State.event_frame ?_
  exact h2

def Foot.bandCheck : Nat := 0x610401AE400000000000000000000000000000000000000000000000C00000010000000000000000000101781A0000000004000800000010
theorem State.bandCheck_frame {s : State} {x1 : Nat} {x2 : Rat} {x3 : Rat} {x4 : Rat} :
    Frame Foot.bandCheck s (State.bandCheck s x1 x2 x3 x4) := by
  have h0 := Frame.refl Foot.bandCheck s
  unfold State.bandCheck
  refine Frame.ite ?_ ?_
  · exact h0
  · extract_lets a1 a2 a3
    have h4 : Frame Foot.bandCheck s a3 := by
      refine Frame.step State.setWghStat_frame ?_
      exact h0
    clear_value a3
    refine Frame.ite ?_ ?_
    · refine Frame.step State.wghTorque_frame ?_
      exact h4
    · exact h4

def Foot.signCheck : Nat := 0x610421AE400000000000000000000000000000000000000000000000800000010000000000000000000101781A0000000004000800000010
theorem State.signCheck_frame {s : State} {x1 : Nat} {x2 : Rat} {x3 : Rat} :
    Frame Foot.signCheck s (State.signCheck s x1 x2 x3) := by
  have h0 := Frame.refl Foot.signCheck s
  unfold State.signCheck
  refine Frame.ite ?_ ?_
  · exact h0
  · extract_lets a1 a2 a3 a4 a5
    have h6 : Frame Foot.signCheck s a5 := by
      refine Frame.step State.setWm_frame ?_
      exact h0
    clear_value a5
    refine Frame.ite ?_ ?_
    · refine Frame.step State.wghTorque_frame ?_
      exact h6
    · exact h6

def Foot.startCheck : Nat := 0x610421AE400000000000000000000000000000000000000000000000800000010000000000000000000101781A0000000004000800000010
theorem State.startCheck_frame {s : State} {x1 : Nat} {x2 : Rat} {x3 : Rat} :
    Frame Foot.startCheck s (State.startCheck s x1 x2 x3) := by
  have h0 := Frame.refl Foot.startCheck s
  unfold State.startCheck
  extract_lets a1 a2 a3 a4 a5
  have h6 : Frame Foot.startCheck s a5 := by
    refine Frame.step State.setWm_frame ?_
    exact h0
  clear_value a5
  refine Frame.ite ?_ ?_
  · refine Frame.ite ?_ ?_
    · refine Frame.step State.wghTorque_frame ?_
      exact h6
    · exact h6
  · exact h0

def Foot.primaryCheck : Nat := 0x6104000E400000000000000000000000000000000000000000000000C0000000000000000000000000000000000000000004000800000010
theorem State.primaryCheck_frame {s : State} {x1 : Nat} :
    Frame Foot.primaryCheck s (State.primaryCheck s x1) := by
  have h0 := Frame.refl Foot.primaryCheck s
  unfold State.primaryCheck
  extract_lets a1
  split
  · exact h0
  · refine Frame.ite ?_ ?_
    · extract_lets a2 a3 a4 a5 a6
      have h7 : Frame Foot.primaryCheck s a5 := by
        refine Frame.step State.setWghStat_frame ?_
        exact h0
      clear_value a5
      have h8 : Frame Foot.primaryCheck s a6 := by
        refine Frame.count ?_ (regNo_WGH_MCm_CNT _)
        refine Frame.step State.setWghStat_frame ?_
        exact h7
      clear_value a6
      refine Frame.ite ?_ ?_
      · refine Frame.step State.event_frame ?_
        refine Frame.step State.f2Begins_frame ?_
        exact h8
      · exact h7
    · exact h0

def Foot.postBlind : Nat := 0x610401AE400000000000000000000000000000000000000000000000C00000010000000000000000000101781A0000000004000800000010
theorem State.postBlind_frame {s : State} {x1 : Nat} {x2 : Nat} :
    Frame Foot.postBlind s (State.postBlind s x1 x2) := by
  have h0 := Frame.refl Foot.postBlind s
  unfold State.postBlind
  extract_lets a1 a2 a3
  have h4 : Frame Foot.postBlind s a2 := by
    refine Frame.step State.setWghStat_frame ?_
    refine Frame.count ?_ (regNo_WGH_MCm_CNT _)
    exact h0
  clear_value a2
  refine Frame.ite ?_ ?_
  · refine Frame.step State.raise_frame ?_
    refine Frame.step State.event_frame ?_
    exact h4
  · refine Frame.step State.event_frame ?_
    refine Frame.step State.f2Begins_frame ?_
    exact h4

def Foot.blindTick : Nat := 0x610421AE400000000000000000000000000000000000000000000000C00000010000000000000000000101781A0000000004000800000010
theorem State.blindTick_frame {s : State} {x1 : Nat} {x2 : Nat} :
    Frame Foot.blindTick s (State.blindTick s x1 x2) := by
  have h0 := Frame.refl Foot.blindTick s
  unfold State.blindTick
  extract_lets a1 a2 a3
  have h4 : Frame Foot.blindTick s a3 := by
    refine Frame.step State.setWm_frame ?_
    exact h0
  clear_value a3
  refine Frame.ite ?_ ?_
  · refine Frame.step State.postBlind_frame ?_
    exact h4
  · exact h4

def Foot.endBlind : Nat := 0x200400000000000000000000000000000000000000000000000000000000000000000000000000000000000000000000000000000000
theorem State.endBlind_frame {s : State} {x1 : Nat} :
    Frame Foot.endBlind s (State.endBlind s x1) := by
  have h0 := Frame.refl Foot.endBlind s
  unfold State.endBlind
  refine Frame.step State.setWm_frame ?_
  refine Frame.step State.f2Ends_frame ?_
  exact h0

def Foot.checkTick' : Nat := 0x610421AE400000000000000000000000000000000000000000000000C00000010000000000000000000101781A0000000004000800000010
theorem State.checkTick'_frame {s : State} {x1 : Nat} {x2 : Rat} {x3 : Rat} :
    Frame Foot.checkTick' s (State.checkTick' s x1 x2 x3) := by
  have h0 := Frame.refl Foot.checkTick' s
  unfold State.checkTick'
  extract_lets a1 a2 a3 a4 a5
  have h6 : Frame Foot.checkTick' s a1 := by
    refine Frame.step State.setWghStat_frame ?_
    refine Frame.step State.endBlind_frame ?_
    exact h0
  clear_value a1
  have h7 : Frame Foot.checkTick' s a3 := by
    refine Frame.step State.startCheck_frame ?_
    refine Frame.step State.signCheck_frame ?_
    refine Frame.step State.bandCheck_frame ?_
    exact h6
  clear_value a3
  have h8 : Frame Foot.checkTick' s a4 := by
    refine Frame.step State.primaryCheck_frame ?_
    exact h7
  clear_value a4
  refine Frame.step State.setWm_frame ?_
  exact h8

def Foot.wghWake : Nat := 0x200000000000000000000000000000000000000000000000000040000000000000000000000000000000000000000000000000000000
theorem State.wghWake_frame {s : State} {x1 : Nat} :
    Frame Foot.wghWake s (State.wghWake s x1) := by
  have h0 := Frame.refl Foot.wghWake s
  unfold State.wghWake
  extract_lets a1 a2
  have h3 : Frame Foot.wghWake s a1 := by
    refine Frame.step State.setWghStat_frame ?_
    refine Frame.step State.setWghStat_frame ?_
    refine Frame.step State.setWghStat_frame ?_
    exact h0
  clear_value a1
  refine Frame.step State.setWm_frame ?_
  exact h3

def Foot.wghSettle : Nat := 0x2000000000000000000000000000000000000000000000000000000000000000000000000000000060000000000000000000000000
theorem State.wghSettle_frame {s : State} {x1 : Nat} :
    Frame Foot.wghSettle s (State.wghSettle s x1) := by
  have h0 := Frame.refl Foot.wghSettle s
  unfold State.wghSettle
  refine Frame.ite ?_ ?_
  · refine Frame.step State.endCause_frame ?_
    exact h0
  · exact h0

def Foot.wghPublish : Nat := 0x800000000000000000000000000000000000000000000000000000000000000000000000000000000000000000000000000000000000000
theorem State.wghPublish_frame {s : State} {x1 : Nat} {x2 : Rat} {x3 : Rat} :
    Frame Foot.wghPublish s (State.wghPublish s x1 x2 x3) := by
  have h0 := Frame.refl Foot.wghPublish s
  unfold State.wghPublish
  extract_lets a1 a2 a3
  have h4 : Frame Foot.wghPublish s a2 := by
    refine Frame.step State.publishReal_frame ?_
    refine Frame.step State.publish_frame ?_
    refine Frame.step State.publishReal_frame ?_
    exact h0
  clear_value a2
  have h5 : Frame Foot.wghPublish s a3 := by
    refine Frame.step State.publish_frame ?_
    refine Frame.step State.publishFlag_frame ?_
    exact h4
  clear_value a3
  refine Frame.step State.publishFlag_frame ?_
  exact h5

def Foot.wghChecks : Nat := 0x610421AE400000000000000000000000000000000000000000000000C00000010000000000000000000101781A0000000004000800000010
theorem State.wghChecks_frame {s : State} {x1 : Nat} {x2 : Rat} {x3 : Rat} :
    Frame Foot.wghChecks s (State.wghChecks s x1 x2 x3) := by
  have h0 := Frame.refl Foot.wghChecks s
  unfold State.wghChecks
  refine Frame.ite ?_ ?_
  · refine Frame.step State.setWghStat_frame ?_
    refine Frame.step State.endBlind_frame ?_
    exact h0
  · extract_lets a1
    have h2 : Frame Foot.wghChecks s a1 := by
      refine Frame.ite ?_ ?_
      · refine Frame.step State.wghWake_frame ?_
        exact h0
      · exact h0
    clear_value a1
    split
    · refine Frame.step State.blindTick_frame ?_
      exact h2
    · refine Frame.step State.checkTick'_frame ?_
      exact h2

def Foot.weigh : Nat := 0x690421AE400000000000000000000000000000000000000000000000C00000010000000000000000000101781A0000000004000800000010
theorem State.weigh_frame {s : State} {x1 : Nat} :
    Frame Foot.weigh s (State.weigh s x1) := by
  have h0 := Frame.refl Foot.weigh s
  unfold State.weigh
  refine Frame.ite ?_ ?_
  · exact h0
  · extract_lets a1 a2 a3 a4
    have h5 : Frame Foot.weigh s a3 := by
      refine Frame.step State.setWm_frame ?_
      exact h0
    clear_value a3
    refine Frame.step State.wghPublish_frame ?_
    refine Frame.step State.wghSettle_frame ?_
    refine Frame.step State.wghChecks_frame ?_
    exact h5

def Foot.wghRelease : Nat := 0x400000000000000000000000000000000000000000000000040000000000000000000000000000000000000000000000000000000
theorem State.wghRelease_frame {s : State} {x1 : Nat} :
    Frame Foot.wghRelease s (State.wghRelease s x1) := by
  have h0 := Frame.refl Foot.wghRelease s
  unfold State.wghRelease
  extract_lets a1
  refine Frame.ite ?_ ?_
  · exact h0
  · refine Frame.step State.f2Ends_frame ?_
    refine Frame.step State.setWghStat_frame ?_
    refine Frame.step State.setWghStat_frame ?_
    exact h0

def Foot.discharge : Nat := 0x690402AE4000000000000000000000000000000000000000000000000000000000000000000000001E000000000000000004000800000010
theorem State.discharge_frame {s : State} {x1 : Word} {x2 : Word} {x3 : Word} :
    FrameV Foot.discharge s (State.discharge s x1 x2 x3) := by
  have h0 := Frame.refl Foot.discharge s
  unfold State.discharge
  extract_lets a1 a2 a3 a4
  refine FrameV.ite ?_ ?_
  · refine FrameV.doneClamp ?_
    refine Frame.step State.disDone_frame ?_
    exact h0
  · refine FrameV.ite ?_ ?_
    · exact FrameV.no
    · refine FrameV.doneClamp ?_
      refine Frame.step State.disStart_frame ?_
      refine Frame.step State.stopMethods_frame ?_
      exact h0

def Foot.disEnergy : Nat := 0x20000000000000000000000000000000000000000000000000000000000000000000000000008000000000000000000000000000000
theorem State.disEnergy_frame {s : State} :
    Frame Foot.disEnergy s (State.disEnergy s) := by
  have h0 := Frame.refl Foot.disEnergy s
  unfold State.disEnergy
  extract_lets a1 a2 a3 a4 a5 a6 a7 a8
  have h9 : Frame Foot.disEnergy s a5 := by
    refine Frame.setReg ?_ (regNo_PROT_DIS_ERES)
    exact h0
  clear_value a5
  exact { h9 with dis := fun hb => absurd hb (by decide) }

def Foot.disResTick : Nat := 0x610402AE4000000000000000000000000000000000000000000000000000000000000000000000000A000000000000000004000800000010
theorem State.disResTick_frame {s : State} :
    Frame Foot.disResTick s (State.disResTick s) := by
  have h0 := Frame.refl Foot.disResTick s
  unfold State.disResTick
  refine Frame.ite ?_ ?_
  · exact h0
  · extract_lets a1 a2
    have h3 : Frame Foot.disResTick s a1 := by
      refine Frame.step State.disEnergy_frame ?_
      exact h0
    clear_value a1
    refine Frame.ite ?_ ?_
    · refine Frame.step State.dropResistor_frame ?_
      exact h3
    · refine Frame.ite ?_ ?_
      · refine Frame.step State.dropResistor_frame ?_
        exact h3
      · exact { h3 with dis := fun hb => absurd hb (by decide) }

def Foot.disWindTick : Nat := 0x6904020E40000000000000000000000000000000000000000000000000000000000000000000000002000000000000000004000800000010
theorem State.disWindTick_frame {s : State} {x1 : Nat} :
    Frame Foot.disWindTick s (State.disWindTick s x1) := by
  have h0 := Frame.refl Foot.disWindTick s
  unfold State.disWindTick
  refine Frame.ite ?_ ?_
  · exact h0
  · refine Frame.ite ?_ ?_
    · refine Frame.step State.dropWinding_frame ?_
      exact h0
    · refine Frame.ite ?_ ?_
      · refine Frame.step State.dropWinding_frame ?_
        exact h0
      · exact h0

def Foot.disFallback : Nat := 0x2A000000000000000000000000000000000000000000000000000000000000000000000000002000000000000000000000000000000
theorem State.disFallback_frame {s : State} :
    Frame Foot.disFallback s (State.disFallback s) := by
  have h0 := Frame.refl Foot.disFallback s
  unfold State.disFallback
  refine Frame.ite ?_ ?_
  · extract_lets a1 a2
    have h3 : Frame Foot.disFallback s a2 := by
      exact { h0 with dis := fun hb => absurd hb (by decide) }
    clear_value a2
    refine Frame.ite ?_ ?_
    · refine Frame.step State.setDisRes_frame ?_
      exact h3
    · exact h3
  · exact h0

def Foot.disJudge : Nat := 0x690402AE40000000000000000000000000000000000000000000000000000000000000000000000012000000000000000004000800000010
theorem State.disJudge_frame {s : State} :
    Frame Foot.disJudge s (State.disJudge s) := by
  have h0 := Frame.refl Foot.disJudge s
  unfold State.disJudge
  extract_lets a1 a2 a3
  split
  · exact h0
  · refine Frame.ite ?_ ?_
    · refine Frame.ite ?_ ?_
      · refine Frame.step State.disDone_frame ?_
        exact h0
      · exact { h0 with dis := fun hb => absurd hb (by decide) }
    · refine Frame.ite ?_ ?_
      · refine Frame.step State.disFail_frame ?_
        exact h0
      · exact { h0 with dis := fun hb => absurd hb (by decide) }

def Foot.disBoundary : Nat := 0x690402AE4000000000000000000000000000000000000000000000000000000000000000000000001A000000000000000004000800000010
theorem State.disBoundary_frame {s : State} :
    Frame Foot.disBoundary s (State.disBoundary s) := by
  have h0 := Frame.refl Foot.disBoundary s
  unfold State.disBoundary
  refine Frame.ite ?_ ?_
  · exact h0
  · extract_lets a1 a2 a3 a4 a5
    have h6 : Frame Foot.disBoundary s a2 := by
      refine Frame.setFld ?_ (regNo_PROT_DIS_TIME)
      exact { h0 with dis := fun hb => absurd hb (by decide) }
    clear_value a2
    have h7 : Frame Foot.disBoundary s a3 := by
      refine Frame.step State.disFallback_frame ?_
      exact h6
    clear_value a3
    have h8 : Frame Foot.disBoundary s a4 := by
      refine Frame.step State.disWindTick_frame ?_
      refine Frame.step State.disWindTick_frame ?_
      refine Frame.step State.disResTick_frame ?_
      exact h7
    clear_value a4
    have h9 : Frame Foot.disBoundary s a5 := by
      refine Frame.step State.disIfNone_frame ?_
      exact h8
    clear_value a5
    refine Frame.ite ?_ ?_
    · refine Frame.step State.disJudge_frame ?_
      exact h9
    · exact h9

def Foot.disNoProgress : Nat := 0x690402AE40000000000000000000000000000000000000000000000000000000000000000000000012000000000000000004000800000010
theorem State.disNoProgress_frame {s : State} :
    Frame Foot.disNoProgress s (State.disNoProgress s) := by
  have h0 := Frame.refl Foot.disNoProgress s
  unfold State.disNoProgress
  extract_lets a1 a2
  have h3 : Frame Foot.disNoProgress s a1 := by
    refine Frame.ite ?_ ?_
    · refine Frame.step State.dropResistor_frame ?_
      exact h0
    · exact h0
  clear_value a1
  have h4 : Frame Foot.disNoProgress s a2 := by
    refine Frame.foldl ?_ (fun u5 x6 h7 => ?_)
    · exact h3
    · refine Frame.ite ?_ ?_
      · refine Frame.step State.dropWinding_frame ?_
        exact h7
      · exact h7
  clear_value a2
  refine Frame.step State.disFail_frame ?_
  exact h4

def Foot.execDischargeProgressCheck : Nat := 0x690402AE40800000000000000000000000000000000000000000000000000000000000000000000012000000000000000004000800000010
theorem execDischargeProgressCheck_frame {s : State} :
    FrameO Foot.execDischargeProgressCheck s (execDischargeProgressCheck s) := by
  have h0 := Frame.refl Foot.execDischargeProgressCheck s
  unfold execDischargeProgressCheck
  refine FrameO.ite ?_ ?_
  · refine FrameO.next ?_
    exact h0
  · extract_lets a1 a2
    have h3 : Frame Foot.execDischargeProgressCheck s a1 := by
      refine Frame.step State.at_frame ?_
      exact h0
    clear_value a1
    refine FrameO.next ?_
    refine Frame.ite ?_ ?_
    · refine Frame.step State.disNoProgress_frame ?_
      exact h3
    · exact { h3 with dis := fun hb => absurd hb (by decide) }

def Foot.execDischargeDeadline : Nat := 0x690402AE40800000000000000000000000000000000000000000000000000000000000000000000012000000000000000004000800000010
theorem execDischargeDeadline_frame {s : State} :
    FrameO Foot.execDischargeDeadline s (execDischargeDeadline s) := by
  have h0 := Frame.refl Foot.execDischargeDeadline s
  unfold execDischargeDeadline
  refine FrameO.ite ?_ ?_
  · refine FrameO.next ?_
    exact h0
  · extract_lets a1
    have h2 : Frame Foot.execDischargeDeadline s a1 := by
      refine Frame.step State.at_frame ?_
      exact h0
    clear_value a1
    refine FrameO.next ?_
    split
    · refine Frame.ite ?_ ?_
      · exact h2
      · refine Frame.step State.disFail_frame ?_
        exact h2
    · refine Frame.step State.disFail_frame ?_
      exact h2

/-! ### Isnak -/

def Foot.setLk : Nat := 0x400000000000000000000000000000000000000000000000000000000000000000000000000000000000000000000000000000000000
theorem State.setLk_frame {s : State} {x1 : Nat} {x2 : IskLink} :
    Frame Foot.setLk s (State.setLk s x1 x2) := by
  have h0 := Frame.refl Foot.setLk s
  unfold State.setLk
  exact { h0 with isk := fun hb => absurd hb (by decide) }

def Foot.setNd : Nat := 0x400000000000000000000000000000000000000000000000000000000000000000000000000000000000000000000000000000000000
theorem State.setNd_frame {s : State} {x1 : Nat} {x2 : Nat} {x3 : IskNode} :
    Frame Foot.setNd s (State.setNd s x1 x2 x3) := by
  have h0 := Frame.refl Foot.setNd s
  unfold State.setNd
  refine Frame.step State.setLk_frame ?_
  exact h0

def Foot.setLink : Nat := 0x4000000000000000000000000000000000000000000000000000000000
theorem State.setLink_frame {s : State} {x1 : Nat} {x2 : Nat} :
    Frame Foot.setLink s (State.setLink s x1 x2) := by
  have h0 := Frame.refl Foot.setLink s
  unfold State.setLink
  refine Frame.setFld ?_ (regNo_ISK_LINKl_STAT _)
  exact h0

def Foot.send : Nat := 0x400000000000000000000000000000000000000000000000000000000000000000000000000000000000000000000000000000000000
theorem State.send_frame {s : State} {x1 : Nat} {x2 : List Nat} :
    Frame Foot.send s (State.send s x1 x2) := by
  have h0 := Frame.refl Foot.send s
  unfold State.send
  refine Frame.step State.setLk_frame ?_
  exact h0

def Foot.linkDown : Nat := 0x610401AE400000000000000000000000000000000000000000000000000000010000000000000000000101781A0000000004000800000010
theorem State.linkDown_frame {s : State} {x1 : Nat} {x2 : Nat} :
    Frame Foot.linkDown s (State.linkDown s x1 x2) := by
  have h0 := Frame.refl Foot.linkDown s
  unfold State.linkDown
  refine Frame.ite ?_ ?_
  · exact h0
  · refine Frame.step State.raise_frame ?_
    exact h0

def Foot.loseLink : Nat := 0x610441AE400000000000000000000000000000000000000000000040000000010000000000000000000101781A0000000004000800000010
theorem State.loseLink_frame {s : State} {x1 : Nat} {x2 : Nat} :
    Frame Foot.loseLink s (State.loseLink s x1 x2) := by
  have h0 := Frame.refl Foot.loseLink s
  unfold State.loseLink
  extract_lets a1 a2
  have h3 : Frame Foot.loseLink s a1 := by
    refine Frame.step State.event_frame ?_
    refine Frame.step State.setLink_frame ?_
    exact h0
  clear_value a1
  refine Frame.step State.linkDown_frame ?_
  refine Frame.step State.setLk_frame ?_
  exact h3

def Foot.linkUp : Nat := 0x6104402E40000000000000000000000000000000000000000000004000000000000000000000000000000060000000000004000800000010
theorem State.linkUp_frame {s : State} {x1 : Nat} :
    Frame Foot.linkUp s (State.linkUp s x1) := by
  have h0 := Frame.refl Foot.linkUp s
  unfold State.linkUp
  extract_lets a1 a2
  have h3 : Frame Foot.linkUp s a2 := by
    refine Frame.step State.setLk_frame ?_
    refine Frame.step State.setLink_frame ?_
    exact h0
  clear_value a2
  refine Frame.step State.event_frame ?_
  refine Frame.step State.endCause_frame ?_
  exact h3

def Foot.linkEnable : Nat := 0x610441AE400000000000000000000000000000000000000000000060000000010000000000000000000101781A0000000004000800000010
theorem State.linkEnable_frame {s : State} {x1 : Nat} :
    Frame Foot.linkEnable s (State.linkEnable s x1) := by
  have h0 := Frame.refl Foot.linkEnable s
  unfold State.linkEnable
  extract_lets a1 a2
  have h3 : Frame Foot.linkEnable s a2 := by
    refine Frame.step State.setLk_frame ?_
    exact h0
  clear_value a2
  refine Frame.ite ?_ ?_
  · refine Frame.step State.event_frame ?_
    refine Frame.setFld ?_ (regNo_ISK_LINKl_CFG _)
    exact h0
  · refine Frame.step State.linkDown_frame ?_
    refine Frame.step State.setLink_frame ?_
    exact h3

def Foot.linkDisable : Nat := 0x402000000000000000000000000000000000000000000000004000000000000000000000000000000060000000000000000000000000
theorem State.linkDisable_frame {s : State} {x1 : Nat} :
    Frame Foot.linkDisable s (State.linkDisable s x1) := by
  have h0 := Frame.refl Foot.linkDisable s
  unfold State.linkDisable
  extract_lets a1 a2
  have h3 : Frame Foot.linkDisable s a1 := by
    refine Frame.step State.setLink_frame ?_
    refine Frame.step State.setLk_frame ?_
    exact h0
  clear_value a1
  have h4 : Frame Foot.linkDisable s a2 := by
    refine Frame.foldl ?_ (fun u5 x6 h7 => ?_)
    · exact h3
    · refine Frame.step State.endCause_frame ?_
      exact h7
  clear_value a2
  refine Frame.step State.endCause_frame ?_
  refine Frame.step State.endCause_frame ?_
  exact h4

def Foot.linkCfgWritten : Nat := 0x610441AE400000000000000000000000000000000000000000000060000000010000000000000000000101781A0000000004000800000010
theorem State.linkCfgWritten_frame {s : State} {x1 : Nat} {x2 : Word} :
    Frame Foot.linkCfgWritten s (State.linkCfgWritten s x1 x2) := by
  have h0 := Frame.refl Foot.linkCfgWritten s
  unfold State.linkCfgWritten
  extract_lets a1
  refine Frame.ite ?_ ?_
  · refine Frame.step State.linkEnable_frame ?_
    exact h0
  · refine Frame.ite ?_ ?_
    · refine Frame.step State.linkDisable_frame ?_
      exact h0
    · exact h0

def Foot.sendPlan : Nat := 0x400000000000000000000000000000000000000000000000008000000000000000000000000000000000000000000000000000000000
theorem State.sendPlan_frame {s : State} {x1 : Nat} {x2 : Nat} {x3 : Bool} :
    Frame Foot.sendPlan s (State.sendPlan s x1 x2 x3) := by
  have h0 := Frame.refl Foot.sendPlan s
  unfold State.sendPlan
  extract_lets a1
  have h2 : Frame Foot.sendPlan s a1 := by
    refine Frame.count ?_ (regNo_ISK_LINKl_CNT _)
    exact h0
  clear_value a1
  refine Frame.step State.send_frame ?_
  exact h2

def Foot.execIskEdgePlanSend : Nat := 0x400000800000000000000000000000000000000000000000008000000000000000000000000000000000000000000000000000000000
theorem execIskEdgePlanSend_frame {s : State} {x0 : Fin 2} :
    FrameO Foot.execIskEdgePlanSend s (execIskEdgePlanSend x0 s) := by
  have h0 := Frame.refl Foot.execIskEdgePlanSend s
  unfold execIskEdgePlanSend
  refine FrameO.next ?_
  refine Frame.ite ?_ ?_
  · refine Frame.step State.sendPlan_frame ?_
    refine Frame.step State.atTick_frame ?_
    exact h0
  · exact h0

def Foot.execIskCollectionSend : Nat := 0x400000800000000000000000000000000000000000000000000000000000000000000000000000000000000000000000000000000000
theorem execIskCollectionSend_frame {s : State} {x0 : Fin 2} :
    FrameO Foot.execIskCollectionSend s (execIskCollectionSend x0 s) := by
  have h0 := Frame.refl Foot.execIskCollectionSend s
  unfold execIskCollectionSend
  refine FrameO.next ?_
  refine Frame.ite ?_ ?_
  · extract_lets a1 a2
    have h3 : Frame Foot.execIskCollectionSend s a1 := by
      refine Frame.step State.send_frame ?_
      refine Frame.step State.atTick_frame ?_
      exact h0
    clear_value a1
    refine Frame.step State.setLk_frame ?_
    exact h3
  · exact h0

def Foot.execIskIdleHeartbeat : Nat := 0x6104402E4080000000000000000000000000000000000000000000C000000000000000000000000000000060000000000004000800000010
theorem execIskIdleHeartbeat_frame {s : State} {x0 : Fin 2} {x1 : Nat} :
    FrameO Foot.execIskIdleHeartbeat s (execIskIdleHeartbeat x0 x1 s) := by
  have h0 := Frame.refl Foot.execIskIdleHeartbeat s
  unfold execIskIdleHeartbeat
  refine FrameO.ite ?_ ?_
  · refine FrameO.next ?_
    exact h0
  · extract_lets a1 a2
    have h3 : Frame Foot.execIskIdleHeartbeat s a1 := by
      refine Frame.step State.at_frame ?_
      exact h0
    clear_value a1
    have h4 : Frame Foot.execIskIdleHeartbeat s a2 := by
      refine Frame.ite ?_ ?_
      · refine Frame.step State.linkUp_frame ?_
        exact h3
      · exact h3
    clear_value a2
    refine FrameO.next ?_
    refine Frame.ite ?_ ?_
    · refine Frame.step State.sendPlan_frame ?_
      exact h4
    · exact h4

def Foot.nodeFault : Nat := 0x610401AE400000000000000000000000000000000000000000000000000000010000000000000000000101781A0000000004000800000010
theorem State.nodeFault_frame {s : State} {x1 : Nat} {x2 : Nat} {x3 : Nat} {x4 : Nat} :
    Frame Foot.nodeFault s (State.nodeFault s x1 x2 x3 x4) := by
  have h0 := Frame.refl Foot.nodeFault s
  unfold State.nodeFault
  extract_lets a1
  have h2 : Frame Foot.nodeFault s a1 := by
    refine Frame.step State.event_frame ?_
    exact h0
  clear_value a1
  refine Frame.ite ?_ ?_
  · exact h2
  · refine Frame.step State.raise_frame ?_
    exact h2

def Foot.slotFails : Nat := 0x610441AE400000000000000000000000000000000000000000000080000000010000000000000000000101781A0000000004000800000010
theorem State.slotFails_frame {s : State} {x1 : Nat} {x2 : Nat} :
    Frame Foot.slotFails s (State.slotFails s x1 x2) := by
  have h0 := Frame.refl Foot.slotFails s
  unfold State.slotFails
  extract_lets a1 a2 a3 a4 a5
  have h6 : Frame Foot.slotFails s a2 := by
    refine Frame.count ?_ (regNo_ISK_LINKl_CNT _)
    exact h0
  clear_value a2
  have h7 : Frame Foot.slotFails s a4 := by
    refine Frame.ite ?_ ?_
    · refine Frame.step State.event_frame ?_
      refine Frame.step State.setNd_frame ?_
      exact h6
    · refine Frame.step State.setNd_frame ?_
      exact h6
  clear_value a4
  refine Frame.ite ?_ ?_
  · refine Frame.step State.nodeFault_frame ?_
    refine Frame.step State.setNd_frame ?_
    exact h7
  · exact h7

def Foot.planNack : Nat := 0x6104400E40000000000000000000000000000000000000000000008000000000000000000000000000000000000000000004000800000010
theorem State.planNack_frame {s : State} {x1 : Nat} {x2 : Nat} {x3 : Nat} :
    Frame Foot.planNack s (State.planNack s x1 x2 x3) := by
  have h0 := Frame.refl Foot.planNack s
  unfold State.planNack
  extract_lets a1 a2
  have h3 : Frame Foot.planNack s a1 := by
    refine Frame.count ?_ (regNo_ISK_LINKl_CNT _)
    exact h0
  clear_value a1
  refine Frame.ite ?_ ?_
  · refine Frame.step State.event_frame ?_
    refine Frame.step State.setNd_frame ?_
    exact h3
  · exact h3

def Foot.slotValid : Nat := 0x610441AE400000000000000000000000000000000000000000000000000000010000000000000000000101781A0000000004000800000010
theorem State.slotValid_frame {s : State} {x1 : Nat} {x2 : Nat} {x3 : Nat} {x4 : Nat} {x5 : Nat} :
    Frame Foot.slotValid s (State.slotValid s x1 x2 x3 x4 x5) := by
  have h0 := Frame.refl Foot.slotValid s
  unfold State.slotValid
  extract_lets a1 a2 a3 a4
  have h5 : Frame Foot.slotValid s a3 := by
    refine Frame.step State.setNd_frame ?_
    exact h0
  clear_value a3
  have h6 : Frame Foot.slotValid s a4 := by
    refine Frame.ite ?_ ?_
    · refine Frame.step State.nodeFault_frame ?_
      exact h5
    · exact h5
  clear_value a4
  refine Frame.ite ?_ ?_
  · exact h6
  · refine Frame.step State.endCause_frame ?_
    exact h6

def Foot.judgeSlot : Nat := 0x610441AE400000000000000000000000000000000000000000000080000000010000000000000000000101781A0000000004000800000010
theorem State.judgeSlot_frame {s : State} {x1 : Nat} {x2 : Nat} {x3 : List Nat} :
    Frame Foot.judgeSlot s (State.judgeSlot s x1 x2 x3) := by
  have h0 := Frame.refl Foot.judgeSlot s
  unfold State.judgeSlot
  split
  · refine Frame.ite ?_ ?_
    · extract_lets a1
      have h2 : Frame Foot.judgeSlot s a1 := by
        refine Frame.step State.slotValid_frame ?_
        exact h0
      clear_value a1
      refine Frame.ite ?_ ?_
      · refine Frame.step State.planNack_frame ?_
        exact h2
      · exact h2
    · refine Frame.step State.slotFails_frame ?_
      exact h0
  · refine Frame.step State.slotFails_frame ?_
    exact h0

def Foot.judgeSlots : Nat := 0x610441AE400000000000000000000000000000000000000000000080000000010000000000000000000101781A0000000004000800000010
theorem State.judgeSlots_frame {s : State} {x1 : Nat} {x2 : List (List Nat)} :
    Frame Foot.judgeSlots s (State.judgeSlots s x1 x2) := by
  have h0 := Frame.refl Foot.judgeSlots s
  unfold State.judgeSlots
  refine Frame.foldl ?_ (fun u1 x2 h3 => ?_)
  · exact h0
  · refine Frame.step State.judgeSlot_frame ?_
    exact h3

def Foot.execIskCollectionJudge : Nat := 0x610441AE408000000000000000000000000000000000000000000080000000010000000000000000000101781A0000000004000800000010
theorem execIskCollectionJudge_frame {s : State} {x0 : Fin 2} {x1 : List (List Nat)} {x2 : Nat} :
    FrameO Foot.execIskCollectionJudge s (execIskCollectionJudge x0 x1 x2 s) := by
  have h0 := Frame.refl Foot.execIskCollectionJudge s
  unfold execIskCollectionJudge
  refine FrameO.ite ?_ ?_
  · refine FrameO.next ?_
    exact h0
  · extract_lets a1 a2 a3
    have h4 : Frame Foot.execIskCollectionJudge s a1 := by
      refine Frame.step State.at_frame ?_
      exact h0
    clear_value a1
    have h5 : Frame Foot.execIskCollectionJudge s a3 := by
      refine Frame.step State.setLk_frame ?_
      exact h4
    clear_value a3
    refine FrameO.next ?_
    refine Frame.step State.judgeSlots_frame ?_
    refine Frame.step State.endCause_frame ?_
    exact h5

def Foot.enumerated : Nat := 0x610441AE400000000000000000000000000000000000000000000040000000010000000000000000000101781A0000000004000800000010
theorem State.enumerated_frame {s : State} {x1 : Nat} {x2 : Option Nat} :
    Frame Foot.enumerated s (State.enumerated s x1 x2) := by
  have h0 := Frame.refl Foot.enumerated s
  unfold State.enumerated
  extract_lets a1 a2 a3 a4
  have h5 : Frame Foot.enumerated s a1 := by
    dsimp -zeta only [a1]
    split
    · refine Frame.setFld ?_ (regNo_ISK_LINKl_STAT _)
      exact h0
    · exact h0
  have h6 : Frame Foot.enumerated s a4 := by
    refine Frame.step State.setLk_frame ?_
    exact h5
  refine Frame.ite ?_ ?_
  · refine Frame.step State.setLk_frame ?_
    exact h5
  · refine Frame.ite ?_ ?_
    · refine Frame.step State.loseLink_frame ?_
      exact h6
    · exact h6

def Foot.execIskEnumeration : Nat := 0x610441AE408000000000000000000000000000000000000000000040000000010000000000000000000101781A0000000004000800000010
theorem execIskEnumeration_frame {s : State} {x0 : Fin 2} {x1 : Option Nat} {x2 : Nat} :
    FrameO Foot.execIskEnumeration s (execIskEnumeration x0 x1 x2 s) := by
  have h0 := Frame.refl Foot.execIskEnumeration s
  unfold execIskEnumeration
  extract_lets a1
  refine FrameO.next ?_
  refine Frame.ite ?_ ?_
  · refine Frame.step State.enumerated_frame ?_
    refine Frame.step State.send_frame ?_
    refine Frame.step State.at_frame ?_
    exact h0
  · exact h0

def Foot.frameMissing : Nat := 0x610441AE4000000000000000000000000000000000000000000000C0000000010000000000000000000101781A0000000004000800000010
theorem State.frameMissing_frame {s : State} {x1 : Nat} :
    Frame Foot.frameMissing s (State.frameMissing s x1) := by
  have h0 := Frame.refl Foot.frameMissing s
  unfold State.frameMissing
  extract_lets a1 a2 a3 a4
  have h5 : Frame Foot.frameMissing s a3 := by
    refine Frame.step State.setLk_frame ?_
    refine Frame.count ?_ (regNo_ISK_LINKl_CNT _)
    exact h0
  clear_value a3
  have h6 : Frame Foot.frameMissing s a4 := by
    refine Frame.step State.linkDown_frame ?_
    exact h5
  clear_value a4
  refine Frame.ite ?_ ?_
  · refine Frame.step State.loseLink_frame ?_
    exact h6
  · exact h6

def Foot.ageNodes : Nat := 0x400000000000000000000000000000000000000000000000000000000000000000000000000000000000000000000000000000000000
theorem State.ageNodes_frame {s : State} {x1 : Nat} :
    Frame Foot.ageNodes s (State.ageNodes s x1) := by
  have h0 := Frame.refl Foot.ageNodes s
  unfold State.ageNodes
  refine Frame.foldl ?_ (fun u1 x2 h3 => ?_)
  · exact h0
  · refine Frame.step State.setNd_frame ?_
    exact h3

def Foot.linkBoundary : Nat := 0x610441AE4000000000000000000000000000000000000000000000C0000000010000000000000000000101781A0000000004000800000010
theorem State.linkBoundary_frame {s : State} {x1 : Nat} :
    Frame Foot.linkBoundary s (State.linkBoundary s x1) := by
  have h0 := Frame.refl Foot.linkBoundary s
  unfold State.linkBoundary
  refine Frame.ite ?_ ?_
  · exact h0
  · extract_lets a1 a2 a3
    have h4 : Frame Foot.linkBoundary s a1 := by
      refine Frame.setFld ?_ (regNo_ISK_LINKl_STAT _)
      exact h0
    clear_value a1
    have h5 : Frame Foot.linkBoundary s a2 := by
      refine Frame.step State.ageNodes_frame ?_
      exact h4
    clear_value a2
    have h6 : Frame Foot.linkBoundary s a3 := by
      refine Frame.ite ?_ ?_
      · refine Frame.step State.frameMissing_frame ?_
        exact h5
      · exact h5
    clear_value a3
    refine Frame.ite ?_ ?_
    · refine Frame.step State.linkUp_frame ?_
      exact h6
    · exact h6

def Foot.publishLink : Nat := 0x24000000000000000000000000000000000000000000000000000000000
theorem State.publishLink_frame {s : State} {x1 : Nat} :
    Frame Foot.publishLink s (State.publishLink s x1) := by
  have h0 := Frame.refl Foot.publishLink s
  unfold State.publishLink
  refine Frame.ite ?_ ?_
  · exact h0
  · extract_lets a1
    have h2 : Frame Foot.publishLink s a1 := by
      refine Frame.foldl ?_ (fun u3 x4 h5 => ?_)
      · exact h0
      · extract_lets a6
        refine Frame.setReg ?_ (regNo_ISK_NODEl_n _ _)
        exact h5
    clear_value a1
    refine Frame.setFld ?_ (regNo_ISK_LINKl_STAT _)
    exact h2

def Foot.judgeBroadcast : Nat := 0x610441AE400000000000000000000000000000000000000000000040000000010000000000000000000101781A0000000004000800000010
theorem State.judgeBroadcast_frame {s : State} {x1 : Nat} :
    Frame Foot.judgeBroadcast s (State.judgeBroadcast s x1) := by
  have h0 := Frame.refl Foot.judgeBroadcast s
  unfold State.judgeBroadcast
  extract_lets a1 a2 a3
  have h4 : Frame Foot.judgeBroadcast s a3 := by
    refine Frame.step State.setLk_frame ?_
    exact h0
  clear_value a3
  refine Frame.ite ?_ ?_
  · refine Frame.step State.loseLink_frame ?_
    exact h4
  · exact h4

def Foot.execIsk1Broadcast : Nat := 0x610441AE408000000000000000000000000000000000000000000040000000010000000000000000000101781A0000000004000800000010
theorem execIsk1Broadcast_frame {s : State} {x0 : Fin 2} :
    FrameO Foot.execIsk1Broadcast s (execIsk1Broadcast x0 s) := by
  have h0 := Frame.refl Foot.execIsk1Broadcast s
  unfold execIsk1Broadcast
  refine FrameO.ite ?_ ?_
  · refine FrameO.next ?_
    exact h0
  · extract_lets a1 a2
    have h3 : Frame Foot.execIsk1Broadcast s a1 := by
      refine Frame.step State.judgeBroadcast_frame ?_
      refine Frame.step State.atTick_frame ?_
      exact h0
    clear_value a1
    refine FrameO.next ?_
    refine Frame.ite ?_ ?_
    · refine Frame.step State.send_frame ?_
      exact h3
    · exact h3

def Foot.judgeReply : Nat := 0x610441AE400000000000000000000000000000000000000000000080000000010000000000000000000101781A0000000004000800000010
theorem State.judgeReply_frame {s : State} {x1 : Nat} {x2 : Nat} {x3 : Option (List Nat)} :
    Frame Foot.judgeReply s (State.judgeReply s x1 x2 x3) := by
  have h0 := Frame.refl Foot.judgeReply s
  unfold State.judgeReply
  split
  · refine Frame.ite ?_ ?_
    · refine Frame.step State.slotValid_frame ?_
      exact h0
    · refine Frame.step State.slotFails_frame ?_
      exact h0
  · refine Frame.step State.slotFails_frame ?_
    exact h0

def Foot.execIsk1Poll : Nat := 0x610441AE408000000000000000000000000000000000000000000080000000010000000000000000000101781A0000000004000800000010
theorem execIsk1Poll_frame {s : State} {x0 : Fin 2} {x1 : Option (List Nat)} {x2 : Nat} :
    FrameO Foot.execIsk1Poll s (execIsk1Poll x0 x1 x2 s) := by
  have h0 := Frame.refl Foot.execIsk1Poll s
  unfold execIsk1Poll
  refine FrameO.ite ?_ ?_
  · refine FrameO.next ?_
    exact h0
  · extract_lets a1 a2 a3 a4 a5 a6
    have h7 : Frame Foot.execIsk1Poll s a4 := by
      refine Frame.step State.send_frame ?_
      refine Frame.step State.at_frame ?_
      exact h0
    clear_value a4
    have h8 : Frame Foot.execIsk1Poll s a6 := by
      refine Frame.step State.setLk_frame ?_
      exact h7
    clear_value a6
    refine FrameO.next ?_
    refine Frame.step State.judgeReply_frame ?_
    exact h8

/-! ### Thermal -/

def Foot.setLeg : Nat := 0x800000000000000000000000000000000000000000000000000000000000000000000000000000000000000000000000000000000000
theorem State.setLeg_frame {s : State} {x1 : Nat} {x2 : ThmLeg} :
    Frame Foot.setLeg s (State.setLeg s x1 x2) := by
  have h0 := Frame.refl Foot.setLeg s
  unfold State.setLeg
  exact { h0 with thm := fun hb => absurd hb (by decide) }

def Foot.setTunit : Nat := 0x800000000000000000000000000000000000000000000000000000000000000000000000000000000000000000000000000000000000
theorem State.setTunit_frame {s : State} {x1 : Nat} {x2 : ThmUnit} :
    Frame Foot.setTunit s (State.setTunit s x1 x2) := by
  have h0 := Frame.refl Foot.setTunit s
  unfold State.setTunit
  exact { h0 with thm := fun hb => absurd hb (by decide) }

def Foot.legInputs : Nat := 0x6104800E40000000000000000000000000000000000000000000400000000000000000000000000000000000000000000004000800000010
theorem State.legInputs_frame {s : State} {x1 : Nat} :
    Frame Foot.legInputs s (State.legInputs s x1) := by
  have h0 := Frame.refl Foot.legInputs s
  unfold State.legInputs
  extract_lets a1 a2 a3 a4 a5
  have h6 : Frame Foot.legInputs s a5 := by
    refine Frame.step State.setLeg_frame ?_
    exact h0
  clear_value a5
  split
  · refine Frame.step State.f2Ends_frame ?_
    refine Frame.step State.setLeg_frame ?_
    exact h0
  · refine Frame.ite ?_ ?_
    · refine Frame.step State.event_frame ?_
      refine Frame.count ?_ (regNo_THM_CNT)
      refine Frame.step State.f2Begins_frame ?_
      exact h6
    · exact h6

def Foot.putLoss : Nat := 0x300000000000000000000000000000000000000000000000000000000000000
theorem State.putLoss_frame {s : State} {x1 : Nat} :
    Frame Foot.putLoss s (State.putLoss s x1) := by
  have h0 := Frame.refl Foot.putLoss s
  unfold State.putLoss
  extract_lets a1
  refine Frame.setReg ?_ (regNo_THM_LEGk_PDI _)
  refine Frame.setReg ?_ (regNo_THM_LEGk_PSW _)
  exact h0

def Foot.putAnchors : Nat := 0x800000000000000000000000000000000000000000000000000000000000000
theorem State.putAnchors_frame {s : State} :
    Frame Foot.putAnchors s (State.putAnchors s) := by
  have h0 := Frame.refl Foot.putAnchors s
  unfold State.putAnchors
  refine Frame.foldl ?_ (fun u1 x2 h3 => ?_)
  · exact h0
  · split
    · refine Frame.setReg ?_ (regNo_THM_ANCHa_T _)
      exact h3
    · exact h3

def Foot.putRef : Nat := 0x6104800E40000000000000000000000000000000000000000000400000000000000000000000000000000000000000000004000800000010
theorem State.putRef_frame {s : State} {x1 : Nat} :
    Frame Foot.putRef s (State.putRef s x1) := by
  have h0 := Frame.refl Foot.putRef s
  unfold State.putRef
  extract_lets a1
  split
  extract_lets a2 a3
  have h4 : Frame Foot.putRef s a2 := by
    refine Frame.step State.setLeg_frame ?_
    exact h0
  clear_value a2
  have h5 : Frame Foot.putRef s a3 := by
    refine Frame.ite ?_ ?_
    · refine Frame.step State.f2Ends_frame ?_
      exact h4
    · refine Frame.step State.f2Begins_frame ?_
      exact h4
  clear_value a3
  refine Frame.ite ?_ ?_
  · exact h4
  · refine Frame.step State.event_frame ?_
    refine Frame.count ?_ (regNo_THM_CNT)
    exact h5

def Foot.putNodes : Nat := 0x8000000000000000000000000000000000000000000000C0000000000000000000000000000000000000000000000000000000000000
theorem State.putNodes_frame {s : State} {x1 : Nat} :
    Frame Foot.putNodes s (State.putNodes s x1) := by
  have h0 := Frame.refl Foot.putNodes s
  unfold State.putNodes
  extract_lets a1 a2 a3 a4 a5 a6
  have h7 : Frame Foot.putNodes s a6 := by
    refine Frame.step State.setLeg_frame ?_
    exact h0
  clear_value a6
  refine Frame.setReg ?_ (regNo_THM_LEGk_TDI _)
  refine Frame.setReg ?_ (regNo_THM_LEGk_TSW _)
  exact h7

def Foot.putChip : Nat := 0x800000000000000000000000000000000000000000000006000000000000000000000000000000000000000000000000000000000000
theorem State.putChip_frame {s : State} {x1 : Word} {x2 : Word} {x3 : Word} :
    Frame Foot.putChip s (State.putChip s x1 x2 x3) := by
  have h0 := Frame.refl Foot.putChip s
  unfold State.putChip
  extract_lets a1 a2 a3 a4 a5
  have h6 : Frame Foot.putChip s a5 := by
    exact { h0 with thm := fun hb => absurd hb (by decide) }
  clear_value a5
  refine Frame.setReg ?_ (regNo_THM_CHIP_T)
  refine Frame.setReg ?_ (regNo_THM_CHIP_P)
  exact h6

def Foot.thmChange : Nat := 0x610401AE400000000000000000000000000000000000000000005000000000010000000000000000000101781A0000000004000800000010
theorem State.thmChange_frame {s : State} {x1 : Nat} {x2 : Nat} {x3 : Nat} {x4 : Rat} :
    Frame Foot.thmChange s (State.thmChange s x1 x2 x3 x4) := by
  have h0 := Frame.refl Foot.thmChange s
  unfold State.thmChange
  extract_lets a1 a2 a3 a4
  have h5 : Frame Foot.thmChange s a2 := by
    refine Frame.count ?_ (regNo_THM_CNT)
    refine Frame.setFld ?_ (regNo_THM_STAT)
    exact h0
  clear_value a2
  have h6 : Frame Foot.thmChange s a4 := by
    refine Frame.step State.event_frame ?_
    exact h5
  clear_value a4
  refine Frame.ite ?_ ?_
  · exact h0
  · refine Frame.ite ?_ ?_
    · refine Frame.step State.raise_frame ?_
      exact h6
    · exact h6

def Foot.evalUnit : Nat := 0x610481AE400000000000000000000000000000000000000000005000000000010000000000000000000101781A0000000004000800000010
theorem State.evalUnit_frame {s : State} {x1 : Nat} :
    Frame Foot.evalUnit s (State.evalUnit s x1) := by
  have h0 := Frame.refl Foot.evalUnit s
  unfold State.evalUnit
  split
  · exact h0
  · extract_lets a1 a2 a3
    refine Frame.step State.thmChange_frame ?_
    refine Frame.step State.setTunit_frame ?_
    exact h0

def Foot.evalChip : Nat := 0x610481AE400000000000000000000000000000000000000000005000000000010000000000000000000101781A0000000004000800000010
theorem State.evalChip_frame {s : State} :
    Frame Foot.evalChip s (State.evalChip s) := by
  have h0 := Frame.refl Foot.evalChip s
  unfold State.evalChip
  extract_lets a1 a2
  refine Frame.step State.thmChange_frame ?_
  refine Frame.step State.setTunit_frame ?_
  exact h0

def Foot.decideThermal : Nat := 0x800000000000000000000000000000000000000000000000000000000000000000000000000000000000000000000000000000000000
theorem State.decideThermal_frame {s : State} :
    Frame Foot.decideThermal s (State.decideThermal s) := by
  have h0 := Frame.refl Foot.decideThermal s
  unfold State.decideThermal
  extract_lets a1 a2
  exact { h0 with thm := fun hb => absurd hb (by decide) }

def Foot.thermalOff : Nat := 0x800000000000000000000000000000000000000000000000100000000000000000000000000000000000000000000000000000000000
theorem State.thermalOff_frame {s : State} :
    Frame Foot.thermalOff s (State.thermalOff s) := by
  have h0 := Frame.refl Foot.thermalOff s
  unfold State.thermalOff
  extract_lets a1 a2
  have h3 : Frame Foot.thermalOff s a1 := by
    refine Frame.foldl ?_ (fun u4 x5 h6 => ?_)
    · exact h0
    · refine Frame.step State.setTunit_frame ?_
      refine Frame.setFld ?_ (regNo_THM_STAT)
      exact h6
  clear_value a1
  exact { h3 with thm := fun hb => absurd hb (by decide) }

def Foot.thermalRun : Nat := 0x610481AE40000000000000000000000000000000000000000BC65000000000010000000000000000000101781A0000000004000800000010
theorem State.thermalRun_frame {s : State} {x1 : Word} {x2 : Word} {x3 : Word} :
    Frame Foot.thermalRun s (State.thermalRun s x1 x2 x3) := by
  have h0 := Frame.refl Foot.thermalRun s
  unfold State.thermalRun
  extract_lets a1 a2 a3 a4 a5 a6
  have h7 : Frame Foot.thermalRun s a2 := by
    refine Frame.step State.putAnchors_frame ?_
    exact h0
  clear_value a2
  have h8 : Frame Foot.thermalRun s a3 := by
    refine Frame.foldl ?_ (fun u9 x10 h11 => ?_)
    · exact h7
    · refine Frame.step State.putLoss_frame ?_
      refine Frame.step State.legInputs_frame ?_
      exact h11
  clear_value a3
  have h12 : Frame Foot.thermalRun s a4 := by
    refine Frame.foldl ?_ (fun u13 x14 h15 => ?_)
    · exact h8
    · refine Frame.step State.putNodes_frame ?_
      refine Frame.step State.putRef_frame ?_
      exact h15
  clear_value a4
  have h16 : Frame Foot.thermalRun s a5 := by
    refine Frame.step State.putChip_frame ?_
    exact h12
  clear_value a5
  have h17 : Frame Foot.thermalRun s a6 := by
    refine Frame.foldl ?_ (fun u18 x19 h20 => ?_)
    · exact h16
    · refine Frame.step State.evalUnit_frame ?_
      exact h20
  clear_value a6
  refine Frame.step State.decideThermal_frame ?_
  refine Frame.step State.evalChip_frame ?_
  exact h17

def Foot.publishThermal : Nat := 0x800000000000000000000000000000000000000000000000000000000000000000000000000000000000000000000000000000000000000
theorem State.publishThermal_frame {s : State} {x1 : List Word} :
    Frame Foot.publishThermal s (State.publishThermal s x1) := by
  have h0 := Frame.refl Foot.publishThermal s
  unfold State.publishThermal
  extract_lets a1 a2
  have h3 : Frame Foot.publishThermal s a1 := by
    refine Frame.foldl ?_ (fun u4 x5 h6 => ?_)
    · exact h0
    · refine Frame.step State.publish_frame ?_
      refine Frame.step State.publishReal_frame ?_
      exact h6
  clear_value a1
  have h7 : Frame Foot.publishThermal s a2 := by
    refine Frame.step State.publish_frame ?_
    refine Frame.step State.publish_frame ?_
    exact h3
  clear_value a2
  refine Frame.step State.publish_frame ?_
  refine Frame.step State.publish_frame ?_
  exact h7

def Foot.thermal : Nat := 0x690481AE40000000000000000000000000000000000000000BC65000000000010000000000000000000101781A0000000004000800000010
theorem State.thermal_frame {s : State} {x1 : Word} {x2 : Word} {x3 : Word} :
    Frame Foot.thermal s (State.thermal s x1 x2 x3) := by
  have h0 := Frame.refl Foot.thermal s
  unfold State.thermal
  extract_lets a1 a2
  have h3 : Frame Foot.thermal s a2 := by
    refine Frame.ite ?_ ?_
    · refine Frame.step State.thermalRun_frame ?_
      exact h0
    · refine Frame.step State.thermalOff_frame ?_
      exact h0
  clear_value a2
  refine Frame.step State.publishThermal_frame ?_
  exact h3

def Foot.thermalBoundary : Nat := 0x10802000000000000000000000000000000000000000000000100000000000000000000000000000000060000000000000000000000000
theorem State.thermalBoundary_frame {s : State} :
    Frame Foot.thermalBoundary s (State.thermalBoundary s) := by
  have h0 := Frame.refl Foot.thermalBoundary s
  unfold State.thermalBoundary
  extract_lets a1 a2 a3 a4 a5
  have h6 : Frame Foot.thermalBoundary s a3 := by
    exact { h0 with thm := fun hb => absurd hb (by decide), eng := fun hb => absurd hb (by decide) }
  clear_value a3
  have h7 : Frame Foot.thermalBoundary s a4 := by
    refine Frame.setFld ?_ (regNo_THM_STAT)
    refine Frame.setFld ?_ (regNo_THM_STAT)
    refine Frame.setFld ?_ (regNo_THM_STAT)
    exact h6
  clear_value a4
  have h8 : Frame Foot.thermalBoundary s a5 := by
    refine Frame.foldl ?_ (fun u9 x10 h11 => ?_)
    · exact h7
    · refine Frame.ite ?_ ?_
      · exact h11
      · refine Frame.step State.endCause_frame ?_
        exact h11
  clear_value a5
  refine Frame.foldl ?_ (fun u12 x13 h14 => ?_)
  · exact h8
  · refine Frame.step State.setLeg_frame ?_
    exact h14

def Foot.thermalDecay : Nat := 0x800000000000000000000000000000000000000000000000000000000000000000000000000000000000000000000000000000000000
theorem State.thermalDecay_frame {s : State} {x1 : Nat} :
    Frame Foot.thermalDecay s (State.thermalDecay s x1) := by
  have h0 := Frame.refl Foot.thermalDecay s
  unfold State.thermalDecay
  extract_lets a1 a2 a3
  have h4 : Frame Foot.thermalDecay s a2 := by
    refine Frame.foldl ?_ (fun u5 x6 h7 => ?_)
    · exact h0
    · extract_lets a8
      refine Frame.step State.setLeg_frame ?_
      exact h7
  clear_value a2
  exact { h4 with thm := fun hb => absurd hb (by decide) }

end Sys2Proof.Machine
end

