-- ==== Sys2Proof/Laws/FrameComm.lean ====
section
/-! SUPPORT. What each operation can change, one lemma for one function, and the mask of the parts it names:
clocks, CAN, Ethernet, the host complex, register reads, memory scans. -/

set_option Elab.async false

namespace Sys2Proof.Machine

/-! ### Clocks -/

def Foot.setPll : Nat := 0x8000000000000000000000000000000000000000000000000000000000000000000000000000000000000000000000000000000
theorem State.setPll_frame {s : State} {x1 : Nat} {x2 : PllRun} :
    Frame Foot.setPll s (State.setPll s x1 x2) := by
  have h0 := Frame.refl Foot.setPll s
  unfold State.setPll
  exact { h0 with clk := fun hb => absurd hb (by decide) }

def Foot.setPllState : Nat := 0x80000
theorem State.setPllState_frame {s : State} {x1 : Nat} {x2 : Nat} :
    Frame Foot.setPllState s (State.setPllState s x1 x2) := by
  have h0 := Frame.refl Foot.setPllState s
  unfold State.setPllState
  refine Frame.setFld ?_ (regNo_CLK_PLLp_STAT _)
  exact h0

def Foot.setLdmv : Nat := 0x80000
theorem State.setLdmv_frame {s : State} {x1 : Nat} {x2 : Nat} :
    Frame Foot.setLdmv s (State.setLdmv s x1 x2) := by
  have h0 := Frame.refl Foot.setLdmv s
  unfold State.setLdmv
  refine Frame.setFld ?_ (regNo_CLK_PLLp_STAT _)
  exact h0

def Foot.stopCan : Nat := 0x1000000000000000000000000000000000000000000010000000000000000000000000000000000000000000000000000000000000000
theorem State.stopCan_frame {s : State} {x1 : Nat} :
    Frame Foot.stopCan s (State.stopCan s x1) := by
  have h0 := Frame.refl Foot.stopCan s
  unfold State.stopCan
  extract_lets a1 a2
  refine Frame.setFld ?_ (regNo_CAN_STAT _)
  exact { h0 with can := fun hb => absurd hb (by decide) }

def Foot.moveFabric : Nat := 0x1000000000000000000000001000000000000000000010000000000000000000000000000000000000000000000000000000000004000
theorem State.moveFabric_frame {s : State} :
    Frame Foot.moveFabric s (State.moveFabric s) := by
  have h0 := Frame.refl Foot.moveFabric s
  unfold State.moveFabric
  extract_lets a1 a2 a3
  have h4 : Frame Foot.moveFabric s a2 := by
    refine Frame.setFld ?_ (regNo_CLK_STAT)
    exact h0
  clear_value a2
  have h5 : Frame Foot.moveFabric s a3 := by
    refine Frame.setFld ?_ (regNo_BST_COND)
    exact h4
  clear_value a3
  refine Frame.ite ?_ ?_
  · exact h0
  · refine Frame.ite ?_ ?_
    · refine Frame.foldl ?_ (fun u6 x7 h8 => ?_)
      · exact h5
      · refine Frame.step State.stopCan_frame ?_
        exact h8
    · exact h5

def Foot.moveAdc : Nat := 0x8000000000000000000000000000000000000000000000000000000000000000000000000000000000000000000000000004000
theorem State.moveAdc_frame {s : State} {x1 : Bool} :
    Frame Foot.moveAdc s (State.moveAdc s x1) := by
  have h0 := Frame.refl Foot.moveAdc s
  unfold State.moveAdc
  extract_lets a1 a2 a3 a4
  have h5 : Frame Foot.moveAdc s a3 := by
    refine Frame.setFld ?_ (regNo_CLK_STAT)
    exact h0
  clear_value a3
  refine Frame.ite ?_ ?_
  · exact { h0 with clk := fun hb => absurd hb (by decide) }
  · refine Frame.ite ?_ ?_
    · exact { h5 with clk := fun hb => absurd hb (by decide) }
    · exact { h0 with clk := fun hb => absurd hb (by decide) }

def Foot.adcBoundary : Nat := 0x8000000000000000000000000000000000000000000000000000000000000000000000000000000000000000000000000004000
theorem State.adcBoundary_frame {s : State} :
    Frame Foot.adcBoundary s (State.adcBoundary s) := by
  have h0 := Frame.refl Foot.adcBoundary s
  unfold State.adcBoundary
  split
  · extract_lets a1 a2
    have h3 : Frame Foot.adcBoundary s a1 := by
      refine Frame.setFld ?_ (regNo_CLK_STAT)
      exact h0
    clear_value a1
    exact { h3 with clk := fun hb => absurd hb (by decide) }
  · exact h0

def Foot.setTbClk : Nat := 0x400000000000000000000
theorem State.setTbClk_frame {s : State} {x1 : Nat} {x2 : Nat} :
    Frame Foot.setTbClk s (State.setTbClk s x1 x2) := by
  have h0 := Frame.refl Foot.setTbClk s
  unfold State.setTbClk
  refine Frame.setFld ?_ (regNo_TBn_STAT _)
  exact h0

def Foot.moveTbNow : Nat := 0x6104004E40000000000000000000000000000000000000000000000000000000000000000000000000000000000400000004000800000010
theorem State.moveTbNow_frame {s : State} {x1 : Nat} {x2 : Nat} :
    Frame Foot.moveTbNow s (State.moveTbNow s x1 x2) := by
  have h0 := Frame.refl Foot.moveTbNow s
  unfold State.moveTbNow
  extract_lets a1 a2
  have h3 : Frame Foot.moveTbNow s a2 := by
    refine Frame.step State.setTb_frame ?_
    refine Frame.step State.setTbClk_frame ?_
    exact h0
  clear_value a2
  refine Frame.ite ?_ ?_
  · exact h3
  · refine Frame.step State.postCoarse_frame ?_
    refine Frame.setFld ?_ (regNo_TBn_STAT _)
    exact h3

def Foot.moveTb : Nat := 0x6104004E40000000000000000000000000000000000000000000000000000000000000000000000000000000000400000004000800000010
theorem State.moveTb_frame {s : State} {x0 : Option Nat} {x2 : Nat} :
    Frame Foot.moveTb s (State.moveTb x0 s x2) := by
  have h0 := Frame.refl Foot.moveTb s
  unfold State.moveTb
  extract_lets a1 a2 a3
  refine Frame.ite ?_ ?_
  · refine Frame.step State.setTb_frame ?_
    exact h0
  · refine Frame.ite ?_ ?_
    · refine Frame.step State.setTb_frame ?_
      refine Frame.step State.setTbClk_frame ?_
      exact h0
    · refine Frame.ite ?_ ?_
      · refine Frame.step State.moveTbNow_frame ?_
        exact h0
      · refine Frame.step State.setTb_frame ?_
        exact h0

def Foot.showCarry : Nat := 0x80000
theorem State.showCarry_frame {s : State} :
    Frame Foot.showCarry s (State.showCarry s) := by
  have h0 := Frame.refl Foot.showCarry s
  unfold State.showCarry
  refine Frame.setFld ?_ (regNo_CLK_PLLp_STAT _)
  refine Frame.setFld ?_ (regNo_CLK_PLLp_STAT _)
  exact h0

def Foot.moveDomains : Nat := 0x610500CE48000000000000000001000000000000000000010000000000000000000000000000000000000000000400000004000800084010
theorem State.moveDomains_frame {s : State} {x1 : Option Nat} :
    Frame Foot.moveDomains s (State.moveDomains s x1) := by
  have h0 := Frame.refl Foot.moveDomains s
  unfold State.moveDomains
  extract_lets a1 a2 a3 a4
  have h5 : Frame Foot.moveDomains s a1 := by
    refine Frame.step State.settle_frame ?_
    exact h0
  clear_value a1
  have h6 : Frame Foot.moveDomains s a3 := by
    exact { h5 with clk := fun hb => absurd hb (by decide) }
  clear_value a3
  have h7 : Frame Foot.moveDomains s a4 := by
    refine Frame.step State.showCarry_frame ?_
    refine Frame.step State.moveAdc_frame ?_
    refine Frame.step State.moveFabric_frame ?_
    exact h6
  clear_value a4
  refine Frame.foldl ?_ (fun u8 x9 h10 => ?_)
  · exact h7
  · refine Frame.step State.moveTb_frame ?_
    exact h10

def Foot.postBackup : Nat := 0x6104000E40000000000000000000000000000000000000000000000000000000000000000000000000000000000000000004000800000010
theorem State.postBackup_frame {s : State} :
    Frame Foot.postBackup s (State.postBackup s) := by
  have h0 := Frame.refl Foot.postBackup s
  unfold State.postBackup
  refine Frame.step State.event_frame ?_
  exact h0

def Foot.sgmiiDown : Nat := 0x6104000E40000000000000000000000000020000000000000000000000000000000000000000000000000000000000000004000800000010
theorem State.sgmiiDown_frame {s : State} :
    Frame Foot.sgmiiDown s (State.sgmiiDown s) := by
  have h0 := Frame.refl Foot.sgmiiDown s
  unfold State.sgmiiDown
  refine Frame.ite ?_ ?_
  · refine Frame.step State.event_frame ?_
    refine Frame.setFld ?_ (regNo_ETH_Pp_STAT _)
    exact h0
  · exact h0

def Foot.afterMoves : Nat := 0x610401AE400000000000000000000000000200000000000000000000000000010000000000000000000101781A0000000004000800004010
theorem State.afterMoves_frame {s : State} {x1 : Bool} :
    Frame Foot.afterMoves s (State.afterMoves s x1) := by
  have h0 := Frame.refl Foot.afterMoves s
  unfold State.afterMoves
  extract_lets a1 a2
  have h3 : Frame Foot.afterMoves s a1 := by
    refine Frame.ite ?_ ?_
    · refine Frame.step State.raise_frame ?_
      exact h0
    · exact h0
  clear_value a1
  have h4 : Frame Foot.afterMoves s a2 := by
    refine Frame.step State.refreshVt_frame ?_
    exact h3
  clear_value a2
  refine Frame.ite ?_ ?_
  · refine Frame.step State.sgmiiDown_frame ?_
    exact h4
  · exact h4

def Foot.pllOut : Nat := 0x8000000000000000000000000000000000000000000000000000000000000000000000000000000000000000000000000080000
theorem State.pllOut_frame {s : State} {x1 : Nat} {x2 : Nat} :
    Frame Foot.pllOut s (State.pllOut s x1 x2) := by
  have h0 := Frame.refl Foot.pllOut s
  unfold State.pllOut
  extract_lets a1
  refine Frame.step State.setPll_frame ?_
  refine Frame.step State.setPllState_frame ?_
  exact h0

def Foot.postUnlock : Nat := 0x6104000E40000000000000000000000000000000000000000000000000000000000000000000000000000000000000000004000800010010
theorem State.postUnlock_frame {s : State} {x1 : Nat} {x2 : Bool} :
    Frame Foot.postUnlock s (State.postUnlock s x1 x2) := by
  have h0 := Frame.refl Foot.postUnlock s
  unfold State.postUnlock
  refine Frame.step State.event_frame ?_
  refine Frame.count ?_ (regNo_CLK_CNT)
  exact h0

def Foot.unlockPlls : Nat := 0x610501EE480000000000000001010000000200000000000100000000000000010000000000000000000101781A0400000004000800094010
theorem State.unlockPlls_frame {s : State} {x1 : List Nat} :
    Frame Foot.unlockPlls s (State.unlockPlls s x1) := by
  have h0 := Frame.refl Foot.unlockPlls s
  unfold State.unlockPlls
  extract_lets a1 a2 a3 a4 a5 a6 a7
  have h8 : Frame Foot.unlockPlls s a2 := by
    refine Frame.foldl ?_ (fun u9 x10 h11 => ?_)
    · exact h0
    · refine Frame.step State.setUnit_frame ?_
      refine Frame.step State.pllOut_frame ?_
      exact h11
  clear_value a2
  have h12 : Frame Foot.unlockPlls s a5 := by
    refine Frame.ite ?_ ?_
    · refine Frame.step State.postUnlock_frame ?_
      exact h8
    · exact h8
  clear_value a5
  have h13 : Frame Foot.unlockPlls s a6 := by
    refine Frame.ite ?_ ?_
    · refine Frame.step State.postBackup_frame ?_
      exact h12
    · exact h12
  clear_value a6
  have h14 : Frame Foot.unlockPlls s a7 := by
    refine Frame.ite ?_ ?_
    · refine Frame.step State.postUnlock_frame ?_
      exact h13
    · exact h13
  clear_value a7
  refine Frame.step State.afterMoves_frame ?_
  refine Frame.step State.moveDomains_frame ?_
  exact h14

def Foot.restartPll : Nat := 0x408000000000000000000000000000000000000000000000000000000000000000000000000000000000000000000000000180000
theorem State.restartPll_frame {s : State} {x1 : Nat} :
    Frame Foot.restartPll s (State.restartPll s x1) := by
  have h0 := Frame.refl Foot.restartPll s
  unfold State.restartPll
  extract_lets a1 a2 a3 a4 a5
  have h6 : Frame Foot.restartPll s a2 := by
    refine Frame.step State.setPll_frame ?_
    refine Frame.step State.setPllState_frame ?_
    exact h0
  clear_value a2
  have h7 : Frame Foot.restartPll s a3 := by
    refine Frame.step State.f2Ends_frame ?_
    exact h6
  clear_value a3
  have h8 : Frame Foot.restartPll s a4 := by
    refine Frame.setReg ?_ (regNo_CLK_PLLp_OFS _)
    exact h7
  clear_value a4
  refine Frame.ite ?_ ?_
  · exact { h8 with clk := fun hb => absurd hb (by decide) }
  · exact h7

def Foot.execPllFilterCheck : Nat := 0x6104000E48000000000000000000000000000000000000000000000000000000000000000000000000000000000000000004000800180010
theorem execPllFilterCheck_frame {s : State} {x0 : Fin 2} {x1 : Nat} {x2 : Nat} :
    FrameO Foot.execPllFilterCheck s (execPllFilterCheck x0 x1 x2 s) := by
  have h0 := Frame.refl Foot.execPllFilterCheck s
  unfold execPllFilterCheck
  refine FrameO.ite ?_ ?_
  · refine FrameO.next ?_
    exact h0
  · extract_lets a1
    refine FrameO.next ?_
    refine Frame.ite ?_ ?_
    · dsimp -zeta only [a1]
      refine Frame.step State.event_frame ?_
      refine Frame.step State.f2Begins_frame ?_
      refine Frame.step State.setPll_frame ?_
      refine Frame.step State.setLdmv_frame ?_
      refine Frame.step State.setPllState_frame ?_
      exact h0
    · refine Frame.ite ?_ ?_
      · dsimp -zeta only [a1]
        refine Frame.step State.event_frame ?_
        refine Frame.step State.f2Begins_frame ?_
        refine Frame.step State.setPll_frame ?_
        refine Frame.step State.setLdmv_frame ?_
        refine Frame.step State.setPllState_frame ?_
        exact h0
      · refine Frame.step State.setLdmv_frame ?_
        refine Frame.step State.setPllState_frame ?_
        refine Frame.step State.restartPll_frame ?_
        exact h0

def Foot.execPllLockDeclared : Nat := 0x2008000000000000000100000000000000000000000000000000000000000000000000000000000060000000000000000000080000
theorem execPllLockDeclared_frame {s : State} {x0 : Fin 2} {x1 : Nat} :
    FrameO Foot.execPllLockDeclared s (execPllLockDeclared x0 x1 s) := by
  have h0 := Frame.refl Foot.execPllLockDeclared s
  unfold execPllLockDeclared
  refine FrameO.ite ?_ ?_
  · extract_lets a1 a2 a3
    have h4 : Frame Foot.execPllLockDeclared s a2 := by
      refine Frame.step State.setPll_frame ?_
      refine Frame.step State.setLdmv_frame ?_
      refine Frame.step State.setPllState_frame ?_
      exact h0
    clear_value a2
    have h5 : Frame Foot.execPllLockDeclared s a3 := by
      refine Frame.ite ?_ ?_
      · exact h4
      · refine Frame.step State.setUnit_frame ?_
        exact h4
    clear_value a3
    refine FrameO.next ?_
    refine Frame.step State.endCause_frame ?_
    exact h5
  · refine FrameO.next ?_
    exact h0

def Foot.execPllUnlock : Nat := 0x614505EE480000000000000001034000000200000000000100000000000000010000000000000000000101781A0400000004000800094010
theorem execPllUnlock_frame {s : State} {x0 : Fin 2} {x1 : Nat} :
    FrameO Foot.execPllUnlock s (execPllUnlock x0 x1 s) := by
  have h0 := Frame.refl Foot.execPllUnlock s
  unfold execPllUnlock
  refine FrameO.ite ?_ ?_
  · extract_lets a1 a2 a3
    have h4 : Frame Foot.execPllUnlock s a1 := by
      refine Frame.step State.setLdmv_frame ?_
      exact h0
    clear_value a1
    have h5 : Frame Foot.execPllUnlock s a3 := by
      refine Frame.step State.setPll_frame ?_
      refine Frame.step State.abortTest_frame ?_
      exact h4
    clear_value a3
    refine FrameO.next ?_
    refine Frame.step State.unlockPlls_frame ?_
    exact h5
  · refine FrameO.next ?_
    exact h0

def Foot.execPllFail : Nat := 0x614505EE480000000000000001034000000200000000000100000000000000010000000000000000000101781A0400000004000800084010
theorem execPllFail_frame {s : State} {x0 : Fin 2} {x1 : Bool} {x2 : Nat} :
    FrameO Foot.execPllFail s (execPllFail x0 x1 x2 s) := by
  have h0 := Frame.refl Foot.execPllFail s
  unfold execPllFail
  refine FrameO.ite ?_ ?_
  · extract_lets a1 a2 a3 a4 a5 a6 a7 a8 a9 a10 a11 a12 a13 a14
    have h15 : Frame Foot.execPllFail s a4 := by
      refine Frame.step State.setPll_frame ?_
      refine Frame.step State.abortTest_frame ?_
      exact h0
    clear_value a4
    have h16 : Frame Foot.execPllFail s a6 := by
      refine Frame.step State.setUnit_frame ?_
      refine Frame.step State.setPll_frame ?_
      refine Frame.step State.pllOut_frame ?_
      exact h15
    clear_value a6
    have h17 : Frame Foot.execPllFail s a9 := by
      refine Frame.ite ?_ ?_
      · dsimp -zeta only [a8]
        refine Frame.step State.event_frame ?_
        exact h16
      · exact h16
    clear_value a9
    have h18 : Frame Foot.execPllFail s a10 := by
      refine Frame.ite ?_ ?_
      · refine Frame.step State.postBackup_frame ?_
        exact h17
      · exact h17
    clear_value a10
    have h19 : Frame Foot.execPllFail s a11 := by
      refine Frame.ite ?_ ?_
      · dsimp -zeta only [a8]
        refine Frame.step State.event_frame ?_
        exact h18
      · exact h18
    clear_value a11
    have h20 : Frame Foot.execPllFail s a12 := by
      refine Frame.step State.moveDomains_frame ?_
      exact h19
    clear_value a12
    have h21 : Frame Foot.execPllFail s a13 := by
      refine Frame.ite ?_ ?_
      · refine Frame.step State.raise_frame ?_
        exact h20
      · exact h20
    clear_value a13
    have h22 : Frame Foot.execPllFail s a14 := by
      refine Frame.ite ?_ ?_
      · exact h21
      · refine Frame.step State.raise_frame ?_
        exact h21
    clear_value a14
    refine FrameO.next ?_
    refine Frame.ite ?_ ?_
    · refine Frame.step State.sgmiiDown_frame ?_
      refine Frame.step State.refreshVt_frame ?_
      exact h22
    · refine Frame.step State.refreshVt_frame ?_
      exact h22
  · refine FrameO.next ?_
    exact h0

def Foot.pllBack : Nat := 0x6104000E48000000000000000100000000000000000000000000000000000000000000000000000000000000000000000004000800080010
theorem State.pllBack_frame {s : State} {x1 : Nat} :
    Frame Foot.pllBack s (State.pllBack s x1) := by
  have h0 := Frame.refl Foot.pllBack s
  unfold State.pllBack
  extract_lets a1 a2 a3 a4
  have h5 : Frame Foot.pllBack s a2 := by
    refine Frame.step State.setUnit_frame ?_
    refine Frame.step State.setPllState_frame ?_
    exact h0
  clear_value a2
  have h6 : Frame Foot.pllBack s a4 := by
    refine Frame.step State.setPll_frame ?_
    exact h5
  clear_value a4
  refine Frame.step State.event_frame ?_
  exact h6

def Foot.pllRetires : Nat := 0x6104000E40000000000000000100000000000000000000000000000000000000000000000000000000000000000000000004000800080010
theorem State.pllRetires_frame {s : State} {x1 : Nat} :
    Frame Foot.pllRetires s (State.pllRetires s x1) := by
  have h0 := Frame.refl Foot.pllRetires s
  unfold State.pllRetires
  extract_lets a1
  have h2 : Frame Foot.pllRetires s a1 := by
    refine Frame.step State.setUnit_frame ?_
    refine Frame.step State.setPllState_frame ?_
    exact h0
  clear_value a1
  refine Frame.step State.event_frame ?_
  exact h2

def Foot.execPllQuarantineEnd : Nat := 0x610500EE48000000000000000101000000000000000000010000000000000000000000000000000000000060000400000004000800094010
theorem execPllQuarantineEnd_frame {s : State} {x0 : Fin 2} {x1 : Bool} :
    FrameO Foot.execPllQuarantineEnd s (execPllQuarantineEnd x0 x1 s) := by
  have h0 := Frame.refl Foot.execPllQuarantineEnd s
  unfold execPllQuarantineEnd
  refine FrameO.ite ?_ ?_
  · refine FrameO.next ?_
    exact h0
  · refine FrameO.ite ?_ ?_
    · refine FrameO.next ?_
      refine Frame.step State.setUnit_frame ?_
      refine Frame.step State.setPllState_frame ?_
      exact h0
    · extract_lets a1 a2 a3 a4
      have h5 : Frame Foot.execPllQuarantineEnd s a1 := by
        refine Frame.ite ?_ ?_
        · refine Frame.count ?_ (regNo_CLK_CNT)
          exact h0
        · exact h0
      clear_value a1
      have h6 : Frame Foot.execPllQuarantineEnd s a2 := by
        refine Frame.setFld ?_ (regNo_BST_Uu _)
        exact h5
      clear_value a2
      have h7 : Frame Foot.execPllQuarantineEnd s a3 := by
        refine Frame.ite ?_ ?_
        · refine Frame.step State.pllRetires_frame ?_
          exact h6
        · refine Frame.step State.pllBack_frame ?_
          exact h6
      clear_value a3
      have h8 : Frame Foot.execPllQuarantineEnd s a4 := by
        refine Frame.step State.moveDomains_frame ?_
        exact h7
      clear_value a4
      refine FrameO.next ?_
      refine Frame.step State.refreshVt_frame ?_
      refine Frame.ite ?_ ?_
      · refine Frame.step State.endCause_frame ?_
        exact h8
      · exact h8

def Foot.pllProgrammed : Nat := 0x610501EE480000000000000000010000000200000000000100000000000000010000000000000000000101781A0400000004000800184010
theorem State.pllProgrammed_frame {s : State} {x1 : Nat} {x2 : Bool} :
    Frame Foot.pllProgrammed s (State.pllProgrammed s x1 x2) := by
  have h0 := Frame.refl Foot.pllProgrammed s
  unfold State.pllProgrammed
  refine Frame.ite ?_ ?_
  · exact h0
  · extract_lets a1 a2 a3 a4
    have h5 : Frame Foot.pllProgrammed s a2 := by
      refine Frame.ite ?_ ?_
      · refine Frame.step State.restartPll_frame ?_
        exact h0
      · refine Frame.step State.setPllState_frame ?_
        exact h0
    clear_value a2
    have h6 : Frame Foot.pllProgrammed s a4 := by
      refine Frame.ite ?_ ?_
      · refine Frame.step State.postBackup_frame ?_
        exact h5
      · exact h5
    clear_value a4
    refine Frame.step State.afterMoves_frame ?_
    refine Frame.step State.moveDomains_frame ?_
    exact h6

def Foot.execReferenceLost : Nat := 0x6104000E48000000000000000000000000000000000000000000000000000000000000000000000000000000000000000004000800094010
theorem execReferenceLost_frame {s : State} :
    FrameO Foot.execReferenceLost s (execReferenceLost s) := by
  have h0 := Frame.refl Foot.execReferenceLost s
  unfold execReferenceLost
  refine FrameO.ite ?_ ?_
  · refine FrameO.next ?_
    exact h0
  · extract_lets a1 a2 a3 a4
    have h5 : Frame Foot.execReferenceLost s a1 := by
      refine Frame.count ?_ (regNo_CLK_CNT)
      refine Frame.setFld ?_ (regNo_CLK_STAT)
      exact h0
    clear_value a1
    have h6 : Frame Foot.execReferenceLost s a3 := by
      exact { h5 with clk := fun hb => absurd hb (by decide) }
    clear_value a3
    have h7 : Frame Foot.execReferenceLost s a4 := by
      refine Frame.foldl ?_ (fun u8 x9 h10 => ?_)
      · exact h6
      · extract_lets a11 a12
        have h13 : Frame Foot.execReferenceLost s a12 := by
          refine Frame.step State.setPll_frame ?_
          exact h10
        clear_value a12
        refine Frame.ite ?_ ?_
        · refine Frame.step State.setPllState_frame ?_
          exact h13
        · exact h13
    clear_value a4
    refine FrameO.next ?_
    refine Frame.step State.event_frame ?_
    exact h7

def Foot.pllReacquire : Nat := 0x8000000000000000000000000000000000000000000000000000000000000000000000000000000000000000000000000080000
theorem State.pllReacquire_frame {s : State} {x1 : Nat} {x2 : Int} :
    Frame Foot.pllReacquire s (State.pllReacquire s x1 x2) := by
  have h0 := Frame.refl Foot.pllReacquire s
  unfold State.pllReacquire
  refine Frame.ite ?_ ?_
  · extract_lets a1 a2
    refine Frame.step State.setPll_frame ?_
    refine Frame.step State.setPllState_frame ?_
    exact h0
  · exact h0

def Foot.execReferenceReturn : Nat := 0x6104000E48000000000000000000000000000000000000000000000000000000000000000000000000000000000000000004000800084010
theorem execReferenceReturn_frame {s : State} {x0 : Int} {x1 : Int} {x2 : Int} :
    FrameO Foot.execReferenceReturn s (execReferenceReturn x0 x1 x2 s) := by
  have h0 := Frame.refl Foot.execReferenceReturn s
  unfold execReferenceReturn
  extract_lets a1
  have h2 : Frame Foot.execReferenceReturn s a1 := by
    refine Frame.setFld ?_ (regNo_CLK_STAT)
    exact h0
  clear_value a1
  split
  · refine FrameO.next ?_
    exact h2
  · extract_lets a3 a4 a5
    have h6 : Frame Foot.execReferenceReturn s a4 := by
      refine Frame.step State.event_frame ?_
      exact h2
    clear_value a4
    refine FrameO.ite ?_ ?_
    · refine FrameO.next ?_
      exact h6
    · refine FrameO.next ?_
      refine Frame.step State.pllReacquire_frame ?_
      refine Frame.step State.pllReacquire_frame ?_
      exact { h6 with clk := fun hb => absurd hb (by decide) }

def Foot.execHoldoverTimeout : Nat := 0x610501EE488000000000000001010000000200000000000100000000000000010000000000000000000101781A0400000004000800094010
theorem execHoldoverTimeout_frame {s : State} :
    FrameO Foot.execHoldoverTimeout s (execHoldoverTimeout s) := by
  have h0 := Frame.refl Foot.execHoldoverTimeout s
  unfold execHoldoverTimeout
  split
  · refine FrameO.next ?_
    exact h0
  · extract_lets a1 a2 a3 a4
    have h5 : Frame Foot.execHoldoverTimeout s a1 := by
      refine Frame.step State.at_frame ?_
      exact h0
    clear_value a1
    have h6 : Frame Foot.execHoldoverTimeout s a4 := by
      refine Frame.ite ?_ ?_
      · exact { h5 with clk := fun hb => absurd hb (by decide) }
      · exact h5
    clear_value a4
    refine FrameO.next ?_
    refine Frame.ite ?_ ?_
    · exact h6
    · refine Frame.step State.unlockPlls_frame ?_
      exact h6

def Foot.tickRealign : Nat := 0x4000000000000000000000000000000000000000000000000000000000000000000000000000000000000000000000000000000000
theorem State.tickRealign_frame {s : State} :
    FrameV Foot.tickRealign s (State.tickRealign s) := by
  have h0 := Frame.refl Foot.tickRealign s
  unfold State.tickRealign
  refine FrameV.ite ?_ ?_
  · exact FrameV.no
  · extract_lets a1 a2
    refine FrameV.done ?_
    refine Frame.step State.setTb_frame ?_
    exact h0

def Foot.postTickIn : Nat := 0x6104000E40000000000000000000000000000000000000000000000000000000000000000000000000000000000000000004000800000010
theorem State.postTickIn_frame {s : State} {x1 : Nat} :
    Frame Foot.postTickIn s (State.postTickIn s x1) := by
  have h0 := Frame.refl Foot.postTickIn s
  unfold State.postTickIn
  extract_lets a1
  refine Frame.step State.event_frame ?_
  exact h0

def Foot.judgeTickIn : Nat := 0x6104000E48000000000000000000000000000000000000000000000000000000000000000000000000000000000000000004000800000010
theorem State.judgeTickIn_frame {s : State} {x1 : Int} :
    Frame Foot.judgeTickIn s (State.judgeTickIn s x1) := by
  have h0 := Frame.refl Foot.judgeTickIn s
  unfold State.judgeTickIn
  refine Frame.ite ?_ ?_
  · extract_lets a1 a2 a3 a4
    have h5 : Frame Foot.judgeTickIn s a3 := by
      exact { h0 with clk := fun hb => absurd hb (by decide) }
    clear_value a3
    refine Frame.ite ?_ ?_
    · refine Frame.step State.postTickIn_frame ?_
      exact { h5 with clk := fun hb => absurd hb (by decide) }
    · exact h5
  · exact { h0 with clk := fun hb => absurd hb (by decide) }

def Foot.execTickInEdge : Nat := 0x6104000E48800000000000000000000000000000000000000000000000000000000000000000000000000000000000000004000804000010
theorem execTickInEdge_frame {s : State} {x0 : Nat} :
    FrameO Foot.execTickInEdge s (execTickInEdge x0 s) := by
  have h0 := Frame.refl Foot.execTickInEdge s
  unfold execTickInEdge
  refine FrameO.ite ?_ ?_
  · refine FrameO.next ?_
    exact h0
  · extract_lets a1 a2 a3 a4
    have h5 : Frame Foot.execTickInEdge s a1 := by
      refine Frame.step State.at_frame ?_
      exact h0
    clear_value a1
    have h6 : Frame Foot.execTickInEdge s a3 := by
      refine Frame.setReg ?_ (regNo_CLK_TICKIN_ERR)
      exact h5
    clear_value a3
    refine FrameO.next ?_
    refine Frame.step State.judgeTickIn_frame ?_
    exact { h6 with clk := fun hb => absurd hb (by decide) }

def Foot.execTickInMissing : Nat := 0x6104000E48800000000000000000000000000000000000000000000000000000000000000000000000000000000000000004000800000010
theorem execTickInMissing_frame {s : State} :
    FrameO Foot.execTickInMissing s (execTickInMissing s) := by
  have h0 := Frame.refl Foot.execTickInMissing s
  unfold execTickInMissing
  refine FrameO.ite ?_ ?_
  · refine FrameO.next ?_
    exact h0
  · extract_lets a1 a2
    have h3 : Frame Foot.execTickInMissing s a1 := by
      refine Frame.step State.at_frame ?_
      exact h0
    clear_value a1
    refine FrameO.next ?_
    refine Frame.step State.postTickIn_frame ?_
    exact { h3 with clk := fun hb => absurd hb (by decide) }

def Foot.execRtcSourceSwitch : Nat := 0x4000
theorem execRtcSourceSwitch_frame {s : State} :
    FrameO Foot.execRtcSourceSwitch s (execRtcSourceSwitch s) := by
  have h0 := Frame.refl Foot.execRtcSourceSwitch s
  unfold execRtcSourceSwitch
  refine FrameO.next ?_
  refine Frame.setFld ?_ (regNo_CLK_STAT)
  exact h0

def Foot.execDelayLineCalibrated : Nat := 0x4000000000000000000000000000000000000000000000000000000000000000000000000000000000000000000000000000000000
theorem execDelayLineCalibrated_frame {s : State} {x0 : Fin 4} :
    FrameO Foot.execDelayLineCalibrated s (execDelayLineCalibrated x0 s) := by
  have h0 := Frame.refl Foot.execDelayLineCalibrated s
  unfold execDelayLineCalibrated
  refine FrameO.next ?_
  refine Frame.ite ?_ ?_
  · refine Frame.step State.setTb_frame ?_
    exact h0
  · exact h0

/-! ### PowerBase -/

def Foot.postPower : Nat := 0x6104000E40000000000002000000000000000000000000000000000000000000000000000000000000000000000000000004000800000010
theorem State.postPower_frame {s : State} {x1 : Nat} {x2 : Nat} {x3 : Nat} :
    Frame Foot.postPower s (State.postPower s x1 x2 x3) := by
  have h0 := Frame.refl Foot.postPower s
  unfold State.postPower
  refine Frame.step State.event_frame ?_
  refine Frame.setFld ?_ (regNo_PWR_STATE)
  exact h0

def Foot.beginExit : Nat := 0x610C000E48000000000002000000000000000000000000000000000000000000000000000000000000000000000000000004000800180010
theorem State.beginExit_frame {s : State} {x1 : Nat} :
    Frame Foot.beginExit s (State.beginExit s x1) := by
  have h0 := Frame.refl Foot.beginExit s
  unfold State.beginExit
  extract_lets a1 a2
  have h3 : Frame Foot.beginExit s a2 := by
    refine Frame.step State.postPower_frame ?_
    exact { h0 with pwr := fun hb => absurd hb (by decide) }
  clear_value a2
  refine Frame.ite ?_ ?_
  · refine Frame.step State.restartPll_frame ?_
    exact h3
  · exact h3

def Foot.requestRun : Nat := 0x610C000E48000000000002000000000000000000000000000000000000000000000000000000000000000000000000000004000800180010
theorem State.requestRun_frame {s : State} {x1 : Nat} :
    Frame Foot.requestRun s (State.requestRun s x1) := by
  have h0 := Frame.refl Foot.requestRun s
  unfold State.requestRun
  refine Frame.ite ?_ ?_
  · exact h0
  · refine Frame.ite ?_ ?_
    · refine Frame.step State.beginExit_frame ?_
      exact h0
    · refine Frame.ite ?_ ?_
      · refine Frame.setFld ?_ (regNo_PWR_STATE)
        exact { h0 with pwr := fun hb => absurd hb (by decide) }
      · exact h0

def Foot.wakeBy : Nat := 0x610C000E48000000000042000000000000000000000000000000000000000000000000000000000000000000000000000004000800180010
theorem State.wakeBy_frame {s : State} {x1 : Nat} {x2 : Nat} :
    Frame Foot.wakeBy s (State.wakeBy s x1 x2) := by
  have h0 := Frame.refl Foot.wakeBy s
  unfold State.wakeBy
  refine Frame.ite ?_ ?_
  · exact h0
  · refine Frame.step State.requestRun_frame ?_
    refine Frame.setReg ?_ (regNo_PWR_WAKESTAT)
    exact h0

/-! ### CanBase -/

def Foot.setCanCtl : Nat := 0x1000000000000000000000000000000000000000000000000000000000000000000000000000000000000000000000000000000000000
theorem State.setCanCtl_frame {s : State} {x1 : Nat} {x2 : CanCtl} :
    Frame Foot.setCanCtl s (State.setCanCtl s x1 x2) := by
  have h0 := Frame.refl Foot.setCanCtl s
  unfold State.setCanCtl
  exact { h0 with can := fun hb => absurd hb (by decide) }

def Foot.sramDed : Nat := 0x6104000E4000000000C000000000000000000000000000000000000000000000000000000000000000000000000000000004000800000010
theorem State.sramDed_frame {s : State} {x1 : Nat} :
    Frame Foot.sramDed s (State.sramDed s x1) := by
  have h0 := Frame.refl Foot.sramDed s
  unfold State.sramDed
  extract_lets a1
  have h2 : Frame Foot.sramDed s a1 := by
    refine Frame.setFld ?_ (regNo_HIC_ECCADR)
    refine Frame.count ?_ (regNo_HIC_ECC)
    exact h0
  clear_value a1
  refine Frame.step State.event_frame ?_
  exact h2

def Foot.setCanSpare : Nat := 0x4000000000000000000000000000000000000000000000000000000000000000000000000
theorem State.setCanSpare_frame {s : State} {x1 : Nat} :
    Frame Foot.setCanSpare s (State.setCanSpare s x1) := by
  have h0 := Frame.refl Foot.setCanSpare s
  unfold State.setCanSpare
  refine Frame.setFld ?_ (regNo_CAN_SPSTAT)
  exact h0

def Foot.canWriteEntry : Nat := maskBit 270 ||| maskBit bit_sram ||| maskBit bit_hic

theorem State.canWriteEntry_frame {s : State} {c : Nat} {ws : List Word} {data : List Byte} (hw : ws.length ≤ 7 := by first | decide | simp) :
    Frame Foot.canWriteEntry s (s.canWriteEntry c ws data) := by
  unfold State.canWriteEntry
  refine Frame.ite (Frame.refl _ s) ?_
  extract_lets k e ws' w7 s1 s2 wrap s3
  have hk : k < 2 ^ 12 := s.fld_lt _ _
  have hb : ∀ t : State, t.canBuf c ≤ 2048 := fun t => by unfold State.canBuf; split <;> decide
  have h1 : Frame Foot.canWriteEntry s s1 := (Frame.refl _ s).fabricWordsIn (by
    have : s.fld (Reg.CAN_RXBASE c) Fld.CAN_RXBASE.OFFSET < 2 ^ 17 := s.fld_lt _ _
    have hl : ws'.length ≤ 8 := by
      show (ws.take 1 ++ [_] ++ ws.drop 2).length ≤ 8
      simp only [List.length_append, List.length_take, List.length_cons, List.length_nil, List.length_drop]
      omega
    simp only [List.length_append, List.length_cons, List.length_nil]
    unfold State.canRxSlot
    omega)
  have h2 : Frame Foot.canWriteEntry s s2 := h1.fabricBytesIn (by
    have : s1.fld (Reg.CAN_RXBUF c) Fld.CAN_RXBUF.RXBUF < 2 ^ 16 := s1.fld_lt _ _
    have hl : (data.take (s1.canBuf c)).length ≤ 2048 := by
      rw [List.length_take]
      exact Nat.le_trans (Nat.min_le_left _ _) (hb s1)
    have := Nat.mul_le_mul (Nat.le_of_lt hk) (hb s1)
    unfold State.canRxBuf
    omega)
  have h3 : Frame Foot.canWriteEntry s s3 := h2.setFld (regNo_CAN_RXIDX _)
  exact Frame.ite (h3.setFld (regNo_CAN_RXIDX _)) h3

def Foot.canConfirm : Nat := 0x1004000000000000000000000000000000000000000040000000000000000000000000000000000000000000000000000000000000000000
theorem State.canConfirm_frame {s : State} {x1 : Nat} {x2 : CanTx} {x3 : Nat} {x4 : Word} {x5 : Word} :
    Frame Foot.canConfirm s (State.canConfirm s x1 x2 x3 x4 x5) := by
  have h0 := Frame.refl Foot.canConfirm s
  unfold State.canConfirm
  refine Frame.ite ?_ ?_
  · exact h0
  · refine Frame.step (State.canWriteEntry_frame (by simp)) ?_
    exact h0

def Foot.canConfirmUnsent : Nat := 0x1404000000000000000000000000000000000000000040000000000000000000000000000000000000000000000000000000000000000000
theorem State.canConfirmUnsent_frame {s : State} {x1 : Nat} {x2 : Nat} {x3 : CanTx} :
    Frame Foot.canConfirmUnsent s (State.canConfirmUnsent s x1 x2 x3) := by
  have h0 := Frame.refl Foot.canConfirmUnsent s
  unfold State.canConfirmUnsent
  refine Frame.ite ?_ ?_
  · exact h0
  · split
    rename_i x1 x2 x3 x4
    refine Frame.cutR (K := Foot.canConfirmUnsent) (s := s) x4 ?_ (fun h5 => ?_)
    · refine FrameR.step State.takeFree_frame ?_
      exact h0
    · split
      rename_i x6 x7 x8 x9
      refine Frame.cutR (K := Foot.canConfirmUnsent) (s := s) x9 ?_ (fun h10 => ?_)
      · refine FrameR.step State.takeFree_frame ?_
        exact h5
      · refine Frame.step State.canConfirm_frame ?_
        exact h10

def Foot.canAbort : Nat := 0x1405000000000000000000000000000000000000000040000000000000000000000000000000000000000000000000000000000000000000
theorem State.canAbort_frame {s : State} {x1 : Nat} {x2 : CanTx → Bool} :
    Frame Foot.canAbort s (State.canAbort s x1 x2) := by
  have h0 := Frame.refl Foot.canAbort s
  unfold State.canAbort
  extract_lets a1 a2 a3
  have h4 : Frame Foot.canAbort s a3 := by
    refine Frame.step State.setCanCtl_frame ?_
    exact h0
  clear_value a3
  refine Frame.foldl ?_ (fun u5 x6 h7 => ?_)
  · exact h4
  · refine Frame.step State.canConfirmUnsent_frame ?_
    exact h7

/-! ### Can -/

def Foot.canTxBell : Nat := 0x1000000000000000000000000000000000000000000000000000000000000000000000000000000000000000000000000000000000000
theorem State.canTxBell_frame {s : State} {x1 : Nat} {x2 : Word} :
    Frame Foot.canTxBell s (State.canTxBell s x1 x2) := by
  have h0 := Frame.refl Foot.canTxBell s
  unfold State.canTxBell
  split
  · refine Frame.step State.setCanCtl_frame ?_
    exact h0
  · exact h0

def Foot.canRxBell : Nat := 0x1000000000000000000000000000000000000000000000000000000000000000000000000000000000000000000000000000000000000
theorem State.canRxBell_frame {s : State} {x1 : Nat} {x2 : Word} :
    Frame Foot.canRxBell s (State.canRxBell s x1 x2) := by
  have h0 := Frame.refl Foot.canRxBell s
  unfold State.canRxBell
  split
  · refine Frame.step State.setCanCtl_frame ?_
    exact h0
  · exact h0

def Foot.canTxHalt : Nat := 0x6104000E40000000000000000000000000000000000008000000000000000000000000000000000000000000000000000004000800000010
theorem State.canTxHalt_frame {s : State} {x1 : Nat} {x2 : Nat} :
    Frame Foot.canTxHalt s (State.canTxHalt s x1 x2) := by
  have h0 := Frame.refl Foot.canTxHalt s
  unfold State.canTxHalt
  refine Frame.step State.event_frame ?_
  refine Frame.setFld ?_ (regNo_CAN_TXIDX _)
  exact h0

def Foot.setCanTxIdx : Nat := 0x8000000000000000000000000000000000000000000000000000000000000000000
theorem State.setCanTxIdx_frame {s : State} {x1 : Nat} {x2 : Nat} {x3 : Nat} :
    Frame Foot.setCanTxIdx s (State.setCanTxIdx s x1 x2 x3) := by
  have h0 := Frame.refl Foot.setCanTxIdx s
  unfold State.setCanTxIdx
  refine Frame.setFld ?_ (regNo_CAN_TXIDX _)
  refine Frame.setFld ?_ (regNo_CAN_TXIDX _)
  exact h0

def Foot.canTxPass : Nat := 0x8000000000000000000000000000000000000000000000000000000000000000000
theorem State.canTxPass_frame {s : State} {x1 : Nat} :
    Frame Foot.canTxPass s (State.canTxPass s x1) := by
  have h0 := Frame.refl Foot.canTxPass s
  unfold State.canTxPass
  extract_lets a1
  refine Frame.ite ?_ ?_
  · refine Frame.step State.setCanTxIdx_frame ?_
    exact h0
  · refine Frame.step State.setCanTxIdx_frame ?_
    exact h0

def Foot.canStage : Nat := 0x1000000000000000000000000000000000000000009000000000000000000000000000000000000000000000000000000000000000000
theorem State.canStage_frame {s : State} {x1 : Nat} {x2 : List Word} :
    Frame Foot.canStage s (State.canStage s x1 x2) := by
  have h0 := Frame.refl Foot.canStage s
  unfold State.canStage
  extract_lets a1 a2 a3
  split
  extract_lets a4 a5 a6 a7
  have h8 : Frame Foot.canStage s a6 := by
    refine Frame.ite ?_ ?_
    · exact h0
    · refine Frame.count ?_ (regNo_CAN_CNT2 _)
      exact h0
  clear_value a6
  refine Frame.step State.canTxPass_frame ?_
  refine Frame.step State.setCanCtl_frame ?_
  exact h8

def Foot.canFetch : Nat := 0x6105000E4000000000C000000000000000000000000009000000000000000000000000000000000000000000000000000004000800000010
theorem State.canFetch_frame {s : State} {x1 : Nat} :
    Frame Foot.canFetch s (State.canFetch s x1) := by
  have h0 := Frame.refl Foot.canFetch s
  unfold State.canFetch
  extract_lets a1 a2 a3 a4
  split
  · refine Frame.step State.canTxHalt_frame ?_
    refine Frame.step State.sramDed_frame ?_
    exact h0
  · refine Frame.ite ?_ ?_
    · refine Frame.step State.canTxHalt_frame ?_
      exact h0
    · refine Frame.ite ?_ ?_
      · refine Frame.step State.canTxHalt_frame ?_
        exact h0
      · refine Frame.ite ?_ ?_
        · exact h0
        · refine Frame.step State.canStage_frame ?_
          exact h0

def Foot.execCanTxFetch : Nat := 0x6105000E4000000000C000000000000000000000000009000000000000000000000000000000000000000000000000000004000800000010
theorem execCanTxFetch_frame {s : State} {x0 : Fin 4} :
    FrameO Foot.execCanTxFetch s (execCanTxFetch x0 s) := by
  have h0 := Frame.refl Foot.execCanTxFetch s
  unfold execCanTxFetch
  refine FrameO.next ?_
  refine Frame.ite ?_ ?_
  · refine Frame.step State.canFetch_frame ?_
    exact h0
  · exact h0

def Foot.canResume : Nat := 0x8000000000000000000000000000000000000000000000000000000000000000000
theorem State.canResume_frame {s : State} {x1 : Nat} :
    Frame Foot.canResume s (State.canResume s x1) := by
  have h0 := Frame.refl Foot.canResume s
  unfold State.canResume
  refine Frame.setFld ?_ (regNo_CAN_TXIDX _)
  exact h0

def Foot.canFlush : Nat := 0x1405000000000000000000000000000000000000000048000000000000000000000000000000000000000000000000000000000000000000
theorem State.canFlush_frame {s : State} {x1 : Nat} :
    Frame Foot.canFlush s (State.canFlush s x1) := by
  have h0 := Frame.refl Foot.canFlush s
  unfold State.canFlush
  refine Frame.ite ?_ ?_
  · exact h0
  · extract_lets a1 a2
    refine Frame.step State.setCanTxIdx_frame ?_
    refine Frame.step State.canResume_frame ?_
    refine Frame.step State.canAbort_frame ?_
    exact h0

def Foot.canTxEnable : Nat := 0x1405000000000000000000000000000000000000000048000000000000000000000000000000000000000000000000000000000000000000
theorem State.canTxEnable_frame {s : State} {x1 : Nat} {x2 : Bool} :
    Frame Foot.canTxEnable s (State.canTxEnable s x1 x2) := by
  have h0 := Frame.refl Foot.canTxEnable s
  unfold State.canTxEnable
  refine Frame.ite ?_ ?_
  · refine Frame.step State.canResume_frame ?_
    refine Frame.step State.setCanTxIdx_frame ?_
    exact h0
  · refine Frame.step State.canAbort_frame ?_
    exact h0

def Foot.canRxEnable : Nat := 0x1000000000000000000000000000000000000000040000000000000000000000000000000000000000000000000000000000000000000
theorem State.canRxEnable_frame {s : State} {x1 : Nat} :
    Frame Foot.canRxEnable s (State.canRxEnable s x1) := by
  have h0 := Frame.refl Foot.canRxEnable s
  unfold State.canRxEnable
  extract_lets a1 a2
  have h3 : Frame Foot.canRxEnable s a1 := by
    refine Frame.setFld ?_ (regNo_CAN_RXIDX _)
    refine Frame.setFld ?_ (regNo_CAN_RXIDX _)
    exact h0
  clear_value a1
  refine Frame.step State.setCanCtl_frame ?_
  exact h3

def Foot.canInitSet : Nat := 0x1000000000000000000000000000000000000000000010000000000000000000000000000000000000000000000000000000000000000
theorem State.canInitSet_frame {s : State} {x1 : Nat} {x2 : Bool} :
    Frame Foot.canInitSet s (State.canInitSet s x1 x2) := by
  have h0 := Frame.refl Foot.canInitSet s
  unfold State.canInitSet
  extract_lets a1 a2
  have h3 : Frame Foot.canInitSet s a1 := by
    refine Frame.setFld ?_ (regNo_CAN_STAT _)
    exact h0
  clear_value a1
  refine Frame.ite ?_ ?_
  · refine Frame.step State.setCanCtl_frame ?_
    exact h3
  · refine Frame.setFld ?_ (regNo_CAN_STAT _)
    exact h3

def Foot.canFrameEnd : Nat := 0x1000000000000000000000000000000000000000000010000000000000000000000000000000000000000000000000000000000000000
theorem State.canFrameEnd_frame {s : State} {x1 : Nat} :
    Frame Foot.canFrameEnd s (State.canFrameEnd s x1) := by
  have h0 := Frame.refl Foot.canFrameEnd s
  unfold State.canFrameEnd
  refine Frame.ite ?_ ?_
  · refine Frame.setFld ?_ (regNo_CAN_STAT _)
    refine Frame.step State.setCanCtl_frame ?_
    exact h0
  · exact h0

def Foot.canDetect : Nat := 0x1000000000000000000000000000000000000000000010000000000000000000000000000000000000000000000000000000000000000
theorem State.canDetect_frame {s : State} {x1 : Nat} :
    Frame Foot.canDetect s (State.canDetect s x1) := by
  have h0 := Frame.refl Foot.canDetect s
  unfold State.canDetect
  extract_lets a1 a2
  have h3 : Frame Foot.canDetect s a1 := by
    refine Frame.setFld ?_ (regNo_CAN_STAT _)
    refine Frame.setFld ?_ (regNo_CAN_STAT _)
    exact h0
  clear_value a1
  refine Frame.step State.setCanCtl_frame ?_
  exact h3

def Foot.canInitClear : Nat := 0x1000000000000000000000000000000000000000000010000000000000000000000000000000000000000000000000000000000000000
theorem State.canInitClear_frame {s : State} {x1 : Nat} :
    Frame Foot.canInitClear s (State.canInitClear s x1) := by
  have h0 := Frame.refl Foot.canInitClear s
  unfold State.canInitClear
  extract_lets a1 a2 a3 a4
  have h5 : Frame Foot.canInitClear s a3 := by
    refine Frame.step State.setCanCtl_frame ?_
    exact h0
  clear_value a3
  have h6 : Frame Foot.canInitClear s a4 := by
    refine Frame.setFld ?_ (regNo_CAN_STAT _)
    exact h5
  clear_value a4
  refine Frame.ite ?_ ?_
  · refine Frame.step State.canDetect_frame ?_
    exact h6
  · exact h6

def Foot.canCtrlWritten : Nat := 0x1405000000000000000000000000000000000000000048010000000000000000000000000000000000000000000000000000000000000000
theorem State.canCtrlWritten_frame {s : State} {x1 : Nat} {x2 : Bool} {x3 : Bool} {x4 : Word} :
    Frame Foot.canCtrlWritten s (State.canCtrlWritten s x1 x2 x3 x4) := by
  have h0 := Frame.refl Foot.canCtrlWritten s
  unfold State.canCtrlWritten
  extract_lets a1
  have h2 : Frame Foot.canCtrlWritten s a1 := by
    refine Frame.ite ?_ ?_
    · refine Frame.step State.canInitSet_frame ?_
      exact h0
    · refine Frame.ite ?_ ?_
      · refine Frame.step State.canInitClear_frame ?_
        exact h0
      · exact h0
  clear_value a1
  refine Frame.ite ?_ ?_
  · refine Frame.step State.canFlush_frame ?_
    exact h2
  · refine Frame.ite ?_ ?_
    · refine Frame.step State.canResume_frame ?_
      exact h2
    · exact h2

def Foot.execCanIntegrationDone : Nat := 0x10000000000000000000000000000000000000000000000000000000000000000
theorem execCanIntegrationDone_frame {s : State} {x0 : Fin 4} :
    FrameO Foot.execCanIntegrationDone s (execCanIntegrationDone x0 s) := by
  have h0 := Frame.refl Foot.execCanIntegrationDone s
  unfold execCanIntegrationDone
  refine FrameO.next ?_
  refine Frame.ite ?_ ?_
  · refine Frame.setFld ?_ (regNo_CAN_STAT _)
    exact h0
  · exact h0

def Foot.execCanTxStart : Nat := 0x1000000800000000000000000000000000000000000000000000000000000000000000000000000000000000000000000000000000000
theorem execCanTxStart_frame {s : State} {x0 : Fin 4} {x1 : Nat} :
    FrameO Foot.execCanTxStart s (execCanTxStart x0 x1 s) := by
  have h0 := Frame.refl Foot.execCanTxStart s
  unfold execCanTxStart
  extract_lets a1 a2 a3
  have h4 : Frame Foot.execCanTxStart s a1 := by
    refine Frame.step State.at_frame ?_
    exact h0
  clear_value a1
  refine FrameO.next ?_
  refine Frame.ite ?_ ?_
  · exact h4
  · refine Frame.ite ?_ ?_
    · refine Frame.step State.setCanCtl_frame ?_
      exact h4
    · refine Frame.ite ?_ ?_
      · exact h4
      · split
        · refine Frame.step State.setCanCtl_frame ?_
          exact h4
        · exact h4

def Foot.canTdcv : Nat := 0x6105000E40000000000000000000000000000000000001000000000000000000000000000000000000000000000000000004000800000010
theorem State.canTdcv_frame {s : State} {x1 : Nat} {x2 : Option Nat} :
    Frame Foot.canTdcv s (State.canTdcv s x1 x2) := by
  have h0 := Frame.refl Foot.canTdcv s
  unfold State.canTdcv
  split
  · refine Frame.ite ?_ ?_
    · exact h0
    · refine Frame.ite ?_ ?_
      · refine Frame.setFld ?_ (regNo_CAN_CNT2 _)
        exact h0
      · extract_lets a1 a2
        have h3 : Frame Foot.canTdcv s a1 := by
          refine Frame.count ?_ (regNo_CAN_CNT2 _)
          exact h0
        clear_value a1
        refine Frame.ite ?_ ?_
        · exact h3
        · refine Frame.step State.event_frame ?_
          refine Frame.step State.setCanCtl_frame ?_
          exact h3
  · exact h0

def Foot.canDrop : Nat := 0x6105000E40000000000000000000000000000000000000800000000000000000000000000000000000000000000000000004000800000010
theorem State.canDrop_frame {s : State} {x1 : Nat} :
    Frame Foot.canDrop s (State.canDrop s x1) := by
  have h0 := Frame.refl Foot.canDrop s
  unfold State.canDrop
  extract_lets a1 a2 a3
  have h4 : Frame Foot.canDrop s a1 := by
    refine Frame.count ?_ (regNo_CAN_CNT _)
    exact h0
  clear_value a1
  refine Frame.ite ?_ ?_
  · refine Frame.step State.setCanCtl_frame ?_
    exact h4
  · refine Frame.step State.event_frame ?_
    refine Frame.step State.setCanCtl_frame ?_
    exact h4

def Foot.canStore : Nat := 0x7105000E40000000000000000000000000000000000040800000000000000000000000000000000000000000000000000004000800000010
theorem State.canStore_frame {s : State} {x1 : Nat} {x2 : CanFrame} {x3 : Option Nat} {x4 : Word} {x5 : Word} :
    Frame Foot.canStore s (State.canStore s x1 x2 x3 x4 x5) := by
  have h0 := Frame.refl Foot.canStore s
  unfold State.canStore
  refine Frame.ite ?_ ?_
  · refine Frame.step State.canDrop_frame ?_
    exact h0
  · extract_lets a1
    refine Frame.step (State.canWriteEntry_frame (by simp)) ?_
    exact h0

def Foot.canAccept : Nat := 0x710D000E48000000000042000000000000000000000040800000000000000000000000000000000000000000000000000004000800180010
theorem State.canAccept_frame {s : State} {x1 : Nat} {x2 : CanFrame} {x3 : Word} {x4 : Word} :
    Frame Foot.canAccept s (State.canAccept s x1 x2 x3 x4) := by
  have h0 := Frame.refl Foot.canAccept s
  unfold State.canAccept
  split
  · extract_lets a1 a2
    have h3 : Frame Foot.canAccept s a2 := by
      refine Frame.step State.canStore_frame ?_
      exact h0
    clear_value a2
    refine Frame.ite ?_ ?_
    · exact h0
    · refine Frame.ite ?_ ?_
      · refine Frame.step State.wakeBy_frame ?_
        exact h3
      · exact h3
  · refine Frame.ite ?_ ?_
    · refine Frame.step State.canStore_frame ?_
      exact h0
    · exact h0

def Foot.canOwn : Nat := 0x710D000E48000000000042000000000000000000000040800000000000000000000000000000000000000000000000000004000800180010
theorem State.canOwn_frame {s : State} {x1 : Nat} {x2 : List Word} {x3 : List Byte} {x4 : Word} {x5 : Word} :
    Frame Foot.canOwn s (State.canOwn s x1 x2 x3 x4 x5) := by
  have h0 := Frame.refl Foot.canOwn s
  unfold State.canOwn
  refine Frame.ite ?_ ?_
  · exact h0
  · refine Frame.step State.canAccept_frame ?_
    exact h0

def Foot.execCanFrameSent : Nat := 0x710D000E48000000000042000000000000000000000041C10000000000000000000000000000000000000000000000000004000800180010
theorem execCanFrameSent_frame {s : State} {x0 : Fin 4} {x1 : Nat} {x2 : Nat} {x3 : Option (Fin 128)} :
    FrameO Foot.execCanFrameSent s (execCanFrameSent x0 x1 x2 x3 s) := by
  have h0 := Frame.refl Foot.execCanFrameSent s
  unfold execCanFrameSent
  extract_lets a1 a2 a3 a4 a5 a6
  have h7 : Frame Foot.execCanFrameSent s a6 := by
    refine Frame.step State.setCanCtl_frame ?_
    exact h0
  clear_value a6
  refine FrameO.next ?_
  split
  · dsimp -zeta only [a5]
    extract_lets a8
    have h9 : Frame Foot.execCanFrameSent s a8 := by
      refine Frame.setFld ?_ (regNo_CAN_ERR _)
      refine Frame.step State.canTdcv_frame ?_
      refine Frame.step State.canConfirm_frame ?_
      exact h7
    clear_value a8
    refine Frame.step State.canFrameEnd_frame ?_
    refine Frame.step State.canOwn_frame ?_
    exact h9
  · split
    · dsimp -zeta only [a5]
      extract_lets a10
      have h11 : Frame Foot.execCanFrameSent s a10 := by
        refine Frame.setFld ?_ (regNo_CAN_ERR _)
        refine Frame.step State.canTdcv_frame ?_
        refine Frame.step State.setCanCtl_frame ?_
        exact h0
      clear_value a10
      refine Frame.step State.canFrameEnd_frame ?_
      refine Frame.step State.canOwn_frame ?_
      exact h11
    · exact h0

def Foot.execCanBusError : Nat := 0x6105000E40000000000000000000000000000000000001410000000000000000000000000000000000000000000000000004000800000010
theorem execCanBusError_frame {s : State} {x0 : Fin 4} {x1 : Fin 256} {x2 : Fin 256} {x3 : Fin 8} {x4 : Option Nat} :
    FrameO Foot.execCanBusError s (execCanBusError x0 x1 x2 x3 x4 s) := by
  have h0 := Frame.refl Foot.execCanBusError s
  unfold execCanBusError
  refine FrameO.ite ?_ ?_
  · refine FrameO.next ?_
    exact h0
  · extract_lets a1 a2 a3
    have h4 : Frame Foot.execCanBusError s a2 := by
      refine Frame.step State.setCanCtl_frame ?_
      exact h0
    clear_value a2
    have h5 : Frame Foot.execCanBusError s a3 := by
      refine Frame.setFld ?_ (regNo_CAN_ERR _)
      refine Frame.step State.canTdcv_frame ?_
      exact h4
    clear_value a3
    refine FrameO.next ?_
    refine Frame.step State.canFrameEnd_frame ?_
    refine Frame.setFld ?_ (regNo_CAN_ERR _)
    refine Frame.setFld ?_ (regNo_CAN_ERR _)
    exact h5

def Foot.execCanTxExpired : Nat := 0x1405000000800000000000000000000000000000000040800000000000000000000000000000000000000000000000000000000000000000
theorem execCanTxExpired_frame {s : State} {x0 : Fin 4} {x1 : Fin 4096} :
    FrameO Foot.execCanTxExpired s (execCanTxExpired x0 x1 s) := by
  have h0 := Frame.refl Foot.execCanTxExpired s
  unfold execCanTxExpired
  extract_lets a1 a2
  split
  · split
    · refine FrameO.ite ?_ ?_
      · refine FrameO.next ?_
        exact h0
      · extract_lets a3
        have h4 : Frame Foot.execCanTxExpired s a3 := by
          refine Frame.step State.setCanCtl_frame ?_
          refine Frame.step State.at_frame ?_
          exact h0
        clear_value a3
        refine FrameO.next ?_
        refine Frame.step State.canConfirmUnsent_frame ?_
        refine Frame.count ?_ (regNo_CAN_CNT _)
        exact h4
    · refine FrameO.next ?_
      exact h0
  · refine FrameO.next ?_
    exact h0

def Foot.canRecDown : Nat := 0x400000000000000000000000000000000000000000000400000000000000000000000000000000000000000000000000000000000000000
theorem State.canRecDown_frame {s : State} {x1 : Nat} :
    Frame Foot.canRecDown s (State.canRecDown s x1) := by
  have h0 := Frame.refl Foot.canRecDown s
  unfold State.canRecDown
  extract_lets a1
  refine Frame.ite ?_ ?_
  · split
    rename_i x2 x3 x4 x5
    refine Frame.cutR (K := Foot.canRecDown) (s := s) x5 ?_ (fun h6 => ?_)
    · refine FrameR.step State.takeFree_frame ?_
      exact h0
    · refine Frame.setFld ?_ (regNo_CAN_ERR _)
      exact h6
  · refine Frame.setFld ?_ (regNo_CAN_ERR _)
    exact h0

def Foot.canLock : Nat := 0x6105000E400000000000000000000000000000000000000D8000000000000000000000000000000000000000000000000004000800000010
theorem State.canLock_frame {s : State} {x1 : Nat} :
    Frame Foot.canLock s (State.canLock s x1) := by
  have h0 := Frame.refl Foot.canLock s
  unfold State.canLock
  extract_lets a1 a2 a3 a4 a5 a6 a7
  have h8 : Frame Foot.canLock s a4 := by
    refine Frame.setReg ?_ (regNo_CAN_DBT _)
    refine Frame.setReg ?_ (regNo_CAN_NBT _)
    exact h0
  clear_value a4
  have h9 : Frame Foot.canLock s a6 := by
    refine Frame.step State.setCanCtl_frame ?_
    exact h8
  clear_value a6
  have h10 : Frame Foot.canLock s a7 := by
    refine Frame.setFld ?_ (regNo_CAN_STAT _)
    refine Frame.setFld ?_ (regNo_CAN_CTRL _)
    exact h9
  clear_value a7
  refine Frame.step State.event_frame ?_
  refine Frame.setFld ?_ (regNo_CAN_STAT _)
  exact h10

def Foot.canGood : Nat := 0x6105000E400000000000000000000000000000000000000D8000000000000000000000000000000000000000000000000004000800000010
theorem State.canGood_frame {s : State} {x1 : Nat} :
    Frame Foot.canGood s (State.canGood s x1) := by
  have h0 := Frame.refl Foot.canGood s
  unfold State.canGood
  extract_lets a1 a2
  refine Frame.ite ?_ ?_
  · refine Frame.step State.canLock_frame ?_
    exact h0
  · refine Frame.step State.setCanCtl_frame ?_
    exact h0

def Foot.execCanFrameReceived : Nat := 0x750D000E48000000000042000000000000000000000040CD8000000000000000000000000000000000000000000000000004000800180010
theorem execCanFrameReceived_frame {s : State} {x0 : Fin 4} {x1 : Word} {x2 : Word} {x3 : Word} {x4 : Word} {x5 : List Byte} {x6 : Nat} {x7 : Nat} :
    FrameO Foot.execCanFrameReceived s (execCanFrameReceived x0 x1 x2 x3 x4 x5 x6 x7 s) := by
  have h0 := Frame.refl Foot.execCanFrameReceived s
  unfold execCanFrameReceived
  extract_lets a1 a2 a3 a4
  have h5 : Frame Foot.execCanFrameReceived s a3 := by
    refine Frame.step State.setCanCtl_frame ?_
    exact h0
  clear_value a3
  have h6 : Frame Foot.execCanFrameReceived s a4 := by
    refine Frame.ite ?_ ?_
    · refine Frame.step State.canGood_frame ?_
      exact h5
    · refine Frame.step State.canRecDown_frame ?_
      exact h5
  clear_value a4
  refine FrameO.ite ?_ ?_
  · refine FrameO.next ?_
    exact h0
  · refine FrameO.next ?_
    refine Frame.step State.canFrameEnd_frame ?_
    refine Frame.step State.canAccept_frame ?_
    exact h6

def Foot.execCanRateCandidateSwitch : Nat := 0x6105000E40000000000000000000000000000000000000010000000000000000000000000000000000000000000000000004000800000010
theorem execCanRateCandidateSwitch_frame {s : State} {x0 : Fin 4} :
    FrameO Foot.execCanRateCandidateSwitch s (execCanRateCandidateSwitch x0 s) := by
  have h0 := Frame.refl Foot.execCanRateCandidateSwitch s
  unfold execCanRateCandidateSwitch
  refine FrameO.ite ?_ ?_
  · refine FrameO.next ?_
    exact h0
  · extract_lets a1 a2 a3 a4 a5 a6 a7
    have h8 : Frame Foot.execCanRateCandidateSwitch s a3 := by
      refine Frame.step State.setCanCtl_frame ?_
      exact h0
    clear_value a3
    have h9 : Frame Foot.execCanRateCandidateSwitch s a4 := by
      refine Frame.setFld ?_ (regNo_CAN_STAT _)
      exact h8
    clear_value a4
    refine FrameO.ite ?_ ?_
    · refine FrameO.next ?_
      refine Frame.setFld ?_ (regNo_CAN_STAT _)
      exact h8
    · refine FrameO.next ?_
      refine Frame.ite ?_ ?_
      · refine Frame.step State.setCanCtl_frame ?_
        exact h9
      · refine Frame.step State.event_frame ?_
        refine Frame.step State.setCanCtl_frame ?_
        exact h9

def Foot.canBusOff : Nat := 0x6105000E40000000000000000000000000000000000000810000000000000000000000000000000000000000000000000004000800000010
theorem State.canBusOff_frame {s : State} {x1 : Nat} :
    Frame Foot.canBusOff s (State.canBusOff s x1) := by
  have h0 := Frame.refl Foot.canBusOff s
  unfold State.canBusOff
  extract_lets a1 a2 a3
  have h4 : Frame Foot.canBusOff s a2 := by
    refine Frame.step State.setCanCtl_frame ?_
    exact h0
  clear_value a2
  have h5 : Frame Foot.canBusOff s a3 := by
    refine Frame.count ?_ (regNo_CAN_CNT _)
    refine Frame.setFld ?_ (regNo_CAN_STAT _)
    exact h4
  clear_value a3
  refine Frame.step State.event_frame ?_
  refine Frame.step State.f2Begins_frame ?_
  exact h5

def Foot.execCanErrorStateChange : Nat := 0x6105000E40000000000000000000000000000000000000C10000000000000000000000000000000000000000000000000004000800000010
theorem execCanErrorStateChange_frame {s : State} {x0 : Fin 4} {x1 : Fin 3} {x2 : Fin 256} {x3 : Fin 256} :
    FrameO Foot.execCanErrorStateChange s (execCanErrorStateChange x0 x1 x2 x3 s) := by
  have h0 := Frame.refl Foot.execCanErrorStateChange s
  unfold execCanErrorStateChange
  extract_lets a1 a2 a3
  have h4 : Frame Foot.execCanErrorStateChange s a2 := by
    refine Frame.setFld ?_ (regNo_CAN_ERR _)
    refine Frame.setFld ?_ (regNo_CAN_ERR _)
    exact h0
  clear_value a2
  have h5 : Frame Foot.execCanErrorStateChange s a3 := by
    refine Frame.setFld ?_ (regNo_CAN_ERR _)
    exact h4
  clear_value a3
  refine FrameO.ite ?_ ?_
  · refine FrameO.next ?_
    exact h0
  · refine FrameO.next ?_
    refine Frame.ite ?_ ?_
    · refine Frame.step State.canBusOff_frame ?_
      exact h5
    · refine Frame.ite ?_ ?_
      · refine Frame.step State.event_frame ?_
        exact h5
      · exact h5

def Foot.execCanBusRecovered : Nat := 0x6105000E40000000000000000000000000000000000000410000000000000000000000000000000000000000000000000004000800000010
theorem execCanBusRecovered_frame {s : State} {x0 : Fin 4} :
    FrameO Foot.execCanBusRecovered s (execCanBusRecovered x0 s) := by
  have h0 := Frame.refl Foot.execCanBusRecovered s
  unfold execCanBusRecovered
  extract_lets a1 a2 a3 a4 a5
  have h6 : Frame Foot.execCanBusRecovered s a2 := by
    refine Frame.setFld ?_ (regNo_CAN_ERR _)
    exact h0
  clear_value a2
  have h7 : Frame Foot.execCanBusRecovered s a3 := by
    refine Frame.setFld ?_ (regNo_CAN_ERR _)
    refine Frame.setFld ?_ (regNo_CAN_ERR _)
    exact h6
  clear_value a3
  have h8 : Frame Foot.execCanBusRecovered s a4 := by
    refine Frame.setFld ?_ (regNo_CAN_STAT _)
    refine Frame.step State.setCanCtl_frame ?_
    exact h7
  clear_value a4
  refine FrameO.ite ?_ ?_
  · refine FrameO.next ?_
    exact h0
  · refine FrameO.next ?_
    refine Frame.step State.event_frame ?_
    refine Frame.step State.f2Ends_frame ?_
    exact h8

def Foot.execCanTtCycleStart : Nat := 0x800000000000000000000000000000004000800000000000000000000000000000000000000000000000000000000000000000
theorem execCanTtCycleStart_frame {s : State} {x0 : Fin 4} {x1 : Nat} :
    FrameO Foot.execCanTtCycleStart s (execCanTtCycleStart x0 x1 s) := by
  have h0 := Frame.refl Foot.execCanTtCycleStart s
  unfold execCanTtCycleStart
  extract_lets a1 a2 a3 a4 a5 a6
  have h7 : Frame Foot.execCanTtCycleStart s a1 := by
    refine Frame.step State.at_frame ?_
    exact h0
  clear_value a1
  have h8 : Frame Foot.execCanTtCycleStart s a5 := by
    refine Frame.count ?_ (regNo_CAN_CNT _)
    exact h7
  clear_value a5
  refine FrameO.ite ?_ ?_
  · refine FrameO.next ?_
    exact h7
  · refine FrameO.ite ?_ ?_
    · refine FrameO.next ?_
      exact h7
    · refine FrameO.next ?_
      refine Frame.setFld ?_ (regNo_CAN_TTSTAT _)
      refine Frame.setFld ?_ (regNo_CAN_TTSTAT _)
      exact h8

def Foot.execCanTtColumn : Nat := 0x1000000000000000000000000000000000000000000000000000000000000000000000000000000000000000000000000000000000000
theorem execCanTtColumn_frame {s : State} {x0 : Fin 4} {x1 : Fin 16} :
    FrameO Foot.execCanTtColumn s (execCanTtColumn x0 x1 s) := by
  have h0 := Frame.refl Foot.execCanTtColumn s
  unfold execCanTtColumn
  extract_lets a1 a2 a3
  refine FrameO.ite ?_ ?_
  · refine FrameO.next ?_
    exact h0
  · split
    refine FrameO.next ?_
    refine Frame.step State.setCanCtl_frame ?_
    exact h0

def Foot.ttMissed : Nat := 0x6105000E40000000000000000000000000000000000000800000000000000000000000000000000000000000000000000004000800000010
theorem State.ttMissed_frame {s : State} {x1 : Nat} {x2 : CanTt} :
    Frame Foot.ttMissed s (State.ttMissed s x1 x2) := by
  have h0 := Frame.refl Foot.ttMissed s
  unfold State.ttMissed
  extract_lets a1 a2
  have h3 : Frame Foot.ttMissed s a1 := by
    refine Frame.count ?_ (regNo_CAN_CNT _)
    exact h0
  clear_value a1
  refine Frame.ite ?_ ?_
  · exact h3
  · refine Frame.step State.event_frame ?_
    refine Frame.step State.setCanCtl_frame ?_
    exact h3

def Foot.ttAbsent : Nat := 0x6105000E40000000000000000000000000000000000000000000000000000000000000000000000000000000000000000004000800000010
theorem State.ttAbsent_frame {s : State} {x1 : Nat} {x2 : CanTt} :
    Frame Foot.ttAbsent s (State.ttAbsent s x1 x2) := by
  have h0 := Frame.refl Foot.ttAbsent s
  unfold State.ttAbsent
  extract_lets a1
  refine Frame.ite ?_ ?_
  · exact h0
  · refine Frame.step State.event_frame ?_
    refine Frame.step State.setCanCtl_frame ?_
    exact h0

def Foot.execCanTtWindowEnd : Nat := 0x6105000E40000000000000000000000000000000000000800000000000000000000000000000000000000000000000000004000800000010
theorem execCanTtWindowEnd_frame {s : State} {x0 : Fin 4} {x1 : Fin 16} :
    FrameO Foot.execCanTtWindowEnd s (execCanTtWindowEnd x0 x1 s) := by
  have h0 := Frame.refl Foot.execCanTtWindowEnd s
  unfold execCanTtWindowEnd
  extract_lets a1
  split
  · refine FrameO.next ?_
    exact h0
  · extract_lets a2
    have h3 : Frame Foot.execCanTtWindowEnd s a2 := by
      refine Frame.step State.setCanCtl_frame ?_
      exact h0
    clear_value a2
    refine FrameO.next ?_
    refine Frame.ite ?_ ?_
    · refine Frame.step State.ttMissed_frame ?_
      exact h3
    · refine Frame.ite ?_ ?_
      · exact h3
      · refine Frame.step State.ttAbsent_frame ?_
        exact h3

def Foot.postCanSwap : Nat := 0x6104000E40000000000000000000000000000000000000000000000000000000000000000000000000000000000000000004000800000010
theorem State.postCanSwap_frame {s : State} {x1 : Nat} {x2 : Nat} {x3 : Bool} :
    Frame Foot.postCanSwap s (State.postCanSwap s x1 x2 x3) := by
  have h0 := Frame.refl Foot.postCanSwap s
  unfold State.postCanSwap
  refine Frame.step State.event_frame ?_
  exact h0

def Foot.canReload : Nat := blockMask 13

theorem canImageRegs_unit (c : Nat) : ∀ a ∈ canImageRegs c, unitOf a = 13 := by
  intro a ha
  unfold canImageRegs at ha
  simp only [List.mem_filter, List.mem_map, List.mem_range] at ha
  obtain ⟨⟨k, hk, rfl⟩, _⟩ := ha
  have := Nat.mod_lt c (show 0 < 4 by decide)
  unfold unitOf blockBase Reg.CAN_CTRL
  omega

theorem State.canReload_frame {s : State} {c : Nat} : Frame Foot.canReload s (s.canReload c) := by
  unfold State.canReload
  exact Frame.foldlOn (Frame.refl _ s) (fun t a ha h => h.loadReg (AddrOk.other (canImageRegs_unit c a ha)))

def Foot.canRestage : Nat := 0x1000000000000000000000000000000000000000008000000000000000000000000000000000000000000000000000000000000000000
theorem State.canRestage_frame {s : State} {x1 : Nat} :
    Frame Foot.canRestage s (State.canRestage s x1) := by
  have h0 := Frame.refl Foot.canRestage s
  unfold State.canRestage
  extract_lets a1 a2
  have h3 : Frame Foot.canRestage s a2 := by
    refine Frame.step State.setCanCtl_frame ?_
    exact h0
  clear_value a2
  split
  · refine Frame.step State.canResume_frame ?_
    refine Frame.step State.setCanTxIdx_frame ?_
    exact h3
  · exact h3

def Foot.canTakeover : Nat := 0x100000000000000000000000000000000001FFFFFFFFF8000000000000000000000000000000000000000000000000000000000000000
theorem State.canTakeover_frame {s : State} {x1 : Nat} {x2 : Bool} :
    Frame Foot.canTakeover s (State.canTakeover s x1 x2) := by
  have h0 := Frame.refl Foot.canTakeover s
  unfold State.canTakeover
  extract_lets a1 a2 a3 a4 a5
  have h6 : Frame Foot.canTakeover s a2 := by
    refine Frame.step State.canRestage_frame ?_
    refine Frame.step State.canReload_frame ?_
    exact h0
  clear_value a2
  have h7 : Frame Foot.canTakeover s a3 := by
    refine Frame.ite ?_ ?_
    · refine Frame.setFld ?_ (regNo_CAN_ERR _)
      refine Frame.setFld ?_ (regNo_CAN_ERR _)
      exact h6
    · exact h6
  clear_value a3
  have h8 : Frame Foot.canTakeover s a5 := by
    refine Frame.step State.setCanCtl_frame ?_
    exact h7
  clear_value a5
  refine Frame.ite ?_ ?_
  · refine Frame.step State.canDetect_frame ?_
    exact h8
  · exact h8

def Foot.canExhausted : Nat := 0x7505000E40000000000000000000000000000004000040000000000000000000000000000000000000000000000000000004000800000010
theorem State.canExhausted_frame {s : State} {x1 : Nat} :
    Frame Foot.canExhausted s (State.canExhausted s x1) := by
  have h0 := Frame.refl Foot.canExhausted s
  unfold State.canExhausted
  extract_lets a1 a2 a3 a4
  have h5 : Frame Foot.canExhausted s a1 := by
    refine Frame.setFld ?_ (regNo_CAN_SPSTAT)
    exact h0
  clear_value a1
  have h6 : Frame Foot.canExhausted s a2 := by
    refine Frame.step State.canAbort_frame ?_
    exact h5
  clear_value a2
  have h7 : Frame Foot.canExhausted s a4 := by
    refine Frame.step State.setCanCtl_frame ?_
    exact h6
  clear_value a4
  refine Frame.step State.event_frame ?_
  refine Frame.step State.f2Begins_frame ?_
  exact h7

def Foot.canReturns : Nat := 0x6105000E4000000000000000010000000000001FFFFFFFFF8000000000000000000000000000000000000000000000000004000800000010
theorem State.canReturns_frame {s : State} {x1 : Nat} :
    Frame Foot.canReturns s (State.canReturns s x1) := by
  have h0 := Frame.refl Foot.canReturns s
  unfold State.canReturns
  extract_lets a1
  have h2 : Frame Foot.canReturns s a1 := by
    refine Frame.setFld ?_ (regNo_CAN_STAT _)
    refine Frame.step State.setUnit_frame ?_
    exact h0
  clear_value a1
  refine Frame.step State.postReadmitted_frame ?_
  refine Frame.step State.canTakeover_frame ?_
  exact h2

def Foot.execCanUnitFailure : Nat := 0x7545040E4000000000000000010240000000001FFFFFFFFF8000000000000000000000000000000000000000000000000004000800000010
theorem execCanUnitFailure_frame {s : State} {x0 : Fin 4} {x1 : Bool} :
    FrameO Foot.execCanUnitFailure s (execCanUnitFailure x0 x1 s) := by
  have h0 := Frame.refl Foot.execCanUnitFailure s
  unfold execCanUnitFailure
  split
  · refine FrameO.next ?_
    exact h0
  · extract_lets a1 a2
    have h3 : Frame Foot.execCanUnitFailure s a1 := by
      refine Frame.step State.stopCan_frame ?_
      refine Frame.step State.unitDetected_frame ?_
      exact h0
    clear_value a1
    have h4 : Frame Foot.execCanUnitFailure s a2 := by
      refine Frame.step State.setCanSpare_frame ?_
      exact h3
    clear_value a2
    refine FrameO.next ?_
    refine Frame.ite ?_ ?_
    · refine Frame.ite ?_ ?_
      · refine Frame.step State.canReturns_frame ?_
        exact h4
      · refine Frame.step State.canExhausted_frame ?_
        exact h4
    · refine Frame.ite ?_ ?_
      · refine Frame.step State.canTakeover_frame ?_
        refine Frame.step State.setCanSpare_frame ?_
        refine Frame.step State.claimSpare_frame ?_
        exact h3
      · refine Frame.step State.canExhausted_frame ?_
        exact h3

def Foot.execCanSpareSwitchIn : Nat := 0x6105000E40000000000000000000000000000000000000010000000000000000000000000000000000000000000000000004000800000010
theorem execCanSpareSwitchIn_frame {s : State} {x0 : Fin 4} :
    FrameO Foot.execCanSpareSwitchIn s (execCanSpareSwitchIn x0 s) := by
  have h0 := Frame.refl Foot.execCanSpareSwitchIn s
  unfold execCanSpareSwitchIn
  split
  · refine FrameO.next ?_
    exact h0
  · refine FrameO.ite ?_ ?_
    · refine FrameO.next ?_
      exact h0
    · extract_lets a1 a2 a3 a4 a5
      have h6 : Frame Foot.execCanSpareSwitchIn s a4 := by
        refine Frame.step State.setCanCtl_frame ?_
        exact h0
      clear_value a4
      have h7 : Frame Foot.execCanSpareSwitchIn s a5 := by
        refine Frame.setFld ?_ (regNo_CAN_STAT _)
        refine Frame.setFld ?_ (regNo_CAN_STAT _)
        exact h6
      clear_value a5
      refine FrameO.next ?_
      refine Frame.ite ?_ ?_
      · refine Frame.step State.postCanSwap_frame ?_
        exact h7
      · exact h7

def Foot.execCanShadowEnd : Nat := 0x6145000E40000000000000000100400000000004000000010000000000000000000000000000000000000000000000000004000800000010
theorem execCanShadowEnd_frame {s : State} {x0 : Fin 4} {x1 : Bool} :
    FrameO Foot.execCanShadowEnd s (execCanShadowEnd x0 x1 s) := by
  have h0 := Frame.refl Foot.execCanShadowEnd s
  unfold execCanShadowEnd
  split
  · refine FrameO.next ?_
    exact h0
  · refine FrameO.ite ?_ ?_
    · refine FrameO.next ?_
      exact h0
    · refine FrameO.ite ?_ ?_
      · extract_lets a1 a2
        have h3 : Frame Foot.execCanShadowEnd s a1 := by
          refine Frame.step State.setCanSpare_frame ?_
          refine Frame.step State.shadowPassed_frame ?_
          exact h0
        clear_value a1
        have h4 : Frame Foot.execCanShadowEnd s a2 := by
          refine Frame.ite ?_ ?_
          · refine Frame.step State.canDetect_frame ?_
            exact h3
          · exact h3
        clear_value a2
        refine FrameO.next ?_
        refine Frame.step State.postCanSwap_frame ?_
        refine Frame.setFld ?_ (regNo_CAN_STAT _)
        exact h4
      · refine FrameO.next ?_
        refine Frame.step State.postCanSwap_frame ?_
        refine Frame.step State.setCanSpare_frame ?_
        refine Frame.step State.shadowFailed_frame ?_
        exact h0

def Foot.canBoundary : Nat := 0x1000000000000000000000000000000000000000000000000000000000000000000000000000000000000000000000000000000000000
theorem State.canBoundary_frame {s : State} :
    Frame Foot.canBoundary s (State.canBoundary s) := by
  have h0 := Frame.refl Foot.canBoundary s
  unfold State.canBoundary
  refine Frame.foldl ?_ (fun u1 x2 h3 => ?_)
  · exact h0
  · extract_lets a4
    refine Frame.ite ?_ ?_
    · exact h3
    · refine Frame.step State.setCanCtl_frame ?_
      exact h3

/-! ### Eth -/

def Foot.setEthPort : Nat := 0x2000000000000000000000000000000000000000000000000000000000000000000000000000000000000000000000000000000000000
theorem State.setEthPort_frame {s : State} {x1 : Nat} {x2 : EthPort} :
    Frame Foot.setEthPort s (State.setEthPort s x1 x2) := by
  have h0 := Frame.refl Foot.setEthPort s
  unfold State.setEthPort
  exact { h0 with eth := fun hb => absurd hb (by decide) }

def Foot.edgeIrq : Nat := 0x4000000000000000000000000000000000000000000000000000000000000000000000000000000000000000000000000000000000000
theorem State.edgeIrq_frame {s : State} {x1 : Nat} :
    Frame Foot.edgeIrq s (State.edgeIrq s x1) := by
  have h0 := Frame.refl Foot.edgeIrq s
  unfold State.edgeIrq
  exact { h0 with hic := fun hb => absurd hb (by decide) }

def Foot.ethTxBell : Nat := 0x2000000000000000000000000000000000000000000000000000000000000000000000000000000000000000000000000000000000000
theorem State.ethTxBell_frame {s : State} {x1 : Nat} {x2 : Word} :
    Frame Foot.ethTxBell s (State.ethTxBell s x1 x2) := by
  have h0 := Frame.refl Foot.ethTxBell s
  unfold State.ethTxBell
  split
  · refine Frame.step State.setEthPort_frame ?_
    exact h0
  · exact h0

def Foot.ethRxBell : Nat := 0x2000000000000000000000000000000000000000000000000000000000000000000000000000000000000000000000000000000000000
theorem State.ethRxBell_frame {s : State} {x1 : Nat} {x2 : Word} :
    Frame Foot.ethRxBell s (State.ethRxBell s x1 x2) := by
  have h0 := Frame.refl Foot.ethRxBell s
  unfold State.ethRxBell
  split
  · refine Frame.step State.setEthPort_frame ?_
    exact h0
  · exact h0

def Foot.noStamp : Nat := 0x400000000000000000000000000000000000000000000000000000000000000000000000000000000000000000000000000000000000000
theorem State.noStamp_frame {s : State} :
    FrameR Foot.noStamp s (State.noStamp s) := by
  have h0 := Frame.refl Foot.noStamp s
  unfold State.noStamp
  split
  rename_i x1 x2 x3 x4
  refine Frame.cutR (K := Foot.noStamp) (s := s) x4 ?_ (fun h5 => ?_)
  · refine FrameR.step State.takeFree_frame ?_
    exact h0
  · split
    rename_i x6 x7 x8 x9
    refine Frame.cutR (K := Foot.noStamp) (s := s) x9 ?_ (fun h10 => ?_)
    · refine FrameR.step State.takeFree_frame ?_
      exact h5
    · split
      rename_i x11 x12 x13 x14
      refine Frame.cutR (K := Foot.noStamp) (s := s) x14 ?_ (fun h15 => ?_)
      · refine FrameR.step State.takeFree_frame ?_
        exact h10
      · split
        rename_i x16 x17 x18 x19
        refine Frame.cutR (K := Foot.noStamp) (s := s) x19 ?_ (fun h20 => ?_)
        · refine FrameR.step State.takeFree_frame ?_
          exact h15
        · refine FrameR.mk ?_
          exact h20

def Foot.ethWriteEntry : Nat := maskBit 311 ||| maskBit bit_sram ||| maskBit bit_hic ||| Foot.setEthPort

theorem State.ethWriteEntry_frame {s : State} {p len type filter : Nat} {st : EthStamp} {tag : Word}
    {data : List Byte} : Frame Foot.ethWriteEntry s (s.ethWriteEntry p len type filter st tag data) := by
  unfold State.ethWriteEntry
  refine Frame.ite (Frame.refl _ s) ?_
  extract_lets x k ph x0 ws w7 s1 s2 wrap s3
  have hk : k < 2 ^ 12 := s.fld_lt _ _
  have h1 : Frame Foot.ethWriteEntry s s1 := (Frame.refl _ s).fabricWordsIn (by
    have : s.fld (Reg.ETH_Pp_RXBASE p) Fld.ETH_Pp_RXBASE.OFFSET < 2 ^ 17 := s.fld_lt _ _
    have hl : (ws ++ [w7]).length = 8 := rfl
    rw [hl]
    unfold State.ethRxSlot
    omega)
  have h2 : Frame Foot.ethWriteEntry s s2 := h1.fabricBytesIn (by
    have : s1.fld (Reg.ETH_Pp_BUF p) Fld.ETH_Pp_BUF.RXBUF < 2 ^ 11 := s1.fld_lt _ _
    have hl : (data.take 2048).length ≤ 2048 := by
      rw [List.length_take]
      exact Nat.min_le_left _ _
    unfold State.ethRxBuf
    omega)
  have h3 : Frame Foot.ethWriteEntry s s3 := h2.setFld (regNo_ETH_Pp_IDX _)
  exact Frame.ite (Frame.step State.setEthPort_frame h3) h3

def Foot.ethConfirm : Nat := 0x1006000000000000000000000000000000800000000000000000000000000000000000000000000000000000000000000000000000000000
theorem State.ethConfirm_frame {s : State} {x1 : Nat} {x2 : Nat} {x3 : EthTx} {x4 : EthStamp} :
    Frame Foot.ethConfirm s (State.ethConfirm s x1 x2 x3 x4) := by
  have h0 := Frame.refl Foot.ethConfirm s
  unfold State.ethConfirm
  refine Frame.ite ?_ ?_
  · refine Frame.step State.ethWriteEntry_frame ?_
    exact h0
  · exact h0

def Foot.ethConfirmUnsent : Nat := 0x1406000000000000000000000000000000800000000000000000000000000000000000000000000000000000000000000000000000000000
theorem State.ethConfirmUnsent_frame {s : State} {x1 : Nat} {x2 : Nat} {x3 : EthTx} :
    Frame Foot.ethConfirmUnsent s (State.ethConfirmUnsent s x1 x2 x3) := by
  have h0 := Frame.refl Foot.ethConfirmUnsent s
  unfold State.ethConfirmUnsent
  refine Frame.ite ?_ ?_
  · split
    rename_i x1 x2 x3 x4
    refine Frame.cutR (K := Foot.ethConfirmUnsent) (s := s) x4 ?_ (fun h5 => ?_)
    · refine FrameR.step State.noStamp_frame ?_
      exact h0
    · refine Frame.step State.ethConfirm_frame ?_
      exact h5
  · exact h0

def Foot.ethAbort : Nat := 0x1406000000000000000000000000000000800000000000000000000000000000000000000000000000000000000000000000000000000000
theorem State.ethAbort_frame {s : State} {x1 : Nat} :
    Frame Foot.ethAbort s (State.ethAbort s x1) := by
  have h0 := Frame.refl Foot.ethAbort s
  unfold State.ethAbort
  extract_lets a1 a2 a3
  have h4 : Frame Foot.ethAbort s a3 := by
    refine Frame.step State.setEthPort_frame ?_
    exact h0
  clear_value a3
  refine Frame.foldl ?_ (fun u5 x6 h7 => ?_)
  · exact h4
  · refine Frame.step State.ethConfirmUnsent_frame ?_
    exact h7

def Foot.ethTxHalt : Nat := 0x6104000E40000000000000000000000000800000000000000000000000000000000000000000000000000000000000000004000800000010
theorem State.ethTxHalt_frame {s : State} {x1 : Nat} :
    Frame Foot.ethTxHalt s (State.ethTxHalt s x1) := by
  have h0 := Frame.refl Foot.ethTxHalt s
  unfold State.ethTxHalt
  refine Frame.step State.event_frame ?_
  refine Frame.setFld ?_ (regNo_ETH_Pp_IDX _)
  exact h0

def Foot.ethTxPass : Nat := 0x2000000000000000000000000000000800000000000000000000000000000000000000000000000000000000000000000000000000000
theorem State.ethTxPass_frame {s : State} {x1 : Nat} :
    Frame Foot.ethTxPass s (State.ethTxPass s x1) := by
  have h0 := Frame.refl Foot.ethTxPass s
  unfold State.ethTxPass
  extract_lets a1 a2
  refine Frame.ite ?_ ?_
  · refine Frame.step State.setEthPort_frame ?_
    refine Frame.setFld ?_ (regNo_ETH_Pp_IDX _)
    exact h0
  · refine Frame.setFld ?_ (regNo_ETH_Pp_IDX _)
    exact h0

def Foot.ethStage : Nat := 0x2000000000000000000000000000002800000000000000000000000000000000000000000000000000000000000000000000000000000
theorem State.ethStage_frame {s : State} {x1 : Nat} {x2 : List Word} :
    Frame Foot.ethStage s (State.ethStage s x1 x2) := by
  have h0 := Frame.refl Foot.ethStage s
  unfold State.ethStage
  extract_lets a1 a2 a3 a4 a5 a6 a7 a8 a9 a10
  have h11 : Frame Foot.ethStage s a10 := by
    refine Frame.ite ?_ ?_
    · exact h0
    · refine Frame.count ?_ (regNo_ETH_Pp_CNT _)
      exact h0
  clear_value a10
  refine Frame.step State.ethTxPass_frame ?_
  refine Frame.step State.setEthPort_frame ?_
  exact h11

def Foot.ethFetch : Nat := 0x6106000E4000000000C000000000000002800000000000000000000000000000000000000000000000000000000000000004000800000010
theorem State.ethFetch_frame {s : State} {x1 : Nat} :
    Frame Foot.ethFetch s (State.ethFetch s x1) := by
  have h0 := Frame.refl Foot.ethFetch s
  unfold State.ethFetch
  extract_lets a1 a2 a3 a4
  split
  · refine Frame.step State.ethTxHalt_frame ?_
    refine Frame.step State.sramDed_frame ?_
    exact h0
  · refine Frame.ite ?_ ?_
    · refine Frame.step State.ethTxHalt_frame ?_
      exact h0
    · refine Frame.ite ?_ ?_
      · exact h0
      · refine Frame.step State.ethStage_frame ?_
        exact h0

def Foot.execEthTxFetch : Nat := 0x6106000E4000000000C000000000000002800000000000000000000000000000000000000000000000000000000000000004000800000010
theorem execEthTxFetch_frame {s : State} {x0 : Fin 2} :
    FrameO Foot.execEthTxFetch s (execEthTxFetch x0 s) := by
  have h0 := Frame.refl Foot.execEthTxFetch s
  unfold execEthTxFetch
  extract_lets a1
  refine FrameO.next ?_
  refine Frame.ite ?_ ?_
  · refine Frame.step State.ethFetch_frame ?_
    exact h0
  · exact h0

def Foot.ethResume : Nat := 0x800000000000000000000000000000000000000000000000000000000000000000000000000000
theorem State.ethResume_frame {s : State} {x1 : Nat} :
    Frame Foot.ethResume s (State.ethResume s x1) := by
  have h0 := Frame.refl Foot.ethResume s
  unfold State.ethResume
  refine Frame.setFld ?_ (regNo_ETH_Pp_IDX _)
  exact h0

def Foot.ethFlush : Nat := 0x1406000000000000000000000000000000800000000000000000000000000000000000000000000000000000000000000000000000000000
theorem State.ethFlush_frame {s : State} {x1 : Nat} :
    Frame Foot.ethFlush s (State.ethFlush s x1) := by
  have h0 := Frame.refl Foot.ethFlush s
  unfold State.ethFlush
  refine Frame.ite ?_ ?_
  · exact h0
  · extract_lets a1 a2 a3
    have h4 : Frame Foot.ethFlush s a1 := by
      refine Frame.step State.ethResume_frame ?_
      refine Frame.step State.ethAbort_frame ?_
      exact h0
    clear_value a1
    have h5 : Frame Foot.ethFlush s a3 := by
      refine Frame.step State.setEthPort_frame ?_
      exact h4
    clear_value a3
    refine Frame.setFld ?_ (regNo_ETH_Pp_IDX _)
    exact h5

def Foot.ethTxctlWritten : Nat := 0x1406000000000000000000000000000000800000000000000000000000000000000000000000000000000000000000000000000000000000
theorem State.ethTxctlWritten_frame {s : State} {x1 : Nat} {x2 : Word} :
    Frame Foot.ethTxctlWritten s (State.ethTxctlWritten s x1 x2) := by
  have h0 := Frame.refl Foot.ethTxctlWritten s
  unfold State.ethTxctlWritten
  refine Frame.ite ?_ ?_
  · refine Frame.step State.ethFlush_frame ?_
    exact h0
  · refine Frame.ite ?_ ?_
    · refine Frame.step State.ethResume_frame ?_
      exact h0
    · exact h0

def Foot.ethTxEnable : Nat := 0x1406000000000000000000000000000000800000000000000000000000000000000000000000000000000000000000000000000000000000
theorem State.ethTxEnable_frame {s : State} {x1 : Nat} {x2 : Bool} :
    Frame Foot.ethTxEnable s (State.ethTxEnable s x1 x2) := by
  have h0 := Frame.refl Foot.ethTxEnable s
  unfold State.ethTxEnable
  refine Frame.ite ?_ ?_
  · refine Frame.step State.setEthPort_frame ?_
    refine Frame.step State.ethResume_frame ?_
    refine Frame.setFld ?_ (regNo_ETH_Pp_IDX _)
    exact h0
  · refine Frame.step State.ethAbort_frame ?_
    exact h0

def Foot.ethRxEnable : Nat := 0x2000000000000000000000000000000800000000000000000000000000000000000000000000000000000000000000000000000000000
theorem State.ethRxEnable_frame {s : State} {x1 : Nat} :
    Frame Foot.ethRxEnable s (State.ethRxEnable s x1) := by
  have h0 := Frame.refl Foot.ethRxEnable s
  unfold State.ethRxEnable
  refine Frame.step State.setEthPort_frame ?_
  refine Frame.setFld ?_ (regNo_ETH_Pp_IDX _)
  exact h0

def Foot.execEthTxStart : Nat := 0x2000000800000000000000000000000000000000000000000000000000000000000000000000000000000000000000000000000000000
theorem execEthTxStart_frame {s : State} {x0 : Fin 2} {x1 : Nat} :
    FrameO Foot.execEthTxStart s (execEthTxStart x0 x1 s) := by
  have h0 := Frame.refl Foot.execEthTxStart s
  unfold execEthTxStart
  extract_lets a1 a2
  have h3 : Frame Foot.execEthTxStart s a1 := by
    refine Frame.step State.at_frame ?_
    exact h0
  clear_value a1
  split
  · refine FrameO.ite ?_ ?_
    · refine FrameO.next ?_
      refine Frame.step State.setEthPort_frame ?_
      exact h3
    · refine FrameO.next ?_
      exact h3
  · refine FrameO.next ?_
    exact h3

def Foot.execEthTxFrameSent : Nat := 0x1006000000000000000000000000000000800000000000000000000000000000000000000000000000000000000000000000000000000000
theorem execEthTxFrameSent_frame {s : State} {x0 : Fin 2} {x1 : Nat} {x2 : Nat} {x3 : Nat} :
    FrameO Foot.execEthTxFrameSent s (execEthTxFrameSent x0 x1 x2 x3 s) := by
  have h0 := Frame.refl Foot.execEthTxFrameSent s
  unfold execEthTxFrameSent
  extract_lets a1 a2
  split
  · refine FrameO.ite ?_ ?_
    · refine FrameO.next ?_
      refine Frame.step State.ethConfirm_frame ?_
      refine Frame.step State.setEthPort_frame ?_
      exact h0
    · refine FrameO.next ?_
      exact h0
  · refine FrameO.next ?_
    exact h0

def Foot.execEthTxExpired : Nat := 0x1406000000800000000000000000000002800000000000000000000000000000000000000000000000000000000000000000000000000000
theorem execEthTxExpired_frame {s : State} {x0 : Fin 2} {x1 : Nat} :
    FrameO Foot.execEthTxExpired s (execEthTxExpired x0 x1 s) := by
  have h0 := Frame.refl Foot.execEthTxExpired s
  unfold execEthTxExpired
  extract_lets a1 a2
  have h3 : Frame Foot.execEthTxExpired s a1 := by
    refine Frame.step State.at_frame ?_
    exact h0
  clear_value a1
  split
  · refine FrameO.ite ?_ ?_
    · extract_lets a4
      have h5 : Frame Foot.execEthTxExpired s a4 := by
        refine Frame.count ?_ (regNo_ETH_Pp_CNT _)
        refine Frame.step State.setEthPort_frame ?_
        exact h3
      clear_value a4
      refine FrameO.next ?_
      refine Frame.step State.ethConfirmUnsent_frame ?_
      exact h5
    · refine FrameO.next ?_
      exact h3
  · refine FrameO.next ?_
    exact h3

def Foot.ethDrop : Nat := 0x6106000E40000000000000000000000002000000000000000000000000000000000000000000000000000000000000000004000800000010
theorem State.ethDrop_frame {s : State} {x1 : Nat} :
    Frame Foot.ethDrop s (State.ethDrop s x1) := by
  have h0 := Frame.refl Foot.ethDrop s
  unfold State.ethDrop
  extract_lets a1 a2 a3
  have h4 : Frame Foot.ethDrop s a1 := by
    refine Frame.count ?_ (regNo_ETH_Pp_CNT _)
    exact h0
  clear_value a1
  refine Frame.ite ?_ ?_
  · refine Frame.step State.setEthPort_frame ?_
    exact h4
  · refine Frame.step State.event_frame ?_
    refine Frame.step State.setEthPort_frame ?_
    exact h4

def Foot.ethStore : Nat := 0x7106000E40000000000000000000000002800000000000000000000000000000000000000000000000000000000000000004000800000010
theorem State.ethStore_frame {s : State} {x1 : Nat} {x2 : Nat} {x3 : List Byte} {x4 : EthStamp} :
    Frame Foot.ethStore s (State.ethStore s x1 x2 x3 x4) := by
  have h0 := Frame.refl Foot.ethStore s
  unfold State.ethStore
  refine Frame.ite ?_ ?_
  · refine Frame.step State.ethDrop_frame ?_
    exact h0
  · refine Frame.step State.ethWriteEntry_frame ?_
    exact h0

def Foot.ethWake : Nat := 0x610C000E48000000000042000000000000000000000000000000000000000000000000000000000000000000000000000004000800180010
theorem State.ethWake_frame {s : State} {x1 : Nat} {x2 : Nat} :
    Frame Foot.ethWake s (State.ethWake s x1 x2) := by
  have h0 := Frame.refl Foot.ethWake s
  unfold State.ethWake
  refine Frame.ite ?_ ?_
  · refine Frame.step State.wakeBy_frame ?_
    refine Frame.step State.event_frame ?_
    exact h0
  · exact h0

def Foot.ethAccept : Nat := 0x710E000E48000000000042000000000002800000000000000000000000000000000000000000000000000000000000000004000800180010
theorem State.ethAccept_frame {s : State} {x1 : Nat} {x2 : List Byte} {x3 : EthStamp} :
    Frame Foot.ethAccept s (State.ethAccept s x1 x2 x3) := by
  have h0 := Frame.refl Foot.ethAccept s
  unfold State.ethAccept
  split
  · extract_lets a1 a2
    have h3 : Frame Foot.ethAccept s a2 := by
      refine Frame.step State.ethStore_frame ?_
      exact h0
    clear_value a2
    refine Frame.ite ?_ ?_
    · exact h0
    · refine Frame.ite ?_ ?_
      · refine Frame.step State.ethWake_frame ?_
        exact h3
      · exact h3
  · refine Frame.ite ?_ ?_
    · refine Frame.step State.ethStore_frame ?_
      exact h0
    · exact h0

def Foot.execEthFrameReceived : Nat := 0x710E000E48000000000042000000000002800000000000000000000000000000000000000000000000000000000000000004000800180010
theorem execEthFrameReceived_frame {s : State} {x0 : Fin 2} {x1 : List Byte} {x2 : Bool} {x3 : Nat} {x4 : Nat} {x5 : Nat} :
    FrameO Foot.execEthFrameReceived s (execEthFrameReceived x0 x1 x2 x3 x4 x5 s) := by
  have h0 := Frame.refl Foot.execEthFrameReceived s
  unfold execEthFrameReceived
  refine FrameO.ite ?_ ?_
  · refine FrameO.next ?_
    exact h0
  · refine FrameO.ite ?_ ?_
    · refine FrameO.next ?_
      refine Frame.count ?_ (regNo_ETH_Pp_CNT _)
      exact h0
    · refine FrameO.next ?_
      refine Frame.step State.ethAccept_frame ?_
      exact h0

def Foot.mdioWrite : Nat := 0x8000000000000000000000000000000000000000000000000000000000000000000000000000
theorem State.mdioWrite_frame {s : State} {x1 : Word} :
    Frame Foot.mdioWrite s (State.mdioWrite s x1) := by
  have h0 := Frame.refl Foot.mdioWrite s
  unfold State.mdioWrite
  refine Frame.ite ?_ ?_
  · exact h0
  · refine Frame.setReg ?_ (regNo_ETH_MDIO)
    exact h0

def Foot.execEthMdioDone : Nat := 0x4000000000000000000000000000000008000000000000000000000000000000000000000000000000000000000000000000000000000
theorem execEthMdioDone_frame {s : State} {x0 : Fin 65536} :
    FrameO Foot.execEthMdioDone s (execEthMdioDone x0 s) := by
  have h0 := Frame.refl Foot.execEthMdioDone s
  unfold execEthMdioDone
  refine FrameO.ite ?_ ?_
  · refine FrameO.next ?_
    exact h0
  · extract_lets a1 a2
    have h3 : Frame Foot.execEthMdioDone s a2 := by
      refine Frame.ite ?_ ?_
      · refine Frame.setFld ?_ (regNo_ETH_MDIO)
        exact h0
      · exact h0
    clear_value a2
    refine FrameO.next ?_
    refine Frame.step State.edgeIrq_frame ?_
    refine Frame.setFld ?_ (regNo_ETH_MDIO)
    exact h3

def Foot.execEthPhyInterrupt : Nat := 0x6106000E40000000000000000000000000020000000000000000000000000000000000000000000000000000000000000004000800000010
theorem execEthPhyInterrupt_frame {s : State} :
    FrameO Foot.execEthPhyInterrupt s (execEthPhyInterrupt s) := by
  have h0 := Frame.refl Foot.execEthPhyInterrupt s
  unfold execEthPhyInterrupt
  extract_lets a1 a2
  have h3 : Frame Foot.execEthPhyInterrupt s a1 := by
    refine Frame.setFld ?_ (regNo_ETH_Pp_STAT _)
    exact h0
  clear_value a1
  refine FrameO.ite ?_ ?_
  · refine FrameO.next ?_
    exact h3
  · refine FrameO.next ?_
    refine Frame.step State.event_frame ?_
    refine Frame.step State.setEthPort_frame ?_
    exact h3

def Foot.execEthLinkChange : Nat := 0x6104000E40000000000000000000000000020000000000000000000000000000000000000000000000000000000000000004000800000010
theorem execEthLinkChange_frame {s : State} {x0 : Bool} {x1 : Fin 4} :
    FrameO Foot.execEthLinkChange s (execEthLinkChange x0 x1 s) := by
  have h0 := Frame.refl Foot.execEthLinkChange s
  unfold execEthLinkChange
  extract_lets a1
  have h2 : Frame Foot.execEthLinkChange s a1 := by
    refine Frame.setFld ?_ (regNo_ETH_Pp_STAT _)
    exact h0
  clear_value a1
  refine FrameO.next ?_
  refine Frame.step State.event_frame ?_
  refine Frame.setFld ?_ (regNo_ETH_Pp_STAT _)
  exact h2

def Foot.plcaState : Nat := 0x6104000E40000000000000000000000000020000000000000000000000000000000000000000000000000000000000000004000800000010
theorem State.plcaState_frame {s : State} {x1 : Bool} :
    Frame Foot.plcaState s (State.plcaState s x1) := by
  have h0 := Frame.refl Foot.plcaState s
  unfold State.plcaState
  refine Frame.ite ?_ ?_
  · exact h0
  · refine Frame.step State.event_frame ?_
    refine Frame.setFld ?_ (regNo_ETH_Pp_STAT _)
    exact h0

def Foot.execPlcaBeaconLoss : Nat := 0x6104000E40000000000000000000000000020000000000000000000000000000000000000000000000000000000000000004000800000010
theorem execPlcaBeaconLoss_frame {s : State} :
    FrameO Foot.execPlcaBeaconLoss s (execPlcaBeaconLoss s) := by
  have h0 := Frame.refl Foot.execPlcaBeaconLoss s
  unfold execPlcaBeaconLoss
  refine FrameO.next ?_
  refine Frame.step State.plcaState_frame ?_
  exact h0

def Foot.execPlcaBeaconReturn : Nat := 0x6104000E40000000000000000000000000020000000000000000000000000000000000000000000000000000000000000004000800000010
theorem execPlcaBeaconReturn_frame {s : State} :
    FrameO Foot.execPlcaBeaconReturn s (execPlcaBeaconReturn s) := by
  have h0 := Frame.refl Foot.execPlcaBeaconReturn s
  unfold execPlcaBeaconReturn
  refine FrameO.next ?_
  refine Frame.step State.plcaState_frame ?_
  exact h0

def Foot.vtSteered : Nat := 0x6104000E50000000000000000000000000000000000000000000000000000000000000000000000000000000000000000004000800004010
theorem State.vtSteered_frame {s : State} :
    Frame Foot.vtSteered s (State.vtSteered s) := by
  have h0 := Frame.refl Foot.vtSteered s
  unfold State.vtSteered
  refine Frame.step State.refreshVt_frame ?_
  exact { h0 with vt := fun hb => absurd hb (by decide) }

def Foot.vtRate : Nat := 0x6104000E50000000000000000000000000000000000000000000000000000000000000000000000000000000000000000004000800004010
theorem State.vtRate_frame {s : State} {x1 : Word} :
    Frame Foot.vtRate s (State.vtRate s x1) := by
  have h0 := Frame.refl Foot.vtRate s
  unfold State.vtRate
  extract_lets a1 a2
  have h3 : Frame Foot.vtRate s a1 := by
    refine Frame.step State.rebaseVt_frame ?_
    exact h0
  clear_value a1
  refine Frame.step State.vtSteered_frame ?_
  exact { h3 with vt := fun hb => absurd hb (by decide) }

def Foot.vtStep : Nat := 0x6104000E50000000000000000000000000000000000000000000000000000000000000000000000000000000000000000004000800004010
theorem State.vtStep_frame {s : State} {x1 : Word} :
    Frame Foot.vtStep s (State.vtStep s x1) := by
  have h0 := Frame.refl Foot.vtStep s
  unfold State.vtStep
  extract_lets a1 a2 a3
  have h4 : Frame Foot.vtStep s a1 := by
    refine Frame.step State.rebaseVt_frame ?_
    exact h0
  clear_value a1
  refine Frame.step State.vtSteered_frame ?_
  exact { h4 with vt := fun hb => absurd hb (by decide) }

def Foot.vtSet : Nat := 0x6104000E50000000000000000000000000000000000000000000000000000000000000000000000000000000000000000004000800004010
theorem State.vtSet_frame {s : State} :
    Frame Foot.vtSet s (State.vtSet s) := by
  have h0 := Frame.refl Foot.vtSet s
  unfold State.vtSet
  extract_lets a1 a2 a3
  refine Frame.step State.vtSteered_frame ?_
  exact { h0 with vt := fun hb => absurd hb (by decide) }

def Foot.vtTake : Nat := 0x6104000E50000000000000000000000000000000000000000000000000000000000000000000000000000000000000000004000800004010
theorem State.vtTake_frame {s : State} {x1 : VtSteer} :
    Frame Foot.vtTake s (State.vtTake s x1) := by
  have h0 := Frame.refl Foot.vtTake s
  unfold State.vtTake
  split
  · refine Frame.step State.vtRate_frame ?_
    exact h0
  · refine Frame.step State.vtStep_frame ?_
    exact h0
  · refine Frame.step State.vtSet_frame ?_
    exact h0

def Foot.vtSteer : Nat := 0x6104000E50000000000000000000000000000000000000000000000000000000000000000000000000000000000000000004000800004010
theorem State.vtSteer_frame {s : State} {x1 : Bool} {x2 : VtSteer} :
    Frame Foot.vtSteer s (State.vtSteer s x1 x2) := by
  have h0 := Frame.refl Foot.vtSteer s
  unfold State.vtSteer
  refine Frame.ite ?_ ?_
  · exact { h0 with vt := fun hb => absurd hb (by decide) }
  · refine Frame.step State.vtTake_frame ?_
    exact h0

def Foot.vtCtrlWritten : Nat := 0x6104000E50000000000000000000000000000000000000000000000000000000000000000000000000000000000000000004000800004010
theorem State.vtCtrlWritten_frame {s : State} {x1 : Bool} {x2 : Word} :
    Frame Foot.vtCtrlWritten s (State.vtCtrlWritten s x1 x2) := by
  have h0 := Frame.refl Foot.vtCtrlWritten s
  unfold State.vtCtrlWritten
  extract_lets a1
  have h2 : Frame Foot.vtCtrlWritten s a1 := by
    refine Frame.step State.refreshVt_frame ?_
    exact h0
  clear_value a1
  refine Frame.ite ?_ ?_
  · refine Frame.step State.vtSteer_frame ?_
    exact h2
  · exact h2

def Foot.execVtTimeout : Nat := 0x6104000E40800000000000000000000000000000000000000000000000000000000000000000000000000000000000000004000800004010
theorem execVtTimeout_frame {s : State} :
    FrameO Foot.execVtTimeout s (execVtTimeout s) := by
  have h0 := Frame.refl Foot.execVtTimeout s
  unfold execVtTimeout
  split
  · refine FrameO.next ?_
    refine Frame.step State.refreshVt_frame ?_
    refine Frame.step State.at_frame ?_
    exact h0
  · refine FrameO.next ?_
    exact h0

def Foot.vtLatch : Nat := 0x10000000000000000000000000007000000000000000000000000000000000000000000000000000000000000000000000000000
theorem State.vtLatch_frame {s : State} :
    Frame Foot.vtLatch s (State.vtLatch s) := by
  have h0 := Frame.refl Foot.vtLatch s
  unfold State.vtLatch
  extract_lets a1 a2 a3 a4
  have h5 : Frame Foot.vtLatch s a3 := by
    refine Frame.setReg ?_ (regNo_ETH_TVT_TICK)
    exact h0
  clear_value a3
  refine Frame.ite ?_ ?_
  · exact { h5 with vt := fun hb => absurd hb (by decide) }
  · refine Frame.setReg ?_ (regNo_ETH_TVT_NS)
    refine Frame.setReg ?_ (regNo_ETH_TVT_SEC)
    exact h5

def Foot.tvtTickRead : Nat := 0x10000000000000000000000000000000000000000000000000000000000000000000000000000000000000000000000000000000
theorem State.tvtTickRead_frame {s : State} :
    Frame Foot.tvtTickRead s (State.tvtTickRead s) := by
  have h0 := Frame.refl Foot.tvtTickRead s
  unfold State.tvtTickRead
  exact { h0 with vt := fun hb => absurd hb (by decide) }

def Foot.tvtNsRead : Nat := 0x10000000000000000000000000006000000000000000000000000000000000000000000000000000000000000000000000000000
theorem State.tvtNsRead_frame {s : State} :
    Frame Foot.tvtNsRead s (State.tvtNsRead s) := by
  have h0 := Frame.refl Foot.tvtNsRead s
  unfold State.tvtNsRead
  extract_lets a1 a2
  have h3 : Frame Foot.tvtNsRead s a2 := by
    exact { h0 with vt := fun hb => absurd hb (by decide) }
  clear_value a2
  split
  · refine Frame.setReg ?_ (regNo_ETH_TVT_NS)
    refine Frame.setReg ?_ (regNo_ETH_TVT_SEC)
    exact h3
  · exact h3

def Foot.ethBoundary : Nat := 0x2000000000000000000000000000000000000000000000000000000000000000000000000000000000000000000000000000000000000
theorem State.ethBoundary_frame {s : State} :
    Frame Foot.ethBoundary s (State.ethBoundary s) := by
  have h0 := Frame.refl Foot.ethBoundary s
  unfold State.ethBoundary
  refine Frame.foldl ?_ (fun u1 x2 h3 => ?_)
  · exact h0
  · extract_lets a4
    refine Frame.ite ?_ ?_
    · exact h3
    · refine Frame.step State.setEthPort_frame ?_
      exact h3

/-! ### Flags -/

def Foot.refreshMtip : Nat := 0x4000000000000000000000000000000000000000000000000000000000000000000000000000000000000000000000000000000000000
theorem State.refreshMtip_frame {s : State} :
    Frame Foot.refreshMtip s (State.refreshMtip s) := by
  have h0 := Frame.refl Foot.refreshMtip s
  unfold State.refreshMtip
  exact { h0 with hic := fun hb => absurd hb (by decide) }

/-! ### Hic -/

def Foot.core1Start : Nat := 0x800000000000000000000000000000000000000000000000000000000000000000000000000000000000000000000
theorem State.core1Start_frame {s : State} :
    Frame Foot.core1Start s (State.core1Start s) := by
  have h0 := Frame.refl Foot.core1Start s
  unfold State.core1Start
  refine Frame.setFld ?_ (regNo_HIC_C1_CTRL)
  exact h0

def Foot.setCached : Nat := 0x4000000000000000000000000000000000000000000000000000000000000000000000000000000000000000000000000000000000000
theorem State.setCached_frame {s : State} {x1 : Bool} {x2 : Nat} {x3 : List (Nat × Word)} :
    Frame Foot.setCached s (State.setCached s x1 x2 x3) := by
  have h0 := Frame.refl Foot.setCached s
  unfold State.setCached
  refine Frame.ite ?_ ?_
  · exact { h0 with hic := fun hb => absurd hb (by decide) }
  · exact { h0 with hic := fun hb => absurd hb (by decide) }

def Foot.cacheWritten : Nat := 0x4000000000000000000000000000000000000000000000000000000000000000000000000000000000000000000000000000000000000
theorem State.cacheWritten_frame {s : State} {x1 : Nat} {x2 : Word} :
    Frame Foot.cacheWritten s (State.cacheWritten s x1 x2) := by
  have h0 := Frame.refl Foot.cacheWritten s
  unfold State.cacheWritten
  extract_lets a1
  have h2 : Frame Foot.cacheWritten s a1 := by
    refine Frame.ite ?_ ?_
    · refine Frame.step State.setCached_frame ?_
      exact h0
    · exact h0
  clear_value a1
  refine Frame.ite ?_ ?_
  · refine Frame.step State.setCached_frame ?_
    exact h2
  · exact h2

def Foot.irqClaim : Nat := 0x4000000000000000000000000000000000000000000000000000000000000000000000000000000000000000000000000000000000000
theorem State.irqClaim_frame {s : State} {x1 : Nat} :
    FrameR Foot.irqClaim s (State.irqClaim s x1) := by
  have h0 := Frame.refl Foot.irqClaim s
  unfold State.irqClaim
  extract_lets a1 a2
  refine FrameR.ite ?_ ?_
  · refine FrameR.mk ?_
    exact h0
  · refine FrameR.mk ?_
    exact { h0 with hic := fun hb => absurd hb (by decide) }

def Foot.irqComplete : Nat := 0x4000000000000000000000000000000000000000000000000000000000000000000000000000000000000000000000000000000000000
theorem State.irqComplete_frame {s : State} {x1 : Nat} {x2 : Nat} :
    Frame Foot.irqComplete s (State.irqComplete s x1 x2) := by
  have h0 := Frame.refl Foot.irqComplete s
  unfold State.irqComplete
  exact { h0 with hic := fun hb => absurd hb (by decide) }

def Foot.semRead : Nat := 0x40000000000000000000000000000000000000000000000000000000000000000000000000000000000000000000000000
theorem State.semRead_frame {s : State} {x1 : Nat} {x2 : Nat} :
    FrameR Foot.semRead s (State.semRead s x1 x2) := by
  have h0 := Frame.refl Foot.semRead s
  unfold State.semRead
  extract_lets a1
  refine FrameR.mk ?_
  refine Frame.ite ?_ ?_
  · refine Frame.setFld ?_ (regNo_HIC_SEMn _)
    exact h0
  · exact h0

def Foot.semWrite : Nat := 0x40000000000000000000000000000000000000000000000000000000000000000000000000000000000000000000000000
theorem State.semWrite_frame {s : State} {x1 : Nat} {x2 : Nat} {x3 : Word} :
    Frame Foot.semWrite s (State.semWrite s x1 x2 x3) := by
  have h0 := Frame.refl Foot.semWrite s
  unfold State.semWrite
  refine Frame.ite ?_ ?_
  · refine Frame.setFld ?_ (regNo_HIC_SEMn _)
    exact h0
  · exact h0

def Foot.execIrqClaim : Nat := 0x204000000000000000000000000000000000000000000000000000000000000000000000000000000000000000000000000000000000000
theorem execIrqClaim_frame {s : State} {x0 : Fin 2} :
    FrameO Foot.execIrqClaim s (execIrqClaim x0 s) := by
  have h0 := Frame.refl Foot.execIrqClaim s
  unfold execIrqClaim
  split
  rename_i x1 x2 x3 x4
  refine Frame.cutR (K := Foot.execIrqClaim) (s := s) x4 ?_ (fun h5 => ?_)
  · refine FrameR.step State.irqClaim_frame ?_
    exact h0
  · refine FrameO.next ?_
    exact { h5 with bus := fun hb => absurd hb (by decide) }

def Foot.execIrqComplete : Nat := 0x204000000000000000000000000000000000000000000000000000000000000000000000000000000000000000000000000000000000000
theorem execIrqComplete_frame {s : State} {x0 : Fin 2} {x1 : Word} :
    FrameO Foot.execIrqComplete s (execIrqComplete x0 x1 s) := by
  have h0 := Frame.refl Foot.execIrqComplete s
  unfold execIrqComplete
  refine FrameO.next ?_
  extract_lets a1
  have h2 : Frame Foot.execIrqComplete s a1 := by
    refine Frame.step State.irqComplete_frame ?_
    exact h0
  clear_value a1
  exact { h2 with bus := fun hb => absurd hb (by decide) }

def Foot.execSemRead : Nat := 0x200000000000040000000000000000000000000000000000000000000000000000000000000000000000000000000000000000000000000
theorem execSemRead_frame {s : State} {x0 : Fin 16} {x1 : Fin 3} :
    FrameO Foot.execSemRead s (execSemRead x0 x1 s) := by
  have h0 := Frame.refl Foot.execSemRead s
  unfold execSemRead
  split
  rename_i x1 x2 x3 x4
  refine Frame.cutR (K := Foot.execSemRead) (s := s) x4 ?_ (fun h5 => ?_)
  · refine FrameR.step State.semRead_frame ?_
    exact h0
  · refine FrameO.next ?_
    exact { h5 with bus := fun hb => absurd hb (by decide) }

def Foot.execSemFree : Nat := 0x200000000000040000000000000000000000000000000000000000000000000000000000000000000000000000000000000000000000000
theorem execSemFree_frame {s : State} {x0 : Fin 16} {x1 : Fin 2} {x2 : Word} :
    FrameO Foot.execSemFree s (execSemFree x0 x1 x2 s) := by
  have h0 := Frame.refl Foot.execSemFree s
  unfold execSemFree
  refine FrameO.next ?_
  extract_lets a1
  have h2 : Frame Foot.execSemFree s a1 := by
    refine Frame.step State.semWrite_frame ?_
    exact h0
  clear_value a1
  exact { h2 with bus := fun hb => absurd hb (by decide) }

def Foot.execMtimecmpReached : Nat := 0x4000000800000000000000000000000000000000000000000000000000000000000000000000000000000000000000000000000000000
theorem execMtimecmpReached_frame {s : State} {x0 : Fin 2} {x1 : Nat} :
    FrameO Foot.execMtimecmpReached s (execMtimecmpReached x0 x1 s) := by
  have h0 := Frame.refl Foot.execMtimecmpReached s
  unfold execMtimecmpReached
  extract_lets a1 a2
  have h3 : Frame Foot.execMtimecmpReached s a1 := by
    refine Frame.step State.at_frame ?_
    exact h0
  clear_value a1
  refine FrameO.next ?_
  refine Frame.ite ?_ ?_
  · exact { h3 with hic := fun hb => absurd hb (by decide) }
  · exact h3

def Foot.setWd : Nat := 0x4000000000000000000000000000000000000000000000000000000000000000000000000000000000000000000000000000000000000
theorem State.setWd_frame {s : State} {x1 : Nat} {x2 : Wd} :
    Frame Foot.setWd s (State.setWd s x1 x2) := by
  have h0 := Frame.refl Foot.setWd s
  unfold State.setWd
  exact { h0 with hic := fun hb => absurd hb (by decide) }

def Foot.wdRestart : Nat := 0x4000000000000000000000000000000000000000000000000000000000000000000000000000000000000000000000000000000000000
theorem State.wdRestart_frame {s : State} {x1 : Nat} :
    Frame Foot.wdRestart s (State.wdRestart s x1) := by
  have h0 := Frame.refl Foot.wdRestart s
  unfold State.wdRestart
  refine Frame.step State.setWd_frame ?_
  exact h0

def Foot.wdViolation : Nat := 0x610401AE400000200000000000000000000000000000000000000000000000010000000000000000000101781A0000000004000800000010
theorem State.wdViolation_frame {s : State} {x1 : Nat} {x2 : Nat} :
    Frame Foot.wdViolation s (State.wdViolation s x1 x2) := by
  have h0 := Frame.refl Foot.wdViolation s
  unfold State.wdViolation
  extract_lets a1 a2 a3 a4 a5 a6 a7
  have h8 : Frame Foot.wdViolation s a1 := by
    refine Frame.setFld ?_ (regNo_HIC_WDw_STAT _)
    exact h0
  clear_value a1
  have h9 : Frame Foot.wdViolation s a3 := by
    refine Frame.step State.setWd_frame ?_
    exact h8
  clear_value a3
  have h10 : Frame Foot.wdViolation s a7 := by
    exact { h9 with hic := fun hb => absurd hb (by decide) }
  clear_value a7
  refine Frame.step State.f3_frame ?_
  exact h10

def Foot.wdHold : Nat := 0x4000000000000000000000000000000000000000000000000000000000000000000000000000000000000000000000000000000000000
theorem State.wdHold_frame {s : State} {x1 : Nat} :
    Frame Foot.wdHold s (State.wdHold s x1) := by
  have h0 := Frame.refl Foot.wdHold s
  unfold State.wdHold
  extract_lets a1
  split
  · refine Frame.ite ?_ ?_
    · refine Frame.step State.setWd_frame ?_
      exact h0
    · exact h0
  · refine Frame.ite ?_ ?_
    · exact h0
    · refine Frame.step State.setWd_frame ?_
      exact h0

def Foot.wdCfgWritten : Nat := 0x4000000000000000000000000000000000000000000000000000000000000000000000000000000000000000000000000000000000000
theorem State.wdCfgWritten_frame {s : State} {x1 : Nat} {x2 : Bool} :
    Frame Foot.wdCfgWritten s (State.wdCfgWritten s x1 x2) := by
  have h0 := Frame.refl Foot.wdCfgWritten s
  unfold State.wdCfgWritten
  refine Frame.ite ?_ ?_
  · refine Frame.step State.wdRestart_frame ?_
    exact h0
  · refine Frame.step State.wdHold_frame ?_
    exact h0

def Foot.wdService : Nat := 0x610401AE400000200000000000000000000000000000000000000000000000010000000000000000000101781A0000000004000800000010
theorem State.wdService_frame {s : State} {x1 : Nat} {x2 : Word} :
    Frame Foot.wdService s (State.wdService s x1 x2) := by
  have h0 := Frame.refl Foot.wdService s
  unfold State.wdService
  split
  · refine Frame.ite ?_ ?_
    · refine Frame.ite ?_ ?_
      · refine Frame.step State.wdViolation_frame ?_
        exact h0
      · refine Frame.step State.setWd_frame ?_
        exact h0
    · refine Frame.ite ?_ ?_
      · refine Frame.step State.wdViolation_frame ?_
        exact h0
      · refine Frame.step State.wdViolation_frame ?_
        exact h0
  · refine Frame.ite ?_ ?_
    · refine Frame.ite ?_ ?_
      · refine Frame.step State.wdRestart_frame ?_
        exact h0
      · refine Frame.step State.wdViolation_frame ?_
        exact h0
    · refine Frame.ite ?_ ?_
      · refine Frame.step State.wdViolation_frame ?_
        exact h0
      · refine Frame.step State.wdViolation_frame ?_
        exact h0

def Foot.wdSvcWritten : Nat := 0x610401AE400000200000000000000000000000000000000000000000000000010000000000000000000101781A0000000004000800000010
theorem State.wdSvcWritten_frame {s : State} {x1 : Nat} {x2 : Nat} {x3 : Word} :
    Frame Foot.wdSvcWritten s (State.wdSvcWritten s x1 x2 x3) := by
  have h0 := Frame.refl Foot.wdSvcWritten s
  unfold State.wdSvcWritten
  refine Frame.ite ?_ ?_
  · refine Frame.count ?_ (regNo_HIC_WDw_STAT _)
    exact h0
  · refine Frame.ite ?_ ?_
    · refine Frame.ite ?_ ?_
      · refine Frame.step State.wdViolation_frame ?_
        exact h0
      · refine Frame.step State.wdService_frame ?_
        exact h0
    · exact h0

def Foot.execWdogService : Nat := 0x630401AE408000200000000000000000000000000000000000000000000000010000000000000000000101781A0000000004000800000010
theorem execWdogService_frame {s : State} {x0 : Fin 2} {x1 : Fin 2} {x2 : Word} {x3 : Nat} :
    FrameO Foot.execWdogService s (execWdogService x0 x1 x2 x3 s) := by
  have h0 := Frame.refl Foot.execWdogService s
  unfold execWdogService
  refine FrameO.next ?_
  extract_lets a1
  have h2 : Frame Foot.execWdogService s a1 := by
    refine Frame.step State.wdSvcWritten_frame ?_
    refine Frame.step State.at_frame ?_
    exact h0
  clear_value a1
  exact { h2 with bus := fun hb => absurd hb (by decide) }

def Foot.execWdogPrewarning : Nat := 0x4000000800000000000000000000000000000000000000000000000000000000000000000000000000000000000000000000000000000
theorem execWdogPrewarning_frame {s : State} {x0 : Fin 2} :
    FrameO Foot.execWdogPrewarning s (execWdogPrewarning x0 s) := by
  have h0 := Frame.refl Foot.execWdogPrewarning s
  unfold execWdogPrewarning
  extract_lets a1 a2 a3
  have h4 : Frame Foot.execWdogPrewarning s a3 := by
    refine Frame.step State.at_frame ?_
    exact h0
  clear_value a3
  refine FrameO.ite ?_ ?_
  · refine FrameO.next ?_
    exact h0
  · refine FrameO.next ?_
    refine Frame.step State.edgeIrq_frame ?_
    refine Frame.step State.setWd_frame ?_
    exact h4

def Foot.execWdogClose : Nat := 0x610401AE408000200000000000000000000000000000000000000000000000010000000000000000000101781A0000000004000800000010
theorem execWdogClose_frame {s : State} {x0 : Fin 2} {x1 : Bool} :
    FrameO Foot.execWdogClose s (execWdogClose x0 x1 s) := by
  have h0 := Frame.refl Foot.execWdogClose s
  unfold execWdogClose
  extract_lets a1
  refine FrameO.ite ?_ ?_
  · refine FrameO.next ?_
    exact h0
  · refine FrameO.ite ?_ ?_
    · split
      · refine FrameO.next ?_
        refine Frame.step State.wdViolation_frame ?_
        refine Frame.step State.at_frame ?_
        exact h0
      · refine FrameO.next ?_
        exact h0
    · refine FrameO.ite ?_ ?_
      · refine FrameO.next ?_
        exact h0
      · refine FrameO.next ?_
        refine Frame.step State.wdViolation_frame ?_
        refine Frame.step State.at_frame ?_
        exact h0

def Foot.execDebugHalt : Nat := 0x4000000000000000000000000000000000000000000000000000000000000000000000000000000000000000000000000000000000000
theorem execDebugHalt_frame {s : State} {x0 : Fin 2} {x1 : Bool} :
    FrameO Foot.execDebugHalt s (execDebugHalt x0 x1 s) := by
  have h0 := Frame.refl Foot.execDebugHalt s
  unfold execDebugHalt
  refine FrameO.ite ?_ ?_
  · refine FrameO.next ?_
    exact h0
  · extract_lets a1 a2
    have h3 : Frame Foot.execDebugHalt s a2 := by
      exact { h0 with hic := fun hb => absurd hb (by decide) }
    clear_value a2
    refine FrameO.next ?_
    refine Frame.step State.wdHold_frame ?_
    exact h3

def Foot.xspCmdWritten : Nat := 0x6104000E40000800000000000000000000000000000000000000000000000000000000000000000000000000000000000004000800000010
theorem State.xspCmdWritten_frame {s : State} {x1 : Word} :
    Frame Foot.xspCmdWritten s (State.xspCmdWritten s x1) := by
  have h0 := Frame.refl Foot.xspCmdWritten s
  unfold State.xspCmdWritten
  extract_lets a1
  refine Frame.ite ?_ ?_
  · exact h0
  · refine Frame.ite ?_ ?_
    · refine Frame.step State.event_frame ?_
      refine Frame.setFld ?_ (regNo_XSP_STAT)
      exact h0
    · refine Frame.setFld ?_ (regNo_XSP_STAT)
      exact h0

def Foot.xspData : Nat := 0x4000000000000000000000000000000000000000000000000000000000000000000000000000000000000000000000000000
theorem State.xspData_frame {s : State} {x1 : List Byte} :
    Frame Foot.xspData s (State.xspData s x1) := by
  have h0 := Frame.refl Foot.xspData s
  unfold State.xspData
  refine Frame.foldl ?_ (fun u1 x2 h3 => ?_)
  · exact h0
  · extract_lets a4
    refine Frame.setReg ?_ (regNo_XSP_DATA _)
    exact h3

def Foot.execXspCommandDone : Nat := 0x4000000004800000000000000000000000000000000000000000000000000000000000000000000000000000000000000000000000000
theorem execXspCommandDone_frame {s : State} {x0 : List Byte} :
    FrameO Foot.execXspCommandDone s (execXspCommandDone x0 s) := by
  have h0 := Frame.refl Foot.execXspCommandDone s
  unfold execXspCommandDone
  refine FrameO.ite ?_ ?_
  · refine FrameO.next ?_
    exact h0
  · extract_lets a1 a2
    have h3 : Frame Foot.execXspCommandDone s a2 := by
      refine Frame.ite ?_ ?_
      · refine Frame.step State.xspData_frame ?_
        exact h0
      · exact h0
    clear_value a2
    refine FrameO.next ?_
    refine Frame.step State.edgeIrq_frame ?_
    refine Frame.setFld ?_ (regNo_XSP_STAT)
    exact h3

def Foot.xspTimeout : Nat := 0x6304000E40000800000000000000000000000000000000000000000000000000000000000000000000000000000000000004000800000010
theorem State.xspTimeout_frame {s : State} {x1 : Nat} {x2 : Nat} :
    Frame Foot.xspTimeout s (State.xspTimeout s x1 x2) := by
  have h0 := Frame.refl Foot.xspTimeout s
  unfold State.xspTimeout
  extract_lets a1 a2 a3
  have h4 : Frame Foot.xspTimeout s a1 := by
    refine Frame.setFld ?_ (regNo_XSP_STAT)
    exact h0
  clear_value a1
  have h5 : Frame Foot.xspTimeout s a3 := by
    exact { h4 with hic := fun hb => absurd hb (by decide), bus := fun hb => absurd hb (by decide) }
  clear_value a3
  refine Frame.step State.event_frame ?_
  exact h5

def Foot.execXspReadTimeout : Nat := 0x6304000E40000800000000000000000000000000000000000000000000000000000000000000000000000000000000000004000800000010
theorem execXspReadTimeout_frame {s : State} {x0 : Fin 2} {x1 : Fin 2} :
    FrameO Foot.execXspReadTimeout s (execXspReadTimeout x0 x1 s) := by
  have h0 := Frame.refl Foot.execXspReadTimeout s
  unfold execXspReadTimeout
  refine FrameO.ite ?_ ?_
  · refine FrameO.next ?_
    refine Frame.step State.xspTimeout_frame ?_
    exact h0
  · refine FrameO.next ?_
    exact h0

def Foot.execGpioEdge : Nat := 0x140000000000000000000000000000000000000000000000000000000000000000000000000000000000000000000000000000
theorem execGpioEdge_frame {s : State} {x0 : Fin 32} {x1 : Bool} :
    FrameO Foot.execGpioEdge s (execGpioEdge x0 x1 s) := by
  have h0 := Frame.refl Foot.execGpioEdge s
  unfold execGpioEdge
  extract_lets a1 a2
  have h3 : Frame Foot.execGpioEdge s a2 := by
    refine Frame.setReg ?_ (regNo_GPIO_IN)
    exact h0
  clear_value a2
  refine FrameO.next ?_
  refine Frame.ite ?_ ?_
  · refine Frame.setReg ?_ (regNo_GPIO_IRQSTAT)
    exact h3
  · exact h3

def Foot.bootOkWritten : Nat := 0x4000000000000000000000000000000000000000000000000000000000000000000000000000000000000000000000000000000000020
theorem State.bootOkWritten_frame {s : State} {x1 : Word} :
    Frame Foot.bootOkWritten s (State.bootOkWritten s x1) := by
  have h0 := Frame.refl Foot.bootOkWritten s
  unfold State.bootOkWritten
  extract_lets a1 a2
  have h3 : Frame Foot.bootOkWritten s a1 := by
    refine Frame.ite ?_ ?_
    · refine Frame.setFld ?_ (regNo_SYS_BOOTSTAT)
      exact h0
    · exact h0
  clear_value a1
  refine Frame.ite ?_ ?_
  · exact { h3 with hic := fun hb => absurd hb (by decide) }
  · exact h3

def Foot.execTapInstruction : Nat := 0x4000000000000000000000000000000000000000000000000000000000000000000000000000000000000000000000000000000000000
theorem execTapInstruction_frame {s : State} {x0 : Nat} :
    FrameO Foot.execTapInstruction s (execTapInstruction x0 s) := by
  have h0 := Frame.refl Foot.execTapInstruction s
  unfold execTapInstruction
  refine FrameO.next ?_
  exact { h0 with hic := fun hb => absurd hb (by decide) }

/-! ### RegRead -/

def Foot.setChkRun : Nat := 0x80000000000000000000000000000000000000000000000000000000000000000000000000000000000000000000000000000000000000
theorem State.setChkRun_frame {s : State} {x1 : Nat} {x2 : Word} :
    Frame Foot.setChkRun s (State.setChkRun s x1 x2) := by
  have h0 := Frame.refl Foot.setChkRun s
  unfold State.setChkRun
  exact { h0 with chk := fun hb => absurd hb (by decide) }

def Foot.holdUpper : Nat := 0x10000000400000000000000000006000000000000000000000000000000000000000000000000000000000000000000090000000
theorem State.holdUpper_frame {s : State} {x1 : Nat} :
    Frame Foot.holdUpper s (State.holdUpper s x1) := by
  have h0 := Frame.refl Foot.holdUpper s
  unfold State.holdUpper
  refine Frame.ite ?_ ?_
  · refine Frame.setReg ?_ (regNo_CLK_TICKCNT_HI)
    exact h0
  · refine Frame.ite ?_ ?_
    · refine Frame.setReg ?_ (regNo_CLK_RTC_HI)
      exact h0
    · refine Frame.ite ?_ ?_
      · refine Frame.setReg ?_ (regNo_HIC_MTIME_HI)
        exact h0
      · refine Frame.ite ?_ ?_
        · refine Frame.step State.tvtTickRead_frame ?_
          exact h0
        · refine Frame.ite ?_ ?_
          · refine Frame.step State.tvtNsRead_frame ?_
            exact h0
          · exact h0

def Foot.readReg : Nat := 0x10000000400000000000000000006000000000000000000000000000000000000000000000000000000000000000000090000000
theorem State.readReg_frame {s : State} {x1 : Nat} :
    FrameR Foot.readReg s (State.readReg s x1) := by
  have h0 := Frame.refl Foot.readReg s
  unfold State.readReg
  refine FrameR.mk ?_
  refine Frame.step State.holdUpper_frame ?_
  exact h0

def Foot.busRead : Nat := 0x4000010000040400000000000000000006000000000000000000000000000000000000000000000000000000000000000000090000000
theorem State.busRead_frame {s : State} {x1 : Nat} {x2 : Nat} :
    FrameR Foot.busRead s (State.busRead s x1 x2) := by
  have h0 := Frame.refl Foot.busRead s
  unfold State.busRead
  split
  · split
    rename_i x1 x2 x3 x4
    refine Frame.cutR (K := Foot.busRead) (s := s) x4 ?_ (fun h5 => ?_)
    · refine FrameR.step State.irqClaim_frame ?_
      exact h0
    · refine FrameR.mk ?_
      exact h5
  · split
    · split
      rename_i x6 x7 x8 x9
      refine Frame.cutR (K := Foot.busRead) (s := s) x9 ?_ (fun h10 => ?_)
      · refine FrameR.step State.semRead_frame ?_
        exact h0
      · refine FrameR.mk ?_
        exact h10
    · refine FrameR.step State.readReg_frame ?_
      exact h0

/-! ### Chk -/

def Foot.chkAlgWritten : Nat := 0x80000000000000000000000000000200000000000000000000000000000000000000000000000000000000000000000000000000000000
theorem State.chkAlgWritten_frame {s : State} {x1 : Nat} :
    Frame Foot.chkAlgWritten s (State.chkAlgWritten s x1) := by
  have h0 := Frame.refl Foot.chkAlgWritten s
  unfold State.chkAlgWritten
  extract_lets a1
  refine Frame.step State.setChkRun_frame ?_
  refine Frame.setReg ?_ (regNo_CHK_Un_SEED _)
  exact h0

def Foot.chkSeedWritten : Nat := 0x80000000000000000000000000000000000000000000000000000000000000000000000000000000000000000000000000000000000000
theorem State.chkSeedWritten_frame {s : State} {x1 : Nat} :
    Frame Foot.chkSeedWritten s (State.chkSeedWritten s x1) := by
  have h0 := Frame.refl Foot.chkSeedWritten s
  unfold State.chkSeedWritten
  refine Frame.step State.setChkRun_frame ?_
  exact h0

def Foot.chkData : Nat := 0x80000000000000000000000000000000000000000000000000000000000000000000000000000000000000000000000000000000000000
theorem State.chkData_frame {s : State} {x1 : Nat} {x2 : List Byte} :
    Frame Foot.chkData s (State.chkData s x1 x2) := by
  have h0 := Frame.refl Foot.chkData s
  unfold State.chkData
  refine Frame.step State.setChkRun_frame ?_
  exact h0

def Foot.setScan : Nat := 0x80000000000000000000000000000000000000000000000000000000000000000000000000000000000000000000000000000000000000
theorem State.setScan_frame {s : State} {x1 : Nat} {x2 : ScanSlot} :
    Frame Foot.setScan s (State.setScan s x1 x2) := by
  have h0 := Frame.refl Foot.setScan s
  unfold State.setScan
  exact { h0 with chk := fun hb => absurd hb (by decide) }

def Foot.mismatch : Nat := 0x618421AE400000000000000000000800000000000000000000000000000000010000000000000000000101781A0000000004000800000810
theorem State.mismatch_frame {s : State} {x1 : Nat} {x2 : Nat} {x3 : Nat} {x4 : Target} :
    Frame Foot.mismatch s (State.mismatch s x1 x2 x3 x4) := by
  have h0 := Frame.refl Foot.mismatch s
  unfold State.mismatch
  extract_lets a1 a2 a3 a4 a5
  have h6 : Frame Foot.mismatch s a1 := by
    refine Frame.count ?_ (regNo_CHK_SCs_STAT _)
    exact h0
  clear_value a1
  have h7 : Frame Foot.mismatch s a4 := by
    refine Frame.ite ?_ ?_
    · refine Frame.step State.f3_frame ?_
      exact h6
    · refine Frame.step State.event_frame ?_
      exact h6
  clear_value a4
  split
  · refine Frame.step State.wghStuck_frame ?_
    exact h7
  · refine Frame.setFld ?_ (regNo_SYS_RESTORE)
    exact { h7 with chk := fun hb => absurd hb (by decide) }
  · exact h7

def Foot.scanStart : Nat := 0x80000000000000000000000000080000000000000000000000000000000000000000000000000000000000000000000000000000000000
theorem State.scanStart_frame {s : State} {x1 : Nat} {x2 : Bool} :
    Frame Foot.scanStart s (State.scanStart s x1 x2) := by
  have h0 := Frame.refl Foot.scanStart s
  unfold State.scanStart
  refine Frame.step State.setScan_frame ?_
  refine Frame.setFld ?_ (regNo_CHK_SCs_STAT _)
  exact h0

def Foot.passEnds : Nat := 0x6104000E40000000000000000000080000000000000000000000000000000000000000000000000000000000000000000004000800000010
theorem State.passEnds_frame {s : State} {x1 : Nat} :
    Frame Foot.passEnds s (State.passEnds s x1) := by
  have h0 := Frame.refl Foot.passEnds s
  unfold State.passEnds
  extract_lets a1 a2
  have h3 : Frame Foot.passEnds s a2 := by
    refine Frame.count ?_ (regNo_CHK_SCs_STAT _)
    refine Frame.setFld ?_ (regNo_CHK_SCs_STAT _)
    exact h0
  clear_value a2
  refine Frame.ite ?_ ?_
  · refine Frame.step State.event_frame ?_
    exact h3
  · exact h3

def Foot.nextTarget : Nat := 0x6184000E40000000000000000000080000000000000000000000000000000000000000000000000000000000000000000004000800000010
theorem State.nextTarget_frame {s : State} {x1 : Nat} :
    Frame Foot.nextTarget s (State.nextTarget s x1) := by
  have h0 := Frame.refl Foot.nextTarget s
  unfold State.nextTarget
  extract_lets a1 a2
  have h3 : Frame Foot.nextTarget s a2 := by
    refine Frame.step State.setScan_frame ?_
    exact h0
  clear_value a2
  refine Frame.ite ?_ ?_
  · refine Frame.step State.passEnds_frame ?_
    exact h3
  · exact h3

def Foot.rangeStops : Nat := 0x618421AE400000000000000000000800000000000000000000000000000000010000000000000000000101781A0000000004000800000810
theorem State.rangeStops_frame {s : State} {x1 : Nat} {x2 : Nat} :
    Frame Foot.rangeStops s (State.rangeStops s x1 x2) := by
  have h0 := Frame.refl Foot.rangeStops s
  unfold State.rangeStops
  refine Frame.setFld ?_ (regNo_CHK_SCs_STAT _)
  refine Frame.step State.mismatch_frame ?_
  exact h0

def Foot.judgeTarget : Nat := 0x618421AE400000000000000000000C00000000000000000000000000000000010000000000000000000101781A0000000004000800000810
theorem State.judgeTarget_frame {s : State} {x1 : Nat} {x2 : List (Nat × Word)} {x3 : Target} :
    Frame Foot.judgeTarget s (State.judgeTarget s x1 x2 x3) := by
  have h0 := Frame.refl Foot.judgeTarget s
  unfold State.judgeTarget
  extract_lets a1 a2
  have h3 : Frame Foot.judgeTarget s a2 := by
    refine Frame.setReg ?_ (regNo_CHK_SCs_RES _)
    exact h0
  clear_value a2
  split
  · refine Frame.step State.rangeStops_frame ?_
    exact h0
  · refine Frame.step State.nextTarget_frame ?_
    refine Frame.ite ?_ ?_
    · refine Frame.step State.endCause_frame ?_
      exact h3
    · refine Frame.step State.mismatch_frame ?_
      exact h3
  · refine Frame.step State.nextTarget_frame ?_
    refine Frame.ite ?_ ?_
    · refine Frame.step State.endCause_frame ?_
      exact h0
    · refine Frame.step State.mismatch_frame ?_
      exact h0

def Foot.flipWord : Nat := maskBit bit_image ||| blockMask 10 ||| maskBit bit_sram ||| maskBit bit_recipe |||
  maskBit bit_table ||| maskBit bit_store

theorem State.flipWord_frame {s : State} {t : Option Target} {f : Nat × Word} :
    Frame Foot.flipWord s (s.flipWord t f) := by
  unfold State.flipWord
  have h0 := Frame.refl Foot.flipWord s
  extract_lets a bs
  refine Frame.ite (Frame.ite { h0 with image := fun hb => absurd hb (by decide) }
    { h0 with image := fun hb => absurd hb (by decide) }) ?_
  split
  · next h =>
    refine h0.setRegAt (AddrOk.other (u := 10) ?_)
    unfold inFluxMap at h
    simp only [Bool.and_eq_true, beq_iff_eq] at h
    exact h.1.1
  · exact Frame.ite (h0.setWord fun i _ => memFree_any (by decide) (by decide) (by decide) (by decide)) h0

def Foot.execScanTargetDone : Nat := 0x3F1A421AE400000000000000000000C00000000000000000000000007FFF800010000000000000000000101781A0000000004000800000810
theorem execScanTargetDone_frame {s : State} {x0 : Fin 8} {x1 : List (Nat × Word)} {x2 : List (Nat × Word)} :
    FrameO Foot.execScanTargetDone s (execScanTargetDone x0 x1 x2 s) := by
  have h0 := Frame.refl Foot.execScanTargetDone s
  unfold execScanTargetDone
  extract_lets a1 a2 a3
  have h4 : Frame Foot.execScanTargetDone s a3 := by
    refine Frame.foldl ?_ (fun u5 x6 h7 => ?_)
    · exact h0
    · refine Frame.step State.flipWord_frame ?_
      exact h7
  clear_value a3
  refine FrameO.ite ?_ ?_
  · refine FrameO.next ?_
    exact h0
  · clear_value a2
    split
    · refine FrameO.next ?_
      refine Frame.step State.judgeTarget_frame ?_
      exact h4
    · refine FrameO.next ?_
      refine Frame.step State.passEnds_frame ?_
      exact h4

def Foot.execScanPeriodStart : Nat := 0x80000000800000000000000000080000000000000000000000000000000000000000000000000000000000000000000000000000000000
theorem execScanPeriodStart_frame {s : State} {x0 : Fin 8} :
    FrameO Foot.execScanPeriodStart s (execScanPeriodStart x0 s) := by
  have h0 := Frame.refl Foot.execScanPeriodStart s
  unfold execScanPeriodStart
  refine FrameO.ite ?_ ?_
  · refine FrameO.next ?_
    exact h0
  · extract_lets a1
    have h2 : Frame Foot.execScanPeriodStart s a1 := by
      refine Frame.step State.at_frame ?_
      exact h0
    clear_value a1
    refine FrameO.next ?_
    refine Frame.step State.scanStart_frame ?_
    exact h2

def Foot.scanSpoil : Nat := 0x80000000000000000000000000000000000000000000000000000000000000000000000000000000000000000000000000000000000000
theorem State.scanSpoil_frame {s : State} {x1 : Nat} {x2 : Nat} :
    Frame Foot.scanSpoil s (State.scanSpoil s x1 x2) := by
  have h0 := Frame.refl Foot.scanSpoil s
  unfold State.scanSpoil
  refine Frame.foldl ?_ (fun u1 x2 h3 => ?_)
  · exact h0
  · extract_lets a4
    split
    · refine Frame.ite ?_ ?_
      · refine Frame.step State.setScan_frame ?_
        exact h3
      · exact h3
    · exact h3

def Foot.scanSpoilImage : Nat := 0x80000000000000000000000000000000000000000000000000000000000000000000000000000000000000000000000000000000000000
theorem State.scanSpoilImage_frame {s : State} :
    Frame Foot.scanSpoilImage s (State.scanSpoilImage s) := by
  have h0 := Frame.refl Foot.scanSpoilImage s
  unfold State.scanSpoilImage
  refine Frame.foldl ?_ (fun u1 x2 h3 => ?_)
  · exact h0
  · refine Frame.ite ?_ ?_
    · refine Frame.step State.setScan_frame ?_
      exact h3
    · exact h3

def Foot.scanLoaded : Nat := 0x80002000000000000000000000000000000000000000000000000000000000000000000000000000000060000000000000000000000000
theorem State.scanLoaded_frame {s : State} {x1 : Nat} {x2 : Nat} :
    Frame Foot.scanLoaded s (State.scanLoaded s x1 x2) := by
  have h0 := Frame.refl Foot.scanLoaded s
  unfold State.scanLoaded
  extract_lets a1
  have h2 : Frame Foot.scanLoaded s a1 := by
    refine Frame.foldl ?_ (fun u3 x4 h5 => ?_)
    · exact h0
    · refine Frame.ite ?_ ?_
      · refine Frame.step State.endCause_frame ?_
        exact h5
      · exact h5
  clear_value a1
  refine Frame.step State.scanSpoil_frame ?_
  exact h2

def Foot.scanBoundary : Nat := 0x80000000000000000000000000000000000000000000000000000000000000000000000000000000000000000000000000000000000000
theorem State.scanBoundary_frame {s : State} :
    Frame Foot.scanBoundary s (State.scanBoundary s) := by
  have h0 := Frame.refl Foot.scanBoundary s
  unfold State.scanBoundary
  refine Frame.foldl ?_ (fun u1 x2 h3 => ?_)
  · exact h0
  · refine Frame.ite ?_ ?_
    · refine Frame.step State.setScan_frame ?_
      exact h3
    · exact h3

end Sys2Proof.Machine
end

