-- ==== Sys2Proof/Laws/FrameReset.lean ====
section
/-! SUPPORT. What each operation can change, one lemma for one function, and the mask of the parts it names:
boot, self-test, hold-up and ledger, resets. -/

set_option Elab.async false

namespace Sys2Proof.Machine

/-! ### Boot -/

def Foot.showRepair : Nat := 0x4000000000000000000000000000000000000000000000000000000000000000000000000000000000000
theorem State.showRepair_frame {s : State} :
    Frame Foot.showRepair s (State.showRepair s) := by
  have h0 := Frame.refl Foot.showRepair s
  unfold State.showRepair
  extract_lets a1 a2
  refine Frame.setFld ?_ (regNo_BST_REPAIR)
  refine Frame.setFld ?_ (regNo_BST_REPAIR)
  exact h0

def Foot.mapSpareRow : Nat := 0x40000000000000000000000000000000000000000000000000000000000000000000000000000000000000000000000000000000000000
theorem State.mapSpareRow_frame {s : State} {x1 : Nat × Nat × Nat} :
    Frame Foot.mapSpareRow s (State.mapSpareRow s x1) := by
  have h0 := Frame.refl Foot.mapSpareRow s
  unfold State.mapSpareRow
  refine Frame.ite ?_ ?_
  · exact h0
  · exact { h0 with bst := fun hb => absurd hb (by decide) }

def Foot.postRepair : Nat := 0x6104000E40000000000000000000000000000000000000000000000000000000000000000000000000000000000000000004000800000010
theorem State.postRepair_frame {s : State} {x1 : Nat} {x2 : Nat × Nat × Nat} :
    Frame Foot.postRepair s (State.postRepair s x1 x2) := by
  have h0 := Frame.refl Foot.postRepair s
  unfold State.postRepair
  refine Frame.step State.event_frame ?_
  exact h0

def Foot.rebuildRepairs : Nat := 0x40000000000000000000000004000000000000000000000000000000000000000000000000000000000000000000000000000000000000
theorem State.rebuildRepairs_frame {s : State} {x1 : List MemRow} :
    Frame Foot.rebuildRepairs s (State.rebuildRepairs s x1) := by
  have h0 := Frame.refl Foot.rebuildRepairs s
  unfold State.rebuildRepairs
  extract_lets a1 a2 a3
  have h4 : Frame Foot.rebuildRepairs s a2 := by
    refine Frame.foldl ?_ (fun u5 x6 h7 => ?_)
    · exact { h0 with bst := fun hb => absurd hb (by decide) }
    · refine Frame.step State.mapSpareRow_frame ?_
      exact h7
  clear_value a2
  refine Frame.step State.showRepair_frame ?_
  exact { h4 with bst := fun hb => absurd hb (by decide) }

def Foot.setBootCode : Nat := 0x20
theorem State.setBootCode_frame {s : State} {x1 : Nat} :
    Frame Foot.setBootCode s (State.setBootCode s x1) := by
  have h0 := Frame.refl Foot.setBootCode s
  unfold State.setBootCode
  refine Frame.setFld ?_ (regNo_SYS_BOOTSTAT)
  exact h0

def Foot.bootStops : Nat := 0x4000000000000000000000000000000000000000000000000000000000000000000000000000000000000000000000000000000000020
theorem State.bootStops_frame {s : State} {x1 : Nat} :
    Frame Foot.bootStops s (State.bootStops s x1) := by
  have h0 := Frame.refl Foot.bootStops s
  unfold State.bootStops
  extract_lets a1 a2
  have h3 : Frame Foot.bootStops s a1 := by
    refine Frame.step State.setBootCode_frame ?_
    exact h0
  clear_value a1
  exact { h3 with hic := fun hb => absurd hb (by decide) }

def Foot.chooseSlot : Nat := 0xA0
theorem State.chooseSlot_frame {s : State} {x1 : List FlashSlot} {x2 : List Nat} :
    FrameL Foot.chooseSlot s (State.chooseSlot s x1 x2) := by
  have h0 := Frame.refl Foot.chooseSlot s
  unfold State.chooseSlot
  split
  · refine FrameL.mk ?_
    exact h0
  · refine FrameL.ite ?_ ?_
    · extract_lets a1 a2
      have h3 : Frame Foot.chooseSlot s a2 := by
        refine Frame.step State.setBootCode_frame ?_
        refine Frame.setFld ?_ (regNo_SYS_BOOTREJ)
        refine Frame.setFld ?_ (regNo_SYS_BOOTREJ)
        exact h0
      clear_value a2
      refine FrameL.mk ?_
      exact h3
    · refine FrameL.mk ?_
      exact h0

def Foot.bootXsp : Nat := 0x100000000000000000000000000000000000000000000000000000000000000000000000000000000000000000000000000
theorem State.bootXsp_frame {s : State} {x1 : List Byte} {x2 : Bool} :
    Frame Foot.bootXsp s (State.bootXsp s x1 x2) := by
  have h0 := Frame.refl Foot.bootXsp s
  unfold State.bootXsp
  extract_lets a1 a2
  refine Frame.setReg ?_ (regNo_XSP_CFG)
  exact h0

def Foot.bootProtect : Nat := 0x400000000100C000000000000000000000000000000000000000000000000000000000000000000000000000000000000000000000000
theorem State.bootProtect_frame {s : State} {x1 : Nat} :
    Frame Foot.bootProtect s (State.bootProtect s x1) := by
  have h0 := Frame.refl Foot.bootProtect s
  unfold State.bootProtect
  extract_lets a1 a2 a3 a4
  have h5 : Frame Foot.bootProtect s a1 := by
    refine Frame.setReg ?_ (regNo_XSP_PROT)
    exact h0
  clear_value a1
  have h6 : Frame Foot.bootProtect s a2 := by
    refine Frame.setReg ?_ (regNo_HIC_WDw_WIN _)
    exact h5
  clear_value a2
  have h7 : Frame Foot.bootProtect s a3 := by
    refine Frame.setReg ?_ (regNo_HIC_WDw_CFG _)
    exact h6
  clear_value a3
  refine Frame.ite ?_ ?_
  · refine Frame.step State.wdRestart_frame ?_
    exact { h7 with hic := fun hb => absurd hb (by decide) }
  · exact h5

def Foot.bootJump : Nat := 0x4000000000000000000000000000000000000000000000000000000000000000000000000000000000000000000000000000000000020
theorem State.bootJump_frame {s : State} {x1 : Nat} {x2 : List Byte} :
    Frame Foot.bootJump s (State.bootJump s x1 x2) := by
  have h0 := Frame.refl Foot.bootJump s
  unfold State.bootJump
  extract_lets a1 a2 a3
  have h4 : Frame Foot.bootJump s a2 := by
    refine Frame.setFld ?_ (regNo_SYS_BOOTSTAT)
    refine Frame.setFld ?_ (regNo_SYS_BOOTSTAT)
    exact h0
  clear_value a2
  exact { h4 with hic := fun hb => absurd hb (by decide) }

def Foot.bootFrom : Nat := Foot.bootStops ||| Foot.chooseSlot ||| Foot.bootXsp ||| Foot.setBootCode |||
  Foot.bootProtect ||| Foot.bootJump ||| maskBit bit_sram ||| maskBit bit_recipe ||| maskBit bit_table |||
  maskBit bit_store

theorem State.bootFrom_frame {slots : List FlashSlot} {same8d : Bool} {n : Nat} {s : State} {valid : List Nat} :
    Frame Foot.bootFrom s (State.bootFrom slots same8d n s valid) := by
  induction n generalizing s valid with
  | zero => exact Frame.step State.bootStops_frame (Frame.refl _ s)
  | succ n ih =>
    unfold State.bootFrom
    have hc : FrameL Foot.bootFrom s (s.chooseSlot slots valid) :=
      FrameL.step State.chooseSlot_frame (Frame.refl _ s)
    split
    · next u e =>
      refine Frame.cutL (K := Foot.bootFrom) (s := s) e hc (fun h => ?_)
      exact Frame.step State.bootStops_frame h
    · next u c e =>
      refine Frame.cutL (K := Foot.bootFrom) (s := s) e hc (fun h => ?_)
      split
      · exact Frame.step State.bootStops_frame h
      · next f _ =>
        extract_lets u1 u2
        have h1 : Frame Foot.bootFrom s u1 := (Frame.step State.bootXsp_frame h).setBytes _ fun i _ =>
          memFree_any (by decide) (by decide) (by decide) (by decide)
        have h2 : Frame Foot.bootFrom s u2 := Frame.ite (Frame.step State.setBootCode_frame h1) h1
        exact Frame.ite (Frame.step State.bootJump_frame (Frame.step State.bootProtect_frame h2)) (Frame.step ih h1)

def Foot.boot : Nat := 0x3900400000000110C0000000000000000000000000000000000000000000000000000000000000000000000000000000000000000000000A0
theorem State.boot_frame {s : State} {x1 : List FlashSlot} {x2 : Bool} :
    Frame Foot.boot s (State.boot s x1 x2) := by
  have h0 := Frame.refl Foot.boot s
  unfold State.boot
  extract_lets a1 a2 a3
  have h4 : Frame Foot.boot s a1 := by
    refine Frame.step State.setBootCode_frame ?_
    exact h0
  have h5 : Frame Foot.boot s a3 := by
    exact { h4 with hic := fun hb => absurd hb (by decide) }
  refine Frame.ite ?_ ?_
  · refine Frame.step State.bootStops_frame ?_
    exact h5
  · refine Frame.step State.bootFrom_frame ?_
    exact h5

def Foot.execMarchDone : Nat := 0x3904C00000000110C0000000000040000000000000000000000000000000000000000000000000000000000000000000000000000000000A0
theorem execMarchDone_frame {s : State} {x0 : List MemRow} {x1 : List FlashSlot} {x2 : Bool} :
    FrameO Foot.execMarchDone s (execMarchDone x0 x1 x2 s) := by
  have h0 := Frame.refl Foot.execMarchDone s
  unfold execMarchDone
  refine FrameO.ite ?_ ?_
  · refine FrameO.next ?_
    exact h0
  · refine FrameO.next ?_
    refine Frame.step State.boot_frame ?_
    refine Frame.step State.rebuildRepairs_frame ?_
    exact { h0 with pwr := fun hb => absurd hb (by decide) }

/-! ### Bst -/

def Foot.showSpare : Nat := 0x4000000000000000000000000000000000000000080000000000010000020000000000000
theorem State.showSpare_frame {s : State} {x1 : Nat} {x2 : Bool} :
    Frame Foot.showSpare s (State.showSpare s x1 x2) := by
  have h0 := Frame.refl Foot.showSpare s
  unfold State.showSpare
  split
  · refine Frame.step State.setSp_frame ?_
    exact h0
  · refine Frame.step State.setSpare_frame ?_
    exact h0
  · refine Frame.step State.setCanSpare_frame ?_
    exact h0
  · refine Frame.ite ?_ ?_
    · exact h0
    · refine Frame.setReg ?_ (regNo_ENG_STAT)
      exact h0
  · exact h0

def Foot.instanceHome : Nat := 0x10000000000000000000000000000000000000000080000000020000000000000
theorem State.instanceHome_frame {s : State} {x1 : Nat} :
    Frame Foot.instanceHome s (State.instanceHome s x1) := by
  have h0 := Frame.refl Foot.instanceHome s
  unfold State.instanceHome
  split
  · refine Frame.setFld ?_ (regNo_PAIRk_LIVE _)
    exact h0
  · refine Frame.setReg ?_ (regNo_ENG_STAT)
    exact h0
  · refine Frame.setFld ?_ (regNo_CAN_STAT _)
    exact h0
  · exact h0

def Foot.freeStandIn : Nat := 0x100000000000004000000010000000000000000000000000000000080000000080010000020000000000000
theorem State.freeStandIn_frame {s : State} {x1 : Nat} :
    Frame Foot.freeStandIn s (State.freeStandIn s x1) := by
  have h0 := Frame.refl Foot.freeStandIn s
  unfold State.freeStandIn
  split
  · extract_lets a1
    have h2 : Frame Foot.freeStandIn s a1 := by
      refine Frame.step State.showSpare_frame ?_
      refine Frame.step State.instanceHome_frame ?_
      exact h0
    clear_value a1
    refine Frame.ite ?_ ?_
    · refine Frame.step State.setUnit_frame ?_
      exact h2
    · exact h2
  · exact h0

def Foot.clearFailure : Nat := 0x2400000000000000000000000000000004000000000000000000000000000000000000000280000060000010000000000000000000
theorem State.clearFailure_frame {s : State} {x1 : Nat} :
    Frame Foot.clearFailure s (State.clearFailure s x1) := by
  have h0 := Frame.refl Foot.clearFailure s
  unfold State.clearFailure
  split
  · refine Frame.step State.endCause_frame ?_
    refine Frame.step State.setCoreFail_frame ?_
    exact h0
  · extract_lets a1
    have h2 : Frame Foot.clearFailure s a1 := by
      refine Frame.ite ?_ ?_
      · refine Frame.step State.endCause_frame ?_
        exact h0
      · exact h0
    clear_value a1
    refine Frame.ite ?_ ?_
    · exact h2
    · refine Frame.setFld ?_ (regNo_PWM_STAT)
      exact h2
  · refine Frame.ite ?_ ?_
    · exact h0
    · refine Frame.setFld ?_ (regNo_CAN_SPSTAT)
      refine Frame.step State.f2Ends_frame ?_
      exact h0
  · extract_lets a3 a4
    have h5 : Frame Foot.clearFailure s a4 := by
      refine Frame.setReg ?_ (regNo_ACQ_CMPSUB)
      exact h0
    clear_value a4
    refine Frame.step State.f2Ends_frame ?_
    exact h5
  · exact h0

def Foot.setSub : Nat := 0x200000000000000000000000000000000
theorem State.setSub_frame {s : State} {x1 : Nat} {x2 : Bool} :
    Frame Foot.setSub s (State.setSub s x1 x2) := by
  have h0 := Frame.refl Foot.setSub s
  unfold State.setSub
  refine Frame.setReg ?_ (regNo_ACQ_CMPSUB)
  exact h0

def Foot.takeOut : Nat := 0x40000000000000000000000000000000000000000000000000000000000000000000000000000000000000000000000000000000000000
theorem State.takeOut_frame {s : State} {x1 : TestRun} :
    Frame Foot.takeOut s (State.takeOut s x1) := by
  have h0 := Frame.refl Foot.takeOut s
  unfold State.takeOut
  refine Frame.ite ?_ ?_
  · exact { h0 with bst := fun hb => absurd hb (by decide) }
  · exact h0

def Foot.isolate : Nat := 0x614504CE48000000000000000101400000000004000000010000000000000000000000000000000280000000000410000024000800184010
theorem State.isolate_frame {s : State} {x1 : TestRun} :
    Frame Foot.isolate s (State.isolate s x1) := by
  have h0 := Frame.refl Foot.isolate s
  unfold State.isolate
  extract_lets a1 a2 a3 a4 a5 a6
  have h7 : Frame Foot.isolate s a1 := by
    refine Frame.step State.beginTest_frame ?_
    refine Frame.step State.takeOut_frame ?_
    exact h0
  clear_value a1
  have h8 : Frame Foot.isolate s a3 := by
    refine Frame.step State.setSub_frame ?_
    exact h7
  clear_value a3
  refine Frame.ite ?_ ?_
  · refine Frame.step State.showSpare_frame ?_
    exact h7
  · split
    · exact { h8 with acq := fun hb => absurd hb (by decide) }
    · refine Frame.step State.moveDomains_frame ?_
      refine Frame.step State.restartPll_frame ?_
      refine Frame.step State.setPll_frame ?_
      exact h7
    · refine Frame.step State.stopCan_frame ?_
      exact h7
    · exact h7

def Foot.shadow : Nat := 0x50048000000000000000000100000000000004000000000000000000000000000000000000000080000000000000000020000000000000
theorem State.shadow_frame {s : State} {x1 : Shadowing} :
    Frame Foot.shadow s (State.shadow s x1) := by
  have h0 := Frame.refl Foot.shadow s
  unfold State.shadow
  extract_lets a1 a2 a3 a4 a5 a6 a7 a8
  have h9 : Frame Foot.shadow s a1 := by
    refine Frame.step State.beginShadow_frame ?_
    exact h0
  clear_value a1
  have h10 : Frame Foot.shadow s a8 := by
    exact { h9 with eng := fun hb => absurd hb (by decide) }
  clear_value a8
  split
  · refine Frame.step State.setGrp_frame ?_
    refine Frame.step State.setSp_frame ?_
    exact h9
  · refine Frame.step State.setPair_frame ?_
    exact h9
  · refine Frame.setReg ?_ (regNo_ENG_STAT)
    exact h10
  · refine Frame.step State.setCanSpare_frame ?_
    exact h9
  · exact h9

def Foot.startTest : Nat := 0x615504CE48000000000000000101400000000004000000010000000000000000000000000000000280000000000410000024000800184010
theorem State.startTest_frame {s : State} {x1 : Nat} {x2 : Nat} {x3 : Nat} :
    Frame Foot.startTest s (State.startTest s x1 x2 x3) := by
  have h0 := Frame.refl Foot.startTest s
  unfold State.startTest
  split
  · refine Frame.step State.shadow_frame ?_
    exact h0
  · refine Frame.step State.isolate_frame ?_
    exact h0

def Foot.showPend : Nat := 0x400000000000000000000000000000000000000000000000000000000000000000000000000000000000
theorem State.showPend_frame {s : State} :
    Frame Foot.showPend s (State.showPend s) := by
  have h0 := Frame.refl Foot.showPend s
  unfold State.showPend
  refine Frame.setFld ?_ (regNo_BST_STAT)
  exact h0

def Foot.startSteps : Nat := Foot.startTest ||| maskBit bit_bst

theorem State.startSteps_frame {n : Nat} {s : State} : Frame Foot.startSteps s (State.startSteps n s) := by
  induction n generalizing s with
  | zero => exact Frame.refl _ s
  | succ n ih =>
    unfold State.startSteps
    have h0 := Frame.refl Foot.startSteps s
    split
    · exact h0
    · next c rest e =>
      have h1 : Frame Foot.startSteps s { s with bst.pend := rest } :=
        { h0 with bst := fun hb => absurd hb (by decide) }
      exact Frame.ite (Frame.step ih h1) (Frame.ite (Frame.step ih (Frame.step State.startTest_frame h1)) h0)

def Foot.postOverdue : Nat := 0x6144000E40000000000000000000000000000000000000000000000000000000000000000000000000000000000000000004000800000010
theorem State.postOverdue_frame {s : State} :
    Frame Foot.postOverdue s (State.postOverdue s) := by
  have h0 := Frame.refl Foot.postOverdue s
  unfold State.postOverdue
  extract_lets a1
  refine Frame.foldl ?_ (fun u2 x3 h4 => ?_)
  · exact h0
  · refine Frame.ite ?_ ?_
    · exact h4
    · refine Frame.step State.event_frame ?_
      exact { h4 with bst := fun hb => absurd hb (by decide) }

def Foot.runSteps : Nat := 0x615504CE48000000000000000101400000000004000000010000000000000000000000000000000280000000000410000024000800184010
theorem State.runSteps_frame {s : State} :
    Frame Foot.runSteps s (State.runSteps s) := by
  have h0 := Frame.refl Foot.runSteps s
  unfold State.runSteps
  refine Frame.step State.showPend_frame ?_
  refine Frame.step State.postOverdue_frame ?_
  refine Frame.step State.startSteps_frame ?_
  exact h0

def Foot.execRotationStep : Nat := 0x615504CE48800000000000000101400000000004000000010000000000000000000000000000000280000000000410000024000800184010
theorem execRotationStep_frame {s : State} {x0 : Nat} :
    FrameO Foot.execRotationStep s (execRotationStep x0 s) := by
  have h0 := Frame.refl Foot.execRotationStep s
  unfold execRotationStep
  extract_lets a1 a2
  have h3 : Frame Foot.execRotationStep s a1 := by
    refine Frame.step State.at_frame ?_
    exact h0
  clear_value a1
  refine FrameO.ite ?_ ?_
  · refine FrameO.next ?_
    exact h3
  · split
    · refine FrameO.next ?_
      exact h3
    · extract_lets a4 a5
      have h6 : Frame Foot.execRotationStep s a4 := by
        exact { h3 with bst := fun hb => absurd hb (by decide) }
      clear_value a4
      have h7 : Frame Foot.execRotationStep s a5 := by
        refine Frame.setFld ?_ (regNo_BST_STAT)
        exact h6
      clear_value a5
      refine FrameO.next ?_
      refine Frame.step State.runSteps_frame ?_
      exact h7

def Foot.execRotationRetry : Nat := 0x615504CE48800000000000000101400000000004000000010000000000000000000000000000000280000000000410000024000800184010
theorem execRotationRetry_frame {s : State} {x0 : Nat} :
    FrameO Foot.execRotationRetry s (execRotationRetry x0 s) := by
  have h0 := Frame.refl Foot.execRotationRetry s
  unfold execRotationRetry
  extract_lets a1
  have h2 : Frame Foot.execRotationRetry s a1 := by
    refine Frame.step State.at_frame ?_
    exact h0
  clear_value a1
  refine FrameO.next ?_
  refine Frame.ite ?_ ?_
  · refine Frame.step State.runSteps_frame ?_
    exact h2
  · exact h2

def Foot.quarantine : Nat := 0x4000000000000000000010000000000001FFFFFFFFF8000000000000000000000000000000000000000000000000000000000000000
theorem State.quarantine_frame {s : State} {x1 : Nat} :
    Frame Foot.quarantine s (State.quarantine s x1) := by
  have h0 := Frame.refl Foot.quarantine s
  unfold State.quarantine
  extract_lets a1 a2
  have h3 : Frame Foot.quarantine s a1 := by
    refine Frame.step State.setUnit_frame ?_
    exact h0
  clear_value a1
  split
  · refine Frame.step State.setGrp_frame ?_
    exact h3
  · refine Frame.ite ?_ ?_
    · exact h3
    · refine Frame.step State.canReload_frame ?_
      exact h3
  · exact h3

def Foot.dropDetected : Nat := 0x40000000000000000000000000000000000000000000000000000000000000000000000000000000000000000000000000000000000000
theorem State.dropDetected_frame {s : State} {x1 : Nat} :
    Frame Foot.dropDetected s (State.dropDetected s x1) := by
  have h0 := Frame.refl Foot.dropDetected s
  unfold State.dropDetected
  exact { h0 with bst := fun hb => absurd hb (by decide) }

def Foot.reject : Nat := 0x6144040E40000000000000000100000000000000000000000000000000000000000000000000000080000000000000000004000800000010
theorem State.reject_frame {s : State} {x1 : Nat} :
    Frame Foot.reject s (State.reject s x1) := by
  have h0 := Frame.refl Foot.reject s
  unfold State.reject
  extract_lets a1 a2 a3
  have h4 : Frame Foot.reject s a1 := by
    refine Frame.step State.setUnit_frame ?_
    refine Frame.step State.setFit_frame ?_
    refine Frame.step State.dropDetected_frame ?_
    exact h0
  clear_value a1
  have h5 : Frame Foot.reject s a3 := by
    refine Frame.ite ?_ ?_
    · refine Frame.step State.setGrp_frame ?_
      refine Frame.step State.setCoreFail_frame ?_
      exact h4
    · exact h4
  clear_value a3
  refine Frame.step State.event_frame ?_
  exact h5

def Foot.retire : Nat := 0x6144000E40000000000000000100000000000000000000000000000000000000000000000000000000000000000000000004000800000010
theorem State.retire_frame {s : State} {x1 : Nat} :
    Frame Foot.retire s (State.retire s x1) := by
  have h0 := Frame.refl Foot.retire s
  unfold State.retire
  extract_lets a1
  have h2 : Frame Foot.retire s a1 := by
    refine Frame.step State.setUnit_frame ?_
    refine Frame.step State.setFit_frame ?_
    refine Frame.step State.dropDetected_frame ?_
    exact h0
  clear_value a1
  refine Frame.step State.event_frame ?_
  exact h2

def Foot.loadInstance : Nat := Foot.loadPairReg ||| blockMask 5 ||| maskBit 107 ||| maskBit 108

theorem State.loadInstance_frame {s : State} {c : Nat} : Frame Foot.loadInstance s (s.loadInstance c) := by
  unfold State.loadInstance
  split
  · exact Frame.ite (Frame.refl _ s) (Frame.foldlOn (Frame.refl _ s)
      fun t a ha h => h.loadPairReg (AddrOk.other (pairRegs_unit _ a ha)))
  · exact Frame.loadReg (Frame.loadReg (Frame.refl _ s) (AddrOk.of (regNo_PROT_CMPm_CFG _)))
      (AddrOk.of (regNo_PROT_CMPm_THR _))
  · exact Frame.refl _ s

def Foot.serveAgain : Nat := 0x400180000000000000000000000000000000000000000000000000000000000000000000000000000018007FFFF8000000000000000000
theorem State.serveAgain_frame {s : State} {x1 : Nat} :
    Frame Foot.serveAgain s (State.serveAgain s x1) := by
  have h0 := Frame.refl Foot.serveAgain s
  unfold State.serveAgain
  refine Frame.ite ?_ ?_
  · refine Frame.step State.loadInstance_frame ?_
    exact { h0 with bst := fun hb => absurd hb (by decide) }
  · exact h0

def Foot.readmit : Nat := 0x614405AE400000000000000001000000000000040000000100000000000000000000000000000002800018607FFFF8000024000800000010
theorem State.readmit_frame {s : State} {x1 : Nat} :
    Frame Foot.readmit s (State.readmit s x1) := by
  have h0 := Frame.refl Foot.readmit s
  unfold State.readmit
  extract_lets a1 a2 a3 a4
  have h5 : Frame Foot.readmit s a1 := by
    refine Frame.step State.freeStandIn_frame ?_
    refine Frame.step State.setFit_frame ?_
    refine Frame.step State.dropDetected_frame ?_
    exact h0
  clear_value a1
  have h6 : Frame Foot.readmit s a3 := by
    refine Frame.ite ?_ ?_
    · refine Frame.step State.setGrp_frame ?_
      exact h5
    · exact h5
  clear_value a3
  have h7 : Frame Foot.readmit s a4 := by
    refine Frame.ite ?_ ?_
    · refine Frame.step State.showSpare_frame ?_
      refine Frame.step State.setUnit_frame ?_
      exact h6
    · refine Frame.step State.serveAgain_frame ?_
      refine Frame.step State.setUnit_frame ?_
      exact h6
  clear_value a4
  refine Frame.step State.postReadmitted_frame ?_
  refine Frame.step State.clearFailure_frame ?_
  exact h7

def Foot.countDeath : Nat := 0x100000000000000000000000000000000000000000000000000000000000000000000000000000000000000
theorem State.countDeath_frame {s : State} {x1 : Nat} :
    FrameL Foot.countDeath s (State.countDeath s x1) := by
  have h0 := Frame.refl Foot.countDeath s
  unfold State.countDeath
  refine FrameL.ite ?_ ?_
  · refine FrameL.mk ?_
    refine Frame.count ?_ (regNo_BST_Uu _)
    exact h0
  · refine FrameL.mk ?_
    exact h0

def Foot.execQuarantineEnd : Nat := 0x614405AE400000000000000001000000000000040000000100000000000000000000000000000002800018607FFFF8000024000800000010
theorem execQuarantineEnd_frame {s : State} {x0 : Fin 256} {x1 : Bool} :
    FrameO Foot.execQuarantineEnd s (execQuarantineEnd x0 x1 s) := by
  have h0 := Frame.refl Foot.execQuarantineEnd s
  unfold execQuarantineEnd
  extract_lets a1
  refine FrameO.next ?_
  refine Frame.ite ?_ ?_
  · exact h0
  · split
    · exact h0
    · refine Frame.step State.reject_frame ?_
      exact h0
    · split
      · rename_i x2 x3 x4
        refine Frame.cutL (K := Foot.execQuarantineEnd) (s := s) x4 ?_ (fun h5 => ?_)
        · refine FrameL.step State.countDeath_frame ?_
          exact h0
        · refine Frame.step State.retire_frame ?_
          exact h5
      · rename_i x6 x7 x8
        refine Frame.cutL (K := Foot.execQuarantineEnd) (s := s) x8 ?_ (fun h9 => ?_)
        · refine FrameL.step State.countDeath_frame ?_
          exact h0
        · refine Frame.step State.readmit_frame ?_
          exact h9

def Foot.testDone : Nat := 0x6144000E40000000000000000002400000000000000000000000000000000000000000000000000000000000000000000004000800000010
theorem State.testDone_frame {s : State} {x1 : TestRun} {x2 : Bool} {x3 : Nat} :
    Frame Foot.testDone s (State.testDone s x1 x2 x3) := by
  have h0 := Frame.refl Foot.testDone s
  unfold State.testDone
  extract_lets a1 a2 a3 a4
  have h5 : Frame Foot.testDone s a1 := by
    refine Frame.count ?_ (regNo_BST_CNT)
    refine Frame.step State.endTest_frame ?_
    exact h0
  clear_value a1
  have h6 : Frame Foot.testDone s a2 := by
    refine Frame.ite ?_ ?_
    · exact h5
    · refine Frame.count ?_ (regNo_BST_CNT)
      exact h5
  clear_value a2
  have h7 : Frame Foot.testDone s a4 := by
    exact { h6 with bst := fun hb => absurd hb (by decide) }
  clear_value a4
  refine Frame.step State.event_frame ?_
  exact h7

def Foot.testPassed : Nat := 0x4004000000000000000000010000000000001FFFFFFFFF8000000000000000000000000000000000000000000000000000000000000000
theorem State.testPassed_frame {s : State} {x1 : TestRun} :
    Frame Foot.testPassed s (State.testPassed s x1) := by
  have h0 := Frame.refl Foot.testPassed s
  unfold State.testPassed
  extract_lets a1 a2
  split
  · refine Frame.step State.setUnit_frame ?_
    exact h0
  · refine Frame.step State.setUnit_frame ?_
    exact h0
  · refine Frame.ite ?_ ?_
    · refine Frame.step State.setUnit_frame ?_
      exact h0
    · refine Frame.ite ?_ ?_
      · exact { h0 with bst := fun hb => absurd hb (by decide) }
      · refine Frame.step State.quarantine_frame ?_
        refine Frame.step State.setFit_frame ?_
        exact h0

def Foot.instanceLost : Nat := 0x755505AE4000000000000000010240000000001FFFFFFFFF80000000000000010000000000000000800101781A0010000004000800000010
theorem State.instanceLost_frame {s : State} {x1 : Nat} :
    Frame Foot.instanceLost s (State.instanceLost s x1) := by
  have h0 := Frame.refl Foot.instanceLost s
  unfold State.instanceLost
  split
  · refine Frame.step State.failCore_frame ?_
    exact h0
  · refine Frame.step State.readbackFail_frame ?_
    exact h0
  · exact { h0 with eng := fun hb => absurd hb (by decide) }
  · extract_lets a1
    refine Frame.ite ?_ ?_
    · refine Frame.step State.canTakeover_frame ?_
      refine Frame.step State.setCanSpare_frame ?_
      refine Frame.step State.claimSpare_frame ?_
      exact h0
    · refine Frame.step State.canExhausted_frame ?_
      exact h0
  · exact h0

def Foot.testFailed : Nat := 0x755505AE4000000000000000010240000000001FFFFFFFFF80000000000000010000000000000002800101781A0010000024000800000010
theorem State.testFailed_frame {s : State} {x1 : TestRun} :
    Frame Foot.testFailed s (State.testFailed s x1) := by
  have h0 := Frame.refl Foot.testFailed s
  unfold State.testFailed
  extract_lets a1 a2 a3 a4
  have h5 : Frame Foot.testFailed s a2 := by
    refine Frame.step State.setUnit_frame ?_
    exact h0
  clear_value a2
  have h6 : Frame Foot.testFailed s a3 := by
    refine Frame.ite ?_ ?_
    · refine Frame.step State.setCoreFail_frame ?_
      exact h5
    · refine Frame.ite ?_ ?_
      · refine Frame.setReg ?_ (regNo_ACQ_CMPSUB)
        exact h5
      · exact h5
  clear_value a3
  have h7 : Frame Foot.testFailed s a4 := by
    refine Frame.ite ?_ ?_
    · refine Frame.ite ?_ ?_
      · refine Frame.step State.setCanSpare_frame ?_
        exact h6
      · refine Frame.step State.showSpare_frame ?_
        exact h6
    · refine Frame.ite ?_ ?_
      · refine Frame.step State.instanceLost_frame ?_
        exact h6
      · exact h6
  clear_value a4
  refine Frame.ite ?_ ?_
  · refine Frame.step State.setUnit_frame ?_
    exact h0
  · refine Frame.step State.event_frame ?_
    refine Frame.step State.dropDetected_frame ?_
    exact h7

def Foot.testEnds : Nat := 0x755505AE4000000000000000010240000000001FFFFFFFFF80000000000000010000000000000002800101781A0010000024000800000010
theorem State.testEnds_frame {s : State} {x1 : Nat} {x2 : Bool} {x3 : Nat} :
    Frame Foot.testEnds s (State.testEnds s x1 x2 x3) := by
  have h0 := Frame.refl Foot.testEnds s
  unfold State.testEnds
  split
  · exact h0
  · extract_lets a1
    have h2 : Frame Foot.testEnds s a1 := by
      refine Frame.step State.testDone_frame ?_
      exact h0
    clear_value a1
    refine Frame.ite ?_ ?_
    · refine Frame.step State.testPassed_frame ?_
      exact h2
    · refine Frame.step State.testFailed_frame ?_
      exact h2

def Foot.execBistComplete : Nat := 0x755505AE4000000000000000010240000000001FFFFFFFFF80000000000000010000000000000002800101781A0010000024000800000010
theorem execBistComplete_frame {s : State} {x0 : Fin 256} {x1 : Bool} {x2 : Fin 3} :
    FrameO Foot.execBistComplete s (execBistComplete x0 x1 x2 s) := by
  have h0 := Frame.refl Foot.execBistComplete s
  unfold execBistComplete
  refine FrameO.next ?_
  refine Frame.ite ?_ ?_
  · exact h0
  · refine Frame.step State.testEnds_frame ?_
    exact h0

def Foot.dacMoves : Nat := 0x40000000000000000000000000000000000000000000000000000000000000000000000000000000000000000000000000000000000
theorem State.dacMoves_frame {s : State} {x1 : Nat} :
    Frame Foot.dacMoves s (State.dacMoves s x1) := by
  have h0 := Frame.refl Foot.dacMoves s
  unfold State.dacMoves
  refine Frame.step State.setGrp_frame ?_
  exact h0

def Foot.dacFreed : Nat := 0x40000000000000000000000000000000000000000000000000000000000000000000000000000000000000000000000000000000000
theorem State.dacFreed_frame {s : State} {x1 : Nat} :
    Frame Foot.dacFreed s (State.dacFreed s x1) := by
  have h0 := Frame.refl Foot.dacFreed s
  unfold State.dacFreed
  refine Frame.ite ?_ ?_
  · refine Frame.step State.dacMoves_frame ?_
    exact h0
  · exact h0

def Foot.execBistAbort : Nat := 0x6144040E4800000000000000010340000000001FFFFFFFFF8000000000000000000000000000000000000000000000000004000800000010
theorem execBistAbort_frame {s : State} {x0 : Fin 8} :
    FrameO Foot.execBistAbort s (execBistAbort x0 s) := by
  have h0 := Frame.refl Foot.execBistAbort s
  unfold execBistAbort
  extract_lets a1
  have h2 : Frame Foot.execBistAbort s a1 := by
    refine Frame.setReg ?_ (regNo_BST_COND)
    exact h0
  clear_value a1
  refine FrameO.next ?_
  refine Frame.ite ?_ ?_
  · exact h2
  · refine Frame.foldl ?_ (fun u3 x4 h5 => ?_)
    · exact h2
    · extract_lets a6 a7 a8
      have h9 : Frame Foot.execBistAbort s a6 := by
        refine Frame.step State.abortTest_frame ?_
        exact h5
      clear_value a6
      have h10 : Frame Foot.execBistAbort s a7 := by
        refine Frame.ite ?_ ?_
        · refine Frame.step State.dacFreed_frame ?_
          exact h9
        · exact h9
      clear_value a7
      refine Frame.ite ?_ ?_
      · refine Frame.step State.setPll_frame ?_
        exact h10
      · refine Frame.step State.quarantine_frame ?_
        exact h10

def Foot.cmpReconnect : Nat := 0x6144058E400000000000000001024000000000000000000000000000000000000000000000000002000018007FFFF8000004000800000010
theorem State.cmpReconnect_frame {s : State} {x1 : Nat} :
    Frame Foot.cmpReconnect s (State.cmpReconnect s x1) := by
  have h0 := Frame.refl Foot.cmpReconnect s
  unfold State.cmpReconnect
  extract_lets a1 a2 a3
  have h4 : Frame Foot.cmpReconnect s a3 := by
    refine Frame.step State.dacFreed_frame ?_
    refine Frame.step State.abortTest_frame ?_
    exact h0
  clear_value a3
  refine Frame.ite ?_ ?_
  · refine Frame.step State.setSub_frame ?_
    refine Frame.step State.serveAgain_frame ?_
    refine Frame.step State.setUnit_frame ?_
    exact h4
  · refine Frame.ite ?_ ?_
    · refine Frame.step State.setUnit_frame ?_
      exact h4
    · exact h4

def Foot.execComparatorTestStep : Nat := 0x755505AE4000000000000000010240000000001FFFFFFFFF80000000000000010000000000000002800119787FFFF8000024000800000010
theorem execComparatorTestStep_frame {s : State} {x0 : Fin 12} {x1 : Bool} :
    FrameO Foot.execComparatorTestStep s (execComparatorTestStep x0 x1 s) := by
  have h0 := Frame.refl Foot.execComparatorTestStep s
  unfold execComparatorTestStep
  extract_lets a1 a2 a3 a4
  have h5 : Frame Foot.execComparatorTestStep s a4 := by
    refine Frame.step State.dacFreed_frame ?_
    exact { h0 with acq := fun hb => absurd hb (by decide) }
  clear_value a4
  split
  · refine FrameO.next ?_
    exact h0
  · refine FrameO.ite ?_ ?_
    · refine FrameO.next ?_
      refine Frame.step State.cmpReconnect_frame ?_
      exact h0
    · extract_lets a6 a7 a8
      have h9 : Frame Foot.execComparatorTestStep s a8 := by
        refine Frame.step State.event_frame ?_
        refine Frame.step State.f2Begins_frame ?_
        exact h5
      clear_value a8
      refine FrameO.next ?_
      refine Frame.ite ?_ ?_
      · exact { h0 with acq := fun hb => absurd hb (by decide) }
      · refine Frame.ite ?_ ?_
        · refine Frame.step State.testEnds_frame ?_
          exact h5
        · refine Frame.step State.testEnds_frame ?_
          exact h9

def Foot.rotateEngine : Nat := 0x40000000000000000000000100400000000000000000000000000000000000000000000000000000000000000000000020000000000000
theorem State.rotateEngine_frame {s : State} {x1 : Nat} :
    Frame Foot.rotateEngine s (State.rotateEngine s x1) := by
  have h0 := Frame.refl Foot.rotateEngine s
  unfold State.rotateEngine
  extract_lets a1 a2 a3
  have h4 : Frame Foot.rotateEngine s a3 := by
    refine Frame.setReg ?_ (regNo_ENG_STAT)
    exact h0
  clear_value a3
  split
  · exact h0
  · refine Frame.step State.shadowPassed_frame ?_
    refine Frame.setReg ?_ (regNo_ENG_STAT)
    exact h4

def Foot.execShadowWatchEnd : Nat := 0x6154000E40800000000000000100400000000000000000000000000000000000000000000000000000000000000000000024000800000010
theorem execShadowWatchEnd_frame {s : State} :
    FrameO Foot.execShadowWatchEnd s (execShadowWatchEnd s) := by
  have h0 := Frame.refl Foot.execShadowWatchEnd s
  unfold execShadowWatchEnd
  extract_lets a1 a2 a3 a4 a5
  have h6 : Frame Foot.execShadowWatchEnd s a2 := by
    refine Frame.step State.atTick_frame ?_
    exact h0
  clear_value a2
  have h7 : Frame Foot.execShadowWatchEnd s a4 := by
    refine Frame.setFld ?_ (regNo_ENG_STAT)
    exact { h6 with eng := fun hb => absurd hb (by decide) }
  clear_value a4
  have h8 : Frame Foot.execShadowWatchEnd s a5 := by
    refine Frame.ite ?_ ?_
    · exact h7
    · refine Frame.step State.event_frame ?_
      exact h7
  clear_value a5
  refine FrameO.next ?_
  refine Frame.ite ?_ ?_
  · exact h0
  · refine Frame.foldl ?_ (fun u9 x10 h11 => ?_)
    · exact h8
    · refine Frame.step State.rotateEngine_frame ?_
      exact h11

def Foot.bistRequest : Nat := 0x615504CE48000000000000000101400000000004000000010000000000000000000000000000000280000000000410000024000800184010
theorem State.bistRequest_frame {s : State} {x1 : Nat} {x2 : Word} :
    FrameV Foot.bistRequest s (State.bistRequest s x1 x2) := by
  have h0 := Frame.refl Foot.bistRequest s
  unfold State.bistRequest
  extract_lets a1 a2 a3 a4 a5
  have h6 : Frame Foot.bistRequest s a5 := by
    refine Frame.ite ?_ ?_
    · refine Frame.step State.startTest_frame ?_
      exact h0
    · refine Frame.step State.isolate_frame ?_
      exact h0
  clear_value a5
  refine FrameV.ite ?_ ?_
  · refine FrameV.refused ?_
    exact FrameF.id
  · refine FrameV.ite ?_ ?_
    · refine FrameV.refused ?_
      exact FrameF.id
    · refine FrameV.ite ?_ ?_
      · exact FrameV.no
      · refine FrameV.ite ?_ ?_
        · exact FrameV.no
        · refine FrameV.ite ?_ ?_
          · exact FrameV.no
          · refine FrameV.ite ?_ ?_
            · exact FrameV.no
            · refine FrameV.doneClamp ?_
              exact h6

def Foot.unitReadmit : Nat := 0x614504CE48000000000000000101400000000004000000010000000000000000000000000000000280000000000410000024000800184010
theorem State.unitReadmit_frame {s : State} {x1 : Nat} :
    FrameV Foot.unitReadmit s (State.unitReadmit s x1) := by
  have h0 := Frame.refl Foot.unitReadmit s
  unfold State.unitReadmit
  refine FrameV.ite ?_ ?_
  · exact FrameV.no
  · refine FrameV.done ?_
    refine Frame.step State.isolate_frame ?_
    exact h0

def Foot.bstParkExit : Nat := 0x615505EE4800000000000000010140000000001FFFFFFFFF80000000000000000000000000000002800018607FFFF8000024000800184010
theorem State.bstParkExit_frame {s : State} :
    Frame Foot.bstParkExit s (State.bstParkExit s) := by
  have h0 := Frame.refl Foot.bstParkExit s
  unfold State.bstParkExit
  extract_lets a1 a2
  have h3 : Frame Foot.bstParkExit s a1 := by
    refine Frame.foldl ?_ (fun u4 x5 h6 => ?_)
    · exact h0
    · refine Frame.ite ?_ ?_
      · refine Frame.step State.quarantine_frame ?_
        refine Frame.step State.setFit_frame ?_
        exact h6
      · split
        · extract_lets a7 a8
          have h9 : Frame Foot.bstParkExit s a7 := by
            refine Frame.step State.setUnit_frame ?_
            exact h6
          clear_value a7
          have h10 : Frame Foot.bstParkExit s a8 := by
            dsimp -zeta only [a8]
            split
            · refine Frame.setFld ?_ (regNo_ACQ_STAT)
              refine Frame.step State.setSp_frame ?_
              exact h9
            · refine Frame.setFld ?_ (regNo_PAIRk_LIVE _)
              refine Frame.step State.setSpare_frame ?_
              exact h9
            · refine Frame.setReg ?_ (regNo_ENG_STAT)
              exact h9
            · refine Frame.setFld ?_ (regNo_CAN_STAT _)
              refine Frame.step State.setCanSpare_frame ?_
              exact h9
            · exact h9
          clear_value a8
          refine Frame.step State.quarantine_frame ?_
          refine Frame.step State.setFit_frame ?_
          exact h10
        · extract_lets a11 a12
          have h13 : Frame Foot.bstParkExit s a11 := by
            refine Frame.step State.clearFailure_frame ?_
            refine Frame.step State.serveAgain_frame ?_
            refine Frame.step State.setUnit_frame ?_
            exact h6
          clear_value a11
          exact { h13 with bst := fun hb => absurd hb (by decide) }
  clear_value a1
  refine Frame.step State.runSteps_frame ?_
  exact { h3 with bst := fun hb => absurd hb (by decide) }

def Foot.repairRow : Nat := 0x6144000E40000000000000000000000000000000000000000000000000000000000000000000000000000000000000000004000800000010
theorem State.repairRow_frame {s : State} {x1 : Nat × Nat × Nat} :
    Frame Foot.repairRow s (State.repairRow s x1) := by
  have h0 := Frame.refl Foot.repairRow s
  unfold State.repairRow
  refine Frame.ite ?_ ?_
  · exact h0
  · refine Frame.ite ?_ ?_
    · refine Frame.step State.postRepair_frame ?_
      exact h0
    · exact { h0 with bst := fun hb => absurd hb (by decide) }

def Foot.execSramRowRepair : Nat := 0x6144000E40000000000000000000000000000000000000000000000000000000000000000000000000000000000000000004000800000010
theorem execSramRowRepair_frame {s : State} {x0 : MemRow} {x1 : Fin 32} {x2 : Bool} :
    FrameO Foot.execSramRowRepair s (execSramRowRepair x0 x1 x2 s) := by
  have h0 := Frame.refl Foot.execSramRowRepair s
  unfold execSramRowRepair
  extract_lets a1 a2
  refine FrameO.next ?_
  refine Frame.ite ?_ ?_
  · exact h0
  · refine Frame.ite ?_ ?_
    · refine Frame.step State.repairRow_frame ?_
      exact { h0 with bst := fun hb => absurd hb (by decide) }
    · exact { h0 with bst := fun hb => absurd hb (by decide) }

def Foot.execRowCopyDone : Nat := 0x6144000E40000000000000000004000000000000000000000000000000000000000000000000000000000000000000000004000800000010
theorem execRowCopyDone_frame {s : State} {x0 : MemRow} :
    FrameO Foot.execRowCopyDone s (execRowCopyDone x0 s) := by
  have h0 := Frame.refl Foot.execRowCopyDone s
  unfold execRowCopyDone
  extract_lets a1 a2 a3
  have h4 : Frame Foot.execRowCopyDone s a3 := by
    exact { h0 with bst := fun hb => absurd hb (by decide) }
  clear_value a3
  refine FrameO.next ?_
  refine Frame.ite ?_ ?_
  · exact h0
  · refine Frame.step State.postRepair_frame ?_
    refine Frame.step State.showRepair_frame ?_
    refine Frame.step State.mapSpareRow_frame ?_
    exact h4

def Foot.lcsToken : Nat := 0x40000000000000000000000000000000000000000000000000000000000000000000000000000000000000000000000000000000000000
theorem State.lcsToken_frame {s : State} {x1 : Word} {x2 : List Word} :
    FrameV Foot.lcsToken s (State.lcsToken s x1 x2) := by
  have h0 := Frame.refl Foot.lcsToken s
  unfold State.lcsToken
  refine FrameV.ite ?_ ?_
  · refine FrameV.refused ?_
    exact FrameF.id
  · refine FrameV.ite ?_ ?_
    · exact FrameV.no
    · refine FrameV.doneClamp ?_
      exact { h0 with bst := fun hb => absurd hb (by decide) }

def Foot.drawNonce : Nat := 0x400000000000000000000000008000000000000000000000000000000000000000000000000000000000000000000000000000000000000
theorem State.drawNonce_frame {s : State} :
    Frame Foot.drawNonce s (State.drawNonce s) := by
  have h0 := Frame.refl Foot.drawNonce s
  unfold State.drawNonce
  refine Frame.foldl ?_ (fun u1 x2 h3 => ?_)
  · exact h0
  · split
    rename_i x4 x5 x6 x7
    refine Frame.cutR (K := Foot.drawNonce) (s := s) x7 ?_ (fun h8 => ?_)
    · refine FrameR.step State.takeFree_frame ?_
      exact h3
    · refine Frame.setReg ?_ (regNo_BST_NONCEi _)
      exact h8

def Foot.execLcsTokenVerified : Nat := 0x6544000E4000000000000000001A000000000000000000000000000000000000000000000000000000000000000000000004000800000010
theorem execLcsTokenVerified_frame {s : State} :
    FrameO Foot.execLcsTokenVerified s (execLcsTokenVerified s) := by
  have h0 := Frame.refl Foot.execLcsTokenVerified s
  unfold execLcsTokenVerified
  split
  · refine FrameO.next ?_
    exact h0
  · extract_lets a1 a2 a3 a4 a5 a6 a7 a8
    have h9 : Frame Foot.execLcsTokenVerified s a4 := by
      refine Frame.step State.drawNonce_frame ?_
      exact { h0 with bst := fun hb => absurd hb (by decide) }
    clear_value a4
    have h10 : Frame Foot.execLcsTokenVerified s a5 := by
      refine Frame.ite ?_ ?_
      · refine Frame.setReg ?_ (regNo_BST_LCCNT)
        exact h9
      · refine Frame.count ?_ (regNo_BST_CNT)
        exact h9
    clear_value a5
    have h11 : Frame Foot.execLcsTokenVerified s a7 := by
      refine Frame.step State.event_frame ?_
      exact h10
    clear_value a7
    refine FrameO.next ?_
    refine Frame.ite ?_ ?_
    · exact { h11 with bst := fun hb => absurd hb (by decide) }
    · exact h11

/-! ### Hld -/

def Foot.setHldState : Nat := 0x800000000000000000000000000000000000000000000000000000000000000000000000000000000000000
theorem State.setHldState_frame {s : State} {x1 : Nat} :
    Frame Foot.setHldState s (State.setHldState s x1) := by
  have h0 := Frame.refl Foot.setHldState s
  unfold State.setHldState
  refine Frame.setFld ?_ (regNo_HLD_STAT)
  exact h0

def Foot.startHoldupCheck : Nat := 0x800000000000000000800000000000000000000000000000000000000000000000000000000000000000000000000000000000000
theorem State.startHoldupCheck_frame {s : State} :
    Frame Foot.startHoldupCheck s (State.startHoldupCheck s) := by
  have h0 := Frame.refl Foot.startHoldupCheck s
  unfold State.startHoldupCheck
  refine Frame.step State.setHldState_frame ?_
  exact { h0 with led := fun hb => absurd hb (by decide) }

def Foot.holdupCheck : Nat := 0x800000000000000000800000000000000000000000000000000000000000000000000000000000000000000000000000000000000
theorem State.holdupCheck_frame {s : State} :
    FrameV Foot.holdupCheck s (State.holdupCheck s) := by
  have h0 := Frame.refl Foot.holdupCheck s
  unfold State.holdupCheck
  refine FrameV.ite ?_ ?_
  · exact FrameV.no
  · refine FrameV.done ?_
    refine Frame.step State.startHoldupCheck_frame ?_
    exact h0

def Foot.vholdReady : Nat := 0x800000000000000000800000000000000000000000000000000000000000000000000000000000000000000000000000000000000
theorem State.vholdReady_frame {s : State} :
    Frame Foot.vholdReady s (State.vholdReady s) := by
  have h0 := Frame.refl Foot.vholdReady s
  unfold State.vholdReady
  extract_lets a1 a2
  have h3 : Frame Foot.vholdReady s a1 := by
    refine Frame.ite ?_ ?_
    · refine Frame.step State.setHldState_frame ?_
      exact h0
    · exact h0
  clear_value a1
  refine Frame.ite ?_ ?_
  · exact { h3 with led := fun hb => absurd hb (by decide) }
  · refine Frame.step State.startHoldupCheck_frame ?_
    exact { h3 with led := fun hb => absurd hb (by decide) }

def Foot.execHoldupReady : Nat := 0x800000000000000002800000000000000000000000000000000000000000000000000000000000000000000000000000000000000
theorem execHoldupReady_frame {s : State} {x0 : Nat} :
    FrameO Foot.execHoldupReady s (execHoldupReady x0 s) := by
  have h0 := Frame.refl Foot.execHoldupReady s
  unfold execHoldupReady
  extract_lets a1
  have h2 : Frame Foot.execHoldupReady s a1 := by
    refine Frame.setReg ?_ (regNo_HLD_VHOLD)
    exact h0
  clear_value a1
  refine FrameO.next ?_
  refine Frame.ite ?_ ?_
  · refine Frame.step State.vholdReady_frame ?_
    exact h2
  · exact h2

def Foot.execHoldupPeriodic : Nat := 0x800800000000000000800000000000000000000000000000000000000000000000000000000000000000000000000000000000000
theorem execHoldupPeriodic_frame {s : State} {x0 : Nat} :
    FrameO Foot.execHoldupPeriodic s (execHoldupPeriodic x0 s) := by
  have h0 := Frame.refl Foot.execHoldupPeriodic s
  unfold execHoldupPeriodic
  extract_lets a1 a2
  have h3 : Frame Foot.execHoldupPeriodic s a1 := by
    refine Frame.step State.at_frame ?_
    exact h0
  clear_value a1
  refine FrameO.next ?_
  refine Frame.ite ?_ ?_
  · refine Frame.step State.startHoldupCheck_frame ?_
    exact h3
  · exact h3

def Foot.holdupLow : Nat := 0x6104000E40000000000000000000000000000000000000000000000000000000000000000000000000000000000000000004000800000010
theorem State.holdupLow_frame {s : State} {x1 : Nat} :
    Frame Foot.holdupLow s (State.holdupLow s x1) := by
  have h0 := Frame.refl Foot.holdupLow s
  unfold State.holdupLow
  refine Frame.ite ?_ ?_
  · refine Frame.step State.event_frame ?_
    refine Frame.step State.f2Begins_frame ?_
    exact { h0 with led := fun hb => absurd hb (by decide) }
  · exact h0

def Foot.endCheck : Nat := 0x6104000E40000000000000400800000000000000000000000000000000000000000000000000000000000000000000000004000800000010
theorem State.endCheck_frame {s : State} {x1 : Option Nat} {x2 : Nat} :
    Frame Foot.endCheck s (State.endCheck s x1 x2) := by
  have h0 := Frame.refl Foot.endCheck s
  unfold State.endCheck
  extract_lets a1 a2 a3 a4 a5
  have h6 : Frame Foot.endCheck s a1 := by
    refine Frame.count ?_ (regNo_HLD_CNT)
    exact h0
  clear_value a1
  have h7 : Frame Foot.endCheck s a2 := by
    refine Frame.ite ?_ ?_
    · refine Frame.count ?_ (regNo_HLD_CNT)
      exact h6
    · exact h6
  clear_value a2
  have h8 : Frame Foot.endCheck s a3 := by
    refine Frame.setFld ?_ (regNo_HLD_STAT)
    refine Frame.step State.setHldState_frame ?_
    exact h7
  clear_value a3
  have h9 : Frame Foot.endCheck s a4 := by
    refine Frame.step State.event_frame ?_
    exact h8
  clear_value a4
  refine Frame.ite ?_ ?_
  · refine Frame.step State.f2Ends_frame ?_
    exact { h9 with led := fun hb => absurd hb (by decide) }
  · refine Frame.step State.holdupLow_frame ?_
    exact h9

def Foot.judgeCheck : Nat := 0x6104000E4000000000000041C800000000000000000000000000000000000000000000000000000000000000000000000004000800000010
theorem State.judgeCheck_frame {s : State} {x1 : Rat} {x2 : Rat} {x3 : Rat} :
    Frame Foot.judgeCheck s (State.judgeCheck s x1 x2 x3) := by
  have h0 := Frame.refl Foot.judgeCheck s
  unfold State.judgeCheck
  extract_lets a1 a2 a3 a4 a5
  have h6 : Frame Foot.judgeCheck s a4 := by
    refine Frame.setReg ?_ (regNo_HLD_ENERGY)
    refine Frame.setReg ?_ (regNo_HLD_ESR)
    refine Frame.setReg ?_ (regNo_HLD_CAP)
    exact h0
  clear_value a4
  refine Frame.step State.endCheck_frame ?_
  exact h6

def Foot.execHoldupCheckComplete : Nat := 0x6504000E4000000000000041C800000000000000000000000000000000000000000000000000000000000000000000000004000800000010
theorem execHoldupCheckComplete_frame {s : State} {x0 : Bool} {x1 : Nat} {x2 : Nat} {x3 : Nat} :
    FrameO Foot.execHoldupCheckComplete s (execHoldupCheckComplete x0 x1 x2 x3 s) := by
  have h0 := Frame.refl Foot.execHoldupCheckComplete s
  unfold execHoldupCheckComplete
  refine FrameO.ite ?_ ?_
  · refine FrameO.next ?_
    exact h0
  · refine FrameO.ite ?_ ?_
    · refine FrameO.next ?_
      refine Frame.step State.judgeCheck_frame ?_
      exact h0
    · split
      rename_i x1 x2 x3 x4
      refine Frame.cutR (K := Foot.execHoldupCheckComplete) (s := s) x4 ?_ (fun h5 => ?_)
      · refine FrameR.step State.takeFree_frame ?_
        exact h0
      · refine FrameO.next ?_
        refine Frame.step State.endCheck_frame ?_
        exact h5

def Foot.execVholdDrop : Nat := 0x6104000E40000000000000002800000000000000000000000000000000000000000000000000000000000000000000000004000800000010
theorem execVholdDrop_frame {s : State} {x0 : Nat} :
    FrameO Foot.execVholdDrop s (execVholdDrop x0 s) := by
  have h0 := Frame.refl Foot.execVholdDrop s
  unfold execVholdDrop
  refine FrameO.next ?_
  refine Frame.ite ?_ ?_
  · exact h0
  · refine Frame.step State.holdupLow_frame ?_
    refine Frame.step State.setHldState_frame ?_
    refine Frame.setReg ?_ (regNo_HLD_VHOLD)
    exact h0

def Foot.acceptEntry : Nat := 0x800000000000000400000000000000000000000000000000000000000000000000000000000000000000000000000000000000000
theorem State.acceptEntry_frame {s : State} {x1 : LedgerEntry} :
    Frame Foot.acceptEntry s (State.acceptEntry s x1) := by
  have h0 := Frame.refl Foot.acceptEntry s
  unfold State.acceptEntry
  refine Frame.ite ?_ ?_
  · exact { h0 with led := fun hb => absurd hb (by decide) }
  · extract_lets a1 a2
    refine Frame.count ?_ (regNo_HLD_CNT)
    exact { h0 with led := fun hb => absurd hb (by decide) }

def Foot.acceptNext : Nat := 0x800000000000000400000000000000000000000000000000000000000000000000000000000000000000000000000000000000000
theorem State.acceptNext_frame {s : State} :
    Frame Foot.acceptNext s (State.acceptNext s) := by
  have h0 := Frame.refl Foot.acceptNext s
  unfold State.acceptNext
  split
  · exact h0
  · refine Frame.step State.acceptEntry_frame ?_
    exact { h0 with led := fun hb => absurd hb (by decide) }

def Foot.execLedgerOverflowEntry : Nat := 0x6104000E40000000000000000000000000000000000000000000000000000000000000000000000000000000000000000004000800000010
theorem execLedgerOverflowEntry_frame {s : State} :
    FrameO Foot.execLedgerOverflowEntry s (execLedgerOverflowEntry s) := by
  have h0 := Frame.refl Foot.execLedgerOverflowEntry s
  unfold execLedgerOverflowEntry
  refine FrameO.ite ?_ ?_
  · refine FrameO.next ?_
    exact h0
  · extract_lets a1 a2 a3 a4 a5 a6
    have h7 : Frame Foot.execLedgerOverflowEntry s a4 := by
      refine Frame.step State.event_frame ?_
      exact h0
    clear_value a4
    refine FrameO.next ?_
    refine Frame.step State.sendLedger_frame ?_
    exact { h7 with led := fun hb => absurd hb (by decide) }

def Foot.writeUnit : Nat := maskBit 355 ||| maskBit bit_store

theorem State.writeUnit_frame {s : State} {ws : List Word} : Frame Foot.writeUnit s (s.writeUnit ws) := by
  unfold State.writeUnit
  exact ((Frame.refl _ s).setWords ws fun i _ => memFree_store (by unfold logAddr; omega) (by decide)).setFld
    regNo_HLD_HEAD

def Foot.writeHeader : Nat := 0x20000000000000000000000180000000000000000000000000000000000000000000000000000000000000000000000000000000000000000
theorem State.writeHeader_frame {s : State} :
    Frame Foot.writeHeader s (State.writeHeader s) := by
  have h0 := Frame.refl Foot.writeHeader s
  unfold State.writeHeader
  extract_lets a1
  refine Frame.step State.writeUnit_frame ?_
  refine Frame.setReg ?_ (regNo_HLD_SECSEQ)
  exact h0

def Foot.markDurable : Nat := 0x40000000000000000000200000000000000000000000000000000000000000000000000000000000000000000000000000000000000000
theorem State.markDurable_frame {s : State} {x1 : Nat} :
    Frame Foot.markDurable s (State.markDurable s x1) := by
  have h0 := Frame.refl Foot.markDurable s
  unfold State.markDurable
  extract_lets a1 a2
  have h3 : Frame Foot.markDurable s a1 := by
    refine Frame.setReg ?_ (regNo_HLD_DURABLE)
    exact h0
  clear_value a1
  split
  · refine Frame.ite ?_ ?_
    · exact { h3 with bst := fun hb => absurd hb (by decide) }
    · exact h3
  · exact h3

def Foot.writeEntryUnit : Nat := 0x20040000800000000000000280000000000000000000000000000000000000000000000000000000000000000000000000000000000000000
theorem State.writeEntryUnit_frame {s : State} {x1 : LedgerEntry} {x2 : List LedgerEntry} :
    Frame Foot.writeEntryUnit s (State.writeEntryUnit s x1 x2) := by
  have h0 := Frame.refl Foot.writeEntryUnit s
  unfold State.writeEntryUnit
  extract_lets a1 a2 a3 a4 a5
  have h6 : Frame Foot.writeEntryUnit s a3 := by
    refine Frame.ite ?_ ?_
    · exact { h0 with led := fun hb => absurd hb (by decide) }
    · exact h0
  clear_value a3
  have h7 : Frame Foot.writeEntryUnit s a4 := by
    refine Frame.step State.writeUnit_frame ?_
    exact h6
  clear_value a4
  refine Frame.ite ?_ ?_
  · exact { h7 with led := fun hb => absurd hb (by decide) }
  · refine Frame.step State.markDurable_frame ?_
    exact { h7 with led := fun hb => absurd hb (by decide) }

def Foot.writeNextUnit : Nat := 0x20040000800000000000000380000000000000000000000000000000000000000000000000000000000000000000000000000000000000000
theorem State.writeNextUnit_frame {s : State} :
    Frame Foot.writeNextUnit s (State.writeNextUnit s) := by
  have h0 := Frame.refl Foot.writeNextUnit s
  unfold State.writeNextUnit
  split
  · exact h0
  · refine Frame.ite ?_ ?_
    · refine Frame.step State.writeHeader_frame ?_
      exact h0
    · refine Frame.step State.writeEntryUnit_frame ?_
      exact h0

def Foot.execLedgerUnitWritten : Nat := 0x20040000800000000000000380000000000000000000000000000000000000000000000000000000000000000000000000000000000000000
theorem execLedgerUnitWritten_frame {s : State} :
    FrameO Foot.execLedgerUnitWritten s (execLedgerUnitWritten s) := by
  have h0 := Frame.refl Foot.execLedgerUnitWritten s
  unfold execLedgerUnitWritten
  refine FrameO.next ?_
  refine Frame.step State.writeNextUnit_frame ?_
  exact h0

def Foot.drainQueue : Nat := Foot.writeNextUnit

theorem State.drainQueue_frame {n : Nat} {s : State} : Frame Foot.drainQueue s (State.drainQueue n s) := by
  induction n generalizing s with
  | zero => exact Frame.refl _ s
  | succ n ih =>
    unfold State.drainQueue
    exact Frame.ite (Frame.refl _ s) (Frame.step ih State.writeNextUnit_frame)

def Foot.drainForReset : Nat := 0x20040001A00000000000000780000000000000000000000000000000000000000000000000000000000000000000000000000000800000000
theorem State.drainForReset_frame {s : State} :
    Frame Foot.drainForReset s (State.drainForReset s) := by
  have h0 := Frame.refl Foot.drainForReset s
  unfold State.drainForReset
  extract_lets a1 a2 a3
  have h4 : Frame Foot.drainForReset s a1 := by
    refine Frame.step State.sendResumePoint_frame ?_
    exact h0
  clear_value a1
  refine Frame.step State.drainQueue_frame ?_
  refine Frame.foldl ?_ (fun u5 x6 h7 => ?_)
  · exact { h4 with led := fun hb => absurd hb (by decide), dlink := fun hb => absurd hb (by decide) }
  · refine Frame.step State.acceptEntry_frame ?_
    exact h7

def Foot.dropTorn : Nat := 0x180000000000000000000000000000000000000000000000000000000000000000000000000000000000000000
theorem State.dropTorn_frame {s : State} :
    Frame Foot.dropTorn s (State.dropTorn s) := by
  have h0 := Frame.refl Foot.dropTorn s
  unfold State.dropTorn
  refine Frame.ite ?_ ?_
  · exact h0
  · extract_lets a1 a2
    have h3 : Frame Foot.dropTorn s a2 := by
      refine Frame.ite ?_ ?_
      · refine Frame.setReg ?_ (regNo_HLD_SECSEQ)
        exact h0
      · exact h0
    clear_value a2
    refine Frame.setFld ?_ (regNo_HLD_HEAD)
    exact h3

def Foot.execSupplyLoss : Nat := 0x1A00000000000000000800000000000000000000000000000000000000000000000000000000000000000000000000000800000000
theorem execSupplyLoss_frame {s : State} {x0 : Bool} :
    FrameO Foot.execSupplyLoss s (execSupplyLoss x0 s) := by
  have h0 := Frame.refl Foot.execSupplyLoss s
  unfold execSupplyLoss
  refine FrameO.ite ?_ ?_
  · refine FrameO.next ?_
    exact h0
  · extract_lets a1 a2 a3 a4 a5 a6
    have h7 : Frame Foot.execSupplyLoss s a1 := by
      refine Frame.step State.setHldState_frame ?_
      exact h0
    clear_value a1
    have h8 : Frame Foot.execSupplyLoss s a4 := by
      exact { h7 with led := fun hb => absurd hb (by decide), dlink := fun hb => absurd hb (by decide) }
    clear_value a4
    have h9 : Frame Foot.execSupplyLoss s a5 := by
      refine Frame.ite ?_ ?_
      · refine Frame.step State.sendResumePoint_frame ?_
        exact h8
      · exact h8
    clear_value a5
    refine FrameO.next ?_
    exact { h9 with led := fun hb => absurd hb (by decide) }

def Foot.ledgerNote : Nat := 0x6104000E40000000000000000000000000000000000000000000000000000000000000000000000000000000000000000004000800000010
theorem State.ledgerNote_frame {s : State} {x1 : List Word} :
    Frame Foot.ledgerNote s (State.ledgerNote s x1) := by
  have h0 := Frame.refl Foot.ledgerNote s
  unfold State.ledgerNote
  extract_lets a1 a2
  have h3 : Frame Foot.ledgerNote s a2 := by
    refine Frame.step State.event_frame ?_
    exact h0
  clear_value a2
  refine Frame.step State.sendLedger_frame ?_
  exact h3

def Foot.execLedgerExportRequest : Nat := 0x800000000000000000800000000000000000000000000000000000000000000000000000000000000000000000000000000000000
theorem execLedgerExportRequest_frame {s : State} {x0 : Nat} {x1 : List Byte} :
    FrameO Foot.execLedgerExportRequest s (execLedgerExportRequest x0 x1 s) := by
  have h0 := Frame.refl Foot.execLedgerExportRequest s
  unfold execLedgerExportRequest
  extract_lets a1 a2 a3 a4
  refine FrameO.ite ?_ ?_
  · refine FrameO.next ?_
    exact h0
  · refine FrameO.next ?_
    refine Frame.setFld ?_ (regNo_HLD_STAT)
    exact { h0 with led := fun hb => absurd hb (by decide) }

def Foot.dlinkDown : Nat := 0x610401AE400000000000000000000000000000000000000000000000000000010000000000000000000101781A0000000004000800000014
theorem State.dlinkDown_frame {s : State} {x1 : Bool} :
    Frame Foot.dlinkDown s (State.dlinkDown s x1) := by
  have h0 := Frame.refl Foot.dlinkDown s
  unfold State.dlinkDown
  extract_lets a1
  have h2 : Frame Foot.dlinkDown s a1 := by
    refine Frame.setFld ?_ (regNo_SYS_DLINK_STAT)
    exact h0
  clear_value a1
  refine Frame.ite ?_ ?_
  · exact h2
  · refine Frame.step State.raise_frame ?_
    exact h2

def Foot.degrade : Nat := 0x6504001E40000000000000000000000000000000000000000000000000000000000000000000000000000000000000000004000800000014
theorem State.degrade_frame {s : State} :
    Frame Foot.degrade s (State.degrade s) := by
  have h0 := Frame.refl Foot.degrade s
  unfold State.degrade
  split
  rename_i x1 x2 x3 x4
  refine Frame.cutR (K := Foot.degrade) (s := s) x4 ?_ (fun h5 => ?_)
  · refine FrameR.step State.takeFree_frame ?_
    exact { h0 with dlink := fun hb => absurd hb (by decide) }
  · refine Frame.step State.event_frame ?_
    refine Frame.step State.f2Begins_frame ?_
    refine Frame.setFld ?_ (regNo_SYS_DLINK_STAT)
    exact h5

def Foot.streamLost : Nat := 0x650401BE400000000000000000000000000000000000000000000000000000010000000000000000000101781A0000000004000800000014
theorem State.streamLost_frame {s : State} :
    Frame Foot.streamLost s (State.streamLost s) := by
  have h0 := Frame.refl Foot.streamLost s
  unfold State.streamLost
  extract_lets a1 a2 a3 a4 a5 a6
  have h7 : Frame Foot.streamLost s a1 := by
    refine Frame.count ?_ (regNo_SYS_DLINK_STAT)
    exact h0
  clear_value a1
  have h8 : Frame Foot.streamLost s a5 := by
    exact { h7 with dlink := fun hb => absurd hb (by decide) }
  clear_value a5
  have h9 : Frame Foot.streamLost s a6 := by
    refine Frame.ite ?_ ?_
    · refine Frame.step State.degrade_frame ?_
      exact h8
    · exact h8
  clear_value a6
  refine Frame.ite ?_ ?_
  · refine Frame.step State.raise_frame ?_
    exact h9
  · exact h9

def Foot.controlFailed : Nat := 0x610401BE400000000000000000000000000000000000000000000000000000010000000000000000000101781A0000000004000800000014
theorem State.controlFailed_frame {s : State} {x1 : Bool} :
    Frame Foot.controlFailed s (State.controlFailed s x1) := by
  have h0 := Frame.refl Foot.controlFailed s
  unfold State.controlFailed
  extract_lets a1 a2 a3 a4
  have h5 : Frame Foot.controlFailed s a4 := by
    refine Frame.ite ?_ ?_
    · exact { h0 with dlink := fun hb => absurd hb (by decide) }
    · exact { h0 with dlink := fun hb => absurd hb (by decide) }
  clear_value a4
  refine Frame.ite ?_ ?_
  · refine Frame.count ?_ (regNo_SYS_DLINK_STAT)
    exact h5
  · refine Frame.step State.dlinkDown_frame ?_
    exact h5

def Foot.dlinkUp : Nat := 0x3000000000000000000000000000000000000000000000000000000000000000000000000000000060000000000000000000000000
theorem State.dlinkUp_frame {s : State} {x1 : Bool} {x2 : Bool} :
    Frame Foot.dlinkUp s (State.dlinkUp s x1 x2) := by
  have h0 := Frame.refl Foot.dlinkUp s
  unfold State.dlinkUp
  extract_lets a1 a2 a3 a4
  have h5 : Frame Foot.dlinkUp s a2 := by
    refine Frame.ite ?_ ?_
    · exact { h0 with dlink := fun hb => absurd hb (by decide) }
    · exact { h0 with dlink := fun hb => absurd hb (by decide) }
  clear_value a2
  have h6 : Frame Foot.dlinkUp s a3 := by
    refine Frame.step State.endCause_frame ?_
    exact h5
  clear_value a3
  refine Frame.ite ?_ ?_
  · refine Frame.step State.endCause_frame ?_
    exact { h6 with dlink := fun hb => absurd hb (by decide) }
  · exact h6

def Foot.controlUsed : Nat := 0x1800000000000000400000000000000000000000000000000000000000000000000000000000000000000000000000000000000000
theorem State.controlUsed_frame {s : State} {x1 : Bool} {x2 : List Byte} :
    Frame Foot.controlUsed s (State.controlUsed s x1 x2) := by
  have h0 := Frame.refl Foot.controlUsed s
  unfold State.controlUsed
  extract_lets a1 a2 a3
  have h4 : Frame Foot.controlUsed s a2 := by
    refine Frame.ite ?_ ?_
    · exact { h0 with dlink := fun hb => absurd hb (by decide) }
    · exact { h0 with dlink := fun hb => absurd hb (by decide) }
  clear_value a2
  split
  · exact h4
  · refine Frame.ite ?_ ?_
    · exact h4
    · refine Frame.ite ?_ ?_
      · exact { h4 with dlink := fun hb => absurd hb (by decide) }
      · refine Frame.step State.acceptNext_frame ?_
        exact { h4 with dlink := fun hb => absurd hb (by decide) }

def Foot.execDlinkFrameReceive : Nat := 0x650401BE400000000000004000000000000000000000000000000000000000010000000000000000000101781A0000000004000800000014
theorem execDlinkFrameReceive_frame {s : State} {x0 : Bool} {x1 : Fin 3} {x2 : BitVec 16} {x3 : List Byte} {x4 : Word} :
    FrameO Foot.execDlinkFrameReceive s (execDlinkFrameReceive x0 x1 x2 x3 x4 s) := by
  have h0 := Frame.refl Foot.execDlinkFrameReceive s
  unfold execDlinkFrameReceive
  extract_lets a1 a2 a3 a4 a5 a6 a7
  have h8 : Frame Foot.execDlinkFrameReceive s a6 := by
    refine Frame.ite ?_ ?_
    · exact { h0 with dlink := fun hb => absurd hb (by decide) }
    · exact { h0 with dlink := fun hb => absurd hb (by decide) }
  clear_value a6
  have h9 : Frame Foot.execDlinkFrameReceive s a7 := by
    refine Frame.step State.dlinkUp_frame ?_
    exact h8
  clear_value a7
  refine FrameO.next ?_
  refine Frame.ite ?_ ?_
  · refine Frame.ite ?_ ?_
    · refine Frame.step State.controlUsed_frame ?_
      exact h9
    · exact h9
  · refine Frame.ite ?_ ?_
    · refine Frame.step State.streamLost_frame ?_
      exact h8
    · refine Frame.ite ?_ ?_
      · refine Frame.step State.controlFailed_frame ?_
        exact h8
      · exact h8

def Foot.execDlinkHeartbeatTimeout : Nat := 0x610401AE408000000000000000000000000000000000000000000000000000010000000000000000000101781A0000000004000800000014
theorem execDlinkHeartbeatTimeout_frame {s : State} {x0 : Bool} :
    FrameO Foot.execDlinkHeartbeatTimeout s (execDlinkHeartbeatTimeout x0 s) := by
  have h0 := Frame.refl Foot.execDlinkHeartbeatTimeout s
  unfold execDlinkHeartbeatTimeout
  extract_lets a1
  refine FrameO.next ?_
  refine Frame.step State.dlinkDown_frame ?_
  refine Frame.step State.at_frame ?_
  exact h0

def Foot.execFieldDieIdentity : Nat := 0x401
theorem execFieldDieIdentity_frame {s : State} {x0 : Fin 16} :
    FrameO Foot.execFieldDieIdentity s (execFieldDieIdentity x0 s) := by
  have h0 := Frame.refl Foot.execFieldDieIdentity s
  unfold execFieldDieIdentity
  extract_lets a1
  have h2 : Frame Foot.execFieldDieIdentity s a1 := by
    refine Frame.setFld ?_ (regNo_SYS_DEVID)
    exact h0
  clear_value a1
  refine FrameO.next ?_
  refine Frame.setFld ?_ (regNo_SYS_RSTCAUSE)
  exact h2

/-! ### Reset -/

def Foot.commandSpo : Nat := 0x610401AE400000000000000000000000000000000000000000000000000000010000000000000000000101001A0000000004000800000010
theorem State.commandSpo_frame {s : State} {x1 : Nat} :
    Frame Foot.commandSpo s (State.commandSpo s x1) := by
  have h0 := Frame.refl Foot.commandSpo s
  unfold State.commandSpo
  extract_lets a1 a2
  have h3 : Frame Foot.commandSpo s a1 := by
    refine Frame.step State.applySafeAll_frame ?_
    refine Frame.step State.settle_frame ?_
    exact h0
  clear_value a1
  have h4 : Frame Foot.commandSpo s a2 := by
    refine Frame.foldl ?_ (fun u5 x6 h7 => ?_)
    · exact h3
    · refine Frame.setFld ?_ (regNo_PROT_BRb_STAT _)
      exact h7
  clear_value a2
  refine Frame.step State.regate_frame ?_
  exact h4

def Foot.ledgerBefore : Nat := 0x20040001A00000000000000780000000000000000000000000000000000000000000000000000000000000000000000000000000800000000
theorem State.ledgerBefore_frame {s : State} {x1 : Nat} :
    Frame Foot.ledgerBefore s (State.ledgerBefore s x1) := by
  have h0 := Frame.refl Foot.ledgerBefore s
  unfold State.ledgerBefore
  refine Frame.ite ?_ ?_
  · refine Frame.step State.drainForReset_frame ?_
    exact h0
  · exact h0

def Foot.assertReset : Nat := 0x2614C05BE400000000000007801024000000000000000000000000000000000010000000000000000000101001A0000000004000800000010
theorem State.assertReset_frame {s : State} {x1 : Nat} :
    Frame Foot.assertReset s (State.assertReset s x1) := by
  have h0 := Frame.refl Foot.assertReset s
  unfold State.assertReset
  split
  · refine Frame.ite ?_ ?_
    · exact { h0 with pwr := fun hb => absurd hb (by decide) }
    · exact h0
  · extract_lets a1 a2 a3 a4 a5
    have h6 : Frame Foot.assertReset s a1 := by
      refine Frame.ite ?_ ?_
      · refine Frame.foldl ?_ (fun u7 x8 h9 => ?_)
        · exact h0
        · refine Frame.step State.abortTest_frame ?_
          exact h9
      · exact h0
    clear_value a1
    have h10 : Frame Foot.assertReset s a2 := by
      refine Frame.step State.ledgerBefore_frame ?_
      refine Frame.step State.commandSpo_frame ?_
      exact h6
    clear_value a2
    exact { h10 with hic := fun hb => absurd hb (by decide), pwr := fun hb => absurd hb (by decide), bst := fun hb => absurd hb (by decide) }

def Foot.execPowerOnReset : Nat := 0x2614C05BE400000000000007801024000000000000000000000000000000000010000000000000000000101001A0000000004000800000010
theorem execPowerOnReset_frame {s : State} :
    FrameO Foot.execPowerOnReset s (execPowerOnReset s) := by
  have h0 := Frame.refl Foot.execPowerOnReset s
  unfold execPowerOnReset
  refine FrameO.next ?_
  refine Frame.step State.assertReset_frame ?_
  exact h0

def Foot.execCommitEnd : Nat := 0x2614C05BE400000000000007801024000000000000000000000000000000000010000000000000000000101001A0000000004000800000010
theorem execCommitEnd_frame {s : State} :
    FrameO Foot.execCommitEnd s (execCommitEnd s) := by
  have h0 := Frame.refl Foot.execCommitEnd s
  unfold execCommitEnd
  refine FrameO.next ?_
  refine Frame.ite ?_ ?_
  · refine Frame.step State.assertReset_frame ?_
    exact h0
  · exact h0

def Foot.execResetPin : Nat := 0x2614C05BE408000000000007801024000000000000000000000000000000000010000000000000000000101001A0000000004000800000010
theorem execResetPin_frame {s : State} {x0 : Nat} :
    FrameO Foot.execResetPin s (execResetPin x0 s) := by
  have h0 := Frame.refl Foot.execResetPin s
  unfold execResetPin
  refine FrameO.next ?_
  refine Frame.step State.assertReset_frame ?_
  refine Frame.step State.at_frame ?_
  exact h0

def Foot.execWdogReset : Nat := 0x2614C05BE408000000000007801024000000000000000000000000000000000010000000000000000000101001A0000000004000800000010
theorem execWdogReset_frame {s : State} {x0 : Nat} :
    FrameO Foot.execWdogReset s (execWdogReset x0 s) := by
  have h0 := Frame.refl Foot.execWdogReset s
  unfold execWdogReset
  extract_lets a1
  have h2 : Frame Foot.execWdogReset s a1 := by
    refine Frame.step State.at_frame ?_
    exact h0
  clear_value a1
  refine FrameO.next ?_
  split
  · refine Frame.ite ?_ ?_
    · refine Frame.step State.assertReset_frame ?_
      exact h2
    · exact h2
  · exact h2

def Foot.rstctlWritten : Nat := 0x610C01AE400000000000000000000000000000000000000000000000000000010000000000000000000101001A0000000004000800000010
theorem State.rstctlWritten_frame {s : State} :
    Frame Foot.rstctlWritten s (State.rstctlWritten s) := by
  have h0 := Frame.refl Foot.rstctlWritten s
  unfold State.rstctlWritten
  refine Frame.ite ?_ ?_
  · extract_lets a1 a2
    have h3 : Frame Foot.rstctlWritten s a1 := by
      refine Frame.step State.commandSpo_frame ?_
      exact h0
    clear_value a1
    exact { h3 with pwr := fun hb => absurd hb (by decide) }
  · exact h0

def Foot.execSwsysResetAssert : Nat := 0x2614C05BE408000000000007801024000000000000000000000000000000000010000000000000000000101001A0000000004000800000010
theorem execSwsysResetAssert_frame {s : State} :
    FrameO Foot.execSwsysResetAssert s (execSwsysResetAssert s) := by
  have h0 := Frame.refl Foot.execSwsysResetAssert s
  unfold execSwsysResetAssert
  refine FrameO.next ?_
  split
  · refine Frame.step State.assertReset_frame ?_
    refine Frame.step State.at_frame ?_
    exact h0
  · exact h0

def Foot.execLcsReset : Nat := 0x2614C05BE400000000000007801024000000000000000000000000000000000010000000000000000000101001A0000000004000800000010
theorem execLcsReset_frame {s : State} :
    FrameO Foot.execLcsReset s (execLcsReset s) := by
  have h0 := Frame.refl Foot.execLcsReset s
  unfold execLcsReset
  refine FrameO.next ?_
  split
  · refine Frame.ite ?_ ?_
    · refine Frame.step State.assertReset_frame ?_
      exact h0
    · exact h0
  · exact h0

def Foot.keepUnits : Nat := 0x100000000000000000000000000000000000000000000000000000000000000000000000000000000000000
theorem State.keepUnits_frame {s : State} {x0 : State} :
    Frame Foot.keepUnits s (State.keepUnits x0 s) := by
  have h0 := Frame.refl Foot.keepUnits s
  unfold State.keepUnits
  refine Frame.foldl ?_ (fun u1 x2 h3 => ?_)
  · exact h0
  · refine Frame.step State.setUnit_frame ?_
    refine Frame.keepFld ?_ (AddrOk.of (regNo_BST_Uu _))
    exact h3

def Foot.keepStandIns : Nat := 0x3FFFFFFFFFFFFFFFFFFFFFFFFFFFFFFFFFFFFFFFFFFFFFFFFFFFFFFFFFFFFFFFFFFFFFFFFFFFFFFFFFFFFFFFFFFFFFFFFFFFFFFFFFFFFFFFF
theorem State.keepStandIns_frame {s : State} {x0 : State} :
    Frame Foot.keepStandIns s (State.keepStandIns x0 s) := by
  have h0 := Frame.refl Foot.keepStandIns s
  unfold State.keepStandIns
  extract_lets a1 a2 a3 a4 a5 a6
  have h7 : Frame Foot.keepStandIns s a1 := by
    refine Frame.step State.keepRegs_frame ?_
    exact h0
  clear_value a1
  have h8 : Frame Foot.keepStandIns s a2 := by
    refine Frame.foldl ?_ (fun u9 x10 h11 => ?_)
    · exact h7
    · refine Frame.ite ?_ ?_
      · exact h11
      · refine Frame.step State.setSp_frame ?_
        exact h11
  clear_value a2
  have h12 : Frame Foot.keepStandIns s a3 := by
    refine Frame.foldl ?_ (fun u13 x14 h15 => ?_)
    · exact h8
    · refine Frame.ite ?_ ?_
      · exact h15
      · refine Frame.step State.setSpare_frame ?_
        exact h15
  clear_value a3
  have h16 : Frame Foot.keepStandIns s a4 := by
    refine Frame.foldl ?_ (fun u17 x18 h19 => ?_)
    · exact h12
    · refine Frame.setFld ?_ (regNo_PAIRk_LIVE _)
      exact h19
  clear_value a4
  have h20 : Frame Foot.keepStandIns s a5 := by
    refine Frame.ite ?_ ?_
    · exact h16
    · refine Frame.step State.setCanSpare_frame ?_
      exact h16
  clear_value a5
  have h21 : Frame Foot.keepStandIns s a6 := by
    refine Frame.foldl ?_ (fun u22 x23 h24 => ?_)
    · exact h20
    · refine Frame.setFld ?_ (regNo_CAN_STAT _)
      exact h24
  clear_value a6
  refine Frame.keepFld ?_ (AddrOk.of (regNo_ENG_STAT))
  refine Frame.keepFld ?_ (AddrOk.of (regNo_ENG_STAT))
  exact h21

def Foot.keepNonVolatile : Nat := 0x3FFFFFFFFFFFFFFFFFFFFFFFFFFFFFFFFFFFFFFFFFFFFFFFFFFFFFFFFFFFFFFFFFFFFFFFFFFFFFFFFFFFFFFFFFFFFFFFFFFFFFFFFFFFFFFFF
theorem State.keepNonVolatile_frame {s : State} {x0 : State} :
    Frame Foot.keepNonVolatile s (State.keepNonVolatile x0 s) := by
  have h0 := Frame.refl Foot.keepNonVolatile s
  unfold State.keepNonVolatile
  extract_lets a1 a2 a3 a4 a5 a6 a7
  have h8 : Frame Foot.keepNonVolatile s a1 := by
    refine Frame.step State.keepRegs_frame ?_
    exact h0
  clear_value a1
  have h9 : Frame Foot.keepNonVolatile s a2 := by
    refine Frame.keepFld ?_ (AddrOk.of (regNo_BST_STAT))
    refine Frame.keepFld ?_ (AddrOk.of (regNo_BST_STAT))
    exact h8
  clear_value a2
  have h10 : Frame Foot.keepNonVolatile s a3 := by
    refine Frame.keepFld ?_ (AddrOk.of (regNo_CLK_CNT))
    refine Frame.keepFld ?_ (AddrOk.of (regNo_CLK_CNT))
    exact h9
  clear_value a3
  have h11 : Frame Foot.keepNonVolatile s a4 := by
    refine Frame.foldl ?_ (fun u12 x13 h14 => ?_)
    · exact h10
    · refine Frame.ite ?_ ?_
      · refine Frame.step State.setPllState_frame ?_
        exact h14
      · exact h14
  clear_value a4
  have h15 : Frame Foot.keepNonVolatile s a5 := by
    refine Frame.step State.keepUnits_frame ?_
    exact h11
  clear_value a5
  exact { h15 with hic := fun hb => absurd hb (by decide), bst := fun hb => absurd hb (by decide) }

def Foot.keepStandby : Nat := 0x3FFFFFFFFFFFFFFFFFFFFFFFFFFFFFFFFFFFFFFFFFFFFFFFFFFFFFFFFFFFFFFFFFFFFFFFFFFFFFFFFFFFFFFFFFFFFFFFFFFFFFFFFFFFFFFFF
theorem State.keepStandby_frame {s : State} {x0 : State} :
    Frame Foot.keepStandby s (State.keepStandby x0 s) := by
  have h0 := Frame.refl Foot.keepStandby s
  unfold State.keepStandby
  extract_lets a1 a2
  have h3 : Frame Foot.keepStandby s a1 := by
    refine Frame.step State.keepRegs_frame ?_
    exact h0
  clear_value a1
  exact { h3 with clk := fun hb => absurd hb (by decide) }

def Foot.keepThermal : Nat := maskBit bit_thm

theorem State.keepThermal_frame {old s : State} : Frame Foot.keepThermal s (State.keepThermal old s) := by
  unfold State.keepThermal
  generalize old.thermalDecay (old.now - old.pwr.heldAt) = d
  exact { Frame.refl Foot.keepThermal s with thm := fun hb => absurd hb (by decide) }

def Foot.keepWarm : Nat := blockMask 10 ||| maskBit bit_image ||| maskBit bit_hic ||| maskBit bit_pwr

theorem inFluxMap_unit {a : Nat} (h : inFluxMap a = true) : unitOf a = 10 := by
  unfold inFluxMap at h
  simp only [Bool.and_eq_true, beq_iff_eq] at h
  exact h.1.1

theorem State.keepWarm_frame {old s : State} : Frame Foot.keepWarm s (State.keepWarm old s) := by
  unfold State.keepWarm
  extract_lets u
  have h : Frame Foot.keepWarm s u := Frame.foldl (Frame.refl _ s) fun t e ht => by
    split
    · next hm => exact ht.setRegAt (AddrOk.other (inFluxMap_unit hm))
    · exact ht
  clear_value u
  exact { h with
    image := fun hb => absurd hb (by decide)
    hic := fun hb => absurd hb (by decide)
    pwr := fun hb => absurd hb (by decide) }

def Foot.openInterval : Nat := 0x800000000000000800000000000000000000000000000000000000000000000000000000000000000000000000000000000000000
theorem State.openInterval_frame {s : State} {x1 : Nat} :
    Frame Foot.openInterval s (State.openInterval s x1) := by
  have h0 := Frame.refl Foot.openInterval s
  unfold State.openInterval
  extract_lets a1 a2 a3
  have h4 : Frame Foot.openInterval s a1 := by
    refine Frame.setReg ?_ (regNo_HLD_RCNT)
    exact h0
  clear_value a1
  exact { h4 with led := fun hb => absurd hb (by decide) }

def Foot.showCause : Nat := 0x400
theorem State.showCause_frame {s : State} {x1 : Nat} :
    Frame Foot.showCause s (State.showCause s x1) := by
  have h0 := Frame.refl Foot.showCause s
  unfold State.showCause
  refine Frame.setFld ?_ (regNo_SYS_RSTCAUSE)
  refine Frame.setFld ?_ (regNo_SYS_RSTCAUSE)
  exact h0

def Foot.releaseReset : Nat := Foot.all

theorem State.releaseReset_frame {s : State} {cause : Nat} : Frame Foot.releaseReset s (s.releaseReset cause) := by
  unfold State.releaseReset
  extract_lets old warm sr p0 s0 s1 s2 s3 s4 s5
  have hold : Frame Foot.all s old := Frame.step State.dropTorn_frame (Frame.refl _ s)
  clear_value old
  have h0 := Frame.refl Foot.all s0
  have h1 : Frame Foot.all s0 s1 := Frame.step State.keepStandIns_frame (Frame.step State.keepNonVolatile_frame h0)
  have h2 : Frame Foot.all s0 s2 := Frame.ite h1 (Frame.step State.keepStandby_frame h1)
  have h3 : Frame Foot.all s0 s3 := Frame.ite (Frame.step State.keepThermal_frame h2) h2
  have h4 : Frame Foot.all s0 s4 := Frame.ite (Frame.step State.keepWarm_frame h3) h3
  have h5 : Frame Foot.all s0 s5 := by
    subst s5
    clear_value s4
    split
    · exact Frame.ite (h4.setFld regNo_BST_STAT) h4
    · exact h4
  have h6 : Frame Foot.all s0 (((s5.showCause cause).openInterval cause).drawNonce) :=
    Frame.step State.drawNonce_frame (Frame.step State.openInterval_frame (Frame.step State.showCause_frame h5))
  refine Frame.all (fun hs => h6.inv ?_) (h6.pending.trans hold.pending) (fun _ => h6.shut (by decide) rfl)
  obtain ⟨_, c2, _, _, _⟩ := hold.inv hs
  exact ⟨rfl, Store.wf_filter _ _ _ c2, rfl, (by decide : State.reset.tick < 2 ^ 48),
    (by decide : State.reset.reg Reg.CMD_PSN ≠ 0)⟩

def Foot.execResetRelease : Nat := 0x3FFFFFFFFFFFFFFFFFFFFFFFFFFFFFFFFFFFFFFFFFFFFFFFFFFFFFFFFFFFFFFFFFFFFFFFFFFFFFFFFFFFFFFFFFFFFFFFFFFFFFFFFFFFFFFFF
theorem execResetRelease_frame {s : State} {x0 : Nat} :
    FrameO Foot.execResetRelease s (execResetRelease x0 s) := by
  have h0 := Frame.refl Foot.execResetRelease s
  unfold execResetRelease
  split
  · refine FrameO.next ?_
    exact h0
  · extract_lets a1 a2 a3 a4
    have h5 : Frame Foot.execResetRelease s a1 := by
      refine Frame.step State.at_frame ?_
      exact h0
    clear_value a1
    have h6 : Frame Foot.execResetRelease s a4 := by
      refine Frame.step State.releaseReset_frame ?_
      exact h5
    clear_value a4
    refine FrameO.next ?_
    refine Frame.ite ?_ ?_
    · refine Frame.step State.postPower_frame ?_
      exact h6
    · exact h6

def Foot.resetLink : Nat := Foot.linkDisable ||| Foot.blockRegs 11 ||| Foot.linkCfgWritten

theorem inBlock_unit {u lo n a : Nat} (h : inBlock u lo n a = true) : unitOf a = u := by
  unfold inBlock at h
  simp only [Bool.and_eq_true, beq_iff_eq] at h
  exact h.1.1.2

theorem State.resetLink_frame {s : State} {l : Nat} : Frame Foot.resetLink s (s.resetLink l) := by
  unfold State.resetLink
  exact Frame.step State.linkCfgWritten_frame (Frame.blockRegs (u := 11)
    (Frame.step State.linkDisable_frame (Frame.refl _ s)) fun a h =>
      (Bool.or_eq_true _ _ ▸ h).elim inBlock_unit inBlock_unit)

def Foot.resetCan : Nat := Foot.canAbort ||| blockMask 13 ||| Foot.setCanCtl

theorem State.resetCan_frame {s : State} {c : Nat} : Frame Foot.resetCan s (s.resetCan c) := by
  unfold State.resetCan
  extract_lets a spare shared b d
  have ha : Frame Foot.resetCan s a := Frame.step State.canAbort_frame (Frame.refl _ s)
  have hb : Frame Foot.resetCan s b := Frame.blockRegs (u := 13) ha fun x hx => by
    simp only [Bool.and_eq_true] at hx
    exact inBlock_unit hx.1
  exact Frame.step State.setCanCtl_frame (hb.setFld (regNo_CAN_STAT _))

def Foot.resetEth : Nat := Foot.ethAbort ||| blockMask 14 ||| maskBit bit_eth

theorem State.resetEth_frame {s : State} {p : Nat} : Frame Foot.resetEth s (s.resetEth p) := by
  unfold State.resetEth
  extract_lets a b
  have ha : Frame Foot.resetEth s a := Frame.step State.ethAbort_frame (Frame.refl _ s)
  have hb : Frame Foot.resetEth s b := Frame.blockRegs (u := 14) ha fun x => inBlock_unit
  clear_value b
  exact { hb with eth := fun h => absurd h (by decide) }

def Foot.resetXsp : Nat := blockMask 20

theorem State.resetXsp_frame {s : State} : Frame Foot.resetXsp s s.resetXsp := by
  unfold State.resetXsp
  exact Frame.blockRegs (u := 20) (Frame.refl _ s) fun x hx => by
    simp only [Bool.and_eq_true] at hx
    exact inBlock_unit hx.1

def Foot.resetChk : Nat := blockMask 15 ||| maskBit bit_chk

theorem State.resetChk_frame {s : State} : Frame Foot.resetChk s s.resetChk := by
  unfold State.resetChk
  extract_lets b
  have hb : Frame Foot.resetChk s b := Frame.blockRegs (u := 15) (Frame.refl _ s) fun x => inBlock_unit
  clear_value b
  exact { hb with chk := fun h => absurd h (by decide) }

def Foot.swsubGo : Nat := 0x758741AE4000FF000000000000001FFFFFFFFFFFFFFFFFFF800007F8000000010000000000000000000101781A0000000004000800000010
theorem State.swsubGo_frame {s : State} :
    Frame Foot.swsubGo s (State.swsubGo s) := by
  have h0 := Frame.refl Foot.swsubGo s
  unfold State.swsubGo
  extract_lets a1 a2
  refine Frame.ite ?_ ?_
  · exact h0
  · refine Frame.ite ?_ ?_
    · refine Frame.step State.resetLink_frame ?_
      exact h0
    · refine Frame.ite ?_ ?_
      · refine Frame.step State.resetCan_frame ?_
        exact h0
      · refine Frame.ite ?_ ?_
        · refine Frame.step State.resetEth_frame ?_
          exact h0
        · refine Frame.ite ?_ ?_
          · refine Frame.step State.resetXsp_frame ?_
            exact h0
          · refine Frame.step State.resetChk_frame ?_
            exact h0

def Foot.execSwsubDone : Nat := 0x200
theorem execSwsubDone_frame {s : State} :
    FrameO Foot.execSwsubDone s (execSwsubDone s) := by
  have h0 := Frame.refl Foot.execSwsubDone s
  unfold execSwsubDone
  refine FrameO.next ?_
  refine Frame.setFld ?_ (regNo_SYS_SWSUB)
  exact h0

def Foot.execImageSealCheck : Nat := 0x8000000000000000000000000000000000000000000000000000000000000000000000000000000000000000000000000000000000800
theorem execImageSealCheck_frame {s : State} :
    FrameO Foot.execImageSealCheck s (execImageSealCheck s) := by
  have h0 := Frame.refl Foot.execImageSealCheck s
  unfold execImageSealCheck
  refine FrameO.ite ?_ ?_
  · refine FrameO.next ?_
    exact h0
  · extract_lets a1 a2
    refine FrameO.next ?_
    refine Frame.setFld ?_ (regNo_SYS_RESTORE)
    exact { h0 with pwr := fun hb => absurd hb (by decide) }

def Foot.restoreGo : Nat := 0x8000000000000000000000000000000000000000000000000000000000000000000000000000000000000000000000000000000000800
theorem State.restoreGo_frame {s : State} :
    Frame Foot.restoreGo s (State.restoreGo s) := by
  have h0 := Frame.refl Foot.restoreGo s
  unfold State.restoreGo
  refine Frame.ite ?_ ?_
  · exact h0
  · refine Frame.ite ?_ ?_
    · refine Frame.setFld ?_ (regNo_SYS_RESTORE)
      exact h0
    · refine Frame.setFld ?_ (regNo_SYS_RESTORE)
      exact { h0 with pwr := fun hb => absurd hb (by decide) }

def Foot.enterSleep : Nat := 0x6104000E40000000000002000000000000000000000000000000000000000000000000000000000000000000000000000004000800000010
theorem State.enterSleep_frame {s : State} {x1 : Nat} {x2 : Nat} :
    Frame Foot.enterSleep s (State.enterSleep s x1 x2) := by
  have h0 := Frame.refl Foot.enterSleep s
  unfold State.enterSleep
  extract_lets a1 a2 a3
  have h4 : Frame Foot.enterSleep s a1 := by
    refine Frame.step State.postPower_frame ?_
    refine Frame.setFld ?_ (regNo_PWR_STATE)
    exact h0
  clear_value a1
  have h5 : Frame Foot.enterSleep s a2 := by
    refine Frame.step State.sendResumePoint_frame ?_
    exact h4
  clear_value a2
  exact { h5 with led := fun hb => absurd hb (by decide) }

def Foot.settleTb : Nat := 0x4000000000000000000000000000000000000000000000000000000000000000000000000000000000000000000000000000000000
theorem State.settleTb_frame {s : State} {x1 : Nat} :
    Frame Foot.settleTb s (State.settleTb s x1) := by
  have h0 := Frame.refl Foot.settleTb s
  unfold State.settleTb
  extract_lets a1
  refine Frame.ite ?_ ?_
  · refine Frame.step State.openPeriod_frame ?_
    exact h0
  · refine Frame.ite ?_ ?_
    · refine Frame.step State.setTb_frame ?_
      exact h0
    · exact h0

def Foot.parkTimebases : Nat := 0x8004000000000000000000000000000000000000000000000000000000000000000000000000000000000000000000000000000000000
theorem State.parkTimebases_frame {s : State} :
    Frame Foot.parkTimebases s (State.parkTimebases s) := by
  have h0 := Frame.refl Foot.parkTimebases s
  unfold State.parkTimebases
  extract_lets a1 a2 a3 a4
  have h5 : Frame Foot.parkTimebases s a2 := by
    refine Frame.foldl ?_ (fun u6 x7 h8 => ?_)
    · exact h0
    · refine Frame.step State.settleTb_frame ?_
      exact h8
  clear_value a2
  have h9 : Frame Foot.parkTimebases s a4 := by
    exact { h5 with pwr := fun hb => absurd hb (by decide) }
  clear_value a4
  refine Frame.foldl ?_ (fun u10 x11 h12 => ?_)
  · exact h9
  · refine Frame.step State.stopTb_frame ?_
    exact h12

def Foot.unsyncDs : Nat := 0x40000000000000000000000000000000000000000000000000000000000000000000000000000000000000000000000000000000000
theorem State.unsyncDs_frame {s : State} :
    Frame Foot.unsyncDs s (State.unsyncDs s) := by
  have h0 := Frame.refl Foot.unsyncDs s
  unfold State.unsyncDs
  refine Frame.foldl ?_ (fun u1 x2 h3 => ?_)
  · exact h0
  · refine Frame.step State.setDsRun_frame ?_
    exact h3

def Foot.enterPark : Nat := 0x614D04EE48000000000002000001000000000000000000010000000000000000000000000000000000010000000400000004000800184010
theorem State.enterPark_frame {s : State} {x1 : Nat} :
    Frame Foot.enterPark s (State.enterPark s x1) := by
  have h0 := Frame.refl Foot.enterPark s
  unfold State.enterPark
  extract_lets a1 a2 a3 a4 a5 a6 a7 a8 a9 a10 a11
  have h12 : Frame Foot.enterPark s a2 := by
    refine Frame.step State.unsyncDs_frame ?_
    refine Frame.step State.parkTimebases_frame ?_
    refine Frame.step State.settle_frame ?_
    exact h0
  clear_value a2
  have h13 : Frame Foot.enterPark s a3 := by
    refine Frame.foldl ?_ (fun u14 x15 h16 => ?_)
    · exact h12
    · refine Frame.setFld ?_ (regNo_PROT_BRb_STAT _)
      exact h16
  clear_value a3
  have h17 : Frame Foot.enterPark s a7 := by
    exact { h13 with prot := fun hb => absurd hb (by decide), pwr := fun hb => absurd hb (by decide), bst := fun hb => absurd hb (by decide) }
  clear_value a7
  have h18 : Frame Foot.enterPark s a8 := by
    refine Frame.ite ?_ ?_
    · exact h17
    · refine Frame.step State.moveDomains_frame ?_
      refine Frame.step State.setPllState_frame ?_
      exact h17
  clear_value a8
  have h19 : Frame Foot.enterPark s a9 := by
    refine Frame.setFld ?_ (regNo_PWR_STATE)
    exact h18
  clear_value a9
  have h20 : Frame Foot.enterPark s a10 := by
    refine Frame.step State.postPower_frame ?_
    exact h19
  clear_value a10
  refine Frame.ite ?_ ?_
  · refine Frame.step State.enterSleep_frame ?_
    exact h20
  · refine Frame.ite ?_ ?_
    · refine Frame.step State.beginExit_frame ?_
      exact { h20 with pwr := fun hb => absurd hb (by decide) }
    · exact h20

def Foot.powerStateSet : Nat := 0x614D04EE48000000000002000001000000000000000000010000000000000000000000000000000000010000000400000004000800184010
theorem State.powerStateSet_frame {s : State} {x1 : Word} :
    FrameV Foot.powerStateSet s (State.powerStateSet s x1) := by
  have h0 := Frame.refl Foot.powerStateSet s
  unfold State.powerStateSet
  extract_lets a1 a2 a3 a4
  refine FrameV.ite ?_ ?_
  · exact FrameV.no
  · refine FrameV.ite ?_ ?_
    · refine FrameV.doneClamp ?_
      exact h0
    · refine FrameV.ite ?_ ?_
      · refine FrameV.doneClamp ?_
        refine Frame.ite ?_ ?_
        · refine Frame.step State.requestRun_frame ?_
          exact h0
        · exact h0
      · refine FrameV.ite ?_ ?_
        · exact FrameV.no
        · refine FrameV.ite ?_ ?_
          · refine FrameV.doneClamp ?_
            refine Frame.step State.enterSleep_frame ?_
            exact h0
          · refine FrameV.ite ?_ ?_
            · refine FrameV.doneClamp ?_
              exact { h0 with pwr := fun hb => absurd hb (by decide) }
            · refine FrameV.doneClamp ?_
              refine Frame.step State.enterPark_frame ?_
              exact h0

def Foot.execWake : Nat := 0x2614C05BE488000000000427801024000000000000000000000000000000000010000000000000000000101001A0000000004000800180010
theorem execWake_frame {s : State} {x0 : Fin 5} {x1 : Bool} {x2 : Nat} {x3 : Nat} :
    FrameO Foot.execWake s (execWake x0 x1 x2 x3 s) := by
  have h0 := Frame.refl Foot.execWake s
  unfold execWake
  extract_lets a1 a2 a3 a4
  have h5 : Frame Foot.execWake s a1 := by
    refine Frame.step State.at_frame ?_
    exact h0
  clear_value a1
  have h6 : Frame Foot.execWake s a4 := by
    refine Frame.setReg ?_ (regNo_PWR_WAKESTAT)
    exact h5
  clear_value a4
  refine FrameO.ite ?_ ?_
  · refine FrameO.next ?_
    exact h5
  · refine FrameO.next ?_
    refine Frame.ite ?_ ?_
    · refine Frame.step State.assertReset_frame ?_
      refine Frame.setFld ?_ (regNo_PWR_STATE)
      exact h6
    · refine Frame.step State.wakeBy_frame ?_
      exact h5

def Foot.execSleepPowerDown : Nat := 0x20048001800000000000000780000000000000000000000000000000000000000000000000000000000000000000000000000000000000000
theorem execSleepPowerDown_frame {s : State} :
    FrameO Foot.execSleepPowerDown s (execSleepPowerDown s) := by
  have h0 := Frame.refl Foot.execSleepPowerDown s
  unfold execSleepPowerDown
  refine FrameO.ite ?_ ?_
  · refine FrameO.next ?_
    exact h0
  · extract_lets a1 a2 a3 a4 a5
    have h6 : Frame Foot.execSleepPowerDown s a3 := by
      refine Frame.step State.drainQueue_frame ?_
      refine Frame.foldl ?_ (fun u7 x8 h9 => ?_)
      · exact { h0 with led := fun hb => absurd hb (by decide), dlink := fun hb => absurd hb (by decide) }
      · refine Frame.step State.acceptEntry_frame ?_
        exact h9
    clear_value a3
    refine FrameO.next ?_
    exact { h6 with led := fun hb => absurd hb (by decide), pwr := fun hb => absurd hb (by decide) }

def Foot.unparkTimebases : Nat := 0x8004000000000000000000000000000000000000000000000000000000000000000000000000000000000000000000000000000000000
theorem State.unparkTimebases_frame {s : State} :
    Frame Foot.unparkTimebases s (State.unparkTimebases s) := by
  have h0 := Frame.refl Foot.unparkTimebases s
  unfold State.unparkTimebases
  extract_lets a1 a2
  have h3 : Frame Foot.unparkTimebases s a1 := by
    refine Frame.foldl ?_ (fun u4 x5 h6 => ?_)
    · exact h0
    · refine Frame.step State.setTb_frame ?_
      exact h6
  clear_value a1
  exact { h3 with pwr := fun hb => absurd hb (by decide) }

def Foot.leavePark : Nat := 0x615D05EE4B00000000008200010140000000001FFFFFFFFF80000000000000000000000000000002800018607FFFF8000024000800184010
theorem State.leavePark_frame {s : State} :
    Frame Foot.leavePark s (State.leavePark s) := by
  have h0 := Frame.refl Foot.leavePark s
  unfold State.leavePark
  extract_lets a1 a2 a3 a4 a5 a6 a7
  have h8 : Frame Foot.leavePark s a2 := by
    refine Frame.setFld ?_ (regNo_PWR_STATE)
    exact h0
  clear_value a2
  have h9 : Frame Foot.leavePark s a3 := by
    refine Frame.setReg ?_ (regNo_PWR_PARKTIME)
    exact h8
  clear_value a3
  have h10 : Frame Foot.leavePark s a7 := by
    exact { h9 with t0 := fun hb => absurd hb (by decide), prevLen := fun hb => absurd hb (by decide), acq := fun hb => absurd hb (by decide), pwr := fun hb => absurd hb (by decide), bst := fun hb => absurd hb (by decide) }
  clear_value a7
  refine Frame.step State.bstParkExit_frame ?_
  refine Frame.step State.unparkTimebases_frame ?_
  exact h10

def Foot.execParkExit : Nat := 0x615D05EE4B80000000008200010140000000001FFFFFFFFF80000000000000000000000000000002800018607FFFF8000024000800184010
theorem execParkExit_frame {s : State} {x0 : Nat} :
    FrameO Foot.execParkExit s (execParkExit x0 s) := by
  have h0 := Frame.refl Foot.execParkExit s
  unfold execParkExit
  extract_lets a1
  have h2 : Frame Foot.execParkExit s a1 := by
    refine Frame.step State.at_frame ?_
    exact h0
  clear_value a1
  refine FrameO.next ?_
  refine Frame.ite ?_ ?_
  · refine Frame.step State.leavePark_frame ?_
    exact h2
  · exact h2

def Foot.execSupplyMonitorChange : Nat := 0x690C03AE4080000000000000000000000000000000000000000000000000000100000000000000001E0101781A0000000004000800000010
theorem execSupplyMonitorChange_frame {s : State} {x0 : Fin 16} {x1 : Nat} :
    FrameO Foot.execSupplyMonitorChange s (execSupplyMonitorChange x0 x1 s) := by
  have h0 := Frame.refl Foot.execSupplyMonitorChange s
  unfold execSupplyMonitorChange
  extract_lets a1 a2 a3 a4
  have h5 : Frame Foot.execSupplyMonitorChange s a1 := by
    refine Frame.step State.at_frame ?_
    exact h0
  clear_value a1
  have h6 : Frame Foot.execSupplyMonitorChange s a3 := by
    exact { h5 with pwr := fun hb => absurd hb (by decide) }
  clear_value a3
  refine FrameO.next ?_
  refine Frame.ite ?_ ?_
  · refine Frame.step State.setLevel_frame ?_
    exact h6
  · refine Frame.ite ?_ ?_
    · exact h6
    · refine Frame.step State.trip_frame ?_
      refine Frame.step State.setLevel_frame ?_
      refine Frame.step State.settle_frame ?_
      exact h6

end Sys2Proof.Machine
end

