-- ==== Sys2Proof/Laws/FrameWrite.lean ====
section
/-! SUPPORT. What each operation can change, one lemma for one function, and the mask of the parts it names:
register writes, descriptors, rings and caravans. -/

set_option Elab.async false

namespace Sys2Proof.Machine

/-! ### RingCtl -/

def Foot.setBad : Nat := 0x4000000000000000000000000000000000000000000000000000000000000000000000000000000000000000000000000000000000000
theorem State.setBad_frame {s : State} {x1 : Nat} {x2 : Bool} :
    Frame Foot.setBad s (State.setBad s x1 x2) := by
  have h0 := Frame.refl Foot.setBad s
  unfold State.setBad
  extract_lets a1 a2 a3
  exact { h0 with hic := fun hb => absurd hb (by decide) }

def Foot.snooped : Nat := 0x800000000000000000000000000000000000000000000000000000000000000000000000000000000000000000000000000000
theorem State.snooped_frame {s : State} :
    Frame Foot.snooped s (State.snooped s) := by
  have h0 := Frame.refl Foot.snooped s
  unfold State.snooped
  refine Frame.step State.at_frame ?_
  exact h0

def Foot.sqBell : Nat := 0x200000000000000000000000000000000000000000000000000000000000000000000000000000000000000000000C1000000000
theorem State.sqBell_frame {s : State} {x1 : Nat} {x2 : Word} :
    Frame Foot.sqBell s (State.sqBell s x1 x2) := by
  have h0 := Frame.refl Foot.sqBell s
  unfold State.sqBell
  extract_lets a1 a2
  refine Frame.ite ?_ ?_
  · refine Frame.count ?_ (regNo_CMD_SQn_CNT _)
    exact h0
  · refine Frame.step State.refreshRings_frame ?_
    refine Frame.step State.setSq_frame ?_
    exact h0

def Foot.eqBell : Nat := 0x6104000E40000000000000000000000000000000000000000000000000000000000000000000000000000000000000000004000800000010
theorem State.eqBell_frame {s : State} {x1 : Word} :
    Frame Foot.eqBell s (State.eqBell s x1) := by
  have h0 := Frame.refl Foot.eqBell s
  unfold State.eqBell
  refine Frame.step State.postOverflow_frame ?_
  refine Frame.step State.recBell_frame ?_
  exact h0

def Foot.bellStored : Nat := Foot.setBad ||| maskBit bit_sram ||| maskBit bit_hic

theorem State.bellStored_frame {s : State} {off : Nat} {w : Word} (ho : off + 4 ≤ 0x10000000 := by unfold doorbell; omega) :
    Frame Foot.bellStored s (s.bellStored off w) := by
  unfold State.bellStored
  exact Frame.step State.setBad_frame (((Frame.refl _ s).clearResv).setSram ho)

def Foot.execSqDoorbellWrite : Nat := 0x12040000208000000000000000000000000000000000000000000000000000000000000000000000000000000000000000000C1000000000
theorem execSqDoorbellWrite_frame {s : State} {x0 : Fin 16} {x1 : Word} :
    FrameO Foot.execSqDoorbellWrite s (execSqDoorbellWrite x0 x1 s) := by
  have h0 := Frame.refl Foot.execSqDoorbellWrite s
  unfold execSqDoorbellWrite
  refine FrameO.next ?_
  extract_lets a1
  have h2 : Frame Foot.execSqDoorbellWrite s a1 := by
    refine Frame.step State.sqBell_frame ?_
    refine Frame.step State.snooped_frame ?_
    refine Frame.step State.bellStored_frame ?_
    exact h0
  clear_value a1
  exact { h2 with bus := fun hb => absurd hb (by decide) }

def Foot.execCqConsumerIndexWrite : Nat := 0x1204000040800000000000000000000000000000000000000000000000000000000000000000000000000000000000000000000000000000
theorem execCqConsumerIndexWrite_frame {s : State} {x0 : Fin 4} {x1 : Word} :
    FrameO Foot.execCqConsumerIndexWrite s (execCqConsumerIndexWrite x0 x1 s) := by
  have h0 := Frame.refl Foot.execCqConsumerIndexWrite s
  unfold execCqConsumerIndexWrite
  refine FrameO.next ?_
  extract_lets a1
  have h2 : Frame Foot.execCqConsumerIndexWrite s a1 := by
    refine Frame.step State.recBell_frame ?_
    refine Frame.step State.snooped_frame ?_
    refine Frame.step State.bellStored_frame ?_
    exact h0
  clear_value a1
  exact { h2 with bus := fun hb => absurd hb (by decide) }

def Foot.execEqConsumerIndexWrite : Nat := 0x7304000E40800000000000000000000000000000000000000000000000000000000000000000000000000000000000000004000800000010
theorem execEqConsumerIndexWrite_frame {s : State} {x0 : Word} :
    FrameO Foot.execEqConsumerIndexWrite s (execEqConsumerIndexWrite x0 s) := by
  have h0 := Frame.refl Foot.execEqConsumerIndexWrite s
  unfold execEqConsumerIndexWrite
  refine FrameO.next ?_
  extract_lets a1
  have h2 : Frame Foot.execEqConsumerIndexWrite s a1 := by
    refine Frame.step State.eqBell_frame ?_
    refine Frame.step State.snooped_frame ?_
    refine Frame.step State.bellStored_frame ?_
    exact h0
  clear_value a1
  exact { h2 with bus := fun hb => absurd hb (by decide) }

def Foot.execEqOverflow : Nat := 0x6104000E40000000000000000000000000000000000000000000000000000000000000000000000000000000000000000004000800000010
theorem execEqOverflow_frame {s : State} :
    FrameO Foot.execEqOverflow s (execEqOverflow s) := by
  have h0 := Frame.refl Foot.execEqOverflow s
  unfold execEqOverflow
  refine FrameO.next ?_
  refine Frame.step State.postOverflow_frame ?_
  exact h0

def Foot.postWaitingRepairs : Nat := 0x6144000E40000000000000000000000000000000000000000000000000000000000000000000000000000000000000000004000800000010
theorem State.postWaitingRepairs_frame {s : State} :
    Frame Foot.postWaitingRepairs s (State.postWaitingRepairs s) := by
  have h0 := Frame.refl Foot.postWaitingRepairs s
  unfold State.postWaitingRepairs
  refine Frame.foldl ?_ (fun u1 x2 h3 => ?_)
  · exact { h0 with bst := fun hb => absurd hb (by decide) }
  · refine Frame.step State.postRepair_frame ?_
    exact h3

def Foot.recCfgWritten : Nat := 0x6144000E40000000000000000000000000000000000000000000000000000000000000000000000000000000000000000004000800000010
theorem State.recCfgWritten_frame {s : State} {x1 : Nat} {x2 : Bool} :
    Frame Foot.recCfgWritten s (State.recCfgWritten s x1 x2) := by
  have h0 := Frame.refl Foot.recCfgWritten s
  unfold State.recCfgWritten
  refine Frame.ite ?_ ?_
  · extract_lets a1
    have h2 : Frame Foot.recCfgWritten s a1 := by
      refine Frame.step State.recRingEnabled_frame ?_
      exact h0
    clear_value a1
    refine Frame.ite ?_ ?_
    · refine Frame.step State.postWaitingRepairs_frame ?_
      refine Frame.step State.postOverflow_frame ?_
      exact h2
    · exact h2
  · exact h0

def Foot.sqStarts : Nat := 0x2004000020000000000000000000000000000000000000000000000000000000000000000000000000000000000000000000041000000000
theorem State.sqStarts_frame {s : State} {x1 : Nat} :
    Frame Foot.sqStarts s (State.sqStarts s x1) := by
  have h0 := Frame.refl Foot.sqStarts s
  unfold State.sqStarts
  extract_lets a1 a2
  have h3 : Frame Foot.sqStarts s a1 := by
    refine Frame.step State.setSqState_frame ?_
    exact h0
  clear_value a1
  refine Frame.step State.refreshRings_frame ?_
  refine Frame.step State.showFetch_frame ?_
  refine Frame.step State.setSq_frame ?_
  exact h3

def Foot.sqStops : Nat := 0x2A0000000000000000000000000000000000000000000000000000000000000000000000000000000000000000000041000000000
theorem State.sqStops_frame {s : State} {x1 : Nat} :
    Frame Foot.sqStops s (State.sqStops s x1) := by
  have h0 := Frame.refl Foot.sqStops s
  unfold State.sqStops
  extract_lets a1 a2 a3 a4 a5 a6 a7
  have h8 : Frame Foot.sqStops s a3 := by
    refine Frame.step State.setSq_frame ?_
    exact h0
  clear_value a3
  have h9 : Frame Foot.sqStops s a5 := by
    exact { h8 with staged := fun hb => absurd hb (by decide) }
  clear_value a5
  have h10 : Frame Foot.sqStops s a6 := by
    refine Frame.step State.refreshRings_frame ?_
    refine Frame.step State.setSqState_frame ?_
    exact h9
  clear_value a6
  refine Frame.ite ?_ ?_
  · exact { h10 with cmdRest := fun hb => absurd hb (by decide) }
  · exact h10

def Foot.sqCfgWritten : Nat := 0x20040002A0000000000000000000000000000000000000000000000000000000000000000000000000000000000000000000041000000000
theorem State.sqCfgWritten_frame {s : State} {x1 : Nat} {x2 : Bool} :
    Frame Foot.sqCfgWritten s (State.sqCfgWritten s x1 x2) := by
  have h0 := Frame.refl Foot.sqCfgWritten s
  unfold State.sqCfgWritten
  refine Frame.ite ?_ ?_
  · refine Frame.step State.sqStarts_frame ?_
    exact h0
  · refine Frame.ite ?_ ?_
    · refine Frame.step State.sqStops_frame ?_
      exact h0
    · refine Frame.step State.refreshRings_frame ?_
      exact h0

def Foot.sqResume : Nat := 0x2004000020000000000000000000000000000000000000000000000000000000000000000000000000000000000000000000041000000000
theorem State.sqResume_frame {s : State} {x1 : Nat} :
    Frame Foot.sqResume s (State.sqResume s x1) := by
  have h0 := Frame.refl Foot.sqResume s
  unfold State.sqResume
  refine Frame.ite ?_ ?_
  · extract_lets a1 a2
    have h3 : Frame Foot.sqResume s a2 := by
      refine Frame.step State.setSq_frame ?_
      exact h0
    clear_value a2
    refine Frame.step State.refreshRings_frame ?_
    refine Frame.step State.showFetch_frame ?_
    refine Frame.step State.setSqState_frame ?_
    exact h3
  · exact h0

def Foot.flushEnds : Nat := 0x2004000000000000000000000000000000000000000000000000000000000000000000000000000000000000000000000000041000000000
theorem State.flushEnds_frame {s : State} {x1 : Nat} :
    Frame Foot.flushEnds s (State.flushEnds s x1) := by
  have h0 := Frame.refl Foot.flushEnds s
  unfold State.flushEnds
  refine Frame.ite ?_ ?_
  · refine Frame.step State.refreshRings_frame ?_
    refine Frame.step State.showFetch_frame ?_
    refine Frame.step State.setSqState_frame ?_
    exact h0
  · exact h0

def Foot.sqFlush : Nat := 0x2004000020000000000000000000000000000000000000000000000000000000000000000000000000000000000000000000041000000000
theorem State.sqFlush_frame {s : State} {x1 : Nat} :
    Frame Foot.sqFlush s (State.sqFlush s x1) := by
  have h0 := Frame.refl Foot.sqFlush s
  unfold State.sqFlush
  refine Frame.ite ?_ ?_
  · extract_lets a1 a2 a3 a4
    refine Frame.step State.flushEnds_frame ?_
    refine Frame.step State.refreshRings_frame ?_
    refine Frame.step State.setSq_frame ?_
    exact h0
  · exact h0

def Foot.execFlushRecordPost : Nat := 0x6004000A60800000000000000000000000000000000000000000000000000000000000000000000000000000000000000004041800000000
theorem execFlushRecordPost_frame {s : State} {x0 : Fin 16} :
    FrameO Foot.execFlushRecordPost s (execFlushRecordPost x0 s) := by
  have h0 := Frame.refl Foot.execFlushRecordPost s
  unfold execFlushRecordPost
  extract_lets a1 a2
  have h3 : Frame Foot.execFlushRecordPost s a2 := by
    refine Frame.step State.at_frame ?_
    exact h0
  clear_value a2
  split
  · refine FrameO.next ?_
    exact h0
  · refine FrameO.ite ?_ ?_
    · refine FrameO.next ?_
      exact h0
    · extract_lets a4
      have h5 : Frame Foot.execFlushRecordPost s a4 := by
        refine Frame.step State.setSq_frame ?_
        exact h3
      clear_value a4
      refine FrameO.next ?_
      refine Frame.step State.flushEnds_frame ?_
      refine Frame.step State.postCompletion_frame ?_
      exact h5

def Foot.sqCtrlWritten : Nat := 0x20040000200000000000000000000000000000000000000000000000000000000000000000000000000000000000000000000C1000000000
theorem State.sqCtrlWritten_frame {s : State} {x1 : Nat} {x2 : Word} :
    Frame Foot.sqCtrlWritten s (State.sqCtrlWritten s x1 x2) := by
  have h0 := Frame.refl Foot.sqCtrlWritten s
  unfold State.sqCtrlWritten
  extract_lets a1
  have h2 : Frame Foot.sqCtrlWritten s a1 := by
    refine Frame.ite ?_ ?_
    · refine Frame.setReg ?_ (regNo_CMD_SQn_CNT _)
      exact h0
    · exact h0
  clear_value a1
  refine Frame.ite ?_ ?_
  · refine Frame.step State.sqFlush_frame ?_
    exact h2
  · refine Frame.ite ?_ ?_
    · refine Frame.step State.sqResume_frame ?_
      exact h2
    · exact h2

/-! ### RegWrite -/

def Foot.putSwsub : Nat := 0x758741AE4000FF000000000000001FFFFFFFFFFFFFFFFFFF800007F8000000010000000000000000000101781A0000000004000800001FFF
theorem State.putSwsub_frame    {s : State} {x1 : Wr} (hu : unitOf x1.a = 0) :
    FrameL Foot.putSwsub s (State.putSwsub s x1) := by
  have h0 := Frame.refl Foot.putSwsub s
  unfold State.putSwsub
  extract_lets a1
  refine FrameL.ite ?_ ?_
  · refine FrameL.mk ?_
    refine Frame.setRegAt ?_ (AddrOk.other hu)
    exact h0
  · refine FrameL.ite ?_ ?_
    · refine FrameL.mk ?_
      refine Frame.step State.swsubGo_frame ?_
      refine Frame.setRegAt ?_ (AddrOk.other hu)
      exact h0
    · refine FrameL.mk ?_
      refine Frame.setRegAt ?_ (AddrOk.other hu)
      exact h0

def Foot.putLock : Nat := 0x88000000000000000000000000000000000000000000000000000000000000000000000000000000000000000000000000000000001FFF
theorem State.putLock_frame    {s : State} {x1 : Wr} (hu : unitOf x1.a = 0) :
    Frame Foot.putLock s (State.putLock s x1) := by
  have h0 := Frame.refl Foot.putLock s
  unfold State.putLock
  extract_lets a1 a2
  have h3 : Frame Foot.putLock s a1 := by
    refine Frame.setRegAt ?_ (AddrOk.other hu)
    exact h0
  clear_value a1
  refine Frame.ite ?_ ?_
  · refine Frame.step State.scanSpoilImage_frame ?_
    exact { h3 with pwr := fun hb => absurd hb (by decide) }
  · exact h3

def Foot.putSys : Nat := 0x758F41AE4000FF000000000000001FFFFFFFFFFFFFFFFFFF800007F8000000010000000000000000000101781A0000000004000800001FFF
theorem State.putSys_frame    {s : State} {x1 : Wr} (hu : unitOf x1.a = 0) :
    FrameL Foot.putSys s (State.putSys s x1) := by
  have h0 := Frame.refl Foot.putSys s
  unfold State.putSys
  refine FrameL.ite ?_ ?_
  · refine FrameL.step (State.putSwsub_frame (by assumption)) ?_
    exact h0
  · refine FrameL.ite ?_ ?_
    · refine FrameL.mk ?_
      refine Frame.step (State.putLock_frame (by assumption)) ?_
      exact h0
    · refine FrameL.ite ?_ ?_
      · refine FrameL.mk ?_
        refine Frame.ite ?_ ?_
        · refine Frame.setRegAt ?_ (AddrOk.other hu)
          exact h0
        · exact h0
      · refine FrameL.ite ?_ ?_
        · refine FrameL.mk ?_
          refine Frame.step State.bootOkWritten_frame ?_
          exact h0
        · refine FrameL.ite ?_ ?_
          · refine FrameL.mk ?_
            extract_lets a1
            have h2 : Frame Foot.putSys s a1 := by
              refine Frame.setRegAt ?_ (AddrOk.other hu)
              exact h0
            clear_value a1
            refine Frame.step State.rstctlWritten_frame ?_
            exact h2
          · refine FrameL.ite ?_ ?_
            · refine FrameL.mk ?_
              refine Frame.ite ?_ ?_
              · refine Frame.step State.restoreGo_frame ?_
                exact h0
              · exact h0
            · refine FrameL.mk ?_
              refine Frame.setRegAt ?_ (AddrOk.other hu)
              exact h0

def Foot.armOrPend : Nat := Foot.armWrite ||| Foot.pendWrite

theorem Frame.armOrPend {K : Nat} {s t : State} {m : Master} {a : Nat} {w : Word} (h : Frame K s t) (ha : AddrOk K a)
    (hF : Within Foot.armOrPend K := by decide) : Frame K s (t.armOrPend m a w) := by
  unfold State.armOrPend
  exact Frame.ite (h.pendWrite ha (Within.trans (by decide) hF)) (h.armWrite ha (Within.trans (by decide) hF))

def Foot.raisePeriod : Nat := 0x20018000000000000000000000000000000000000000000000000000000000000000000000000000000000180100000000000000000000
theorem State.raisePeriod_frame {s : State} {x1 : Master} :
    FrameL Foot.raisePeriod s (State.raisePeriod s x1) := by
  have h0 := Frame.refl Foot.raisePeriod s
  unfold State.raisePeriod
  extract_lets a1 a2 a3 a4 a5
  have h6 : Frame Foot.raisePeriod s a5 := by
    refine Frame.armOrPend ?_ (AddrOk.of (regNo_TBn_PER _))
    exact h0
  clear_value a5
  refine FrameL.ite ?_ ?_
  · refine FrameL.mk ?_
    exact h0
  · refine FrameL.mk ?_
    refine Frame.ite ?_ ?_
    · exact h6
    · refine Frame.step State.imageWrite_frame ?_
      exact h6

def Foot.putTickCfg : Nat := 0x200180000000000000000000000000000000000000000000000000000000000000000000000000000000001801000003C00007FFFFE000
theorem State.putTickCfg_frame    {s : State} {x1 : Wr} (hu : unitOf x1.a = 1) :
    FrameL Foot.putTickCfg s (State.putTickCfg s x1) := by
  have h0 := Frame.refl Foot.putTickCfg s
  unfold State.putTickCfg
  extract_lets a1 a2
  have h3 : Frame Foot.putTickCfg s a1 := by
    refine Frame.armOrPend ?_ (AddrOk.other hu)
    exact h0
  clear_value a1
  have h4 : FrameL Foot.putTickCfg s a2 := by
    refine FrameL.step State.raisePeriod_frame ?_
    exact h3
  clear_value a2
  refine FrameL.ite ?_ ?_
  · refine FrameL.mk ?_
    exact h3
  · refine FrameL.mk ?_
    refine Frame.step State.refreshToll_frame ?_
    exact h4

def Foot.putClk : Nat := 0x612501EE480000000000000000010000000200000000000100000000000000010000000000000000000101781A05000003C4000FFFFFE010
theorem State.putClk_frame    {s : State} {x1 : Wr} (hu : unitOf x1.a = 1) :
    FrameL Foot.putClk s (State.putClk s x1) := by
  have h0 := Frame.refl Foot.putClk s
  unfold State.putClk
  refine FrameL.ite ?_ ?_
  · refine FrameL.step (State.putTickCfg_frame (by assumption)) ?_
    exact h0
  · extract_lets a1
    have h2 : Frame Foot.putClk s a1 := by
      refine Frame.setRegAt ?_ (AddrOk.other hu)
      exact h0
    clear_value a1
    split
    · refine FrameL.mk ?_
      refine Frame.step State.pllProgrammed_frame ?_
      exact h2
    · refine FrameL.mk ?_
      refine Frame.step State.pllProgrammed_frame ?_
      exact h2
    · refine FrameL.mk ?_
      exact h2

def Foot.putTbCfg : Nat := 0x610401CE430000000000000000000000000000000000000000000000000000000000000000000000000000007FFFF80003C4000800000010
theorem State.putTbCfg_frame    {s : State} {x1 : Wr} {x2 : Nat} (hu : unitOf x1.a = 5) :
    Frame Foot.putTbCfg s (State.putTbCfg s x1 x2) := by
  have h0 := Frame.refl Foot.putTbCfg s
  unfold State.putTbCfg
  extract_lets a1
  have h2 : Frame Foot.putTbCfg s a1 := by
    refine Frame.ite ?_ ?_
    · refine Frame.step State.writeTbRun_frame ?_
      exact h0
    · refine Frame.armOrPend ?_ (AddrOk.other hu)
      exact h0
  clear_value a1
  refine Frame.ite ?_ ?_
  · refine Frame.step State.refreshToll_frame ?_
    exact h2
  · exact h2

def Foot.putPwm : Nat := 0x610401CE430000000000000000000000000000000000000000000000000000000000000000000000000000007FFFF80003C4000800000010
theorem State.putPwm_frame    {s : State} {x1 : Wr} (hu : unitOf x1.a = 5) :
    FrameL Foot.putPwm s (State.putPwm s x1) := by
  have h0 := Frame.refl Foot.putPwm s
  unfold State.putPwm
  refine FrameL.ite ?_ ?_
  · refine FrameL.mk ?_
    refine Frame.step State.ldall_frame ?_
    exact h0
  · split
    · refine FrameL.mk ?_
      refine Frame.step (State.putTbCfg_frame (by assumption)) ?_
      exact h0
    · refine FrameL.mk ?_
      refine Frame.setRegAt ?_ (AddrOk.other hu)
      exact h0
    · refine FrameL.mk ?_
      refine Frame.step State.refreshToll_frame ?_
      refine Frame.armOrPend ?_ (AddrOk.other hu)
      exact h0

def Foot.putCmd : Nat := blockMask 2 ||| maskBit bit_sram ||| maskBit bit_cmdRest ||| Foot.sqCfgWritten |||
  Foot.sqCtrlWritten ||| Foot.recCfgWritten

theorem ringBase_ok {m : Nat} : AddrOk Foot.putCmd (ringBase m) := by
  refine AddrOk.block (u := 2) ?_ ?_
  · unfold ringBase unitOf blockBase
    split
    · simp only [Reg.CMD_CQm_BASE]; omega
    · rfl
  · intro h
    have := regNo_ringBase m
    rw [h] at this
    cases this

theorem State.putCmd_frame {s : State} {x : Wr} (hu : unitOf x.a = 2) (hp : regNo x.a ≠ psnNo) :
    FrameL Foot.putCmd s (s.putCmd x) := by
  have h0 := Frame.refl Foot.putCmd s
  have h1 : Frame Foot.putCmd s (s.setReg x.a x.new) := h0.setRegAt (AddrOk.block hu hp)
  unfold State.putCmd
  refine FrameL.ite (FrameL.mk ?_) ?_
  · generalize s.setReg x.a x.new = t at h1
    exact Frame.ite { h1 with cmdRest := fun h => absurd h (by decide) } h1
  · split
    · exact FrameL.mk (Frame.step State.sqCfgWritten_frame (h1.refit (AddrOk.of (regNo_CMD_SQn_BASE _))))
    · exact FrameL.mk (Frame.step State.sqCtrlWritten_frame h0)
    · exact FrameL.mk (Frame.step State.recCfgWritten_frame (h1.refit ringBase_ok))
    · exact FrameL.mk h1

def Foot.putEng : Nat := 0x6114000E4000000000000000000000000000000000000000000000000000000000000000000000000000000000000002FFF4000800000010
theorem State.putEng_frame    {s : State} {x1 : Wr} (hu : unitOf x1.a = 3) :
    Frame Foot.putEng s (State.putEng s x1) := by
  have h0 := Frame.refl Foot.putEng s
  unfold State.putEng
  refine Frame.ite ?_ ?_
  · refine Frame.ite ?_ ?_
    · split
      · rename_i x1 x2 x3
        refine Frame.cutE (K := Foot.putEng) (s := s) x3 ?_ (fun h4 => ?_)
        · refine FrameE.step State.writeRun_frame ?_
          exact h0
        · exact h4
      · rename_i x5 x6 x7
        refine Frame.cutER (K := Foot.putEng) (s := s) x7 ?_ (fun h8 => ?_)
        · refine FrameE.step State.writeRun_frame ?_
          exact h0
        · exact h0
    · extract_lets a9
      have h10 : Frame Foot.putEng s a9 := by
        refine Frame.setRegAt ?_ (AddrOk.other hu)
        exact h0
      clear_value a9
      refine Frame.ite ?_ ?_
      · exact h10
      · refine Frame.step State.stopEngine_frame ?_
        exact h10
  · split
    · split
      · rename_i x11 x12 x13
        refine Frame.cutE (K := Foot.putEng) (s := s) x13 ?_ (fun h14 => ?_)
        · refine FrameE.step State.writeBind_frame ?_
          exact h0
        · exact h14
      · rename_i x15 x16 x17
        refine Frame.cutER (K := Foot.putEng) (s := s) x17 ?_ (fun h18 => ?_)
        · refine FrameE.step State.writeBind_frame ?_
          exact h0
        · exact h0
    · refine Frame.setRegAt ?_ (AddrOk.other hu)
      exact h0

def Foot.putProt : Nat := 0x610401AE4000000000000000000000000000000000000000000000000000000100000000000000003FFFFFFF9A0000000004000800000010
theorem State.putProt_frame    {s : State} {x1 : Wr} (hu : unitOf x1.a = 6) :
    Frame Foot.putProt s (State.putProt s x1) := by
  have h0 := Frame.refl Foot.putProt s
  unfold State.putProt
  extract_lets a1 a2 a3
  have h4 : Frame Foot.putProt s a1 := by
    refine Frame.step State.settle_frame ?_
    exact h0
  clear_value a1
  have h5 : Frame Foot.putProt s a2 := by
    refine Frame.setRegAt ?_ (AddrOk.other hu)
    exact h4
  clear_value a2
  have h6 : Frame Foot.putProt s a3 := by
    refine Frame.foldl ?_ (fun u7 x8 h9 => ?_)
    · exact h5
    · refine Frame.step State.restartRun_frame ?_
      exact h9
  clear_value a3
  refine Frame.ite ?_ ?_
  · exact h5
  · refine Frame.step State.regateAll_frame ?_
    refine Frame.step State.reresolve_frame ?_
    refine Frame.step State.reresolve_frame ?_
    refine Frame.step State.updateSafeN_frame ?_
    exact h6

def Foot.startGroups : Nat := 0x40000000000000000000000000000000000000000000000000000000000000000000000000000000000000000000000000000000000
theorem State.startGroups_frame {s : State} :
    Frame Foot.startGroups s (State.startGroups s) := by
  have h0 := Frame.refl Foot.startGroups s
  unfold State.startGroups
  refine Frame.foldl ?_ (fun u1 x2 h3 => ?_)
  · exact h0
  · refine Frame.step State.setGrp_frame ?_
    exact h3

def Foot.tdacWritten : Nat := 0x40000000000000000000000000000000000000000000000000000000000000000000000000000000000000000000000000000000000
theorem State.tdacWritten_frame {s : State} {x1 : Nat} {x2 : Wr} :
    Frame Foot.tdacWritten s (State.tdacWritten s x1 x2) := by
  have h0 := Frame.refl Foot.tdacWritten s
  unfold State.tdacWritten
  refine Frame.ite ?_ ?_
  · exact h0
  · refine Frame.ite ?_ ?_
    · refine Frame.step State.setGrp_frame ?_
      exact h0
    · refine Frame.step State.dacMoves_frame ?_
      exact h0

def Foot.putAcq : Nat := 0x4000000000000000000000000000000000000000000000000000000000000000007FFFFFFFFC0000000000000000000000000000000
theorem State.putAcq_frame    {s : State} {x1 : Wr} (hu : unitOf x1.a = 7) :
    Frame Foot.putAcq s (State.putAcq s x1) := by
  have h0 := Frame.refl Foot.putAcq s
  unfold State.putAcq
  extract_lets a1
  have h2 : Frame Foot.putAcq s a1 := by
    refine Frame.setRegAt ?_ (AddrOk.other hu)
    exact h0
  clear_value a1
  refine Frame.ite ?_ ?_
  · refine Frame.ite ?_ ?_
    · refine Frame.step State.unsyncDs_frame ?_
      refine Frame.step State.startGroups_frame ?_
      exact h2
    · exact h2
  · split
    · refine Frame.step State.tdacWritten_frame ?_
      exact h2
    · refine Frame.ite ?_ ?_
      · refine Frame.step State.urgentGo_frame ?_
        exact h2
      · exact h2
    · exact h2

def Foot.offsetWritten : Nat := 0x80000000000000000000000000000000000000000000000000000000000000000000000000000000000000000000000000000000000
theorem State.offsetWritten_frame {s : State} {x1 : Nat} {x2 : Wr} :
    Frame Foot.offsetWritten s (State.offsetWritten s x1 x2) := by
  have h0 := Frame.refl Foot.offsetWritten s
  unfold State.offsetWritten
  refine Frame.ite ?_ ?_
  · exact h0
  · extract_lets a1 a2 a3
    have h4 : Frame Foot.offsetWritten s a2 := by
      refine Frame.step State.setCh_frame ?_
      exact h0
    clear_value a2
    refine Frame.ite ?_ ?_
    · refine Frame.step State.setCh_frame ?_
      exact h4
    · exact h4

def Foot.putPos : Nat := 0x80400000000000000000000000000000000000000000000000000000000007FFFF80000000000000000000000000000000000000000
theorem State.putPos_frame    {s : State} {x1 : Wr} (hu : unitOf x1.a = 8) :
    Frame Foot.putPos s (State.putPos s x1) := by
  have h0 := Frame.refl Foot.putPos s
  unfold State.putPos
  extract_lets a1
  have h2 : Frame Foot.putPos s a1 := by
    refine Frame.setRegAt ?_ (AddrOk.other hu)
    exact h0
  clear_value a1
  split
  · refine Frame.step State.modeWritten_frame ?_
    exact h2
  · refine Frame.step State.offsetWritten_frame ?_
    exact h2
  · refine Frame.ite ?_ ?_
    · refine Frame.step State.supplyWritten_frame ?_
      exact h2
    · exact h2
  · exact h2

def Foot.putFld : Nat := 0x6104100E4000000000000000000000000000000000000000000000000007FFFFFF8000000000000000000000000000000004000800000010
theorem State.putFld_frame    {s : State} {x1 : Wr} (hu : unitOf x1.a = 9) :
    Frame Foot.putFld s (State.putFld s x1) := by
  have h0 := Frame.refl Foot.putFld s
  unfold State.putFld
  extract_lets a1
  have h2 : Frame Foot.putFld s a1 := by
    refine Frame.setRegAt ?_ (AddrOk.other hu)
    exact h0
  clear_value a1
  split
  · refine Frame.step State.actWritten_frame ?_
    exact h2
  · exact h2

def Foot.putWgh : Nat := 0x6104200E400000000000000000000000000000000000000000000007FFF80000000000000000000000000000000000000004000800000010
theorem State.putWgh_frame    {s : State} {x1 : Wr} (hu : unitOf x1.a = 10) :
    Frame Foot.putWgh s (State.putWgh s x1) := by
  have h0 := Frame.refl Foot.putWgh s
  unfold State.putWgh
  extract_lets a1
  have h2 : Frame Foot.putWgh s a1 := by
    refine Frame.setRegAt ?_ (AddrOk.other hu)
    exact h0
  clear_value a1
  split
  · refine Frame.ite ?_ ?_
    · refine Frame.step State.wghEnable_frame ?_
      exact h2
    · exact h2
  · exact h2

def Foot.putIsk : Nat := 0x610441AE4000000000000000000000000000000000000000000007F8000000010000000000000000000101781A0000000004000800000010
theorem State.putIsk_frame    {s : State} {x1 : Wr} (hu : unitOf x1.a = 11) :
    Frame Foot.putIsk s (State.putIsk s x1) := by
  have h0 := Frame.refl Foot.putIsk s
  unfold State.putIsk
  extract_lets a1
  have h2 : Frame Foot.putIsk s a1 := by
    refine Frame.setRegAt ?_ (AddrOk.other hu)
    exact h0
  clear_value a1
  split
  · refine Frame.step State.linkCfgWritten_frame ?_
    exact h2
  · exact h2

def Foot.canTxCfgWritten : Nat := 0x14050000000000000000000000000000000000000000CA000000000000000000000000000000000000000000000000000000000000000000
theorem State.canTxCfgWritten_frame {s : State} {x1 : Nat} {x2 : Wr} :
    FrameL Foot.canTxCfgWritten s (State.canTxCfgWritten s x1 x2) := by
  have h0 := Frame.refl Foot.canTxCfgWritten s
  unfold State.canTxCfgWritten
  extract_lets a1 a2 a3 a4
  have h5 : FrameL Foot.canTxCfgWritten s a1 := by
    refine Frame.refit ?_ (AddrOk.of (regNo_CAN_TXBASE _))
    exact h0
  clear_value a1
  have h6 : FrameL Foot.canTxCfgWritten s a2 := by
    refine Frame.refit ?_ (AddrOk.of (regNo_CAN_BUF _))
    exact h5
  clear_value a2
  refine FrameL.mk ?_
  refine Frame.ite ?_ ?_
  · refine Frame.step State.canTxEnable_frame ?_
    exact h6
  · exact h6

def Foot.canRxCfgWritten : Nat := 0x1000000000000000000000000000000000000000150000000000000000000000000000000000000000000000000000000000000000000
theorem State.canRxCfgWritten_frame {s : State} {x1 : Nat} {x2 : Wr} :
    FrameL Foot.canRxCfgWritten s (State.canRxCfgWritten s x1 x2) := by
  have h0 := Frame.refl Foot.canRxCfgWritten s
  unfold State.canRxCfgWritten
  extract_lets a1 a2
  have h3 : FrameL Foot.canRxCfgWritten s a1 := by
    refine Frame.refit ?_ (AddrOk.of (regNo_CAN_RXBASE _))
    exact h0
  clear_value a1
  have h4 : FrameL Foot.canRxCfgWritten s a2 := by
    refine Frame.refit ?_ (AddrOk.of (regNo_CAN_RXBUF _))
    exact h3
  clear_value a2
  refine FrameL.mk ?_
  refine Frame.ite ?_ ?_
  · refine Frame.step State.canRxEnable_frame ?_
    exact h4
  · exact h4

def Foot.putCan : Nat := 0x140500000000000000000000000000000000001FFFFFFFFF8000000000000000000000000000000000000000000000000000000000000000
theorem State.putCan_frame    {s : State} {x1 : Wr} {x2 : Bool} (hu : unitOf x1.a = 13) :
    FrameL Foot.putCan s (State.putCan s x1 x2) := by
  have h0 := Frame.refl Foot.putCan s
  unfold State.putCan
  extract_lets a1 a2
  have h3 : Frame Foot.putCan s a2 := by
    refine Frame.setRegAt ?_ (AddrOk.other hu)
    exact h0
  clear_value a2
  refine FrameL.ite ?_ ?_
  · refine FrameL.mk ?_
    refine Frame.step State.canCtrlWritten_frame ?_
    exact h3
  · refine FrameL.ite ?_ ?_
    · refine FrameL.step State.canTxCfgWritten_frame ?_
      exact h3
    · refine FrameL.ite ?_ ?_
      · refine FrameL.step State.canRxCfgWritten_frame ?_
        exact h3
      · refine FrameL.mk ?_
        exact h3

def Foot.ethRingWritten : Nat := 0x1406000000000000000000000000000000AC0000000000000000000000000000000000000000000000000000000000000000000000000000
theorem State.ethRingWritten_frame {s : State} {x1 : Nat} {x2 : Wr} :
    FrameL Foot.ethRingWritten s (State.ethRingWritten s x1 x2) := by
  have h0 := Frame.refl Foot.ethRingWritten s
  unfold State.ethRingWritten
  extract_lets a1 a2 a3 a4 a5 a6 a7
  have h8 : FrameL Foot.ethRingWritten s a1 := by
    refine Frame.refit ?_ (AddrOk.of (regNo_ETH_Pp_TXBASE _))
    exact h0
  clear_value a1
  have h9 : FrameL Foot.ethRingWritten s a2 := by
    refine Frame.refit ?_ (AddrOk.of (regNo_ETH_Pp_RXBASE _))
    exact h8
  clear_value a2
  have h10 : FrameL Foot.ethRingWritten s a3 := by
    refine Frame.refit ?_ (AddrOk.of (regNo_ETH_Pp_BUF _))
    exact h9
  clear_value a3
  have h11 : FrameL Foot.ethRingWritten s a4 := by
    refine Frame.refit ?_ (AddrOk.of (regNo_ETH_Pp_BUF _))
    exact h10
  clear_value a4
  have h12 : Frame Foot.ethRingWritten s a7 := by
    refine Frame.ite ?_ ?_
    · refine Frame.step State.ethTxEnable_frame ?_
      exact h11
    · exact h11
  clear_value a7
  refine FrameL.mk ?_
  refine Frame.ite ?_ ?_
  · refine Frame.step State.ethRxEnable_frame ?_
    exact h12
  · exact h12

def Foot.putEth : Nat := 0x7506000E5000000000000000000000007FFFFFE0000000000000000000000000000000000000000000000000000000000004000800004010
theorem State.putEth_frame    {s : State} {x1 : Wr} (hu : unitOf x1.a = 14) :
    FrameL Foot.putEth s (State.putEth s x1) := by
  have h0 := Frame.refl Foot.putEth s
  unfold State.putEth
  extract_lets a1 a2 a3
  have h4 : Frame Foot.putEth s a3 := by
    refine Frame.setRegAt ?_ (AddrOk.other hu)
    exact h0
  clear_value a3
  refine FrameL.ite ?_ ?_
  · refine FrameL.mk ?_
    refine Frame.step State.vtSteer_frame ?_
    refine Frame.setRegAt ?_ (AddrOk.other hu)
    exact h0
  · refine FrameL.ite ?_ ?_
    · refine FrameL.mk ?_
      refine Frame.step State.vtSteer_frame ?_
      exact h0
    · refine FrameL.ite ?_ ?_
      · refine FrameL.mk ?_
        refine Frame.step State.vtCtrlWritten_frame ?_
        refine Frame.setRegAt ?_ (AddrOk.other hu)
        exact h0
      · refine FrameL.ite ?_ ?_
        · refine FrameL.mk ?_
          refine Frame.step State.mdioWrite_frame ?_
          exact h0
        · refine FrameL.ite ?_ ?_
          · refine FrameL.step State.ethRingWritten_frame ?_
            exact h4
          · refine FrameL.ite ?_ ?_
            · refine FrameL.mk ?_
              refine Frame.step State.ethTxctlWritten_frame ?_
              exact h4
            · refine FrameL.mk ?_
              exact h4

def Foot.putChk : Nat := 0x800000000000000000000000001FFF80000000000000000000000000000000000000000000000000000000000000000000000000000000
theorem State.putChk_frame    {s : State} {x1 : Wr} (hu : unitOf x1.a = 15) :
    Frame Foot.putChk s (State.putChk s x1) := by
  have h0 := Frame.refl Foot.putChk s
  unfold State.putChk
  split
  · refine Frame.step State.chkAlgWritten_frame ?_
    refine Frame.setRegAt ?_ (AddrOk.other hu)
    exact h0
  · refine Frame.step State.chkSeedWritten_frame ?_
    refine Frame.setRegAt ?_ (AddrOk.other hu)
    exact h0
  · refine Frame.step State.chkData_frame ?_
    exact h0
  · refine Frame.step State.chkData_frame ?_
    exact h0
  · extract_lets a1
    have h2 : Frame Foot.putChk s a1 := by
      refine Frame.setRegAt ?_ (AddrOk.other hu)
      exact h0
    clear_value a1
    split
    · refine Frame.ite ?_ ?_
      · refine Frame.step State.scanStart_frame ?_
        exact h2
      · exact h2
    · exact h2

def Foot.putBst : Nat := 0x400000000000000000000003FFE00000000000000000000000000000000000000000000000000000000000000000000000000000000000
theorem State.putBst_frame    {s : State} {x1 : Wr} (hu : unitOf x1.a = 16) :
    Frame Foot.putBst s (State.putBst s x1) := by
  have h0 := Frame.refl Foot.putBst s
  unfold State.putBst
  refine Frame.ite ?_ ?_
  · extract_lets a1 a2
    have h3 : Frame Foot.putBst s a1 := by
      refine Frame.setRegAt ?_ (AddrOk.other hu)
      exact h0
    clear_value a1
    refine Frame.ite ?_ ?_
    · exact { h3 with bst := fun hb => absurd hb (by decide) }
    · exact h3
  · refine Frame.ite ?_ ?_
    · refine Frame.ite ?_ ?_
      · refine Frame.setRegAt ?_ (AddrOk.other hu)
        exact h0
      · exact h0
    · refine Frame.setRegAt ?_ (AddrOk.other hu)
      exact h0

def Foot.putHic : Nat := 0x610401AE400000FFFFFE000000000000000000000000000000000000000000010000000000000000000101781A0000000004000800000010
theorem State.putHic_frame    {s : State} {x1 : Wr} (hu : unitOf x1.a = 19) :
    Frame Foot.putHic s (State.putHic s x1) := by
  have h0 := Frame.refl Foot.putHic s
  unfold State.putHic
  extract_lets a1 a2
  have h3 : Frame Foot.putHic s a2 := by
    refine Frame.setRegAt ?_ (AddrOk.other hu)
    exact h0
  clear_value a2
  refine Frame.ite ?_ ?_
  · refine Frame.ite ?_ ?_
    · refine Frame.step State.core1Start_frame ?_
      exact h0
    · exact h0
  · split
    · refine Frame.step State.cacheWritten_frame ?_
      exact h0
    · refine Frame.step State.irqComplete_frame ?_
      exact h0
    · refine Frame.step State.semWrite_frame ?_
      exact h0
    · refine Frame.step State.wdSvcWritten_frame ?_
      exact h0
    · split
      · refine Frame.step State.wdCfgWritten_frame ?_
        exact h3
      · refine Frame.ite ?_ ?_
        · refine Frame.step State.refreshMtip_frame ?_
          exact h3
        · exact h3

def Foot.putXsp : Nat := 0x6104000E4000FF00000000000000000000000000000000000000000000000000000000000000000000000000000000000004000800000010
theorem State.putXsp_frame    {s : State} {x1 : Wr} (hu : unitOf x1.a = 20) :
    Frame Foot.putXsp s (State.putXsp s x1) := by
  have h0 := Frame.refl Foot.putXsp s
  unfold State.putXsp
  refine Frame.ite ?_ ?_
  · refine Frame.ite ?_ ?_
    · exact h0
    · refine Frame.step State.xspCmdWritten_frame ?_
      refine Frame.setRegAt ?_ (AddrOk.other hu)
      exact h0
  · refine Frame.setRegAt ?_ (AddrOk.other hu)
    exact h0

def Foot.put : Nat → Nat
  | 0 => Foot.putSys
  | 1 => Foot.putClk
  | 2 => Foot.putCmd
  | 3 => Foot.putEng
  | 4 => blockMask 4
  | 5 => Foot.putPwm
  | 6 => Foot.putProt
  | 7 => Foot.putAcq
  | 8 => Foot.putPos
  | 9 => Foot.putFld
  | 10 => Foot.putWgh
  | 11 => Foot.putIsk
  | 12 => blockMask 12
  | 13 => Foot.putCan
  | 14 => Foot.putEth
  | 15 => Foot.putChk
  | 16 => Foot.putBst
  | 17 => blockMask 17
  | 18 => blockMask 18
  | 19 => Foot.putHic
  | 20 => Foot.putXsp
  | 21 => blockMask 21
  | _ => Foot.all

theorem FrameL.iteOn {K : Nat} {s : State} {α : Type} {x y : State × α} {c : Prop} [Decidable c]
    (h1 : c → FrameL K s x) (h2 : ¬ c → FrameL K s y) : FrameL K s (if c then x else y) := by
  split
  · next h => exact h1 h
  · next h => exact h2 h

theorem State.put_frame' {s : State} {x : Wr} {busy : Bool} {u : Nat} (hu : unitOf x.a = u) (hp : regNo x.a ≠ psnNo) :
    FrameL (Foot.put u) s (s.put x busy) := by
  unfold State.put
  extract_lets v
  have hv : v = u := hu
  clear_value v
  subst hv
  refine FrameL.iteOn (fun h => ?_) (fun (n0 : v ≠ 0) => ?_)
  · subst h; exact State.putSys_frame hu
  refine FrameL.iteOn (fun h => ?_) (fun (n1 : v ≠ 1) => ?_)
  · subst h; exact State.putClk_frame hu
  refine FrameL.iteOn (fun h => ?_) (fun (n2 : v ≠ 2) => ?_)
  · subst h; exact State.putCmd_frame hu hp
  refine FrameL.iteOn (fun h => ?_) (fun (n3 : v ≠ 3) => ?_)
  · subst h; exact FrameL.mk (State.putEng_frame hu)
  refine FrameL.iteOn (fun h => ?_) (fun (n5 : v ≠ 5) => ?_)
  · subst h; exact State.putPwm_frame hu
  refine FrameL.iteOn (fun h => ?_) (fun (n6 : v ≠ 6) => ?_)
  · subst h; exact FrameL.mk (State.putProt_frame hu)
  refine FrameL.iteOn (fun h => ?_) (fun (n7 : v ≠ 7) => ?_)
  · subst h; exact FrameL.mk (State.putAcq_frame hu)
  refine FrameL.iteOn (fun h => ?_) (fun (n8 : v ≠ 8) => ?_)
  · subst h; exact FrameL.mk (State.putPos_frame hu)
  refine FrameL.iteOn (fun h => ?_) (fun (n9 : v ≠ 9) => ?_)
  · subst h; exact FrameL.mk (State.putFld_frame hu)
  refine FrameL.iteOn (fun h => ?_) (fun (n10 : v ≠ 10) => ?_)
  · subst h; exact FrameL.mk (State.putWgh_frame hu)
  refine FrameL.iteOn (fun h => ?_) (fun (n11 : v ≠ 11) => ?_)
  · subst h; exact FrameL.mk (State.putIsk_frame hu)
  refine FrameL.iteOn (fun h => ?_) (fun (n13 : v ≠ 13) => ?_)
  · subst h; exact State.putCan_frame hu
  refine FrameL.iteOn (fun h => ?_) (fun (n14 : v ≠ 14) => ?_)
  · subst h; exact State.putEth_frame hu
  refine FrameL.iteOn (fun h => ?_) (fun (n15 : v ≠ 15) => ?_)
  · subst h; exact FrameL.mk (State.putChk_frame hu)
  refine FrameL.iteOn (fun h => ?_) (fun (n16 : v ≠ 16) => ?_)
  · subst h; exact FrameL.mk (State.putBst_frame hu)
  refine FrameL.iteOn (fun h => ?_) (fun (n19 : v ≠ 19) => ?_)
  · subst h; exact FrameL.mk (State.putHic_frame hu)
  refine FrameL.iteOn (fun h => ?_) (fun (n20 : v ≠ 20) => ?_)
  · subst h; exact FrameL.mk (State.putXsp_frame hu)
  refine FrameL.mk ?_
  have hr : v = 4 ∨ v = 12 ∨ v = 17 ∨ v = 18 ∨ v = 21 ∨ 22 ≤ v := by
    omega
  have h0 := fun K => Frame.refl K s
  rcases hr with rfl | rfl | rfl | rfl | rfl | hr
  · exact (h0 _).setRegAt (AddrOk.other hu)
  · exact (h0 _).setRegAt (AddrOk.other hu)
  · exact (h0 _).setRegAt (AddrOk.other hu)
  · exact (h0 _).setRegAt (AddrOk.other hu)
  · exact (h0 _).setRegAt (AddrOk.other hu)
  · have e : Foot.put v = Foot.all := by
      match v, hr with
      | n + 22, _ => rfl
    rw [e]
    exact (h0 _).setRegAt (AddrOk.all hp)

def Foot.putAny : Nat := (List.range 22).foldl (fun k u => k ||| Foot.put u) 0

theorem State.putAny_frame {s : State} {x : Wr} {busy : Bool} (hu : unitOf x.a ≤ 21) (hp : regNo x.a ≠ psnNo) :
    FrameL Foot.putAny s (s.put x busy) :=
  FrameL.step (State.put_frame' rfl hp) (Frame.refl _ s)
    ((by decide : ∀ u : Fin 22, Within (Foot.put u.val) Foot.putAny) ⟨unitOf x.a, by omega⟩)

def Foot.turnedAway : Nat := 0x6114000E400000000000000000000000000000000000000000000000000000000000000000000000000000000000000223F4000800000010
theorem State.turnedAway_frame {s : State} {x1 : Wr} :
    FrameP Foot.turnedAway s (State.turnedAway s x1) := by
  have h0 := Frame.refl Foot.turnedAway s
  unfold State.turnedAway
  refine FrameP.ite ?_ ?_
  · refine FrameP.ite ?_ ?_
    · split
      · rename_i x1 x2 x3
        refine Frame.cutE (K := Foot.turnedAway) (s := s) x3 ?_ (fun h4 => ?_)
        · refine FrameE.step State.writeRun_frame ?_
          exact h0
        · exact FrameP.none
      · rename_i x5 x6 x7
        refine Frame.cutER (K := Foot.turnedAway) (s := s) x7 ?_ (fun h8 => ?_)
        · refine FrameE.step State.writeRun_frame ?_
          exact h0
        · refine FrameP.some ?_
          exact h8
    · exact FrameP.none
  · split
    · split
      · rename_i x9 x10 x11
        refine Frame.cutE (K := Foot.turnedAway) (s := s) x11 ?_ (fun h12 => ?_)
        · refine FrameE.step State.writeBind_frame ?_
          exact h0
        · exact FrameP.none
      · rename_i x13 x14 x15
        refine Frame.cutER (K := Foot.turnedAway) (s := s) x15 ?_ (fun h16 => ?_)
        · refine FrameE.step State.writeBind_frame ?_
          exact h0
        · refine FrameP.some ?_
          exact h16
    · refine FrameP.ite ?_ ?_
      · exact FrameP.none
      · refine FrameP.map (fun x17 => ?_)
        intro u18
        have h19 := Frame.refl Foot.turnedAway u18
        dsimp -zeta only
        refine Frame.step State.event_frame ?_
        exact h19
    · exact FrameP.none

def Foot.countClamp (u : Nat) : Nat := blockMask u

theorem of_ite {α : Type} {c : Prop} [Decidable c] {x y : Option α} {r : α} (h : (if c then x else y) = some r) :
    (c ∧ x = some r) ∨ (¬ c ∧ y = some r) := by
  split at h
  · next e => exact .inl ⟨e, h⟩
  · next e => exact .inr ⟨e, h⟩

theorem clampCounter_unit {a r : Nat} (h : clampCounter a = some r) : unitOf r = unitOf a ∧ unitOf a ≤ 21 := by
  unfold clampCounter at h
  have hc : ∀ c, unitOf (Reg.CAN_CLAMP c) = 13 := fun c => by
    simp only [Reg.CAN_CLAMP, unitOf, blockBase]; omega
  obtain ⟨e, h⟩ | ⟨-, h⟩ := of_ite h
  · cases h; rw [e]; decide
  obtain ⟨e, h⟩ | ⟨-, h⟩ := of_ite h
  · cases h; rw [e]; decide
  obtain ⟨e, h⟩ | ⟨-, h⟩ := of_ite h
  · cases h; rw [e]; decide
  obtain ⟨e, h⟩ | ⟨-, h⟩ := of_ite h
  · cases h; rw [e]; decide
  obtain ⟨e, h⟩ | ⟨-, h⟩ := of_ite h
  · cases h; rw [e]; decide
  obtain ⟨e, h⟩ | ⟨-, h⟩ := of_ite h
  · cases h; rw [e]; decide
  obtain ⟨e, h⟩ | ⟨-, h⟩ := of_ite h
  · cases h; rw [e]; decide
  obtain ⟨e, h⟩ | ⟨-, h⟩ := of_ite h
  · cases h; rw [e]; decide
  obtain ⟨e, h⟩ | ⟨-, h⟩ := of_ite h
  · cases h; rw [e]; decide
  obtain ⟨e, h⟩ | ⟨-, h⟩ := of_ite h
  · cases h; rw [e]; decide
  obtain ⟨e, h⟩ | ⟨-, h⟩ := of_ite h
  · cases h; rw [e]; decide
  obtain ⟨e, h⟩ | ⟨-, h⟩ := of_ite h
  · cases h; rw [e]; decide
  obtain ⟨e, h⟩ | ⟨-, h⟩ := of_ite h
  · cases h; rw [e, hc]; decide
  obtain ⟨e, h⟩ | ⟨-, h⟩ := of_ite h
  · cases h; rw [e]; decide
  obtain ⟨e, h⟩ | ⟨-, h⟩ := of_ite h
  · cases h; rw [e]; decide
  obtain ⟨e, h⟩ | ⟨-, h⟩ := of_ite h
  · cases h; rw [e]; decide
  obtain ⟨e, h⟩ | ⟨-, h⟩ := of_ite h
  · cases h; rw [e]; decide
  obtain ⟨e, h⟩ | ⟨-, h⟩ := of_ite h
  · cases h; rw [e]; decide
  obtain ⟨e, h⟩ | ⟨-, h⟩ := of_ite h
  · cases h; rw [e]; decide
  obtain ⟨e, h⟩ | ⟨-, h⟩ := of_ite h
  · cases h; rw [e]; decide
  cases h

theorem clampCounter_psn {a r : Nat} (h : clampCounter a = some r) : regNo r ≠ psnNo := by
  by_cases hu : unitOf r = 2
  · have ha := (clampCounter_unit h).1
    rw [hu] at ha
    unfold clampCounter at h
    simp only [← ha] at h
    cases h
    decide
  · exact regNo_ne_psn hu

theorem clampCounter_ok {K a u r : Nat} (e : clampCounter a = some r) (hu : unitOf a = u)
    (hK : Within (blockMask u) K) (hs : u = 2 → K.testBit bit_sram = true) : AddrOk K r := by
  obtain ⟨h1, h2⟩ := clampCounter_unit e
  have h1 : unitOf r = u := h1.trans hu
  have hb := blockMask_regNo h1
  refine ⟨hK.bit hb, clampCounter_psn e, fun hr => ?_⟩
  by_cases h3 : u = 2
  · exact hs h3
  · have hl : u ≤ 21 := hu ▸ h2
    have h4 := (blockMask_cmd_only hl h3 hb).2
    rw [hr] at h4
    exact absurd h4 (by decide)

theorem Frame.countClamp {K u : Nat} {s t : State} {a : Nat} {c : Bool} (h : Frame K s t) (hu : unitOf a = u)
    (hK : Within (blockMask u) K) (hs : u = 2 → K.testBit bit_sram = true) : Frame K s (t.countClamp a c) := by
  unfold State.countClamp
  refine Frame.ite ?_ h
  generalize e : clampCounter a = o
  cases o with
  | none => exact h
  | some r => exact h.countAt (clampCounter_ok e hu hK hs)

theorem reach_psn (m : Master) (l : Bool) : ((regsOfUnit 2).headD ⟨"", 0, [], []⟩).reach m l = 0 := by
  cases m <;> cases l <;> rfl

theorem prepare_addr {s : State} {m : Master} {a : Nat} {w mask : Word} {x : Wr} {c : Bool}
    (h : s.prepare m a w mask = some (x, c)) : x.a = a ∧ unitOf a ≤ 21 ∧ regNo a ≠ psnNo := by
  unfold State.prepare at h
  generalize e : regAt a = o at h
  cases o with
  | none => cases h
  | some di =>
    obtain ⟨d, i⟩ := di
    dsimp only at h
    obtain ⟨hc, h⟩ | ⟨hc, h⟩ := of_ite h
    · cases h
    · injection h with h
      injection h with hx _
      refine ⟨by rw [← hx], ?_, ?_⟩
      · refine Classical.byContradiction fun hu => ?_
        unfold regAt at e
        split at e
        · cases e
        · have e1 : ∀ u, ¬ u ≤ 21 → regsOfUnit u = [] := by
            intro u hu
            match u, hu with
            | n + 22, _ => rfl
          rw [e1 _ hu] at e
          cases e
      · intro hp
        obtain ⟨j, hj⟩ := regAt_psn hp
        rw [hj] at e
        cases e
        rw [reach_psn] at hc
        exact hc (by simp)

theorem canonical_key (a B : Nat) (h1 : (a - B) / 0x10000 = 13) (h2 : B ≤ a) :
    (a - 0x4000 * ((a - B) % 0x10000 / 0x4000) - B) / 0x10000 = (a - B) / 0x10000 := by omega

theorem canonical_unit (a : Nat) : unitOf (canonical a) = unitOf a := by
  unfold canonical
  rw [apply_ite unitOf]
  split
  · next h => exact canonical_key a blockBase h.1 h.2.1
  · rfl

def Foot.busWrite (u : Nat) : Nat := Foot.put u ||| blockMask u ||| (if u = 3 then Foot.turnedAway else 0) ||| (if u = 2 then maskBit bit_sram else 0)

theorem Within.left (A B : Nat) : Within A (A ||| B) := by
  show A &&& (A ||| B) = A
  apply Nat.eq_of_testBit_eq
  intro i
  simp only [Nat.testBit_and, Nat.testBit_or]
  cases A.testBit i <;> simp

theorem Within.right (A B : Nat) : Within B (A ||| B) := by
  rw [Nat.or_comm]; exact Within.left B A

theorem prepare_bus {s : State} {m : Master} {a : Nat} {w mask : Word} {x : Wr} {c : Bool}
    (h : s.prepare m a w mask = some (x, c)) : x.m = m := by
  unfold State.prepare at h
  generalize regAt a = o at h
  cases o with
  | none => cases h
  | some di =>
    obtain ⟨d, i⟩ := di
    dsimp only at h
    obtain ⟨hc, h⟩ | ⟨hc, h⟩ := of_ite h
    · cases h
    · injection h with h
      injection h with hx _
      rw [← hx]

/-- A bus write outside the control engine is not turned away. -/
theorem State.turnedAway_none {s : State} {x : Wr} (h : unitOf x.a ≠ 3) (hb : x.m.isBus = true) :
    s.turnedAway x = none := by
  unfold State.turnedAway
  rw [if_neg (fun e => h (by rw [e]; decide))]
  generalize e1 : elemOf x.a (Reg.ENG_BINDn 0) 4 256 = o1
  generalize elemOf x.a (Reg.WGH_MCm_CFG 0) 0x80 2 = o2
  cases o1 with
  | none =>
    cases o2 with
    | none => rfl
    | some m =>
      show (if (x.m.isBus || !x.rises Fld.WGH_MCm_CFG.EN) = true then none else _) = none
      rw [hb]; rfl
  | some n =>
    exfalso
    obtain ⟨hlt, he⟩ := elemOf_addr e1
    refine h ?_
    rw [he]
    show (0x40031000 + 4 * n - blockBase) / 0x10000 = 3
    unfold blockBase
    omega

theorem State.makeWrite_frame {s : State} {a : Nat} {x : Wr} {clamped busy : Bool} {u : Nat} (hx : unitOf x.a = u)
    (hp : regNo x.a ≠ psnNo) (hu : unitOf a = u) (hb : x.m.isBus = true) :
    Frame (Foot.busWrite u) s (s.makeWrite a x clamped busy) := by
  have hput : Frame (Foot.busWrite u) s ((s.put x busy).1.countClamp a (clamped || (s.put x busy).2)) := by
    refine Frame.countClamp (u := u) ?_ hu
      (Within.trans (Within.right _ _) (Within.trans (Within.left _ _) (Within.left _ _))) ?_
    · exact FrameL.step (State.put_frame' hx hp) (Frame.refl _ s)
        (Within.trans (Within.left _ _) (Within.trans (Within.left _ _) (Within.left _ _)))
    · intro h2
      rw [h2]
      decide
  unfold State.makeWrite
  by_cases h3 : u = 3
  · split
    · next r er =>
      refine Frame.cutP (K := Foot.busWrite u) (s := s) er (FrameP.step State.turnedAway_frame (Frame.refl (Foot.busWrite u) s)
        ?_) (fun h => FrameF.use h (Frame.refl _ s))
      rw [h3]
      decide
    · exact hput
  · rw [State.turnedAway_none (fun e => h3 (hx.symm.trans e)) hb]
    exact hput

theorem State.busWrite_frame' {s : State} {c a : Nat} {w : Word} {busy : Bool} {u : Nat} (hu : unitOf a = u) :
    Frame (Foot.busWrite u) s (s.busWrite c a w busy) := by
  unfold State.busWrite
  generalize e : s.prepare (.core c) (canonical a) w 0xFFFFFFFF = o
  cases o with
  | none => exact Frame.refl _ s
  | some x =>
    obtain ⟨x, clamped⟩ := x
    obtain ⟨ha, _, hp⟩ := prepare_addr e
    have hx : unitOf x.a = u := by rw [ha, canonical_unit]; exact hu
    exact State.makeWrite_frame hx (by rw [ha]; exact hp) hu (by rw [prepare_bus e]; rfl)

/-! ### Judge -/

def Foot.writeImage : Nat := 0x20000000000000000000000000000000000000000000000000000000000000000000000000000000000000000000000000000000000000
theorem State.writeImage_frame {s : State} {x1 : Nat} {x2 : Word} {x3 : Word} :
    FrameV Foot.writeImage s (State.writeImage s x1 x2 x3) := by
  have h0 := Frame.refl Foot.writeImage s
  unfold State.writeImage
  split
  · extract_lets a1
    refine FrameV.ok ?_
    refine Frame.step State.imageWrite_frame ?_
    exact h0
  · refine FrameV.done ?_
    exact h0

def Foot.writeLive : Nat := Foot.putAny ||| Foot.turnedAway ||| Foot.imageWrite

theorem State.writeLive_frame {s : State} {a : Nat} {w mask : Word} :
    FrameV Foot.writeLive s (s.writeLive a w mask) := by
  unfold State.writeLive
  have h0 := Frame.refl Foot.writeLive s
  generalize e : s.prepare .descriptor a w mask = o
  cases o with
  | none => exact FrameV.done h0
  | some x =>
    obtain ⟨x, clamped⟩ := x
    obtain ⟨ha, hu, hp⟩ := prepare_addr e
    dsimp only
    split
    · next r er =>
      exact Frame.cutP (K := Foot.writeLive) (s := s) er (FrameP.step State.turnedAway_frame h0)
        (fun h => FrameV.noWith h)
    · exact FrameV.doneClamp (Frame.step State.imageWrite_frame
        (FrameL.step (State.putAny_frame (by rw [ha]; exact hu) (by rw [ha]; exact hp)) h0))

def Foot.afterLoad : Nat := blockMask 5 ||| Foot.loadPairReg

theorem State.afterLoad_frame {s : State} {a : Nat} : Frame Foot.afterLoad s (s.afterLoad a) := by
  unfold State.afterLoad
  split
  · next hu =>
    split
    · exact Frame.ite ((Frame.refl _ s).loadPairReg (AddrOk.other (u := 5) hu)) (Frame.refl _ s)
    · exact Frame.refl _ s
  · exact Frame.refl _ s

def Foot.regWrite : Nat := 0x75FF7DEEFB3FFFFFFFFFFFFFFFFFFFFFFFFFFFFFFFFFFFFFFFFFFFFFFFFFFFFFFFFFFFFFFFFFFFFFFFFFFFFFFFFFFFFFFFFFFFFFFFFFFFFF
theorem State.regWrite_frame {s : State} {x0 : State} {x2 : Desc} :
    FrameV Foot.regWrite s (State.regWrite x0 s x2) := by
  have h0 := Frame.refl Foot.regWrite s
  unfold State.regWrite
  split
  · refine FrameV.done ?_
    exact h0
  · refine FrameV.ite ?_ ?_
    · refine FrameV.map ?_ (fun u1 h2 => ?_)
      · refine FrameV.step State.writeImage_frame ?_
        exact h0
      · refine Frame.step State.afterLoad_frame ?_
        exact h2
    · refine FrameV.step State.writeLive_frame ?_
      exact h0

def Foot.regRead : Nat := 0x10000000400000000000000000006000000000000000000000000000000000000000000000000000000000000000000090000000
theorem State.regRead_frame {s : State} {x1 : Desc} :
    FrameV Foot.regRead s (State.regRead s x1) := by
  have h0 := Frame.refl Foot.regRead s
  unfold State.regRead
  split
  · refine FrameV.done ?_
    exact h0
  · extract_lets a1
    have h2 : FrameR Foot.regRead s a1 := by
      refine FrameR.step State.readReg_frame ?_
      exact h0
    clear_value a1
    refine FrameV.ok ?_
    exact h2

def Foot.tableLoaded : Nat := 0x380A0002000000000000000000000000000000000000000000000000000000000000000000000000000000060000000000000000000000000
theorem State.tableLoaded_frame {s : State} {x1 : Desc} {x2 : List Word} :
    FrameV Foot.tableLoaded s (State.tableLoaded s x1 x2) := by
  have h0 := Frame.refl Foot.tableLoaded s
  unfold State.tableLoaded
  split
  · rename_i x1 x2 x3 x4 x5 x6
    refine Frame.cutV (K := Foot.tableLoaded) (s := s) x6 ?_ (fun h7 => ?_)
    · refine FrameV.step State.tableLoad_frame ?_
      exact h0
    · refine FrameV.ok ?_
      refine Frame.step State.scanLoaded_frame ?_
      exact h7
  · rename_i x8 x9 x10 x11
    refine Frame.cutVR (K := Foot.tableLoaded) (s := s) x11 ?_ (fun h12 => ?_)
    · refine FrameV.step State.tableLoad_frame ?_
      exact h0
    · refine FrameV.refused ?_
      exact h12

def Foot.judgeEngine : Nat := 0x3E9B4002E400000000000000000000000000000000000000000000000000000000000000000000000000000600000000013E4000800000010
theorem State.judgeEngine_frame {s : State} {x1 : Desc} {x2 : List Word} :
    FrameV Foot.judgeEngine s (State.judgeEngine s x1 x2) := by
  have h0 := Frame.refl Foot.judgeEngine s
  unfold State.judgeEngine
  refine FrameV.ite ?_ ?_
  · refine FrameV.step State.paramWrite_frame ?_
    exact h0
  · refine FrameV.ite ?_ ?_
    · refine FrameV.step State.tableLoaded_frame ?_
      exact h0
    · refine FrameV.ite ?_ ?_
      · refine FrameV.step State.stallStart_frame ?_
        exact h0
      · refine FrameV.ite ?_ ?_
        · refine FrameV.step State.stallStop_frame ?_
          exact h0
        · refine FrameV.ite ?_ ?_
          · refine FrameV.step State.setpoint_frame ?_
            exact h0
          · refine FrameV.step State.scheduleSelect_frame ?_
            exact h0

def Foot.judgePower : Nat := 0x69341BAE40000000000000000000000000000000000000000000000000038001007FFFF8000000001E0101F87FFFF80003C4000800000010
theorem State.judgePower_frame {s : State} {x1 : Desc} :
    FrameV Foot.judgePower s (State.judgePower s x1) := by
  have h0 := Frame.refl Foot.judgePower s
  unfold State.judgePower
  refine FrameV.ite ?_ ?_
  · refine FrameV.done ?_
    refine Frame.step State.enablePairs_frame ?_
    exact h0
  · refine FrameV.ite ?_ ?_
    · refine FrameV.done ?_
      refine Frame.step State.disablePairs_frame ?_
      exact h0
    · refine FrameV.ite ?_ ?_
      · refine FrameV.step State.carrierSet_frame ?_
        exact h0
      · refine FrameV.ite ?_ ?_
        · refine FrameV.step State.loadAll_frame ?_
          exact h0
        · refine FrameV.ite ?_ ?_
          · refine FrameV.step State.tripClear_frame ?_
            exact h0
          · refine FrameV.ite ?_ ?_
            · refine FrameV.step State.safeRequest_frame ?_
              exact h0
            · refine FrameV.ite ?_ ?_
              · refine FrameV.step State.driveEnable_frame ?_
                exact h0
              · refine FrameV.ite ?_ ?_
                · refine FrameV.step State.discharge_frame ?_
                  exact h0
                · refine FrameV.ite ?_ ?_
                  · refine FrameV.step State.modeSet_frame ?_
                    exact h0
                  · refine FrameV.ite ?_ ?_
                    · refine FrameV.step State.angleEvent_frame ?_
                      exact h0
                    · refine FrameV.step State.channelReadmit_frame ?_
                      exact h0

def Foot.judgeSystem : Nat := 0x61DD04EE48000000000002000901480000000004000000010000000000000000000000000000000280010000000410000024000800184010
theorem State.judgeSystem_frame {s : State} {x1 : Desc} {x2 : List Word} :
    FrameV Foot.judgeSystem s (State.judgeSystem s x1 x2) := by
  have h0 := Frame.refl Foot.judgeSystem s
  unfold State.judgeSystem
  refine FrameV.ite ?_ ?_
  · refine FrameV.step State.bistRequest_frame ?_
    exact h0
  · refine FrameV.ite ?_ ?_
    · refine FrameV.step State.unitReadmit_frame ?_
      exact h0
    · refine FrameV.ite ?_ ?_
      · refine FrameV.step State.lcsToken_frame ?_
        exact h0
      · refine FrameV.ite ?_ ?_
        · refine FrameV.step State.holdupCheck_frame ?_
          exact h0
        · refine FrameV.ite ?_ ?_
          · refine FrameV.done ?_
            refine Frame.step State.ledgerNote_frame ?_
            exact h0
          · refine FrameV.ite ?_ ?_
            · refine FrameV.step State.tickRealign_frame ?_
              exact h0
            · refine FrameV.ite ?_ ?_
              · refine FrameV.step State.powerStateSet_frame ?_
                exact h0
              · refine FrameV.done ?_
                refine Frame.step State.scanStart_frame ?_
                exact h0

def Foot.judgeDesc : Nat := 0x3FDFF7FEEFB3FFFFFFFFFFFFFFFFFFFFFFFFFFFFFFFFFFFFFFFFFFFFFFFFFFFFFFFFFFFFFFFFFFFFFFFFFFFFFFFFFFFFFFFFFFFFFFFFFFFFF
theorem State.judgeDesc_frame {s : State} {x0 : State} {x2 : Desc} {x3 : List Word} :
    FrameV Foot.judgeDesc s (State.judgeDesc x0 s x2 x3) := by
  have h0 := Frame.refl Foot.judgeDesc s
  unfold State.judgeDesc
  refine FrameV.ite ?_ ?_
  · refine FrameV.done ?_
    exact h0
  · refine FrameV.ite ?_ ?_
    · refine FrameV.step State.regWrite_frame ?_
      exact h0
    · refine FrameV.ite ?_ ?_
      · refine FrameV.step State.regRead_frame ?_
        exact h0
      · refine FrameV.ite ?_ ?_
        · refine FrameV.step State.judgeEngine_frame ?_
          exact h0
        · refine FrameV.ite ?_ ?_
          · refine FrameV.step State.judgePower_frame ?_
            exact h0
          · refine FrameV.step State.judgeSystem_frame ?_
            exact h0

/-! ### Rings -/

def Foot.findLate : Nat := 0x80000000000000000000000000000000000000000000000000000000000000000000000000000000000000000000080000000000
theorem State.findLate_frame {s : State} {x1 : Caravan → Bool} :
    Frame Foot.findLate s (State.findLate s x1) := by
  have h0 := Frame.refl Foot.findLate s
  unfold State.findLate
  extract_lets a1 a2 a3
  have h4 : Frame Foot.findLate s a2 := by
    refine Frame.foldl ?_ (fun u5 x6 h7 => ?_)
    · exact h0
    · refine Frame.count ?_ (regNo_CMD_SQn_CNT _)
      exact h7
  clear_value a2
  exact { h4 with staged := fun hb => absurd hb (by decide) }

def Foot.haltRing : Nat := 0x6104000E60000000000000000000000000000000000000000000000000000000000000000000000000000000000000000004041800000010
theorem State.haltRing_frame {s : State} {x1 : Nat} {x2 : Staged} {x3 : Nat} :
    Frame Foot.haltRing s (State.haltRing s x1 x2 x3) := by
  have h0 := Frame.refl Foot.haltRing s
  unfold State.haltRing
  extract_lets a1 a2 a3 a4 a5
  have h6 : Frame Foot.haltRing s a3 := by
    refine Frame.step State.setSq_frame ?_
    exact h0
  clear_value a3
  have h7 : Frame Foot.haltRing s a4 := by
    refine Frame.setFld ?_ (regNo_CMD_SQn_STAT _)
    refine Frame.step State.setSqState_frame ?_
    exact h6
  clear_value a4
  have h8 : Frame Foot.haltRing s a5 := by
    refine Frame.step State.postCompletion_frame ?_
    exact h7
  clear_value a5
  refine Frame.step State.refreshRings_frame ?_
  refine Frame.step State.event_frame ?_
  exact h8

def Foot.join : Nat := 0xA00000000000000000000000000000000000000000000000000000000000000000000000000000000000000000000C1000000000
theorem State.join_frame {s : State} {x1 : Nat} {x2 : Staged} :
    Frame Foot.join s (State.join s x1 x2) := by
  have h0 := Frame.refl Foot.join s
  unfold State.join
  extract_lets a1 a2 a3 a4 a5 a6
  have h7 : Frame Foot.join s a3 := by
    refine Frame.step State.setSq_frame ?_
    exact h0
  clear_value a3
  have h8 : Frame Foot.join s a5 := by
    exact { h7 with staged := fun hb => absurd hb (by decide) }
  clear_value a5
  have h9 : Frame Foot.join s a6 := by
    refine Frame.ite ?_ ?_
    · refine Frame.step State.findLate_frame ?_
      exact h8
    · exact h8
  clear_value a6
  refine Frame.ite ?_ ?_
  · refine Frame.step State.refreshRings_frame ?_
    refine Frame.step State.setSq_frame ?_
    exact h0
  · refine Frame.step State.refreshRings_frame ?_
    exact h9

def Foot.fetched : Nat := 0x2004000220000000004000000000000000000000000000000000000000000000000000000000000000000000000000000000040000000000
theorem State.fetched_frame {s : State} {x1 : Nat} {x2 : Fin 3} :
    Frame Foot.fetched s (State.fetched s x1 x2) := by
  have h0 := Frame.refl Foot.fetched s
  unfold State.fetched
  extract_lets a1 a2 a3 a4 a5
  have h6 : Frame Foot.fetched s a2 := by
    refine Frame.ite ?_ ?_
    · refine Frame.count ?_ (regNo_HIC_ECC)
      exact h0
    · exact h0
  clear_value a2
  have h7 : Frame Foot.fetched s a5 := by
    exact { h6 with cmdRest := fun hb => absurd hb (by decide) }
  clear_value a5
  refine Frame.step State.showFetch_frame ?_
  refine Frame.step State.setSq_frame ?_
  exact h7

def Foot.fetchFrom : Nat := 0x6104000EE000000000C0000000000000000000000000000000000000000000000000000000000000000000000000000000040C1800000010
theorem State.fetchFrom_frame {s : State} {x1 : Nat} {x2 : Fin 3} :
    Frame Foot.fetchFrom s (State.fetchFrom s x1 x2) := by
  have h0 := Frame.refl Foot.fetchFrom s
  unfold State.fetchFrom
  extract_lets a1 a2 a3 a4 a5
  have h6 : Frame Foot.fetchFrom s a4 := by
    refine Frame.step State.fetched_frame ?_
    exact h0
  clear_value a4
  split
  · extract_lets a7
    have h8 : Frame Foot.fetchFrom s a7 := by
      refine Frame.step State.haltRing_frame ?_
      exact h6
    clear_value a7
    refine Frame.ite ?_ ?_
    · refine Frame.step State.sramDed_frame ?_
      refine Frame.step State.setBad_frame ?_
      exact h8
    · exact h8
  · refine Frame.step State.join_frame ?_
    exact h6

def Foot.atFetchSlot : Nat := 0x800000000000000000000000000000000000000000000000000000000000000000000000000000000000000000000000000000
theorem State.atFetchSlot_frame {s : State} :
    Frame Foot.atFetchSlot s (State.atFetchSlot s) := by
  have h0 := Frame.refl Foot.atFetchSlot s
  unfold State.atFetchSlot
  refine Frame.step State.at_frame ?_
  exact h0

def Foot.execFetchSlot : Nat := 0x6104000EE080000000C0000000000000000000000000000000000000000000000000000000000000000000000000000000040C1800000010
theorem execFetchSlot_frame {s : State} {x0 : Fin 3} :
    FrameO Foot.execFetchSlot s (execFetchSlot x0 s) := by
  have h0 := Frame.refl Foot.execFetchSlot s
  unfold execFetchSlot
  extract_lets a1
  have h2 : Frame Foot.execFetchSlot s a1 := by
    refine Frame.step State.atFetchSlot_frame ?_
    exact h0
  clear_value a1
  split
  · refine FrameO.next ?_
    refine Frame.step State.fetchFrom_frame ?_
    exact h2
  · refine FrameO.next ?_
    exact h2

def Foot.execCaravanCutoff : Nat := 0x280800000000000000000000000000000000000000000000000000000000000000000000000000000000000000000080000000000
theorem execCaravanCutoff_frame {s : State} :
    FrameO Foot.execCaravanCutoff s (execCaravanCutoff s) := by
  have h0 := Frame.refl Foot.execCaravanCutoff s
  unfold execCaravanCutoff
  refine FrameO.ite ?_ ?_
  · refine FrameO.next ?_
    exact h0
  · extract_lets a1 a2 a3
    have h4 : Frame Foot.execCaravanCutoff s a1 := by
      refine Frame.step State.at_frame ?_
      exact h0
    clear_value a1
    have h5 : Frame Foot.execCaravanCutoff s a2 := by
      refine Frame.step State.findLate_frame ?_
      exact h4
    clear_value a2
    refine FrameO.next ?_
    exact { h5 with cmdRest := fun hb => absurd hb (by decide) }

/-! ### Caravans -/

def Foot.queueCompletion : Nat := 0x100000000000000000000000000000000000000000000000000000000000000000000000000000000000000000000000000000000
theorem State.queueCompletion_frame {s : State} {x1 : Staged} {x2 : Completion} :
    Frame Foot.queueCompletion s (State.queueCompletion s x1 x2) := by
  have h0 := Frame.refl Foot.queueCompletion s
  unfold State.queueCompletion
  refine Frame.ite ?_ ?_
  · exact h0
  · exact { h0 with posting := fun hb => absurd hb (by decide) }

def Foot.tookEffect : Nat := 0x120000000000000000000000000000000000000000000000000000000000000000000000000000000000000000000080000000000
theorem State.tookEffect_frame {s : State} {x1 : Nat} {x2 : Bool} {x3 : Judgement} :
    Frame Foot.tookEffect s (State.tookEffect s x1 x2 x3) := by
  have h0 := Frame.refl Foot.tookEffect s
  unfold State.tookEffect
  extract_lets a1 a2 a3
  have h4 : Frame Foot.tookEffect s a1 := by
    refine Frame.ite ?_ ?_
    · refine Frame.count ?_ (regNo_CMD_SQn_CNT _)
      exact h0
    · exact h0
  clear_value a1
  have h5 : Frame Foot.tookEffect s a3 := by
    refine Frame.step State.setSq_frame ?_
    exact h4
  clear_value a3
  refine Frame.step State.queueCompletion_frame ?_
  exact h5

def Foot.caravanRefused : Nat := Foot.queueCompletion

/-- What a trial of a caravan leaves. -/
def FrameT (K : Nat) (s : State) (t : Trial) : Prop := Frame K s t.s ∧ ∀ r ∈ t.reports, FrameF K r

theorem FrameT.step {F K : Nat} {s s0 : State} {t : Trial} {m : Staged} (h : FrameT K s t)
    (hj : ∀ u, FrameV F u (s0.judgeDesc u m.desc m.load)) (hF : Within F K) :
    FrameT K s (Trial.step s0 t m) := by
  obtain ⟨h1, h2⟩ := h
  have hv := hj t.s
  unfold Trial.step
  cases e : s0.judgeDesc t.s m.desc m.load with
  | ok u i c v =>
    rw [e] at hv
    exact ⟨Frame.step hv h1 hF, h2⟩
  | refused l r =>
    rw [e] at hv
    refine ⟨h1, fun q hq => ?_⟩
    simp only [List.mem_append, List.mem_singleton] at hq
    rcases hq with hq | rfl
    · exact h2 q hq
    · exact FrameF.widen hv hF

theorem FrameT.try {F K : Nat} {s s0 t : State} {ms : List Staged} (h : Frame K s t)
    (hj : ∀ m ∈ ms, ∀ u, FrameV F u (s0.judgeDesc u m.desc m.load)) (hF : Within F K) :
    FrameT K s (s0.tryCaravan t ms) := by
  unfold State.tryCaravan
  have key : ∀ (ms : List Staged) (tr : Trial), (∀ m ∈ ms, ∀ u, FrameV F u (s0.judgeDesc u m.desc m.load)) →
      FrameT K s tr → FrameT K s (ms.foldl (Trial.step s0) tr) := by
    intro ms
    induction ms with
    | nil => intro tr _ h; exact h
    | cons m ms ih =>
      intro tr hj h
      exact ih _ (fun x hx => hj x (by simp [hx])) (h.step (hj m (by simp)) hF)
  exact key ms _ hj ⟨h, fun r hr => by simp at hr⟩

theorem Frame.caravanRefused {K : Nat} {s t : State} {ring : Nat} {tr : Trial} (h : Frame K s t)
    (hr : ∀ r ∈ tr.reports, FrameF K r) (hC : Within Foot.queueCompletion K) :
    Frame K s (t.caravanRefused ring tr) := by
  unfold State.caravanRefused
  exact Frame.foldl (Frame.foldlOn h fun u r hm hu => FrameF.use (hr r hm) hu)
    fun u j hu => Frame.step State.queueCompletion_frame hu hC

def Foot.applyCaravan : Nat := Foot.judgeDesc ||| Foot.queueCompletion ||| Foot.tookEffect ||| maskBit bit_cmdRest

theorem Frame.applyCaravan {F K : Nat} {s s0 t : State} {c : Caravan} (h : Frame K s t)
    (hj : ∀ m ∈ c.members, ∀ u, FrameV F u (s0.judgeDesc u m.desc m.load)) (hF : Within F K := by decide)
    (hC : Within Foot.queueCompletion K := by decide)
    (hT : Within (Foot.tookEffect ||| maskBit bit_cmdRest) K := by decide) : Frame K s (s0.applyCaravan t c) := by
  unfold State.applyCaravan
  have ht := FrameT.try h hj hF
  have hL : K.testBit bit_cmdRest = true := hT.bit (by decide)
  have h1 : Frame K s { (s0.tryCaravan t c.members).s with
      cmd.lastApplied := (s0.tryCaravan t c.members).s.tick } :=
    { ht.1 with cmdRest := fun hb => absurd hb (by rw [hL]; decide) }
  exact Frame.ite (Frame.foldl h1 fun u j hu => Frame.step State.tookEffect_frame hu (Within.trans (by decide) hT))
    (h.caravanRefused ht.2 hC)

def Foot.discardCaravan : Nat := 0x100000000000000000000000000000000000000000000000000000000000000000000000000000000000000000000000000000000
theorem State.discardCaravan_frame {s : State} {x1 : Caravan} :
    Frame Foot.discardCaravan s (State.discardCaravan s x1) := by
  have h0 := Frame.refl Foot.discardCaravan s
  unfold State.discardCaravan
  refine Frame.foldl ?_ (fun u1 x2 h3 => ?_)
  · exact h0
  · refine Frame.step State.queueCompletion_frame ?_
    exact h3

def Foot.runCaravan : Nat := Foot.applyCaravan ||| Foot.discardCaravan ||| maskBit bit_cmdRest ||| maskBit bit_staged

theorem State.runCaravan_frame {s0 s : State} {c : Caravan} : Frame Foot.runCaravan s (s0.runCaravan s c) := by
  unfold State.runCaravan
  extract_lets a b
  have hb : Frame Foot.runCaravan s b := { Frame.refl Foot.runCaravan s with
    staged := fun hb => absurd hb (by decide) }
  clear_value b
  refine Frame.ite (Frame.step State.discardCaravan_frame hb) ?_
  refine Frame.applyCaravan (F := Foot.judgeDesc) ?_ (fun m _ u => State.judgeDesc_frame)
  exact { hb with cmdRest := fun hb => absurd hb (by decide) }

def Foot.runRing : Nat := Foot.runCaravan

theorem State.runRing_frame {s0 : State} {before cs : List Caravan} {s : State} :
    Frame Foot.runRing s (State.runRing s0 before cs s) := by
  induction cs generalizing s with
  | nil => exact Frame.refl _ s
  | cons c cs ih =>
    unfold State.runRing
    exact Frame.ite (Frame.step ih (Frame.step State.runCaravan_frame (Frame.refl _ s))) (Frame.refl _ s)

def Foot.runRings : Nat := 0x3FDFF7FEFFB3FFFFFFFFFFFFFFFFFFFFFFFFFFFFFFFFFFFFFFFFFFFFFFFFFFFFFFFFFFFFFFFFFFFFFFFFFFFFFFFFFFFFFFFFFFFFFFFFFFFFF
theorem State.runRings_frame {s : State} :
    Frame Foot.runRings s (State.runRings s) := by
  have h0 := Frame.refl Foot.runRings s
  unfold State.runRings
  extract_lets a1 a2
  refine Frame.foldl ?_ (fun u3 x4 h5 => ?_)
  · exact { h0 with cmdRest := fun hb => absurd hb (by decide) }
  · refine Frame.step State.runRing_frame ?_
    exact h5

def Foot.internalCaravans : Nat := 0x610411AE400000000000000000000000000000000000000000000000000000010000000000000000000101987FFFF8000004000800000010
theorem State.internalCaravans_frame {s : State} :
    Frame Foot.internalCaravans s (State.internalCaravans s) := by
  have h0 := Frame.refl Foot.internalCaravans s
  unfold State.internalCaravans
  refine Frame.foldl ?_ (fun u1 x2 h3 => ?_)
  · exact h0
  · extract_lets a4 a5 a6 a7 a8
    have h9 : FrameL Foot.internalCaravans s a5 := by
      refine FrameL.step State.internalCaravan_frame ?_
      exact h3
    clear_value a5
    have h10 : Frame Foot.internalCaravans s a7 := by
      exact h9
    clear_value a7
    refine Frame.ite ?_ ?_
    · exact { h10 with prot := fun hb => absurd hb (by decide) }
    · exact h9

def Foot.releaseOne : Nat := 0x691411AE400000000000000000000000000000000000000000000000400000010000000000000000000101787FFFF8000004000800000010
theorem State.releaseOne_frame {s : State} {x1 : Nat} :
    Frame Foot.releaseOne s (State.releaseOne s x1) := by
  have h0 := Frame.refl Foot.releaseOne s
  unfold State.releaseOne
  refine Frame.ite ?_ ?_
  · exact h0
  · refine Frame.step State.fldRelease_frame ?_
    refine Frame.step State.wghRelease_frame ?_
    refine Frame.step State.releaseUnit_frame ?_
    exact h0

def Foot.vtIntervalEnds : Nat := 0x6104000E50000000000000000000000000000000000000000000000000000000000000000000000000000000000000000004000800004010
theorem State.vtIntervalEnds_frame {s : State} :
    Frame Foot.vtIntervalEnds s (State.vtIntervalEnds s) := by
  have h0 := Frame.refl Foot.vtIntervalEnds s
  unfold State.vtIntervalEnds
  refine Frame.foldl ?_ (fun u1 x2 h3 => ?_)
  · exact { h0 with vt := fun hb => absurd hb (by decide) }
  · refine Frame.step State.vtTake_frame ?_
    exact h3

def Foot.endInterval : Nat := 0x691411AE500000000000000000000000000000000000000000000000400000010000000000000000000101787FFFF8000004000800004010
theorem State.endInterval_frame {s : State} :
    Frame Foot.endInterval s (State.endInterval s) := by
  have h0 := Frame.refl Foot.endInterval s
  unfold State.endInterval
  extract_lets a1 a2 a3 a4 a5
  have h6 : Frame Foot.endInterval s a1 := by
    refine Frame.step State.vtIntervalEnds_frame ?_
    exact h0
  clear_value a1
  have h7 : Frame Foot.endInterval s a3 := by
    refine Frame.foldl ?_ (fun u8 x9 h10 => ?_)
    · exact h6
    · refine Frame.step State.releaseOne_frame ?_
      exact h10
  clear_value a3
  have h11 : Frame Foot.endInterval s a5 := by
    exact { h7 with prot := fun hb => absurd hb (by decide) }
  clear_value a5
  refine Frame.foldl ?_ (fun u12 x13 h14 => ?_)
  · exact h11
  · refine Frame.ite ?_ ?_
    · refine Frame.step State.postRecatch_frame ?_
      exact h14
    · exact h14

def Foot.preload : Nat := 0x1A0000000000000000000000000000000000000000000000000000000000000000000000000000000007FFFF8000000000000000000
theorem State.preload_frame {s : State} {x1 : Nat} :
    Frame Foot.preload s (State.preload s x1) := by
  have h0 := Frame.refl Foot.preload s
  unfold State.preload
  refine Frame.foldl ?_ (fun u1 x2 h3 => ?_)
  · exact { h0 with prot := fun hb => absurd hb (by decide) }
  · refine Frame.step State.loadUnit_frame ?_
    exact h3

def Foot.applyInterval : Nat := 0x3FDFF7FEFFB3FFFFFFFFFFFFFFFFFFFFFFFFFFFFFFFFFFFFFFFFFFFFFFFFFFFFFFFFFFFFFFFFFFFFFFFFFFFFFFFFFFFFFFFFFFFFFFFFFFFFF
theorem State.applyInterval_frame {s : State} :
    Frame Foot.applyInterval s (State.applyInterval s) := by
  have h0 := Frame.refl Foot.applyInterval s
  unfold State.applyInterval
  extract_lets a1 a2
  have h3 : Frame Foot.applyInterval s a1 := by
    refine Frame.ite ?_ ?_
    · exact h0
    · refine Frame.step State.internalCaravans_frame ?_
      refine Frame.step State.runRings_frame ?_
      refine Frame.step State.preload_frame ?_
      exact h0
  clear_value a1
  have h4 : Frame Foot.applyInterval s a2 := by
    refine Frame.ite ?_ ?_
    · refine Frame.step State.findLate_frame ?_
      exact h3
    · exact h3
  clear_value a2
  refine Frame.step State.refreshRings_frame ?_
  exact h4

def Foot.execCaravanApplication : Nat := 0x3FDFF7FEFFBBFFFFFFFFFFFFFFFFFFFFFFFFFFFFFFFFFFFFFFFFFFFFFFFFFFFFFFFFFFFFFFFFFFFFFFFFFFFFFFFFFFFFFFFFFFFFFFFFFFFFF
theorem execCaravanApplication_frame {s : State} :
    FrameO Foot.execCaravanApplication s (execCaravanApplication s) := by
  have h0 := Frame.refl Foot.execCaravanApplication s
  unfold execCaravanApplication
  refine FrameO.ite ?_ ?_
  · refine FrameO.next ?_
    exact h0
  · refine FrameO.next ?_
    refine Frame.step State.applyInterval_frame ?_
    refine Frame.step State.atTick_frame ?_
    exact h0

def Foot.postQueued : Nat := 0x6004000B40000000000000000000000000000000000000000000000000000000000000000000000000000000000000000004041800000000
theorem State.postQueued_frame {s : State} :
    Frame Foot.postQueued s (State.postQueued s) := by
  have h0 := Frame.refl Foot.postQueued s
  unfold State.postQueued
  extract_lets a1 a2 a3
  refine Frame.step State.refreshRings_frame ?_
  refine Frame.foldl ?_ (fun u4 x5 h6 => ?_)
  · exact { h0 with posting := fun hb => absurd hb (by decide), cmdRest := fun hb => absurd hb (by decide) }
  · refine Frame.step State.postCompletion_frame ?_
    exact h6

def Foot.execStoppedTickApplication : Nat := 0x3FDFF7FEFFBBFFFFFFFFFFFFFFFFFFFFFFFFFFFFFFFFFFFFFFFFFFFFFFFFFFFFFFFFFFFFFFFFFFFFFFFFFFFFFFFFFFFFFFFFFFFFFFFFFFFFF
theorem execStoppedTickApplication_frame {s : State} :
    FrameO Foot.execStoppedTickApplication s (execStoppedTickApplication s) := by
  have h0 := Frame.refl Foot.execStoppedTickApplication s
  unfold execStoppedTickApplication
  refine FrameO.ite ?_ ?_
  · refine FrameO.next ?_
    exact h0
  · extract_lets a1 a2
    have h3 : Frame Foot.execStoppedTickApplication s a2 := by
      refine Frame.step State.endInterval_frame ?_
      refine Frame.step State.at_frame ?_
      refine Frame.step State.applyInterval_frame ?_
      refine Frame.step State.at_frame ?_
      exact h0
    clear_value a2
    refine FrameO.next ?_
    refine Frame.step State.postQueued_frame ?_
    refine Frame.step State.at_frame ?_
    exact h3

def Foot.execCompletionPosting : Nat := 0x6004000B40800000000000000000000000000000000000000000000000000000000000000000000000000000000000000004041800000000
theorem execCompletionPosting_frame {s : State} :
    FrameO Foot.execCompletionPosting s (execCompletionPosting s) := by
  have h0 := Frame.refl Foot.execCompletionPosting s
  unfold execCompletionPosting
  refine FrameO.next ?_
  refine Frame.step State.postQueued_frame ?_
  refine Frame.ite ?_ ?_
  · refine Frame.step State.atTick_frame ?_
    exact h0
  · exact h0

def Foot.intervalBegins : Nat := 0x800000000000000000000000000000000000000000000000000000000000000000000000000000000000000000000000000000
theorem State.intervalBegins_frame {s : State} :
    Frame Foot.intervalBegins s (State.intervalBegins s) := by
  have h0 := Frame.refl Foot.intervalBegins s
  unfold State.intervalBegins
  refine Frame.ite ?_ ?_
  · refine Frame.step State.atTick_frame ?_
    exact h0
  · refine Frame.step State.at_frame ?_
    exact h0

/-- What a descriptor changes beside its own effect. -/
def Foot.ownCaravan : Nat := Foot.haltRing ||| Foot.refreshRings ||| Foot.intervalBegins ||| Foot.discardCaravan |||
  Foot.queueCompletion ||| Foot.tookEffect ||| Foot.at ||| Foot.endInterval ||| maskBit bit_cmdRest ||| maskBit bit_staged

theorem State.runDesc_frame' {F K : Nat} {s : State} {o : Origin} {d : Desc}
    (hj : ∀ s0 u load, FrameV F u (State.judgeDesc s0 u d load)) (hF : Within F K := by decide)
    (hC : Within Foot.ownCaravan K := by decide) : Frame K s (s.runDesc o d) := by
  have w : ∀ {A : Nat}, Within A Foot.ownCaravan → Within A K := fun h => Within.trans h hC
  have bit : ∀ k, Foot.ownCaravan.testBit k = true → ¬ K.testBit k = false := fun k hk hb => by
    rw [Within.bit hC hk] at hb; cases hb
  unfold State.runDesc
  extract_lets n m c0 s1 c c1 s2 s3
  have h1 : Frame K s s1 := { Frame.refl K s with cmdRest := fun hb => absurd hb (bit _ (by decide)) }
  clear_value s1
  refine Frame.ite (Frame.refl K s) ?_
  split
  · exact Frame.step State.haltRing_frame h1 (w (by decide))
  · refine Frame.ite ?_ ?_
    · exact Frame.step State.refreshRings_frame
        { h1 with staged := fun hb => absurd hb (bit _ (by decide)) } (w (by decide))
    · have h2 : Frame K s s2 := Frame.step State.intervalBegins_frame h1 (w (by decide))
      have h3 : Frame K s s3 := Frame.ite (Frame.step State.discardCaravan_frame h2 (w (by decide))) (by
        refine Frame.applyCaravan (F := F) h2 (fun x hx u => ?_) hF (w (by decide)) (w (by decide))
        have hx : x = m := List.mem_singleton.1 hx
        rw [hx]
        exact hj _ _ _)
      exact Frame.ite h3 (Frame.step State.endInterval_frame (Frame.step State.at_frame h3 (w (by decide))) (w (by decide)))

end Sys2Proof.Machine
end

