-- ==== Sys2Proof/Laws/FrameCmds.lean ====
section
/-! SUPPORT. What each operation can change, one lemma for one function, and the mask of the parts it names:
the commands. -/

set_option Elab.async false

namespace Sys2Proof.Machine

/-! ### Tick -/

def Foot.openTick : Nat := Foot.at ||| Foot.settle ||| maskBit 32 ||| maskBit bit_prevLen ||| maskBit bit_t0 |||
  maskBit bit_tick

theorem State.openTick_frame {s : State} : Frame Foot.openTick s s.openTick := by
  unfold State.openTick
  extract_lets t1 len u v
  have h1 : Frame Foot.openTick s u := Frame.step State.settle_frame (Frame.step State.at_frame (Frame.refl _ s))
  clear_value u
  have h2 : Frame Foot.openTick s v := { h1 with
    inv := fun hs => by
      obtain ⟨c1, c2, c3, _, c5⟩ := h1.inv hs
      exact ⟨c1, c2, c3, Nat.mod_lt _ (by decide), c5⟩
    prevLen := fun hb => absurd hb (by decide)
    t0 := fun hb => absurd hb (by decide)
    tick := fun hb => absurd hb (by decide) }
  exact h2.setFld regNo_CLK_TICKPER

def Foot.resumeChannel : Nat := 0x80400000000000000000000000000000000000000000000000000000000000400000000000000000000000000000000000000000000
theorem State.resumeChannel_frame {s : State} {x1 : Nat} :
    Frame Foot.resumeChannel s (State.resumeChannel s x1) := by
  have h0 := Frame.refl Foot.resumeChannel s
  unfold State.resumeChannel
  refine Frame.ite ?_ ?_
  · refine Frame.step State.enterCheck_frame ?_
    exact h0
  · exact h0

def Foot.resumeMachine : Nat := 0x30A000000000000000000000000000000000000000000000000040000001000000000000000000000060100000000000000000000000
theorem State.resumeMachine_frame {s : State} {x1 : Nat} :
    Frame Foot.resumeMachine s (State.resumeMachine s x1) := by
  have h0 := Frame.refl Foot.resumeMachine s
  unfold State.resumeMachine
  extract_lets a1 a2 a3 a4 a5
  have h6 : Frame Foot.resumeMachine s a1 := by
    refine Frame.step State.enterIdle_frame ?_
    refine Frame.step State.clearLost_frame ?_
    exact h0
  clear_value a1
  have h7 : Frame Foot.resumeMachine s a3 := by
    refine Frame.step State.setFm_frame ?_
    exact h6
  clear_value a3
  have h8 : Frame Foot.resumeMachine s a4 := by
    refine Frame.step State.setWghStat_frame ?_
    refine Frame.step State.setWghStat_frame ?_
    exact h7
  clear_value a4
  refine Frame.step State.setWm_frame ?_
  exact h8

def Foot.resumeBlocks : Nat := 0x8B8A400000000000000000000000000000000000000000000000040000001000400000000000000000060100000000000000000000000
theorem State.resumeBlocks_frame {s : State} :
    Frame Foot.resumeBlocks s (State.resumeBlocks s) := by
  have h0 := Frame.refl Foot.resumeBlocks s
  unfold State.resumeBlocks
  split
  · exact h0
  · extract_lets a1 a2 a3
    have h4 : Frame Foot.resumeBlocks s a2 := by
      exact { h0 with pwr := fun hb => absurd hb (by decide) }
    clear_value a2
    have h5 : Frame Foot.resumeBlocks s a3 := by
      refine Frame.step State.resumeChannel_frame ?_
      refine Frame.step State.resumeChannel_frame ?_
      exact h4
    clear_value a3
    refine Frame.step State.thermalDecay_frame ?_
    refine Frame.step State.resumeMachine_frame ?_
    refine Frame.step State.resumeMachine_frame ?_
    exact h5

def Foot.holdTick : Nat := 0x6114000E40000000000000000000000000000000000000000000000000000000000000000000000000000000000000020004000800000010
theorem State.holdTick_frame {s : State} :
    Frame Foot.holdTick s (State.holdTick s) := by
  have h0 := Frame.refl Foot.holdTick s
  unfold State.holdTick
  extract_lets a1 a2 a3
  have h4 : Frame Foot.holdTick s a2 := by
    refine Frame.setFld ?_ (regNo_TPR_STAT)
    exact h0
  clear_value a2
  refine Frame.ite ?_ ?_
  · exact h0
  · refine Frame.ite ?_ ?_
    · exact { h4 with eng := fun hb => absurd hb (by decide) }
    · refine Frame.step State.checkApplied_frame ?_
      refine Frame.setFld ?_ (regNo_TPR_STAT)
      exact h0

def Foot.commandNext : Nat := 0x611401AE400000000000000000000000000000000000000000000000000000010000000000000000000101781A0000000004000800000010
theorem State.commandNext_frame {s : State} {x1 : Nat} :
    Frame Foot.commandNext s (State.commandNext s x1) := by
  have h0 := Frame.refl Foot.commandNext s
  unfold State.commandNext
  refine Frame.ite ?_ ?_
  · exact h0
  · refine Frame.step State.commandSafe_frame ?_
    exact h0

def Foot.settle17 : Nat := 0x2000000000000000000000000000000000000000000000000000000000000000000000000000000060000000000000000000000000
theorem State.settle17_frame {s : State} :
    Frame Foot.settle17 s (State.settle17 s) := by
  have h0 := Frame.refl Foot.settle17 s
  unfold State.settle17
  refine Frame.ite ?_ ?_
  · exact h0
  · refine Frame.step State.endCause_frame ?_
    refine Frame.step State.endCause_frame ?_
    exact h0

def Foot.holdBoundary : Nat := 0x611401AE400000000000000000000000000000000000000000000000000000010000000000000000000101781A0000020004000800000010
theorem State.holdBoundary_frame {s : State} :
    Frame Foot.holdBoundary s (State.holdBoundary s) := by
  have h0 := Frame.refl Foot.holdBoundary s
  unfold State.holdBoundary
  extract_lets a1 a2 a3
  have h4 : Frame Foot.holdBoundary s a3 := by
    refine Frame.step State.settle17_frame ?_
    exact { h0 with eng := fun hb => absurd hb (by decide) }
  clear_value a3
  refine Frame.step State.commandNext_frame ?_
  refine Frame.step State.holdTick_frame ?_
  exact h4

def Foot.deliverPair : Nat := 0x8000000000000000000000000000000000000000000000000000000000000000000000000000000000000000000000000000000000
theorem State.deliverPair_frame {s : State} {x0 : List Held} {x2 : Nat} :
    Frame Foot.deliverPair s (State.deliverPair x0 s x2) := by
  have h0 := Frame.refl Foot.deliverPair s
  unfold State.deliverPair
  refine Frame.ite ?_ ?_
  · exact h0
  · extract_lets a1
    refine Frame.step State.setPair_frame ?_
    exact h0

def Foot.deliver : Nat := 0x10208000000000000000000000000000000000000000000000000000000000000000000000000000000000000000000000000000000000
theorem State.deliver_frame {s : State} {x1 : List Held} :
    Frame Foot.deliver s (State.deliver s x1) := by
  have h0 := Frame.refl Foot.deliver s
  unfold State.deliver
  extract_lets a1 a2 a3 a4
  have h5 : Frame Foot.deliver s a3 := by
    exact { h0 with eng := fun hb => absurd hb (by decide) }
  clear_value a3
  have h6 : Frame Foot.deliver s a4 := by
    refine Frame.foldl ?_ (fun u7 x8 h9 => ?_)
    · exact h5
    · refine Frame.step State.deliverPair_frame ?_
      exact h9
  clear_value a4
  refine Frame.step State.wghDeliver_frame ?_
  refine Frame.step State.wghDeliver_frame ?_
  exact h6

def Foot.updateTb0 : Nat := 0x1C0000000000000000000000000000000000000000000000000000000000000000000000000000000003E0008000000000000000000
theorem State.updateTb0_frame {s : State} :
    Frame Foot.updateTb0 s (State.updateTb0 s) := by
  have h0 := Frame.refl Foot.updateTb0 s
  unfold State.updateTb0
  extract_lets a1
  have h2 : Frame Foot.updateTb0 s a1 := by
    refine Frame.step State.transferSet_frame ?_
    exact h0
  clear_value a1
  refine Frame.ite ?_ ?_
  · exact h2
  · refine Frame.step State.takeDivisor_frame ?_
    exact h2

def Foot.closeWindows : Nat := 0x48000000000000000000000000000000000000000000000000000000000000000000000000000000000000000000000000000000000
theorem State.closeWindows_frame {s : State} :
    Frame Foot.closeWindows s (State.closeWindows s) := by
  have h0 := Frame.refl Foot.closeWindows s
  unfold State.closeWindows
  extract_lets a1
  have h2 : Frame Foot.closeWindows s a1 := by
    refine Frame.step State.closeDsWindows_frame ?_
    refine Frame.step State.closeSarWindows_frame ?_
    exact h0
  clear_value a1
  refine Frame.foldl ?_ (fun u3 x4 h5 => ?_)
  · exact h2
  · refine Frame.step State.setPair_frame ?_
    exact h5

def Foot.tickIrq : Nat := 0x4000000000000000000000000000000000000000000000000000000000000000000000000000000000000000000000000000000000000
theorem State.tickIrq_frame {s : State} :
    Frame Foot.tickIrq s (State.tickIrq s) := by
  have h0 := Frame.refl Foot.tickIrq s
  unfold State.tickIrq
  refine Frame.ite ?_ ?_
  · refine Frame.step State.edgeIrq_frame ?_
    exact h0
  · exact h0

def Foot.dlinkBoundary : Nat := 0x1400000000000000000000000000000000000000000000000000000000000000000000000000000000000000000000000000000000
theorem State.dlinkBoundary_frame {s : State} :
    Frame Foot.dlinkBoundary s (State.dlinkBoundary s) := by
  have h0 := Frame.refl Foot.dlinkBoundary s
  unfold State.dlinkBoundary
  extract_lets a1 a2 a3 a4
  have h5 : Frame Foot.dlinkBoundary s a3 := by
    exact { h0 with dlink := fun hb => absurd hb (by decide) }
  clear_value a3
  refine Frame.ite ?_ ?_
  · refine Frame.step State.f2Ends_frame ?_
    exact { h5 with dlink := fun hb => absurd hb (by decide) }
  · exact h5

def Foot.blocksBoundary : Nat := 0x618741BE5800000000000000000000000000700000000000000000C0000000010000000000000000000101781A0000000004000800004010
theorem State.blocksBoundary_frame {s : State} :
    Frame Foot.blocksBoundary s (State.blocksBoundary s) := by
  have h0 := Frame.refl Foot.blocksBoundary s
  unfold State.blocksBoundary
  extract_lets a1 a2
  have h3 : Frame Foot.blocksBoundary s a1 := by
    refine Frame.step State.linkBoundary_frame ?_
    refine Frame.step State.linkBoundary_frame ?_
    exact h0
  clear_value a1
  have h4 : Frame Foot.blocksBoundary s a2 := by
    refine Frame.step State.dlinkBoundary_frame ?_
    refine Frame.step State.canBoundary_frame ?_
    refine Frame.step State.adcBoundary_frame ?_
    exact h3
  clear_value a2
  refine Frame.step State.tickIrq_frame ?_
  refine Frame.step State.scanBoundary_frame ?_
  refine Frame.step State.vtLatch_frame ?_
  refine Frame.step State.ethBoundary_frame ?_
  exact h4

def Foot.parkBoundary : Nat := 0x614D04EE48000000000002000001000000000000000000010000000000000000000000000000000000010000000400000004000800184010
theorem State.parkBoundary_frame {s : State} :
    Frame Foot.parkBoundary s (State.parkBoundary s) := by
  have h0 := Frame.refl Foot.parkBoundary s
  unfold State.parkBoundary
  split
  · refine Frame.ite ?_ ?_
    · refine Frame.step State.enterPark_frame ?_
      exact h0
    · exact h0
  · exact h0

def Foot.boundary : Nat := 0x461DFFDFE5F80000000000200010340000000700000000001000010C0400200010004000000000000800101783E0408020004000900184010
theorem State.boundary_frame {s : State} {x1 : List BankFlip} :
    Frame Foot.boundary s (State.boundary s x1) := by
  have h0 := Frame.refl Foot.boundary s
  unfold State.boundary
  extract_lets a1 a2 a3 a4 a5 a6 a7 a8 a9 a10
  have h11 : Frame Foot.boundary s a2 := by
    refine Frame.step State.openTick_frame ?_
    refine Frame.step State.flipBanks_frame ?_
    exact h0
  clear_value a2
  have h12 : Frame Foot.boundary s a6 := by
    refine Frame.step State.openBatch_frame ?_
    exact { h11 with cmdRest := fun hb => absurd hb (by decide), faults := fun hb => absurd hb (by decide), eng := fun hb => absurd hb (by decide) }
  clear_value a6
  have h13 : Frame Foot.boundary s a7 := by
    refine Frame.step State.holdBoundary_frame ?_
    refine Frame.step State.resumeBlocks_frame ?_
    exact h12
  clear_value a7
  have h14 : Frame Foot.boundary s a8 := by
    refine Frame.step State.updateTb0_frame ?_
    refine Frame.step State.thermalBoundary_frame ?_
    refine Frame.step State.deliver_frame ?_
    exact h13
  clear_value a8
  have h15 : Frame Foot.boundary s a9 := by
    refine Frame.step State.latchPos_frame ?_
    refine Frame.step State.takeoverCores_frame ?_
    refine Frame.step State.closeWindows_frame ?_
    exact h14
  clear_value a9
  have h16 : Frame Foot.boundary s a10 := by
    refine Frame.step State.blocksBoundary_frame ?_
    refine Frame.step State.fieldBoundary_frame ?_
    exact h15
  clear_value a10
  refine Frame.step State.parkBoundary_frame ?_
  refine Frame.step State.closeBatch_frame ?_
  exact h16

def Foot.execTickBoundary : Nat := 0x461DFFDFE5F80000000000200010340000000700000000001000010C0400200010004000000000000800101783E0408020004000900184010
theorem execTickBoundary_frame {s : State} {x0 : List BankFlip} :
    FrameO Foot.execTickBoundary s (execTickBoundary x0 s) := by
  have h0 := Frame.refl Foot.execTickBoundary s
  unfold execTickBoundary
  refine FrameO.ite ?_ ?_
  · refine FrameO.next ?_
    refine Frame.step State.boundary_frame ?_
    exact h0
  · refine FrameO.next ?_
    exact h0

def Foot.execWindowFreeze : Nat := 0x8000000000000000000000000000000000000000000000000000000000000041C0000000000000000000000000000000000000
theorem execWindowFreeze_frame {s : State} :
    FrameO Foot.execWindowFreeze s (execWindowFreeze s) := by
  have h0 := Frame.refl Foot.execWindowFreeze s
  unfold execWindowFreeze
  refine FrameO.next ?_
  refine Frame.step State.freezeDs_frame ?_
  refine Frame.step State.freezeSar_frame ?_
  refine Frame.step State.atTick_frame ?_
  exact h0

def Foot.publishTick : Nat := 0x800000000000000000000000000000000000000000000000000000000000000000000000000000000000000000000000000000000000000
theorem State.publishTick_frame {s : State} :
    Frame Foot.publishTick s (State.publishTick s) := by
  have h0 := Frame.refl Foot.publishTick s
  unfold State.publishTick
  extract_lets a1 a2
  have h3 : Frame Foot.publishTick s a1 := by
    refine Frame.step State.publishReal_frame ?_
    exact h0
  clear_value a1
  refine Frame.step State.publish_frame ?_
  refine Frame.step State.publishReal_frame ?_
  refine Frame.step State.publishReal_frame ?_
  exact h3

def Foot.standTick : Nat := 0x691411AE400000000000000000000000000000000000000000000000000000010000000000000000000101781A0000000004000800000010
theorem State.standTick_frame {s : State} :
    Frame Foot.standTick s (State.standTick s) := by
  have h0 := Frame.refl Foot.standTick s
  unfold State.standTick
  extract_lets a1
  have h2 : Frame Foot.standTick s a1 := by
    refine Frame.foldl ?_ (fun u3 x4 h5 => ?_)
    · exact h0
    · refine Frame.step State.updateStanding_frame ?_
      exact h5
  clear_value a1
  refine Frame.step State.standEnds_frame ?_
  refine Frame.step State.standEnds_frame ?_
  exact h2

def Foot.publishWindows : Nat := 0x690405AE400000000000000000000000000000000000000000000000000000010000000080000000000101781A0000000004000800000010
theorem State.publishWindows_frame {s : State} :
    Frame Foot.publishWindows s (State.publishWindows s) := by
  have h0 := Frame.refl Foot.publishWindows s
  unfold State.publishWindows
  refine Frame.step State.publishPos_frame ?_
  refine Frame.step State.publishAllDs_frame ?_
  refine Frame.step State.publishSar_frame ?_
  refine Frame.step State.publishTick_frame ?_
  exact h0

def Foot.evaluate : Nat := 0x6914BBAE40000000000000000000000000000000000000000BC65240C000000100040000000000001A0101781A0000000004000800000010
theorem State.evaluate_frame {s : State} {x1 : Word} {x2 : Word} {x3 : Word} :
    Frame Foot.evaluate s (State.evaluate s x1 x2 x3) := by
  have h0 := Frame.refl Foot.evaluate s
  unfold State.evaluate
  extract_lets a1 a2 a3 a4
  have h5 : Frame Foot.evaluate s a1 := by
    refine Frame.step State.fieldMachine_frame ?_
    refine Frame.step State.fieldMachine_frame ?_
    exact h0
  clear_value a1
  have h6 : Frame Foot.evaluate s a2 := by
    refine Frame.step State.supervise_frame ?_
    exact h5
  clear_value a2
  have h7 : Frame Foot.evaluate s a3 := by
    refine Frame.step State.disBoundary_frame ?_
    refine Frame.step State.weigh_frame ?_
    refine Frame.step State.weigh_frame ?_
    exact h6
  clear_value a3
  have h8 : Frame Foot.evaluate s a4 := by
    refine Frame.step State.thermal_frame ?_
    exact h7
  clear_value a4
  refine Frame.step State.standTick_frame ?_
  refine Frame.step State.publishSlots_frame ?_
  refine Frame.step State.publishLink_frame ?_
  refine Frame.step State.publishLink_frame ?_
  exact h8

def Foot.execSignalPublish : Nat := 0x46914BFAE40800000000000000000000000000000000000000BC65240C000000100040000800000001A0101781A0000000004000800000010
theorem execSignalPublish_frame {s : State} {x0 : Word} {x1 : Word} {x2 : Word} :
    FrameO Foot.execSignalPublish s (execSignalPublish x0 x1 x2 s) := by
  have h0 := Frame.refl Foot.execSignalPublish s
  unfold execSignalPublish
  extract_lets a1
  have h2 : Frame Foot.execSignalPublish s a1 := by
    refine Frame.step State.publishWindows_frame ?_
    refine Frame.step State.openBatch_frame ?_
    refine Frame.step State.atTick_frame ?_
    exact h0
  clear_value a1
  refine FrameO.next ?_
  refine Frame.step State.closeBatch_frame ?_
  refine Frame.ite ?_ ?_
  · refine Frame.step State.evaluate_frame ?_
    exact h2
  · exact h2

def Foot.publishNext : Nat := 0x800000000000000000000000000000000000000000000000000000000000000000000000000000000000000000000000000000200000000
theorem State.publishNext_frame {s : State} :
    Frame Foot.publishNext s (State.publishNext s) := by
  have h0 := Frame.refl Foot.publishNext s
  unfold State.publishNext
  extract_lets a1
  refine Frame.step State.publishReal_frame ?_
  refine Frame.setFld ?_ (regNo_CLK_TICKPER_NEXT)
  exact h0

def Foot.execEngineStart : Nat := 0x4695417AFF080000000000000010240000000000000000000000000004000000100000000000000001E0101787FFFF8000424041A00004010
theorem execEngineStart_frame {s : State} {x0 : List Upset} {x1 : Option EngineStop} {x2 : Nat} {x3 : Nat} :
    FrameO Foot.execEngineStart s (execEngineStart x0 x1 x2 x3 s) := by
  have h0 := Frame.refl Foot.execEngineStart s
  unfold execEngineStart
  refine FrameO.ite ?_ ?_
  · refine FrameO.next ?_
    exact h0
  · extract_lets a1
    have h2 : Frame Foot.execEngineStart s a1 := by
      refine Frame.step State.closeBatch_frame ?_
      refine Frame.step State.endInterval_frame ?_
      refine Frame.step State.openBatch_frame ?_
      refine Frame.step State.atTick_frame ?_
      exact h0
    clear_value a1
    refine FrameO.next ?_
    refine Frame.step State.startEngine_frame ?_
    refine Frame.step State.publishNext_frame ?_
    exact h2

def Foot.execVotePhase : Nat := 0x695407AFE000000000000000010240000000000000000000000000000000000100000000000000001E0101001A0003DE0024041800000010
theorem execVotePhase_frame {s : State} {x0 : Option Nat} {x1 : Option Bool} :
    FrameO Foot.execVotePhase s (execVotePhase x0 x1 s) := by
  have h0 := Frame.refl Foot.execVotePhase s
  unfold execVotePhase
  refine FrameO.next ?_
  refine Frame.step State.vote_frame ?_
  exact h0

def Foot.execHoldExpiry : Nat := 0x611401AE400000000000000000000000000000000000000000000000000000010000000000000000000101781A0000000004000800000010
theorem execHoldExpiry_frame {s : State} :
    FrameO Foot.execHoldExpiry s (execHoldExpiry s) := by
  have h0 := Frame.refl Foot.execHoldExpiry s
  unfold execHoldExpiry
  refine FrameO.ite ?_ ?_
  · refine FrameO.next ?_
    exact h0
  · extract_lets a1 a2 a3 a4 a5
    have h6 : Frame Foot.execHoldExpiry s a4 := by
      exact { h0 with eng := fun hb => absurd hb (by decide) }
    clear_value a4
    have h7 : Frame Foot.execHoldExpiry s a5 := by
      refine Frame.step State.event_frame ?_
      exact h6
    clear_value a5
    refine FrameO.next ?_
    refine Frame.step State.commandSafe_frame ?_
    exact h7

def Foot.beforeBoundary : Nat := 0x800000000000000000000000000000000000000000000000000000000000000000000000000000000000000000000000000000
theorem State.beforeBoundary_frame {s : State} {x1 : Nat} :
    Frame Foot.beforeBoundary s (State.beforeBoundary s x1) := by
  have h0 := Frame.refl Foot.beforeBoundary s
  unfold State.beforeBoundary
  refine Frame.step State.at_frame ?_
  exact h0

def Foot.execEngineDeadline : Nat := 0x6114000E408000000000000000000000000000000000000000000000000000000000000000000000000000000000000A0404000800000010
theorem execEngineDeadline_frame {s : State} :
    FrameO Foot.execEngineDeadline s (execEngineDeadline s) := by
  have h0 := Frame.refl Foot.execEngineDeadline s
  unfold execEngineDeadline
  extract_lets a1
  have h2 : Frame Foot.execEngineDeadline s a1 := by
    refine Frame.step State.beforeBoundary_frame ?_
    exact h0
  clear_value a1
  refine FrameO.next ?_
  refine Frame.ite ?_ ?_
  · refine Frame.step State.deadlineMiss_frame ?_
    exact h2
  · exact h2

def Foot.execStateScrub : Nat := 0x6114000E408000000000000000000000000000000000000000000000000000000000000000000000000000000000000E0004000800000010
theorem execStateScrub_frame {s : State} :
    FrameO Foot.execStateScrub s (execStateScrub s) := by
  have h0 := Frame.refl Foot.execStateScrub s
  unfold execStateScrub
  extract_lets a1
  have h2 : Frame Foot.execStateScrub s a1 := by
    refine Frame.ite ?_ ?_
    · refine Frame.step State.beforeBoundary_frame ?_
      exact h0
    · exact h0
  clear_value a1
  refine FrameO.next ?_
  refine Frame.ite ?_ ?_
  · refine Frame.step State.scrub_frame ?_
    exact h2
  · exact h2

def Foot.transferOutputs : Nat := 0x6114000E400000000000000000000000000000000000000000000000000000000000000000000000000000000000000A0004000800000010
theorem State.transferOutputs_frame {s : State} :
    Frame Foot.transferOutputs s (State.transferOutputs s) := by
  have h0 := Frame.refl Foot.transferOutputs s
  unfold State.transferOutputs
  extract_lets a1 a2
  have h3 : Frame Foot.transferOutputs s a1 := by
    refine Frame.step State.checkStaged_frame ?_
    refine Frame.step State.checkApplied_frame ?_
    exact h0
  clear_value a1
  exact { h3 with eng := fun hb => absurd hb (by decide) }

def Foot.execOutputTransfer : Nat := 0x6114000E408000000000000000000000000000000000000000000000000000000000000000000000000000000000000A0004000800000010
theorem execOutputTransfer_frame {s : State} {x0 : List BankFlip} :
    FrameO Foot.execOutputTransfer s (execOutputTransfer x0 s) := by
  have h0 := Frame.refl Foot.execOutputTransfer s
  unfold execOutputTransfer
  extract_lets a1
  have h2 : Frame Foot.execOutputTransfer s a1 := by
    refine Frame.step State.flipBanks_frame ?_
    refine Frame.step State.beforeBoundary_frame ?_
    exact h0
  clear_value a1
  refine FrameO.next ?_
  refine Frame.ite ?_ ?_
  · exact h2
  · refine Frame.step State.transferOutputs_frame ?_
    exact h2

def Foot.execTimebaseZero : Nat := 0x614405EE488000000000000001024000000000000000000000000000000000000000000000000000000000603E0C18000004000800104010
theorem execTimebaseZero_frame {s : State} {x0 : Fin 4} {x1 : Nat} :
    FrameO Foot.execTimebaseZero s (execTimebaseZero x0 x1 s) := by
  have h0 := Frame.refl Foot.execTimebaseZero s
  unfold execTimebaseZero
  refine FrameO.next ?_
  refine Frame.step State.zero_frame ?_
  exact h0

def Foot.execHalfPeriodPoint : Nat := 0x610401CE408000000000000000000000000000000000000000000000000000000000000000000000000000003E0408000004000800000010
theorem execHalfPeriodPoint_frame {s : State} {x0 : Fin 4} :
    FrameO Foot.execHalfPeriodPoint s (execHalfPeriodPoint x0 s) := by
  have h0 := Frame.refl Foot.execHalfPeriodPoint s
  unfold execHalfPeriodPoint
  refine FrameO.next ?_
  refine Frame.step State.halfPoint_frame ?_
  exact h0

def Foot.execGateReadbackFail : Nat := 0x614401AE400000000000000001000000000000000000000000000000000000010000000000000000000101781A0010000004000800000010
theorem execGateReadbackFail_frame {s : State} {x0 : Fin 16} :
    FrameO Foot.execGateReadbackFail s (execGateReadbackFail x0 s) := by
  have h0 := Frame.refl Foot.execGateReadbackFail s
  unfold execGateReadbackFail
  refine FrameO.next ?_
  refine Frame.step State.readbackFail_frame ?_
  exact h0

/-! ### MemAccess -/

def Foot.trapCore : Nat := 0x204000000000000000000000000000000000000000000000000000000000000000000000000000000000000000000000000000000000000
theorem State.trapCore_frame {s : State} {x1 : Nat} {x2 : BusResult} :
    Frame Foot.trapCore s (State.trapCore s x1 x2) := by
  have h0 := Frame.refl Foot.trapCore s
  unfold State.trapCore
  exact { h0 with hic := fun hb => absurd hb (by decide), bus := fun hb => absurd hb (by decide) }

def Foot.accessFault : Nat := 0x204000000000000000000000000000000000000000000000000000000000000000000000000000000000000000000000000000000000000
theorem State.accessFault_frame {s : State} {x1 : Nat} :
    Frame Foot.accessFault s (State.accessFault s x1) := by
  have h0 := Frame.refl Foot.accessFault s
  unfold State.accessFault
  refine Frame.step State.trapCore_frame ?_
  exact h0

def Foot.gives : Nat := 0x200000000000000000000000000000000000000000000000000000000000000000000000000000000000000000000000000000000000000
theorem State.gives_frame {s : State} {x1 : Word} :
    Frame Foot.gives s (State.gives s x1) := by
  have h0 := Frame.refl Foot.gives s
  unfold State.gives
  exact { h0 with bus := fun hb => absurd hb (by decide) }

def Foot.stored : Nat := 0x200000000000000000000000000000000000000000000000000000000000000000000000000000000000000000000000000000000000000
theorem State.stored_frame {s : State} :
    Frame Foot.stored s (State.stored s) := by
  have h0 := Frame.refl Foot.stored s
  unfold State.stored
  exact { h0 with bus := fun hb => absurd hb (by decide) }

def Foot.sramRead : Nat := 0x6104000E4000000000C000000000000000000000000000000000000000000000000000000000000000000000000000000004000800000010
theorem State.sramRead_frame {s : State} {x1 : Nat} {x2 : Nat} :
    FrameR Foot.sramRead s (State.sramRead s x1 x2) := by
  have h0 := Frame.refl Foot.sramRead s
  unfold State.sramRead
  split
  · refine FrameR.mk ?_
    exact h0
  · refine FrameR.mk ?_
    refine Frame.count ?_ (regNo_HIC_ECC)
    exact h0
  · refine FrameR.mk ?_
    refine Frame.step State.sramDed_frame ?_
    refine Frame.step State.setBad_frame ?_
    exact h0

def Foot.bellWritten : Nat := 0x6107000E608000000000000000000000000000000000000000000000000000000000000000000000000000000000000000040C1800000010
theorem State.bellWritten_frame {s : State} {x1 : Nat} {x2 : Word} :
    Frame Foot.bellWritten s (State.bellWritten s x1 x2) := by
  have h0 := Frame.refl Foot.bellWritten s
  unfold State.bellWritten
  refine Frame.ite ?_ ?_
  · refine Frame.step State.sqBell_frame ?_
    refine Frame.step State.snooped_frame ?_
    exact h0
  · refine Frame.ite ?_ ?_
    · refine Frame.step State.recBell_frame ?_
      refine Frame.step State.snooped_frame ?_
      exact h0
    · refine Frame.ite ?_ ?_
      · refine Frame.step State.eqBell_frame ?_
        refine Frame.step State.snooped_frame ?_
        exact h0
      · refine Frame.ite ?_ ?_
        · refine Frame.ite ?_ ?_
          · refine Frame.step State.canTxBell_frame ?_
            refine Frame.step State.snooped_frame ?_
            exact h0
          · refine Frame.step State.canRxBell_frame ?_
            refine Frame.step State.snooped_frame ?_
            exact h0
        · refine Frame.ite ?_ ?_
          · refine Frame.ite ?_ ?_
            · refine Frame.step State.ethTxBell_frame ?_
              refine Frame.step State.snooped_frame ?_
              exact h0
            · refine Frame.step State.ethRxBell_frame ?_
              refine Frame.step State.snooped_frame ?_
              exact h0
          · exact h0

def Foot.clearOther : Nat := 0x4000000000000000000000000000000000000000000000000000000000000000000000000000000000000000000000000000000000000
theorem State.clearOther_frame {s : State} {x1 : Nat} {x2 : Nat} :
    Frame Foot.clearOther s (State.clearOther s x1 x2) := by
  have h0 := Frame.refl Foot.clearOther s
  unfold State.clearOther
  exact { h0 with hic := fun hb => absurd hb (by decide) }

def Foot.sramStore : Nat := Foot.clearOther ||| Foot.setBad ||| Foot.scanSpoil ||| Foot.bellWritten ||| maskBit bit_sram

theorem State.sramStore_frame {s : State} {c off : Nat} {w : Word} {sp : Bool} (ho : off + 4 ≤ 0x10000000) :
    Frame Foot.sramStore s (s.sramStore c off w sp) := by
  unfold State.sramStore
  extract_lets u
  have h : Frame Foot.sramStore s u := Frame.step State.scanSpoil_frame (Frame.step State.setBad_frame
    ((Frame.step State.clearOther_frame (Frame.refl _ s)).setSram ho))
  exact Frame.ite (Frame.step State.bellWritten_frame h) h

def Foot.sramWrite : Nat := Foot.sramStore ||| Foot.sramDed ||| maskBit 374

theorem State.sramWrite_frame {s : State} {c off : Nat} {v : Word} {wd ecc : Nat} (ho : off + 4 ≤ 0x10000000) :
    Frame Foot.sramWrite s (s.sramWrite c off v wd ecc) := by
  unfold State.sramWrite
  have h0 := Frame.refl Foot.sramWrite s
  have ho' : off / 4 * 4 + 4 ≤ 0x10000000 := by omega
  extract_lets o e w
  refine Frame.ite (Frame.step (State.sramStore_frame ho') h0) (Frame.ite ?_ ?_)
  · exact Frame.step (State.sramStore_frame ho') (Frame.step State.sramDed_frame h0)
  · exact Frame.step (State.sramStore_frame ho') (Frame.ite (h0.count regNo_HIC_ECC) h0)

def Foot.cachePut : Nat := 0x4000000000000000000000000000000000000000000000000000000000000000000000000000000000000000000000000000000000000
theorem State.cachePut_frame {s : State} {x1 : Bool} {x2 : Nat} {x3 : Nat} {x4 : Word} :
    Frame Foot.cachePut s (State.cachePut s x1 x2 x3 x4) := by
  have h0 := Frame.refl Foot.cachePut s
  unfold State.cachePut
  refine Frame.step State.setCached_frame ?_
  exact h0

def Foot.cacheStore : Nat := 0x4000000000000000000000000000000000000000000000000000000000000000000000000000000000000000000000000000000000000
theorem State.cacheStore_frame {s : State} {x1 : Nat} {x2 : Nat} {x3 : Word} {x4 : Nat} {x5 : Bool} :
    Frame Foot.cacheStore s (State.cacheStore s x1 x2 x3 x4 x5) := by
  have h0 := Frame.refl Foot.cacheStore s
  unfold State.cacheStore
  split
  · refine Frame.step State.cachePut_frame ?_
    exact h0
  · refine Frame.step State.setCached_frame ?_
    exact h0

def Foot.readCached : Nat := 0x6304000E4000000000C000000000000000000000000000000000000000000000000000000000000000000000000000000004000800000010
theorem State.readCached_frame {s : State} {x1 : Bool} {x2 : Nat} {x3 : Nat} {x4 : Nat} {x5 : Nat} {x6 : Bool} :
    Frame Foot.readCached s (State.readCached s x1 x2 x3 x4 x5 x6) := by
  have h0 := Frame.refl Foot.readCached s
  unfold State.readCached
  split
  · refine Frame.step State.gives_frame ?_
    exact h0
  · split
    · rename_i x1 x2 x3 x4
      refine Frame.cutR (K := Foot.readCached) (s := s) x4 ?_ (fun h5 => ?_)
      · refine FrameR.step State.sramRead_frame ?_
        exact h0
      · refine Frame.step State.gives_frame ?_
        refine Frame.step State.cachePut_frame ?_
        exact h5
    · rename_i x6 x7 x8
      refine Frame.cutR (K := Foot.readCached) (s := s) x8 ?_ (fun h9 => ?_)
      · refine FrameR.step State.sramRead_frame ?_
        exact h0
      · refine Frame.step State.accessFault_frame ?_
        exact h9

def Foot.readUncached : Nat := 0x6304000E4000000000C000000000000000000000000000000000000000000000000000000000000000000000000000000004000800000010
theorem State.readUncached_frame {s : State} {x1 : Nat} {x2 : Nat} {x3 : Nat} {x4 : Nat} :
    Frame Foot.readUncached s (State.readUncached s x1 x2 x3 x4) := by
  have h0 := Frame.refl Foot.readUncached s
  unfold State.readUncached
  split
  · rename_i x1 x2 x3 x4
    refine Frame.cutR (K := Foot.readUncached) (s := s) x4 ?_ (fun h5 => ?_)
    · refine FrameR.step State.sramRead_frame ?_
      exact h0
    · refine Frame.step State.gives_frame ?_
      exact h5
  · rename_i x6 x7 x8
    refine Frame.cutR (K := Foot.readUncached) (s := s) x8 ?_ (fun h9 => ?_)
    · refine FrameR.step State.sramRead_frame ?_
      exact h0
    · refine Frame.step State.accessFault_frame ?_
      exact h9

def Foot.readFlash : Nat := 0x6704000E40000800000000000000000000000000000000000000000000000000000000000000000000000000000000000004000800000010
theorem State.readFlash_frame {s : State} {x1 : Bool} {x2 : Nat} {x3 : Nat} {x4 : Nat} {x5 : Bool} {x6 : Option Word} :
    Frame Foot.readFlash s (State.readFlash s x1 x2 x3 x4 x5 x6) := by
  have h0 := Frame.refl Foot.readFlash s
  unfold State.readFlash
  split
  · refine Frame.step State.gives_frame ?_
    exact h0
  · refine Frame.step State.gives_frame ?_
    refine Frame.step State.cachePut_frame ?_
    exact h0
  · refine Frame.ite ?_ ?_
    · refine Frame.step State.xspTimeout_frame ?_
      exact h0
    · split
      rename_i x1 x2 x3 x4
      refine Frame.cutR (K := Foot.readFlash) (s := s) x4 ?_ (fun h5 => ?_)
      · refine FrameR.step State.takeFree_frame ?_
        exact h0
      · refine Frame.step State.gives_frame ?_
        refine Frame.step State.cachePut_frame ?_
        exact h5

def Foot.readWord : Nat := 0x204000010000040400000000000000000006000000000000000000000000000000000000000000000000000000000000000000090000000
theorem State.readWord_frame {s : State} {x1 : Nat} {x2 : Nat} {x3 : Nat} :
    Frame Foot.readWord s (State.readWord s x1 x2 x3) := by
  have h0 := Frame.refl Foot.readWord s
  unfold State.readWord
  refine Frame.ite ?_ ?_
  · refine Frame.step State.accessFault_frame ?_
    exact h0
  · refine Frame.ite ?_ ?_
    · extract_lets a1
      have h2 : FrameR Foot.readWord s a1 := by
        refine FrameR.step State.busRead_frame ?_
        exact h0
      clear_value a1
      refine Frame.step State.gives_frame ?_
      exact h2
    · split
      · refine Frame.step State.gives_frame ?_
        exact h0
      · refine Frame.step State.accessFault_frame ?_
        exact h0

def Foot.readRom : Nat := 0x204000000000000000000000000000000000000000000000000000000000000000000000000000000000000000000000000000000000000
theorem State.readRom_frame {s : State} {x1 : Nat} {x2 : Nat} {x3 : Nat} :
    Frame Foot.readRom s (State.readRom s x1 x2 x3) := by
  have h0 := Frame.refl Foot.readRom s
  unfold State.readRom
  refine Frame.ite ?_ ?_
  · refine Frame.step State.accessFault_frame ?_
    exact h0
  · refine Frame.step State.gives_frame ?_
    exact h0

def Foot.coreLoad : Nat := 0x6704000E5000084040C000000000000000006000000000000000000000000000000000000000000000000000000000000004000890000010
theorem State.coreLoad_frame {s : State} {x1 : Nat} {x2 : Nat} {x3 : Nat} {x4 : Nat} {x5 : Bool} {x6 : Option Word} :
    Frame Foot.coreLoad s (State.coreLoad s x1 x2 x3 x4 x5 x6) := by
  have h0 := Frame.refl Foot.coreLoad s
  unfold State.coreLoad
  refine Frame.ite ?_ ?_
  · refine Frame.step State.readRom_frame ?_
    exact h0
  · refine Frame.ite ?_ ?_
    · refine Frame.step State.readCached_frame ?_
      exact h0
    · refine Frame.ite ?_ ?_
      · refine Frame.step State.readUncached_frame ?_
        exact h0
      · refine Frame.ite ?_ ?_
        · refine Frame.step State.readFlash_frame ?_
          exact h0
        · refine Frame.step State.readWord_frame ?_
          exact h0

def Foot.coreFetch : Nat := 0x6704000E4000080000C000000000000000000000000000000000000000000000000000000000000000000000000000000004000800000010
theorem State.coreFetch_frame {s : State} {x1 : Nat} {x2 : Nat} {x3 : Nat} {x4 : Nat} {x5 : Bool} {x6 : Option Word} :
    Frame Foot.coreFetch s (State.coreFetch s x1 x2 x3 x4 x5 x6) := by
  have h0 := Frame.refl Foot.coreFetch s
  unfold State.coreFetch
  refine Frame.ite ?_ ?_
  · refine Frame.step State.readRom_frame ?_
    exact h0
  · refine Frame.ite ?_ ?_
    · refine Frame.step State.readCached_frame ?_
      exact h0
    · refine Frame.ite ?_ ?_
      · refine Frame.step State.readUncached_frame ?_
        exact h0
      · refine Frame.ite ?_ ?_
        · refine Frame.step State.readFlash_frame ?_
          exact h0
        · refine Frame.step State.accessFault_frame ?_
          exact h0

def Foot.engineStore : Nat := Foot.accessFault ||| Foot.stored ||| Foot.scanSpoil ||| maskBit bit_recipe |||
  maskBit bit_table ||| maskBit bit_store

theorem State.engineStore_frame {s : State} {c a : Nat} {v : Word} (ha : recipeBase ≤ a) :
    Frame Foot.engineStore s (s.engineStore c a v) := by
  unfold State.engineStore
  have h0 := Frame.refl Foot.engineStore s
  refine Frame.ite (Frame.step State.accessFault_frame h0) (Frame.ite (Frame.step State.stored_frame h0) ?_)
  exact Frame.step State.stored_frame (Frame.step State.scanSpoil_frame
    (h0.setWord fun i _ => memFree_engine (by omega) (by decide) (by decide) (by decide)))

def Foot.blockStore (u : Nat) : Nat := Foot.busWrite u ||| Foot.scanSpoil ||| Foot.stored

theorem State.blockStore_frame' {s : State} {c a : Nat} {w : Word} {busy : Bool} {u : Nat} (hu : unitOf a = u) :
    Frame (Foot.blockStore u) s (s.blockStore c a w busy) := by
  unfold State.blockStore
  refine Frame.step State.stored_frame (Frame.step State.scanSpoil_frame ?_ ?_) (Within.right _ _)
  · exact Frame.step (State.busWrite_frame' hu) (Frame.refl _ s) (Within.trans (Within.left _ _) (Within.left _ _))
  · exact Within.trans (Within.right _ _) (Within.left _ _)

/-- A write to whatever register an address names. -/
def Foot.blockStoreAny : Nat := (List.range 22).foldl (fun k u => k ||| Foot.blockStore u) 0

theorem State.blockStoreAny_frame {s : State} {c a : Nat} {w : Word} {busy : Bool} :
    Frame Foot.blockStoreAny s (s.blockStore c a w busy) := by
  by_cases hu : unitOf a ≤ 21
  · exact Frame.widen (State.blockStore_frame' rfl)
      ((by decide : ∀ u : Fin 22, Within (Foot.blockStore u.val) Foot.blockStoreAny) ⟨unitOf a, by omega⟩)
  · have hn : s.prepare (.core c) (canonical a) w 0xFFFFFFFF = none := by
      cases h : s.prepare (.core c) (canonical a) w 0xFFFFFFFF with
      | none => rfl
      | some x =>
        obtain ⟨x, b⟩ := x
        have := (prepare_addr h).2.1
        rw [canonical_unit] at this
        exact absurd this hu
    have hb : s.busWrite c a w busy = s := by unfold State.busWrite; rw [hn]; rfl
    unfold State.blockStore
    rw [hb]
    exact Frame.step State.stored_frame (Frame.step State.scanSpoil_frame (Frame.refl _ s))

def Foot.coreStore : Nat := Foot.cacheStore ||| Foot.sramWrite ||| Foot.stored ||| Foot.accessFault |||
  Foot.blockStoreAny ||| Foot.engineStore

theorem sramOffset_lt {a off : Nat} (h : sramOffset a = some off) : off + 4 ≤ 0x10000000 := by
  unfold sramOffset inCached inUncached within sramBase sramSize uncachedBase at h
  split at h
  · next e => simp at e h; omega
  · split at h
    · next e => simp at e h; omega
    · cases h

theorem State.coreStore_frame {s : State} {c a : Nat} {v : Word} {wd ecc : Nat} {hit : Bool} :
    Frame Foot.coreStore s (s.coreStore c a v wd ecc hit) := by
  unfold State.coreStore
  have h0 := Frame.refl Foot.coreStore s
  split
  · next off e =>
    extract_lets u
    have h1 : Frame Foot.coreStore s u := Frame.ite (Frame.step State.cacheStore_frame h0) h0
    exact Frame.step State.stored_frame (Frame.step (State.sramWrite_frame (sramOffset_lt e)) h1)
  · refine Frame.ite (Frame.step State.accessFault_frame h0) (Frame.ite (Frame.step State.blockStoreAny_frame h0) ?_)
    split
    · next e =>
      refine Frame.step (State.engineStore_frame ?_) h0
      unfold inEngineMem within recipeBase tableBase at e
      unfold recipeBase
      simp at e
      omega
    · exact Frame.step State.accessFault_frame h0

def Foot.dropResv : Nat := 0x4000000000000000000000000000000000000000000000000000000000000000000000000000000000000000000000000000000000000
theorem State.dropResv_frame {s : State} {x1 : Nat} :
    Frame Foot.dropResv s (State.dropResv s x1) := by
  have h0 := Frame.refl Foot.dropResv s
  unfold State.dropResv
  exact { h0 with hic := fun hb => absurd hb (by decide) }

def Foot.loadReserved : Nat := 0x6304000E4000000000C000000000000000000000000000000000000000000000000000000000000000000000000000000004000800000010
theorem State.loadReserved_frame {s : State} {x1 : Nat} {x2 : Nat} {x3 : Nat} :
    Frame Foot.loadReserved s (State.loadReserved s x1 x2 x3) := by
  have h0 := Frame.refl Foot.loadReserved s
  unfold State.loadReserved
  split
  · rename_i x1 x2 x3 x4
    refine Frame.cutR (K := Foot.loadReserved) (s := s) x4 ?_ (fun h5 => ?_)
    · refine FrameR.step State.sramRead_frame ?_
      exact h0
    · refine Frame.step State.gives_frame ?_
      extract_lets a6 a7
      have h8 : Frame Foot.loadReserved s a6 := by
        refine Frame.step State.dropResv_frame ?_
        exact h5
      clear_value a6
      exact { h8 with hic := fun hb => absurd hb (by decide) }
  · rename_i x9 x10 x11
    refine Frame.cutR (K := Foot.loadReserved) (s := s) x11 ?_ (fun h12 => ?_)
    · refine FrameR.step State.sramRead_frame ?_
      exact h0
    · refine Frame.step State.accessFault_frame ?_
      exact h12

def Foot.storeConditional : Nat := Foot.dropResv ||| Foot.sramStore ||| Foot.gives

theorem State.storeConditional_frame {s : State} {c off : Nat} {v : Word} (ho : off + 4 ≤ 0x10000000) :
    Frame Foot.storeConditional s (s.storeConditional c off v) := by
  unfold State.storeConditional
  have h1 : Frame Foot.storeConditional s (s.dropResv c) := Frame.step State.dropResv_frame (Frame.refl _ s)
  exact Frame.ite (Frame.step State.gives_frame (Frame.step (State.sramStore_frame ho) h1))
    (Frame.step State.gives_frame h1)

def Foot.amo : Nat := Foot.sramRead ||| Foot.sramStore ||| Foot.gives ||| Foot.accessFault

theorem State.amo_frame {s : State} {c off : Nat} {op : CoreOp} {v : Word} {ecc : Nat} (ho : off + 4 ≤ 0x10000000) :
    Frame Foot.amo s (s.amo c off op v ecc) := by
  unfold State.amo
  split
  · next w u e =>
    refine Frame.cutR (K := Foot.amo) (s := s) e (FrameR.step State.sramRead_frame (Frame.refl _ s)) (fun h => ?_)
    exact Frame.step State.gives_frame (Frame.step (State.sramStore_frame ho) h)
  · next u e =>
    refine Frame.cutR (K := Foot.amo) (s := s) e (FrameR.step State.sramRead_frame (Frame.refl _ s)) (fun h => ?_)
    exact Frame.step State.accessFault_frame h

def Foot.atomic : Nat := Foot.accessFault ||| Foot.loadReserved ||| Foot.storeConditional ||| Foot.amo

theorem State.atomic_frame {s : State} {c a : Nat} {op : CoreOp} {v : Word} {wd ecc : Nat} :
    Frame Foot.atomic s (s.atomic c a op v wd ecc) := by
  unfold State.atomic
  have h0 := Frame.refl Foot.atomic s
  split
  · exact Frame.step State.accessFault_frame h0
  · next h =>
    have ho : a - uncachedBase + 4 ≤ 0x10000000 := by
      unfold inUncached within uncachedBase sramSize at h
      unfold uncachedBase
      simp at h
      omega
    extract_lets off
    split
    · exact Frame.step State.loadReserved_frame h0
    · exact Frame.step (State.storeConditional_frame ho) h0
    · exact Frame.step (State.amo_frame ho) h0

def Foot.misaligned : Nat := 0x204000000000000000000000000000000000000000000000000000000000000000000000000000000000000000000000000000000000000
theorem State.misaligned_frame {s : State} {x1 : Nat} {x2 : Nat} :
    Frame Foot.misaligned s (State.misaligned s x1 x2) := by
  have h0 := Frame.refl Foot.misaligned s
  unfold State.misaligned
  refine Frame.step State.trapCore_frame ?_
  exact h0

def Foot.access : Nat := 0x3F7FF7DEEFBBFFFFFFFFFFFFFFFFFFFFFFFFFFFFFFFFFFFFFFFFFFFFFFFFFFFFFFFFFFFFFFFFFFFFFFFFFFFFFFFFFFFFFFFFFFFFFFFFFFFFF
theorem State.access_frame {s : State} {x1 : Nat} {x2 : CoreOp} {x3 : Nat} {x4 : Nat} {x5 : Word} {x6 : Bool} {x7 : Nat} {x8 : Option Word} :
    Frame Foot.access s (State.access s x1 x2 x3 x4 x5 x6 x7 x8) := by
  have h0 := Frame.refl Foot.access s
  unfold State.access
  refine Frame.ite ?_ ?_
  · refine Frame.step State.misaligned_frame ?_
    exact h0
  · split
    · refine Frame.step State.coreFetch_frame ?_
      exact h0
    · refine Frame.step State.coreLoad_frame ?_
      exact h0
    · refine Frame.step State.coreStore_frame ?_
      exact h0
    · refine Frame.step State.atomic_frame ?_
      exact h0

def Foot.execCoreMemoryAccess : Nat := 0x3F7FF7DEEFBBFFFFFFFFFFFFFFFFFFFFFFFFFFFFFFFFFFFFFFFFFFFFFFFFFFFFFFFFFFFFFFFFFFFFFFFFFFFFFFFFFFFFFFFFFFFFFFFFFFFFF
theorem execCoreMemoryAccess_frame {s : State} {x0 : Fin 2} {x1 : CoreOp} {x2 : Fin 3} {x3 : Word} {x4 : Word} {x5 : Bool} {x6 : Fin 3} {x7 : Option Word} :
    FrameO Foot.execCoreMemoryAccess s (execCoreMemoryAccess x0 x1 x2 x3 x4 x5 x6 x7 s) := by
  have h0 := Frame.refl Foot.execCoreMemoryAccess s
  unfold execCoreMemoryAccess
  refine FrameO.next ?_
  refine Frame.step State.access_frame ?_
  exact h0

/-! ### ImageCmds -/

def Foot.barBoundary : Nat := 0x8000000000000000000000000000000000000000000000000000000000000000000000000000000000000000000000000000000000000
theorem State.barBoundary_frame {s : State} :
    Frame Foot.barBoundary s (State.barBoundary s) := by
  have h0 := Frame.refl Foot.barBoundary s
  unfold State.barBoundary
  exact { h0 with pwr := fun hb => absurd hb (by decide) }

def Foot.sealImage : Nat := 0x612C000E40000000000000000000000000000000000000000000000000000000000000000000000000000000000000000004000800000812
theorem State.sealImage_frame {s : State} :
    Frame Foot.sealImage s (State.sealImage s) := by
  have h0 := Frame.refl Foot.sealImage s
  unfold State.sealImage
  extract_lets a1 a2 a3 a4
  have h5 : Frame Foot.sealImage s a3 := by
    refine Frame.step State.barBoundary_frame ?_
    exact { h0 with pwr := fun hb => absurd hb (by decide), image := fun hb => absurd hb (by decide) }
  clear_value a3
  have h6 : Frame Foot.sealImage s a4 := by
    refine Frame.setFld ?_ (regNo_SYS_RESTORE)
    refine Frame.setFld ?_ (regNo_SYS_SETUP_LOCK)
    exact h5
  clear_value a4
  refine Frame.step State.event_frame ?_
  exact h6

def Foot.execImageSealed : Nat := 0x612C000E40000000000000000000000000000000000000000000000000000000000000000000000000000000000000000004000800000812
theorem execImageSealed_frame {s : State} :
    FrameO Foot.execImageSealed s (execImageSealed s) := by
  have h0 := Frame.refl Foot.execImageSealed s
  unfold execImageSealed
  refine FrameO.ite ?_ ?_
  · refine FrameO.next ?_
    refine Frame.step State.sealImage_frame ?_
    exact h0
  · refine FrameO.next ?_
    exact h0

def Foot.restoreReg : Nat := Foot.putAny ||| Foot.force ||| blockMask 1 ||| blockMask 3 ||| blockMask 5 ||| blockMask 11

theorem imageMask_psn {a : Nat} (h : regNo a = psnNo) : imageMask a = 0 := by
  unfold imageMask
  split
  · rfl
  · obtain ⟨i, hi⟩ := regAt_psn h
    rw [hi]
    rfl

theorem blend_zero (a b : Word) : blend 0 a b = b := by
  unfold blend
  simp
  exact BitVec.and_allOnes

theorem AddrOk.any {a : Nat} (hp : regNo a ≠ psnNo) {K : Nat} (hu : unitOf a ≤ 21)
    (hK : ∀ u : Fin 22, Within (blockMask u.val) K) (hs : K.testBit bit_sram = true) : AddrOk K a :=
  AddrOk.block rfl hp (hK ⟨unitOf a, by omega⟩) hs

theorem State.restoreReg_frame {i : Image} {s : State} {a : Nat} :
    Frame Foot.restoreReg s (State.restoreReg i s a) := by
  have h0 := Frame.refl Foot.restoreReg s
  unfold State.restoreReg
  extract_lets new w
  by_cases hn : new = s.reg a ∨ a = Reg.ENG_CFG
  · rw [if_pos hn]
    exact h0
  · rw [if_neg hn]
    have hm : imageMask a ≠ 0 := by
      intro hm
      refine hn (.inl ?_)
      show blend (imageMask a) (i.reg a) (s.reg a) = s.reg a
      rw [hm, blend_zero]
    have hp : regNo a ≠ psnNo := fun h => hm (imageMask_psn h)
    have hu : unitOf a ≤ 21 := by
      refine Classical.byContradiction fun hu => hm ?_
      have e1 : ∀ u, ¬ u ≤ 21 → regsOfUnit u = [] := by
        intro u hu
        match u, hu with
        | n + 22, _ => rfl
      have e2 : regAt a = none := by
        unfold regAt
        rw [e1 _ hu]
        split <;> rfl
      unfold imageMask
      rw [e2]
      split <;> rfl
    have ok : ∀ u, unitOf a = u → u ≠ 2 → Within (blockMask u) Foot.restoreReg → AddrOk Foot.restoreReg a :=
      fun u h h2 hK => AddrOk.other h hK (h ▸ hu) h2
    refine Frame.iteOn (fun h => ?_) (fun _ => Frame.iteOn (fun h => ?_) (fun _ => Frame.iteOn (fun h => ?_) (fun _ => ?_)))
    · refine Frame.step State.force_frame (h0.setRegAt (ok 5 ?_ (by decide) (by decide)))
      obtain ⟨j, hj⟩ := Option.isSome_iff_exists.1 h
      obtain ⟨hlt, rfl⟩ := elemOf_addr hj
      have hj : j < 4 := hlt
      exact (by decide : ∀ j : Fin 4, unitOf (Reg.TBn_CFG 0 + 0x20 * j.val) = 5) ⟨j, hj⟩
    · refine Frame.step State.force_frame (h0.setRegAt ?_)
      rcases h with h | h
      · exact ok 5 h (by decide) (by decide)
      · exact ok 1 (by rw [h]; decide) (by decide) (by decide)
    · refine h0.setRegAt ?_
      rcases h with h | h
      · exact ok 3 h (by decide) (by decide)
      · exact ok 11 h (by decide) (by decide)
    · exact FrameL.step (State.putAny_frame hu hp) h0

def Foot.restoreMem : Nat := maskBit bit_sram ||| maskBit bit_recipe ||| maskBit bit_table ||| maskBit bit_store

theorem State.restoreMem_frame {s : State} {i : Image} : Frame Foot.restoreMem s (s.restoreMem i) := by
  unfold State.restoreMem
  have h0 := Frame.refl Foot.restoreMem s
  exact { h0 with
    inv := fun hs => by
      obtain ⟨c1, c2, c3, c4, c5⟩ := h0.inv hs
      refine ⟨c1, ?_, c3, c4, c5⟩
      have key : ∀ (l m : List Host.Cell), Memory.wf m = true →
          Memory.wf (l.foldl (fun m e => Store.set memDefault m e.1 e.2) m) = true := by
        intro l
        induction l with
        | nil => intro m h; exact h
        | cons e l ih => intro m h; exact ih _ (Store.wf_set _ _ _ _ h)
      exact key _ _ (Store.wf_filter _ _ _ c2)
    mem := fun a ha => absurd ha (memFree_any (by decide) (by decide) (by decide) (by decide)) }

def Foot.stopStalls : Nat := 0x10000000000000000000000000000000000000000000000000000000000000000000000000000000000000000000001000000000000000
theorem State.stopStalls_frame {s : State} :
    Frame Foot.stopStalls s (State.stopStalls s) := by
  have h0 := Frame.refl Foot.stopStalls s
  unfold State.stopStalls
  refine Frame.foldl ?_ (fun u1 x2 h3 => ?_)
  · exact { h0 with eng := fun hb => absurd hb (by decide) }
  · refine Frame.step State.setStallRunning_frame ?_
    exact h3

def Foot.restoreEngine : Nat := Foot.putEng

theorem unitOf_eng : unitOf Reg.ENG_CFG = 3 := by decide

theorem State.restoreEngine_frame {s : State} {i : Image} : Frame Foot.restoreEngine s (s.restoreEngine i) := by
  unfold State.restoreEngine
  exact Frame.ite (Frame.refl _ s) (Frame.step (State.putEng_frame unitOf_eng) (Frame.refl _ s))

def Foot.restoreRun : Nat := 0x610401CE43000000000000000000000000000000000000000000000000000000000000000000000000000000380480000004000800000010
theorem State.restoreRun_frame {s : State} {x0 : Image} {x2 : Nat} :
    Frame Foot.restoreRun s (State.restoreRun x0 s x2) := by
  have h0 := Frame.refl Foot.restoreRun s
  unfold State.restoreRun
  extract_lets a1 a2
  refine Frame.ite ?_ ?_
  · exact h0
  · refine Frame.step State.writeTbRun_frame ?_
    exact h0

def Foot.restoreLink : Nat := 0x610441AE400000000000000000000000000000000000000000000060000000010000000000000000000101781A0000000004000800000010
theorem State.restoreLink_frame {s : State} {x0 : Nat → Bool} {x2 : Nat} :
    Frame Foot.restoreLink s (State.restoreLink x0 s x2) := by
  have h0 := Frame.refl Foot.restoreLink s
  unfold State.restoreLink
  refine Frame.ite ?_ ?_
  · refine Frame.step State.linkEnable_frame ?_
    exact h0
  · refine Frame.ite ?_ ?_
    · refine Frame.step State.linkDisable_frame ?_
      exact h0
    · exact h0

def Foot.applyImage : Nat := 0x3F5FF7DEEFB3FFFFFFFFFFFFFFFFFFFFFFFFFFFFFFFFFFFFFFFFFFFFFFFFFFFFFFFFFFFFFFFFFFFFFFFFFFFFFFFFFFFFFFFFFFFFFFFFFFFFF
theorem State.applyImage_frame {s : State} {x1 : Image} :
    Frame Foot.applyImage s (State.applyImage s x1) := by
  have h0 := Frame.refl Foot.applyImage s
  unfold State.applyImage
  extract_lets a1 a2 a3 a4 a5 a6
  have h7 : Frame Foot.applyImage s a2 := by
    refine Frame.step State.restoreMem_frame ?_
    refine Frame.step State.stopStalls_frame ?_
    refine Frame.step State.settle_frame ?_
    exact h0
  clear_value a2
  have h8 : Frame Foot.applyImage s a3 := by
    refine Frame.foldl ?_ (fun u9 x10 h11 => ?_)
    · exact h7
    · refine Frame.step State.restoreReg_frame ?_
      exact h11
  clear_value a3
  have h12 : Frame Foot.applyImage s a4 := by
    refine Frame.step State.refreshToll_frame ?_
    refine Frame.step State.restoreEngine_frame ?_
    exact h8
  clear_value a4
  have h13 : Frame Foot.applyImage s a6 := by
    refine Frame.foldl ?_ (fun u14 x15 h16 => ?_)
    · exact { h12 with pwmRest := fun hb => absurd hb (by decide) }
    · refine Frame.step State.restoreRun_frame ?_
      exact h16
  clear_value a6
  refine Frame.foldl ?_ (fun u17 x18 h19 => ?_)
  · exact h13
  · refine Frame.step State.restoreLink_frame ?_
    exact h19

def Foot.restoreEnds : Nat := 0x3F5FF7DEEFB3FFFFFFFFFFFFFFFFFFFFFFFFFFFFFFFFFFFFFFFFFFFFFFFFFFFFFFFFFFFFFFFFFFFFFFFFFFFFFFFFFFFFFFFFFFFFFFFFFFFFF
theorem State.restoreEnds_frame {s : State} {x1 : Image} :
    Frame Foot.restoreEnds s (State.restoreEnds s x1) := by
  have h0 := Frame.refl Foot.restoreEnds s
  unfold State.restoreEnds
  extract_lets a1 a2 a3 a4 a5
  have h6 : Frame Foot.restoreEnds s a1 := by
    refine Frame.step State.applyImage_frame ?_
    exact h0
  clear_value a1
  have h7 : Frame Foot.restoreEnds s a3 := by
    refine Frame.step State.barBoundary_frame ?_
    exact { h6 with pwr := fun hb => absurd hb (by decide) }
  clear_value a3
  have h8 : Frame Foot.restoreEnds s a4 := by
    refine Frame.setFld ?_ (regNo_SYS_SETUP_LOCK)
    refine Frame.setFld ?_ (regNo_SYS_SETUP_LOCK)
    exact h7
  clear_value a4
  have h9 : Frame Foot.restoreEnds s a5 := by
    refine Frame.setFld ?_ (regNo_SYS_RESTORE)
    exact h8
  clear_value a5
  refine Frame.step State.event_frame ?_
  exact h9

def Foot.execRestoreDone : Nat := 0x3F5FF7DEEFB3FFFFFFFFFFFFFFFFFFFFFFFFFFFFFFFFFFFFFFFFFFFFFFFFFFFFFFFFFFFFFFFFFFFFFFFFFFFFFFFFFFFFFFFFFFFFFFFFFFFFF
theorem execRestoreDone_frame {s : State} :
    FrameO Foot.execRestoreDone s (execRestoreDone s) := by
  have h0 := Frame.refl Foot.execRestoreDone s
  unfold execRestoreDone
  split
  · refine FrameO.ite ?_ ?_
    · refine FrameO.next ?_
      refine Frame.step State.restoreEnds_frame ?_
      exact h0
    · refine FrameO.next ?_
      exact h0
  · refine FrameO.next ?_
    exact h0

/-! ### BusCmds -/

theorem State.hostWrite_frame' {s : State} {a : Nat} {w : Word} {u : Nat} (hu : unitOf a = u) :
    FrameO (Foot.blockStore u) s (s.hostWrite a w) := State.blockStore_frame' hu

def Foot.hostRead : Nat := 0x204000010000040400000000000000000006000000000000000000000000000000000000000000000000000000000000000000090000000
theorem State.hostRead_frame {s : State} {x1 : Nat} :
    FrameO Foot.hostRead s (State.hostRead s x1) := by
  have h0 := Frame.refl Foot.hostRead s
  unfold State.hostRead
  extract_lets a1
  have h2 : FrameR Foot.hostRead s a1 := by
    refine FrameR.step State.busRead_frame ?_
    exact h0
  clear_value a1
  refine FrameO.next ?_
  refine Frame.step State.gives_frame ?_
  exact h2

def Foot.execTickcntLoRead : Nat := 0x204000010000040400000000000000000006000000000000000000000000000000000000000000000000000000000000000000090000000
theorem execTickcntLoRead_frame {s : State} :
    FrameO Foot.execTickcntLoRead s (execTickcntLoRead s) := by
  have h0 := Frame.refl Foot.execTickcntLoRead s
  unfold execTickcntLoRead
  refine FrameO.step State.hostRead_frame ?_
  exact h0

def Foot.execRtcLoRead : Nat := 0x204000010000040400000000000000000006000000000000000000000000000000000000000000000000000000000000000000090000000
theorem execRtcLoRead_frame {s : State} :
    FrameO Foot.execRtcLoRead s (execRtcLoRead s) := by
  have h0 := Frame.refl Foot.execRtcLoRead s
  unfold execRtcLoRead
  refine FrameO.step State.hostRead_frame ?_
  exact h0

def Foot.execMtimeLoRead : Nat := 0x204000010000040400000000000000000006000000000000000000000000000000000000000000000000000000000000000000090000000
theorem execMtimeLoRead_frame {s : State} :
    FrameO Foot.execMtimeLoRead s (execMtimeLoRead s) := by
  have h0 := Frame.refl Foot.execMtimeLoRead s
  unfold execMtimeLoRead
  refine FrameO.step State.hostRead_frame ?_
  exact h0

def Foot.execCanTxDoorbell : Nat := 0x1205000000800000000000000000000000000000000000000000000000000000000000000000000000000000000000000000000000000000
theorem execCanTxDoorbell_frame {s : State} {x0 : Fin 4} {x1 : Word} :
    FrameO Foot.execCanTxDoorbell s (execCanTxDoorbell x0 x1 s) := by
  have h0 := Frame.refl Foot.execCanTxDoorbell s
  unfold execCanTxDoorbell
  refine FrameO.next ?_
  refine Frame.step State.stored_frame ?_
  refine Frame.step State.canTxBell_frame ?_
  refine Frame.step State.snooped_frame ?_
  refine Frame.step State.bellStored_frame ?_
  exact h0

def Foot.execCanRxConsumerWrite : Nat := 0x1205000000800000000000000000000000000000000000000000000000000000000000000000000000000000000000000000000000000000
theorem execCanRxConsumerWrite_frame {s : State} {x0 : Fin 4} {x1 : Word} :
    FrameO Foot.execCanRxConsumerWrite s (execCanRxConsumerWrite x0 x1 s) := by
  have h0 := Frame.refl Foot.execCanRxConsumerWrite s
  unfold execCanRxConsumerWrite
  refine FrameO.next ?_
  refine Frame.step State.stored_frame ?_
  refine Frame.step State.canRxBell_frame ?_
  refine Frame.step State.snooped_frame ?_
  refine Frame.step State.bellStored_frame ?_
  exact h0

def Foot.execEthTxDoorbell : Nat := 0x1206000000800000000000000000000000000000000000000000000000000000000000000000000000000000000000000000000000000000
theorem execEthTxDoorbell_frame {s : State} {x0 : Fin 2} {x1 : Word} :
    FrameO Foot.execEthTxDoorbell s (execEthTxDoorbell x0 x1 s) := by
  have h0 := Frame.refl Foot.execEthTxDoorbell s
  unfold execEthTxDoorbell
  refine FrameO.next ?_
  refine Frame.step State.stored_frame ?_
  refine Frame.step State.ethTxBell_frame ?_
  refine Frame.step State.snooped_frame ?_
  refine Frame.step State.bellStored_frame ?_
  exact h0

def Foot.execEthRxConsumerWrite : Nat := 0x1206000000800000000000000000000000000000000000000000000000000000000000000000000000000000000000000000000000000000
theorem execEthRxConsumerWrite_frame {s : State} {x0 : Fin 2} {x1 : Word} :
    FrameO Foot.execEthRxConsumerWrite s (execEthRxConsumerWrite x0 x1 s) := by
  have h0 := Frame.refl Foot.execEthRxConsumerWrite s
  unfold execEthRxConsumerWrite
  refine FrameO.next ?_
  refine Frame.step State.stored_frame ?_
  refine Frame.step State.ethRxBell_frame ?_
  refine Frame.step State.snooped_frame ?_
  refine Frame.step State.bellStored_frame ?_
  exact h0

def Foot.execEthTvtTickRead : Nat := 0x204000010000040400000000000000000006000000000000000000000000000000000000000000000000000000000000000000090000000
theorem execEthTvtTickRead_frame {s : State} :
    FrameO Foot.execEthTvtTickRead s (execEthTvtTickRead s) := by
  have h0 := Frame.refl Foot.execEthTvtTickRead s
  unfold execEthTvtTickRead
  refine FrameO.step State.hostRead_frame ?_
  exact h0

def Foot.execChkResultRead : Nat := 0x204000010000040400000000000000000006000000000000000000000000000000000000000000000000000000000000000000090000000
theorem execChkResultRead_frame {s : State} {x0 : Fin 4} :
    FrameO Foot.execChkResultRead s (execChkResultRead x0 s) := by
  have h0 := Frame.refl Foot.execChkResultRead s
  unfold execChkResultRead
  refine FrameO.step State.hostRead_frame ?_
  exact h0

/-! ### Descriptors as commands -/

theorem bits8_or (x y : Word) : (⟨0, 8⟩ : Bits).of (x ||| y) = (⟨0, 8⟩ : Bits).of x ||| (⟨0, 8⟩ : Bits).of y := by
  simp only [Bits.of, BitVec.toNat_or, Nat.pow_zero, Nat.div_one]
  exact Nat.or_mod_two_pow

theorem bits8_shift (x k : Nat) (hk : 8 ≤ k) : (⟨0, 8⟩ : Bits).of (BitVec.ofNat 32 x <<< k) = 0 := by
  simp only [Bits.of, BitVec.toNat_shiftLeft, BitVec.toNat_ofNat, Nat.pow_zero, Nat.div_one, Nat.shiftLeft_eq]
  obtain ⟨j, rfl⟩ := Nat.le.dest hk
  rw [Nat.mod_mod_of_dvd _ (by decide : 2 ^ 8 ∣ 2 ^ 32), Nat.pow_add, Nat.mul_left_comm]
  exact Nat.mul_mod_right _ _

theorem bits8_small {x : Nat} (h : x < 2 ^ 8) : (⟨0, 8⟩ : Bits).of (BitVec.ofNat 32 x) = x := by
  simp only [Bits.of, BitVec.toNat_ofNat, Nat.pow_zero, Nat.div_one]
  omega

/-- The opcode of a descriptor word built from its parts. -/
theorem mkDesc_opc (o : Origin) (opc unit inst : Nat) (w3 w4 w5 w6 : Word) :
    (mkDesc o opc unit inst w3 w4 w5 w6).opc = opc % 2 ^ 8 := by
  have h0 : BitVec.ofNat 32 (opc % 2 ^ 8) <<< 0 = BitVec.ofNat 32 (opc % 2 ^ 8) := by simp
  show (⟨0, 8⟩ : Bits).of (((((0 : Word) ||| BitVec.ofNat 32 (opc % 2 ^ 8) <<< 0) ||| BitVec.ofNat 32 o.creq.toNat <<< 9) |||
    BitVec.ofNat 32 (unit % 2 ^ 5) <<< 16) ||| BitVec.ofNat 32 (inst % 2 ^ 8) <<< 24) = _
  rw [bits8_or, bits8_or, bits8_or, bits8_or, bits8_shift _ 9 (by decide), bits8_shift _ 16 (by decide),
    bits8_shift _ 24 (by decide), h0, bits8_small (Nat.mod_lt _ (by decide))]
  rw [show (⟨0, 8⟩ : Bits).of (0 : Word) = 0 from rfl]
  simp

def Foot.execNop : Nat := Foot.ownCaravan

theorem execNop_frame {o : Origin} {unit : Fin 22} {s : State} :
    FrameO Foot.execNop s (execNop o unit s) := by
  refine State.runDesc_frame' (F := 0) fun s0 u load => ?_
  unfold State.judgeDesc 
  rw [show (mkDesc o opNop unit.val 0 0 0 0 0).opc = opNop from mkDesc_opc _ _ _ _ _ _ _ _]
  exact FrameV.done (Frame.refl _ _)

def Foot.execRegWrite : Nat := Foot.ownCaravan ||| Foot.regWrite

theorem execRegWrite_frame {o : Origin} {unit : Fin 22} {inst : Fin 5} {offset value mask : Word} {s : State} :
    FrameO Foot.execRegWrite s (execRegWrite o unit inst offset value mask s) := by
  refine State.runDesc_frame' (F := Foot.regWrite) fun s0 u load => ?_
  unfold State.judgeDesc 
  rw [show (mkDesc o opRegWrite unit.val inst.val offset value mask 0).opc = opRegWrite from mkDesc_opc _ _ _ _ _ _ _ _]
  exact State.regWrite_frame

def Foot.execRegRead : Nat := Foot.ownCaravan ||| Foot.regRead

theorem execRegRead_frame {o : Origin} {unit : Fin 22} {inst : Fin 5} {offset : Word} {s : State} :
    FrameO Foot.execRegRead s (execRegRead o unit inst offset s) := by
  refine State.runDesc_frame' (F := Foot.regRead) fun s0 u load => ?_
  unfold State.judgeDesc 
  rw [show (mkDesc o opRegRead unit.val inst.val offset 0 0 0).opc = opRegRead from mkDesc_opc _ _ _ _ _ _ _ _]
  exact State.regRead_frame

def Foot.execParamWrite : Nat := Foot.ownCaravan ||| Foot.paramWrite

theorem execParamWrite_frame {o : Origin} {stall : Fin 128} {w3 w4 w5 w6 : Word} {s : State} :
    FrameO Foot.execParamWrite s (execParamWrite o stall w3 w4 w5 w6 s) := by
  refine State.runDesc_frame' (F := Foot.paramWrite) fun s0 u load => ?_
  unfold State.judgeDesc State.judgeEngine 
  rw [show (mkDesc o opParamWrite UnitCode.eng stall.val w3 w4 w5 w6).opc = opParamWrite from mkDesc_opc _ _ _ _ _ _ _ _]
  exact State.paramWrite_frame

def Foot.execTableLoad : Nat := Foot.ownCaravan ||| Foot.tableLoaded

theorem execTableLoad_frame {o : Origin} {w3 w4 w5 w6 : Word} {s : State} :
    FrameO Foot.execTableLoad s (execTableLoad o w3 w4 w5 w6 s) := by
  refine State.runDesc_frame' (F := Foot.tableLoaded) fun s0 u load => ?_
  unfold State.judgeDesc State.judgeEngine 
  rw [show (mkDesc o opTableLoad UnitCode.eng 0 w3 w4 w5 w6).opc = opTableLoad from mkDesc_opc _ _ _ _ _ _ _ _]
  exact State.tableLoaded_frame

def Foot.execStallStart : Nat := Foot.ownCaravan ||| Foot.stallStart

theorem execStallStart_frame {o : Origin} {stall : Fin 128} {w3 : Word} {s : State} :
    FrameO Foot.execStallStart s (execStallStart o stall w3 s) := by
  refine State.runDesc_frame' (F := Foot.stallStart) fun s0 u load => ?_
  unfold State.judgeDesc State.judgeEngine 
  rw [show (mkDesc o opStallStart UnitCode.eng stall.val w3 0 0 0).opc = opStallStart from mkDesc_opc _ _ _ _ _ _ _ _]
  exact State.stallStart_frame

def Foot.execStallStop : Nat := Foot.ownCaravan ||| Foot.stallStop

theorem execStallStop_frame {o : Origin} {stall : Fin 128} {s : State} :
    FrameO Foot.execStallStop s (execStallStop o stall s) := by
  refine State.runDesc_frame' (F := Foot.stallStop) fun s0 u load => ?_
  unfold State.judgeDesc State.judgeEngine 
  rw [show (mkDesc o opStallStop UnitCode.eng stall.val 0 0 0 0).opc = opStallStop from mkDesc_opc _ _ _ _ _ _ _ _]
  exact State.stallStop_frame

def Foot.execSetpoint : Nat := Foot.ownCaravan ||| Foot.setpoint

theorem execSetpoint_frame {o : Origin} {stall : Fin 128} {w3 w4 w5 w6 : Word} {s : State} :
    FrameO Foot.execSetpoint s (execSetpoint o stall w3 w4 w5 w6 s) := by
  refine State.runDesc_frame' (F := Foot.setpoint) fun s0 u load => ?_
  unfold State.judgeDesc State.judgeEngine 
  rw [show (mkDesc o opSetpoint UnitCode.eng stall.val w3 w4 w5 w6).opc = opSetpoint from mkDesc_opc _ _ _ _ _ _ _ _]
  exact State.setpoint_frame

def Foot.execScheduleSelect : Nat := Foot.ownCaravan ||| Foot.scheduleSelect

theorem execScheduleSelect_frame {o : Origin} {w3 : Word} {s : State} :
    FrameO Foot.execScheduleSelect s (execScheduleSelect o w3 s) := by
  refine State.runDesc_frame' (F := Foot.scheduleSelect) fun s0 u load => ?_
  unfold State.judgeDesc State.judgeEngine 
  rw [show (mkDesc o opScheduleSelect UnitCode.eng 0 w3 0 0 0).opc = opScheduleSelect from mkDesc_opc _ _ _ _ _ _ _ _]
  exact State.scheduleSelect_frame

def Foot.execOutputEnable : Nat := Foot.ownCaravan ||| Foot.enablePairs

theorem execOutputEnable_frame {o : Origin} {pairs : Word} {s : State} :
    FrameO Foot.execOutputEnable s (execOutputEnable o pairs s) := by
  refine State.runDesc_frame' (F := Foot.enablePairs) fun s0 u load => ?_
  unfold State.judgeDesc State.judgePower 
  rw [show (mkDesc o opOutputEnable UnitCode.pwm 0 pairs 0 0 0).opc = opOutputEnable from mkDesc_opc _ _ _ _ _ _ _ _]
  exact FrameV.done State.enablePairs_frame

def Foot.execOutputDisable : Nat := Foot.ownCaravan ||| Foot.disablePairs

theorem execOutputDisable_frame {o : Origin} {pairs : Word} {s : State} :
    FrameO Foot.execOutputDisable s (execOutputDisable o pairs s) := by
  refine State.runDesc_frame' (F := Foot.disablePairs) fun s0 u load => ?_
  unfold State.judgeDesc State.judgePower 
  rw [show (mkDesc o opOutputDisable UnitCode.pwm 0 pairs 0 0 0).opc = opOutputDisable from mkDesc_opc _ _ _ _ _ _ _ _]
  exact FrameV.done State.disablePairs_frame

def Foot.execCarrierSet : Nat := Foot.ownCaravan ||| Foot.carrierSet

theorem execCarrierSet_frame {o : Origin} {tb : Fin 4} {period : Word} {s : State} :
    FrameO Foot.execCarrierSet s (execCarrierSet o tb period s) := by
  refine State.runDesc_frame' (F := Foot.carrierSet) fun s0 u load => ?_
  unfold State.judgeDesc State.judgePower 
  rw [show (mkDesc o opCarrierSet UnitCode.pwm tb.val period 0 0 0).opc = opCarrierSet from mkDesc_opc _ _ _ _ _ _ _ _]
  exact State.carrierSet_frame

def Foot.execLoadAll : Nat := Foot.ownCaravan ||| Foot.loadAll

theorem execLoadAll_frame {o : Origin} {tb : Fin 4} {s : State} :
    FrameO Foot.execLoadAll s (execLoadAll o tb s) := by
  refine State.runDesc_frame' (F := Foot.loadAll) fun s0 u load => ?_
  unfold State.judgeDesc State.judgePower 
  rw [show (mkDesc o opLoadAll UnitCode.pwm tb.val 0 0 0 0).opc = opLoadAll from mkDesc_opc _ _ _ _ _ _ _ _]
  exact State.loadAll_frame

def Foot.execTripClear : Nat := Foot.ownCaravan ||| Foot.tripClear

theorem execTripClear_frame {o : Origin} {ext int : Word} {s : State} :
    FrameO Foot.execTripClear s (execTripClear o ext int s) := by
  refine State.runDesc_frame' (F := Foot.tripClear) fun s0 u load => ?_
  unfold State.judgeDesc State.judgePower 
  rw [show (mkDesc o opTripClear UnitCode.prot 0 ext int 0 0).opc = opTripClear from mkDesc_opc _ _ _ _ _ _ _ _]
  exact State.tripClear_frame

def Foot.execSafeRequest : Nat := Foot.ownCaravan ||| Foot.safeRequest

theorem execSafeRequest_frame {o : Origin} {bridge : Fin 2} {w3 : Word} {s : State} :
    FrameO Foot.execSafeRequest s (execSafeRequest o bridge w3 s) := by
  refine State.runDesc_frame' (F := Foot.safeRequest) fun s0 u load => ?_
  unfold State.judgeDesc State.judgePower 
  rw [show (mkDesc o opSafeRequest UnitCode.prot bridge.val w3 0 0 0).opc = opSafeRequest from mkDesc_opc _ _ _ _ _ _ _ _]
  exact State.safeRequest_frame

def Foot.execDriveEnable : Nat := Foot.ownCaravan ||| Foot.driveEnable

theorem execDriveEnable_frame {o : Origin} {unit : Fin 4} {s : State} :
    FrameO Foot.execDriveEnable s (execDriveEnable o unit s) := by
  refine State.runDesc_frame' (F := Foot.driveEnable) fun s0 u load => ?_
  unfold State.judgeDesc State.judgePower 
  rw [show (mkDesc o opDriveEnable UnitCode.prot unit.val 0 0 0 0).opc = opDriveEnable from mkDesc_opc _ _ _ _ _ _ _ _]
  exact State.driveEnable_frame

def Foot.execDischarge : Nat := Foot.ownCaravan ||| Foot.discharge

theorem execDischarge_frame {o : Origin} {method target deadline : Word} {s : State} :
    FrameO Foot.execDischarge s (execDischarge o method target deadline s) := by
  refine State.runDesc_frame' (F := Foot.discharge) fun s0 u load => ?_
  unfold State.judgeDesc State.judgePower 
  rw [show (mkDesc o opDischarge UnitCode.prot 0 method target deadline 0).opc = opDischarge from mkDesc_opc _ _ _ _ _ _ _ _]
  exact State.discharge_frame

def Foot.execModeSet : Nat := Foot.ownCaravan ||| Foot.modeSet

theorem execModeSet_frame {o : Origin} {machine : Fin 2} {mode blend : Word} {s : State} :
    FrameO Foot.execModeSet s (execModeSet o machine mode blend s) := by
  refine State.runDesc_frame' (F := Foot.modeSet) fun s0 u load => ?_
  unfold State.judgeDesc State.judgePower 
  rw [show (mkDesc o opModeSet UnitCode.fld machine.val mode blend 0 0).opc = opModeSet from mkDesc_opc _ _ _ _ _ _ _ _]
  exact State.modeSet_frame

def Foot.execAngleEvent : Nat := Foot.ownCaravan ||| Foot.angleEvent

theorem execAngleEvent_frame {o : Origin} {slot : Fin 16} {angle action : Word} {s : State} :
    FrameO Foot.execAngleEvent s (execAngleEvent o slot angle action s) := by
  refine State.runDesc_frame' (F := Foot.angleEvent) fun s0 u load => ?_
  unfold State.judgeDesc State.judgePower 
  rw [show (mkDesc o opAngleEvent UnitCode.fld slot.val angle action 0 0).opc = opAngleEvent from mkDesc_opc _ _ _ _ _ _ _ _]
  exact State.angleEvent_frame

def Foot.execChannelReadmit : Nat := Foot.ownCaravan ||| Foot.channelReadmit

theorem execChannelReadmit_frame {o : Origin} {channel : Fin 2} {s : State} :
    FrameO Foot.execChannelReadmit s (execChannelReadmit o channel s) := by
  refine State.runDesc_frame' (F := Foot.channelReadmit) fun s0 u load => ?_
  unfold State.judgeDesc State.judgePower 
  rw [show (mkDesc o opChannelReadmit UnitCode.pos channel.val 0 0 0 0).opc = opChannelReadmit from mkDesc_opc _ _ _ _ _ _ _ _]
  exact State.channelReadmit_frame

def Foot.execBistRequest : Nat := Foot.ownCaravan ||| Foot.bistRequest

theorem execBistRequest_frame {o : Origin} {code : Fin 256} {kind : Word} {s : State} :
    FrameO Foot.execBistRequest s (execBistRequest o code kind s) := by
  refine State.runDesc_frame' (F := Foot.bistRequest) fun s0 u load => ?_
  unfold State.judgeDesc State.judgeSystem 
  rw [show (mkDesc o opBistRequest UnitCode.bst code.val kind 0 0 0).opc = opBistRequest from mkDesc_opc _ _ _ _ _ _ _ _]
  exact State.bistRequest_frame

def Foot.execUnitReadmit : Nat := Foot.ownCaravan ||| Foot.unitReadmit

theorem execUnitReadmit_frame {o : Origin} {code : Fin 256} {s : State} :
    FrameO Foot.execUnitReadmit s (execUnitReadmit o code s) := by
  refine State.runDesc_frame' (F := Foot.unitReadmit) fun s0 u load => ?_
  unfold State.judgeDesc State.judgeSystem 
  rw [show (mkDesc o opUnitReadmit UnitCode.bst code.val 0 0 0 0).opc = opUnitReadmit from mkDesc_opc _ _ _ _ _ _ _ _]
  exact State.unitReadmit_frame

def Foot.execLcsToken : Nat := Foot.ownCaravan ||| Foot.lcsToken

theorem execLcsToken_frame {o : Origin} {offset length : Word} {s : State} :
    FrameO Foot.execLcsToken s (execLcsToken o offset length s) := by
  refine State.runDesc_frame' (F := Foot.lcsToken) fun s0 u load => ?_
  unfold State.judgeDesc State.judgeSystem 
  rw [show (mkDesc o opLcsToken UnitCode.bst 0 offset length 0 0).opc = opLcsToken from mkDesc_opc _ _ _ _ _ _ _ _]
  exact State.lcsToken_frame

def Foot.execHoldupCheck : Nat := Foot.ownCaravan ||| Foot.holdupCheck

theorem execHoldupCheck_frame {o : Origin} {s : State} :
    FrameO Foot.execHoldupCheck s (execHoldupCheck o s) := by
  refine State.runDesc_frame' (F := Foot.holdupCheck) fun s0 u load => ?_
  unfold State.judgeDesc State.judgeSystem 
  rw [show (mkDesc o opHoldupCheck UnitCode.hld 0 0 0 0 0).opc = opHoldupCheck from mkDesc_opc _ _ _ _ _ _ _ _]
  exact State.holdupCheck_frame

def Foot.execLedgerNote : Nat := Foot.ownCaravan ||| Foot.ledgerNote

theorem execLedgerNote_frame {o : Origin} {w3 w4 w5 w6 : Word} {s : State} :
    FrameO Foot.execLedgerNote s (execLedgerNote o w3 w4 w5 w6 s) := by
  refine State.runDesc_frame' (F := Foot.ledgerNote) fun s0 u load => ?_
  unfold State.judgeDesc State.judgeSystem 
  rw [show (mkDesc o opLedgerNote UnitCode.hld 0 w3 w4 w5 w6).opc = opLedgerNote from mkDesc_opc _ _ _ _ _ _ _ _]
  exact FrameV.done State.ledgerNote_frame

def Foot.execTickRealign : Nat := Foot.ownCaravan ||| Foot.tickRealign

theorem execTickRealign_frame {o : Origin} {s : State} :
    FrameO Foot.execTickRealign s (execTickRealign o s) := by
  refine State.runDesc_frame' (F := Foot.tickRealign) fun s0 u load => ?_
  unfold State.judgeDesc State.judgeSystem 
  rw [show (mkDesc o opTickRealign UnitCode.clk 0 0 0 0 0).opc = opTickRealign from mkDesc_opc _ _ _ _ _ _ _ _]
  exact State.tickRealign_frame

def Foot.execPowerState : Nat := Foot.ownCaravan ||| Foot.powerStateSet

theorem execPowerState_frame {o : Origin} {target : Word} {s : State} :
    FrameO Foot.execPowerState s (execPowerState o target s) := by
  refine State.runDesc_frame' (F := Foot.powerStateSet) fun s0 u load => ?_
  unfold State.judgeDesc State.judgeSystem 
  rw [show (mkDesc o opPowerState UnitCode.pwr 0 target 0 0 0).opc = opPowerState from mkDesc_opc _ _ _ _ _ _ _ _]
  exact State.powerStateSet_frame

def Foot.execScanStart : Nat := Foot.ownCaravan ||| Foot.scanStart

theorem execScanStart_frame {o : Origin} {slot : Fin 8} {s : State} :
    FrameO Foot.execScanStart s (execScanStart o slot s) := by
  refine State.runDesc_frame' (F := Foot.scanStart) fun s0 u load => ?_
  unfold State.judgeDesc State.judgeSystem 
  rw [show (mkDesc o opScanStart UnitCode.chk slot.val 0 0 0 0).opc = opScanStart from mkDesc_opc _ _ _ _ _ _ _ _]
  exact FrameV.done State.scanStart_frame

/-! ### Registers written by software -/

def Foot.execResume : Nat := Foot.blockStore 2

theorem execResume_frame {ring : Fin 16} {s : State} : FrameO Foot.execResume s (execResume ring s) :=
  State.hostWrite_frame' ((by decide : ∀ i : Fin 16, unitOf (Reg.CMD_SQn_CTRL i.val) = 2) ring)

def Foot.execFlush : Nat := Foot.blockStore 2

theorem execFlush_frame {ring : Fin 16} {s : State} : FrameO Foot.execFlush s (execFlush ring s) :=
  State.hostWrite_frame' ((by decide : ∀ i : Fin 16, unitOf (Reg.CMD_SQn_CTRL i.val) = 2) ring)

def Foot.execClrcnt : Nat := Foot.blockStore 2

theorem execClrcnt_frame {ring : Fin 16} {s : State} : FrameO Foot.execClrcnt s (execClrcnt ring s) :=
  State.hostWrite_frame' ((by decide : ∀ i : Fin 16, unitOf (Reg.CMD_SQn_CTRL i.val) = 2) ring)

def Foot.execSqEnable : Nat := Foot.blockStore 2

theorem execSqEnable_frame {ring : Fin 16} {cfg : Word} {s : State} : FrameO Foot.execSqEnable s (execSqEnable ring cfg s) :=
  State.hostWrite_frame' ((by decide : ∀ i : Fin 16, unitOf (Reg.CMD_SQn_CFG i.val) = 2) ring)

def Foot.execRingDisable : Nat := Foot.blockStore 2

theorem execRingDisable_frame {ring : Fin 16} {cfg : Word} {s : State} : FrameO Foot.execRingDisable s (execRingDisable ring cfg s) :=
  State.hostWrite_frame' ((by decide : ∀ i : Fin 16, unitOf (Reg.CMD_SQn_CFG i.val) = 2) ring)

def Foot.execCqEqEnable : Nat := Foot.blockStore 2

theorem execCqEqEnable_frame {ring : Fin 5} {cfg : Word} {s : State} : FrameO Foot.execCqEqEnable s (execCqEqEnable ring cfg s) :=
  State.hostWrite_frame' ((by decide : ∀ i : Fin 5, unitOf (ringCfg i.val) = 2) ring)

def Foot.execEvtAck : Nat := Foot.blockStore 2

theorem execEvtAck_frame {s : State} : FrameO Foot.execEvtAck s (execEvtAck s) :=
  State.hostWrite_frame' (by decide)

def Foot.execSetupLock : Nat := Foot.blockStore 0

theorem execSetupLock_frame {s : State} : FrameO Foot.execSetupLock s (execSetupLock s) :=
  State.hostWrite_frame' (by decide)

def Foot.execF2Clear : Nat := Foot.blockStore 0

theorem execF2Clear_frame {s : State} : FrameO Foot.execF2Clear s (execF2Clear s) :=
  State.hostWrite_frame' (by decide)

def Foot.execBootOk : Nat := Foot.blockStore 0

theorem execBootOk_frame {s : State} : FrameO Foot.execBootOk s (execBootOk s) :=
  State.hostWrite_frame' (by decide)

def Foot.execBootCommit : Nat := Foot.blockStore 0

theorem execBootCommit_frame {s : State} : FrameO Foot.execBootCommit s (execBootCommit s) :=
  State.hostWrite_frame' (by decide)

def Foot.execSwsysWrite : Nat := Foot.blockStore 0

theorem execSwsysWrite_frame {s : State} : FrameO Foot.execSwsysWrite s (execSwsysWrite s) :=
  State.hostWrite_frame' (by decide)

def Foot.execSwsubWrite : Nat := Foot.blockStore 0

theorem execSwsubWrite_frame {value : Word} {s : State} : FrameO Foot.execSwsubWrite s (execSwsubWrite value s) :=
  State.hostWrite_frame' (by decide)

def Foot.execRestoreGo : Nat := Foot.blockStore 0

theorem execRestoreGo_frame {s : State} : FrameO Foot.execRestoreGo s (execRestoreGo s) :=
  State.hostWrite_frame' (by decide)

def Foot.execPllProgramWrite : Nat := Foot.blockStore 1

theorem execPllProgramWrite_frame {p : Fin 2} {frac : Bool} {value : Word} {s : State} : FrameO Foot.execPllProgramWrite s (execPllProgramWrite p frac value s) :=
  State.hostWrite_frame' ((by decide : ∀ (i : Fin 2) (b : Bool), unitOf (if b then Reg.CLK_PLLp_FRAC i.val else Reg.CLK_PLLp_CFG i.val) = 1) p frac)

def Foot.execEngRunSet : Nat := Foot.blockStore 3

theorem execEngRunSet_frame {cfg : Word} {s : State} : FrameO Foot.execEngRunSet s (execEngRunSet cfg s) :=
  State.hostWrite_frame' (by decide)

def Foot.execEngBindWrite : Nat := Foot.blockStore 3

theorem execEngBindWrite_frame {n : Fin 256} {value : Word} {s : State} : FrameO Foot.execEngBindWrite s (execEngBindWrite n value s) :=
  State.hostWrite_frame' (by
    show (0x40031000 + 0x04 * (n.val % 256) - blockBase) / 0x10000 = 3
    unfold blockBase
    omega)

def Foot.execTimebaseRun : Nat := Foot.blockStore 5

theorem execTimebaseRun_frame {tb : Fin 4} {cfg : Word} {s : State} : FrameO Foot.execTimebaseRun s (execTimebaseRun tb cfg s) :=
  State.hostWrite_frame' ((by decide : ∀ i : Fin 4, unitOf (Reg.TBn_CFG i.val) = 5) tb)

def Foot.execLdallWrite : Nat := Foot.blockStore 5

theorem execLdallWrite_frame {value : Word} {s : State} : FrameO Foot.execLdallWrite s (execLdallWrite value s) :=
  State.hostWrite_frame' (by decide)

def Foot.execAcqRunWrite : Nat := Foot.blockStore 7

theorem execAcqRunWrite_frame {s : State} : FrameO Foot.execAcqRunWrite s (execAcqRunWrite s) :=
  State.hostWrite_frame' (by decide)

def Foot.execSensvEnable : Nat := Foot.blockStore 8

theorem execSensvEnable_frame {n : Fin 2} {s : State} : FrameO Foot.execSensvEnable s (execSensvEnable n s) :=
  State.hostWrite_frame' ((by decide : ∀ i : Fin 2, unitOf (Reg.POS_SENSVn_CFG i.val) = 8) n)

def Foot.execWrapClear : Nat := Foot.blockStore 8

theorem execWrapClear_frame {c : Fin 2} {s : State} : FrameO Foot.execWrapClear s (execWrapClear c s) :=
  State.hostWrite_frame' ((by decide : ∀ i : Fin 2, unitOf (Reg.POS_CHc_CNT i.val) = 8) c)

def Foot.execAngleEventArm : Nat := Foot.blockStore 9

theorem execAngleEventArm_frame {slot : Fin 16} {action : Word} {s : State} : FrameO Foot.execAngleEventArm s (execAngleEventArm slot action s) :=
  State.hostWrite_frame' ((by decide : ∀ i : Fin 16, unitOf (Reg.FLD_EVs_ACT i.val) = 9) slot)

def Foot.execWghEnable : Nat := Foot.blockStore 10

theorem execWghEnable_frame {m : Fin 2} {cfg : Word} {s : State} : FrameO Foot.execWghEnable s (execWghEnable m cfg s) :=
  State.hostWrite_frame' ((by decide : ∀ i : Fin 2, unitOf (Reg.WGH_MCm_CFG i.val) = 10) m)

def Foot.execIskLinkEnable : Nat := Foot.blockStore 11

theorem execIskLinkEnable_frame {link : Fin 2} {cfg : Word} {s : State} : FrameO Foot.execIskLinkEnable s (execIskLinkEnable link cfg s) :=
  State.hostWrite_frame' ((by decide : ∀ i : Fin 2, unitOf (Reg.ISK_LINKl_CFG i.val) = 11) link)

def Foot.execCanTxresume : Nat := Foot.blockStore 13

theorem execCanTxresume_frame {c : Fin 4} {s : State} : FrameO Foot.execCanTxresume s (execCanTxresume c s) :=
  State.hostWrite_frame' ((by decide : ∀ i : Fin 4, unitOf (Reg.CAN_CTRL i.val) = 13) c)

def Foot.execCanTxflush : Nat := Foot.blockStore 13

theorem execCanTxflush_frame {c : Fin 4} {s : State} : FrameO Foot.execCanTxflush s (execCanTxflush c s) :=
  State.hostWrite_frame' ((by decide : ∀ i : Fin 4, unitOf (Reg.CAN_CTRL i.val) = 13) c)

def Foot.execCanInitClear : Nat := Foot.blockStore 13

theorem execCanInitClear_frame {c : Fin 4} {cfg : Word} {s : State} : FrameO Foot.execCanInitClear s (execCanInitClear c cfg s) :=
  State.hostWrite_frame' ((by decide : ∀ i : Fin 4, unitOf (Reg.CAN_CTRL i.val) = 13) c)

def Foot.execEthTxresume : Nat := Foot.blockStore 14

theorem execEthTxresume_frame {p : Fin 2} {s : State} : FrameO Foot.execEthTxresume s (execEthTxresume p s) :=
  State.hostWrite_frame' ((by decide : ∀ i : Fin 2, unitOf (Reg.ETH_Pp_TXCTL i.val) = 14) p)

def Foot.execEthTxflush : Nat := Foot.blockStore 14

theorem execEthTxflush_frame {p : Fin 2} {s : State} : FrameO Foot.execEthTxflush s (execEthTxflush p s) :=
  State.hostWrite_frame' ((by decide : ∀ i : Fin 2, unitOf (Reg.ETH_Pp_TXCTL i.val) = 14) p)

def Foot.execEthVtRateWrite : Nat := Foot.blockStore 14

theorem execEthVtRateWrite_frame {value : Word} {s : State} : FrameO Foot.execEthVtRateWrite s (execEthVtRateWrite value s) :=
  State.hostWrite_frame' (by decide)

def Foot.execEthVtStep : Nat := Foot.blockStore 14

theorem execEthVtStep_frame {value : Word} {s : State} : FrameO Foot.execEthVtStep s (execEthVtStep value s) :=
  State.hostWrite_frame' (by decide)

def Foot.execEthVtSet : Nat := Foot.blockStore 14

theorem execEthVtSet_frame {s : State} : FrameO Foot.execEthVtSet s (execEthVtSet s) :=
  State.hostWrite_frame' (by decide)

def Foot.execEthMdioCommand : Nat := Foot.blockStore 14

theorem execEthMdioCommand_frame {value : Word} {s : State} : FrameO Foot.execEthMdioCommand s (execEthMdioCommand value s) :=
  State.hostWrite_frame' (by decide)

def Foot.execCore1Start : Nat := Foot.blockStore 19

theorem execCore1Start_frame {s : State} : FrameO Foot.execCore1Start s (execCore1Start s) :=
  State.hostWrite_frame' (by decide)

def Foot.execCacheInvalidate : Nat := Foot.blockStore 19

theorem execCacheInvalidate_frame {core : Fin 2} {data inst : Bool} {s : State} : FrameO Foot.execCacheInvalidate s (execCacheInvalidate core data inst s) :=
  State.hostWrite_frame' ((by decide : ∀ i : Fin 2, unitOf (Reg.HIC_CACHEc i.val) = 19) core)

def Foot.execWdogEnable : Nat := Foot.blockStore 19

theorem execWdogEnable_frame {wd : Fin 2} {cfg : Word} {s : State} : FrameO Foot.execWdogEnable s (execWdogEnable wd cfg s) :=
  State.hostWrite_frame' ((by decide : ∀ i : Fin 2, unitOf (Reg.HIC_WDw_CFG i.val) = 19) wd)

def Foot.execXspCommand : Nat := Foot.blockStore 20

theorem execXspCommand_frame {cmd : Word} {s : State} : FrameO Foot.execXspCommand s (execXspCommand cmd s) :=
  State.hostWrite_frame' (by decide)

def Foot.execChkAlgWrite : Nat := Foot.blockStore 15

theorem execChkAlgWrite_frame {n : Fin 4} {value : Word} {s : State} : FrameO Foot.execChkAlgWrite s (execChkAlgWrite n value s) :=
  State.hostWrite_frame' ((by decide : ∀ i : Fin 4, unitOf (Reg.CHK_Un_CFG i.val) = 15) n)

def Foot.execChkSeedWrite : Nat := Foot.blockStore 15

theorem execChkSeedWrite_frame {n : Fin 4} {value : Word} {s : State} : FrameO Foot.execChkSeedWrite s (execChkSeedWrite n value s) :=
  State.hostWrite_frame' ((by decide : ∀ i : Fin 4, unitOf (Reg.CHK_Un_SEED i.val) = 15) n)

def Foot.execChkDataWrite : Nat := Foot.blockStore 15

theorem execChkDataWrite_frame {n : Fin 4} {value : Word} {s : State} : FrameO Foot.execChkDataWrite s (execChkDataWrite n value s) :=
  State.hostWrite_frame' ((by decide : ∀ i : Fin 4, unitOf (Reg.CHK_Un_DATA i.val) = 15) n)

def Foot.execChkDatabWrite : Nat := Foot.blockStore 15

theorem execChkDatabWrite_frame {n : Fin 4} {value : Word} {s : State} : FrameO Foot.execChkDatabWrite s (execChkDatabWrite n value s) :=
  State.hostWrite_frame' ((by decide : ∀ i : Fin 4, unitOf (Reg.CHK_Un_DATAB i.val) = 15) n)

def Foot.execScanGo : Nat := Foot.blockStore 15

theorem execScanGo_frame {slot : Fin 8} {s : State} : FrameO Foot.execScanGo s (execScanGo slot s) :=
  State.hostWrite_frame' ((by decide : ∀ i : Fin 8, unitOf (Reg.CHK_SCs_CFG i.val) = 15) slot)

def Foot.execCanInitSet : Nat := Foot.blockStore 13

def Foot.execRegisterWrite : Nat := Foot.blockStoreAny

theorem execCanInitSet_frame {c : Fin 4} {busy : Bool} {s : State} : FrameO Foot.execCanInitSet s (execCanInitSet c busy s) :=
  State.blockStore_frame' ((by decide : ∀ i : Fin 4, unitOf (Reg.CAN_CTRL i.val) = 13) c)

theorem execRegisterWrite_frame {core : Fin 3} {unit : Fin 22} {index : Fin 0x4000} {value : Word} {s : State} :
    FrameO Foot.execRegisterWrite s (execRegisterWrite core unit index value s) :=
  FrameO.ite (Frame.refl _ s) State.blockStoreAny_frame

/-! ### Every command -/

/-- What a command may change. -/
def Foot.ofCmd : Instr → Nat
  | .sqDoorbellWrite _ _ => Foot.execSqDoorbellWrite
  | .cqConsumerIndexWrite _ _ => Foot.execCqConsumerIndexWrite
  | .eqConsumerIndexWrite _ => Foot.execEqConsumerIndexWrite
  | .eqOverflow => Foot.execEqOverflow
  | .fetchSlot _ => Foot.execFetchSlot
  | .caravanCutoff => Foot.execCaravanCutoff
  | .caravanApplication => Foot.execCaravanApplication
  | .stoppedTickApplication => Foot.execStoppedTickApplication
  | .completionPosting => Foot.execCompletionPosting
  | .nop _ _ => Foot.execNop
  | .regWrite _ _ _ _ _ _ => Foot.execRegWrite
  | .regRead _ _ _ _ => Foot.execRegRead
  | .paramWrite _ _ _ _ _ _ => Foot.execParamWrite
  | .tableLoad _ _ _ _ _ => Foot.execTableLoad
  | .stallStart _ _ _ => Foot.execStallStart
  | .stallStop _ _ => Foot.execStallStop
  | .setpoint _ _ _ _ _ _ => Foot.execSetpoint
  | .scheduleSelect _ _ => Foot.execScheduleSelect
  | .outputEnable _ _ => Foot.execOutputEnable
  | .outputDisable _ _ => Foot.execOutputDisable
  | .carrierSet _ _ _ => Foot.execCarrierSet
  | .loadAll _ _ => Foot.execLoadAll
  | .tripClear _ _ _ => Foot.execTripClear
  | .safeRequest _ _ _ => Foot.execSafeRequest
  | .driveEnable _ _ => Foot.execDriveEnable
  | .discharge _ _ _ _ => Foot.execDischarge
  | .modeSet _ _ _ _ => Foot.execModeSet
  | .angleEvent _ _ _ _ => Foot.execAngleEvent
  | .channelReadmit _ _ => Foot.execChannelReadmit
  | .bistRequest _ _ _ => Foot.execBistRequest
  | .unitReadmit _ _ => Foot.execUnitReadmit
  | .lcsToken _ _ _ => Foot.execLcsToken
  | .holdupCheck _ => Foot.execHoldupCheck
  | .ledgerNote _ _ _ _ _ => Foot.execLedgerNote
  | .tickRealign _ => Foot.execTickRealign
  | .powerState _ _ => Foot.execPowerState
  | .scanStart _ _ => Foot.execScanStart
  | .resume _ => Foot.execResume
  | .flush _ => Foot.execFlush
  | .flushRecordPost _ => Foot.execFlushRecordPost
  | .clrcnt _ => Foot.execClrcnt
  | .sqEnable _ _ => Foot.execSqEnable
  | .ringDisable _ _ => Foot.execRingDisable
  | .cqEqEnable _ _ => Foot.execCqEqEnable
  | .evtAck => Foot.execEvtAck
  | .setupLock => Foot.execSetupLock
  | .imageSealed => Foot.execImageSealed
  | .f2Clear => Foot.execF2Clear
  | .tickBoundary _ => Foot.execTickBoundary
  | .windowFreeze => Foot.execWindowFreeze
  | .signalPublish _ _ _ => Foot.execSignalPublish
  | .engineStart _ _ _ _ => Foot.execEngineStart
  | .votePhase _ _ => Foot.execVotePhase
  | .holdExpiry => Foot.execHoldExpiry
  | .shadowWatchEnd => Foot.execShadowWatchEnd
  | .engineDeadline => Foot.execEngineDeadline
  | .stateScrub => Foot.execStateScrub
  | .outputTransfer _ => Foot.execOutputTransfer
  | .engRunSet _ => Foot.execEngRunSet
  | .engBindWrite _ _ => Foot.execEngBindWrite
  | .timebaseRun _ _ => Foot.execTimebaseRun
  | .ldallWrite _ => Foot.execLdallWrite
  | .timebaseZero _ _ => Foot.execTimebaseZero
  | .halfPeriodPoint _ => Foot.execHalfPeriodPoint
  | .delayLineCalibrated _ => Foot.execDelayLineCalibrated
  | .gateReadbackFail _ => Foot.execGateReadbackFail
  | .tripFilterActive _ _ _ _ => Foot.execTripFilterActive
  | .tripFilterInactive _ _ _ _ => Foot.execTripFilterInactive
  | .comparatorCrossing _ _ _ _ => Foot.execComparatorCrossing
  | .safeReadbackFail _ _ => Foot.execSafeReadbackFail
  | .acqRunWrite => Foot.execAcqRunWrite
  | .sarConversionDone _ _ _ _ _ _ _ _ => Foot.execSarConversionDone
  | .spareShadowEnd _ => Foot.execSpareShadowEnd
  | .urgentRequest _ _ => Foot.execUrgentRequest
  | .urgentConversionDone _ _ _ _ => Foot.execUrgentConversionDone
  | .comparatorTestStep _ _ => Foot.execComparatorTestStep
  | .dsSincOutput _ => Foot.execDsSincOutput
  | .resolverPair _ _ _ _ _ => Foot.execResolverPair
  | .sincosPair _ _ _ _ => Foot.execSincosPair
  | .posEdgeAccepted _ _ _ _ => Foot.execPosEdgeAccepted
  | .posGlitch _ _ => Foot.execPosGlitch
  | .sentFrame _ _ _ _ _ _ _ _ => Foot.execSentFrame
  | .ssiFrameStart _ _ => Foot.execSsiFrameStart
  | .ssiFrame _ _ _ => Foot.execSsiFrame
  | .frameTimeout _ _ => Foot.execFrameTimeout
  | .coastExpired _ _ => Foot.execCoastExpired
  | .excFault _ _ => Foot.execExcFault
  | .sensvFault _ _ _ => Foot.execSensvFault
  | .sensvEnable _ => Foot.execSensvEnable
  | .wrapClear _ => Foot.execWrapClear
  | .angleEventArm _ _ => Foot.execAngleEventArm
  | .angleEventFire _ _ => Foot.execAngleEventFire
  | .sixstepCrossing _ _ => Foot.execSixstepCrossing
  | .watchEnd _ _ => Foot.execWatchEnd
  | .waitEnd _ _ => Foot.execWaitEnd
  | .catchEnd _ => Foot.execCatchEnd
  | .wghSelftest _ _ => Foot.execWghSelftest
  | .wghEnable _ _ => Foot.execWghEnable
  | .dischargeProgressCheck => Foot.execDischargeProgressCheck
  | .dischargeDeadline => Foot.execDischargeDeadline
  | .iskLinkEnable _ _ => Foot.execIskLinkEnable
  | .iskEdgePlanSend _ => Foot.execIskEdgePlanSend
  | .iskCollectionSend _ => Foot.execIskCollectionSend
  | .iskCollectionJudge _ _ _ => Foot.execIskCollectionJudge
  | .iskEnumeration _ _ _ => Foot.execIskEnumeration
  | .iskIdleHeartbeat _ _ => Foot.execIskIdleHeartbeat
  | .isk1Broadcast _ => Foot.execIsk1Broadcast
  | .isk1Poll _ _ _ => Foot.execIsk1Poll
  | .referenceLost => Foot.execReferenceLost
  | .referenceReturn _ _ _ => Foot.execReferenceReturn
  | .holdoverTimeout => Foot.execHoldoverTimeout
  | .pllFilterCheck _ _ _ => Foot.execPllFilterCheck
  | .pllLockDeclared _ _ => Foot.execPllLockDeclared
  | .pllUnlock _ _ => Foot.execPllUnlock
  | .pllFail _ _ _ => Foot.execPllFail
  | .pllQuarantineEnd _ _ => Foot.execPllQuarantineEnd
  | .pllProgramWrite _ _ _ => Foot.execPllProgramWrite
  | .tickInEdge _ => Foot.execTickInEdge
  | .tickInMissing => Foot.execTickInMissing
  | .rtcSourceSwitch => Foot.execRtcSourceSwitch
  | .tickcntLoRead => Foot.execTickcntLoRead
  | .rtcLoRead => Foot.execRtcLoRead
  | .mtimeLoRead => Foot.execMtimeLoRead
  | .canTxDoorbell _ _ => Foot.execCanTxDoorbell
  | .canRxConsumerWrite _ _ => Foot.execCanRxConsumerWrite
  | .canTxFetch _ => Foot.execCanTxFetch
  | .canTxresume _ => Foot.execCanTxresume
  | .canTxflush _ => Foot.execCanTxflush
  | .canInitSet _ _ => Foot.execCanInitSet
  | .canInitClear _ _ => Foot.execCanInitClear
  | .canFrameSent _ _ _ _ => Foot.execCanFrameSent
  | .canFrameReceived _ _ _ _ _ _ _ _ => Foot.execCanFrameReceived
  | .canRateCandidateSwitch _ => Foot.execCanRateCandidateSwitch
  | .canErrorStateChange _ _ _ _ => Foot.execCanErrorStateChange
  | .canBusRecovered _ => Foot.execCanBusRecovered
  | .canTxExpired _ _ => Foot.execCanTxExpired
  | .canTtCycleStart _ _ => Foot.execCanTtCycleStart
  | .canTtColumn _ _ => Foot.execCanTtColumn
  | .canTtWindowEnd _ _ => Foot.execCanTtWindowEnd
  | .canUnitFailure _ _ => Foot.execCanUnitFailure
  | .canSpareSwitchIn _ => Foot.execCanSpareSwitchIn
  | .canShadowEnd _ _ => Foot.execCanShadowEnd
  | .ethTxDoorbell _ _ => Foot.execEthTxDoorbell
  | .ethRxConsumerWrite _ _ => Foot.execEthRxConsumerWrite
  | .ethTxFetch _ => Foot.execEthTxFetch
  | .ethTxresume _ => Foot.execEthTxresume
  | .ethTxflush _ => Foot.execEthTxflush
  | .ethTxFrameSent _ _ _ _ => Foot.execEthTxFrameSent
  | .ethTxExpired _ _ => Foot.execEthTxExpired
  | .ethFrameReceived _ _ _ _ _ _ => Foot.execEthFrameReceived
  | .ethVtRateWrite _ => Foot.execEthVtRateWrite
  | .ethVtStep _ => Foot.execEthVtStep
  | .ethVtSet => Foot.execEthVtSet
  | .vtTimeout => Foot.execVtTimeout
  | .ethTvtTickRead => Foot.execEthTvtTickRead
  | .ethMdioCommand _ => Foot.execEthMdioCommand
  | .ethMdioDone _ => Foot.execEthMdioDone
  | .ethPhyInterrupt => Foot.execEthPhyInterrupt
  | .ethLinkChange _ _ => Foot.execEthLinkChange
  | .plcaBeaconLoss => Foot.execPlcaBeaconLoss
  | .plcaBeaconReturn => Foot.execPlcaBeaconReturn
  | .core1Start => Foot.execCore1Start
  | .cacheInvalidate _ _ _ => Foot.execCacheInvalidate
  | .irqClaim _ => Foot.execIrqClaim
  | .irqComplete _ _ => Foot.execIrqComplete
  | .semRead _ _ => Foot.execSemRead
  | .semFree _ _ _ => Foot.execSemFree
  | .wdogEnable _ _ => Foot.execWdogEnable
  | .wdogService _ _ _ _ => Foot.execWdogService
  | .wdogPrewarning _ => Foot.execWdogPrewarning
  | .wdogClose _ _ => Foot.execWdogClose
  | .wdogReset _ => Foot.execWdogReset
  | .xspCommand _ => Foot.execXspCommand
  | .xspCommandDone _ => Foot.execXspCommandDone
  | .xspReadTimeout _ _ => Foot.execXspReadTimeout
  | .gpioEdge _ _ => Foot.execGpioEdge
  | .bootOk => Foot.execBootOk
  | .bootCommit => Foot.execBootCommit
  | .chkAlgWrite _ _ => Foot.execChkAlgWrite
  | .chkSeedWrite _ _ => Foot.execChkSeedWrite
  | .chkDataWrite _ _ => Foot.execChkDataWrite
  | .chkDatabWrite _ _ => Foot.execChkDatabWrite
  | .chkResultRead _ => Foot.execChkResultRead
  | .scanPeriodStart _ => Foot.execScanPeriodStart
  | .scanGo _ => Foot.execScanGo
  | .scanTargetDone _ _ _ => Foot.execScanTargetDone
  | .rotationStep _ => Foot.execRotationStep
  | .rotationRetry _ => Foot.execRotationRetry
  | .bistComplete _ _ _ => Foot.execBistComplete
  | .bistAbort _ => Foot.execBistAbort
  | .quarantineEnd _ _ => Foot.execQuarantineEnd
  | .sramRowRepair _ _ _ => Foot.execSramRowRepair
  | .rowCopyDone _ => Foot.execRowCopyDone
  | .lcsTokenVerified => Foot.execLcsTokenVerified
  | .holdupReady _ => Foot.execHoldupReady
  | .holdupPeriodic _ => Foot.execHoldupPeriodic
  | .holdupCheckComplete _ _ _ _ => Foot.execHoldupCheckComplete
  | .vholdDrop _ => Foot.execVholdDrop
  | .supplyLoss _ => Foot.execSupplyLoss
  | .commitEnd => Foot.execCommitEnd
  | .ledgerUnitWritten => Foot.execLedgerUnitWritten
  | .ledgerOverflowEntry => Foot.execLedgerOverflowEntry
  | .ledgerExportRequest _ _ => Foot.execLedgerExportRequest
  | .dlinkFrameReceive _ _ _ _ _ => Foot.execDlinkFrameReceive
  | .dlinkHeartbeatTimeout _ => Foot.execDlinkHeartbeatTimeout
  | .fieldDieIdentity _ => Foot.execFieldDieIdentity
  | .powerOnReset => Foot.execPowerOnReset
  | .resetPin _ => Foot.execResetPin
  | .swsysWrite => Foot.execSwsysWrite
  | .swsubWrite _ => Foot.execSwsubWrite
  | .swsubDone => Foot.execSwsubDone
  | .lcsReset => Foot.execLcsReset
  | .resetRelease _ => Foot.execResetRelease
  | .marchDone _ _ _ => Foot.execMarchDone
  | .imageSealCheck => Foot.execImageSealCheck
  | .restoreGo => Foot.execRestoreGo
  | .restoreDone => Foot.execRestoreDone
  | .wake _ _ _ _ => Foot.execWake
  | .parkExit _ => Foot.execParkExit
  | .sleepPowerDown => Foot.execSleepPowerDown
  | .registerWrite _ _ _ _ => Foot.execRegisterWrite
  | .supplyMonitorChange _ _ => Foot.execSupplyMonitorChange
  | .dsBitSampled _ _ _ _ => Foot.execDsBitSampled
  | .mtimecmpReached _ _ => Foot.execMtimecmpReached
  | .coreMemoryAccess _ _ _ _ _ _ _ _ => Foot.execCoreMemoryAccess
  | .debugHalt _ _ => Foot.execDebugHalt
  | .tapInstruction _ => Foot.execTapInstruction
  | .canTxStart _ _ => Foot.execCanTxStart
  | .canBusError _ _ _ _ _ => Foot.execCanBusError
  | .canIntegrationDone _ => Foot.execCanIntegrationDone
  | .ethTxStart _ _ => Foot.execEthTxStart
  | .swsysResetAssert => Foot.execSwsysResetAssert

/-- Every command answers a next state within its mask. -/
theorem exec_frame (c : Instr) (s : State) : FrameO (Foot.ofCmd c) s (exec c s) := by
  cases c with
  | sqDoorbellWrite => exact execSqDoorbellWrite_frame
  | cqConsumerIndexWrite => exact execCqConsumerIndexWrite_frame
  | eqConsumerIndexWrite => exact execEqConsumerIndexWrite_frame
  | eqOverflow => exact execEqOverflow_frame
  | fetchSlot => exact execFetchSlot_frame
  | caravanCutoff => exact execCaravanCutoff_frame
  | caravanApplication => exact execCaravanApplication_frame
  | stoppedTickApplication => exact execStoppedTickApplication_frame
  | completionPosting => exact execCompletionPosting_frame
  | nop => exact execNop_frame
  | regWrite => exact execRegWrite_frame
  | regRead => exact execRegRead_frame
  | paramWrite => exact execParamWrite_frame
  | tableLoad => exact execTableLoad_frame
  | stallStart => exact execStallStart_frame
  | stallStop => exact execStallStop_frame
  | setpoint => exact execSetpoint_frame
  | scheduleSelect => exact execScheduleSelect_frame
  | outputEnable => exact execOutputEnable_frame
  | outputDisable => exact execOutputDisable_frame
  | carrierSet => exact execCarrierSet_frame
  | loadAll => exact execLoadAll_frame
  | tripClear => exact execTripClear_frame
  | safeRequest => exact execSafeRequest_frame
  | driveEnable => exact execDriveEnable_frame
  | discharge => exact execDischarge_frame
  | modeSet => exact execModeSet_frame
  | angleEvent => exact execAngleEvent_frame
  | channelReadmit => exact execChannelReadmit_frame
  | bistRequest => exact execBistRequest_frame
  | unitReadmit => exact execUnitReadmit_frame
  | lcsToken => exact execLcsToken_frame
  | holdupCheck => exact execHoldupCheck_frame
  | ledgerNote => exact execLedgerNote_frame
  | tickRealign => exact execTickRealign_frame
  | powerState => exact execPowerState_frame
  | scanStart => exact execScanStart_frame
  | resume => exact execResume_frame
  | flush => exact execFlush_frame
  | flushRecordPost => exact execFlushRecordPost_frame
  | clrcnt => exact execClrcnt_frame
  | sqEnable => exact execSqEnable_frame
  | ringDisable => exact execRingDisable_frame
  | cqEqEnable => exact execCqEqEnable_frame
  | evtAck => exact execEvtAck_frame
  | setupLock => exact execSetupLock_frame
  | imageSealed => exact execImageSealed_frame
  | f2Clear => exact execF2Clear_frame
  | tickBoundary => exact execTickBoundary_frame
  | windowFreeze => exact execWindowFreeze_frame
  | signalPublish => exact execSignalPublish_frame
  | engineStart => exact execEngineStart_frame
  | votePhase => exact execVotePhase_frame
  | holdExpiry => exact execHoldExpiry_frame
  | shadowWatchEnd => exact execShadowWatchEnd_frame
  | engineDeadline => exact execEngineDeadline_frame
  | stateScrub => exact execStateScrub_frame
  | outputTransfer => exact execOutputTransfer_frame
  | engRunSet => exact execEngRunSet_frame
  | engBindWrite => exact execEngBindWrite_frame
  | timebaseRun => exact execTimebaseRun_frame
  | ldallWrite => exact execLdallWrite_frame
  | timebaseZero => exact execTimebaseZero_frame
  | halfPeriodPoint => exact execHalfPeriodPoint_frame
  | delayLineCalibrated => exact execDelayLineCalibrated_frame
  | gateReadbackFail => exact execGateReadbackFail_frame
  | tripFilterActive => exact execTripFilterActive_frame
  | tripFilterInactive => exact execTripFilterInactive_frame
  | comparatorCrossing => exact execComparatorCrossing_frame
  | safeReadbackFail => exact execSafeReadbackFail_frame
  | acqRunWrite => exact execAcqRunWrite_frame
  | sarConversionDone => exact execSarConversionDone_frame
  | spareShadowEnd => exact execSpareShadowEnd_frame
  | urgentRequest => exact execUrgentRequest_frame
  | urgentConversionDone => exact execUrgentConversionDone_frame
  | comparatorTestStep => exact execComparatorTestStep_frame
  | dsSincOutput => exact execDsSincOutput_frame
  | resolverPair => exact execResolverPair_frame
  | sincosPair => exact execSincosPair_frame
  | posEdgeAccepted => exact execPosEdgeAccepted_frame
  | posGlitch => exact execPosGlitch_frame
  | sentFrame => exact execSentFrame_frame
  | ssiFrameStart => exact execSsiFrameStart_frame
  | ssiFrame => exact execSsiFrame_frame
  | frameTimeout => exact execFrameTimeout_frame
  | coastExpired => exact execCoastExpired_frame
  | excFault => exact execExcFault_frame
  | sensvFault => exact execSensvFault_frame
  | sensvEnable => exact execSensvEnable_frame
  | wrapClear => exact execWrapClear_frame
  | angleEventArm => exact execAngleEventArm_frame
  | angleEventFire => exact execAngleEventFire_frame
  | sixstepCrossing => exact execSixstepCrossing_frame
  | watchEnd => exact execWatchEnd_frame
  | waitEnd => exact execWaitEnd_frame
  | catchEnd => exact execCatchEnd_frame
  | wghSelftest => exact execWghSelftest_frame
  | wghEnable => exact execWghEnable_frame
  | dischargeProgressCheck => exact execDischargeProgressCheck_frame
  | dischargeDeadline => exact execDischargeDeadline_frame
  | iskLinkEnable => exact execIskLinkEnable_frame
  | iskEdgePlanSend => exact execIskEdgePlanSend_frame
  | iskCollectionSend => exact execIskCollectionSend_frame
  | iskCollectionJudge => exact execIskCollectionJudge_frame
  | iskEnumeration => exact execIskEnumeration_frame
  | iskIdleHeartbeat => exact execIskIdleHeartbeat_frame
  | isk1Broadcast => exact execIsk1Broadcast_frame
  | isk1Poll => exact execIsk1Poll_frame
  | referenceLost => exact execReferenceLost_frame
  | referenceReturn => exact execReferenceReturn_frame
  | holdoverTimeout => exact execHoldoverTimeout_frame
  | pllFilterCheck => exact execPllFilterCheck_frame
  | pllLockDeclared => exact execPllLockDeclared_frame
  | pllUnlock => exact execPllUnlock_frame
  | pllFail => exact execPllFail_frame
  | pllQuarantineEnd => exact execPllQuarantineEnd_frame
  | pllProgramWrite => exact execPllProgramWrite_frame
  | tickInEdge => exact execTickInEdge_frame
  | tickInMissing => exact execTickInMissing_frame
  | rtcSourceSwitch => exact execRtcSourceSwitch_frame
  | tickcntLoRead => exact execTickcntLoRead_frame
  | rtcLoRead => exact execRtcLoRead_frame
  | mtimeLoRead => exact execMtimeLoRead_frame
  | canTxDoorbell => exact execCanTxDoorbell_frame
  | canRxConsumerWrite => exact execCanRxConsumerWrite_frame
  | canTxFetch => exact execCanTxFetch_frame
  | canTxresume => exact execCanTxresume_frame
  | canTxflush => exact execCanTxflush_frame
  | canInitSet => exact execCanInitSet_frame
  | canInitClear => exact execCanInitClear_frame
  | canFrameSent => exact execCanFrameSent_frame
  | canFrameReceived => exact execCanFrameReceived_frame
  | canRateCandidateSwitch => exact execCanRateCandidateSwitch_frame
  | canErrorStateChange => exact execCanErrorStateChange_frame
  | canBusRecovered => exact execCanBusRecovered_frame
  | canTxExpired => exact execCanTxExpired_frame
  | canTtCycleStart => exact execCanTtCycleStart_frame
  | canTtColumn => exact execCanTtColumn_frame
  | canTtWindowEnd => exact execCanTtWindowEnd_frame
  | canUnitFailure => exact execCanUnitFailure_frame
  | canSpareSwitchIn => exact execCanSpareSwitchIn_frame
  | canShadowEnd => exact execCanShadowEnd_frame
  | ethTxDoorbell => exact execEthTxDoorbell_frame
  | ethRxConsumerWrite => exact execEthRxConsumerWrite_frame
  | ethTxFetch => exact execEthTxFetch_frame
  | ethTxresume => exact execEthTxresume_frame
  | ethTxflush => exact execEthTxflush_frame
  | ethTxFrameSent => exact execEthTxFrameSent_frame
  | ethTxExpired => exact execEthTxExpired_frame
  | ethFrameReceived => exact execEthFrameReceived_frame
  | ethVtRateWrite => exact execEthVtRateWrite_frame
  | ethVtStep => exact execEthVtStep_frame
  | ethVtSet => exact execEthVtSet_frame
  | vtTimeout => exact execVtTimeout_frame
  | ethTvtTickRead => exact execEthTvtTickRead_frame
  | ethMdioCommand => exact execEthMdioCommand_frame
  | ethMdioDone => exact execEthMdioDone_frame
  | ethPhyInterrupt => exact execEthPhyInterrupt_frame
  | ethLinkChange => exact execEthLinkChange_frame
  | plcaBeaconLoss => exact execPlcaBeaconLoss_frame
  | plcaBeaconReturn => exact execPlcaBeaconReturn_frame
  | core1Start => exact execCore1Start_frame
  | cacheInvalidate => exact execCacheInvalidate_frame
  | irqClaim => exact execIrqClaim_frame
  | irqComplete => exact execIrqComplete_frame
  | semRead => exact execSemRead_frame
  | semFree => exact execSemFree_frame
  | wdogEnable => exact execWdogEnable_frame
  | wdogService => exact execWdogService_frame
  | wdogPrewarning => exact execWdogPrewarning_frame
  | wdogClose => exact execWdogClose_frame
  | wdogReset => exact execWdogReset_frame
  | xspCommand => exact execXspCommand_frame
  | xspCommandDone => exact execXspCommandDone_frame
  | xspReadTimeout => exact execXspReadTimeout_frame
  | gpioEdge => exact execGpioEdge_frame
  | bootOk => exact execBootOk_frame
  | bootCommit => exact execBootCommit_frame
  | chkAlgWrite => exact execChkAlgWrite_frame
  | chkSeedWrite => exact execChkSeedWrite_frame
  | chkDataWrite => exact execChkDataWrite_frame
  | chkDatabWrite => exact execChkDatabWrite_frame
  | chkResultRead => exact execChkResultRead_frame
  | scanPeriodStart => exact execScanPeriodStart_frame
  | scanGo => exact execScanGo_frame
  | scanTargetDone => exact execScanTargetDone_frame
  | rotationStep => exact execRotationStep_frame
  | rotationRetry => exact execRotationRetry_frame
  | bistComplete => exact execBistComplete_frame
  | bistAbort => exact execBistAbort_frame
  | quarantineEnd => exact execQuarantineEnd_frame
  | sramRowRepair => exact execSramRowRepair_frame
  | rowCopyDone => exact execRowCopyDone_frame
  | lcsTokenVerified => exact execLcsTokenVerified_frame
  | holdupReady => exact execHoldupReady_frame
  | holdupPeriodic => exact execHoldupPeriodic_frame
  | holdupCheckComplete => exact execHoldupCheckComplete_frame
  | vholdDrop => exact execVholdDrop_frame
  | supplyLoss => exact execSupplyLoss_frame
  | commitEnd => exact execCommitEnd_frame
  | ledgerUnitWritten => exact execLedgerUnitWritten_frame
  | ledgerOverflowEntry => exact execLedgerOverflowEntry_frame
  | ledgerExportRequest => exact execLedgerExportRequest_frame
  | dlinkFrameReceive => exact execDlinkFrameReceive_frame
  | dlinkHeartbeatTimeout => exact execDlinkHeartbeatTimeout_frame
  | fieldDieIdentity => exact execFieldDieIdentity_frame
  | powerOnReset => exact execPowerOnReset_frame
  | resetPin => exact execResetPin_frame
  | swsysWrite => exact execSwsysWrite_frame
  | swsubWrite => exact execSwsubWrite_frame
  | swsubDone => exact execSwsubDone_frame
  | lcsReset => exact execLcsReset_frame
  | resetRelease => exact execResetRelease_frame
  | marchDone => exact execMarchDone_frame
  | imageSealCheck => exact execImageSealCheck_frame
  | restoreGo => exact execRestoreGo_frame
  | restoreDone => exact execRestoreDone_frame
  | wake => exact execWake_frame
  | parkExit => exact execParkExit_frame
  | sleepPowerDown => exact execSleepPowerDown_frame
  | registerWrite => exact execRegisterWrite_frame
  | supplyMonitorChange => exact execSupplyMonitorChange_frame
  | dsBitSampled => exact execDsBitSampled_frame
  | mtimecmpReached => exact execMtimecmpReached_frame
  | coreMemoryAccess => exact execCoreMemoryAccess_frame
  | debugHalt => exact execDebugHalt_frame
  | tapInstruction => exact execTapInstruction_frame
  | canTxStart => exact execCanTxStart_frame
  | canBusError => exact execCanBusError_frame
  | canIntegrationDone => exact execCanIntegrationDone_frame
  | ethTxStart => exact execEthTxStart_frame
  | swsysResetAssert => exact execSwsysResetAssert_frame

/-! ### Soundness kept -/

/-- Nothing is left open by an outcome. -/
def ShutO : Host.Outcome State Fault Refusal → Prop
  | .next t => t.batch = none
  | _ => True

theorem ShutO.ite {c : Prop} [Decidable c] {x y : Host.Outcome State Fault Refusal} (h1 : ShutO x) (h2 : ShutO y) :
    ShutO (if c then x else y) := by split <;> assumption

theorem execTickBoundary_shut {flips : List BankFlip} {s : State} (hb : s.batch = none) :
    ShutO (execTickBoundary flips s) := by
  unfold execTickBoundary
  refine ShutO.ite ?_ hb
  show (s.boundary flips).batch = none
  unfold State.boundary
  exact (State.parkBoundary_frame).shut (by decide) (State.closeBatch_none _)

theorem execSignalPublish_shut {p tc tf : Word} {s : State} : ShutO (execSignalPublish p tc tf s) := by
  unfold execSignalPublish
  exact State.closeBatch_none _

theorem execEngineStart_shut {u : List Upset} {st : Option EngineStop} {m l : Nat} {s : State} (hb : s.batch = none) :
    ShutO (execEngineStart u st m l s) := by
  unfold execEngineStart
  refine ShutO.ite hb ?_
  extract_lets s1
  have h1 : s1.batch = none := State.closeBatch_none _
  clear_value s1
  exact (State.startEngine_frame).shut (by decide) ((State.publishNext_frame).shut (by decide) h1)

theorem exec_shut_of {c : Instr} {s t : State} (hc : (Foot.ofCmd c).testBit bit_open = false) (e : exec c s = .next t)
    (hb : s.batch = none) : t.batch = none := by
  have hf := exec_frame c s
  rw [e] at hf
  exact hf.shut hc hb

/-- No command leaves a finding open. -/
theorem exec_shut {c : Instr} {s t : State} (e : exec c s = .next t) (hb : s.batch = none) : t.batch = none := by
  cases c
  case tickBoundary flips =>
    have h : ShutO (exec (.tickBoundary flips) s) := execTickBoundary_shut hb
    rw [e] at h
    exact h
  case signalPublish p tc tf =>
    have h : ShutO (exec (.signalPublish p tc tf) s) := execSignalPublish_shut
    rw [e] at h
    exact h
  case engineStart u st m l =>
    have h : ShutO (exec (.engineStart u st m l) s) := execEngineStart_shut hb
    rw [e] at h
    exact h
  all_goals exact exec_shut_of (by simp only [Foot.ofCmd]; decide) e hb

/-- A command answers a next state, and leaves the queue as it is. -/
theorem exec_next (c : Instr) (s : State) : ∃ t, exec c s = .next t ∧ Frame (Foot.ofCmd c) s t := by
  have h := exec_frame c s
  cases e : exec c s with
  | next t => rw [e] at h; exact ⟨t, rfl, h⟩
  | fault f => rw [e] at h; exact h.elim
  | refused r => rw [e] at h; exact h.elim

theorem exec_sound {c : Instr} {s t : State} (hs : s.Sound) (e : exec c s = .next t) : t.Sound := by
  have h := exec_frame c s
  rw [e] at h
  exact ⟨h.inv hs.1, exec_shut e hs.2⟩

end Sys2Proof.Machine
end

