-- ==== Sys2Proof/Laws/State.lean ====
section
/-! SUPPORT. Fields of words; what the operations on registers, memory, signal board, rings and time leave of each
field of the state, and what a read gives after a write. -/

set_option Elab.async false

namespace Sys2Proof

/-! ### Fields of a word -/

theorem Bits.testBit_of (f : Bits) (w : Word) (i : Nat) :
    (f.of w).testBit i = (decide (i < f.width) && w.getLsbD (f.lo + i)) := by
  rw [Bits.of, Nat.testBit_mod_two_pow, Nat.testBit_div_two_pow, BitVec.testBit_toNat, Nat.add_comm]

theorem Bits.getLsbD_mask (f : Bits) (i : Nat) :
    f.mask.getLsbD i = (decide (i < 32) && decide (f.lo ≤ i) && decide (i < f.lo + f.width)) := by
  rw [Bits.mask, BitVec.getLsbD_ofNat, Nat.testBit_mul_two_pow, Nat.testBit_two_pow_sub_one]
  by_cases h1 : i < 32 <;> by_cases h2 : f.lo ≤ i <;> by_cases h3 : i < f.lo + f.width <;> simp [h1, h2, h3] <;> omega

theorem Bits.getLsbD_put (f : Bits) (v : Nat) (w : Word) (i : Nat) (hi : i < 32) :
    (f.put v w).getLsbD i = if f.lo ≤ i ∧ i < f.lo + f.width then v.testBit (i - f.lo) else w.getLsbD i := by
  rw [Bits.put, BitVec.getLsbD_or, BitVec.getLsbD_and, BitVec.getLsbD_not, Bits.getLsbD_mask, BitVec.getLsbD_ofNat,
    Nat.testBit_mul_two_pow, Nat.testBit_mod_two_pow]
  by_cases h2 : f.lo ≤ i <;> by_cases h3 : i < f.lo + f.width <;> simp [hi, h2, h3] <;> omega

/-- A field reads as what was put into it. -/
theorem Bits.of_put (f : Bits) (v : Nat) (w : Word) (h : f.lo + f.width ≤ 32 := by decide) :
    f.of (f.put v w) = v % 2 ^ f.width := by
  apply Nat.eq_of_testBit_eq
  intro i
  rw [Bits.testBit_of, Nat.testBit_mod_two_pow]
  by_cases hi : i < f.width
  · rw [Bits.getLsbD_put _ _ _ _ (by omega), if_pos ⟨by omega, by omega⟩]
    simp [hi]
  · simp [hi]

/-- Every other field keeps its value. -/
theorem Bits.of_put_other {f g : Bits} (v : Nat) (w : Word)
    (hfg : f.lo + f.width ≤ g.lo ∨ g.lo + g.width ≤ f.lo := by decide) : g.of (f.put v w) = g.of w := by
  apply Nat.eq_of_testBit_eq
  intro i
  rw [Bits.testBit_of, Bits.testBit_of]
  by_cases hi : i < g.width
  · by_cases h32 : g.lo + i < 32
    · rw [Bits.getLsbD_put _ _ _ _ h32, if_neg (by omega)]
    · rw [BitVec.getLsbD_of_ge _ _ (by omega), BitVec.getLsbD_of_ge _ _ (by omega)]
  · simp [hi]

/-- A field alone. -/
theorem Bits.of_only (f : Bits) (v : Nat) (h : f.lo + f.width ≤ 32 := by decide) : f.of (f.only v) = v % 2 ^ f.width :=
  f.of_put v 0 h

theorem Bits.of_only_other {f g : Bits} (v : Nat)
    (hfg : f.lo + f.width ≤ g.lo ∨ g.lo + g.width ≤ f.lo := by decide) : g.of (f.only v) = 0 := by
  rw [Bits.only, Bits.of_put_other v 0 hfg]
  simp [Bits.of]

/-- A one-bit field is set or clear. -/
theorem Bits.on_iff (f : Bits) (w : Word) : f.on w = true ↔ f.of w ≠ 0 := by simp [Bits.on]

namespace Machine

/-! ### Registers -/

@[simp] theorem State.reg_setReg_same (s : State) (a : Nat) (w : Word) : (s.setReg a w).reg a = w :=
  Store.get_set_same _ _ _ _

theorem State.reg_setReg_other (s : State) {a b : Nat} (w : Word) (h : b ≠ a) : (s.setReg a w).reg b = s.reg b :=
  Store.get_set_other _ _ _ h

theorem State.reg_setFld_other (s : State) {a b : Nat} (f : Bits) (v : Nat) (h : b ≠ a) :
    (s.setFld a f v).reg b = s.reg b := s.reg_setReg_other _ h

theorem State.fld_setReg_same (s : State) (a : Nat) (w : Word) (f : Bits) : (s.setReg a w).fld a f = f.of w := by
  rw [State.fld, State.reg_setReg_same]

theorem State.fld_setReg_other (s : State) {a b : Nat} (w : Word) (f : Bits) (h : b ≠ a) :
    (s.setReg a w).fld b f = s.fld b f := by
  rw [State.fld, State.reg_setReg_other _ _ h]; rfl

theorem State.fld_setFld (s : State) (a : Nat) (f : Bits) (v : Nat) (h : f.lo + f.width ≤ 32 := by decide) :
    (s.setFld a f v).fld a f = v % 2 ^ f.width := by
  rw [State.setFld, State.fld_setReg_same, Bits.of_put _ _ _ h]

theorem State.fld_setFld_field (s : State) (a : Nat) {f g : Bits} (v : Nat)
    (h : f.lo + f.width ≤ g.lo ∨ g.lo + g.width ≤ f.lo := by decide) : (s.setFld a f v).fld a g = s.fld a g := by
  rw [State.setFld, State.fld_setReg_same, Bits.of_put_other _ _ h]; rfl

theorem State.fld_setFld_other (s : State) {a b : Nat} (f g : Bits) (v : Nat) (h : b ≠ a) :
    (s.setFld a f v).fld b g = s.fld b g := s.fld_setReg_other _ _ h

theorem State.fld_count (s : State) (a : Nat) (f : Bits) (n : Nat) (h : f.lo + f.width ≤ 32 := by decide) :
    (s.count a f n).fld a f = satAdd f.width (s.fld a f) n := by
  rw [State.count, State.fld_setFld _ _ _ _ h, Nat.mod_eq_of_lt]
  unfold satAdd
  have := Nat.two_pow_pos f.width
  omega

theorem State.on_iff (s : State) (a : Nat) (f : Bits) : s.on a f = true ↔ s.fld a f ≠ 0 := by simp [State.on]

/-! ### Signal board and memory -/

@[simp] theorem State.sig_publish_same (s : State) (a : Nat) (w : Word) : (s.publish a w).sig a = w :=
  Store.get_set_same _ _ _ _

theorem State.sig_publish_other (s : State) {a b : Nat} (w : Word) (h : b ≠ a) : (s.publish a w).sig b = s.sig b :=
  Store.get_set_other _ _ _ h

@[simp] theorem State.byte_setByte_same (s : State) (a : Nat) (v : Byte) : (s.setByte a v).byte a = v :=
  Store.get_set_same _ _ _ _

theorem State.byte_setByte_other (s : State) {a b : Nat} (v : Byte) (h : b ≠ a) : (s.setByte a v).byte b = s.byte b :=
  Store.get_set_other _ _ _ h

/-- Memory after one write of a word. -/
theorem State.byte_setWord (s : State) (a b : Nat) (w : Word) : (s.setWord a w).byte b =
    if b = a + 3 then w.extractLsb' 24 8 else if b = a + 2 then w.extractLsb' 16 8
    else if b = a + 1 then w.extractLsb' 8 8 else if b = a then w.extractLsb' 0 8 else s.byte b := by
  show ((((s.setByte a _).setByte (a + 1) _).setByte (a + 1 + 1) _).setByte (a + 1 + 1 + 1) _).byte b = _
  rw [State.byte, State.setByte, Store.get_set, ← State.byte]
  rw [State.byte, State.setByte, Store.get_set, ← State.byte]
  rw [State.byte, State.setByte, Store.get_set, ← State.byte]
  rw [State.byte, State.setByte, Store.get_set, ← State.byte]

theorem join_bytes (w : Word) :
    w.extractLsb' 24 8 ++ w.extractLsb' 16 8 ++ w.extractLsb' 8 8 ++ w.extractLsb' 0 8 = w := by
  ext i hi
  simp only [BitVec.getElem_append, BitVec.getElem_extractLsb']
  split
  · simp [BitVec.getLsbD_eq_getElem hi]
  split
  · rw [BitVec.getLsbD_eq_getElem (by omega)]; congr 1; omega
  split
  · rw [BitVec.getLsbD_eq_getElem (by omega)]; congr 1; omega
  · rw [BitVec.getLsbD_eq_getElem (by omega)]; congr 1; omega

theorem State.word_setWord_same (s : State) (a : Nat) (w : Word) : (s.setWord a w).word a = w := by
  rw [State.word, byte_setWord, byte_setWord, byte_setWord, byte_setWord, if_pos rfl, if_neg (by omega), if_pos rfl,
    if_neg (by omega), if_neg (by omega), if_pos rfl, if_neg (by omega), if_neg (by omega), if_neg (by omega), if_pos rfl]
  exact join_bytes w

theorem State.word_setWord_other (s : State) {a b : Nat} (w : Word) (h : b + 4 ≤ a ∨ a + 4 ≤ b) :
    (s.setWord a w).word b = s.word b := by
  have key : ∀ i, i < 4 → (s.setWord a w).byte (b + i) = s.byte (b + i) := by
    intro i hi
    rw [byte_setWord, if_neg (by omega), if_neg (by omega), if_neg (by omega), if_neg (by omega)]
  rw [State.word, key 3 (by omega), key 2 (by omega), key 1 (by omega)]
  have := key 0 (by omega)
  rw [Nat.add_zero] at this
  rw [this]
  rfl

/-! ### What each operation leaves of the state -/

@[simp] theorem State.setReg_mem (s : State) (a : Nat) (w : Word) : (s.setReg a w).mem = s.mem := rfl
@[simp] theorem State.setReg_board (s : State) (a : Nat) (w : Word) : (s.setReg a w).board = s.board := rfl
@[simp] theorem State.setReg_now (s : State) (a : Nat) (w : Word) : (s.setReg a w).now = s.now := rfl
@[simp] theorem State.setReg_t0 (s : State) (a : Nat) (w : Word) : (s.setReg a w).t0 = s.t0 := rfl
@[simp] theorem State.setReg_prevLen (s : State) (a : Nat) (w : Word) : (s.setReg a w).prevLen = s.prevLen := rfl
@[simp] theorem State.setReg_tick (s : State) (a : Nat) (w : Word) : (s.setReg a w).tick = s.tick := rfl
@[simp] theorem State.setReg_clk (s : State) (a : Nat) (w : Word) : (s.setReg a w).clk = s.clk := rfl
@[simp] theorem State.setReg_vt (s : State) (a : Nat) (w : Word) : (s.setReg a w).vt = s.vt := rfl
@[simp] theorem State.setReg_cmd (s : State) (a : Nat) (w : Word) : (s.setReg a w).cmd = s.cmd := rfl
@[simp] theorem State.setReg_faults (s : State) (a : Nat) (w : Word) : (s.setReg a w).faults = s.faults := rfl
@[simp] theorem State.setReg_led (s : State) (a : Nat) (w : Word) : (s.setReg a w).led = s.led := rfl
@[simp] theorem State.setReg_dlink (s : State) (a : Nat) (w : Word) : (s.setReg a w).dlink = s.dlink := rfl
@[simp] theorem State.setReg_prot (s : State) (a : Nat) (w : Word) : (s.setReg a w).prot = s.prot := rfl
@[simp] theorem State.setReg_pwm (s : State) (a : Nat) (w : Word) : (s.setReg a w).pwm = s.pwm := rfl
@[simp] theorem State.setReg_dis (s : State) (a : Nat) (w : Word) : (s.setReg a w).dis = s.dis := rfl
@[simp] theorem State.setReg_acq (s : State) (a : Nat) (w : Word) : (s.setReg a w).acq = s.acq := rfl
@[simp] theorem State.setReg_pos (s : State) (a : Nat) (w : Word) : (s.setReg a w).pos = s.pos := rfl
@[simp] theorem State.setReg_fldc (s : State) (a : Nat) (w : Word) : (s.setReg a w).fldc = s.fldc := rfl
@[simp] theorem State.setReg_wgh (s : State) (a : Nat) (w : Word) : (s.setReg a w).wgh = s.wgh := rfl
@[simp] theorem State.setReg_isk (s : State) (a : Nat) (w : Word) : (s.setReg a w).isk = s.isk := rfl
@[simp] theorem State.setReg_thm (s : State) (a : Nat) (w : Word) : (s.setReg a w).thm = s.thm := rfl
@[simp] theorem State.setReg_can (s : State) (a : Nat) (w : Word) : (s.setReg a w).can = s.can := rfl
@[simp] theorem State.setReg_eth (s : State) (a : Nat) (w : Word) : (s.setReg a w).eth = s.eth := rfl
@[simp] theorem State.setReg_hic (s : State) (a : Nat) (w : Word) : (s.setReg a w).hic = s.hic := rfl
@[simp] theorem State.setReg_pwr (s : State) (a : Nat) (w : Word) : (s.setReg a w).pwr = s.pwr := rfl
@[simp] theorem State.setReg_eng (s : State) (a : Nat) (w : Word) : (s.setReg a w).eng = s.eng := rfl
@[simp] theorem State.setReg_image (s : State) (a : Nat) (w : Word) : (s.setReg a w).image = s.image := rfl
@[simp] theorem State.setReg_bst (s : State) (a : Nat) (w : Word) : (s.setReg a w).bst = s.bst := rfl
@[simp] theorem State.setReg_chk (s : State) (a : Nat) (w : Word) : (s.setReg a w).chk = s.chk := rfl
@[simp] theorem State.setReg_batch (s : State) (a : Nat) (w : Word) : (s.setReg a w).batch = s.batch := rfl
@[simp] theorem State.setReg_bus (s : State) (a : Nat) (w : Word) : (s.setReg a w).bus = s.bus := rfl
@[simp] theorem State.setReg_free (s : State) (a : Nat) (w : Word) : (s.setReg a w).free = s.free := rfl
@[simp] theorem State.setReg_pending (s : State) (a : Nat) (w : Word) : (s.setReg a w).pending = s.pending := rfl

@[simp] theorem State.setFld_mem (s : State) (a : Nat) (f : Bits) (v : Nat) : (s.setFld a f v).mem = s.mem := rfl
@[simp] theorem State.setFld_board (s : State) (a : Nat) (f : Bits) (v : Nat) : (s.setFld a f v).board = s.board := rfl
@[simp] theorem State.setFld_now (s : State) (a : Nat) (f : Bits) (v : Nat) : (s.setFld a f v).now = s.now := rfl
@[simp] theorem State.setFld_t0 (s : State) (a : Nat) (f : Bits) (v : Nat) : (s.setFld a f v).t0 = s.t0 := rfl
@[simp] theorem State.setFld_prevLen (s : State) (a : Nat) (f : Bits) (v : Nat) : (s.setFld a f v).prevLen = s.prevLen := rfl
@[simp] theorem State.setFld_tick (s : State) (a : Nat) (f : Bits) (v : Nat) : (s.setFld a f v).tick = s.tick := rfl
@[simp] theorem State.setFld_clk (s : State) (a : Nat) (f : Bits) (v : Nat) : (s.setFld a f v).clk = s.clk := rfl
@[simp] theorem State.setFld_vt (s : State) (a : Nat) (f : Bits) (v : Nat) : (s.setFld a f v).vt = s.vt := rfl
@[simp] theorem State.setFld_cmd (s : State) (a : Nat) (f : Bits) (v : Nat) : (s.setFld a f v).cmd = s.cmd := rfl
@[simp] theorem State.setFld_faults (s : State) (a : Nat) (f : Bits) (v : Nat) : (s.setFld a f v).faults = s.faults := rfl
@[simp] theorem State.setFld_led (s : State) (a : Nat) (f : Bits) (v : Nat) : (s.setFld a f v).led = s.led := rfl
@[simp] theorem State.setFld_dlink (s : State) (a : Nat) (f : Bits) (v : Nat) : (s.setFld a f v).dlink = s.dlink := rfl
@[simp] theorem State.setFld_prot (s : State) (a : Nat) (f : Bits) (v : Nat) : (s.setFld a f v).prot = s.prot := rfl
@[simp] theorem State.setFld_pwm (s : State) (a : Nat) (f : Bits) (v : Nat) : (s.setFld a f v).pwm = s.pwm := rfl
@[simp] theorem State.setFld_dis (s : State) (a : Nat) (f : Bits) (v : Nat) : (s.setFld a f v).dis = s.dis := rfl
@[simp] theorem State.setFld_acq (s : State) (a : Nat) (f : Bits) (v : Nat) : (s.setFld a f v).acq = s.acq := rfl
@[simp] theorem State.setFld_pos (s : State) (a : Nat) (f : Bits) (v : Nat) : (s.setFld a f v).pos = s.pos := rfl
@[simp] theorem State.setFld_fldc (s : State) (a : Nat) (f : Bits) (v : Nat) : (s.setFld a f v).fldc = s.fldc := rfl
@[simp] theorem State.setFld_wgh (s : State) (a : Nat) (f : Bits) (v : Nat) : (s.setFld a f v).wgh = s.wgh := rfl
@[simp] theorem State.setFld_isk (s : State) (a : Nat) (f : Bits) (v : Nat) : (s.setFld a f v).isk = s.isk := rfl
@[simp] theorem State.setFld_thm (s : State) (a : Nat) (f : Bits) (v : Nat) : (s.setFld a f v).thm = s.thm := rfl
@[simp] theorem State.setFld_can (s : State) (a : Nat) (f : Bits) (v : Nat) : (s.setFld a f v).can = s.can := rfl
@[simp] theorem State.setFld_eth (s : State) (a : Nat) (f : Bits) (v : Nat) : (s.setFld a f v).eth = s.eth := rfl
@[simp] theorem State.setFld_hic (s : State) (a : Nat) (f : Bits) (v : Nat) : (s.setFld a f v).hic = s.hic := rfl
@[simp] theorem State.setFld_pwr (s : State) (a : Nat) (f : Bits) (v : Nat) : (s.setFld a f v).pwr = s.pwr := rfl
@[simp] theorem State.setFld_eng (s : State) (a : Nat) (f : Bits) (v : Nat) : (s.setFld a f v).eng = s.eng := rfl
@[simp] theorem State.setFld_image (s : State) (a : Nat) (f : Bits) (v : Nat) : (s.setFld a f v).image = s.image := rfl
@[simp] theorem State.setFld_bst (s : State) (a : Nat) (f : Bits) (v : Nat) : (s.setFld a f v).bst = s.bst := rfl
@[simp] theorem State.setFld_chk (s : State) (a : Nat) (f : Bits) (v : Nat) : (s.setFld a f v).chk = s.chk := rfl
@[simp] theorem State.setFld_batch (s : State) (a : Nat) (f : Bits) (v : Nat) : (s.setFld a f v).batch = s.batch := rfl
@[simp] theorem State.setFld_bus (s : State) (a : Nat) (f : Bits) (v : Nat) : (s.setFld a f v).bus = s.bus := rfl
@[simp] theorem State.setFld_free (s : State) (a : Nat) (f : Bits) (v : Nat) : (s.setFld a f v).free = s.free := rfl
@[simp] theorem State.setFld_pending (s : State) (a : Nat) (f : Bits) (v : Nat) : (s.setFld a f v).pending = s.pending := rfl

@[simp] theorem State.count_mem (s : State) (a : Nat) (f : Bits) (n : Nat) : (s.count a f n).mem = s.mem := rfl
@[simp] theorem State.count_board (s : State) (a : Nat) (f : Bits) (n : Nat) : (s.count a f n).board = s.board := rfl
@[simp] theorem State.count_now (s : State) (a : Nat) (f : Bits) (n : Nat) : (s.count a f n).now = s.now := rfl
@[simp] theorem State.count_t0 (s : State) (a : Nat) (f : Bits) (n : Nat) : (s.count a f n).t0 = s.t0 := rfl
@[simp] theorem State.count_prevLen (s : State) (a : Nat) (f : Bits) (n : Nat) : (s.count a f n).prevLen = s.prevLen := rfl
@[simp] theorem State.count_tick (s : State) (a : Nat) (f : Bits) (n : Nat) : (s.count a f n).tick = s.tick := rfl
@[simp] theorem State.count_clk (s : State) (a : Nat) (f : Bits) (n : Nat) : (s.count a f n).clk = s.clk := rfl
@[simp] theorem State.count_vt (s : State) (a : Nat) (f : Bits) (n : Nat) : (s.count a f n).vt = s.vt := rfl
@[simp] theorem State.count_cmd (s : State) (a : Nat) (f : Bits) (n : Nat) : (s.count a f n).cmd = s.cmd := rfl
@[simp] theorem State.count_faults (s : State) (a : Nat) (f : Bits) (n : Nat) : (s.count a f n).faults = s.faults := rfl
@[simp] theorem State.count_led (s : State) (a : Nat) (f : Bits) (n : Nat) : (s.count a f n).led = s.led := rfl
@[simp] theorem State.count_dlink (s : State) (a : Nat) (f : Bits) (n : Nat) : (s.count a f n).dlink = s.dlink := rfl
@[simp] theorem State.count_prot (s : State) (a : Nat) (f : Bits) (n : Nat) : (s.count a f n).prot = s.prot := rfl
@[simp] theorem State.count_pwm (s : State) (a : Nat) (f : Bits) (n : Nat) : (s.count a f n).pwm = s.pwm := rfl
@[simp] theorem State.count_dis (s : State) (a : Nat) (f : Bits) (n : Nat) : (s.count a f n).dis = s.dis := rfl
@[simp] theorem State.count_acq (s : State) (a : Nat) (f : Bits) (n : Nat) : (s.count a f n).acq = s.acq := rfl
@[simp] theorem State.count_pos (s : State) (a : Nat) (f : Bits) (n : Nat) : (s.count a f n).pos = s.pos := rfl
@[simp] theorem State.count_fldc (s : State) (a : Nat) (f : Bits) (n : Nat) : (s.count a f n).fldc = s.fldc := rfl
@[simp] theorem State.count_wgh (s : State) (a : Nat) (f : Bits) (n : Nat) : (s.count a f n).wgh = s.wgh := rfl
@[simp] theorem State.count_isk (s : State) (a : Nat) (f : Bits) (n : Nat) : (s.count a f n).isk = s.isk := rfl
@[simp] theorem State.count_thm (s : State) (a : Nat) (f : Bits) (n : Nat) : (s.count a f n).thm = s.thm := rfl
@[simp] theorem State.count_can (s : State) (a : Nat) (f : Bits) (n : Nat) : (s.count a f n).can = s.can := rfl
@[simp] theorem State.count_eth (s : State) (a : Nat) (f : Bits) (n : Nat) : (s.count a f n).eth = s.eth := rfl
@[simp] theorem State.count_hic (s : State) (a : Nat) (f : Bits) (n : Nat) : (s.count a f n).hic = s.hic := rfl
@[simp] theorem State.count_pwr (s : State) (a : Nat) (f : Bits) (n : Nat) : (s.count a f n).pwr = s.pwr := rfl
@[simp] theorem State.count_eng (s : State) (a : Nat) (f : Bits) (n : Nat) : (s.count a f n).eng = s.eng := rfl
@[simp] theorem State.count_image (s : State) (a : Nat) (f : Bits) (n : Nat) : (s.count a f n).image = s.image := rfl
@[simp] theorem State.count_bst (s : State) (a : Nat) (f : Bits) (n : Nat) : (s.count a f n).bst = s.bst := rfl
@[simp] theorem State.count_chk (s : State) (a : Nat) (f : Bits) (n : Nat) : (s.count a f n).chk = s.chk := rfl
@[simp] theorem State.count_batch (s : State) (a : Nat) (f : Bits) (n : Nat) : (s.count a f n).batch = s.batch := rfl
@[simp] theorem State.count_bus (s : State) (a : Nat) (f : Bits) (n : Nat) : (s.count a f n).bus = s.bus := rfl
@[simp] theorem State.count_free (s : State) (a : Nat) (f : Bits) (n : Nat) : (s.count a f n).free = s.free := rfl
@[simp] theorem State.count_pending (s : State) (a : Nat) (f : Bits) (n : Nat) : (s.count a f n).pending = s.pending := rfl

@[simp] theorem State.publish_regs (s : State) (a : Nat) (w : Word) : (s.publish a w).regs = s.regs := rfl
@[simp] theorem State.publish_mem (s : State) (a : Nat) (w : Word) : (s.publish a w).mem = s.mem := rfl
@[simp] theorem State.publish_now (s : State) (a : Nat) (w : Word) : (s.publish a w).now = s.now := rfl
@[simp] theorem State.publish_t0 (s : State) (a : Nat) (w : Word) : (s.publish a w).t0 = s.t0 := rfl
@[simp] theorem State.publish_prevLen (s : State) (a : Nat) (w : Word) : (s.publish a w).prevLen = s.prevLen := rfl
@[simp] theorem State.publish_tick (s : State) (a : Nat) (w : Word) : (s.publish a w).tick = s.tick := rfl
@[simp] theorem State.publish_clk (s : State) (a : Nat) (w : Word) : (s.publish a w).clk = s.clk := rfl
@[simp] theorem State.publish_vt (s : State) (a : Nat) (w : Word) : (s.publish a w).vt = s.vt := rfl
@[simp] theorem State.publish_cmd (s : State) (a : Nat) (w : Word) : (s.publish a w).cmd = s.cmd := rfl
@[simp] theorem State.publish_faults (s : State) (a : Nat) (w : Word) : (s.publish a w).faults = s.faults := rfl
@[simp] theorem State.publish_led (s : State) (a : Nat) (w : Word) : (s.publish a w).led = s.led := rfl
@[simp] theorem State.publish_dlink (s : State) (a : Nat) (w : Word) : (s.publish a w).dlink = s.dlink := rfl
@[simp] theorem State.publish_prot (s : State) (a : Nat) (w : Word) : (s.publish a w).prot = s.prot := rfl
@[simp] theorem State.publish_pwm (s : State) (a : Nat) (w : Word) : (s.publish a w).pwm = s.pwm := rfl
@[simp] theorem State.publish_dis (s : State) (a : Nat) (w : Word) : (s.publish a w).dis = s.dis := rfl
@[simp] theorem State.publish_acq (s : State) (a : Nat) (w : Word) : (s.publish a w).acq = s.acq := rfl
@[simp] theorem State.publish_pos (s : State) (a : Nat) (w : Word) : (s.publish a w).pos = s.pos := rfl
@[simp] theorem State.publish_fldc (s : State) (a : Nat) (w : Word) : (s.publish a w).fldc = s.fldc := rfl
@[simp] theorem State.publish_wgh (s : State) (a : Nat) (w : Word) : (s.publish a w).wgh = s.wgh := rfl
@[simp] theorem State.publish_isk (s : State) (a : Nat) (w : Word) : (s.publish a w).isk = s.isk := rfl
@[simp] theorem State.publish_thm (s : State) (a : Nat) (w : Word) : (s.publish a w).thm = s.thm := rfl
@[simp] theorem State.publish_can (s : State) (a : Nat) (w : Word) : (s.publish a w).can = s.can := rfl
@[simp] theorem State.publish_eth (s : State) (a : Nat) (w : Word) : (s.publish a w).eth = s.eth := rfl
@[simp] theorem State.publish_hic (s : State) (a : Nat) (w : Word) : (s.publish a w).hic = s.hic := rfl
@[simp] theorem State.publish_pwr (s : State) (a : Nat) (w : Word) : (s.publish a w).pwr = s.pwr := rfl
@[simp] theorem State.publish_eng (s : State) (a : Nat) (w : Word) : (s.publish a w).eng = s.eng := rfl
@[simp] theorem State.publish_image (s : State) (a : Nat) (w : Word) : (s.publish a w).image = s.image := rfl
@[simp] theorem State.publish_bst (s : State) (a : Nat) (w : Word) : (s.publish a w).bst = s.bst := rfl
@[simp] theorem State.publish_chk (s : State) (a : Nat) (w : Word) : (s.publish a w).chk = s.chk := rfl
@[simp] theorem State.publish_batch (s : State) (a : Nat) (w : Word) : (s.publish a w).batch = s.batch := rfl
@[simp] theorem State.publish_bus (s : State) (a : Nat) (w : Word) : (s.publish a w).bus = s.bus := rfl
@[simp] theorem State.publish_free (s : State) (a : Nat) (w : Word) : (s.publish a w).free = s.free := rfl
@[simp] theorem State.publish_pending (s : State) (a : Nat) (w : Word) : (s.publish a w).pending = s.pending := rfl

@[simp] theorem State.publish_reg (s : State) (a : Nat) (w : Word) (b : Nat) : (s.publish a w).reg b = s.reg b := rfl
@[simp] theorem State.publish_fld (s : State) (a : Nat) (w : Word) (b : Nat) (g : Bits) : (s.publish a w).fld b g = s.fld b g := rfl

@[simp] theorem State.setByte_regs (s : State) (a : Nat) (v : Byte) : (s.setByte a v).regs = s.regs := rfl
@[simp] theorem State.setByte_board (s : State) (a : Nat) (v : Byte) : (s.setByte a v).board = s.board := rfl
@[simp] theorem State.setByte_now (s : State) (a : Nat) (v : Byte) : (s.setByte a v).now = s.now := rfl
@[simp] theorem State.setByte_t0 (s : State) (a : Nat) (v : Byte) : (s.setByte a v).t0 = s.t0 := rfl
@[simp] theorem State.setByte_prevLen (s : State) (a : Nat) (v : Byte) : (s.setByte a v).prevLen = s.prevLen := rfl
@[simp] theorem State.setByte_tick (s : State) (a : Nat) (v : Byte) : (s.setByte a v).tick = s.tick := rfl
@[simp] theorem State.setByte_clk (s : State) (a : Nat) (v : Byte) : (s.setByte a v).clk = s.clk := rfl
@[simp] theorem State.setByte_vt (s : State) (a : Nat) (v : Byte) : (s.setByte a v).vt = s.vt := rfl
@[simp] theorem State.setByte_cmd (s : State) (a : Nat) (v : Byte) : (s.setByte a v).cmd = s.cmd := rfl
@[simp] theorem State.setByte_faults (s : State) (a : Nat) (v : Byte) : (s.setByte a v).faults = s.faults := rfl
@[simp] theorem State.setByte_led (s : State) (a : Nat) (v : Byte) : (s.setByte a v).led = s.led := rfl
@[simp] theorem State.setByte_dlink (s : State) (a : Nat) (v : Byte) : (s.setByte a v).dlink = s.dlink := rfl
@[simp] theorem State.setByte_prot (s : State) (a : Nat) (v : Byte) : (s.setByte a v).prot = s.prot := rfl
@[simp] theorem State.setByte_pwm (s : State) (a : Nat) (v : Byte) : (s.setByte a v).pwm = s.pwm := rfl
@[simp] theorem State.setByte_dis (s : State) (a : Nat) (v : Byte) : (s.setByte a v).dis = s.dis := rfl
@[simp] theorem State.setByte_acq (s : State) (a : Nat) (v : Byte) : (s.setByte a v).acq = s.acq := rfl
@[simp] theorem State.setByte_pos (s : State) (a : Nat) (v : Byte) : (s.setByte a v).pos = s.pos := rfl
@[simp] theorem State.setByte_fldc (s : State) (a : Nat) (v : Byte) : (s.setByte a v).fldc = s.fldc := rfl
@[simp] theorem State.setByte_wgh (s : State) (a : Nat) (v : Byte) : (s.setByte a v).wgh = s.wgh := rfl
@[simp] theorem State.setByte_isk (s : State) (a : Nat) (v : Byte) : (s.setByte a v).isk = s.isk := rfl
@[simp] theorem State.setByte_thm (s : State) (a : Nat) (v : Byte) : (s.setByte a v).thm = s.thm := rfl
@[simp] theorem State.setByte_can (s : State) (a : Nat) (v : Byte) : (s.setByte a v).can = s.can := rfl
@[simp] theorem State.setByte_eth (s : State) (a : Nat) (v : Byte) : (s.setByte a v).eth = s.eth := rfl
@[simp] theorem State.setByte_hic (s : State) (a : Nat) (v : Byte) : (s.setByte a v).hic = s.hic := rfl
@[simp] theorem State.setByte_pwr (s : State) (a : Nat) (v : Byte) : (s.setByte a v).pwr = s.pwr := rfl
@[simp] theorem State.setByte_eng (s : State) (a : Nat) (v : Byte) : (s.setByte a v).eng = s.eng := rfl
@[simp] theorem State.setByte_image (s : State) (a : Nat) (v : Byte) : (s.setByte a v).image = s.image := rfl
@[simp] theorem State.setByte_bst (s : State) (a : Nat) (v : Byte) : (s.setByte a v).bst = s.bst := rfl
@[simp] theorem State.setByte_chk (s : State) (a : Nat) (v : Byte) : (s.setByte a v).chk = s.chk := rfl
@[simp] theorem State.setByte_batch (s : State) (a : Nat) (v : Byte) : (s.setByte a v).batch = s.batch := rfl
@[simp] theorem State.setByte_bus (s : State) (a : Nat) (v : Byte) : (s.setByte a v).bus = s.bus := rfl
@[simp] theorem State.setByte_free (s : State) (a : Nat) (v : Byte) : (s.setByte a v).free = s.free := rfl
@[simp] theorem State.setByte_pending (s : State) (a : Nat) (v : Byte) : (s.setByte a v).pending = s.pending := rfl

@[simp] theorem State.setByte_reg (s : State) (a : Nat) (v : Byte) (b : Nat) : (s.setByte a v).reg b = s.reg b := rfl
@[simp] theorem State.setByte_fld (s : State) (a : Nat) (v : Byte) (b : Nat) (g : Bits) : (s.setByte a v).fld b g = s.fld b g := rfl

@[simp] theorem State.at_regs (s : State) (t : Nat) : (s.at t).regs = s.regs := rfl
@[simp] theorem State.at_mem (s : State) (t : Nat) : (s.at t).mem = s.mem := rfl
@[simp] theorem State.at_board (s : State) (t : Nat) : (s.at t).board = s.board := rfl
@[simp] theorem State.at_t0 (s : State) (t : Nat) : (s.at t).t0 = s.t0 := rfl
@[simp] theorem State.at_prevLen (s : State) (t : Nat) : (s.at t).prevLen = s.prevLen := rfl
@[simp] theorem State.at_tick (s : State) (t : Nat) : (s.at t).tick = s.tick := rfl
@[simp] theorem State.at_clk (s : State) (t : Nat) : (s.at t).clk = s.clk := rfl
@[simp] theorem State.at_vt (s : State) (t : Nat) : (s.at t).vt = s.vt := rfl
@[simp] theorem State.at_cmd (s : State) (t : Nat) : (s.at t).cmd = s.cmd := rfl
@[simp] theorem State.at_faults (s : State) (t : Nat) : (s.at t).faults = s.faults := rfl
@[simp] theorem State.at_led (s : State) (t : Nat) : (s.at t).led = s.led := rfl
@[simp] theorem State.at_dlink (s : State) (t : Nat) : (s.at t).dlink = s.dlink := rfl
@[simp] theorem State.at_prot (s : State) (t : Nat) : (s.at t).prot = s.prot := rfl
@[simp] theorem State.at_pwm (s : State) (t : Nat) : (s.at t).pwm = s.pwm := rfl
@[simp] theorem State.at_dis (s : State) (t : Nat) : (s.at t).dis = s.dis := rfl
@[simp] theorem State.at_acq (s : State) (t : Nat) : (s.at t).acq = s.acq := rfl
@[simp] theorem State.at_pos (s : State) (t : Nat) : (s.at t).pos = s.pos := rfl
@[simp] theorem State.at_fldc (s : State) (t : Nat) : (s.at t).fldc = s.fldc := rfl
@[simp] theorem State.at_wgh (s : State) (t : Nat) : (s.at t).wgh = s.wgh := rfl
@[simp] theorem State.at_isk (s : State) (t : Nat) : (s.at t).isk = s.isk := rfl
@[simp] theorem State.at_thm (s : State) (t : Nat) : (s.at t).thm = s.thm := rfl
@[simp] theorem State.at_can (s : State) (t : Nat) : (s.at t).can = s.can := rfl
@[simp] theorem State.at_eth (s : State) (t : Nat) : (s.at t).eth = s.eth := rfl
@[simp] theorem State.at_hic (s : State) (t : Nat) : (s.at t).hic = s.hic := rfl
@[simp] theorem State.at_pwr (s : State) (t : Nat) : (s.at t).pwr = s.pwr := rfl
@[simp] theorem State.at_eng (s : State) (t : Nat) : (s.at t).eng = s.eng := rfl
@[simp] theorem State.at_image (s : State) (t : Nat) : (s.at t).image = s.image := rfl
@[simp] theorem State.at_bst (s : State) (t : Nat) : (s.at t).bst = s.bst := rfl
@[simp] theorem State.at_chk (s : State) (t : Nat) : (s.at t).chk = s.chk := rfl
@[simp] theorem State.at_batch (s : State) (t : Nat) : (s.at t).batch = s.batch := rfl
@[simp] theorem State.at_bus (s : State) (t : Nat) : (s.at t).bus = s.bus := rfl
@[simp] theorem State.at_free (s : State) (t : Nat) : (s.at t).free = s.free := rfl
@[simp] theorem State.at_pending (s : State) (t : Nat) : (s.at t).pending = s.pending := rfl

@[simp] theorem State.at_reg (s : State) (t : Nat) (b : Nat) : (s.at t).reg b = s.reg b := rfl
@[simp] theorem State.at_fld (s : State) (t : Nat) (b : Nat) (g : Bits) : (s.at t).fld b g = s.fld b g := rfl

@[simp] theorem State.setSq_regs (s : State) (n : Nat) (r : SqRun) : (s.setSq n r).regs = s.regs := rfl
@[simp] theorem State.setSq_mem (s : State) (n : Nat) (r : SqRun) : (s.setSq n r).mem = s.mem := rfl
@[simp] theorem State.setSq_board (s : State) (n : Nat) (r : SqRun) : (s.setSq n r).board = s.board := rfl
@[simp] theorem State.setSq_now (s : State) (n : Nat) (r : SqRun) : (s.setSq n r).now = s.now := rfl
@[simp] theorem State.setSq_t0 (s : State) (n : Nat) (r : SqRun) : (s.setSq n r).t0 = s.t0 := rfl
@[simp] theorem State.setSq_prevLen (s : State) (n : Nat) (r : SqRun) : (s.setSq n r).prevLen = s.prevLen := rfl
@[simp] theorem State.setSq_tick (s : State) (n : Nat) (r : SqRun) : (s.setSq n r).tick = s.tick := rfl
@[simp] theorem State.setSq_clk (s : State) (n : Nat) (r : SqRun) : (s.setSq n r).clk = s.clk := rfl
@[simp] theorem State.setSq_vt (s : State) (n : Nat) (r : SqRun) : (s.setSq n r).vt = s.vt := rfl
@[simp] theorem State.setSq_faults (s : State) (n : Nat) (r : SqRun) : (s.setSq n r).faults = s.faults := rfl
@[simp] theorem State.setSq_led (s : State) (n : Nat) (r : SqRun) : (s.setSq n r).led = s.led := rfl
@[simp] theorem State.setSq_dlink (s : State) (n : Nat) (r : SqRun) : (s.setSq n r).dlink = s.dlink := rfl
@[simp] theorem State.setSq_prot (s : State) (n : Nat) (r : SqRun) : (s.setSq n r).prot = s.prot := rfl
@[simp] theorem State.setSq_pwm (s : State) (n : Nat) (r : SqRun) : (s.setSq n r).pwm = s.pwm := rfl
@[simp] theorem State.setSq_dis (s : State) (n : Nat) (r : SqRun) : (s.setSq n r).dis = s.dis := rfl
@[simp] theorem State.setSq_acq (s : State) (n : Nat) (r : SqRun) : (s.setSq n r).acq = s.acq := rfl
@[simp] theorem State.setSq_pos (s : State) (n : Nat) (r : SqRun) : (s.setSq n r).pos = s.pos := rfl
@[simp] theorem State.setSq_fldc (s : State) (n : Nat) (r : SqRun) : (s.setSq n r).fldc = s.fldc := rfl
@[simp] theorem State.setSq_wgh (s : State) (n : Nat) (r : SqRun) : (s.setSq n r).wgh = s.wgh := rfl
@[simp] theorem State.setSq_isk (s : State) (n : Nat) (r : SqRun) : (s.setSq n r).isk = s.isk := rfl
@[simp] theorem State.setSq_thm (s : State) (n : Nat) (r : SqRun) : (s.setSq n r).thm = s.thm := rfl
@[simp] theorem State.setSq_can (s : State) (n : Nat) (r : SqRun) : (s.setSq n r).can = s.can := rfl
@[simp] theorem State.setSq_eth (s : State) (n : Nat) (r : SqRun) : (s.setSq n r).eth = s.eth := rfl
@[simp] theorem State.setSq_hic (s : State) (n : Nat) (r : SqRun) : (s.setSq n r).hic = s.hic := rfl
@[simp] theorem State.setSq_pwr (s : State) (n : Nat) (r : SqRun) : (s.setSq n r).pwr = s.pwr := rfl
@[simp] theorem State.setSq_eng (s : State) (n : Nat) (r : SqRun) : (s.setSq n r).eng = s.eng := rfl
@[simp] theorem State.setSq_image (s : State) (n : Nat) (r : SqRun) : (s.setSq n r).image = s.image := rfl
@[simp] theorem State.setSq_bst (s : State) (n : Nat) (r : SqRun) : (s.setSq n r).bst = s.bst := rfl
@[simp] theorem State.setSq_chk (s : State) (n : Nat) (r : SqRun) : (s.setSq n r).chk = s.chk := rfl
@[simp] theorem State.setSq_batch (s : State) (n : Nat) (r : SqRun) : (s.setSq n r).batch = s.batch := rfl
@[simp] theorem State.setSq_bus (s : State) (n : Nat) (r : SqRun) : (s.setSq n r).bus = s.bus := rfl
@[simp] theorem State.setSq_free (s : State) (n : Nat) (r : SqRun) : (s.setSq n r).free = s.free := rfl
@[simp] theorem State.setSq_pending (s : State) (n : Nat) (r : SqRun) : (s.setSq n r).pending = s.pending := rfl

@[simp] theorem State.setSq_reg (s : State) (n : Nat) (r : SqRun) (b : Nat) : (s.setSq n r).reg b = s.reg b := rfl
@[simp] theorem State.setSq_fld (s : State) (n : Nat) (r : SqRun) (b : Nat) (g : Bits) : (s.setSq n r).fld b g = s.fld b g := rfl

@[simp] theorem State.setRing_regs (s : State) (n : Nat) (r : RecRing) : (s.setRing n r).regs = s.regs := rfl
@[simp] theorem State.setRing_mem (s : State) (n : Nat) (r : RecRing) : (s.setRing n r).mem = s.mem := rfl
@[simp] theorem State.setRing_board (s : State) (n : Nat) (r : RecRing) : (s.setRing n r).board = s.board := rfl
@[simp] theorem State.setRing_now (s : State) (n : Nat) (r : RecRing) : (s.setRing n r).now = s.now := rfl
@[simp] theorem State.setRing_t0 (s : State) (n : Nat) (r : RecRing) : (s.setRing n r).t0 = s.t0 := rfl
@[simp] theorem State.setRing_prevLen (s : State) (n : Nat) (r : RecRing) : (s.setRing n r).prevLen = s.prevLen := rfl
@[simp] theorem State.setRing_tick (s : State) (n : Nat) (r : RecRing) : (s.setRing n r).tick = s.tick := rfl
@[simp] theorem State.setRing_clk (s : State) (n : Nat) (r : RecRing) : (s.setRing n r).clk = s.clk := rfl
@[simp] theorem State.setRing_vt (s : State) (n : Nat) (r : RecRing) : (s.setRing n r).vt = s.vt := rfl
@[simp] theorem State.setRing_faults (s : State) (n : Nat) (r : RecRing) : (s.setRing n r).faults = s.faults := rfl
@[simp] theorem State.setRing_led (s : State) (n : Nat) (r : RecRing) : (s.setRing n r).led = s.led := rfl
@[simp] theorem State.setRing_dlink (s : State) (n : Nat) (r : RecRing) : (s.setRing n r).dlink = s.dlink := rfl
@[simp] theorem State.setRing_prot (s : State) (n : Nat) (r : RecRing) : (s.setRing n r).prot = s.prot := rfl
@[simp] theorem State.setRing_pwm (s : State) (n : Nat) (r : RecRing) : (s.setRing n r).pwm = s.pwm := rfl
@[simp] theorem State.setRing_dis (s : State) (n : Nat) (r : RecRing) : (s.setRing n r).dis = s.dis := rfl
@[simp] theorem State.setRing_acq (s : State) (n : Nat) (r : RecRing) : (s.setRing n r).acq = s.acq := rfl
@[simp] theorem State.setRing_pos (s : State) (n : Nat) (r : RecRing) : (s.setRing n r).pos = s.pos := rfl
@[simp] theorem State.setRing_fldc (s : State) (n : Nat) (r : RecRing) : (s.setRing n r).fldc = s.fldc := rfl
@[simp] theorem State.setRing_wgh (s : State) (n : Nat) (r : RecRing) : (s.setRing n r).wgh = s.wgh := rfl
@[simp] theorem State.setRing_isk (s : State) (n : Nat) (r : RecRing) : (s.setRing n r).isk = s.isk := rfl
@[simp] theorem State.setRing_thm (s : State) (n : Nat) (r : RecRing) : (s.setRing n r).thm = s.thm := rfl
@[simp] theorem State.setRing_can (s : State) (n : Nat) (r : RecRing) : (s.setRing n r).can = s.can := rfl
@[simp] theorem State.setRing_eth (s : State) (n : Nat) (r : RecRing) : (s.setRing n r).eth = s.eth := rfl
@[simp] theorem State.setRing_hic (s : State) (n : Nat) (r : RecRing) : (s.setRing n r).hic = s.hic := rfl
@[simp] theorem State.setRing_pwr (s : State) (n : Nat) (r : RecRing) : (s.setRing n r).pwr = s.pwr := rfl
@[simp] theorem State.setRing_eng (s : State) (n : Nat) (r : RecRing) : (s.setRing n r).eng = s.eng := rfl
@[simp] theorem State.setRing_image (s : State) (n : Nat) (r : RecRing) : (s.setRing n r).image = s.image := rfl
@[simp] theorem State.setRing_bst (s : State) (n : Nat) (r : RecRing) : (s.setRing n r).bst = s.bst := rfl
@[simp] theorem State.setRing_chk (s : State) (n : Nat) (r : RecRing) : (s.setRing n r).chk = s.chk := rfl
@[simp] theorem State.setRing_batch (s : State) (n : Nat) (r : RecRing) : (s.setRing n r).batch = s.batch := rfl
@[simp] theorem State.setRing_bus (s : State) (n : Nat) (r : RecRing) : (s.setRing n r).bus = s.bus := rfl
@[simp] theorem State.setRing_free (s : State) (n : Nat) (r : RecRing) : (s.setRing n r).free = s.free := rfl
@[simp] theorem State.setRing_pending (s : State) (n : Nat) (r : RecRing) : (s.setRing n r).pending = s.pending := rfl

@[simp] theorem State.setRing_reg (s : State) (n : Nat) (r : RecRing) (b : Nat) : (s.setRing n r).reg b = s.reg b := rfl
@[simp] theorem State.setRing_fld (s : State) (n : Nat) (r : RecRing) (b : Nat) (g : Bits) : (s.setRing n r).fld b g = s.fld b g := rfl

end Machine
end Sys2Proof
end

