-- ==== Sys2Proof/Laws/Effect.lean ====
section
/-! SUPPORT. What the results of commands are read through: a part outside the mask of an operation reads after it as
before. -/

set_option Elab.async false

namespace Sys2Proof.Machine

theorem Does.intro {c : Instr} {s t : State} {P : State → Prop} (e : exec c s = .next t) (h : P t) : Does c s P :=
  ⟨t, e, h⟩

theorem Does.mono {c : Instr} {s : State} {P Q : State → Prop} (h : Does c s P) (hpq : ∀ t, P t → Q t) : Does c s Q := by
  obtain ⟨t, e, hp⟩ := h
  exact ⟨t, e, hpq t hp⟩

variable {K k : Nat} {s t : State}

theorem Frame.reg (h : Frame K s t) {a : Nat} (hk : regNo a = k) (hK : K.testBit k = false := by decide) :
    t.reg a = s.reg a := h.regs a (hk ▸ hK)

theorem Frame.fld (h : Frame K s t) {a : Nat} {f : Bits} (hk : regNo a = k) (hK : K.testBit k = false := by decide) :
    t.fld a f = s.fld a f := congrArg f.of (h.reg hk hK)

theorem Frame.on (h : Frame K s t) {a : Nat} {f : Bits} (hk : regNo a = k) (hK : K.testBit k = false := by decide) :
    t.on a f = s.on a f := congrArg (· != 0) (h.fld hk hK)

theorem Frame.sq (h : Frame K s t) (n : Nat) (hK : K.testBit bit_sqs = false := by decide) : t.sq n = s.sq n :=
  congrArg (fun x => tabGet ({} : SqRun) x n) (h.sqs hK)

theorem Frame.ring (h : Frame K s t) (n : Nat) (hK : K.testBit bit_rings = false := by decide) : t.ring n = s.ring n :=
  congrArg (fun x => tabGet ({} : RecRing) x n) (h.rings hK)

/-- No area of memory is in a mask. -/
abbrev noMem (K : Nat) : Bool :=
  !(K.testBit bit_sram || K.testBit bit_page || K.testBit bit_records || K.testBit bit_recipe || K.testBit bit_table ||
    K.testBit bit_store)

theorem Frame.byte (h : Frame K s t) (a : Nat) (hK : noMem K = true := by decide) : t.byte a = s.byte a := by
  simp only [noMem, Bool.not_eq_true', Bool.or_eq_false_iff] at hK
  obtain ⟨⟨⟨⟨⟨h1, h2⟩, h3⟩, h4⟩, h5⟩, h6⟩ := hK
  have no : ∀ {b : Bool} {P : Prop}, b = false → b = true → P := fun h0 h1 => absurd (h0.symm.trans h1) (by decide)
  exact h.mem a ⟨no h1, no h2, no h3, no h4, no h5, no h6⟩

theorem Frame.word (h : Frame K s t) (a : Nat) (hK : noMem K = true := by decide) : t.word a = s.word a := by
  unfold State.word
  rw [h.byte _ hK, h.byte _ hK, h.byte _ hK, h.byte _ hK]

theorem Frame.sram (h : Frame K s t) (a : Nat) (hK : noMem K = true := by decide) : t.sram a = s.sram a := h.word _ hK

/-- Two registers of different names differ. -/
theorem reg_ne {a b i j : Nat} (ha : regNo a = i) (hb : regNo b = j) (h : i ≠ j := by decide) : a ≠ b := by
  rintro rfl
  exact h (ha.symm.trans hb)

theorem regAt_ne {a b : Nat} (h : regNo a ≠ regNo b) : a ≠ b := by
  rintro rfl
  exact h rfl

theorem State.sq_setSq (s : State) (m n : Nat) (r : SqRun) : (s.setSq m r).sq n = if n = m then r else s.sq n :=
  tabGet_tabSet _ _ _ _ _

theorem State.byte_congr {s t : State} (h : t.mem = s.mem) (a : Nat) : t.byte a = s.byte a := by
  unfold State.byte; rw [h]

theorem State.word_congr {s t : State} (h : t.mem = s.mem) (a : Nat) : t.word a = s.word a := by
  unfold State.word State.byte; rw [h]

theorem State.sram_congr {s t : State} (h : t.mem = s.mem) (a : Nat) : t.sram a = s.sram a := State.word_congr h _

theorem State.sram_setSram (s : State) (off : Nat) (w : Word) : (s.setSram off w).sram off = w := by
  unfold State.sram State.setSram
  exact State.word_setWord_same _ _ _

/-- A doorbell word stands in host SRAM. -/
theorem State.bellStored_sram (s : State) (off : Nat) (w : Word) : (s.bellStored off w).sram off = w :=
  (State.sram_congr (t := s.bellStored off w) (s := (s.clearResv off 4).setSram off w) rfl off).trans
    (State.sram_setSram _ _ _)

end Sys2Proof.Machine
end

