-- ==== Sys2Proof/Laws/Bus.lean ====
section
/-! SUPPORT. Writes of host software to registers: what the fields of the register hold after one, and what else it
leaves. -/

set_option Elab.async false

namespace Sys2Proof.Machine

/-! ### Fields of a written word (R6, R8) -/

/-- Two fields share no bit. -/
def Bits.apart (f g : Bits) : Bool := decide (f.lo + f.width ≤ g.lo) || decide (g.lo + g.width ≤ f.lo)

theorem Bits.of_put_apart {f g : Bits} (v : Nat) (w : Word) (h : Bits.apart f g = true) : g.of (f.put v w) = g.of w := by
  refine Bits.of_put_other v w ?_
  simpa [Bits.apart] using h

/-- The fields of a register share no bits and lie within the word. -/
def fieldsApart : List FieldDesc → Bool
  | [] => true
  | f :: fs => decide (f.bits.lo + f.bits.width ≤ 32) && decide (0 < f.bits.width) &&
      fs.all (fun g => Bits.apart f.bits g.bits && Bits.apart g.bits f.bits) && fieldsApart fs

theorem tables_apart : (List.range 22).all (fun u => (regsOfUnit u).all fun d => fieldsApart d.fields) = true := by
  decide +kernel

theorem regsOfUnit_apart {u : Nat} {d : RegDesc} (h : d ∈ regsOfUnit u) : fieldsApart d.fields = true := by
  have hu : u < 22 := by
    refine Classical.byContradiction fun hn => ?_
    match u, hn with
    | n + 22, _ => cases h
  exact List.all_eq_true.1 (List.all_eq_true.1 tables_apart u (List.mem_range.2 hu)) d h

theorem findReg_mem {l : List RegDesc} {off i : Nat} {d : RegDesc} (h : findReg l off = some (d, i)) : d ∈ l := by
  induction l with
  | nil => cases h
  | cons x l ih =>
    unfold findReg at h
    split at h
    · cases h; exact List.mem_cons_self
    · exact List.mem_cons_of_mem _ (ih h)

theorem regAt_apart {a i : Nat} {d : RegDesc} (h : regAt a = some (d, i)) : fieldsApart d.fields = true := by
  unfold regAt at h
  split at h
  · cases h
  · exact regsOfUnit_apart (findReg_mem h)

/-- One step of a write: a field that is reached and stored takes its value. -/
def putField (m : Master) (l : Bool) (old w mask : Word) (acc : Word × Bool) (f : FieldDesc) : Word × Bool :=
  if f.reached m l && f.access != .wo then
    (f.bits.put (f.written old w mask).1 acc.1, acc.2 || (f.written old w mask).2)
  else acc

theorem RegDesc.written_eq (d : RegDesc) (m : Master) (l : Bool) (old w mask : Word) :
    d.written m l old w mask = d.fields.foldl (putField m l old w mask) (old, false) := rfl

theorem putFields_other {m : Master} {l : Bool} {old w mask : Word} {g : Bits} (fs : List FieldDesc)
    (acc : Word × Bool) (h : fs.all (fun f => Bits.apart f.bits g) = true) :
    g.of (fs.foldl (putField m l old w mask) acc).1 = g.of acc.1 := by
  induction fs generalizing acc with
  | nil => rfl
  | cons f fs ih =>
    simp only [List.all_cons, Bool.and_eq_true] at h
    rw [List.foldl_cons, ih _ h.2]
    unfold putField
    split
    · exact Bits.of_put_apart _ _ h.1
    · rfl

theorem putFields_of {m : Master} {l : Bool} {old w mask : Word} {f : FieldDesc} (fs : List FieldDesc) (k : Nat)
    (acc : Word × Bool) (h : fieldsApart fs = true) (hk : fs[k]? = some f) :
    f.bits.of (fs.foldl (putField m l old w mask) acc).1 =
      if f.reached m l && f.access != .wo then (f.written old w mask).1 % 2 ^ f.bits.width else f.bits.of acc.1 := by
  induction fs generalizing acc k with
  | nil => cases hk
  | cons x fs ih =>
    simp only [fieldsApart, Bool.and_eq_true, decide_eq_true_eq, List.all_eq_true] at h
    obtain ⟨⟨⟨h1, -⟩, h2⟩, h3⟩ := h
    cases k with
    | zero =>
      cases hk
      rw [List.foldl_cons, putFields_other]
      · unfold putField
        split
        · exact Bits.of_put _ _ _ h1
        · rfl
      · exact List.all_eq_true.2 fun g hg => (h2 g hg).2
    | succ k =>
      rw [List.foldl_cons, ih k _ h3 hk]
      split
      · rfl
      · unfold putField
        split
        · exact Bits.of_put_apart _ _ (h2 f (List.mem_of_getElem? hk)).1
        · rfl

/-- A field of the word that a write leaves. -/
theorem RegDesc.written_of {d : RegDesc} {m : Master} {l : Bool} {old w mask : Word} {f : FieldDesc} (k : Nat)
    (h : fieldsApart d.fields = true) (hk : d.fields[k]? = some f) :
    f.bits.of (d.written m l old w mask).1 =
      if f.reached m l && f.access != .wo then (f.written old w mask).1 % 2 ^ f.bits.width else f.bits.of old :=
  putFields_of d.fields k _ h hk

theorem Bits.on_full {f : Bits} (h : f.lo < 32) (hw : 0 < f.width) : f.on 0xFFFFFFFF = true := by
  rw [Bits.on_iff]
  intro h0
  have h1 : (0xFFFFFFFF : Word).getLsbD f.lo = true := by
    rw [show (0xFFFFFFFF : Word) = BitVec.allOnes 32 from rfl, BitVec.getLsbD_allOnes]
    simpa using h
  have h2 : (f.of 0xFFFFFFFF).testBit 0 = true := by
    rw [Bits.testBit_of, Nat.add_zero, h1]
    simpa using hw
  rw [h0] at h2
  exact absurd h2 (by decide)

theorem blend_full (v w : Word) : blend 0xFFFFFFFF v w = v := by
  have h : (0xFFFFFFFF : Word) = BitVec.allOnes 32 := rfl
  unfold blend
  rw [h, BitVec.and_allOnes, BitVec.not_allOnes, BitVec.and_zero, BitVec.or_zero]

/-- The value a whole-word write gives a field that holds what is written. -/
theorem FieldDesc.written_full {f : FieldDesc} {old w : Word} (h : f.access ≠ .w1c) (hl : f.bits.lo < 32)
    (hw : 0 < f.bits.width) : (f.written old w 0xFFFFFFFF).1 = f.clamp.apply (f.bits.of w) := by
  unfold FieldDesc.written
  split
  · next e => exact absurd e h
  · rw [blend_full, if_pos (Bits.on_full hl hw)]

theorem Bits.of_and {f : Bits} {w m : Word} (h : f.of m = 2 ^ f.width - 1) : f.of (w &&& m) = f.of w := by
  apply Nat.eq_of_testBit_eq
  intro i
  have hi := congrArg (fun n => n.testBit i) h
  simp only [Bits.testBit_of, Nat.testBit_two_pow_sub_one] at hi
  rw [Bits.testBit_of, Bits.testBit_of, BitVec.getLsbD_and]
  by_cases hw : i < f.width
  · simp only [hw, decide_true, Bool.true_and] at hi
    rw [hi, Bool.and_true]
  · simp [hw]

/-- A pulse written to a register reaches its write-only field. -/
theorem Bits.on_and {f : Bits} {w m : Word} (h : f.of m = 2 ^ f.width - 1) : f.on (w &&& m) = f.on w := by
  unfold Bits.on; rw [Bits.of_and h]

/-! ### A write on the bus -/

/-- `t` is `u` but for the clamp counter of the block of `a`, the memory scans and the last bus result. -/
structure Stored (a : Nat) (u t : State) : Prop where
  eq : t = { u with regs := t.regs, chk := t.chk, bus := t.bus }
  reg : ∀ b, clampCounter a ≠ some b → t.reg b = u.reg b
  bus : t.bus = .done

namespace Stored
variable {a : Nat} {u t : State}
theorem fld (h : Stored a u t) {b : Nat} {f : Bits} (hb : clampCounter a ≠ some b) : t.fld b f = u.fld b f :=
  congrArg f.of (h.reg b hb)
theorem on (h : Stored a u t) {b : Nat} {f : Bits} (hb : clampCounter a ≠ some b) : t.on b f = u.on b f :=
  congrArg (· != 0) (h.fld hb)
theorem cmd (h : Stored a u t) : t.cmd = u.cmd := by rw [h.eq]
theorem mem (h : Stored a u t) : t.mem = u.mem := by rw [h.eq]
theorem now (h : Stored a u t) : t.now = u.now := by rw [h.eq]
theorem tick (h : Stored a u t) : t.tick = u.tick := by rw [h.eq]
theorem clk (h : Stored a u t) : t.clk = u.clk := by rw [h.eq]
theorem vt (h : Stored a u t) : t.vt = u.vt := by rw [h.eq]
theorem faults (h : Stored a u t) : t.faults = u.faults := by rw [h.eq]
theorem led (h : Stored a u t) : t.led = u.led := by rw [h.eq]
theorem prot (h : Stored a u t) : t.prot = u.prot := by rw [h.eq]
theorem pwm (h : Stored a u t) : t.pwm = u.pwm := by rw [h.eq]
theorem acq (h : Stored a u t) : t.acq = u.acq := by rw [h.eq]
theorem pos (h : Stored a u t) : t.pos = u.pos := by rw [h.eq]
theorem fldc (h : Stored a u t) : t.fldc = u.fldc := by rw [h.eq]
theorem wgh (h : Stored a u t) : t.wgh = u.wgh := by rw [h.eq]
theorem isk (h : Stored a u t) : t.isk = u.isk := by rw [h.eq]
theorem can (h : Stored a u t) : t.can = u.can := by rw [h.eq]
theorem eth (h : Stored a u t) : t.eth = u.eth := by rw [h.eq]
theorem hic (h : Stored a u t) : t.hic = u.hic := by rw [h.eq]
theorem pwr (h : Stored a u t) : t.pwr = u.pwr := by rw [h.eq]
theorem eng (h : Stored a u t) : t.eng = u.eng := by rw [h.eq]
theorem bst (h : Stored a u t) : t.bst = u.bst := by rw [h.eq]
theorem sq (h : Stored a u t) (n : Nat) : t.sq n = u.sq n := congrArg (fun c : Cmd => tabGet ({} : SqRun) c.sqs n) h.cmd
theorem ring (h : Stored a u t) (n : Nat) : t.ring n = u.ring n :=
  congrArg (fun c : Cmd => tabGet ({} : RecRing) c.rings n) h.cmd
end Stored

theorem State.scanSpoil_eq (s : State) (a n : Nat) : s.scanSpoil a n = { s with chk := (s.scanSpoil a n).chk } := by
  unfold State.scanSpoil
  generalize List.range 8 = l
  have key : ∀ (l : List Nat) (f : State → Nat → State) (hf : ∀ u k, f u k = { u with chk := (f u k).chk }) (u : State),
      l.foldl f u = { u with chk := (l.foldl f u).chk } := by
    intro l f hf
    induction l with
    | nil => intro u; rfl
    | cons k l ih =>
      intro u
      have h1 := ih (f u k)
      have h2 := hf u k
      rw [List.foldl_cons]
      generalize l.foldl f (f u k) = v at h1 ⊢
      generalize f u k = x at h1 h2
      rw [h1, h2]
  refine key l _ ?_ s
  intro u k
  dsimp only
  split
  · split
    · rfl
    · rfl
  · rfl

theorem State.countClamp_eq (s : State) (a : Nat) (c : Bool) :
    s.countClamp a c = { s with regs := (s.countClamp a c).regs } ∧
    ∀ b, clampCounter a ≠ some b → (s.countClamp a c).reg b = s.reg b := by
  unfold State.countClamp
  cases c
  · exact ⟨rfl, fun _ _ => rfl⟩
  · rw [if_pos rfl]
    cases h : clampCounter a with
    | none => exact ⟨rfl, fun _ _ => rfl⟩
    | some r => exact ⟨rfl, fun b hb => s.reg_setReg_other _ (fun e => hb (congrArg some e.symm))⟩

/-- The write a word makes that reaches a field. -/
def State.wrote (s : State) (a : Nat) (d : RegDesc) (w : Word) : Wr :=
  ⟨.core 0, a, s.reg a, (s.written (.core 0) a d w 0xFFFFFFFF).1, w &&& d.reach (.core 0) s.locked,
    d.reach (.core 0) s.locked⟩

theorem State.prepare_eq {s : State} {a i : Nat} {d : RegDesc} {w : Word} (hr : regAt a = some (d, i))
    (hrest : s.pwr.restoring = false) (hcov : d.reach (.core 0) s.locked ≠ 0) :
    s.prepare (.core 0) a w 0xFFFFFFFF = some (s.wrote a d w, (s.written (.core 0) a d w 0xFFFFFFFF).2) := by
  have hm : s.busMask d 0xFFFFFFFF = 0xFFFFFFFF := by
    unfold State.busMask; rw [hrest]; rfl
  have hand : d.reach (.core 0) s.locked &&& 0xFFFFFFFF = d.reach (.core 0) s.locked := by
    rw [show (0xFFFFFFFF : Word) = BitVec.allOnes 32 from rfl, BitVec.and_allOnes]
  unfold State.prepare State.wrote
  rw [hr]
  simp only [show (Master.core 0).isBus = true from rfl, if_true, hm, hand, hcov, if_false]

theorem State.busWrite_eq {s : State} {a : Nat} {w : Word} {busy : Bool} {x : Wr × Bool} (hc : canonical a = a)
    (hp : s.prepare (.core 0) a w 0xFFFFFFFF = some x) (hta : s.turnedAway x.1 = none) :
    s.busWrite 0 a w busy = (s.put x.1 busy).1.countClamp a (x.2 || (s.put x.1 busy).2) := by
  unfold State.busWrite
  rw [hc, hp, Option.elim_some]
  unfold State.makeWrite
  rw [hta]

theorem Stored.intro (u : State) (a : Nat) (cl : Bool) : Stored a u (((u.countClamp a cl).scanSpoil a 4).stored) := by
  obtain ⟨h1, h2⟩ := u.countClamp_eq a cl
  generalize u.countClamp a cl = v at h1 h2
  have h3 := v.scanSpoil_eq a 4
  generalize v.scanSpoil a 4 = x at h3
  have hx : x.regs = v.regs := by rw [h3]
  refine ⟨?_, fun b hb => ?_, rfl⟩
  · show { x with bus := .done } = { u with regs := x.regs, chk := x.chk, bus := .done }
    rw [h3, h1]
  · show x.reg b = u.reg b
    rw [← h2 b hb]
    unfold State.reg
    rw [hx]

/-- A write that reaches a field and is not turned away. -/
theorem State.blockStore_stored {s : State} {a i : Nat} {d : RegDesc} {w : Word} {busy : Bool}
    (hr : regAt a = some (d, i)) (hc : canonical a = a) (hrest : s.pwr.restoring = false)
    (hcov : d.reach (.core 0) s.locked ≠ 0) (hta : s.turnedAway (s.wrote a d w) = none) :
    Stored a (s.put (s.wrote a d w) busy).1 (s.blockStore 0 a w busy) := by
  unfold State.blockStore
  rw [State.busWrite_eq hc (State.prepare_eq hr hrest hcov) hta]
  exact Stored.intro _ _ _

/-! ### Registers by their place in the tables -/

/-- The `k`-th register of a block's table. -/
abbrev regDesc (u k : Nat) : RegDesc := (regsOfUnit u).getD k ⟨"", 0, [], []⟩

/-- Place and index of the register at an offset. -/
def regIdx : List RegDesc → Nat → Option (Nat × Nat)
  | [], _ => none
  | d :: ds, off => (d.index? off).elim ((regIdx ds off).map fun e => (e.1 + 1, e.2)) fun i => some (0, i)

theorem findReg_of {l : List RegDesc} {off k i : Nat} (h : regIdx l off = some (k, i)) :
    findReg l off = some (l.getD k ⟨"", 0, [], []⟩, i) := by
  induction l generalizing k with
  | nil => cases h
  | cons d ds ih =>
    unfold regIdx at h
    unfold findReg
    cases hd : d.index? off with
    | some j =>
      rw [hd] at h
      cases h
      rfl
    | none =>
      rw [hd, Option.elim_none] at h
      cases hr : regIdx ds off with
      | none => rw [hr] at h; cases h
      | some e =>
        rw [hr] at h
        cases h
        exact ih hr

/-- An address names the `i`-th of the registers at place `k` of a block's table. -/
abbrev IsReg (a u k i : Nat) : Prop :=
  blockBase ≤ a ∧ unitOf a = u ∧ canonical a = a ∧ regIdx (regsOfUnit u) (offsetOf a) = some (k, i)

theorem IsReg.at {a u k i : Nat} (h : IsReg a u k i) : regAt a = some (regDesc u k, i) := by
  unfold regAt
  rw [if_neg (Nat.not_lt.2 h.1), h.2.1]
  exact findReg_of h.2.2.2

/-- A write that reaches a register outside the control engine is stored. -/
theorem IsReg.stored {a u k i : Nat} (h : IsReg a u k i) {s : State} {w : Word} {busy : Bool} (hu : u ≠ 3 := by decide)
    (hrest : s.pwr.restoring = false) (hcov : (regDesc u k).reach (.core 0) s.locked ≠ 0) :
    Stored a (s.put (s.wrote a (regDesc u k) w) busy).1 (s.blockStore 0 a w busy) :=
  State.blockStore_stored h.at h.2.2.1 hrest hcov (State.turnedAway_none (fun e => hu (h.2.1.symm.trans e)) rfl)

/-- Outside the parameter words of the thermal model every bit of a register is listed. -/
theorem listedBits_all {a : Nat} (h : unitOf a ≠ 12) : listedBits a = 0xFFFFFFFF := by
  unfold listedBits
  have e : (List.range 64).find? (fun i => a == Reg.THM_PSs_w (i / 32) (i % 32)) = none := by
    rw [List.find?_eq_none]
    intro i _ hi
    rw [beq_iff_eq] at hi
    apply h
    rw [hi, Reg.THM_PSs_w]
    unfold unitOf blockBase
    omega
  rw [e]

/-- Outside the thermal model a word settles by the clamps across fields alone. -/
theorem State.settled_word (s : State) {a : Nat} (hu : unitOf a ≠ 12) (r : Word × Bool) : (s.settled a r).1 = s.crossClamp a r.1 := by
  unfold State.settled
  dsimp only
  rw [listedBits_all hu]
  exact congrArg (s.crossClamp a) BitVec.and_allOnes

/-- The word written where no clamp across fields acts. -/
theorem State.wrote_new {s : State} {a : Nat} {d : RegDesc} {w : Word}
    (hx : ∀ v, s.crossClamp a v = v) (hu : unitOf a ≠ 12) :
    (s.wrote a d w).new = (d.written (.core 0) s.locked (s.reg a) w 0xFFFFFFFF).1 := by
  unfold State.wrote State.written
  exact (s.settled_word hu _).trans (hx _)

end Sys2Proof.Machine
end

