-- ==== Sys2Proof/Laws/EffectBusCmd.lean ====
section
/-! SUPPORT. Ring control -/

set_option Elab.async false

namespace Sys2Proof.Machine

theorem State.put_cmd {s : State} {x : Wr} {busy : Bool} (h : unitOf x.a = 2) : s.put x busy = s.putCmd x := by
  unfold State.put
  simp only [h]
  rfl
theorem sqCtrl_place : ∀ n : Fin 16, IsReg (Reg.CMD_SQn_CTRL n) 2 6 n ∧ Reg.CMD_SQn_CTRL n ≠ Reg.CMD_EVTCFG ∧
    elemOf (Reg.CMD_SQn_CTRL n) (Reg.CMD_SQn_CFG 0) 0x20 16 = none ∧
    elemOf (Reg.CMD_SQn_CTRL n) (Reg.CMD_SQn_CTRL 0) 0x20 16 = some n.val := by decide
theorem sqCtrl_reach (l : Bool) : (regDesc 2 6).reach (.core 0) l = 7 := by cases l <;> rfl
theorem State.putCmd_ctrl {s : State} {x : Wr} {n : Nat} (h1 : x.a ≠ Reg.CMD_EVTCFG)
    (h2 : elemOf x.a (Reg.CMD_SQn_CFG 0) 0x20 16 = none) (h3 : elemOf x.a (Reg.CMD_SQn_CTRL 0) 0x20 16 = some n) :
    (s.putCmd x).1 = s.sqCtrlWritten n x.ones := by
  unfold State.putCmd
  rw [if_neg h1, h2, h3]
/-- A write to CMD_SQn_CTRL acts on its ring. -/
theorem State.sqCtrl_stored {s : State} {n : Fin 16} {w : Word} (h : s.pwr.restoring = false) :
    Stored (Reg.CMD_SQn_CTRL n) (s.sqCtrlWritten n (w &&& 7)) (s.blockStore 0 (Reg.CMD_SQn_CTRL n) w) := by
  obtain ⟨hr, h1, h2, h3⟩ := sqCtrl_place n
  have hs := hr.stored (s := s) (w := w) (busy := false) (by decide) h (by rw [sqCtrl_reach]; decide)
  have hp : (s.put (s.wrote (Reg.CMD_SQn_CTRL n) (regDesc 2 6) w)).1 = s.sqCtrlWritten n (w &&& 7) := by
    rw [State.put_cmd (x := s.wrote (Reg.CMD_SQn_CTRL n) (regDesc 2 6) w) hr.2.1, State.putCmd_ctrl (n := n) h1 h2 h3]
    show s.sqCtrlWritten n (w &&& (regDesc 2 6).reach (.core 0) s.locked) = _
    rw [sqCtrl_reach]
  rw [hp] at hs
  exact hs
theorem cmd_clamp {a b : Nat} (hu : unitOf a = 2) (hb : b ≠ Reg.CMD_CLAMP) : clampCounter a ≠ some b := by
  unfold clampCounter
  simp only [hu]
  intro h
  exact hb (Option.some.inj h).symm

theorem resume_does :
    ∀ (n : Fin 16) (s : State), s.pwr.restoring = false → s.sqHalted n = true → Does (.resume n) s fun t =>
      (t.sq n).fetch = (s.sq n).haltFirst ∧ (t.sq n).epoch = (s.sq n).haltEpoch ∧ (t.sq n).opened = [] := by
  intro n s h hh
  have hs := State.sqCtrl_stored (n := n) (w := Fld.CMD_SQn_CTRL.RESUME.only 1) h
  have he : s.sqCtrlWritten n (Fld.CMD_SQn_CTRL.RESUME.only 1 &&& 7) = s.sqResume n := rfl
  rw [he] at hs
  refine ⟨_, exec_resume.trans rfl, ?_⟩
  dsimp only
  rw [hs.sq]
  unfold State.sqResume
  rw [if_pos hh]
  extract_lets r s1
  rw [(State.refreshRings_frame).sq, (State.showFetch_frame).sq, (State.setSqState_frame).sq, State.sq_setSq, if_pos rfl]
  exact ⟨rfl, rfl, rfl⟩

theorem flush_does :
    ∀ (n : Fin 16) (s : State), s.pwr.restoring = false → s.sqHalted n = true → Does (.flush n) s fun t =>
      (t.sq n).opened = [] ∧ (t.sq n).flushing.map (·.slot) =
        (slotsTo (s.sqSize n) (s.sq n).pi (s.sqSize n) (s.sq n).haltFirst (s.sq n).haltEpoch).map (·.1) := by
  intro n s h hh
  have hs := State.sqCtrl_stored (n := n) (w := Fld.CMD_SQn_CTRL.FLUSH.only 1) h
  have he : s.sqCtrlWritten n (Fld.CMD_SQn_CTRL.FLUSH.only 1 &&& 7) = s.sqFlush n := rfl
  rw [he] at hs
  refine ⟨_, exec_flush.trans rfl, ?_⟩
  dsimp only
  rw [hs.sq]
  unfold State.sqFlush
  rw [if_pos hh]
  extract_lets r slots recs past
  rw [(State.flushEnds_frame).sq, (State.refreshRings_frame).sq, State.sq_setSq, if_pos rfl]
  refine ⟨rfl, ?_⟩
  simp only [recs, List.map_map]
  refine List.map_congr_left fun e _ => ?_
  dsimp only [Function.comp]
  split
  · next m hm =>
    have := List.find?_some hm
    simp only [Bool.and_eq_true, beq_iff_eq] at this
    exact this.1
  · rfl

theorem clrcnt_does :
    ∀ (n : Fin 16) (s : State), s.pwr.restoring = false → Does (.clrcnt n) s fun t => t.reg (Reg.CMD_SQn_CNT n) = 0 := by
  intro n s h
  have hs := State.sqCtrl_stored (n := n) (w := Fld.CMD_SQn_CTRL.CLRCNT.only 1) h
  have he : s.sqCtrlWritten n (Fld.CMD_SQn_CTRL.CLRCNT.only 1 &&& 7) = s.setReg (Reg.CMD_SQn_CNT n) 0 := rfl
  rw [he] at hs
  refine ⟨_, exec_clrcnt.trans rfl, ?_⟩
  dsimp only
  rw [hs.reg _ (cmd_clamp (sqCtrl_place n).1.2.1 (reg_ne (regNo_CMD_SQn_CNT _) regNo_CMD_CLAMP))]
  exact s.reg_setReg_same _ _

end Sys2Proof.Machine
end

