-- ==== Sys2Proof/Laws/EffectRings.lean ====
section
/-! SUPPORT. Doorbells -/

set_option Elab.async false

namespace Sys2Proof.Machine

theorem State.sqBell_result (s : State) (n : Nat) (w : Word) :
    (w.toNat % 2 ^ 12 < s.sqSize n → ((s.sqBell n w).sq n).pi = w.toNat % 2 ^ 12) ∧
    (s.sqSize n ≤ w.toNat % 2 ^ 12 → (s.sqBell n w).sq n = s.sq n ∧
      (s.sqBell n w).fld (Reg.CMD_SQn_CNT n) Fld.CMD_SQn_CNT.BADDB =
        satAdd 8 (s.fld (Reg.CMD_SQn_CNT n) Fld.CMD_SQn_CNT.BADDB) 1) := by
  unfold State.sqBell
  extract_lets pi
  by_cases h : s.sqSize n ≤ pi
  · rw [if_pos h]
    exact ⟨fun h' => absurd h (by omega), fun _ => ⟨rfl, s.fld_count (Reg.CMD_SQn_CNT n) Fld.CMD_SQn_CNT.BADDB 1⟩⟩
  · rw [if_neg h]
    refine ⟨fun _ => ?_, fun h' => absurd h' h⟩
    rw [(State.refreshRings_frame).sq, State.sq_setSq, if_pos rfl]
theorem State.recBell_result (s : State) (m : Nat) (w : Word) :
    (w.toNat % 2 ^ 12 < s.ringSize m → ((s.recBell m w).ring m).ci = w.toNat % 2 ^ 12 ∧
      ((s.recBell m w).ring m).pi = (s.ring m).pi) ∧
    (s.ringSize m ≤ w.toNat % 2 ^ 12 → (s.recBell m w).ring m = s.ring m) := by
  unfold State.recBell
  extract_lets ci r left
  by_cases h : s.ringSize m ≤ ci
  · rw [if_pos h]
    exact ⟨fun h' => absurd h (by omega), fun _ => rfl⟩
  · rw [if_neg h]
    refine ⟨fun _ => ?_, fun h' => absurd h' h⟩
    rw [State.ring_setRing, if_pos rfl]
    exact ⟨rfl, rfl⟩
theorem State.postOverflow_none {s : State} (h : s.cmd.drops = 0) : s.postOverflow = s := by
  unfold State.postOverflow
  rw [if_neg (by simp [h])]

theorem State.bell_sqSize (s : State) (off : Nat) (w : Word) (n : Nat) : (s.bellStored off w).snooped.sqSize n = s.sqSize n := rfl
theorem State.bell_ringSize (s : State) (off : Nat) (w : Word) (n : Nat) : (s.bellStored off w).snooped.ringSize n = s.ringSize n := rfl
theorem State.bell_sq (s : State) (off : Nat) (w : Word) (n : Nat) : (s.bellStored off w).snooped.sq n = s.sq n := rfl
theorem State.bell_ring (s : State) (off : Nat) (w : Word) (n : Nat) : (s.bellStored off w).snooped.ring n = s.ring n := rfl
theorem State.bell_fld (s : State) (off : Nat) (w : Word) (a : Nat) (f : Bits) : (s.bellStored off w).snooped.fld a f = s.fld a f := rfl

theorem sqDoorbellWrite_does :
    ∀ (n : Fin 16) (w : Word) (s : State), Does (.sqDoorbellWrite n w) s fun t =>
      t.sram (doorbell + 4 * n.val) = w ∧ t.now = s.now + 4 * esPerFc ∧ t.bus = .done ∧
      (w.toNat % 2 ^ 12 < s.sqSize n → (t.sq n).pi = w.toNat % 2 ^ 12) ∧
      (s.sqSize n ≤ w.toNat % 2 ^ 12 → t.sq n = s.sq n ∧
        t.fld (Reg.CMD_SQn_CNT n) Fld.CMD_SQn_CNT.BADDB = satAdd 8 (s.fld (Reg.CMD_SQn_CNT n) Fld.CMD_SQn_CNT.BADDB) 1) := by
  intro n w s
  have hf := State.sqBell_frame (s := (s.bellStored (doorbell + 4 * n.val) w).snooped) (x1 := n) (x2 := w)
  have hr := State.sqBell_result (s.bellStored (doorbell + 4 * n.val) w).snooped n w
  have h1 := ((hf.sram (doorbell + 4 * n.val)).trans ((State.snooped_frame).sram _)).trans (s.bellStored_sram _ w)
  rw [s.bell_sqSize (doorbell + 4 * n.val) w, s.bell_sq (doorbell + 4 * n.val) w, s.bell_fld (doorbell + 4 * n.val) w] at hr
  have h2 := (hf.now (by decide)).trans (Nat.max_eq_right (Nat.le_add_right _ _))
  refine ⟨_, exec_sqDoorbellWrite.trans rfl, ?_⟩
  dsimp only
  generalize (s.bellStored (doorbell + 4 * n.val) w).snooped.sqBell n w = u at h1 h2 hr
  exact ⟨h1, h2, rfl, hr.1, hr.2⟩

theorem cqConsumerIndexWrite_does :
    ∀ (m : Fin 4) (w : Word) (s : State), Does (.cqConsumerIndexWrite m w) s fun t =>
      t.sram (doorbell + 0x40 + 4 * m.val) = w ∧ t.now = s.now + 4 * esPerFc ∧ t.bus = .done ∧
      (w.toNat % 2 ^ 12 < s.ringSize m → (t.ring m).ci = w.toNat % 2 ^ 12 ∧ (t.ring m).pi = (s.ring m).pi) ∧
      (s.ringSize m ≤ w.toNat % 2 ^ 12 → t.ring m = s.ring m) := by
  intro m w s
  have hf := State.recBell_frame (s := (s.bellStored (doorbell + 0x40 + 4 * m.val) w).snooped) (m := m) (w := w)
  have hr := State.recBell_result (s.bellStored (doorbell + 0x40 + 4 * m.val) w).snooped m w
  have h1 := ((hf.sram (doorbell + 0x40 + 4 * m.val)).trans ((State.snooped_frame).sram _)).trans (s.bellStored_sram _ w)
  rw [s.bell_ringSize (doorbell + 0x40 + 4 * m.val) w, s.bell_ring (doorbell + 0x40 + 4 * m.val) w] at hr
  have h2 := (hf.now (by decide)).trans (Nat.max_eq_right (Nat.le_add_right _ _))
  refine ⟨_, exec_cqConsumerIndexWrite.trans rfl, ?_⟩
  dsimp only
  generalize (s.bellStored (doorbell + 0x40 + 4 * m.val) w).snooped.recBell m w = u at h1 h2 hr
  exact ⟨h1, h2, rfl, hr.1, hr.2⟩

theorem eqConsumerIndexWrite_does :
    ∀ (w : Word) (s : State), s.cmd.drops = 0 → Does (.eqConsumerIndexWrite w) s fun t =>
      t.sram (doorbell + 0x50) = w ∧ t.now = s.now + 4 * esPerFc ∧ t.bus = .done ∧
      (w.toNat % 2 ^ 12 < s.ringSize 4 → (t.ring 4).ci = w.toNat % 2 ^ 12 ∧ (t.ring 4).pi = (s.ring 4).pi) ∧
      (s.ringSize 4 ≤ w.toNat % 2 ^ 12 → t.ring 4 = s.ring 4) := by
  intro w s hd
  have hf := State.recBell_frame (s := (s.bellStored (doorbell + 0x50) w).snooped) (m := 4) (w := w)
  have hr := State.recBell_result (s.bellStored (doorbell + 0x50) w).snooped 4 w
  have he : (s.bellStored (doorbell + 0x50) w).snooped.eqBell w = (s.bellStored (doorbell + 0x50) w).snooped.recBell 4 w := by
    unfold State.eqBell
    refine State.postOverflow_none ?_
    have := hf.cmdRest (by decide)
    exact (congrArg Cmd.drops this).trans hd
  have h1 := ((hf.sram (doorbell + 0x50)).trans ((State.snooped_frame).sram _)).trans (s.bellStored_sram _ w)
  rw [s.bell_ringSize (doorbell + 0x50) w, s.bell_ring (doorbell + 0x50) w] at hr
  have h2 := (hf.now (by decide)).trans (Nat.max_eq_right (Nat.le_add_right _ _))
  refine ⟨_, exec_eqConsumerIndexWrite.trans rfl, ?_⟩
  dsimp only
  rw [he]
  generalize (s.bellStored (doorbell + 0x50) w).snooped.recBell 4 w = u at h1 h2 hr
  exact ⟨h1, h2, rfl, hr.1, hr.2⟩

end Sys2Proof.Machine
end

