-- ==== Sys2Proof/Laws/RegNoAll.lean ====
section
/-! SUPPORT. The number of a register's name, for the names that no frame law uses. -/

set_option Elab.async false

namespace Sys2Proof.Machine

theorem regNo_SYS_FAULTCFG : regNo Reg.SYS_FAULTCFG = 3 := by decide +kernel
theorem regNo_SYS_BOOTOK : regNo Reg.SYS_BOOTOK = 6 := by decide +kernel
theorem regNo_SYS_RSTCTL : regNo Reg.SYS_RSTCTL = 8 := by decide +kernel
theorem regNo_CLK_REF : regNo Reg.CLK_REF = 13 := by decide +kernel
theorem regNo_CLK_CLAMP : regNo Reg.CLK_CLAMP = 15 := by decide +kernel
theorem regNo_CLK_PLLp_CFG (p : Nat) : regNo (Reg.CLK_PLLp_CFG p) = 17 :=
  (by decide +kernel : ∀ p : Fin 2, regNo (0x40010100 + 0x20 * p.val) = 17) ⟨p % 2, Nat.mod_lt _ (by decide)⟩
theorem regNo_CLK_PLLp_FRAC (p : Nat) : regNo (Reg.CLK_PLLp_FRAC p) = 18 :=
  (by decide +kernel : ∀ p : Fin 2, regNo (0x40010104 + 0x20 * p.val) = 18) ⟨p % 2, Nat.mod_lt _ (by decide)⟩
theorem regNo_CLK_HOLD : regNo Reg.CLK_HOLD = 21 := by decide +kernel
theorem regNo_CLK_DISC : regNo Reg.CLK_DISC = 22 := by decide +kernel
theorem regNo_CLK_OUTn_CFG (n : Nat) : regNo (Reg.CLK_OUTn_CFG n) = 23 :=
  (by decide +kernel : ∀ n : Fin 2, regNo (0x40010400 + 0x04 * n.val) = 23) ⟨n % 2, Nat.mod_lt _ (by decide)⟩
theorem regNo_CLK_TICKIN_CFG : regNo Reg.CLK_TICKIN_CFG = 24 := by decide +kernel
theorem regNo_CLK_TICKIN_OFS : regNo Reg.CLK_TICKIN_OFS = 25 := by decide +kernel
theorem regNo_CLK_RTC_LO : regNo Reg.CLK_RTC_LO = 27 := by decide +kernel
theorem regNo_CLK_TICKCFG : regNo Reg.CLK_TICKCFG = 29 := by decide +kernel
theorem regNo_CLK_TICKCNT_LO : regNo Reg.CLK_TICKCNT_LO = 30 := by decide +kernel
theorem regNo_CMD_PSN : regNo Reg.CMD_PSN = 35 := by decide +kernel
theorem regNo_CMD_EVTCFG : regNo Reg.CMD_EVTCFG = 37 := by decide +kernel
theorem regNo_CMD_SQn_CFG (n : Nat) : regNo (Reg.CMD_SQn_CFG n) = 40 :=
  (by decide +kernel : ∀ n : Fin 16, regNo (0x40020104 + 0x20 * n.val) = 40) ⟨n % 16, Nat.mod_lt _ (by decide)⟩
theorem regNo_CMD_SQn_CTRL (n : Nat) : regNo (Reg.CMD_SQn_CTRL n) = 41 :=
  (by decide +kernel : ∀ n : Fin 16, regNo (0x40020108 + 0x20 * n.val) = 41) ⟨n % 16, Nat.mod_lt _ (by decide)⟩
theorem regNo_CMD_CQm_BASE (m : Nat) : regNo (Reg.CMD_CQm_BASE m) = 44 :=
  (by decide +kernel : ∀ m : Fin 4, regNo (0x40020400 + 0x10 * m.val) = 44) ⟨m % 4, Nat.mod_lt _ (by decide)⟩
theorem regNo_CMD_CQm_CFG (m : Nat) : regNo (Reg.CMD_CQm_CFG m) = 45 :=
  (by decide +kernel : ∀ m : Fin 4, regNo (0x40020404 + 0x10 * m.val) = 45) ⟨m % 4, Nat.mod_lt _ (by decide)⟩
theorem regNo_CMD_CQm_IRQ (m : Nat) : regNo (Reg.CMD_CQm_IRQ m) = 46 :=
  (by decide +kernel : ∀ m : Fin 4, regNo (0x40020408 + 0x10 * m.val) = 46) ⟨m % 4, Nat.mod_lt _ (by decide)⟩
theorem regNo_CMD_EQ_BASE : regNo Reg.CMD_EQ_BASE = 47 := by decide +kernel
theorem regNo_CMD_EQ_CFG : regNo Reg.CMD_EQ_CFG = 48 := by decide +kernel
theorem regNo_CMD_EQ_IRQ : regNo Reg.CMD_EQ_IRQ = 49 := by decide +kernel
theorem regNo_ENG_CLAMP : regNo Reg.ENG_CLAMP = 59 := by decide +kernel
theorem regNo_TPR_CFG : regNo Reg.TPR_CFG = 64 := by decide +kernel
theorem regNo_TPR_CLAMP : regNo Reg.TPR_CLAMP = 69 := by decide +kernel
theorem regNo_PWM_SPCFG : regNo Reg.PWM_SPCFG = 77 := by decide +kernel
theorem regNo_PWM_CLAMP : regNo Reg.PWM_CLAMP = 78 := by decide +kernel
theorem regNo_TBn_PHASE (n : Nat) : regNo (Reg.TBn_PHASE n) = 81 :=
  (by decide +kernel : ∀ n : Fin 4, regNo (0x40050108 + 0x20 * n.val) = 81) ⟨n % 4, Nat.mod_lt _ (by decide)⟩
theorem regNo_PAIRk_CFG (k : Nat) : regNo (Reg.PAIRk_CFG k) = 84 :=
  (by decide +kernel : ∀ k : Fin 16, regNo (0x40051000 + 0x40 * k.val) = 84) ⟨k % 16, Nat.mod_lt _ (by decide)⟩
theorem regNo_PAIRk_DT (k : Nat) : regNo (Reg.PAIRk_DT k) = 85 :=
  (by decide +kernel : ∀ k : Fin 16, regNo (0x40051004 + 0x40 * k.val) = 85) ⟨k % 16, Nat.mod_lt _ (by decide)⟩
theorem regNo_PAIRk_MINP (k : Nat) : regNo (Reg.PAIRk_MINP k) = 86 :=
  (by decide +kernel : ∀ k : Fin 16, regNo (0x40051008 + 0x40 * k.val) = 86) ⟨k % 16, Nat.mod_lt _ (by decide)⟩
theorem regNo_PAIRk_CMP (k : Nat) : regNo (Reg.PAIRk_CMP k) = 87 :=
  (by decide +kernel : ∀ k : Fin 16, regNo (0x4005100C + 0x40 * k.val) = 87) ⟨k % 16, Nat.mod_lt _ (by decide)⟩
theorem regNo_PAIRk_SHD (k : Nat) : regNo (Reg.PAIRk_SHD k) = 88 :=
  (by decide +kernel : ∀ k : Fin 16, regNo (0x40051010 + 0x40 * k.val) = 88) ⟨k % 16, Nat.mod_lt _ (by decide)⟩
theorem regNo_PROT_CFG : regNo Reg.PROT_CFG = 95 := by decide +kernel
theorem regNo_PROT_CLAMP : regNo Reg.PROT_CLAMP = 96 := by decide +kernel
theorem regNo_PROT_UNITMAP0 : regNo Reg.PROT_UNITMAP0 = 97 := by decide +kernel
theorem regNo_PROT_UNITMAP1 : regNo Reg.PROT_UNITMAP1 = 98 := by decide +kernel
theorem regNo_PROT_EXTn_CFG (n : Nat) : regNo (Reg.PROT_EXTn_CFG n) = 105 :=
  (by decide +kernel : ∀ n : Fin 16, regNo (0x40060100 + 0x04 * n.val) = 105) ⟨n % 16, Nat.mod_lt _ (by decide)⟩
theorem regNo_PROT_INTn_CFG (n : Nat) : regNo (Reg.PROT_INTn_CFG n) = 106 :=
  (by decide +kernel : ∀ n : Fin 24, regNo (0x40060200 + 0x04 * n.val) = 106) ⟨n % 24, Nat.mod_lt _ (by decide)⟩
theorem regNo_PROT_BRb_CFG (b : Nat) : regNo (Reg.PROT_BRb_CFG b) = 109 :=
  (by decide +kernel : ∀ b : Fin 2, regNo (0x40060400 + 0x20 * b.val) = 109) ⟨b % 2, Nat.mod_lt _ (by decide)⟩
theorem regNo_PROT_BRb_THR (b : Nat) : regNo (Reg.PROT_BRb_THR b) = 110 :=
  (by decide +kernel : ∀ b : Fin 2, regNo (0x40060404 + 0x20 * b.val) = 110) ⟨b % 2, Nat.mod_lt _ (by decide)⟩
theorem regNo_PROT_BRb_KE (b : Nat) : regNo (Reg.PROT_BRb_KE b) = 111 :=
  (by decide +kernel : ∀ b : Fin 2, regNo (0x40060408 + 0x20 * b.val) = 111) ⟨b % 2, Nat.mod_lt _ (by decide)⟩
theorem regNo_PROT_DIS_CFG : regNo Reg.PROT_DIS_CFG = 113 := by decide +kernel
theorem regNo_PROT_DIS_RDIS : regNo Reg.PROT_DIS_RDIS = 114 := by decide +kernel
theorem regNo_PROT_DIS_PMAX : regNo Reg.PROT_DIS_PMAX = 115 := by decide +kernel
theorem regNo_PROT_DIS_EMAX : regNo Reg.PROT_DIS_EMAX = 116 := by decide +kernel
theorem regNo_PROT_DIS_CLINK : regNo Reg.PROT_DIS_CLINK = 117 := by decide +kernel
theorem regNo_PROT_DIS_IDDIS : regNo Reg.PROT_DIS_IDDIS = 118 := by decide +kernel
theorem regNo_PROT_DIS_VTGT : regNo Reg.PROT_DIS_VTGT = 119 := by decide +kernel
theorem regNo_PROT_DIS_AUTODL : regNo Reg.PROT_DIS_AUTODL = 120 := by decide +kernel
theorem regNo_ACQ_CFG : regNo Reg.ACQ_CFG = 126 := by decide +kernel
theorem regNo_ACQ_CLAMP : regNo Reg.ACQ_CLAMP = 128 := by decide +kernel
theorem regNo_ACQ_SPCFG : regNo Reg.ACQ_SPCFG = 130 := by decide +kernel
theorem regNo_ACQ_GRPg_CFG (g : Nat) : regNo (Reg.ACQ_GRPg_CFG g) = 131 :=
  (by decide +kernel : ∀ g : Fin 4, regNo (0x40070100 + 0x40 * g.val) = 131) ⟨g % 4, Nat.mod_lt _ (by decide)⟩
theorem regNo_ACQ_GRPg_DIAG (g : Nat) : regNo (Reg.ACQ_GRPg_DIAG g) = 132 :=
  (by decide +kernel : ∀ g : Fin 4, regNo (0x40070104 + 0x40 * g.val) = 132) ⟨g % 4, Nat.mod_lt _ (by decide)⟩
theorem regNo_ACQ_GRPg_SUMCFG (g : Nat) : regNo (Reg.ACQ_GRPg_SUMCFG g) = 133 :=
  (by decide +kernel : ∀ g : Fin 4, regNo (0x40070108 + 0x40 * g.val) = 133) ⟨g % 4, Nat.mod_lt _ (by decide)⟩
theorem regNo_ACQ_GRPg_SUMTOL (g : Nat) : regNo (Reg.ACQ_GRPg_SUMTOL g) = 134 :=
  (by decide +kernel : ∀ g : Fin 4, regNo (0x4007010C + 0x40 * g.val) = 134) ⟨g % 4, Nat.mod_lt _ (by decide)⟩
theorem regNo_ACQ_GRPg_URGCFG (g : Nat) : regNo (Reg.ACQ_GRPg_URGCFG g) = 135 :=
  (by decide +kernel : ∀ g : Fin 4, regNo (0x40070110 + 0x40 * g.val) = 135) ⟨g % 4, Nat.mod_lt _ (by decide)⟩
theorem regNo_ACQ_GRPg_URGCNT (g : Nat) : regNo (Reg.ACQ_GRPg_URGCNT g) = 136 :=
  (by decide +kernel : ∀ g : Fin 4, regNo (0x40070114 + 0x40 * g.val) = 136) ⟨g % 4, Nat.mod_lt _ (by decide)⟩
theorem regNo_ACQ_GRPg_URGGO (g : Nat) : regNo (Reg.ACQ_GRPg_URGGO g) = 137 :=
  (by decide +kernel : ∀ g : Fin 4, regNo (0x40070118 + 0x40 * g.val) = 137) ⟨g % 4, Nat.mod_lt _ (by decide)⟩
theorem regNo_ACQ_INk_GAIN (k : Nat) : regNo (Reg.ACQ_INk_GAIN k) = 145 :=
  (by decide +kernel : ∀ k : Fin 48, regNo (0x40070800 + 0x10 * k.val) = 145) ⟨k % 48, Nat.mod_lt _ (by decide)⟩
theorem regNo_ACQ_INk_OFF (k : Nat) : regNo (Reg.ACQ_INk_OFF k) = 146 :=
  (by decide +kernel : ∀ k : Fin 48, regNo (0x40070804 + 0x10 * k.val) = 146) ⟨k % 48, Nat.mod_lt _ (by decide)⟩
theorem regNo_ACQ_INk_CFG (k : Nat) : regNo (Reg.ACQ_INk_CFG k) = 147 :=
  (by decide +kernel : ∀ k : Fin 48, regNo (0x40070808 + 0x10 * k.val) = 147) ⟨k % 48, Nat.mod_lt _ (by decide)⟩
theorem regNo_ACQ_DSc_CFG (c : Nat) : regNo (Reg.ACQ_DSc_CFG c) = 153 :=
  (by decide +kernel : ∀ c : Fin 12, regNo (0x40073000 + 0x20 * c.val) = 153) ⟨c % 12, Nat.mod_lt _ (by decide)⟩
theorem regNo_ACQ_DSc_GAIN (c : Nat) : regNo (Reg.ACQ_DSc_GAIN c) = 154 :=
  (by decide +kernel : ∀ c : Fin 12, regNo (0x40073004 + 0x20 * c.val) = 154) ⟨c % 12, Nat.mod_lt _ (by decide)⟩
theorem regNo_ACQ_DSc_OFF (c : Nat) : regNo (Reg.ACQ_DSc_OFF c) = 155 :=
  (by decide +kernel : ∀ c : Fin 12, regNo (0x40073008 + 0x20 * c.val) = 155) ⟨c % 12, Nat.mod_lt _ (by decide)⟩
theorem regNo_ACQ_DSc_LIMHI (c : Nat) : regNo (Reg.ACQ_DSc_LIMHI c) = 156 :=
  (by decide +kernel : ∀ c : Fin 12, regNo (0x4007300C + 0x20 * c.val) = 156) ⟨c % 12, Nat.mod_lt _ (by decide)⟩
theorem regNo_ACQ_DSc_LIMLO (c : Nat) : regNo (Reg.ACQ_DSc_LIMLO c) = 157 :=
  (by decide +kernel : ∀ c : Fin 12, regNo (0x40073010 + 0x20 * c.val) = 157) ⟨c % 12, Nat.mod_lt _ (by decide)⟩
theorem regNo_ACQ_SDCLKn_CFG (n : Nat) : regNo (Reg.ACQ_SDCLKn_CFG n) = 161 :=
  (by decide +kernel : ∀ n : Fin 4, regNo (0x40073400 + 0x04 * n.val) = 161) ⟨n % 4, Nat.mod_lt _ (by decide)⟩
theorem regNo_POS_CFG : regNo Reg.POS_CFG = 163 := by decide +kernel
theorem regNo_POS_AGREE : regNo Reg.POS_AGREE = 164 := by decide +kernel
theorem regNo_POS_DIRHYS : regNo Reg.POS_DIRHYS = 165 := by decide +kernel
theorem regNo_POS_CLAMP : regNo Reg.POS_CLAMP = 166 := by decide +kernel
theorem regNo_POS_CHc_CFG (c : Nat) : regNo (Reg.POS_CHc_CFG c) = 168 :=
  (by decide +kernel : ∀ c : Fin 2, regNo (0x40080100 + 0x100 * c.val) = 168) ⟨c % 2, Nat.mod_lt _ (by decide)⟩
theorem regNo_POS_CHc_OFFSET (c : Nat) : regNo (Reg.POS_CHc_OFFSET c) = 169 :=
  (by decide +kernel : ∀ c : Fin 2, regNo (0x40080104 + 0x100 * c.val) = 169) ⟨c % 2, Nat.mod_lt _ (by decide)⟩
theorem regNo_POS_CHc_OBS (c : Nat) : regNo (Reg.POS_CHc_OBS c) = 170 :=
  (by decide +kernel : ∀ c : Fin 2, regNo (0x40080108 + 0x100 * c.val) = 170) ⟨c % 2, Nat.mod_lt _ (by decide)⟩
theorem regNo_POS_CHc_FILT (c : Nat) : regNo (Reg.POS_CHc_FILT c) = 171 :=
  (by decide +kernel : ∀ c : Fin 2, regNo (0x4008010C + 0x100 * c.val) = 171) ⟨c % 2, Nat.mod_lt _ (by decide)⟩
theorem regNo_POS_CHc_ABZ (c : Nat) : regNo (Reg.POS_CHc_ABZ c) = 172 :=
  (by decide +kernel : ∀ c : Fin 2, regNo (0x40080110 + 0x100 * c.val) = 172) ⟨c % 2, Nat.mod_lt _ (by decide)⟩
theorem regNo_POS_CHc_RES (c : Nat) : regNo (Reg.POS_CHc_RES c) = 173 :=
  (by decide +kernel : ∀ c : Fin 2, regNo (0x40080114 + 0x100 * c.val) = 173) ⟨c % 2, Nat.mod_lt _ (by decide)⟩
theorem regNo_POS_CHc_SENT (c : Nat) : regNo (Reg.POS_CHc_SENT c) = 174 :=
  (by decide +kernel : ∀ c : Fin 2, regNo (0x40080118 + 0x100 * c.val) = 174) ⟨c % 2, Nat.mod_lt _ (by decide)⟩
theorem regNo_POS_CHc_SSI (c : Nat) : regNo (Reg.POS_CHc_SSI c) = 175 :=
  (by decide +kernel : ∀ c : Fin 2, regNo (0x4008011C + 0x100 * c.val) = 175) ⟨c % 2, Nat.mod_lt _ (by decide)⟩
theorem regNo_POS_CHc_SSI2 (c : Nat) : regNo (Reg.POS_CHc_SSI2 c) = 176 :=
  (by decide +kernel : ∀ c : Fin 2, regNo (0x40080120 + 0x100 * c.val) = 176) ⟨c % 2, Nat.mod_lt _ (by decide)⟩
theorem regNo_FLD_CFG : regNo Reg.FLD_CFG = 183 := by decide +kernel
theorem regNo_FLD_CLAMP : regNo Reg.FLD_CLAMP = 184 := by decide +kernel
theorem regNo_FLD_MCm_CFG (m : Nat) : regNo (Reg.FLD_MCm_CFG m) = 185 :=
  (by decide +kernel : ∀ m : Fin 2, regNo (0x40090100 + 0x80 * m.val) = 185) ⟨m % 2, Nat.mod_lt _ (by decide)⟩
theorem regNo_FLD_MCm_START (m : Nat) : regNo (Reg.FLD_MCm_START m) = 186 :=
  (by decide +kernel : ∀ m : Fin 2, regNo (0x40090104 + 0x80 * m.val) = 186) ⟨m % 2, Nat.mod_lt _ (by decide)⟩
theorem regNo_FLD_MCm_HO (m : Nat) : regNo (Reg.FLD_MCm_HO m) = 187 :=
  (by decide +kernel : ∀ m : Fin 2, regNo (0x40090108 + 0x80 * m.val) = 187) ⟨m % 2, Nat.mod_lt _ (by decide)⟩
theorem regNo_FLD_MCm_BW (m : Nat) : regNo (Reg.FLD_MCm_BW m) = 188 :=
  (by decide +kernel : ∀ m : Fin 2, regNo (0x4009010C + 0x80 * m.val) = 188) ⟨m % 2, Nat.mod_lt _ (by decide)⟩
theorem regNo_FLD_MCm_INP (m : Nat) : regNo (Reg.FLD_MCm_INP m) = 189 :=
  (by decide +kernel : ∀ m : Fin 2, regNo (0x40090110 + 0x80 * m.val) = 189) ⟨m % 2, Nat.mod_lt _ (by decide)⟩
theorem regNo_FLD_MCm_VIN (m : Nat) : regNo (Reg.FLD_MCm_VIN m) = 190 :=
  (by decide +kernel : ∀ m : Fin 2, regNo (0x40090114 + 0x80 * m.val) = 190) ⟨m % 2, Nat.mod_lt _ (by decide)⟩
theorem regNo_FLD_MCm_DIR (m : Nat) : regNo (Reg.FLD_MCm_DIR m) = 191 :=
  (by decide +kernel : ∀ m : Fin 2, regNo (0x40090118 + 0x80 * m.val) = 191) ⟨m % 2, Nat.mod_lt _ (by decide)⟩
theorem regNo_FLD_MCm_RS (m : Nat) : regNo (Reg.FLD_MCm_RS m) = 193 :=
  (by decide +kernel : ∀ m : Fin 2, regNo (0x40090120 + 0x80 * m.val) = 193) ⟨m % 2, Nat.mod_lt _ (by decide)⟩
theorem regNo_FLD_MCm_LD (m : Nat) : regNo (Reg.FLD_MCm_LD m) = 194 :=
  (by decide +kernel : ∀ m : Fin 2, regNo (0x40090124 + 0x80 * m.val) = 194) ⟨m % 2, Nat.mod_lt _ (by decide)⟩
theorem regNo_FLD_MCm_LQ (m : Nat) : regNo (Reg.FLD_MCm_LQ m) = 195 :=
  (by decide +kernel : ∀ m : Fin 2, regNo (0x40090128 + 0x80 * m.val) = 195) ⟨m % 2, Nat.mod_lt _ (by decide)⟩
theorem regNo_FLD_MCm_VHFI (m : Nat) : regNo (Reg.FLD_MCm_VHFI m) = 196 :=
  (by decide +kernel : ∀ m : Fin 2, regNo (0x4009012C + 0x80 * m.val) = 196) ⟨m % 2, Nat.mod_lt _ (by decide)⟩
theorem regNo_FLD_MCm_WCATCH (m : Nat) : regNo (Reg.FLD_MCm_WCATCH m) = 197 :=
  (by decide +kernel : ∀ m : Fin 2, regNo (0x40090130 + 0x80 * m.val) = 197) ⟨m % 2, Nat.mod_lt _ (by decide)⟩
theorem regNo_FLD_MCm_WB1 (m : Nat) : regNo (Reg.FLD_MCm_WB1 m) = 198 :=
  (by decide +kernel : ∀ m : Fin 2, regNo (0x40090134 + 0x80 * m.val) = 198) ⟨m % 2, Nat.mod_lt _ (by decide)⟩
theorem regNo_FLD_MCm_WB2 (m : Nat) : regNo (Reg.FLD_MCm_WB2 m) = 199 :=
  (by decide +kernel : ∀ m : Fin 2, regNo (0x40090138 + 0x80 * m.val) = 199) ⟨m % 2, Nat.mod_lt _ (by decide)⟩
theorem regNo_FLD_MCm_EMIN (m : Nat) : regNo (Reg.FLD_MCm_EMIN m) = 200 :=
  (by decide +kernel : ∀ m : Fin 2, regNo (0x4009013C + 0x80 * m.val) = 200) ⟨m % 2, Nat.mod_lt _ (by decide)⟩
theorem regNo_FLD_MCm_RESLIM (m : Nat) : regNo (Reg.FLD_MCm_RESLIM m) = 201 :=
  (by decide +kernel : ∀ m : Fin 2, regNo (0x40090140 + 0x80 * m.val) = 201) ⟨m % 2, Nat.mod_lt _ (by decide)⟩
theorem regNo_FLD_MCm_POLV (m : Nat) : regNo (Reg.FLD_MCm_POLV m) = 202 :=
  (by decide +kernel : ∀ m : Fin 2, regNo (0x40090144 + 0x80 * m.val) = 202) ⟨m % 2, Nat.mod_lt _ (by decide)⟩
theorem regNo_FLD_MCm_IFI (m : Nat) : regNo (Reg.FLD_MCm_IFI m) = 203 :=
  (by decide +kernel : ∀ m : Fin 2, regNo (0x40090148 + 0x80 * m.val) = 203) ⟨m % 2, Nat.mod_lt _ (by decide)⟩
theorem regNo_FLD_MCm_IFACC (m : Nat) : regNo (Reg.FLD_MCm_IFACC m) = 204 :=
  (by decide +kernel : ∀ m : Fin 2, regNo (0x4009014C + 0x80 * m.val) = 204) ⟨m % 2, Nat.mod_lt _ (by decide)⟩
theorem regNo_FLD_MCm_IFW (m : Nat) : regNo (Reg.FLD_MCm_IFW m) = 205 :=
  (by decide +kernel : ∀ m : Fin 2, regNo (0x40090150 + 0x80 * m.val) = 205) ⟨m % 2, Nat.mod_lt _ (by decide)⟩
theorem regNo_FLD_MCm_IFLOSS (m : Nat) : regNo (Reg.FLD_MCm_IFLOSS m) = 206 :=
  (by decide +kernel : ∀ m : Fin 2, regNo (0x40090154 + 0x80 * m.val) = 206) ⟨m % 2, Nat.mod_lt _ (by decide)⟩
theorem regNo_WGH_CLAMP : regNo Reg.WGH_CLAMP = 211 := by decide +kernel
theorem regNo_WGH_MCm_IN (m : Nat) : regNo (Reg.WGH_MCm_IN m) = 213 :=
  (by decide +kernel : ∀ m : Fin 2, regNo (0x400A0104 + 0x80 * m.val) = 213) ⟨m % 2, Nat.mod_lt _ (by decide)⟩
theorem regNo_WGH_MCm_KT (m : Nat) : regNo (Reg.WGH_MCm_KT m) = 214 :=
  (by decide +kernel : ∀ m : Fin 2, regNo (0x400A0108 + 0x80 * m.val) = 214) ⟨m % 2, Nat.mod_lt _ (by decide)⟩
theorem regNo_WGH_MCm_MF (m : Nat) : regNo (Reg.WGH_MCm_MF m) = 215 :=
  (by decide +kernel : ∀ m : Fin 2, regNo (0x400A010C + 0x80 * m.val) = 215) ⟨m % 2, Nat.mod_lt _ (by decide)⟩
theorem regNo_WGH_MCm_WSPDk (m k : Nat) : regNo (Reg.WGH_MCm_WSPDk m k) = 216 :=
  (by decide +kernel : ∀ m : Fin 2, ∀ k : Fin 4, regNo (0x400A0110 + 0x80 * m.val + 0x04 * k.val) = 216) ⟨m % 2, Nat.mod_lt _ (by decide)⟩ ⟨k % 4, Nat.mod_lt _ (by decide)⟩
theorem regNo_WGH_MCm_BANDk (m k : Nat) : regNo (Reg.WGH_MCm_BANDk m k) = 217 :=
  (by decide +kernel : ∀ m : Fin 2, ∀ k : Fin 4, regNo (0x400A0120 + 0x80 * m.val + 0x04 * k.val) = 217) ⟨m % 2, Nat.mod_lt _ (by decide)⟩ ⟨k % 4, Nat.mod_lt _ (by decide)⟩
theorem regNo_WGH_MCm_BANDP (m : Nat) : regNo (Reg.WGH_MCm_BANDP m) = 218 :=
  (by decide +kernel : ∀ m : Fin 2, regNo (0x400A0130 + 0x80 * m.val) = 218) ⟨m % 2, Nat.mod_lt _ (by decide)⟩
theorem regNo_WGH_MCm_SIGNMIN (m : Nat) : regNo (Reg.WGH_MCm_SIGNMIN m) = 219 :=
  (by decide +kernel : ∀ m : Fin 2, regNo (0x400A0134 + 0x80 * m.val) = 219) ⟨m % 2, Nat.mod_lt _ (by decide)⟩
theorem regNo_WGH_MCm_TAU (m : Nat) : regNo (Reg.WGH_MCm_TAU m) = 220 :=
  (by decide +kernel : ∀ m : Fin 2, regNo (0x400A0138 + 0x80 * m.val) = 220) ⟨m % 2, Nat.mod_lt _ (by decide)⟩
theorem regNo_WGH_MCm_TSTART (m : Nat) : regNo (Reg.WGH_MCm_TSTART m) = 221 :=
  (by decide +kernel : ∀ m : Fin 2, regNo (0x400A013C + 0x80 * m.val) = 221) ⟨m % 2, Nat.mod_lt _ (by decide)⟩
theorem regNo_WGH_MAPm_Di (m i : Nat) : regNo (Reg.WGH_MAPm_Di m i) = 224 :=
  (by decide +kernel : ∀ m : Fin 2, ∀ i : Fin 8, regNo (0x400A0200 + 0x20 * m.val + 0x04 * i.val) = 224) ⟨m % 2, Nat.mod_lt _ (by decide)⟩ ⟨i % 8, Nat.mod_lt _ (by decide)⟩
theorem regNo_ISK_CLAMP : regNo Reg.ISK_CLAMP = 227 := by decide +kernel
theorem regNo_ISK_STRDEFj (j : Nat) : regNo (Reg.ISK_STRDEFj j) = 228 :=
  (by decide +kernel : ∀ j : Fin 2, regNo (0x400B0004 + 0x04 * j.val) = 228) ⟨j % 2, Nat.mod_lt _ (by decide)⟩
theorem regNo_ISK_LINKl_MAPj (l j : Nat) : regNo (Reg.ISK_LINKl_MAPj l j) = 232 :=
  (by decide +kernel : ∀ l : Fin 2, ∀ j : Fin 4, regNo (0x400B0110 + 0x40 * l.val + 0x04 * j.val) = 232) ⟨l % 2, Nat.mod_lt _ (by decide)⟩ ⟨j % 4, Nat.mod_lt _ (by decide)⟩
theorem regNo_THM_CFG : regNo Reg.THM_CFG = 235 := by decide +kernel
theorem regNo_THM_CLAMP : regNo Reg.THM_CLAMP = 237 := by decide +kernel
theorem regNo_THM_CHIP_LVL : regNo Reg.THM_CHIP_LVL = 239 := by decide +kernel
theorem regNo_THM_CHIP_ACT : regNo Reg.THM_CHIP_ACT = 240 := by decide +kernel
theorem regNo_THM_CHIP_Rn (n : Nat) : regNo (Reg.THM_CHIP_Rn n) = 243 :=
  (by decide +kernel : ∀ n : Fin 3, regNo (0x400C0020 + 0x08 * n.val) = 243) ⟨n % 3, Nat.mod_lt _ (by decide)⟩
theorem regNo_THM_CHIP_TAUn (n : Nat) : regNo (Reg.THM_CHIP_TAUn n) = 244 :=
  (by decide +kernel : ∀ n : Fin 3, regNo (0x400C0024 + 0x08 * n.val) = 244) ⟨n % 3, Nat.mod_lt _ (by decide)⟩
theorem regNo_THM_LEGk_CFG (k : Nat) : regNo (Reg.THM_LEGk_CFG k) = 245 :=
  (by decide +kernel : ∀ k : Fin 8, regNo (0x400C0100 + 0x20 * k.val) = 245) ⟨k % 8, Nat.mod_lt _ (by decide)⟩
theorem regNo_THM_ANCHa_CFG (a : Nat) : regNo (Reg.THM_ANCHa_CFG a) = 250 :=
  (by decide +kernel : ∀ a : Fin 8, regNo (0x400C0200 + 0x04 * a.val) = 250) ⟨a % 8, Nat.mod_lt _ (by decide)⟩
theorem regNo_THM_PSs_w (s w : Nat) : regNo (Reg.THM_PSs_w s w) = 252 :=
  (by decide +kernel : ∀ s : Fin 2, ∀ w : Fin 32, regNo (0x400C0400 + 0x100 * s.val + 0x04 * w.val) = 252) ⟨s % 2, Nat.mod_lt _ (by decide)⟩ ⟨w % 32, Nat.mod_lt _ (by decide)⟩
theorem regNo_THM_LINt_p (t p : Nat) : regNo (Reg.THM_LINt_p t p) = 253 :=
  (by decide +kernel : ∀ t : Fin 2, ∀ p : Fin 35, regNo (0x400C0800 + 0x100 * t.val + 0x04 * p.val) = 253) ⟨t % 2, Nat.mod_lt _ (by decide)⟩ ⟨p % 35, Nat.mod_lt _ (by decide)⟩
theorem regNo_CAN_CLAMP (c : Nat) : regNo (Reg.CAN_CLAMP c) = 257 :=
  (by decide +kernel : ∀ c : Fin 4, regNo (0x400D0008 + 0x4000 * c.val) = 257) ⟨c % 4, Nat.mod_lt _ (by decide)⟩
theorem regNo_CAN_TDC (c : Nat) : regNo (Reg.CAN_TDC c) = 260 :=
  (by decide +kernel : ∀ c : Fin 4, regNo (0x400D0014 + 0x4000 * c.val) = 260) ⟨c % 4, Nat.mod_lt _ (by decide)⟩
theorem regNo_CAN_XL (c : Nat) : regNo (Reg.CAN_XL c) = 261 :=
  (by decide +kernel : ∀ c : Fin 4, regNo (0x400D0018 + 0x4000 * c.val) = 261) ⟨c % 4, Nat.mod_lt _ (by decide)⟩
theorem regNo_CAN_TXCFG (c : Nat) : regNo (Reg.CAN_TXCFG c) = 266 :=
  (by decide +kernel : ∀ c : Fin 4, regNo (0x400D0044 + 0x4000 * c.val) = 266) ⟨c % 4, Nat.mod_lt _ (by decide)⟩
theorem regNo_CAN_RXCFG (c : Nat) : regNo (Reg.CAN_RXCFG c) = 269 :=
  (by decide +kernel : ∀ c : Fin 4, regNo (0x400D0050 + 0x4000 * c.val) = 269) ⟨c % 4, Nat.mod_lt _ (by decide)⟩
theorem regNo_CAN_AD (c : Nat) : regNo (Reg.CAN_AD c) = 273 :=
  (by decide +kernel : ∀ c : Fin 4, regNo (0x400D0080 + 0x4000 * c.val) = 273) ⟨c % 4, Nat.mod_lt _ (by decide)⟩
theorem regNo_CAN_ADCANDi_N (c i : Nat) : regNo (Reg.CAN_ADCANDi_N c i) = 274 :=
  (by decide +kernel : ∀ c : Fin 4, ∀ i : Fin 8, regNo (0x400D0084 + 0x4000 * c.val + 0x08 * i.val) = 274) ⟨c % 4, Nat.mod_lt _ (by decide)⟩ ⟨i % 8, Nat.mod_lt _ (by decide)⟩
theorem regNo_CAN_ADCANDi_D (c i : Nat) : regNo (Reg.CAN_ADCANDi_D c i) = 275 :=
  (by decide +kernel : ∀ c : Fin 4, ∀ i : Fin 8, regNo (0x400D0088 + 0x4000 * c.val + 0x08 * i.val) = 275) ⟨c % 4, Nat.mod_lt _ (by decide)⟩ ⟨i % 8, Nat.mod_lt _ (by decide)⟩
theorem regNo_CAN_TT (c : Nat) : regNo (Reg.CAN_TT c) = 276 :=
  (by decide +kernel : ∀ c : Fin 4, regNo (0x400D0100 + 0x4000 * c.val) = 276) ⟨c % 4, Nat.mod_lt _ (by decide)⟩
theorem regNo_CAN_TTCYC (c : Nat) : regNo (Reg.CAN_TTCYC c) = 277 :=
  (by decide +kernel : ∀ c : Fin 4, regNo (0x400D0104 + 0x4000 * c.val) = 277) ⟨c % 4, Nat.mod_lt _ (by decide)⟩
theorem regNo_CAN_TTCOLj (c j : Nat) : regNo (Reg.CAN_TTCOLj c j) = 279 :=
  (by decide +kernel : ∀ c : Fin 4, ∀ j : Fin 16, regNo (0x400D0140 + 0x4000 * c.val + 0x04 * j.val) = 279) ⟨c % 4, Nat.mod_lt _ (by decide)⟩ ⟨j % 16, Nat.mod_lt _ (by decide)⟩
theorem regNo_CAN_SPCFG : regNo Reg.CAN_SPCFG = 291 := by decide +kernel
theorem regNo_ETH_CLAMP : regNo Reg.ETH_CLAMP = 293 := by decide +kernel
theorem regNo_ETH_VT_CTRL : regNo Reg.ETH_VT_CTRL = 294 := by decide +kernel
theorem regNo_ETH_VT_STEP : regNo Reg.ETH_VT_STEP = 296 := by decide +kernel
theorem regNo_ETH_VT_SETSEC_LO : regNo Reg.ETH_VT_SETSEC_LO = 297 := by decide +kernel
theorem regNo_ETH_VT_SETSEC_HI : regNo Reg.ETH_VT_SETSEC_HI = 298 := by decide +kernel
theorem regNo_ETH_VT_SETNS : regNo Reg.ETH_VT_SETNS = 299 := by decide +kernel
theorem regNo_ETH_Pp_CFG (p : Nat) : regNo (Reg.ETH_Pp_CFG p) = 304 :=
  (by decide +kernel : ∀ p : Fin 2, regNo (0x400E0100 + 0x100 * p.val) = 304) ⟨p % 2, Nat.mod_lt _ (by decide)⟩
theorem regNo_ETH_Pp_RING (p : Nat) : regNo (Reg.ETH_Pp_RING p) = 308 :=
  (by decide +kernel : ∀ p : Fin 2, regNo (0x400E0110 + 0x100 * p.val) = 308) ⟨p % 2, Nat.mod_lt _ (by decide)⟩
theorem regNo_ETH_Pp_TXCTL (p : Nat) : regNo (Reg.ETH_Pp_TXCTL p) = 310 :=
  (by decide +kernel : ∀ p : Fin 2, regNo (0x400E0118 + 0x100 * p.val) = 310) ⟨p % 2, Nat.mod_lt _ (by decide)⟩
theorem regNo_ETH_Pp_LAT (p : Nat) : regNo (Reg.ETH_Pp_LAT p) = 312 :=
  (by decide +kernel : ∀ p : Fin 2, regNo (0x400E0120 + 0x100 * p.val) = 312) ⟨p % 2, Nat.mod_lt _ (by decide)⟩
theorem regNo_ETH_P1_PLCA : regNo Reg.ETH_P1_PLCA = 314 := by decide +kernel
theorem regNo_CHK_CLAMP : regNo Reg.CHK_CLAMP = 319 := by decide +kernel
theorem regNo_CHK_Un_CFG (n : Nat) : regNo (Reg.CHK_Un_CFG n) = 320 :=
  (by decide +kernel : ∀ n : Fin 4, regNo (0x400F0100 + 0x10 * n.val) = 320) ⟨n % 4, Nat.mod_lt _ (by decide)⟩
theorem regNo_CHK_Un_DATA (n : Nat) : regNo (Reg.CHK_Un_DATA n) = 322 :=
  (by decide +kernel : ∀ n : Fin 4, regNo (0x400F0108 + 0x10 * n.val) = 322) ⟨n % 4, Nat.mod_lt _ (by decide)⟩
theorem regNo_CHK_Un_DATAB (n : Nat) : regNo (Reg.CHK_Un_DATAB n) = 323 :=
  (by decide +kernel : ∀ n : Fin 4, regNo (0x400F010C + 0x10 * n.val) = 323) ⟨n % 4, Nat.mod_lt _ (by decide)⟩
theorem regNo_CHK_Un_RES (n : Nat) : regNo (Reg.CHK_Un_RES n) = 324 :=
  (by decide +kernel : ∀ n : Fin 4, regNo (0x400F0180 + 0x04 * n.val) = 324) ⟨n % 4, Nat.mod_lt _ (by decide)⟩
theorem regNo_CHK_SCs_CFG (s : Nat) : regNo (Reg.CHK_SCs_CFG s) = 325 :=
  (by decide +kernel : ∀ s : Fin 8, regNo (0x400F0200 + 0x20 * s.val) = 325) ⟨s % 8, Nat.mod_lt _ (by decide)⟩
theorem regNo_CHK_SCs_BASE (s : Nat) : regNo (Reg.CHK_SCs_BASE s) = 326 :=
  (by decide +kernel : ∀ s : Fin 8, regNo (0x400F0204 + 0x20 * s.val) = 326) ⟨s % 8, Nat.mod_lt _ (by decide)⟩
theorem regNo_CHK_SCs_LEN (s : Nat) : regNo (Reg.CHK_SCs_LEN s) = 327 :=
  (by decide +kernel : ∀ s : Fin 8, regNo (0x400F0208 + 0x20 * s.val) = 327) ⟨s % 8, Nat.mod_lt _ (by decide)⟩
theorem regNo_CHK_SCs_SEED (s : Nat) : regNo (Reg.CHK_SCs_SEED s) = 328 :=
  (by decide +kernel : ∀ s : Fin 8, regNo (0x400F020C + 0x20 * s.val) = 328) ⟨s % 8, Nat.mod_lt _ (by decide)⟩
theorem regNo_CHK_SCs_EXP (s : Nat) : regNo (Reg.CHK_SCs_EXP s) = 329 :=
  (by decide +kernel : ∀ s : Fin 8, regNo (0x400F0210 + 0x20 * s.val) = 329) ⟨s % 8, Nat.mod_lt _ (by decide)⟩
theorem regNo_BST_CFG : regNo Reg.BST_CFG = 333 := by decide +kernel
theorem regNo_BST_CLAMP : regNo Reg.BST_CLAMP = 335 := by decide +kernel
theorem regNo_BST_UID_LO : regNo Reg.BST_UID_LO = 341 := by decide +kernel
theorem regNo_BST_UID_HI : regNo Reg.BST_UID_HI = 342 := by decide +kernel
theorem regNo_BST_KEYHASHi (i : Nat) : regNo (Reg.BST_KEYHASHi i) = 343 :=
  (by decide +kernel : ∀ i : Fin 8, regNo (0x40100040 + 0x04 * i.val) = 343) ⟨i % 8, Nat.mod_lt _ (by decide)⟩
theorem regNo_HLD_CFG : regNo Reg.HLD_CFG = 346 := by decide +kernel
theorem regNo_HLD_CLAMP : regNo Reg.HLD_CLAMP = 348 := by decide +kernel
theorem regNo_HLD_CMIN : regNo Reg.HLD_CMIN = 353 := by decide +kernel
theorem regNo_HLD_ESRMAX : regNo Reg.HLD_ESRMAX = 354 := by decide +kernel
theorem regNo_PWR_CLAMP : regNo Reg.PWR_CLAMP = 362 := by decide +kernel
theorem regNo_PWR_WAKECFG : regNo Reg.PWR_WAKECFG = 363 := by decide +kernel
theorem regNo_PWR_RTCALM_LO : regNo Reg.PWR_RTCALM_LO = 364 := by decide +kernel
theorem regNo_PWR_RTCALM_HI : regNo Reg.PWR_RTCALM_HI = 365 := by decide +kernel
theorem regNo_HIC_CLAMP : regNo Reg.HIC_CLAMP = 369 := by decide +kernel
theorem regNo_HIC_C1_ENTRY : regNo Reg.HIC_C1_ENTRY = 370 := by decide +kernel
theorem regNo_HIC_CACHEc (c : Nat) : regNo (Reg.HIC_CACHEc c) = 372 :=
  (by decide +kernel : ∀ c : Fin 2, regNo (0x40130018 + 0x04 * c.val) = 372) ⟨c % 2, Nat.mod_lt _ (by decide)⟩
theorem regNo_HIC_TICKDIV : regNo Reg.HIC_TICKDIV = 373 := by decide +kernel
theorem regNo_HIC_PRIOs (s : Nat) : regNo (Reg.HIC_PRIOs s) = 376 :=
  (by decide +kernel : ∀ s : Fin 24, regNo (0x40130104 + 0x04 * s.val) = 376) ⟨s % 24, Nat.mod_lt _ (by decide)⟩
theorem regNo_HIC_PENDING : regNo Reg.HIC_PENDING = 377 := by decide +kernel
theorem regNo_HIC_IRQc_EN (c : Nat) : regNo (Reg.HIC_IRQc_EN c) = 378 :=
  (by decide +kernel : ∀ c : Fin 2, regNo (0x40130200 + 0x10 * c.val) = 378) ⟨c % 2, Nat.mod_lt _ (by decide)⟩
theorem regNo_HIC_IRQc_THR (c : Nat) : regNo (Reg.HIC_IRQc_THR c) = 379 :=
  (by decide +kernel : ∀ c : Fin 2, regNo (0x40130204 + 0x10 * c.val) = 379) ⟨c % 2, Nat.mod_lt _ (by decide)⟩
theorem regNo_HIC_IRQc_CLAIM (c : Nat) : regNo (Reg.HIC_IRQc_CLAIM c) = 380 :=
  (by decide +kernel : ∀ c : Fin 2, regNo (0x40130208 + 0x10 * c.val) = 380) ⟨c % 2, Nat.mod_lt _ (by decide)⟩
theorem regNo_HIC_MTIME_LO : regNo Reg.HIC_MTIME_LO = 381 := by decide +kernel
theorem regNo_HIC_MTIMECMPc_LO (c : Nat) : regNo (Reg.HIC_MTIMECMPc_LO c) = 383 :=
  (by decide +kernel : ∀ c : Fin 2, regNo (0x40130308 + 0x08 * c.val) = 383) ⟨c % 2, Nat.mod_lt _ (by decide)⟩
theorem regNo_HIC_MTIMECMPc_HI (c : Nat) : regNo (Reg.HIC_MTIMECMPc_HI c) = 384 :=
  (by decide +kernel : ∀ c : Fin 2, regNo (0x4013030C + 0x08 * c.val) = 384) ⟨c % 2, Nat.mod_lt _ (by decide)⟩
theorem regNo_HIC_MSIPc (c : Nat) : regNo (Reg.HIC_MSIPc c) = 385 :=
  (by decide +kernel : ∀ c : Fin 2, regNo (0x40130320 + 0x04 * c.val) = 385) ⟨c % 2, Nat.mod_lt _ (by decide)⟩
theorem regNo_HIC_WDw_SVC (w : Nat) : regNo (Reg.HIC_WDw_SVC w) = 388 :=
  (by decide +kernel : ∀ w : Fin 2, regNo (0x40130408 + 0x20 * w.val) = 388) ⟨w % 2, Nat.mod_lt _ (by decide)⟩
theorem regNo_XSP_CMD : regNo Reg.XSP_CMD = 393 := by decide +kernel
theorem regNo_XSP_ADDR : regNo Reg.XSP_ADDR = 394 := by decide +kernel
theorem regNo_XSP_CLAMP : regNo Reg.XSP_CLAMP = 397 := by decide +kernel
theorem regNo_GPIO_OUT : regNo Reg.GPIO_OUT = 400 := by decide +kernel
theorem regNo_GPIO_DIR : regNo Reg.GPIO_DIR = 401 := by decide +kernel
theorem regNo_GPIO_IRQCFG (i : Nat) : regNo (Reg.GPIO_IRQCFG i) = 403 :=
  (by decide +kernel : ∀ i : Fin 2, regNo (0x4015000C + 0x04 * i.val) = 403) ⟨i % 2, Nat.mod_lt _ (by decide)⟩

end Sys2Proof.Machine
end

