-- ==== Sys2Proof/Laws/EffectRingCtl.lean ====
section
/-! SUPPORT. Rings enabled and disabled, EVT_n released, and the records that the fabric posts. -/

set_option Elab.async false

namespace Sys2Proof.Machine

/-! ### Fields of the word that a bus write leaves -/

theorem fieldsApart_at {fs : List FieldDesc} {f : FieldDesc} {j : Nat} (h : fieldsApart fs = true) (hj : fs[j]? = some f) :
    f.bits.lo + f.bits.width ≤ 32 ∧ 0 < f.bits.width := by
  induction fs generalizing j with
  | nil => cases hj
  | cons x fs ih =>
    simp only [fieldsApart, Bool.and_eq_true, decide_eq_true_eq] at h
    cases j with
    | zero => cases hj; exact ⟨h.1.1.1, h.1.1.2⟩
    | succ j => exact ih h.2 hj

/-- A field that a bus write reaches takes the value written, clamped as its table says. -/
theorem IsReg.new_fld {a u k i : Nat} (h : IsReg a u k i) {s : State} {w : Word} (hx : ∀ v, s.crossClamp a v = v)
    (j : Nat) {f : FieldDesc} (hj : (regDesc u k).fields[j]? = some f) (hr : f.reached (.core 0) s.locked = true)
    (hacc : f.access = .rw ∨ f.access = .rwl) (hu : u ≠ 12 := by decide) :
    f.bits.of (s.wrote a (regDesc u k) w).new = f.clamp.apply (f.bits.of w) % 2 ^ f.bits.width := by
  have hf := regAt_apart h.at
  have hb := fieldsApart_at hf hj
  rw [State.wrote_new hx (h.2.1 ▸ hu), RegDesc.written_of j hf hj, hr]
  have h1 : (f.access != .wo) = true := by rcases hacc with e | e <;> rw [e] <;> rfl
  have h2 : f.access ≠ .w1c := by rcases hacc with e | e <;> rw [e] <;> exact fun x => nomatch x
  rw [h1, FieldDesc.written_full h2 (by omega) hb.2]
  rfl

/-! ### Writes of configuration words of the rings -/

theorem sqCfg_place : ∀ n : Fin 16, IsReg (Reg.CMD_SQn_CFG n) 2 5 n ∧ Reg.CMD_SQn_CFG n ≠ Reg.CMD_EVTCFG ∧
    elemOf (Reg.CMD_SQn_CFG n) (Reg.CMD_SQn_CFG 0) 0x20 16 = some n.val := by decide

theorem sqCfg_ne : ∀ n : Fin 16, Reg.CMD_SQn_CFG n ≠ Reg.CMD_SQn_BASE n := by decide

theorem sqCfg_noCross (s : State) (n : Fin 16) (v : Word) : s.crossClamp (Reg.CMD_SQn_CFG n) v = v := by
  have h : ∀ n : Fin 16, unitOf (Reg.CMD_SQn_CFG n) = UnitCode.cmd ∧
      elemOf (Reg.CMD_SQn_CFG n) (Reg.CMD_SQn_BASE 0) 0x20 16 = none ∧
      ((List.range 5).find? fun m => Reg.CMD_SQn_CFG n == ringBase m) = none := by decide
  obtain ⟨h1, h2, h3⟩ := h n
  unfold State.crossClamp
  simp only [h1]
  show s.clampCmd _ v = v
  unfold State.clampCmd
  rw [h2, h3]

theorem State.putCmd_cfg {s : State} {x : Wr} {n : Nat} (h1 : x.a ≠ Reg.CMD_EVTCFG)
    (h2 : elemOf x.a (Reg.CMD_SQn_CFG 0) 0x20 16 = some n) :
    (s.putCmd x).1 = (((s.setReg x.a x.new).refit (Reg.CMD_SQn_BASE n) Fld.CMD_SQn_BASE.OFFSET 32
      (32 * (s.setReg x.a x.new).sqSize n)).1).sqCfgWritten n (Fld.CMD_SQn_CFG.EN.on x.old) := by
  unfold State.putCmd
  rw [if_neg h1, h2]

/-- A base moved by a SIZE leaves everything else. -/
theorem State.refit_eq (s : State) (base : Nat) (f : Bits) (u len : Nat) :
    (s.refit base f u len).1 = { s with regs := (s.refit base f u len).1.regs } ∧
    ∀ b, b ≠ base → (s.refit base f u len).1.reg b = s.reg b := by
  unfold State.refit
  extract_lets w
  split
  · exact ⟨rfl, fun _ _ => rfl⟩
  · exact ⟨rfl, fun b hb => s.reg_setReg_other _ hb⟩

theorem State.setReg_regs (s : State) (a : Nat) (w : Word) (r : List (Nat × Word)) :
    { s.setReg a w with regs := r } = { s with regs := r } := rfl

/-- What SQ_ENABLE and RING_DISABLE write: the state with the new word and a fitted base, before the ring follows. -/
theorem State.sqCfg_stored {s : State} {n : Fin 16} {w : Word} (h : s.pwr.restoring = false) (hl : s.locked = false) :
    ∃ u : State, Stored (Reg.CMD_SQn_CFG n) (u.sqCfgWritten n (s.sqEnabled n)) (s.blockStore 0 (Reg.CMD_SQn_CFG n) w) ∧
      u = { s with regs := u.regs } ∧
      (∀ b, b ≠ Reg.CMD_SQn_BASE n → b ≠ Reg.CMD_SQn_CFG n → u.reg b = s.reg b) ∧
      u.sqEnabled n = Fld.CMD_SQn_CFG.EN.on w ∧
      u.sqSize n = clampNat 16 4096 (Fld.CMD_SQn_CFG.SIZE.of w) := by
  obtain ⟨hr, h1, h2⟩ := sqCfg_place n
  have hs := hr.stored (s := s) (w := w) (busy := false) (by decide) h (by rw [hl]; decide)
  have he := hr.new_fld (s := s) (w := w) (sqCfg_noCross s n) 4 (f := ⟨Fld.CMD_SQn_CFG.EN, .rwl, fun _ => 0, .none, false, false⟩)
    rfl (by rw [hl]; rfl) (.inr rfl)
  have hz := hr.new_fld (s := s) (w := w) (sqCfg_noCross s n) 0
    (f := ⟨Fld.CMD_SQn_CFG.SIZE, .rwl, fun _ => 16, .range 16 4096, false, false⟩) rfl (by rw [hl]; rfl) (.inr rfl)
  rw [State.put_cmd (x := s.wrote (Reg.CMD_SQn_CFG n) (regDesc 2 5) w) hr.2.1] at hs
  have ha : (s.wrote (Reg.CMD_SQn_CFG n) (regDesc 2 5) w).a = Reg.CMD_SQn_CFG n := rfl
  have ho : (s.wrote (Reg.CMD_SQn_CFG n) (regDesc 2 5) w).old = s.reg (Reg.CMD_SQn_CFG n) := rfl
  generalize s.wrote (Reg.CMD_SQn_CFG n) (regDesc 2 5) w = x at hs he hz ha ho
  rw [State.putCmd_cfg (n := n) (by rw [ha]; exact h1) (by rw [ha]; exact h2), ha, ho] at hs
  have hq := (s.setReg (Reg.CMD_SQn_CFG n) x.new).refit_eq (Reg.CMD_SQn_BASE n) Fld.CMD_SQn_BASE.OFFSET 32
    (32 * (s.setReg (Reg.CMD_SQn_CFG n) x.new).sqSize n)
  have hne : Reg.CMD_SQn_CFG n ≠ Reg.CMD_SQn_BASE n := sqCfg_ne n
  have hx : (s.setReg (Reg.CMD_SQn_CFG n) x.new).reg (Reg.CMD_SQn_CFG n) = x.new := s.reg_setReg_same _ _
  generalize ((s.setReg (Reg.CMD_SQn_CFG n) x.new).refit (Reg.CMD_SQn_BASE n) Fld.CMD_SQn_BASE.OFFSET 32
    (32 * (s.setReg (Reg.CMD_SQn_CFG n) x.new).sqSize n)).1 = u at hs hq
  refine ⟨u, hs, ?_, ?_, ?_, ?_⟩
  · exact hq.1.trans (s.setReg_regs _ _ _)
  · intro b hb hc
    rw [hq.2 b hb]; exact s.reg_setReg_other _ hc
  · unfold State.sqEnabled State.on State.fld
    rw [hq.2 _ hne, hx, show Fld.CMD_SQn_CFG.EN.of x.new = Fld.CMD_SQn_CFG.EN.of w % 2 ^ 1 from he,
      Nat.mod_eq_of_lt (Bits.of_lt Fld.CMD_SQn_CFG.EN w)]
    rfl
  · show Fld.CMD_SQn_CFG.SIZE.of (State.reg _ _) = _
    rw [hq.2 _ hne, hx, show Fld.CMD_SQn_CFG.SIZE.of x.new = clampNat 16 4096 (Fld.CMD_SQn_CFG.SIZE.of w) % 2 ^ 13 from hz]
    refine Nat.mod_eq_of_lt ?_
    unfold clampNat; omega

theorem State.fabricWord_sram (s : State) (off : Nat) (w : Word) : (s.fabricWords off [w]).sram off = w := by
  unfold State.fabricWords State.setWords State.setWords State.sram
  exact State.word_setWord_same _ _ _

/-- Numbers of the clamp counters. -/
abbrev clampNos : List Nat :=
  [15, 38, 59, 69, 78, 96, 128, 166, 184, 211, 227, 237, 257, 293, 319, 335, 348, 362, 369, 397]

theorem clampCounter_no {a b : Nat} (h : clampCounter a = some b) : regNo b ∈ clampNos := by
  unfold clampCounter at h
  extract_lets u at h
  have no : ∀ {c : Nat}, some c = some b → regNo c ∈ clampNos → regNo b ∈ clampNos := fun e hc => Option.some.inj e ▸ hc
  by_cases h1 : u = UnitCode.clk
  · rw [if_pos h1] at h; exact no h (by decide +kernel)
  rw [if_neg h1] at h
  by_cases h1 : u = UnitCode.cmd
  · rw [if_pos h1] at h; exact no h (by decide +kernel)
  rw [if_neg h1] at h
  by_cases h1 : u = UnitCode.eng
  · rw [if_pos h1] at h; exact no h (by decide +kernel)
  rw [if_neg h1] at h
  by_cases h1 : u = UnitCode.tpr
  · rw [if_pos h1] at h; exact no h (by decide +kernel)
  rw [if_neg h1] at h
  by_cases h1 : u = UnitCode.pwm
  · rw [if_pos h1] at h; exact no h (by decide +kernel)
  rw [if_neg h1] at h
  by_cases h1 : u = UnitCode.prot
  · rw [if_pos h1] at h; exact no h (by decide +kernel)
  rw [if_neg h1] at h
  by_cases h1 : u = UnitCode.acq
  · rw [if_pos h1] at h; exact no h (by decide +kernel)
  rw [if_neg h1] at h
  by_cases h1 : u = UnitCode.pos
  · rw [if_pos h1] at h; exact no h (by decide +kernel)
  rw [if_neg h1] at h
  by_cases h1 : u = UnitCode.fld
  · rw [if_pos h1] at h; exact no h (by decide +kernel)
  rw [if_neg h1] at h
  by_cases h1 : u = UnitCode.wgh
  · rw [if_pos h1] at h; exact no h (by decide +kernel)
  rw [if_neg h1] at h
  by_cases h1 : u = UnitCode.isk
  · rw [if_pos h1] at h; exact no h (by decide +kernel)
  rw [if_neg h1] at h
  by_cases h1 : u = UnitCode.thm
  · rw [if_pos h1] at h; exact no h (by decide +kernel)
  rw [if_neg h1] at h
  by_cases h1 : u = UnitCode.can
  · rw [if_pos h1] at h
    refine no h ?_
    rw [regNo_CAN_CLAMP]; decide
  rw [if_neg h1] at h
  by_cases h1 : u = UnitCode.eth
  · rw [if_pos h1] at h; exact no h (by decide +kernel)
  rw [if_neg h1] at h
  by_cases h1 : u = UnitCode.chk
  · rw [if_pos h1] at h; exact no h (by decide +kernel)
  rw [if_neg h1] at h
  by_cases h1 : u = UnitCode.bst
  · rw [if_pos h1] at h; exact no h (by decide +kernel)
  rw [if_neg h1] at h
  by_cases h1 : u = UnitCode.hld
  · rw [if_pos h1] at h; exact no h (by decide +kernel)
  rw [if_neg h1] at h
  by_cases h1 : u = UnitCode.pwr
  · rw [if_pos h1] at h; exact no h (by decide +kernel)
  rw [if_neg h1] at h
  by_cases h1 : u = UnitCode.hic
  · rw [if_pos h1] at h; exact no h (by decide +kernel)
  rw [if_neg h1] at h
  by_cases h1 : u = UnitCode.xsp
  · rw [if_pos h1] at h; exact no h (by decide +kernel)
  rw [if_neg h1] at h
  cases h

/-- A write of host software leaves every register but a clamp counter as its effect leaves it. -/
theorem Stored.regOf {a : Nat} {u t : State} (h : Stored a u t) {b k : Nat} (hb : regNo b = k)
    (hk : k ∉ clampNos := by decide) : t.reg b = u.reg b :=
  h.reg b fun e => hk (hb ▸ clampCounter_no e)

theorem Stored.fldOf {a : Nat} {u t : State} (h : Stored a u t) {b k : Nat} {f : Bits} (hb : regNo b = k)
    (hk : k ∉ clampNos := by decide) : t.fld b f = u.fld b f := congrArg f.of (h.regOf hb hk)

theorem Stored.onOf {a : Nat} {u t : State} (h : Stored a u t) {b k : Nat} {f : Bits} (hb : regNo b = k)
    (hk : k ∉ clampNos := by decide) : t.on b f = u.on b f := congrArg (· != 0) (h.fldOf hb hk)

theorem State.sqStarts_result (s : State) (n : Fin 16) :
    ((s.sqStarts n).sq n).fetch = 0 ∧ ((s.sqStarts n).sq n).epoch = 0 ∧ ((s.sqStarts n).sq n).opened = [] ∧
    (s.sqStarts n).sram (doorbell + 0x800 + 4 * n.val) = 0 ∧ (s.sqStarts n).reg (Reg.CMD_SQn_CFG n) = s.reg (Reg.CMD_SQn_CFG n) := by
  unfold State.sqStarts
  extract_lets s1 r
  have h : ∀ u : State, (u.refreshRings.sq n) = u.sq n := fun u => (State.refreshRings_frame).sq _
  have hm : ∀ u : State, u.refreshRings.sram (doorbell + 0x800 + 4 * n.val) = u.sram (doorbell + 0x800 + 4 * n.val) :=
    fun u => (State.refreshRings_frame).sram _
  have hr : ∀ u : State, u.refreshRings.reg (Reg.CMD_SQn_CFG n) = u.reg (Reg.CMD_SQn_CFG n) :=
    fun u => (State.refreshRings_frame).reg (regNo_CMD_SQn_CFG _)
  have hq : ((s1.setSq n { s1.sq n with fetch := 0, epoch := 0, opened := [] }).showFetch n).sq n =
      { s1.sq n with fetch := 0, epoch := 0, opened := [] } := by
    rw [(State.showFetch_frame).sq, State.sq_setSq, if_pos rfl]
  refine ⟨?_, ?_, ?_, ?_, ?_⟩
  · rw [h, hq]
  · rw [h, hq]
  · rw [h, hq]
  · rw [hm]
    unfold State.showFetch
    extract_lets q s2
    rw [show (doorbell + 0x800 + 4 * (n.val % 16)) = doorbell + 0x800 + 4 * n.val by rw [Nat.mod_eq_of_lt n.isLt]]
    rw [State.fabricWord_sram]
    have : q = { s1.sq n with fetch := 0, epoch := 0, opened := [] } :=
      (State.sq_setSq _ _ _ _).trans (if_pos rfl)
    rw [this]
    exact (by decide : detailOf [(0, 0), (16, 0)] = 0)
  · rw [hr, (State.showFetch_frame).reg (regNo_CMD_SQn_CFG _)]
    exact s.reg_setReg_other _ (reg_ne (regNo_CMD_SQn_CFG _) (regNo_CMD_SQn_STAT _))

theorem sqEnable_does : ∀ (n : Fin 16) (cfg : Word) (s : State), s.pwr.restoring = false → s.locked = false →
    s.sqEnabled n = false → Does (.sqEnable n cfg) s fun t =>
      t.sqEnabled n = true ∧ t.sqSize n = clampNat 16 4096 (Fld.CMD_SQn_CFG.SIZE.of cfg) ∧
      (t.sq n).fetch = 0 ∧ (t.sq n).epoch = 0 ∧ (t.sq n).opened = [] ∧
      t.sram (doorbell + 0x800 + 4 * n.val) = 0 := by
  intro n cfg s h hl he
  obtain ⟨u, hs, -, -, h1, h2⟩ := State.sqCfg_stored (n := n) (w := Fld.CMD_SQn_CFG.EN.put 1 cfg) h hl
  refine ⟨_, exec_sqEnable.trans rfl, ?_⟩
  dsimp only
  have hon : Fld.CMD_SQn_CFG.EN.on (Fld.CMD_SQn_CFG.EN.put 1 cfg) = true := by
    unfold Bits.on; rw [Bits.of_put Fld.CMD_SQn_CFG.EN 1 cfg]; rfl
  rw [Bits.of_put_other] at h2
  rw [hon] at h1
  have hw : u.sqCfgWritten n (s.sqEnabled n) = u.sqStarts n := by
    unfold State.sqCfgWritten
    rw [h1, he]; rfl
  rw [hw] at hs
  obtain ⟨g1, g2, g3, g4, g5⟩ := u.sqStarts_result n
  have hreg := hs.regOf (regNo_CMD_SQn_CFG n)
  refine ⟨?_, ?_, ?_, ?_, ?_, ?_⟩
  · rw [← h1]; exact congrArg (fun w => Fld.CMD_SQn_CFG.EN.of w != 0) (hreg.trans g5)
  · rw [← h2]; exact congrArg (fun w => Fld.CMD_SQn_CFG.SIZE.of w) (hreg.trans g5)
  · rw [hs.sq, g1]
  · rw [hs.sq, g2]
  · rw [hs.sq, g3]
  · rw [State.sram_congr hs.mem, g4]

/-! ### Status of the rings -/

/-- The status that a ring that is not halted shows. -/
def State.ringShows (s : State) (n : Nat) : Nat :=
  if !s.sqEnabled n then ringDisabled
  else if (s.sq n).pi ≠ (s.sq n).fetch ∨ !(s.stagedOf n).isEmpty then ringActive else ringIdle

theorem State.refreshRings_state (s : State) (n : Fin 16) (h : s.sqState n ≠ ringHalted) :
    s.refreshRings.sqState n = s.ringShows n := by
  unfold State.refreshRings
  extract_lets opens desc s0
  have h0 : ∀ k, s0.sqState k = s.sqState k := fun k => by
    have h1 : Reg.CMD_SQn_STAT k ≠ Reg.CMD_STAGE := reg_ne (regNo_CMD_SQn_STAT _) regNo_CMD_STAGE
    unfold State.sqState
    rw [State.fld_setFld_other _ _ _ _ h1, State.fld_setFld_other _ _ _ _ h1]
  have hs0 : ∀ k, s0.ringShows k = s.ringShows k := fun k => by
    have h1 : Reg.CMD_SQn_CFG k ≠ Reg.CMD_STAGE := reg_ne (regNo_CMD_SQn_CFG _) regNo_CMD_STAGE
    unfold State.ringShows State.sqEnabled State.on
    rw [State.fld_setFld_other _ _ _ _ h1, State.fld_setFld_other _ _ _ _ h1]
    rfl
  rw [← hs0]
  rw [← h0] at h
  have hv : ∀ u : State, u.ringShows n % 4 = u.ringShows n := fun u => by
    unfold State.ringShows; split
    · rfl
    · split <;> rfl
  have hh : ∀ u : State, u.ringShows n ≠ ringHalted := fun u => by
    unfold State.ringShows; split
    · decide
    · split <;> decide
  -- one step of the fold
  let f : State → Nat → State := fun s n =>
    let r := s.sq n
    if s.sqState n = ringHalted then s
    else s.setSqState n (if !s.sqEnabled n then ringDisabled
      else if r.pi ≠ r.fetch ∨ !(s.stagedOf n).isEmpty then ringActive else ringIdle)
  have hk : ∀ (u : State) (k : Nat), (f u k).ringShows n = u.ringShows n := fun u k => by
    by_cases hu : u.sqState k = ringHalted
    · rw [show f u k = u from if_pos hu]
    · rw [show f u k = u.setSqState k (u.ringShows k) from if_neg hu]
      unfold State.ringShows State.sqEnabled State.on State.setSqState
      rw [State.fld_setFld_other _ _ _ _ (reg_ne (regNo_CMD_SQn_CFG _) (regNo_CMD_SQn_STAT _))]
      rfl
  have hother : ∀ (u : State) (k : Fin 16), k ≠ n → (f u k).sqState n = u.sqState n := fun u k hkn => by
    by_cases hu : u.sqState k = ringHalted
    · rw [show f u k = u from if_pos hu]
    · rw [show f u k = u.setSqState k (u.ringShows k) from if_neg hu]
      unfold State.sqState State.setSqState
      refine State.fld_setFld_other _ _ _ _ ?_
      exact (by decide : ∀ k n : Fin 16, k ≠ n → Reg.CMD_SQn_STAT n ≠ Reg.CMD_SQn_STAT k) k n hkn
  have hself : ∀ u : State, u.sqState n ≠ ringHalted → (f u n).sqState n = u.ringShows n := fun u hu => by
    rw [show f u n = u.setSqState n (u.ringShows n) from if_neg hu]
    unfold State.sqState State.setSqState
    rw [State.fld_setFld _ _ Fld.CMD_SQn_STAT.STATE]
    exact hv u
  have key : ∀ (l : List Nat) (u : State), (∀ k ∈ l, k < 16) → u.sqState n ≠ ringHalted →
      (n.val ∈ l ∨ u.sqState n = u.ringShows n) → (l.foldl f u).sqState n = u.ringShows n := by
    intro l
    induction l with
    | nil => intro u _ _ hu; exact hu.resolve_left (by simp)
    | cons k l ih =>
      intro u hl hu hor
      rw [List.foldl_cons, ← hk u k]
      have hk16 : k < 16 := hl k List.mem_cons_self
      have hl' := fun j hj => hl j (List.mem_cons_of_mem _ hj)
      by_cases e : k = n.val
      · subst e
        have h1 := hself u hu
        exact ih _ hl' (by rw [h1]; exact hh u) (.inr (by rw [h1, hk]))
      · have h1 := hother u ⟨k, hk16⟩ (fun e' => e (congrArg Fin.val e'))
        refine ih _ hl' (by rw [h1]; exact hu) ?_
        rcases hor with hm | hm
        · rcases List.mem_cons.1 hm with e' | hm
          · exact absurd e'.symm e
          · exact .inl hm
        · exact .inr (by rw [h1, hk, hm])
  exact key (List.range 16) s0 (fun k hk => List.mem_range.1 hk) h (.inl (List.mem_range.2 n.isLt))

/-! ### Disabling -/

/-- The state of a ring that is disabled, before its FLUSHED records take their place. -/
def State.sqStopped (s : State) (n : Nat) : State :=
  let recs := s.unapplied n
  let s := s.setSq n { s.sq n with opened := [], flushing := if s.ticking then [] else recs }
  let s := { s with cmd.staged := s.cmd.staged.filter fun c => c.ring != n }
  (s.setSqState n ringDisabled).refreshRings

theorem State.sqStopped_frame (s : State) (n : Nat) :
    (s.sqStopped n).cmd.disabled = s.cmd.disabled ∧ (s.sqStopped n).reg (Reg.CMD_SQn_CFG n) = s.reg (Reg.CMD_SQn_CFG n) ∧
    (s.sqStopped n).ticking = s.ticking ∧
    (s.sqStopped n).cmd.staged = (s.cmd.staged.filter fun c => c.ring != n) ∧
    ((s.sqStopped n).sq n).opened = [] ∧ ((s.sqStopped n).sq n).flushing = (if s.ticking then [] else s.unapplied n) := by
  unfold State.sqStopped
  extract_lets recs r s1 c s2
  have hf := State.refreshRings_frame (s := s2.setSqState n ringDisabled)
  refine ⟨?_, ?_, ?_, ?_, ?_, ?_⟩
  · have h := congrArg Cmd.disabled (hf.cmdRest (by decide))
    exact h
  · rw [hf.reg (regNo_CMD_SQn_CFG _)]
    exact State.reg_setReg_other _ _ (reg_ne (regNo_CMD_SQn_CFG _) (regNo_CMD_SQn_STAT _))
  · exact congrArg (fun x => (tabGet ({} : Tb) x 0).running) (hf.tbs (by decide))
  · exact hf.staged (by decide)
  · rw [hf.sq]
    exact congrArg SqRun.opened ((State.sq_setSq _ _ _ _).trans (if_pos rfl))
  · rw [hf.sq]
    exact congrArg SqRun.flushing ((State.sq_setSq _ _ _ _).trans (if_pos rfl))

theorem State.sqStops_eq (s : State) (n : Nat) : s.sqStops n =
    if (s.sqStopped n).ticking then
      { s.sqStopped n with cmd.disabled := (s.sqStopped n).cmd.disabled.filter (fun c => decide (c.ring ≤ n)) ++
        (s.unapplied n).map (·.completion n) ++ (s.sqStopped n).cmd.disabled.filter fun c => decide (n < c.ring) }
    else s.sqStopped n := rfl

theorem State.foldl_regs {α : Type} {K k a : Nat} (hk : regNo a = k) (hK : K.testBit k = false) {f : State → α → State}
    (hf : ∀ s x, Frame K s (f s x)) (l : List α) (s : State) : (l.foldl f s).reg a = s.reg a := by
  induction l generalizing s with
  | nil => rfl
  | cons x l ih => rw [List.foldl_cons, ih, (hf s x).reg hk hK]

theorem ringDisable_does : ∀ (n : Fin 16) (cfg : Word) (s : State), s.pwr.restoring = false → s.locked = false →
    s.sqEnabled n = true → Does (.ringDisable n cfg) s fun t =>
      t.sqEnabled n = false ∧ t.sqState n = ringDisabled ∧ (t.sq n).opened = [] ∧
      t.cmd.staged = (s.cmd.staged.filter fun c => c.ring != n.val) ∧
      (s.ticking = true → (t.sq n).flushing = [] ∧
        t.cmd.disabled = s.cmd.disabled.filter (fun c => decide (c.ring ≤ n.val)) ++ (s.unapplied n).map (·.completion n) ++
          s.cmd.disabled.filter fun c => decide (n.val < c.ring)) ∧
      (s.ticking = false → (t.sq n).flushing = s.unapplied n ∧ t.cmd.disabled = s.cmd.disabled) := by
  intro n cfg s h hl he
  obtain ⟨u, hs, hu, -, h1, -⟩ := State.sqCfg_stored (n := n) (w := Fld.CMD_SQn_CFG.EN.put 0 cfg) h hl
  refine ⟨_, exec_ringDisable.trans rfl, ?_⟩
  dsimp only
  have hon : Fld.CMD_SQn_CFG.EN.on (Fld.CMD_SQn_CFG.EN.put 0 cfg) = false := by
    unfold Bits.on; rw [Bits.of_put Fld.CMD_SQn_CFG.EN 0 cfg]; rfl
  rw [hon] at h1
  have hcmd : u.cmd = s.cmd := by rw [hu]
  have htick : u.ticking = s.ticking := by
    unfold State.ticking State.tbRun State.tb; rw [hu]
  have hun : u.unapplied n = s.unapplied n := by
    unfold State.unapplied State.stagedOf State.sq; rw [hcmd]
  obtain ⟨g1, g2, g3, g4, g5, g6⟩ := u.sqStopped_frame n
  have hw : u.sqCfgWritten n (s.sqEnabled n) = u.sqStops n := by
    unfold State.sqCfgWritten
    rw [h1, he]; rfl
  rw [hw] at hs
  have hst : (u.sqStopped n).sqState n = ringDisabled := by
    unfold State.sqStopped
    extract_lets recs r s1 c s2
    have hd : (s2.setSqState n ringDisabled).sqState n = ringDisabled := by
      unfold State.sqState State.setSqState
      rw [State.fld_setFld _ _ Fld.CMD_SQn_STAT.STATE]; rfl
    rw [State.refreshRings_state _ _ (by rw [hd]; decide)]
    have : (s2.setSqState n ringDisabled).sqEnabled n = u.sqEnabled n := by
      unfold State.sqEnabled State.on State.setSqState
      rw [State.fld_setFld_other _ _ _ _ (reg_ne (regNo_CMD_SQn_CFG _) (regNo_CMD_SQn_STAT _))]
      rfl
    unfold State.ringShows
    rw [this, h1]; rfl
  have hk : (u.sqStops n).regs = (u.sqStopped n).regs ∧ (u.sqStops n).cmd.sqs = (u.sqStopped n).cmd.sqs ∧
      (u.sqStops n).cmd.staged = (u.sqStopped n).cmd.staged := by
    rw [State.sqStops_eq]; split <;> exact ⟨rfl, rfl, rfl⟩
  have hsq : (u.sqStops n).sq n = (u.sqStopped n).sq n := congrArg (fun q => tabGet ({} : SqRun) q n.val) hk.2.1
  have hreg : ∀ a, (u.sqStops n).reg a = (u.sqStopped n).reg a := fun a => congrArg (fun r => Store.get regDefault r a) hk.1
  refine ⟨?_, ?_, ?_, ?_, fun ht => ⟨?_, ?_⟩, fun ht => ⟨?_, ?_⟩⟩
  · exact (congrArg (fun w => Fld.CMD_SQn_CFG.EN.of w != 0)
      ((hs.regOf (regNo_CMD_SQn_CFG n)).trans ((hreg _).trans g2))).trans h1
  · exact ((hs.fldOf (regNo_CMD_SQn_STAT n)).trans (congrArg Fld.CMD_SQn_STAT.STATE.of (hreg _))).trans hst
  · rw [hs.sq, hsq]; exact g5
  · rw [hs.cmd, hk.2.2]; exact g4.trans (by rw [hcmd])
  · rw [hs.sq, hsq, g6, htick, ht]; rfl
  · rw [hs.cmd, State.sqStops_eq, if_pos (by rw [g3, htick, ht])]
    show (u.sqStopped n).cmd.disabled.filter _ ++ (u.unapplied n).map _ ++ (u.sqStopped n).cmd.disabled.filter _ = _
    rw [g1, hcmd, hun]
  · rw [hs.sq, hsq, g6, htick, ht, hun]; rfl
  · rw [hs.cmd, State.sqStops_eq, if_neg (by rw [g3, htick, ht]; decide), g1, hcmd]

/-! ### Record rings -/

theorem recCfg_place : ∀ m : Fin 5, IsReg (ringCfg m) 2 (if m.val = 4 then 13 else 10) (if m.val = 4 then 0 else m) ∧
    ringCfg m ≠ Reg.CMD_EVTCFG ∧ elemOf (ringCfg m) (Reg.CMD_SQn_CFG 0) 0x20 16 = none ∧
    elemOf (ringCfg m) (Reg.CMD_SQn_CTRL 0) 0x20 16 = none ∧
    ((List.range 5).find? fun k => ringCfg m == ringCfg k) = some m.val ∧ ringCfg m ≠ ringBase m ∧
    regNo (ringCfg m) ∈ [45, 48] ∧ ¬ (regNo (ringCfg m) ∈ clampNos) := by decide +kernel

theorem recCfg_noCross (s : State) (m : Fin 5) (v : Word) : s.crossClamp (ringCfg m) v = v := by
  have h : ∀ m : Fin 5, unitOf (ringCfg m) = UnitCode.cmd ∧ elemOf (ringCfg m) (Reg.CMD_SQn_BASE 0) 0x20 16 = none ∧
      ((List.range 5).find? fun k => ringCfg m == ringBase k) = none := by decide
  obtain ⟨h1, h2, h3⟩ := h m
  unfold State.crossClamp
  simp only [h1]
  show s.clampCmd _ v = v
  unfold State.clampCmd
  rw [h2, h3]

theorem State.putCmd_rec {s : State} {x : Wr} {m : Nat} (h1 : x.a ≠ Reg.CMD_EVTCFG)
    (h2 : elemOf x.a (Reg.CMD_SQn_CFG 0) 0x20 16 = none) (h3 : elemOf x.a (Reg.CMD_SQn_CTRL 0) 0x20 16 = none)
    (h4 : ((List.range 5).find? fun k => x.a == ringCfg k) = some m) :
    (s.putCmd x).1 = (((s.setReg x.a x.new).refit (ringBase m) Fld.CMD_CQm_BASE.OFFSET 16
      (16 * (s.setReg x.a x.new).ringSize m)).1).recCfgWritten m (Fld.CMD_CQm_CFG.EN.on x.old) := by
  unfold State.putCmd
  rw [if_neg h1, h2, h3, h4]

theorem State.recCfg_stored {s : State} {m : Fin 5} {w : Word} (h : s.pwr.restoring = false) (hl : s.locked = false) :
    ∃ u : State, Stored (ringCfg m) (u.recCfgWritten m (s.ringEnabled m)) (s.blockStore 0 (ringCfg m) w) ∧
      u = { s with regs := u.regs } ∧ u.ringEnabled m = Fld.CMD_CQm_CFG.EN.on w ∧
      u.ringSize m = clampNat 16 4096 (Fld.CMD_CQm_CFG.SIZE.of w) := by
  obtain ⟨hr, h1, h2, h3, h4, hne, -⟩ := recCfg_place m
  have main : ∀ k i, k = 10 ∨ k = 13 → IsReg (ringCfg m) 2 k i →
      (s.put (s.wrote (ringCfg m) (regDesc 2 k) w)).1 =
        (((s.setReg (ringCfg m) (s.wrote (ringCfg m) (regDesc 2 k) w).new).refit (ringBase m) Fld.CMD_CQm_BASE.OFFSET 16
      (16 * (s.setReg (ringCfg m) (s.wrote (ringCfg m) (regDesc 2 k) w).new).ringSize m)).1).recCfgWritten m (s.ringEnabled m) ∧
      Stored (ringCfg m) (s.put (s.wrote (ringCfg m) (regDesc 2 k) w)).1 (s.blockStore 0 (ringCfg m) w) ∧
      Fld.CMD_CQm_CFG.EN.of (s.wrote (ringCfg m) (regDesc 2 k) w).new = Fld.CMD_CQm_CFG.EN.of w % 2 ^ 1 ∧
      Fld.CMD_CQm_CFG.SIZE.of (s.wrote (ringCfg m) (regDesc 2 k) w).new =
        clampNat 16 4096 (Fld.CMD_CQm_CFG.SIZE.of w) % 2 ^ 13 := by
    intro k i hk hr
    refine ⟨?_, ?_, ?_, ?_⟩
    · rw [State.put_cmd (x := s.wrote (ringCfg m) (regDesc 2 k) w) hr.2.1,
        State.putCmd_rec (x := s.wrote (ringCfg m) (regDesc 2 k) w) (m := m) h1 h2 h3 h4]
      have ha : (s.wrote (ringCfg m) (regDesc 2 k) w).a = ringCfg m := rfl
      have ho : (s.wrote (ringCfg m) (regDesc 2 k) w).old = s.reg (ringCfg m) := rfl
      rw [ha, ho]
      rfl
    · exact hr.stored (s := s) (w := w) (busy := false) (by decide) h (by rw [hl]; rcases hk with rfl | rfl <;> decide)
    · rcases hk with rfl | rfl
      · exact hr.new_fld (s := s) (w := w) (recCfg_noCross s m) 1 (f := ⟨Fld.CMD_CQm_CFG.EN, .rwl, fun _ => 0, .none, false, false⟩)
          rfl (by rw [hl]; rfl) (.inr rfl)
      · exact hr.new_fld (s := s) (w := w) (recCfg_noCross s m) 1 (f := ⟨Fld.CMD_CQm_CFG.EN, .rwl, fun _ => 0, .none, false, false⟩)
          rfl (by rw [hl]; rfl) (.inr rfl)
    · rcases hk with rfl | rfl
      · exact hr.new_fld (s := s) (w := w) (recCfg_noCross s m) 0
          (f := ⟨Fld.CMD_CQm_CFG.SIZE, .rwl, fun _ => 16, .range 16 4096, false, false⟩) rfl (by rw [hl]; rfl) (.inr rfl)
      · exact hr.new_fld (s := s) (w := w) (recCfg_noCross s m) 0
          (f := ⟨Fld.CMD_CQm_CFG.SIZE, .rwl, fun _ => 16, .range 16 4096, false, false⟩) rfl (by rw [hl]; rfl) (.inr rfl)
  obtain ⟨hp, hs, he, hz⟩ := main _ _ (by split <;> simp) hr
  generalize s.wrote (ringCfg m) (regDesc 2 (if m.val = 4 then 13 else 10)) w = x at hp hs he hz
  have hq := (s.setReg (ringCfg m) x.new).refit_eq (ringBase m) Fld.CMD_CQm_BASE.OFFSET 16 (16 * (s.setReg (ringCfg m) x.new).ringSize m)
  rw [hp] at hs
  generalize ((s.setReg (ringCfg m) x.new).refit (ringBase m) Fld.CMD_CQm_BASE.OFFSET 16
      (16 * (s.setReg (ringCfg m) x.new).ringSize m)).1 = u at hs hq
  refine ⟨u, hs, ?_, ?_, ?_⟩
  · exact hq.1.trans (s.setReg_regs _ _ _)
  · show (Fld.CMD_CQm_CFG.EN.of (State.reg _ _) != 0) = _
    rw [hq.2 _ hne, show (s.setReg (ringCfg m) x.new).reg (ringCfg m) = x.new from s.reg_setReg_same _ _, he,
      Nat.mod_eq_of_lt (Bits.of_lt Fld.CMD_CQm_CFG.EN w)]
    rfl
  · show Fld.CMD_CQm_CFG.SIZE.of (State.reg _ _) = _
    rw [hq.2 _ hne, show (s.setReg (ringCfg m) x.new).reg (ringCfg m) = x.new from s.reg_setReg_same _ _, hz]
    refine Nat.mod_eq_of_lt ?_
    unfold clampNat; omega

theorem cqEqEnable_does : ∀ (m : Fin 5) (cfg : Word) (s : State), s.pwr.restoring = false → s.locked = false →
    s.ringEnabled m = false → (m = 4 → s.cmd.drops = 0 ∧ s.bst.toPost = []) → Does (.cqEqEnable m cfg) s fun t =>
      t.ringEnabled m = true ∧ t.ringSize m = clampNat 16 4096 (Fld.CMD_CQm_CFG.SIZE.of cfg) ∧
      (t.ring m).pi = 0 ∧ (t.ring m).ci = 0 ∧ (t.ring m).phase = true ∧ t.sram (producerWord m) = 0 := by
  intro m cfg s h hl he hd
  obtain ⟨u, hs, hu, h1, h2⟩ := State.recCfg_stored (m := m) (w := Fld.CMD_CQm_CFG.EN.put 1 cfg) h hl
  refine ⟨_, exec_cqEqEnable.trans rfl, ?_⟩
  dsimp only
  have hon : Fld.CMD_CQm_CFG.EN.on (Fld.CMD_CQm_CFG.EN.put 1 cfg) = true := by
    unfold Bits.on; rw [Bits.of_put Fld.CMD_CQm_CFG.EN 1 cfg]; rfl
  rw [Bits.of_put_other] at h2
  rw [hon] at h1
  have hw : u.recCfgWritten m (s.ringEnabled m) = u.recRingEnabled m := by
    unfold State.recCfgWritten
    rw [h1, he]
    simp only [Bool.not_false, Bool.and_self, if_true]
    split
    · next e =>
      obtain ⟨d1, d2⟩ := hd (Fin.ext e)
      have hf := State.recRingEnabled_frame (s := u) (m := m)
      have d1' : (u.recRingEnabled m).cmd.drops = 0 := by
        have := congrArg Cmd.drops (hf.cmdRest (by decide))
        refine Eq.trans this ?_
        rw [hu]; exact d1
      have d2' : (u.recRingEnabled m).bst.toPost = [] := by
        have := congrArg Bst.toPost (hf.bst (by decide))
        refine Eq.trans this ?_
        rw [hu]; exact d2
      rw [State.postOverflow_none d1']
      unfold State.postWaitingRepairs
      rw [d2', List.foldl_nil]
      exact (by intro v hv; rw [← hv] : ∀ v : State, v.bst.toPost = [] → { v with bst.toPost := [] } = v) _ d2'
    · rfl
  rw [hw] at hs
  have hf := State.recRingEnabled_frame (s := u) (m := m)
  have hreg : (s.blockStore 0 (ringCfg m) (Fld.CMD_CQm_CFG.EN.put 1 cfg)).reg (ringCfg m) = u.reg (ringCfg m) := by
    rw [hs.regOf rfl (recCfg_place m).2.2.2.2.2.2.2]
    refine hf.regs _ ?_
    rcases List.mem_cons.1 (recCfg_place m).2.2.2.2.2.2.1 with e | e
    · rw [e]; decide
    · rw [List.mem_singleton.1 e]; decide
  have hring : (s.blockStore 0 (ringCfg m) (Fld.CMD_CQm_CFG.EN.put 1 cfg)).ring m = {} := by
    rw [hs.ring]
    refine Eq.trans (show (u.recRingEnabled m).ring m = (u.setRing m {}).ring m from rfl) ?_
    rw [State.ring_setRing, if_pos rfl]
  refine ⟨?_, ?_, ?_, ?_, ?_, ?_⟩
  · exact (congrArg (fun w => Fld.CMD_CQm_CFG.EN.of w != 0) hreg).trans h1
  · exact (congrArg (fun w => Fld.CMD_CQm_CFG.SIZE.of w) hreg).trans h2
  · exact congrArg RecRing.pi hring
  · exact congrArg RecRing.ci hring
  · exact congrArg RecRing.phase hring
  · exact (State.sram_congr hs.mem _).trans (State.fabricWord_sram _ _ _)

/-! ### The state of a ring -/

theorem State.sqState_setSqState (s : State) (n v : Nat) (h : v < 4) : (s.setSqState n v).sqState n = v := by
  unfold State.sqState State.setSqState
  rw [s.fld_setFld (Reg.CMD_SQn_STAT n) Fld.CMD_SQn_STAT.STATE]
  exact Nat.mod_eq_of_lt h

theorem State.sqState_setSqState_other (s : State) (n k : Fin 16) (v : Nat) (h : k ≠ n) :
    (s.setSqState k v).sqState n = s.sqState n := by
  unfold State.sqState State.setSqState
  refine State.fld_setFld_other _ _ _ _ ?_
  exact (by decide : ∀ k n : Fin 16, k ≠ n → Reg.CMD_SQn_STAT n ≠ Reg.CMD_SQn_STAT k) k n h

theorem State.setSqState_enabled (s : State) (k v n : Nat) : (s.setSqState k v).sqEnabled n = s.sqEnabled n := by
  unfold State.sqEnabled State.setSqState
  exact congrArg (· != 0) (State.fld_setFld_other _ _ _ _ (reg_ne (regNo_CMD_SQn_CFG n) (regNo_CMD_SQn_STAT k)))

/-- A ring that is halted stays halted when the status of the rings is brought up to date. -/
theorem State.refreshRings_halted (s : State) (n : Fin 16) (h : s.sqState n = ringHalted) :
    s.refreshRings.sqState n = ringHalted := by
  unfold State.refreshRings
  extract_lets opens desc s0
  have h0 : s0.sqState n = ringHalted := by
    have h1 : Reg.CMD_SQn_STAT n ≠ Reg.CMD_STAGE := reg_ne (regNo_CMD_SQn_STAT _) regNo_CMD_STAGE
    refine Eq.trans ?_ h
    unfold State.sqState
    exact (State.fld_setFld_other _ _ _ _ h1).trans (State.fld_setFld_other _ _ _ _ h1)
  have key : ∀ (l : List Nat) (f : State → Nat → State),
      (∀ u k, k ∈ l → u.sqState n = ringHalted → (f u k).sqState n = ringHalted) → ∀ u : State, u.sqState n = ringHalted →
      (l.foldl f u).sqState n = ringHalted := by
    intro l f
    induction l with
    | nil => exact fun _ u hu => hu
    | cons k l ih =>
      intro hf u hu
      exact ih (fun v j hj => hf v j (List.mem_cons_of_mem _ hj)) _ (hf u k List.mem_cons_self hu)
  refine key _ _ ?_ s0 h0
  intro u k hk hu
  dsimp only
  split
  · exact hu
  · next hne =>
    by_cases e : n = ⟨k, List.mem_range.1 hk⟩
    · subst e
      exact absurd hu hne
    · exact (State.sqState_setSqState_other u n ⟨k, List.mem_range.1 hk⟩ _ fun x => e x.symm).trans hu

end Sys2Proof.Machine
end

