-- ==== Sys2Proof/Laws/EffectRecords.lean ====
section
/-! SUPPORT. EVT_n released, and the records that the fabric posts. -/

set_option Elab.async false

namespace Sys2Proof.Machine

theorem Does.via {c : Instr} {s : State} {P : State → Prop} {x : Host.Outcome State Fault Refusal} (e : exec c s = x)
    (h : ∃ t, x = .next t ∧ P t) : Does c s P := by
  obtain ⟨t, rfl, hp⟩ := h
  exact ⟨t, e, hp⟩

/-! ### EVT_ACK -/

theorem evtcfg_place : IsReg Reg.CMD_EVTCFG 2 2 0 := by decide +kernel

theorem evtAck_does : ∀ s : State, s.pwr.restoring = false → Does .evtAck s fun t => t.cmd.evtLow = false := by
  intro s h
  refine ⟨_, exec_evtAck.trans rfl, ?_⟩
  dsimp only
  have hr := evtcfg_place
  have hs := hr.stored (s := s) (w := s.withField Reg.CMD_EVTCFG Fld.CMD_EVTCFG.ACK 1) (busy := false) (by decide) h
    (by cases s.locked <;> decide)
  rw [State.put_cmd (x := s.wrote Reg.CMD_EVTCFG (regDesc 2 2) (s.withField Reg.CMD_EVTCFG Fld.CMD_EVTCFG.ACK 1)) hr.2.1] at hs
  have hon : Fld.CMD_EVTCFG.ACK.on (s.wrote Reg.CMD_EVTCFG (regDesc 2 2) (s.withField Reg.CMD_EVTCFG Fld.CMD_EVTCFG.ACK 1)).ones = true := by
    show Fld.CMD_EVTCFG.ACK.on (_ &&& _) = true
    rw [Bits.on_and (by cases s.locked <;> decide)]
    unfold State.withField Bits.on
    rw [Bits.of_put Fld.CMD_EVTCFG.ACK 1]; rfl
  rw [hs.cmd]
  unfold State.putCmd
  rw [if_pos (show (s.wrote Reg.CMD_EVTCFG (regDesc 2 2) _).a = Reg.CMD_EVTCFG from rfl), if_pos hon]


/-! ### One record -/

theorem State.setBytes_eq (bs : List Byte) (s : State) (a : Nat) : s.setBytes a bs = { s with mem := (s.setBytes a bs).mem } := by
  induction bs generalizing s a with
  | nil => rfl
  | cons b bs ih =>
    show (s.setByte a b).setBytes (a + 1) bs = { s with mem := ((s.setByte a b).setBytes (a + 1) bs).mem }
    have h := ih (s.setByte a b) (a + 1)
    generalize (s.setByte a b).setBytes (a + 1) bs = t at h ⊢
    rw [h]; rfl

theorem State.setWords_eq (ws : List Word) (s : State) (a : Nat) : s.setWords a ws = { s with mem := (s.setWords a ws).mem } := by
  induction ws generalizing s a with
  | nil => rfl
  | cons w ws ih =>
    show (s.setWord a w).setWords (a + 4) ws = { s with mem := ((s.setWord a w).setWords (a + 4) ws).mem }
    have h := ih (s.setWord a w) (a + 4)
    have h2 := State.setBytes_eq (bytesOfWord w) s a
    have h3 : s.setWord a w = s.setBytes a (bytesOfWord w) := rfl
    rw [h3] at h ⊢
    generalize s.setBytes a (bytesOfWord w) = u at h h2 ⊢
    generalize u.setWords (a + 4) ws = t at h ⊢
    rw [h, h2]

/-- A write of the fabric changes memory and ends reservations. -/
theorem State.fabricWords_eq (s : State) (off : Nat) (ws : List Word) :
    s.fabricWords off ws = { s with mem := (s.fabricWords off ws).mem, hic := (s.clearResv off (4 * ws.length)).hic } := by
  unfold State.fabricWords
  have h := State.setWords_eq ws (s.clearResv off (4 * ws.length)) (sramBase + off)
  generalize (s.clearResv off (4 * ws.length)).setWords (sramBase + off) ws = t at h ⊢
  rw [h]; rfl

theorem State.fabricWords_tick (s : State) (off : Nat) (ws : List Word) : (s.fabricWords off ws).tick = s.tick := by
  rw [State.fabricWords_eq]

theorem State.writeRecord_eq (s : State) (m : Nat) (w0 psn w2 w3 : Word) : s.writeRecord m w0 psn w2 w3 =
    ((((s.fabricWords (s.nextRecord m) [setBit w0 12 (s.ring m).phase, psn, w2, w3]).setRing m (s.advanced m)).fabricWords
      (producerWord m) [BitVec.ofNat 32 (s.advanced m).pi]).fabricWords (doorbell + 0x854) [psn]) := by
  unfold State.writeRecord State.advanced State.nextRecord
  simp only [State.fabricWords_tick, decide_eq_true_eq]

theorem State.writeRecord_ring (s : State) (m : Nat) (w0 psn w2 w3 : Word) :
    (s.writeRecord m w0 psn w2 w3).ring m = s.advanced m := by
  rw [State.writeRecord_eq, (State.pi_word_fabricWords _ _ _ _).1, (State.pi_word_fabricWords _ _ _ _).1,
    State.ring_setRing, if_pos rfl]

theorem State.fabricWord_eq (s : State) (a : Nat) (w : Word) :
    s.fabricWords a [w] = (s.clearResv a 4).setWord (sramBase + a) w := by
  unfold State.fabricWords State.setWords State.setWords; rfl

theorem State.sram_fabricWord_other (s : State) {a b : Nat} (w : Word) (h : b + 4 ≤ a ∨ a + 4 ≤ b) :
    (s.fabricWords a [w]).sram b = s.sram b := by
  rw [State.fabricWord_eq]
  unfold State.sram
  rw [State.word_setWord_other _ _ (by omega)]
  exact State.word_congr rfl _

theorem producerWord_le (m : Nat) : doorbell + 0x840 ≤ producerWord m ∧ producerWord m ≤ doorbell + 0x850 := by
  unfold producerWord; split <;> omega

theorem State.words4 (u : State) (a : Nat) (x0 x1 x2 x3 : Word) : (u.setWords a [x0, x1, x2, x3]).word a = x0 ∧
    (u.setWords a [x0, x1, x2, x3]).word (a + 4) = x1 ∧ (u.setWords a [x0, x1, x2, x3]).word (a + 8) = x2 ∧
    (u.setWords a [x0, x1, x2, x3]).word (a + 12) = x3 := by
  have e : u.setWords a [x0, x1, x2, x3] = (((u.setWord a x0).setWord (a + 4) x1).setWord (a + 8) x2).setWord (a + 12) x3 := by
    unfold State.setWords State.setWords State.setWords State.setWords State.setWords; rfl
  rw [e]
  refine ⟨?_, ?_, ?_, ?_⟩
  · rw [State.word_setWord_other _ _ (by omega), State.word_setWord_other _ _ (by omega),
      State.word_setWord_other _ _ (by omega), State.word_setWord_same]
  · rw [State.word_setWord_other _ _ (by omega), State.word_setWord_other _ _ (by omega), State.word_setWord_same]
  · rw [State.word_setWord_other _ _ (by omega), State.word_setWord_same]
  · rw [State.word_setWord_same]

theorem State.writeRecord_words (s : State) (m : Nat) (w0 psn w2 w3 : Word) (h : s.nextRecord m + 16 ≤ doorbell) :
    (s.writeRecord m w0 psn w2 w3).sram (s.nextRecord m) = setBit w0 12 (s.ring m).phase ∧
    (s.writeRecord m w0 psn w2 w3).sram (s.nextRecord m + 4) = psn ∧
    (s.writeRecord m w0 psn w2 w3).sram (s.nextRecord m + 8) = w2 ∧
    (s.writeRecord m w0 psn w2 w3).sram (s.nextRecord m + 12) = w3 ∧
    (s.writeRecord m w0 psn w2 w3).sram (producerWord m) = BitVec.ofNat 32 (s.advanced m).pi ∧
    (s.writeRecord m w0 psn w2 w3).sram (doorbell + 0x854) = psn := by
  have hp := producerWord_le m
  rw [State.writeRecord_eq]
  generalize hu : s.fabricWords (s.nextRecord m) [setBit w0 12 (s.ring m).phase, psn, w2, w3] = u
  have hw := (s.clearResv (s.nextRecord m) (4 * [setBit w0 12 (s.ring m).phase, psn, w2, w3].length)).words4
    (sramBase + s.nextRecord m) (setBit w0 12 (s.ring m).phase) psn w2 w3
  have hu' : (s.clearResv (s.nextRecord m) (4 * [setBit w0 12 (s.ring m).phase, psn, w2, w3].length)).setWords
    (sramBase + s.nextRecord m) [setBit w0 12 (s.ring m).phase, psn, w2, w3] = u := hu
  rw [hu'] at hw
  generalize s.nextRecord m = off at h hw
  generalize producerWord m = pw at hp
  generalize doorbell = D at h hp
  generalize (s.advanced m).pi = pi'
  generalize s.advanced m = r'
  have main : ∀ k, k + 4 ≤ D →
      (((u.setRing m r').fabricWords pw [BitVec.ofNat 32 pi']).fabricWords (D + 0x854) [psn]).sram k = u.sram k := by
    intro k hk
    rw [State.sram_fabricWord_other _ _ (.inl (by omega)), State.sram_fabricWord_other _ _ (.inl (by omega))]
    exact State.sram_congr (t := u.setRing m r') (s := u) rfl k
  have one : ∀ k, sramBase + (off + k) = sramBase + off + k := fun k => by omega
  refine ⟨?_, ?_, ?_, ?_, ?_, ?_⟩
  · rw [main _ (by omega)]; exact hw.1
  · rw [main _ (by omega)]; unfold State.sram; rw [one]; exact hw.2.1
  · rw [main _ (by omega)]; unfold State.sram; rw [one]; exact hw.2.2.1
  · rw [main _ (by omega)]; unfold State.sram; rw [one]; exact hw.2.2.2
  · rw [State.sram_fabricWord_other _ _ (.inl (by omega))]
    exact State.fabricWord_sram _ _ _
  · exact State.fabricWord_sram _ _ _

/-! ### Completions and their PSNs -/

theorem psnAfterAll_succ (p : Word) (n : Nat) : psnAfterAll p (n + 1) = psnAfterAll (psnAfter p) n := by
  unfold psnAfterAll
  have : ∀ (l : List Nat) (p : Word), l.foldl (fun p _ => psnAfter p) (psnAfter p) = psnAfter (l.foldl (fun p _ => psnAfter p) p) := by
    intro l
    induction l with
    | nil => intro p; rfl
    | cons x l ih => intro p; rw [List.foldl_cons, List.foldl_cons, ih]
  rw [List.range_succ, List.foldl_append, this]
  rfl

theorem psnAfterAll_add (p : Word) (m n : Nat) : psnAfterAll p (m + n) = psnAfterAll (psnAfterAll p m) n := by
  induction m generalizing p with
  | zero => rw [Nat.zero_add]; rfl
  | succ m ih => rw [Nat.add_right_comm, psnAfterAll_succ, psnAfterAll_succ, ih]

theorem psnAfterAll_one (p : Word) : psnAfterAll p 1 = psnAfter p := rfl

theorem State.takePsn_psn (s : State) : s.takePsn.2.reg Reg.CMD_PSN = psnAfter (s.reg Reg.CMD_PSN) :=
  State.reg_setReg_same _ _ _

/-- Records that take `n` PSNs: what is queued, the submission rings and the time stay. -/
structure Posts (n : Nat) (s t : State) : Prop where
  psn : t.reg Reg.CMD_PSN = psnAfterAll (s.reg Reg.CMD_PSN) n
  lost : t.led.lost = s.led.lost
  disabled : t.cmd.disabled = s.cmd.disabled
  due : t.cmd.due = s.cmd.due
  posting : t.cmd.posting = s.cmd.posting
  sqs : t.cmd.sqs = s.cmd.sqs
  now : t.now = s.now

theorem Posts.trans {m n : Nat} {s t u : State} (h : Posts m s t) (g : Posts n t u) : Posts (m + n) s u :=
  ⟨by rw [g.psn, h.psn, psnAfterAll_add], g.lost.trans h.lost, g.disabled.trans h.disabled, g.due.trans h.due,
    g.posting.trans h.posting, g.sqs.trans h.sqs, g.now.trans h.now⟩

theorem Posts.takePsn (s : State) : Posts 1 s s.takePsn.2 := ⟨s.takePsn_psn, rfl, rfl, rfl, rfl, rfl, rfl⟩

theorem Posts.writeRecord (s : State) {m : Nat} (hm : m ≤ 4) (w0 psn w2 w3 : Word) :
    Posts 0 s (s.writeRecord m w0 psn w2 w3) := by
  have hf := State.writeRecord_frame (s := s) (m := m) (w0 := w0) (psn := psn) (w2 := w2) (w3 := w3) hm
  have hc := congrArg Cmd.disabled (hf.cmdRest (by decide))
  have hd := congrArg Cmd.due (hf.cmdRest (by decide))
  exact ⟨hf.reg regNo_CMD_PSN, congrArg Ledger.lost (hf.led (by decide)), hc, hd,
    hf.posting (by decide), hf.sqs (by decide), hf.now (by decide)⟩

theorem State.writeRecord_found (s : State) {m : Nat} (hm : m ≤ 4) (w0 psn w2 w3 : Word) :
    (s.writeRecord m w0 psn w2 w3).cmd.found = s.cmd.found := by
  have h := congrArg Cmd.found ((State.writeRecord_frame (s := s) (w0 := w0) (psn := psn) (w2 := w2) (w3 := w3) hm).cmdRest (by decide))
  exact h

theorem Posts.event (s : State) (low : Bool) (n : Nat) : Posts 0 s { s with cmd := { s.cmd with evtLow := low, drops := n } } :=
  ⟨rfl, rfl, rfl, rfl, rfl, rfl, rfl⟩

theorem Posts.count (s : State) (f : Bits) : Posts 0 s (s.count Reg.CMD_EQ_STAT f) :=
  ⟨State.reg_setReg_other _ _ (reg_ne regNo_CMD_PSN regNo_CMD_EQ_STAT), rfl, rfl, rfl, rfl, rfl, rfl⟩

/-- The state after an event has taken its PSN. -/
def State.numbered (s : State) (e : Ev) : State :=
  { s.setReg Reg.CMD_PSN (psnAfter (s.reg Reg.CMD_PSN)) with
    cmd := { s.cmd with
      issued := true
      evtLow := s.cmd.evtLow || decide (s.fld Reg.CMD_EVTCFG Fld.CMD_EVTCFG.EVTN_CLASS ≤ e.cls) } }

theorem State.numbered_fld (s : State) (e : Ev) {a : Nat} {f : Bits} (h : a ≠ Reg.CMD_PSN) : (s.numbered e).fld a f = s.fld a f :=
  congrArg f.of (State.reg_setReg_other s _ h)

/-- The event ring after an event: it takes the record, or counts it as dropped. -/
def State.recorded (s : State) (e : Ev) (psn : Word) : State :=
  if s.ringEnabled 4 && decide (0 < s.ringFree 4) then
    s.writeRecord 4 (detailOf [(0, e.code), (13, e.cls), (16, e.unit), (24, e.inst)]) psn (BitVec.ofNat 32 s.tickLow) e.detail
  else { s.count Reg.CMD_EQ_STAT Fld.CMD_EQ_STAT.DROP with cmd.drops := satAdd 32 s.cmd.drops 1 }

theorem State.postOne_eq {s : State} {e : Ev} (hl : s.led.lost = false) : s.postOne e =
    if e.inLedger then
      ((s.numbered e).recorded e (s.reg Reg.CMD_PSN)).sendLedger (((s.numbered e).recorded e (s.reg Reg.CMD_PSN)).ledgerEntry 0
        e.cls e.unit e.inst e.code (s.reg Reg.CMD_PSN) 1 (e.detail :: ((s.numbered e).recorded e (s.reg Reg.CMD_PSN)).rtcWords))
    else (s.numbered e).recorded e (s.reg Reg.CMD_PSN) := by
  unfold State.postOne
  rw [hl, if_neg (by decide)]
  dsimp only
  have hu : (if s.takePsn.2.fld Reg.CMD_EVTCFG Fld.CMD_EVTCFG.EVTN_CLASS ≤ e.cls
    then { s.takePsn.2 with cmd.evtLow := true } else s.takePsn.2) = s.numbered e := by
    rw [show s.takePsn.2.fld Reg.CMD_EVTCFG Fld.CMD_EVTCFG.EVTN_CLASS = s.fld Reg.CMD_EVTCFG Fld.CMD_EVTCFG.EVTN_CLASS from
      congrArg _ (State.reg_setReg_other _ _ (reg_ne regNo_CMD_EVTCFG regNo_CMD_PSN))]
    unfold State.numbered State.takePsn
    split
    · next h => simp only [h, decide_true, Bool.or_true]; rfl
    · next h => simp only [h, decide_false, Bool.or_false]; rfl
  rw [hu]
  rfl

/-- An event takes one PSN. -/
theorem State.postOne_posts (s : State) (e : Ev) (h : s.led.lost = false) :
    Posts 1 s (s.postOne e) ∧ (s.postOne e).cmd.found = s.cmd.found := by
  rw [State.postOne_eq h]
  have h1 : Posts 1 s (s.numbered e) ∧ (s.numbered e).cmd.found = s.cmd.found :=
    ⟨⟨State.reg_setReg_same _ _ _, rfl, rfl, rfl, rfl, rfl, rfl⟩, rfl⟩
  generalize s.numbered e = u at h1
  have h2 : ∀ p, Posts 1 s (u.recorded e p) ∧ (u.recorded e p).cmd.found = s.cmd.found := by
    intro p
    unfold State.recorded
    split
    · exact ⟨h1.1.trans (Posts.writeRecord u (by decide) _ _ _ _), (State.writeRecord_found u (by decide) _ _ _ _).trans h1.2⟩
    · exact ⟨h1.1.trans ((Posts.count u Fld.CMD_EQ_STAT.DROP).trans (Posts.event _ _ _)), h1.2⟩
  obtain ⟨g1, g2⟩ := h2 (s.reg Reg.CMD_PSN)
  generalize u.recorded e (s.reg Reg.CMD_PSN) = v at g1 g2
  split
  · exact ⟨g1.trans (n := 0) ⟨rfl, rfl, rfl, rfl, rfl, rfl, rfl⟩, g2⟩
  · exact ⟨g1, g2⟩

theorem State.postFound_posts (s : State) (h : s.led.lost = false) :
    Posts s.foundDue s s.postFound ∧ s.postFound.foundDue = 0 := by
  have key : ∀ (l : List (Nat × Ev)) (u : State), u.led.lost = false →
      Posts l.length u (l.foldl (fun s f => s.postOne f.2) u) ∧ (l.foldl (fun s f => s.postOne f.2) u).cmd.found = u.cmd.found := by
    intro l
    induction l with
    | nil => exact fun u _ => ⟨⟨rfl, rfl, rfl, rfl, rfl, rfl, rfl⟩, rfl⟩
    | cons f l ih =>
      intro u hu
      obtain ⟨h1, h2⟩ := u.postOne_posts f.2 hu
      obtain ⟨g1, g2⟩ := ih (u.postOne f.2) (h1.lost.trans hu)
      rw [List.foldl_cons, List.length_cons, Nat.add_comm]
      exact ⟨h1.trans g1, g2.trans h2⟩
  unfold State.postFound
  split
  · next hn => unfold State.foundDue; rw [hn]; exact ⟨⟨rfl, rfl, rfl, rfl, rfl, rfl, rfl⟩, rfl⟩
  · next l hl =>
    obtain ⟨h1, h2⟩ := key (s.cmd.found.filter fun f => decide (f.1 ≤ s.now))
      { s with cmd.found := s.cmd.found.filter fun f => decide (s.now < f.1) } h
    have h0 : Posts 0 s { s with cmd.found := s.cmd.found.filter fun f => decide (s.now < f.1) } :=
      ⟨rfl, rfl, rfl, rfl, rfl, rfl, rfl⟩
    refine ⟨?_, ?_⟩
    · have := h0.trans h1
      rw [Nat.zero_add] at this
      exact this
    · unfold State.foundDue
      rw [h1.now, h2, List.filter_filter, List.length_eq_zero_iff, List.filter_eq_nil_iff]
      intro f _
      simp only [Bool.and_eq_true, decide_eq_true_eq]
      omega

theorem State.postFound_none {s : State} (h : s.foundDue = 0) : s.postFound = s := by
  unfold State.foundDue at h
  rw [List.length_eq_zero_iff, List.filter_eq_nil_iff] at h
  unfold State.postFound
  split
  · rfl
  · have h1 : (s.cmd.found.filter fun f => decide (f.1 ≤ s.now)) = [] := by
      rw [List.filter_eq_nil_iff]; exact h
    have h2 : (s.cmd.found.filter fun f => decide (s.now < f.1)) = s.cmd.found := by
      rw [List.filter_eq_self]
      intro f hf
      have := h f hf
      simp only [decide_eq_true_eq] at this ⊢
      omega
    rw [h1, h2]
    rfl

/-- A completion takes the PSN after those of the findings before it. -/
theorem State.postCompletion_posts (s : State) (c : Completion) (h : s.led.lost = false) :
    Posts (s.foundDue + 1) s (s.postCompletion c) ∧ (s.postCompletion c).foundDue = 0 := by
  obtain ⟨h1, h2⟩ := s.postFound_posts h
  have h3 := h1.trans (Posts.takePsn s.postFound)
  unfold State.postCompletion
  rw [h, if_neg (by decide)]
  dsimp only
  split
  · have hm : s.fld (Reg.CMD_SQn_CFG c.ring) Fld.CMD_SQn_CFG.CQ ≤ 4 := by
      have := s.fld_lt (Reg.CMD_SQn_CFG c.ring) Fld.CMD_SQn_CFG.CQ
      have e : (2 : Nat) ^ Fld.CMD_SQn_CFG.CQ.width = 4 := by decide
      omega
    have hw := Posts.writeRecord s.postFound.takePsn.2 hm
      (detailOf [(0, c.status), (8, c.ring), (16, c.seq)]) s.postFound.takePsn.1
      (BitVec.ofNat 32 s.postFound.takePsn.2.tickLow) c.word3
    refine ⟨h3.trans hw, ?_⟩
    unfold State.foundDue at h2 ⊢
    rw [hw.now, State.writeRecord_found _ hm]
    exact h2
  · exact ⟨h3, h2⟩

theorem State.postAll_posts (l : List Completion) (s : State) (h : s.led.lost = false) :
    Posts (s.psnsTaken l.length) s (l.foldl State.postCompletion s) := by
  have key : ∀ (l : List Completion) (s : State), s.led.lost = false → s.foundDue = 0 →
      Posts l.length s (l.foldl State.postCompletion s) := by
    intro l
    induction l with
    | nil => exact fun _ _ _ => ⟨rfl, rfl, rfl, rfl, rfl, rfl, rfl⟩
    | cons c l ih =>
      intro s h h0
      obtain ⟨h1, h2⟩ := s.postCompletion_posts c h
      rw [h0] at h1
      rw [List.foldl_cons, List.length_cons, Nat.add_comm]
      exact h1.trans (ih _ (h1.lost.trans h) h2)
  cases l with
  | nil => exact ⟨rfl, rfl, rfl, rfl, rfl, rfl, rfl⟩
  | cons c l =>
    obtain ⟨h1, h2⟩ := s.postCompletion_posts c h
    have := h1.trans (key l _ (h1.lost.trans h) h2)
    unfold State.psnsTaken
    rw [List.length_cons, if_neg (by omega), show s.foundDue + (l.length + 1) = s.foundDue + 1 + l.length by omega]
    exact this

theorem State.postQueued_result (s : State) (h : s.led.lost = false) :
    s.postQueued.reg Reg.CMD_PSN = psnAfterAll (s.reg Reg.CMD_PSN) (s.psnsTaken s.queuedRecords.length) ∧
    s.postQueued.cmd.due = [] ∧ s.postQueued.cmd.posting = [] ∧
    s.postQueued.cmd.disabled = (if s.ticking then s.cmd.disabled else []) ∧ s.postQueued.now = s.now := by
  unfold State.postQueued
  extract_lets wait recs
  have hk := State.postAll_posts recs { s with cmd := { s.cmd with disabled := wait, due := [], posting := [] } } h
  have hw : wait = if s.ticking then s.cmd.disabled else [] := rfl
  have hq : recs = s.queuedRecords := rfl
  rw [hq, hw] at hk ⊢
  generalize s.queuedRecords.foldl State.postCompletion _ = t at hk
  have hf := State.refreshRings_frame (s := t)
  have hc := congrArg Cmd.disabled (hf.cmdRest (by decide))
  have hd := congrArg Cmd.due (hf.cmdRest (by decide))
  exact ⟨(hf.reg regNo_CMD_PSN).trans hk.psn, hd.trans hk.due, (hf.posting (by decide)).trans hk.posting,
    hc.trans hk.disabled, (hf.now (by decide)).trans hk.now⟩

/-- The state in which COMPLETION_POSTING posts: 255 ns after the boundary while ticks run. -/
theorem completionPosting_does : ∀ s : State, s.led.lost = false → Does .completionPosting s fun t =>
    t.reg Reg.CMD_PSN = psnAfterAll (s.reg Reg.CMD_PSN) (s.postingInstant.psnsTaken s.queuedRecords.length) ∧
    t.cmd.due = [] ∧ t.cmd.posting = [] ∧ t.cmd.disabled = (if s.ticking then s.cmd.disabled else []) ∧
    t.now = s.postingInstant.now ∧ (s.ticking = true → t.now = max s.now (s.t0 + nsToEs 255)) := by
  intro s h
  refine ⟨_, exec_completionPosting.trans rfl, ?_⟩
  dsimp only
  have hp : (if s.ticking = true then s.atTick 255 else s) = s.postingInstant := rfl
  rw [hp]
  have hi : s.postingInstant = { s with now := s.postingInstant.now } := by
    unfold State.postingInstant; split <;> rfl
  have hn : s.ticking = true → s.postingInstant.now = max s.now (s.t0 + nsToEs 255) := by
    intro ht; unfold State.postingInstant; rw [if_pos ht]; rfl
  generalize s.postingInstant = u at hi hn ⊢
  obtain ⟨h1, h2, h3, h4, h5⟩ := u.postQueued_result (by rw [hi]; exact h)
  have hr : u.reg Reg.CMD_PSN = s.reg Reg.CMD_PSN := by rw [hi]; rfl
  have hq : u.queuedRecords = s.queuedRecords := by rw [hi]; rfl
  have hd : (if u.ticking then u.cmd.disabled else []) = if s.ticking then s.cmd.disabled else [] := by rw [hi]; rfl
  rw [hr, hq] at h1
  exact ⟨h1, h2, h3, h4.trans hd, h5, fun ht => h5.trans (hn ht)⟩

theorem flushRecordPost_does : ∀ (n : Fin 16) (f : FlushRec) (rest : List FlushRec) (s : State), (s.sq n).flushing = f :: rest →
    s.led.lost = false → s.flushRoom n f = true →
    Does (.flushRecordPost n) s fun t => (t.sq n).flushing = rest ∧
      t.reg Reg.CMD_PSN = psnAfterAll (s.reg Reg.CMD_PSN) ((s.at (s.now + esPerFc)).foundDue + 1) ∧
      t.now = s.now + esPerFc := by
  intro n f rest s hf hl hfree
  refine Does.via exec_flushRecordPost ?_
  unfold execFlushRecordPost
  extract_lets r
  rw [show r.flushing = f :: rest from hf]
  dsimp only
  rw [hfree, if_neg (by decide)]
  refine ⟨_, rfl, ?_⟩
  generalize hs1 : ((s.at (s.now + esPerFc)).setSq n { s.sq n with flushing := rest }) = s1
  have h1 : s1.led.lost = false := by rw [← hs1]; exact hl
  have hp := (s1.postCompletion_posts (f.completion n) h1).1
  have hr : s1.reg Reg.CMD_PSN = s.reg Reg.CMD_PSN := by rw [← hs1]; rfl
  have hd : s1.foundDue = (s.at (s.now + esPerFc)).foundDue := by rw [← hs1]; rfl
  have hn : s1.now = s.now + esPerFc := by rw [← hs1]; exact Nat.max_eq_right (Nat.le_add_right _ _)
  have hq : (s1.sq n).flushing = rest := by rw [← hs1, State.sq_setSq, if_pos rfl]
  generalize s1.postCompletion (f.completion n) = u at hp ⊢
  have hu : u.sq n = s1.sq n := congrArg (fun x => tabGet ({} : SqRun) x n) hp.sqs
  have he := State.flushEnds_frame (s := u) (x1 := n)
  refine ⟨?_, ?_, ?_⟩
  · rw [he.sq, hu, hq]
  · rw [he.reg regNo_CMD_PSN, hp.psn, hr, hd]
  · rw [he.now (by decide), hp.now, hn]

/-! ### Events -/

/-- An event that finds room in the event ring, and that the ledger does not take. -/
theorem State.postRaw_ring {s : State} {e : Ev} (hl : s.led.lost = false) (hn : s.foundDue = 0) (he : s.ringEnabled 4 = true)
    (hf : 0 < s.ringFree 4) (hi : e.inLedger = false) :
      s.postRaw e = (s.numbered e).writeRecord 4 (detailOf [(0, e.code), (13, e.cls), (16, e.unit), (24, e.inst)])
        (s.reg Reg.CMD_PSN) (BitVec.ofNat 32 s.tickLow) e.detail := by
  unfold State.postRaw
  rw [State.postFound_none hn, State.postOne_eq hl, hi, if_neg (by decide)]
  have hr : ∀ f, (s.numbered e).fld Reg.CMD_EQ_CFG f = s.fld Reg.CMD_EQ_CFG f := fun f =>
    s.numbered_fld e (reg_ne regNo_CMD_EQ_CFG regNo_CMD_PSN)
  have he' : (s.numbered e).ringEnabled 4 = true := (congrArg (· != 0) (hr _)).trans he
  have hs' : (s.numbered e).ringSize 4 = s.ringSize 4 := hr _
  have hf' : 0 < (s.numbered e).ringFree 4 := by
    unfold State.ringFree State.unconsumed at hf ⊢
    rw [hs']; exact hf
  unfold State.recorded
  rw [if_pos (by rw [he', decide_eq_true hf']; rfl)]
  rfl

/-! ### EQ_OVERFLOW -/

theorem State.postOverflow_due {s : State} (hd : s.cmd.drops ≠ 0) (he : s.ringEnabled 4 = true) (hf : 0 < s.ringFree 4)
    (hb : s.batch = none) :
    s.postOverflow = ({ s with cmd.drops := 0 } : State).postRaw ⟨UnitCode.cmd, 0x002, 0, 0, BitVec.ofNat 32 s.cmd.drops⟩ := by
  unfold State.postOverflow
  rw [if_pos ⟨hd, he, hf⟩]
  have h : ∀ (u : State) (e : Ev), u.batch = none → e.cls = 0 → u.event e = u.postRaw e := by
    intro u e hb hc
    unfold State.event
    rw [hb]
    dsimp only
    unfold State.post
    rw [hc]
    rfl
  exact h _ _ hb rfl

theorem eqOverflow_does : ∀ s : State, s.cmd.drops ≠ 0 → s.ringEnabled 4 = true → 0 < s.ringFree 4 → s.batch = none →
    s.led.lost = false → s.foundDue = 0 → s.nextRecord 4 + 16 ≤ doorbell → Does .eqOverflow s fun t =>
      t.cmd.drops = 0 ∧ t.reg Reg.CMD_PSN = psnAfter (s.reg Reg.CMD_PSN) ∧ t.ring 4 = s.advanced 4 ∧
      t.sram (s.nextRecord 4 + 4) = s.reg Reg.CMD_PSN ∧ t.sram (s.nextRecord 4 + 12) = BitVec.ofNat 32 s.cmd.drops := by
  intro s hd he hf hb hl hn hrec
  refine ⟨_, exec_eqOverflow.trans rfl, ?_⟩
  dsimp only
  rw [State.postOverflow_due hd he hf hb]
  rw [State.postRaw_ring (s := { s with cmd.drops := 0 }) (e := ⟨UnitCode.cmd, 0x002, 0, 0, BitVec.ofNat 32 s.cmd.drops⟩)
    hl hn he hf (rfl)]
  generalize hu : ({ s with cmd.drops := 0 } : State).numbered ⟨UnitCode.cmd, 0x002, 0, 0, BitVec.ofNat 32 s.cmd.drops⟩ = u
  have h1 : u.fld (ringBase 4) Fld.CMD_CQm_BASE.OFFSET = s.fld (ringBase 4) Fld.CMD_CQm_BASE.OFFSET := by
    rw [← hu]; exact State.numbered_fld _ _ (reg_ne regNo_CMD_EQ_BASE regNo_CMD_PSN)
  have h2 : u.ringSize 4 = s.ringSize 4 := by
    rw [← hu]; exact State.numbered_fld _ _ (reg_ne regNo_CMD_EQ_CFG regNo_CMD_PSN)
  have h3 : u.ring 4 = s.ring 4 := by rw [← hu]; rfl
  have h4 : u.tick = s.tick := by rw [← hu]; rfl
  have h5 : u.nextRecord 4 = s.nextRecord 4 := by unfold State.nextRecord; rw [h1, h3]
  have h6 : u.advanced 4 = s.advanced 4 := by unfold State.advanced; rw [h2, h3, h4]
  have h7 : u.reg Reg.CMD_PSN = psnAfter (s.reg Reg.CMD_PSN) := by rw [← hu]; exact State.reg_setReg_same _ _ _
  have h8 : u.cmd.drops = 0 := by rw [← hu]; rfl
  have hf := State.writeRecord_frame (s := u) (m := 4) (w0 := detailOf [(0, 0x002), (13, 0), (16, UnitCode.cmd), (24, 0)])
    (psn := s.reg Reg.CMD_PSN) (w2 := BitVec.ofNat 32 s.tickLow) (w3 := BitVec.ofNat 32 s.cmd.drops)
  have hw := u.writeRecord_words 4 (detailOf [(0, 0x002), (13, 0), (16, UnitCode.cmd), (24, 0)]) (s.reg Reg.CMD_PSN)
    (BitVec.ofNat 32 s.tickLow) (BitVec.ofNat 32 s.cmd.drops) (h5 ▸ hrec)
  rw [h5] at hw
  have hd := congrArg Cmd.drops (hf.cmdRest (by decide))
  refine ⟨hd.trans h8, (hf.reg regNo_CMD_PSN).trans h7, ?_, hw.2.1, hw.2.2.2.1⟩
  rw [← h6]
  exact State.writeRecord_ring _ _ _ _ _ _

end Sys2Proof.Machine
end

