-- ==== Sys2Proof/Laws/EffectDesc.lean ====
section
/-! SUPPORT. A descriptor given as a command of its own: its fields, and what it leaves where it is judged to take
effect. -/

set_option Elab.async false

namespace Sys2Proof.Machine

/-! ### Fields of the words of a descriptor -/

theorem detailOf_testBit (fs : List (Nat × Nat)) (j : Nat) (hj : j < 32) :
    (detailOf fs).getLsbD j = fs.any fun f => decide (f.1 ≤ j) && f.2.testBit (j - f.1) := by
  unfold detailOf
  have key : ∀ (fs : List (Nat × Nat)) (w : Word),
      (fs.foldl (fun w f => w ||| (BitVec.ofNat 32 f.2 <<< f.1)) w).getLsbD j =
        (w.getLsbD j || fs.any fun f => decide (f.1 ≤ j) && f.2.testBit (j - f.1)) := by
    intro fs
    induction fs with
    | nil => intro w; simp
    | cons f fs ih =>
      intro w
      rw [List.foldl_cons, ih, List.any_cons, BitVec.getLsbD_or, Bool.or_assoc]
      congr 2
      rw [BitVec.getLsbD_shiftLeft, BitVec.getLsbD_ofNat]
      by_cases h : f.1 ≤ j
      · simp [h, hj, show ¬ j < f.1 by omega, show j - f.1 < 32 by omega]
      · simp [h, hj, show j < f.1 by omega]
  rw [key]; simp

variable (o : Origin) (opc unit inst : Nat) (w3 w4 w5 w6 : Word)

theorem mkDesc_unit : (mkDesc o opc unit inst w3 w4 w5 w6).unit = unit % 2 ^ 5 := by
  apply Nat.eq_of_testBit_eq
  intro i
  unfold Desc.unit
  rw [Bits.testBit_of, Nat.testBit_mod_two_pow]
  by_cases h : i < 5
  · have hc : o.creq.toNat.testBit (16 + i - 9) = false := Nat.testBit_lt_two_pow (Nat.lt_of_lt_of_le
      (by cases o.creq <;> decide : o.creq.toNat < 2 ^ 1) (Nat.pow_le_pow_right (by decide) (by omega)))
    show (decide (i < 5) && (detailOf _).getLsbD (16 + i)) = _
    rw [detailOf_testBit _ _ (by omega)]
    simp only [List.any_cons, List.any_nil, Nat.testBit_mod_two_pow]
    simp [h, hc, show ¬ 16 + i < 8 by omega, show ¬ 24 ≤ 16 + i by omega]
  · simp [h]

theorem mkDesc_inst : (mkDesc o opc unit inst w3 w4 w5 w6).inst = inst % 2 ^ 8 := by
  apply Nat.eq_of_testBit_eq
  intro i
  unfold Desc.inst
  rw [Bits.testBit_of, Nat.testBit_mod_two_pow]
  by_cases h : i < 8
  · have hc : o.creq.toNat.testBit (24 + i - 9) = false := Nat.testBit_lt_two_pow (Nat.lt_of_lt_of_le
      (by cases o.creq <;> decide : o.creq.toNat < 2 ^ 1) (Nat.pow_le_pow_right (by decide) (by omega)))
    show (decide (i < 8) && (detailOf _).getLsbD (24 + i)) = _
    rw [detailOf_testBit _ _ (by omega)]
    simp only [List.any_cons, List.any_nil, Nat.testBit_mod_two_pow]
    simp [h, hc, show ¬ 24 + i < 8 by omega, show ¬ 24 + i - 16 < 5 by omega]
  · simp [h]

theorem mkDesc_creq : (mkDesc o opc unit inst w3 w4 w5 w6).creq = o.creq := by
  unfold Desc.creq bitAt
  show (detailOf _).getLsbD 9 = _
  rw [detailOf_testBit _ _ (by omega)]
  simp only [List.any_cons, List.any_nil, Nat.testBit_mod_two_pow]
  cases o.creq <;> simp

theorem mkDesc_seq : (mkDesc o opc unit inst w3 w4 w5 w6).w2.toNat % 2 ^ 16 = o.seq % 2 ^ 16 := by
  apply Nat.eq_of_testBit_eq
  intro i
  rw [Nat.testBit_mod_two_pow, Nat.testBit_mod_two_pow]
  by_cases h : i < 16
  · show (decide (i < 16) && (detailOf _).getLsbD i) = _
    rw [detailOf_testBit _ _ (by omega)]
    simp only [List.any_cons, List.any_nil, Nat.testBit_mod_two_pow]
    simp [h, show ¬ 16 ≤ i by omega]
  · simp [h]

/-! ### Checks at the fetch -/

theorem mkDesc_bad {o : Origin} {opc unit inst : Nat} {w3 w4 w5 w6 : Word} (h1 : opc < 2 ^ 8) (h2 : unit < 2 ^ 5)
    (hr : reachable unit = true) (ho : opcodeDefined opc unit = true)
    (ht : (mkDesc o opc unit inst w3 w4 w5 w6).targetBad = false) : (mkDesc o opc unit inst w3 w4 w5 w6).bad = none := by
  unfold Desc.bad
  rw [mkDesc_unit, mkDesc_opc, Nat.mod_eq_of_lt h1, Nat.mod_eq_of_lt h2, hr, ho, ht]
  rfl

/-- The opcodes whose payload no check reads at the fetch. -/
theorem mkDesc_plain {o : Origin} {opc unit inst : Nat} {w3 w4 w5 w6 : Word} (h1 : opc < 2 ^ 8) (h2 : unit < 2 ^ 5) (h3 : inst < 2 ^ 8)
    (hr : reachable unit = true) (ho : opcodeDefined opc unit = true) (hi : inst < instances opc unit)
    (hp : opc ∉ [opRegWrite, opRegRead, opParamWrite, opSetpoint, opBistRequest, opUnitReadmit, opLcsToken]) :
    (mkDesc o opc unit inst w3 w4 w5 w6).bad = none := by
  refine mkDesc_bad h1 h2 hr ho ?_
  simp only [List.mem_cons, List.not_mem_nil, or_false, not_or] at hp
  obtain ⟨p1, p2, p3, p4, p5, p6, p7⟩ := hp
  unfold Desc.targetBad
  rw [mkDesc_opc, mkDesc_inst, mkDesc_unit, Nat.mod_eq_of_lt h1, Nat.mod_eq_of_lt h2, Nat.mod_eq_of_lt h3, if_neg p1, if_neg p2,
    if_neg p3, if_neg p4, if_neg (by rintro (e | e) <;> contradiction), if_neg p7]
  simpa using hi

theorem State.loadBadAt_none (s : State) {d : Desc} (h : d.opc ≠ opTableLoad) : s.loadBadAt d = none := by
  unfold State.loadBadAt; rw [if_pos h]

/-! ### What a descriptor leaves that takes effect -/

def Foot.descMid : Nat := Foot.tookEffect ||| Foot.at ||| maskBit bit_cmdRest
def Foot.descEnd : Nat := Foot.descMid ||| Foot.endInterval

theorem State.queueCompletion_posting (s : State) (m : Staged) (c : Completion) :
    (s.queueCompletion m c).cmd.posting = s.cmd.posting ++ (if c.status = stDone && !m.desc.creq then [] else [c]) := by
  unfold State.queueCompletion
  by_cases h : (c.status = stDone && !m.desc.creq) = true
  · rw [if_pos h, if_pos h, List.append_nil]
  · rw [if_neg h, if_neg h]

/-- The completion of the descriptor of `o` that takes effect with a status. -/
def doneCompletion (o : Origin) (d : Desc) (st : Nat) (value : Option Word) : Completion :=
  ⟨o.ring, lateStatus o.late st, o.seq % 2 ^ 16, match value with
    | some v => if lateStatus o.late st ≤ stDoneLate then v else detailOf [(0, o.slot % 2 ^ 12), (16, d.w2.toNat / 2 ^ 16)]
    | none => detailOf [(0, o.slot % 2 ^ 12), (16, d.w2.toNat / 2 ^ 16)]⟩

theorem Frame.awaiting {K : Nat} {s t : State} (h : Frame K s t) (hK : K.testBit bit_posting = false := by decide) :
    t.awaiting = s.awaiting := by
  unfold State.awaiting; rw [h.posting hK]

theorem Frame.ticking {K : Nat} {s t : State} (h : Frame K s t) (hK : K.testBit bit_tbs = false := by decide) :
    t.ticking = s.ticking :=
  congrArg (fun x => (tabGet ({} : Tb) x 0).running) (h.tbs hK)

theorem State.judgedAt_frame (s : State) : Frame (Foot.at ||| maskBit bit_cmdRest) s s.judgedAt := by
  unfold State.judgedAt State.intervalBegins State.atTick
  have h0 : Frame (Foot.at ||| maskBit bit_cmdRest) s { s with cmd.fetches := s.cmd.fetches + 1 } :=
    { Frame.refl _ s with cmdRest := fun hb => absurd hb (by decide) }
  split
  · exact Frame.step State.at_frame h0
  · exact Frame.step State.at_frame h0

theorem State.discardsLate_judged (s : State) (n : Nat) : s.judgedAt.discardsLate n = s.discardsLate n :=
  s.judgedAt_frame.on (regNo_CMD_SQn_CFG n)

theorem State.endInterval_none {s : State} (h : s.NoneDue) : s.endInterval = s := by
  obtain ⟨h1, h2, h3, h4⟩ := h
  have e0 : s.vtIntervalEnds = s := by
    unfold State.vtIntervalEnds
    rw [h4, List.foldl_nil]
    have hv : { s.vt with due := [] } = s.vt := by
      generalize s.vt = v at h4 ⊢
      cases v; cases h4; rfl
    rw [hv]
  unfold State.endInterval
  rw [e0]
  extract_lets s0 auto s1 p s2
  have ha : auto = 0 := h2
  have e1 : s1 = s := by unfold s1 s0; rw [h1]; rfl
  have key : ∀ x : State, x = s → { x with prot := { x.prot with releasing := 0, autoRel := 0, loaded := 0 } } = s := by
    rintro x rfl
    have hp : { x.prot with releasing := 0, autoRel := 0, loaded := 0 } = x.prot := by
      generalize x.prot = y at h1 h2 h3 ⊢
      cases y; cases h1; cases h2; cases h3; rfl
    rw [hp]
  have e2 : s2 = s := key s1 e1
  have hb : ∀ (u : State) m, (u.bridgesOf m).any (hasBit auto) = false := fun u m => by
    rw [List.any_eq_false]
    intro x _
    rw [ha]
    unfold hasBit
    simp
  rw [e2, List.foldl_cons, List.foldl_cons, List.foldl_nil, hb, if_neg (by decide), hb, if_neg (by decide)]

/-- A descriptor that is judged to take effect: the state it leaves is the one the judgement gives, but for its completion,
its ring's last slot, a clamp that counts and, while the tick is stopped, the end of the application interval. -/
theorem State.runDesc_full {s u : State} {o : Origin} {opc unit inst : Nat} {w3 w4 w5 w6 : Word} {image clamped : Bool} {value : Option Word}
    (hb : (mkDesc o opc unit inst w3 w4 w5 w6).bad = none)
    (hl : ({ s with cmd.fetches := s.cmd.fetches + 1 } : State).loadBadAt (mkDesc o opc unit inst w3 w4 w5 w6) = none)
    (ht : Timely o s)
    (hv : s.judgedAt.judgeDesc s.judgedAt (mkDesc o opc unit inst w3 w4 w5 w6) (s.copied (mkDesc o opc unit inst w3 w4 w5 w6)) =
      .ok u image clamped value) (hp : u.cmd.posting = s.cmd.posting) (htk : u.ticking = s.ticking) :
    Frame Foot.descEnd u (s.runDesc o (mkDesc o opc unit inst w3 w4 w5 w6)) ∧
    (s.runDesc o (mkDesc o opc unit inst w3 w4 w5 w6)).cmd.posting = s.cmd.posting ++
      (if lateStatus o.late (if image then stDoneImage else stDone) = stDone && !o.creq then []
        else [doneCompletion o (mkDesc o opc unit inst w3 w4 w5 w6) (if image then stDoneImage else stDone) value]) ∧
    (s.ticking = true ∨ u.NoneDue → Frame Foot.descMid u (s.runDesc o (mkDesc o opc unit inst w3 w4 w5 w6))) := by
  generalize hd : mkDesc o opc unit inst w3 w4 w5 w6 = d at hb hl hv ⊢
  have hcreq : d.creq = o.creq := by rw [← hd]; exact mkDesc_creq _ _ _ _ _ _ _ _
  have hseq : d.w2.toNat % 2 ^ 16 = o.seq % 2 ^ 16 := by rw [← hd]; exact mkDesc_seq _ _ _ _ _ _ _ _
  obtain ⟨ht1, ht2, ht3⟩ := ht
  unfold State.runDesc
  extract_lets n m cm s1 c cs s2 s3
  have hw : s.descWaits n = false := ht2
  rw [hw, if_neg (by decide), hb, hl]
  dsimp only
  have hbar : s1.applyBarred = false := ht3
  rw [hbar, if_neg (by decide)]
  have hj : s2 = s.judgedAt := rfl
  generalize hu1 : ({ u with cmd := { u.cmd with lastApplied := u.tick } } : State) = u1
  have hf1 : Frame (maskBit bit_cmdRest) u u1 := by
    rw [← hu1]; exact { Frame.refl _ u with cmdRest := fun hb => absurd hb (by decide) }
  have h3 : s3 = u1.tookEffect n o.late ⟨m, if image then stDoneImage else stDone, value, clamped⟩ := by
    show (if o.late && s2.discardsLate n then s2.discardCaravan c else s2.applyCaravan s2 c) = _
    have hl' : (o.late && s2.discardsLate n) = false := by
      rw [hj, State.discardsLate_judged]; exact ht1
    rw [hl', if_neg (by decide), hj]
    unfold State.applyCaravan State.tryCaravan
    rw [List.foldl_cons, List.foldl_nil]
    unfold Trial.step
    rw [show s.judgedAt.judgeDesc (Trial.mk s.judgedAt [] []).s m.desc m.load = .ok u image clamped value from hv]
    dsimp only
    rw [List.isEmpty_nil, if_pos rfl, List.nil_append, List.foldl_cons, List.foldl_nil, hu1]
  rw [h3]
  have hf := State.tookEffect_frame (s := u1) (x1 := n) (x2 := o.late) (x3 := ⟨m, if image then stDoneImage else stDone, value, clamped⟩)
  have haw : (u1.tookEffect n o.late ⟨m, if image then stDoneImage else stDone, value, clamped⟩).cmd.posting =
      s.cmd.posting ++ (if lateStatus o.late (if image then stDoneImage else stDone) = stDone && !o.creq then []
        else [doneCompletion o d (if image then stDoneImage else stDone) value]) := by
    unfold State.tookEffect
    extract_lets a1 r a2
    rw [State.queueCompletion_posting]
    have ha : a2.cmd.posting = s.cmd.posting := by
      refine Eq.trans ?_ hp
      rw [← hf1.posting (by decide)]
      show a1.cmd.posting = _
      unfold a1
      cases clamped <;> rfl
    have hcm : Judgement.completion ⟨m, if image then stDoneImage else stDone, value, clamped⟩ n
        (lateStatus o.late (if image then stDoneImage else stDone)) = doneCompletion o d (if image then stDoneImage else stDone) value := by
      unfold Judgement.completion doneCompletion completionOf
      dsimp only
      rw [hseq]
      generalize (if image = true then stDoneImage else stDone) = st0
      cases value with
      | none => rfl
      | some v => dsimp only; split <;> rfl
    rw [ha, hcm]
    show s.cmd.posting ++ (if lateStatus _ _ = stDone && !d.creq then [] else _) = _
    rw [hcreq]
  have htick : (u1.tookEffect n o.late ⟨m, if image then stDoneImage else stDone, value, clamped⟩).ticking = s.ticking := by
    rw [hf.ticking, hf1.ticking, htk]
  replace hf : Frame Foot.descMid u _ := Frame.step hf (Frame.widen hf1)
  generalize u1.tookEffect n o.late ⟨m, if image then stDoneImage else stDone, value, clamped⟩ = v at hf haw htick ⊢
  by_cases hs : v.ticking = true
  · rw [if_pos hs]
    exact ⟨Frame.widen hf, haw, fun _ => hf⟩
  · rw [if_neg hs]
    replace hf : Frame Foot.descMid u (v.at (v.now + 20 * esPerFc)) := Frame.step State.at_frame hf
    have haw' : (v.at (v.now + 20 * esPerFc)).cmd.posting = v.cmd.posting := rfl
    rw [← haw'] at haw
    generalize v.at (v.now + 20 * esPerFc) = x at hf haw ⊢
    have he := State.endInterval_frame (s := x)
    refine ⟨Frame.step he (Frame.widen hf), (he.posting (by decide)).trans haw, fun e => ?_⟩
    rcases e with e | e
    · exact absurd (htick.trans e) hs
    · have hpr := hf.prot (by decide)
      have hvt := hf.vt (by decide)
      rw [State.endInterval_none (by unfold State.NoneDue; rw [hpr, hvt]; exact e)]
      exact hf

theorem State.runDesc_ok {s u : State} {o : Origin} {opc unit inst : Nat} {w3 w4 w5 w6 : Word} {image clamped : Bool} {value : Option Word}
    (hb : (mkDesc o opc unit inst w3 w4 w5 w6).bad = none)
    (hl : ({ s with cmd.fetches := s.cmd.fetches + 1 } : State).loadBadAt (mkDesc o opc unit inst w3 w4 w5 w6) = none)
    (ht : Timely o s)
    (hv : s.judgedAt.judgeDesc s.judgedAt (mkDesc o opc unit inst w3 w4 w5 w6) (s.copied (mkDesc o opc unit inst w3 w4 w5 w6)) =
      .ok u image clamped value) (hp : u.cmd.posting = s.cmd.posting) (htk : u.ticking = s.ticking) :
    Frame Foot.descEnd u (s.runDesc o (mkDesc o opc unit inst w3 w4 w5 w6)) ∧
    Completes o (if image then stDoneImage else stDone) s (s.runDesc o (mkDesc o opc unit inst w3 w4 w5 w6)) ∧
    (s.ticking = true ∨ u.NoneDue → Frame Foot.descMid u (s.runDesc o (mkDesc o opc unit inst w3 w4 w5 w6))) := by
  obtain ⟨h1, h2, h3⟩ := State.runDesc_full hb hl ht hv hp htk
  refine ⟨h1, ?_, h3⟩
  unfold Completes State.awaiting
  rw [h2, List.map_append]
  generalize (if image = true then stDoneImage else stDone) = st0
  split <;> rfl

theorem Frame.posting_ticking {K : Nat} {s t : State} (h : Frame K s t) (h1 : K.testBit bit_posting = false := by decide)
    (h2 : K.testBit bit_tbs = false := by decide) : t.cmd.posting = s.cmd.posting ∧ t.ticking = s.ticking :=
  ⟨h.posting h1, h.ticking h2⟩

/-- Opcode, unit and instance pass the checks of the fetch, and no check reads the payload. -/
abbrev plainDesc (opc unit inst : Nat) : Bool :=
  decide (opc < 2 ^ 8) && decide (unit < 2 ^ 5) && decide (inst < 2 ^ 8) && reachable unit && opcodeDefined opc unit &&
  decide (inst < instances opc unit) && decide (opc ∉ [opTableLoad, opRegWrite, opRegRead, opParamWrite, opSetpoint, opBistRequest,
    opUnitReadmit, opLcsToken])

/-- A descriptor of an opcode whose payload no check reads at the fetch. -/
theorem State.runDesc_plain {s u : State} {o : Origin} {opc unit inst : Nat} {w3 w4 w5 w6 : Word} {image clamped : Bool} {value : Option Word}
    (hk : plainDesc opc unit inst = true)
    (ht : Timely o s)
    (hv : s.judgedAt.judgeDesc s.judgedAt (mkDesc o opc unit inst w3 w4 w5 w6) (s.copied (mkDesc o opc unit inst w3 w4 w5 w6)) =
      .ok u image clamped value) (hp : u.cmd.posting = s.cmd.posting ∧ u.ticking = s.ticking) :
    Frame Foot.descEnd u (s.runDesc o (mkDesc o opc unit inst w3 w4 w5 w6)) ∧
    Completes o (if image then stDoneImage else stDone) s (s.runDesc o (mkDesc o opc unit inst w3 w4 w5 w6)) ∧
    (s.ticking = true ∨ u.NoneDue → Frame Foot.descMid u (s.runDesc o (mkDesc o opc unit inst w3 w4 w5 w6))) := by
  simp only [Bool.and_eq_true, decide_eq_true_eq, List.mem_cons, not_or] at hk
  obtain ⟨⟨⟨⟨⟨⟨h1, h2⟩, h3⟩, h4⟩, h5⟩, h6⟩, h7, h8⟩ := hk
  refine State.runDesc_ok (mkDesc_plain h1 h2 h3 h4 h5 h6 ?_) (State.loadBadAt_none _ ?_) ht hv hp.1 hp.2
  · simp only [List.mem_cons, not_or]; exact h8
  · rw [mkDesc_opc, Nat.mod_eq_of_lt h1]; exact h7

end Sys2Proof.Machine
end

