-- ==== Sys2Proof/Laws/EffectDescEng.lean ====
section
/-! SUPPORT. Descriptors of every block and of the control engine. -/

set_option Elab.async false

namespace Sys2Proof.Machine

theorem mkDesc_opc' {o : Origin} {opc unit inst : Nat} {w3 w4 w5 w6 : Word} (h : opc < 2 ^ 8) :
    (mkDesc o opc unit inst w3 w4 w5 w6).opc = opc := by rw [mkDesc_opc, Nat.mod_eq_of_lt h]

theorem State.judgedAt_keeps (s : State) : s.judgedAt.cmd.posting = s.cmd.posting ∧ s.judgedAt.ticking = s.ticking :=
  s.judgedAt_frame.posting_ticking

theorem bitAt_setBit (w : Word) (i : Nat) (b : Bool) (h : i < 32) : bitAt (setBit w i b) i = b := by
  unfold bitAt setBit
  rw [Bits.getLsbD_put _ _ _ _ h]
  cases b <;> simp

theorem u_releases {K : Nat} {s u : State} (h : Frame K s.judgedAt u)
    (h0 : s.NoRelease) (hK : K.testBit bit_prot = false := by decide) (hV : K.testBit bit_vt = false := by decide) :
    s.ticking = true ∨ u.NoneDue := by
  unfold State.NoneDue
  rw [h.prot hK, s.judgedAt_frame.prot (by decide), h.vt hV, s.judgedAt_frame.vt (by decide)]
  exact h0

theorem nop_does : ∀ (o : Origin) (unit : Fin 22) (s : State), unit ≠ 2 → unit ≠ 19 → unit ≠ 20 → Timely o s →
    Does (.nop o unit) s fun t => Completes o stDone s t ∧ t.image = s.image ∧ (s.NoRelease → t.board = s.board) := by
  intro o unit s h1 h2 h3 ht
  refine ⟨_, exec_nop.trans rfl, ?_⟩
  have hk : ∀ u : Fin 22, u ≠ 2 → u ≠ 19 → u ≠ 20 → plainDesc opNop u 0 = true := by decide
  obtain ⟨hf, hc, hn⟩ := State.runDesc_plain (s := s) (u := s.judgedAt) (o := o) (w3 := 0) (w4 := 0) (w5 := 0) (w6 := 0)
    (image := false) (clamped := false) (value := none)
    (hk unit h1 h2 h3) ht (by unfold State.judgeDesc; rw [mkDesc_opc' (by decide)]; rfl) s.judgedAt_keeps
  exact ⟨hc, (hf.image (by decide)).trans (s.judgedAt_frame.image (by decide)), fun h =>
    ((hn (u_releases (Frame.refl 0 _) h)).board (by decide)).trans (s.judgedAt_frame.board (by decide))⟩

theorem stallStop_does : ∀ (o : Origin) (stall : Fin 128) (s : State), Timely o s →
    Does (.stallStop o stall) s fun t => Completes o stDone s t ∧ t.stallRunning stall = false := by
  intro o n s ht
  refine ⟨_, exec_stallStop.trans rfl, ?_⟩
  have hk : ∀ n : Fin 128, plainDesc opStallStop UnitCode.eng n = true := by decide
  have hv : s.judgedAt.judgeDesc s.judgedAt (mkDesc o opStallStop UnitCode.eng n.val 0 0 0 0)
      (s.copied (mkDesc o opStallStop UnitCode.eng n.val 0 0 0 0)) = .ok (s.judgedAt.setStallRunning n false).refreshToll false false none := by
    unfold State.judgeDesc State.judgeEngine
    rw [mkDesc_opc' (by decide), mkDesc_inst, Nat.mod_eq_of_lt (by omega)]
    rfl
  have hr := State.refreshToll_frame (s := s.judgedAt.setStallRunning n false)
  obtain ⟨hf, hc, -⟩ := State.runDesc_plain (s := s) (hk n) ht hv ⟨(hr.posting (by decide)).trans s.judgedAt_keeps.1,
    (hr.ticking).trans s.judgedAt_keeps.2⟩
  refine ⟨hc, ?_⟩
  unfold State.stallRunning
  rw [hf.reg (regNo_ENG_RUNMAPj _), hr.reg (regNo_ENG_RUNMAPj _)]
  unfold State.setStallRunning
  rw [State.reg_setReg_same]
  exact bitAt_setBit _ _ _ (Nat.mod_lt _ (by decide))

/-! ### PARAM_WRITE -/

theorem State.held_setHeld (s : State) (p q stall a b : Nat) (w : Word) :
    (s.setHeld p stall a w).held q stall b = if engKey q stall b = engKey p stall a then w else s.held q stall b :=
  Store.get_set _ _ _ _ _

theorem State.held_setAllPasses (s : State) {p stall a b : Nat} (w : Word) (hp : p < 3) (ha : a < 0x40) (hb : b < 0x40) :
    (s.setAllPasses stall a w).held p stall b = if b = a then hold p (s.wordType stall a) w else s.held p stall b := by
  have hk : ∀ q, (engKey p stall b = engKey q stall a) = (p * 0x8000 + b = q * 0x8000 + a) := fun q => by
    unfold engKey
    rw [if_pos (by omega), if_pos (by omega)]
    exact propext ⟨fun h => by omega, fun h => by omega⟩
  unfold State.setAllPasses
  extract_lets t
  rw [List.foldl_cons, List.foldl_cons, List.foldl_cons, List.foldl_nil, State.held_setHeld, State.held_setHeld, State.held_setHeld]
  simp only [hk]
  by_cases h : b = a
  · subst h
    rw [if_pos rfl]
    obtain rfl | rfl | rfl : p = 0 ∨ p = 1 ∨ p = 2 := by omega
    · rw [if_neg (by omega), if_neg (by omega), if_pos rfl]
    · rw [if_neg (by omega), if_pos rfl]
    · rw [if_pos rfl]
  · rw [if_neg h, if_neg (by omega), if_neg (by omega), if_neg (by omega)]

theorem State.wordType_congr {s t : State} (h : t.mem = s.mem) (stall a : Nat) : t.wordType stall a = s.wordType stall a := by
  unfold State.wordType State.typeCode State.stallDesc State.word State.byte
  rw [h]

theorem State.setAllPasses_mem (s : State) (stall a : Nat) (w : Word) : (s.setAllPasses stall a w).mem = s.mem := rfl

theorem State.wordType_setAllPasses (s : State) (stall a stall' b : Nat) (w : Word) :
    (s.setAllPasses stall a w).wordType stall' b = s.wordType stall' b := State.wordType_congr (s.setAllPasses_mem stall a w) _ _

theorem State.held_foldPasses (stall : Nat) {p : Nat} (hp : p < 3) (l : List (Nat × Word × Bool)) (s : State)
    (hl : ∀ e ∈ l, e.1 < 0x40) (hn : (l.map (·.1)).Nodup) :
    (∀ b, b < 0x40 → b ∉ l.map (·.1) → (l.foldl (fun s e => s.setAllPasses stall e.1 e.2.1) s).held p stall b = s.held p stall b) ∧
    ∀ e ∈ l, (l.foldl (fun s e => s.setAllPasses stall e.1 e.2.1) s).held p stall e.1 = hold p (s.wordType stall e.1) e.2.1 := by
  induction l generalizing s with
  | nil => exact ⟨fun _ _ _ => rfl, fun e he => nomatch he⟩
  | cons x l ih =>
    rw [List.map_cons, List.nodup_cons] at hn
    have hx := hl x List.mem_cons_self
    obtain ⟨h1, h2⟩ := ih (s.setAllPasses stall x.1 x.2.1) (fun e he => hl e (List.mem_cons_of_mem _ he)) hn.2
    refine ⟨fun b hb hm => ?_, fun e he => ?_⟩
    · rw [List.map_cons, List.mem_cons, not_or] at hm
      rw [List.foldl_cons, h1 b hb hm.2, State.held_setAllPasses _ _ hp hx hb, if_neg hm.1]
    · rw [List.foldl_cons]
      rcases List.mem_cons.1 he with rfl | he
      · rw [h1 _ hx hn.1, State.held_setAllPasses _ _ hp hx hx, if_pos rfl]
      · rw [h2 e he, State.wordType_setAllPasses]

theorem span_nodup (a n : Nat) : (span a n).Nodup := by
  unfold span
  exact List.pairwise_map.2 (List.nodup_range.imp fun h e => h (by omega))

theorem State.paramWrite_result (s : State) (stall : Nat) (w3 : Word) (ws : List Word) (hw : ws.length = 3) (hb : paramBad w3 = false) :
    ∃ u c, s.paramWrite stall w3 ws = .ok u false c none ∧ ∀ i w p, i < paramCount w3 → ws[i]? = some w → p < 3 →
      u.held p stall (paramAddr w3 + i) =
        hold p (s.wordType stall (paramAddr w3 + i)) (enterWord (s.wordType stall (paramAddr w3 + i)) w).1 := by
  unfold paramBad at hb
  simp only [decide_eq_false_iff_not, Nat.not_lt] at hb
  have hc : paramCount w3 ≤ 3 := by
    have h := Bits.of_lt ⟨16, 2⟩ w3
    unfold paramCount
    have e : (2 : Nat) ^ (⟨16, 2⟩ : Bits).width = 4 := by decide
    omega
  unfold State.paramWrite
  generalize paramAddr w3 = a at hb ⊢
  generalize paramCount w3 = n at hb hc ⊢
  extract_lets items entered
  have hlen : (span a n).length ≤ ws.length := by unfold span; rw [List.length_map, List.length_range]; omega
  have hkeys : entered.map (·.1) = span a n := by
    show (items.map _).map _ = _
    rw [List.map_map]
    exact List.map_fst_zip hlen
  refine ⟨_, _, rfl, ?_⟩
  · intro i w p hi hwi hp
    have hl : ∀ e ∈ entered, e.1 < 0x40 := fun e he => by
      have : e.1 ∈ span a n := hkeys ▸ List.mem_map_of_mem he
      unfold span at this
      obtain ⟨j, hj, e'⟩ := List.mem_map.1 this
      have := List.mem_range.1 hj
      have e'' : a + j = e.1 := e'
      omega
    refine (State.held_foldPasses stall hp entered s hl (hkeys ▸ span_nodup a n)).2 (a + i, enterWord (s.wordType stall (a + i)) w) ?_
    refine List.mem_map.2 ⟨(a + i, w), ?_, rfl⟩
    have hs : (span a n)[i]? = some (a + i) := by
      unfold span
      rw [List.getElem?_map, List.getElem?_range hi]; rfl
    refine List.mem_of_getElem? (i := i) ?_
    rw [List.getElem?_zip_eq_some]
    exact ⟨hs, hwi⟩

theorem paramWrite_does : ∀ (o : Origin) (stall : Fin 128) (w3 w4 w5 w6 : Word) (s : State), Timely o s → paramBad w3 = false →
    Does (.paramWrite o stall w3 w4 w5 w6) s fun t => Completes o stDone s t ∧
      ((s.NoRelease) → ∀ i w p, i < paramCount w3 → [w4, w5, w6][i]? = some w → p < 3 →
        t.held p stall (paramAddr w3 + i) =
          hold p (s.wordType stall (paramAddr w3 + i)) (enterWord (s.wordType stall (paramAddr w3 + i)) w).1) := by
  intro o n w3 w4 w5 w6 s ht hb
  refine ⟨_, exec_paramWrite.trans rfl, ?_⟩
  obtain ⟨u, c, hu, hres⟩ := s.judgedAt.paramWrite_result n w3 [w4, w5, w6] rfl hb
  have hfu : Frame Foot.paramWrite s.judgedAt u := by
    have := State.paramWrite_frame (s := s.judgedAt) (x1 := n.val) (x2 := w3) (x3 := [w4, w5, w6])
    rw [hu] at this; exact this
  have hv : s.judgedAt.judgeDesc s.judgedAt (mkDesc o opParamWrite UnitCode.eng n.val w3 w4 w5 w6)
      (s.copied (mkDesc o opParamWrite UnitCode.eng n.val w3 w4 w5 w6)) = .ok u false c none := by
    unfold State.judgeDesc State.judgeEngine
    rw [mkDesc_opc' (by decide), mkDesc_inst, Nat.mod_eq_of_lt (by omega)]
    exact hu
  have hbad : (mkDesc o opParamWrite UnitCode.eng n.val w3 w4 w5 w6).bad = none := by
    refine mkDesc_bad (by decide) (by decide) rfl rfl ?_
    unfold Desc.targetBad
    rw [mkDesc_opc' (by decide), mkDesc_inst, mkDesc_unit, Nat.mod_eq_of_lt (by decide : UnitCode.eng < 2 ^ 5),
      Nat.mod_eq_of_lt (by omega : n.val < 2 ^ 8)]
    rw [if_neg (by decide), if_neg (by decide), if_pos rfl]
    show (decide (128 ≤ n.val) || paramBad w3) = false
    rw [hb, decide_eq_false (by omega)]; rfl
  obtain ⟨-, hc, hf⟩ := State.runDesc_ok hbad (State.loadBadAt_none _ (by rw [mkDesc_opc' (by decide)]; decide)) ht hv
    ((hfu.posting (by decide)).trans s.judgedAt_keeps.1) (hfu.ticking.trans s.judgedAt_keeps.2)
  refine ⟨hc, fun htk i w p hi hw hp => ?_⟩
  have hw' : ∀ a, s.judgedAt.wordType n a = s.wordType n a := fun a => by
    have hm : s.judgedAt.mem = s.mem := by unfold State.judgedAt State.intervalBegins State.atTick State.at; split <;> rfl
    exact State.wordType_congr hm _ _
  have := hres i w p hi hw hp
  rw [hw'] at this
  unfold State.held at this ⊢
  rw [(hf (u_releases hfu htk)).eng (by decide)]
  exact this

/-! ### STALL_START -/

theorem stallStart_does : ∀ (o : Origin) (stall : Fin 128) (w3 : Word) (s : State), Timely o s → s.stallRunning stall = false →
    s.judgedAt.stallAdmitted stall = true → Does (.stallStart o stall w3) s fun t => Completes o stDone s t ∧
      t.stallRunning stall = true ∧
      ((s.NoRelease) → s.judgedAt.load stall = .inr (t.loadedOf stall)) := by
  intro o n w3 s ht hrun hadm
  refine ⟨_, exec_stallStart.trans rfl, ?_⟩
  have hk : ∀ n : Fin 128, plainDesc opStallStart UnitCode.eng n = true := by decide
  have hrun' : s.judgedAt.stallRunning n = false := by
    unfold State.stallRunning
    rw [s.judgedAt_frame.reg (regNo_ENG_RUNMAPj _)]; exact hrun
  unfold State.stallAdmitted at hadm
  cases hl : s.judgedAt.load n with
  | inl x => rw [hl] at hadm; cases hadm
  | inr l =>
    rw [hl] at hadm
    have hadm' : ((s.judgedAt.setLoaded n l).setStallRunning n true).engineRefusal = none := Option.isNone_iff_eq_none.1 hadm
    have hv : ∃ u0 u, (u0 = (s.judgedAt.setLoaded n l).setStallRunning n true ∨ ∃ es,
        u0 = ((s.judgedAt.setLoaded n l).setStallRunning n true).addRestart es) ∧ u = u0.refreshToll ∧
        s.judgedAt.stallStart n w3 = .ok u false false none := by
      unfold State.stallStart
      rw [hrun', if_neg (by decide), hl]
      dsimp only
      rw [hadm']
      dsimp only
      split
      · exact ⟨_, _, .inr ⟨_, rfl⟩, rfl, rfl⟩
      · exact ⟨_, _, .inl rfl, rfl, rfl⟩
    obtain ⟨u0, u, hu0, hu, hst⟩ := hv
    have hfu : Frame Foot.stallStart s.judgedAt u := by
      have := State.stallStart_frame (s := s.judgedAt) (x1 := n.val) (x2 := w3)
      rw [hst] at this; exact this
    have hv : s.judgedAt.judgeDesc s.judgedAt (mkDesc o opStallStart UnitCode.eng n.val w3 0 0 0)
        (s.copied (mkDesc o opStallStart UnitCode.eng n.val w3 0 0 0)) = .ok u false false none := by
      unfold State.judgeDesc State.judgeEngine
      rw [mkDesc_opc' (by decide), mkDesc_inst, Nat.mod_eq_of_lt (by omega)]
      exact hst
    have hr := State.refreshToll_frame (s := u0)
    have h0 : u0.reg (Reg.ENG_RUNMAPj (n / 32)) = setBit (s.judgedAt.reg (Reg.ENG_RUNMAPj (n / 32))) (n % 32) true ∧ u0.loadedOf n = l := by
      rcases hu0 with e | ⟨es, e⟩
      · subst e
        refine ⟨State.reg_setReg_same _ _ _, ?_⟩
        exact (tabGet_tabSet ({} : Loaded) _ n.val n.val l).trans (if_pos rfl)
      · subst e
        refine ⟨State.reg_setReg_same _ _ _, ?_⟩
        exact (tabGet_tabSet ({} : Loaded) _ n.val n.val l).trans (if_pos rfl)
    obtain ⟨hf, hc, hfr⟩ := State.runDesc_plain (s := s) (hk n) ht hv ⟨(hfu.posting (by decide)).trans s.judgedAt_keeps.1,
      (hfu.ticking).trans s.judgedAt_keeps.2⟩
    refine ⟨hc, ?_, fun htk => ?_⟩
    · unfold State.stallRunning
      rw [hf.reg (regNo_ENG_RUNMAPj _), hu, hr.reg (regNo_ENG_RUNMAPj _), h0.1]
      exact bitAt_setBit _ _ _ (Nat.mod_lt _ (by decide))
    · have e : ∀ t : State, Frame Foot.descMid u t → t.loadedOf n = l := fun t h => by
        unfold State.loadedOf
        rw [h.eng (by decide), hu, hr.eng (by decide)]
        exact h0.2
      rw [e _ (hfr (u_releases hfu htk))]

/-! ### SETPOINT and SCHEDULE_SELECT -/

theorem setpoint_does : ∀ (o : Origin) (stall : Fin 128) (w3 w4 w5 w6 : Word) (s : State), Timely o s → setpointBad w3 = false →
    Does (.setpoint o stall w3 w4 w5 w6) s fun t => Completes o stDone s t ∧ (s.NoRelease → t.sig w3.toNat = Num.convert w4 ∧
      t.sig (w3.toNat + 1) = (if bitAt w5 0 then rateWord w6 else Num.vmaxWord) ∧ t.sig (w3.toNat + 3) = s.sig (w3.toNat + 3) + 1) := by
  intro o n w3 w4 w5 w6 s ht hb
  refine ⟨_, exec_setpoint.trans rfl, ?_⟩
  have hbad : (mkDesc o opSetpoint UnitCode.eng n.val w3 w4 w5 w6).bad = none := by
    refine mkDesc_bad (by decide) (by decide) rfl rfl ?_
    unfold Desc.targetBad
    rw [mkDesc_opc' (by decide), mkDesc_inst, mkDesc_unit, Nat.mod_eq_of_lt (by decide : UnitCode.eng < 2 ^ 5),
      Nat.mod_eq_of_lt (by omega : n.val < 2 ^ 8)]
    rw [if_neg (by decide), if_neg (by decide), if_neg (by decide), if_pos rfl]
    show (decide (128 ≤ n.val) || setpointBad w3) = false
    rw [hb, decide_eq_false (by omega)]; rfl
  have hst : ∃ u c, s.judgedAt.setpoint w3 w4 w5 w6 = .ok u false c none ∧ u.sig w3.toNat = Num.convert w4 ∧
      u.sig (w3.toNat + 1) = (if bitAt w5 0 then rateWord w6 else Num.vmaxWord) ∧ u.sig (w3.toNat + 3) = s.judgedAt.sig (w3.toNat + 3) + 1 := by
    have hsig : ∀ (u : State) es a, (u.addRestart es).sig a = u.sig a := fun _ _ _ => rfl
    unfold State.setpoint
    extract_lets a ramp s1 s2 s3
    refine ⟨_, _, rfl, ?_⟩
    have h3 : ∀ b, s3.sig b = s2.sig b := fun b => by
      unfold s3; split <;> rfl
    have ha : a = w3.toNat := rfl
    rw [h3, h3, h3, ← ha]
    refine ⟨?_, ?_, ?_⟩
    · rw [State.sig_publish_other _ _ (by omega), State.sig_publish_other _ _ (by omega), State.sig_publish_same]
    · rw [State.sig_publish_other _ _ (by omega), State.sig_publish_same]
    · rw [State.sig_publish_same, State.sig_publish_other _ _ (by omega), State.sig_publish_other _ _ (by omega)]
  obtain ⟨u, c, hst, h1, h2, h3⟩ := hst
  have hfu : Frame Foot.setpoint s.judgedAt u := by
    have := State.setpoint_frame (s := s.judgedAt) (x1 := w3) (x2 := w4) (x3 := w5) (x4 := w6)
    rw [hst] at this; exact this
  have hv : s.judgedAt.judgeDesc s.judgedAt (mkDesc o opSetpoint UnitCode.eng n.val w3 w4 w5 w6)
      (s.copied (mkDesc o opSetpoint UnitCode.eng n.val w3 w4 w5 w6)) = .ok u false c none := by
    unfold State.judgeDesc State.judgeEngine
    rw [mkDesc_opc' (by decide)]
    exact hst
  obtain ⟨-, hc, hn⟩ := State.runDesc_ok hbad (State.loadBadAt_none _ (by rw [mkDesc_opc' (by decide)]; decide)) ht hv
    ((hfu.posting (by decide)).trans s.judgedAt_keeps.1) (hfu.ticking.trans s.judgedAt_keeps.2)
  have hbd : ∀ t : State, t.board = u.board → ∀ a, t.sig a = u.sig a := fun t h a => by unfold State.sig; rw [h]
  have hj : ∀ a, s.judgedAt.sig a = s.sig a := fun a => by
    unfold State.sig; rw [s.judgedAt_frame.board (by decide)]
  refine ⟨hc, fun h => ?_⟩
  have hh := hbd _ ((hn (u_releases hfu h)).board (by decide))
  exact ⟨(hh _).trans h1, (hh _).trans h2, (hh _).trans (h3.trans (by rw [hj]))⟩

theorem scheduleSelect_does : ∀ (o : Origin) (w3 : Word) (s : State), Timely o s → s.judgedAt.schedOk (min 3 w3.toNat) = true →
    s.judgedAt.badEntry 0 [] (s.judgedAt.schedule (min 3 w3.toNat)) = none →
    (s.judgedAt.setFld Reg.ENG_STAT Fld.ENG_STAT.SCHED (min 3 w3.toNat)).admitted = true →
    Does (.scheduleSelect o w3) s fun t => Completes o stDone s t ∧ t.activeSched = min 3 w3.toNat := by
  intro o w3 s ht h1 h2 h3
  refine ⟨_, exec_scheduleSelect.trans rfl, ?_⟩
  have hst : s.judgedAt.scheduleSelect w3 = .ok (s.judgedAt.setFld Reg.ENG_STAT Fld.ENG_STAT.SCHED (min 3 w3.toNat)).refreshToll false
      (decide (3 < w3.toNat)) none := by
    unfold State.scheduleSelect
    extract_lets k reject
    rw [show k = min 3 w3.toNat from rfl, h1, if_neg (by decide), h2]
    dsimp only
    rw [h3, if_pos rfl]
    rfl
  have hfu := State.scheduleSelect_frame (s := s.judgedAt) (x1 := w3)
  rw [hst] at hfu
  have hfu' : Frame Foot.scheduleSelect s.judgedAt (s.judgedAt.setFld Reg.ENG_STAT Fld.ENG_STAT.SCHED (min 3 w3.toNat)).refreshToll := hfu
  have hv : s.judgedAt.judgeDesc s.judgedAt (mkDesc o opScheduleSelect UnitCode.eng 0 w3 0 0 0)
      (s.copied (mkDesc o opScheduleSelect UnitCode.eng 0 w3 0 0 0)) = s.judgedAt.scheduleSelect w3 := by
    unfold State.judgeDesc State.judgeEngine
    rw [mkDesc_opc' (by decide)]
    rfl
  obtain ⟨hf, hc, -⟩ := State.runDesc_plain (s := s) (by decide) ht (hv.trans hst) ⟨(hfu'.posting (by decide)).trans s.judgedAt_keeps.1,
    (hfu'.ticking).trans s.judgedAt_keeps.2⟩
  refine ⟨hc, ?_⟩
  unfold State.activeSched
  rw [hf.fld regNo_ENG_STAT, (State.refreshToll_frame).fld regNo_ENG_STAT, State.fld_setFld _ _ Fld.ENG_STAT.SCHED]
  exact Nat.mod_eq_of_lt (Nat.lt_of_le_of_lt (Nat.min_le_left _ _) (by decide))

/-! ### REG_WRITE and REG_READ -/

theorem Bits.put_whole (x w : Word) : (⟨0, 32⟩ : Bits).put ((⟨0, 32⟩ : Bits).of x) w = x := by
  apply BitVec.eq_of_getLsbD_eq
  intro i hi
  rw [Bits.getLsbD_put _ _ _ _ hi]
  have h : (decide (0 ≤ i) && decide (i < 0 + 32)) = true := by simp [hi]
  simp only
  rw [Nat.sub_zero, Bits.testBit_of, Nat.zero_add]
  simp [hi]

theorem regRead_does : ∀ (o : Origin) (unit : Fin 22) (inst : Fin 5) (offset : Word) (a : Nat) (s : State), Timely o s →
    unit ≠ 2 → unit ≠ 19 → unit ≠ 20 → inst.val < instances opRegRead unit → descReg unit inst (offset.toNat % 2 ^ 16) = some a →
    Does (.regRead o unit inst offset) s fun t => Completes o stDone s t ∧
      ∃ c, t.cmd.posting = s.cmd.posting ++ (if lateStatus o.late stDone = stDone && !o.creq then [] else [c]) ∧
        c.word3 = s.judgedAt.view a := by
  intro o unit inst offset a s ht h1 h2 h3 hi ha
  refine ⟨_, exec_regRead.trans rfl, ?_⟩
  have hu : ∀ u : Fin 22, u ≠ 2 → u ≠ 19 → u ≠ 20 → reachable u = true ∧ opcodeDefined opRegRead u = true := by decide
  have hbad : (mkDesc o opRegRead unit.val inst.val offset 0 0 0).bad = none := by
    refine mkDesc_bad (by decide) (by omega) (hu unit h1 h2 h3).1 (hu unit h1 h2 h3).2 ?_
    unfold Desc.targetBad
    rw [mkDesc_opc' (by decide), mkDesc_inst, mkDesc_unit, Nat.mod_eq_of_lt (by omega : unit.val < 2 ^ 5),
      Nat.mod_eq_of_lt (by omega : inst.val < 2 ^ 8), if_neg (by decide), if_pos rfl]
    show (decide (instances opRegRead unit ≤ inst.val) || (descReg unit inst (offset.toNat % 2 ^ 16)).isNone) = false
    rw [ha, decide_eq_false (by omega)]; rfl
  have hv : s.judgedAt.judgeDesc s.judgedAt (mkDesc o opRegRead unit.val inst.val offset 0 0 0)
      (s.copied (mkDesc o opRegRead unit.val inst.val offset 0 0 0)) = .ok (s.judgedAt.holdUpper a) false false (some (s.judgedAt.view a)) := by
    unfold State.judgeDesc
    rw [mkDesc_opc' (by decide), if_neg (by decide), if_neg (by decide), if_pos rfl]
    unfold State.regRead
    rw [mkDesc_inst, mkDesc_unit, Nat.mod_eq_of_lt (by omega : unit.val < 2 ^ 5), Nat.mod_eq_of_lt (by omega : inst.val < 2 ^ 8)]
    rw [show descReg unit.val inst.val (mkDesc o opRegRead unit.val inst.val offset 0 0 0).offset = some a from ha]
    rfl
  have hfu := State.holdUpper_frame (s := s.judgedAt) (x1 := a)
  have hp := (hfu.posting (by decide)).trans s.judgedAt_keeps.1
  have htk := (hfu.ticking).trans s.judgedAt_keeps.2
  obtain ⟨-, hc, -⟩ := State.runDesc_ok hbad (State.loadBadAt_none _ (by rw [mkDesc_opc' (by decide)]; decide)) ht hv hp htk
  obtain ⟨-, hq, -⟩ := State.runDesc_full hbad (State.loadBadAt_none _ (by rw [mkDesc_opc' (by decide)]; decide)) ht hv hp htk
  refine ⟨hc, doneCompletion o (mkDesc o opRegRead unit.val inst.val offset 0 0 0) stDone (some (s.judgedAt.view a)), ?_, ?_⟩
  · rw [hq]
    rfl
  · unfold doneCompletion
    dsimp only
    rw [if_pos]
    unfold lateStatus
    cases o.late <;> decide

theorem regWrite_does : ∀ (o : Origin) (offset value mask : Word) (a : Nat) (s : State), Timely o s →
    (offset.toNat % 2 ^ 16 = 0 ∧ a = Reg.GPIO_OUT ∨ offset.toNat % 2 ^ 16 = 4 ∧ a = Reg.GPIO_DIR) →
    Does (.regWrite o 21 0 offset value mask) s fun t => Completes o stDone s t ∧ t.reg a = blend mask value (s.reg a) := by
  intro o offset value mask a s ht ha
  refine ⟨_, exec_regWrite.trans rfl, ?_⟩
  have hd : descReg 21 0 (offset.toNat % 2 ^ 16) = some a := by
    rcases ha with ⟨e, rfl⟩ | ⟨e, rfl⟩ <;> rw [e] <;> decide +kernel
  have hm : ∀ m, maskBad a m = false := by
    intro m
    rcases ha with ⟨-, rfl⟩ | ⟨-, rfl⟩
    · unfold maskBad
      rw [show regAt Reg.GPIO_OUT = some (regDesc 21 0, 0) from (by decide +kernel : IsReg Reg.GPIO_OUT 21 0 0).at]
      rfl
    · unfold maskBad
      rw [show regAt Reg.GPIO_DIR = some (regDesc 21 1, 0) from (by decide +kernel : IsReg Reg.GPIO_DIR 21 1 0).at]
      rfl
  have hno : regNo a = 400 ∨ regNo a = 401 := by
    rcases ha with ⟨-, rfl⟩ | ⟨-, rfl⟩
    · exact .inl regNo_GPIO_OUT
    · exact .inr regNo_GPIO_DIR
  have hun : unitOf a = 21 := by rcases ha with ⟨-, rfl⟩ | ⟨-, rfl⟩ <;> decide
  have hbad : (mkDesc o opRegWrite 21 0 offset value mask 0).bad = none := by
    refine mkDesc_bad (by decide) (by decide) rfl rfl ?_
    unfold Desc.targetBad
    rw [mkDesc_opc' (by decide), mkDesc_inst, mkDesc_unit, if_pos rfl]
    rw [show descReg (21 % 2 ^ 5) (0 % 2 ^ 8) (mkDesc o opRegWrite 21 0 offset value mask 0).offset = some a from hd]
    show (false || maskBad a mask) = false
    rw [hm]; rfl
  have hrt : ∃ f i nm off dims, regAt a = some (⟨nm, off, dims, [f]⟩, i) ∧ f.bits = ⟨0, 32⟩ ∧ f.access = .rw ∧ f.clamp = .none := by
    rcases ha with ⟨-, rfl⟩ | ⟨-, rfl⟩
    · exact ⟨_, _, _, _, _, (by decide +kernel : IsReg Reg.GPIO_OUT 21 0 0).at, rfl, rfl, rfl⟩
    · exact ⟨_, _, _, _, _, (by decide +kernel : IsReg Reg.GPIO_DIR 21 1 0).at, rfl, rfl, rfl⟩
  obtain ⟨f, i, nm, off, dims, hat, hbits, hacc, hclamp⟩ := hrt
  have hx : ∀ (u : State) v, u.crossClamp a v = v := by
    intro u v
    rcases ha with ⟨-, rfl⟩ | ⟨-, rfl⟩ <;> rfl
  have hwr : ∀ u : State, (u.written .descriptor a ⟨nm, off, dims, [f]⟩ value mask).1 = blend mask value (u.reg a) ∨ mask = 0 := by
    intro u
    by_cases h0 : mask = 0
    · exact .inr h0
    refine .inl ?_
    have hon : f.bits.on mask = true := by
      rw [hbits, Bits.on_iff]
      intro e
      exact h0 (BitVec.eq_of_toNat_eq (by
        have : mask.toNat % 2 ^ 32 = 0 := by simpa [Bits.of] using e
        rw [Nat.mod_eq_of_lt mask.isLt] at this
        simpa using this))
    have hw : (RegDesc.written ⟨nm, off, dims, [f]⟩ .descriptor u.locked (u.reg a) value mask).1 = blend mask value (u.reg a) := by
      rw [RegDesc.written_eq, List.foldl_cons, List.foldl_nil]
      unfold putField
      have hr : f.reached .descriptor u.locked = true := by unfold FieldDesc.reached; rw [hacc]
      rw [hr, hacc, if_pos (by decide)]
      unfold FieldDesc.written
      rw [hacc, if_pos hon, hclamp]
      show f.bits.put (Clamp.apply .none (f.bits.of (blend mask value (u.reg a)))) (u.reg a) = _
      rw [hbits]
      exact Bits.put_whole _ _
    unfold State.written State.settled
    dsimp only
    rw [hw, hx, listedBits_all (by rw [hun]; decide)]
    exact BitVec.and_allOnes
  have himg : ∀ u : State, u.imageOnly a = false := by
    intro u
    unfold State.imageOnly
    rw [hun]
    split <;> rfl
  have hcover : (RegDesc.reach ⟨nm, off, dims, [f]⟩ .descriptor s.judgedAt.locked &&& mask) = mask := by
    unfold RegDesc.reach
    rw [List.foldl_cons, List.foldl_nil]
    have hr : f.reached .descriptor s.judgedAt.locked = true := by unfold FieldDesc.reached; rw [hacc]
    rw [hr, if_pos rfl, hbits]
    rw [show (0 ||| (⟨0, 32⟩ : Bits).mask) = BitVec.allOnes 32 by decide, BitVec.allOnes_and]
  have hta : ∀ x : Wr, x.a = a → s.judgedAt.turnedAway x = none := by
    intro x hxa
    have h1 : elemOf a (Reg.ENG_BINDn 0) 4 256 = none := by rcases ha with ⟨-, rfl⟩ | ⟨-, rfl⟩ <;> decide
    have h2 : elemOf a (Reg.WGH_MCm_CFG 0) 0x80 2 = none := by rcases ha with ⟨-, rfl⟩ | ⟨-, rfl⟩ <;> decide
    have h3 : a ≠ Reg.ENG_CFG := by rcases ha with ⟨-, rfl⟩ | ⟨-, rfl⟩ <;> decide
    unfold State.turnedAway
    rw [hxa, if_neg h3, h1, h2]
  have hput : ∀ (u : State) (x : Wr), x.a = a → u.put x = (u.setReg a x.new, false) := by
    intro u x hxa
    unfold State.put
    simp only [hxa, hun]
    rfl
  have hir : ∀ (u : State) (m w : Word), (u.imageWrite a m w).cmd = u.cmd ∧ (u.imageWrite a m w).pwm = u.pwm ∧
      (u.imageWrite a m w).regs = u.regs := by
    intro u m w
    unfold State.imageWrite
    split <;> exact ⟨rfl, rfl, rfl⟩
  have hreg : ∃ u c, s.judgedAt.regWrite s.judgedAt (mkDesc o opRegWrite 21 0 offset value mask 0) = .ok u false c none ∧
      u.reg a = blend mask value (s.judgedAt.reg a) ∧ u.cmd = s.judgedAt.cmd ∧ u.pwm = s.judgedAt.pwm := by
    generalize s.judgedAt = j at hcover hta
    unfold State.regWrite
    rw [mkDesc_inst, mkDesc_unit]
    rw [show descReg (21 % 2 ^ 5) (0 % 2 ^ 8) (mkDesc o opRegWrite 21 0 offset value mask 0).offset = some a from hd]
    dsimp only
    rw [himg, if_neg (by decide)]
    show ∃ u c, j.writeLive a value mask = .ok u false c none ∧ _
    have hprep : j.prepare .descriptor a value mask =
        if mask = 0 then none else some (⟨.descriptor, a, j.reg a, (j.written .descriptor a ⟨nm, off, dims, [f]⟩ value mask).1,
          value &&& mask, mask⟩, (j.written .descriptor a ⟨nm, off, dims, [f]⟩ value mask).2) := by
      unfold State.prepare
      rw [hat]
      simp only [show Master.isBus .descriptor = false from rfl, Bool.false_eq_true, if_false, hcover]
    have hW := hwr j
    generalize j.written .descriptor a ⟨nm, off, dims, [f]⟩ value mask = W at hprep hW
    unfold State.writeLive
    rw [hprep]
    by_cases h0 : mask = 0
    · rw [if_pos h0]
      refine ⟨_, _, rfl, ?_, rfl, rfl⟩
      rw [h0]
      unfold blend
      simp
      exact BitVec.and_allOnes.symm
    · rw [if_neg h0]
      dsimp only
      rw [hta _ rfl]
      dsimp only
      rw [hput _ _ rfl]
      dsimp only
      refine ⟨_, _, rfl, ?_, ?_, ?_⟩
      · unfold State.reg
        rw [(hir _ _ _).2.2]
        refine (State.reg_setReg_same _ _ _).trans ?_
        exact hW.resolve_right h0
      · rw [(hir _ _ _).1, State.setReg_cmd]
      · rw [(hir _ _ _).2.1, State.setReg_pwm]
  obtain ⟨u, c, hst, hreg, hcmd, hpwm⟩ := hreg
  have hv : s.judgedAt.judgeDesc s.judgedAt (mkDesc o opRegWrite 21 0 offset value mask 0)
      (s.copied (mkDesc o opRegWrite 21 0 offset value mask 0)) = .ok u false c none := by
    unfold State.judgeDesc
    rw [mkDesc_opc' (by decide), if_neg (by decide), if_pos rfl]
    exact hst
  obtain ⟨hf, hc, -⟩ := State.runDesc_ok hbad (State.loadBadAt_none _ (by rw [mkDesc_opc' (by decide)]; decide)) ht hv
    ((congrArg Cmd.posting hcmd).trans s.judgedAt_keeps.1)
    ((show u.ticking = s.judgedAt.ticking by unfold State.ticking State.tbRun State.tb; rw [hpwm]).trans s.judgedAt_keeps.2)
  refine ⟨hc, ?_⟩
  have hfr : (s.runDesc o (mkDesc o opRegWrite 21 0 offset value mask 0)).reg a = u.reg a := by
    rcases hno with e | e
    · exact hf.reg e
    · exact hf.reg e
  have hj : s.judgedAt.reg a = s.reg a := by
    rcases hno with e | e
    · exact s.judgedAt_frame.reg e
    · exact s.judgedAt_frame.reg e
  exact hfr.trans (hreg.trans (by rw [hj]))

/-! ### TABLE_LOAD -/

theorem State.word_setWords_other (ws : List Word) (s : State) {a b : Nat} (h : b + 4 ≤ a) : (s.setWords a ws).word b = s.word b := by
  induction ws generalizing s a with
  | nil => rfl
  | cons w ws ih =>
    show ((s.setWord a w).setWords (a + 4) ws).word b = _
    rw [ih _ (by omega), State.word_setWord_other _ _ (by omega)]

theorem State.word_setWords (ws : List Word) (s : State) (a : Nat) {i : Nat} {w : Word} (h : ws[i]? = some w) :
    (s.setWords a ws).word (a + 4 * i) = w := by
  induction ws generalizing s a i with
  | nil => cases h
  | cons x ws ih =>
    show ((s.setWord a x).setWords (a + 4) ws).word (a + 4 * i) = _
    cases i with
    | zero => cases h; rw [State.word_setWords_other _ _ (by omega)]; exact State.word_setWord_same _ _ _
    | succ i =>
      have := ih (s.setWord a x) (a + 4) (i := i) h
      rw [← this]
      congr 1
      omega

theorem Frame.wordHigh {K : Nat} {s t : State} (h : Frame K s t) {a : Nat} (ha : recipeBase ≤ a) (h1 : K.testBit bit_recipe = false := by decide)
    (h2 : K.testBit bit_table = false := by decide) (h3 : K.testBit bit_store = false := by decide) : t.word a = s.word a := by
  have no : ∀ {b : Bool} {P : Prop}, b = false → b = true → P := fun h0 h1 => absurd (h0.symm.trans h1) (by decide)
  have hb : ∀ b, recipeBase ≤ b → t.byte b = s.byte b := fun b hb => h.mem b
    { sram := fun _ hs => by unfold inSram at hs; omega
      page := fun _ hs => by
        have : sramBase + doorbell + 0x900 ≤ recipeBase := by decide
        unfold inPage at hs; omega
      records := fun _ hs => by have := inSram_of_inRecords hs; unfold inSram at this; omega
      recipe := no h1, table := no h2, store := no h3 }
  unfold State.word
  rw [hb _ (by omega), hb _ (by omega), hb _ (by omega), hb _ (by omega)]

theorem tableLoad_does : ∀ (o : Origin) (w3 w4 w5 w6 : Word) (s : State), Timely o s → loadBad w3 w4 w5 = false →
    Crc.checkC (bytesOfWords (s.sourceWords w3.toNat (loadLen w5))) = w6 →
    s.judgedAt.loadRefused (loadDest w4) (s.sourceWords w3.toNat (loadLen w5)) = false →
    Does (.tableLoad o w3 w4 w5 w6) s fun t => Completes o stDone s t ∧
      ∀ i, i < loadLen w5 / 4 → t.word (loadDest w4 + 4 * i) = s.sram (w3.toNat + 4 * i) := by
  intro o w3 w4 w5 w6 s ht hb hcrc href
  refine ⟨_, exec_tableLoad.trans rfl, ?_⟩
  generalize hd : mkDesc o opTableLoad UnitCode.eng 0 w3 w4 w5 w6 = d
  have hopc : d.opc = opTableLoad := by rw [← hd]; exact mkDesc_opc' (by decide)
  have hw : d.w3 = w3 ∧ d.w4 = w4 ∧ d.w5 = w5 ∧ d.w6 = w6 := by rw [← hd]; exact ⟨rfl, rfl, rfl, rfl⟩
  have hcopy : ∀ u : State, u.copied d = u.sourceWords w3.toNat (loadLen w5) := fun u => by
    unfold State.copied; rw [if_pos hopc, hw.1, hw.2.2.1]
  have hbad : d.bad = none := by
    rw [← hd]
    exact mkDesc_plain (by decide) (by decide) (by decide) (by decide) (by decide) (by decide) (by decide)
  have hl : ({ s with cmd.fetches := s.cmd.fetches + 1 } : State).loadBadAt d = none := by
    unfold State.loadBadAt
    rw [if_neg (by rw [hopc]; decide), hw.1, hw.2.1, hw.2.2.1, hb, hcopy, hw.2.2.2]
    rw [if_neg (by decide), if_neg]
    exact fun h => h hcrc
  generalize hws : s.sourceWords w3.toNat (loadLen w5) = ws at *
  have hv : s.judgedAt.judgeDesc s.judgedAt d (s.copied d) =
      .ok (((s.judgedAt.setWords (loadDest w4) ws).imageBytes (loadDest w4) (4 * ws.length)).scanLoaded (loadDest w4) (4 * ws.length))
        false (loadLenClamps w5) none := by
    unfold State.judgeDesc State.judgeEngine
    rw [hopc, hcopy, hws]
    show s.judgedAt.tableLoaded d ws = _
    unfold State.tableLoaded State.tableLoad
    rw [hw.2.1, hw.2.2.1]
    dsimp only
    rw [href]
    rfl
  have hj := s.judgedAt_keeps
  generalize hjj : s.judgedAt = j at hv hj
  have h1 : ∀ (l : List Word) (u : State) a, (u.setWords a l).cmd = u.cmd ∧ (u.setWords a l).pwm = u.pwm := by
    intro l
    induction l with
    | nil => intro u a; exact ⟨rfl, rfl⟩
    | cons x l ih => intro u a; exact ⟨(ih _ _).1.trans rfl, (ih _ _).2.trans rfl⟩
  have h2 : ∀ (u : State) a n, (u.imageBytes a n).cmd = u.cmd ∧ (u.imageBytes a n).pwm = u.pwm ∧ (u.imageBytes a n).mem = u.mem := by
    intro u a n
    unfold State.imageBytes
    split <;> exact ⟨rfl, rfl, rfl⟩
  have hu := State.scanLoaded_frame (s := (j.setWords (loadDest w4) ws).imageBytes (loadDest w4) (4 * ws.length)) (x1 := loadDest w4)
    (x2 := 4 * ws.length)
  have hp := (hu.posting (by decide)).trans ((congrArg Cmd.posting ((h2 _ _ _).1.trans (h1 _ _ _).1)).trans hj.1)
  have htk := hu.ticking.trans ((show State.ticking ((j.setWords (loadDest w4) ws).imageBytes (loadDest w4) (4 * ws.length)) = j.ticking by
    unfold State.ticking State.tbRun State.tb; rw [(h2 _ _ _).2.1, (h1 _ _ _).2]).trans hj.2)
  subst hd
  subst hjj
  obtain ⟨hf, hc, -⟩ := State.runDesc_ok hbad hl ht hv hp htk
  refine ⟨hc, fun i hi => ?_⟩
  have hhi : recipeBase ≤ loadDest w4 + 4 * i := by
    unfold loadDest
    have : recipeBase ≤ tableBase := by decide
    split <;> omega
  rw [hf.wordHigh hhi, hu.wordHigh hhi]
  have e : ((s.judgedAt.setWords (loadDest w4) ws).imageBytes (loadDest w4) (4 * ws.length)).word (loadDest w4 + 4 * i) =
      (s.judgedAt.setWords (loadDest w4) ws).word (loadDest w4 + 4 * i) := by
    unfold State.word State.byte
    rw [(h2 _ _ _).2.2]
  rw [e]
  refine State.word_setWords _ _ _ ?_
  rw [← hws]
  unfold State.sourceWords
  rw [List.getElem?_map, List.getElem?_range hi]
  rfl

end Sys2Proof.Machine
end

