-- ==== Sys2Proof/Laws/EffectDescPwr.lean ====
section
/-! SUPPORT. Descriptors of the PWM generator, the protection, the field control and the position channels. -/

set_option Elab.async false

namespace Sys2Proof.Machine

/-- A descriptor whose payload no check reads, judged by an operation whose frame is known. -/
theorem State.runDesc_op {K : Nat} {s u : State} {o : Origin} {opc unit inst : Nat} {w3 w4 w5 w6 : Word} {image clamped : Bool}
    {value : Option Word} (hk : plainDesc opc unit inst = true) (ht : Timely o s)
    (hv : s.judgedAt.judgeDesc s.judgedAt (mkDesc o opc unit inst w3 w4 w5 w6) (s.copied (mkDesc o opc unit inst w3 w4 w5 w6)) =
      .ok u image clamped value) (hf : FrameV K s.judgedAt (.ok u image clamped value))
    (h1 : K.testBit bit_posting = false := by decide) (h2 : K.testBit bit_tbs = false := by decide) :
    Completes o (if image then stDoneImage else stDone) s (s.runDesc o (mkDesc o opc unit inst w3 w4 w5 w6)) ∧
    Frame Foot.descEnd u (s.runDesc o (mkDesc o opc unit inst w3 w4 w5 w6)) ∧
    (s.ticking = true ∨ u.NoneDue → Frame Foot.descMid u (s.runDesc o (mkDesc o opc unit inst w3 w4 w5 w6))) := by
  have hf' : Frame K s.judgedAt u := hf
  obtain ⟨a, b, c⟩ := State.runDesc_plain hk ht hv
    ⟨(hf'.posting h1).trans s.judgedAt_keeps.1, (hf'.ticking h2).trans s.judgedAt_keeps.2⟩
  exact ⟨b, a, c⟩

/-! ### OUTPUT_ENABLE and OUTPUT_DISABLE -/

theorem mkDesc_inst' {o : Origin} {opc unit inst : Nat} {w3 w4 w5 w6 : Word} (h : inst < 2 ^ 8) :
    (mkDesc o opc unit inst w3 w4 w5 w6).inst = inst := by rw [mkDesc_inst, Nat.mod_eq_of_lt h]

theorem PAIRk_LIVE_inj {j k : Nat} (hj : j < 16) (hk : k < 16) (h : Reg.PAIRk_LIVE j = Reg.PAIRk_LIVE k) : j = k := by
  unfold Reg.PAIRk_LIVE at h; omega

theorem State.on_setFld_live (s : State) (j k v : Nat) (hj : j < 16) (hk : k < 16) (hv : v < 2) :
    (s.setFld (Reg.PAIRk_LIVE j) Fld.PAIRk_LIVE.EN v).outEnabled k = if k = j then v != 0 else s.outEnabled k := by
  unfold State.outEnabled State.on
  by_cases h : k = j
  · subst h
    rw [if_pos rfl, State.fld_setFld _ _ Fld.PAIRk_LIVE.EN, Nat.mod_eq_of_lt (by exact hv)]
  · rw [if_neg h]
    unfold State.fld State.setFld
    rw [State.reg_setReg_other _ _ (fun e => h (PAIRk_LIVE_inj hk hj e))]

theorem Frame.outEnabled {K : Nat} {s t : State} (h : Frame K s t) (k : Nat) (hK : K.testBit 91 = false := by decide) :
    t.outEnabled k = s.outEnabled k := h.on (regNo_PAIRk_LIVE k) hK

theorem State.enablePair_outEnabled (s : State) (x k : Nat) (hx : x < 16) (hk : k < 16) :
    (s.enablePair x).outEnabled k = (k == x || s.outEnabled k) := by
  unfold State.enablePair
  by_cases ho : s.outEnabled x = true
  · rw [if_pos ho]
    by_cases hkx : k = x
    · subst hkx; rw [ho]; simp
    · simp [hkx]
  · rw [if_neg ho]
    have h1 : (s.setFld (Reg.PAIRk_LIVE x) Fld.PAIRk_LIVE.EN 1).outEnabled k = (k == x || s.outEnabled k) := by
      rw [State.on_setFld_live _ _ _ _ hx hk (by decide)]
      by_cases hkx : k = x
      · simp [hkx]
      · simp [hkx]
    dsimp only
    generalize s.setFld (Reg.PAIRk_LIVE x) Fld.PAIRk_LIVE.EN 1 = u at h1
    split
    · exact h1
    · exact (State.startPair_frame.outEnabled k).trans h1

theorem State.enablePairs_outEnabled (s : State) (mask k : Nat) (hk : k < 16) :
    (s.enablePairs mask).outEnabled k = (hasBit mask k || s.outEnabled k) := by
  have step : ∀ (l : List Nat) (u : State), (∀ x ∈ l, x < 16) →
      (l.foldl State.enablePair u).outEnabled k = (l.contains k || u.outEnabled k) := by
    intro l
    induction l with
    | nil => intro u _; rfl
    | cons x l ih =>
      intro u hl
      rw [List.foldl_cons, ih _ fun y hy => hl y (List.mem_cons_of_mem _ hy),
        State.enablePair_outEnabled _ _ _ (hl x List.mem_cons_self) hk, List.contains_cons]
      cases l.contains k <;> cases (k == x) <;> cases u.outEnabled k <;> rfl
  unfold State.enablePairs
  rw [step _ _ (fun x hx => List.mem_range.1 (List.mem_filter.1 hx).1), State.settle_frame.outEnabled k]
  congr 1
  rw [Bool.eq_iff_iff, List.contains_iff_mem, List.mem_filter, List.mem_range]
  exact ⟨fun h => h.2, fun h => ⟨hk, h⟩⟩

theorem State.disablePair_outEnabled (u : State) (x k : Nat) (hx : x < 16) (hk : k < 16) (p : State → Pair) :
    (((fun s : State => s.setPair x (p s)) ((u.setFld (Reg.PAIRk_LIVE x) Fld.PAIRk_LIVE.EN 0).clearCarry x)).regate [x]).outEnabled k =
      (!(k == x) && u.outEnabled k) := by
  refine (State.regate_frame.outEnabled k).trans ?_
  refine Eq.trans (b := (u.setFld (Reg.PAIRk_LIVE x) Fld.PAIRk_LIVE.EN 0).outEnabled k) ?_ ?_
  · unfold State.outEnabled State.on State.fld State.clearCarry
    exact congrArg (fun w : Word => Fld.PAIRk_LIVE.EN.of w != 0)
      (State.reg_setReg_other _ _ (reg_ne (regNo_PAIRk_LIVE _) (regNo_PAIRk_CARRY _)))
  · rw [State.on_setFld_live _ _ _ _ hx hk (by decide)]
    by_cases hkx : k = x
    · simp [hkx]
    · simp [hkx]

theorem State.disablePairs_outEnabled (s : State) (mask k : Nat) (hk : k < 16) :
    (s.disablePairs mask).outEnabled k = (!hasBit mask k && s.outEnabled k) := by
  have step : ∀ (l : List Nat) (u : State), (∀ x ∈ l, x < 16) → (l.foldl (fun s k =>
      let s := (s.setFld (Reg.PAIRk_LIVE k) Fld.PAIRk_LIVE.EN 0).clearCarry k
      (s.setPair k { s.pair k with enabling := false }).regate [k]) u).outEnabled k = (!l.contains k && u.outEnabled k) := by
    intro l
    induction l with
    | nil => intro u _; rfl
    | cons x l ih =>
      intro u hl
      have e := State.disablePair_outEnabled u x k (hl x List.mem_cons_self) hk fun s => { s.pair x with enabling := false }
      rw [List.foldl_cons, ih _ fun y hy => hl y (List.mem_cons_of_mem _ hy), List.contains_cons]
      dsimp only at e ⊢
      rw [e]
      cases l.contains k <;> cases (k == x) <;> cases u.outEnabled k <;> rfl
  unfold State.disablePairs
  rw [step _ _ (fun x hx => List.mem_range.1 (List.mem_filter.1 hx).1), State.settle_frame.outEnabled k]
  congr 2
  rw [Bool.eq_iff_iff, List.contains_iff_mem, List.mem_filter, List.mem_range]
  exact ⟨fun h => h.2, fun h => ⟨hk, h⟩⟩

theorem NoRelease.of {K : Nat} {s u : State} (h : Frame K s.judgedAt u) (h0 : s.NoRelease) (hK : K.testBit bit_prot = false := by decide)
    (hV : K.testBit bit_vt = false := by decide) : s.ticking = true ∨ u.NoneDue := u_releases h h0 hK hV

theorem hasBit_mod16 (w : Word) (k : Nat) (hk : k < 16) : hasBit (w.toNat % 2 ^ 16) k = bitAt w k := by
  unfold hasBit bitAt
  rw [Nat.testBit_mod_two_pow, BitVec.testBit_toNat]
  simp [hk]

theorem outputEnable_does : ∀ (o : Origin) (pairs : Word) (s : State), Timely o s →
    Does (.outputEnable o pairs) s fun t => Completes o stDone s t ∧
      (s.NoRelease → ∀ k, k < 16 → t.outEnabled k = (bitAt pairs k || s.outEnabled k)) := by
  intro o pairs s ht
  refine ⟨_, exec_outputEnable.trans rfl, ?_⟩
  have hf := State.enablePairs_frame (s := s.judgedAt) (x1 := pairs.toNat % 2 ^ 16)
  obtain ⟨hc, -, h2⟩ := State.runDesc_op (s := s) (u := s.judgedAt.enablePairs (pairs.toNat % 2 ^ 16)) (o := o) (opc := opOutputEnable)
    (unit := UnitCode.pwm) (inst := 0) (w3 := pairs) (w4 := 0) (w5 := 0) (w6 := 0) (image := false) (clamped := false) (value := none)
    (by decide) ht (by unfold State.judgeDesc State.judgePower; rw [mkDesc_opc' (by decide)]; rfl) hf
  refine ⟨hc, fun hn k hk => ?_⟩
  rw [(h2 (NoRelease.of hf hn)).outEnabled k, State.enablePairs_outEnabled _ _ _ hk, s.judgedAt_frame.outEnabled k, hasBit_mod16 _ _ hk]

theorem outputDisable_does : ∀ (o : Origin) (pairs : Word) (s : State), Timely o s →
    Does (.outputDisable o pairs) s fun t => Completes o stDone s t ∧
      (s.NoRelease → ∀ k, k < 16 → t.outEnabled k = (!bitAt pairs k && s.outEnabled k)) := by
  intro o pairs s ht
  refine ⟨_, exec_outputDisable.trans rfl, ?_⟩
  have hf := State.disablePairs_frame (s := s.judgedAt) (x1 := pairs.toNat % 2 ^ 16)
  obtain ⟨hc, -, h2⟩ := State.runDesc_op (s := s) (u := s.judgedAt.disablePairs (pairs.toNat % 2 ^ 16)) (o := o) (opc := opOutputDisable)
    (unit := UnitCode.pwm) (inst := 0) (w3 := pairs) (w4 := 0) (w5 := 0) (w6 := 0) (image := false) (clamped := false) (value := none)
    (by decide) ht (by unfold State.judgeDesc State.judgePower; rw [mkDesc_opc' (by decide)]; rfl) hf
  refine ⟨hc, fun hn k hk => ?_⟩
  rw [(h2 (NoRelease.of hf hn)).outEnabled k, State.disablePairs_outEnabled _ _ _ hk, s.judgedAt_frame.outEnabled k, hasBit_mod16 _ _ hk]

/-! ### CARRIER_SET and LOAD_ALL -/

theorem State.armWrite_reg (s : State) (a : Nat) (w : Word) {k : Nat} (hk : regNo a = k) (h : Foot.force.testBit k = false) :
    (s.armWrite a w).reg a = w := by
  unfold State.armWrite
  extract_lets u
  have e : u.reg a = w := State.reg_setReg_same _ _ _
  cases u.tbOfAddr a with
  | none => exact e
  | some n =>
    dsimp only
    split
    · exact e
    · exact (State.force_frame.reg hk h).trans e

theorem carrierSet_does : ∀ (o : Origin) (tb : Fin 4) (period : Word) (s : State), Timely o s →
    Does (.carrierSet o tb period) s fun t => Completes o stDone s t ∧
      (s.NoRelease → t.fld (Reg.TBn_PER tb) Fld.TBn_PER.PERIOD = s.judgedAt.clampPeriod tb period.toNat) := by
  intro o n w s ht
  refine ⟨_, exec_carrierSet.trans rfl, ?_⟩
  have hk : ∀ n : Fin 4, plainDesc opCarrierSet UnitCode.pwm n = true := by decide
  have hf := State.carrierSet_frame (s := s.judgedAt) (x1 := n) (x2 := w)
  obtain ⟨hc, -, h2⟩ := State.runDesc_op (s := s) (o := o) (opc := opCarrierSet)
    (unit := UnitCode.pwm) (inst := n) (w3 := w) (w4 := 0) (w5 := 0) (w6 := 0)
    (hk n) ht (by unfold State.judgeDesc State.judgePower; rw [mkDesc_opc' (by decide), mkDesc_inst' (by omega)]; rfl) hf
  refine ⟨hc, fun hn => ?_⟩
  have hf' : Frame Foot.carrierSet s.judgedAt _ := hf
  rw [(h2 (NoRelease.of hf' hn)).fld (regNo_TBn_PER _)]
  rw [State.refreshToll_frame.fld (regNo_TBn_PER _)]
  rw [State.imageWrite_frame.fld (regNo_TBn_PER _)]
  unfold State.fld
  rw [State.armWrite_reg _ _ _ (regNo_TBn_PER _) (by decide)]
  have hlt : s.judgedAt.clampPeriod n w.toNat < 2 ^ 22 := by
    unfold State.clampPeriod State.tollPeriod clampNat
    extract_lets p
    split <;> omega
  rw [Bits.of_only Fld.TBn_PER.PERIOD]
  exact Nat.mod_eq_of_lt hlt

theorem State.judgedAt_tick (s : State) : s.judgedAt.tick = s.tick := s.judgedAt_frame.tick (by decide)

theorem State.judgedAt_tbRun (s : State) (n : Nat) : s.judgedAt.tbRun n = s.tbRun n := by
  unfold State.tbRun State.tb
  rw [s.judgedAt_frame.tbs (by decide)]

theorem loadAll_does : ∀ (o : Origin) (tb : Fin 4) (s : State), Timely o s → s.tbRun tb = true →
    Does (.loadAll o tb) s fun t => Completes o stDone s t ∧
      (s.NoRelease → t.pwm.loadAll = s.pwm.loadAll ++ [(tb.val, s.tick + 1)]) := by
  intro o n s ht hr
  refine ⟨_, exec_loadAll.trans rfl, ?_⟩
  have hk : ∀ n : Fin 4, plainDesc opLoadAll UnitCode.pwm n = true := by decide
  have hl : s.judgedAt.loadAll n = .done { s.judgedAt with pwm.loadAll := s.judgedAt.pwm.loadAll ++ [(n.val, s.judgedAt.tick + 1)] } := by
    unfold State.loadAll
    rw [s.judgedAt_tbRun, hr, if_pos rfl]
  have hf := State.loadAll_frame (s := s.judgedAt) (x1 := n)
  rw [hl] at hf
  obtain ⟨hc, -, h2⟩ := State.runDesc_op (s := s) (o := o) (opc := opLoadAll)
    (unit := UnitCode.pwm) (inst := n) (w3 := 0) (w4 := 0) (w5 := 0) (w6 := 0)
    (hk n) ht (by unfold State.judgeDesc State.judgePower; rw [mkDesc_opc' (by decide), mkDesc_inst' (by omega)]; exact hl) hf
  refine ⟨hc, fun hn => ?_⟩
  have hf' : Frame Foot.loadAll s.judgedAt _ := hf
  have h3 := congrArg Pwm.loadAll ((h2 (NoRelease.of hf' hn)).pwmRest (by decide))
  have h4 := congrArg Pwm.loadAll (s.judgedAt_frame.pwmRest (by decide))
  have h5 : s.judgedAt.pwm.loadAll = s.pwm.loadAll := h4
  refine h3.trans ?_
  show s.judgedAt.pwm.loadAll ++ [(n.val, s.judgedAt.tick + 1)] = _
  rw [h5, s.judgedAt_tick]

/-! ### TRIP_CLEAR, SAFE_REQUEST and DRIVE_ENABLE -/

theorem latchReg_ne {a b : Nat} (h : (a < 16) ≠ (b < 16)) : latchReg a ≠ latchReg b := by
  unfold latchReg
  by_cases ha : a < 16 <;> by_cases hb : b < 16 <;> simp [ha, hb] at h ⊢ <;> decide

theorem bitAt_setBit_other (w : Word) {i j : Nat} (b : Bool) (hi : i < 32) (h : i ≠ j) : bitAt (setBit w j b) i = bitAt w i := by
  unfold bitAt setBit
  rw [Bits.getLsbD_put _ _ _ _ hi, if_neg]
  show ¬ (j ≤ i ∧ i < j + 1)
  omega

theorem State.latched_setLatch (s : State) {a b : Nat} (v : Bool) (ha : a < 40) (hb : b < 40) :
    (s.setLatch a v).latched b = if b = a then v else s.latched b := by
  unfold State.latched State.setLatch
  have hsa : srcBit a < 32 := by unfold srcBit; split <;> omega
  have hsb : srcBit b < 32 := by unfold srcBit; split <;> omega
  by_cases h : b = a
  · subst h
    rw [if_pos rfl, State.reg_setReg_same, bitAt_setBit _ _ _ hsa]
  · rw [if_neg h]
    by_cases hr : (a < 16) = (b < 16)
    · have e : latchReg b = latchReg a := by unfold latchReg; simp only [hr]
      have hne : srcBit b ≠ srcBit a := by
        unfold srcBit
        by_cases ha : a < 16
        · have hb' : b < 16 := by rw [← hr]; exact ha
          rw [if_pos ha, if_pos hb']; exact h
        · have hb' : ¬ b < 16 := by rw [← hr]; exact ha
          rw [if_neg ha, if_neg hb']; omega
      rw [e, State.reg_setReg_same, bitAt_setBit_other _ _ hsb hne]
    · rw [State.reg_setReg_other _ _ (latchReg_ne fun e => hr e.symm)]

theorem Frame.latched {K : Nat} {s t : State} (h : Frame K s t) (src : Nat) (h1 : K.testBit 99 = false := by decide)
    (h2 : K.testBit 100 = false := by decide) : t.latched src = s.latched src := by
  unfold State.latched latchReg
  split
  · rw [h.reg regNo_PROT_LATCH_EXT h1]
  · rw [h.reg regNo_PROT_LATCH_INT h2]

theorem State.clearLatches_latched (s : State) (l : List Nat) (hl : ∀ x ∈ l, x < 40) {src : Nat} (hs : src < 40) :
    (s.clearLatches l).latched src = (!l.contains src && s.latched src) := by
  have step : ∀ (l : List Nat) (u : State), (∀ x ∈ l, x < 40) → (l.foldl (fun (s : State) src =>
      { s.setLatch src false with prot.latchUnits := tabSet 0 s.prot.latchUnits src 0 }) u).latched src = (!l.contains src && u.latched src) := by
    intro l
    induction l with
    | nil => intro u _; rfl
    | cons x l ih =>
      intro u hl
      rw [List.foldl_cons, ih _ fun y hy => hl y (List.mem_cons_of_mem _ hy)]
      have e : State.latched { u.setLatch x false with prot.latchUnits := tabSet 0 u.prot.latchUnits x 0 } src = (!(src == x) && u.latched src) := by
        refine Eq.trans (b := (u.setLatch x false).latched src) rfl ?_
        rw [State.latched_setLatch _ _ (hl x List.mem_cons_self) hs]
        by_cases h : src = x
        · simp [h]
        · simp [h]
      rw [e, List.contains_cons]
      cases l.contains src <;> cases (src == x) <;> cases u.latched src <;> rfl
  unfold State.clearLatches
  extract_lets onAux s1 s2
  have h1 : s1.latched src = (!l.contains src && s.latched src) := by
    unfold s1
    rw [step _ _ hl, State.settle_frame.latched]
  have h2 : s2.latched src = (!l.contains src && s.latched src) := by
    unfold s2
    rw [State.reresolve_frame.latched, State.reresolve_frame.latched, h1]
  split
  · refine Eq.trans (b := (s2.loadOnce unitAux).latched src) rfl ?_
    rw [State.loadOnce_frame.latched, h2]
  · exact h2

theorem State.namedLatches_congr {s t : State} (h : ∀ src, t.latched src = s.latched src) (e i : Word) :
    t.namedLatches e i = s.namedLatches e i := by
  unfold State.namedLatches
  simp only [h]

theorem tripClear_does : ∀ (o : Origin) (ext int : Word) (s : State), Timely o s →
    (∀ src ∈ s.namedLatches ext int, s.levelActive src = false) →
    Does (.tripClear o ext int) s fun t => Completes o stDone s t ∧
      (s.ticking = true → ∀ src, src < 40 →
        t.latched src = (s.latched src && !(if src < 16 then bitAt ext src else bitAt int (src - 16)))) := by
  intro o ext int s ht hn
  refine ⟨_, exec_tripClear.trans rfl, ?_⟩
  have hla : ∀ src, s.judgedAt.latched src = s.latched src := fun src => s.judgedAt_frame.latched src
  have hle : ∀ src, s.judgedAt.levelActive src = s.levelActive src := fun src => by
    unfold State.levelActive levelReg
    split
    · rw [s.judgedAt_frame.reg regNo_PROT_LEVEL_EXT]
    · rw [s.judgedAt_frame.reg regNo_PROT_LEVEL_INT]
  have hnm := State.namedLatches_congr hla ext int
  have hl : s.judgedAt.tripClear ext int = .done (s.judgedAt.clearLatches (s.namedLatches ext int)) := by
    unfold State.tripClear
    extract_lets named failed
    have : failed = [] := by
      unfold failed named
      rw [List.filter_eq_nil_iff, hnm]
      intro x hx
      rw [hle, hn x hx]; decide
    rw [this]
    dsimp only
    unfold named
    rw [hnm]
  have hf := State.tripClear_frame (s := s.judgedAt) (x1 := ext) (x2 := int)
  rw [hl] at hf
  obtain ⟨hc, -, h2⟩ := State.runDesc_op (s := s) (o := o) (opc := opTripClear)
    (unit := UnitCode.prot) (inst := 0) (w3 := ext) (w4 := int) (w5 := 0) (w6 := 0)
    (by decide) ht (by unfold State.judgeDesc State.judgePower; rw [mkDesc_opc' (by decide)]; exact hl) hf
  refine ⟨hc, fun hn src hs => ?_⟩
  rw [(h2 (.inl hn)).latched, State.clearLatches_latched _ _ _ hs, hla]
  · unfold State.namedLatches
    have e : ((List.range 40).filter fun src => s.latched src && (if src < 16 then bitAt ext src else bitAt int (src - 16))).contains src =
        (s.latched src && (if src < 16 then bitAt ext src else bitAt int (src - 16))) := by
      rw [Bool.eq_iff_iff, List.contains_iff_mem, List.mem_filter, List.mem_range]
      exact ⟨fun h => h.2, fun h => ⟨hs, h⟩⟩
    rw [e]
    cases s.latched src <;> simp
  · intro x hx
    exact List.mem_range.1 (List.mem_filter.1 hx).1

theorem hasBit_withBit (n i : Nat) : hasBit (withBit n i) i = true := by
  unfold hasBit withBit
  rw [Nat.testBit_or, Nat.testBit_two_pow_self, Bool.or_true]

theorem hasBit_withBit_other (n : Nat) {i j : Nat} (h : j ≠ i) : hasBit (withBit n i) j = hasBit n j := by
  unfold hasBit withBit
  rw [Nat.testBit_or, Nat.testBit_two_pow_of_ne (fun e => h e.symm), Bool.or_false]

theorem Frame.isSafe {K : Nat} {s t : State} (h : Frame K s t) (u : Nat) (hK : K.testBit 104 = false := by decide) : t.isSafe u = s.isSafe u := by
  unfold State.isSafe
  rw [h.fld regNo_PROT_USTAT hK]

theorem State.applySafe_isSafe (s : State) (u cause : Nat) (hu : u < 5) : (s.applySafe u cause).isSafe u = true := by
  unfold State.applySafe
  extract_lets st old a1 a2 b1 b2 b3 b4 r
  have hr : r.isSafe u = true := by
    unfold r
    by_cases h : s.isSafe u = true
    · rw [if_pos h]
      split
      · rw [State.event_frame.isSafe, State.regate_frame.isSafe]
        have e : a2.isSafe u = a1.isSafe u := by
          unfold a2
          split
          · unfold State.setAscSince; split <;> rfl
          · rfl
        rw [e]
        refine Eq.trans ?_ h
        unfold a1 State.isSafe
        rw [State.fld_setFld_other _ _ _ _ (reg_ne regNo_PROT_USTAT (regNo_PROT_BRb_STAT _))]
      · exact h
    · rw [if_neg h, State.event_frame.isSafe]
      unfold b4
      rw [State.updateSafeN_frame.isSafe, State.regate_frame.isSafe]
      have h3 : b3.isSafe u = b2.isSafe u := by
        unfold b3
        have : ∀ (l : List Nat) (v : State), (l.foldl State.clearCarry v).isSafe u = v.isSafe u := by
          intro l
          induction l with
          | nil => intro v; rfl
          | cons x l ih =>
            intro v
            rw [List.foldl_cons, ih]
            unfold State.isSafe State.clearCarry
            rw [State.fld_setReg_other _ _ _ (reg_ne regNo_PROT_USTAT (regNo_PAIRk_CARRY _))]
        rw [this, State.stopSequencer_frame.isSafe]
      have h2 : b2.isSafe u = b1.isSafe u := by
        unfold b2
        split
        · have e : ∀ v : State, (v.setAscSince u).isSafe u = v.isSafe u := fun v => by unfold State.setAscSince; split <;> rfl
          rw [e]
          unfold State.isSafe
          rw [State.fld_setFld_other _ _ _ _ (reg_ne regNo_PROT_USTAT (regNo_PROT_BRb_STAT _)),
            State.fld_setFld_other _ _ _ _ (reg_ne regNo_PROT_USTAT (regNo_PROT_BRb_STAT _))]
        · rfl
      rw [h3, h2]
      unfold b1 State.isSafe
      rw [State.fld_setFld _ _ Fld.PROT_USTAT.SAFE]
      have hw : withBit (s.fld Reg.PROT_USTAT Fld.PROT_USTAT.SAFE) u < 2 ^ Fld.PROT_USTAT.SAFE.width := by
        refine Nat.or_lt_two_pow (s.fld_lt _ _) (Nat.pow_lt_pow_right (by decide) ?_)
        exact Nat.lt_of_lt_of_le hu (by decide)
      rw [Nat.mod_eq_of_lt hw]
      exact hasBit_withBit _ _
  split
  · rw [State.checkConflict_frame.isSafe]; exact hr
  · exact hr

theorem withoutBit_zero (i : Nat) : withoutBit 0 i = 0 := by
  unfold withoutBit
  rw [Nat.zero_testBit, if_neg (by decide)]

theorem safeRequest_does : ∀ (o : Origin) (bridge : Fin 2) (w3 : Word) (s : State), Timely o s →
    Does (.safeRequest o bridge w3) s fun t => Completes o stDone s t ∧ (s.ticking = true → t.isSafe bridge = true) := by
  intro o b w3 s ht
  refine ⟨_, exec_safeRequest.trans rfl, ?_⟩
  have hk : ∀ n : Fin 2, plainDesc opSafeRequest UnitCode.prot n = true := by decide
  have hf := State.safeRequest_frame (s := s.judgedAt) (x1 := b) (x2 := w3)
  obtain ⟨hc, -, h2⟩ := State.runDesc_op (s := s) (o := o) (opc := opSafeRequest)
    (unit := UnitCode.prot) (inst := b) (w3 := w3) (w4 := 0) (w5 := 0) (w6 := 0)
    (hk b) ht (by unfold State.judgeDesc State.judgePower; rw [mkDesc_opc' (by decide), mkDesc_inst' (by omega)]; rfl) hf
  refine ⟨hc, fun hn => ?_⟩
  rw [(h2 (.inl hn)).isSafe]
  exact State.applySafe_isSafe _ _ _ (by omega)

theorem driveEnable_does : ∀ (o : Origin) (unit : Fin 4) (s : State), Timely o s → s.judgedAt.lcs ≠ lcsDecommissioned →
    s.judgedAt.driveRefused unit = false →
    Does (.driveEnable o unit) s fun t => Completes o stDone s t ∧
      (s.ticking = true → s.isSafe unit = true → hasBit t.prot.releasing unit = true) := by
  intro o u s ht h1 h3
  refine ⟨_, exec_driveEnable.trans rfl, ?_⟩
  have hk : ∀ n : Fin 4, plainDesc opDriveEnable UnitCode.prot n = true := by decide
  have hf := State.driveEnable_frame (s := s.judgedAt) (x1 := u)
  have hsafe : s.judgedAt.isSafe u = s.isSafe u := s.judgedAt_frame.isSafe u
  obtain ⟨v, hv, hr⟩ : ∃ v, s.judgedAt.driveEnable u = .done v ∧ (s.isSafe u = true → hasBit v.prot.releasing u = true) := by
    unfold State.driveEnable
    rw [if_neg h1, h3, if_neg (by decide), hsafe]
    by_cases h : s.isSafe u = true
    · rw [h, if_neg (by decide)]
      exact ⟨_, rfl, fun _ => hasBit_withBit _ _⟩
    · rw [Bool.not_eq_true] at h
      rw [h, if_pos (by decide)]
      exact ⟨_, rfl, fun e => by cases e⟩
  rw [hv] at hf
  obtain ⟨hc, -, h2⟩ := State.runDesc_op (s := s) (o := o) (opc := opDriveEnable)
    (unit := UnitCode.prot) (inst := u) (w3 := 0) (w4 := 0) (w5 := 0) (w6 := 0)
    (hk u) ht (by unfold State.judgeDesc State.judgePower; rw [mkDesc_opc' (by decide), mkDesc_inst' (by omega)]; exact hv) hf
  refine ⟨hc, fun hn hs => ?_⟩
  rw [(h2 (.inl hn)).prot (by decide)]
  exact hr hs

/-! ### DISCHARGE -/

theorem State.fld_of_regs {s t : State} (h : t.regs = s.regs) (a : Nat) (f : Bits) : t.fld a f = s.fld a f := by
  unfold State.fld State.reg; rw [h]

theorem State.setDisRes_state (s : State) (b : Bool) :
    (s.setDisRes b).fld Reg.PROT_DIS_STAT Fld.PROT_DIS_STAT.STATE = s.fld Reg.PROT_DIS_STAT Fld.PROT_DIS_STAT.STATE := by
  unfold State.setDisRes
  have hs := State.settle_frame (s := s)
  generalize s.settle = v at hs ⊢
  rw [← hs.fld regNo_PROT_DIS_STAT]
  have e : (v.setFld Reg.PROT_DIS_STAT Fld.PROT_DIS_STAT.RES b.toNat).fld Reg.PROT_DIS_STAT Fld.PROT_DIS_STAT.STATE =
      v.fld Reg.PROT_DIS_STAT Fld.PROT_DIS_STAT.STATE := State.fld_setFld_field _ _ _
  generalize v.setFld Reg.PROT_DIS_STAT Fld.PROT_DIS_STAT.RES b.toNat = x at e ⊢
  extract_lets q p a2
  have e2 : a2.fld Reg.PROT_DIS_STAT Fld.PROT_DIS_STAT.STATE = v.fld Reg.PROT_DIS_STAT Fld.PROT_DIS_STAT.STATE := e
  clear_value a2
  split
  · exact (State.fld_of_regs (s := a2) rfl _ _).trans e2
  · rw [State.regate_frame.fld regNo_PROT_DIS_STAT]; exact e2

theorem State.setDisWind_state (s : State) (w : Nat) :
    (s.setDisWind w).fld Reg.PROT_DIS_STAT Fld.PROT_DIS_STAT.STATE = s.fld Reg.PROT_DIS_STAT Fld.PROT_DIS_STAT.STATE := by
  unfold State.setDisWind
  extract_lets a1
  rw [List.foldl_cons, List.foldl_cons, List.foldl_nil]
  refine Eq.trans (State.fld_of_regs (s := a1) rfl _ _) ?_
  unfold a1
  rw [State.fld_setFld_field]

theorem State.disDone_state (s : State) (ok : Bool) :
    (s.disDone ok).fld Reg.PROT_DIS_STAT Fld.PROT_DIS_STAT.STATE = if ok then 2 else 0 := by
  unfold State.disDone
  extract_lets ms a1
  rw [State.event_frame.fld regNo_PROT_DIS_STAT]
  unfold a1
  rw [State.fld_setFld_other _ _ _ _ (reg_ne regNo_PROT_DIS_STAT regNo_PROT_DIS_TIME), State.fld_setFld _ _ Fld.PROT_DIS_STAT.STATE]
  cases ok <;> decide

theorem State.setDisRes_dis (s : State) (b : Bool) :
    (s.setDisRes b).dis.target = s.dis.target ∧ (s.setDisRes b).dis.deadlineAt = s.dis.deadlineAt := by
  unfold State.setDisRes
  have hs := State.settle_frame (s := s)
  generalize s.settle = v at hs ⊢
  rw [← hs.dis (by decide)]
  generalize hx : v.setFld Reg.PROT_DIS_STAT Fld.PROT_DIS_STAT.RES b.toNat = x
  have e : x.dis = v.dis := by rw [← hx]; rfl
  extract_lets q p a2
  have h2 : a2.dis = x.dis := rfl
  clear_value a2
  rw [e] at h2
  split
  · rw [← h2]; exact ⟨rfl, rfl⟩
  · rw [State.regate_frame.dis (by decide), h2]; exact ⟨rfl, rfl⟩

theorem State.disStart_state (s : State) (res : Bool) (wind : Nat) (target : Word) (dl cause : Nat) :
    (s.disStart res wind target dl cause).fld Reg.PROT_DIS_STAT Fld.PROT_DIS_STAT.STATE = 1 ∧
    (s.disStart res wind target dl cause).dis.target = target ∧
    (s.disStart res wind target dl cause).dis.deadlineAt = s.now + dl * esPerMs := by
  unfold State.disStart
  extract_lets v0 vt eest a1 a2 a3 a4
  have h3 : a3.fld Reg.PROT_DIS_STAT Fld.PROT_DIS_STAT.STATE = 1 := by
    unfold a3
    rw [State.fld_setReg_other _ _ _ (reg_ne regNo_PROT_DIS_STAT regNo_PROT_DIS_TIME), State.fld_setReg_other _ _ _ (reg_ne regNo_PROT_DIS_STAT regNo_PROT_DIS_ERES)]
    unfold a2
    rw [State.fld_setReg_other _ _ _ (reg_ne regNo_PROT_DIS_STAT regNo_PROT_DIS_EEST), State.fld_setReg_same]
    decide
  refine ⟨?_, ?_, ?_⟩
  · rw [State.event_frame.fld regNo_PROT_DIS_STAT]
    unfold a4
    rw [State.setDisWind_state, State.setDisRes_state, h3]
  all_goals
    rw [State.event_frame.dis (by decide)]
    unfold a4
    rw [State.setDisWind_frame.dis (by decide)]
  · rw [(State.setDisRes_dis _ _).1]; rfl
  · rw [(State.setDisRes_dis _ _).2]; rfl

theorem discharge_does :
    (∀ (o : Origin) (method target deadline : Word) (s : State), Timely o s → (⟨0, 2⟩ : Bits).of method = 0 →
      Does (.discharge o method target deadline) s fun t => Completes o stDone s t ∧
        t.fld Reg.PROT_DIS_STAT Fld.PROT_DIS_STAT.STATE = 0) ∧
    (∀ (o : Origin) (method target deadline : Word) (s : State), Timely o s → (⟨0, 2⟩ : Bits).of method % 2 = 1 →
      s.judgedAt.inRun = true → s.judgedAt.disVolt ≠ none → s.judgedAt.disResistorOk = true →
      Does (.discharge o method target deadline) s fun t => Completes o stDone s t ∧
        t.fld Reg.PROT_DIS_STAT Fld.PROT_DIS_STAT.STATE = 1 ∧ t.dis.target = disTarget target ∧
        t.dis.deadlineAt = s.judgedAt.now + disDeadline deadline * esPerMs) := by
  have main : ∀ (o : Origin) (method target deadline : Word) (s u : State) c, Timely o s →
      s.judgedAt.discharge method target deadline = .ok u false c none →
      Does (.discharge o method target deadline) s fun t => Completes o stDone s t ∧
        t.fld Reg.PROT_DIS_STAT Fld.PROT_DIS_STAT.STATE = u.fld Reg.PROT_DIS_STAT Fld.PROT_DIS_STAT.STATE ∧ t.dis = u.dis := by
    intro o w3 w4 w5 s u c ht hv
    refine ⟨_, exec_discharge.trans rfl, ?_⟩
    have hf := State.discharge_frame (s := s.judgedAt) (x1 := w3) (x2 := w4) (x3 := w5)
    rw [hv] at hf
    obtain ⟨hc, h1, -⟩ := State.runDesc_op (s := s) (o := o) (opc := opDischarge)
      (unit := UnitCode.prot) (inst := 0) (w3 := w3) (w4 := w4) (w5 := w5) (w6 := 0)
      (by decide) ht (by unfold State.judgeDesc State.judgePower; rw [mkDesc_opc' (by decide)]; exact hv) hf
    exact ⟨hc, h1.fld regNo_PROT_DIS_STAT, h1.dis (by decide)⟩
  refine ⟨fun o w3 w4 w5 s ht h0 => ?_, fun o w3 w4 w5 s ht h0 h1 h2 h3 => ?_⟩
  · obtain ⟨c, hv⟩ : ∃ c, s.judgedAt.discharge w3 w4 w5 = .ok (s.judgedAt.disDone false) false c none := by
      unfold State.discharge
      extract_lets m wind res cl
      rw [show m = 0 from h0, if_pos rfl]
      exact ⟨_, rfl⟩
    refine (main o w3 w4 w5 s _ c ht hv).mono fun t h => ⟨h.1, h.2.1.trans ?_⟩
    rw [State.disDone_state]; rfl
  · obtain ⟨c, v, wind, res, hv, hn⟩ : ∃ c v wind res, s.judgedAt.discharge w3 w4 w5 =
        .ok (State.disStart v res wind (disTarget w4) (disDeadline w5) 0) false c none ∧ v.now = s.judgedAt.now := by
      unfold State.discharge
      extract_lets m wind res cl
      have hm : m % 2 = 1 := h0
      have hr : res = true := by unfold res; rw [hm, h3]; rfl
      rw [if_neg (by intro e; rw [e] at hm; cases hm), if_neg]
      · exact ⟨_, _, _, _, rfl, State.stopMethods_frame.now (by decide)⟩
      · rw [h1, hr]
        cases hd : s.judgedAt.disVolt with
        | none => exact absurd hd h2
        | some v => simp
    obtain ⟨e1, e2, e3⟩ := v.disStart_state res wind (disTarget w4) (disDeadline w5) 0
    refine (main o w3 w4 w5 s _ c ht hv).mono fun t h => ⟨h.1, h.2.1.trans e1, ?_, ?_⟩
    · rw [h.2.2]; exact e2
    · rw [h.2.2, ← hn]; exact e3

/-! ### MODE_SET and ANGLE_EVENT -/

theorem State.setStat_mode_other (s : State) (m : Nat) (f : Bits) (v : Nat)
    (h : f.lo + f.width ≤ Fld.FLD_MCm_STAT.MODE.lo ∨ Fld.FLD_MCm_STAT.MODE.lo + Fld.FLD_MCm_STAT.MODE.width ≤ f.lo := by decide) :
    (s.setStat m f v).fldMode m = s.fldMode m := s.fld_setFld_field _ _ h

theorem Frame.fldMode {K : Nat} {s t : State} (h : Frame K s t) (m : Nat) (hK : K.testBit 192 = false := by decide) : t.fldMode m = s.fldMode m :=
  h.fld (regNo_FLD_MCm_STAT m) hK

theorem State.setFm_fldMode (s : State) (m k : Nat) (x : FldM) : (s.setFm m x).fldMode k = s.fldMode k :=
  State.fld_of_regs (s := s) rfl _ _

theorem State.setStart_fldMode (s : State) (m st : Nat) : (s.setStart m st).fldMode m = s.fldMode m := by
  unfold State.setStart
  rw [State.refreshHold_frame.fldMode m]
  exact (State.setFm_fldMode _ _ _ _).trans (s.setStat_mode_other m Fld.FLD_MCm_STAT.START st)

theorem State.dropHo_fldMode (s : State) (m : Nat) : (s.dropHo m).fldMode m = s.fldMode m := by
  unfold State.dropHo
  exact (State.setFm_fldMode _ _ _ _).trans (s.setStat_mode_other m Fld.FLD_MCm_STAT.DEFER 0)

theorem State.enterIdle_fldMode (s : State) (m : Nat) : (s.enterIdle m).fldMode m = s.fldMode m := by
  unfold State.enterIdle
  rw [State.setStart_fldMode]
  exact (State.setFm_fldMode _ _ _ _).trans (s.dropHo_fldMode m)

theorem State.startMode_fldMode (s : State) (m : Nat) : (s.startMode m).fldMode m = s.fldMode m := by
  unfold State.startMode State.enterWatch State.enterCatch
  split
  · rfl
  split
  · extract_lets w rev s1 x s2 s3
    have h1 : s1.fldMode m = s.fldMode m := State.catchSource_frame.fldMode m
    have h2 : s2.fldMode m = s.fldMode m := by
      unfold s2
      rw [State.setStart_fldMode]
      exact (State.setFm_fldMode _ _ _ _).trans h1
    have h3 : s3.fldMode m = s.fldMode m := by
      unfold s3
      rw [State.event_frame.fldMode m, State.raiseHoFirst_frame.fldMode m, h2]
    split
    · rw [State.event_frame.fldMode m, h3]
    · exact h3
  · exact (State.setStart_fldMode _ _ _).trans (State.setFm_fldMode _ _ _ _)

theorem State.takeMode_mode (s : State) (m mode : Nat) (h : mode < 8) : (s.takeMode m mode).fldMode m = mode := by
  unfold State.takeMode
  extract_lets old w a0 a1 a2 a3 a4
  have h1 : a1.fldMode m = mode := by
    unfold a1
    rw [State.event_frame.fldMode m]
    refine (a0.fld_setFld (Reg.FLD_MCm_STAT m) Fld.FLD_MCm_STAT.MODE mode).trans (Nat.mod_eq_of_lt ?_)
    exact Nat.lt_of_lt_of_le h (by decide)
  clear_value a1
  have h2 : a2.fldMode m = mode := by
    unfold a2
    split
    · unfold State.clearLost
      rw [State.endCause_frame.fldMode m, State.endCause_frame.fldMode m, State.setStat_mode_other _ _ Fld.FLD_MCm_STAT.LOST]; exact h1
    · exact h1
  clear_value a2
  have h3 : a3.fldMode m = mode := by
    unfold a3
    split
    · rw [State.enterIdle_fldMode]; exact h2
    · exact h2
  clear_value a3
  have h4 : a4.fldMode m = mode := (State.refreshHold_frame.fldMode m).trans h3
  split
  · rw [State.startMode_fldMode]; exact h4
  · exact h4

theorem modeSet_does : ∀ (o : Origin) (machine : Fin 2) (mode blend : Word) (s : State), Timely o s →
    s.judgedAt.modeRefused machine (modeOf mode) = false →
    Does (.modeSet o machine mode blend) s fun t => Completes o stDone s t ∧
      (s.ticking = true →
        (s.judgedAt.allSafe machine = true ∨ s.fldStart machine = stWatch → t.fldMode machine = modeOf mode) ∧
        (modeOf mode ≠ s.fldMode machine → s.judgedAt.allSafe machine = false → s.fldStart machine ≠ stWatch →
          (t.fm machine).ho = some ⟨some (modeOf mode), min 255 blend.toNat, 0⟩ ∧ t.fldMode machine = s.fldMode machine)) := by
  intro o m w3 w4 s ht hr
  refine ⟨_, exec_modeSet.trans rfl, ?_⟩
  have hk : ∀ n : Fin 2, plainDesc opModeSet UnitCode.fld n = true := by decide
  have hf := State.modeSet_frame (s := s.judgedAt) (x1 := m) (x2 := w3) (x3 := w4)
  have hmode : s.judgedAt.fldMode m = s.fldMode m := s.judgedAt_frame.fldMode m
  have hstart : s.judgedAt.fldStart m = s.fldStart m := s.judgedAt_frame.fld (regNo_FLD_MCm_STAT m)
  have hlt : modeOf w3 < 8 := by unfold modeOf; split <;> omega
  obtain ⟨u, c, hv, h1, h2⟩ : ∃ u c, s.judgedAt.modeSet m w3 w4 = .ok u false c none ∧
      (s.judgedAt.allSafe m = true ∨ s.fldStart m = stWatch → u.fldMode m = modeOf w3) ∧
      (modeOf w3 ≠ s.fldMode m → s.judgedAt.allSafe m = false → s.fldStart m ≠ stWatch →
        (u.fm m).ho = some ⟨some (modeOf w3), min 255 w4.toNat, 0⟩ ∧ u.fldMode m = s.fldMode m) := by
    unfold State.modeSet
    extract_lets mode blend cl
    rw [show s.judgedAt.modeRefused m mode = false from hr, if_neg (by decide), hmode, hstart]
    by_cases hm : mode = s.fldMode m
    · rw [if_pos hm]
      refine ⟨_, _, rfl, fun _ => ?_, fun h => absurd hm h⟩
      exact (s.judgedAt.dropHo_fldMode m).trans (hmode.trans hm.symm)
    · rw [if_neg hm]
      by_cases ha : (s.judgedAt.allSafe m || s.fldStart m == stWatch) = true
      · rw [if_pos ha]
        refine ⟨_, _, rfl, fun _ => State.takeMode_mode _ _ _ hlt, fun _ h1 h2 => ?_⟩
        rw [h1, Bool.false_or, beq_iff_eq] at ha
        exact absurd ha h2
      · rw [if_neg ha]
        refine ⟨_, _, rfl, fun h => ?_, fun _ _ _ => ⟨?_, ?_⟩⟩
        · refine absurd ?_ ha
          rcases h with h | h
          · rw [h]; rfl
          · rw [h]; simp
        · unfold State.fm State.setFm
          rw [tabGet_tabSet, if_pos rfl]
        · exact (State.setFm_fldMode _ _ _ _).trans ((s.judgedAt.dropHo_fldMode m).trans hmode)
  rw [hv] at hf
  obtain ⟨hc, -, h3⟩ := State.runDesc_op (s := s) (o := o) (opc := opModeSet)
    (unit := UnitCode.fld) (inst := m) (w3 := w3) (w4 := w4) (w5 := 0) (w6 := 0)
    (hk m) ht (by unfold State.judgeDesc State.judgePower; rw [mkDesc_opc' (by decide), mkDesc_inst' (by omega)]; exact hv) hf
  refine ⟨hc, fun hn => ?_⟩
  have hfm : State.fm (s.runDesc o (mkDesc o opModeSet UnitCode.fld m w3 w4 0 0)) m = u.fm m := by
    unfold State.fm
    rw [(h3 (.inl hn)).fldc (by decide)]
  rw [(h3 (.inl hn)).fldMode, hfm]
  exact ⟨h1, h2⟩

theorem angleEvent_does : ∀ (o : Origin) (slot : Fin 16) (angle action : Word) (s : State), Timely o s →
    Does (.angleEvent o slot angle action) s fun t => Completes o stDone s t ∧
      t.reg (Reg.FLD_EVs_ANG slot) = angle ∧ t.reg (Reg.FLD_EVs_ACT slot) = actionWord action := by
  intro o i w3 w4 s ht
  refine ⟨_, exec_angleEvent.trans rfl, ?_⟩
  have hk : ∀ n : Fin 16, plainDesc opAngleEvent UnitCode.fld n = true := by decide
  have hf := State.angleEvent_frame (s := s.judgedAt) (x1 := i) (x2 := w3) (x3 := w4)
  obtain ⟨hc, h1, -⟩ := State.runDesc_op (s := s) (o := o) (opc := opAngleEvent)
    (unit := UnitCode.fld) (inst := i) (w3 := w3) (w4 := w4) (w5 := 0) (w6 := 0)
    (hk i) ht (by unfold State.judgeDesc State.judgePower; rw [mkDesc_opc' (by decide), mkDesc_inst' (by omega)]; rfl) hf
  refine ⟨hc, ?_, ?_⟩
  · rw [h1.reg (regNo_FLD_EVs_ANG _), State.imageWrite_frame.reg (regNo_FLD_EVs_ANG _), State.imageWrite_frame.reg (regNo_FLD_EVs_ANG _),
      State.actWritten_frame.reg (regNo_FLD_EVs_ANG _), State.reg_setReg_other _ _ (reg_ne (regNo_FLD_EVs_ANG _) (regNo_FLD_EVs_ACT _)),
      State.reg_setReg_same]
  · rw [h1.reg (regNo_FLD_EVs_ACT _), State.imageWrite_frame.reg (regNo_FLD_EVs_ACT _), State.imageWrite_frame.reg (regNo_FLD_EVs_ACT _),
      State.actWritten_frame.reg (regNo_FLD_EVs_ACT _), State.reg_setReg_same]

/-! ### CHANNEL_READMIT -/

theorem State.enterCheck_state (s : State) (c : Nat) (b : Bool) : (s.enterCheck c b).chState c = chCheck := by
  unfold State.enterCheck
  extract_lets a1
  refine (State.fld_of_regs (s := a1) rfl _ _).trans ?_
  refine (State.fld_of_regs (s := (s.setChState c chCheck).setChCause c 0) rfl _ _).trans ?_
  unfold State.setChCause
  rw [State.fld_setFld_field]
  unfold State.setChState
  rw [State.fld_setFld _ _ Fld.POS_CHc_STAT.STATE]
  decide

theorem channelReadmit_does : ∀ (o : Origin) (channel : Fin 2) (s : State), Timely o s →
    (s.chState channel = chQuarantine → (s.ch channel).delivers = true) →
    Does (.channelReadmit o channel) s fun t => Completes o stDone s t ∧
      t.chState channel = if s.chState channel = chQuarantine then chCheck else s.chState channel := by
  intro o c s ht hd
  refine ⟨_, exec_channelReadmit.trans rfl, ?_⟩
  have hk : ∀ n : Fin 2, plainDesc opChannelReadmit UnitCode.pos n = true := by decide
  have hf := State.channelReadmit_frame (s := s.judgedAt) (c := c)
  have hst : s.judgedAt.chState c = s.chState c := s.judgedAt_frame.fld (regNo_POS_CHc_STAT c)
  have hch : s.judgedAt.ch c = s.ch c := by unfold State.ch; rw [s.judgedAt_frame.pos (by decide)]
  obtain ⟨u, hv, h1⟩ : ∃ u, s.judgedAt.channelReadmit c = .done u ∧
      u.chState c = if s.chState c = chQuarantine then chCheck else s.chState c := by
    unfold State.channelReadmit
    rw [hst, hch]
    by_cases h : s.chState c = chQuarantine
    · rw [if_neg (fun e => e h), hd h, if_pos rfl, if_pos h]
      exact ⟨_, rfl, State.enterCheck_state _ _ _⟩
    · rw [if_pos h, if_neg h]
      exact ⟨_, rfl, hst⟩
  rw [hv] at hf
  obtain ⟨hc, h2, -⟩ := State.runDesc_op (s := s) (o := o) (opc := opChannelReadmit)
    (unit := UnitCode.pos) (inst := c) (w3 := 0) (w4 := 0) (w5 := 0) (w6 := 0)
    (hk c) ht (by unfold State.judgeDesc State.judgePower; rw [mkDesc_opc' (by decide), mkDesc_inst' (by omega)]; exact hv) hf
  exact ⟨hc, (h2.fld (regNo_POS_CHc_STAT c)).trans h1⟩

end Sys2Proof.Machine
end

