-- ==== Sys2Proof/Laws/EffectDescSys.lean ====
section
/-! SUPPORT. Descriptors of self-test, hold-up supply, clocks, power and memory scan. -/

set_option Elab.async false

namespace Sys2Proof.Machine

/-! ### A clock that moves leaves its timebase running or stopped -/

theorem State.tbRun_setTb (s : State) (n m : Nat) (x : Tb) (h : x.running = (s.tb n).running) : (s.setTb n x).tbRun m = s.tbRun m := by
  unfold State.tbRun State.tb State.setTb
  rw [tabGet_tabSet]
  split
  · next e => subst e; exact h
  · rfl

theorem Frame.tbRun {K : Nat} {s t : State} (h : Frame K s t) (n : Nat) (hK : K.testBit bit_tbs = false := by decide) : t.tbRun n = s.tbRun n := by
  unfold State.tbRun State.tb
  rw [h.tbs hK]

theorem State.moveTb_tbRun (f : Option Nat) (s : State) (n m : Nat) : (State.moveTb f s n).tbRun m = s.tbRun m := by
  unfold State.moveTb
  extract_lets new cur
  have hc : (s.setTbClk n new).tbRun m = s.tbRun m := State.setTbClk_frame.tbRun m
  have hcn : ((s.setTbClk n new).tb n) = s.tb n := by
    unfold State.tb; rw [State.setTbClk_frame.tbs (by decide)]
  split
  · exact State.tbRun_setTb _ _ _ _ rfl
  split
  · exact (State.tbRun_setTb _ _ _ _ (by rw [hcn])).trans hc
  split
  · unfold State.moveTbNow
    extract_lets a1
    have h1 : a1.tbRun m = s.tbRun m := (State.tbRun_setTb _ _ _ _ (by rw [hcn])).trans hc
    clear_value a1
    split
    · exact h1
    · rw [State.postCoarse_frame.tbRun m]
      exact (show (a1.setFld (Reg.TBn_STAT n) Fld.TBn_STAT.COARSE 1).tbRun m = a1.tbRun m by unfold State.tbRun State.tb; rw [State.setFld_pwm]).trans h1
  · exact State.tbRun_setTb _ _ _ _ rfl

theorem State.moveDomains_tbRun (s : State) (f : Option Nat) (m : Nat) : (s.moveDomains f).tbRun m = s.tbRun m := by
  unfold State.moveDomains
  have hs := State.settle_frame (s := s)
  generalize s.settle = v at hs ⊢
  generalize hw : ({ v with clk.homed := s.homing } : State) = w
  have h1 : w.tbRun m = s.tbRun m := by
    rw [← hw, ← hs.tbRun m]; rfl
  have h2 : ((w.moveFabric.moveAdc f.isSome).showCarry).tbRun m = s.tbRun m := by
    rw [State.showCarry_frame.tbRun m, State.moveAdc_frame.tbRun m, State.moveFabric_frame.tbRun m, h1]
  dsimp only
  generalize (w.moveFabric.moveAdc f.isSome).showCarry = y at h2 ⊢
  rw [List.foldl_cons, List.foldl_cons, List.foldl_cons, List.foldl_cons, List.foldl_nil, State.moveTb_tbRun, State.moveTb_tbRun,
    State.moveTb_tbRun, State.moveTb_tbRun, h2]

/-! ### BIST_REQUEST and UNIT_READMIT -/

theorem State.unit_setUnit (s : State) (c v : Nat) (h : v < 8) : (s.setUnit c v).unit c = v := by
  unfold State.unit State.setUnit
  rw [State.fld_setFld _ _ Fld.BST_Uu.STATE]
  exact Nat.mod_eq_of_lt h

theorem State.unit_setActive (s : State) (c v : Nat) : (s.setActive v).unit c = s.unit c := by
  unfold State.setActive State.unit
  rw [State.fld_setFld_other _ _ _ _ (reg_ne (regNo_BST_Uu _) regNo_BST_STAT)]

theorem State.unit_bst (u : State) (c : Nat) (x : Bst) : ({ u with bst := x } : State).unit c = u.unit c :=
  State.fld_of_regs (s := u) rfl _ _

theorem State.beginTest_unit (s : State) (r : TestRun) : (s.beginTest r).unit r.code = unitTest := by
  unfold State.beginTest
  rw [State.unit_bst, State.unit_setActive]
  exact State.unit_setUnit _ _ _ (by decide)

theorem State.beginTest_tests (s : State) (r : TestRun) : (s.beginTest r).bst.tests = s.bst.tests ++ [r] := by
  have h := (State.setActive_frame (s := s.setUnit r.code unitTest) (x1 := r.code)).bst (by decide)
  rw [State.setUnit_frame.bst (by decide)] at h
  unfold State.beginTest
  generalize (s.setUnit r.code unitTest).setActive r.code = u at h ⊢
  rw [← h]

theorem State.beginTest_effect (s : State) (r : TestRun) :
    (s.beginTest r).unit r.code = unitTest ∧ (s.beginTest r).bst.tests = s.bst.tests ++ [r] :=
  ⟨s.beginTest_unit r, s.beginTest_tests r⟩

theorem Frame.unit {K : Nat} {s t : State} (h : Frame K s t) (c : Nat) (hK : K.testBit 344 = false := by decide) : t.unit c = s.unit c :=
  h.fld (regNo_BST_Uu c) hK

/-- Whatever else a test changes, it leaves the states of the units, the list of tests and the run of the tick. -/
def TestKept (u v : State) : Prop := (∀ c, v.unit c = u.unit c) ∧ v.bst.tests = u.bst.tests ∧ v.ticking = u.ticking

theorem TestKept.of {K : Nat} {u v : State} (h : Frame K u v) (h1 : K.testBit 344 = false := by decide)
    (h2 : K.testBit bit_bst = false := by decide) (h3 : K.testBit bit_tbs = false := by decide) : TestKept u v :=
  ⟨fun c => h.unit c h1, by rw [h.bst h2], h.ticking h3⟩

theorem State.unit_acq (u : State) (c : Nat) (x : Acq) : ({ u with acq := x } : State).unit c = u.unit c :=
  State.fld_of_regs (s := u) rfl _ _

theorem TestKept.comparator (u : State) (m : Nat) (x : Acq) : TestKept u { u.setSub m true with acq := x } := by
  obtain ⟨h1, h2, h3⟩ := TestKept.of (State.setSub_frame (s := u) (x1 := m) (x2 := true))
  generalize u.setSub m true = v at h1 h2 h3 ⊢
  exact ⟨fun c => (State.unit_acq _ _ _).trans (h1 c), h2, h3⟩

theorem TestKept.pll (u : State) (p : Nat) (x : PllRun) : TestKept u (((u.setPll p x).restartPll p).moveDomains none) := by
  refine ⟨fun c => ?_, ?_, ?_⟩
  · rw [State.moveDomains_frame.unit, State.restartPll_frame.unit, State.setPll_frame.unit]
  · rw [State.moveDomains_frame.bst (by decide), State.restartPll_frame.bst (by decide), State.setPll_frame.bst (by decide)]
  · unfold State.ticking
    rw [State.moveDomains_tbRun, State.restartPll_frame.tbRun 0, State.setPll_frame.tbRun 0]

theorem State.takeOut_keeps (s : State) (r : TestRun) : (s.takeOut r).bst.tests = s.bst.tests ∧ (s.takeOut r).ticking = s.ticking := by
  unfold State.takeOut
  split <;> exact ⟨rfl, rfl⟩

theorem State.isolate_kept (s : State) (r : TestRun) : TestKept ((s.takeOut r).beginTest r) (s.isolate r) := by
  unfold State.isolate
  generalize (s.takeOut r).beginTest r = u
  dsimp only
  split
  · exact TestKept.of State.showSpare_frame
  · generalize classOf r.code = k
    cases k with
    | comparator => exact TestKept.comparator _ _ _
    | pll => exact TestKept.pll _ _ _
    | can => exact TestKept.of State.stopCan_frame
    | _ => exact ⟨fun _ => rfl, rfl, rfl⟩

theorem State.isolate_effect (s : State) (r : TestRun) :
    (s.isolate r).unit r.code = unitTest ∧ (s.isolate r).bst.tests = s.bst.tests ++ [r] ∧ (s.isolate r).ticking = s.ticking := by
  obtain ⟨h1, h2, h3⟩ := s.isolate_kept r
  obtain ⟨g1, g2⟩ := s.takeOut_keeps r
  exact ⟨(h1 _).trans (State.beginTest_unit _ r), h2.trans ((State.beginTest_tests _ r).trans (by rw [g1])),
    h3.trans ((State.beginTest_frame.ticking).trans g2)⟩

theorem bst_desc {s u : State} {o : Origin} {opc : Nat} {inst : Fin 256} {w3 : Word} {cl : Bool} (ho : opc = opBistRequest ∨ opc = opUnitReadmit)
    (hx : unitExists inst = true) (ht : Timely o s)
    (hv : s.judgedAt.judgeDesc s.judgedAt (mkDesc o opc UnitCode.bst inst w3 0 0 0) (s.copied (mkDesc o opc UnitCode.bst inst w3 0 0 0)) =
      .ok u false cl none) (hp : u.cmd.posting = s.cmd.posting) (htk : u.ticking = s.ticking) :
    Completes o stDone s (s.runDesc o (mkDesc o opc UnitCode.bst inst w3 0 0 0)) ∧
    Frame Foot.descEnd u (s.runDesc o (mkDesc o opc UnitCode.bst inst w3 0 0 0)) := by
  have hopc : opc < 2 ^ 8 := by rcases ho with rfl | rfl <;> decide
  have hbad : (mkDesc o opc UnitCode.bst inst w3 0 0 0).bad = none := by
    refine mkDesc_bad hopc (by decide) rfl (by rcases ho with rfl | rfl <;> decide) ?_
    unfold Desc.targetBad
    rw [mkDesc_opc' hopc, mkDesc_inst' (by omega), mkDesc_unit, Nat.mod_eq_of_lt (by decide : UnitCode.bst < 2 ^ 5)]
    have hi : instances opc UnitCode.bst = 256 := by rcases ho with rfl | rfl <;> decide
    rw [hi, decide_eq_false (by omega), Bool.false_or, if_neg (by rcases ho with rfl | rfl <;> decide),
      if_neg (by rcases ho with rfl | rfl <;> decide), if_neg (by rcases ho with rfl | rfl <;> decide),
      if_neg (by rcases ho with rfl | rfl <;> decide), if_pos ho, hx]
    rfl
  obtain ⟨h1, h2, -⟩ := State.runDesc_ok hbad (State.loadBadAt_none _ (by rw [mkDesc_opc' hopc]; rcases ho with rfl | rfl <;> decide)) ht hv hp htk
  exact ⟨h2, h1⟩

theorem unitReadmit_does : ∀ (o : Origin) (code : Fin 256) (s : State), Timely o s → unitExists code = true → s.unit code = unitFailed →
    s.judgedAt.condOk = true → s.judgedAt.noConversion code = false →
    Does (.unitReadmit o code) s fun t => Completes o stDone s t ∧ t.unit code = unitTest ∧
      t.bst.tests = s.bst.tests ++ [⟨code, 3, 1, unitFailed, true⟩] := by
  intro o c s ht hx hu hcond hnc
  refine ⟨_, exec_unitReadmit.trans rfl, ?_⟩
  have hv : s.judgedAt.unitReadmit c = .done (s.judgedAt.isolate ⟨c, 3, 1, unitFailed, true⟩) := by
    unfold State.unitReadmit
    rw [s.judgedAt_frame.unit, hu, hcond, hnc, if_neg]
    simp
  obtain ⟨h1, h2, h3⟩ := s.judgedAt.isolate_effect ⟨c, 3, 1, unitFailed, true⟩
  obtain ⟨hc, hf⟩ := bst_desc (s := s) (o := o) (w3 := 0) (.inr rfl) hx ht
    (by unfold State.judgeDesc State.judgeSystem; rw [mkDesc_opc' (by decide), mkDesc_inst' (by omega)]; exact hv)
    ((State.isolate_frame.posting (by decide)).trans s.judgedAt_keeps.1) (h3.trans s.judgedAt_keeps.2)
  refine ⟨hc, (hf.unit _).trans h1, ?_⟩
  rw [hf.bst (by decide), h2, s.judgedAt_frame.bst (by decide)]

theorem bistRequest_does : ∀ (o : Origin) (code : Fin 256) (kind : Word) (s : State), Timely o s → unitExists code = true →
    s.unit code = unitFree → classOf code ≠ .memory → s.judgedAt.lcs ≠ 3 → s.judgedAt.condOk = true →
    s.judgedAt.noConversion code = false → Does (.bistRequest o code kind) s fun t => Completes o stDone s t ∧ t.unit code = unitTest ∧
      t.bst.tests = s.bst.tests ++ [⟨code, min 3 kind.toNat, 1, unitFree, false⟩] := by
  intro o c w3 s ht hx hu hcl hlc hcond hnc
  refine ⟨_, exec_bistRequest.trans rfl, ?_⟩
  have hu' : s.judgedAt.unit c = unitFree := (s.judgedAt_frame.unit _).trans hu
  have hv : s.judgedAt.bistRequest c w3 = .ok (s.judgedAt.isolate ⟨c, min 3 w3.toNat, 1, unitFree, false⟩) false (decide (3 < w3.toNat)) none := by
    unfold State.bistRequest
    extract_lets st park out kind a
    have hst : st = unitFree := hu'
    have hout : out = true := by unfold out; rw [hst]; rfl
    rw [if_neg hlc, hout, if_neg (by simp), hst, hcond, if_neg (by decide), if_neg (fun h => hcl h.1), hnc, if_neg (by decide),
      if_neg (fun h => absurd h.1 (by decide))]
    have ha : a = s.judgedAt.isolate ⟨c, min 3 w3.toNat, 1, unitFree, false⟩ := by
      unfold a
      split
      · unfold State.startTest
        rw [hu']
        rfl
      · rw [hst]
    rw [ha]
    rfl
  obtain ⟨h1, h2, h3⟩ := s.judgedAt.isolate_effect ⟨c, min 3 w3.toNat, 1, unitFree, false⟩
  obtain ⟨hc, hf⟩ := bst_desc (s := s) (o := o) (w3 := w3) (.inl rfl) hx ht
    (by unfold State.judgeDesc State.judgeSystem; rw [mkDesc_opc' (by decide), mkDesc_inst' (by omega)]; exact hv)
    ((State.isolate_frame.posting (by decide)).trans s.judgedAt_keeps.1) (h3.trans s.judgedAt_keeps.2)
  refine ⟨hc, (hf.unit _).trans h1, ?_⟩
  rw [hf.bst (by decide), h2, s.judgedAt_frame.bst (by decide)]

/-! ### LCS_TOKEN, HOLDUP_CHECK, LEDGER_NOTE -/

theorem lcsToken_does : ∀ (o : Origin) (offset length : Word) (s : State), Timely o s → offset.toNat + 176 ≤ sramSize →
    s.judgedAt.lcs ≠ 3 → s.judgedAt.quiet = true → s.fld Reg.BST_CNT Fld.BST_CNT.TOKFAIL < 8 →
    Does (.lcsToken o offset length) s fun t => Completes o stDone s t ∧
      t.bst.tokens = s.bst.tokens ++ [⟨s.sourceWords offset.toNat 176⟩] := by
  intro o w3 w4 s ht hx hl hq hc
  refine ⟨_, exec_lcsToken.trans rfl, ?_⟩
  have hbad : (mkDesc o opLcsToken UnitCode.bst 0 w3 w4 0 0).bad = none := by
    refine mkDesc_bad (by decide) (by decide) rfl rfl ?_
    unfold Desc.targetBad
    rw [mkDesc_opc' (by decide), mkDesc_inst' (by decide), mkDesc_unit, if_neg (by decide), if_neg (by decide), if_neg (by decide),
      if_neg (by decide), if_neg (by decide), if_pos rfl]
    show (false || decide (sramSize < w3.toNat + 176)) = false
    rw [decide_eq_false (by omega)]; rfl
  have hcopy : s.copied (mkDesc o opLcsToken UnitCode.bst 0 w3 w4 0 0) = s.sourceWords w3.toNat 176 := by
    unfold State.copied
    rw [mkDesc_opc' (by decide), if_neg (by decide), if_pos rfl]
    rfl
  have hv : s.judgedAt.judgeDesc s.judgedAt (mkDesc o opLcsToken UnitCode.bst 0 w3 w4 0 0) (s.copied (mkDesc o opLcsToken UnitCode.bst 0 w3 w4 0 0)) =
      .doneClamp { s.judgedAt with bst.tokens := s.judgedAt.bst.tokens ++ [⟨s.sourceWords w3.toNat 176⟩] } (w4 != 176) := by
    unfold State.judgeDesc State.judgeSystem
    rw [mkDesc_opc' (by decide), hcopy]
    show s.judgedAt.lcsToken w4 _ = _
    unfold State.lcsToken
    rw [if_neg hl, hq, s.judgedAt_frame.fld regNo_BST_CNT, if_neg]
    simp
    omega
  obtain ⟨hf, hcc, -⟩ := State.runDesc_ok hbad (State.loadBadAt_none _ (by rw [mkDesc_opc' (by decide)]; decide)) ht hv
    s.judgedAt_keeps.1 s.judgedAt_keeps.2
  refine ⟨hcc, ?_⟩
  rw [hf.bst (by decide)]
  show s.judgedAt.bst.tokens ++ _ = _
  rw [s.judgedAt_frame.bst (by decide)]

theorem Frame.hldState {K : Nat} {s t : State} (h : Frame K s t) (hK : K.testBit 347 = false := by decide) : t.hldState = s.hldState :=
  h.fld regNo_HLD_STAT hK

theorem State.setHldState_state (s : State) (v : Nat) (h : v < 2 ^ Fld.HLD_STAT.STATE.width) : (s.setHldState v).hldState = v := by
  unfold State.setHldState State.hldState
  rw [State.fld_setFld _ _ Fld.HLD_STAT.STATE]
  exact Nat.mod_eq_of_lt h

theorem holdupCheck_does : ∀ (o : Origin) (s : State), Timely o s → s.hldState ≠ hldChecking → hasBit s.pwr.rails 2 = false →
    Does (.holdupCheck o) s fun t => Completes o stDone s t ∧ t.hldState = hldChecking := by
  intro o s ht h1 h2
  refine ⟨_, exec_holdupCheck.trans rfl, ?_⟩
  have hv : s.judgedAt.holdupCheck = .done s.judgedAt.startHoldupCheck := by
    unfold State.holdupCheck
    rw [s.judgedAt_frame.hldState, s.judgedAt_frame.pwr (by decide), h2, if_neg]
    simp [h1]
  have hf := State.holdupCheck_frame (s := s.judgedAt)
  rw [hv] at hf
  obtain ⟨hc, h3, -⟩ := State.runDesc_op (s := s) (o := o) (opc := opHoldupCheck)
    (unit := UnitCode.hld) (inst := 0) (w3 := 0) (w4 := 0) (w5 := 0) (w6 := 0)
    (by decide) ht (by unfold State.judgeDesc State.judgeSystem; rw [mkDesc_opc' (by decide)]; exact hv) hf
  exact ⟨hc, h3.hldState.trans (State.setHldState_state _ _ (by decide))⟩

/-! ### TICK_REALIGN, POWER_STATE and SCAN_START -/

theorem Frame.inForce {K : Nat} {s t : State} (h : Frame K s t) (a : Nat) (hK : K.testBit bit_pwmRest = false := by decide) :
    t.inForce a = s.inForce a := by
  have e := congrArg Pwm.force (h.pwmRest hK)
  exact congrArg (fun x => Store.get regDefault x a) e

theorem Frame.synced {K : Nat} {s t : State} (h : Frame K s t) (hK : K.testBit bit_pwmRest = false := by decide) :
    t.synced = s.synced := by
  unfold State.synced State.ffld
  rw [h.inForce _ hK]

theorem tickRealign_does : ∀ (o : Origin) (s : State), Timely o s → s.fld Reg.PROT_USTAT Fld.PROT_USTAT.SAFE = 0x1F → s.synced = true →
    s.vtValid = true → s.judgedAt.lenAhead + s.judgedAt.realignC ≤ 3200000 →
    Does (.tickRealign o) s fun t => Completes o stDone s t ∧ (t.tb 0).realign = true ∧ (t.tb 0).running = (s.tb 0).running := by
  intro o s ht h1 h2 h3 h4
  refine ⟨_, exec_tickRealign.trans rfl, ?_⟩
  have htb : ∀ n, s.judgedAt.tb n = s.tb n := fun n => by unfold State.tb; rw [s.judgedAt_frame.tbs (by decide)]
  obtain ⟨x, hv, hx1, hx2⟩ : ∃ x, s.judgedAt.tickRealign = .done (s.judgedAt.setTb 0 x) ∧ x.realign = true ∧ x.running = (s.tb 0).running := by
    unfold State.tickRealign
    have e1 : s.judgedAt.synced = true := (s.judgedAt_frame.synced).trans h2
    have e2 : s.judgedAt.vtValid = true := (s.judgedAt_frame.on regNo_CLK_STAT).trans h3
    rw [s.judgedAt_frame.fld regNo_PROT_USTAT, h1, e1, e2, if_neg]
    · exact ⟨_, rfl, rfl, by dsimp only; rw [htb]⟩
    · simp
      omega
  obtain ⟨hf, hc, -⟩ := State.runDesc_plain (s := s) (u := s.judgedAt.setTb 0 x) (o := o) (opc := opTickRealign) (image := false) (clamped := false) (value := none)
    (unit := UnitCode.clk) (inst := 0) (w3 := 0) (w4 := 0) (w5 := 0) (w6 := 0)
    (by decide) ht (by unfold State.judgeDesc State.judgeSystem; rw [mkDesc_opc' (by decide)]; exact hv)
    ⟨s.judgedAt_keeps.1, (State.tbRun_setTb _ _ _ _ (by rw [hx2, htb])).trans s.judgedAt_keeps.2⟩
  have e : (s.runDesc o (mkDesc o opTickRealign UnitCode.clk 0 0 0 0 0)).tb 0 = x := by
    unfold State.tb
    rw [hf.tbs (by decide)]
    unfold State.setTb
    rw [tabGet_tabSet, if_pos rfl]
  dsimp only
  rw [e]
  exact ⟨hc, hx1, hx2⟩

theorem Frame.powerState {K : Nat} {s t : State} (h : Frame K s t) (hK : K.testBit 361 = false := by decide) : t.powerState = s.powerState :=
  h.fld regNo_PWR_STATE hK

theorem powerState_does : ∀ (o : Origin) (target : Word) (s : State), Timely o s → s.on Reg.SYS_RSTCAUSE Fld.SYS_RSTCAUSE.FDIE = false →
    Does (.powerState o target) s fun t =>
      (target.toNat ≤ 2 → target.toNat = s.powerState → Completes o stDone s t ∧ t.powerState = s.powerState ∧ t.pwr = s.pwr) ∧
      (target = 1 ∨ target = 2 → s.powerState = pwrRun → s.judgedAt.parkAdmitted = true → s.ticking = true →
        Completes o stDone s t ∧ t.powerState = s.powerState ∧ t.pwr.enterAt = some (s.tick + 1, target.toNat)) := by
  intro o w s ht hfd
  refine ⟨_, exec_powerState.trans rfl, ?_⟩
  have hfd' : s.judgedAt.on Reg.SYS_RSTCAUSE Fld.SYS_RSTCAUSE.FDIE = false := (s.judgedAt_frame.on regNo_SYS_RSTCAUSE).trans hfd
  have hps : s.judgedAt.powerState = s.powerState := s.judgedAt_frame.powerState
  have hpw : s.judgedAt.pwr = s.pwr := s.judgedAt_frame.pwr (by decide)
  have main : ∀ (u : State) c, s.judgedAt.powerStateSet w = .ok u false c none → u.cmd.posting = s.judgedAt.cmd.posting →
      u.ticking = s.judgedAt.ticking →
      Completes o stDone s (s.runDesc o (mkDesc o opPowerState UnitCode.pwr 0 w 0 0 0)) ∧
      Frame Foot.descEnd u (s.runDesc o (mkDesc o opPowerState UnitCode.pwr 0 w 0 0 0)) := by
    intro u c hv h1 h2
    obtain ⟨hf, hc, -⟩ := State.runDesc_plain (s := s) (o := o) (opc := opPowerState)
      (unit := UnitCode.pwr) (inst := 0) (w3 := w) (w4 := 0) (w5 := 0) (w6 := 0)
      (by decide) ht (by unfold State.judgeDesc State.judgeSystem; rw [mkDesc_opc' (by decide)]; exact hv)
      ⟨h1.trans s.judgedAt_keeps.1, h2.trans s.judgedAt_keeps.2⟩
    exact ⟨hc, hf⟩
  constructor
  · intro hle he
    have hv : s.judgedAt.powerStateSet w = .ok s.judgedAt false (decide (2 < w.toNat)) none := by
      unfold State.powerStateSet
      extract_lets tg cl now
      have htg : tg = now := by unfold tg now; rw [if_neg (by omega), hps]; exact he
      rw [hfd', if_neg (by decide), if_pos htg]
      rfl
    obtain ⟨hc, hf⟩ := main _ _ hv rfl rfl
    exact ⟨hc, hf.powerState.trans hps, (hf.pwr (by decide)).trans hpw⟩
  · intro hw hrun hadm htk
    have h12 : w.toNat = 1 ∨ w.toNat = 2 := by rcases hw with rfl | rfl <;> decide
    have hv : s.judgedAt.powerStateSet w = .ok { s.judgedAt with pwr.enterAt := some (s.judgedAt.tick + 1, w.toNat) } false (decide (2 < w.toNat)) none := by
      unfold State.powerStateSet
      extract_lets tg cl now
      have htg : tg = w.toNat := by unfold tg; rw [if_neg (by omega)]
      have hnow : now = 0 := by unfold now; rw [hps]; exact hrun
      rw [hfd', if_neg (by decide), hnow, htg, if_neg (by omega), if_neg (by unfold pwrRun; omega), hadm, if_neg (by decide),
        if_neg (by decide), s.judgedAt_keeps.2, htk, if_pos rfl]
      rfl
    obtain ⟨hc, hf⟩ := main _ _ hv rfl rfl
    refine ⟨hc, hf.powerState.trans hps, ?_⟩
    rw [hf.pwr (by decide)]
    show some (s.judgedAt.tick + 1, w.toNat) = _
    rw [s.judgedAt_tick]

theorem scanStart_does : ∀ (o : Origin) (slot : Fin 8) (s : State), Timely o s →
    Does (.scanStart o slot) s fun t => Completes o stDone s t ∧
      t.fld (Reg.CHK_SCs_STAT slot) Fld.CHK_SCs_STAT.RUN = 1 ∧ (t.scan slot).target = 0 ∧ (t.scan slot).report = true := by
  intro o n s ht
  refine ⟨_, exec_scanStart.trans rfl, ?_⟩
  have hk : ∀ n : Fin 8, plainDesc opScanStart UnitCode.chk n = true := by decide
  have hf := State.scanStart_frame (s := s.judgedAt) (x1 := n) (x2 := true)
  obtain ⟨hc, h1, -⟩ := State.runDesc_op (s := s) (u := s.judgedAt.scanStart n true) (o := o) (opc := opScanStart)
    (unit := UnitCode.chk) (inst := n) (w3 := 0) (w4 := 0) (w5 := 0) (w6 := 0) (image := false) (clamped := false) (value := none)
    (hk n) ht (by unfold State.judgeDesc State.judgeSystem; rw [mkDesc_opc' (by decide), mkDesc_inst' (by omega)]; rfl) hf
  have e : (s.runDesc o (mkDesc o opScanStart UnitCode.chk n 0 0 0 0)).scan n = (s.judgedAt.scanStart n true).scan n := by
    unfold State.scan; rw [h1.chk (by decide)]
  dsimp only
  rw [e]
  refine ⟨hc, ?_, ?_⟩
  · rw [h1.fld (regNo_CHK_SCs_STAT _)]
    unfold State.scanStart
    rw [State.fld_of_regs (s := s.judgedAt.setFld (Reg.CHK_SCs_STAT n) Fld.CHK_SCs_STAT.RUN 1) (by rfl) _ _, State.fld_setFld _ _ Fld.CHK_SCs_STAT.RUN]
    rfl
  · unfold State.scanStart State.scan State.setScan
    rw [tabGet_tabSet, if_pos rfl]
    exact ⟨rfl, rfl⟩

/-! ### LEDGER_NOTE -/

theorem State.ledgerEntry_psn (s : State) (a b c d e : Nat) (psn : Word) (n : Nat) (ws : List Word) :
    (s.ledgerEntry a b c d e psn n ws).psn = psn.toNat := rfl

theorem State.ledgerEntry_word (s : State) (a b c d e : Nat) (psn : Word) (n : Nat) (ws : List Word) {i : Nat} {w : Word} (h : ws[i]? = some w) :
    (s.ledgerEntry a b c d e psn n ws).words[4 + i]? = some w := by
  unfold State.ledgerEntry
  dsimp only
  have hl : i < ws.length := (List.getElem?_eq_some_iff.1 h).1
  rw [List.append_assoc, List.append_assoc, List.getElem?_append_right (by simp), List.getElem?_append_left (by simp only [List.length_cons, List.length_nil]; omega)]
  rw [← h]
  congr 1
  simp only [List.length_cons, List.length_nil]
  omega

theorem ledgerNote_does : ∀ (o : Origin) (w3 w4 w5 w6 : Word) (s : State), Timely o s →
    Does (.ledgerNote o w3 w4 w5 w6) s fun t => Completes o stDone s t ∧
      (s.NoRelease → ∃ pre e, t.led.sent = pre ++ [e] ∧ e.psn = (s.reg Reg.CMD_PSN).toNat ∧
        ∀ i w, [w3, w4, w5, w6][i]? = some w → e.words[4 + i]? = some w) := by
  intro o w3 w4 w5 w6 s ht
  refine ⟨_, exec_ledgerNote.trans rfl, ?_⟩
  have hf := State.ledgerNote_frame (s := s.judgedAt) (x1 := [w3, w4, w5, w6])
  obtain ⟨hc, -, h1⟩ := State.runDesc_op (s := s) (u := s.judgedAt.ledgerNote [w3, w4, w5, w6]) (o := o) (opc := opLedgerNote)
    (unit := UnitCode.hld) (inst := 0) (w3 := w3) (w4 := w4) (w5 := w5) (w6 := w6) (image := false) (clamped := false) (value := none)
    (by decide) ht (by unfold State.judgeDesc State.judgeSystem; rw [mkDesc_opc' (by decide)]; rfl) hf
  refine ⟨hc, fun hn => ?_⟩
  have h2 := h1 (NoRelease.of hf hn)
  rw [h2.led (by decide)]
  unfold State.ledgerNote
  extract_lets psn u
  have hp : psn = s.reg Reg.CMD_PSN := s.judgedAt_frame.reg regNo_CMD_PSN
  refine ⟨u.led.sent, _, rfl, ?_, fun i w hw => ?_⟩
  · rw [State.ledgerEntry_psn, hp]
  · refine State.ledgerEntry_word _ _ _ _ _ _ _ _ _ ?_
    rw [List.getElem?_append_left (List.getElem?_eq_some_iff.1 hw).1]
    exact hw

end Sys2Proof.Machine
end

