-- ==== Sys2Proof/Laws/EffectHic.lean ====
section
/-! SUPPORT. What the commands of the host complex do: interrupts, semaphores, watchdogs, flash, pins and the debugger. -/

set_option Elab.async false

namespace Sys2Proof.Machine

/-- A claim answers the best source and takes it out of the pending edges; with none it answers 0. -/
theorem irqClaim_does : ∀ (c : Fin 2) (s : State), Does (.irqClaim c) s fun t =>
    t.bus = .value (BitVec.ofNat 32 (s.bestSource c)) ∧
    (s.bestSource c = 0 → t.hic = s.hic) ∧
    (s.bestSource c ≠ 0 → t.hic.claims = (s.bestSource c, c.val) :: s.hic.claims ∧
      t.hic.edges = withoutBit s.hic.edges (s.bestSource c)) := by
  intro c s
  refine Does.via exec_irqClaim ?_
  unfold execIrqClaim State.irqClaim
  dsimp only
  generalize s.bestSource c = id
  by_cases h : id = 0
  · rw [if_pos h]
    exact ⟨_, rfl, by rw [h], fun _ => rfl, fun h' => absurd h h'⟩
  · rw [if_neg h]
    exact ⟨_, rfl, rfl, fun h' => absurd h' h, fun _ => ⟨rfl, rfl⟩⟩

/-- A completion ends the claim of the writing core only. -/
theorem irqComplete_does : ∀ (c : Fin 2) (w : Word) (s : State), Does (.irqComplete c w) s fun t =>
    (∀ id k, (id, k) ∈ t.hic.claims ↔ (id, k) ∈ s.hic.claims ∧ ¬(id = w.toNat ∧ k = c.val)) ∧ t.hic.edges = s.hic.edges := by
  intro c w s
  refine ⟨_, exec_irqComplete.trans rfl, ?_, rfl⟩
  intro id k
  show (id, k) ∈ s.hic.claims.filter _ ↔ _
  rw [List.mem_filter]
  simp only [Bool.not_eq_true', Bool.and_eq_false_imp, beq_iff_eq, beq_eq_false_iff_ne, ne_eq, not_and]

/-- A read of a semaphore answers its owner; a free one is taken by the core that reads it, never by the debugger. -/
theorem semRead_does : ∀ (n : Fin 16) (r : Fin 3) (s : State), Does (.semRead n r) s fun t =>
    t.bus = .value (BitVec.ofNat 32 (s.fld (Reg.HIC_SEMn n) Fld.HIC_SEMn.OWNER)) ∧
    t.fld (Reg.HIC_SEMn n) Fld.HIC_SEMn.OWNER =
      if s.fld (Reg.HIC_SEMn n) Fld.HIC_SEMn.OWNER = 0 ∧ r.val < 2 then r.val + 1 else s.fld (Reg.HIC_SEMn n) Fld.HIC_SEMn.OWNER := by
  intro n r s
  refine ⟨_, exec_semRead.trans rfl, rfl, ?_⟩
  show (ite _ _ _ : State).fld _ _ = _
  split
  · next h =>
    rw [s.fld_setFld (Reg.HIC_SEMn n) Fld.HIC_SEMn.OWNER]
    exact Nat.mod_eq_of_lt (by have := h.2; show _ < 4; omega)
  · rfl

/-- 0 written by its owner frees a semaphore; any other write leaves it. -/
theorem semFree_does : ∀ (n : Fin 16) (c : Fin 2) (w : Word) (s : State), Does (.semFree n c w) s fun t =>
    t.fld (Reg.HIC_SEMn n) Fld.HIC_SEMn.OWNER =
      if w = 0 ∧ s.fld (Reg.HIC_SEMn n) Fld.HIC_SEMn.OWNER = c.val + 1 then 0 else s.fld (Reg.HIC_SEMn n) Fld.HIC_SEMn.OWNER := by
  intro n c w s
  refine ⟨_, exec_semFree.trans rfl, ?_⟩
  show (State.semWrite _ _ _ _).fld _ _ = _
  unfold State.semWrite
  split
  · rw [s.fld_setFld (Reg.HIC_SEMn n) Fld.HIC_SEMn.OWNER]
    exact Nat.zero_mod _
  · rfl

/-- CAUSE is what a violation writes last into the status of its watchdog. -/
theorem State.wdViolation_cause (s : State) (w cause : Nat) (h : cause < 4) :
    (s.wdViolation w cause).fld (Reg.HIC_WDw_STAT w) Fld.HIC_WDw_STAT.CAUSE = cause := by
  unfold State.wdViolation
  extract_lets u v u1 dly due src x
  have hf := State.f3_frame (s := x) (x1 := ⟨UnitCode.hic, 0xD00, 3, 0, detailOf [(0, w), (8, cause)]⟩) (x2 := causeTag 0xD00 w) (x3 := 0x1F)
  rw [hf.fld (regNo_HIC_WDw_STAT w)]
  refine Eq.trans (State.fld_of_regs (s := u) rfl _ _) ?_
  rw [s.fld_setFld (Reg.HIC_WDw_STAT w) Fld.HIC_WDw_STAT.CAUSE]
  exact Nat.mod_eq_of_lt h

theorem State.wd_setWd (s : State) (w : Nat) (x : Wd) : (s.setWd w x).wd w = x := by
  unfold State.wd State.setWd
  exact (tabGet_tabSet _ _ _ _ _).trans (if_pos rfl)

/-- The service of a watchdog: a write of another core is counted and nothing else, the first word in the window is
remembered, the second within 1 µs restarts the count; an early first word, a wrong word and a second word without its first
are violations. -/
theorem wdogService_does :
    (∀ (w c : Fin 2) (v : Word) (n : Nat) (s : State), c ≠ w → Does (.wdogService w c v n) s fun t =>
      t.fld (Reg.HIC_WDw_STAT w) Fld.HIC_WDw_STAT.FOREIGN = satAdd 8 (s.fld (Reg.HIC_WDw_STAT w) Fld.HIC_WDw_STAT.FOREIGN) 1 ∧
      t.hic = s.hic) ∧
    (∀ (w : Fin 2) (n : Nat) (s : State), s.wdEn w = true → (s.at n).wdCount w < s.wdClose w → (s.wd w).first = none →
      s.wdOpen w ≤ (s.at n).wdCount w → Does (.wdogService w w 0xC35A n) s fun t =>
        t.wd w = { s.wd w with first := some (max s.now n) }) ∧
    (∀ (w : Fin 2) (n m : Nat) (s : State), s.wdEn w = true → (s.at n).wdCount w < s.wdClose w → (s.wd w).first = some m →
      max s.now n ≤ m + 6400 → Does (.wdogService w w 0x3CA5 n) s fun t =>
        (t.wd w).since = max s.now n ∧ (t.wd w).first = none ∧ (t.wd w).warned = false) ∧
    (∀ (w : Fin 2) (n : Nat) (s : State), s.wdEn w = true → (s.at n).wdCount w < s.wdClose w → (s.wd w).first = none →
      (s.at n).wdCount w < s.wdOpen w → Does (.wdogService w w 0xC35A n) s fun t =>
        t.fld (Reg.HIC_WDw_STAT w) Fld.HIC_WDw_STAT.CAUSE = 0) ∧
    (∀ (w : Fin 2) (v : Word) (n : Nat) (s : State), s.wdEn w = true → (s.at n).wdCount w < s.wdClose w →
      v ≠ 0xC35A → v ≠ 0x3CA5 → Does (.wdogService w w v n) s fun t =>
        t.fld (Reg.HIC_WDw_STAT w) Fld.HIC_WDw_STAT.CAUSE = 2) ∧
    (∀ (w : Fin 2) (n : Nat) (s : State), s.wdEn w = true → (s.at n).wdCount w < s.wdClose w → (s.wd w).first = none →
      Does (.wdogService w w 0x3CA5 n) s fun t => t.fld (Reg.HIC_WDw_STAT w) Fld.HIC_WDw_STAT.CAUSE = 3) := by
  have hop : ∀ (w : Fin 2) (v : Word) (n : Nat) (s : State), s.wdEn w = true → (s.at n).wdCount w < s.wdClose w →
      (s.at n).wdSvcWritten w w v = (s.at n).wdService w v := by
    intro w v n s he hc
    unfold State.wdSvcWritten
    rw [if_neg (fun h => h rfl), if_pos (show (s.at n).wdEn w = true from he), if_neg]
    intro h
    have h1 := (Bool.and_eq_true _ _).mp h
    exact absurd (of_decide_eq_true h1.1) (Nat.not_le.mpr hc)
  have hx : ∀ (w : Fin 2) (v : Word) (n : Nat) (s : State) (P : State → Prop), s.wdEn w = true → (s.at n).wdCount w < s.wdClose w →
      (∀ u : State, u.hic = ((s.at n).wdService w v).hic → u.regs = ((s.at n).wdService w v).regs → P u) →
      Does (.wdogService w w v n) s P := by
    intro w v n s P he hc hP
    refine ⟨_, exec_wdogService.trans rfl, ?_⟩
    rw [hop w v n s he hc]
    exact hP _ rfl rfl
  refine ⟨?_, ?_, ?_, ?_, ?_, ?_⟩
  · intro w c v n s h
    have hn : c.val ≠ w.val := fun e => h (Fin.ext e)
    refine ⟨_, exec_wdogService.trans rfl, ?_⟩
    have e : (s.at n).wdSvcWritten w c v = (s.at n).count (Reg.HIC_WDw_STAT w) Fld.HIC_WDw_STAT.FOREIGN := by
      unfold State.wdSvcWritten
      exact if_pos hn
    rw [e]
    refine ⟨?_, rfl⟩
    exact (s.at n).fld_count (Reg.HIC_WDw_STAT w) Fld.HIC_WDw_STAT.FOREIGN 1
  · intro w n s he hc hf ho
    refine hx w _ n s _ he hc fun u h1 _ => ?_
    have e : (s.at n).wdService w 0xC35A = (s.at n).setWd w { (s.at n).wd w with first := some (s.at n).now } := by
      unfold State.wdService
      rw [show ((s.at n).wd w).first = none from hf]
      dsimp only
      exact (if_pos (by decide)).trans (if_neg (Nat.not_lt.mpr ho))
    rw [e] at h1
    unfold State.wd at ⊢
    rw [h1]
    exact State.wd_setWd _ _ _
  · intro w n m s he hc hf ho
    refine hx w _ n s _ he hc fun u h1 _ => ?_
    have e : (s.at n).wdService w 0x3CA5 = (s.at n).wdRestart w := by
      unfold State.wdService
      rw [show ((s.at n).wd w).first = some m from hf]
      dsimp only
      exact (if_pos (by decide)).trans (if_pos ho)
    rw [e] at h1
    have h2 : u.wd w = _ := (congrArg (fun x : Hic => tabGet ({} : Wd) x.wds w) h1).trans (State.wd_setWd (s.at n) w _)
    rw [h2]
    exact ⟨rfl, rfl, rfl⟩
  · intro w n s he hc hf ho
    refine hx w _ n s _ he hc fun u _ h1 => ?_
    have e : (s.at n).wdService w 0xC35A = (s.at n).wdViolation w 0 := by
      unfold State.wdService
      rw [show ((s.at n).wd w).first = none from hf]
      dsimp only
      exact (if_pos (by decide)).trans (if_pos ho)
    rw [e] at h1
    exact (State.fld_of_regs (s := (s.at n).wdViolation w 0) h1 _ _).trans (State.wdViolation_cause _ _ _ (by decide))
  · intro w v n s he hc hv1 hv2
    refine hx w _ n s _ he hc fun u _ h1 => ?_
    have e : (s.at n).wdService w v = (s.at n).wdViolation w 2 := by
      unfold State.wdService
      cases ((s.at n).wd w).first with
      | none =>
        dsimp only
        rw [if_neg hv1, if_neg hv2]
      | some m =>
        dsimp only
        rw [if_neg hv2, if_neg hv1]
    rw [e] at h1
    exact (State.fld_of_regs (s := (s.at n).wdViolation w 2) h1 _ _).trans (State.wdViolation_cause _ _ _ (by decide))
  · intro w n s he hc hf
    refine hx w _ n s _ he hc fun u _ h1 => ?_
    have e : (s.at n).wdService w 0x3CA5 = (s.at n).wdViolation w 3 := by
      unfold State.wdService
      rw [show ((s.at n).wd w).first = none from hf]
      dsimp only
      rw [if_neg (by decide), if_pos (by decide)]
    rw [e] at h1
    exact (State.fld_of_regs (s := (s.at n).wdViolation w 3) h1 _ _).trans (State.wdViolation_cause _ _ _ (by decide))

/-- The pre-warning of a running watchdog comes once, and interrupts. -/
theorem wdogPrewarning_does : ∀ (w : Fin 2) (s : State), s.wdEn w = true →
    s.fld (Reg.HIC_WDw_CFG w) Fld.HIC_WDw_CFG.PRE ≠ 0 → (s.wd w).warned = false → s.wdFrozen w = false →
    Does (.wdogPrewarning w) s fun t => (t.wd w).warned = true ∧ hasBit t.hic.edges (22 + w.val) = true := by
  intro w s h1 h2 h3 h4
  refine Does.via exec_wdogPrewarning ?_
  unfold execWdogPrewarning
  dsimp only
  rw [h1, h3, h4, if_neg (by simpa using h2)]
  refine ⟨_, rfl, ?_, hasBit_withBit _ _⟩
  exact congrArg Wd.warned (State.wd_setWd _ w.val _)

/-- A running watchdog that is not frozen and reaches CLOSE violates with CAUSE 1; one whose second word is missing with CAUSE 3. -/
theorem wdogClose_does :
    (∀ (w : Fin 2) (s : State), s.wdEn w = true → s.wdFrozen w = false → Does (.wdogClose w false) s fun t =>
      t.fld (Reg.HIC_WDw_STAT w) Fld.HIC_WDw_STAT.CAUSE = 1) ∧
    (∀ (w : Fin 2) (m : Nat) (s : State), s.wdEn w = true → (s.wd w).first = some m → Does (.wdogClose w true) s fun t =>
      t.fld (Reg.HIC_WDw_STAT w) Fld.HIC_WDw_STAT.CAUSE = 3) := by
  refine ⟨?_, ?_⟩
  · intro w s h1 h2
    refine Does.via exec_wdogClose ?_
    unfold execWdogClose
    dsimp only
    rw [h1, h2, if_neg (by decide), if_neg (by decide), if_neg (by decide)]
    exact ⟨_, rfl, State.wdViolation_cause _ _ _ (by decide)⟩
  · intro w m s h1 h2
    refine Does.via exec_wdogClose ?_
    unfold execWdogClose
    dsimp only
    rw [h1, h2, if_neg (by decide), if_pos rfl]
    exact ⟨_, rfl, State.wdViolation_cause _ _ _ (by decide)⟩

/-- A flash command that ends clears BUSY and interrupts; a read brings its first data word. -/
theorem xspCommandDone_does : ∀ (data : List Byte) (s : State), s.on Reg.XSP_STAT Fld.XSP_STAT.BUSY = true →
    Does (.xspCommandDone data) s fun t => t.on Reg.XSP_STAT Fld.XSP_STAT.BUSY = false ∧ hasBit t.hic.edges 20 = true := by
  intro data s h
  refine Does.via exec_xspCommandDone ?_
  unfold execXspCommandDone
  rw [h, if_neg (by decide)]
  extract_lets n u
  refine ⟨_, rfl, ?_, hasBit_withBit _ _⟩
  show (u.setFld Reg.XSP_STAT Fld.XSP_STAT.BUSY 0).on Reg.XSP_STAT Fld.XSP_STAT.BUSY = false
  unfold State.on
  rw [u.fld_setFld Reg.XSP_STAT Fld.XSP_STAT.BUSY]
  rfl

/-- In 8D mode a read without its strobe is an access fault, sets TMO and ends the reservation of its core. -/
theorem xspReadTimeout_does :
    (∀ (c cs : Fin 2) (s : State), s.on Reg.XSP_CFG Fld.XSP_CFG.MODE = true → Does (.xspReadTimeout c cs) s fun t =>
      t.on Reg.XSP_STAT Fld.XSP_STAT.TMO = true) ∧
    (∀ (c cs : Fin 2) (s : State), s.on Reg.XSP_CFG Fld.XSP_CFG.MODE = false → Does (.xspReadTimeout c cs) s fun t => t = s) := by
  refine ⟨?_, ?_⟩
  · intro c cs s h
    refine Does.via exec_xspReadTimeout ?_
    unfold execXspReadTimeout
    rw [h, if_pos rfl]
    refine ⟨_, rfl, ?_⟩
    unfold State.xspTimeout
    extract_lets u v
    rw [State.event_frame.on regNo_XSP_STAT]
    show (s.setFld Reg.XSP_STAT Fld.XSP_STAT.TMO 1).on Reg.XSP_STAT Fld.XSP_STAT.TMO = true
    unfold State.on
    rw [s.fld_setFld Reg.XSP_STAT Fld.XSP_STAT.TMO]
    rfl
  · intro c cs s h
    refine Does.via exec_xspReadTimeout ?_
    unfold execXspReadTimeout
    rw [h, if_neg (by decide)]
    exact ⟨_, rfl, rfl⟩

/-- An edge at a GPIO ball: its input bit shows the level, and its status bit is set where its configuration asks for
that edge. -/
theorem gpioEdge_does : ∀ (b : Fin 32) (up : Bool) (s : State), Does (.gpioEdge b up) s fun t =>
    bitAt (t.reg Reg.GPIO_IN) b = up ∧
    (∀ k, k < 32 → k ≠ b.val → bitAt (t.reg Reg.GPIO_IN) k = bitAt (s.reg Reg.GPIO_IN) k) ∧
    bitAt (t.reg Reg.GPIO_IRQSTAT) b = (bitAt (s.reg Reg.GPIO_IRQSTAT) b ||
      bitAt (s.reg (Reg.GPIO_IRQCFG (b / 16))) (2 * (b.val % 16) + if up then 0 else 1)) := by
  intro b up s
  refine Does.via exec_gpioEdge ?_
  unfold execGpioEdge
  extract_lets cfg u
  have hne : Reg.GPIO_IRQSTAT ≠ Reg.GPIO_IN := by decide
  have hi : u.reg Reg.GPIO_IN = setBit (s.reg Reg.GPIO_IN) b up := s.reg_setReg_same _ _
  have hs : u.reg Reg.GPIO_IRQSTAT = s.reg Reg.GPIO_IRQSTAT := s.reg_setReg_other _ hne
  have hcfg : ((cfg = 3 ∨ (cfg = 1 ∧ up) ∨ (cfg = 2 ∧ !up)) ↔
      bitAt (s.reg (Reg.GPIO_IRQCFG (b / 16))) (2 * (b.val % 16) + if up then 0 else 1) = true) := by
    have hb : ∀ i, i < 2 → bitAt (s.reg (Reg.GPIO_IRQCFG (b / 16))) (2 * (b.val % 16) + i) = cfg.testBit i := by
      intro i hi
      show _ = Nat.testBit (Bits.of _ _) i
      rw [Bits.testBit_of]
      simp [bitAt, hi]
    have hlt : cfg < 4 := Bits.of_lt ⟨2 * (b.val % 16), 2⟩ _
    cases up with
    | true =>
      rw [if_pos rfl, hb 0 (by decide)]
      revert hlt
      generalize cfg = n
      intro hlt
      have : n = 0 ∨ n = 1 ∨ n = 2 ∨ n = 3 := by omega
      rcases this with rfl | rfl | rfl | rfl <;> decide
    | false =>
      rw [if_neg (by decide), hb 1 (by decide)]
      revert hlt
      generalize cfg = n
      intro hlt
      have : n = 0 ∨ n = 1 ∨ n = 2 ∨ n = 3 := by omega
      rcases this with rfl | rfl | rfl | rfl <;> decide
  by_cases h : cfg = 3 ∨ (cfg = 1 ∧ up) ∨ (cfg = 2 ∧ !up)
  · rw [if_pos h]
    refine ⟨_, rfl, ?_, ?_, ?_⟩
    · rw [u.reg_setReg_other _ hne.symm, hi]
      exact bitAt_setBit _ _ _ b.isLt
    · intro k hk hne'
      rw [u.reg_setReg_other _ hne.symm, hi]
      exact bitAt_setBit_other _ _ hk hne'
    · rw [State.reg_setReg_same, hs, hcfg.mp h, Bool.or_true]
      exact bitAt_setBit _ _ _ b.isLt
  · rw [if_neg h]
    refine ⟨_, rfl, ?_, ?_, ?_⟩
    · rw [hi]
      exact bitAt_setBit _ _ _ b.isLt
    · intro k hk hne'
      rw [hi]
      exact bitAt_setBit_other _ _ hk hne'
    · rw [hs, Bool.eq_false_iff.mpr (fun e => h (hcfg.mpr e)), Bool.or_false]

/-- The machine timer: its interrupt is pending once MTIME has reached MTIMECMP. -/
theorem mtimecmpReached_does : ∀ (c : Fin 2) (n : Nat) (s : State), Does (.mtimecmpReached c n) s fun t =>
    t.now = max s.now n ∧
    ((s.at n).mtimecmp c ≤ (s.at n).mtime → hasBit t.hic.mtip c = true) ∧
    ((s.at n).mtime < (s.at n).mtimecmp c → t.hic = s.hic) := by
  intro c n s
  refine Does.via exec_mtimecmpReached ?_
  unfold execMtimecmpReached
  dsimp only
  by_cases h : (s.at n).mtimecmp c ≤ (s.at n).mtime
  · rw [if_pos h]
    exact ⟨_, rfl, rfl, fun _ => hasBit_withBit _ _, fun h' => absurd h (Nat.not_le.mpr h')⟩
  · rw [if_neg h]
    exact ⟨_, rfl, rfl, fun h' => absurd h' h, fun _ => rfl⟩

/-- A TAP instruction that the life-cycle state refuses loads as BYPASS. -/
theorem tapInstruction_does : ∀ (n : Nat) (s : State), Does (.tapInstruction n) s fun t =>
    (n ≤ 1 → t.hic.tap = n) ∧ (s.lcs = 0 → t.hic.tap = n) ∧
    (s.lcs = 1 ∨ s.lcs = 3 → 1 < n → t.hic.tap = 0) ∧ t.regs = s.regs := by
  intro n s
  refine ⟨_, exec_tapInstruction.trans rfl, ?_, ?_, ?_, rfl⟩
  · intro h
    refine if_pos ?_
    unfold State.tapAdmits
    rw [decide_eq_true h]
    rfl
  · intro h
    refine if_pos ?_
    unfold State.tapAdmits
    rw [h]
    simp
  · intro h hn
    refine if_neg ?_
    unfold State.tapAdmits
    rw [decide_eq_false (Nat.not_le.mpr hn)]
    rcases h with h | h <;> rw [h] <;> simp

theorem hasBit_withoutBit (n i : Nat) : hasBit (withoutBit n i) i = false := by
  unfold hasBit withoutBit
  by_cases h : n.testBit i = true
  · rw [if_pos h]
    rw [Nat.testBit_eq_decide_div_mod_eq] at h ⊢
    have e := Nat.sub_mul_div n (2 ^ i) 1
    rw [Nat.mul_one] at e
    rw [e]
    simp only [decide_eq_true_eq, decide_eq_false_iff_not] at h ⊢
    omega
  · rw [if_neg h]
    simpa using h

theorem State.wdHold_halted (s : State) (c : Nat) : (s.wdHold c).hic.halted = s.hic.halted := by
  unfold State.wdHold
  dsimp only
  split <;> split <;> rfl

/-- A count that was held, and that nothing freezes any more, goes on. -/
theorem State.wdHold_resumes {s : State} {c e : Nat} (he : (s.wd c).held = some e) (hf : s.wdFrozen c = false) :
    ((s.wdHold c).wd c).held = none ∧ ((s.wdHold c).wd c).since = s.now - e := by
  unfold State.wdHold
  dsimp only
  rw [he]
  dsimp only
  rw [hf, if_neg (by decide), State.wd_setWd]
  exact ⟨rfl, rfl⟩

/-- The debugger halts and resumes a core where the life-cycle state admits it; a watchdog that freezes goes on where it
stood. -/
theorem debugHalt_does :
    (∀ (c : Fin 2) (b : Bool) (s : State), s.debugOpen = false → Does (.debugHalt c b) s fun t => t = s) ∧
    (∀ (c : Fin 2) (s : State), s.debugOpen = true → Does (.debugHalt c true) s fun t => hasBit t.hic.halted c = true) ∧
    (∀ (c : Fin 2) (e : Nat) (s : State), s.debugOpen = true → (s.wd c).held = some e → Does (.debugHalt c false) s fun t =>
      (t.wd c).held = none ∧ (t.wd c).since = s.now - e) := by
  refine ⟨?_, ?_, ?_⟩
  · intro c b s h
    refine Does.via exec_debugHalt ?_
    unfold execDebugHalt
    rw [h, if_pos (by decide)]
    exact ⟨_, rfl, rfl⟩
  · intro c s h
    refine Does.via exec_debugHalt ?_
    unfold execDebugHalt
    rw [h, if_neg (by decide)]
    refine ⟨_, rfl, ?_⟩
    rw [State.wdHold_halted]
    exact hasBit_withBit _ _
  · intro c e s h he
    refine Does.via exec_debugHalt ?_
    unfold execDebugHalt
    rw [h, if_neg (by decide)]
    refine ⟨_, rfl, ?_⟩
    exact State.wdHold_resumes he (by
      unfold State.wdFrozen
      rw [show hasBit (if (false : Bool) = true then withBit s.hic.halted c else withoutBit s.hic.halted c) c = false from
        hasBit_withoutBit _ _, Bool.and_false])

end Sys2Proof.Machine
end

