-- ==== Sys2Proof/Laws/EffectCaravans.lean ====
section
/-! SUPPORT. Fetch slots, the cut-off, and the application of caravans. -/

set_option Elab.async false

namespace Sys2Proof.Machine

/-! ### FETCH_SLOT -/

/-- Which of two rings a slot serves. -/
def State.betterRing (s : State) (best : Option Nat) (n : Nat) : Option Nat :=
  match best with
  | none => some n
  | some b => if s.prio b < s.prio n then some n else some b

theorem State.betterRing_fold (s : State) (l : List Nat) (b : Option Nat) {n : Nat} (h : l.foldl s.betterRing b = some n) :
    (n ∈ l ∨ b = some n) ∧ (∀ m ∈ l, s.prio m ≤ s.prio n) ∧ ∀ m, b = some m → s.prio m ≤ s.prio n := by
  induction l generalizing b with
  | nil =>
    refine ⟨.inr h, fun m hm => (nomatch hm), fun m e => ?_⟩
    cases Option.some.inj (e.symm.trans h)
    exact Nat.le_refl _
  | cons x l ih =>
    obtain ⟨h1, h2, h3⟩ := ih _ h
    cases b with
    | none =>
      refine ⟨.inl ?_, fun m hm => ?_, fun m e => (nomatch e)⟩
      · rcases h1 with h1 | h1
        · exact List.mem_cons_of_mem _ h1
        · rw [Option.some.inj h1]; exact List.mem_cons_self
      · rcases List.mem_cons.1 hm with rfl | hm
        · exact h3 _ rfl
        · exact h2 _ hm
    | some b =>
      unfold State.betterRing at h1 h3
      dsimp only at h1 h3
      split at h1
      · next hlt =>
        rw [if_pos hlt] at h3
        have hx := h3 _ rfl
        refine ⟨.inl ?_, fun m hm => ?_, fun m e => ?_⟩
        · rcases h1 with h1 | h1
          · exact List.mem_cons_of_mem _ h1
          · rw [Option.some.inj h1]; exact List.mem_cons_self
        · rcases List.mem_cons.1 hm with rfl | hm
          · exact hx
          · exact h2 _ hm
        · obtain rfl := Option.some.inj e
          omega
      · next hlt =>
        rw [if_neg hlt] at h3
        have hb := h3 _ rfl
        refine ⟨h1.imp (List.mem_cons_of_mem _) id, fun m hm => ?_, fun m e => ?_⟩
        · rcases List.mem_cons.1 hm with rfl | hm
          · omega
          · exact h2 _ hm
        · obtain rfl := Option.some.inj e
          exact hb

theorem State.served_spec {s : State} {n : Nat} (h : s.served = some n) :
    n < 16 ∧ s.fetchable n = true ∧ ∀ m, m < 16 → s.fetchable m = true → s.prio m ≤ s.prio n := by
  have h' : (((List.range 16).map fun i => (s.cmd.lastServed + 1 + i) % 16).filter s.fetchable).foldl s.betterRing none = some n := h
  obtain ⟨h1, h2, -⟩ := State.betterRing_fold s _ _ h'
  have hm := h1.resolve_right (fun e => nomatch e)
  rw [List.mem_filter, List.mem_map] at hm
  obtain ⟨⟨i, -, hi⟩, hf⟩ := hm
  refine ⟨by omega, hf, fun m hm hfm => h2 m ?_⟩
  rw [List.mem_filter, List.mem_map]
  refine ⟨⟨(m + 16 - (s.cmd.lastServed + 1) % 16) % 16, List.mem_range.2 (by omega), by omega⟩, hfm⟩

theorem State.join_sq (s : State) (n : Nat) (m : Staged) :
    ((s.join n m).sq n).fetch = (s.sq n).fetch ∧ ((s.join n m).sq n).epoch = (s.sq n).epoch ∧
    ((s.join n m).sq n).opened = (if m.desc.cont then (s.sq n).opened ++ [m] else []) := by
  unfold State.join
  extract_lets r c a1 x a2 a3
  split
  · rw [State.refreshRings_frame.sq, State.sq_setSq, if_pos rfl]
    exact ⟨rfl, rfl, rfl⟩
  · have h3 : a3.sq n = a2.sq n := by
      unfold a3
      split
      · exact State.findLate_frame.sq n
      · rfl
    have h2 : a2.sq n = a1.sq n := rfl
    rw [State.refreshRings_frame.sq, h3, h2]
    unfold a1
    rw [State.sq_setSq, if_pos rfl]
    exact ⟨rfl, rfl, rfl⟩

theorem State.fetched_sq (s : State) (n : Nat) (ecc : Fin 3) :
    (s.fetched n ecc).sq n = { s.sq n with
      fetch := (nextSlot (s.sqSize n) (s.sq n).fetch (s.sq n).epoch).1
      epoch := (nextSlot (s.sqSize n) (s.sq n).fetch (s.sq n).epoch).2 } := by
  unfold State.fetched
  extract_lets r u next x
  have hs : u.sqSize n = s.sqSize n := by
    unfold u; split
    · exact State.fld_setFld_other _ _ _ _ (reg_ne (regNo_CMD_SQn_CFG n) regNo_HIC_ECC)
    · rfl
  rw [State.showFetch_frame.sq, State.sq_setSq, if_pos rfl]
  unfold next
  rw [hs]

theorem State.fetched_served (s : State) (n : Nat) (ecc : Fin 3) : (s.fetched n ecc).cmd.lastServed = n := by
  unfold State.fetched
  extract_lets r u next x
  have h := congrArg Cmd.lastServed ((State.showFetch_frame (n := n) (s := { u with cmd := { u.cmd with
    fetches := u.cmd.fetches + 1, lastServed := n } }.setSq n { s.sq n with fetch := next.1, epoch := next.2 })).cmdRest (by decide))
  exact h

/-- What a fetch does: the descriptor joins the open caravan, or its ring halts. -/
theorem State.fetchFrom_eq (s : State) (n : Nat) (ecc : Fin 3) :
    (∀ st, (s.fetched n ecc).haltStatus n (s.nextFetch n) (s.nextCheck n) (decide (ecc = 2) || s.slotBroken n) = some st →
      Frame (Foot.setBad ||| Foot.sramDed) ((s.fetched n ecc).haltRing n (s.nextFetch n) st) (s.fetchFrom n ecc)) ∧
    ((s.fetched n ecc).haltStatus n (s.nextFetch n) (s.nextCheck n) (decide (ecc = 2) || s.slotBroken n) = none →
      s.fetchFrom n ecc = (s.fetched n ecc).join n { s.nextFetch n with load := (s.fetched n ecc).copied (s.nextFetch n).desc }) := by
  unfold State.fetchFrom
  dsimp only
  refine ⟨fun st h => ?_, fun h => ?_⟩
  · rw [show (s.slotWords n).getD 7 0 = s.nextCheck n from rfl, h]
    dsimp only
    split
    · exact Frame.step State.sramDed_frame (Frame.widen State.setBad_frame)
    · exact Frame.refl _ _
  · rw [show (s.slotWords n).getD 7 0 = s.nextCheck n from rfl, h]

/-- A ring that halts shows HALTED, whatever its record and RING_HALT do. -/
theorem State.haltRing_state (s : State) (n : Fin 16) (m : Staged) (st : Nat) :
    (s.haltRing n m st).sqState n = ringHalted ∧ ((s.haltRing n m st).sq n).fetch = (s.sq n).fetch ∧
      ((s.haltRing n m st).sq n).epoch = (s.sq n).epoch := by
  unfold State.haltRing
  extract_lets r first s1 s2 s3
  have h1 : (s1.setSqState n ringHalted).sqState n = ringHalted := s1.sqState_setSqState n ringHalted (by decide)
  have h2 : s2.sqState n = ringHalted :=
    (State.fld_setFld_field (s1.setSqState n ringHalted) (Reg.CMD_SQn_STAT n) m.slot (f := Fld.CMD_SQn_STAT.HSLOT)
      (g := Fld.CMD_SQn_STAT.STATE) (by decide)).trans h1
  have q1 : s1.sq n = { s.sq n with haltFirst := first.1, haltEpoch := first.2 } := by
    unfold s1; rw [State.sq_setSq, if_pos rfl]
  have q2 : s2.sq n = s1.sq n := rfl
  have h3 : (s3.event ⟨UnitCode.cmd, 0x001, 0, 0, detailOf [(0, n.val), (8, st), (16, m.slot)]⟩).sqState n = ringHalted := by
    unfold s3
    exact (State.event_frame.fld (regNo_CMD_SQn_STAT n)).trans ((State.postCompletion_frame.fld (regNo_CMD_SQn_STAT n)).trans h2)
  refine ⟨State.refreshRings_halted _ n h3, ?_, ?_⟩
  · rw [State.refreshRings_frame.sq, State.event_frame.sq]
    unfold s3
    rw [State.postCompletion_frame.sq, q2, q1]
  · rw [State.refreshRings_frame.sq, State.event_frame.sq]
    unfold s3
    rw [State.postCompletion_frame.sq, q2, q1]

theorem fetchSlot_does :
    (∀ (ecc : Fin 3) (s : State), s.atFetchSlot.served = none → Does (.fetchSlot ecc) s fun t => t = s.atFetchSlot) ∧
    (∀ (n : Nat) (ecc : Fin 3) (s : State), s.atFetchSlot.served = some n →
      (s.atFetchSlot.fetched n ecc).haltStatus n (s.nextFetch n) (s.nextCheck n) (decide (ecc = 2) || s.atFetchSlot.slotBroken n) = none →
      Does (.fetchSlot ecc) s fun t => (t.sq n).fetch = (nextSlot (s.sqSize n) (s.sq n).fetch (s.sq n).epoch).1 ∧
        (t.sq n).epoch = (nextSlot (s.sqSize n) (s.sq n).fetch (s.sq n).epoch).2 ∧ t.cmd.lastServed = n ∧
        (t.sq n).opened = (if (s.nextFetch n).desc.cont
          then (s.sq n).opened ++ [{ s.nextFetch n with load := (s.atFetchSlot.fetched n ecc).copied (s.nextFetch n).desc }] else [])) ∧
    (∀ (n : Fin 16) (ecc : Fin 3) (st : Nat) (s : State), s.atFetchSlot.served = some n.val →
      (s.atFetchSlot.fetched n ecc).haltStatus n (s.nextFetch n) (s.nextCheck n) (decide (ecc = 2) || s.atFetchSlot.slotBroken n) = some st →
      Does (.fetchSlot ecc) s fun t => t.sqState n = ringHalted ∧
        (t.sq n).fetch = (nextSlot (s.sqSize n) (s.sq n).fetch (s.sq n).epoch).1 ∧
        (t.sq n).epoch = (nextSlot (s.sqSize n) (s.sq n).fetch (s.sq n).epoch).2) := by
  refine ⟨?_, ?_, ?_⟩
  · intro ecc s h
    refine Does.via exec_fetchSlot ?_
    unfold execFetchSlot
    dsimp only
    rw [h]
    exact ⟨_, rfl, rfl⟩
  · intro n ecc s h hh
    refine Does.via exec_fetchSlot ?_
    unfold execFetchSlot
    dsimp only
    rw [h]
    refine ⟨_, rfl, ?_⟩
    have hf := State.atFetchSlot_frame (s := s)
    have hm : s.atFetchSlot.nextFetch n = s.nextFetch n := rfl
    have hc : s.atFetchSlot.nextCheck n = s.nextCheck n := rfl
    have hq : s.atFetchSlot.sq n = s.sq n := hf.sq n
    have hsz : s.atFetchSlot.sqSize n = s.sqSize n := rfl
    rw [← hm, ← hc] at hh
    rw [← hsz, ← hq, ← hm]
    generalize s.atFetchSlot = u at *
    rw [(u.fetchFrom_eq n ecc).2 hh]
    have hsq := u.fetched_sq n ecc
    have hls := u.fetched_served n ecc
    generalize u.fetched n ecc = v at hsq hls ⊢
    obtain ⟨h1, h2, h3⟩ := v.join_sq n { u.nextFetch n with load := v.copied (u.nextFetch n).desc }
    have h4 : (v.join n { u.nextFetch n with load := v.copied (u.nextFetch n).desc }).cmd.lastServed = n :=
      (congrArg Cmd.lastServed (State.join_frame.cmdRest (by decide))).trans hls
    rw [h1, h2, h3, hsq]
    exact ⟨rfl, rfl, h4, rfl⟩
  · intro n ecc st s h hh
    refine Does.via exec_fetchSlot ?_
    unfold execFetchSlot
    dsimp only
    rw [h]
    refine ⟨_, rfl, ?_⟩
    have hf := State.atFetchSlot_frame (s := s)
    have hm : s.atFetchSlot.nextFetch n = s.nextFetch n := rfl
    have hc : s.atFetchSlot.nextCheck n = s.nextCheck n := rfl
    have hq : s.atFetchSlot.sq n = s.sq n := hf.sq n
    have hsz : s.atFetchSlot.sqSize n = s.sqSize n := rfl
    rw [← hm, ← hc] at hh
    rw [← hsz, ← hq]
    generalize s.atFetchSlot = u at *
    have hfr := (u.fetchFrom_eq n ecc).1 st hh
    have hsq := u.fetched_sq n ecc
    generalize u.fetched n ecc = v at hsq hfr
    obtain ⟨h1, h2, h3⟩ := v.haltRing_state n (u.nextFetch n) st
    refine ⟨(hfr.fld (regNo_CMD_SQn_STAT n)).trans h1, ?_, ?_⟩
    · rw [hfr.sq, h2, hsq]
    · rw [hfr.sq, h3, hsq]

/-! ### CARAVAN_CUTOFF -/

theorem State.findLate_staged (s : State) (p : Caravan → Bool) :
    (s.findLate p).cmd.staged = s.cmd.staged.map fun c => if p c then { c with late := true } else c := by
  have h : ∀ (l : List Caravan) (u : State), (l.foldl (fun (s : State) c => s.count (Reg.CMD_SQn_CNT c.ring) Fld.CMD_SQn_CNT.LATE) u).cmd = u.cmd := by
    intro l
    induction l with
    | nil => intro u; rfl
    | cons x l ih => intro u; rw [List.foldl_cons, ih, State.count_cmd]
  unfold State.findLate
  extract_lets found a
  have ha : a.cmd = s.cmd := h _ _
  clear_value a
  dsimp only
  rw [ha]

theorem caravanCutoff_does : ∀ s : State, s.ticking = true → Does .caravanCutoff s fun t =>
    t.now = max s.now (s.nextBoundary - nsToEs 500) ∧ t.cmd.cutoff = true ∧
    t.cmd.staged = s.cmd.staged.map fun c => if c.missed (s.tick + 1) then { c with late := true } else c := by
  intro s h
  refine Does.via exec_caravanCutoff ?_
  unfold execCaravanCutoff
  rw [h, if_neg (by decide)]
  refine ⟨_, rfl, ?_, rfl, ?_⟩
  · exact (State.findLate_frame (s := s.at (s.nextBoundary - nsToEs 500))).now (by decide)
  · exact State.findLate_staged _ _

/-! ### CARAVAN_APPLICATION and STOPPED_TICK_APPLICATION -/

theorem tryCaravan_nops (s0 : State) (ms : List Staged) (h : ∀ m ∈ ms, m.desc.opc = opNop) (t : Trial) :
    ms.foldl (Trial.step s0) t = ⟨t.s, t.js ++ ms.map (fun m => ⟨m, stDone, none, false⟩), t.reports⟩ := by
  induction ms generalizing t with
  | nil => simp
  | cons m ms ih =>
    have hj : s0.judgeDesc t.s m.desc m.load = .done t.s := by
      unfold State.judgeDesc
      rw [if_pos (h m List.mem_cons_self)]
    rw [List.foldl_cons, ih (fun x hx => h x (List.mem_cons_of_mem _ hx))]
    unfold Trial.step
    rw [hj]
    simp [Verdict.done]

theorem State.tookEffect_posting (s : State) (n : Nat) (late : Bool) (j : Judgement) :
    (s.tookEffect n late j).cmd.posting = s.cmd.posting ++ (if (lateStatus late j.status = stDone && !j.m.desc.creq) = true then []
      else [j.completion n (lateStatus late j.status)]) := by
  have hcs : ∀ st, (j.completion n st).status = st := fun st => by
    unfold Judgement.completion
    extract_lets c
    split
    · split <;> rfl
    · rfl
  unfold State.tookEffect
  extract_lets a y b
  have hb : b.cmd.posting = s.cmd.posting := by
    show a.cmd.posting = _
    unfold a
    split
    · rw [State.count_cmd]
    · rfl
  unfold State.queueCompletion
  rw [hcs]
  split
  · rw [List.append_nil]; exact hb
  · show b.cmd.posting ++ _ = _
    rw [hb]

theorem State.tookEffect_nops (n : Nat) (late : Bool) (ms : List Staged) (s : State) :
    ((ms.map fun m => (⟨m, stDone, none, false⟩ : Judgement)).foldl (fun s j => s.tookEffect n late j) s).awaiting =
      s.awaiting ++ ms.filterMap (fun m => if lateStatus late stDone = stDone && !m.desc.creq then none
        else some (n, lateStatus late stDone, m.desc.w2.toNat % 2 ^ 16)) ∧
    Frame Foot.tookEffect s ((ms.map fun m => (⟨m, stDone, none, false⟩ : Judgement)).foldl (fun s j => s.tookEffect n late j) s) := by
  induction ms generalizing s with
  | nil => exact ⟨(List.append_nil _).symm, Frame.refl _ _⟩
  | cons m ms ih =>
    obtain ⟨h1, h2⟩ := ih (s.tookEffect n late ⟨m, stDone, none, false⟩)
    rw [List.map_cons, List.foldl_cons]
    refine ⟨?_, Frame.step h2 State.tookEffect_frame⟩
    rw [h1, List.filterMap_cons]
    unfold State.awaiting
    rw [State.tookEffect_posting]
    dsimp only
    have hc : (⟨m, stDone, none, false⟩ : Judgement).completion n (lateStatus late stDone) = completionOf n m (lateStatus late stDone) := rfl
    rw [hc, List.map_append, List.append_assoc]
    congr 1
    split
    · rfl
    · rfl

theorem State.prio_lt (s : State) (n : Nat) : s.prio n < 4 := s.fld_lt _ Fld.CMD_SQn_CFG.PRIO

theorem State.ringOrder_nodup (s : State) : s.ringOrder.Nodup := by
  have hd : ∀ p q, p ≠ q → ∀ x, x ∈ (List.range 16).filter (fun n => s.prio n == p) → ∀ y, y ∈ (List.range 16).filter (fun n => s.prio n == q) → x ≠ y := by
    intro p q hpq x hx y hy e
    subst e
    have h1 := beq_iff_eq.1 (List.mem_filter.1 hx).2
    have h2 := beq_iff_eq.1 (List.mem_filter.1 hy).2
    exact hpq (h1.symm.trans h2)
  unfold State.ringOrder List.Nodup
  rw [List.pairwise_flatMap]
  refine ⟨fun p _ => List.nodup_range.filter _, ?_⟩
  simp only [List.pairwise_cons, List.mem_cons, List.not_mem_nil, or_false, forall_eq_or_imp, forall_eq]
  refine ⟨⟨hd _ _ (by decide), hd _ _ (by decide), hd _ _ (by decide)⟩, ⟨hd _ _ (by decide), hd _ _ (by decide)⟩, hd _ _ (by decide), ?_⟩
  exact ⟨fun _ h => (nomatch h), List.Pairwise.nil⟩

theorem State.mem_ringOrder (s : State) {n : Nat} (h : n < 16) : n ∈ s.ringOrder := by
  unfold State.ringOrder
  have := s.prio_lt n
  rw [List.mem_flatMap]
  refine ⟨s.prio n, ?_, List.mem_filter.2 ⟨List.mem_range.2 h, beq_self_eq_true _⟩⟩
  simp only [List.mem_cons, List.not_mem_nil, or_false]
  omega

theorem foldl_once {α β : Type} {f : β → α → β} {l : List α} {r : α} (hn : l.Nodup) (hr : r ∈ l)
    (hf : ∀ t n, n ≠ r → f t n = t) (t : β) : l.foldl f t = f t r := by
  have skip : ∀ (l : List α) (t : β), r ∉ l → l.foldl f t = t := by
    intro l
    induction l with
    | nil => intro t _; rfl
    | cons x l ih =>
      intro t h
      rw [List.mem_cons, not_or] at h
      rw [List.foldl_cons, hf _ _ (fun e => h.1 e.symm), ih _ h.2]
  induction l generalizing t with
  | nil => cases hr
  | cons x l ih =>
    rw [List.nodup_cons] at hn
    rw [List.foldl_cons]
    by_cases h : x = r
    · subst h
      exact skip _ _ hn.1
    · rw [hf _ _ h]
      exact ih hn.2 ((List.mem_cons.1 hr).resolve_left (fun e => h e.symm)) _

theorem State.runRings_lone {s : State} {c : Caravan} (h : LoneCaravan s c) :
    s.runRings = s.runCaravan { s with cmd.loads := 0 } c := by
  unfold State.runRings
  rw [h.staged]
  dsimp only
  rw [foldl_once s.ringOrder_nodup (s.mem_ringOrder h.ring)]
  · have h4 : State.haltedF4 { s with cmd.loads := 0 } = false := h.runs
    have hfl : [c].filter (fun x => x.ring == c.ring) = [c] := by simp
    rw [hfl]
    unfold State.runRing
    have hd : State.caravanDue { s with cmd.loads := 0 } c = true := h.due
    have hlh : State.loadsHold { s with cmd.loads := 0 } c = false := by
      unfold State.loadsHold
      have := h.loads
      show (c.tableLoads != 0 && decide (2 < 0 + c.tableLoads)) = false
      rw [decide_eq_false (by omega), Bool.and_false]
    rw [h4, hd, h.fence, hlh, if_pos (by decide)]
    rfl
  · intro t n hn
    have hfl : [c].filter (fun x => x.ring == n) = [] := by
      simp [Ne.symm hn]
    rw [hfl]
    rfl

theorem Frame.applyBarred {K : Nat} {s t : State} (h : Frame K s t) (h1 : K.testBit 1 = false := by decide)
    (h2 : K.testBit 4 = false := by decide) (h3 : K.testBit bit_pwr = false := by decide) (h4 : K.testBit bit_tbs = false := by decide)
    (h5 : K.testBit bit_tick = false := by decide) (h6 : K.testBit bit_led = false := by decide) : t.applyBarred = s.applyBarred := by
  unfold State.applyBarred State.locked State.sealed State.haltedF4
  rw [h.on regNo_SYS_SETUP_LOCK h1, h.on regNo_SYS_SETUP_LOCK h1, h.on regNo_SYS_FAULTSTAT h2, h.pwr h3, h.ticking h4, h.tick h5, h.led h6]

theorem Frame.caravanDue {K : Nat} {s t : State} (h : Frame K s t) (c : Caravan) (h1 : K.testBit bit_tbs = false := by decide)
    (h2 : K.testBit bit_tick = false := by decide) : t.caravanDue c = s.caravanDue c := by
  unfold State.caravanDue
  rw [h.ticking h1, h.tick h2]

/-- The load of the units that a boundary releases leaves a lone caravan as it is. -/
theorem LoneCaravan.loaded {s y : State} {c : Caravan} (h : LoneCaravan s c) (hf : Frame Foot.preload s y) : LoneCaravan y c where
  staged := (hf.staged (by decide)).trans h.staged
  ring := h.ring
  due := (hf.caravanDue c).trans h.due
  fence := h.fence
  loads := h.loads
  free := hf.applyBarred.trans h.free
  runs := (hf.on regNo_SYS_FAULTSTAT).trans h.runs

/-- What a lone caravan of NOPs leaves, or one that is discarded as late. -/
theorem State.runRings_result {s : State} {c : Caravan} (h : LoneCaravan s c) :
    (c.nops → (c.late && s.discardsLate c.ring) = false →
      s.runRings.cmd.staged = [] ∧ s.runRings.awaiting = s.awaiting ++ c.nopRecords) ∧
    ((c.late && s.discardsLate c.ring) = true → s.runRings.cmd.staged = [] ∧
      s.runRings.awaiting = s.awaiting ++ c.members.map (fun m => (c.ring, stFlushed, m.desc.w2.toNat % 2 ^ 16))) := by
  have hrun := State.runRings_lone h
  have hfil : s.cmd.staged.filter (fun x => x != c) = [] := by rw [h.staged]; simp
  constructor
  · intro hn hl
    have e : s.runCaravan { s with cmd.loads := 0 } c =
        s.applyCaravan { s with cmd := { s.cmd with staged := [], loads := 0 + c.tableLoads } } c := by
      unfold State.runCaravan
      dsimp only
      rw [hfil]
      refine if_neg ?_
      rw [Bool.not_eq_true, ← hl]; rfl
    have hap : s.applyCaravan { s with cmd := { s.cmd with staged := [], loads := 0 + c.tableLoads } } c =
        (c.members.map fun m => (⟨m, stDone, none, false⟩ : Judgement)).foldl (fun s j => s.tookEffect c.ring c.late j)
          { s with cmd := { s.cmd with staged := [], lastApplied := s.tick, loads := 0 + c.tableLoads } } := by
      unfold State.applyCaravan State.tryCaravan
      rw [tryCaravan_nops _ _ hn]
      rfl
    obtain ⟨h1, h2⟩ := State.tookEffect_nops c.ring c.late c.members
      { s with cmd := { s.cmd with staged := [], lastApplied := s.tick, loads := 0 + c.tableLoads } }
    rw [hrun, e, hap]
    exact ⟨h2.staged (by decide), h1⟩
  · intro hl
    have e : s.runCaravan { s with cmd.loads := 0 } c =
        State.discardCaravan { s with cmd := { s.cmd with staged := [], loads := 0 } } c := by
      unfold State.runCaravan
      dsimp only
      rw [hfil]
      refine if_pos ?_
      rw [← hl]; rfl
    have hdc : ∀ (ms : List Staged) (u : State),
        (ms.foldl (fun s m => s.queueCompletion m (completionOf c.ring m stFlushed)) u).awaiting =
          u.awaiting ++ ms.map (fun m => (c.ring, stFlushed, m.desc.w2.toNat % 2 ^ 16)) := by
      intro ms
      induction ms with
      | nil => intro u; simp
      | cons m ms ih =>
        intro u
        rw [List.foldl_cons, ih, List.map_cons, List.append_cons]
        congr 1
        unfold State.queueCompletion
        rw [if_neg (by simp [completionOf, stFlushed, stDone])]
        unfold State.awaiting
        rw [List.map_append]
        rfl
    rw [hrun, e]
    exact ⟨(State.discardCaravan_frame).staged (by decide), hdc _ _⟩

theorem State.applyInterval_lone {s : State} {c : Caravan} (h : LoneCaravan s c) :
    (c.nops → (c.late && s.discardsLate c.ring) = false →
      s.applyInterval.cmd.staged = [] ∧ s.applyInterval.awaiting = s.awaiting ++ c.nopRecords) ∧
    ((c.late && s.discardsLate c.ring) = true → s.applyInterval.cmd.staged = [] ∧
      s.applyInterval.awaiting = s.awaiting ++ c.members.map (fun m => (c.ring, stFlushed, m.desc.w2.toNat % 2 ^ 16))) := by
  have hy := State.preload_frame (s := s) (x1 := s.foreseen)
  have hfin : (s.preload s.foreseen).runRings.cmd.staged = [] → s.applyInterval.cmd.staged = [] ∧
      s.applyInterval.awaiting = (s.preload s.foreseen).runRings.awaiting := by
    unfold State.applyInterval
    rw [h.free, if_neg (by decide)]
    generalize (s.preload s.foreseen).runRings = u
    intro hs
    have hi := State.internalCaravans_frame (s := u)
    have h1 : u.internalCaravans.cmd.staged = [] := (hi.staged (by decide)).trans hs
    have h2 : u.internalCaravans.awaiting = u.awaiting := by unfold State.awaiting; rw [hi.posting (by decide)]
    generalize u.internalCaravans = v at h1 h2 ⊢
    extract_lets w0 w
    have hw : w.cmd.staged = [] ∧ w.awaiting = v.awaiting := by
      unfold w w0
      split
      · refine ⟨by rw [State.findLate_staged, h1]; rfl, ?_⟩
        unfold State.awaiting; rw [State.findLate_frame.posting (by decide)]
      · exact ⟨h1, rfl⟩
    refine ⟨(State.refreshRings_frame.staged (by decide)).trans hw.1, ?_⟩
    rw [← h2, ← hw.2]
    unfold State.awaiting; rw [State.refreshRings_frame.posting (by decide)]
  have hrun := State.runRings_result (h.loaded hy)
  have e1 : (s.preload s.foreseen).discardsLate c.ring = s.discardsLate c.ring := hy.on (regNo_CMD_SQn_CFG _)
  have e2 : (s.preload s.foreseen).awaiting = s.awaiting := hy.awaiting
  rw [e1, e2] at hrun
  exact ⟨fun hn hl => by
    obtain ⟨g1, g2⟩ := hrun.1 hn hl
    exact ⟨(hfin g1).1, (hfin g1).2.trans g2⟩, fun hl => by
    obtain ⟨g1, g2⟩ := hrun.2 hl
    exact ⟨(hfin g1).1, (hfin g1).2.trans g2⟩⟩

theorem caravanApplication_does : ∀ (c : Caravan) (s : State), s.ticking = true → LoneCaravan (s.atTick 150) c →
    Does .caravanApplication s fun t =>
      (c.nops → (c.late && s.discardsLate c.ring) = false → t.cmd.staged = [] ∧ t.awaiting = s.awaiting ++ c.nopRecords) ∧
      ((c.late && s.discardsLate c.ring) = true → t.cmd.staged = [] ∧
        t.awaiting = s.awaiting ++ c.members.map (fun m => (c.ring, stFlushed, m.desc.w2.toNat % 2 ^ 16))) := by
  intro c s h hl
  refine Does.via exec_caravanApplication ?_
  unfold execCaravanApplication
  rw [h, if_neg (by decide)]
  refine ⟨_, rfl, ?_⟩
  have h1 := State.applyInterval_lone hl
  have e1 : (s.atTick 150).awaiting = s.awaiting := State.atTick_frame.awaiting
  have e2 : (s.atTick 150).discardsLate c.ring = s.discardsLate c.ring := State.atTick_frame.on (regNo_CMD_SQn_CFG _)
  rw [e1, e2] at h1
  exact h1

theorem State.postQueued_posting (s : State) : s.postQueued.cmd.posting = [] := by
  have h : ∀ (l : List Completion) (u : State), (l.foldl State.postCompletion u).cmd.posting = u.cmd.posting := by
    intro l
    induction l with
    | nil => intro u; rfl
    | cons x l ih => intro u; rw [List.foldl_cons, ih, State.postCompletion_frame.posting (by decide)]
  unfold State.postQueued
  dsimp only
  rw [State.refreshRings_frame.posting (by decide), h]

theorem stoppedTickApplication_does : ∀ (c : Caravan) (s : State), s.ticking = false →
    LoneCaravan (s.at (s.now + esPerFc)) c → c.nops → (c.late && s.discardsLate c.ring) = false →
    Does .stoppedTickApplication s fun t => t.cmd.staged = [] ∧ t.cmd.posting = [] := by
  intro c s h hl hn hd
  refine Does.via exec_stoppedTickApplication ?_
  unfold execStoppedTickApplication
  rw [h, if_neg (by decide)]
  refine ⟨_, rfl, ?_, State.postQueued_posting _⟩
  have h1 := (State.applyInterval_lone hl).1 hn (by
    rw [show (s.at (s.now + esPerFc)).discardsLate c.ring = s.discardsLate c.ring from State.at_frame.on (regNo_CMD_SQn_CFG _)]
    exact hd)
  rw [State.postQueued_frame.staged (by decide), State.at_frame.staged (by decide), State.endInterval_frame.staged (by decide),
    State.at_frame.staged (by decide)]
  exact h1.1

end Sys2Proof.Machine
end

