-- ==== Sys2Proof/Laws/EffectWrites.lean ====
section
/-! SUPPORT. Bus writes of the blocks: what reaches a field, and what follows. -/

set_option Elab.async false

namespace Sys2Proof.Machine

section
variable {s : State} {x : Wr} {busy : Bool}

theorem State.put_sys (h : unitOf x.a = UnitCode.sys) : s.put x busy = s.putSys x := by
  unfold State.put
  dsimp only
  rw [h]
  repeat rw [if_neg (by decide)]
  exact if_pos rfl
theorem State.put_clk (h : unitOf x.a = UnitCode.clk) : s.put x busy = s.putClk x := by
  unfold State.put
  dsimp only
  rw [h]
  repeat rw [if_neg (by decide)]
  exact if_pos rfl
theorem State.put_pwm (h : unitOf x.a = UnitCode.pwm) : s.put x busy = s.putPwm x := by
  unfold State.put
  dsimp only
  rw [h]
  repeat rw [if_neg (by decide)]
  exact if_pos rfl
theorem State.put_acq (h : unitOf x.a = UnitCode.acq) : s.put x busy = (s.putAcq x, false) := by
  unfold State.put
  dsimp only
  rw [h]
  repeat rw [if_neg (by decide)]
  exact if_pos rfl
theorem State.put_pos (h : unitOf x.a = UnitCode.pos) : s.put x busy = (s.putPos x, false) := by
  unfold State.put
  dsimp only
  rw [h]
  repeat rw [if_neg (by decide)]
  exact if_pos rfl
theorem State.put_fld (h : unitOf x.a = UnitCode.fld) : s.put x busy = (s.putFld x, false) := by
  unfold State.put
  dsimp only
  rw [h]
  repeat rw [if_neg (by decide)]
  exact if_pos rfl
theorem State.put_wgh (h : unitOf x.a = UnitCode.wgh) : s.put x busy = (s.putWgh x, false) := by
  unfold State.put
  dsimp only
  rw [h]
  repeat rw [if_neg (by decide)]
  exact if_pos rfl
theorem State.put_isk (h : unitOf x.a = UnitCode.isk) : s.put x busy = (s.putIsk x, false) := by
  unfold State.put
  dsimp only
  rw [h]
  repeat rw [if_neg (by decide)]
  exact if_pos rfl
theorem State.put_can (h : unitOf x.a = UnitCode.can) : s.put x busy = s.putCan x (busy || s.canBusy (canOf x.a)) := by
  unfold State.put
  dsimp only
  rw [h]
  repeat rw [if_neg (by decide)]
  exact if_pos rfl
theorem State.put_eth (h : unitOf x.a = UnitCode.eth) : s.put x busy = s.putEth x := by
  unfold State.put
  dsimp only
  rw [h]
  repeat rw [if_neg (by decide)]
  exact if_pos rfl
theorem State.put_chk (h : unitOf x.a = UnitCode.chk) : s.put x busy = (s.putChk x, false) := by
  unfold State.put
  dsimp only
  rw [h]
  repeat rw [if_neg (by decide)]
  exact if_pos rfl
theorem State.put_hic (h : unitOf x.a = UnitCode.hic) : s.put x busy = (s.putHic x, false) := by
  unfold State.put
  dsimp only
  rw [h]
  repeat rw [if_neg (by decide)]
  exact if_pos rfl
theorem State.put_xsp (h : unitOf x.a = UnitCode.xsp) : s.put x busy = (s.putXsp x, false) := by
  unfold State.put
  dsimp only
  rw [h]
  repeat rw [if_neg (by decide)]
  exact if_pos rfl
end

/-- A bit written 1 clears a W1C field of one bit. -/
theorem IsReg.new_w1c {a u k i : Nat} (h : IsReg a u k i) {s : State} {w : Word} (hx : ∀ v, s.crossClamp a v = v)
    (j : Nat) {f : FieldDesc} (hj : (regDesc u k).fields[j]? = some f) (hr : f.reached (.core 0) s.locked = true)
    (hacc : f.access = .w1c) (h1 : f.bits.width = 1) (hw : f.bits.of w = 1)
    (hu : u ≠ 12 := by decide) :
    f.bits.of (s.wrote a (regDesc u k) w).new = 0 := by
  have hf := regAt_apart h.at
  have hb := fieldsApart_at hf hj
  rw [State.wrote_new hx (h.2.1 ▸ hu), RegDesc.written_of j hf hj, hr]
  have h2 : (f.access != .wo) = true := by rw [hacc]; rfl
  rw [h2]
  unfold FieldDesc.written
  rw [hacc]
  show f.bits.of _ % _ = 0
  rw [h1]
  have hz : f.bits.of (s.reg a &&& ~~~(w &&& 0xFFFFFFFF)) = 0 := by
    apply Nat.eq_of_testBit_eq
    intro n
    rw [Bits.testBit_of, Nat.zero_testBit, h1]
    by_cases hn : n < 1
    · have hn0 : n = 0 := by omega
      subst hn0
      have := congrArg (fun v => v.testBit 0) hw
      simp only [Bits.testBit_of, h1] at this
      rw [Nat.add_zero] at this ⊢
      have hl : w.getLsbD f.bits.lo = true := by simpa using this
      rw [BitVec.getLsbD_and, BitVec.getLsbD_not, BitVec.getLsbD_and, hl,
        show (0xFFFFFFFF : Word) = BitVec.allOnes 32 from rfl, BitVec.getLsbD_allOnes]
      simp
    · simp [hn]
  rw [hz, Nat.zero_mod]

/-- A write-only or other reached field as a write carries it. -/
theorem State.wrote_ones_on {s : State} {a : Nat} {d : RegDesc} {w : Word} {f : Bits}
    (h : f.of (d.reach (.core 0) s.locked) = 2 ^ f.width - 1) : f.on (s.wrote a d w).ones = f.on w := Bits.on_and h

theorem State.wrote_ones_of {s : State} {a : Nat} {d : RegDesc} {w : Word} {f : Bits}
    (h : f.of (d.reach (.core 0) s.locked) = 2 ^ f.width - 1) : f.of (s.wrote a d w).ones = f.of w := Bits.of_and h

/-! ### SYS -/

theorem sys_place : IsReg Reg.SYS_SETUP_LOCK 0 1 0 ∧ IsReg Reg.SYS_FAULTSTAT 0 4 0 ∧ IsReg Reg.SYS_BOOTOK 0 6 0 ∧
    IsReg Reg.SYS_RSTCTL 0 8 0 ∧ IsReg Reg.SYS_SWSUB 0 9 0 ∧ IsReg Reg.SYS_RESTORE 0 11 0 := by decide +kernel

theorem State.sys_noCross (s : State) (a : Nat) (h : a ∈ [Reg.SYS_SETUP_LOCK, Reg.SYS_FAULTSTAT, Reg.SYS_SWSUB]) (v : Word) :
    s.crossClamp a v = v := by
  simp only [List.mem_cons, List.not_mem_nil, or_false] at h
  rcases h with rfl | rfl | rfl <;> rfl

theorem setupLock_does : ∀ s : State, s.pwr.restoring = false → s.locked = false → Does .setupLock s fun t =>
    t.locked = true ∧ t.pwr.capturing = true := by
  intro s h hl
  refine ⟨_, exec_setupLock.trans rfl, ?_⟩
  dsimp only
  have hr := sys_place.1
  have hs := hr.stored (s := s) (w := Fld.SYS_SETUP_LOCK.LOCK.only 1) (busy := false) (by decide) h (by rw [hl]; decide)
  have he := hr.new_fld (s := s) (w := Fld.SYS_SETUP_LOCK.LOCK.only 1) (s.sys_noCross _ (by simp)) 0
    (f := ⟨Fld.SYS_SETUP_LOCK.LOCK, .rwl, fun _ => 0, .none, false, false⟩) rfl (by rw [hl]; rfl) (.inr rfl)
  rw [State.put_sys (x := s.wrote Reg.SYS_SETUP_LOCK (regDesc 0 1) _) hr.2.1] at hs
  generalize hx : s.wrote Reg.SYS_SETUP_LOCK (regDesc 0 1) (Fld.SYS_SETUP_LOCK.LOCK.only 1) = x at hs he
  have ha : x.a = Reg.SYS_SETUP_LOCK := by rw [← hx]; rfl
  have hold : x.old = s.reg Reg.SYS_SETUP_LOCK := by rw [← hx]; rfl
  have hput : (s.putSys x).1 = ({ s.setReg x.a x.new with pwr.capturing := true } : State).scanSpoilImage := by
    unfold State.putSys State.putLock
    rw [if_neg (by rw [ha]; decide), if_pos ha, if_pos]
    unfold Wr.rises
    rw [hold]
    have h0 : Fld.SYS_SETUP_LOCK.LOCK.on (s.reg Reg.SYS_SETUP_LOCK) = false := hl
    rw [h0]
    unfold Bits.on
    rw [he]
    decide
  rw [hput] at hs
  have hf := State.scanSpoilImage_frame (s := { s.setReg x.a x.new with pwr.capturing := true })
  generalize hv : ({ s.setReg x.a x.new with pwr.capturing := true } : State) = v at hs hf
  constructor
  · unfold State.locked
    rw [hs.onOf regNo_SYS_SETUP_LOCK, hf.on regNo_SYS_SETUP_LOCK]
    have hv2 : v.reg Reg.SYS_SETUP_LOCK = x.new := by
      rw [← hv, ← ha]
      exact s.reg_setReg_same _ _
    unfold State.on State.fld
    rw [hv2, he]
    decide
  · rw [hs.pwr, hf.pwr (by decide), ← hv]

theorem f2Clear_does : ∀ s : State, s.pwr.restoring = false → Does .f2Clear s fun t =>
    (s.faults.f2 = [] → t.on Reg.SYS_FAULTSTAT Fld.SYS_FAULTSTAT.F2 = false) ∧
    (s.faults.f2 ≠ [] → t.reg Reg.SYS_FAULTSTAT = s.reg Reg.SYS_FAULTSTAT) := by
  intro s h
  refine ⟨_, exec_f2Clear.trans rfl, ?_⟩
  dsimp only
  have hr := sys_place.2.1
  have hs := hr.stored (s := s) (w := Fld.SYS_FAULTSTAT.F2.only 1) (busy := false) (by decide) h (by cases s.locked <;> decide)
  have he := hr.new_w1c (s := s) (w := Fld.SYS_FAULTSTAT.F2.only 1) (s.sys_noCross _ (by simp)) 0
    (f := ⟨Fld.SYS_FAULTSTAT.F2, .w1c, fun _ => 0, .none, false, false⟩) rfl (by cases s.locked <;> rfl) rfl rfl (by decide)
  rw [State.put_sys (x := s.wrote Reg.SYS_FAULTSTAT (regDesc 0 4) _) hr.2.1] at hs
  generalize hx : s.wrote Reg.SYS_FAULTSTAT (regDesc 0 4) (Fld.SYS_FAULTSTAT.F2.only 1) = x at hs he
  have ha : x.a = Reg.SYS_FAULTSTAT := by rw [← hx]; rfl
  have hput : (s.putSys x).1 = if s.faults.f2.isEmpty then s.setReg x.a x.new else s := by
    unfold State.putSys
    rw [if_neg (by rw [ha]; decide), if_neg (by rw [ha]; decide), if_pos ha]
  rw [hput] at hs
  constructor
  · intro h0
    rw [h0, List.isEmpty_nil, if_pos rfl] at hs
    rw [hs.onOf regNo_SYS_FAULTSTAT, ha]
    unfold State.on
    rw [State.fld_setReg_same, he]
    rfl
  · intro h0
    rw [if_neg (by simpa using h0)] at hs
    exact hs.regOf regNo_SYS_FAULTSTAT

theorem bootok_place : (∀ l, Fld.SYS_BOOTOK.OK.of ((regDesc 0 6).reach (.core 0) l) = 1) ∧
    (∀ l, Fld.SYS_BOOTOK.COMMIT.of ((regDesc 0 6).reach (.core 0) l) = 1) ∧
    ∀ l, (regDesc 0 6).reach (.core 0) l ≠ 0 := by decide +kernel

/-- What a write of SYS_BOOTOK leads to. -/
theorem State.bootok_stored {s : State} (w : Word) (h : s.pwr.restoring = false) :
    ∃ v, Fld.SYS_BOOTOK.OK.on v = Fld.SYS_BOOTOK.OK.on w ∧ Fld.SYS_BOOTOK.COMMIT.on v = Fld.SYS_BOOTOK.COMMIT.on w ∧
      Stored Reg.SYS_BOOTOK (s.bootOkWritten v) (s.blockStore 0 Reg.SYS_BOOTOK w) := by
  have hr := sys_place.2.2.1
  have hs := hr.stored (s := s) (w := w) (busy := false) (by decide) h (bootok_place.2.2 _)
  rw [State.put_sys (x := s.wrote Reg.SYS_BOOTOK (regDesc 0 6) _) hr.2.1] at hs
  refine ⟨(s.wrote Reg.SYS_BOOTOK (regDesc 0 6) w).ones, State.wrote_ones_on (bootok_place.1 _),
    State.wrote_ones_on (bootok_place.2.1 _), ?_⟩
  have hput : (s.putSys (s.wrote Reg.SYS_BOOTOK (regDesc 0 6) w)).1 =
      s.bootOkWritten (s.wrote Reg.SYS_BOOTOK (regDesc 0 6) w).ones := by
    unfold State.putSys
    have ha : (s.wrote Reg.SYS_BOOTOK (regDesc 0 6) w).a = Reg.SYS_BOOTOK := rfl
    generalize s.wrote Reg.SYS_BOOTOK (regDesc 0 6) w = x at ha
    rw [if_neg (by rw [ha]; decide), if_neg (by rw [ha]; decide), if_neg (by rw [ha]; decide), if_pos ha]
  rwa [hput] at hs

theorem bootOk_does : ∀ s : State, s.pwr.restoring = false → Does .bootOk s fun t =>
    t.fld Reg.SYS_BOOTSTAT Fld.SYS_BOOTSTAT.TRY = 0 ∧ t.hic = s.hic := by
  intro s h
  refine ⟨_, exec_bootOk.trans rfl, ?_⟩
  dsimp only
  obtain ⟨v, h1, h2, hs⟩ := State.bootok_stored (s := s) (Fld.SYS_BOOTOK.OK.only 1) h
  have e : s.bootOkWritten v = s.setFld Reg.SYS_BOOTSTAT Fld.SYS_BOOTSTAT.TRY 0 := by
    unfold State.bootOkWritten
    rw [h1, h2]
    rfl
  rw [e] at hs
  constructor
  · rw [hs.fldOf regNo_SYS_BOOTSTAT, State.fld_setFld _ _ Fld.SYS_BOOTSTAT.TRY _ (by decide)]
    rfl
  · rw [hs.hic]
    exact State.setFld_hic _ _ _ _

theorem bootCommit_does : ∀ s : State, s.pwr.restoring = false → Does .bootCommit s fun t =>
    t.hic.fusedSvn = max s.hic.fusedSvn s.hic.svn ∧ t.reg Reg.SYS_BOOTSTAT = s.reg Reg.SYS_BOOTSTAT := by
  intro s h
  refine ⟨_, exec_bootCommit.trans rfl, ?_⟩
  dsimp only
  obtain ⟨v, h1, h2, hs⟩ := State.bootok_stored (s := s) (Fld.SYS_BOOTOK.COMMIT.only 1) h
  have e : s.bootOkWritten v = { s with hic.fusedSvn := max s.hic.fusedSvn s.hic.svn } := by
    unfold State.bootOkWritten
    rw [h1, h2]
    rfl
  rw [e] at hs
  exact ⟨by rw [hs.hic], hs.regOf regNo_SYS_BOOTSTAT⟩

theorem swsysWrite_does : ∀ s : State, s.pwr.restoring = false → Does .swsysWrite s fun t =>
    t.pwr.swsysAt = some (s.now + nsToEs 50000) ∧ t.fld Reg.SYS_RSTCTL Fld.SYS_RSTCTL.SWSYS = 0xA5C3 := by
  intro s h
  refine ⟨_, exec_swsysWrite.trans rfl, ?_⟩
  dsimp only
  have hr := sys_place.2.2.2.1
  have hs := hr.stored (s := s) (w := Fld.SYS_RSTCTL.SWSYS.only 0xA5C3) (busy := false) (by decide) h
    (by cases s.locked <;> decide)
  rw [State.put_sys (x := s.wrote Reg.SYS_RSTCTL (regDesc 0 8) _) hr.2.1] at hs
  have hn : Fld.SYS_RSTCTL.SWSYS.of (s.wrote Reg.SYS_RSTCTL (regDesc 0 8) (Fld.SYS_RSTCTL.SWSYS.only 0xA5C3)).new = 0xA5C3 := by
    have hw : Fld.SYS_RSTCTL.SWSYS.of ((regDesc 0 8).written (.core 0) s.locked (s.reg Reg.SYS_RSTCTL)
        (Fld.SYS_RSTCTL.SWSYS.only 0xA5C3) 0xFFFFFFFF).1 = 0xA5C3 := by
      rw [RegDesc.written_of (f := ⟨Fld.SYS_RSTCTL.SWSYS, .rw, fun _ => 0, .cross, false, true⟩) 0 (regAt_apart hr.at) rfl,
        if_pos (by cases s.locked <;> rfl), FieldDesc.written_full (by simp) (by decide) (by decide)]
      decide +kernel
    unfold State.wrote State.written
    dsimp only
    rw [s.settled_word (by decide)]
    show Fld.SYS_RSTCTL.SWSYS.of (s.clampOther Reg.SYS_RSTCTL _) = _
    unfold State.clampOther
    rw [if_pos rfl, if_pos hw]
    exact hw
  generalize hx : s.wrote Reg.SYS_RSTCTL (regDesc 0 8) (Fld.SYS_RSTCTL.SWSYS.only 0xA5C3) = x at hs hn
  have ha : x.a = Reg.SYS_RSTCTL := by rw [← hx]; rfl
  have hput : (s.putSys x).1 = (s.setReg x.a x.new).rstctlWritten := by
    unfold State.putSys
    rw [if_neg (by rw [ha]; decide), if_neg (by rw [ha]; decide), if_neg (by rw [ha]; decide), if_neg (by rw [ha]; decide),
      if_pos ha]
  rw [hput, ha] at hs
  have hv : (s.setReg Reg.SYS_RSTCTL x.new).fld Reg.SYS_RSTCTL Fld.SYS_RSTCTL.SWSYS = 0xA5C3 := by
    unfold State.fld
    rw [State.reg_setReg_same]
    exact hn
  have hnow : (s.setReg Reg.SYS_RSTCTL x.new).now = s.now := rfl
  generalize s.setReg Reg.SYS_RSTCTL x.new = v at hs hv hnow
  have e : v.rstctlWritten = { v.commandSpo 0x41 with pwr.swsysAt := some ((v.commandSpo 0x41).now + nsToEs 50000) } := by
    unfold State.rstctlWritten
    rw [if_pos hv]
  rw [e] at hs
  have hf := State.commandSpo_frame (s := v) (x1 := 0x41)
  generalize v.commandSpo 0x41 = y at hs hf
  constructor
  · rw [hs.pwr, ← hnow, ← hf.now (by decide)]
  · rw [hs.fldOf regNo_SYS_RSTCTL]
    exact (hf.fld regNo_SYS_RSTCTL).trans hv

theorem restore_place : Fld.SYS_RESTORE.GO.of ((regDesc 0 11).reach (.core 0) false) = 1 ∧
    (regDesc 0 11).reach (.core 0) false ≠ 0 ∧ ∀ s : State, ∀ w, (s.wrote Reg.SYS_RESTORE (regDesc 0 11) w).a = Reg.SYS_RESTORE := by
  refine ⟨by decide +kernel, by decide +kernel, fun _ _ => rfl⟩

theorem restoreGo_does : ∀ s : State, s.pwr.restoring = false → s.locked = false → Does .restoreGo s fun t =>
    (s.on Reg.SYS_RESTORE Fld.SYS_RESTORE.IMGOK = true →
      t.pwr.restoring = true ∧ t.fld Reg.SYS_RESTORE Fld.SYS_RESTORE.STATE = 1) ∧
    (s.on Reg.SYS_RESTORE Fld.SYS_RESTORE.IMGOK = false →
      t.pwr.restoring = false ∧ t.fld Reg.SYS_RESTORE Fld.SYS_RESTORE.STATE = 3) := by
  intro s h hl
  refine ⟨_, exec_restoreGo.trans rfl, ?_⟩
  dsimp only
  have hr := sys_place.2.2.2.2.2
  have hs := hr.stored (s := s) (w := Fld.SYS_RESTORE.GO.only 1) (busy := false) (by decide) h (by rw [hl]; exact restore_place.2.1)
  rw [State.put_sys (x := s.wrote Reg.SYS_RESTORE (regDesc 0 11) _) hr.2.1] at hs
  have hone : Fld.SYS_RESTORE.GO.on (s.wrote Reg.SYS_RESTORE (regDesc 0 11) (Fld.SYS_RESTORE.GO.only 1)).ones = true := by
    rw [State.wrote_ones_on (by rw [hl]; exact restore_place.1)]
    decide
  have ha := restore_place.2.2 s (Fld.SYS_RESTORE.GO.only 1)
  generalize s.wrote Reg.SYS_RESTORE (regDesc 0 11) (Fld.SYS_RESTORE.GO.only 1) = x at hs hone ha
  have hput : (s.putSys x).1 = s.restoreGo := by
    unfold State.putSys
    rw [if_neg (by rw [ha]; decide), if_neg (by rw [ha]; decide), if_neg (by rw [ha]; decide), if_neg (by rw [ha]; decide),
      if_neg (by rw [ha]; decide), if_pos ha]
    exact if_pos hone
  rw [hput] at hs
  have hl' : s.on Reg.SYS_SETUP_LOCK Fld.SYS_SETUP_LOCK.LOCK = false := hl
  unfold State.restoreGo at hs
  rw [h, if_neg (by decide), hl'] at hs
  constructor
  · intro ho
    rw [ho, if_neg (by decide)] at hs
    constructor
    · rw [hs.pwr, State.setFld_pwr]
    · rw [hs.fldOf regNo_SYS_RESTORE, State.fld_setFld _ _ Fld.SYS_RESTORE.STATE _ (by decide)]
      rfl
  · intro ho
    rw [ho, if_pos (by decide)] at hs
    constructor
    · rw [hs.pwr, State.setFld_pwr]; exact h
    · rw [hs.fldOf regNo_SYS_RESTORE, State.fld_setFld _ _ Fld.SYS_RESTORE.STATE _ (by decide)]
      rfl

theorem swsub_place : (∀ l, (regDesc 0 9).reach (.core 0) l ≠ 0) ∧
    (∀ l, (⟨Fld.SYS_SWSUB.UNIT, .rw, fun _ => 0, .none, false, true⟩ : FieldDesc).reached (.core 0) l = true) := by
  decide +kernel

theorem swsubWrite_does : ∀ (v : Word) (s : State), s.pwr.restoring = false →
    s.on Reg.SYS_SWSUB Fld.SYS_SWSUB.GO = false → Does (.swsubWrite v) s fun t =>
      t.fld Reg.SYS_SWSUB Fld.SYS_SWSUB.UNIT = Fld.SYS_SWSUB.UNIT.of v ∧
      t.fld Reg.SYS_SWSUB Fld.SYS_SWSUB.INST = Fld.SYS_SWSUB.INST.of v ∧
      t.on Reg.SYS_SWSUB Fld.SYS_SWSUB.GO = swsubLegal (Fld.SYS_SWSUB.UNIT.of v) (Fld.SYS_SWSUB.INST.of v) := by
  intro v s h hgo
  refine ⟨_, exec_swsubWrite.trans rfl, ?_⟩
  dsimp only
  have hr := sys_place.2.2.2.2.1
  have hs := hr.stored (s := s) (w := Fld.SYS_SWSUB.GO.put 1 v) (busy := false) (by decide) h (swsub_place.1 _)
  rw [State.put_sys (x := s.wrote Reg.SYS_SWSUB (regDesc 0 9) _) hr.2.1] at hs
  have hx := s.sys_noCross Reg.SYS_SWSUB (by simp)
  have h1 := hr.new_fld (s := s) (w := Fld.SYS_SWSUB.GO.put 1 v) hx 0
    (f := ⟨Fld.SYS_SWSUB.UNIT, .rw, fun _ => 0, .none, false, true⟩) rfl (by cases s.locked <;> rfl) (.inl rfl)
  have h2 := hr.new_fld (s := s) (w := Fld.SYS_SWSUB.GO.put 1 v) hx 1
    (f := ⟨Fld.SYS_SWSUB.INST, .rw, fun _ => 0, .none, false, true⟩) rfl (by cases s.locked <;> rfl) (.inl rfl)
  have h3 := hr.new_fld (s := s) (w := Fld.SYS_SWSUB.GO.put 1 v) hx 2
    (f := ⟨Fld.SYS_SWSUB.GO, .rw, fun _ => 0, .none, false, true⟩) rfl (by cases s.locked <;> rfl) (.inl rfl)
  dsimp only [Clamp.apply] at h1 h2 h3
  rw [Nat.mod_eq_of_lt (Bits.of_lt _ _)] at h1 h2 h3
  rw [Bits.of_put_other _ _ (by decide)] at h1 h2
  rw [Bits.of_put Fld.SYS_SWSUB.GO 1 v (by decide)] at h3
  have ha : (s.wrote Reg.SYS_SWSUB (regDesc 0 9) (Fld.SYS_SWSUB.GO.put 1 v)).a = Reg.SYS_SWSUB := rfl
  have ho : (s.wrote Reg.SYS_SWSUB (regDesc 0 9) (Fld.SYS_SWSUB.GO.put 1 v)).old = s.reg Reg.SYS_SWSUB := rfl
  generalize s.wrote Reg.SYS_SWSUB (regDesc 0 9) (Fld.SYS_SWSUB.GO.put 1 v) = x at hs h1 h2 h3 ha ho
  have hgo' : Fld.SYS_SWSUB.GO.on x.old = false := by rw [ho]; exact hgo
  have hput : (s.putSys x).1 = if swsubLegal (Fld.SYS_SWSUB.UNIT.of v) (Fld.SYS_SWSUB.INST.of v)
      then (s.setReg Reg.SYS_SWSUB x.new).swsubGo else s.setReg Reg.SYS_SWSUB (Fld.SYS_SWSUB.GO.put 0 x.new) := by
    unfold State.putSys
    rw [if_pos ha]
    unfold State.putSwsub
    dsimp only
    rw [hgo', if_neg (by decide), h1, h2, ha]
    split <;> rfl
  rw [hput] at hs
  cases hg : swsubLegal (Fld.SYS_SWSUB.UNIT.of v) (Fld.SYS_SWSUB.INST.of v)
  · rw [hg, if_neg (by decide)] at hs
    unfold State.on
    rw [hs.fldOf regNo_SYS_SWSUB, hs.fldOf regNo_SYS_SWSUB, hs.fldOf regNo_SYS_SWSUB]
    unfold State.fld
    rw [State.reg_setReg_same, Bits.of_put_other _ _ (by decide), Bits.of_put_other _ _ (by decide), h1, h2,
      Bits.of_put Fld.SYS_SWSUB.GO 0 _ (by decide)]
    exact ⟨rfl, rfl, rfl⟩
  · rw [hg, if_pos rfl] at hs
    have hf := State.swsubGo_frame (s := s.setReg Reg.SYS_SWSUB x.new)
    unfold State.on
    rw [hs.fldOf regNo_SYS_SWSUB, hs.fldOf regNo_SYS_SWSUB, hs.fldOf regNo_SYS_SWSUB]
    rw [hf.fld regNo_SYS_SWSUB, hf.fld regNo_SYS_SWSUB, hf.fld regNo_SYS_SWSUB]
    unfold State.fld
    rw [State.reg_setReg_same, h1, h2, h3]
    exact ⟨rfl, rfl, rfl⟩

end Sys2Proof.Machine
end

