-- ==== Sys2Proof/Laws/EffectWrites2.lean ====
section
/-! SUPPORT. Reads of latched registers, and writes to PLLs, engine and timebases. -/

set_option Elab.async false

namespace Sys2Proof.Machine

/-! ### Reads -/

theorem lo_reads : ∀ a, a = Reg.CLK_TICKCNT_LO ∨ a = Reg.CLK_RTC_LO ∨ a = Reg.HIC_MTIME_LO ∨ a = Reg.ETH_TVT_TICK →
    elemOf a (Reg.HIC_IRQc_CLAIM 0) 0x10 2 = none ∧ elemOf a (Reg.HIC_SEMn 0) 4 16 = none ∧ (regAt a).isNone = false ∧
    a ≠ Reg.SYS_FAULTSTAT := by
  rintro a (rfl | rfl | rfl | rfl) <;> exact ⟨by decide, by decide, by decide +kernel, by decide⟩

theorem State.busRead_plain {s : State} {a : Nat} (h1 : elemOf a (Reg.HIC_IRQc_CLAIM 0) 0x10 2 = none)
    (h2 : elemOf a (Reg.HIC_SEMn 0) 4 16 = none) : s.busRead 0 a = (s.view a, s.holdUpper a) := by
  unfold State.busRead
  rw [h1, h2]
  rfl

theorem tickcntLoRead_does : ∀ s : State, Does .tickcntLoRead s fun t =>
    t.bus = .value (BitVec.ofNat 32 s.tick) ∧ t.reg Reg.CLK_TICKCNT_HI = BitVec.ofNat 32 (s.tick / 2 ^ 32 % 2 ^ 16) ∧
    t.tick = s.tick := by
  intro s
  refine ⟨_, exec_tickcntLoRead.trans rfl, ?_⟩
  dsimp only
  obtain ⟨h1, h2, h3, h4⟩ := lo_reads Reg.CLK_TICKCNT_LO (.inl rfl)
  rw [State.busRead_plain h1 h2]
  have hv : s.view Reg.CLK_TICKCNT_LO = BitVec.ofNat 32 s.tick := by
    unfold State.view
    rw [h3, if_neg (by decide)]
    dsimp only
    rw [if_neg h4, if_pos (by decide)]
    unfold State.viewClk State.tickLow
    rw [if_pos rfl]
    apply BitVec.eq_of_toNat_eq
    simp
  rw [hv]
  refine ⟨rfl, ?_, rfl⟩
  show (s.holdUpper Reg.CLK_TICKCNT_LO).reg Reg.CLK_TICKCNT_HI = _
  unfold State.holdUpper
  rw [if_pos rfl]
  exact s.reg_setReg_same _ _

theorem rtcLoRead_does : ∀ s : State, Does .rtcLoRead s fun t =>
    t.bus = .value (BitVec.ofNat 32 s.rtcNow) ∧ t.reg Reg.CLK_RTC_HI = BitVec.ofNat 32 (s.rtcNow / 2 ^ 32) ∧ t.clk = s.clk := by
  intro s
  refine ⟨_, exec_rtcLoRead.trans rfl, ?_⟩
  dsimp only
  obtain ⟨h1, h2, h3, h4⟩ := lo_reads Reg.CLK_RTC_LO (.inr (.inl rfl))
  rw [State.busRead_plain h1 h2]
  have hv : s.view Reg.CLK_RTC_LO = BitVec.ofNat 32 s.rtcNow := by
    unfold State.view
    rw [h3, if_neg (by decide)]
    dsimp only
    rw [if_neg h4, if_pos (by decide)]
    unfold State.viewClk
    rw [if_neg (by decide), if_pos rfl]
  rw [hv]
  refine ⟨rfl, ?_, rfl⟩
  show (s.holdUpper Reg.CLK_RTC_LO).reg Reg.CLK_RTC_HI = _
  unfold State.holdUpper
  rw [if_neg (by decide), if_pos rfl]
  exact s.reg_setReg_same _ _

theorem mtimeLoRead_does : ∀ s : State, Does .mtimeLoRead s fun t =>
    t.bus = .value (BitVec.ofNat 32 s.mtime) ∧ t.reg Reg.HIC_MTIME_HI = BitVec.ofNat 32 (s.mtime / 2 ^ 32) ∧ t.now = s.now := by
  intro s
  refine ⟨_, exec_mtimeLoRead.trans rfl, ?_⟩
  dsimp only
  obtain ⟨h1, h2, h3, h4⟩ := lo_reads Reg.HIC_MTIME_LO (.inr (.inr (.inl rfl)))
  rw [State.busRead_plain h1 h2]
  have hv : s.view Reg.HIC_MTIME_LO = BitVec.ofNat 32 s.mtime := by
    unfold State.view
    rw [h3, if_neg (by decide)]
    dsimp only
    rw [if_neg h4, if_neg (by decide), if_neg (by decide), if_neg (by decide), if_neg (by decide), if_neg (by decide), if_pos (by decide)]
    unfold State.viewHic
    rw [if_pos rfl]
  rw [hv]
  refine ⟨rfl, ?_, rfl⟩
  show (s.holdUpper Reg.HIC_MTIME_LO).reg Reg.HIC_MTIME_HI = _
  unfold State.holdUpper
  rw [if_neg (by decide), if_neg (by decide), if_pos rfl]
  exact s.reg_setReg_same _ _

theorem ethTvtTickRead_does : ∀ s : State, Does .ethTvtTickRead s fun t =>
    t.bus = .value (s.reg Reg.ETH_TVT_TICK) ∧ t.vt.frozen = true ∧ t.regs = s.regs := by
  intro s
  refine ⟨_, exec_ethTvtTickRead.trans rfl, ?_⟩
  dsimp only
  obtain ⟨h1, h2, h3, h4⟩ := lo_reads Reg.ETH_TVT_TICK (.inr (.inr (.inr rfl)))
  rw [State.busRead_plain h1 h2]
  have hv : s.view Reg.ETH_TVT_TICK = s.reg Reg.ETH_TVT_TICK := by
    unfold State.view
    rw [h3, if_neg (by decide)]
    dsimp only
    rw [if_neg h4, if_neg (by decide), if_neg (by decide), if_neg (by decide), if_neg (by decide), if_neg (by decide),
      if_neg (by decide), if_neg (by decide), if_neg (by decide), if_neg (by decide)]
  rw [hv]
  have e : s.holdUpper Reg.ETH_TVT_TICK = s.tvtTickRead := by
    unfold State.holdUpper
    rw [if_neg (by decide), if_neg (by decide), if_neg (by decide), if_pos rfl]
  show _ ∧ (s.holdUpper Reg.ETH_TVT_TICK).vt.frozen = _ ∧ (s.holdUpper Reg.ETH_TVT_TICK).regs = _
  rw [e]
  exact ⟨rfl, rfl, rfl⟩

theorem chkRes_place : ∀ n : Fin 4, elemOf (Reg.CHK_Un_RES n) (Reg.HIC_IRQc_CLAIM 0) 0x10 2 = none ∧
    elemOf (Reg.CHK_Un_RES n) (Reg.HIC_SEMn 0) 4 16 = none ∧ unitOf (Reg.CHK_Un_RES n) = 15 ∧
    elemOf (Reg.CHK_Un_RES n) (Reg.CHK_Un_RES 0) 4 4 = some n.val ∧
    Reg.CHK_Un_RES n ≠ Reg.SYS_FAULTSTAT ∧ Reg.CHK_Un_RES n ≠ Reg.CLK_TICKCNT_LO ∧ Reg.CHK_Un_RES n ≠ Reg.CLK_RTC_LO ∧
    Reg.CHK_Un_RES n ≠ Reg.HIC_MTIME_LO ∧ Reg.CHK_Un_RES n ≠ Reg.ETH_TVT_TICK ∧ Reg.CHK_Un_RES n ≠ Reg.ETH_TVT_NS := by
  decide

theorem chkRes_at : ∀ n : Fin 4, (regAt (Reg.CHK_Un_RES n)).isNone = false := by decide +kernel

theorem chkResultRead_does : ∀ (n : Fin 4) (s : State), Does (.chkResultRead n) s fun t =>
    t.bus = .value (s.chkResult n) ∧ t.chk = s.chk ∧ t.regs = s.regs := by
  intro n s
  refine ⟨_, exec_chkResultRead.trans rfl, ?_⟩
  dsimp only
  obtain ⟨h1, h2, hu, he, h4, h5, h6, h7, h8, h9⟩ := chkRes_place n
  rw [State.busRead_plain h1 h2]
  have hv : s.view (Reg.CHK_Un_RES n) = s.chkResult n := by
    unfold State.view
    rw [chkRes_at, if_neg (by decide)]
    dsimp only
    rw [if_neg h4, hu, if_neg (by decide), if_neg (by decide), if_neg (by decide), if_neg (by decide), if_pos rfl]
    unfold State.viewChk
    rw [he]
  rw [hv]
  have e : s.holdUpper (Reg.CHK_Un_RES n) = s := by
    unfold State.holdUpper
    rw [if_neg h5, if_neg h6, if_neg h7, if_neg h8, if_neg h9]
  show _ ∧ (s.holdUpper (Reg.CHK_Un_RES n)).chk = _ ∧ (s.holdUpper (Reg.CHK_Un_RES n)).regs = _
  rw [e]
  exact ⟨rfl, rfl, rfl⟩

/-! ### PLLs -/

theorem State.fld_setFld_apart (s : State) (a b : Nat) (f g : Bits) (v : Nat)
    (h : f.lo + f.width ≤ g.lo ∨ g.lo + g.width ≤ f.lo) : (s.setFld a f v).fld b g = s.fld b g := by
  by_cases e : b = a
  · subst e; exact s.fld_setFld_field _ v h
  · exact s.fld_setFld_other f g v e

/-- Moves of the clock domains leave the states of the PLLs. -/
theorem State.moveDomains_pllState (s : State) (x : Option Nat) (p : Nat) : (s.moveDomains x).pllState p = s.pllState p := by
  have k := regNo_CLK_PLLp_STAT p
  unfold State.moveDomains State.pllState
  dsimp only
  have h4 : ∀ w : State, (([0, 1, 2, 3].foldl (State.moveTb x) w).fld (Reg.CLK_PLLp_STAT p) Fld.CLK_PLLp_STAT.STATE) =
      w.fld (Reg.CLK_PLLp_STAT p) Fld.CLK_PLLp_STAT.STATE := by
    intro w
    simp only [List.foldl]
    rw [(State.moveTb_frame (x0 := x)).fld k, (State.moveTb_frame (x0 := x)).fld k, (State.moveTb_frame (x0 := x)).fld k,
      (State.moveTb_frame (x0 := x)).fld k]
  rw [h4]
  unfold State.showCarry
  rw [State.fld_setFld_apart _ _ _ Fld.CLK_PLLp_STAT.CARRY Fld.CLK_PLLp_STAT.STATE _ (by decide),
    State.fld_setFld_apart _ _ _ Fld.CLK_PLLp_STAT.CARRY Fld.CLK_PLLp_STAT.STATE _ (by decide),
    State.moveAdc_frame.fld k, State.moveFabric_frame.fld k]
  have hf := State.settle_frame (s := s)
  generalize s.settle = u at hf
  exact (State.fld_of_regs (s := u) rfl _ _).trans (hf.fld k)

theorem State.pllProgrammed_state (s : State) (p : Nat) (was : Bool) (hg : s.pllGone p = false)
    (h : was = true ∨ s.pllEn p = true) :
    (s.pllProgrammed p was).pllState p = if s.pllEn p then pllFilter else pllOff := by
  have k := regNo_CLK_PLLp_STAT p
  unfold State.pllProgrammed
  rw [if_neg (by rcases h with h | h <;> simp [h, hg])]
  extract_lets c u l v
  have hu : u.pllState p = if s.pllEn p then pllFilter else pllOff := by
    unfold u
    split
    · unfold State.restartPll
      extract_lets a b b'
      have hb : b'.pllState p = pllFilter := by
        unfold b' State.pllState
        rw [State.f2Ends_frame.fld k]
        unfold b State.setPllState
        exact (State.fld_of_regs (s := s.setFld (Reg.CLK_PLLp_STAT p) Fld.CLK_PLLp_STAT.STATE pllFilter) rfl _ _).trans
          (State.fld_setFld _ _ Fld.CLK_PLLp_STAT.STATE _ (by decide))
      split
      · rw [← hb]
        unfold State.pllState
        exact (State.fld_of_regs (s := b'.setReg (Reg.CLK_PLLp_OFS 1) 0) rfl _ _).trans
          (State.fld_setReg_other _ _ _ (reg_ne k (regNo_CLK_PLLp_OFS 1)))
      · exact hb
    · unfold State.setPllState State.pllState
      exact State.fld_setFld _ _ Fld.CLK_PLLp_STAT.STATE _ (by decide)
  have hv : v.pllState p = u.pllState p := by
    unfold v
    split
    · exact State.postBackup_frame.fld k
    · rfl
  have h3 : ((v.moveDomains none).afterMoves l).pllState p = (v.moveDomains none).pllState p := State.afterMoves_frame.fld k
  rw [h3, State.moveDomains_pllState, hv, hu]

theorem pll_place : (∀ p : Fin 2, IsReg (Reg.CLK_PLLp_CFG p) 1 4 p ∧ elemOf (Reg.CLK_PLLp_CFG p) (Reg.CLK_PLLp_CFG 0) 0x20 2 = some p.val ∧
      Reg.CLK_PLLp_CFG p ≠ Reg.CLK_TICKCFG ∧ Reg.CLK_PLLp_CFG p ≠ Reg.CLK_TICKIN_OFS ∧
      (elemOf (Reg.CLK_PLLp_CFG p) (Reg.CLK_OUTn_CFG 0) 4 2).isSome = false) ∧
    (∀ p : Fin 2, IsReg (Reg.CLK_PLLp_FRAC p) 1 5 p ∧ elemOf (Reg.CLK_PLLp_FRAC p) (Reg.CLK_PLLp_CFG 0) 0x20 2 = none ∧
      elemOf (Reg.CLK_PLLp_FRAC p) (Reg.CLK_PLLp_FRAC 0) 0x20 2 = some p.val ∧
      Reg.CLK_PLLp_FRAC p ≠ Reg.CLK_TICKCFG ∧ Reg.CLK_PLLp_FRAC p ≠ Reg.CLK_TICKIN_OFS ∧
      (elemOf (Reg.CLK_PLLp_FRAC p) (Reg.CLK_OUTn_CFG 0) 4 2).isSome = false) ∧
    (regDesc 1 4).reach (.core 0) false ≠ 0 ∧ (regDesc 1 5).reach (.core 0) false ≠ 0 := by decide +kernel

theorem State.clk_noCross (s : State) {a : Nat} (hu : unitOf a = 1) (h1 : (elemOf a (Reg.CLK_OUTn_CFG 0) 4 2).isSome = false)
    (h2 : a ≠ Reg.CLK_TICKIN_OFS) (v : Word) : s.crossClamp a v = v := by
  unfold State.crossClamp
  dsimp only
  rw [hu, if_pos rfl]
  unfold State.clampClk
  rw [h1, if_neg (by decide), if_neg h2]

theorem State.pllGone_setReg (s : State) {a : Nat} (w : Word) (p : Nat) (h : Reg.CLK_PLLp_STAT p ≠ a) :
    (s.setReg a w).pllGone p = s.pllGone p := by
  unfold State.pllGone State.pllState
  rw [State.fld_setReg_other _ _ _ h]

theorem pllProgramWrite_does :
    (∀ (p : Fin 2) (w : Word) (s : State), s.pwr.restoring = false → s.locked = false → s.pllGone p = false →
      Fld.CLK_PLLp_CFG.EN.on w = true ∨ s.pllEn p = true → Does (.pllProgramWrite p false w) s fun t =>
        t.pllEn p = Fld.CLK_PLLp_CFG.EN.on w ∧ t.pllState p = if Fld.CLK_PLLp_CFG.EN.on w then pllFilter else pllOff) ∧
    (∀ (p : Fin 2) (w : Word) (s : State), s.pwr.restoring = false → s.locked = false → s.pllGone p = false →
      s.pllEn p = true → Does (.pllProgramWrite p true w) s fun t =>
        t.fld (Reg.CLK_PLLp_FRAC p) Fld.CLK_PLLp_FRAC.NFRAC = Fld.CLK_PLLp_FRAC.NFRAC.of w ∧ t.pllState p = pllFilter) := by
  constructor
  · intro p w s h hl hg he
    refine ⟨_, exec_pllProgramWrite.trans rfl, ?_⟩
    dsimp only
    rw [if_neg (by decide)]
    obtain ⟨hr, h1, h2, h3, h4⟩ := pll_place.1 p
    have hs := hr.stored (s := s) (w := w) (busy := false) (by decide) h (by rw [hl]; exact pll_place.2.2.1)
    have hn := hr.new_fld (s := s) (w := w) (s.clk_noCross hr.2.1 h4 h3) 0
      (f := ⟨Fld.CLK_PLLp_CFG.EN, .rwl, fun _ => 1, .none, true, false⟩) rfl (by rw [hl]; rfl) (.inr rfl)
    rw [State.put_clk (x := s.wrote (Reg.CLK_PLLp_CFG p) (regDesc 1 4) _) hr.2.1] at hs
    have ha : (s.wrote (Reg.CLK_PLLp_CFG p) (regDesc 1 4) w).a = Reg.CLK_PLLp_CFG p := rfl
    have ho : (s.wrote (Reg.CLK_PLLp_CFG p) (regDesc 1 4) w).old = s.reg (Reg.CLK_PLLp_CFG p) := rfl
    generalize s.wrote (Reg.CLK_PLLp_CFG p) (regDesc 1 4) w = x at hs hn ha ho
    dsimp only [Clamp.apply] at hn
    rw [Nat.mod_eq_of_lt (Bits.of_lt _ _)] at hn
    have hput : (s.putClk x).1 = (s.setReg (Reg.CLK_PLLp_CFG p) x.new).pllProgrammed p (s.pllEn p) := by
      unfold State.putClk
      rw [ha, if_neg h2]
      dsimp only
      rw [h1, ho]
      rfl
    rw [hput] at hs
    have hen : (s.setReg (Reg.CLK_PLLp_CFG p) x.new).pllEn p = Fld.CLK_PLLp_CFG.EN.on w := by
      unfold State.pllEn State.on
      rw [State.fld_setReg_same, hn]
      rfl
    have hg' := (s.pllGone_setReg x.new p (reg_ne (regNo_CLK_PLLp_STAT p) (regNo_CLK_PLLp_CFG p))).trans hg
    generalize s.setReg (Reg.CLK_PLLp_CFG p) x.new = v at hs hen hg'
    constructor
    · unfold State.pllEn
      rw [hs.onOf (regNo_CLK_PLLp_CFG _), State.pllProgrammed_frame.on (regNo_CLK_PLLp_CFG _)]
      exact hen
    · unfold State.pllState
      rw [hs.fldOf (regNo_CLK_PLLp_STAT _)]
      have := v.pllProgrammed_state p (s.pllEn p) hg' (by rw [hen]; exact he.symm)
      rw [hen] at this
      exact this
  · intro p w s h hl hg he
    refine ⟨_, exec_pllProgramWrite.trans rfl, ?_⟩
    dsimp only
    rw [if_pos rfl]
    obtain ⟨hr, h0, h1, h2, h3, h4⟩ := pll_place.2.1 p
    have hs := hr.stored (s := s) (w := w) (busy := false) (by decide) h (by rw [hl]; exact pll_place.2.2.2)
    have hn := hr.new_fld (s := s) (w := w) (s.clk_noCross hr.2.1 h4 h3) 0
      (f := ⟨Fld.CLK_PLLp_FRAC.NFRAC, .rwl, fun _ => 0, .none, true, false⟩) rfl (by rw [hl]; rfl) (.inr rfl)
    rw [State.put_clk (x := s.wrote (Reg.CLK_PLLp_FRAC p) (regDesc 1 5) _) hr.2.1] at hs
    have ha : (s.wrote (Reg.CLK_PLLp_FRAC p) (regDesc 1 5) w).a = Reg.CLK_PLLp_FRAC p := rfl
    generalize s.wrote (Reg.CLK_PLLp_FRAC p) (regDesc 1 5) w = x at hs hn ha
    dsimp only [Clamp.apply] at hn
    rw [Nat.mod_eq_of_lt (Bits.of_lt _ _)] at hn
    have hput : (s.putClk x).1 = (s.setReg (Reg.CLK_PLLp_FRAC p) x.new).pllProgrammed p
        ((s.setReg (Reg.CLK_PLLp_FRAC p) x.new).pllEn p) := by
      unfold State.putClk
      rw [ha, if_neg h2]
      dsimp only
      rw [h0, h1]
    rw [hput] at hs
    have hen : (s.setReg (Reg.CLK_PLLp_FRAC p) x.new).pllEn p = true := by
      rw [← he]
      unfold State.pllEn State.on
      rw [State.fld_setReg_other _ _ _ (reg_ne (regNo_CLK_PLLp_CFG _) (regNo_CLK_PLLp_FRAC _))]
    have hf : (s.setReg (Reg.CLK_PLLp_FRAC p) x.new).fld (Reg.CLK_PLLp_FRAC p) Fld.CLK_PLLp_FRAC.NFRAC = Fld.CLK_PLLp_FRAC.NFRAC.of w := by
      rw [State.fld_setReg_same, hn]
    have hg' := (s.pllGone_setReg x.new p (reg_ne (regNo_CLK_PLLp_STAT p) (regNo_CLK_PLLp_FRAC p))).trans hg
    generalize s.setReg (Reg.CLK_PLLp_FRAC p) x.new = v at hs hen hg' hf
    constructor
    · rw [hs.fldOf (regNo_CLK_PLLp_FRAC _), State.pllProgrammed_frame.fld (regNo_CLK_PLLp_FRAC _)]
      exact hf
    · unfold State.pllState
      rw [hs.fldOf (regNo_CLK_PLLp_STAT _)]
      exact (v.pllProgrammed_state p (v.pllEn p) hg' (.inr hen)).trans (if_pos hen)

theorem State.put_eng {s : State} {x : Wr} {busy : Bool} (h : unitOf x.a = UnitCode.eng) : s.put x busy = (s.putEng x, false) := by
  unfold State.put
  dsimp only
  rw [h]
  repeat rw [if_neg (by decide)]
  exact if_pos rfl

theorem State.putEng_bind {s s' : State} {x : Wr} {n : Nat} (h : x.a ≠ Reg.ENG_CFG)
    (he : elemOf x.a (Reg.ENG_BINDn 0) 4 256 = some n) (hw : s.writeBind n x.new = .inl s') : s.putEng x = s' := by
  unfold State.putEng
  rw [if_neg h, he]
  dsimp only
  rw [hw]

theorem Bits.put_put (f : Bits) (a b : Nat) (w : Word) : f.put a (f.put b w) = f.put a w := by
  apply BitVec.eq_of_getLsbD_eq
  intro i hi
  rw [Bits.getLsbD_put _ _ _ _ hi, Bits.getLsbD_put _ _ _ _ hi, Bits.getLsbD_put _ _ _ _ hi]
  split <;> rfl

/-! ### Control engine -/

theorem eng_place : IsReg Reg.ENG_CFG 3 0 0 ∧ (∀ n : Fin 256, IsReg (Reg.ENG_BINDn n) 3 9 n) ∧
    (∀ n : Fin 256, elemOf (Reg.ENG_BINDn n) (Reg.ENG_BINDn 0) 4 256 = some n.val ∧ Reg.ENG_BINDn n ≠ Reg.ENG_CFG) ∧
    (regDesc 3 0).reach (.core 0) false ≠ 0 ∧ (regDesc 3 9).reach (.core 0) false ≠ 0 ∧
    (elemOf Reg.ENG_CFG (Reg.ENG_BINDn 0) 4 256).isSome = false := by decide +kernel

theorem State.busWord_eq {s : State} {a i : Nat} {d : RegDesc} (h : regAt a = some (d, i)) (w : Word) :
    s.busWord a w = (s.wrote a d w).new := by
  unfold State.busWord
  rw [h]
  rfl

/-- A bus write that is turned away reports it and leaves the rest. -/
theorem State.blockStore_away {s : State} {a i : Nat} {d : RegDesc} {w : Word} {r : State → State}
    (hr : regAt a = some (d, i)) (hc : canonical a = a) (hrest : s.pwr.restoring = false)
    (hcov : d.reach (.core 0) s.locked ≠ 0) (hta : s.turnedAway (s.wrote a d w) = some r) :
    s.blockStore 0 a w = ((r s).scanSpoil a 4).stored := by
  unfold State.blockStore State.busWrite
  rw [hc, State.prepare_eq hr hrest hcov, Option.elim_some]
  unfold State.makeWrite
  rw [hta]

theorem engRunSet_does : ∀ (cfg : Word) (s : State), s.pwr.restoring = false → s.locked = false →
    s.on Reg.ENG_CFG Fld.ENG_CFG.RUN = false → Does (.engRunSet cfg) s fun t =>
      (s.runAdmitted cfg = true → t.on Reg.ENG_CFG Fld.ENG_CFG.RUN = true ∧ t.fld Reg.ENG_STAT Fld.ENG_STAT.RUN = 1 ∧
        t.activeSched = Fld.ENG_CFG.SCHED.of cfg ∧ t.eng.windowStart = s.tick ∧ t.eng.ran = [] ∧ t.eng.sigs = [] ∧
        t.eng.windows = 0 ∧ t.eng.saltDue = none) ∧
      (s.runAdmitted cfg = false → t.reg Reg.ENG_CFG = s.reg Reg.ENG_CFG ∧ t.reg Reg.ENG_STAT = s.reg Reg.ENG_STAT ∧
        t.eng = s.eng) := by
  intro cfg s h hl ho
  refine ⟨_, exec_engRunSet.trans rfl, ?_⟩
  dsimp only
  have hr := eng_place.1
  have hcov : (regDesc 3 0).reach (.core 0) s.locked ≠ 0 := by rw [hl]; exact eng_place.2.2.2.1
  have hx : ∀ v, s.crossClamp Reg.ENG_CFG v = v := by
    intro v
    unfold State.crossClamp
    dsimp only
    rw [hr.2.1, if_neg (by decide), if_neg (by decide), if_pos rfl, eng_place.2.2.2.2.2, if_neg (by decide)]
  have h1 := hr.new_fld (s := s) (w := Fld.ENG_CFG.RUN.put 1 cfg) hx 0
    (f := ⟨Fld.ENG_CFG.SCHED, .rwl, fun _ => 0, .none, false, false⟩) rfl (by rw [hl]; rfl) (.inr rfl)
  have h2 := hr.new_fld (s := s) (w := Fld.ENG_CFG.RUN.put 1 cfg) hx 1
    (f := ⟨Fld.ENG_CFG.RUN, .rwl, fun _ => 0, .none, true, false⟩) rfl (by rw [hl]; rfl) (.inr rfl)
  dsimp only [Clamp.apply] at h1 h2
  rw [Nat.mod_eq_of_lt (Bits.of_lt _ _)] at h1 h2
  rw [Bits.of_put_other _ _ (by decide)] at h1
  rw [Bits.of_put Fld.ENG_CFG.RUN 1 _ (by decide)] at h2
  have hbw : s.busWord Reg.ENG_CFG (Fld.ENG_CFG.RUN.put 1 cfg) = (s.wrote Reg.ENG_CFG (regDesc 3 0) (Fld.ENG_CFG.RUN.put 1 cfg)).new :=
    State.busWord_eq hr.at _
  unfold State.runAdmitted
  rw [hbw]
  have hst := State.blockStore_stored (s := s) (w := Fld.ENG_CFG.RUN.put 1 cfg) (busy := false) hr.at hr.2.2.1 h hcov
  have haw := @State.blockStore_away s _ _ _ (Fld.ENG_CFG.RUN.put 1 cfg) (hr := hr.at) (hc := hr.2.2.1) (hrest := h) (hcov := hcov)
  have ha : (s.wrote Reg.ENG_CFG (regDesc 3 0) (Fld.ENG_CFG.RUN.put 1 cfg)).a = Reg.ENG_CFG := rfl
  have hold : (s.wrote Reg.ENG_CFG (regDesc 3 0) (Fld.ENG_CFG.RUN.put 1 cfg)).old = s.reg Reg.ENG_CFG := rfl
  generalize s.wrote Reg.ENG_CFG (regDesc 3 0) (Fld.ENG_CFG.RUN.put 1 cfg) = x at hst haw ha hold h1 h2
  have hrise : x.rises Fld.ENG_CFG.RUN = true := by
    unfold Wr.rises
    rw [hold, show Fld.ENG_CFG.RUN.on (s.reg Reg.ENG_CFG) = false from ho]
    unfold Bits.on
    rw [h2]
    rfl
  cases hw : s.writeRun x.new with
  | inr r =>
    have hta : s.turnedAway x = some r := by
      unfold State.turnedAway
      rw [if_pos ha, if_pos hrise, hw]
    refine ⟨fun e => absurd e Bool.false_ne_true, fun _ => ?_⟩
    rw [haw r hta]
    have hf : Frame Foot.engineRefusal s (r s) := by
      unfold State.writeRun at hw
      extract_lets cand at hw
      cases he : cand.engineRefusal with
      | none => rw [he] at hw; cases hw
      | some r' =>
        rw [he] at hw
        cases hw
        exact State.engineRefusal_frame (s := cand) r he s
    have hsc := (r s).scanSpoil_eq Reg.ENG_CFG 4
    have hk : ∀ b, (((r s).scanSpoil Reg.ENG_CFG 4).stored).reg b = (r s).reg b := by
      intro b
      show ((r s).scanSpoil Reg.ENG_CFG 4).reg b = _
      rw [hsc]
      rfl
    refine ⟨(hk _).trans (hf.reg regNo_ENG_CFG), (hk _).trans (hf.reg regNo_ENG_STAT), ?_⟩
    rw [← hf.eng (by decide)]
    show ((r s).scanSpoil Reg.ENG_CFG 4).eng = _
    rw [hsc]
  | inl s' =>
    have hta : s.turnedAway x = none := by
      unfold State.turnedAway
      rw [if_pos ha, if_pos hrise, hw]
    have hp : (s.put x).1 = s' := by
      unfold State.put
      dsimp only
      rw [show unitOf x.a = 3 by rw [ha]; rfl, if_neg (by decide), if_neg (by decide), if_neg (by decide), if_pos rfl]
      unfold State.putEng
      rw [if_pos ha, if_pos hrise, hw]
    have hs := hst hta
    rw [hp] at hs
    refine ⟨fun _ => ?_, fun e => absurd e.symm Bool.false_ne_true⟩
    unfold State.writeRun at hw
    extract_lets cand v src at hw
    cases he : cand.engineRefusal with
    | some r => rw [he] at hw; cases hw
    | none =>
      rw [he] at hw
      injection hw with hw
      subst hw
      have hv0 : v.regs = ((cand.setFld Reg.ENG_STAT Fld.ENG_STAT.RUN 1).setFld Reg.TPR_STAT Fld.TPR_STAT.WPOS 0).regs := rfl
      clear_value v
      obtain ⟨u, hu, hu1, hu2, hu3, hu4, hu5, hs⟩ : ∃ u : State, u.regs = v.regs ∧ u.eng.windowStart = s.tick ∧ u.eng.ran = [] ∧
          u.eng.sigs = [] ∧ u.eng.windows = 0 ∧ u.eng.saltDue = none ∧ Stored Reg.ENG_CFG u.refreshToll (s.blockStore 0 Reg.ENG_CFG (Fld.ENG_CFG.RUN.put 1 cfg)) :=
        ⟨{ v with eng := { src with windowStart := s.tick, ran := [], sigs := [], windows := 0, saltDue := none } },
          rfl, rfl, rfl, rfl, rfl, rfl, hs⟩
      have hf : Frame Foot.refreshToll u u.refreshToll := State.refreshToll_frame
      have hvr : u.regs = ((cand.setFld Reg.ENG_STAT Fld.ENG_STAT.RUN 1).setFld Reg.TPR_STAT Fld.TPR_STAT.WPOS 0).regs := hu.trans hv0
      have hcs : ∀ b, b ≠ Reg.ENG_STAT → b ≠ Reg.TPR_STAT → u.reg b = (s.setReg Reg.ENG_CFG x.new).reg b := by
        intro b h1 h2
        unfold State.reg
        rw [hvr]
        show State.reg _ b = State.reg _ b
        unfold cand State.setFld
        rw [State.reg_setReg_other _ _ h2, State.reg_setReg_other _ _ h1, State.reg_setReg_other _ _ h1]
      have hstat : u.reg Reg.ENG_STAT = Fld.ENG_STAT.RUN.put 1 (cand.reg Reg.ENG_STAT) := by
        unfold State.reg
        rw [hvr]
        show State.reg _ Reg.ENG_STAT = _
        unfold State.setFld
        rw [State.reg_setReg_other _ _ (reg_ne regNo_ENG_STAT regNo_TPR_STAT), State.reg_setReg_same]
        rfl
      have hcand : Fld.ENG_STAT.SCHED.of (cand.reg Reg.ENG_STAT) = Fld.ENG_CFG.SCHED.of x.new := by
        have := State.fld_setFld (s.setReg Reg.ENG_CFG x.new) Reg.ENG_STAT Fld.ENG_STAT.SCHED (Fld.ENG_CFG.SCHED.of x.new) (by decide)
        exact this.trans (Nat.mod_eq_of_lt (Bits.of_lt Fld.ENG_CFG.SCHED x.new))
      refine ⟨?_, ?_, ?_, ?_, ?_, ?_, ?_, ?_⟩
      · rw [hs.onOf regNo_ENG_CFG, hf.on regNo_ENG_CFG]
        unfold State.on State.fld
        rw [hcs _ (reg_ne regNo_ENG_CFG regNo_ENG_STAT) (reg_ne regNo_ENG_CFG regNo_TPR_STAT), State.reg_setReg_same, h2]
        rfl
      · rw [hs.fldOf regNo_ENG_STAT, hf.fld regNo_ENG_STAT]
        unfold State.fld
        rw [hstat, Bits.of_put Fld.ENG_STAT.RUN 1 _ (by decide)]
        rfl
      · unfold State.activeSched
        rw [hs.fldOf regNo_ENG_STAT, hf.fld regNo_ENG_STAT]
        unfold State.fld
        rw [hstat, Bits.of_put_other _ _ (by decide), hcand, h1]
      · rw [hs.eng, hf.eng (by decide)]; exact hu1
      · rw [hs.eng, hf.eng (by decide)]; exact hu2
      · rw [hs.eng, hf.eng (by decide)]; exact hu3
      · rw [hs.eng, hf.eng (by decide)]; exact hu4
      · rw [hs.eng, hf.eng (by decide)]; exact hu5

theorem State.bind_new (s : State) (n : Fin 256) (w : Word) (hl : s.locked = false) :
    ∃ v, Fld.ENG_BINDn.SRC.of v = Fld.ENG_BINDn.SRC.of w ∧ Fld.ENG_BINDn.SINK.of v = Fld.ENG_BINDn.SINK.of w ∧
      Fld.ENG_BINDn.EN.of v = Fld.ENG_BINDn.EN.of w ∧ bindWord (s.wrote (Reg.ENG_BINDn n) (regDesc 3 9) w).new = bindWord v := by
  have hr := eng_place.2.1 n
  obtain ⟨he, hne⟩ := eng_place.2.2.1 n
  refine ⟨((regDesc 3 9).written (.core 0) s.locked (s.reg (Reg.ENG_BINDn n)) w 0xFFFFFFFF).1, ?_, ?_, ?_, ?_⟩
  · rw [RegDesc.written_of (f := ⟨Fld.ENG_BINDn.SRC, .rwl, fun _ => 0, .cross, false, false⟩) 0 (regAt_apart hr.at) rfl,
      if_pos (by rw [hl]; rfl), FieldDesc.written_full (by simp) (by decide) (by decide)]
    exact Nat.mod_eq_of_lt (Bits.of_lt _ _)
  · rw [RegDesc.written_of (f := ⟨Fld.ENG_BINDn.SINK, .rwl, fun _ => 0, .cross, false, false⟩) 1 (regAt_apart hr.at) rfl,
      if_pos (by rw [hl]; rfl), FieldDesc.written_full (by simp) (by decide) (by decide)]
    exact Nat.mod_eq_of_lt (Bits.of_lt _ _)
  · rw [RegDesc.written_of (f := ⟨Fld.ENG_BINDn.EN, .rwl, fun _ => 0, .none, false, false⟩) 2 (regAt_apart hr.at) rfl,
      if_pos (by rw [hl]; rfl), FieldDesc.written_full (by simp) (by decide) (by decide)]
    exact Nat.mod_eq_of_lt (Bits.of_lt _ _)
  · generalize hv : ((regDesc 3 9).written (.core 0) s.locked (s.reg (Reg.ENG_BINDn n)) w 0xFFFFFFFF) = v
    unfold State.wrote State.written
    dsimp only
    rw [hv, s.settled_word (by rw [hr.2.1]; decide)]
    unfold State.crossClamp
    dsimp only
    rw [hr.2.1, if_neg (by decide), if_neg (by decide), if_pos rfl, he, if_pos Option.isSome_some]
    unfold bindWord
    split
    · next c =>
      rw [Bits.of_put_other _ _ (by decide), Bits.of_put_other _ _ (by decide), if_pos c]
      generalize v.1 = z
      apply Bits.put_put
    · rfl

theorem bindWord_of {v w : Word} (hv1 : Fld.ENG_BINDn.SRC.of v = Fld.ENG_BINDn.SRC.of w)
    (hv2 : Fld.ENG_BINDn.SINK.of v = Fld.ENG_BINDn.SINK.of w) (hv3 : Fld.ENG_BINDn.EN.of v = Fld.ENG_BINDn.EN.of w) :
    Fld.ENG_BINDn.SRC.of (bindWord v) = Fld.ENG_BINDn.SRC.of w ∧ Fld.ENG_BINDn.SINK.of (bindWord v) = Fld.ENG_BINDn.SINK.of w ∧
      Fld.ENG_BINDn.EN.on (bindWord v) = (Fld.ENG_BINDn.EN.on w && decide (0x400 ≤ Fld.ENG_BINDn.SRC.of w) &&
        (sinkType (Fld.ENG_BINDn.SINK.of w)).isSome) := by
  unfold bindWord Bits.on
  rw [hv1, hv2]
  split
  · next c =>
    rw [Bits.of_put_other _ _ (by decide), Bits.of_put_other _ _ (by decide), hv1, hv2, Bits.of_put Fld.ENG_BINDn.EN 0 _ (by decide)]
    refine ⟨rfl, rfl, ?_⟩
    rcases c with c | c
    · rw [decide_eq_false (by omega)]; simp
    · rw [c]; simp
  · next c =>
    rw [hv1, hv2, hv3]
    refine ⟨rfl, rfl, ?_⟩
    rw [decide_eq_true (by omega)]
    cases hk : sinkType (Fld.ENG_BINDn.SINK.of w) with
    | none => exact absurd (.inr hk) c
    | some _ => simp

theorem State.turnedAway_bind {s : State} {x : Wr} {n : Nat} (h : x.a ≠ Reg.ENG_CFG)
    (he : elemOf x.a (Reg.ENG_BINDn 0) 4 256 = some n) :
    s.turnedAway x = match s.writeBind n x.new with | .inl _ => none | .inr r => some r := by
  unfold State.turnedAway
  rw [if_neg h]
  simp only [he]

theorem engBindWrite_does : ∀ (n : Fin 256) (w : Word) (s : State), s.pwr.restoring = false → s.locked = false →
    Does (.engBindWrite n w) s fun t =>
      (s.bindAdmitted n w = true → t.fld (Reg.ENG_BINDn n) Fld.ENG_BINDn.SRC = Fld.ENG_BINDn.SRC.of w ∧
        t.fld (Reg.ENG_BINDn n) Fld.ENG_BINDn.SINK = Fld.ENG_BINDn.SINK.of w ∧
        t.bindEn n = (Fld.ENG_BINDn.EN.on w && decide (0x400 ≤ Fld.ENG_BINDn.SRC.of w) &&
          (sinkType (Fld.ENG_BINDn.SINK.of w)).isSome)) ∧
      (s.bindAdmitted n w = false → t.reg (Reg.ENG_BINDn n) = s.reg (Reg.ENG_BINDn n)) := by
  intro n w s h hl
  refine ⟨_, exec_engBindWrite.trans rfl, ?_⟩
  dsimp only
  have hr := eng_place.2.1 n
  obtain ⟨he, hne⟩ := eng_place.2.2.1 n
  have hcov : (regDesc 3 9).reach (.core 0) s.locked ≠ 0 := by rw [hl]; exact eng_place.2.2.2.2.1
  have hbw : s.busWord (Reg.ENG_BINDn n) w = (s.wrote (Reg.ENG_BINDn n) (regDesc 3 9) w).new := State.busWord_eq hr.at _
  obtain ⟨v, hv1, hv2, hv3, hvb⟩ := s.bind_new n w hl
  have hb := bindWord_of hv1 hv2 hv3
  unfold State.bindAdmitted
  rw [hbw]
  have hst := State.blockStore_stored (s := s) (w := w) (busy := false) hr.at hr.2.2.1 h hcov
  have haw := @State.blockStore_away s _ _ _ w (hr := hr.at) (hc := hr.2.2.1) (hrest := h) (hcov := hcov)
  have ha : (s.wrote (Reg.ENG_BINDn n) (regDesc 3 9) w).a = Reg.ENG_BINDn n := rfl
  generalize s.wrote (Reg.ENG_BINDn n) (regDesc 3 9) w = x at hst haw ha hvb
  have hxa : x.a ≠ Reg.ENG_CFG := by rw [ha]; exact hne
  have hxe : elemOf x.a (Reg.ENG_BINDn 0) 4 256 = some n.val := by rw [ha]; exact he
  cases hw : s.writeBind n x.new with
  | inr r =>
    have hta : s.turnedAway x = some r := by
      rw [State.turnedAway_bind hxa hxe, hw]
    refine ⟨fun e => absurd e Bool.false_ne_true, fun _ => ?_⟩
    rw [haw r hta]
    have hf : Frame Foot.engineRefusal s (r s) := by
      unfold State.writeBind at hw
      extract_lets cand at hw
      split at hw
      · cases hc : cand.engineRefusal with
        | none => rw [hc] at hw; cases hw
        | some r' =>
          rw [hc] at hw
          cases hw
          exact State.engineRefusal_frame (s := cand) r hc s
      · cases hw
    refine Eq.trans ?_ (hf.reg (regNo_ENG_BINDn _))
    show ((r s).scanSpoil (Reg.ENG_BINDn n) 4).reg _ = _
    rw [(r s).scanSpoil_eq (Reg.ENG_BINDn n) 4]
    rfl
  | inl s' =>
    have hta : s.turnedAway x = none := by
      rw [State.turnedAway_bind hxa hxe, hw]
    have hp : (s.put x).1 = s' := by
      rw [State.put_eng (by rw [ha]; exact hr.2.1)]
      exact State.putEng_bind hxa hxe hw
    have hs := hst hta
    rw [hp] at hs
    refine ⟨fun _ => ?_, fun e => absurd e.symm Bool.false_ne_true⟩
    have hs' : s' = (s.setReg (Reg.ENG_BINDn n) (bindWord v)).refreshToll := by
      unfold State.writeBind at hw
      rw [hvb] at hw
      extract_lets cand at hw
      split at hw
      · cases hc : cand.engineRefusal with
        | none => rw [hc] at hw; injection hw with hw; exact hw.symm
        | some r' => rw [hc] at hw; cases hw
      · injection hw with hw; exact hw.symm
    have hreg : (s.blockStore 0 (Reg.ENG_BINDn n) w).reg (Reg.ENG_BINDn n) = bindWord v := by
      rw [hs.regOf (regNo_ENG_BINDn _), hs', State.refreshToll_frame.reg (regNo_ENG_BINDn _)]
      exact s.reg_setReg_same _ _
    unfold State.bindEn State.on State.fld
    rw [hreg]
    exact hb

end Sys2Proof.Machine
end

