-- ==== Sys2Proof/Laws/EffectClocks.lean ====
section
/-! SUPPORT. What the events of references, PLLs and the tick input do. -/

set_option Elab.async false

namespace Sys2Proof.Machine

theorem State.pllState_setPllState (s : State) (p v : Nat) (h : v < 8) : (s.setPllState p v).pllState p = v := by
  unfold State.pllState State.setPllState
  rw [s.fld_setFld (Reg.CLK_PLLp_STAT p) Fld.CLK_PLLp_STAT.STATE]
  exact Nat.mod_eq_of_lt h

theorem State.pllState_setPllState_other (s : State) (p q v : Nat) (h : Reg.CLK_PLLp_STAT q ≠ Reg.CLK_PLLp_STAT p) :
    (s.setPllState p v).pllState q = s.pllState q := by
  unfold State.pllState State.setPllState
  exact s.fld_setFld_other _ _ _ h

theorem State.pllState_setPll (s : State) (p q : Nat) (x : PllRun) : (s.setPll p x).pllState q = s.pllState q := rfl

theorem State.pll_setPll (s : State) (p q : Nat) (x : PllRun) : (s.setPll p x).pll q = if q = p then x else s.pll q := by
  unfold State.pll State.setPll
  exact tabGet_tabSet _ _ _ _ _

theorem Frame.pllState {K : Nat} {s t : State} (h : Frame K s t) (p : Nat) (hK : K.testBit 19 = false := by decide) :
    t.pllState p = s.pllState p := h.fld (regNo_CLK_PLLp_STAT p) hK

/-- What a lost reference does to one PLL. -/
def refStep (s : State) (p : Nat) : State :=
  let s := s.setPll p { s.pll p with refGone := true }
  if s.pllState p = pllLocked then s.setPllState p pllHoldover else s

theorem refStep_frame (s : State) (p : Nat) : Frame (Foot.setPllState ||| Foot.setPll) s (refStep s p) := by
  have h := Frame.step (K := Foot.setPllState ||| Foot.setPll) (State.setPll_frame (x1 := p) (x2 := { s.pll p with refGone := true })) (Frame.refl _ s)
  unfold refStep
  extract_lets src u
  split
  · exact Frame.step State.setPllState_frame h
  · exact h

theorem refStep_same (s : State) (p : Nat) : (refStep s p).pllState p = if s.pllState p = pllLocked then pllHoldover else s.pllState p := by
  unfold refStep
  extract_lets src u
  have hu : u.pllState p = s.pllState p := rfl
  rw [hu]
  split
  · exact State.pllState_setPllState u p _ (by decide)
  · exact hu

theorem refStep_other (s : State) (p q : Nat) (h : Reg.CLK_PLLp_STAT q ≠ Reg.CLK_PLLp_STAT p) :
    (refStep s p).pllState q = s.pllState q := by
  unfold refStep
  extract_lets src u
  have hu : u.pllState q = s.pllState q := rfl
  split
  · exact (State.pllState_setPllState_other u p q _ h).trans hu
  · exact hu

theorem refStep_refLost (s : State) (p : Nat) : (refStep s p).clk.refLost = s.clk.refLost := by
  unfold refStep
  extract_lets src u
  split <;> rfl

/-- A lost reference: REF falls, the loss is counted, and a locked PLL goes into holdover. -/
theorem referenceLost_does : ∀ s : State, s.refPresent = true → Does .referenceLost s fun t =>
    t.refPresent = false ∧ t.clk.refLost = some s.now ∧
    t.fld Reg.CLK_CNT Fld.CLK_CNT.REFLOSS = satAdd 8 (s.fld Reg.CLK_CNT Fld.CLK_CNT.REFLOSS) 1 ∧
    ∀ p, p < 2 → t.pllState p = if s.pllState p = pllLocked then pllHoldover else s.pllState p := by
  intro s h
  refine Does.via exec_referenceLost ?_
  unfold execReferenceLost
  rw [h, if_neg (by decide)]
  extract_lets u src v w
  refine ⟨_, rfl, ?_⟩
  have hf : Frame Foot.event w _ := State.event_frame (s := w) (x1 := ⟨UnitCode.clk, 0x023, 1, 0, 0⟩)
  have hw : w = refStep (refStep v 0) 1 := rfl
  have hvp : ∀ p, v.pllState p = s.pllState p := by
    intro p
    refine Eq.trans (State.fld_of_regs (s := u) rfl _ _) ?_
    refine (State.fld_setFld_other _ _ _ _ (reg_ne (regNo_CLK_PLLp_STAT p) regNo_CLK_CNT)).trans ?_
    exact State.fld_setFld_other _ _ _ _ (reg_ne (regNo_CLK_PLLp_STAT p) regNo_CLK_STAT)
  refine ⟨?_, ?_, ?_, ?_⟩
  · unfold State.refPresent
    rw [hf.on regNo_CLK_STAT, hw, (refStep_frame _ 1).on regNo_CLK_STAT, (refStep_frame v 0).on regNo_CLK_STAT]
    refine congrArg (· != 0) (Eq.trans (State.fld_of_regs (s := u) rfl _ _) ?_ : v.fld Reg.CLK_STAT Fld.CLK_STAT.REF = 0)
    refine (State.fld_setFld_other _ _ _ _ (reg_ne regNo_CLK_STAT regNo_CLK_CNT)).trans ?_
    exact s.fld_setFld Reg.CLK_STAT Fld.CLK_STAT.REF 0
  · rw [hf.clk (by decide), hw, refStep_refLost, refStep_refLost]
    rfl
  · rw [hf.fld regNo_CLK_CNT, hw, (refStep_frame _ 1).fld regNo_CLK_CNT, (refStep_frame v 0).fld regNo_CLK_CNT]
    refine Eq.trans (State.fld_of_regs (s := u) rfl _ _) ?_
    refine (State.fld_count _ Reg.CLK_CNT Fld.CLK_CNT.REFLOSS 1).trans ?_
    rw [s.fld_setFld_other _ _ _ (reg_ne regNo_CLK_CNT regNo_CLK_STAT)]
  · intro p hp
    rw [hf.pllState, hw]
    have : p = 0 ∨ p = 1 := by omega
    rcases this with rfl | rfl
    · rw [refStep_other _ 1 0 (by decide), refStep_same, hvp]
    · rw [refStep_same, refStep_other _ 0 1 (by decide), hvp]

theorem State.pllReacquire_same (s : State) (p : Nat) (e : Int) :
    (s.pllReacquire p e).pllState p = if s.pllState p = pllHoldover then pllLocked else s.pllState p := by
  unfold State.pllReacquire
  split
  · exact State.pllState_setPllState s p _ (by decide)
  · rfl

theorem State.pllReacquire_other (s : State) (p q : Nat) (e : Int) (h : Reg.CLK_PLLp_STAT q ≠ Reg.CLK_PLLp_STAT p) :
    (s.pllReacquire p e).pllState q = s.pllState q := by
  unfold State.pllReacquire
  split
  · exact State.pllState_setPllState_other s p q _ h
  · rfl

/-- A reference that returns: REF rises; with both frequency errors within 200 ppm the PLLs in holdover lock again, else
they stay. -/
theorem referenceReturn_does : ∀ (j ea eb : Int) (s : State), Does (.referenceReturn j ea eb) s fun t =>
    t.refPresent = true ∧
    (∀ m, s.clk.refLost = some m → ea.natAbs ≤ 200 → eb.natAbs ≤ 200 → ∀ p, p < 2 →
      t.pllState p = if s.pllState p = pllHoldover then pllLocked else s.pllState p) ∧
    (200 < ea.natAbs ∨ 200 < eb.natAbs → ∀ p, t.pllState p = s.pllState p) := by
  intro j ea eb s
  refine Does.via exec_referenceReturn ?_
  unfold execReferenceReturn
  extract_lets u
  have hl : u.clk.refLost = s.clk.refLost := rfl
  have hu : u.refPresent = true := by
    unfold State.refPresent State.on
    rw [s.fld_setFld Reg.CLK_STAT Fld.CLK_STAT.REF 1]
    rfl
  have hup : ∀ p, u.pllState p = s.pllState p := fun p => State.fld_setFld_other _ _ _ _ (reg_ne (regNo_CLK_PLLp_STAT p) regNo_CLK_STAT)
  cases hm : s.clk.refLost with
  | none =>
    rw [hl, hm]
    exact ⟨_, rfl, hu, (fun m h => nomatch h), fun _ => hup⟩
  | some m =>
    rw [hl, hm]
    dsimp only
    generalize (⟨UnitCode.clk, 0x024, 0, 0, _⟩ : Ev) = ev
    have hf : Frame Foot.event u (u.event ev) := State.event_frame
    generalize u.event ev = v at hf
    by_cases h : 200 < ea.natAbs ∨ 200 < eb.natAbs
    · rw [if_pos h]
      refine ⟨_, rfl, ?_, ?_, fun _ p => (hf.pllState p).trans (hup p)⟩
      · exact (hf.on regNo_CLK_STAT).trans hu
      · intro m' _ h1 h2
        omega
    · rw [if_neg h]
      refine ⟨_, rfl, ?_, ?_, fun h' => absurd h' h⟩
      · refine ((State.pllReacquire_frame).on regNo_CLK_STAT).trans ?_
        refine ((State.pllReacquire_frame).on regNo_CLK_STAT).trans ?_
        exact (hf.on regNo_CLK_STAT).trans hu
      · intro m' _ _ _ p hp
        have : p = 0 ∨ p = 1 := by omega
        rcases this with rfl | rfl
        · refine (State.pllReacquire_other _ 1 0 _ (by decide)).trans ?_
          refine (State.pllReacquire_same _ 0 _).trans ?_
          have e : State.pllState { v with clk.refLost := none } 0 = s.pllState 0 := (hf.pllState 0).trans (hup 0)
          rw [e]
        · refine (State.pllReacquire_same _ 1 _).trans ?_
          have e : (State.pllReacquire { v with clk.refLost := none } 0 ea).pllState 1 = s.pllState 1 :=
            (State.pllReacquire_other _ 0 1 _ (by decide)).trans ((hf.pllState 1).trans (hup 1))
          rw [e]

/-- One PLL leaves service. -/
def outStep (s : State) (p : Nat) : State := (s.pllOut p pllUnlocked).setUnit (pllUnit p) unitFailed

theorem outStep_same (s : State) (p : Nat) : (outStep s p).pllState p = pllUnlocked := by
  unfold outStep State.pllOut
  refine (State.setUnit_frame.pllState p).trans ?_
  exact State.pllState_setPllState s p _ (by decide)

theorem outStep_other (s : State) (p q : Nat) (h : Reg.CLK_PLLp_STAT q ≠ Reg.CLK_PLLp_STAT p) :
    (outStep s p).pllState q = s.pllState q := by
  unfold outStep State.pllOut
  refine (State.setUnit_frame.pllState q).trans ?_
  exact State.pllState_setPllState_other s p q _ h

theorem State.unlockPlls_tail (s : State) (ps : List Nat) : ∃ u : State, Frame (Foot.postUnlock ||| Foot.postBackup) (ps.foldl outStep s) u ∧
    ∃ b, s.unlockPlls ps = (u.moveDomains none).afterMoves b := by
  unfold State.unlockPlls
  extract_lets carried u lost took v w x
  refine ⟨x, ?_, lost, rfl⟩
  have h0 : Frame (Foot.postUnlock ||| Foot.postBackup) (ps.foldl outStep s) u := Frame.refl _ u
  have h1 : Frame (Foot.postUnlock ||| Foot.postBackup) (ps.foldl outStep s) v := by
    unfold v
    split
    · exact Frame.step State.postUnlock_frame h0
    · exact h0
  have h2 : Frame (Foot.postUnlock ||| Foot.postBackup) (ps.foldl outStep s) w := by
    unfold w
    split
    · exact Frame.step State.postBackup_frame h1
    · exact h1
  unfold x
  split
  · exact Frame.step State.postUnlock_frame h2
  · exact h2

theorem State.unlockPlls_pllState (s : State) (ps : List Nat) (p : Nat) :
    (s.unlockPlls ps).pllState p = (ps.foldl outStep s).pllState p := by
  obtain ⟨u, hf, b, e⟩ := s.unlockPlls_tail ps
  rw [e, State.afterMoves_frame.pllState p, State.moveDomains_pllState, hf.pllState p]

theorem State.unlockPlls_unit (s : State) (ps : List Nat) (c : Nat) :
    (s.unlockPlls ps).unit c = (ps.foldl outStep s).unit c := by
  obtain ⟨u, hf, b, e⟩ := s.unlockPlls_tail ps
  rw [e, State.afterMoves_frame.unit c, State.moveDomains_frame.unit c, hf.unit c]

/-- HOLDTMO without a reference: every PLL in holdover declares unlock. -/
theorem holdoverTimeout_does :
    (∀ s : State, s.clk.refLost = none → Does .holdoverTimeout s fun t => t = s) ∧
    (∀ (m : Nat) (s : State), s.clk.refLost = some m → Does .holdoverTimeout s fun t =>
      ∀ p, p < 2 → t.pllState p = if s.pllState p = pllHoldover then pllUnlocked else s.pllState p) := by
  refine ⟨?_, ?_⟩
  · intro s h
    refine Does.via exec_holdoverTimeout ?_
    unfold execHoldoverTimeout
    rw [h]
    exact ⟨_, rfl, rfl⟩
  · intro m s h
    refine Does.via exec_holdoverTimeout ?_
    unfold execHoldoverTimeout
    rw [h]
    dsimp only
    refine ⟨_, rfl, ?_⟩
    intro p hp
    have hs' : ∀ q, State.pllState (s.at (m + s.fld Reg.CLK_HOLD Fld.CLK_HOLD.HOLDTMO * esPerMs)) q = s.pllState q := fun _ => rfl
    simp only [hs']
    have hs : ∀ q, (if (s.at (m + s.fld Reg.CLK_HOLD Fld.CLK_HOLD.HOLDTMO * esPerMs)).refPresent
        then ({ s.at (m + s.fld Reg.CLK_HOLD Fld.CLK_HOLD.HOLDTMO * esPerMs) with clk.refLost := none } : State)
        else s.at (m + s.fld Reg.CLK_HOLD Fld.CLK_HOLD.HOLDTMO * esPerMs)).pllState q = s.pllState q := by
      intro q; split <;> rfl
    generalize (if (s.at (m + s.fld Reg.CLK_HOLD Fld.CLK_HOLD.HOLDTMO * esPerMs)).refPresent
        then ({ s.at (m + s.fld Reg.CLK_HOLD Fld.CLK_HOLD.HOLDTMO * esPerMs) with clk.refLost := none } : State)
        else s.at (m + s.fld Reg.CLK_HOLD Fld.CLK_HOLD.HOLDTMO * esPerMs)) = u at hs ⊢
    have h10 : Reg.CLK_PLLp_STAT 1 ≠ Reg.CLK_PLLp_STAT 0 := by decide
    by_cases e0 : s.pllState 0 = pllHoldover <;> by_cases e1 : s.pllState 1 = pllHoldover
    · have e : [0, 1].filter (fun q => s.pllState q == pllHoldover) = [0, 1] := by simp [e0, e1]
      rw [e, List.isEmpty_cons, if_neg (by decide), State.unlockPlls_pllState]
      show (outStep (outStep u 0) 1).pllState p = _
      have : p = 0 ∨ p = 1 := by omega
      rcases this with rfl | rfl
      · rw [outStep_other _ 1 0 h10.symm, outStep_same, if_pos e0]
      · rw [outStep_same, if_pos e1]
    · have e : [0, 1].filter (fun q => s.pllState q == pllHoldover) = [0] := by simp [e0, e1]
      rw [e, List.isEmpty_cons, if_neg (by decide), State.unlockPlls_pllState]
      show (outStep u 0).pllState p = _
      have : p = 0 ∨ p = 1 := by omega
      rcases this with rfl | rfl
      · rw [outStep_same, if_pos e0]
      · rw [outStep_other _ 0 1 h10, hs, if_neg e1]
    · have e : [0, 1].filter (fun q => s.pllState q == pllHoldover) = [1] := by simp [e0, e1]
      rw [e, List.isEmpty_cons, if_neg (by decide), State.unlockPlls_pllState]
      show (outStep u 1).pllState p = _
      have : p = 0 ∨ p = 1 := by omega
      rcases this with rfl | rfl
      · rw [outStep_other _ 1 0 h10.symm, hs, if_neg e0]
      · rw [outStep_same, if_pos e1]
    · have e : [0, 1].filter (fun q => s.pllState q == pllHoldover) = [] := by simp [e0, e1]
      rw [e]
      show u.pllState p = _
      have : p = 0 ∨ p = 1 := by omega
      rcases this with rfl | rfl
      · rw [hs, if_neg e0]
      · rw [hs, if_neg e1]

theorem State.setLdmv_pllState (s : State) (p q v : Nat) : (s.setLdmv p v).pllState q = s.pllState q := by
  unfold State.setLdmv State.pllState
  by_cases h : Reg.CLK_PLLp_STAT q = Reg.CLK_PLLp_STAT p
  · rw [h]
    exact State.fld_setFld_field _ _ (f := Fld.CLK_PLLp_STAT.LDMV) (g := Fld.CLK_PLLp_STAT.STATE) _ (by decide)
  · exact State.fld_setFld_other _ _ _ _ h

theorem State.setPllState_ldmv (s : State) (p v : Nat) :
    (s.setPllState p v).fld (Reg.CLK_PLLp_STAT p) Fld.CLK_PLLp_STAT.LDMV = s.fld (Reg.CLK_PLLp_STAT p) Fld.CLK_PLLp_STAT.LDMV := by
  unfold State.setPllState
  exact State.fld_setFld_field _ _ (f := Fld.CLK_PLLp_STAT.STATE) (g := Fld.CLK_PLLp_STAT.LDMV) _ (by decide)

/-- The filter check of an enabled PLL: too fast a rise or no full charge turns it off, else it goes on to acquire. -/
theorem pllFilterCheck_does : ∀ (p : Fin 2) (v20 v200 : Nat) (s : State), s.pllEn p = true → s.pllState p < 2 →
    Does (.pllFilterCheck p v20 v200) s fun t =>
      t.pllState p = if 600 ≤ v20 ∨ v200 ≤ 600 then pllOff else pllAcquire := by
  intro p v20 v200 s h1 h2
  refine Does.via exec_pllFilterCheck ?_
  unfold execPllFilterCheck
  rw [h1, decide_eq_false (Nat.not_le.mpr h2), if_neg (by decide)]
  extract_lets post
  have hp : ∀ (u : State) (k v : Nat), (post u k v).pllState p = pllOff := by
    intro u k v
    unfold post
    refine (State.event_frame.pllState p).trans ?_
    refine (State.f2Begins_frame.pllState p).trans ?_
    refine (State.setLdmv_pllState _ _ _ _).trans ?_
    exact State.pllState_setPllState u p _ (by decide)
  refine ⟨_, rfl, ?_⟩
  by_cases h : 600 ≤ v20
  · rw [if_pos h, hp, if_pos (.inl h)]
  · rw [if_neg h]
    by_cases h' : v200 ≤ 600
    · rw [if_pos h', hp, if_pos (.inr h')]
    · rw [if_neg h', if_neg (fun x => x.elim h h')]
      refine (State.setLdmv_pllState _ _ _ _).trans ?_
      exact State.pllState_setPllState _ p _ (by decide)

/-- A PLL that declares lock goes into quarantine. -/
theorem pllLockDeclared_does : ∀ (p : Fin 2) (ldmv : Nat) (s : State), s.pllState p = pllAcquire ∨ s.pllState p = pllUnlocked →
    s.pllEn p = true → (s.pll p).filterBad = false → ldmv < 300 → s.vcoLocks p = true → Does (.pllLockDeclared p ldmv) s fun t =>
      t.pllState p = pllQuarantine ∧ ((s.pll p).testing = false → t.unit (0x2C + p.val) = unitQuarantine) := by
  intro p ldmv s h1 h2 h3 h4 h5
  refine Does.via exec_pllLockDeclared ?_
  unfold execPllLockDeclared
  rw [if_pos (by rcases h1 with h1 | h1 <;> simp [h1, h2, h3, h4, h5])]
  extract_lets src u v
  refine ⟨_, rfl, ?_, ?_⟩
  · refine (State.endCause_frame.pllState p).trans ?_
    have hu : u.pllState p = pllQuarantine :=
      (State.setLdmv_pllState _ _ _ _).trans (State.pllState_setPllState s p _ (by decide))
    unfold v
    split
    · exact hu
    · exact (State.setUnit_frame.pllState p).trans hu
  · intro ht
    refine (State.endCause_frame.unit _).trans ?_
    have hu : (u.pll p).testing = false := by
      unfold u
      rw [State.pll_setPll, if_pos rfl]
      exact ht
    unfold v
    rw [hu, if_neg (by decide)]
    exact State.unit_setUnit _ _ _ (by decide)

/-- A PLL that declares unlock leaves service, and its unit is FAILED. -/
theorem pllUnlock_does : ∀ (p : Fin 2) (ldmv : Nat) (s : State), s.pllServes p = true ∨ s.pllState p = pllQuarantine → 600 < ldmv →
    Does (.pllUnlock p ldmv) s fun t => t.pllState p = pllUnlocked ∧ t.unit (0x2C + p.val) = unitFailed := by
  intro p ldmv s h hm
  refine Does.via exec_pllUnlock ?_
  unfold execPllUnlock
  rw [if_pos (by rcases h with h | h <;> simp [h, hm])]
  extract_lets u src v
  refine ⟨_, rfl, ?_, ?_⟩
  · rw [State.unlockPlls_pllState]
    exact outStep_same v p
  · rw [State.unlockPlls_unit]
    exact State.unit_setUnit _ _ _ (by decide)

/-- A PLL whose output fails leaves service at once, and its unit is FAILED. -/
theorem pllFail_does : ∀ (p : Fin 2) (kind : Bool) (dev : Nat) (s : State), pllAcquire ≤ s.pllState p → s.pllState p ≤ pllUnlocked →
    (kind = true → 80 < dev) → Does (.pllFail p kind dev) s fun t => t.pllState p = pllUnlocked ∧ t.unit (0x2C + p.val) = unitFailed := by
  intro p kind dev s h1 h2 h3
  refine Does.via exec_pllFail ?_
  unfold execPllFail
  rw [if_pos ⟨h1, h2, h3⟩]
  extract_lets units carried src u0 src1 u1 lost post v w x y z r
  refine ⟨_, rfl, ?_⟩
  have h1u : u1.pllState p = pllUnlocked := by
    refine (State.setUnit_frame.pllState p).trans ?_
    exact State.pllState_setPllState u0 p _ (by decide)
  have h2u : u1.unit (0x2C + p.val) = unitFailed := State.unit_setUnit _ _ _ (by decide)
  have hv : Frame (Foot.event ||| Foot.postBackup) u1 v := by
    unfold v
    split
    · exact Frame.step State.event_frame (Frame.refl _ u1)
    · exact Frame.refl _ u1
  have hw : Frame (Foot.event ||| Foot.postBackup) u1 w := by
    unfold w
    split
    · exact Frame.step State.postBackup_frame hv
    · exact hv
  have hx : Frame (Foot.event ||| Foot.postBackup) u1 x := by
    unfold x
    split
    · exact Frame.step State.event_frame hw
    · exact hw
  have hz : Frame (Foot.raise ||| Foot.refreshVt ||| Foot.sgmiiDown) y z := by
    unfold z
    split
    · exact Frame.step State.raise_frame (Frame.refl _ y)
    · exact Frame.refl _ y
  have hr : Frame (Foot.raise ||| Foot.refreshVt ||| Foot.sgmiiDown) y r := by
    unfold r
    split
    · exact hz
    · exact Frame.step State.raise_frame hz
  have hend : Frame (Foot.raise ||| Foot.refreshVt ||| Foot.sgmiiDown) y (if lost then (r.refreshVt 2).sgmiiDown else r.refreshVt 2) := by
    split
    · exact Frame.step State.sgmiiDown_frame (Frame.step State.refreshVt_frame hr)
    · exact Frame.step State.refreshVt_frame hr
  refine ⟨?_, ?_⟩
  · rw [hend.pllState p]
    exact (State.moveDomains_pllState _ _ _).trans ((hx.pllState p).trans h1u)
  · rw [hend.unit]
    exact (State.moveDomains_frame.unit _).trans ((hx.unit _).trans h2u)

/-- The end of a quarantine: a PLL that fails stays out of service; one that passes, with no false death to count, takes
its domains back. -/
theorem pllQuarantineEnd_does :
    (∀ (p : Fin 2) (s : State), s.pllState p = pllQuarantine → Does (.pllQuarantineEnd p false) s fun t =>
      t.pllState p = pllUnlocked ∧ t.unit (0x2C + p.val) = unitFailed) ∧
    (∀ (p : Fin 2) (s : State), s.pllState p = pllQuarantine → s.falseDeath p = false → Does (.pllQuarantineEnd p true) s fun t =>
      t.pllState p = (if s.refPresent then pllLocked else pllHoldover) ∧ t.unit (0x2C + p.val) = unitServing) := by
  refine ⟨?_, ?_⟩
  · intro p s h
    refine Does.via exec_pllQuarantineEnd ?_
    unfold execPllQuarantineEnd
    rw [if_neg (fun e => e h), if_pos (by decide)]
    refine ⟨_, rfl, ?_, State.unit_setUnit _ _ _ (by decide)⟩
    exact (State.setUnit_frame.pllState p).trans (State.pllState_setPllState s p _ (by decide))
  · intro p s h hd
    refine Does.via exec_pllQuarantineEnd ?_
    unfold execPllQuarantineEnd
    rw [if_neg (fun e => e h), if_neg (by decide), hd, if_neg (by decide)]
    extract_lets u v w x
    have hvu : v = s.setFld (Reg.BST_Uu (pllUnit p)) Fld.BST_Uu.FD (min 3 (s.fld Reg.CLK_CNT (fdField p))) := rfl
    have hlcs : v.lcs = s.lcs := State.fld_setFld_other _ _ _ _ (reg_ne regNo_BST_STAT (regNo_BST_Uu _))
    have hvd : v.falseDeath p = false := by
      have e : v.falseDeath p = s.falseDeath p := by
        unfold State.falseDeath
        rw [hlcs]
        rfl
      exact e.trans hd
    have hvr : v.refPresent = s.refPresent :=
      congrArg (· != 0) (State.fld_setFld_other _ _ _ _ (reg_ne regNo_CLK_STAT (regNo_BST_Uu _)))
    have hw : w = v.pllBack p := by
      unfold w
      rw [hvd, if_neg (by simp)]
    have hb : w.pllState p = (if s.refPresent then pllLocked else pllHoldover) ∧ w.unit (0x2C + p.val) = unitServing := by
      rw [hw]
      unfold State.pllBack
      extract_lets ms u1 src u2
      refine ⟨?_, ?_⟩
      · refine (State.event_frame.pllState p).trans ?_
        refine (State.setUnit_frame.pllState p).trans ?_
        rw [hvr]
        exact State.pllState_setPllState v p _ (by split <;> decide)
      · refine (State.event_frame.unit _).trans ?_
        exact State.unit_setUnit _ _ _ (by decide)
    have hx : x.pllState p = (if s.refPresent then pllLocked else pllHoldover) ∧ x.unit (0x2C + p.val) = unitServing :=
      ⟨(State.moveDomains_pllState _ _ _).trans hb.1, (State.moveDomains_frame.unit _).trans hb.2⟩
    have hend : Frame (Foot.endCause ||| Foot.refreshVt) x ((if x.fabricLocked then x.endCause (16 + 18) 0 else x).refreshVt 2) := by
      split
      · exact Frame.step State.refreshVt_frame (Frame.step State.endCause_frame (Frame.refl _ x))
      · exact Frame.step State.refreshVt_frame (Frame.refl _ x)
    exact ⟨_, rfl, (hend.pllState p).trans hx.1, (hend.unit _).trans hx.2⟩

/-- An edge of TICK_IN: its error is recorded, and the watch for a missing edge starts anew. -/
theorem tickInEdge_does : ∀ (n : Nat) (s : State), s.on Reg.CLK_TICKIN_CFG Fld.CLK_TICKIN_CFG.EN = true →
    Does (.tickInEdge n) s fun t => t.reg Reg.CLK_TICKIN_ERR = BitVec.ofInt 32 (s.tickInErr n) ∧ t.now = max s.now n := by
  intro n s h
  refine Does.via exec_tickInEdge ?_
  unfold execTickInEdge
  rw [h, if_neg (by decide)]
  extract_lets u err v src
  refine ⟨_, rfl, ?_, ?_⟩
  · refine (State.judgeTickIn_frame.reg regNo_CLK_TICKIN_ERR).trans ?_
    exact u.reg_setReg_same Reg.CLK_TICKIN_ERR _
  · exact State.judgeTickIn_frame.now (by decide)

/-- Two periods without an edge are found once. -/
theorem tickInMissing_does :
    (∀ s : State, s.on Reg.CLK_TICKIN_CFG Fld.CLK_TICKIN_CFG.EN = true → s.clk.inMissing = false → Does .tickInMissing s fun t =>
      t.clk.inMissing = true ∧ t.now = max s.now (s.clk.inAt + 2 * (s.tb 0).period)) ∧
    (∀ s : State, s.on Reg.CLK_TICKIN_CFG Fld.CLK_TICKIN_CFG.EN = false ∨ s.clk.inMissing = true → Does .tickInMissing s fun t => t = s) := by
  refine ⟨?_, ?_⟩
  · intro s h1 h2
    refine Does.via exec_tickInMissing ?_
    unfold execTickInMissing
    rw [h1, h2, if_neg (by decide)]
    extract_lets u src
    refine ⟨_, rfl, ?_, ?_⟩
    · exact congrArg Clk.inMissing (State.postTickIn_frame.clk (by decide))
    · exact State.postTickIn_frame.now (by decide)
  · intro s h
    refine Does.via exec_tickInMissing ?_
    unfold execTickInMissing
    rw [if_pos (by rcases h with h | h <;> simp [h])]
    exact ⟨_, rfl, rfl⟩

/-- A stopped crystal is shown; the count of the clock goes on. -/
theorem rtcSourceSwitch_does : ∀ s : State, Does .rtcSourceSwitch s fun t =>
    t.fld Reg.CLK_STAT Fld.CLK_STAT.RTCSRC = 1 ∧ t.rtcNow = s.rtcNow := by
  intro s
  exact ⟨_, exec_rtcSourceSwitch.trans rfl, s.fld_setFld Reg.CLK_STAT Fld.CLK_STAT.RTCSRC 1, rfl⟩

end Sys2Proof.Machine
end

