-- ==== Sys2Proof/Laws/EffectHalt.lean ====
section
/-! SUPPORT. What the device halt of an F4 cause leaves. -/

set_option Elab.async false

namespace Sys2Proof.Machine

theorem State.f4_setFld (s : State) (a : Nat) (f : Bits) (v : Nat) (h : Reg.SYS_FAULTSTAT ≠ a) :
    (s.setFld a f v).haltedF4 = s.haltedF4 := congrArg (· != 0) (s.fld_setFld_other _ _ _ h)

theorem State.setF2_halted (s : State) : s.setF2.haltedF4 = s.haltedF4 := by
  unfold State.setF2 State.haltedF4 State.on
  exact congrArg (· != 0) (State.fld_setFld_field _ _ (f := Fld.SYS_FAULTSTAT.F2) (g := Fld.SYS_FAULTSTAT.F4) _ (by decide))

theorem State.escal_halted (s : State) : (s.count Reg.SYS_FAULTSTAT Fld.SYS_FAULTSTAT.ESCAL).haltedF4 = s.haltedF4 := by
  unfold State.count State.haltedF4 State.on
  exact congrArg (· != 0) (State.fld_setFld_field _ _ (f := Fld.SYS_FAULTSTAT.ESCAL) (g := Fld.SYS_FAULTSTAT.F4) _ (by decide))

theorem Frame.halted {K : Nat} {s t : State} (h : Frame K s t) (hK : K.testBit 4 = false := by decide) :
    t.haltedF4 = s.haltedF4 := h.on regNo_SYS_FAULTSTAT hK

/-- An event leaves the halt as it is. -/
theorem State.event_halted (s : State) (e : Ev) : (s.event e).haltedF4 = s.haltedF4 := by
  unfold State.event
  split
  · rfl
  · unfold State.post
    extract_lets u
    have hu : u.haltedF4 = s.haltedF4 := State.postRaw_frame.halted
    split
    · unfold State.escalate
      extract_lets before limit known rest src v
      have hv : v.haltedF4 = u.haltedF4 := rfl
      split
      · rw [State.setF2_halted, State.escal_halted, State.postRaw_frame.halted, hv, hu]
      · exact hv.trans hu
    · split
      · rw [State.setF2_halted, hu]
      · exact hu

theorem State.haltDevice_halted (s : State) (c : Word) (h : s.haltedF4 = false) : Halted s (s.haltDevice c) := by
  unfold State.haltDevice
  rw [h, if_neg (by decide)]
  extract_lets u v w x y z
  have hw : w.cmd.staged = [] ∧ w.fld Reg.ENG_STAT Fld.ENG_STAT.RUN = 0 := by
    have e1 : v.stopEngine.fld Reg.ENG_STAT Fld.ENG_STAT.RUN = 0 :=
      (State.fld_of_regs (s := v.postFound.setFld Reg.ENG_STAT Fld.ENG_STAT.RUN 0) rfl _ _).trans (v.postFound.fld_setFld Reg.ENG_STAT Fld.ENG_STAT.RUN 0)
    refine ⟨?_, (State.flushAll_frame.fld regNo_ENG_STAT).trans e1⟩
    have key : ∀ (l : List Nat) (u : State), u.cmd.staged = [] →
        (l.foldl (fun s n => s.setSq n { s.sq n with opened := [], flushing := [] }) u).cmd.staged = [] := by
      intro l
      induction l with
      | nil => exact fun u hu => hu
      | cons k l ih => exact fun u hu => ih _ hu
    unfold w State.flushAll
    extract_lets recs left u2 u3
    exact key _ _ rfl
  have hx : Frame (Foot.event ||| Foot.disAuto) w x := Frame.step State.event_frame (Frame.refl _ w)
  have hy : Frame (Foot.event ||| Foot.disAuto) w y := by
    unfold y
    split
    · exact Frame.step State.disAuto_frame hx
    · exact hx
  have hye : ∀ n, y.sqEnabled n = s.sqEnabled n := by
    intro n
    have a1 : y.sqEnabled n = w.sqEnabled n := hy.on (regNo_CMD_SQn_CFG n)
    have a2 : w.sqEnabled n = v.stopEngine.sqEnabled n := State.flushAll_frame.on (regNo_CMD_SQn_CFG n)
    have a3 : v.stopEngine.sqEnabled n = v.sqEnabled n := State.stopEngine_frame.on (regNo_CMD_SQn_CFG n)
    have a4 : v.sqEnabled n = u.sqEnabled n := State.applySafeAll_frame.on (regNo_CMD_SQn_CFG n)
    have a5 : u.sqEnabled n = (s.settle.setFld Reg.SYS_FAULTSTAT Fld.SYS_FAULTSTAT.F4 1).sqEnabled n :=
      State.updateSafeN_frame.on (regNo_CMD_SQn_CFG n)
    have a6 : (s.settle.setFld Reg.SYS_FAULTSTAT Fld.SYS_FAULTSTAT.F4 1).sqEnabled n = s.settle.sqEnabled n :=
      congrArg (· != 0) (State.fld_setFld_other _ _ _ _ (reg_ne (regNo_CMD_SQn_CFG n) regNo_SYS_FAULTSTAT))
    have a7 : s.settle.sqEnabled n = s.sqEnabled n := State.settle_frame.on (regNo_CMD_SQn_CFG n)
    rw [a1, a2, a3, a4, a5, a6, a7]
  have hz : Frame Foot.setSqState y z := by
    refine Frame.foldl (Frame.refl _ y) fun a k h => ?_
    split
    · exact Frame.step State.setSqState_frame h
    · exact h
  have hend : Frame (Foot.refreshRings ||| Foot.sendResumePoint) z z.refreshRings.sendResumePoint :=
    Frame.step State.sendResumePoint_frame (Frame.step State.refreshRings_frame (Frame.refl _ z))
  refine ⟨?_, ?_, ?_⟩
  · rw [hend.staged (by decide), hz.staged (by decide), hy.staged (by decide)]
    exact hw.1
  · rw [hend.fld regNo_ENG_STAT, hz.fld regNo_ENG_STAT, hy.fld regNo_ENG_STAT]
    exact hw.2
  · intro n hn he
    have a : z.refreshRings.sendResumePoint.sqState n = z.refreshRings.sqState n :=
      State.sendResumePoint_frame.fld (regNo_CMD_SQn_STAT n)
    rw [a]
    refine State.refreshRings_halted z ⟨n, hn⟩ ?_
    have key : ∀ (l : List Nat) (u : State), (∀ k ∈ l, k < 16) → (∀ k, u.sqEnabled k = y.sqEnabled k) →
        (n ∈ l ∨ u.sqState n = ringHalted) →
        (l.foldl (fun s n => if s.sqEnabled n then s.setSqState n ringHalted else s) u).sqState n = ringHalted := by
      intro l
      induction l with
      | nil => exact fun u _ _ hu => hu.resolve_left (by simp)
      | cons k l ih =>
        intro u hl hu hor
        refine ih _ (fun j hj => hl j (List.mem_cons_of_mem _ hj)) ?_ ?_
        · intro j
          dsimp only
          split
          · rw [State.setSqState_enabled, hu]
          · exact hu j
        · by_cases e : k = n
          · subst e
            refine .inr ?_
            dsimp only
            rw [hu, hye, he, if_pos rfl]
            exact State.sqState_setSqState _ _ _ (by decide)
          · rcases hor with hm | hm
            · exact .inl ((List.mem_cons.1 hm).resolve_left fun x => e x.symm)
            · refine .inr ?_
              dsimp only
              split
              · refine (State.sqState_setSqState_other u ⟨n, hn⟩ ⟨k, hl k List.mem_cons_self⟩ _ ?_).trans hm
                exact fun x => e (congrArg Fin.val x)
              · exact hm
    exact key _ y (fun k hk => List.mem_range.1 hk) (fun _ => rfl) (.inl (List.mem_range.2 hn))

theorem State.f4_halted (s : State) (e : Ev) (h : s.haltedF4 = false) : Halted s (s.f4 e) := by
  unfold State.f4
  extract_lets psn
  have hh := State.haltDevice_halted (s.event e) psn ((State.event_halted s e).trans h)
  refine ⟨hh.staged, hh.engine, ?_⟩
  intro n hn he
  exact hh.rings n hn ((State.event_frame.on (regNo_CMD_SQn_CFG n)).trans he)

/-- A ball of a unit in safe state that does not follow halts the device; of a unit that is not in safe state nothing comes. -/
theorem safeReadbackFail_does :
    (∀ (k : Fin 16) (low : Bool) (s : State), s.safeGoverns k = true → s.haltedF4 = false →
      Does (.safeReadbackFail k low) s fun t => Halted s t) ∧
    (∀ (k : Fin 16) (low : Bool) (s : State), s.safeGoverns k = false → Does (.safeReadbackFail k low) s fun t => t = s) := by
  refine ⟨?_, ?_⟩
  · intro k low s h1 h2
    refine ⟨_, exec_safeReadbackFail.trans rfl, ?_⟩
    dsimp only
    rw [if_pos h1]
    exact State.f4_halted s _ h2
  · intro k low s h1
    refine ⟨_, exec_safeReadbackFail.trans rfl, ?_⟩
    dsimp only
    rw [h1, if_neg (by decide)]

end Sys2Proof.Machine
end

