-- ==== Sys2Proof/Laws/EffectWrites3.lean ====
section
/-! SUPPORT. Writes to timebases, acquisition, position feedback, angle events, weigh-houses and links. -/

set_option Elab.async false

namespace Sys2Proof.Machine

/-! ### Timebases -/

theorem tb_place : (∀ n : Fin 4, IsReg (Reg.TBn_CFG n) 5 4 n ∧ elemOf (Reg.TBn_CFG n) (Reg.TBn_CFG 0) 0x20 4 = some n.val ∧
      Reg.TBn_CFG n ≠ Reg.PWM_LDALL) ∧ (regDesc 5 4).reach (.core 0) false ≠ 0 := by decide +kernel

theorem limitFld_other {f g : Bits} (hi : Nat) (w : Word)
    (h : f.lo + f.width ≤ g.lo ∨ g.lo + g.width ≤ f.lo) : g.of (limitFld f hi w) = g.of w := Bits.of_put_other _ _ h

theorem State.clampTbCfg_fields (s : State) (n : Nat) (w : Word) :
    Fld.TBn_CFG.RUN.of (s.clampTbCfg n w) = Fld.TBn_CFG.RUN.of w ∧
    Fld.TBn_CFG.MODE.of (s.clampTbCfg n w) =
      if Fld.TBn_CFG.MODE.of w = 3 ∨ (n = 0 ∧ Fld.TBn_CFG.MODE.of w = 2) then 0 else Fld.TBn_CFG.MODE.of w := by
  unfold State.clampTbCfg
  extract_lets a b c
  have hc : Fld.TBn_CFG.RUN.of c = Fld.TBn_CFG.RUN.of b ∧ Fld.TBn_CFG.MODE.of c = Fld.TBn_CFG.MODE.of b := by
    unfold c
    split
    · exact ⟨Bits.of_put_other _ _ (by decide), Bits.of_put_other _ _ (by decide)⟩
    · exact ⟨rfl, rfl⟩
  have hb : Fld.TBn_CFG.RUN.of b = Fld.TBn_CFG.RUN.of a ∧ Fld.TBn_CFG.MODE.of b = Fld.TBn_CFG.MODE.of a := by
    unfold b
    split
    · exact ⟨Bits.of_put_other _ _ (by decide), Bits.of_put_other _ _ (by decide)⟩
    · exact ⟨rfl, rfl⟩
  rw [limitFld_other _ _ (by decide), limitFld_other _ _ (by decide), hc.1, hc.2, hb.1, hb.2]
  unfold a
  split
  · next h => exact ⟨Bits.of_put_other _ _ (by decide), Bits.of_put Fld.TBn_CFG.MODE 0 w (by decide)⟩
  · next h => exact ⟨rfl, rfl⟩

theorem State.inForce_setForce (s : State) (a : Nat) (w : Word) : (s.setForce a w).inForce a = w := by
  unfold State.inForce State.setForce
  exact (Store.get_set regDefault _ _ _ _).trans (if_pos rfl)

theorem State.tb_setTb (s : State) (m n : Nat) (x : Tb) : (s.setTb m x).tb n = if n = m then x else s.tb n :=
  tabGet_tabSet _ _ _ _ _

theorem State.drawDither_running (s : State) (n : Nat) : ((s.drawDither n).tb n).running = (s.tb n).running ∧
    ((s.drawDither n).tb n).waiting = (s.tb n).waiting := by
  unfold State.drawDither
  dsimp only
  split
  · exact ⟨rfl, rfl⟩
  · split
    · rw [State.tb_setTb, if_pos rfl]; exact ⟨rfl, rfl⟩
    · rw [State.tb_setTb, if_pos rfl]; exact ⟨rfl, rfl⟩

theorem State.openPeriod_running (s : State) (n t : Nat) : ((s.openPeriod n t).tb n).running = (s.tb n).running ∧
    ((s.openPeriod n t).tb n).waiting = (s.tb n).waiting := by
  unfold State.openPeriod
  dsimp only
  rw [State.tb_setTb, if_pos rfl]
  exact ⟨rfl, rfl⟩

theorem State.startTb_does (s : State) (n : Nat) :
    ((s.startTb n).tb n).running = ((!s.tbSlave n) || (s.tb n).running) ∧ ((s.startTb n).tb n).waiting = s.tbSlave n ∧
    (n = 0 → (s.startTb n).t0 = s.now ∧ (s.startTb n).prevLen = 0) := by
  unfold State.startTb
  cases hsl : s.tbSlave n
  · rw [if_neg (by decide)]
    extract_lets al x u v
    have hv : (v.tb n).running = true ∧ (v.tb n).waiting = false ∧ (n = 0 → v.t0 = s.now ∧ v.prevLen = 0) := by
      have hu : (u.tb n).running = true ∧ (u.tb n).waiting = false := by
        unfold u State.takeDivisor
        rw [State.tb_setTb, if_pos rfl]
        dsimp only
        rw [State.tb_setTb, if_pos rfl]
        exact ⟨rfl, rfl⟩
      have hn : u.now = s.now := rfl
      clear_value u
      unfold v
      split
      · refine ⟨hu.1, hu.2, fun _ => ⟨hn, rfl⟩⟩
      · next hne => exact ⟨hu.1, hu.2, fun e => absurd e hne⟩
    clear_value v
    rw [(State.drawDither_running _ n).1, (State.drawDither_running _ n).2, (State.openPeriod_running _ n _).1,
      (State.openPeriod_running _ n _).2, State.drawDither_frame.t0 (by decide), State.openPeriod_frame.t0 (by decide),
      State.drawDither_frame.prevLen (by decide), State.openPeriod_frame.prevLen (by decide)]
    exact ⟨hv.1, hv.2.1, hv.2.2⟩
  · rw [if_pos rfl]
    dsimp only
    rw [State.tb_setTb, if_pos rfl]
    refine ⟨rfl, rfl, fun h => ?_⟩
    subst h
    exact absurd hsl (by unfold State.tbSlave; simp)


theorem State.tb_of_frame {K : Nat} {s t : State} (h : Frame K s t) (n : Nat) (hK : K.testBit bit_tbs = false := by decide) :
    t.tb n = s.tb n := congrArg (fun x => tabGet ({} : Tb) x n) (h.tbs hK)

theorem State.writeTbRun_does (s : State) (n : Nat) (w : Word) (hw : Fld.TBn_CFG.RUN.of w = 1)
    (h1 : (s.tb n).running = false) (h2 : (s.tb n).waiting = false) :
    ((s.writeTbRun n w).tb n).running = (decide (n = 0) || Fld.TBn_CFG.MODE.of w != 2) ∧
    ((s.writeTbRun n w).tb n).waiting = (decide (n ≠ 0) && Fld.TBn_CFG.MODE.of w == 2) ∧
    (n = 0 → (s.writeTbRun n w).t0 = s.now ∧ (s.writeTbRun n w).prevLen = 0) := by
  unfold State.writeTbRun
  rw [hw]
  extract_lets run u v
  have hu : (u.tb n).running = false ∧ (u.tb n).waiting = false ∧ u.now = s.now := ⟨h1, h2, rfl⟩
  have hsl : u.tbSlave n = (decide (n ≠ 0) && Fld.TBn_CFG.MODE.of w == 2) := by
    unfold State.tbSlave State.ffld u
    rw [State.inForce_setForce]
  have hv := u.startTb_does n
  have hvu : u.startTb n = v := rfl
  rw [hvu, hsl, hu.1, hu.2.2, Bool.or_false] at hv
  clear_value v
  clear_value u
  have hrun : run = true := rfl
  rw [hrun, hu.1, hu.2.1, if_pos (by decide)]
  have hr : (v.tb n).running = (decide (n = 0) || Fld.TBn_CFG.MODE.of w != 2) := by
    rw [hv.1]
    by_cases h : n = 0 <;> simp [h, bne]
  by_cases hx : (v.tb n).running = true
  · rw [if_pos hx]
    have hf2 := State.judgePairs_frame (s := v) (x1 := n)
    have hf3 := State.showTb_frame (s := v.judgePairs n) (x1 := n)
    rw [State.tb_of_frame hf3, State.tb_of_frame hf2, hf3.t0 (by decide), hf3.prevLen (by decide), hf2.t0 (by decide), hf2.prevLen (by decide)]
    exact ⟨hr, hv.2.1, hv.2.2⟩
  · rw [if_neg hx]
    exact ⟨hr, hv.2.1, hv.2.2⟩

theorem timebaseRun_does : ∀ (tb : Fin 4) (cfg : Word) (s : State), s.pwr.restoring = false → s.locked = false →
    s.on (Reg.TBn_CFG tb) Fld.TBn_CFG.RUN = false → (s.tb tb).running = false → (s.tb tb).waiting = false →
    Does (.timebaseRun tb cfg) s fun t =>
      (tb = 0 ∨ Fld.TBn_CFG.MODE.of cfg ≠ 2 → (t.tb tb).running = true ∧ (t.tb tb).waiting = false) ∧
      (tb ≠ 0 → Fld.TBn_CFG.MODE.of cfg = 2 → (t.tb tb).running = false ∧ (t.tb tb).waiting = true) ∧
      (tb = 0 → t.t0 = s.now ∧ t.prevLen = 0) := by
  intro n cfg s h hl h0 h1 h2
  refine ⟨_, exec_timebaseRun.trans rfl, ?_⟩
  dsimp only
  obtain ⟨hr, he, hne⟩ := tb_place.1 n
  have hs := hr.stored (s := s) (w := Fld.TBn_CFG.RUN.put 1 cfg) (busy := false) (by decide) h (by rw [hl]; exact tb_place.2)
  rw [State.put_pwm (x := s.wrote (Reg.TBn_CFG n) (regDesc 5 4) _) hr.2.1] at hs
  have hnew : Fld.TBn_CFG.RUN.of (s.wrote (Reg.TBn_CFG n) (regDesc 5 4) (Fld.TBn_CFG.RUN.put 1 cfg)).new = 1 ∧
      Fld.TBn_CFG.MODE.of (s.wrote (Reg.TBn_CFG n) (regDesc 5 4) (Fld.TBn_CFG.RUN.put 1 cfg)).new =
        if Fld.TBn_CFG.MODE.of cfg = 3 ∨ (n.val = 0 ∧ Fld.TBn_CFG.MODE.of cfg = 2) then 0 else Fld.TBn_CFG.MODE.of cfg := by
    have e1 : Fld.TBn_CFG.RUN.of ((regDesc 5 4).written (.core 0) s.locked (s.reg (Reg.TBn_CFG n)) (Fld.TBn_CFG.RUN.put 1 cfg) 0xFFFFFFFF).1 = 1 := by
      rw [RegDesc.written_of (f := ⟨Fld.TBn_CFG.RUN, .rwl, fun _ => 0, .none, true, false⟩) 0 (regAt_apart hr.at) rfl,
        if_pos (by rw [hl]; rfl), FieldDesc.written_full (by simp) (by decide) (by decide)]
      dsimp only [Clamp.apply]
      rw [Bits.of_put Fld.TBn_CFG.RUN 1 _ (by decide)]
      rfl
    have e2 : Fld.TBn_CFG.MODE.of ((regDesc 5 4).written (.core 0) s.locked (s.reg (Reg.TBn_CFG n)) (Fld.TBn_CFG.RUN.put 1 cfg) 0xFFFFFFFF).1 =
        Fld.TBn_CFG.MODE.of cfg := by
      rw [RegDesc.written_of (f := ⟨Fld.TBn_CFG.MODE, .rwl, fun _ => 0, .cross, true, false⟩) 1 (regAt_apart hr.at) rfl,
        if_pos (by rw [hl]; rfl), FieldDesc.written_full (by simp) (by decide) (by decide)]
      dsimp only [Clamp.apply]
      rw [Bits.of_put_other _ _ (by decide)]
      exact Nat.mod_eq_of_lt (Bits.of_lt _ _)
    generalize hv : (regDesc 5 4).written (.core 0) s.locked (s.reg (Reg.TBn_CFG n)) (Fld.TBn_CFG.RUN.put 1 cfg) 0xFFFFFFFF = v at e1 e2
    unfold State.wrote State.written
    dsimp only
    rw [hv]
    have hc : s.crossClamp (Reg.TBn_CFG n) v.1 = s.clampTbCfg n v.1 := by
      unfold State.crossClamp
      dsimp only
      rw [hr.2.1, if_neg (by decide), if_neg (by decide), if_neg (by decide), if_pos rfl]
      unfold State.clampPwm
      rw [he]
    rw [s.settled_word (by rw [hr.2.1]; decide), hc, (s.clampTbCfg_fields n v.1).1, (s.clampTbCfg_fields n v.1).2, e1, e2]
    exact ⟨rfl, rfl⟩
  have ha : (s.wrote (Reg.TBn_CFG n) (regDesc 5 4) (Fld.TBn_CFG.RUN.put 1 cfg)).a = Reg.TBn_CFG n := rfl
  have ho : (s.wrote (Reg.TBn_CFG n) (regDesc 5 4) (Fld.TBn_CFG.RUN.put 1 cfg)).old = s.reg (Reg.TBn_CFG n) := rfl
  generalize s.wrote (Reg.TBn_CFG n) (regDesc 5 4) (Fld.TBn_CFG.RUN.put 1 cfg) = x at hs hnew ha ho
  have hput : (s.putPwm x).1 = if n.val = 0 then (s.writeTbRun n x.new).refreshToll else s.writeTbRun n x.new := by
    unfold State.putPwm
    rw [ha, if_neg hne, he]
    dsimp only
    unfold State.putTbCfg
    have hd : Fld.TBn_CFG.RUN.of x.new ≠ Fld.TBn_CFG.RUN.of x.old := by
      rw [hnew.1, ho]
      intro e
      unfold State.on State.fld at h0
      rw [← e] at h0
      exact absurd h0 (by decide)
    rw [if_pos hd]
  rw [hput] at hs
  have hd := s.writeTbRun_does n x.new hnew.1 h1 h2
  generalize s.writeTbRun n x.new = v at hs hd
  have hv : ∃ u : State, Stored (Reg.TBn_CFG n) u (s.blockStore 0 (Reg.TBn_CFG n) (Fld.TBn_CFG.RUN.put 1 cfg)) ∧ u.tb n = v.tb n ∧
      u.t0 = v.t0 ∧ u.prevLen = v.prevLen := by
    refine ⟨_, hs, ?_⟩
    split
    · have hf := State.refreshToll_frame (s := v)
      exact ⟨State.tb_of_frame hf n, hf.t0 (by decide), hf.prevLen (by decide)⟩
    · exact ⟨rfl, rfl, rfl⟩
  clear hs
  obtain ⟨u, hs, hv1, hv2, hv3⟩ := hv
  have ht : (s.blockStore 0 (Reg.TBn_CFG n) (Fld.TBn_CFG.RUN.put 1 cfg)).tb n = v.tb n := by
    rw [← hv1]
    exact congrArg (fun p : Pwm => tabGet ({} : Tb) p.tbs n) hs.pwm
  have ht0 : (s.blockStore 0 (Reg.TBn_CFG n) (Fld.TBn_CFG.RUN.put 1 cfg)).t0 = v.t0 ∧
      (s.blockStore 0 (Reg.TBn_CFG n) (Fld.TBn_CFG.RUN.put 1 cfg)).prevLen = v.prevLen := by
    rw [hs.eq, ← hv2, ← hv3]
    exact ⟨rfl, rfl⟩
  rw [ht, ht0.1, ht0.2, hd.1, hd.2.1, hnew.2]
  have hz : (n = 0) ↔ n.val = 0 := ⟨fun e => congrArg Fin.val e, fun e => Fin.ext e⟩
  refine ⟨fun hc => ?_, fun hc hm => ?_, fun hc => hd.2.2 (hz.1 hc)⟩
  · rcases hc with hc | hc
    · rw [hz] at hc
      simp [hc]
    · split
      · simp
      · simp [hc]
  · rw [Ne, hz] at hc
    rw [hm, if_neg (by omega)]
    simp [hc]

/-! ### LDALL, acquisition, position feedback -/

theorem ldall_place : IsReg Reg.PWM_LDALL 5 0 0 ∧ (regDesc 5 0).reach (.core 0) false ≠ 0 ∧
    Fld.PWM_LDALL.TB.of ((regDesc 5 0).reach (.core 0) false) = 15 := by decide +kernel

theorem ldallWrite_does : ∀ (w : Word) (s : State), s.pwr.restoring = false → s.locked = false → s.ticking = true →
    Does (.ldallWrite w) s fun t => ∃ bits,
      (∀ n, n < 4 → hasBit bits n = (hasBit (Fld.PWM_LDALL.TB.of w) n && s.tbRun n)) ∧
      t.pwm.loadAll = s.pwm.loadAll ++ ((List.range 4).filter (hasBit bits)).map (fun n => (n, s.tick + 2)) ∧
      t.fld Reg.PWM_LDALL Fld.PWM_LDALL.TB = (s.fld Reg.PWM_LDALL Fld.PWM_LDALL.TB ||| bits) % 16 := by
  intro w s h hl ht
  refine ⟨_, exec_ldallWrite.trans rfl, ?_⟩
  dsimp only
  have hr := ldall_place.1
  have hs := hr.stored (s := s) (w := w) (busy := false) (by decide) h (by rw [hl]; exact ldall_place.2.1)
  rw [State.put_pwm (x := s.wrote Reg.PWM_LDALL (regDesc 5 0) _) hr.2.1] at hs
  have hone : Fld.PWM_LDALL.TB.of (s.wrote Reg.PWM_LDALL (regDesc 5 0) w).ones = Fld.PWM_LDALL.TB.of w :=
    State.wrote_ones_of (by rw [hl]; exact ldall_place.2.2)
  have ha : (s.wrote Reg.PWM_LDALL (regDesc 5 0) w).a = Reg.PWM_LDALL := rfl
  generalize s.wrote Reg.PWM_LDALL (regDesc 5 0) w = x at hs hone ha
  have hput : (s.putPwm x).1 = s.ldall (Fld.PWM_LDALL.TB.of w) := by
    unfold State.putPwm
    rw [if_pos ha, hone]
  rw [hput] at hs
  unfold State.ldall at hs
  rw [ht] at hs
  extract_lets due bits mine take src at hs
  have hdue : due = s.tick + 2 := rfl
  refine ⟨bits, ?_, ?_, ?_⟩
  · have hb : bits = (List.range 4).foldl (fun w' n => if hasBit (Fld.PWM_LDALL.TB.of w) n && s.tbRun n then withBit w' n else w') 0 := rfl
    have key : ∀ (p : Nat → Bool), ∀ n, n < 4 → hasBit ((List.range 4).foldl (fun w' n => if p n then withBit w' n else w') 0) n = p n := by
      intro p n hn
      simp only [List.range, List.range.loop, List.foldl]
      have : n = 0 ∨ n = 1 ∨ n = 2 ∨ n = 3 := by omega
      rcases this with rfl | rfl | rfl | rfl <;> cases h0 : p 0 <;> cases h1 : p 1 <;> cases h2 : p 2 <;> cases h3 : p 3 <;> decide
    rw [hb]
    exact key (fun n => hasBit (Fld.PWM_LDALL.TB.of w) n && s.tbRun n)
  · rw [hs.pwm, State.setFld_pwm]
    rfl
  · rw [hs.fldOf regNo_PWM_LDALL, State.fld_setFld _ _ Fld.PWM_LDALL.TB _ (by decide)]
    exact Nat.mod_mod_of_dvd _ (by decide)

theorem acq_place : IsReg Reg.ACQ_CFG 7 0 0 ∧ (regDesc 7 0).reach (.core 0) false ≠ 0 ∧
    (elemOf Reg.ACQ_CFG (Reg.ACQ_DSc_CFG 0) 0x20 12) = none ∧ (elemOf Reg.ACQ_CFG (Reg.ACQ_DSc_LIMLO 0) 0x20 12) = none := by
  decide +kernel

theorem State.grp_setGrp (s : State) (g n : Nat) (x : AcqGroup) : (s.setGrp g x).grp n = if n = g then x else s.grp n :=
  tabGet_tabSet _ _ _ _ _

theorem State.startGroups_slot (s : State) : ∀ g, g < 4 → (s.startGroups.grp g).slot = 0 := by
  unfold State.startGroups
  simp only [List.range, List.range.loop, List.foldl]
  intro g hg
  have : g = 0 ∨ g = 1 ∨ g = 2 ∨ g = 3 := by omega
  rcases this with rfl | rfl | rfl | rfl <;> simp [State.grp_setGrp]

theorem State.startGroups_regs (s : State) : s.startGroups.regs = s.regs := by
  unfold State.startGroups
  simp only [List.range, List.range.loop, List.foldl]
  rfl

theorem State.unsyncDs_groups (s : State) : s.unsyncDs.acq.groups = s.acq.groups := by
  unfold State.unsyncDs
  generalize List.range 12 = l
  induction l generalizing s with
  | nil => rfl
  | cons c l ih => exact (ih _).trans rfl

theorem acqRunWrite_does : ∀ s : State, s.pwr.restoring = false → s.locked = false →
    s.on Reg.ACQ_CFG Fld.ACQ_CFG.RUN = false → Does .acqRunWrite s fun t =>
      t.on Reg.ACQ_CFG Fld.ACQ_CFG.RUN = true ∧ ∀ g, g < 4 → (t.grp g).slot = 0 := by
  intro s h hl h0
  refine ⟨_, exec_acqRunWrite.trans rfl, ?_⟩
  dsimp only
  generalize hw : s.withField Reg.ACQ_CFG Fld.ACQ_CFG.RUN 1 = w
  have hrun : Fld.ACQ_CFG.RUN.of w = 1 := by
    rw [← hw]
    unfold State.withField
    rw [Bits.of_put Fld.ACQ_CFG.RUN 1 _ (by decide)]
    rfl
  have hr := acq_place.1
  have hs := hr.stored (s := s) (w := w) (busy := false) (by decide) h (by rw [hl]; exact acq_place.2.1)
  rw [State.put_acq (x := s.wrote Reg.ACQ_CFG (regDesc 7 0) _) hr.2.1] at hs
  have hx : ∀ v, s.crossClamp Reg.ACQ_CFG v = v := by
    intro v
    unfold State.crossClamp
    dsimp only
    rw [hr.2.1, if_neg (by decide), if_neg (by decide), if_neg (by decide), if_neg (by decide), if_neg (by decide), if_pos rfl]
    unfold State.clampAcq
    rw [acq_place.2.2.1, acq_place.2.2.2]
  have hn := hr.new_fld (s := s) (w := w) hx 0 (f := ⟨Fld.ACQ_CFG.RUN, .rwl, fun _ => 0, .none, true, false⟩) rfl
    (by rw [hl]; rfl) (.inr rfl)
  have ha : (s.wrote Reg.ACQ_CFG (regDesc 7 0) w).a = Reg.ACQ_CFG := rfl
  have ho : (s.wrote Reg.ACQ_CFG (regDesc 7 0) w).old = s.reg Reg.ACQ_CFG := rfl
  generalize s.wrote Reg.ACQ_CFG (regDesc 7 0) w = x at hs hn ha ho
  dsimp only [Clamp.apply] at hn
  rw [hrun] at hn
  have hput : s.putAcq x = (s.setReg Reg.ACQ_CFG x.new).startGroups.unsyncDs := by
    unfold State.putAcq
    dsimp only
    have hrise : x.rises Fld.ACQ_CFG.RUN = true := by
      unfold Wr.rises
      rw [ho, show Fld.ACQ_CFG.RUN.on (s.reg Reg.ACQ_CFG) = false from h0]
      unfold Bits.on
      rw [hn]
      decide
    rw [if_pos ha, if_pos hrise, ha]
  rw [hput] at hs
  constructor
  · rw [hs.onOf regNo_ACQ_CFG]
    unfold State.on
    rw [State.unsyncDs_frame.fld regNo_ACQ_CFG, State.fld_of_regs (s := s.setReg Reg.ACQ_CFG x.new) (State.startGroups_regs _) _ _, State.fld_setReg_same, hn]
    decide
  · intro g hg
    refine (congrArg (fun q : Acq => (tabGet ({} : AcqGroup) q.groups g).slot) hs.acq).trans ?_
    rw [State.unsyncDs_groups]
    exact State.startGroups_slot (s.setReg Reg.ACQ_CFG x.new) g hg

theorem pos_place : (∀ n : Fin 2, IsReg (Reg.POS_SENSVn_CFG n) 8 4 n ∧ elemOf (Reg.POS_SENSVn_CFG n) (Reg.POS_CHc_CFG 0) 0x100 2 = none ∧
      elemOf (Reg.POS_SENSVn_CFG n) (Reg.POS_CHc_OFFSET 0) 0x100 2 = none ∧
      elemOf (Reg.POS_SENSVn_CFG n) (Reg.POS_SENSVn_CFG 0) 4 2 = some n.val ∧
      elemOf (Reg.POS_SENSVn_CFG n) (Reg.POS_CHc_RES 0) 0x100 2 = none ∧
      elemOf (Reg.POS_SENSVn_CFG n) (Reg.POS_CHc_SENT 0) 0x100 2 = none ∧
      elemOf (Reg.POS_SENSVn_CFG n) (Reg.POS_CHc_SSI 0) 0x100 2 = none) ∧
    (∀ n : Fin 2, IsReg (Reg.POS_CHc_CNT n) 8 14 n ∧ elemOf (Reg.POS_CHc_CNT n) (Reg.POS_CHc_CFG 0) 0x100 2 = none ∧
      elemOf (Reg.POS_CHc_CNT n) (Reg.POS_CHc_OFFSET 0) 0x100 2 = none ∧
      elemOf (Reg.POS_CHc_CNT n) (Reg.POS_SENSVn_CFG 0) 4 2 = none ∧
      elemOf (Reg.POS_CHc_CNT n) (Reg.POS_CHc_RES 0) 0x100 2 = none ∧
      elemOf (Reg.POS_CHc_CNT n) (Reg.POS_CHc_SENT 0) 0x100 2 = none ∧
      elemOf (Reg.POS_CHc_CNT n) (Reg.POS_CHc_SSI 0) 0x100 2 = none) ∧
    (regDesc 8 4).reach (.core 0) false ≠ 0 ∧ (∀ l, (regDesc 8 14).reach (.core 0) l ≠ 0) ∧
    Fld.POS_SENSVn_CFG.EN.of ((regDesc 8 4).reach (.core 0) false) = 1 := by decide +kernel

theorem State.pos_noCross (s : State) {a : Nat} (hu : unitOf a = 8) (h1 : elemOf a (Reg.POS_CHc_RES 0) 0x100 2 = none)
    (h2 : elemOf a (Reg.POS_CHc_SENT 0) 0x100 2 = none) (h3 : elemOf a (Reg.POS_CHc_SSI 0) 0x100 2 = none) (v : Word) :
    s.crossClamp a v = v := by
  unfold State.crossClamp
  dsimp only
  rw [hu, if_neg (by decide), if_neg (by decide), if_neg (by decide), if_neg (by decide), if_neg (by decide), if_neg (by decide),
    if_pos rfl]
  unfold State.clampPos
  rw [h1, h2, h3]

theorem State.fld_withPos (u : State) (p : Pos) (a : Nat) (f : Bits) : State.fld { u with pos := p } a f = u.fld a f :=
  State.fld_of_regs rfl a f

theorem sensvEnable_does : ∀ (n : Fin 2) (s : State), s.pwr.restoring = false → s.locked = false →
    s.on (Reg.POS_SENSVn_CFG n) Fld.POS_SENSVn_CFG.EN = false ∨ s.on (Reg.POS_SENSVn_CFG n) Fld.POS_SENSVn_CFG.FAULT = true →
    Does (.sensvEnable n) s fun t => t.on (Reg.POS_SENSVn_CFG n) Fld.POS_SENSVn_CFG.EN = true ∧
      t.on (Reg.POS_SENSVn_CFG n) Fld.POS_SENSVn_CFG.FAULT = false ∧ tabGet 0 t.pos.supplyAt n = s.now := by
  intro n s h hl h0
  refine ⟨_, exec_sensvEnable.trans rfl, ?_⟩
  dsimp only
  generalize hw : s.withField (Reg.POS_SENSVn_CFG n) Fld.POS_SENSVn_CFG.EN 1 = w
  have hrun : Fld.POS_SENSVn_CFG.EN.of w = 1 := by
    rw [← hw]
    unfold State.withField
    rw [Bits.of_put Fld.POS_SENSVn_CFG.EN 1 _ (by decide)]
    rfl
  obtain ⟨hr, e1, e2, e3, e4, e5, e6⟩ := pos_place.1 n
  have hs := hr.stored (s := s) (w := w) (busy := false) (by decide) h (by rw [hl]; exact pos_place.2.2.1)
  rw [State.put_pos (x := s.wrote (Reg.POS_SENSVn_CFG n) (regDesc 8 4) _) hr.2.1] at hs
  have hn := hr.new_fld (s := s) (w := w) (s.pos_noCross hr.2.1 e4 e5 e6) 0
    (f := ⟨Fld.POS_SENSVn_CFG.EN, .rw, fun _ => 0, .none, false, false⟩) rfl (by rw [hl]; rfl) (.inl rfl)
  have hone : Fld.POS_SENSVn_CFG.EN.on (s.wrote (Reg.POS_SENSVn_CFG n) (regDesc 8 4) w).ones = true := by
    rw [State.wrote_ones_on (by rw [hl]; exact pos_place.2.2.2.2)]
    unfold Bits.on
    rw [hrun]
    rfl
  have hfa : Fld.POS_SENSVn_CFG.FAULT.of (s.wrote (Reg.POS_SENSVn_CFG n) (regDesc 8 4) w).new =
      Fld.POS_SENSVn_CFG.FAULT.of (s.reg (Reg.POS_SENSVn_CFG n)) := by
    rw [State.wrote_new (s.pos_noCross hr.2.1 e4 e5 e6) (by rw [hr.2.1]; decide),
      RegDesc.written_of (f := ⟨Fld.POS_SENSVn_CFG.FAULT, .ro, fun _ => 0, .none, false, false⟩) 1 (regAt_apart hr.at) rfl, if_neg]
    rw [hl]; decide
  have ha : (s.wrote (Reg.POS_SENSVn_CFG n) (regDesc 8 4) w).a = Reg.POS_SENSVn_CFG n := rfl
  have ho : (s.wrote (Reg.POS_SENSVn_CFG n) (regDesc 8 4) w).old = s.reg (Reg.POS_SENSVn_CFG n) := rfl
  generalize s.wrote (Reg.POS_SENSVn_CFG n) (regDesc 8 4) w = x at hs hn ha ho hone hfa
  dsimp only [Clamp.apply] at hn
  rw [hrun] at hn
  have hput : s.putPos x = (s.setReg (Reg.POS_SENSVn_CFG n) x.new).supplyWritten n (Fld.POS_SENSVn_CFG.EN.of (s.reg (Reg.POS_SENSVn_CFG n))) := by
    unfold State.putPos
    dsimp only
    rw [ha, e1, e2, e3]
    dsimp only
    rw [if_pos (by rw [hone]; rfl), ho]
  rw [hput] at hs
  have hv1 : (s.setReg (Reg.POS_SENSVn_CFG n) x.new).on (Reg.POS_SENSVn_CFG n) Fld.POS_SENSVn_CFG.EN = true := by
    unfold State.on
    rw [State.fld_setReg_same, hn]
    decide
  have hv2 : (s.setReg (Reg.POS_SENSVn_CFG n) x.new).on (Reg.POS_SENSVn_CFG n) Fld.POS_SENSVn_CFG.FAULT =
      s.on (Reg.POS_SENSVn_CFG n) Fld.POS_SENSVn_CFG.FAULT := by
    unfold State.on
    rw [State.fld_setReg_same, hfa]
    rfl
  have hv3 : (s.setReg (Reg.POS_SENSVn_CFG n) x.new).now = s.now := State.setReg_now ..
  generalize s.setReg (Reg.POS_SENSVn_CFG n) x.new = v at hs hv1 hv2 hv3
  have hsw : v.supplyWritten n (Fld.POS_SENSVn_CFG.EN.of (s.reg (Reg.POS_SENSVn_CFG n))) =
      { (v.setFld (Reg.POS_SENSVn_CFG n) Fld.POS_SENSVn_CFG.FAULT 0).f2Ends 0x609 n with pos.supplyAt := tabSet 0 v.pos.supplyAt n v.now } := by
    unfold State.supplyWritten
    dsimp only
    refine if_pos ⟨hv1, ?_⟩
    rw [hv2]
    rcases h0 with h0 | h0
    · left
      unfold State.on at h0
      simp only [bne_eq_false_iff_eq] at h0
      exact h0
    · exact .inr h0
  rw [hsw] at hs
  have hf := State.f2Ends_frame (s := v.setFld (Reg.POS_SENSVn_CFG n) Fld.POS_SENSVn_CFG.FAULT 0) (x1 := 0x609) (x2 := n)
  generalize hu : (v.setFld (Reg.POS_SENSVn_CFG n) Fld.POS_SENSVn_CFG.FAULT 0).f2Ends 0x609 n = u at hs hf
  dsimp only at hs
  refine ⟨?_, ?_, ?_⟩
  · rw [hs.onOf (regNo_POS_SENSVn_CFG _)]
    unfold State.on
    rw [State.fld_withPos]
    rw [hf.fld (regNo_POS_SENSVn_CFG _), State.fld_setFld_field _ _ (f := Fld.POS_SENSVn_CFG.FAULT) (g := Fld.POS_SENSVn_CFG.EN) _ (by decide)]
    exact hv1
  · rw [hs.onOf (regNo_POS_SENSVn_CFG _)]
    unfold State.on
    rw [State.fld_withPos]
    rw [hf.fld (regNo_POS_SENSVn_CFG _), State.fld_setFld _ _ Fld.POS_SENSVn_CFG.FAULT _ (by decide)]
    rfl
  · rw [hs.pos, ← hv3]
    exact tabGet_tabSet _ _ _ _ _ |>.trans (if_pos rfl)

theorem wrapClear_does : ∀ (c : Fin 2) (s : State), s.pwr.restoring = false → Does (.wrapClear c) s fun t =>
    t.fld (Reg.POS_CHc_CNT c) Fld.POS_CHc_CNT.WRAP = 0 ∧
    t.fld (Reg.POS_CHc_CNT c) Fld.POS_CHc_CNT.CNT = s.fld (Reg.POS_CHc_CNT c) Fld.POS_CHc_CNT.CNT := by
  intro n s h
  refine ⟨_, exec_wrapClear.trans rfl, ?_⟩
  dsimp only
  obtain ⟨hr, e1, e2, e3, e4, e5, e6⟩ := pos_place.2.1 n
  have hs := hr.stored (s := s) (w := Fld.POS_CHc_CNT.WRAP.only 1) (busy := false) (by decide) h (pos_place.2.2.2.1 _)
  rw [State.put_pos (x := s.wrote (Reg.POS_CHc_CNT n) (regDesc 8 14) _) hr.2.1] at hs
  have hx := fun v => s.pos_noCross hr.2.1 e4 e5 e6 v
  have hn := hr.new_w1c (s := s) (w := Fld.POS_CHc_CNT.WRAP.only 1) hx 1
    (f := ⟨Fld.POS_CHc_CNT.WRAP, .w1c, fun _ => 0, .none, false, false⟩) rfl (by cases s.locked <;> rfl) rfl rfl (by decide)
  have hc : Fld.POS_CHc_CNT.CNT.of (s.wrote (Reg.POS_CHc_CNT n) (regDesc 8 14) (Fld.POS_CHc_CNT.WRAP.only 1)).new =
      Fld.POS_CHc_CNT.CNT.of (s.reg (Reg.POS_CHc_CNT n)) := by
    rw [State.wrote_new hx (by rw [hr.2.1]; decide),
      RegDesc.written_of (f := ⟨Fld.POS_CHc_CNT.CNT, .ro, fun _ => 0, .none, false, false⟩) 0 (regAt_apart hr.at) rfl, if_neg]
    cases s.locked <;> decide
  have ha : (s.wrote (Reg.POS_CHc_CNT n) (regDesc 8 14) (Fld.POS_CHc_CNT.WRAP.only 1)).a = Reg.POS_CHc_CNT n := rfl
  generalize s.wrote (Reg.POS_CHc_CNT n) (regDesc 8 14) (Fld.POS_CHc_CNT.WRAP.only 1) = x at hs hn ha hc
  have hput : s.putPos x = s.setReg (Reg.POS_CHc_CNT n) x.new := by
    unfold State.putPos
    dsimp only
    rw [ha, e1, e2, e3]
  rw [hput] at hs
  rw [hs.fldOf (regNo_POS_CHc_CNT _), hs.fldOf (regNo_POS_CHc_CNT _), State.fld_setReg_same, State.fld_setReg_same, hn, hc]
  exact ⟨rfl, rfl⟩

/-! ### Angle events, weigh-houses, Isnak links -/

theorem evact_place : (∀ i : Fin 16, IsReg (Reg.FLD_EVs_ACT i) 9 25 i ∧ elemOf (Reg.FLD_EVs_ACT i) (Reg.FLD_EVs_ACT 0) 0x10 16 = some i.val ∧
      elemOf (Reg.FLD_EVs_ACT i) (Reg.FLD_MCm_LQ 0) 0x80 2 = none ∧ elemOf (Reg.FLD_EVs_ACT i) (Reg.FLD_MCm_WB2 0) 0x80 2 = none) ∧
    (regDesc 9 25).reach (.core 0) false ≠ 0 := by decide +kernel

theorem State.setFld_armed_late (s : State) (i v : Nat) : (s.setFld (Reg.FLD_EVs_STAT i) Fld.FLD_EVs_STAT.LATE v).fld (Reg.FLD_EVs_STAT i) Fld.FLD_EVs_STAT.ARMED =
    s.fld (Reg.FLD_EVs_STAT i) Fld.FLD_EVs_STAT.ARMED :=
  s.fld_setFld_field _ (f := Fld.FLD_EVs_STAT.LATE) (g := Fld.FLD_EVs_STAT.ARMED) _ (by decide)

theorem State.setArmed_fld (s : State) (i : Nat) (b : Bool) :
    (s.setArmed i b).fld (Reg.FLD_EVs_STAT i) Fld.FLD_EVs_STAT.ARMED = b.toNat := by
  unfold State.setArmed
  rw [State.fld_setFld _ _ Fld.FLD_EVs_STAT.ARMED _ (by decide)]
  cases b <;> rfl

theorem State.armLate_armed (s : State) (i b : Nat) :
    (s.armLate i b).fld (Reg.FLD_EVs_STAT i) Fld.FLD_EVs_STAT.ARMED = s.fld (Reg.FLD_EVs_STAT i) Fld.FLD_EVs_STAT.ARMED := by
  unfold State.armLate
  rw [State.event_frame.fld (regNo_FLD_EVs_STAT _), State.setFld_armed_late]

theorem State.armSlot_armed (s : State) (i : Nat) : (s.armSlot i).fld (Reg.FLD_EVs_STAT i) Fld.FLD_EVs_STAT.ARMED = 1 := by
  unfold State.armSlot
  extract_lets m th fw gap d back late src u
  have hu : u.fld (Reg.FLD_EVs_STAT i) Fld.FLD_EVs_STAT.ARMED = 1 := State.setArmed_fld _ _ _
  split
  · rw [State.armLate_armed, hu]
  · exact hu

theorem State.actWritten_armed (s : State) (i : Nat) : (s.actWritten i).fld (Reg.FLD_EVs_STAT i) Fld.FLD_EVs_STAT.ARMED =
    if s.evAct i Fld.FLD_EVs_ACT.ACT = 0 then 0 else 1 := by
  unfold State.actWritten
  split
  · exact State.setArmed_fld _ _ _
  · exact State.armSlot_armed _ _

theorem angleEventArm_does : ∀ (i : Fin 16) (w : Word) (s : State), s.pwr.restoring = false → s.locked = false →
    Does (.angleEventArm i w) s fun t =>
      t.evAct i Fld.FLD_EVs_ACT.ACT = (if 5 ≤ Fld.FLD_EVs_ACT.ACT.of w then 3 else Fld.FLD_EVs_ACT.ACT.of w) ∧
      t.evAct i Fld.FLD_EVs_ACT.MACH = Fld.FLD_EVs_ACT.MACH.of w ∧ t.evAct i Fld.FLD_EVs_ACT.PAIRS = Fld.FLD_EVs_ACT.PAIRS.of w ∧
      t.fld (Reg.FLD_EVs_STAT i) Fld.FLD_EVs_STAT.ARMED = if Fld.FLD_EVs_ACT.ACT.of w = 0 then 0 else 1 := by
  intro i w s h hl
  refine ⟨_, exec_angleEventArm.trans rfl, ?_⟩
  dsimp only
  obtain ⟨hr, e1, e2, e3⟩ := evact_place.1 i
  have hs := hr.stored (s := s) (w := w) (busy := false) (by decide) h (by rw [hl]; exact evact_place.2)
  rw [State.put_fld (x := s.wrote (Reg.FLD_EVs_ACT i) (regDesc 9 25) _) hr.2.1] at hs
  have hx : ∀ v, s.crossClamp (Reg.FLD_EVs_ACT i) v = v := by
    intro v
    unfold State.crossClamp
    dsimp only
    rw [hr.2.1, if_neg (by decide), if_neg (by decide), if_neg (by decide), if_neg (by decide), if_neg (by decide), if_neg (by decide),
      if_neg (by decide), if_pos rfl]
    unfold State.clampFld
    rw [e2, e3]
  have h1 := hr.new_fld (s := s) (w := w) hx 0 (f := ⟨Fld.FLD_EVs_ACT.ACT, .rw, fun _ => 0, .codes 5 0xFFFFFFFF 3, false, false⟩) rfl
    (by rw [hl]; rfl) (.inl rfl)
  have h2 := hr.new_fld (s := s) (w := w) hx 1 (f := ⟨Fld.FLD_EVs_ACT.MACH, .rw, fun _ => 0, .none, false, false⟩) rfl
    (by rw [hl]; rfl) (.inl rfl)
  have h3 := hr.new_fld (s := s) (w := w) hx 5 (f := ⟨Fld.FLD_EVs_ACT.PAIRS, .rw, fun _ => 0, .none, false, false⟩) rfl
    (by rw [hl]; rfl) (.inl rfl)
  have ha : (s.wrote (Reg.FLD_EVs_ACT i) (regDesc 9 25) w).a = Reg.FLD_EVs_ACT i := rfl
  generalize s.wrote (Reg.FLD_EVs_ACT i) (regDesc 9 25) w = x at hs h1 h2 h3 ha
  dsimp only [Clamp.apply] at h1 h2 h3
  rw [Nat.mod_eq_of_lt (Bits.of_lt _ _)] at h2 h3
  have h1' : Fld.FLD_EVs_ACT.ACT.of x.new = if 5 ≤ Fld.FLD_EVs_ACT.ACT.of w then 3 else Fld.FLD_EVs_ACT.ACT.of w := by
    rw [h1]
    have hlt := Bits.of_lt Fld.FLD_EVs_ACT.ACT w
    have h8 : 2 ^ Fld.FLD_EVs_ACT.ACT.width = 8 := rfl
    generalize Fld.FLD_EVs_ACT.ACT.of w = v at hlt
    rw [h8] at hlt ⊢
    split <;> split <;> omega
  have hput : s.putFld x = (s.setReg (Reg.FLD_EVs_ACT i) x.new).actWritten i := by
    unfold State.putFld
    dsimp only
    rw [ha, e1]
  rw [hput] at hs
  have hf := State.actWritten_frame (s := s.setReg (Reg.FLD_EVs_ACT i) x.new) (x1 := i)
  have hm := State.actWritten_armed (s.setReg (Reg.FLD_EVs_ACT i) x.new) i
  unfold State.evAct at hm ⊢
  rw [State.fld_setReg_same, h1'] at hm
  rw [hs.fldOf (regNo_FLD_EVs_ACT _), hs.fldOf (regNo_FLD_EVs_ACT _), hs.fldOf (regNo_FLD_EVs_ACT _), hs.fldOf (regNo_FLD_EVs_STAT _)]
  dsimp only
  rw [hf.fld (regNo_FLD_EVs_ACT _), hf.fld (regNo_FLD_EVs_ACT _), hf.fld (regNo_FLD_EVs_ACT _), hm,
    State.fld_setReg_same, State.fld_setReg_same, State.fld_setReg_same]
  refine ⟨h1', h2, h3, ?_⟩
  by_cases hz : Fld.FLD_EVs_ACT.ACT.of w = 0
  · rw [hz]; rfl
  · rw [if_neg hz, if_neg]
    split <;> omega

theorem wgh_place : (∀ m : Fin 2, IsReg (Reg.WGH_MCm_CFG m) 10 1 m ∧ elemOf (Reg.WGH_MCm_CFG m) (Reg.WGH_MCm_CFG 0) 0x80 2 = some m.val ∧
      ((List.range 8).find? fun i => Reg.WGH_MCm_CFG m == Reg.WGH_MCm_WSPDk (i / 4) (i % 4)) = none) ∧
    (regDesc 10 1).reach (.core 0) false ≠ 0 := by decide +kernel

theorem wgh_congr {s t : State} (m : Fin 2) (h : ∀ b, b ≠ Reg.WGH_MCm_CFG m → t.reg b = s.reg b) :
    t.mapReject m = s.mapReject m ∧ t.testPoint m = s.testPoint m := by
  have hc : Reg.WGH_MCm_CFG (1 - m.val) ≠ Reg.WGH_MCm_CFG m := by
    clear h; revert m; decide
  have hd : ∀ k, t.reg (Reg.WGH_MAPDATA k) = s.reg (Reg.WGH_MAPDATA k) := fun k =>
    h _ (by unfold Reg.WGH_MAPDATA Reg.WGH_MCm_CFG; omega)
  have hi : ∀ j i, t.reg (Reg.WGH_MAPm_Di j i) = s.reg (Reg.WGH_MAPm_Di j i) := fun j i =>
    h _ (reg_ne (regNo_WGH_MAPm_Di j i) (regNo_WGH_MCm_CFG m))
  have hk : t.reg (Reg.WGH_MCm_KT m) = s.reg (Reg.WGH_MCm_KT m) := h _ (reg_ne (regNo_WGH_MCm_KT m) (regNo_WGH_MCm_CFG m))
  have hf : t.reg (Reg.WGH_MCm_MF m) = s.reg (Reg.WGH_MCm_MF m) := h _ (reg_ne (regNo_WGH_MCm_MF m) (regNo_WGH_MCm_CFG m))
  have hw : t.reg (Reg.FLD_MCm_CFG m) = s.reg (Reg.FLD_MCm_CFG m) := h _ (reg_ne (regNo_FLD_MCm_CFG m) (regNo_WGH_MCm_CFG m))
  constructor
  · have hm : ∀ j, t.wghMap j = s.wghMap j := fun j => by simp only [State.wghMap, hi]
    have he : t.wghEn (1 - m) = s.wghEn (1 - m) := by
      simp only [State.wghEn, State.wghCfg, State.fld, h _ hc]
    have hw : ∀ f, t.mapWords f = s.mapWords f := fun f => by simp only [State.mapWords, hd]
    unfold State.mapReject
    rw [hm, hm, he]
    dsimp only
    rw [hw, hi]
  · have hm : ∀ j, t.wghMap j = s.wghMap j := fun j => by simp only [State.wghMap, hi]
    have hp : ∀ f i j c, t.mapPoint f i j c = s.mapPoint f i j c := fun f i j c => by unfold State.mapPoint; rw [hd]
    have hr : ∀ f x j c, t.mapRow f x j c = s.mapRow f x j c := fun f x j c => by
      unfold State.mapRow; dsimp only; rw [hp, hp]
    have hl : ∀ f x y c, t.mapLookup f x y c = s.mapLookup f x y c := fun f x y c => by
      unfold State.mapLookup; dsimp only; rw [hr, hr]
    have hs : t.isWrsm m = s.isWrsm m := by unfold State.isWrsm State.on State.fld; rw [hw]
    have h1 : t.real (Reg.WGH_MCm_KT m) = s.real (Reg.WGH_MCm_KT m) := by unfold State.real; rw [hk]
    have h2 : t.real (Reg.WGH_MCm_MF m) = s.real (Reg.WGH_MCm_MF m) := by unfold State.real; rw [hf]
    unfold State.testPoint State.torqueAt
    dsimp only
    rw [hm, hl, hl, hs, h1, h2]

theorem State.wghEnable_taken (s : State) {m : Nat} (h : s.mapReject m = none) :
    s.wghEnable m = s.setWm m { s.wm m with test := s.testPoint m } := by
  unfold State.wghEnable
  rw [h]

theorem State.wghEnable_refused (s : State) {m k : Nat} (h : s.mapReject m = some k) :
    s.wghEnable m = (s.setFld (Reg.WGH_MCm_CFG m) Fld.WGH_MCm_CFG.EN 0).event
      ⟨UnitCode.wgh, 0x804, 0, m, BitVec.ofNat 32 k⟩ := by
  unfold State.wghEnable
  rw [h]

theorem State.fld_setWm (u : State) (m : Nat) (x : WghM) (a : Nat) (f : Bits) : (u.setWm m x).fld a f = u.fld a f :=
  State.fld_of_regs rfl a f

theorem wghEnable_does : ∀ (m : Fin 2) (cfg : Word) (s : State), s.pwr.restoring = false → s.locked = false →
    s.wghEn m = false → Does (.wghEnable m cfg) s fun t =>
      (s.mapReject m = none → t.wghEn m = true ∧ (t.wm m).test = s.testPoint m) ∧
      (s.mapReject m ≠ none → t.wghEn m = false ∧ t.wgh = s.wgh) := by
  intro m cfg s h hl h0
  refine ⟨_, exec_wghEnable.trans rfl, ?_⟩
  dsimp only
  obtain ⟨hr, e1, e2⟩ := wgh_place.1 m
  have hs := hr.stored (s := s) (w := Fld.WGH_MCm_CFG.EN.put 1 cfg) (busy := false) (by decide) h (by rw [hl]; exact wgh_place.2)
  rw [State.put_wgh (x := s.wrote (Reg.WGH_MCm_CFG m) (regDesc 10 1) _) hr.2.1] at hs
  have hx : ∀ v, s.crossClamp (Reg.WGH_MCm_CFG m) v = v := by
    intro v
    unfold State.crossClamp
    dsimp only
    rw [hr.2.1, if_neg (by decide), if_neg (by decide), if_neg (by decide), if_neg (by decide), if_neg (by decide), if_neg (by decide),
      if_neg (by decide), if_neg (by decide), if_pos rfl]
    unfold State.clampWgh
    rw [e2]
  have h1 := hr.new_fld (s := s) (w := Fld.WGH_MCm_CFG.EN.put 1 cfg) hx 0 (f := ⟨Fld.WGH_MCm_CFG.EN, .rwl, fun _ => 0, .cross, false, false⟩) rfl
    (by rw [hl]; rfl) (.inr rfl)
  have ha : (s.wrote (Reg.WGH_MCm_CFG m) (regDesc 10 1) (Fld.WGH_MCm_CFG.EN.put 1 cfg)).a = Reg.WGH_MCm_CFG m := rfl
  have ho : (s.wrote (Reg.WGH_MCm_CFG m) (regDesc 10 1) (Fld.WGH_MCm_CFG.EN.put 1 cfg)).old = s.reg (Reg.WGH_MCm_CFG m) := rfl
  generalize s.wrote (Reg.WGH_MCm_CFG m) (regDesc 10 1) (Fld.WGH_MCm_CFG.EN.put 1 cfg) = x at hs h1 ha ho
  dsimp only [Clamp.apply] at h1
  rw [Bits.of_put Fld.WGH_MCm_CFG.EN 1 _ (by decide)] at h1
  have hput : s.putWgh x = (s.setReg (Reg.WGH_MCm_CFG m) x.new).wghEnable m := by
    unfold State.putWgh
    dsimp only
    rw [ha, e1]
    dsimp only
    refine if_pos ?_
    have h0' : s.fld (Reg.WGH_MCm_CFG m) Fld.WGH_MCm_CFG.EN ≠ 1 := by
      intro e
      unfold State.wghEn State.wghCfg at h0
      rw [e] at h0
      exact absurd h0 (by decide)
    have hlt : s.fld (Reg.WGH_MCm_CFG m) Fld.WGH_MCm_CFG.EN < 2 ^ 1 := Bits.of_lt Fld.WGH_MCm_CFG.EN _
    have hz : Fld.WGH_MCm_CFG.EN.of (s.reg (Reg.WGH_MCm_CFG m)) = 0 := by
      show s.fld (Reg.WGH_MCm_CFG m) Fld.WGH_MCm_CFG.EN = 0
      omega
    unfold Wr.rises Bits.on
    rw [ho, hz, h1]
    rfl
  rw [hput] at hs
  dsimp only at hs
  have hcg := wgh_congr (s := s) (t := s.setReg (Reg.WGH_MCm_CFG m) x.new) m fun b hb => s.reg_setReg_other _ hb
  have hen : (s.setReg (Reg.WGH_MCm_CFG m) x.new).fld (Reg.WGH_MCm_CFG m) Fld.WGH_MCm_CFG.EN = 1 := by
    rw [State.fld_setReg_same, h1]
    rfl
  have hwg : (s.setReg (Reg.WGH_MCm_CFG m) x.new).wgh = s.wgh := State.setReg_wgh ..
  generalize s.setReg (Reg.WGH_MCm_CFG m) x.new = v at hs hcg hen hwg
  cases hr : s.mapReject m with
  | none =>
    rw [v.wghEnable_taken (hcg.1.trans hr)] at hs
    refine ⟨fun _ => ⟨?_, ?_⟩, fun e => absurd rfl e⟩
    · unfold State.wghEn State.wghCfg
      rw [hs.fldOf (regNo_WGH_MCm_CFG _), State.fld_setWm, hen]
      rfl
    · rw [← hcg.2, show (s.blockStore 0 (Reg.WGH_MCm_CFG m) (Fld.WGH_MCm_CFG.EN.put 1 cfg)).wm m =
        (v.setWm m { v.wm m with test := v.testPoint m }).wm m from congrArg (fun q => tabGet ({} : WghM) q m) hs.wgh]
      exact congrArg WghM.test ((tabGet_tabSet _ _ _ _ _).trans (if_pos rfl))
  | some k =>
    rw [v.wghEnable_refused (hcg.1.trans hr)] at hs
    refine ⟨(fun e => nomatch e), fun _ => ⟨?_, ?_⟩⟩
    · unfold State.wghEn State.wghCfg
      rw [hs.fldOf (regNo_WGH_MCm_CFG _), State.event_frame.fld (regNo_WGH_MCm_CFG _), State.fld_setFld _ _ Fld.WGH_MCm_CFG.EN _ (by decide)]
      rfl
    · rw [hs.wgh, State.event_frame.wgh (by decide), State.setFld_wgh]
      exact hwg

end Sys2Proof.Machine
end

