-- ==== Sys2Proof/Laws/EffectTrips.lean ====
section
/-! SUPPORT. What the events of timebases, gates, trip inputs and comparators do. -/

set_option Elab.async false

namespace Sys2Proof.Machine

/-! ### Timebases -/

/-- What an open period of a timebase keeps. -/
def Opened (n : Nat) (s t : State) : Prop :=
  (t.tb n).zeroAt = (s.tb n).zeroAt ∧ (t.tb n).pastHalf = (s.tb n).pastHalf ∧ (t.tb n).running = (s.tb n).running

theorem Opened.of {n : Nat} {s t : State} (h : t.pwm.tbs = s.pwm.tbs) : Opened n s t := by
  have e : t.tb n = s.tb n := congrArg (fun x => tabGet ({} : Tb) x n) h
  unfold Opened
  rw [e]
  exact ⟨rfl, rfl, rfl⟩

theorem Opened.trans {n : Nat} {s t u : State} (h : Opened n s t) (h' : Opened n t u) : Opened n s u :=
  ⟨h'.1.trans h.1, h'.2.1.trans h.2.1, h'.2.2.trans h.2.2⟩

theorem State.drawDither_opened (s : State) (n : Nat) : Opened n s (s.drawDither n) := by
  unfold State.drawDither
  extract_lets x amp
  split
  · exact .of rfl
  · split
    · unfold Opened
      rw [State.tb_setTb, if_pos rfl]
      exact ⟨rfl, rfl, rfl⟩
    · unfold Opened
      rw [State.tb_setTb, if_pos rfl]
      exact ⟨rfl, rfl, rfl⟩

theorem State.takeRealign_opened (s : State) (n : Nat) : Opened n s s.takeRealign := by
  unfold State.takeRealign
  extract_lets x
  split
  · unfold Opened
    rw [State.tb_setTb]
    split
    · next h => subst h; exact ⟨rfl, rfl, rfl⟩
    · exact ⟨rfl, rfl, rfl⟩
  · exact .of rfl

theorem State.slavePhases_opened (s : State) (n : Nat) : Opened n s s.slavePhases := by
  unfold State.slavePhases
  have key : ∀ (l : List Nat) (f : State → Nat → State) (_ : ∀ u k, Opened n u (f u k)) (u : State), Opened n u (l.foldl f u) := by
    intro l f hf
    induction l with
    | nil => exact fun u => .of rfl
    | cons k l ih => exact fun u => (hf u k).trans (ih _)
  refine key _ _ ?_ s
  intro u k
  extract_lets x new p
  have hset : ∀ y : Tb, y.zeroAt = x.zeroAt → y.pastHalf = x.pastHalf → y.running = x.running → Opened n u (u.setTb k y) := by
    intro y h1 h2 h3
    unfold Opened
    rw [State.tb_setTb]
    split
    · next h => subst h; exact ⟨h1, h2, h3⟩
    · exact ⟨rfl, rfl, rfl⟩
  split
  · exact hset _ rfl rfl rfl
  · split
    · exact hset _ rfl rfl rfl
    · exact .of rfl

theorem State.tb_setFld (s : State) (a : Nat) (f : Bits) (v n : Nat) : (s.setFld a f v).tb n = s.tb n := rfl

theorem State.running_setTb (u : State) (n : Nat) (y : Tb) : ((u.setTb n y).tb n).running = y.running := by
  rw [State.tb_setTb, if_pos rfl]

theorem State.clockAtZero_running (s : State) (n : Nat) : ((s.clockAtZero n).tb n).running = (s.tb n).running := by
  unfold State.clockAtZero
  dsimp only
  split
  · split
    · rw [State.tb_setFld, State.running_setTb]
    · rw [State.tb_of_frame State.postCoarse_frame, State.tb_setFld, State.tb_setFld, State.running_setTb]
  · split
    · rw [State.tb_of_frame State.postCoarse_frame, State.running_setTb]
    · rfl

theorem State.takeDivisor_running (s : State) (n d : Nat) : ((s.takeDivisor n d).tb n).running = (s.tb n).running := by
  unfold State.takeDivisor
  rw [State.tb_setTb, if_pos rfl]

theorem State.divisorAtZero_running (s : State) (n d : Nat) : ((s.divisorAtZero n d).tb n).running = (s.tb n).running := by
  unfold State.divisorAtZero
  split
  · rfl
  · exact State.takeDivisor_running _ _ _

/-- The zero of a timebase that runs or waits: a new period opens at it; one that is stopped has none. -/
theorem timebaseZero_does :
    (∀ (n : Fin 4) (m : Nat) (s : State), (s.tb n).running = false → (s.tb n).waiting = false →
      Does (.timebaseZero n m) s fun t => t = s) ∧
    (∀ (n : Fin 4) (m : Nat) (s : State), (s.tb n).running = true ∨ (s.tb n).waiting = true ∧ s.tbRun 0 = true →
      Does (.timebaseZero n m) s fun t => (t.tb n).running = true ∧ (t.tb n).pastHalf = false ∧
        (t.tb n).zeroAt = max s.now (s.zeroInstant n) ∧ t.now = max s.now (s.zeroInstant n)) := by
  refine ⟨?_, ?_⟩
  · intro n m s h1 h2
    refine ⟨_, exec_timebaseZero.trans rfl, ?_⟩
    dsimp only
    unfold State.zero
    dsimp only
    rw [h1, h2]
    rfl
  · intro n m s h
    refine ⟨_, exec_timebaseZero.trans rfl, ?_⟩
    dsimp only
    unfold State.zero
    extract_lets x a b c d len g p q r
    have hx : x = s.tb n := rfl
    rw [if_neg (by rw [hx]; rcases h with h | h <;> simp [h])]
    have ha : Frame Foot.settle (s.at (s.zeroInstant n)) a := State.settle_frame
    have hxw : x.waiting = (s.tb n).waiting := rfl
    have hxr : x.running = (s.tb n).running := rfl
    clear_value a x
    have hb : (b.tb n).running = true ∧ b.now = max s.now (s.zeroInstant n) := by
      unfold b
      split
      · refine ⟨?_, ha.now (by decide)⟩
        rw [State.tb_setTb, if_pos rfl]
      · next hw =>
        refine ⟨?_, ha.now (by decide)⟩
        rw [State.tb_of_frame ha]
        rcases h with h | h
        · exact h
        · exact absurd (hxw.trans h.1) hw
    clear_value b
    have hc : (c.tb n).running = true ∧ c.now = max s.now (s.zeroInstant n) := by
      unfold c
      split
      · exact hb
      · rw [State.tb_of_frame State.transferSet_frame, State.transferSet_frame.now (by decide)]
        exact hb
    clear_value c
    have hd : (d.tb n).running = true ∧ d.now = max s.now (s.zeroInstant n) := by
      refine ⟨(State.divisorAtZero_running _ n _).trans ((State.clockAtZero_running c n).trans hc.1), ?_⟩
      exact (State.divisorAtZero_frame.now (by decide)).trans ((State.clockAtZero_frame.now (by decide)).trans hc.2)
    clear_value d
    have hg0 : ((d.openPeriod n d.now).tb n).zeroAt = d.now ∧ ((d.openPeriod n d.now).tb n).pastHalf = false ∧
        ((d.openPeriod n d.now).tb n).running = (d.tb n).running := by
      unfold State.openPeriod
      extract_lets tb hh
      rw [State.tb_setTb, if_pos rfl]
      exact ⟨rfl, rfl, rfl⟩
    have hg : Opened n (d.openPeriod n d.now) g := State.drawDither_opened _ _
    have hgn : g.now = d.now := (State.drawDither_frame.now (by decide)).trans (State.openPeriod_frame.now (by decide))
    clear_value g
    have hp : Opened n g p ∧ p.now = g.now := by
      unfold p
      split
      · refine ⟨?_, ?_⟩
        · refine Opened.trans ?_ (State.slavePhases_opened _ _)
          exact Opened.trans (.of (State.gridZero_frame.tbs (by decide))) (State.takeRealign_opened _ _)
        · exact (State.slavePhases_frame.now (by decide)).trans ((State.takeRealign_frame.now (by decide)).trans (State.gridZero_frame.now (by decide)))
      · exact ⟨.of rfl, rfl⟩
    clear_value p
    have hend : Frame (Foot.releaseCbc ||| Foot.judgePairs ||| Foot.watchAtZero ||| Foot.swapAtZero ||| Foot.showTb) p
        (((r.tbPairs n).foldl State.swapAtZero r).showTb n) := by
      refine Frame.step State.showTb_frame (Frame.foldl ?_ fun u k h => Frame.step State.swapAtZero_frame h)
      refine Frame.foldl ?_ fun u k h => Frame.step State.watchAtZero_frame h
      exact Frame.step State.judgePairs_frame (Frame.step State.releaseCbc_frame (Frame.refl _ p))
    have hpz := hg.trans hp.1
    rw [State.tb_of_frame hend, hend.now (by decide), hp.2, hgn, hpz.1, hpz.2.1, hpz.2.2, hg0.1, hg0.2.1, hg0.2.2]
    exact ⟨hd.1, rfl, hd.2, hd.2⟩

/-- The half-period point of a running timebase is passed once in a period. -/
theorem halfPeriodPoint_does :
    (∀ (n : Fin 4) (s : State), (s.tb n).running = false ∨ (s.tb n).pastHalf = true → Does (.halfPeriodPoint n) s fun t => t = s) ∧
    (∀ (n : Fin 4) (s : State), (s.tb n).running = true → (s.tb n).pastHalf = false → Does (.halfPeriodPoint n) s fun t =>
      (t.tb n).pastHalf = true ∧ t.now = max s.now (s.tb n).halfAt) := by
  refine ⟨?_, ?_⟩
  · intro n s h
    refine ⟨_, exec_halfPeriodPoint.trans rfl, ?_⟩
    dsimp only
    unfold State.halfPoint
    dsimp only
    rw [if_pos (by rcases h with h | h <;> simp [h])]
  · intro n s h1 h2
    refine ⟨_, exec_halfPeriodPoint.trans rfl, ?_⟩
    dsimp only
    unfold State.halfPoint
    extract_lets x a upd b rest jd src y src2
    have hx : x = s.tb n := rfl
    rw [if_neg (by rw [hx]; simp [h1, h2])]
    have ha : Frame Foot.settle (s.at (s.tb n).halfAt) a := State.settle_frame
    have hb : Frame (Foot.settle ||| Foot.transferSet) (s.at (s.tb n).halfAt) b := by
      have h0 : Frame (Foot.settle ||| Foot.transferSet) (s.at (s.tb n).halfAt) a := Frame.step State.settle_frame (Frame.refl _ _)
      unfold b
      split
      · exact Frame.step State.transferSet_frame h0
      · exact h0
    clear_value a
    have hbn : b.now = max s.now (s.tb n).halfAt := hb.now (by decide)
    clear_value b
    have hy : (y.tb n).pastHalf = true ∧ y.now = b.now := by
      have h0 : ∀ v : Tb, v.pastHalf = true → ((b.setTb n v).tb n).pastHalf = true ∧ (b.setTb n v).now = b.now := by
        intro v hv
        rw [State.tb_setTb, if_pos rfl]
        exact ⟨hv, rfl⟩
      unfold y
      split
      · have hj : ∀ u : State, Frame Foot.judgeHalf u ((b.tbPairs n).foldl State.judgeHalf u) :=
          fun u => Frame.foldl (Frame.refl _ u) fun v k h => Frame.step State.judgeHalf_frame h
        rw [State.tb_of_frame (hj _), (hj _).now (by decide)]
        exact h0 _ rfl
      · exact h0 _ rfl
    clear_value y
    have hz : Frame Foot.moveOpening y src2 := by
      unfold src2
      split
      · exact Frame.foldl (Frame.refl _ y) fun u k h => Frame.step State.moveOpening_frame h
      · exact Frame.refl _ y
    clear_value src2
    rw [State.tb_of_frame State.showTb_frame, State.tb_of_frame hz, State.showTb_frame.now (by decide), hz.now (by decide), hy.2, hbn]
    exact ⟨hy.1, rfl⟩

/-- The calibration of the delay lines counts in coarse mode only. -/
theorem delayLineCalibrated_does : ∀ (n : Fin 4) (s : State), Does (.delayLineCalibrated n) s fun t =>
    (t.tb n).calibrated = (s.tbCoarse n || (s.tb n).calibrated) ∧ (s.tbCoarse n = false → t = s) := by
  intro n s
  refine ⟨_, exec_delayLineCalibrated.trans rfl, ?_⟩
  dsimp only
  cases h : s.tbCoarse n
  · rw [if_neg (by decide)]
    exact ⟨rfl, fun _ => rfl⟩
  · rw [if_pos rfl, State.tb_setTb, if_pos rfl]
    exact ⟨rfl, fun e => nomatch e⟩

/-! ### Gates -/

theorem State.pair_setPair (s : State) (m n : Nat) (x : Pair) : (s.setPair m x).pair n = if n = m then x else s.pair n :=
  tabGet_tabSet _ _ _ _ _

theorem State.claimGenerator_does (s : State) (k sp : Nat) : ((s.claimGenerator k sp).pair k).swapTo = some sp ∧
    ((s.claimGenerator k sp).pair k).swapCause = 1 ∧ (s.claimGenerator k sp).regs = s.regs := by
  unfold State.claimGenerator
  extract_lets u src
  have hu : u.regs = s.regs := by
    have key : ∀ (l : List Nat) (f : State → Nat → State) (_ : ∀ v j, (f v j).regs = v.regs) (v : State), (l.foldl f v).regs = v.regs := by
      intro l f hf
      induction l with
      | nil => exact fun v => rfl
      | cons j l ih => exact fun v => (ih _).trans (hf v j)
    refine key _ _ ?_ s
    intro v j
    dsimp only
    split <;> rfl
  clear_value src
  clear_value u
  rw [State.pair_setPair, if_pos rfl]
  exact ⟨rfl, rfl, hu⟩

/-- A gate that does not follow its generator: the pair takes a free spare at its next zero. -/
theorem gateReadbackFail_does :
    (∀ (k : Fin 16) (sp : Nat) (s : State), (s.pair k).swapTo = some sp ∨
        (s.pair k).swapTo = none ∧ s.genOf k < 16 ∧ s.freeSpare = some sp →
      Does (.gateReadbackFail k) s fun t => (t.pair k).swapTo = some sp ∧ (t.pair k).swapCause = 1 ∧ t.regs = s.regs) ∧
    (∀ (k : Fin 16) (s : State), (s.pair k).swapTo = none → s.genOf k < 16 → s.freeSpare = none →
      Does (.gateReadbackFail k) s fun t => t.on Reg.PWM_STAT Fld.PWM_STAT.EXH = true) := by
  refine ⟨?_, ?_⟩
  · intro k sp s h
    refine ⟨s.claimGenerator k sp, exec_gateReadbackFail.trans (congrArg Host.Outcome.next ?_), s.claimGenerator_does k sp⟩
    unfold State.readbackFail
    rcases h with h | ⟨h1, h2, h3⟩
    · rw [h]
    · rw [h1]
      dsimp only
      rw [h3, if_neg (by simp; omega)]
  · intro k s h1 h2 h3
    refine ⟨s.generatorsExhausted k, exec_gateReadbackFail.trans (congrArg Host.Outcome.next ?_), ?_⟩
    · unfold State.readbackFail
      rw [h1]
      dsimp only
      rw [h3, if_neg (by simp; omega)]
    · unfold State.generatorsExhausted
      extract_lets u v
      show (v.raise _ _ _).on _ _ = true
      rw [State.raise_frame.on regNo_PWM_STAT, State.event_frame.on regNo_PWM_STAT, State.unitDetected_frame.on regNo_PWM_STAT]
      refine congrArg (· != 0) (s.fld_setFld Reg.PWM_STAT Fld.PWM_STAT.EXH 1) |>.trans rfl

/-! ### Trip inputs and comparators -/

theorem State.levelActive_setLevel (s : State) {a b : Nat} (v : Bool) (ha : a < 32) (hb : b < 32) :
    (s.setLevel a v).levelActive b = if b = a then v else s.levelActive b := by
  unfold State.levelActive State.setLevel
  have hne : Reg.PROT_LEVEL_EXT ≠ Reg.PROT_LEVEL_INT := by decide
  unfold levelReg srcBit
  by_cases h : b = a
  · subst h
    rw [if_pos rfl, State.reg_setReg_same]
    exact bitAt_setBit _ _ _ (by split <;> omega)
  · rw [if_neg h]
    by_cases h1 : a < 16 <;> by_cases h2 : b < 16
    · rw [if_pos h1, if_pos h2, if_pos h1, if_pos h2, State.reg_setReg_same]
      exact bitAt_setBit_other _ _ (by omega) h
    · rw [if_pos h1, if_neg h2, if_pos h1, if_neg h2, s.reg_setReg_other _ hne.symm]
    · rw [if_neg h1, if_pos h2, if_neg h1, if_pos h2, s.reg_setReg_other _ hne]
    · rw [if_neg h1, if_neg h2, if_neg h1, if_neg h2, State.reg_setReg_same]
      exact bitAt_setBit_other _ _ (by omega) (by omega)

theorem State.setLevels (l : List Nat) (v : Bool) (u : State) (b : Nat) (hl : ∀ k ∈ l, k < 32) (hb : b < 32) :
    (l.foldl (fun s src => s.setLevel src v) u).levelActive b = if b ∈ l then v else u.levelActive b := by
  induction l generalizing u with
  | nil => rfl
  | cons k l ih =>
    rw [List.foldl_cons, ih _ (fun j hj => hl j (List.mem_cons_of_mem _ hj)), State.levelActive_setLevel _ _ (hl k List.mem_cons_self) hb]
    by_cases h : b ∈ l
    · rw [if_pos h, if_pos (List.mem_cons_of_mem _ h)]
    · rw [if_neg h]
      by_cases e : b = k
      · rw [if_pos e, if_pos (by rw [e]; exact List.mem_cons_self)]
      · rw [if_neg e, if_neg (fun x => (List.mem_cons.1 x).elim e h)]

theorem State.mem_filtered (s : State) (v : Bool) (b : Nat) : b ∈ s.filtered v ↔
    b < 28 ∧ s.rawActive b = v ∧ s.srcFilt b ≤ s.samples b := by
  unfold State.filtered
  rw [List.mem_filter, List.mem_range, Bool.and_eq_true, decide_eq_true_eq, beq_iff_eq]

theorem Frame.levelActive {K : Nat} {s t : State} (h : Frame K s t) (b : Nat) (h1 : K.testBit 101 = false := by decide)
    (h2 : K.testBit 102 = false := by decide) : t.levelActive b = s.levelActive b := by
  unfold State.levelActive levelReg
  split
  · rw [h.reg regNo_PROT_LEVEL_EXT h1]
  · rw [h.reg regNo_PROT_LEVEL_INT h2]

theorem hasBit_withoutBit_other (n : Nat) {i j : Nat} (h : j ≠ i) : hasBit (withoutBit n i) j = hasBit n j := by
  unfold hasBit withoutBit
  split
  · next hi =>
    rcases Nat.lt_or_gt_of_ne h with hj | hj
    · have hn : n = 2 ^ i + (n - 2 ^ i) := (Nat.add_sub_cancel' (Nat.ge_two_pow_of_testBit hi)).symm
      conv => rhs; rw [hn]
      exact (Nat.testBit_two_pow_add_gt hj _).symm
    · have hr : 2 ^ i ≤ n % 2 ^ j := Nat.ge_two_pow_of_testBit (by rw [Nat.testBit_mod_two_pow, hi, decide_eq_true hj]; rfl)
      have hlt : n % 2 ^ j < 2 ^ j := Nat.mod_lt _ (Nat.two_pow_pos j)
      have hn : n - 2 ^ i = 2 ^ j * (n / 2 ^ j) + (n % 2 ^ j - 2 ^ i) := by
        have := Nat.div_add_mod n (2 ^ j)
        omega
      rw [Nat.testBit_eq_decide_div_mod_eq, Nat.testBit_eq_decide_div_mod_eq, hn, Nat.mul_add_div (Nat.two_pow_pos j),
        Nat.div_eq_of_lt (Nat.lt_of_le_of_lt (Nat.sub_le _ (2 ^ i)) hlt), Nat.add_zero]
  · rfl

theorem State.seeRaw_regs (s : State) (named raw first : Nat) : (s.seeRaw named raw first).regs = s.regs := by
  unfold State.seeRaw
  generalize (List.range 16).filter (hasBit named) = l
  induction l generalizing s with
  | nil => rfl
  | cons k l ih =>
    rw [List.foldl_cons, ih]
    split <;> rfl

/-- What the named balls show is what their sources follow, by POL; what the others show stays. -/
theorem State.seeRaw_raw (s : State) (named raw first b : Nat) :
    hasBit (s.seeRaw named raw first).prot.raw b =
      if b < 16 ∧ hasBit named b = true then hasBit raw b else hasBit s.prot.raw b := by
  unfold State.seeRaw
  have key : ∀ (l : List Nat) (u : State), hasBit (l.foldl (fun s src =>
      if hasBit s.prot.raw src = hasBit raw src then s
      else { s with prot.raw := if hasBit raw src then withBit s.prot.raw src else withoutBit s.prot.raw src }.setRun
        src (ceilDiv first esPerFc * esPerFc)) u).prot.raw b = if b ∈ l then hasBit raw b else hasBit u.prot.raw b := by
    intro l
    induction l with
    | nil => exact fun u => rfl
    | cons k l ih =>
      intro u
      rw [List.foldl_cons, ih]
      by_cases hb : b ∈ l
      · rw [if_pos hb, if_pos (List.mem_cons_of_mem _ hb)]
      · rw [if_neg hb]
        by_cases hk : b = k
        · subst hk
          rw [if_pos List.mem_cons_self]
          split
          · assumption
          · cases hr : hasBit raw b
            · exact hasBit_withoutBit _ _
            · exact hasBit_withBit _ _
        · rw [if_neg (fun h => (List.mem_cons.1 h).elim hk hb)]
          split
          · rfl
          · cases hr : hasBit raw k
            · exact hasBit_withoutBit_other _ hk
            · exact hasBit_withBit_other _ hk
  refine (key _ s).trans ?_
  simp only [List.mem_filter, List.mem_range]

theorem State.rawActive_seen (s : State) {named raw first n b : Nat} (hb : b < 16) (hn : hasBit named b = true) :
    ((s.seeRaw named raw first).at n).rawActive b = (hasBit raw b != s.on (srcCfg b) Fld.PROT_EXTn_CFG.POL) := by
  unfold State.rawActive
  rw [if_pos hb, show ((s.seeRaw named raw first).at n).prot.raw = (s.seeRaw named raw first).prot.raw from rfl,
    State.seeRaw_raw, if_pos ⟨hb, hn⟩]
  refine congrArg (hasBit raw b != ·) (congrArg (· != 0) ?_)
  exact State.fld_of_regs (s.seeRaw_regs named raw first) _ _

theorem State.seeRaw_filtered (s : State) (named raw first n : Nat) (v : Bool) (b : Nat) :
    b ∈ ((s.seeRaw named raw first).at n).filtered v ↔ s.nowActive named raw first n v b := by
  rw [State.mem_filtered]
  unfold State.nowActive State.srcFilt
  rw [show ((s.seeRaw named raw first).at n).fld (srcCfg b) Fld.PROT_EXTn_CFG.FILT = s.fld (srcCfg b) Fld.PROT_EXTn_CFG.FILT from
    State.fld_of_regs (s.seeRaw_regs named raw first) _ _]

/-- Trip inputs that have shown as many active samples as their filter asks for become active; no other level changes. -/
theorem tripFilterActive_does : ∀ (named raw first n : Nat) (s : State), Does (.tripFilterActive named raw first n) s fun t =>
    (∀ b, b < 32 → (t.levelActive b = true ↔ s.levelActive b = true ∨ s.nowActive named raw first n true b)) ∧
    ∀ b, b < 16 → hasBit named b = true → (s.nowActive named raw first n true b ↔
      (hasBit raw b != s.on (srcCfg b) Fld.PROT_EXTn_CFG.POL) = true ∧
        s.srcFilt b ≤ ((s.seeRaw named raw first).at n).samples b) := by
  intro named raw first n s
  refine ⟨_, exec_tripFilterActive.trans rfl, ?_, ?_⟩
  · intro b hb
    have hfl := s.seeRaw_filtered named raw first n true
    have hlv : ((s.seeRaw named raw first).at n).levelActive b = s.levelActive b :=
      (State.seeRaw_frame (s := s) (x1 := named) (x2 := raw) (x3 := first)).levelActive b
    generalize (s.seeRaw named raw first).at n = s' at hfl hlv
    unfold State.levelsActive
    extract_lets fresh u v
    have hv : Frame (Foot.trip) u v := State.trip_frame
    have hend : Frame (Foot.trip ||| Foot.cbcActivate ||| Foot.event) u (fresh.foldl (fun s src =>
      if s.srcMode src = modeCbc then s.cbcActivate src
      else if s.srcMode src = modeReport then
        s.event ⟨UnitCode.prot, 0x401, 0, 0, BitVec.ofNat 32 src⟩
      else s) v) := by
      refine Frame.foldl (Frame.step hv (Frame.refl _ u)) fun w k h => ?_
      split
      · exact Frame.step State.cbcActivate_frame h
      · split
        · exact Frame.step State.event_frame h
        · exact h
    rw [hend.levelActive b]
    have hfresh : ∀ k, k ∈ fresh ↔ s.nowActive named raw first n true k ∧ s'.levelActive k = false := by
      intro k
      show k ∈ List.filter _ _ ↔ _
      rw [List.mem_filter, hfl]
      show (_ ∧ (!s'.levelActive k) = true) ↔ _
      rw [Bool.not_eq_true']
    have hu := State.setLevels fresh true s' b (fun k hk => by have := ((hfresh k).1 hk).1.1; omega) hb
    rw [show u.levelActive b = _ from hu, ← hlv]
    by_cases h : b ∈ fresh
    · rw [if_pos h]
      exact ⟨fun _ => .inr ((hfresh b).1 h).1, fun _ => rfl⟩
    · rw [if_neg h]
      refine ⟨.inl, fun e => e.elim id fun e => ?_⟩
      cases hl : s'.levelActive b
      · exact absurd ((hfresh b).2 ⟨e, hl⟩) h
      · rfl
  · intro b hb hn
    unfold State.nowActive
    rw [State.rawActive_seen s hb hn]
    exact ⟨fun h => h.2, fun h => ⟨by omega, h⟩⟩

/-- Trip inputs that have shown as many inactive samples as their filter asks for become inactive; no other level changes. -/
theorem tripFilterInactive_does : ∀ (named raw first n : Nat) (s : State),
    Does (.tripFilterInactive named raw first n) s fun t =>
    (∀ b, b < 32 → (t.levelActive b = true ↔ s.levelActive b = true ∧ ¬ s.nowActive named raw first n false b)) ∧
    (∀ b, b < 16 → hasBit named b = true → (s.nowActive named raw first n false b ↔
      (hasBit raw b != s.on (srcCfg b) Fld.PROT_EXTn_CFG.POL) = false ∧
        s.srcFilt b ≤ ((s.seeRaw named raw first).at n).samples b)) ∧
    t.prot = (s.seeRaw named raw first).prot ∧ t.now = max s.now n := by
  intro named raw first n s
  refine ⟨_, exec_tripFilterInactive.trans rfl, ?_⟩
  dsimp only
  have hfl := s.seeRaw_filtered named raw first n false
  have hlv : ∀ b, ((s.seeRaw named raw first).at n).levelActive b = s.levelActive b := fun b =>
    (State.seeRaw_frame (s := s) (x1 := named) (x2 := raw) (x3 := first)).levelActive b
  have hnow : ((s.seeRaw named raw first).at n).now = max s.now n :=
    congrArg (max · n) ((State.seeRaw_frame (s := s) (x1 := named) (x2 := raw) (x3 := first)).now (by decide))
  have hprot : ((s.seeRaw named raw first).at n).prot = (s.seeRaw named raw first).prot := rfl
  refine and_left_comm.1 ⟨?_, ?_⟩
  · intro b hb hn
    unfold State.nowActive
    rw [State.rawActive_seen s hb hn]
    exact ⟨fun h => h.2, fun h => ⟨by omega, h⟩⟩
  generalize (s.seeRaw named raw first).at n = s' at hfl hlv hnow hprot
  have hf : Frame Foot.setLevel s' ((s'.filtered false).foldl (fun s src => s.setLevel src false) s') :=
    Frame.foldl (Frame.refl _ _) fun u k h => Frame.step State.setLevel_frame h
  refine ⟨?_, (hf.prot (by decide)).trans hprot, (hf.now (by decide)).trans hnow⟩
  intro b hb
  rw [State.setLevels _ false s' b (fun k hk => by have := ((hfl _).1 hk).1; omega) hb, ← hlv b]
  by_cases h : b ∈ s'.filtered false
  · rw [if_pos h]
    exact ⟨(fun e => nomatch e), fun e => absurd ((hfl b).1 h) e.2⟩
  · rw [if_neg h]
    exact ⟨fun e => ⟨e, fun x => h ((hfl b).2 x)⟩, fun e => e.1⟩

theorem State.cmpMove_sides (s : State) (m scale x : Nat) :
    (s.cmpMove m scale x).prot.cmpHi = (s.cmpSides m scale x).prot.cmpHi ∧
    (s.cmpMove m scale x).prot.cmpLo = (s.cmpSides m scale x).prot.cmpLo := by
  unfold State.cmpMove
  rw [State.cmpAsks_frame.prot (by decide)]
  unfold State.restartRun
  split <;> exact ⟨rfl, rfl⟩

/-- The sides of a connected comparator: high above HI until the input falls HYS below it, low below LO until it rises HYS
above it; one under test or marked failed does not follow its input. -/
theorem comparatorCrossing_does :
    (∀ (m : Fin 12) (v : Int) (vref n : Nat) (s : State), s.cmpOff m = true → Does (.comparatorCrossing m v vref n) s fun t =>
      t.prot = s.prot ∧ t.now = max s.now n) ∧
    (∀ (m : Fin 12) (v : Int) (vref n : Nat) (s : State), s.cmpOff m = false → Does (.comparatorCrossing m v vref n) s fun t =>
      (s.fld (Reg.PROT_CMPm_THR m) Fld.PROT_CMPm_THR.HI * vref < v.toNat * 1024 → hasBit t.prot.cmpHi m = true) ∧
      (v.toNat * 1024 + s.fld (Reg.PROT_CMPm_CFG m) Fld.PROT_CMPm_CFG.HYS * vref < s.fld (Reg.PROT_CMPm_THR m) Fld.PROT_CMPm_THR.HI * vref →
        hasBit t.prot.cmpHi m = false) ∧
      (v.toNat * 1024 < s.fld (Reg.PROT_CMPm_THR m) Fld.PROT_CMPm_THR.LO * vref → hasBit t.prot.cmpLo m = true) ∧
      (s.fld (Reg.PROT_CMPm_THR m) Fld.PROT_CMPm_THR.LO * vref + s.fld (Reg.PROT_CMPm_CFG m) Fld.PROT_CMPm_CFG.HYS * vref < v.toNat * 1024 →
        hasBit t.prot.cmpLo m = false)) := by
  refine ⟨?_, ?_⟩
  · intro m v vref n s h
    refine ⟨_, exec_comparatorCrossing.trans rfl, ?_⟩
    dsimp only
    rw [if_pos (show (s.at n).cmpOff m = true from h)]
    exact ⟨rfl, rfl⟩
  · intro m v vref n s h
    refine ⟨_, exec_comparatorCrossing.trans rfl, ?_⟩
    dsimp only
    rw [if_neg (show ¬(s.at n).cmpOff m = true from by rw [show (s.at n).cmpOff m = false from h]; decide)]
    have hp := (s.at n).cmpMove_sides m vref (v.toNat * 1024)
    rw [hp.1, hp.2]
    unfold State.cmpSides
    extract_lets hi lo hys high low src
    have ehi : hi = s.fld (Reg.PROT_CMPm_THR m) Fld.PROT_CMPm_THR.HI * vref := rfl
    have elo : lo = s.fld (Reg.PROT_CMPm_THR m) Fld.PROT_CMPm_THR.LO * vref := rfl
    have ehys : hys = s.fld (Reg.PROT_CMPm_CFG m) Fld.PROT_CMPm_CFG.HYS * vref := rfl
    rw [← ehi, ← elo, ← ehys]
    refine ⟨?_, ?_, ?_, ?_⟩
    · intro h'
      show hasBit high m = true
      unfold high
      rw [if_pos h']
      exact hasBit_withBit _ _
    · intro h'
      show hasBit high m = false
      unfold high
      rw [if_neg (by omega), if_pos h']
      exact hasBit_withoutBit _ _
    · intro h'
      show hasBit low m = true
      unfold low
      rw [if_pos h']
      exact hasBit_withBit _ _
    · intro h'
      show hasBit low m = false
      unfold low
      rw [if_neg (by omega), if_pos h']
      exact hasBit_withoutBit _ _

end Sys2Proof.Machine
end

