-- ==== Sys2Proof/Laws/EffectAcq.lean ====
section
/-! SUPPORT. What the events of the acquisition block do: conversions, shadows, urgent requests, comparator tests and
delta-sigma channels. -/

set_option Elab.async false

namespace Sys2Proof.Machine

theorem Bits.of_detail (f : Bits) (fs : List (Nat × Nat)) (v : Nat) (h : f.lo + f.width ≤ 32)
    (hb : ∀ i, i < f.width → (fs.any fun x => decide (x.1 ≤ f.lo + i) && x.2.testBit (f.lo + i - x.1)) = v.testBit i) :
    f.of (detailOf fs) = v % 2 ^ f.width := by
  apply Nat.eq_of_testBit_eq
  intro i
  rw [Bits.testBit_of, Nat.testBit_mod_two_pow]
  by_cases hi : i < f.width
  · rw [detailOf_testBit _ _ (by omega), hb i hi]
  · simp [hi]

theorem testBit_off {v n i : Nat} (h : v < 2 ^ n) (hi : n ≤ i) : v.testBit i = false :=
  Nat.testBit_lt_two_pow (Nat.lt_of_lt_of_le h (Nat.pow_le_pow_right (by decide) hi))

theorem State.grp_setGrp' (s : State) (g k : Nat) (x : AcqGroup) : (s.setGrp g x).grp k = if k = g then x else s.grp k :=
  tabGet_tabSet _ _ _ _ _

theorem State.spState_setSp (s : State) (g v : Nat) (hg : g < 4) (hv : v < 4) : (s.setSp g v).spState g = v := by
  unfold State.spState State.setSp
  rw [s.fld_setFld Reg.ACQ_STAT (spField g) v (by show 8 * g + 2 ≤ 32; omega)]
  exact Nat.mod_eq_of_lt hv

/-! ### Conversions -/

theorem ea_res_ne : ∀ (g : Fin 4) (j k : Fin 3), j ≠ k → ∀ e f : Fin 16,
    Reg.ACQ_Ea_e_RES (3 * g.val + j.val) e.val ≠ Reg.ACQ_Ea_e_RES (3 * g.val + k.val) f.val := by
  intro g j k h e f
  show 0x40072000 + _ + _ ≠ 0x40072000 + _ + _
  have hg := g.isLt
  have hj := j.isLt
  have hk := k.isLt
  have hjk : j.val ≠ k.val := fun x => h (Fin.ext x)
  have he := e.isLt
  have hf := f.isLt
  rw [Nat.mod_eq_of_lt (show 3 * g.val + j.val < 12 by omega), Nat.mod_eq_of_lt (show 3 * g.val + k.val < 12 by omega),
    Nat.mod_eq_of_lt he, Nat.mod_eq_of_lt hf]
  omega

/-- The registers in which the conversion of a local input may leave a trace. -/
abbrev Foot.localConvert : Nat := Foot.accWindow ||| Foot.substitute ||| 2 ^ 148 ||| 2 ^ 149

theorem State.streamCode_local (s : State) (a e code t : Nat) (h : s.seqInput a e < 12) :
    Frame Foot.localConvert s (s.streamCode a e code t) := by
  unfold State.streamCode
  extract_lets input u v w
  have hi : input < 12 := h
  have hu : Frame Foot.localConvert s u := (Frame.refl _ s).setFld (regNo_ACQ_Ea_e_RES a e)
  have hv : Frame Foot.localConvert s v := hu.setFld (regNo_ACQ_Ea_e_RES a e)
  have hw : Frame Foot.localConvert s w := by
    unfold w
    rw [if_pos hi]
    exact hv.setFld (regNo_ACQ_INk_LAST _)
  exact Frame.step State.accWindow_frame hw

theorem State.convert_local (s : State) (g j c e code t : Nat) (h : s.seqInput (3 * g + j) e < 12) :
    Frame Foot.localConvert s (s.convert g j c e code t false) := by
  unfold State.convert
  extract_lets a input u
  have hi : input < 12 := h
  rw [if_neg (by omega)]
  have hu : Frame Foot.localConvert s u := s.streamCode_local a e code t h
  have hd : u.diagnose g c input code = u := by
    unfold State.diagnose
    exact if_pos (.inl hi)
  rw [hd]
  exact Frame.step State.substitute_frame hu

theorem State.streamCode_code (s : State) (a e code t : Nat) (hc : code < 2 ^ 14) :
    (s.streamCode a e code t).fld (Reg.ACQ_Ea_e_RES a e) Fld.ACQ_Ea_e_RES.CODE = code := by
  unfold State.streamCode
  extract_lets input u v w
  rw [State.accWindow_frame.fld (regNo_ACQ_Ea_e_RES a e)]
  have hw : w.fld (Reg.ACQ_Ea_e_RES a e) Fld.ACQ_Ea_e_RES.CODE = v.fld (Reg.ACQ_Ea_e_RES a e) Fld.ACQ_Ea_e_RES.CODE := by
    unfold w
    split
    · exact State.fld_setFld_other _ _ _ _ (reg_ne (regNo_ACQ_Ea_e_RES a e) (regNo_ACQ_INk_LAST _))
    · rfl
  rw [hw]
  refine (State.fld_setFld_field _ _ (f := Fld.ACQ_Ea_e_RES.NCONV) (g := Fld.ACQ_Ea_e_RES.CODE) _ (by decide)).trans ?_
  rw [s.fld_setFld (Reg.ACQ_Ea_e_RES a e) Fld.ACQ_Ea_e_RES.CODE]
  exact Nat.mod_eq_of_lt hc

theorem State.convert_code (s : State) (g j c e code t : Nat) (h : s.seqInput (3 * g + j) e ≠ 15) (hc : code < 2 ^ 14) :
    (s.convert g j c e code t false).fld (Reg.ACQ_Ea_e_RES (3 * g + j) e) Fld.ACQ_Ea_e_RES.CODE = code := by
  unfold State.convert
  extract_lets a input u
  rw [if_neg h, State.substitute_frame.fld (regNo_ACQ_Ea_e_RES a e), State.diagnose_frame.fld (regNo_ACQ_Ea_e_RES a e)]
  exact s.streamCode_code a e code t hc

theorem State.streamCode_other (s : State) (a e code t : Nat) {b : Nat} (hb : regNo b = 149) (hne : b ≠ Reg.ACQ_Ea_e_RES a e) :
    (s.streamCode a e code t).reg b = s.reg b := by
  unfold State.streamCode
  extract_lets input u v w
  rw [State.accWindow_frame.reg hb]
  have hw : w.reg b = v.reg b := by
    unfold w
    split
    · exact State.reg_setFld_other _ _ _ (reg_ne hb (regNo_ACQ_INk_LAST _))
    · rfl
  rw [hw]
  exact (State.reg_setFld_other _ _ _ hne).trans (State.reg_setFld_other _ _ _ hne)

theorem State.convert_other (s : State) (g : Fin 4) (j k : Fin 3) (c e f code t : Nat) (he : e < 16) (hf : f < 16) (hne : j ≠ k) :
    (s.convert g k c f code t false).reg (Reg.ACQ_Ea_e_RES (3 * g.val + j.val) e) =
      s.reg (Reg.ACQ_Ea_e_RES (3 * g.val + j.val) e) := by
  unfold State.convert
  extract_lets a input u
  split
  · rfl
  · have hn := ea_res_ne g j k hne ⟨e, he⟩ ⟨f, hf⟩
    rw [State.substitute_frame.reg (regNo_ACQ_Ea_e_RES _ e), State.diagnose_frame.reg (regNo_ACQ_Ea_e_RES _ e)]
    exact s.streamCode_other a f code t (regNo_ACQ_Ea_e_RES _ e) hn

/-- A discarded code leaves no trace in the result registers (R14). -/
theorem State.convert_lost (s : State) (g j c e code t : Nat) :
    Frame (Foot.accWindow ||| Foot.diagnose ||| Foot.substitute) s (s.convert g j c e code t true) := by
  unfold State.convert
  extract_lets a input u
  split
  · exact Frame.refl _ s
  · have hu : Frame (Foot.accWindow ||| Foot.diagnose ||| Foot.substitute) s u := by
      unfold u
      rw [if_pos rfl]
      exact Frame.step State.accWindow_frame (Frame.refl _ s)
    exact Frame.step State.substitute_frame (Frame.step State.diagnose_frame hu)

theorem Frame.servingCore {K : Nat} {s t : State} (h : Frame K s t) (g j : Nat) (h1 : K.testBit 127 = false := by decide)
    (h2 : K.testBit 344 = false := by decide) : t.servingCore g j = s.servingCore g j := by
  unfold State.servingCore State.spState State.spCore State.coreFail
  simp only [h.fld regNo_ACQ_STAT h1, h.unit _ h2]

theorem regNo_ACQ_SEQa_e (a e : Nat) : regNo (Reg.ACQ_SEQa_e a e) = 144 :=
  (by decide +kernel : ∀ a : Fin 12, ∀ e : Fin 16, regNo (0x40070400 + 0x40 * a.val + 0x04 * e.val) = 144) ⟨a % 12, Nat.mod_lt _ (by decide)⟩ ⟨e % 16, Nat.mod_lt _ (by decide)⟩

/-- The end of a slot: every serving core of a sequence whose entry names an input stores its code. (For the second and
third sequence: where the entries of the sequences before it name local inputs, so that no check of this slot takes a core
out of service.) The codes of a discarded frame reach no result register. -/
theorem sarConversionDone_does :
    (∀ (g : Fin 4) (v0 v1 v2 v3 : Int) (vref n : Nat) (lost : Bool) (s : State), s.acqRuns = false →
      Does (.sarConversionDone g v0 v1 v2 v3 vref n lost) s fun t => t = s) ∧
    (∀ (g : Fin 4) (v0 v1 v2 v3 : Int) (vref n : Nat) (s : State), s.acqRuns = true →
      Does (.sarConversionDone g v0 v1 v2 v3 vref n false) s fun t => t.now = max s.now n ∧
        ∀ (j : Fin 3) (c : Nat), s.servingCore g j = some c → s.seqInput (3 * g.val + j.val) (s.slotEntry g j) ≠ 15 →
          (∀ i, i < j.val → s.seqInput (3 * g.val + i) (s.slotEntry g i) < 12) →
          t.fld (Reg.ACQ_Ea_e_RES (3 * g.val + j.val) (s.slotEntry g j)) Fld.ACQ_Ea_e_RES.CODE =
            sarCode (if c = 0 then v0 else if c = 1 then v1 else if c = 2 then v2 else v3) vref) ∧
    (∀ (g : Fin 4) (v0 v1 v2 v3 : Int) (vref n : Nat) (s : State), s.acqRuns = true →
      Does (.sarConversionDone g v0 v1 v2 v3 vref n true) s fun t => t.now = max s.now n ∧
        ∀ a e, t.reg (Reg.ACQ_Ea_e_RES a e) = s.reg (Reg.ACQ_Ea_e_RES a e)) := by
  refine ⟨?_, ?_, ?_⟩
  · intro g v0 v1 v2 v3 vref n lost s h
    refine ⟨_, exec_sarConversionDone.trans rfl, ?_⟩
    dsimp only
    rw [h, if_neg (by decide)]
  · intro g v0 v1 v2 v3 vref n s h
    refine ⟨_, exec_sarConversionDone.trans rfl, ?_⟩
    dsimp only
    rw [h, if_pos rfl]
    generalize hcodes : (fun c : Nat => sarCode (if c = 0 then v0 else if c = 1 then v1 else if c = 2 then v2 else v3) vref) = codes
    have hlt : ∀ c, codes c < 2 ^ 14 := by
      intro c
      rw [← hcodes]
      show min _ _ < _
      omega
    have hcode : ∀ c : Nat, sarCode (if c = 0 then v0 else if c = 1 then v1 else if c = 2 then v2 else v3) vref = codes c := fun c => congrFun hcodes c
    refine ⟨State.slotEnds_frame.now (by decide), ?_⟩
    intro j c hc hin hbefore
    rw [hcode]
    unfold State.slotEnds
    extract_lets m src a b d
    -- the fold over the three sequences
    let step : State → Nat → State := fun s j => match s.servingCore g j with
      | some c => s.convert g j c (m % s.seqLen g j) (codes c) n false
      | none => s
    have hb : b = step (step (step a 0) 1) 2 := rfl
    have hse : ∀ i, s.slotEntry g i = m % a.seqLen g i := fun i => rfl
    have hae : ∀ i, m % a.seqLen g i < 16 := fun i => by
      have h1 : (⟨8 + 4 * i, 4⟩ : Bits).of (a.reg (Reg.ACQ_GRPg_CFG g)) < 16 := Bits.of_lt ⟨8 + 4 * i, 4⟩ _
      have h2 : m % a.seqLen g i < a.seqLen g i := Nat.mod_lt _ (Nat.succ_pos _)
      have h3 : a.seqLen g i = (⟨8 + 4 * i, 4⟩ : Bits).of (a.reg (Reg.ACQ_GRPg_CFG g)) + 1 := rfl
      omega
    have hlen : ∀ {K : Nat} {u v : State} (hf : Frame K u v) (i : Nat) (hK : K.testBit 131 = false := by decide), v.seqLen g i = u.seqLen g i := by
      intro K u v hf i hK
      exact congrArg (· + 1) (hf.fld (regNo_ACQ_GRPg_CFG g) hK)
    have hinp : ∀ {K : Nat} {u v : State} (hf : Frame K u v) (x e : Nat) (hK : K.testBit 144 = false := by decide), v.seqInput x e = u.seqInput x e := by
      intro K u v hf x e hK
      exact hf.fld (regNo_ACQ_SEQa_e x e) hK
    -- a step of a sequence that converts a local input leaves the rest as it is
    have hloc : ∀ (u : State) (i : Nat), u.seqInput (3 * g + i) (m % u.seqLen g i) < 12 → Frame Foot.localConvert u (step u i) := by
      intro u i hi
      show Frame _ u (match u.servingCore g i with
        | some c => u.convert g i c (m % u.seqLen g i) (codes c) n false
        | none => u)
      split
      · exact State.convert_local _ _ _ _ _ _ _ hi
      · exact Frame.refl _ u
    have hat : ∀ (u : State), u.servingCore g j = some c → u.seqLen g j = a.seqLen g j →
        u.seqInput (3 * g + j) (m % a.seqLen g j) ≠ 15 →
        (step u j).fld (Reg.ACQ_Ea_e_RES (3 * g + j) (m % a.seqLen g j)) Fld.ACQ_Ea_e_RES.CODE = codes c := by
      intro u h1 h2 h3
      show (match u.servingCore g j with
        | some c => u.convert g j c (m % u.seqLen g j) (codes c) n false
        | none => u : State).fld _ _ = _
      rw [h1, h2]
      exact State.convert_code u g j c _ _ n h3 (hlt c)
    have hoth : ∀ (u : State) (k : Fin 3), j ≠ k → (step u k).fld (Reg.ACQ_Ea_e_RES (3 * g + j) (m % a.seqLen g j)) Fld.ACQ_Ea_e_RES.CODE =
        u.fld (Reg.ACQ_Ea_e_RES (3 * g + j) (m % a.seqLen g j)) Fld.ACQ_Ea_e_RES.CODE := by
      intro u k hk
      refine congrArg Fld.ACQ_Ea_e_RES.CODE.of ?_
      show (match u.servingCore g k with
        | some c => u.convert g k c (m % u.seqLen g k) (codes c) n false
        | none => u : State).reg _ = _
      split
      · refine State.convert_other u g j k _ _ _ _ n (hae j) ?_ hk
        have h1 : (⟨8 + 4 * k.val, 4⟩ : Bits).of (u.reg (Reg.ACQ_GRPg_CFG g)) < 16 := Bits.of_lt ⟨8 + 4 * k.val, 4⟩ _
        have h2 : m % u.seqLen g k < u.seqLen g k := Nat.mod_lt _ (Nat.succ_pos _)
        have h3 : u.seqLen g k = (⟨8 + 4 * k.val, 4⟩ : Bits).of (u.reg (Reg.ACQ_GRPg_CFG g)) + 1 := rfl
        omega
      · rfl
    have has : a.servingCore g j = some c := hc
    have hai : a.seqInput (3 * g + j) (m % a.seqLen g j) ≠ 15 := hin
    have hbl : ∀ i, i < j.val → a.seqInput (3 * g + i) (m % a.seqLen g i) < 12 := hbefore
    clear_value a m
    have hfold : b.fld (Reg.ACQ_Ea_e_RES (3 * g + j) (m % a.seqLen g j)) Fld.ACQ_Ea_e_RES.CODE = codes c := by
      rw [hb]
      have cases3 : j = 0 ∨ j = 1 ∨ j = 2 := by
        have : ∀ j : Fin 3, j = 0 ∨ j = 1 ∨ j = 2 := by decide
        exact this j
      rcases cases3 with rfl | rfl | rfl
      · refine (hoth _ 2 (by decide)).trans ((hoth _ 1 (by decide)).trans ?_)
        exact hat a has rfl hai
      · have f0 := hloc a 0 (hbl 0 (by decide))
        refine (hoth _ 2 (by decide)).trans ?_
        exact hat _ ((f0.servingCore g 1).trans has) (hlen f0 1) (by rw [hinp f0]; exact hai)
      · have f0 := hloc a 0 (hbl 0 (by decide))
        have f1 := hloc (step a 0) 1 (by rw [hinp f0, hlen f0]; exact hbl 1 (by decide))
        refine hat _ ?_ ?_ ?_
        · rw [f1.servingCore, f0.servingCore]; exact has
        · rw [hlen f1, hlen f0]
        · rw [hinp f1, hinp f0]; exact hai
    have hd : Frame Foot.idleSlot b d := State.idleSlot_frame
    rw [hse]
    have hend : ∀ u : State, (u = d ∨ u = d.comparePair g codes) → u.fld (Reg.ACQ_Ea_e_RES (3 * g + j) (m % a.seqLen g j)) Fld.ACQ_Ea_e_RES.CODE = codes c := by
      intro u hu
      rcases hu with rfl | rfl
      · rw [hd.fld (regNo_ACQ_Ea_e_RES _ _)]; exact hfold
      · rw [State.comparePair_frame.fld (regNo_ACQ_Ea_e_RES _ _), hd.fld (regNo_ACQ_Ea_e_RES _ _)]; exact hfold
    split
    · split
      · exact hend _ (.inl rfl)
      · exact hend _ (.inr rfl)
    · exact hend _ (.inl rfl)
  · intro g v0 v1 v2 v3 vref n s h
    refine ⟨_, exec_sarConversionDone.trans rfl, ?_⟩
    dsimp only
    rw [h, if_pos rfl]
    refine ⟨State.slotEnds_frame.now (by decide), fun a e => ?_⟩
    unfold State.slotEnds
    extract_lets m src u b d
    have hb : Frame (Foot.accWindow ||| Foot.diagnose ||| Foot.substitute) u b := by
      refine Frame.foldl (Frame.refl _ u) fun v j hv => ?_
      split
      · exact Frame.step (State.convert_lost _ _ _ _ _ _ _) hv
      · exact hv
    have hd : Frame (Foot.accWindow ||| Foot.diagnose ||| Foot.substitute ||| Foot.idleSlot ||| Foot.comparePair) u d :=
      Frame.step State.idleSlot_frame (Frame.step hb (Frame.refl _ u))
    have hu : u.reg (Reg.ACQ_Ea_e_RES a e) = s.reg (Reg.ACQ_Ea_e_RES a e) := rfl
    refine Eq.trans ?_ ((hd.reg (regNo_ACQ_Ea_e_RES a e)).trans hu)
    split
    · split
      · rfl
      · exact State.comparePair_frame.reg (regNo_ACQ_Ea_e_RES a e)
    · rfl

/-! ### Shadows and urgent requests -/

theorem State.coreFail_setCoreFail (s : State) (g j : Nat) (b : Bool) (hg : g < 4) (hj : j < 4) :
    (s.setCoreFail g j b).coreFail g j = b := by
  unfold State.coreFail State.setCoreFail State.fld
  rw [State.reg_setReg_same]
  unfold hasBit
  rw [Bits.testBit_of]
  have h := bitAt_setBit (s.reg Reg.ACQ_STAT) (8 * g + 4 + j) b (by omega)
  have : (failField g).width = 4 := rfl
  rw [decide_eq_true (by omega), Bool.true_and]
  exact h

/-- The judgement of a full shadow of a group's spare: passed, the spare takes over at the next boundary; failed, it is out
of service. -/
theorem spareShadowEnd_does :
    (∀ (g : Fin 4) (w : PairWatch) (s : State), (s.grp g).watch = some w → w.core = 3 → s.watchFull w = true → s.watchPasses w = true →
      Does (.spareShadowEnd g) s fun t => (t.grp g).takeover = some (w.live, 1) ∧ t.regs = s.regs) ∧
    (∀ (g : Fin 4) (w : PairWatch) (s : State), (s.grp g).watch = some w → w.core = 3 → s.watchFull w = true → s.watchPasses w = false →
      Does (.spareShadowEnd g) s fun t => (t.grp g).watch = none ∧ t.coreFail g 3 = true) ∧
    (∀ (g : Fin 4) (s : State), (∀ w, (s.grp g).watch = some w → w.core ≠ 3 ∨ s.watchFull w = false) →
      Does (.spareShadowEnd g) s fun t => t = s) := by
  refine ⟨?_, ?_, ?_⟩
  · intro g w s h1 h2 h3 h4
    refine ⟨_, exec_spareShadowEnd.trans rfl, ?_⟩
    rw [h1]
    dsimp only
    rw [if_pos ⟨h2, h3⟩, if_pos h4]
    refine ⟨?_, rfl⟩
    rw [State.grp_setGrp', if_pos rfl]
  · intro g w s h1 h2 h3 h4
    refine ⟨_, exec_spareShadowEnd.trans rfl, ?_⟩
    rw [h1]
    dsimp only
    rw [if_pos ⟨h2, h3⟩, h4, if_neg (by decide)]
    unfold State.shadowMismatch
    extract_lets src u
    have hu : (u.grp g).watch = none := by
      have e : u.acq = (s.setGrp g { s.grp g with watch := none }).acq := State.shadowFailed_frame.acq (by decide)
      refine (congrArg (fun x : Acq => (tabGet ({} : AcqGroup) x.groups g).watch) e).trans ?_
      exact congrArg AcqGroup.watch ((State.grp_setGrp' s g g _).trans (if_pos rfl))
    refine ⟨?_, ?_⟩
    · have e : (((u.setSp g spFree).setCoreFail g 3 true).postCoreSwap g w.live 2 false).acq = u.acq := State.postCoreSwap_frame.acq (by decide)
      exact (congrArg (fun x : Acq => (tabGet ({} : AcqGroup) x.groups g).watch) e).trans hu
    · have e : (((u.setSp g spFree).setCoreFail g 3 true).postCoreSwap g w.live 2 false).coreFail g 3 = ((u.setSp g spFree).setCoreFail g 3 true).coreFail g 3 :=
        congrArg (hasBit · 3) (State.postCoreSwap_frame.fld regNo_ACQ_STAT)
      exact e.trans (State.coreFail_setCoreFail _ _ _ _ g.isLt (by decide))
  · intro g s h
    refine ⟨_, exec_spareShadowEnd.trans rfl, ?_⟩
    split
    · next w hw =>
      rw [if_neg]
      rintro ⟨h1, h2⟩
      rcases h w hw with h' | h'
      · exact h' h1
      · exact absurd (h'.symm.trans h2) (by decide)
    · rfl

/-- An urgent request on its way: the idle spare of the group starts its conversion; one that is late, or finds the spare
taken or failed, is dropped and counted. -/
theorem urgentRequest_does :
    (∀ (g : Fin 4) (late : Bool) (s : State), s.acqRuns = false ∨ (s.grp g).asked = false ∧ s.urgentCount g = false →
      Does (.urgentRequest g late) s fun t => t = s) ∧
    (∀ (g : Fin 4) (s : State), s.acqRuns = true → (s.grp g).asked = true ∨ s.urgentCount g = true → s.spState g = spFree →
      s.coreFail g 3 = false → (s.grp g).takeover = none → Does (.urgentRequest g false) s fun t =>
        t.spState g = spUrgent ∧ (t.grp g).asked = false ∧
        (t.grp g).urgent = some (s.urgSrc g, s.fld (Reg.ACQ_GRPg_URGCFG g) Fld.ACQ_GRPg_URGCFG.INPUT)) ∧
    (∀ (g : Fin 4) (late : Bool) (s : State), s.acqRuns = true → (s.grp g).asked = true ∨ s.urgentCount g = true →
      late = true ∨ s.spState g ≠ spFree ∨ s.coreFail g 3 = true ∨ (s.grp g).takeover ≠ none → Does (.urgentRequest g late) s fun t =>
        t.fld (Reg.ACQ_GRPg_URGSTAT g) Fld.ACQ_GRPg_URGSTAT.DROP =
          satAdd 16 (s.fld (Reg.ACQ_GRPg_URGSTAT g) Fld.ACQ_GRPg_URGSTAT.DROP) 1 ∧
        t.spState g = s.spState g) := by
  refine ⟨?_, ?_, ?_⟩
  · intro g late s h
    refine ⟨_, exec_urgentRequest.trans rfl, ?_⟩
    dsimp only
    rw [if_neg (by rcases h with h | h <;> simp [h])]
  · intro g s h1 h2 h3 h4 h5
    refine ⟨_, exec_urgentRequest.trans rfl, ?_⟩
    dsimp only
    rw [if_pos (by rcases h2 with h | h <;> simp [h1, h])]
    unfold State.urgentStart
    extract_lets src u
    have ht : (u.grp g).takeover = none := by
      have e := (State.grp_setGrp' s g g { s.grp g with asked := false }).trans (if_pos rfl)
      exact (congrArg AcqGroup.takeover e).trans h5
    have ha : (u.grp g).asked = false := congrArg AcqGroup.asked ((State.grp_setGrp' s g g { s.grp g with asked := false }).trans (if_pos rfl))
    have hsp : u.spState g = spFree := h3
    have hcf : u.coreFail g 3 = false := h4
    rw [ht, hsp, hcf, if_neg (by decide)]
    refine ⟨?_, ?_, ?_⟩
    · exact State.spState_setSp u g _ g.isLt (by decide)
    · exact (congrArg AcqGroup.asked ((State.grp_setGrp' _ g g _).trans (if_pos rfl))).trans ha
    · exact congrArg AcqGroup.urgent ((State.grp_setGrp' _ g g _).trans (if_pos rfl))
  · intro g late s h1 h2 h3
    refine ⟨_, exec_urgentRequest.trans rfl, ?_⟩
    dsimp only
    rw [if_pos (by rcases h2 with h | h <;> simp [h1, h])]
    unfold State.urgentStart
    extract_lets src u
    have ht : (u.grp g).takeover = (s.grp g).takeover := by
      have e := (State.grp_setGrp' s g g { s.grp g with asked := false }).trans (if_pos rfl)
      have e2 := congrArg AcqGroup.takeover e
      exact e2
    have hsp : u.spState g = s.spState g := rfl
    have hcf : u.coreFail g 3 = s.coreFail g 3 := rfl
    rw [ht, hsp, hcf, if_pos (by
      rcases h3 with h | h | h | h
      · simp [h]
      · simp [bne, h]
      · simp [h]
      · simp [Option.isSome_iff_ne_none, h])]
    refine ⟨u.fld_count (Reg.ACQ_GRPg_URGSTAT g) Fld.ACQ_GRPg_URGSTAT.DROP 1, ?_⟩
    exact State.urgentDrop_frame.fld regNo_ACQ_STAT

/-- An urgent conversion that ends: its code, source and tick are in the result registers, DONE counts, and the spare is free. -/
theorem urgentConversionDone_does :
    (∀ (g : Fin 4) (v : Int) (vref n : Nat) (s : State), (s.grp g).urgent = none → Does (.urgentConversionDone g v vref n) s fun t => t = s) ∧
    (∀ (g : Fin 4) (v : Int) (vref n src input : Nat) (s : State), (s.grp g).urgent = some (src, input) → src < 8 →
      Does (.urgentConversionDone g v vref n) s fun t =>
        t.fld (Reg.ACQ_GRPg_URGRES g) Fld.ACQ_GRPg_URGRES.CODE = sarCode v vref ∧
        t.fld (Reg.ACQ_GRPg_URGRES g) Fld.ACQ_GRPg_URGRES.SRC = src ∧
        t.fld (Reg.ACQ_GRPg_URGRES g) Fld.ACQ_GRPg_URGRES.SEQ = (s.fld (Reg.ACQ_GRPg_URGRES g) Fld.ACQ_GRPg_URGRES.SEQ + 1) % 256 ∧
        t.reg (Reg.ACQ_GRPg_URGTICK g) = BitVec.ofNat 32 (s.tick % 2 ^ 32) ∧
        t.fld (Reg.ACQ_GRPg_URGSTAT g) Fld.ACQ_GRPg_URGSTAT.DONE =
          satAdd 16 (s.fld (Reg.ACQ_GRPg_URGSTAT g) Fld.ACQ_GRPg_URGSTAT.DONE) 1 ∧
        t.spState g = spFree ∧ (t.grp g).urgent = none) := by
  refine ⟨?_, ?_⟩
  · intro g v vref n s h
    refine ⟨_, exec_urgentConversionDone.trans rfl, ?_⟩
    rw [h]
  · intro g v vref n src input s h hsrc
    refine ⟨_, exec_urgentConversionDone.trans rfl, ?_⟩
    rw [h]
    dsimp only
    generalize hu : (s.at n).urgentResult g src input (sarCode v vref) = u
    have hc : sarCode v vref < 2 ^ 14 := by
      show min _ _ < _
      omega
    have hf : ∀ x : AcqGroup, Frame (Foot.setSp ||| Foot.setGrp) u ((u.setSp g spFree).setGrp g x) := fun x =>
      Frame.step State.setGrp_frame (Frame.step State.setSp_frame (Frame.refl _ u))
    have hres : u.reg (Reg.ACQ_GRPg_URGRES g) = detailOf [(0, sarCode v vref), (16, src),
        (24, (s.fld (Reg.ACQ_GRPg_URGRES g) Fld.ACQ_GRPg_URGRES.SEQ + 1) % 256)] ∧
        u.reg (Reg.ACQ_GRPg_URGTICK g) = BitVec.ofNat 32 (s.tick % 2 ^ 32) ∧
        u.fld (Reg.ACQ_GRPg_URGSTAT g) Fld.ACQ_GRPg_URGSTAT.DONE =
          satAdd 16 (s.fld (Reg.ACQ_GRPg_URGSTAT g) Fld.ACQ_GRPg_URGSTAT.DONE) 1 := by
      rw [← hu]
      unfold State.urgentResult
      extract_lets seq a b c d
      have n1 : Reg.ACQ_GRPg_URGRES g ≠ Reg.ACQ_GRPg_URGSTAT g := reg_ne (regNo_ACQ_GRPg_URGRES g) (regNo_ACQ_GRPg_URGSTAT g)
      have n2 : Reg.ACQ_GRPg_URGRES g ≠ Reg.ACQ_GRPg_URGOFS g := reg_ne (regNo_ACQ_GRPg_URGRES g) (regNo_ACQ_GRPg_URGOFS g)
      have n3 : Reg.ACQ_GRPg_URGRES g ≠ Reg.ACQ_GRPg_URGTICK g := reg_ne (regNo_ACQ_GRPg_URGRES g) (regNo_ACQ_GRPg_URGTICK g)
      have n4 : Reg.ACQ_GRPg_URGRES g ≠ Reg.ACQ_GRPg_URGVAL g := reg_ne (regNo_ACQ_GRPg_URGRES g) (regNo_ACQ_GRPg_URGVAL g)
      have m1 : Reg.ACQ_GRPg_URGTICK g ≠ Reg.ACQ_GRPg_URGSTAT g := reg_ne (regNo_ACQ_GRPg_URGTICK g) (regNo_ACQ_GRPg_URGSTAT g)
      have m2 : Reg.ACQ_GRPg_URGTICK g ≠ Reg.ACQ_GRPg_URGOFS g := reg_ne (regNo_ACQ_GRPg_URGTICK g) (regNo_ACQ_GRPg_URGOFS g)
      have k1 : Reg.ACQ_GRPg_URGSTAT g ≠ Reg.ACQ_GRPg_URGOFS g := reg_ne (regNo_ACQ_GRPg_URGSTAT g) (regNo_ACQ_GRPg_URGOFS g)
      have k2 : Reg.ACQ_GRPg_URGSTAT g ≠ Reg.ACQ_GRPg_URGTICK g := reg_ne (regNo_ACQ_GRPg_URGSTAT g) (regNo_ACQ_GRPg_URGTICK g)
      have k3 : Reg.ACQ_GRPg_URGSTAT g ≠ Reg.ACQ_GRPg_URGVAL g := reg_ne (regNo_ACQ_GRPg_URGSTAT g) (regNo_ACQ_GRPg_URGVAL g)
      have k4 : Reg.ACQ_GRPg_URGSTAT g ≠ Reg.ACQ_GRPg_URGRES g := n1.symm
      refine ⟨?_, ?_, ?_⟩
      · refine (State.reg_setFld_other _ _ _ n1).trans ?_
        rw [c.reg_setReg_other _ n2, b.reg_setReg_other _ n3, a.reg_setReg_other _ n4]
        exact State.reg_setReg_same _ _ _
      · refine (State.reg_setFld_other _ _ _ m1).trans ?_
        rw [c.reg_setReg_other _ m2]
        exact State.reg_setReg_same _ _ _
      · refine (State.fld_count _ (Reg.ACQ_GRPg_URGSTAT g) Fld.ACQ_GRPg_URGSTAT.DONE 1).trans ?_
        have e : d.fld (Reg.ACQ_GRPg_URGSTAT g) Fld.ACQ_GRPg_URGSTAT.DONE = s.fld (Reg.ACQ_GRPg_URGSTAT g) Fld.ACQ_GRPg_URGSTAT.DONE := by
          refine congrArg Fld.ACQ_GRPg_URGSTAT.DONE.of ?_
          rw [c.reg_setReg_other _ k1, b.reg_setReg_other _ k2, a.reg_setReg_other _ k3]
          exact State.reg_setReg_other _ _ k4
        rw [e]
    have hseq : (s.fld (Reg.ACQ_GRPg_URGRES g) Fld.ACQ_GRPg_URGRES.SEQ + 1) % 256 < 2 ^ 8 := Nat.mod_lt _ (by decide)
    generalize (s.fld (Reg.ACQ_GRPg_URGRES g) Fld.ACQ_GRPg_URGRES.SEQ + 1) % 256 = seq at hres hseq
    generalize sarCode v vref = code at hc hres
    have fieldOf : ∀ f : Bits, ∀ x : AcqGroup, ((u.setSp g spFree).setGrp g x).fld (Reg.ACQ_GRPg_URGRES g) f = f.of (detailOf [(0, code), (16, src), (24, seq)]) := by
      intro f x
      rw [(hf x).fld (regNo_ACQ_GRPg_URGRES g)]
      exact congrArg f.of hres.1
    refine ⟨?_, ?_, ?_, ?_, ?_, ?_, ?_⟩
    · rw [fieldOf, Bits.of_detail Fld.ACQ_GRPg_URGRES.CODE _ code (by decide)]
      · exact Nat.mod_eq_of_lt hc
      · intro i hi
        have hi : i < 14 := hi
        simp [show ¬ 16 ≤ i by omega, show ¬ 24 ≤ i by omega]
    · rw [fieldOf, Bits.of_detail Fld.ACQ_GRPg_URGRES.SRC _ src (by decide)]
      · exact Nat.mod_eq_of_lt hsrc
      · intro i hi
        have hi : i < 3 := hi
        simp [show ¬ 24 ≤ 16 + i by omega, testBit_off hc (show 14 ≤ 16 + i by omega), Nat.add_sub_cancel_left]
    · rw [fieldOf, Bits.of_detail Fld.ACQ_GRPg_URGRES.SEQ _ seq (by decide)]
      · exact Nat.mod_eq_of_lt hseq
      · intro i hi
        have hi : i < 8 := hi
        simp [show 16 ≤ 24 + i by omega, testBit_off hc (show 14 ≤ 24 + i by omega),
          testBit_off (show src < 2 ^ 3 from hsrc) (show 3 ≤ 24 + i - 16 by omega), Nat.add_sub_cancel_left]
    · exact ((hf _).reg (regNo_ACQ_GRPg_URGTICK g)).trans hres.2.1
    · exact ((hf _).fld (regNo_ACQ_GRPg_URGSTAT g)).trans hres.2.2
    · exact State.spState_setSp u g _ g.isLt (by decide)
    · exact congrArg AcqGroup.urgent ((State.grp_setGrp' _ g g _).trans (if_pos rfl))

/-! ### Comparator tests and delta-sigma channels -/

/-- A step of a comparator under test whose sides answer as they should goes on to the next. -/
theorem comparatorTestStep_does :
    (∀ (m : Fin 12) (a : Bool) (s : State), (s.acq.tests.find? fun t => t.cmp == m.val) = none → Does (.comparatorTestStep m a) s fun t => t = s) ∧
    (∀ (m : Fin 12) (a : Bool) (x : CmpTest) (s : State), (s.acq.tests.find? fun t => t.cmp == m.val) = some x →
      s.cmpConverted m = true → 5 ≤ x.step ∨ a = (x.step % 2 == 1) → s.cmpStep m 4 (x.step + 1) < 5 →
      Does (.comparatorTestStep m a) s fun t =>
        t.acq.tests = s.acq.tests.filter (fun y => y.cmp != m.val) ++ [⟨m, s.cmpStep m 4 (x.step + 1)⟩] ∧ t.regs = s.regs) := by
  refine ⟨?_, ?_⟩
  · intro m a s h
    refine Does.via exec_comparatorTestStep ?_
    unfold execComparatorTestStep
    dsimp only
    rw [h]
    exact ⟨_, rfl, rfl⟩
  · intro m a x s h hc hg hn
    refine Does.via exec_comparatorTestStep ?_
    unfold execComparatorTestStep
    dsimp only
    rw [h]
    dsimp only
    rw [hc, if_neg (by decide), if_pos (by
      rw [decide_eq_true hn, Bool.and_true]
      rcases hg with h | h <;> simp [h])]
    exact ⟨_, rfl, rfl, rfl⟩

theorem State.dsRun_setDsRun (s : State) (c : Nat) (x : DsRun) : (s.setDsRun c x).dsRun c = x :=
  (tabGet_tabSet _ _ _ _ _).trans (if_pos rfl)

theorem State.dsInWindow_open {s : State} {c n : Nat} {f : DsWin → DsWin} (h : s.dsOpen n) :
    (s.dsInWindow c n f).dsRun c = { s.dsRun c with
      ones := (f ⟨(s.dsRun c).ones, (s.dsRun c).bits, (s.dsRun c).err, (s.dsRun c).least, (s.dsRun c).greatest⟩).ones,
      bits := (f ⟨(s.dsRun c).ones, (s.dsRun c).bits, (s.dsRun c).err, (s.dsRun c).least, (s.dsRun c).greatest⟩).bits,
      err := (f ⟨(s.dsRun c).ones, (s.dsRun c).bits, (s.dsRun c).err, (s.dsRun c).least, (s.dsRun c).greatest⟩).err } := by
  unfold State.dsInWindow
  extract_lets d w
  rw [if_neg (Nat.not_lt.2 h.1), if_neg (by
    intro e
    rw [Bool.and_eq_true, decide_eq_true_eq] at e
    exact absurd (h.2 e.1) (Nat.not_lt.2 e.2))]
  exact State.dsRun_setDsRun _ _ _

theorem State.dsInWindow_regs (s : State) (c n : Nat) (f : DsWin → DsWin) : (s.dsInWindow c n f).regs = s.regs := by
  unfold State.dsInWindow
  dsimp only
  split
  · rfl
  · split <;> rfl

/-- A bit is counted in its window and fed to the filter, where the channel has one. -/
theorem State.dsBit_does {s : State} {c n : Nat} {b : Bool} (h : s.dsOpen n) :
    ((s.dsBit c n b).dsRun c).bits = satAdd 16 (s.dsRun c).bits 1 ∧
    ((s.dsBit c n b).dsRun c).ones = satAdd 16 (s.dsRun c).ones b.toNat ∧
    (s.dsOsr c ≠ 0 → ((s.dsBit c n b).dsRun c).phase = (s.dsRun c).phase + 1) ∧ (s.dsBit c n b).regs = s.regs := by
  have hr := s.dsInWindow_regs c n fun w => w.count b
  have hw := State.dsInWindow_open (c := c) (f := fun w => w.count b) h
  have hosr : (s.dsInWindow c n fun w => w.count b).dsOsr c = s.dsOsr c := State.fld_of_regs hr _ _
  unfold State.dsBit
  dsimp only
  generalize s.dsInWindow c n (fun w => w.count b) = u at hr hw hosr
  rw [hosr]
  by_cases ho : s.dsOsr c = 0
  · rw [if_pos ho, hw]
    exact ⟨rfl, rfl, fun h => absurd ho h, hr⟩
  · rw [if_neg ho, State.dsRun_setDsRun, hw]
    exact ⟨rfl, rfl, fun _ => rfl, hr⟩

/-- A sampling edge of a CLOCKED channel counts its bit in the window. A transition of a MANCHESTER channel within a quarter
of the bit period of its expected position is a bit; a later one counts a decoding error, which spoils the window. -/
theorem dsBitSampled_does :
    (∀ (c : Fin 12) (b : Bool) (n p : Nat) (s : State), s.dsClocked c = false ∨ s.dsMode c ≠ 2 ∧ s.dsSamples c n = false →
      Does (.dsBitSampled c b n p) s fun t => t = s) ∧
    (∀ (c : Fin 12) (b : Bool) (n p : Nat) (s : State), s.dsClocked c = true → s.dsMode c ≠ 2 → s.dsSamples c n = true →
      s.dsOpen n → Does (.dsBitSampled c b n p) s fun t =>
      (t.dsRun c).bits = satAdd 16 (s.dsRun c).bits 1 ∧ (t.dsRun c).ones = satAdd 16 (s.dsRun c).ones b.toNat ∧
      (s.dsOsr c ≠ 0 → (t.dsRun c).phase = (s.dsRun c).phase + 1) ∧ t.regs = s.regs) ∧
    (∀ (c : Fin 12) (b : Bool) (m n p : Nat) (s : State), s.dsClocked c = true → s.dsMode c = 2 → s.dsOpen n →
      (s.dsRun c).mid = some m → Does (.dsBitSampled c b n p) s fun t =>
      (4 * (m + p) ≤ 4 * n + p ∧ 4 * n ≤ 4 * (m + p) + p → (t.dsRun c).bits = satAdd 16 (s.dsRun c).bits 1 ∧
        (t.dsRun c).ones = satAdd 16 (s.dsRun c).ones b.toNat ∧ t.regs = s.regs) ∧
      (4 * (m + p) + p < 4 * n → (t.dsRun c).err = true ∧ (t.dsRun c).bits = (s.dsRun c).bits ∧
        t.fld (Reg.ACQ_DSc_STAT c) Fld.ACQ_DSc_STAT.MERR = satAdd 16 (s.fld (Reg.ACQ_DSc_STAT c) Fld.ACQ_DSc_STAT.MERR) 1)) := by
  refine ⟨?_, ?_, ?_⟩
  · intro c b n p s h
    refine ⟨_, exec_dsBitSampled.trans rfl, ?_⟩
    dsimp only
    rcases h with h | ⟨h1, h2⟩
    · rw [h]
      exact if_pos rfl
    · rw [if_neg h1, h2]
      split
      · rfl
      · exact if_neg Bool.false_ne_true
  · intro c b n p s h hm hx ho
    refine ⟨_, exec_dsBitSampled.trans rfl, ?_⟩
    dsimp only
    rw [h, if_neg (by decide), if_neg hm, if_pos hx]
    exact State.dsBit_does (s := s.at n) ho
  · intro c b m n p s h hm ho hmid
    refine ⟨_, exec_dsBitSampled.trans rfl, ?_⟩
    dsimp only
    rw [h, if_neg (by decide), if_pos hm]
    unfold State.manchester
    rw [show ((s.at n).dsRun c).mid = some m from hmid]
    dsimp only
    have hr : ((s.at n).setMid c n).dsRun c = { s.dsRun c with mid := some n } := State.dsRun_setDsRun _ _ _
    have ho' : ((s.at n).setMid c n).dsOpen n := ho
    have hg : ((s.at n).setMid c n).regs = s.regs := rfl
    generalize (s.at n).setMid c n = u at hr ho' hg
    constructor
    · intro hq
      rw [if_neg (by omega), if_pos (by omega)]
      have hb := State.dsBit_does (c := c.val) (b := b) ho'
      rw [hr, hg] at hb
      exact ⟨hb.1, hb.2.1, hb.2.2.2⟩
    · intro hq
      rw [if_neg (by omega), if_neg (by omega)]
      unfold State.dsError
      have hw := State.dsInWindow_open (c := c.val) (f := fun w => { w with err := true }) ho'
      rw [hr] at hw
      refine ⟨(congrArg DsRun.err hw :), (congrArg DsRun.bits hw :), ?_⟩
      refine (State.fld_count _ (Reg.ACQ_DSc_STAT c) Fld.ACQ_DSc_STAT.MERR 1).trans ?_
      rw [State.fld_of_regs ((u.dsInWindow_regs _ _ _).trans hg)]

/-- An output of the sinc3 filter comes when OSR bits have come since the last; the filter then starts anew. -/
theorem dsSincOutput_does :
    (∀ (c : Fin 12) (s : State), s.dsOsr c = 0 ∨ (s.dsRun c).phase < s.dsOsr c → Does (.dsSincOutput c) s fun t => t = s) ∧
    (∀ (c : Fin 12) (s : State), s.dsOsr c ≠ 0 → s.dsOsr c ≤ (s.dsRun c).phase → Does (.dsSincOutput c) s fun t =>
      (t.dsRun c).phase = 0 ∧ t.reg (Reg.ACQ_DSc_SINC c) = Num.pack (s.dsCalibrate c
        (Num.div ((s.dsRun c).output : Rat) ((s.dsOsr c * s.dsOsr c * s.dsOsr c : Nat) : Rat)))) := by
  refine ⟨?_, ?_⟩
  · intro c s h
    refine ⟨_, exec_dsSincOutput.trans rfl, ?_⟩
    dsimp only
    rw [if_neg (by omega)]
  · intro c s h1 h2
    refine ⟨_, exec_dsSincOutput.trans rfl, ?_⟩
    dsimp only
    rw [if_pos ⟨h1, h2⟩]
    unfold State.sincOutput
    extract_lets osr q u
    refine ⟨?_, ?_⟩
    · have e : ((u.setReg (Reg.ACQ_DSc_SINC c) (Num.pack q)).dsLimit c q).acq = u.acq := State.dsLimit_frame.acq (by decide)
      refine (congrArg (fun x : Acq => (tabGet ({} : DsRun) x.ds c).phase) e).trans ?_
      exact congrArg DsRun.phase (State.dsRun_setDsRun s c _)
    · refine (State.dsLimit_frame.reg (regNo_ACQ_DSc_SINC c)).trans ?_
      exact u.reg_setReg_same _ _

end Sys2Proof.Machine
end

