-- ==== Sys2Proof/Laws/EffectPos.lean ====
section
/-! SUPPORT. What the events of position feedback do. -/

set_option Elab.async false

namespace Sys2Proof.Machine

theorem State.ch_setCh (s : State) (c k : Nat) (x : PosCh) : (s.setCh c x).ch k = if k = c then x else s.ch k :=
  tabGet_tabSet _ _ _ _ _

theorem State.chState_setChState (s : State) (c v : Nat) (h : v < 8) : (s.setChState c v).chState c = v := by
  unfold State.chState State.setChState
  rw [s.fld_setFld (Reg.POS_CHc_STAT c) Fld.POS_CHc_STAT.STATE]
  exact Nat.mod_eq_of_lt h

theorem State.chState_setChCause (s : State) (c v : Nat) : (s.setChCause c v).chState c = s.chState c := by
  unfold State.chState State.setChCause
  exact State.fld_setFld_field _ _ (f := Fld.POS_CHc_STAT.CAUSE) (g := Fld.POS_CHc_STAT.STATE) _ (by decide)

theorem State.set_shows (s : State) (c st cause : Nat) (h1 : st < 8) (h2 : cause < 16) :
    ((s.setChState c st).setChCause c cause).chShows c st cause := by
  refine ⟨(State.chState_setChCause _ _ _).trans (State.chState_setChState _ _ _ h1), ?_⟩
  unfold State.setChCause
  rw [State.fld_setFld _ (Reg.POS_CHc_STAT c) Fld.POS_CHc_STAT.CAUSE]
  exact Nat.mod_eq_of_lt h2

theorem Frame.chShows {K : Nat} {s t : State} (h : Frame K s t) {c st cause : Nat} (hs : s.chShows c st cause)
    (hK : K.testBit 178 = false := by decide) : t.chShows c st cause :=
  ⟨(h.fld (regNo_POS_CHc_STAT c) hK).trans hs.1, (h.fld (regNo_POS_CHc_STAT c) hK).trans hs.2⟩

theorem State.coastCh_shows (s : State) (c cause : Nat) (h : cause < 16) : (s.coastCh c cause).chShows c chCoast cause := by
  unfold State.coastCh
  exact State.event_frame.chShows (State.set_shows s c chCoast cause (by decide) h)

theorem State.quarantineCh_shows (s : State) (c cause : Nat) (j : Int) (h : cause < 16) :
    (s.quarantineCh c cause j).chShows c chQuarantine cause := by
  unfold State.quarantineCh
  exact State.event_frame.chShows (State.f2Begins_frame.chShows (State.set_shows s c chQuarantine cause (by decide) h))

theorem State.signalLoss_lost (s : State) (c cause : Nat) (h : cause < 16) : Lost c cause s (s.signalLoss c cause) := by
  unfold State.signalLoss
  extract_lets src u
  have hu : u.chState c = s.chState c := rfl
  rw [hu]
  refine ⟨?_, ?_, ?_⟩
  · intro h1
    rw [if_pos h1]
    exact State.coastCh_shows _ _ _ h
  · intro h1
    rw [if_neg (by rw [h1]; decide), if_pos h1]
    exact State.quarantineCh_shows _ _ _ _ h
  · intro h1 h2
    rw [if_neg h1, if_neg h2]
    exact hu

theorem Lost.before {c cause : Nat} {s u t : State} (h : Lost c cause u t) (e : u.chState c = s.chState c) : Lost c cause s t :=
  ⟨fun x => h.track (e.trans x), fun x => h.check (e.trans x), fun x y => (h.stays (by rw [e]; exact x) (by rw [e]; exact y)).trans e⟩

/-- A pair of a channel that lies outside its amplitude window measures nothing; the third in a row is a signal loss. -/
theorem State.outOfWindow_does (s : State) (c : Nat) :
    ((s.ch c).outRun = 2 → Lost c causeLoss s (s.outOfWindow c)) ∧
    ((s.ch c).outRun < 2 → ((s.outOfWindow c).ch c).outRun = (s.ch c).outRun + 1 ∧ (s.outOfWindow c).chState c = s.chState c) := by
  unfold State.outOfWindow
  extract_lets n src u
  refine ⟨?_, ?_⟩
  · intro h
    rw [if_pos (show (s.ch c).outRun + 1 = 3 by omega)]
    exact (State.signalLoss_lost u c causeLoss (by decide)).before rfl
  · intro h
    rw [if_neg (show ¬(s.ch c).outRun + 1 = 3 by omega)]
    refine ⟨?_, rfl⟩
    rw [State.ch_setCh, if_pos rfl]
    show min ((s.ch c).outRun + 1) 3 = _
    omega

theorem State.pairOut_does (s : State) (c : Nat) (v w : Int) (th : Word) (n : Nat) (h : s.inWindow c v w = false) :
    ((s.ch c).outRun = 2 → Lost c causeLoss s (s.pair' c v w th n)) ∧
    ((s.ch c).outRun < 2 → ((s.pair' c v w th n).ch c).outRun = (s.ch c).outRun + 1 ∧ (s.pair' c v w th n).chState c = s.chState c) := by
  unfold State.pair'
  extract_lets src u
  have hw : u.inWindow c v w = false := h
  have ho : (u.ch c).outRun = (s.ch c).outRun := by
    have e := (State.ch_setCh s c c { s.ch c with ampl := pairAmp v w }).trans (if_pos rfl)
    have e2 := congrArg PosCh.outRun e
    exact e2
  have hs : u.chState c = s.chState c := rfl
  rw [hw, if_neg (by decide)]
  have hd := State.outOfWindow_does u c
  rw [ho, hs] at hd
  exact ⟨fun x => (hd.1 x).before hs, hd.2⟩

/-- A pair of a resolver channel outside its amplitude window, and the excitation limit it shows. -/
theorem resolverPair_does :
    (∀ (c : Fin 2) (v w : Int) (vexc mid : Nat) (s : State), s.chRuns c 1 = false → Does (.resolverPair c v w vexc mid) s fun t => t = s) ∧
    (∀ (c : Fin 2) (v w : Int) (vexc mid : Nat) (s : State), s.chRuns c 1 = true → s.inWindow c v w = false →
      Does (.resolverPair c v w vexc mid) s fun t => t.now = max s.now (s.resolverAt c mid) ∧
        ((s.ch c).outRun = 2 → Lost c causeLoss s t) ∧
        ((s.ch c).outRun < 2 → (t.ch c).outRun = (s.ch c).outRun + 1 ∧ t.chState c = s.chState c)) := by
  refine ⟨?_, ?_⟩
  · intro c v w vexc mid s h
    refine ⟨_, exec_resolverPair.trans rfl, ?_⟩
    dsimp only
    rw [h, if_neg (by decide)]
  · intro c v w vexc mid s h hw
    refine ⟨_, exec_resolverPair.trans rfl, ?_⟩
    dsimp only
    rw [h, if_pos rfl]
    generalize hu : (s.at (s.resolverAt c mid)).excLimit c vexc = u
    have hf : Frame Foot.excLimit (s.at (s.resolverAt c mid)) u := by rw [← hu]; exact State.excLimit_frame
    have hst : u.chState c = s.chState c := by
      rw [← hu]
      unfold State.excLimit State.chState
      exact State.fld_setFld_field _ _ (f := Fld.POS_CHc_STAT.EXCLIM) (g := Fld.POS_CHc_STAT.STATE) _ (by decide)
    have hch : u.ch c = s.ch c := congrArg (fun x : Pos => tabGet ({} : PosCh) x.chans c) (hf.pos (by decide))
    have hin : u.inWindow c v w = false := by
      have e : u.inWindow c v w = s.inWindow c v w := by
        unfold State.inWindow
        dsimp only
        rw [hf.fld (regNo_POS_CHc_RES c), hf.fld (regNo_POS_CHc_RES c)]
        rfl
      exact e.trans hw
    have hp := State.pairOut_does u c v w (Num.atan2 (volts v) (volts w)) (s.resolverAt c mid) hin
    refine ⟨?_, ?_, ?_⟩
    · exact (State.pair'_frame.now (by decide)).trans (hf.now (by decide))
    · intro x
      exact (hp.1 (by rw [hch]; exact x)).before hst
    · intro x
      rw [hch] at hp
      have := hp.2 x
      exact ⟨this.1, this.2.trans hst⟩

theorem State.quadrantTo_skip (s : State) (c q o : Nat) (h : (s.ch c).quadrant = some o) (hd : (q + 4 - o) % 4 = 2) :
    s.quadrantTo c q = ((s.setCh c { s.ch c with quadrant := some q }).doubleStep c, false) := by
  unfold State.quadrantTo
  dsimp only
  rw [h]
  exact if_pos hd

theorem State.quadrantTo_first (s : State) (c q : Nat) (h : (s.ch c).quadrant = none) :
    s.quadrantTo c q = (s.setCh c { s.ch c with quadrant := some q }, true) := by
  unfold State.quadrantTo
  dsimp only
  rw [h]

/-- A pair of a SIN/COS channel: a skipped quadrant is a double step; a pair outside the window measures nothing. -/
theorem sincosPair_does :
    (∀ (c : Fin 2) (v w : Int) (n : Nat) (s : State), s.chRuns c 2 = false → Does (.sincosPair c v w n) s fun t => t = s) ∧
    (∀ (c : Fin 2) (v w : Int) (n q : Nat) (s : State), s.chRuns c 2 = true → (s.ch c).quadrant = some q →
      ((Num.atan2 (volts v) (volts w)).toNat / 2 ^ 30 + 4 - q) % 4 = 2 → Does (.sincosPair c v w n) s fun t =>
        t.fld (Reg.POS_CHc_ERR c) Fld.POS_CHc_ERR.DSTEP = satAdd 8 (s.fld (Reg.POS_CHc_ERR c) Fld.POS_CHc_ERR.DSTEP) 1) ∧
    (∀ (c : Fin 2) (v w : Int) (n : Nat) (s : State), s.chRuns c 2 = true → (s.ch c).quadrant = none → s.inWindow c v w = false →
      (s.ch c).outRun = 2 → Does (.sincosPair c v w n) s fun t => Lost c causeLoss s t) := by
  refine ⟨?_, ?_, ?_⟩
  · intro c v w n s h
    refine ⟨_, exec_sincosPair.trans rfl, ?_⟩
    dsimp only
    rw [h, if_neg (by decide)]
  · intro c v w n q s h hq hd
    refine ⟨_, exec_sincosPair.trans rfl, ?_⟩
    dsimp only
    rw [h, if_pos rfl]
    rw [State.quadrantTo_skip (s.at n) c _ q hq hd]
    dsimp only
    rw [if_neg (by decide), State.pair'_frame.fld (regNo_POS_CHc_ERR c)]
    unfold State.doubleStep
    extract_lets l src u
    have hu : u.fld (Reg.POS_CHc_ERR c) Fld.POS_CHc_ERR.DSTEP = satAdd 8 (s.fld (Reg.POS_CHc_ERR c) Fld.POS_CHc_ERR.DSTEP) 1 :=
      State.fld_count _ (Reg.POS_CHc_ERR c) Fld.POS_CHc_ERR.DSTEP 1
    clear_value u
    split
    · rw [State.chCause_frame.fld (regNo_POS_CHc_ERR c)]
      exact hu
    · exact hu
  · intro c v w n s h hq hw ho
    refine ⟨_, exec_sincosPair.trans rfl, ?_⟩
    dsimp only
    rw [h, if_pos rfl]
    rw [State.quadrantTo_first (s.at n) c _ hq]
    dsimp only
    rw [if_pos rfl]
    generalize hu : (s.at n).setCh c _ = u
    have hst : u.chState c = s.chState c := by rw [← hu]; rfl
    have hou : (u.ch c).outRun = 2 := by
      rw [← hu, State.ch_setCh, if_pos rfl]
      exact ho
    have hin : u.inWindow c v w = false := by rw [← hu]; exact hw
    exact ((State.pairOut_does u c v w _ n hin).1 hou).before hst

theorem State.moveCnt_cnt (s : State) (c : Nat) (d : Int) : (s.moveCnt c d).cnt c = toField 24 ((s.cnt c : Int) + d) := by
  unfold State.moveCnt
  extract_lets v up down u x w
  have hw : w.cnt c = toField 24 v := by
    refine Eq.trans (s.fld_setFld (Reg.POS_CHc_CNT c) Fld.POS_CHc_CNT.CNT (toField 24 v)) ?_
    refine Nat.mod_eq_of_lt ?_
    unfold toField
    have h : v % 2 ^ 24 < 2 ^ 24 := Int.emod_lt_of_pos _ (by decide)
    have h0 : 0 ≤ v % 2 ^ 24 := Int.emod_nonneg _ (by decide)
    show (v % 2 ^ 24).toNat < 2 ^ 24
    omega
  split
  · unfold State.cnt
    refine (State.fld_setFld_field _ _ (f := Fld.POS_CHc_CNT.WDIR) (g := Fld.POS_CHc_CNT.CNT) _ (by decide)).trans ?_
    refine (State.fld_setFld_field _ _ (f := Fld.POS_CHc_CNT.WRAP) (g := Fld.POS_CHc_CNT.CNT) _ (by decide)).trans ?_
    exact hw
  · exact hw

/-- Accepted levels: too few samples change nothing; a quadrature step moves the counter by one in the channel's sense; levels
that are no HALL state are a signal loss. -/
theorem posEdgeAccepted_does :
    (∀ (c : Fin 2) (l : Fin 8) (k n : Nat) (s : State), k < s.fld (Reg.POS_CHc_FILT c) Fld.POS_CHc_FILT.MINEI →
      Does (.posEdgeAccepted c l k n) s fun t => t = s) ∧
    (∀ (c : Fin 2) (l : Fin 8) (k n : Nat) (d : Int) (s : State), s.fld (Reg.POS_CHc_FILT c) Fld.POS_CHc_FILT.MINEI ≤ k →
      s.chRuns c 3 = true → d ≠ 0 →
      quadStep (hasBit (s.ch c).levels 0) (hasBit (s.ch c).levels 1) (hasBit l 0) (hasBit l 1) = some d →
      Does (.posEdgeAccepted c l k n) s fun t => t.cnt c = toField 24 ((s.cnt c : Int) + d * s.dirSign c)) ∧
    (∀ (c : Fin 2) (l : Fin 8) (k n : Nat) (s : State), s.fld (Reg.POS_CHc_FILT c) Fld.POS_CHc_FILT.MINEI ≤ k →
      s.chRuns c 3 = false → s.chRuns c 4 = true → hallIndex (hallCode l) = none →
      Does (.posEdgeAccepted c l k n) s fun t => Lost c causeLoss s t) := by
  refine ⟨?_, ?_, ?_⟩
  · intro c l k n s h
    refine ⟨_, exec_posEdgeAccepted.trans rfl, ?_⟩
    dsimp only
    rw [if_pos h]
  · intro c l k n d s h hr hd hq
    refine ⟨_, exec_posEdgeAccepted.trans rfl, ?_⟩
    dsimp only
    rw [if_neg (by omega)]
    generalize hu : (s.at n).setCh c _ = u
    have hur : u.chRuns c 3 = true := by rw [← hu]; exact hr
    have huc : u.cnt c = s.cnt c := by rw [← hu]; rfl
    have hus : u.dirSign c = s.dirSign c := by rw [← hu]; rfl
    rw [hur, if_pos rfl]
    unfold State.abzEdge
    have hq' : quadStep (hasBit (s.ch c).levels 0) (hasBit (s.ch c).levels 1) (hasBit l.val 0) (hasBit l.val 1) = some d := hq
    rw [hq']
    dsimp only
    rw [if_neg hd]
    generalize hw : State.measured _ _ _ _ _ = w
    have hwc : w.cnt c = toField 24 ((s.cnt c : Int) + d * s.dirSign c) := by
      rw [← hw]
      refine (State.measured_frame.fld (regNo_POS_CHc_CNT c)).trans ?_
      refine (State.missingIndex_frame.fld (regNo_POS_CHc_CNT c)).trans ?_
      have e := State.moveCnt_cnt u c (d * u.dirSign c)
      rw [huc, hus] at e
      rw [hus]
      unfold State.stepCnt
      exact e
    split
    · exact (State.index_frame.fld (regNo_POS_CHc_CNT c)).trans hwc
    · exact hwc
  · intro c l k n s h h3 h4 hi
    refine ⟨_, exec_posEdgeAccepted.trans rfl, ?_⟩
    dsimp only
    rw [if_neg (by omega)]
    generalize hu : (s.at n).setCh c _ = u
    have hu3 : u.chRuns c 3 = false := by rw [← hu]; exact h3
    have hu4 : u.chRuns c 4 = true := by rw [← hu]; exact h4
    have hst : u.chState c = s.chState c := by rw [← hu]; rfl
    rw [hu3, hu4, if_neg (by decide), if_pos rfl]
    unfold State.hallEdge
    dsimp only
    rw [hi, if_pos (by decide)]
    exact (State.signalLoss_lost u c causeLoss (by decide)).before hst

/-- A change that reverts too early is counted; more than the limit of them within 1,024 ticks ends the channel's service. -/
theorem posGlitch_does :
    (∀ (c : Fin 2) (k : Nat) (s : State), k < s.fld (Reg.POS_CHc_FILT c) Fld.POS_CHc_FILT.MINEI → 
      s.chRuns c 3 = true ∨ s.chRuns c 4 = true ∨ s.chRuns c 5 = true ∨ s.chRuns c 6 = true →
      Does (.posGlitch c k) s fun t =>
        t.fld (Reg.POS_CHc_ERR c) Fld.POS_CHc_ERR.GLITCH = satAdd 8 (s.fld (Reg.POS_CHc_ERR c) Fld.POS_CHc_ERR.GLITCH) 1 ∧
        ((s.within1024 (s.ch c).glitches).length < 64 → t.chState c = s.chState c) ∧
        (64 ≤ (s.within1024 (s.ch c).glitches).length → s.chState c ≠ chQuarantine → t.chShows c chQuarantine causeGlitch)) ∧
    (∀ (c : Fin 2) (k : Nat) (s : State), s.fld (Reg.POS_CHc_FILT c) Fld.POS_CHc_FILT.MINEI ≤ k ∨
      s.chRuns c 3 = false ∧ s.chRuns c 4 = false ∧ s.chRuns c 5 = false ∧ s.chRuns c 6 = false →
      Does (.posGlitch c k) s fun t => t = s) := by
  refine ⟨?_, ?_⟩
  · intro c k s h hr
    refine ⟨_, exec_posGlitch.trans rfl, ?_⟩
    dsimp only
    have hoff : s.chState c ≠ chOff := by
      rcases hr with hr | hr | hr | hr <;> · unfold State.chRuns at hr; simp only [Bool.and_eq_true, bne_iff_ne] at hr; exact hr.2
    rw [if_pos (by rcases hr with hr | hr | hr | hr <;> simp [h, hr])]
    unfold State.glitch
    extract_lets l src u
    have hu : u.fld (Reg.POS_CHc_ERR c) Fld.POS_CHc_ERR.GLITCH = satAdd 8 (s.fld (Reg.POS_CHc_ERR c) Fld.POS_CHc_ERR.GLITCH) 1 :=
      State.fld_count s (Reg.POS_CHc_ERR c) Fld.POS_CHc_ERR.GLITCH 1
    have hus : u.chState c = s.chState c := State.fld_setFld_other _ _ _ _ (reg_ne (regNo_POS_CHc_STAT c) (regNo_POS_CHc_ERR c))
    have hl : l = s.within1024 (s.ch c).glitches := rfl
    clear_value u
    rw [← hl]
    by_cases h64 : 64 ≤ l.length
    · rw [if_pos h64]
      refine ⟨(State.chCause_frame.fld (regNo_POS_CHc_ERR c)).trans hu, fun x => absurd x (by omega), ?_⟩
      intro _ hq
      unfold State.chCause
      rw [hus, if_neg (by rintro (x | x); exact hoff x; exact hq x)]
      exact State.quarantineCh_shows u c causeGlitch 0 (by decide)
    · rw [if_neg h64]
      exact ⟨hu, fun _ => hus, fun x => absurd x h64⟩
  · intro c k s h
    refine ⟨_, exec_posGlitch.trans rfl, ?_⟩
    dsimp only
    rw [if_neg]
    rcases h with h | ⟨h1, h2, h3, h4⟩
    · simp [Nat.not_lt.mpr h]
    · simp [h1, h2, h3, h4]

theorem State.frameGood_slow (s : State) (c : Nat) (theta : Word) (t : Nat) :
    (s.frameGood c theta t).reg (Reg.POS_CHc_SLOW c) = s.reg (Reg.POS_CHc_SLOW c) :=
  (State.measuredAbs_frame.reg (regNo_POS_CHc_SLOW c)).trans rfl

/-- A SENT frame that fails a check counts, is discarded and breaks a slow message; a good one whose status nibble completes
a slow message holds it. -/
theorem sentFrame_does :
    (∀ (c : Fin 2) (cal sta : Nat) (nib : List Nat) (crc : Nat) (p : Bool) (st n : Nat) (s : State),
      s.chRuns c 5 = false → Does (.sentFrame c cal sta nib crc p st n) s fun t => t = s) ∧
    (∀ (c : Fin 2) (cal sta : Nat) (nib : List Nat) (crc : Nat) (p : Bool) (st n : Nat) (s : State),
      s.chRuns c 5 = true → s.sentOk c cal nib crc p = false → Does (.sentFrame c cal sta nib crc p st n) s fun t =>
        t.fld (Reg.POS_CHc_ERR c) Fld.POS_CHc_ERR.CRCERR = satAdd 8 (s.fld (Reg.POS_CHc_ERR c) Fld.POS_CHc_ERR.CRCERR) 1 ∧
        (t.ch c).slow = [] ∧ t.reg (Reg.POS_CHc_SLOW c) = s.reg (Reg.POS_CHc_SLOW c) ∧ t.chState c = s.chState c) ∧
    (∀ (c : Fin 2) (cal sta : Nat) (nib : List Nat) (crc : Nat) (p : Bool) (id data st n : Nat) (s : State), s.chRuns c 5 = true →
      s.sentOk c cal nib crc p = true → slowOf ((s.ch c).slow ++ [sta]) = some (id, data) → id < 256 → data < 65536 →
      Does (.sentFrame c cal sta nib crc p st n) s fun t =>
        t.fld (Reg.POS_CHc_SLOW c) Fld.POS_CHc_SLOW.ID = id ∧ t.fld (Reg.POS_CHc_SLOW c) Fld.POS_CHc_SLOW.DATA = data ∧
        t.fld (Reg.POS_CHc_SLOW c) Fld.POS_CHc_SLOW.NEW = 1) := by
  refine ⟨?_, ?_, ?_⟩
  · intro c cal sta nib crc p st n s h
    refine ⟨_, exec_sentFrame.trans rfl, ?_⟩
    dsimp only
    rw [h, if_neg (by decide)]
  · intro c cal sta nib crc p st n s h hok
    refine ⟨_, exec_sentFrame.trans rfl, ?_⟩
    dsimp only
    rw [h, if_pos rfl]
    unfold State.sentFrame
    extract_lets a w ok v src u
    have hok' : ok = false := hok
    rw [hok', if_neg (by decide)]
    unfold State.frameBad
    refine ⟨?_, ?_, ?_, ?_⟩
    · exact (State.fld_count _ (Reg.POS_CHc_ERR c) Fld.POS_CHc_ERR.CRCERR 1).trans rfl
    · exact congrArg PosCh.slow ((State.ch_setCh u c c { u.ch c with slow := [] }).trans (if_pos rfl))
    · exact State.reg_setFld_other _ _ _ (reg_ne (regNo_POS_CHc_SLOW c) (regNo_POS_CHc_ERR c))
    · exact State.fld_setFld_other _ _ _ _ (reg_ne (regNo_POS_CHc_STAT c) (regNo_POS_CHc_ERR c))
  · intro c cal sta nib crc p id data st n s h hok hslow hid hda
    refine ⟨_, exec_sentFrame.trans rfl, ?_⟩
    dsimp only
    rw [h, if_pos rfl]
    unfold State.sentFrame
    extract_lets a w ok v src u
    have hok' : ok = true := hok
    rw [hok', if_pos rfl]
    have hu : (u.ch c).slow = (s.ch c).slow := by
      unfold u
      rw [State.ch_setCh, if_pos rfl]
      rfl
    have hreg : ((u.slowFrame c sta).frameGood c (BitVec.ofNat 32 (v * 2 ^ (32 - 4 * w))) (st - u.lat c)).reg (Reg.POS_CHc_SLOW c) =
        detailOf [(0, id), (8, data), (24, 1)] := by
      rw [State.frameGood_slow]
      unfold State.slowFrame
      dsimp only
      rw [hu, hslow]
      exact State.reg_setReg_same _ _ _
    unfold State.fld
    rw [hreg]
    refine ⟨?_, ?_, ?_⟩
    · rw [Bits.of_detail Fld.POS_CHc_SLOW.ID _ id (by decide)]
      · exact Nat.mod_eq_of_lt hid
      · intro k hk
        have hk : k < 8 := hk
        simp [show ¬ 8 ≤ k by omega, show ¬ 24 ≤ k by omega]
    · rw [Bits.of_detail Fld.POS_CHc_SLOW.DATA _ data (by decide)]
      · exact Nat.mod_eq_of_lt hda
      · intro k hk
        have hk : k < 16 := hk
        simp [show ¬ 24 ≤ 8 + k by omega, testBit_off (n := 8) hid (show 8 ≤ 8 + k by omega), Nat.add_sub_cancel_left]
    · rw [Bits.of_detail Fld.POS_CHc_SLOW.NEW _ 1 (by decide)]
      · rfl
      · intro k hk
        have hk : k < 1 := hk
        have : k = 0 := by omega
        subst this
        simp [testBit_off (n := 8) hid (show 8 ≤ 24 by omega), testBit_off (n := 16) hda (show 16 ≤ 16 by omega)]

/-- The clock of an SSI frame starts OFS after the tick; with TRIG = 1 at the end of the monoflop time of the frame before,
a first one at the given instant. -/
theorem ssiFrameStart_does :
    (∀ (c : Fin 2) (n : Nat) (s : State), s.chRuns c 6 = true → Does (.ssiFrameStart c n) s fun t =>
      (t.ch c).ssiStart = some (if s.on (Reg.POS_CHc_SSI c) Fld.POS_CHc_SSI.TRIG then (s.ch c).ssiNext.getD n
        else s.t0 + s.fld (Reg.POS_CHc_SSI2 c) Fld.POS_CHc_SSI2.OFS * esPerFc) ∧
      (t.ch c).ssiNext = (t.ch c).ssiStart.map (· + s.ssiLength c + s.ssiRest c) ∧ t.regs = s.regs) ∧
    (∀ (c : Fin 2) (n : Nat) (s : State), s.chRuns c 6 = false → Does (.ssiFrameStart c n) s fun t => t = s) := by
  refine ⟨?_, ?_⟩
  · intro c n s h
    refine ⟨_, exec_ssiFrameStart.trans rfl, ?_⟩
    dsimp only
    rw [h, if_pos rfl, State.ch_setCh, if_pos rfl]
    exact ⟨rfl, rfl, rfl⟩
  · intro c n s h
    refine ⟨_, exec_ssiFrameStart.trans rfl, ?_⟩
    dsimp only
    rw [h, if_neg (by decide)]

/-- An SSI frame whose error bit is set counts and measures nothing; without a frame under way nothing comes of its bits. -/
theorem ssiFrame_does :
    (∀ (c : Fin 2) (b n : Nat) (s : State), (s.ch c).ssiStart = none → Does (.ssiFrame c b n) s fun t => t = s) ∧
    (∀ (c : Fin 2) (b n st : Nat) (s : State), (s.ch c).ssiStart = some st → s.chRuns c 6 = true →
      s.on (Reg.POS_CHc_SSI c) Fld.POS_CHc_SSI.ERREN = true → b % 2 = 1 → Does (.ssiFrame c b n) s fun t =>
        t.fld (Reg.POS_CHc_ERR c) Fld.POS_CHc_ERR.CRCERR = satAdd 8 (s.fld (Reg.POS_CHc_ERR c) Fld.POS_CHc_ERR.CRCERR) 1 ∧
        (t.ch c).ssiStart = none ∧ t.chState c = s.chState c) := by
  refine ⟨?_, ?_⟩
  · intro c b n s h
    refine ⟨_, exec_ssiFrame.trans rfl, ?_⟩
    rw [h]
  · intro c b n st s h hr he hb
    refine ⟨_, exec_ssiFrame.trans rfl, ?_⟩
    rw [h]
    dsimp only
    rw [hr, if_pos rfl]
    generalize hu : (s.at (max n (st + s.ssiLength c))).setCh c _ = u
    have hue : u.on (Reg.POS_CHc_SSI c) Fld.POS_CHc_SSI.ERREN = true := by rw [← hu]; exact he
    rw [if_pos (by rw [hue, hb]; rfl)]
    unfold State.frameBad
    refine ⟨?_, ?_, ?_⟩
    · rw [u.fld_count (Reg.POS_CHc_ERR c) Fld.POS_CHc_ERR.CRCERR 1, ← hu]
      rfl
    · have e : (u.ch c).ssiStart = none := by
        rw [← hu, State.ch_setCh, if_pos rfl]
      exact e
    · refine (State.fld_setFld_other _ _ _ _ (reg_ne (regNo_POS_CHc_STAT c) (regNo_POS_CHc_ERR c))).trans ?_
      rw [← hu]
      rfl

/-- FTMO without a valid frame is a signal loss; the end of CTIME in COAST is QUARANTINE; a fault of the excitation is a
signal loss. -/
theorem frameTimeout_does :
    (∀ (c : Fin 2) (n : Nat) (s : State), s.chRuns c 5 = true ∨ s.chRuns c 6 = true → (s.ch c).frameAt + s.frameTimeout c ≤ n →
      Does (.frameTimeout c n) s fun t => Lost c causeLoss s t) ∧
    (∀ (c : Fin 2) (n : Nat) (s : State), n < (s.ch c).frameAt + s.frameTimeout c → Does (.frameTimeout c n) s fun t => t = s) := by
  refine ⟨?_, ?_⟩
  · intro c n s h hn
    refine ⟨_, exec_frameTimeout.trans rfl, ?_⟩
    dsimp only
    rw [if_pos (by rw [decide_eq_true hn]; rcases h with h | h <;> simp [h])]
    exact (State.signalLoss_lost (s.at n) c causeLoss (by decide)).before rfl
  · intro c n s h
    refine ⟨_, exec_frameTimeout.trans rfl, ?_⟩
    dsimp only
    rw [decide_eq_false (by omega), if_neg (by simp)]

theorem coastExpired_does :
    (∀ (c : Fin 2) (n : Nat) (s : State), s.inRun = true → s.chState c = chCoast →
      (s.ch c).coastAt + s.fld (Reg.POS_CHc_OBS c) Fld.POS_CHc_OBS.CTIME * 640000 ≤ n → Does (.coastExpired c n) s fun t =>
        t.chShows c chQuarantine causeExpired) ∧
    (∀ (c : Fin 2) (n : Nat) (s : State), s.chState c ≠ chCoast → Does (.coastExpired c n) s fun t => t = s) := by
  refine ⟨?_, ?_⟩
  · intro c n s h1 h2 h3
    refine ⟨_, exec_coastExpired.trans rfl, ?_⟩
    dsimp only
    rw [if_pos (by rw [h1, h2, decide_eq_true h3]; rfl)]
    exact State.quarantineCh_shows _ c causeExpired 0 (by decide)
  · intro c n s h
    refine ⟨_, exec_coastExpired.trans rfl, ?_⟩
    dsimp only
    rw [if_neg (by simp [h])]

theorem excFault_does :
    (∀ (c : Fin 2) (o : Bool) (s : State), s.chRuns c 1 = true → Does (.excFault c o) s fun t => Lost c causeLoss s t) ∧
    (∀ (c : Fin 2) (o : Bool) (s : State), s.chRuns c 1 = false → Does (.excFault c o) s fun t => t = s) := by
  refine ⟨?_, ?_⟩
  · intro c o s h
    refine ⟨_, exec_excFault.trans rfl, ?_⟩
    dsimp only
    rw [h, if_pos rfl]
    refine (State.signalLoss_lost _ c causeLoss (by decide)).before ?_
    exact (State.event_frame.fld (regNo_POS_CHc_STAT c)).trans (State.f2Begins_frame.fld (regNo_POS_CHc_STAT c))
  · intro c o s h
    refine ⟨_, exec_excFault.trans rfl, ?_⟩
    dsimp only
    rw [h, if_neg (by decide)]

/-- A fault of a sensor supply that is monitored switches the supply off. -/
theorem sensvFault_does :
    (∀ (k : Fin 2) (low : Bool) (n : Nat) (s : State), s.on (Reg.POS_SENSVn_CFG k) Fld.POS_SENSVn_CFG.EN = true →
      s.on (Reg.POS_SENSVn_CFG k) Fld.POS_SENSVn_CFG.FAULT = false → s.supplyAt k + esPerMs ≤ n → Does (.sensvFault k low n) s fun t =>
        t.on (Reg.POS_SENSVn_CFG k) Fld.POS_SENSVn_CFG.FAULT = true ∧ t.on (Reg.POS_SENSVn_CFG k) Fld.POS_SENSVn_CFG.EN = true ∧
        t.now = max s.now n) ∧
    (∀ (k : Fin 2) (low : Bool) (n : Nat) (s : State), n < s.supplyAt k + esPerMs → Does (.sensvFault k low n) s fun t => t = s) := by
  refine ⟨?_, ?_⟩
  · intro k low n s h1 h2 h3
    refine ⟨_, exec_sensvFault.trans rfl, ?_⟩
    dsimp only
    rw [if_pos (by rw [h1, h2, decide_eq_true h3]; rfl)]
    unfold State.supplyFault
    extract_lets u v
    have hu : ∀ f : Bits, u.fld (Reg.POS_SENSVn_CFG k) f = ((s.at n).setFld (Reg.POS_SENSVn_CFG k) Fld.POS_SENSVn_CFG.FAULT 1).fld (Reg.POS_SENSVn_CFG k) f :=
      fun f => State.f2Begins_frame.fld (regNo_POS_SENSVn_CFG k)
    have hun : u.now = max s.now n := State.f2Begins_frame.now (by decide)
    have hf : Frame (Foot.event ||| Foot.signalLoss) u ([0, 1].foldl (fun s c =>
        if s.fld (Reg.POS_CHc_CFG c) Fld.POS_CHc_CFG.SUPPLY = k.val + 1 then s.signalLoss c causeSupply else s) v) := by
      refine Frame.foldl (Frame.step State.event_frame (Frame.refl _ u)) fun x c hx => ?_
      split
      · exact Frame.step State.signalLoss_frame hx
      · exact hx
    refine ⟨?_, ?_, ?_⟩
    · refine (hf.on (regNo_POS_SENSVn_CFG k)).trans ?_
      unfold State.on
      rw [hu, State.fld_setFld _ (Reg.POS_SENSVn_CFG k) Fld.POS_SENSVn_CFG.FAULT]
      rfl
    · refine (hf.on (regNo_POS_SENSVn_CFG k)).trans ?_
      unfold State.on
      rw [hu, State.fld_setFld_field _ _ (f := Fld.POS_SENSVn_CFG.FAULT) (g := Fld.POS_SENSVn_CFG.EN) _ (by decide)]
      exact h1
    · exact (hf.now (by decide)).trans hun
  · intro k low n s h
    refine ⟨_, exec_sensvFault.trans rfl, ?_⟩
    dsimp only
    rw [decide_eq_false (by omega), if_neg (by simp)]

end Sys2Proof.Machine
end

