-- ==== Sys2Proof/Laws/EffectIsk.lean ====
section
/-! SUPPORT. What the events of the weigh-house, the discharge and the Isnak links do. -/

set_option Elab.async false

namespace Sys2Proof.Machine

/-! ### Weigh-house and discharge -/

theorem State.wm_setWm (s : State) (m : Nat) (x : WghM) : (s.setWm m x).wm m = x :=
  (tabGet_tabSet _ _ _ _ _).trans (if_pos rfl)

/-- A self test whose result differs from the kept one leaves the monitor BLIND with cause 3; one that agrees changes nothing. -/
theorem wghSelftest_does :
    (∀ (m : Fin 2) (u : Word) (s : State), s.wghEn m = true → s.testPoint m ^^^ u ≠ (s.wm m).test → Does (.wghSelftest m u) s fun t =>
      (t.wm m).stuck = some 3 ∧ t.now = max s.now (s.t0 + nsToEs 150)) ∧
    (∀ (m : Fin 2) (u : Word) (s : State), s.wghEn m = false ∨ s.testPoint m ^^^ u = (s.wm m).test → Does (.wghSelftest m u) s fun t =>
      t = s.atTick 150) := by
  refine ⟨?_, ?_⟩
  · intro m u s h1 h2
    refine ⟨_, exec_wghSelftest.trans rfl, ?_⟩
    dsimp only
    have e : ((s.atTick 150).wghEn m && ((s.atTick 150).testPoint m ^^^ u) != ((s.atTick 150).wm m).test) = true := by
      refine Eq.trans (b := (s.wghEn m && (s.testPoint m ^^^ u) != (s.wm m).test)) rfl ?_
      rw [h1, bne_iff_ne.mpr h2]
      rfl
    rw [if_pos e]
    unfold State.wghStuck
    refine ⟨by rw [State.wm_setWm], ?_⟩
    refine Eq.trans (b := (((s.atTick 150).f2Begins 0x803 m).event ⟨UnitCode.wgh, 0x803, 2, m, 0⟩).now) rfl ?_
    exact (State.event_frame.now (by decide)).trans (State.f2Begins_frame.now (by decide))
  · intro m u s h
    refine ⟨_, exec_wghSelftest.trans rfl, ?_⟩
    dsimp only
    have e : ((s.atTick 150).wghEn m && ((s.atTick 150).testPoint m ^^^ u) != ((s.atTick 150).wm m).test) = false := by
      refine Eq.trans (b := (s.wghEn m && (s.testPoint m ^^^ u) != (s.wm m).test)) rfl ?_
      rcases h with h | h
      · rw [h]; rfl
      · rw [h]; simp
    rw [if_neg (by rw [e]; decide)]

theorem State.disFail_state (s : State) (r : Nat) (h : r < 2 ^ Fld.PROT_DIS_STAT.REASON.width) : (s.disFail r).fld Reg.PROT_DIS_STAT Fld.PROT_DIS_STAT.STATE = 3 ∧
    (s.disFail r).fld Reg.PROT_DIS_STAT Fld.PROT_DIS_STAT.REASON = r := by
  unfold State.disFail
  extract_lets v u
  have hu : u.fld Reg.PROT_DIS_STAT Fld.PROT_DIS_STAT.STATE = 3 ∧ u.fld Reg.PROT_DIS_STAT Fld.PROT_DIS_STAT.REASON = r := by
    refine ⟨?_, ?_⟩
    · refine (State.fld_setFld_other _ _ _ _ (by decide)).trans ?_
      refine (State.fld_setFld_field _ _ (f := Fld.PROT_DIS_STAT.REASON) (g := Fld.PROT_DIS_STAT.STATE) _ (by decide)).trans ?_
      exact State.fld_setFld _ Reg.PROT_DIS_STAT Fld.PROT_DIS_STAT.STATE 3
    · refine (State.fld_setFld_other _ _ _ _ (by decide)).trans ?_
      exact (State.fld_setFld _ Reg.PROT_DIS_STAT Fld.PROT_DIS_STAT.REASON r).trans (Nat.mod_eq_of_lt h)
  exact ⟨(State.event_frame.fld regNo_PROT_DIS_STAT).trans hu.1, (State.event_frame.fld regNo_PROT_DIS_STAT).trans hu.2⟩

/-- The end of a 100 ms interval of a running discharge: one that has not fallen by 2 V fails with REASON 5, else the next
interval starts at the voltage found. -/
theorem dischargeProgressCheck_does :
    (∀ s : State, s.disRunning = false → Does .dischargeProgressCheck s fun t => t = s) ∧
    (∀ s : State, s.disRunning = true → (s.at (s.dis.markAt + 100 * esPerMs)).disStalled = true → Does .dischargeProgressCheck s fun t =>
      t.fld Reg.PROT_DIS_STAT Fld.PROT_DIS_STAT.STATE = 3 ∧ t.fld Reg.PROT_DIS_STAT Fld.PROT_DIS_STAT.REASON = 5) ∧
    (∀ s : State, s.disRunning = true → (s.at (s.dis.markAt + 100 * esPerMs)).disStalled = false → Does .dischargeProgressCheck s fun t =>
      t.dis.markAt = s.dis.markAt + 100 * esPerMs ∧ t.dis.mark = (s.at (s.dis.markAt + 100 * esPerMs)).disVolt.map Num.pack ∧
      t.regs = s.regs) := by
  refine ⟨?_, ?_, ?_⟩
  · intro s h
    refine Does.via exec_dischargeProgressCheck ?_
    unfold execDischargeProgressCheck
    rw [h, if_pos (by decide)]
    exact ⟨_, rfl, rfl⟩
  · intro s h h2
    refine Does.via exec_dischargeProgressCheck ?_
    unfold execDischargeProgressCheck
    rw [h, if_neg (by decide)]
    dsimp only
    refine ⟨_, rfl, ?_⟩
    rw [h2, if_pos rfl]
    unfold State.disNoProgress
    extract_lets u v
    exact State.disFail_state v 5 (by decide)
  · intro s h h2
    refine Does.via exec_dischargeProgressCheck ?_
    unfold execDischargeProgressCheck
    rw [h, if_neg (by decide)]
    dsimp only
    refine ⟨_, rfl, ?_⟩
    rw [h2, if_neg (by decide)]
    exact ⟨rfl, rfl, rfl⟩

/-- The deadline of a running discharge: it fails with REASON 6 where the voltage is above the target or not valid. -/
theorem dischargeDeadline_does :
    (∀ s : State, s.disRunning = false → Does .dischargeDeadline s fun t => t = s) ∧
    (∀ s : State, s.disRunning = true → (∀ v, (s.at s.dis.deadlineAt).disVolt = some v → Num.val s.dis.target < v) →
      Does .dischargeDeadline s fun t =>
        t.fld Reg.PROT_DIS_STAT Fld.PROT_DIS_STAT.STATE = 3 ∧ t.fld Reg.PROT_DIS_STAT Fld.PROT_DIS_STAT.REASON = 6) ∧
    (∀ (v : Rat) (s : State), s.disRunning = true → (s.at s.dis.deadlineAt).disVolt = some v → v ≤ Num.val s.dis.target →
      Does .dischargeDeadline s fun t => t = s.at s.dis.deadlineAt) := by
  refine ⟨?_, ?_, ?_⟩
  · intro s h
    refine Does.via exec_dischargeDeadline ?_
    unfold execDischargeDeadline
    rw [h, if_pos (by decide)]
    exact ⟨_, rfl, rfl⟩
  · intro s h h2
    refine Does.via exec_dischargeDeadline ?_
    unfold execDischargeDeadline
    rw [h, if_neg (by decide)]
    dsimp only
    refine ⟨_, rfl, ?_⟩
    split
    · rename_i v hv
      rw [if_neg]
      · exact State.disFail_state _ 6 (by decide)
      · exact Rat.not_le.mpr (h2 v hv)
    · exact State.disFail_state _ 6 (by decide)
  · intro v s h h2 h3
    refine Does.via exec_dischargeDeadline ?_
    unfold execDischargeDeadline
    rw [h, if_neg (by decide)]
    dsimp only
    refine ⟨_, rfl, ?_⟩
    rw [h2]
    exact if_pos h3

/-! ### Isnak links -/

theorem State.lk_setLk (s : State) (l : Nat) (x : IskLink) : (s.setLk l x).lk l = x :=
  (tabGet_tabSet _ _ _ _ _).trans (if_pos rfl)

/-- A running Isnak-2 link sends its edge-plan frame 20 ns after the tick boundary, with the SEQ of the tick. -/
theorem iskEdgePlanSend_does :
    (∀ (l : Fin 2) (s : State), s.isk2Running l = false → Does (.iskEdgePlanSend l) s fun t => t = s) ∧
    (∀ (l : Fin 2) (s : State), s.isk2Running l = true → Does (.iskEdgePlanSend l) s fun t =>
      t.now = max s.now (s.t0 + nsToEs 20) ∧ (∃ body, (t.lk l).frame = [kOpen, 0x01, s.iskSeq l] ++ body ++ [kClose]) ∧
      (t.lk l).out = (s.lk l).out) := by
  refine ⟨?_, ?_⟩
  · intro l s h
    refine ⟨_, exec_iskEdgePlanSend.trans rfl, ?_⟩
    dsimp only
    rw [h, if_neg (by decide)]
  · intro l s h
    refine ⟨_, exec_iskEdgePlanSend.trans rfl, ?_⟩
    dsimp only
    rw [h, if_pos rfl]
    unfold State.sendPlan State.send
    extract_lets x
    have hx : x.iskSeq l = s.iskSeq l := State.fld_setFld_other _ _ _ _ (reg_ne (regNo_ISK_LINKl_STAT l) (regNo_ISK_LINKl_CNT l))
    have hl : x.lk l = s.lk l := rfl
    have hn : x.now = max s.now (s.t0 + nsToEs 20) := rfl
    clear_value x
    refine ⟨hn, ?_, ?_⟩
    · rw [State.lk_setLk]
      unfold State.planFrame
      rw [hx]
      have aux : ∀ (b c : Nat) (p : List Nat) (i k : Nat), ∃ body,
          [kOpen] ++ ([0x01, s.iskSeq l, b, c] ++ p ++ [i]) ++ [k, kClose] = [kOpen, 0x01, s.iskSeq l] ++ body ++ [kClose] :=
        fun b c p i k => ⟨[b, c] ++ p ++ [i, k], by simp⟩
      exact aux _ _ _ _ _
    · rw [State.lk_setLk]
      exact (congrArg IskLink.out hl :)

/-- A running Isnak-2 link sends its collection frame 870 ns after the tick boundary, and waits for it. -/
theorem iskCollectionSend_does :
    (∀ (l : Fin 2) (s : State), s.isk2Running l = false → Does (.iskCollectionSend l) s fun t => t = s) ∧
    (∀ (l : Fin 2) (s : State), s.isk2Running l = true → Does (.iskCollectionSend l) s fun t =>
      t.now = max s.now (s.t0 + nsToEs 870) ∧ (t.lk l).frame = s.collectionFrame l ∧ (t.lk l).out = true ∧ t.regs = s.regs) := by
  refine ⟨?_, ?_⟩
  · intro l s h
    refine ⟨_, exec_iskCollectionSend.trans rfl, ?_⟩
    dsimp only
    rw [h, if_neg (by decide)]
  · intro l s h
    refine ⟨_, exec_iskCollectionSend.trans rfl, ?_⟩
    dsimp only
    rw [h, if_pos rfl]
    refine ⟨rfl, ?_, ?_, rfl⟩
    · rw [State.lk_setLk]
      unfold State.send
      rw [State.lk_setLk]
    · rw [State.lk_setLk]

/-- What the judgement of a node leaves of its link. -/
structure LinkKept (l : Nat) (s t : State) : Prop where
  out : (t.lk l).out = (s.lk l).out
  missing : (t.lk l).missing = (s.lk l).missing
  frame : (t.lk l).frame = (s.lk l).frame
  poll : (t.lk l).poll = (s.lk l).poll
  polls : (t.lk l).polls = (s.lk l).polls
  answers : (t.lk l).answers = (s.lk l).answers

theorem State.setNd_kept (s : State) (l n : Nat) (x : IskNode) : LinkKept l s (s.setNd l n x) := by
  unfold State.setNd
  constructor <;> rw [State.lk_setLk]

theorem LinkKept.of_isk {l : Nat} {s t : State} (h : t.isk = s.isk) : LinkKept l s t := by
  have : t.lk l = s.lk l := congrArg (fun x => (tabGet {} x l : IskLink)) h
  exact ⟨congrArg IskLink.out this, congrArg IskLink.missing this, congrArg IskLink.frame this, congrArg IskLink.poll this,
    congrArg IskLink.polls this, congrArg IskLink.answers this⟩

theorem LinkKept.trans {l : Nat} {s t u : State} (h : LinkKept l s t) (g : LinkKept l t u) : LinkKept l s u :=
  ⟨g.out.trans h.out, g.missing.trans h.missing, g.frame.trans h.frame, g.poll.trans h.poll, g.polls.trans h.polls,
    g.answers.trans h.answers⟩

theorem State.slotValid_kept (s : State) (l n a b c : Nat) : LinkKept l s (s.slotValid l n a b c) := by
  unfold State.slotValid
  extract_lets x bad u v
  have hu : LinkKept l s u := s.setNd_kept l n _
  have hv : LinkKept l s v := by
    unfold v
    split
    · exact hu.trans (LinkKept.of_isk (State.nodeFault_frame.isk (by decide)))
    · exact hu
  split
  · exact hv
  · exact hv.trans (LinkKept.of_isk (State.endCause_frame.isk (by decide)))

theorem State.slotFails_kept (s : State) (l n : Nat) : LinkKept l s (s.slotFails l n) := by
  unfold State.slotFails
  extract_lets x u f v
  have hv : LinkKept l s v := by
    have hu : LinkKept l s u := LinkKept.of_isk rfl
    unfold v
    split
    · exact hu.trans ((u.setNd_kept l n _).trans (LinkKept.of_isk (State.event_frame.isk (by decide))))
    · exact hu.trans (u.setNd_kept l n _)
  split
  · exact hv.trans ((v.setNd_kept l n _).trans (LinkKept.of_isk (State.nodeFault_frame.isk (by decide))))
  · exact hv

theorem State.planNack_kept (s : State) (l n c : Nat) : LinkKept l s (s.planNack l n c) := by
  unfold State.planNack
  extract_lets u x
  have hu : LinkKept l s u := LinkKept.of_isk rfl
  split
  · exact hu.trans ((u.setNd_kept l n _).trans (LinkKept.of_isk (State.event_frame.isk (by decide))))
  · exact hu

theorem State.judgeSlot_kept (s : State) (l n : Nat) (b : List Nat) : LinkKept l s (s.judgeSlot l n b) := by
  unfold State.judgeSlot
  split
  · split
    · dsimp only
      split
      · exact (s.slotValid_kept l n _ _ _).trans (State.planNack_kept _ l n _)
      · exact s.slotValid_kept l n _ _ _
    · exact s.slotFails_kept l n
  · exact s.slotFails_kept l n

theorem State.judgeSlots_kept (s : State) (l : Nat) (b : List (List Nat)) : LinkKept l s (s.judgeSlots l b) := by
  unfold State.judgeSlots
  have h : ∀ (ns : List Nat) (u : State), LinkKept l s u → LinkKept l s (ns.foldl (fun s n => s.judgeSlot l n (b.getD n [])) u) := by
    intro ns
    induction ns with
    | nil => exact fun u h => h
    | cons n ns ih => exact fun u h => ih _ (h.trans (u.judgeSlot_kept l n _))
  exact h _ _ ⟨rfl, rfl, rfl, rfl, rfl, rfl⟩

/-- A collection frame that has returned complete ends the wait for it, and the missing ones are counted anew. -/
theorem iskCollectionJudge_does :
    (∀ (l : Fin 2) (b : List (List Nat)) (n : Nat) (s : State), s.isk2Running l = false ∨ (s.lk l).out = false →
      Does (.iskCollectionJudge l b n) s fun t => t = s) ∧
    (∀ (l : Fin 2) (b : List (List Nat)) (n : Nat) (s : State), s.isk2Running l = true → (s.lk l).out = true →
      Does (.iskCollectionJudge l b n) s fun t => (t.lk l).out = false ∧ (t.lk l).missing = 0 ∧ t.now = max s.now n) := by
  refine ⟨?_, ?_⟩
  · intro l b n s h
    refine Does.via exec_iskCollectionJudge ?_
    unfold execIskCollectionJudge
    rw [if_pos (by rcases h with h | h <;> simp [h])]
    exact ⟨_, rfl, rfl⟩
  · intro l b n s h1 h2
    refine Does.via exec_iskCollectionJudge ?_
    unfold execIskCollectionJudge
    rw [h1, h2, if_neg (by decide)]
    extract_lets u v0 v
    refine ⟨_, rfl, ?_⟩
    have hv : (v.lk l).out = false ∧ (v.lk l).missing = 0 := by
      unfold v
      rw [State.lk_setLk]
      exact ⟨rfl, rfl⟩
    have hn : v.now = max s.now n := rfl
    clear_value v
    have k1 : LinkKept l v (v.endCause (16 + 15) (tagMissing l)) := LinkKept.of_isk (State.endCause_frame.isk (by decide))
    have k2 := k1.trans (State.judgeSlots_kept (v.endCause (16 + 15) (tagMissing l)) l b)
    exact ⟨k2.out.trans hv.1, k2.missing.trans hv.2, (State.judgeSlots_frame.now (by decide)).trans ((State.endCause_frame.now (by decide)).trans hn)⟩

theorem State.enumerated_all (s : State) (l : Fin 2) (h : s.iskNodes l < 2 ^ Fld.ISK_LINKl_STAT.NFOUND.width) :
    ((s.enumerated l (some (s.iskNodes l))).lk l).upDue = true ∧ ((s.enumerated l (some (s.iskNodes l))).lk l).enumFails = 0 ∧
    (s.enumerated l (some (s.iskNodes l))).fld (Reg.ISK_LINKl_STAT l) Fld.ISK_LINKl_STAT.NFOUND = s.iskNodes l := by
  unfold State.enumerated
  extract_lets u src n v
  have hn : u.iskNodes l = s.iskNodes l :=
    State.fld_setFld_other _ _ _ _ (reg_ne (regNo_ISK_LINKl_CFG l) (regNo_ISK_LINKl_STAT l))
  have hf : u.fld (Reg.ISK_LINKl_STAT l) Fld.ISK_LINKl_STAT.NFOUND = s.iskNodes l :=
    (State.fld_setFld _ (Reg.ISK_LINKl_STAT l) Fld.ISK_LINKl_STAT.NFOUND _).trans (Nat.mod_eq_of_lt h)
  rw [if_pos (by rw [hn]), State.lk_setLk]
  exact ⟨rfl, rfl, hf⟩

/-- An enumeration that finds every node of the link makes RUN due; one that returns shows how many it found. -/
theorem iskEnumeration_does :
    (∀ (l : Fin 2) (b : Option Nat) (n : Nat) (s : State), s.iskEn l = false ∨ s.isk1 l = true ∨ (s.lk l).upDue = true →
      Does (.iskEnumeration l b n) s fun t => t = s) ∧
    (∀ (l : Fin 2) (n : Nat) (s : State), s.iskEn l = true → s.isk1 l = false → s.linkState l = linkEnum ∨ s.linkState l = linkLost →
      (s.lk l).upDue = false → s.iskNodes l < 32 → Does (.iskEnumeration l (some (s.iskNodes l)) n) s fun t => (t.lk l).upDue = true ∧
        (t.lk l).enumFails = 0 ∧ t.fld (Reg.ISK_LINKl_STAT l) Fld.ISK_LINKl_STAT.NFOUND = s.iskNodes l) := by
  refine ⟨?_, ?_⟩
  · intro l b n s h
    refine ⟨_, exec_iskEnumeration.trans rfl, ?_⟩
    dsimp only
    rw [if_neg]
    rcases h with h | h | h <;> simp [h]
  · intro l n s h1 h2 h3 h4 h5
    refine ⟨_, exec_iskEnumeration.trans rfl, ?_⟩
    dsimp only
    have e : (s.iskEn l && !s.isk1 l && (s.linkState l == linkEnum || s.linkState l == linkLost) && !(s.lk l).upDue) = true := by
      rw [h1, h2, h4]
      rcases h3 with h | h <;> rw [h] <;> rfl
    rw [if_pos e]
    have hk : ((s.at n).send l enumFrame).iskNodes l = s.iskNodes l := State.fld_of_regs rfl _ _
    have := State.enumerated_all ((s.at n).send l enumFrame) l (by rw [hk]; exact h5)
    rw [hk] at this
    exact this

/-- The heartbeats of a stopped tick: a link whose RUN is due reaches it. -/
theorem iskIdleHeartbeat_does :
    (∀ (l : Fin 2) (n : Nat) (s : State), s.ticking = true ∨ s.iskEn l = false → Does (.iskIdleHeartbeat l n) s fun t => t = s) ∧
    (∀ (l : Fin 2) (n : Nat) (s : State), s.ticking = false → s.iskEn l = true → s.isk1 l = false →
      (s.lk l).upDue = true →
      Does (.iskIdleHeartbeat l n) s fun t => t.linkState l = linkRun ∧ (t.lk l).upDue = false ∧ t.now = max s.now n) := by
  refine ⟨?_, ?_⟩
  · intro l n s h
    refine Does.via exec_iskIdleHeartbeat ?_
    unfold execIskIdleHeartbeat
    rw [if_pos (by rcases h with h | h <;> simp [h])]
    exact ⟨_, rfl, rfl⟩
  · intro l n s h1 h2 hi h3
    refine Does.via exec_iskIdleHeartbeat ?_
    unfold execIskIdleHeartbeat
    rw [h1, h2, if_neg (by decide)]
    extract_lets u v
    refine ⟨_, rfl, ?_⟩
    have hv : v.linkState l = linkRun ∧ (v.lk l).upDue = false ∧ v.now = max s.now n := by
      unfold v
      rw [if_pos (by rw [show u.isk1 l = false from hi, show (u.lk l).upDue = true from h3]; rfl)]
      unfold State.linkUp
      extract_lets src x
      have hx : x.linkState l = linkRun ∧ (x.lk l).upDue = false ∧ x.now = max s.now n := by
        unfold x
        refine ⟨?_, by rw [State.lk_setLk], rfl⟩
        exact (u.fld_setFld (Reg.ISK_LINKl_STAT l) Fld.ISK_LINKl_STAT.STATE linkRun).trans rfl
      clear_value x
      refine ⟨?_, ?_, ?_⟩
      · exact (State.event_frame.fld (regNo_ISK_LINKl_STAT l)).trans ((State.endCause_frame.fld (regNo_ISK_LINKl_STAT l)).trans hx.1)
      · refine Eq.trans (congrArg (fun i => (tabGet {} i l : IskLink).upDue) ?_) hx.2.1
        exact (State.event_frame.isk (by decide)).trans (State.endCause_frame.isk (by decide))
      · exact (State.event_frame.now (by decide)).trans ((State.endCause_frame.now (by decide)).trans hx.2.2)
    clear_value v
    split
    · unfold State.sendPlan State.send
      extract_lets x
      have hx : x.linkState l = v.linkState l := State.fld_setFld_other _ _ _ _ (reg_ne (regNo_ISK_LINKl_STAT l) (regNo_ISK_LINKl_CNT l))
      refine ⟨?_, ?_, hv.2.2⟩
      · exact Eq.trans (Eq.trans rfl hx) hv.1
      · rw [State.lk_setLk]
        exact hv.2.1
    · exact hv

/-- An Isnak-1 link that runs broadcasts 20 ns after the tick boundary, unless the broadcasts before it have lost it. -/
theorem isk1Broadcast_does :
    (∀ (l : Fin 2) (s : State), s.isk1Running l = false → Does (.isk1Broadcast l) s fun t => t = s) ∧
    (∀ (l : Fin 2) (s : State), s.isk1Running l = true → (s.lk l).answers ≠ 0 → 0 < s.iskCfg l Fld.ISK_LINKl_CFG.LOSTN →
      Does (.isk1Broadcast l) s fun t => (t.lk l).frame = [0x55, 0x01, s.iskSeq l, iskCheck [0x55, 0x01, s.iskSeq l] foldAll (s.iskSeq l)] ∧
        (t.lk l).polls = 0 ∧ (t.lk l).answers = 0 ∧ t.regs = s.regs) := by
  refine ⟨?_, ?_⟩
  · intro l s h
    refine Does.via exec_isk1Broadcast ?_
    unfold execIsk1Broadcast
    rw [h, if_pos (by decide)]
    exact ⟨_, rfl, rfl⟩
  · intro l s h h1 h2
    have hrun : s.linkState l = linkRun := by
      unfold State.isk1Running at h
      simp only [Bool.and_eq_true, beq_iff_eq] at h
      exact h.1.2
    refine Does.via exec_isk1Broadcast ?_
    unfold execIsk1Broadcast
    rw [h, if_neg (by decide)]
    extract_lets u seq
    have hu : u.lk l = { (s.lk l) with polls := 0, answers := 0, missing := if (s.lk l).polls = 0 then (s.lk l).missing else 0 } ∧ u.regs = s.regs := by
      unfold u State.judgeBroadcast
      extract_lets x n w
      have hx : x = s.lk l := rfl
      have hn : n = if (s.lk l).polls = 0 then (s.lk l).missing else 0 := by
        unfold n
        rw [hx, if_neg h1]
      have hw : w.lk l = { (s.lk l) with polls := 0, answers := 0, missing := if (s.lk l).polls = 0 then (s.lk l).missing else 0 } := by
        unfold w
        rw [State.lk_setLk, hx, hn]
      have hr : w.regs = s.regs := rfl
      rw [if_neg]
      · exact ⟨hw, hr⟩
      · rintro ⟨a, b⟩
        rw [hx] at a
        have hn' : n = 0 := hn.trans (if_neg a)
        rw [hn'] at b
        have : w.iskCfg l Fld.ISK_LINKl_CFG.LOSTN = s.iskCfg l Fld.ISK_LINKl_CFG.LOSTN := State.fld_of_regs hr _ _
        omega
    clear_value u
    have hs : seq = s.iskSeq l := State.fld_of_regs hu.2 _ _
    refine ⟨_, rfl, ?_⟩
    rw [if_pos (by
      have e : u.linkState l = s.linkState l := State.fld_of_regs hu.2 _ _
      rw [e, hrun]
      rfl)]
    unfold State.send
    rw [State.lk_setLk, hu.1, hs]
    exact ⟨rfl, rfl, rfl, hu.2⟩

/-- A poll of an Isnak-1 link that ends 500 ns before the boundary carries node, SEQ and check byte, goes to the next node and
counts its answer; a later one does not run. -/
theorem isk1Poll_does :
    (∀ (l : Fin 2) (r : Option (List Nat)) (n : Nat) (s : State), s.isk1Running l = false ∨ s.nextBoundary < n + 3200 →
      Does (.isk1Poll l r n) s fun t => t = s) ∧
    (∀ (l : Fin 2) (r : Option (List Nat)) (n : Nat) (s : State), s.isk1Running l = true → n + 3200 ≤ s.nextBoundary →
      Does (.isk1Poll l r n) s fun t => t.now = max s.now n ∧ (t.lk l).out = (s.lk l).out ∧
        (t.lk l).frame = s.pollFrame l ∧ (t.lk l).poll = ((s.lk l).poll % s.iskNodes l + 1) % s.iskNodes l ∧
        (t.lk l).polls = (s.lk l).polls + 1 ∧ (t.lk l).answers = (s.lk l).answers + r.isSome.toNat) := by
  refine ⟨?_, ?_⟩
  · intro l r n s h
    refine Does.via exec_isk1Poll ?_
    unfold execIsk1Poll
    rw [if_pos (by rcases h with h | h; simp [h]; simp [show ¬ n + 3200 ≤ s.nextBoundary by omega])]
    exact ⟨_, rfl, rfl⟩
  · intro l r n s h1 h2
    refine Does.via exec_isk1Poll ?_
    unfold execIsk1Poll
    rw [h1, decide_eq_true h2, if_neg (by decide)]
    extract_lets x k seq u src v
    refine ⟨_, rfl, ?_⟩
    have hu : (u.lk l).out = (s.lk l).out ∧ (u.lk l).frame = s.pollFrame l := by
      unfold u State.send
      rw [State.lk_setLk]
      exact ⟨rfl, rfl⟩
    have hn : u.iskNodes l = s.iskNodes l := rfl
    have hw : u.now = max s.now n := rfl
    clear_value u
    have hv : v.now = max s.now n ∧ (v.lk l).out = (s.lk l).out ∧ (v.lk l).frame = s.pollFrame l ∧
        (v.lk l).poll = ((s.lk l).poll % s.iskNodes l + 1) % s.iskNodes l ∧
        (v.lk l).polls = (s.lk l).polls + 1 ∧ (v.lk l).answers = (s.lk l).answers + r.isSome.toNat := by
      unfold v
      rw [State.lk_setLk]
      exact ⟨hw, hu.1, hu.2, congrArg (((s.lk l).poll % s.iskNodes l + 1) % ·) hn, rfl, rfl⟩
    clear_value v
    have fin : ∀ w : State, w.now = v.now → LinkKept l v w → w.now = max s.now n ∧ (w.lk l).out = (s.lk l).out ∧
        (w.lk l).frame = s.pollFrame l ∧ (w.lk l).poll = ((s.lk l).poll % s.iskNodes l + 1) % s.iskNodes l ∧
        (w.lk l).polls = (s.lk l).polls + 1 ∧ (w.lk l).answers = (s.lk l).answers + r.isSome.toNat := fun w h k =>
      ⟨h.trans hv.1, k.out.trans hv.2.1, k.frame.trans hv.2.2.1, k.poll.trans hv.2.2.2.1, k.polls.trans hv.2.2.2.2.1,
        k.answers.trans hv.2.2.2.2.2⟩
    unfold State.judgeReply
    split
    · split
      · exact fin _ (State.slotValid_frame.now (by decide)) (v.slotValid_kept l _ _ _ _)
      · exact fin _ (State.slotFails_frame.now (by decide)) (v.slotFails_kept l _)
    · exact fin _ (State.slotFails_frame.now (by decide)) (v.slotFails_kept l _)

end Sys2Proof.Machine
end

