-- ==== Sys2Proof/Laws/EffectTick.lean ====
section
/-! SUPPORT. What the instants of a tick do. -/

set_option Elab.async false

namespace Sys2Proof.Machine

/-! ### The boundary -/

theorem State.openTick_does (s : State) : s.openTick.tick = (s.tick + 1) % 2 ^ 48 ∧ s.openTick.t0 = s.nextBoundary ∧
    s.openTick.prevLen = s.nextBoundary - s.t0 := by
  unfold State.openTick
  extract_lets t1 len u v
  have h : Frame Foot.settle (s.at t1) u := State.settle_frame
  refine ⟨?_, rfl, ?_⟩
  · exact congrArg (fun n => (n + 1) % 2 ^ 48) (h.tick (by decide))
  · exact congrArg (fun n => t1 - n) (h.t0 (by decide))

/-- A boundary that is due counts the tick and opens the next; at any other instant nothing comes. -/
theorem tickBoundary_does :
    (∀ (f : List BankFlip) (s : State), s.boundaryDue = false → Does (.tickBoundary f) s fun t => t = s) ∧
    (∀ (f : List BankFlip) (s : State), s.boundaryDue = true → Does (.tickBoundary f) s fun t =>
      t.tick = (s.tick + 1) % 2 ^ 48 ∧ t.t0 = s.nextBoundary ∧ t.prevLen = s.nextBoundary - s.t0) := by
  refine ⟨?_, ?_⟩
  · intro f s h
    refine Does.via exec_tickBoundary ?_
    unfold execTickBoundary
    rw [h, if_neg (by decide)]
    exact ⟨_, rfl, rfl⟩
  · intro f s h
    refine Does.via exec_tickBoundary ?_
    unfold execTickBoundary
    rw [h, if_pos rfl]
    refine ⟨_, rfl, ?_⟩
    unfold State.boundary
    extract_lets bank u s1 s2 s3 v w x y z
    have hu := State.openTick_does (s.flipBanks f)
    have hv : v.tick = u.tick ∧ v.t0 = u.t0 ∧ v.prevLen = u.prevLen := ⟨rfl, rfl, rfl⟩
    have hw : Frame (Foot.resumeBlocks ||| Foot.holdBoundary) v w :=
      Frame.step State.holdBoundary_frame (Frame.step State.resumeBlocks_frame (Frame.refl _ _))
    have hx : Frame (Foot.deliver ||| Foot.thermalBoundary ||| Foot.updateTb0) w x :=
      Frame.step State.updateTb0_frame (Frame.step State.thermalBoundary_frame (Frame.step State.deliver_frame (Frame.refl _ _)))
    have hy : Frame (Foot.closeWindows ||| Foot.takeoverCores ||| Foot.latchPos) x y :=
      Frame.step State.latchPos_frame (Frame.step State.takeoverCores_frame (Frame.step State.closeWindows_frame (Frame.refl _ _)))
    have hz : Frame (Foot.fieldBoundary ||| Foot.blocksBoundary) y z :=
      Frame.step State.blocksBoundary_frame (Frame.step State.fieldBoundary_frame (Frame.refl _ _))
    have he : Frame (Foot.closeBatch ||| Foot.parkBoundary) z z.closeBatch.parkBoundary :=
      Frame.step State.parkBoundary_frame (Frame.step State.closeBatch_frame (Frame.refl _ _))
    refine ⟨?_, ?_, ?_⟩
    · exact (he.tick (by decide)).trans ((hz.tick (by decide)).trans ((hy.tick (by decide)).trans ((hx.tick (by decide)).trans
        ((hw.tick (by decide)).trans (hv.1.trans hu.1)))))
    · exact (he.t0 (by decide)).trans ((hz.t0 (by decide)).trans ((hy.t0 (by decide)).trans ((hx.t0 (by decide)).trans
        ((hw.t0 (by decide)).trans (hv.2.1.trans hu.2.1)))))
    · exact (he.prevLen (by decide)).trans ((hz.prevLen (by decide)).trans ((hy.prevLen (by decide)).trans ((hx.prevLen (by decide)).trans
        ((hw.prevLen (by decide)).trans (hv.2.2.trans hu.2.2)))))

/-! ### 50 ns and 150 ns -/

theorem Reg.ACQ_DSc_WIN_ne {c d : Nat} (hc : c < 12) (hd : d < 12) (h : c ≠ d) : Reg.ACQ_DSc_WIN c ≠ Reg.ACQ_DSc_WIN d := by
  unfold Reg.ACQ_DSc_WIN; omega

theorem Reg.ACQ_DSc_STAT_ne {c d : Nat} (hc : c < 12) (hd : d < 12) (h : c ≠ d) : Reg.ACQ_DSc_STAT c ≠ Reg.ACQ_DSc_STAT d := by
  unfold Reg.ACQ_DSc_STAT; omega

/-- The counts of the closed window of every delta-sigma channel are in its window register. -/
theorem windowFreeze_does : ∀ s : State, Does .windowFreeze s fun t =>
    t.now = max s.now (s.t0 + nsToEs 50) ∧
    ∀ c, c < 12 → t.reg (Reg.ACQ_DSc_WIN c) = detailOf [(0, (s.dsWin c).ones), (16, (s.dsWin c).bits)] := by
  intro s
  refine ⟨_, exec_windowFreeze.trans rfl, ?_⟩
  have h0 : Frame Foot.freezeSar (s.atTick 50) (s.atTick 50).freezeSar := State.freezeSar_frame
  generalize (s.atTick 50).freezeSar = u at h0
  have hn : u.now = max s.now (s.t0 + nsToEs 50) := h0.now (by decide)
  have ha : u.acq = s.acq := h0.acq (by decide)
  refine ⟨(State.freezeDs_frame.now (by decide)).trans hn, ?_⟩
  unfold State.freezeDs
  have key : ∀ (ns : List Nat) (v : State), (∀ n ∈ ns, n < 12) → v.acq = s.acq →
      (ns.foldl (fun s c => s.setReg (Reg.ACQ_DSc_WIN c) (detailOf [(0, (s.dsWin c).ones), (16, (s.dsWin c).bits)])) v).acq = s.acq ∧
      ∀ c, c < 12 → (ns.foldl (fun s c => s.setReg (Reg.ACQ_DSc_WIN c) (detailOf [(0, (s.dsWin c).ones), (16, (s.dsWin c).bits)])) v).reg
        (Reg.ACQ_DSc_WIN c) = if c ∈ ns then detailOf [(0, (s.dsWin c).ones), (16, (s.dsWin c).bits)] else v.reg (Reg.ACQ_DSc_WIN c) := by
    intro ns
    induction ns with
    | nil => intro v _ hv; exact ⟨hv, fun c _ => (if_neg (by simp)).symm⟩
    | cons n ns ih =>
      intro v hb hv
      have hb' : ∀ k ∈ ns, k < 12 := fun k hk => hb k (List.mem_cons_of_mem _ hk)
      have hn := hb n (List.mem_cons_self ..)
      obtain ⟨i1, i2⟩ := ih (v.setReg (Reg.ACQ_DSc_WIN n) (detailOf [(0, (v.dsWin n).ones), (16, (v.dsWin n).bits)])) hb' hv
      refine ⟨i1, fun c hc => ?_⟩
      rw [List.foldl_cons, i2 c hc]
      have hw : v.dsWin n = s.dsWin n := congrArg (fun a : Acq => (tabGet {} a.dsClosed n : DsWin)) hv
      by_cases h1 : c ∈ ns
      · rw [if_pos h1, if_pos (List.mem_cons_of_mem _ h1)]
      · rw [if_neg h1]
        by_cases h2 : c = n
        · subst h2
          rw [if_pos (List.mem_cons_self ..), State.reg_setReg_same, hw]
        · rw [if_neg (by simp [h1, h2]), State.reg_setReg_other _ _ (Reg.ACQ_DSc_WIN_ne hc hn h2)]
  intro c hc
  exact ((key (List.range 12) u (by simp) ha).2 c hc).trans (if_pos (List.mem_range.mpr hc))

/-- The words of the tick among the signals stay as they are. -/
def TickWords (s t : State) : Prop := ∀ a, 0x100 ≤ a → a < 0x105 → t.sig a = s.sig a

theorem TickWords.trans {s t u : State} (h : TickWords s t) (g : TickWords t u) : TickWords s u :=
  fun a h1 h2 => (g a h1 h2).trans (h a h1 h2)

theorem TickWords.of_board {s t : State} (h : t.board = s.board) : TickWords s t := fun a _ _ => by unfold State.sig; rw [h]

theorem State.publish_tickWords (s : State) (a : Nat) (w : Word) (h : 0x105 ≤ a) : TickWords s (s.publish a w) := by
  intro b _ h2
  exact Store.get_set_other _ _ _ (by omega)

theorem State.publishInput_tickWords (s : State) (k : Nat) : TickWords s (s.publishInput k) := by
  unfold State.publishInput
  extract_lets w a v
  split
  · exact s.publish_tickWords _ _ (by omega)
  · exact ((s.publish_tickWords a _ (by omega)).trans (State.publish_tickWords _ (a + 1) _ (by omega))).trans
      ((State.publish_tickWords _ (a + 2) _ (by omega)).trans (State.publish_tickWords _ (a + 3) _ (by omega)))

theorem State.foldl_tickWords {α : Type} (f : State → α → State) (h : ∀ u x, TickWords u (f u x)) :
    ∀ (l : List α) (u : State), TickWords u (l.foldl f u)
  | [], _ => fun _ _ _ => rfl
  | x :: l, u => (h u x).trans (State.foldl_tickWords f h l (f u x))

theorem State.publishSar_tickWords (s : State) : TickWords s s.publishSar := by
  unfold State.publishSar
  extract_lets u
  exact (State.foldl_tickWords _ (fun u k => u.publishInput_tickWords k) _ s).trans
    (State.foldl_tickWords _ (fun u k => TickWords.of_board (State.checkSum_frame.board (by decide))) _ u)

theorem State.publishDs_tickWords (s : State) (c : Nat) : TickWords s (s.publishDs c) := by
  unfold State.publishDs
  extract_lets w a was avg u v
  have hu : TickWords s u := by
    unfold u
    split
    · exact fun _ _ _ => rfl
    · exact ((s.publish_tickWords a _ (by omega)).trans (State.publish_tickWords _ (a + 1) _ (by omega))).trans
        (State.publish_tickWords _ (a + 2) _ (by omega))
  clear_value u
  have hv : TickWords s v := hu.trans (u.publish_tickWords (a + 3) _ (by omega))
  clear_value v
  split
  · exact hv.trans (TickWords.of_board (State.dsInvalid_frame.board (by decide)))
  · exact hv

theorem State.publishCh_tickWords (s : State) (c : Nat) : TickWords s (s.publishCh c) := by
  unfold State.publishCh
  extract_lets x n b em angle speed u v w y z
  have hb : 0x200 ≤ b := Nat.le_add_right _ _
  have hu : TickWords s u := ((s.publish_tickWords b _ (by omega)).trans (State.publish_tickWords _ (b + 1) _ (by omega))).trans
    (State.publish_tickWords _ (b + 2) _ (by omega))
  clear_value u
  have hv : TickWords u v := by
    unfold v State.publishDir
    extract_lets h old new r
    have hr : TickWords u r := u.publish_tickWords _ _ (by unfold posBoard; omega)
    clear_value r
    split
    · exact hr
    · exact hr.trans (TickWords.of_board (State.event_frame.board (by decide)))
  clear_value v
  have hw : TickWords v w := (v.publish_tickWords _ _ (by omega)).trans (State.publish_tickWords _ (b + 5) _ (by omega))
  clear_value w
  have hy : TickWords w y := ((w.publish_tickWords _ _ (by omega)).trans (State.publish_tickWords _ (b + 7) _ (by omega))).trans
    (State.publish_tickWords _ (b + 8) _ (by omega))
  clear_value y
  have hz : TickWords y z := ((y.publish_tickWords _ _ (by omega)).trans (State.publish_tickWords _ (b + 10) _ (by omega))).trans
    (State.publish_tickWords _ (b + 11) _ (by omega))
  clear_value z
  exact hu.trans (hv.trans (hw.trans (hy.trans (hz.trans (z.publish_tickWords _ _ (by omega))))))

/-- The words of the tick are published, and the other windows leave them. -/
theorem State.publishWindows_tick (s : State) : s.publishWindows.sig 0x100 = Num.pack (esToSec (s.fld Reg.CLK_TICKPER Fld.CLK_TICKPER.PERIOD)) ∧
    s.publishWindows.sig 0x103 = Num.pack (esToSec s.prevLen) ∧ s.publishWindows.sig 0x104 = BitVec.ofNat 32 s.tick := by
  unfold State.publishWindows
  have h : TickWords s.publishTick (s.publishTick.publishSar.publishAllDs.publishPos) :=
    (State.publishSar_tickWords _).trans (TickWords.trans (State.foldl_tickWords _ (fun u k => u.publishDs_tickWords k) _ _)
      ((State.publishCh_tickWords _ 0).trans (State.publishCh_tickWords _ 1)))
  rw [h 0x100 (by decide) (by decide), h 0x103 (by decide) (by decide), h 0x104 (by decide) (by decide)]
  unfold State.publishTick
  extract_lets u f
  refine ⟨?_, ?_, State.sig_publish_same _ _ _⟩
  · refine (State.sig_publish_other _ _ (by decide)).trans ((State.sig_publish_other _ _ (by decide)).trans
      ((State.sig_publish_other _ _ (by decide)).trans (State.sig_publish_same _ _ _)))
  · exact (State.sig_publish_other _ _ (by decide)).trans (State.sig_publish_same _ _ _)

theorem State.publishDs_valid (s : State) (c d : Nat) (hc : c < 12) (hd : d < 12) :
    (s.publishDs c).fld (Reg.ACQ_DSc_STAT d) Fld.ACQ_DSc_STAT.VALID =
      (if d = c then (s.dsWin c).valid.toNat else s.fld (Reg.ACQ_DSc_STAT d) Fld.ACQ_DSc_STAT.VALID) ∧
    (s.publishDs c).acq.dsClosed = s.acq.dsClosed := by
  unfold State.publishDs
  extract_lets w a was avg u v
  have hu : u.regs = s.regs ∧ u.acq = s.acq := by
    unfold u
    split <;> exact ⟨rfl, rfl⟩
  clear_value u
  have hv : v.fld (Reg.ACQ_DSc_STAT d) Fld.ACQ_DSc_STAT.VALID =
      (if d = c then (s.dsWin c).valid.toNat else s.fld (Reg.ACQ_DSc_STAT d) Fld.ACQ_DSc_STAT.VALID) ∧ v.acq = s.acq := by
    refine ⟨?_, hu.2⟩
    by_cases h : d = c
    · subst h
      rw [if_pos rfl]
      refine ((u.publishFlag (a + 3) w.valid).fld_setFld (Reg.ACQ_DSc_STAT d) Fld.ACQ_DSc_STAT.VALID _).trans ?_
      show w.valid.toNat % 2 = _
      cases w.valid <;> rfl
    · rw [if_neg h]
      exact (State.fld_setFld_other _ _ _ _ (Reg.ACQ_DSc_STAT_ne hd hc h)).trans (State.fld_of_regs hu.1 _ _)
  clear_value v
  split
  · refine ⟨(State.dsInvalid_frame.fld (regNo_ACQ_DSc_STAT d)).trans hv.1, ?_⟩
    refine Eq.trans ?_ (congrArg Acq.dsClosed hv.2)
    unfold State.dsInvalid
    extract_lets r
    split
    · have e : ∀ x ev, (State.event x ev).acq = x.acq := fun x ev => State.event_frame.acq (by decide)
      rw [e]
      rfl
    · rfl
  · exact ⟨hv.1, congrArg Acq.dsClosed hv.2⟩

theorem State.publishAllDs_valid (s : State) (c : Nat) (hc : c < 12) :
    s.publishAllDs.fld (Reg.ACQ_DSc_STAT c) Fld.ACQ_DSc_STAT.VALID = (s.dsWin c).valid.toNat := by
  unfold State.publishAllDs
  have key : ∀ (ns : List Nat) (v : State), (∀ n ∈ ns, n < 12) →
      (ns.foldl State.publishDs v).fld (Reg.ACQ_DSc_STAT c) Fld.ACQ_DSc_STAT.VALID =
        if c ∈ ns then (v.dsWin c).valid.toNat else v.fld (Reg.ACQ_DSc_STAT c) Fld.ACQ_DSc_STAT.VALID := by
    intro ns
    induction ns with
    | nil => intro v _; exact (if_neg (by simp)).symm
    | cons n ns ih =>
      intro v hb
      obtain ⟨h1, h2⟩ := v.publishDs_valid n c (hb n (List.mem_cons_self ..)) hc
      rw [List.foldl_cons, ih _ fun k hk => hb k (List.mem_cons_of_mem _ hk)]
      have hw : (v.publishDs n).dsWin c = v.dsWin c := congrArg (fun x => (tabGet {} x c : DsWin)) h2
      rw [hw]
      by_cases a : c ∈ ns
      · rw [if_pos a, if_pos (List.mem_cons_of_mem _ a)]
      · rw [if_neg a, h1]
        by_cases b : c = n
        · subst b
          rw [if_pos rfl, if_pos (List.mem_cons_self ..)]
        · rw [if_neg b, if_neg (by simp [a, b])]
  exact (key _ s (by simp)).trans (if_pos (List.mem_range.mpr hc))

theorem State.publishSar_dsClosed (s : State) : s.publishSar.acq.dsClosed = s.acq.dsClosed := by
  unfold State.publishSar
  extract_lets u
  have hu : u.acq = s.acq := by
    have f : Frame Foot.publishInput s u := Frame.foldl (Frame.refl _ _) fun a k h => Frame.step State.publishInput_frame h
    exact f.acq (by decide)
  clear_value u
  refine Eq.trans ?_ (congrArg Acq.dsClosed hu)
  have hs : ∀ (w : State) (g : Nat), (w.checkSum g).acq.dsClosed = w.acq.dsClosed := by
    intro w g
    have hw : (w.sumWithin g).acq.dsClosed = w.acq.dsClosed := by
      unfold State.sumWithin
      have e : ∀ x a b, (State.endCause x a b).acq = x.acq := fun x a b => State.endCause_frame.acq (by decide)
      rw [e]
      rfl
    unfold State.checkSum
    split
    · split
      · split
        · unfold State.sumBeyond
          extract_lets n lim x
          split
          · have e : ∀ x a b c, (State.f3 x a b c).acq = x.acq := fun x a b c => State.f3_frame.acq (by decide)
            rw [e]
            rfl
          · rfl
        · exact hw
      · rfl
    · exact hw
  have key : ∀ (ns : List Nat) (v : State), (ns.foldl State.checkSum v).acq.dsClosed = v.acq.dsClosed := by
    intro ns
    induction ns with
    | nil => exact fun _ => rfl
    | cons n ns ih => exact fun v => (ih _).trans (hs v n)
  exact key _ u

/-- 150 ns after the boundary the windows are published: VALID of every delta-sigma channel is that of its closed window; in PARK,
where nothing is evaluated, T_NOW, T_PREV and TICK show the tick. -/
theorem signalPublish_does :
    (∀ (p a b : Word) (s : State), Does (.signalPublish p a b) s fun t => t.now = max s.now (s.t0 + nsToEs 150) ∧ t.tick = s.tick ∧
      ∀ c, c < 12 → t.fld (Reg.ACQ_DSc_STAT c) Fld.ACQ_DSc_STAT.VALID = (s.dsWin c).valid.toNat) ∧
    (∀ (p a b : Word) (s : State), s.powerState ≠ pwrRun → Does (.signalPublish p a b) s fun t =>
      t.sig 0x100 = Num.pack (esToSec (s.fld Reg.CLK_TICKPER Fld.CLK_TICKPER.PERIOD)) ∧
      t.sig 0x103 = Num.pack (esToSec s.prevLen) ∧ t.sig 0x104 = BitVec.ofNat 32 s.tick) := by
  refine ⟨?_, ?_⟩
  · intro p a b s
    refine ⟨_, exec_signalPublish.trans rfl, ?_⟩
    dsimp only
    have hu : Frame Foot.publishWindows (s.atTick 150).openBatch (s.atTick 150).openBatch.publishWindows := State.publishWindows_frame
    have hv : ∀ c, c < 12 → (s.atTick 150).openBatch.publishWindows.fld (Reg.ACQ_DSc_STAT c) Fld.ACQ_DSc_STAT.VALID = (s.dsWin c).valid.toNat := by
      intro c hc
      unfold State.publishWindows
      refine (State.publishPos_frame.fld (regNo_ACQ_DSc_STAT c)).trans ((State.publishAllDs_valid _ c hc).trans ?_)
      refine congrArg (fun x => ((tabGet {} x c : DsWin)).valid.toNat) ((State.publishSar_dsClosed _).trans ?_)
      exact congrArg Acq.dsClosed ((State.publishTick_frame.acq (by decide)).trans rfl)
    generalize (s.atTick 150).openBatch.publishWindows = u at hu hv
    have hw : Frame Foot.evaluate u (if u.powerState = pwrRun then u.evaluate p a b else u) := by
      split
      · exact State.evaluate_frame
      · exact Frame.refl _ _
    generalize (if u.powerState = pwrRun then u.evaluate p a b else u) = w at hw
    refine ⟨?_, ?_, fun c hc => ?_⟩
    · exact (State.closeBatch_frame.now (by decide)).trans ((hw.now (by decide)).trans (hu.now (by decide)))
    · exact (State.closeBatch_frame.tick (by decide)).trans ((hw.tick (by decide)).trans (hu.tick (by decide)))
    · exact (State.closeBatch_frame.fld (regNo_ACQ_DSc_STAT c)).trans ((hw.fld (regNo_ACQ_DSc_STAT c)).trans (hv c hc))
  · intro p a b s h
    refine ⟨_, exec_signalPublish.trans rfl, ?_⟩
    dsimp only
    have hp : (s.atTick 150).openBatch.publishWindows.powerState = s.powerState := State.publishWindows_frame.fld regNo_PWR_STATE
    rw [if_neg (by rw [hp]; exact h)]
    obtain ⟨h1, h2, h3⟩ := State.publishWindows_tick (s.atTick 150).openBatch
    have hb : ∀ u : State, u.closeBatch.board = u.board := fun u => State.closeBatch_frame.board (by decide)
    unfold State.sig
    rw [hb]
    exact ⟨h1, h2, h3⟩

/-! ### The engine's instants -/

/-- What the end of the application interval leaves, 250 ns after the boundary. -/
theorem State.foldl_keeps {α : Type} (P : State → Prop) (f : State → α → State) (h : ∀ u x, P u → P (f u x)) :
    ∀ (l : List α) (u : State), P u → P (l.foldl f u)
  | [], _, hu => hu
  | x :: l, u, hu => State.foldl_keeps P f h l (f u x) (h u x hu)

/-- The passes are under way. -/
def UnderWay (s : State) : Prop := s.eng.started = true ∧ s.eng.voted = false

theorem State.sigs_underWay (s : State) (l : List (Nat × Word)) (h : UnderWay s) : UnderWay { s with eng.sigs := l } := ⟨h.1, h.2⟩

theorem State.foldSig_underWay (s : State) (p n : Nat) (h : UnderWay s) : UnderWay (s.foldSig p n) := by
  unfold State.foldSig State.setSigRun
  exact State.sigs_underWay s _ h

theorem State.committed_underWay (s : State) (l : List (Nat × Nat)) (h : UnderWay s) : UnderWay { s with eng.committed := l } := ⟨h.1, h.2⟩

theorem State.rangeFinding_underWay (s : State) (n op k t : Nat) (h : UnderWay s) : UnderWay (s.rangeFinding n op k t) := by
  unfold State.rangeFinding
  extract_lets a rec src
  split
  · exact h
  · exact h

theorem State.rangeFindings_underWay (s : State) (n t : Nat) (r : Run) (h : UnderWay s) : UnderWay (s.rangeFindings n t r) := by
  unfold State.rangeFindings
  exact State.foldl_keeps UnderWay _ (fun u x hu => State.rangeFinding_underWay u n x.1 x.2 _ hu) _ _ h

theorem State.commitRun_underWay (s : State) (p n : Nat) (r : Run) (h : UnderWay s) : UnderWay (s.commitRun p n r) := by
  unfold State.commitRun
  extract_lets u v
  have hu : UnderWay u := State.foldl_keeps UnderWay _ (by intro u x h; exact h) _ _ h
  clear_value u
  have hv : UnderWay v := State.foldl_keeps UnderWay _ (by intro u x h; exact h) _ _ hu
  clear_value v
  exact State.foldSig_underWay _ _ _ (State.committed_underWay _ _ hv)

theorem State.runPass_underWay (us : List Upset) (stop : Option EngineStop) (p : Nat) :
    ∀ (l : List Nat) (n : Nat) (a : State × List (Nat × Nat × Nat)), UnderWay a.1 → UnderWay (State.runPass us stop p l n a).1
  | [], _, _, h => h
  | n :: l, _, (u, ev), h => by
    unfold State.runPass
    extract_lets ops
    split
    · split
      · exact State.rangeFindings_underWay _ _ _ _ h
      · exact h
    · have hc : ∀ r, UnderWay (u.commitRun p n r) := fun r => State.commitRun_underWay _ _ _ _ h
      refine State.runPass_underWay us stop p l _ _ ?_
      dsimp only
      split
      · exact State.rangeFindings_underWay _ _ _ _ (hc _)
      · exact hc _

theorem State.runPasses_underWay (s : State) (us : List Upset) (stop : Option EngineStop) (h : UnderWay s) :
    UnderWay (s.runPasses us stop) := by
  unfold State.runPasses
  extract_lets due limit a b c u all ranA
  have ha : UnderWay a.1 := State.runPass_underWay us stop 0 due 0 (s, []) h
  have hb : UnderWay b.1 := by
    unfold b
    split
    · exact State.runPass_underWay us stop 1 due 0 (a.1, []) ha
    · exact ha
  have hc : UnderWay c.1 := by
    unfold c
    split
    · exact State.runPass_underWay us stop 2 due 0 (b.1, []) hb
    · exact hb
  exact hc

theorem State.flipWords_underWay (s : State) (us : List Upset) (h : UnderWay s) : UnderWay (s.flipWords us) := by
  unfold State.flipWords
  exact State.foldl_keeps UnderWay _ (by intro u x h; exact h) _ _ h

theorem State.watchMismatch_underWay (s : State) (m : Nat) (h : UnderWay s) : UnderWay (s.watchMismatch m) := by
  unfold State.watchMismatch
  extract_lets hit
  split
  · exact h
  · exact h

theorem State.startEngine_cases (s : State) (us : List Upset) (p : Option EngineStop) (m l : Nat) (P : State → Prop)
    (h0 : ∀ w : State, w.engRun = false → P w) (h1 : ∀ w, UnderWay w → P w) : P (s.startEngine us p m l) := by
  unfold State.startEngine
  extract_lets w src1 src2 x y src3
  clear_value w
  by_cases hw : w.engRun = true
  · rw [if_pos hw]
    refine h1 _ ?_
    have hx : UnderWay x := ⟨rfl, rfl⟩
    clear_value x
    have hy : UnderWay y := State.watchMismatch_underWay _ _ (State.flipWords_underWay _ _ (State.runPasses_underWay x us p hx))
    clear_value y
    exact hy
  · rw [if_neg hw]
    exact h0 w (Bool.eq_false_iff.mpr hw)

/-- T_NEXT is shown at 250 ns; an engine that runs, and is not stopped by the swaps that are due, begins its passes. -/
theorem engineStart_does :
    (∀ (u : List Upset) (p : Option EngineStop) (m l : Nat) (s : State), s.ticking = false → Does (.engineStart u p m l) s fun t => t = s) ∧
    (∀ (u : List Upset) (p : Option EngineStop) (m l : Nat) (s : State), s.ticking = true → Does (.engineStart u p m l) s fun t =>
      t.fld Reg.CLK_TICKPER_NEXT Fld.CLK_TICKPER_NEXT.PERIOD = s.intervalEnd.lenAhead % 2 ^ Fld.CLK_TICKPER_NEXT.PERIOD.width ∧
      (t.engRun = true → t.eng.started = true ∧ t.eng.voted = false)) := by
  refine ⟨?_, ?_⟩
  · intro u p m l s h
    refine Does.via exec_engineStart ?_
    unfold execEngineStart
    rw [h, if_pos (by decide)]
    exact ⟨_, rfl, rfl⟩
  · intro us p m l s h
    refine Does.via exec_engineStart ?_
    unfold execEngineStart
    rw [h, if_neg (by decide)]
    refine ⟨_, rfl, ?_⟩
    change (s.intervalEnd.publishNext.startEngine us p m l).fld _ _ = _ ∧ ((s.intervalEnd.publishNext.startEngine us p m l).engRun = true → UnderWay (s.intervalEnd.publishNext.startEngine us p m l))
    generalize s.intervalEnd = u
    refine ⟨?_, ?_⟩
    · refine (State.startEngine_frame.fld regNo_CLK_TICKPER_NEXT).trans ?_
      unfold State.publishNext
      extract_lets len
      refine (State.fld_of_regs (s := u.setFld Reg.CLK_TICKPER_NEXT Fld.CLK_TICKPER_NEXT.PERIOD len) rfl _ _).trans ?_
      exact u.fld_setFld Reg.CLK_TICKPER_NEXT Fld.CLK_TICKPER_NEXT.PERIOD _
    · exact State.startEngine_cases _ us p m l (fun t => t.engRun = true → UnderWay t) (fun w hw hr => absurd hr (by rw [hw]; decide))
        fun y hy _ => hy

/-- A hold that has run out at the boundary commands its units into safe state. -/
theorem holdExpiry_does :
    (∀ s : State, s.eng.expired = false → Does .holdExpiry s fun t => t = s) ∧
    (∀ s : State, s.eng.expired = true → Does .holdExpiry s fun t =>
      t.eng.expired = false ∧ t.eng.holdUnits = 0 ∧ t.eng.safeTick = s.tick) := by
  refine ⟨?_, ?_⟩
  · intro s h
    refine Does.via exec_holdExpiry ?_
    unfold execHoldExpiry
    rw [h, if_pos (by decide)]
    exact ⟨_, rfl, rfl⟩
  · intro s h
    refine Does.via exec_holdExpiry ?_
    unfold execHoldExpiry
    rw [h, if_neg (by decide)]
    extract_lets units held src u v
    refine ⟨_, rfl, ?_⟩
    have e1 : v.eng = u.eng := State.event_frame.eng (by decide)
    have e2 : v.tick = u.tick := State.event_frame.tick (by decide)
    have hv : v.eng = { s.eng with expired := false, holdUnits := 0 } ∧ v.tick = s.tick := ⟨e1, e2⟩
    clear_value v
    unfold State.commandSafe
    extract_lets src w
    have hw : w.eng = { s.eng with expired := false, holdUnits := 0, safeTick := s.tick } := by
      refine Eq.trans (b := { v.eng with safeTick := v.tick }) rfl ?_
      rw [hv.1, hv.2]
    clear_value w
    split
    · rw [hw]; exact ⟨rfl, rfl, rfl⟩
    · rw [State.raise_frame.eng (by decide), hw]; exact ⟨rfl, rfl, rfl⟩

theorem State.rotateEngine_shadow (s : State) (c : Nat) (h : c < 4) :
    (s.rotateEngine c).fld Reg.ENG_STAT Fld.ENG_STAT.SHADOW = s.fld Reg.ENG_STAT Fld.ENG_STAT.SHADOW := by
  unfold State.rotateEngine
  extract_lets serving spare
  split
  · rfl
  · refine (State.shadowPassed_frame.fld regNo_ENG_STAT).trans ?_
    have e : ∀ (w : Word) (j : Nat) (b : Bool), j < 16 → Fld.ENG_STAT.SHADOW.of (setBit w j b) = Fld.ENG_STAT.SHADOW.of w := by
      intro w j b hj
      unfold setBit
      exact Bits.of_put_other _ _ (f := ⟨j, 1⟩) (g := Fld.ENG_STAT.SHADOW) (Or.inl hj)
    rw [State.fld_setReg_same, e _ _ _ (by omega)]
    rw [State.reg_setReg_same, e _ _ _ (by omega)]
    rfl

/-- The end of a shadow watch of the engine's spares: no watch is under way, and none shadows. -/
theorem shadowWatchEnd_does :
    (∀ s : State, s.eng.watchTo = 0 ∨ s.tick < s.eng.watchTo → Does .shadowWatchEnd s fun t => t = s) ∧
    (∀ s : State, s.eng.watchTo ≠ 0 → s.eng.watchTo ≤ s.tick → Does .shadowWatchEnd s fun t =>
      t.eng.watchTo = 0 ∧ t.fld Reg.ENG_STAT Fld.ENG_STAT.SHADOW = 0 ∧ t.now = max s.now (s.t0 + nsToEs 250)) := by
  refine ⟨?_, ?_⟩
  · intro s h
    refine ⟨_, exec_shadowWatchEnd.trans rfl, ?_⟩
    dsimp only
    rw [if_pos h]
  · intro s h1 h2
    refine ⟨_, exec_shadowWatchEnd.trans rfl, ?_⟩
    dsimp only
    rw [if_neg (by omega)]
    have key : ∀ u : State, u.eng.watchTo = 0 → u.fld Reg.ENG_STAT Fld.ENG_STAT.SHADOW = 0 → u.now = max s.now (s.t0 + nsToEs 250) →
        ([0, 1, 2, 3].foldl State.rotateEngine u).eng.watchTo = 0 ∧ ([0, 1, 2, 3].foldl State.rotateEngine u).fld Reg.ENG_STAT Fld.ENG_STAT.SHADOW = 0 ∧
        ([0, 1, 2, 3].foldl State.rotateEngine u).now = max s.now (s.t0 + nsToEs 250) := by
      intro u a b c
      have f : Frame Foot.rotateEngine u ([0, 1, 2, 3].foldl State.rotateEngine u) :=
        Frame.foldl (Frame.refl _ u) fun a k h => Frame.step State.rotateEngine_frame h
      refine ⟨(congrArg Eng.watchTo (f.eng (by decide))).trans a, ?_, (f.now (by decide)).trans c⟩
      dsimp only [List.foldl_cons, List.foldl_nil]
      rw [State.rotateEngine_shadow _ 3 (by decide), State.rotateEngine_shadow _ 2 (by decide), State.rotateEngine_shadow _ 1 (by decide),
        State.rotateEngine_shadow _ 0 (by decide), b]
    have hw : ∀ u : State, u.eng = { s.eng with watchTo := 0 } → u.fld Reg.ENG_STAT Fld.ENG_STAT.SHADOW = 0 → u.now = max s.now (s.t0 + nsToEs 250) →
        ∀ v, Frame Foot.event u v → v.eng.watchTo = 0 ∧ v.fld Reg.ENG_STAT Fld.ENG_STAT.SHADOW = 0 ∧ v.now = max s.now (s.t0 + nsToEs 250) :=
      fun u a b c v f => ⟨(congrArg Eng.watchTo ((f.eng (by decide)).trans a)), (f.fld regNo_ENG_STAT).trans b, (f.now (by decide)).trans c⟩
    have h0 := hw ({ s.atTick 250 with eng.watchTo := 0 }.setFld Reg.ENG_STAT Fld.ENG_STAT.SHADOW 0) rfl
      (State.fld_setFld _ Reg.ENG_STAT Fld.ENG_STAT.SHADOW 0) rfl
    split
    · obtain ⟨a, b, c⟩ := h0 _ (Frame.refl _ _)
      exact key _ a b c
    · obtain ⟨a, b, c⟩ := h0 _ State.event_frame
      exact key _ a b c

/-- A vote that is not complete 350 ns before the boundary is a deadline miss. -/
theorem engineDeadline_does :
    (∀ s : State, s.engRun = true → s.eng.started = true → s.eng.voted = false → Does .engineDeadline s fun t =>
      t.fld Reg.ENG_CNT Fld.ENG_CNT.DLMISS = satAdd 8 (s.fld Reg.ENG_CNT Fld.ENG_CNT.DLMISS) 1 ∧ t.eng.started = false ∧
      t.eng.ran = [] ∧ t.eng.sigs = []) ∧
    (∀ s : State, s.engRun = false ∨ s.eng.started = false ∨ s.eng.voted = true → Does .engineDeadline s fun t => t = s.beforeBoundary 350) := by
  refine ⟨?_, ?_⟩
  · intro s h1 h2 h3
    refine ⟨_, exec_engineDeadline.trans rfl, ?_⟩
    dsimp only
    have e : ((s.beforeBoundary 350).engRun && (s.beforeBoundary 350).eng.started && !(s.beforeBoundary 350).eng.voted) = true := by
      refine Eq.trans (b := (s.engRun && s.eng.started && !s.eng.voted)) rfl ?_
      rw [h1, h2, h3]
      rfl
    rw [if_pos e]
    have hu : Frame Foot.postPasses (s.beforeBoundary 350) (s.beforeBoundary 350).postPasses := State.postPasses_frame
    unfold State.deadlineMiss
    generalize (s.beforeBoundary 350).postPasses = u at hu
    have hc : u.fld Reg.ENG_CNT Fld.ENG_CNT.DLMISS = s.fld Reg.ENG_CNT Fld.ENG_CNT.DLMISS := hu.fld regNo_ENG_CNT
    dsimp only
    generalize he : State.event (State.count _ Reg.ENG_CNT Fld.ENG_CNT.DLMISS) _ = v
    have hv : v.fld Reg.ENG_CNT Fld.ENG_CNT.DLMISS = satAdd 8 (s.fld Reg.ENG_CNT Fld.ENG_CNT.DLMISS) 1 ∧ v.eng.started = false := by
      subst he
      refine ⟨(State.event_frame.fld regNo_ENG_CNT).trans ?_, congrArg Eng.started (State.event_frame.eng (by decide))⟩
      refine (State.fld_count _ Reg.ENG_CNT Fld.ENG_CNT.DLMISS 1).trans ?_
      exact congrArg (fun n => satAdd 8 n 1) (Eq.trans (State.fld_of_regs (s := u) rfl _ _) hc)
    clear he
    have hd : v.discardWindow.fld Reg.ENG_CNT Fld.ENG_CNT.DLMISS = v.fld Reg.ENG_CNT Fld.ENG_CNT.DLMISS ∧
        v.discardWindow.eng.started = v.eng.started ∧ v.discardWindow.eng.ran = [] ∧ v.discardWindow.eng.sigs = [] := by
      refine ⟨State.discardWindow_frame.fld regNo_ENG_CNT, ?_, rfl, rfl⟩
      unfold State.discardWindow
      extract_lets en x
      have e : x.eng = v.eng := State.event_frame.eng (by decide)
      exact (congrArg Eng.started e :)
    generalize v.discardWindow = x at hd
    have ho : ∀ (n : Nat) (y : State), (y.openHold n).eng.started = y.eng.started ∧ (y.openHold n).eng.ran = y.eng.ran ∧ (y.openHold n).eng.sigs = y.eng.sigs := by
      intro n y
      unfold State.openHold
      split
      · unfold State.keepPrior
        exact ⟨rfl, rfl, rfl⟩
      · exact ⟨rfl, rfl, rfl⟩
    obtain ⟨o1, o2, o3⟩ := ho u.missUnits x
    exact ⟨(State.openHold_frame.fld regNo_ENG_CNT).trans (hd.1.trans hv.1), o1.trans (hd.2.1.trans hv.2), o2.trans hd.2.2.1, o3.trans hd.2.2.2⟩
  · intro s h
    refine ⟨_, exec_engineDeadline.trans rfl, ?_⟩
    dsimp only
    have e : ((s.beforeBoundary 350).engRun && (s.beforeBoundary 350).eng.started && !(s.beforeBoundary 350).eng.voted) = false := by
      refine Eq.trans (b := (s.engRun && s.eng.started && !s.eng.voted)) rfl ?_
      rcases h with h | h | h <;> rw [h] <;> simp
    rw [if_neg (by rw [e]; decide)]

theorem State.openHold_scrub (s : State) (n : Nat) :
    (s.openHold n).fld Reg.TPR_STAT Fld.TPR_STAT.SCRUB = s.fld Reg.TPR_STAT Fld.TPR_STAT.SCRUB := by
  unfold State.openHold
  split
  · rfl
  · refine Eq.trans (State.fld_of_regs rfl _ _) ((State.fld_setFld_other _ _ _ _ (by decide)).trans
      ((State.fld_setFld_field _ _ (f := Fld.TPR_STAT.HLEFT) (g := Fld.TPR_STAT.SCRUB) _ (by decide)).trans
        (State.fld_setFld_field _ _ (f := Fld.TPR_STAT.HOLD) (g := Fld.TPR_STAT.SCRUB) _ (by decide))))

theorem scrubWord_scrub (live : List Nat) (n : Nat) (acc : State × Bool) (a : Nat) :
    (scrubWord live n acc a).1.fld Reg.TPR_STAT Fld.TPR_STAT.SCRUB = acc.1.fld Reg.TPR_STAT Fld.TPR_STAT.SCRUB := by
  obtain ⟨s, told⟩ := acc
  have hc : ∀ (u : State) (f : Bits), (u.count Reg.TPR_CNT_A f).fld Reg.TPR_STAT Fld.TPR_STAT.SCRUB = u.fld Reg.TPR_STAT Fld.TPR_STAT.SCRUB :=
    fun u f => State.fld_setFld_other _ _ _ _ (by decide)
  unfold scrubWord
  dsimp only
  split
  · rfl
  · split
    · rfl
    · exact (hc _ _).trans (State.fld_of_regs rfl _ _)
  · split
    · split
      · rfl
      · dsimp only
        unfold State.divergence
        extract_lets units u src v
        have hu : u.fld Reg.TPR_STAT Fld.TPR_STAT.SCRUB = s.fld Reg.TPR_STAT Fld.TPR_STAT.SCRUB :=
          (State.event_frame.fld regNo_TPR_STAT).trans (State.fld_setFld_other _ _ _ _ (by decide))
        exact (State.openHold_scrub v units).trans ((State.fld_of_regs rfl _ _).trans hu)
    · exact (hc _ _).trans (State.fld_of_regs rfl _ _)

/-- The scrub takes the running stalls in turn, every tick; one that this tick copies is left. -/
theorem stateScrub_does :
    (∀ s : State, s.ticking = false → Does .stateScrub s fun t => t = s) ∧
    (∀ s : State, s.ticking = true → s.scrubStall = none → Does .stateScrub s fun t => t = s.beforeBoundary 200) ∧
    (∀ (n : Nat) (s : State), s.ticking = true → s.scrubStall = some n → Does .stateScrub s fun t =>
      t.fld Reg.TPR_STAT Fld.TPR_STAT.SCRUB = (n + 1) % 128 ∧ (s.eng.touched.contains n = true → t.eng = s.eng)) := by
  refine ⟨?_, ?_, ?_⟩
  · intro s h
    refine ⟨_, exec_stateScrub.trans rfl, ?_⟩
    dsimp only
    have hne : ¬ s.ticking = true := ne_true_of_eq_false h
    have e : (if s.ticking = true then s.beforeBoundary 200 else s) = s := if_neg hne
    rw [e]
    exact if_neg hne
  · intro s h hn
    refine ⟨_, exec_stateScrub.trans rfl, ?_⟩
    dsimp only
    rw [if_pos h, if_pos (show (s.beforeBoundary 200).ticking = true from h)]
    unfold State.scrub
    rw [show (s.beforeBoundary 200).scrubStall = none from hn]
  · intro n s h1 h2
    refine ⟨_, exec_stateScrub.trans rfl, ?_⟩
    dsimp only
    rw [if_pos h1, if_pos (show (s.beforeBoundary 200).ticking = true from h1)]
    unfold State.scrub
    rw [show (s.beforeBoundary 200).scrubStall = some n from h2]
    dsimp only
    have hx : ((s.beforeBoundary 200).setFld Reg.TPR_STAT Fld.TPR_STAT.SCRUB ((n + 1) % 128)).fld Reg.TPR_STAT Fld.TPR_STAT.SCRUB = (n + 1) % 128 :=
      ((s.beforeBoundary 200).fld_setFld Reg.TPR_STAT Fld.TPR_STAT.SCRUB _).trans (Nat.mod_mod _ _)
    have he : ((s.beforeBoundary 200).setFld Reg.TPR_STAT Fld.TPR_STAT.SCRUB ((n + 1) % 128)).eng = s.eng := rfl
    generalize (s.beforeBoundary 200).setFld Reg.TPR_STAT Fld.TPR_STAT.SCRUB ((n + 1) % 128) = x at hx he
    rw [he]
    split
    · exact ⟨hx, fun _ => he⟩
    · rename_i hn
      refine ⟨?_, fun h => absurd h hn⟩
      have hs : ∀ (live ns : List Nat) (y : State × Bool),
          (ns.foldl (scrubWord live n) y).1.fld Reg.TPR_STAT Fld.TPR_STAT.SCRUB = y.1.fld Reg.TPR_STAT Fld.TPR_STAT.SCRUB := by
        intro live ns
        induction ns with
        | nil => exact fun _ => rfl
        | cons k ns ih => exact fun y => (ih _).trans (scrubWord_scrub live n y k)
      exact (hs _ _ (x, false)).trans hx

theorem State.checkApplied_keeps (s : State) : s.checkApplied.eng.staged = s.eng.staged ∧
    s.checkApplied.eng.prior = s.eng.prior ∧ s.checkApplied.holdInForce = s.holdInForce := by
  refine ⟨?_, ?_, State.checkApplied_frame.on regNo_TPR_STAT⟩
  all_goals
    unfold State.checkApplied
    split
    · rfl
    · have e : ∀ l, (s.postParity 1 l).eng = s.eng := fun l => State.postParity_frame.eng (by decide)
      dsimp only
      rw [e]

/-- What the check of the staged bank leaves staged: a second error in a hold, or one with every unit in safe state, the
bank of the tick before. -/
theorem State.checkStaged_staged (s : State) :
    (badHeld s.eng.staged = [] → s.checkStaged.eng.staged = s.eng.staged) ∧
    (badHeld s.eng.staged ≠ [] → s.holdInForce = true → s.checkStaged.eng.staged = s.eng.prior) ∧
    (s.checkStaged.eng.staged = s.eng.staged ∨ s.checkStaged.eng.staged = s.eng.prior) := by
  have key : ∀ (l : List Nat) (n : Nat), ((s.postParity 0 l).openHold n).eng.staged = s.eng.staged ∨
      ((s.postParity 0 l).openHold n).eng.staged = s.eng.prior := by
    intro l n
    have e : (s.postParity 0 l).eng = s.eng := State.postParity_frame.eng (by decide)
    unfold State.openHold
    split
    · exact .inr (congrArg Eng.prior e)
    · exact .inl (congrArg Eng.staged e :)
  have hold : ∀ (l : List Nat) (n : Nat), s.holdInForce = true → ((s.postParity 0 l).openHold n).eng.staged = s.eng.prior := by
    intro l n h
    have e : (s.postParity 0 l).eng = s.eng := State.postParity_frame.eng (by decide)
    have hf : (s.postParity 0 l).holdInForce = s.holdInForce := State.postParity_frame.on regNo_TPR_STAT
    unfold State.openHold
    rw [hf, h, if_pos (by rfl)]
    exact congrArg Eng.prior e
  unfold State.checkStaged
  split
  · next h => exact ⟨fun _ => rfl, fun x => absurd h x, .inl rfl⟩
  · next h => exact ⟨fun x => absurd x h, fun _ x => hold _ _ x, key _ _⟩

/-- The staged bank goes to the shadows of the sinks, unless a hold keeps the bank in force; a staged register in error
keeps the bank of the tick before, where its hold is not the first. -/
theorem outputTransfer_does :
    (∀ (f : List BankFlip) (s : State), s.holdsBank = true → Does (.outputTransfer f) s fun t =>
      t.eng.transfer = s.eng.transfer ∧ t.regs = s.regs) ∧
    (∀ (f : List BankFlip) (s : State), s.holdsBank = false → Does (.outputTransfer f) s fun t =>
      t.eng.transfer = some t.eng.staged ∧
      (badHeld (flipBank f false s.eng.staged) = [] → t.eng.staged = flipBank f false s.eng.staged) ∧
      (badHeld (flipBank f false s.eng.staged) ≠ [] → s.holdInForce = true → t.eng.staged = s.eng.prior) ∧
      (t.eng.staged = flipBank f false s.eng.staged ∨ t.eng.staged = s.eng.prior)) := by
  refine ⟨?_, ?_⟩
  · intro f s h
    refine ⟨_, exec_outputTransfer.trans rfl, ?_⟩
    dsimp only
    rw [if_pos (show ((s.beforeBoundary 350).flipBanks f).holdsBank = true from h)]
    exact ⟨rfl, rfl⟩
  · intro f s h
    refine ⟨_, exec_outputTransfer.trans rfl, ?_⟩
    dsimp only
    rw [if_neg (show ¬ ((s.beforeBoundary 350).flipBanks f).holdsBank = true by rw [show ((s.beforeBoundary 350).flipBanks f).holdsBank = false from h]; decide)]
    have hs : ((s.beforeBoundary 350).flipBanks f).eng.staged = flipBank f false s.eng.staged := rfl
    have hp : ((s.beforeBoundary 350).flipBanks f).eng.prior = s.eng.prior := rfl
    have hh : ((s.beforeBoundary 350).flipBanks f).holdInForce = s.holdInForce := rfl
    generalize (s.beforeBoundary 350).flipBanks f = x at hs hp hh
    unfold State.transferOutputs
    dsimp only
    have ha := x.checkApplied_keeps
    have hc := x.checkApplied.checkStaged_staged
    rw [ha.1, ha.2.1, ha.2.2, hs, hp, hh] at hc
    exact ⟨rfl, hc⟩

/-- The findings of the passes are posted, and nothing of the engine changes. -/
theorem State.postPasses_keeps (s : State) : s.postPasses.eng = s.eng ∧ s.postPasses.engRun = s.engRun :=
  ⟨State.postPasses_frame.eng (by decide), State.postPasses_frame.on (f := Fld.ENG_STAT.RUN) regNo_ENG_STAT⟩

theorem State.endVote_cases (s : State) (b : Option Bool) (e k : Bool) (P : State → Prop)
    (h0 : ∀ w : State, w.engRun = false → P w) (h1 : ∀ w : State, w.eng.voted = true ∧ w.eng.flagged = [] → P w) : P (s.endVote b e k) := by
  unfold State.endVote
  extract_lets due v src0 w x found src
  clear_value w
  by_cases hw : w.engRun = true
  · rw [if_pos hw]
    refine h1 _ ?_
    clear_value x found
    have f : Frame Foot.event { x with eng.voted := true, eng.flagged := [] } (found.foldl (fun s f =>
      s.event ⟨UnitCode.eng, 0x108, 0, f.1, detailOf [(0, f.1), (8, f.2)]⟩) { x with eng.voted := true, eng.flagged := [] }) :=
      Frame.foldl (Frame.refl _ _) fun a k h => Frame.step State.event_frame h
    have e := f.eng (by decide)
    exact ⟨congrArg Eng.voted e, congrArg Eng.flagged e⟩
  · rw [if_neg hw]
    exact h0 w (Bool.eq_false_iff.mpr hw)

/-- Whether a vote is due. -/
theorem State.postPasses_due (s : State) :
    (s.postPasses.engRun && s.postPasses.eng.started && !s.postPasses.eng.voted && s.postPasses.eng.reached.isNone) =
      (s.engRun && s.eng.started && !s.eng.voted && s.eng.reached.isNone) := by
  rw [(s.postPasses_keeps).1, (s.postPasses_keeps).2]

theorem State.vote_notDue {s : State} (k : Option Nat) (b : Option Bool)
    (h : (s.engRun && s.eng.started && !s.eng.voted && s.eng.reached.isNone) = false) : s.vote k b = s.postPasses := by
  have hx := s.postPasses_due.trans h
  unfold State.vote
  generalize s.postPasses = x at hx ⊢
  exact if_pos (congrArg not hx)

/-- A vote without a bound on its copies runs to its end. -/
theorem State.vote_due {s : State} (b : Option Bool)
    (h : (s.engRun && s.eng.started && !s.eng.voted && s.eng.reached.isNone) = true) :
    ∃ (w : State) (e k : Bool), s.vote none b = w.endVote b e k := by
  have hx := s.postPasses_due.trans h
  unfold State.vote
  generalize s.postPasses = x at hx ⊢
  refine ⟨_, _, _, (if_neg (by rw [hx]; exact Bool.false_ne_true)).trans ((if_neg (Nat.lt_irrefl _)).trans (if_neg Bool.false_ne_true))⟩

/-- The vote of a tick whose passes have run to their end, with no resynchronisation left over, is complete; a vote that is
not due only posts what the passes have found. -/
theorem votePhase_does :
    (∀ (k : Option Nat) (b : Option Bool) (s : State), s.engRun = false ∨ s.eng.started = false ∨ s.eng.voted = true ∨ s.eng.reached ≠ none →
      Does (.votePhase k b) s fun t => t = s.postPasses) ∧
    (∀ (b : Option Bool) (s : State), s.engRun = true → s.eng.started = true → s.eng.voted = false → s.eng.reached = none →
      Does (.votePhase none b) s fun t => t.engRun = true → t.eng.voted = true ∧ t.eng.flagged = []) := by
  refine ⟨?_, ?_⟩
  · intro k b s h
    refine ⟨_, exec_votePhase.trans rfl, State.vote_notDue k b ?_⟩
    rcases h with h | h | h | h
    · simp [h]
    · simp [h]
    · simp [h]
    · cases hr : s.eng.reached with
      | none => exact absurd hr h
      | some x => simp
  · intro b s h1 h2 h3 h4
    refine ⟨_, exec_votePhase.trans rfl, ?_⟩
    obtain ⟨w, e, k, hv⟩ := State.vote_due (s := s) b (by rw [h1, h2, h3, h4]; rfl)
    rw [hv]
    exact State.endVote_cases _ _ _ _ (fun t => t.engRun = true → t.eng.voted = true ∧ t.eng.flagged = [])
      (fun w hw hr => absurd hr (by rw [hw]; decide)) fun y hy _ => hy

end Sys2Proof.Machine
end

