-- ==== Sys2Proof/Laws/EffectWrites4.lean ====
section
/-! SUPPORT. Writes to links, controllers, ports, vehicle time, the host complex and the check units. -/

set_option Elab.async false

namespace Sys2Proof.Machine

/-! ### Isnak links -/

theorem isk_place : (∀ l : Fin 2, IsReg (Reg.ISK_LINKl_CFG l) 11 2 l ∧ elemOf (Reg.ISK_LINKl_CFG l) (Reg.ISK_LINKl_CFG 0) 0x40 2 = some l.val ∧
      Reg.ISK_LINKl_CFG (1 - l.val) ≠ Reg.ISK_LINKl_CFG l ∧ Reg.ISK_LINKl_CFG l ≠ Reg.SYS_RSTCTL ∧
      Reg.ISK_LINKl_CFG l ≠ Reg.HLD_CMIN ∧ Reg.ISK_LINKl_CFG l ≠ Reg.BST_CFG) ∧
    (regDesc 11 2).reach (.core 0) false ≠ 0 := by decide +kernel

theorem State.other_noCross (s : State) {a : Nat} (h1 : a ≠ Reg.SYS_RSTCTL) (h2 : a ≠ Reg.HLD_CMIN) (h3 : a ≠ Reg.BST_CFG) (v : Word) :
    s.clampOther a v = v := by
  unfold State.clampOther
  rw [if_neg h1, if_neg h2, if_neg h3]

theorem State.linkEnable_begins (s : State) {l : Nat}
    (h : (s.iskEn (1 - l) && (s.linkMap l).any fun x => (s.linkMap (1 - l)).contains x) = false) :
    s.linkEnable l = (((s.setLk l { upDue := s.isk1 l }).setLink l linkEnum).linkDown l
      (tagNotRun l)) := by
  unfold State.linkEnable
  dsimp only
  rw [h]
  rfl

theorem State.linkEnable_refused (s : State) {l : Nat}
    (h : (s.iskEn (1 - l) && (s.linkMap l).any fun x => (s.linkMap (1 - l)).contains x) = true) :
    s.linkEnable l = (s.setFld (Reg.ISK_LINKl_CFG l) Fld.ISK_LINKl_CFG.EN 0).event
      ⟨UnitCode.isk, 0x901, 3, l, detailOf [(0, 2), (8, s.nfound l)]⟩ := by
  unfold State.linkEnable
  dsimp only
  rw [h]
  rfl

theorem State.fld_setLk (s : State) (l : Nat) (x : IskLink) (a : Nat) (f : Bits) : (s.setLk l x).fld a f = s.fld a f :=
  State.fld_of_regs rfl a f

theorem iskLinkEnable_does : ∀ (l : Fin 2) (cfg : Word) (s : State), s.pwr.restoring = false → s.locked = false →
    s.iskEn l = false → Does (.iskLinkEnable l cfg) s fun t =>
      ((s.iskEn (1 - l) && ((List.range (clampNat 1 16 (Fld.ISK_LINKl_CFG.NODES.of cfg))).map (s.nodeMap l)).any
          fun x => (s.linkMap (1 - l)).contains x) = false →
        t.iskEn l = true ∧ t.fld (Reg.ISK_LINKl_STAT l) Fld.ISK_LINKl_STAT.STATE = linkEnum) ∧
      ((s.iskEn (1 - l) && ((List.range (clampNat 1 16 (Fld.ISK_LINKl_CFG.NODES.of cfg))).map (s.nodeMap l)).any
          fun x => (s.linkMap (1 - l)).contains x) = true →
        t.iskEn l = false ∧ t.reg (Reg.ISK_LINKl_STAT l) = s.reg (Reg.ISK_LINKl_STAT l)) := by
  intro l cfg s h hl h0
  refine ⟨_, exec_iskLinkEnable.trans rfl, ?_⟩
  dsimp only
  obtain ⟨hr, e1, e2, e3, e4, e5⟩ := isk_place.1 l
  have hs := hr.stored (s := s) (w := Fld.ISK_LINKl_CFG.EN.put 1 cfg) (busy := false) (by decide) h (by rw [hl]; exact isk_place.2)
  rw [State.put_isk (x := s.wrote (Reg.ISK_LINKl_CFG l) (regDesc 11 2) _) hr.2.1] at hs
  have hx : ∀ v, s.crossClamp (Reg.ISK_LINKl_CFG l) v = v := by
    intro v
    unfold State.crossClamp
    dsimp only
    rw [hr.2.1]
    repeat rw [if_neg (by decide)]
    exact s.other_noCross e3 e4 e5 v
  have h1 := hr.new_fld (s := s) (w := Fld.ISK_LINKl_CFG.EN.put 1 cfg) hx 0 (f := ⟨Fld.ISK_LINKl_CFG.EN, .rwl, fun _ => 0, .cross, true, false⟩) rfl
    (by rw [hl]; rfl) (.inr rfl)
  have h2 := hr.new_fld (s := s) (w := Fld.ISK_LINKl_CFG.EN.put 1 cfg) hx 2 (f := ⟨Fld.ISK_LINKl_CFG.NODES, .rwl, fun _ => 6, .range 1 16, true, false⟩) rfl
    (by rw [hl]; rfl) (.inr rfl)
  have ha : (s.wrote (Reg.ISK_LINKl_CFG l) (regDesc 11 2) (Fld.ISK_LINKl_CFG.EN.put 1 cfg)).a = Reg.ISK_LINKl_CFG l := rfl
  have ho : (s.wrote (Reg.ISK_LINKl_CFG l) (regDesc 11 2) (Fld.ISK_LINKl_CFG.EN.put 1 cfg)).old = s.reg (Reg.ISK_LINKl_CFG l) := rfl
  generalize s.wrote (Reg.ISK_LINKl_CFG l) (regDesc 11 2) (Fld.ISK_LINKl_CFG.EN.put 1 cfg) = x at hs h1 h2 ha ho
  dsimp only [Clamp.apply] at h1 h2
  rw [Bits.of_put Fld.ISK_LINKl_CFG.EN 1 _ (by decide)] at h1
  rw [Bits.of_put_other _ _ (by decide)] at h2
  have h2' : Fld.ISK_LINKl_CFG.NODES.of x.new = clampNat 1 16 (Fld.ISK_LINKl_CFG.NODES.of cfg) := by
    rw [h2]
    refine Nat.mod_eq_of_lt ?_
    show _ < 32
    unfold clampNat
    omega
  have hput : s.putIsk x = (s.setReg (Reg.ISK_LINKl_CFG l) x.new).linkCfgWritten l (s.reg (Reg.ISK_LINKl_CFG l)) := by
    unfold State.putIsk
    dsimp only
    rw [ha, e1, ho]
  rw [hput] at hs
  dsimp only at hs
  have hen : (s.setReg (Reg.ISK_LINKl_CFG l) x.new).iskEn l = true := by
    unfold State.iskEn State.iskCfg
    rw [State.fld_setReg_same, h1]
    rfl
  have hreg : ∀ b, b ≠ Reg.ISK_LINKl_CFG l → (s.setReg (Reg.ISK_LINKl_CFG l) x.new).reg b = s.reg b := fun b hb =>
    s.reg_setReg_other _ hb
  have hnodes : (s.setReg (Reg.ISK_LINKl_CFG l) x.new).iskNodes l = clampNat 1 16 (Fld.ISK_LINKl_CFG.NODES.of cfg) := by
    unfold State.iskNodes State.iskCfg
    rw [State.fld_setReg_same, h2']
  generalize s.setReg (Reg.ISK_LINKl_CFG l) x.new = v at hs hen hreg hnodes
  have hother : v.iskEn (1 - l) = s.iskEn (1 - l) := by
    unfold State.iskEn State.iskCfg State.fld
    rw [hreg _ e2]
  have hmap : ∀ j n, v.nodeMap j n = s.nodeMap j n := fun j n => by
    unfold State.nodeMap State.fld
    rw [hreg _ (reg_ne (regNo_ISK_LINKl_MAPj _ _) (regNo_ISK_LINKl_CFG _))]
  have hlm : v.linkMap l = (List.range (clampNat 1 16 (Fld.ISK_LINKl_CFG.NODES.of cfg))).map (s.nodeMap l) := by
    unfold State.linkMap
    rw [hnodes]
    exact List.map_congr_left fun n _ => hmap l n
  have hlo : v.linkMap (1 - l) = s.linkMap (1 - l) := by
    unfold State.linkMap State.iskNodes State.iskCfg State.fld
    rw [hreg _ e2]
    exact List.map_congr_left fun n _ => hmap _ n
  have hwas : Fld.ISK_LINKl_CFG.EN.on (s.reg (Reg.ISK_LINKl_CFG l)) = false := by
    have hlt : s.fld (Reg.ISK_LINKl_CFG l) Fld.ISK_LINKl_CFG.EN < 2 ^ 1 := Bits.of_lt Fld.ISK_LINKl_CFG.EN _
    have hne : s.fld (Reg.ISK_LINKl_CFG l) Fld.ISK_LINKl_CFG.EN ≠ 1 := by
      intro e
      unfold State.iskEn State.iskCfg at h0
      rw [e] at h0
      exact absurd h0 (by decide)
    have hz : s.fld (Reg.ISK_LINKl_CFG l) Fld.ISK_LINKl_CFG.EN = 0 := by omega
    show ((s.fld (Reg.ISK_LINKl_CFG l) Fld.ISK_LINKl_CFG.EN) != 0) = false
    rw [hz]
    rfl
  have hlw : v.linkCfgWritten l (s.reg (Reg.ISK_LINKl_CFG l)) = v.linkEnable l := by
    unfold State.linkCfgWritten
    dsimp only
    rw [hwas, hen]
    exact if_pos rfl
  rw [hlw] at hs
  rw [← hother, ← hlm, ← hlo]
  constructor
  · intro hc
    rw [v.linkEnable_begins hc] at hs
    constructor
    · unfold State.iskEn State.iskCfg
      rw [hs.fldOf (regNo_ISK_LINKl_CFG _), State.linkDown_frame.fld (regNo_ISK_LINKl_CFG _), State.setLink_frame.fld (regNo_ISK_LINKl_CFG _),
        State.fld_setLk]
      exact hen
    · rw [hs.fldOf (regNo_ISK_LINKl_STAT _), State.linkDown_frame.fld (regNo_ISK_LINKl_STAT _)]
      unfold State.setLink
      rw [State.fld_setFld _ _ Fld.ISK_LINKl_STAT.STATE _ (by decide)]
      rfl
  · intro hc
    rw [v.linkEnable_refused hc] at hs
    constructor
    · unfold State.iskEn State.iskCfg
      rw [hs.fldOf (regNo_ISK_LINKl_CFG _), State.event_frame.fld (regNo_ISK_LINKl_CFG _), State.fld_setFld _ _ Fld.ISK_LINKl_CFG.EN _ (by decide)]
      rfl
    · rw [hs.regOf (regNo_ISK_LINKl_STAT _), State.event_frame.reg (regNo_ISK_LINKl_STAT _)]
      unfold State.setFld
      rw [State.reg_setReg_other _ _ (reg_ne (regNo_ISK_LINKl_STAT _) (regNo_ISK_LINKl_CFG l)), hreg _ (reg_ne (regNo_ISK_LINKl_STAT _) (regNo_ISK_LINKl_CFG l))]

/-! ### Doorbells of controllers and ports -/

theorem indexIn_lt {n : Nat} {w : Word} (h : w.toNat % 2 ^ 12 < n) : indexIn n w = some (w.toNat % 2 ^ 12) := by
  unfold indexIn
  exact if_pos h

theorem indexIn_ge {n : Nat} {w : Word} (h : n ≤ w.toNat % 2 ^ 12) : indexIn n w = none := by
  unfold indexIn
  exact if_neg (Nat.not_lt.2 h)

theorem State.canCtl_setCanCtl (s : State) (c n : Nat) (x : CanCtl) :
    (s.setCanCtl c x).canCtl n = if n = c then x else s.canCtl n := tabGet_tabSet _ _ _ _ _

theorem State.ethPort_setEthPort (s : State) (c n : Nat) (x : EthPort) :
    (s.setEthPort c x).ethPort n = if n = c then x else s.ethPort n := tabGet_tabSet _ _ _ _ _

theorem State.bell_can (s : State) (off : Nat) (w : Word) (c : Nat) : (s.bellStored off w).snooped.canCtl c = s.canCtl c := rfl
theorem State.bell_eth (s : State) (off : Nat) (w : Word) (c : Nat) : (s.bellStored off w).snooped.ethPort c = s.ethPort c := rfl
theorem State.bell_canTx (s : State) (off : Nat) (w : Word) (c : Nat) : (s.bellStored off w).snooped.canTxSize c = s.canTxSize c := rfl
theorem State.bell_canRx (s : State) (off : Nat) (w : Word) (c : Nat) : (s.bellStored off w).snooped.canRxSize c = s.canRxSize c := rfl
theorem State.bell_ethTx (s : State) (off : Nat) (w : Word) (c : Nat) : (s.bellStored off w).snooped.ethTxSize c = s.ethTxSize c := rfl
theorem State.bell_ethRx (s : State) (off : Nat) (w : Word) (c : Nat) : (s.bellStored off w).snooped.ethRxSize c = s.ethRxSize c := rfl
theorem State.bell_now (s : State) (off : Nat) (w : Word) : (s.bellStored off w).snooped.now = s.now + 4 * esPerFc :=
  Nat.max_eq_right (Nat.le_add_right _ _)

theorem canTxDoorbell_does : ∀ (c : Fin 4) (w : Word) (s : State), Does (.canTxDoorbell c w) s fun t =>
    t.sram (doorbell + 0x100 + 8 * c.val) = w ∧ t.now = s.now + 4 * esPerFc ∧
    (t.canCtl c).txPi = if w.toNat % 2 ^ 12 < s.canTxSize c then w.toNat % 2 ^ 12 else (s.canCtl c).txPi := by
  intro c w s
  refine ⟨_, exec_canTxDoorbell.trans rfl, ?_⟩
  dsimp only
  have hf := State.canTxBell_frame (s := (s.bellStored (doorbell + 0x100 + 8 * c.val) w).snooped) (x1 := c) (x2 := w)
  have h1 := ((hf.sram (doorbell + 0x100 + 8 * c.val)).trans ((State.snooped_frame).sram _)).trans (s.bellStored_sram _ w)
  have h2 := (hf.now (by decide)).trans (s.bell_now (doorbell + 0x100 + 8 * c.val) w)
  refine ⟨h1, h2, ?_⟩
  show (State.canCtl (State.canTxBell _ _ _) _).txPi = _
  unfold State.canTxBell
  rw [s.bell_canTx (doorbell + 0x100 + 8 * c.val) w]
  by_cases h : w.toNat % 2 ^ 12 < s.canTxSize c
  · rw [indexIn_lt h, if_pos h]
    dsimp only
    rw [State.canCtl_setCanCtl, if_pos rfl]
  · rw [indexIn_ge (Nat.not_lt.1 h), if_neg h]
    dsimp only
    rw [s.bell_can]

theorem canRxConsumerWrite_does : ∀ (c : Fin 4) (w : Word) (s : State), Does (.canRxConsumerWrite c w) s fun t =>
    t.sram (doorbell + 0x104 + 8 * c.val) = w ∧ t.now = s.now + 4 * esPerFc ∧
    (t.canCtl c).rxCi = if w.toNat % 2 ^ 12 < s.canRxSize c then w.toNat % 2 ^ 12 else (s.canCtl c).rxCi := by
  intro c w s
  refine ⟨_, exec_canRxConsumerWrite.trans rfl, ?_⟩
  dsimp only
  have hf := State.canRxBell_frame (s := (s.bellStored (doorbell + 0x104 + 8 * c.val) w).snooped) (x1 := c) (x2 := w)
  have h1 := ((hf.sram (doorbell + 0x104 + 8 * c.val)).trans ((State.snooped_frame).sram _)).trans (s.bellStored_sram _ w)
  have h2 := (hf.now (by decide)).trans (s.bell_now (doorbell + 0x104 + 8 * c.val) w)
  refine ⟨h1, h2, ?_⟩
  show (State.canCtl (State.canRxBell _ _ _) _).rxCi = _
  unfold State.canRxBell
  rw [s.bell_canRx (doorbell + 0x104 + 8 * c.val) w]
  by_cases h : w.toNat % 2 ^ 12 < s.canRxSize c
  · rw [indexIn_lt h, if_pos h]
    dsimp only
    rw [State.canCtl_setCanCtl, if_pos rfl]
  · rw [indexIn_ge (Nat.not_lt.1 h), if_neg h]
    dsimp only
    rw [s.bell_can]

theorem ethTxDoorbell_does : ∀ (c : Fin 2) (w : Word) (s : State), Does (.ethTxDoorbell c w) s fun t =>
    t.sram (doorbell + 0x200 + 8 * c.val) = w ∧ t.now = s.now + 4 * esPerFc ∧
    (t.ethPort c).txPi = if w.toNat % 2 ^ 12 < s.ethTxSize c then w.toNat % 2 ^ 12 else (s.ethPort c).txPi := by
  intro c w s
  refine ⟨_, exec_ethTxDoorbell.trans rfl, ?_⟩
  dsimp only
  have hf := State.ethTxBell_frame (s := (s.bellStored (doorbell + 0x200 + 8 * c.val) w).snooped) (x1 := c) (x2 := w)
  have h1 := ((hf.sram (doorbell + 0x200 + 8 * c.val)).trans ((State.snooped_frame).sram _)).trans (s.bellStored_sram _ w)
  have h2 := (hf.now (by decide)).trans (s.bell_now (doorbell + 0x200 + 8 * c.val) w)
  refine ⟨h1, h2, ?_⟩
  show (State.ethPort (State.ethTxBell _ _ _) _).txPi = _
  unfold State.ethTxBell
  rw [s.bell_ethTx (doorbell + 0x200 + 8 * c.val) w]
  by_cases h : w.toNat % 2 ^ 12 < s.ethTxSize c
  · rw [indexIn_lt h, if_pos h]
    dsimp only
    rw [State.ethPort_setEthPort, if_pos rfl]
  · rw [indexIn_ge (Nat.not_lt.1 h), if_neg h]
    dsimp only
    rw [s.bell_eth]

theorem ethRxConsumerWrite_does : ∀ (c : Fin 2) (w : Word) (s : State), Does (.ethRxConsumerWrite c w) s fun t =>
    t.sram (doorbell + 0x204 + 8 * c.val) = w ∧ t.now = s.now + 4 * esPerFc ∧
    (t.ethPort c).rxCi = if w.toNat % 2 ^ 12 < s.ethRxSize c then w.toNat % 2 ^ 12 else (s.ethPort c).rxCi := by
  intro c w s
  refine ⟨_, exec_ethRxConsumerWrite.trans rfl, ?_⟩
  dsimp only
  have hf := State.ethRxBell_frame (s := (s.bellStored (doorbell + 0x204 + 8 * c.val) w).snooped) (x1 := c) (x2 := w)
  have h1 := ((hf.sram (doorbell + 0x204 + 8 * c.val)).trans ((State.snooped_frame).sram _)).trans (s.bellStored_sram _ w)
  have h2 := (hf.now (by decide)).trans (s.bell_now (doorbell + 0x204 + 8 * c.val) w)
  refine ⟨h1, h2, ?_⟩
  show (State.ethPort (State.ethRxBell _ _ _) _).rxCi = _
  unfold State.ethRxBell
  rw [s.bell_ethRx (doorbell + 0x204 + 8 * c.val) w]
  by_cases h : w.toNat % 2 ^ 12 < s.ethRxSize c
  · rw [indexIn_lt h, if_pos h]
    dsimp only
    rw [State.ethPort_setEthPort, if_pos rfl]
  · rw [indexIn_ge (Nat.not_lt.1 h), if_neg h]
    dsimp only
    rw [s.bell_eth]

/-! ### CTRL of a controller, TXCTL of a port -/

/-- A reached field that a clamp across fields leaves alone. -/
theorem IsReg.new_fldx {a u k i : Nat} (h : IsReg a u k i) {s : State} {w : Word} (j : Nat) {f : FieldDesc}
    (hx : ∀ v, f.bits.of (s.crossClamp a v) = f.bits.of v) (hj : (regDesc u k).fields[j]? = some f)
    (hr : f.reached (.core 0) s.locked = true) (hacc : f.access = .rw ∨ f.access = .rwl) (hu : u ≠ 12 := by decide) :
    f.bits.of (s.wrote a (regDesc u k) w).new = f.clamp.apply (f.bits.of w) % 2 ^ f.bits.width := by
  have hf := regAt_apart h.at
  have hb := fieldsApart_at hf hj
  have hn : f.bits.of (s.wrote a (regDesc u k) w).new =
      f.bits.of ((regDesc u k).written (.core 0) s.locked (s.reg a) w 0xFFFFFFFF).1 := by
    unfold State.wrote State.written
    rw [s.settled_word (h.2.1 ▸ hu)]
    exact hx _
  have h1 : (f.access != .wo) = true := by rcases hacc with e | e <;> rw [e] <;> rfl
  have h2 : f.access ≠ .w1c := by rcases hacc with e | e <;> rw [e] <;> exact fun x => nomatch x
  rw [hn, RegDesc.written_of j hf hj, hr, h1, FieldDesc.written_full h2 (by omega) hb.2]
  rfl

theorem Bits.of_and_zero {f : Bits} {w m : Word} (h : f.of m = 0) : f.of (w &&& m) = 0 := by
  apply Nat.eq_of_testBit_eq
  intro i
  have hi := congrArg (fun n => n.testBit i) h
  simp only [Bits.testBit_of, Nat.zero_testBit] at hi
  rw [Bits.testBit_of, BitVec.getLsbD_and, Nat.zero_testBit]
  revert hi
  cases decide (i < f.width) <;> cases m.getLsbD (f.lo + i) <;> simp

theorem can_place : (∀ c : Fin 4, IsReg (Reg.CAN_CTRL c) 13 0 c ∧ canOf (Reg.CAN_CTRL c) = c.val ∧ canOff (Reg.CAN_CTRL c) = 0 ∧
      Fld.CAN_CTRL.TXFLUSH.of (plainMask (Reg.CAN_CTRL c)) = 0 ∧ Fld.CAN_CTRL.TXRESUME.of (plainMask (Reg.CAN_CTRL c)) = 0 ∧
      Fld.CAN_CTRL.INIT.of (plainMask (Reg.CAN_CTRL c)) = 1) ∧
    (regDesc 13 0).reach (.core 0) false ≠ 0 ∧ Fld.CAN_CTRL.TXFLUSH.of ((regDesc 13 0).reach (.core 0) false) = 1 ∧
    Fld.CAN_CTRL.TXRESUME.of ((regDesc 13 0).reach (.core 0) false) = 1 := by decide +kernel

/-- What a write to CTRL of a controller leads to. -/
theorem State.canCtrl_stored {s : State} {c : Fin 4} {w : Word} {busy : Bool} (h : s.pwr.restoring = false) (hl : s.locked = false) :
    ∃ v ones : Word, Fld.CAN_CTRL.INIT.of v = Fld.CAN_CTRL.INIT.of w ∧ Fld.CAN_CTRL.TXFLUSH.on ones = Fld.CAN_CTRL.TXFLUSH.on w ∧
      Fld.CAN_CTRL.TXRESUME.on ones = Fld.CAN_CTRL.TXRESUME.on w ∧
      Stored (Reg.CAN_CTRL c) ((s.setReg (Reg.CAN_CTRL c) v).canCtrlWritten c (s.canInit c) (busy || s.canBusy c) ones)
        (s.blockStore 0 (Reg.CAN_CTRL c) w busy) := by
  obtain ⟨hr, e1, e2, -⟩ := can_place.1 c
  have hs := hr.stored (s := s) (w := w) (busy := busy) (by decide) h (by rw [hl]; exact can_place.2.1)
  rw [State.put_can (x := s.wrote (Reg.CAN_CTRL c) (regDesc 13 0) _) hr.2.1] at hs
  have hx : ∀ v, Fld.CAN_CTRL.INIT.of (s.crossClamp (Reg.CAN_CTRL c) v) = Fld.CAN_CTRL.INIT.of v := by
    intro v
    unfold State.crossClamp
    dsimp only
    rw [hr.2.1, if_neg (by decide), if_neg (by decide), if_neg (by decide), if_neg (by decide), if_neg (by decide), if_neg (by decide),
      if_neg (by decide), if_neg (by decide), if_neg (by decide), if_neg (by decide), if_pos rfl]
    unfold State.clampCan
    dsimp only
    rw [e2, if_pos rfl]
    split
    · exact Bits.of_put_other _ _ (by decide)
    · rfl
  have hn := hr.new_fldx (s := s) (w := w) 0 (f := ⟨Fld.CAN_CTRL.INIT, .rw, fun _ => 1, .none, false, false⟩) hx rfl
    (by rw [hl]; rfl) (.inl rfl)
  have h1 : Fld.CAN_CTRL.TXFLUSH.on (s.wrote (Reg.CAN_CTRL c) (regDesc 13 0) w).ones = Fld.CAN_CTRL.TXFLUSH.on w :=
    State.wrote_ones_on (by rw [hl]; exact can_place.2.2.1)
  have h2 : Fld.CAN_CTRL.TXRESUME.on (s.wrote (Reg.CAN_CTRL c) (regDesc 13 0) w).ones = Fld.CAN_CTRL.TXRESUME.on w :=
    State.wrote_ones_on (by rw [hl]; exact can_place.2.2.2)
  have ha : (s.wrote (Reg.CAN_CTRL c) (regDesc 13 0) w).a = Reg.CAN_CTRL c := rfl
  have ho : (s.wrote (Reg.CAN_CTRL c) (regDesc 13 0) w).old = s.reg (Reg.CAN_CTRL c) := rfl
  generalize s.wrote (Reg.CAN_CTRL c) (regDesc 13 0) w = x at hs hn h1 h2 ha ho
  dsimp only [Clamp.apply] at hn
  rw [Nat.mod_eq_of_lt (Bits.of_lt _ _)] at hn
  refine ⟨x.new, x.ones, hn, h1, h2, ?_⟩
  have hput : (s.putCan x (busy || s.canBusy (canOf x.a))).1 =
      (s.setReg (Reg.CAN_CTRL c) x.new).canCtrlWritten c (s.canInit c) (busy || s.canBusy c) x.ones := by
    unfold State.putCan
    dsimp only
    rw [ha, e1, if_pos rfl, ho]
    rfl
  rwa [hput] at hs

theorem State.canInit_setReg (s : State) (c : Nat) (v : Word) :
    (s.setReg (Reg.CAN_CTRL c) v).canInit c = Fld.CAN_CTRL.INIT.on v := by
  unfold State.canInit State.on
  rw [State.fld_setReg_same]
  rfl

theorem Bits.on_of {f : Bits} {v w : Word} (h : f.of v = f.of w) : f.on v = f.on w := by unfold Bits.on; rw [h]

theorem canTxresume_does : ∀ (c : Fin 4) (s : State), s.pwr.restoring = false → s.locked = false → Does (.canTxresume c) s fun t =>
    t.canHalted c = false ∧ t.canInit c = s.canInit c ∧ t.can = s.can := by
  intro c s h hl
  refine ⟨_, exec_canTxresume.trans rfl, ?_⟩
  dsimp only
  generalize hw : s.withField (Reg.CAN_CTRL c) Fld.CAN_CTRL.TXRESUME 1 = w
  obtain ⟨v, ones, h1, h2, h3, hs⟩ := State.canCtrl_stored (s := s) (c := c) (w := w) (busy := false) h hl
  obtain ⟨-, -, -, p1, p2, p3⟩ := can_place.1 c
  have w1 : Fld.CAN_CTRL.INIT.of w = Fld.CAN_CTRL.INIT.of (s.reg (Reg.CAN_CTRL c)) := by
    rw [← hw]
    unfold State.withField
    rw [Bits.of_put_other _ _ (by decide)]
    exact Bits.of_and p3
  have w2 : Fld.CAN_CTRL.TXFLUSH.on w = false := by
    rw [← hw]
    unfold State.withField Bits.on
    rw [Bits.of_put_other _ _ (by decide), Bits.of_and_zero p1]
    rfl
  have w3 : Fld.CAN_CTRL.TXRESUME.on w = true := by
    rw [← hw]
    unfold State.withField Bits.on
    rw [Bits.of_put Fld.CAN_CTRL.TXRESUME 1 _ (by decide)]
    rfl
  have hi : (s.setReg (Reg.CAN_CTRL c) v).canInit c = s.canInit c := by
    rw [State.canInit_setReg]
    exact Bits.on_of (h1.trans w1)
  have hcan : (s.setReg (Reg.CAN_CTRL c) v).can = s.can := rfl
  generalize s.setReg (Reg.CAN_CTRL c) v = y at hs hi hcan
  have e : y.canCtrlWritten c (s.canInit c) (false || s.canBusy c) ones = y.canResume c := by
    unfold State.canCtrlWritten
    rw [hi, h2, h3, w2, w3]
    cases s.canInit c <;> rfl
  rw [e] at hs
  refine ⟨?_, ?_, ?_⟩
  · unfold State.canHalted
    rw [hs.onOf (regNo_CAN_TXIDX _)]
    unfold State.canResume State.on
    rw [State.fld_setFld _ _ Fld.CAN_TXIDX.HALT _ (by decide)]
    rfl
  · rw [← hi]
    unfold State.canInit
    rw [hs.onOf (regNo_CAN_CTRL _), State.canResume_frame.on (regNo_CAN_CTRL _)]
  · rw [hs.can, State.canResume_frame.can (by decide), hcan]

theorem State.canAbort_ctl (s : State) (c : Nat) (p : CanTx → Bool) :
    (s.canAbort c p).canCtl c = { s.canCtl c with staged := (s.canCtl c).staged.filter fun f => !p f } := by
  unfold State.canAbort
  extract_lets x out u
  have hf : Frame Foot.canConfirmUnsent u (out.foldl (fun s f => s.canConfirmUnsent c 3 f) u) :=
    Frame.foldl (Frame.refl _ u) fun a k h => Frame.step State.canConfirmUnsent_frame h
  have e : (out.foldl (fun s f => s.canConfirmUnsent c 3 f) u).canCtl c = u.canCtl c :=
    congrArg (fun q => tabGet ({} : CanCtl) q c) (hf.can (by decide))
  rw [e]
  unfold u
  rw [State.canCtl_setCanCtl, if_pos rfl]

theorem State.canCtl_of {s t : State} (h : t.can = s.can) (c : Nat) : t.canCtl c = s.canCtl c :=
  congrArg (fun q => tabGet ({} : CanCtl) q c) h

theorem State.canFlush_does (s : State) (c : Nat) :
    (s.canHalted c = true → (s.canFlush c).canHalted c = false ∧ (s.canFlush c).canTxIdx c = (s.canCtl c).txPi % 2 ^ 12 ∧
      (s.canFlush c).canCtl c = { s.canCtl c with staged := (s.canCtl c).staged.filter (·.started) }) ∧
    (s.canHalted c = false → s.canFlush c = s) := by
  unfold State.canFlush
  constructor
  · intro h
    rw [h, if_neg (by decide)]
    extract_lets pi e
    have hc := s.canAbort_ctl c fun f => !f.started
    generalize s.canAbort c (fun f => !f.started) = u at hc
    have hh : ((u.canResume c).setCanTxIdx c pi e).fld (Reg.CAN_TXIDX c) Fld.CAN_TXIDX.HALT = 0 := by
      unfold State.setCanTxIdx
      rw [State.fld_setFld_field _ _ (f := Fld.CAN_TXIDX.EPOCH) (g := Fld.CAN_TXIDX.HALT) _ (by decide),
        State.fld_setFld_field _ _ (f := Fld.CAN_TXIDX.IDX) (g := Fld.CAN_TXIDX.HALT) _ (by decide)]
      unfold State.canResume
      rw [State.fld_setFld _ _ Fld.CAN_TXIDX.HALT _ (by decide)]
      rfl
    refine ⟨?_, ?_, ?_⟩
    · unfold State.canHalted State.on
      rw [hh]
      rfl
    · unfold State.canTxIdx State.setCanTxIdx
      rw [State.fld_setFld_field _ _ (f := Fld.CAN_TXIDX.EPOCH) (g := Fld.CAN_TXIDX.IDX) _ (by decide),
        State.fld_setFld _ _ Fld.CAN_TXIDX.IDX _ (by decide)]
    · have hk : ((u.canResume c).setCanTxIdx c pi e).canCtl c = u.canCtl c := rfl
      rw [hk, hc]
      simp only [Bool.not_not]
      rfl
  · intro h
    rw [h]
    rfl

theorem canTxflush_does : ∀ (c : Fin 4) (s : State), s.pwr.restoring = false → s.locked = false → Does (.canTxflush c) s fun t =>
    t.canInit c = s.canInit c ∧
    (s.canHalted c = true → t.canHalted c = false ∧ t.canTxIdx c = (s.canCtl c).txPi % 2 ^ 12 ∧
      (t.canCtl c).staged = (s.canCtl c).staged.filter (·.started)) ∧
    (s.canHalted c = false → t.can = s.can ∧ t.canTxIdx c = s.canTxIdx c) := by
  intro c s h hl
  refine ⟨_, exec_canTxflush.trans rfl, ?_⟩
  dsimp only
  generalize hw : s.withField (Reg.CAN_CTRL c) Fld.CAN_CTRL.TXFLUSH 1 = w
  obtain ⟨v, ones, h1, h2, h3, hs⟩ := State.canCtrl_stored (s := s) (c := c) (w := w) (busy := false) h hl
  obtain ⟨-, -, -, p1, p2, p3⟩ := can_place.1 c
  have w1 : Fld.CAN_CTRL.INIT.of w = Fld.CAN_CTRL.INIT.of (s.reg (Reg.CAN_CTRL c)) := by
    rw [← hw]
    unfold State.withField
    rw [Bits.of_put_other _ _ (by decide)]
    exact Bits.of_and p3
  have w2 : Fld.CAN_CTRL.TXFLUSH.on w = true := by
    rw [← hw]
    unfold State.withField Bits.on
    rw [Bits.of_put Fld.CAN_CTRL.TXFLUSH 1 _ (by decide)]
    rfl
  have hi : (s.setReg (Reg.CAN_CTRL c) v).canInit c = s.canInit c := by
    rw [State.canInit_setReg]
    exact Bits.on_of (h1.trans w1)
  have hcan : (s.setReg (Reg.CAN_CTRL c) v).can = s.can := rfl
  have hx : (s.setReg (Reg.CAN_CTRL c) v).reg (Reg.CAN_TXIDX c) = s.reg (Reg.CAN_TXIDX c) :=
    s.reg_setReg_other _ (reg_ne (regNo_CAN_TXIDX _) (regNo_CAN_CTRL _))
  generalize s.setReg (Reg.CAN_CTRL c) v = y at hs hi hcan hx
  have e : y.canCtrlWritten c (s.canInit c) (false || s.canBusy c) ones = y.canFlush c := by
    unfold State.canCtrlWritten
    rw [hi, h2, w2]
    cases s.canInit c <;> rfl
  rw [e] at hs
  have hh : y.canHalted c = s.canHalted c := by
    unfold State.canHalted State.on State.fld
    rw [hx]
  have hy := State.canCtl_of hcan c
  have hd := y.canFlush_does c
  rw [hh, hy] at hd
  have hf := State.canFlush_frame (s := y) (x1 := c)
  refine ⟨?_, fun k => ⟨?_, ?_, ?_⟩, fun k => ⟨?_, ?_⟩⟩
  · rw [← hi]
    unfold State.canInit
    rw [hs.onOf (regNo_CAN_CTRL _), hf.on (regNo_CAN_CTRL _)]
  · refine Eq.trans ?_ (hd.1 k).1
    unfold State.canHalted
    rw [hs.onOf (regNo_CAN_TXIDX _)]
  · refine Eq.trans ?_ (hd.1 k).2.1
    unfold State.canTxIdx
    rw [hs.fldOf (regNo_CAN_TXIDX _)]
  · rw [State.canCtl_of hs.can, (hd.1 k).2.2]
  · rw [hs.can, hd.2 k, hcan]
  · unfold State.canTxIdx
    rw [hs.fldOf (regNo_CAN_TXIDX _), hd.2 k]
    unfold State.fld
    rw [hx]

theorem canInitSet_does : ∀ (c : Fin 4) (busy : Bool) (s : State), s.pwr.restoring = false → s.locked = false → s.canInit c = false →
    Does (.canInitSet c busy) s fun t => t.canInit c = true ∧
      ((busy || s.canBusy c) = true → (t.canCtl c).stopping = true ∧
        t.fld (Reg.CAN_STAT c) Fld.CAN_STAT.RUN = s.fld (Reg.CAN_STAT c) Fld.CAN_STAT.RUN) ∧
      ((busy || s.canBusy c) = false → t.fld (Reg.CAN_STAT c) Fld.CAN_STAT.RUN = 0 ∧ t.can = s.can) := by
  intro c busy s h hl h0
  refine ⟨_, exec_canInitSet.trans rfl, ?_⟩
  dsimp only
  generalize hw : s.withField (Reg.CAN_CTRL c) Fld.CAN_CTRL.INIT 1 = w
  obtain ⟨v, ones, h1, h2, h3, hs⟩ := State.canCtrl_stored (s := s) (c := c) (w := w) (busy := busy) h hl
  obtain ⟨-, -, -, p1, p2, p3⟩ := can_place.1 c
  have w1 : Fld.CAN_CTRL.INIT.on w = true := by
    rw [← hw]
    unfold State.withField Bits.on
    rw [Bits.of_put Fld.CAN_CTRL.INIT 1 _ (by decide)]
    rfl
  have w2 : Fld.CAN_CTRL.TXFLUSH.on w = false := by
    rw [← hw]
    unfold State.withField Bits.on
    rw [Bits.of_put_other _ _ (by decide), Bits.of_and_zero p1]
    rfl
  have w3 : Fld.CAN_CTRL.TXRESUME.on w = false := by
    rw [← hw]
    unfold State.withField Bits.on
    rw [Bits.of_put_other _ _ (by decide), Bits.of_and_zero p2]
    rfl
  have hi : (s.setReg (Reg.CAN_CTRL c) v).canInit c = true := by
    rw [State.canInit_setReg]
    exact (Bits.on_of h1).trans w1
  have hcan : (s.setReg (Reg.CAN_CTRL c) v).can = s.can := rfl
  have hx : (s.setReg (Reg.CAN_CTRL c) v).reg (Reg.CAN_STAT c) = s.reg (Reg.CAN_STAT c) :=
    s.reg_setReg_other _ (reg_ne (regNo_CAN_STAT _) (regNo_CAN_CTRL _))
  generalize s.setReg (Reg.CAN_CTRL c) v = y at hs hi hcan hx
  have e : y.canCtrlWritten c (s.canInit c) (busy || s.canBusy c) ones = y.canInitSet c (busy || s.canBusy c) := by
    unfold State.canCtrlWritten
    rw [hi, h0, h2, h3, w2, w3]
    rfl
  rw [e] at hs
  have hf := State.canInitSet_frame (s := y) (x1 := c) (x2 := busy || s.canBusy c)
  refine ⟨?_, ?_, ?_⟩
  · rw [← hi]
    unfold State.canInit
    rw [hs.onOf (regNo_CAN_CTRL _), hf.on (regNo_CAN_CTRL _)]
  · intro k
    rw [k] at hs
    unfold State.canInitSet at hs
    rw [if_pos rfl] at hs
    refine ⟨?_, ?_⟩
    · rw [State.canCtl_of hs.can, State.canCtl_setCanCtl, if_pos rfl]
    · rw [hs.fldOf (regNo_CAN_STAT _)]
      refine (State.fld_of_regs (s := y.setFld (Reg.CAN_STAT c) Fld.CAN_STAT.DET 0) rfl _ _).trans ?_
      rw [State.fld_setFld_field _ _ (f := Fld.CAN_STAT.DET) (g := Fld.CAN_STAT.RUN) _ (by decide)]
      unfold State.fld
      rw [hx]
  · intro k
    rw [k] at hs
    unfold State.canInitSet at hs
    rw [if_neg (by decide)] at hs
    refine ⟨?_, ?_⟩
    · rw [hs.fldOf (regNo_CAN_STAT _), State.fld_setFld _ _ Fld.CAN_STAT.RUN _ (by decide)]
      rfl
    · rw [hs.can, State.setFld_can, State.setFld_can, hcan]

theorem State.canInitClear_does (s : State) (c : Nat) : ((s.canInitClear c).canCtl c).nbt = s.reg (Reg.CAN_NBT c) ∧
    ((s.canInitClear c).canCtl c).dbt = s.reg (Reg.CAN_DBT c) ∧ ((s.canInitClear c).canCtl c).stopping = false ∧
    ((s.canInitClear c).canCtl c).recovering = ((s.canCtl c).recovering || s.canErrState c == 2) := by
  unfold State.canInitClear
  extract_lets x off u v
  have hv : v.canCtl c = { x with nbt := s.reg (Reg.CAN_NBT c), dbt := s.reg (Reg.CAN_DBT c), stopping := false, recovering := x.recovering || off } := by
    unfold v
    rw [State.canCtl_of (State.setFld_can _ _ _ _)]
    unfold u
    rw [State.canCtl_setCanCtl, if_pos rfl]
  split
  · unfold State.canDetect
    dsimp only
    rw [State.canCtl_setCanCtl, if_pos rfl, State.canCtl_of ((State.setFld_can _ _ _ _).trans (State.setFld_can _ _ _ _)), hv]
    exact ⟨rfl, rfl, rfl, rfl⟩
  · rw [hv]
    exact ⟨rfl, rfl, rfl, rfl⟩

theorem canInitClear_does : ∀ (c : Fin 4) (cfg : Word) (s : State), s.pwr.restoring = false → s.locked = false → s.canInit c = true →
    Does (.canInitClear c cfg) s fun t => t.canInit c = false ∧ (t.canCtl c).nbt = s.reg (Reg.CAN_NBT c) ∧
      (t.canCtl c).dbt = s.reg (Reg.CAN_DBT c) ∧ (t.canCtl c).stopping = false ∧
      (t.canCtl c).recovering = ((s.canCtl c).recovering || s.canErrState c == 2) := by
  intro c cfg s h hl h0
  refine ⟨_, exec_canInitClear.trans rfl, ?_⟩
  dsimp only
  obtain ⟨v, ones, h1, h2, h3, hs⟩ := State.canCtrl_stored (s := s) (c := c) (w := Fld.CAN_CTRL.INIT.put 0 cfg) (busy := false) h hl
  have w1 : Fld.CAN_CTRL.INIT.on (Fld.CAN_CTRL.INIT.put 0 cfg) = false := by
    unfold Bits.on
    rw [Bits.of_put Fld.CAN_CTRL.INIT 0 _ (by decide)]
    rfl
  have hi : (s.setReg (Reg.CAN_CTRL c) v).canInit c = false := by
    rw [State.canInit_setReg]
    exact (Bits.on_of h1).trans w1
  have hcan : (s.setReg (Reg.CAN_CTRL c) v).can = s.can := rfl
  have hn : (s.setReg (Reg.CAN_CTRL c) v).reg (Reg.CAN_NBT c) = s.reg (Reg.CAN_NBT c) :=
    s.reg_setReg_other _ (reg_ne (regNo_CAN_NBT _) (regNo_CAN_CTRL _))
  have hd : (s.setReg (Reg.CAN_CTRL c) v).reg (Reg.CAN_DBT c) = s.reg (Reg.CAN_DBT c) :=
    s.reg_setReg_other _ (reg_ne (regNo_CAN_DBT _) (regNo_CAN_CTRL _))
  have he : (s.setReg (Reg.CAN_CTRL c) v).reg (Reg.CAN_ERR c) = s.reg (Reg.CAN_ERR c) :=
    s.reg_setReg_other _ (reg_ne (regNo_CAN_ERR _) (regNo_CAN_CTRL _))
  generalize s.setReg (Reg.CAN_CTRL c) v = y at hs hi hcan hn hd he
  have e : ∃ u, Stored (Reg.CAN_CTRL c) u (s.blockStore 0 (Reg.CAN_CTRL c) (Fld.CAN_CTRL.INIT.put 0 cfg)) ∧
      (u.canCtl c).nbt = ((y.canInitClear c).canCtl c).nbt ∧ (u.canCtl c).dbt = ((y.canInitClear c).canCtl c).dbt ∧ (u.canCtl c).stopping = ((y.canInitClear c).canCtl c).stopping ∧
      (u.canCtl c).recovering = ((y.canInitClear c).canCtl c).recovering ∧ u.on (Reg.CAN_CTRL c) Fld.CAN_CTRL.INIT = (y.canInitClear c).on (Reg.CAN_CTRL c) Fld.CAN_CTRL.INIT := by
    have hcw : y.canCtrlWritten c (s.canInit c) (false || s.canBusy c) ones =
        if Fld.CAN_CTRL.TXFLUSH.on ones then (y.canInitClear c).canFlush c
        else if Fld.CAN_CTRL.TXRESUME.on ones then (y.canInitClear c).canResume c else y.canInitClear c := by
      unfold State.canCtrlWritten
      rw [hi, h0]
      rfl
    rw [hcw] at hs
    generalize y.canInitClear c = z at hs
    split at hs
    · refine ⟨z.canFlush c, hs, ?_⟩
      have hf := (State.canFlush_frame (s := z) (x1 := c)).on (f := Fld.CAN_CTRL.INIT) (regNo_CAN_CTRL c)
      cases hk : z.canHalted c
      · rw [(z.canFlush_does c).2 hk]
        exact ⟨rfl, rfl, rfl, rfl, rfl⟩
      · rw [((z.canFlush_does c).1 hk).2.2]
        exact ⟨rfl, rfl, rfl, rfl, hf⟩
    · split at hs
      · exact ⟨z.canResume c, hs, rfl, rfl, rfl, rfl, State.canResume_frame.on (regNo_CAN_CTRL _)⟩
      · exact ⟨z, hs, rfl, rfl, rfl, rfl, rfl⟩
  have hz := y.canInitClear_does c
  rw [hn, hd, State.canCtl_of hcan, show y.canErrState c = s.canErrState c by unfold State.canErrState State.fld; rw [he]] at hz
  have hy := (State.canInitClear_frame (s := y) (x1 := c)).on (f := Fld.CAN_CTRL.INIT) (regNo_CAN_CTRL c)
  obtain ⟨u, hs, a1, a2, a3, a4, a5⟩ := e
  rw [← a1, ← a2, ← a3, ← a4] at hz
  rw [State.canCtl_of hs.can]
  refine ⟨?_, hz⟩
  unfold State.canInit
  rw [hs.onOf (regNo_CAN_CTRL _), a5, hy]
  exact hi

end Sys2Proof.Machine
end

