-- ==== Sys2Proof/Laws/EffectWrites5.lean ====
section
/-! SUPPORT. Writes to ports, vehicle time, the host complex, the flash controller and the check units, and to any register. -/

set_option Elab.async false

namespace Sys2Proof.Machine

/-! ### Ports -/

theorem eth_place : (∀ p : Fin 2, IsReg (Reg.ETH_Pp_TXCTL p) 14 17 p ∧ ethPortOf (Reg.ETH_Pp_TXCTL p) = p.val ∧
      Reg.ETH_Pp_TXCTL p ≠ Reg.ETH_VT_RATE ∧ Reg.ETH_Pp_TXCTL p ≠ Reg.ETH_VT_STEP ∧ Reg.ETH_Pp_TXCTL p ≠ Reg.ETH_VT_CTRL ∧
      Reg.ETH_Pp_TXCTL p ≠ Reg.ETH_MDIO ∧ Reg.ETH_Pp_TXCTL p ≠ Reg.ETH_Pp_RING p ∧
      Fld.ETH_Pp_TXCTL.TXFLUSH.of (plainMask (Reg.ETH_Pp_TXCTL p)) = 0) ∧
    (regDesc 14 17).reach (.core 0) false ≠ 0 ∧ Fld.ETH_Pp_TXCTL.TXFLUSH.of ((regDesc 14 17).reach (.core 0) false) = 1 ∧
    Fld.ETH_Pp_TXCTL.TXRESUME.of ((regDesc 14 17).reach (.core 0) false) = 1 := by decide +kernel

theorem State.ethTxctl_stored {s : State} {p : Fin 2} {w : Word} (h : s.pwr.restoring = false) (hl : s.locked = false) :
    ∃ v ones : Word, Fld.ETH_Pp_TXCTL.TXFLUSH.on ones = Fld.ETH_Pp_TXCTL.TXFLUSH.on w ∧
      Fld.ETH_Pp_TXCTL.TXRESUME.on ones = Fld.ETH_Pp_TXCTL.TXRESUME.on w ∧
      Stored (Reg.ETH_Pp_TXCTL p) ((s.setReg (Reg.ETH_Pp_TXCTL p) v).ethTxctlWritten p ones)
        (s.blockStore 0 (Reg.ETH_Pp_TXCTL p) w) := by
  obtain ⟨hr, e1, e2, e3, e4, e5, e6, -⟩ := eth_place.1 p
  have hs := hr.stored (s := s) (w := w) (busy := false) (by decide) h (by rw [hl]; exact eth_place.2.1)
  rw [State.put_eth (x := s.wrote (Reg.ETH_Pp_TXCTL p) (regDesc 14 17) _) hr.2.1] at hs
  have h1 : Fld.ETH_Pp_TXCTL.TXFLUSH.on (s.wrote (Reg.ETH_Pp_TXCTL p) (regDesc 14 17) w).ones = Fld.ETH_Pp_TXCTL.TXFLUSH.on w :=
    State.wrote_ones_on (by rw [hl]; exact eth_place.2.2.1)
  have h2 : Fld.ETH_Pp_TXCTL.TXRESUME.on (s.wrote (Reg.ETH_Pp_TXCTL p) (regDesc 14 17) w).ones = Fld.ETH_Pp_TXCTL.TXRESUME.on w :=
    State.wrote_ones_on (by rw [hl]; exact eth_place.2.2.2)
  have ha : (s.wrote (Reg.ETH_Pp_TXCTL p) (regDesc 14 17) w).a = Reg.ETH_Pp_TXCTL p := rfl
  generalize s.wrote (Reg.ETH_Pp_TXCTL p) (regDesc 14 17) w = x at hs h1 h2 ha
  refine ⟨x.new, x.ones, h1, h2, ?_⟩
  have hput : (s.putEth x).1 = (s.setReg (Reg.ETH_Pp_TXCTL p) x.new).ethTxctlWritten p x.ones := by
    unfold State.putEth
    dsimp only
    rw [ha, e1, if_neg e2, if_neg e3, if_neg e4, if_neg e5, if_neg e6, if_pos rfl]
  rwa [hput] at hs

theorem State.ethPort_of {s t : State} (h : t.eth = s.eth) (c : Nat) : t.ethPort c = s.ethPort c :=
  congrArg (fun q => tabGet ({} : EthPort) q c) h

theorem ethTxresume_does : ∀ (p : Fin 2) (s : State), s.pwr.restoring = false → s.locked = false → Does (.ethTxresume p) s fun t =>
    t.ethHalted p = false ∧ t.eth = s.eth ∧ t.ethTxIdx p = s.ethTxIdx p := by
  intro c s h hl
  refine ⟨_, exec_ethTxresume.trans rfl, ?_⟩
  dsimp only
  generalize hw : s.withField (Reg.ETH_Pp_TXCTL c) Fld.ETH_Pp_TXCTL.TXRESUME 1 = w
  obtain ⟨v, ones, h2, h3, hs⟩ := State.ethTxctl_stored (s := s) (p := c) (w := w) h hl
  have p1 := (eth_place.1 c).2.2.2.2.2.2.2
  have w2 : Fld.ETH_Pp_TXCTL.TXFLUSH.on w = false := by
    rw [← hw]
    unfold State.withField Bits.on
    rw [Bits.of_put_other _ _ (by decide), Bits.of_and_zero p1]
    rfl
  have w3 : Fld.ETH_Pp_TXCTL.TXRESUME.on w = true := by
    rw [← hw]
    unfold State.withField Bits.on
    rw [Bits.of_put Fld.ETH_Pp_TXCTL.TXRESUME 1 _ (by decide)]
    rfl
  have heth : (s.setReg (Reg.ETH_Pp_TXCTL c) v).eth = s.eth := rfl
  have hx : (s.setReg (Reg.ETH_Pp_TXCTL c) v).reg (Reg.ETH_Pp_IDX c) = s.reg (Reg.ETH_Pp_IDX c) :=
    s.reg_setReg_other _ (reg_ne (regNo_ETH_Pp_IDX _) (regNo_ETH_Pp_TXCTL _))
  generalize s.setReg (Reg.ETH_Pp_TXCTL c) v = y at hs heth hx
  have e : y.ethTxctlWritten c ones = y.ethResume c := by
    unfold State.ethTxctlWritten
    rw [h2, h3, w2, w3]
    rfl
  rw [e] at hs
  refine ⟨?_, ?_, ?_⟩
  · unfold State.ethHalted
    rw [hs.onOf (regNo_ETH_Pp_IDX _)]
    unfold State.ethResume State.on
    rw [State.fld_setFld _ _ Fld.ETH_Pp_IDX.HALT _ (by decide)]
    rfl
  · rw [hs.eth, State.ethResume_frame.eth (by decide), heth]
  · unfold State.ethTxIdx
    rw [hs.fldOf (regNo_ETH_Pp_IDX _)]
    unfold State.ethResume
    rw [State.fld_setFld_field _ _ (f := Fld.ETH_Pp_IDX.HALT) (g := Fld.ETH_Pp_IDX.TX) _ (by decide)]
    unfold State.fld
    rw [hx]

/-- Staging buffer, producer index and TX epoch of a port stay the same. -/
def PortKept (p : Nat) (s t : State) : Prop :=
  (t.ethPort p).staged = (s.ethPort p).staged ∧ (t.ethPort p).txPi = (s.ethPort p).txPi

theorem PortKept.of {p : Nat} {s t : State} (h : t.eth = s.eth) : PortKept p s t := by
  unfold PortKept
  rw [State.ethPort_of h]
  exact ⟨rfl, rfl⟩

theorem PortKept.trans {p : Nat} {s t u : State} (h : PortKept p s t) (h' : PortKept p t u) : PortKept p s u :=
  ⟨h'.1.trans h.1, h'.2.trans h.2⟩

theorem State.setBytes_eth (bs : List Byte) : ∀ (s : State) (a : Nat), (s.setBytes a bs).eth = s.eth := by
  induction bs with
  | nil => intro s a; rfl
  | cons b bs ih => intro s a; exact ih _ _

theorem State.fabricBytes_eth (s : State) (off : Nat) (bs : List Byte) : (s.fabricBytes off bs).eth = s.eth :=
  State.setBytes_eth bs _ _

theorem State.ethWriteEntry_port (s : State) (p q len type filter : Nat) (st : EthStamp) (tag : Word) (data : List Byte) :
    PortKept q s (s.ethWriteEntry p len type filter st tag data) := by
  unfold State.ethWriteEntry
  split
  · exact PortKept.of rfl
  · extract_lets x k ph x0 ws w7 s1 s2 wrap s3
    have h3 : s3.eth = s.eth := (State.setFld_eth _ _ _ _).trans
      ((State.fabricBytes_eth _ _ _).trans (by unfold s1; rw [State.fabricWords_eq]))
    split
    · unfold PortKept
      rw [State.ethPort_setEthPort]
      split
      · next e => subst e; exact ⟨rfl, rfl⟩
      · rw [State.ethPort_of h3]; exact ⟨rfl, rfl⟩
    · exact PortKept.of h3

theorem State.ethConfirmUnsent_port (s : State) (p q type : Nat) (f : EthTx) : PortKept q s (s.ethConfirmUnsent p type f) := by
  unfold State.ethConfirmUnsent
  split
  · have e : s.noStamp.2.eth = s.eth := rfl
    generalize hn : s.noStamp = n at e
    obtain ⟨st, u⟩ := n
    dsimp only
    refine PortKept.trans (PortKept.of e) ?_
    dsimp only
    unfold State.ethConfirm
    by_cases hc : f.confirm = true
    · rw [if_pos hc]
      exact State.ethWriteEntry_port _ _ _ _ _ _ _ _ _
    · rw [if_neg hc]
      exact PortKept.of rfl
  · exact PortKept.of rfl

theorem State.ethAbort_port (s : State) (p : Nat) : ((s.ethAbort p).ethPort p).staged = (s.ethPort p).staged.filter (·.started) ∧
    ((s.ethAbort p).ethPort p).txPi = (s.ethPort p).txPi := by
  unfold State.ethAbort
  extract_lets x out u
  have key : ∀ (l : List EthTx) (v : State), PortKept p v (l.foldl (fun s f => s.ethConfirmUnsent p 3 f) v) := by
    intro l
    induction l with
    | nil => intro v; exact PortKept.of rfl
    | cons f l ih => intro v; exact (v.ethConfirmUnsent_port p p 3 f).trans (ih _)
  rw [(key out u).1, (key out u).2]
  unfold u
  rw [State.ethPort_setEthPort, if_pos rfl]
  exact ⟨rfl, rfl⟩

theorem ethTxflush_does : ∀ (p : Fin 2) (s : State), s.pwr.restoring = false → s.locked = false → Does (.ethTxflush p) s fun t =>
    (s.ethHalted p = true → t.ethHalted p = false ∧ t.ethTxIdx p = (s.ethPort p).txPi % 2 ^ 12 ∧
      (t.ethPort p).staged = (s.ethPort p).staged.filter (·.started)) ∧
    (s.ethHalted p = false → t.eth = s.eth ∧ t.ethTxIdx p = s.ethTxIdx p) := by
  intro c s h hl
  refine ⟨_, exec_ethTxflush.trans rfl, ?_⟩
  dsimp only
  generalize hw : s.withField (Reg.ETH_Pp_TXCTL c) Fld.ETH_Pp_TXCTL.TXFLUSH 1 = w
  obtain ⟨v, ones, h2, h3, hs⟩ := State.ethTxctl_stored (s := s) (p := c) (w := w) h hl
  have w2 : Fld.ETH_Pp_TXCTL.TXFLUSH.on w = true := by
    rw [← hw]
    unfold State.withField Bits.on
    rw [Bits.of_put Fld.ETH_Pp_TXCTL.TXFLUSH 1 _ (by decide)]
    rfl
  have heth : (s.setReg (Reg.ETH_Pp_TXCTL c) v).eth = s.eth := rfl
  have hx : (s.setReg (Reg.ETH_Pp_TXCTL c) v).reg (Reg.ETH_Pp_IDX c) = s.reg (Reg.ETH_Pp_IDX c) :=
    s.reg_setReg_other _ (reg_ne (regNo_ETH_Pp_IDX _) (regNo_ETH_Pp_TXCTL _))
  generalize s.setReg (Reg.ETH_Pp_TXCTL c) v = y at hs heth hx
  have e : y.ethTxctlWritten c ones = y.ethFlush c := by
    unfold State.ethTxctlWritten
    rw [h2, w2]
    rfl
  rw [e] at hs
  have hh : y.ethHalted c = s.ethHalted c := by
    unfold State.ethHalted State.on State.fld
    rw [hx]
  unfold State.ethFlush at hs
  rw [hh] at hs
  constructor
  · intro k
    rw [k, if_neg (by decide)] at hs
    extract_lets u z z2 at hs
    have hu : (u.ethPort c).staged = (s.ethPort c).staged.filter (·.started) ∧ (u.ethPort c).txPi = (s.ethPort c).txPi := by
      have : u.ethPort c = (y.ethAbort c).ethPort c := State.ethPort_of (State.ethResume_frame.eth (by decide)) c
      rw [this, (y.ethAbort_port c).1, (y.ethAbort_port c).2, State.ethPort_of heth]
      exact ⟨rfl, rfl⟩
    have huh : u.fld (Reg.ETH_Pp_IDX c) Fld.ETH_Pp_IDX.HALT = 0 := by
      unfold u State.ethResume
      rw [State.fld_setFld _ _ Fld.ETH_Pp_IDX.HALT _ (by decide)]
      rfl
    have hz : z = u.ethPort c := rfl
    have hz2 : z2.ethPort c = { z with txEpoch := (z.txEpoch + (decide (z.txPi < u.ethTxIdx c)).toNat) % 256 } := by
      unfold z2
      rw [State.ethPort_setEthPort, if_pos rfl]
    have hz3 : z2.regs = u.regs := rfl
    refine ⟨?_, ?_, ?_⟩
    · unfold State.ethHalted
      rw [hs.onOf (regNo_ETH_Pp_IDX _)]
      unfold State.on
      rw [State.fld_setFld_field _ _ (f := Fld.ETH_Pp_IDX.TX) (g := Fld.ETH_Pp_IDX.HALT) _ (by decide), State.fld_of_regs hz3, huh]
      rfl
    · unfold State.ethTxIdx
      rw [hs.fldOf (regNo_ETH_Pp_IDX _), State.fld_setFld _ _ Fld.ETH_Pp_IDX.TX _ (by decide), hz, hu.2]
    · rw [State.ethPort_of hs.eth, State.ethPort_of (State.setFld_eth _ _ _ _), hz2, hz]
      exact hu.1
  · intro k
    rw [k] at hs
    refine ⟨?_, ?_⟩
    · rw [hs.eth]; exact heth
    · unfold State.ethTxIdx
      rw [hs.fldOf (regNo_ETH_Pp_IDX _)]
      exact congrArg Fld.ETH_Pp_IDX.TX.of hx

/-! ### Vehicle time and MDIO -/

theorem State.on_of_regs {s t : State} (h : t.regs = s.regs) (a : Nat) (f : Bits) : t.on a f = s.on a f :=
  congrArg (· != 0) (State.fld_of_regs h a f)

theorem vt_place : IsReg Reg.ETH_VT_RATE 14 2 0 ∧ IsReg Reg.ETH_VT_STEP 14 3 0 ∧ IsReg Reg.ETH_VT_CTRL 14 1 0 ∧ IsReg Reg.ETH_MDIO 14 10 0 ∧
    (regDesc 14 2).reach (.core 0) false ≠ 0 ∧ (regDesc 14 3).reach (.core 0) false = 0xFFFFFFFF ∧
    (regDesc 14 1).reach (.core 0) false ≠ 0 ∧ (∀ l, (regDesc 14 10).reach (.core 0) l ≠ 0) ∧
    Fld.ETH_VT_CTRL.SET.of ((regDesc 14 1).reach (.core 0) false) = 1 := by decide +kernel

/-- A field of 32 bits is the word. -/
theorem Bits.of_all (w : Word) : (⟨0, 32⟩ : Bits).of w = w.toNat := by
  unfold Bits.of
  rw [Nat.pow_zero, Nat.div_one]
  exact Nat.mod_eq_of_lt w.isLt

theorem Bits.put_all (v : Nat) (w : Word) : (⟨0, 32⟩ : Bits).put v w = BitVec.ofNat 32 v := by
  apply BitVec.eq_of_getLsbD_eq
  intro i hi
  rw [Bits.getLsbD_put _ _ _ _ hi, if_pos ⟨Nat.zero_le _, by show i < 0 + 32; omega⟩, BitVec.getLsbD_ofNat]
  simp [hi]

theorem State.vtSteered_vt (s : State) : s.vtSteered.vt = { s.vt with steered := some s.now } := by
  unfold State.vtSteered
  rw [State.refreshVt_frame.vt (by decide)]

theorem State.vtRate_vt (s : State) (w : Word) :
    (s.vtRate w).vt = { s.vt with base := s.vtAt s.now, baseAt := s.now, rate := w, steered := some s.now } := by
  unfold State.vtRate
  rw [State.vtSteered_vt]
  rfl

theorem State.vtAt_setReg (s : State) (a : Nat) (w : Word) (t : Nat) : (s.setReg a w).vtAt t = s.vtAt t := by
  unfold State.vtAt
  rw [State.setReg_vt]

/-- A steering on the bus takes effect at once. -/
theorem State.vtSteer_bus (s : State) (b : Bool) (v : VtSteer) (c : Nat) :
    s.vtSteer (b && !(Master.core c).isBus) v = s.vtTake v := by
  unfold State.vtSteer
  rw [show (!(Master.core c).isBus) = false from rfl, Bool.and_false]
  exact if_neg Bool.false_ne_true

theorem ethVtRateWrite_does : ∀ (w : Word) (s : State), s.pwr.restoring = false → s.locked = false →
    Does (.ethVtRateWrite w) s fun t => t.vt.base = s.vtAt s.now ∧ t.vt.baseAt = s.now ∧ t.vt.steered = some s.now ∧
      t.vt.rate = clampRate w ∧ t.reg Reg.ETH_VT_RATE = clampRate w ∧
      (-8000000 ≤ w.toInt ∧ w.toInt ≤ 8000000 → clampRate w = w) := by
  intro w s h hl
  refine ⟨_, exec_ethVtRateWrite.trans rfl, ?_⟩
  dsimp only
  have hr := vt_place.1
  have hs := hr.stored (s := s) (w := w) (busy := false) (by decide) h (by rw [hl]; exact vt_place.2.2.2.2.1)
  rw [State.put_eth (x := s.wrote Reg.ETH_VT_RATE (regDesc 14 2) _) hr.2.1] at hs
  have hnew : (s.wrote Reg.ETH_VT_RATE (regDesc 14 2) w).new = clampRate w := by
    have e : ((regDesc 14 2).written (.core 0) s.locked (s.reg Reg.ETH_VT_RATE) w 0xFFFFFFFF).1 = w := by
      have e1 := RegDesc.written_of (d := regDesc 14 2) (m := .core 0) (l := s.locked) (old := s.reg Reg.ETH_VT_RATE) (w := w) (mask := 0xFFFFFFFF)
        (f := ⟨Fld.ETH_VT_RATE.RATE, .rw, fun _ => 0, .cross, false, false⟩) 0 (regAt_apart hr.at) rfl
      rw [if_pos (by rw [hl]; rfl), FieldDesc.written_full (by simp) (by decide) (by decide)] at e1
      dsimp only [Clamp.apply] at e1
      rw [Nat.mod_eq_of_lt (Bits.of_lt _ _)] at e1
      rw [show Fld.ETH_VT_RATE.RATE = (⟨0, 32⟩ : Bits) from rfl, Bits.of_all, Bits.of_all] at e1
      exact BitVec.eq_of_toNat_eq e1
    unfold State.wrote State.written
    dsimp only
    rw [s.settled_word (by rw [hr.2.1]; decide), e]
    unfold State.crossClamp
    dsimp only
    rw [hr.2.1]
    repeat rw [if_neg (by decide)]
    rw [if_pos rfl]
    unfold State.clampEth
    rw [if_pos rfl]
  have ha : (s.wrote Reg.ETH_VT_RATE (regDesc 14 2) w).a = Reg.ETH_VT_RATE := rfl
  have hm : (s.wrote Reg.ETH_VT_RATE (regDesc 14 2) w).m = .core 0 := rfl
  generalize s.wrote Reg.ETH_VT_RATE (regDesc 14 2) w = x at hs hnew ha hm
  have hput : (s.putEth x).1 = (s.setReg Reg.ETH_VT_RATE (clampRate w)).vtRate (clampRate w) := by
    unfold State.putEth
    dsimp only
    rw [ha, if_pos rfl, hm, hnew]
    exact State.vtSteer_bus _ _ _ _
  rw [hput] at hs
  have hv := (s.setReg Reg.ETH_VT_RATE (clampRate w)).vtRate_vt (clampRate w)
  rw [State.setReg_vt, State.setReg_now, State.vtAt_setReg] at hv
  refine ⟨?_, ?_, ?_, ?_, ?_, ?_⟩
  · rw [hs.vt, hv]
  · rw [hs.vt, hv]
  · rw [hs.vt, hv]
  · rw [hs.vt, hv]
  · rw [hs.regOf regNo_ETH_VT_RATE, State.vtRate_frame.reg regNo_ETH_VT_RATE, State.reg_setReg_same]
  · intro hw
    unfold clampRate
    rw [Int.min_eq_right hw.2, Int.max_eq_right hw.1, BitVec.ofInt_toInt]

theorem ethVtStep_does : ∀ (w : Word) (s : State), s.pwr.restoring = false → s.locked = false →
    Does (.ethVtStep w) s fun t =>
      t.vt.base = (((s.vtAt s.now : Int) + w.toInt * 65536) % (vtModulus : Int)).toNat ∧ t.vt.baseAt = s.now ∧
      t.vt.steered = some s.now := by
  intro w s h hl
  refine ⟨_, exec_ethVtStep.trans rfl, ?_⟩
  dsimp only
  have hr := vt_place.2.1
  have hs := hr.stored (s := s) (w := w) (busy := false) (by decide) h (by rw [hl, vt_place.2.2.2.2.2.1]; decide)
  rw [State.put_eth (x := s.wrote Reg.ETH_VT_STEP (regDesc 14 3) _) hr.2.1] at hs
  have hone : (s.wrote Reg.ETH_VT_STEP (regDesc 14 3) w).ones = w := by
    show w &&& (regDesc 14 3).reach (.core 0) s.locked = w
    rw [hl, vt_place.2.2.2.2.2.1]
    exact BitVec.and_allOnes
  have ha : (s.wrote Reg.ETH_VT_STEP (regDesc 14 3) w).a = Reg.ETH_VT_STEP := rfl
  have hm : (s.wrote Reg.ETH_VT_STEP (regDesc 14 3) w).m = .core 0 := rfl
  generalize s.wrote Reg.ETH_VT_STEP (regDesc 14 3) w = x at hs hone ha hm
  have hput : (s.putEth x).1 = s.vtStep w := by
    unfold State.putEth
    dsimp only
    rw [ha, if_neg (by decide), if_pos rfl, hone, hm]
    exact State.vtSteer_bus _ _ _ _
  rw [hput] at hs
  unfold State.vtStep at hs
  extract_lets u b src1 at hs
  have hb : b = ((s.vtAt s.now : Int) + w.toInt * 65536) % (vtModulus : Int) := rfl
  refine ⟨?_, ?_, ?_⟩
  · rw [hs.vt, State.vtSteered_vt, ← hb]
  · rw [hs.vt, State.vtSteered_vt]; rfl
  · rw [hs.vt, State.vtSteered_vt]; rfl

theorem ethVtSet_does : ∀ s : State, s.pwr.restoring = false → s.locked = false → Does .ethVtSet s fun t =>
    t.vt.base = (((s.reg Reg.ETH_VT_SETSEC_LO).toNat + s.fld Reg.ETH_VT_SETSEC_HI Fld.ETH_VT_SETSEC_HI.SEC * 2 ^ 32) * 1000000000 +
      s.fld Reg.ETH_VT_SETNS Fld.ETH_VT_SETNS.NS) * 65536 ∧ t.vt.baseAt = s.now ∧ t.vt.steered = some s.now := by
  intro s h hl
  refine ⟨_, exec_ethVtSet.trans rfl, ?_⟩
  dsimp only
  generalize hw : s.withField Reg.ETH_VT_CTRL Fld.ETH_VT_CTRL.SET 1 = w
  have hr := vt_place.2.2.1
  have hs := hr.stored (s := s) (w := w) (busy := false) (by decide) h (by rw [hl]; exact vt_place.2.2.2.2.2.2.1)
  rw [State.put_eth (x := s.wrote Reg.ETH_VT_CTRL (regDesc 14 1) _) hr.2.1] at hs
  have hone : Fld.ETH_VT_CTRL.SET.on (s.wrote Reg.ETH_VT_CTRL (regDesc 14 1) w).ones = true := by
    rw [State.wrote_ones_on (by rw [hl]; exact vt_place.2.2.2.2.2.2.2.2), ← hw]
    unfold State.withField Bits.on
    rw [Bits.of_put Fld.ETH_VT_CTRL.SET 1 _ (by decide)]
    rfl
  have ha : (s.wrote Reg.ETH_VT_CTRL (regDesc 14 1) w).a = Reg.ETH_VT_CTRL := rfl
  have hm : (s.wrote Reg.ETH_VT_CTRL (regDesc 14 1) w).m = .core 0 := rfl
  generalize s.wrote Reg.ETH_VT_CTRL (regDesc 14 1) w = x at hs hone ha hm
  have hput : (s.putEth x).1 = ((s.setReg Reg.ETH_VT_CTRL x.new).refreshVt 0).vtSet := by
    unfold State.putEth
    dsimp only
    rw [ha, if_neg (by decide), if_neg (by decide), if_pos rfl, hm]
    unfold State.vtCtrlWritten
    dsimp only
    rw [if_pos hone]
    exact State.vtSteer_bus _ _ _ _
  rw [hput] at hs
  have hf := State.refreshVt_frame (s := s.setReg Reg.ETH_VT_CTRL x.new) (x1 := 0)
  have h1 : ((s.setReg Reg.ETH_VT_CTRL x.new).refreshVt 0).reg Reg.ETH_VT_SETSEC_LO = s.reg Reg.ETH_VT_SETSEC_LO :=
    (hf.reg regNo_ETH_VT_SETSEC_LO).trans (s.reg_setReg_other _ (reg_ne regNo_ETH_VT_SETSEC_LO regNo_ETH_VT_CTRL))
  have h2 : ((s.setReg Reg.ETH_VT_CTRL x.new).refreshVt 0).fld Reg.ETH_VT_SETSEC_HI Fld.ETH_VT_SETSEC_HI.SEC =
      s.fld Reg.ETH_VT_SETSEC_HI Fld.ETH_VT_SETSEC_HI.SEC :=
    (hf.fld regNo_ETH_VT_SETSEC_HI).trans (s.fld_setReg_other _ _ (reg_ne regNo_ETH_VT_SETSEC_HI regNo_ETH_VT_CTRL))
  have h3' : ((s.setReg Reg.ETH_VT_CTRL x.new).refreshVt 0).fld Reg.ETH_VT_SETNS Fld.ETH_VT_SETNS.NS =
      s.fld Reg.ETH_VT_SETNS Fld.ETH_VT_SETNS.NS :=
    (hf.fld regNo_ETH_VT_SETNS).trans (s.fld_setReg_other _ _ (reg_ne regNo_ETH_VT_SETNS regNo_ETH_VT_CTRL))
  have hn : ((s.setReg Reg.ETH_VT_CTRL x.new).refreshVt 0).now = s.now := (hf.now (by decide)).trans (State.setReg_now ..)
  generalize (s.setReg Reg.ETH_VT_CTRL x.new).refreshVt 0 = v at hs h1 h2 h3' hn
  unfold State.vtSet at hs
  extract_lets sec ns at hs
  have h3 : ns = s.fld Reg.ETH_VT_SETNS Fld.ETH_VT_SETNS.NS := h3'
  have h4 : sec = (s.reg Reg.ETH_VT_SETSEC_LO).toNat + s.fld Reg.ETH_VT_SETSEC_HI Fld.ETH_VT_SETSEC_HI.SEC * 2 ^ 32 := by
    unfold sec
    rw [h1, h2]
  refine ⟨?_, ?_, ?_⟩
  · rw [hs.vt, State.vtSteered_vt, ← h3, ← h4]
  · rw [hs.vt, State.vtSteered_vt]; exact hn
  · rw [hs.vt, State.vtSteered_vt]; exact congrArg some hn

theorem ethMdioCommand_does : ∀ (w : Word) (s : State), s.pwr.restoring = false → Does (.ethMdioCommand w) s fun t =>
    (s.on Reg.ETH_MDIO Fld.ETH_MDIO.BUSY = false → t.on Reg.ETH_MDIO Fld.ETH_MDIO.BUSY = true ∧
      t.fld Reg.ETH_MDIO Fld.ETH_MDIO.DATA = Fld.ETH_MDIO.DATA.of w ∧ t.fld Reg.ETH_MDIO Fld.ETH_MDIO.REG = Fld.ETH_MDIO.REG.of w ∧
      t.fld Reg.ETH_MDIO Fld.ETH_MDIO.PHYAD = Fld.ETH_MDIO.PHYAD.of w ∧ t.fld Reg.ETH_MDIO Fld.ETH_MDIO.OP = Fld.ETH_MDIO.OP.of w ∧
      t.fld Reg.ETH_MDIO Fld.ETH_MDIO.C45 = Fld.ETH_MDIO.C45.of w) ∧
    (s.on Reg.ETH_MDIO Fld.ETH_MDIO.BUSY = true → t.reg Reg.ETH_MDIO = s.reg Reg.ETH_MDIO) := by
  intro w s h
  refine ⟨_, exec_ethMdioCommand.trans rfl, ?_⟩
  dsimp only
  have hr := vt_place.2.2.2.1
  have hs := hr.stored (s := s) (w := w) (busy := false) (by decide) h (vt_place.2.2.2.2.2.2.2.1 _)
  rw [State.put_eth (x := s.wrote Reg.ETH_MDIO (regDesc 14 10) _) hr.2.1] at hs
  have hx : ∀ v, s.crossClamp Reg.ETH_MDIO v = v := by
    intro v
    unfold State.crossClamp
    dsimp only
    rw [hr.2.1]
    repeat rw [if_neg (by decide)]
    rw [if_pos rfl]
    unfold State.clampEth
    dsimp only
    repeat rw [if_neg (by decide)]
  have mk := fun (j : Nat) (f : Bits) (hj : (regDesc 14 10).fields[j]? = some ⟨f, .rw, fun _ => 0, .none, false, true⟩) =>
    (hr.new_fld (s := s) (w := w) hx j (f := ⟨f, .rw, fun _ => 0, .none, false, true⟩) hj (by cases s.locked <;> rfl) (.inl rfl)).trans
      (Nat.mod_eq_of_lt (Bits.of_lt f w))
  have h1 := mk 0 Fld.ETH_MDIO.DATA rfl
  have h2 := mk 1 Fld.ETH_MDIO.REG rfl
  have h3 := mk 2 Fld.ETH_MDIO.PHYAD rfl
  have h4 := mk 3 Fld.ETH_MDIO.OP rfl
  have h5 := mk 4 Fld.ETH_MDIO.C45 rfl
  dsimp only at h1 h2 h3 h4 h5
  clear mk
  have ha : (s.wrote Reg.ETH_MDIO (regDesc 14 10) w).a = Reg.ETH_MDIO := rfl
  generalize s.wrote Reg.ETH_MDIO (regDesc 14 10) w = x at hs h1 h2 h3 h4 h5 ha
  have hput : (s.putEth x).1 = s.mdioWrite x.new := by
    unfold State.putEth
    dsimp only
    rw [ha, if_neg (by decide), if_neg (by decide), if_neg (by decide), if_pos rfl]
  rw [hput] at hs
  unfold State.mdioWrite at hs
  constructor
  · intro k
    rw [k, if_neg (by decide)] at hs
    have hreg : (s.blockStore 0 Reg.ETH_MDIO w).reg Reg.ETH_MDIO = setBit (x.new &&& 0x1FFFFFFF) 31 true :=
      (hs.regOf regNo_ETH_MDIO).trans (s.reg_setReg_same _ _)
    have hb : ∀ f : Bits, f.lo + f.width ≤ 31 → f.of 0x1FFFFFFF = 2 ^ f.width - 1 → f.of (setBit (x.new &&& 0x1FFFFFFF) 31 true) = f.of x.new :=
      fun f hf hm => (Bits.of_put_other _ _ (.inr hf)).trans (Bits.of_and hm)
    have h31 : Fld.ETH_MDIO.BUSY.of (setBit (x.new &&& 0x1FFFFFFF) 31 true) = 1 := Bits.of_put Fld.ETH_MDIO.BUSY 1 _ (by decide)
    unfold State.on State.fld
    rw [hreg, hb Fld.ETH_MDIO.DATA (by decide) (by decide), hb Fld.ETH_MDIO.REG (by decide) (by decide), hb Fld.ETH_MDIO.PHYAD (by decide) (by decide),
      hb Fld.ETH_MDIO.OP (by decide) (by decide), hb Fld.ETH_MDIO.C45 (by decide) (by decide), h31]
    exact ⟨rfl, h1, h2, h3, h4, h5⟩
  · intro k
    rw [k, if_pos rfl] at hs
    exact hs.regOf regNo_ETH_MDIO

/-! ### Host complex and flash controller -/

theorem hic_place : IsReg Reg.HIC_C1_CTRL 19 2 0 ∧ (regDesc 19 2).reach (.core 0) false ≠ 0 ∧
    Fld.HIC_C1_CTRL.START.of ((regDesc 19 2).reach (.core 0) false) = 1 ∧
    (∀ c : Fin 2, IsReg (Reg.HIC_CACHEc c) 19 3 c ∧ Reg.HIC_CACHEc c ≠ Reg.HIC_C1_CTRL ∧
      elemOf (Reg.HIC_CACHEc c) (Reg.HIC_CACHEc 0) 4 2 = some c.val) ∧ (∀ l, (regDesc 19 3).reach (.core 0) l ≠ 0) ∧
    (∀ l, Fld.HIC_CACHEc.DINV.of ((regDesc 19 3).reach (.core 0) l) = 1 ∧ Fld.HIC_CACHEc.IINV.of ((regDesc 19 3).reach (.core 0) l) = 1) ∧
    (∀ w : Fin 2, IsReg (Reg.HIC_WDw_CFG w) 19 17 w ∧ Reg.HIC_WDw_CFG w ≠ Reg.HIC_C1_CTRL ∧
      elemOf (Reg.HIC_WDw_CFG w) (Reg.HIC_CACHEc 0) 4 2 = none ∧ elemOf (Reg.HIC_WDw_CFG w) (Reg.HIC_IRQc_CLAIM 0) 0x10 2 = none ∧
      elemOf (Reg.HIC_WDw_CFG w) (Reg.HIC_SEMn 0) 4 16 = none ∧ elemOf (Reg.HIC_WDw_CFG w) (Reg.HIC_WDw_SVC 0) 0x20 2 = none ∧
      elemOf (Reg.HIC_WDw_CFG w) (Reg.HIC_WDw_CFG 0) 0x20 2 = some w.val) ∧ (regDesc 19 17).reach (.core 0) false ≠ 0 ∧
    IsReg Reg.XSP_CMD 20 1 0 ∧ (∀ l, (regDesc 20 1).reach (.core 0) l ≠ 0) ∧
    (∀ l, Fld.XSP_CMD.GO.of ((regDesc 20 1).reach (.core 0) l) = 1) := by decide +kernel

theorem core1Start_does : ∀ s : State, s.pwr.restoring = false → s.locked = false → Does .core1Start s fun t =>
    t.fld Reg.HIC_C1_CTRL Fld.HIC_C1_CTRL.RUN = 1 := by
  intro s h hl
  refine ⟨_, exec_core1Start.trans rfl, ?_⟩
  dsimp only
  have hr := hic_place.1
  have hs := hr.stored (s := s) (w := Fld.HIC_C1_CTRL.START.only 1) (busy := false) (by decide) h (by rw [hl]; exact hic_place.2.1)
  rw [State.put_hic (x := s.wrote Reg.HIC_C1_CTRL (regDesc 19 2) _) hr.2.1] at hs
  have hone : Fld.HIC_C1_CTRL.START.on (s.wrote Reg.HIC_C1_CTRL (regDesc 19 2) (Fld.HIC_C1_CTRL.START.only 1)).ones = true := by
    rw [State.wrote_ones_on (by rw [hl]; exact hic_place.2.2.1)]
    decide
  have ha : (s.wrote Reg.HIC_C1_CTRL (regDesc 19 2) (Fld.HIC_C1_CTRL.START.only 1)).a = Reg.HIC_C1_CTRL := rfl
  generalize s.wrote Reg.HIC_C1_CTRL (regDesc 19 2) (Fld.HIC_C1_CTRL.START.only 1) = x at hs hone ha
  have hput : s.putHic x = s.core1Start := by
    unfold State.putHic
    dsimp only
    rw [if_pos ha, if_pos hone]
  rw [hput] at hs
  rw [hs.fldOf regNo_HIC_C1_CTRL]
  unfold State.core1Start
  rw [State.fld_setFld _ _ Fld.HIC_C1_CTRL.RUN _ (by decide)]
  rfl

theorem Bits.of_or (f : Bits) (v w : Word) : f.of (v ||| w) = f.of v ||| f.of w := by
  apply Nat.eq_of_testBit_eq
  intro i
  rw [Nat.testBit_or, Bits.testBit_of, Bits.testBit_of, Bits.testBit_of, BitVec.getLsbD_or, Bool.and_or_distrib_left]

theorem State.cached_other (s : State) (c : Nat) (i : Bool) (ws : List (Nat × Word)) :
    (s.setCached i c ws).cached (!i) c = s.cached (!i) c := by
  unfold State.setCached State.cached
  cases i <;> rfl

theorem State.cached_same (s : State) (c : Nat) (i : Bool) (ws : List (Nat × Word)) :
    (s.setCached i c ws).cached i c = ws := by
  unfold State.setCached State.cached
  cases i
  · exact (tabGet_tabSet _ _ _ _ _).trans (if_pos rfl)
  · exact (tabGet_tabSet _ _ _ _ _).trans (if_pos rfl)

theorem State.cached_of {s t : State} (h : t.hic = s.hic) (i : Bool) (c : Nat) : t.cached i c = s.cached i c := by
  unfold State.cached
  rw [h]

theorem cacheInvalidate_does : ∀ (c : Fin 2) (data inst : Bool) (s : State), s.pwr.restoring = false →
    Does (.cacheInvalidate c data inst) s fun t => t.cached false c = (if data then [] else s.cached false c) ∧
      t.cached true c = if inst then [] else s.cached true c := by
  intro c data inst s h
  refine ⟨_, exec_cacheInvalidate.trans rfl, ?_⟩
  dsimp only
  generalize hw : (Fld.HIC_CACHEc.DINV.only data.toNat ||| Fld.HIC_CACHEc.IINV.only inst.toNat) = w
  have w1 : Fld.HIC_CACHEc.DINV.on w = data := by
    rw [← hw]
    unfold Bits.on
    rw [Bits.of_or, Bits.of_only Fld.HIC_CACHEc.DINV, Bits.of_only_other (f := Fld.HIC_CACHEc.IINV) (g := Fld.HIC_CACHEc.DINV)]
    cases data <;> rfl
  have w2 : Fld.HIC_CACHEc.IINV.on w = inst := by
    rw [← hw]
    unfold Bits.on
    rw [Bits.of_or, Bits.of_only Fld.HIC_CACHEc.IINV, Bits.of_only_other (f := Fld.HIC_CACHEc.DINV) (g := Fld.HIC_CACHEc.IINV)]
    cases inst <;> rfl
  obtain ⟨hr, e1, e2⟩ := hic_place.2.2.2.1 c
  have hs := hr.stored (s := s) (w := w) (busy := false) (by decide) h (hic_place.2.2.2.2.1 _)
  rw [State.put_hic (x := s.wrote (Reg.HIC_CACHEc c) (regDesc 19 3) _) hr.2.1] at hs
  have h1 : Fld.HIC_CACHEc.DINV.on (s.wrote (Reg.HIC_CACHEc c) (regDesc 19 3) w).ones = data :=
    (State.wrote_ones_on (hic_place.2.2.2.2.2.1 _).1).trans w1
  have h2 : Fld.HIC_CACHEc.IINV.on (s.wrote (Reg.HIC_CACHEc c) (regDesc 19 3) w).ones = inst :=
    (State.wrote_ones_on (hic_place.2.2.2.2.2.1 _).2).trans w2
  have ha : (s.wrote (Reg.HIC_CACHEc c) (regDesc 19 3) w).a = Reg.HIC_CACHEc c := rfl
  generalize s.wrote (Reg.HIC_CACHEc c) (regDesc 19 3) w = x at hs h1 h2 ha
  have hput : s.putHic x = s.cacheWritten c x.ones := by
    unfold State.putHic
    dsimp only
    rw [ha, if_neg e1, e2]
  rw [hput] at hs
  unfold State.cacheWritten at hs
  rw [h1, h2] at hs
  rw [State.cached_of hs.hic, State.cached_of hs.hic]
  cases data <;> cases inst
  · exact ⟨rfl, rfl⟩
  · exact ⟨s.cached_other c true [], s.cached_same c true []⟩
  · exact ⟨s.cached_same c false [], s.cached_other c false []⟩
  · exact ⟨((s.setCached false c []).cached_other c true []).trans (s.cached_same c false []), (s.setCached false c []).cached_same c true []⟩

theorem State.wdRestart_on (s : State) (w a : Nat) (f : Bits) : (s.wdRestart w).on a f = s.on a f := State.on_of_regs rfl a f

theorem wdogEnable_does : ∀ (wd : Fin 2) (cfg : Word) (s : State), s.pwr.restoring = false → s.locked = false → s.wdEn wd = false →
    Does (.wdogEnable wd cfg) s fun t => t.wdEn wd = true ∧ (t.wd wd).since = s.now ∧ (t.wd wd).first = none ∧
      (t.wd wd).warned = false := by
  intro c cfg s h hl h0
  refine ⟨_, exec_wdogEnable.trans rfl, ?_⟩
  dsimp only
  obtain ⟨hr, e1, e2, e3, e4, e5, e6⟩ := hic_place.2.2.2.2.2.2.1 c
  have hs := hr.stored (s := s) (w := Fld.HIC_WDw_CFG.EN.put 1 cfg) (busy := false) (by decide) h (by rw [hl]; exact hic_place.2.2.2.2.2.2.2.1)
  rw [State.put_hic (x := s.wrote (Reg.HIC_WDw_CFG c) (regDesc 19 17) _) hr.2.1] at hs
  have hx : ∀ v, Fld.HIC_WDw_CFG.EN.of (s.crossClamp (Reg.HIC_WDw_CFG c) v) = Fld.HIC_WDw_CFG.EN.of v := by
    intro v
    have hc : s.crossClamp (Reg.HIC_WDw_CFG c) v = s.clampHic (Reg.HIC_WDw_CFG c) v := by
      unfold State.crossClamp
      dsimp only
      rw [hr.2.1]
      repeat rw [if_neg (by decide)]
      rw [if_pos rfl]
    rw [hc]
    unfold State.clampHic
    rw [e6]
    dsimp only
    rw [h0]
    simp only [Bool.false_eq_true, if_false]
    split
    · exact Bits.of_put_other _ _ (by decide)
    · rfl
  have hn := hr.new_fldx (s := s) (w := Fld.HIC_WDw_CFG.EN.put 1 cfg) 0 (f := ⟨Fld.HIC_WDw_CFG.EN, .rwl, fun _ => 0, .cross, true, false⟩) hx rfl
    (by rw [hl]; rfl) (.inr rfl)
  have ha : (s.wrote (Reg.HIC_WDw_CFG c) (regDesc 19 17) (Fld.HIC_WDw_CFG.EN.put 1 cfg)).a = Reg.HIC_WDw_CFG c := rfl
  have ho : (s.wrote (Reg.HIC_WDw_CFG c) (regDesc 19 17) (Fld.HIC_WDw_CFG.EN.put 1 cfg)).old = s.reg (Reg.HIC_WDw_CFG c) := rfl
  generalize s.wrote (Reg.HIC_WDw_CFG c) (regDesc 19 17) (Fld.HIC_WDw_CFG.EN.put 1 cfg) = x at hs hn ha ho
  dsimp only [Clamp.apply] at hn
  rw [Bits.of_put Fld.HIC_WDw_CFG.EN 1 _ (by decide)] at hn
  have hput : s.putHic x = (s.setReg (Reg.HIC_WDw_CFG c) x.new).wdCfgWritten c false := by
    unfold State.putHic
    dsimp only
    rw [ha, if_neg e1, e2, e3, e4, e5]
    dsimp only
    rw [e6, ho]
    dsimp only
    rw [show Fld.HIC_WDw_CFG.EN.on (s.reg (Reg.HIC_WDw_CFG c)) = false from h0]
  rw [hput] at hs
  have hen : (s.setReg (Reg.HIC_WDw_CFG c) x.new).wdEn c = true := by
    unfold State.wdEn State.on
    rw [State.fld_setReg_same, hn]
    rfl
  have hnow : (s.setReg (Reg.HIC_WDw_CFG c) x.new).now = s.now := State.setReg_now ..
  generalize s.setReg (Reg.HIC_WDw_CFG c) x.new = v at hs hen hnow
  unfold State.wdCfgWritten at hs
  rw [hen, if_pos (by decide)] at hs
  have hwd : (s.blockStore 0 (Reg.HIC_WDw_CFG c) (Fld.HIC_WDw_CFG.EN.put 1 cfg)).wd c =
      { v.wd c with since := v.now, held := if v.wdFrozen c then some 0 else none, first := none, warned := false } := by
    have : (s.blockStore 0 (Reg.HIC_WDw_CFG c) (Fld.HIC_WDw_CFG.EN.put 1 cfg)).wd c = (v.wdRestart c).wd c :=
      congrArg (fun q : Hic => tabGet ({} : Wd) q.wds c) hs.hic
    rw [this]
    exact (tabGet_tabSet _ _ _ _ _).trans (if_pos rfl)
  refine ⟨?_, ?_, ?_, ?_⟩
  · unfold State.wdEn
    rw [hs.onOf (regNo_HIC_WDw_CFG _), State.wdRestart_on]
    exact hen
  · rw [hwd]; exact hnow
  · rw [hwd]
  · rw [hwd]

/-- What the judgement of a flash command reads. -/
theorem State.xspRefused_of {s t : State} (w : Word) (h1 : t.reg Reg.XSP_PROT = s.reg Reg.XSP_PROT)
    (h2 : t.reg Reg.XSP_ADDR = s.reg Reg.XSP_ADDR) : t.xspRefused w = s.xspRefused w := by
  unfold State.xspRefused State.xspProtected State.fld
  rw [h1, h2]

theorem xspCommand_does : ∀ (cmd : Word) (s : State), s.pwr.restoring = false → s.on Reg.XSP_STAT Fld.XSP_STAT.BUSY = false →
    Does (.xspCommand cmd) s fun t =>
      (s.xspRefused (s.busWord Reg.XSP_CMD (Fld.XSP_CMD.GO.put 1 cmd)) = false → t.on Reg.XSP_STAT Fld.XSP_STAT.BUSY = true ∧
        t.fld Reg.XSP_CMD Fld.XSP_CMD.OP = Fld.XSP_CMD.OP.of cmd) ∧
      (s.xspRefused (s.busWord Reg.XSP_CMD (Fld.XSP_CMD.GO.put 1 cmd)) = true → t.on Reg.XSP_STAT Fld.XSP_STAT.BUSY = false ∧
        t.on Reg.XSP_STAT Fld.XSP_STAT.REFUSED = true) := by
  intro cmd s h h0
  refine ⟨_, exec_xspCommand.trans rfl, ?_⟩
  dsimp only
  have hr := hic_place.2.2.2.2.2.2.2.2.1
  have hs := hr.stored (s := s) (w := Fld.XSP_CMD.GO.put 1 cmd) (busy := false) (by decide) h (hic_place.2.2.2.2.2.2.2.2.2.1 _)
  rw [State.put_xsp (x := s.wrote Reg.XSP_CMD (regDesc 20 1) _) hr.2.1] at hs
  rw [State.busWord_eq hr.at]
  have hx : ∀ v, s.crossClamp Reg.XSP_CMD v = v := by
    intro v
    unfold State.crossClamp
    dsimp only
    rw [hr.2.1]
    repeat rw [if_neg (by decide)]
    exact s.other_noCross (by decide) (by decide) (by decide) v
  have hn := (hr.new_fld (s := s) (w := Fld.XSP_CMD.GO.put 1 cmd) hx 0 (f := ⟨Fld.XSP_CMD.OP, .rw, fun _ => 0, .none, false, true⟩) rfl
    (by cases s.locked <;> rfl) (.inl rfl)).trans (Nat.mod_eq_of_lt (Bits.of_lt Fld.XSP_CMD.OP _))
  dsimp only [Clamp.apply] at hn
  rw [Bits.of_put_other _ _ (by decide)] at hn
  have hone : Fld.XSP_CMD.GO.on (s.wrote Reg.XSP_CMD (regDesc 20 1) (Fld.XSP_CMD.GO.put 1 cmd)).ones = true := by
    rw [State.wrote_ones_on (hic_place.2.2.2.2.2.2.2.2.2.2 _)]
    unfold Bits.on
    rw [Bits.of_put Fld.XSP_CMD.GO 1 _ (by decide)]
    rfl
  have ha : (s.wrote Reg.XSP_CMD (regDesc 20 1) (Fld.XSP_CMD.GO.put 1 cmd)).a = Reg.XSP_CMD := rfl
  generalize s.wrote Reg.XSP_CMD (regDesc 20 1) (Fld.XSP_CMD.GO.put 1 cmd) = x at hs hn hone ha
  have hput : s.putXsp x = (s.setReg Reg.XSP_CMD x.new).xspCmdWritten x.ones := by
    unfold State.putXsp
    rw [if_pos ha, h0, ha]
    rfl
  rw [hput] at hs
  have hb : (s.setReg Reg.XSP_CMD x.new).on Reg.XSP_STAT Fld.XSP_STAT.BUSY = false := by
    rw [← h0]
    unfold State.on
    rw [State.fld_setReg_other _ _ _ (reg_ne regNo_XSP_STAT regNo_XSP_CMD)]
  have hc : (s.setReg Reg.XSP_CMD x.new).reg Reg.XSP_CMD = x.new := s.reg_setReg_same _ _
  have hj : (s.setReg Reg.XSP_CMD x.new).xspRefused x.new = s.xspRefused x.new :=
    State.xspRefused_of _ (s.reg_setReg_other _ (reg_ne regNo_XSP_PROT regNo_XSP_CMD))
      (s.reg_setReg_other _ (reg_ne regNo_XSP_ADDR regNo_XSP_CMD))
  generalize s.setReg Reg.XSP_CMD x.new = v at hs hb hc hj
  unfold State.xspCmdWritten at hs
  dsimp only at hs
  rw [hone, hb, hc, hj] at hs
  constructor
  · intro k
    rw [k] at hs
    refine ⟨?_, ?_⟩
    · rw [hs.onOf regNo_XSP_STAT]
      unfold State.on
      exact congrArg (· != 0) (v.fld_setFld Reg.XSP_STAT Fld.XSP_STAT.BUSY 1 (by decide))
    · rw [hs.fldOf regNo_XSP_CMD, ← hn, ← hc]
      exact v.fld_setFld_other Fld.XSP_STAT.BUSY Fld.XSP_CMD.OP 1 (reg_ne regNo_XSP_CMD regNo_XSP_STAT)
  · intro k
    rw [k] at hs
    have e : ∀ f, (s.blockStore 0 Reg.XSP_CMD (Fld.XSP_CMD.GO.put 1 cmd)).fld Reg.XSP_STAT f =
        (v.setFld Reg.XSP_STAT Fld.XSP_STAT.REFUSED 1).fld Reg.XSP_STAT f := by
      intro f
      rw [hs.fldOf regNo_XSP_STAT]
      exact State.event_frame.fld regNo_XSP_STAT
    unfold State.on
    rw [e, e, State.fld_setFld _ _ Fld.XSP_STAT.REFUSED _ (by decide),
      State.fld_setFld_field _ _ (f := Fld.XSP_STAT.REFUSED) (g := Fld.XSP_STAT.BUSY) _ (by decide)]
    exact ⟨hb, rfl⟩

/-! ### Check units -/

theorem chk_place : (∀ n : Fin 4, IsReg (Reg.CHK_Un_CFG n) 15 1 n ∧ elemOf (Reg.CHK_Un_CFG n) (Reg.CHK_Un_CFG 0) 0x10 4 = some n.val ∧
      Reg.CHK_Un_CFG n ≠ Reg.SYS_RSTCTL ∧ Reg.CHK_Un_CFG n ≠ Reg.HLD_CMIN ∧ Reg.CHK_Un_CFG n ≠ Reg.BST_CFG) ∧
    (∀ n : Fin 4, IsReg (Reg.CHK_Un_SEED n) 15 2 n ∧ elemOf (Reg.CHK_Un_SEED n) (Reg.CHK_Un_CFG 0) 0x10 4 = none ∧
      elemOf (Reg.CHK_Un_SEED n) (Reg.CHK_Un_SEED 0) 0x10 4 = some n.val ∧
      Reg.CHK_Un_SEED n ≠ Reg.SYS_RSTCTL ∧ Reg.CHK_Un_SEED n ≠ Reg.HLD_CMIN ∧ Reg.CHK_Un_SEED n ≠ Reg.BST_CFG) ∧
    (∀ n : Fin 4, IsReg (Reg.CHK_Un_DATA n) 15 3 n ∧ elemOf (Reg.CHK_Un_DATA n) (Reg.CHK_Un_CFG 0) 0x10 4 = none ∧
      elemOf (Reg.CHK_Un_DATA n) (Reg.CHK_Un_SEED 0) 0x10 4 = none ∧ elemOf (Reg.CHK_Un_DATA n) (Reg.CHK_Un_DATA 0) 0x10 4 = some n.val) ∧
    (∀ n : Fin 4, IsReg (Reg.CHK_Un_DATAB n) 15 4 n ∧ elemOf (Reg.CHK_Un_DATAB n) (Reg.CHK_Un_CFG 0) 0x10 4 = none ∧
      elemOf (Reg.CHK_Un_DATAB n) (Reg.CHK_Un_SEED 0) 0x10 4 = none ∧ elemOf (Reg.CHK_Un_DATAB n) (Reg.CHK_Un_DATA 0) 0x10 4 = none ∧
      elemOf (Reg.CHK_Un_DATAB n) (Reg.CHK_Un_DATAB 0) 0x10 4 = some n.val) ∧
    (∀ l, (regDesc 15 1).reach (.core 0) l ≠ 0 ∧ (regDesc 15 2).reach (.core 0) l ≠ 0 ∧
      (regDesc 15 3).reach (.core 0) l = 0xFFFFFFFF ∧ (regDesc 15 4).reach (.core 0) l = 0xFF) := by decide +kernel

theorem State.other_cross {s : State} {a : Nat} (hu : unitOf a = 15) (v : Word) : s.crossClamp a v = s.clampOther a v := by
  unfold State.crossClamp
  dsimp only
  rw [hu]
  repeat rw [if_neg (by decide)]

theorem State.setScan_units (s : State) (n : Nat) (x : ScanSlot) : (s.setScan n x).chk.units = s.chk.units := rfl

theorem foldl_units (l : List Nat) (f : State → Nat → State) (hf : ∀ u k, (f u k).chk.units = u.chk.units) (u : State) :
      (l.foldl f u).chk.units = u.chk.units := by
    induction l generalizing u with
    | nil => rfl
    | cons k l ih => exact (ih _).trans (hf u k)

/-- What a write does to the pass of one slot. -/
def spoilStep (a n : Nat) (s : State) (k : Nat) : State :=
    let x := s.scan k
    match (s.targets k)[x.target]? with
    | some t =>
        if s.scanRuns k && (s.targetRanges k t).any fun r => overlaps a n r.1 r.2 then
          s.setScan k { x with spoiled := true }
        else s
    | none => s

theorem spoilStep_units (a n : Nat) (s : State) (k : Nat) : (spoilStep a n s k).chk.units = s.chk.units := by
  unfold spoilStep
  extract_lets x
  split
  · split
    · exact s.setScan_units k _
    · rfl
  · rfl

theorem scanSpoil_step (s : State) (a n : Nat) : s.scanSpoil a n = (List.range 8).foldl (spoilStep a n) s := rfl

theorem State.scanSpoil_units (s : State) (a n : Nat) : (s.scanSpoil a n).chk.units = s.chk.units := by
  rw [scanSpoil_step]
  exact foldl_units _ _ (spoilStep_units a n) s

/-- A pass keeps its target, its start and whether it reports. -/
def ScanKept (j : Nat) (s t : State) : Prop :=
  (t.scan j).target = (s.scan j).target ∧ (t.scan j).report = (s.scan j).report ∧ (t.scan j).startAt = (s.scan j).startAt

theorem State.scan_setScan (s : State) (n k : Nat) (x : ScanSlot) : (s.setScan n x).scan k = if k = n then x else s.scan k :=
  tabGet_tabSet _ _ _ _ _

theorem spoilStep_scan (a n j : Nat) (s : State) (k : Nat) : ScanKept j s (spoilStep a n s k) := by
  unfold spoilStep
  extract_lets x
  split
  · split
    · unfold ScanKept
      rw [State.scan_setScan]
      split
      · next e => subst e; exact ⟨rfl, rfl, rfl⟩
      · exact ⟨rfl, rfl, rfl⟩
    · exact ⟨rfl, rfl, rfl⟩
  · exact ⟨rfl, rfl, rfl⟩

theorem foldl_scan (j : Nat) (l : List Nat) (f : State → Nat → State) (hf : ∀ u k, ScanKept j u (f u k)) (u : State) :
    ScanKept j u (l.foldl f u) := by
  induction l generalizing u with
  | nil => exact ⟨rfl, rfl, rfl⟩
  | cons k l ih =>
    have h1 := hf u k
    have h2 := ih (f u k)
    exact ⟨h2.1.trans h1.1, h2.2.1.trans h1.2.1, h2.2.2.trans h1.2.2⟩

theorem State.scanSpoil_scan (s : State) (a n j : Nat) : ScanKept j s (s.scanSpoil a n) := by
  rw [scanSpoil_step]
  exact foldl_scan j _ _ (fun u k => spoilStep_scan a n j u k) s

theorem State.countClamp_chk (s : State) (a : Nat) (c : Bool) : (s.countClamp a c).chk = s.chk := by
  rw [(s.countClamp_eq a c).1]

theorem State.stored_chk (s : State) : s.stored.chk = s.chk := rfl

/-- The running registers after a write. -/
theorem IsReg.stored_units {a u k i : Nat} (h : IsReg a u k i) {s : State} {w : Word} (hu : u ≠ 3)
    (hrest : s.pwr.restoring = false) (hcov : (regDesc u k).reach (.core 0) s.locked ≠ 0) :
    (s.blockStore 0 a w).chk.units = (s.put (s.wrote a (regDesc u k) w)).1.chk.units := by
  have hta : s.turnedAway (s.wrote a (regDesc u k) w) = none := State.turnedAway_none (fun e => hu (h.2.1.symm.trans e)) rfl
  unfold State.blockStore
  rw [State.busWrite_eq h.2.2.1 (State.prepare_eq h.at hrest hcov) hta]
  rw [State.stored_chk, State.scanSpoil_units]
  exact congrArg Chk.units (State.countClamp_chk _ _ _)

theorem ScanKept.of {j : Nat} {s t : State} (h : t.chk = s.chk) : ScanKept j s t := by
  unfold ScanKept State.scan
  rw [h]
  exact ⟨rfl, rfl, rfl⟩

/-- The passes after a write. -/
theorem IsReg.stored_scan {a u k i : Nat} (h : IsReg a u k i) {s : State} {w : Word} (hu : u ≠ 3)
    (hrest : s.pwr.restoring = false) (hcov : (regDesc u k).reach (.core 0) s.locked ≠ 0) (j : Nat) :
    ScanKept j (s.put (s.wrote a (regDesc u k) w)).1 (s.blockStore 0 a w) := by
  have hta : s.turnedAway (s.wrote a (regDesc u k) w) = none := State.turnedAway_none (fun e => hu (h.2.1.symm.trans e)) rfl
  unfold State.blockStore
  rw [State.busWrite_eq h.2.2.1 (State.prepare_eq h.at hrest hcov) hta]
  generalize hc : (s.put (s.wrote a (regDesc u k) w)).1.countClamp a _ = v
  have hv : v.chk = (s.put (s.wrote a (regDesc u k) w)).1.chk := by
    rw [← hc]
    exact State.countClamp_chk _ _ _
  have h1 : ScanKept j (s.put (s.wrote a (regDesc u k) w)).1 v := ScanKept.of hv
  have h2 := v.scanSpoil_scan a 4 j
  have h3 : ScanKept j (v.scanSpoil a 4) (v.scanSpoil a 4).stored := ScanKept.of (State.stored_chk _)
  exact ⟨h3.1.trans (h2.1.trans h1.1), h3.2.1.trans (h2.2.1.trans h1.2.1), h3.2.2.trans (h2.2.2.trans h1.2.2)⟩

theorem State.chkRun_of {s t : State} (h : t.chk.units = s.chk.units) (n : Nat) : t.chkRun n = s.chkRun n := by
  unfold State.chkRun
  rw [h]

theorem State.chkRun_setChkRun (s : State) (n : Nat) (w : Word) : (s.setChkRun n w).chkRun n = w :=
  (tabGet_tabSet _ _ _ _ _).trans (if_pos rfl)

theorem State.fld_setScan (s : State) (n : Nat) (x : ScanSlot) (a : Nat) (f : Bits) : (s.setScan n x).fld a f = s.fld a f :=
  State.fld_of_regs rfl a f
theorem State.fld_setChkRun (s : State) (n : Nat) (w : Word) (a : Nat) (f : Bits) : (s.setChkRun n w).fld a f = s.fld a f :=
  State.fld_of_regs rfl a f
theorem State.reg_setChkRun (s : State) (n : Nat) (w : Word) (a : Nat) : (s.setChkRun n w).reg a = s.reg a := rfl

theorem chkAlgWrite_does : ∀ (n : Fin 4) (w : Word) (s : State), s.pwr.restoring = false → Does (.chkAlgWrite n w) s fun t =>
    t.fld (Reg.CHK_Un_CFG n) Fld.CHK_Un_CFG.ALG = Fld.CHK_Un_CFG.ALG.of w ∧
    t.reg (Reg.CHK_Un_SEED n) = BitVec.ofNat 32 (Crc.algOf (Fld.CHK_Un_CFG.ALG.of w)).init ∧
    t.chkRun n = BitVec.ofNat 32 (Crc.algOf (Fld.CHK_Un_CFG.ALG.of w)).init := by
  intro n w s h
  refine ⟨_, exec_chkAlgWrite.trans rfl, ?_⟩
  dsimp only
  obtain ⟨hr, e1, e2, e3, e4⟩ := chk_place.1 n
  have hcov := (chk_place.2.2.2.2 s.locked).1
  have hs := hr.stored (s := s) (w := w) (busy := false) (by decide) h hcov
  have hu := hr.stored_units (s := s) (w := w) (by decide) h hcov
  rw [State.put_chk (x := s.wrote (Reg.CHK_Un_CFG n) (regDesc 15 1) _) hr.2.1] at hs hu
  have hn := (hr.new_fld (s := s) (w := w) (fun v => (State.other_cross hr.2.1 v).trans (s.other_noCross e2 e3 e4 v)) 0
    (f := ⟨Fld.CHK_Un_CFG.ALG, .rw, fun _ => 2, .none, false, true⟩) rfl (by cases s.locked <;> rfl) (.inl rfl)).trans
    (Nat.mod_eq_of_lt (Bits.of_lt Fld.CHK_Un_CFG.ALG w))
  dsimp only [Clamp.apply] at hn
  have ha : (s.wrote (Reg.CHK_Un_CFG n) (regDesc 15 1) w).a = Reg.CHK_Un_CFG n := rfl
  generalize s.wrote (Reg.CHK_Un_CFG n) (regDesc 15 1) w = x at hs hu hn ha
  have hput : s.putChk x = (s.setReg (Reg.CHK_Un_CFG n) x.new).chkAlgWritten n := by
    unfold State.putChk
    rw [ha, e1]
  rw [hput] at hs hu
  have hv : (s.setReg (Reg.CHK_Un_CFG n) x.new).fld (Reg.CHK_Un_CFG n) Fld.CHK_Un_CFG.ALG = Fld.CHK_Un_CFG.ALG.of w := by
    rw [State.fld_setReg_same, hn]
  generalize s.setReg (Reg.CHK_Un_CFG n) x.new = v at hs hu hv
  unfold State.chkAlgWritten State.chkAlg at hs hu
  rw [hv] at hs hu
  dsimp only at hs hu
  refine ⟨?_, ?_, ?_⟩
  · rw [hs.fldOf (regNo_CHK_Un_CFG _), ← hv]
    rw [State.fld_setChkRun]
    exact v.fld_setReg_other _ _ (reg_ne (regNo_CHK_Un_CFG _) (regNo_CHK_Un_SEED n))
  · rw [hs.regOf (regNo_CHK_Un_SEED _), State.reg_setChkRun]
    exact v.reg_setReg_same _ _
  · rw [State.chkRun_of hu]
    exact State.chkRun_setChkRun _ _ _

theorem chkSeedWrite_does : ∀ (n : Fin 4) (w : Word) (s : State), s.pwr.restoring = false → Does (.chkSeedWrite n w) s fun t =>
    t.reg (Reg.CHK_Un_SEED n) = w ∧ t.chkRun n = BitVec.ofNat 32 (w.toNat % 2 ^ (s.chkAlg n).width) := by
  intro n w s h
  refine ⟨_, exec_chkSeedWrite.trans rfl, ?_⟩
  dsimp only
  obtain ⟨hr, e0, e1, e2, e3, e4⟩ := chk_place.2.1 n
  have hcov := (chk_place.2.2.2.2 s.locked).2.1
  have hs := hr.stored (s := s) (w := w) (busy := false) (by decide) h hcov
  have hu := hr.stored_units (s := s) (w := w) (by decide) h hcov
  rw [State.put_chk (x := s.wrote (Reg.CHK_Un_SEED n) (regDesc 15 2) _) hr.2.1] at hs hu
  have hn := (hr.new_fld (s := s) (w := w) (fun v => (State.other_cross hr.2.1 v).trans (s.other_noCross e2 e3 e4 v)) 0
    (f := ⟨Fld.CHK_Un_SEED.SEED, .rw, fun _ => 0, .none, false, true⟩) rfl (by cases s.locked <;> rfl) (.inl rfl)).trans
    (Nat.mod_eq_of_lt (Bits.of_lt Fld.CHK_Un_SEED.SEED w))
  dsimp only [Clamp.apply] at hn
  rw [show Fld.CHK_Un_SEED.SEED = (⟨0, 32⟩ : Bits) from rfl, Bits.of_all, Bits.of_all] at hn
  have hn := BitVec.eq_of_toNat_eq hn
  have ha : (s.wrote (Reg.CHK_Un_SEED n) (regDesc 15 2) w).a = Reg.CHK_Un_SEED n := rfl
  generalize s.wrote (Reg.CHK_Un_SEED n) (regDesc 15 2) w = x at hs hu hn ha
  have hput : s.putChk x = (s.setReg (Reg.CHK_Un_SEED n) w).chkSeedWritten n := by
    unfold State.putChk
    rw [ha, e0, e1, hn]
  rw [hput] at hs hu
  have hv : (s.setReg (Reg.CHK_Un_SEED n) w).reg (Reg.CHK_Un_SEED n) = w := s.reg_setReg_same _ _
  have hg : (s.setReg (Reg.CHK_Un_SEED n) w).chkAlg n = s.chkAlg n := by
    unfold State.chkAlg
    rw [State.fld_setReg_other _ _ _ (reg_ne (regNo_CHK_Un_CFG _) (regNo_CHK_Un_SEED n))]
  generalize s.setReg (Reg.CHK_Un_SEED n) w = v at hs hu hv hg
  refine ⟨?_, ?_⟩
  · rw [hs.regOf (regNo_CHK_Un_SEED _)]
    exact hv
  · rw [State.chkRun_of hu]
    unfold State.chkSeedWritten
    rw [State.chkRun_setChkRun, hv, hg]

theorem chkDataWrite_does : ∀ (n : Fin 4) (w : Word) (s : State), s.pwr.restoring = false → Does (.chkDataWrite n w) s fun t =>
    t.chkRun n = chkFeed (s.chkAlg n) (s.chkRun n) (bytesOfWord w) ∧ t.reg (Reg.CHK_Un_CFG n) = s.reg (Reg.CHK_Un_CFG n) := by
  intro n w s h
  refine ⟨_, exec_chkDataWrite.trans rfl, ?_⟩
  dsimp only
  obtain ⟨hr, e0, e1, e2⟩ := chk_place.2.2.1 n
  have hrc := (chk_place.2.2.2.2 s.locked).2.2.1
  have hcov : (regDesc 15 3).reach (.core 0) s.locked ≠ 0 := by rw [hrc]; decide
  have hs := hr.stored (s := s) (w := w) (busy := false) (by decide) h hcov
  have hu := hr.stored_units (s := s) (w := w) (by decide) h hcov
  rw [State.put_chk (x := s.wrote (Reg.CHK_Un_DATA n) (regDesc 15 3) _) hr.2.1] at hs hu
  have hone : (s.wrote (Reg.CHK_Un_DATA n) (regDesc 15 3) w).ones = w := by
    show w &&& (regDesc 15 3).reach (.core 0) s.locked = w
    rw [hrc]
    exact BitVec.and_allOnes
  have ha : (s.wrote (Reg.CHK_Un_DATA n) (regDesc 15 3) w).a = Reg.CHK_Un_DATA n := rfl
  generalize s.wrote (Reg.CHK_Un_DATA n) (regDesc 15 3) w = x at hs hu hone ha
  have hput : s.putChk x = s.chkData n (bytesOfWord w) := by
    unfold State.putChk
    rw [ha, e0, e1, e2, hone]
  rw [hput] at hs hu
  refine ⟨?_, ?_⟩
  · rw [State.chkRun_of hu]
    exact State.chkRun_setChkRun _ _ _
  · exact hs.regOf (regNo_CHK_Un_CFG _)

theorem chkDatabWrite_does : ∀ (n : Fin 4) (w : Word) (s : State), s.pwr.restoring = false → Does (.chkDatabWrite n w) s fun t =>
    t.chkRun n = chkFeed (s.chkAlg n) (s.chkRun n) [w.extractLsb' 0 8] ∧ t.reg (Reg.CHK_Un_CFG n) = s.reg (Reg.CHK_Un_CFG n) := by
  intro n w s h
  refine ⟨_, exec_chkDatabWrite.trans rfl, ?_⟩
  dsimp only
  obtain ⟨hr, e0, e1, e2, e3⟩ := chk_place.2.2.2.1 n
  have hrc := (chk_place.2.2.2.2 s.locked).2.2.2
  have hcov : (regDesc 15 4).reach (.core 0) s.locked ≠ 0 := by rw [hrc]; decide
  have hs := hr.stored (s := s) (w := w) (busy := false) (by decide) h hcov
  have hu := hr.stored_units (s := s) (w := w) (by decide) h hcov
  rw [State.put_chk (x := s.wrote (Reg.CHK_Un_DATAB n) (regDesc 15 4) _) hr.2.1] at hs hu
  have hone : (s.wrote (Reg.CHK_Un_DATAB n) (regDesc 15 4) w).ones.extractLsb' 0 8 = w.extractLsb' 0 8 := by
    show (w &&& (regDesc 15 4).reach (.core 0) s.locked).extractLsb' 0 8 = _
    rw [hrc]
    ext i hi
    simp only [BitVec.getElem_extractLsb', BitVec.getLsbD_and]
    rw [show (0xFF : Word) = BitVec.ofNat 32 (2 ^ 8 - 1) from rfl, BitVec.getLsbD_ofNat, Nat.testBit_two_pow_sub_one]
    simp
    omega
  have ha : (s.wrote (Reg.CHK_Un_DATAB n) (regDesc 15 4) w).a = Reg.CHK_Un_DATAB n := rfl
  generalize s.wrote (Reg.CHK_Un_DATAB n) (regDesc 15 4) w = x at hs hu hone ha
  have hput : s.putChk x = s.chkData n [w.extractLsb' 0 8] := by
    unfold State.putChk
    rw [ha, e0, e1, e2, e3]
    dsimp only
    rw [hone]
  rw [hput] at hs hu
  refine ⟨?_, ?_⟩
  · rw [State.chkRun_of hu]
    exact State.chkRun_setChkRun _ _ _
  · exact hs.regOf (regNo_CHK_Un_CFG _)

theorem scan_place : (∀ n : Fin 8, IsReg (Reg.CHK_SCs_CFG n) 15 6 n ∧ elemOf (Reg.CHK_SCs_CFG n) (Reg.CHK_Un_CFG 0) 0x10 4 = none ∧
      elemOf (Reg.CHK_SCs_CFG n) (Reg.CHK_Un_SEED 0) 0x10 4 = none ∧ elemOf (Reg.CHK_SCs_CFG n) (Reg.CHK_Un_DATA 0) 0x10 4 = none ∧
      elemOf (Reg.CHK_SCs_CFG n) (Reg.CHK_Un_DATAB 0) 0x10 4 = none ∧ elemOf (Reg.CHK_SCs_CFG n) (Reg.CHK_SCs_CFG 0) 0x20 8 = some n.val) ∧
    (∀ l, (regDesc 15 6).reach (.core 0) l ≠ 0 ∧ Fld.CHK_SCs_CFG.GO.of ((regDesc 15 6).reach (.core 0) l) = 1) := by decide +kernel

theorem scanGo_does : ∀ (n : Fin 8) (s : State), s.pwr.restoring = false → Does (.scanGo n) s fun t =>
    t.fld (Reg.CHK_SCs_STAT n) Fld.CHK_SCs_STAT.RUN = 1 ∧ (t.scan n).target = 0 ∧ (t.scan n).report = true ∧
    (t.scan n).startAt = s.now := by
  intro n s h
  refine ⟨_, exec_scanGo.trans rfl, ?_⟩
  dsimp only
  generalize hw : s.withField (Reg.CHK_SCs_CFG n) Fld.CHK_SCs_CFG.GO 1 = w
  have w1 : Fld.CHK_SCs_CFG.GO.on w = true := by
    rw [← hw]
    unfold State.withField Bits.on
    rw [Bits.of_put Fld.CHK_SCs_CFG.GO 1 _ (by decide)]
    rfl
  obtain ⟨hr, e0, e1, e2, e3, e4⟩ := scan_place.1 n
  have hcov := (scan_place.2 s.locked).1
  have hs := hr.stored (s := s) (w := w) (busy := false) (by decide) h hcov
  have hu := hr.stored_scan (s := s) (w := w) (by decide) h hcov n
  rw [State.put_chk (x := s.wrote (Reg.CHK_SCs_CFG n) (regDesc 15 6) _) hr.2.1] at hs hu
  have hone : Fld.CHK_SCs_CFG.GO.on (s.wrote (Reg.CHK_SCs_CFG n) (regDesc 15 6) w).ones = true :=
    (State.wrote_ones_on (scan_place.2 _).2).trans w1
  have ha : (s.wrote (Reg.CHK_SCs_CFG n) (regDesc 15 6) w).a = Reg.CHK_SCs_CFG n := rfl
  generalize s.wrote (Reg.CHK_SCs_CFG n) (regDesc 15 6) w = x at hs hu hone ha
  have hput : s.putChk x = (s.setReg (Reg.CHK_SCs_CFG n) x.new).scanStart n true := by
    unfold State.putChk
    rw [ha, e0, e1, e2, e3]
    dsimp only
    rw [e4]
    dsimp only
    rw [if_pos hone]
  rw [hput] at hs hu
  have hnow : (s.setReg (Reg.CHK_SCs_CFG n) x.new).now = s.now := State.setReg_now ..
  generalize s.setReg (Reg.CHK_SCs_CFG n) x.new = v at hs hu hnow
  have hsc : (v.scanStart n true).scan n = { target := 0, report := true, spoiled := false, startAt := v.now } :=
    (State.scan_setScan _ _ _ _).trans (if_pos rfl)
  unfold ScanKept at hu
  rw [hsc, hnow] at hu
  refine ⟨?_, hu⟩
  rw [hs.fldOf (regNo_CHK_SCs_STAT _)]
  unfold State.scanStart
  rw [State.fld_setScan]
  exact v.fld_setFld (Reg.CHK_SCs_STAT n) Fld.CHK_SCs_STAT.RUN 1 (by decide)

/-! ### Any register -/

theorem gpio_place : IsReg Reg.GPIO_OUT 21 0 0 ∧ IsReg Reg.GPIO_DIR 21 1 0 ∧ (∀ l, (regDesc 21 0).reach (.core 0) l ≠ 0) ∧
    (∀ l, (regDesc 21 1).reach (.core 0) l ≠ 0) := by decide +kernel

theorem State.put_gpio : ∀ (s : State) (x : Wr), unitOf x.a = 21 → s.put x = (s.setReg x.a x.new, false) := by
  intro s x h
  unfold State.put
  dsimp only
  rw [h]
  repeat rw [if_neg (by decide)]

theorem gpio_write : ∀ (a k : Nat) (w : Word) (s : State), IsReg a 21 k 0 → s.pwr.restoring = false → (regDesc 21 k).reach (.core 0) s.locked ≠ 0 →
    (∃ f : FieldDesc, (regDesc 21 k).fields[0]? = some f ∧ f.bits = ⟨0, 32⟩ ∧ f.reached (.core 0) s.locked = true ∧
      f.access = .rw ∧ f.clamp = .none) → a ≠ Reg.SYS_RSTCTL → a ≠ Reg.HLD_CMIN → a ≠ Reg.BST_CFG →
    (∀ x : Wr, x.a = a → s.put x = (s.setReg a x.new, false)) → (s.blockStore 0 a w).reg a = w := by
  intro a k w s hr h hcov hf e1 e2 e3 hp
  have hs := hr.stored (s := s) (w := w) (busy := false) (by decide) h hcov
  obtain ⟨f, f1, f2, f3, f4, f5⟩ := hf
  have hx : ∀ v, s.crossClamp a v = v := by
    intro v
    unfold State.crossClamp
    dsimp only
    rw [hr.2.1]
    repeat rw [if_neg (by decide)]
    exact s.other_noCross e1 e2 e3 v
  have hn := hr.new_fld (s := s) (w := w) hx 0 f1 f3 (.inl f4)
  rw [f2, f5] at hn
  dsimp only [Clamp.apply] at hn
  rw [Nat.mod_eq_of_lt (Bits.of_lt _ _), Bits.of_all, Bits.of_all] at hn
  have hn := BitVec.eq_of_toNat_eq hn
  rw [hp (s.wrote a (regDesc 21 k) w) rfl, hn] at hs
  have hcl : clampCounter a ≠ some a := by
    unfold clampCounter
    dsimp only
    rw [hr.2.1]
    repeat rw [if_neg (by decide)]
    exact fun e => nomatch e
  rw [hs.reg a hcl]
  exact s.reg_setReg_same _ _

theorem execRegisterWrite_host (unit : Fin 22) (index : Fin 0x4000) (w : Word) (s : State) :
    execRegisterWrite 0 unit index w s = .next (s.blockStore 0 (blockBase + 0x10000 * unit.val + 4 * index.val) w) := by
  unfold execRegisterWrite
  exact if_neg (by simp)

theorem execRegisterWrite_shut (unit : Fin 22) (index : Fin 0x4000) (w : Word) (s : State) (h : s.debugOpen = false) :
    execRegisterWrite 2 unit index w s = .next s := by
  unfold execRegisterWrite
  rw [h]
  exact if_pos (by simp)

theorem prepare_unreached (a : Nat) (w m : Word) (s : State)
    (hd : ∀ d i, regAt a = some (d, i) → d.reach (.core 0) s.locked = 0) : s.prepare (.core 0) a w m = none := by
  unfold State.prepare
  cases hr : regAt a with
  | none => rfl
  | some r =>
    obtain ⟨d, i⟩ := r
    dsimp only
    rw [hd d i hr]
    exact if_pos BitVec.zero_and

theorem busWrite_unreached (a : Nat) (w : Word) (s : State)
    (hd : ∀ d i, regAt (canonical a) = some (d, i) → d.reach (.core 0) s.locked = 0) : s.busWrite 0 a w = s := by
  have hp := prepare_unreached (canonical a) w 0xFFFFFFFF s hd
  unfold State.busWrite
  generalize s.prepare (.core 0) (canonical a) w 0xFFFFFFFF = p at hp
  rw [hp]
  exact Option.elim_none _ _

theorem State.stored_regs (s : State) : s.stored.regs = s.regs := rfl

theorem State.stored_now (s : State) : s.stored.now = s.now := rfl

theorem State.stored_bus (s : State) : s.stored.bus = .done := rfl

theorem State.scanSpoil_regs (s : State) (a n : Nat) : (s.scanSpoil a n).regs = s.regs := by
  have h := congrArg State.regs (s.scanSpoil_eq a n)
  exact h

theorem State.scanSpoil_now (s : State) (a n : Nat) : (s.scanSpoil a n).now = s.now := by
  have h := congrArg State.now (s.scanSpoil_eq a n)
  exact h

theorem blockStore_unreached (a : Nat) (w : Word) (s : State)
    (hd : ∀ d i, regAt (canonical a) = some (d, i) → d.reach (.core 0) s.locked = 0) :
    (s.blockStore 0 a w).regs = s.regs ∧ (s.blockStore 0 a w).bus = .done ∧ (s.blockStore 0 a w).now = s.now := by
  have hb := busWrite_unreached a w s hd
  unfold State.blockStore
  generalize s.busWrite 0 a w = b at hb
  subst hb
  refine ⟨?_, State.stored_bus _, ?_⟩
  · rw [State.stored_regs, State.scanSpoil_regs]
  · rw [State.stored_now, State.scanSpoil_now]

theorem gpioOut_address : blockBase + 0x10000 * (21 : Fin 22).val + 4 * (0 : Fin 0x4000).val = Reg.GPIO_OUT := by decide +kernel

theorem gpioDir_address : blockBase + 0x10000 * (21 : Fin 22).val + 4 * (1 : Fin 0x4000).val = Reg.GPIO_DIR := by decide +kernel

/-- A register write that reaches nothing leaves every register alone; one of the debugger with memory closed does
nothing; a GPIO register takes the value. -/
theorem registerWrite_does :
    (∀ (unit : Fin 22) (index : Fin 0x4000) (w : Word) (s : State),
      (∀ d i, regAt (canonical (blockBase + 0x10000 * unit.val + 4 * index.val)) = some (d, i) → d.reach (.core 0) s.locked = 0) →
      Does (.registerWrite 0 unit index w) s fun t => t.regs = s.regs ∧ t.bus = .done ∧ t.now = s.now) ∧
    (∀ (unit : Fin 22) (index : Fin 0x4000) (w : Word) (s : State), s.debugOpen = false →
      Does (.registerWrite 2 unit index w) s fun t => t = s) ∧
    (∀ (w : Word) (s : State), s.pwr.restoring = false → Does (.registerWrite 0 21 0 w) s fun t => t.reg Reg.GPIO_OUT = w) ∧
    (∀ (w : Word) (s : State), s.pwr.restoring = false → Does (.registerWrite 0 21 1 w) s fun t => t.reg Reg.GPIO_DIR = w) := by
  refine ⟨?_, ?_, ?_, ?_⟩
  · intro unit index w s hd
    exact ⟨_, exec_registerWrite.trans (execRegisterWrite_host unit index w s), blockStore_unreached _ w s hd⟩
  · intro unit index w s hd
    exact ⟨s, exec_registerWrite.trans (execRegisterWrite_shut unit index w s hd), rfl⟩
  · intro w s h
    refine ⟨_, exec_registerWrite.trans ((execRegisterWrite_host 21 0 w s).trans (by rw [gpioOut_address])), ?_⟩
    exact gpio_write Reg.GPIO_OUT 0 w s gpio_place.1 h (gpio_place.2.2.1 _)
      ⟨⟨Fld.GPIO_OUT.V, .rw, fun _ => 0, .none, false, true⟩, rfl, rfl, by cases s.locked <;> rfl, rfl, rfl⟩ (by decide) (by decide) (by decide)
      fun x ha => by rw [State.put_gpio s x (by rw [ha]; exact gpio_place.1.2.1), ha]
  · intro w s h
    refine ⟨_, exec_registerWrite.trans ((execRegisterWrite_host 21 1 w s).trans (by rw [gpioDir_address])), ?_⟩
    exact gpio_write Reg.GPIO_DIR 1 w s gpio_place.2.1 h (gpio_place.2.2.2 _)
      ⟨⟨Fld.GPIO_DIR.V, .rw, fun _ => 0, .none, false, true⟩, rfl, rfl, by cases s.locked <;> rfl, rfl, rfl⟩ (by decide) (by decide) (by decide)
      fun x ha => by rw [State.put_gpio s x (by rw [ha]; exact gpio_place.2.1.2.1), ha]

end Sys2Proof.Machine
end

