-- ==== Sys2Proof/Laws/EffectCan.lean ====
section
/-! SUPPORT. What the events of the CAN controllers do. -/

set_option Elab.async false

namespace Sys2Proof.Machine

/-! ### CAN -/

theorem State.canCtl_set (s : State) (c : Nat) (x : CanCtl) : (s.setCanCtl c x).canCtl c = x :=
  (State.canCtl_setCanCtl s c c x).trans (if_pos rfl)

theorem State.canFrameEnd_staged (s : State) (c : Nat) : ((s.canFrameEnd c).canCtl c).staged = (s.canCtl c).staged ∧
    ((s.canFrameEnd c).canCtl c).tts = (s.canCtl c).tts ∧ ((s.canFrameEnd c).canCtl c).stopping = false := by
  unfold State.canFrameEnd
  by_cases h : (s.canCtl c).stopping = true
  · rw [if_pos h]
    have e : ((s.setCanCtl c { s.canCtl c with stopping := false }).setFld (Reg.CAN_STAT c) Fld.CAN_STAT.RUN 0).canCtl c =
        { s.canCtl c with stopping := false } := (State.canCtl_of rfl c).trans (State.canCtl_set s c _)
    rw [e]
    exact ⟨rfl, rfl, rfl⟩
  · rw [if_neg h]
    exact ⟨rfl, rfl, Bool.eq_false_iff.mpr h⟩

/-! ### Transmission -/

/-- A TX slot whose check word is wrong halts its ring at the slot; a controller that cannot fetch does nothing. -/
theorem canTxFetch_does :
    (∀ (c : Fin 4) (s : State), s.canCanFetch c = false → Does (.canTxFetch c) s fun t => t = s) ∧
    (∀ (c : Fin 4) (s : State), s.canCanFetch c = true → (s.firstBad (s.canTxSlot c (s.canTxIdx c)) 8).isSome = false →
      s.canSlotSound c = false → Does (.canTxFetch c) s fun t => t.canHalted c = true ∧ t.canTxIdx c = s.canTxIdx c ∧ t.can = s.can) := by
  refine ⟨?_, ?_⟩
  · intro c s h
    refine ⟨_, exec_canTxFetch.trans rfl, ?_⟩
    dsimp only
    rw [h, if_neg (by decide)]
  · intro c s h h2 h3
    refine ⟨_, exec_canTxFetch.trans rfl, ?_⟩
    dsimp only
    rw [h, if_pos rfl]
    unfold State.canFetch
    extract_lets k off ws w1
    have hb : s.firstBad off 8 = none := by
      cases hx : s.firstBad off 8 with
      | none => rfl
      | some a =>
        have h2' : (s.firstBad off 8).isSome = false := h2
        rw [hx] at h2'
        cases h2'
    rw [hb]
    dsimp only
    rw [if_pos (by
      have : ¬ (ws.getD 7 0 = Crc.checkC (bytesOfWords (ws.take 7 ++ [dataFold (canTxRing c) k (s.canTxEpoch c)]))) := by
        have h3' : decide (ws.getD 7 0 = Crc.checkC (bytesOfWords (ws.take 7 ++ [dataFold (canTxRing c) k (s.canTxEpoch c)]))) = false := h3
        exact of_decide_eq_false h3'
      exact this)]
    unfold State.canTxHalt
    refine ⟨?_, ?_, ?_⟩
    · refine (State.event_frame.on (regNo_CAN_TXIDX c)).trans ?_
      exact congrArg (· != 0) (s.fld_setFld (Reg.CAN_TXIDX c) Fld.CAN_TXIDX.HALT 1)
    · refine (State.event_frame.fld (regNo_CAN_TXIDX c)).trans ?_
      exact State.fld_setFld_field _ _ (f := Fld.CAN_TXIDX.HALT) (g := Fld.CAN_TXIDX.IDX) _ (by decide)
    · exact State.event_frame.can (by decide)

/-- Counting a frame that found no room changes no staged frame. -/
theorem State.canDrop_staged (s : State) (c : Nat) : ((s.canDrop c).canCtl c).staged = (s.canCtl c).staged := by
  unfold State.canDrop
  extract_lets u x n
  have hu : u.canCtl c = s.canCtl c := State.canCtl_of rfl c
  have hx : x.staged = (s.canCtl c).staged := congrArg CanCtl.staged hu
  clear_value u x
  split
  · exact (congrArg CanCtl.staged (State.canCtl_set u c _)).trans hx
  · exact (congrArg CanCtl.staged ((State.canCtl_of (State.event_frame.can (by decide)) c).trans (State.canCtl_set u c _))).trans hx

theorem State.canStore_staged (s : State) (c : Nat) (f : CanFrame) (n : Option Nat) (x4 x5 : Word) :
    ((s.canStore c f n x4 x5).canCtl c).staged = (s.canCtl c).staged := by
  unfold State.canStore
  split
  · exact s.canDrop_staged c
  · exact congrArg CanCtl.staged (State.canCtl_of ((State.canWriteEntry_frame (by simp)).can (by decide)) c)

/-- A frame that is received changes no staged frame. -/
theorem State.canAccept_staged (s : State) (c : Nat) (f : CanFrame) (x4 x5 : Word) :
    ((s.canAccept c f x4 x5).canCtl c).staged = (s.canCtl c).staged := by
  unfold State.canAccept
  split
  · rename_i n _
    dsimp only
    split
    · rfl
    · split
      · exact (congrArg CanCtl.staged (State.canCtl_of (State.wakeBy_frame.can (by decide)) c)).trans (s.canStore_staged c f (some n) x4 x5)
      · exact s.canStore_staged c f (some n) x4 x5
  · split
    · exact s.canStore_staged c f none x4 x5
    · rfl

theorem State.canOwn_staged (s : State) (c : Nat) (ws : List Word) (d : List Byte) (x4 x5 : Word) :
    ((s.canOwn c ws d x4 x5).canCtl c).staged = (s.canCtl c).staged := by
  unfold State.canOwn
  split
  · rfl
  · exact s.canAccept_staged c _ x4 x5

/-- The measured loop delay changes no staged frame. -/
theorem State.canTdcv_staged (x : State) (c : Nat) (v : Option Nat) : ((x.canTdcv c v).canCtl c).staged = (x.canCtl c).staged := by
  unfold State.canTdcv
  split
  · split
    · rfl
    · split
      · exact congrArg CanCtl.staged (State.canCtl_of rfl c)
      · dsimp only
        split
        · exact congrArg CanCtl.staged (State.canCtl_of rfl c)
        · refine (congrArg CanCtl.staged ((State.canCtl_of (State.event_frame.can (by decide)) c).trans (State.canCtl_set _ c _))).trans ?_
          exact (congrArg CanCtl.staged (State.canCtl_of (s := x) (t := x.count (Reg.CAN_CNT2 c) Fld.CAN_CNT2.TDCERR) rfl c) :)
  · rfl

/-- The end of a frame: it leaves the staging buffers, and TEC falls by one. -/
theorem canFrameSent_does :
    (∀ (c : Fin 4) (k fc : Nat) (v : Option (Fin 128)) (f : CanTx) (s : State), (s.canCtl c).staged.find? (·.started) = some f →
      Does (.canFrameSent c k fc v) s fun t =>
        t.fld (Reg.CAN_ERR c) Fld.CAN_ERR.TEC = s.fld (Reg.CAN_ERR c) Fld.CAN_ERR.TEC - 1 ∧
        (t.canCtl c).staged = (s.canCtl c).staged.filter fun g => !g.started) ∧
    (∀ (c : Fin 4) (k fc : Nat) (v : Option (Fin 128)) (s : State), (s.canCtl c).staged.find? (·.started) = none →
      ((s.canCtl c).tts.any fun f => f.started && !f.expect) = false → Does (.canFrameSent c k fc v) s fun t => t = s) := by
  refine ⟨?_, ?_⟩
  · intro c k fc v f s h
    refine ⟨_, exec_canFrameSent.trans rfl, ?_⟩
    dsimp only
    rw [h]
    dsimp only
    have hlt : s.fld (Reg.CAN_ERR c) Fld.CAN_ERR.TEC - 1 < 2 ^ Fld.CAN_ERR.TEC.width :=
      Nat.lt_of_le_of_lt (Nat.sub_le _ _) (Bits.of_lt _ _)
    have hu : ((s.setCanCtl c { s.canCtl c with staged := (s.canCtl c).staged.filter fun g => !g.started }).canCtl c).staged =
        (s.canCtl c).staged.filter fun g => !g.started := by rw [State.canCtl_set]
    generalize s.setCanCtl c { s.canCtl c with staged := (s.canCtl c).staged.filter fun g => !g.started } = u at hu
    have hv : ((u.canConfirm c f 1 (BitVec.ofNat 32 (s.tick - k)) (BitVec.ofNat 32 fc)).canCtl c).staged =
        (s.canCtl c).staged.filter fun g => !g.started :=
      (congrArg CanCtl.staged (State.canCtl_of (State.canConfirm_frame.can (by decide)) c)).trans hu
    generalize u.canConfirm c f 1 (BitVec.ofNat 32 (s.tick - k)) (BitVec.ofNat 32 fc) = x at hv
    refine ⟨?_, ?_⟩
    · refine (State.canFrameEnd_frame.fld (regNo_CAN_ERR c)).trans ((State.canOwn_frame.fld (regNo_CAN_ERR c)).trans ?_)
      exact (State.fld_setFld _ (Reg.CAN_ERR c) Fld.CAN_ERR.TEC _).trans (Nat.mod_eq_of_lt hlt)
    · refine (State.canFrameEnd_staged _ c).1.trans ((State.canOwn_staged _ c _ _ _ _).trans ?_)
      exact (congrArg CanCtl.staged (State.canCtl_of rfl c)).trans ((State.canTdcv_staged x c _).trans hv)
  · intro c k fc v s h h2
    refine ⟨_, exec_canFrameSent.trans rfl, ?_⟩
    dsimp only
    rw [h]
    dsimp only
    rw [List.find?_eq_none.2 (fun f hf => List.any_eq_false.1 h2 f hf)]

/-- A frame not started within LATEWIN of its launch instant is discarded and counted. -/
theorem canTxExpired_does :
    (∀ (c : Fin 4) (k : Fin 4096) (f : CanTx) (n : Nat) (s : State),
      ((s.canCtl c).staged.find? fun f => f.slot == k.val && !f.started) = some f → f.launch.bind (·.instant) = some n →
      s.fld (Reg.CAN_TXCFG c) Fld.CAN_TXCFG.LATEWIN ≠ 0 → Does (.canTxExpired c k) s fun t =>
        t.fld (Reg.CAN_CNT c) Fld.CAN_CNT.TXEXP = satAdd 8 (s.fld (Reg.CAN_CNT c) Fld.CAN_CNT.TXEXP) 1 ∧
        (t.canCtl c).staged = (s.canCtl c).staged.filter (fun g => g.slot != k.val) ∧
        t.now = max s.now (n + s.fld (Reg.CAN_TXCFG c) Fld.CAN_TXCFG.LATEWIN * 6400)) ∧
    (∀ (c : Fin 4) (k : Fin 4096) (s : State), ((s.canCtl c).staged.find? fun f => f.slot == k.val && !f.started) = none →
      Does (.canTxExpired c k) s fun t => t = s) := by
  refine ⟨?_, ?_⟩
  · intro c k f n s h1 h2 h3
    refine Does.via exec_canTxExpired ?_
    unfold execCanTxExpired
    dsimp only
    rw [h1]
    dsimp only
    rw [h2]
    dsimp only
    rw [if_neg h3]
    refine ⟨_, rfl, ?_⟩
    refine ⟨?_, ?_, State.canConfirmUnsent_frame.now (by decide)⟩
    · refine (State.canConfirmUnsent_frame.fld (regNo_CAN_CNT c)).trans ?_
      exact State.fld_count _ (Reg.CAN_CNT c) Fld.CAN_CNT.TXEXP 1
    · refine (congrArg CanCtl.staged ((State.canCtl_of (State.canConfirmUnsent_frame.can (by decide)) c).trans (State.canCtl_of rfl c))).trans ?_
      exact congrArg CanCtl.staged (State.canCtl_set _ c _)
  · intro c k s h
    refine Does.via exec_canTxExpired ?_
    unfold execCanTxExpired
    dsimp only
    rw [h]
    exact ⟨_, rfl, rfl⟩

/-- With no TT frame waiting and no TT column near, the lowest of the frames that compete starts. -/
theorem canTxStart_does :
    (∀ (c : Fin 4) (n : Nat) (s : State), (s.at n).canMayStart c = false → Does (.canTxStart c n) s fun t => t = s.at n) ∧
    (∀ (c : Fin 4) (n : Nat) (f : CanTx) (s : State), (s.at n).canMayStart c = true → (s.canCtl c).tts = [] →
      (s.at n).ttGuarded c n = false → lowestFrame ((s.at n).canCompeting c) = some f → Does (.canTxStart c n) s fun t =>
        (t.canCtl c).staged = (s.canCtl c).staged.map (markSlot f.slot true) ∧ t.regs = s.regs ∧ t.now = max s.now n) := by
  refine ⟨?_, ?_⟩
  · intro c n s h
    refine ⟨_, exec_canTxStart.trans rfl, ?_⟩
    dsimp only
    rw [h, if_pos (by decide)]
  · intro c n f s h1 h2 h3 h4
    refine ⟨_, exec_canTxStart.trans rfl, ?_⟩
    dsimp only
    rw [h1, if_neg (by decide)]
    rw [show ((s.at n).canCtl c).tts = [] from h2]
    rw [if_neg (by simp), h3, if_neg (by decide), h4]
    dsimp only
    exact ⟨congrArg CanCtl.staged (State.canCtl_set _ c _), rfl, rfl⟩

/-- An error on the bus: the frame stays staged, and the counters are those of the standard. -/
theorem canBusError_does :
    (∀ (c : Fin 4) (tec rec : Fin 256) (lec : Fin 8) (v : Option Nat) (s : State), s.canDet c = true →
      Does (.canBusError c tec rec lec v) s fun t => t = s) ∧
    (∀ (c : Fin 4) (tec rec : Fin 256) (lec : Fin 8) (v : Option Nat) (s : State), s.canDet c = false →
      Does (.canBusError c tec rec lec v) s fun t => t.fld (Reg.CAN_ERR c) Fld.CAN_ERR.TEC = tec ∧
        t.fld (Reg.CAN_ERR c) Fld.CAN_ERR.REC = rec ∧ t.fld (Reg.CAN_ERR c) Fld.CAN_ERR.LEC = lec) := by
  refine ⟨?_, ?_⟩
  · intro c tec rec lec v s h
    refine Does.via exec_canBusError ?_
    unfold execCanBusError
    rw [h, if_pos rfl]
    exact ⟨_, rfl, rfl⟩
  · intro c tec rec lec v s h
    refine Does.via exec_canBusError ?_
    unfold execCanBusError
    rw [h, if_neg (by decide)]
    extract_lets x u w
    refine ⟨_, rfl, ?_⟩
    have hw : w.fld (Reg.CAN_ERR c) Fld.CAN_ERR.TEC = tec :=
      (State.fld_setFld _ (Reg.CAN_ERR c) Fld.CAN_ERR.TEC tec).trans (Nat.mod_eq_of_lt tec.isLt)
    clear_value w
    refine ⟨?_, ?_, ?_⟩
    · refine (State.canFrameEnd_frame.fld (regNo_CAN_ERR c)).trans ?_
      exact (State.fld_setFld_field _ _ (f := Fld.CAN_ERR.LEC) (g := Fld.CAN_ERR.TEC) _ (by decide)).trans
        ((State.fld_setFld_field _ _ (f := Fld.CAN_ERR.REC) (g := Fld.CAN_ERR.TEC) _ (by decide)).trans hw)
    · refine (State.canFrameEnd_frame.fld (regNo_CAN_ERR c)).trans ?_
      exact (State.fld_setFld_field _ _ (f := Fld.CAN_ERR.LEC) (g := Fld.CAN_ERR.REC) _ (by decide)).trans
        ((State.fld_setFld _ (Reg.CAN_ERR c) Fld.CAN_ERR.REC rec).trans (Nat.mod_eq_of_lt rec.isLt))
    · refine (State.canFrameEnd_frame.fld (regNo_CAN_ERR c)).trans ?_
      exact (State.fld_setFld _ (Reg.CAN_ERR c) Fld.CAN_ERR.LEC lec).trans (Nat.mod_eq_of_lt lec.isLt)

/-- A controller that is alive, out of INIT and detection and not in bus-off takes part in traffic after integration. -/
theorem canIntegrationDone_does :
    (∀ (c : Fin 4) (s : State), s.canAlive c = true → s.canInit c = false → s.canDet c = false → s.canErrState c ≠ 2 →
      (s.canCtl c).swap = none → Does (.canIntegrationDone c) s fun t => t.canRuns c = true ∧ t.can = s.can) ∧
    (∀ (c : Fin 4) (s : State), s.canAlive c = false ∨ s.canInit c = true ∨ s.canDet c = true ∨ s.canErrState c = 2 →
      Does (.canIntegrationDone c) s fun t => t = s) := by
  refine ⟨?_, ?_⟩
  · intro c s h1 h2 h3 h4 h5
    refine ⟨_, exec_canIntegrationDone.trans rfl, ?_⟩
    dsimp only
    rw [h1, h2, h3, h5, if_pos (by simp [h4])]
    exact ⟨congrArg (· != 0) (s.fld_setFld (Reg.CAN_STAT c) Fld.CAN_STAT.RUN 1), rfl⟩
  · intro c s h
    refine ⟨_, exec_canIntegrationDone.trans rfl, ?_⟩
    dsimp only
    rw [if_neg]
    rcases h with h | h | h | h <;> simp [h]

/-! ### Reception and detection -/

/-- A received frame lowers REC by one, at most to 0 (above 127 the value is open: log). One that a controller out of traffic would
see does nothing. -/
theorem canFrameReceived_does :
    (∀ (c : Fin 4) (x0 x1 x2 x3 : Word) (d : List Byte) (k fc : Nat) (s : State), s.canAlive c = false ∨ s.canRuns c = false ∧ s.canDet c = false ∨
        s.fld (Reg.CAN_CTRL c) Fld.CAN_CTRL.MODE = 3 →
      Does (.canFrameReceived c x0 x1 x2 x3 d k fc) s fun t => t = s) ∧
    (∀ (c : Fin 4) (x0 x1 x2 x3 : Word) (d : List Byte) (k fc : Nat) (s : State), s.canAlive c = true → s.canRuns c = true → s.canDet c = false →
      s.fld (Reg.CAN_CTRL c) Fld.CAN_CTRL.MODE ≠ 3 → x1.toNat % 4 < 2 → s.fld (Reg.CAN_ERR c) Fld.CAN_ERR.REC ≤ 127 → Does (.canFrameReceived c x0 x1 x2 x3 d k fc) s fun t =>
        t.fld (Reg.CAN_ERR c) Fld.CAN_ERR.REC = s.fld (Reg.CAN_ERR c) Fld.CAN_ERR.REC - 1 ∧
        t.fld (Reg.CAN_ERR c) Fld.CAN_ERR.TEC = s.fld (Reg.CAN_ERR c) Fld.CAN_ERR.TEC) := by
  refine ⟨?_, ?_⟩
  · intro c x0 x1 x2 x3 d k fc s h
    refine Does.via exec_canFrameReceived ?_
    unfold execCanFrameReceived
    dsimp only
    rw [if_pos (by rcases h with h | ⟨h, h'⟩ | h; simp [h]; simp [h, h']; simp [h])]
    exact ⟨_, rfl, rfl⟩
  · intro c x0 x1 x2 x3 d k fc s h1 h2 h3 hm h4 h5
    refine Does.via exec_canFrameReceived ?_
    unfold execCanFrameReceived
    extract_lets f x u v
    have hf : f.fmt < 2 := by
      have e : f.fmt = (x1 &&& 0x0FFFFF0F).toNat % 4 := rfl
      rw [e, BitVec.toNat_and]
      have : ∀ a b : Nat, a % 4 < 2 → (a &&& b) % 4 < 2 := by
        intro a b h
        have e2 : (a &&& b) % 4 = (a % 4) &&& (b % 4) := by
          rw [show (4 : Nat) = 2 ^ 2 from rfl]
          exact Nat.and_mod_two_pow ..
        rw [e2]
        exact Nat.lt_of_le_of_lt Nat.and_le_left h
      exact this _ _ h4
    rw [if_neg (by
      have hx : ¬ 2 < f.fmt := by omega
      have hy : f.fmt ≠ 2 := by omega
      simp [h1, h2, h3, hm, hx, hy])]
    refine ⟨_, rfl, ?_⟩
    have hd : u.canDet c = false := (congrArg (· != 0) (State.fld_of_regs rfl _ _) : u.canDet c = s.canDet c).trans h3
    have hur : ∀ g, u.fld (Reg.CAN_ERR c) g = s.fld (Reg.CAN_ERR c) g := fun g => State.fld_of_regs rfl _ _
    have hv : v = u.canRecDown c := by
      unfold v
      rw [hd, if_neg (by decide)]
    clear_value v u
    subst hv
    have hr : (u.canRecDown c).fld (Reg.CAN_ERR c) Fld.CAN_ERR.REC = s.fld (Reg.CAN_ERR c) Fld.CAN_ERR.REC - 1 ∧
        (u.canRecDown c).fld (Reg.CAN_ERR c) Fld.CAN_ERR.TEC = s.fld (Reg.CAN_ERR c) Fld.CAN_ERR.TEC := by
      unfold State.canRecDown
      extract_lets r
      have hr : r = s.fld (Reg.CAN_ERR c) Fld.CAN_ERR.REC := hur _
      rw [hr, if_neg (by omega)]
      refine ⟨?_, ?_⟩
      · refine (State.fld_setFld _ (Reg.CAN_ERR c) Fld.CAN_ERR.REC _).trans (Nat.mod_eq_of_lt ?_)
        show _ < 256
        omega
      · exact (State.fld_setFld_field _ _ (f := Fld.CAN_ERR.REC) (g := Fld.CAN_ERR.TEC) _ (by decide)).trans (hur _)
    generalize u.canRecDown c = y at hr
    refine ⟨?_, ?_⟩
    · exact (State.canFrameEnd_frame.fld (regNo_CAN_ERR c)).trans ((State.canAccept_frame.fld (regNo_CAN_ERR c)).trans hr.1)
    · exact (State.canFrameEnd_frame.fld (regNo_CAN_ERR c)).trans ((State.canAccept_frame.fld (regNo_CAN_ERR c)).trans hr.2)

/-- Rate detection goes to the next candidate, and after the last to the first. -/
theorem canRateCandidateSwitch_does :
    (∀ (c : Fin 4) (s : State), s.canDet c = false → Does (.canRateCandidateSwitch c) s fun t => t = s) ∧
    (∀ (c : Fin 4) (s : State), s.canDet c = true → s.fld (Reg.CAN_STAT c) Fld.CAN_STAT.CAND < s.fld (Reg.CAN_AD c) Fld.CAN_AD.NCAND →
      s.fld (Reg.CAN_AD c) Fld.CAN_AD.NCAND < 8 → Does (.canRateCandidateSwitch c) s fun t =>
        t.fld (Reg.CAN_STAT c) Fld.CAN_STAT.CAND = s.fld (Reg.CAN_STAT c) Fld.CAN_STAT.CAND + 1 ∧ (t.canCtl c).good = 0) ∧
    (∀ (c : Fin 4) (s : State), s.canDet c = true → s.fld (Reg.CAN_AD c) Fld.CAN_AD.NCAND ≤ s.fld (Reg.CAN_STAT c) Fld.CAN_STAT.CAND →
      Does (.canRateCandidateSwitch c) s fun t => t.fld (Reg.CAN_STAT c) Fld.CAN_STAT.CAND = 0 ∧ (t.canCtl c).good = 0 ∧
        (t.canCtl c).sweeps = (s.canCtl c).sweeps + 1) := by
  refine ⟨?_, ?_, ?_⟩
  · intro c s h
    refine Does.via exec_canRateCandidateSwitch ?_
    unfold execCanRateCandidateSwitch
    rw [h, if_pos (by decide)]
    exact ⟨_, rfl, rfl⟩
  · intro c s h h2 h3
    refine Does.via exec_canRateCandidateSwitch ?_
    unfold execCanRateCandidateSwitch
    rw [h, if_neg (by decide)]
    extract_lets i src u
    have hu : ∀ a f, u.fld a f = s.fld a f := fun a f => State.fld_of_regs rfl _ _
    rw [hu, if_pos h2]
    refine ⟨_, rfl, ?_, ?_⟩
    · refine (u.fld_setFld (Reg.CAN_STAT c) Fld.CAN_STAT.CAND _).trans (Nat.mod_eq_of_lt ?_)
      show _ < 8
      have : i = s.fld (Reg.CAN_STAT c) Fld.CAN_STAT.CAND := rfl
      omega
    · exact (congrArg CanCtl.good ((State.canCtl_of rfl c).trans (State.canCtl_set s c _)) :)
  · intro c s h h2
    refine Does.via exec_canRateCandidateSwitch ?_
    unfold execCanRateCandidateSwitch
    rw [h, if_neg (by decide)]
    extract_lets i src u v x n quiet
    have hu : ∀ a f, u.fld a f = s.fld a f := fun a f => State.fld_of_regs rfl _ _
    rw [hu, if_neg (Nat.not_lt.mpr h2)]
    refine ⟨_, rfl, ?_⟩
    have hv : v.fld (Reg.CAN_STAT c) Fld.CAN_STAT.CAND = 0 := u.fld_setFld (Reg.CAN_STAT c) Fld.CAN_STAT.CAND 0
    have hx : x = { s.canCtl c with good := 0 } := (State.canCtl_of rfl c).trans (State.canCtl_set s c _)
    have hn : n = (s.canCtl c).sweeps + 1 := by unfold n; rw [hx]
    clear_value v x n quiet
    subst hx hn
    split
    · refine ⟨(State.fld_of_regs rfl _ _).trans hv, ?_, ?_⟩
      · rw [State.canCtl_set]
      · rw [State.canCtl_set]
    · refine ⟨(State.event_frame.fld (regNo_CAN_STAT c)).trans ((State.fld_of_regs rfl _ _).trans hv), ?_, ?_⟩
      · rw [State.canCtl_of (State.event_frame.can (by decide)), State.canCtl_set]
      · rw [State.canCtl_of (State.event_frame.can (by decide)), State.canCtl_set]

/-! ### Error states -/

/-- A new error state is shown with its counters. -/
theorem canErrorStateChange_does :
    (∀ (c : Fin 4) (st : Fin 3) (tec rec : Fin 256) (s : State),
      s.canDet c = true ∨ s.canErrState c = st.val ∨ s.canErrState c = 2 ∨ s.canAlive c = false →
      Does (.canErrorStateChange c st tec rec) s fun t => t = s) ∧
    (∀ (c : Fin 4) (st : Fin 3) (tec rec : Fin 256) (s : State), s.canDet c = false → s.canErrState c ≠ st.val →
      s.canErrState c ≠ 2 → s.canAlive c = true → Does (.canErrorStateChange c st tec rec) s fun t => t.canErrState c = st.val ∧ t.fld (Reg.CAN_ERR c) Fld.CAN_ERR.TEC = tec ∧
        t.fld (Reg.CAN_ERR c) Fld.CAN_ERR.REC = rec ∧ (st = 2 → t.canRuns c = false)) := by
  refine ⟨?_, ?_⟩
  · intro c st tec rec s h
    refine Does.via exec_canErrorStateChange ?_
    unfold execCanErrorStateChange
    dsimp only
    rw [if_pos (by rcases h with h | h | h | h <;> simp [h])]
    exact ⟨_, rfl, rfl⟩
  · intro c st tec rec s h h2 h3 h4
    refine Does.via exec_canErrorStateChange ?_
    unfold execCanErrorStateChange
    extract_lets old u v
    rw [if_neg (by
      have h2 : ¬ old = st.val := h2
      have h3 : ¬ old = 2 := h3
      simp [h, h2, h3, h4])]
    refine ⟨_, rfl, ?_⟩
    have hv : v.canErrState c = st.val ∧ v.fld (Reg.CAN_ERR c) Fld.CAN_ERR.TEC = tec ∧ v.fld (Reg.CAN_ERR c) Fld.CAN_ERR.REC = rec := by
      refine ⟨?_, ?_, ?_⟩
      · refine (State.fld_setFld_field _ _ (f := Fld.CAN_ERR.REC) (g := Fld.CAN_ERR.STATE) _ (by decide)).trans ?_
        refine (State.fld_setFld_field _ _ (f := Fld.CAN_ERR.TEC) (g := Fld.CAN_ERR.STATE) _ (by decide)).trans ?_
        exact (State.fld_setFld _ (Reg.CAN_ERR c) Fld.CAN_ERR.STATE st).trans (Nat.mod_eq_of_lt (by have := st.isLt; show _ < 4; omega))
      · refine (State.fld_setFld_field _ _ (f := Fld.CAN_ERR.REC) (g := Fld.CAN_ERR.TEC) _ (by decide)).trans ?_
        exact (State.fld_setFld _ (Reg.CAN_ERR c) Fld.CAN_ERR.TEC tec).trans (Nat.mod_eq_of_lt tec.isLt)
      · exact (State.fld_setFld _ (Reg.CAN_ERR c) Fld.CAN_ERR.REC rec).trans (Nat.mod_eq_of_lt rec.isLt)
    clear_value v
    by_cases h3 : st.val = 2
    · rw [if_pos h3]
      refine ⟨?_, ?_, ?_, fun _ => ?_⟩
      · exact (State.canBusOff_frame.fld (regNo_CAN_ERR c)).trans hv.1
      · exact (State.canBusOff_frame.fld (regNo_CAN_ERR c)).trans hv.2.1
      · exact (State.canBusOff_frame.fld (regNo_CAN_ERR c)).trans hv.2.2
      · unfold State.canBusOff
        extract_lets x y z
        refine (State.event_frame.on (regNo_CAN_STAT c)).trans ((State.f2Begins_frame.on (regNo_CAN_STAT c)).trans ?_)
        have e : z.fld (Reg.CAN_STAT c) Fld.CAN_STAT.RUN = 0 :=
          (State.fld_setFld_other _ _ _ _ (reg_ne (regNo_CAN_STAT c) (regNo_CAN_CNT c))).trans (y.fld_setFld (Reg.CAN_STAT c) Fld.CAN_STAT.RUN 0)
        exact (congrArg (· != 0) e :)
    · rw [if_neg h3]
      have h4 : st ≠ 2 := fun e => h3 (by rw [e]; rfl)
      split
      · exact ⟨(State.event_frame.fld (regNo_CAN_ERR c)).trans hv.1, (State.event_frame.fld (regNo_CAN_ERR c)).trans hv.2.1,
          (State.event_frame.fld (regNo_CAN_ERR c)).trans hv.2.2, fun e => absurd e h4⟩
      · exact ⟨hv.1, hv.2.1, hv.2.2, fun e => absurd e h4⟩

/-- The end of bus-off recovery: error-active, counters 0, in traffic again. -/
theorem canBusRecovered_does :
    (∀ (c : Fin 4) (s : State), s.canErrState c ≠ 2 ∨ (s.canCtl c).recovering = false ∨ s.canInit c = true →
      Does (.canBusRecovered c) s fun t => t = s) ∧
    (∀ (c : Fin 4) (s : State), s.canErrState c = 2 → (s.canCtl c).recovering = true → s.canInit c = false →
      Does (.canBusRecovered c) s fun t => t.canErrState c = 0 ∧ t.fld (Reg.CAN_ERR c) Fld.CAN_ERR.TEC = 0 ∧
        t.fld (Reg.CAN_ERR c) Fld.CAN_ERR.REC = 0 ∧ (t.canCtl c).recovering = false ∧ t.canRuns c = true) := by
  refine ⟨?_, ?_⟩
  · intro c s h
    refine Does.via exec_canBusRecovered ?_
    unfold execCanBusRecovered
    dsimp only
    rw [if_pos (by rcases h with h | h | h <;> simp [h])]
    exact ⟨_, rfl, rfl⟩
  · intro c s h1 h2 h3
    refine Does.via exec_canBusRecovered ?_
    unfold execCanBusRecovered
    extract_lets x u v w ms
    rw [if_neg (by
      have : x.recovering = true := h2
      simp [h1, this, h3])]
    refine ⟨_, rfl, ?_⟩
    have hv : v.canErrState c = 0 ∧ v.fld (Reg.CAN_ERR c) Fld.CAN_ERR.TEC = 0 ∧ v.fld (Reg.CAN_ERR c) Fld.CAN_ERR.REC = 0 := by
      refine ⟨?_, ?_, ?_⟩
      · refine (State.fld_setFld_field _ _ (f := Fld.CAN_ERR.REC) (g := Fld.CAN_ERR.STATE) _ (by decide)).trans ?_
        refine (State.fld_setFld_field _ _ (f := Fld.CAN_ERR.TEC) (g := Fld.CAN_ERR.STATE) _ (by decide)).trans ?_
        exact State.fld_setFld _ (Reg.CAN_ERR c) Fld.CAN_ERR.STATE 0
      · refine (State.fld_setFld_field _ _ (f := Fld.CAN_ERR.REC) (g := Fld.CAN_ERR.TEC) _ (by decide)).trans ?_
        exact State.fld_setFld _ (Reg.CAN_ERR c) Fld.CAN_ERR.TEC 0
      · exact State.fld_setFld _ (Reg.CAN_ERR c) Fld.CAN_ERR.REC 0
    have he : ∀ f, w.fld (Reg.CAN_ERR c) f = v.fld (Reg.CAN_ERR c) f := fun f =>
      (State.fld_setFld_other _ _ _ _ (reg_ne (regNo_CAN_ERR c) (regNo_CAN_STAT c))).trans (State.fld_of_regs rfl _ _)
    have hr : w.canRuns c = true := congrArg (· != 0) (State.fld_setFld _ (Reg.CAN_STAT c) Fld.CAN_STAT.RUN 1)
    have hc : (w.canCtl c).recovering = false := by
      exact (congrArg CanCtl.recovering (State.canCtl_set v c { x with recovering := false }) :)
    clear_value w
    have k : ∀ {y : State}, Frame (Foot.f2Ends ||| Foot.event) w y → y.canErrState c = 0 ∧ y.fld (Reg.CAN_ERR c) Fld.CAN_ERR.TEC = 0 ∧
        y.fld (Reg.CAN_ERR c) Fld.CAN_ERR.REC = 0 ∧ (y.canCtl c).recovering = false ∧ y.canRuns c = true := fun f =>
      ⟨(f.fld (regNo_CAN_ERR c)).trans ((he _).trans hv.1), (f.fld (regNo_CAN_ERR c)).trans ((he _).trans hv.2.1),
        (f.fld (regNo_CAN_ERR c)).trans ((he _).trans hv.2.2), (congrArg CanCtl.recovering (State.canCtl_of (f.can (by decide)) c)).trans hc,
        (f.on (regNo_CAN_STAT c)).trans hr⟩
    exact k (Frame.step State.event_frame (Frame.step State.f2Ends_frame (Frame.refl _ _)))

end Sys2Proof.Machine
end

