-- ==== Sys2Proof/Laws/EffectCan2.lean ====
section
/-! SUPPORT. What the events of the schedule matrix and of the CAN spare do. -/

set_option Elab.async false

namespace Sys2Proof.Machine

/-! ### Schedule matrix -/

/-- A basic cycle begins: its number is that of the time base, which is vehicle time where that is valid. -/
theorem canTtCycleStart_does :
    (∀ (c : Fin 4) (n : Nat) (s : State), s.ttOn c = false ∨ s.canAlive c = false ∨ s.canInit c = true ∨
      s.ttTime (s.at n).vtValid (max s.now n) % s.ttCyclen c ≠ 0 → Does (.canTtCycleStart c n) s fun t => t = s.at n) ∧
    (∀ (c : Fin 4) (n : Nat) (s : State), s.ttOn c = true → s.canAlive c = true → s.canInit c = false →
      s.ttTime (s.at n).vtValid (max s.now n) % s.ttCyclen c = 0 → Does (.canTtCycleStart c n) s fun t =>
      t.ttCycle c = (s.ttTime (s.at n).vtValid (max s.now n) / s.ttCyclen c % s.ttNcyc c) % 64 ∧ t.ttBase c = (s.at n).vtValid ∧ t.now = max s.now n) := by
  refine ⟨?_, ?_⟩
  · intro c n s h
    refine Does.via exec_canTtCycleStart ?_
    unfold execCanTtCycleStart
    dsimp only
    split
    · exact ⟨_, rfl, rfl⟩
    · rename_i hn
      refine ⟨_, if_pos ?_, rfl⟩
      rcases h with h | h | h | h
      · exact absurd (by rw [show (s.at n).ttOn c = false from h]; rfl) hn
      · exact absurd (by rw [show (s.at n).canAlive c = false from h]; simp) hn
      · exact absurd (by rw [show (s.at n).canInit c = true from h]; simp) hn
      · exact h
  · intro c n s h1 h2 h3 h4
    refine Does.via exec_canTtCycleStart ?_
    unfold execCanTtCycleStart
    extract_lets u old new sk v y
    have e : (!u.ttOn c || !u.canAlive c || u.canInit c) = false := by
      rw [show u.ttOn c = true from h1, show u.canAlive c = true from h2, show u.canInit c = false from h3]
      rfl
    rw [if_neg (by rw [e]; decide)]
    refine ⟨_, if_neg (fun h => h h4), ?_⟩
    have hv : ∀ a f, a ≠ Reg.CAN_CNT c → v.fld a f = s.fld a f := fun a f h => State.fld_setFld_other _ _ _ _ h
    have hy : y = s.ttTime (s.at n).vtValid (max s.now n) / s.ttCyclen c % s.ttNcyc c := by
      have a1 : v.ttCyclen c = s.ttCyclen c := congrArg (max 1) (hv _ _ (reg_ne (regNo_CAN_TTCYC c) (regNo_CAN_CNT c)))
      have a2 : v.ttNcyc c = s.ttNcyc c := congrArg (2 ^ ·) (hv _ _ (reg_ne (regNo_CAN_TT c) (regNo_CAN_CNT c)))
      unfold y
      rw [a1, a2]
      refine congrArg (fun z => z / s.ttCyclen c % s.ttNcyc c) ?_
      rfl
    have hn : v.now = max s.now n := rfl
    clear_value v y
    subst hy
    refine ⟨?_, ?_, hn⟩
    · refine (State.fld_setFld_field _ _ (f := Fld.CAN_TTSTAT.BASE) (g := Fld.CAN_TTSTAT.CYCLE) _ (by decide)).trans ?_
      exact v.fld_setFld (Reg.CAN_TTSTAT c) Fld.CAN_TTSTAT.CYCLE _
    · have e2 := State.fld_setFld (v.setFld (Reg.CAN_TTSTAT c) Fld.CAN_TTSTAT.CYCLE
        (s.ttTime (s.at n).vtValid (max s.now n) / s.ttCyclen c % s.ttNcyc c)) (Reg.CAN_TTSTAT c) Fld.CAN_TTSTAT.BASE new.toNat
      have e3 := congrArg (· != 0) e2
      refine Eq.trans (e3 :) ?_
      have : new = (s.at n).vtValid := rfl
      rw [← this]
      cases new <;> rfl

/-- The instant of a column with a TRANSMIT or EXPECT entry opens a window for its object; any other changes nothing. -/
theorem canTtColumn_does :
    (∀ (c : Fin 4) (j : Fin 16) (s : State), s.ttOn c = true → s.canAlive c = true → s.canRuns c = true → s.canInit c = false →
      s.ttAct c (s.ttCycle c) j = 1 ∨ s.ttAct c (s.ttCycle c) j = 2 → Does (.canTtColumn c j) s fun t => ∃ f : CanTt,
        (t.canCtl c).tts = (s.canCtl c).tts ++ [f] ∧ f.cycle = s.ttCycle c ∧ f.column = j ∧ f.expect = (s.ttAct c (s.ttCycle c) j == 2) ∧
        f.started = false ∧ t.regs = s.regs) ∧
    (∀ (c : Fin 4) (j : Fin 16) (s : State), s.ttOn c = false ∨ s.canRuns c = false ∨ s.ttAct c (s.ttCycle c) j = 0 →
      Does (.canTtColumn c j) s fun t => t = s) := by
  refine ⟨?_, ?_⟩
  · intro c j s h1 h2 h3 h4 h5
    refine Does.via exec_canTtColumn ?_
    unfold execCanTtColumn
    dsimp only
    rw [h1, h2, h3, h4, if_neg (by rcases h5 with h | h <;> rw [h] <;> decide)]
    refine ⟨_, rfl, ?_⟩
    refine ⟨_, congrArg CanCtl.tts (State.canCtl_set s c _), ?_⟩
    exact ⟨rfl, rfl, rfl, rfl, rfl⟩
  · intro c j s h
    refine Does.via exec_canTtColumn ?_
    unfold execCanTtColumn
    dsimp only
    rw [if_pos (by rcases h with h | h | h <;> simp [h])]
    exact ⟨_, rfl, rfl⟩

theorem State.ttMissed_tts (s : State) (c : Nat) (f : CanTt) : ((s.ttMissed c f).canCtl c).tts = (s.canCtl c).tts := by
  unfold State.ttMissed
  extract_lets u x
  have hx : x.tts = (s.canCtl c).tts := congrArg CanCtl.tts (State.canCtl_of (s := s) (t := u) rfl c)
  split
  · exact hx
  · exact (congrArg CanCtl.tts ((State.canCtl_of (State.event_frame.can (by decide)) c).trans (State.canCtl_set _ c _))).trans hx

theorem State.ttAbsent_tts (s : State) (c : Nat) (f : CanTt) : ((s.ttAbsent c f).canCtl c).tts = (s.canCtl c).tts := by
  unfold State.ttAbsent
  extract_lets x
  split
  · rfl
  · exact (congrArg CanCtl.tts ((State.canCtl_of (State.event_frame.can (by decide)) c).trans (State.canCtl_set _ c _)) :)

/-- The end of TXWIN closes the window of its column that has not come to a start. -/
theorem canTtWindowEnd_does :
    (∀ (c : Fin 4) (j : Fin 16) (f : CanTt) (s : State),
      ((s.canCtl c).tts.find? fun f => f.column == j.val && (f.expect || !f.started)) = some f → Does (.canTtWindowEnd c j) s fun t =>
        (t.canCtl c).tts = (s.canCtl c).tts.erase f) ∧
    (∀ (c : Fin 4) (j : Fin 16) (s : State), ((s.canCtl c).tts.find? fun f => f.column == j.val && (f.expect || !f.started)) = none →
      Does (.canTtWindowEnd c j) s fun t => t = s) := by
  refine ⟨?_, ?_⟩
  · intro c j f s h
    refine Does.via exec_canTtWindowEnd ?_
    unfold execCanTtWindowEnd
    dsimp only
    rw [h]
    refine ⟨_, rfl, ?_⟩
    have hu : ((s.setCanCtl c { s.canCtl c with tts := (s.canCtl c).tts.erase f }).canCtl c).tts = (s.canCtl c).tts.erase f := by
      rw [State.canCtl_set]
    generalize s.setCanCtl c { s.canCtl c with tts := (s.canCtl c).tts.erase f } = u at hu
    split
    · exact (u.ttMissed_tts c f).trans hu
    · split
      · exact hu
      · exact (u.ttAbsent_tts c f).trans hu
  · intro c j s h
    refine Does.via exec_canTtWindowEnd ?_
    unfold execCanTtWindowEnd
    dsimp only
    rw [h]
    exact ⟨_, rfl, rfl⟩

/-! ### The spare -/

/-- A serving unit that fails: a spare that may be claimed serves the controller; without one the pool is exhausted. -/
theorem canUnitFailure_does :
    (∀ (c : Fin 4) (b : Bool) (s : State), s.canServer c = none → Does (.canUnitFailure c b) s fun t => t = s) ∧
    (∀ (c : Fin 4) (b : Bool) (s : State), s.canServer c = some (canUnit c) → ((s.unitDetected (canUnit c) unitFailed).stopCan c).canSpareClaimable = true →
      Does (.canUnitFailure c b) s fun t => (t.canCtl c).swap = some 0 ∧ t.unit canSpareUnit = unitServing) ∧
    (∀ (c : Fin 4) (b : Bool) (s : State), s.canServer c = some (canUnit c) → ((s.unitDetected (canUnit c) unitFailed).stopCan c).canSpareClaimable = false →
      Does (.canUnitFailure c b) s fun t => t.on Reg.CAN_SPSTAT Fld.CAN_SPSTAT.EXH = true ∧ t.unit (canUnit c) = unitFailed ∧
        (t.canCtl c).tts = []) := by
  have hne : ∀ c : Fin 4, canUnit c ≠ canSpareUnit := by decide
  refine ⟨?_, ?_, ?_⟩
  · intro c b s h
    refine Does.via exec_canUnitFailure ?_
    unfold execCanUnitFailure
    rw [h]
    exact ⟨_, rfl, rfl⟩
  · intro c b s h h2
    refine Does.via exec_canUnitFailure ?_
    unfold execCanUnitFailure
    rw [h]
    dsimp only
    rw [if_neg (hne c), h2, if_pos rfl]
    refine ⟨_, rfl, ?_⟩
    have hu : (((s.unitDetected (canUnit c) unitFailed).stopCan c).claimSpare canSpareUnit).unit canSpareUnit = unitServing := by
      generalize (s.unitDetected (canUnit c) unitFailed).stopCan c = u
      unfold State.claimSpare
      extract_lets q v
      have hv : v.unit canSpareUnit = unitServing := State.unit_setUnit _ canSpareUnit unitServing (by decide)
      clear_value v
      split
      · exact (State.postReadmitted_frame.unit _).trans hv
      · exact hv
    generalize ((s.unitDetected (canUnit c) unitFailed).stopCan c).claimSpare canSpareUnit = u at hu
    have hv : (u.setCanSpare c).unit canSpareUnit = unitServing :=
      (State.fld_setFld_other _ _ _ _ (reg_ne (regNo_BST_Uu _) regNo_CAN_SPSTAT)).trans hu
    generalize u.setCanSpare c = v at hv
    refine ⟨?_, (State.canTakeover_frame.unit _).trans hv⟩
    unfold State.canTakeover
    extract_lets det w x src y
    have hy : (y.canCtl c).swap = some 0 := by unfold y; rw [State.canCtl_set]
    clear_value y
    split
    · unfold State.canDetect
      extract_lets z src2
      rw [State.canCtl_set]
      exact (congrArg CanCtl.swap (State.canCtl_of (s := y) (t := z) rfl c)).trans hy
    · exact hy
  · intro c b s h h2
    refine Does.via exec_canUnitFailure ?_
    unfold execCanUnitFailure
    rw [h]
    dsimp only
    rw [if_neg (hne c), h2, if_neg (by decide)]
    refine ⟨_, rfl, ?_⟩
    have hu : ((s.unitDetected (canUnit c) unitFailed).stopCan c).unit (canUnit c) = unitFailed := by
      refine (State.stopCan_frame.unit _).trans ?_
      unfold State.unitDetected
      exact (State.unit_bst (s.setUnit (canUnit c) unitFailed) (canUnit c) _).trans (State.unit_setUnit s (canUnit c) unitFailed (by decide))
    generalize (s.unitDetected (canUnit c) unitFailed).stopCan c = u at hu
    unfold State.canExhausted
    extract_lets v w src x
    have hv : v.on Reg.CAN_SPSTAT Fld.CAN_SPSTAT.EXH = true := congrArg (· != 0) (u.fld_setFld Reg.CAN_SPSTAT Fld.CAN_SPSTAT.EXH 1)
    have hvu : v.unit (canUnit c) = unitFailed := by
      refine Eq.trans ?_ hu
      exact State.fld_setFld_other _ _ _ _ (reg_ne (regNo_BST_Uu _) regNo_CAN_SPSTAT)
    clear_value v
    have hw : w.on Reg.CAN_SPSTAT Fld.CAN_SPSTAT.EXH = true ∧ w.unit (canUnit c) = unitFailed :=
      ⟨(State.canAbort_frame.on regNo_CAN_SPSTAT).trans hv, (State.canAbort_frame.unit _).trans hvu⟩
    have hx : x.on Reg.CAN_SPSTAT Fld.CAN_SPSTAT.EXH = w.on Reg.CAN_SPSTAT Fld.CAN_SPSTAT.EXH ∧ x.unit (canUnit c) = w.unit (canUnit c) ∧
        (x.canCtl c).tts = [] := ⟨congrArg (· != 0) (State.fld_of_regs (s := w) rfl _ _), State.fld_of_regs (s := w) rfl _ _, by unfold x; rw [State.canCtl_set]⟩
    clear_value w x
    have f : Frame (Foot.f2Begins ||| Foot.event) x ((x.f2Begins 0xB0A c).event ⟨UnitCode.can, 0xB0A, 2, 4, BitVec.ofNat 32 c⟩) :=
      Frame.step State.event_frame (Frame.step State.f2Begins_frame (Frame.refl _ _))
    exact ⟨(f.on regNo_CAN_SPSTAT).trans (hx.1.trans hw.1), (f.unit _).trans (hx.2.1.trans hw.2),
      (congrArg CanCtl.tts (State.canCtl_of (f.can (by decide)) c)).trans hx.2.2⟩

/-- The unit that takes over is switched onto the bus: SPARE shows whether it is the spare, and it takes part in traffic. -/
theorem canSpareSwitchIn_does :
    (∀ (c : Fin 4) (s : State), (s.canCtl c).swap = none ∨ s.canAlive c = false → Does (.canSpareSwitchIn c) s fun t => t = s) ∧
    (∀ (c : Fin 4) (k : Nat) (s : State), (s.canCtl c).swap = some k → s.canAlive c = true → Does (.canSpareSwitchIn c) s fun t =>
      (t.canCtl c).swap = none ∧ t.on (Reg.CAN_STAT c) Fld.CAN_STAT.SPARE = (s.canSpare == c.val) ∧
      t.canRuns c = (!s.canInit c && !s.canDet c && s.canErrState c != 2)) := by
  refine ⟨?_, ?_⟩
  · intro c s h
    refine Does.via exec_canSpareSwitchIn ?_
    unfold execCanSpareSwitchIn
    cases hs : (s.canCtl c).swap with
    | none => exact ⟨_, rfl, rfl⟩
    | some k =>
      rcases h with h | h
      · rw [hs] at h; cases h
      · dsimp only
        rw [h, if_pos (by decide)]
        exact ⟨_, rfl, rfl⟩
  · intro c k s h1 h2
    refine Does.via exec_canSpareSwitchIn ?_
    unfold execCanSpareSwitchIn
    rw [h1]
    dsimp only
    rw [h2, if_neg (by decide)]
    refine ⟨_, rfl, ?_⟩
    generalize hb : (s.canSpare == c.val) = sp
    generalize hr : (!s.canInit c && !s.canDet c && s.canErrState c != 2) = rn
    generalize hu : s.setCanCtl c { s.canCtl c with swap := none } = u
    have huc : (u.canCtl c).swap = none := by subst hu; rw [State.canCtl_set]
    have hx : ((u.setFld (Reg.CAN_STAT c) Fld.CAN_STAT.SPARE sp.toNat).setFld (Reg.CAN_STAT c) Fld.CAN_STAT.RUN rn.toNat).on (Reg.CAN_STAT c) Fld.CAN_STAT.SPARE = sp ∧
        ((u.setFld (Reg.CAN_STAT c) Fld.CAN_STAT.SPARE sp.toNat).setFld (Reg.CAN_STAT c) Fld.CAN_STAT.RUN rn.toNat).canRuns c = rn ∧
        (((u.setFld (Reg.CAN_STAT c) Fld.CAN_STAT.SPARE sp.toNat).setFld (Reg.CAN_STAT c) Fld.CAN_STAT.RUN rn.toNat).canCtl c).swap = none := by
      refine ⟨?_, ?_, huc⟩
      · refine (congrArg (· != 0) ((State.fld_setFld_field _ _ (f := Fld.CAN_STAT.RUN) (g := Fld.CAN_STAT.SPARE) _ (by decide)).trans
          (u.fld_setFld (Reg.CAN_STAT c) Fld.CAN_STAT.SPARE sp.toNat)) :).trans ?_
        cases sp <;> rfl
      · refine (congrArg (· != 0) (State.fld_setFld _ (Reg.CAN_STAT c) Fld.CAN_STAT.RUN rn.toNat) :).trans ?_
        cases rn <;> rfl
    generalize (u.setFld (Reg.CAN_STAT c) Fld.CAN_STAT.SPARE sp.toNat).setFld (Reg.CAN_STAT c) Fld.CAN_STAT.RUN rn.toNat = x at hx
    split
    · exact ⟨(congrArg CanCtl.swap (State.canCtl_of (State.postCanSwap_frame.can (by decide)) c)).trans hx.2.2,
        (State.postCanSwap_frame.on (regNo_CAN_STAT c)).trans hx.1, (State.postCanSwap_frame.on (regNo_CAN_STAT c)).trans hx.2.1⟩
    · exact ⟨hx.2.2, hx.1, hx.2.1⟩

/-- The end of a shadow watch: passed, the spare serves the controller; failed, it is out of service. -/
theorem canShadowEnd_does :
    (∀ (c : Fin 4) (b : Bool) (s : State), (∀ h, s.shadowOf canSpareUnit = some h → h.code ≠ canUnit c) → Does (.canShadowEnd c b) s fun t => t = s) ∧
    (∀ (c : Fin 4) (h : Shadowing) (s : State), s.shadowOf canSpareUnit = some h → h.code = canUnit c → Does (.canShadowEnd c true) s fun t =>
      t.canSpare = c ∧ t.on (Reg.CAN_STAT c) Fld.CAN_STAT.SPARE = true) ∧
    (∀ (c : Fin 4) (h : Shadowing) (s : State), s.shadowOf canSpareUnit = some h → h.code = canUnit c → Does (.canShadowEnd c false) s fun t =>
      t.canSpare = canFailed ∧ t.unit canSpareUnit = unitFailed) := by
  refine ⟨?_, ?_, ?_⟩
  · intro c b s h
    refine Does.via exec_canShadowEnd ?_
    unfold execCanShadowEnd
    cases hs : s.shadowOf canSpareUnit with
    | none => exact ⟨_, rfl, rfl⟩
    | some x =>
      dsimp only
      rw [if_pos (h x hs)]
      exact ⟨_, rfl, rfl⟩
  · intro c x s h h2
    refine Does.via exec_canShadowEnd ?_
    unfold execCanShadowEnd
    rw [h]
    dsimp only
    rw [if_neg (by rw [h2]; simp), if_pos rfl]
    refine ⟨_, rfl, ?_⟩
    generalize s.shadowPassed canSpareUnit = u
    refine ⟨?_, ?_⟩
    · refine (State.postCanSwap_frame.fld regNo_CAN_SPSTAT).trans ?_
      refine (State.fld_setFld_other _ _ _ _ (reg_ne regNo_CAN_SPSTAT (regNo_CAN_STAT c))).trans ?_
      refine Eq.trans (b := (u.setCanSpare c).fld Reg.CAN_SPSTAT Fld.CAN_SPSTAT.SERVE) ?_ ?_
      · split
        · exact State.canDetect_frame.fld regNo_CAN_SPSTAT
        · rfl
      exact (State.fld_setFld u Reg.CAN_SPSTAT Fld.CAN_SPSTAT.SERVE c).trans (Nat.mod_eq_of_lt (by have := c.isLt; show c.val < 8; omega))
    · refine (State.postCanSwap_frame.on (regNo_CAN_STAT c)).trans ?_
      exact congrArg (· != 0) (State.fld_setFld _ (Reg.CAN_STAT c) Fld.CAN_STAT.SPARE 1)
  · intro c x s h h2
    refine Does.via exec_canShadowEnd ?_
    unfold execCanShadowEnd
    rw [h]
    dsimp only
    rw [if_neg (by rw [h2]; simp), if_neg (by decide)]
    refine ⟨_, rfl, ?_⟩
    have hu : (s.shadowFailed canSpareUnit).unit canSpareUnit = unitFailed := by
      unfold State.shadowFailed
      exact State.unit_setUnit _ canSpareUnit unitFailed (by decide)
    generalize s.shadowFailed canSpareUnit = u at hu
    refine ⟨?_, ?_⟩
    · refine (State.postCanSwap_frame.fld regNo_CAN_SPSTAT).trans ?_
      exact State.fld_setFld u Reg.CAN_SPSTAT Fld.CAN_SPSTAT.SERVE canFailed
    · refine (State.postCanSwap_frame.unit _).trans ?_
      exact (State.fld_setFld_other _ _ _ _ (reg_ne (regNo_BST_Uu _) regNo_CAN_SPSTAT)).trans hu

end Sys2Proof.Machine
end

