-- ==== Sys2Proof/Laws/EffectEth.lean ====
section
/-! SUPPORT. What the events of the Ethernet ports and of vehicle time do. -/

set_option Elab.async false

namespace Sys2Proof.Machine

theorem State.ethPort_set (s : State) (c : Nat) (x : EthPort) : (s.setEthPort c x).ethPort c = x :=
  (State.ethPort_setEthPort s c c x).trans (if_pos rfl)

/-- A TX slot whose check word is wrong halts its ring; a port that is off, halted or has no slot waiting does nothing. -/
theorem ethTxFetch_does :
    (∀ (p : Fin 2) (s : State), s.ethAlive = false ∨ s.ethTxEn p = false ∨ s.ethHalted p = true ∨ s.ethTxIdx p = (s.ethPort p).txPi →
      Does (.ethTxFetch p) s fun t => t = s) ∧
    (∀ (p : Fin 2) (s : State), s.ethAlive = true → s.ethTxEn p = true → s.ethHalted p = false → s.ethTxIdx p ≠ (s.ethPort p).txPi →
      (s.ethPort p).staged.length < 4 → (s.firstBad (s.ethTxSlot p (s.ethTxIdx p)) 8).isSome = false → s.ethSlotSound p = false →
      Does (.ethTxFetch p) s fun t => t.ethHalted p = true ∧ t.ethTxIdx p = s.ethTxIdx p ∧ t.eth = s.eth) := by
  refine ⟨?_, ?_⟩
  · intro p s h
    refine ⟨_, exec_ethTxFetch.trans rfl, ?_⟩
    dsimp only
    rw [if_neg (by rcases h with h | h | h | h <;> simp [h])]
  · intro p s h1 h2 h3 h4 h5 h6 h7
    refine ⟨_, exec_ethTxFetch.trans rfl, ?_⟩
    dsimp only
    rw [if_pos (by simp [h1, h2, h3, h4, h5])]
    unfold State.ethFetch
    extract_lets x k off ws
    have hb : s.firstBad off 8 = none := by
      cases hx : s.firstBad off 8 with
      | none => rfl
      | some a =>
        have h6' : (s.firstBad off 8).isSome = false := h6
        rw [hx] at h6'
        cases h6'
    rw [hb]
    dsimp only
    rw [if_pos (by
      have h' : decide (ws.getD 7 0 = Crc.checkC (bytesOfWords (ws.take 7 ++ [dataFold (ethTxRing p) k x.txEpoch]))) = false := h7
      exact of_decide_eq_false h')]
    unfold State.ethTxHalt
    refine ⟨?_, ?_, ?_⟩
    · refine (State.event_frame.on (regNo_ETH_Pp_IDX p)).trans ?_
      exact congrArg (· != 0) (s.fld_setFld (Reg.ETH_Pp_IDX p) Fld.ETH_Pp_IDX.HALT 1)
    · refine (State.event_frame.fld (regNo_ETH_Pp_IDX p)).trans ?_
      exact State.fld_setFld_field _ _ (f := Fld.ETH_Pp_IDX.HALT) (g := Fld.ETH_Pp_IDX.TX) _ (by decide)
    · exact State.event_frame.eth (by decide)

/-- A frame whose last bit has left leaves the staging buffers. -/
theorem ethTxFrameSent_does :
    (∀ (p : Fin 2) (n k fc : Nat) (f : EthTx) (rest : List EthTx) (s : State), (s.ethPort p).staged = f :: rest → f.started = true →
      Does (.ethTxFrameSent p n k fc) s fun t => (t.ethPort p).staged = rest) ∧
    (∀ (p : Fin 2) (n k fc : Nat) (s : State), (∀ f rest, (s.ethPort p).staged = f :: rest → f.started = false) →
      Does (.ethTxFrameSent p n k fc) s fun t => t = s) := by
  refine ⟨?_, ?_⟩
  · intro p n k fc f rest s h1 h2
    refine Does.via exec_ethTxFrameSent ?_
    unfold execEthTxFrameSent
    dsimp only
    rw [h1]
    dsimp only
    rw [if_pos h2]
    refine ⟨_, rfl, ?_⟩
    have hu : ((s.setEthPort p { s.ethPort p with staged := rest }).ethPort p).staged = rest := by rw [State.ethPort_set]
    generalize s.setEthPort p { s.ethPort p with staged := rest } = u at hu
    unfold State.ethConfirm
    split
    · exact (State.ethWriteEntry_port u p p _ _ _ _ _ _).1.trans hu
    · exact hu
  · intro p n k fc s h
    refine Does.via exec_ethTxFrameSent ?_
    unfold execEthTxFrameSent
    dsimp only
    split
    · rename_i f rest hs
      rw [h f rest hs, if_neg (by decide)]
      exact ⟨_, rfl, rfl⟩
    · exact ⟨_, rfl, rfl⟩

/-- A head frame whose window has passed is discarded and counted. -/
theorem ethTxExpired_does :
    (∀ (p : Fin 2) (n : Nat) (f : EthTx) (rest : List EthTx) (s : State), (s.ethPort p).staged = f :: rest → f.started = false →
      (s.at n).ethExpired p f = true → Does (.ethTxExpired p n) s fun t => (t.ethPort p).staged = rest ∧
        t.fld (Reg.ETH_Pp_CNT p) Fld.ETH_Pp_CNT.TXEXP = satAdd 8 (s.fld (Reg.ETH_Pp_CNT p) Fld.ETH_Pp_CNT.TXEXP) 1) ∧
    (∀ (p : Fin 2) (n : Nat) (s : State), (∀ f rest, (s.ethPort p).staged = f :: rest → f.started = true ∨ (s.at n).ethExpired p f = false) →
      Does (.ethTxExpired p n) s fun t => t = s.at n) := by
  refine ⟨?_, ?_⟩
  · intro p n f rest s h1 h2 h3
    refine Does.via exec_ethTxExpired ?_
    unfold execEthTxExpired
    dsimp only
    rw [show ((s.at n).ethPort p).staged = f :: rest from h1]
    dsimp only
    rw [h2, h3, if_pos (by decide)]
    refine ⟨_, rfl, ?_⟩
    generalize hu : ((s.at n).setEthPort p { (s.at n).ethPort p with staged := rest }).count (Reg.ETH_Pp_CNT p) Fld.ETH_Pp_CNT.TXEXP = u
    have hu1 : (u.ethPort p).staged = rest := by
      subst hu
      exact congrArg EthPort.staged (State.ethPort_set (s.at n) p { (s.at n).ethPort p with staged := rest })
    have hu2 : u.fld (Reg.ETH_Pp_CNT p) Fld.ETH_Pp_CNT.TXEXP = satAdd 8 (s.fld (Reg.ETH_Pp_CNT p) Fld.ETH_Pp_CNT.TXEXP) 1 := by
      subst hu
      exact State.fld_count _ (Reg.ETH_Pp_CNT p) Fld.ETH_Pp_CNT.TXEXP 1
    clear hu
    refine ⟨?_, (State.ethConfirmUnsent_frame.fld (regNo_ETH_Pp_CNT p)).trans hu2⟩
    exact (u.ethConfirmUnsent_port p p _ _).1.trans hu1
  · intro p n s h
    refine Does.via exec_ethTxExpired ?_
    unfold execEthTxExpired
    dsimp only
    split
    · rename_i f rest hs
      rw [if_neg (by rcases h f rest hs with h | h <;> simp [h])]
      exact ⟨_, rfl, rfl⟩
    · exact ⟨_, rfl, rfl⟩

/-- A head frame whose launch instant has passed starts. -/
theorem ethTxStart_does :
    (∀ (p : Fin 2) (n : Nat) (f : EthTx) (rest : List EthTx) (s : State), (s.ethPort p).staged = f :: rest → f.started = false →
      s.ethAlive = true → (s.at n).ethLaunched f = true → (s.at n).ethExpired p f = false → Does (.ethTxStart p n) s fun t =>
        (t.ethPort p).staged = { f with started := true } :: rest ∧ t.now = max s.now n ∧ t.regs = s.regs) ∧
    (∀ (p : Fin 2) (n : Nat) (s : State), s.ethAlive = false ∨ (s.ethPort p).staged = [] → Does (.ethTxStart p n) s fun t => t = s.at n) := by
  refine ⟨?_, ?_⟩
  · intro p n f rest s h1 h2 h3 h4 h5
    refine Does.via exec_ethTxStart ?_
    unfold execEthTxStart
    dsimp only
    rw [show ((s.at n).ethPort p).staged = f :: rest from h1]
    dsimp only
    rw [show (s.at n).ethAlive = true from h3, h2, h4, h5, if_pos (by decide)]
    refine ⟨_, rfl, ?_, rfl, rfl⟩
    rw [State.ethPort_set]
  · intro p n s h
    refine Does.via exec_ethTxStart ?_
    unfold execEthTxStart
    dsimp only
    split
    · rename_i f rest hs
      rcases h with h | h
      · rw [show (s.at n).ethAlive = false from h, if_neg (by simp)]
        exact ⟨_, rfl, rfl⟩
      · have hs' : (s.ethPort p).staged = f :: rest := hs
        rw [h] at hs'
        cases hs'
    · exact ⟨_, rfl, rfl⟩

/-- A received frame with a bad FCS or a length outside the standard counts; one that no filter takes and NOMATCH does not
admit leaves no trace. -/
theorem ethFrameReceived_does :
    (∀ (p : Fin 2) (d : List Byte) (b : Bool) (n k fc : Nat) (s : State), s.ethAlive = false → Does (.ethFrameReceived p d b n k fc) s fun t => t = s) ∧
    (∀ (p : Fin 2) (d : List Byte) (b : Bool) (n k fc : Nat) (s : State), s.ethAlive = true → b = false ∨ d.length < 60 ∨ 1518 < d.length →
      Does (.ethFrameReceived p d b n k fc) s fun t =>
        t.fld (Reg.ETH_Pp_CNT p) Fld.ETH_Pp_CNT.RXERR = satAdd 8 (s.fld (Reg.ETH_Pp_CNT p) Fld.ETH_Pp_CNT.RXERR) 1 ∧ t.eth = s.eth) ∧
    (∀ (p : Fin 2) (d : List Byte) (n k fc : Nat) (s : State), s.ethAlive = true → 60 ≤ d.length → d.length ≤ 1518 →
      ((List.range 16).find? fun n => s.ethMatches p n d) = none → s.on (Reg.ETH_Pp_CFG p) Fld.ETH_Pp_CFG.NOMATCH = false →
      Does (.ethFrameReceived p d true n k fc) s fun t => t = s) := by
  refine ⟨?_, ?_, ?_⟩
  · intro p d b n k fc s h
    refine Does.via exec_ethFrameReceived ?_
    unfold execEthFrameReceived
    rw [h, if_pos (by decide)]
    exact ⟨_, rfl, rfl⟩
  · intro p d b n k fc s h h2
    refine Does.via exec_ethFrameReceived ?_
    unfold execEthFrameReceived
    rw [h, if_neg (by decide), if_pos (by rcases h2 with h | h | h <;> simp [h])]
    exact ⟨_, rfl, State.fld_count _ (Reg.ETH_Pp_CNT p) Fld.ETH_Pp_CNT.RXERR 1, rfl⟩
  · intro p d n k fc s h1 h2 h3 h4 h5
    refine Does.via exec_ethFrameReceived ?_
    unfold execEthFrameReceived
    rw [h1, if_neg (by decide), if_neg (by simp [show ¬ d.length < 60 by omega, show ¬ 1518 < d.length by omega])]
    refine ⟨_, rfl, ?_⟩
    unfold State.ethAccept
    rw [h4]
    dsimp only
    rw [h5, if_neg (by decide)]

/-! ### Vehicle time, MDIO, link -/

/-- VTTMO after the last steering write, validity is what its conditions give then. -/
theorem vtTimeout_does :
    (∀ (n : Nat) (s : State), s.vt.steered = some n → Does .vtTimeout s fun t =>
      t.vtValid = (s.at (n + s.fld Reg.ETH_VT_CTRL Fld.ETH_VT_CTRL.VTTMO * esPerMs)).vtHolds ∧
      t.now = max s.now (n + s.fld Reg.ETH_VT_CTRL Fld.ETH_VT_CTRL.VTTMO * esPerMs) ∧ t.vt = s.vt) ∧
    (∀ s : State, s.vt.steered = none → Does .vtTimeout s fun t => t = s) := by
  refine ⟨?_, ?_⟩
  · intro n s h
    refine Does.via exec_vtTimeout ?_
    unfold execVtTimeout
    rw [h]
    refine ⟨_, rfl, ?_⟩
    refine ⟨?_, State.refreshVt_frame.now (by decide), State.refreshVt_frame.vt (by decide)⟩
    generalize s.at (n + s.fld Reg.ETH_VT_CTRL Fld.ETH_VT_CTRL.VTTMO * esPerMs) = u
    unfold State.refreshVt
    extract_lets v
    have hv : u.vtHolds = v := rfl
    rw [hv]
    clear_value v
    split
    · rename_i e; exact e.symm
    · refine (State.event_frame.on regNo_CLK_STAT).trans ?_
      refine (congrArg (· != 0) (u.fld_setFld Reg.CLK_STAT Fld.CLK_STAT.VTVALID v.toNat) :).trans ?_
      cases v <;> rfl
  · intro s h
    refine Does.via exec_vtTimeout ?_
    unfold execVtTimeout
    rw [h]
    exact ⟨_, rfl, rfl⟩

/-- The end of an MDIO frame clears BUSY and interrupts; a read has brought its data. -/
theorem ethMdioDone_does :
    (∀ (d : Fin 65536) (s : State), s.on Reg.ETH_MDIO Fld.ETH_MDIO.BUSY = false → Does (.ethMdioDone d) s fun t => t = s) ∧
    (∀ (d : Fin 65536) (s : State), s.on Reg.ETH_MDIO Fld.ETH_MDIO.BUSY = true → Does (.ethMdioDone d) s fun t =>
      t.on Reg.ETH_MDIO Fld.ETH_MDIO.BUSY = false ∧ hasBit t.hic.edges 19 = true ∧
      t.fld Reg.ETH_MDIO Fld.ETH_MDIO.DATA =
        if s.fld Reg.ETH_MDIO Fld.ETH_MDIO.OP = 1 ∨ s.fld Reg.ETH_MDIO Fld.ETH_MDIO.OP = 3 then d.val else s.fld Reg.ETH_MDIO Fld.ETH_MDIO.DATA) := by
  refine ⟨?_, ?_⟩
  · intro d s h
    refine Does.via exec_ethMdioDone ?_
    unfold execEthMdioDone
    rw [h, if_pos (by decide)]
    exact ⟨_, rfl, rfl⟩
  · intro d s h
    refine Does.via exec_ethMdioDone ?_
    unfold execEthMdioDone
    rw [h, if_neg (by decide)]
    extract_lets op u
    refine ⟨_, rfl, ?_⟩
    have hu : u.fld Reg.ETH_MDIO Fld.ETH_MDIO.DATA = if op = 1 ∨ op = 3 then d.val else s.fld Reg.ETH_MDIO Fld.ETH_MDIO.DATA := by
      unfold u
      split
      · exact (s.fld_setFld Reg.ETH_MDIO Fld.ETH_MDIO.DATA d).trans (Nat.mod_eq_of_lt d.isLt)
      · rfl
    clear_value u
    refine ⟨?_, ?_, ?_⟩
    · exact congrArg (· != 0) (u.fld_setFld Reg.ETH_MDIO Fld.ETH_MDIO.BUSY 0)
    · unfold State.edgeIrq
      exact hasBit_withBit _ _ |>.trans (by simp)
    · exact (State.fld_of_regs rfl _ _).trans ((State.fld_setFld_field _ _ (f := Fld.ETH_MDIO.BUSY) (g := Fld.ETH_MDIO.DATA) _ (by decide)).trans hu)

/-- A low interrupt ball of the PHY is shown; a change of the link is shown with its speed. -/
theorem ethPhyInterrupt_does : ∀ s : State, Does .ethPhyInterrupt s fun t => t.on (Reg.ETH_Pp_STAT 0) Fld.ETH_Pp_STAT.PHYINT = true ∧
    t.fld (Reg.ETH_Pp_STAT 0) Fld.ETH_Pp_STAT.LINK = s.fld (Reg.ETH_Pp_STAT 0) Fld.ETH_Pp_STAT.LINK := by
  intro s
  refine Does.via exec_ethPhyInterrupt ?_
  unfold execEthPhyInterrupt
  extract_lets u x
  have hu : u.on (Reg.ETH_Pp_STAT 0) Fld.ETH_Pp_STAT.PHYINT = true := congrArg (· != 0) (s.fld_setFld (Reg.ETH_Pp_STAT 0) Fld.ETH_Pp_STAT.PHYINT 1)
  have hl : u.fld (Reg.ETH_Pp_STAT 0) Fld.ETH_Pp_STAT.LINK = s.fld (Reg.ETH_Pp_STAT 0) Fld.ETH_Pp_STAT.LINK :=
    State.fld_setFld_field _ _ (f := Fld.ETH_Pp_STAT.PHYINT) (g := Fld.ETH_Pp_STAT.LINK) _ (by decide)
  clear_value u
  split
  · exact ⟨_, rfl, hu, hl⟩
  · refine ⟨_, rfl, ?_, ?_⟩
    · exact (State.event_frame.on (regNo_ETH_Pp_STAT 0)).trans hu
    · exact (State.event_frame.fld (regNo_ETH_Pp_STAT 0)).trans hl

theorem ethLinkChange_does : ∀ (b : Bool) (k : Fin 4) (s : State), Does (.ethLinkChange b k) s fun t =>
    t.on (Reg.ETH_Pp_STAT 0) Fld.ETH_Pp_STAT.LINK = b ∧ t.fld (Reg.ETH_Pp_STAT 0) Fld.ETH_Pp_STAT.SPD = k := by
  intro b k s
  refine Does.via exec_ethLinkChange ?_
  unfold execEthLinkChange
  extract_lets u
  have hu : u.on (Reg.ETH_Pp_STAT 0) Fld.ETH_Pp_STAT.LINK = b := by
    refine (congrArg (· != 0) (s.fld_setFld (Reg.ETH_Pp_STAT 0) Fld.ETH_Pp_STAT.LINK b.toNat) :).trans ?_
    cases b <;> rfl
  clear_value u
  refine ⟨_, rfl, ?_, ?_⟩
  · refine (State.event_frame.on (regNo_ETH_Pp_STAT 0)).trans (Eq.trans ?_ hu)
    exact congrArg (· != 0) (State.fld_setFld_field _ _ (f := Fld.ETH_Pp_STAT.SPD) (g := Fld.ETH_Pp_STAT.LINK) _ (by decide))
  · refine (State.event_frame.fld (regNo_ETH_Pp_STAT 0)).trans ?_
    exact (u.fld_setFld (Reg.ETH_Pp_STAT 0) Fld.ETH_Pp_STAT.SPD k).trans (Nat.mod_eq_of_lt k.isLt)

/-- The beacon of the PLCA coordinator is lost, and returns: PLCA of a follower shows it. -/
theorem State.plcaState_does (s : State) (b : Bool) : (s.plcaFollower = true → (s.plcaState b).on (Reg.ETH_Pp_STAT 1) Fld.ETH_Pp_STAT.PLCA = b) ∧
    (s.plcaFollower = false → s.plcaState b = s) := by
  unfold State.plcaState
  refine ⟨fun h => ?_, fun h => ?_⟩
  · rw [h, if_neg (by decide)]
    refine (State.event_frame.on (regNo_ETH_Pp_STAT 1)).trans ?_
    refine (congrArg (· != 0) (s.fld_setFld (Reg.ETH_Pp_STAT 1) Fld.ETH_Pp_STAT.PLCA b.toNat) :).trans ?_
    cases b <;> rfl
  · rw [h, if_pos (by decide)]

theorem plcaBeaconLoss_does :
    (∀ s : State, s.plcaFollower = true → Does .plcaBeaconLoss s fun t => t.on (Reg.ETH_Pp_STAT 1) Fld.ETH_Pp_STAT.PLCA = false) ∧
    (∀ s : State, s.plcaFollower = false → Does .plcaBeaconLoss s fun t => t = s) :=
  ⟨fun s h => ⟨_, exec_plcaBeaconLoss.trans rfl, (s.plcaState_does false).1 h⟩, fun s h => ⟨_, exec_plcaBeaconLoss.trans rfl, (s.plcaState_does false).2 h⟩⟩

theorem plcaBeaconReturn_does :
    (∀ s : State, s.plcaFollower = true → Does .plcaBeaconReturn s fun t => t.on (Reg.ETH_Pp_STAT 1) Fld.ETH_Pp_STAT.PLCA = true) ∧
    (∀ s : State, s.plcaFollower = false → Does .plcaBeaconReturn s fun t => t = s) :=
  ⟨fun s h => ⟨_, exec_plcaBeaconReturn.trans rfl, (s.plcaState_does true).1 h⟩, fun s h => ⟨_, exec_plcaBeaconReturn.trans rfl, (s.plcaState_does true).2 h⟩⟩

end Sys2Proof.Machine
end

