-- ==== Sys2Proof/Laws/EffectBst.lean ====
section
/-! SUPPORT. What the scans and the self-test do. -/

set_option Elab.async false

namespace Sys2Proof.Machine

/-! ### Scans -/

/-- A slot without a period, or disabled, does not start; else it starts from its first target, PERIOD after its last
start. -/
theorem scanPeriodStart_does :
    (∀ (n : Fin 8) (s : State), s.scanPeriod n = 0 ∨ s.scanCfg n Fld.CHK_SCs_CFG.EN = 0 → Does (.scanPeriodStart n) s fun t => t = s) ∧
    (∀ (n : Fin 8) (s : State), s.scanPeriod n ≠ 0 → s.scanCfg n Fld.CHK_SCs_CFG.EN ≠ 0 → Does (.scanPeriodStart n) s fun t =>
      t.scanRuns n = true ∧ (t.scan n).target = 0 ∧ (t.scan n).report = false ∧ (t.scan n).startAt = t.now ∧
      t.now = max s.now ((s.scan n).startAt + s.scanPeriod n * esPerMs) ∧ t.mem = s.mem) := by
  refine ⟨?_, ?_⟩
  · intro n s h
    refine Does.via exec_scanPeriodStart ?_
    unfold execScanPeriodStart
    rw [if_pos h]
    exact ⟨_, rfl, rfl⟩
  · intro n s h1 h2
    refine Does.via exec_scanPeriodStart ?_
    unfold execScanPeriodStart
    rw [if_neg (by simp [h1, h2])]
    refine ⟨_, rfl, ?_⟩
    unfold State.scanStart
    refine ⟨?_, ?_, ?_, ?_, rfl, rfl⟩
    · exact congrArg (· != 0) (State.fld_setFld _ (Reg.CHK_SCs_STAT n) Fld.CHK_SCs_STAT.RUN 1)
    · rw [State.scan_setScan, if_pos rfl]
    · rw [State.scan_setScan, if_pos rfl]
    · rw [State.scan_setScan, if_pos rfl]; rfl

/-- A slot that does not run, or whose pass was spoiled, judges nothing; behind its last target the pass ends and counts. -/
theorem scanTargetDone_does :
    (∀ (n : Fin 8) (f w : List (Nat × Word)) (s : State), s.scanRuns n = false ∨ (s.scan n).spoiled = true →
      Does (.scanTargetDone n f w) s fun t => t = s) ∧
    (∀ (n : Fin 8) (w : List (Nat × Word)) (s : State), s.scanRuns n = true → (s.scan n).spoiled = false →
      (s.targets n).length ≤ (s.scan n).target → Does (.scanTargetDone n [] w) s fun t => t.scanRuns n = false ∧
        t.fld (Reg.CHK_SCs_STAT n) Fld.CHK_SCs_STAT.PASSES =
          satAdd Fld.CHK_SCs_STAT.PASSES.width (s.fld (Reg.CHK_SCs_STAT n) Fld.CHK_SCs_STAT.PASSES) 1) := by
  refine ⟨?_, ?_⟩
  · intro n f w s h
    refine Does.via exec_scanTargetDone ?_
    unfold execScanTargetDone
    dsimp only
    rw [if_pos (by rcases h with h | h <;> simp [h])]
    exact ⟨_, rfl, rfl⟩
  · intro n w s h1 h2 h3
    refine Does.via exec_scanTargetDone ?_
    unfold execScanTargetDone
    dsimp only
    rw [if_neg (by simp [h1, h2]), List.getElem?_eq_none h3]
    refine ⟨_, rfl, ?_⟩
    rw [List.foldl_nil]
    unfold State.passEnds
    extract_lets x v
    have hr : v.scanRuns n = false := by
      refine congrArg (· != 0) ((State.fld_setFld_field _ _ (f := Fld.CHK_SCs_STAT.PASSES) (g := Fld.CHK_SCs_STAT.RUN) _ (by decide)).trans
        (s.fld_setFld (Reg.CHK_SCs_STAT n) Fld.CHK_SCs_STAT.RUN 0))
    have hp : v.fld (Reg.CHK_SCs_STAT n) Fld.CHK_SCs_STAT.PASSES =
        satAdd Fld.CHK_SCs_STAT.PASSES.width (s.fld (Reg.CHK_SCs_STAT n) Fld.CHK_SCs_STAT.PASSES) 1 := by
      refine (State.fld_count _ (Reg.CHK_SCs_STAT n) Fld.CHK_SCs_STAT.PASSES 1).trans ?_
      exact congrArg (satAdd Fld.CHK_SCs_STAT.PASSES.width · 1)
        (State.fld_setFld_field _ _ (f := Fld.CHK_SCs_STAT.RUN) (g := Fld.CHK_SCs_STAT.PASSES) _ (by decide))
    clear_value v
    split
    · exact ⟨(State.event_frame.on (regNo_CHK_SCs_STAT n)).trans hr, (State.event_frame.fld (regNo_CHK_SCs_STAT n)).trans hp⟩
    · exact ⟨hr, hp⟩

/-! ### The image -/

/-- The end of a capture seals the image of the settled state. -/
theorem imageSealed_does :
    (∀ s : State, s.pwr.capturing = false → Does .imageSealed s fun t => t = s) ∧
    (∀ s : State, s.pwr.capturing = true → Does .imageSealed s fun t => t.image = some s.captureImage ∧ t.pwr.capturing = false ∧
      t.sealed = true ∧ t.on Reg.SYS_RESTORE Fld.SYS_RESTORE.IMGOK = true) := by
  refine ⟨?_, ?_⟩
  · intro s h
    refine Does.via exec_imageSealed ?_
    unfold execImageSealed
    rw [h, if_neg (by decide)]
    exact ⟨_, rfl, rfl⟩
  · intro s h
    refine Does.via exec_imageSealed ?_
    unfold execImageSealed
    rw [h, if_pos rfl]
    refine ⟨_, rfl, ?_⟩
    unfold State.sealImage
    refine ⟨State.event_frame.image (by decide), congrArg (·.capturing) (State.event_frame.pwr (by decide)), ?_, ?_⟩
    · refine (State.event_frame.on regNo_SYS_SETUP_LOCK).trans ?_
      refine congrArg (· != 0) (?_ : _ = 1)
      exact (State.fld_setFld_other _ _ _ _ (reg_ne regNo_SYS_SETUP_LOCK regNo_SYS_RESTORE)).trans
        (State.fld_setFld _ Reg.SYS_SETUP_LOCK Fld.SYS_SETUP_LOCK.SEALED 1)
    · refine (State.event_frame.on regNo_SYS_RESTORE).trans ?_
      exact congrArg (· != 0) (State.fld_setFld _ Reg.SYS_RESTORE Fld.SYS_RESTORE.IMGOK 1)

/-! ### Rotation -/

/-- A rotation step that is not due (or while rotation is off, or outside RUN) only lets its instant pass. -/
theorem rotationStep_does : ∀ (n : Nat) (s : State),
    (s.at n).rotating = false ∨ (s.at n).inRun = false ∨ (s.at n).runTime < s.bst.stepAt + (s.at n).interval →
    Does (.rotationStep n) s fun t => t = s.at n := by
  intro n s h
  refine Does.via exec_rotationStep ?_
  unfold execRotationStep
  dsimp only
  rw [if_pos (by
    rcases h with h | h | h
    · simp [h]
    · simp [h]
    · have h' : (s.at n).runTime < (s.at n).bst.stepAt + (s.at n).interval := h
      exact (Bool.or_eq_true _ _).mpr (Or.inr (decide_eq_true h')))]
  exact ⟨_, rfl, rfl⟩

/-- With rotation off, or outside RUN, no pending step is tried. -/
theorem rotationRetry_does : ∀ (n : Nat) (s : State), (s.at n).rotating = false ∨ (s.at n).inRun = false →
    Does (.rotationRetry n) s fun t => t = s.at n := by
  intro n s h
  refine ⟨_, exec_rotationRetry.trans rfl, ?_⟩
  dsimp only
  rw [if_neg (by rcases h with h | h <;> simp [h])]

/-! ### Tests of a unit -/

/-- A comparator's test ends with its last step, and a unit that is not under test has none to end; memory that passes
serves again, with its test counted, and a unit that fails its test for readmission is failed. -/
theorem bistComplete_does :
    (∀ (c : Fin 256) (b : Bool) (part : Fin 3) (s : State), classOf c.val = .comparator → Does (.bistComplete c b part) s fun t => t = s) ∧
    (∀ (c : Fin 256) (b : Bool) (part : Fin 3) (s : State), (s.bst.tests.find? fun t => t.code == c.val) = none →
      Does (.bistComplete c b part) s fun t => t = s) ∧
    (∀ (c : Fin 256) (r : TestRun) (part : Fin 3) (s : State), classOf c.val = .memory → (s.bst.tests.find? fun t => t.code == c.val) = some r →
      Does (.bistComplete c true part) s fun t => t.unit c = unitServing ∧ t.bst.tests = s.bst.tests.filter (fun t => t.code != c.val) ∧
        t.fld Reg.BST_CNT Fld.BST_CNT.TESTS = satAdd Fld.BST_CNT.TESTS.width (s.fld Reg.BST_CNT Fld.BST_CNT.TESTS) 1 ∧
        t.fld Reg.BST_CNT Fld.BST_CNT.FAILS = s.fld Reg.BST_CNT Fld.BST_CNT.FAILS) ∧
    (∀ (c : Fin 256) (r : TestRun) (part : Fin 3) (s : State), classOf c.val ≠ .comparator →
      (s.bst.tests.find? fun t => t.code == c.val) = some r → r.readmit = true →
      Does (.bistComplete c false part) s fun t => t.unit c = unitFailed ∧ t.bst.tests = s.bst.tests.filter (fun t => t.code != c.val) ∧
        t.fld Reg.BST_CNT Fld.BST_CNT.TESTS = satAdd Fld.BST_CNT.TESTS.width (s.fld Reg.BST_CNT Fld.BST_CNT.TESTS) 1 ∧
        t.fld Reg.BST_CNT Fld.BST_CNT.FAILS = satAdd Fld.BST_CNT.FAILS.width (s.fld Reg.BST_CNT Fld.BST_CNT.FAILS) 1) := by
  have hcode : ∀ (c : Nat) (r : TestRun) (s : State), (s.bst.tests.find? fun t => t.code == c) = some r → r.code = c := by
    intro c r s h
    exact eq_of_beq (List.find?_some h :)
  have hcount : ∀ (s : State) (c : Nat), (s.endTest c).fld Reg.BST_CNT Fld.BST_CNT.TESTS = s.fld Reg.BST_CNT Fld.BST_CNT.TESTS ∧
      (s.endTest c).fld Reg.BST_CNT Fld.BST_CNT.FAILS = s.fld Reg.BST_CNT Fld.BST_CNT.FAILS := by
    intro s c
    exact ⟨State.endTest_frame.fld regNo_BST_CNT, State.endTest_frame.fld regNo_BST_CNT⟩
  refine ⟨?_, ?_, ?_, ?_⟩
  · intro c b part s h
    refine ⟨_, exec_bistComplete.trans rfl, ?_⟩
    dsimp only
    rw [if_pos h]
  · intro c b part s h
    refine ⟨_, exec_bistComplete.trans rfl, ?_⟩
    dsimp only
    split
    · rfl
    · unfold State.testEnds
      rw [h]
  · intro c r part s h1 h2
    refine ⟨_, exec_bistComplete.trans rfl, ?_⟩
    dsimp only
    rw [if_neg (by rw [h1]; decide)]
    unfold State.testEnds
    rw [h2]
    have hr := hcode c r s h2
    dsimp only
    rw [if_pos rfl]
    have hd : (s.testDone r true part).bst.tests = s.bst.tests.filter (fun t => t.code != c.val) ∧
        (s.testDone r true part).fld Reg.BST_CNT Fld.BST_CNT.TESTS = satAdd Fld.BST_CNT.TESTS.width (s.fld Reg.BST_CNT Fld.BST_CNT.TESTS) 1 ∧
        (s.testDone r true part).fld Reg.BST_CNT Fld.BST_CNT.FAILS = s.fld Reg.BST_CNT Fld.BST_CNT.FAILS := by
      unfold State.testDone
      rw [if_pos rfl, hr]
      refine ⟨congrArg (·.tests) (State.event_frame.bst (by decide)), (State.event_frame.fld regNo_BST_CNT).trans ?_,
        (State.event_frame.fld regNo_BST_CNT).trans ?_⟩
      · exact ((State.fld_of_regs rfl _ _).trans (State.fld_count (s.endTest c) Reg.BST_CNT Fld.BST_CNT.TESTS 1)).trans
          (congrArg (satAdd Fld.BST_CNT.TESTS.width · 1) (hcount s c).1)
      · exact ((State.fld_of_regs rfl _ _).trans (State.fld_setFld_field (s.endTest c) _ (f := Fld.BST_CNT.TESTS) (g := Fld.BST_CNT.FAILS) _
          (by decide))).trans (hcount s c).2
    generalize s.testDone r true part = u at hd
    unfold State.testPassed
    dsimp only
    rw [hr, h1]
    dsimp only
    refine ⟨State.unit_setUnit _ _ _ (by decide), hd.1, ?_, ?_⟩
    · exact (State.fld_setFld_other _ _ _ _ (reg_ne regNo_BST_CNT (regNo_BST_Uu _))).trans hd.2.1
    · exact (State.fld_setFld_other _ _ _ _ (reg_ne regNo_BST_CNT (regNo_BST_Uu _))).trans hd.2.2
  · intro c r part s h1 h2 h3
    refine ⟨_, exec_bistComplete.trans rfl, ?_⟩
    dsimp only
    rw [if_neg h1]
    unfold State.testEnds
    rw [h2]
    have hr := hcode c r s h2
    dsimp only
    rw [if_neg (by decide)]
    have hd : (s.testDone r false part).bst.tests = s.bst.tests.filter (fun t => t.code != c.val) ∧
        (s.testDone r false part).fld Reg.BST_CNT Fld.BST_CNT.TESTS = satAdd Fld.BST_CNT.TESTS.width (s.fld Reg.BST_CNT Fld.BST_CNT.TESTS) 1 ∧
        (s.testDone r false part).fld Reg.BST_CNT Fld.BST_CNT.FAILS = satAdd Fld.BST_CNT.FAILS.width (s.fld Reg.BST_CNT Fld.BST_CNT.FAILS) 1 := by
      unfold State.testDone
      rw [if_neg (by decide), hr]
      refine ⟨congrArg (·.tests) (State.event_frame.bst (by decide)), (State.event_frame.fld regNo_BST_CNT).trans ?_,
        (State.event_frame.fld regNo_BST_CNT).trans ?_⟩
      · refine ((State.fld_of_regs rfl _ _).trans (State.fld_setFld_field _ _ (f := Fld.BST_CNT.FAILS) (g := Fld.BST_CNT.TESTS) _ (by decide))).trans ?_
        exact (State.fld_count (s.endTest c) Reg.BST_CNT Fld.BST_CNT.TESTS 1).trans
          (congrArg (satAdd Fld.BST_CNT.TESTS.width · 1) (hcount s c).1)
      · refine ((State.fld_of_regs rfl _ _).trans (State.fld_count _ Reg.BST_CNT Fld.BST_CNT.FAILS 1)).trans ?_
        exact congrArg (satAdd Fld.BST_CNT.FAILS.width · 1)
          ((State.fld_setFld_field (s.endTest c) _ (f := Fld.BST_CNT.TESTS) (g := Fld.BST_CNT.FAILS) _ (by decide)).trans (hcount s c).2)
    generalize s.testDone r false part = u at hd
    unfold State.testFailed
    dsimp only
    rw [hr, h3, if_pos rfl]
    refine ⟨State.unit_setUnit _ _ _ (by decide), hd.1, ?_, ?_⟩
    · exact (State.fld_setFld_other _ _ _ _ (reg_ne regNo_BST_CNT (regNo_BST_Uu _))).trans hd.2.1
    · exact (State.fld_setFld_other _ _ _ _ (reg_ne regNo_BST_CNT (regNo_BST_Uu _))).trans hd.2.2

theorem State.abortTest_tests (s : State) (c cause : Nat) : (s.abortTest c cause).bst.tests = s.bst.tests.filter fun t => t.code != c := by
  unfold State.abortTest
  split
  · dsimp only
    refine (congrArg (·.tests) (State.event_frame.bst (by decide))).trans ?_
    rfl
  · rename_i hn
    refine (List.filter_eq_self.mpr ?_).symm
    intro t ht
    have := List.find?_eq_none.mp hn t ht
    simpa using this

theorem State.bst_tests_dacFreed (s : State) (c : Nat) :
    (if classOf c = .comparator then s.dacFreed ((c - 0x38) / 3) else s).bst.tests = s.bst.tests := by
  split
  · exact congrArg (·.tests) (State.dacFreed_frame.bst (by decide))
  · rfl

/-- BST_COND shows the conditions; with no test under way nothing else comes, and while a condition fails no test is left. -/
theorem bistAbort_does :
    (∀ (k : Fin 8) (s : State), Does (.bistAbort k) s fun t => t.reg Reg.BST_COND = BitVec.ofNat 32 k.val) ∧
    (∀ (k : Fin 8) (s : State), s.bst.tests = [] → Does (.bistAbort k) s fun t => t = s.setReg Reg.BST_COND (BitVec.ofNat 32 k.val)) ∧
    (∀ (k : Fin 8) (s : State), (s.setReg Reg.BST_COND (BitVec.ofNat 32 k.val)).condOk = false →
      Does (.bistAbort k) s fun t => t.bst.tests = []) := by
  refine ⟨?_, ?_, ?_⟩
  · intro k s
    refine ⟨_, exec_bistAbort.trans rfl, ?_⟩
    dsimp only
    have hu : (s.setReg Reg.BST_COND (BitVec.ofNat 32 k.val)).reg Reg.BST_COND = BitVec.ofNat 32 k.val := State.reg_setReg_same _ _ _
    generalize s.setReg Reg.BST_COND (BitVec.ofNat 32 k.val) = u at hu
    split
    · exact hu
    · refine State.foldl_keeps (fun v : State => v.reg Reg.BST_COND = BitVec.ofNat 32 k.val) _ ?_ _ u hu
      intro v c hv
      have hw : (v.abortTest c 0).reg Reg.BST_COND = BitVec.ofNat 32 k.val := (State.abortTest_frame.reg regNo_BST_COND).trans hv
      replace hw : (if classOf c = .comparator then (v.abortTest c 0).dacFreed ((c - 0x38) / 3) else v.abortTest c 0).reg Reg.BST_COND =
          BitVec.ofNat 32 k.val := by
        split
        · exact (State.dacFreed_frame.reg regNo_BST_COND).trans hw
        · exact hw
      generalize (if classOf c = .comparator then (v.abortTest c 0).dacFreed ((c - 0x38) / 3) else v.abortTest c 0) = w at hw
      split
      · exact hw
      · exact (State.quarantine_frame.reg regNo_BST_COND).trans hw
  · intro k s h
    refine ⟨_, exec_bistAbort.trans rfl, ?_⟩
    dsimp only
    split
    · rfl
    · rw [show (s.setReg Reg.BST_COND (BitVec.ofNat 32 k.val)).bst.tests = [] from h]
      rfl
  · intro k s h
    refine ⟨_, exec_bistAbort.trans rfl, ?_⟩
    dsimp only
    rw [h, if_neg (by decide)]
    generalize s.setReg Reg.BST_COND (BitVec.ofNat 32 k.val) = u
    have key : ∀ (l : List Nat) (v : State), (l.foldl (fun s c =>
        let s := s.abortTest c 0
        let s := if classOf c = .comparator then s.dacFreed ((c - 0x38) / 3) else s
        if classOf c = .pll then s.setPll (c - 0x2C) { s.pll (c - 0x2C) with testing := false }
        else s.quarantine c) v).bst.tests = v.bst.tests.filter fun t => decide (t.code ∉ l) := by
      intro l
      induction l with
      | nil => intro v; exact (List.filter_eq_self.mpr (by simp)).symm
      | cons c l ih =>
        intro v
        rw [List.foldl_cons, ih]
        have hw : (let s := v.abortTest c 0
            let s := if classOf c = .comparator then s.dacFreed ((c - 0x38) / 3) else s
            if classOf c = .pll then s.setPll (c - 0x2C) { s.pll (c - 0x2C) with testing := false }
            else s.quarantine c).bst.tests = v.bst.tests.filter fun t => t.code != c := by
          dsimp only
          refine Eq.trans ?_ ((State.bst_tests_dacFreed (v.abortTest c 0) c).trans (v.abortTest_tests c 0))
          generalize (if classOf c = .comparator then (v.abortTest c 0).dacFreed ((c - 0x38) / 3) else v.abortTest c 0) = w
          split
          · rfl
          · exact congrArg (·.tests) (State.quarantine_frame.bst (by decide))
        rw [hw, List.filter_filter]
        congr 1
        funext t
        by_cases e : t.code = c <;> simp [e]
    rw [key]
    refine List.filter_eq_nil_iff.mpr ?_
    intro t ht
    simpa using ⟨t, ht, rfl⟩

/-! ### Quarantine, repair, life cycle -/

/-- A unit that is not in quarantine, or a PLL, has no watch to end; a comparison that fails leaves the unit failed, and
one that passes brings a unit that no false death counts for back: free at home as a spare, else serving. -/
theorem quarantineEnd_does :
    (∀ (c : Fin 256) (b : Bool) (s : State), s.unit c ≠ unitQuarantine ∨ classOf c.val = .pll ∨ unitExists c = false →
      Does (.quarantineEnd c b) s fun t => t = s) ∧
    (∀ (c : Fin 256) (s : State), s.unit c = unitQuarantine → classOf c.val ≠ .pll → classOf c.val ≠ .sar → unitExists c = true →
      Does (.quarantineEnd c false) s fun t => t.unit c = unitFailed) ∧
    (∀ (c : Fin 256) (s : State), s.unit c = unitQuarantine → classOf c.val ≠ .pll → classOf c.val ≠ .sar → unitExists c = true →
      s.bst.detected.contains c.val = false →
      Does (.quarantineEnd c true) s fun t => t.unit c = if homeSpare c then unitFree else unitServing) := by
  refine ⟨?_, ?_, ?_⟩
  · intro c b s h
    refine ⟨_, exec_quarantineEnd.trans rfl, ?_⟩
    dsimp only
    rw [if_pos (by rcases h with h | h | h <;> simp [h])]
  · intro c s h1 h2 h3 h4
    refine ⟨_, exec_quarantineEnd.trans rfl, ?_⟩
    dsimp only
    rw [if_neg (by simp [h1, h2, h4])]
    have hc : s.comparison c false = some false := by
      unfold State.comparison
      split
      · rename_i e _; exact absurd e h3
      · rfl
    rw [hc]
    dsimp only
    unfold State.reject
    dsimp only
    refine (State.event_frame.unit _).trans ?_
    rw [if_neg h3]
    exact State.unit_setUnit _ _ _ (by decide)
  · intro c s h1 h2 h3 h4 h5
    refine ⟨_, exec_quarantineEnd.trans rfl, ?_⟩
    dsimp only
    rw [if_neg (by simp [h1, h2, h4])]
    have hc : s.comparison c true = some true := by
      unfold State.comparison
      split
      · rename_i e _; exact absurd e h3
      · rfl
    rw [hc]
    dsimp only
    have hd : s.countDeath c = (s, false) := by
      unfold State.countDeath
      rw [if_neg (by rw [h5]; simp)]
    rw [hd]
    dsimp only
    unfold State.readmit
    dsimp only
    refine (State.postReadmitted_frame.unit _).trans ((State.clearFailure_frame.unit _).trans ?_)
    rw [if_neg h3]
    split
    · exact (State.showSpare_frame.unit _).trans (State.unit_setUnit _ _ _ (by decide))
    · exact (State.serveAgain_frame.unit _).trans (State.unit_setUnit _ _ _ (by decide))

/-- The first corrected error of a row is remembered; a unit that is no memory has none. -/
theorem sramRowRepair_does :
    (∀ (r : MemRow) (w : Fin 32) (b : Bool) (s : State), classOf (rowKey r).1 ≠ .memory ∨ unitExists (rowKey r).1 = false →
      Does (.sramRowRepair r w b) s fun t => t = s) ∧
    (∀ (r : MemRow) (w : Fin 32) (s : State), classOf (rowKey r).1 = .memory → unitExists (rowKey r).1 = true → s.rowErred (rowKey r) = false →
      Does (.sramRowRepair r w false) s fun t =>
        t.bst.rowErrors = s.bst.rowErrors ++ [⟨(rowKey r).1, (rowKey r).2.1, (rowKey r).2.2, w.val, s.tick⟩] ∧
        t.bst.copying = s.bst.copying ∧ t.regs = s.regs ∧ t.mem = s.mem) ∧
    (∀ (r : MemRow) (w : Fin 32) (b : Bool) (s : State), classOf (rowKey r).1 = .memory → unitExists (rowKey r).1 = true →
      b = true ∨ s.rowErred (rowKey r) = true → s.bst.copying.contains (rowKey r) = false →
      s.mappedIn (rowKey r).1 (rowKey r).2.1 + (s.bst.copying.countP fun x => x.1 == (rowKey r).1 && x.2.1 == (rowKey r).2.1) < spareRows →
      Does (.sramRowRepair r w b) s fun t => t.bst.copying = s.bst.copying ++ [rowKey r]) := by
  refine ⟨?_, ?_, ?_⟩
  · intro r w b s h
    refine ⟨_, exec_sramRowRepair.trans rfl, ?_⟩
    dsimp only
    rw [if_pos (by rcases h with h | h <;> simp [h])]
  · intro r w s h1 h2 h3
    refine ⟨_, exec_sramRowRepair.trans rfl, ?_⟩
    dsimp only
    rw [if_neg (by simp [h1, h2]), if_neg (by simp [h3])]
    exact ⟨rfl, rfl, rfl, rfl⟩
  · intro r w b s h1 h2 h3 h4 h5
    refine ⟨_, exec_sramRowRepair.trans rfl, ?_⟩
    dsimp only
    rw [if_neg (by simp [h1, h2]), if_pos (by rcases h3 with h | h <;> simp [h])]
    unfold State.repairRow
    rw [if_neg (by simpa using h4)]
    exact congrArg (fun v : State => v.bst.copying) (if_neg (Nat.not_le.mpr h5))

/-- The mapping of a copied row switches to a spare row. -/
theorem rowCopyDone_does :
    (∀ (r : MemRow) (s : State), s.bst.copying.contains (rowKey r) = false → Does (.rowCopyDone r) s fun t => t = s) ∧
    (∀ (r : MemRow) (s : State), s.bst.copying.contains (rowKey r) = true → s.mappedIn (rowKey r).1 (rowKey r).2.1 < spareRows →
      Does (.rowCopyDone r) s fun t => t.bst.copying = s.bst.copying.filter (· != rowKey r) ∧
        t.bst.mapped = s.bst.mapped ++ [rowKey r] ∧
        t.fld Reg.BST_REPAIR Fld.BST_REPAIR.USED = (s.bst.mapped.length + 1) % 2 ^ Fld.BST_REPAIR.USED.width) := by
  refine ⟨?_, ?_⟩
  · intro r s h
    refine ⟨_, exec_rowCopyDone.trans rfl, ?_⟩
    dsimp only
    rw [h, if_pos (by decide)]
  · intro r s h1 h2
    refine ⟨_, exec_rowCopyDone.trans rfl, ?_⟩
    dsimp only
    rw [h1, if_neg (by decide)]
    have hm : ∀ v : State, v.bst.mapped = s.bst.mapped → v.mapSpareRow (rowKey r) = { v with bst.mapped := v.bst.mapped ++ [rowKey r] } := by
      intro v hv
      unfold State.mapSpareRow
      refine if_neg (Nat.not_le.mpr ?_)
      refine Nat.lt_of_le_of_lt (Nat.le_of_eq ?_) h2
      unfold State.mappedIn
      rw [hv]
    rw [hm { s with bst.copying := s.bst.copying.filter (· != rowKey r) } rfl]
    unfold State.postRepair
    refine ⟨(congrArg (·.copying) (State.event_frame.bst (by decide))).trans rfl,
      (congrArg (·.mapped) (State.event_frame.bst (by decide))).trans rfl, ?_⟩
    refine (State.event_frame.fld regNo_BST_REPAIR).trans ?_
    unfold State.showRepair
    refine (State.fld_setFld_field _ _ (f := Fld.BST_REPAIR.FULL) (g := Fld.BST_REPAIR.USED) _ (by decide)).trans ?_
    refine (State.fld_setFld _ Reg.BST_REPAIR Fld.BST_REPAIR.USED _).trans ?_
    exact congrArg (· % 2 ^ Fld.BST_REPAIR.USED.width) (List.length_append.trans rfl)

theorem State.drawNonce_kept (s : State) : s.drawNonce.bst = s.bst ∧ s.drawNonce.reg Reg.BST_LCCNT = s.reg Reg.BST_LCCNT ∧
    s.drawNonce.reg Reg.BST_CNT = s.reg Reg.BST_CNT :=
  ⟨State.drawNonce_frame.bst (by decide), State.drawNonce_frame.reg regNo_BST_LCCNT, State.drawNonce_frame.reg regNo_BST_CNT⟩

/-- The oldest token is judged: a valid one counts in BST_LCCNT and sets the life-cycle state that follows the next reset; any
other counts in TOKFAIL alone. -/
theorem lcsTokenVerified_does :
    (∀ s : State, s.bst.tokens = [] → Does .lcsTokenVerified s fun t => t = s) ∧
    (∀ (k : Token) (rest : List Token) (s : State), s.bst.tokens = k :: rest → s.tokenReason k = 0 → Does .lcsTokenVerified s fun t =>
      t.bst.tokens = rest ∧ t.reg Reg.BST_LCCNT = s.reg Reg.BST_LCCNT + 1 ∧ t.reg Reg.BST_CNT = s.reg Reg.BST_CNT ∧
      t.bst.lcsNext.map (·.state) = some ((k.word 8).toNat / 256 % 4)) ∧
    (∀ (k : Token) (rest : List Token) (s : State), s.bst.tokens = k :: rest → s.tokenReason k ≠ 0 → Does .lcsTokenVerified s fun t =>
      t.bst.tokens = rest ∧ t.reg Reg.BST_LCCNT = s.reg Reg.BST_LCCNT ∧ t.bst.lcsNext = s.bst.lcsNext ∧
      t.fld Reg.BST_CNT Fld.BST_CNT.TOKFAIL = satAdd Fld.BST_CNT.TOKFAIL.width (s.fld Reg.BST_CNT Fld.BST_CNT.TOKFAIL) 1) := by
  refine ⟨?_, ?_, ?_⟩
  · intro s h
    refine Does.via exec_lcsTokenVerified ?_
    unfold execLcsTokenVerified
    rw [h]
    exact ⟨_, rfl, rfl⟩
  · intro k rest s h1 h2
    refine Does.via exec_lcsTokenVerified ?_
    unfold execLcsTokenVerified
    rw [h1]
    dsimp only
    rw [h2]
    refine ⟨_, rfl, ?_⟩
    have hk := State.drawNonce_kept { s with bst.tokens := rest }
    generalize State.drawNonce { s with bst.tokens := rest } = u at hk
    rw [if_pos rfl, if_pos rfl]
    have hx : (u.setReg Reg.BST_LCCNT (u.reg Reg.BST_LCCNT + 1)).bst = u.bst := rfl
    have hy : (u.setReg Reg.BST_LCCNT (u.reg Reg.BST_LCCNT + 1)).reg Reg.BST_LCCNT = u.reg Reg.BST_LCCNT + 1 := State.reg_setReg_same _ _ _
    have hz : (u.setReg Reg.BST_LCCNT (u.reg Reg.BST_LCCNT + 1)).reg Reg.BST_CNT = u.reg Reg.BST_CNT :=
      State.reg_setReg_other _ _ (reg_ne regNo_BST_CNT regNo_BST_LCCNT)
    generalize u.setReg Reg.BST_LCCNT (u.reg Reg.BST_LCCNT + 1) = x at hx hy hz
    refine ⟨?_, ?_, ?_, rfl⟩
    · refine (congrArg (·.tokens) (State.event_frame.bst (s := x) (by decide))).trans ?_
      rw [hx, hk.1]
    · exact (State.event_frame.reg regNo_BST_LCCNT).trans (hy.trans (congrArg (· + 1) hk.2.1))
    · exact (State.event_frame.reg regNo_BST_CNT).trans (hz.trans hk.2.2)
  · intro k rest s h1 h2
    refine Does.via exec_lcsTokenVerified ?_
    unfold execLcsTokenVerified
    rw [h1]
    dsimp only
    refine ⟨_, rfl, ?_⟩
    have hk := State.drawNonce_kept { s with bst.tokens := rest }
    generalize State.drawNonce { s with bst.tokens := rest } = u at hk
    rw [if_neg h2, if_neg h2]
    have hx : (u.count Reg.BST_CNT Fld.BST_CNT.TOKFAIL).bst = u.bst := rfl
    have hy : (u.count Reg.BST_CNT Fld.BST_CNT.TOKFAIL).reg Reg.BST_LCCNT = u.reg Reg.BST_LCCNT :=
      State.reg_setFld_other _ _ _ (reg_ne regNo_BST_LCCNT regNo_BST_CNT)
    have hz := State.fld_count u Reg.BST_CNT Fld.BST_CNT.TOKFAIL 1
    generalize u.count Reg.BST_CNT Fld.BST_CNT.TOKFAIL = x at hx hy hz
    refine ⟨?_, ?_, ?_, ?_⟩
    · refine (congrArg (·.tokens) (State.event_frame.bst (s := x) (by decide))).trans ?_
      rw [hx, hk.1]
    · exact (State.event_frame.reg regNo_BST_LCCNT).trans (hy.trans hk.2.1)
    · refine (congrArg (·.lcsNext) (State.event_frame.bst (s := x) (by decide))).trans ?_
      rw [hx, hk.1]
    · refine (State.event_frame.fld regNo_BST_CNT).trans (hz.trans ?_)
      exact congrArg (satAdd Fld.BST_CNT.TOKFAIL.width · 1) (congrArg (Fld.BST_CNT.TOKFAIL.of ·) hk.2.2)

end Sys2Proof.Machine
end

