-- ==== Sys2Proof/Laws/EffectFld.lean ====
section
/-! SUPPORT. What the events of field control, the weigh-house, the discharge and the Isnak links do. -/

set_option Elab.async false

namespace Sys2Proof.Machine

/-! ### Field control -/

theorem State.ev_setEv (s : State) (i k : Nat) (x : EvSlot) : (s.setEv i x).ev k = if k = i then x else s.ev k :=
  tabGet_tabSet _ _ _ _ _

/-- A slot that fires counts, and disarms unless it repeats. -/
theorem State.evFire_does {s : State} {i : Nat} (h : s.evArmed i = true) :
    (s.evFire i).fld (Reg.FLD_EVs_STAT i) Fld.FLD_EVs_STAT.FIRES = satAdd 16 (s.fld (Reg.FLD_EVs_STAT i) Fld.FLD_EVs_STAT.FIRES) 1 ∧
    (s.evFire i).evArmed i = (s.evAct i Fld.FLD_EVs_ACT.REP == 1) ∧ (s.evFire i).now = s.now := by
  unfold State.evFire
  extract_lets u v
  have hm : (s.evMark i).fld (Reg.FLD_EVs_STAT i) Fld.FLD_EVs_STAT.FIRES = satAdd 16 (s.fld (Reg.FLD_EVs_STAT i) Fld.FLD_EVs_STAT.FIRES) 1 ∧
      (s.evMark i).evArmed i = true ∧ (s.evMark i).now = s.now ∧
      (s.evMark i).reg (Reg.FLD_EVs_ACT i) = s.reg (Reg.FLD_EVs_ACT i) := by
    unfold State.evMark
    extract_lets w
    have hw : w = s.count (Reg.FLD_EVs_STAT i) Fld.FLD_EVs_STAT.FIRES := rfl
    refine ⟨?_, ?_, rfl, ?_⟩
    · exact (State.fld_of_regs (s := w) rfl _ _).trans (s.fld_count (Reg.FLD_EVs_STAT i) Fld.FLD_EVs_STAT.FIRES 1)
    · refine Eq.trans (congrArg (· != 0) ((State.fld_of_regs (s := w) rfl _ _).trans
        (State.fld_setFld_field _ _ (f := Fld.FLD_EVs_STAT.FIRES) (g := Fld.FLD_EVs_STAT.ARMED) _ (by decide)))) ?_
      exact h
    · exact State.reg_setFld_other _ _ _ (reg_ne (regNo_FLD_EVs_ACT i) (regNo_FLD_EVs_STAT i))
  have hu : Frame Foot.evActs (s.evMark i) u := State.evActs_frame
  have hv : Frame (Foot.evActs ||| Foot.event) (s.evMark i) v := by
    have h0 : Frame (Foot.evActs ||| Foot.event) (s.evMark i) u := Frame.step State.evActs_frame (Frame.refl _ _)
    unfold v
    split
    · exact Frame.step State.event_frame h0
    · exact h0
  have e1 : v.fld (Reg.FLD_EVs_STAT i) Fld.FLD_EVs_STAT.FIRES = satAdd 16 (s.fld (Reg.FLD_EVs_STAT i) Fld.FLD_EVs_STAT.FIRES) 1 :=
    (hv.fld (regNo_FLD_EVs_STAT i)).trans hm.1
  have e2 : v.evArmed i = true := (hv.on (regNo_FLD_EVs_STAT i)).trans hm.2.1
  have e3 : v.now = s.now := (hv.now (by decide)).trans hm.2.2.1
  have e4 : v.evAct i Fld.FLD_EVs_ACT.REP = s.evAct i Fld.FLD_EVs_ACT.REP :=
    congrArg Fld.FLD_EVs_ACT.REP.of ((hv.reg (regNo_FLD_EVs_ACT i)).trans hm.2.2.2)
  clear_value v
  unfold State.evAfter
  extract_lets x go
  rw [e4]
  by_cases hr : s.evAct i Fld.FLD_EVs_ACT.REP = 1
  · rw [if_pos hr]
    refine ⟨e1, ?_, e3⟩
    refine Eq.trans (b := v.evArmed i) rfl ?_
    rw [e2, hr]
    rfl
  · rw [if_neg hr]
    refine ⟨?_, ?_, e3⟩
    · exact (State.fld_setFld_field _ _ (f := Fld.FLD_EVs_STAT.ARMED) (g := Fld.FLD_EVs_STAT.FIRES) _ (by decide)).trans e1
    · refine (congrArg (· != 0) (v.fld_setFld (Reg.FLD_EVs_STAT i) Fld.FLD_EVs_STAT.ARMED 0)).trans ?_
      exact (Bool.eq_false_iff.mpr fun h => hr (eq_of_beq h)).symm

/-- Where no sequencer runs and no lower slot is armed, nothing acts before a slot. -/
theorem State.evBefore_none {s : State} {i : Nat} (hs : ∀ m, m < 2 → s.seqOn m = false) (hl : ∀ j, j < i → s.evArmed j = false) :
    s.evBefore i = s := by
  unfold State.evBefore
  extract_lets u
  have hu : u = s := by
    unfold u
    dsimp only [List.foldl_cons, List.foldl_nil]
    rw [hs 0 (by decide), if_neg Bool.false_ne_true, hs 1 (by decide), if_neg Bool.false_ne_true]
  rw [hu]
  have key : ∀ l : List Nat, (∀ j ∈ l, j < i) → l.foldl State.evDue s = s := by
    intro l
    induction l with
    | nil => exact fun _ => rfl
    | cons k l ih =>
      intro h
      rw [List.foldl_cons]
      have hk : s.evDue k = s := by
        unfold State.evDue
        rw [hl k (h k List.mem_cons_self), Bool.false_and]
        exact if_neg Bool.false_ne_true
      rw [hk]
      exact ih fun j hj => h j (List.mem_cons_of_mem _ hj)
  exact key _ fun j hj => List.mem_range.1 hj

/-- An armed slot whose angle is reached fires after the sequencers and the lower slots due with it: it counts, and disarms
unless it repeats. -/
theorem angleEventFire_does :
    (∀ (i : Fin 16) (n : Nat) (s : State), s.evArmed i = true → s.evReached i (max s.now n) = true →
      ((s.at n).evBefore i).evArmed i = true → ((s.at n).evBefore i).evReached i (max s.now n) = true →
      Does (.angleEventFire i n) s fun t =>
      t.fld (Reg.FLD_EVs_STAT i) Fld.FLD_EVs_STAT.FIRES =
        satAdd 16 (((s.at n).evBefore i).fld (Reg.FLD_EVs_STAT i) Fld.FLD_EVs_STAT.FIRES) 1 ∧
      t.evArmed i = (((s.at n).evBefore i).evAct i Fld.FLD_EVs_ACT.REP == 1) ∧ t.now = max s.now n) ∧
    (∀ (i : Fin 16) (n : Nat) (s : State), s.evArmed i = true → s.evReached i (max s.now n) = true →
      (∀ m, m < 2 → s.seqOn m = false) → (∀ j, j < i.val → s.evArmed j = false) → Does (.angleEventFire i n) s fun t =>
      t.fld (Reg.FLD_EVs_STAT i) Fld.FLD_EVs_STAT.FIRES = satAdd 16 (s.fld (Reg.FLD_EVs_STAT i) Fld.FLD_EVs_STAT.FIRES) 1 ∧
      t.evArmed i = (s.evAct i Fld.FLD_EVs_ACT.REP == 1) ∧ t.now = max s.now n) ∧
    (∀ (i : Fin 16) (n : Nat) (s : State), s.evArmed i = false ∨ s.evReached i (max s.now n) = false →
      Does (.angleEventFire i n) s fun t => t = s) := by
  have fires : ∀ (i : Fin 16) (n : Nat) (s : State), s.evArmed i = true → s.evReached i (max s.now n) = true →
      ((s.at n).evBefore i).evArmed i = true → ((s.at n).evBefore i).evReached i (max s.now n) = true →
      Does (.angleEventFire i n) s fun t =>
      t.fld (Reg.FLD_EVs_STAT i) Fld.FLD_EVs_STAT.FIRES =
        satAdd 16 (((s.at n).evBefore i).fld (Reg.FLD_EVs_STAT i) Fld.FLD_EVs_STAT.FIRES) 1 ∧
      t.evArmed i = (((s.at n).evBefore i).evAct i Fld.FLD_EVs_ACT.REP == 1) ∧ t.now = max s.now n := by
    intro i n s h1 h2 h3 h4
    refine ⟨_, exec_angleEventFire.trans rfl, ?_⟩
    dsimp only
    rw [h1, h2, if_pos (by decide)]
    have hn : ((s.at n).evBefore i).now = max s.now n := State.evBefore_frame.now (by decide)
    generalize (s.at n).evBefore i = u at h3 h4 hn
    have hd : u.evDue i = u.evFire i := by
      unfold State.evDue
      rw [hn, h3, h4]
      exact if_pos rfl
    rw [hd, ← hn]
    exact State.evFire_does h3
  refine ⟨fires, ?_, ?_⟩
  · intro i n s h1 h2 h3 h4
    have h := State.evBefore_none (s := s.at n) (i := i) h3 h4
    have hf := fires i n s h1 h2 (by rw [h]; exact h1) (by rw [h]; exact h2)
    rw [h] at hf
    exact hf
  · intro i n s h
    refine ⟨_, exec_angleEventFire.trans rfl, ?_⟩
    dsimp only
    rw [if_neg (by rcases h with h | h <;> simp [h])]

theorem State.writeMask_code (s : State) (k code : Nat) (h : code < 8) :
    (s.writeMask k code).fld (Reg.PAIRk_MASK k) Fld.PAIRk_MASK.CODE = code := by
  unfold State.writeMask
  extract_lets u
  rw [State.setMask_frame.fld (regNo_PAIRk_MASK k)]
  refine Eq.trans (State.fld_of_regs (s := u) rfl _ _) ?_
  exact (s.fld_setFld (Reg.PAIRk_MASK k) Fld.PAIRk_MASK.CODE code).trans (Nat.mod_eq_of_lt h)

theorem State.writeMask_other (s : State) (j k code : Nat) (h : Reg.PAIRk_MASK k ≠ Reg.PAIRk_MASK j) (f : Bits) :
    (s.writeMask j code).fld (Reg.PAIRk_MASK k) f = s.fld (Reg.PAIRk_MASK k) f := by
  unfold State.writeMask
  extract_lets u
  rw [State.setMask_frame.fld (regNo_PAIRk_MASK k)]
  refine Eq.trans (State.fld_of_regs (s := u) rfl _ _) ?_
  exact s.fld_setFld_other _ _ _ h

theorem State.sectorAt_of {s t : State} {m : Nat} (hb : t.board = s.board) (hf : t.fldc = s.fldc) (h1 : t.fldSrc m = s.fldSrc m)
    (h2 : t.paired = s.paired) (b x : Nat) : t.sectorAt m b x = s.sectorAt m b x := by
  have hs : ∀ a, t.sig a = s.sig a := fun a => congrArg (Store.get boardDefault · a) hb
  have hm : t.fm m = s.fm m := congrArg (fun q : FieldCtl => tabGet ({} : FldM) q.machines m) hf
  have ho : t.omegaCtl m = s.omegaCtl m := congrArg Num.val (hs _)
  have ha : t.alphaCtl m = s.alphaCtl m := congrArg Num.val (hs _)
  have hc : t.ctlForward m = s.ctlForward m := by
    unfold State.ctlForward State.chWord
    dsimp only
    rw [h1, ho, hs]
  have ht : t.turnAt m x = s.turnAt m x := by
    unfold State.turnAt
    rw [hm, ho, ha]
  have hq : t.seqOffset m = s.seqOffset m := by
    unfold State.seqOffset
    rw [hm, hs, hc]
  unfold State.sectorAt
  rw [ht, hq, h2]

/-- A crossing of a sector boundary: the pairs U, V, W of the machine's bridge take the masks of the sector (Table FLD-5). -/
theorem sixstepCrossing_does :
    (∀ (m : Fin 2) (n : Nat) (s : State), s.seqOn m = false → Does (.sixstepCrossing m n) s fun t => t = s) ∧
    (∀ (m : Fin 2) (n u v w : Nat) (s : State), s.seqOn m = true → s.on Reg.POS_CFG Fld.POS_CFG.PAIRED = false →
      s.pairsOf m = [u, v, w] → u < v → v < w → w < 16 → Does (.sixstepCrossing m n) s fun t =>
        [t.fld (Reg.PAIRk_MASK u) Fld.PAIRk_MASK.CODE, t.fld (Reg.PAIRk_MASK v) Fld.PAIRk_MASK.CODE,
          t.fld (Reg.PAIRk_MASK w) Fld.PAIRk_MASK.CODE] = sectorMasks (s.sectorAt m m (max s.now n)) ∧
        t.fld (Reg.FLD_MCm_STAT m) Fld.FLD_MCm_STAT.SECTOR = s.sectorAt m m (max s.now n)) := by
  refine ⟨?_, ?_⟩
  · intro m n s h
    refine ⟨_, exec_sixstepCrossing.trans rfl, ?_⟩
    dsimp only
    rw [h, if_neg (by decide)]
  · intro m n u v w s h hp hk huv hvw hw
    refine ⟨_, exec_sixstepCrossing.trans rfl, ?_⟩
    dsimp only
    rw [h, if_pos rfl]
    unfold State.seqWrite
    have hb : ∀ y : State, y.on Reg.POS_CFG Fld.POS_CFG.PAIRED = false → y.bridgesOf m = [m.val] := by
      intro y hy
      unfold State.bridgesOf
      rw [hy, if_neg (by decide)]
    have hmain : (s.at n).mainBridge m = m.val := by
      unfold State.mainBridge
      rw [hb (s.at n) hp]
      rfl
    rw [hmain]
    extract_lets y
    have hy : Frame (Foot.settle ||| 2 ^ 192) (s.at n) y.settle :=
      Frame.step State.settle_frame ((Frame.refl _ _).setFld (regNo_FLD_MCm_STAT m))
    have hlt : (s.at n).sectorAt m m (max s.now n) < 6 := Nat.mod_lt _ (by decide)
    have hsect : y.settle.fld (Reg.FLD_MCm_STAT m) Fld.FLD_MCm_STAT.SECTOR = (s.at n).sectorAt m m (max s.now n) :=
      (State.settle_frame.fld (regNo_FLD_MCm_STAT m)).trans
        (((s.at n).fld_setFld (Reg.FLD_MCm_STAT m) Fld.FLD_MCm_STAT.SECTOR _).trans
          (Nat.mod_eq_of_lt (Nat.lt_of_lt_of_le hlt (by decide))))
    have hsrc : y.settle.fldSrc m = s.fldSrc m :=
      (State.settle_frame.fld (regNo_FLD_MCm_STAT m)).trans
        (State.fld_setFld_field _ _ (f := Fld.FLD_MCm_STAT.SECTOR) (g := Fld.FLD_MCm_STAT.SRC) _ (by decide))
    have hyp : y.settle.on Reg.POS_CFG Fld.POS_CFG.PAIRED = false := (hy.on regNo_POS_CFG).trans hp
    have hat : (s.at n).sectorAt m m (max s.now n) = s.sectorAt m m (max s.now n) := State.sectorAt_of rfl rfl rfl rfl _ _
    have hxs : y.settle.sectorAt m m (max s.now n) = s.sectorAt m m (max s.now n) :=
      State.sectorAt_of (hy.board (by decide)) (hy.fldc (by decide)) hsrc (hyp.trans hp.symm) _ _
    have hy0 : Frame (2 ^ 192) (s.at n) y := (Frame.refl _ _).setFld (regNo_FLD_MCm_STAT m)
    rw [hb y ((hy0.on regNo_POS_CFG).trans hp)]
    dsimp only [List.foldl_cons, List.foldl_nil]
    rw [hat] at hsect
    have hf : Frame (Foot.settle ||| 2 ^ 192) (s.at n) y.settle := hy
    generalize y.settle = x at hf hsect hxs
    have hpx : x.pairsOf m = [u, v, w] := by
      have e : x.pairsOf m = (s.at n).pairsOf m := by
        unfold State.pairsOf
        refine List.filter_congr fun k _ => ?_
        unfold State.unitOfPair
        dsimp only
        split
        · rw [hf.fld regNo_PROT_UNITMAP0]
        · rw [hf.fld regNo_PROT_UNITMAP1]
      exact e.trans hk
    rw [hpx]
    have hsec : ∀ k, k < 6 → ∃ a b c, sectorMasks k = [a, b, c] ∧ a < 8 ∧ b < 8 ∧ c < 8 := by
      intro k hk
      have : k = 0 ∨ k = 1 ∨ k = 2 ∨ k = 3 ∨ k = 4 ∨ k = 5 := by omega
      rcases this with rfl | rfl | rfl | rfl | rfl | rfl <;> exact ⟨_, _, _, rfl, by decide, by decide, by decide⟩
    obtain ⟨a, b, c, e, ha, hb', hc⟩ := hsec (s.sectorAt m m (max s.now n)) (Nat.mod_lt _ (by decide))
    rw [hxs, e]
    unfold State.writeMasks
    dsimp only [List.zip_cons_cons, List.zip_nil_left, List.foldl_cons, List.foldl_nil]
    refine ⟨?_, (State.writeMask_frame.fld (regNo_FLD_MCm_STAT m)).trans ((State.writeMask_frame.fld (regNo_FLD_MCm_STAT m)).trans
      ((State.writeMask_frame.fld (regNo_FLD_MCm_STAT m)).trans hsect))⟩
    have ne : ∀ i j, i < 16 → j < 16 → i ≠ j → Reg.PAIRk_MASK i ≠ Reg.PAIRk_MASK j := by
      intro i j hi hj h
      show 0x40051014 + _ ≠ 0x40051014 + _
      rw [Nat.mod_eq_of_lt hi, Nat.mod_eq_of_lt hj]
      omega
    rw [State.writeMask_other _ w u _ (ne _ _ (by omega) hw (by omega)), State.writeMask_other _ v u _ (ne _ _ (by omega) (by omega) (by omega)),
      State.writeMask_code _ u _ ha, State.writeMask_other _ w v _ (ne _ _ (by omega) hw (by omega)), State.writeMask_code _ v _ hb',
      State.writeMask_code _ w _ hc]

theorem State.fldStart_setStart (s : State) (m st : Nat) (h : st < 16) : (s.setStart m st).fldStart m = st := by
  unfold State.setStart
  extract_lets u src
  refine (State.refreshHold_frame.fld (regNo_FLD_MCm_STAT m)).trans ?_
  refine Eq.trans (State.fld_of_regs (s := u) rfl _ _) ?_
  exact (s.fld_setFld (Reg.FLD_MCm_STAT m) Fld.FLD_MCm_STAT.START st).trans (Nat.mod_eq_of_lt h)

/-- The end of a watch of a machine that is not in safe state: it goes where the finding leads. -/
theorem watchEnd_does :
    (∀ (m : Fin 2) (n : Nat) (s : State), s.fldStart m ≠ stWatch ∨ n < (s.fm m).startAt + s.watchLen m → Does (.watchEnd m n) s fun t => t = s) ∧
    (∀ (m : Fin 2) (n : Nat) (s : State), s.inRun = true → s.fldStart m = stWatch → (s.fm m).startAt + s.watchLen m ≤ n →
      s.allSafe m = false → s.watchFinding m ≠ stWait → s.watchFinding m ≠ stFailed → Does (.watchEnd m n) s fun t =>
        t.fldStart m = s.watchFinding m) := by
  refine ⟨?_, ?_⟩
  · intro m n s h
    refine ⟨_, exec_watchEnd.trans rfl, ?_⟩
    dsimp only
    rw [if_neg]
    rcases h with h | h
    · simp [h]
    · simp [show ¬ (s.fm m).startAt + s.watchLen m ≤ n by omega]
  · intro m n s h1 h2 h3 h4 h5 h6
    refine ⟨_, exec_watchEnd.trans rfl, ?_⟩
    dsimp only
    rw [if_pos (by rw [h1, h2, decide_eq_true h3]; rfl)]
    have hlt : s.watchFinding m < 16 := by
      unfold State.watchFinding
      dsimp only
      split
      · decide
      · split
        · unfold State.restState
          repeat' split
          all_goals decide
        · decide
    generalize s.watchFinding m = f at h5 h6 hlt
    unfold State.watchEnds
    rw [show (s.at n).allSafe m = false from h4, if_neg (by decide), if_neg h5]
    unfold State.goStart
    by_cases hc : f = stCatch
    · rw [if_pos hc]
      unfold State.enterCatch
      extract_lets x rev y src u v
      have hv : v.fldStart m = f := by
        refine (State.event_frame.fld (regNo_FLD_MCm_STAT m)).trans ?_
        refine (State.raiseHoFirst_frame.fld (regNo_FLD_MCm_STAT m)).trans ?_
        rw [hc]
        exact State.fldStart_setStart _ m _ (by decide)
      split
      · exact (State.event_frame.fld (regNo_FLD_MCm_STAT m)).trans hv
      · exact hv
    · rw [if_neg hc, if_neg h6]
      unfold State.enterAttempt
      exact State.fldStart_setStart _ m _ hlt

/-- WAIT lasts twice FSWATCH and leads to WATCH; CATCH lasts 8 ticks and leads to RUN. -/
theorem waitEnd_does :
    (∀ (m : Fin 2) (n : Nat) (s : State), s.inRun = true → s.fldStart m = stWait → (s.fm m).startAt + 2 * s.watchLen m ≤ n →
      Does (.waitEnd m n) s fun t => t.fldStart m = stWatch) ∧
    (∀ (m : Fin 2) (n : Nat) (s : State), s.fldStart m ≠ stWait ∨ n < (s.fm m).startAt + 2 * s.watchLen m → Does (.waitEnd m n) s fun t => t = s) := by
  refine ⟨?_, ?_⟩
  · intro m n s h1 h2 h3
    refine ⟨_, exec_waitEnd.trans rfl, ?_⟩
    dsimp only
    rw [if_pos (by rw [h1, h2, decide_eq_true h3]; rfl)]
    exact State.fldStart_setStart _ m _ (by decide)
  · intro m n s h
    refine ⟨_, exec_waitEnd.trans rfl, ?_⟩
    dsimp only
    rw [if_neg]
    rcases h with h | h
    · simp [h]
    · simp [show ¬ (s.fm m).startAt + 2 * s.watchLen m ≤ n by omega]

theorem catchEnd_does :
    (∀ (m : Fin 2) (s : State), s.fldStart m = stCatch → (s.fm m).startTick + 8 ≤ s.tick → Does (.catchEnd m) s fun t => t.fldStart m = stRun) ∧
    (∀ (m : Fin 2) (s : State), s.fldStart m ≠ stCatch ∨ s.tick < (s.fm m).startTick + 8 → Does (.catchEnd m) s fun t => t = s) := by
  refine ⟨?_, ?_⟩
  · intro m s h1 h2
    refine ⟨_, exec_catchEnd.trans rfl, ?_⟩
    dsimp only
    rw [if_pos ⟨h1, h2⟩]
    exact State.fldStart_setStart _ m _ (by decide)
  · intro m s h
    refine ⟨_, exec_catchEnd.trans rfl, ?_⟩
    dsimp only
    rw [if_neg (by rintro ⟨x, y⟩; rcases h with h | h; exact h x; omega)]

end Sys2Proof.Machine
end

