-- ==== Sys2Proof/Laws/EffectReset.lean ====
section
/-! SUPPORT. What resets, power states, the hold-up, the ledger and the link do. -/

set_option Elab.async false

namespace Sys2Proof.Machine

/-! ### A reset is asserted -/

theorem State.assertReset_free (s : State) (c : Nat) (h : s.pwr.held = none) : (s.assertReset c).pwr.held = some c ∧
    (s.assertReset c).pwr.heldAt = (s.assertReset c).now ∧ (s.assertReset c).hic.core0 = 0 := by
  unfold State.assertReset
  rw [h]
  exact ⟨rfl, rfl, rfl⟩

theorem State.assertReset_held (s : State) (c d : Nat) (h : s.pwr.held = some d) (hc : c ≠ rstPor) : s.assertReset c = s := by
  unfold State.assertReset
  rw [h]
  exact if_neg hc

theorem State.assertReset_por (s : State) : (s.assertReset rstPor).pwr.held = some rstPor := by
  unfold State.assertReset
  split
  · rfl
  · rfl

/-- The watchdog's reset comes once its delay has passed and the ledger has accepted the violation; else only the instant
passes. -/
theorem wdogReset_does :
    (∀ (n : Nat) (s : State), s.hic.wdogAt = none → Does (.wdogReset n) s fun t => t = s.at n) ∧
    (∀ (n d : Nat) (s : State), s.hic.wdogAt = some d → max s.now n < d ∨ s.led.sent ≠ [] → Does (.wdogReset n) s fun t => t = s.at n) ∧
    (∀ (n d : Nat) (s : State), s.hic.wdogAt = some d → d ≤ max s.now n → s.led.sent = [] → s.pwr.held = none →
      Does (.wdogReset n) s fun t => t.pwr.held = some rstWdog ∧ t.pwr.heldAt = t.now ∧ t.hic.core0 = 0) := by
  refine ⟨?_, ?_, ?_⟩
  · intro n s h
    refine ⟨_, exec_wdogReset.trans rfl, ?_⟩
    dsimp only
    rw [show (s.at n).hic.wdogAt = none from h]
  · intro n d s h h2
    refine ⟨_, exec_wdogReset.trans rfl, ?_⟩
    dsimp only
    rw [show (s.at n).hic.wdogAt = some d from h]
    refine if_neg ?_
    rintro ⟨a, b⟩
    rcases h2 with h2 | h2
    · exact Nat.lt_irrefl _ (Nat.lt_of_lt_of_le h2 a)
    · exact h2 (List.isEmpty_iff.mp b)
  · intro n d s h h2 h3 h4
    refine ⟨_, exec_wdogReset.trans rfl, ?_⟩
    dsimp only
    rw [show (s.at n).hic.wdogAt = some d from h]
    dsimp only
    rw [if_pos ⟨h2, List.isEmpty_iff.mpr h3⟩]
    exact (s.at n).assertReset_free _ h4

theorem powerOnReset_does : ∀ s : State, Does .powerOnReset s fun t => t.pwr.held = some rstPor :=
  fun s => ⟨_, exec_powerOnReset.trans rfl, s.assertReset_por⟩

theorem resetPin_does :
    (∀ (n : Nat) (s : State), s.pwr.held = none → Does (.resetPin n) s fun t => t.pwr.held = some rstPin ∧ t.pwr.heldAt = t.now ∧ t.hic.core0 = 0) ∧
    (∀ (n d : Nat) (s : State), s.pwr.held = some d → Does (.resetPin n) s fun t => t = s.at n) :=
  ⟨fun n s h => ⟨_, exec_resetPin.trans rfl, (s.at n).assertReset_free _ h⟩,
    fun n d s h => ⟨_, exec_resetPin.trans rfl, (s.at n).assertReset_held _ d h (by decide)⟩⟩

theorem swsysResetAssert_does :
    (∀ s : State, s.pwr.swsysAt = none → Does .swsysResetAssert s fun t => t = s) ∧
    (∀ (n : Nat) (s : State), s.pwr.swsysAt = some n → s.pwr.held = none → Does .swsysResetAssert s fun t =>
      t.pwr.held = some rstSwsys ∧ t.pwr.heldAt = t.now ∧ t.hic.core0 = 0) := by
  refine ⟨fun s h => ⟨_, exec_swsysResetAssert.trans rfl, ?_⟩, fun n s h h2 => ⟨_, exec_swsysResetAssert.trans rfl, ?_⟩⟩
  · rw [h]
  · rw [h]
    exact (s.at n).assertReset_free _ h2

/-- The reset of a life-cycle change waits for its entry to be durable. -/
theorem lcsReset_does :
    (∀ s : State, s.bst.lcsNext.all (fun n => !n.durable) = true → Does .lcsReset s fun t => t = s) ∧
    (∀ s : State, s.bst.lcsNext.any (·.durable) = true → s.pwr.held = none → Does .lcsReset s fun t =>
      t.pwr.held = some rstLcs ∧ t.pwr.heldAt = t.now ∧ t.hic.core0 = 0) := by
  refine ⟨fun s h => ⟨_, exec_lcsReset.trans rfl, ?_⟩, fun s h h2 => ⟨_, exec_lcsReset.trans rfl, ?_⟩⟩
  · cases hn : s.bst.lcsNext with
    | none => rfl
    | some n =>
      rw [hn] at h
      exact if_neg (by simpa using h)
  · cases hn : s.bst.lcsNext with
    | none => rw [hn] at h; cases h
    | some n =>
      rw [hn] at h
      dsimp only
      rw [if_pos (by simpa using h)]
      exact s.assertReset_free _ h2

/-- The commit's end asserts BOR where the supply was lost. -/
theorem commitEnd_does :
    (∀ s : State, s.led.lost = false → Does .commitEnd s fun t => t = s) ∧
    (∀ s : State, s.led.lost = true → s.pwr.held = none → Does .commitEnd s fun t =>
      t.pwr.held = some rstBor ∧ t.pwr.heldAt = t.now ∧ t.hic.core0 = 0) := by
  refine ⟨fun s h => ⟨_, exec_commitEnd.trans rfl, ?_⟩, fun s h h2 => ⟨_, exec_commitEnd.trans rfl, ?_⟩⟩
  · rw [h, if_neg (by decide)]
  · rw [h, if_pos rfl]
    exact s.assertReset_free _ h2

theorem swsubDone_does : ∀ s : State, Does .swsubDone s fun t => t.fld Reg.SYS_SWSUB Fld.SYS_SWSUB.GO = 0 ∧ t.mem = s.mem :=
  fun s => ⟨_, exec_swsubDone.trans rfl, s.fld_setFld Reg.SYS_SWSUB Fld.SYS_SWSUB.GO 0, rfl⟩

/-! ### Release, image -/

/-- No reset is held. -/
def State.Freed (s : State) : Prop := s.pwr.held = none

theorem State.setReg_freed {s : State} {a : Nat} {w : Word} (h : s.Freed) : (s.setReg a w).Freed := by
  unfold State.Freed State.setReg
  exact h

theorem State.setFld_freed {s : State} {a : Nat} {f : Bits} {v : Nat} (h : s.Freed) : (s.setFld a f v).Freed := by
  unfold State.setFld
  exact State.setReg_freed h

theorem State.keepFld_freed {old s : State} {a : Nat} {f : Bits} (h : s.Freed) : (State.keepFld old s a f).Freed := by
  unfold State.keepFld
  exact State.setFld_freed h

theorem State.setPllState_freed {s : State} {p v : Nat} (h : s.Freed) : (s.setPllState p v).Freed := by
  unfold State.setPllState
  exact State.setFld_freed h

theorem State.setSp_freed {s : State} {g v : Nat} (h : s.Freed) : (s.setSp g v).Freed := by
  unfold State.setSp
  exact State.setFld_freed h

theorem State.setSpare_freed {s : State} {g v : Nat} (h : s.Freed) : (s.setSpare g v).Freed := by
  unfold State.setSpare
  exact State.setFld_freed h

theorem State.setCanSpare_freed {s : State} {v : Nat} (h : s.Freed) : (s.setCanSpare v).Freed := by
  unfold State.setCanSpare
  exact State.setFld_freed h

theorem State.keepRegs_freed (old s : State) (as : List Nat) (h : s.Freed) : (State.keepRegs old s as).Freed := by
  unfold State.keepRegs
  refine State.foldl_keeps State.Freed _ ?_ _ _ h
  intro u a hu
  exact State.setReg_freed hu

theorem State.keepUnits_freed (old s : State) (h : s.Freed) : (State.keepUnits old s).Freed :=
  (congrArg Pwr.held (State.keepUnits_frame.pwr (by decide))).trans h

theorem State.pwr_freed {s t : State} (h : s.Freed) (e : t.pwr = s.pwr) : t.Freed := (congrArg Pwr.held e).trans h

/-- Every part but the queue and the power state. -/
def Foot.allButPwr : Nat := 0x3FFF7FFFFFFFFFFFFFFFFFFFFFFFFFFFFFFFFFFFFFFFFFFFFFFFFFFFFFFFFFFFFFFFFFFFFFFFFFFFFFFFFFFFFFFFFFFFFFFFFFFFFFFFFFFFF

theorem regNo_lt_regs (a : Nat) : regNo a < 407 := by
  unfold regNo
  have h1 := regPos_le (regsOfUnit (unitOf a)) (offsetOf a)
  by_cases h : unitOf a < 22
  · have : ∀ u : Fin 22, regStart u.val + (regsOfUnit u.val).length < 407 := by decide
    have : regStart (unitOf a) + (regsOfUnit (unitOf a)).length < 407 := this ⟨unitOf a, h⟩
    omega
  · have e1 : ∀ u, ¬ u < 22 → regStart u = 406 ∧ regsOfUnit u = [] := by
      intro u hu
      match u, hu with
      | n + 22, _ => exact ⟨rfl, rfl⟩
    obtain ⟨e1, e2⟩ := e1 _ h
    rw [e1, e2]
    exact (by decide : 406 + 0 < 407)

theorem allButPwr_bit {k : Nat} (h : k < 407) : Foot.allButPwr.testBit k = true :=
  (by decide +kernel : ∀ k : Fin 407, Foot.allButPwr.testBit k.val = true) ⟨k, h⟩

theorem State.keepRegs_allButPwr {s t old : State} {as : List Nat} (h : ∀ a ∈ as, unitOf a ≠ 2) (hs : Frame Foot.allButPwr s t) :
    Frame Foot.allButPwr s (State.keepRegs old t as) := by
  unfold State.keepRegs
  exact Frame.foldlOn hs fun t a ha ht =>
    ht.setRegAt ⟨allButPwr_bit (regNo_lt_regs a), regNo_ne_psn (h a ha), fun _ => by decide⟩

theorem State.keepNonVolatile_freed (old s : State) (h : s.Freed) : (State.keepNonVolatile old s).Freed := by
  have hf : Frame Foot.allButPwr s (State.keepNonVolatile old s) := by
    unfold State.keepNonVolatile
    extract_lets a1 a2 a3 a4 a5 a6 a7
    have h8 : Frame Foot.allButPwr s a1 := State.keepRegs_allButPwr (by decide) (Frame.refl _ s)
    clear_value a1
    have h9 : Frame Foot.allButPwr s a2 :=
      Frame.keepFld (Frame.keepFld h8 (AddrOk.of regNo_BST_STAT)) (AddrOk.of regNo_BST_STAT)
    clear_value a2
    have h10 : Frame Foot.allButPwr s a3 :=
      Frame.keepFld (Frame.keepFld h9 (AddrOk.of regNo_CLK_CNT)) (AddrOk.of regNo_CLK_CNT)
    clear_value a3
    have h11 : Frame Foot.allButPwr s a4 := by
      refine Frame.foldl h10 (fun u p hu => ?_)
      refine Frame.ite ?_ hu
      exact Frame.step State.setPllState_frame hu
    clear_value a4
    have h15 : Frame Foot.allButPwr s a5 := Frame.step State.keepUnits_frame h11
    clear_value a5
    exact { h15 with bst := fun hb => absurd hb (by decide), hic := fun hb => absurd hb (by decide) }
  exact State.pwr_freed h (hf.pwr (by decide))

theorem State.keepStandIns_freed (old s : State) (h : s.Freed) : (State.keepStandIns old s).Freed := by
  unfold State.keepStandIns
  extract_lets a b c d e f
  have ha : a.Freed := State.keepRegs_freed _ _ _ h
  clear_value a
  have hb : b.Freed := by
    refine State.foldl_keeps State.Freed _ ?_ _ _ ha
    intro u p hu
    split
    · exact hu
    · exact State.setSp_freed hu
  clear_value b
  have hc : c.Freed := by
    refine State.foldl_keeps State.Freed _ ?_ _ _ hb
    intro u p hu
    split
    · exact hu
    · exact State.setSpare_freed hu
  clear_value c
  have hd : d.Freed := by
    refine State.foldl_keeps State.Freed _ ?_ _ _ hc
    intro u p hu
    exact State.setFld_freed hu
  clear_value d
  have he : e.Freed := by
    unfold e
    split
    · exact hd
    · exact State.setCanSpare_freed hd
  clear_value e
  have hf : f.Freed := by
    refine State.foldl_keeps State.Freed _ ?_ _ _ he
    intro u p hu
    exact State.setFld_freed hu
  clear_value f
  exact State.keepFld_freed (State.keepFld_freed hf)

theorem State.keepStandby_freed (old s : State) (h : s.Freed) : (State.keepStandby old s).Freed := by
  unfold State.keepStandby
  extract_lets u
  have hu : u.Freed := State.keepRegs_freed _ _ _ h
  clear_value u
  unfold State.Freed
  exact hu

theorem State.keepThermal_freed (old s : State) (h : s.Freed) : (State.keepThermal old s).Freed := by
  unfold State.keepThermal State.Freed
  exact h

theorem State.keepWarm_freed (old s : State) (h : s.Freed) : (State.keepWarm old s).Freed := by
  unfold State.keepWarm
  extract_lets u
  have hu : u.Freed := by
    refine State.foldl_keeps State.Freed _ ?_ _ _ h
    intro u p hu
    split
    · exact State.setReg_freed hu
    · exact hu
  clear_value u
  unfold State.Freed
  exact hu

theorem State.releaseReset_does (old : State) (c : Nat) : (State.releaseReset old c).Freed ∧
    (State.releaseReset old c).fld Reg.SYS_RSTCAUSE Fld.SYS_RSTCAUSE.CAUSE = (if c = rstSleep then 0 else c) % 2 ^ Fld.SYS_RSTCAUSE.CAUSE.width ∧
    (State.releaseReset old c).fld Reg.SYS_RSTCAUSE Fld.SYS_RSTCAUSE.SLEEPWK = (c == rstSleep).toNat := by
  unfold State.releaseReset
  extract_lets o warm r q s0 s1 s2 s3 s4 s5
  have h0 : s0.Freed := rfl
  clear_value s0
  have h1 : s1.Freed := State.keepStandIns_freed _ _ (State.keepNonVolatile_freed _ _ h0)
  clear_value s1
  have h2 : s2.Freed := by
    unfold s2
    split
    · exact h1
    · exact State.keepStandby_freed _ _ h1
  clear_value s2
  have h3 : s3.Freed := by
    unfold s3
    split
    · exact State.keepThermal_freed _ _ h2
    · exact h2
  clear_value s3
  have h4 : s4.Freed := by
    unfold s4
    split
    · exact State.keepWarm_freed _ _ h3
    · exact h3
  clear_value s4
  have h5 : s5.Freed := by
    unfold s5
    split
    · split
      · exact State.setFld_freed h4
      · exact h4
    · exact h4
  clear_value s5
  have hc : Frame (Foot.openInterval ||| Foot.drawNonce) (s5.showCause c) ((s5.showCause c).openInterval c).drawNonce :=
    Frame.step State.drawNonce_frame (Frame.step State.openInterval_frame (Frame.refl _ _))
  refine ⟨?_, ?_, ?_⟩
  · exact (congrArg Pwr.held (hc.pwr (by decide))).trans h5
  · refine (hc.fld regNo_SYS_RSTCAUSE).trans ?_
    unfold State.showCause
    refine (State.fld_setFld_field _ _ (f := Fld.SYS_RSTCAUSE.SLEEPWK) (g := Fld.SYS_RSTCAUSE.CAUSE) _ (by decide)).trans ?_
    exact s5.fld_setFld Reg.SYS_RSTCAUSE Fld.SYS_RSTCAUSE.CAUSE _
  · refine (hc.fld regNo_SYS_RSTCAUSE).trans ?_
    unfold State.showCause
    refine (State.fld_setFld _ Reg.SYS_RSTCAUSE Fld.SYS_RSTCAUSE.SLEEPWK _).trans ?_
    cases c == rstSleep <;> rfl

/-- Without an asserted reset there is nothing to release; a release shows its cause. -/
theorem resetRelease_does :
    (∀ (n : Nat) (s : State), s.pwr.held = none → Does (.resetRelease n) s fun t => t = s) ∧
    (∀ (n c : Nat) (s : State), s.pwr.held = some c → Does (.resetRelease n) s fun t => t.pwr.held = none ∧
      t.fld Reg.SYS_RSTCAUSE Fld.SYS_RSTCAUSE.CAUSE = (if c = rstSleep then 0 else c) % 2 ^ Fld.SYS_RSTCAUSE.CAUSE.width ∧
      t.fld Reg.SYS_RSTCAUSE Fld.SYS_RSTCAUSE.SLEEPWK = (c == rstSleep).toNat) := by
  refine ⟨?_, ?_⟩
  · intro n s h
    refine Does.via exec_resetRelease ?_
    unfold execResetRelease
    rw [h]
    exact ⟨_, rfl, rfl⟩
  · intro n c s h
    refine Does.via exec_resetRelease ?_
    unfold execResetRelease
    rw [h]
    refine ⟨_, rfl, ?_⟩
    dsimp only
    have hr := State.releaseReset_does (s.at n) c
    generalize (s.at n).releaseReset c = u at hr
    split
    · exact ⟨(congrArg Pwr.held (State.postPower_frame.pwr (by decide))).trans hr.1, (State.postPower_frame.fld regNo_SYS_RSTCAUSE).trans hr.2.1,
        (State.postPower_frame.fld regNo_SYS_RSTCAUSE).trans hr.2.2⟩
    · exact hr

theorem State.bootStops_does (s : State) (n : Nat) (h : n < 2 ^ Fld.SYS_BOOTSTAT.CODE.width) : (s.bootStops n).hic.core0 = 2 ∧
    (s.bootStops n).fld Reg.SYS_BOOTSTAT Fld.SYS_BOOTSTAT.CODE = n :=
  ⟨rfl, (s.fld_setFld Reg.SYS_BOOTSTAT Fld.SYS_BOOTSTAT.CODE n).trans (Nat.mod_eq_of_lt h)⟩

theorem State.bootFrom_core (f : List FlashSlot) (b : Bool) : ∀ (n : Nat) (s : State) (v : List Nat),
    (State.bootFrom f b n s v).hic.core0 = 1 ∨ (State.bootFrom f b n s v).hic.core0 = 2 := by
  intro n
  induction n with
  | zero => exact fun s v => .inr rfl
  | succ n ih =>
    intro s v
    unfold State.bootFrom
    split
    · exact .inr rfl
    · split
      · exact .inr rfl
      · dsimp only
        split
        · exact .inl rfl
        · exact ih _ _

/-- The boot ROM hands over to an image, or stops in WFI. -/
theorem State.boot_core (s : State) (f : List FlashSlot) (b : Bool) : (s.boot f b).hic.core0 = 1 ∨ (s.boot f b).hic.core0 = 2 := by
  unfold State.boot
  dsimp only
  split
  · exact .inr rfl
  · exact State.bootFrom_core f b _ _ _

/-- A decommissioned device, or one without a slot, stops. -/
theorem State.boot_stops (s : State) (f : List FlashSlot) (b : Bool) (h : s.lcs = lcsDecommissioned ∨ f = []) :
    (s.boot f b).hic.core0 = 2 ∧ (s.boot f b).fld Reg.SYS_BOOTSTAT Fld.SYS_BOOTSTAT.CODE = if s.lcs = lcsDecommissioned then 3 else 2 := by
  unfold State.boot
  extract_lets src src2 u
  have hl : u.lcs = s.lcs := State.fld_setFld_other _ _ _ _ (reg_ne regNo_BST_STAT regNo_SYS_BOOTSTAT)
  rw [hl]
  by_cases hd : s.lcs = lcsDecommissioned
  · rw [if_pos hd, if_pos hd]
    exact u.bootStops_does 3 (by decide)
  · rw [if_neg hd, if_neg hd]
    have hf := h.resolve_left hd
    subst hf
    exact u.bootStops_does 2 (by decide)

/-- The end of the march starts the boot ROM. -/
theorem marchDone_does :
    (∀ (r : List MemRow) (f : List FlashSlot) (b : Bool) (s : State), s.pwr.march = false → Does (.marchDone r f b) s fun t => t = s) ∧
    (∀ (r : List MemRow) (f : List FlashSlot) (b : Bool) (s : State), s.pwr.march = true → Does (.marchDone r f b) s fun t =>
      t.pwr.march = false ∧ (t.hic.core0 = 1 ∨ t.hic.core0 = 2)) ∧
    (∀ (r : List MemRow) (f : List FlashSlot) (b : Bool) (s : State), s.pwr.march = true → s.lcs = lcsDecommissioned ∨ f = [] →
      Does (.marchDone r f b) s fun t => t.pwr.march = false ∧ t.hic.core0 = 2 ∧
        t.fld Reg.SYS_BOOTSTAT Fld.SYS_BOOTSTAT.CODE = if s.lcs = lcsDecommissioned then 3 else 2) := by
  refine ⟨?_, ?_, ?_⟩
  · intro r f b s h
    refine Does.via exec_marchDone ?_
    unfold execMarchDone
    rw [h, if_pos (by decide)]
    exact ⟨_, rfl, rfl⟩
  · intro r f b s h
    refine Does.via exec_marchDone ?_
    unfold execMarchDone
    rw [h, if_neg (by decide)]
    refine ⟨_, rfl, ?_, State.boot_core _ f b⟩
    exact congrArg Pwr.march ((State.boot_frame.pwr (by decide)).trans (State.rebuildRepairs_frame.pwr (by decide)))
  · intro r f b s h hf
    refine Does.via exec_marchDone ?_
    unfold execMarchDone
    rw [h, if_neg (by decide)]
    refine ⟨_, rfl, ?_, ?_⟩
    · exact congrArg Pwr.march ((State.boot_frame.pwr (by decide)).trans (State.rebuildRepairs_frame.pwr (by decide)))
    · have hl : (({ s with pwr.march := false } : State).rebuildRepairs r).lcs = s.lcs :=
        (State.rebuildRepairs_frame.fld regNo_BST_STAT).trans (State.fld_of_regs rfl _ _)
      have := State.boot_stops (({ s with pwr.march := false } : State).rebuildRepairs r) f b (by rw [hl]; exact hf)
      rw [hl] at this
      exact this

/-- The check of the kept image after a reset: IMGOK tells whether its seal fits. -/
theorem imageSealCheck_does :
    (∀ s : State, s.pwr.sealDue = false → Does .imageSealCheck s fun t => t = s) ∧
    (∀ s : State, s.pwr.sealDue = true → s.image = none → Does .imageSealCheck s fun t =>
      t.on Reg.SYS_RESTORE Fld.SYS_RESTORE.IMGOK = false ∧ t.pwr.sealDue = false) ∧
    (∀ (i : Image) (s : State), s.pwr.sealDue = true → s.image = some i → Does .imageSealCheck s fun t =>
      t.on Reg.SYS_RESTORE Fld.SYS_RESTORE.IMGOK = (i.sealCrc == i.sealWord) ∧ t.pwr.sealDue = false) := by
  refine ⟨?_, ?_, ?_⟩
  · intro s h
    refine Does.via exec_imageSealCheck ?_
    unfold execImageSealCheck
    rw [h, if_pos (by decide)]
    exact ⟨_, rfl, rfl⟩
  · intro s h h2
    refine Does.via exec_imageSealCheck ?_
    unfold execImageSealCheck
    rw [h, h2, if_neg (by decide)]
    exact ⟨_, rfl, congrArg (· != 0) (State.fld_setFld _ Reg.SYS_RESTORE Fld.SYS_RESTORE.IMGOK 0), rfl⟩
  · intro i s h h2
    refine Does.via exec_imageSealCheck ?_
    unfold execImageSealCheck
    rw [h, h2, if_neg (by decide)]
    refine ⟨_, rfl, ?_, rfl⟩
    refine (congrArg (· != 0) (State.fld_setFld _ Reg.SYS_RESTORE Fld.SYS_RESTORE.IMGOK _) :).trans ?_
    dsimp only
    cases i.sealCrc == i.sealWord <;> rfl

/-- The end of a restore locks and seals without a new capture. -/
theorem restoreDone_does :
    (∀ s : State, s.pwr.restoring = false ∨ s.image = none → Does .restoreDone s fun t => t = s) ∧
    (∀ (i : Image) (s : State), s.image = some i → s.pwr.restoring = true → Does .restoreDone s fun t =>
      t.pwr.restoring = false ∧ t.locked = true ∧ t.sealed = true ∧ t.fld Reg.SYS_RESTORE Fld.SYS_RESTORE.STATE = 2) := by
  refine ⟨?_, ?_⟩
  · intro s h
    refine Does.via exec_restoreDone ?_
    unfold execRestoreDone
    rcases h with h | h
    · split
      · rw [h, if_neg (by decide)]; exact ⟨_, rfl, rfl⟩
      · exact ⟨_, rfl, rfl⟩
    · rw [h]; exact ⟨_, rfl, rfl⟩
  · intro i s h h2
    refine Does.via exec_restoreDone ?_
    unfold execRestoreDone
    rw [h, h2]
    refine ⟨_, rfl, ?_⟩
    unfold State.restoreEnds
    extract_lets x src u v w
    have hu : u.pwr.restoring = false := rfl
    clear_value u
    have hl : w.fld Reg.SYS_SETUP_LOCK Fld.SYS_SETUP_LOCK.LOCK = 1 ∧ w.fld Reg.SYS_SETUP_LOCK Fld.SYS_SETUP_LOCK.SEALED = 1 := by
      refine ⟨?_, ?_⟩
      · refine (State.fld_setFld_other _ _ _ _ (reg_ne regNo_SYS_SETUP_LOCK regNo_SYS_RESTORE)).trans ?_
        exact (State.fld_setFld_field _ _ (f := Fld.SYS_SETUP_LOCK.SEALED) (g := Fld.SYS_SETUP_LOCK.LOCK) _ (by decide)).trans
          (u.fld_setFld Reg.SYS_SETUP_LOCK Fld.SYS_SETUP_LOCK.LOCK 1)
      · refine (State.fld_setFld_other _ _ _ _ (reg_ne regNo_SYS_SETUP_LOCK regNo_SYS_RESTORE)).trans ?_
        exact State.fld_setFld _ Reg.SYS_SETUP_LOCK Fld.SYS_SETUP_LOCK.SEALED 1
    have hw : w.pwr.restoring = false := (congrArg Pwr.restoring (show w.pwr = u.pwr from rfl)).trans hu
    refine ⟨(congrArg Pwr.restoring (State.event_frame.pwr (s := w) (by decide))).trans hw, ?_, ?_, ?_⟩
    · exact (State.event_frame.on regNo_SYS_SETUP_LOCK).trans (congrArg (· != 0) hl.1 :)
    · exact (State.event_frame.on regNo_SYS_SETUP_LOCK).trans (congrArg (· != 0) hl.2 :)
    · exact (State.event_frame.fld regNo_SYS_RESTORE).trans (v.fld_setFld Reg.SYS_RESTORE Fld.SYS_RESTORE.STATE 2)

/-! ### Power states -/

/-- A wake from SLEEP shows its source and asserts the reset of a SLEEP exit; an input that is not admitted does nothing. -/
theorem wake_does :
    (∀ (k : Fin 5) (b : Bool) (p n : Nat) (s : State), (s.at n).wakeValid k.val b p = false → Does (.wake k b p n) s fun t => t = s.at n) ∧
    (∀ (k : Fin 5) (b : Bool) (p n : Nat) (s : State), (s.at n).wakeValid k.val b p = true → s.powerState = pwrSleep → s.pwr.held = none →
      Does (.wake k b p n) s fun t => t.pwr.held = some rstSleep ∧ t.pwr.heldAt = t.now ∧ t.hic.core0 = 0) ∧
    (∀ (k : Fin 5) (b : Bool) (p n : Nat) (s : State), s.powerState = pwrRun → s.pwr.enterAt = none → Does (.wake k b p n) s fun t => t = s.at n) := by
  refine ⟨?_, ?_, ?_⟩
  · intro k b p n s h
    refine Does.via exec_wake ?_
    unfold execWake
    dsimp only
    rw [h, if_pos (by decide)]
    exact ⟨_, rfl, rfl⟩
  · intro k b p n s h h2 h3
    refine Does.via exec_wake ?_
    unfold execWake
    dsimp only
    rw [h, if_neg (by decide), if_pos (show (s.at n).powerState = pwrSleep from h2)]
    refine ⟨_, rfl, ?_⟩
    exact State.assertReset_free _ rstSleep h3
  · intro k b p n s h2 h3
    refine Does.via exec_wake ?_
    unfold execWake
    dsimp only
    split
    · exact ⟨_, rfl, rfl⟩
    · rw [if_neg (by rw [show (s.at n).powerState = pwrRun from h2]; decide)]
      refine ⟨_, rfl, ?_⟩
      unfold State.wakeBy
      refine if_pos ?_
      rw [show (s.at n).powerState = pwrRun from h2, show (s.at n).pwr.enterAt = none from h3]
      rfl

theorem State.unparkTimebases_pwr (s : State) : s.unparkTimebases.pwr = { s.pwr with parked := [] } := by
  unfold State.unparkTimebases
  extract_lets u
  have hu : u.pwr = s.pwr := by
    refine State.foldl_keeps (fun v : State => v.pwr = s.pwr) _ ?_ _ _ rfl
    intro v p hv
    exact hv
  clear_value u
  exact congrArg (fun p : Pwr => { p with parked := [] }) hu

/-- PARK is left at the end of the quarantine of PLL-B, and not before. -/
theorem parkExit_does :
    (∀ (n : Nat) (s : State), s.powerState ≠ pwrPark ∨ s.pwr.waking = false → Does (.parkExit n) s fun t => t = s.at n) ∧
    (∀ (n : Nat) (s : State), s.powerState = pwrPark → s.pwr.waking = true → (s.at n).pllServes 1 || (s.at n).pllGone 1 || !(s.at n).pllEn 1 →
      Does (.parkExit n) s fun t => t.pwr.waking = false ∧ t.pwr.resumed = some (max s.now n - s.pwr.parkAt) ∧
        t.reg Reg.PWR_PARKTIME = BitVec.ofNat 32 (min (2 ^ 32 - 1) ((max s.now n - s.pwr.parkAt) / esPerMs))) := by
  refine ⟨?_, ?_⟩
  · intro n s h
    refine ⟨_, exec_parkExit.trans rfl, ?_⟩
    dsimp only
    have h' : (s.at n).powerState ≠ pwrPark ∨ (s.at n).pwr.waking = false := h
    generalize s.at n = u at h'
    exact if_neg (by rcases h' with h | h <;> simp [h])
  · intro n s h1 h2 h3
    refine ⟨_, exec_parkExit.trans rfl, ?_⟩
    dsimp only
    rw [if_pos (by
      rw [show (s.at n).powerState = pwrPark from h1, show (s.at n).pwr.waking = true from h2, h3]; decide)]
    unfold State.leavePark
    extract_lets d u v src src2 src3 x
    have hx : x.pwr.waking = false ∧ x.pwr.resumed = some (max s.now n - s.pwr.parkAt) ∧
        x.reg Reg.PWR_PARKTIME = BitVec.ofNat 32 (min (2 ^ 32 - 1) ((max s.now n - s.pwr.parkAt) / esPerMs)) :=
      ⟨rfl, rfl, State.reg_setReg_same _ _ _⟩
    clear_value x
    refine ⟨?_, ?_, ?_⟩
    · exact (congrArg Pwr.waking ((State.bstParkExit_frame.pwr (by decide)).trans x.unparkTimebases_pwr)).trans hx.1
    · exact (congrArg Pwr.resumed ((State.bstParkExit_frame.pwr (by decide)).trans x.unparkTimebases_pwr)).trans hx.2.1
    · exact ((State.bstParkExit_frame.reg regNo_PWR_PARKTIME).trans (State.unparkTimebases_frame.reg regNo_PWR_PARKTIME)).trans hx.2.2

/-- The device powers down in SLEEP once the ledger has drained. -/
theorem sleepPowerDown_does :
    (∀ s : State, s.powerState ≠ pwrSleep ∨ s.pwr.asleep = true → Does .sleepPowerDown s fun t => t = s) ∧
    (∀ s : State, s.powerState = pwrSleep → s.pwr.asleep = false → Does .sleepPowerDown s fun t =>
      t.pwr.asleep = true ∧ t.led.lost = true) := by
  refine ⟨?_, ?_⟩
  · intro s h
    refine Does.via exec_sleepPowerDown ?_
    unfold execSleepPowerDown
    rw [if_pos h]
    exact ⟨_, rfl, rfl⟩
  · intro s h1 h2
    refine Does.via exec_sleepPowerDown ?_
    unfold execSleepPowerDown
    rw [if_neg (by simp [h1, h2])]
    exact ⟨_, rfl, rfl, rfl⟩

theorem State.levelActive_setLevel_same (s : State) {k : Nat} {b : Bool} (h : srcBit k < 32) : (s.setLevel k b).levelActive k = b := by
  unfold State.levelActive State.setLevel
  rw [State.reg_setReg_same]
  exact bitAt_setBit _ _ _ h

/-- The supply monitor: the rails are held as they are now; with all of them in range its trip source is inactive, and a
rail that leaves its levels makes it active. -/
theorem supplyMonitorChange_does :
    (∀ (n : Nat) (s : State), Does (.supplyMonitorChange 0 n) s fun t => t.levelActive (16 + 16) = false ∧ t.pwr.rails = 0 ∧ t.mem = s.mem) ∧
    (∀ (r : Fin 16) (n : Nat) (s : State), r.val % 8 ≠ 0 → Does (.supplyMonitorChange r n) s fun t =>
      t.levelActive (16 + 16) = true ∧ t.pwr.rails = r.val) := by
  refine ⟨?_, ?_⟩
  · intro n s
    refine ⟨_, exec_supplyMonitorChange.trans rfl, ?_⟩
    dsimp only
    have hr : ({ s.at n with pwr.rails := ((0 : Fin 16) : Nat) } : State).pwr.rails = 0 := rfl
    have hm : ({ s.at n with pwr.rails := ((0 : Fin 16) : Nat) } : State).mem = s.mem := rfl
    generalize ({ s.at n with pwr.rails := ((0 : Fin 16) : Nat) } : State) = u at hr hm
    have hc : (!(((0 : Fin 16) : Nat) % 8 != 0 || hasBit ((0 : Fin 16) : Nat) 3 && [0, 1].any fun c => u.chMode c == 1)) = true := by
      generalize ([0, 1].any fun c => u.chMode c == 1) = b
      cases b <;> decide
    rw [if_pos hc]
    exact ⟨State.levelActive_setLevel_same _ (by decide), hr, hm⟩
  · intro r n s h
    refine ⟨_, exec_supplyMonitorChange.trans rfl, ?_⟩
    dsimp only
    have hr : ({ s.at n with pwr.rails := r.val } : State).pwr.rails = r.val := rfl
    generalize ({ s.at n with pwr.rails := r.val } : State) = u at hr
    have hc : (!(r.val % 8 != 0 || hasBit r.val 3 && [0, 1].any fun c => u.chMode c == 1)) = false := by
      generalize (hasBit r.val 3 && [0, 1].any fun c => u.chMode c == 1) = b
      simp [h]
    rw [hc, if_neg (by decide)]
    split
    · exact ⟨by assumption, hr⟩
    · refine ⟨(Frame.levelActive State.trip_frame (16 + 16)).trans ?_, ?_⟩
      · exact State.levelActive_setLevel_same _ (by decide)
      · have hs : u.settle.pwr = u.pwr := State.settle_frame.pwr (by decide)
        generalize u.settle = v at hs
        have hl : (v.setLevel (16 + 16) true).pwr = v.pwr := by unfold State.setLevel; rfl
        generalize v.setLevel (16 + 16) true = w at hl
        have ht : (w.trip [16 + 16]).pwr = w.pwr := State.trip_frame.pwr (by decide)
        rw [ht, hl, hs, hr]

/-! ### The hold-up -/

theorem State.hldState_setHldState (s : State) (v : Nat) (h : v < 8) : (s.setHldState v).hldState = v :=
  (s.fld_setFld Reg.HLD_STAT Fld.HLD_STAT.STATE v).trans (Nat.mod_eq_of_lt h)

theorem State.startHoldupCheck_does (s : State) : s.startHoldupCheck.hldState = hldChecking ∧ s.startHoldupCheck.led.before = s.hldState ∧
    s.startHoldupCheck.led.lastCheck = s.runTime ∧ s.startHoldupCheck.led.readySeen = s.led.readySeen ∧
    s.startHoldupCheck.reg Reg.HLD_VHOLD = s.reg Reg.HLD_VHOLD := by
  unfold State.startHoldupCheck
  exact ⟨State.hldState_setHldState _ _ (by decide), rfl, rfl, rfl, State.reg_setFld_other _ _ _ (reg_ne regNo_HLD_VHOLD regNo_HLD_STAT)⟩

/-- VHOLD is shown as it reads; below 19.0 V, or during a commit, READY is not reached; the first READY starts a check. -/
theorem holdupReady_does :
    (∀ (v : Nat) (s : State), v < 19000000 ∨ s.hldState = hldCommit → Does (.holdupReady v) s fun t =>
      t = s.setReg Reg.HLD_VHOLD (Num.pack (voltsOf v))) ∧
    (∀ (v : Nat) (s : State), 19000000 ≤ v → s.hldState = hldCharging → s.led.readySeen = false → Does (.holdupReady v) s fun t =>
      t.hldState = hldChecking ∧ t.led.readySeen = true ∧ t.led.lastCheck = s.runTime ∧ t.led.before = hldReady ∧
      t.reg Reg.HLD_VHOLD = Num.pack (voltsOf v)) := by
  have hk : ∀ (v : Nat) (s : State), (s.setReg Reg.HLD_VHOLD (Num.pack (voltsOf v))).hldState = s.hldState := fun v s =>
    congrArg (Fld.HLD_STAT.STATE.of ·) (State.reg_setReg_other _ _ (reg_ne regNo_HLD_STAT regNo_HLD_VHOLD))
  refine ⟨?_, ?_⟩
  · intro v s h
    refine ⟨_, exec_holdupReady.trans rfl, ?_⟩
    dsimp only
    refine if_neg ?_
    rw [hk]
    rcases h with h | h
    · exact fun e => Nat.lt_irrefl _ (Nat.lt_of_lt_of_le h e.1)
    · exact fun e => e.2 h
  · intro v s h h2 h3
    refine ⟨_, exec_holdupReady.trans rfl, ?_⟩
    dsimp only
    rw [if_pos ⟨h, by rw [hk, h2]; decide⟩]
    have hu := hk v s
    have hv : (s.setReg Reg.HLD_VHOLD (Num.pack (voltsOf v))).reg Reg.HLD_VHOLD = Num.pack (voltsOf v) := State.reg_setReg_same _ _ _
    have hl : (s.setReg Reg.HLD_VHOLD (Num.pack (voltsOf v))).led = s.led := rfl
    have ht : (s.setReg Reg.HLD_VHOLD (Num.pack (voltsOf v))).runTime = s.runTime := by
      unfold State.runTime
      have : (s.setReg Reg.HLD_VHOLD (Num.pack (voltsOf v))).fld Reg.PWR_STATE Fld.PWR_STATE.STATE = s.fld Reg.PWR_STATE Fld.PWR_STATE.STATE :=
        congrArg (Fld.PWR_STATE.STATE.of ·) (State.reg_setReg_other _ _ (reg_ne regNo_PWR_STATE regNo_HLD_VHOLD))
      rw [this]
      rfl
    generalize s.setReg Reg.HLD_VHOLD (Num.pack (voltsOf v)) = u at hu hv hl ht
    unfold State.vholdReady
    extract_lets w
    have hw : w.hldState = hldReady ∧ w.reg Reg.HLD_VHOLD = Num.pack (voltsOf v) ∧ w.led = s.led ∧ w.runTime = s.runTime := by
      unfold w
      rw [if_pos (Nat.le_of_eq (by rw [hu, h2]))]
      refine ⟨State.hldState_setHldState _ _ (by decide), ?_, hl, ?_⟩
      · exact (State.reg_setFld_other _ _ _ (reg_ne regNo_HLD_VHOLD regNo_HLD_STAT)).trans hv
      · unfold State.runTime
        have : (u.setHldState hldReady).fld Reg.PWR_STATE Fld.PWR_STATE.STATE = u.fld Reg.PWR_STATE Fld.PWR_STATE.STATE :=
          State.fld_setFld_other _ _ _ _ (reg_ne regNo_PWR_STATE regNo_HLD_STAT)
        rw [this]
        exact ht
    clear_value w
    rw [if_neg (by rw [hw.1, hw.2.2.1, h3]; decide)]
    have hc := State.startHoldupCheck_does { w with led.readySeen := true }
    refine ⟨hc.1, hc.2.2.2.1, hc.2.2.1.trans ?_, hc.2.1.trans hw.1, hc.2.2.2.2.trans hw.2.1⟩
    exact hw.2.2.2

/-- The periodic check starts after RECHK hours of RUN; RECHK 0, a state outside RUN, or no READY yet, starts none. -/
theorem holdupPeriodic_does :
    (∀ (n : Nat) (s : State), s.fld Reg.HLD_CFG Fld.HLD_CFG.RECHK = 0 ∨ s.inRun = false ∨ s.led.readySeen = false →
      Does (.holdupPeriodic n) s fun t => t = s.at n) ∧
    (∀ (n : Nat) (s : State), s.fld Reg.HLD_CFG Fld.HLD_CFG.RECHK ≠ 0 → s.inRun = true → s.led.readySeen = true →
      s.hldState ≠ hldChecking → s.hldState ≠ hldCommit →
      s.led.lastCheck + s.fld Reg.HLD_CFG Fld.HLD_CFG.RECHK * 3600 * esPerSecond ≤ (s.at n).runTime →
      Does (.holdupPeriodic n) s fun t => t.hldState = hldChecking ∧ t.led.lastCheck = (s.at n).runTime ∧ t.led.before = s.hldState) := by
  refine ⟨?_, ?_⟩
  · intro n s h
    refine ⟨_, exec_holdupPeriodic.trans rfl, ?_⟩
    dsimp only
    have h' : (s.at n).fld Reg.HLD_CFG Fld.HLD_CFG.RECHK = 0 ∨ (s.at n).inRun = false ∨ (s.at n).led.readySeen = false := h
    generalize s.at n = u at h'
    exact if_neg (by rcases h' with h | h | h <;> simp [h])
  · intro n s h1 h2 h3 h4 h5 h6
    refine ⟨_, exec_holdupPeriodic.trans rfl, ?_⟩
    dsimp only
    have hc := State.startHoldupCheck_does (s.at n)
    have h7 : (s.at n).hldState = s.hldState := rfl
    have h8 : (s.at n).fld Reg.HLD_CFG Fld.HLD_CFG.RECHK ≠ 0 ∧ (s.at n).inRun = true ∧ (s.at n).led.readySeen = true ∧
        (s.at n).hldState ≠ hldChecking ∧ (s.at n).hldState ≠ hldCommit ∧
        (s.at n).led.lastCheck + (s.at n).fld Reg.HLD_CFG Fld.HLD_CFG.RECHK * 3600 * esPerSecond ≤ (s.at n).runTime :=
      ⟨h1, h2, h3, h4, h5, h6⟩
    generalize s.at n = u at hc h7 h8
    rw [if_pos h8]
    exact ⟨hc.1, hc.2.2.1, hc.2.1.trans h7⟩

theorem State.endCheck_fails (u : State) (k : Nat) : (u.endCheck (some 0) k).hldState = hldFailed ∧
    (u.endCheck (some 0) k).fld Reg.HLD_STAT Fld.HLD_STAT.REASON = 0 ∧
    (u.endCheck (some 0) k).fld Reg.HLD_CNT Fld.HLD_CNT.CHECKS = satAdd Fld.HLD_CNT.CHECKS.width (u.fld Reg.HLD_CNT Fld.HLD_CNT.CHECKS) 1 ∧
    (u.endCheck (some 0) k).fld Reg.HLD_CNT Fld.HLD_CNT.FAILS = satAdd Fld.HLD_CNT.FAILS.width (u.fld Reg.HLD_CNT Fld.HLD_CNT.FAILS) 1 := by
  unfold State.endCheck
  extract_lets v w x y
  have hv : v.fld Reg.HLD_CNT Fld.HLD_CNT.CHECKS = satAdd Fld.HLD_CNT.CHECKS.width (u.fld Reg.HLD_CNT Fld.HLD_CNT.CHECKS) 1 ∧
      v.fld Reg.HLD_CNT Fld.HLD_CNT.FAILS = u.fld Reg.HLD_CNT Fld.HLD_CNT.FAILS := by
    refine ⟨State.fld_count u Reg.HLD_CNT Fld.HLD_CNT.CHECKS 1, ?_⟩
    exact (State.fld_setFld_field u _ (f := Fld.HLD_CNT.CHECKS) (g := Fld.HLD_CNT.FAILS) _ (by decide))
  clear_value v
  have hw : w.fld Reg.HLD_CNT Fld.HLD_CNT.CHECKS = satAdd Fld.HLD_CNT.CHECKS.width (u.fld Reg.HLD_CNT Fld.HLD_CNT.CHECKS) 1 ∧
      w.fld Reg.HLD_CNT Fld.HLD_CNT.FAILS = satAdd Fld.HLD_CNT.FAILS.width (u.fld Reg.HLD_CNT Fld.HLD_CNT.FAILS) 1 := by
    unfold w
    rw [if_pos (show (some 0).isSome = true from rfl)]
    refine ⟨?_, ?_⟩
    · exact (State.fld_setFld_field v _ (f := Fld.HLD_CNT.FAILS) (g := Fld.HLD_CNT.CHECKS) _ (by decide)).trans hv.1
    · refine (State.fld_count v Reg.HLD_CNT Fld.HLD_CNT.FAILS 1).trans ?_
      rw [hv.2]
  clear_value w
  have hx : x.hldState = hldFailed ∧ x.fld Reg.HLD_STAT Fld.HLD_STAT.REASON = 0 ∧
      (∀ f, x.fld Reg.HLD_CNT f = w.fld Reg.HLD_CNT f) := by
    unfold x
    rw [if_neg (by decide)]
    refine ⟨?_, ?_, ?_⟩
    · exact (State.fld_setFld_field _ _ (f := Fld.HLD_STAT.REASON) (g := Fld.HLD_STAT.STATE) _ (by decide)).trans
        (State.hldState_setHldState w _ (by decide))
    · exact State.fld_setFld _ Reg.HLD_STAT Fld.HLD_STAT.REASON 0
    · intro f
      refine (State.fld_setFld_other _ _ _ _ (reg_ne regNo_HLD_CNT regNo_HLD_STAT)).trans ?_
      exact State.fld_setFld_other _ _ _ _ (reg_ne regNo_HLD_CNT regNo_HLD_STAT)
  clear_value x
  rw [if_neg (by decide)]
  have hf : Frame (Foot.event ||| Foot.holdupLow) x (y.holdupLow 0) :=
    Frame.step State.holdupLow_frame (Frame.step State.event_frame (Frame.refl _ _))
  refine ⟨(hf.fld regNo_HLD_STAT).trans hx.1, (hf.fld regNo_HLD_STAT).trans hx.2.1, ?_, ?_⟩
  · exact (hf.fld regNo_HLD_CNT).trans ((hx.2.2 _).trans hw.1)
  · exact (hf.fld regNo_HLD_CNT).trans ((hx.2.2 _).trans hw.2)

/-- A check that never reached READY fails with REASON 0; outside a check there is nothing to judge. -/
theorem holdupCheckComplete_does :
    (∀ (b : Bool) (x y z : Nat) (s : State), s.hldState ≠ hldChecking → Does (.holdupCheckComplete b x y z) s fun t => t = s) ∧
    (∀ (x y z : Nat) (s : State), s.hldState = hldChecking → Does (.holdupCheckComplete false x y z) s fun t =>
      t.hldState = hldFailed ∧ t.fld Reg.HLD_STAT Fld.HLD_STAT.REASON = 0 ∧
      t.fld Reg.HLD_CNT Fld.HLD_CNT.CHECKS = satAdd Fld.HLD_CNT.CHECKS.width (s.fld Reg.HLD_CNT Fld.HLD_CNT.CHECKS) 1 ∧
      t.fld Reg.HLD_CNT Fld.HLD_CNT.FAILS = satAdd Fld.HLD_CNT.FAILS.width (s.fld Reg.HLD_CNT Fld.HLD_CNT.FAILS) 1) := by
  refine ⟨?_, ?_⟩
  · intro b x y z s h
    refine Does.via exec_holdupCheckComplete ?_
    unfold execHoldupCheckComplete
    rw [if_pos h]
    exact ⟨_, rfl, rfl⟩
  · intro x y z s h
    refine Does.via exec_holdupCheckComplete ?_
    unfold execHoldupCheckComplete
    rw [if_neg (fun e => e h), if_neg (by decide)]
    refine ⟨_, rfl, ?_⟩
    have hr : ∀ f, s.takeFree.2.fld Reg.HLD_CNT f = s.fld Reg.HLD_CNT f := fun f => State.fld_of_regs rfl _ _
    obtain ⟨a, b, c, d⟩ := State.endCheck_fails s.takeFree.2 ((Config.freeWord s.takeFree.1).toNat % 2 ^ 24)
    rw [hr] at c d
    exact ⟨a, b, c, d⟩

/-- A VHOLD below 18.0 V while the pump runs leads back to charging. -/
theorem vholdDrop_does :
    (∀ (v : Nat) (s : State), s.pumpRuns = false ∨ 18000000 ≤ v → Does (.vholdDrop v) s fun t => t = s) ∧
    (∀ (v : Nat) (s : State), s.pumpRuns = true → v < 18000000 → Does (.vholdDrop v) s fun t =>
      t.hldState = hldCharging ∧ t.reg Reg.HLD_VHOLD = Num.pack (voltsOf v)) := by
  refine ⟨?_, ?_⟩
  · intro v s h
    refine ⟨_, exec_vholdDrop.trans rfl, ?_⟩
    dsimp only
    exact if_pos (by rcases h with h | h <;> simp [h])
  · intro v s h h2
    refine ⟨_, exec_vholdDrop.trans rfl, ?_⟩
    dsimp only
    rw [if_neg (by simp [h, h2])]
    refine ⟨?_, ?_⟩
    · exact (State.holdupLow_frame.fld regNo_HLD_STAT).trans (State.hldState_setHldState _ _ (by decide))
    · refine (State.holdupLow_frame.reg regNo_HLD_VHOLD).trans ?_
      exact (State.reg_setFld_other _ _ _ (reg_ne regNo_HLD_VHOLD regNo_HLD_STAT)).trans (State.reg_setReg_same _ _ _)

/-- The loss of the supply begins the commit, and nothing enters the ledger behind it; asleep, or a second time, it does
nothing. -/
theorem supplyLoss_does :
    (∀ (b : Bool) (s : State), s.pwr.asleep = true ∨ s.led.lost = true → Does (.supplyLoss b) s fun t => t = s) ∧
    (∀ (b : Bool) (s : State), s.pwr.asleep = false → s.led.lost = false → Does (.supplyLoss b) s fun t =>
      t.led.lost = true ∧ t.led.accepting = false ∧ t.led.sent = [] ∧ t.hldState = hldCommit ∧
      (b = false → t.led.queue = s.led.queue)) := by
  refine ⟨?_, ?_⟩
  · intro b s h
    refine Does.via exec_supplyLoss ?_
    unfold execSupplyLoss
    rw [if_pos (by rcases h with h | h <;> simp [h])]
    exact ⟨_, rfl, rfl⟩
  · intro b s h1 h2
    refine Does.via exec_supplyLoss ?_
    unfold execSupplyLoss
    rw [h1, h2, if_neg (by decide)]
    extract_lets u v d w x y
    refine ⟨_, rfl, rfl, rfl, rfl, ?_, ?_⟩
    · have hu : u.hldState = hldCommit := State.hldState_setHldState s _ (by decide)
      have hw : w.hldState = u.hldState := rfl
      clear_value w
      refine Eq.trans ?_ (hw.trans hu)
      cases b
      · rfl
      · exact State.sendResumePoint_frame.fld regNo_HLD_STAT
    · intro hb
      subst hb
      exact List.append_nil _

end Sys2Proof.Machine
end

