-- ==== Sys2Proof/Laws/EffectLast.lean ====
section
/-! SUPPORT. What the ledger writer, the link between the dies and the accesses of a core do. -/

set_option Elab.async false

namespace Sys2Proof.Machine

/-! ### The ledger writer -/

theorem State.writeUnit_led (s : State) (ws : List Word) : (s.writeUnit ws).led = s.led := State.writeUnit_frame.led (by decide)

theorem State.markDurable_does (s : State) (n : Nat) : (s.markDurable n).led = s.led ∧ (s.markDurable n).reg Reg.HLD_DURABLE = BitVec.ofNat 32 n := by
  unfold State.markDurable
  extract_lets u
  have hu : u.led = s.led ∧ u.reg Reg.HLD_DURABLE = BitVec.ofNat 32 n := ⟨rfl, State.reg_setReg_same _ _ _⟩
  clear_value u
  split
  · split
    · exact hu
    · exact hu
  · exact hu

/-- With nothing queued the store rests; the head enters a sector with its header, and takes one unit of the oldest entry
anywhere else; an entry leaves the queue with its last unit. -/
theorem ledgerUnitWritten_does :
    (∀ s : State, s.led.queue = [] → Does .ledgerUnitWritten s fun t => t = s) ∧
    (∀ (e : LedgerEntry) (rest : List LedgerEntry) (s : State), s.led.queue = e :: rest → s.head % sectorUnits = 0 →
      Does .ledgerUnitWritten s fun t => t.reg Reg.HLD_SECSEQ = s.reg Reg.HLD_SECSEQ + 1 ∧ t.led = s.led) ∧
    (∀ (e : LedgerEntry) (rest : List LedgerEntry) (s : State), s.led.queue = e :: rest → s.head % sectorUnits ≠ 0 →
      s.led.written + 1 < e.units → Does .ledgerUnitWritten s fun t =>
        t.led.queue = s.led.queue ∧ t.led.written = s.led.written + 1 ∧ t.reg Reg.HLD_DURABLE = s.reg Reg.HLD_DURABLE) ∧
    (∀ (e : LedgerEntry) (rest : List LedgerEntry) (s : State), s.led.queue = e :: rest → s.head % sectorUnits ≠ 0 →
      e.units ≤ s.led.written + 1 → Does .ledgerUnitWritten s fun t =>
        t.led.queue = rest ∧ t.led.written = 0 ∧ t.reg Reg.HLD_DURABLE = BitVec.ofNat 32 e.psn) := by
  refine ⟨?_, ?_, ?_, ?_⟩
  · intro s h
    refine ⟨_, exec_ledgerUnitWritten.trans rfl, ?_⟩
    unfold State.writeNextUnit
    rw [h]
  · intro e rest s h h2
    refine ⟨_, exec_ledgerUnitWritten.trans rfl, ?_⟩
    unfold State.writeNextUnit
    rw [h]
    dsimp only
    rw [if_pos h2]
    unfold State.writeHeader
    exact ⟨(State.writeUnit_frame.reg regNo_HLD_SECSEQ).trans (State.reg_setReg_same _ _ _), State.writeUnit_led _ _⟩
  · intro e rest s h h2 h3
    refine ⟨_, exec_ledgerUnitWritten.trans rfl, ?_⟩
    unfold State.writeNextUnit
    rw [h]
    dsimp only
    rw [if_neg h2]
    unfold State.writeEntryUnit
    extract_lets n src0 u v src
    have hu : u.led.queue = s.led.queue ∧ u.reg Reg.HLD_DURABLE = s.reg Reg.HLD_DURABLE := by
      unfold u
      split <;> exact ⟨rfl, rfl⟩
    clear_value u
    have hv : v.led.queue = s.led.queue ∧ v.reg Reg.HLD_DURABLE = s.reg Reg.HLD_DURABLE :=
      ⟨(congrArg Ledger.queue (State.writeUnit_led _ _)).trans hu.1, (State.writeUnit_frame.reg regNo_HLD_DURABLE).trans hu.2⟩
    rw [if_pos h3]
    exact ⟨hv.1.trans h, rfl, hv.2⟩
  · intro e rest s h h2 h3
    refine ⟨_, exec_ledgerUnitWritten.trans rfl, ?_⟩
    unfold State.writeNextUnit
    rw [h]
    dsimp only
    rw [if_neg h2]
    unfold State.writeEntryUnit
    extract_lets n src0 u v src
    rw [if_neg (Nat.not_lt.mpr h3)]
    have hd := State.markDurable_does { v with led.written := 0, led.queue := rest } e.psn
    exact ⟨congrArg Ledger.queue hd.1, congrArg Ledger.written hd.1, hd.2⟩

/-- The entry on refused ones is owed only where some were refused and the queue has room; it ends the count. -/
theorem ledgerOverflowEntry_does :
    (∀ s : State, s.led.refused = 0 ∨ s.led.accepting = false ∨ s.overflowRoom = false → Does .ledgerOverflowEntry s fun t => t = s) ∧
    (∀ s : State, s.led.refused ≠ 0 → s.led.accepting = true → s.overflowRoom = true → Does .ledgerOverflowEntry s fun t =>
      t.led.refused = 0 ∧ t.led.refusedPsn = 0) := by
  refine ⟨?_, ?_⟩
  · intro s h
    refine Does.via exec_ledgerOverflowEntry ?_
    unfold execLedgerOverflowEntry
    rw [if_pos (by rcases h with h | h | h <;> simp [h])]
    exact ⟨_, rfl, rfl⟩
  · intro s h h2 h3
    refine Does.via exec_ledgerOverflowEntry ?_
    unfold execLedgerOverflowEntry
    rw [if_neg (by simp [h, h2, h3])]
    exact ⟨_, rfl, rfl, rfl⟩

/-- A frame that asks for no export, by identifier, length, its first bytes, its unit or the state of the engine, does
nothing. -/
theorem ledgerExportRequest_does : ∀ (id : Nat) (d : List Byte) (s : State),
    s.exporting = false ∨ id ≠ 0x7E0 ∨ d.length ≠ 6 ∨ d.take 2 ≠ [0x4C, 0x47] →
    Does (.ledgerExportRequest id d) s fun t => t = s := by
  intro id d s h
  refine Does.via exec_ledgerExportRequest ?_
  unfold execLedgerExportRequest
  extract_lets u
  rw [if_pos (by
    rcases h with h | h | h | h
    · simp [h]
    · simp [h]
    · simp [h]
    · have h' : (d.take 2 != [0x4C, 0x47]) = true := bne_iff_ne.mpr h
      rw [h']
      simp)]
  exact ⟨_, rfl, rfl⟩

/-! ### The link of the dies -/

theorem State.dlinkUp_keeps (s : State) (b c : Bool) : (s.dlinkUp b c).led = s.led ∧
    (s.dlinkUp b c).dlink.fieldSeq = s.dlink.fieldSeq ∧ (s.dlinkUp b c).dlink.coreSeq = s.dlink.coreSeq ∧
    (s.dlinkUp b c).dlink.fieldValid = (if b then s.now else s.dlink.fieldValid) ∧
    (s.dlinkUp b c).dlink.coreValid = (if b then s.dlink.coreValid else s.now) := by
  unfold State.dlinkUp
  extract_lets src0 u v src1
  have hu : u.led = s.led ∧ u.dlink.fieldSeq = s.dlink.fieldSeq ∧ u.dlink.coreSeq = s.dlink.coreSeq ∧
      u.dlink.fieldValid = (if b then s.now else s.dlink.fieldValid) ∧ u.dlink.coreValid = (if b then s.dlink.coreValid else s.now) := by
    unfold u
    cases b <;> exact ⟨rfl, rfl, rfl, rfl, rfl⟩
  have hv : v.led = u.led ∧ v.dlink = u.dlink := ⟨State.endCause_frame.led (by decide), State.endCause_frame.dlink (by decide)⟩
  subst src1
  clear_value v u
  have hd := hu.2
  rw [← hv.2] at hd
  split
  · refine ⟨(State.endCause_frame.led (by decide)).trans (hv.1.trans hu.1), ?_⟩
    rw [show (State.endCause _ _ _).dlink = _ from State.endCause_frame.dlink (by decide)]
    exact hd
  · exact ⟨hv.1.trans hu.1, hd⟩

theorem State.dlinkDown_does (s : State) (b : Bool) : (s.dlinkDown b).on Reg.SYS_DLINK_STAT Fld.SYS_DLINK_STAT.DOWN = true := by
  unfold State.dlinkDown
  extract_lets u
  have hu : u.on Reg.SYS_DLINK_STAT Fld.SYS_DLINK_STAT.DOWN = true := congrArg (· != 0) (s.fld_setFld Reg.SYS_DLINK_STAT Fld.SYS_DLINK_STAT.DOWN 1)
  clear_value u
  split
  · exact hu
  · exact (State.raise_frame.on regNo_SYS_DLINK_STAT).trans hu

/-- A CONTROL frame that fails its check at the field die. -/
theorem State.controlBad {q : BitVec 16} {p : List Byte} {crc : Word} {s : State} (h : crc ≠ dlinkCheck 1 q p) :
    execDlinkFrameReceive true 1 q p crc s =
      .next ({ s with dlink.fieldSeq := (s.dlink.fieldSeq + 1) % 65536 }.controlFailed true) := by
  unfold execDlinkFrameReceive
  dsimp only
  rw [beq_eq_false_iff_ne.mpr h]
  rfl

theorem State.controlFailed_retry {s : State} (h : s.dlink.fieldFails < 3) : s.controlFailed true =
    { s with dlink.fieldFails := s.dlink.fieldFails + 1 }.count Reg.SYS_DLINK_STAT Fld.SYS_DLINK_STAT.RETRY := by
  unfold State.controlFailed
  refine (if_pos h).trans ?_
  exact congrArg (fun n => ({ s with dlink.fieldFails := n } : State).count Reg.SYS_DLINK_STAT Fld.SYS_DLINK_STAT.RETRY) (if_pos h)

theorem State.controlFailed_down {s : State} (h : 3 ≤ s.dlink.fieldFails) : s.controlFailed true =
    { s with dlink.fieldFails := 0 }.dlinkDown true := by
  unfold State.controlFailed
  refine (if_neg (Nat.not_lt.mpr h)).trans ?_
  exact congrArg (fun n => ({ s with dlink.fieldFails := n } : State).dlinkDown true) (if_neg (Nat.not_lt.mpr h))

/-- A frame that the field die, or the core die, takes. -/
theorem State.dlinkTakenField {c : Fin 3} {q : BitVec 16} {p : List Byte} {s : State} (h : q.toNat = s.dlink.fieldSeq) :
    execDlinkFrameReceive true c q p (dlinkCheck c q p) s =
      .next (if c = 1 then ({ s with dlink.fieldSeq := (q.toNat + 1) % 65536 }.dlinkUp true (c == 0)).controlUsed true p
        else { s with dlink.fieldSeq := (q.toNat + 1) % 65536 }.dlinkUp true (c == 0)) := by
  unfold execDlinkFrameReceive
  simp only [beq_self_eq_true, Bool.true_and, reduceIte, h]

theorem State.dlinkTakenCore {c : Fin 3} {q : BitVec 16} {p : List Byte} {s : State} (h : q.toNat = s.dlink.coreSeq) :
    execDlinkFrameReceive false c q p (dlinkCheck c q p) s =
      .next (if c = 1 then ({ s with dlink.coreSeq := (q.toNat + 1) % 65536 }.dlinkUp false (c == 0)).controlUsed false p
        else { s with dlink.coreSeq := (q.toNat + 1) % 65536 }.dlinkUp false (c == 0)) := by
  unfold execDlinkFrameReceive
  simp only [beq_self_eq_true, Bool.true_and, reduceIte, h, Bool.false_eq_true]

/-- A CONTROL frame at the field die with no entry on its way ends the failures, and nothing else. -/
theorem State.controlUsed_none {u : State} (p : List Byte) (hs : u.led.sent = []) :
    u.controlUsed true p = { u with dlink.fieldFails := 0 } := by
  unfold State.controlUsed
  extract_lets d w
  have hw : w = { u with dlink.fieldFails := 0 } := if_pos rfl
  have hws : w.led.sent = [] := (congrArg (fun v : State => v.led.sent) hw).trans hs
  clear_value w
  split
  · exact hw
  · rename_i heq
    exact absurd (heq.symm.trans hws) (by simp)

/-- A valid frame in sequence, and one that is not, advance the expected number of their side alone; a valid CONTROL frame
ends its failures; of one that is not, each of three failures is repeated, and the fourth takes the link down. -/
theorem dlinkFrameReceive_does :
    (∀ (q : BitVec 16) (p : List Byte) (s : State), q.toNat = s.dlink.fieldSeq →
      Does (.dlinkFrameReceive true 2 q p (dlinkCheck 2 q p)) s fun t => t.dlink.fieldSeq = (q.toNat + 1) % 65536 ∧
        t.dlink.coreSeq = s.dlink.coreSeq ∧ t.dlink.fieldValid = s.now ∧ t.led = s.led) ∧
    (∀ (q : BitVec 16) (p : List Byte) (s : State), q.toNat = s.dlink.coreSeq →
      Does (.dlinkFrameReceive false 2 q p (dlinkCheck 2 q p)) s fun t => t.dlink.coreSeq = (q.toNat + 1) % 65536 ∧
        t.dlink.fieldSeq = s.dlink.fieldSeq ∧ t.dlink.coreValid = s.now ∧ t.led = s.led) ∧
    (∀ (q : BitVec 16) (p : List Byte) (s : State), q.toNat = s.dlink.fieldSeq → s.led.sent = [] →
      Does (.dlinkFrameReceive true 1 q p (dlinkCheck 1 q p)) s fun t => t.dlink.fieldSeq = (q.toNat + 1) % 65536 ∧
        t.dlink.fieldFails = 0 ∧ t.dlink.fieldValid = s.now ∧ t.led = s.led) ∧
    (∀ (b : Bool) (q : BitVec 16) (p : List Byte) (crc : Word) (s : State), crc ≠ dlinkCheck 2 q p →
      Does (.dlinkFrameReceive b 2 q p crc) s fun t =>
        t.dlink.fieldSeq = (if b then (s.dlink.fieldSeq + 1) % 65536 else s.dlink.fieldSeq) ∧
        t.dlink.coreSeq = (if b then s.dlink.coreSeq else (s.dlink.coreSeq + 1) % 65536) ∧ t.regs = s.regs ∧ t.led = s.led) ∧
    (∀ (q : BitVec 16) (p : List Byte) (crc : Word) (s : State), crc ≠ dlinkCheck 1 q p → s.dlink.fieldFails < 3 →
      Does (.dlinkFrameReceive true 1 q p crc) s fun t => t.dlink.fieldFails = s.dlink.fieldFails + 1 ∧
        t.fld Reg.SYS_DLINK_STAT Fld.SYS_DLINK_STAT.RETRY =
          satAdd Fld.SYS_DLINK_STAT.RETRY.width (s.fld Reg.SYS_DLINK_STAT Fld.SYS_DLINK_STAT.RETRY) 1) ∧
    (∀ (q : BitVec 16) (p : List Byte) (crc : Word) (s : State), crc ≠ dlinkCheck 1 q p → 3 ≤ s.dlink.fieldFails →
      Does (.dlinkFrameReceive true 1 q p crc) s fun t => t.on Reg.SYS_DLINK_STAT Fld.SYS_DLINK_STAT.DOWN = true) := by
  have bad : ∀ (c : Fin 3) (q : BitVec 16) (p : List Byte) (crc : Word) (n : Nat), crc ≠ dlinkCheck c q p →
      (crc == dlinkCheck c q p) = false := fun c q p crc n h => beq_eq_false_iff_ne.mpr h
  refine ⟨?_, ?_, ?_, ?_, ?_, ?_⟩
  · intro q p s h
    refine ⟨_, exec_dlinkFrameReceive.trans (State.dlinkTakenField h), ?_⟩
    have hk := State.dlinkUp_keeps { s with dlink.fieldSeq := (q.toNat + 1) % 65536 } true ((2 : Fin 3) == 0)
    rw [if_pos rfl] at hk
    rw [if_neg (by decide)]
    generalize State.dlinkUp _ _ _ = u at hk ⊢
    exact ⟨hk.2.1, hk.2.2.1, hk.2.2.2.1, hk.1⟩
  · intro q p s h
    refine ⟨_, exec_dlinkFrameReceive.trans (State.dlinkTakenCore h), ?_⟩
    have hk := State.dlinkUp_keeps { s with dlink.coreSeq := (q.toNat + 1) % 65536 } false ((2 : Fin 3) == 0)
    rw [if_neg Bool.false_ne_true, if_neg Bool.false_ne_true] at hk
    rw [if_neg (by decide)]
    generalize State.dlinkUp _ _ _ = u at hk ⊢
    exact ⟨hk.2.2.1, hk.2.1, hk.2.2.2.2, hk.1⟩
  · intro q p s h h2
    refine ⟨_, exec_dlinkFrameReceive.trans (State.dlinkTakenField h), ?_⟩
    have hk := State.dlinkUp_keeps { s with dlink.fieldSeq := (q.toNat + 1) % 65536 } true ((1 : Fin 3) == 0)
    rw [if_pos rfl] at hk
    rw [if_pos rfl]
    generalize State.dlinkUp _ _ _ = u at hk ⊢
    rw [State.controlUsed_none p ((congrArg Ledger.sent hk.1).trans h2)]
    exact ⟨hk.2.1, rfl, hk.2.2.2.1, hk.1⟩
  · intro b q p crc s h
    refine Does.via exec_dlinkFrameReceive ?_
    unfold execDlinkFrameReceive
    dsimp only
    rw [bad 2 q p crc 0 h]
    cases b
    · exact ⟨_, rfl, rfl, rfl, rfl, rfl⟩
    · exact ⟨_, rfl, rfl, rfl, rfl, rfl⟩
  · intro q p crc s h h2
    refine ⟨_, exec_dlinkFrameReceive.trans (State.controlBad h), ?_⟩
    dsimp only
    rw [State.controlFailed_retry (s := { s with dlink.fieldSeq := (s.dlink.fieldSeq + 1) % 65536 }) h2]
    exact ⟨rfl, State.fld_count _ Reg.SYS_DLINK_STAT Fld.SYS_DLINK_STAT.RETRY 1⟩
  · intro q p crc s h h2
    refine ⟨_, exec_dlinkFrameReceive.trans (State.controlBad h), ?_⟩
    dsimp only
    rw [State.controlFailed_down (s := { s with dlink.fieldSeq := (s.dlink.fieldSeq + 1) % 65536 }) h2]
    exact State.dlinkDown_does _ true

/-- With no frame for 1 µs the link is down. -/
theorem dlinkHeartbeatTimeout_does : ∀ (b : Bool) (s : State), Does (.dlinkHeartbeatTimeout b) s fun t =>
    t.on Reg.SYS_DLINK_STAT Fld.SYS_DLINK_STAT.DOWN = true :=
  fun b _ => ⟨_, exec_dlinkHeartbeatTimeout.trans rfl, State.dlinkDown_does _ b⟩

/-- The revision that the field die reports is shown; 15 means that it did not answer. -/
theorem fieldDieIdentity_does : ∀ (r : Fin 16) (s : State), Does (.fieldDieIdentity r) s fun t =>
    t.fld Reg.SYS_DEVID Fld.SYS_DEVID.FIELD_REV = r.val ∧
    t.on Reg.SYS_RSTCAUSE Fld.SYS_RSTCAUSE.FDIE = (r.val == 15) ∧
    t.fld Reg.SYS_RSTCAUSE Fld.SYS_RSTCAUSE.CAUSE = s.fld Reg.SYS_RSTCAUSE Fld.SYS_RSTCAUSE.CAUSE := by
  intro r s
  refine ⟨_, exec_fieldDieIdentity.trans rfl, ?_, ?_, ?_⟩
  · refine (State.fld_setFld_other _ _ _ _ (reg_ne regNo_SYS_DEVID regNo_SYS_RSTCAUSE)).trans ?_
    exact (s.fld_setFld Reg.SYS_DEVID Fld.SYS_DEVID.FIELD_REV r.val).trans (Nat.mod_eq_of_lt r.isLt)
  · refine (congrArg (· != 0) (State.fld_setFld _ Reg.SYS_RSTCAUSE Fld.SYS_RSTCAUSE.FDIE (r.val == 15).toNat) :).trans ?_
    cases r.val == 15 <;> rfl
  · refine (State.fld_setFld_field _ _ (f := Fld.SYS_RSTCAUSE.FDIE) (g := Fld.SYS_RSTCAUSE.CAUSE) _ (by decide)).trans ?_
    exact State.fld_setFld_other _ _ _ _ (reg_ne regNo_SYS_RSTCAUSE regNo_SYS_DEVID)

/-! ### A core's access -/

theorem State.scanSpoil_kept (s : State) (a n : Nat) : (s.scanSpoil a n).mem = s.mem ∧ (s.scanSpoil a n).regs = s.regs := by
  unfold State.scanSpoil
  refine State.foldl_keeps (fun v : State => v.mem = s.mem ∧ v.regs = s.regs) _ ?_ _ _ ⟨rfl, rfl⟩
  intro u k hu
  dsimp only
  split
  · split
    · exact hu
    · exact hu
  · exact hu

theorem State.sramStore_below (s : State) (c off : Nat) (v : Word) (b : Bool) (h : off < doorbell) :
    (s.sramStore c off v b).sram off = v ∧ (s.sramStore c off v b).regs = s.regs := by
  unfold State.sramStore
  rw [if_neg (fun e => Nat.lt_irrefl _ (Nat.lt_of_lt_of_le h e.1))]
  have h1 : ((s.clearOther c off).setSram off v).sram off = v := State.word_setWord_same _ _ _
  have h2 : (((s.clearOther c off).setSram off v).setBad off false).mem = ((s.clearOther c off).setSram off v).mem := rfl
  have h3 : (((s.clearOther c off).setSram off v).setBad off false).regs = s.regs := rfl
  have h4 := State.scanSpoil_kept (((s.clearOther c off).setSram off v).setBad off false) (sramBase + off) 4
  refine ⟨?_, h4.2.trans h3⟩
  refine Eq.trans ?_ h1
  have h5 := h4.1.trans h2
  unfold State.sram State.word State.byte
  rw [h5]

theorem State.stored_does (u : State) (off : Nat) : u.stored.bus = .done ∧ u.stored.sram off = u.sram off ∧ u.stored.regs = u.regs := by
  unfold State.stored State.sram State.word State.byte
  exact ⟨rfl, rfl, rfl⟩

theorem State.gives_does (u : State) (w : Word) (off : Nat) : (u.gives w).bus = .value w ∧ (u.gives w).sram off = u.sram off ∧
    (u.gives w).regs = u.regs := by
  unfold State.gives State.sram State.word State.byte
  exact ⟨rfl, rfl, rfl⟩

theorem State.sramRead_clean {s : State} {off : Nat} (h : s.sramBad off = false) :
    s.sramRead off 0 = (some (s.sram (off / 4 * 4)), s) := by
  have e : s.eccOf off 0 = 0 := by
    unfold State.eccOf
    rw [h, if_neg (by decide)]
  unfold State.sramRead
  rw [e]
  rfl

/-- A misaligned access is the core's exception, or a fault at a register block; a word is loaded from and stored to the
uncached alias of host SRAM; LR reserves, and SC without a reservation stores nothing and answers 1. -/
theorem coreMemoryAccess_does :
    (∀ (c : Fin 2) (op : CoreOp) (w : Fin 3) (a v : Word) (b : Bool) (e : Fin 3) (f : Option Word) (s : State),
      a.toNat % widthBytes w.val ≠ 0 → Does (.coreMemoryAccess c op w a v b e f) s fun t =>
        t.bus = (if inBlocks a.toNat then .accessFault else .misaligned) ∧ t.regs = s.regs ∧ t.mem = s.mem) ∧
    (∀ (c : Fin 2) (a v : Word) (b : Bool) (f : Option Word) (s : State), a.toNat % 4 = 0 → inUncached a.toNat = true →
      s.sramBad (a.toNat - uncachedBase) = false → Does (.coreMemoryAccess c .load 2 a v b 0 f) s fun t =>
        t.bus = .value (s.sram (a.toNat - uncachedBase)) ∧ t.regs = s.regs ∧ t.mem = s.mem) ∧
    (∀ (c : Fin 2) (a v : Word) (b : Bool) (e : Fin 3) (f : Option Word) (s : State), a.toNat % 4 = 0 → inUncached a.toNat = true →
      a.toNat - uncachedBase < doorbell → Does (.coreMemoryAccess c .store 2 a v b e f) s fun t =>
        t.bus = .done ∧ t.sram (a.toNat - uncachedBase) = v ∧ t.regs = s.regs) ∧
    (∀ (c : Fin 2) (a v : Word) (b : Bool) (f : Option Word) (s : State), a.toNat % 4 = 0 → inUncached a.toNat = true →
      s.sramBad (a.toNat - uncachedBase) = false → Does (.coreMemoryAccess c .lr 2 a v b 0 f) s fun t =>
        t.bus = .value (s.sram (a.toNat - uncachedBase)) ∧ t.hic.resv.contains (c.val, a.toNat - uncachedBase) = true ∧ t.mem = s.mem) ∧
    (∀ (c : Fin 2) (a v : Word) (b : Bool) (e : Fin 3) (f : Option Word) (s : State), a.toNat % 4 = 0 → inUncached a.toNat = true →
      s.hic.resv.contains (c.val, a.toNat - uncachedBase) = false → Does (.coreMemoryAccess c .sc 2 a v b e f) s fun t =>
        t.bus = .value 1 ∧ t.regs = s.regs ∧ t.mem = s.mem) ∧
    (∀ (c : Fin 2) (a v : Word) (b : Bool) (e : Fin 3) (f : Option Word) (s : State), a.toNat % 4 = 0 → inUncached a.toNat = true →
      s.hic.resv.contains (c.val, a.toNat - uncachedBase) = true → a.toNat - uncachedBase < doorbell →
      Does (.coreMemoryAccess c .sc 2 a v b e f) s fun t => t.bus = .value 0 ∧ t.sram (a.toNat - uncachedBase) = v ∧ t.regs = s.regs) := by
  have hroute : ∀ a : Nat, inUncached a = true → inRom a = false ∧ inCached a = false := by
    intro a h
    unfold inUncached within at h
    unfold inRom inCached within
    simp only [Bool.and_eq_true, decide_eq_true_eq] at h
    obtain ⟨h1, h2⟩ := h
    have e1 : uncachedBase = 0x18000000 := rfl
    have e2 : sramSize = 0x400000 := rfl
    have e3 : romSize = 0x10000 := rfl
    have e4 : sramBase = 0x10000000 := rfl
    refine ⟨decide_eq_false (by omega), ?_⟩
    rw [show decide (a < sramBase + sramSize) = false from decide_eq_false (by omega)]
    exact Bool.and_false _
  have hal : ∀ a : Word, a.toNat % 4 = 0 → ¬ a.toNat % widthBytes (2 : Fin 3).val ≠ 0 := fun a h e => e h
  have hoff : ∀ a : Nat, inUncached a = true → sramOffset a = some (a - uncachedBase) := by
    intro a h
    unfold sramOffset
    rw [(hroute a h).2, h, if_neg (by decide), if_pos rfl]
  have hword : ∀ a : Nat, a % 4 = 0 → inUncached a = true → (a - uncachedBase) / 4 * 4 = a - uncachedBase := by
    intro a h h2
    have e1 : uncachedBase = 0x18000000 := rfl
    omega
  have hpart : ∀ (w : Word) (a : Nat), a % 4 = 0 → partOf w a (2 : Fin 3).val = w := by
    intro w a h
    unfold partOf
    rw [h]
    exact BitVec.ushiftRight_zero w
  refine ⟨?_, ?_, ?_, ?_, ?_, ?_⟩
  · intro c op w a v b e f s h
    refine ⟨_, exec_coreMemoryAccess.trans rfl, ?_⟩
    unfold State.access
    rw [if_pos h]
    exact ⟨rfl, rfl, rfl⟩
  · intro c a v b f s h1 h2 h3
    refine ⟨_, exec_coreMemoryAccess.trans rfl, ?_⟩
    unfold State.access
    rw [if_neg (hal a h1)]
    dsimp only
    unfold State.coreLoad
    rw [(hroute _ h2).1, (hroute _ h2).2, h2, if_neg (by decide), if_neg (by decide), if_pos rfl]
    unfold State.readUncached
    rw [show ((0 : Fin 3) : Nat) = 0 from rfl, State.sramRead_clean h3]
    dsimp only
    rw [hpart _ _ h1, hword _ h1 h2]
    exact ⟨rfl, rfl, rfl⟩
  · intro c a v b e f s h1 h2 h3
    refine ⟨_, exec_coreMemoryAccess.trans rfl, ?_⟩
    unfold State.access
    rw [if_neg (hal a h1)]
    dsimp only
    unfold State.coreStore
    rw [hoff _ h2]
    dsimp only
    rw [(hroute _ h2).2, if_neg (by decide)]
    unfold State.sramWrite
    dsimp only
    rw [if_pos (show ((2 : Fin 3) : Nat) = 2 from rfl), hword _ h1 h2]
    have hs := State.sramStore_below s c _ v false h3
    generalize s.sramStore c (a.toNat - uncachedBase) v false = u at hs
    have hd := u.stored_does (a.toNat - uncachedBase)
    exact ⟨hd.1, hd.2.1.trans hs.1, hd.2.2.trans hs.2⟩
  · intro c a v b f s h1 h2 h3
    refine ⟨_, exec_coreMemoryAccess.trans rfl, ?_⟩
    unfold State.access
    rw [if_neg (hal a h1)]
    dsimp only
    unfold State.atomic
    rw [h2, if_neg (by decide)]
    dsimp only
    unfold State.loadReserved
    rw [show ((0 : Fin 3) : Nat) = 0 from rfl, State.sramRead_clean h3]
    dsimp only
    rw [hword _ h1 h2]
    exact ⟨rfl, by simp [State.gives], rfl⟩
  · intro c a v b e f s h1 h2 h3
    refine ⟨_, exec_coreMemoryAccess.trans rfl, ?_⟩
    unfold State.access
    rw [if_neg (hal a h1)]
    dsimp only
    unfold State.atomic
    rw [h2, if_neg (by decide)]
    dsimp only
    unfold State.storeConditional
    rw [h3, if_neg (by decide)]
    exact ⟨rfl, rfl, rfl⟩
  · intro c a v b e f s h1 h2 h3 h4
    refine ⟨_, exec_coreMemoryAccess.trans rfl, ?_⟩
    unfold State.access
    rw [if_neg (hal a h1)]
    dsimp only
    unfold State.atomic
    rw [h2, if_neg (by decide)]
    dsimp only
    unfold State.storeConditional
    rw [h3, if_pos rfl]
    have hs := State.sramStore_below (s.dropResv c) c _ v false h4
    generalize (s.dropResv c).sramStore c (a.toNat - uncachedBase) v false = u at hs
    have hd := u.gives_does 0 (a.toNat - uncachedBase)
    exact ⟨hd.1, hd.2.1.trans hs.1, hd.2.2.trans hs.2⟩

end Sys2Proof.Machine
end

