-- ==== Sys2Proof/Laws/EffectOwn.lean ====
section
/-! SUPPORT. What commands do whose other lemmas speak of the cases in which they are turned away. -/

set_option Elab.async false

namespace Sys2Proof.Machine

/-! ### Transmission slots -/

/-- A TX slot that passes its checks is staged, and the fetch index passes it. -/
theorem canTxFetch_runs : ∀ (c : Fin 4) (s : State), s.canCanFetch c = true →
    (s.firstBad (s.canTxSlot c (s.canTxIdx c)) 8).isSome = false → s.canSlotSound c = true →
    t1Fmt (s.sram (s.canTxSlot c (s.canTxIdx c) + 4)) < 2 → bitAt (s.sram (s.canTxSlot c (s.canTxIdx c) + 4)) 28 = false →
    Does (.canTxFetch c) s fun t =>
      (∃ f : CanTx, (t.canCtl c).staged = (s.canCtl c).staged ++ [f] ∧ f.slot = s.canTxIdx c ∧ f.started = false) ∧
      t.canTxIdx c = if s.canTxSize c ≤ s.canTxIdx c + 1 then 0 else (s.canTxIdx c + 1) % 2 ^ 12 := by
  intro c s h1 h2 h3 h4 h5
  refine ⟨_, exec_canTxFetch.trans rfl, ?_⟩
  dsimp only
  rw [h1, if_pos rfl]
  unfold State.canFetch
  extract_lets k off ws w1
  have hb : s.firstBad off 8 = none := by
    cases hx : s.firstBad off 8 with
    | none => rfl
    | some a =>
      have h2' : (s.firstBad off 8).isSome = false := h2
      rw [hx] at h2'
      cases h2'
  have hw : w1 = s.sram (s.canTxSlot c (s.canTxIdx c) + 4) := rfl
  rw [hb]
  dsimp only
  rw [← hw] at h4 h5
  rw [if_neg (fun h => h (of_decide_eq_true (h3 : decide (ws.getD 7 0 = _) = true))), if_neg (by rintro (h | ⟨h, -⟩) <;> omega),
    if_neg (by rw [h5]; simp)]
  clear_value ws w1
  unfold State.canStage
  extract_lets w1' launch
  split
  rename_i n m hnm
  extract_lets data f u x
  have hu : u.canTxIdx c = s.canTxIdx c ∧ u.canTxSize c = s.canTxSize c ∧ u.canTxEpoch c = s.canTxEpoch c ∧ u.canCtl c = s.canCtl c := by
    have hcnt : ∀ v : State, v = s ∨ v = s.count (Reg.CAN_CNT2 c) Fld.CAN_CNT2.TXCLAMP → v.canTxIdx c = s.canTxIdx c ∧
        v.canTxSize c = s.canTxSize c ∧ v.canTxEpoch c = s.canTxEpoch c ∧ v.canCtl c = s.canCtl c := by
      rintro v (rfl | rfl)
      · exact ⟨rfl, rfl, rfl, rfl⟩
      · exact ⟨State.fld_setFld_other _ _ _ _ (reg_ne (regNo_CAN_TXIDX c) (regNo_CAN_CNT2 c)),
          State.fld_setFld_other _ _ _ _ (reg_ne (regNo_CAN_TXCFG c) (regNo_CAN_CNT2 c)),
          State.fld_setFld_other _ _ _ _ (reg_ne (regNo_CAN_TXIDX c) (regNo_CAN_CNT2 c)), rfl⟩
    refine hcnt u ?_
    by_cases hm : m = t1Len w1'
    · exact .inl (if_pos hm)
    · exact .inr (if_neg hm)
  obtain ⟨hu1, hu2, hu3, hu4⟩ := hu
  have hx : x = s.canCtl c := hu4
  have hset : ∀ (v : State) (i e : Nat), (v.setCanTxIdx c i e).canTxIdx c = i % 2 ^ 12 := by
    intro v i e
    refine (State.fld_setFld_field _ _ (f := Fld.CAN_TXIDX.EPOCH) (g := Fld.CAN_TXIDX.IDX) _ (by decide)).trans ?_
    exact State.fld_setFld _ (Reg.CAN_TXIDX c) Fld.CAN_TXIDX.IDX i
  have hctl : ((u.setCanCtl c { x with staged := x.staged ++ [f] }).canCtl c) = { x with staged := x.staged ++ [f] } := State.canCtl_set _ _ _
  have hfs : f.slot = s.canTxIdx c := rfl
  have hst : f.started = false := rfl
  clear_value f u x
  generalize hv : u.setCanCtl c _ = v at hctl ⊢
  have hv1 : v.canTxIdx c = s.canTxIdx c := by rw [← hv]; exact hu1
  have hv2 : v.canTxSize c = s.canTxSize c := by rw [← hv]; exact hu2
  unfold State.canTxPass
  extract_lets kk
  have hkk : kk = s.canTxIdx c := hv1
  rw [hv2, hkk]
  have hq : ∀ i e, ((v.setCanTxIdx c i e).canCtl c).staged = (s.canCtl c).staged ++ [f] := by
    intro i e
    have : (v.setCanTxIdx c i e).canCtl c = v.canCtl c := rfl
    rw [this, hctl, hx]
  split
  · exact ⟨⟨f, hq _ _, hfs, hst⟩, hset _ _ _⟩
  · exact ⟨⟨f, hq _ _, hfs, hst⟩, hset _ _ _⟩

/-- A TX slot of a port that passes its check is staged, and the fetch index passes it. -/
theorem ethTxFetch_runs : ∀ (p : Fin 2) (s : State), s.ethAlive = true → s.ethTxEn p = true → s.ethHalted p = false →
    s.ethTxIdx p ≠ (s.ethPort p).txPi → (s.ethPort p).staged.length < 4 → (s.firstBad (s.ethTxSlot p (s.ethTxIdx p)) 8).isSome = false →
    s.ethSlotSound p = true → bitAt (s.sram (s.ethTxSlot p (s.ethTxIdx p))) 12 = false →
    Does (.ethTxFetch p) s fun t =>
      (∃ f : EthTx, (t.ethPort p).staged = (s.ethPort p).staged ++ [f] ∧ f.slot = s.ethTxIdx p ∧ f.started = false ∧
        f.len = clampNat 14 1518 ((s.sram (s.ethTxSlot p (s.ethTxIdx p))).toNat % 2 ^ 11)) ∧
      t.ethTxIdx p = if s.ethTxSize p ≤ s.ethTxIdx p + 1 then 0 else (s.ethTxIdx p + 1) % 2 ^ Fld.ETH_Pp_IDX.TX.width := by
  intro p s h1 h2 h3 h4 h5 h6 h7 h8
  refine ⟨_, exec_ethTxFetch.trans rfl, ?_⟩
  dsimp only
  rw [if_pos (by simp [h1, h2, h3, h4, h5])]
  unfold State.ethFetch
  extract_lets x k off ws
  have hb : s.firstBad off 8 = none := by
    cases hx : s.firstBad off 8 with
    | none => rfl
    | some a =>
      have h6' : (s.firstBad off 8).isSome = false := h6
      rw [hx] at h6'
      cases h6'
  have hw : ws.getD 0 0 = s.sram (s.ethTxSlot p (s.ethTxIdx p)) := rfl
  rw [hb]
  dsimp only
  rw [if_neg (fun h => h (of_decide_eq_true (h7 : decide (ws.getD 7 0 = _) = true))), if_neg (by rw [hw, h8]; simp)]
  rw [← hw]
  clear_value ws
  unfold State.ethStage
  extract_lets w0 len n mode w4 w5 f u
  have hu : u.ethTxIdx p = s.ethTxIdx p ∧ u.ethTxSize p = s.ethTxSize p := by
    have hcnt : ∀ v : State, v = s ∨ v = s.count (Reg.ETH_Pp_CNT p) Fld.ETH_Pp_CNT.TXCLAMP → v.ethTxIdx p = s.ethTxIdx p ∧
        v.ethTxSize p = s.ethTxSize p := by
      rintro v (rfl | rfl)
      · exact ⟨rfl, rfl⟩
      · exact ⟨State.fld_setFld_other _ _ _ _ (reg_ne (regNo_ETH_Pp_IDX p) (regNo_ETH_Pp_CNT p)),
          State.fld_setFld_other _ _ _ _ (reg_ne (regNo_ETH_Pp_RING p) (regNo_ETH_Pp_CNT p))⟩
    refine hcnt u ?_
    by_cases hm : n = len
    · exact .inl (if_pos hm)
    · exact .inr (if_neg hm)
  obtain ⟨hu1, hu2⟩ := hu
  have hp : ((u.setEthPort p { x with staged := x.staged ++ [f] }).ethPort p) = { x with staged := x.staged ++ [f] } := State.ethPort_set _ _ _
  have hx : x = s.ethPort p := rfl
  have hfs : f.slot = s.ethTxIdx p := rfl
  have hst : f.started = false := rfl
  have hl : f.len = clampNat 14 1518 ((ws.getD 0 0).toNat % 2 ^ 11) := rfl
  clear_value f u
  generalize hv : u.setEthPort p _ = v at hp ⊢
  have hv1 : v.ethTxIdx p = s.ethTxIdx p := by rw [← hv]; exact hu1
  have hv2 : v.ethTxSize p = s.ethTxSize p := by rw [← hv]; exact hu2
  unfold State.ethTxPass
  extract_lets kk y
  have hkk : kk = s.ethTxIdx p := hv1
  have hy : y = v.ethPort p := rfl
  rw [hv2, hkk]
  clear_value y
  split
  · refine ⟨⟨f, ?_, hfs, hst, hl⟩, ?_⟩
    · rw [State.ethPort_set, hy, hp, hx]
    · exact State.fld_setFld v (Reg.ETH_Pp_IDX p) Fld.ETH_Pp_IDX.TX 0
  · refine ⟨⟨f, ?_, hfs, hst, hl⟩, ?_⟩
    · have : (v.setFld (Reg.ETH_Pp_IDX p) Fld.ETH_Pp_IDX.TX (s.ethTxIdx p + 1)).ethPort p = v.ethPort p := rfl
      rw [this, hp, hx]
    · exact State.fld_setFld v (Reg.ETH_Pp_IDX p) Fld.ETH_Pp_IDX.TX _

/-! ### Measured angles -/

theorem toField_follow (m n : Int) (h0 : 0 ≤ m) (h1 : m < 2 ^ 24) : toField 24 (n + signedOf 24 (toField 24 (m - n))) = m.toNat := by
  unfold toField signedOf
  have h2 : ((2 : Int) ^ 24) = 16777216 := rfl
  have h3 : ((2 : Nat) ^ 24) = 16777216 := rfl
  simp only [h2, h3] at *
  split <;> omega

/-- The counter of a channel with a measured angle later than its last update shows the top 24 bits of the angle. -/
theorem State.measuredAbs_cnt (s : State) (c : Nat) (theta : Word) (n : Nat) (h : s.stale c n = false) :
    (s.measuredAbs c theta n).cnt c = theta.toNat / 256 := by
  unfold State.measuredAbs State.cnt
  rw [h, if_neg Bool.false_ne_true, State.measured_frame.fld (regNo_POS_CHc_CNT c)]
  unfold State.followCnt
  refine (State.moveCnt_cnt s c _).trans ?_
  have h := theta.isLt
  exact toField_follow ((theta.toNat / 256 : Nat) : Int) (s.cnt c : Int) (by omega) (by omega)

/-- A pair in the window of a channel that tracks, delivers or has seen a pair in the window before gives the angle. -/
theorem State.pairIn_cnt (s : State) (c : Nat) (v w : Int) (th : Word) (n : Nat) (hn : s.stale c n = false) (h : s.inWindow c v w = true)
    (hd : 1 ≤ (s.ch c).inRun ∨ (s.ch c).delivers = true ∨ s.chState c = chTrack) : (s.pair' c v w (some th) n).cnt c = th.toNat / 256 := by
  unfold State.pair'
  generalize hu : s.setCh c _ = u
  have hin : u.inWindow c v w = true := by rw [← hu]; exact h
  have hr : (u.ch c).inRun = (s.ch c).inRun ∧ (u.ch c).delivers = (s.ch c).delivers ∧ (u.ch c).last = (s.ch c).last ∧
      (u.ch c).fresh = (s.ch c).fresh := by
    rw [← hu, State.ch_setCh, if_pos rfl]
    exact ⟨rfl, rfl, rfl, rfl⟩
  have hst : u.chState c = s.chState c := by rw [← hu]; rfl
  dsimp only
  rw [hin, if_pos rfl]
  unfold State.pairInWindow
  dsimp only
  generalize hw : u.setCh c _ = x
  have hx : (x.ch c).delivers = (u.ch c).delivers ∧ (x.ch c).last = (u.ch c).last ∧ (x.ch c).fresh = (u.ch c).fresh := by
    rw [← hw, State.ch_setCh, if_pos rfl]
    exact ⟨rfl, rfl, rfl⟩
  obtain ⟨hxd, hxl⟩ := hx
  have hxs : x.chState c = u.chState c := by rw [← hw]; rfl
  rw [if_neg (by
    rintro ⟨h1, h2, h3⟩
    rw [hxd, hr.2.1] at h2
    rw [hxs, hst] at h3
    rcases hd with hd | hd | hd
    · omega
    · simp [hd] at h2
    · exact h3 hd)]
  refine x.measuredAbs_cnt c th n ?_
  unfold State.stale
  rw [hxl.1, hxl.2, hxs, hst, hr.2.2.1, hr.2.2.2]
  exact hn

/-- A pair, later than the last update, of a resolver channel in its amplitude window moves the counter to the angle. -/
theorem resolverPair_runs : ∀ (c : Fin 2) (v w : Int) (vexc mid : Nat) (s : State), s.chRuns c 1 = true → s.inWindow c v w = true →
    s.stale c (s.resolverAt c mid) = false →
    1 ≤ (s.ch c).inRun ∨ (s.ch c).delivers = true ∨ s.chState c = chTrack → Does (.resolverPair c v w vexc mid) s fun t =>
      t.cnt c = (Num.atan2 (volts v) (volts w)).toNat / 256 := by
  intro c v w vexc mid s h hw hn hd
  refine ⟨_, exec_resolverPair.trans rfl, ?_⟩
  dsimp only
  rw [h, if_pos rfl]
  generalize hu : ((s.at (s.resolverAt c mid)).excLimit c vexc) = u
  have e1 : u.ch c = s.ch c := by rw [← hu]; rfl
  have e2 : u.chState c = s.chState c := by
    rw [← hu]
    exact State.fld_setFld_field _ _ (f := Fld.POS_CHc_STAT.EXCLIM) (g := Fld.POS_CHc_STAT.STATE) _ (by decide)
  refine u.pairIn_cnt c v w _ _ ?_ ?_ ?_
  · unfold State.stale
    rw [e1, e2]
    exact hn
  · rw [← hu]
    unfold State.inWindow State.excLimit
    dsimp only
    rw [State.fld_setFld_other _ _ _ _ (reg_ne (regNo_POS_CHc_RES c) (regNo_POS_CHc_STAT c)),
      State.fld_setFld_other _ _ _ _ (reg_ne (regNo_POS_CHc_RES c) (regNo_POS_CHc_STAT c))]
    exact hw
  · rw [e1, e2]
    exact hd

/-- The first pair of a SIN/COS channel, in its amplitude window, moves the counter to the angle. -/
theorem sincosPair_runs : ∀ (c : Fin 2) (v w : Int) (n : Nat) (s : State), s.chRuns c 2 = true → (s.ch c).quadrant = none → s.stale c n = false →
    s.inWindow c v w = true → 1 ≤ (s.ch c).inRun ∨ (s.ch c).delivers = true ∨ s.chState c = chTrack →
    Does (.sincosPair c v w n) s fun t => t.cnt c = (s.sincosAngle c (Num.atan2 (volts v) (volts w))).toNat / 256 := by
  intro c v w n s h hq hn hw hd
  refine ⟨_, exec_sincosPair.trans rfl, ?_⟩
  dsimp only
  rw [h, if_pos rfl]
  rw [State.quadrantTo_first (s.at n) c _ hq]
  dsimp only
  rw [if_pos rfl]
  generalize hu : (s.at n).setCh c _ = u
  have e : (u.ch c).inRun = (s.ch c).inRun ∧ (u.ch c).delivers = (s.ch c).delivers ∧ (u.ch c).periods = (s.ch c).periods ∧
      (u.ch c).last = (s.ch c).last ∧ (u.ch c).fresh = (s.ch c).fresh := by
    rw [← hu, State.ch_setCh, if_pos rfl]
    exact ⟨rfl, rfl, rfl, rfl, rfl⟩
  have hst : u.chState c = s.chState c := by rw [← hu]; rfl
  have hl : u.lines c = s.lines c := by rw [← hu]; rfl
  have hin : u.inWindow c v w = true := by rw [← hu]; exact hw
  have hsn : u.stale c n = false := by
    unfold State.stale
    rw [e.2.2.2.1, e.2.2.2.2, hst]
    exact hn
  refine (u.pairIn_cnt c v w _ n hsn hin (by rw [e.1, e.2.1, hst]; exact hd)).trans ?_
  unfold State.sincosAngle
  rw [e.2.2.1, hl]

/-- A valid SSI frame whose measurement is later than the last update moves the counter to its angle. -/
theorem ssiFrame_runs : ∀ (c : Fin 2) (b n st : Nat) (s : State), (s.ch c).ssiStart = some st → s.chRuns c 6 = true → s.stale c (st - s.lat c) = false →
    s.on (Reg.POS_CHc_SSI c) Fld.POS_CHc_SSI.ERREN = false ∨ b % 2 = 0 → Does (.ssiFrame c b n) s fun t =>
      t.cnt c = (s.ssiAngle c b).toNat / 256 ∧
      t.fld (Reg.POS_CHc_ERR c) Fld.POS_CHc_ERR.CRCERR = s.fld (Reg.POS_CHc_ERR c) Fld.POS_CHc_ERR.CRCERR := by
  intro c b n st s h hr hn he
  refine ⟨_, exec_ssiFrame.trans rfl, ?_⟩
  rw [h]
  dsimp only
  rw [hr, if_pos rfl]
  generalize hu : (s.at (max n (st + s.ssiLength c))).setCh c _ = u
  have hcl : (u.ch c).last = (s.ch c).last ∧ (u.ch c).fresh = (s.ch c).fresh := by
    rw [← hu, State.ch_setCh, if_pos rfl]
    exact ⟨rfl, rfl⟩
  have hst : u.chState c = s.chState c := by rw [← hu]; rfl
  have hla : u.lat c = s.lat c := by rw [← hu]; rfl
  have h1 : u.on (Reg.POS_CHc_SSI c) Fld.POS_CHc_SSI.ERREN = s.on (Reg.POS_CHc_SSI c) Fld.POS_CHc_SSI.ERREN := by rw [← hu]; rfl
  have h2 : u.ssiAngle c b = s.ssiAngle c b := by rw [← hu]; rfl
  have h3 : u.fld (Reg.POS_CHc_ERR c) Fld.POS_CHc_ERR.CRCERR = s.fld (Reg.POS_CHc_ERR c) Fld.POS_CHc_ERR.CRCERR := by rw [← hu]; rfl
  rw [h1, if_neg (by rcases he with he | he <;> simp [he])]
  unfold State.frameGood
  refine ⟨?_, ?_⟩
  · rw [State.measuredAbs_cnt, h2]
    rw [hla]
    unfold State.stale
    rw [State.ch_setCh, if_pos rfl]
    rw [show (u.setCh c { u.ch c with frameAt := u.now }).chState c = u.chState c from rfl, hst]
    dsimp only
    rw [hcl.1, hcl.2]
    exact hn
  · rw [State.measuredAbs_frame.fld (regNo_POS_CHc_ERR c), ← h3]
    rfl

/-! ### Export of the ledger -/

/-- A request while the ROM has stopped: the units from the named one up to the head go out, four frames of 8 bytes each. -/
theorem ledgerExportRequest_runs : ∀ (b0 b1 b2 b3 : Byte) (u : Nat) (s : State), s.exporting = true →
    u = b0.toNat + 256 * b1.toNat + 65536 * b2.toNat + 16777216 * b3.toNat → u < logUnits →
    Does (.ledgerExportRequest 0x7E0 [0x4C, 0x47, b0, b1, b2, b3]) s fun t =>
      t.led.export_ = ((List.range (4 * ((s.head + logUnits - u) % logUnits))).map fun i =>
        s.bytes (logAddr ((u + i / 4) % logUnits) + 8 * (i % 4)) 8) ∧
      t.on Reg.HLD_STAT Fld.HLD_STAT.EXPORT = decide ((s.head + logUnits - u) % logUnits ≠ 0) ∧ t.led.queue = s.led.queue := by
  intro b0 b1 b2 b3 u s h hu hl
  refine Does.via exec_ledgerExportRequest ?_
  unfold execLedgerExportRequest
  dsimp only
  have e : ([0x4C, 0x47, b0, b1, b2, b3] : List Byte).getD 2 0 = b0 ∧ ([0x4C, 0x47, b0, b1, b2, b3] : List Byte).getD 3 0 = b1 ∧
    ([0x4C, 0x47, b0, b1, b2, b3] : List Byte).getD 4 0 = b2 ∧ ([0x4C, 0x47, b0, b1, b2, b3] : List Byte).getD 5 0 = b3 := ⟨rfl, rfl, rfl, rfl⟩
  rw [e.1, e.2.1, e.2.2.1, e.2.2.2, ← hu, if_neg (by
    have h1 : ¬ logUnits ≤ u := by omega
    simp [h, h1])]
  refine ⟨_, rfl, rfl, ?_, rfl⟩
  generalize hn : (s.head + logUnits - u) % logUnits = n
  generalize hf : (List.range (4 * n)).map (fun i => s.bytes (logAddr ((u + i / 4) % logUnits) + 8 * (i % 4)) 8) = fs
  have hlen : fs.length = 4 * n := by rw [← hf]; simp
  have hb : (!fs.isEmpty) = decide (n ≠ 0) := by
    cases fs with
    | nil =>
      have : n = 0 := by simp at hlen; omega
      simp [this]
    | cons a l =>
      have : n ≠ 0 := by simp at hlen; omega
      simp [this]
  rw [hb]
  unfold State.on
  refine (congrArg (· != 0) (State.fld_setFld _ Reg.HLD_STAT Fld.HLD_STAT.EXPORT _)).trans ?_
  cases decide (n ≠ 0) <;> rfl

/-! ### Received Ethernet frames -/

theorem State.setBytes_regs (bs : List Byte) : ∀ (s : State) (a : Nat), (s.setBytes a bs).regs = s.regs := by
  induction bs with
  | nil => intro s a; rfl
  | cons b bs ih => intro s a; exact ih _ _

theorem State.fabricWords_regs (s : State) (off : Nat) (ws : List Word) : (s.fabricWords off ws).regs = s.regs := by
  rw [State.fabricWords_eq]

theorem State.fabricBytes_regs (s : State) (off : Nat) (bs : List Byte) : (s.fabricBytes off bs).regs = s.regs :=
  State.setBytes_regs bs _ _

/-- A frame that a filter takes: it is counted as dropped where the ring is off or full, else it takes the next slot. -/
theorem ethFrameReceived_runs :
    (∀ (p : Fin 2) (d : List Byte) (n k fc f : Nat) (s : State), s.ethAlive = true → 60 ≤ d.length → d.length ≤ 1518 →
      ((List.range 16).find? fun n => s.ethMatches p n d) = some f → s.fld (Reg.ETH_Pp_FLTf_C p f) Fld.ETH_Pp_FLTf_C.ACT = 1 →
      s.ethRxEn p = false ∨ s.ethRxFree p = 0 → Does (.ethFrameReceived p d true n k fc) s fun t =>
        t.fld (Reg.ETH_Pp_CNT p) Fld.ETH_Pp_CNT.RXDROP = satAdd Fld.ETH_Pp_CNT.RXDROP.width (s.fld (Reg.ETH_Pp_CNT p) Fld.ETH_Pp_CNT.RXDROP) 1 ∧
        t.ethRxIdx p = s.ethRxIdx p) ∧
    (∀ (p : Fin 2) (d : List Byte) (n k fc f : Nat) (s : State), s.ethAlive = true → 60 ≤ d.length → d.length ≤ 1518 →
      ((List.range 16).find? fun n => s.ethMatches p n d) = some f → s.fld (Reg.ETH_Pp_FLTf_C p f) Fld.ETH_Pp_FLTf_C.ACT = 1 →
      s.ethRxEn p = true → s.ethRxFree p ≠ 0 → Does (.ethFrameReceived p d true n k fc) s fun t =>
        t.ethRxIdx p = (if s.ethRxSize p ≤ s.ethRxIdx p + 1 then 0 else (s.ethRxIdx p + 1) % 2 ^ Fld.ETH_Pp_IDX.RX.width) ∧
        t.reg (Reg.ETH_Pp_CNT p) = s.reg (Reg.ETH_Pp_CNT p)) := by
  have key : ∀ (p : Fin 2) (d : List Byte) (n k fc f : Nat) (s : State), s.ethAlive = true → 60 ≤ d.length → d.length ≤ 1518 →
      ((List.range 16).find? fun n => s.ethMatches p n d) = some f → s.fld (Reg.ETH_Pp_FLTf_C p f) Fld.ETH_Pp_FLTf_C.ACT = 1 →
      ∃ st, exec (.ethFrameReceived p d true n k fc) s = .next (s.ethStore p f d st) := by
    intro p d n k fc f s h1 h2 h3 h4 h5
    refine ⟨s.ethStamp n k fc (s.fld (Reg.ETH_Pp_LAT p) Fld.ETH_Pp_LAT.RXLAT), exec_ethFrameReceived.trans ?_⟩
    unfold execEthFrameReceived
    rw [h1, if_neg (by decide), if_neg (by simp [show ¬ d.length < 60 by omega, show ¬ 1518 < d.length by omega])]
    unfold State.ethAccept
    rw [h4]
    dsimp only
    rw [h5, if_neg (by decide), if_neg (by decide)]
  refine ⟨?_, ?_⟩
  · intro p d n k fc f s h1 h2 h3 h4 h5 h6
    obtain ⟨st, e⟩ := key p d n k fc f s h1 h2 h3 h4 h5
    refine ⟨_, e, ?_⟩
    unfold State.ethStore
    rw [if_pos (by rcases h6 with h | h <;> simp [h])]
    unfold State.ethDrop
    extract_lets u x m
    have hu : u.fld (Reg.ETH_Pp_CNT p) Fld.ETH_Pp_CNT.RXDROP = satAdd Fld.ETH_Pp_CNT.RXDROP.width (s.fld (Reg.ETH_Pp_CNT p) Fld.ETH_Pp_CNT.RXDROP) 1 :=
      State.fld_count _ (Reg.ETH_Pp_CNT p) Fld.ETH_Pp_CNT.RXDROP 1
    have hi : u.ethRxIdx p = s.ethRxIdx p := State.fld_setFld_other _ _ _ _ (reg_ne (regNo_ETH_Pp_IDX p) (regNo_ETH_Pp_CNT p))
    clear_value u
    split
    · exact ⟨hu, hi⟩
    · exact ⟨(State.event_frame.fld (regNo_ETH_Pp_CNT p)).trans hu, (State.event_frame.fld (regNo_ETH_Pp_IDX p)).trans hi⟩
  · intro p d n k fc f s h1 h2 h3 h4 h5 h6 h7
    obtain ⟨st, e⟩ := key p d n k fc f s h1 h2 h3 h4 h5
    refine ⟨_, e, ?_⟩
    show (s.ethStore p f d st).ethRxIdx p = _ ∧ (s.ethStore p f d st).reg (Reg.ETH_Pp_CNT p) = s.reg (Reg.ETH_Pp_CNT p)
    unfold State.ethStore
    rw [if_neg (c := (!s.ethRxEn p || s.ethRxFree p == 0) = true) (by simp [h6, h7])]
    unfold State.ethWriteEntry
    rw [if_neg (c := (!s.ethRxEn p) = true) (by simp [h6])]
    extract_lets x kk ph x0 ws w7 a b wrap v
    have hr : b.regs = s.regs := (State.fabricBytes_regs _ _ _).trans (State.fabricWords_regs _ _ _)
    have hsz : b.ethRxSize p = s.ethRxSize p := State.fld_of_regs hr _ _
    have hv : v.ethRxIdx p = (if s.ethRxSize p ≤ s.ethRxIdx p + 1 then 0 else (s.ethRxIdx p + 1) % 2 ^ Fld.ETH_Pp_IDX.RX.width) ∧
        v.reg (Reg.ETH_Pp_CNT p) = s.reg (Reg.ETH_Pp_CNT p) := by
      refine ⟨?_, (State.reg_setReg_other _ _ (reg_ne (regNo_ETH_Pp_CNT p) (regNo_ETH_Pp_IDX p))).trans (by unfold State.reg; rw [hr])⟩
      refine (State.fld_setFld b (Reg.ETH_Pp_IDX p) Fld.ETH_Pp_IDX.RX _).trans ?_
      have hwr : wrap = decide (s.ethRxSize p ≤ s.ethRxIdx p + 1) := by rw [← hsz]
      rw [hwr]
      by_cases hw : s.ethRxSize p ≤ s.ethRxIdx p + 1
      · rw [decide_eq_true hw, if_pos rfl, if_pos hw]
        rfl
      · rw [decide_eq_false hw, if_neg (by decide), if_neg hw]
    clear_value v
    split
    · exact hv
    · exact hv

/-! ### Rotation -/

theorem State.postOverdue_keeps (s : State) : s.postOverdue.bst.pend = s.bst.pend ∧ s.postOverdue.bst.stepAt = s.bst.stepAt ∧
    s.postOverdue.bst.tests = s.bst.tests ∧ (∀ c, s.postOverdue.unit c = s.unit c) ∧
    s.postOverdue.fld Reg.BST_STAT Fld.BST_STAT.NEXT = s.fld Reg.BST_STAT Fld.BST_STAT.NEXT := by
  unfold State.postOverdue
  refine State.foldl_keeps (fun v : State => v.bst.pend = s.bst.pend ∧ v.bst.stepAt = s.bst.stepAt ∧ v.bst.tests = s.bst.tests ∧
    (∀ c, v.unit c = s.unit c) ∧ v.fld Reg.BST_STAT Fld.BST_STAT.NEXT = s.fld Reg.BST_STAT Fld.BST_STAT.NEXT) _ ?_ _ s
    ⟨rfl, rfl, rfl, fun _ => rfl, rfl⟩
  intro v u hv
  split
  · exact hv
  · have hb : ∀ w : State, ∀ e : Ev, (w.event e).bst = w.bst := fun w e => State.event_frame.bst (by decide)
    simp only [hb]
    exact ⟨hv.1, hv.2.1, hv.2.2.1, fun c => (State.event_frame.unit c).trans (hv.2.2.2.1 c),
      (State.event_frame.fld regNo_BST_STAT).trans hv.2.2.2.2⟩

theorem State.condOk_of {s t : State} (h1 : t.reg Reg.BST_COND = s.reg Reg.BST_COND) (h2 : t.reg Reg.CLK_STAT = s.reg Reg.CLK_STAT) :
    t.condOk = s.condOk := by
  unfold State.condOk State.condWord State.fabricLocked State.on State.fld
  rw [h1, h2]

/-- Steps that have been tried: the overdue entries and PEND change nothing else of the rotation. -/
theorem State.runSteps_keeps {s u : State} (h : s.startSteps 61 = u) : s.runSteps.bst.pend = u.bst.pend ∧
    s.runSteps.bst.stepAt = u.bst.stepAt ∧ s.runSteps.bst.tests = u.bst.tests ∧ (∀ c, s.runSteps.unit c = u.unit c) ∧
    s.runSteps.fld Reg.BST_STAT Fld.BST_STAT.NEXT = u.fld Reg.BST_STAT Fld.BST_STAT.NEXT ∧
    s.runSteps.fld Reg.BST_STAT Fld.BST_STAT.PEND = (!u.bst.pend.isEmpty).toNat := by
  unfold State.runSteps
  rw [h]
  obtain ⟨h1, h2, h3, h4, h5⟩ := u.postOverdue_keeps
  generalize u.postOverdue = v at h1 h2 h3 h4 h5 ⊢
  unfold State.showPend
  refine ⟨h1, h2, h3, fun c => ?_, ?_, ?_⟩
  · exact (State.fld_setFld_other _ _ _ _ (reg_ne (regNo_BST_Uu c) regNo_BST_STAT)).trans (h4 c)
  · exact (State.fld_setFld_field _ _ (f := Fld.BST_STAT.PEND) (g := Fld.BST_STAT.NEXT) _ (by decide)).trans h5
  · refine (State.fld_setFld v Reg.BST_STAT Fld.BST_STAT.PEND _).trans ?_
    rw [h1]
    cases (!u.bst.pend.isEmpty) <;> rfl

/-- A rotation step that is due while a condition of the tests fails becomes pending. -/
theorem rotationStep_runs : ∀ (n c : Nat) (s : State), (s.at n).rotating = true → (s.at n).inRun = true →
    s.bst.stepAt + (s.at n).interval ≤ (s.at n).runTime → s.bst.pend = [] →
    s.nextUnit (s.fld Reg.BST_STAT Fld.BST_STAT.NEXT) = some c → s.unit c ≠ unitFailed → s.unit c ≠ unitRetired → s.condOk = false →
    Does (.rotationStep n) s fun t => t.bst.pend = [c] ∧ t.fld Reg.BST_STAT Fld.BST_STAT.PEND = 1 ∧
      t.bst.stepAt = s.bst.stepAt + (s.at n).interval ∧
      t.fld Reg.BST_STAT Fld.BST_STAT.NEXT = ((s.nextUnit (c + 1)).getD c) % 2 ^ Fld.BST_STAT.NEXT.width := by
  intro n c s h1 h2 h3 h4 h5 h6 h7 h8
  refine Does.via exec_rotationStep ?_
  unfold execRotationStep
  dsimp only
  rw [if_neg (by
    have h3' : ¬ (s.at n).runTime < s.bst.stepAt + (s.at n).interval := Nat.not_lt.mpr h3
    simp [h1, h2, h3'])]
  have h5' : (s.at n).nextUnit ((s.at n).fld Reg.BST_STAT Fld.BST_STAT.NEXT) = some c := h5
  rw [h5']
  refine ⟨_, rfl, ?_⟩
  generalize hi : (s.at n).interval = iv
  generalize hw : ({ s.at n with bst.stepAt := (s.at n).bst.stepAt + iv, bst.pend := (s.at n).bst.pend ++ [c] } : State) = w
  have hwr : w.regs = s.regs := by rw [← hw]; rfl
  have hwn : (w.nextUnit (c + 1)).getD c = (s.nextUnit (c + 1)).getD c := by rw [← hw]; rfl
  have hwp : w.bst.pend = [c] := by rw [← hw]; exact (congrArg (· ++ [c]) h4 : s.bst.pend ++ [c] = [] ++ [c])
  have hws : w.bst.stepAt = s.bst.stepAt + iv := by rw [← hw]; rfl
  generalize hv : w.setFld Reg.BST_STAT Fld.BST_STAT.NEXT _ = v
  have hvn : v.fld Reg.BST_STAT Fld.BST_STAT.NEXT = ((s.nextUnit (c + 1)).getD c) % 2 ^ Fld.BST_STAT.NEXT.width := by
    rw [← hv]
    refine (State.fld_setFld w Reg.BST_STAT Fld.BST_STAT.NEXT _).trans ?_
    rw [hwn]
  have hvb : v.bst = w.bst := by rw [← hv]; rfl
  have hvo : ∀ a, a ≠ Reg.BST_STAT → v.reg a = s.reg a := by
    intro a ha
    rw [← hv]
    refine (State.reg_setReg_other _ _ ha).trans ?_
    unfold State.reg
    rw [hwr]
  have hvu : v.unit c = s.unit c := congrArg Fld.BST_Uu.STATE.of (hvo _ (reg_ne (regNo_BST_Uu c) regNo_BST_STAT))
  have hvc : v.condOk = false := (State.condOk_of (hvo _ (by decide)) (hvo _ (by decide))).trans h8
  have hst : v.startSteps 61 = v := by
    unfold State.startSteps
    rw [hvb, hwp]
    dsimp only
    rw [if_neg (by rw [hvu]; simp [h6, h7]), if_neg (by simp [hvc])]
  obtain ⟨k1, k2, -, -, k5, k6⟩ := State.runSteps_keeps hst
  refine ⟨k1.trans (by rw [hvb, hwp]), k6.trans (by rw [hvb, hwp]; rfl), k2.trans (by rw [hvb, hws]), k5.trans hvn⟩

/-- A pending step on a free spare whose test may run starts it. -/
theorem rotationRetry_runs : ∀ (n c : Nat) (s : State), (s.at n).rotating = true → (s.at n).inRun = true → s.bst.pend = [c] →
    homeSpare c = true → s.unit c = unitFree → s.condOk = true → s.testable c = true →
    Does (.rotationRetry n) s fun t => t.unit c = unitTest ∧ t.bst.pend = [] ∧ t.fld Reg.BST_STAT Fld.BST_STAT.PEND = 0 ∧
      t.bst.tests = s.bst.tests ++ [⟨c, 3, 0, unitFree, false⟩] := by
  intro n c s h1 h2 h3 h4 h5 h6 h7
  refine ⟨_, exec_rotationRetry.trans rfl, ?_⟩
  dsimp only
  rw [if_pos (by simp [h1, h2])]
  generalize hu : ({ s.at n with bst.pend := [] } : State) = u
  have hst : (s.at n).startSteps 61 = (u.isolate ⟨c, 3, 0, unitFree, false⟩) ∧ (u.isolate ⟨c, 3, 0, unitFree, false⟩).bst.pend = [] := by
    have hp : (u.isolate ⟨c, 3, 0, unitFree, false⟩).bst.pend = [] := by
      unfold State.isolate
      dsimp only
      rw [if_pos h4, State.showSpare_frame.bst (by decide),
        show u.takeOut ⟨c, 3, 0, unitFree, false⟩ = u from if_neg (fun h => absurd (h.1 : (0 : Nat) = 1) (by decide))]
      unfold State.beginTest
      dsimp only
      rw [State.setActive_frame.bst (by decide), State.setUnit_frame.bst (by decide), ← hu]
    refine ⟨?_, hp⟩
    have e1 : (s.at n).bst.pend = [c] := h3
    have e2 : (s.at n).unit c = unitFree := h5
    have e3 : (s.at n).condOk = true := h6
    have e4 : (s.at n).testable c = true := h7
    have e5 : u.unit c = unitFree := by rw [← hu]; exact h5
    have e6 : u.startTest c 3 0 = u.isolate ⟨c, 3, 0, unitFree, false⟩ := by
      unfold State.startTest
      rw [e5]
      rfl
    unfold State.startSteps
    rw [e1]
    dsimp only
    rw [e2, if_neg (by decide), e3, e4, if_pos (by decide), hu, e6]
    unfold State.startSteps
    rw [hp]
  obtain ⟨k1, -, k3, k4, -, k6⟩ := State.runSteps_keeps hst.1
  obtain ⟨j1, j2, -⟩ := u.isolate_effect ⟨c, 3, 0, unitFree, false⟩
  refine ⟨(k4 c).trans j1, k1.trans hst.2, k6.trans (by rw [hst.2]; rfl), (k3.trans j2).trans ?_⟩
  rw [← hu]
  rfl

/-! ### The tick counter -/

/-- A load of CLK_TICKCNT_HI gives the upper bits that a read of CLK_TICKCNT_LO has copied. -/
theorem tickcntHi_read : ∀ (c : Fin 2) (v : Word) (b : Bool) (e : Fin 3) (f : Option Word) (s : State),
    Does (.coreMemoryAccess c .load 2 (BitVec.ofNat 32 Reg.CLK_TICKCNT_HI) v b e f) s fun t =>
      t.bus = .value (s.reg Reg.CLK_TICKCNT_HI) ∧ t.regs = s.regs := by
  intro c v b e f s
  refine ⟨_, exec_coreMemoryAccess.trans rfl, ?_⟩
  have ha : (BitVec.ofNat 32 Reg.CLK_TICKCNT_HI).toNat = Reg.CLK_TICKCNT_HI := by decide
  rw [ha]
  unfold State.access
  rw [if_neg (by decide)]
  dsimp only
  unfold State.coreLoad
  rw [if_neg (by decide), if_neg (by decide), if_neg (by decide), if_neg (by decide)]
  unfold State.readWord
  rw [if_neg (by decide), if_pos (by decide)]
  unfold State.busRead
  rw [show elemOf Reg.CLK_TICKCNT_HI (Reg.HIC_IRQc_CLAIM 0) 0x10 2 = none by decide,
    show elemOf Reg.CLK_TICKCNT_HI (Reg.HIC_SEMn 0) 4 16 = none by decide]
  dsimp only
  have hv : s.view Reg.CLK_TICKCNT_HI = s.reg Reg.CLK_TICKCNT_HI := by
    unfold State.view
    rw [show (regAt Reg.CLK_TICKCNT_HI).isNone = false by decide +kernel, if_neg (by decide)]
    dsimp only
    rw [if_neg (by decide), if_pos (by decide)]
    unfold State.viewClk
    rw [if_neg (by decide), if_neg (by decide)]
  have hh : s.holdUpper Reg.CLK_TICKCNT_HI = s := by
    unfold State.holdUpper
    rw [if_neg (by decide), if_neg (by decide), if_neg (by decide), if_neg (by decide), if_neg (by decide)]
  unfold State.readReg
  dsimp only
  rw [hv, hh]
  exact ⟨rfl, rfl⟩

/-- Between device resets the tick counter moves at boundaries alone. -/
theorem tick_moves (c : Instr) (s t : State) (h : exec c s = .next t) (h1 : ∀ f, c ≠ .tickBoundary f) (h2 : ∀ n, c ≠ .resetRelease n) :
    t.tick = s.tick := by
  have hk : (Foot.ofCmd c).testBit bit_tick = false := by
    cases c
    case tickBoundary f => exact absurd rfl (h1 f)
    case resetRelease n => exact absurd rfl (h2 n)
    all_goals (dsimp only [Foot.ofCmd]; decide)
  have hf := exec_frame c s
  rw [h] at hf
  exact Frame.tick hf hk

end Sys2Proof.Machine
end

