-- ==== Sys2Proof/Laws/Kept.lean ====
section
/-! SUPPORT. Frames in the terms of the statements: a mask within a list of parts keeps every part outside the list. -/

set_option Elab.async false

namespace Sys2Proof.Machine

/-- The bit of a part in a mask. -/
def Part.bit : Part → Nat
  | .reg n => if n ≤ 406 then n else 451
  | .now => bit_now
  | .t0 => bit_t0
  | .prevLen => bit_prevLen
  | .tick => bit_tick
  | .clk => bit_clk
  | .vt => bit_vt
  | .sqs => bit_sqs
  | .rings => bit_rings
  | .staged => bit_staged
  | .posting => bit_posting
  | .cmdRest => bit_cmdRest
  | .faults => bit_faults
  | .led => bit_led
  | .dlink => bit_dlink
  | .prot => bit_prot
  | .tbs => bit_tbs
  | .pairs => bit_pairs
  | .pwmRest => bit_pwmRest
  | .dis => bit_dis
  | .acq => bit_acq
  | .pos => bit_pos
  | .fldc => bit_fldc
  | .wgh => bit_wgh
  | .isk => bit_isk
  | .thm => bit_thm
  | .can => bit_can
  | .eth => bit_eth
  | .hic => bit_hic
  | .pwr => bit_pwr
  | .eng => bit_eng
  | .image => bit_image
  | .bst => bit_bst
  | .chk => bit_chk
  | .batch => bit_batch
  | .bus => bit_bus
  | .free => bit_free
  | .board => bit_board
  | .sram => bit_sram
  | .page => bit_page
  | .records => bit_records
  | .recipe => bit_recipe
  | .table => bit_table
  | .store => bit_store

/-- The mask of a list of parts. -/
def maskOf : List Part → Nat
  | [] => 0
  | p :: ps => 2 ^ p.bit ||| maskOf ps

/-- A mask lies within the parts of a list, the findings of a command apart. -/
abbrev Covered (K : Nat) (ps : List Part) : Prop := Within K (maskOf ps ||| 2 ^ bit_open)

theorem regNo_le (a : Nat) : regNo a ≤ 406 := by
  have h1 : ∀ u, regStart u + (regsOfUnit u).length ≤ 406 := by
    intro u
    by_cases h : u < 22
    · exact (by decide +kernel : ∀ v : Fin 22, regStart v + (regsOfUnit v).length ≤ 406) ⟨u, h⟩
    · match u, h with
      | n + 22, _ => exact Nat.le_refl 406
  exact Nat.le_trans (Nat.add_le_add_left (regPos_le _ _) _) (h1 _)

theorem Part.bit_of_reg (n : Nat) : (Part.reg n).bit = if n ≤ 406 then n else 451 := rfl

theorem Part.bit_reg {n : Nat} {p : Part} (hn : n ≤ 406) (h : p.bit = n) : p = .reg n := by
  cases p with
  | reg m =>
    rw [Part.bit_of_reg] at h
    by_cases hm : m ≤ 406
    · rw [if_pos hm] at h; rw [h]
    · rw [if_neg hm] at h; omega
  | _ => rw [← h] at hn; exact absurd hn (by decide)

theorem Part.bit_inj {p q : Part} (hq : ∀ n, q ≠ .reg n) (h : p.bit = q.bit) : p = q := by
  cases q with
  | reg n => exact absurd rfl (hq n)
  | _ =>
    cases p with
    | reg m =>
      rw [Part.bit_of_reg] at h
      by_cases hm : m ≤ 406
      · rw [if_pos hm] at h; rw [h] at hm; exact absurd hm (by decide)
      · rw [if_neg hm] at h; exact absurd h (by decide)
    | _ => first | rfl | exact absurd h (by decide)

theorem testBit_maskOf {ps : List Part} {k : Nat} (h : (maskOf ps).testBit k = true) : ∃ p, p ∈ ps ∧ p.bit = k := by
  induction ps with
  | nil => simp [maskOf] at h
  | cons p ps ih =>
    simp only [maskOf, Nat.testBit_or, Bool.or_eq_true, Nat.testBit_two_pow, decide_eq_true_eq] at h
    rcases h with h | h
    · exact ⟨p, List.mem_cons_self, h⟩
    · obtain ⟨q, hq, e⟩ := ih h
      exact ⟨q, List.mem_cons_of_mem _ hq, e⟩

theorem Covered.mem {K k : Nat} {ps : List Part} (h : Covered K ps) (hk : K.testBit k = true) (h1 : k ≠ bit_open) :
    ∃ p, p ∈ ps ∧ p.bit = k := by
  have h2 := Within.bit h hk
  rw [Nat.testBit_or, Bool.or_eq_true] at h2
  rcases h2 with h2 | h2
  · exact testBit_maskOf h2
  · rw [Nat.testBit_two_pow, decide_eq_true_eq] at h2
    exact absurd h2.symm h1

theorem Covered.no {K : Nat} {ps : List Part} {p : Part} (h : Covered K ps) (hp : p ∉ ps) (hr : ∀ n, p ≠ .reg n)
    (h1 : p.bit ≠ bit_open) : K.testBit p.bit = false := by
  cases hk : K.testBit p.bit with
  | false => rfl
  | true =>
    obtain ⟨q, hq, e⟩ := h.mem hk h1
    rw [Part.bit_inj hr e] at hq
    exact absurd hq hp

theorem Covered.noReg {K a : Nat} {ps : List Part} (h : Covered K ps) (hp : Part.reg (regNo a) ∉ ps) :
    K.testBit (regNo a) = false := by
  cases hk : K.testBit (regNo a) with
  | false => rfl
  | true =>
    have hle := regNo_le a
    obtain ⟨q, hq, e⟩ := h.mem hk (show regNo a ≠ 450 by omega)
    rw [Part.bit_reg hle e] at hq
    exact absurd hq hp

/-- What a mask leaves, said by the parts. -/
theorem Frame.kept {K : Nat} {ps : List Part} {s t : State} (h : Frame K s t) (hc : Covered K ps) : Kept ps s t := by
  refine ⟨fun p hp => ?_, fun a ha => ?_, h.pending⟩
  · cases p with
    | reg n =>
      intro a e
      subst e
      exact h.regs a (hc.noReg hp)
    | now => exact h.now (hc.no hp (fun _ e => nomatch e) (by decide))
    | t0 => exact h.t0 (hc.no hp (fun _ e => nomatch e) (by decide))
    | prevLen => exact h.prevLen (hc.no hp (fun _ e => nomatch e) (by decide))
    | tick => exact h.tick (hc.no hp (fun _ e => nomatch e) (by decide))
    | clk => exact h.clk (hc.no hp (fun _ e => nomatch e) (by decide))
    | vt => exact h.vt (hc.no hp (fun _ e => nomatch e) (by decide))
    | sqs => exact h.sqs (hc.no hp (fun _ e => nomatch e) (by decide))
    | rings => exact h.rings (hc.no hp (fun _ e => nomatch e) (by decide))
    | staged => exact h.staged (hc.no hp (fun _ e => nomatch e) (by decide))
    | posting => exact h.posting (hc.no hp (fun _ e => nomatch e) (by decide))
    | cmdRest => exact h.cmdRest (hc.no hp (fun _ e => nomatch e) (by decide))
    | faults => exact h.faults (hc.no hp (fun _ e => nomatch e) (by decide))
    | led => exact h.led (hc.no hp (fun _ e => nomatch e) (by decide))
    | dlink => exact h.dlink (hc.no hp (fun _ e => nomatch e) (by decide))
    | prot => exact h.prot (hc.no hp (fun _ e => nomatch e) (by decide))
    | tbs => exact h.tbs (hc.no hp (fun _ e => nomatch e) (by decide))
    | pairs => exact h.pairs (hc.no hp (fun _ e => nomatch e) (by decide))
    | pwmRest => exact h.pwmRest (hc.no hp (fun _ e => nomatch e) (by decide))
    | dis => exact h.dis (hc.no hp (fun _ e => nomatch e) (by decide))
    | acq => exact h.acq (hc.no hp (fun _ e => nomatch e) (by decide))
    | pos => exact h.pos (hc.no hp (fun _ e => nomatch e) (by decide))
    | fldc => exact h.fldc (hc.no hp (fun _ e => nomatch e) (by decide))
    | wgh => exact h.wgh (hc.no hp (fun _ e => nomatch e) (by decide))
    | isk => exact h.isk (hc.no hp (fun _ e => nomatch e) (by decide))
    | thm => exact h.thm (hc.no hp (fun _ e => nomatch e) (by decide))
    | can => exact h.can (hc.no hp (fun _ e => nomatch e) (by decide))
    | eth => exact h.eth (hc.no hp (fun _ e => nomatch e) (by decide))
    | hic => exact h.hic (hc.no hp (fun _ e => nomatch e) (by decide))
    | pwr => exact h.pwr (hc.no hp (fun _ e => nomatch e) (by decide))
    | eng => exact h.eng (hc.no hp (fun _ e => nomatch e) (by decide))
    | image => exact h.image (hc.no hp (fun _ e => nomatch e) (by decide))
    | bst => exact h.bst (hc.no hp (fun _ e => nomatch e) (by decide))
    | chk => exact h.chk (hc.no hp (fun _ e => nomatch e) (by decide))
    | batch => exact h.batch (hc.no hp (fun _ e => nomatch e) (by decide))
    | bus => exact h.bus (hc.no hp (fun _ e => nomatch e) (by decide))
    | free => exact h.free (hc.no hp (fun _ e => nomatch e) (by decide))
    | board => exact h.board (hc.no hp (fun _ e => nomatch e) (by decide))
    | _ => exact True.intro
  · have area : ∀ p : Part, (∀ q : Part, q.bit = p.bit → q = p) → K.testBit p.bit = true → p.bit ≠ bit_open →
        ¬ p.area s a := by
      intro p hi hk h1
      obtain ⟨q, hq, e⟩ := hc.mem hk h1
      have := ha q hq
      rwa [hi q e] at this
    exact h.mem a {
      sram := fun hk => area .sram (fun q e => Part.bit_inj (fun _ h => nomatch h) e) hk (by decide)
      page := fun hk => area .page (fun q e => Part.bit_inj (fun _ h => nomatch h) e) hk (by decide)
      records := fun hk => area .records (fun q e => Part.bit_inj (fun _ h => nomatch h) e) hk (by decide)
      recipe := fun hk => area .recipe (fun q e => Part.bit_inj (fun _ h => nomatch h) e) hk (by decide)
      table := fun hk => area .table (fun q e => Part.bit_inj (fun _ h => nomatch h) e) hk (by decide)
      store := fun hk => area .store (fun q e => Part.bit_inj (fun _ h => nomatch h) e) hk (by decide) }

/-- The mask of each command lies within its parts. -/
theorem covered_ofCmd (c : Instr) : Covered (Foot.ofCmd c) (touches c) := by
  cases c <;> simp only [Foot.ofCmd, touches] <;> decide +kernel

end Sys2Proof.Machine
end

