-- ==== Sys2Proof/WellFormed.lean ====
section
/-! DEFINITION. Well-formed commands: every operand lies in the range of what it stands for. -/

set_option Elab.async false

namespace Sys2Proof

/-- A descriptor's place: slot, epoch, SEQ and CARAVAN_ID in the widths of Table CMD-13 and R36. -/
def Origin.wf (o : Origin) : Bool :=
  decide (o.slot < 4096) && decide (o.epoch < 256) && decide (o.seq < 65536) && decide (o.caravanId < 65536)

/-- One of the 256 bindings (R106). -/
def BankFlip.wf (f : BankFlip) : Bool := decide (f.bind < 256)

/-- Words of a stall, or an output slot (Table ENG-1). -/
def Upset.wf (u : Upset) : Bool := decide (u.addr < 0x1000)

/-- A header of 256 bytes (R490). -/
def FlashSlot.wf (f : FlashSlot) : Bool := decide (f.header.length = 256)

/-- Values of one byte each. -/
def bytesOk (bs : List Nat) : Bool := bs.all fun b => decide (b < 256)

/-- The operands of a command are in range. -/
def Instr.wf (i : Instr) : Bool :=
  match i with
  | .sqDoorbellWrite _ _ => true
  | .cqConsumerIndexWrite _ _ => true
  | .eqConsumerIndexWrite _ => true
  | .eqOverflow => true
  | .fetchSlot _ => true
  | .caravanCutoff => true
  | .caravanApplication => true
  | .stoppedTickApplication => true
  | .completionPosting => true
  | .nop o _ => o.wf
  | .regWrite o _ _ _ _ _ => o.wf
  | .regRead o _ _ _ => o.wf
  | .paramWrite o _ _ _ _ _ => o.wf
  | .tableLoad o _ _ _ _ => o.wf
  | .stallStart o _ _ => o.wf
  | .stallStop o _ => o.wf
  | .setpoint o _ _ _ _ _ => o.wf
  | .scheduleSelect o _ => o.wf
  | .outputEnable o _ => o.wf
  | .outputDisable o _ => o.wf
  | .carrierSet o _ _ => o.wf
  | .loadAll o _ => o.wf
  | .tripClear o _ _ => o.wf
  | .safeRequest o _ _ => o.wf
  | .driveEnable o _ => o.wf
  | .discharge o _ _ _ => o.wf
  | .modeSet o _ _ _ => o.wf
  | .angleEvent o _ _ _ => o.wf
  | .channelReadmit o _ => o.wf
  | .bistRequest o _ _ => o.wf
  | .unitReadmit o _ => o.wf
  | .lcsToken o _ _ => o.wf
  | .holdupCheck o => o.wf
  | .ledgerNote o _ _ _ _ => o.wf
  | .tickRealign o => o.wf
  | .powerState o _ => o.wf
  | .scanStart o _ => o.wf
  | .resume _ => true
  | .flush _ => true
  | .flushRecordPost _ => true
  | .clrcnt _ => true
  | .sqEnable _ _ => true
  | .ringDisable _ _ => true
  | .cqEqEnable _ _ => true
  | .evtAck => true
  | .setupLock => true
  | .imageSealed => true
  | .f2Clear => true
  | .tickBoundary flips => flips.all BankFlip.wf
  | .windowFreeze => true
  | .signalPublish _ _ _ => true
  | .engineStart upsets _ mismatch lost => upsets.all Upset.wf && decide (mismatch < 16) && decide (lost < 16)
  | .votePhase copies _ => copies.all fun n => decide (n ≤ 384)
  | .holdExpiry => true
  | .shadowWatchEnd => true
  | .engineDeadline => true
  | .stateScrub => true
  | .outputTransfer flips => flips.all BankFlip.wf
  | .engRunSet _ => true
  | .engBindWrite _ _ => true
  | .timebaseRun _ _ => true
  | .ldallWrite _ => true
  | .timebaseZero _ m => decide (m < 4)
  | .halfPeriodPoint _ => true
  | .delayLineCalibrated _ => true
  | .gateReadbackFail _ => true
  | .tripFilterActive named raw _ _ => decide (named < 2 ^ 16) && decide (raw < 2 ^ 16)
  | .tripFilterInactive named raw _ _ => decide (named < 2 ^ 16) && decide (raw < 2 ^ 16)
  | .comparatorCrossing _ _ _ _ => true
  | .safeReadbackFail _ _ => true
  | .acqRunWrite => true
  | .sarConversionDone _ _ _ _ _ _ _ _ => true
  | .spareShadowEnd _ => true
  | .urgentRequest _ _ => true
  | .urgentConversionDone _ _ _ _ => true
  | .comparatorTestStep _ _ => true
  | .dsSincOutput _ => true
  | .resolverPair _ _ _ _ _ => true
  | .sincosPair _ _ _ _ => true
  | .posEdgeAccepted _ _ _ _ => true
  | .posGlitch _ _ => true
  | .sentFrame _ _ status nibbles crc _ _ _ =>
      decide (status < 16) && nibbles.all (fun n => decide (n < 16)) && decide (crc < 16)
  | .ssiFrameStart _ _ => true
  | .ssiFrame _ bits _ => decide (bits < 2 ^ 32)
  | .frameTimeout _ _ => true
  | .coastExpired _ _ => true
  | .excFault _ _ => true
  | .sensvFault _ _ _ => true
  | .sensvEnable _ => true
  | .wrapClear _ => true
  | .angleEventArm _ _ => true
  | .angleEventFire _ _ => true
  | .sixstepCrossing _ _ => true
  | .watchEnd _ _ => true
  | .waitEnd _ _ => true
  | .catchEnd _ => true
  | .wghSelftest _ _ => true
  | .wghEnable _ _ => true
  | .dischargeProgressCheck => true
  | .dischargeDeadline => true
  | .iskLinkEnable _ _ => true
  | .iskEdgePlanSend _ => true
  | .iskCollectionSend _ => true
  | .iskCollectionJudge _ slots _ => slots.all bytesOk
  | .iskEnumeration _ back _ => back.all fun b => decide (b < 256)
  | .iskIdleHeartbeat _ _ => true
  | .isk1Broadcast _ => true
  | .isk1Poll _ reply _ => reply.all bytesOk
  | .referenceLost => true
  | .referenceReturn _ _ _ => true
  | .holdoverTimeout => true
  | .pllFilterCheck _ _ _ => true
  | .pllLockDeclared _ _ => true
  | .pllUnlock _ _ => true
  | .pllFail _ _ _ => true
  | .pllQuarantineEnd _ _ => true
  | .pllProgramWrite _ _ _ => true
  | .tickInEdge _ => true
  | .tickInMissing => true
  | .rtcSourceSwitch => true
  | .tickcntLoRead => true
  | .rtcLoRead => true
  | .mtimeLoRead => true
  | .canTxDoorbell _ _ => true
  | .canRxConsumerWrite _ _ => true
  | .canTxFetch _ => true
  | .canTxresume _ => true
  | .canTxflush _ => true
  | .canInitSet _ _ => true
  | .canInitClear _ _ => true
  | .canFrameSent _ _ _ _ => true
  | .canFrameReceived _ _ _ _ _ data _ _ => decide (data.length ≤ 64)
  | .canRateCandidateSwitch _ => true
  | .canErrorStateChange _ _ _ _ => true
  | .canBusRecovered _ => true
  | .canTxExpired _ _ => true
  | .canTtCycleStart _ _ => true
  | .canTtColumn _ _ => true
  | .canTtWindowEnd _ _ => true
  | .canUnitFailure _ _ => true
  | .canSpareSwitchIn _ => true
  | .canShadowEnd _ _ => true
  | .ethTxDoorbell _ _ => true
  | .ethRxConsumerWrite _ _ => true
  | .ethTxFetch _ => true
  | .ethTxresume _ => true
  | .ethTxflush _ => true
  | .ethTxFrameSent _ _ _ _ => true
  | .ethTxExpired _ _ => true
  | .ethFrameReceived _ data _ _ _ _ => decide (data.length ≤ 2048)
  | .ethVtRateWrite _ => true
  | .ethVtStep _ => true
  | .ethVtSet => true
  | .vtTimeout => true
  | .ethTvtTickRead => true
  | .ethMdioCommand _ => true
  | .ethMdioDone _ => true
  | .ethPhyInterrupt => true
  | .ethLinkChange _ _ => true
  | .plcaBeaconLoss => true
  | .plcaBeaconReturn => true
  | .core1Start => true
  | .cacheInvalidate _ _ _ => true
  | .irqClaim _ => true
  | .irqComplete _ _ => true
  | .semRead _ _ => true
  | .semFree _ _ _ => true
  | .wdogEnable _ _ => true
  | .wdogService _ _ _ _ => true
  | .wdogPrewarning _ => true
  | .wdogClose _ _ => true
  | .wdogReset _ => true
  | .xspCommand _ => true
  | .xspCommandDone data => decide (data.length ≤ 256)
  | .xspReadTimeout _ _ => true
  | .gpioEdge _ _ => true
  | .bootOk => true
  | .bootCommit => true
  | .chkAlgWrite _ _ => true
  | .chkSeedWrite _ _ => true
  | .chkDataWrite _ _ => true
  | .chkDatabWrite _ _ => true
  | .chkResultRead _ => true
  | .scanPeriodStart _ => true
  | .scanGo _ => true
  | .scanTargetDone _ _ _ => true
  | .rotationStep _ => true
  | .rotationRetry _ => true
  | .bistComplete _ _ _ => true
  | .bistAbort _ => true
  | .quarantineEnd _ _ => true
  | .sramRowRepair _ _ _ => true
  | .rowCopyDone _ => true
  | .lcsTokenVerified => true
  | .holdupReady _ => true
  | .holdupPeriodic _ => true
  | .holdupCheckComplete _ _ _ _ => true
  | .vholdDrop _ => true
  | .supplyLoss _ => true
  | .commitEnd => true
  | .ledgerUnitWritten => true
  | .ledgerOverflowEntry => true
  | .ledgerExportRequest _ data => decide (data.length ≤ 64)
  | .dlinkFrameReceive _ _ _ payload _ => decide (payload.length ≤ 32)
  | .dlinkHeartbeatTimeout _ => true
  | .fieldDieIdentity _ => true
  | .powerOnReset => true
  | .resetPin _ => true
  | .swsysWrite => true
  | .swsubWrite _ => true
  | .swsubDone => true
  | .lcsReset => true
  | .resetRelease _ => true
  | .marchDone _ slots _ => slots.all FlashSlot.wf
  | .imageSealCheck => true
  | .restoreGo => true
  | .restoreDone => true
  | .wake _ _ _ _ => true
  | .parkExit _ => true
  | .sleepPowerDown => true
  | .registerWrite _ _ _ _ => true
  | .supplyMonitorChange _ _ => true
  | .dsBitSampled _ _ _ _ => true
  | .mtimecmpReached _ _ => true
  | .coreMemoryAccess _ _ _ _ _ _ _ _ => true
  | .debugHalt _ _ => true
  | .tapInstruction _ => true
  | .canTxStart _ _ => true
  | .canBusError _ _ _ _ _ => true
  | .canIntegrationDone _ => true
  | .ethTxStart _ _ => true
  | .swsysResetAssert => true

end Sys2Proof
end

