-- ==== Sys2Proof/Tests/Slice0.lean ====
section
/-! SUPPORT. Inputs that meet the hypotheses of each statement, ill-formed commands that `Instr.wf` refuses, and a few
commands run. -/

set_option Elab.async false

open Sys2Proof Sys2Proof.Machine

namespace Sys2Proof.Tests

/-! ### States -/

/-- A descriptor of ring 0 that asks for a record. -/
def o0 : Origin := ⟨0, 0, 0, 0, 0, true, false⟩
/-- TB0 runs with a period of 20 µs. -/
def ticks : State := { State.reset with pwm.tbs := [(0, { running := true, up := 64000, down := 64000 })] }
/-- Ring 0 enabled, with a NOP in its first slot. -/
def ring0 : State :=
  let d : Desc := ⟨0, 0xFFFFFFFF, 0, 0, 0, 0, 0⟩
  let s := (State.reset.setFld (Reg.CMD_SQn_CFG 0) Fld.CMD_SQn_CFG.EN 1).setWords sramBase (d.words ++ [d.check 0 0 0])
  s.setSq 0 { s.sq 0 with pi := 1 }
/-- A caravan of one NOP for the next tick. -/
def nop0 : Caravan := ⟨0, [⟨⟨0, 0xFFFFFFFF, 0, 0, 0, 0, 0⟩, 0, 0, 0, []⟩], 0, false⟩
/-- A stall of one empty operation in recipe memory, and an empty schedule. -/
def recipe : State :=
  (((State.reset.setFld (Reg.TBn_PER 0) Fld.TBn_PER.PERIOD 128000).setWords recipeBase
    [1, Crc.checkC (List.replicate 8 0)]).setWord (descAddr 0 + 28) (Crc.checkC (List.replicate 32 0))).setWord
    (schedAddr 0 + 12) (Crc.checkC (List.replicate 12 0))
/-- A token that takes LCS from 0 to 1, signed with the key 1 and the nonce 1 of the base point. -/
def token : Token := ⟨[0x4F4D4C54, 1, 0x100, 0, 0, 0, 0, 0, 0, 0, 0, 0] ++
  [0xF2D1176B, 0x47422CE1, 0xE5E6BCF8, 0xF240A463, 0x817D0377, 0xA033EB2D, 0x4539A1F4, 0x96C298D8] ++
  [0xE242E34F, 0x9B7F1AFE, 0x4AEBE78E, 0x169E0F7C, 0x5733CE2B, 0xCE5E316B, 0x6840B6CB, 0xF551BF37] ++
  [0xF2D1176B, 0x47422CE1, 0xE5E6BCF8, 0xF240A463, 0x817D0377, 0xA033EB2D, 0x4539A1F4, 0x96C298D8] ++
  [0x5E0170E6, 0x88432C52, 0x29455A5D, 0x71B76775, 0xC63F5C92, 0xCE631F21, 0x889BBCBF, 0xC0C4D753]⟩
/-- The words of its key's SHA-256. -/
def keyWords : List Word := [0x7DDB75D8, 0x362223EF, 0xC638C7AE, 0x803EBBB0, 0x0F5D2F14, 0x24DFF4D8, 0xF5EED6FE, 0x9F0DB5CB]
/-- A device of UID 0 and NONCE 0 whose key hash is that of the token's key. -/
def tokened : State :=
  let s := (List.range 8).foldl (fun s i => s.setReg (Reg.BST_KEYHASHi i) (keyWords.getD i 0)) { State.reset with bst.tokens := [token] }
  let s := (List.range 4).foldl (fun s i => s.setReg (Reg.BST_NONCEi i) 0) s
  ((s.setReg Reg.BST_UID_LO 0).setReg Reg.BST_UID_HI 0).setReg Reg.BST_LCCNT 0

/-! ### Inputs for the hypotheses of the statements -/

/-- Inputs for ResetHoldsTheTableValues: a register of the tables and a field of it. -/
theorem witness_ResetHoldsTheTableValues : ∃ (x : RegDesc × Nat) (f : FieldDesc), regAt Reg.GPIO_OUT = some x ∧ f ∈ x.1.fields :=
  ⟨(regAt Reg.GPIO_OUT).get (by decide +kernel), ((regAt Reg.GPIO_OUT).get (by decide +kernel)).1.fields.head (by decide +kernel),
    (Option.some_get _).symm, List.head_mem _⟩

/-- A state for EmptyQueueIdles: no command waits. -/
theorem witness_EmptyQueueIdles : ∃ s : State, s.pending = [] ∧ s.tick = 5 := ⟨{ State.reset with tick := 5 }, by decide +kernel⟩

/-- States for StepKeepsStatesSound: a sound state with EVT_ACK waiting, and the one a step leads to. -/
theorem witness_StepKeepsStatesSound : ∃ s t : State, s.Sound ∧ step s = .next t :=
  ⟨{ ticks with pending := [.evtAck] }, _, by decide +kernel, rfl⟩

/-- Inputs that meet the hypotheses of DoorbellsMoveTheIndices, clause by clause. -/
theorem witness_DoorbellsMoveTheIndices :
    ∃ (s : State), s.cmd.drops = 0 :=
  ⟨State.reset, by decide +kernel⟩

/-- Inputs that meet the hypotheses of RingControlActsOnTheRing, clause by clause. -/
theorem witness_RingControlActsOnTheRing :
    (∃ (n : Fin 16) (s : State), s.pwr.restoring = false ∧ s.sqHalted n = true) ∧
    (∃ (s : State), s.pwr.restoring = false) :=
  ⟨⟨0, (State.reset.setFld (Reg.CMD_SQn_STAT 0) Fld.CMD_SQn_STAT.STATE 3), by decide +kernel⟩,
    ⟨State.reset, by decide +kernel⟩⟩

/-- Inputs that meet the hypotheses of TickCounterCountsBoundaries, clause by clause. -/
theorem witness_TickCounterCountsBoundaries :
    (∃ (s : State), s.boundaryDue = true) ∧
    (∃ (s : State), s.Sound) :=
  ⟨⟨ticks, by decide +kernel⟩,
    ⟨State.reset, by decide +kernel⟩⟩

/-- Inputs that meet the hypotheses of OnlyBoundariesMoveTheTick, clause by clause. -/
theorem witness_OnlyBoundariesMoveTheTick :
    (∃ (c : Instr) (s : State) (t : State), exec c s = .next t ∧ (∀ f, c ≠ .tickBoundary f) ∧ (∀ n, c ≠ .resetRelease
      n)) ∧
    (∃ (s : State), s.boundaryDue = true) ∧
    (∃ (s : State), s.boundaryDue = false) :=
  ⟨⟨.evtAck, State.reset, _, rfl, nofun, nofun⟩,
    ⟨ticks, by decide +kernel⟩,
    ⟨State.reset, by decide +kernel⟩⟩

/-- Inputs that meet the hypotheses of RegReadReturnsTheSample, clause by clause. -/
theorem witness_RegReadReturnsTheSample :
    (∃ (o : Origin) (unit : Fin 22) (inst : Fin 5) (offset : Word) (a : Nat) (s : State), Timely o s ∧ unit ≠ 2 ∧
      unit ≠ 19 ∧ unit ≠ 20 ∧ inst.val < instances opRegRead unit ∧ descReg unit inst (offset.toNat % 2 ^ 16) = some
      a ∧ (o.creq = true ∨ o.late = true)) ∧
    (∃ (o : Origin) (unit : Fin 22) (inst : Fin 5) (offset : Word) (a : Nat) (s : State), Timely o s ∧ unit ≠ 2 ∧
      unit ≠ 19 ∧ unit ≠ 20 ∧ inst.val < instances opRegRead unit ∧ descReg unit inst (offset.toNat % 2 ^ 16) = some
      a ∧ o.creq = false ∧ o.late = false) :=
  ⟨⟨o0, 21, 0, 0, Reg.GPIO_OUT, State.reset, by decide +kernel⟩,
    ⟨{ o0 with creq := false }, 21, 0, 0, Reg.GPIO_OUT, State.reset, by decide +kernel⟩⟩

/-- Inputs that meet the hypotheses of FetchedCaravansApplyWhole, clause by clause. -/
theorem witness_FetchedCaravansApplyWhole :
    (∃ (s : State), s.atFetchSlot.served = none) ∧
    (∃ (n : Nat) (ecc : Fin 3) (s : State), s.atFetchSlot.served = some n ∧ (s.atFetchSlot.fetched n ecc).haltStatus
      n (s.nextFetch n) (s.nextCheck n) (decide (ecc = 2) || s.atFetchSlot.slotBroken n) = none) ∧
    (∃ (n : Fin 16) (ecc : Fin 3) (st : Nat) (s : State), s.atFetchSlot.served = some n.val ∧ (s.atFetchSlot.fetched
      n ecc).haltStatus n (s.nextFetch n) (s.nextCheck n) (decide (ecc = 2) || s.atFetchSlot.slotBroken n) = some st) ∧
    (∃ (s : State), s.ticking = true) ∧
    (∃ (c : Caravan) (s : State), s.ticking = true ∧ LoneCaravan (s.atTick 150) c) ∧
    (∃ (c : Caravan) (s : State), s.ticking = false ∧ LoneCaravan (s.at (s.now + esPerFc)) c ∧ c.nops ∧ (c.late &&
      s.discardsLate c.ring) = false) :=
  ⟨⟨State.reset, by decide +kernel⟩,
    ⟨0, 0, ring0, by decide +kernel⟩,
    ⟨0, 2, 32, ring0, by decide +kernel⟩,
    ⟨ticks, by decide +kernel⟩,
    ⟨nop0, { ticks with cmd.staged := [nop0] }, by decide +kernel, by constructor <;> decide +kernel⟩,
    ⟨nop0, { State.reset with cmd.staged := [nop0] }, by decide +kernel, by constructor <;> decide +kernel,
      by unfold Caravan.nops; decide +kernel, by decide +kernel⟩⟩

/-- Inputs that meet the hypotheses of EnablingAndDisablingRings, clause by clause. -/
theorem witness_EnablingAndDisablingRings :
    (∃ (n : Fin 16) (s : State), s.pwr.restoring = false ∧ s.locked = false ∧ s.sqEnabled n = false) ∧
    (∃ (n : Fin 16) (s : State), s.pwr.restoring = false ∧ s.locked = false ∧ s.sqEnabled n = true) ∧
    (∃ (m : Fin 5) (s : State), s.pwr.restoring = false ∧ s.locked = false ∧ s.ringEnabled m = false ∧ (m = 4 →
      s.cmd.drops = 0 ∧ s.bst.toPost = [])) :=
  ⟨⟨0, State.reset, by decide +kernel⟩,
    ⟨0, (ticks.setFld (Reg.CMD_SQn_CFG 0) Fld.CMD_SQn_CFG.EN 1), by decide +kernel⟩,
    ⟨0, State.reset, by decide +kernel⟩⟩

/-- Inputs that meet the hypotheses of RecordsTakePsns, clause by clause. -/
theorem witness_RecordsTakePsns :
    (∃ (s : State), s.pwr.restoring = false) ∧
    (∃ (s : State), s.led.lost = false) ∧
    (∃ (n : Fin 16) (f : FlushRec) (rest : List FlushRec) (s : State), (s.sq n).flushing = f :: rest ∧ s.led.lost =
      false ∧ s.flushRoom n f = true) ∧
    (∃ (s : State), s.cmd.drops ≠ 0 ∧ s.ringEnabled 4 = true ∧ 0 < s.ringFree 4 ∧ s.batch = none ∧ s.led.lost = false
      ∧ s.foundDue = 0 ∧ s.nextRecord 4 + 16 ≤ doorbell) :=
  ⟨⟨State.reset, by decide +kernel⟩,
    ⟨State.reset, by decide +kernel⟩,
    ⟨0, ⟨0, 0, 0, true⟩, [], (State.reset.setSq 0 { flushing := [⟨0, 0, 0, true⟩] }), by decide +kernel⟩,
    ⟨{ ((State.reset.setFld Reg.CMD_EQ_CFG Fld.CMD_EQ_CFG.EN 1).setFld Reg.CMD_EQ_CFG Fld.CMD_EQ_CFG.SIZE 16) with
      cmd.drops := 3 }, by decide +kernel⟩⟩

/-- Inputs that meet the hypotheses of DescriptorsOnRegistersAndTables, clause by clause. -/
theorem witness_DescriptorsOnRegistersAndTables :
    (∃ (o : Origin) (unit : Fin 22) (s : State), unit ≠ 2 ∧ unit ≠ 19 ∧ unit ≠ 20 ∧ Timely o s) ∧
    (∃ (o : Origin) (offset : Word) (a : Nat) (s : State), Timely o s ∧ (offset.toNat % 2 ^ 16 = 0 ∧ a = Reg.GPIO_OUT
      ∨ offset.toNat % 2 ^ 16 = 4 ∧ a = Reg.GPIO_DIR)) ∧
    (∃ (o : Origin) (w3 : Word) (w4 : Word) (w5 : Word) (w6 : Word) (s : State), Timely o s ∧ loadBad w3 w4 w5 =
      false ∧ Crc.checkC (bytesOfWords (s.sourceWords w3.toNat (loadLen w5))) = w6 ∧ s.judgedAt.loadRefused (loadDest
      w4) (s.sourceWords w3.toNat (loadLen w5)) = false) :=
  ⟨⟨o0, 0, State.reset, by decide +kernel⟩,
    ⟨o0, 0, Reg.GPIO_OUT, State.reset, by decide +kernel⟩,
    ⟨o0, 0, 0, 4, (Crc.checkC (List.replicate 4 0)), State.reset, by decide +kernel⟩⟩

/-- Inputs that meet the hypotheses of EngineDescriptors, clause by clause. -/
theorem witness_EngineDescriptors :
    (∃ (o : Origin) (s : State), Timely o s) ∧
    (∃ (o : Origin) (stall : Fin 128) (s : State), Timely o s ∧ s.stallRunning stall = false ∧
      s.judgedAt.stallAdmitted stall = true) ∧
    (∃ (o : Origin) (w3 : Word) (s : State), Timely o s ∧ paramBad w3 = false) ∧
    (∃ (o : Origin) (w3 : Word) (s : State), Timely o s ∧ setpointBad w3 = false) ∧
    (∃ (o : Origin) (w3 : Word) (s : State), Timely o s ∧ s.judgedAt.schedOk (min 3 w3.toNat) = true ∧
      s.judgedAt.badEntry 0 [] (s.judgedAt.schedule (min 3 w3.toNat)) = none ∧ (s.judgedAt.setFld Reg.ENG_STAT
      Fld.ENG_STAT.SCHED (min 3 w3.toNat)).admitted = true) :=
  ⟨⟨o0, State.reset, by decide +kernel⟩,
    ⟨o0, 0, recipe, by decide +kernel⟩,
    ⟨o0, 0, State.reset, by decide +kernel⟩,
    ⟨o0, 0x300, State.reset, by decide +kernel⟩,
    ⟨o0, 0, recipe, by decide +kernel⟩⟩

/-- Inputs that meet the hypotheses of OutputDescriptors, clause by clause. -/
theorem witness_OutputDescriptors :
    (∃ (o : Origin) (s : State), Timely o s) ∧
    (∃ (o : Origin) (tb : Fin 4) (s : State), Timely o s ∧ s.tbRun tb = true) :=
  ⟨⟨o0, State.reset, by decide +kernel⟩,
    ⟨o0, 0, ticks, by decide +kernel⟩⟩

/-- Inputs that meet the hypotheses of SafetyDescriptors, clause by clause. -/
theorem witness_SafetyDescriptors :
    (∃ (o : Origin) (ext : Word) (int : Word) (s : State), Timely o s ∧ (∀ src ∈ s.namedLatches ext int,
      s.levelActive src = false)) ∧
    (∃ (o : Origin) (s : State), Timely o s) ∧
    (∃ (o : Origin) (unit : Fin 4) (s : State), Timely o s ∧ s.judgedAt.lcs ≠ lcsDecommissioned ∧
      s.judgedAt.driveRefused unit = false) ∧
    (∃ (o : Origin) (method : Word) (s : State), Timely o s ∧ (⟨0, 2⟩ : Bits).of method = 0) ∧
    (∃ (o : Origin) (method : Word) (s : State), Timely o s ∧ (⟨0, 2⟩ : Bits).of method % 2 = 1 ∧ s.judgedAt.inRun =
      true ∧ s.judgedAt.disVolt ≠ none ∧ s.judgedAt.disResistorOk = true) :=
  ⟨⟨o0, 0, 0, State.reset, by decide +kernel⟩,
    ⟨o0, State.reset, by decide +kernel⟩,
    ⟨o0, 0, { ((State.reset.setFld Reg.CLK_STAT Fld.CLK_STAT.FAB 0).setFld Reg.SYS_RSTCAUSE Fld.SYS_RSTCAUSE.FDIE 0)
      with led.passed := true }, by decide +kernel⟩,
    ⟨o0, 0, State.reset, by decide +kernel⟩,
    ⟨o0, 1, (((({ State.reset with pwm.tbs := [(3, { running := true })] }.setReg Reg.PROT_DIS_RDIS
      0x42C80000).setReg Reg.PROT_DIS_PMAX 0x44FA0000).setReg Reg.PROT_DIS_EMAX 0x43480000).publish 0x12B 1),
      by decide +kernel⟩⟩

/-- Inputs that meet the hypotheses of FieldDescriptors, clause by clause. -/
theorem witness_FieldDescriptors :
    (∃ (o : Origin) (machine : Fin 2) (mode : Word) (s : State), Timely o s ∧ s.judgedAt.modeRefused machine (modeOf
      mode) = false) ∧
    (∃ (o : Origin) (s : State), Timely o s) ∧
    (∃ (o : Origin) (channel : Fin 2) (s : State), Timely o s ∧ (s.chState channel = chQuarantine → (s.ch
      channel).delivers = true)) :=
  ⟨⟨o0, 0, 0, State.reset, by decide +kernel⟩,
    ⟨o0, State.reset, by decide +kernel⟩,
    ⟨o0, 0, State.reset, by decide +kernel⟩⟩

/-- Inputs that meet the hypotheses of SelfTestDescriptors, clause by clause. -/
theorem witness_SelfTestDescriptors :
    (∃ (o : Origin) (code : Fin 256) (s : State), Timely o s ∧ unitExists code = true ∧ s.unit code = unitFailed ∧
      s.judgedAt.condOk = true ∧ s.judgedAt.noConversion code = false) ∧
    (∃ (o : Origin) (code : Fin 256) (s : State), Timely o s ∧ unitExists code = true ∧ s.unit code = unitFree ∧
      classOf code ≠ .memory ∧ s.judgedAt.lcs ≠ 3 ∧ s.judgedAt.condOk = true ∧ s.judgedAt.noConversion code = false) ∧
    (∃ (o : Origin) (offset : Word) (s : State), Timely o s ∧ offset.toNat + 176 ≤ sramSize ∧ s.judgedAt.lcs ≠ 3 ∧
      s.judgedAt.quiet = true ∧ s.fld Reg.BST_CNT Fld.BST_CNT.TOKFAIL < 8) ∧
    (∃ (o : Origin) (s : State), Timely o s ∧ s.hldState ≠ hldChecking ∧ hasBit s.pwr.rails 2 = false) :=
  ⟨⟨o0, 0, (((State.reset.setFld (Reg.BST_Uu 0) Fld.BST_Uu.STATE unitFailed).setFld Reg.BST_COND Fld.BST_COND.CLKOK
      1).setFld Reg.CLK_STAT Fld.CLK_STAT.FAB 0), by decide +kernel⟩,
    ⟨o0, 3, (((State.reset.setFld (Reg.BST_Uu 3) Fld.BST_Uu.STATE unitFree).setFld Reg.BST_COND Fld.BST_COND.CLKOK
      1).setFld Reg.CLK_STAT Fld.CLK_STAT.FAB 0), by decide +kernel⟩,
    ⟨o0, 0, State.reset, by decide +kernel⟩,
    ⟨o0, State.reset, by decide +kernel⟩⟩

/-- Inputs that meet the hypotheses of SystemDescriptors, clause by clause. -/
theorem witness_SystemDescriptors :
    (∃ (o : Origin) (s : State), Timely o s ∧ s.fld Reg.PROT_USTAT Fld.PROT_USTAT.SAFE = 0x1F ∧ s.synced = true ∧
      s.vtValid = true ∧ s.judgedAt.lenAhead + s.judgedAt.realignC ≤ 3200000) ∧
    (∃ (o : Origin) (s : State), Timely o s ∧ s.on Reg.SYS_RSTCAUSE Fld.SYS_RSTCAUSE.FDIE = false) ∧
    (∃ (o : Origin) (s : State), Timely o s) :=
  ⟨⟨o0, (((ticks.setFld Reg.PROT_USTAT Fld.PROT_USTAT.SAFE 0x1F).setFld Reg.CLK_STAT Fld.CLK_STAT.VTVALID
      1).setForce (Reg.TBn_CFG 0) 32), by decide +kernel⟩,
    ⟨o0, (State.reset.setFld Reg.SYS_RSTCAUSE Fld.SYS_RSTCAUSE.FDIE 0), by decide +kernel⟩,
    ⟨o0, State.reset, by decide +kernel⟩⟩

/-- Inputs that meet the hypotheses of SetupAndBootWrites, clause by clause. -/
theorem witness_SetupAndBootWrites :
    (∃ (s : State), s.pwr.restoring = false ∧ s.locked = false) ∧
    (∃ (s : State), s.pwr.restoring = false) ∧
    (∃ (s : State), s.pwr.restoring = false ∧ s.on Reg.SYS_SWSUB Fld.SYS_SWSUB.GO = false) :=
  ⟨⟨State.reset, by decide +kernel⟩,
    ⟨State.reset, by decide +kernel⟩,
    ⟨State.reset, by decide +kernel⟩⟩

/-- Inputs that meet the hypotheses of EngineAndTimebaseWrites, clause by clause. -/
theorem witness_EngineAndTimebaseWrites :
    (∃ (s : State), s.pwr.restoring = false ∧ s.locked = false ∧ s.on Reg.ENG_CFG Fld.ENG_CFG.RUN = false) ∧
    (∃ (s : State), s.pwr.restoring = false ∧ s.locked = false) ∧
    (∃ (p : Fin 2) (w : Word) (s : State), s.pwr.restoring = false ∧ s.locked = false ∧ s.pllGone p = false ∧
      (Fld.CLK_PLLp_CFG.EN.on w = true ∨ s.pllEn p = true)) ∧
    (∃ (p : Fin 2) (s : State), s.pwr.restoring = false ∧ s.locked = false ∧ s.pllGone p = false ∧ s.pllEn p = true) ∧
    (∃ (tb : Fin 4) (s : State), s.pwr.restoring = false ∧ s.locked = false ∧ s.on (Reg.TBn_CFG tb) Fld.TBn_CFG.RUN =
      false ∧ (s.tb tb).running = false ∧ (s.tb tb).waiting = false) ∧
    (∃ (s : State), s.pwr.restoring = false ∧ s.locked = false ∧ s.ticking = true) :=
  ⟨⟨State.reset, by decide +kernel⟩,
    ⟨State.reset, by decide +kernel⟩,
    ⟨0, 0, State.reset, by decide +kernel⟩,
    ⟨0, State.reset, by decide +kernel⟩,
    ⟨0, State.reset, by decide +kernel⟩,
    ⟨ticks, by decide +kernel⟩⟩

/-- Inputs that meet the hypotheses of SenseWrites, clause by clause. -/
theorem witness_SenseWrites :
    (∃ (s : State), s.pwr.restoring = false ∧ s.locked = false ∧ s.on Reg.ACQ_CFG Fld.ACQ_CFG.RUN = false) ∧
    (∃ (n : Fin 2) (s : State), s.pwr.restoring = false ∧ s.locked = false ∧ (s.on (Reg.POS_SENSVn_CFG n)
      Fld.POS_SENSVn_CFG.EN = false ∨ s.on (Reg.POS_SENSVn_CFG n) Fld.POS_SENSVn_CFG.FAULT = true)) ∧
    (∃ (s : State), s.pwr.restoring = false) ∧
    (∃ (s : State), s.pwr.restoring = false ∧ s.locked = false) ∧
    (∃ (m : Fin 2) (s : State), s.pwr.restoring = false ∧ s.locked = false ∧ s.wghEn m = false) ∧
    (∃ (l : Fin 2) (s : State), s.pwr.restoring = false ∧ s.locked = false ∧ s.iskEn l = false) :=
  ⟨⟨State.reset, by decide +kernel⟩,
    ⟨0, State.reset, by decide +kernel⟩,
    ⟨State.reset, by decide +kernel⟩,
    ⟨State.reset, by decide +kernel⟩,
    ⟨0, State.reset, by decide +kernel⟩,
    ⟨0, State.reset, by decide +kernel⟩⟩

/-- Inputs that meet the hypotheses of CanAndEthernetControl, clause by clause. -/
theorem witness_CanAndEthernetControl :
    (∃ (s : State), s.pwr.restoring = false ∧ s.locked = false) ∧
    (∃ (c : Fin 4) (s : State), s.pwr.restoring = false ∧ s.locked = false ∧ s.canInit c = false) ∧
    (∃ (c : Fin 4) (s : State), s.pwr.restoring = false ∧ s.locked = false ∧ s.canInit c = true) ∧
    (∃ (s : State), s.pwr.restoring = false) :=
  ⟨⟨State.reset, by decide +kernel⟩,
    ⟨0, (State.reset.setFld (Reg.CAN_CTRL 0) Fld.CAN_CTRL.INIT 0), by decide +kernel⟩,
    ⟨0, State.reset, by decide +kernel⟩,
    ⟨State.reset, by decide +kernel⟩⟩

/-- Inputs that meet the hypotheses of VehicleTimeWrites, clause by clause. -/
theorem witness_VehicleTimeWrites :
    ∃ (s : State), s.pwr.restoring = false ∧ s.locked = false :=
  ⟨State.reset, by decide +kernel⟩

/-- Inputs that meet the hypotheses of HostComplexWrites, clause by clause. -/
theorem witness_HostComplexWrites :
    (∃ (s : State), s.pwr.restoring = false ∧ s.locked = false) ∧
    (∃ (s : State), s.pwr.restoring = false) ∧
    (∃ (wd : Fin 2) (s : State), s.pwr.restoring = false ∧ s.locked = false ∧ s.wdEn wd = false) ∧
    (∃ (s : State), s.pwr.restoring = false ∧ s.on Reg.XSP_STAT Fld.XSP_STAT.BUSY = false) :=
  ⟨⟨State.reset, by decide +kernel⟩,
    ⟨State.reset, by decide +kernel⟩,
    ⟨0, State.reset, by decide +kernel⟩,
    ⟨State.reset, by decide +kernel⟩⟩

/-- Inputs that meet the hypotheses of CheckUnits, clause by clause. -/
theorem witness_CheckUnits :
    ∃ (s : State), s.pwr.restoring = false :=
  ⟨State.reset, by decide +kernel⟩

/-- Inputs that meet the hypotheses of WritesReachRegisters, clause by clause. -/
theorem witness_WritesReachRegisters :
    (∃ (unit : Fin 22) (index : Fin 0x4000) (s : State), (∀ d i, regAt (canonical (blockBase + 0x10000 * unit.val + 4
      * index.val)) = some (d, i) → d.reach (.core 0) s.locked = 0)) ∧
    (∃ (s : State), s.debugOpen = false) ∧
    (∃ (s : State), s.pwr.restoring = false) ∧
    (∃ (w : Fin 2) (c : Fin 2), c ≠ w) ∧
    (∃ (w : Fin 2) (n : Nat) (s : State), s.wdEn w = true ∧ (s.at n).wdCount w < s.wdClose w ∧ (s.wd w).first = none
      ∧ s.wdOpen w ≤ (s.at n).wdCount w) ∧
    (∃ (w : Fin 2) (n : Nat) (m : Nat) (s : State), s.wdEn w = true ∧ (s.at n).wdCount w < s.wdClose w ∧ (s.wd
      w).first = some m ∧ max s.now n ≤ m + 6400) ∧
    (∃ (w : Fin 2) (n : Nat) (s : State), s.wdEn w = true ∧ (s.at n).wdCount w < s.wdClose w ∧ (s.wd w).first = none
      ∧ (s.at n).wdCount w < s.wdOpen w) ∧
    (∃ (w : Fin 2) (v : Word) (n : Nat) (s : State), s.wdEn w = true ∧ (s.at n).wdCount w < s.wdClose w ∧ v ≠ 0xC35A
      ∧ v ≠ 0x3CA5) ∧
    (∃ (w : Fin 2) (n : Nat) (s : State), s.wdEn w = true ∧ (s.at n).wdCount w < s.wdClose w ∧ (s.wd w).first = none) :=
  ⟨⟨7, 0, ((State.reset.setFld Reg.SYS_SETUP_LOCK Fld.SYS_SETUP_LOCK.LOCK 1)), fun d i h => by
    have e : (regAt (canonical (blockBase + 0x10000 * 7 + 4 * 0))).all (fun x => x.1.reach (.core 0) true == 0) = true := by
      decide +kernel
    rw [show regAt (canonical (blockBase + 0x10000 * 7 + 4 * 0)) = some (d, i) from h] at e
    have l : ((State.reset.setFld Reg.SYS_SETUP_LOCK Fld.SYS_SETUP_LOCK.LOCK 1)).locked = true := by decide +kernel
    have e := eq_of_beq e
    rw [l]; exact e⟩,
    ⟨(State.reset.setFld Reg.BST_STAT Fld.BST_STAT.LCS 1), by decide +kernel⟩,
    ⟨State.reset, by decide +kernel⟩,
    ⟨0, 1, by decide +kernel⟩,
    ⟨0, (20 * esPerWd), (({ (((State.reset.setFld (Reg.HIC_WDw_CFG 0) Fld.HIC_WDw_CFG.EN 1).setFld (Reg.HIC_WDw_WIN
      0) Fld.HIC_WDw_WIN.OPEN 10).setFld (Reg.HIC_WDw_WIN 0) Fld.HIC_WDw_WIN.CLOSE 100) with pending := [] } :
      State).setWd 0 {first := none}), by decide +kernel⟩,
    ⟨0, (2 * 6400), 6400, (({ (((State.reset.setFld (Reg.HIC_WDw_CFG 0) Fld.HIC_WDw_CFG.EN 1).setFld (Reg.HIC_WDw_WIN
      0) Fld.HIC_WDw_WIN.OPEN 10).setFld (Reg.HIC_WDw_WIN 0) Fld.HIC_WDw_WIN.CLOSE 100) with pending := [] } :
      State).setWd 0 {first := some 6400}), by decide +kernel⟩,
    ⟨0, 6400, (({ (((State.reset.setFld (Reg.HIC_WDw_CFG 0) Fld.HIC_WDw_CFG.EN 1).setFld (Reg.HIC_WDw_WIN 0)
      Fld.HIC_WDw_WIN.OPEN 10).setFld (Reg.HIC_WDw_WIN 0) Fld.HIC_WDw_WIN.CLOSE 100) with pending := [] } :
      State).setWd 0 {first := none}), by decide +kernel⟩,
    ⟨0, 0, 6400, (({ (((State.reset.setFld (Reg.HIC_WDw_CFG 0) Fld.HIC_WDw_CFG.EN 1).setFld (Reg.HIC_WDw_WIN 0)
      Fld.HIC_WDw_WIN.OPEN 10).setFld (Reg.HIC_WDw_WIN 0) Fld.HIC_WDw_WIN.CLOSE 100) with pending := [] } :
      State).setWd 0 {first := none}), by decide +kernel⟩,
    ⟨0, 6400, (({ (((State.reset.setFld (Reg.HIC_WDw_CFG 0) Fld.HIC_WDw_CFG.EN 1).setFld (Reg.HIC_WDw_WIN 0)
      Fld.HIC_WDw_WIN.OPEN 10).setFld (Reg.HIC_WDw_WIN 0) Fld.HIC_WDw_WIN.CLOSE 100) with pending := [] } :
      State).setWd 0 {first := none}), by decide +kernel⟩⟩

/-- Inputs that meet the hypotheses of AccessesInterruptsAndSemaphores, clause by clause. -/
theorem witness_AccessesInterruptsAndSemaphores :
    (∃ (w : Fin 3) (a : Word), a.toNat % widthBytes w.val ≠ 0) ∧
    (∃ (a : Word) (s : State), a.toNat % 4 = 0 ∧ inUncached a.toNat = true ∧ s.sramBad (a.toNat - uncachedBase) =
      false) ∧
    (∃ (a : Word), a.toNat % 4 = 0 ∧ inUncached a.toNat = true ∧ a.toNat - uncachedBase < doorbell) ∧
    (∃ (c : Fin 2) (a : Word) (s : State), a.toNat % 4 = 0 ∧ inUncached a.toNat = true ∧ s.hic.resv.contains (c.val,
      a.toNat - uncachedBase) = false) ∧
    (∃ (c : Fin 2) (a : Word) (s : State), a.toNat % 4 = 0 ∧ inUncached a.toNat = true ∧ s.hic.resv.contains (c.val,
      a.toNat - uncachedBase) = true ∧ a.toNat - uncachedBase < doorbell) :=
  ⟨⟨2, 0x18000102, by decide +kernel⟩,
    ⟨0x18000100, State.reset, by decide +kernel⟩,
    ⟨0x18000100, by decide +kernel⟩,
    ⟨0, 0x18000100, State.reset, by decide +kernel⟩,
    ⟨1, 0x18000100, { State.reset with hic.resv := [(1, 0x100)] }, by decide +kernel⟩⟩

/-- Inputs that meet the hypotheses of Watchdogs, clause by clause. -/
theorem witness_Watchdogs :
    (∃ (w : Fin 2) (s : State), s.wdEn w = true ∧ s.fld (Reg.HIC_WDw_CFG w) Fld.HIC_WDw_CFG.PRE ≠ 0 ∧ (s.wd w).warned
      = false ∧ s.wdFrozen w = false) ∧
    (∃ (w : Fin 2) (s : State), s.wdEn w = true ∧ s.wdFrozen w = false) ∧
    (∃ (w : Fin 2) (m : Nat) (s : State), s.wdEn w = true ∧ (s.wd w).first = some m) ∧
    (∃ (s : State), s.hic.wdogAt = none) ∧
    (∃ (n : Nat) (d : Nat) (s : State), s.hic.wdogAt = some d ∧ (max s.now n < d ∨ s.led.sent ≠ [])) ∧
    (∃ (n : Nat) (d : Nat) (s : State), s.hic.wdogAt = some d ∧ d ≤ max s.now n ∧ s.led.sent = [] ∧ s.pwr.held =
      none) :=
  ⟨⟨0, ((State.reset.setFld (Reg.HIC_WDw_CFG 0) Fld.HIC_WDw_CFG.EN 1).setFld (Reg.HIC_WDw_CFG 0) Fld.HIC_WDw_CFG.PRE
      1), by decide +kernel⟩,
    ⟨0, (State.reset.setFld (Reg.HIC_WDw_CFG 0) Fld.HIC_WDw_CFG.EN 1), by decide +kernel⟩,
    ⟨0, 7, ((State.reset.setFld (Reg.HIC_WDw_CFG 0) Fld.HIC_WDw_CFG.EN 1).setWd 0 { first := some 7 }),
      by decide +kernel⟩,
    ⟨State.reset, by decide +kernel⟩,
    ⟨0, 6400, { State.reset with hic.wdogAt := some 6400 }, by decide +kernel⟩,
    ⟨6400, 6400, { State.reset with hic.wdogAt := some 6400, led.sent := [] }, by decide +kernel⟩⟩

/-- Inputs that meet the hypotheses of FlashPinsAndDebug, clause by clause. -/
theorem witness_FlashPinsAndDebug :
    (∃ (s : State), s.on Reg.XSP_STAT Fld.XSP_STAT.BUSY = true) ∧
    (∃ (s : State), s.on Reg.XSP_CFG Fld.XSP_CFG.MODE = true) ∧
    (∃ (s : State), s.on Reg.XSP_CFG Fld.XSP_CFG.MODE = false) ∧
    (∃ (s : State), s.debugOpen = false) ∧
    (∃ (s : State), s.debugOpen = true) ∧
    (∃ (c : Fin 2) (e : Nat) (s : State), s.debugOpen = true ∧ (s.wd c).held = some e) :=
  ⟨⟨(State.reset.setFld Reg.XSP_STAT Fld.XSP_STAT.BUSY 1), by decide +kernel⟩,
    ⟨(State.reset.setFld Reg.XSP_CFG Fld.XSP_CFG.MODE 1), by decide +kernel⟩,
    ⟨State.reset, by decide +kernel⟩,
    ⟨(State.reset.setFld Reg.BST_STAT Fld.BST_STAT.LCS 1), by decide +kernel⟩,
    ⟨State.reset, by decide +kernel⟩,
    ⟨0, 7, (State.reset.setWd 0 { held := some 7 }), by decide +kernel⟩⟩

/-- Inputs that meet the hypotheses of ReferenceTickInputAndRtc, clause by clause. -/
theorem witness_ReferenceTickInputAndRtc :
    (∃ (s : State), s.refPresent = true) ∧
    (∃ (s : State), s.clk.refLost = none) ∧
    (∃ (m : Nat) (s : State), s.clk.refLost = some m) ∧
    (∃ (s : State), s.on Reg.CLK_TICKIN_CFG Fld.CLK_TICKIN_CFG.EN = true) ∧
    (∃ (s : State), s.on Reg.CLK_TICKIN_CFG Fld.CLK_TICKIN_CFG.EN = true ∧ s.clk.inMissing = false) ∧
    (∃ (s : State), (s.on Reg.CLK_TICKIN_CFG Fld.CLK_TICKIN_CFG.EN = false ∨ s.clk.inMissing = true)) :=
  ⟨⟨(State.reset.setFld Reg.CLK_STAT Fld.CLK_STAT.REF 1), by decide +kernel⟩,
    ⟨State.reset, by decide +kernel⟩,
    ⟨7, { State.reset with clk.refLost := some 7 }, by decide +kernel⟩,
    ⟨(State.reset.setFld Reg.CLK_TICKIN_CFG Fld.CLK_TICKIN_CFG.EN 1), by decide +kernel⟩,
    ⟨(State.reset.setFld Reg.CLK_TICKIN_CFG Fld.CLK_TICKIN_CFG.EN 1), by decide +kernel⟩,
    ⟨State.reset, by decide +kernel⟩⟩

/-- Inputs that meet the hypotheses of PllStates, clause by clause. -/
theorem witness_PllStates :
    (∃ (p : Fin 2) (s : State), s.pllEn p = true ∧ s.pllState p < 2) ∧
    (∃ (p : Fin 2) (ldmv : Nat) (s : State), (s.pllState p = pllAcquire ∨ s.pllState p = pllUnlocked) ∧ s.pllEn p =
      true ∧ (s.pll p).filterBad = false ∧ ldmv < 300 ∧ s.vcoLocks p = true) ∧
    (∃ (p : Fin 2) (ldmv : Nat) (s : State), (s.pllServes p = true ∨ s.pllState p = pllQuarantine) ∧ 600 < ldmv) ∧
    (∃ (p : Fin 2) (kind : Bool) (dev : Nat) (s : State), pllAcquire ≤ s.pllState p ∧ s.pllState p ≤ pllUnlocked ∧
      (kind = true → 80 < dev)) ∧
    (∃ (p : Fin 2) (s : State), s.pllState p = pllQuarantine) ∧
    (∃ (p : Fin 2) (s : State), s.pllState p = pllQuarantine ∧ s.falseDeath p = false) :=
  ⟨⟨0, State.reset, by decide +kernel⟩,
    ⟨0, 100, (State.reset.setFld (Reg.CLK_PLLp_STAT 0) Fld.CLK_PLLp_STAT.STATE 2), by decide +kernel⟩,
    ⟨0, 601, (State.reset.setFld (Reg.CLK_PLLp_STAT 0) Fld.CLK_PLLp_STAT.STATE 3), by decide +kernel⟩,
    ⟨0, false, 0, (State.reset.setFld (Reg.CLK_PLLp_STAT 0) Fld.CLK_PLLp_STAT.STATE 6), by decide +kernel⟩,
    ⟨0, (State.reset.setFld (Reg.CLK_PLLp_STAT 0) Fld.CLK_PLLp_STAT.STATE 5), by decide +kernel⟩,
    ⟨0, (State.reset.setFld (Reg.CLK_PLLp_STAT 0) Fld.CLK_PLLp_STAT.STATE 5), by decide +kernel⟩⟩

/-- Inputs that meet the hypotheses of TimebasesAndReadbacks, clause by clause. -/
theorem witness_TimebasesAndReadbacks :
    (∃ (n : Fin 4) (s : State), (s.tb n).running = false ∧ (s.tb n).waiting = false) ∧
    (∃ (n : Fin 4) (s : State), ((s.tb n).running = true ∨ (s.tb n).waiting = true ∧ s.tbRun 0 = true)) ∧
    (∃ (n : Fin 4) (s : State), ((s.tb n).running = false ∨ (s.tb n).pastHalf = true)) ∧
    (∃ (n : Fin 4) (s : State), (s.tb n).running = true ∧ (s.tb n).pastHalf = false) ∧
    (∃ (k : Fin 16) (sp : Nat) (s : State), ((s.pair k).swapTo = some sp ∨ (s.pair k).swapTo = none ∧ s.genOf k < 16
      ∧ s.freeSpare = some sp)) ∧
    (∃ (k : Fin 16) (s : State), (s.pair k).swapTo = none ∧ s.genOf k < 16 ∧ s.freeSpare = none) ∧
    (∃ (k : Fin 16) (s : State), s.safeGoverns k = true ∧ s.haltedF4 = false) ∧
    (∃ (k : Fin 16) (s : State), s.safeGoverns k = false) :=
  ⟨⟨0, State.reset, by decide +kernel⟩,
    ⟨0, ticks, by decide +kernel⟩,
    ⟨0, State.reset, by decide +kernel⟩,
    ⟨0, ticks, by decide +kernel⟩,
    ⟨0, 0, State.reset, by decide +kernel⟩,
    ⟨0, ((State.reset.setFld (Reg.BST_Uu 32) Fld.BST_Uu.STATE 0).setFld (Reg.BST_Uu 33) Fld.BST_Uu.STATE 0),
      by decide +kernel⟩,
    ⟨0, State.reset, by decide +kernel⟩,
    ⟨0, (State.reset.setFld Reg.PROT_USTAT Fld.PROT_USTAT.SAFE 0), by decide +kernel⟩⟩

/-- Inputs that meet the hypotheses of TripSources, clause by clause. -/
theorem witness_TripSources :
    (∃ (m : Fin 12) (s : State), s.cmpOff m = true) ∧
    (∃ (m : Fin 12) (s : State), s.cmpOff m = false) :=
  ⟨⟨0, (State.reset.setFld Reg.ACQ_CMPSUB Fld.ACQ_CMPSUB.FAIL 1), by decide +kernel⟩,
    ⟨0, State.reset, by decide +kernel⟩⟩

/-- Inputs that meet the hypotheses of Acquisition, clause by clause. -/
theorem witness_Acquisition :
    (∃ (s : State), s.acqRuns = false) ∧
    (∃ (s : State), s.acqRuns = true) ∧
    (∃ (g : Fin 4) (w : PairWatch) (s : State), (s.grp g).watch = some w ∧ w.core = 3 ∧ s.watchFull w = true ∧
      s.watchPasses w = true) ∧
    (∃ (g : Fin 4) (w : PairWatch) (s : State), (s.grp g).watch = some w ∧ w.core = 3 ∧ s.watchFull w = true ∧
      s.watchPasses w = false) ∧
    (∃ (g : Fin 4) (s : State), (∀ w, (s.grp g).watch = some w → w.core ≠ 3 ∨ s.watchFull w = false)) ∧
    (∃ (g : Fin 4) (s : State), (s.acqRuns = false ∨ (s.grp g).asked = false ∧ s.urgentCount g = false)) ∧
    (∃ (g : Fin 4) (s : State), s.acqRuns = true ∧ ((s.grp g).asked = true ∨ s.urgentCount g = true) ∧ s.spState g =
      spFree ∧ s.coreFail g 3 = false ∧ (s.grp g).takeover = none) ∧
    (∃ (g : Fin 4) (late : Bool) (s : State), s.acqRuns = true ∧ ((s.grp g).asked = true ∨ s.urgentCount g = true) ∧
      (late = true ∨ s.spState g ≠ spFree ∨ s.coreFail g 3 = true ∨ (s.grp g).takeover ≠ none)) ∧
    (∃ (g : Fin 4) (s : State), (s.grp g).urgent = none) ∧
    (∃ (g : Fin 4) (src : Nat) (input : Nat) (s : State), (s.grp g).urgent = some (src, input) ∧ src < 8) ∧
    (∃ (m : Fin 12) (s : State), (s.acq.tests.find? fun t => t.cmp == m.val) = none) ∧
    (∃ (m : Fin 12) (a : Bool) (x : CmpTest) (s : State), (s.acq.tests.find? fun t => t.cmp == m.val) = some x ∧
      s.cmpConverted m = true ∧ (5 ≤ x.step ∨ a = (x.step % 2 == 1)) ∧ s.cmpStep m 4 (x.step + 1) < 5) :=
  ⟨⟨State.reset, by decide +kernel⟩,
    ⟨(State.reset.setFld Reg.ACQ_CFG Fld.ACQ_CFG.RUN 1), by decide +kernel⟩,
    ⟨0, ⟨3, 0, 8, 0, false⟩, ((State.reset.setFld Reg.ACQ_SPCFG Fld.ACQ_SPCFG.WATCH 8).setGrp 0 { watch := some ⟨3,
      0, 8, 0, false⟩ }), by decide +kernel⟩,
    ⟨0, ⟨3, 0, 8, 0, true⟩, ((State.reset.setFld Reg.ACQ_SPCFG Fld.ACQ_SPCFG.WATCH 8).setGrp 0 { watch := some ⟨3, 0,
      8, 0, true⟩ }), by decide +kernel⟩,
    ⟨0, State.reset, by decide +kernel⟩,
    ⟨0, State.reset, by decide +kernel⟩,
    ⟨0, (((State.reset.setFld Reg.ACQ_CFG Fld.ACQ_CFG.RUN 1).setFld Reg.ACQ_STAT (spField 0) spFree).setGrp 0 { asked
      := true }), by decide +kernel⟩,
    ⟨0, true, ((State.reset.setFld Reg.ACQ_CFG Fld.ACQ_CFG.RUN 1).setGrp 0 { asked := true }), by decide +kernel⟩,
    ⟨0, State.reset, by decide +kernel⟩,
    ⟨0, 3, 5, (State.reset.setGrp 0 { urgent := some (3, 5) }), by decide +kernel⟩,
    ⟨0, State.reset, by decide +kernel⟩,
    ⟨0, true, ⟨0, 1⟩, { (State.reset.setFld Reg.ACQ_CFG Fld.ACQ_CFG.RUN 1) with acq.tests := [⟨0, 1⟩] },
      by decide +kernel⟩⟩

/-- Inputs that meet the hypotheses of DeltaSigma, clause by clause. -/
theorem witness_DeltaSigma :
    (∃ (c : Fin 12) (n : Nat) (s : State), (s.dsClocked c = false ∨ s.dsMode c ≠ 2 ∧ s.dsSamples c n = false)) ∧
    (∃ (c : Fin 12) (n : Nat) (s : State), s.dsClocked c = true ∧ s.dsMode c ≠ 2 ∧ s.dsSamples c n = true ∧ s.dsOpen
      n) ∧
    (∃ (c : Fin 12) (m : Nat) (n : Nat) (s : State), s.dsClocked c = true ∧ s.dsMode c = 2 ∧ s.dsOpen n ∧ (s.dsRun
      c).mid = some m) ∧
    (∃ (c : Fin 12) (s : State), (s.dsOsr c = 0 ∨ (s.dsRun c).phase < s.dsOsr c)) ∧
    (∃ (c : Fin 12) (s : State), s.dsOsr c ≠ 0 ∧ s.dsOsr c ≤ (s.dsRun c).phase) :=
  ⟨⟨0, 0, State.reset, by decide +kernel⟩,
    ⟨0, 640, (((State.reset.setFld Reg.ACQ_CFG Fld.ACQ_CFG.RUN 1).setFld (Reg.ACQ_DSc_CFG 0) Fld.ACQ_DSc_CFG.MODE
      1).setFld (Reg.ACQ_SDCLKn_CFG 0) Fld.ACQ_SDCLKn_CFG.EN 1), by unfold State.dsOpen; decide +kernel⟩,
    ⟨0, 0, 0, { ((State.reset.setFld Reg.ACQ_CFG Fld.ACQ_CFG.RUN 1).setFld (Reg.ACQ_DSc_CFG 0) Fld.ACQ_DSc_CFG.MODE
      2) with acq.ds := [(0, { mid := some 0 })] }, by unfold State.dsOpen; decide +kernel⟩,
    ⟨0, State.reset, by decide +kernel⟩,
    ⟨0, { ((State.reset.setFld Reg.ACQ_CFG Fld.ACQ_CFG.RUN 1).setFld (Reg.ACQ_DSc_CFG 0) Fld.ACQ_DSc_CFG.OSR 16) with
      acq.ds := [(0, { phase := 16 })] }, by decide +kernel⟩⟩

/-- Inputs that meet the hypotheses of PositionChannels, clause by clause. -/
theorem witness_PositionChannels :
    (∃ (c : Fin 2) (s : State), s.chRuns c 1 = false) ∧
    (∃ (c : Fin 2) (v : Int) (w : Int) (s : State), s.chRuns c 1 = true ∧ s.inWindow c v w = false) ∧
    (∃ (c : Fin 2) (v : Int) (w : Int) (mid : Nat) (s : State), s.chRuns c 1 = true ∧ s.inWindow c v w = true ∧
      s.stale c (s.resolverAt c mid) = false ∧ (1 ≤ (s.ch c).inRun ∨ (s.ch c).delivers = true ∨ s.chState c =
      chTrack)) ∧
    (∃ (c : Fin 2) (s : State), s.chRuns c 2 = false) ∧
    (∃ (c : Fin 2) (v : Int) (w : Int) (q : Nat) (s : State), s.chRuns c 2 = true ∧ (s.ch c).quadrant = some q ∧
      ((Sys2Proof.Num.atan2 (volts v) (volts w)).toNat / 2 ^ 30 + 4 - q) % 4 = 2) ∧
    (∃ (c : Fin 2) (v : Int) (w : Int) (s : State), s.chRuns c 2 = true ∧ (s.ch c).quadrant = none ∧ s.inWindow c v w
      = false ∧ (s.ch c).outRun = 2) ∧
    (∃ (c : Fin 2) (v : Int) (w : Int) (n : Nat) (s : State), s.chRuns c 2 = true ∧ (s.ch c).quadrant = none ∧
      s.stale c n = false ∧ s.inWindow c v w = true ∧ (1 ≤ (s.ch c).inRun ∨ (s.ch c).delivers = true ∨ s.chState c =
      chTrack)) ∧
    (∃ (c : Fin 2) (k : Nat) (s : State), k < s.fld (Reg.POS_CHc_FILT c) Fld.POS_CHc_FILT.MINEI) ∧
    (∃ (c : Fin 2) (l : Fin 8) (k : Nat) (d : Int) (s : State), s.fld (Reg.POS_CHc_FILT c) Fld.POS_CHc_FILT.MINEI ≤ k
      ∧ s.chRuns c 3 = true ∧ d ≠ 0 ∧ quadStep (hasBit (s.ch c).levels 0) (hasBit (s.ch c).levels 1) (hasBit l 0)
      (hasBit l 1) = some d) ∧
    (∃ (c : Fin 2) (l : Fin 8) (k : Nat) (s : State), s.fld (Reg.POS_CHc_FILT c) Fld.POS_CHc_FILT.MINEI ≤ k ∧
      s.chRuns c 3 = false ∧ s.chRuns c 4 = true ∧ hallIndex (hallCode l) = none) ∧
    (∃ (c : Fin 2) (k : Nat) (s : State), k < s.fld (Reg.POS_CHc_FILT c) Fld.POS_CHc_FILT.MINEI ∧ (s.chRuns c 3 =
      true ∨ s.chRuns c 4 = true ∨ s.chRuns c 5 = true ∨ s.chRuns c 6 = true)) ∧
    (∃ (c : Fin 2) (k : Nat) (s : State), (s.fld (Reg.POS_CHc_FILT c) Fld.POS_CHc_FILT.MINEI ≤ k ∨ s.chRuns c 3 =
      false ∧ s.chRuns c 4 = false ∧ s.chRuns c 5 = false ∧ s.chRuns c 6 = false)) :=
  ⟨⟨0, State.reset, by decide +kernel⟩,
    ⟨0, 0, 0, (((((State.reset.setFld (Reg.POS_CHc_CFG 0) Fld.POS_CHc_CFG.MODE 1).setFld (Reg.POS_CHc_STAT 0)
      Fld.POS_CHc_STAT.STATE 2).setFld (Reg.POS_CHc_RES 0) Fld.POS_CHc_RES.AMIN 1).setFld (Reg.POS_CHc_RES 0)
      Fld.POS_CHc_RES.AMAX 10).setCh 0 {}), by decide +kernel⟩,
    ⟨0, 640000, 0, 1000, (((((State.reset.setFld (Reg.POS_CHc_CFG 0) Fld.POS_CHc_CFG.MODE 1).setFld (Reg.POS_CHc_STAT
      0) Fld.POS_CHc_STAT.STATE 2).setFld (Reg.POS_CHc_RES 0) Fld.POS_CHc_RES.AMIN 1).setFld (Reg.POS_CHc_RES 0)
      Fld.POS_CHc_RES.AMAX 10).setCh 0 { inRun := 1 }), by decide +kernel⟩,
    ⟨0, State.reset, by decide +kernel⟩,
    ⟨0, 640000, 640000, 2, (((((State.reset.setFld (Reg.POS_CHc_CFG 0) Fld.POS_CHc_CFG.MODE 2).setFld
      (Reg.POS_CHc_STAT 0) Fld.POS_CHc_STAT.STATE 2).setFld (Reg.POS_CHc_RES 0) Fld.POS_CHc_RES.AMIN 1).setFld
      (Reg.POS_CHc_RES 0) Fld.POS_CHc_RES.AMAX 10).setCh 0 { quadrant := some 2 }), by decide +kernel⟩,
    ⟨0, 0, 0, (((((State.reset.setFld (Reg.POS_CHc_CFG 0) Fld.POS_CHc_CFG.MODE 2).setFld (Reg.POS_CHc_STAT 0)
      Fld.POS_CHc_STAT.STATE 2).setFld (Reg.POS_CHc_RES 0) Fld.POS_CHc_RES.AMIN 1).setFld (Reg.POS_CHc_RES 0)
      Fld.POS_CHc_RES.AMAX 10).setCh 0 { outRun := 2 }), by decide +kernel⟩,
    ⟨0, 640000, 0, 1, (((((State.reset.setFld (Reg.POS_CHc_CFG 0) Fld.POS_CHc_CFG.MODE 2).setFld (Reg.POS_CHc_STAT 0)
      Fld.POS_CHc_STAT.STATE 2).setFld (Reg.POS_CHc_RES 0) Fld.POS_CHc_RES.AMIN 1).setFld (Reg.POS_CHc_RES 0)
      Fld.POS_CHc_RES.AMAX 10).setCh 0 { inRun := 1 }), by decide +kernel⟩,
    ⟨0, 0, ((((State.reset.setFld (Reg.POS_CHc_CFG 0) Fld.POS_CHc_CFG.MODE 3).setFld (Reg.POS_CHc_STAT 0)
      Fld.POS_CHc_STAT.STATE 2).setFld (Reg.POS_CHc_FILT 0) Fld.POS_CHc_FILT.MINEI 2).setCh 0 {}), by decide +kernel⟩,
    ⟨0, 1, 10, 1, (((State.reset.setFld (Reg.POS_CHc_CFG 0) Fld.POS_CHc_CFG.MODE 3).setFld (Reg.POS_CHc_STAT 0)
      Fld.POS_CHc_STAT.STATE 2).setCh 0 {}), by decide +kernel⟩,
    ⟨0, 7, 10, (((State.reset.setFld (Reg.POS_CHc_CFG 0) Fld.POS_CHc_CFG.MODE 4).setFld (Reg.POS_CHc_STAT 0)
      Fld.POS_CHc_STAT.STATE 2).setCh 0 {}), by decide +kernel⟩,
    ⟨0, 0, ((((State.reset.setFld (Reg.POS_CHc_CFG 0) Fld.POS_CHc_CFG.MODE 3).setFld (Reg.POS_CHc_STAT 0)
      Fld.POS_CHc_STAT.STATE 2).setFld (Reg.POS_CHc_FILT 0) Fld.POS_CHc_FILT.MINEI 2).setCh 0 {}), by decide +kernel⟩,
    ⟨0, 0, State.reset, by decide +kernel⟩⟩

/-- Inputs that meet the hypotheses of DigitalSensors, clause by clause. -/
theorem witness_DigitalSensors :
    (∃ (c : Fin 2) (s : State), s.chRuns c 5 = false) ∧
    (∃ (c : Fin 2) (cal : Nat) (nib : List Nat) (crc : Nat) (p : Bool) (s : State), s.chRuns c 5 = true ∧ s.sentOk c
      cal nib crc p = false) ∧
    (∃ (c : Fin 2) (cal : Nat) (sta : Nat) (nib : List Nat) (crc : Nat) (p : Bool) (id : Nat) (data : Nat) (s :
      State), s.chRuns c 5 = true ∧ s.sentOk c cal nib crc p = true ∧ slowOf ((s.ch c).slow ++ [sta]) = some (id,
      data) ∧ id < 256 ∧ data < 65536) ∧
    (∃ (c : Fin 2) (s : State), s.chRuns c 6 = true) ∧
    (∃ (c : Fin 2) (s : State), s.chRuns c 6 = false) ∧
    (∃ (c : Fin 2) (s : State), (s.ch c).ssiStart = none) ∧
    (∃ (c : Fin 2) (b : Nat) (st : Nat) (s : State), (s.ch c).ssiStart = some st ∧ s.chRuns c 6 = true ∧ s.on
      (Reg.POS_CHc_SSI c) Fld.POS_CHc_SSI.ERREN = true ∧ b % 2 = 1) ∧
    (∃ (c : Fin 2) (b : Nat) (st : Nat) (s : State), (s.ch c).ssiStart = some st ∧ s.chRuns c 6 = true ∧ s.stale c
      (st - s.lat c) = false ∧ (s.on (Reg.POS_CHc_SSI c) Fld.POS_CHc_SSI.ERREN = false ∨ b % 2 = 0)) ∧
    (∃ (c : Fin 2) (n : Nat) (s : State), (s.chRuns c 5 = true ∨ s.chRuns c 6 = true) ∧ (s.ch c).frameAt +
      s.frameTimeout c ≤ n) ∧
    (∃ (c : Fin 2) (n : Nat) (s : State), n < (s.ch c).frameAt + s.frameTimeout c) ∧
    (∃ (c : Fin 2) (n : Nat) (s : State), s.inRun = true ∧ s.chState c = chCoast ∧ (s.ch c).coastAt + s.fld
      (Reg.POS_CHc_OBS c) Fld.POS_CHc_OBS.CTIME * 640000 ≤ n) ∧
    (∃ (c : Fin 2) (s : State), s.chState c ≠ chCoast) ∧
    (∃ (c : Fin 2) (s : State), s.chRuns c 1 = true) ∧
    (∃ (c : Fin 2) (s : State), s.chRuns c 1 = false) ∧
    (∃ (k : Fin 2) (n : Nat) (s : State), s.on (Reg.POS_SENSVn_CFG k) Fld.POS_SENSVn_CFG.EN = true ∧ s.on
      (Reg.POS_SENSVn_CFG k) Fld.POS_SENSVn_CFG.FAULT = false ∧ s.supplyAt k + esPerMs ≤ n) ∧
    (∃ (k : Fin 2) (n : Nat) (s : State), n < s.supplyAt k + esPerMs) :=
  ⟨⟨0, State.reset, by decide +kernel⟩,
    ⟨0, 0, [], 15, false, (((State.reset.setFld (Reg.POS_CHc_CFG 0) Fld.POS_CHc_CFG.MODE 5).setFld (Reg.POS_CHc_STAT
      0) Fld.POS_CHc_STAT.STATE 2).setCh 0 {}), by decide +kernel⟩,
    ⟨0, 26880, 0, [], 3, false, 3, 0, (((State.reset.setFld (Reg.POS_CHc_CFG 0) Fld.POS_CHc_CFG.MODE 5).setFld
      (Reg.POS_CHc_STAT 0) Fld.POS_CHc_STAT.STATE 2).setCh 0 { slow := [8, 0, 4, 4, 0, 0, 0, 0, 0, 0, 0, 0, 0, 0, 0]
      }), by decide +kernel⟩,
    ⟨0, (((State.reset.setFld (Reg.POS_CHc_CFG 0) Fld.POS_CHc_CFG.MODE 6).setFld (Reg.POS_CHc_STAT 0)
      Fld.POS_CHc_STAT.STATE 2).setCh 0 {}), by decide +kernel⟩,
    ⟨0, State.reset, by decide +kernel⟩,
    ⟨0, State.reset, by decide +kernel⟩,
    ⟨0, 1, 7, ((((State.reset.setFld (Reg.POS_CHc_CFG 0) Fld.POS_CHc_CFG.MODE 6).setFld (Reg.POS_CHc_STAT 0)
      Fld.POS_CHc_STAT.STATE 2).setFld (Reg.POS_CHc_SSI 0) Fld.POS_CHc_SSI.ERREN 1).setCh 0 { ssiStart := some 7 }),
      by decide +kernel⟩,
    ⟨0, 2, 7, (((State.reset.setFld (Reg.POS_CHc_CFG 0) Fld.POS_CHc_CFG.MODE 6).setFld (Reg.POS_CHc_STAT 0)
      Fld.POS_CHc_STAT.STATE 2).setCh 0 { ssiStart := some 7 }), by decide +kernel⟩,
    ⟨0, 64000, ((((State.reset.setFld (Reg.POS_CHc_CFG 0) Fld.POS_CHc_CFG.MODE 5).setFld (Reg.POS_CHc_STAT 0)
      Fld.POS_CHc_STAT.STATE 2).setFld (Reg.POS_CHc_SENT 0) Fld.POS_CHc_SENT.FTMO 1).setCh 0 {}), by decide +kernel⟩,
    ⟨0, 63999, ((((State.reset.setFld (Reg.POS_CHc_CFG 0) Fld.POS_CHc_CFG.MODE 5).setFld (Reg.POS_CHc_STAT 0)
      Fld.POS_CHc_STAT.STATE 2).setFld (Reg.POS_CHc_SENT 0) Fld.POS_CHc_SENT.FTMO 1).setCh 0 {}), by decide +kernel⟩,
    ⟨0, 640000, ((((State.reset.setFld (Reg.POS_CHc_CFG 0) Fld.POS_CHc_CFG.MODE 1).setFld (Reg.POS_CHc_STAT 0)
      Fld.POS_CHc_STAT.STATE chCoast).setFld (Reg.POS_CHc_OBS 0) Fld.POS_CHc_OBS.CTIME 1).setCh 0 {}),
      by decide +kernel⟩,
    ⟨0, State.reset, by decide +kernel⟩,
    ⟨0, (((State.reset.setFld (Reg.POS_CHc_CFG 0) Fld.POS_CHc_CFG.MODE 1).setFld (Reg.POS_CHc_STAT 0)
      Fld.POS_CHc_STAT.STATE 2).setCh 0 {}), by decide +kernel⟩,
    ⟨0, State.reset, by decide +kernel⟩,
    ⟨0, esPerMs, (State.reset.setFld (Reg.POS_SENSVn_CFG 0) Fld.POS_SENSVn_CFG.EN 1), by decide +kernel⟩,
    ⟨0, 0, State.reset, by decide +kernel⟩⟩

/-- Inputs that meet the hypotheses of FieldControl, clause by clause. -/
theorem witness_FieldControl :
    (∃ (i : Fin 16) (n : Nat) (s : State), s.evArmed i = true ∧ s.evReached i (max s.now n) = true ∧ ((s.at
      n).evBefore i).evArmed i = true ∧ ((s.at n).evBefore i).evReached i (max s.now n) = true) ∧
    (∃ (i : Fin 16) (n : Nat) (s : State), s.evArmed i = true ∧ s.evReached i (max s.now n) = true ∧ (∀ m, m < 2 →
      s.seqOn m = false) ∧ (∀ j, j < i.val → s.evArmed j = false)) ∧
    (∃ (i : Fin 16) (n : Nat) (s : State), (s.evArmed i = false ∨ s.evReached i (max s.now n) = false)) ∧
    (∃ (m : Fin 2) (s : State), s.seqOn m = false) ∧
    (∃ (m : Fin 2) (u : Nat) (v : Nat) (w : Nat) (s : State), s.seqOn m = true ∧ s.on Reg.POS_CFG Fld.POS_CFG.PAIRED
      = false ∧ s.pairsOf m = [u, v, w] ∧ u < v ∧ v < w ∧ w < 16) ∧
    (∃ (m : Fin 2) (n : Nat) (s : State), (s.fldStart m ≠ stWatch ∨ n < (s.fm m).startAt + s.watchLen m)) ∧
    (∃ (m : Fin 2) (n : Nat) (s : State), s.inRun = true ∧ s.fldStart m = stWatch ∧ (s.fm m).startAt + s.watchLen m ≤
      n ∧ s.allSafe m = false ∧ s.watchFinding m ≠ stWait ∧ s.watchFinding m ≠ stFailed) ∧
    (∃ (m : Fin 2) (n : Nat) (s : State), s.inRun = true ∧ s.fldStart m = stWait ∧ (s.fm m).startAt + 2 * s.watchLen
      m ≤ n) ∧
    (∃ (m : Fin 2) (n : Nat) (s : State), (s.fldStart m ≠ stWait ∨ n < (s.fm m).startAt + 2 * s.watchLen m)) ∧
    (∃ (m : Fin 2) (s : State), s.fldStart m = stCatch ∧ (s.fm m).startTick + 8 ≤ s.tick) ∧
    (∃ (m : Fin 2) (s : State), (s.fldStart m ≠ stCatch ∨ s.tick < (s.fm m).startTick + 8)) :=
  ⟨⟨0, 0, (State.reset.setFld (Reg.FLD_EVs_STAT 0) Fld.FLD_EVs_STAT.ARMED 1), by decide +kernel⟩,
    ⟨0, 0, (State.reset.setFld (Reg.FLD_EVs_STAT 0) Fld.FLD_EVs_STAT.ARMED 1), by decide +kernel⟩,
    ⟨0, 0, State.reset, by decide +kernel⟩,
    ⟨0, State.reset, by decide +kernel⟩,
    ⟨0, 0, 1, 2, (State.reset.setFld (Reg.FLD_MCm_STAT 0) Fld.FLD_MCm_STAT.SIXSTEP 1), by decide +kernel⟩,
    ⟨0, 0, State.reset, by decide +kernel⟩,
    ⟨0, 32000000, (((State.reset.setFld (Reg.FLD_MCm_STAT 0) Fld.FLD_MCm_STAT.START stWatch).setFld
      (Reg.FLD_MCm_START 0) Fld.FLD_MCm_START.IFEN 1).setFld Reg.PROT_USTAT Fld.PROT_USTAT.SAFE 0),
      by decide +kernel⟩,
    ⟨0, (2000 * esPerMs), (State.reset.setFld (Reg.FLD_MCm_STAT 0) Fld.FLD_MCm_STAT.START stWait), by decide +kernel⟩,
    ⟨0, 0, State.reset, by decide +kernel⟩,
    ⟨0, { (State.reset.setFld (Reg.FLD_MCm_STAT 0) Fld.FLD_MCm_STAT.START stCatch) with tick := 8 },
      by decide +kernel⟩,
    ⟨0, State.reset, by decide +kernel⟩⟩

/-- Inputs that meet the hypotheses of WeighHouseAndDischarge, clause by clause. -/
theorem witness_WeighHouseAndDischarge :
    (∃ (m : Fin 2) (u : Word) (s : State), s.wghEn m = true ∧ s.testPoint m ^^^ u ≠ (s.wm m).test) ∧
    (∃ (m : Fin 2) (u : Word) (s : State), (s.wghEn m = false ∨ s.testPoint m ^^^ u = (s.wm m).test)) ∧
    (∃ (s : State), s.disRunning = false) ∧
    (∃ (s : State), s.disRunning = true ∧ (s.at (s.dis.markAt + 100 * esPerMs)).disStalled = true) ∧
    (∃ (s : State), s.disRunning = true ∧ (s.at (s.dis.markAt + 100 * esPerMs)).disStalled = false) ∧
    (∃ (s : State), s.disRunning = true ∧ (∀ v, (s.at s.dis.deadlineAt).disVolt = some v → Sys2Proof.Num.val s.dis.target < v)) ∧
    (∃ (v : Rat) (s : State), s.disRunning = true ∧ (s.at s.dis.deadlineAt).disVolt = some v ∧ v ≤ Sys2Proof.Num.val
      s.dis.target) :=
  ⟨⟨0, 0x55555555, (State.reset.setFld (Reg.WGH_MCm_CFG 0) Fld.WGH_MCm_CFG.EN 1), by decide +kernel⟩,
    ⟨0, 0, State.reset, by decide +kernel⟩,
    ⟨State.reset, by decide +kernel⟩,
    ⟨({ (State.reset.setFld Reg.PROT_DIS_STAT Fld.PROT_DIS_STAT.STATE 1) with dis.mark := some 0x42000000 }.publish
      0x12B 1).publish 0x128 0x42000000, by decide +kernel⟩,
    ⟨(State.reset.setFld Reg.PROT_DIS_STAT Fld.PROT_DIS_STAT.STATE 1), by decide +kernel⟩,
    ⟨((State.reset.setFld Reg.PROT_DIS_STAT Fld.PROT_DIS_STAT.STATE 1).publish 0x12B 1).publish 0x128 0x42000000,
      by decide +kernel⟩,
    ⟨0, ((State.reset.setFld Reg.PROT_DIS_STAT Fld.PROT_DIS_STAT.STATE 1).publish 0x12B 1), by decide +kernel⟩⟩

/-- Inputs that meet the hypotheses of IsnakLinks, clause by clause. -/
theorem witness_IsnakLinks :
    (∃ (l : Fin 2) (s : State), (s.isk2Running l = false ∨ (s.lk l).out = false)) ∧
    (∃ (l : Fin 2) (s : State), s.isk2Running l = true ∧ (s.lk l).out = true) ∧
    (∃ (l : Fin 2) (s : State), (s.iskEn l = false ∨ s.isk1 l = true ∨ (s.lk l).upDue = true)) ∧
    (∃ (l : Fin 2) (s : State), s.iskEn l = true ∧ s.isk1 l = false ∧ (s.linkState l = linkEnum ∨ s.linkState l =
      linkLost) ∧ (s.lk l).upDue = false ∧ s.iskNodes l < 32) ∧
    (∃ (l : Fin 2) (s : State), (s.ticking = true ∨ s.iskEn l = false)) ∧
    (∃ (l : Fin 2) (s : State), s.ticking = false ∧ s.iskEn l = true ∧ s.isk1 l = false ∧ (s.lk l).upDue = true) ∧
    (∃ (l : Fin 2) (s : State), s.isk1Running l = false) ∧
    (∃ (l : Fin 2) (s : State), s.isk1Running l = true ∧ (s.lk l).answers ≠ 0 ∧ 0 < s.iskCfg l
      Fld.ISK_LINKl_CFG.LOSTN) ∧
    (∃ (l : Fin 2) (n : Nat) (s : State), (s.isk1Running l = false ∨ s.nextBoundary < n + 3200)) ∧
    (∃ (l : Fin 2) (n : Nat) (s : State), s.isk1Running l = true ∧ n + 3200 ≤ s.nextBoundary) ∧
    (∃ (l : Fin 2) (s : State), s.isk2Running l = false) ∧
    (∃ (l : Fin 2) (s : State), s.isk2Running l = true) :=
  ⟨⟨0, State.reset, by decide +kernel⟩,
    ⟨0, ((((ticks.setFld (Reg.ISK_LINKl_CFG 0) Fld.ISK_LINKl_CFG.EN 1).setFld (Reg.ISK_LINKl_CFG 0)
      Fld.ISK_LINKl_CFG.PROTO 0).setFld (Reg.ISK_LINKl_STAT 0) Fld.ISK_LINKl_STAT.STATE 2).setLk 0 { out := true }),
      by decide +kernel⟩,
    ⟨0, State.reset, by decide +kernel⟩,
    ⟨0, ((((ticks.setFld (Reg.ISK_LINKl_CFG 0) Fld.ISK_LINKl_CFG.EN 1).setFld (Reg.ISK_LINKl_CFG 0)
      Fld.ISK_LINKl_CFG.PROTO 0).setFld (Reg.ISK_LINKl_STAT 0) Fld.ISK_LINKl_STAT.STATE linkEnum).setLk 0 {}),
      by decide +kernel⟩,
    ⟨0, State.reset, by decide +kernel⟩,
    ⟨0, ((((State.reset.setFld (Reg.ISK_LINKl_CFG 0) Fld.ISK_LINKl_CFG.EN 1).setFld (Reg.ISK_LINKl_CFG 0)
      Fld.ISK_LINKl_CFG.PROTO 0).setFld (Reg.ISK_LINKl_STAT 0) Fld.ISK_LINKl_STAT.STATE 2).setLk 0 { upDue := true
      }), by decide +kernel⟩,
    ⟨0, State.reset, by decide +kernel⟩,
    ⟨0, ((((((ticks.setFld (Reg.ISK_LINKl_CFG 0) Fld.ISK_LINKl_CFG.EN 1).setFld (Reg.ISK_LINKl_CFG 0)
      Fld.ISK_LINKl_CFG.PROTO 1).setFld (Reg.ISK_LINKl_STAT 0) Fld.ISK_LINKl_STAT.STATE 2).setLk 0 {}).setFld
      (Reg.ISK_LINKl_CFG 0) Fld.ISK_LINKl_CFG.LOSTN 3).setLk 0 { answers := 1 }), by decide +kernel⟩,
    ⟨0, 0, State.reset, by decide +kernel⟩,
    ⟨0, 0, ((((ticks.setFld (Reg.ISK_LINKl_CFG 0) Fld.ISK_LINKl_CFG.EN 1).setFld (Reg.ISK_LINKl_CFG 0)
      Fld.ISK_LINKl_CFG.PROTO 1).setFld (Reg.ISK_LINKl_STAT 0) Fld.ISK_LINKl_STAT.STATE 2).setLk 0 {}),
      by decide +kernel⟩,
    ⟨0, State.reset, by decide +kernel⟩,
    ⟨0, ((((ticks.setFld (Reg.ISK_LINKl_CFG 0) Fld.ISK_LINKl_CFG.EN 1).setFld (Reg.ISK_LINKl_CFG 0)
      Fld.ISK_LINKl_CFG.PROTO 0).setFld (Reg.ISK_LINKl_STAT 0) Fld.ISK_LINKl_STAT.STATE 2).setLk 0 {}),
      by decide +kernel⟩⟩

/-- Inputs that meet the hypotheses of TickInstants, clause by clause. -/
theorem witness_TickInstants :
    (∃ (s : State), s.boundaryDue = false) ∧
    (∃ (s : State), s.boundaryDue = true) ∧
    (∃ (s : State), s.powerState ≠ pwrRun) ∧
    (∃ (s : State), s.ticking = false) ∧
    (∃ (s : State), s.ticking = true) ∧
    (∃ (s : State), s.eng.expired = false) ∧
    (∃ (s : State), s.eng.expired = true) ∧
    (∃ (s : State), (s.eng.watchTo = 0 ∨ s.tick < s.eng.watchTo)) ∧
    (∃ (s : State), s.eng.watchTo ≠ 0 ∧ s.eng.watchTo ≤ s.tick) :=
  ⟨⟨State.reset, by decide +kernel⟩,
    ⟨ticks, by decide +kernel⟩,
    ⟨(State.reset.setFld Reg.PWR_STATE Fld.PWR_STATE.STATE pwrPark), by decide +kernel⟩,
    ⟨State.reset, by decide +kernel⟩,
    ⟨ticks, by decide +kernel⟩,
    ⟨State.reset, by decide +kernel⟩,
    ⟨{ State.reset with eng.expired := true }, by decide +kernel⟩,
    ⟨State.reset, by decide +kernel⟩,
    ⟨{ State.reset with eng.watchTo := 5, tick := 5 }, by decide +kernel⟩⟩

/-- Inputs that meet the hypotheses of EnginePasses, clause by clause. -/
theorem witness_EnginePasses :
    (∃ (s : State), (s.engRun = false ∨ s.eng.started = false ∨ s.eng.voted = true ∨ s.eng.reached ≠ none)) ∧
    (∃ (s : State), s.engRun = true ∧ s.eng.started = true ∧ s.eng.voted = false ∧ s.eng.reached = none) ∧
    (∃ (s : State), s.engRun = true ∧ s.eng.started = true ∧ s.eng.voted = false) ∧
    (∃ (s : State), (s.engRun = false ∨ s.eng.started = false ∨ s.eng.voted = true)) ∧
    (∃ (s : State), s.ticking = false) ∧
    (∃ (s : State), s.ticking = true ∧ s.scrubStall = none) ∧
    (∃ (n : Nat) (s : State), s.ticking = true ∧ s.scrubStall = some n) ∧
    (∃ (s : State), s.holdsBank = true) ∧
    (∃ (s : State), s.holdsBank = false) :=
  ⟨⟨State.reset, by decide +kernel⟩,
    ⟨{ (State.reset.setFld Reg.ENG_STAT Fld.ENG_STAT.RUN 1) with eng.started := true }, by decide +kernel⟩,
    ⟨{ (State.reset.setFld Reg.ENG_STAT Fld.ENG_STAT.RUN 1) with eng.started := true }, by decide +kernel⟩,
    ⟨State.reset, by decide +kernel⟩,
    ⟨State.reset, by decide +kernel⟩,
    ⟨ticks, by decide +kernel⟩,
    ⟨2, ((ticks.setFld Reg.ENG_STAT Fld.ENG_STAT.RUN 1).setReg (Reg.ENG_RUNMAPj 0) 4), by decide +kernel⟩,
    ⟨((State.reset.setFld Reg.TPR_STAT Fld.TPR_STAT.HOLD 1).setFld Reg.TPR_STAT Fld.TPR_STAT.HLEFT 2),
      by decide +kernel⟩,
    ⟨State.reset, by decide +kernel⟩⟩

/-- Inputs that meet the hypotheses of CanTraffic, clause by clause. -/
theorem witness_CanTraffic :
    (∃ (c : Fin 4) (s : State), s.canCanFetch c = false) ∧
    (∃ (c : Fin 4) (s : State), s.canCanFetch c = true ∧ (s.firstBad (s.canTxSlot c (s.canTxIdx c)) 8).isSome = false
      ∧ s.canSlotSound c = false) ∧
    (∃ (c : Fin 4) (s : State), s.canCanFetch c = true ∧ (s.firstBad (s.canTxSlot c (s.canTxIdx c)) 8).isSome = false
      ∧ s.canSlotSound c = true ∧ t1Fmt (s.sram (s.canTxSlot c (s.canTxIdx c) + 4)) < 2 ∧ bitAt (s.sram (s.canTxSlot
      c (s.canTxIdx c) + 4)) 28 = false) ∧
    (∃ (c : Fin 4) (n : Nat) (s : State), (s.at n).canMayStart c = false) ∧
    (∃ (c : Fin 4) (n : Nat) (f : CanTx) (s : State), (s.at n).canMayStart c = true ∧ (s.canCtl c).tts = [] ∧ (s.at
      n).ttGuarded c n = false ∧ lowestFrame ((s.at n).canCompeting c) = some f) ∧
    (∃ (c : Fin 4) (f : CanTx) (s : State), (s.canCtl c).staged.find? (·.started) = some f) ∧
    (∃ (c : Fin 4) (s : State), (s.canCtl c).staged.find? (·.started) = none ∧ ((s.canCtl c).tts.any fun f =>
      f.started && !f.expect) = false) ∧
    (∃ (c : Fin 4) (k : Fin 4096) (f : CanTx) (n : Nat) (s : State), ((s.canCtl c).staged.find? fun f => f.slot ==
      k.val && !f.started) = some f ∧ f.launch.bind (·.instant) = some n ∧ s.fld (Reg.CAN_TXCFG c)
      Fld.CAN_TXCFG.LATEWIN ≠ 0) ∧
    (∃ (c : Fin 4) (k : Fin 4096) (s : State), ((s.canCtl c).staged.find? fun f => f.slot == k.val && !f.started) =
      none) ∧
    (∃ (c : Fin 4) (s : State), (s.canAlive c = false ∨ s.canRuns c = false ∧ s.canDet c = false ∨ s.fld
      (Reg.CAN_CTRL c) Fld.CAN_CTRL.MODE = 3)) ∧
    (∃ (c : Fin 4) (x1 : Word) (s : State), s.canAlive c = true ∧ s.canRuns c = true ∧ s.canDet c = false ∧ s.fld
      (Reg.CAN_CTRL c) Fld.CAN_CTRL.MODE ≠ 3 ∧ x1.toNat % 4 < 2 ∧ s.fld (Reg.CAN_ERR c) Fld.CAN_ERR.REC ≤ 127) :=
  ⟨⟨0, State.reset, by decide +kernel⟩,
    ⟨0, (((State.reset.setFld Reg.CLK_STAT Fld.CLK_STAT.FAB 0).setFld (Reg.CAN_TXCFG 0) Fld.CAN_TXCFG.EN 1).setCanCtl
      0 { txPi := 1 }), by decide +kernel⟩,
    ⟨0, ((((State.reset.setFld Reg.CLK_STAT Fld.CLK_STAT.FAB 0).setFld (Reg.CAN_TXCFG 0) Fld.CAN_TXCFG.EN
      1).setCanCtl 0 { txPi := 1 }).setSram 28 (Crc.checkC (List.replicate 28 0 ++ bytesOfWord (dataFold (canTxRing
      0) 0 0)))), by decide +kernel⟩,
    ⟨0, 0, State.reset, by decide +kernel⟩,
    ⟨0, 0, (⟨0, 0, List.replicate 7 0, [], none, false⟩ : CanTx), ((((State.reset.setFld Reg.CLK_STAT
      Fld.CLK_STAT.FAB 0).setFld (Reg.CAN_CTRL 0) Fld.CAN_CTRL.INIT 0).setFld (Reg.CAN_STAT 0) Fld.CAN_STAT.RUN
      1).setCanCtl 0 { staged := [(⟨0, 0, List.replicate 7 0, [], none, false⟩ : CanTx)] }), by decide +kernel⟩,
    ⟨0, (⟨0, 0, List.replicate 7 0, [], none, true⟩ : CanTx), ((((State.reset.setFld Reg.CLK_STAT Fld.CLK_STAT.FAB
      0).setFld (Reg.CAN_CTRL 0) Fld.CAN_CTRL.INIT 0).setFld (Reg.CAN_STAT 0) Fld.CAN_STAT.RUN 1).setCanCtl 0 {
      staged := [(⟨0, 0, List.replicate 7 0, [], none, true⟩ : CanTx)] }), by decide +kernel⟩,
    ⟨0, State.reset, by decide +kernel⟩,
    ⟨0, 0, (⟨0, 0, List.replicate 7 0, [], some ⟨0, 0, some 1, some 640⟩, false⟩ : CanTx), 640,
      (((((State.reset.setFld Reg.CLK_STAT Fld.CLK_STAT.FAB 0).setFld (Reg.CAN_CTRL 0) Fld.CAN_CTRL.INIT 0).setFld
      (Reg.CAN_STAT 0) Fld.CAN_STAT.RUN 1).setFld (Reg.CAN_TXCFG 0) Fld.CAN_TXCFG.LATEWIN 1).setCanCtl 0 { staged :=
      [(⟨0, 0, List.replicate 7 0, [], some ⟨0, 0, some 1, some 640⟩, false⟩ : CanTx)] }), by decide +kernel⟩,
    ⟨0, 0, State.reset, by decide +kernel⟩,
    ⟨0, State.reset, by decide +kernel⟩,
    ⟨0, 0, (((State.reset.setFld Reg.CLK_STAT Fld.CLK_STAT.FAB 0).setFld (Reg.CAN_CTRL 0) Fld.CAN_CTRL.INIT 0).setFld
      (Reg.CAN_STAT 0) Fld.CAN_STAT.RUN 1), by decide +kernel⟩⟩

/-- Inputs that meet the hypotheses of CanErrorStates, clause by clause. -/
theorem witness_CanErrorStates :
    (∃ (c : Fin 4) (s : State), s.canDet c = true) ∧
    (∃ (c : Fin 4) (s : State), s.canDet c = false) ∧
    (∃ (c : Fin 4) (st : Fin 3) (s : State), (s.canDet c = true ∨ s.canErrState c = st.val ∨ s.canErrState c = 2 ∨
      s.canAlive c = false)) ∧
    (∃ (c : Fin 4) (st : Fin 3) (s : State), s.canDet c = false ∧ s.canErrState c ≠ st.val ∧ s.canErrState c ≠ 2 ∧
      s.canAlive c = true) ∧
    (∃ (c : Fin 4) (s : State), (s.canErrState c ≠ 2 ∨ (s.canCtl c).recovering = false ∨ s.canInit c = true)) ∧
    (∃ (c : Fin 4) (s : State), s.canErrState c = 2 ∧ (s.canCtl c).recovering = true ∧ s.canInit c = false) ∧
    (∃ (c : Fin 4) (s : State), s.canAlive c = true ∧ s.canInit c = false ∧ s.canDet c = false ∧ s.canErrState c ≠ 2
      ∧ (s.canCtl c).swap = none) ∧
    (∃ (c : Fin 4) (s : State), (s.canAlive c = false ∨ s.canInit c = true ∨ s.canDet c = true ∨ s.canErrState c =
      2)) ∧
    (∃ (c : Fin 4) (s : State), s.canDet c = true ∧ s.fld (Reg.CAN_STAT c) Fld.CAN_STAT.CAND < s.fld (Reg.CAN_AD c)
      Fld.CAN_AD.NCAND ∧ s.fld (Reg.CAN_AD c) Fld.CAN_AD.NCAND < 8) ∧
    (∃ (c : Fin 4) (s : State), s.canDet c = true ∧ s.fld (Reg.CAN_AD c) Fld.CAN_AD.NCAND ≤ s.fld (Reg.CAN_STAT c)
      Fld.CAN_STAT.CAND) :=
  ⟨⟨0, ((State.reset.setFld Reg.CLK_STAT Fld.CLK_STAT.FAB 0).setFld (Reg.CAN_STAT 0) Fld.CAN_STAT.DET 1),
      by decide +kernel⟩,
    ⟨0, State.reset, by decide +kernel⟩,
    ⟨0, 0, State.reset, by decide +kernel⟩,
    ⟨0, 1, (State.reset.setFld Reg.CLK_STAT Fld.CLK_STAT.FAB 0), by decide +kernel⟩,
    ⟨0, State.reset, by decide +kernel⟩,
    ⟨0, (((((State.reset.setFld Reg.CLK_STAT Fld.CLK_STAT.FAB 0).setFld (Reg.CAN_CTRL 0) Fld.CAN_CTRL.INIT 0).setFld
      (Reg.CAN_STAT 0) Fld.CAN_STAT.RUN 1).setFld (Reg.CAN_ERR 0) Fld.CAN_ERR.STATE 2).setCanCtl 0 { recovering :=
      true }), by decide +kernel⟩,
    ⟨0, (((State.reset.setFld Reg.CLK_STAT Fld.CLK_STAT.FAB 0).setFld (Reg.CAN_CTRL 0) Fld.CAN_CTRL.INIT 0).setFld
      (Reg.CAN_STAT 0) Fld.CAN_STAT.RUN 1), by decide +kernel⟩,
    ⟨0, State.reset, by decide +kernel⟩,
    ⟨0, (((State.reset.setFld Reg.CLK_STAT Fld.CLK_STAT.FAB 0).setFld (Reg.CAN_STAT 0) Fld.CAN_STAT.DET 1).setFld
      (Reg.CAN_AD 0) Fld.CAN_AD.NCAND 2), by decide +kernel⟩,
    ⟨0, ((((State.reset.setFld Reg.CLK_STAT Fld.CLK_STAT.FAB 0).setFld (Reg.CAN_STAT 0) Fld.CAN_STAT.DET 1).setFld
      (Reg.CAN_AD 0) Fld.CAN_AD.NCAND 2).setFld (Reg.CAN_STAT 0) Fld.CAN_STAT.CAND 2), by decide +kernel⟩⟩

/-- Inputs that meet the hypotheses of CanMatrixAndSpare, clause by clause. -/
theorem witness_CanMatrixAndSpare :
    (∃ (c : Fin 4) (n : Nat) (s : State), (s.ttOn c = false ∨ s.canAlive c = false ∨ s.canInit c = true ∨ s.ttTime
      (s.at n).vtValid (max s.now n) % s.ttCyclen c ≠ 0)) ∧
    (∃ (c : Fin 4) (n : Nat) (s : State), s.ttOn c = true ∧ s.canAlive c = true ∧ s.canInit c = false ∧ s.ttTime
      (s.at n).vtValid (max s.now n) % s.ttCyclen c = 0) ∧
    (∃ (c : Fin 4) (j : Fin 16) (s : State), s.ttOn c = true ∧ s.canAlive c = true ∧ s.canRuns c = true ∧ s.canInit c
      = false ∧ (s.ttAct c (s.ttCycle c) j = 1 ∨ s.ttAct c (s.ttCycle c) j = 2)) ∧
    (∃ (c : Fin 4) (j : Fin 16) (s : State), (s.ttOn c = false ∨ s.canRuns c = false ∨ s.ttAct c (s.ttCycle c) j =
      0)) ∧
    (∃ (c : Fin 4) (j : Fin 16) (f : CanTt) (s : State), ((s.canCtl c).tts.find? fun f => f.column == j.val &&
      (f.expect || !f.started)) = some f) ∧
    (∃ (c : Fin 4) (j : Fin 16) (s : State), ((s.canCtl c).tts.find? fun f => f.column == j.val && (f.expect ||
      !f.started)) = none) ∧
    (∃ (c : Fin 4) (s : State), s.canServer c = none) ∧
    (∃ (c : Fin 4) (s : State), s.canServer c = some (canUnit c) ∧ ((s.unitDetected (canUnit c) unitFailed).stopCan
      c).canSpareClaimable = true) ∧
    (∃ (c : Fin 4) (s : State), s.canServer c = some (canUnit c) ∧ ((s.unitDetected (canUnit c) unitFailed).stopCan
      c).canSpareClaimable = false) ∧
    (∃ (c : Fin 4) (s : State), ((s.canCtl c).swap = none ∨ s.canAlive c = false)) ∧
    (∃ (c : Fin 4) (k : Nat) (s : State), (s.canCtl c).swap = some k ∧ s.canAlive c = true) ∧
    (∃ (c : Fin 4) (s : State), (∀ h, s.shadowOf canSpareUnit = some h → h.code ≠ canUnit c)) ∧
    (∃ (c : Fin 4) (h : Shadowing) (s : State), s.shadowOf canSpareUnit = some h ∧ h.code = canUnit c) :=
  ⟨⟨0, 0, State.reset, by decide +kernel⟩,
    ⟨0, 0, ((((State.reset.setFld Reg.CLK_STAT Fld.CLK_STAT.FAB 0).setFld (Reg.CAN_CTRL 0) Fld.CAN_CTRL.INIT
      0).setFld (Reg.CAN_STAT 0) Fld.CAN_STAT.RUN 1).setFld (Reg.CAN_TT 0) Fld.CAN_TT.EN 1), by decide +kernel⟩,
    ⟨0, 3, (((((State.reset.setFld Reg.CLK_STAT Fld.CLK_STAT.FAB 0).setFld (Reg.CAN_CTRL 0) Fld.CAN_CTRL.INIT
      0).setFld (Reg.CAN_STAT 0) Fld.CAN_STAT.RUN 1).setFld (Reg.CAN_TT 0) Fld.CAN_TT.EN 1).setFld (Reg.CAN_TTMy_j 0
      0 3) Fld.CAN_TTMy_j.ACT 1), by decide +kernel⟩,
    ⟨0, 0, State.reset, by decide +kernel⟩,
    ⟨0, 3, (⟨0, 3, true, [], [], false, false⟩ : CanTt), (((((State.reset.setFld Reg.CLK_STAT Fld.CLK_STAT.FAB
      0).setFld (Reg.CAN_CTRL 0) Fld.CAN_CTRL.INIT 0).setFld (Reg.CAN_STAT 0) Fld.CAN_STAT.RUN 1).setFld (Reg.CAN_TT
      0) Fld.CAN_TT.EN 1).setCanCtl 0 { tts := [(⟨0, 3, true, [], [], false, false⟩ : CanTt)] }), by decide +kernel⟩,
    ⟨0, 0, State.reset, by decide +kernel⟩,
    ⟨0, (State.reset.setFld (Reg.BST_Uu 48) Fld.BST_Uu.STATE unitFailed), by decide +kernel⟩,
    ⟨0, State.reset, by decide +kernel⟩,
    ⟨0, (State.reset.setFld Reg.CAN_SPSTAT Fld.CAN_SPSTAT.SERVE 1), by decide +kernel⟩,
    ⟨0, State.reset, by decide +kernel⟩,
    ⟨0, 2, ((State.reset.setFld Reg.CLK_STAT Fld.CLK_STAT.FAB 0).setCanCtl 0 { swap := some 2 }), by decide +kernel⟩,
    ⟨0, State.reset, by decide +kernel⟩,
    ⟨0, (⟨canSpareUnit, canUnit 0, 0, 0⟩ : Shadowing), { State.reset with bst.shadows := [(⟨canSpareUnit, canUnit 0,
      0, 0⟩ : Shadowing)] }, by decide +kernel⟩⟩

/-- Inputs that meet the hypotheses of EthernetTraffic, clause by clause. -/
theorem witness_EthernetTraffic :
    (∃ (p : Fin 2) (s : State), (s.ethAlive = false ∨ s.ethTxEn p = false ∨ s.ethHalted p = true ∨ s.ethTxIdx p =
      (s.ethPort p).txPi)) ∧
    (∃ (p : Fin 2) (s : State), s.ethAlive = true ∧ s.ethTxEn p = true ∧ s.ethHalted p = false ∧ s.ethTxIdx p ≠
      (s.ethPort p).txPi ∧ (s.ethPort p).staged.length < 4 ∧ (s.firstBad (s.ethTxSlot p (s.ethTxIdx p)) 8).isSome =
      false ∧ s.ethSlotSound p = false) ∧
    (∃ (p : Fin 2) (s : State), s.ethAlive = true ∧ s.ethTxEn p = true ∧ s.ethHalted p = false ∧ s.ethTxIdx p ≠
      (s.ethPort p).txPi ∧ (s.ethPort p).staged.length < 4 ∧ (s.firstBad (s.ethTxSlot p (s.ethTxIdx p)) 8).isSome =
      false ∧ s.ethSlotSound p = true ∧ bitAt (s.sram (s.ethTxSlot p (s.ethTxIdx p))) 12 = false) ∧
    (∃ (p : Fin 2) (n : Nat) (f : EthTx) (rest : List EthTx) (s : State), (s.ethPort p).staged = f :: rest ∧
      f.started = false ∧ s.ethAlive = true ∧ (s.at n).ethLaunched f = true ∧ (s.at n).ethExpired p f = false) ∧
    (∃ (p : Fin 2) (s : State), (s.ethAlive = false ∨ (s.ethPort p).staged = [])) ∧
    (∃ (p : Fin 2) (f : EthTx) (rest : List EthTx) (s : State), (s.ethPort p).staged = f :: rest ∧ f.started = true) ∧
    (∃ (p : Fin 2) (s : State), (∀ f rest, (s.ethPort p).staged = f :: rest → f.started = false)) ∧
    (∃ (p : Fin 2) (n : Nat) (f : EthTx) (rest : List EthTx) (s : State), (s.ethPort p).staged = f :: rest ∧
      f.started = false ∧ (s.at n).ethExpired p f = true) ∧
    (∃ (p : Fin 2) (n : Nat) (s : State), (∀ f rest, (s.ethPort p).staged = f :: rest → f.started = true ∨ (s.at
      n).ethExpired p f = false)) ∧
    (∃ (s : State), s.ethAlive = false) ∧
    (∃ (d : List Byte) (b : Bool) (s : State), s.ethAlive = true ∧ (b = false ∨ d.length < 60 ∨ 1518 < d.length)) ∧
    (∃ (p : Fin 2) (d : List Byte) (s : State), s.ethAlive = true ∧ 60 ≤ d.length ∧ d.length ≤ 1518 ∧ ((List.range
      16).find? fun n => s.ethMatches p n d) = none ∧ s.on (Reg.ETH_Pp_CFG p) Fld.ETH_Pp_CFG.NOMATCH = false) ∧
    (∃ (p : Fin 2) (d : List Byte) (f : Nat) (s : State), s.ethAlive = true ∧ 60 ≤ d.length ∧ d.length ≤ 1518 ∧
      ((List.range 16).find? fun n => s.ethMatches p n d) = some f ∧ s.fld (Reg.ETH_Pp_FLTf_C p f)
      Fld.ETH_Pp_FLTf_C.ACT = 1 ∧ (s.ethRxEn p = false ∨ s.ethRxFree p = 0)) ∧
    (∃ (p : Fin 2) (d : List Byte) (f : Nat) (s : State), s.ethAlive = true ∧ 60 ≤ d.length ∧ d.length ≤ 1518 ∧
      ((List.range 16).find? fun n => s.ethMatches p n d) = some f ∧ s.fld (Reg.ETH_Pp_FLTf_C p f)
      Fld.ETH_Pp_FLTf_C.ACT = 1 ∧ s.ethRxEn p = true ∧ s.ethRxFree p ≠ 0) :=
  ⟨⟨0, State.reset, by decide +kernel⟩,
    ⟨0, { ((State.reset.setFld Reg.CLK_STAT Fld.CLK_STAT.FAB 0).setFld (Reg.ETH_Pp_RING 0) Fld.ETH_Pp_RING.TXEN 1)
      with eth := [(0, { txPi := 1 })] }, by decide +kernel⟩,
    ⟨0, ({ ((State.reset.setFld Reg.CLK_STAT Fld.CLK_STAT.FAB 0).setFld (Reg.ETH_Pp_RING 0) Fld.ETH_Pp_RING.TXEN 1)
      with eth := [(0, { txPi := 1 })] }.setSram 28 (Crc.checkC (List.replicate 28 0 ++ bytesOfWord (dataFold
      (ethTxRing 0) 0 0)))), by decide +kernel⟩,
    ⟨0, 0, (⟨0, 0, 60, false, none, none, 0, [], false⟩ : EthTx), [], { (State.reset.setFld Reg.CLK_STAT
      Fld.CLK_STAT.FAB 0) with eth := [(0, { staged := [(⟨0, 0, 60, false, none, none, 0, [], false⟩ : EthTx)] })] },
      by decide +kernel⟩,
    ⟨0, State.reset, by decide +kernel⟩,
    ⟨0, (⟨0, 0, 60, false, none, none, 0, [], true⟩ : EthTx), [], { (State.reset.setFld Reg.CLK_STAT Fld.CLK_STAT.FAB
      0) with eth := [(0, { staged := [(⟨0, 0, 60, false, none, none, 0, [], true⟩ : EthTx)] })] },
      by decide +kernel⟩,
    ⟨0, State.reset, fun _ _ h => by cases h⟩,
    ⟨0, 0, (⟨0, 0, 60, false, none, some (1, 0), 0, [], false⟩ : EthTx), [], { (State.reset.setFld Reg.CLK_STAT
      Fld.CLK_STAT.FAB 0) with eth := [(0, { staged := [(⟨0, 0, 60, false, none, some (1, 0), 0, [], false⟩ : EthTx)]
      })] }, by decide +kernel⟩,
    ⟨0, 0, State.reset, fun _ _ h => by cases h⟩,
    ⟨State.reset, by decide +kernel⟩,
    ⟨[], false, (State.reset.setFld Reg.CLK_STAT Fld.CLK_STAT.FAB 0), by decide +kernel⟩,
    ⟨0, (List.replicate 60 0), ((State.reset.setFld Reg.CLK_STAT Fld.CLK_STAT.FAB 0).setFld (Reg.ETH_Pp_CFG 0)
      Fld.ETH_Pp_CFG.NOMATCH 0), by decide +kernel⟩,
    ⟨0, (List.replicate 60 0), 0, (((State.reset.setFld Reg.CLK_STAT Fld.CLK_STAT.FAB 0).setFld (Reg.ETH_Pp_FLTf_C 0
      0) Fld.ETH_Pp_FLTf_C.EN 1).setFld (Reg.ETH_Pp_FLTf_C 0 0) Fld.ETH_Pp_FLTf_C.ACT 1), by decide +kernel⟩,
    ⟨0, (List.replicate 60 0), 0, (((((State.reset.setFld Reg.CLK_STAT Fld.CLK_STAT.FAB 0).setFld (Reg.ETH_Pp_FLTf_C
      0 0) Fld.ETH_Pp_FLTf_C.EN 1).setFld (Reg.ETH_Pp_FLTf_C 0 0) Fld.ETH_Pp_FLTf_C.ACT 1).setFld (Reg.ETH_Pp_RING 0)
      Fld.ETH_Pp_RING.RXEN 1).setFld (Reg.ETH_Pp_RING 0) Fld.ETH_Pp_RING.RXSIZE 16), by decide +kernel⟩⟩

/-- Inputs that meet the hypotheses of EthernetLinkAndTime, clause by clause. -/
theorem witness_EthernetLinkAndTime :
    (∃ (n : Nat) (s : State), s.vt.steered = some n) ∧
    (∃ (s : State), s.vt.steered = none) ∧
    (∃ (s : State), s.on Reg.ETH_MDIO Fld.ETH_MDIO.BUSY = false) ∧
    (∃ (s : State), s.on Reg.ETH_MDIO Fld.ETH_MDIO.BUSY = true) ∧
    (∃ (s : State), s.plcaFollower = true) ∧
    (∃ (s : State), s.plcaFollower = false) :=
  ⟨⟨7, { State.reset with vt.steered := some 7 }, by decide +kernel⟩,
    ⟨State.reset, by decide +kernel⟩,
    ⟨State.reset, by decide +kernel⟩,
    ⟨(State.reset.setFld Reg.ETH_MDIO Fld.ETH_MDIO.BUSY 1), by decide +kernel⟩,
    ⟨((State.reset.setFld (Reg.ETH_Pp_CFG 1) Fld.ETH_Pp_CFG.PLCA_EN 1).setFld (Reg.ETH_Pp_CFG 1)
      Fld.ETH_Pp_CFG.PLCA_ID 1), by decide +kernel⟩,
    ⟨State.reset, by decide +kernel⟩⟩

/-- Inputs that meet the hypotheses of ScansAndImage, clause by clause. -/
theorem witness_ScansAndImage :
    (∃ (n : Fin 8) (s : State), (s.scanPeriod n = 0 ∨ s.scanCfg n Fld.CHK_SCs_CFG.EN = 0)) ∧
    (∃ (n : Fin 8) (s : State), s.scanPeriod n ≠ 0 ∧ s.scanCfg n Fld.CHK_SCs_CFG.EN ≠ 0) ∧
    (∃ (n : Fin 8) (s : State), (s.scanRuns n = false ∨ (s.scan n).spoiled = true)) ∧
    (∃ (n : Fin 8) (s : State), s.scanRuns n = true ∧ (s.scan n).spoiled = false ∧ (s.targets n).length ≤ (s.scan
      n).target) ∧
    (∃ (s : State), s.pwr.capturing = false) ∧
    (∃ (s : State), s.pwr.capturing = true) :=
  ⟨⟨0, (State.reset.setFld (Reg.CHK_SCs_CFG 0) Fld.CHK_SCs_CFG.EN 0), by decide +kernel⟩,
    ⟨0, State.reset, by decide +kernel⟩,
    ⟨0, State.reset, by decide +kernel⟩,
    ⟨3, ((State.reset.setFld (Reg.CHK_SCs_STAT 3) Fld.CHK_SCs_STAT.RUN 1).setFld (Reg.CHK_SCs_CFG 3)
      Fld.CHK_SCs_CFG.KIND 4), by decide +kernel⟩,
    ⟨State.reset, by decide +kernel⟩,
    ⟨{ State.reset with pwr.capturing := true }, by decide +kernel⟩⟩

/-- Inputs that meet the hypotheses of SelfTestAndRepair, clause by clause. -/
theorem witness_SelfTestAndRepair :
    (∃ (n : Nat) (s : State), ((s.at n).rotating = false ∨ (s.at n).inRun = false ∨ (s.at n).runTime < s.bst.stepAt +
      (s.at n).interval)) ∧
    (∃ (n : Nat) (c : Nat) (s : State), (s.at n).rotating = true ∧ (s.at n).inRun = true ∧ s.bst.stepAt + (s.at
      n).interval ≤ (s.at n).runTime ∧ s.bst.pend = [] ∧ s.nextUnit (s.fld Reg.BST_STAT Fld.BST_STAT.NEXT) = some c ∧
      s.unit c ≠ unitFailed ∧ s.unit c ≠ unitRetired ∧ s.condOk = false) ∧
    (∃ (n : Nat) (s : State), ((s.at n).rotating = false ∨ (s.at n).inRun = false)) ∧
    (∃ (n : Nat) (c : Nat) (s : State), (s.at n).rotating = true ∧ (s.at n).inRun = true ∧ s.bst.pend = [c] ∧
      homeSpare c = true ∧ s.unit c = unitFree ∧ s.condOk = true ∧ s.testable c = true) ∧
    (∃ (c : Fin 256), classOf c.val = .comparator) ∧
    (∃ (c : Fin 256) (s : State), (s.bst.tests.find? fun t => t.code == c.val) = none) ∧
    (∃ (c : Fin 256) (r : TestRun) (s : State), classOf c.val = .memory ∧ (s.bst.tests.find? fun t => t.code ==
      c.val) = some r) ∧
    (∃ (c : Fin 256) (r : TestRun) (s : State), classOf c.val ≠ .comparator ∧ (s.bst.tests.find? fun t => t.code ==
      c.val) = some r ∧ r.readmit = true) ∧
    (∃ (s : State), s.bst.tests = []) ∧
    (∃ (k : Fin 8) (s : State), (s.setReg Reg.BST_COND (BitVec.ofNat 32 k.val)).condOk = false) ∧
    (∃ (c : Fin 256) (s : State), (s.unit c ≠ unitQuarantine ∨ classOf c.val = .pll ∨ unitExists c = false)) ∧
    (∃ (c : Fin 256) (s : State), s.unit c = unitQuarantine ∧ classOf c.val ≠ .pll ∧ classOf c.val ≠ .sar ∧
      unitExists c = true) ∧
    (∃ (c : Fin 256) (s : State), s.unit c = unitQuarantine ∧ classOf c.val ≠ .pll ∧ classOf c.val ≠ .sar ∧
      unitExists c = true ∧ s.bst.detected.contains c.val = false) ∧
    (∃ (r : MemRow), (classOf (rowKey r).1 ≠ .memory ∨ unitExists (rowKey r).1 = false)) ∧
    (∃ (r : MemRow) (s : State), classOf (rowKey r).1 = .memory ∧ unitExists (rowKey r).1 = true ∧ s.rowErred (rowKey
      r) = false) ∧
    (∃ (r : MemRow) (b : Bool) (s : State), classOf (rowKey r).1 = .memory ∧ unitExists (rowKey r).1 = true ∧ (b =
      true ∨ s.rowErred (rowKey r) = true) ∧ s.bst.copying.contains (rowKey r) = false ∧ s.mappedIn (rowKey r).1
      (rowKey r).2.1 + (s.bst.copying.countP fun x => x.1 == (rowKey r).1 && x.2.1 == (rowKey r).2.1) < spareRows) ∧
    (∃ (r : MemRow) (s : State), s.bst.copying.contains (rowKey r) = false) ∧
    (∃ (r : MemRow) (s : State), s.bst.copying.contains (rowKey r) = true ∧ s.mappedIn (rowKey r).1 (rowKey r).2.1 <
      spareRows) ∧
    (∃ (s : State), s.bst.tokens = []) ∧
    (∃ (k : Token) (rest : List Token) (s : State), s.bst.tokens = k :: rest ∧ s.tokenReason k = 0) ∧
    (∃ (k : Token) (rest : List Token) (s : State), s.bst.tokens = k :: rest ∧ s.tokenReason k ≠ 0) :=
  ⟨⟨0, State.reset, by decide +kernel⟩,
    ⟨(24 * 3600 * esPerSecond), 0, (State.reset.setFld Reg.BST_CFG Fld.BST_CFG.ROTEN 1), by decide +kernel⟩,
    ⟨0, (State.reset.setFld Reg.BST_STAT Fld.BST_STAT.LCS 3), by decide +kernel⟩,
    ⟨0, 3, { ((((State.reset.setFld Reg.CLK_STAT Fld.CLK_STAT.FAB 0).setFld Reg.BST_CFG Fld.BST_CFG.ROTEN 1).setFld
      (Reg.BST_Uu 3) Fld.BST_Uu.STATE unitFree).setFld Reg.BST_COND Fld.BST_COND.CLKOK 1) with bst.pend := [3] },
      by decide +kernel⟩,
    ⟨0x38, by decide +kernel⟩,
    ⟨0, State.reset, by decide +kernel⟩,
    ⟨0x44, (⟨0x44, 0, 1, 0, false⟩ : TestRun), { State.reset with bst.tests := [(⟨0x44, 0, 1, 0, false⟩ : TestRun)]
      }, by decide +kernel⟩,
    ⟨3, (⟨3, 0, 1, 0, true⟩ : TestRun), { State.reset with bst.tests := [(⟨3, 0, 1, 0, true⟩ : TestRun)] },
      by decide +kernel⟩,
    ⟨State.reset, by decide +kernel⟩,
    ⟨0, State.reset, by decide +kernel⟩,
    ⟨0, State.reset, by decide +kernel⟩,
    ⟨0x24, (State.reset.setFld (Reg.BST_Uu 36) Fld.BST_Uu.STATE unitQuarantine), by decide +kernel⟩,
    ⟨0x24, (State.reset.setFld (Reg.BST_Uu 36) Fld.BST_Uu.STATE unitQuarantine), by decide +kernel⟩,
    ⟨(⟨0x24, 1, 2⟩ : MemRow), by decide +kernel⟩,
    ⟨(⟨0x44, 1, 2⟩ : MemRow), State.reset, by decide +kernel⟩,
    ⟨(⟨0x44, 1, 2⟩ : MemRow), true, State.reset, by decide +kernel⟩,
    ⟨(⟨0x44, 1, 2⟩ : MemRow), State.reset, by decide +kernel⟩,
    ⟨(⟨0x44, 1, 2⟩ : MemRow), { State.reset with bst.copying := [(0x44, 1, 2)] }, by decide +kernel⟩,
    ⟨State.reset, by decide +kernel⟩,
    ⟨token, [], tokened, by decide +kernel⟩,
    ⟨(⟨List.replicate 44 0⟩ : Token), [], { State.reset with bst.tokens := [(⟨List.replicate 44 0⟩ : Token)] },
      by decide +kernel⟩⟩

/-- Inputs that meet the hypotheses of HoldUp, clause by clause. -/
theorem witness_HoldUp :
    (∃ (v : Nat) (s : State), (v < 19000000 ∨ s.hldState = hldCommit)) ∧
    (∃ (v : Nat) (s : State), 19000000 ≤ v ∧ s.hldState = hldCharging ∧ s.led.readySeen = false) ∧
    (∃ (s : State), (s.fld Reg.HLD_CFG Fld.HLD_CFG.RECHK = 0 ∨ s.inRun = false ∨ s.led.readySeen = false)) ∧
    (∃ (n : Nat) (s : State), s.fld Reg.HLD_CFG Fld.HLD_CFG.RECHK ≠ 0 ∧ s.inRun = true ∧ s.led.readySeen = true ∧
      s.hldState ≠ hldChecking ∧ s.hldState ≠ hldCommit ∧ s.led.lastCheck + s.fld Reg.HLD_CFG Fld.HLD_CFG.RECHK *
      3600 * esPerSecond ≤ (s.at n).runTime) ∧
    (∃ (s : State), s.hldState ≠ hldChecking) ∧
    (∃ (s : State), s.hldState = hldChecking) ∧
    (∃ (v : Nat) (s : State), (s.pumpRuns = false ∨ 18000000 ≤ v)) ∧
    (∃ (v : Nat) (s : State), s.pumpRuns = true ∧ v < 18000000) ∧
    (∃ (s : State), (s.pwr.asleep = true ∨ s.led.lost = true)) ∧
    (∃ (s : State), s.pwr.asleep = false ∧ s.led.lost = false) :=
  ⟨⟨0, State.reset, by decide +kernel⟩,
    ⟨19000000, (State.reset.setFld Reg.HLD_STAT Fld.HLD_STAT.STATE hldCharging), by decide +kernel⟩,
    ⟨State.reset, by decide +kernel⟩,
    ⟨(3600 * esPerSecond), { (State.reset.setFld Reg.HLD_CFG Fld.HLD_CFG.RECHK 1) with led.readySeen := true },
      by decide +kernel⟩,
    ⟨State.reset, by decide +kernel⟩,
    ⟨(State.reset.setFld Reg.HLD_STAT Fld.HLD_STAT.STATE hldChecking), by decide +kernel⟩,
    ⟨18000000, State.reset, by decide +kernel⟩,
    ⟨17999999, State.reset, by decide +kernel⟩,
    ⟨{ State.reset with pwr.asleep := true }, by decide +kernel⟩,
    ⟨State.reset, by decide +kernel⟩⟩

/-- Inputs that meet the hypotheses of LedgerAndDieLink, clause by clause. -/
theorem witness_LedgerAndDieLink :
    (∃ (s : State), s.led.queue = []) ∧
    (∃ (e : LedgerEntry) (rest : List LedgerEntry) (s : State), s.led.queue = e :: rest ∧ s.head % sectorUnits = 0) ∧
    (∃ (e : LedgerEntry) (rest : List LedgerEntry) (s : State), s.led.queue = e :: rest ∧ s.head % sectorUnits ≠ 0 ∧
      s.led.written + 1 < e.units) ∧
    (∃ (e : LedgerEntry) (rest : List LedgerEntry) (s : State), s.led.queue = e :: rest ∧ s.head % sectorUnits ≠ 0 ∧
      e.units ≤ s.led.written + 1) ∧
    (∃ (s : State), (s.led.refused = 0 ∨ s.led.accepting = false ∨ s.overflowRoom = false)) ∧
    (∃ (s : State), s.led.refused ≠ 0 ∧ s.led.accepting = true ∧ s.overflowRoom = true) ∧
    (∃ (id : Nat) (d : List Byte) (s : State), (s.exporting = false ∨ id ≠ 0x7E0 ∨ d.length ≠ 6 ∨ d.take 2 ≠ [0x4C,
      0x47])) ∧
    (∃ (b0 : Byte) (b1 : Byte) (b2 : Byte) (b3 : Byte) (u : Nat) (s : State), s.exporting = true ∧ u = b0.toNat + 256
      * b1.toNat + 65536 * b2.toNat + 16777216 * b3.toNat ∧ u < logUnits) ∧
    (∃ (q : BitVec 16) (s : State), q.toNat = s.dlink.fieldSeq) ∧
    (∃ (q : BitVec 16) (s : State), q.toNat = s.dlink.coreSeq) ∧
    (∃ (q : BitVec 16) (s : State), q.toNat = s.dlink.fieldSeq ∧ s.led.sent = []) ∧
    (∃ (q : BitVec 16) (p : List Byte) (crc : Word), crc ≠ dlinkCheck 2 q p) ∧
    (∃ (q : BitVec 16) (p : List Byte) (crc : Word) (s : State), crc ≠ dlinkCheck 1 q p ∧ s.dlink.fieldFails < 3) ∧
    (∃ (q : BitVec 16) (p : List Byte) (crc : Word) (s : State), crc ≠ dlinkCheck 1 q p ∧ 3 ≤ s.dlink.fieldFails) :=
  ⟨⟨State.reset, by decide +kernel⟩,
    ⟨(⟨0, List.replicate 8 0⟩ : LedgerEntry), [], { State.reset with led.queue := [(⟨0, List.replicate 8 0⟩ :
      LedgerEntry)] }, by decide +kernel⟩,
    ⟨(⟨0, List.replicate 16 0⟩ : LedgerEntry), [], { (State.reset.setFld Reg.HLD_HEAD Fld.HLD_HEAD.UNIT 1) with
      led.queue := [(⟨0, List.replicate 16 0⟩ : LedgerEntry)] }, by decide +kernel⟩,
    ⟨(⟨0, List.replicate 8 0⟩ : LedgerEntry), [], { (State.reset.setFld Reg.HLD_HEAD Fld.HLD_HEAD.UNIT 1) with
      led.queue := [(⟨0, List.replicate 8 0⟩ : LedgerEntry)] }, by decide +kernel⟩,
    ⟨State.reset, by decide +kernel⟩,
    ⟨{ State.reset with led.refused := 2 }, by decide +kernel⟩,
    ⟨0, [], State.reset, by decide +kernel⟩,
    ⟨7, 0, 0, 0, 7, { (((State.reset.setFld Reg.SYS_BOOTSTAT Fld.SYS_BOOTSTAT.CODE 2).setFld Reg.HLD_CFG
      Fld.HLD_CFG.EXPEN 1).setFld (Reg.CLK_PLLp_STAT 0) Fld.CLK_PLLp_STAT.STATE 3) with hic.core0 := 2 },
      by decide +kernel⟩,
    ⟨0, State.reset, by decide +kernel⟩,
    ⟨0, State.reset, by decide +kernel⟩,
    ⟨0, { State.reset with led.sent := [] }, by decide +kernel⟩,
    ⟨0, [], 0, by decide +kernel⟩,
    ⟨0, [], 0, State.reset, by decide +kernel⟩,
    ⟨0, [], 0, { State.reset with dlink.fieldFails := 3 }, by decide +kernel⟩⟩

/-- Inputs that meet the hypotheses of ResetsAssertAndRelease, clause by clause. -/
theorem witness_ResetsAssertAndRelease :
    (∃ (s : State), s.pwr.held = none) ∧
    (∃ (d : Nat) (s : State), s.pwr.held = some d) ∧
    (∃ (s : State), s.pwr.swsysAt = none) ∧
    (∃ (n : Nat) (s : State), s.pwr.swsysAt = some n ∧ s.pwr.held = none) ∧
    (∃ (s : State), s.bst.lcsNext.all (fun n => !n.durable) = true) ∧
    (∃ (s : State), s.bst.lcsNext.any (·.durable) = true ∧ s.pwr.held = none) ∧
    (∃ (s : State), s.led.lost = false) ∧
    (∃ (s : State), s.led.lost = true ∧ s.pwr.held = none) ∧
    (∃ (c : Nat) (s : State), s.pwr.held = some c) :=
  ⟨⟨State.reset, by decide +kernel⟩,
    ⟨2, { State.reset with pwr.held := some 2 }, by decide +kernel⟩,
    ⟨State.reset, by decide +kernel⟩,
    ⟨6400, { State.reset with pwr.swsysAt := some 6400 }, by decide +kernel⟩,
    ⟨State.reset, by decide +kernel⟩,
    ⟨{ State.reset with bst.lcsNext := some ⟨1, 0, true⟩ }, by decide +kernel⟩,
    ⟨State.reset, by decide +kernel⟩,
    ⟨{ State.reset with led.lost := true }, by decide +kernel⟩,
    ⟨2, { State.reset with pwr.held := some 2 }, by decide +kernel⟩⟩

/-- Inputs that meet the hypotheses of BootRestoreAndPower, clause by clause. -/
theorem witness_BootRestoreAndPower :
    (∃ (s : State), s.pwr.march = false) ∧
    (∃ (s : State), s.pwr.march = true) ∧
    (∃ (f : List FlashSlot) (s : State), s.pwr.march = true ∧ (s.lcs = lcsDecommissioned ∨ f = [])) ∧
    (∃ (s : State), s.pwr.sealDue = false) ∧
    (∃ (s : State), s.pwr.sealDue = true ∧ s.image = none) ∧
    (∃ (i : Image) (s : State), s.pwr.sealDue = true ∧ s.image = some i) ∧
    (∃ (s : State), (s.pwr.restoring = false ∨ s.image = none)) ∧
    (∃ (i : Image) (s : State), s.image = some i ∧ s.pwr.restoring = true) ∧
    (∃ (k : Fin 5) (b : Bool) (p : Nat) (n : Nat) (s : State), (s.at n).wakeValid k.val b p = false) ∧
    (∃ (k : Fin 5) (b : Bool) (p : Nat) (n : Nat) (s : State), (s.at n).wakeValid k.val b p = true ∧ s.powerState =
      pwrSleep ∧ s.pwr.held = none) ∧
    (∃ (s : State), s.powerState = pwrRun ∧ s.pwr.enterAt = none) ∧
    (∃ (s : State), (s.powerState ≠ pwrPark ∨ s.pwr.waking = false)) ∧
    (∃ (n : Nat) (s : State), s.powerState = pwrPark ∧ s.pwr.waking = true ∧ ((s.at n).pllServes 1 || (s.at
      n).pllGone 1 || !(s.at n).pllEn 1)) ∧
    (∃ (s : State), (s.powerState ≠ pwrSleep ∨ s.pwr.asleep = true)) ∧
    (∃ (s : State), s.powerState = pwrSleep ∧ s.pwr.asleep = false) ∧
    (∃ (r : Fin 16), r.val % 8 ≠ 0) :=
  ⟨⟨{ State.reset with pwr.march := false }, by decide +kernel⟩,
    ⟨State.reset, by decide +kernel⟩,
    ⟨[], State.reset, by decide +kernel⟩,
    ⟨State.reset, by decide +kernel⟩,
    ⟨{ State.reset with pwr.sealDue := true }, by decide +kernel⟩,
    ⟨{}, { State.reset with pwr.sealDue := true, image := some {} }, by decide +kernel⟩,
    ⟨State.reset, by decide +kernel⟩,
    ⟨{}, { State.reset with pwr.restoring := true, image := some {} }, by decide +kernel⟩,
    ⟨0, false, 0, 0, State.reset, by decide +kernel⟩,
    ⟨0, false, (256 * 640000), 0, (((State.reset.setFld Reg.PWR_STATE Fld.PWR_STATE.STATE pwrSleep).setFld
      Reg.PWR_WAKECFG Fld.PWR_WAKECFG.EN 1).setFld Reg.PWR_WAKECFG Fld.PWR_WAKECFG.EDGE0 2), by decide +kernel⟩,
    ⟨State.reset, by decide +kernel⟩,
    ⟨State.reset, by decide +kernel⟩,
    ⟨0, { ((State.reset.setFld Reg.PWR_STATE Fld.PWR_STATE.STATE pwrPark).setFld (Reg.CLK_PLLp_STAT 1)
      Fld.CLK_PLLp_STAT.STATE 3) with pwr.waking := true }, by decide +kernel⟩,
    ⟨State.reset, by decide +kernel⟩,
    ⟨(State.reset.setFld Reg.PWR_STATE Fld.PWR_STATE.STATE pwrSleep), by decide +kernel⟩,
    ⟨1, by decide +kernel⟩⟩

/-! ### Ill-formed commands are refused -/

/-- A descriptor's slot, epoch, SEQ and CARAVAN_ID in their widths, and one more than they hold. -/
theorem smoke_origin :
    Instr.wf (.nop { o0 with slot := 4095, epoch := 255, seq := 65535, caravanId := 65535 } 0) = true ∧
    Instr.wf (.nop { o0 with slot := 4096 } 0) = false ∧ Instr.wf (.nop { o0 with epoch := 256 } 0) = false ∧
    Instr.wf (.nop { o0 with seq := 65536 } 0) = false ∧ Instr.wf (.nop { o0 with caravanId := 65536 } 0) = false := by decide

/-- Bindings, engine addresses, classes and the words a vote phase copies. -/
theorem smoke_engine :
    Instr.wf (.tickBoundary [⟨true, 255, 1⟩]) = true ∧ Instr.wf (.tickBoundary [⟨true, 256, 1⟩]) = false ∧
    Instr.wf (.outputTransfer [⟨false, 256, 1⟩]) = false ∧
    Instr.wf (.engineStart [⟨0, 0, none, 0xFFF, 1⟩] none 15 15) = true ∧
    Instr.wf (.engineStart [⟨0, 0, none, 0x1000, 1⟩] none 0 0) = false ∧
    Instr.wf (.engineStart [] none 16 0) = false ∧ Instr.wf (.engineStart [] none 0 16) = false ∧
    Instr.wf (.votePhase (some 384) none) = true ∧ Instr.wf (.votePhase (some 385) none) = false := by decide

/-- Trip sources, and what sensors and links report. -/
theorem smoke_reports :
    Instr.wf (.tripFilterActive 65536 0 1 0) = false ∧ Instr.wf (.tripFilterInactive 0 65536 1 0) = false ∧
    Instr.wf (.sentFrame 0 56 0 [15] 15 false 0 0) = true ∧ Instr.wf (.sentFrame 0 56 0 [16] 0 false 0 0) = false ∧
    Instr.wf (.sentFrame 0 56 16 [0] 0 false 0 0) = false ∧ Instr.wf (.ssiFrame 0 (2 ^ 32) 0) = false ∧
    Instr.wf (.iskCollectionJudge 0 [[255]] 0) = true ∧ Instr.wf (.iskCollectionJudge 0 [[256]] 0) = false ∧
    Instr.wf (.iskEnumeration 0 (some 256) 0) = false ∧ Instr.wf (.isk1Poll 0 (some [256]) 0) = false := by decide

/-- Lengths of frames, transfers and boot headers. -/
theorem smoke_lengths :
    Instr.wf (.canFrameReceived 0 0 0 0 0 (List.replicate 65 0) 0 0) = false ∧
    Instr.wf (.ethFrameReceived 0 (List.replicate 2049 0) true 0 0 0) = false ∧
    Instr.wf (.xspCommandDone (List.replicate 257 0)) = false ∧
    Instr.wf (.dlinkFrameReceive true 1 0 (List.replicate 33 0) 0) = false ∧
    Instr.wf (.timebaseZero 0 3) = true ∧ Instr.wf (.timebaseZero 0 4) = false ∧
    Instr.wf (.ledgerExportRequest 0x7E0 (List.replicate 65 0)) = false ∧
    Instr.wf (.marchDone [] [⟨List.replicate 256 0, []⟩] false) = true ∧ Instr.wf (.marchDone [] [⟨List.replicate 255 0, []⟩] false) = false := by decide +kernel

/-! ### Commands run -/

/-- What a command leaves, by a test of it. -/
def leaves (c : Instr) (s : State) (p : State → Bool) : Bool :=
  match exec c s with
  | .next t => p t
  | _ => false

/-- Ring 0 with 16 slots. -/
def sized : State := State.reset.setFld (Reg.CMD_SQn_CFG 0) Fld.CMD_SQn_CFG.SIZE 16

/-- R38: an index of SIZE - 1 is taken. -/
theorem test_doorbell_last : leaves (.sqDoorbellWrite 0 15) sized (fun t => (t.sq 0).pi == 15) = true := by decide +kernel

/-- R38: an index of SIZE is ignored and counted. -/
theorem test_doorbell_beyond : leaves (.sqDoorbellWrite 0 16) sized (fun t =>
    (t.sq 0).pi == 0 && t.fld (Reg.CMD_SQn_CNT 0) Fld.CMD_SQn_CNT.BADDB == 1) = true := by decide +kernel

/-- R20: a read of the low half copies the upper 16 bits. -/
theorem test_tickcnt_latch : leaves .tickcntLoRead { State.reset with tick := 0x123456789ABC } (fun t =>
    t.bus == .value 0x56789ABC && t.reg Reg.CLK_TICKCNT_HI == 0x1234) = true := by decide +kernel

/-- R20: the boundary after the last value of the counter leads to 0. -/
theorem test_tick_wraps : leaves (.tickBoundary []) { ticks with tick := 0xFFFFFFFFFFFF } (fun t => t.tick == 0) = true := by
  decide +kernel

end Sys2Proof.Tests
end

section
/-! PROOFS. The obligations on the scope of the model: the values after reset, the frame of every command, writes on the
register bus, and the ledger with the die link. -/

namespace Sys2Proof.Machine

/-! ### Reset values of the register tables -/

/-- How many registers a row of a register table stands for. -/
def RegDesc.count (d : RegDesc) : Nat := d.dims.foldr (fun e n => e.2 * n) 1

theorem arrayIndex_lt {dims : List (Nat × Nat)} {r i j : Nat} (h : arrayIndex dims r i = some j) :
    j < (i + 1) * dims.foldr (fun e n => e.2 * n) 1 := by
  induction dims generalizing r i with
  | nil =>
    unfold arrayIndex at h
    split at h
    · cases h; simp
    · cases h
  | cons e dims ih =>
    unfold arrayIndex at h
    split at h
    case isFalse => cases h
    case isTrue hlt =>
      calc j < (i * e.2 + r / e.1 + 1) * _ := ih h
        _ ≤ ((i + 1) * e.2) * _ := Nat.mul_le_mul_right _ (by rw [Nat.succ_mul]; omega)
        _ = (i + 1) * _ := Nat.mul_assoc _ _ _

theorem RegDesc.index?_lt {d : RegDesc} {off i : Nat} (h : d.index? off = some i) : i < d.count := by
  unfold RegDesc.index? at h
  split at h
  · cases h
  · exact (arrayIndex_lt h).trans_eq (Nat.one_mul _)

theorem findReg_index {l : List RegDesc} {off i : Nat} {d : RegDesc} (h : findReg l off = some (d, i)) : i < d.count := by
  induction l with
  | nil => cases h
  | cons x l ih =>
    unfold findReg at h
    split at h
    · next hx => cases h; exact RegDesc.index?_lt hx
    · exact ih h

/-- Every reset value of a row fits its field. -/
def RegDesc.resetsFit (d : RegDesc) : Bool :=
  (List.range d.count).all fun i => d.fields.all fun f => decide (f.reset i < 2 ^ f.bits.width)

theorem tables_resetsFit : (List.range 22).all (fun u => (regsOfUnit u).all RegDesc.resetsFit) = true := by
  decide +kernel

theorem unit_lt_of_mem {u : Nat} {d : RegDesc} (h : d ∈ regsOfUnit u) : u < 22 := by
  by_contra hn
  match u, hn, h with
  | n + 22, _, h => cases h

theorem regAt_resetFits {a i : Nat} {d : RegDesc} (h : regAt a = some (d, i)) :
    ∀ f ∈ d.fields, f.reset i < 2 ^ f.bits.width := by
  unfold regAt at h
  split at h
  · cases h
  · have hd := findReg_mem h
    have hrow : d.resetsFit = true :=
      List.all_eq_true.1 (List.all_eq_true.1 tables_resetsFit _ (List.mem_range.2 (unit_lt_of_mem hd))) d hd
    have hindex := List.all_eq_true.1 hrow i (List.mem_range.2 (findReg_index h))
    exact fun f hf => of_decide_eq_true (List.all_eq_true.1 hindex f hf)

/-- A value that fits a field, moved to the field's place, is the field alone. -/
theorem Bits.shift_eq_only {f : Bits} {v : Nat} (hv : v < 2 ^ f.width) : BitVec.ofNat 32 v <<< f.lo = f.only v := by
  apply BitVec.eq_of_toNat_eq
  simp [Bits.only, Bits.put, Nat.mod_eq_of_lt hv, Nat.shiftLeft_eq]

/-- One step of the reset word: a field's reset value joins the fields before it. -/
def orReset (i : Nat) (w : Word) (f : FieldDesc) : Word := w ||| (BitVec.ofNat 32 (f.reset i) <<< f.bits.lo)

theorem RegDesc.resetWord_eq (d : RegDesc) (i : Nat) : d.resetWord i = d.fields.foldl (orReset i) 0 := rfl

theorem orReset_other {i : Nat} {f : FieldDesc} {g : Bits} (w : Word) (hf : f.reset i < 2 ^ f.bits.width)
    (h : Bits.apart f.bits g = true) : g.of (orReset i w f) = g.of w := by
  unfold orReset
  rw [Bits.of_or, Bits.shift_eq_only hf, Bits.of_only_other _ (by simpa [Bits.apart] using h), Nat.or_zero]

theorem orResets_other {i : Nat} {g : Bits} (fs : List FieldDesc) (w : Word)
    (hfit : ∀ f ∈ fs, f.reset i < 2 ^ f.bits.width) (h : ∀ f ∈ fs, Bits.apart f.bits g = true) :
    g.of (fs.foldl (orReset i) w) = g.of w := by
  induction fs generalizing w with
  | nil => rfl
  | cons f fs ih =>
    simp only [List.forall_mem_cons] at hfit h
    rw [List.foldl_cons, ih _ hfit.2 h.2, orReset_other w hfit.1 h.1]

/-- A field of fields that are apart reads its own reset value where the word held 0 before. -/
theorem orResets_of {i : Nat} {f : FieldDesc} (fs : List FieldDesc) (w : Word) (hap : fieldsApart fs = true)
    (hfit : ∀ g ∈ fs, g.reset i < 2 ^ g.bits.width) (hf : f ∈ fs) (hw : f.bits.of w = 0) :
    f.bits.of (fs.foldl (orReset i) w) = f.reset i := by
  induction fs generalizing w with
  | nil => cases hf
  | cons x fs ih =>
    simp only [fieldsApart, Bool.and_eq_true, decide_eq_true_eq, List.all_eq_true] at hap
    obtain ⟨⟨⟨hin, -⟩, hx⟩, hap⟩ := hap
    simp only [List.forall_mem_cons] at hfit
    obtain ⟨hfx, hfit⟩ := hfit
    rw [List.foldl_cons]
    cases hf with
    | head =>
      rw [orResets_other fs _ hfit fun g hg => (hx g hg).2, orReset, Bits.of_or, hw, Nat.zero_or,
        Bits.shift_eq_only hfx, Bits.of_only _ _ hin, Nat.mod_eq_of_lt hfx]
    | tail _ hf => exact ih _ hap hfit hf ((orReset_other w hfx (hx f hf).1).trans hw)

/-- A field of a register's default word holds the reset value of the table. -/
theorem regDefault_field {a i : Nat} {d : RegDesc} (h : regAt a = some (d, i)) {f : FieldDesc} (hf : f ∈ d.fields) :
    f.bits.of (regDefault a) = f.reset i := by
  unfold regDefault
  rw [h]
  refine orResets_of d.fields 0 (regAt_apart h) (regAt_resetFits h) hf ?_
  simp [Bits.of]

theorem State.reset_reg (a : Nat) : State.reset.reg a = regDefault a := rfl

theorem State.reset_byte (a : Nat) : State.reset.byte a = 0 := rfl

/-- Settles O2: the reset values fit their fields and the fields of a register are apart, so each field of the default
word is the table's own value; the register file after reset lists nothing else. -/
theorem resetHoldsTheTableValues : Obligations.ResetHoldsTheTableValues := by
  refine ⟨fun a i d h f hf => ?_, rfl, by decide +kernel, State.reset_byte, rfl, rfl⟩
  rw [State.reset_reg, regDefault_field h hf, Nat.mod_eq_of_lt (regAt_resetFits h f hf)]

/-! ### The frame of every command -/

/-- Settles O6: the mask that `exec` keeps for each command lies within the parts that `touches` lists. -/
theorem everyCommandCompletesAndKeepsTheRest : Obligations.EveryCommandCompletesAndKeepsTheRest := by
  intro c s
  obtain ⟨t, hexec, hframe⟩ := exec_next c s
  exact ⟨t, hexec, hframe.kept (covered_ofCmd c)⟩

/-! ### Writes on the register bus -/

/-- Settles O31, from the effects of REGISTER_WRITE and of WDOG_SERVICE. -/
theorem writesReachRegisters : Obligations.WritesReachRegisters := by
  obtain ⟨hunreached, hshut, hout, hdir⟩ := registerWrite_does
  exact ⟨hunreached, hshut, hout, hdir, wdogService_does⟩

/-! ### The ledger and the die link -/

/-- Settles O56, from the effects of the ledger writer's commands and of those of the die link. -/
theorem ledgerAndDieLink : Obligations.LedgerAndDieLink := by
  obtain ⟨hidle, hheader, hunit, hlast⟩ := ledgerUnitWritten_does
  obtain ⟨hnotOwed, howed⟩ := ledgerOverflowEntry_does
  obtain ⟨htakenField, htakenCore, hcontrol, hbad, hretry, hdown⟩ := dlinkFrameReceive_does
  exact ⟨hidle, hheader, hunit, hlast, hnotOwed, howed, ledgerExportRequest_does, ledgerExportRequest_runs,
    htakenField, htakenCore, hcontrol, hbad, hretry, hdown, dlinkHeartbeatTimeout_does, fieldDieIdentity_does⟩

end Sys2Proof.Machine
end

section
/-! PROOFS. The obligations on the architecture: sound states under every step, the tick counter, fetch slots and
caravans, the instants of a tick, and the passes of the engine. -/

namespace Sys2Proof.Machine

/-! ### Sound states -/

/-- What a step can do: with no command waiting a fabric cycle passes; else the front command leaves the queue and
is executed. -/
theorem step_cases {s t : State} (h : step s = .next t) :
    (s.pending = [] ∧ t = s.idle) ∨
      ∃ c rest, s.pending = c :: rest ∧ exec c { s with pending := rest } = .next t := by
  unfold step at h
  cases hq : s.pending with
  | nil =>
    rw [hq] at h
    cases h
    exact .inl ⟨rfl, rfl⟩
  | cons c rest =>
    rw [hq] at h
    exact .inr ⟨c, rest, rfl, h⟩

/-- Soundness speaks of neither time nor queue: a fabric cycle that passes keeps it. -/
theorem State.Sound.idle {s : State} (h : s.Sound) : s.idle.Sound := h

/-- A sound state is sound with any other queue. -/
theorem State.Sound.withQueue {s : State} (h : s.Sound) (q : List Instr) : State.Sound { s with pending := q } := h

/-- The tick counter of a sound state lies within its 48 bits (R20). -/
theorem State.Sound.tick_lt {s : State} (h : s.Sound) : s.tick < 2 ^ 48 := by
  obtain ⟨⟨_, _, _, htick, _⟩, _⟩ := h
  exact htick

/-- Settles O5: a cycle that passes keeps soundness, and so does every command, by its frame. -/
theorem stepKeepsStatesSound : Obligations.StepKeepsStatesSound := by
  intro s t hs h
  obtain ⟨_, rfl⟩ | ⟨c, rest, _, hexec⟩ := step_cases h
  · exact hs.idle
  · exact exec_sound (hs.withQueue rest) hexec

/-! ### The tick counter -/

/-- Settles O9, from the effects of a boundary that is due and of the reads of the counter's halves. -/
theorem tickCounterCountsBoundaries : Obligations.TickCounterCountsBoundaries := by
  obtain ⟨_, hdue⟩ := tickBoundary_does
  exact ⟨rfl, fun f s h => (hdue f s h).mono fun _ ht => ht.1, fun _ h => h.tick_lt, tickcntLoRead_does, tickcntHi_read⟩

/-! ### Fetch slots and caravans -/

/-- Settles O12, from the effects of the fetch slot, of the cut-off and of the two commands that apply caravans. -/
theorem fetchedCaravansApplyWhole : Obligations.FetchedCaravansApplyWhole := by
  obtain ⟨hnone, hpasses, hhalts⟩ := fetchSlot_does
  exact ⟨hnone, hpasses, hhalts, caravanCutoff_does, caravanApplication_does, stoppedTickApplication_does⟩

/-! ### The tick and the engine -/

/-- Settles O46, from the effects of the commands that come at the instants of a tick, in their order (R22). -/
theorem tickInstants : Obligations.TickInstants := by
  obtain ⟨hearly, hdue⟩ := tickBoundary_does
  obtain ⟨hvalid, hwords⟩ := signalPublish_does
  obtain ⟨hstopped, hstarts⟩ := engineStart_does
  obtain ⟨hheld, hexpired⟩ := holdExpiry_does
  obtain ⟨hwatching, hwatched⟩ := shadowWatchEnd_does
  exact ⟨hearly, hdue, windowFreeze_does, hvalid, hwords, hstopped, hstarts, hheld, hexpired, hwatching, hwatched⟩

/-- Settles O47, from the effects of the vote, its deadline, the scrub and the transfer of outputs. -/
theorem enginePasses : Obligations.EnginePasses := by
  obtain ⟨hnotDue, hvoted⟩ := votePhase_does
  obtain ⟨hmiss, hcomplete⟩ := engineDeadline_does
  obtain ⟨hstopped, hnoStall, hstall⟩ := stateScrub_does
  obtain ⟨hkept, hsent⟩ := outputTransfer_does
  exact ⟨hnotDue, hvoted, hmiss, hcomplete, hstopped, hnoStall, hstall, hkept, hsent⟩

end Sys2Proof.Machine
end

section
/-! PROOFS. The obligations on the command rings: the state after reset, doorbells and ring control, records and their
PSNs, descriptors on registers and tables, the writes of the system block, and the memory scans with the image. -/

namespace Sys2Proof.Machine

/-! ### The state after reset -/

/-- Settles O1: no store of the state after reset lists an entry, and its tick and PSN are those of O2. -/
theorem resetIsSound : Obligations.ResetIsSound := by
  obtain ⟨-, htick, hpsn, -⟩ := resetHoldsTheTableValues
  exact ⟨⟨rfl, rfl, rfl, by rw [htick]; decide, by rw [hpsn]; decide⟩, rfl⟩

/-! ### Rings -/

/-- Settles O7, from the effects of the three doorbells. -/
theorem doorbellsMoveTheIndices : Obligations.DoorbellsMoveTheIndices :=
  ⟨sqDoorbellWrite_does, cqConsumerIndexWrite_does, eqConsumerIndexWrite_does⟩

/-- Settles O8, from the effects of the three bits of CMD_SQn_CTRL. -/
theorem ringControlActsOnTheRing : Obligations.RingControlActsOnTheRing :=
  ⟨resume_does, flush_does, clrcnt_does⟩

/-- Settles O13, from the effects of EN on submission rings and on record rings. -/
theorem enablingAndDisablingRings : Obligations.EnablingAndDisablingRings :=
  ⟨sqEnable_does, ringDisable_does, cqEqEnable_does⟩

/-- Settles O14, from the effects of EVT_ACK and of the three commands that post records. -/
theorem recordsTakePsns : Obligations.RecordsTakePsns :=
  ⟨evtAck_does, completionPosting_does, flushRecordPost_does, eqOverflow_does⟩

/-! ### Descriptors -/

/-- A descriptor that is DONE leaves no record just where it asks for none and is not late (R56, R64). -/
theorem silentDone_iff {late creq : Bool} :
    (decide (lateStatus late stDone = stDone) && !creq) = true ↔ creq = false ∧ late = false := by
  cases late <;> cases creq <;> decide

/-- Settles O11: the effect of REG_READ, with its record where `silentDone_iff` has the descriptor leave one. -/
theorem regReadReturnsTheSample : Obligations.RegReadReturnsTheSample := by
  constructor
  · intro o unit inst offset a s htimely hcmd hhic hxsp hinst hreg hrecord
    have hloud : ¬(o.creq = false ∧ o.late = false) := by
      rintro ⟨hcreq, hlate⟩
      simp [hcreq, hlate] at hrecord
    refine (regRead_does o unit inst offset a s htimely hcmd hhic hxsp hinst hreg).mono ?_
    rintro t ⟨hdone, c, hposting, hvalue⟩
    rw [if_neg (mt silentDone_iff.mp hloud)] at hposting
    exact ⟨hdone, c, hposting, hvalue⟩
  · intro o unit inst offset a s htimely hcmd hhic hxsp hinst hreg hcreq hlate
    refine (regRead_does o unit inst offset a s htimely hcmd hhic hxsp hinst hreg).mono ?_
    rintro t ⟨hdone, c, hposting, -⟩
    rw [if_pos (silentDone_iff.mpr ⟨hcreq, hlate⟩), List.append_nil] at hposting
    exact ⟨hdone, hposting⟩

/-- Settles O15, from the effects of NOP, REG_WRITE and TABLE_LOAD. -/
theorem descriptorsOnRegistersAndTables : Obligations.DescriptorsOnRegistersAndTables :=
  ⟨nop_does, regWrite_does, tableLoad_does⟩

/-! ### The system block -/

/-- Settles O22, from the effects of the writes of the system block. -/
theorem setupAndBootWrites : Obligations.SetupAndBootWrites :=
  ⟨setupLock_does, f2Clear_does, bootOk_does, bootCommit_does, swsysWrite_does, restoreGo_does, swsubWrite_does⟩

/-! ### Scans and the image -/

/-- Settles O53, from the effects of a scan's start, of the end of its targets and of the seal. -/
theorem scansAndImage : Obligations.ScansAndImage := by
  obtain ⟨hnoPeriod, hstarts⟩ := scanPeriodStart_does
  obtain ⟨hidle, hpass⟩ := scanTargetDone_does
  obtain ⟨hnoCapture, hsealed⟩ := imageSealed_does
  exact ⟨hnoPeriod, hstarts, hidle, hpass, hnoCapture, hsealed⟩

end Sys2Proof.Machine
end

section
/-! PROOFS. The obligation on ordering and recovery (chapter 03): the tick counter through every recovery path. -/

namespace Sys2Proof.Machine

/-! ### The tick counter through recovery (R94) -/

/-- Settles O10: the masks that `exec` keeps leave the counter to TICK_BOUNDARY and RESET_RELEASE; a boundary that is
due counts one, and at any other instant TICK_BOUNDARY leaves the whole state (log 5). -/
theorem onlyBoundariesMoveTheTick : Obligations.OnlyBoundariesMoveTheTick := by
  obtain ⟨hearly, hdue⟩ := tickBoundary_does
  refine ⟨tick_moves, fun f s h => ?_, fun f s h => ?_⟩
  · exact (hdue f s h).mono fun _ ⟨htick, _⟩ => htick
  · exact (hearly f s h).mono fun _ ht => congrArg State.tick ht

end Sys2Proof.Machine
end

section
/-! PROOFS. The obligations on the control engine (chapter 04): the descriptors that stop, start and set stalls, and
the bus writes that start the engine, bind signals and run PLLs and timebases. -/

namespace Sys2Proof.Machine

/-! ### Descriptors of the engine -/

/-- Settles O16, from the effects of the five descriptors of the engine. -/
theorem engineDescriptors : Obligations.EngineDescriptors :=
  ⟨stallStop_does, stallStart_does, paramWrite_does, setpoint_does, scheduleSelect_does⟩

/-! ### Writes of the engine, PLLs and timebases -/

/-- Settles O24, from the effects of the writes: a PLL is programmed by its configuration word or by its fraction. -/
theorem engineAndTimebaseWrites : Obligations.EngineAndTimebaseWrites := by
  obtain ⟨hconfig, hfraction⟩ := pllProgramWrite_does
  exact ⟨engRunSet_does, engBindWrite_does, hconfig, hfraction, timebaseRun_does, ldallWrite_does⟩

end Sys2Proof.Machine
end

section
/-! PROOFS. The obligations on the PWM generator (chapter 07): its descriptors, the zeros and half-period points of its
timebases, and the read-back of its gates. -/

namespace Sys2Proof.Machine

/-! ### Descriptors of the PWM generator -/

/-- Settles O17, from the effects of the four descriptors on pairs and timebases. -/
theorem outputDescriptors : Obligations.OutputDescriptors :=
  ⟨outputEnable_does, outputDisable_does, carrierSet_does, loadAll_does⟩

/-! ### Timebases and read-backs -/

/-- Settles O37, from the effects of a period's two instants, of the calibration and of the two read-back failures. -/
theorem timebasesAndReadbacks : Obligations.TimebasesAndReadbacks := by
  obtain ⟨hstopped, hzero⟩ := timebaseZero_does
  obtain ⟨hnoHalf, hhalf⟩ := halfPeriodPoint_does
  obtain ⟨hspare, hexhausted⟩ := gateReadbackFail_does
  obtain ⟨hgoverned, hfree⟩ := safeReadbackFail_does
  exact ⟨hstopped, hzero, hnoHalf, hhalf, delayLineCalibrated_does, hspare, hexhausted, hgoverned, hfree⟩

end Sys2Proof.Machine
end

section
/-! PROOFS. The obligations on trips and safe states (chapter 08): the descriptors that clear trips, make bridges safe,
release units and discharge, and the sources and comparators that trips come from. -/

namespace Sys2Proof.Machine

/-! ### Descriptors of the protection -/

/-- Settles O18, from the effects of TRIP_CLEAR, SAFE_REQUEST, DRIVE_ENABLE and the two sides of DISCHARGE. -/
theorem safetyDescriptors : Obligations.SafetyDescriptors := by
  obtain ⟨hstops, hstarts⟩ := discharge_does
  exact ⟨tripClear_does, safeRequest_does, driveEnable_does, hstops, hstarts⟩

/-! ### Trip sources -/

/-- Settles O38, from the effects of the two filters and of a comparator that is off or connected. -/
theorem tripSources : Obligations.TripSources := by
  obtain ⟨hoff, hconnected⟩ := comparatorCrossing_does
  exact ⟨tripFilterActive_does, tripFilterInactive_does, hoff, hconnected⟩

end Sys2Proof.Machine
end

section
/-! PROOFS. The obligations on acquisition (chapter 09): the bus writes that start acquisition and its neighbours among
the sensing blocks, conversions and comparator tests, and the delta-sigma channels. -/

namespace Sys2Proof.Machine

/-! ### Writes of the sensing blocks -/

/-- Settles O25, from the effects of the six writes. -/
theorem senseWrites : Obligations.SenseWrites :=
  ⟨acqRunWrite_does, sensvEnable_does, wrapClear_does, angleEventArm_does, wghEnable_does, iskLinkEnable_does⟩

/-! ### Conversions -/

/-- Settles O39: a slot's end with acquisition stopped, received and lost; a shadow passed, failed and not full; an
urgent request absent, started and dropped, and its end; a comparator untested and one that answers its step. -/
theorem acquisition : Obligations.Acquisition := by
  obtain ⟨hstopped, hstored, hlost⟩ := sarConversionDone_does
  obtain ⟨hpassed, hfailed, hnotFull⟩ := spareShadowEnd_does
  obtain ⟨hnotAsked, hstarted, hdropped⟩ := urgentRequest_does
  obtain ⟨hnoUrgent, hresult⟩ := urgentConversionDone_does
  obtain ⟨huntested, hanswers⟩ := comparatorTestStep_does
  exact ⟨hstopped, hstored, hlost, hpassed, hfailed, hnotFull, hnotAsked, hstarted, hdropped, hnoUrgent, hresult,
    huntested, hanswers⟩

/-! ### Delta-sigma channels -/

/-- Settles O40: a bit not sampled, CLOCKED and MANCHESTER (where the model reads R266 as log 134 says), and a sinc3
output that is not due or due. -/
theorem deltaSigma : Obligations.DeltaSigma := by
  obtain ⟨hunsampled, hclocked, hmanchester⟩ := dsBitSampled_does
  obtain ⟨hnotDue, hdue⟩ := dsSincOutput_does
  exact ⟨hunsampled, hclocked, hmanchester, hnotDue, hdue⟩

end Sys2Proof.Machine
end

section
/-! PROOFS. The obligations on position feedback (chapter 10): the descriptors on machines, angle slots and channels,
the channels that deliver pairs and edges, and the digital sensors. -/

namespace Sys2Proof.Machine

/-! ### Descriptors of field control and position -/

/-- Settles O19, from the effects of MODE_SET, ANGLE_EVENT and CHANNEL_READMIT. -/
theorem fieldDescriptors : Obligations.FieldDescriptors :=
  ⟨modeSet_does, angleEvent_does, channelReadmit_does⟩

/-! ### Channels -/

/-- Settles O41: pairs of a channel in another mode, outside the amplitude window, of a skipped quadrant and taken; edges
that are too short, make a quadrature step or are no HALL state; glitches counted and ignored. -/
theorem positionChannels : Obligations.PositionChannels := by
  obtain ⟨hresolverOff, hresolverOut⟩ := resolverPair_does
  obtain ⟨hsincosOff, hskipped, hsincosOut⟩ := sincosPair_does
  obtain ⟨hshort, hstep, hnoHall⟩ := posEdgeAccepted_does
  obtain ⟨hcounted, hignored⟩ := posGlitch_does
  exact ⟨hresolverOff, hresolverOut, resolverPair_runs, hsincosOff, hskipped, hsincosOut, sincosPair_runs, hshort,
    hstep, hnoHall, hcounted, hignored⟩

/-! ### Digital sensors -/

/-- Settles O42: SENT frames and the starts of SSI frames (back to back they wait the monoflop time, whose unit log 135
takes from Table POS-8), then SSI frames, the losses of a channel and the fault of a supply, each with the case that
leaves the state. -/
theorem digitalSensors : Obligations.DigitalSensors := by
  obtain ⟨hsentOff, hsentBad, hslow⟩ := sentFrame_does
  obtain ⟨hstart, hssiOff⟩ := ssiFrameStart_does
  obtain ⟨hnoFrame, hssiBad⟩ := ssiFrame_does
  obtain ⟨htimeout, hinTime⟩ := frameTimeout_does
  obtain ⟨hexpired, hnoCoast⟩ := coastExpired_does
  obtain ⟨hexcitation, hnoResolver⟩ := excFault_does
  obtain ⟨hsupply, hjustEnabled⟩ := sensvFault_does
  exact ⟨hsentOff, hsentBad, hslow, hstart, hssiOff, hnoFrame, hssiBad, ssiFrame_runs, htimeout, hinTime, hexpired,
    hnoCoast, hexcitation, hnoResolver, hsupply, hjustEnabled⟩

end Sys2Proof.Machine
end

section
/-! PROOFS. The obligation on field commutation (chapter 11): angle events, six-step and the start of a machine. -/

namespace Sys2Proof.Machine

/-! ### Angle events, six-step and start -/

/-- Settles O43: a slot that fires behind the sequencers and the lower slots (R318), one that nothing acts before, and one
that is not due; a crossing without a running sequencer, and one that sets the masks of the sector (Table FLD-5); then the
ends of WATCH, WAIT and CATCH (Table FLD-6), each with the case that leaves the state. -/
theorem fieldControl : Obligations.FieldControl := by
  obtain ⟨hfires, hfiresFirst, hnotDue⟩ := angleEventFire_does
  obtain ⟨hseqOff, hcrossing⟩ := sixstepCrossing_does
  obtain ⟨hwatching, hwatchEnds⟩ := watchEnd_does
  obtain ⟨hwaitEnds, hwaiting⟩ := waitEnd_does
  obtain ⟨hcatchEnds, hcatching⟩ := catchEnd_does
  exact ⟨hfires, hfiresFirst, hnotDue, hseqOff, hcrossing, hwatching, hwatchEnds, hwaitEnds, hwaiting, hcatchEnds,
    hcatching⟩

end Sys2Proof.Machine
end

section
/-! PROOFS. The obligation on the torque monitors and the discharge (chapter 12): the self test of a monitor, and the
progress check and the deadline of a discharge. -/

namespace Sys2Proof.Machine

/-! ### Self test, progress and deadline -/

/-- Settles O44: a self test that differs from the result kept at EN, and one that agrees or finds the monitor disabled
(R356); then the 100 ms check and the deadline of R364, each with no discharge running, with one that fails and with one
that goes on. -/
theorem weighHouseAndDischarge : Obligations.WeighHouseAndDischarge := by
  obtain ⟨hblind, hagrees⟩ := wghSelftest_does
  obtain ⟨hnothingToCheck, hstalled, hfalling⟩ := dischargeProgressCheck_does
  obtain ⟨hnothingDue, hmissed, hreached⟩ := dischargeDeadline_does
  exact ⟨hblind, hagrees, hnothingToCheck, hstalled, hfalling, hnothingDue, hmissed, hreached⟩

end Sys2Proof.Machine
end

section
/-! PROOFS. The obligations on one step of the block: the command at the front of the queue, and the empty queue. -/

namespace Sys2Proof.Machine

/-! ### One step -/

/-- A step with a command waiting takes it from the queue and executes it. -/
theorem step_of_waiting {c : Instr} {rest : List Instr} {s : State} (h : s.pending = c :: rest) :
    step s = exec c { s with pending := rest } := by
  unfold step
  rw [h]

/-- A step with no command waiting lets one fabric cycle pass (log 1). -/
theorem step_of_empty {s : State} (h : s.pending = []) : step s = .next s.idle := by
  unfold step
  rw [h]

/-- Settles O3: `step_of_waiting` where the queue is written into the state. -/
theorem stepRunsTheFrontCommand : Obligations.StepRunsTheFrontCommand :=
  fun _ _ _ => step_of_waiting rfl

/-- Settles O4: a fabric cycle that passes is `State.idle`, which moves the time alone. -/
theorem emptyQueueIdles : Obligations.EmptyQueueIdles :=
  fun _ h => step_of_empty h

end Sys2Proof.Machine
end

section
/-! PROOFS. The obligation on the Isnak links (chapter 13): enumeration, collection, heartbeats and Isnak-1. -/

namespace Sys2Proof.Machine

/-! ### Frames of the links -/

/-- Settles O45: a collection frame that nothing waits for and one that returns whole; an enumeration not due and one that
finds every node; heartbeats while the tick runs and while it is stopped; then the frames that a link sends (the broadcast
and the polls of Isnak-1, the edge plan and the collection frame of Isnak-2), each with the link that does not run. -/
theorem isnakLinks : Obligations.IsnakLinks := by
  obtain ⟨hnotWaiting, hjudged⟩ := iskCollectionJudge_does
  obtain ⟨hnotDue, hfound⟩ := iskEnumeration_does
  obtain ⟨hticking, hruns⟩ := iskIdleHeartbeat_does
  obtain ⟨hnoBroadcast, hbroadcast⟩ := isk1Broadcast_does
  obtain ⟨hnoPoll, hpolled⟩ := isk1Poll_does
  obtain ⟨hnoPlan, hplan⟩ := iskEdgePlanSend_does
  obtain ⟨hnoCollection, hcollection⟩ := iskCollectionSend_does
  exact ⟨hnotWaiting, hjudged, hnotDue, hfound, hticking, hruns, hnoBroadcast, hbroadcast, hnoPoll, hpolled, hnoPlan,
    hplan, hnoCollection, hcollection⟩

end Sys2Proof.Machine
end

section
/-! PROOFS. The obligations on clocks and PLLs (chapter 15): the descriptors of the system, the reads that latch, the
reference with TICK_IN and the real-time clock, and the states of a PLL. -/

namespace Sys2Proof.Machine

/-! ### Descriptors of the system -/

/-- Settles O21, from the effects of TICK_REALIGN, POWER_STATE, SCAN_START and LEDGER_NOTE. -/
theorem systemDescriptors : Obligations.SystemDescriptors :=
  ⟨tickRealign_does, powerState_does, scanStart_does, ledgerNote_does⟩

/-! ### Latched counters -/

/-- Settles O23, from the effects of the four reads. -/
theorem counterReads : Obligations.CounterReads :=
  ⟨rtcLoRead_does, mtimeLoRead_does, ethTvtTickRead_does, chkResultRead_does⟩

/-! ### The reference and the PLLs -/

/-- Settles O35: the loss and the return of the reference; HOLDOVER_TIMEOUT with the reference present and without it; an
edge of TICK_IN, its absence found, and an absence that was found before; a crystal that stops. -/
theorem referenceTickInputAndRtc : Obligations.ReferenceTickInputAndRtc := by
  obtain ⟨hpresent, hholdoverEnds⟩ := holdoverTimeout_does
  obtain ⟨hmissing, hfoundBefore⟩ := tickInMissing_does
  exact ⟨referenceLost_does, referenceReturn_does, hpresent, hholdoverEnds, tickInEdge_does, hmissing, hfoundBefore,
    rtcSourceSwitch_does⟩

/-- Settles O36, from the effects of the filter check, of a lock, of its loss and of a failure, and of a quarantine that
ends failed or passed. -/
theorem pllStates : Obligations.PllStates := by
  obtain ⟨hfailed, hpassed⟩ := pllQuarantineEnd_does
  exact ⟨pllFilterCheck_does, pllLockDeclared_does, pllUnlock_does, pllFail_does, hfailed, hpassed⟩

end Sys2Proof.Machine
end

section
/-! PROOFS. The obligations on CAN (chapter 16): the doorbells and the control of the data rings, which CAN shares with
Ethernet, the traffic of a controller, its error states, and the time-triggered matrix with the spare. -/

namespace Sys2Proof.Machine

/-! ### Doorbells and control of the data rings -/

/-- Settles O26, from the effects of the doorbell words of the four kinds of data ring. -/
theorem canAndEthernetDoorbells : Obligations.CanAndEthernetDoorbells :=
  ⟨canTxDoorbell_does, canRxConsumerWrite_does, ethTxDoorbell_does, ethRxConsumerWrite_does⟩

/-- Settles O27, from the effects of the control writes: TXRESUME, TXFLUSH and INIT of a CAN controller, TXRESUME and
TXFLUSH of a port, and the MDIO command. -/
theorem canAndEthernetControl : Obligations.CanAndEthernetControl :=
  ⟨canTxresume_does, canTxflush_does, canInitSet_does, canInitClear_does, ethTxresume_does, ethTxflush_does,
    ethMdioCommand_does⟩

/-! ### Traffic and errors of a controller -/

/-- Settles O48: a slot that is not fetched, one whose check word is wrong and one that is staged; then the start of a
frame, its end, its expiry and a reception, each with the case that leaves the state. -/
theorem canTraffic : Obligations.CanTraffic := by
  obtain ⟨hnoFetch, hunsound⟩ := canTxFetch_does
  obtain ⟨hnoStart, hstarted⟩ := canTxStart_does
  obtain ⟨hsent, hnoneSent⟩ := canFrameSent_does
  obtain ⟨hexpired, hnoneExpired⟩ := canTxExpired_does
  obtain ⟨hdeaf, hreceived⟩ := canFrameReceived_does
  exact ⟨hnoFetch, hunsound, canTxFetch_runs, hnoStart, hstarted, hsent, hnoneSent, hexpired, hnoneExpired, hdeaf,
    hreceived⟩

/-- Settles O49: an error of the bus, a change of the error state, the recovery from bus-off and the end of integration,
each with the case that leaves the state; and the next candidate of a rate detection, or the first of a new sweep. -/
theorem canErrorStates : Obligations.CanErrorStates := by
  obtain ⟨hdetecting, herror⟩ := canBusError_does
  obtain ⟨hsameState, hchanged⟩ := canErrorStateChange_does
  obtain ⟨hnotRecovering, hrecovered⟩ := canBusRecovered_does
  obtain ⟨hintegrated, hnoTraffic⟩ := canIntegrationDone_does
  obtain ⟨hnotDetecting, hnextCandidate, hnewSweep⟩ := canRateCandidateSwitch_does
  exact ⟨hdetecting, herror, hsameState, hchanged, hnotRecovering, hrecovered, hintegrated, hnoTraffic, hnotDetecting,
    hnextCandidate, hnewSweep⟩

/-! ### The matrix and the spare -/

/-- Settles O50: the start of a cycle, a column and the end of its window, each with the case that leaves the state; a
unit that does not serve, one that the spare replaces and one that finds it taken; then the spare switched onto the bus,
and its shadow passed or failed. -/
theorem canMatrixAndSpare : Obligations.CanMatrixAndSpare := by
  obtain ⟨hnoCycle, hcycle⟩ := canTtCycleStart_does
  obtain ⟨hopened, hnoEntry⟩ := canTtColumn_does
  obtain ⟨hclosed, hnoWindow⟩ := canTtWindowEnd_does
  obtain ⟨hnotServing, hreplaced, hexhausted⟩ := canUnitFailure_does
  obtain ⟨hnoSwap, hswitched⟩ := canSpareSwitchIn_does
  obtain ⟨hnoShadow, hpassed, hfailed⟩ := canShadowEnd_does
  exact ⟨hnoCycle, hcycle, hopened, hnoEntry, hclosed, hnoWindow, hnotServing, hreplaced, hexhausted, hnoSwap, hswitched,
    hnoShadow, hpassed, hfailed⟩

end Sys2Proof.Machine
end

section
/-! PROOFS. The obligations on Ethernet and vehicle time (chapter 17): the writes that steer vehicle time, the traffic of
a port, and the link with its management interface. -/

namespace Sys2Proof.Machine

/-! ### Vehicle time -/

/-- Settles O28, from the effects of the three writes that steer vehicle time. -/
theorem vehicleTimeWrites : Obligations.VehicleTimeWrites :=
  ⟨ethVtRateWrite_does, ethVtStep_does, ethVtSet_does⟩

/-! ### Traffic and link of a port -/

/-- Settles O51: a slot that is not fetched, one whose check word is wrong and one that is staged; then the start of the
head frame, its end and its expiry, each with the case that leaves the state; and a received frame of a dead block, a bad
one, one that no filter takes, one dropped and one stored. -/
theorem ethernetTraffic : Obligations.EthernetTraffic := by
  obtain ⟨hnoFetch, hunsound⟩ := ethTxFetch_does
  obtain ⟨hstarted, hnoStart⟩ := ethTxStart_does
  obtain ⟨hsent, hnoneSent⟩ := ethTxFrameSent_does
  obtain ⟨hexpired, hnoneExpired⟩ := ethTxExpired_does
  obtain ⟨hdead, hbad, hunmatched⟩ := ethFrameReceived_does
  obtain ⟨hdropped, hstored⟩ := ethFrameReceived_runs
  exact ⟨hnoFetch, hunsound, ethTxFetch_runs, hstarted, hnoStart, hsent, hnoneSent, hexpired, hnoneExpired, hdead, hbad,
    hunmatched, hdropped, hstored⟩

/-- Settles O52: vehicle time steered long ago and never; the end of an MDIO frame with none under way and with one; the
PHY's interrupt and the link; the beacons of PLCA lost and back, with a port that does not follow them. -/
theorem ethernetLinkAndTime : Obligations.EthernetLinkAndTime := by
  obtain ⟨hsteered, hnotSteered⟩ := vtTimeout_does
  obtain ⟨hidle, hdone⟩ := ethMdioDone_does
  obtain ⟨hlost, hlossUnheeded⟩ := plcaBeaconLoss_does
  obtain ⟨hback, hreturnUnheeded⟩ := plcaBeaconReturn_does
  exact ⟨hsteered, hnotSteered, hidle, hdone, ethPhyInterrupt_does, ethLinkChange_does, hlost, hlossUnheeded, hback,
    hreturnUnheeded⟩

end Sys2Proof.Machine
end

section
/-! PROOFS. The obligations on the host complex (chapter 18): the writes of its blocks, accesses with interrupts and
semaphores, watchdogs, and the flash port with pins and debugger. -/

namespace Sys2Proof.Machine

/-! ### Writes of the host complex -/

/-- Settles O29, from the effects of START, of the two invalidates, of EN and of a flash command. -/
theorem hostComplexWrites : Obligations.HostComplexWrites :=
  ⟨core1Start_does, cacheInvalidate_does, wdogEnable_does, xspCommand_does⟩

/-! ### Accesses, interrupts and semaphores -/

/-- Settles O32, from the effects of interrupt claims, semaphores and the machine timer; then an access of a core that is
misaligned, and through the uncached alias a load, a store, LR, and SC without and with its reservation. -/
theorem accessesInterruptsAndSemaphores : Obligations.AccessesInterruptsAndSemaphores := by
  obtain ⟨hmisaligned, hload, hstore, hreserve, hscFails, hscStores⟩ := coreMemoryAccess_does
  exact ⟨irqClaim_does, irqComplete_does, semRead_does, semFree_does, mtimecmpReached_does, hmisaligned, hload, hstore,
    hreserve, hscFails, hscStores⟩

/-! ### Watchdogs -/

/-- Settles O33: the pre-warning; a window that closes unserviced or with the second word missing; and the reset with none
due, too early or before the ledger has taken its entries, and in time. -/
theorem watchdogs : Obligations.Watchdogs := by
  obtain ⟨hunserviced, hsecondMissing⟩ := wdogClose_does
  obtain ⟨hnoneDue, htooEarly, hreset⟩ := wdogReset_does
  exact ⟨wdogPrewarning_does, hunserviced, hsecondMissing, hnoneDue, htooEarly, hreset⟩

/-! ### The flash port, pins and the debugger -/

/-- Settles O34: the end of a flash command; a strobe that is missing in 8D mode and in another; an edge of a pin and an
instruction of the TAP; the debugger not admitted, a core halted and a core resumed. -/
theorem flashPinsAndDebug : Obligations.FlashPinsAndDebug := by
  obtain ⟨htimedOut, hnoStrobe⟩ := xspReadTimeout_does
  obtain ⟨hshut, hhalted, hresumed⟩ := debugHalt_does
  exact ⟨xspCommandDone_does, htimedOut, hnoStrobe, gpioEdge_does, tapInstruction_does, hshut, hhalted, hresumed⟩

end Sys2Proof.Machine
end

section
/-! PROOFS. The obligation on the check units (chapter 19). -/

namespace Sys2Proof.Machine

/-! ### Configurable check units -/

/-- Settles O30, from the effects of the four registers of a check unit (ALG and SEED load the running register, DATA and
DATAB feed it) and of GO of a scan slot. -/
theorem checkUnits : Obligations.CheckUnits :=
  ⟨chkAlgWrite_does, chkSeedWrite_does, chkDataWrite_does, chkDatabWrite_does, scanGo_does⟩

end Sys2Proof.Machine
end

section
/-! PROOFS. The obligations on self-test, spares and life cycle (chapter 20) and on what the reset and power chapters add
to them: the descriptors of the tests, tests with repair and tokens, the hold-up store, resets, and boot with power. -/

namespace Sys2Proof.Machine

/-! ### Self-test, repair and tokens -/

/-- Settles O20, from the effects of UNIT_READMIT, BIST_REQUEST, LCS_TOKEN and HOLDUP_CHECK. -/
theorem selfTestDescriptors : Obligations.SelfTestDescriptors :=
  ⟨unitReadmit_does, bistRequest_does, lcsToken_does, holdupCheck_does⟩

/-- Settles O54: a rotation step that is not due, one that becomes pending, and the pending step that starts a test; the end
of a comparator's test or of none, of one that memory passes and of a readmission that fails; tests abandoned; the end of a
quarantine; the first and the second error of a row and the end of its copy; and the oldest token, valid or not. -/
theorem selfTestAndRepair : Obligations.SelfTestAndRepair := by
  obtain ⟨hcomparator, hnoTest, hmemoryPasses, hreadmissionFails⟩ := bistComplete_does
  obtain ⟨hcondition, hnothingToAbort, haborted⟩ := bistAbort_does
  obtain ⟨hnoQuarantine, hfailed, hpassed⟩ := quarantineEnd_does
  obtain ⟨hnoMemory, hfirstError, hcopyBegins⟩ := sramRowRepair_does
  obtain ⟨hnoCopy, hmapped⟩ := rowCopyDone_does
  obtain ⟨hnoToken, hvalid, hinvalid⟩ := lcsTokenVerified_does
  exact ⟨rotationStep_does, rotationStep_runs, rotationRetry_does, rotationRetry_runs, hcomparator, hnoTest, hmemoryPasses,
    hreadmissionFails, hcondition, hnothingToAbort, haborted, hnoQuarantine, hfailed, hpassed, hnoMemory, hfirstError,
    hcopyBegins, hnoCopy, hmapped, hnoToken, hvalid, hinvalid⟩

/-! ### The hold-up store -/

/-- Settles O55: a reading of VHOLD and the first READY; the periodic check not due and due; a check that ends where none
runs and one that fails; a VHOLD that is high enough and one too low; the supply lost before and lost now. -/
theorem holdUp : Obligations.HoldUp := by
  obtain ⟨hreading, hfirstReady⟩ := holdupReady_does
  obtain ⟨hnotDue, hdue⟩ := holdupPeriodic_does
  obtain ⟨hnoCheck, hfails⟩ := holdupCheckComplete_does
  obtain ⟨hholds, hdrops⟩ := vholdDrop_does
  obtain ⟨hlostBefore, hlost⟩ := supplyLoss_does
  exact ⟨hreading, hfirstReady, hnotDue, hdue, hnoCheck, hfails, hholds, hdrops, hlostBefore, hlost⟩

/-! ### Resets -/

/-- Settles O57: the power-on reset; PIN, SWSYS, LCS and the end of a commit, each where it asserts its reset and where it
asserts none; a release with no reset asserted and with one; and the end of a subsystem reset. -/
theorem resetsAssertAndRelease : Obligations.ResetsAssertAndRelease := by
  obtain ⟨hpin, hpinHeld⟩ := resetPin_does
  obtain ⟨hnoSwsys, hswsys⟩ := swsysResetAssert_does
  obtain ⟨hnotDurable, hlcs⟩ := lcsReset_does
  obtain ⟨hnoLoss, hcommitted⟩ := commitEnd_does
  obtain ⟨hnoneHeld, hreleased⟩ := resetRelease_does
  exact ⟨powerOnReset_does, hpin, hpinHeld, hnoSwsys, hswsys, hnotDurable, hlcs, hnoLoss, hcommitted, hnoneHeld, hreleased,
    swsubDone_does⟩

/-! ### Boot, restore and power states -/

/-- Settles O58: the end of the march, with the boot that it leads to and the one that stops; the seal of no image and of
one kept; a restore; a wake that is none, one from SLEEP and one in RUN; the exit of PARK and the power-down of SLEEP, each
with the case that leaves the state; and rails within and outside their range. -/
theorem bootRestoreAndPower : Obligations.BootRestoreAndPower := by
  obtain ⟨hnoMarch, hboots, hstops⟩ := marchDone_does
  obtain ⟨hnoSeal, hnoImage, hsealed⟩ := imageSealCheck_does
  obtain ⟨hnoRestore, hrestored⟩ := restoreDone_does
  obtain ⟨hnoWake, hfromSleep, hinRun⟩ := wake_does
  obtain ⟨hnoPark, hparkEnds⟩ := parkExit_does
  obtain ⟨hnoSleep, hpowersDown⟩ := sleepPowerDown_does
  obtain ⟨hwithin, houtside⟩ := supplyMonitorChange_does
  exact ⟨hnoMarch, hboots, hstops, hnoSeal, hnoImage, hsealed, hnoRestore, hrestored, hnoWake, hfromSleep, hinRun, hnoPark,
    hparkEnds, hnoSleep, hpowersDown, hwithin, houtside⟩

end Sys2Proof.Machine
end
